-- ==== Sys2Proof/Word.lean ====
section
/-! DEFINITION. The word types of the part (R3, R5, R6) and the place of a field in a register. -/

namespace Sys2Proof

/-- A 32-bit register or native word (R6). -/
abbrev Word := BitVec 32
/-- One byte of memory (R4). -/
abbrev Byte := BitVec 8

namespace Machine

/-- A field of a register: the register's address, the field's least significant bit and its width (R3). -/
structure Fd where
  a : Nat
  lo : Nat
  w : Nat
deriving DecidableEq, Repr

end Machine

end Sys2Proof
end

