-- ==== Sys2Proof/Types.lean ====
section
/-! DEFINITION. The operand types of the commands: who sends an access, the outcome codes, and the data that the
outside of the part (line, host, antenna, regulator, probe, flash) delivers with an event. -/

namespace Sys2Proof

/-- The outcome codes of R13. -/
inductive Code
  | done | held | queued | capacity | notReady | notOwner | guard | state | align | ecc | fenced | timeout | signature
  | range | aborted | withdrawn | bus
deriving DecidableEq, Repr, Inhabited

/-- The 8-bit number of an outcome code (R13). -/
def Code.n : Code → Nat
  | .done => 0 | .held => 1 | .queued => 2 | .capacity => 3 | .notReady => 4 | .notOwner => 5 | .guard => 6 | .state => 7
  | .align => 8 | .ecc => 9 | .fenced => 10 | .timeout => 11 | .signature => 12 | .range => 13 | .aborted => 14
  | .withdrawn => 15 | .bus => 16

/-- The code that a reply byte carries; a byte that R13 never returns reads as a bus error. -/
def Code.read : Nat → Code
  | 0 => .done | 1 => .held | 2 => .queued | 3 => .capacity | 4 => .notReady | 5 => .notOwner | 6 => .guard | 7 => .state
  | 8 => .align | 9 => .ecc | 10 => .fenced | 11 => .timeout | 12 => .signature | 13 => .range | 14 => .aborted
  | 15 => .withdrawn | _ => .bus

/-- Privilege levels of the cores (R278): user, supervisor, keeper (SC only). -/
inductive Lvl | u | s | k
deriving DecidableEq, Repr, Inhabited

/-- Who makes an access: a core at a level, a master of R446's classes, or an internal engine. -/
inductive Rq
  | core (c : Nat) (l : Lvl)
  | host
  | fabric (addr : Nat)
  | partner
  | hatch
  | dma (ch : Nat)
  | loader
  | larder
  | engine
deriving DecidableEq, Repr, Inhabited

/-- The class number that OWN_STAT and the refusal log use (R446, R452): 0 for an internal master. -/
def Rq.cls : Rq → Nat
  | .host => 1 | .fabric _ => 2 | .partner => 3 | .hatch => 4
  | .core _ _ => 0 | .dma _ => 0 | .loader => 0 | .larder => 0 | .engine => 0

/-- The core number of an access, 0 where no core makes it. -/
def Rq.coreNo : Rq → Nat
  | .core c _ => c
  | _ => 0

/-- The fabric device address of an access. -/
def Rq.faddr : Rq → Nat
  | .fabric a => a
  | _ => 0

/-- SC at keeper level (R9, R447). -/
def Rq.isKeeper : Rq → Bool
  | .core 12 .k => true
  | _ => false

/-- The estimates or continuity values of one converter slice: offset (1/64 LSB), gain (2^-13) and skew (3 fs) (R33, R35). -/
structure SliceEst where
  ofs : Int
  gain : Int
  skew : Int
deriving DecidableEq, Repr, Inhabited

/-- One LMS sample of a block (R84): the error e, the decided level index, and x[n + cursor - k] for the taps k in order; all
in 1/16 LSB. -/
structure LmsObs where
  e : Int
  idx : Nat
  x : List Int
deriving DecidableEq, Repr, Inhabited

/-- One histogram sample of a block (R88, R89): output, decided symbol, error. -/
structure HistObs where
  y : Int
  dec : Nat
  e : Int
deriving DecidableEq, Repr, Inhabited

/-- What a detector block of 4,096 symbols shows: the timing error in 2^-16 UI (R77), the mean |y| in LSB (R93), the seam
mismatches (R76), a sample for each LMS unit and the histogram's sample. -/
structure BlockObs where
  eps : Int
  meanY : Nat
  seams : Nat
  lms : List LmsObs
  hist : HistObs
deriving DecidableEq, Repr, Inhabited

/-- A register of a core that HATCH_CORE accesses (R458): general, vector, pc or CSR. -/
inductive HReg
  | gpr (r : Fin 32)
  | vec (r : Fin 16)
  | pc
  | csr (n : BitVec 12)
deriving DecidableEq, Repr, Inhabited

end Sys2Proof
end

