-- ==== Sys2Proof/Syntax.lean ====
section
/-! DEFINITION. The commands of the part: one constructor for each row of spec/opcode_table.json. A command that is a
register access carries who makes it (q), the unit it addresses and the word written (w); a command that reports an event of
the part's surroundings carries the data that the event brings. -/

set_option genSizeOfSpec false

namespace Sys2Proof

/-- The commands and events of the part. -/
inductive Instr where
  /-- R12. A whole-word write to a register that has no row of its own, judged against the access codes of its fields. -/
  | registerWrite (q : Rq) (a : Nat) (w : Word)
  /-- R21. A write of FRM_LANE_CTRL changes the mapping or mode of a line lane that is down. -/
  | mappingChange (q : Rq) (n : Fin 8) (w : Word)
  /-- R123. A write of FRM_LANE_CTRL.up = 1 checks the host-lane group and TXPLL mode and brings the lane up. -/
  | laneUp (q : Rq) (n : Fin 8) (w : Word)
  /-- R122. A write of FRM_LANE_CTRL.up = 0 takes a squelched or forced lane down. -/
  | laneDown (q : Rq) (n : Fin 8) (w : Word)
  /-- R36. The 16 µs ramp tick derived from REFCLK. -/
  | rampTick
  /-- R47. A 0-to-1 change of LANE_ADC_CTRL.rx_en powers the converters and starts foreground calibration. -/
  | rxEnOn (q : Rq) (n : Fin 8) (w : Word)
  /-- R47. Foreground calibration of all 65 slices completes, sets fg_done and raises FG_DONE. -/
  | fgCalDone (n : Fin 8) (est : List SliceEst) (failed : List Nat)
  /-- R49. A 1-to-0 change of rx_en powers the converters down, abandons the slot and aborts HOLD or RECAL. -/
  | rxEnOff (q : Rq) (n : Fin 8) (w : Word)
  /-- R48. Rotation starts a slot at the first ramp tick at which rot_en, fg_done and lock all hold. -/
  | rotationResume (n : Fin 8)
  /-- R42. The OFFSET or GAIN phase of the spare's slot ends and the spare moves to its next phase. -/
  | sparePhaseEnd (n : Fin 8) (est : Int) (stuck : Bool)
  /-- R43. At the end of the SKEW phase hardware writes the spare's targets unless the slice is pinned. -/
  | skewPhaseEnd (n : Fin 8) (est : Int)
  /-- R44. At the end of a slot the spare takes the retiring slice's position with SHADOW continuity values. -/
  | slotHandover (n : Fin 8) (cont : SliceEst)
  /-- R54. Calibration command HOLD pauses rotation at the current slot's handover. -/
  | hold (q : Rq) (n : Fin 8) (k : Fin 128)
  /-- R54. Calibration command RESUME lets rotation restart at the next slot. -/
  | calResume (q : Rq) (n : Fin 8) (k : Fin 128)
  /-- R54. Calibration command RECAL makes slice k the next slice retired and recalibrates it. -/
  | recal (q : Rq) (n : Fin 8) (k : Fin 128)
  /-- R54. Calibration command RELEASE sets slice k's targets to its current values. -/
  | releaseSlice (q : Rq) (n : Fin 8) (k : Fin 128)
  /-- R62. A write that changes LANE_TX_CTRL.swing is checked against range and the optical swing ceiling. -/
  | swingWrite (q : Rq) (n : Fin 8) (w : Word)
  /-- R63. LANE_TX_COMMIT.fir requests that shadow coefficients and main_pos become active. -/
  | firCommit (q : Rq) (n : Fin 8) (w : Word)
  /-- R63. LANE_TX_COMMIT.pd_swap requests exchange of the active and inactive pre-distortion banks. -/
  | pdSwap (q : Rq) (n : Fin 8) (w : Word)
  /-- R63. A pending transmit commit takes effect at the next 256-symbol boundary. -/
  | txCommitApply (n : Fin 8)
  /-- R69. A detector block of 4,096 symbols ends and block-boundary changes are applied. -/
  | blockBoundary (n : Fin 8) (codes look : List Int)
  /-- R93. A lock monitor window ends, giving the seam count used for lock, SEAM_WARN and SEAM or FREQ loss. -/
  | monitorWindowEnd (n : Fin 8)
  /-- R92. A write of det_en = 1 takes the receiver from OFF to ACQUIRE. -/
  | detEnable (q : Rq) (n : Fin 8) (w : Word)
  /-- R92. A write of det_en = 0 takes the receiver to OFF and aborts its pending command. -/
  | detDisable (q : Rq) (n : Fin 8) (w : Word)
  /-- R92. Receiver command ACQUIRE. -/
  | detAcquire (q : Rq) (n : Fin 8)
  /-- R92. Receiver command DETECT. -/
  | detDetect (q : Rq) (n : Fin 8)
  /-- R92. Receiver command LOCK, judged against a completed monitor window. -/
  | detLock (q : Rq) (n : Fin 8)
  /-- R92. Receiver command DROP returns the receiver to ACQUIRE. -/
  | detDrop (q : Rq) (n : Fin 8)
  /-- R84. LMS command ACCUM clears and accumulates gradients over a number of blocks. -/
  | lmsAccum (q : Rq) (n : Fin 8) (u : Fin 4)
  /-- R87. An ACCUM takes its last sample and ends DONE with LMS_DONE. -/
  | lmsAccumDone (n : Fin 8) (u : Fin 4)
  /-- R85. LMS command APPLY schedules the clamped update of its unit's entries. -/
  | lmsApply (q : Rq) (n : Fin 8) (u : Fin 4) (mu : Fin 16)
  /-- R82. A direct write of an equaliser tap, limited by step_max while locked. -/
  | eqTapWrite (q : Rq) (n : Fin 8) (k : Fin 48) (w : Word)
  /-- R73. LANE_TRL_COMMIT.swap requests that the inactive level bank become active. -/
  | levelSwap (q : Rq) (n : Fin 8)
  /-- R88. LANE_HIST_CTRL.run starts or restarts a histogram and eye run. -/
  | histRun (q : Rq) (n : Fin 8) (w : Word)
  /-- R88. A histogram run collects its last sample and raises HIST_DONE. -/
  | histDone (n : Fin 8)
  /-- R116. A received line frame's overhead block is checked and the framer state advances. -/
  | rxFrame (n : Fin 8) (arr : Int)
  /-- R116. No match for 4 frame periods in DETECT advances the puncture phase by one symbol. -/
  | puncturePhaseAdvance (n : Fin 8)
  /-- R110. An outer codeword is decoded with and without erasures and counted. -/
  | rsCodewordDecode (n : Fin 8) (g k : Fin 4)
  /-- R114. A line frame starts on every up native lane with its overhead block and cells. -/
  | txFrameStart (host : List Nat)
  /-- R126. A block arrives from the port side for a transmit container; overflow drops the oldest. -/
  | containerBlockIn (n : Fin 8) (c : Fin 128)
  /-- R127. A received cell is buffered for its container, or dropped for overflow or format. -/
  | rxCell (n : Fin 8)
  /-- R127. A container's play-out instant delivers a block, or a zero block on underrun. -/
  | playoutTick (n : Fin 8) (c : Fin 128)
  /-- R129. A write of FRM_TCTR_c or FRM_RCTR_c is checked for load and port-table use. -/
  | containerWrite (q : Rq) (n : Fin 8) (rx : Bool) (c : Fin 128) (w : Word)
  /-- R133. Transmit command ENABLE ramps the squelch gain up, or is held during a ramp-down. -/
  | txEnable (q : Rq) (n : Fin 8)
  /-- R133. Transmit command SQUELCH ramps the squelch gain down. -/
  | txSquelch (q : Rq) (n : Fin 8)
  /-- R132. A transmit step boundary moves the squelch gain by one and ends ramps. -/
  | squelchStep (n : Fin 8)
  /-- R136. A 1.0 ms window ends and FEC_DEGRADED is set or cleared. -/
  | fecWindowEnd (n : Fin 8)
  /-- R135. FRM_CNT_CMD.snap copies and clears the lane counters in one cycle. -/
  | frmCounterSnap (q : Rq) (n : Fin 8)
  /-- R142. A write that changes HOST_CTRL.mode, allowed only for an OFF lane outside an up group. -/
  | hostModeWrite (q : Rq) (n : Fin 8) (w : Word)
  /-- R148. Host lane command START. -/
  | hostStart (q : Rq) (n : Fin 8)
  /-- R148. Host lane command RETRAIN. -/
  | hostRetrain (q : Rq) (n : Fin 8)
  /-- R148. Host lane command STOP. -/
  | hostStop (q : Rq) (n : Fin 8)
  /-- R148. Host lane command RESYNC of a converter link. -/
  | hostResync (q : Rq) (n : Fin 8)
  /-- R148. CDR, symbol or sync-header lock moves an ACQUIRE lane to TRAIN, READY or ALIGN. -/
  | hostLockAcquired (n : Fin 8) (snr : Fin 256)
  /-- R148. No lock within 100 ms of START puts the lane in LOST. -/
  | hostAcquireTimeout (n : Fin 8)
  /-- R151. A training frame is received and its repeated field values are acted on. -/
  | trainingFrameRx (n : Fin 8) (mark : Bool) (ctl sts : BitVec 16) (snr : Fin 256)
  /-- R148. 500 ms in TRAIN puts the lane in LOST, reason TRAIN. -/
  | trainTimeout (n : Fin 8)
  /-- R153. With no HOST_TRAIN_REQ write within 200 ms, hardware sends receiver ready. -/
  | trainAutoReady (n : Fin 8)
  /-- R153. LC_n writes the control field sent in training frames. -/
  | hostTrainReqWrite (q : Rq) (n : Fin 8) (w : Word)
  /-- R154. A write of a host transmit tap is checked against its limits. -/
  | hostTxFirWrite (q : Rq) (n : Fin 8) (k : Fin 5) (w : Word)
  /-- R154. A written host transmit tap takes effect at the next 4,096-symbol boundary. -/
  | hostTxFirApply (n : Fin 8)
  /-- R145. A host-lane group aligns by alignment markers or reports skew beyond 32 ns. -/
  | hostGroupAlign (n : Fin 8) (size : Fin 5) (ids : List Nat) (skewPs : Nat)
  /-- R149. A loss criterion puts a READY host lane in LOST and raises HOST_LOST. -/
  | hostLaneLost (n : Fin 8) (why : Fin 3)
  /-- R163. A qualified SYNC_IN edge sets or checks the LEMC phase of a converter link. -/
  | hostSyncEdge
  /-- R163. HOST_JESD_SYS.arm arms modes 1 to 3 for the next edge. -/
  | hostSysrefArm (q : Rq) (n : Fin 8) (w : Word)
  /-- R164. At a considered release instant all lanes of the link are released together. -/
  | jesdRelease (n : Fin 8) (got : List Bool) (occ crc : Nat)
  /-- R148. No SYNC_IN edge within 100 ms in ALIGN puts the lane in LOST. -/
  | sysrefTimeout (n : Fin 8)
  /-- R157. gen_en = 1 makes the transmitter send the test pattern. -/
  | patternGenEnable (q : Rq) (n : Fin 8) (w : Word)
  /-- R156. HOST_PAT_CTRL.inject inverts one transmitted bit. -/
  | patternInject (q : Rq) (n : Fin 8) (w : Word)
  /-- R158. 128 error-free bits lock the pattern checker and raise PAT_LOCK. -/
  | checkerLock (n : Fin 8)
  /-- R158. 64 errors within 1,024 bits unlock and re-seed the checker. -/
  | checkerUnlock (n : Fin 8) (bits errs : Nat)
  /-- R158. HOST_PAT_CTRL.snap copies and clears the checker counters. -/
  | patternSnap (q : Rq) (n : Fin 8) (w : Word) (bits errs : Nat)
  /-- R159. A host codeword is decoded, marked if uncorrectable, and counted. -/
  | hostCodewordDecode (n : Fin 8) (k : Fin 2) (rx : List Nat)
  /-- R159. HOST_FEC_CMD.snap snapshots and clears the host FEC counters. -/
  | hostFecSnap (q : Rq) (n : Fin 8)
  /-- R175. A write setting en = 1 in a port entry is checked against its container or stream. -/
  | portEnable (q : Rq) (out : Bool) (p : Fin 1024) (w : Word)
  /-- R177. A write disabling a port entry, refused while it is named. -/
  | portDisable (q : Rq) (out : Bool) (p : Fin 1024) (w : Word)
  /-- R199. Band path command ADMIT, judged under the admission rules. -/
  | admitPath (q : Rq) (k : Fin 128)
  /-- R199. Band path command RELEASE ramps the gain to 0 or leaves the queue. -/
  | release (q : Rq) (k : Fin 128)
  /-- R199. A releasing path's gain reaches 0 and its capacity is freed. -/
  | releaseRampEnd (k : Fin 128)
  /-- R198. When capacity or floors change, queued requests are admitted in rank order. -/
  | queuePass (d : Fin 2)
  /-- R197. A write of class floors or throttle capacities, checked and triggering a queue pass. -/
  | admFloorWrite (q : Rq) (r : Fin 3) (w : Word)
  /-- R183. A write of BND_PATH_GAIN checked against the gain ceiling and ramped. -/
  | pathGainWrite (q : Rq) (k : Fin 128) (w : Word)
  /-- R187. BND_PATH_CF.commit checks the inactive bank and starts a cross-fade. -/
  | filterCommit (q : Rq) (k : Fin 128) (w : Word)
  /-- R187. The cross-fade reaches sample L, the new bank becomes active and XFADE_DONE is raised. -/
  | xfadeEnd (k : Fin 128)
  /-- R185. BND_PATH_CXCMD.swap activates the shadow canceller taps and clusters. -/
  | cancellerSwap (q : Rq) (k : Fin 128)
  /-- R186. A meter window ends and the three meters report mean and peak levels. -/
  | meterWindowEnd (k : Fin 128)
  /-- R191. A SYNC_IN edge held high for 1 µs is accepted and may schedule a restart. -/
  | bandSyncEdge (ago : Nat) (low : Bool)
  /-- R191. A SYNC_IN high pulse shorter than 1 µs is ignored and counted. -/
  | bandSyncGlitch
  /-- R191. BND_SYNC_CTRL.arm arms mode 1 for the next accepted edge. -/
  | bandSyncArm (q : Rq) (w : Word)
  /-- R190. At the restart instant, sync-enabled paths restart their decimators and NCO. -/
  | syncRestart
  /-- R192. SYNC_IN high for stuck_ms raises SYNC_STUCK once. -/
  | syncStuck
  /-- R193. A write of BND_SYNC_CMD schedules a restart at a band time. -/
  | syncCmd (q : Rq) (w : Word)
  /-- R194. BND_MEAS_CTRL.run starts a narrowband measurement run. -/
  | measRun (q : Rq) (w : Word)
  /-- R194. A measurement run accumulates its last sample and raises MEAS_DONE. -/
  | measEnd
  /-- R191. A read of BND_SYNC_STAT returns and clears the SYNC_IN counters. -/
  | bndSyncStatRead (q : Rq)
  /-- R171. A read of BND_PATH_SAT returns and clears the saturation count. -/
  | bndPathSatRead (q : Rq) (k : Fin 128)
  /-- R170. A read of BND_TIME_L latches BND_TIME_H. -/
  | bndTimeLRead (q : Rq)
  /-- R205. A tick of 1,024 band-clock periods updates attenuation, ramps and limits. -/
  | repeaterTick
  /-- R207. Every 6.25 ms the applied isolation rises by 1/16 dB towards a higher estimate. -/
  | isoAppStep (k : Fin 128)
  /-- R208. Every 625 µs the applied canceller credit rises by 1/16 dB towards its target. -/
  | creditStep (k : Fin 128)
  /-- R209. Repeater command ARM starts a ramp-up or is held. -/
  | rptArm (q : Rq) (k : Fin 128)
  /-- R209. Repeater command MUTE sets cause CMD and ramps down. -/
  | rptMute (q : Rq) (k : Fin 128)
  /-- R209. Repeater command OFF turns a MUTED or FAULT path off. -/
  | rptOff (q : Rq) (k : Fin 128)
  /-- R209. Repeater command CLEAR takes a FAULT path to MUTED. -/
  | rptClear (q : Rq) (k : Fin 128)
  /-- R211. The ramp r reaches 0 and the path becomes ACTIVE or LIMITED. -/
  | armingEnd (k : Fin 128)
  /-- R211. The ramp r reaches 60 dB and the path becomes MUTED. -/
  | mutingEnd (k : Fin 128)
  /-- R213. The last cause of a MUTED path clears and a held or automatic re-arm starts a ramp-up. -/
  | autoRearm (k : Fin 128)
  /-- R215. An oscillation detector window ends and the growth, residual and saturation criteria are tested. -/
  | oscWindowEnd (k : Fin 128)
  /-- R212. osc_hold elapses after a trip and cause OSC clears. -/
  | oscHoldExpire (k : Fin 128)
  /-- R217. A composite-output window ends and cl is raised on excess. -/
  | ceilWindowEnd (p : Fin 1024)
  /-- R218. Every 62.5 µs well below the ceiling, cl falls by 1/16 dB. -/
  | clDecayStep (p : Fin 1024)
  /-- R218. cl above 0 for ceil_hold sets cause CEIL. -/
  | ceilHoldExpire (k : Fin 128)
  /-- R221. The noise rise is evaluated and nr raised, or cause NOISE set. -/
  | nrEvaluate (k : Fin 128)
  /-- R221. The rise stays low for relax seconds and nr falls by nr_step. -/
  | nrRelax (k : Fin 128)
  /-- R222. The donor flag stays 0 for hold seconds and cause DONOR is set. -/
  | donorHoldExpire (k : Fin 128)
  /-- R223. MUTE_N low for 1 µs sets cause MUTE_N on enabled paths. -/
  | muteNAssert
  /-- R223. MUTE_N high for 1 µs clears cause MUTE_N. -/
  | muteNDeassert
  /-- R224. A MUTE_N pulse shorter than 1 µs is ignored and counted. -/
  | muteNGlitch
  /-- R224. MUTE_N asserted for stuck_s raises MUTE_N_STUCK once. -/
  | muteNStuck
  /-- R224. A read of RPT_MUTE_CNT returns and clears the MUTE_N counters. -/
  | rptMuteCntRead (q : Rq)
  /-- R219. A write of RPT_CEIL.ceil checked against ceil_attic. -/
  | rptCeilWrite (q : Rq) (w : Word)
  /-- R242. Listener command START. -/
  | lstStart (q : Rq) (ch : Fin 2)
  /-- R242. Listener command STOP. -/
  | lstStop (q : Rq) (ch : Fin 2)
  /-- R242. Listener command RESTART. -/
  | lstRestart (q : Rq) (ch : Fin 2)
  /-- R231. An 8 µs AGC window ends and the gain is set for the next window or freezes. -/
  | agcWindowEnd (ch : Fin 2)
  /-- R233. A PSS peak reaches det_thr and the channel enters RECEIVE. -/
  | syncDetect (ch : Fin 2)
  /-- R234. An SSS evaluation forms the confirm metric and confirms the cell or declares it false. -/
  | sssEvaluate (ch : Fin 2)
  /-- R235. A radio frame's PBCH bits are collected and decoded, ending DONE or ERR_TIMEOUT. -/
  | pbchDecode (ch : Fin 2) (soft : List Int)
  /-- R238. The watch correlator finds a peak that becomes candidate or triggers capture. -/
  | watchPeak (ch : Fin 2) (eval : Bool)
  /-- R238. A candidate older than 1 ms is discarded. -/
  | candidateExpire (ch : Fin 2)
  /-- R237. LST_NRBUF_CTRL.rel releases the NR payload buffer. -/
  | nrbufRelease (q : Rq) (ch : Fin 2)
  /-- R244. pres_age passes without a DONE reception and an allowed entry stops being present. -/
  | presenceExpire (r : Fin 32)
  /-- R246. No DONE reception of the timing cell for tim_age sets tim_stale. -/
  | timingStale (ch : Fin 2)
  /-- R247. A write of LST_TDD_B with valid = 1 checks and accepts a TDD pattern. -/
  | tddPatternWrite (q : Rq) (ch : Fin 2) (w : Word)
  /-- R247. An accepted pattern takes effect at the next tracked frame boundary. -/
  | tddPatternActivate (ch : Fin 2)
  /-- R249. Enough quiet samples have counted and a noise floor is published. -/
  | nfPublish (g : Fin 16)
  /-- R249. nf_age passes since publication and the floor becomes invalid. -/
  | nfExpire (g : Fin 16)
  /-- R250. A read of LST_CH_CNT returns and clears the channel counters. -/
  | lstChCntRead (q : Rq) (ch : Fin 2)
  /-- R234. A read of LST_RX_TIME_L latches LST_RX_TIME_H. -/
  | lstRxTimeLRead (q : Rq) (ch : Fin 2)
  /-- R256. Sequencer command STANDBY. -/
  | seqStandby (q : Rq) (n : Fin 4)
  /-- R256. Sequencer command RX. -/
  | seqRx (q : Rq) (n : Fin 4)
  /-- R256. Sequencer command TX, entered at once or held. -/
  | seqTx (q : Rq) (n : Fin 4) (dur : BitVec 16)
  /-- R260. Sequencer command SETTLE, launching SPI words if configured. -/
  | seqSettle (q : Rq) (n : Fin 4)
  /-- R264. Sequencer command CAL starts image-rejection calibration. -/
  | seqCal (q : Rq) (n : Fin 4)
  /-- R256. Sequencer command OFF aborts held commands and drives safe levels. -/
  | seqOff (q : Rq) (n : Fin 4)
  /-- R256. A manual TX of non-zero dur ends and the sequencer enters ret. -/
  | seqTxDurExpire (n : Fin 4)
  /-- R259. A lock input stays high for lock_q periods and becomes qualified. -/
  | feLockQualify (n i : Fin 4)
  /-- R258. A lock input falls and a TX sequencer drives STANDBY within 8 ticks or CAL aborts. -/
  | feLockFall (i : Fin 4)
  /-- R257. A held TX enters TX at the first tick the sequencer is ready. -/
  | heldTxEnter (n : Fin 4)
  /-- R257. A held TX not ready after tx_hold ends REFUSED_NOT_READY. -/
  | txHoldExpire (n : Fin 4)
  /-- R260. settle_min has elapsed with lock qualified and SETTLE ends DONE. -/
  | settleDone (n : Fin 4)
  /-- R260. settle_max elapses first and SETTLE ends ERR_TIMEOUT in STANDBY. -/
  | settleTimeout (n : Fin 4)
  /-- R265. A calibration pass ends, computes irr and updates β or ends CAL. -/
  | calPassEnd (n : Fin 4)
  /-- R262. At S − tx_lead the sequencer enters TX, or skips the burst. -/
  | burstTxEnter (n : Fin 4) (sym : Nat)
  /-- R262. At S − rx_lead the sequencer enters RX. -/
  | burstRxEnter (n : Fin 4) (sym : Nat)
  /-- R262. At the end of a burst the sequencer leaves into ret or the next burst. -/
  | burstLeave (n : Fin 4)
  /-- R225. A TDD path's gate opens or closes at a TX burst edge with a 16-sample ramp. -/
  | tddGateEdge (k : Fin 128) (opens : Bool)
  /-- R266. FEN_SPI_CMD.go starts an SPI transfer. -/
  | spiGo (q : Rq) (m : Fin 4)
  /-- R266. An SPI transfer's last word ends and SPI_DONE is raised. -/
  | spiTransferEnd (m : Fin 4) (rx : List Word)
  /-- R254. A write moving RFC pins between sequencers, allowed only while both are OFF. -/
  | rfcOwnWrite (q : Rq) (high : Bool) (w : Word)
  /-- R267. A write of coex_en or seq, allowed only while the owning sequencers are OFF. -/
  | coexCtrlWrite (q : Rq) (w : Word)
  /-- R267. req_lead before a TX entry, COEX_REQ and COEX_PRI are asserted. -/
  | coexReqAssert (n : Fin 4)
  /-- R268. COEX_GRANT high for 1 µs is accepted. -/
  | coexGrantAssert
  /-- R268. COEX_GRANT low for 1 µs is accepted. -/
  | coexGrantDeassert
  /-- R268. A COEX_GRANT pulse shorter than 1 µs is ignored and counted. -/
  | coexGrantGlitch
  /-- R270. No accepted change for stuck_ms raises GRANT_STUCK. -/
  | coexGrantStuck
  /-- R268. A read of FEN_COEX_CNT returns and clears the coexistence counters. -/
  | fenCoexCntRead (q : Rq)
  /-- R263. A read of FEN_SEQ_CNT returns and clears the sequencer counters. -/
  | fenSeqCntRead (q : Rq) (n : Fin 4)
  /-- R281. Instruction ADD. -/
  | add (c : Fin 14) (rd rs1 rs2 : Fin 32)
  /-- R281. Instruction SUB. -/
  | sub (c : Fin 14) (rd rs1 rs2 : Fin 32)
  /-- R281. Instruction AND. -/
  | and (c : Fin 14) (rd rs1 rs2 : Fin 32)
  /-- R281. Instruction OR. -/
  | or (c : Fin 14) (rd rs1 rs2 : Fin 32)
  /-- R281. Instruction XOR. -/
  | xor (c : Fin 14) (rd rs1 rs2 : Fin 32)
  /-- R281. Instruction NOR. -/
  | nor (c : Fin 14) (rd rs1 rs2 : Fin 32)
  /-- R281. Instruction SLL. -/
  | sll (c : Fin 14) (rd rs1 rs2 : Fin 32)
  /-- R281. Instruction SRL. -/
  | srl (c : Fin 14) (rd rs1 rs2 : Fin 32)
  /-- R281. Instruction SRA. -/
  | sra (c : Fin 14) (rd rs1 rs2 : Fin 32)
  /-- R281. Instruction SLT. -/
  | slt (c : Fin 14) (rd rs1 rs2 : Fin 32)
  /-- R281. Instruction SLTU. -/
  | sltu (c : Fin 14) (rd rs1 rs2 : Fin 32)
  /-- R281. Instruction MUL. -/
  | mul (c : Fin 14) (rd rs1 rs2 : Fin 32)
  /-- R281. Instruction MULH. -/
  | mulh (c : Fin 14) (rd rs1 rs2 : Fin 32)
  /-- R281. Instruction MULHU. -/
  | mulhu (c : Fin 14) (rd rs1 rs2 : Fin 32)
  /-- R282. Instruction DIV, saturating on zero divisor. -/
  | div (c : Fin 14) (rd rs1 rs2 : Fin 32)
  /-- R282. Instruction DIVU. -/
  | divu (c : Fin 14) (rd rs1 rs2 : Fin 32)
  /-- R282. Instruction REM. -/
  | rem (c : Fin 14) (rd rs1 rs2 : Fin 32)
  /-- R282. Instruction REMU. -/
  | remu (c : Fin 14) (rd rs1 rs2 : Fin 32)
  /-- R281. Instruction ADDI. -/
  | addi (c : Fin 14) (rd rs1 : Fin 32) (i : BitVec 16)
  /-- R281. Instruction ANDI. -/
  | andi (c : Fin 14) (rd rs1 : Fin 32) (i : BitVec 16)
  /-- R281. Instruction ORI. -/
  | ori (c : Fin 14) (rd rs1 : Fin 32) (i : BitVec 16)
  /-- R281. Instruction XORI. -/
  | xori (c : Fin 14) (rd rs1 : Fin 32) (i : BitVec 16)
  /-- R281. Instruction SLTI. -/
  | slti (c : Fin 14) (rd rs1 : Fin 32) (i : BitVec 16)
  /-- R281. Instruction SLTIU. -/
  | sltiu (c : Fin 14) (rd rs1 : Fin 32) (i : BitVec 16)
  /-- R281. Instruction SLLI. -/
  | slli (c : Fin 14) (rd rs1 : Fin 32) (i : BitVec 16)
  /-- R281. Instruction SRLI. -/
  | srli (c : Fin 14) (rd rs1 : Fin 32) (i : BitVec 16)
  /-- R281. Instruction SRAI. -/
  | srai (c : Fin 14) (rd rs1 : Fin 32) (i : BitVec 16)
  /-- R281. Instruction JALR. -/
  | jalr (c : Fin 14) (rd rs1 : Fin 32) (i : BitVec 16)
  /-- R281. Instruction LUI. -/
  | lui (c : Fin 14) (rd : Fin 32) (i : BitVec 21)
  /-- R281. Instruction AUIPC. -/
  | auipc (c : Fin 14) (rd : Fin 32) (i : BitVec 21)
  /-- R281. Instruction JAL. -/
  | jal (c : Fin 14) (rd : Fin 32) (i : BitVec 21)
  /-- R284. Instruction LB, a precise load. -/
  | lb (c : Fin 14) (rt rb : Fin 32) (off : BitVec 13)
  /-- R284. Instruction LBU. -/
  | lbu (c : Fin 14) (rt rb : Fin 32) (off : BitVec 13)
  /-- R284. Instruction LH. -/
  | lh (c : Fin 14) (rt rb : Fin 32) (off : BitVec 13)
  /-- R284. Instruction LHU. -/
  | lhu (c : Fin 14) (rt rb : Fin 32) (off : BitVec 13)
  /-- R284. Instruction LW. -/
  | lw (c : Fin 14) (rt rb : Fin 32) (off : BitVec 13)
  /-- R286. Instruction SB, a posted store. -/
  | sb (c : Fin 14) (rt rb : Fin 32) (sx : Bool) (off : BitVec 13)
  /-- R286. Instruction SH. -/
  | sh (c : Fin 14) (rt rb : Fin 32) (sx : Bool) (off : BitVec 13)
  /-- R286. Instruction SW. -/
  | sw (c : Fin 14) (rt rb : Fin 32) (sx : Bool) (off : BitVec 13)
  /-- R285. Instruction XCHG, an atomic exchange. -/
  | xchg (c : Fin 14) (rt rb : Fin 32) (sx : Bool) (off : BitVec 13)
  /-- R281. Instruction BEQ. -/
  | beq (c : Fin 14) (rs1 rs2 : Fin 32) (off : BitVec 16)
  /-- R281. Instruction BNE. -/
  | bne (c : Fin 14) (rs1 rs2 : Fin 32) (off : BitVec 16)
  /-- R281. Instruction BLT. -/
  | blt (c : Fin 14) (rs1 rs2 : Fin 32) (off : BitVec 16)
  /-- R281. Instruction BGE. -/
  | bge (c : Fin 14) (rs1 rs2 : Fin 32) (off : BitVec 16)
  /-- R281. Instruction BLTU. -/
  | bltu (c : Fin 14) (rs1 rs2 : Fin 32) (off : BitVec 16)
  /-- R281. Instruction BGEU. -/
  | bgeu (c : Fin 14) (rs1 rs2 : Fin 32) (off : BitVec 16)
  /-- R292. Instruction CSRRW exchanges a CSR. -/
  | csrrw (c : Fin 14) (rd rs1 : Fin 32) (n : BitVec 12)
  /-- R292. Instruction CSRRD reads a CSR, latching high halves. -/
  | csrrd (c : Fin 14) (rd rs1 : Fin 32) (n : BitVec 12)
  /-- R292. Instruction CSRRM performs a masked exchange of a CSR. -/
  | csrrm (c : Fin 14) (rd rs1 : Fin 32) (n : BitVec 12)
  /-- R295. Instruction WAIT stops fetch until an enabled event, or requests stop on SC. -/
  | wait (c : Fin 14) (rd rs1 : Fin 32) (imm : BitVec 12) (pins : BitVec 11)
  /-- R295. An enabled event ends a WAIT. -/
  | waitWake (c : Fin 14)
  /-- R296. Instruction FENCE waits for earlier accesses of its kinds. -/
  | fence (c : Fin 14) (rd rs1 : Fin 32) (imm : BitVec 12)
  /-- R297. Instruction EVWAIT waits for a named event. -/
  | evwait (c : Fin 14) (rd rs1 : Fin 32) (imm : BitVec 12)
  /-- R297. The awaited event arrives, is cleared and EVWAIT writes DONE. -/
  | evwaitEvent (c : Fin 14)
  /-- R297. An EVWAIT's timeout ends and it writes ERR_TIMEOUT. -/
  | evwaitTimeout (c : Fin 14)
  /-- R298. Instruction QPOINT fences and swaps shelves if a swap is armed. -/
  | qpoint (c : Fin 14) (rd rs1 : Fin 32) (imm : BitVec 12)
  /-- R298. After QPOINT's fence completes, the shelves are exchanged and execution enters the new image. -/
  | shelfSwap (c : Fin 13)
  /-- R281. Instruction TRAP raises trap TRAP with info. -/
  | trap (c : Fin 14) (rd rs1 : Fin 32) (imm : BitVec 12)
  /-- R281. Instruction BREAK raises trap BREAK. -/
  | brk (c : Fin 14)
  /-- R304. Instruction RETT returns from a trap after posted stores complete. -/
  | rett (c : Fin 14) (rd rs1 : Fin 32) (imm : BitVec 12)
  /-- R325. A core takes its chosen pending, enabled event as a trap. -/
  | eventTrap (c : Fin 14)
  /-- R303. SC takes a pending non-maskable event into level K. -/
  | nmiTrap
  /-- R286. A posted store's bus completion returns to the core. -/
  | storeCompletion (c : Fin 14) (stale : Bool)
  /-- R286. A failed or refused store's asynchronous trap is taken. -/
  | storeErrTrap (c : Fin 14)
  /-- R322. A reply carrying the stale tag is delivered and counted, raising STALE. -/
  | staleReply (q : Rq) (a : Nat)
  /-- R287. Instruction VADD. -/
  | vadd (c : Fin 14) (xd xa xb : Fin 32) (sel : Fin 8)
  /-- R287. Instruction VSUB. -/
  | vsub (c : Fin 14) (xd xa xb : Fin 32) (sel : Fin 8)
  /-- R287. Instruction VMUL. -/
  | vmul (c : Fin 14) (xd xa xb : Fin 32) (sel : Fin 8)
  /-- R287. Instruction VMULQ. -/
  | vmulq (c : Fin 14) (xd xa xb : Fin 32) (sel : Fin 8)
  /-- R287. Instruction VMAC. -/
  | vmac (c : Fin 14) (xd xa xb : Fin 32) (sel : Fin 8)
  /-- R287. Instruction VMIN. -/
  | vmin (c : Fin 14) (xd xa xb : Fin 32) (sel : Fin 8)
  /-- R287. Instruction VMAX. -/
  | vmax (c : Fin 14) (xd xa xb : Fin 32) (sel : Fin 8)
  /-- R287. Instruction VABS. -/
  | vabs (c : Fin 14) (xd xa xb : Fin 32) (sel : Fin 8)
  /-- R287. Instruction VSHR. -/
  | vshr (c : Fin 14) (xd xa xb : Fin 32) (sel : Fin 8)
  /-- R287. Instruction VSHL. -/
  | vshl (c : Fin 14) (xd xa xb : Fin 32) (sel : Fin 8)
  /-- R287. Instruction VSPLAT. -/
  | vsplat (c : Fin 14) (xd xa xb : Fin 32) (sel : Fin 8)
  /-- R287. Instruction VEXT. -/
  | vext (c : Fin 14) (xd xa xb : Fin 32) (sel : Fin 8)
  /-- R287. Instruction VINS. -/
  | vins (c : Fin 14) (xd xa xb : Fin 32) (sel : Fin 8)
  /-- R287. Instruction VSUM. -/
  | vsum (c : Fin 14) (xd xa xb : Fin 32) (sel : Fin 8)
  /-- R287. Instruction VCLAMP. -/
  | vclamp (c : Fin 14) (xd xa xb : Fin 32) (sel : Fin 8)
  /-- R287. Instruction VLD. -/
  | vld (c : Fin 14) (xd xa xb : Fin 32) (sel : Fin 8)
  /-- R287. Instruction VST. -/
  | vst (c : Fin 14) (xd xa xb : Fin 32) (sel : Fin 8)
  /-- R288. Instruction CADD. -/
  | cadd (c : Fin 14) (xd xa xb : Fin 32) (sel : Fin 8)
  /-- R288. Instruction CSUB. -/
  | csub (c : Fin 14) (xd xa xb : Fin 32) (sel : Fin 8)
  /-- R288. Instruction CMUL. -/
  | cmul (c : Fin 14) (xd xa xb : Fin 32) (sel : Fin 8)
  /-- R288. Instruction CMULJ. -/
  | cmulj (c : Fin 14) (xd xa xb : Fin 32) (sel : Fin 8)
  /-- R288. Instruction CMAC. -/
  | cmac (c : Fin 14) (xd xa xb : Fin 32) (sel : Fin 8)
  /-- R288. Instruction CONJ. -/
  | conj (c : Fin 14) (xd xa xb : Fin 32) (sel : Fin 8)
  /-- R288. Instruction CMAG2. -/
  | cmag2 (c : Fin 14) (xd xa xb : Fin 32) (sel : Fin 8)
  /-- R288. Instruction CSCALE. -/
  | cscale (c : Fin 14) (xd xa xb : Fin 32) (sel : Fin 8)
  /-- R288. Instruction CSHR. -/
  | cshr (c : Fin 14) (xd xa xb : Fin 32) (sel : Fin 8)
  /-- R288. Instruction CPACK. -/
  | cpack (c : Fin 14) (xd xa xb : Fin 32) (sel : Fin 8)
  /-- R289. Instruction KCALL traps into level K. -/
  | kcall (c : Fin 14) (xd xa xb : Fin 32) (sel : Fin 8)
  /-- R289. Instruction KARM arms a checked idle shelf for a swap. -/
  | karm (c : Fin 14) (xd xa xb : Fin 32) (sel : Fin 8)
  /-- R289. Instruction KDISARM cancels an armed swap. -/
  | kdisarm (c : Fin 14) (xd xa xb : Fin 32) (sel : Fin 8)
  /-- R290. Instruction KZERO clears a region of SRAM 64 bytes per cycle. -/
  | kzero (c : Fin 14) (xd xa xb : Fin 32) (sel : Fin 8) (stop : Option (BitVec 15))
  /-- R313. A write of OWN_CORE_CTRL_c with op = 0 stores boot_shelf only. -/
  | coreBootShelfSet (q : Rq) (c : Fin 13) (b : Bool)
  /-- R313. Core command START runs a RESET core from its checked boot shelf. -/
  | coreStart (q : Rq) (c : Fin 13) (b : Bool)
  /-- R313. Core command HALT requests a halt at the next instruction boundary. -/
  | coreHalt (q : Rq) (c : Fin 13) (b : Bool)
  /-- R313. The core reaches an instruction boundary and becomes HALTED. -/
  | coreHaltDone (c : Fin 13)
  /-- R313. Core command RESUME continues a HALTED core. -/
  | coreResume (q : Rq) (c : Fin 13) (b : Bool)
  /-- R313. Core command RESET puts a core in RESET and disarms its swap. -/
  | coreReset (q : Rq) (c : Fin 13) (b : Bool)
  /-- R315. OWN_LD_CMD.load starts a LOAD of an image into a target shelf. -/
  | loaderLoad (q : Rq) (c : Fin 16)
  /-- R316. A LOAD finishes its checks and ends DONE or with the failing step's code, raising LD_DONE. -/
  | loadComplete
  /-- R312. A write into a shelf by an allowed master clears its checked mark. -/
  | shelfWrite (q : Rq) (c : Fin 13) (sh : Fin 2) (o : Nat) (bytes : List Byte)
  /-- R327. A write of EVR_RAISE raises a maskable event. -/
  | softwareEventRaise (q : Rq) (w : Word)
  /-- R328. A difference between SC halves suppresses its requests and restarts SC. -/
  | lockstepMismatch
  /-- R330. A write of EVR_WDOG_KICK restarts the watchdog or counts a bad kick. -/
  | wdogKick (q : Rq) (w : Word)
  /-- R329. The first watchdog interval ends without a kick and sets pending bit 7. -/
  | wdogExpire
  /-- R329. The second watchdog interval ends and the watchdog reset is applied. -/
  | wdogReset
  /-- R333. A core counter wraps, sets ovf and may raise CNT_OVF_c. -/
  | cntOverflow (c : Fin 13) (j : Fin 8)
  /-- R333. A system counter wraps, sets ovf and may raise PMC_OVF. -/
  | pmcOverflow (j : Fin 32)
  /-- R294. A read of PMC_CNT_L_j latches PMC_CNT_H_j. -/
  | pmcCntLRead (q : Rq) (j : Fin 32)
  /-- R340. A merge-buffer entry retires by full write or read-modify-write. -/
  | mergeRetire (u : Fin 15) (i : Fin 8)
  /-- R343. Every unit has been filled with zeros and valid check bits. -/
  | memoryFillDone
  /-- R344. A scrubber reads its next word, corrects a single-bit error, and may complete a pass. -/
  | scrubRead (u : Fin 15)
  /-- R338. A read of MEM_CORR returns and clears the corrected-error count. -/
  | memCorrRead (q : Rq)
  /-- R347. A target port's arbiter grants a waiting request its transaction. -/
  | arbGrant (p : Nat) (waiting : List (Nat × Nat))
  /-- R348. A granted request not completed in 65,536 port cycles ends ERR_TIMEOUT. -/
  | targetTimeout (q : Rq) (a : Nat)
  /-- R351. DMA channel command START fetches the first descriptor. -/
  | dmaStart (q : Rq) (c : Fin 32)
  /-- R351. DMA channel command STOP halts after the current burst. -/
  | dmaStop (q : Rq) (c : Fin 32)
  /-- R351. DMA channel command RESUME continues a resumable halt. -/
  | dmaResume (q : Rq) (c : Fin 32)
  /-- R350. A fetched descriptor is checked and the channel runs, waits or halts. -/
  | descriptorFetch (c : Fin 32)
  /-- R353. A channel issues a burst of 8-byte beats with swapping. -/
  | dmaBurst (c : Fin 32)
  /-- R352. A peripheral request line asserts and a waiting paced channel runs. -/
  | dmaRequestLine (r : Fin 32)
  /-- R355. All responses have returned, wb is written and the chain advances. -/
  | descriptorRetire (c : Fin 32)
  /-- R354. An error read response halts the channel, reason BEAT. -/
  | dmaReadError (c : Fin 32) (k : Fin 16) (o : Code)
  /-- R355. An error write acknowledgement after retirement halts the channel, reason POSTED. -/
  | dmaPostedError (c : Fin 32) (o : Code)
  /-- R356. An error response to the last beat halts the channel, reason LAST_BEAT. -/
  | dmaLastBeatError (c : Fin 32) (write : Bool)
  /-- R357. A paced peripheral withdraws mid-burst; empty beats complete and the channel halts WITHDRAWN. -/
  | dmaWithdraw (c : Fin 32) (k : Fin 16)
  /-- R360. Storage command RAW sends one eMMC command. -/
  | stoRaw (q : Rq) (w : Word)
  /-- R360. Storage command READ of multiple blocks. -/
  | stoRead (q : Rq)
  /-- R360. Storage command WRITE of multiple blocks. -/
  | stoWrite (q : Rq) (w : Word)
  /-- R360. Storage command TRIM. -/
  | stoTrim (q : Rq)
  /-- R360. Storage command FLUSH. -/
  | stoFlush (q : Rq)
  /-- R360. Storage command STOP ends a READ or WRITE after the current block. -/
  | stoStop (q : Rq)
  /-- R361. An eMMC block transfer ends, passing or retrying on CRC failure. -/
  | stoBlockEnd (ok : Bool) (data : List Byte)
  /-- R361. A storage command reaches its final code and raises STO_DONE. -/
  | stoCommandEnd (err : Bool) (resp : List Word)
  /-- R361. No eMMC response in 64 clocks or busy beyond busy_ms ends the command ERR_TIMEOUT. -/
  | stoResponseTimeout
  /-- R363. STO_NOR_CMD.go starts one SPI NOR transaction. -/
  | norGo (q : Rq) (w : Word)
  /-- R363. BOOT_CS_N rises, the transaction ends DONE and raises STO_DONE. -/
  | norTransactionEnd (data : List Byte) (changed : List (Nat × Byte))
  /-- R368. A write enabling a PLL starts its lock. -/
  | pllEnable (q : Rq) (p : Fin 4)
  /-- R369. A write disabling a PLL, refused while it has a user. -/
  | pllDisable (q : Rq) (p : Fin 4)
  /-- R368. A PLL reports lock and its ready bit rises, clearing holdover. -/
  | pllLock (p : Fin 4)
  /-- R370. A PLL's ready bit falls and PLL_CHG is raised. -/
  | pllUnlock (p : Fin 4)
  /-- R371. A write of CRP_BPLL_TRIM sets the target trim within ±100 ppm. -/
  | bpllTrimWrite (q : Rq) (w : Word)
  /-- R372. FOSC comes within tolerance and sets fosc_ready. -/
  | foscReady
  /-- R374. FOSC cycles counted over an AOSC period are checked, declaring failure if out of range. -/
  | foscCheck (n : Nat)
  /-- R375. A run of 32,768 AOSC cycles ends and the time increment is recomputed. -/
  | aoscDisciplineEnd (n : Nat)
  /-- R376. A write of CRP_AON_TIME_H stages the seconds. -/
  | aonTimeHWrite (q : Rq) (w : Word)
  /-- R376. A write of CRP_AON_TIME_L loads both halves at the next AOSC cycle. -/
  | aonTimeLoad (q : Rq) (w : Word)
  /-- R376. A read of CRP_AON_TIME_L latches the seconds into CRP_AON_TIME_H. -/
  | aonTimeLRead (q : Rq)
  /-- R377. A 1,000-FOSC-cycle window ends and REFCLK is judged failed or good. -/
  | refmonWindowEnd (n : Nat)
  /-- R382. A write of CRP_SYS_SEL.src requests a system-domain source switch. -/
  | sysSrcSelect (q : Rq) (src : Bool)
  /-- R381. A glitch-free switch completes, possibly forced, and CLK_SW_DONE is raised. -/
  | clockSwitchDone (clkout forced : Bool)
  /-- R380. fosc_ready still 0 100 to 110 µs after gating applies the CLK_NOFOSC reset. -/
  | nofoscTimeout
  /-- R386. A write of CRP_CLKOUT checked for frequency and switched. -/
  | clkoutWrite (q : Rq) (w : Word)
  /-- R384. A block idle for 16 cycles has its clock stopped. -/
  | clockGateIdle (b : Fin 24)
  /-- R389. A supply falls below its threshold and power-on reset is applied. -/
  | powerOnReset
  /-- R389. All supplies have been within threshold for the hold time and POR is released. -/
  | powerOnResetRelease
  /-- R396. Power-on reset of VDD_AON resets the always-on time and RST_CAUSE. -/
  | aonPowerOnReset
  /-- R389. RESET_N low beyond its filter applies the RESET_N reset. -/
  | resetNAssert
  /-- R389. RESET_N high with FOSC ready releases the reset. -/
  | resetNRelease
  /-- R392. The owner writes the key to CRP_CMD_RESET and the command reset is applied. -/
  | commandReset (q : Rq) (w : Word)
  /-- R391. 2 µs after a CMD, WDOG or LOCKSTEP reset, its reach is released and SC restarts in ROM. -/
  | wideResetRelease
  /-- R397. A write of RST_CAUSE clears causes and, first time, fixes the mode. -/
  | rstCauseWrite (q : Rq) (w : Word)
  /-- R394. A write changing a bit of CRP_BLK_RST to 1 fences the block from the next cycle. -/
  | blkRstSet (q : Rq) (b : Fin 27)
  /-- R394. A write changing a bit of CRP_BLK_RST to 0 requests release of the block. -/
  | blkRstClear (q : Rq) (b : Fin 27)
  /-- R394. A held block is released, takes its reset values and raises BLK_REL. -/
  | blockRelease (b : Fin 27)
  /-- R400. The attic load completes and loads values from a valid copy or enters safe hold. -/
  | atticLoadDone
  /-- R403. After the attic load and memory fill, SC is released into the boot ROM. -/
  | scRelease
  /-- R410. The part saves SC state and the larder list and powers down to stop. -/
  | stopEntry (pins : BitVec 11)
  /-- R415. An enabled wake source active for 2 AOSC cycles starts the wake. -/
  | wakeSourceQualified (pins : BitVec 11)
  /-- R416. The wake sequence completes and SC resumes at the instruction after WAIT. -/
  | wakeResume (temps : List Int)
  /-- R418. PWR_AVS_REQ.go sends a Voltage write to the regulator. -/
  | avsRequest (q : Rq) (w : Word)
  /-- R418. An AVSBus response arrives and the request ends DONE or retries. -/
  | avsResponse (ack : BitVec 2) (vdone : Bool) (mv : Option (BitVec 16))
  /-- R418. An attempt is not acknowledged in 50 µs and is retried or fails. -/
  | avsAttemptTimeout
  /-- R422. A write of TH_CMD starts or joins a sensor measurement. -/
  | thermalDemand (q : Rq) (w : Word)
  /-- R423. timer_ms passes and a demand for sensors 0 to 7 is issued. -/
  | thermalTimerExpire
  /-- R421. A sensor measurement ends, readings are written and TH_DONE raised. -/
  | thermalMeasurementEnd (temps : List Int)
  /-- R426. shut_ms after shutdown, the part enters stop without saving SC state. -/
  | shutdownStop
  /-- R425. A write of a threshold or hysteresis, checked for order, range and guard. -/
  | thresholdWrite (q : Rq) (k : Fin 3) (w : Word)
  /-- R430. HKC_SCAN_CTRL.run starts a scan of the housekeeping ADC entries. -/
  | hkcScanRun (q : Rq) (w : Word)
  /-- R430. A scan entry averages its outputs and the next entry or scan starts. -/
  | hkcEntryEnd (outs : List (BitVec 16)) (ovr : Bool)
  /-- R433. A write enabling a bias pin or changing its mode starts break-before-make. -/
  | hkdEnable (q : Rq) (p : Fin 16) (w : Word)
  /-- R432. A write of en = 0 returns the bias pin to high impedance. -/
  | hkdDisable (q : Rq) (p : Fin 16) (w : Word)
  /-- R434. After 5 µs disconnection the pin connects at the next update. -/
  | hkdConnect (p : Fin 16)
  /-- R434. A 1 MS/s update forms the dithered, limited output of each connected pin. -/
  | hkdUpdate
  /-- R436. A write of HKD_VAL_p checked against the guard codes. -/
  | hkdValueWrite (q : Rq) (p : Fin 16) (w : Word)
  /-- R436. A read of HKD_STAT_p returns and clears the clip count. -/
  | hkdStatRead (q : Rq) (p : Fin 16)
  /-- R438. A write of a working guard limit or ceiling, always accepted when tightening. -/
  | guardLimitWrite (q : Rq) (k : Fin 19) (w : Word)
  /-- R440. A guarded pin's output deviates for 2 µs, trips and applies laser-off to its lane. -/
  | hkdMonitorTrip (p : Fin 16)
  /-- R442. TX_DISABLE rises and laser-off is applied to every lane. -/
  | txDisableAssert
  /-- R442. TX_DISABLE low for 1 µs is accepted as deasserted. -/
  | txDisableDeassert
  /-- R443. A write of GRD_TRIP_CLR clears monitor trips of named lanes. -/
  | tripClear (q : Rq) (w : Word)
  /-- R442. A read of GRD_STAT returns and clears txdis_cnt. -/
  | grdStatRead (q : Rq)
  /-- R449. A write of the claim key to OWN_CLAIM elects an owner if none exists. -/
  | ownClaim (q : Rq) (w : Word)
  /-- R450. The owner renews its lease. -/
  | leaseRenew (q : Rq)
  /-- R450. No renewal within lease_ms clears the owner and raises OWN_LAPSE. -/
  | leaseLapse
  /-- R451. The owner writes OWN_HANDOVER to name a successor or cancel. -/
  | ownHandover (q : Rq) (w : Word)
  /-- R451. The named successor writes the accept key and becomes owner. -/
  | ownAccept (q : Rq) (w : Word)
  /-- R451. 10 ms elapse without an accept and the handover ends ERR_TIMEOUT. -/
  | handoverTimeout
  /-- R455. A write of page 0xB0 byte 133 starts a window transaction onto the system map. -/
  | mgmtWindowTransaction (op : Byte)
  /-- R454. A management write to a CMIS page, judged by the agent or ignored. -/
  | mgmtPageWrite (b v : Byte) (flag : Bool)
  /-- R453. CCC SETDASA assigns the dynamic address from the static address. -/
  | i3cSetdasa (a : Fin 128)
  /-- R453. CCC ENTDAA dynamic address assignment. -/
  | i3cEntdaa (a : Fin 128)
  /-- R453. CCC RSTDAA resets the dynamic address, returning to I2C. -/
  | i3cRstdaa
  /-- R453. CCC ENEC enables in-band interrupts. -/
  | i3cEnec
  /-- R453. CCC DISEC disables in-band interrupts. -/
  | i3cDisec
  /-- R453. CCC GETPID returns the provisional ID. -/
  | i3cGetpid
  /-- R453. CCC GETBCR returns the bus characteristics register. -/
  | i3cGetbcr
  /-- R453. CCC GETDCR returns the device characteristics register. -/
  | i3cGetdcr
  /-- R453. CCC GETSTATUS returns the target status. -/
  | i3cGetstatus
  /-- R453. CCC GETMWL returns the maximum write length. -/
  | i3cGetmwl
  /-- R453. CCC GETMRL returns the maximum read length. -/
  | i3cGetmrl
  /-- R458. Hatch instruction IDCODE. -/
  | hatchIdcode
  /-- R458. Hatch instruction SAMPLE/PRELOAD. -/
  | hatchSamplePreload
  /-- R458. Hatch instruction EXTEST, applying laser-off, mutes and zeroisation first. -/
  | hatchExtest
  /-- R458. Hatch BYPASS, including unavailable instructions counted as refused. -/
  | hatchBypass (c : BitVec 8)
  /-- R459. Hatch instruction HATCH_CHAL issues a fresh nonce with DEV_ID. -/
  | hatchChal
  /-- R458. Hatch instruction HATCH_MBOX shifts words into the mailbox. -/
  | hatchMbox (ws : List Word)
  /-- R459. Hatch command VERIFY checks a signed nonce to open FULL. -/
  | hatchVerify
  /-- R460. Hatch command PASSWORD opens NARROW on a matching hash. -/
  | hatchPassword
  /-- R461. Hatch command CLOSE returns the hatch to CLOSED. -/
  | hatchClose (op : BitVec 8)
  /-- R559. HATCH_BUS read access on the system bus with class HATCH. -/
  | hatchBusRead (a : Word)
  /-- R559. HATCH_BUS write, refused at NARROW and judged under R448 at FULL. -/
  | hatchBusWrite (a w : Word)
  /-- R458. HATCH_CORE halts a core through the core states. -/
  | hatchCoreHalt (c : Fin 13)
  /-- R458. HATCH_CORE resumes a halted core. -/
  | hatchCoreResume (c : Fin 13)
  /-- R458. HATCH_CORE steps a halted core. -/
  | hatchCoreStep (c : Fin 13) (pins : BitVec 11)
  /-- R458. HATCH_CORE accesses a core register. -/
  | hatchCoreRegAccess (c : Fin 13) (r : HReg) (v : Option (List Word))
  /-- R457. The TAP reset state closes the hatch. -/
  | hatchTapReset
  /-- R463. SC at K requests a reload of the identity key RAM. -/
  | keyload (q : Rq) (w : Word)
  /-- R463. The key RAM is loaded from the attic record and key_ready set. -/
  | keyLoadDone
  /-- R466. Fuse command ENROL writes a key hash and its enrolled bit. -/
  | fuseEnrol (q : Rq) (k : Fin 16)
  /-- R466. Fuse command REVOKE blows a slot's revoked bit. -/
  | fuseRevoke (q : Rq) (k : Fin 16)
  /-- R466. A fuse command finishes, DONE or ERR_BUS on readback failure. -/
  | fuseDone (ok : Bool) (part : List Byte) (copies : Fin 8)
  /-- R468. Signing command ATTEST fills and signs an attestation report. -/
  | attest (q : Rq)
  /-- R467. Signing command SIGN signs 64 bytes with the identity key. -/
  | sign (q : Rq)
  /-- R467. A signing operation ends and SIGN_DONE is raised. -/
  | signingDone
  /-- R560. A write of OWN_SECRET_LO or HI checked on the resulting window. -/
  | secretWindowWrite (q : Rq) (hiReg : Bool) (w : Word)
  /-- R476. Every 100 ms a HELLO is sent on each enabled link. -/
  | helloTimer
  /-- R476. A received HELLO updates link state and checks for address collision. -/
  | helloRx (l : Fin 10) (c : List Byte)
  /-- R476. No HELLO for dead_ms returns the link to DOWN. -/
  | linkDeadTimeout (l : Fin 10)
  /-- R471. A link's physical layer starts or stops running. -/
  | linkPhyChange (l : Fin 10) (groups : List (BitVec 10))
  /-- R479. A received unicast crate is delivered locally or forwarded. -/
  | crateRxUnicast (l : Fin 10) (c : List Byte) (age : Nat)
  /-- R480. A received broadcast crate is accepted by sequence, delivered and flooded. -/
  | crateRxBroadcast (l : Fin 10) (c : List Byte) (age : Nat)
  /-- R481. A crate's last byte leaves its link and the next crate by class is sent. -/
  | crateSent (l : Fin 10)
  /-- R483. SC sends a crate through a send slot. -/
  | crateSend (q : Rq) (t : Fin 8) (w : Word)
  /-- R486. An RREAD crate is served by the remote-access engine and answered. -/
  | remoteRead (stale : Bool)
  /-- R486. An RWRITE crate is served by the remote-access engine and answered. -/
  | remoteWrite (stale : Bool)
  /-- R487. SC issues a remote read through SNK_RRA_CTRL. -/
  | rraRead (q : Rq) (w : Word)
  /-- R487. SC issues a remote write through SNK_RRA_CTRL. -/
  | rraWrite (q : Rq) (w : Word)
  /-- R487. A remote-access reply arrives and ends the access, or is discarded as late. -/
  | rreplyRx (l : Fin 10) (c : List Byte)
  /-- R487. No reply within rra_ms ends the remote access ERR_TIMEOUT. -/
  | rraTimeout
  /-- R477. The owner writes SNK_ADDR, fixing the address or returning to auto. -/
  | snkAddrWrite (q : Rq) (w : Word)
  /-- R475. A read of SNK_DISC returns and clears the discard counts. -/
  | snkDiscRead (q : Rq)
  /-- R482. A read of SNK_DROP_c returns and clears the drop count. -/
  | snkDropRead (q : Rq) (c : Fin 4)
  /-- R489. A write of SNK_PAIR_CTRL.en = 1 starts the pair in SOLO. -/
  | pairEnable (q : Rq) (w : Word)
  /-- R492. A write of en = 0 turns the pair OFF with gates open. -/
  | pairDisable (q : Rq) (w : Word)
  /-- R490. Every hb_us a PAIR_HB is sent on FAB_0 and the lane path. -/
  | heartbeatTimer
  /-- R490. A partner heartbeat arrives and may change the pair role. -/
  | heartbeatRx (l : Fin 10) (c : List Byte)
  /-- R490. No heartbeat on either path for hb_miss × hb_us; a standby takes over. -/
  | partnerLost
  /-- R490. Heartbeats stop on one path only and PAIR_LINK is raised. -/
  | pairPathLoss (lane : Bool)
  /-- R492. Pair command SWITCH closes the gates and yields to a ready partner. -/
  | pairSwitch (q : Rq)
  /-- R492. The partner is not ACTIVE 1 ms after a yield; this device reopens. -/
  | yieldTimeout
  /-- R492. solo_ms without a heartbeat makes a SOLO device ACTIVE. -/
  | soloTimeout
  /-- R497. VDD_CEL rises and the cellar power-on reset is released into STARTING. -/
  | cellarPowerOn
  /-- R499. VDD_CEL is absent and the cellar reads ABSENT. -/
  | cellarPowerLoss (met : Bool)
  /-- R499. The commit slots are read and the cellar becomes UNSEALED, RUNNING or FAULT. -/
  | cellarStartDone
  /-- R498. The sealed parameter block is fused through the seal pins. -/
  | cellarSeal (interval : Nat) (eth scale : List Nat) (trim : Nat) (crc : Word) (ok : Bool)
  /-- R503. Every 10 s the accumulator state is committed to the next MRAM slot, or deferred. -/
  | cellarCommit (t : Int)
  /-- R505. VDD_CEL falls below 1.62 V and an immediate commit is made. -/
  | cellarSupplyFall (t : Int)
  /-- R506. At each interval the cellar snapshots totals and builds a signed record. -/
  | cellarRecord
  /-- R507. A record is sealed in the ring, CEL_REC raised and the DMA line asserted. -/
  | cellarRecordComplete
  /-- R507. The CEL_REC request line deasserts 1 s after a record. -/
  | celRecLineExpire
  /-- R508. A stable 1 ms change of CEL_TAMPER logs OPEN or CLOSE. -/
  | cellarTamperChange (high : Bool) (glitches : Nat)
  /-- R496. A write to the CEL window other than CEL_EVT changes nothing. -/
  | cellarWindowWrite (q : Rq) (o : Fin 65536) (w : Word)
  /-- R512. A unit starts a self-test slice on its next or targeted row. -/
  | memSliceStart (u : Fin 15)
  /-- R513. A slice restores its row and, on a failure, maps a spare row. -/
  | memSliceEnd (u : Fin 15) (bad : Option (Fin 72))
  /-- R518. A write of BST_REPAIR_m_k with valid = 1 maps a row to a spare. -/
  | repairRestore (q : Rq) (u : Fin 15) (k : Fin 4) (row : BitVec 13)
  /-- R519. SC at K runs a targeted row test, zeroising secret rows first. -/
  | testRow (q : Rq) (u : BitVec 5) (row : BitVec 13)
  /-- R521. BST_LB_CMD.go requests a logic self-test slice of a core. -/
  | logicSliceRequest (q : Rq) (c : BitVec 4) (i : BitVec 6)
  /-- R521. The core is parked and the requested logic slice starts. -/
  | logicSliceStart
  /-- R524. A logic slice ends DONE with pass or fail and may mark the core suspect. -/
  | logicSliceEnd (fail : Bool)
  /-- R521. A logic slice not started within wait_ms ends REFUSED_NOT_READY. -/
  | logicSliceTimeout
  /-- R373. AOSC becomes ready within 1 ms of VDD_AON power-on, setting aosc_ready and ending the suspension of the FOSC check. -/
  | aoscReady
  /-- R415. In stop, VDDIO falls below 1.62 V and the droop comparator sets droop_seen whether or not the DROOP wake source is enabled. -/
  | droopComparatorTrip
  /-- R398. VDDIO reaches its threshold, the fused safe-level word is presented to the RFC latches within 100 ns, and the pins take their POR states. -/
  | vddioReachingThreshold
deriving DecidableEq, Repr

end Sys2Proof
end

