-- ==== Sys2Proof/Decode.lean ====
section
/-! DEFINITION. The command that a word spells by the bits of the opcode table. -/

namespace Sys2Proof

/-- No row of the table gives bits: a command of this part is an access or an event, not a word (log 134). -/
def decodeTableWord (_nbits _w : Nat) : Option Instr := none

end Sys2Proof
end

