-- ==== Sys2Proof/Config.lean ====
section
/-! DEFINITION. What the spec leaves open or what a standard outside the spec computes: constants without a body, so that
nothing can be proved of their values. -/

namespace Sys2Proof

/-- The n-th free value: a result that the spec does not state. State.free counts the values taken (log 2). -/
opaque Config.freeValue : Nat → Nat

/-- n output bytes of SHAKE256 over a byte string (R2, R306, R459, R463, R468); its definition is FIPS 202's, outside the spec. -/
opaque Config.shake256 : Nat → List Byte → List Byte

/-- Whether a Falcon-1024 signature verifies: key, message, signature (R2, R308, R459); the scheme is outside the spec. -/
opaque Config.falconVerify : List Byte → List Byte → List Byte → Bool

/-- The n-th Falcon-1024 signature (1 to 1,280 bytes) over a message, with the identity key that the key RAM holds (R467). -/
opaque Config.falconSign : List Byte → Nat → List Byte → List Byte

/-- The n-th Falcon-1024 signature over a record body with the cellar key (R507). -/
opaque Config.cellarSign : Nat → List Byte → List Byte

/-- Byte i of the n-th 32-byte nonce of the part's random source (R459). -/
opaque Config.nonce : Nat → Nat → Byte

/-- What the part answers to an I3C read CCC beyond the bits that R453 settles, by CCC code (log 97). -/
opaque Config.i3cReply : Nat → Nat

/-- The cellar public key of 1,793 bytes (R510). -/
opaque Config.cellarKey : Nat → Byte

/-- The version identifier (0) and the CRC-32 (1) of the cellar's mask ROM (R498). -/
opaque Config.cellarRom : Nat → Nat

/-- A byte of the cellar's mask ROM, by the cellar core's address (R310): the manual does not print its contents. -/
opaque Config.cellarRomByte : Nat → Byte

/-- What stands at an address of the cellar core outside its data memory: 1 the mask ROM, 2 another unit of the cellar, else nothing
(R310, log 158). -/
opaque Config.cellarReach : Nat → Nat

/-- A byte of the boot flash as the board is delivered (R405, log 159). -/
opaque Config.flashByte : Nat → Byte

/-- A byte of the boot ROM (R406, R547): the manual does not print its contents. -/
opaque Config.romByte : Nat → Byte

/-- Which of two trellis paths of equal metric survives, by their joint states: whether it is the first (R70, R74; log 144). -/
opaque Config.survivorTie : Nat → Nat → Bool

/-- The slope p / (q + 1) that the levels of the active table give, in 2^-16 UI per unit of R77's sum, as (p, q): the manual does not
print it (R77, log 144). -/
opaque Config.timingSlope : List Int → Int × Nat

/-- Whether a timing error that is no whole number of 2^-16 UI is rounded up, by the scaled sum and its divisor (R77, log 144). -/
opaque Config.timingRound : Int → Nat → Bool

/-- What the inner decoder of IEEE 802.3dj makes of detected bits, their reliabilities and their number (R71, R120). -/
opaque Config.innerDecode : Nat → Nat → Nat → Nat

/-- Symbol i that the inner code and symbol mapping of IEEE 802.3dj make of a host stream (R119). -/
opaque Config.innerSymbol : Nat → Nat → Nat

/-- A 257-bit block in error as Clause 119 of IEEE 802.3 marks it: corrupted sync headers (R111, R147). -/
opaque Config.errorMark : Nat → Nat

/-- The local-fault fill of a frame's payload: the stream of 87,040 bits end-to-end (true), or 82,240 bits of 257-bit blocks (false)
(R117, R146); Clause 119 of IEEE 802.3 defines the signalling. -/
opaque Config.localFault : Bool → Nat

/-- The seed of a test pattern's generator, by its code (R156): the standards' own (log 148). -/
opaque Config.patternSeed : Nat → Nat

/-- Symbol i of SSPRQ, Clause 120 of IEEE 802.3 (R156). -/
opaque Config.ssprq : Nat → Nat

/-- Whether the n-th step of sign-sign LMS raises coefficient i of a host lane's receive equaliser (R155, log 150). -/
opaque Config.lmsUp : Nat → Nat → Bool

/-- Whether a cosine (false) or sine (true) that is no whole number of its units is rounded up, by its fractional bits and its phase
(R179, R194, R229; log 168). -/
opaque Config.trigUp : Bool → Nat → Nat → Bool

/-- Coefficient j = 0, 2, …, 14 of the fixed halfband filter in units of 2^-17 (R182): the manual gives its response only. -/
opaque Config.halfband : Nat → Int

/-- The sample that the listener's decimator makes at a factor of the newest mixed samples (R229): the manual states no filter. -/
opaque Config.decimFilter : Nat → List Nat → Nat

/-- Whether a timing error that is no whole number of integrator units is rounded up, by the error and ki_shift (R69, R78, log 145). -/
opaque Config.loopRound : Int → Nat → Bool

/-- The scale of the resource elements of LST_NRBUF_j against the transform's sums, in 2^-16 (R237, log 171). -/
opaque Config.nrScale : Int

end Sys2Proof
end

