-- ==== Sys2Proof/Machine/Regs.lean ====
section
/-! DEFINITION. The addresses of the registers and the places of their fields, as the register tables of the spec's
chapters lay them out (R547 gives the block bases). A register's name is the spec's; an indexed register takes its indices,
the outer block index first. A field is written REGISTER_field. -/

namespace Sys2Proof.Machine

/-- Access codes of R9. `wok`, `rwlk` and `rwlo` are the combined codes that a field's description gives (WO with KEY, RWL
with KEY, RWL with OWN). `kop` and `oop` are the KEY and OWN fields of command registers that start a command: they keep the
value that they take, and a write that keeps it is a command only where the requester has the right (DEDUCED, log 12); `kcmd` and
`ocmd` are those that their description lets read 0. -/
inductive Acc | rw | ro | wo | w1c | w1s | rwl | own | key | wok | rwlk | rwlo | kcmd | ocmd | kop | oop
deriving DecidableEq, Repr

/-- 02: receive converter control. -/
def LANE_ADC_CTRL (n : Nat) : Nat := 0x20000000 + 1048576 * n
/-- 02: receive converter status. -/
def LANE_ADC_STATUS (n : Nat) : Nat := 0x20000004 + 1048576 * n
/-- 02: calibration command. -/
def LANE_CAL_CMD (n : Nat) : Nat := 0x20000008 + 1048576 * n
/-- 02: calibration command result. -/
def LANE_CAL_RESULT (n : Nat) : Nat := 0x2000000c + 1048576 * n
/-- 02: step limits. -/
def LANE_RAMP_CTRL (n : Nat) : Nat := 0x20000010 + 1048576 * n
/-- 02: converter event flags. -/
def LANE_ADC_EVT (n : Nat) : Nat := 0x20000014 + 1048576 * n
/-- 02: offset and gain targets of slice k. -/
def LANE_SLICE_TGT (n k : Nat) : Nat := 0x20000100 + 1048576 * n + 16 * k
/-- 02: skew target of slice k. -/
def LANE_SLICE_TSKEW (n k : Nat) : Nat := 0x20000104 + 1048576 * n + 16 * k
/-- 02: current offset and gain of slice k. -/
def LANE_SLICE_CUR (n k : Nat) : Nat := 0x20000108 + 1048576 * n + 16 * k
/-- 02: current skew and state of slice k. -/
def LANE_SLICE_CSKEW (n k : Nat) : Nat := 0x2000010c + 1048576 * n + 16 * k
/-- 02: transmit converter control. -/
def LANE_TX_CTRL (n : Nat) : Nat := 0x20000800 + 1048576 * n
/-- 02: transmit commit. -/
def LANE_TX_COMMIT (n : Nat) : Nat := 0x20000804 + 1048576 * n
/-- 02: transmit status. -/
def LANE_TX_STATUS (n : Nat) : Nat := 0x20000808 + 1048576 * n
/-- 02: FIR coefficient k. -/
def LANE_TX_FIR (n k : Nat) : Nat := 0x20000810 + 1048576 * n + 4 * k
/-- 02: pre-distortion entry i of banks A and B. -/
def LANE_TX_PDA (n i : Nat) : Nat := 0x20000c00 + 1048576 * n + 4 * i
/-- 02: pre-distortion entry i of banks A and B. -/
def LANE_TX_PDB (n i : Nat) : Nat := 0x20001000 + 1048576 * n + 4 * i
/-- 03: detector control. -/
def LANE_DET_CTRL (n : Nat) : Nat := 0x20002000 + 1048576 * n
/-- 03: receiver state. -/
def LANE_DET_STATUS (n : Nat) : Nat := 0x20002004 + 1048576 * n
/-- 03: receiver command. -/
def LANE_DET_CMD (n : Nat) : Nat := 0x20002008 + 1048576 * n
/-- 03: receiver command result. -/
def LANE_DET_RESULT (n : Nat) : Nat := 0x2000200c + 1048576 * n
/-- 03: detection event flags. -/
def LANE_DET_EVT (n : Nat) : Nat := 0x20002010 + 1048576 * n
/-- 03: lock monitor thresholds. -/
def LANE_DET_MON (n : Nat) : Nat := 0x20002014 + 1048576 * n
/-- 03: seam mismatch count. -/
def LANE_SEAM_CNT (n : Nat) : Nat := 0x20002018 + 1048576 * n
/-- 03: equaliser control. -/
def LANE_EQ_CTRL (n : Nat) : Nat := 0x20002020 + 1048576 * n
/-- 03: equaliser tap k. -/
def LANE_EQ_TAP (n k : Nat) : Nat := 0x20002100 + 1048576 * n + 4 * k
/-- 03: timing loop control. -/
def LANE_TR_CTRL (n : Nat) : Nat := 0x20002040 + 1048576 * n
/-- 03: interpolator phase. -/
def LANE_TR_PHASE (n : Nat) : Nat := 0x20002044 + 1048576 * n
/-- 03: frequency integrator. -/
def LANE_TR_FREQ (n : Nat) : Nat := 0x20002048 + 1048576 * n
/-- 03: level table control. -/
def LANE_TRL_CTRL (n : Nat) : Nat := 0x20002060 + 1048576 * n
/-- 03: level bank swap. -/
def LANE_TRL_COMMIT (n : Nat) : Nat := 0x20002064 + 1048576 * n
/-- 03: level entry i of banks A and B. -/
def LANE_TRL_LEVA (n i : Nat) : Nat := 0x20002600 + 1048576 * n + 4 * i
/-- 03: level entry i of banks A and B. -/
def LANE_TRL_LEVB (n i : Nat) : Nat := 0x20002700 + 1048576 * n + 4 * i
/-- 03: LMS unit configuration. -/
def LANE_LMS_CFG (n u : Nat) : Nat := 0x20002200 + 1048576 * n + 64 * u
/-- 03: LMS unit command. -/
def LANE_LMS_CMD (n u : Nat) : Nat := 0x20002204 + 1048576 * n + 64 * u
/-- 03: LMS unit status. -/
def LANE_LMS_STAT (n u : Nat) : Nat := 0x20002208 + 1048576 * n + 64 * u
/-- 03: gradient j of unit u. -/
def LANE_LMS_GRAD (n u j : Nat) : Nat := 0x20002220 + 1048576 * n + 64 * u + 4 * j
/-- 03: histogram and eye run. -/
def LANE_HIST_CTRL (n : Nat) : Nat := 0x20002300 + 1048576 * n
/-- 03: eye threshold j. -/
def LANE_EYE_CTRL (n j : Nat) : Nat := 0x20002310 + 1048576 * n + 4 * j
/-- 03: eye counter j. -/
def LANE_EYE_CNT (n j : Nat) : Nat := 0x20002320 + 1048576 * n + 4 * j
/-- 03: histogram bin b. -/
def LANE_HIST_BIN (n b : Nat) : Nat := 0x20002400 + 1048576 * n + 4 * b
/-- 04: lane mapping and mode. -/
def FRM_LANE_CTRL (n : Nat) : Nat := 0x22000000 + 65536 * n
/-- 04: framer and transmit state. -/
def FRM_LANE_STATUS (n : Nat) : Nat := 0x22000004 + 65536 * n
/-- 04: transmit command. -/
def FRM_TX_CMD (n : Nat) : Nat := 0x22000008 + 65536 * n
/-- 04: transmit command result. -/
def FRM_TX_RESULT (n : Nat) : Nat := 0x2200000c + 65536 * n
/-- 04: squelch ramp. -/
def FRM_SQ_CTRL (n : Nat) : Nat := 0x22000010 + 65536 * n
/-- 04: outer decoder control. -/
def FRM_FEC_CTRL (n : Nat) : Nat := 0x22000014 + 65536 * n
/-- 04: received identity. -/
def FRM_RX_ID (n : Nat) : Nat := 0x22000018 + 65536 * n
/-- 04: inter-lane skew. -/
def FRM_SKEW (n : Nat) : Nat := 0x2200001c + 65536 * n
/-- 04: counter snapshot. -/
def FRM_CNT_CMD (n : Nat) : Nat := 0x22000020 + 65536 * n
/-- 04: framing event flags. -/
def FRM_EVT (n : Nat) : Nat := 0x22000030 + 65536 * n
/-- 04: container load of each direction. -/
def FRM_RAD_LOAD_TX (n : Nat) : Nat := 0x22000034 + 65536 * n
/-- 04: container load of each direction. -/
def FRM_RAD_LOAD_RX (n : Nat) : Nat := 0x22000038 + 65536 * n
/-- 04: offsets 0x0040 to 0x0068 per R135.. -/
def FRM_CNT_CORR_SYM (n : Nat) : Nat := 0x22000040 + 65536 * n
/-- 04: offsets 0x0040 to 0x0068 per R135.. -/
def FRM_CNT_CORR_CW (n : Nat) : Nat := 0x22000044 + 65536 * n
/-- 04: offsets 0x0040 to 0x0068 per R135.. -/
def FRM_CNT_UNCORR_CW (n : Nat) : Nat := 0x22000048 + 65536 * n
/-- 04: offsets 0x0040 to 0x0068 per R135.. -/
def FRM_CNT_ERASED (n : Nat) : Nat := 0x2200004c + 65536 * n
/-- 04: offsets 0x0040 to 0x0068 per R135.. -/
def FRM_CNT_ERA_SAVED (n : Nat) : Nat := 0x22000050 + 65536 * n
/-- 04: offsets 0x0040 to 0x0068 per R135.. -/
def FRM_CNT_TAIL_CW (n : Nat) : Nat := 0x22000054 + 65536 * n
/-- 04: offsets 0x0040 to 0x0068 per R135.. -/
def FRM_CNT_OH_CRC (n : Nat) : Nat := 0x22000058 + 65536 * n
/-- 04: offsets 0x0040 to 0x0068 per R135.. -/
def FRM_CNT_FRAME_LOST (n : Nat) : Nat := 0x2200005c + 65536 * n
/-- 04: offsets 0x0040 to 0x0068 per R135.. -/
def FRM_CNT_CTR_UNDER (n : Nat) : Nat := 0x22000060 + 65536 * n
/-- 04: offsets 0x0040 to 0x0068 per R135.. -/
def FRM_CNT_CTR_OVER (n : Nat) : Nat := 0x22000064 + 65536 * n
/-- 04: offsets 0x0040 to 0x0068 per R135.. -/
def FRM_CNT_CTR_FMT (n : Nat) : Nat := 0x22000068 + 65536 * n
/-- 04: transmit and receive container c. -/
def FRM_TCTR (n c : Nat) : Nat := 0x22001000 + 65536 * n + 4 * c
/-- 04: transmit and receive container c. -/
def FRM_RCTR (n c : Nat) : Nat := 0x22001400 + 65536 * n + 4 * c
/-- 05: lane mode and control. -/
def HOST_CTRL (n : Nat) : Nat := 0x21000000 + 65536 * n
/-- 05: lane state. -/
def HOST_STATUS (n : Nat) : Nat := 0x21000004 + 65536 * n
/-- 05: lane command. -/
def HOST_CMD (n : Nat) : Nat := 0x21000008 + 65536 * n
/-- 05: lane command result. -/
def HOST_RESULT (n : Nat) : Nat := 0x2100000c + 65536 * n
/-- 05: host lane event flags. -/
def HOST_EVT (n : Nat) : Nat := 0x21000010 + 65536 * n
/-- 05: training request. -/
def HOST_TRAIN_REQ (n : Nat) : Nat := 0x21000014 + 65536 * n
/-- 05: transmit tap k. -/
def HOST_TX_FIR (n k : Nat) : Nat := 0x21000020 + 65536 * n + 4 * k
/-- 05: receive equaliser. -/
def HOST_RX_EQ (n : Nat) : Nat := 0x21000040 + 65536 * n
/-- 05: pattern generator and checker. -/
def HOST_PAT_CTRL (n : Nat) : Nat := 0x21000050 + 65536 * n
/-- 05: user pattern bits [31:0] and [63:32]. -/
def HOST_PAT_USER_L (n : Nat) : Nat := 0x21000054 + 65536 * n
/-- 05: user pattern bits [31:0] and [63:32]. -/
def HOST_PAT_USER_H (n : Nat) : Nat := 0x21000058 + 65536 * n
/-- 05: checker snapshot. -/
def HOST_PAT_ERR (n : Nat) : Nat := 0x2100005c + 65536 * n
/-- 05: checker snapshot. -/
def HOST_PAT_BITS_L (n : Nat) : Nat := 0x21000060 + 65536 * n
/-- 05: checker snapshot. -/
def HOST_PAT_BITS_H (n : Nat) : Nat := 0x21000064 + 65536 * n
/-- 05: FEC counter snapshot. -/
def HOST_FEC_CMD (n : Nat) : Nat := 0x21000080 + 65536 * n
/-- 05: FEC snapshot counters. -/
def HOST_FEC_CW (n : Nat) : Nat := 0x21000084 + 65536 * n
/-- 05: FEC snapshot counters. -/
def HOST_FEC_SYM (n : Nat) : Nat := 0x21000088 + 65536 * n
/-- 05: FEC snapshot counters. -/
def HOST_FEC_UNC (n : Nat) : Nat := 0x2100008c + 65536 * n
/-- 05: FEC snapshot counters. -/
def HOST_FEC_BIN (n k : Nat) : Nat := 0x210000c0 + 65536 * n + 4 * k
/-- 05: link configuration. -/
def HOST_JESD_RX_CFG (n : Nat) : Nat := 0x21000100 + 65536 * n
/-- 05: link configuration. -/
def HOST_JESD_TX_CFG (n : Nat) : Nat := 0x21000104 + 65536 * n
/-- 05: receive release. -/
def HOST_JESD_DL (n : Nat) : Nat := 0x21000108 + 65536 * n
/-- 05: SYNC_IN use. -/
def HOST_JESD_SYS (n : Nat) : Nat := 0x2100010c + 65536 * n
/-- 05: link status. -/
def HOST_JESD_STAT (n : Nat) : Nat := 0x21000110 + 65536 * n
/-- 06: event flags. -/
def BND_EVT : Nat := 0x30000000
/-- 06: SYNC_IN use. -/
def BND_SYNC_CTRL : Nat := 0x30000010
/-- 06: SYNC_IN counters. -/
def BND_SYNC_STAT : Nat := 0x30000014
/-- 06: last accepted edge. -/
def BND_SYNC_TIME : Nat := 0x30000018
/-- 06: scheduled restart. -/
def BND_SYNC_CMD : Nat := 0x3000001c
/-- 06: restart command result. -/
def BND_SYNC_RESULT : Nat := 0x30000020
/-- 06: invalid packed blocks. -/
def BND_BFP_ERR : Nat := 0x30000024
/-- 06: band time. -/
def BND_TIME_L : Nat := 0x30000028
/-- 06: band time. -/
def BND_TIME_H : Nat := 0x3000002c
/-- 06: class floors of direction d (0 downlink, 1 uplink). -/
def BND_ADM_RES (d : Nat) : Nat := 0x30000040 + 8 * d
/-- 06: admission status. -/
def BND_ADM_STAT (d : Nat) : Nat := 0x30000044 + 8 * d
/-- 06: throttle capacities. -/
def BND_ADM_THR : Nat := 0x30000050
/-- 06: measurement run. -/
def BND_MEAS_CTRL : Nat := 0x30000100
/-- 06: channel 0 start. -/
def BND_MEAS_T0 : Nat := 0x30000104
/-- 06: channel c source and frequency. -/
def BND_MEAS_SRC (c : Nat) : Nat := 0x30000140 + 4 * c
/-- 06: channel c source and frequency. -/
def BND_MEAS_FW (c : Nat) : Nat := 0x30000180 + 4 * c
/-- 06: channel c result. -/
def BND_MEAS_RE (c : Nat) : Nat := 0x30000200 + 8 * c
/-- 06: channel c result. -/
def BND_MEAS_IM (c : Nat) : Nat := 0x30000204 + 8 * c
/-- 06: input port p. -/
def BND_PIN (p : Nat) : Nat := 0x30010000 + 8 * p
/-- 06: input port p. -/
def BND_PIN2 (p : Nat) : Nat := 0x30010004 + 8 * p
/-- 06: output port p. -/
def BND_POUT (p : Nat) : Nat := 0x30012000 + 8 * p
/-- 06: output port p. -/
def BND_POUT2 (p : Nat) : Nat := 0x30012004 + 8 * p
/-- 06: path configuration. -/
def BND_PATH_CFG (k : Nat) : Nat := 0x30100000 + 8192 * k
/-- 06: path configuration. -/
def BND_PATH_CFG2 (k : Nat) : Nat := 0x30100004 + 8192 * k
/-- 06: admission command. -/
def BND_PATH_CMD (k : Nat) : Nat := 0x30100008 + 8192 * k
/-- 06: admission state. -/
def BND_PATH_STAT (k : Nat) : Nat := 0x3010000c + 8192 * k
/-- 06: mixing and correction. -/
def BND_PATH_NCO (k : Nat) : Nat := 0x30100010 + 8192 * k
/-- 06: mixing and correction. -/
def BND_PATH_PH0 (k : Nat) : Nat := 0x30100014 + 8192 * k
/-- 06: mixing and correction. -/
def BND_PATH_IQB (k : Nat) : Nat := 0x30100018 + 8192 * k
/-- 06: mixing and correction. -/
def BND_PATH_DC (k : Nat) : Nat := 0x3010001c + 8192 * k
/-- 06: path gain. -/
def BND_PATH_GAIN (k : Nat) : Nat := 0x30100020 + 8192 * k
/-- 06: path delay. -/
def BND_PATH_DELAY (k : Nat) : Nat := 0x30100024 + 8192 * k
/-- 06: channel filter. -/
def BND_PATH_CF (k : Nat) : Nat := 0x30100028 + 8192 * k
/-- 06: canceller swap. -/
def BND_PATH_CXCMD (k : Nat) : Nat := 0x3010002c + 8192 * k
/-- 06: saturation count. -/
def BND_PATH_SAT (k : Nat) : Nat := 0x30100030 + 8192 * k
/-- 06: canceller cluster c. -/
def BND_PATH_CXL (k c : Nat) : Nat := 0x30100040 + 8192 * k + 4 * c
/-- 06: meter window. -/
def BND_PATH_MTR_CTRL (k : Nat) : Nat := 0x30100080 + 8192 * k
/-- 06: meter readings. -/
def BND_PATH_MTR_IN (k : Nat) : Nat := 0x30100084 + 8192 * k
/-- 06: meter readings. -/
def BND_PATH_MTR_RES (k : Nat) : Nat := 0x30100088 + 8192 * k
/-- 06: meter readings. -/
def BND_PATH_MTR_OUT (k : Nat) : Nat := 0x3010008c + 8192 * k
/-- 06: inactive-bank coefficient j. -/
def BND_PATH_CFC (k j : Nat) : Nat := 0x30100400 + 8192 * k + 4 * j
/-- 06: shadow canceller tap j = 64c + i. -/
def BND_PATH_CXT (k j : Nat) : Nat := 0x30101000 + 8192 * k + 4 * j
/-- 06: shadow canceller tap j = 64c + i. -/
def BND_PATH_CXA (k j : Nat) : Nat := 0x30101800 + 8192 * k + 4 * j
/-- 07: event flags. -/
def RPT_EVT : Nat := 0x30800000
/-- 07: changed paths. -/
def RPT_CHG (j : Nat) : Nat := 0x30800004 + 4 * j
/-- 07: MUTE_N. -/
def RPT_MUTE_CTRL : Nat := 0x30800020
/-- 07: MUTE_N counters. -/
def RPT_MUTE_CNT : Nat := 0x30800024
/-- 07: composite ceiling. -/
def RPT_CEIL : Nat := 0x30800030
/-- 07: guard timing. -/
def RPT_GRD_CTRL : Nat := 0x30800034
/-- 07: donor groups. -/
def RPT_DONOR_STAT : Nat := 0x30800038
/-- 07: path configuration. -/
def RPT_PATH_CFG (k : Nat) : Nat := 0x30801000 + 64 * k
/-- 07: command. -/
def RPT_PATH_CMD (k : Nat) : Nat := 0x30801004 + 64 * k
/-- 07: state. -/
def RPT_PATH_STAT (k : Nat) : Nat := 0x30801008 + 64 * k
/-- 07: gain terms. -/
def RPT_PATH_LIM (k : Nat) : Nat := 0x3080100c + 64 * k
/-- 07: isolation and credit. -/
def RPT_PATH_ISO (k : Nat) : Nat := 0x30801010 + 64 * k
/-- 07: applied values. -/
def RPT_PATH_APP (k : Nat) : Nat := 0x30801014 + 64 * k
/-- 07: attenuation components. -/
def RPT_PATH_ATT_A (k : Nat) : Nat := 0x30801018 + 64 * k
/-- 07: attenuation components. -/
def RPT_PATH_ATT_B (k : Nat) : Nat := 0x3080101c + 64 * k
/-- 07: ramp rates. -/
def RPT_PATH_RAMP (k : Nat) : Nat := 0x30801020 + 64 * k
/-- 07: oscillation detector. -/
def RPT_PATH_OSC (k : Nat) : Nat := 0x30801024 + 64 * k
/-- 07: noise-rise rule. -/
def RPT_PATH_NR (k : Nat) : Nat := 0x30801028 + 64 * k
/-- 07: noise terms. -/
def RPT_PATH_NRC (k : Nat) : Nat := 0x3080102c + 64 * k
/-- 07: noise status. -/
def RPT_PATH_NRS (k : Nat) : Nat := 0x30801030 + 64 * k
/-- 07: lost-donor rule. -/
def RPT_PATH_LD (k : Nat) : Nat := 0x30801034 + 64 * k
/-- 08: event flags. -/
def LST_EVT : Nat := 0x31000000
/-- 08: global timing. -/
def LST_CTRL : Nat := 0x31000004
/-- 08: allowed donor cell i. -/
def LST_ALLOW (i : Nat) : Nat := 0x31000100 + 4 * i
/-- 08: noise-floor job. -/
def LST_NF_CFG (g : Nat) : Nat := 0x31000200 + 8 * g
/-- 08: noise-floor job. -/
def LST_NF_CFG2 (g : Nat) : Nat := 0x31000204 + 8 * g
/-- 08: noise floor. -/
def LST_NF (g : Nat) : Nat := 0x31000300 + 4 * g
/-- 08: channel configuration. -/
def LST_CH_CTRL (ch : Nat) : Nat := 0x31001000 + 4096 * ch
/-- 08: source. -/
def LST_CH_SRC (ch : Nat) : Nat := 0x31001004 + 4096 * ch
/-- 08: source. -/
def LST_CH_NCO (ch : Nat) : Nat := 0x31001008 + 4096 * ch
/-- 08: thresholds. -/
def LST_CH_THR (ch : Nat) : Nat := 0x3100100c + 4096 * ch
/-- 08: calibration and timing age. -/
def LST_CH_CAL (ch : Nat) : Nat := 0x31001010 + 4096 * ch
/-- 08: command. -/
def LST_CH_CMD (ch : Nat) : Nat := 0x31001014 + 4096 * ch
/-- 08: channel state. -/
def LST_CH_STAT (ch : Nat) : Nat := 0x31001018 + 4096 * ch
/-- 08: last reception. -/
def LST_RX_STAT (ch : Nat) : Nat := 0x31001020 + 4096 * ch
/-- 08: last reception. -/
def LST_RX_CELL (ch : Nat) : Nat := 0x31001024 + 4096 * ch
/-- 08: sync time. -/
def LST_RX_TIME_L (ch : Nat) : Nat := 0x31001028 + 4096 * ch
/-- 08: sync time. -/
def LST_RX_TIME_H (ch : Nat) : Nat := 0x3100102c + 4096 * ch
/-- 08: sync power. -/
def LST_RX_PWR (ch : Nat) : Nat := 0x31001030 + 4096 * ch
/-- 08: E-UTRA MIB. -/
def LST_MIB (ch : Nat) : Nat := 0x31001034 + 4096 * ch
/-- 08: frame timing. -/
def LST_FRAME_L (ch : Nat) : Nat := 0x31001038 + 4096 * ch
/-- 08: frame timing. -/
def LST_FRAME_H (ch : Nat) : Nat := 0x3100103c + 4096 * ch
/-- 08: frame timing. -/
def LST_FRAME_OFS (ch : Nat) : Nat := 0x31001040 + 4096 * ch
/-- 08: TDD pattern. -/
def LST_TDD_A (ch : Nat) : Nat := 0x31001044 + 4096 * ch
/-- 08: TDD pattern. -/
def LST_TDD_B (ch : Nat) : Nat := 0x31001048 + 4096 * ch
/-- 08: counters. -/
def LST_CH_CNT (ch : Nat) : Nat := 0x3100104c + 4096 * ch
/-- 08: NR payload buffer. -/
def LST_NRBUF_CTRL (ch : Nat) : Nat := 0x31001050 + 4096 * ch
/-- 08: NR resource element j. -/
def LST_NRBUF (ch j : Nat) : Nat := 0x31001400 + 4096 * ch + 4 * j
/-- 09: event flags. -/
def FEN_EVT : Nat := 0x32000000
/-- 09: pin owners. -/
def FEN_RFC_OWN_L : Nat := 0x32000004
/-- 09: pin owners. -/
def FEN_RFC_OWN_H : Nat := 0x32000008
/-- 09: safe and current levels. -/
def FEN_RFC_SAFE : Nat := 0x3200000c
/-- 09: safe and current levels. -/
def FEN_RFC_LEVEL : Nat := 0x32000010
/-- 09: coexistence. -/
def FEN_COEX_CTRL : Nat := 0x32000020
/-- 09: grant filtering. -/
def FEN_COEX_CFG : Nat := 0x32000024
/-- 09: coexistence status. -/
def FEN_COEX_STAT : Nat := 0x32000028
/-- 09: counters. -/
def FEN_COEX_CNT : Nat := 0x3200002c
/-- 09: sequencer configuration. -/
def FEN_SEQ_CTRL (s : Nat) : Nat := 0x32000100 + 128 * s
/-- 09: command. -/
def FEN_SEQ_CMD (s : Nat) : Nat := 0x32000104 + 128 * s
/-- 09: state. -/
def FEN_SEQ_STAT (s : Nat) : Nat := 0x32000108 + 128 * s
/-- 09: burst edges. -/
def FEN_SEQ_TIM (s : Nat) : Nat := 0x3200010c + 128 * s
/-- 09: burst edges. -/
def FEN_SEQ_TIM2 (s : Nat) : Nat := 0x32000110 + 128 * s
/-- 09: burst offset. -/
def FEN_SEQ_OFS (s : Nat) : Nat := 0x32000114 + 128 * s
/-- 09: hold and settle limits. -/
def FEN_SEQ_HOLD (s : Nat) : Nat := 0x32000118 + 128 * s
/-- 09: lock qualification. -/
def FEN_SEQ_LOCK (s : Nat) : Nat := 0x3200011c + 128 * s
/-- 09: state pattern. -/
def FEN_SEQ_PAT (s x : Nat) : Nat := 0x32000120 + 128 * s + 4 * x
/-- 09: calibration set-up. -/
def FEN_SEQ_CAL (s : Nat) : Nat := 0x32000140 + 128 * s
/-- 09: calibration set-up. -/
def FEN_SEQ_CALFW (s : Nat) : Nat := 0x32000144 + 128 * s
/-- 09: calibration set-up. -/
def FEN_SEQ_CALAMP (s : Nat) : Nat := 0x32000148 + 128 * s
/-- 09: calibration result. -/
def FEN_SEQ_CALRES (s : Nat) : Nat := 0x3200014c + 128 * s
/-- 09: counters. -/
def FEN_SEQ_CNT (s : Nat) : Nat := 0x32000150 + 128 * s
/-- 09: SPI master m. -/
def FEN_SPI_CFG (m : Nat) : Nat := 0x32000400 + 128 * m
/-- 09: SPI master m. -/
def FEN_SPI_CMD (m : Nat) : Nat := 0x32000404 + 128 * m
/-- 09: SPI master m. -/
def FEN_SPI_STAT (m : Nat) : Nat := 0x32000408 + 128 * m
/-- 09: SPI word j. -/
def FEN_SPI_DATA (m j : Nat) : Nat := 0x32000440 + 128 * m + 4 * j
/-- 11: core command. -/
def OWN_CORE_CTRL (c : Nat) : Nat := 0x40708000 + 16 * c
/-- 11: core state. -/
def OWN_CORE_STAT (c : Nat) : Nat := 0x40708004 + 16 * c
/-- 11: core command result. -/
def OWN_CORE_RESULT (c : Nat) : Nat := 0x40708008 + 16 * c
/-- 11: image source. -/
def OWN_LD_SRC : Nat := 0x40708100
/-- 11: loader command. -/
def OWN_LD_CMD : Nat := 0x40708104
/-- 11: loader result. -/
def OWN_LD_RESULT : Nat := 0x40708108
/-- 11: rollback floor of core class k. -/
def OWN_LD_FLOOR (k : Nat) : Nat := 0x40708110 + 4 * k
/-- 11: loader key table. -/
def OWN_LD_KEYTAB : Nat := 0x40708120
/-- 11: pending bits. -/
def EVR_PEND (j : Nat) : Nat := 0x40300000 + 4 * j
/-- 11: software raise. -/
def EVR_RAISE : Nat := 0x40300040
/-- 11: next event of core c. -/
def EVR_NEXT (c : Nat) : Nat := 0x40300080 + 4 * c
/-- 11: watchdog. -/
def EVR_WDOG_CTRL : Nat := 0x403000c0
/-- 11: kick. -/
def EVR_WDOG_KICK : Nat := 0x403000c4
/-- 11: watchdog status. -/
def EVR_WDOG_STAT : Nat := 0x403000c8
/-- 11: lockstep. -/
def EVR_LOCK_STAT : Nat := 0x403000d0
/-- 11: lockstep. -/
def EVR_LOCK_PC : Nat := 0x403000d4
/-- 11: route of event e. -/
def EVR_ROUTE (e : Nat) : Nat := 0x40301000 + 4 * e
/-- 11: system counter j. -/
def PMC_SEL (j : Nat) : Nat := 0x40a00000 + 16 * j
/-- 11: system counter j. -/
def PMC_CNT_L (j : Nat) : Nat := 0x40a00004 + 16 * j
/-- 11: system counter j. -/
def PMC_CNT_H (j : Nat) : Nat := 0x40a00008 + 16 * j
/-- 11: class mask of system counter j. -/
def PMC_CLS (j : Nat) : Nat := 0x40a00200 + 4 * j
/-- 11: address range r. -/
def PMC_RANGE_LO (r : Nat) : Nat := 0x40a00400 + 8 * r
/-- 11: address range r. -/
def PMC_RANGE_HI (r : Nat) : Nat := 0x40a00404 + 8 * r
/-- 11: overflow skid of core c. -/
def PMC_SKID (c : Nat) : Nat := 0x40a00500 + 8 * c
/-- 11: overflow skid of core c. -/
def PMC_SKID_PC (c : Nat) : Nat := 0x40a00504 + 8 * c
/-- 12: boot-flash clock. -/
def STO_NOR_CTRL : Nat := 0x40800100
/-- 12: transaction. -/
def STO_NOR_CMD : Nat := 0x40800104
/-- 12: transaction. -/
def STO_NOR_ADDR : Nat := 0x40800108
/-- 12: transaction result. -/
def STO_NOR_RESULT : Nat := 0x4080010c
/-- 12: transaction data. -/
def STO_NOR_BUF (j : Nat) : Nat := 0x40800200 + 4 * j
/-- 12: memory event flags. -/
def MEM_EVT : Nat := 0x40500000
/-- 12: fill status. -/
def MEM_FILL_STAT : Nat := 0x40500004
/-- 12: slot weights. -/
def MEM_ARB_W : Nat := 0x40500008
/-- 12: corrected errors. -/
def MEM_CORR : Nat := 0x4050000c
/-- 12: first uncorrectable error. -/
def MEM_UE_ADDR : Nat := 0x40500010
/-- 12: first uncorrectable error. -/
def MEM_UE_INFO : Nat := 0x40500014
/-- 12: error injection. -/
def MEM_INJ_ADDR : Nat := 0x40500020
/-- 12: error injection. -/
def MEM_INJ_CTRL : Nat := 0x40500024
/-- 12: scrubber of unit m. -/
def MEM_SCRUB (m : Nat) : Nat := 0x40500100 + 4 * m
/-- 12: channel events. -/
def DMA_EVT : Nat := 0x40400000
/-- 12: channel c. -/
def DMA_CH_DESC (c : Nat) : Nat := 0x40401000 + 64 * c
/-- 12: channel c. -/
def DMA_CH_CMD (c : Nat) : Nat := 0x40401004 + 64 * c
/-- 12: channel state. -/
def DMA_CH_STAT (c : Nat) : Nat := 0x40401008 + 64 * c
/-- 12: transfer position. -/
def DMA_CH_SRC (c : Nat) : Nat := 0x4040100c + 64 * c
/-- 12: transfer position. -/
def DMA_CH_DST (c : Nat) : Nat := 0x40401010 + 64 * c
/-- 12: transfer position. -/
def DMA_CH_COUNT (c : Nat) : Nat := 0x40401014 + 64 * c
/-- 12: transfer position. -/
def DMA_CH_FADDR (c : Nat) : Nat := 0x40401018 + 64 * c
/-- 12: bus set-up. -/
def STO_CTRL : Nat := 0x40800000
/-- 12: command. -/
def STO_CMD : Nat := 0x40800004
/-- 12: command. -/
def STO_ARG : Nat := 0x40800008
/-- 12: command. -/
def STO_CNT : Nat := 0x4080000c
/-- 12: result. -/
def STO_RESULT : Nat := 0x40800010
/-- 12: result. -/
def STO_RESP (i : Nat) : Nat := 0x40800014 + 4 * i
/-- 13: clock event flags. -/
def CRP_CLK_EVT : Nat := 0x40000000
/-- 13: clock status. -/
def CRP_CLK_STAT : Nat := 0x40000004
/-- 13: monitor limits. -/
def CRP_REFMON : Nat := 0x40000008
/-- 13: monitor counts. -/
def CRP_REFCNT : Nat := 0x4000000c
/-- 13: PLL enables. -/
def CRP_PLL_CTRL : Nat := 0x40000010
/-- 13: PLL status. -/
def CRP_PLL_STAT : Nat := 0x40000014
/-- 13: BPLL trim. -/
def CRP_BPLL_TRIM : Nat := 0x40000018
/-- 13: BPLL trim. -/
def CRP_BPLL_APPLIED : Nat := 0x4000001c
/-- 13: system domain source. -/
def CRP_SYS_SEL : Nat := 0x40000020
/-- 13: CLKOUT. -/
def CRP_CLKOUT : Nat := 0x40000024
/-- 13: time increment. -/
def CRP_AOSC_INC : Nat := 0x40000028
/-- 13: always-on time. -/
def CRP_AON_TIME_L : Nat := 0x40000030
/-- 13: always-on time. -/
def CRP_AON_TIME_H : Nat := 0x40000034
/-- 13: block clocks. -/
def CRP_GATE_STAT : Nat := 0x40000040
/-- 13: block clocks. -/
def CRP_GATE_FORCE : Nat := 0x40000044
/-- 14: reset cause. -/
def RST_CAUSE : Nat := 0x40001000
/-- 14: command reset. -/
def CRP_CMD_RESET : Nat := 0x40001004
/-- 14: block resets. -/
def CRP_BLK_RST : Nat := 0x40001008
/-- 14: block resets. -/
def CRP_BLK_RST_STAT : Nat := 0x4000100c
/-- 14: attic load. -/
def CRP_ATTIC_STAT : Nat := 0x40001010
/-- 14: boot ROM progress. -/
def CRP_BOOT_STAT : Nat := 0x40001014
/-- 14: reset event flags. -/
def CRP_RST_EVT : Nat := 0x40001018
/-- 15: stop request. -/
def PWR_MODE : Nat := 0x40002000
/-- 15: stop and wake status. -/
def PWR_STAT : Nat := 0x40002004
/-- 15: wake sources. -/
def PWR_WAKE_EN : Nat := 0x40002008
/-- 15: wake alarm. -/
def PWR_ALARM : Nat := 0x4000200c
/-- 15: larder list. -/
def PWR_LARDER : Nat := 0x40002010
/-- 15: first failed restore. -/
def PWR_LARDER_FAIL : Nat := 0x40002014
/-- 15: stop voltages. -/
def PWR_AVS_CTRL : Nat := 0x40002020
/-- 15: supply request. -/
def PWR_AVS_REQ : Nat := 0x40002024
/-- 15: request status. -/
def PWR_AVS_STAT : Nat := 0x40002028
/-- 15: demand timer and shutdown delay. -/
def TH_CTRL : Nat := 0x40002040
/-- 15: demand. -/
def TH_CMD : Nat := 0x40002044
/-- 15: threshold state. -/
def TH_STAT : Nat := 0x40002048
/-- 15: threshold k (0 warning, 1 throttle, 2 shutdown). -/
def TH_THR (k : Nat) : Nat := 0x4000204c + 4 * k
/-- 15: sensor s. -/
def TH_SENS (s : Nat) : Nat := 0x40002060 + 4 * s
/-- 15: power and thermal event flags. -/
def PWR_EVT : Nat := 0x400020a0
/-- 16: converter event flags. -/
def HKC_EVT : Nat := 0x40100000
/-- 16: scan control. -/
def HKC_SCAN_CTRL : Nat := 0x40100004
/-- 16: scan start. -/
def HKC_SCAN_T0 : Nat := 0x40100008
/-- 16: scan entry i. -/
def HKC_ENT (i : Nat) : Nat := 0x40100100 + 4 * i
/-- 16: result i. -/
def HKC_RES (i : Nat) : Nat := 0x40100200 + 4 * i
/-- 16: pin p. -/
def HKD_CTRL (p : Nat) : Nat := 0x40100400 + 16 * p
/-- 16: pin p. -/
def HKD_VAL (p : Nat) : Nat := 0x40100404 + 16 * p
/-- 16: pin p. -/
def HKD_FW (p : Nat) : Nat := 0x40100408 + 16 * p
/-- 16: pin p. -/
def HKD_STAT (p : Nat) : Nat := 0x4010040c + 16 * p
/-- 16: GRD offsets 0x0000, 0x0004 and 0x0008.. -/
def GRD_CTRL : Nat := 0x40200000
/-- 16: GRD offsets 0x0000, 0x0004 and 0x0008.. -/
def GRD_STAT : Nat := 0x40200004
/-- 16: GRD offsets 0x0000, 0x0004 and 0x0008.. -/
def GRD_TRIP_CLR : Nat := 0x40200008
/-- 16: transmit and band ceilings. -/
def GRD_SWING : Nat := 0x40200010
/-- 16: transmit and band ceilings. -/
def GRD_GAIN (d : Nat) : Nat := 0x40200014 + 4 * d
/-- 16: pin p guard. -/
def GRD_PIN (p : Nat) : Nat := 0x40200100 + 16 * p
/-- 16: pin p guard. -/
def GRD_PIN_ATT (p : Nat) : Nat := 0x40200104 + 16 * p
/-- 16: pin p guard. -/
def GRD_PIN_LIM (p : Nat) : Nat := 0x40200108 + 16 * p
/-- 17: key slot k. -/
def OWN_KEYSLOT (k : Nat) : Nat := 0x40700600 + 64 * k
/-- 17: key slot k. -/
def OWN_KEYSLOT_HASH (k w : Nat) : Nat := 0x40700604 + 64 * k + 4 * w
/-- 17: key fusing. -/
def OWN_FUSE_CMD : Nat := 0x40700090
/-- 17: key fusing. -/
def OWN_FUSE_BUF : Nat := 0x40700094
/-- 17: key fusing. -/
def OWN_FUSE_RESULT : Nat := 0x40700098
/-- 17: ownership event flags. -/
def OWN_EVT : Nat := 0x40700000
/-- 17: owner. -/
def OWN_STAT : Nat := 0x40700004
/-- 17: claim and accept. -/
def OWN_CLAIM : Nat := 0x40700008
/-- 17: claim and accept. -/
def OWN_ACCEPT : Nat := 0x4070001c
/-- 17: lease. -/
def OWN_LEASE : Nat := 0x4070000c
/-- 17: lease. -/
def OWN_LEASE_CFG : Nat := 0x40700010
/-- 17: handover. -/
def OWN_HANDOVER : Nat := 0x40700014
/-- 17: handover. -/
def OWN_HO_RESULT : Nat := 0x40700018
/-- 17: attic policy. -/
def OWN_POLICY : Nat := 0x40700020
/-- 17: refusal log. -/
def OWN_RLOG_STAT : Nat := 0x40700030
/-- 17: log entry i. -/
def OWN_RLOG_ADDR (i : Nat) : Nat := 0x40700100 + 16 * i
/-- 17: log entry i. -/
def OWN_RLOG_SEC (i : Nat) : Nat := 0x40700104 + 16 * i
/-- 17: log entry i. -/
def OWN_RLOG_INFO (i : Nat) : Nat := 0x40700108 + 16 * i
/-- 17: log entry i. -/
def OWN_RLOG_FRAC (i : Nat) : Nat := 0x4070010c + 16 * i
/-- 17: hatch. -/
def OWN_HATCH_STAT : Nat := 0x40700040
/-- 17: secrets. -/
def OWN_ZERO : Nat := 0x40700044
/-- 17: secret window. -/
def OWN_SECRET_LO : Nat := 0x40700048
/-- 17: secret window. -/
def OWN_SECRET_HI : Nat := 0x4070004c
/-- 17: device identity. -/
def OWN_ID (j : Nat) : Nat := 0x40700060 + 4 * j
/-- 17: signing. -/
def OWN_SIGN_CMD : Nat := 0x40700080
/-- 17: signing. -/
def OWN_SIGN_BUF : Nat := 0x40700084
/-- 17: signing. -/
def OWN_SIGN_RESULT : Nat := 0x40700088
/-- 17: identity public key. -/
def OWN_IDPUB (k : Nat) : Nat := 0x40701000 + 4 * k
/-- 18: fabric event flags. -/
def SNK_EVT : Nat := 0x40600000
/-- 18: device address. -/
def SNK_ADDR : Nat := 0x40600004
/-- 18: timing. -/
def SNK_CFG : Nat := 0x40600008
/-- 18: link enables and discards. -/
def SNK_LINK_EN : Nat := 0x4060000c
/-- 18: link enables and discards. -/
def SNK_DISC : Nat := 0x40600010
/-- 18: link l. -/
def SNK_LINK_STAT (l : Nat) : Nat := 0x40600040 + 4 * l
/-- 18: drops of class c. -/
def SNK_DROP (c : Nat) : Nat := 0x40600080 + 4 * c
/-- 18: send slot s. -/
def SNK_TX_ADDR (s : Nat) : Nat := 0x40600100 + 16 * s
/-- 18: send slot s. -/
def SNK_TX_CMD (s : Nat) : Nat := 0x40600104 + 16 * s
/-- 18: send slot s. -/
def SNK_TX_RESULT (s : Nat) : Nat := 0x40600108 + 16 * s
/-- 18: receive ring of class c. -/
def SNK_RXR_BASE (c : Nat) : Nat := 0x40600200 + 16 * c
/-- 18: receive ring of class c. -/
def SNK_RXR_CTRL (c : Nat) : Nat := 0x40600204 + 16 * c
/-- 18: remote access. -/
def SNK_RRA_CTRL : Nat := 0x40600300
/-- 18: remote access. -/
def SNK_RRA_ADDR : Nat := 0x40600304
/-- 18: remote access. -/
def SNK_RRA_RESULT : Nat := 0x40600308
/-- 18: remote access. -/
def SNK_RRA_DATA (j : Nat) : Nat := 0x40600380 + 4 * j
/-- 18: pair configuration. -/
def SNK_PAIR_CTRL : Nat := 0x40600400
/-- 18: heartbeat and command. -/
def SNK_PAIR_TIM : Nat := 0x40600404
/-- 18: heartbeat and command. -/
def SNK_PAIR_CMD : Nat := 0x40600408
/-- 18: pair state. -/
def SNK_PAIR_STAT : Nat := 0x4060040c
/-- 18: route to device a. -/
def SNK_ROUTE (a : Nat) : Nat := 0x40604000 + 4 * a
/-- 19: cellar state. -/
def CEL_STAT : Nat := 0x40900000
/-- 19: window event flags. -/
def CEL_EVT : Nat := 0x40900004
/-- 19: sensor 8. -/
def CEL_TEMP : Nat := 0x40900008
/-- 19: newest record and log entry. -/
def CEL_REC_HEAD : Nat := 0x4090000c
/-- 19: newest record and log entry. -/
def CEL_LOG_HEAD : Nat := 0x40900010
/-- 19: identification. -/
def CEL_ID_ROM_VER : Nat := 0x40900100
/-- 19: identification. -/
def CEL_ID_ROM_CRC : Nat := 0x40900104
/-- 19: identification. -/
def CEL_ID_SEAL_CRC : Nat := 0x40900108
/-- 19: identification. -/
def CEL_ID_KEY_ID (j : Nat) : Nat := 0x4090010c + 4 * j
/-- 19: identification. -/
def CEL_ID_INTERVAL : Nat := 0x4090012c
/-- 20: self-test event flags. -/
def BST_EVT : Nat := 0x40b00000
/-- 20: memory walk. -/
def BST_MEM_CTRL : Nat := 0x40b00004
/-- 20: targeted row test. -/
def BST_MEM_CMD : Nat := 0x40b00008
/-- 20: targeted row result. -/
def BST_MEM_RESULT : Nat := 0x40b0000c
/-- 20: logic slice request. -/
def BST_LB_CMD : Nat := 0x40b00010
/-- 20: logic slice result. -/
def BST_LB_RESULT : Nat := 0x40b00014
/-- 20: logic wait limit. -/
def BST_LB_CFG : Nat := 0x40b00018
/-- 20: ledger. -/
def BST_LEDGER_BASE : Nat := 0x40b00020
/-- 20: ledger. -/
def BST_LEDGER_HEAD : Nat := 0x40b00024
/-- 20: ledger. -/
def BST_LEDGER_SEQ : Nat := 0x40b00028
/-- 20: unit m walk. -/
def BST_MEM_UNIT (m : Nat) : Nat := 0x40b00100 + 4 * m
/-- 20: core c logic state. -/
def BST_LB_STAT (c : Nat) : Nat := 0x40b00200 + 4 * c
/-- 20: spare k of unit m. -/
def BST_REPAIR (m k : Nat) : Nat := 0x40b00300 + 16 * m + 4 * k

/-! ## Fields -/

def LANE_ADC_CTRL_rx_en (n : Nat) : Fd := ⟨(LANE_ADC_CTRL n), 0, 1⟩
def LANE_ADC_CTRL_rot_en (n : Nat) : Fd := ⟨(LANE_ADC_CTRL n), 1, 1⟩
def LANE_ADC_CTRL_ctle_peak (n : Nat) : Fd := ⟨(LANE_ADC_CTRL n), 4, 2⟩
def LANE_ADC_CTRL_slot_len (n : Nat) : Fd := ⟨(LANE_ADC_CTRL n), 8, 2⟩
def LANE_ADC_STATUS_spare (n : Nat) : Fd := ⟨(LANE_ADC_STATUS n), 0, 7⟩
def LANE_ADC_STATUS_phase (n : Nat) : Fd := ⟨(LANE_ADC_STATUS n), 8, 2⟩
def LANE_ADC_STATUS_fg_busy (n : Nat) : Fd := ⟨(LANE_ADC_STATUS n), 12, 1⟩
def LANE_ADC_STATUS_fg_done (n : Nat) : Fd := ⟨(LANE_ADC_STATUS n), 13, 1⟩
def LANE_ADC_STATUS_rot_run (n : Nat) : Fd := ⟨(LANE_ADC_STATUS n), 14, 1⟩
def LANE_ADC_STATUS_deferred (n : Nat) : Fd := ⟨(LANE_ADC_STATUS n), 15, 1⟩
def LANE_ADC_STATUS_ramp_busy (n : Nat) : Fd := ⟨(LANE_ADC_STATUS n), 16, 1⟩
def LANE_ADC_STATUS_no_spare (n : Nat) : Fd := ⟨(LANE_ADC_STATUS n), 17, 1⟩
def LANE_ADC_STATUS_rot_count (n : Nat) : Fd := ⟨(LANE_ADC_STATUS n), 24, 8⟩
def LANE_CAL_CMD_op (n : Nat) : Fd := ⟨(LANE_CAL_CMD n), 0, 3⟩
def LANE_CAL_CMD_slice (n : Nat) : Fd := ⟨(LANE_CAL_CMD n), 8, 7⟩
def LANE_CAL_RESULT_outcome (n : Nat) : Fd := ⟨(LANE_CAL_RESULT n), 0, 8⟩
def LANE_CAL_RESULT_op (n : Nat) : Fd := ⟨(LANE_CAL_RESULT n), 8, 3⟩
def LANE_CAL_RESULT_slice (n : Nat) : Fd := ⟨(LANE_CAL_RESULT n), 16, 7⟩
def LANE_CAL_RESULT_reason (n : Nat) : Fd := ⟨(LANE_CAL_RESULT n), 24, 2⟩
def LANE_RAMP_CTRL_ofs_step (n : Nat) : Fd := ⟨(LANE_RAMP_CTRL n), 0, 3⟩
def LANE_RAMP_CTRL_gain_step (n : Nat) : Fd := ⟨(LANE_RAMP_CTRL n), 4, 3⟩
def LANE_RAMP_CTRL_skew_step (n : Nat) : Fd := ⟨(LANE_RAMP_CTRL n), 8, 3⟩
def LANE_RAMP_CTRL_freeze (n : Nat) : Fd := ⟨(LANE_RAMP_CTRL n), 16, 1⟩
def LANE_ADC_EVT_fg_done (n : Nat) : Fd := ⟨(LANE_ADC_EVT n), 0, 1⟩
def LANE_ADC_EVT_rot_done (n : Nat) : Fd := ⟨(LANE_ADC_EVT n), 1, 1⟩
def LANE_ADC_EVT_slice_sat (n : Nat) : Fd := ⟨(LANE_ADC_EVT n), 2, 1⟩
def LANE_ADC_EVT_slice_fail (n : Nat) : Fd := ⟨(LANE_ADC_EVT n), 3, 1⟩
def LANE_ADC_EVT_deferred (n : Nat) : Fd := ⟨(LANE_ADC_EVT n), 4, 1⟩
def LANE_ADC_EVT_cmd_done (n : Nat) : Fd := ⟨(LANE_ADC_EVT n), 5, 1⟩
def LANE_SLICE_TGT_ofs (n k : Nat) : Fd := ⟨(LANE_SLICE_TGT n k), 0, 12⟩
def LANE_SLICE_TGT_gain (n k : Nat) : Fd := ⟨(LANE_SLICE_TGT n k), 16, 11⟩
def LANE_SLICE_TGT_pin (n k : Nat) : Fd := ⟨(LANE_SLICE_TGT n k), 31, 1⟩
def LANE_SLICE_TSKEW_skew (n k : Nat) : Fd := ⟨(LANE_SLICE_TSKEW n k), 0, 10⟩
def LANE_SLICE_CUR_ofs (n k : Nat) : Fd := ⟨(LANE_SLICE_CUR n k), 0, 12⟩
def LANE_SLICE_CUR_gain (n k : Nat) : Fd := ⟨(LANE_SLICE_CUR n k), 16, 11⟩
def LANE_SLICE_CSKEW_skew (n k : Nat) : Fd := ⟨(LANE_SLICE_CSKEW n k), 0, 10⟩
def LANE_SLICE_CSKEW_pos (n k : Nat) : Fd := ⟨(LANE_SLICE_CSKEW n k), 16, 6⟩
def LANE_SLICE_CSKEW_state (n k : Nat) : Fd := ⟨(LANE_SLICE_CSKEW n k), 24, 2⟩
def LANE_SLICE_CSKEW_sat (n k : Nat) : Fd := ⟨(LANE_SLICE_CSKEW n k), 28, 1⟩
def LANE_TX_CTRL_dac_en (n : Nat) : Fd := ⟨(LANE_TX_CTRL n), 0, 1⟩
def LANE_TX_CTRL_fir_en (n : Nat) : Fd := ⟨(LANE_TX_CTRL n), 1, 1⟩
def LANE_TX_CTRL_pd_en (n : Nat) : Fd := ⟨(LANE_TX_CTRL n), 2, 1⟩
def LANE_TX_CTRL_swing (n : Nat) : Fd := ⟨(LANE_TX_CTRL n), 8, 8⟩
def LANE_TX_CTRL_main_pos (n : Nat) : Fd := ⟨(LANE_TX_CTRL n), 16, 2⟩
def LANE_TX_COMMIT_fir (n : Nat) : Fd := ⟨(LANE_TX_COMMIT n), 0, 1⟩
def LANE_TX_COMMIT_pd_swap (n : Nat) : Fd := ⟨(LANE_TX_COMMIT n), 1, 1⟩
def LANE_TX_STATUS_outcome (n : Nat) : Fd := ⟨(LANE_TX_STATUS n), 0, 8⟩
def LANE_TX_STATUS_pd_bank (n : Nat) : Fd := ⟨(LANE_TX_STATUS n), 8, 1⟩
def LANE_TX_STATUS_pending (n : Nat) : Fd := ⟨(LANE_TX_STATUS n), 9, 1⟩
def LANE_TX_STATUS_clamped (n : Nat) : Fd := ⟨(LANE_TX_STATUS n), 16, 1⟩
def LANE_TX_FIR_shadow (n k : Nat) : Fd := ⟨(LANE_TX_FIR n k), 0, 10⟩
def LANE_TX_FIR_active (n k : Nat) : Fd := ⟨(LANE_TX_FIR n k), 16, 10⟩
def LANE_TX_PDA_corr (n i : Nat) : Fd := ⟨(LANE_TX_PDA n i), 0, 8⟩
def LANE_TX_PDB_corr (n i : Nat) : Fd := ⟨(LANE_TX_PDB n i), 0, 8⟩
def LANE_DET_CTRL_det_en (n : Nat) : Fd := ⟨(LANE_DET_CTRL n), 0, 1⟩
def LANE_DET_CTRL_red_force (n : Nat) : Fd := ⟨(LANE_DET_CTRL n), 1, 1⟩
def LANE_DET_CTRL_seam_mode (n : Nat) : Fd := ⟨(LANE_DET_CTRL n), 2, 2⟩
def LANE_DET_CTRL_seed_pen (n : Nat) : Fd := ⟨(LANE_DET_CTRL n), 4, 4⟩
def LANE_DET_CTRL_rel_shift (n : Nat) : Fd := ⟨(LANE_DET_CTRL n), 8, 3⟩
def LANE_DET_CTRL_bm_shift (n : Nat) : Fd := ⟨(LANE_DET_CTRL n), 16, 4⟩
def LANE_DET_STATUS_state (n : Nat) : Fd := ⟨(LANE_DET_STATUS n), 0, 3⟩
def LANE_DET_STATUS_locked (n : Nat) : Fd := ⟨(LANE_DET_STATUS n), 3, 1⟩
def LANE_DET_STATUS_reduced (n : Nat) : Fd := ⟨(LANE_DET_STATUS n), 4, 1⟩
def LANE_DET_STATUS_red_ramp (n : Nat) : Fd := ⟨(LANE_DET_STATUS n), 5, 1⟩
def LANE_DET_STATUS_lost_reason (n : Nat) : Fd := ⟨(LANE_DET_STATUS n), 8, 3⟩
def LANE_DET_CMD_op (n : Nat) : Fd := ⟨(LANE_DET_CMD n), 0, 3⟩
def LANE_DET_RESULT_outcome (n : Nat) : Fd := ⟨(LANE_DET_RESULT n), 0, 8⟩
def LANE_DET_RESULT_op (n : Nat) : Fd := ⟨(LANE_DET_RESULT n), 8, 3⟩
def LANE_DET_RESULT_reason (n : Nat) : Fd := ⟨(LANE_DET_RESULT n), 12, 2⟩
def LANE_DET_EVT_locked (n : Nat) : Fd := ⟨(LANE_DET_EVT n), 6, 1⟩
def LANE_DET_EVT_lock_lost (n : Nat) : Fd := ⟨(LANE_DET_EVT n), 7, 1⟩
def LANE_DET_EVT_seam_warn (n : Nat) : Fd := ⟨(LANE_DET_EVT n), 8, 1⟩
def LANE_DET_EVT_lms_done (n : Nat) : Fd := ⟨(LANE_DET_EVT n), 9, 1⟩
def LANE_DET_EVT_cmd_done (n : Nat) : Fd := ⟨(LANE_DET_EVT n), 10, 1⟩
def LANE_DET_EVT_reduced (n : Nat) : Fd := ⟨(LANE_DET_EVT n), 11, 1⟩
def LANE_DET_EVT_tr_limit (n : Nat) : Fd := ⟨(LANE_DET_EVT n), 12, 1⟩
def LANE_DET_EVT_hist_done (n : Nat) : Fd := ⟨(LANE_DET_EVT n), 13, 1⟩
def LANE_DET_EVT_swap_done (n : Nat) : Fd := ⟨(LANE_DET_EVT n), 14, 1⟩
def LANE_DET_MON_lock_thr (n : Nat) : Fd := ⟨(LANE_DET_MON n), 0, 8⟩
def LANE_DET_MON_loss_thr (n : Nat) : Fd := ⟨(LANE_DET_MON n), 8, 8⟩
def LANE_DET_MON_mon_len (n : Nat) : Fd := ⟨(LANE_DET_MON n), 16, 3⟩
def LANE_DET_MON_sig_min (n : Nat) : Fd := ⟨(LANE_DET_MON n), 20, 8⟩
def LANE_SEAM_CNT_count (n : Nat) : Fd := ⟨(LANE_SEAM_CNT n), 0, 24⟩
def LANE_SEAM_CNT_windows (n : Nat) : Fd := ⟨(LANE_SEAM_CNT n), 24, 8⟩
def LANE_EQ_CTRL_cursor (n : Nat) : Fd := ⟨(LANE_EQ_CTRL n), 0, 6⟩
def LANE_EQ_CTRL_anchor (n : Nat) : Fd := ⟨(LANE_EQ_CTRL n), 8, 6⟩
def LANE_EQ_CTRL_step_max (n : Nat) : Fd := ⟨(LANE_EQ_CTRL n), 16, 4⟩
def LANE_EQ_CTRL_red_first (n : Nat) : Fd := ⟨(LANE_EQ_CTRL n), 24, 6⟩
def LANE_EQ_TAP_coef (n k : Nat) : Fd := ⟨(LANE_EQ_TAP n k), 0, 12⟩
def LANE_EQ_TAP_eff (n k : Nat) : Fd := ⟨(LANE_EQ_TAP n k), 16, 12⟩
def LANE_EQ_TAP_gated (n k : Nat) : Fd := ⟨(LANE_EQ_TAP n k), 31, 1⟩
def LANE_TR_CTRL_tr_en (n : Nat) : Fd := ⟨(LANE_TR_CTRL n), 0, 1⟩
def LANE_TR_CTRL_kp_shift (n : Nat) : Fd := ⟨(LANE_TR_CTRL n), 4, 4⟩
def LANE_TR_CTRL_ki_shift (n : Nat) : Fd := ⟨(LANE_TR_CTRL n), 8, 5⟩
def LANE_TR_CTRL_freq_lim (n : Nat) : Fd := ⟨(LANE_TR_CTRL n), 16, 8⟩
def LANE_TR_PHASE_phase (n : Nat) : Fd := ⟨(LANE_TR_PHASE n), 0, 8⟩
def LANE_TR_PHASE_set (n : Nat) : Fd := ⟨(LANE_TR_PHASE n), 8, 8⟩
def LANE_TR_PHASE_moving (n : Nat) : Fd := ⟨(LANE_TR_PHASE n), 16, 1⟩
def LANE_TR_FREQ_freq (n : Nat) : Fd := ⟨(LANE_TR_FREQ n), 0, 22⟩
def LANE_TR_FREQ_at_lim (n : Nat) : Fd := ⟨(LANE_TR_FREQ n), 31, 1⟩
def LANE_TRL_CTRL_bank (n : Nat) : Fd := ⟨(LANE_TRL_CTRL n), 0, 1⟩
def LANE_TRL_CTRL_pending (n : Nat) : Fd := ⟨(LANE_TRL_CTRL n), 1, 1⟩
def LANE_TRL_CTRL_lvl_step_max (n : Nat) : Fd := ⟨(LANE_TRL_CTRL n), 4, 4⟩
def LANE_TRL_CTRL_outcome (n : Nat) : Fd := ⟨(LANE_TRL_CTRL n), 8, 8⟩
def LANE_TRL_COMMIT_swap (n : Nat) : Fd := ⟨(LANE_TRL_COMMIT n), 0, 1⟩
def LANE_TRL_LEVA_level (n i : Nat) : Fd := ⟨(LANE_TRL_LEVA n i), 0, 12⟩
def LANE_TRL_LEVA_weight (n i : Nat) : Fd := ⟨(LANE_TRL_LEVA n i), 16, 6⟩
def LANE_TRL_LEVB_level (n i : Nat) : Fd := ⟨(LANE_TRL_LEVB n i), 0, 12⟩
def LANE_TRL_LEVB_weight (n i : Nat) : Fd := ⟨(LANE_TRL_LEVB n i), 16, 6⟩
def LANE_LMS_CFG_kind (n u : Nat) : Fd := ⟨(LANE_LMS_CFG n u), 0, 1⟩
def LANE_LMS_CFG_first (n u : Nat) : Fd := ⟨(LANE_LMS_CFG n u), 2, 6⟩
def LANE_LMS_CFG_count (n u : Nat) : Fd := ⟨(LANE_LMS_CFG n u), 8, 3⟩
def LANE_LMS_CFG_acc_len (n u : Nat) : Fd := ⟨(LANE_LMS_CFG n u), 12, 4⟩
def LANE_LMS_CFG_pos (n u : Nat) : Fd := ⟨(LANE_LMS_CFG n u), 16, 12⟩
def LANE_LMS_CMD_op (n u : Nat) : Fd := ⟨(LANE_LMS_CMD n u), 0, 2⟩
def LANE_LMS_CMD_mu_shift (n u : Nat) : Fd := ⟨(LANE_LMS_CMD n u), 4, 4⟩
def LANE_LMS_STAT_outcome (n u : Nat) : Fd := ⟨(LANE_LMS_STAT n u), 0, 8⟩
def LANE_LMS_STAT_busy (n u : Nat) : Fd := ⟨(LANE_LMS_STAT n u), 8, 1⟩
def LANE_LMS_STAT_op (n u : Nat) : Fd := ⟨(LANE_LMS_STAT n u), 9, 2⟩
def LANE_LMS_STAT_reason (n u : Nat) : Fd := ⟨(LANE_LMS_STAT n u), 12, 2⟩
def LANE_LMS_STAT_clamped (n u : Nat) : Fd := ⟨(LANE_LMS_STAT n u), 16, 8⟩
def LANE_LMS_GRAD_g (n u j : Nat) : Fd := ⟨(LANE_LMS_GRAD n u j), 0, 32⟩
def LANE_HIST_CTRL_run (n : Nat) : Fd := ⟨(LANE_HIST_CTRL n), 0, 1⟩
def LANE_HIST_CTRL_busy (n : Nat) : Fd := ⟨(LANE_HIST_CTRL n), 1, 1⟩
def LANE_HIST_CTRL_sel (n : Nat) : Fd := ⟨(LANE_HIST_CTRL n), 2, 2⟩
def LANE_HIST_CTRL_level (n : Nat) : Fd := ⟨(LANE_HIST_CTRL n), 4, 2⟩
def LANE_HIST_CTRL_bin_shift (n : Nat) : Fd := ⟨(LANE_HIST_CTRL n), 6, 4⟩
def LANE_HIST_CTRL_len (n : Nat) : Fd := ⟨(LANE_HIST_CTRL n), 12, 4⟩
def LANE_EYE_CTRL_thr (n j : Nat) : Fd := ⟨(LANE_EYE_CTRL n j), 0, 12⟩
def LANE_EYE_CNT_count (n j : Nat) : Fd := ⟨(LANE_EYE_CNT n j), 0, 32⟩
def LANE_HIST_BIN_count (n b : Nat) : Fd := ⟨(LANE_HIST_BIN n b), 0, 32⟩
def FRM_LANE_CTRL_up (n : Nat) : Fd := ⟨(FRM_LANE_CTRL n), 0, 1⟩
def FRM_LANE_CTRL_map (n : Nat) : Fd := ⟨(FRM_LANE_CTRL n), 1, 2⟩
def FRM_LANE_CTRL_mode (n : Nat) : Fd := ⟨(FRM_LANE_CTRL n), 3, 2⟩
def FRM_LANE_CTRL_outer (n : Nat) : Fd := ⟨(FRM_LANE_CTRL n), 5, 1⟩
def FRM_LANE_CTRL_hgrp (n : Nat) : Fd := ⟨(FRM_LANE_CTRL n), 8, 3⟩
def FRM_LANE_CTRL_skew_ref (n : Nat) : Fd := ⟨(FRM_LANE_CTRL n), 12, 3⟩
def FRM_LANE_STATUS_fstate (n : Nat) : Fd := ⟨(FRM_LANE_STATUS n), 0, 2⟩
def FRM_LANE_STATUS_pphase (n : Nat) : Fd := ⟨(FRM_LANE_STATUS n), 4, 3⟩
def FRM_LANE_STATUS_degraded (n : Nat) : Fd := ⟨(FRM_LANE_STATUS n), 7, 1⟩
def FRM_LANE_STATUS_tx_state (n : Nat) : Fd := ⟨(FRM_LANE_STATUS n), 8, 3⟩
def FRM_LANE_STATUS_gain (n : Nat) : Fd := ⟨(FRM_LANE_STATUS n), 16, 9⟩
def FRM_TX_CMD_op (n : Nat) : Fd := ⟨(FRM_TX_CMD n), 0, 2⟩
def FRM_TX_RESULT_outcome (n : Nat) : Fd := ⟨(FRM_TX_RESULT n), 0, 8⟩
def FRM_TX_RESULT_op (n : Nat) : Fd := ⟨(FRM_TX_RESULT n), 8, 2⟩
def FRM_TX_RESULT_reason (n : Nat) : Fd := ⟨(FRM_TX_RESULT n), 12, 2⟩
def FRM_SQ_CTRL_ramp_len (n : Nat) : Fd := ⟨(FRM_SQ_CTRL n), 0, 3⟩
def FRM_FEC_CTRL_era_en (n : Nat) : Fd := ⟨(FRM_FEC_CTRL n), 0, 1⟩
def FRM_FEC_CTRL_era_thr (n : Nat) : Fd := ⟨(FRM_FEC_CTRL n), 4, 4⟩
def FRM_FEC_CTRL_era_max (n : Nat) : Fd := ⟨(FRM_FEC_CTRL n), 8, 5⟩
def FRM_FEC_CTRL_tail_thr (n : Nat) : Fd := ⟨(FRM_FEC_CTRL n), 16, 4⟩
def FRM_FEC_CTRL_deg_thr (n : Nat) : Fd := ⟨(FRM_FEC_CTRL n), 24, 8⟩
def FRM_RX_ID_lane (n : Nat) : Fd := ⟨(FRM_RX_ID n), 0, 3⟩
def FRM_RX_ID_map (n : Nat) : Fd := ⟨(FRM_RX_ID n), 3, 2⟩
def FRM_RX_ID_outer (n : Nat) : Fd := ⟨(FRM_RX_ID n), 5, 1⟩
def FRM_RX_ID_rem_aligned (n : Nat) : Fd := ⟨(FRM_RX_ID n), 6, 1⟩
def FRM_RX_ID_rem_degraded (n : Nat) : Fd := ⟨(FRM_RX_ID n), 7, 1⟩
def FRM_RX_ID_addr (n : Nat) : Fd := ⟨(FRM_RX_ID n), 16, 12⟩
def FRM_RX_ID_valid (n : Nat) : Fd := ⟨(FRM_RX_ID n), 31, 1⟩
def FRM_SKEW_skew (n : Nat) : Fd := ⟨(FRM_SKEW n), 0, 24⟩
def FRM_SKEW_valid (n : Nat) : Fd := ⟨(FRM_SKEW n), 31, 1⟩
def FRM_CNT_CMD_snap (n : Nat) : Fd := ⟨(FRM_CNT_CMD n), 0, 1⟩
def FRM_EVT_aligned (n : Nat) : Fd := ⟨(FRM_EVT n), 0, 1⟩
def FRM_EVT_lost (n : Nat) : Fd := ⟨(FRM_EVT n), 1, 1⟩
def FRM_EVT_uncorr (n : Nat) : Fd := ⟨(FRM_EVT n), 2, 1⟩
def FRM_EVT_oh_crc (n : Nat) : Fd := ⟨(FRM_EVT n), 3, 1⟩
def FRM_EVT_tx_cmd (n : Nat) : Fd := ⟨(FRM_EVT n), 4, 1⟩
def FRM_EVT_ctr_slip (n : Nat) : Fd := ⟨(FRM_EVT n), 5, 1⟩
def FRM_EVT_tx_ramp (n : Nat) : Fd := ⟨(FRM_EVT n), 6, 1⟩
def FRM_EVT_degraded (n : Nat) : Fd := ⟨(FRM_EVT n), 7, 1⟩
def FRM_RAD_LOAD_TX_load (n : Nat) : Fd := ⟨(FRM_RAD_LOAD_TX n), 0, 21⟩
def FRM_RAD_LOAD_TX_count (n : Nat) : Fd := ⟨(FRM_RAD_LOAD_TX n), 24, 8⟩
def FRM_RAD_LOAD_RX_load (n : Nat) : Fd := ⟨(FRM_RAD_LOAD_RX n), 0, 21⟩
def FRM_RAD_LOAD_RX_count (n : Nat) : Fd := ⟨(FRM_RAD_LOAD_RX n), 24, 8⟩
def FRM_CNT_CORR_SYM_count (n : Nat) : Fd := ⟨(FRM_CNT_CORR_SYM n), 0, 32⟩
def FRM_CNT_CORR_CW_count (n : Nat) : Fd := ⟨(FRM_CNT_CORR_CW n), 0, 32⟩
def FRM_CNT_UNCORR_CW_count (n : Nat) : Fd := ⟨(FRM_CNT_UNCORR_CW n), 0, 32⟩
def FRM_CNT_ERASED_count (n : Nat) : Fd := ⟨(FRM_CNT_ERASED n), 0, 32⟩
def FRM_CNT_ERA_SAVED_count (n : Nat) : Fd := ⟨(FRM_CNT_ERA_SAVED n), 0, 32⟩
def FRM_CNT_TAIL_CW_count (n : Nat) : Fd := ⟨(FRM_CNT_TAIL_CW n), 0, 32⟩
def FRM_CNT_OH_CRC_count (n : Nat) : Fd := ⟨(FRM_CNT_OH_CRC n), 0, 32⟩
def FRM_CNT_FRAME_LOST_count (n : Nat) : Fd := ⟨(FRM_CNT_FRAME_LOST n), 0, 32⟩
def FRM_CNT_CTR_UNDER_count (n : Nat) : Fd := ⟨(FRM_CNT_CTR_UNDER n), 0, 32⟩
def FRM_CNT_CTR_OVER_count (n : Nat) : Fd := ⟨(FRM_CNT_CTR_OVER n), 0, 32⟩
def FRM_CNT_CTR_FMT_count (n : Nat) : Fd := ⟨(FRM_CNT_CTR_FMT n), 0, 32⟩
def FRM_TCTR_en (n c : Nat) : Fd := ⟨(FRM_TCTR n c), 0, 1⟩
def FRM_TCTR_rate (n c : Nat) : Fd := ⟨(FRM_TCTR n c), 1, 3⟩
def FRM_TCTR_fmt (n c : Nat) : Fd := ⟨(FRM_TCTR n c), 4, 2⟩
def FRM_RCTR_en (n c : Nat) : Fd := ⟨(FRM_RCTR n c), 0, 1⟩
def FRM_RCTR_rate (n c : Nat) : Fd := ⟨(FRM_RCTR n c), 1, 3⟩
def FRM_RCTR_fmt (n c : Nat) : Fd := ⟨(FRM_RCTR n c), 4, 2⟩
def FRM_RCTR_po_depth (n c : Nat) : Fd := ⟨(FRM_RCTR n c), 8, 4⟩
def HOST_CTRL_mode (n : Nat) : Fd := ⟨(HOST_CTRL n), 0, 3⟩
def HOST_CTRL_rx_en (n : Nat) : Fd := ⟨(HOST_CTRL n), 3, 1⟩
def HOST_CTRL_tx_en (n : Nat) : Fd := ⟨(HOST_CTRL n), 4, 1⟩
def HOST_CTRL_train_en (n : Nat) : Fd := ⟨(HOST_CTRL n), 5, 1⟩
def HOST_CTRL_c2c (n : Nat) : Fd := ⟨(HOST_CTRL n), 6, 1⟩
def HOST_CTRL_rx_inv (n : Nat) : Fd := ⟨(HOST_CTRL n), 7, 1⟩
def HOST_CTRL_tx_inv (n : Nat) : Fd := ⟨(HOST_CTRL n), 8, 1⟩
def HOST_CTRL_eq_freeze (n : Nat) : Fd := ⟨(HOST_CTRL n), 9, 1⟩
def HOST_CTRL_amp (n : Nat) : Fd := ⟨(HOST_CTRL n), 16, 7⟩
def HOST_STATUS_state (n : Nat) : Fd := ⟨(HOST_STATUS n), 0, 3⟩
def HOST_STATUS_ready (n : Nat) : Fd := ⟨(HOST_STATUS n), 3, 1⟩
def HOST_STATUS_lost_reason (n : Nat) : Fd := ⟨(HOST_STATUS n), 4, 3⟩
def HOST_STATUS_grp_aligned (n : Nat) : Fd := ⟨(HOST_STATUS n), 7, 1⟩
def HOST_STATUS_grp_skew (n : Nat) : Fd := ⟨(HOST_STATUS n), 8, 1⟩
def HOST_CMD_op (n : Nat) : Fd := ⟨(HOST_CMD n), 0, 3⟩
def HOST_RESULT_outcome (n : Nat) : Fd := ⟨(HOST_RESULT n), 0, 8⟩
def HOST_RESULT_op (n : Nat) : Fd := ⟨(HOST_RESULT n), 8, 3⟩
def HOST_RESULT_reason (n : Nat) : Fd := ⟨(HOST_RESULT n), 12, 1⟩
def HOST_EVT_ready (n : Nat) : Fd := ⟨(HOST_EVT n), 0, 1⟩
def HOST_EVT_lost (n : Nat) : Fd := ⟨(HOST_EVT n), 1, 1⟩
def HOST_EVT_train_done (n : Nat) : Fd := ⟨(HOST_EVT n), 2, 1⟩
def HOST_EVT_cmd_done (n : Nat) : Fd := ⟨(HOST_EVT n), 3, 1⟩
def HOST_EVT_pat_lock (n : Nat) : Fd := ⟨(HOST_EVT n), 4, 1⟩
def HOST_EVT_fec_uncorr (n : Nat) : Fd := ⟨(HOST_EVT n), 5, 1⟩
def HOST_EVT_sysref_err (n : Nat) : Fd := ⟨(HOST_EVT n), 6, 1⟩
def HOST_EVT_late (n : Nat) : Fd := ⟨(HOST_EVT n), 7, 1⟩
def HOST_TRAIN_REQ_control (n : Nat) : Fd := ⟨(HOST_TRAIN_REQ n), 0, 16⟩
def HOST_TRAIN_REQ_resp (n : Nat) : Fd := ⟨(HOST_TRAIN_REQ n), 16, 3⟩
def HOST_TX_FIR_value (n k : Nat) : Fd := ⟨(HOST_TX_FIR n k), 0, 7⟩
def HOST_TX_FIR_active (n k : Nat) : Fd := ⟨(HOST_TX_FIR n k), 16, 7⟩
def HOST_RX_EQ_ctle (n : Nat) : Fd := ⟨(HOST_RX_EQ n), 0, 3⟩
def HOST_RX_EQ_snr (n : Nat) : Fd := ⟨(HOST_RX_EQ n), 8, 8⟩
def HOST_RX_EQ_adapting (n : Nat) : Fd := ⟨(HOST_RX_EQ n), 16, 1⟩
def HOST_PAT_CTRL_gen_pat (n : Nat) : Fd := ⟨(HOST_PAT_CTRL n), 0, 4⟩
def HOST_PAT_CTRL_chk_pat (n : Nat) : Fd := ⟨(HOST_PAT_CTRL n), 4, 4⟩
def HOST_PAT_CTRL_gen_en (n : Nat) : Fd := ⟨(HOST_PAT_CTRL n), 8, 1⟩
def HOST_PAT_CTRL_chk_en (n : Nat) : Fd := ⟨(HOST_PAT_CTRL n), 9, 1⟩
def HOST_PAT_CTRL_inject (n : Nat) : Fd := ⟨(HOST_PAT_CTRL n), 10, 1⟩
def HOST_PAT_CTRL_snap (n : Nat) : Fd := ⟨(HOST_PAT_CTRL n), 11, 1⟩
def HOST_PAT_CTRL_locked (n : Nat) : Fd := ⟨(HOST_PAT_CTRL n), 12, 1⟩
def HOST_PAT_USER_L_bits (n : Nat) : Fd := ⟨(HOST_PAT_USER_L n), 0, 32⟩
def HOST_PAT_USER_H_bits (n : Nat) : Fd := ⟨(HOST_PAT_USER_H n), 0, 32⟩
def HOST_PAT_ERR_errors (n : Nat) : Fd := ⟨(HOST_PAT_ERR n), 0, 24⟩
def HOST_PAT_ERR_unlocks (n : Nat) : Fd := ⟨(HOST_PAT_ERR n), 24, 8⟩
def HOST_PAT_BITS_L_bits (n : Nat) : Fd := ⟨(HOST_PAT_BITS_L n), 0, 32⟩
def HOST_PAT_BITS_H_bits (n : Nat) : Fd := ⟨(HOST_PAT_BITS_H n), 0, 32⟩
def HOST_FEC_CMD_snap (n : Nat) : Fd := ⟨(HOST_FEC_CMD n), 0, 1⟩
def HOST_FEC_CW_count (n : Nat) : Fd := ⟨(HOST_FEC_CW n), 0, 32⟩
def HOST_FEC_SYM_count (n : Nat) : Fd := ⟨(HOST_FEC_SYM n), 0, 32⟩
def HOST_FEC_UNC_count (n : Nat) : Fd := ⟨(HOST_FEC_UNC n), 0, 32⟩
def HOST_FEC_BIN_count (n k : Nat) : Fd := ⟨(HOST_FEC_BIN n k), 0, 32⟩
def HOST_JESD_RX_CFG_l_log (n : Nat) : Fd := ⟨(HOST_JESD_RX_CFG n), 0, 2⟩
def HOST_JESD_RX_CFG_m (n : Nat) : Fd := ⟨(HOST_JESD_RX_CFG n), 2, 6⟩
def HOST_JESD_RX_CFG_s_log (n : Nat) : Fd := ⟨(HOST_JESD_RX_CFG n), 8, 2⟩
def HOST_JESD_RX_CFG_rate (n : Nat) : Fd := ⟨(HOST_JESD_RX_CFG n), 10, 3⟩
def HOST_JESD_RX_CFG_e (n : Nat) : Fd := ⟨(HOST_JESD_RX_CFG n), 13, 5⟩
def HOST_JESD_TX_CFG_l_log (n : Nat) : Fd := ⟨(HOST_JESD_TX_CFG n), 0, 2⟩
def HOST_JESD_TX_CFG_m (n : Nat) : Fd := ⟨(HOST_JESD_TX_CFG n), 2, 6⟩
def HOST_JESD_TX_CFG_s_log (n : Nat) : Fd := ⟨(HOST_JESD_TX_CFG n), 8, 2⟩
def HOST_JESD_TX_CFG_rate (n : Nat) : Fd := ⟨(HOST_JESD_TX_CFG n), 10, 3⟩
def HOST_JESD_TX_CFG_e (n : Nat) : Fd := ⟨(HOST_JESD_TX_CFG n), 13, 5⟩
def HOST_JESD_DL_rbd (n : Nat) : Fd := ⟨(HOST_JESD_DL n), 0, 13⟩
def HOST_JESD_DL_occ (n : Nat) : Fd := ⟨(HOST_JESD_DL n), 16, 13⟩
def HOST_JESD_SYS_sysref_mode (n : Nat) : Fd := ⟨(HOST_JESD_SYS n), 0, 2⟩
def HOST_JESD_SYS_arm (n : Nat) : Fd := ⟨(HOST_JESD_SYS n), 2, 1⟩
def HOST_JESD_SYS_tol (n : Nat) : Fd := ⟨(HOST_JESD_SYS n), 8, 8⟩
def HOST_JESD_STAT_sh_lock (n : Nat) : Fd := ⟨(HOST_JESD_STAT n), 0, 1⟩
def HOST_JESD_STAT_emb_lock (n : Nat) : Fd := ⟨(HOST_JESD_STAT n), 1, 1⟩
def HOST_JESD_STAT_late (n : Nat) : Fd := ⟨(HOST_JESD_STAT n), 2, 1⟩
def HOST_JESD_STAT_sysref_seen (n : Nat) : Fd := ⟨(HOST_JESD_STAT n), 3, 1⟩
def HOST_JESD_STAT_phase_err (n : Nat) : Fd := ⟨(HOST_JESD_STAT n), 8, 8⟩
def HOST_JESD_STAT_crc_err (n : Nat) : Fd := ⟨(HOST_JESD_STAT n), 16, 16⟩
def BND_EVT_sync_edge : Fd := ⟨BND_EVT, 0, 1⟩
def BND_EVT_sync_stuck : Fd := ⟨BND_EVT, 1, 1⟩
def BND_EVT_sync_done : Fd := ⟨BND_EVT, 2, 1⟩
def BND_EVT_adm : Fd := ⟨BND_EVT, 3, 1⟩
def BND_EVT_evict : Fd := ⟨BND_EVT, 4, 1⟩
def BND_EVT_xfade : Fd := ⟨BND_EVT, 5, 1⟩
def BND_EVT_meas : Fd := ⟨BND_EVT, 6, 1⟩
def BND_EVT_sat : Fd := ⟨BND_EVT, 7, 1⟩
def BND_EVT_bfp : Fd := ⟨BND_EVT, 8, 1⟩
def BND_SYNC_CTRL_mode : Fd := ⟨BND_SYNC_CTRL, 0, 2⟩
def BND_SYNC_CTRL_arm : Fd := ⟨BND_SYNC_CTRL, 2, 1⟩
def BND_SYNC_CTRL_stuck_ms : Fd := ⟨BND_SYNC_CTRL, 8, 8⟩
def BND_SYNC_CTRL_ev_gap : Fd := ⟨BND_SYNC_CTRL, 16, 8⟩
def BND_SYNC_STAT_edges : Fd := ⟨BND_SYNC_STAT, 0, 16⟩
def BND_SYNC_STAT_glitches : Fd := ⟨BND_SYNC_STAT, 16, 8⟩
def BND_SYNC_STAT_stuck : Fd := ⟨BND_SYNC_STAT, 24, 8⟩
def BND_SYNC_TIME_time : Fd := ⟨BND_SYNC_TIME, 0, 32⟩
def BND_SYNC_CMD_at : Fd := ⟨BND_SYNC_CMD, 0, 32⟩
def BND_SYNC_RESULT_outcome : Fd := ⟨BND_SYNC_RESULT, 0, 8⟩
def BND_BFP_ERR_count : Fd := ⟨BND_BFP_ERR, 0, 32⟩
def BND_TIME_L_time : Fd := ⟨BND_TIME_L, 0, 32⟩
def BND_TIME_H_time : Fd := ⟨BND_TIME_H, 0, 32⟩
def BND_ADM_RES_res (d : Nat) : Fd := ⟨(BND_ADM_RES d), 0, 32⟩
def BND_ADM_STAT_held (d : Nat) : Fd := ⟨(BND_ADM_STAT d), 0, 10⟩
def BND_ADM_STAT_queued (d : Nat) : Fd := ⟨(BND_ADM_STAT d), 16, 7⟩
def BND_ADM_STAT_throttled (d : Nat) : Fd := ⟨(BND_ADM_STAT d), 24, 1⟩
def BND_ADM_THR_thr_dl : Fd := ⟨BND_ADM_THR, 0, 10⟩
def BND_ADM_THR_thr_ul : Fd := ⟨BND_ADM_THR, 16, 10⟩
def BND_MEAS_CTRL_run : Fd := ⟨BND_MEAS_CTRL, 0, 1⟩
def BND_MEAS_CTRL_busy : Fd := ⟨BND_MEAS_CTRL, 1, 1⟩
def BND_MEAS_CTRL_len : Fd := ⟨BND_MEAS_CTRL, 4, 4⟩
def BND_MEAS_CTRL_outcome : Fd := ⟨BND_MEAS_CTRL, 8, 8⟩
def BND_MEAS_CTRL_ch_en : Fd := ⟨BND_MEAS_CTRL, 16, 16⟩
def BND_MEAS_T0_time : Fd := ⟨BND_MEAS_T0, 0, 32⟩
def BND_MEAS_SRC_path (c : Nat) : Fd := ⟨(BND_MEAS_SRC c), 0, 7⟩
def BND_MEAS_SRC_point (c : Nat) : Fd := ⟨(BND_MEAS_SRC c), 8, 2⟩
def BND_MEAS_FW_fw (c : Nat) : Fd := ⟨(BND_MEAS_FW c), 0, 32⟩
def BND_MEAS_RE_value (c : Nat) : Fd := ⟨(BND_MEAS_RE c), 0, 32⟩
def BND_MEAS_IM_value (c : Nat) : Fd := ⟨(BND_MEAS_IM c), 0, 32⟩
def BND_PIN_en (p : Nat) : Fd := ⟨(BND_PIN p), 0, 1⟩
def BND_PIN_kind (p : Nat) : Fd := ⟨(BND_PIN p), 1, 2⟩
def BND_PIN_rate (p : Nat) : Fd := ⟨(BND_PIN p), 3, 3⟩
def BND_PIN_fmt (p : Nat) : Fd := ⟨(BND_PIN p), 6, 2⟩
def BND_PIN_lane (p : Nat) : Fd := ⟨(BND_PIN p), 8, 3⟩
def BND_PIN_idx (p : Nat) : Fd := ⟨(BND_PIN p), 11, 7⟩
def BND_PIN_tenant (p : Nat) : Fd := ⟨(BND_PIN p), 18, 4⟩
def BND_PIN2_ts_trim (p : Nat) : Fd := ⟨(BND_PIN2 p), 0, 16⟩
def BND_POUT_en (p : Nat) : Fd := ⟨(BND_POUT p), 0, 1⟩
def BND_POUT_kind (p : Nat) : Fd := ⟨(BND_POUT p), 1, 2⟩
def BND_POUT_rate (p : Nat) : Fd := ⟨(BND_POUT p), 3, 3⟩
def BND_POUT_fmt (p : Nat) : Fd := ⟨(BND_POUT p), 6, 2⟩
def BND_POUT_lane (p : Nat) : Fd := ⟨(BND_POUT p), 8, 3⟩
def BND_POUT_idx (p : Nat) : Fd := ⟨(BND_POUT p), 11, 7⟩
def BND_POUT_tenant (p : Nat) : Fd := ⟨(BND_POUT p), 18, 4⟩
def BND_POUT_src (p : Nat) : Fd := ⟨(BND_POUT p), 22, 2⟩
def BND_POUT2_src_port (p : Nat) : Fd := ⟨(BND_POUT2 p), 0, 10⟩
def BND_PATH_CFG_rate_in (k : Nat) : Fd := ⟨(BND_PATH_CFG k), 0, 3⟩
def BND_PATH_CFG_hb (k : Nat) : Fd := ⟨(BND_PATH_CFG k), 3, 3⟩
def BND_PATH_CFG_hb_dir (k : Nat) : Fd := ⟨(BND_PATH_CFG k), 6, 1⟩
def BND_PATH_CFG_sync_en (k : Nat) : Fd := ⟨(BND_PATH_CFG k), 7, 1⟩
def BND_PATH_CFG_nco_sync (k : Nat) : Fd := ⟨(BND_PATH_CFG k), 8, 1⟩
def BND_PATH_CFG_class (k : Nat) : Fd := ⟨(BND_PATH_CFG k), 10, 2⟩
def BND_PATH_CFG_in_port (k : Nat) : Fd := ⟨(BND_PATH_CFG k), 16, 10⟩
def BND_PATH_CFG2_out_port (k : Nat) : Fd := ⟨(BND_PATH_CFG2 k), 0, 10⟩
def BND_PATH_CMD_op (k : Nat) : Fd := ⟨(BND_PATH_CMD k), 0, 2⟩
def BND_PATH_STAT_state (k : Nat) : Fd := ⟨(BND_PATH_STAT k), 0, 2⟩
def BND_PATH_STAT_outcome (k : Nat) : Fd := ⟨(BND_PATH_STAT k), 8, 8⟩
def BND_PATH_STAT_reason (k : Nat) : Fd := ⟨(BND_PATH_STAT k), 16, 3⟩
def BND_PATH_STAT_load (k : Nat) : Fd := ⟨(BND_PATH_STAT k), 24, 6⟩
def BND_PATH_STAT_evicted (k : Nat) : Fd := ⟨(BND_PATH_STAT k), 30, 1⟩
def BND_PATH_NCO_fw (k : Nat) : Fd := ⟨(BND_PATH_NCO k), 0, 32⟩
def BND_PATH_PH0_phase0 (k : Nat) : Fd := ⟨(BND_PATH_PH0 k), 0, 16⟩
def BND_PATH_IQB_beta (k : Nat) : Fd := ⟨(BND_PATH_IQB k), 0, 32⟩
def BND_PATH_DC_delta (k : Nat) : Fd := ⟨(BND_PATH_DC k), 0, 32⟩
def BND_PATH_GAIN_gain (k : Nat) : Fd := ⟨(BND_PATH_GAIN k), 0, 20⟩
def BND_PATH_DELAY_delay (k : Nat) : Fd := ⟨(BND_PATH_DELAY k), 0, 16⟩
def BND_PATH_DELAY_changing (k : Nat) : Fd := ⟨(BND_PATH_DELAY k), 16, 1⟩
def BND_PATH_CF_n_taps (k : Nat) : Fd := ⟨(BND_PATH_CF k), 0, 8⟩
def BND_PATH_CF_mode (k : Nat) : Fd := ⟨(BND_PATH_CF k), 8, 1⟩
def BND_PATH_CF_fade_len (k : Nat) : Fd := ⟨(BND_PATH_CF k), 9, 4⟩
def BND_PATH_CF_commit (k : Nat) : Fd := ⟨(BND_PATH_CF k), 13, 1⟩
def BND_PATH_CF_bank (k : Nat) : Fd := ⟨(BND_PATH_CF k), 14, 1⟩
def BND_PATH_CF_fading (k : Nat) : Fd := ⟨(BND_PATH_CF k), 15, 1⟩
def BND_PATH_CF_outcome (k : Nat) : Fd := ⟨(BND_PATH_CF k), 16, 8⟩
def BND_PATH_CF_peak (k : Nat) : Fd := ⟨(BND_PATH_CF k), 24, 8⟩
def BND_PATH_CXCMD_swap (k : Nat) : Fd := ⟨(BND_PATH_CXCMD k), 0, 1⟩
def BND_PATH_CXCMD_outcome (k : Nat) : Fd := ⟨(BND_PATH_CXCMD k), 8, 8⟩
def BND_PATH_SAT_count (k : Nat) : Fd := ⟨(BND_PATH_SAT k), 0, 32⟩
def BND_PATH_CXL_delay (k c : Nat) : Fd := ⟨(BND_PATH_CXL k c), 0, 12⟩
def BND_PATH_CXL_en (k c : Nat) : Fd := ⟨(BND_PATH_CXL k c), 12, 1⟩
def BND_PATH_CXL_act_delay (k c : Nat) : Fd := ⟨(BND_PATH_CXL k c), 16, 12⟩
def BND_PATH_CXL_act_en (k c : Nat) : Fd := ⟨(BND_PATH_CXL k c), 28, 1⟩
def BND_PATH_MTR_CTRL_win (k : Nat) : Fd := ⟨(BND_PATH_MTR_CTRL k), 0, 5⟩
def BND_PATH_MTR_IN_level (k : Nat) : Fd := ⟨(BND_PATH_MTR_IN k), 0, 16⟩
def BND_PATH_MTR_IN_peak (k : Nat) : Fd := ⟨(BND_PATH_MTR_IN k), 16, 16⟩
def BND_PATH_MTR_RES_level (k : Nat) : Fd := ⟨(BND_PATH_MTR_RES k), 0, 16⟩
def BND_PATH_MTR_RES_peak (k : Nat) : Fd := ⟨(BND_PATH_MTR_RES k), 16, 16⟩
def BND_PATH_MTR_OUT_level (k : Nat) : Fd := ⟨(BND_PATH_MTR_OUT k), 0, 16⟩
def BND_PATH_MTR_OUT_peak (k : Nat) : Fd := ⟨(BND_PATH_MTR_OUT k), 16, 16⟩
def BND_PATH_CFC_coef (k j : Nat) : Fd := ⟨(BND_PATH_CFC k j), 0, 18⟩
def BND_PATH_CXT_tap (k j : Nat) : Fd := ⟨(BND_PATH_CXT k j), 0, 32⟩
def BND_PATH_CXA_tap (k j : Nat) : Fd := ⟨(BND_PATH_CXA k j), 0, 32⟩
def RPT_EVT_state : Fd := ⟨RPT_EVT, 0, 1⟩
def RPT_EVT_cmd : Fd := ⟨RPT_EVT, 1, 1⟩
def RPT_EVT_osc : Fd := ⟨RPT_EVT, 2, 1⟩
def RPT_EVT_ceil : Fd := ⟨RPT_EVT, 3, 1⟩
def RPT_EVT_noise : Fd := ⟨RPT_EVT, 4, 1⟩
def RPT_EVT_donor : Fd := ⟨RPT_EVT, 5, 1⟩
def RPT_EVT_mute_n : Fd := ⟨RPT_EVT, 6, 1⟩
def RPT_EVT_stuck : Fd := ⟨RPT_EVT, 7, 1⟩
def RPT_EVT_fault : Fd := ⟨RPT_EVT, 8, 1⟩
def RPT_CHG_chg (j : Nat) : Fd := ⟨(RPT_CHG j), 0, 32⟩
def RPT_MUTE_CTRL_fast : Fd := ⟨RPT_MUTE_CTRL, 0, 1⟩
def RPT_MUTE_CTRL_rearm : Fd := ⟨RPT_MUTE_CTRL, 1, 1⟩
def RPT_MUTE_CTRL_rearm_donor : Fd := ⟨RPT_MUTE_CTRL, 2, 1⟩
def RPT_MUTE_CTRL_asserted : Fd := ⟨RPT_MUTE_CTRL, 3, 1⟩
def RPT_MUTE_CTRL_stuck_s : Fd := ⟨RPT_MUTE_CTRL, 8, 8⟩
def RPT_MUTE_CTRL_ev_gap : Fd := ⟨RPT_MUTE_CTRL, 16, 8⟩
def RPT_MUTE_CNT_asserts : Fd := ⟨RPT_MUTE_CNT, 0, 16⟩
def RPT_MUTE_CNT_glitches : Fd := ⟨RPT_MUTE_CNT, 16, 8⟩
def RPT_MUTE_CNT_stuck : Fd := ⟨RPT_MUTE_CNT, 24, 8⟩
def RPT_CEIL_ceil_attic : Fd := ⟨RPT_CEIL, 0, 16⟩
def RPT_CEIL_ceil : Fd := ⟨RPT_CEIL, 16, 16⟩
def RPT_GRD_CTRL_ceil_hold : Fd := ⟨RPT_GRD_CTRL, 0, 16⟩
def RPT_GRD_CTRL_osc_max : Fd := ⟨RPT_GRD_CTRL, 16, 4⟩
def RPT_GRD_CTRL_osc_hold : Fd := ⟨RPT_GRD_CTRL, 24, 8⟩
def RPT_DONOR_STAT_present : Fd := ⟨RPT_DONOR_STAT, 0, 16⟩
def RPT_PATH_CFG_ctl_core (k : Nat) : Fd := ⟨(RPT_PATH_CFG k), 0, 2⟩
def RPT_PATH_CFG_duplex (k : Nat) : Fd := ⟨(RPT_PATH_CFG k), 2, 1⟩
def RPT_PATH_CFG_seq (k : Nat) : Fd := ⟨(RPT_PATH_CFG k), 3, 2⟩
def RPT_PATH_CFG_donor (k : Nat) : Fd := ⟨(RPT_PATH_CFG k), 8, 4⟩
def RPT_PATH_CFG_mute_n_en (k : Nat) : Fd := ⟨(RPT_PATH_CFG k), 12, 1⟩
def RPT_PATH_CFG_donor_en (k : Nat) : Fd := ⟨(RPT_PATH_CFG k), 13, 1⟩
def RPT_PATH_CFG_nr_en (k : Nat) : Fd := ⟨(RPT_PATH_CFG k), 14, 1⟩
def RPT_PATH_CMD_op (k : Nat) : Fd := ⟨(RPT_PATH_CMD k), 0, 3⟩
def RPT_PATH_STAT_state (k : Nat) : Fd := ⟨(RPT_PATH_STAT k), 0, 3⟩
def RPT_PATH_STAT_arm_pend (k : Nat) : Fd := ⟨(RPT_PATH_STAT k), 3, 1⟩
def RPT_PATH_STAT_reason (k : Nat) : Fd := ⟨(RPT_PATH_STAT k), 4, 3⟩
def RPT_PATH_STAT_outcome (k : Nat) : Fd := ⟨(RPT_PATH_STAT k), 8, 8⟩
def RPT_PATH_STAT_causes (k : Nat) : Fd := ⟨(RPT_PATH_STAT k), 16, 8⟩
def RPT_PATH_STAT_reds (k : Nat) : Fd := ⟨(RPT_PATH_STAT k), 24, 4⟩
def RPT_PATH_STAT_osc_trips (k : Nat) : Fd := ⟨(RPT_PATH_STAT k), 28, 4⟩
def RPT_PATH_LIM_margin (k : Nat) : Fd := ⟨(RPT_PATH_LIM k), 0, 10⟩
def RPT_PATH_LIM_rf_ofs (k : Nat) : Fd := ⟨(RPT_PATH_LIM k), 16, 16⟩
def RPT_PATH_ISO_iso (k : Nat) : Fd := ⟨(RPT_PATH_ISO k), 0, 12⟩
def RPT_PATH_ISO_credit (k : Nat) : Fd := ⟨(RPT_PATH_ISO k), 16, 10⟩
def RPT_PATH_ISO_conv (k : Nat) : Fd := ⟨(RPT_PATH_ISO k), 31, 1⟩
def RPT_PATH_APP_iso_app (k : Nat) : Fd := ⟨(RPT_PATH_APP k), 0, 12⟩
def RPT_PATH_APP_credit_app (k : Nat) : Fd := ⟨(RPT_PATH_APP k), 16, 9⟩
def RPT_PATH_ATT_A_lim (k : Nat) : Fd := ⟨(RPT_PATH_ATT_A k), 0, 10⟩
def RPT_PATH_ATT_A_nr (k : Nat) : Fd := ⟨(RPT_PATH_ATT_A k), 16, 10⟩
def RPT_PATH_ATT_B_cl (k : Nat) : Fd := ⟨(RPT_PATH_ATT_B k), 0, 10⟩
def RPT_PATH_ATT_B_total (k : Nat) : Fd := ⟨(RPT_PATH_ATT_B k), 16, 10⟩
def RPT_PATH_RAMP_up_rate (k : Nat) : Fd := ⟨(RPT_PATH_RAMP k), 0, 6⟩
def RPT_PATH_RAMP_dn_rate (k : Nat) : Fd := ⟨(RPT_PATH_RAMP k), 8, 8⟩
def RPT_PATH_OSC_win (k : Nat) : Fd := ⟨(RPT_PATH_OSC k), 0, 4⟩
def RPT_PATH_OSC_n (k : Nat) : Fd := ⟨(RPT_PATH_OSC k), 4, 3⟩
def RPT_PATH_OSC_rise (k : Nat) : Fd := ⟨(RPT_PATH_OSC k), 8, 5⟩
def RPT_PATH_OSC_res_lim (k : Nat) : Fd := ⟨(RPT_PATH_OSC k), 16, 4⟩
def RPT_PATH_NR_limit (k : Nat) : Fd := ⟨(RPT_PATH_NR k), 0, 8⟩
def RPT_PATH_NR_nr_step (k : Nat) : Fd := ⟨(RPT_PATH_NR k), 8, 4⟩
def RPT_PATH_NR_nr_max (k : Nat) : Fd := ⟨(RPT_PATH_NR k), 12, 6⟩
def RPT_PATH_NR_nr_len (k : Nat) : Fd := ⟨(RPT_PATH_NR k), 20, 4⟩
def RPT_PATH_NR_relax (k : Nat) : Fd := ⟨(RPT_PATH_NR k), 24, 8⟩
def RPT_PATH_NRC_fs_dbm (k : Nat) : Fd := ⟨(RPT_PATH_NRC k), 0, 16⟩
def RPT_PATH_NRC_cpl_loss (k : Nat) : Fd := ⟨(RPT_PATH_NRC k), 16, 16⟩
def RPT_PATH_NRS_rise (k : Nat) : Fd := ⟨(RPT_PATH_NRS k), 0, 12⟩
def RPT_PATH_NRS_floor_valid (k : Nat) : Fd := ⟨(RPT_PATH_NRS k), 15, 1⟩
def RPT_PATH_NRS_floor (k : Nat) : Fd := ⟨(RPT_PATH_NRS k), 16, 16⟩
def RPT_PATH_LD_hold (k : Nat) : Fd := ⟨(RPT_PATH_LD k), 0, 8⟩
def RPT_PATH_LD_ld_red (k : Nat) : Fd := ⟨(RPT_PATH_LD k), 8, 6⟩
def LST_EVT_rx_done_0 : Fd := ⟨LST_EVT, 0, 1⟩
def LST_EVT_rx_abort_0 : Fd := ⟨LST_EVT, 1, 1⟩
def LST_EVT_pbch_0 : Fd := ⟨LST_EVT, 2, 1⟩
def LST_EVT_cmd_0 : Fd := ⟨LST_EVT, 3, 1⟩
def LST_EVT_tim_jump_0 : Fd := ⟨LST_EVT, 4, 1⟩
def LST_EVT_tim_stale_0 : Fd := ⟨LST_EVT, 5, 1⟩
def LST_EVT_rx_done_1 : Fd := ⟨LST_EVT, 8, 1⟩
def LST_EVT_rx_abort_1 : Fd := ⟨LST_EVT, 9, 1⟩
def LST_EVT_pbch_1 : Fd := ⟨LST_EVT, 10, 1⟩
def LST_EVT_cmd_1 : Fd := ⟨LST_EVT, 11, 1⟩
def LST_EVT_tim_jump_1 : Fd := ⟨LST_EVT, 12, 1⟩
def LST_EVT_tim_stale_1 : Fd := ⟨LST_EVT, 13, 1⟩
def LST_EVT_donor_chg : Fd := ⟨LST_EVT, 16, 1⟩
def LST_EVT_nf_chg : Fd := ⟨LST_EVT, 17, 1⟩
def LST_CTRL_pres_age : Fd := ⟨LST_CTRL, 0, 8⟩
def LST_CTRL_nf_age : Fd := ⟨LST_CTRL, 8, 16⟩
def LST_ALLOW_pci (i : Nat) : Fd := ⟨(LST_ALLOW i), 0, 10⟩
def LST_ALLOW_rat (i : Nat) : Fd := ⟨(LST_ALLOW i), 10, 1⟩
def LST_ALLOW_group (i : Nat) : Fd := ⟨(LST_ALLOW i), 12, 4⟩
def LST_ALLOW_en (i : Nat) : Fd := ⟨(LST_ALLOW i), 16, 1⟩
def LST_ALLOW_present (i : Nat) : Fd := ⟨(LST_ALLOW i), 17, 1⟩
def LST_NF_CFG_port (g : Nat) : Fd := ⟨(LST_NF_CFG g), 0, 10⟩
def LST_NF_CFG_en (g : Nat) : Fd := ⟨(LST_NF_CFG g), 10, 1⟩
def LST_NF_CFG_mode (g : Nat) : Fd := ⟨(LST_NF_CFG g), 11, 1⟩
def LST_NF_CFG_tch (g : Nat) : Fd := ⟨(LST_NF_CFG g), 12, 1⟩
def LST_NF_CFG_nf_len (g : Nat) : Fd := ⟨(LST_NF_CFG g), 16, 4⟩
def LST_NF_CFG2_fs_dbm (g : Nat) : Fd := ⟨(LST_NF_CFG2 g), 0, 16⟩
def LST_NF_floor (g : Nat) : Fd := ⟨(LST_NF g), 0, 16⟩
def LST_NF_valid (g : Nat) : Fd := ⟨(LST_NF g), 16, 1⟩
def LST_NF_pubs (g : Nat) : Fd := ⟨(LST_NF g), 24, 8⟩
def LST_CH_CTRL_rat (ch : Nat) : Fd := ⟨(LST_CH_CTRL ch), 0, 2⟩
def LST_CH_CTRL_cap_en (ch : Nat) : Fd := ⟨(LST_CH_CTRL ch), 2, 1⟩
def LST_CH_CTRL_pbch_en (ch : Nat) : Fd := ⟨(LST_CH_CTRL ch), 3, 1⟩
def LST_CH_CTRL_ecp (ch : Nat) : Fd := ⟨(LST_CH_CTRL ch), 4, 1⟩
def LST_CH_CTRL_tdd (ch : Nat) : Fd := ⟨(LST_CH_CTRL ch), 5, 1⟩
def LST_CH_CTRL_group (ch : Nat) : Fd := ⟨(LST_CH_CTRL ch), 8, 4⟩
def LST_CH_CTRL_tim_pci (ch : Nat) : Fd := ⟨(LST_CH_CTRL ch), 16, 10⟩
def LST_CH_CTRL_tim_en (ch : Nat) : Fd := ⟨(LST_CH_CTRL ch), 26, 1⟩
def LST_CH_SRC_port (ch : Nat) : Fd := ⟨(LST_CH_SRC ch), 0, 10⟩
def LST_CH_NCO_fw (ch : Nat) : Fd := ⟨(LST_CH_NCO ch), 0, 32⟩
def LST_CH_THR_det_thr (ch : Nat) : Fd := ⟨(LST_CH_THR ch), 0, 8⟩
def LST_CH_THR_cfm_thr (ch : Nat) : Fd := ⟨(LST_CH_THR ch), 8, 8⟩
def LST_CH_THR_agc_tgt (ch : Nat) : Fd := ⟨(LST_CH_THR ch), 16, 6⟩
def LST_CH_THR_tim_tol (ch : Nat) : Fd := ⟨(LST_CH_THR ch), 24, 8⟩
def LST_CH_CAL_fs_dbm (ch : Nat) : Fd := ⟨(LST_CH_CAL ch), 0, 16⟩
def LST_CH_CAL_tim_age (ch : Nat) : Fd := ⟨(LST_CH_CAL ch), 16, 16⟩
def LST_CH_CMD_op (ch : Nat) : Fd := ⟨(LST_CH_CMD ch), 0, 2⟩
def LST_CH_STAT_state (ch : Nat) : Fd := ⟨(LST_CH_STAT ch), 0, 2⟩
def LST_CH_STAT_frozen (ch : Nat) : Fd := ⟨(LST_CH_STAT ch), 2, 1⟩
def LST_CH_STAT_cand (ch : Nat) : Fd := ⟨(LST_CH_STAT ch), 3, 1⟩
def LST_CH_STAT_tim_stale (ch : Nat) : Fd := ⟨(LST_CH_STAT ch), 4, 1⟩
def LST_CH_STAT_off_reason (ch : Nat) : Fd := ⟨(LST_CH_STAT ch), 5, 1⟩
def LST_CH_STAT_outcome (ch : Nat) : Fd := ⟨(LST_CH_STAT ch), 8, 8⟩
def LST_CH_STAT_gain (ch : Nat) : Fd := ⟨(LST_CH_STAT ch), 16, 10⟩
def LST_RX_STAT_outcome (ch : Nat) : Fd := ⟨(LST_RX_STAT ch), 0, 8⟩
def LST_RX_STAT_reason (ch : Nat) : Fd := ⟨(LST_RX_STAT ch), 8, 3⟩
def LST_RX_STAT_mib_valid (ch : Nat) : Fd := ⟨(LST_RX_STAT ch), 11, 1⟩
def LST_RX_CELL_pci (ch : Nat) : Fd := ⟨(LST_RX_CELL ch), 0, 10⟩
def LST_RX_CELL_sf5 (ch : Nat) : Fd := ⟨(LST_RX_CELL ch), 10, 1⟩
def LST_RX_CELL_q (ch : Nat) : Fd := ⟨(LST_RX_CELL ch), 16, 16⟩
def LST_RX_TIME_L_time (ch : Nat) : Fd := ⟨(LST_RX_TIME_L ch), 0, 32⟩
def LST_RX_TIME_H_time (ch : Nat) : Fd := ⟨(LST_RX_TIME_H ch), 0, 32⟩
def LST_RX_PWR_p_sync (ch : Nat) : Fd := ⟨(LST_RX_PWR ch), 0, 16⟩
def LST_RX_PWR_m (ch : Nat) : Fd := ⟨(LST_RX_PWR ch), 16, 16⟩
def LST_MIB_mib (ch : Nat) : Fd := ⟨(LST_MIB ch), 0, 24⟩
def LST_MIB_ports (ch : Nat) : Fd := ⟨(LST_MIB ch), 24, 2⟩
def LST_MIB_fofs (ch : Nat) : Fd := ⟨(LST_MIB ch), 26, 2⟩
def LST_FRAME_L_time (ch : Nat) : Fd := ⟨(LST_FRAME_L ch), 0, 32⟩
def LST_FRAME_H_time (ch : Nat) : Fd := ⟨(LST_FRAME_H ch), 0, 32⟩
def LST_FRAME_OFS_ofs (ch : Nat) : Fd := ⟨(LST_FRAME_OFS ch), 0, 32⟩
def LST_TDD_A_slots (ch : Nat) : Fd := ⟨(LST_TDD_A ch), 0, 32⟩
def LST_TDD_B_slots_hi (ch : Nat) : Fd := ⟨(LST_TDD_B ch), 0, 8⟩
def LST_TDD_B_n_slots (ch : Nat) : Fd := ⟨(LST_TDD_B ch), 8, 5⟩
def LST_TDD_B_slot_len (ch : Nat) : Fd := ⟨(LST_TDD_B ch), 13, 1⟩
def LST_TDD_B_dl_sym (ch : Nat) : Fd := ⟨(LST_TDD_B ch), 16, 4⟩
def LST_TDD_B_gp_sym (ch : Nat) : Fd := ⟨(LST_TDD_B ch), 20, 4⟩
def LST_TDD_B_valid (ch : Nat) : Fd := ⟨(LST_TDD_B ch), 24, 1⟩
def LST_CH_CNT_captures (ch : Nat) : Fd := ⟨(LST_CH_CNT ch), 0, 8⟩
def LST_CH_CNT_falses (ch : Nat) : Fd := ⟨(LST_CH_CNT ch), 8, 8⟩
def LST_CH_CNT_cap_ign (ch : Nat) : Fd := ⟨(LST_CH_CNT ch), 16, 8⟩
def LST_CH_CNT_supersedes (ch : Nat) : Fd := ⟨(LST_CH_CNT ch), 24, 8⟩
def LST_NRBUF_CTRL_full (ch : Nat) : Fd := ⟨(LST_NRBUF_CTRL ch), 0, 1⟩
def LST_NRBUF_CTRL_rel (ch : Nat) : Fd := ⟨(LST_NRBUF_CTRL ch), 1, 1⟩
def LST_NRBUF_CTRL_drops (ch : Nat) : Fd := ⟨(LST_NRBUF_CTRL ch), 8, 8⟩
def LST_NRBUF_re (ch j : Nat) : Fd := ⟨(LST_NRBUF ch j), 0, 32⟩
def FEN_EVT_cmd_0 : Fd := ⟨FEN_EVT, 0, 1⟩
def FEN_EVT_unlock_0 : Fd := ⟨FEN_EVT, 1, 1⟩
def FEN_EVT_skip_0 : Fd := ⟨FEN_EVT, 2, 1⟩
def FEN_EVT_cmd_1 : Fd := ⟨FEN_EVT, 4, 1⟩
def FEN_EVT_unlock_1 : Fd := ⟨FEN_EVT, 5, 1⟩
def FEN_EVT_skip_1 : Fd := ⟨FEN_EVT, 6, 1⟩
def FEN_EVT_cmd_2 : Fd := ⟨FEN_EVT, 8, 1⟩
def FEN_EVT_unlock_2 : Fd := ⟨FEN_EVT, 9, 1⟩
def FEN_EVT_skip_2 : Fd := ⟨FEN_EVT, 10, 1⟩
def FEN_EVT_cmd_3 : Fd := ⟨FEN_EVT, 12, 1⟩
def FEN_EVT_unlock_3 : Fd := ⟨FEN_EVT, 13, 1⟩
def FEN_EVT_skip_3 : Fd := ⟨FEN_EVT, 14, 1⟩
def FEN_EVT_spi : Fd := ⟨FEN_EVT, 16, 4⟩
def FEN_EVT_lost : Fd := ⟨FEN_EVT, 20, 1⟩
def FEN_EVT_stuck : Fd := ⟨FEN_EVT, 21, 1⟩
def FEN_EVT_grant : Fd := ⟨FEN_EVT, 22, 1⟩
def FEN_EVT_forced : Fd := ⟨FEN_EVT, 23, 1⟩
def FEN_RFC_OWN_L_own : Fd := ⟨FEN_RFC_OWN_L, 0, 32⟩
def FEN_RFC_OWN_H_own : Fd := ⟨FEN_RFC_OWN_H, 0, 32⟩
def FEN_RFC_SAFE_safe : Fd := ⟨FEN_RFC_SAFE, 0, 32⟩
def FEN_RFC_LEVEL_level : Fd := ⟨FEN_RFC_LEVEL, 0, 32⟩
def FEN_COEX_CTRL_coex_en : Fd := ⟨FEN_COEX_CTRL, 0, 1⟩
def FEN_COEX_CTRL_seq : Fd := ⟨FEN_COEX_CTRL, 1, 2⟩
def FEN_COEX_CTRL_pri : Fd := ⟨FEN_COEX_CTRL, 3, 1⟩
def FEN_COEX_CTRL_coex_mode : Fd := ⟨FEN_COEX_CTRL, 4, 1⟩
def FEN_COEX_CTRL_req_lead : Fd := ⟨FEN_COEX_CTRL, 16, 16⟩
def FEN_COEX_CFG_stuck_ms : Fd := ⟨FEN_COEX_CFG, 0, 16⟩
def FEN_COEX_CFG_ev_gap : Fd := ⟨FEN_COEX_CFG, 16, 8⟩
def FEN_COEX_STAT_req : Fd := ⟨FEN_COEX_STAT, 0, 1⟩
def FEN_COEX_STAT_pri : Fd := ⟨FEN_COEX_STAT, 1, 1⟩
def FEN_COEX_STAT_grant : Fd := ⟨FEN_COEX_STAT, 2, 1⟩
def FEN_COEX_STAT_stuck_lo : Fd := ⟨FEN_COEX_STAT, 3, 1⟩
def FEN_COEX_STAT_stuck_hi : Fd := ⟨FEN_COEX_STAT, 4, 1⟩
def FEN_COEX_CNT_grants : Fd := ⟨FEN_COEX_CNT, 0, 8⟩
def FEN_COEX_CNT_glitches : Fd := ⟨FEN_COEX_CNT, 8, 8⟩
def FEN_COEX_CNT_lost : Fd := ⟨FEN_COEX_CNT, 16, 8⟩
def FEN_COEX_CNT_stuck : Fd := ⟨FEN_COEX_CNT, 24, 8⟩
def FEN_SEQ_CTRL_mode (s : Nat) : Fd := ⟨(FEN_SEQ_CTRL s), 0, 1⟩
def FEN_SEQ_CTRL_dir (s : Nat) : Fd := ⟨(FEN_SEQ_CTRL s), 1, 1⟩
def FEN_SEQ_CTRL_ret (s : Nat) : Fd := ⟨(FEN_SEQ_CTRL s), 2, 1⟩
def FEN_SEQ_CTRL_lch (s : Nat) : Fd := ⟨(FEN_SEQ_CTRL s), 3, 1⟩
def FEN_SEQ_CTRL_lk (s : Nat) : Fd := ⟨(FEN_SEQ_CTRL s), 4, 2⟩
def FEN_SEQ_CTRL_spi_m (s : Nat) : Fd := ⟨(FEN_SEQ_CTRL s), 6, 2⟩
def FEN_SEQ_CTRL_spi_go (s : Nat) : Fd := ⟨(FEN_SEQ_CTRL s), 8, 1⟩
def FEN_SEQ_CMD_op (s : Nat) : Fd := ⟨(FEN_SEQ_CMD s), 0, 3⟩
def FEN_SEQ_CMD_dur (s : Nat) : Fd := ⟨(FEN_SEQ_CMD s), 16, 16⟩
def FEN_SEQ_STAT_state (s : Nat) : Fd := ⟨(FEN_SEQ_STAT s), 0, 3⟩
def FEN_SEQ_STAT_locked (s : Nat) : Fd := ⟨(FEN_SEQ_STAT s), 3, 1⟩
def FEN_SEQ_STAT_tx_held (s : Nat) : Fd := ⟨(FEN_SEQ_STAT s), 4, 1⟩
def FEN_SEQ_STAT_op_held (s : Nat) : Fd := ⟨(FEN_SEQ_STAT s), 5, 1⟩
def FEN_SEQ_STAT_outcome (s : Nat) : Fd := ⟨(FEN_SEQ_STAT s), 8, 8⟩
def FEN_SEQ_STAT_op (s : Nat) : Fd := ⟨(FEN_SEQ_STAT s), 16, 3⟩
def FEN_SEQ_STAT_reason (s : Nat) : Fd := ⟨(FEN_SEQ_STAT s), 20, 3⟩
def FEN_SEQ_STAT_skip_reason (s : Nat) : Fd := ⟨(FEN_SEQ_STAT s), 24, 2⟩
def FEN_SEQ_TIM_tx_lead (s : Nat) : Fd := ⟨(FEN_SEQ_TIM s), 0, 16⟩
def FEN_SEQ_TIM_tx_lag (s : Nat) : Fd := ⟨(FEN_SEQ_TIM s), 16, 16⟩
def FEN_SEQ_TIM2_rx_lead (s : Nat) : Fd := ⟨(FEN_SEQ_TIM2 s), 0, 16⟩
def FEN_SEQ_OFS_t_ofs (s : Nat) : Fd := ⟨(FEN_SEQ_OFS s), 0, 32⟩
def FEN_SEQ_HOLD_tx_hold (s : Nat) : Fd := ⟨(FEN_SEQ_HOLD s), 0, 8⟩
def FEN_SEQ_HOLD_settle_min (s : Nat) : Fd := ⟨(FEN_SEQ_HOLD s), 8, 8⟩
def FEN_SEQ_HOLD_settle_max (s : Nat) : Fd := ⟨(FEN_SEQ_HOLD s), 16, 16⟩
def FEN_SEQ_LOCK_lock_q (s : Nat) : Fd := ⟨(FEN_SEQ_LOCK s), 0, 16⟩
def FEN_SEQ_PAT_pat (s x : Nat) : Fd := ⟨(FEN_SEQ_PAT s x), 0, 32⟩
def FEN_SEQ_CAL_cal_tx (s : Nat) : Fd := ⟨(FEN_SEQ_CAL s), 0, 7⟩
def FEN_SEQ_CAL_cal_rx (s : Nat) : Fd := ⟨(FEN_SEQ_CAL s), 8, 7⟩
def FEN_SEQ_CAL_cal_len (s : Nat) : Fd := ⟨(FEN_SEQ_CAL s), 16, 4⟩
def FEN_SEQ_CAL_irr_min (s : Nat) : Fd := ⟨(FEN_SEQ_CAL s), 24, 8⟩
def FEN_SEQ_CALFW_cal_fw (s : Nat) : Fd := ⟨(FEN_SEQ_CALFW s), 0, 32⟩
def FEN_SEQ_CALAMP_amp (s : Nat) : Fd := ⟨(FEN_SEQ_CALAMP s), 0, 16⟩
def FEN_SEQ_CALRES_irr (s : Nat) : Fd := ⟨(FEN_SEQ_CALRES s), 0, 16⟩
def FEN_SEQ_CALRES_passes (s : Nat) : Fd := ⟨(FEN_SEQ_CALRES s), 16, 3⟩
def FEN_SEQ_CNT_skips (s : Nat) : Fd := ⟨(FEN_SEQ_CNT s), 0, 16⟩
def FEN_SEQ_CNT_unlocks (s : Nat) : Fd := ⟨(FEN_SEQ_CNT s), 16, 8⟩
def FEN_SEQ_CNT_refused (s : Nat) : Fd := ⟨(FEN_SEQ_CNT s), 24, 8⟩
def FEN_SPI_CFG_div (m : Nat) : Fd := ⟨(FEN_SPI_CFG m), 0, 8⟩
def FEN_SPI_CFG_spi_mode (m : Nat) : Fd := ⟨(FEN_SPI_CFG m), 8, 1⟩
def FEN_SPI_CFG_bits (m : Nat) : Fd := ⟨(FEN_SPI_CFG m), 9, 5⟩
def FEN_SPI_CFG_csn_mode (m : Nat) : Fd := ⟨(FEN_SPI_CFG m), 14, 1⟩
def FEN_SPI_CFG_count (m : Nat) : Fd := ⟨(FEN_SPI_CFG m), 16, 4⟩
def FEN_SPI_CMD_go (m : Nat) : Fd := ⟨(FEN_SPI_CMD m), 0, 1⟩
def FEN_SPI_STAT_busy (m : Nat) : Fd := ⟨(FEN_SPI_STAT m), 0, 1⟩
def FEN_SPI_STAT_outcome (m : Nat) : Fd := ⟨(FEN_SPI_STAT m), 8, 8⟩
def FEN_SPI_DATA_data (m j : Nat) : Fd := ⟨(FEN_SPI_DATA m j), 0, 32⟩
def OWN_CORE_CTRL_op (c : Nat) : Fd := ⟨(OWN_CORE_CTRL c), 0, 3⟩
def OWN_CORE_CTRL_boot_shelf (c : Nat) : Fd := ⟨(OWN_CORE_CTRL c), 3, 1⟩
def OWN_CORE_STAT_state (c : Nat) : Fd := ⟨(OWN_CORE_STAT c), 0, 2⟩
def OWN_CORE_STAT_fenced (c : Nat) : Fd := ⟨(OWN_CORE_STAT c), 2, 1⟩
def OWN_CORE_STAT_active (c : Nat) : Fd := ⟨(OWN_CORE_STAT c), 3, 1⟩
def OWN_CORE_STAT_chk_a (c : Nat) : Fd := ⟨(OWN_CORE_STAT c), 4, 1⟩
def OWN_CORE_STAT_chk_b (c : Nat) : Fd := ⟨(OWN_CORE_STAT c), 5, 1⟩
def OWN_CORE_STAT_armed (c : Nat) : Fd := ⟨(OWN_CORE_STAT c), 6, 1⟩
def OWN_CORE_STAT_stale (c : Nat) : Fd := ⟨(OWN_CORE_STAT c), 8, 8⟩
def OWN_CORE_RESULT_outcome (c : Nat) : Fd := ⟨(OWN_CORE_RESULT c), 0, 8⟩
def OWN_CORE_RESULT_op (c : Nat) : Fd := ⟨(OWN_CORE_RESULT c), 8, 3⟩
def OWN_LD_SRC_addr : Fd := ⟨OWN_LD_SRC, 0, 32⟩
def OWN_LD_CMD_core : Fd := ⟨OWN_LD_CMD, 0, 4⟩
def OWN_LD_CMD_load : Fd := ⟨OWN_LD_CMD, 4, 1⟩
def OWN_LD_RESULT_outcome : Fd := ⟨OWN_LD_RESULT, 0, 8⟩
def OWN_LD_RESULT_busy : Fd := ⟨OWN_LD_RESULT, 8, 1⟩
def OWN_LD_RESULT_shelf : Fd := ⟨OWN_LD_RESULT, 9, 1⟩
def OWN_LD_RESULT_step : Fd := ⟨OWN_LD_RESULT, 10, 2⟩
def OWN_LD_RESULT_core : Fd := ⟨OWN_LD_RESULT, 12, 4⟩
def OWN_LD_RESULT_reason : Fd := ⟨OWN_LD_RESULT, 16, 2⟩
def OWN_LD_FLOOR_floor (k : Nat) : Fd := ⟨(OWN_LD_FLOOR k), 0, 32⟩
def OWN_LD_KEYTAB_base : Fd := ⟨OWN_LD_KEYTAB, 0, 32⟩
def EVR_PEND_pend (j : Nat) : Fd := ⟨(EVR_PEND j), 0, 32⟩
def EVR_RAISE_event : Fd := ⟨EVR_RAISE, 0, 9⟩
def EVR_NEXT_event (c : Nat) : Fd := ⟨(EVR_NEXT c), 0, 9⟩
def EVR_NEXT_valid (c : Nat) : Fd := ⟨(EVR_NEXT c), 31, 1⟩
def EVR_WDOG_CTRL_en : Fd := ⟨EVR_WDOG_CTRL, 0, 1⟩
def EVR_WDOG_CTRL_lock : Fd := ⟨EVR_WDOG_CTRL, 1, 1⟩
def EVR_WDOG_CTRL_period : Fd := ⟨EVR_WDOG_CTRL, 16, 16⟩
def EVR_WDOG_KICK_key : Fd := ⟨EVR_WDOG_KICK, 0, 32⟩
def EVR_WDOG_STAT_second : Fd := ⟨EVR_WDOG_STAT, 0, 1⟩
def EVR_WDOG_STAT_bad_kicks : Fd := ⟨EVR_WDOG_STAT, 8, 8⟩
def EVR_WDOG_STAT_left : Fd := ⟨EVR_WDOG_STAT, 16, 16⟩
def EVR_LOCK_STAT_count : Fd := ⟨EVR_LOCK_STAT, 0, 8⟩
def EVR_LOCK_PC_pc : Fd := ⟨EVR_LOCK_PC, 0, 32⟩
def EVR_ROUTE_core (e : Nat) : Fd := ⟨(EVR_ROUTE e), 0, 4⟩
def EVR_ROUTE_en (e : Nat) : Fd := ⟨(EVR_ROUTE e), 4, 1⟩
def EVR_ROUTE_prio (e : Nat) : Fd := ⟨(EVR_ROUTE e), 5, 2⟩
def EVR_ROUTE_host (e : Nat) : Fd := ⟨(EVR_ROUTE e), 7, 1⟩
def PMC_SEL_evt (j : Nat) : Fd := ⟨(PMC_SEL j), 0, 6⟩
def PMC_SEL_mst_mask (j : Nat) : Fd := ⟨(PMC_SEL j), 8, 8⟩
def PMC_SEL_lvl_mask (j : Nat) : Fd := ⟨(PMC_SEL j), 16, 3⟩
def PMC_SEL_rng_en (j : Nat) : Fd := ⟨(PMC_SEL j), 19, 1⟩
def PMC_SEL_rng (j : Nat) : Fd := ⟨(PMC_SEL j), 20, 2⟩
def PMC_SEL_ovf_ie (j : Nat) : Fd := ⟨(PMC_SEL j), 22, 1⟩
def PMC_SEL_ovf (j : Nat) : Fd := ⟨(PMC_SEL j), 23, 1⟩
def PMC_CNT_L_count (j : Nat) : Fd := ⟨(PMC_CNT_L j), 0, 32⟩
def PMC_CNT_H_count (j : Nat) : Fd := ⟨(PMC_CNT_H j), 0, 16⟩
def PMC_CLS_cls_mask (j : Nat) : Fd := ⟨(PMC_CLS j), 0, 11⟩
def PMC_RANGE_LO_addr (r : Nat) : Fd := ⟨(PMC_RANGE_LO r), 0, 32⟩
def PMC_RANGE_HI_addr (r : Nat) : Fd := ⟨(PMC_RANGE_HI r), 0, 32⟩
def PMC_SKID_skid (c : Nat) : Fd := ⟨(PMC_SKID c), 0, 3⟩
def PMC_SKID_counter (c : Nat) : Fd := ⟨(PMC_SKID c), 3, 3⟩
def PMC_SKID_PC_pc (c : Nat) : Fd := ⟨(PMC_SKID_PC c), 0, 32⟩
def STO_NOR_CTRL_div : Fd := ⟨STO_NOR_CTRL, 0, 4⟩
def STO_NOR_CMD_opcode : Fd := ⟨STO_NOR_CMD, 0, 8⟩
def STO_NOR_CMD_addr_bytes : Fd := ⟨STO_NOR_CMD, 8, 3⟩
def STO_NOR_CMD_dummy : Fd := ⟨STO_NOR_CMD, 11, 4⟩
def STO_NOR_CMD_dir : Fd := ⟨STO_NOR_CMD, 15, 2⟩
def STO_NOR_CMD_quad : Fd := ⟨STO_NOR_CMD, 17, 1⟩
def STO_NOR_CMD_len : Fd := ⟨STO_NOR_CMD, 18, 9⟩
def STO_NOR_CMD_go : Fd := ⟨STO_NOR_CMD, 31, 1⟩
def STO_NOR_ADDR_addr : Fd := ⟨STO_NOR_ADDR, 0, 32⟩
def STO_NOR_RESULT_outcome : Fd := ⟨STO_NOR_RESULT, 0, 8⟩
def STO_NOR_RESULT_busy : Fd := ⟨STO_NOR_RESULT, 8, 1⟩
def STO_NOR_RESULT_reason : Fd := ⟨STO_NOR_RESULT, 9, 2⟩
def STO_NOR_BUF_data (j : Nat) : Fd := ⟨(STO_NOR_BUF j), 0, 32⟩
def MEM_EVT_ecc_corr : Fd := ⟨MEM_EVT, 0, 1⟩
def MEM_EVT_ecc_uncorr : Fd := ⟨MEM_EVT, 1, 1⟩
def MEM_EVT_scrub_pass : Fd := ⟨MEM_EVT, 2, 1⟩
def MEM_FILL_STAT_done : Fd := ⟨MEM_FILL_STAT, 0, 1⟩
def MEM_ARB_W_w_sc : Fd := ⟨MEM_ARB_W, 0, 4⟩
def MEM_ARB_W_w_lc : Fd := ⟨MEM_ARB_W, 4, 4⟩
def MEM_ARB_W_w_rc : Fd := ⟨MEM_ARB_W, 8, 4⟩
def MEM_ARB_W_w_dma : Fd := ⟨MEM_ARB_W, 12, 4⟩
def MEM_ARB_W_w_ext : Fd := ⟨MEM_ARB_W, 16, 4⟩
def MEM_ARB_W_w_load : Fd := ⟨MEM_ARB_W, 20, 4⟩
def MEM_ARB_W_w_maint : Fd := ⟨MEM_ARB_W, 24, 4⟩
def MEM_CORR_count : Fd := ⟨MEM_CORR, 0, 24⟩
def MEM_CORR_unit : Fd := ⟨MEM_CORR, 24, 5⟩
def MEM_UE_ADDR_addr : Fd := ⟨MEM_UE_ADDR, 0, 32⟩
def MEM_UE_INFO_unit : Fd := ⟨MEM_UE_INFO, 0, 5⟩
def MEM_UE_INFO_slot : Fd := ⟨MEM_UE_INFO, 8, 3⟩
def MEM_UE_INFO_valid : Fd := ⟨MEM_UE_INFO, 16, 1⟩
def MEM_UE_INFO_more : Fd := ⟨MEM_UE_INFO, 17, 1⟩
def MEM_UE_INFO_count : Fd := ⟨MEM_UE_INFO, 24, 8⟩
def MEM_INJ_ADDR_addr : Fd := ⟨MEM_INJ_ADDR, 0, 32⟩
def MEM_INJ_CTRL_bit_a : Fd := ⟨MEM_INJ_CTRL, 0, 7⟩
def MEM_INJ_CTRL_bit_b : Fd := ⟨MEM_INJ_CTRL, 8, 7⟩
def MEM_INJ_CTRL_two : Fd := ⟨MEM_INJ_CTRL, 15, 1⟩
def MEM_INJ_CTRL_arm : Fd := ⟨MEM_INJ_CTRL, 16, 1⟩
def MEM_SCRUB_interval (m : Nat) : Fd := ⟨(MEM_SCRUB m), 0, 16⟩
def MEM_SCRUB_en (m : Nat) : Fd := ⟨(MEM_SCRUB m), 16, 1⟩
def MEM_SCRUB_passes (m : Nat) : Fd := ⟨(MEM_SCRUB m), 24, 8⟩
def DMA_EVT_ch : Fd := ⟨DMA_EVT, 0, 32⟩
def DMA_CH_DESC_desc (c : Nat) : Fd := ⟨(DMA_CH_DESC c), 0, 32⟩
def DMA_CH_CMD_op (c : Nat) : Fd := ⟨(DMA_CH_CMD c), 0, 2⟩
def DMA_CH_STAT_state (c : Nat) : Fd := ⟨(DMA_CH_STAT c), 0, 3⟩
def DMA_CH_STAT_resumable (c : Nat) : Fd := ⟨(DMA_CH_STAT c), 3, 1⟩
def DMA_CH_STAT_stale (c : Nat) : Fd := ⟨(DMA_CH_STAT c), 4, 1⟩
def DMA_CH_STAT_outcome (c : Nat) : Fd := ⟨(DMA_CH_STAT c), 8, 8⟩
def DMA_CH_STAT_reason (c : Nat) : Fd := ⟨(DMA_CH_STAT c), 16, 3⟩
def DMA_CH_STAT_empty (c : Nat) : Fd := ⟨(DMA_CH_STAT c), 24, 5⟩
def DMA_CH_SRC_addr (c : Nat) : Fd := ⟨(DMA_CH_SRC c), 0, 32⟩
def DMA_CH_DST_addr (c : Nat) : Fd := ⟨(DMA_CH_DST c), 0, 32⟩
def DMA_CH_COUNT_count (c : Nat) : Fd := ⟨(DMA_CH_COUNT c), 0, 28⟩
def DMA_CH_FADDR_faddr (c : Nat) : Fd := ⟨(DMA_CH_FADDR c), 0, 32⟩
def STO_CTRL_width : Fd := ⟨STO_CTRL, 0, 2⟩
def STO_CTRL_timing : Fd := ⟨STO_CTRL, 2, 3⟩
def STO_CTRL_div : Fd := ⟨STO_CTRL, 8, 10⟩
def STO_CTRL_rst_n : Fd := ⟨STO_CTRL, 18, 1⟩
def STO_CTRL_retries : Fd := ⟨STO_CTRL, 19, 3⟩
def STO_CTRL_busy_ms : Fd := ⟨STO_CTRL, 22, 10⟩
def STO_CMD_op : Fd := ⟨STO_CMD, 0, 3⟩
def STO_CMD_rel : Fd := ⟨STO_CMD, 3, 1⟩
def STO_CMD_data : Fd := ⟨STO_CMD, 4, 1⟩
def STO_CMD_dir : Fd := ⟨STO_CMD, 5, 1⟩
def STO_CMD_idx : Fd := ⟨STO_CMD, 6, 6⟩
def STO_CMD_rtype : Fd := ⟨STO_CMD, 12, 2⟩
def STO_ARG_arg : Fd := ⟨STO_ARG, 0, 32⟩
def STO_CNT_cnt : Fd := ⟨STO_CNT, 0, 16⟩
def STO_RESULT_outcome : Fd := ⟨STO_RESULT, 0, 8⟩
def STO_RESULT_busy : Fd := ⟨STO_RESULT, 8, 1⟩
def STO_RESULT_reason : Fd := ⟨STO_RESULT, 9, 2⟩
def STO_RESULT_blocks : Fd := ⟨STO_RESULT, 16, 16⟩
def STO_RESP_resp (i : Nat) : Fd := ⟨(STO_RESP i), 0, 32⟩
def CRP_CLK_EVT_pll_chg : Fd := ⟨CRP_CLK_EVT, 0, 1⟩
def CRP_CLK_EVT_sw_done : Fd := ⟨CRP_CLK_EVT, 1, 1⟩
def CRP_CLK_EVT_ref_ok : Fd := ⟨CRP_CLK_EVT, 2, 1⟩
def CRP_CLK_STAT_ref_312 : Fd := ⟨CRP_CLK_STAT, 0, 1⟩
def CRP_CLK_STAT_ref_ok : Fd := ⟨CRP_CLK_STAT, 1, 1⟩
def CRP_CLK_STAT_ref_fail : Fd := ⟨CRP_CLK_STAT, 2, 1⟩
def CRP_CLK_STAT_fosc_ready : Fd := ⟨CRP_CLK_STAT, 3, 1⟩
def CRP_CLK_STAT_fosc_fail : Fd := ⟨CRP_CLK_STAT, 4, 1⟩
def CRP_CLK_STAT_aosc_ready : Fd := ⟨CRP_CLK_STAT, 5, 1⟩
def CRP_CLK_STAT_sys_src : Fd := ⟨CRP_CLK_STAT, 6, 1⟩
def CRP_CLK_STAT_sys_gated : Fd := ⟨CRP_CLK_STAT, 7, 1⟩
def CRP_CLK_STAT_forced : Fd := ⟨CRP_CLK_STAT, 8, 1⟩
def CRP_REFMON_lo : Fd := ⟨CRP_REFMON, 0, 12⟩
def CRP_REFMON_hi : Fd := ⟨CRP_REFMON, 16, 12⟩
def CRP_REFMON_ok_win : Fd := ⟨CRP_REFMON, 28, 4⟩
def CRP_REFCNT_count : Fd := ⟨CRP_REFCNT, 0, 12⟩
def CRP_REFCNT_fails : Fd := ⟨CRP_REFCNT, 16, 8⟩
def CRP_REFCNT_windows : Fd := ⟨CRP_REFCNT, 24, 8⟩
def CRP_PLL_CTRL_tx_en : Fd := ⟨CRP_PLL_CTRL, 0, 1⟩
def CRP_PLL_CTRL_h_en : Fd := ⟨CRP_PLL_CTRL, 1, 1⟩
def CRP_PLL_CTRL_s_en : Fd := ⟨CRP_PLL_CTRL, 2, 1⟩
def CRP_PLL_CTRL_b_en : Fd := ⟨CRP_PLL_CTRL, 3, 1⟩
def CRP_PLL_CTRL_tx_mode : Fd := ⟨CRP_PLL_CTRL, 4, 1⟩
def CRP_PLL_STAT_ready : Fd := ⟨CRP_PLL_STAT, 0, 4⟩
def CRP_PLL_STAT_holdover : Fd := ⟨CRP_PLL_STAT, 4, 4⟩
def CRP_PLL_STAT_unlocks : Fd := ⟨CRP_PLL_STAT, 16, 8⟩
def CRP_BPLL_TRIM_trim : Fd := ⟨CRP_BPLL_TRIM, 0, 28⟩
def CRP_BPLL_APPLIED_applied : Fd := ⟨CRP_BPLL_APPLIED, 0, 28⟩
def CRP_BPLL_APPLIED_slewing : Fd := ⟨CRP_BPLL_APPLIED, 28, 1⟩
def CRP_SYS_SEL_src : Fd := ⟨CRP_SYS_SEL, 0, 1⟩
def CRP_SYS_SEL_outcome : Fd := ⟨CRP_SYS_SEL, 8, 8⟩
def CRP_SYS_SEL_busy : Fd := ⟨CRP_SYS_SEL, 16, 1⟩
def CRP_SYS_SEL_forced : Fd := ⟨CRP_SYS_SEL, 17, 1⟩
def CRP_SYS_SEL_reason : Fd := ⟨CRP_SYS_SEL, 18, 2⟩
def CRP_CLKOUT_en : Fd := ⟨CRP_CLKOUT, 0, 1⟩
def CRP_CLKOUT_src : Fd := ⟨CRP_CLKOUT, 1, 5⟩
def CRP_CLKOUT_outcome : Fd := ⟨CRP_CLKOUT, 8, 8⟩
def CRP_CLKOUT_div_m1 : Fd := ⟨CRP_CLKOUT, 16, 12⟩
def CRP_CLKOUT_busy : Fd := ⟨CRP_CLKOUT, 28, 1⟩
def CRP_AOSC_INC_inc : Fd := ⟨CRP_AOSC_INC, 0, 26⟩
def CRP_AOSC_INC_disc_en : Fd := ⟨CRP_AOSC_INC, 28, 1⟩
def CRP_AOSC_INC_valid : Fd := ⟨CRP_AOSC_INC, 29, 1⟩
def CRP_AON_TIME_L_frac : Fd := ⟨CRP_AON_TIME_L, 0, 32⟩
def CRP_AON_TIME_H_sec : Fd := ⟨CRP_AON_TIME_H, 0, 32⟩
def CRP_GATE_STAT_running : Fd := ⟨CRP_GATE_STAT, 0, 24⟩
def CRP_GATE_FORCE_force : Fd := ⟨CRP_GATE_FORCE, 0, 24⟩
def RST_CAUSE_por : Fd := ⟨RST_CAUSE, 0, 1⟩
def RST_CAUSE_reset_n : Fd := ⟨RST_CAUSE, 1, 1⟩
def RST_CAUSE_cmd : Fd := ⟨RST_CAUSE, 2, 1⟩
def RST_CAUSE_wdog : Fd := ⟨RST_CAUSE, 3, 1⟩
def RST_CAUSE_lockstep : Fd := ⟨RST_CAUSE, 4, 1⟩
def RST_CAUSE_clk_nofosc : Fd := ⟨RST_CAUSE, 5, 1⟩
def RST_CAUSE_load_interrupted : Fd := ⟨RST_CAUSE, 6, 1⟩
def RST_CAUSE_last_only : Fd := ⟨RST_CAUSE, 16, 1⟩
def RST_CAUSE_mode_lock : Fd := ⟨RST_CAUSE, 17, 1⟩
def CRP_CMD_RESET_key : Fd := ⟨CRP_CMD_RESET, 0, 32⟩
def CRP_BLK_RST_hold : Fd := ⟨CRP_BLK_RST, 0, 27⟩
def CRP_BLK_RST_STAT_held : Fd := ⟨CRP_BLK_RST_STAT, 0, 27⟩
def CRP_ATTIC_STAT_done : Fd := ⟨CRP_ATTIC_STAT, 0, 1⟩
def CRP_ATTIC_STAT_a_ok : Fd := ⟨CRP_ATTIC_STAT, 1, 1⟩
def CRP_ATTIC_STAT_b_ok : Fd := ⟨CRP_ATTIC_STAT, 2, 1⟩
def CRP_ATTIC_STAT_used : Fd := ⟨CRP_ATTIC_STAT, 3, 1⟩
def CRP_ATTIC_STAT_hold : Fd := ⟨CRP_ATTIC_STAT, 4, 1⟩
def CRP_ATTIC_STAT_restarts : Fd := ⟨CRP_ATTIC_STAT, 8, 8⟩
def CRP_BOOT_STAT_stage : Fd := ⟨CRP_BOOT_STAT, 0, 3⟩
def CRP_BOOT_STAT_dir : Fd := ⟨CRP_BOOT_STAT, 3, 1⟩
def CRP_BOOT_STAT_warm : Fd := ⟨CRP_BOOT_STAT, 4, 1⟩
def CRP_BOOT_STAT_dir0_ok : Fd := ⟨CRP_BOOT_STAT, 5, 1⟩
def CRP_BOOT_STAT_dir1_ok : Fd := ⟨CRP_BOOT_STAT, 6, 1⟩
def CRP_BOOT_STAT_outcome : Fd := ⟨CRP_BOOT_STAT, 8, 8⟩
def CRP_RST_EVT_attic_warn : Fd := ⟨CRP_RST_EVT, 0, 1⟩
def CRP_RST_EVT_blk_rel : Fd := ⟨CRP_RST_EVT, 1, 1⟩
def PWR_MODE_mode : Fd := ⟨PWR_MODE, 0, 2⟩
def PWR_MODE_avs_ret : Fd := ⟨PWR_MODE, 2, 1⟩
def PWR_STAT_outcome : Fd := ⟨PWR_STAT, 0, 8⟩
def PWR_STAT_reason : Fd := ⟨PWR_STAT, 8, 3⟩
def PWR_STAT_woke : Fd := ⟨PWR_STAT, 11, 1⟩
def PWR_STAT_forced : Fd := ⟨PWR_STAT, 12, 1⟩
def PWR_STAT_avs_fail : Fd := ⟨PWR_STAT, 13, 1⟩
def PWR_STAT_droop_seen : Fd := ⟨PWR_STAT, 14, 1⟩
def PWR_STAT_wake_src : Fd := ⟨PWR_STAT, 16, 5⟩
def PWR_STAT_re_stops : Fd := ⟨PWR_STAT, 24, 8⟩
def PWR_WAKE_EN_en : Fd := ⟨PWR_WAKE_EN, 0, 5⟩
def PWR_WAKE_EN_ext_pol : Fd := ⟨PWR_WAKE_EN, 8, 1⟩
def PWR_WAKE_EN_opt_lanes : Fd := ⟨PWR_WAKE_EN, 16, 8⟩
def PWR_ALARM_sec : Fd := ⟨PWR_ALARM, 0, 32⟩
def PWR_LARDER_count : Fd := ⟨PWR_LARDER, 0, 12⟩
def PWR_LARDER_skipped : Fd := ⟨PWR_LARDER, 16, 8⟩
def PWR_LARDER_failed : Fd := ⟨PWR_LARDER, 24, 8⟩
def PWR_LARDER_FAIL_first_fail : Fd := ⟨PWR_LARDER_FAIL, 0, 11⟩
def PWR_LARDER_FAIL_code : Fd := ⟨PWR_LARDER_FAIL, 16, 8⟩
def PWR_AVS_CTRL_ret_mv : Fd := ⟨PWR_AVS_CTRL, 0, 16⟩
def PWR_AVS_CTRL_run_mv : Fd := ⟨PWR_AVS_CTRL, 16, 16⟩
def PWR_AVS_REQ_mv : Fd := ⟨PWR_AVS_REQ, 0, 16⟩
def PWR_AVS_REQ_rail : Fd := ⟨PWR_AVS_REQ, 16, 1⟩
def PWR_AVS_REQ_go : Fd := ⟨PWR_AVS_REQ, 17, 1⟩
def PWR_AVS_STAT_outcome : Fd := ⟨PWR_AVS_STAT, 0, 8⟩
def PWR_AVS_STAT_busy : Fd := ⟨PWR_AVS_STAT, 8, 1⟩
def PWR_AVS_STAT_tries : Fd := ⟨PWR_AVS_STAT, 9, 2⟩
def PWR_AVS_STAT_ack : Fd := ⟨PWR_AVS_STAT, 11, 2⟩
def PWR_AVS_STAT_read_mv : Fd := ⟨PWR_AVS_STAT, 16, 16⟩
def TH_CTRL_timer_ms : Fd := ⟨TH_CTRL, 0, 10⟩
def TH_CTRL_shut_ms : Fd := ⟨TH_CTRL, 16, 8⟩
def TH_CMD_mask : Fd := ⟨TH_CMD, 0, 9⟩
def TH_CMD_outcome : Fd := ⟨TH_CMD, 16, 8⟩
def TH_CMD_busy : Fd := ⟨TH_CMD, 24, 1⟩
def TH_CMD_pending : Fd := ⟨TH_CMD, 25, 1⟩
def TH_STAT_warn : Fd := ⟨TH_STAT, 0, 1⟩
def TH_STAT_throttle : Fd := ⟨TH_STAT, 1, 1⟩
def TH_STAT_shutdown : Fd := ⟨TH_STAT, 2, 1⟩
def TH_STAT_fails : Fd := ⟨TH_STAT, 8, 8⟩
def TH_STAT_t_max : Fd := ⟨TH_STAT, 16, 16⟩
def TH_THR_thr (k : Nat) : Fd := ⟨(TH_THR k), 0, 16⟩
def TH_THR_hyst (k : Nat) : Fd := ⟨(TH_THR k), 16, 9⟩
def TH_SENS_temp (s : Nat) : Fd := ⟨(TH_SENS s), 0, 16⟩
def TH_SENS_valid (s : Nat) : Fd := ⟨(TH_SENS s), 16, 1⟩
def PWR_EVT_warn : Fd := ⟨PWR_EVT, 0, 1⟩
def PWR_EVT_throttle : Fd := ⟨PWR_EVT, 1, 1⟩
def PWR_EVT_th_done : Fd := ⟨PWR_EVT, 2, 1⟩
def PWR_EVT_avs_fail : Fd := ⟨PWR_EVT, 3, 1⟩
def PWR_EVT_wake : Fd := ⟨PWR_EVT, 4, 1⟩
def PWR_EVT_avs_done : Fd := ⟨PWR_EVT, 5, 1⟩
def HKC_EVT_scan_done : Fd := ⟨HKC_EVT, 0, 1⟩
def HKC_EVT_clip : Fd := ⟨HKC_EVT, 1, 1⟩
def HKC_SCAN_CTRL_run : Fd := ⟨HKC_SCAN_CTRL, 0, 1⟩
def HKC_SCAN_CTRL_cont : Fd := ⟨HKC_SCAN_CTRL, 1, 1⟩
def HKC_SCAN_CTRL_busy : Fd := ⟨HKC_SCAN_CTRL, 2, 1⟩
def HKC_SCAN_CTRL_pre : Fd := ⟨HKC_SCAN_CTRL, 3, 1⟩
def HKC_SCAN_CTRL_n_ent : Fd := ⟨HKC_SCAN_CTRL, 8, 5⟩
def HKC_SCAN_CTRL_outcome : Fd := ⟨HKC_SCAN_CTRL, 16, 8⟩
def HKC_SCAN_T0_time : Fd := ⟨HKC_SCAN_T0, 0, 32⟩
def HKC_ENT_chan (i : Nat) : Fd := ⟨(HKC_ENT i), 0, 6⟩
def HKC_ENT_order (i : Nat) : Fd := ⟨(HKC_ENT i), 8, 2⟩
def HKC_ENT_navg (i : Nat) : Fd := ⟨(HKC_ENT i), 12, 3⟩
def HKC_ENT_osr (i : Nat) : Fd := ⟨(HKC_ENT i), 16, 16⟩
def HKC_RES_code (i : Nat) : Fd := ⟨(HKC_RES i), 0, 16⟩
def HKC_RES_valid (i : Nat) : Fd := ⟨(HKC_RES i), 16, 1⟩
def HKC_RES_over (i : Nat) : Fd := ⟨(HKC_RES i), 17, 1⟩
def HKD_CTRL_en (p : Nat) : Fd := ⟨(HKD_CTRL p), 0, 1⟩
def HKD_CTRL_mode (p : Nat) : Fd := ⟨(HKD_CTRL p), 1, 1⟩
def HKD_CTRL_range (p : Nat) : Fd := ⟨(HKD_CTRL p), 2, 1⟩
def HKD_CTRL_sine_en (p : Nat) : Fd := ⟨(HKD_CTRL p), 3, 1⟩
def HKD_VAL_code (p : Nat) : Fd := ⟨(HKD_VAL p), 0, 16⟩
def HKD_VAL_amp (p : Nat) : Fd := ⟨(HKD_VAL p), 16, 16⟩
def HKD_FW_fw (p : Nat) : Fd := ⟨(HKD_FW p), 0, 32⟩
def HKD_STAT_state (p : Nat) : Fd := ⟨(HKD_STAT p), 0, 2⟩
def HKD_STAT_clamped (p : Nat) : Fd := ⟨(HKD_STAT p), 2, 1⟩
def HKD_STAT_outcome (p : Nat) : Fd := ⟨(HKD_STAT p), 8, 8⟩
def HKD_STAT_clips (p : Nat) : Fd := ⟨(HKD_STAT p), 16, 16⟩
def GRD_CTRL_lock : Fd := ⟨GRD_CTRL, 0, 1⟩
def GRD_STAT_txdis : Fd := ⟨GRD_STAT, 0, 1⟩
def GRD_STAT_trip_lanes : Fd := ⟨GRD_STAT, 8, 8⟩
def GRD_STAT_txdis_cnt : Fd := ⟨GRD_STAT, 24, 8⟩
def GRD_TRIP_CLR_lanes : Fd := ⟨GRD_TRIP_CLR, 0, 8⟩
def GRD_SWING_attic : Fd := ⟨GRD_SWING, 0, 8⟩
def GRD_SWING_work : Fd := ⟨GRD_SWING, 16, 8⟩
def GRD_GAIN_attic (d : Nat) : Fd := ⟨(GRD_GAIN d), 0, 16⟩
def GRD_GAIN_work (d : Nat) : Fd := ⟨(GRD_GAIN d), 16, 16⟩
def GRD_PIN_role (p : Nat) : Fd := ⟨(GRD_PIN p), 0, 2⟩
def GRD_PIN_lane (p : Nat) : Fd := ⟨(GRD_PIN p), 4, 3⟩
def GRD_PIN_ATT_lo (p : Nat) : Fd := ⟨(GRD_PIN_ATT p), 0, 16⟩
def GRD_PIN_ATT_hi (p : Nat) : Fd := ⟨(GRD_PIN_ATT p), 16, 16⟩
def GRD_PIN_LIM_lo (p : Nat) : Fd := ⟨(GRD_PIN_LIM p), 0, 16⟩
def GRD_PIN_LIM_hi (p : Nat) : Fd := ⟨(GRD_PIN_LIM p), 16, 16⟩
def OWN_KEYSLOT_enrolled (k : Nat) : Fd := ⟨(OWN_KEYSLOT k), 0, 1⟩
def OWN_KEYSLOT_revoked (k : Nat) : Fd := ⟨(OWN_KEYSLOT k), 1, 1⟩
def OWN_KEYSLOT_usable (k : Nat) : Fd := ⟨(OWN_KEYSLOT k), 2, 1⟩
def OWN_KEYSLOT_HASH_hash (k w : Nat) : Fd := ⟨(OWN_KEYSLOT_HASH k w), 0, 32⟩
def OWN_FUSE_CMD_op : Fd := ⟨OWN_FUSE_CMD, 0, 2⟩
def OWN_FUSE_CMD_slot : Fd := ⟨OWN_FUSE_CMD, 4, 4⟩
def OWN_FUSE_BUF_buf : Fd := ⟨OWN_FUSE_BUF, 0, 32⟩
def OWN_FUSE_RESULT_outcome : Fd := ⟨OWN_FUSE_RESULT, 0, 8⟩
def OWN_FUSE_RESULT_busy : Fd := ⟨OWN_FUSE_RESULT, 8, 1⟩
def OWN_EVT_chg : Fd := ⟨OWN_EVT, 0, 1⟩
def OWN_EVT_lapse : Fd := ⟨OWN_EVT, 1, 1⟩
def OWN_EVT_refusal : Fd := ⟨OWN_EVT, 2, 1⟩
def OWN_EVT_hatch : Fd := ⟨OWN_EVT, 3, 1⟩
def OWN_EVT_sign : Fd := ⟨OWN_EVT, 4, 1⟩
def OWN_STAT_owner : Fd := ⟨OWN_STAT, 0, 3⟩
def OWN_STAT_addr : Fd := ⟨OWN_STAT, 4, 12⟩
def OWN_STAT_succ : Fd := ⟨OWN_STAT, 16, 3⟩
def OWN_STAT_ho_pend : Fd := ⟨OWN_STAT, 19, 1⟩
def OWN_STAT_changes : Fd := ⟨OWN_STAT, 24, 8⟩
def OWN_CLAIM_key : Fd := ⟨OWN_CLAIM, 0, 32⟩
def OWN_ACCEPT_key : Fd := ⟨OWN_ACCEPT, 0, 32⟩
def OWN_LEASE_renew : Fd := ⟨OWN_LEASE, 0, 1⟩
def OWN_LEASE_left : Fd := ⟨OWN_LEASE, 16, 16⟩
def OWN_LEASE_CFG_lease_ms : Fd := ⟨OWN_LEASE_CFG, 0, 16⟩
def OWN_HANDOVER_succ : Fd := ⟨OWN_HANDOVER, 0, 3⟩
def OWN_HANDOVER_succ_addr : Fd := ⟨OWN_HANDOVER, 4, 12⟩
def OWN_HO_RESULT_outcome : Fd := ⟨OWN_HO_RESULT, 0, 8⟩
def OWN_HO_RESULT_reason : Fd := ⟨OWN_HO_RESULT, 8, 3⟩
def OWN_POLICY_claim_mask : Fd := ⟨OWN_POLICY, 0, 4⟩
def OWN_POLICY_read_mask : Fd := ⟨OWN_POLICY, 4, 4⟩
def OWN_POLICY_hatch_field : Fd := ⟨OWN_POLICY, 8, 1⟩
def OWN_RLOG_STAT_next : Fd := ⟨OWN_RLOG_STAT, 0, 6⟩
def OWN_RLOG_STAT_total : Fd := ⟨OWN_RLOG_STAT, 16, 16⟩
def OWN_RLOG_ADDR_addr (i : Nat) : Fd := ⟨(OWN_RLOG_ADDR i), 0, 32⟩
def OWN_RLOG_SEC_sec (i : Nat) : Fd := ⟨(OWN_RLOG_SEC i), 0, 32⟩
def OWN_RLOG_INFO_class (i : Nat) : Fd := ⟨(OWN_RLOG_INFO i), 0, 3⟩
def OWN_RLOG_INFO_core (i : Nat) : Fd := ⟨(OWN_RLOG_INFO i), 3, 4⟩
def OWN_RLOG_INFO_faddr (i : Nat) : Fd := ⟨(OWN_RLOG_INFO i), 8, 12⟩
def OWN_RLOG_INFO_code (i : Nat) : Fd := ⟨(OWN_RLOG_INFO i), 20, 8⟩
def OWN_RLOG_FRAC_frac (i : Nat) : Fd := ⟨(OWN_RLOG_FRAC i), 0, 32⟩
def OWN_HATCH_STAT_level : Fd := ⟨OWN_HATCH_STAT, 0, 2⟩
def OWN_HATCH_STAT_outcome : Fd := ⟨OWN_HATCH_STAT, 8, 8⟩
def OWN_HATCH_STAT_fails : Fd := ⟨OWN_HATCH_STAT, 16, 4⟩
def OWN_HATCH_STAT_locked : Fd := ⟨OWN_HATCH_STAT, 20, 1⟩
def OWN_HATCH_STAT_refused : Fd := ⟨OWN_HATCH_STAT, 24, 8⟩
def OWN_ZERO_key_ready : Fd := ⟨OWN_ZERO, 0, 1⟩
def OWN_ZERO_zeroised : Fd := ⟨OWN_ZERO, 1, 1⟩
def OWN_ZERO_keyload : Fd := ⟨OWN_ZERO, 2, 1⟩
def OWN_ZERO_count : Fd := ⟨OWN_ZERO, 8, 8⟩
def OWN_ZERO_outcome : Fd := ⟨OWN_ZERO, 16, 8⟩
def OWN_SECRET_LO_lock : Fd := ⟨OWN_SECRET_LO, 0, 1⟩
def OWN_SECRET_LO_base : Fd := ⟨OWN_SECRET_LO, 12, 20⟩
def OWN_SECRET_HI_end : Fd := ⟨OWN_SECRET_HI, 12, 20⟩
def OWN_ID_id (j : Nat) : Fd := ⟨(OWN_ID j), 0, 32⟩
def OWN_SIGN_CMD_op : Fd := ⟨OWN_SIGN_CMD, 0, 2⟩
def OWN_SIGN_BUF_buf : Fd := ⟨OWN_SIGN_BUF, 0, 32⟩
def OWN_SIGN_RESULT_outcome : Fd := ⟨OWN_SIGN_RESULT, 0, 8⟩
def OWN_SIGN_RESULT_busy : Fd := ⟨OWN_SIGN_RESULT, 8, 1⟩
def OWN_SIGN_RESULT_reason : Fd := ⟨OWN_SIGN_RESULT, 9, 2⟩
def OWN_IDPUB_key (k : Nat) : Fd := ⟨(OWN_IDPUB k), 0, 32⟩
def SNK_EVT_link : Fd := ⟨SNK_EVT, 0, 1⟩
def SNK_EVT_addr : Fd := ⟨SNK_EVT, 1, 1⟩
def SNK_EVT_conflict : Fd := ⟨SNK_EVT, 2, 1⟩
def SNK_EVT_rx : Fd := ⟨SNK_EVT, 3, 1⟩
def SNK_EVT_drop : Fd := ⟨SNK_EVT, 4, 1⟩
def SNK_EVT_rra : Fd := ⟨SNK_EVT, 5, 1⟩
def SNK_EVT_pair : Fd := ⟨SNK_EVT, 6, 1⟩
def SNK_EVT_pair_link : Fd := ⟨SNK_EVT, 7, 1⟩
def SNK_EVT_switchover : Fd := ⟨SNK_EVT, 8, 1⟩
def SNK_ADDR_addr : Fd := ⟨SNK_ADDR, 0, 12⟩
def SNK_ADDR_mode : Fd := ⟨SNK_ADDR, 12, 1⟩
def SNK_ADDR_conflict : Fd := ⟨SNK_ADDR, 13, 1⟩
def SNK_ADDR_probe : Fd := ⟨SNK_ADDR, 16, 16⟩
def SNK_CFG_dead_ms : Fd := ⟨SNK_CFG, 0, 10⟩
def SNK_CFG_rra_ms : Fd := ⟨SNK_CFG, 16, 8⟩
def SNK_CFG_ttl_def : Fd := ⟨SNK_CFG, 24, 8⟩
def SNK_LINK_EN_en : Fd := ⟨SNK_LINK_EN, 0, 10⟩
def SNK_DISC_unroutable : Fd := ⟨SNK_DISC, 0, 8⟩
def SNK_DISC_ttl : Fd := ⟨SNK_DISC, 8, 8⟩
def SNK_DISC_malformed : Fd := ⟨SNK_DISC, 16, 8⟩
def SNK_DISC_late : Fd := ⟨SNK_DISC, 24, 8⟩
def SNK_LINK_STAT_state (l : Nat) : Fd := ⟨(SNK_LINK_STAT l), 0, 2⟩
def SNK_LINK_STAT_nbr (l : Nat) : Fd := ⟨(SNK_LINK_STAT l), 4, 12⟩
def SNK_LINK_STAT_downs (l : Nat) : Fd := ⟨(SNK_LINK_STAT l), 16, 8⟩
def SNK_DROP_count (c : Nat) : Fd := ⟨(SNK_DROP c), 0, 32⟩
def SNK_TX_ADDR_addr (s : Nat) : Fd := ⟨(SNK_TX_ADDR s), 0, 32⟩
def SNK_TX_CMD_go (s : Nat) : Fd := ⟨(SNK_TX_CMD s), 0, 1⟩
def SNK_TX_CMD_link (s : Nat) : Fd := ⟨(SNK_TX_CMD s), 4, 4⟩
def SNK_TX_RESULT_outcome (s : Nat) : Fd := ⟨(SNK_TX_RESULT s), 0, 8⟩
def SNK_TX_RESULT_busy (s : Nat) : Fd := ⟨(SNK_TX_RESULT s), 8, 1⟩
def SNK_TX_RESULT_reason (s : Nat) : Fd := ⟨(SNK_TX_RESULT s), 9, 2⟩
def SNK_RXR_BASE_base (c : Nat) : Fd := ⟨(SNK_RXR_BASE c), 0, 32⟩
def SNK_RXR_CTRL_size_log (c : Nat) : Fd := ⟨(SNK_RXR_CTRL c), 0, 4⟩
def SNK_RXR_CTRL_tail (c : Nat) : Fd := ⟨(SNK_RXR_CTRL c), 4, 10⟩
def SNK_RXR_CTRL_head (c : Nat) : Fd := ⟨(SNK_RXR_CTRL c), 14, 10⟩
def SNK_RXR_CTRL_en (c : Nat) : Fd := ⟨(SNK_RXR_CTRL c), 31, 1⟩
def SNK_RRA_CTRL_dst : Fd := ⟨SNK_RRA_CTRL, 0, 12⟩
def SNK_RRA_CTRL_op : Fd := ⟨SNK_RRA_CTRL, 12, 2⟩
def SNK_RRA_CTRL_count : Fd := ⟨SNK_RRA_CTRL, 16, 5⟩
def SNK_RRA_CTRL_go : Fd := ⟨SNK_RRA_CTRL, 24, 1⟩
def SNK_RRA_ADDR_addr : Fd := ⟨SNK_RRA_ADDR, 0, 32⟩
def SNK_RRA_RESULT_outcome : Fd := ⟨SNK_RRA_RESULT, 0, 8⟩
def SNK_RRA_RESULT_index : Fd := ⟨SNK_RRA_RESULT, 8, 5⟩
def SNK_RRA_RESULT_stale : Fd := ⟨SNK_RRA_RESULT, 13, 1⟩
def SNK_RRA_RESULT_busy : Fd := ⟨SNK_RRA_RESULT, 14, 1⟩
def SNK_RRA_DATA_data (j : Nat) : Fd := ⟨(SNK_RRA_DATA j), 0, 32⟩
def SNK_PAIR_CTRL_en : Fd := ⟨SNK_PAIR_CTRL, 0, 1⟩
def SNK_PAIR_CTRL_pref : Fd := ⟨SNK_PAIR_CTRL, 1, 1⟩
def SNK_PAIR_CTRL_partner : Fd := ⟨SNK_PAIR_CTRL, 4, 12⟩
def SNK_PAIR_CTRL_hb_lane : Fd := ⟨SNK_PAIR_CTRL, 16, 3⟩
def SNK_PAIR_CTRL_hb_lane_en : Fd := ⟨SNK_PAIR_CTRL, 19, 1⟩
def SNK_PAIR_CTRL_pair_lanes : Fd := ⟨SNK_PAIR_CTRL, 24, 8⟩
def SNK_PAIR_TIM_hb_us : Fd := ⟨SNK_PAIR_TIM, 0, 8⟩
def SNK_PAIR_TIM_hb_miss : Fd := ⟨SNK_PAIR_TIM, 8, 4⟩
def SNK_PAIR_TIM_solo_ms : Fd := ⟨SNK_PAIR_TIM, 16, 16⟩
def SNK_PAIR_CMD_op : Fd := ⟨SNK_PAIR_CMD, 0, 2⟩
def SNK_PAIR_STAT_role : Fd := ⟨SNK_PAIR_STAT, 0, 2⟩
def SNK_PAIR_STAT_p_role : Fd := ⟨SNK_PAIR_STAT, 2, 2⟩
def SNK_PAIR_STAT_p_ready : Fd := ⟨SNK_PAIR_STAT, 4, 1⟩
def SNK_PAIR_STAT_fab_ok : Fd := ⟨SNK_PAIR_STAT, 5, 1⟩
def SNK_PAIR_STAT_lane_ok : Fd := ⟨SNK_PAIR_STAT, 6, 1⟩
def SNK_PAIR_STAT_gates : Fd := ⟨SNK_PAIR_STAT, 7, 1⟩
def SNK_PAIR_STAT_outcome : Fd := ⟨SNK_PAIR_STAT, 8, 8⟩
def SNK_PAIR_STAT_switches : Fd := ⟨SNK_PAIR_STAT, 24, 8⟩
def SNK_ROUTE_link (a : Nat) : Fd := ⟨(SNK_ROUTE a), 0, 4⟩
def CEL_STAT_state : Fd := ⟨CEL_STAT, 0, 3⟩
def CEL_STAT_deferred : Fd := ⟨CEL_STAT, 3, 1⟩
def CEL_STAT_tamper : Fd := ⟨CEL_STAT, 4, 1⟩
def CEL_STAT_commits : Fd := ⟨CEL_STAT, 8, 8⟩
def CEL_EVT_rec : Fd := ⟨CEL_EVT, 0, 1⟩
def CEL_EVT_state : Fd := ⟨CEL_EVT, 1, 1⟩
def CEL_EVT_defer : Fd := ⟨CEL_EVT, 2, 1⟩
def CEL_EVT_tamper : Fd := ⟨CEL_EVT, 3, 1⟩
def CEL_TEMP_temp : Fd := ⟨CEL_TEMP, 0, 16⟩
def CEL_TEMP_valid : Fd := ⟨CEL_TEMP, 16, 1⟩
def CEL_REC_HEAD_seq : Fd := ⟨CEL_REC_HEAD, 0, 32⟩
def CEL_LOG_HEAD_next : Fd := ⟨CEL_LOG_HEAD, 0, 8⟩
def CEL_ID_ROM_VER_rom_ver : Fd := ⟨CEL_ID_ROM_VER, 0, 16⟩
def CEL_ID_ROM_CRC_rom_crc : Fd := ⟨CEL_ID_ROM_CRC, 0, 32⟩
def CEL_ID_SEAL_CRC_seal_crc : Fd := ⟨CEL_ID_SEAL_CRC, 0, 32⟩
def CEL_ID_KEY_ID_key_id (j : Nat) : Fd := ⟨(CEL_ID_KEY_ID j), 0, 32⟩
def CEL_ID_INTERVAL_interval : Fd := ⟨CEL_ID_INTERVAL, 0, 8⟩
def BST_EVT_fail : Fd := ⟨BST_EVT, 0, 1⟩
def BST_EVT_done : Fd := ⟨BST_EVT, 1, 1⟩
def BST_MEM_CTRL_en : Fd := ⟨BST_MEM_CTRL, 0, 1⟩
def BST_MEM_CTRL_period : Fd := ⟨BST_MEM_CTRL, 16, 16⟩
def BST_MEM_CMD_unit : Fd := ⟨BST_MEM_CMD, 0, 5⟩
def BST_MEM_CMD_row : Fd := ⟨BST_MEM_CMD, 16, 13⟩
def BST_MEM_CMD_go : Fd := ⟨BST_MEM_CMD, 31, 1⟩
def BST_MEM_RESULT_outcome : Fd := ⟨BST_MEM_RESULT, 0, 8⟩
def BST_MEM_RESULT_busy : Fd := ⟨BST_MEM_RESULT, 8, 1⟩
def BST_MEM_RESULT_result : Fd := ⟨BST_MEM_RESULT, 9, 1⟩
def BST_MEM_RESULT_reason : Fd := ⟨BST_MEM_RESULT, 10, 2⟩
def BST_LB_CMD_core : Fd := ⟨BST_LB_CMD, 0, 4⟩
def BST_LB_CMD_slice : Fd := ⟨BST_LB_CMD, 4, 6⟩
def BST_LB_CMD_go : Fd := ⟨BST_LB_CMD, 31, 1⟩
def BST_LB_RESULT_outcome : Fd := ⟨BST_LB_RESULT, 0, 8⟩
def BST_LB_RESULT_busy : Fd := ⟨BST_LB_RESULT, 8, 1⟩
def BST_LB_RESULT_result : Fd := ⟨BST_LB_RESULT, 9, 1⟩
def BST_LB_RESULT_reason : Fd := ⟨BST_LB_RESULT, 10, 2⟩
def BST_LB_RESULT_core : Fd := ⟨BST_LB_RESULT, 12, 4⟩
def BST_LB_RESULT_slice : Fd := ⟨BST_LB_RESULT, 16, 6⟩
def BST_LB_CFG_wait_ms : Fd := ⟨BST_LB_CFG, 0, 8⟩
def BST_LEDGER_BASE_base : Fd := ⟨BST_LEDGER_BASE, 0, 32⟩
def BST_LEDGER_HEAD_next : Fd := ⟨BST_LEDGER_HEAD, 0, 8⟩
def BST_LEDGER_HEAD_lost : Fd := ⟨BST_LEDGER_HEAD, 16, 8⟩
def BST_LEDGER_SEQ_seq : Fd := ⟨BST_LEDGER_SEQ, 0, 32⟩
def BST_MEM_UNIT_en (m : Nat) : Fd := ⟨(BST_MEM_UNIT m), 0, 1⟩
def BST_MEM_UNIT_row (m : Nat) : Fd := ⟨(BST_MEM_UNIT m), 1, 13⟩
def BST_MEM_UNIT_spares_used (m : Nat) : Fd := ⟨(BST_MEM_UNIT m), 16, 3⟩
def BST_MEM_UNIT_exhausted (m : Nat) : Fd := ⟨(BST_MEM_UNIT m), 19, 1⟩
def BST_MEM_UNIT_rounds (m : Nat) : Fd := ⟨(BST_MEM_UNIT m), 24, 8⟩
def BST_LB_STAT_suspect (c : Nat) : Fd := ⟨(BST_LB_STAT c), 0, 1⟩
def BST_LB_STAT_last_fail (c : Nat) : Fd := ⟨(BST_LB_STAT c), 8, 6⟩
def BST_LB_STAT_fails (c : Nat) : Fd := ⟨(BST_LB_STAT c), 16, 8⟩
def BST_LB_STAT_runs (c : Nat) : Fd := ⟨(BST_LB_STAT c), 24, 8⟩
def BST_REPAIR_row (m k : Nat) : Fd := ⟨(BST_REPAIR m k), 0, 13⟩
def BST_REPAIR_valid (m k : Nat) : Fd := ⟨(BST_REPAIR m k), 31, 1⟩

/-! ## What a write may change in each register: low bit, width and access code (R9) of every field that is not RO -/

def LANE_ADC_CTRL_fs : List (Nat × Nat × Acc) := [(0, 1, .rw), (1, 1, .rw), (4, 2, .rw), (8, 2, .rw)]
def LANE_ADC_STATUS_fs : List (Nat × Nat × Acc) := []
def LANE_CAL_CMD_fs : List (Nat × Nat × Acc) := [(0, 3, .wo), (8, 7, .wo)]
def LANE_CAL_RESULT_fs : List (Nat × Nat × Acc) := []
def LANE_RAMP_CTRL_fs : List (Nat × Nat × Acc) := [(0, 3, .rw), (4, 3, .rw), (8, 3, .rw), (16, 1, .rw)]
def LANE_ADC_EVT_fs : List (Nat × Nat × Acc) := [(0, 1, .w1c), (1, 1, .w1c), (2, 1, .w1c), (3, 1, .w1c), (4, 1, .w1c), (5, 1, .w1c)]
def LANE_SLICE_TGT_fs : List (Nat × Nat × Acc) := [(0, 12, .rw), (16, 11, .rw), (31, 1, .rw)]
def LANE_SLICE_TSKEW_fs : List (Nat × Nat × Acc) := [(0, 10, .rw)]
def LANE_SLICE_CUR_fs : List (Nat × Nat × Acc) := []
def LANE_SLICE_CSKEW_fs : List (Nat × Nat × Acc) := [(28, 1, .w1c)]
def LANE_TX_CTRL_fs : List (Nat × Nat × Acc) := [(0, 1, .rw), (1, 1, .rw), (2, 1, .rw), (8, 8, .rw), (16, 2, .rw)]
def LANE_TX_COMMIT_fs : List (Nat × Nat × Acc) := [(0, 1, .wo), (1, 1, .wo)]
def LANE_TX_STATUS_fs : List (Nat × Nat × Acc) := []
def LANE_TX_FIR_fs : List (Nat × Nat × Acc) := [(0, 10, .rw)]
def LANE_TX_PDA_fs : List (Nat × Nat × Acc) := [(0, 8, .rw)]
def LANE_TX_PDB_fs : List (Nat × Nat × Acc) := [(0, 8, .rw)]
def LANE_DET_CTRL_fs : List (Nat × Nat × Acc) := [(0, 1, .rw), (1, 1, .rw), (2, 2, .rw), (4, 4, .rw), (8, 3, .rw), (16, 4, .rw)]
def LANE_DET_STATUS_fs : List (Nat × Nat × Acc) := []
def LANE_DET_CMD_fs : List (Nat × Nat × Acc) := [(0, 3, .wo)]
def LANE_DET_RESULT_fs : List (Nat × Nat × Acc) := []
def LANE_DET_EVT_fs : List (Nat × Nat × Acc) := [(6, 1, .w1c), (7, 1, .w1c), (8, 1, .w1c), (9, 1, .w1c), (10, 1, .w1c), (11, 1, .w1c), (12, 1, .w1c), (13, 1, .w1c), (14, 1, .w1c)]
def LANE_DET_MON_fs : List (Nat × Nat × Acc) := [(0, 8, .rw), (8, 8, .rw), (16, 3, .rw), (20, 8, .rw)]
def LANE_SEAM_CNT_fs : List (Nat × Nat × Acc) := []
def LANE_EQ_CTRL_fs : List (Nat × Nat × Acc) := [(0, 6, .rw), (8, 6, .rw), (16, 4, .rw), (24, 6, .rw)]
def LANE_EQ_TAP_fs : List (Nat × Nat × Acc) := [(0, 12, .rw)]
def LANE_TR_CTRL_fs : List (Nat × Nat × Acc) := [(0, 1, .rw), (4, 4, .rw), (8, 5, .rw), (16, 8, .rw)]
def LANE_TR_PHASE_fs : List (Nat × Nat × Acc) := [(8, 8, .rw)]
def LANE_TR_FREQ_fs : List (Nat × Nat × Acc) := [(0, 22, .rw)]
def LANE_TRL_CTRL_fs : List (Nat × Nat × Acc) := [(4, 4, .rw)]
def LANE_TRL_COMMIT_fs : List (Nat × Nat × Acc) := [(0, 1, .wo)]
def LANE_TRL_LEVA_fs : List (Nat × Nat × Acc) := [(0, 12, .rw), (16, 6, .rw)]
def LANE_TRL_LEVB_fs : List (Nat × Nat × Acc) := [(0, 12, .rw), (16, 6, .rw)]
def LANE_LMS_CFG_fs : List (Nat × Nat × Acc) := [(0, 1, .rw), (2, 6, .rw), (8, 3, .rw), (12, 4, .rw), (16, 12, .rw)]
def LANE_LMS_CMD_fs : List (Nat × Nat × Acc) := [(0, 2, .wo), (4, 4, .wo)]
def LANE_LMS_STAT_fs : List (Nat × Nat × Acc) := []
def LANE_LMS_GRAD_fs : List (Nat × Nat × Acc) := []
def LANE_HIST_CTRL_fs : List (Nat × Nat × Acc) := [(0, 1, .wo), (2, 2, .rw), (4, 2, .rw), (6, 4, .rw), (12, 4, .rw)]
def LANE_EYE_CTRL_fs : List (Nat × Nat × Acc) := [(0, 12, .rw)]
def LANE_EYE_CNT_fs : List (Nat × Nat × Acc) := []
def LANE_HIST_BIN_fs : List (Nat × Nat × Acc) := []
def FRM_LANE_CTRL_fs : List (Nat × Nat × Acc) := [(0, 1, .rw), (1, 2, .rw), (3, 2, .rw), (5, 1, .rw), (8, 3, .rw), (12, 3, .rw)]
def FRM_LANE_STATUS_fs : List (Nat × Nat × Acc) := []
def FRM_TX_CMD_fs : List (Nat × Nat × Acc) := [(0, 2, .wo)]
def FRM_TX_RESULT_fs : List (Nat × Nat × Acc) := []
def FRM_SQ_CTRL_fs : List (Nat × Nat × Acc) := [(0, 3, .rw)]
def FRM_FEC_CTRL_fs : List (Nat × Nat × Acc) := [(0, 1, .rw), (4, 4, .rw), (8, 5, .rw), (16, 4, .rw), (24, 8, .rw)]
def FRM_RX_ID_fs : List (Nat × Nat × Acc) := []
def FRM_SKEW_fs : List (Nat × Nat × Acc) := []
def FRM_CNT_CMD_fs : List (Nat × Nat × Acc) := [(0, 1, .wo)]
def FRM_EVT_fs : List (Nat × Nat × Acc) := [(0, 1, .w1c), (1, 1, .w1c), (2, 1, .w1c), (3, 1, .w1c), (4, 1, .w1c), (5, 1, .w1c), (6, 1, .w1c), (7, 1, .w1c)]
def FRM_RAD_LOAD_TX_fs : List (Nat × Nat × Acc) := []
def FRM_RAD_LOAD_RX_fs : List (Nat × Nat × Acc) := []
def FRM_CNT_CORR_SYM_fs : List (Nat × Nat × Acc) := []
def FRM_CNT_CORR_CW_fs : List (Nat × Nat × Acc) := []
def FRM_CNT_UNCORR_CW_fs : List (Nat × Nat × Acc) := []
def FRM_CNT_ERASED_fs : List (Nat × Nat × Acc) := []
def FRM_CNT_ERA_SAVED_fs : List (Nat × Nat × Acc) := []
def FRM_CNT_TAIL_CW_fs : List (Nat × Nat × Acc) := []
def FRM_CNT_OH_CRC_fs : List (Nat × Nat × Acc) := []
def FRM_CNT_FRAME_LOST_fs : List (Nat × Nat × Acc) := []
def FRM_CNT_CTR_UNDER_fs : List (Nat × Nat × Acc) := []
def FRM_CNT_CTR_OVER_fs : List (Nat × Nat × Acc) := []
def FRM_CNT_CTR_FMT_fs : List (Nat × Nat × Acc) := []
def FRM_TCTR_fs : List (Nat × Nat × Acc) := [(0, 1, .rw), (1, 3, .rw), (4, 2, .rw)]
def FRM_RCTR_fs : List (Nat × Nat × Acc) := [(0, 1, .rw), (1, 3, .rw), (4, 2, .rw), (8, 4, .rw)]
def HOST_CTRL_fs : List (Nat × Nat × Acc) := [(0, 3, .rw), (3, 1, .rw), (4, 1, .rw), (5, 1, .rw), (6, 1, .rw), (7, 1, .rw), (8, 1, .rw), (9, 1, .rw), (16, 7, .rw)]
def HOST_STATUS_fs : List (Nat × Nat × Acc) := []
def HOST_CMD_fs : List (Nat × Nat × Acc) := [(0, 3, .wo)]
def HOST_RESULT_fs : List (Nat × Nat × Acc) := []
def HOST_EVT_fs : List (Nat × Nat × Acc) := [(0, 1, .w1c), (1, 1, .w1c), (2, 1, .w1c), (3, 1, .w1c), (4, 1, .w1c), (5, 1, .w1c), (6, 1, .w1c), (7, 1, .w1c)]
def HOST_TRAIN_REQ_fs : List (Nat × Nat × Acc) := [(0, 16, .rw)]
def HOST_TX_FIR_fs : List (Nat × Nat × Acc) := [(0, 7, .rw)]
def HOST_RX_EQ_fs : List (Nat × Nat × Acc) := [(0, 3, .rw)]
def HOST_PAT_CTRL_fs : List (Nat × Nat × Acc) := [(0, 4, .rw), (4, 4, .rw), (8, 1, .rw), (9, 1, .rw), (10, 1, .wo), (11, 1, .wo)]
def HOST_PAT_USER_L_fs : List (Nat × Nat × Acc) := [(0, 32, .rw)]
def HOST_PAT_USER_H_fs : List (Nat × Nat × Acc) := [(0, 32, .rw)]
def HOST_PAT_ERR_fs : List (Nat × Nat × Acc) := []
def HOST_PAT_BITS_L_fs : List (Nat × Nat × Acc) := []
def HOST_PAT_BITS_H_fs : List (Nat × Nat × Acc) := []
def HOST_FEC_CMD_fs : List (Nat × Nat × Acc) := [(0, 1, .wo)]
def HOST_FEC_CW_fs : List (Nat × Nat × Acc) := []
def HOST_FEC_SYM_fs : List (Nat × Nat × Acc) := []
def HOST_FEC_UNC_fs : List (Nat × Nat × Acc) := []
def HOST_FEC_BIN_fs : List (Nat × Nat × Acc) := []
def HOST_JESD_RX_CFG_fs : List (Nat × Nat × Acc) := [(0, 2, .rw), (2, 6, .rw), (8, 2, .rw), (10, 3, .rw), (13, 5, .rw)]
def HOST_JESD_TX_CFG_fs : List (Nat × Nat × Acc) := [(0, 2, .rw), (2, 6, .rw), (8, 2, .rw), (10, 3, .rw), (13, 5, .rw)]
def HOST_JESD_DL_fs : List (Nat × Nat × Acc) := [(0, 13, .rw)]
def HOST_JESD_SYS_fs : List (Nat × Nat × Acc) := [(0, 2, .rw), (2, 1, .wo), (8, 8, .rw)]
def HOST_JESD_STAT_fs : List (Nat × Nat × Acc) := []
def BND_EVT_fs : List (Nat × Nat × Acc) := [(0, 1, .w1c), (1, 1, .w1c), (2, 1, .w1c), (3, 1, .w1c), (4, 1, .w1c), (5, 1, .w1c), (6, 1, .w1c), (7, 1, .w1c), (8, 1, .w1c)]
def BND_SYNC_CTRL_fs : List (Nat × Nat × Acc) := [(0, 2, .rw), (2, 1, .wo), (8, 8, .rw), (16, 8, .rw)]
def BND_SYNC_STAT_fs : List (Nat × Nat × Acc) := []
def BND_SYNC_TIME_fs : List (Nat × Nat × Acc) := []
def BND_SYNC_CMD_fs : List (Nat × Nat × Acc) := [(0, 32, .wo)]
def BND_SYNC_RESULT_fs : List (Nat × Nat × Acc) := []
def BND_BFP_ERR_fs : List (Nat × Nat × Acc) := []
def BND_TIME_L_fs : List (Nat × Nat × Acc) := []
def BND_TIME_H_fs : List (Nat × Nat × Acc) := []
def BND_ADM_RES_fs : List (Nat × Nat × Acc) := [(0, 32, .rw)]
def BND_ADM_STAT_fs : List (Nat × Nat × Acc) := []
def BND_ADM_THR_fs : List (Nat × Nat × Acc) := [(0, 10, .rw), (16, 10, .rw)]
def BND_MEAS_CTRL_fs : List (Nat × Nat × Acc) := [(0, 1, .wo), (4, 4, .rw), (16, 16, .rw)]
def BND_MEAS_T0_fs : List (Nat × Nat × Acc) := []
def BND_MEAS_SRC_fs : List (Nat × Nat × Acc) := [(0, 7, .rw), (8, 2, .rw)]
def BND_MEAS_FW_fs : List (Nat × Nat × Acc) := [(0, 32, .rw)]
def BND_MEAS_RE_fs : List (Nat × Nat × Acc) := []
def BND_MEAS_IM_fs : List (Nat × Nat × Acc) := []
def BND_PIN_fs : List (Nat × Nat × Acc) := [(0, 1, .rw), (1, 2, .rw), (3, 3, .rw), (6, 2, .rw), (8, 3, .rw), (11, 7, .rw), (18, 4, .rw)]
def BND_PIN2_fs : List (Nat × Nat × Acc) := [(0, 16, .rw)]
def BND_POUT_fs : List (Nat × Nat × Acc) := [(0, 1, .rw), (1, 2, .rw), (3, 3, .rw), (6, 2, .rw), (8, 3, .rw), (11, 7, .rw), (18, 4, .rw), (22, 2, .rw)]
def BND_POUT2_fs : List (Nat × Nat × Acc) := [(0, 10, .rw)]
def BND_PATH_CFG_fs : List (Nat × Nat × Acc) := [(0, 3, .rw), (3, 3, .rw), (6, 1, .rw), (7, 1, .rw), (8, 1, .rw), (10, 2, .rw), (16, 10, .rw)]
def BND_PATH_CFG2_fs : List (Nat × Nat × Acc) := [(0, 10, .rw)]
def BND_PATH_CMD_fs : List (Nat × Nat × Acc) := [(0, 2, .wo)]
def BND_PATH_STAT_fs : List (Nat × Nat × Acc) := []
def BND_PATH_NCO_fs : List (Nat × Nat × Acc) := [(0, 32, .rw)]
def BND_PATH_PH0_fs : List (Nat × Nat × Acc) := [(0, 16, .rw)]
def BND_PATH_IQB_fs : List (Nat × Nat × Acc) := [(0, 32, .rw)]
def BND_PATH_DC_fs : List (Nat × Nat × Acc) := [(0, 32, .rw)]
def BND_PATH_GAIN_fs : List (Nat × Nat × Acc) := [(0, 20, .rw)]
def BND_PATH_DELAY_fs : List (Nat × Nat × Acc) := []
def BND_PATH_CF_fs : List (Nat × Nat × Acc) := [(0, 8, .rw), (8, 1, .rw), (9, 4, .rw), (13, 1, .wo)]
def BND_PATH_CXCMD_fs : List (Nat × Nat × Acc) := [(0, 1, .wo)]
def BND_PATH_SAT_fs : List (Nat × Nat × Acc) := []
def BND_PATH_CXL_fs : List (Nat × Nat × Acc) := [(0, 12, .rw), (12, 1, .rw)]
def BND_PATH_MTR_CTRL_fs : List (Nat × Nat × Acc) := [(0, 5, .rw)]
def BND_PATH_MTR_IN_fs : List (Nat × Nat × Acc) := []
def BND_PATH_MTR_RES_fs : List (Nat × Nat × Acc) := []
def BND_PATH_MTR_OUT_fs : List (Nat × Nat × Acc) := []
def BND_PATH_CFC_fs : List (Nat × Nat × Acc) := [(0, 18, .rw)]
def BND_PATH_CXT_fs : List (Nat × Nat × Acc) := [(0, 32, .rw)]
def BND_PATH_CXA_fs : List (Nat × Nat × Acc) := []
def RPT_EVT_fs : List (Nat × Nat × Acc) := [(0, 1, .w1c), (1, 1, .w1c), (2, 1, .w1c), (3, 1, .w1c), (4, 1, .w1c), (5, 1, .w1c), (6, 1, .w1c), (7, 1, .w1c), (8, 1, .w1c)]
def RPT_CHG_fs : List (Nat × Nat × Acc) := [(0, 32, .w1c)]
def RPT_MUTE_CTRL_fs : List (Nat × Nat × Acc) := [(0, 1, .rw), (1, 1, .rw), (2, 1, .rw), (8, 8, .rw), (16, 8, .rw)]
def RPT_MUTE_CNT_fs : List (Nat × Nat × Acc) := []
def RPT_CEIL_fs : List (Nat × Nat × Acc) := [(16, 16, .rw)]
def RPT_GRD_CTRL_fs : List (Nat × Nat × Acc) := [(0, 16, .rw), (16, 4, .rw), (24, 8, .rw)]
def RPT_DONOR_STAT_fs : List (Nat × Nat × Acc) := []
def RPT_PATH_CFG_fs : List (Nat × Nat × Acc) := [(0, 2, .rw), (2, 1, .rw), (3, 2, .rw), (8, 4, .rw), (12, 1, .rw), (13, 1, .rw), (14, 1, .rw)]
def RPT_PATH_CMD_fs : List (Nat × Nat × Acc) := [(0, 3, .wo)]
def RPT_PATH_STAT_fs : List (Nat × Nat × Acc) := []
def RPT_PATH_LIM_fs : List (Nat × Nat × Acc) := [(0, 10, .rw), (16, 16, .rw)]
def RPT_PATH_ISO_fs : List (Nat × Nat × Acc) := [(0, 12, .rw), (16, 10, .rw), (31, 1, .rw)]
def RPT_PATH_APP_fs : List (Nat × Nat × Acc) := []
def RPT_PATH_ATT_A_fs : List (Nat × Nat × Acc) := []
def RPT_PATH_ATT_B_fs : List (Nat × Nat × Acc) := []
def RPT_PATH_RAMP_fs : List (Nat × Nat × Acc) := [(0, 6, .rw), (8, 8, .rw)]
def RPT_PATH_OSC_fs : List (Nat × Nat × Acc) := [(0, 4, .rw), (4, 3, .rw), (8, 5, .rw), (16, 4, .rw)]
def RPT_PATH_NR_fs : List (Nat × Nat × Acc) := [(0, 8, .rw), (8, 4, .rw), (12, 6, .rw), (20, 4, .rw), (24, 8, .rw)]
def RPT_PATH_NRC_fs : List (Nat × Nat × Acc) := [(0, 16, .rw), (16, 16, .rw)]
def RPT_PATH_NRS_fs : List (Nat × Nat × Acc) := []
def RPT_PATH_LD_fs : List (Nat × Nat × Acc) := [(0, 8, .rw), (8, 6, .rw)]
def LST_EVT_fs : List (Nat × Nat × Acc) := [(0, 1, .w1c), (1, 1, .w1c), (2, 1, .w1c), (3, 1, .w1c), (4, 1, .w1c), (5, 1, .w1c), (8, 1, .w1c), (9, 1, .w1c), (10, 1, .w1c), (11, 1, .w1c), (12, 1, .w1c), (13, 1, .w1c), (16, 1, .w1c), (17, 1, .w1c)]
def LST_CTRL_fs : List (Nat × Nat × Acc) := [(0, 8, .rw), (8, 16, .rw)]
def LST_ALLOW_fs : List (Nat × Nat × Acc) := [(0, 10, .rw), (10, 1, .rw), (12, 4, .rw), (16, 1, .rw)]
def LST_NF_CFG_fs : List (Nat × Nat × Acc) := [(0, 10, .rw), (10, 1, .rw), (11, 1, .rw), (12, 1, .rw), (16, 4, .rw)]
def LST_NF_CFG2_fs : List (Nat × Nat × Acc) := [(0, 16, .rw)]
def LST_NF_fs : List (Nat × Nat × Acc) := []
def LST_CH_CTRL_fs : List (Nat × Nat × Acc) := [(0, 2, .rw), (2, 1, .rw), (3, 1, .rw), (4, 1, .rw), (5, 1, .rw), (8, 4, .rw), (16, 10, .rw), (26, 1, .rw)]
def LST_CH_SRC_fs : List (Nat × Nat × Acc) := [(0, 10, .rw)]
def LST_CH_NCO_fs : List (Nat × Nat × Acc) := [(0, 32, .rw)]
def LST_CH_THR_fs : List (Nat × Nat × Acc) := [(0, 8, .rw), (8, 8, .rw), (16, 6, .rw), (24, 8, .rw)]
def LST_CH_CAL_fs : List (Nat × Nat × Acc) := [(0, 16, .rw), (16, 16, .rw)]
def LST_CH_CMD_fs : List (Nat × Nat × Acc) := [(0, 2, .wo)]
def LST_CH_STAT_fs : List (Nat × Nat × Acc) := []
def LST_RX_STAT_fs : List (Nat × Nat × Acc) := []
def LST_RX_CELL_fs : List (Nat × Nat × Acc) := []
def LST_RX_TIME_L_fs : List (Nat × Nat × Acc) := []
def LST_RX_TIME_H_fs : List (Nat × Nat × Acc) := []
def LST_RX_PWR_fs : List (Nat × Nat × Acc) := []
def LST_MIB_fs : List (Nat × Nat × Acc) := []
def LST_FRAME_L_fs : List (Nat × Nat × Acc) := []
def LST_FRAME_H_fs : List (Nat × Nat × Acc) := []
def LST_FRAME_OFS_fs : List (Nat × Nat × Acc) := [(0, 32, .rw)]
def LST_TDD_A_fs : List (Nat × Nat × Acc) := [(0, 32, .rw)]
def LST_TDD_B_fs : List (Nat × Nat × Acc) := [(0, 8, .rw), (8, 5, .rw), (13, 1, .rw), (16, 4, .rw), (20, 4, .rw), (24, 1, .rw)]
def LST_CH_CNT_fs : List (Nat × Nat × Acc) := []
def LST_NRBUF_CTRL_fs : List (Nat × Nat × Acc) := [(1, 1, .wo)]
def LST_NRBUF_fs : List (Nat × Nat × Acc) := []
def FEN_EVT_fs : List (Nat × Nat × Acc) := [(0, 1, .w1c), (1, 1, .w1c), (2, 1, .w1c), (4, 1, .w1c), (5, 1, .w1c), (6, 1, .w1c), (8, 1, .w1c), (9, 1, .w1c), (10, 1, .w1c), (12, 1, .w1c), (13, 1, .w1c), (14, 1, .w1c), (16, 4, .w1c), (20, 1, .w1c), (21, 1, .w1c), (22, 1, .w1c), (23, 1, .w1c)]
def FEN_RFC_OWN_L_fs : List (Nat × Nat × Acc) := [(0, 32, .rw)]
def FEN_RFC_OWN_H_fs : List (Nat × Nat × Acc) := [(0, 32, .rw)]
def FEN_RFC_SAFE_fs : List (Nat × Nat × Acc) := []
def FEN_RFC_LEVEL_fs : List (Nat × Nat × Acc) := []
def FEN_COEX_CTRL_fs : List (Nat × Nat × Acc) := [(0, 1, .rw), (1, 2, .rw), (3, 1, .rw), (4, 1, .rw), (16, 16, .rw)]
def FEN_COEX_CFG_fs : List (Nat × Nat × Acc) := [(0, 16, .rw), (16, 8, .rw)]
def FEN_COEX_STAT_fs : List (Nat × Nat × Acc) := []
def FEN_COEX_CNT_fs : List (Nat × Nat × Acc) := []
def FEN_SEQ_CTRL_fs : List (Nat × Nat × Acc) := [(0, 1, .rw), (1, 1, .rw), (2, 1, .rw), (3, 1, .rw), (4, 2, .rw), (6, 2, .rw), (8, 1, .rw)]
def FEN_SEQ_CMD_fs : List (Nat × Nat × Acc) := [(0, 3, .wo), (16, 16, .wo)]
def FEN_SEQ_STAT_fs : List (Nat × Nat × Acc) := []
def FEN_SEQ_TIM_fs : List (Nat × Nat × Acc) := [(0, 16, .rw), (16, 16, .rw)]
def FEN_SEQ_TIM2_fs : List (Nat × Nat × Acc) := [(0, 16, .rw)]
def FEN_SEQ_OFS_fs : List (Nat × Nat × Acc) := [(0, 32, .rw)]
def FEN_SEQ_HOLD_fs : List (Nat × Nat × Acc) := [(0, 8, .rw), (8, 8, .rw), (16, 16, .rw)]
def FEN_SEQ_LOCK_fs : List (Nat × Nat × Acc) := [(0, 16, .rw)]
def FEN_SEQ_PAT_fs : List (Nat × Nat × Acc) := [(0, 32, .rw)]
def FEN_SEQ_CAL_fs : List (Nat × Nat × Acc) := [(0, 7, .rw), (8, 7, .rw), (16, 4, .rw), (24, 8, .rw)]
def FEN_SEQ_CALFW_fs : List (Nat × Nat × Acc) := [(0, 32, .rw)]
def FEN_SEQ_CALAMP_fs : List (Nat × Nat × Acc) := [(0, 16, .rw)]
def FEN_SEQ_CALRES_fs : List (Nat × Nat × Acc) := []
def FEN_SEQ_CNT_fs : List (Nat × Nat × Acc) := []
def FEN_SPI_CFG_fs : List (Nat × Nat × Acc) := [(0, 8, .rw), (8, 1, .rw), (9, 5, .rw), (14, 1, .rw), (16, 4, .rw)]
def FEN_SPI_CMD_fs : List (Nat × Nat × Acc) := [(0, 1, .wo)]
def FEN_SPI_STAT_fs : List (Nat × Nat × Acc) := []
def FEN_SPI_DATA_fs : List (Nat × Nat × Acc) := [(0, 32, .rw)]
def OWN_CORE_CTRL_fs : List (Nat × Nat × Acc) := [(0, 3, .wok), (3, 1, .key)]
def OWN_CORE_STAT_fs : List (Nat × Nat × Acc) := [(8, 8, .w1c)]
def OWN_CORE_RESULT_fs : List (Nat × Nat × Acc) := []
def OWN_LD_SRC_fs : List (Nat × Nat × Acc) := [(0, 32, .key)]
def OWN_LD_CMD_fs : List (Nat × Nat × Acc) := [(0, 4, .key), (4, 1, .wok)]
def OWN_LD_RESULT_fs : List (Nat × Nat × Acc) := []
def OWN_LD_FLOOR_fs : List (Nat × Nat × Acc) := [(0, 32, .key)]
def OWN_LD_KEYTAB_fs : List (Nat × Nat × Acc) := [(0, 32, .key)]
def EVR_PEND_fs : List (Nat × Nat × Acc) := [(0, 32, .w1c)]
def EVR_RAISE_fs : List (Nat × Nat × Acc) := [(0, 9, .wo)]
def EVR_NEXT_fs : List (Nat × Nat × Acc) := []
def EVR_WDOG_CTRL_fs : List (Nat × Nat × Acc) := [(0, 1, .rwl), (1, 1, .rwlo), (16, 16, .rwl)]
def EVR_WDOG_KICK_fs : List (Nat × Nat × Acc) := [(0, 32, .wo)]
def EVR_WDOG_STAT_fs : List (Nat × Nat × Acc) := []
def EVR_LOCK_STAT_fs : List (Nat × Nat × Acc) := []
def EVR_LOCK_PC_fs : List (Nat × Nat × Acc) := []
def EVR_ROUTE_fs : List (Nat × Nat × Acc) := [(0, 4, .rw), (4, 1, .rw), (5, 2, .rw), (7, 1, .rw)]
def PMC_SEL_fs : List (Nat × Nat × Acc) := [(0, 6, .rw), (8, 8, .rw), (16, 3, .rw), (19, 1, .rw), (20, 2, .rw), (22, 1, .rw), (23, 1, .w1c)]
def PMC_CNT_L_fs : List (Nat × Nat × Acc) := [(0, 32, .rw)]
def PMC_CNT_H_fs : List (Nat × Nat × Acc) := [(0, 16, .rw)]
def PMC_CLS_fs : List (Nat × Nat × Acc) := [(0, 11, .rw)]
def PMC_RANGE_LO_fs : List (Nat × Nat × Acc) := [(0, 32, .rw)]
def PMC_RANGE_HI_fs : List (Nat × Nat × Acc) := [(0, 32, .rw)]
def PMC_SKID_fs : List (Nat × Nat × Acc) := []
def PMC_SKID_PC_fs : List (Nat × Nat × Acc) := []
def STO_NOR_CTRL_fs : List (Nat × Nat × Acc) := [(0, 4, .key)]
def STO_NOR_CMD_fs : List (Nat × Nat × Acc) := [(0, 8, .key), (8, 3, .key), (11, 4, .key), (15, 2, .key), (17, 1, .key), (18, 9, .key), (31, 1, .wok)]
def STO_NOR_ADDR_fs : List (Nat × Nat × Acc) := [(0, 32, .key)]
def STO_NOR_RESULT_fs : List (Nat × Nat × Acc) := []
def STO_NOR_BUF_fs : List (Nat × Nat × Acc) := [(0, 32, .key)]
def MEM_EVT_fs : List (Nat × Nat × Acc) := [(0, 1, .w1c), (1, 1, .w1c), (2, 1, .w1c)]
def MEM_FILL_STAT_fs : List (Nat × Nat × Acc) := []
def MEM_ARB_W_fs : List (Nat × Nat × Acc) := [(0, 4, .key), (4, 4, .key), (8, 4, .key), (12, 4, .key), (16, 4, .key), (20, 4, .key), (24, 4, .key)]
def MEM_CORR_fs : List (Nat × Nat × Acc) := []
def MEM_UE_ADDR_fs : List (Nat × Nat × Acc) := []
def MEM_UE_INFO_fs : List (Nat × Nat × Acc) := [(16, 1, .w1c), (17, 1, .w1c)]
def MEM_INJ_ADDR_fs : List (Nat × Nat × Acc) := [(0, 32, .key)]
def MEM_INJ_CTRL_fs : List (Nat × Nat × Acc) := [(0, 7, .key), (8, 7, .key), (15, 1, .key), (16, 1, .key)]
def MEM_SCRUB_fs : List (Nat × Nat × Acc) := [(0, 16, .rw), (16, 1, .rw)]
def DMA_EVT_fs : List (Nat × Nat × Acc) := [(0, 32, .w1c)]
def DMA_CH_DESC_fs : List (Nat × Nat × Acc) := [(0, 32, .rw)]
def DMA_CH_CMD_fs : List (Nat × Nat × Acc) := [(0, 2, .wo)]
def DMA_CH_STAT_fs : List (Nat × Nat × Acc) := [(4, 1, .w1c)]
def DMA_CH_SRC_fs : List (Nat × Nat × Acc) := [(0, 32, .rw)]
def DMA_CH_DST_fs : List (Nat × Nat × Acc) := [(0, 32, .rw)]
def DMA_CH_COUNT_fs : List (Nat × Nat × Acc) := [(0, 28, .rw)]
def DMA_CH_FADDR_fs : List (Nat × Nat × Acc) := []
def STO_CTRL_fs : List (Nat × Nat × Acc) := [(0, 2, .rw), (2, 3, .rw), (8, 10, .rw), (18, 1, .rw), (19, 3, .rw), (22, 10, .rw)]
def STO_CMD_fs : List (Nat × Nat × Acc) := [(0, 3, .wo), (3, 1, .wo), (4, 1, .wo), (5, 1, .wo), (6, 6, .wo), (12, 2, .wo)]
def STO_ARG_fs : List (Nat × Nat × Acc) := [(0, 32, .rw)]
def STO_CNT_fs : List (Nat × Nat × Acc) := [(0, 16, .rw)]
def STO_RESULT_fs : List (Nat × Nat × Acc) := []
def STO_RESP_fs : List (Nat × Nat × Acc) := []
def CRP_CLK_EVT_fs : List (Nat × Nat × Acc) := [(0, 1, .w1c), (1, 1, .w1c), (2, 1, .w1c)]
def CRP_CLK_STAT_fs : List (Nat × Nat × Acc) := [(4, 1, .w1c), (8, 1, .w1c)]
def CRP_REFMON_fs : List (Nat × Nat × Acc) := [(0, 12, .rw), (16, 12, .rw), (28, 4, .rw)]
def CRP_REFCNT_fs : List (Nat × Nat × Acc) := []
def CRP_PLL_CTRL_fs : List (Nat × Nat × Acc) := [(0, 1, .rw), (1, 1, .rw), (2, 1, .rw), (3, 1, .rw), (4, 1, .rw)]
def CRP_PLL_STAT_fs : List (Nat × Nat × Acc) := []
def CRP_BPLL_TRIM_fs : List (Nat × Nat × Acc) := [(0, 28, .rw)]
def CRP_BPLL_APPLIED_fs : List (Nat × Nat × Acc) := []
def CRP_SYS_SEL_fs : List (Nat × Nat × Acc) := [(0, 1, .key)]
def CRP_CLKOUT_fs : List (Nat × Nat × Acc) := [(0, 1, .rw), (1, 5, .rw), (16, 12, .rw)]
def CRP_AOSC_INC_fs : List (Nat × Nat × Acc) := [(0, 26, .rw), (28, 1, .rw)]
def CRP_AON_TIME_L_fs : List (Nat × Nat × Acc) := [(0, 32, .rw)]
def CRP_AON_TIME_H_fs : List (Nat × Nat × Acc) := [(0, 32, .rw)]
def CRP_GATE_STAT_fs : List (Nat × Nat × Acc) := []
def CRP_GATE_FORCE_fs : List (Nat × Nat × Acc) := [(0, 24, .key)]
def RST_CAUSE_fs : List (Nat × Nat × Acc) := [(0, 1, .w1c), (1, 1, .w1c), (2, 1, .w1c), (3, 1, .w1c), (4, 1, .w1c), (5, 1, .w1c), (6, 1, .w1c), (16, 1, .rwl)]
def CRP_CMD_RESET_fs : List (Nat × Nat × Acc) := [(0, 32, .ocmd)]
def CRP_BLK_RST_fs : List (Nat × Nat × Acc) := [(0, 27, .key)]
def CRP_BLK_RST_STAT_fs : List (Nat × Nat × Acc) := []
def CRP_ATTIC_STAT_fs : List (Nat × Nat × Acc) := []
def CRP_BOOT_STAT_fs : List (Nat × Nat × Acc) := []
def CRP_RST_EVT_fs : List (Nat × Nat × Acc) := [(0, 1, .w1c), (1, 1, .w1c)]
def PWR_MODE_fs : List (Nat × Nat × Acc) := [(0, 2, .key), (2, 1, .key)]
def PWR_STAT_fs : List (Nat × Nat × Acc) := [(11, 1, .w1c), (12, 1, .w1c), (13, 1, .w1c), (14, 1, .w1c)]
def PWR_WAKE_EN_fs : List (Nat × Nat × Acc) := [(0, 5, .rw), (8, 1, .rw), (16, 8, .rw)]
def PWR_ALARM_fs : List (Nat × Nat × Acc) := [(0, 32, .rw)]
def PWR_LARDER_fs : List (Nat × Nat × Acc) := [(0, 12, .key)]
def PWR_LARDER_FAIL_fs : List (Nat × Nat × Acc) := []
def PWR_AVS_CTRL_fs : List (Nat × Nat × Acc) := [(0, 16, .key), (16, 16, .key)]
def PWR_AVS_REQ_fs : List (Nat × Nat × Acc) := [(0, 16, .key), (16, 1, .key), (17, 1, .wo)]
def PWR_AVS_STAT_fs : List (Nat × Nat × Acc) := []
def TH_CTRL_fs : List (Nat × Nat × Acc) := [(0, 10, .rw), (16, 8, .rw)]
def TH_CMD_fs : List (Nat × Nat × Acc) := [(0, 9, .wo)]
def TH_STAT_fs : List (Nat × Nat × Acc) := []
def TH_THR_fs : List (Nat × Nat × Acc) := [(0, 16, .rw), (16, 9, .rw)]
def TH_SENS_fs : List (Nat × Nat × Acc) := []
def PWR_EVT_fs : List (Nat × Nat × Acc) := [(0, 1, .w1c), (1, 1, .w1c), (2, 1, .w1c), (3, 1, .w1c), (4, 1, .w1c), (5, 1, .w1c)]
def HKC_EVT_fs : List (Nat × Nat × Acc) := [(0, 1, .w1c), (1, 1, .w1c)]
def HKC_SCAN_CTRL_fs : List (Nat × Nat × Acc) := [(0, 1, .wo), (1, 1, .rw), (8, 5, .rw)]
def HKC_SCAN_T0_fs : List (Nat × Nat × Acc) := []
def HKC_ENT_fs : List (Nat × Nat × Acc) := [(0, 6, .rw), (8, 2, .rw), (12, 3, .rw), (16, 16, .rw)]
def HKC_RES_fs : List (Nat × Nat × Acc) := []
def HKD_CTRL_fs : List (Nat × Nat × Acc) := [(0, 1, .rw), (1, 1, .rw), (2, 1, .rw), (3, 1, .rw)]
def HKD_VAL_fs : List (Nat × Nat × Acc) := [(0, 16, .rw), (16, 16, .rw)]
def HKD_FW_fs : List (Nat × Nat × Acc) := [(0, 32, .rw)]
def HKD_STAT_fs : List (Nat × Nat × Acc) := []
def GRD_CTRL_fs : List (Nat × Nat × Acc) := [(0, 1, .rwlk)]
def GRD_STAT_fs : List (Nat × Nat × Acc) := []
def GRD_TRIP_CLR_fs : List (Nat × Nat × Acc) := [(0, 8, .wo)]
def GRD_SWING_fs : List (Nat × Nat × Acc) := [(16, 8, .key)]
def GRD_GAIN_fs : List (Nat × Nat × Acc) := [(16, 16, .key)]
def GRD_PIN_fs : List (Nat × Nat × Acc) := []
def GRD_PIN_ATT_fs : List (Nat × Nat × Acc) := []
def GRD_PIN_LIM_fs : List (Nat × Nat × Acc) := [(0, 16, .key), (16, 16, .key)]
def OWN_KEYSLOT_fs : List (Nat × Nat × Acc) := []
def OWN_KEYSLOT_HASH_fs : List (Nat × Nat × Acc) := []
def OWN_FUSE_CMD_fs : List (Nat × Nat × Acc) := [(0, 2, .kop), (4, 4, .key)]
def OWN_FUSE_BUF_fs : List (Nat × Nat × Acc) := [(0, 32, .key)]
def OWN_FUSE_RESULT_fs : List (Nat × Nat × Acc) := []
def OWN_EVT_fs : List (Nat × Nat × Acc) := [(0, 1, .w1c), (1, 1, .w1c), (2, 1, .w1c), (3, 1, .w1c), (4, 1, .w1c)]
def OWN_STAT_fs : List (Nat × Nat × Acc) := []
def OWN_CLAIM_fs : List (Nat × Nat × Acc) := [(0, 32, .wo)]
def OWN_ACCEPT_fs : List (Nat × Nat × Acc) := [(0, 32, .wo)]
def OWN_LEASE_fs : List (Nat × Nat × Acc) := [(0, 1, .wo)]
def OWN_LEASE_CFG_fs : List (Nat × Nat × Acc) := [(0, 16, .own)]
def OWN_HANDOVER_fs : List (Nat × Nat × Acc) := [(0, 3, .own), (4, 12, .own)]
def OWN_HO_RESULT_fs : List (Nat × Nat × Acc) := []
def OWN_POLICY_fs : List (Nat × Nat × Acc) := []
def OWN_RLOG_STAT_fs : List (Nat × Nat × Acc) := []
def OWN_RLOG_ADDR_fs : List (Nat × Nat × Acc) := []
def OWN_RLOG_SEC_fs : List (Nat × Nat × Acc) := []
def OWN_RLOG_INFO_fs : List (Nat × Nat × Acc) := []
def OWN_RLOG_FRAC_fs : List (Nat × Nat × Acc) := []
def OWN_HATCH_STAT_fs : List (Nat × Nat × Acc) := []
def OWN_ZERO_fs : List (Nat × Nat × Acc) := [(1, 1, .w1c), (2, 1, .kcmd)]
def OWN_SECRET_LO_fs : List (Nat × Nat × Acc) := [(0, 1, .rwlk), (12, 20, .rwlk)]
def OWN_SECRET_HI_fs : List (Nat × Nat × Acc) := [(12, 20, .rwlk)]
def OWN_ID_fs : List (Nat × Nat × Acc) := []
def OWN_SIGN_CMD_fs : List (Nat × Nat × Acc) := [(0, 2, .oop)]
def OWN_SIGN_BUF_fs : List (Nat × Nat × Acc) := [(0, 32, .own)]
def OWN_SIGN_RESULT_fs : List (Nat × Nat × Acc) := []
def OWN_IDPUB_fs : List (Nat × Nat × Acc) := []
def SNK_EVT_fs : List (Nat × Nat × Acc) := [(0, 1, .w1c), (1, 1, .w1c), (2, 1, .w1c), (3, 1, .w1c), (4, 1, .w1c), (5, 1, .w1c), (6, 1, .w1c), (7, 1, .w1c), (8, 1, .w1c)]
def SNK_ADDR_fs : List (Nat × Nat × Acc) := [(0, 12, .own), (12, 1, .own)]
def SNK_CFG_fs : List (Nat × Nat × Acc) := [(0, 10, .rw), (16, 8, .rw), (24, 8, .rw)]
def SNK_LINK_EN_fs : List (Nat × Nat × Acc) := [(0, 10, .rw)]
def SNK_DISC_fs : List (Nat × Nat × Acc) := []
def SNK_LINK_STAT_fs : List (Nat × Nat × Acc) := []
def SNK_DROP_fs : List (Nat × Nat × Acc) := []
def SNK_TX_ADDR_fs : List (Nat × Nat × Acc) := [(0, 32, .rw)]
def SNK_TX_CMD_fs : List (Nat × Nat × Acc) := [(0, 1, .wo), (4, 4, .rw)]
def SNK_TX_RESULT_fs : List (Nat × Nat × Acc) := []
def SNK_RXR_BASE_fs : List (Nat × Nat × Acc) := [(0, 32, .rw)]
def SNK_RXR_CTRL_fs : List (Nat × Nat × Acc) := [(0, 4, .rw), (4, 10, .rw), (31, 1, .rw)]
def SNK_RRA_CTRL_fs : List (Nat × Nat × Acc) := [(0, 12, .rw), (12, 2, .rw), (16, 5, .rw), (24, 1, .wo)]
def SNK_RRA_ADDR_fs : List (Nat × Nat × Acc) := [(0, 32, .rw)]
def SNK_RRA_RESULT_fs : List (Nat × Nat × Acc) := []
def SNK_RRA_DATA_fs : List (Nat × Nat × Acc) := [(0, 32, .rw)]
def SNK_PAIR_CTRL_fs : List (Nat × Nat × Acc) := [(0, 1, .own), (1, 1, .own), (4, 12, .own), (16, 3, .own), (19, 1, .own), (24, 8, .own)]
def SNK_PAIR_TIM_fs : List (Nat × Nat × Acc) := [(0, 8, .own), (8, 4, .own), (16, 16, .own)]
def SNK_PAIR_CMD_fs : List (Nat × Nat × Acc) := [(0, 2, .oop)]
def SNK_PAIR_STAT_fs : List (Nat × Nat × Acc) := []
def SNK_ROUTE_fs : List (Nat × Nat × Acc) := [(0, 4, .rw)]
def CEL_STAT_fs : List (Nat × Nat × Acc) := []
def CEL_EVT_fs : List (Nat × Nat × Acc) := [(0, 1, .w1c), (1, 1, .w1c), (2, 1, .w1c), (3, 1, .w1c)]
def CEL_TEMP_fs : List (Nat × Nat × Acc) := []
def CEL_REC_HEAD_fs : List (Nat × Nat × Acc) := []
def CEL_LOG_HEAD_fs : List (Nat × Nat × Acc) := []
def CEL_ID_ROM_VER_fs : List (Nat × Nat × Acc) := []
def CEL_ID_ROM_CRC_fs : List (Nat × Nat × Acc) := []
def CEL_ID_SEAL_CRC_fs : List (Nat × Nat × Acc) := []
def CEL_ID_KEY_ID_fs : List (Nat × Nat × Acc) := []
def CEL_ID_INTERVAL_fs : List (Nat × Nat × Acc) := []
def BST_EVT_fs : List (Nat × Nat × Acc) := [(0, 1, .w1c), (1, 1, .w1c)]
def BST_MEM_CTRL_fs : List (Nat × Nat × Acc) := [(0, 1, .rw), (16, 16, .rw)]
def BST_MEM_CMD_fs : List (Nat × Nat × Acc) := [(0, 5, .key), (16, 13, .key), (31, 1, .wok)]
def BST_MEM_RESULT_fs : List (Nat × Nat × Acc) := []
def BST_LB_CMD_fs : List (Nat × Nat × Acc) := [(0, 4, .rw), (4, 6, .rw), (31, 1, .wo)]
def BST_LB_RESULT_fs : List (Nat × Nat × Acc) := []
def BST_LB_CFG_fs : List (Nat × Nat × Acc) := [(0, 8, .rw)]
def BST_LEDGER_BASE_fs : List (Nat × Nat × Acc) := [(0, 32, .rw)]
def BST_LEDGER_HEAD_fs : List (Nat × Nat × Acc) := [(0, 8, .rw)]
def BST_LEDGER_SEQ_fs : List (Nat × Nat × Acc) := [(0, 32, .rw)]
def BST_MEM_UNIT_fs : List (Nat × Nat × Acc) := [(0, 1, .rw)]
def BST_LB_STAT_fs : List (Nat × Nat × Acc) := [(0, 1, .w1c)]
def BST_REPAIR_fs : List (Nat × Nat × Acc) := [(0, 13, .key), (31, 1, .key)]

end Sys2Proof.Machine
end

