-- ==== Sys2Proof/Machine/RegTable.lean ====
section
/-! DEFINITION. The register tables of the spec as data: for every register its address (with its indices), its reset word
(R8; an attic field at the value the part has before or without a valid attic, R400) and the access codes (R9) of its
fields. Written from the register tables of each chapter; a field of access RO and a reserved field have no entry. -/

namespace Sys2Proof.Machine

/-- One register row: address `base + s1 * i + s2 * j` for `i < n1`, `j < n2`; reset word; writable fields (low bit, width,
access). -/
structure RegRow where
  base : Nat
  n1 : Nat
  s1 : Nat
  n2 : Nat
  s2 : Nat
  reset : Nat → Nat → Nat
  fields : List (Nat × Nat × Acc)

/-- The indices of `a` in the row, if `a` is one of its registers. -/
def RegRow.index (r : RegRow) (a : Nat) : Option (Nat × Nat) :=
  if a < r.base then none
  else
    let d := a - r.base
    let i := if r.n1 = 1 then 0 else d / r.s1
    let e := d - r.s1 * i
    let j := if r.n2 = 1 then 0 else e / r.s2
    if i < r.n1 ∧ j < r.n2 ∧ e = r.s2 * j then some (i, j) else none

def regsLane0 : List RegRow := [
  ⟨0x20000000, 8, 1048576, 1, 4, fun _ _ => 18, LANE_ADC_CTRL_fs⟩,
  ⟨0x20000004, 8, 1048576, 1, 4, fun _ _ => 64, LANE_ADC_STATUS_fs⟩,
  ⟨0x20000008, 8, 1048576, 1, 4, fun _ _ => 0, LANE_CAL_CMD_fs⟩,
  ⟨0x2000000c, 8, 1048576, 1, 4, fun _ _ => 0, LANE_CAL_RESULT_fs⟩,
  ⟨0x20000010, 8, 1048576, 1, 4, fun _ _ => 1092, LANE_RAMP_CTRL_fs⟩,
  ⟨0x20000014, 8, 1048576, 1, 4, fun _ _ => 0, LANE_ADC_EVT_fs⟩,
  ⟨0x20000100, 8, 1048576, 65, 16, fun _ _ => 0, LANE_SLICE_TGT_fs⟩,
  ⟨0x20000104, 8, 1048576, 65, 16, fun _ _ => 0, LANE_SLICE_TSKEW_fs⟩,
  ⟨0x20000108, 8, 1048576, 65, 16, fun _ _ => 0, LANE_SLICE_CUR_fs⟩,
  ⟨0x2000010c, 8, 1048576, 65, 16, fun _ j => 0 + (if j ≤ 63 then j else 0) * 65536 + (if j = 64 then 1 else 0) * 16777216, LANE_SLICE_CSKEW_fs⟩,
  ⟨0x20000800, 8, 1048576, 1, 4, fun _ _ => 86016, LANE_TX_CTRL_fs⟩,
  ⟨0x20000804, 8, 1048576, 1, 4, fun _ _ => 0, LANE_TX_COMMIT_fs⟩,
  ⟨0x20000808, 8, 1048576, 1, 4, fun _ _ => 0, LANE_TX_STATUS_fs⟩,
  ⟨0x20000810, 8, 1048576, 8, 4, fun _ _ => 0, LANE_TX_FIR_fs⟩,
  ⟨0x20000c00, 8, 1048576, 256, 4, fun _ _ => 0, LANE_TX_PDA_fs⟩,
  ⟨0x20001000, 8, 1048576, 256, 4, fun _ _ => 0, LANE_TX_PDB_fs⟩,
  ⟨0x20002000, 8, 1048576, 1, 4, fun _ _ => 394372, LANE_DET_CTRL_fs⟩,
  ⟨0x20002004, 8, 1048576, 1, 4, fun _ _ => 0, LANE_DET_STATUS_fs⟩,
  ⟨0x20002008, 8, 1048576, 1, 4, fun _ _ => 0, LANE_DET_CMD_fs⟩,
  ⟨0x2000200c, 8, 1048576, 1, 4, fun _ _ => 0, LANE_DET_RESULT_fs⟩,
  ⟨0x20002010, 8, 1048576, 1, 4, fun _ _ => 0, LANE_DET_EVT_fs⟩,
  ⟨0x20002014, 8, 1048576, 1, 4, fun _ _ => 17043472, LANE_DET_MON_fs⟩,
  ⟨0x20002018, 8, 1048576, 1, 4, fun _ _ => 0, LANE_SEAM_CNT_fs⟩,
  ⟨0x20002020, 8, 1048576, 1, 4, fun _ _ => 67649288, LANE_EQ_CTRL_fs⟩,
  ⟨0x20002100, 8, 1048576, 48, 4, fun _ j => 0 + (if j = 8 then 1024 else 0) + (if j = 8 then 1024 else 0) * 65536, LANE_EQ_TAP_fs⟩]

def regsLane1 : List RegRow := [
  ⟨0x20002040, 8, 1048576, 1, 4, fun _ _ => 13111360, LANE_TR_CTRL_fs⟩,
  ⟨0x20002044, 8, 1048576, 1, 4, fun _ _ => 0, LANE_TR_PHASE_fs⟩,
  ⟨0x20002048, 8, 1048576, 1, 4, fun _ _ => 0, LANE_TR_FREQ_fs⟩,
  ⟨0x20002060, 8, 1048576, 1, 4, fun _ _ => 128, LANE_TRL_CTRL_fs⟩,
  ⟨0x20002064, 8, 1048576, 1, 4, fun _ _ => 0, LANE_TRL_COMMIT_fs⟩,
  ⟨0x20002600, 8, 1048576, 64, 4, fun _ j => 1048576 + ((512 * (2 * (j / 16)) + 4096 - 1536) % 4096), LANE_TRL_LEVA_fs⟩,
  ⟨0x20002700, 8, 1048576, 64, 4, fun _ j => 1048576 + ((512 * (2 * (j / 16)) + 4096 - 1536) % 4096), LANE_TRL_LEVB_fs⟩,
  ⟨0x20002200, 8, 1048576, 4, 64, fun _ _ => 0, LANE_LMS_CFG_fs⟩,
  ⟨0x20002204, 8, 1048576, 4, 64, fun _ _ => 0, LANE_LMS_CMD_fs⟩,
  ⟨0x20002208, 8, 1048576, 4, 64, fun _ _ => 0, LANE_LMS_STAT_fs⟩,
  ⟨0x20002220, 8, 1048576, 8, 4, fun _ _ => 0, LANE_LMS_GRAD_fs⟩,
  ⟨0x20002260, 8, 1048576, 8, 4, fun _ _ => 0, LANE_LMS_GRAD_fs⟩,
  ⟨0x200022a0, 8, 1048576, 8, 4, fun _ _ => 0, LANE_LMS_GRAD_fs⟩,
  ⟨0x200022e0, 8, 1048576, 8, 4, fun _ _ => 0, LANE_LMS_GRAD_fs⟩,
  ⟨0x20002300, 8, 1048576, 1, 4, fun _ _ => 24832, LANE_HIST_CTRL_fs⟩,
  ⟨0x20002310, 8, 1048576, 3, 4, fun _ j => 0 + ((1024 * j + 4096 - 1024) % 4096), LANE_EYE_CTRL_fs⟩,
  ⟨0x20002320, 8, 1048576, 6, 4, fun _ _ => 0, LANE_EYE_CNT_fs⟩,
  ⟨0x20002400, 8, 1048576, 64, 4, fun _ _ => 0, LANE_HIST_BIN_fs⟩]

/-- The registers of block LANE. -/
def regsLane : List RegRow := regsLane0 ++ regsLane1

def regsFrm0 : List RegRow := [
  ⟨0x22000000, 8, 65536, 1, 4, fun _ _ => 0, FRM_LANE_CTRL_fs⟩,
  ⟨0x22000004, 8, 65536, 1, 4, fun _ _ => 0, FRM_LANE_STATUS_fs⟩,
  ⟨0x22000008, 8, 65536, 1, 4, fun _ _ => 0, FRM_TX_CMD_fs⟩,
  ⟨0x2200000c, 8, 65536, 1, 4, fun _ _ => 0, FRM_TX_RESULT_fs⟩,
  ⟨0x22000010, 8, 65536, 1, 4, fun _ _ => 0, FRM_SQ_CTRL_fs⟩,
  ⟨0x22000014, 8, 65536, 1, 4, fun _ _ => 1074532385, FRM_FEC_CTRL_fs⟩,
  ⟨0x22000018, 8, 65536, 1, 4, fun _ _ => 0, FRM_RX_ID_fs⟩,
  ⟨0x2200001c, 8, 65536, 1, 4, fun _ _ => 0, FRM_SKEW_fs⟩,
  ⟨0x22000020, 8, 65536, 1, 4, fun _ _ => 0, FRM_CNT_CMD_fs⟩,
  ⟨0x22000030, 8, 65536, 1, 4, fun _ _ => 0, FRM_EVT_fs⟩,
  ⟨0x22000034, 8, 65536, 1, 4, fun _ _ => 0, FRM_RAD_LOAD_TX_fs⟩,
  ⟨0x22000038, 8, 65536, 1, 4, fun _ _ => 0, FRM_RAD_LOAD_RX_fs⟩,
  ⟨0x22000040, 8, 65536, 1, 4, fun _ _ => 0, FRM_CNT_CORR_SYM_fs⟩,
  ⟨0x22000044, 8, 65536, 1, 4, fun _ _ => 0, FRM_CNT_CORR_CW_fs⟩,
  ⟨0x22000048, 8, 65536, 1, 4, fun _ _ => 0, FRM_CNT_UNCORR_CW_fs⟩,
  ⟨0x2200004c, 8, 65536, 1, 4, fun _ _ => 0, FRM_CNT_ERASED_fs⟩,
  ⟨0x22000050, 8, 65536, 1, 4, fun _ _ => 0, FRM_CNT_ERA_SAVED_fs⟩,
  ⟨0x22000054, 8, 65536, 1, 4, fun _ _ => 0, FRM_CNT_TAIL_CW_fs⟩,
  ⟨0x22000058, 8, 65536, 1, 4, fun _ _ => 0, FRM_CNT_OH_CRC_fs⟩,
  ⟨0x2200005c, 8, 65536, 1, 4, fun _ _ => 0, FRM_CNT_FRAME_LOST_fs⟩,
  ⟨0x22000060, 8, 65536, 1, 4, fun _ _ => 0, FRM_CNT_CTR_UNDER_fs⟩,
  ⟨0x22000064, 8, 65536, 1, 4, fun _ _ => 0, FRM_CNT_CTR_OVER_fs⟩,
  ⟨0x22000068, 8, 65536, 1, 4, fun _ _ => 0, FRM_CNT_CTR_FMT_fs⟩,
  ⟨0x22001000, 8, 65536, 128, 4, fun _ _ => 0, FRM_TCTR_fs⟩,
  ⟨0x22001400, 8, 65536, 128, 4, fun _ _ => 1024, FRM_RCTR_fs⟩]

/-- The registers of block FRM. -/
def regsFrm : List RegRow := regsFrm0

def regsHost0 : List RegRow := [
  ⟨0x21000000, 8, 65536, 1, 4, fun _ _ => 6553632, HOST_CTRL_fs⟩,
  ⟨0x21000004, 8, 65536, 1, 4, fun _ _ => 0, HOST_STATUS_fs⟩,
  ⟨0x21000008, 8, 65536, 1, 4, fun _ _ => 0, HOST_CMD_fs⟩,
  ⟨0x2100000c, 8, 65536, 1, 4, fun _ _ => 0, HOST_RESULT_fs⟩,
  ⟨0x21000010, 8, 65536, 1, 4, fun _ _ => 0, HOST_EVT_fs⟩,
  ⟨0x21000014, 8, 65536, 1, 4, fun _ _ => 0, HOST_TRAIN_REQ_fs⟩,
  ⟨0x21000020, 8, 65536, 5, 4, fun _ j => 0 + (if j = 3 then 63 else 0) + (if j = 3 then 63 else 0) * 65536, HOST_TX_FIR_fs⟩,
  ⟨0x21000040, 8, 65536, 1, 4, fun _ _ => 3, HOST_RX_EQ_fs⟩,
  ⟨0x21000050, 8, 65536, 1, 4, fun _ _ => 0, HOST_PAT_CTRL_fs⟩,
  ⟨0x21000054, 8, 65536, 1, 4, fun _ _ => 0, HOST_PAT_USER_L_fs⟩,
  ⟨0x21000058, 8, 65536, 1, 4, fun _ _ => 0, HOST_PAT_USER_H_fs⟩,
  ⟨0x2100005c, 8, 65536, 1, 4, fun _ _ => 0, HOST_PAT_ERR_fs⟩,
  ⟨0x21000060, 8, 65536, 1, 4, fun _ _ => 0, HOST_PAT_BITS_L_fs⟩,
  ⟨0x21000064, 8, 65536, 1, 4, fun _ _ => 0, HOST_PAT_BITS_H_fs⟩,
  ⟨0x21000080, 8, 65536, 1, 4, fun _ _ => 0, HOST_FEC_CMD_fs⟩,
  ⟨0x21000084, 8, 65536, 1, 4, fun _ _ => 0, HOST_FEC_CW_fs⟩,
  ⟨0x21000088, 8, 65536, 1, 4, fun _ _ => 0, HOST_FEC_SYM_fs⟩,
  ⟨0x2100008c, 8, 65536, 1, 4, fun _ _ => 0, HOST_FEC_UNC_fs⟩,
  ⟨0x210000c0, 8, 65536, 16, 4, fun _ _ => 0, HOST_FEC_BIN_fs⟩,
  ⟨0x21000100, 8, 65536, 1, 4, fun _ _ => 8, HOST_JESD_RX_CFG_fs⟩,
  ⟨0x21000104, 8, 65536, 1, 4, fun _ _ => 8, HOST_JESD_TX_CFG_fs⟩,
  ⟨0x21000108, 8, 65536, 1, 4, fun _ _ => 0, HOST_JESD_DL_fs⟩,
  ⟨0x2100010c, 8, 65536, 1, 4, fun _ _ => 257, HOST_JESD_SYS_fs⟩,
  ⟨0x21000110, 8, 65536, 1, 4, fun _ _ => 0, HOST_JESD_STAT_fs⟩]

/-- The registers of block HOST. -/
def regsHost : List RegRow := regsHost0

def regsBnd0 : List RegRow := [
  ⟨0x30000000, 1, 4, 1, 4, fun _ _ => 0, BND_EVT_fs⟩,
  ⟨0x30000010, 1, 4, 1, 4, fun _ _ => 68096, BND_SYNC_CTRL_fs⟩,
  ⟨0x30000014, 1, 4, 1, 4, fun _ _ => 0, BND_SYNC_STAT_fs⟩,
  ⟨0x30000018, 1, 4, 1, 4, fun _ _ => 0, BND_SYNC_TIME_fs⟩,
  ⟨0x3000001c, 1, 4, 1, 4, fun _ _ => 0, BND_SYNC_CMD_fs⟩,
  ⟨0x30000020, 1, 4, 1, 4, fun _ _ => 0, BND_SYNC_RESULT_fs⟩,
  ⟨0x30000024, 1, 4, 1, 4, fun _ _ => 0, BND_BFP_ERR_fs⟩,
  ⟨0x30000028, 1, 4, 1, 4, fun _ _ => 0, BND_TIME_L_fs⟩,
  ⟨0x3000002c, 1, 4, 1, 4, fun _ _ => 0, BND_TIME_H_fs⟩,
  ⟨0x30000040, 2, 8, 1, 4, fun _ _ => 0, BND_ADM_RES_fs⟩,
  ⟨0x30000044, 2, 8, 1, 4, fun _ _ => 0, BND_ADM_STAT_fs⟩,
  ⟨0x30000050, 1, 4, 1, 4, fun _ _ => 16777472, BND_ADM_THR_fs⟩,
  ⟨0x30000100, 1, 4, 1, 4, fun _ _ => 0, BND_MEAS_CTRL_fs⟩,
  ⟨0x30000104, 1, 4, 1, 4, fun _ _ => 0, BND_MEAS_T0_fs⟩,
  ⟨0x30000140, 16, 4, 1, 4, fun _ _ => 0, BND_MEAS_SRC_fs⟩,
  ⟨0x30000180, 16, 4, 1, 4, fun _ _ => 0, BND_MEAS_FW_fs⟩,
  ⟨0x30000200, 16, 8, 1, 4, fun _ _ => 0, BND_MEAS_RE_fs⟩,
  ⟨0x30000204, 16, 8, 1, 4, fun _ _ => 0, BND_MEAS_IM_fs⟩,
  ⟨0x30010000, 1024, 8, 1, 4, fun _ _ => 0, BND_PIN_fs⟩,
  ⟨0x30010004, 1024, 8, 1, 4, fun _ _ => 0, BND_PIN2_fs⟩,
  ⟨0x30012000, 1024, 8, 1, 4, fun _ _ => 0, BND_POUT_fs⟩,
  ⟨0x30012004, 1024, 8, 1, 4, fun _ _ => 0, BND_POUT2_fs⟩,
  ⟨0x30100000, 128, 8192, 1, 4, fun _ _ => 3200, BND_PATH_CFG_fs⟩,
  ⟨0x30100004, 128, 8192, 1, 4, fun _ _ => 0, BND_PATH_CFG2_fs⟩,
  ⟨0x30100008, 128, 8192, 1, 4, fun _ _ => 0, BND_PATH_CMD_fs⟩]

def regsBnd1 : List RegRow := [
  ⟨0x3010000c, 128, 8192, 1, 4, fun _ _ => 0, BND_PATH_STAT_fs⟩,
  ⟨0x30100010, 128, 8192, 1, 4, fun _ _ => 0, BND_PATH_NCO_fs⟩,
  ⟨0x30100014, 128, 8192, 1, 4, fun _ _ => 0, BND_PATH_PH0_fs⟩,
  ⟨0x30100018, 128, 8192, 1, 4, fun _ _ => 0, BND_PATH_IQB_fs⟩,
  ⟨0x3010001c, 128, 8192, 1, 4, fun _ _ => 0, BND_PATH_DC_fs⟩,
  ⟨0x30100020, 128, 8192, 1, 4, fun _ _ => 65536, BND_PATH_GAIN_fs⟩,
  ⟨0x30100024, 128, 8192, 1, 4, fun _ _ => 480, BND_PATH_DELAY_fs⟩,
  ⟨0x30100028, 128, 8192, 1, 4, fun _ _ => 1, BND_PATH_CF_fs⟩,
  ⟨0x3010002c, 128, 8192, 1, 4, fun _ _ => 0, BND_PATH_CXCMD_fs⟩,
  ⟨0x30100030, 128, 8192, 1, 4, fun _ _ => 0, BND_PATH_SAT_fs⟩,
  ⟨0x30100040, 128, 8192, 8, 4, fun _ _ => 65537, BND_PATH_CXL_fs⟩,
  ⟨0x30100080, 128, 8192, 1, 4, fun _ _ => 12, BND_PATH_MTR_CTRL_fs⟩,
  ⟨0x30100084, 128, 8192, 1, 4, fun _ _ => 3623933952, BND_PATH_MTR_IN_fs⟩,
  ⟨0x30100088, 128, 8192, 1, 4, fun _ _ => 3623933952, BND_PATH_MTR_RES_fs⟩,
  ⟨0x3010008c, 128, 8192, 1, 4, fun _ _ => 3623933952, BND_PATH_MTR_OUT_fs⟩,
  ⟨0x30100400, 128, 8192, 255, 4, fun _ j => 0 + (if j = 0 then 65536 else 0), BND_PATH_CFC_fs⟩,
  ⟨0x30101000, 128, 8192, 512, 4, fun _ _ => 0, BND_PATH_CXT_fs⟩,
  ⟨0x30101800, 128, 8192, 512, 4, fun _ _ => 0, BND_PATH_CXA_fs⟩]

/-- The registers of block BND. -/
def regsBnd : List RegRow := regsBnd0 ++ regsBnd1

def regsRpt0 : List RegRow := [
  ⟨0x30800000, 1, 4, 1, 4, fun _ _ => 0, RPT_EVT_fs⟩,
  ⟨0x30800004, 4, 4, 1, 4, fun _ _ => 0, RPT_CHG_fs⟩,
  ⟨0x30800020, 1, 4, 1, 4, fun _ _ => 670727, RPT_MUTE_CTRL_fs⟩,
  ⟨0x30800024, 1, 4, 1, 4, fun _ _ => 0, RPT_MUTE_CNT_fs⟩,
  ⟨0x30800030, 1, 4, 1, 4, fun _ _ => 4043370752, RPT_CEIL_fs⟩,
  ⟨0x30800034, 1, 4, 1, 4, fun _ _ => 167968868, RPT_GRD_CTRL_fs⟩,
  ⟨0x30800038, 1, 4, 1, 4, fun _ _ => 0, RPT_DONOR_STAT_fs⟩,
  ⟨0x30801000, 128, 64, 1, 4, fun _ _ => 12288, RPT_PATH_CFG_fs⟩,
  ⟨0x30801004, 128, 64, 1, 4, fun _ _ => 0, RPT_PATH_CMD_fs⟩,
  ⟨0x30801008, 128, 64, 1, 4, fun _ _ => 0, RPT_PATH_STAT_fs⟩,
  ⟨0x3080100c, 128, 64, 1, 4, fun _ _ => 240, RPT_PATH_LIM_fs⟩,
  ⟨0x30801010, 128, 64, 1, 4, fun _ _ => 0, RPT_PATH_ISO_fs⟩,
  ⟨0x30801014, 128, 64, 1, 4, fun _ _ => 0, RPT_PATH_APP_fs⟩,
  ⟨0x30801018, 128, 64, 1, 4, fun _ _ => 0, RPT_PATH_ATT_A_fs⟩,
  ⟨0x3080101c, 128, 64, 1, 4, fun _ _ => 0, RPT_PATH_ATT_B_fs⟩,
  ⟨0x30801020, 128, 64, 1, 4, fun _ _ => 15370, RPT_PATH_RAMP_fs⟩,
  ⟨0x30801024, 128, 64, 1, 4, fun _ _ => 395829, RPT_PATH_OSC_fs⟩,
  ⟨0x30801028, 128, 64, 1, 4, fun _ _ => 21053712, RPT_PATH_NR_fs⟩,
  ⟨0x3080102c, 128, 64, 1, 4, fun _ _ => 0, RPT_PATH_NRC_fs⟩,
  ⟨0x30801030, 128, 64, 1, 4, fun _ _ => 0, RPT_PATH_NRS_fs⟩,
  ⟨0x30801034, 128, 64, 1, 4, fun _ _ => 1546, RPT_PATH_LD_fs⟩]

/-- The registers of block RPT. -/
def regsRpt : List RegRow := regsRpt0

def regsLst0 : List RegRow := [
  ⟨0x31000000, 1, 4, 1, 4, fun _ _ => 0, LST_EVT_fs⟩,
  ⟨0x31000004, 1, 4, 1, 4, fun _ _ => 921616, LST_CTRL_fs⟩,
  ⟨0x31000100, 32, 4, 1, 4, fun _ _ => 0, LST_ALLOW_fs⟩,
  ⟨0x31000200, 16, 8, 1, 4, fun _ _ => 393216, LST_NF_CFG_fs⟩,
  ⟨0x31000204, 16, 8, 1, 4, fun _ _ => 0, LST_NF_CFG2_fs⟩,
  ⟨0x31000300, 16, 4, 1, 4, fun _ _ => 0, LST_NF_fs⟩,
  ⟨0x31001000, 2, 4096, 1, 4, fun _ _ => 12, LST_CH_CTRL_fs⟩,
  ⟨0x31001004, 2, 4096, 1, 4, fun _ _ => 0, LST_CH_SRC_fs⟩,
  ⟨0x31001008, 2, 4096, 1, 4, fun _ _ => 0, LST_CH_NCO_fs⟩,
  ⟨0x3100100c, 2, 4096, 1, 4, fun _ _ => 1074553024, LST_CH_THR_fs⟩,
  ⟨0x31001010, 2, 4096, 1, 4, fun _ _ => 6553600, LST_CH_CAL_fs⟩,
  ⟨0x31001014, 2, 4096, 1, 4, fun _ _ => 0, LST_CH_CMD_fs⟩,
  ⟨0x31001018, 2, 4096, 1, 4, fun _ _ => 0, LST_CH_STAT_fs⟩,
  ⟨0x31001020, 2, 4096, 1, 4, fun _ _ => 0, LST_RX_STAT_fs⟩,
  ⟨0x31001024, 2, 4096, 1, 4, fun _ _ => 0, LST_RX_CELL_fs⟩,
  ⟨0x31001028, 2, 4096, 1, 4, fun _ _ => 0, LST_RX_TIME_L_fs⟩,
  ⟨0x3100102c, 2, 4096, 1, 4, fun _ _ => 0, LST_RX_TIME_H_fs⟩,
  ⟨0x31001030, 2, 4096, 1, 4, fun _ _ => 0, LST_RX_PWR_fs⟩,
  ⟨0x31001034, 2, 4096, 1, 4, fun _ _ => 0, LST_MIB_fs⟩,
  ⟨0x31001038, 2, 4096, 1, 4, fun _ _ => 0, LST_FRAME_L_fs⟩,
  ⟨0x3100103c, 2, 4096, 1, 4, fun _ _ => 0, LST_FRAME_H_fs⟩,
  ⟨0x31001040, 2, 4096, 1, 4, fun _ _ => 0, LST_FRAME_OFS_fs⟩,
  ⟨0x31001044, 2, 4096, 1, 4, fun _ _ => 0, LST_TDD_A_fs⟩,
  ⟨0x31001048, 2, 4096, 1, 4, fun _ _ => 2560, LST_TDD_B_fs⟩,
  ⟨0x3100104c, 2, 4096, 1, 4, fun _ _ => 0, LST_CH_CNT_fs⟩]

def regsLst1 : List RegRow := [
  ⟨0x31001050, 2, 4096, 1, 4, fun _ _ => 0, LST_NRBUF_CTRL_fs⟩,
  ⟨0x31001400, 2, 4096, 720, 4, fun _ _ => 0, LST_NRBUF_fs⟩]

/-- The registers of block LST. -/
def regsLst : List RegRow := regsLst0 ++ regsLst1

def regsFen0 : List RegRow := [
  ⟨0x32000000, 1, 4, 1, 4, fun _ _ => 0, FEN_EVT_fs⟩,
  ⟨0x32000004, 1, 4, 1, 4, fun _ _ => 0, FEN_RFC_OWN_L_fs⟩,
  ⟨0x32000008, 1, 4, 1, 4, fun _ _ => 0, FEN_RFC_OWN_H_fs⟩,
  ⟨0x3200000c, 1, 4, 1, 4, fun _ _ => 0, FEN_RFC_SAFE_fs⟩,
  ⟨0x32000010, 1, 4, 1, 4, fun _ _ => 0, FEN_RFC_LEVEL_fs⟩,
  ⟨0x32000020, 1, 4, 1, 4, fun _ _ => 1342177280, FEN_COEX_CTRL_fs⟩,
  ⟨0x32000024, 1, 4, 1, 4, fun _ _ => 656360, FEN_COEX_CFG_fs⟩,
  ⟨0x32000028, 1, 4, 1, 4, fun _ _ => 0, FEN_COEX_STAT_fs⟩,
  ⟨0x3200002c, 1, 4, 1, 4, fun _ _ => 0, FEN_COEX_CNT_fs⟩,
  ⟨0x32000100, 4, 128, 1, 4, fun i _ => 0 + i * 16 + i * 64, FEN_SEQ_CTRL_fs⟩,
  ⟨0x32000104, 4, 128, 1, 4, fun _ _ => 0, FEN_SEQ_CMD_fs⟩,
  ⟨0x32000108, 4, 128, 1, 4, fun _ _ => 0, FEN_SEQ_STAT_fs⟩,
  ⟨0x3200010c, 4, 128, 1, 4, fun _ _ => 33555456, FEN_SEQ_TIM_fs⟩,
  ⟨0x32000110, 4, 128, 1, 4, fun _ _ => 512, FEN_SEQ_TIM2_fs⟩,
  ⟨0x32000114, 4, 128, 1, 4, fun _ _ => 0, FEN_SEQ_OFS_fs⟩,
  ⟨0x32000118, 4, 128, 1, 4, fun _ _ => 32769330, FEN_SEQ_HOLD_fs⟩,
  ⟨0x3200011c, 4, 128, 1, 4, fun _ _ => 1024, FEN_SEQ_LOCK_fs⟩,
  ⟨0x32000120, 4, 128, 5, 4, fun _ _ => 0, FEN_SEQ_PAT_fs⟩,
  ⟨0x32000140, 4, 128, 1, 4, fun _ _ => 1174814720, FEN_SEQ_CAL_fs⟩,
  ⟨0x32000144, 4, 128, 1, 4, fun _ _ => 0, FEN_SEQ_CALFW_fs⟩,
  ⟨0x32000148, 4, 128, 1, 4, fun _ _ => 16384, FEN_SEQ_CALAMP_fs⟩,
  ⟨0x3200014c, 4, 128, 1, 4, fun _ _ => 0, FEN_SEQ_CALRES_fs⟩,
  ⟨0x32000150, 4, 128, 1, 4, fun _ _ => 0, FEN_SEQ_CNT_fs⟩,
  ⟨0x32000400, 4, 128, 1, 4, fun _ _ => 3599, FEN_SPI_CFG_fs⟩,
  ⟨0x32000404, 4, 128, 1, 4, fun _ _ => 0, FEN_SPI_CMD_fs⟩]

def regsFen1 : List RegRow := [
  ⟨0x32000408, 4, 128, 1, 4, fun _ _ => 0, FEN_SPI_STAT_fs⟩,
  ⟨0x32000440, 4, 128, 16, 4, fun _ _ => 0, FEN_SPI_DATA_fs⟩]

/-- The registers of block FEN. -/
def regsFen : List RegRow := regsFen0 ++ regsFen1

def regsOwn0 : List RegRow := [
  ⟨0x40708000, 13, 16, 1, 4, fun _ _ => 0, OWN_CORE_CTRL_fs⟩,
  ⟨0x40708004, 13, 16, 1, 4, fun i _ => 0 + (if i = 12 then 1 else 0) + (if i = 12 then 0 else 1) * 4, OWN_CORE_STAT_fs⟩,
  ⟨0x40708008, 13, 16, 1, 4, fun _ _ => 0, OWN_CORE_RESULT_fs⟩,
  ⟨0x40708100, 1, 4, 1, 4, fun _ _ => 0, OWN_LD_SRC_fs⟩,
  ⟨0x40708104, 1, 4, 1, 4, fun _ _ => 0, OWN_LD_CMD_fs⟩,
  ⟨0x40708108, 1, 4, 1, 4, fun _ _ => 0, OWN_LD_RESULT_fs⟩,
  ⟨0x40708114, 3, 4, 1, 4, fun _ _ => 0, OWN_LD_FLOOR_fs⟩,
  ⟨0x40708120, 1, 4, 1, 4, fun _ _ => 269484032, OWN_LD_KEYTAB_fs⟩,
  ⟨0x40700600, 12, 64, 1, 4, fun _ _ => 0, OWN_KEYSLOT_fs⟩,
  ⟨0x40700604, 12, 64, 8, 4, fun _ _ => 0, OWN_KEYSLOT_HASH_fs⟩,
  ⟨0x40700090, 1, 4, 1, 4, fun _ _ => 0, OWN_FUSE_CMD_fs⟩,
  ⟨0x40700094, 1, 4, 1, 4, fun _ _ => 0, OWN_FUSE_BUF_fs⟩,
  ⟨0x40700098, 1, 4, 1, 4, fun _ _ => 0, OWN_FUSE_RESULT_fs⟩,
  ⟨0x40700000, 1, 4, 1, 4, fun _ _ => 0, OWN_EVT_fs⟩,
  ⟨0x40700004, 1, 4, 1, 4, fun _ _ => 0, OWN_STAT_fs⟩,
  ⟨0x40700008, 1, 4, 1, 4, fun _ _ => 0, OWN_CLAIM_fs⟩,
  ⟨0x4070001c, 1, 4, 1, 4, fun _ _ => 0, OWN_ACCEPT_fs⟩,
  ⟨0x4070000c, 1, 4, 1, 4, fun _ _ => 0, OWN_LEASE_fs⟩,
  ⟨0x40700010, 1, 4, 1, 4, fun _ _ => 1000, OWN_LEASE_CFG_fs⟩,
  ⟨0x40700014, 1, 4, 1, 4, fun _ _ => 0, OWN_HANDOVER_fs⟩,
  ⟨0x40700018, 1, 4, 1, 4, fun _ _ => 0, OWN_HO_RESULT_fs⟩,
  ⟨0x40700020, 1, 4, 1, 4, fun _ _ => 272, OWN_POLICY_fs⟩,
  ⟨0x40700030, 1, 4, 1, 4, fun _ _ => 0, OWN_RLOG_STAT_fs⟩,
  ⟨0x40700100, 64, 16, 1, 4, fun _ _ => 0, OWN_RLOG_ADDR_fs⟩,
  ⟨0x40700104, 64, 16, 1, 4, fun _ _ => 0, OWN_RLOG_SEC_fs⟩]

def regsOwn1 : List RegRow := [
  ⟨0x40700108, 64, 16, 1, 4, fun _ _ => 0, OWN_RLOG_INFO_fs⟩,
  ⟨0x4070010c, 64, 16, 1, 4, fun _ _ => 0, OWN_RLOG_FRAC_fs⟩,
  ⟨0x40700040, 1, 4, 1, 4, fun _ _ => 0, OWN_HATCH_STAT_fs⟩,
  ⟨0x40700044, 1, 4, 1, 4, fun _ _ => 0, OWN_ZERO_fs⟩,
  ⟨0x40700048, 1, 4, 1, 4, fun _ _ => 276758528, OWN_SECRET_LO_fs⟩,
  ⟨0x4070004c, 1, 4, 1, 4, fun _ _ => 276824064, OWN_SECRET_HI_fs⟩,
  ⟨0x40700060, 8, 4, 1, 4, fun _ _ => 0, OWN_ID_fs⟩,
  ⟨0x40700080, 1, 4, 1, 4, fun _ _ => 0, OWN_SIGN_CMD_fs⟩,
  ⟨0x40700084, 1, 4, 1, 4, fun _ _ => 0, OWN_SIGN_BUF_fs⟩,
  ⟨0x40700088, 1, 4, 1, 4, fun _ _ => 0, OWN_SIGN_RESULT_fs⟩,
  ⟨0x40701000, 449, 4, 1, 4, fun _ _ => 0, OWN_IDPUB_fs⟩]

/-- The registers of block OWN. -/
def regsOwn : List RegRow := regsOwn0 ++ regsOwn1

def regsEvr0 : List RegRow := [
  ⟨0x40300000, 16, 4, 1, 4, fun _ _ => 0, EVR_PEND_fs⟩,
  ⟨0x40300040, 1, 4, 1, 4, fun _ _ => 0, EVR_RAISE_fs⟩,
  ⟨0x40300080, 13, 4, 1, 4, fun _ _ => 0, EVR_NEXT_fs⟩,
  ⟨0x403000c0, 1, 4, 1, 4, fun _ _ => 65536000, EVR_WDOG_CTRL_fs⟩,
  ⟨0x403000c4, 1, 4, 1, 4, fun _ _ => 0, EVR_WDOG_KICK_fs⟩,
  ⟨0x403000c8, 1, 4, 1, 4, fun _ _ => 0, EVR_WDOG_STAT_fs⟩,
  ⟨0x403000d0, 1, 4, 1, 4, fun _ _ => 0, EVR_LOCK_STAT_fs⟩,
  ⟨0x403000d4, 1, 4, 1, 4, fun _ _ => 0, EVR_LOCK_PC_fs⟩,
  ⟨0x40301000, 512, 4, 1, 4, fun i _ => 12 + (if i ≤ 7 then 1 else 0) * 16 + (if i ≤ 7 then 0 else 3) * 32, EVR_ROUTE_fs⟩]

/-- The registers of block EVR. -/
def regsEvr : List RegRow := regsEvr0

def regsPmc0 : List RegRow := [
  ⟨0x40a00000, 32, 16, 1, 4, fun _ _ => 524032, PMC_SEL_fs⟩,
  ⟨0x40a00004, 32, 16, 1, 4, fun _ _ => 0, PMC_CNT_L_fs⟩,
  ⟨0x40a00008, 32, 16, 1, 4, fun _ _ => 0, PMC_CNT_H_fs⟩,
  ⟨0x40a00200, 32, 4, 1, 4, fun _ _ => 0, PMC_CLS_fs⟩,
  ⟨0x40a00400, 4, 8, 1, 4, fun _ _ => 0, PMC_RANGE_LO_fs⟩,
  ⟨0x40a00404, 4, 8, 1, 4, fun _ _ => 0, PMC_RANGE_HI_fs⟩,
  ⟨0x40a00500, 13, 8, 1, 4, fun _ _ => 0, PMC_SKID_fs⟩,
  ⟨0x40a00504, 13, 8, 1, 4, fun _ _ => 0, PMC_SKID_PC_fs⟩]

/-- The registers of block PMC. -/
def regsPmc : List RegRow := regsPmc0

def regsSto0 : List RegRow := [
  ⟨0x40800100, 1, 4, 1, 4, fun _ _ => 0, STO_NOR_CTRL_fs⟩,
  ⟨0x40800104, 1, 4, 1, 4, fun _ _ => 0, STO_NOR_CMD_fs⟩,
  ⟨0x40800108, 1, 4, 1, 4, fun _ _ => 0, STO_NOR_ADDR_fs⟩,
  ⟨0x4080010c, 1, 4, 1, 4, fun _ _ => 0, STO_NOR_RESULT_fs⟩,
  ⟨0x40800200, 64, 4, 1, 4, fun _ _ => 0, STO_NOR_BUF_fs⟩,
  ⟨0x40800000, 1, 4, 1, 4, fun _ _ => 4196266752, STO_CTRL_fs⟩,
  ⟨0x40800004, 1, 4, 1, 4, fun _ _ => 0, STO_CMD_fs⟩,
  ⟨0x40800008, 1, 4, 1, 4, fun _ _ => 0, STO_ARG_fs⟩,
  ⟨0x4080000c, 1, 4, 1, 4, fun _ _ => 0, STO_CNT_fs⟩,
  ⟨0x40800010, 1, 4, 1, 4, fun _ _ => 0, STO_RESULT_fs⟩,
  ⟨0x40800014, 4, 4, 1, 4, fun _ _ => 0, STO_RESP_fs⟩]

/-- The registers of block STO. -/
def regsSto : List RegRow := regsSto0

def regsMem0 : List RegRow := [
  ⟨0x40500000, 1, 4, 1, 4, fun _ _ => 0, MEM_EVT_fs⟩,
  ⟨0x40500004, 1, 4, 1, 4, fun _ _ => 0, MEM_FILL_STAT_fs⟩,
  ⟨0x40500008, 1, 4, 1, 4, fun _ _ => 19039300, MEM_ARB_W_fs⟩,
  ⟨0x4050000c, 1, 4, 1, 4, fun _ _ => 0, MEM_CORR_fs⟩,
  ⟨0x40500010, 1, 4, 1, 4, fun _ _ => 0, MEM_UE_ADDR_fs⟩,
  ⟨0x40500014, 1, 4, 1, 4, fun _ _ => 0, MEM_UE_INFO_fs⟩,
  ⟨0x40500020, 1, 4, 1, 4, fun _ _ => 0, MEM_INJ_ADDR_fs⟩,
  ⟨0x40500024, 1, 4, 1, 4, fun _ _ => 0, MEM_INJ_CTRL_fs⟩,
  ⟨0x40500100, 15, 4, 1, 4, fun _ _ => 65600, MEM_SCRUB_fs⟩]

/-- The registers of block MEM. -/
def regsMem : List RegRow := regsMem0

def regsDma0 : List RegRow := [
  ⟨0x40400000, 1, 4, 1, 4, fun _ _ => 0, DMA_EVT_fs⟩,
  ⟨0x40401000, 32, 64, 1, 4, fun _ _ => 0, DMA_CH_DESC_fs⟩,
  ⟨0x40401004, 32, 64, 1, 4, fun _ _ => 0, DMA_CH_CMD_fs⟩,
  ⟨0x40401008, 32, 64, 1, 4, fun _ _ => 0, DMA_CH_STAT_fs⟩,
  ⟨0x4040100c, 32, 64, 1, 4, fun _ _ => 0, DMA_CH_SRC_fs⟩,
  ⟨0x40401010, 32, 64, 1, 4, fun _ _ => 0, DMA_CH_DST_fs⟩,
  ⟨0x40401014, 32, 64, 1, 4, fun _ _ => 0, DMA_CH_COUNT_fs⟩,
  ⟨0x40401018, 32, 64, 1, 4, fun _ _ => 0, DMA_CH_FADDR_fs⟩]

/-- The registers of block DMA. -/
def regsDma : List RegRow := regsDma0

def regsCrp0 : List RegRow := [
  ⟨0x40000000, 1, 4, 1, 4, fun _ _ => 0, CRP_CLK_EVT_fs⟩,
  ⟨0x40000004, 1, 4, 1, 4, fun _ _ => 0, CRP_CLK_STAT_fs⟩,
  ⟨0x40000008, 1, 4, 1, 4, fun _ _ => 2260141438, CRP_REFMON_fs⟩,
  ⟨0x4000000c, 1, 4, 1, 4, fun _ _ => 0, CRP_REFCNT_fs⟩,
  ⟨0x40000010, 1, 4, 1, 4, fun _ _ => 4, CRP_PLL_CTRL_fs⟩,
  ⟨0x40000014, 1, 4, 1, 4, fun _ _ => 0, CRP_PLL_STAT_fs⟩,
  ⟨0x40000018, 1, 4, 1, 4, fun _ _ => 0, CRP_BPLL_TRIM_fs⟩,
  ⟨0x4000001c, 1, 4, 1, 4, fun _ _ => 0, CRP_BPLL_APPLIED_fs⟩,
  ⟨0x40000020, 1, 4, 1, 4, fun _ _ => 0, CRP_SYS_SEL_fs⟩,
  ⟨0x40000024, 1, 4, 1, 4, fun _ _ => 0, CRP_CLKOUT_fs⟩,
  ⟨0x40000028, 1, 4, 1, 4, fun _ _ => 301989888, CRP_AOSC_INC_fs⟩,
  ⟨0x40000030, 1, 4, 1, 4, fun _ _ => 0, CRP_AON_TIME_L_fs⟩,
  ⟨0x40000034, 1, 4, 1, 4, fun _ _ => 0, CRP_AON_TIME_H_fs⟩,
  ⟨0x40000040, 1, 4, 1, 4, fun _ _ => 0, CRP_GATE_STAT_fs⟩,
  ⟨0x40000044, 1, 4, 1, 4, fun _ _ => 0, CRP_GATE_FORCE_fs⟩,
  ⟨0x40001000, 1, 4, 1, 4, fun _ _ => 1, RST_CAUSE_fs⟩,
  ⟨0x40001004, 1, 4, 1, 4, fun _ _ => 0, CRP_CMD_RESET_fs⟩,
  ⟨0x40001008, 1, 4, 1, 4, fun _ _ => 0, CRP_BLK_RST_fs⟩,
  ⟨0x4000100c, 1, 4, 1, 4, fun _ _ => 0, CRP_BLK_RST_STAT_fs⟩,
  ⟨0x40001010, 1, 4, 1, 4, fun _ _ => 0, CRP_ATTIC_STAT_fs⟩,
  ⟨0x40001014, 1, 4, 1, 4, fun _ _ => 0, CRP_BOOT_STAT_fs⟩,
  ⟨0x40001018, 1, 4, 1, 4, fun _ _ => 0, CRP_RST_EVT_fs⟩,
  ⟨0x40002000, 1, 4, 1, 4, fun _ _ => 0, PWR_MODE_fs⟩,
  ⟨0x40002004, 1, 4, 1, 4, fun _ _ => 0, PWR_STAT_fs⟩,
  ⟨0x40002008, 1, 4, 1, 4, fun _ _ => 16711690, PWR_WAKE_EN_fs⟩]

def regsCrp1 : List RegRow := [
  ⟨0x4000200c, 1, 4, 1, 4, fun _ _ => 4294967295, PWR_ALARM_fs⟩,
  ⟨0x40002010, 1, 4, 1, 4, fun _ _ => 0, PWR_LARDER_fs⟩,
  ⟨0x40002014, 1, 4, 1, 4, fun _ _ => 0, PWR_LARDER_FAIL_fs⟩,
  ⟨0x40002020, 1, 4, 1, 4, fun _ _ => 49152650, PWR_AVS_CTRL_fs⟩,
  ⟨0x40002024, 1, 4, 1, 4, fun _ _ => 0, PWR_AVS_REQ_fs⟩,
  ⟨0x40002028, 1, 4, 1, 4, fun _ _ => 0, PWR_AVS_STAT_fs⟩,
  ⟨0x40002040, 1, 4, 1, 4, fun _ _ => 655460, TH_CTRL_fs⟩,
  ⟨0x40002044, 1, 4, 1, 4, fun _ _ => 0, TH_CMD_fs⟩,
  ⟨0x40002048, 1, 4, 1, 4, fun _ _ => 0, TH_STAT_fs⟩,
  ⟨0x4000204c, 3, 4, 1, 4, fun i _ => 5242880 + (if i = 0 then 1600 else if i = 1 then 1760 else 2000), TH_THR_fs⟩,
  ⟨0x40002060, 9, 4, 1, 4, fun _ _ => 0, TH_SENS_fs⟩,
  ⟨0x400020a0, 1, 4, 1, 4, fun _ _ => 0, PWR_EVT_fs⟩]

/-- The registers of block CRP. -/
def regsCrp : List RegRow := regsCrp0 ++ regsCrp1

def regsHkc0 : List RegRow := [
  ⟨0x40100000, 1, 4, 1, 4, fun _ _ => 0, HKC_EVT_fs⟩,
  ⟨0x40100004, 1, 4, 1, 4, fun _ _ => 0, HKC_SCAN_CTRL_fs⟩,
  ⟨0x40100008, 1, 4, 1, 4, fun _ _ => 0, HKC_SCAN_T0_fs⟩,
  ⟨0x40100100, 32, 4, 1, 4, fun _ _ => 8389120, HKC_ENT_fs⟩,
  ⟨0x40100200, 32, 4, 1, 4, fun _ _ => 0, HKC_RES_fs⟩,
  ⟨0x40100400, 16, 16, 1, 4, fun _ _ => 0, HKD_CTRL_fs⟩,
  ⟨0x40100404, 16, 16, 1, 4, fun _ _ => 0, HKD_VAL_fs⟩,
  ⟨0x40100408, 16, 16, 1, 4, fun _ _ => 0, HKD_FW_fs⟩,
  ⟨0x4010040c, 16, 16, 1, 4, fun _ _ => 0, HKD_STAT_fs⟩]

/-- The registers of block HKC. -/
def regsHkc : List RegRow := regsHkc0

def regsGrd0 : List RegRow := [
  ⟨0x40200000, 1, 4, 1, 4, fun _ _ => 0, GRD_CTRL_fs⟩,
  ⟨0x40200004, 1, 4, 1, 4, fun _ _ => 0, GRD_STAT_fs⟩,
  ⟨0x40200008, 1, 4, 1, 4, fun _ _ => 0, GRD_TRIP_CLR_fs⟩,
  ⟨0x40200010, 1, 4, 1, 4, fun _ _ => 0, GRD_SWING_fs⟩,
  ⟨0x40200014, 2, 4, 1, 4, fun _ _ => 0, GRD_GAIN_fs⟩,
  ⟨0x40200100, 16, 16, 1, 4, fun _ _ => 3, GRD_PIN_fs⟩,
  ⟨0x40200104, 16, 16, 1, 4, fun _ _ => 0, GRD_PIN_ATT_fs⟩,
  ⟨0x40200108, 16, 16, 1, 4, fun _ _ => 0, GRD_PIN_LIM_fs⟩]

/-- The registers of block GRD. -/
def regsGrd : List RegRow := regsGrd0

def regsSnk0 : List RegRow := [
  ⟨0x40600000, 1, 4, 1, 4, fun _ _ => 0, SNK_EVT_fs⟩,
  ⟨0x40600004, 1, 4, 1, 4, fun _ _ => 0, SNK_ADDR_fs⟩,
  ⟨0x40600008, 1, 4, 1, 4, fun _ _ => 537526622, SNK_CFG_fs⟩,
  ⟨0x4060000c, 1, 4, 1, 4, fun _ _ => 0, SNK_LINK_EN_fs⟩,
  ⟨0x40600010, 1, 4, 1, 4, fun _ _ => 0, SNK_DISC_fs⟩,
  ⟨0x40600040, 10, 4, 1, 4, fun _ _ => 0, SNK_LINK_STAT_fs⟩,
  ⟨0x40600080, 4, 4, 1, 4, fun _ _ => 0, SNK_DROP_fs⟩,
  ⟨0x40600100, 8, 16, 1, 4, fun _ _ => 0, SNK_TX_ADDR_fs⟩,
  ⟨0x40600104, 8, 16, 1, 4, fun _ _ => 240, SNK_TX_CMD_fs⟩,
  ⟨0x40600108, 8, 16, 1, 4, fun _ _ => 0, SNK_TX_RESULT_fs⟩,
  ⟨0x40600200, 4, 16, 1, 4, fun _ _ => 0, SNK_RXR_BASE_fs⟩,
  ⟨0x40600204, 4, 16, 1, 4, fun _ _ => 1, SNK_RXR_CTRL_fs⟩,
  ⟨0x40600300, 1, 4, 1, 4, fun _ _ => 4096, SNK_RRA_CTRL_fs⟩,
  ⟨0x40600304, 1, 4, 1, 4, fun _ _ => 0, SNK_RRA_ADDR_fs⟩,
  ⟨0x40600308, 1, 4, 1, 4, fun _ _ => 0, SNK_RRA_RESULT_fs⟩,
  ⟨0x40600380, 32, 4, 1, 4, fun _ _ => 0, SNK_RRA_DATA_fs⟩,
  ⟨0x40600400, 1, 4, 1, 4, fun _ _ => 0, SNK_PAIR_CTRL_fs⟩,
  ⟨0x40600404, 1, 4, 1, 4, fun _ _ => 65536778, SNK_PAIR_TIM_fs⟩,
  ⟨0x40600408, 1, 4, 1, 4, fun _ _ => 0, SNK_PAIR_CMD_fs⟩,
  ⟨0x4060040c, 1, 4, 1, 4, fun _ _ => 0, SNK_PAIR_STAT_fs⟩,
  ⟨0x40604000, 4096, 4, 1, 4, fun _ _ => 15, SNK_ROUTE_fs⟩]

/-- The registers of block SNK. -/
def regsSnk : List RegRow := regsSnk0

def regsCel0 : List RegRow := [
  ⟨0x40900000, 1, 4, 1, 4, fun _ _ => 0, CEL_STAT_fs⟩,
  ⟨0x40900004, 1, 4, 1, 4, fun _ _ => 0, CEL_EVT_fs⟩,
  ⟨0x40900008, 1, 4, 1, 4, fun _ _ => 0, CEL_TEMP_fs⟩,
  ⟨0x4090000c, 1, 4, 1, 4, fun _ _ => 0, CEL_REC_HEAD_fs⟩,
  ⟨0x40900010, 1, 4, 1, 4, fun _ _ => 0, CEL_LOG_HEAD_fs⟩,
  ⟨0x40900100, 1, 4, 1, 4, fun _ _ => 0, CEL_ID_ROM_VER_fs⟩,
  ⟨0x40900104, 1, 4, 1, 4, fun _ _ => 0, CEL_ID_ROM_CRC_fs⟩,
  ⟨0x40900108, 1, 4, 1, 4, fun _ _ => 0, CEL_ID_SEAL_CRC_fs⟩,
  ⟨0x4090010c, 8, 4, 1, 4, fun _ _ => 0, CEL_ID_KEY_ID_fs⟩,
  ⟨0x4090012c, 1, 4, 1, 4, fun _ _ => 0, CEL_ID_INTERVAL_fs⟩]

/-- The registers of block CEL. -/
def regsCel : List RegRow := regsCel0

def regsBst0 : List RegRow := [
  ⟨0x40b00000, 1, 4, 1, 4, fun _ _ => 0, BST_EVT_fs⟩,
  ⟨0x40b00004, 1, 4, 1, 4, fun _ _ => 655361, BST_MEM_CTRL_fs⟩,
  ⟨0x40b00008, 1, 4, 1, 4, fun _ _ => 0, BST_MEM_CMD_fs⟩,
  ⟨0x40b0000c, 1, 4, 1, 4, fun _ _ => 0, BST_MEM_RESULT_fs⟩,
  ⟨0x40b00010, 1, 4, 1, 4, fun _ _ => 0, BST_LB_CMD_fs⟩,
  ⟨0x40b00014, 1, 4, 1, 4, fun _ _ => 0, BST_LB_RESULT_fs⟩,
  ⟨0x40b00018, 1, 4, 1, 4, fun _ _ => 100, BST_LB_CFG_fs⟩,
  ⟨0x40b00020, 1, 4, 1, 4, fun _ _ => 1342234624, BST_LEDGER_BASE_fs⟩,
  ⟨0x40b00024, 1, 4, 1, 4, fun _ _ => 0, BST_LEDGER_HEAD_fs⟩,
  ⟨0x40b00028, 1, 4, 1, 4, fun _ _ => 0, BST_LEDGER_SEQ_fs⟩,
  ⟨0x40b00100, 15, 4, 1, 4, fun _ _ => 1, BST_MEM_UNIT_fs⟩,
  ⟨0x40b00200, 12, 4, 1, 4, fun _ _ => 0, BST_LB_STAT_fs⟩,
  ⟨0x40b00300, 15, 16, 4, 4, fun _ _ => 0, BST_REPAIR_fs⟩]

/-- The registers of block BST. -/
def regsBst : List RegRow := regsBst0

/-- The table of the block that holds address `a` (R547). -/
def regTable (a : Nat) : List RegRow :=
  if 0x20000000 ≤ a ∧ a < 0x20800000 then regsLane
  else if 0x22000000 ≤ a ∧ a < 0x22080000 then regsFrm
  else if 0x21000000 ≤ a ∧ a < 0x21080000 then regsHost
  else if 0x30000000 ≤ a ∧ a < 0x30200000 then regsBnd
  else if 0x30800000 ≤ a ∧ a < 0x30804000 then regsRpt
  else if 0x31000000 ≤ a ∧ a < 0x31003000 then regsLst
  else if 0x32000000 ≤ a ∧ a < 0x32001000 then regsFen
  else if 0x40700000 ≤ a ∧ a < 0x40709000 then regsOwn
  else if 0x40300000 ≤ a ∧ a < 0x40302000 then regsEvr
  else if 0x40a00000 ≤ a ∧ a < 0x40a01000 then regsPmc
  else if 0x40800000 ≤ a ∧ a < 0x40810000 then regsSto
  else if 0x40500000 ≤ a ∧ a < 0x40501000 then regsMem
  else if 0x40400000 ≤ a ∧ a < 0x40402000 then regsDma
  else if 0x40000000 ≤ a ∧ a < 0x40003000 then regsCrp
  else if 0x40100000 ≤ a ∧ a < 0x40101000 then regsHkc
  else if 0x40200000 ≤ a ∧ a < 0x40201000 then regsGrd
  else if 0x40600000 ≤ a ∧ a < 0x40608000 then regsSnk
  else if 0x40900000 ≤ a ∧ a < 0x40910000 then regsCel
  else if 0x40b00000 ≤ a ∧ a < 0x40b01000 then regsBst
  else []

/-- The row and the indices of the register at `a`, if the tables name one. -/
def regRow? (a : Nat) : Option (RegRow × Nat × Nat) :=
  (regTable a).findSome? fun r => (r.index a).map fun ij => (r, ij)

/-- The reset word of the register at `a` (R8); 0 where no table names a register (R548). -/
def resetWord (a : Nat) : BitVec 32 :=
  match regRow? a with
  | some (r, i, j) => BitVec.ofNat 32 (r.reset i j)
  | none => 0

/-- The writable fields of the register at `a`. -/
def regFields (a : Nat) : List (Nat × Nat × Acc) :=
  match regRow? a with
  | some (r, _) => r.fields
  | none => []

end Sys2Proof.Machine
end

