-- ==== Sys2Proof/Machine/State.lean ====
section
/-! DEFINITION. The state of the part as plain data: every register of the spec's register tables (a sparse list, R8), the
memories, and the state that the rules give each block beyond its registers; the queue of waiting commands; the state after
reset. -/

namespace Sys2Proof.Machine

/-- Why the machine stops. Nothing in the model raises it: every command of the part has an effect or changes nothing
(safe: a stop that cannot be reached). -/
inductive Fault
  /-- Raised by no meaning; it stands so that the type has a value. Safe. -/
  | unreached
deriving DecidableEq, Repr

/-- Why a command has no meaning. -/
inductive Refusal
  /-- A command that the model does not give a meaning to, by its name in the table. Safe: the machine stops. -/
  | notModelled (mnemonic : String)
deriving DecidableEq, Repr

/-- The completion of the last register access or command (R13), with the words a read returned. -/
structure Reply where
  code : Code
  data : List Word
deriving DecidableEq, Repr, Inhabited

/-- R54 RECAL that is QUEUED: its slice, and how far it has come (0 waiting for a SHADOW phase, 1 its slice retires at the
end of the current slot, 2 its slice is the spare of the current slot). -/
structure Recal where
  k : Nat
  stage : Nat
deriving DecidableEq, Repr, Inhabited

/-- Line converters of one lane, beyond the registers (chapter 02). -/
structure Conv where
  /-- a rotation slot is in progress (R42) -/
  slotOn : Bool := false
  /-- length code of the current slot (LANE_ADC_CTRL.slot_len takes effect at the next slot) -/
  slotLen : Nat := 0
  /-- rotation is paused by a completed HOLD (R54) -/
  paused : Bool := false
  /-- a HOLD is HELD (R54), with the slice field that it was written with -/
  holdPend : Bool := false
  holdK : Nat := 0
  /-- a RECAL is QUEUED (R54) -/
  recal : Option Recal := none
  /-- slots completed in the current rotation of 65 (R42, ROT_DONE) -/
  slots : Nat := 0
  /-- the latest estimates of each slice, for the failure test of R57 -/
  est : List SliceEst := List.replicate 65 ⟨0, 0, 0⟩
  /-- active main tap position (R59, R63) -/
  mainPos : Nat := 1
  /-- a FIR commit waits for its boundary (R63) -/
  firPend : Bool := false
  /-- a bank swap waits for its boundary (R63) -/
  swapPend : Bool := false
deriving DecidableEq, Repr, Inhabited

/-- Resets in force (chapter 14). -/
structure Rst where
  /-- power-on reset is asserted (R389) -/
  por : Bool := false
  /-- the RESET_N reset is in force (R389) -/
  resetN : Bool := false
  /-- a CMD, WDOG or LOCKSTEP reset, or a CLK_NOFOSC reset with that reach, is in force (R391) -/
  wide : Bool := false
  /-- a CLK_NOFOSC reset is in force (R380, R391) -/
  nofosc : Bool := false
  /-- the reset in force reaches the lanes and the framing too (CLK_NOFOSC before SC's first release, R390) -/
  deep : Bool := false
  /-- the blocks held by their bit of CRP_BLK_RST, by bit number (R394) -/
  held : List Nat := []
  /-- blocks whose release has been requested (R394) -/
  relReq : List Nat := []
  /-- State.now at the assertion of a block's reset, by bit number (R394) -/
  heldAt : List (Nat × Nat) := []
  /-- blocks whose own release waits for a wider reset to end (R395) -/
  relDue : List Nat := []
  /-- State.now when a reset was last applied, while it is in force (R396) -/
  causeAt : Option Nat := none
  /-- what stood when that reset was applied: the watchdog's second interval was running; OWN_STAT (R392) -/
  causeWd : Bool := false
  causeOwn : Word := 0
  /-- the boot ROM's reads of the boot flash that are not over, each its address and length, and the system-clock cycles of the first
  (R404) -/
  reads : List (Nat × Nat) := []
  readT : Nat := 0
  /-- SC has been released since the last power-on reset or RESET_N (R393, R403) -/
  released : Bool := false
  /-- an attic load runs (R399) -/
  atticBusy : Bool := true
  /-- the fill of the memories runs (R343) -/
  fillBusy : Bool := true
deriving DecidableEq, Repr, Inhabited

/-- One LMS step unit (R84 to R87). -/
structure LmsUnit where
  /-- 0 idle, 1 ACCUM waits for its boundary, 2 accumulating, 3 APPLY waits for its boundary -/
  phase : Nat := 0
  /-- samples still to take -/
  left : Nat := 0
  /-- exact gradient sums, in 1/256 LSB² (taps) or 1/16 LSB (levels) -/
  sums : List Int := List.replicate 8 0
  /-- configuration word in use -/
  cfg : Word := 0
  /-- APPLY shift -/
  mu : Nat := 0
  /-- an ACCUM has completed since the configuration was last written -/
  accDone : Bool := false
deriving DecidableEq, Repr, Inhabited

/-- Receiver of one lane, beyond the registers (chapter 03). -/
structure Det where
  /-- consecutive low-signal blocks (R93) -/
  low : Nat := 0
  /-- op of a HELD receiver command (R92) -/
  cmd : Option Nat := none
  /-- blocks and mismatches of the monitor window in progress, and its length code (R93) -/
  winBlocks : Nat := 0
  winCount : Nat := 0
  winLen : Nat := 4
  /-- whether the last window completed in DETECT met the lock criterion -/
  winMet : Option Bool := none
  /-- consecutive windows above the SEAM loss threshold -/
  seamBad : Nat := 0
  /-- the integrator has been at its limit in every block of the window -/
  freqPin : Bool := true
  /-- fields of LANE_DET_CTRL in force (they change at block boundaries) -/
  seamMode : Nat := 1
  seedPen : Nat := 8
  relShift : Nat := 4
  bmShift : Nat := 6
  /-- LANE_TR_CTRL in force -/
  trEn : Bool := false
  kp : Nat := 4
  ki : Nat := 16
  fLim : Nat := 200
  /-- frequency integrator in 2^-32 UI per symbol (R69) and phase in 2^-40 UI (R78) -/
  freq : Int := 0
  phase : Int := 0
  /-- what the last block leaves for the next: its last 47 corrected samples, its last 18 equaliser outputs with the levels and
  metric shift that they are judged by, its last two decided symbols, and the end of its last window (R67, R74, R76, R77) -/
  xTail : List Int := List.replicate 47 0
  yTail : List Int := List.replicate 18 0
  levTail : List (Int × Nat) := []
  bmTail : Nat := 6
  decTail : List Nat := [0, 0]
  seamTail : List Nat := []
  /-- taps with a direct write that waits for its boundary (R83) -/
  tapPend : List Nat := []
  lms : List LmsUnit := List.replicate 4 {}
  /-- histogram run: 0 none, 1 waits for its boundary, 2 running; samples left; offset in the block (R88) -/
  hist : Nat := 0
  histLeft : Nat := 0
  histPos : Nat := 0
deriving DecidableEq, Repr, Inhabited

/-- A transmit container: the blocks that wait, oldest first (R126), and the next block sequence number (R124). -/
structure CtrTx where
  wait : List Nat := []
  seq : Nat := 0
deriving DecidableEq, Repr, Inhabited

/-- A receive container: the blocks that wait (none: a missing block, R127), whether its play-out depth has filled, the next
sequence number, and the block last played to the port side. -/
structure CtrRx where
  wait : List (Option Nat) := []
  filled : Bool := false
  expect : Option Nat := none
  played : Nat := 0
deriving DecidableEq, Repr, Inhabited

/-- A run of received bits with the reliability of each (R75): bit i of `bits`, and the four bits at 4 i of `rel`. -/
structure Soft where
  bits : Nat := 0
  rel : Nat := 0
  len : Nat := 0
deriving DecidableEq, Repr, Inhabited

/-- Framing of one line lane, beyond the registers (chapter 04). -/
structure Frm where
  /-- bits that the detector has delivered and no received frame has taken (R70, R116) -/
  rx : Soft := {}
  /-- payload of the last frame received while ALIGNED (R106), its message bits as received or corrected, the codewords of it that
  have been decoded (4 g + k), and the message word at which the next cell begins (R124) -/
  pay : Soft := {}
  msg : Nat := 0
  decoded : List Nat := []
  word : Nat := 0
  /-- the 257-bit blocks of that frame marked in error towards the host side (R111), and the bits that the standard's inner decoder
  last delivered (R120) -/
  marks : List Nat := []
  inner : Nat := 0
  /-- the group of host lanes that serves the lane while it is up: its first host lane and its size (R20, R123) -/
  grp : Option (Nat × Nat) := none
  /-- symbols of the frame last started, 2 bits each, and the last seven symbols of the one before it, newest first (R100, R103) -/
  sym : Nat := 0
  symTail : List Nat := []
  /-- live counters of R135, in the order of its table -/
  cnt : List Nat := List.replicate 11 0
  /-- matches after the first in CONFIRM, frames in a row with a bad align, frames in HUNT without a match (R116) -/
  conf : Nat := 0
  bad : Nat := 0
  miss : Nat := 0
  /-- inner encoder state, the last three information bits (R101, R104) -/
  enc : Nat := 0
  /-- ramp_len of the ramp in progress (R132, FRM_SQ_CTRL) -/
  rampLen : Nat := 0
  /-- corrected symbols in the 1.0 ms window (R136) -/
  degSum : Nat := 0
  /-- a codeword of this frame was uncorrectable (R137) -/
  uncorr : Bool := false
  /-- first interleave group of this frame whose cells are discarded, 4 for none (R128) -/
  skip : Nat := 4
  /-- full number of the last received frame, once known (R113) -/
  num : Option Nat := none
  /-- mf 0, 1 and 2 received since ALIGNED -/
  seen : List Bool := [false, false, false]
  /-- numbers and arrival times of the last received frames (R118) -/
  arr : List (Nat × Int) := []
  /-- the crate being received lost a block to a failed CRC (R115) -/
  spoiled : Bool := false
  /-- forced causes in force (R134) -/
  causes : List Nat := []
  /-- round-robin place of the cell scheduler (R125) -/
  rr : Nat := 0
  txc : List CtrTx := List.replicate 128 {}
  rxc : List CtrRx := List.replicate 128 {}
  /-- overhead block and cells (container, sequence) of the frame last started (R112, R124) -/
  oh : Nat := 0
  cells : List (Nat × Nat) := []
deriving DecidableEq, Repr, Inhabited

/-- One host lane, beyond the registers (chapter 05). -/
structure HostL where
  /-- op of the HELD command (R148) -/
  cmd : Option Nat := none
  /-- sync-header lock of this lane in ACQUIRE (R148) -/
  shLock : Bool := false
  /-- size of the group last aligned from this lane, 0 for none, and the numbers in the alignment markers of the FEC lanes as they come
  (R144, R145) -/
  grp : Nat := 0
  ids : List Nat := []
  /-- HOST_TRAIN_REQ written since TRAIN was entered; hardware sends receiver ready (R153) -/
  wrote : Bool := false
  auto : Bool := false
  /-- markers in a row; training frames sent since TRAIN was entered (R151) -/
  marks : Nat := 0
  sent : Nat := 0
  /-- the last control and status field received, with how often in a row (R151) -/
  ctl : Nat := 0
  ctlRep : Nat := 0
  sts : Nat := 0
  stsRep : Nat := 0
  /-- response and mirror bit sent in the status field (R152) -/
  resp : Nat := 0
  mirror : Bool := false
  /-- frames in a row with receiver ready sent, up to 3; the partner's ready has come in 3 frames -/
  sentReady : Nat := 0
  gotReady : Bool := false
  /-- taps written that wait for their boundary (R154) -/
  firPend : Bool := false
  /-- SYNC_IN edge armed; band-clock period of an LEMC boundary (R163); every SYSREF error -/
  armed : Bool := false
  lemc : Option Nat := none
  /-- release instant of the receive link that starts here, in band-clock periods (R164) -/
  relAt : Nat := 0
  sysrefErrs : Nat := 0
  /-- an edge has come since the lane entered ALIGN (R148) -/
  edge : Bool := false
  /-- receive equaliser: the 12 feed-forward taps, the decision-feedback tap, the adapted CTLE setting and the steps of sign-sign LMS
  taken (R155) -/
  ffe : List Int := List.replicate 12 0
  dfe : Int := 0
  ctle : Nat := 3
  lms : Nat := 0
  /-- transmitted bits inverted by inject (R156) -/
  inverted : Nat := 0
  /-- live checker counters: errors, losses of lock, bits (R158) -/
  chkErr : Nat := 0
  chkUnl : Nat := 0
  chkBits : Nat := 0
  /-- live FEC counters: codewords, corrected symbols, uncorrectable, then the 16 bins (R159) -/
  fec : List Nat := List.replicate 19 0
  /-- first codeword of a pair as it is handed on, and whether it was uncorrectable (R147) -/
  half : Option (List Nat × Bool) := none
  /-- bits decoded for the line payload that no frame has taken yet, and their number (R106, R147) -/
  out : Nat := 0
  outLen : Nat := 0
deriving DecidableEq, Repr, Inhabited

/-- Repeater control of one band path, beyond the registers (chapter 07). -/
structure RptP where
  /-- state ramp r in 1/960 dB (R211) -/
  r : Nat := 57600
  /-- a fast ramp-down runs; the band-clock period at which it began (R211) -/
  fast : Bool := false
  fastAt : Nat := 0
  /-- applied reduction in 1/960 dB (R205) -/
  red : Nat := 0
  /-- repeater factor in units of 2^-16 (R204) -/
  a : Nat := 0
  /-- reductions in 1/16 dB: lim, nr, ld, cl (R205) -/
  lim : Nat := 0
  nr : Nat := 0
  ld : Nat := 0
  cl : Nat := 0
  /-- causes present since the last ramp-up (R213) -/
  seen : Nat := 0
  /-- osc_hold has not elapsed since the last trip; times of the trips (R216) -/
  oscHold : Bool := false
  trips : List Nat := []
  /-- OUT levels of the last windows, newest first; windows in a row over the residual and saturation limits (R215) -/
  hist : List Int := []
  resRun : Nat := 0
  satRun : Nat := 0
  /-- the last noise evaluation lay at or below limit - 0.5 dB (R221) -/
  low : Bool := false
  /-- the donor flag fell while the path followed it; hold has passed since (R222) -/
  lost : Bool := false
  gone : Bool := false
  /-- the TDD gate is open; band-clock periods of the burst's start and end (R225) -/
  gate : Bool := false
  gateAt : Nat := 0
  gateEnd : Nat := 0
  /-- OUT mean levels of the last meter windows in 1/64 dB, newest first, and windows since nr was last evaluated (R220, R221) -/
  levels : List Int := []
  nrRun : Nat := 0
deriving DecidableEq, Repr, Inhabited

/-- A reception in progress: the PSS peak power |c|², the detection metric (1/16 dB), the sync time, the PSS identity and the number of
its first sample at the listening rate since START, whether its first evaluation has confirmed it, and the frames collected for the PBCH
(R233 to R235). -/
structure Rxn where
  pow : Nat
  m : Nat
  time : Nat
  n2 : Nat := 0
  start : Nat := 0
  first : Bool := false
  /-- soft PBCH bits of the radio frames collected, newest first (R235) -/
  frames : List (List Int) := []
deriving DecidableEq, Repr, Inhabited

/-- A meter's running sums over a window: samples, the sum and the largest of |x|² in 2^-30 (R186). -/
structure Mtr where
  n : Nat := 0
  sum : Nat := 0
  peak : Nat := 0
deriving DecidableEq, Repr, Inhabited

/-- A reception that ended DONE: rat (0 E-UTRA, 1 NR), cell, group and the model's time of it (R244). -/
structure Seen where
  rat : Nat
  pci : Nat
  group : Nat
  t : Nat
deriving DecidableEq, Repr, Inhabited

/-- One listener channel, beyond the registers (chapter 08). -/
structure LstCh where
  /-- phase of the NCO and samples taken at the port since the last one at the listening rate; the newest mixed samples (R229) -/
  phase : Nat := 0
  taken : Nat := 0
  mixed : List Nat := []
  /-- the scaled samples of the last 2 ms, newest first, each with the gain of its window (R232), and the power of the window so far
  (R231) -/
  hist : List (Nat × Nat) := []
  /-- the samples at the listening rate since START, and the port timestamp of the newest -/
  cnt : Nat := 0
  stamp : Int := 0
  /-- the window that is being filled -/
  win : Mtr := {}
  /-- the reception in progress (R232) -/
  rx : Option Rxn := none
  /-- the AGC freezes at the next window boundary (R232) -/
  freezePend : Bool := false
  /-- the watch correlator's candidate (R238) -/
  cand : Option Rxn := none
  /-- cell whose MIB LST_MIB holds (R235) -/
  mibCell : Option Nat := none
  /-- high word of the last sync time, before it is latched by a read -/
  timeH : Word := 0
  /-- tracked frame boundary; no measurement has come since START (R245) -/
  track : Option Nat := none
  fresh : Bool := true
  /-- accepted pattern that waits for its boundary; the pattern in force and the boundary at which it took effect (R247) -/
  tddPend : Option (Word × Word) := none
  tddA : Word := 0
  tddB : Word := 0
  tddAt : Int := 0
deriving DecidableEq, Repr, Inhabited

/-- One correlator channel: samples taken and the sums of x e^{-jωn}, in 2^-45 (R194). -/
structure Corr where
  n : Nat := 0
  re : Int := 0
  im : Int := 0
deriving DecidableEq, Repr, Inhabited

/-- The measurement run (R194, R195): the band time of its start, the port timestamp of channel 0's first sample, the 16 channels, and the
samples that each has met and not yet taken, oldest first, with their port timestamps. -/
structure Meas where
  start : Int := 0
  t0 : Option Int := none
  ch : List Corr := List.replicate 16 {}
  wait : List (List (Int × Nat)) := List.replicate 16 []
deriving DecidableEq, Repr, Inhabited

/-- A sample of an input port: the port, the band time at which it crosses the port, and its word (R170). -/
structure Carried where
  port : Nat
  t : Nat
  w : Nat
deriving DecidableEq, Repr, Inhabited

/-- A window of a band path at the points IN, RES and OUT (R186, R215): the three meters, the samples that the gain stage saturated, and
whether the gate of R225 has been open throughout and has changed. -/
structure MtrWin where
  mIn : Mtr := {}
  mRes : Mtr := {}
  mOut : Mtr := {}
  sat : Nat := 0
  open_ : Bool := true
  edge : Bool := false
deriving DecidableEq, Repr, Inhabited

/-- An output sample of a band path that is to cross its output port: the band time of that, its word before the gain stage, and the samples
at IN and RES since the output sample before. -/
structure Flight where
  t : Nat
  w : Nat
  ins : List (Nat × Nat) := []
deriving DecidableEq, Repr, Inhabited

/-- A sample that a band path has sent to an output port: the band time at which it crossed, the port, the band-clock periods that it
lasts and its word. -/
structure OutSample where
  t : Nat
  port : Nat
  per : Nat
  w : Nat
deriving DecidableEq, Repr, Inhabited

/-- One band path, beyond the registers (chapter 06). -/
structure BndP where
  /-- active filter bank: coefficients from h_0 on (zero beyond), N and mode (R180) -/
  act : List Nat := [65536]
  actN : Nat := 1
  actMode : Nat := 0
  /-- order of the ADMIT and of the admission (R198, R200) -/
  req : Nat := 0
  adm : Nat := 0
  /-- an ADMIT is QUEUED and has not reached its final code (R199) -/
  admWait : Bool := false
  /-- gain ramp: from, to, and the band-clock period at which it began (R183) -/
  gFrom : Nat := 65536
  gTo : Nat := 65536
  gAt : Nat := 0
  /-- NCO phase of the latest input sample and the band-clock period of that sample (R179) -/
  nco : Nat := 0
  ncoAt : Nat := 0
  /-- index of the latest input sample, counted from sample 0; the latest restart instant that the path has taken, and those to come
  (R190) -/
  idx : Nat := 0
  restart : Nat := 0
  restarts : List Nat := []
  /-- histories, newest first: the channel filter's input and the halfband stages' (R180, R182) -/
  hist : List Nat := []
  hb : List (List Nat) := List.replicate 4 []
  /-- samples at IN and RES since the last output sample; the output samples that have yet to cross, oldest first; those that have crossed,
  newest first (R184, R189) -/
  ins : List (Nat × Nat) := []
  fly : List Flight := []
  out : List OutSample := []
  /-- the meters' window so far, and the finished ones that have not been reported, oldest first (R186) -/
  mtr : MtrWin := {}
  mtrs : List MtrWin := []
  /-- the same of the oscillation detector's windows, with the gate's state at the last output sample (R215) -/
  osc : MtrWin := {}
  oscs : List MtrWin := []
  gateWas : Bool := false
  /-- band-clock period at which the fade's count of output samples began (R187) -/
  fadeAt : Nat := 0
  /-- reason of the last commit that ended ABORTED: 1 RELEASE (R188) -/
  fadeWhy : Nat := 0
deriving DecidableEq, Repr, Inhabited

/-- SYNC_IN and restarts of the band engine (R190 to R193). -/
structure BndSync where
  /-- mode 1 is armed -/
  armed : Bool := false
  /-- the pin was stuck high and has not been low since -/
  stuck : Bool := false
  /-- restart instants from edges, and the one of a HELD command -/
  edges : List Nat := []
  cmd : Option Nat := none
  /-- restarts made -/
  made : Nat := 0
deriving DecidableEq, Repr, Inhabited

/-- A TX or an RX burst (R261): its start S and end E in band time. -/
structure Burst where
  tx : Bool
  s : Int
  e : Int
deriving DecidableEq, Repr, Inhabited

/-- The levels of a master's FSPI_CSN, FSPI_SCK and FSPI_MOSI (R266); none where the spec states no level. -/
structure SpiLine where
  csn : Bool
  sck : Bool
  mosi : Option Bool
deriving DecidableEq, Repr, Inhabited

/-- One SPI master, beyond the registers (R266). -/
structure SpiM where
  /-- the levels that its transfer drives, one for each half period of SCK, and the band-clock period of its start -/
  wave : List SpiLine := []
  start : Nat := 0
deriving DecidableEq, Repr, Inhabited

/-- A calibration pass (R265): samples taken and the correlations c_t and c_i at +f_t and -f_t, in 2^-60. -/
structure CalAcc where
  n : Nat := 0
  t : Int × Int := (0, 0)
  i : Int × Int := (0, 0)
deriving DecidableEq, Repr, Inhabited

/-- One front-end sequencer, beyond the registers (chapter 09). -/
structure FenSeq where
  /-- qualification of the four lock inputs by this sequencer's lock_q (R259) -/
  qual : List Bool := List.replicate 4 false
  /-- dur of the current TX and of the HELD one (R256) -/
  dur : Nat := 0
  txDur : Nat := 0
  /-- op of the HELD SETTLE or CAL, 0 for none; its SPI words still run (R260) -/
  op : Nat := 0
  words : Bool := false
  /-- pattern latched at the entry of the current state (R255) -/
  pat : Word := 0
  /-- bursts begin at the next tracked frame boundary, which is still to come (R256) -/
  wait : Bool := false
  /-- burst in progress, and those whose entry times came before its end, in their order (R262); start of the TX burst last
  skipped (R263) -/
  burst : Option Burst := none
  next : List Burst := []
  skip : Option Int := none
  /-- the calibration pass so far (R265) -/
  cal : CalAcc := {}
deriving DecidableEq, Repr, Inhabited

/-- Why a core fetches nothing (R295, R297, R298). -/
inductive Wait
  /-- it executes -/
  | run
  /-- in WAIT -/
  | wait
  /-- in EVWAIT for an event, with the register that takes the outcome and whether a timeout runs -/
  | evwait (e rd : Nat) (timed : Bool)
  /-- a QPOINT with a swap armed has fenced; register rd takes 1 at the swap -/
  | swap (rd : Nat)
deriving DecidableEq, Repr, Inhabited

/-- A posted store whose bus completion has not returned: its address, the system address that it names, its code, once known,
and whether R12 refused it below level K (R286, R342). -/
structure Posted where
  a : Nat
  sys : Nat
  code : Option Code
  priv : Bool := false
  /-- the store's instruction and its level, for the counters (R331, R334) -/
  pc : Word := 0
  lvl : Nat := 0
  /-- its completion carries the stale tag (R322) -/
  stale : Bool := false
deriving DecidableEq, Repr, Inhabited

/-- A store error that waits to be taken: its address, its code, and whether it traps as PRIV (R286). -/
structure StoreErr where
  a : Nat
  code : Code
  priv : Bool
deriving DecidableEq, Repr, Inhabited

/-- One core: its registers and CSRs (R274, R293), and what R286, R297, R298 and R313 make it hold beside them. -/
structure Cpu where
  w : List Word := List.replicate 32 0
  v : List (List Word) := List.replicate 16 (List.replicate 8 0)
  pc : Word := 0
  /-- STATUS: level 0 U, 1 S, 2 K; the saved level; ie and its saved copy -/
  lvl : Nat := 1
  plvl : Nat := 0
  ie : Bool := false
  pie : Bool := false
  /-- XFLAGS -/
  sat : Bool := false
  dz : Bool := false
  tvec : Word := 0
  epc : Word := 0
  cause : Word := 0
  tval : Word := 0
  scratch : Word := 0
  uwinLo : Word := 0
  uwinHi : Word := 0
  /-- KSTATUS -/
  kplvl : Nat := 2
  kpie : Bool := false
  nmiAct : Bool := false
  ktvec : Word := 0
  kepc : Word := 0
  kcause : Word := 0
  ktval : Word := 0
  kscratch : Word := 0
  /-- CYCLE and the latched high words (R294) -/
  cycle : Nat := 0
  cycleH : Word := 0
  timeH : Word := 0
  /-- the 48-bit counters, their latched high words, CNT_SEL and CNT_UEN -/
  cnt : List Nat := List.replicate 8 0
  cntH : List Word := List.replicate 8 0
  cntSel : List Word := List.replicate 8 0x700
  cntUen : Nat := 0
  /-- swaps since reset (SHELF_STAT) -/
  swaps : Nat := 0
  wait : Wait := .run
  posted : List Posted := []
  serr : Option StoreErr := none
  more : Bool := false
  /-- a HALT waits for the instruction boundary: 0 none, 1 OWN_CORE_CTRL, 2 the hatch -/
  haltReq : Nat := 0
  /-- non-maskable events stay pending until KTVEC is written (R326) -/
  nmiHold : Bool := true
  /-- entries of the images in shelves A and B -/
  entryA : Nat := 0
  entryB : Nat := 0
  /-- their version fields (R468) -/
  verA : Nat := 0
  verB : Nat := 0
deriving DecidableEq, Repr, Inhabited

/-- A request that waits at the port of a gated block (R380): a write, a read, an access of the hatch bus, the management window. -/
inductive Waiting
  | write (q : Rq) (a : Nat) (bytes : List Byte)
  | read (q : Rq) (a : Nat)
  | hatch (a : Word) (w : Option Word)
  | window
deriving DecidableEq, Repr, Inhabited

/-- One merge-buffer entry (R339): the word's address, the bytes that are valid with their values, and the stores that wait for
it, by core and address, and the master whose store took the entry. -/
structure Merge where
  a : Nat
  bytes : List (Option Byte)
  who : List (Nat × Nat)
  q : Rq := .engine
deriving DecidableEq, Repr, Inhabited

/-- One target port's arbiter (R347): the slot whose turn it is, its grants in this round, the member last granted in each slot,
and the weights of the round. -/
structure Arb where
  slot : Nat := 0
  used : Nat := 0
  last : List Nat := List.replicate 7 0
  w : List Nat := [4, 4, 4, 8, 2, 2, 1]
deriving DecidableEq, Repr, Inhabited

/-- The storage controller, beyond the registers (R360 to R362): op in progress (0 none), RAW's data block (0 none, 1 read,
2 write), retries of the block, STOP received, the request line withdrawn, the response type of the last command, the commands sent
on EMMC_CMD for the operation, each its index and argument, and the FIFOs, oldest byte first. -/
structure Sto where
  op : Nat := 0
  raw : Nat := 0
  tries : Nat := 0
  stop : Bool := false
  gone : Nat := 0
  rtype : Nat := 0
  /-- STO_ARG and STO_CNT as they stood at the command's start -/
  arg : Nat := 0
  cnt : Nat := 0
  /-- dir and len of the boot-flash transaction in progress (R363) -/
  norDir : Nat := 0
  norLen : Nat := 0
  sent : List (Nat × Nat) := []
  rx : List Byte := []
  tx : List Byte := []
deriving DecidableEq, Repr, Inhabited

/-- The LOAD in progress (R315): target core and shelf, source, and whether it copies the data initialisation. -/
structure Load where
  c : Nat
  shelf : Nat
  src : Nat
  dinit : Bool
  /-- when its last byte is hashed, and the signing unit starts on its signature (R317, R467) -/
  hashAt : Nat := 0
deriving DecidableEq, Repr, Inhabited

/-- A clock switch of the system domain in progress (R381, R382): its target (0 FOSC, 1 SPLL), whether a command asked for it, and
the pending bits that wait for its end. -/
structure ClkSw where
  target : Nat
  cmd : Bool
  nmi : List Nat
deriving DecidableEq, Repr, Inhabited

/-- Clocks, beyond the registers (chapter 13). -/
structure Clk where
  /-- level of the REF_SEL strap (R365) -/
  refSel : Bool := false
  /-- good windows in a row (R379) -/
  good : Nat := 0
  sw : Option ClkSw := none
  /-- the pending bits that wait while the domain is gated (R380) -/
  gateNmi : List Nat := []
  /-- PLLs that stop has powered down and that have not locked since (R410, R416) -/
  cold : List Nat := []
  /-- always-on time in 2^-40 s (R375), the staged seconds, and the load that waits for the next AOSC cycle (R376) -/
  aon : Nat := 0
  stage : Nat := 0
  load : Option Nat := none
  /-- the discipline run in progress is discarded (R375) -/
  discBad : Bool := false
  /-- blocks that had work or an access within the last 16 cycles (R384) -/
  awake : Nat := 0
  /-- the part of a band-clock period that BPLL's trim has gained, in units of 2^-10 × 10^-9 (R371) -/
  part : Nat := 0
deriving DecidableEq, Repr, Inhabited

/-- One bias pin, beyond the registers (R434, R441): phase accumulator, code last driven, and held at 0 mA. -/
structure HkPin where
  phase : Nat := 0
  out : Nat := 0
  zero : Bool := false
deriving DecidableEq, Repr, Inhabited

/-- A supply request (R418): rail, millivolts, who asks (0 firmware, 1 the retention request of R410, 2 the restore of R416), and
the AckCode of the last response. -/
structure Avs where
  rail : Nat
  mv : Nat
  who : Nat
  ack : Option Nat := none
deriving DecidableEq, Repr, Inhabited

/-- Power and thermal state beyond the registers (chapter 15). -/
structure Pwr where
  /-- 0 run, 1 stop entry before step 3, 2 the retention request runs, 3 power-down waits for a measurement, 4 stop, 5 waking
  (R410, R416) -/
  st : Nat := 0
  /-- the stop is forced by shutdown: no SC state is saved (R426) -/
  forced : Bool := false
  /-- SC's state as saved at stop entry (R410) -/
  saved : Option Cpu := none
  /-- the supply request in progress, and the hardware request that waits for it (R419) -/
  avs : Option Avs := none
  avsNext : Option Avs := none
  /-- masks of the measurement in progress and of the pending demand (R422) -/
  meas : Option Nat := none
  measNext : Nat := 0
  /-- shut_ms runs; it passed while the part was waking or its clock stood still (R426) -/
  shut : Bool := false
  shutAfter : Bool := false
  /-- the wake inputs that qualified during step 3 or 4 of stop entry (R410) -/
  wake : Option Nat := none
deriving DecidableEq, Repr, Inhabited

/-- One bias pin's guard in a parameter block (R435, R437). -/
structure AtticPin where
  role : Nat := 3
  lane : Nat := 0
  lo : Nat := 0
  hi : Nat := 0
deriving DecidableEq, Repr, Inhabited

/-- The pair record of a parameter block that enables the pair (R494). -/
structure PairRec where
  addr : Nat
  partner : Nat
  pref : Nat
  hbLane : Nat
  hbLaneEn : Nat
  lanes : Nat
deriving DecidableEq, Repr, Inhabited

/-- One copy of the parameter block: whether its CRC-32 matches, and the values that it loads (R398 to R400, R437). -/
structure AtticPar where
  ok : Bool := false
  pins : List AtticPin := List.replicate 16 {}
  swing : Nat := 0
  gain : List Nat := [0, 0]
  ceil : Int := -3840
  floors : List Nat := [0, 0, 0]
  pair : Option PairRec := none
deriving DecidableEq, Repr, Inhabited

/-- One key slot: whether its record's CRC is valid, the three copies of its enrolled and revoked bits, its hash (R464). -/
structure KeySlot where
  ok : Bool := false
  enrolled : Nat := 0
  revoked : Nat := 0
  hash : List Byte := List.replicate 32 0
deriving DecidableEq, Repr, Inhabited

/-- The attic: the two copies of the parameter block, the three copies of the safe-level word (R398), the policy record (R557),
the password hash, none where its record is empty (R460), the identity public key and private key, none where the record is empty
(R463), and the 12 key slots. -/
structure Attic where
  a : AtticPar := {}
  b : AtticPar := {}
  safe : List Word := [0, 0, 0]
  polOk : Bool := false
  claimMask : Nat := 0
  readMask : Nat := 0
  hatchField : Bool := true
  pass : Option (List Byte) := none
  pub : Option (List Byte) := none
  priv : Option (List Byte) := none
  slots : List KeySlot := List.replicate 12 {}
deriving DecidableEq, Repr, Inhabited

/-- A fuse command in progress: 1 ENROL or 2 REVOKE, the slot, the hash to fuse (R466). -/
structure Fuse where
  op : Nat
  slot : Nat
  hash : List Byte
deriving DecidableEq, Repr, Inhabited

/-- A signing command (R467 to R469): 1 ATTEST or 2 SIGN, the buffer; the band time, the always-on time and the time at its start;
whether it still waits for the loader; the shelves hashed, each its hash and CHANGED; whether a write has reached the one being hashed;
whether an uncorrectable error was met. -/
structure Sign where
  op : Nat
  buf : Nat
  band : Nat
  aon : Nat
  start : Nat := 0
  wait : Bool := false
  hashed : List (List Byte × Bool) := []
  cur : Bool := false
  bad : Bool := false
deriving DecidableEq, Repr, Inhabited

/-- Ownership, management interface and hatch, beyond the registers (chapter 17). -/
structure Own where
  /-- length of the running lease in ms and the time it began (R450) -/
  leaseLen : Nat := 0
  leaseAt : Nat := 0
  /-- hatch: nonce with the time of its issue (R459), mailbox, instruction register, EXTEST in force, and HATCH_BUS's last access:
  address, data, direction, outcome (R559) -/
  nonce : Option (List Byte × Nat) := none
  mbox : List Host.Cell := []
  ir : Nat := 0xFF
  ext : Bool := false
  bus : Word × Word × Bool × Code := (0, 0, false, .done)
  /-- key RAM load: 0 none, 1 after the attic load, 2 KEYLOAD HELD; the key RAM, empty where zeroised (R462, R463) -/
  key : Nat := 0
  keyRam : List Byte := []
  /-- an interrupt flag that the CMIS agent has set (R456) -/
  cmis : Bool := false
  fuse : Option Fuse := none
  sign : Option Sign := none
  /-- I3C dynamic address, in-band interrupts enabled (R453, R456), bank and page select (R454) -/
  dyn : Option Nat := none
  ibi : Bool := false
  bank : Nat := 0
  page : Nat := 0
  /-- pages 0xB0 (bytes 128 to 136) and 0xB1 (R455) -/
  b0 : List Byte := List.replicate 9 0
  b1 : List Byte := List.replicate 128 0
deriving DecidableEq, Repr, Inhabited

/-- A crate in a transmit queue (R481): header and payload, its class, and who waits for it: a send slot 0 to 7, 8 the remote
access, 9 the write that follows an RREPLY (R488). -/
structure QEnt where
  bytes : List Byte
  cls : Nat
  own : Option Nat := none
deriving DecidableEq, Repr, Inhabited

/-- One link: queue, oldest crate first; the crate whose first byte has left and how many of its bytes have; the DEV_ID last heard;
whether an address was heard (R476, R481). -/
structure SnkLink where
  q : List QEnt := []
  cur : Option QEnt := none
  pos : Nat := 0
  id : Option Nat := none
  heard : Bool := false
deriving DecidableEq, Repr, Inhabited

/-- The receiver of a FAB port (R472): the state of its code-group synchronisation, the good groups since the last bad one, whether the
last group was an even one, and the running disparity. -/
structure FabRx where
  st : Nat := 0
  good : Nat := 0
  even : Bool := false
  rd : Bool := false
deriving DecidableEq, Repr, Inhabited

/-- The fabric beyond the registers (chapter 18): links, the receivers of FAB_0 and FAB_1 and the running disparity that each sends with, the last sequence accepted
from each address (R480), the sequence numbers of unicast and flooded crates, the requests of the remote-access engine with the one
served first (R486), the remote access in progress (sequence, device, whether a read; R487), the write that waits for its RREPLY
to leave (class PARTNER, sender, word; R488), a yield in progress (1 for a fault, 2 for a SWITCH; R492) and the heartbeat count. -/
structure Snk where
  links : List SnkLink := List.replicate 10 {}
  fab : List FabRx := [{}, {}]
  fabRd : List Bool := [false, false]
  last : List (Nat × Nat) := []
  seq : Nat := 0
  bseq : Nat := 0
  reqs : List (List Byte) := []
  rra : Option (Nat × Nat × Bool) := none
  after : Option (Bool × Nat × Word) := none
  yieldW : Nat := 0
  hb : Nat := 0
deriving DecidableEq, Repr, Inhabited

/-- A tenant's totals at full precision (R500): received and transmitted bits, load units times ticks of 1,024 band-clock periods,
and |x|² · 2^rate summed in units of 2^-30 of full-scale power. -/
structure Tot where
  rx : Nat := 0
  tx : Nat := 0
  band : Nat := 0
  en : Nat := 0
deriving DecidableEq, Repr, Inhabited

/-- A commit slot: its sequence number, totals and cellar time (R503). -/
structure CelSlot where
  seq : Nat
  tot : List Tot
  t : Nat
deriving DecidableEq, Repr, Inhabited

/-- The sealed parameter block (R498): record interval, tenant of each line lane, scale of each tenant, oscillator trim, its CRC, and
whether the CRC and the key record are valid (R499). -/
structure Seal where
  interval : Nat
  eth : List Nat
  scale : List Nat
  trim : Nat
  crc : Nat
  ok : Bool
deriving DecidableEq, Repr, Inhabited

/-- The cellar (chapter 19). The totals are lost with its supply; commit slots, seal, counts, log and hash chain are kept. -/
structure Cel where
  tot : List Tot := List.replicate 16 {}
  /-- cellar time in nominal band-clock periods -/
  t : Nat := 0
  slots : List (Option CelSlot) := List.replicate 4 none
  next : Nat := 0
  seq : Nat := 0
  sealed : Option Seal := none
  /-- an early commit has been made since VDD_CEL fell; the last early commit completed (R505, R509) -/
  early : Option Nat := none
  earlyOk : Bool := false
  /-- deferred commits, tamper events and supply losses since sealing -/
  defers : Nat := 0
  tampers : Nat := 0
  losses : Nat := 0
  /-- flags of the next record (R506) -/
  defIv : Bool := false
  lossIv : Bool := false
  empty : Bool := false
  /-- newest record's number, its hash, the record in progress -/
  recNo : Nat := 0
  prev : List Byte := List.replicate 16 0
  snap : Option (Nat × List Byte) := none
  /-- record ring and log ring by offset; entries written, entries that wait (type, detail, seconds); times of the last OPEN and
  CLOSE; changes since the last entry (R508, R509) -/
  ring : List Host.Cell := []
  log : List Host.Cell := []
  /-- CC's data memory by offset (R310) -/
  sram : List Host.Cell := []
  logSeq : Nat := 0
  logWait : List (Nat × Nat × Nat) := []
  openAt : Option Nat := none
  closeAt : Option Nat := none
  changes : Nat := 0
  /-- DMA request line CEL_REC (R507) -/
  line : Bool := false
  /-- the scheduled commit that may be in progress: its slot and when it began (R503, R505) -/
  sched : Option (Nat × Nat) := none
deriving DecidableEq, Repr, Inhabited

/-- A self-test slice in progress: unit, row, and why it runs (0 the walk, 1 the scrubber's word, 2 TEST_ROW) (R512, R516, R519). -/
structure BstSlice where
  u : Nat
  row : Nat
  kind : Nat
deriving DecidableEq, Repr, Inhabited

/-- Self-test beyond the registers (chapter 20): slices in progress, the TEST_ROW that waits for its unit, the logic request
(core, slice, whether it runs), the logic slices whose last run failed (core, slice) (R524). -/
structure Bst where
  slices : List BstSlice := []
  test : Option (Nat × Nat) := none
  lb : Option (Nat × Nat × Bool) := none
  lbFail : List (Nat × Nat) := []
deriving DecidableEq, Repr, Inhabited

/-- One DMA channel beyond its registers: word 3 and next address of the loaded descriptor, its address, a stale reply seen in it,
no burst of it started, a retirement without barrier before it, and the source and destination of the last beat (R349 to R356). -/
structure DmaCh where
  ctl : Word := 0
  next : Nat := 0
  cur : Nat := 0
  stale : Bool := false
  fresh : Bool := false
  loose : Bool := false
  src : Nat := 0
  dst : Nat := 0
  /-- error of the last beat's write, whose acknowledgement follows the retirement -/
  posted : Option Code := none
deriving DecidableEq, Repr, Inhabited

/-- The whole state. -/
structure State where
  /-- registers that do not hold their reset word, by rising address (R6, R8) -/
  regs : List (Nat × Word) := []
  /-- completion of the last access or command (R13) -/
  reply : Reply := ⟨.done, []⟩
  /-- the model's own count of nominal band-clock periods (983.04 MHz) since reset, for rate limits and ages (log 3) -/
  now : Nat := 0
  /-- the model's own count of free values taken (log 2) -/
  free : Nat := 0
  /-- time of the last raise of each rate-limited event (R553), by event number -/
  rate : List (Nat × Nat) := []
  /-- line converters (chapter 02) -/
  conv : List Conv := List.replicate 8 {}
  /-- resets in force (chapter 14) -/
  rst : Rst := {}
  /-- receivers (chapter 03) -/
  det : List Det := List.replicate 8 {}
  /-- framing (chapter 04) and the frame number that all transmit lanes share (R114) -/
  frm : List Frm := List.replicate 8 {}
  frameNo : Nat := 0
  /-- host lanes (chapter 05) -/
  host : List HostL := List.replicate 8 {}
  /-- the model's own count of band-clock periods, for the phases of R163 and later chapters (log 3) -/
  bclk : Nat := 0
  /-- repeater control (chapter 07); MUTE_N as filtered (R223); MUTE_N_STUCK raised for this assertion (R224) -/
  rpt : List RptP := List.replicate 128 {}
  /-- ceilings in force for the running windows of ports, where a lower one has been written (R219) -/
  ceilRun : List (Nat × Int) := []
  /-- ports of which a window since the last step of cl has not stayed 1 dB below the ceiling (R218) -/
  ceilNear : List Nat := []
  muteN : Bool := false
  muteStuck : Bool := false
  /-- listener channels (chapter 08) -/
  lst : List LstCh := List.replicate 2 {}
  /-- receptions that ended DONE of late (R244); the noise meter's group, and each group's count and sum of |x|² in 2^-30 (R248) -/
  seen : List Seen := []
  nfTurn : Nat := 0
  /-- the sums of a group that are full and not yet published, oldest first (R249) -/
  nfDone : List (List Mtr) := List.replicate 16 []
  nf : List Mtr := List.replicate 16 {}
  /-- band engine (chapter 06): paths, restarts, the band time (R170) and the count of admission requests -/
  bnd : List BndP := List.replicate 128 {}
  bsync : BndSync := {}
  bandTime : Nat := 0
  admSeq : Nat := 0
  /-- the measurement run (R194); samples that have yet to cross their input ports; those of ports that output ports carry, newest
  first (R176) -/
  meas : Meas := {}
  inq : List Carried := []
  carry : List Carried := []
  /-- containers whose output ports send zero samples while the band engine is held: lane and container (R201) -/
  bndZero : List (Nat × Nat) := []
  /-- front-end sequencers (chapter 09); the forced cause (R256); COEX_REQ was high, was low since the last accepted change (R270) -/
  fen : List FenSeq := List.replicate 4 {}
  fenForced : Bool := false
  coexHi : Bool := false
  coexLo : Bool := false
  /-- SPI masters (R266) -/
  spi : List SpiM := List.replicate 4 {}
  /-- in-band interrupts sent over the management interface (R456) -/
  ibiSent : Nat := 0
  /-- what is known of the boot flash's contents, by rising address (R405) -/
  flash : List Host.Cell := []
  /-- what the boot-flash master's transaction drives on BOOT_IO_0 to BOOT_IO_3, one entry for each BOOT_CLK period (R363) -/
  norWave : List (List (Option Bool)) := []
  /-- the fourteen cores (chapters 10 and 11); SC leaves reset at level K -/
  cores : List Cpu := (List.replicate 14 {}).set 12 { lvl := 2 }
  /-- system counters (R332) -/
  pmc : List Nat := List.replicate 32 0
  /-- bytes of memory that are not 0, by rising system address (log 4) -/
  mem : List Host.Cell := []
  /-- words with a stored error, by rising address: 1 correctable, 2 uncorrectable (R337) -/
  ecc : List (Nat × Nat) := []
  /-- merge buffers of the 15 units, oldest entry first (R339) -/
  merge : List (List Merge) := List.replicate 15 []
  /-- place of each scrubber in its unit, the word it corrected last with its pass, and the word
  that it corrected in two passes running (R344, R516) -/
  scrubPos : List Nat := List.replicate 15 0
  scrubLast : List (Option (Nat × Nat)) := List.replicate 15 none
  scrubAgain : List (Option Nat) := List.replicate 15 none
  /-- arbiters by target port (R347) -/
  arb : List (Nat × Arb) := []
  /-- storage controller (chapter 12) -/
  sto : Sto := {}
  /-- the part is in stop (R409) -/
  stop : Bool := false
  /-- watchdog interval: its length in eighths of a millisecond and the time run, in band-clock periods (R329) -/
  wdLen : Nat := 0
  wdT : Nat := 0
  /-- time of the last lockstep mismatch (R328) -/
  lockAt : Option Nat := none
  /-- the LOAD in progress (R316) -/
  load : Option Load := none
  /-- requests that their target does not complete, by requester and address (R348) -/
  stuck : List (Rq × Nat) := []
  /-- requests that wait at the ports of the gated system domain, oldest first (R380) -/
  waits : List Waiting := []
  /-- clocks (chapter 13) -/
  clk : Clk := {}
  /-- bias pins and the entry in progress of the housekeeping scan (chapter 16); the monitor trips held, as (lane, pin) (R443) -/
  hkd : List HkPin := List.replicate 16 {}
  scanIdx : Nat := 0
  trips : List (Nat × Nat) := []
  /-- power states, supply requests and thermal demands (chapter 15) -/
  pwr : Pwr := {}
  /-- fuses (R398, R464) and ownership (chapter 17) -/
  attic : Attic := {}
  own : Own := {}
  /-- the fabric and the pair (chapter 18) -/
  snk : Snk := {}
  /-- the cellar (chapter 19) -/
  cel : Cel := {}
  /-- self-test (chapter 20) -/
  bst : Bst := {}
  /-- DMA channels (chapter 12) -/
  dma : List DmaCh := List.replicate 32 {}
  /-- the commands that wait, first in, first out -/
  pending : List Instr := []
deriving DecidableEq, Repr

/-- The machine right after power-on reset, as the log entries 1 and 4 to 9 say. -/
def State.reset : State := {}

end Sys2Proof.Machine
end

