-- ==== Sys2Proof/Machine/Ops.lean ====
section
/-! DEFINITION. The named operations over registers and fields, the completion of a command, the event router's raise
(R324), and the small bit, sign and rounding helpers that the meanings share. -/

namespace Sys2Proof.Machine

abbrev Out := Host.Outcome State Fault Refusal

/-! ## Numbers -/

/-- The signed value of the low `w` bits of `v` (R5). -/
def sgn (w v : Nat) : Int :=
  if v % 2 ^ w < 2 ^ (w - 1) then (v % 2 ^ w : Nat) else (v % 2 ^ w : Nat) - (2 ^ w : Nat)

/-- The `w`-bit two's complement pattern of `x` (R5). -/
def enc (w : Nat) (x : Int) : Nat := (x % (2 ^ w : Nat)).toNat

/-- `x` limited to `lo`..`hi`. -/
def clampI (lo hi x : Int) : Int := if x < lo then lo else if hi < x then hi else x

/-- `x` limited to the range of a `w`-bit signed field (R56). -/
def satI (w : Nat) (x : Int) : Int := clampI (-(2 ^ (w - 1) : Nat)) ((2 ^ (w - 1) : Nat) - 1) x

/-- `a / b` rounded to the nearest integer, halves to the even one (convergent rounding, R34), for `b > 0`. -/
def divEven (a : Int) (b : Nat) : Int :=
  let q := a.fdiv b
  let r := a.fmod b
  if 2 * r < b then q else if 2 * r = b then (if q % 2 = 0 then q else q + 1) else q + 1

/-- Ceiling division of naturals. -/
def cdiv (a b : Nat) : Nat := (a + b - 1) / b

/-- A step from `x` towards `t` by at most `d` (R37). -/
def towards (x t : Int) (d : Nat) : Int := x + clampI (-(d : Int)) d (t - x)

/-- Bit `i` of a word as a truth value. -/
def bit (w : Word) (i : Nat) : Bool := w.getLsbD i

/-- Field `lo`, `n` bits wide, of a word. -/
def fieldOf (w : Word) (lo n : Nat) : Nat := w.toNat / 2 ^ lo % 2 ^ n

/-- `w` with the field `lo`, `n` bits wide, replaced by the low `n` bits of `v`. -/
def putField (w : Word) (lo n v : Nat) : Word :=
  (w &&& ~~~(BitVec.ofNat 32 ((2 ^ n - 1) * 2 ^ lo))) ||| BitVec.ofNat 32 ((v % 2 ^ n) * 2 ^ lo)

/-! ## The register list -/

/-- The word listed at `a`. -/
def regFind : List (Nat × Word) → Nat → Option Word
  | [], _ => none
  | (b, v) :: t, a => if a = b then some v else regFind t a

/-- The list without an entry at `a`. -/
def regErase : List (Nat × Word) → Nat → List (Nat × Word)
  | [], _ => []
  | (b, v) :: t, a => if a = b then regErase t a else (b, v) :: regErase t a

/-- The list with `v` listed at `a`, in the order of addresses. -/
def regInsert : List (Nat × Word) → Nat → Word → List (Nat × Word)
  | [], a, v => [(a, v)]
  | (b, u) :: t, a, v =>
    if a < b then (a, v) :: (b, u) :: t
    else if a = b then (a, v) :: t
    else (b, u) :: regInsert t a v

/-- The word that the register at `a` holds. -/
def State.rd (s : State) (a : Nat) : Word := (regFind s.regs a).getD (resetWord a)

/-- The register at `a` takes the word `v`; a register at its reset word is not listed. -/
def State.wr (s : State) (a : Nat) (v : Word) : State :=
  { s with regs := if v = resetWord a then regErase s.regs a else regInsert s.regs a v }

/-- The value of a field. -/
def State.get (s : State) (f : Fd) : Nat := fieldOf (s.rd f.a) f.lo f.w

/-- The signed value of a field (R5). -/
def State.geti (s : State) (f : Fd) : Int := sgn f.w (s.get f)

/-- Whether a one-bit field is 1. -/
def State.on (s : State) (f : Fd) : Bool := s.get f = 1

/-- The field takes the low bits of `v`. -/
def State.set (s : State) (f : Fd) (v : Nat) : State := s.wr f.a (putField (s.rd f.a) f.lo f.w v)

/-- The field takes the two's complement pattern of `x`. -/
def State.seti (s : State) (f : Fd) (x : Int) : State := s.set f (enc f.w x)

/-- A saturating counter field counts `k` (R9's counters that saturate). -/
def State.addSat (s : State) (f : Fd) (k : Nat) : State := s.set f (min (s.get f + k) (2 ^ f.w - 1))

/-- A modulo counter field counts one. -/
def State.incMod (s : State) (f : Fd) : State := s.set f (s.get f + 1)

/-- Every register of the address range takes its reset word (R8). -/
def State.dropRange (s : State) (lo hi : Nat) : State :=
  { s with regs := s.regs.filter fun e => ! (decide (lo ≤ e.1) && decide (e.1 < hi)) }

/-- The fields of a written word that `fs` lets change, laid over the old word (R7, R9). `locked` says that the named lock
bit of the register's RWL fields is 1 (R11). -/
def mergeWord (fs : List (Nat × Nat × Acc)) (old new : Word) (locked : Bool) : Word :=
  fs.foldl (fun acc f =>
    let lo := f.1
    let n := f.2.1
    match f.2.2 with
    | .rw | .own | .key | .kop | .oop => putField acc lo n (fieldOf new lo n)
    | .rwl | .rwlk | .rwlo => if locked then acc else putField acc lo n (fieldOf new lo n)
    | .w1c => putField acc lo n (fieldOf (old &&& ~~~new) lo n)
    | .w1s => putField acc lo n (fieldOf (old ||| new) lo n)
    | .ro | .wo | .wok | .kcmd | .ocmd => acc) old

/-- A write of the word `w` to the register at `a` that lets `fs` change; no RWL field is locked. -/
def State.store (s : State) (a : Nat) (fs : List (Nat × Nat × Acc)) (w : Word) : State :=
  s.wr a (mergeWord fs (s.rd a) w false)

/-- The value that the written word gives a field. -/
def wf (w : Word) (f : Fd) : Nat := fieldOf w f.lo f.w

/-- Whether the written word changes a field (R554). -/
def State.chg (s : State) (w : Word) (f : Fd) : Bool := decide (wf w f ≠ s.get f)

/-! ## Completion, free values, lists -/

/-- The access or command completes with `c`. -/
def State.ret (s : State) (c : Code) : State := { s with reply := ⟨c, []⟩ }

/-- The access completes DONE and returns `d`. -/
def State.retData (s : State) (d : List Word) : State := { s with reply := ⟨.done, d⟩ }

/-- The current free value, `w` bits of it. -/
def State.freeVal (s : State) (w : Nat) : Nat := Config.freeValue s.free % 2 ^ w

/-- One free value has been taken. -/
def State.freeNext (s : State) : State := { s with free := s.free + 1 }

/-- `f` for every index below `n`, in ascending order. -/
def forN (n : Nat) (f : Nat → State → State) (s : State) : State :=
  (List.range n).foldl (fun s i => f i s) s

/-- Element `i` of a list, or the default value. -/
def nth {α : Type} [Inhabited α] (l : List α) (i : Nat) : α := l.getD i default

/-- The list with element `i` changed by `f`. -/
def upd {α : Type} : List α → Nat → (α → α) → List α
  | [], _, _ => []
  | x :: t, 0, f => f x :: t
  | x :: t, i + 1, f => x :: upd t i f

/-! ## Events (R324, R551, R553) -/

/-- The pending bit of event e, one of 512 (R324). -/
def pendBit (e : Nat) : Fd := ⟨EVR_PEND (e % 512 / 32), e % 32, 1⟩

/-- A bit of page 0xB2 that goes from 0 to 1 sends an in-band interrupt, in I3C mode with interrupts enabled by ENEC (R456). -/
def sendIbi (rises : Bool) (s : State) : State :=
  if rises && s.own.dyn.isSome && s.own.ibi then { s with ibiSent := s.ibiSent + 1 } else s

/-- Pending bit `e` of the event router becomes 1 (R324). -/
def setPend (e : Nat) (s : State) : State := sendIbi (s.on (EVR_ROUTE_host (e % 512)) && !s.on (pendBit e)) (s.set (pendBit e) 1)

/-- The class of an event: its range in the table of R551. -/
def evClass (e : Nat) : Nat :=
  if e < 8 then 0 else if e < 32 then 1 else if e < 160 then 2 else if e < 224 then 3 else if e < 288 then 4
  else if e < 384 then 5 else if e < 416 then 6 else if e < 448 then 7 else if e < 480 then 8 else if e < 496 then 9 else 10

/-- System counter j changes. -/
def updPmc (j : Nat) (f : Nat → Nat) (s : State) : State := { s with pmc := upd s.pmc j f }

/-- Core c's registers change. -/
def updCpu (c : Nat) (f : Cpu → Cpu) (s : State) : State := { s with cores := upd s.cores c f }

/-- Core c. -/
def State.cpu (s : State) (c : Nat) : Cpu := nth s.cores c

/-- Address range r of the counters' filters (PMC_RANGE). -/
def inRange (r a : Nat) (s : State) : Bool :=
  decide ((s.rd (PMC_RANGE_LO r)).toNat ≤ a) && decide (a < (s.rd (PMC_RANGE_HI r)).toNat)

/-- What a counter sees of an occurrence: its level, address and event class, where it has them. -/
structure Occ where
  lvl : Option Nat := none
  addr : Option Nat := none
  cls : Option Nat := none
  /-- the instruction that causes it, where that is no longer the one at the core's pc (R334) -/
  pc : Option Word := none

/-- CNT_SEL lets an occurrence of evt count (R331). -/
def cntPass (sel : Word) (evt : Nat) (o : Occ) (s : State) : Bool :=
  decide (fieldOf sel 0 6 = evt) &&
    (match o.lvl with | some l => bit sel (8 + l) | none => true) &&
    (match o.addr with | some a => !bit sel 11 || inRange (fieldOf sel 12 2) a s | none => true) &&
    (match o.cls with | some k => bit sel (16 + k) | none => true)

/-- Counter j of core c wraps (R333, R334): ovf, and with ovf_ie the skid record and the event to raise. -/
def cntWrap (c j : Nat) (o : Occ) (s : State) : State × List Nat :=
  let sel := nth (s.cpu c).cntSel j
  let s := updCpu c (fun k => { k with cntSel := upd k.cntSel j fun w => w ||| 0x20000000 }) s
  if bit sel 28 then
    let skid := s.freeVal 3 % (if c < 8 then 5 else 7)
    let s := (s.wr (PMC_SKID c) (BitVec.ofNat 32 (skid + 8 * j))).wr (PMC_SKID_PC c) (o.pc.getD (s.cpu c).pc)
    (s.freeNext, [8 + c])
  else (s, [])

/-- n occurrences of evt on core c; with the overflow events to raise. -/
def cntAdd (c evt n : Nat) (o : Occ) (s : State) : State × List Nat :=
  (List.range 8).foldl (fun (p : State × List Nat) j =>
    if cntPass (nth (p.1.cpu c).cntSel j) evt o p.1 then
      let v := nth (p.1.cpu c).cnt j + n
      let t := updCpu c (fun k => { k with cnt := upd k.cnt j fun _ => v % 2 ^ 48 }) p.1
      if v < 2 ^ 48 then (t, p.2) else ((cntWrap c j o t).1, p.2 ++ (cntWrap c j o t).2)
    else p) (s, [])

/-- PMC_SEL lets an occurrence of evt by a master count (R332). -/
def pmcPass (j evt : Nat) (mst : Option Nat) (o : Occ) (s : State) : Bool :=
  decide (s.get (PMC_SEL_evt j) = evt) &&
    (match mst with | some m => bit (s.rd (PMC_SEL j)) (8 + m) | none => true) &&
    (match o.lvl with | some l => bit (s.rd (PMC_SEL j)) (16 + l) | none => true) &&
    (match o.addr with | some a => !s.on (PMC_SEL_rng_en j) || inRange (s.get (PMC_SEL_rng j)) a s | none => true) &&
    (match o.cls with | some k => decide (s.get (PMC_CLS_cls_mask j) / 2 ^ k % 2 = 1) | none => true)

/-- No system counter counts: no PMC_SEL register is listed. -/
def pmcIdle (s : State) : Bool := !s.regs.any fun e => decide (PMC_SEL 0 ≤ e.1) && decide (e.1 < PMC_CLS 0)

/-- n occurrences of evt at the system counters; with the overflow events to raise. -/
def pmcAdd (evt n : Nat) (mst : Option Nat) (o : Occ) (s : State) : State × List Nat :=
  if pmcIdle s then (s, [])
  else (List.range 32).foldl (fun (p : State × List Nat) j =>
    if pmcPass j evt mst o p.1 then
      let v := nth p.1.pmc j + n
      let t := updPmc j (fun _ => v % 2 ^ 48) p.1
      if v < 2 ^ 48 then (t, p.2)
      else (t.set (PMC_SEL_ovf j) 1, if t.on (PMC_SEL_ovf_ie j) then p.2 ++ [21] else p.2)
    else p) (s, [])

/-- No core counter counts router events. -/
def cntQuiet (evt : Nat) (s : State) : Bool := s.cores.all fun k => k.cntSel.all fun w => decide (fieldOf w 0 6 ≠ evt)

/-- Event e is raised: its pending bit becomes 1, and the counters of raised events count it (R324, R331, R332). The first
argument bounds how often an overflow's own event makes another counter overflow. -/
def raiseN : Nat → Nat → State → State
  | 0, e, s => setPend e s
  | f + 1, e, s =>
    let s := setPend e s
    let o : Occ := { cls := some (evClass e) }
    let p := if cntQuiet 13 s then (s, []) else
      (List.range 13).foldl (fun (p : State × List Nat) c => ((cntAdd c 13 1 o p.1).1, p.2 ++ (cntAdd c 13 1 o p.1).2)) (s, [])
    let r := pmcAdd 10 1 none o p.1
    (p.2 ++ r.2).foldl (fun s e => raiseN f e s) r.1

/-- Event `e` is raised (R324). -/
def State.raise (s : State) (e : Nat) : State := raiseN 40 e s

/-- Occurrences at the counters of core c, with the overflow events raised. -/
def count (c evt n : Nat) (o : Occ) (s : State) : State :=
  if cntQuiet evt s then s else
  let p := cntAdd c evt n o s
  p.2.foldl (fun s e => s.raise e) p.1

/-- Occurrences at the system counters, with the overflow events raised. -/
def pmcCount (evt n : Nat) (mst : Option Nat) (o : Occ) (s : State) : State :=
  let p := pmcAdd evt n mst o s
  p.2.foldl (fun s e => s.raise e) p.1

/-- A flag is set and its event raised (R324, R552). -/
def State.flag (s : State) (f : Fd) (e : Nat) : State := (s.set f 1).raise e

/-- Entry of a sorted association list. -/
def natFind : List (Nat × Nat) → Nat → Option Nat
  | [], _ => none
  | (b, v) :: t, a => if a = b then some v else natFind t a

/-- The association list with `v` at `a`. -/
def natInsert : List (Nat × Nat) → Nat → Nat → List (Nat × Nat)
  | [], a, v => [(a, v)]
  | (b, u) :: t, a, v =>
    if a < b then (a, v) :: (b, u) :: t
    else if a = b then (a, v) :: t
    else (b, u) :: natInsert t a v

/-- Nominal band-clock periods in one millisecond and in one microsecond (rounded up) (R24). -/
def msTicks : Nat := 983040
def usTicks : Nat := 984

/-- Whether the rate limit `key` lets an event through: none in the last `gap` periods (R553). -/
def State.rateOk (s : State) (key gap : Nat) : Bool :=
  match natFind s.rate key with
  | none => true
  | some t => decide (t + gap ≤ s.now)

/-- The flag is set, and its event raised unless the source's limit of one per `gap` holds it back (R553). -/
def State.flagLimited (s : State) (f : Fd) (e gap : Nat) : State :=
  let s := s.set f 1
  if s.rateOk e gap then { (s.raise e) with rate := natInsert s.rate e s.now } else s

/-! ## Decibels -/

/-- The greatest x below 2^bits with x^n ≤ y. -/
def iroot (n y bits : Nat) : Nat :=
  (List.range bits).foldr (fun i x => if (x + 2 ^ i) ^ n ≤ y then x + 2 ^ i else x) 0

/-- 10^(-A/20) in units of 2^-16 for A in 1/16 dB, rounded convergently (R204): the x with (2x - 1)^320 ≤ 2^5440 / 10^A. -/
def attFactor (a : Nat) : Nat := (iroot 320 (2 ^ 5440 / 10 ^ a) 18 + 1) / 2

/-- The least u, in 1/16 dB from -1,600 on, with x / 2^16 ≤ 10^(u/320): 20 log10 of a gain in units of 2^-16, rounded up. -/
def gainDb (x : Nat) : Int :=
  let ok := fun (u : Nat) => decide (x ^ 320 * 10 ^ 1600 ≤ 2 ^ 5120 * 10 ^ u)
  let k := (List.range 11).foldr (fun i u => if ok (u + 2 ^ i - 1) then u else u + 2 ^ i) 0
  (k : Int) - 1600

/-- 2^60 · 10^(n/den), rounded down, for -200 ≤ n/den ≤ 20. -/
def pow10 (n : Int) (den : Nat) : Nat :=
  if 0 ≤ n then iroot den (10 ^ n.toNat * 2 ^ (60 * den)) 130 else iroot den (2 ^ (60 * den) / 10 ^ (-n).toNat) 62

/-! ## State shared by several blocks -/

/-- The receiver of lane n is locked (R92). -/
def locked (n : Nat) (s : State) : Bool := s.on (LANE_DET_STATUS_locked n)

/-! ## Byte order and CRC-32 (R4, R405, R476) -/

/-- The little-endian value of bytes (R4). -/
def leVal : List Byte → Nat
  | [] => 0
  | b :: t => b.toNat + 256 * leVal t

/-- The n little-endian bytes of a value. -/
def leBytes : Nat → Nat → List Byte
  | 0, _ => []
  | n + 1, v => BitVec.ofNat 8 v :: leBytes n (v / 256)

/-- One bit of the CRC-32 of IEEE 802.3, least significant bit first. -/
def crcBit (c : Nat) : Nat := if c % 2 = 1 then Nat.xor (c / 2) 0xEDB88320 else c / 2

/-- The CRC-32 of IEEE 802.3 over a byte string. -/
def crc32 (l : List Byte) : Nat :=
  Nat.xor (l.foldl (fun c b => (List.range 8).foldl (fun c _ => crcBit c) (Nat.xor c b.toNat)) 0xFFFFFFFF) 0xFFFFFFFF

end Sys2Proof.Machine
end

