-- ==== Sys2Proof/Machine/Code.lean ====
section
/-! DEFINITION. The codes of chapter 04: the inner convolutional code with its puncturing and symbol mapping (R101 to R104), the
Reed-Solomon code of the payload over GF(2^10) (R105, R106) and its decoding with and without erasures. A run of bits is a number:
bit i of the run is bit i of the number. -/

namespace Sys2Proof.Machine

/-! ## Runs of bits -/

/-- Bits `lo` to `lo + w - 1` of a run. -/
def bitsAt (v lo w : Nat) : Nat := v / 2 ^ lo % 2 ^ w

/-- Numbers of w bits each as one run, the first lowest. -/
def packBits (w : Nat) : List Nat → Nat
  | [] => 0
  | x :: t => x % 2 ^ w + 2 ^ w * packBits w t

/-- The first n numbers of w bits each of a run. -/
def unpackBits (w n v : Nat) : List Nat := (List.range n).map fun i => bitsAt v (w * i) w

/-- Bits as one run. -/
def packBools (l : List Bool) : Nat := packBits 1 (l.map fun b => b.toNat)

/-! ## Inner code (R101 to R104) -/

/-- The coded bits (c0, c1) of an information bit after the last three, newest first (R101). -/
def mother (u u1 u2 u3 : Bool) : Bool × Bool := (u ^^ u2 ^^ u3, u ^^ u1 ^^ u2 ^^ u3)

/-- The coded bits of a run of information bits from the encoder state (u[-1], u[-2], u[-3]). -/
def motherRun : Bool → Bool → Bool → List Bool → List (Bool × Bool)
  | _, _, _, [] => []
  | a, b, c, u :: t => mother u a b c :: motherRun u a b t

/-- The Gray rule of R103. -/
def grayPam (hi lo : Bool) : Nat := if hi then (if lo then 2 else 3) else (if lo then 1 else 0)

/-- The coded pair of a symbol. -/
def pamBits (s : Nat) : Bool × Bool := (decide (2 ≤ s), decide (s = 1 ∨ s = 2))

/-- The eight symbols of a puncture period of fifteen information bits (R102, R103). -/
def puncture (cs : List (Bool × Bool)) : List Nat :=
  (List.range 8).map fun m =>
    if m = 0 then grayPam (nth cs 0).1 (nth cs 0).2 else grayPam (nth cs (2 * m - 1)).1 (nth cs (2 * m)).2

/-- The encoder's state: its last three information bits, the newest in bit 0. -/
def encBits (e : Nat) : Bool × Bool × Bool := (decide (e % 2 = 1), decide (e / 2 % 2 = 1), decide (e / 4 % 2 = 1))

/-- The symbols of one puncture period from encoder state e, and the state after it. -/
def encodePeriod (e bits : Nat) : List Nat × Nat :=
  let u := (List.range 15).map fun i => decide (bitsAt bits i 1 = 1)
  let s := encBits e
  (puncture (motherRun s.1 s.2.1 s.2.2 u), bitsAt bits 14 1 + 2 * bitsAt bits 13 1 + 4 * bitsAt bits 12 1)

/-- The symbols of n puncture periods, as a run of 2 bits each, and the encoder's state after them. -/
def encodeRun : Nat → Nat → Nat → Nat × Nat
  | 0, e, _ => (0, e)
  | n + 1, e, bits =>
    let p := encodePeriod e bits
    let r := encodeRun n p.2 (bits / 2 ^ 15)
    (packBits 2 p.1 + 2 ^ 16 * r.1, r.2)

/-! ## GF(2^10) (R105) -/

/-- x times an element, modulo x^10 + x^3 + 1. -/
def gfDouble (a : Nat) : Nat := if 512 ≤ a then (2 * a) ^^^ 0x409 else 2 * a

/-- The product of two elements. -/
def gfMul (a b : Nat) : Nat :=
  ((List.range 10).foldl (fun (p : Nat × Nat) i => (if b.testBit i then p.1 ^^^ p.2 else p.1, gfDouble p.2)) (0, a)).1

/-- Powers of an element. -/
def gfPow (a : Nat) : Nat → Nat
  | 0 => 1
  | n + 1 => gfMul a (gfPow a n)

/-- a^1022 is the inverse of a nonzero a: products of a^2, a^4, …, a^512. -/
def gfInv (a : Nat) : Nat :=
  ((List.range 9).foldl (fun (p : Nat × Nat) _ => let q := gfMul p.2 p.2; (gfMul p.1 q, q)) (1, a)).1

/-- alpha^n, with alpha = x. -/
def gfAlpha : Nat → Nat
  | 0 => 1
  | n + 1 => gfDouble (gfAlpha n)

/-- Polynomials over GF(2^10), constant term first. -/
abbrev Poly := List Nat

def polyAdd : Poly → Poly → Poly
  | [], q => q
  | p, [] => p
  | a :: p, b :: q => (a ^^^ b) :: polyAdd p q

def polyScale (c : Nat) (p : Poly) : Poly := p.map (gfMul c)

def polyMul : Poly → Poly → Poly
  | [], _ => []
  | a :: p, q => polyAdd (polyScale a q) (0 :: polyMul p q)

/-- The value of a polynomial at x. -/
def polyEval (p : Poly) (x : Nat) : Nat := p.foldr (fun a r => a ^^^ gfMul r x) 0

/-- The formal derivative: the odd terms, one place lower. -/
def polyDeriv : Poly → Poly
  | _ :: b :: t => b :: 0 :: polyDeriv t
  | _ => []

/-! ## RS(544,514) (R105, R106): the code of Clause 91, whose generator has the roots alpha^0 to alpha^29 (log 143) -/

/-- The generator polynomial. -/
def rsGen : Poly := (List.range 30).foldl (fun g i => polyMul g [gfAlpha i, 1]) [1]

/-- One step of the division by the generator: the remainder, highest power first, takes a message symbol. -/
def rsStep (gen : List Nat) (r : List Nat) (m : Nat) : List Nat :=
  match r with
  | [] => []
  | a :: t => let f := a ^^^ m; (t ++ [0]).zipWith (fun x g => x ^^^ gfMul f g) gen

/-- The 30 parity symbols of a message, in the order in which they follow it. -/
def rsParity (msg : List Nat) : List Nat :=
  let gen := (rsGen.take 30).reverse
  msg.foldl (rsStep gen) (List.replicate 30 0)

/-- A codeword: position 0 carries the highest power. -/
def rsEncode (msg : List Nat) : List Nat := msg ++ rsParity msg

/-- The 30 syndromes of a received word. -/
def rsSyndromes (w : List Nat) : Poly := (List.range 30).map fun i => let x := gfAlpha i; w.foldl (fun r a => gfMul r x ^^^ a) 0

/-- The locator of position p of 544. -/
def rsLoc (p : Nat) : Nat := gfAlpha (543 - p)

/-- The state of the search for the shortest error locator: the locator, the one before its last change, the length, the gap and
the discrepancy at that change. -/
structure RsSearch where
  loc : Poly
  old : Poly
  len : Nat
  gap : Nat
  disc : Nat

/-- The discrepancy of syndrome n under a locator. -/
def rsDisc (syn : Poly) (loc : Poly) (n : Nat) : Nat :=
  (loc.zipIdx.map fun c => if c.2 ≤ n then gfMul c.1 (nth syn (n - c.2)) else 0).foldl (fun a b => a ^^^ b) 0

/-- One step of Berlekamp and Massey's search. -/
def rsSearchStep (syn : Poly) (f : Nat) (s : RsSearch) (n : Nat) : RsSearch :=
  let d := rsDisc syn s.loc n
  if d = 0 then { s with gap := s.gap + 1 }
  else
    let upd := polyAdd s.loc (polyScale (gfMul d (gfInv s.disc)) (List.replicate s.gap 0 ++ s.old))
    if 2 * s.len ≤ n + f then { loc := upd, old := s.loc, len := n + 1 + f - s.len, gap := 1, disc := d }
    else { s with loc := upd, gap := s.gap + 1 }

/-- The locator of erasures and errors: the search begins at the erasures' own locator. -/
def rsLocator (syn : Poly) (marks : List Nat) : Poly :=
  let g := marks.foldl (fun g p => polyMul g [1, rsLoc p]) [1]
  let f := marks.length
  let s : RsSearch := { loc := g, old := g, len := f, gap := 1, disc := 1 }
  (((List.range (30 - f)).map fun i => f + i).foldl (rsSearchStep syn f) s).loc

/-- The positions that a locator names. -/
def rsPositions (loc : Poly) : List Nat := (List.range 544).filter fun p => decide (polyEval loc (gfInv (rsLoc p)) = 0)

/-- A received word with the values of Forney's formula added at the named positions. -/
def rsFix (syn loc : Poly) (ps : List Nat) (w : List Nat) : List Nat :=
  let om := (polyMul syn loc).take 30
  let d := polyDeriv loc
  w.zipIdx.map fun a =>
    if ps.contains a.2 then
      let x := rsLoc a.2
      let xi := gfInv x
      a.1 ^^^ gfMul x (gfMul (polyEval om xi) (gfInv (polyEval d xi)))
    else a.1

/-- Positions at which two words differ. -/
def rsDiffer (u v : List Nat) : List Nat := ((u.zip v).zipIdx.filter fun a => decide (a.1.1 ≠ a.1.2)).map fun a => a.2

/-- The decoding of a received word with marked erasures (R105): the codeword that differs from it in e symbols outside the f marked
ones with 2e + f ≤ 30, if there is one. -/
def rsDecodeWord (marks w : List Nat) : Option (List Nat) :=
  let syn := rsSyndromes w
  let loc := rsLocator syn marks
  let v := if syn.all fun x => decide (x = 0) then w else rsFix syn loc (rsPositions loc) w
  let e := ((rsDiffer w v).filter fun p => !marks.contains p).length
  if ((rsSyndromes v).all fun x => decide (x = 0)) && decide (2 * e + marks.length ≤ 30) then some v else none

/-- The two decodings of R110: the erasure-aided result stands where it succeeds, else the errors-only one. -/
def rsBoth (marks w : List Nat) : Option (List Nat) × Option (List Nat) := (rsDecodeWord marks w, rsDecodeWord [] w)

/-- The reliabilities of the symbols: the smallest of their ten bits (R109). -/
def symbolRel : List Nat → Nat := fun l => l.foldl min 15

/-- The positions of a codeword with reliability `r`, rising. -/
def atRel (rel : List Nat) (r : Nat) : List Nat := (List.range rel.length).filter fun i => decide (nth rel i = r)

/-- The erasures that R109 marks. -/
def erasures (en : Bool) (thr cap : Nat) (rel : List Nat) : List Nat :=
  if en then (((List.range (thr + 1)).map (atRel rel)).flatten).take cap else []

/-! ## The payload of a frame (R106) -/

/-- The place of symbol p of codeword k of group g in the payload's 87,040 bits. -/
def payPlace (g k p : Nat) : Nat := 21760 * g + 10 * (4 * p + k)

/-- The place of message symbol p of codeword k of group g in the frame's 82,240 message bits. -/
def msgPlace (g k p : Nat) : Nat := 20560 * g + 10 * (4 * p + k)

/-- The 514 message symbols of a codeword. -/
def msgWord (m g k : Nat) : List Nat := (List.range 514).map fun p => bitsAt m (msgPlace g k p) 10

/-- The interleave group of four codewords as a run of bits. -/
def groupBits (cw : List (List Nat)) : Nat :=
  packBits 10 ((List.range 544).flatMap fun p => (List.range 4).map fun k => nth (nth cw k) p)

/-- The payload that the part's own RS encoding makes of the message bits. -/
def payloadOf (m : Nat) : Nat :=
  packBits 21760 ((List.range 4).map fun g => groupBits ((List.range 4).map fun k => rsEncode (msgWord m g k)))

/-- The message bits with the message symbols of one codeword replaced. -/
def putMsg (m g k : Nat) (w : List Nat) : Nat :=
  packBits 10 ((List.range 8224).map fun t =>
    if t / 2056 = g ∧ t % 2056 % 4 = k then nth w (t % 2056 / 4) else bitsAt m (10 * t) 10)

/-- The message bits of a payload as received. -/
def msgOf (pay : Nat) : Nat :=
  packBits 20560 ((List.range 4).map fun g => bitsAt pay (21760 * g) 20560)

end Sys2Proof.Machine
end

