-- ==== Sys2Proof/Machine/HostSig.lean ====
section
/-! DEFINITION. The signals of a host lane (chapter 05): the training frames of R151, the test patterns of R156, the multiplexing of
the FEC lanes (R143, R144), the host's codewords and 257-bit blocks (R147) and the samples of a converter link (R162). A run of bits
is a number, as in Code. -/

namespace Sys2Proof.Machine

/-! ## Test patterns (R156) -/

/-- Length and second tap of the generator polynomial of a pattern: PRBS7, 9, 15, 23, 31 and 31Q. PRBS13Q has taps of its own. The
manual names the standards; the polynomials are theirs (PRESUMED, log 148). -/
def prbsTaps : Nat → Nat × List Nat
  | 0 => (7, [7, 6])
  | 1 => (9, [9, 5])
  | 2 => (15, [15, 14])
  | 3 => (23, [23, 18])
  | 5 => (13, [13, 12, 2, 1])
  | _ => (31, [31, 28])

/-- The next bit of a shift register whose bit i - 1 is the bit sent i bits ago, and the register after it. -/
def prbsStep (taps : Nat × List Nat) (r : Nat) : Bool × Nat :=
  let b := taps.2.foldl (fun a t => a ^^ r.testBit (t - 1)) false
  (b, (2 * r + b.toNat) % 2 ^ taps.1)

/-- n bits of a generator from register r, and the register after them. -/
def prbsRun (taps : Nat × List Nat) : Nat → Nat → List Bool × Nat
  | 0, r => ([], r)
  | n + 1, r =>
    let b := prbsStep taps r
    let t := prbsRun taps n b.2
    (b.1 :: t.1, t.2)

/-- Bits taken two by two as PAM4 symbols, the first of a pair as the left bit of the Gray code (log 148). -/
def pamPairs : List Bool → List Nat
  | a :: b :: t => grayPam a b :: pamPairs t
  | _ => []

/-- The symbols 544 to 2,047 of training frame j: PRBS13Q continues from frame to frame (R151). -/
def trainPrbs (j : Nat) : List Nat :=
  let r := (prbsRun (prbsTaps 5) (3008 * j) (Config.patternSeed 5 % 2 ^ 13)).2
  pamPairs (prbsRun (prbsTaps 5) 3008 r).1

/-- The n first units (bits, or PAM4 symbols of codes 5 to 7) of a pattern (R156): the square wave gives 3 or 0 on a PAM4 lane and 1
or 0 on a converter lane, the user pattern bits. -/
def patternUnits (code : Nat) (pam : Bool) (user n : Nat) : List Nat :=
  match code with
  | 5 => pamPairs (prbsRun (prbsTaps 5) (2 * n) (Config.patternSeed 5 % 2 ^ 13)).1
  | 6 => pamPairs (prbsRun (prbsTaps 6) (2 * n) (Config.patternSeed 6 % 2 ^ 31)).1
  | 7 => (List.range n).map fun i => Config.ssprq (i % 65535) % 4
  | 8 => (List.range n).map fun i => if i % 32 < 16 then (if pam then 3 else 1) else 0
  | 9 => (List.range n).map fun i => bitsAt user (i % 64) 1
  | c => ((prbsRun (prbsTaps c) n (Config.patternSeed c % 2 ^ (prbsTaps c).1)).1).map fun b => b.toNat

/-! ## Training frames (R151, R152) -/

/-- The marker: 16 symbols of level 3, then 16 of level 0. -/
def trainMarker : List Nat := List.replicate 16 3 ++ List.replicate 16 0

/-- One field bit. -/
def trainBit (b : Bool) : List Nat :=
  if b then List.replicate 8 3 ++ List.replicate 8 0 else List.replicate 8 0 ++ List.replicate 8 3

/-- A field of 16 bits, bit 0 first. -/
def trainField (v : Nat) : List Nat := (List.range 16).flatMap fun i => trainBit (v.testBit i)

/-- The j-th training frame with a control and a status field. -/
def trainFrame (ctl sts j : Nat) : List Nat := trainMarker ++ trainField ctl ++ trainField sts ++ trainPrbs j

/-! ## Multiplexing (R143, R144) -/

/-- Runs of `w` bits taken from each of some lanes in turn, n rounds. -/
def muxRun (w : Nat) (lanes : List Nat) : Nat → Nat
  | 0 => 0
  | n + 1 => packBits w lanes + 2 ^ (w * lanes.length) * muxRun w (lanes.map fun v => v / 2 ^ w) n

/-- Some bits of a lane as PAM4 symbols of two bits (R143). -/
def pamSyms (v len : Nat) : List Nat := pamPairs ((List.range len).map v.testBit)

/-- The lanes that runs of `w` bits taken in turn from k lanes came from, n rounds. -/
def demuxRun (w k n v : Nat) : List Nat := (List.range k).map fun i => packBits w ((List.range n).map fun m => bitsAt v (w * (k * m + i)) w)

/-- The FEC lanes of a group: 16 of a 400 Gbit/s group, 8 of a 200 Gbit/s group (R19, R143, R144). -/
def fecLanes (mode size : Nat) : Nat := if mode = 1 then 16 else if mode = 2 then 8 * size else 4 * size

/-- Bits of one FEC lane that its physical lane takes in turn: a symbol in native mode, a bit in the AUI modes (R143, R144). -/
def muxUnit (mode : Nat) : Nat := if mode = 1 then 10 else 1

/-- Received FEC lanes in the order of the numbers in their alignment markers (R144). -/
def laneReorder (ids lanes : List Nat) : List Nat :=
  (List.range ids.length).map fun i => nth lanes (ids.idxOf i)

/-- The FEC symbol stream of Clause 119 from n symbols of each of the FEC lanes in order: a symbol of each in turn. -/
def hostStream (lanes : List Nat) (n : Nat) : Nat := muxRun 10 lanes n

/-- The bits of `len` stream bits' period on the physical lanes of a group, as a FEC symbol stream: each lane demultiplexed, the FEC
lanes put in the order of their alignment markers (R143 to R145). -/
def hostReceive (mode : Nat) (ids : List Nat) (phys : List Nat) (len : Nat) : Nat :=
  let k := fecLanes mode phys.length
  let lanes := phys.flatMap fun v => demuxRun (muxUnit mode) (k / phys.length) (len / k / muxUnit mode) v
  hostStream (laneReorder ids lanes) (len / k / 10)

/-- What lane i of a group of `size` carries of `len` bits of a FEC symbol stream: FEC lanes in ascending order, as many on each (log
170). -/
def hostTransmit (mode size i v len : Nat) : Nat :=
  let k := fecLanes mode size
  let lanes := ((demuxRun 10 k (len / k / 10) v).drop (k / size * i)).take (k / size)
  muxRun (muxUnit mode) lanes (len / k / muxUnit mode)

/-! ## The host's codewords (R106, R147): pairs of codewords, symbol by symbol in turn (PRESUMED from Clause 119, log 149) -/

/-- A pair of words of n symbols as a stream. -/
def pairRun (n : Nat) (a b : List Nat) : Nat := packBits 10 ((List.range n).flatMap fun p => [nth a p, nth b p])

/-- The 257-bit blocks of a pair's messages. -/
def pairBlocks (a b : List Nat) : List Nat := unpackBits 257 40 (pairRun 514 a b)

/-- Block i has message bits in codeword k of its pair. -/
def blockHits (i k : Nat) : Bool := (List.range 257).any fun j => decide ((257 * i + j) / 10 % 2 = k)

/-- The symbol stream of a frame's 320 blocks towards the host: each 40 blocks are the messages of a pair of codewords (R106). -/
def hostEncode (m : Nat) : Nat :=
  packBits 10880 ((List.range 8).map fun i =>
    let syms := unpackBits 10 1028 (bitsAt m (10280 * i) 10280)
    let half := fun (k : Nat) => rsEncode ((List.range 514).map fun p => nth syms (2 * p + k))
    pairRun 544 (half 0) (half 1))

/-- The blocks handed to FRM: those with message bits in an uncorrectable codeword are marked in error. -/
def markedBlocks (a b : List Nat) (bad : List Nat) : List Nat :=
  (pairBlocks a b).zipIdx.map fun x => if bad.any (blockHits x.2) then Config.errorMark x.1 % 2 ^ 257 else x.1

/-! ## Converter samples (R162) -/

/-- The sample of stream c: I from converter 2c in bits 15:0, Q from converter 2c + 1 in bits 31:16. -/
def streamSample (conv : List Nat) (c : Nat) : Nat := nth conv (2 * c) % 65536 + 65536 * (nth conv (2 * c + 1) % 65536)

/-- The converters' samples that some streams give. -/
def streamConv (streams : List Nat) : List Nat := streams.flatMap fun x => [x % 65536, x / 65536 % 65536]

end Sys2Proof.Machine
end

