-- ==== Sys2Proof/Machine/Gate.lean ====
section
/-! DEFINITION. The system map (R547), what fences a block (R321, R394), who may write and read (R12, R446 to R448) and the
refusal log (R452). -/

namespace Sys2Proof.Machine

/-! ## The map -/

/-- The regions of R547. -/
inductive Region
  | rom | sram | capture | larder
  | lcMem (n : Nat) | rcMem (c : Nat)
  | regs | stoFifo | celRing
  | shelfAlias | dataAlias
  | hole
deriving DecidableEq, Repr

/-- Whether `a` lies in one of `cnt` windows of `size` bytes that start at `base` and repeat every `stride`. -/
def inWin (a base stride cnt size : Nat) : Bool :=
  decide (base ≤ a) && decide ((a - base) / stride < cnt) && decide ((a - base) % stride < size)

/-- The region of an address (R547, R548). -/
def region (a : Nat) : Region :=
  if a < 0x10000 then .rom
  else if 0x10000000 ≤ a ∧ a < 0x10800000 then .sram
  else if inWin a 0x20000000 0x100000 8 0x4000 then .regs
  else if inWin a 0x20080000 0x100000 8 0x30000 then .lcMem ((a - 0x20080000) / 0x100000)
  else if inWin a 0x21000000 0x10000 8 0x1000 then .regs
  else if inWin a 0x22000000 0x10000 8 0x2000 then .regs
  else if 0x30000000 ≤ a ∧ a < 0x30200000 then .regs
  else if 0x30800000 ≤ a ∧ a < 0x30804000 then .regs
  else if 0x31000000 ≤ a ∧ a < 0x31003000 then .regs
  else if 0x32000000 ≤ a ∧ a < 0x32001000 then .regs
  else if inWin a 0x33000000 0x100000 4 0x40000 then .rcMem ((a - 0x33000000) / 0x100000)
  else if 0x40000000 ≤ a ∧ a < 0x40003000 then .regs
  else if 0x40100000 ≤ a ∧ a < 0x40101000 then .regs
  else if 0x40200000 ≤ a ∧ a < 0x40201000 then .regs
  else if 0x40300000 ≤ a ∧ a < 0x40302000 then .regs
  else if 0x40400000 ≤ a ∧ a < 0x40402000 then .regs
  else if 0x40500000 ≤ a ∧ a < 0x40501000 then .regs
  else if 0x40600000 ≤ a ∧ a < 0x40608000 then .regs
  else if 0x40700000 ≤ a ∧ a < 0x40709000 then .regs
  else if 0x40800000 ≤ a ∧ a < 0x40808000 then .regs
  else if 0x40808000 ≤ a ∧ a < 0x40810000 then .stoFifo
  else if 0x40900000 ≤ a ∧ a < 0x40908000 then .regs
  else if 0x40908000 ≤ a ∧ a < 0x40910000 then .celRing
  else if 0x40A00000 ≤ a ∧ a < 0x40A01000 then .regs
  else if 0x40B00000 ≤ a ∧ a < 0x40B01000 then .regs
  else if 0x50000000 ≤ a ∧ a < 0x50010000 then .larder
  else if 0x60000000 ≤ a ∧ a < 0x62000000 then .capture
  else if 0x7F000000 ≤ a ∧ a < 0x7F040000 then .shelfAlias
  else if 0x7F800000 ≤ a ∧ a < 0x7F880000 then .dataAlias
  else .hole

/-- The block of a register address by its bit in CRP_BLK_RST (R394), with 27 OWN, 28 EVR and 29 MEM, which have none; the
blocks CRP, GRD and CEL are never fenced (R550). -/
def blkOf (a : Nat) : Option Nat :=
  if inWin a 0x20000000 0x100000 8 0x4000 then some ((a - 0x20000000) / 0x100000)
  else if inWin a 0x21000000 0x10000 8 0x1000 then some (8 + (a - 0x21000000) / 0x10000)
  else if inWin a 0x22000000 0x10000 8 0x2000 then some 16
  else if 0x30000000 ≤ a ∧ a < 0x30200000 then some 17
  else if 0x30800000 ≤ a ∧ a < 0x30804000 then some 18
  else if 0x31000000 ≤ a ∧ a < 0x31003000 then some 19
  else if 0x32000000 ≤ a ∧ a < 0x32001000 then some 20
  else if 0x40400000 ≤ a ∧ a < 0x40402000 then some 21
  else if 0x40800000 ≤ a ∧ a < 0x40810000 then some 22
  else if 0x40600000 ≤ a ∧ a < 0x40608000 then some 23
  else if 0x40100000 ≤ a ∧ a < 0x40101000 then some 24
  else if 0x40A00000 ≤ a ∧ a < 0x40A01000 then some 25
  else if 0x40B00000 ≤ a ∧ a < 0x40B01000 then some 26
  else if 0x40700000 ≤ a ∧ a < 0x40709000 then some 27
  else if 0x40300000 ≤ a ∧ a < 0x40302000 then some 28
  else if 0x40500000 ≤ a ∧ a < 0x40501000 then some 29
  else none

/-- Whether the CMD, WDOG and LOCKSTEP resets reach a block (R390). -/
def wideReach (b : Nat) : Bool := decide (17 ≤ b) && decide (b ≠ 24)

/-- Whether a reset in force holds block `b` (R321, R390, R394, R395). -/
def blkHeld (b : Nat) (s : State) : Bool :=
  s.stop || s.rst.held.contains b || s.rst.por || s.rst.resetN || (s.rst.wide && (wideReach b || s.rst.deep))

/-- Whether an access to the register at `a` meets a fence. -/
def fencedAt (a : Nat) (s : State) : Bool :=
  match blkOf a with
  | some b => blkHeld b s
  | none => false

/-- The block of an address lies in the system domain: the memories and DMA, SNK, OWN (R24). -/
def inSysDomain (a : Nat) : Bool :=
  match region a with
  | .rom | .sram | .capture | .lcMem _ | .rcMem _ | .shelfAlias | .dataAlias => true
  | .regs => (blkOf a).any fun b => decide (b = 21) || decide (b = 23) || decide (b = 27)
  | .larder | .stoFifo | .celRing | .hole => false

/-- A request to `a` waits at its port: the domain is gated (R380, log 174). -/
def portWaits (a : Nat) (s : State) : Bool := s.on CRP_CLK_STAT_sys_gated && inSysDomain a

/-- The request waits. -/
def park (x : Waiting) (s : State) : State := { s with waits := s.waits ++ [x] }

/-! ## Ownership (R446 to R448) -/

/-- Whether the requester is the owner (R447). -/
def isOwner (q : Rq) (s : State) : Bool :=
  decide (q.cls ≠ 0) && decide (s.get OWN_STAT_owner = q.cls) && (decide (q.cls ≠ 2) || decide (s.get OWN_STAT_addr = q.faddr))

/-- The right that an OWN field asks for (R9, R447). -/
def ownRight (q : Rq) (s : State) : Bool := isOwner q s || q.isKeeper || decide (q = .larder)

/-- The right that a KEY field asks for (R9, R280). -/
def keyRight (q : Rq) : Bool := q.isKeeper || decide (q = .larder)

/-- The bounds of the secret window in bytes (R462, R560). -/
def secretLo (s : State) : Nat := s.get OWN_SECRET_LO_base * 4096
def secretHi (s : State) : Nat := s.get OWN_SECRET_HI_end * 4096

/-- Whether an address lies in the secret window. -/
def inSecret (a : Nat) (s : State) : Bool := decide (secretLo s ≤ a) && decide (a < secretHi s)

/-- One entry of the refusal log: the address, the time, who, the code; REFUSAL at most once in 1 ms (R452). -/
def logRefusal (q : Rq) (a : Nat) (c : Code) (s : State) : State :=
  let i := s.get OWN_RLOG_STAT_next
  let s := s.wr (OWN_RLOG_ADDR i) (BitVec.ofNat 32 a)
  let s := s.wr (OWN_RLOG_SEC i) (BitVec.ofNat 32 (s.clk.aon / 2 ^ 40))
  let s := s.wr (OWN_RLOG_INFO i)
    (BitVec.ofNat 32 (q.cls + 8 * (if q.cls = 0 then q.coreNo else 0) + 256 * q.faddr + 2 ^ 20 * c.n))
  let s := s.wr (OWN_RLOG_FRAC i) (BitVec.ofNat 32 (s.clk.aon / 2 ^ 8))
  let s := s.set OWN_RLOG_STAT_next (i + 1)
  let s := s.addSat OWN_RLOG_STAT_total 1
  s.flagLimited OWN_EVT_refusal 506 msTicks

/-- The access is refused with `c` and entered in the refusal log. -/
def refuseLog (q : Rq) (a : Nat) (c : Code) (s : State) : State := (logRefusal q a c s).ret c

/-- Whether the lock bit of the RWL fields of the register at `a` is 1: they keep their values (R9, R11). -/
def fieldsLocked (a : Nat) (s : State) : Bool :=
  if a = EVR_WDOG_CTRL then s.on EVR_WDOG_CTRL_lock
  else if a = OWN_SECRET_LO ∨ a = OWN_SECRET_HI then s.on OWN_SECRET_LO_lock
  else if a = GRD_CTRL then s.on GRD_CTRL_lock
  else if a = RST_CAUSE then s.on RST_CAUSE_mode_lock
  else false

/-- Whether a write of `w` would change a field that asks for a right the requester lacks (R12, R554); a locked field changes by no
write. -/
def lacksRight (q : Rq) (fs : List (Nat × Nat × Acc)) (old w : Word) (lk : Bool) (s : State) : Bool :=
  fs.any fun f =>
    let n := fieldOf w f.1 f.2.1
    let ch := decide (n ≠ fieldOf old f.1 f.2.1)
    match f.2.2 with
    | .own | .oop => ch && !ownRight q s
    | .key | .kop => ch && !keyRight q
    | .rwlk => ch && !lk && !keyRight q
    | .rwlo => ch && !lk && !ownRight q s
    | .wok => decide (n ≠ 0) && !keyRight q
    | .kcmd => decide (n ≠ 0) && !keyRight q
    | .ocmd => decide (n ≠ 0) && !ownRight q s
    | .rw | .ro | .wo | .w1c | .w1s | .rwl => false

/-- A requester without the right to a command register's op leaves it as it was: that is no command of its, and no refusal either (R12,
R554; log 12). -/
def mutedOp (q : Rq) (fs : List (Nat × Nat × Acc)) (s : State) : Bool :=
  fs.any fun f =>
    match f.2.2 with
    | .kop => !keyRight q
    | .oop => !ownRight q s
    | .rw | .ro | .wo | .w1c | .w1s | .rwl | .own | .key | .wok | .rwlk | .rwlo | .kcmd | .ocmd => false

/-- The management interface answers: SC has been released and the part is not in stop (R393, R414). -/
def mgmtAlive (s : State) : Bool := s.rst.released && !s.rst.por && !s.rst.resetN && !s.stop

/-- The clock part works: neither power-on reset nor RESET_N nor stop. -/
def clkLive (s : State) : Bool := !s.rst.por && !s.rst.resetN && !s.stop

/-- The ramp tick, which is counted from REFCLK, comes (R36, R51). -/
def rampLive (s : State) : Bool := !s.on CRP_CLK_STAT_ref_fail && clkLive s

/-! ## Counting accesses (R332, R384) -/

/-- The master class of a requester in PMC_SEL. -/
def rqMst : Rq → Option Nat
  | .core c _ => some (if c < 8 then 0 else if c < 12 then 1 else 2)
  | .dma _ => some 3
  | .host => some 4
  | .fabric _ => some 5
  | .partner => some 6
  | .hatch => some 7
  | .loader | .larder | .engine => none

/-- An access starts the clock of block b. -/
def gateWake (b : Nat) (s : State) : State := { s with clk := { s.clk with awake := s.clk.awake ||| 2 ^ b } }

/-- The gated clock domain of a block address (R384). -/
def gateOf (a : Nat) : Option Nat :=
  if 0x30000000 ≤ a ∧ a < 0x30200000 then some 0
  else if 0x30800000 ≤ a ∧ a < 0x30804000 then some 1
  else if 0x31000000 ≤ a ∧ a < 0x31003000 then some 2
  else if 0x32000000 ≤ a ∧ a < 0x32001000 then some 3
  else if 0x40400000 ≤ a ∧ a < 0x40402000 then some 4
  else if 0x40600000 ≤ a ∧ a < 0x40608000 then some 5
  else if 0x40800000 ≤ a ∧ a < 0x40810000 then some 6
  else if 0x40100000 ≤ a ∧ a < 0x40101000 then some 7
  else if 0x40A00000 ≤ a ∧ a < 0x40A01000 then some 8
  else if 0x40B00000 ≤ a ∧ a < 0x40B01000 then some 9
  else if 0x60000000 ≤ a ∧ a < 0x62000000 then some 10
  else if inWin a 0x33000000 0x100000 4 0x40000 then some (11 + (a - 0x33000000) / 0x100000)
  else if inWin a 0x20080000 0x100000 8 0x30000 then some (15 + (a - 0x20080000) / 0x100000)
  else if 0x22000000 ≤ a ∧ a < 0x22080000 then some 23
  else none

/-- The level of a core's request (R332). -/
def rqLvl : Rq → Option Nat
  | .core _ l => some (match l with | .u => 0 | .s => 1 | .k => 2)
  | _ => none

/-- A request is accepted: the counters see it, and it starts the clock of its block (R332, R384). -/
def request (q : Rq) (a : Nat) (s : State) : State :=
  let s := pmcCount 2 1 (rqMst q) { lvl := rqLvl q, addr := some a } s
  match gateOf a with
  | some b => gateWake b s
  | none => s

/-- The counters see a completion: a fenced one, a refused write (R332). -/
def completed (q : Rq) (a : Nat) (write : Bool) (c : Code) (s : State) : State :=
  let o : Occ := { lvl := rqLvl q, addr := some a }
  if c = .fenced then pmcCount 4 1 (rqMst q) o s
  else if write ∧ 3 ≤ c.n ∧ c.n ≤ 7 then pmcCount 7 1 (rqMst q) o s
  else s

/-! ## Register accesses -/

/-- What the way to a register says of a write. -/
inductive Gate
  /-- the write reaches the register -/
  | go
  /-- it completes with a code and changes nothing -/
  | code (c : Code)
  /-- it is refused and entered in the refusal log -/
  | refuse
  /-- nothing answers (R393) -/
  | silent
  /-- it waits at the port of a gated block (R380) -/
  | wait
deriving DecidableEq, Repr

/-- Whether an outside write needs no owner: the claim and the accept (R448), and a lease renewal, which R450 judges. -/
def openWrite (a : Nat) : Bool := decide (a = OWN_CLAIM) || decide (a = OWN_ACCEPT) || decide (a = OWN_LEASE)

/-- In safe hold and in recovery the management interface serves reads and command resets (R402, R406), with the claim that makes the
owner who may command one (log 113). -/
def mgmtLimits (q : Rq) (a : Nat) (s : State) : Bool :=
  decide (q = .host) && (s.on CRP_ATTIC_STAT_hold || decide (s.get CRP_BOOT_STAT_stage = 5)) && decide (a ≠ CRP_CMD_RESET) &&
    decide (a ≠ OWN_CLAIM)

/-- The judgement of a whole-word write to the register at `a` whose writable fields are `fs`: the fence (R321), the owner
(R448), then OWN and KEY fields (R12). -/
def writeGate (q : Rq) (a : Nat) (fs : List (Nat × Nat × Acc)) (w : Word) (s : State) : Gate :=
  if q = .host && !mgmtAlive s then .silent
  else if a % 4 ≠ 0 then .code .align
  else if fencedAt a s then .code .fenced
  else if portWaits a s then .wait
  else if mgmtLimits q a s then .code .state
  else if q.cls ≠ 0 && !openWrite a && !isOwner q s then .refuse
  else if lacksRight q fs (s.rd a) w (fieldsLocked a s) s then .refuse
  else if mutedOp q fs s then .code .done
  else .go

/-- Every waiting request ends ERR_FENCED (R321, R380). -/
def portsFenced (s : State) : State :=
  s.waits.foldl (fun s x => match x with
    | .write q a _ => completed q a true .fenced (s.ret .fenced)
    | .read q a => completed q a false .fenced (s.ret .fenced)
    | .hatch a w => completed .hatch a.toNat w.isSome .fenced
        { s with own := { s.own with bus := (a, 0, w.isSome, .fenced) }, reply := ⟨.fenced, []⟩ }
    | .window => { s with own := { s.own with b0 := upd (upd s.own.b0 7 fun _ => BitVec.ofNat 8 Code.fenced.n) 8 fun _ => 0 },
                          reply := ⟨.fenced, []⟩ }) { s with waits := [] }

/-- A write to the register at `a` that has the effect `hook` where it reaches the register, as the bus completes it. -/
def gatedBus (q : Rq) (a : Nat) (fs : List (Nat × Nat × Acc)) (w : Word) (hook : State → State) (s : State) : State :=
  match writeGate q a fs w s with
  | .go => let t := hook (request q a s); completed q a true t.reply.code t
  | .code c => completed q a true c ((request q a s).ret c)
  | .refuse => completed q a true .notOwner (refuseLog q a .notOwner (request q a s))
  | .silent => s
  | .wait => park (.write q a (leBytes 4 w.toNat)) s

/-- The core below level K whose write was refused under R12. -/
def refusedCore (q : Rq) (g : Gate) : Option Nat :=
  match g, q with
  | .refuse, .core c l => if l = .k then none else some c
  | _, _ => none

/-- A store error of core c waits to be taken, or sets more where one waits already (R286). -/
def storeErr (c a : Nat) (o : Code) (priv : Bool) (s : State) : State :=
  updCpu c (fun k => match k.serr with
    | none => { k with serr := some ⟨a, o, priv⟩, more := false }
    | some _ => { k with more := true }) s

/-- The privilege trap of a write refused under R12 waits for the core that made it (R12, R286). -/
def raisePriv (c : Option Nat) (a : Nat) (s : State) : State :=
  match c with
  | some c => storeErr c a .notOwner true s
  | none => s

/-- A write to the register at `a` as a command: its effect on the bus, and the privilege trap of a refused core (R12). -/
def gated (q : Rq) (a : Nat) (fs : List (Nat × Nat × Acc)) (w : Word) (hook : State → State) (s : State) : State :=
  raisePriv (refusedCore q (writeGate q a fs w s)) a (gatedBus q a fs w hook s)

/-- A plain register write: the fields take the written values under their access codes (R9). -/
def plainWrite (a : Nat) (fs : List (Nat × Nat × Acc)) (w : Word) (s : State) : State := (s.store a fs w).ret .done

/-- The word with one field forced to a value: the field that makes a register write the row's command. -/
def force (w : Word) (f : Fd) (v : Nat) : Word := putField w f.lo f.w v

/-- Whether a class may read the system map: its bit of OWN_POLICY.read_mask (R448). -/
def readMask (q : Rq) (s : State) : Bool :=
  decide (q.cls = 0) || decide (s.get OWN_POLICY_read_mask / 2 ^ (q.cls - 1) % 2 = 1)

/-- Whether a read at `a` is allowed (R448's table): the secret window only to HATCH as owner at FULL. -/
def mayRead (q : Rq) (a : Nat) (s : State) : Bool :=
  decide (q.cls = 0) ||
    (readMask q s && (!inSecret a s || (decide (q = .hatch) && isOwner q s && decide (s.get OWN_HATCH_STAT_level = 2))))

/-- A read of the register at `a` that has the effect `hook` where it reaches the register. -/
def gatedRead (q : Rq) (a : Nat) (hook : State → State) (s : State) : State :=
  if q = .host && !mgmtAlive s then s
  else
    let t := request q a s
    if a % 4 ≠ 0 then t.ret .align
    else if fencedAt a s then completed q a false .fenced (t.ret .fenced)
    else if portWaits a s then park (.read q a) s
    else if mayRead q a s then hook t
    else { t with reply := ⟨.notOwner, [0]⟩ }

/-- A plain register read. -/
def plainRead (a : Nat) (s : State) : State := s.retData [s.rd a]

/-- A read of a register that clears on read. -/
def clearRead (a : Nat) (s : State) : State := (plainRead a s).wr a 0

end Sys2Proof.Machine
end

