-- ==== Sys2Proof/Machine/Link.lean ====
section
/-! DEFINITION. What several blocks share about the line side: the framer's loss (R116), the forced causes of the
transmitters (R133, R134), the host-lane groups (R19, R20), the port tables' names (R21, R130) and the band clock. -/

namespace Sys2Proof.Machine

def updFrm (n : Nat) (f : Frm → Frm) (s : State) : State := { s with frm := upd s.frm n f }

/-- Event flag `b` of FRM_EVT, event 224 + 8 n + b. -/
def frmEvt (n b : Nat) (s : State) : State := s.flag ⟨FRM_EVT n, b, 1⟩ (224 + 8 * n + b)

/-- A live counter of R135 counts `k`, saturating at 2^32 - 1. -/
def frmCount (n i k : Nat) (s : State) : State :=
  updFrm n (fun f => { f with cnt := upd f.cnt i fun c => min (c + k) (2 ^ 32 - 1) }) s

/-- The framer's state: 0 OFF, 1 HUNT, 2 CONFIRM, 3 ALIGNED. -/
def fstate (n : Nat) (s : State) : Nat := s.get (FRM_LANE_STATUS_fstate n)

/-! ## The pair (R490, R492) -/

/-- A lane of pair_lanes is not ALIGNED: the fault bit of the heartbeat (R490). -/
def pairFault (s : State) : Bool :=
  (List.range 8).any fun n => decide (s.get SNK_PAIR_CTRL_pair_lanes / 2 ^ n % 2 = 1) && decide (fstate n s ≠ 3)

def snkHeld (s : State) : Bool := blkHeld 23 s

/-- Event flag b of SNK_EVT. -/
def snkEvt (b : Nat) (s : State) : State := s.flag ⟨SNK_EVT, b, 1⟩ (480 + b)

/-- The device's role (0 OFF, 1 SOLO, 2 ACTIVE, 3 STANDBY) changes; the gates are closed in SOLO and STANDBY (R491, R492). -/
def setRole (r : Nat) (s : State) : State :=
  snkEvt 6 ((s.set SNK_PAIR_STAT_role r).set SNK_PAIR_STAT_gates (r % 2))

/-- The pair gates are closed: in SOLO and STANDBY, and while SNK is fenced with en = 1 (R491). -/
def pairShut (s : State) : Bool := s.on SNK_PAIR_STAT_gates || (snkHeld s && s.on SNK_PAIR_CTRL_en)

/-- The active device yields: gates closed, the yield bit in its heartbeats (R492). -/
def pairYield (why : Nat) (s : State) : State := setRole 3 { s with snk := { s.snk with yieldW := why } }

/-- A fault of the active device with a ready partner (R492). -/
def pairFaultEval (s : State) : State :=
  if s.get SNK_PAIR_STAT_role = 2 ∧ s.on SNK_PAIR_STAT_p_ready ∧ pairFault s ∧ !snkHeld s then pairYield 1 s else s

/-- Link l returns to DOWN (R476). -/
def linkDown (l : Nat) (s : State) : State :=
  if s.get (SNK_LINK_STAT_state l) = 0 then s
  else snkEvt 0 ((s.set (SNK_LINK_STAT_state l) 0).addSat (SNK_LINK_STAT_downs l) 1)

/-! ## The framer -/

/-- The framer leaves its state for `t`: confirmations, identity and skew measurements start afresh. A lane that is no longer
ALIGNED takes its fabric link down and is a fault of the pair (R471, R490). -/
def setFstate (n t : Nat) (s : State) : State :=
  let was := decide (fstate n s = 3)
  let s := updFrm n (fun f => { f with conf := 0, bad := 0, miss := 0, num := none, seen := [false, false, false], arr := [],
                                       spoiled := false, skip := 4, uncorr := false }) s
  let s := (s.set (FRM_LANE_STATUS_fstate n) t).set (FRM_RX_ID_valid n) 0
  let s := forN 8 (fun m s => if m = n ∨ s.get (FRM_LANE_CTRL_skew_ref m) = n then s.set (FRM_SKEW_valid m) 0 else s) s
  if was ∧ t ≠ 3 then pairFaultEval (linkDown n s) else s

/-- ALIGNED to HUNT: FRAME_LOST (R116). -/
def frameLost (n : Nat) (s : State) : State := frmEvt n 1 (frmCount n 7 1 (setFstate n 1 s))

/-- The framer of lane n returns to HUNT because the receiver has left DETECT and LOCKED (R116). -/
def framerLost (n : Nat) (s : State) : State :=
  match fstate n s with
  | 3 => frameLost n s
  | 2 => setFstate n 1 s
  | _ => s

/-! ## Forced causes -/

/-- The forced causes of R134: 0 a guard-rail trip, 1 laser off, 2 TX_DISABLE, 3 thermal shutdown, 4 the fence of FRM,
5 the safe hold. -/
def causeTrip : Nat := 0
def causeLaser : Nat := 1
def causeTxDis : Nat := 2
def causeThermal : Nat := 3
def causeFence : Nat := 4
def causeHold : Nat := 5

/-- A transmit command ends with `c` and TX_CMD_DONE (R133). -/
def txEnd (n op : Nat) (c : Code) (reason : Nat) (s : State) : State :=
  let s := (s.set (FRM_TX_RESULT_outcome n) c.n).set (FRM_TX_RESULT_op n) op
  frmEvt n 4 (s.set (FRM_TX_RESULT_reason n) reason)

def txState (n : Nat) (s : State) : Nat := s.get (FRM_LANE_STATUS_tx_state n)

def setTx (n t : Nat) (s : State) : State := s.set (FRM_LANE_STATUS_tx_state n) t

/-- A forced cause sets in (R133): g = 0, a held ENABLE ends ABORTED, reason GUARD. -/
def forceOn (n cause : Nat) (s : State) : State :=
  let held := decide (txState n s = 4)
  let s := updFrm n (fun f => if f.causes.contains cause then f else { f with causes := cause :: f.causes }) s
  let s := (setTx n 5 s).set (FRM_LANE_STATUS_gain n) 0
  if held then txEnd n 1 .aborted 2 s else s

/-- A forced cause clears; with the last one the transmitter is SQUELCHED (R133, R134). -/
def forceOff (n cause : Nat) (s : State) : State :=
  let s := updFrm n (fun f => { f with causes := f.causes.filter fun c => decide (c ≠ cause) }) s
  if txState n s = 5 && (nth s.frm n).causes.isEmpty then setTx n 0 s else s

/-! ## Groups of host lanes -/

/-- Host lanes in the group of a line lane, by line mode and host-lane mode (R19). -/
def groupSize (lineMode hostMode : Nat) : Option Nat :=
  match lineMode, hostMode with
  | 0, 1 => some 1
  | 0, 2 => some 2
  | 0, 3 => some 4
  | 1, 2 => some 1
  | 1, 3 => some 2
  | _, _ => none

/-- The group of an up, Ethernet-mapped line lane: its first host lane and its size, as they were checked when the lane came up
(R20, R123). -/
def laneGroup (n : Nat) (s : State) : Option (Nat × Nat) :=
  if s.on (FRM_LANE_CTRL_up n) && decide (s.get (FRM_LANE_CTRL_map n) = 1) then (nth s.frm n).grp else none

/-- The group that host lane h belongs to, of an up line lane. -/
def hostGroup (h : Nat) (s : State) : Option (Nat × Nat) :=
  (List.range 8).findSome? fun n =>
    match laneGroup n s with
    | some (b, g) => if b ≤ h ∧ h < b + g then some (b, g) else none
    | none => none

/-! ## Port tables -/

/-- Whether an enabled entry of the port table at `base` (BND_PIN 0 or BND_POUT 0) satisfies `p`. -/
def portAny (base : Nat) (p : Word → Bool) (s : State) : Bool :=
  s.regs.any fun e => decide (base ≤ e.1) && decide (e.1 < base + 8192) && decide (e.1 % 8 = 0) && bit e.2 0 && p e.2

/-- An entry that names a container of lane n (and its number, where one is given). -/
def namesCtr (n : Nat) (c : Option Nat) (w : Word) : Bool :=
  decide (wf w (BND_PIN_kind 0) = 1) && decide (wf w (BND_PIN_lane 0) = n) &&
    (match c with | some c => decide (wf w (BND_PIN_idx 0) = c) | none => true)

/-- An entry of either port table, enabled or not, that names a container of lane n (R21). -/
def ctrListed (n : Nat) (s : State) : Bool :=
  s.regs.any fun e => ((decide (BND_PIN 0 ≤ e.1) && decide (e.1 < BND_PIN 0 + 8192)) ||
    (decide (BND_POUT 0 ≤ e.1) && decide (e.1 < BND_POUT 0 + 8192))) && decide (e.1 % 8 = 0) && namesCtr n none e.2

/-- Receive containers are named by input ports, transmit containers by output ports. -/
def ctrNamed (rx : Bool) (n : Nat) (c : Option Nat) (s : State) : Bool :=
  portAny (if rx then BND_PIN 0 else BND_POUT 0) (namesCtr n c) s

/-- Enable, ready and holdover bit of PLL p: 0 TXPLL, 1 HPLL, 2 SPLL, 3 BPLL. -/
def pllEn (p : Nat) : Fd := ⟨CRP_PLL_CTRL, p, 1⟩
def pllReady (p : Nat) : Fd := ⟨CRP_PLL_STAT, p, 1⟩
def pllHold (p : Nat) : Fd := ⟨CRP_PLL_STAT, 4 + p, 1⟩

/-- PLL p delivers its clock: enabled and ready, or in holdover since a REFCLK failure in run (R24, R368, R370, R410). An enabled PLL
that has lost lock outside holdover clocks nothing (DESIGN CHOICE, log 164). -/
def pllRuns (p : Nat) (s : State) : Bool := s.on (pllEn p) && (s.on (pllReady p) || (s.on (pllHold p) && !s.clk.cold.contains p))

/-- The line transmit clock, the host clock and the band clock run. -/
def txRuns (s : State) : Bool := pllRuns 0 s
def hostRuns (s : State) : Bool := pllRuns 1 s
def bandRuns (s : State) : Bool := pllRuns 3 s

/-- The enabled entry of a port table that names receive container (`rx`) or transmit container c of lane n. -/
def ctrEntry (rx : Bool) (n c : Nat) (s : State) : Option Word :=
  let base := if rx then BND_PIN 0 else BND_POUT 0
  (s.regs.find? fun e => decide (base ≤ e.1) && decide (e.1 < base + 8192) && decide (e.1 % 8 = 0) && bit e.2 0 &&
    namesCtr n (some c) e.2).map Prod.snd

/-! ## The cellar's taps (R500, R501) -/

/-- A contribution to tenant t's totals, while the cellar is RUNNING. -/
def celAdd (t : Nat) (f : Tot → Tot) (s : State) : State :=
  if s.get CEL_STAT_state = 3 ∧ t < 16 then { s with cel := { s.cel with tot := upd s.cel.tot t f } } else s

def celRx (t bits : Nat) (s : State) : State := celAdd t (fun x => { x with rx := x.rx + bits }) s
def celTx (t bits : Nat) (s : State) : State := celAdd t (fun x => { x with tx := x.tx + bits }) s

/-- The tenant of Ethernet-mapped line lane n, where it is counted. -/
def laneTenant (n : Nat) (s : State) : Nat :=
  match s.cel.sealed with
  | some k => nth k.eth n
  | none => 31

/-- Block bits by format (R124). -/
def blockBits (fmt : Nat) : Nat := match fmt with | 0 => 384 | 1 => 172 | 2 => 220 | _ => 292

end Sys2Proof.Machine
end

