-- ==== Sys2Proof/Machine/HostLane.lean ====
section
/-! DEFINITION. Host lanes (chapter 05): the JESD204C link arithmetic, native training, and the meanings of the host lanes'
commands and events. -/

namespace Sys2Proof.Machine

def updHost (n : Nat) (f : HostL → HostL) (s : State) : State := { s with host := upd s.host n f }

/-- Event flag `b` of HOST_EVT, event 160 + 8 n + b. -/
def hostEvt (n b : Nat) (s : State) : State := s.flag ⟨HOST_EVT n, b, 1⟩ (160 + 8 * n + b)

/-- The lane's state: 0 OFF, 1 ACQUIRE, 2 TRAIN, 3 ALIGN, 4 READY, 5 LOST. -/
def hostState (n : Nat) (s : State) : Nat := s.get (HOST_STATUS_state n)

def hostMode (n : Nat) (s : State) : Nat := s.get (HOST_CTRL_mode n)

/-! ## Links of converter mode (R161 to R163) -/

/-- A link's configuration: L, M, S, rate, E. -/
structure JesdCfg where
  l : Nat
  m : Nat
  s : Nat
  rate : Nat
  e : Nat
deriving DecidableEq, Repr

/-- The receive configuration of the link that starts at lane f. -/
def jesdRx (f : Nat) (s : State) : JesdCfg :=
  ⟨2 ^ s.get (HOST_JESD_RX_CFG_l_log f), s.get (HOST_JESD_RX_CFG_m f), 2 ^ s.get (HOST_JESD_RX_CFG_s_log f),
    s.get (HOST_JESD_RX_CFG_rate f), s.get (HOST_JESD_RX_CFG_e f) + 1⟩

/-- The transmit configuration of the link that starts at lane f. -/
def jesdTx (f : Nat) (s : State) : JesdCfg :=
  ⟨2 ^ s.get (HOST_JESD_TX_CFG_l_log f), s.get (HOST_JESD_TX_CFG_m f), 2 ^ s.get (HOST_JESD_TX_CFG_s_log f),
    s.get (HOST_JESD_TX_CFG_rate f), s.get (HOST_JESD_TX_CFG_e f) + 1⟩

/-- The conditions of R161, with F = 2 M S / L and R between 8 and 32.5 Gbit/s. -/
def jesdOk (f : Nat) (c : JesdCfg) : Bool :=
  let num := c.m * 16 * 122880000 * 66
  let den := 64 * c.l * 2 ^ c.rate
  decide (f % c.l = 0) && decide (f + c.l ≤ 8) &&
  decide (2 * c.m * c.s % c.l = 0) && decide (1 ≤ 2 * c.m * c.s / c.l) && decide (c.e * 256 % (2 * c.m * c.s / c.l) = 0) &&
  decide (den * 8000000000 ≤ num) && decide (num ≤ den * 32500000000)

/-- The LEMC period in band-clock periods: E × 2,112 / R (R163). -/
def lemcPeriod (c : JesdCfg) : Nat := c.e * c.l * 2 ^ c.rate * 1024 / c.m

/-- The link that lane n belongs to by the configurations `cfg` of one direction: its first lane and its number of lanes (R161). -/
def linkBy (cfg : Nat → State → JesdCfg) (n : Nat) (s : State) : Option (Nat × Nat) :=
  (List.range 8).findSome? fun f =>
    let l := (cfg f s).l
    if f ≤ n ∧ n < f + l ∧ f % l = 0 ∧ hostMode f s = 4 then some (f, l) else none

/-- The receive link of lane n. Transmit links are independent of it (R160). -/
def linkOf (n : Nat) (s : State) : Option (Nat × Nat) := linkBy jesdRx n s

/-- The transmit link of lane n. -/
def linkTx (n : Nat) (s : State) : Option (Nat × Nat) := linkBy jesdTx n s

/-- Lane n is the first lane of its link of one direction. -/
def linkFirst (link : Nat → State → Option (Nat × Nat)) (n : Nat) (s : State) : Bool := (link n s).any fun x => decide (x.1 = n)

/-- The lanes of a link. -/
def linkLanes (x : Nat × Nat) : List Nat := ((List.range x.2).map fun i => x.1 + i).filter fun j => decide (j < 8)

/-- Lane n's link of one direction meets R161 with all its lanes in converter mode. -/
def linkFits (cfg : Nat → State → JesdCfg) (n : Nat) (s : State) : Bool :=
  match linkBy cfg n s with
  | some (f, l) => jesdOk f (cfg f s) && (linkLanes (f, l)).all fun j => decide (hostMode j s = 4)
  | none => false

/-- A START may run with the configurations of the lane's receive link and of its transmit link (R160, R161). -/
def linkOk (n : Nat) (s : State) : Bool := linkFits jesdRx n s && linkFits jesdTx n s

/-- The status bits of a link that follow from its lanes' states. -/
def linkStat (n : Nat) (s : State) : State :=
  match linkOf n s with
  | some (f, l) =>
    let st := (linkLanes (f, l)).map fun j => hostState j s
    let s := s.set (HOST_JESD_STAT_sh_lock f) (st.all fun t => decide (t = 3 ∨ t = 4)).toNat
    s.set (HOST_JESD_STAT_emb_lock f) (st.all fun t => decide (t = 4)).toNat
  | none => s

/-! ## States (R148) -/

/-- HOST_RX_EQ.adapting follows the state and eq_freeze (R155). -/
def adaptRefresh (n : Nat) (s : State) : State :=
  let t := hostState n s
  s.set (HOST_RX_EQ_adapting n) (decide (1 ≤ t ∧ t ≤ 4) && !s.on (HOST_CTRL_eq_freeze n)).toNat

/-- The group that a lane leaving READY spoils (R145). -/
def groupBreak (n : Nat) (s : State) : State :=
  forN 8 (fun f s =>
    let g := (nth s.host f).grp
    if f ≤ n ∧ n < f + g then
      (updHost f (fun h => { h with grp := 0, half := none, out := 0, outLen := 0 }) s).set (HOST_STATUS_grp_aligned f) 0
    else s) s

/-- The training exchange starts afresh (R151 to R153). -/
def trainFresh (n : Nat) (s : State) : State :=
  updHost n (fun h => { h with wrote := false, auto := false, marks := 0, sent := 0, ctl := 0, ctlRep := 0, sts := 0, stsRep := 0,
                               resp := 0, mirror := false, sentReady := 0, gotReady := false }) s

/-- The lane enters state t. -/
def setHost (n t : Nat) (s : State) : State :=
  let old := hostState n s
  let s := (s.set (HOST_STATUS_state n) t).set (HOST_STATUS_ready n) (decide (t = 4)).toNat
  let s := if old = 5 ∧ t ≠ 5 then s.set (HOST_STATUS_lost_reason n) 0 else s
  let s := if old = 4 ∧ t ≠ 4 then groupBreak n s else s
  let s := if t = 1 then updHost n (fun h => { h with shLock := false }) s else if t = 2 then trainFresh n s else s
  let s := if t = 3 then
      let s := updHost n (fun h => { h with edge := false }) s
      match linkOf n s with
      | some (f, _) => s.set (HOST_JESD_STAT_late f) 0
      | none => s
    else s
  linkStat n (adaptRefresh n s)

/-- A command ends with `c` and HOST_CMD_DONE (R148). -/
def hostEnd (n op : Nat) (c : Code) (reason : Nat) (s : State) : State :=
  let s := (s.set (HOST_RESULT_outcome n) c.n).set (HOST_RESULT_op n) op
  hostEvt n 3 (s.set (HOST_RESULT_reason n) reason)

/-- The HELD command, if any, ends with `c`. -/
def heldEnd (n : Nat) (c : Code) (reason : Nat) (s : State) : State :=
  match (nth s.host n).cmd with
  | some op => hostEnd n op c reason (updHost n (fun h => { h with cmd := none }) s)
  | none => s

/-- The command ends at once. -/
def hostNow (n op : Nat) (c : Code) (s : State) : State := (hostEnd n op c 0 s).ret c

/-- The command is HELD and the lane enters t. -/
def hostHeld (n op t : Nat) (s : State) : State :=
  let s := (s.set (HOST_RESULT_outcome n) Code.held.n).set (HOST_RESULT_op n) op
  (setHost n t (updHost n (fun h => { h with cmd := some op }) (s.set (HOST_RESULT_reason n) 0))).ret .held

/-- The lane becomes READY: the HELD command ends DONE (R148). -/
def hostReady (n : Nat) (trained : Bool) (s : State) : State :=
  let s := heldEnd n .done 0 (setHost n 4 s)
  hostEvt n 0 (if trained then hostEvt n 2 s else s)

/-- The lane is LOST with its reason; a HELD command ends with `c`; HOST_LOST from READY. -/
def hostLose (n reason : Nat) (c : Code) (s : State) : State :=
  let was := hostState n s
  let s := (setHost n 5 s).set (HOST_STATUS_lost_reason n) reason
  let s := heldEnd n c 0 s
  if was = 4 then hostEvt n 1 s else s

/-- START (R148, R161, R163). -/
def hostStart (n : Nat) (s : State) : State :=
  let t := hostState n s
  if (nth s.host n).cmd.isSome then hostNow n 1 .state s
  else if t ≠ 0 ∧ t ≠ 5 then hostNow n 1 .state s
  else if t = 0 ∧ (hostMode n s = 0 ∨ !s.on (HOST_CTRL_rx_en n) ∨ !s.on (HOST_CTRL_tx_en n)) then hostNow n 1 .state s
  else if hostMode n s = 4 then
    if linkOk n s then
      match linkOf n s with
      | some (f, _) =>
        let s := s.set (HOST_JESD_STAT_crc_err f) 0
        let s := if (n = f ∨ linkFirst linkTx n s) ∧ s.get (HOST_JESD_SYS_sysref_mode n) = 0 then
            updHost n (fun h => { h with lemc := some s.bclk }) s
          else s
        hostHeld n 1 1 s
      | none => hostNow n 1 .range s
    else hostNow n 1 .range s
  else hostHeld n 1 1 s

/-- RETRAIN (R148). -/
def hostRetrain (n : Nat) (s : State) : State :=
  let t := hostState n s
  let m := hostMode n s
  if (nth s.host n).cmd.isSome then hostNow n 2 .state s
  else if (t = 4 ∨ t = 5) ∧ (m = 1 ∨ (m = 2 ∧ s.on (HOST_CTRL_c2c n))) then hostHeld n 2 2 s
  else hostNow n 2 .state s

/-- STOP (R148, R150). -/
def hostStop (n : Nat) (s : State) : State :=
  if hostState n s = 0 then hostNow n 3 .done s else hostNow n 3 .done (setHost n 0 (heldEnd n .aborted 1 s))

/-- RESYNC (R148). -/
def hostResync (n : Nat) (s : State) : State :=
  if (nth s.host n).cmd.isSome then hostNow n 4 .state s
  else if hostState n s = 4 ∧ hostMode n s = 4 then hostHeld n 4 3 s
  else hostNow n 4 .state s

/-- A write of HOST_CMD. -/
def wrHostCmd (n : Nat) (w : Word) (s : State) : State :=
  match wf w (HOST_CMD_op n) with
  | 1 => hostStart n s
  | 2 => hostRetrain n s
  | 3 => hostStop n s
  | 4 => hostResync n s
  | op => hostNow n op .range s

/-- Training runs in the lane's mode (R143, R144). -/
def hostTrains (n : Nat) (s : State) : Bool :=
  s.on (HOST_CTRL_train_en n) && (decide (hostMode n s = 1) || (decide (hostMode n s = 2) && s.on (HOST_CTRL_c2c n)))

/-- HOST_LOCK_ACQUIRED (R148), on the host clock (R24): in converter mode ALIGN waits for every lane of the link. -/
def hostLockAcquired (n snr : Nat) (s : State) : State :=
  if hostState n s = 1 ∧ hostRuns s then
    let s := (updHost n (fun h => { h with shLock := true }) s).set (HOST_RX_EQ_snr n) snr
    if hostMode n s = 4 then
      match linkOf n s with
      | some x =>
        let ls := linkLanes x
        if ls.all fun j => decide (hostState j s = 1) && (nth s.host j).shLock || decide (hostState j s = 3 ∨ hostState j s = 4) then
          ls.foldl (fun s j => if hostState j s = 1 then setHost j 3 s else s) s
        else s
      | none => s
    else if hostTrains n s then setHost n 2 s
    else hostReady n false s
  else s

/-- HOST_ACQUIRE_TIMEOUT (R148). -/
def hostAcquireTimeout (n : Nat) (s : State) : State := if hostState n s = 1 then hostLose n 2 .timeout s else s

/-- HOST_LANE_LOST (R149): reason 1 SIGNAL, 2 CDR, 3 ALIGN. -/
def hostLaneLost (n reason : Nat) (s : State) : State := if hostState n s = 4 then hostLose n reason .aborted s else s

/-! ## Native training (R151 to R153) -/

/-- The taps c(-3) to c(+1) as written. -/
def hostTaps (n : Nat) (s : State) : List Int := (List.range 5).map fun k => s.geti (HOST_TX_FIR_value n k)

/-- The limits of R154. -/
def tapsOk (c : List Int) : Bool :=
  decide (16 ≤ nth c 3) && decide ((c.map Int.natAbs).sum ≤ 64) && c.all fun x => decide (-64 ≤ x) && decide (x ≤ 63)

/-- The presets of R152. -/
def preset : Nat → List Int
  | 0 => [0, 0, 0, 63, 0]
  | 1 => [0, 0, -6, 57, 0]
  | 2 => [0, 2, -10, 51, 0]
  | _ => [-1, 3, -12, 45, -3]

/-- All taps are written and wait for their boundary. -/
def putTaps (n : Nat) (c : List Int) (s : State) : State :=
  updHost n (fun h => { h with firPend := true }) (forN 5 (fun k s => s.seti (HOST_TX_FIR_value n k) (nth c k)) s)

/-- The taps and the response that a request gives (R152): request 1 preset, 2 increment, 3 decrement. -/
def trainRequest (c : List Int) (ctl : Nat) : List Int × Nat :=
  let tap := ctl / 4 % 8
  match ctl % 4 with
  | 1 => (preset (ctl / 32 % 4), 1)
  | 2 => if 5 ≤ tap then (c, 4) else
      let c' := upd c tap (· + 1)
      if tapsOk c' then (c', 1) else (c, 3)
  | 3 => if 5 ≤ tap then (c, 4) else
      let c' := upd c tap (· - 1)
      if tapsOk c' then (c', 1) else (c, 2)
  | _ => (c, 0)

/-- A control field value that has repeated in three frames is acted on (R151, R152). -/
def actControl (n ctl : Nat) (s : State) : State :=
  let s := if bit (BitVec.ofNat 32 ctl) 15 then updHost n (fun h => { h with gotReady := true }) s else s
  if ctl % 4 = 0 then updHost n (fun h => { h with resp := 0 }) s
  else if (nth s.host n).resp = 0 then
    let r := trainRequest (hostTaps n s) ctl
    updHost n (fun h => { h with resp := r.2 }) (if r.2 = 1 then putTaps n r.1 s else s)
  else s

/-- Receiver ready is being sent: by firmware's control field or by hardware (R153). -/
def sendsReady (n : Nat) (s : State) : Bool := bit (s.rd (HOST_TRAIN_REQ n)) 15 || (nth s.host n).auto

/-- The control field that the lane sends (R152, R153). -/
def controlSent (n : Nat) (s : State) : Nat :=
  s.get (HOST_TRAIN_REQ_control n) % 2 ^ 15 + 2 ^ 15 * (sendsReady n s).toNat

/-- The status field that the lane sends (R152). -/
def statusSent (n : Nat) (s : State) : Nat := (nth s.host n).resp + 2 ^ 15 * (nth s.host n).mirror.toNat

/-- The training frame that the lane sends now, symbol by symbol (R151). -/
def trainSent (n : Nat) (s : State) : List Nat := trainFrame (controlSent n s) (statusSent n s) (nth s.host n).sent

/-- The fields of a received frame, with how often each has repeated. -/
def trainFields (n ctl sts : Nat) (s : State) : State :=
  updHost n (fun h => { h with
    ctlRep := if h.ctl = ctl ∧ h.ctlRep ≠ 0 then min 3 (h.ctlRep + 1) else 1, ctl := ctl
    stsRep := if h.sts = sts ∧ h.stsRep ≠ 0 then min 3 (h.stsRep + 1) else 1, sts := sts
    mirror := decide (ctl / 2 ^ 15 = 1) }) s

/-- A marker: `mark` says that it stood 2,048 symbols after the last one; another begins a new count, and no field value has repeated
since it. The lane has sent a frame too. -/
def trainMark (n : Nat) (mark : Bool) (s : State) : State :=
  let sends := sendsReady n s
  updHost n (fun h => { h with marks := if mark then min 3 (h.marks + 1) else 1, ctlRep := if mark then h.ctlRep else 0,
                               stsRep := if mark then h.stsRep else 0, sent := h.sent + 1,
                               sentReady := if sends then min 3 (h.sentReady + 1) else 0 }) s

/-- TRAINING_FRAME_RX (R151, R152), on the host clock (R24). -/
def trainingFrameRx (n : Nat) (mark : Bool) (ctl sts snr : Nat) (s : State) : State :=
  if hostState n s = 2 ∧ hostRuns s then
    let s := trainMark n mark (s.set (HOST_RX_EQ_snr n) snr)
    let s := if (nth s.host n).marks = 3 then
        let s := trainFields n ctl sts s
        let s := if (nth s.host n).ctlRep = 3 then actControl n ctl s else s
        if (nth s.host n).stsRep = 3 then s.set (HOST_TRAIN_REQ_resp n) sts else s
      else s
    if (nth s.host n).gotReady && decide ((nth s.host n).sentReady = 3) then hostReady n true s else s
  else s

/-- TRAIN_TIMEOUT (R148). -/
def trainTimeout (n : Nat) (s : State) : State := if hostState n s = 2 then hostLose n 4 .timeout s else s

/-- TRAIN_AUTO_READY (R153). -/
def trainAutoReady (n : Nat) (s : State) : State :=
  if hostState n s = 2 ∧ !(nth s.host n).wrote then updHost n (fun h => { h with auto := true }) s else s

/-- A write of HOST_TRAIN_REQ: REFUSED_STATE outside TRAIN. -/
def wrTrainReq (n : Nat) (w : Word) (s : State) : State :=
  if hostState n s = 2 then
    (updHost n (fun h => { h with wrote := true, auto := false }) (s.store (HOST_TRAIN_REQ n) HOST_TRAIN_REQ_fs w)).ret .done
  else s.ret .state

/-- A write of HOST_TX_FIR_k (R154). -/
def wrHostFir (n k : Nat) (w : Word) (s : State) : State :=
  if s.chg w (HOST_TX_FIR_value n k) then
    if !tapsOk (upd (hostTaps n s) k fun _ => sgn 7 (wf w (HOST_TX_FIR_value n k))) then s.ret .range
    else if hostState n s = 2 then s.ret .state
    else (updHost n (fun h => { h with firPend := true }) (s.store (HOST_TX_FIR n k) HOST_TX_FIR_fs w)).ret .done
  else s.ret .done

/-- HOST_TX_FIR_APPLY (R154): the 4,096-symbol boundary, on the host clock (R24). -/
def hostTxFirApply (n : Nat) (s : State) : State :=
  if (nth s.host n).firPend ∧ hostRuns s then
    updHost n (fun h => { h with firPend := false })
      (forN 5 (fun k s => s.set (HOST_TX_FIR_active n k) (s.get (HOST_TX_FIR_value n k))) s)
  else s

/-- The other lanes of a group count no codewords: their counters read 0 (R159). -/
def fecQuiet (n size : Nat) (s : State) : State :=
  forN (size - 1) (fun j s =>
    let s := forN 3 (fun i s => s.wr (HOST_FEC_CW (n + 1 + j) + 4 * i) 0) s
    let s := forN 16 (fun i s => s.wr (HOST_FEC_BIN (n + 1 + j) i) 0) s
    updHost (n + 1 + j) (fun h => { h with fec := List.replicate 19 0 }) s) s

/-- The alignment markers found on a group's FEC lanes name every FEC lane once (R145). -/
def markersOk (mode size : Nat) (ids : List Nat) : Bool :=
  decide (ids.length = fecLanes mode size) && (List.range (fecLanes mode size)).all fun i => ids.contains i

/-- HOST_GROUP_ALIGN (R144, R145), on the host clock: the group of `size` lanes from lane n, with the numbers in the alignment markers
of its FEC lanes as they come. Groups that share a lane with it are broken. -/
def hostGroupAlign (n size : Nat) (ids : List Nat) (skewPs : Nat) (s : State) : State :=
  let m := hostMode n s
  if (size = 1 ∨ size = 2 ∨ size = 4) ∧ n % size = 0 ∧ 1 ≤ m ∧ m ≤ 3 ∧ hostRuns s ∧
      (List.range size).all fun j => decide (hostMode (n + j) s = m) && decide (hostState (n + j) s = 4) then
    let wide := decide (32000 < skewPs)
    let ok := markersOk m size ids && !wide
    let s := fecQuiet n size (forN size (fun j s => groupBreak (n + j) s) s)
    let s := (s.set (HOST_STATUS_grp_skew n) wide.toNat).set (HOST_STATUS_grp_aligned n) ok.toNat
    updHost n (fun h => { h with grp := if ok then size else 0, ids := ids }) s
  else s

/-! ## SYNC_IN and release (R163 to R165) -/

/-- The LEMC phase of the link at f is set by an edge now. -/
def lemcSet (f : Nat) (s : State) : State :=
  (updHost f (fun h => { h with lemc := some s.bclk }) s).set (HOST_JESD_STAT_sysref_seen f) 1

/-- The LEMC period of the link that starts at f: of its receive link, or of its transmit link where it starts no receive link. -/
def lemcOf (f : Nat) (s : State) : Nat := lemcPeriod (if linkFirst linkOf f s then jesdRx f s else jesdTx f s)

/-- Band-clock periods since the last extended multiblock of the transmit link at f began: they begin on LEMC boundaries (R164); none
before the phase is set. -/
def txMultiblock (f : Nat) (s : State) : Option Nat := (nth s.host f).lemc.map fun o => (s.bclk - o) % lemcPeriod (jesdTx f s)

/-- The signed distance of an edge now from the nearest LEMC boundary, in band-clock periods. -/
def lemcError (origin period now : Nat) : Int :=
  let d := (now - origin) % period
  if 2 * d ≤ period then (d : Int) else (d : Int) - period

/-- An error beyond tol: SYSREF_ERR at most once per 1 ms, every error counted (R163). -/
def sysrefErr (f : Nat) (s : State) : State :=
  let s := updHost f (fun h => { h with sysrefErrs := h.sysrefErrs + 1 }) s
  s.flagLimited (HOST_EVT_sysref_err f) (160 + 8 * f + 6) msTicks

/-- A qualified edge at the link that starts at f (R163). -/
def linkEdge (f l : Nat) (s : State) : State :=
  let mode := s.get (HOST_JESD_SYS_sysref_mode f)
  let s := (linkLanes (f, l)).foldl (fun s j => updHost j (fun h => { h with edge := true }) s) s
  if mode = 0 then s
  else if (nth s.host f).armed then
    (lemcSet f (updHost f (fun h => { h with armed := false }) s)).set (HOST_JESD_STAT_phase_err f) 0
  else if mode = 1 ∨ !s.on (HOST_JESD_STAT_sysref_seen f) then s
  else
    match (nth s.host f).lemc with
    | none => s
    | some o =>
      let e := lemcError o (lemcOf f s) s.bclk
      let s := s.seti (HOST_JESD_STAT_phase_err f) (satI 8 e)
      if e.natAbs ≤ s.get (HOST_JESD_SYS_tol f) then s
      else
        let s := sysrefErr f s
        if mode = 3 then
          (linkLanes (f, l)).foldl (fun s j => if hostState j s = 4 then setHost j 3 s else s) (lemcSet f s)
        else s

/-- The link that lane f starts: its receive link, else its transmit link. -/
def linkFrom (f : Nat) (s : State) : Option (Nat × Nat) := if linkFirst linkOf f s then linkOf f s else if linkFirst linkTx f s then linkTx f s else none

/-- HOST_SYNC_EDGE: every link sees the pin (R163); lanes held in reset ignore it (R166). -/
def hostSyncEdge (s : State) : State :=
  forN 8 (fun f s =>
    match linkFrom f s with
    | some x => if !blkHeld (8 + f) s then linkEdge f x.2 s else s
    | none => s) s

/-- A write of HOST_JESD_SYS (R163). -/
def wrJesdSys (n : Nat) (w : Word) (s : State) : State :=
  let s := s.store (HOST_JESD_SYS n) HOST_JESD_SYS_fs w
  (if wf w (HOST_JESD_SYS_arm n) = 1 then updHost n (fun h => { h with armed := true }) s else s).ret .done

/-- The release instant of the link at f that is not after now, in band-clock periods: rbd octets after an LEMC boundary (R164). -/
def releaseAt (f : Nat) (s : State) : Nat :=
  let p := lemcPeriod (jesdRx f s)
  let o := (nth s.host f).lemc.getD 0 + s.get (HOST_JESD_DL_rbd f) * p / (256 * (jesdRx f s).e)
  s.bclk - (s.bclk - o) % p

/-- JESD_RELEASE: a release instant of the link at n (R164, R165): which lanes hold the start of their extended multiblock, the
occupancy, and the CRC-12 failures since the last one. -/
def jesdRelease (n : Nat) (got : List Bool) (occ crc : Nat) (s : State) : State :=
  match linkOf n s with
  | some (f, l) =>
    let ls := linkLanes (f, l)
    let s := s.addSat (HOST_JESD_STAT_crc_err f) crc
    let ready := ls.all fun j => decide (hostState j s = 3 ∨ hostState j s = 4)
    let wait := ls.any fun j => decide (hostState j s = 3)
    if f = n ∧ hostRuns s ∧ ready ∧ wait ∧ (nth s.host f).lemc.isSome then
      let g := (got.take ls.length)
      if g.length = ls.length ∧ g.all id then
        ls.foldl (fun s j => if hostState j s = 3 then hostReady j false s else s)
          (updHost f (fun h => { h with relAt := releaseAt f s })
            ((s.set (HOST_JESD_DL_occ f) (min occ 8191)).set (HOST_JESD_STAT_late f) 0))
      else if g.any id then hostEvt f 7 (s.set (HOST_JESD_STAT_late f) 1)
      else s
    else s
  | none => s

/-- SYSREF_TIMEOUT (R148): no edge has come in the 100 ms since the lane entered ALIGN. -/
def sysrefTimeout (n : Nat) (s : State) : State :=
  match linkOf n s with
  | some (f, _) =>
    if hostState n s = 3 ∧ s.get (HOST_JESD_SYS_sysref_mode f) ≠ 0 ∧ !(nth s.host n).edge then hostLose n 5 .timeout s
    else s
  | none => s

/-- A write of a link configuration: REFUSED_STATE outside OFF, ERR_RANGE for M odd or outside 2 to 32 and rates 6 and 7. -/
def wrJesdCfg (a n : Nat) (fs : List (Nat × Nat × Acc)) (w : Word) (s : State) : State :=
  let m := wf w (HOST_JESD_RX_CFG_m n)
  if hostState n s ≠ 0 then s.ret .state
  else if m % 2 = 1 ∨ m < 2 ∨ 32 < m ∨ 5 < wf w (HOST_JESD_RX_CFG_rate n) then s.ret .range
  else plainWrite a fs w s

/-- A write of HOST_JESD_DL: rbd below E × 256. -/
def wrJesdDl (n : Nat) (w : Word) (s : State) : State :=
  if s.chg w (HOST_JESD_DL_rbd n) && decide (256 * (jesdRx n s).e ≤ wf w (HOST_JESD_DL_rbd n)) then s.ret .range
  else plainWrite (HOST_JESD_DL n) HOST_JESD_DL_fs w s

/-! ## Patterns and FEC monitoring (R156 to R159) -/

/-- A pattern code that completes with ERR_RANGE (R156). -/
def badPattern (mode code : Nat) : Bool := decide (10 ≤ code) || (decide (mode = 4) && decide (5 ≤ code) && decide (code ≤ 7))

/-- A lane of a link is READY. -/
def linkReady (x : Option (Nat × Nat)) (s : State) : Bool := x.any fun x => (linkLanes x).any fun j => decide (hostState j s = 4)

/-- The lane carries traffic that a generator must not replace (R157): it belongs to an up line lane's group, or to a receive or
transmit link with a READY lane. -/
def patBusy (n : Nat) (s : State) : Bool :=
  (hostGroup n s).isSome || (decide (hostMode n s = 4) && (linkReady (linkOf n s) s || linkReady (linkTx n s) s))

/-- The checker's snapshot (R158). -/
def patSnap (n : Nat) (s : State) : State :=
  let h := nth s.host n
  let s := (s.set (HOST_PAT_ERR_errors n) (min h.chkErr (2 ^ 24 - 1))).set (HOST_PAT_ERR_unlocks n) (min h.chkUnl 255)
  let s := (s.wr (HOST_PAT_BITS_L n) (BitVec.ofNat 32 h.chkBits)).wr (HOST_PAT_BITS_H n) (BitVec.ofNat 32 (h.chkBits / 2 ^ 32))
  updHost n (fun h => { h with chkErr := 0, chkUnl := 0, chkBits := 0 }) s

/-- Bits compared and errors found while locked, on the host clock (R24, R158). -/
def chkCount (n bits errs : Nat) (s : State) : State :=
  if hostRuns s ∧ s.on (HOST_PAT_CTRL_locked n) then
    updHost n (fun h => { h with chkErr := min (h.chkErr + errs) (2 ^ 24 - 1), chkBits := min (h.chkBits + bits) (2 ^ 64 - 1) }) s
  else s

/-- The first n units of the pattern that the lane's generator sends from gen_en = 1 on (R156, R157). With a code of 5 to 7 stored
before a change to converter mode the generator goes on with that code's symbols. -/
def patternSent (n units : Nat) (s : State) : List Nat :=
  patternUnits (s.get (HOST_PAT_CTRL_gen_pat n)) (decide (hostMode n s ≠ 4))
    ((s.rd (HOST_PAT_USER_L n)).toNat + 2 ^ 32 * (s.rd (HOST_PAT_USER_H n)).toNat) units

/-- A write of HOST_PAT_CTRL (R156 to R158). -/
def wrPatCtrl (n : Nat) (w : Word) (s : State) : State :=
  let m := hostMode n s
  if (s.chg w (HOST_PAT_CTRL_gen_pat n) && badPattern m (wf w (HOST_PAT_CTRL_gen_pat n))) ||
      (s.chg w (HOST_PAT_CTRL_chk_pat n) && badPattern m (wf w (HOST_PAT_CTRL_chk_pat n))) then s.ret .range
  else if s.chg w (HOST_PAT_CTRL_gen_en n) && decide (wf w (HOST_PAT_CTRL_gen_en n) = 1) && patBusy n s then s.ret .state
  else
    let s := s.store (HOST_PAT_CTRL n) HOST_PAT_CTRL_fs w
    let s := if wf w (HOST_PAT_CTRL_inject n) = 1 then updHost n (fun h => { h with inverted := h.inverted + 1 }) s else s
    let s := if s.on (HOST_PAT_CTRL_chk_en n) then s else s.set (HOST_PAT_CTRL_locked n) 0
    (if wf w (HOST_PAT_CTRL_snap n) = 1 then patSnap n s else s).ret .done

/-- CHECKER_LOCK (R158), on the host clock (R24). -/
def checkerLock (n : Nat) (s : State) : State :=
  if hostRuns s ∧ s.on (HOST_PAT_CTRL_chk_en n) ∧ !s.on (HOST_PAT_CTRL_locked n) then hostEvt n 4 (s.set (HOST_PAT_CTRL_locked n) 1) else s

/-- CHECKER_UNLOCK (R158), with the bits compared and the errors found since the last count. -/
def checkerUnlock (n bits errs : Nat) (s : State) : State :=
  if hostRuns s ∧ s.on (HOST_PAT_CTRL_locked n) then
    let s := chkCount n bits errs s
    hostEvt n 4 ((updHost n (fun h => { h with chkUnl := min (h.chkUnl + 1) 255 }) s).set (HOST_PAT_CTRL_locked n) 0)
  else s

/-- One live FEC counter counts, saturating at 2^32 - 1. -/
def fecCount (n i k : Nat) (s : State) : State :=
  updHost n (fun h => { h with fec := upd h.fec i fun c => min (c + k) (2 ^ 32 - 1) }) s

/-- 204.8 ns in band-clock periods, rounded up (R159). -/
def fecGap : Nat := 202

/-- The line lane that the group starting at host lane n serves. -/
def servedLane (n : Nat) (s : State) : Option Nat :=
  (List.range 8).find? fun j => (laneGroup j s).any fun g => decide (g.1 = n)

/-- Bits for the line payload queue up behind those that no frame has taken. -/
def hostGive (n v len : Nat) (s : State) : State :=
  updHost n (fun h => { h with out := h.out + 2 ^ h.outLen * (v % 2 ^ len), outLen := h.outLen + len }) s

/-- Codeword k of a pair is handed on: in segmented mode its message with the blocks of uncorrectable codewords marked, end-to-end
both codewords bit for bit (R106, R147). -/
def handOver (n k : Nat) (w msg : List Nat) (bad : Bool) (s : State) : State :=
  match servedLane n s with
  | none => s
  | some j =>
    let e2e := s.on (FRM_LANE_CTRL_outer j)
    let x := if e2e then w else msg
    match (nth s.host n).half with
    | some (a, abad) =>
      let s := updHost n (fun h => { h with half := none }) s
      if k = 0 then updHost n (fun h => { h with half := some (x, bad) }) s
      else if e2e then hostGive n (pairRun 544 a x) 10880 s
      else hostGive n (packBits 257 (markedBlocks a x ((if abad then [0] else []) ++ if bad then [1] else []))) 10280 s
    | none => if k = 0 then updHost n (fun h => { h with half := some (x, bad) }) s else s

/-- Codeword k of a pair as the lanes of the aligned group from lane n bring it: `rx` is what each lane received in the pair's period
(R143 to R145). -/
def hostWord (n k : Nat) (rx : List Nat) (s : State) : List Nat :=
  let h := nth s.host n
  let v := hostReceive (hostMode n s) h.ids (rx.take h.grp) 10880
  (List.range 544).map fun p => bitsAt v (10 * (2 * p + k)) 10

/-- HOST_CODEWORD_DECODE (R147, R159): codeword k of a pair, received on the aligned group whose first lane is n, is decoded, counted and
handed on. A group that is not aligned finds no codeword. -/
def hostCodeword (n k : Nat) (rx : List Nat) (s : State) : State :=
  if hostState n s = 4 ∧ hostRuns s ∧ (nth s.host n).grp ≠ 0 then
    let w := hostWord n k rx s
    let s := fecCount n 0 1 s
    match rsDecodeWord [] w with
    | some v =>
      let e := (rsDiffer w v).length
      handOver n k w (v.take 514) false (fecCount n (3 + min e 15) 1 (fecCount n 1 (min e 15) s))
    | none => handOver n k w (w.take 514) true ((fecCount n 2 1 s).flagLimited (HOST_EVT_fec_uncorr n) (160 + 8 * n + 5) fecGap)
  else s

/-- The snapshot of the FEC counters (R159). -/
def fecSnap (n : Nat) (s : State) : State :=
  let c := (nth s.host n).fec
  let s := forN 3 (fun i s => s.wr (HOST_FEC_CW n + 4 * i) (BitVec.ofNat 32 (nth c i))) s
  let s := forN 16 (fun i s => s.wr (HOST_FEC_BIN n i) (BitVec.ofNat 32 (nth c (3 + i)))) s
  updHost n (fun h => { h with fec := List.replicate 19 0 }) s

/-- A write of HOST_FEC_CMD. -/
def wrFecCmd (n : Nat) (w : Word) (s : State) : State :=
  (if wf w (HOST_FEC_CMD_snap n) = 1 then fecSnap n s else s).ret .done

/-! ## Control registers -/

/-- A write of HOST_CTRL (R141, R142). -/
def wrHostCtrl (n : Nat) (w : Word) (s : State) : State :=
  if 4 < wf w (HOST_CTRL_mode n) ∨ 120 < wf w (HOST_CTRL_amp n) then s.ret .range
  else if s.chg w (HOST_CTRL_mode n) && (decide (hostState n s ≠ 0) || (hostGroup n s).isSome) then s.ret .state
  else (adaptRefresh n (s.store (HOST_CTRL n) HOST_CTRL_fs w)).ret .done

/-- A write of HOST_RX_EQ (R155). -/
def wrHostRxEq (n : Nat) (w : Word) (s : State) : State :=
  if s.chg w (HOST_RX_EQ_ctle n) && !s.on (HOST_CTRL_eq_freeze n) then s.ret .state
  else plainWrite (HOST_RX_EQ n) HOST_RX_EQ_fs w s

/-- The block reset of host lane n (R166, R555): the link that it belonged to has lost a lane. -/
def resetHost (n : Nat) (s : State) : State :=
  let link := linkOf n s
  let s := groupBreak n s
  let s := updHost n (fun _ => {}) (s.dropRange (HOST_CTRL n) (HOST_CTRL (n + 1)))
  match link with
  | some (f, _) => if f = n then s else (s.set (HOST_JESD_STAT_sh_lock f) 0).set (HOST_JESD_STAT_emb_lock f) 0
  | none => s

/-- What HTX_n sends (R141, R151, R157, R166, R408): a differential zero in OFF, without power and in the lane's block reset. -/
inductive HostSend
  | zero
  | training
  | pattern
  | traffic
deriving DecidableEq, Repr

def hostSends (n : Nat) (s : State) : HostSend :=
  if blkHeld (8 + n) s ∨ hostState n s = 0 ∨ !s.on (HOST_CTRL_tx_en n) then .zero
  else if hostState n s = 2 then .training
  else if s.on (HOST_PAT_CTRL_gen_en n) then .pattern
  else .traffic

/-! ## The receive equaliser (R155) -/

/-- One step of sign-sign LMS on host lane n: each coefficient moves by one step, which way a free constant says (log 150). -/
def lmsHost (n : Nat) (s : State) : State :=
  updHost n (fun h =>
    let d := fun (i : Nat) => if Config.lmsUp h.lms i then (1 : Int) else -1
    { h with ffe := h.ffe.zipIdx.map (fun c => c.1 + d c.2), dfe := h.dfe + d 12,
             ctle := (clampI 0 7 ((h.ctle : Int) + d 13)).toNat, lms := h.lms + 1 }) s

/-- While HOST_RX_EQ.adapting is 1 the coefficients adapt; else they hold. -/
def hostAdapt (s : State) : State :=
  if hostRuns s then forN 8 (fun n s => if s.on (HOST_RX_EQ_adapting n) then lmsHost n s else s) s else s

/-- The CTLE setting in use. -/
def ctleInUse (n : Nat) (s : State) : Nat :=
  if s.on (HOST_CTRL_eq_freeze n) then s.get (HOST_RX_EQ_ctle n) else (nth s.host n).ctle

/-! ## Meanings -/

def execHostModeWrite (q : Rq) (n : Fin 8) (w : Word) (s : State) : Out :=
  .next (gated q (HOST_CTRL n) HOST_CTRL_fs w (wrHostCtrl n w) s)

def execHostStart (q : Rq) (n : Fin 8) (s : State) : Out := .next (gated q (HOST_CMD n) HOST_CMD_fs 1 (hostStart n) s)

def execHostRetrain (q : Rq) (n : Fin 8) (s : State) : Out := .next (gated q (HOST_CMD n) HOST_CMD_fs 2 (hostRetrain n) s)

def execHostStop (q : Rq) (n : Fin 8) (s : State) : Out := .next (gated q (HOST_CMD n) HOST_CMD_fs 3 (hostStop n) s)

def execHostResync (q : Rq) (n : Fin 8) (s : State) : Out := .next (gated q (HOST_CMD n) HOST_CMD_fs 4 (hostResync n) s)

def execHostLockAcquired (n : Fin 8) (snr : Fin 256) (s : State) : Out := .next (hostLockAcquired n snr s)

def execHostAcquireTimeout (n : Fin 8) (s : State) : Out := .next (hostAcquireTimeout n s)

def execTrainingFrameRx (n : Fin 8) (mark : Bool) (ctl sts : BitVec 16) (snr : Fin 256) (s : State) : Out :=
  .next (trainingFrameRx n mark ctl.toNat sts.toNat snr s)

def execTrainTimeout (n : Fin 8) (s : State) : Out := .next (trainTimeout n s)

def execTrainAutoReady (n : Fin 8) (s : State) : Out := .next (trainAutoReady n s)

def execHostTrainReqWrite (q : Rq) (n : Fin 8) (w : Word) (s : State) : Out :=
  .next (gated q (HOST_TRAIN_REQ n) HOST_TRAIN_REQ_fs w (wrTrainReq n w) s)

def execHostTxFirWrite (q : Rq) (n : Fin 8) (k : Fin 5) (w : Word) (s : State) : Out :=
  .next (gated q (HOST_TX_FIR n k) HOST_TX_FIR_fs w (wrHostFir n k w) s)

def execHostTxFirApply (n : Fin 8) (s : State) : Out := .next (hostTxFirApply n s)

def execHostGroupAlign (n : Fin 8) (size : Fin 5) (ids : List Nat) (skewPs : Nat) (s : State) : Out :=
  .next (hostGroupAlign n size ids skewPs s)

def execHostLaneLost (n : Fin 8) (why : Fin 3) (s : State) : Out := .next (hostLaneLost n (why + 1) s)

def execHostSyncEdge (s : State) : Out := .next (hostSyncEdge s)

def execHostSysrefArm (q : Rq) (n : Fin 8) (w : Word) (s : State) : Out :=
  let w := force w (HOST_JESD_SYS_arm n) 1
  .next (gated q (HOST_JESD_SYS n) HOST_JESD_SYS_fs w (wrJesdSys n w) s)

def execJesdRelease (n : Fin 8) (got : List Bool) (occ crc : Nat) (s : State) : Out := .next (jesdRelease n got occ crc s)

def execSysrefTimeout (n : Fin 8) (s : State) : Out := .next (sysrefTimeout n s)

def execPatternGenEnable (q : Rq) (n : Fin 8) (w : Word) (s : State) : Out :=
  let w := force w (HOST_PAT_CTRL_gen_en n) 1
  .next (gated q (HOST_PAT_CTRL n) HOST_PAT_CTRL_fs w (wrPatCtrl n w) s)

def execPatternInject (q : Rq) (n : Fin 8) (w : Word) (s : State) : Out :=
  let w := force w (HOST_PAT_CTRL_inject n) 1
  .next (gated q (HOST_PAT_CTRL n) HOST_PAT_CTRL_fs w (wrPatCtrl n w) s)

def execCheckerLock (n : Fin 8) (s : State) : Out := .next (checkerLock n s)

def execCheckerUnlock (n : Fin 8) (bits errs : Nat) (s : State) : Out := .next (checkerUnlock n bits errs s)

def execPatternSnap (q : Rq) (n : Fin 8) (w : Word) (bits errs : Nat) (s : State) : Out :=
  let w := force w (HOST_PAT_CTRL_snap n) 1
  .next (gated q (HOST_PAT_CTRL n) HOST_PAT_CTRL_fs w (fun s => wrPatCtrl n w (chkCount n bits errs s)) s)

def execHostCodewordDecode (n : Fin 8) (k : Fin 2) (rx : List Nat) (s : State) : Out := .next (hostCodeword n k rx s)

def execHostFecSnap (q : Rq) (n : Fin 8) (s : State) : Out :=
  .next (gated q (HOST_FEC_CMD n) HOST_FEC_CMD_fs 1 (wrFecCmd n 1) s)

end Sys2Proof.Machine
end

