-- ==== Sys2Proof/Machine/Pbch.lean ====
section
/-! DEFINITION. The E-UTRA broadcast channel of chapter 08 (R235): the tail-biting trellis decoder, and what 3GPP TS 36.211 and 36.212,
which the spec names, fix of the channel: its code, rate matching, scrambling and CRC (log 156). -/

namespace Sys2Proof.Machine

/-! ## What the standard fixes -/

/-- The parity of seven bits. -/
def parity7 (x : Nat) : Nat :=
  let a := x ^^^ (x / 16)
  let b := a ^^^ (a / 4)
  (b ^^^ (b / 2)) % 2

/-- The three coded bits of the constraint-length-7 code, generators 133, 171 and 165 octal, as a number, the first highest: bit u after
the last six, the newest in bit 5. -/
def pbchCode (u s : Nat) : Nat :=
  4 * parity7 ((64 * u + s) &&& 0o133) + 2 * parity7 ((64 * u + s) &&& 0o171) + parity7 ((64 * u + s) &&& 0o165)

/-- The column order of the sub-block interleaver for convolutional codes. -/
def pbchCols : List Nat :=
  [1, 17, 9, 25, 5, 21, 13, 29, 3, 19, 11, 27, 7, 23, 15, 31, 0, 16, 8, 24, 4, 20, 12, 28, 2, 18, 10, 26, 6, 22, 14, 30]

/-- The order in which the 40 bits of one coded stream leave the interleaver: two rows of 32 columns, the first 24 places empty. -/
def pbchOrder : List Nat :=
  pbchCols.flatMap fun c => ([c, 32 + c].filter fun x => decide (24 ≤ x)).map fun x => x - 24

/-- The coded bit (stream, index) that stands at place k of the 120 bits in the circular buffer. -/
def pbchPlace (k : Nat) : Nat × Nat := (k / 40, nth pbchOrder (k % 40))

/-- The first n bits of the scrambling sequence of a cell, bits 1,600 on of a Gold sequence of length 31. -/
def goldRun : Nat → Nat → Nat → List Bool
  | 0, _, _ => []
  | n + 1, a, b =>
    (a.testBit 0 ^^ b.testBit 0) ::
      goldRun n (a / 2 + 2 ^ 30 * ((a.testBit 0 ^^ a.testBit 3).toNat))
        (b / 2 + 2 ^ 30 * ((b.testBit 0 ^^ b.testBit 1 ^^ b.testBit 2 ^^ b.testBit 3).toNat))

def scrambling (pci n : Nat) : List Bool := (goldRun (1600 + n) 1 pci).drop 1600

/-- The 16-bit remainder of a run of bits, the first one highest, by x^16 + x^12 + x^5 + 1. -/
def crc16 (bits : List Bool) : Nat :=
  bits.foldl (fun r b =>
    let top := decide (2 ^ 15 ≤ r) ^^ b
    ((2 * r) % 2 ^ 16) ^^^ (if top then 0x1021 else 0)) 0

/-- The CRC masks of 1, 2 and 4 antenna ports. -/
def crcMask : Nat → Nat
  | 0 => 0
  | 1 => 0xFFFF
  | _ => 0x5555

/-! ## The trellis decoder: 64 states, three passes round the circle, decisions from the middle pass -/

/-- A survivor: its metric, the smaller the better, and its bits, newest first. -/
structure Surv where
  m : Nat
  bits : List Bool
deriving DecidableEq, Repr, Inhabited

/-- What the three soft bits of a step, positive for a 0, tell against each triple of coded bits, by its number (first bit highest):
the soft bits of the other sign. -/
def stepCosts (soft : List Int) : List Nat :=
  (List.range 8).map fun c =>
    ((List.range 3).map fun j =>
      let x := nth soft j
      if (c.testBit (2 - j)) = decide (x < 0) then 0 else x.natAbs).sum

/-- The better of two paths; which of two equal ones survives is open (Config.survivorTie, log 144). -/
def Surv.better (i : Nat) (a b : Surv) (u : Bool) (ca cb : Nat) : Surv :=
  let ma := a.m + ca
  let mb := b.m + cb
  { m := min ma mb
    bits := u :: (if ma < mb then a.bits else if mb < ma then b.bits
      else if Config.survivorTie (2 * i) (2 * i + 1) then a.bits else b.bits) }

/-- The survivors of the states whose newest bit (bit 5) is u, from those of the states 2i and 2i + 1 on: the bit before the last six
falls out. -/
def pbchHalf (costs : List Nat) (u : Nat) : Nat → List Surv → List Surv
  | i, a :: b :: t =>
    Surv.better i a b (decide (u = 1)) (nth costs (pbchCode u (2 * i))) (nth costs (pbchCode u (2 * i + 1))) ::
      pbchHalf costs u (i + 1) t
  | _, _ => []

/-- The survivors after a run of steps. -/
def pbchRun : List (List Nat) → List Surv → List Surv
  | [], ps => ps
  | o :: t, ps => pbchRun t (pbchHalf o 0 0 ps ++ pbchHalf o 1 0 ps)

/-- The survivor of smallest metric. -/
def bestSurv (ps : List Surv) : Surv := ps.foldl (fun a b => if b.m < a.m then b else a) (nth ps 0)

/-- The 40 bits decided from the soft bits of the three coded streams. -/
def tailBite (streams : List (List Int)) : List Bool :=
  let steps := (List.range 40).map fun i => stepCosts (streams.map fun d => nth d i)
  let ps := pbchRun (steps ++ steps ++ steps) ((List.range 64).map fun _ => ⟨0, []⟩)
  ((bestSurv ps).bits.reverse.drop 40).take 40

/-! ## Frames (R235) -/

/-- Soft PBCH bits in a radio frame: 480, or 432 with the extended cyclic prefix. -/
def frameSoft (ecp : Bool) : Nat := if ecp then 432 else 480

/-- What one frame adds to the soft bits of the 120 coded bits, as frame `o` of the 40 ms period. -/
def softAdd (ecp : Bool) (pci o : Nat) (soft : List Int) (acc : List Int) : List Int :=
  let n := frameSoft ecp
  let sc := (scrambling pci (4 * n)).drop (o * n)
  let e := ((soft.take n).zip sc).map fun x => if x.2 then -x.1 else x.1
  acc.zipIdx.map fun a =>
    let i := (a.2 + 120 - o * n % 120) % 120
    a.1 + ((List.range 4).map fun r => if i + 120 * r < n then nth e (i + 120 * r) else 0).foldl (· + ·) 0

/-- The soft bits of the three coded streams that some frames give together, the newest first and in place `o` of the period. -/
def combine (ecp : Bool) (pci : Nat) : Nat → List (List Int) → List Int → List Int
  | _, [], acc => acc
  | o, f :: t, acc => combine ecp pci (o - 1) t (softAdd ecp pci o f acc)

/-- The three streams from the soft bits in buffer order. -/
def streamsOf (acc : List Int) : List (List Int) :=
  (List.range 3).map fun j => (List.range 40).map fun i =>
    ((List.range 120).find? fun k => decide (pbchPlace k = (j, i))).elim 0 fun k => nth acc k

/-- A decision of 40 bits matches the CRC under a mask of antenna ports: the MIB, first bit in bit 0, and the ports' code. -/
def crcMatch (bits : List Bool) : Option (Nat × Nat) :=
  let crc := (bits.drop 24).foldl (fun v b => 2 * v + b.toNat) 0
  ((List.range 3).find? fun p => decide (crc16 (bits.take 24) ^^^ crcMask p = crc)).map fun p => (packBools (bits.take 24), p)

/-- The decoding after a radio frame: the frames collected, newest first. Each place o of the newest frame in the period is tried with
the frames that the period then holds, the most frames first (log 156): the MIB, the ports' code and the place. -/
def pbchMatch (ecp : Bool) (pci : Nat) (frames : List (List Int)) : Option (Nat × Nat × Nat) :=
  ((List.range 4).reverse.flatMap fun j => (List.range 4).map fun o => (j + 1, o)).findSome? fun x =>
    if x.1 ≤ frames.length ∧ x.1 ≤ x.2 + 1 then
      (crcMatch (tailBite (streamsOf (combine ecp pci x.2 (frames.take x.1) (List.replicate 120 0))))).map
        fun m => (m.1, m.2, x.2)
    else none

end Sys2Proof.Machine
end

