-- ==== Sys2Proof/Machine/Sample.lean ====
section
/-! DEFINITION. The arithmetic of the band engine's samples (chapter 06): complex samples with convergent rounding and saturation
(R169, R171), packed block floating point (R172 to R174), mixing and correction (R179), the filters (R180, R182, R187), the
canceller's sums (R184), port sums (R176), meters (R186) and the correlator (R194). -/

namespace Sys2Proof.Machine

/-! ## Samples (R169, R171) -/

/-- A complex number: re, im. -/
abbrev Cx := Int × Int

/-- A tap or sample in the format of R169: I or re in bits 15:0, Q or im in bits 31:16, in 2^-15. -/
def cplx (w : Nat) : Cx := (sgn 16 w, sgn 16 (w / 65536))

/-- The word of a complex number within the format. -/
def cxWord (x : Cx) : Nat := (x.1 % 65536).toNat + 65536 * (x.2 % 65536).toNat

def cxAdd (a b : Cx) : Cx := (a.1 + b.1, a.2 + b.2)
def cxSub (a b : Cx) : Cx := (a.1 - b.1, a.2 - b.2)
def cxMul (a b : Cx) : Cx := (a.1 * b.1 - a.2 * b.2, a.1 * b.2 + a.2 * b.1)
def cxScale (k : Int) (a : Cx) : Cx := (k * a.1, k * a.2)
def cxConj (a : Cx) : Cx := (a.1, -a.2)

/-- |x|² of a sample, in 2^-30. -/
def cxPow (a : Cx) : Nat := (a.1 * a.1 + a.2 * a.2).toNat

/-- A stage's result: rounded convergently to a sample half and saturated (R171), `d` the divisor of its exact value. -/
def roundHalf (x : Int) (d : Nat) : Int := satI 16 (divEven x d)

/-- A stage's complex result and whether it was saturated. -/
def roundCx (x : Cx) (d : Nat) : Cx × Bool :=
  let r := (roundHalf x.1 d, roundHalf x.2 d)
  (r, decide (r.1 ≠ divEven x.1 d) || decide (r.2 ≠ divEven x.2 d))

/-! ## Packed block floating point (R172 to R174) -/

/-- Mantissa width of a packed format (R172): 1 BFP7, 2 BFP9, 3 BFP12. -/
def bfpWidth (fmt : Nat) : Nat :=
  match fmt with
  | 1 => 7
  | 2 => 9
  | _ => 12

/-- Every component fits m bits at exponent e (R173). -/
def bfpFits (m e : Nat) (xs : List Int) : Bool := xs.all fun x => decide (satI m (divEven x (2 ^ e)) = divEven x (2 ^ e))

/-- The exponent that the encoder takes (R173). -/
def bfpExp (m : Nat) (xs : List Int) : Nat := ((List.range (17 - m)).find? fun e => bfpFits m e xs).getD (16 - m)

/-- The mantissas of a block (R173). -/
def bfpEncode (m : Nat) (xs : List Int) : Nat × List Int :=
  let e := bfpExp m xs
  (e, xs.map fun x => satI m (divEven x (2 ^ e)))

/-- The decoded components; an exponent above 16 - m gives zeros (R172, R174). -/
def bfpDecode (m e : Nat) (qs : List Int) : List Int := qs.map fun x => if 16 - m < e then 0 else x * 2 ^ e

/-- The components I, Q of the samples in turn, and back. -/
def components (ws : List Nat) : List Int := ws.flatMap fun w => [(cplx w).1, (cplx w).2]

def fromComponents : List Int → List Nat
  | i :: q :: t => cxWord (i, q) :: fromComponents t
  | _ => []

/-- The block of 12 samples in a container's format (R124, R172): plain words, or the exponent in bits 3:0 and the mantissas from
bit 4 on. -/
def encodeBlock (fmt : Nat) (ws : List Nat) : Nat :=
  if fmt = 0 then packBits 32 (ws.take 12)
  else
    let m := bfpWidth fmt
    let b := bfpEncode m (components (ws.take 12))
    b.1 + 16 * packBits m (b.2.map fun x => (x % 2 ^ m).toNat)

/-- The 12 samples of a received block. -/
def decodeBlock (fmt blk : Nat) : List Nat :=
  if fmt = 0 then unpackBits 32 12 blk
  else
    let m := bfpWidth fmt
    fromComponents (bfpDecode m (blk % 16) ((unpackBits m 24 (blk / 16)).map fun x => sgn m x))

/-! ## Mixing and correction (R179) -/

/-- π in 2^-64, rounded down. -/
def piFix : Nat := 57952155664616982739

/-- n terms of the series of sine (k = 1) or cosine (k = 0) from the term t on, in 2^-64; x2 is the square of the angle in 2^-64. -/
def taylor (x2 : Nat) : Nat → Nat → Int → Int
  | 0, _, _ => 0
  | n + 1, k, t => t + taylor x2 n (k + 2) (-(t * (x2 : Int)).tdiv ((2 ^ 64 * ((k + 1) * (k + 2)) : Nat) : Int))

/-- Sine of p units of 2^-32 of a turn, in 2^-64. -/
def sinTurn (p : Nat) : Int :=
  let x : Nat := p % 2 ^ 30 * piFix / 2 ^ 31
  let x2 : Nat := x * x / 2 ^ 64
  match p / 2 ^ 30 % 4 with
  | 0 => taylor x2 16 1 x
  | 1 => taylor x2 16 0 (2 ^ 64)
  | 2 => -taylor x2 16 1 x
  | _ => -taylor x2 16 0 (2 ^ 64)

/-- Cosine or sine of a 32-bit phase with n fractional bits: one of its two neighbours, which is free (log 168). -/
def trig (sine : Bool) (n p : Nat) : Int :=
  let v := sinTurn (if sine then p else p + 2 ^ 30)
  v.fdiv ((2 ^ (64 - n) : Nat) : Int) + (if v.fmod ((2 ^ (64 - n) : Nat) : Int) ≠ 0 ∧ Config.trigUp sine n p then 1 else 0)

/-- e^{jφ} of a 32-bit phase with n fractional bits. -/
def rotor (n p : Nat) : Cx := (trig false n p, trig true n p)

/-- e^{jφ} of a 32-bit phase: truncated to 20 bits, cosine and sine of 18 bits in units of 2^-17. -/
def ncoOut (phase : Nat) : Cx :=
  let z := rotor 17 (phase / 4096 * 4096 % 2 ^ 32)
  (satI 18 z.1, satI 18 z.2)

/-- The corrected, unmixed sample x + β x* + δ, in 2^-30. -/
def iqCorrect (beta delta x : Cx) : Cx := cxAdd (cxScale 32768 (cxAdd x delta)) (cxMul beta (cxConj x))

/-- y = (x + β x* + δ) e^{jφ}, in 2^-47. -/
def mixed (beta delta x : Cx) (phase : Nat) : Cx := cxMul (iqCorrect beta delta x) (ncoOut phase)

/-! ## Filters (R180, R182, R187) -/

/-- A filter's coefficients: mirrored in linear-phase mode (mode 0) from h_0 to h_{(N-1)/2} (R180). -/
def filterTaps (mode n : Nat) (h : List Nat) : List Int :=
  (List.range n).map fun j => sgn 18 (h.getD (if mode = 0 then min j (n - 1 - j) else j) 0)

/-- The filter's sum over the newest samples, newest first. -/
def firCx (taps : List Int) (xs : List Cx) : Cx :=
  ((taps.zip xs).map fun a => cxScale a.1 a.2).foldl cxAdd (0, 0)

/-- The filter output at sample k of a fade of length L (R187), from sums of one unit; the quotient is rounded with them. -/
def fadeMix (l k : Nat) (old new : Int) : Int := ((l : Int) - k) * old + k * new

/-- Coefficient j of the 31-tap halfband in units of 2^-17: one half in the middle, 0 at the other odd places, and mirrored. -/
def halfbandTap (j : Nat) : Int := if j = 15 then 65536 else if j % 2 = 1 then 0 else Config.halfband (min j (30 - j))

def halfbandTaps : List Int := (List.range 31).map halfbandTap

/-! ## Canceller and port sum (R184, R176) -/

/-- The real and imaginary sums of R184 over one cluster's taps and the composite samples that they meet, in 2^-30. -/
def clusterSum : List Nat → List Nat → Cx
  | h :: hs, r :: rs => cxAdd (cxMul (cplx h) (cplx r)) (clusterSum hs rs)
  | _, _ => (0, 0)

/-- One component of a port sum (R176): added at full precision, then saturated once. -/
def portSum (xs : List Int) : Int := satI 16 (xs.foldl (· + ·) 0)

/-- The sample of a port that sums path outputs. -/
def portSample (ws : List Nat) : Nat := cxWord (portSum (ws.map fun w => (cplx w).1), portSum (ws.map fun w => (cplx w).2))

/-! ## Meters and correlator (R186, R194) -/

/-- 10 log10 (a / b) in 1/n dB, rounded to the nearest, no lower than -160 dB. -/
def levelIn (n a b : Nat) : Int :=
  if a = 0 then -(160 * n : Nat)
  else
    let ok := fun (u : Nat) => decide (b ^ (20 * n) * 10 ^ (2 * u) ≤ a ^ (20 * n) * 10 ^ (320 * n + 1))
    ((List.range 14).foldr (fun i u => if ok (u + 2 ^ i) then u + 2 ^ i else u) 0 : Nat) - (160 * n : Nat)

/-- 10 log10 (a / b) in the meters' 1/64 dB (R186). -/
def levelDb (a b : Nat) : Int := levelIn 64 a b

/-- A meter takes a sample. -/
def Mtr.add (m : Mtr) (w : Nat) : Mtr := let p := cxPow (cplx w); ⟨m.n + 1, m.sum + p, max m.peak p⟩

/-- The mean and the peak that a meter reports. -/
def Mtr.levels (m : Mtr) : Int × Int := (levelDb m.sum (m.n * 2 ^ 30), levelDb m.peak (2 ^ 30))

/-- The channel takes a sample with frequency word fw. -/
def Corr.add (c : Corr) (fw w : Nat) : Corr :=
  let z := cxMul (cplx w) (cxConj (rotor 30 (fw * c.n % 2 ^ 32)))
  ⟨c.n + 1, c.re + z.1, c.im + z.2⟩

/-- The mean of n samples in units of 2^-23, as a word. -/
def corrWord (x : Int) (n : Nat) : BitVec 32 := BitVec.ofInt 32 (satI 32 (divEven x (n * 2 ^ 22)))

end Sys2Proof.Machine
end

