-- ==== Sys2Proof/Machine/BandBase.lean ====
section
/-! DEFINITION. What the repeater, the listener and the band engine read of a band path (R178, R196) and of a port entry, the samples that
band paths have sent to an output port (R176, R184), and the windows of a path's meter points (R186, R215). -/

namespace Sys2Proof.Machine

def updBnd (k : Nat) (f : BndP → BndP) (s : State) : State := { s with bnd := upd s.bnd k f }

/-- Admission state of path k: 0 IDLE, 1 QUEUED, 2 ADMITTED, 3 RELEASING. -/
def admState (k : Nat) (s : State) : Nat := s.get (BND_PATH_STAT_state k)

/-- Direction of path k: 0 downlink, 1 uplink. -/
def pathDir (k : Nat) : Nat := k / 64

def rateIn (k : Nat) (s : State) : Nat := s.get (BND_PATH_CFG_rate_in k)

/-- The rate code of f_out = f_in × 2^∓hb, none outside the six port rates (R178). -/
def rateOut (k : Nat) (s : State) : Option Nat :=
  let r := rateIn k s
  let h := s.get (BND_PATH_CFG_hb k)
  if 5 < r ∨ 4 < h then none
  else if s.on (BND_PATH_CFG_hb_dir k) then (if h ≤ r then some (r - h) else none)
  else if r + h ≤ 5 then some (r + h) else none

/-- Band-clock periods of one output sample of path k. -/
def outPeriod (k : Nat) (s : State) : Nat := 8 * 2 ^ (rateOut k s).getD 0

/-- The path's configured output port. -/
def outPort (k : Nat) (s : State) : Nat := s.get (BND_PATH_CFG2_out_port k)

/-- Paths whose output feeds port p. -/
def feeders (p : Nat) (s : State) : List Nat :=
  (List.range 128).filter fun k => decide (2 ≤ admState k s) && decide (outPort k s = p)

/-- A canceller cluster of path k is active (R208). -/
def clusterActive (k : Nat) (s : State) : Bool := (List.range 8).any fun c => s.on (BND_PATH_CXL_act_en k c)

/-! ## Output ports (R176, R184, R217) -/

/-- The sample of path k at output port p whose period holds band time t, 0 for none. -/
def sentAt (p : Nat) (t : Int) (b : BndP) : Nat :=
  ((b.out.find? fun o => decide (o.port = p) && decide ((o.t : Int) ≤ t) && decide (t < (o.t + o.per : Nat))).map OutSample.w).getD 0

/-- The sum of the samples that band paths have sent to output port p, at band time t (R176). -/
def composite (p : Nat) (t : Int) (s : State) : Nat := portSample (s.bnd.map (sentAt p t))

/-- The mean power of port p's sum in 1/64 dBFS over the last 1,024 band-clock periods, of which each sample lasts 8 × 2^rate (R217). -/
def ceilMean (p : Nat) (s : State) : Int :=
  let per := 8 * 2 ^ s.get (BND_POUT_rate p)
  ((List.range (1024 / per)).foldl (fun (m : Mtr) i => m.add (composite p ((s.bandTime : Int) - 1024 + (i * per : Nat)) s)) {}).levels.1

/-! ## Windows (R186, R215) -/

/-- An output sample joins the window, with the samples at IN and RES that came with it. -/
def MtrWin.add (ins : List (Nat × Nat)) (w : Nat) (sat gate edge : Bool) (m : MtrWin) : MtrWin where
  mIn := ins.foldl (fun a x => a.add x.1) m.mIn
  mRes := ins.foldl (fun a x => a.add x.2) m.mRes
  mOut := m.mOut.add w
  sat := m.sat + sat.toNat
  open_ := m.open_ && gate
  edge := m.edge || edge

/-- A window of `len` output samples is finished and the next one begins. -/
def MtrWin.roll (len : Nat) (m : MtrWin) (done : List MtrWin) : MtrWin × List MtrWin :=
  if len ≤ m.mOut.n then ({}, done ++ [m]) else (m, done)

end Sys2Proof.Machine
end

