-- ==== Sys2Proof/Machine/Rpt.lean ====
section
/-! DEFINITION. Repeater control and network protection (chapter 07): the states, ramps, causes and reductions of each band
path, and the meanings of the repeater's commands and events. -/

namespace Sys2Proof.Machine

def updRpt (k : Nat) (f : RptP → RptP) (s : State) : State := { s with rpt := upd s.rpt k f }

/-- Event flag `b` of RPT_EVT, event 320 + b: at most once per 1 ms for the block (R226). -/
def rptEvt (b : Nat) (s : State) : State := s.flagLimited ⟨RPT_EVT, b, 1⟩ (320 + b) msTicks

/-- The path's state: 0 OFF, 1 ARMING, 2 ACTIVE, 3 LIMITED, 4 MUTING, 5 MUTED, 6 FAULT. -/
def rptState (k : Nat) (s : State) : Nat := s.get (RPT_PATH_STAT_state k)

/-- The path changes its state (R209); in OFF, MUTED and FAULT the factor is 0 and r stands at 60 dB (R204). -/
def setRpt (k t : Nat) (s : State) : State :=
  if rptState k s = t then s
  else
    let s := s.set (RPT_PATH_STAT_state k) t
    let s := if t = 0 ∨ t = 5 ∨ t = 6 then updRpt k (fun p => { p with a := 0, r := 57600, fast := false }) s else s
    let s := if t = 0 ∨ t = 5 ∨ t = 6 then updRpt k (fun p => { p with hist := [], resRun := 0, satRun := 0 }) s else s
    let s := if t = 2 ∨ t = 3 then s else updRpt k (fun p => { p with low := false }) s
    rptEvt 0 (s.set ⟨RPT_CHG (k / 32), k % 32, 1⟩ 1)

/-- A command's final code (R209). -/
def rptEnd (k : Nat) (c : Code) (reason : Nat) (s : State) : State :=
  ((s.set (RPT_PATH_STAT_outcome k) c.n).set (RPT_PATH_STAT_reason k) reason).flag RPT_EVT_cmd 321

/-- A held ARM ends (R210). -/
def armEnd (k : Nat) (c : Code) (reason : Nat) (s : State) : State :=
  if s.on (RPT_PATH_STAT_arm_pend k) then rptEnd k c reason (s.set (RPT_PATH_STAT_arm_pend k) 0) else s

/-- The command ends at once. -/
def rptNow (k : Nat) (c : Code) (s : State) : State := (rptEnd k c 0 s).ret c

/-! ## Causes (R212 to R214) -/

/-- Bits of RPT_PATH_STAT.causes. -/
def cCmd : Nat := 0
def cOsc : Nat := 1
def cCeil : Nat := 2
def cNoise : Nat := 3
def cDonor : Nat := 4
def cMuteN : Nat := 5
def cAdm : Nat := 6
def cTherm : Nat := 7

/-- The bit field of one cause. -/
def causeFd (k c : Nat) : Fd := ⟨RPT_PATH_STAT k, 16 + c, 1⟩

/-- Whether a cause ramps down fast (R212). -/
def causeFast (c : Nat) (s : State) : Bool :=
  decide (c = cOsc) || decide (c = cTherm) || (decide (c = cMuteN) && s.on RPT_MUTE_CTRL_fast)

/-- A fast ramp-down of path k has taken its 8 output samples (R211). -/
def fastOver (k : Nat) (s : State) : Bool := decide ((nth s.rpt k).fastAt + 8 * outPeriod k s ≤ s.bclk)

/-- The repeater factor at band-clock period b, in 2^-16: a fast ramp-down takes it linearly to 0 over 8 output samples (R204, R211). -/
def rptFactor (k b : Nat) (s : State) : Nat :=
  let p := nth s.rpt k
  if !p.fast then p.a else (divEven (p.a * (8 - min 8 ((b - p.fastAt) / outPeriod k s) : Nat)) 8).toNat

/-- A cause sets in. -/
def causeOn (k c : Nat) (s : State) : State :=
  if s.on (causeFd k c) then s
  else
    let s := updRpt k (fun p => { p with seen := p.seen ||| 2 ^ c }) (s.set (causeFd k c) 1)
    let t := rptState k s
    if c = cAdm then (if 1 ≤ t ∧ t ≤ 5 then setRpt k 5 s else s)
    else
      let fast := causeFast c s
      let s := if fast ∧ 1 ≤ t ∧ t ≤ 4 ∧ !(nth s.rpt k).fast then updRpt k (fun p => { p with fast := true, fastAt := s.bclk }) s
        else s
      if 1 ≤ t ∧ t ≤ 3 then setRpt k 4 s else s

/-- A cause clears. -/
def causeOff (k c : Nat) (s : State) : State := s.set (causeFd k c) 0

/-- Whether the table of R212 lets hardware re-arm after every cause that was present (R213). -/
def autoAllowed (k : Nat) (s : State) : Bool :=
  let m := (nth s.rpt k).seen
  let has := fun (c : Nat) => decide (m / 2 ^ c % 2 = 1)
  decide (m ≠ 0) && !has cCmd && !has cOsc && !has cCeil && !has cNoise && !has cTherm &&
    (!has cDonor || s.on RPT_MUTE_CTRL_rearm_donor) && (!has cMuteN || s.on RPT_MUTE_CTRL_rearm)

/-- A full ramp-up from 60 dB begins (R209, R210). -/
def startArming (k : Nat) (s : State) : State :=
  setRpt k 1 (updRpt k (fun p => { p with r := 57600, fast := false, seen := 0 }) s)

/-- The path goes OFF; a held ARM ends ABORTED with a reason. -/
def rptToOff (k reason : Nat) (s : State) : State :=
  let s := armEnd k .aborted reason s
  let s := updRpt k (fun p => { p with seen := 0 }) (s.set (RPT_PATH_STAT_causes k) 0)
  setRpt k 0 s

/-- The band path leaves ADMITTED by RELEASE (reason 3) or by a fence of the band engine (reason 4) (R209, R227). -/
def rptLeft (k reason : Nat) (s : State) : State := if rptState k s = 0 then s else rptToOff k reason s

/-- The band path is evicted (R209). -/
def rptEvict (k : Nat) (s : State) : State :=
  let t := rptState k s
  if 1 ≤ t ∧ t ≤ 5 then causeOn k cAdm s else s

/-- The causes whose conditions still hold are present again when an OFF path is armed. -/
def retakeCauses (k : Nat) (s : State) : State :=
  let s := if s.muteN ∧ s.on (RPT_PATH_CFG_mute_n_en k) then causeOn k cMuteN s else s
  let s := if s.on TH_STAT_shutdown || s.own.ext then causeOn k cTherm s else s
  if (nth s.rpt k).gone then causeOn k cDonor s else s

/-! ## Commands (R209, R210) -/

/-- ARM. -/
def rptArm (k : Nat) (s : State) : State :=
  let t := rptState k s
  if s.on (RPT_PATH_STAT_arm_pend k) ∨ t = 6 then rptNow k .state s
  else if t = 0 ∧ admState k s ≠ 2 then rptNow k .state s
  else
    let s := causeOff k cNoise (causeOff k cCeil (causeOff k cCmd s))
    let s := if t = 0 then retakeCauses k s else s
    if 1 ≤ t ∧ t ≤ 3 then rptNow k .done s
    else if t ≠ 4 ∧ s.get (RPT_PATH_STAT_causes k) = 0 ∧ !(nth s.rpt k).oscHold then rptNow k .done (startArming k s)
    else
      let s := (s.set (RPT_PATH_STAT_arm_pend k) 1).set (RPT_PATH_STAT_outcome k) Code.held.n
      let s := s.set (RPT_PATH_STAT_reason k) 0
      (if t = 0 then setRpt k 5 s else s).ret .held

/-- MUTE. -/
def rptMute (k : Nat) (s : State) : State :=
  let t := rptState k s
  if t = 0 ∨ t = 6 then rptNow k .state s else rptNow k .done (armEnd k .aborted 1 (causeOn k cCmd s))

/-- OFF. -/
def rptOff (k : Nat) (s : State) : State :=
  let t := rptState k s
  if t = 5 ∨ t = 6 then rptNow k .done (rptToOff k 0 s) else rptNow k .state s

/-- CLEAR. -/
def rptClear (k : Nat) (s : State) : State :=
  if rptState k s = 6 then
    rptNow k .done (setRpt k 5 ((updRpt k (fun p => { p with trips := [] }) s).set (RPT_PATH_STAT_osc_trips k) 0))
  else rptNow k .state s

/-- Whether R226 bars the requester from the registers of path k: another radio core (RC_c is core 8 + c). -/
def rptBarred (q : Rq) (k : Nat) (s : State) : Bool :=
  match q with
  | .core c _ => decide (8 ≤ c) && decide (c < 12) && decide (c ≠ 8 + s.get (RPT_PATH_CFG_ctl_core k))
  | _ => false

/-- A hook of path k under R226. -/
def rptOwned (q : Rq) (k : Nat) (f : State → State) (s : State) : State := if rptBarred q k s then s.ret .notOwner else f s

/-- A write of RPT_PATH_CMD. -/
def wrRptCmd (k : Nat) (w : Word) (s : State) : State :=
  match wf w (RPT_PATH_CMD_op k) with
  | 1 => rptArm k s
  | 2 => rptMute k s
  | 3 => rptOff k s
  | 4 => rptClear k s
  | _ => rptNow k .range s

/-! ## The tick (R204 to R208, R211) -/

/-- The canceller credit that may be applied (R208). -/
def creditTarget (k : Nat) (s : State) : Nat :=
  if s.on (RPT_PATH_ISO_conv k) && clusterActive k s then min 480 (s.get (RPT_PATH_ISO_credit k)) else 0

/-- The stable-gain reduction lim in 1/16 dB (R206). -/
def stableLim (k : Nat) (s : State) : Nat :=
  (gainDb (s.get (BND_PATH_GAIN_gain k)) + s.geti (RPT_PATH_LIM_rf_ofs k) + s.get (RPT_PATH_LIM_margin k)
    - s.get (RPT_PATH_APP_iso_app k) - s.get (RPT_PATH_APP_credit_app k)).toNat

/-- The sum of the reductions in 1/16 dB. -/
def redSum (p : RptP) : Nat := p.lim + p.nr + p.ld + p.cl

/-- The applied attenuation A in 1/16 dB (R205). -/
def attTotal (p : RptP) : Nat := cdiv p.r 60 + cdiv p.red 60

/-- iso_app and credit_app fall to lower targets; iso_app follows iso while OFF (R207, R208). -/
def appFall (k : Nat) (s : State) : State :=
  let iso := s.get (RPT_PATH_ISO_iso k)
  let s := if rptState k s = 0 ∨ iso < s.get (RPT_PATH_APP_iso_app k) then s.set (RPT_PATH_APP_iso_app k) iso else s
  s.set (RPT_PATH_APP_credit_app k) (min (s.get (RPT_PATH_APP_credit_app k)) (creditTarget k s))

/-- One tick of r: up in ARMING, down in MUTING, at once when a fast ramp-down is over (R211). -/
def rampR (t up dn : Nat) (ended : Bool) (p : RptP) : RptP :=
  if t = 1 then { p with r := p.r - up }
  else if t = 4 then
    if !p.fast then { p with r := min 57600 (p.r + dn) }
    else if ended then { p with fast := false, r := 57600 }
    else p
  else p

/-- One tick of the applied reduction: it follows a rise of the sum, and falls with a fall of it only so far that A, whose ramp falls
too in ARMING, falls by no more than up_rate (R205). -/
def rampRed (t up : Nat) (p : RptP) : RptP :=
  let taken := if t = 1 then min up p.r else 0
  { p with red := max (60 * redSum p) (p.red - (up - taken)) }

/-- The repeater factor after a tick in state t (R204, R211): 0 while OFF, MUTED or FAULT and once a ramp-down has ended; during a fast
ramp-down `a` stays the value that it started from (rptFactor). -/
def factorOf (t : Nat) (p : RptP) : Nat :=
  if t = 0 ∨ t = 5 ∨ t = 6 ∨ (t = 4 ∧ p.r = 57600) then 0 else if t = 4 ∧ p.fast then p.a else attFactor (attTotal p)

/-- The status that shows the reductions. -/
def rptShow (k : Nat) (s : State) : State :=
  let p := nth s.rpt k
  let s := (s.set (RPT_PATH_ATT_A_lim k) (min p.lim 1023)).set (RPT_PATH_ATT_A_nr k) (min p.nr 1023)
  let s := (s.set (RPT_PATH_ATT_B_cl k) (min p.cl 1023)).set (RPT_PATH_ATT_B_total k) (min (attTotal p) 1023)
  s.set (RPT_PATH_STAT_reds k)
    ((decide (0 < p.lim)).toNat + 2 * (decide (0 < p.nr)).toNat + 4 * (decide (0 < p.ld)).toNat + 8 * (decide (0 < p.cl)).toNat)

/-- 60 s in band-clock periods. -/
def minute : Nat := 58982400000

/-- One tick of path k. -/
def rptTick (k : Nat) (s : State) : State :=
  let s := appFall k s
  let lim := stableLim k s
  let up := s.get (RPT_PATH_RAMP_up_rate k)
  let t := rptState k s
  let s := updRpt k (fun p =>
    let p := rampRed t up { p with lim := lim, trips := p.trips.filter fun x => decide (s.now < x + minute) }
    let p := rampR t up (s.get (RPT_PATH_RAMP_dn_rate k)) (fastOver k s) p
    { p with a := factorOf t p }) s
  let s := s.set (RPT_PATH_STAT_osc_trips k) (min 15 (nth s.rpt k).trips.length)
  let s := if t = 2 ∨ t = 3 then setRpt k (if redSum (nth s.rpt k) = 0 then 2 else 3) s else s
  rptShow k s

/-- Whether the repeater block is held in a reset (R227). -/
def rptHeld (s : State) : Bool := blkHeld 18 s

/-- REPEATER_TICK (R205): on the band clock. -/
def repeaterTick (s : State) : State := if rptHeld s || !bandRuns s then s else forN 128 rptTick s

/-- ISO_APP_STEP (R207). -/
def isoAppStep (k : Nat) (s : State) : State :=
  if rptState k s ≠ 0 ∧ s.get (RPT_PATH_APP_iso_app k) < s.get (RPT_PATH_ISO_iso k) then
    s.set (RPT_PATH_APP_iso_app k) (s.get (RPT_PATH_APP_iso_app k) + 1)
  else s

/-- CREDIT_STEP (R208). -/
def creditStep (k : Nat) (s : State) : State :=
  if s.get (RPT_PATH_APP_credit_app k) < creditTarget k s then
    s.set (RPT_PATH_APP_credit_app k) (s.get (RPT_PATH_APP_credit_app k) + 1)
  else s

/-- ARMING_END (R209): r has reached 0. -/
def armingEnd (k : Nat) (s : State) : State :=
  if rptState k s = 1 ∧ (nth s.rpt k).r = 0 then setRpt k (if redSum (nth s.rpt k) = 0 then 2 else 3) s else s

/-- MUTING_END (R209): r has reached 60 dB. -/
def mutingEnd (k : Nat) (s : State) : State := if rptState k s = 4 ∧ (nth s.rpt k).r = 57600 then setRpt k 5 s else s

/-- AUTO_REARM (R209, R213). -/
def autoRearm (k : Nat) (s : State) : State :=
  if rptState k s = 5 ∧ s.get (RPT_PATH_STAT_causes k) = 0 ∧ !(nth s.rpt k).oscHold ∧
      (s.on (RPT_PATH_STAT_arm_pend k) ∨ autoAllowed k s) then armEnd k .done 0 (startArming k s)
  else s

/-! ## Oscillation detector (R215, R216) -/

/-- The trip's actions. -/
def oscTrip (k : Nat) (s : State) : State :=
  let s := causeOn k cOsc s
  let s := updRpt k (fun p => { p with trips := (s.now :: p.trips).filter fun x => decide (s.now < x + minute)
                                       oscHold := true, hist := [], resRun := 0, satRun := 0 }) s
  let s := (s.set (RPT_PATH_ISO_conv k) 0).set (RPT_PATH_STAT_osc_trips k) (min 15 (nth s.rpt k).trips.length)
  let s := (rptEvt 2 s).raise 4
  if s.get RPT_GRD_CTRL_osc_max ≤ (nth s.rpt k).trips.length then rptEvt 8 (setRpt k 6 (armEnd k .aborted 2 s)) else s

/-- Each level has fallen by no more than 0.5 dB (32 units of 1/64 dB) from the one before; newest first. -/
def noFall : List Int → Bool
  | a :: b :: t => decide (b - 32 ≤ a) && noFall (b :: t)
  | _ => true

/-- The growth criterion over n + 1 windows, newest first. -/
def growth (n rise : Nat) (h : List Int) : Bool :=
  decide (h.length = n + 1) && noFall h && decide (64 * (rise : Int) ≤ nth h 0 - nth h n) && decide (-2560 ≤ nth h 0)

/-- A window of path k is judged (R215): by its three mean powers and the samples saturated at the gain stage; one that holds a TDD gate
transition restarts the counts. -/
def oscJudge (k : Nat) (m : MtrWin) (s : State) : State :=
  if m.edge then updRpt k (fun p => { p with hist := [], resRun := 0, satRun := 0 }) s
  else
    let n := s.get (RPT_PATH_OSC_n k)
    let res := clusterActive k s && decide (64 * (s.get (RPT_PATH_OSC_res_lim k) : Int) < m.mRes.levels.1 - m.mIn.levels.1)
    let s := updRpt k (fun p => { p with
      hist := (m.mOut.levels.1 :: p.hist).take (n + 1)
      resRun := if res then p.resRun + 1 else 0
      satRun := if m.mOut.n < 16 * m.sat then p.satRun + 1 else 0 }) s
    let p := nth s.rpt k
    if growth n (s.get (RPT_PATH_OSC_rise k)) p.hist ∨ 2 ≤ p.resRun ∨ 2 ≤ p.satRun then oscTrip k s else s

/-- The detector watches path k: ARMING, ACTIVE, LIMITED and MUTING (R215). -/
def oscWatches (k : Nat) (s : State) : Bool := decide (1 ≤ rptState k s) && decide (rptState k s ≤ 4)

/-- OSC_WINDOW_END: the oldest finished window of 2^win output samples of path k. -/
def oscWindowEnd (k : Nat) (s : State) : State :=
  match (nth s.bnd k).oscs with
  | [] => s
  | m :: t =>
    let s := updBnd k (fun p => { p with oscs := t }) s
    if oscWatches k s then oscJudge k m s else s

/-- OSC_HOLD_EXPIRE (R212, R216). -/
def oscHoldExpire (k : Nat) (s : State) : State :=
  if (nth s.rpt k).oscHold then causeOff k cOsc (updRpt k (fun p => { p with oscHold := false }) s) else s

/-! ## Composite ceiling (R217 to R219) -/

/-- Port p sums band paths (R176). -/
def sumPort (p : Nat) (s : State) : Bool := s.on (BND_POUT_en p) && decide (s.get (BND_POUT_src p) = 2)

/-- The ceiling in force for the running window of port p: a lower one that was written in it waits for the next (R219). -/
def ceilInForce (p : Nat) (s : State) : Int :=
  match s.ceilRun.find? fun x => decide (x.1 = p) with
  | some x => max x.2 (s.geti RPT_CEIL_ceil)
  | none => s.geti RPT_CEIL_ceil

/-- The next window of port p takes the ceiling of the register. -/
def ceilNext (p : Nat) (s : State) : State := { s with ceilRun := s.ceilRun.filter fun x => decide (x.1 ≠ p) }

/-- A lower ceiling is written: the windows that run keep the one in force. -/
def ceilKeep (s : State) : State := { s with ceilRun := (List.range 1024).filterMap fun p => if sumPort p s then some (p, ceilInForce p s) else none }

/-- The mean of port p has stayed at least 1 dB below the ceiling over every window since the last step of cl (R218). -/
def ceilFar (p : Nat) (s : State) : Bool := !s.ceilNear.contains p

/-- A window of port p whose mean is not 1 dB below its ceiling. -/
def ceilMark (p : Nat) (e : Int) (s : State) : State := if -64 < e then { s with ceilNear := p :: s.ceilNear.filter (· ≠ p) } else s

/-- CEIL_WINDOW_END: a window of 1,024 band-clock periods of the port sum ends (R217). -/
def ceilWindowEnd (p : Nat) (s : State) : State :=
  let e := ceilMean p s - ceilInForce p s
  let s := ceilMark p e (ceilNext p s)
  if sumPort p s && decide (0 < e) && !rptHeld s then
    let s := (feeders p s).foldl (fun s k => updRpt k (fun x => { x with cl := x.cl + cdiv e.toNat 4 }) s) s
    (rptEvt 3 s).raise 4
  else s

/-- CL_DECAY_STEP (R218): 62.5 µs in which every window of the port has stayed at least 1 dB below the ceiling; the next 62.5 µs begin. -/
def clDecayStep (p : Nat) (s : State) : State :=
  let far := ceilFar p s
  let s := { s with ceilNear := s.ceilNear.filter (· ≠ p) }
  if sumPort p s && far && !rptHeld s then (feeders p s).foldl (fun s k => updRpt k (fun x => { x with cl := x.cl - 1 }) s) s else s

/-- CEIL_HOLD_EXPIRE (R218). -/
def ceilHoldExpire (k : Nat) (s : State) : State := if 0 < (nth s.rpt k).cl then causeOn k cCeil s else s

/-- A write of RPT_CEIL (R219, R438): above ceil_attic, or a rise while GRD_CTRL.lock = 1, it is refused. -/
def wrRptCeil (w : Word) (s : State) : State :=
  let new := sgn 16 (wf w RPT_CEIL_ceil)
  let old := s.geti RPT_CEIL_ceil
  if new = old then s.ret .done
  else if s.geti RPT_CEIL_ceil_attic < new ∨ (old < new ∧ s.on GRD_CTRL_lock) then s.ret .guard
  else plainWrite RPT_CEIL RPT_CEIL_fs w (if new < old then ceilKeep s else s)

/-! ## Noise rise (R220, R221) -/

/-- RPT_PATH_NRS follows the listener's floor for the path's donor group (R220, R249). -/
def nrsRefresh (k : Nat) (s : State) : State :=
  let g := s.get (RPT_PATH_CFG_donor k)
  (s.set (RPT_PATH_NRS_floor k) (s.get (LST_NF_floor g))).set (RPT_PATH_NRS_floor_valid k) (s.get (LST_NF_valid g))

/-- P_n - P_floor in 1/64 dB for the lowest OUT level in 1/64 dB (R220). -/
def noiseGap (k : Nat) (lmin : Int) (s : State) : Int :=
  lmin + 4 * (s.geti (RPT_PATH_NRC_fs_dbm k) - (s.get (RPT_PATH_NRC_cpl_loss k) : Nat) - s.geti (RPT_PATH_NRS_floor k))

/-- Whether the rise 10 log10(1 + 10^(d/640)) of a gap d exceeds l/16 dB (R220). -/
def riseAbove (d : Int) (l : Nat) : Bool := decide (pow10 l 160 < 2 ^ 60 + pow10 (clampI (-12800) 12800 d) 640)

/-- The rise in 1/16 dB, rounded down, to 4,095. -/
def riseFloor (d : Int) : Nat :=
  (List.range 12).foldr (fun i x => if riseAbove d (x + 2 ^ i) ∧ x + 2 ^ i ≤ 3200 then x + 2 ^ i else x) 0

/-- 2^nr_len, in meter windows. -/
def nrLen (k : Nat) (s : State) : Nat := 2 ^ s.get (RPT_PATH_NR_nr_len k)

/-- L_min: the lowest OUT mean level over the last 2^nr_len meter windows (R220), none before there have been so many. -/
def lMin (k : Nat) (s : State) : Option Int :=
  let l := (nth s.rpt k).levels.take (nrLen k s)
  if l.length < nrLen k s then none else l.head?.map fun x => l.foldl min x

/-- A meter window of path k has ended with an OUT mean level; with duplex = 1 it counts only if it lay within an open gate (R220). -/
def nrWindow (k : Nat) (level : Int) (open_ : Bool) (s : State) : State :=
  if s.on (RPT_PATH_CFG_duplex k) && !open_ then s
  else updRpt k (fun p => { p with levels := (level :: p.levels).take 256, nrRun := min 256 (p.nrRun + 1) }) s

/-- Evaluation runs (R220). -/
def nrActive (k : Nat) (s : State) : Bool :=
  let t := rptState k s
  s.on (RPT_PATH_CFG_nr_en k) && decide (t = 2 ∨ t = 3) && s.on (RPT_PATH_NRS_floor_valid k)

/-- The spacing of nr's steps has passed since the last one (R221). -/
def nrSpaced (k : Nat) (s : State) : Bool := decide (nrLen k s ≤ (nth s.rpt k).nrRun)

/-- NR_EVALUATE (R220, R221), at a meter window's end. The rounding of the reported rise is open: it is the value rounded down, or one
more. nr rises at most once per 2^nr_len windows. -/
def nrEvaluate (k : Nat) (s : State) : State :=
  let s := nrsRefresh k s
  match lMin k s with
  | none => s
  | some lmin =>
  if nrActive k s then
    let d := noiseGap k lmin s
    let limit := s.get (RPT_PATH_NR_limit k)
    let step := 16 * s.get (RPT_PATH_NR_nr_step k)
    let s := (s.set (RPT_PATH_NRS_rise k) (riseFloor d + s.freeVal 1)).freeNext
    let s := updRpt k (fun p => { p with low := decide (8 ≤ limit) && !riseAbove d (limit - 8) }) s
    if riseAbove d limit ∧ nrSpaced k s then
      let s := rptEvt 4 (updRpt k (fun p => { p with nrRun := 0 }) s)
      if 16 * s.get (RPT_PATH_NR_nr_max k) < (nth s.rpt k).nr + step then causeOn k cNoise s
      else updRpt k (fun p => { p with nr := p.nr + step }) s
    else s
  else s

/-- NR_RELAX (R221): the rise has stayed low for relax seconds; the steps down keep the same spacing. -/
def nrRelax (k : Nat) (s : State) : State :=
  if (nth s.rpt k).low ∧ nrActive k s ∧ nrSpaced k s then
    updRpt k (fun p => { p with nr := p.nr - 16 * s.get (RPT_PATH_NR_nr_step k), nrRun := 0 }) s
  else s

/-! ## Lost donor (R222) -/

/-- The flag of group g. -/
def donorFd (g : Nat) : Fd := ⟨RPT_DONOR_STAT, g, 1⟩

/-- A path follows the flag of group g. -/
def donorPath (g k : Nat) (s : State) : Bool :=
  s.on (RPT_PATH_CFG_donor_en k) && decide (s.get (RPT_PATH_CFG_donor k) = g)

/-- The flag of group g falls. -/
def donorFall (g : Nat) (s : State) : State :=
  let s := forN 128 (fun k s =>
    if donorPath g k s then updRpt k (fun p => { p with ld := 16 * s.get (RPT_PATH_LD_ld_red k), lost := true }) s else s)
    (s.set (donorFd g) 0)
  rptEvt 5 s

/-- The flag of group g rises. -/
def donorRise (g : Nat) (s : State) : State :=
  forN 128 (fun k s =>
    if donorPath g k s then causeOff k cDonor (updRpt k (fun p => { p with ld := 0, lost := false, gone := false }) s) else s)
    (s.set (donorFd g) 1)

/-- The flag of group g takes a value (R222, R244). -/
def donorSet (g : Nat) (v : Bool) (s : State) : State :=
  if rptHeld s then s
  else if v = s.on (donorFd g) then s else if v then donorRise g s else donorFall g s

/-- DONOR_HOLD_EXPIRE of path k (R222). -/
def donorHoldExpire (k : Nat) (s : State) : State :=
  if (nth s.rpt k).lost then causeOn k cDonor (updRpt k (fun p => { p with gone := true }) s) else s

/-! ## MUTE_N (R223, R224) -/

/-- MUTE_N_ASSERT. -/
def muteNAssert (s : State) : State :=
  if s.muteN then s
  else
    let s := { s with muteN := true, muteStuck := false }
    if rptHeld s then s
    else
      let s := (s.set RPT_MUTE_CTRL_asserted 1).addSat RPT_MUTE_CNT_asserts 1
      let s := forN 128 (fun k s => if s.on (RPT_PATH_CFG_mute_n_en k) then causeOn k cMuteN s else s) s
      s.flagLimited RPT_EVT_mute_n 326 (s.get RPT_MUTE_CTRL_ev_gap * msTicks)

/-- MUTE_N_DEASSERT. -/
def muteNDeassert (s : State) : State :=
  if s.muteN then
    let s := { s with muteN := false, muteStuck := false }
    if rptHeld s then s else forN 128 (fun k s => causeOff k cMuteN s) (s.set RPT_MUTE_CTRL_asserted 0)
  else s

/-- MUTE_N_GLITCH. -/
def muteNGlitch (s : State) : State := if rptHeld s then s else s.addSat RPT_MUTE_CNT_glitches 1

/-- MUTE_N_STUCK: once in an assertion. -/
def muteNStuckEv (s : State) : State :=
  if s.muteN && !s.muteStuck && !rptHeld s then rptEvt 7 ({ s with muteStuck := true }.addSat RPT_MUTE_CNT_stuck 1) else s

/-! ## Thermal shutdown (R212) -/

/-- The shutdown threshold becomes active or clears. -/
def rptTherm (on : Bool) (s : State) : State :=
  if rptHeld s then s else forN 128 (fun k s => if on then causeOn k cTherm s else causeOff k cTherm s) s

/-! ## Register hooks -/

/-- RPT_PATH_CFG: only while OFF (R226). A path given another donor starts with no donor lost. -/
def wrRptCfg (k : Nat) (w : Word) (s : State) : State :=
  if mergeWord RPT_PATH_CFG_fs (s.rd (RPT_PATH_CFG k)) w false = s.rd (RPT_PATH_CFG k) then s.ret .done
  else if rptState k s ≠ 0 then s.ret .state
  else
    let ch := s.chg w (RPT_PATH_CFG_donor k) || s.chg w (RPT_PATH_CFG_donor_en k)
    let s := s.store (RPT_PATH_CFG k) RPT_PATH_CFG_fs w
    let s := if ch then updRpt k (fun p => { p with ld := 0, lost := false, gone := false }) s else s
    (nrsRefresh k s).ret .done

/-- RPT_PATH_RAMP: up_rate 1 to 60, dn_rate 1 to 240. -/
def wrRptRamp (k : Nat) (w : Word) (s : State) : State :=
  let u := wf w (RPT_PATH_RAMP_up_rate k)
  let d := wf w (RPT_PATH_RAMP_dn_rate k)
  if u = 0 ∨ 60 < u ∨ d = 0 ∨ 240 < d then s.ret .range else plainWrite (RPT_PATH_RAMP k) RPT_PATH_RAMP_fs w s

/-- RPT_PATH_OSC: win 4 to 12, n 2 to 7, rise 3 to 30, res_lim 1 to 15. -/
def wrRptOsc (k : Nat) (w : Word) (s : State) : State :=
  let win := wf w (RPT_PATH_OSC_win k)
  let rise := wf w (RPT_PATH_OSC_rise k)
  if win < 4 ∨ 12 < win ∨ wf w (RPT_PATH_OSC_n k) < 2 ∨ rise < 3 ∨ 30 < rise ∨ wf w (RPT_PATH_OSC_res_lim k) = 0 then s.ret .range
  else plainWrite (RPT_PATH_OSC k) RPT_PATH_OSC_fs w s

/-- RPT_PATH_NR: limit not 0, nr_step 1 to 8, nr_max 1 to 60, nr_len 0 to 8, relax not 0. -/
def wrRptNr (k : Nat) (w : Word) (s : State) : State :=
  let st := wf w (RPT_PATH_NR_nr_step k)
  let mx := wf w (RPT_PATH_NR_nr_max k)
  if wf w (RPT_PATH_NR_limit k) = 0 ∨ st = 0 ∨ 8 < st ∨ mx = 0 ∨ 60 < mx ∨ 8 < wf w (RPT_PATH_NR_nr_len k) ∨
      wf w (RPT_PATH_NR_relax k) = 0 then s.ret .range
  else plainWrite (RPT_PATH_NR k) RPT_PATH_NR_fs w s

/-- RPT_PATH_LD: hold not 0, ld_red 0 to 60. -/
def wrRptLd (k : Nat) (w : Word) (s : State) : State :=
  if wf w (RPT_PATH_LD_hold k) = 0 ∨ 60 < wf w (RPT_PATH_LD_ld_red k) then s.ret .range
  else plainWrite (RPT_PATH_LD k) RPT_PATH_LD_fs w s

/-- RPT_MUTE_CTRL: stuck_s and ev_gap not 0. -/
def wrMuteCtrl (w : Word) (s : State) : State :=
  if wf w RPT_MUTE_CTRL_stuck_s = 0 ∨ wf w RPT_MUTE_CTRL_ev_gap = 0 then s.ret .range
  else plainWrite RPT_MUTE_CTRL RPT_MUTE_CTRL_fs w s

/-- RPT_GRD_CTRL: no field 0. -/
def wrGrdCtrl (w : Word) (s : State) : State :=
  if wf w RPT_GRD_CTRL_ceil_hold = 0 ∨ wf w RPT_GRD_CTRL_osc_max = 0 ∨ wf w RPT_GRD_CTRL_osc_hold = 0 then s.ret .range
  else plainWrite RPT_GRD_CTRL RPT_GRD_CTRL_fs w s

/-- The repeater's reset takes hold (R227): every path OFF, held commands end without a record (R555); ceil_attic keeps its
value, which ceil takes. -/
def resetRpt (s : State) : State :=
  let c := s.get RPT_CEIL_ceil_attic
  let s := { s.dropRange RPT_EVT (RPT_PATH_CFG 128) with rpt := List.replicate 128 {} }
  ({ s with ceilRun := [], ceilNear := [] }.set RPT_CEIL_ceil_attic c).set RPT_CEIL_ceil c

/-- The reset is released: MUTE_N, cause THERM and the donor flags show what the pin, the threshold and the listener hold; DONOR_CHG on a
change of a flag (R244). -/
def releaseRpt (s : State) : State :=
  let s := s.set RPT_MUTE_CTRL_asserted s.muteN.toNat
  let s := if s.on TH_STAT_shutdown ∨ s.own.ext then rptTherm true s else s
  forN 32 (fun i s =>
    let f := donorFd (s.get (LST_ALLOW_group i))
    if s.on (LST_ALLOW_en i) && s.on (LST_ALLOW_present i) && !s.on f then (s.set f 1).flag ⟨LST_EVT, 16, 1⟩ 400 else s) s

/-! ## Meanings -/

def execIsoAppStep (k : Fin 128) (s : State) : Out := .next (isoAppStep k s)
def execCreditStep (k : Fin 128) (s : State) : Out := .next (creditStep k s)

def execRptArm (q : Rq) (k : Fin 128) (s : State) : Out :=
  .next (gated q (RPT_PATH_CMD k) RPT_PATH_CMD_fs 1 (rptOwned q k (rptArm k)) s)

def execRptMute (q : Rq) (k : Fin 128) (s : State) : Out :=
  .next (gated q (RPT_PATH_CMD k) RPT_PATH_CMD_fs 2 (rptOwned q k (rptMute k)) s)

def execRptOff (q : Rq) (k : Fin 128) (s : State) : Out :=
  .next (gated q (RPT_PATH_CMD k) RPT_PATH_CMD_fs 3 (rptOwned q k (rptOff k)) s)

def execRptClear (q : Rq) (k : Fin 128) (s : State) : Out :=
  .next (gated q (RPT_PATH_CMD k) RPT_PATH_CMD_fs 4 (rptOwned q k (rptClear k)) s)

def execArmingEnd (k : Fin 128) (s : State) : Out := .next (armingEnd k s)
def execMutingEnd (k : Fin 128) (s : State) : Out := .next (mutingEnd k s)
def execAutoRearm (k : Fin 128) (s : State) : Out := .next (autoRearm k s)

def execOscWindowEnd (k : Fin 128) (s : State) : Out := .next (oscWindowEnd k s)

def execOscHoldExpire (k : Fin 128) (s : State) : Out := .next (oscHoldExpire k s)
def execCeilWindowEnd (p : Fin 1024) (s : State) : Out := .next (ceilWindowEnd p s)
def execClDecayStep (p : Fin 1024) (s : State) : Out := .next (clDecayStep p s)
def execCeilHoldExpire (k : Fin 128) (s : State) : Out := .next (ceilHoldExpire k s)
def execNrEvaluate (k : Fin 128) (s : State) : Out := .next (nrEvaluate k s)
def execNrRelax (k : Fin 128) (s : State) : Out := .next (nrRelax k s)
def execDonorHoldExpire (k : Fin 128) (s : State) : Out := .next (donorHoldExpire k s)
def execMuteNAssert (s : State) : Out := .next (muteNAssert s)
def execMuteNDeassert (s : State) : Out := .next (muteNDeassert s)
def execMuteNGlitch (s : State) : Out := .next (muteNGlitch s)
def execMuteNStuck (s : State) : Out := .next (muteNStuckEv s)

def execRptMuteCntRead (q : Rq) (s : State) : Out := .next (gatedRead q RPT_MUTE_CNT (clearRead RPT_MUTE_CNT) s)

def execRptCeilWrite (q : Rq) (w : Word) (s : State) : Out := .next (gated q RPT_CEIL RPT_CEIL_fs w (wrRptCeil w) s)

end Sys2Proof.Machine
end

