-- ==== Sys2Proof/Machine/Sync.lean ====
section
/-! DEFINITION. The synchronisation signals of the technologies that the cell listener supports (R230), and the correlations by which it
finds and confirms them (R233, R234). The sequences, the subcarriers and the symbol lengths are those of TS 36.211 and TS 38.211, which
R230 names (PRESUMED, log 171); E-UTRA (nr = false) at 1.92 MS/s with 128 samples in a symbol, NR at 3.84 or 7.68 MS/s with 256. -/

namespace Sys2Proof.Machine

/-! ## Sequences -/

/-- n bits of the sequence whose window is `x` and whose next bit is the sum of the bits at `taps`. -/
def lfsr (taps : List Nat) : Nat → List Nat → List Nat
  | 0, _ => []
  | n + 1, x => x.headD 0 :: lfsr taps n (x.drop 1 ++ [(taps.map fun t => x.getD t 0).sum % 2])

/-- The sequences of 31 bits of the E-UTRA SSS. -/
def seqS : List Nat := lfsr [0, 2] 31 [0, 0, 0, 0, 1]
def seqC : List Nat := lfsr [0, 3] 31 [0, 0, 0, 0, 1]
def seqZ : List Nat := lfsr [0, 1, 2, 4] 31 [0, 0, 0, 0, 1]

/-- The sequences of 127 bits of the NR PSS and SSS. -/
def seqP : List Nat := lfsr [0, 4] 127 [0, 1, 1, 0, 1, 1, 1]
def seqX0 : List Nat := lfsr [0, 4] 127 [1, 0, 0, 0, 0, 0, 0]
def seqX1 : List Nat := lfsr [0, 1] 127 [1, 0, 0, 0, 0, 0, 0]

/-- Samples of a symbol without its cyclic prefix, and the subcarriers of its synchronisation signals. -/
def symLen (nr : Bool) : Nat := if nr then 256 else 128
def syncCarriers (nr : Bool) : Nat := if nr then 127 else 62

/-- The place of the i-th of these subcarriers, from the middle of the band: E-UTRA leaves out the middle. -/
def carrierOf (nr : Bool) (i : Nat) : Int := if nr then (i : Int) - 64 else if i < 31 then (i : Int) - 31 else (i : Int) - 30

/-- The phase of a turn of a/b, in 2^-32. -/
def turns (a : Int) (b : Nat) : Nat := (a * 2 ^ 32 / (b : Int) % 2 ^ 32).toNat

/-- The phase of subcarrier i of the PSS with identity n2 (0 to 2). -/
def pssPhase (nr : Bool) (n2 i : Nat) : Nat :=
  if nr then seqP.getD ((i + 43 * n2) % 127) 0 * 2 ^ 31
  else turns (-([25, 29, 34].getD n2 0 * (if i < 31 then i * (i + 1) else (i + 1) * (i + 2)) : Nat)) 126

/-- The bit of subcarrier i of the SSS with identities n1 and n2, in subframe 0 or 5 of E-UTRA. -/
def sssBit (nr : Bool) (n1 n2 : Nat) (sf5 : Bool) (i : Nat) : Nat :=
  if nr then (seqX0.getD ((i + 15 * (n1 / 112) + 5 * n2) % 127) 0 + seqX1.getD ((i + n1 % 112) % 127) 0) % 2
  else
    let q' := n1 / 30
    let q := (n1 + q' * (q' + 1) / 2) / 30
    let m' := n1 + q * (q + 1) / 2
    let m0 := m' % 31
    let m1 := (m0 + m' / 31 + 1) % 31
    let a := if sf5 then m1 else m0
    let b := if sf5 then m0 else m1
    let n := i / 2
    if i % 2 = 0 then (seqS.getD ((n + a) % 31) 0 + seqC.getD ((n + n2) % 31) 0) % 2
    else (seqS.getD ((n + b) % 31) 0 + seqC.getD ((n + n2 + 3) % 31) 0 + seqZ.getD ((n + a % 8) % 31) 0) % 2

/-! ## Correlations -/

/-- Sample n of the PSS, without its cyclic prefix, in 2^-30. -/
def pssSample (nr : Bool) (n2 n : Nat) : Cx :=
  ((List.range (syncCarriers nr)).map fun i =>
    rotor 30 ((pssPhase nr n2 i + turns (carrierOf nr i * n) (symLen nr)) % 2 ^ 32)).foldl cxAdd (0, 0)

/-- The PSS, last sample first. -/
def pssReplica (nr : Bool) (n2 : Nat) : List Cx := (List.range (symLen nr)).map fun j => pssSample nr n2 (symLen nr - 1 - j)

/-- The correlation of the samples, newest first, with a replica that ends at the newest. -/
def corrAt (rep xs : List Cx) : Cx := ((rep.zip xs).map fun a => cxMul a.2 (cxConj a.1)).foldl cxAdd (0, 0)

/-- |c|² at the newest sample and at the n - 1 before it. -/
def corrPows (rep : List Cx) : Nat → List Cx → List Nat
  | 0, _ => []
  | _, [] => []
  | n + 1, x :: t => cxPow (corrAt rep (x :: t)) :: corrPows rep n t

/-- A peak of the correlator: the PSS identity, |c|², and the metric m in 1/16 dB against the mean of |c|² over the n samples before
(R233). -/
structure Peak where
  n2 : Nat
  pow : Nat
  m : Int
deriving DecidableEq, Repr, Inhabited

/-- The correlator with one sequence at the newest sample. -/
def peakOf (nr : Bool) (n2 n : Nat) (xs : List Cx) : Peak :=
  let rep := pssReplica nr n2
  let past := corrPows rep n (xs.drop 1)
  let a := cxPow (corrAt rep xs)
  ⟨n2, a, levelIn 16 (a * past.length) past.sum⟩

/-- Subcarrier k of a symbol's samples, first to last. -/
def dftAt (nr : Bool) (k : Int) (xs : List Cx) : Cx :=
  (xs.zipIdx.map fun x => cxMul x.1 (rotor 30 (turns (-(k * (x.2 : Int))) (symLen nr)))).foldl cxAdd (0, 0)

/-- The sum of subcarriers with the signs of an SSS. -/
def sssCorr (nr : Bool) (n1 n2 : Nat) (sf5 : Bool) (ys : List Cx) : Cx :=
  (ys.zipIdx.map fun y => if sssBit nr n1 n2 sf5 y.2 = 0 then y.1 else cxScale (-1) y.1).foldl cxAdd (0, 0)

/-- The hypotheses of an SSS: n1, and for E-UTRA the subframe. -/
def sssHyps (nr : Bool) : List (Nat × Bool) :=
  if nr then (List.range 336).map fun i => (i, false)
  else ((List.range 168).map fun i => (i, false)) ++ (List.range 168).map fun i => (i, true)

/-- An evaluation: the confirm metric in 1/16 dB, the identity of the best hypothesis, and its subframe (R234). -/
structure Eval where
  q : Int
  pci : Nat
  sf5 : Bool
deriving DecidableEq, Repr, Inhabited

/-- Every hypothesis tested on a symbol's samples, first to last; the first of the greatest is the best (R234). -/
def sssTest (nr : Bool) (n2 : Nat) (xs : List Cx) : Eval :=
  let ys := (List.range (syncCarriers nr)).map fun i => dftAt nr (carrierOf nr i) xs
  let ps := (sssHyps nr).map fun h => (h, cxPow (sssCorr nr h.1 n2 h.2 ys))
  let best := ps.foldl (fun b p => if b.2 < p.2 then p else b) (ps.headD default)
  let rest := (ps.map Prod.snd).sum - best.2
  ⟨levelIn 16 (best.2 * (ps.length - 1)) rest, 3 * best.1.1 + n2, best.1.2⟩

/-- Samples from the start of the PSS to the start of the SSS, prefixes left out (R234): before it by one symbol in E-UTRA frame type 1, by
three in type 2; two symbols after it in NR. -/
def sssOffset (nr tdd ecp : Bool) : Int :=
  if nr then 548 else if tdd then (if ecp then -480 else -412) else (if ecp then -160 else -137)

end Sys2Proof.Machine
end

