-- ==== Sys2Proof/Machine/Lst.lean ====
section
/-! DEFINITION. The cell listener (chapter 08): channels, receptions, donor presence, frame timing and noise floors, and the
meanings of the listener's commands and events. -/

namespace Sys2Proof.Machine

def updLst (ch : Nat) (f : LstCh → LstCh) (s : State) : State := { s with lst := upd s.lst ch f }

/-- Event flag `b` of LST_EVT, event 384 + b. -/
def lstEvt (b : Nat) (s : State) : State := s.flag ⟨LST_EVT, b, 1⟩ (384 + b)

/-- RX_DONE (0) and RX_ABORT (1) of a channel: at most once per 1 ms (R250). -/
def rxEvt (ch b : Nat) (s : State) : State := s.flagLimited ⟨LST_EVT, 8 * ch + b, 1⟩ (384 + 8 * ch + b) msTicks

/-- The channel's state: 0 OFF, 1 SEARCH, 2 RECEIVE. -/
def lstState (ch : Nat) (s : State) : Nat := s.get (LST_CH_STAT_state ch)

/-- Whether the listener is held in a reset (R251). -/
def lstHeld (s : State) : Bool := blkHeld 19 s

/-! ## Donor presence (R244) -/

/-- An entry of group g is present. -/
def groupPresent (g : Nat) (s : State) : Bool :=
  (List.range 32).any fun i => s.on (LST_ALLOW_en i) && s.on (LST_ALLOW_present i) && decide (s.get (LST_ALLOW_group i) = g)

/-- The flag of group g follows its entries; DONOR_CHG on a change. While the repeater is held in a reset its flags do not move. -/
def donorEval (g : Nat) (s : State) : State :=
  let v := groupPresent g s
  if rptHeld s ∨ v = s.on (donorFd g) then s else lstEvt 16 (donorSet g v s)

/-- Entry i names the cell of a reception. -/
def allowMatch (r : Seen) (i : Nat) (s : State) : Bool :=
  s.on (LST_ALLOW_en i) && decide (s.get (LST_ALLOW_pci i) = r.pci) && decide (s.get (LST_ALLOW_rat i) = r.rat) &&
    decide (s.get (LST_ALLOW_group i) = r.group)

/-- pres_age in nominal band-clock periods. -/
def presAge (s : State) : Nat := s.get LST_CTRL_pres_age * 10 * msTicks

/-- A reception of entry i's cell has ended DONE less than pres_age ago. -/
def allowSeen (i : Nat) (s : State) : Bool := s.seen.any fun r => allowMatch r i s && decide (s.now < r.t + presAge s)

/-- A reception of the cell has ended DONE on a channel: its entries are present. Receptions too old for any pres_age are dropped. -/
def presenceSeen (ch pci : Nat) (s : State) : State :=
  let r : Seen := ⟨min 1 (s.get (LST_CH_CTRL_rat ch)), pci, s.get (LST_CH_CTRL_group ch), s.now⟩
  let s := { s with seen := r :: s.seen.filter fun x => decide (s.now < x.t + 2550 * msTicks) }
  donorEval r.group (forN 32 (fun i s => if allowMatch r i s then s.set (LST_ALLOW_present i) 1 else s) s)

/-- PRESENCE_EXPIRE of entry i: pres_age has passed since the last reception of its cell that ended DONE. -/
def presenceExpire (i : Nat) (s : State) : State :=
  if s.on (LST_ALLOW_present i) then donorEval (s.get (LST_ALLOW_group i)) (s.set (LST_ALLOW_present i) 0) else s

/-- A write of LST_ALLOW_i: an E-UTRA cell above 503 ends ERR_RANGE; the entry is present if its cell has been received of late. -/
def wrAllow (i : Nat) (w : Word) (s : State) : State :=
  if wf w (LST_ALLOW_rat i) = 0 ∧ 503 < wf w (LST_ALLOW_pci i) then s.ret .range
  else
    let old := s.get (LST_ALLOW_group i)
    let ch := s.chg w (LST_ALLOW_pci i) || s.chg w (LST_ALLOW_rat i) || s.chg w (LST_ALLOW_group i) || s.chg w (LST_ALLOW_en i)
    let s := s.store (LST_ALLOW i) LST_ALLOW_fs w
    let s := if ch then s.set (LST_ALLOW_present i) (allowSeen i s).toNat else s
    (donorEval (s.get (LST_ALLOW_group i)) (donorEval old s)).ret .done

/-! ## The channel's samples (R229, R231, R232) -/

/-- The rate code of a channel's listening rate: 1.92 MS/s is 122.88 MS/s / 2^6. -/
def listenRate (ch : Nat) (s : State) : Nat :=
  match s.get (LST_CH_CTRL_rat ch) with
  | 0 => 6
  | 1 => 5
  | _ => 4

/-- The decimation factor from the port's rate. -/
def lstDecim (ch : Nat) (s : State) : Nat := 2 ^ (listenRate ch s - s.get (BND_PIN_rate (s.get (LST_CH_SRC_port ch))))

/-- The AGC's factor for a gain in 1/16 dB, in 2^-16, rounded down (log 155). -/
def agcFactor (gain : Nat) : Nat := iroot 320 (2 ^ 5120 * 10 ^ gain) 25

/-- Scaled samples in 2 ms. -/
def histLen (ch : Nat) (s : State) : Nat := 245760 / 2 ^ listenRate ch s

/-- A sample of its port with port timestamp t reaches channel ch: it is mixed by the NCO, and every decimation factor-th one gives a sample
of the listening rate, scaled by the AGC's gain. The decimator's filter is open (Config.decimFilter, log 155). -/
def lstSample (ch : Nat) (t : Int) (w : Nat) (s : State) : State :=
  let c := nth s.lst ch
  let m := cxWord (roundCx (cxMul (cplx w) (rotor 30 c.phase)) (2 ^ 30)).1
  let mixed := (m :: c.mixed).take 64
  let d := lstDecim ch s
  let fw := (s.rd (LST_CH_NCO ch)).toNat
  let s := updLst ch (fun c => { c with phase := (c.phase + fw) % 2 ^ 32, mixed := mixed, taken := (c.taken + 1) % d }) s
  if (c.taken + 1) % d ≠ 0 then s
  else
    let y := if d = 1 then m else Config.decimFilter d mixed
    let g := s.get (LST_CH_STAT_gain ch)
    let z := cxWord (roundCx (cxScale (agcFactor g) (cplx y)) 65536).1
    updLst ch (fun c => { c with
      hist := ((z, g) :: c.hist).take (histLen ch s), cnt := c.cnt + 1, stamp := t, win := c.win.add z }) s

/-- The history as a reception reads it, newest first, with every gain step removed: each sample as at the port, in 2^-63. -/
def historyFlat (ch : Nat) (s : State) : List Cx := (nth s.lst ch).hist.map fun x => cxScale (divEven (2 ^ 64) (agcFactor x.2)) (cplx x.1)

/-- P_w of the window so far in 1/16 dBFS, none without a sample. -/
def windowPower (ch : Nat) (s : State) : Option Int :=
  let m := (nth s.lst ch).win
  if m.n = 0 then none else some (levelIn 16 m.sum (m.n * 2 ^ 30))

/-! ## Frame timing (R245, R246) -/

/-- 10 ms in band-clock periods. -/
def frameTicks : Nat := 9830400

/-- The distance from the frame boundary to the sync time of an E-UTRA reception in band-clock periods (32 for each sample
period of 30.72 MHz): 13,312 for frame type 1, and for type 2 in the third symbol of subframe 1 or 6; five subframes more with
the sync in the second half. -/
def eutraOffset (tdd ecp sf5 : Bool) : Nat :=
  32 * ((if tdd then (if ecp then 36352 else 35264) else 13312) + if sf5 then 153600 else 0)

/-- The measured boundary T_m for a sync time. -/
def measured (ch time : Nat) (sf5 : Bool) (s : State) : Int :=
  if s.get (LST_CH_CTRL_rat ch) = 0 then
    (time : Int) - eutraOffset (s.on (LST_CH_CTRL_tdd ch)) (s.on (LST_CH_CTRL_ecp ch)) sf5
  else (time : Int) + s.geti (LST_FRAME_OFS_ofs ch)

/-- T_m against the tracked boundary projected to its nearest frame: the signed distance. -/
def frameError (tp : Nat) (tm : Int) : Int :=
  let d := (tm - tp) % (frameTicks : Int)
  if 2 * d ≤ frameTicks then d else d - frameTicks

/-- The tracked boundary takes a value. -/
def putTrack (ch : Nat) (t : Int) (s : State) : State :=
  let n := (t % (2 ^ 64 : Nat)).toNat
  let s := updLst ch (fun c => { c with track := some n }) s
  (s.wr (LST_FRAME_L ch) (BitVec.ofNat 32 n)).wr (LST_FRAME_H ch) (BitVec.ofNat 32 (n / 2 ^ 32))

/-- The pattern in force moves with the tracked boundary (R247). -/
def tddShift (ch : Nat) (d : Int) (s : State) : State := updLst ch (fun c => { c with tddAt := c.tddAt + d }) s

/-- A DONE reception of the timing cell (R245, R246). -/
def trackSeen (ch time : Nat) (sf5 : Bool) (s : State) : State :=
  let tm := measured ch time sf5 s
  let s := s.set (LST_CH_STAT_tim_stale ch) 0
  let fresh := (nth s.lst ch).fresh
  let s := updLst ch (fun c => { c with fresh := false }) s
  match (nth s.lst ch).track with
  | none => lstEvt (8 * ch + 4) (putTrack ch tm s)
  | some tp =>
    let d := frameError tp tm
    if !fresh && decide (d.natAbs ≤ s.get (LST_CH_THR_tim_tol ch)) then putTrack ch (tm - d + d.sign) (tddShift ch d.sign s)
    else lstEvt (8 * ch + 4) (putTrack ch tm (tddShift ch d s))

/-- The latest frame boundary at or before the time t, from the tracked boundary f. -/
def boundaryAt (f : Nat) (t : Int) : Int := t - (t - f) % (frameTicks : Int)

/-- Hardware projects the tracked boundary forward by 10 ms once band time has reached the next one (R245, R246). -/
def trackTick (s : State) : State :=
  forN 2 (fun ch s =>
    match (nth s.lst ch).track with
    | some t => if t + frameTicks ≤ s.bandTime then putTrack ch (boundaryAt t s.bandTime) s else s
    | none => s) s

/-- TIMING_STALE (R246). -/
def timingStale (ch : Nat) (s : State) : State :=
  if s.on (LST_CH_CTRL_tim_en ch) ∧ !s.on (LST_CH_STAT_tim_stale ch) then
    lstEvt (8 * ch + 5) (s.set (LST_CH_STAT_tim_stale ch) 1)
  else s

/-! ## Receptions (R233 to R241) -/

/-- A reception starts; `pend` asks for the AGC to freeze at the next window boundary. -/
def rxStart (ch : Nat) (r : Rxn) (pend : Bool) (s : State) : State :=
  let s := updLst ch (fun c => { c with rx := some { r with first := false, frames := [] },
                                        freezePend := c.freezePend || pend }) s
  s.set (LST_CH_STAT_state ch) 2

/-- The channel holds no candidate. -/
def dropCand (ch : Nat) (s : State) : State := (updLst ch (fun c => { c with cand := none }) s).set (LST_CH_STAT_cand ch) 0

/-- A reception's outcome stands in LST_RX_STAT with its event (R236, R250). -/
def rxRecord (ch : Nat) (c : Code) (reason : Nat) (s : State) : State :=
  let s := (s.set (LST_RX_STAT_outcome ch) c.n).set (LST_RX_STAT_reason ch) reason
  if c = .done then rxEvt ch 0 s else rxEvt ch 1 s

/-- A reception ends and the channel enters state t: the AGC unfreezes (R232, R236). A candidate stays held (R238). -/
def rxEnd (ch : Nat) (c : Code) (reason t : Nat) (s : State) : State :=
  let s := updLst ch (fun x => { x with rx := none, freezePend := false }) (rxRecord ch c reason s)
  (s.set (LST_CH_STAT_state ch) t).set (LST_CH_STAT_frozen ch) 0

/-- A false reception (R240): a held candidate is received next. -/
def rxFalse (ch : Nat) (s : State) : State :=
  let s := s.addSat (LST_CH_CNT_falses ch) 1
  match (nth s.lst ch).cand with
  | some r => (rxStart ch r true (dropCand ch (rxEnd ch .aborted 2 1 s))).addSat (LST_CH_CNT_supersedes ch) 1
  | none => rxEnd ch .aborted 2 1 s

/-- The NR payload of a reception (R237). -/
def nrStore (ch : Nat) (re : List Word) (s : State) : State :=
  if s.on (LST_NRBUF_CTRL_full ch) then s.addSat (LST_NRBUF_CTRL_drops ch) 1
  else lstEvt (8 * ch + 2) ((forN 720 (fun j s => s.wr (LST_NRBUF ch j) (nth re j)) s).set (LST_NRBUF_CTRL_full ch) 1)

/-- A reception ends DONE (R236, R237, R244, R245). -/
def rxDone (ch : Nat) (re : List Word) (s : State) : State :=
  let pci := s.get (LST_RX_CELL_pci ch)
  let sf5 := s.on (LST_RX_CELL_sf5 ch)
  let time := match (nth s.lst ch).rx with | some r => r.time | none => 0
  let nr := decide (s.get (LST_CH_CTRL_rat ch) ≠ 0)
  let mib := !nr && decide ((nth s.lst ch).mibCell = some pci)
  let s := s.set (LST_RX_STAT_mib_valid ch) mib.toNat
  let s := if nr then nrStore ch re s else s
  let s := presenceSeen ch pci s
  let s := if s.on (LST_CH_CTRL_tim_en ch) ∧ s.get (LST_CH_CTRL_tim_pci ch) = pci then trackSeen ch time sf5 s else s
  rxEnd ch .done 0 1 s

/-- The channel listens for NR. -/
def lstNr (ch : Nat) (s : State) : Bool := decide (s.get (LST_CH_CTRL_rat ch) ≠ 0)

/-- Band-clock periods of one sample at the listening rate. -/
def listenPeriod (ch : Nat) (s : State) : Nat := 8 * 2 ^ listenRate ch s

/-- What a correlator finds at the newest sample (R233): a PSS sequence whose metric, against the mean of the 1 ms before, is at least
det_thr. Of the three in one sample the greatest metric counts, the lower identity first (DESIGN CHOICE, log 171). -/
def pssPeak (ch : Nat) (s : State) : Option Peak :=
  if (nth s.lst ch).hist.isEmpty then none
  else
    let ps := (List.range 3).map fun n2 => peakOf (lstNr ch s) n2 (histLen ch s / 2) (historyFlat ch s)
    let b := ps.foldl (fun b p => if b.m < p.m then p else b) (ps.headD default)
    if b.m < s.get (LST_CH_THR_det_thr ch) then none else some b

/-- The sync time of a PSS that ends at the newest sample: the port timestamp of its first one, which the spec has resolved to one band-clock
period; where it lies within a sample period of the listening rate is free (log 171). -/
def syncTime (ch : Nat) (s : State) : Nat :=
  let per := listenPeriod ch s
  (((nth s.lst ch).stamp - (symLen (lstNr ch s) - 1 : Nat) * (per : Int) - (per / 2 : Nat) + (s.freeVal 12 % per : Nat)) % 2 ^ 64).toNat

/-- The reception of a peak at the newest sample. -/
def peakRx (ch : Nat) (p : Peak) (s : State) : Rxn :=
  { pow := p.pow, m := p.m.toNat, time := syncTime ch s, n2 := p.n2, start := (nth s.lst ch).cnt - symLen (lstNr ch s) }

/-- SYNC_DETECT (R233): the first peak at or above det_thr. -/
def syncDetect (ch : Nat) (s : State) : State :=
  if lstState ch s = 1 then
    match pssPeak ch s with
    | some p => (rxStart ch (peakRx ch p s) true s).freeNext
    | none => s
  else s

/-- The samples of a symbol whose first one, after the cyclic prefix, has number b since START: first to last, none before all have come
or once the history no longer holds them. -/
def symbolAt (ch : Nat) (b : Int) (s : State) : Option (List Cx) :=
  let n := symLen (lstNr ch s)
  let e := (nth s.lst ch).cnt - (b + (n : Int))
  let xs := ((historyFlat ch s).drop e.toNat).take n
  if 0 ≤ b ∧ 0 ≤ e ∧ xs.length = n then some xs.reverse else none

/-- The evaluation of a reception on the SSS of the radio frame that lies j frames after its sync (R234, R235). -/
def sssOf (ch j : Nat) (r : Rxn) (s : State) : Option Eval :=
  let nr := lstNr ch s
  (symbolAt ch (r.start + (19200 * j : Nat) + sssOffset nr (s.on (LST_CH_CTRL_tdd ch)) (s.on (LST_CH_CTRL_ecp ch))) s).map
    (sssTest nr r.n2)

/-- The PSS component's power of a reception in 1/16 dBFS at the port (R234). -/
def pssLevel (ch : Nat) (r : Rxn) (s : State) : Int :=
  let nr := lstNr ch s
  levelIn 16 r.pow (2 ^ 186 * symLen nr ^ 2 * syncCarriers nr)

/-- The resource elements of SSB symbols 1 to 3 of an NR reception, 240 subcarriers each, at the AGC's scale (R237); the scale of the
transform is not stated (Config.nrScale, log 171). A symbol that has not come whole gives zeros. -/
def nrElements (ch : Nat) (r : Rxn) (s : State) : List Word :=
  let g := Config.nrScale * agcFactor (s.get (LST_CH_STAT_gain ch))
  (List.range 3).flatMap fun l =>
    let xs := (symbolAt ch (r.start + (274 * (l + 1) : Nat)) s).getD []
    (List.range 240).map fun (k : Nat) => BitVec.ofNat 32 (cxWord (roundCx (cxScale g (dftAt true ((k : Int) - 120) xs)) (2 ^ 110)).1)

/-- Whether the reception of a cell goes on to the PBCH (R235). -/
def wantsPbch (ch pci : Nat) (s : State) : Bool :=
  decide (s.get (LST_CH_CTRL_rat ch) = 0) && s.on (LST_CH_CTRL_pbch_en ch) && decide ((nth s.lst ch).mibCell ≠ some pci)

/-- The report of a confirmed cell (R234). The power is referred to the port, so that the gain is taken off already. -/
def cellReport (ch : Nat) (r : Rxn) (e : Eval) (s : State) : State :=
  let s := (s.set (LST_RX_CELL_pci ch) e.pci).set (LST_RX_CELL_sf5 ch) e.sf5.toNat
  let s := s.wr (LST_RX_TIME_L ch) (BitVec.ofNat 32 r.time)
  let s := updLst ch (fun c => { c with timeH := BitVec.ofNat 32 (r.time / 2 ^ 32), rx := some { r with first := true } }) s
  (s.seti (LST_RX_PWR_p_sync ch) (satI 16 (pssLevel ch r s + s.geti (LST_CH_CAL_fs_dbm ch)))).set (LST_RX_PWR_m ch) (min r.m 65535)

/-- A first evaluation has confirmed the cell or not (R234, R236, R240). -/
def sssJudge (ch : Nat) (r : Rxn) (e : Eval) (s : State) : State :=
  let s := s.seti (LST_RX_CELL_q ch) (satI 16 e.q)
  if e.q < s.get (LST_CH_THR_cfm_thr ch) then rxFalse ch s
  else if r.first then s
  else
    let s := cellReport ch r e s
    if wantsPbch ch e.pci s then s.set (LST_RX_STAT_mib_valid ch) 0
    else rxDone ch (if lstNr ch s then nrElements ch r s else []) s

/-- SSS_EVALUATE: an evaluation of the reception in progress, whose SSS samples have come. -/
def sssEvaluate (ch : Nat) (s : State) : State :=
  match (nth s.lst ch).rx with
  | none => s
  | some r =>
    match sssOf ch 0 r s with
    | none => s
    | some e => sssJudge ch r e s

/-- The result of decoding the frames that a reception has collected (R235). -/
def pbchResult (ch : Nat) (frames : List (List Int)) (s : State) : Option (Nat × Nat × Nat) :=
  pbchMatch (s.on (LST_CH_CTRL_ecp ch)) (s.get (LST_RX_CELL_pci ch)) frames

/-- The radio frames that lie between a reception's sync and the newest sample. -/
def framesSince (ch : Nat) (r : Rxn) (s : State) : Nat := ((nth s.lst ch).cnt - r.start) / 19200

/-- A radio frame's soft bits join those collected; the frames are decoded together (R235, R236). -/
def pbchJudge (ch : Nat) (r : Rxn) (soft : List Int) (s : State) : State :=
  let frames := soft :: r.frames
  match pbchResult ch frames s with
  | some (b, ports, fofs) =>
    let s := ((s.set (LST_MIB_mib ch) b).set (LST_MIB_ports ch) ports).set (LST_MIB_fofs ch) fofs
    rxDone ch [] (updLst ch (fun c => { c with mibCell := some (s.get (LST_RX_CELL_pci ch)) }) s)
  | none =>
    if 4 ≤ frames.length then rxEnd ch .timeout 0 1 (s.set (LST_RX_STAT_mib_valid ch) 0)
    else updLst ch (fun c => { c with rx := some { r with frames := frames } }) s

/-- PBCH_DECODE: a radio frame after the sync: the confirm metric of its SSS, and its soft PBCH bits (R235, R236, R240), whose
demodulation the spec does not state (log 155). -/
def pbchDecode (ch : Nat) (soft : List Int) (s : State) : State :=
  match (nth s.lst ch).rx with
  | none => s
  | some r =>
    if !r.first then s
    else
      match sssOf ch (framesSince ch r s) r s with
      | none => s
      | some e =>
        let s := s.seti (LST_RX_CELL_q ch) (satI 16 e.q)
        if e.q < s.get (LST_CH_THR_cfm_thr ch) then rxFalse ch s else pbchJudge ch r soft s

/-- A time lies within 4 samples of a PSS position of the reception: its sync, and for E-UTRA every 5 ms from it (R238). -/
def ownPss (ch : Nat) (r : Rxn) (time : Nat) (s : State) : Bool :=
  let d : Int := (time : Int) - r.time
  let tol := 4 * listenPeriod ch s
  if s.get (LST_CH_CTRL_rat ch) = 0 then
    let m := (d % 4915200).toNat
    decide (m ≤ tol) || decide (4915200 - m ≤ tol)
  else decide (d.natAbs ≤ tol)

/-- A peak is at least 6 dB stronger than the reception's: 10 log10 (a / b) ≥ 6 (R238). -/
def strongerPeak (a b : Nat) : Bool := decide (b ^ 5 * 1000 ≤ a ^ 5)

/-- What the watch correlator does with a peak; `fals`: an evaluation of the same sample period has failed (R238, R239, R241). -/
def watchJudge (ch : Nat) (r : Rxn) (p : Option Peak) (fals : Bool) (s : State) : State :=
  match p with
  | some p =>
    let new := peakRx ch p s
    if ownPss ch r new.time s then (if fals then rxFalse ch s else s)
    else if strongerPeak p.pow r.pow && s.on (LST_CH_CTRL_cap_en ch) then
      let s := if fals then s.addSat (LST_CH_CNT_falses ch) 1 else s
      let s := rxRecord ch .aborted (if fals then 2 else 1) (s.addSat (LST_CH_CNT_captures ch) 1)
      (rxStart ch new false s).freeNext
    else
      let s := if strongerPeak p.pow r.pow then s.addSat (LST_CH_CNT_cap_ign ch) 1
        else ((updLst ch (fun c => { c with cand := some new }) s).set (LST_CH_STAT_cand ch) 1).freeNext
      if fals then rxFalse ch s else s
  | none => if fals then rxFalse ch s else s

/-- WATCH_PEAK (R238, R239, R241): the watch correlator at the newest sample; `eval`: an SSS evaluation is complete in the same sample
period. -/
def watchPeak (ch : Nat) (eval : Bool) (s : State) : State :=
  match (nth s.lst ch).rx with
  | none => s
  | some r =>
    let q := if eval then (sssOf ch (framesSince ch r s) r s).map Eval.q else none
    let s := match q with | some x => s.seti (LST_RX_CELL_q ch) (satI 16 x) | none => s
    watchJudge ch r (pssPeak ch s) (q.any fun x => decide (x < (s.get (LST_CH_THR_cfm_thr ch) : Int))) s

/-- CANDIDATE_EXPIRE (R238). -/
def candidateExpire (ch : Nat) (s : State) : State := dropCand ch s

/-- AGC_WINDOW_END (R231, R232): the gain of the next window from the mean power of this one's scaled samples; a window without a sample
leaves it. -/
def agcWindowEnd (ch : Nat) (s : State) : State :=
  if lstState ch s = 0 then s
  else
    let pw := windowPower ch s
    let s := updLst ch (fun c => { c with win := {} }) s
    if (nth s.lst ch).freezePend then
      (updLst ch (fun c => { c with freezePend := false }) s).set (LST_CH_STAT_frozen ch) 1
    else if s.on (LST_CH_STAT_frozen ch) then s
    else match pw with
      | some p =>
        let g := (s.get (LST_CH_STAT_gain ch) : Int) - 16 * s.get (LST_CH_THR_agc_tgt ch) - p
        s.set (LST_CH_STAT_gain ch) (clampI 0 768 g).toNat
      | none => s

/-! ## Commands (R242, R243) -/

/-- A command's outcome. -/
def lstNow (ch : Nat) (c : Code) (s : State) : State := (lstEvt (8 * ch + 3) (s.set (LST_CH_STAT_outcome ch) c.n)).ret c

/-- The source of R229: an enabled port entry of at least the listening rate. -/
def sourceOk (ch : Nat) (s : State) : Bool :=
  let p := s.get (LST_CH_SRC_port ch)
  s.on (BND_PIN_en p) && decide (s.get (BND_PIN_rate p) ≤ (if s.get (LST_CH_CTRL_rat ch) = 2 then 4 else 5))

/-- START. -/
def lstStart (ch : Nat) (s : State) : State :=
  if lstState ch s ≠ 0 then lstNow ch .state s
  else if sourceOk ch s then
    let s := updLst ch (fun c => { c with rx := none, cand := none, freezePend := false, fresh := true, phase := 0, taken := 0,
                                           mixed := [], hist := [], cnt := 0, win := {} }) s
    let s := ((s.set (LST_CH_STAT_state ch) 1).set (LST_CH_STAT_gain ch) 384).set (LST_CH_STAT_frozen ch) 0
    lstNow ch .done (s.set (LST_CH_STAT_off_reason ch) 0)
  else lstNow ch .range s

/-- The channel goes OFF; a reception ends ABORTED with a reason. -/
def lstToOff (ch reason : Nat) (s : State) : State :=
  dropCand ch (if lstState ch s = 2 then rxEnd ch .aborted reason 0 s else s.set (LST_CH_STAT_state ch) 0)

/-- STOP. -/
def lstStop (ch : Nat) (s : State) : State := lstNow ch .done (lstToOff ch 3 s)

/-- RESTART. -/
def lstRestart (ch : Nat) (s : State) : State :=
  match lstState ch s with
  | 0 => lstNow ch .state s
  | 2 => lstNow ch .done (dropCand ch (rxEnd ch .aborted 4 1 s))
  | _ => lstNow ch .done s

/-- A write of LST_CH_CMD. -/
def wrLstCmd (ch : Nat) (w : Word) (s : State) : State :=
  match wf w (LST_CH_CMD_op ch) with
  | 1 => lstStart ch s
  | 2 => lstStop ch s
  | 3 => lstRestart ch s
  | _ => lstNow ch .range s

/-- A port entry is disabled: a channel that reads it goes OFF (R243). -/
def lstPortOff (p : Nat) (s : State) : State :=
  forN 2 (fun ch s =>
    if lstState ch s ≠ 0 ∧ s.get (LST_CH_SRC_port ch) = p then (lstToOff ch 5 s).set (LST_CH_STAT_off_reason ch) 1 else s) s

/-! ## TDD pattern (R247) -/

/-- Entry i of a pattern. -/
def tddEntry (a b : Word) (i : Nat) : Nat := if i < 16 then fieldOf a (2 * i) 2 else fieldOf b (2 * (i - 16)) 2

/-- A pattern that completes with ERR_RANGE. -/
def tddBad (ch : Nat) (w : Word) (s : State) : Bool :=
  let n := wf w (LST_TDD_B_n_slots ch)
  let sym := if s.on (LST_CH_CTRL_ecp ch) then 12 else 14
  decide (n = 0) || decide (20 < n) ||
    ((List.range n).any fun i => decide (tddEntry (s.rd (LST_TDD_A ch)) w i = 3)) ||
    (decide (wf w (LST_TDD_B_slot_len ch) = 1) && decide (s.get (LST_CH_CTRL_rat ch) = 0)) ||
    decide (sym < wf w (LST_TDD_B_dl_sym ch) + wf w (LST_TDD_B_gp_sym ch))

/-- A write of LST_TDD_B. -/
def wrTddB (ch : Nat) (w : Word) (s : State) : State :=
  if wf w (LST_TDD_B_valid ch) = 1 ∧ tddBad ch w s then s.ret .range
  else
    let s := s.store (LST_TDD_B ch) LST_TDD_B_fs w
    (updLst ch (fun c => { c with tddPend := some (s.rd (LST_TDD_A ch), s.rd (LST_TDD_B ch)) }) s).ret .done

/-- A pattern takes effect, as it was accepted, at a frame boundary, from which it repeats. -/
def tddPut (ch : Nat) (p : Word × Word) (t : Int) (s : State) : State :=
  updLst ch (fun c => { c with tddPend := none, tddA := p.1, tddB := p.2, tddAt := t }) s

/-- TDD_PATTERN_ACTIVATE: band time stands at the next tracked frame boundary. -/
def tddActivate (ch : Nat) (s : State) : State :=
  match (nth s.lst ch).tddPend, (nth s.lst ch).track with
  | some p, some f => if boundaryAt f s.bandTime = s.bandTime then tddPut ch p s.bandTime s else s
  | _, _ => s

/-- The state as the pattern stands at a later time t: an accepted pattern takes effect at the next boundary after now. -/
def patAt (ch : Nat) (t : Int) (s : State) : State :=
  match (nth s.lst ch).tddPend, (nth s.lst ch).track with
  | some p, some f =>
    let b := boundaryAt f s.bandTime + frameTicks
    if b ≤ t then tddPut ch p b s else s
  | _, _ => s

/-! ## The pattern in force (R247, R261) -/

/-- Symbols of a slot, slots of the pattern and band-clock periods of a slot on channel ch. -/
def chSyms (ch : Nat) (s : State) : Nat := if s.on (LST_CH_CTRL_ecp ch) then 12 else 14
def chTddB (ch : Nat) (s : State) : Word := (nth s.lst ch).tddB
def chSlots (ch : Nat) (s : State) : Nat := wf (chTddB ch s) (LST_TDD_B_n_slots 0)
def chSlotTicks (ch : Nat) (s : State) : Nat := if wf (chTddB ch s) (LST_TDD_B_slot_len 0) = 1 then 491520 else 983040

/-- Direction of symbol i from the boundary: 0 downlink, 1 uplink, none guard. -/
def chDir (ch i : Nat) (s : State) : Option Nat :=
  let b := chTddB ch s
  let dl := wf b (LST_TDD_B_dl_sym 0)
  let k := i % chSyms ch s
  match tddEntry (nth s.lst ch).tddA b (i / chSyms ch s % chSlots ch s) with
  | 0 => some 0
  | 1 => some 1
  | _ => if k < dl then some 0 else if k < dl + wf b (LST_TDD_B_gp_sym 0) then none else some 1

/-- Time of symbol i from the boundary. -/
def chSymTime (ch i : Nat) (s : State) : Nat :=
  let p := chSlotTicks ch s
  i / chSyms ch s * p + i % chSyms ch s * p / chSyms ch s

/-- The place of the time t in the pattern, which repeats from the boundary at which it took effect (R247). -/
def chPos (ch : Nat) (t : Int) (s : State) : Nat :=
  ((t - (nth s.lst ch).tddAt) % ((chSlots ch s * chSlotTicks ch s : Nat) : Int)).toNat

/-- The symbol in which the time x from the boundary lies. -/
def chSymAt (ch x : Nat) (s : State) : Nat :=
  let p := chSlotTicks ch s
  let n := chSyms ch s
  x / p * n + (((List.range n).filter fun k => decide (k * p / n ≤ x % p)).length - 1)

/-- The band time t lies in a guard symbol of channel ch's pattern (R248). -/
def inGuard (ch t : Nat) (s : State) : Bool :=
  (nth s.lst ch).track.isSome && decide (chSlots ch s ≠ 0) && (chDir ch (chSymAt ch (chPos ch t s) s) s).isNone

/-! ## Noise floors (R248, R249) -/

/-- RPT_PATH_NRS of every path of a group follows its floor. -/
def nrsGroup (g : Nat) (s : State) : State :=
  forN 128 (fun k s => if s.get (RPT_PATH_CFG_donor k) = g then nrsRefresh k s else s) s

/-- Whether the band of group g is quiet at band time t (R248). -/
def bandQuiet (g t : Nat) (s : State) : Bool :=
  let idle := (List.range 2).all fun ch => decide (lstState ch s ≠ 2) || decide (s.get (LST_CH_CTRL_group ch) ≠ g)
  idle &&
    if s.on (LST_NF_CFG_mode g) then
      let tch := s.get (LST_NF_CFG_tch g)
      bit (nth s.lst tch).tddB 24 && !s.on (LST_CH_STAT_tim_stale tch) && inGuard tch t s
    else (List.range 64).all fun i => decide (s.get (RPT_PATH_CFG_donor (64 + i)) ≠ g) || decide (rptFactor (64 + i) s.bclk s = 0)

/-- The enabled group that the meter serves after group g, in ascending order. -/
def nfNext (g : Nat) (s : State) : Nat :=
  (((List.range 16).map fun i => (g + 1 + i) % 16).find? fun x => s.on (LST_NF_CFG_en x)).getD g

/-- The samples that a floor of group g is made of. -/
def nfLen (g : Nat) (s : State) : Nat := 2 ^ (10 + s.get (LST_NF_CFG_nf_len g))

/-- A sample counts for group g; with 2^(10 + nf_len) of them its sum is full and a new one starts (R249). -/
def nfCount (g w : Nat) (s : State) : State :=
  let m := (nth s.nf g).add w
  if nfLen g s ≤ m.n then { s with nf := upd s.nf g fun _ => {}, nfDone := upd s.nfDone g fun l => l ++ [m] }
  else { s with nf := upd s.nf g fun _ => m }

/-- A sample of input port p at band time t reaches the noise meter (R248): it counts for the group that the meter serves, if that
group's job measures the port and its band is quiet. When the meter goes on to the next group is open (log 155). -/
def nfSample (p t w : Nat) (s : State) : State :=
  if lstHeld s ∨ !(List.range 16).any fun g => s.on (LST_NF_CFG_en g) then s
  else
    let g := if s.on (LST_NF_CFG_en s.nfTurn) then s.nfTurn else nfNext s.nfTurn s
    let s := if s.get (LST_NF_CFG_port g) = p && bandQuiet g t s then nfCount g w s else s
    { s with nfTurn := if s.freeVal 1 = 1 then nfNext g s else g }.freeNext

/-- NF_PUBLISH: the oldest full sum of group g is published (R249). -/
def nfPublish (g : Nat) (s : State) : State :=
  match nth s.nfDone g with
  | [] => s
  | m :: t =>
    if s.on (LST_NF_CFG_en g) && !lstHeld s then
      let s := { s with nfDone := upd s.nfDone g fun _ => t }
      let s := s.seti (LST_NF_floor g) (satI 16 (levelIn 16 m.sum (m.n * 2 ^ 30) + s.geti (LST_NF_CFG2_fs_dbm g)))
      lstEvt 17 (nrsGroup g ((s.set (LST_NF_valid g) 1).incMod (LST_NF_pubs g)))
    else s

/-- The floor of group g becomes invalid. -/
def nfInvalid (g : Nat) (s : State) : State := nrsGroup g (s.set (LST_NF_valid g) 0)

/-- NF_EXPIRE. -/
def nfExpire (g : Nat) (s : State) : State :=
  if s.on (LST_NF_valid g) ∧ s.get LST_CTRL_nf_age ≠ 0 then lstEvt 17 (nfInvalid g s) else s

/-- A write of LST_NF_CFG_g: nf_len 0 to 10; a job that is disabled has no floor. -/
def wrNfCfg (g : Nat) (w : Word) (s : State) : State :=
  if 10 < wf w (LST_NF_CFG_nf_len g) then s.ret .range
  else
    let s := s.store (LST_NF_CFG g) LST_NF_CFG_fs w
    (if s.on (LST_NF_CFG_en g) then s else nfInvalid g { s with nfDone := upd s.nfDone g fun _ => [] }).ret .done

/-! ## Other register hooks -/

/-- Every enabled entry's presence follows the receptions and the present pres_age (R244). -/
def presenceEval (s : State) : State :=
  forN 16 donorEval (forN 32 (fun i s => if s.on (LST_ALLOW_en i) then s.set (LST_ALLOW_present i) (allowSeen i s).toNat else s) s)

/-- LST_CTRL: pres_age not 0; a new one decides anew which entries are present. -/
def wrLstCtrl (w : Word) (s : State) : State :=
  if wf w LST_CTRL_pres_age = 0 then s.ret .range
  else
    let ch := s.chg w LST_CTRL_pres_age
    let s := s.store LST_CTRL LST_CTRL_fs w
    (if ch then presenceEval s else s).ret .done

/-- A register that is writable only while the channel is OFF (R242). -/
def wrLstOff (ch a : Nat) (fs : List (Nat × Nat × Acc)) (w : Word) (s : State) : State :=
  if mergeWord fs (s.rd a) w false = s.rd a then s.ret .done
  else if lstState ch s ≠ 0 then s.ret .state
  else plainWrite a fs w s

/-- LST_CH_CTRL: rat 3 ends ERR_RANGE. -/
def wrLstChCtrl (ch : Nat) (w : Word) (s : State) : State :=
  if wf w (LST_CH_CTRL_rat ch) = 3 then s.ret .range else wrLstOff ch (LST_CH_CTRL ch) LST_CH_CTRL_fs w s

/-- LST_CH_THR: agc_tgt 3 to 30. -/
def wrLstThr (ch : Nat) (w : Word) (s : State) : State :=
  let t := wf w (LST_CH_THR_agc_tgt ch)
  if t < 3 ∨ 30 < t then s.ret .range else plainWrite (LST_CH_THR ch) LST_CH_THR_fs w s

/-- LST_CH_CAL: tim_age not 0. -/
def wrLstCal (ch : Nat) (w : Word) (s : State) : State :=
  if wf w (LST_CH_CAL_tim_age ch) = 0 then s.ret .range else plainWrite (LST_CH_CAL ch) LST_CH_CAL_fs w s

/-- LST_NRBUF_CTRL: rel clears full (R237). -/
def wrNrbuf (ch : Nat) (w : Word) (s : State) : State :=
  (if wf w (LST_NRBUF_CTRL_rel ch) = 1 then s.set (LST_NRBUF_CTRL_full ch) 0 else s).ret .done

/-- A read of LST_RX_TIME_L latches the high word. -/
def rdRxTimeL (ch : Nat) (s : State) : State := (plainRead (LST_RX_TIME_L ch) s).wr (LST_RX_TIME_H ch) (nth s.lst ch).timeH

/-- The listener's reset takes hold (R251): channels OFF, no donor flag, no floor; receptions end without a record (R555). -/
def resetLst (s : State) : State :=
  let s := { s.dropRange LST_EVT (LST_CH_CTRL 2) with
    lst := List.replicate 2 {}, seen := [], nfTurn := 0, nf := List.replicate 16 {}, nfDone := List.replicate 16 [] }
  forN 128 nrsRefresh (forN 16 (fun g s => donorSet g false s) s)

/-! ## Meanings -/

def execLstStart (q : Rq) (ch : Fin 2) (s : State) : Out := .next (gated q (LST_CH_CMD ch) LST_CH_CMD_fs 1 (lstStart ch) s)
def execLstStop (q : Rq) (ch : Fin 2) (s : State) : Out := .next (gated q (LST_CH_CMD ch) LST_CH_CMD_fs 2 (lstStop ch) s)
def execLstRestart (q : Rq) (ch : Fin 2) (s : State) : Out := .next (gated q (LST_CH_CMD ch) LST_CH_CMD_fs 3 (lstRestart ch) s)
def execAgcWindowEnd (ch : Fin 2) (s : State) : Out := .next (agcWindowEnd ch s)

def execSyncDetect (ch : Fin 2) (s : State) : Out := .next (syncDetect ch s)
def execSssEvaluate (ch : Fin 2) (s : State) : Out := .next (sssEvaluate ch s)
def execPbchDecode (ch : Fin 2) (soft : List Int) (s : State) : Out := .next (pbchDecode ch soft s)
def execWatchPeak (ch : Fin 2) (eval : Bool) (s : State) : Out := .next (watchPeak ch eval s)
def execCandidateExpire (ch : Fin 2) (s : State) : Out := .next (candidateExpire ch s)

def execNrbufRelease (q : Rq) (ch : Fin 2) (s : State) : Out :=
  .next (gated q (LST_NRBUF_CTRL ch) LST_NRBUF_CTRL_fs 2 (wrNrbuf ch 2) s)

def execPresenceExpire (r : Fin 32) (s : State) : Out := .next (presenceExpire r s)
def execTimingStale (ch : Fin 2) (s : State) : Out := .next (timingStale ch s)

def execTddPatternWrite (q : Rq) (ch : Fin 2) (w : Word) (s : State) : Out :=
  let w := force w (LST_TDD_B_valid ch) 1
  .next (gated q (LST_TDD_B ch) LST_TDD_B_fs w (wrTddB ch w) s)

def execTddPatternActivate (ch : Fin 2) (s : State) : Out := .next (tddActivate ch s)
def execNfPublish (g : Fin 16) (s : State) : Out := .next (nfPublish g s)
def execNfExpire (g : Fin 16) (s : State) : Out := .next (nfExpire g s)

def execLstChCntRead (q : Rq) (ch : Fin 2) (s : State) : Out :=
  .next (gatedRead q (LST_CH_CNT ch) (clearRead (LST_CH_CNT ch)) s)

def execLstRxTimeLRead (q : Rq) (ch : Fin 2) (s : State) : Out := .next (gatedRead q (LST_RX_TIME_L ch) (rdRxTimeL ch) s)

end Sys2Proof.Machine
end

