-- ==== Sys2Proof/Machine/Band.lean ====
section
/-! DEFINITION. The band engine (chapter 06): the port table, band paths, admission, filters, the canceller,
restarts and measurement, and the meanings of the band engine's commands and events. -/

namespace Sys2Proof.Machine

/-- Event flag `b` of BND_EVT, event 288 + b. -/
def bndEvt (b : Nat) (s : State) : State := s.flag ⟨BND_EVT, b, 1⟩ (288 + b)

/-! ## Gain and NCO (R179, R183) -/

/-- The gain that path k applies now, in 2^-24: the ramp of R183 over 256 output samples. -/
def gainExact (k : Nat) (s : State) : Int :=
  let p := nth s.bnd k
  256 * p.gFrom + ((p.gTo : Int) - p.gFrom) * (min 256 ((s.bclk - p.gAt) / outPeriod k s) : Nat)

/-- The gain that path k applies now, in 2^-16. -/
def gainNow (k : Nat) (s : State) : Int := divEven (gainExact k s) 256

/-- The ceiling of the gain stage of a direction: 16 × the working ceiling (R439). -/
def gainBound (d : Nat) (s : State) : Nat := 16 * s.get (GRD_GAIN_work d)

/-- The factor that the gain stage multiplies by now, in 2^-40: the product of gain and repeater factor (R183, R211), at most the bound of
the working ceiling (R439). -/
def gainStage (k : Nat) (s : State) : Int := clampI 0 (2 ^ 24 * gainBound (pathDir k) s : Nat) (gainExact k s * rptFactor k s.bclk s)

/-- The sequencer in CAL whose tone replaces the output of path k (R264). -/
def calTone (k : Nat) (s : State) : Option Nat :=
  (List.range 4).find? fun n => decide (s.get (FEN_SEQ_STAT_state n) = 3) && decide (s.get (FEN_SEQ_CAL_cal_tx n) = k)

/-- The phase of the tone that sequencer n makes with the NCO of path k now: it advances from the phase of the latest input sample by
cal_fw for each input sample of cal_rx (R264, R265). -/
def calPhase (n k : Nat) (s : State) : Nat :=
  let p := nth s.bnd k
  (p.nco + s.get (FEN_SEQ_CALFW_cal_fw n) * (s.bclk - p.ncoAt) / (8 * 2 ^ rateIn (s.get (FEN_SEQ_CAL_cal_rx n)) s)) % 2 ^ 32

/-- The NCO at the next input sample of path k: it takes phase0, or its phase advances by the frequency word (R179, R190). In CAL it makes
the tone of calPhase, and its accumulator stands. -/
def ncoSample (k : Nat) (again : Bool) (s : State) : State :=
  let p := nth s.bnd k
  if (calTone k s).isSome then s
  else
    let v := if again && s.on (BND_PATH_CFG_nco_sync k) then 65536 * s.get (BND_PATH_PH0_phase0 k)
      else (p.nco + s.get (BND_PATH_NCO_fw k)) % 2 ^ 32
    updBnd k (fun p => { p with nco := v, ncoAt := s.bclk }) s

/-- The gain ramps from its present value to `g` (R183). -/
def gainRamp (k g : Nat) (s : State) : State :=
  let v := (gainNow k s).toNat
  updBnd k (fun p => { p with gFrom := v, gTo := g, gAt := s.bclk }) s

/-- The gain register has a new value: while the path is RELEASING, its gain goes on to 0 (R199). -/
def gainFollow (k g : Nat) (s : State) : State := if admState k s = 3 then s else gainRamp k g s

/-! ## Path delay (R189) -/

/-- The rate code of the higher rate of halfband stage i. -/
def rateHi (rin i : Nat) (interp : Bool) : Nat := if interp then rin - (i + 1) else rin + i

/-- The delay in band-clock periods. -/
def pathDelay (rin hb : Nat) (interp : Bool) (dcf : Nat) : Nat :=
  480 + dcf * 8 * 2 ^ rin + ((List.range hb).map fun i => 15 * 8 * 2 ^ rateHi rin i interp).sum

/-- The lowest index below `n` at which the magnitude of a coefficient is largest (R181). -/
def peakIndex (h : List Nat) (n : Nat) : Nat :=
  (List.range n).foldl (fun b j => if (sgn 18 (h.getD b 0)).natAbs < (sgn 18 (h.getD j 0)).natAbs then j else b) 0

/-- d_cf of the active bank (R189). -/
def activeDcf (k : Nat) (s : State) : Nat :=
  let p := nth s.bnd k
  if p.actMode = 1 then peakIndex p.act p.actN else (p.actN - 1) / 2

/-- BND_PATH_DELAY shows the delay of the active bank. -/
def delayShow (k : Nat) (s : State) : State :=
  let v := pathDelay (rateIn k s) (s.get (BND_PATH_CFG_hb k)) (s.on (BND_PATH_CFG_hb_dir k)) (activeDcf k s)
  s.set (BND_PATH_DELAY_delay k) (min v 65535)

/-! ## Admission (R196 to R200) -/

/-- The load of path k in units (R196). -/
def pathLoad (k : Nat) (s : State) : Nat := 32 / 2 ^ min (rateIn k s) ((rateOut k s).getD 5)

def pathClass (k : Nat) (s : State) : Nat := s.get (BND_PATH_CFG_class k)

/-- The paths of a direction. -/
def dirPaths (d : Nat) : List Nat := (List.range 64).map fun i => 64 * d + i

/-- The load that paths of the direction hold, of one class or of all. -/
def heldLoad (d : Nat) (c : Option Nat) (s : State) : Nat :=
  (((dirPaths d).filter fun k => decide (2 ≤ admState k s) && c.all fun c => decide (pathClass k s = c)).map
    fun k => pathLoad k s).sum

/-- Floor of a class in units (R197). -/
def floorOf (d c : Nat) (s : State) : Nat := 4 * fieldOf (s.rd (BND_ADM_RES d)) (8 * c) 8

/-- Classes other than c. -/
def otherClasses (c : Nat) : List Nat := (List.range 4).filter fun x => decide (x ≠ c)

/-- A request that can never fit (R197). -/
def neverFits (d c l : Nat) (s : State) : Bool := decide (512 < l + ((otherClasses c).map fun x => floorOf d x s).sum)

/-- The capacity C of a direction (R196). -/
def capacity (d : Nat) (s : State) : Nat :=
  if s.on TH_STAT_throttle then (if d = 0 then s.get BND_ADM_THR_thr_dl else s.get BND_ADM_THR_thr_ul) else 512

/-- A request that fits now (R197). -/
def fitsNow (d c l : Nat) (s : State) : Bool :=
  let held := heldLoad d none s
  if s.on TH_STAT_throttle then decide (held + l ≤ capacity d s)
  else decide (held + l + ((otherClasses c).map fun x => floorOf d x s - heldLoad d (some x) s).sum ≤ 512)

/-- Path j ranks above path k (R198). -/
def ranksAbove (j k : Nat) (s : State) : Bool :=
  decide (pathClass j s < pathClass k s) || (decide (pathClass j s = pathClass k s) && decide ((nth s.bnd j).req < (nth s.bnd k).req))

/-- The QUEUED paths of a direction. -/
def queuedPaths (d : Nat) (s : State) : List Nat := (dirPaths d).filter fun k => decide (admState k s = 1)

/-- The highest-ranked QUEUED path. -/
def firstQueued (d : Nat) (s : State) : Option Nat :=
  (queuedPaths d s).foldl (fun b k => match b with | none => some k | some j => if ranksAbove k j s then some k else some j) none

/-- BND_ADM_STAT_d. -/
def admShow (d : Nat) (s : State) : State :=
  let s := (s.set (BND_ADM_STAT_held d) (heldLoad d none s)).set (BND_ADM_STAT_queued d) (queuedPaths d s).length
  s.set (BND_ADM_STAT_throttled d) (s.get TH_STAT_throttle)

/-- A final code of an admission command (R199). -/
def admEnd (k : Nat) (c : Code) (reason : Nat) (s : State) : State :=
  bndEvt 3 ((s.set (BND_PATH_STAT_outcome k) c.n).set (BND_PATH_STAT_reason k) reason)

/-- The command ends at once. -/
def admNow (k : Nat) (c : Code) (s : State) : State := (admEnd k c 0 s).ret c

/-- A running fade stops with the old bank active: the commit ends ABORTED, reason RELEASE, with its completion event (R14, R188). -/
def fadeStop (k : Nat) (s : State) : State :=
  if s.on (BND_PATH_CF_fading k) then
    let s := (s.set (BND_PATH_CF_fading k) 0).set (BND_PATH_CF_outcome k) Code.aborted.n
    bndEvt 5 (updBnd k (fun p => { p with fadeWhy := 1 }) (s.set (BND_PATH_DELAY_changing k) 0))
  else s

/-- The path is ADMITTED (R199); a readmission clears cause ADM (R212). -/
def pathAdmit (k : Nat) (s : State) : State :=
  let s := { s with admSeq := s.admSeq + 1 }
  let g := s.get (BND_PATH_GAIN_gain k)
  let s := updBnd k (fun p => { p with adm := s.admSeq, admWait := false, gFrom := g, gTo := g, gAt := s.bclk, fly := [], fadeAt := s.bclk }) s
  let s := (s.set (BND_PATH_STAT_state k) 2).set (BND_PATH_STAT_load k) (pathLoad k s)
  admEnd k .done 0 (causeOff k cAdm s)

/-- The queue pass of a direction, for at most `fuel` admissions (R198). -/
def queuePassN (d : Nat) : Nat → State → State
  | 0, s => s
  | fuel + 1, s =>
    match firstQueued d s with
    | some k => if fitsNow d (pathClass k s) (pathLoad k s) s then queuePassN d fuel (pathAdmit k s) else s
    | none => s

/-- QUEUE_PASS. -/
def queuePass (d : Nat) (s : State) : State := admShow d (queuePassN d 64 s)

/-- The path begins to release (R199, R200). -/
def pathReleasing (k : Nat) (evicted : Bool) (s : State) : State :=
  let s := (s.set (BND_PATH_STAT_state k) 3).set (BND_PATH_STAT_evicted k) evicted.toNat
  let s := gainRamp k 0 (fadeStop k s)
  if evicted then rptEvict k s else rptLeft k 3 s

/-- The ADMITTED path that is evicted first (R200). -/
def evictNext (d : Nat) (s : State) : Option Nat :=
  ((dirPaths d).filter fun k => decide (admState k s = 2)).foldl (fun b k =>
    match b with
    | none => some k
    | some j =>
      if pathClass j s < pathClass k s ∨ (pathClass j s = pathClass k s ∧ (nth s.bnd j).adm < (nth s.bnd k).adm) then some k
      else some j) none

/-- Evictions until the admitted load is within C (R200). -/
def evictN (d : Nat) : Nat → State → State
  | 0, s => s
  | fuel + 1, s =>
    let adm := ((dirPaths d).filter fun k => decide (admState k s = 2)).map fun k => pathLoad k s
    if capacity d s < adm.sum then
      match evictNext d s with
      | some k => evictN d fuel (pathReleasing k true s)
      | none => s
    else s

/-- C has changed: evictions, then a queue pass. -/
def capacityChange (d : Nat) (s : State) : State := queuePass d (evictN d 64 s)

/-- The thermal throttle threshold becomes active or clears (R196). -/
def bandThrottle (s : State) : State := capacityChange 1 (capacityChange 0 s)

/-- The configuration passes R178. -/
def cfgOk (k : Nat) (s : State) : Bool :=
  match rateOut k s with
  | some f =>
    let i := s.get (BND_PATH_CFG_in_port k)
    let o := outPort k s
    decide (s.get (BND_PIN_rate i) = rateIn k s) && decide (s.get (BND_POUT_src o) = 2) && decide (s.get (BND_POUT_rate o) = f)
  | none => false

/-- ADMIT (R199). -/
def admitNow (k : Nat) (s : State) : State :=
  let d := pathDir k
  if admState k s ≠ 0 then admNow k .state s
  else if !cfgOk k s then admNow k .range s
  else if neverFits d (pathClass k s) (pathLoad k s) s then admNow k .capacity s
  else
    let s := { s with admSeq := s.admSeq + 1 }
    let s := updBnd k (fun p => { p with req := s.admSeq }) s
    let waits := (queuedPaths d s).any fun j => ranksAbove j k s
    if fitsNow d (pathClass k s) (pathLoad k s) s && !waits then (admShow d (pathAdmit k s)).ret .done
    else
      let s := (s.set (BND_PATH_STAT_state k) 1).set (BND_PATH_STAT_load k) (pathLoad k s)
      let s := updBnd k (fun p => { p with admWait := true }) s
      let s := (s.set (BND_PATH_STAT_outcome k) Code.queued.n).set (BND_PATH_STAT_reason k) 0
      (admShow d s).ret .queued

/-- The path is IDLE. -/
def pathIdle (k : Nat) (s : State) : State :=
  updBnd k (fun p => { p with admWait := false }) ((s.set (BND_PATH_STAT_state k) 0).set (BND_PATH_STAT_load k) 0)

/-- RELEASE (R199): of a QUEUED path, the ADMIT ends ABORTED unless it had ended before an eviction. -/
def release (k : Nat) (s : State) : State :=
  match admState k s with
  | 1 =>
    let waits := (nth s.bnd k).admWait
    let s := pathIdle k s
    let s := if waits then admEnd k .aborted 1 s else s
    admShow (pathDir k) (admNow k .done (rptLeft k 3 s))
  | 2 =>
    let s := (s.set (BND_PATH_STAT_outcome k) Code.held.n).set (BND_PATH_STAT_reason k) 0
    (admShow (pathDir k) (pathReleasing k false s)).ret .held
  | _ => admNow k .state s

/-- A write of BND_PATH_CMD. -/
def wrPathCmd (k : Nat) (w : Word) (s : State) : State :=
  match wf w (BND_PATH_CMD_op k) with
  | 1 => admitNow k s
  | 2 => release k s
  | _ => admNow k .range s

/-- RELEASE_RAMP_END (R199). -/
def releaseRampEnd (k : Nat) (s : State) : State :=
  if admState k s = 3 then
    let s := if s.on (BND_PATH_STAT_evicted k) then bndEvt 4 (s.set (BND_PATH_STAT_state k) 1)
      else admEnd k .done 0 (pathIdle k s)
    queuePass (pathDir k) s
  else s

/-- Floors that sum above 512 units (R197). -/
def floorsBad (w : Word) : Bool := decide (128 < fieldOf w 0 8 + fieldOf w 8 8 + fieldOf w 16 8 + fieldOf w 24 8)

/-- A write of BND_ADM_RES_d (R197 to R199). -/
def wrAdmRes (d : Nat) (w : Word) (s : State) : State :=
  if floorsBad w then s.ret .range
  else
    let s := s.store (BND_ADM_RES d) BND_ADM_RES_fs w
    let s := (queuedPaths d s).foldl (fun s k =>
      if neverFits d (pathClass k s) (pathLoad k s) s then admEnd k .capacity 0 (pathIdle k s) else s) s
    (queuePass d s).ret .done

/-- A write of BND_ADM_THR (R196, R200). -/
def wrAdmThr (w : Word) (s : State) : State :=
  let a := wf w BND_ADM_THR_thr_dl
  let b := wf w BND_ADM_THR_thr_ul
  if a < 32 ∨ 512 < a ∨ b < 32 ∨ 512 < b then s.ret .range
  else
    let s := s.store BND_ADM_THR BND_ADM_THR_fs w
    (capacityChange 1 (capacityChange 0 s)).ret .done

/-! ## Ports (R175 to R177) -/

/-- Paths that are not IDLE name the port. -/
def pathNames (out : Bool) (p : Nat) (s : State) : Bool :=
  (List.range 128).any fun k =>
    decide (admState k s ≠ 0) && decide ((if out then outPort k s else s.get (BND_PATH_CFG_in_port k)) = p)

/-- The enabled output entries with src = 1 that name input port p. -/
def carriedBy (p : Nat) (s : State) : List Nat :=
  (s.regs.filter fun e =>
    decide (BND_POUT 0 ≤ e.1) && decide (e.1 < BND_POUT 1024) && decide (e.1 % 8 = 0) && bit e.2 0 &&
      decide (fieldOf e.2 22 2 = 1) && decide (s.get (BND_POUT2_src_port ((e.1 - BND_POUT 0) / 8)) = p)).map
    fun e => (e.1 - BND_POUT 0) / 8

/-- An enabled output entry with src = 1 names input port p. -/
def carriageNames (p : Nat) (s : State) : Bool := !(carriedBy p s).isEmpty

/-- The entry may not be disabled (R177). -/
def portNamed (out : Bool) (p : Nat) (s : State) : Bool := pathNames out p s || (!out && carriageNames p s)

/-- The check of a write that enables an entry (R175, R176). The equal rates of R176 are judged when either of the two entries is
enabled (log 151). -/
def portSourceOk (out : Bool) (p : Nat) (w : Word) (s : State) : Bool :=
  let rate := wf w (BND_PIN_rate p)
  let lane := wf w (BND_PIN_lane p)
  let idx := wf w (BND_PIN_idx p)
  let fmt := wf w (BND_PIN_fmt p)
  let c := if out then s.rd (FRM_TCTR lane idx) else s.rd (FRM_RCTR lane idx)
  let cfg := if out then jesdTx lane s else jesdRx lane s
  (match wf w (BND_PIN_kind p) with
    | 1 => bit c 0 && decide (fieldOf c 1 3 = rate) && decide (fieldOf c 4 2 = fmt)
    | 2 => ((if out then linkTx lane s else linkOf lane s).any fun x => decide (x.1 = lane)) && decide (idx < cfg.m / 2) &&
        decide (rate = cfg.rate) && decide (fmt = 0)
    | _ => false) &&
  (if out then decide (wf w (BND_POUT_src p) ≠ 1) || decide (s.get (BND_PIN_rate (s.get (BND_POUT2_src_port p))) = rate)
    else (carriedBy p s).all fun o => decide (s.get (BND_POUT_rate o) = rate))

/-- A write of BND_PIN_p or BND_POUT_p (R175, R177, R243). -/
def wrPort (out : Bool) (p : Nat) (w : Word) (s : State) : State :=
  let a := if out then BND_POUT p else BND_PIN p
  let fs := if out then BND_POUT_fs else BND_PIN_fs
  let old := s.rd a
  let new := mergeWord fs old w false
  if wf w (BND_PIN_kind p) = 3 ∨ 5 < wf w (BND_PIN_rate p) ∨ (out ∧ wf w (BND_POUT_src p) = 3) then s.ret .range
  else if bit old 0 && decide (new.toNat / 2 ≠ old.toNat / 2) then s.ret .state
  else if bit old 0 && !bit w 0 && portNamed out p s then s.ret .state
  else if !bit old 0 && bit w 0 && !portSourceOk out p w s then s.ret .range
  else
    let s := s.store a fs w
    (if bit old 0 && !bit w 0 && !out then lstPortOff p s else s).ret .done

/-- A write of an entry's second word: only while disabled (R175). -/
def wrPort2 (out : Bool) (p : Nat) (w : Word) (s : State) : State :=
  let a := if out then BND_POUT2 p else BND_PIN2 p
  let fs := if out then BND_POUT2_fs else BND_PIN2_fs
  if mergeWord fs (s.rd a) w false = s.rd a then s.ret .done
  else if bit (s.rd (if out then BND_POUT p else BND_PIN p)) 0 then s.ret .state
  else plainWrite a fs w s

/-! ## Path registers -/

/-- A register that is writable only while the path is IDLE (R178). -/
def wrPathIdle (k a : Nat) (fs : List (Nat × Nat × Acc)) (w : Word) (s : State) : State :=
  if mergeWord fs (s.rd a) w false = s.rd a then s.ret .done
  else if admState k s ≠ 0 then s.ret .state
  else (delayShow k (s.store a fs w)).ret .done

/-- A write of BND_PATH_GAIN (R183). -/
def wrPathGain (k : Nat) (w : Word) (s : State) : State :=
  let g := wf w (BND_PATH_GAIN_gain k)
  if s.chg w (BND_PATH_GAIN_gain k) then
    if 65536 * gainBound (pathDir k) s < g * (nth s.rpt k).a then s.ret .guard
    else (gainFollow k g s |>.store (BND_PATH_GAIN k) BND_PATH_GAIN_fs w).ret .done
  else s.ret .done

/-- A working gain ceiling has been tightened (R439): a gain above its bound moves to it. -/
def gainTighten (d : Nat) (s : State) : State :=
  if blkHeld 17 s then s
  else
    (dirPaths d).foldl (fun s k =>
      if gainBound d s < s.get (BND_PATH_GAIN_gain k) then
        (gainFollow k (gainBound d s) s).set (BND_PATH_GAIN_gain k) (gainBound d s)
      else s) s

/-- A write of BND_PATH_NCO: the NCO keeps its phase and advances by the new word from the next input sample on. -/
def wrPathNco (k : Nat) (w : Word) (s : State) : State := plainWrite (BND_PATH_NCO k) BND_PATH_NCO_fs w s

/-! ## Filter banks (R180, R181, R187, R188) -/

/-- The inactive bank's coefficients. -/
def inactiveBank (k : Nat) (s : State) : List Nat := (List.range 255).map fun j => s.get (BND_PATH_CFC_coef k j)

/-- The checks of a commit (R181). -/
def commitOk (k n mode : Nat) (s : State) : Bool :=
  decide (n ≠ 0) && (if mode = 1 then decide (peakIndex (inactiveBank k s) n ≤ 30) else decide (n % 2 = 1))

/-- The banks change places; BND_PATH_CF and _CFC then describe the new inactive bank. -/
def bankSwap (k : Nat) (s : State) : State :=
  let p := nth s.bnd k
  let new := inactiveBank k s
  let n := s.get (BND_PATH_CF_n_taps k)
  let mode := s.get (BND_PATH_CF_mode k)
  let s := forN 255 (fun j s => s.set (BND_PATH_CFC_coef k j) (p.act.getD j 0)) s
  let s := (s.set (BND_PATH_CF_n_taps k) p.actN).set (BND_PATH_CF_mode k) p.actMode
  let s := s.set (BND_PATH_CF_bank k) (1 - s.get (BND_PATH_CF_bank k))
  let s := s.set (BND_PATH_CF_peak k) (peakIndex new (if mode = 1 then n else (n + 1) / 2))
  updBnd k (fun p => { p with act := new, actN := n, actMode := mode }) s

/-- The commit ends DONE with the new bank active and its delay in force (R187, R189). -/
def fadeDone (k : Nat) (s : State) : State :=
  let s := delayShow k (bankSwap k s)
  let s := (s.set (BND_PATH_CF_fading k) 0).set (BND_PATH_CF_outcome k) Code.done.n
  bndEvt 5 (s.set (BND_PATH_DELAY_changing k) 0)

/-- XFADE_END: sample L of the fade. Only an ADMITTED path has output samples (R178, R187). -/
def xfadeEnd (k : Nat) (s : State) : State := if s.on (BND_PATH_CF_fading k) ∧ admState k s = 2 then fadeDone k s else s

/-- A write of BND_PATH_CF. -/
def wrPathCf (k : Nat) (w : Word) (s : State) : State :=
  let commit := decide (wf w (BND_PATH_CF_commit k) = 1)
  if 8 < wf w (BND_PATH_CF_fade_len k) then s.ret .range
  else if s.on (BND_PATH_CF_fading k) && (commit || s.chg w (BND_PATH_CF_n_taps k) || s.chg w (BND_PATH_CF_mode k)) then s.ret .state
  else if !commit then plainWrite (BND_PATH_CF k) BND_PATH_CF_fs w s
  else if !commitOk k (wf w (BND_PATH_CF_n_taps k)) (wf w (BND_PATH_CF_mode k)) s then
    (s.set (BND_PATH_CF_outcome k) Code.range.n).ret .range
  else
    let s := updBnd k (fun p => { p with fadeAt := s.bclk }) (s.store (BND_PATH_CF k) BND_PATH_CF_fs w)
    let s := (s.set (BND_PATH_CF_fading k) 1).set (BND_PATH_CF_outcome k) Code.held.n
    (s.set (BND_PATH_DELAY_changing k) 1).ret .held

/-- A write of a coefficient of the inactive bank: REFUSED_STATE while a fade runs (R188). -/
def wrCfc (k j : Nat) (w : Word) (s : State) : State :=
  if s.chg w (BND_PATH_CFC_coef k j) && s.on (BND_PATH_CF_fading k) then s.ret .state
  else plainWrite (BND_PATH_CFC k j) BND_PATH_CFC_fs w s

/-! ## Canceller (R184, R185) -/

/-- A write of BND_PATH_CXCMD. -/
def wrCxcmd (k : Nat) (w : Word) (s : State) : State :=
  if wf w (BND_PATH_CXCMD_swap k) = 0 then s.ret .done
  else
    let en := (List.range 8).filter fun c => s.on (BND_PATH_CXL_en k c)
    let bad := en.any fun c => decide (s.get (BND_PATH_CXL_delay k c) < 1) || decide (4032 < s.get (BND_PATH_CXL_delay k c))
    if s.get (BND_PATH_CFG_hb k) ≠ 0 ∧ en ≠ [] then (s.set (BND_PATH_CXCMD_outcome k) Code.state.n).ret .state
    else if bad then (s.set (BND_PATH_CXCMD_outcome k) Code.range.n).ret .range
    else
      let s := forN 8 (fun c s =>
        (s.set (BND_PATH_CXL_act_delay k c) (s.get (BND_PATH_CXL_delay k c))).set (BND_PATH_CXL_act_en k c)
          (s.get (BND_PATH_CXL_en k c))) s
      let s := forN 512 (fun j s => s.wr (BND_PATH_CXA k j) (s.rd (BND_PATH_CXT k j))) s
      (s.set (BND_PATH_CXCMD_outcome k) Code.done.n).ret .done

/-! ## Meters (R171, R186) -/

/-- One meter's registers: mean and peak in 1/64 dB, no lower than -160 dBFS. -/
def meterPut (level peak : Fd) (x : Int × Int) (s : State) : State :=
  (s.seti level (clampI (-10240) 32767 x.1)).seti peak (clampI (-10240) 32767 x.2)

/-- n more samples of path k have been saturated; SAT when the count leaves 0, at most once per 1 ms (R171). -/
def satCount (k n : Nat) (s : State) : State :=
  if n = 0 then s
  else
    let leaves := decide (s.get (BND_PATH_SAT_count k) = 0)
    let s := s.addSat (BND_PATH_SAT_count k) n
    if leaves then s.flagLimited BND_EVT_sat 295 msTicks else s

/-- METER_WINDOW_END: the oldest window of 2^win output samples of path k that is finished; the three meters report it together. -/
def meterWindowEnd (k : Nat) (s : State) : State :=
  match (nth s.bnd k).mtrs with
  | [] => s
  | m :: t =>
    let s := meterPut (BND_PATH_MTR_IN_level k) (BND_PATH_MTR_IN_peak k) m.mIn.levels (updBnd k (fun p => { p with mtrs := t }) s)
    let s := meterPut (BND_PATH_MTR_RES_level k) (BND_PATH_MTR_RES_peak k) m.mRes.levels s
    nrWindow k m.mOut.levels.1 m.open_ (meterPut (BND_PATH_MTR_OUT_level k) (BND_PATH_MTR_OUT_peak k) m.mOut.levels s)

/-- BND_PATH_MTR_CTRL: win 4 to 20. -/
def wrMtrCtrl (k : Nat) (w : Word) (s : State) : State :=
  let v := wf w (BND_PATH_MTR_CTRL_win k)
  if v < 4 ∨ 20 < v then s.ret .range else plainWrite (BND_PATH_MTR_CTRL k) BND_PATH_MTR_CTRL_fs w s

/-! ## SYNC_IN and restarts (R190 to R193) -/

def bndHeld (s : State) : Bool := blkHeld 17 s

/-- BAND_SYNC_EDGE: an edge `ago` band-clock periods back has been held for 1 µs; `low`: the pin had stayed low for 1 µs. -/
def bandSyncEdge (ago : Nat) (low : Bool) (s : State) : State :=
  if bndHeld s || (s.bsync.stuck && !low) then s
  else
    let t := s.bandTime - ago
    let mode := s.get BND_SYNC_CTRL_mode
    let fire := decide (mode = 2) || (decide (mode = 1) && s.bsync.armed)
    let s := { s with bsync := { s.bsync with
      stuck := false
      armed := s.bsync.armed && decide (mode ≠ 1)
      edges := if fire then s.bsync.edges ++ [t + 1024] else s.bsync.edges } }
    let s := (s.addSat BND_SYNC_STAT_edges 1).wr BND_SYNC_TIME (BitVec.ofNat 32 t)
    s.flagLimited BND_EVT_sync_edge 288 (s.get BND_SYNC_CTRL_ev_gap * msTicks)

/-- BAND_SYNC_GLITCH. -/
def bandSyncGlitch (s : State) : State := if bndHeld s then s else s.addSat BND_SYNC_STAT_glitches 1

/-- SYNC_STUCK: once until an edge is accepted again. -/
def syncStuck (s : State) : State :=
  if bndHeld s || s.bsync.stuck then s
  else bndEvt 1 ({ s with bsync := { s.bsync with stuck := true } }.addSat BND_SYNC_STAT_stuck 1)

/-- A write of BND_SYNC_CTRL: mode 3, stuck_ms 0 and ev_gap 0 end ERR_RANGE. -/
def wrSyncCtrl (w : Word) (s : State) : State :=
  if wf w BND_SYNC_CTRL_mode = 3 ∨ wf w BND_SYNC_CTRL_stuck_ms = 0 ∨ wf w BND_SYNC_CTRL_ev_gap = 0 then s.ret .range
  else
    let s := s.store BND_SYNC_CTRL BND_SYNC_CTRL_fs w
    (if wf w BND_SYNC_CTRL_arm = 1 then { s with bsync := { s.bsync with armed := true } } else s).ret .done

/-- The next band time whose low 32 bits are `v` (R193). -/
def nextBand (now v : Nat) : Nat :=
  let t := now / 2 ^ 32 * 2 ^ 32 + v
  if t ≤ now then t + 2 ^ 32 else t

/-- A write of BND_SYNC_CMD (R193). -/
def wrSyncCmd (w : Word) (s : State) : State :=
  if s.bsync.cmd.isSome then s.ret .state
  else
    ({ s with bsync := { s.bsync with cmd := some (nextBand s.bandTime w.toNat) } }.set BND_SYNC_RESULT_outcome Code.held.n).ret .held

/-- The earliest scheduled restart. -/
def nextRestart (b : BndSync) : Option Nat :=
  (b.cmd.toList ++ b.edges).foldl (fun m t => match m with | none => some t | some x => some (min x t)) none

/-- One path at the restart instant t (R190): unless an input sample with a port timestamp at or after t has crossed already, the next such
sample is to be sample 0. -/
def restartPath (t k : Nat) (s : State) : State :=
  if admState k s = 2 ∧ s.on (BND_PATH_CFG_sync_en k) ∧ (nth s.bnd k).restart < t then
    updBnd k (fun p => { p with restarts := p.restarts ++ [t] }) s
  else s

/-- The restart instants that an input sample of path k with port timestamp t is the first to come at or after (R190): those made, and those
scheduled of an admitted path with sync_en = 1. -/
def restartsDue (k : Nat) (t : Int) (s : State) : List Nat :=
  let p := nth s.bnd k
  let ahead := if admState k s = 2 ∧ s.on (BND_PATH_CFG_sync_en k) then s.bsync.edges ++ s.bsync.cmd.toList else []
  (p.restarts ++ ahead).filter fun x => decide (p.restart < x) && decide ((x : Int) ≤ t)

/-- An input sample of path k with port timestamp t is counted: it is sample 0 of the restarts that it is the first to follow, or one more
(R190). -/
def sampleCount (k : Nat) (t : Int) (s : State) : State :=
  let due := restartsDue k t s
  let s := updBnd k (fun p => { p with
    idx := if due.isEmpty then p.idx + 1 else 0
    restart := due.foldl max p.restart
    restarts := p.restarts.filter fun x => !due.contains x }) s
  ncoSample k (!due.isEmpty) s

/-- SYNC_RESTART: the earliest scheduled instant; coinciding restarts are one (R190, R193). -/
def syncRestart (s : State) : State :=
  match nextRestart s.bsync with
  | none => s
  | some t =>
    let done := decide (s.bsync.cmd = some t)
    let s := forN 128 (restartPath t) s
    let s := { s with bsync := { s.bsync with
      edges := s.bsync.edges.filter fun x => decide (x ≠ t)
      cmd := if done then none else s.bsync.cmd
      made := s.bsync.made + 1 } }
    if done then bndEvt 2 (s.set BND_SYNC_RESULT_outcome Code.done.n) else s

/-! ## Measurement (R194, R195) -/

/-- The rate code of the point that channel c reads: OUT at f_out, IN and RES at f_in. -/
def measRate (c : Nat) (s : State) : Nat :=
  let k := s.get (BND_MEAS_SRC_path c)
  if s.get (BND_MEAS_SRC_point c) = 2 then (rateOut k s).getD 0 else rateIn k s

/-- The enabled channels read points at one rate. -/
def measSame (mask : Nat) (s : State) : Bool :=
  let cs := (List.range 16).filter fun c => decide (mask / 2 ^ c % 2 = 1)
  cs.all fun c => decide (measRate c s = measRate (cs.getD 0 0) s)

/-- A write of BND_MEAS_CTRL. -/
def wrMeasCtrl (w : Word) (s : State) : State :=
  let run := decide (wf w BND_MEAS_CTRL_run = 1)
  if run && s.on BND_MEAS_CTRL_busy then s.ret .state
  else if 12 < wf w BND_MEAS_CTRL_len then s.ret .range
  else if run && !measSame (wf w BND_MEAS_CTRL_ch_en) s then (s.set BND_MEAS_CTRL_outcome Code.range.n).ret .range
  else
    let s := s.store BND_MEAS_CTRL BND_MEAS_CTRL_fs w
    if !run then s.ret .done
    else (({ s with meas := { start := s.bandTime } }.set BND_MEAS_CTRL_busy 1).set BND_MEAS_CTRL_outcome Code.held.n).ret .held

/-- The samples of a run, 2^(8 + len). -/
def measLen (s : State) : Nat := 2 ^ (8 + s.get BND_MEAS_CTRL_len)

/-- The enabled channels of a run. -/
def measOn (s : State) : List Nat := (List.range 16).filter fun c => bit (s.rd BND_MEAS_CTRL) (16 + c)

/-- Band-clock periods from channel 0's start to channel c's (R195). -/
def measLag (c : Nat) (s : State) : Int := (c * (8 * 2 ^ measRate c s) : Nat)

/-- The channels that read a point (0 IN, 1 RES, 2 OUT) of path k meet its sample with port timestamp t. -/
def measMeet (k point : Nat) (t : Int) (w : Nat) (s : State) : State :=
  (measOn s).foldl (fun s c =>
    if s.get (BND_MEAS_SRC_path c) = k ∧ s.get (BND_MEAS_SRC_point c) = point ∧ s.meas.start ≤ t then
      { s with meas := { s.meas with wait := upd s.meas.wait c fun l => l ++ [(t, w)] } }
    else s) s

/-- The port timestamp of channel 0's first sample in the run; where channel 0 is not enabled it is reckoned from the first sample of the
lowest enabled channel (log 152). -/
def measBegin (s : State) : Option Int :=
  match s.meas.t0 with
  | some x => some x
  | none => (measOn s).head?.bind fun c => (nth s.meas.wait c).head?.map fun x => x.1 - measLag c s

/-- The correlator of channel c takes the samples met from its start x on, as long as it needs any. -/
def measTake (x : Int) (c : Nat) (s : State) : State :=
  let a := (nth s.meas.wait c).foldl (fun (a : Corr) y =>
    if x ≤ y.1 ∧ a.n < measLen s then a.add (s.rd (BND_MEAS_FW c)).toNat y.2 else a) (nth s.meas.ch c)
  { s with meas := { s.meas with ch := upd s.meas.ch c fun _ => a, wait := upd s.meas.wait c fun _ => [] } }

/-- A sample at a point of path k for the measurement run: once channel 0's start is known, channel c takes the samples from c sample periods
after it on (R194, R195). -/
def measFeed (k point : Nat) (t : Int) (w : Nat) (s : State) : State :=
  if !s.on BND_MEAS_CTRL_busy then s
  else
    let s := measMeet k point t w s
    match measBegin s with
    | none => s
    | some x => (measOn s).foldl (fun s c => measTake (x + measLag c s) c s) { s with meas := { s.meas with t0 := some x } }

/-- Every enabled channel has its samples. -/
def measReady (s : State) : Bool := (measOn s).all fun c => decide (measLen s ≤ (nth s.meas.ch c).n)

/-- MEAS_END: channel 0's first port timestamp and the means, in 2^-23 (R194, R195). -/
def measEnd (s : State) : State :=
  if s.on BND_MEAS_CTRL_busy && measReady s then
    let n := measLen s
    let s := (measOn s).foldl (fun s c =>
      let a := nth s.meas.ch c
      (s.wr (BND_MEAS_RE c) (corrWord a.re n)).wr (BND_MEAS_IM c) (corrWord a.im n))
      (s.wr BND_MEAS_T0 (BitVec.ofInt 32 (s.meas.t0.getD 0)))
    bndEvt 6 ((s.set BND_MEAS_CTRL_busy 0).set BND_MEAS_CTRL_outcome Code.done.n)
  else s

/-- BND_MEAS_SRC_c: point 3 ends ERR_RANGE. -/
def wrMeasSrc (c : Nat) (w : Word) (s : State) : State :=
  if wf w (BND_MEAS_SRC_point c) = 3 then s.ret .range else plainWrite (BND_MEAS_SRC c) BND_MEAS_SRC_fs w s

/-- A read of BND_TIME_L returns the band time and latches BND_TIME_H (R170). -/
def rdBandTime (s : State) : State :=
  (s.retData [BitVec.ofNat 32 s.bandTime]).wr BND_TIME_H (BitVec.ofNat 32 (s.bandTime / 2 ^ 32))

/-! ## Reset (R201) -/

/-- The containers that enabled output entries name: lane and container. -/
def sentCtrs (s : State) : List (Nat × Nat) :=
  (s.regs.filter fun e => decide (BND_POUT 0 ≤ e.1) && decide (e.1 < BND_POUT 1024) && decide (e.1 % 8 = 0) && bit e.2 0 &&
    decide (wf e.2 (BND_POUT_kind 0) = 1)).map fun e => (wf e.2 (BND_POUT_lane 0), wf e.2 (BND_POUT_idx 0))

/-- The output ports send zero samples, so that their containers carry zero blocks, those that wait among them (R201). -/
def portsZero (s : State) : State :=
  let l := sentCtrs s
  l.foldl (fun s x => { s with frm := upd s.frm x.1 fun f =>
    { f with txc := upd f.txc x.2 fun y => { y with wait := y.wait.map fun _ => 0 } } }) { s with bndZero := l }

/-- The band engine's reset takes hold (R201): the output ports send zeros, paths are IDLE, ports disabled, commands ended without a record
(R555); every repeater path OFF (R227); listener channels lose their ports (R243). -/
def resetBnd (s : State) : State :=
  let s := portsZero s
  let s := { s.dropRange BND_EVT (BND_PATH_CFG 128) with
    bnd := List.replicate 128 {}, bsync := {}, bandTime := 0, admSeq := 0, meas := {}, inq := [], carry := [] }
  let s := admShow 1 (admShow 0 s)
  let s := if rptHeld s then s else forN 128 (fun k s => rptLeft k 4 s) s
  if lstHeld s then s
  else
    forN 2 (fun ch s =>
      if lstState ch s ≠ 0 then (lstToOff ch 5 s).set (LST_CH_STAT_off_reason ch) 1 else s) s

/-! ## Meanings -/

def execPortEnable (q : Rq) (out : Bool) (p : Fin 1024) (w : Word) (s : State) : Out :=
  let w := force w (BND_PIN_en p) 1
  .next (gated q (if out then BND_POUT p else BND_PIN p) (if out then BND_POUT_fs else BND_PIN_fs) w (wrPort out p w) s)

def execPortDisable (q : Rq) (out : Bool) (p : Fin 1024) (w : Word) (s : State) : Out :=
  let w := force w (BND_PIN_en p) 0
  .next (gated q (if out then BND_POUT p else BND_PIN p) (if out then BND_POUT_fs else BND_PIN_fs) w (wrPort out p w) s)

def execAdmitPath (q : Rq) (k : Fin 128) (s : State) : Out := .next (gated q (BND_PATH_CMD k) BND_PATH_CMD_fs 1 (wrPathCmd k 1) s)
def execRelease (q : Rq) (k : Fin 128) (s : State) : Out := .next (gated q (BND_PATH_CMD k) BND_PATH_CMD_fs 2 (release k) s)
def execReleaseRampEnd (k : Fin 128) (s : State) : Out := .next (releaseRampEnd k s)
def execQueuePass (d : Fin 2) (s : State) : Out := .next (if bndHeld s then s else queuePass d s)

def execAdmFloorWrite (q : Rq) (r : Fin 3) (w : Word) (s : State) : Out :=
  .next (if r = 2 then gated q BND_ADM_THR BND_ADM_THR_fs w (wrAdmThr w) s
    else gated q (BND_ADM_RES r) BND_ADM_RES_fs w (wrAdmRes r w) s)

def execPathGainWrite (q : Rq) (k : Fin 128) (w : Word) (s : State) : Out :=
  .next (gated q (BND_PATH_GAIN k) BND_PATH_GAIN_fs w (wrPathGain k w) s)

def execFilterCommit (q : Rq) (k : Fin 128) (w : Word) (s : State) : Out :=
  let w := force w (BND_PATH_CF_commit k) 1
  .next (gated q (BND_PATH_CF k) BND_PATH_CF_fs w (wrPathCf k w) s)

def execXfadeEnd (k : Fin 128) (s : State) : Out := .next (xfadeEnd k s)

def execCancellerSwap (q : Rq) (k : Fin 128) (s : State) : Out :=
  .next (gated q (BND_PATH_CXCMD k) BND_PATH_CXCMD_fs 1 (wrCxcmd k 1) s)

def execMeterWindowEnd (k : Fin 128) (s : State) : Out := .next (meterWindowEnd k s)
def execBandSyncEdge (ago : Nat) (low : Bool) (s : State) : Out := .next (bandSyncEdge ago low s)
def execBandSyncGlitch (s : State) : Out := .next (bandSyncGlitch s)

def execBandSyncArm (q : Rq) (w : Word) (s : State) : Out :=
  let w := force w BND_SYNC_CTRL_arm 1
  .next (gated q BND_SYNC_CTRL BND_SYNC_CTRL_fs w (wrSyncCtrl w) s)

def execSyncRestart (s : State) : Out := .next (syncRestart s)
def execSyncStuck (s : State) : Out := .next (syncStuck s)
def execSyncCmd (q : Rq) (w : Word) (s : State) : Out := .next (gated q BND_SYNC_CMD BND_SYNC_CMD_fs w (wrSyncCmd w) s)

def execMeasRun (q : Rq) (w : Word) (s : State) : Out :=
  let w := force w BND_MEAS_CTRL_run 1
  .next (gated q BND_MEAS_CTRL BND_MEAS_CTRL_fs w (wrMeasCtrl w) s)

def execMeasEnd (s : State) : Out := .next (measEnd s)

def execBndSyncStatRead (q : Rq) (s : State) : Out := .next (gatedRead q BND_SYNC_STAT (clearRead BND_SYNC_STAT) s)

def execBndPathSatRead (q : Rq) (k : Fin 128) (s : State) : Out :=
  .next (gatedRead q (BND_PATH_SAT k) (clearRead (BND_PATH_SAT k)) s)

def execBndTimeLRead (q : Rq) (s : State) : Out := .next (gatedRead q BND_TIME_L rdBandTime s)

end Sys2Proof.Machine
end

