-- ==== Sys2Proof/Machine/Conv.lean ====
section
/-! DEFINITION. Line converters and rotating-spare calibration (chapter 02): the sample and transmit arithmetic of R33, R34,
R59 to R61, and the meanings of the commands and events of the converters. -/

namespace Sys2Proof.Machine

/-! ## Sample correction and transmit arithmetic -/

/-- The corrected sample of R33 and R34, in 1/16 LSB: code `c`, offset in 1/64 LSB, gain in 2^-13. -/
def adcCorrect (c ofs gain : Int) : Int :=
  clampI (-2048) 2047 (divEven ((64 * c + ofs) * (8192 + gain)) 32768)

/-- A DAC code under the squelch gain g of 0 to 256 (R131): the last stage before the DAC. -/
def squelchCode (code : Int) (g : Nat) : Int := divEven (code * g) 256

/-- The amplitude of a symbol 0 to 3 (transmit stage 1). -/
def amplitude (s : Nat) : Int := 2 * (s : Int) - 3

/-- The FIR sum of R59 in 1/8 LSB over the amplitudes a[n+main_pos], a[n+main_pos-1], …. -/
def firSum : List Int → List Int → Int
  | c :: cs, a :: as => c * a + firSum cs as
  | [], _ => 0
  | _, [] => 0

/-- The pre-distortion index of R60 from s[n], s[n-1], s[n-2], s[n-3]. -/
def pdIndex (s0 s1 s2 s3 : Nat) : Nat := 64 * s0 + 16 * s1 + 4 * s2 + s3

/-- The DAC code of R61 from the sum in 1/8 LSB. -/
def dacCode (y : Int) : Int := clampI (-128) 127 (divEven y 8)

/-- The active coefficient k of lane n. -/
def firActive (n k : Nat) (s : State) : Int := s.geti (LANE_TX_FIR_active n k)

/-- The DAC code of lane n before the squelch (R59 to R61) for the symbols s[n+3] … s[n-7] (newest first, s[n] at place 3): 42 · a[n]
for the FIR at fir_en = 0. -/
def txSum (n : Nat) (sym : List Nat) (s : State) : Int :=
  let y := if s.on (LANE_TX_CTRL_fir_en n) then
      firSum ((List.range 8).map fun k => firActive n k s) ((sym.drop (3 - (nth s.conv n).mainPos)).map amplitude)
    else 42 * amplitude (nth sym 3)
  let i := pdIndex (nth sym 3) (nth sym 4) (nth sym 5) (nth sym 6)
  let p := if s.on (LANE_TX_CTRL_pd_en n) then
      (if s.on (LANE_TX_STATUS_pd_bank n) then s.geti (LANE_TX_PDB_corr n i) else s.geti (LANE_TX_PDA_corr n i))
    else 0
  dacCode (y + p)

/-- The DAC code that lane n drives (R61, R131): the code of its symbols under the squelch gain in force, and a differential zero with
the DAC off or the lane held in reset (R53). -/
def txDac (n : Nat) (sym : List Nat) (s : State) : Int :=
  if s.on (LANE_TX_CTRL_dac_en n) && !blkHeld n s then squelchCode (txSum n sym s) (s.get (FRM_LANE_STATUS_gain n)) else 0

/-- The slice that holds position p of lane n: the first in service whose position it is (R41). -/
def sliceAt (n p : Nat) (s : State) : Nat :=
  ((List.range 65).find? fun k =>
    decide (k ≠ s.get (LANE_ADC_STATUS_spare n)) && decide (s.get (LANE_SLICE_CSKEW_pos n k) = p)).getD 64

/-- The corrected samples of successive raw codes of lane n from symbol instant i on (R33, R34): position i mod 64 takes each, with
the current corrections of the slice that holds it. Converters that have stopped give samples of 0 (R93; log 166). -/
def adcSamples (n i : Nat) (codes : List Int) (s : State) : List Int :=
  if !s.on (LANE_ADC_CTRL_rx_en n) then codes.map fun _ => 0
  else
  let cor := (List.range 64).map fun p =>
    let k := sliceAt n p s
    (s.geti (LANE_SLICE_CUR_ofs n k), s.geti (LANE_SLICE_CUR_gain n k))
  codes.zipIdx.map fun c =>
    let g := nth cor ((i + c.2) % 64)
    adcCorrect (clampI (-128) 127 c.1) g.1 g.2

/-! ## Shared pieces -/

/-- The hidden converter state of lane n changed by `f`. -/
def updConv (n : Nat) (f : Conv → Conv) (s : State) : State := { s with conv := upd s.conv n f }

/-- Event flag `b` of LANE_ADC_EVT, event 32 + 16 n + b. -/
def adcEvt (n b : Nat) (s : State) : State := s.flag ⟨LANE_ADC_EVT n, b, 1⟩ (32 + 16 * n + b)

/-- A slice holds a position: exactly one slice, LANE_ADC_STATUS.spare, does not (R41, R58). -/
def inService (n k : Nat) (s : State) : Bool := decide (k ≠ s.get (LANE_ADC_STATUS_spare n))

/-- Calibration command `op` for slice k ends with `c` and CMD_DONE (R54, R14). -/
def calEnd (n op k : Nat) (c : Code) (reason : Nat) (s : State) : State :=
  let s := (s.set (LANE_CAL_RESULT_op n) op).set (LANE_CAL_RESULT_slice n) k
  adcEvt n 5 ((s.set (LANE_CAL_RESULT_outcome n) c.n).set (LANE_CAL_RESULT_reason n) reason)

/-- A HOLD that is HELD ends. -/
def holdEnd (n : Nat) (c : Code) (reason : Nat) (s : State) : State :=
  calEnd n 1 (nth s.conv n).holdK c reason s

/-- One tap register field moves by a step towards its target (R37). -/
def stepTap (cur tgt : Fd) (d : Nat) (s : State) : State := s.seti cur (towards (s.geti cur) (s.geti tgt) d)

/-- One ramp tick of a slice (R37 to R40). -/
def rampSlice (n k : Nat) (s : State) : State :=
  if inService n k s then
    let s := stepTap (LANE_SLICE_CUR_ofs n k) (LANE_SLICE_TGT_ofs n k) (s.get (LANE_RAMP_CTRL_ofs_step n)) s
    let s := stepTap (LANE_SLICE_CUR_gain n k) (LANE_SLICE_TGT_gain n k) (s.get (LANE_RAMP_CTRL_gain_step n)) s
    stepTap (LANE_SLICE_CSKEW_skew n k) (LANE_SLICE_TSKEW_skew n k) (s.get (LANE_RAMP_CTRL_skew_step n)) s
  else s

/-- One ramp tick of the converters of lane n: none of their taps moves while they are off (R49). -/
def rampConv (n : Nat) (s : State) : State :=
  if s.on (LANE_RAMP_CTRL_freeze n) || !s.on (LANE_ADC_CTRL_rx_en n) then s else forN 65 (rampSlice n) s

/-- LANE_ADC_STATUS.ramp_busy: a tap of a slice in service differs from its target. -/
def rampBusy (n : Nat) (s : State) : Bool :=
  (List.range 65).any fun k => inService n k s &&
    (decide (s.get (LANE_SLICE_CUR_ofs n k) ≠ s.get (LANE_SLICE_TGT_ofs n k)) ||
     decide (s.get (LANE_SLICE_CUR_gain n k) ≠ s.get (LANE_SLICE_TGT_gain n k)) ||
     decide (s.get (LANE_SLICE_CSKEW_skew n k) ≠ s.get (LANE_SLICE_TSKEW_skew n k)))

/-- The conditions of R48, with the pause of HOLD, the deferral of R50 and a failed slice (R57, R58) keeping rotation off. -/
def rotOk (n : Nat) (s : State) : Bool :=
  s.on (LANE_ADC_CTRL_rot_en n) && s.on (LANE_ADC_STATUS_fg_done n) && locked n s

/-- An estimate becomes a target: beyond the tap's range the limit is written and SLICE_SAT raised (R56). -/
def writeEst (n k : Nat) (f : Fd) (x : Int) (s : State) : State :=
  let s := s.seti f (satI f.w x)
  if satI f.w x = x then s else adcEvt n 2 (s.set (LANE_SLICE_CSKEW_sat n k) 1)

/-- Every target of slice k from an estimate (R43, R47). -/
def writeTargets (n k : Nat) (e : SliceEst) (s : State) : State :=
  writeEst n k (LANE_SLICE_TSKEW_skew n k) e.skew
    (writeEst n k (LANE_SLICE_TGT_gain n k) e.gain (writeEst n k (LANE_SLICE_TGT_ofs n k) e.ofs s))

/-- The current values of a slice take its targets (R47). -/
def currentFromTargets (n k : Nat) (s : State) : State :=
  let s := s.set (LANE_SLICE_CUR_ofs n k) (s.get (LANE_SLICE_TGT_ofs n k))
  let s := s.set (LANE_SLICE_CUR_gain n k) (s.get (LANE_SLICE_TGT_gain n k))
  s.set (LANE_SLICE_CSKEW_skew n k) (s.get (LANE_SLICE_TSKEW_skew n k))

/-! ## Events of calibration -/

/-- FG_CAL_DONE, one slice: estimates to targets unless pinned, current values equal to the targets, state and position
(R47, R58). `out` is the slice left out of service. -/
def fgSlice (n : Nat) (est : List SliceEst) (failed : List Nat) (out k : Nat) (s : State) : State :=
  let s := if s.on (LANE_SLICE_TGT_pin n k) then s else writeTargets n k (nth est k) s
  let s := currentFromTargets n k s
  let s := if k = out then s else s.set (LANE_SLICE_CSKEW_pos n k) (if k < out then k else k - 1)
  s.set (LANE_SLICE_CSKEW_state n k) (if failed.contains k then 2 else if k = out then 1 else 0)

/-- The slice out of service after a foreground pass: the lowest failed one, else 64 (R47, R58). -/
def fgOut (failed : List Nat) : Nat := ((List.range 65).find? fun k => failed.contains k).getD 64

/-- The throttle threshold against a lane between slots (R50): while it is active the lane defers at once, and deferred returns to 0
when it clears (DEDUCED, log 21). -/
def calThrottle (n : Nat) (s : State) : State :=
  if (nth s.conv n).slotOn then s
  else if s.on TH_STAT_throttle then
    (if s.on (LANE_ADC_STATUS_fg_done n) && !s.on (LANE_ADC_STATUS_deferred n) then
      adcEvt n 4 (s.set (LANE_ADC_STATUS_deferred n) 1)
    else s)
  else s.set (LANE_ADC_STATUS_deferred n) 0

/-- FG_CAL_DONE (R47, R58): only while a foreground pass runs. -/
def fgCalDone (n : Nat) (est : List SliceEst) (failed : List Nat) (s : State) : State :=
  if s.on (LANE_ADC_STATUS_fg_busy n) then
    let out := fgOut failed
    let any := (List.range 65).any fun k => failed.contains k
    let s := forN 65 (fgSlice n est failed out) s
    let s := s.set (LANE_ADC_STATUS_spare n) out
    let s := s.set (LANE_ADC_STATUS_no_spare n) (if any then 1 else 0)
    let s := forN 65 (fun k s => if failed.contains k then adcEvt n 3 s else s) s
    let s := updConv n (fun c => { c with est := est, slots := 0, slotOn := false }) s
    let s := (s.set (LANE_ADC_STATUS_fg_busy n) 0).set (LANE_ADC_STATUS_fg_done n) 1
    calThrottle n (adcEvt n 0 (s.set (LANE_ADC_STATUS_phase n) 0))
  else s

/-- ROTATION_RESUME (R48, R50): a slot starts at a ramp tick at which every condition holds. -/
def rotationResume (n : Nat) (s : State) : State :=
  let c := nth s.conv n
  if rampLive s && rotOk n s && !c.slotOn && !c.paused && !s.on TH_STAT_throttle && !s.on (LANE_ADC_STATUS_no_spare n) then
    let s := updConv n (fun c => { c with slotOn := true, slotLen := s.get (LANE_ADC_CTRL_slot_len n) }) s
    ((s.set (LANE_ADC_STATUS_rot_run n) 1).set (LANE_ADC_STATUS_phase n) 0).set (LANE_ADC_STATUS_deferred n) 0
  else s

/-- Rotation stops where it stands. -/
def rotStop (n : Nat) (s : State) : State :=
  (updConv n (fun c => { c with slotOn := false }) s).set (LANE_ADC_STATUS_rot_run n) 0

/-- A QUEUED RECAL ends ABORTED with its reason (R49, R57). -/
def recalAbort (n reason : Nat) (s : State) : State :=
  match (nth s.conv n).recal with
  | some r => calEnd n 3 r.k .aborted reason (updConv n (fun c => { c with recal := none }) s)
  | none => s

/-- R57: the spare is marked failed; rotation stops; a QUEUED RECAL ends ABORTED, reason FAIL, a HELD HOLD ends DONE. -/
def sliceFail (n : Nat) (s : State) : State :=
  let k := s.get (LANE_ADC_STATUS_spare n)
  let s := adcEvt n 3 (s.set (LANE_SLICE_CSKEW_state n k) 2)
  let s := rotStop n (s.set (LANE_ADC_STATUS_no_spare n) 1)
  let s := recalAbort n 2 s
  if (nth s.conv n).holdPend then
    holdEnd n .done 0 (updConv n (fun c => { c with holdPend := false, paused := true }) s)
  else s

/-- The failure test of R57 for offset (1 LSB is 64 units), gain (1 % of 2^13) and skew (100 fs of 3 fs units). -/
def jumpOfs (a b : Int) : Bool := decide (64 < (a - b).natAbs)
def jumpGain (a b : Int) : Bool := decide (8192 < 100 * (a - b).natAbs)
def jumpSkew (a b : Int) : Bool := decide (100 < 3 * (a - b).natAbs)

/-- SPARE_PHASE_END (R42, R57): the OFFSET or GAIN phase ends with its estimate; `stuck`: the code did not change for the
whole GAIN phase. No phase ends while the ramp tick is absent (R51). -/
def sparePhaseEnd (n : Nat) (est : Int) (stuck : Bool) (s : State) : State :=
  let k := s.get (LANE_ADC_STATUS_spare n)
  let prev := nth (nth s.conv n).est k
  if !rampLive s then s
  else if (nth s.conv n).slotOn && s.get (LANE_ADC_STATUS_phase n) = 0 then
    let s := updConv n (fun c => { c with est := upd c.est k fun e => { e with ofs := est } }) s
    if jumpOfs est prev.ofs then sliceFail n s else s.set (LANE_ADC_STATUS_phase n) 1
  else if (nth s.conv n).slotOn && s.get (LANE_ADC_STATUS_phase n) = 1 then
    let s := updConv n (fun c => { c with est := upd c.est k fun e => { e with gain := est } }) s
    if jumpGain est prev.gain || stuck then sliceFail n s else s.set (LANE_ADC_STATUS_phase n) 2
  else s

/-- SKEW_PHASE_END (R43, R56, R57): the targets of the spare are written unless pinned, and SHADOW begins. -/
def skewPhaseEnd (n : Nat) (est : Int) (s : State) : State :=
  let k := s.get (LANE_ADC_STATUS_spare n)
  let prev := nth (nth s.conv n).est k
  if rampLive s && (nth s.conv n).slotOn && s.get (LANE_ADC_STATUS_phase n) = 2 then
    let s := updConv n (fun c => { c with est := upd c.est k fun e => { e with skew := est } }) s
    if jumpSkew est prev.skew then sliceFail n s
    else
      let s := if s.on (LANE_SLICE_TGT_pin n k) then s else writeTargets n k (nth (nth s.conv n).est k) s
      let s := (s.set (LANE_ADC_STATUS_phase n) 3).set (LANE_SLICE_CSKEW_state n k) 3
      updConv n (fun c => { c with recal := c.recal.map fun r =>
        if r.stage = 0 then { r with stage := if r.k = k then 2 else 1 } else r }) s
  else s

/-- The slice that retires at the end of the slot (R42, R54). -/
def retiring (n : Nat) (s : State) : Nat :=
  match (nth s.conv n).recal with
  | some r => if r.stage = 1 then r.k else (s.get (LANE_ADC_STATUS_spare n) + 1) % 65
  | none => (s.get (LANE_ADC_STATUS_spare n) + 1) % 65

/-- The exchange of R44: the spare takes the retiring slice's position with the continuity values. -/
def exchange (n : Nat) (cont : SliceEst) (s : State) : State :=
  let k := s.get (LANE_ADC_STATUS_spare n)
  let r := retiring n s
  let s := s.seti (LANE_SLICE_CUR_ofs n k) (satI 12 cont.ofs)
  let s := s.seti (LANE_SLICE_CUR_gain n k) (satI 11 cont.gain)
  let s := s.seti (LANE_SLICE_CSKEW_skew n k) (satI 10 cont.skew)
  let s := s.set (LANE_SLICE_CSKEW_pos n k) (s.get (LANE_SLICE_CSKEW_pos n r))
  let s := (s.set (LANE_SLICE_CSKEW_state n k) 0).set (LANE_SLICE_CSKEW_state n r) 1
  (s.set (LANE_ADC_STATUS_spare n) r).set (LANE_ADC_STATUS_phase n) 0

/-- A slot has been counted; after 65 the rotation is complete (R42). -/
def countSlot (n : Nat) (s : State) : State :=
  if (nth s.conv n).slots + 1 = 65 then
    adcEvt n 1 ((updConv n (fun c => { c with slots := 0 }) s).incMod (LANE_ADC_STATUS_rot_count n))
  else updConv n (fun c => { c with slots := c.slots + 1 }) s

/-- What a RECAL makes of the end of a slot (R54). -/
def recalSlotEnd (n : Nat) (s : State) : State :=
  match (nth s.conv n).recal with
  | some r =>
    if r.stage = 2 then calEnd n 3 r.k .done 0 (updConv n (fun c => { c with recal := none }) s)
    else if r.stage = 1 then updConv n (fun c => { c with recal := some { r with stage := 2 } }) s
    else s
  | none => s

/-- What follows a slot: HOLD ends and pauses (R54), throttle defers (R50), an ended condition pauses (R48), else the next
slot begins. -/
def slotNext (n : Nat) (s : State) : State :=
  let s := if (nth s.conv n).holdPend then
      holdEnd n .done 0 (updConv n (fun c => { c with holdPend := false, paused := true }) s)
    else s
  let s := if s.on TH_STAT_throttle && !s.on (LANE_ADC_STATUS_deferred n) then
      adcEvt n 4 (s.set (LANE_ADC_STATUS_deferred n) 1)
    else s
  if rotOk n s && !(nth s.conv n).paused && !s.on TH_STAT_throttle then
    updConv n (fun c => { c with slotLen := s.get (LANE_ADC_CTRL_slot_len n) }) s
  else rotStop n s

/-- SLOT_HANDOVER (R44, R45): only at the end of the SHADOW phase of a running slot. -/
def slotHandover (n : Nat) (cont : SliceEst) (s : State) : State :=
  if rampLive s && (nth s.conv n).slotOn && s.get (LANE_ADC_STATUS_phase n) = 3 then
    slotNext n (recalSlotEnd n (countSlot n (exchange n cont s)))
  else s

/-! ## Register hooks -/

/-- The current slot is abandoned: the spare is no longer in a phase (R49). -/
def slotAbandon (n : Nat) (s : State) : State :=
  let k := s.get (LANE_ADC_STATUS_spare n)
  let s := if s.get (LANE_SLICE_CSKEW_state n k) = 3 then s.set (LANE_SLICE_CSKEW_state n k) 1 else s
  rotStop n (s.set (LANE_ADC_STATUS_phase n) 0)

/-- R49: the converters power down. A pause by a completed HOLD stays until RESUME (DESIGN CHOICE, log 165). -/
def rxOff (n : Nat) (s : State) : State :=
  let s := (s.set (LANE_ADC_STATUS_fg_busy n) 0).set (LANE_ADC_STATUS_fg_done n) 0
  let s := recalAbort n 1 (slotAbandon n s)
  if (nth s.conv n).holdPend then holdEnd n .aborted 1 (updConv n (fun c => { c with holdPend := false }) s) else s

/-- R47: the foreground pass starts. -/
def rxOn (n : Nat) (s : State) : State :=
  (s.set (LANE_ADC_STATUS_fg_busy n) 1).set (LANE_ADC_STATUS_fg_done n) 0

/-- A write of LANE_ADC_CTRL (R32, R47, R49). -/
def wrAdcCtrl (n : Nat) (w : Word) (s : State) : State :=
  if s.chg w (LANE_ADC_CTRL_slot_len n) && wf w (LANE_ADC_CTRL_slot_len n) = 3 then s.ret .range
  else if s.chg w (LANE_ADC_CTRL_ctle_peak n) && locked n s then s.ret .state
  else
    let was := s.on (LANE_ADC_CTRL_rx_en n)
    let s := s.store (LANE_ADC_CTRL n) LANE_ADC_CTRL_fs w
    let is := s.on (LANE_ADC_CTRL_rx_en n)
    (if !was && is then rxOn n s else if was && !is then rxOff n s else s).ret .done

/-- A calibration command is under way (R55). -/
def calBusy (n : Nat) (s : State) : Bool := (nth s.conv n).holdPend || (nth s.conv n).recal.isSome

/-- The command's op and slice stand in LANE_CAL_RESULT. -/
def calBegin (n op k : Nat) (c : Code) (s : State) : State :=
  let s := (s.set (LANE_CAL_RESULT_op n) op).set (LANE_CAL_RESULT_slice n) k
  (s.set (LANE_CAL_RESULT_outcome n) c.n).set (LANE_CAL_RESULT_reason n) 0

/-- The command ends at once with `c` and CMD_DONE. -/
def calNow (n op k : Nat) (c : Code) (s : State) : State := (adcEvt n 5 (calBegin n op k c s)).ret c

/-- HOLD (R54, R55). -/
def calHold (n k : Nat) (s : State) : State :=
  if calBusy n s then calNow n 1 k .state s
  else if (nth s.conv n).slotOn then
    (calBegin n 1 k .held (updConv n (fun c => { c with holdPend := true, holdK := k }) s)).ret .held
  else calNow n 1 k .done (updConv n (fun c => { c with paused := true }) s)

/-- RESUME (R54, R55). -/
def calResume (n k : Nat) (s : State) : State :=
  if calBusy n s then calNow n 2 k .state s
  else if s.on (LANE_ADC_STATUS_fg_done n) then calNow n 2 k .done (updConv n (fun c => { c with paused := false }) s)
  else calNow n 2 k .state s

/-- RECAL (R54, R55). One of the spare that arrives between two slots stays QUEUED to the end of the next slot (DESIGN CHOICE, log
142). -/
def calRecal (n k : Nat) (s : State) : State :=
  if calBusy n s then calNow n 3 k .state s
  else if 64 < k then calNow n 3 k .range s
  else if s.get (LANE_SLICE_CSKEW_state n k) = 2 then calNow n 3 k .state s
  else
    let st := if s.get (LANE_ADC_STATUS_spare n) = k then 2 else 0
    (calBegin n 3 k .queued (updConv n (fun c => { c with recal := some ⟨k, st⟩ }) s)).ret .queued

/-- RELEASE (R54, R55). -/
def calRelease (n k : Nat) (s : State) : State :=
  if calBusy n s then calNow n 4 k .state s
  else if 64 < k then calNow n 4 k .range s
  else
    let s := s.set (LANE_SLICE_TGT_ofs n k) (s.get (LANE_SLICE_CUR_ofs n k))
    let s := s.set (LANE_SLICE_TGT_gain n k) (s.get (LANE_SLICE_CUR_gain n k))
    calNow n 4 k .done (s.set (LANE_SLICE_TSKEW_skew n k) (s.get (LANE_SLICE_CSKEW_skew n k)))

/-- A write of LANE_CAL_CMD: op 0 and 5 to 7 end ERR_RANGE (R54), also while an earlier command is HELD or QUEUED, where each of the
four commands ends REFUSED_STATE before its slice is judged (R55; the order is DESIGN CHOICE, log 142). -/
def wrCalCmd (n : Nat) (w : Word) (s : State) : State :=
  let k := wf w (LANE_CAL_CMD_slice n)
  match wf w (LANE_CAL_CMD_op n) with
  | 1 => calHold n k s
  | 2 => calResume n k s
  | 3 => calRecal n k s
  | 4 => calRelease n k s
  | op => calNow n op k .range s

/-- A write of LANE_RAMP_CTRL (R39). -/
def wrRampCtrl (n : Nat) (w : Word) (s : State) : State :=
  if wf w (LANE_RAMP_CTRL_ofs_step n) > 4 || wf w (LANE_RAMP_CTRL_gain_step n) > 4 || wf w (LANE_RAMP_CTRL_skew_step n) > 4 then
    s.ret .range
  else plainWrite (LANE_RAMP_CTRL n) LANE_RAMP_CTRL_fs w s

/-- A write of LANE_TX_CTRL (R62, R65): a new swing above 240, then above the ceiling in force; main_pos while pending. The order, and
that the refusal of R65 leaves LANE_TX_STATUS.outcome alone, is DESIGN CHOICE (log 165). -/
def wrTxCtrl (n : Nat) (w : Word) (s : State) : State :=
  let sw := wf w (LANE_TX_CTRL_swing n)
  let ch := s.chg w (LANE_TX_CTRL_swing n)
  if ch && sw > 240 then (s.set (LANE_TX_STATUS_outcome n) Code.range.n).ret .range
  else if ch && sw > s.get GRD_SWING_work then (s.set (LANE_TX_STATUS_outcome n) Code.guard.n).ret .guard
  else if s.chg w (LANE_TX_CTRL_main_pos n) && s.on (LANE_TX_STATUS_pending n) then s.ret .state
  else
    let s := s.store (LANE_TX_CTRL n) LANE_TX_CTRL_fs w
    (if ch then (s.set (LANE_TX_STATUS_outcome n) 0).set (LANE_TX_STATUS_clamped n) 0 else s).ret .done

/-- The sum of the magnitudes of the shadow coefficients (R63). -/
def firAbsSum (n : Nat) (s : State) : Nat :=
  ((List.range 8).map fun k => (s.geti (LANE_TX_FIR_shadow n k)).natAbs).sum

/-- A write of LANE_TX_COMMIT (R63, R65). -/
def wrTxCommit (n : Nat) (w : Word) (s : State) : State :=
  let fir := wf w (LANE_TX_COMMIT_fir n) = 1
  let swap := wf w (LANE_TX_COMMIT_pd_swap n) = 1
  if ¬ fir ∧ ¬ swap then s.ret .done
  else if s.on (LANE_TX_STATUS_pending n) then (s.set (LANE_TX_STATUS_outcome n) Code.state.n).ret .state
  else if fir ∧ firAbsSum n s > 340 then (s.set (LANE_TX_STATUS_outcome n) Code.range.n).ret .range
  else
    let s := updConv n (fun c => { c with firPend := decide fir, swapPend := decide swap }) s
    ((s.set (LANE_TX_STATUS_pending n) 1).set (LANE_TX_STATUS_outcome n) Code.held.n).ret .held

/-- TX_COMMIT_APPLY (R63): the pending commit takes effect at the 256-symbol boundary, counted in transmit symbols (R24). -/
def txCommitApply (n : Nat) (s : State) : State :=
  if txRuns s && s.on (LANE_TX_STATUS_pending n) then
    let c := nth s.conv n
    let s := if c.firPend then
        updConv n (fun c => { c with mainPos := s.get (LANE_TX_CTRL_main_pos n) })
          (forN 8 (fun k s => s.set (LANE_TX_FIR_active n k) (s.get (LANE_TX_FIR_shadow n k))) s)
      else s
    let s := if c.swapPend then s.set (LANE_TX_STATUS_pd_bank n) (1 - s.get (LANE_TX_STATUS_pd_bank n)) else s
    let s := updConv n (fun c => { c with firPend := false, swapPend := false }) s
    (s.set (LANE_TX_STATUS_pending n) 0).set (LANE_TX_STATUS_outcome n) 0
  else s

/-- A write of LANE_TX_FIR_k: a shadow coefficient is refused while a commit is pending (R65). -/
def wrTxFir (n k : Nat) (w : Word) (s : State) : State :=
  if s.chg w (LANE_TX_FIR_shadow n k) && s.on (LANE_TX_STATUS_pending n) then s.ret .state
  else plainWrite (LANE_TX_FIR n k) LANE_TX_FIR_fs w s

/-- A write of a pre-distortion entry of bank `b` (0 A, 1 B): refused in the active bank (R64) and in the bank that a
pending swap is about to make active (R65). -/
def wrPd (n b i : Nat) (w : Word) (s : State) : State :=
  let a := if b = 0 then LANE_TX_PDA n i else LANE_TX_PDB n i
  let ch := decide (fieldOf w 0 8 ≠ fieldOf (s.rd a) 0 8)
  if ch && s.get (LANE_TX_STATUS_pd_bank n) = b then s.ret .state
  else if ch && s.on (LANE_TX_STATUS_pending n) && (nth s.conv n).swapPend then s.ret .state
  else plainWrite a LANE_TX_PDA_fs w s

/-! ## The lane's block reset (R53) -/

/-- The converter part of a block reset of lane n: a command under way ends without a record (R555). -/
def resetConv (n : Nat) (s : State) : State := updConv n (fun _ => {}) s

/-! ## Meanings -/

def execRxEnOn (q : Rq) (n : Fin 8) (w : Word) (s : State) : Out :=
  let w := force w (LANE_ADC_CTRL_rx_en n) 1
  .next (gated q (LANE_ADC_CTRL n) LANE_ADC_CTRL_fs w (wrAdcCtrl n w) s)

def execRxEnOff (q : Rq) (n : Fin 8) (w : Word) (s : State) : Out :=
  let w := force w (LANE_ADC_CTRL_rx_en n) 0
  .next (gated q (LANE_ADC_CTRL n) LANE_ADC_CTRL_fs w (wrAdcCtrl n w) s)

def execRotationResume (n : Fin 8) (s : State) : Out := .next (rotationResume n s)

def execSparePhaseEnd (n : Fin 8) (est : Int) (stuck : Bool) (s : State) : Out := .next (sparePhaseEnd n est stuck s)

def execSkewPhaseEnd (n : Fin 8) (est : Int) (s : State) : Out := .next (skewPhaseEnd n est s)

def execSlotHandover (n : Fin 8) (cont : SliceEst) (s : State) : Out := .next (slotHandover n cont s)

/-- The word of a calibration command. -/
def calWord (n op k : Nat) : Word := force (force 0 (LANE_CAL_CMD_op n) op) (LANE_CAL_CMD_slice n) k

def execHold (q : Rq) (n : Fin 8) (k : Fin 128) (s : State) : Out :=
  .next (gated q (LANE_CAL_CMD n) LANE_CAL_CMD_fs (calWord n 1 k) (calHold n k) s)

def execCalResume (q : Rq) (n : Fin 8) (k : Fin 128) (s : State) : Out :=
  .next (gated q (LANE_CAL_CMD n) LANE_CAL_CMD_fs (calWord n 2 k) (calResume n k) s)

def execRecal (q : Rq) (n : Fin 8) (k : Fin 128) (s : State) : Out :=
  .next (gated q (LANE_CAL_CMD n) LANE_CAL_CMD_fs (calWord n 3 k) (calRecal n k) s)

def execReleaseSlice (q : Rq) (n : Fin 8) (k : Fin 128) (s : State) : Out :=
  .next (gated q (LANE_CAL_CMD n) LANE_CAL_CMD_fs (calWord n 4 k) (calRelease n k) s)

def execSwingWrite (q : Rq) (n : Fin 8) (w : Word) (s : State) : Out :=
  .next (gated q (LANE_TX_CTRL n) LANE_TX_CTRL_fs w (wrTxCtrl n w) s)

def execFirCommit (q : Rq) (n : Fin 8) (w : Word) (s : State) : Out :=
  let w := force w (LANE_TX_COMMIT_fir n) 1
  .next (gated q (LANE_TX_COMMIT n) LANE_TX_COMMIT_fs w (wrTxCommit n w) s)

def execPdSwap (q : Rq) (n : Fin 8) (w : Word) (s : State) : Out :=
  let w := force w (LANE_TX_COMMIT_pd_swap n) 1
  .next (gated q (LANE_TX_COMMIT n) LANE_TX_COMMIT_fs w (wrTxCommit n w) s)

def execTxCommitApply (n : Fin 8) (s : State) : Out := .next (txCommitApply n s)

end Sys2Proof.Machine
end

