-- ==== Sys2Proof/Machine/Trellis.lean ====
section
/-! DEFINITION. The equaliser's output and the joint trellis of chapter 03 (R67 to R76): branches by puncture phase, branch metrics
from the level table, the survivors of a window, its decisions and their reliabilities. -/

namespace Sys2Proof.Machine

/-! ## Arithmetic of a branch -/

/-- The equaliser output of R67 and R68 in 1/16 LSB, from the taps (2^-10) and x[n + cursor - k] (1/16 LSB). -/
def eqOut (taps xs : List Int) : Int := clampI (-2048) 2047 (divEven (firSum taps xs) 1024)

/-- The level index of a branch (R72). -/
def levelIdx (s0 s1 s2 : Nat) : Nat := 16 * s0 + 4 * s1 + s2

/-- The branch metric of R72. -/
def branchMetric (w : Nat) (y mu : Int) (shift : Nat) : Nat :=
  min 1023 ((w * ((y - mu) * (y - mu)).toNat) / 2 ^ (shift + 4))

/-- The reliability of R75; no surviving path for the opposite value gives 15. -/
def reliability (delta : Option Nat) (shift : Nat) : Nat :=
  match delta with
  | some d => min 15 (d / 2 ^ shift)
  | none => 15

/-! ## What a symbol offers the trellis -/

/-- One symbol's equaliser output with the level table and the metric shift of its block (R69, R72). -/
structure Sym where
  y : Int
  lev : List (Int × Nat)
  shift : Nat
deriving DecidableEq, Repr, Inhabited

/-- Entry i of the table: its level and weight. -/
def Sym.entry (o : Sym) (i : Nat) : Int × Nat := nth o.lev i

/-- The metric of the branch with symbols s0, s1, s2. -/
def Sym.metric (o : Sym) (s0 s1 s2 : Nat) : Nat :=
  let e := o.entry (levelIdx s0 s1 s2)
  branchMetric e.2 o.y e.1 o.shift

/-- The symbol that slicing an output against the level table gives: that of the entry nearest to it, the first of equals (log 144). -/
def slice (lev : List (Int × Nat)) (y : Int) : Nat :=
  ((List.range 64).foldl (fun (b : Nat × Nat) i =>
    let d := (y - (nth lev i).1).natAbs
    if d < b.1 then (d, i / 16) else b) ((y - (nth lev 0).1).natAbs, 0)).2

/-! ## Branches (R70, R71) -/

/-- The encoder states that lead to code state v (its last three information bits, newest in bit 0) with puncture phase m, with
the symbol and the information bits of the step: one bit in phase 0, two in the others. -/
def codePreds (m v : Nat) : List (Nat × Nat × List Bool) :=
  let e := encBits v
  if m = 0 then
    (List.range 2).map fun x =>
      let x3 := decide (x = 1)
      let c := mother e.1 e.2.1 e.2.2 x3
      (v / 2 + 4 * x, grayPam c.1 c.2, [e.1])
  else
    (List.range 4).map fun x =>
      let x2 := decide (x % 2 = 1)
      let x3 := decide (x / 2 = 1)
      let a := mother e.2.1 e.2.2 x2 x3
      let b := mother e.1 e.2.1 e.2.2 x2
      (v / 4 + 2 * x, grayPam a.1 b.2, [e.2.1, e.1])

/-- In a compatibility mode the code states collapse: any symbol, with its two coded bits (R71). -/
def plainPreds : List (Nat × Nat × List Bool) :=
  (List.range 4).map fun t => (0, t, [(pamBits t).1, (pamBits t).2])

/-- The branches that end in joint state j = 16 code + 4 s[n] + s[n-1]: the joint state that each leaves, and its bits. -/
def branches (native : Bool) (m j : Nat) : List (Nat × List Bool) :=
  (if native then codePreds m (j / 16) else plainPreds).flatMap fun p =>
    if p.2.1 = j / 4 % 4 then (List.range 4).map fun t2 => (16 * p.1 + 4 * (j % 4) + t2, p.2.2) else []

/-- The number of joint states. -/
def jointStates (native : Bool) : Nat := if native then 128 else 16

/-- A surviving path: its joint state, its metric, and its symbols with their bits, newest first. -/
structure Path where
  j : Nat
  m : Nat
  dec : List (Nat × List Bool)
deriving DecidableEq, Repr, Inhabited

/-- The path of smaller metric. -/
def Path.better (a b : Path) : Path :=
  if a.m < b.m then a else if b.m < a.m then b else if Config.survivorTie a.j b.j then a else b

/-- The best of some paths. -/
def bestPath : List Path → Option Path
  | [] => none
  | a :: t => match bestPath t with
    | none => some a
    | some b => some (a.better b)

/-- The survivor of joint state j after a symbol (R70). -/
def survivor (native : Bool) (m : Nat) (o : Sym) (ps : List (Option Path)) (j : Nat) : Option Path :=
  let cand := (branches native m j).filterMap fun b =>
    (nth ps b.1).map fun p => { p with m := p.m + o.metric (j / 4 % 4) (j % 4) (b.1 % 4), dec := (j / 4 % 4, b.2) :: p.dec }
  (bestPath cand).map fun p => { p with j := j }

/-- The survivors of a run of symbols that begins at puncture phase m. -/
def survivors (native : Bool) : Nat → List Sym → List (Option Path) → List (Option Path)
  | _, [], ps => ps
  | m, o :: t, ps => survivors native ((m + 1) % 8) t ((List.range (jointStates native)).map (survivor native m o ps))

/-- The start of a pre-roll (R74): EQUAL gives every joint state metric 0; SEED gives 32 × seed_pen to those whose channel part does
not match the two symbols sliced before it. -/
def startPaths (native seed : Bool) (pen s1 s2 : Nat) : List (Option Path) :=
  (List.range (jointStates native)).map fun j =>
    some { j := j, m := if seed && decide (j % 16 ≠ 4 * s1 + s2) then 32 * pen else 0, dec := [] }

/-- The reliability of bit i of the step at place k of the decided path, among the paths that survive (R75). -/
def bitRel (best : Path) (ps : List Path) (k i shift : Nat) : Nat :=
  let b := nth (nth best.dec k).2 i
  let opp := ps.filterMap fun p => if nth (nth p.dec k).2 i ≠ b then some (p.m - best.m) else none
  reliability (opp.min?) shift

/-- A window's decisions, oldest first: each symbol, and its bits with their reliabilities. -/
def windowDecide (ps : List (Option Path)) (relShift : Nat) : List (Nat × List (Bool × Nat)) :=
  let live := ps.filterMap id
  match bestPath live with
  | none => []
  | some best => (best.dec.zipIdx.map fun d =>
      (d.1.1, d.1.2.zipIdx.map fun b => (b.1, bitRel best live d.2 b.2 relShift))).reverse

/-- What a lane's detector is set to: the inner code or none (R71), the start metrics, the reliability shift. -/
structure Trellis where
  native : Bool
  seed : Bool
  pen : Nat
  relShift : Nat

/-- One window (R74): the two symbols before its pre-roll, then its 96 symbols, the first at puncture phase m. -/
def trellisWindow (t : Trellis) (m : Nat) (before : List Sym) (syms : List Sym) : List (Nat × List (Bool × Nat)) :=
  let s1 := slice (nth before 1).lev (nth before 1).y
  let s2 := slice (nth before 0).lev (nth before 0).y
  windowDecide (survivors t.native m syms (startPaths t.native t.seed t.pen s1 s2)) t.relShift

/-- The windows of a block: `l` holds the 18 symbols before the block, the block, and 16 symbols after it. -/
def windows (t : Trellis) (m : Nat) : Nat → List Sym → List (List (Nat × List (Bool × Nat)))
  | 0, _ => []
  | n + 1, l => trellisWindow t m (l.take 2) ((l.drop 2).take 96) :: windows t m n (l.drop 64)

/-- The symbols on which neighbouring windows differ in their overlaps of 32 (R76); `old` is the end of the window before. -/
def seamCount : List Nat → List (List (Nat × List (Bool × Nat))) → Nat
  | _, [] => 0
  | old, w :: t =>
    let sy := w.map Prod.fst
    ((old.zip (sy.take 32)).filter fun p => decide (p.1 ≠ p.2)).length + seamCount (sy.drop 64) t

end Sys2Proof.Machine
end

