-- ==== Sys2Proof/Machine/Det.lean ====
section
/-! DEFINITION. Equaliser, timing recovery and joint trellis detection (chapter 03): what a block of samples gives in the state of
its lane (R67 to R77, R84, R88), the loop of R78, the steps of R85, and the meanings of the receiver's commands and events. -/

namespace Sys2Proof.Machine

/-! ## Datapath arithmetic -/

/-- 1 ppm in integrator units (LANE_TR_FREQ). -/
def ppmUnits : Nat := 4295

/-- A timing error in 2^-16 UI scaled by 2^-ki_shift in integrator units of 2^-32 UI (R69): where it is no whole number, the manual
does not say which neighbour it becomes (log 145). -/
def kiStep (ki : Nat) (eps : Int) : Int :=
  if ki ≤ 16 then eps * (2 ^ (16 - ki) : Nat)
  else
    let d : Nat := 2 ^ (ki - 16)
    eps.fdiv d + (if eps.fmod d ≠ 0 ∧ Config.loopRound eps ki then 1 else 0)

/-- The loop update of R78: the integrator in 2^-32 UI, the phase in 2^-40 UI, from the block's timing error in 2^-16 UI. -/
def loopStep (d : Det) (eps : Int) : Int × Int :=
  let lim : Int := d.fLim * ppmUnits
  let f := clampI (-lim) lim (d.freq + kiStep d.ki eps)
  (f, d.phase + 4096 * 256 * f + eps * (2 ^ (24 - d.kp) : Nat))

/-! ## Shared pieces -/

def updDet (n : Nat) (f : Det → Det) (s : State) : State := { s with det := upd s.det n f }

/-- The unit u of lane n changed by `f`. -/
def updLms (n u : Nat) (f : LmsUnit → LmsUnit) (s : State) : State := updDet n (fun d => { d with lms := upd d.lms u f }) s

/-- Event flag `b` of LANE_DET_EVT, event 32 + 16 n + b. -/
def detEvt (n b : Nat) (s : State) : State := s.flag ⟨LANE_DET_EVT n, b, 1⟩ (32 + 16 * n + b)

/-- The receiver's state: 0 OFF, 1 ACQUIRE, 2 DETECT, 3 LOCKED, 4 LOST. -/
def detState (n : Nat) (s : State) : Nat := s.get (LANE_DET_STATUS_state n)

/-- The level table in force: the active bank's levels and weights (R72, R73). -/
def activeLevels (n : Nat) (s : State) : List (Int × Nat) :=
  let b := s.on (LANE_TRL_CTRL_bank n)
  (List.range 64).map fun i =>
    if b then (s.geti (LANE_TRL_LEVB_level n i), s.get (LANE_TRL_LEVB_weight n i))
    else (s.geti (LANE_TRL_LEVA_level n i), s.get (LANE_TRL_LEVA_weight n i))

/-- The effective values of the 48 taps (R67). -/
def effTaps (n : Nat) (s : State) : List Int := (List.range 48).map fun k => s.geti (LANE_EQ_TAP_eff n k)

/-- A LMS command reaches its final code `c`, with LMS_DONE (R87). -/
def lmsReport (n u op : Nat) (c : Code) (reason : Nat) (s : State) : State :=
  let s := (s.set (LANE_LMS_STAT_op n u) op).set (LANE_LMS_STAT_outcome n u) c.n
  detEvt n 9 (s.set (LANE_LMS_STAT_reason n u) reason)

/-- The LMS command under way ends (R87). An ACCUM that is aborted leaves an earlier one's completion standing, so an APPLY is then
accepted with the gradients as they are (DESIGN CHOICE, log 146). -/
def lmsEnd (n u : Nat) (c : Code) (reason : Nat) (s : State) : State :=
  let op := if (nth (nth s.det n).lms u).phase = 3 then 2 else 1
  let s := updLms n u (fun x => { x with phase := 0 }) s
  lmsReport n u op c reason (s.set (LANE_LMS_STAT_busy n u) 0)

/-- The ACCUM that has taken its last sample ends DONE (R87). -/
def accumEnd (n u : Nat) (s : State) : State := lmsEnd n u .done 0 (updLms n u (fun x => { x with accDone := true }) s)

/-- The receiver enters state `t`: lock bit, framer, monitor and running ACCUMs follow (R87, R91, R93, R116). -/
def setDet (n t : Nat) (s : State) : State :=
  let old := detState n s
  if old = t then s
  else
    let s := (s.set (LANE_DET_STATUS_state n) t).set (LANE_DET_STATUS_locked n) (if t = 3 then 1 else 0)
    let s := if old = 4 then s.set (LANE_DET_STATUS_lost_reason n) 0 else s
    let s := if old = 0 then
        updDet n (fun d => { d with winBlocks := 0, winCount := 0, freqPin := true, winLen := s.get (LANE_DET_MON_mon_len n) }) s
      else s
    let s := if t = 2 then updDet n (fun d => { d with winMet := none, seamBad := 0 }) s else s
    let s := forN 4 (fun u s =>
      let x := nth (nth s.det n).lms u
      if x.phase = 2 ∧ x.left = 0 then accumEnd n u s else if x.phase = 1 ∨ x.phase = 2 then lmsEnd n u .aborted 2 s else s) s
    let s := if t = 3 then detEvt n 6 s else if t = 4 then detEvt n 7 s else s
    if (old = 2 ∨ old = 3) ∧ t ≠ 2 ∧ t ≠ 3 then framerLost n (updFrm n (fun f => { f with rx := {} }) s) else s

/-- A receiver command reaches its final code `c`, with DET_CMD_DONE (R92). -/
def detReport (n op : Nat) (c : Code) (reason : Nat) (s : State) : State :=
  let s := (s.set (LANE_DET_RESULT_op n) op).set (LANE_DET_RESULT_outcome n) c.n
  detEvt n 10 (s.set (LANE_DET_RESULT_reason n) reason)

/-- The HELD receiver command ends (R92). -/
def detCmdEnd (n : Nat) (c : Code) (reason : Nat) (s : State) : State :=
  match (nth s.det n).cmd with
  | some op => detReport n op c reason (updDet n (fun d => { d with cmd := none }) s)
  | none => s

/-- The receiver is lost (R93): a HELD command ends ABORTED, reason LOST. -/
def detLost (n reason : Nat) (s : State) : State :=
  let s := detCmdEnd n .aborted 2 s
  (setDet n 4 s).set (LANE_DET_STATUS_lost_reason n) reason

/-- det_en = 0 (R92): OFF; a pending command and the LMS units end ABORTED, reason OFF; an ACCUM that has taken its last sample ends
DONE. A histogram run stays under way and goes on with the receiver's next blocks (DESIGN CHOICE, log 146). -/
def detOff (n : Nat) (s : State) : State :=
  let s := detCmdEnd n .aborted 1 s
  let s := forN 4 (fun u s =>
    let x := nth (nth s.det n).lms u
    if x.phase = 2 ∧ x.left = 0 then accumEnd n u s else if x.phase ≠ 0 then lmsEnd n u .aborted 1 s else s) s
  setDet n 0 s

/-- OFF to ACQUIRE once det_en = 1 and fg_done = 1 (R92). Before the first block stand samples, outputs and symbols of 0 and no seam
(DESIGN CHOICE, log 166). -/
def detStart (n : Nat) (s : State) : State :=
  if s.on (LANE_DET_CTRL_det_en n) && s.on (LANE_ADC_STATUS_fg_done n) && detState n s = 0 then
    setDet n 1 (updDet n (fun d => { d with low := 0, xTail := List.replicate 47 0, yTail := List.replicate 18 0, levTail := [],
                                             bmTail := d.bmShift, decTail := [0, 0], seamTail := [] }) s)
  else s

/-! ## Reduced-tap mode (R94, R95) -/

/-- A tap inside the reduced window. -/
def tapKept (n k : Nat) (s : State) : Bool :=
  let r := s.get (LANE_EQ_CTRL_red_first n)
  decide (r ≤ k) && decide (k < r + 24)

/-- Reduced-tap mode begins or ends as the throttle threshold and red_force say (R94). -/
def reduceEval (n : Nat) (s : State) : State :=
  let want := s.on TH_STAT_throttle || s.on (LANE_DET_CTRL_red_force n)
  if want = s.on (LANE_DET_STATUS_reduced n) then s
  else if want then
    let s := forN 48 (fun k s => if tapKept n k s then s else s.set (LANE_EQ_TAP_gated n k) 1) s
    detEvt n 11 (s.set (LANE_DET_STATUS_reduced n) 1)
  else detEvt n 11 (s.set (LANE_DET_STATUS_reduced n) 0)

/-- One ramp tick of a gated tap (R94). -/
def gatedTap (n k : Nat) (s : State) : State :=
  if s.on (LANE_EQ_TAP_gated n k) then
    if s.on (LANE_DET_STATUS_reduced n) && !tapKept n k s then
      s.seti (LANE_EQ_TAP_eff n k) (towards (s.geti (LANE_EQ_TAP_eff n k)) 0 8)
    else
      let c := s.geti (LANE_EQ_TAP_coef n k)
      let e := towards (s.geti (LANE_EQ_TAP_eff n k)) c 8
      let s := s.seti (LANE_EQ_TAP_eff n k) e
      if e = c then s.set (LANE_EQ_TAP_gated n k) 0 else s
  else s

/-- LANE_DET_STATUS.red_ramp: a gated tap still moves. -/
def redRamp (n : Nat) (s : State) : Bool :=
  (List.range 48).any fun k => s.on (LANE_EQ_TAP_gated n k) &&
    (!s.on (LANE_DET_STATUS_reduced n) || decide (s.get (LANE_EQ_TAP_eff n k) ≠ 0))

/-- One ramp tick of the equaliser of lane n. -/
def rampDet (n : Nat) (s : State) : State :=
  let s := forN 48 (gatedTap n) s
  s.set (LANE_DET_STATUS_red_ramp n) (if redRamp n s then 1 else 0)

/-! ## The block boundary (R69) -/

/-- A 32-bit signed saturating gradient register from its exact sum (R84). -/
def gradOf (kind : Nat) (sum : Int) : Int := satI 32 (if kind = 0 then sum.fdiv 256 else sum)

/-- One sample of an accumulating unit (R84). -/
def lmsSample (n u : Nat) (o : LmsObs) (s : State) : State :=
  let x := nth (nth s.det n).lms u
  if x.phase = 2 ∧ 0 < x.left then
    let kind := fieldOf x.cfg 0 1
    let first := fieldOf x.cfg 2 6
    let cnt := fieldOf x.cfg 8 3 + 1
    let sums := (List.range 8).map fun j =>
      if j < cnt then
        nth x.sums j + (if kind = 0 then o.e * nth o.x (first + j) else if o.idx = first + j then o.e else 0)
      else nth x.sums j
    let s := updLms n u (fun x => { x with sums := sums, left := x.left - 1 }) s
    forN cnt (fun j s => s.seti ⟨LANE_LMS_GRAD n u j, 0, 32⟩ (gradOf kind (nth sums j))) s
  else s

/-- An ACCUM that waits for the boundary clears its gradients and starts (R84). -/
def lmsStart (n u : Nat) (s : State) : State :=
  let x := nth (nth s.det n).lms u
  if x.phase = 1 then
    let s := updLms n u (fun x => { x with phase := 2, left := 2 ^ (8 + fieldOf x.cfg 12 4), sums := List.replicate 8 0 }) s
    forN 8 (fun j s => s.wr (LANE_LMS_GRAD n u j) 0) s
  else s

/-- One histogram and eye sample (R88, R89). The selection, the level and the bin width are those of the register at the sample
(DESIGN CHOICE, log 146). -/
def histSample (n : Nat) (o : HistObs) (s : State) : State :=
  let d := nth s.det n
  if d.hist = 2 ∧ 0 < d.histLeft then
    let s := updDet n (fun d => { d with histLeft := d.histLeft - 1, histPos := (d.histPos + 1) % 4096 }) s
    let b := (clampI 0 63 (o.e.fdiv (2 ^ s.get (LANE_HIST_CTRL_bin_shift n) : Nat) + 32)).toNat
    let s := if s.get (LANE_HIST_CTRL_sel n) = 0 ∨ s.get (LANE_HIST_CTRL_level n) = o.dec then
        s.addSat (LANE_HIST_BIN_count n b) 1
      else s
    forN 3 (fun j s =>
      let thr := s.geti (LANE_EYE_CTRL_thr n j)
      let s := if o.dec = j + 1 ∧ o.y ≤ thr then s.addSat (LANE_EYE_CNT_count n (2 * j)) 1 else s
      if o.dec = j ∧ thr ≤ o.y then s.addSat (LANE_EYE_CNT_count n (2 * j + 1)) 1 else s) s
  else s

/-- A histogram run that waits for the boundary starts (R88); its first sample lies at block offset 0 (DESIGN CHOICE, log 166). -/
def histStart (n : Nat) (s : State) : State :=
  if (nth s.det n).hist = 1 then
    let s := forN 64 (fun b s => s.wr (LANE_HIST_BIN n b) 0) s
    let s := forN 6 (fun j s => s.wr (LANE_EYE_CNT n j) 0) s
    updDet n (fun d => { d with hist := 2, histLeft := 2 ^ (10 + s.get (LANE_HIST_CTRL_len n)), histPos := 0 }) s
  else s

/-- The timing loop over one block (R78, R79; in LOST the proportional path is open and f holds, R93). -/
def timingStep (n : Nat) (eps : Int) (s : State) : State :=
  let d := nth s.det n
  let lim : Int := d.fLim * ppmUnits
  let fp := if d.trEn && detState n s = 4 then (d.freq, d.phase + 4096 * 256 * d.freq)
    else if d.trEn then loopStep d eps
    else
      let cur : Int := s.get (LANE_TR_PHASE_phase n)
      let df := sgn 8 (enc 8 ((s.get (LANE_TR_PHASE_set n) : Int) - cur))
      (d.freq, if df = 0 then cur * 2 ^ 32 else (cur + clampI (-1) 1 df) * 2 ^ 32)
  let s := updDet n (fun d => { d with freq := fp.1, phase := fp.2 }) s
  let was := s.on (LANE_TR_FREQ_at_lim n)
  let is := decide (fp.1 = lim ∨ fp.1 = -lim)
  let s := s.seti (LANE_TR_FREQ_freq n) fp.1
  let s := s.set (LANE_TR_FREQ_at_lim n) (if is then 1 else 0)
  let s := s.set (LANE_TR_PHASE_phase n) (enc 8 (fp.2.fdiv (2 ^ 32)))
  let s := s.set (LANE_TR_PHASE_moving n)
    (if !d.trEn && s.get (LANE_TR_PHASE_phase n) ≠ s.get (LANE_TR_PHASE_set n) then 1 else 0)
  let s := updDet n (fun d => { d with freqPin := d.freqPin && is }) s
  if is && !was then detEvt n 12 s else s

/-- The change that an APPLY of unit `x` makes to entry `i` of its kind, before the step limit, if the entry is in range. -/
def lmsChange (n u i : Nat) (x : LmsUnit) (s : State) : Option Int :=
  let kind := fieldOf x.cfg 0 1
  let first := fieldOf x.cfg 2 6
  if first ≤ i ∧ i ≤ first + fieldOf x.cfg 8 3 then
    let g := s.geti ⟨LANE_LMS_GRAD n u (i - first), 0, 32⟩
    let r := divEven g (2 ^ x.mu)
    some (if kind = 0 then -r else r)
  else none

/-- The units with an APPLY to kind `kind` that changes entry `i`, with their changes. -/
def lmsOn (n kind i : Nat) (s : State) : List (Nat × Int) :=
  (List.range 4).filterMap fun u =>
    let x := nth (nth s.det n).lms u
    if x.phase = 3 ∧ fieldOf x.cfg 0 1 = kind then (lmsChange n u i x s).map fun d => (u, d) else none

/-- The limited sum of the changes to an entry and whether anything was limited (R85, R86). A unit whose rounded change is 0 counts among
the units that change the entry (DESIGN CHOICE, log 166). -/
def lmsSum (lim : Nat) (old : Int) (ds : List (Nat × Int)) : Int × Bool :=
  let each := ds.map fun d => clampI (-(lim : Int)) lim d.2
  let sum := clampI (-(lim : Int)) lim each.sum
  let v := satI 12 (old + sum)
  (v, decide (1 < ds.length) || decide (v ≠ old + sum) || ds.any fun d => decide (d.2 ≠ clampI (-(lim : Int)) lim d.2))

/-- The clamped bits of the units that changed entry `i`. -/
def lmsMark (n i : Nat) (ds : List (Nat × Int)) (s : State) : State :=
  ds.foldl (fun s d =>
    let x := nth (nth s.det n).lms d.1
    s.set ⟨LANE_LMS_STAT n d.1, 16 + (i - fieldOf x.cfg 2 6), 1⟩ 1) s

/-- The APPLYs of the boundary on tap `k`: a direct write stands (R83). -/
def applyTap (n k : Nat) (s : State) : State :=
  let ds := lmsOn n 0 k s
  if ds.isEmpty then s
  else if (nth s.det n).tapPend.contains k then lmsMark n k ds s
  else
    let r := lmsSum (s.get (LANE_EQ_CTRL_step_max n)) (s.geti (LANE_EQ_TAP_coef n k)) ds
    let s := s.seti (LANE_EQ_TAP_coef n k) r.1
    let s := if s.on (LANE_EQ_TAP_gated n k) then s else s.seti (LANE_EQ_TAP_eff n k) r.1
    if r.2 then lmsMark n k ds s else s

/-- The APPLYs of the boundary on level `i` of the active bank. -/
def applyLevel (n i : Nat) (s : State) : State :=
  let ds := lmsOn n 1 i s
  let f := if s.on (LANE_TRL_CTRL_bank n) then LANE_TRL_LEVB_level n i else LANE_TRL_LEVA_level n i
  if ds.isEmpty then s
  else
    let r := lmsSum (s.get (LANE_TRL_CTRL_lvl_step_max n)) (s.geti f) ds
    let s := s.seti f r.1
    if r.2 then lmsMark n i ds s else s

/-- A swap at the boundary aborts APPLYs to levels, reason COMMIT, and exchanges the banks (R73, R87). -/
def swapApply (n : Nat) (s : State) : State :=
  if s.on (LANE_TRL_CTRL_pending n) then
    let s := forN 4 (fun u s =>
      let x := nth (nth s.det n).lms u
      if x.phase = 3 ∧ fieldOf x.cfg 0 1 = 1 then lmsEnd n u .aborted 3 s else s) s
    let s := s.set (LANE_TRL_CTRL_bank n) (1 - s.get (LANE_TRL_CTRL_bank n))
    detEvt n 14 ((s.set (LANE_TRL_CTRL_pending n) 0).set (LANE_TRL_CTRL_outcome n) 0)
  else s

/-- The APPLYs of the boundary (R85 to R87). The clamped bits return to 0 at the boundary of their unit's next APPLY (DESIGN CHOICE,
log 146). -/
def lmsApply (n : Nat) (s : State) : State :=
  let s := forN 4 (fun u s =>
    if (nth (nth s.det n).lms u).phase = 3 then s.set (LANE_LMS_STAT_clamped n u) 0 else s) s
  let s := forN 64 (applyLevel n) (forN 48 (applyTap n) s)
  forN 4 (fun u s => if (nth (nth s.det n).lms u).phase = 3 then lmsEnd n u .done 0 s else s) s

/-- Direct tap writes take effect (R83), also where the tap has become gated since the write (DESIGN CHOICE, log 146). -/
def tapsApply (n : Nat) (s : State) : State :=
  let s := (nth s.det n).tapPend.foldl (fun s k => s.set (LANE_EQ_TAP_eff n k) (s.get (LANE_EQ_TAP_coef n k))) s
  updDet n (fun d => { d with tapPend := [] }) s

/-- The configuration that changes at block boundaries takes effect. -/
def detCfgApply (n : Nat) (s : State) : State :=
  updDet n (fun d => { d with
    seamMode := s.get (LANE_DET_CTRL_seam_mode n), seedPen := s.get (LANE_DET_CTRL_seed_pen n),
    relShift := s.get (LANE_DET_CTRL_rel_shift n), bmShift := s.get (LANE_DET_CTRL_bm_shift n),
    trEn := s.on (LANE_TR_CTRL_tr_en n), kp := s.get (LANE_TR_CTRL_kp_shift n),
    ki := s.get (LANE_TR_CTRL_ki_shift n), fLim := s.get (LANE_TR_CTRL_freq_lim n) }) s

/-- A HELD ACQUIRE or DETECT is done at the boundary (R92). -/
def detCmdApply (n : Nat) (s : State) : State :=
  match (nth s.det n).cmd with
  | some 1 => detCmdEnd n .done 0 (setDet n 1 s)
  | some 2 => detCmdEnd n .done 0 (setDet n 2 s)
  | _ => s

/-! ## A block of samples (R67 to R77) -/

/-- Successive equaliser outputs: the taps in reverse against the samples from the oldest that each output takes (R67). -/
def slideEq (rtaps : List Int) : Nat → List Int → List Int
  | 0, _ => []
  | k + 1, l => eqOut rtaps l :: slideEq rtaps k l.tail

/-- The sum of R77 over a block, from the output and symbol before it. -/
def mmSum : Int → Nat → List Int → List Nat → Int
  | y1, d1, y :: ys, d :: ds => y * amplitude d1 - y1 * amplitude d + mmSum y d ys ds
  | _, _, [], _ => 0
  | _, _, _, [] => 0

/-- ε from the sum of R77, scaled by the slope p / (q + 1) of the level table; the slope and the rounding to a neighbour are free
(log 144). -/
def timingError (levels : List Int) (sum : Int) : Int :=
  let k := Config.timingSlope levels
  let d : Nat := k.2 + 1
  (sum * k.1).fdiv d + (if (sum * k.1).fmod d ≠ 0 ∧ Config.timingRound (sum * k.1) d then 1 else 0)

/-- What the samples of a block give: corrected samples from 47 before the block on, equaliser outputs, decided symbols from two
before the block on, the detector's bits, the end of its last window, the seam mismatches. -/
structure View where
  xs : List Int
  ys : List Int
  dec : List Nat
  bits : List (Bool × Nat)
  seam : List Nat
  seams : Nat

/-- The boundary's changes to taps and levels, which the symbols after it already meet (R69). -/
def boundaryTaps (n : Nat) (s : State) : State := tapsApply n (lmsApply n (swapApply n s))

/-- The block's symbols with the 18 before it and the 16 after it, each with the taps and levels of its own block (R69, R74). -/
def blockSyms (n : Nat) (ys post : List Int) (s : State) : List Sym :=
  let d := nth s.det n
  let lev := activeLevels n s
  let lev' := activeLevels n (boundaryTaps n s)
  d.yTail.map (fun y => ⟨y, d.levTail, d.bmTail⟩) ++ ys.map (fun y => ⟨y, lev, d.bmShift⟩) ++
    post.map (fun y => ⟨y, lev', s.get (LANE_DET_CTRL_bm_shift n)⟩)

/-- The detector's setting in force; in a compatibility mode the code states collapse (R71, R74). -/
def trellisOf (n : Nat) (s : State) : Trellis :=
  let d := nth s.det n
  { native := decide (s.get (FRM_LANE_CTRL_mode n) = 0), seed := decide (d.seamMode = 1), pen := d.seedPen, relShift := d.relShift }

/-- A block of raw codes of lane n, with the codes that follow it as far as the equaliser and the post-roll reach (R33, R67, R74). In
ACQUIRE the decisions are the slicer's, else the detector's (R77, R92). -/
def blockView (n : Nat) (codes look : List Int) (s : State) : View :=
  let d := nth s.det n
  let len := codes.length
  let xs := d.xTail ++ adcSamples n 0 (codes ++ look) s
  let cur := s.get (LANE_EQ_CTRL_cursor n)
  let ys := slideEq (effTaps n s).reverse len (xs.drop cur)
  let post := slideEq (effTaps n (boundaryTaps n s)).reverse 16 (xs.drop (len + cur))
  let ws := windows (trellisOf n s) (s.get (FRM_LANE_STATUS_pphase n)) (len / 64) (blockSyms n ys post s)
  let cen := ws.flatMap fun w => (w.drop 16).take 64
  let dec := if detState n s = 1 then ys.map (slice (activeLevels n s)) else cen.map Prod.fst
  { xs, ys, dec := d.decTail.reverse ++ dec, bits := cen.flatMap Prod.snd,
    seam := match ws.getLast? with | some w => (w.drop 64).map Prod.fst | none => d.seamTail
    seams := seamCount d.seamTail ws }

/-- The index of the decided branch at block offset i (R72). -/
def View.idx (v : View) (i : Nat) : Nat := levelIdx (nth v.dec (i + 2)) (nth v.dec (i + 1)) (nth v.dec i)

/-- The error at block offset i: the output less the level of the decided branch (R84). -/
def View.err (v : View) (lev : List (Int × Nat)) (i : Nat) : Int := nth v.ys i - (nth lev (v.idx i)).1

/-- What a block shows the loops, the monitor, the LMS units and the histogram (R76, R77, R84, R88, R93). -/
def blockObs (n : Nat) (v : View) (s : State) : BlockObs :=
  let d := nth s.det n
  let lev := activeLevels n s
  let cur := s.get (LANE_EQ_CTRL_cursor n)
  { eps := timingError (lev.map Prod.fst) (mmSum (d.yTail.getLastD 0) (nth d.decTail 0) v.ys (v.dec.drop 2))
    meanY := ((v.ys.map Int.natAbs).sum) / (16 * v.ys.length)
    seams := v.seams
    lms := (List.range 4).map fun u =>
      let p := fieldOf (nth d.lms u).cfg 16 12
      { e := v.err lev p, idx := v.idx p, x := (List.range 48).map fun k => nth v.xs (47 + p + cur - k) }
    hist := { y := nth v.ys d.histPos, dec := nth v.dec (d.histPos + 2), e := v.err lev d.histPos } }

/-- Bits with their reliabilities appended to a run. -/
def Soft.push (r : Soft) (l : List (Bool × Nat)) : Soft :=
  { bits := r.bits + 2 ^ r.len * packBools (l.map Prod.fst), rel := r.rel + 16 ^ r.len * packBits 4 (l.map Prod.snd),
    len := r.len + l.length }

/-- The detector hands its bits to the framer of a native lane; in a compatibility mode to the standard's inner decoder, whose bits go
to the host side (R70, R71, R120). -/
def giveBits (n : Nat) (l : List (Bool × Nat)) (s : State) : State :=
  if detState n s = 2 ∨ detState n s = 3 then
    if fstate n s ≠ 0 then updFrm n (fun f => { f with rx := f.rx.push l }) s
    else if s.on (FRM_LANE_CTRL_up n) then
      let r := ({} : Soft).push l
      updFrm n (fun f => { f with inner := Config.innerDecode r.bits r.rel r.len }) s
    else s
  else s

/-- The block leaves its end to the next one. -/
def keepTail (n : Nat) (v : View) (s : State) : State :=
  let lev := activeLevels n s
  updDet n (fun d => { d with
    xTail := (v.xs.drop v.ys.length).take 47, yTail := (d.yTail ++ v.ys).drop v.ys.length, levTail := lev, bmTail := d.bmShift,
    decTail := (v.dec.drop (v.dec.length - 2)).reverse, seamTail := v.seam }) s

/-- The receiver's work on a block by what it shows: the samples and loops, the SIGNAL criterion, then every change of the boundary.
An APPLY is carried out in LOST too (DESIGN CHOICE, log 146). -/
def blockStep (n : Nat) (o : BlockObs) (s : State) : State :=
  let was := (nth s.det n).low
  let s := forN 4 (fun u s => lmsSample n u (nth o.lms u) s) s
  let s := timingStep n o.eps (histSample n o.hist s)
  let s := updDet n (fun d => { d with
    winCount := d.winCount + o.seams, winBlocks := d.winBlocks + 1,
    low := if o.meanY < s.get (LANE_DET_MON_sig_min n) then d.low + 1 else 0 }) s
  let s := if (detState n s = 2 ∨ detState n s = 3) ∧ (256 ≤ was ∨ 256 ≤ (nth s.det n).low) then detLost n 1 s else s
  let s := detCfgApply n (boundaryTaps n s)
  let s := forN 4 (lmsStart n) (histStart n s)
  detCmdApply n s

/-- BLOCK_BOUNDARY (R69): a block's raw codes, with those that follow it, are equalised and detected; the bits go on, the loops and
the criteria act, and every change of the boundary takes effect. In OFF only what waits for a boundary takes effect (log 34). -/
def blockBoundary (n : Nat) (codes look : List Int) (s : State) : State :=
  if blkHeld n s then s
  else if detState n s = 0 then detCfgApply n (boundaryTaps n s)
  else
    let v := blockView n codes look s
    blockStep n (blockObs n v s) (keepTail n v (giveBits n v.bits s))

/-- What a completed window in DETECT means for a HELD LOCK (R92). -/
def lockJudge (n : Nat) (met : Bool) (s : State) : State :=
  if met then detCmdEnd n .done 0 (setDet n 3 s) else detCmdEnd n .state 0 s

/-- MONITOR_WINDOW_END (R76, R93): after the window's blocks; the count, SEAM_WARN, the loss criteria, a HELD LOCK. Where SEAM and FREQ
are met at one window's end the reason is SEAM (DESIGN CHOICE, log 166). -/
def monitorWindowEnd (n : Nat) (s : State) : State :=
  let d := nth s.det n
  if detState n s = 0 ∨ d.winBlocks < 2 ^ (10 + d.winLen) then s
  else
    let st := detState n s
    let met := decide (d.winCount ≤ 16 * s.get (LANE_DET_MON_lock_thr n))
    let bad := if (st = 2 ∨ st = 3) ∧ 256 * s.get (LANE_DET_MON_loss_thr n) < d.winCount then d.seamBad + 1 else 0
    let s := s.set (LANE_SEAM_CNT_count n) (min d.winCount (2 ^ 24 - 1))
    let s := s.incMod (LANE_SEAM_CNT_windows n)
    let s := updDet n (fun d => { d with
      winBlocks := 0, winCount := 0, freqPin := true, seamBad := bad, winLen := s.get (LANE_DET_MON_mon_len n),
      winMet := if st = 2 then some met else d.winMet }) s
    let s := if st = 3 && !met then detEvt n 8 s else s
    if (st = 2 ∨ st = 3) ∧ 4 ≤ bad then detLost n 2 s
    else if (st = 2 ∨ st = 3) ∧ d.freqPin then detLost n 3 s
    else if st = 2 ∧ d.cmd = some 3 then lockJudge n met s
    else s

/-! ## Receiver commands (R92) -/

/-- The command ends at once. -/
def detNow (n op : Nat) (c : Code) (s : State) : State :=
  (detReport n op c 0 s).ret c

/-- The command is HELD. -/
def detHold (n op : Nat) (s : State) : State :=
  let s := updDet n (fun d => { d with cmd := some op }) s
  let s := (s.set (LANE_DET_RESULT_op n) op).set (LANE_DET_RESULT_outcome n) Code.held.n
  (s.set (LANE_DET_RESULT_reason n) 0).ret .held

def detBusy (n : Nat) (s : State) : Bool := (nth s.det n).cmd.isSome

/-- ACQUIRE. -/
def detAcquire (n : Nat) (s : State) : State :=
  if detBusy n s then detNow n 1 .state s
  else match detState n s with
    | 1 => detNow n 1 .done s
    | 4 => detHold n 1 s
    | _ => detNow n 1 .state s

/-- DETECT. -/
def detDetect (n : Nat) (s : State) : State :=
  if detBusy n s then detNow n 2 .state s
  else match detState n s with
    | 1 => detHold n 2 s
    | 2 => detNow n 2 .done s
    | 4 => detHold n 2 s
    | _ => detNow n 2 .state s

/-- LOCK. -/
def detLock (n : Nat) (s : State) : State :=
  if detBusy n s then detNow n 3 .state s
  else match detState n s with
    | 2 =>
      match (nth s.det n).winMet with
      | some true => detNow n 3 .done (setDet n 3 s)
      | some false => detNow n 3 .state s
      | none => detHold n 3 s
    | 3 => detNow n 3 .done s
    | _ => detNow n 3 .state s

/-- DROP. -/
def detDrop (n : Nat) (s : State) : State :=
  if detBusy n s then detNow n 4 .state s
  else match detState n s with
    | 0 => detNow n 4 .state s
    | _ => detNow n 4 .done (setDet n 1 s)

/-- A write of LANE_DET_CMD: op 0 and 5 to 7 end ERR_RANGE in OFF and beside a HELD command too (DESIGN CHOICE, log 166). -/
def wrDetCmd (n : Nat) (w : Word) (s : State) : State :=
  match wf w (LANE_DET_CMD_op n) with
  | 1 => detAcquire n s
  | 2 => detDetect n s
  | 3 => detLock n s
  | 4 => detDrop n s
  | op => detNow n op .range s

/-! ## Register hooks -/

/-- A write of LANE_DET_CTRL (R92, R94). -/
def wrDetCtrl (n : Nat) (w : Word) (s : State) : State :=
  if 2 ≤ wf w (LANE_DET_CTRL_seam_mode n) then s.ret .range
  else
    let was := s.on (LANE_DET_CTRL_det_en n)
    let s := s.store (LANE_DET_CTRL n) LANE_DET_CTRL_fs w
    let s := reduceEval n s
    (if s.on (LANE_DET_CTRL_det_en n) then detStart n s else if was then detOff n s else s).ret .done

/-- A write of LANE_EQ_CTRL (R95 and the register's fields). -/
def wrEqCtrl (n : Nat) (w : Word) (s : State) : State :=
  let cur := wf w (LANE_EQ_CTRL_cursor n)
  let anc := wf w (LANE_EQ_CTRL_anchor n)
  let red := wf w (LANE_EQ_CTRL_red_first n)
  let chC := s.chg w (LANE_EQ_CTRL_cursor n)
  let chR := s.chg w (LANE_EQ_CTRL_red_first n)
  if 48 ≤ cur ∨ (48 ≤ anc ∧ anc ≠ 63) then s.ret .range
  else if (chC || chR) && !(decide (red ≤ 24) && decide (red ≤ cur) && decide (cur ≤ red + 23)) then s.ret .range
  else if chR && s.on (LANE_DET_STATUS_reduced n) then s.ret .state
  else if chC && detState n s ≠ 0 && detState n s ≠ 1 then s.ret .state
  else plainWrite (LANE_EQ_CTRL n) LANE_EQ_CTRL_fs w s

/-- EQ_TAP_WRITE (R82, R83, R95): a gated tap is refused before its step is judged (DESIGN CHOICE, log 166). -/
def wrEqTap (n k : Nat) (w : Word) (s : State) : State :=
  let new := sgn 12 (wf w (LANE_EQ_TAP_coef n k))
  let old := s.geti (LANE_EQ_TAP_coef n k)
  if !s.chg w (LANE_EQ_TAP_coef n k) then s.ret .done
  else if s.on (LANE_EQ_TAP_gated n k) then s.ret .state
  else if locked n s && s.get (LANE_EQ_CTRL_step_max n) < (new - old).natAbs then s.ret .range
  else
    let s := s.store (LANE_EQ_TAP n k) LANE_EQ_TAP_fs w
    (updDet n (fun d => { d with tapPend := k :: d.tapPend }) s).ret .done

/-- A write of LANE_TR_CTRL (R80). -/
def wrTrCtrl (n : Nat) (w : Word) (s : State) : State :=
  let kp := wf w (LANE_TR_CTRL_kp_shift n)
  let ki := wf w (LANE_TR_CTRL_ki_shift n)
  let fl := wf w (LANE_TR_CTRL_freq_lim n)
  if kp < 2 ∨ ki < 8 ∨ 24 < ki ∨ fl < 1 ∨ 250 < fl then s.ret .range
  else plainWrite (LANE_TR_CTRL n) LANE_TR_CTRL_fs w s

/-- A write of LANE_TR_PHASE (R79). -/
def wrTrPhase (n : Nat) (w : Word) (s : State) : State :=
  if s.chg w (LANE_TR_PHASE_set n) && s.on (LANE_TR_CTRL_tr_en n) then s.ret .state
  else plainWrite (LANE_TR_PHASE n) LANE_TR_PHASE_fs w s

/-- A write of LANE_TR_FREQ (R79). -/
def wrTrFreq (n : Nat) (w : Word) (s : State) : State :=
  let f := sgn 22 (wf w (LANE_TR_FREQ_freq n))
  if !s.chg w (LANE_TR_FREQ_freq n) then s.ret .done
  else if s.get (LANE_TR_CTRL_freq_lim n) * ppmUnits < f.natAbs then s.ret .range
  else if s.on (LANE_TR_CTRL_tr_en n) then s.ret .state
  else (updDet n (fun d => { d with freq := f }) (s.store (LANE_TR_FREQ n) LANE_TR_FREQ_fs w)).ret .done

/-- A write of a level entry of bank `b`: refused in the active bank (R73). -/
def wrLevel (n b i : Nat) (w : Word) (s : State) : State :=
  let a := if b = 0 then LANE_TRL_LEVA n i else LANE_TRL_LEVB n i
  let ch := decide (fieldOf w 0 12 ≠ fieldOf (s.rd a) 0 12) || decide (fieldOf w 16 6 ≠ fieldOf (s.rd a) 16 6)
  if ch && s.get (LANE_TRL_CTRL_bank n) = b then s.ret .state
  else plainWrite a LANE_TRL_LEVA_fs w s

/-- Some level of the inactive bank differs from the active one by more than 64 units (R73). -/
def levelsFar (n : Nat) (s : State) : Bool :=
  (List.range 64).any fun i =>
    decide (64 < (s.geti (LANE_TRL_LEVA_level n i) - s.geti (LANE_TRL_LEVB_level n i)).natAbs)

/-- A write of LANE_TRL_COMMIT (R73): the levels are compared when the swap is written (DESIGN CHOICE, log 146). -/
def wrTrlCommit (n : Nat) (w : Word) (s : State) : State :=
  if wf w (LANE_TRL_COMMIT_swap n) = 0 then s.ret .done
  else if locked n s && levelsFar n s then (detEvt n 14 (s.set (LANE_TRL_CTRL_outcome n) Code.range.n)).ret .range
  else ((s.set (LANE_TRL_CTRL_pending n) 1).set (LANE_TRL_CTRL_outcome n) Code.held.n).ret .held

/-- A write of LANE_LMS_CFG_u: an APPLY then needs a new ACCUM (R87). -/
def wrLmsCfg (n u : Nat) (w : Word) (s : State) : State :=
  let old := s.rd (LANE_LMS_CFG n u)
  let s := s.store (LANE_LMS_CFG n u) LANE_LMS_CFG_fs w
  (if s.rd (LANE_LMS_CFG n u) = old then s else updLms n u (fun x => { x with accDone := false }) s).ret .done

/-- The range of a unit's configuration: first and last entry. -/
def lmsRange (n u : Nat) (s : State) : Nat × Nat :=
  (s.get (LANE_LMS_CFG_first n u), s.get (LANE_LMS_CFG_first n u) + s.get (LANE_LMS_CFG_count n u))

/-- A LMS command ends at once. -/
def lmsNow (n u op : Nat) (c : Code) (s : State) : State :=
  (lmsReport n u op c 0 s).ret c

/-- A LMS command is under way. -/
def lmsHold (n u op ph mu : Nat) (s : State) : State :=
  let cfg := s.rd (LANE_LMS_CFG n u)
  let s := updLms n u (fun x => { x with phase := ph, cfg := cfg, mu := mu }) s
  let s := (s.set (LANE_LMS_STAT_op n u) op).set (LANE_LMS_STAT_busy n u) 1
  ((s.set (LANE_LMS_STAT_outcome n u) Code.held.n).set (LANE_LMS_STAT_reason n u) 0).ret .held

/-- ACCUM (R81, R84, R87): the range is judged before the anchor (DESIGN CHOICE, log 166). -/
def lmsAccum (n u : Nat) (s : State) : State :=
  let r := lmsRange n u s
  let kind := s.get (LANE_LMS_CFG_kind n u)
  let anc := s.get (LANE_EQ_CTRL_anchor n)
  if (nth (nth s.det n).lms u).phase ≠ 0 then lmsNow n u 1 .state s
  else if (if kind = 0 then 47 else 63) < r.2 then lmsNow n u 1 .range s
  else if kind = 0 ∧ r.1 ≤ anc ∧ anc ≤ r.2 then lmsNow n u 1 .state s
  else lmsHold n u 1 1 0 s

/-- APPLY (R85, R87). -/
def lmsApplyCmd (n u mu : Nat) (s : State) : State :=
  let r := lmsRange n u s
  let x := nth (nth s.det n).lms u
  if x.phase ≠ 0 then lmsNow n u 2 .state s
  else if !x.accDone then lmsNow n u 2 .state s
  else if s.get (LANE_LMS_CFG_kind n u) = 0 ∧
      (List.range 48).any (fun k => decide (r.1 ≤ k) && decide (k ≤ r.2) && s.on (LANE_EQ_TAP_gated n k)) then
    lmsNow n u 2 .state s
  else lmsHold n u 2 3 mu s

/-- A write of LANE_LMS_CMD_u: op 0 and 3 end ERR_RANGE on a busy unit too (DESIGN CHOICE, log 166). -/
def wrLmsCmd (n u : Nat) (w : Word) (s : State) : State :=
  match wf w (LANE_LMS_CMD_op n u) with
  | 1 => lmsAccum n u s
  | 2 => lmsApplyCmd n u (wf w (LANE_LMS_CMD_mu_shift n u)) s
  | op => lmsNow n u op .range s

/-- LMS_ACCUM_DONE (R87): after the last sample. -/
def lmsAccumDone (n u : Nat) (s : State) : State :=
  let x := nth (nth s.det n).lms u
  if x.phase = 2 ∧ x.left = 0 then accumEnd n u s else s

/-- A write of LANE_HIST_CTRL (R88, R90). -/
def wrHistCtrl (n : Nat) (w : Word) (s : State) : State :=
  if 2 ≤ wf w (LANE_HIST_CTRL_sel n) ∨ 10 < wf w (LANE_HIST_CTRL_bin_shift n) then s.ret .range
  else
    let s := s.store (LANE_HIST_CTRL n) LANE_HIST_CTRL_fs w
    (if wf w (LANE_HIST_CTRL_run n) = 1 then
      updDet n (fun d => { d with hist := 1 }) (s.set (LANE_HIST_CTRL_busy n) 1)
    else s).ret .done

/-- HIST_DONE (R88): after the last sample. -/
def histDone (n : Nat) (s : State) : State :=
  let d := nth s.det n
  if d.hist = 2 ∧ d.histLeft = 0 then
    detEvt n 13 ((updDet n (fun d => { d with hist := 0 }) s).set (LANE_HIST_CTRL_busy n) 0)
  else s

/-- The receiver part of a block reset of lane n (R96): OFF; a held command ends without a record (R555). -/
def resetDet (n : Nat) (s : State) : State := updDet n (fun _ => {}) s

/-! ## Meanings -/

def execFgCalDone (n : Fin 8) (est : List SliceEst) (failed : List Nat) (s : State) : Out :=
  .next (detStart n (fgCalDone n est failed s))

def execBlockBoundary (n : Fin 8) (codes look : List Int) (s : State) : Out := .next (blockBoundary n codes look s)

def execMonitorWindowEnd (n : Fin 8) (s : State) : Out := .next (monitorWindowEnd n s)

def execDetEnable (q : Rq) (n : Fin 8) (w : Word) (s : State) : Out :=
  let w := force w (LANE_DET_CTRL_det_en n) 1
  .next (gated q (LANE_DET_CTRL n) LANE_DET_CTRL_fs w (wrDetCtrl n w) s)

def execDetDisable (q : Rq) (n : Fin 8) (w : Word) (s : State) : Out :=
  let w := force w (LANE_DET_CTRL_det_en n) 0
  .next (gated q (LANE_DET_CTRL n) LANE_DET_CTRL_fs w (wrDetCtrl n w) s)

def execDetAcquire (q : Rq) (n : Fin 8) (s : State) : Out :=
  .next (gated q (LANE_DET_CMD n) LANE_DET_CMD_fs 1 (detAcquire n) s)

def execDetDetect (q : Rq) (n : Fin 8) (s : State) : Out :=
  .next (gated q (LANE_DET_CMD n) LANE_DET_CMD_fs 2 (detDetect n) s)

def execDetLock (q : Rq) (n : Fin 8) (s : State) : Out :=
  .next (gated q (LANE_DET_CMD n) LANE_DET_CMD_fs 3 (detLock n) s)

def execDetDrop (q : Rq) (n : Fin 8) (s : State) : Out :=
  .next (gated q (LANE_DET_CMD n) LANE_DET_CMD_fs 4 (detDrop n) s)

def execLmsAccum (q : Rq) (n : Fin 8) (u : Fin 4) (s : State) : Out :=
  .next (gated q (LANE_LMS_CMD n u) LANE_LMS_CMD_fs 1 (lmsAccum n u) s)

def execLmsAccumDone (n : Fin 8) (u : Fin 4) (s : State) : Out := .next (lmsAccumDone n u s)

def execLmsApply (q : Rq) (n : Fin 8) (u : Fin 4) (mu : Fin 16) (s : State) : Out :=
  .next (gated q (LANE_LMS_CMD n u) LANE_LMS_CMD_fs (force 2 (LANE_LMS_CMD_mu_shift n u) mu) (lmsApplyCmd n u mu) s)

def execEqTapWrite (q : Rq) (n : Fin 8) (k : Fin 48) (w : Word) (s : State) : Out :=
  .next (gated q (LANE_EQ_TAP n k) LANE_EQ_TAP_fs w (wrEqTap n k w) s)

def execLevelSwap (q : Rq) (n : Fin 8) (s : State) : Out :=
  .next (gated q (LANE_TRL_COMMIT n) LANE_TRL_COMMIT_fs 1 (wrTrlCommit n 1) s)

def execHistRun (q : Rq) (n : Fin 8) (w : Word) (s : State) : Out :=
  let w := force w (LANE_HIST_CTRL_run n) 1
  .next (gated q (LANE_HIST_CTRL n) LANE_HIST_CTRL_fs w (wrHistCtrl n w) s)

def execHistDone (n : Fin 8) (s : State) : Out := .next (histDone n s)

end Sys2Proof.Machine
end

