-- ==== Sys2Proof/Machine/Fen.lean ====
section
/-! DEFINITION. Radio front-end control (chapter 09): the four sequencers, their lock inputs, bursts and calibration, the SPI
masters and the coexistence wires, with the meanings of their commands and events. -/

namespace Sys2Proof.Machine

def updFen (n : Nat) (f : FenSeq → FenSeq) (s : State) : State := { s with fen := upd s.fen n f }

/-- Event flag `b` of FEN_EVT, event 416 + b. -/
def fenEvt (b : Nat) (s : State) : State := s.flag ⟨FEN_EVT, b, 1⟩ (416 + b)

/-- Sequencer state: 0 OFF, 1 STANDBY, 2 SETTLE, 3 CAL, 4 RX, 5 TX. -/
def seqState (n : Nat) (s : State) : Nat := s.get (FEN_SEQ_STAT_state n)

/-- The block is held in a reset (R271). -/
def fenHeld (s : State) : Bool := blkHeld 20 s

/-- A signed or unsigned result that its field cannot hold is not stated by the spec: free bits (log 2). -/
def State.setFit (f : Fd) (lo hi x : Int) (s : State) : State :=
  if lo ≤ x ∧ x ≤ hi then s.set f (enc f.w x) else (s.set f (s.freeVal f.w)).freeNext

/-! ## Pins (R254, R255) -/

/-- The sequencer that owns RFC pin p. -/
def rfcOwner (p : Nat) (s : State) : Nat :=
  if p < 16 then fieldOf (s.rd FEN_RFC_OWN_L) (2 * p) 2 else fieldOf (s.rd FEN_RFC_OWN_H) (2 * (p - 16)) 2

/-- The level of RFC pin p: its owner's pattern latched at the entry of the state, the safe level while it is OFF. -/
def rfcPin (p : Nat) (s : State) : Bool :=
  let n := rfcOwner p s
  if seqState n s = 0 then bit (s.rd FEN_RFC_SAFE) p else bit (nth s.fen n).pat p

/-- FEN_RFC_LEVEL shows the levels driven. -/
def rfcShow (s : State) : State :=
  s.wr FEN_RFC_LEVEL (BitVec.ofNat 32 ((List.range 32).foldl (fun x p => x + (rfcPin p s).toNat * 2 ^ p) 0))

/-! ## Coexistence requests (R267) -/

/-- Sequencer n owns the coexistence wires with coex_en = 1. -/
def coexOwner (n : Nat) (s : State) : Bool := s.on FEN_COEX_CTRL_coex_en && decide (s.get FEN_COEX_CTRL_seq = n)

/-- COEX_REQ and COEX_PRI rise. -/
def coexRise (s : State) : State :=
  { ((s.set FEN_COEX_STAT_req 1).set FEN_COEX_STAT_pri (s.get FEN_COEX_CTRL_pri)) with coexHi := true }

/-- COEX_REQ falls, and COEX_PRI with it. -/
def coexFall (s : State) : State := { ((s.set FEN_COEX_STAT_req 0).set FEN_COEX_STAT_pri 0) with coexLo := true }

/-- Sequencer n asks for the medium, or gives it back. -/
def coexAsk (n : Nat) (s : State) : State := if coexOwner n s && !s.on FEN_COEX_STAT_req then coexRise s else s
def coexGive (n : Nat) (s : State) : State := if coexOwner n s && s.on FEN_COEX_STAT_req then coexFall s else s

/-! ## Sequencer states (R256) -/

/-- Pattern register of a state. -/
def patIdx (t : Nat) : Nat := if t = 4 then 3 else if t = 5 then 4 else t - 1

/-- The gates of R225 that name sequencer n close. -/
def gatesClose (n : Nat) (s : State) : State :=
  forN 128 (fun k s => if s.get (RPT_PATH_CFG_seq k) = n then updRpt k (fun p => { p with gate := false }) s else s) s

/-- The sequencer enters state t: the pins take its pattern; leaving TX gives the medium back and closes the gates. -/
def seqEnter (n t : Nat) (s : State) : State :=
  let old := seqState n s
  let p := s.rd (FEN_SEQ_PAT n (patIdx t))
  let s := updFen n (fun f => { f with pat := p, burst := none, next := [] }) (s.set (FEN_SEQ_STAT_state n) t)
  let s := if (old = 5 ∧ t ≠ 5) ∨ t = 0 then gatesClose n (coexGive n s) else s
  rfcShow s

/-- A final code stands in FEN_SEQ_STAT with SEQ_CMD_DONE. -/
def seqEnd (n op : Nat) (c : Code) (reason : Nat) (s : State) : State :=
  let s := (s.set (FEN_SEQ_STAT_outcome n) c.n).set (FEN_SEQ_STAT_op n) op
  fenEvt (4 * n) (s.set (FEN_SEQ_STAT_reason n) reason)

/-- A command ends at once with a final code. -/
def seqNow (n op : Nat) (c : Code) (s : State) : State := (seqEnd n op c 0 s).ret c

/-- The latest outcome code of a command that is held. -/
def seqHeld (n op : Nat) (s : State) : State :=
  (((s.set (FEN_SEQ_STAT_outcome n) Code.held.n).set (FEN_SEQ_STAT_op n) op).set (FEN_SEQ_STAT_reason n) 0).ret .held

/-- A held TX ends with a code; with any other than DONE the request falls (R267). -/
def txHeldEnd (n : Nat) (c : Code) (reason : Nat) (s : State) : State :=
  let s := seqEnd n 3 c reason (s.set (FEN_SEQ_STAT_tx_held n) 0)
  if c = .done then s else coexGive n s

/-- The held SETTLE or CAL ends with a code. -/
def opHeldEnd (n : Nat) (c : Code) (reason : Nat) (s : State) : State :=
  let op := (nth s.fen n).op
  seqEnd n op c reason (updFen n (fun f => { f with op := 0, words := false }) (s.set (FEN_SEQ_STAT_op_held n) 0))

/-- Each HELD command ends ABORTED with a reason. -/
def seqAbort (n reason : Nat) (s : State) : State :=
  let s := if s.on (FEN_SEQ_STAT_tx_held n) then txHeldEnd n .aborted reason s else s
  if s.on (FEN_SEQ_STAT_op_held n) then opHeldEnd n .aborted reason s else s

/-- The return state: STANDBY or RX. -/
def seqRet (n : Nat) (s : State) : Nat := if s.on (FEN_SEQ_CTRL_ret n) then 4 else 1

/-- The selected lock input is qualified (R259). -/
def seqLocked (n : Nat) (s : State) : Bool := s.on (FEN_SEQ_STAT_locked n)

/-- COEX_GRANT does not withhold TX from sequencer n. -/
def seqGranted (n : Nat) (s : State) : Bool := !coexOwner n s || s.on FEN_COEX_STAT_grant

/-- Ready (R256). -/
def seqReady (n : Nat) (s : State) : Bool :=
  let t := seqState n s
  seqLocked n s && (decide (t = 1) || decide (t = 4)) && seqGranted n s

/-- STANDBY. From OFF in TDD mode bursts begin at the next tracked frame boundary. -/
def seqStandby (n : Nat) (s : State) : State :=
  let t := seqState n s
  if t = 0 then seqNow n 1 .done (updFen n (fun f => { f with wait := s.on (FEN_SEQ_CTRL_mode n) }) (seqEnter n 1 s))
  else if s.on (FEN_SEQ_CTRL_mode n) ∨ (t ≠ 4 ∧ t ≠ 5) then seqNow n 1 .state s
  else seqNow n 1 .done (seqEnter n 1 s)

/-- RX. -/
def seqRx (n : Nat) (s : State) : State :=
  let t := seqState n s
  if s.on (FEN_SEQ_CTRL_mode n) ∨ (t ≠ 1 ∧ t ≠ 5) then seqNow n 2 .state s else seqNow n 2 .done (seqEnter n 4 s)

/-- TX is entered with a duration (0: until the next command). -/
def txEnter (n dur : Nat) (s : State) : State := updFen n (fun f => { f with dur := dur }) (seqEnter n 5 s)

/-- TX with its dur. -/
def seqTx (n dur : Nat) (s : State) : State :=
  let t := seqState n s
  if t = 0 ∨ s.on (FEN_SEQ_CTRL_mode n) ∨ s.on (FEN_SEQ_STAT_tx_held n) then seqNow n 3 .state s
  else if t = 5 then seqNow n 3 .done (updFen n (fun f => { f with dur := dur }) s)
  else
    let s := coexAsk n s
    if seqReady n s then seqNow n 3 .done (txEnter n dur s)
    else seqHeld n 3 (updFen n (fun f => { f with txDur := dur }) (s.set (FEN_SEQ_STAT_tx_held n) 1))

/-- One bit of a word, most significant first: MOSI takes it while SCK is low, and SCK rises in the middle of it, in mode 0 and mode 3. -/
def spiBit (b : Bool) : List SpiLine := [⟨false, false, some b⟩, ⟨false, true, some b⟩]

/-- The lines between words and outside a transfer: SCK rests at its mode's level, CSN high or low. -/
def spiRest (mode3 csn : Bool) : SpiLine := ⟨csn, mode3, none⟩

/-- What master m drives for its words (R266): one entry for each half period of SCK, with a rest of one before each further word
(DESIGN CHOICE, log 157). -/
def spiWave (m : Nat) (s : State) : List SpiLine :=
  let width := s.get (FEN_SPI_CFG_bits m) + 1
  (List.range (s.get (FEN_SPI_CFG_count m) + 1)).flatMap fun j =>
    (if j = 0 then [] else [spiRest (s.on (FEN_SPI_CFG_spi_mode m)) (!s.on (FEN_SPI_CFG_csn_mode m))]) ++
      (List.range width).flatMap fun i => spiBit (bit (s.rd (FEN_SPI_DATA m j)) (width - 1 - i))

/-- Band-clock periods of half a period of SCK: 491.52 MHz / (div + 1) against 983.04 MHz. -/
def spiHalf (m : Nat) (s : State) : Nat := s.get (FEN_SPI_CFG_div m) + 1

/-- The levels that master m drives now: its wave while a transfer runs, else CSN high and SCK at rest, low until the first
transfer (R408). -/
def spiLine (m : Nat) (s : State) : SpiLine :=
  let x := nth s.spi m
  let rest := spiRest (s.on (FEN_SPI_CFG_spi_mode m) && !x.wave.isEmpty) true
  if s.on (FEN_SPI_STAT_busy m) then (x.wave[(s.bclk - x.start) / spiHalf m s]?).getD rest else rest

/-- Master m starts to send its words (R266). -/
def spiStart (m : Nat) (s : State) : State :=
  let s := { s with spi := upd s.spi m fun _ => { wave := spiWave m s, start := s.bclk } }
  (s.set (FEN_SPI_STAT_busy m) 1).set (FEN_SPI_STAT_outcome m) Code.held.n

/-- SETTLE (R260). -/
def seqSettle (n : Nat) (s : State) : State :=
  let t := seqState n s
  let m := s.get (FEN_SEQ_CTRL_spi_m n)
  let go := s.on (FEN_SEQ_CTRL_spi_go n)
  if t ≠ 1 ∧ t ≠ 4 ∧ t ≠ 5 then seqNow n 4 .state s
  else if go ∧ s.on (FEN_SPI_STAT_busy m) then seqNow n 4 .state s
  else
    let s := seqEnter n 2 (s.set (FEN_SEQ_STAT_op_held n) 1)
    let s := updFen n (fun f => { f with op := 4, words := go }) s
    seqHeld n 4 (if go then spiStart m s else s)

/-- The paths of a CAL are valid (R264). -/
def calValid (n : Nat) (s : State) : Bool :=
  let ok := fun k => decide (admState k s = 2) && (decide (rptState k s = 0) || decide (5 ≤ rptState k s))
  let r := s.get (FEN_SEQ_CAL_cal_rx n)
  ok (s.get (FEN_SEQ_CAL_cal_tx n)) && ok r && decide (s.get (BND_PATH_CFG_hb r) = 0)

/-- CAL (R264). -/
def seqCal (n : Nat) (s : State) : State :=
  let t := seqState n s
  if t ≠ 1 ∧ t ≠ 4 then seqNow n 5 .state s
  else if !seqLocked n s then seqNow n 5 .notReady s
  else if !calValid n s then seqNow n 5 .state s
  else
    let s := seqEnter n 3 (s.set (FEN_SEQ_STAT_op_held n) 1)
    seqHeld n 5 ((updFen n (fun f => { f with op := 5, cal := {} }) s).set (FEN_SEQ_CALRES_passes n) 0)

/-- OFF. -/
def seqOff (n : Nat) (s : State) : State := seqNow n 6 .done (seqEnter n 0 (seqAbort n 1 s))

/-- A write of FEN_SEQ_CMD. -/
def wrSeqCmd (n : Nat) (w : Word) (s : State) : State :=
  let op := wf w (FEN_SEQ_CMD_op n)
  if op = 0 ∨ op = 7 then seqNow n op .range s
  else if s.fenForced then seqNow n op .guard s
  else if s.on CRP_ATTIC_STAT_hold ∧ op ≠ 6 then seqNow n op .state s
  else match op with
    | 1 => seqStandby n s
    | 2 => seqRx n s
    | 3 => seqTx n (wf w (FEN_SEQ_CMD_dur n)) s
    | 4 => seqSettle n s
    | 5 => seqCal n s
    | _ => seqOff n s

/-- The forced cause of thermal shutdown sets in: every sequencer goes OFF, SEQ_FORCED. -/
def fenForceOn (s : State) : State :=
  let s := { s with fenForced := true }
  if fenHeld s then s
  else fenEvt 23 (forN 4 (fun n s => if seqState n s = 0 then s else seqEnter n 0 (seqAbort n 3 s)) s)

/-- The forced cause clears; no sequencer starts again. -/
def fenForceOff (s : State) : State := { s with fenForced := false }

/-- SEQ_TX_DUR_EXPIRE. -/
def txDurExpire (n : Nat) (s : State) : State :=
  if seqState n s = 5 ∧ !s.on (FEN_SEQ_CTRL_mode n) ∧ (nth s.fen n).dur ≠ 0 then seqEnter n (seqRet n s) s else s

/-! ## Lock inputs (R258, R259) -/

/-- FEN_SEQ_STAT.locked shows the selected input. -/
def lockShow (n : Nat) (s : State) : State :=
  s.set (FEN_SEQ_STAT_locked n) ((nth s.fen n).qual.getD (s.get (FEN_SEQ_CTRL_lk n)) false).toNat

/-- FE_LOCK_QUALIFY: input i has been high for the lock_q of sequencer n. -/
def lockQualify (n i : Nat) (s : State) : State :=
  if fenHeld s then s else lockShow n (updFen n (fun f => { f with qual := upd f.qual i fun _ => true }) s)

/-- What a fall of its lock does to sequencer n. -/
def lockLost (n : Nat) (s : State) : State :=
  match seqState n s with
  | 5 => fenEvt (4 * n + 1) ((seqEnter n 1 s).addSat (FEN_SEQ_CNT_unlocks n) 1)
  | 3 => seqEnter n 1 (opHeldEnd n .aborted 2 s)
  | _ => s

/-- FE_LOCK_FALL: a low sample of input i. -/
def lockFall (i : Nat) (s : State) : State :=
  if fenHeld s then s
  else forN 4 (fun n s =>
    let s := lockShow n (updFen n (fun f => { f with qual := upd f.qual i fun _ => false }) s)
    if s.get (FEN_SEQ_CTRL_lk n) = i then lockLost n s else s) s

/-! ## Held commands (R257, R260, R265) -/

/-- HELD_TX_ENTER. -/
def heldTxEnter (n : Nat) (s : State) : State :=
  if s.on (FEN_SEQ_STAT_tx_held n) ∧ seqReady n s then txHeldEnd n .done 0 (txEnter n (nth s.fen n).txDur s) else s

/-- TX_HOLD_EXPIRE: a TX that is ready on the same tick enters. -/
def txHoldExpire (n : Nat) (s : State) : State :=
  if !s.on (FEN_SEQ_STAT_tx_held n) then s
  else if seqReady n s then heldTxEnter n s
  else (txHeldEnd n .notReady 0 s).addSat (FEN_SEQ_CNT_refused n) 1

/-- The timers of a SETTLE run. -/
def settling (n : Nat) (s : State) : Bool := decide (seqState n s = 2) && !(nth s.fen n).words

/-- SETTLE_DONE: settle_min has elapsed. -/
def settleDone (n : Nat) (s : State) : State :=
  if settling n s && seqLocked n s then opHeldEnd n .done 0 (seqEnter n (seqRet n s) s) else s

/-- SETTLE_TIMEOUT: settle_max has elapsed. -/
def settleTimeout (n : Nat) (s : State) : State :=
  if settling n s && seqLocked n s then settleDone n s
  else if settling n s then opHeldEnd n .timeout 0 (seqEnter n 1 s)
  else s

/-- irr in 1/16 dB, rounded down, of a ratio a / b, from -1,600 on: the greatest u with b · 10^(u/160) ≤ a. -/
def irrDb (a b : Nat) : Int :=
  let ok := fun (u : Nat) => decide (b ^ 160 * 10 ^ u ≤ a ^ 160 * 10 ^ 1600)
  ((List.range 16).foldr (fun i u => if ok (u + 2 ^ i) then u + 2 ^ i else u) 0 : Nat) - 1600

/-- β after the update β - c_i c_t / |c_t|² in units of 2^-15 (R265); free where c_t is 0 or the field cannot hold it. -/
def betaStep (k : Nat) (tr ti ir ii : Int) (s : State) : State :=
  let p := (tr * tr + ti * ti).toNat
  let re : Fd := ⟨BND_PATH_IQB k, 0, 16⟩
  let im : Fd := ⟨BND_PATH_IQB k, 16, 16⟩
  if p = 0 then (s.wr (BND_PATH_IQB k) (BitVec.ofNat 32 (s.freeVal 32))).freeNext
  else
    let x := divEven (s.geti re * p - 32768 * (ir * tr - ii * ti)) p
    let y := divEven (s.geti im * p - 32768 * (ir * ti + ii * tr)) p
    State.setFit im (-32768) 32767 y (State.setFit re (-32768) 32767 x s)

/-- irr shown in FEN_SEQ_CALRES: rounded by a free bit; free where the field cannot hold it. -/
def irrShow (n a b : Nat) (s : State) : State :=
  if a = 0 ∨ b = 0 then State.setFit (FEN_SEQ_CALRES_irr n) 0 65535 (-1) s
  else State.setFit (FEN_SEQ_CALRES_irr n) 0 65535 (irrDb a b + s.freeVal 1) s.freeNext

/-- irr ≥ irr_min, exactly. -/
def irrMet (n a b : Nat) (s : State) : Bool :=
  decide (a ≠ 0) && decide (b ^ 10 * 10 ^ s.get (FEN_SEQ_CAL_irr_min n) ≤ a ^ 10)

/-- A pass takes the corrected sample z, in 2^-30, with the tone's frequency word (R265). -/
def CalAcc.add (fw : Nat) (z : Cx) (c : CalAcc) : CalAcc :=
  let r := rotor 30 (fw * c.n % 2 ^ 32)
  ⟨c.n + 1, cxAdd c.t (cxMul z (cxConj r)), cxAdd c.i (cxMul z r)⟩

/-- The samples of a pass, 2^(10 + cal_len). -/
def calLen (n : Nat) (s : State) : Nat := 2 ^ (10 + s.get (FEN_SEQ_CAL_cal_len n))

/-- The corrected, unmixed sample z of path k for the passes that measure it (R265). -/
def calFeed (k : Nat) (z : Cx) (s : State) : State :=
  forN 4 (fun n s =>
    if seqState n s = 3 ∧ s.get (FEN_SEQ_CAL_cal_rx n) = k ∧ (nth s.fen n).cal.n < calLen n s then
      updFen n (fun f => { f with cal := f.cal.add (s.get (FEN_SEQ_CALFW_cal_fw n)) z }) s
    else s) s

/-- CAL_PASS_END: the pass has its samples; it is judged by its correlations c_t and c_i (R265). -/
def calPassEnd (n : Nat) (s : State) : State :=
  let c := (nth s.fen n).cal
  if seqState n s ≠ 3 ∨ c.n < calLen n s then s
  else
    let a := cxPow c.t
    let b := cxPow c.i
    let k := s.get (FEN_SEQ_CAL_cal_rx n)
    let s := irrShow n a b ((updFen n (fun f => { f with cal := {} }) s).incMod (FEN_SEQ_CALRES_passes n))
    if irrMet n a b s then opHeldEnd n .done 0 (seqEnter n (seqRet n s) s)
    else
      let s := betaStep k c.t.1 c.t.2 c.i.1 c.i.2 s
      if 4 ≤ s.get (FEN_SEQ_CALRES_passes n) then opHeldEnd n .range 0 (seqEnter n (seqRet n s) s) else s

/-! ## Bursts (R261 to R263) -/

/-- Symbols of a slot, slots of the pattern and band-clock periods of a slot, for the channel of sequencer n. -/
def seqCh (n : Nat) (s : State) : Nat := s.get (FEN_SEQ_CTRL_lch n)
def nSym (n : Nat) (s : State) : Nat := chSyms (seqCh n s) s
def tddBw (n : Nat) (s : State) : Word := chTddB (seqCh n s) s
def nSlots (n : Nat) (s : State) : Nat := chSlots (seqCh n s) s
def slotTicks (n : Nat) (s : State) : Nat := chSlotTicks (seqCh n s) s

/-- The pattern in force is valid, has a tracked boundary, and its channel is not OFF. -/
def patValid (n : Nat) (s : State) : Bool :=
  decide (wf (tddBw n s) (LST_TDD_B_valid 0) = 1) && (nth s.lst (seqCh n s)).track.isSome && decide (lstState (seqCh n s) s ≠ 0) &&
    decide (nSlots n s ≠ 0)

/-- Direction of symbol i from the boundary: 0 downlink, 1 uplink, none guard. -/
def symDir (n i : Nat) (s : State) : Option Nat := chDir (seqCh n s) i s

/-- Time of symbol i from the boundary. -/
def symTime (n i : Nat) (s : State) : Nat := chSymTime (seqCh n s) i s

/-- Symbols of the pattern. -/
def patLen (n : Nat) (s : State) : Nat := nSym n s * nSlots n s

/-- A maximal run of direction d starts at symbol i. -/
def runStart (n i d : Nat) (s : State) : Bool :=
  decide (symDir n i s = some d) && decide (symDir n (i + patLen n s - 1) s ≠ some d)

/-- Symbols of the run of direction d from symbol i on. -/
def runLen (n i d : Nat) (s : State) : Nat :=
  ((List.range (patLen n s)).takeWhile fun j => decide (symDir n (i + j) s = some d)).length

/-- Direction of a TX or an RX burst. -/
def burstDir (n : Nat) (tx : Bool) (s : State) : Nat := if tx then s.get (FEN_SEQ_CTRL_dir n) else 1 - s.get (FEN_SEQ_CTRL_dir n)

/-- The sequencer follows its pattern. -/
def following (n : Nat) (s : State) : Bool :=
  s.on (FEN_SEQ_CTRL_mode n) && decide (seqState n s ≠ 0) && patValid n s && !fenHeld s

/-- The time x of the pattern that becomes the band time t with t_ofs (R261). -/
def patTime (n : Nat) (t : Int) (s : State) : Int := t - s.geti (FEN_SEQ_OFS_t_ofs n)

/-- A burst of sequencer n whose first symbol is sym starts at band time t: the burst, in the pattern that stands then; none while
the sequencer follows no pattern, and until the boundary at which its bursts begin (R256, R261, R263). -/
def burstFrom (n sym : Nat) (tx : Bool) (t : Int) (s : State) : Option Burst :=
  let x := patTime n t s
  let ch := seqCh n s
  let v := patAt ch x s
  let d := burstDir n tx v
  let early := (nth s.fen n).wait && decide (boundaryAt ((nth s.lst ch).track.getD 0) x ≤ s.bandTime)
  if following n v && decide (sym < patLen n v) && runStart n sym d v && decide (chPos ch x v = symTime n sym v) && !early then
    some ⟨tx, t, t + (symTime n (sym + runLen n sym d v) v - symTime n sym v : Nat)⟩
  else none

/-- The lead of a TX or an RX entry before its burst's start (R262). -/
def burstLead (n : Nat) (tx : Bool) (s : State) : Nat := if tx then s.get (FEN_SEQ_TIM_tx_lead n) else s.get (FEN_SEQ_TIM2_rx_lead n)

/-- The burst whose entry time is now and whose first symbol is sym. -/
def burstNow (n sym : Nat) (tx : Bool) (s : State) : Option Burst := burstFrom n sym tx (s.bandTime + burstLead n tx s : Nat) s

/-- A burst is skipped: counted, with its reason and TX_SKIP at most once per 1 ms; the request falls (R263, R267). -/
def seqSkip (n : Nat) (t : Int) (s : State) : State :=
  let r := if !seqLocked n s then 1 else if !seqGranted n s then 2 else 3
  let s := (s.addSat (FEN_SEQ_CNT_skips n) 1).set (FEN_SEQ_STAT_skip_reason n) r
  let s := updFen n (fun f => { f with skip := some t }) (coexGive n s)
  s.flagLimited ⟨FEN_EVT, 4 * n + 2, 1⟩ (418 + 4 * n) msTicks

/-- The state allows the entry of a burst: STANDBY or RX, or TX of the burst before, which is passed directly (R262). -/
def burstState (n : Nat) (s : State) : Bool :=
  let t := seqState n s
  decide (t = 1) || decide (t = 4) || decide (t = 5)

/-- TX may be entered for a burst: the lock is qualified and COEX_GRANT does not withhold it. -/
def burstReady (n : Nat) (s : State) : Bool := seqLocked n s && seqGranted n s

/-- The sequencer enters a burst's state; the bursts of `next` wait behind it. -/
def burstGo (n : Nat) (b : Burst) (next : List Burst) (s : State) : State :=
  updFen n (fun f => { f with burst := some b, next, dur := if b.tx then 0 else f.dur }) (seqEnter n (if b.tx then 5 else 4) s)

/-- A burst's entry time: it is entered at once, or waits for the end of the current burst and of those that wait already (R262). -/
def burstTake (n : Nat) (b : Burst) (s : State) : State :=
  let f := nth s.fen n
  if !f.next.isEmpty || f.burst.any fun c => decide ((s.bandTime : Int) < c.e) then updFen n (fun f => { f with next := f.next ++ [b] }) s
  else burstGo n b [] s

/-- BURST_TX_ENTER: the entry time of the TX burst that starts at a symbol. -/
def burstTxEnter (n sym : Nat) (s : State) : State :=
  match burstNow n sym true s with
  | some b => if burstReady n s && burstState n s then burstTake n b s else seqSkip n b.s s
  | none => s

/-- BURST_RX_ENTER. -/
def burstRxEnter (n sym : Nat) (s : State) : State :=
  match burstNow n sym false s with
  | some b => if burstState n s then burstTake n b s else s
  | none => s

/-- The time at which a burst is left into ret: E, and tx_lag later for a TX burst (R262). -/
def leaveTime (n : Nat) (b : Burst) (s : State) : Int := b.e + (if b.tx then s.get (FEN_SEQ_TIM_tx_lag n) else 0 : Nat)

/-- The current burst is left into ret once its leave time has come. -/
def burstRet (n : Nat) (c : Burst) (s : State) : State :=
  if leaveTime n c s ≤ s.bandTime then seqEnter n (seqRet n s) s else s

/-- The current burst c has ended: the sequencer passes into the first of the bursts that wait which it can enter, else c goes on to its
leave time. A TX burst that is no longer ready then is skipped (DESIGN CHOICE, log 77). -/
def burstPass (n : Nat) (c : Burst) : List Burst → State → State
  | [], s => burstRet n c (updFen n (fun f => { f with next := [] }) s)
  | b :: t, s =>
    if !following n (patAt (seqCh n s) (patTime n b.s s) s) then burstPass n c t s
    else if b.tx && !burstReady n s then burstPass n c t (seqSkip n b.s s)
    else burstGo n b t s

/-- BURST_LEAVE: at its end the current burst passes into the next one whose entry time came before (R262). -/
def burstLeave (n : Nat) (s : State) : State :=
  match (nth s.fen n).burst with
  | none => s
  | some c => if (s.bandTime : Int) < c.e then s else burstPass n c (nth s.fen n).next s

/-- A TDD sequencer's bursts begin at the tracked frame boundary that band time has reached (R256). -/
def seqBoundary (s : State) : State :=
  forN 4 (fun n s =>
    match (nth s.lst (seqCh n s)).track with
    | some f => if boundaryAt f s.bandTime = s.bandTime then updFen n (fun x => { x with wait := false }) s else s
    | none => s) s

/-- TDD_GATE_EDGE of path k (R225): the gate opens at the start of an entered TX burst of its sequencer, to its end, and closes. -/
def gateEdge (k : Nat) (opens : Bool) (s : State) : State :=
  if !s.on (RPT_PATH_CFG_duplex k) ∨ rptHeld s then s
  else if !opens then updRpt k (fun p => { p with gate := false }) s
  else match (nth s.fen (s.get (RPT_PATH_CFG_seq k))).burst with
    | some b =>
      if b.tx ∧ b.s = s.bandTime then
        updRpt k (fun p => { p with gate := true, gateAt := s.bclk, gateEnd := s.bclk + (b.e - b.s).toNat }) s
      else s
    | none => s

/-! ## SPI masters (R266) -/

/-- A write of FEN_SPI_CMD. -/
def wrSpiCmd (m : Nat) (w : Word) (s : State) : State :=
  if wf w (FEN_SPI_CMD_go m) = 0 then s.ret .done
  else if s.on (FEN_SPI_STAT_busy m) then s.ret .state
  else (spiStart m s).ret .held

/-- SPI_TRANSFER_END: each entry takes the word received; a SETTLE's timers start (R260). -/
def spiEnd (m : Nat) (rx : List Word) (s : State) : State :=
  if !s.on (FEN_SPI_STAT_busy m) then s
  else
    let width := s.get (FEN_SPI_CFG_bits m) + 1
    let s := forN (s.get (FEN_SPI_CFG_count m) + 1)
      (fun j s => s.wr (FEN_SPI_DATA m j) (BitVec.ofNat 32 ((nth rx j).toNat % 2 ^ width))) s
    let s := (s.set (FEN_SPI_STAT_busy m) 0).set (FEN_SPI_STAT_outcome m) Code.done.n
    let s := forN 4 (fun n s =>
      if s.get (FEN_SEQ_CTRL_spi_m n) = m then updFen n (fun f => { f with words := false }) s else s) s
    fenEvt (16 + m) s

/-- FEN_SPI_CFG. -/
def wrSpiCfg (m : Nat) (w : Word) (s : State) : State :=
  if wf w (FEN_SPI_CFG_div m) < 7 ∨ wf w (FEN_SPI_CFG_bits m) < 7 then s.ret .range
  else if s.on (FEN_SPI_STAT_busy m) ∧ mergeWord FEN_SPI_CFG_fs (s.rd (FEN_SPI_CFG m)) w false ≠ s.rd (FEN_SPI_CFG m) then s.ret .state
  else plainWrite (FEN_SPI_CFG m) FEN_SPI_CFG_fs w s

/-- FEN_SPI_DATA. -/
def wrSpiData (m j : Nat) (w : Word) (s : State) : State :=
  if s.on (FEN_SPI_STAT_busy m) ∧ s.rd (FEN_SPI_DATA m j) ≠ w then s.ret .state else plainWrite (FEN_SPI_DATA m j) FEN_SPI_DATA_fs w s

/-! ## Coexistence (R267 to R270) -/

/-- FEN_COEX_CTRL: coex_en and seq move only while the old and the new owning sequencers are OFF. -/
def wrCoexCtrl (w : Word) (s : State) : State :=
  let old := s.get FEN_COEX_CTRL_seq
  let new := wf w FEN_COEX_CTRL_seq
  if (s.chg w FEN_COEX_CTRL_coex_en || s.chg w FEN_COEX_CTRL_seq) && (decide (seqState old s ≠ 0) || decide (seqState new s ≠ 0))
  then s.ret .state
  else
    let s := s.store FEN_COEX_CTRL FEN_COEX_CTRL_fs w
    (if s.on FEN_COEX_CTRL_coex_en then s else { (coexFall s).set FEN_COEX_STAT_grant 0 with coexHi := false }).ret .done

/-- FEN_COEX_CFG. -/
def wrCoexCfg (w : Word) (s : State) : State :=
  if wf w FEN_COEX_CFG_stuck_ms = 0 ∨ wf w FEN_COEX_CFG_ev_gap = 0 then s.ret .range
  else plainWrite FEN_COEX_CFG FEN_COEX_CFG_fs w s

/-- The coexistence wires are in use. -/
def coexOn (s : State) : Bool := s.on FEN_COEX_CTRL_coex_en && !fenHeld s

/-- A TX entry time of sequencer n lies req_lead band-clock periods from now. -/
def txComes (n : Nat) (s : State) : Bool :=
  let t := s.bandTime + s.get FEN_COEX_CTRL_req_lead + burstLead n true s
  (List.range 280).any fun sym => (burstFrom n sym true (t : Nat) s).isSome

/-- COEX_REQ_ASSERT: req_lead before a TX entry in TDD mode. -/
def coexReqAssert (n : Nat) (s : State) : State := if coexOn s && txComes n s then coexAsk n s else s

/-- An accepted change of COEX_GRANT ends a stuck episode; GRANT_CHG at most once per ev_gap. -/
def grantChg (v : Nat) (s : State) : State :=
  let s := ((s.set FEN_COEX_STAT_grant v).set FEN_COEX_STAT_stuck_lo 0).set FEN_COEX_STAT_stuck_hi 0
  let s := { s with coexHi := s.on FEN_COEX_STAT_req, coexLo := !s.on FEN_COEX_STAT_req }
  s.flagLimited FEN_EVT_grant 438 (s.get FEN_COEX_CFG_ev_gap * msTicks)

/-- COEX_GRANT_ASSERT. -/
def grantAssert (s : State) : State :=
  if coexOn s && !s.on FEN_COEX_STAT_grant then (grantChg 1 s).addSat FEN_COEX_CNT_grants 1 else s

/-- COEX_GRANT_DEASSERT (R268, R269). -/
def grantDeassert (s : State) : State :=
  if coexOn s && s.on FEN_COEX_STAT_grant then
    let n := s.get FEN_COEX_CTRL_seq
    let s := grantChg 0 s
    if seqState n s = 5 then
      let s := fenEvt 20 (s.addSat FEN_COEX_CNT_lost 1)
      if s.on FEN_COEX_CTRL_coex_mode then seqEnter n (seqRet n s) s else s
    else s
  else s

/-- COEX_GRANT_GLITCH. -/
def grantGlitch (s : State) : State := if coexOn s then s.addSat FEN_COEX_CNT_glitches 1 else s

/-- COEX_GRANT_STUCK: no accepted change for stuck_ms, with COEX_REQ at the other level at some instant (R270). -/
def grantStuck (s : State) : State :=
  let hi := s.on FEN_COEX_STAT_grant
  let f := if hi then FEN_COEX_STAT_stuck_hi else FEN_COEX_STAT_stuck_lo
  if coexOn s && !s.on f && (if hi then s.coexLo else s.coexHi) then fenEvt 21 ((s.set f 1).addSat FEN_COEX_CNT_stuck 1) else s

/-! ## Other registers and reset -/

/-- FEN_RFC_OWN_L (h = 0) and FEN_RFC_OWN_H (h = 1): a pin moves only between sequencers that are OFF (R254). -/
def wrRfcOwn (a : Nat) (w : Word) (s : State) : State :=
  let old := s.rd a
  let bad := (List.range 16).any fun i =>
    let x := fieldOf old (2 * i) 2
    let y := fieldOf w (2 * i) 2
    decide (x ≠ y) && (decide (seqState x s ≠ 0) || decide (seqState y s ≠ 0))
  if bad then s.ret .state else rfcShow (plainWrite a FEN_RFC_OWN_L_fs w s)

/-- FEN_SEQ_CTRL: written while OFF. -/
def wrSeqCtrl (n : Nat) (w : Word) (s : State) : State :=
  if mergeWord FEN_SEQ_CTRL_fs (s.rd (FEN_SEQ_CTRL n)) w false = s.rd (FEN_SEQ_CTRL n) then s.ret .done
  else if seqState n s ≠ 0 then s.ret .state
  else lockShow n (plainWrite (FEN_SEQ_CTRL n) FEN_SEQ_CTRL_fs w s)

/-- FEN_SEQ_HOLD. -/
def wrSeqHold (n : Nat) (w : Word) (s : State) : State :=
  if wf w (FEN_SEQ_HOLD_tx_hold n) = 0 ∨ wf w (FEN_SEQ_HOLD_settle_max n) < wf w (FEN_SEQ_HOLD_settle_min n) then s.ret .range
  else plainWrite (FEN_SEQ_HOLD n) FEN_SEQ_HOLD_fs w s

/-- FEN_SEQ_LOCK. -/
def wrSeqLock (n : Nat) (w : Word) (s : State) : State :=
  if wf w (FEN_SEQ_LOCK_lock_q n) = 0 then s.ret .range else plainWrite (FEN_SEQ_LOCK n) FEN_SEQ_LOCK_fs w s

/-- FEN_SEQ_CAL. -/
def wrSeqCal (n : Nat) (w : Word) (s : State) : State :=
  if 10 < wf w (FEN_SEQ_CAL_cal_len n) then s.ret .range else plainWrite (FEN_SEQ_CAL n) FEN_SEQ_CAL_fs w s

/-- BND_PATH_IQB: not while a CAL measures the path (R264). -/
def wrPathIqb (k : Nat) (w : Word) (s : State) : State :=
  if (List.range 4).any fun n => decide (seqState n s = 3) && decide (s.get (FEN_SEQ_CAL_cal_rx n) = k) then
    (if s.chg w (BND_PATH_IQB_beta k) then s.ret .state else s.ret .done)
  else plainWrite (BND_PATH_IQB k) BND_PATH_IQB_fs w s

/-- The block's reset takes hold (R271): pins at their safe levels, every sequencer OFF; the fused word stays. -/
def resetFen (s : State) : State :=
  let safe := s.rd FEN_RFC_SAFE
  let s := { s.dropRange FEN_EVT (FEN_EVT + 0x1000) with
    fen := List.replicate 4 {}, spi := List.replicate 4 {}, coexHi := false, coexLo := false }
  rfcShow (forN 4 gatesClose (s.wr FEN_RFC_SAFE safe))

/-! ## Meanings -/

def seqWrite (q : Rq) (n op dur : Nat) (s : State) : Out :=
  let w := force (force 0 (FEN_SEQ_CMD_op n) op) (FEN_SEQ_CMD_dur n) dur
  .next (gated q (FEN_SEQ_CMD n) FEN_SEQ_CMD_fs w (wrSeqCmd n w) s)

def execSeqStandby (q : Rq) (n : Fin 4) (s : State) : Out := seqWrite q n 1 0 s
def execSeqRx (q : Rq) (n : Fin 4) (s : State) : Out := seqWrite q n 2 0 s
def execSeqTx (q : Rq) (n : Fin 4) (dur : BitVec 16) (s : State) : Out := seqWrite q n 3 dur.toNat s
def execSeqSettle (q : Rq) (n : Fin 4) (s : State) : Out := seqWrite q n 4 0 s
def execSeqCal (q : Rq) (n : Fin 4) (s : State) : Out := seqWrite q n 5 0 s
def execSeqOff (q : Rq) (n : Fin 4) (s : State) : Out := seqWrite q n 6 0 s
def execSeqTxDurExpire (n : Fin 4) (s : State) : Out := .next (txDurExpire n s)
def execFeLockQualify (n i : Fin 4) (s : State) : Out := .next (lockQualify n i s)
def execFeLockFall (i : Fin 4) (s : State) : Out := .next (lockFall i s)
def execHeldTxEnter (n : Fin 4) (s : State) : Out := .next (heldTxEnter n s)
def execTxHoldExpire (n : Fin 4) (s : State) : Out := .next (txHoldExpire n s)
def execSettleDone (n : Fin 4) (s : State) : Out := .next (settleDone n s)
def execSettleTimeout (n : Fin 4) (s : State) : Out := .next (settleTimeout n s)
def execCalPassEnd (n : Fin 4) (s : State) : Out := .next (calPassEnd n s)
def execBurstTxEnter (n : Fin 4) (sym : Nat) (s : State) : Out := .next (burstTxEnter n sym s)
def execBurstRxEnter (n : Fin 4) (sym : Nat) (s : State) : Out := .next (burstRxEnter n sym s)
def execBurstLeave (n : Fin 4) (s : State) : Out := .next (burstLeave n s)
def execTddGateEdge (k : Fin 128) (opens : Bool) (s : State) : Out := .next (gateEdge k opens s)

def execSpiGo (q : Rq) (m : Fin 4) (s : State) : Out := .next (gated q (FEN_SPI_CMD m) FEN_SPI_CMD_fs 1 (wrSpiCmd m 1) s)
def execSpiTransferEnd (m : Fin 4) (rx : List Word) (s : State) : Out := .next (spiEnd m rx s)

def execRfcOwnWrite (q : Rq) (high : Bool) (w : Word) (s : State) : Out :=
  let a := if high then FEN_RFC_OWN_H else FEN_RFC_OWN_L
  .next (gated q a FEN_RFC_OWN_L_fs w (wrRfcOwn a w) s)

def execCoexCtrlWrite (q : Rq) (w : Word) (s : State) : Out :=
  .next (gated q FEN_COEX_CTRL FEN_COEX_CTRL_fs w (wrCoexCtrl w) s)

def execCoexReqAssert (n : Fin 4) (s : State) : Out := .next (coexReqAssert n s)
def execCoexGrantAssert (s : State) : Out := .next (grantAssert s)
def execCoexGrantDeassert (s : State) : Out := .next (grantDeassert s)
def execCoexGrantGlitch (s : State) : Out := .next (grantGlitch s)
def execCoexGrantStuck (s : State) : Out := .next (grantStuck s)
def execFenCoexCntRead (q : Rq) (s : State) : Out := .next (gatedRead q FEN_COEX_CNT (clearRead FEN_COEX_CNT) s)
def execFenSeqCntRead (q : Rq) (n : Fin 4) (s : State) : Out := .next (gatedRead q (FEN_SEQ_CNT n) (clearRead (FEN_SEQ_CNT n)) s)

end Sys2Proof.Machine
end

