-- ==== Sys2Proof/Machine/Mem.lean ====
section
/-! DEFINITION. The memories (chapter 12): bytes, stored errors, merge buffers, the fill, the scrubbers and the arbiters. -/

namespace Sys2Proof.Machine

/-! ## Bytes -/

/-- The byte at an address; an unlisted address reads 0 (log 4). -/
def memFind : List Host.Cell → Nat → Byte
  | [], _ => 0
  | (b, v) :: t, a => if a = b then v else memFind t a

def memErase : List Host.Cell → Nat → List Host.Cell
  | [], _ => []
  | (b, v) :: t, a => if a = b then memErase t a else (b, v) :: memErase t a

def memInsert : List Host.Cell → Nat → Byte → List Host.Cell
  | [], a, v => [(a, v)]
  | (b, u) :: t, a, v =>
    if a < b then (a, v) :: (b, u) :: t
    else if a = b then (a, v) :: t
    else (b, u) :: memInsert t a v

/-- A byte is written: 0 leaves no entry. -/
def memPut (m : List Host.Cell) (a : Nat) (v : Byte) : List Host.Cell := if v = 0 then memErase m a else memInsert m a v

/-- The canonical form of the memory list: addresses strictly rising and no byte 0. -/
def Memory.wf (m : List Host.Cell) : Bool :=
  m.all (fun e => decide (e.2 ≠ 0)) && decide (m.Pairwise fun x y => x.1 < y.1)

/-- The byte of memory at a system address. -/
def State.byte (s : State) (a : Nat) : Byte := memFind s.mem a

/-- n bytes from an address on. -/
def State.bytes (s : State) (a n : Nat) : List Byte := (List.range n).map fun i => s.byte (a + i)

/-- Bytes are stored from an address on. -/
def State.putBytes (s : State) (a : Nat) : List Byte → State
  | [] => s
  | b :: t => ({ s with mem := memPut s.mem a b } : State).putBytes (a + 1) t

/-! ## Units (R336) -/

/-- The unit of a memory address. -/
def unitOf (a : Nat) : Option Nat :=
  match region a with
  | .sram => some 0
  | .capture => some 1
  | .lcMem n => some (2 + n)
  | .rcMem c => some (10 + c)
  | .larder => some 14
  | _ => none

def unitBase (u : Nat) : Nat :=
  if u = 0 then 0x10000000 else if u = 1 then 0x60000000 else if u < 10 then 0x20080000 + 0x100000 * (u - 2)
  else if u < 14 then 0x33000000 + 0x100000 * (u - 10) else 0x50000000

def unitSize (u : Nat) : Nat :=
  if u = 0 then 0x800000 else if u = 1 then 0x2000000 else if u < 10 then 0x30000 else if u < 14 then 0x40000 else 0x10000

/-- SC's shelves and data memory (R310). -/
def scMemory (a : Nat) : Bool := decide (0x10700000 ≤ a) && decide (a < 0x10800000)

/-- The slot of a requester (R346's and R347's tables). -/
def rqSlot : Rq → Nat
  | .core c _ => if c < 8 then 1 else if c < 12 then 2 else 0
  | .dma _ => 3
  | .host | .fabric _ | .partner | .hatch => 4
  | .loader | .larder => 5
  | .engine => 6

/-! ## Stored errors (R337, R338) -/

/-- Errors stored in the word at `a`, a multiple of 8: 0, 1 or 2. -/
def State.eccAt (s : State) (a : Nat) : Nat := (natFind s.ecc a).getD 0

def natErase : List (Nat × Nat) → Nat → List (Nat × Nat)
  | [], _ => []
  | (b, v) :: t, a => if a = b then natErase t a else (b, v) :: natErase t a

/-- A word has been written with new check bits; an armed injection stores its chosen bits inverted. -/
def eccWritten (a : Nat) (s : State) : State :=
  if s.on MEM_INJ_CTRL_arm ∧ s.get MEM_INJ_ADDR_addr / 8 * 8 = a then
    let two := s.on MEM_INJ_CTRL_two && decide (s.get MEM_INJ_CTRL_bit_a ≠ s.get MEM_INJ_CTRL_bit_b)
    { (s.set MEM_INJ_CTRL_arm 0) with ecc := natInsert s.ecc a (if two then 2 else 1) }
  else { s with ecc := natErase s.ecc a }

/-- A corrected error in the word at `a` of unit u, met by an access of `q`. -/
def eccCorrected (u : Nat) (q : Rq) (a : Nat) (s : State) : State :=
  let s := (s.addSat MEM_CORR_count 1).set MEM_CORR_unit u
  pmcCount 6 1 (rqMst q) { lvl := rqLvl q, addr := some a } (s.flagLimited MEM_EVT_ecc_corr 24 msTicks)

/-- An uncorrectable error in the word at `a`: the first one since valid was cleared is recorded, later ones are counted. -/
def eccRecord (u slot a : Nat) (s : State) : State :=
  if s.on MEM_UE_INFO_valid then (s.addSat MEM_UE_INFO_count 1).set MEM_UE_INFO_more 1
  else (s.wr MEM_UE_ADDR (BitVec.ofNat 32 a)).wr MEM_UE_INFO (BitVec.ofNat 32 (u + 256 * slot + 0x10000 + 0x1000000))

/-- UE_EVT, at most once per 1 ms (R346). -/
def ueEvt (s : State) : State := s.flagLimited MEM_EVT_ecc_uncorr 25 msTicks

/-- What an uncorrectable error does beside the access's own code, by the master that met it (R346). -/
def eccMet (u : Nat) (q : Rq) (a : Nat) (s : State) : State :=
  let s := eccRecord u (rqSlot q) a s
  match q with
  | .core c _ => if c = 12 then s.raise 5 else s
  | .host | .fabric _ | .partner | .hatch => ueEvt s
  | .dma _ | .loader | .larder | .engine => s

/-! ## The merge buffers (R339 to R342) -/

/-- The completion of a posted store of core c to `a` is known, with or without the stale tag. -/
def postedCode (c a : Nat) (code : Code) (stale : Bool) (s : State) : State :=
  let rec go : List Posted → List Posted
    | [] => []
    | p :: t => if p.sys = a ∧ p.code = none then { p with code := some code, stale } :: t else p :: go t
  updCpu c (fun k => { k with posted := go k.posted }) s

/-- The stores that wait for an entry complete. -/
def mergeDone (who : List (Nat × Nat)) (code : Code) (stale : Bool) (s : State) : State :=
  who.foldl (fun s w => postedCode w.1 w.2 code stale s) s

/-- The 8 bytes that an entry leaves in its word. -/
def mergeBytes (e : Merge) (s : State) : List Byte := (List.range 8).map fun i => (nth e.bytes i).getD (s.byte (e.a + i))

/-- Entry e of unit u retires, with the code of its retirement; the counters see a read-modify-write as one of the master whose store
took the entry. -/
def mergeRetire (u : Nat) (e : Merge) (stale : Bool) (s : State) : State × Code :=
  let full := e.bytes.all fun b => b.isSome
  let s := if full then s else pmcCount 9 1 (rqMst e.q) { lvl := rqLvl e.q, addr := some e.a } s
  if !full ∧ s.eccAt e.a = 2 then
    let s := eccRecord u (rqSlot e.q) e.a s
    let s := if e.who.any fun w => decide (w.1 = 12) then s.raise 5 else s
    (mergeDone e.who .ecc stale s, .ecc)
  else
    let s := if !full ∧ s.eccAt e.a = 1 then eccCorrected u e.q e.a s else s
    (mergeDone e.who .done stale (eccWritten e.a (s.putBytes e.a (mergeBytes e s))), .done)

/-- The entries of unit u. -/
def mergeOf (u : Nat) (s : State) : List Merge := nth s.merge u

def setMerge (u : Nat) (l : List Merge) (s : State) : State := { s with merge := upd s.merge u fun _ => l }

/-- The entries of unit u that `p` selects retire, oldest first; with the code of the last. -/
def retireWith (u : Nat) (stale : Bool) (p : Merge → Bool) (s : State) : State × Code :=
  let l := mergeOf u s
  let s := setMerge u (l.filter fun e => !p e) s
  (l.filter p).foldl (fun x e => mergeRetire u e stale x.1) (s, .done)

/-- They retire while the unit's port is open. -/
def retireIf (u : Nat) (p : Merge → Bool) (s : State) : State × Code := retireWith u false p s

/-- The entry of the word at `a` retires. -/
def retireWord (u a : Nat) (s : State) : State := (retireIf u (fun e => decide (e.a = a)) s).1

/-- The entries of the words that hold bytes `lo` to `hi - 1` retire: a unit of the part that reads them finds them so (R340). -/
def retireRange (lo hi : Nat) (s : State) : State :=
  forN 15 (fun u s => (retireIf u (fun e => decide (lo < e.a + 8) && decide (e.a < hi)) s).1) s

/-- A write of 8 aligned bytes: it discards the word's entry (R339, R340). -/
def write8 (u a : Nat) (bytes : List Byte) (s : State) : State :=
  let gone := (mergeOf u s).filter fun e => decide (e.a = a)
  let s := setMerge u ((mergeOf u s).filter fun e => decide (e.a ≠ a)) s
  let s := gone.foldl (fun s e => mergeDone e.who .done false s) s
  eccWritten a (s.putBytes a bytes)

/-- The bytes from offset o on replace those of an entry. -/
def joinBytes (l : List (Option Byte)) (o : Nat) (bytes : List Byte) : List (Option Byte) :=
  (List.range 8).map fun i => if o ≤ i ∧ i < o + bytes.length then some (nth bytes (i - o)) else nth l i

/-- A write of fewer than 8 bytes by `q` enters the merge buffer (R339). -/
def writeNarrow (u : Nat) (q : Rq) (a : Nat) (bytes : List Byte) (who : List (Nat × Nat)) (s : State) : State :=
  let w := a / 8 * 8
  if (mergeOf u s).any fun e => decide (e.a = w) then
    setMerge u ((mergeOf u s).map fun e =>
      if e.a = w then { e with bytes := joinBytes e.bytes (a - w) bytes, who := e.who ++ who } else e) s
  else
    let s := if 8 ≤ (mergeOf u s).length then
        match mergeOf u s with
        | e :: t => (mergeRetire u e false (setMerge u t s)).1
        | [] => s
      else s
    setMerge u (mergeOf u s ++ [{ a := w, bytes := joinBytes (List.replicate 8 none) (a - w) bytes, who := who, q := q }]) s

/-- n bytes from `a` on whose content the spec leaves undefined: free values. -/
def putFree (a n : Nat) (s : State) : State :=
  { (s.putBytes a ((List.range n).map fun i => BitVec.ofNat 8 (Config.freeValue (s.free + i)))) with free := s.free + n }

/-! ## Accesses to a unit -/

/-- A write of 1, 2, 4, 8 or 32 bytes at a system address; with its code, none for a core's narrow store, which completes when
its entry retires. Any other master makes no further access before its narrow store has completed (R455, R486, R559), so its command
lasts until 32 cycles have passed without a write to the entry (R340). -/
def memWrite (u : Nat) (q : Rq) (a : Nat) (bytes : List Byte) (s : State) : State × Option Code :=
  if 8 ≤ bytes.length then
    (forN (bytes.length / 8) (fun i s => write8 u (a + 8 * i) ((bytes.drop (8 * i)).take 8) s) s, some .done)
  else match q with
    | .core c _ => (writeNarrow u q a bytes [(c, a)] s, none)
    | _ =>
      let r := retireIf u (fun e => decide (e.a = a / 8 * 8)) (writeNarrow u q a bytes [] s)
      (if r.2 = .ecc then ueEvt r.1 else r.1, some r.2)

/-- One word is read: its entry retires first (R340), then its stored errors are judged. -/
def readWord (u : Nat) (q : Rq) (a : Nat) (s : State) : State × Code :=
  let s := retireWord u a s
  match s.eccAt a with
  | 0 => (s, .done)
  | 1 => (eccCorrected u q a s, .done)
  | _ => (eccMet u q a s, .ecc)

/-- A read of n bytes within aligned words; bytes are delivered with DONE alone (R346). -/
def memRead (u : Nat) (q : Rq) (a n : Nat) (s : State) : State × Code × List Byte :=
  let r := (List.range ((a % 8 + n + 7) / 8)).foldl (fun (x : State × Code) i =>
    if x.2 = .done then readWord u q (a / 8 * 8 + 8 * i) x.1 else x) (s, .done)
  (r.1, r.2, if r.2 = .done then r.1.bytes a n else [])

/-- A unit of the part reads n bytes from `lo` on: the entries of their words retire (R340), and their stored errors are judged
(R338); ERR_ECC where one is uncorrectable, and then none of the bytes goes out as good (R346). -/
def unitRead (lo n : Nat) (s : State) : State × Code :=
  let s := retireRange lo (lo + n) s
  match unitOf lo with
  | some u => (s.ecc.filter fun e => decide (lo < e.1 + 8) && decide (e.1 < lo + n)).foldl (fun x e =>
      if e.2 = 1 then (eccCorrected u .engine e.1 x.1, x.2) else (eccMet u .engine e.1 x.1, .ecc)) (s, .done)
  | none => (s, .done)

/-- Every entry with bytes of core c retires (R340). -/
def drainCore (c : Nat) (s : State) : State :=
  forN 15 (fun u s => (retireIf u (fun e => e.who.any fun w => decide (w.1 = c)) s).1) s

/-! ## Events -/

/-- MERGE_RETIRE: 32 cycles without a write to entry i of unit u. -/
def mergeExpire (u i : Nat) (s : State) : State :=
  match (mergeOf u s)[i]? with
  | some e => (mergeRetire u e false (setMerge u ((mergeOf u s).eraseIdx i) s)).1
  | none => s

/-- MEMORY_FILL_DONE: zero data and valid check bits everywhere (R343). -/
def fillDone (s : State) : State :=
  if s.rst.fillBusy then
    { (s.set MEM_FILL_STAT_done 1) with
        mem := [], ecc := [], merge := List.replicate 15 [], rst := { s.rst with fillBusy := false } }
  else s

/-- The scrubber's next place: the place after it, and whether a pass ends. -/
def scrubNext (u pos step : Nat) : Nat × Bool := if unitSize u ≤ pos + step then (0, true) else (pos + step, false)

/-- The scrubber of unit u moves on; at the end of a pass SCRUB_PASS, at most once per 1 ms (R345). -/
def scrubMove (u pos step : Nat) (s : State) : State :=
  let n := scrubNext u pos step
  let s := { s with scrubPos := upd s.scrubPos u fun _ => n.1 }
  if n.2 then (s.incMod (MEM_SCRUB_passes u)).flagLimited MEM_EVT_scrub_pass 26 msTicks else s

/-- A word with one stored error is written back; the same word in the next pass asks for a targeted slice (R344, R516). -/
def scrubFix (u a : Nat) (s : State) : State :=
  let p := s.get (MEM_SCRUB_passes u)
  let s := eccWritten a (eccCorrected u .engine a s)
  let again := match nth s.scrubLast u with | some (b, k) => decide (b = a) && decide ((k + 1) % 256 = p) | none => false
  let s := { s with scrubLast := upd s.scrubLast u fun _ => some (a, p) }
  if again then { s with scrubAgain := upd s.scrubAgain u fun _ => some a } else s

/-- SCRUB_READ of unit u (R344 to R346). -/
def scrubRead (u : Nat) (s : State) : State :=
  if !s.on (MEM_SCRUB_en u) ∨ s.rst.fillBusy ∨ s.stop ∨ blkHeld 29 s then s
  else
    let pos := nth s.scrubPos u
    if s.bst.slices.any fun x => decide (x.u = u) && decide (x.row = pos / 4096) then scrubMove u pos (4096 - pos % 4096) s
    else
      let a := unitBase u + pos
      let s := retireWord u a s
      let s := match s.eccAt a with
        | 0 => s
        | 1 => scrubFix u a s
        | _ => let s := eccRecord u 6 a s; if scMemory a then s.raise 5 else ueEvt s
      scrubMove u pos 8 s

/-! ## Arbitration (R347) -/

def arbFind : List (Nat × Arb) → Nat → Arb
  | [], _ => {}
  | (b, v) :: t, p => if p = b then v else arbFind t p

def arbPut : List (Nat × Arb) → Nat → Arb → List (Nat × Arb)
  | [], p, v => [(p, v)]
  | (b, u) :: t, p, v => if p < b then (p, v) :: (b, u) :: t else if p = b then (p, v) :: t else (b, u) :: arbPut t p v

/-- The weights that MEM_ARB_W holds. -/
def arbWeights (s : State) : List Nat := (List.range 7).map fun i => fieldOf (s.rd MEM_ARB_W) (4 * i) 4

/-- The member after `last` in rotation among those that wait in a slot. -/
def arbMember (last slot : Nat) (waiting : List (Nat × Nat)) : Option Nat :=
  let ms := (waiting.filter fun x => decide (x.1 = slot)).map Prod.snd
  match (ms.filter fun m => decide (last < m)).min? with
  | some m => some m
  | none => ms.min?

/-- The next grant, within k moves of the slot's turn: the arbiter after it and whom it serves. -/
def arbNext : Nat → Arb → List Nat → List (Nat × Nat) → Option (Arb × Nat × Nat)
  | 0, _, _, _ => none
  | k + 1, x, w, waiting =>
    match (if x.used < nth x.w x.slot then arbMember (nth x.last x.slot) x.slot waiting else none) with
    | some m => some ({ x with used := x.used + 1, last := upd x.last x.slot fun _ => m }, x.slot, m)
    | none =>
      if x.slot = 6 then arbNext k { x with slot := 0, used := 0, w := w } w waiting
      else arbNext k { x with slot := x.slot + 1, used := 0 } w waiting

/-- ARB_GRANT at a target port: the requests that wait, as (slot, member); the reply names the slot and the member granted. -/
def arbGrant (p : Nat) (waiting : List (Nat × Nat)) (s : State) : State :=
  match arbNext 9 (arbFind s.arb p) (arbWeights s) waiting with
  | some (x, i, m) => { s with arb := arbPut s.arb p x, reply := ⟨.done, [BitVec.ofNat 32 i, BitVec.ofNat 32 m]⟩ }
  | none => s

/-! ## Registers -/

/-- MEM_ARB_W: no weight is 0. -/
def wrArbW (w : Word) (s : State) : State :=
  if (List.range 7).any fun i => decide (fieldOf w (4 * i) 4 = 0) then s.ret .range else plainWrite MEM_ARB_W MEM_ARB_W_fs w s

/-- MEM_INJ_CTRL: stored bits 0 to 71. -/
def wrInjCtrl (w : Word) (s : State) : State :=
  if 71 < wf w MEM_INJ_CTRL_bit_a ∨ 71 < wf w MEM_INJ_CTRL_bit_b then s.ret .range else plainWrite MEM_INJ_CTRL MEM_INJ_CTRL_fs w s

/-- MEM_SCRUB_m: interval 16 to 65,535. -/
def wrScrub (u : Nat) (w : Word) (s : State) : State :=
  if wf w (MEM_SCRUB_interval u) < 16 then s.ret .range else plainWrite (MEM_SCRUB u) MEM_SCRUB_fs w s

/-- The registers of MEM return to their reset values; the memories keep their contents, and done stays but in stop (R343, R416). -/
def resetMem (s : State) : State :=
  let d := s.get MEM_FILL_STAT_done
  let s := s.dropRange MEM_EVT (MEM_EVT + 0x1000)
  { (s.set MEM_FILL_STAT_done (if s.stop then 0 else d)) with arb := [] }

/-! ## Meanings -/

def execMergeRetire (u : Fin 15) (i : Fin 8) (s : State) : Out := .next (mergeExpire u i s)
def execMemoryFillDone (s : State) : Out := .next (fillDone s)
def execScrubRead (u : Fin 15) (s : State) : Out := .next (scrubRead u s)
def execMemCorrRead (q : Rq) (s : State) : Out := .next (gatedRead q MEM_CORR (clearRead MEM_CORR) s)
def execArbGrant (p : Nat) (waiting : List (Nat × Nat)) (s : State) : Out := .next (arbGrant p waiting s)

end Sys2Proof.Machine
end

