-- ==== Sys2Proof/Machine/BstBase.lean ====
section
/-! DEFINITION. Where shelves and data memories lie (chapter 11); the ledger of the self-test and the end of a logic slice (chapter 20),
which the core commands use. -/

namespace Sys2Proof.Machine

def updBst (f : Bst → Bst) (s : State) : State := { s with bst := f s.bst }

def bstHeld (s : State) : Bool := blkHeld 26 s

/-- Event flag b of BST_EVT. -/
def bstEvt (b : Nat) (s : State) : State := s.flag ⟨BST_EVT, b, 1⟩ (510 + b)

/-- The saved state of SC, which no master may write (R410). -/
def savedArea (a : Nat) : Bool := decide (0x5000F000 ≤ a) && decide (a < 0x5000F400)

/-! ## Shelves and data memories (R310 to R312) -/

/-- Base and size of a core's shelf and data memory. -/
def shelfBase (c sh : Nat) : Nat :=
  if c < 8 then 0x20080000 + 0x100000 * c + 0x10000 * sh
  else if c < 12 then 0x33000000 + 0x100000 * (c - 8) + 0x10000 * sh
  else 0x10700000 + 0x40000 * sh

def shelfSize (c : Nat) : Nat := if c < 12 then 0x10000 else 0x40000

def dataBase (c : Nat) : Nat :=
  if c < 8 then 0x200A0000 + 0x100000 * c else if c < 12 then 0x33020000 + 0x100000 * (c - 8)
  else if c = 12 then 0x10780000 else 0x7F800000

def dataSize (c : Nat) : Nat := if c < 8 then 0x10000 else if c < 12 then 0x20000 else if c = 12 then 0x80000 else 0x10000

/-- The core and shelf that an address lies in. -/
def shelfOf (a : Nat) : Option (Nat × Nat) :=
  (List.range 13).findSome? fun c => (List.range 2).findSome? fun sh =>
    if shelfBase c sh ≤ a ∧ a < shelfBase c sh + shelfSize c then some (c, sh) else none

/-- A unit of the part may not write there: a shelf (R312), SC's saved state (R410), or SC's memories while their port is fenced
(R321). -/
def unitBarred (a : Nat) (s : State) : Bool :=
  savedArea a || (shelfOf a).isSome || (scMemory a && s.on (OWN_CORE_STAT_fenced 12))

/-! ## The ledger (R525, R526) and a logic slice's end -/

/-- A ledger entry (R525, R526): kind, unit or core, row or slice, result, detail. -/
def ledger (kind u row res det : Nat) (s : State) : State :=
  let a := s.get BST_LEDGER_BASE_base + 16 * s.get BST_LEDGER_HEAD_next
  let w0 := leBytes 4 (s.get BST_LEDGER_SEQ_seq) ++ leBytes 4 (s.clk.aon / 2 ^ 40)
  let w1 := leBytes 2 (s.clk.aon / 2 ^ 24) ++ leBytes 1 kind ++ leBytes 1 u ++ leBytes 2 row ++ leBytes 1 res ++ leBytes 1 det
  let s := match unitOf a with
    | some m => if unitBarred a s then s.addSat BST_LEDGER_HEAD_lost 1 else write8 m (a + 8) w1 (write8 m a w0 s)
    | none => s.addSat BST_LEDGER_HEAD_lost 1
  (s.incMod BST_LEDGER_HEAD_next).incMod BST_LEDGER_SEQ_seq

/-- A ledger entry whose result and detail the spec leaves open, where none is given. -/
def ledgerFree (kind u row : Nat) (res det : Option Nat) (s : State) : State :=
  let r := match res with | some r => (r, s) | none => (s.freeVal 2, s.freeNext)
  let d := match det with | some d => (d, r.2) | none => (r.2.freeVal 8, r.2.freeNext)
  ledger kind u row r.1 d.1 d.2

/-- Core c is in a logic slice. -/
def inSlice (c : Nat) (s : State) : Bool :=
  match s.bst.lb with
  | some (d, _, true) => decide (d = c)
  | _ => false

/-- The logic request reaches its final code, with its ledger entry (R524, R526). -/
def lbRecord (o : Code) (res reason : Nat) (s : State) : State :=
  match s.bst.lb with
  | some (c, i, _) =>
    let s := updBst (fun b => { b with lb := none }) s
    let s := (((s.set BST_LB_RESULT_outcome o.n).set BST_LB_RESULT_busy 0).set BST_LB_RESULT_result res).set BST_LB_RESULT_reason reason
    match o with
      | .done => ledgerFree 2 c i (some res) none s
      | .aborted => ledgerFree 2 c i (some 2) (some reason) s
      | _ => ledgerFree 2 c i none none s
  | none => s

/-- The same with its completion event, BST_DONE (R14). -/
def lbEnd (o : Code) (res reason : Nat) (s : State) : State :=
  if s.bst.lb.isSome then bstEvt 1 (lbRecord o res reason s) else s

/-- HALT or RESET of core c during its slice (R523). -/
def lbCoreStop (c : Nat) (s : State) : State := if inSlice c s then lbEnd .aborted 0 1 s else s

end Sys2Proof.Machine
end

