-- ==== Sys2Proof/Machine/Sto.lean ====
section
/-! DEFINITION. The eMMC storage controller and the boot-flash master (chapter 12). -/

namespace Sys2Proof.Machine

def updSto (f : Sto → Sto) (s : State) : State := { s with sto := f s.sto }

/-- The request line that a command in progress withdraws by ending now: that of a READ (2) or WRITE (3) that has blocks left, else
none (R362). -/
def stoGone (s : State) : Nat :=
  if (s.sto.op = 2 ∨ s.sto.op = 3) ∧ s.get STO_RESULT_blocks < s.sto.cnt then s.sto.op else 0

/-- A final code stands in STO_RESULT, with STO_DONE. -/
def stoFinal (c : Code) (reason : Nat) (s : State) : State :=
  (((s.set STO_RESULT_outcome c.n).set STO_RESULT_busy 0).set STO_RESULT_reason reason).raise 496

/-- The command in progress reaches its final code (R360). -/
def stoEnd (c : Code) (reason : Nat) (s : State) : State :=
  stoFinal c reason (updSto (fun x => { x with op := 0, raw := 0, tries := 0, stop := false, gone := stoGone s }) s)

/-- A command that ends at once, with no block passed; a line that an earlier one has withdrawn stays so. -/
def stoNow (c : Code) (s : State) : State := (stoFinal c 0 (s.set STO_RESULT_blocks 0)).ret c

/-- The commands that operation op begins with on EMMC_CMD, each its index and argument (R360). TRIM's erase group commands and
FLUSH's SWITCH are those of JEDEC eMMC 5.1 (PRESUMED, log 162). -/
def stoSends (op : Nat) (w : Word) (s : State) : List (Nat × Nat) :=
  let a := s.get STO_ARG_arg
  let n := s.get STO_CNT_cnt
  match op with
  | 1 => [(wf w STO_CMD_idx, a)]
  | 2 => [(23, n), (18, a)]
  | 3 => [(23, n + 2 ^ 31 * wf w STO_CMD_rel), (25, a)]
  | 4 => [(35, a), (36, a + n - 1), (38, 1)]
  | _ => [(6, 0x03200100)]

/-- The response type of the operation's last command: RAW names it, TRIM and FLUSH have one with busy. -/
def stoRtype (op : Nat) (w : Word) : Nat := if op = 1 then wf w STO_CMD_rtype else if op < 4 then 1 else 2

/-- A command goes out on EMMC_CMD. -/
def stoSend (l : List (Nat × Nat)) (s : State) : State := updSto (fun x => { x with sent := x.sent ++ l }) s

/-- A command starts: a RAW with data = 1 reads or writes one block. -/
def stoStart (op : Nat) (w : Word) (s : State) : State :=
  let raw := if op = 1 ∧ wf w STO_CMD_data = 1 then 1 + wf w STO_CMD_dir else 0
  let s := updSto (fun x =>
    { x with op, raw, tries := 0, stop := false, gone := 0, rtype := stoRtype op w, sent := stoSends op w s, arg := s.get STO_ARG_arg,
             cnt := s.get STO_CNT_cnt }) s
  let s := (s.set STO_RESULT_outcome Code.held.n).set STO_RESULT_reason 0
  ((s.set STO_RESULT_busy 1).set STO_RESULT_blocks 0).ret .held

/-- The sector range of READ, WRITE and TRIM is in order (R360). -/
def stoRange (s : State) : Bool :=
  decide (s.get STO_CNT_cnt ≠ 0) && decide (s.get STO_ARG_arg + s.get STO_CNT_cnt ≤ 250000000)

/-- A write of STO_CMD. -/
def wrStoCmd (w : Word) (s : State) : State :=
  let op := wf w STO_CMD_op
  if op = 0 ∨ op = 7 then s.ret .range
  else if op = 6 then
    if s.sto.op = 2 ∨ s.sto.op = 3 then (updSto (fun x => { x with stop := true }) s).ret .done else s.ret .state
  else if s.sto.op ≠ 0 then s.ret .state
  else if 2 ≤ op ∧ op ≤ 4 ∧ !stoRange s then stoNow .range s
  else stoStart op w s

/-- The block in progress is a read block, or a write block. -/
def stoReads (s : State) : Bool := decide (s.sto.op = 2) || (decide (s.sto.op = 1) && decide (s.sto.raw = 1))
def stoWrites (s : State) : Bool := decide (s.sto.op = 3) || (decide (s.sto.op = 1) && decide (s.sto.raw = 2))

/-- A STOP ends the command (R360), with CMD12. -/
def stoStopped (s : State) : State := stoEnd .aborted 1 (stoSend [(12, 0)] s)

/-- A block has passed; a STOP ends the command here (R360). -/
def stoPassed (s : State) : State :=
  let s := (updSto (fun x => { x with tries := 0 }) s).incMod STO_RESULT_blocks
  if s.sto.stop then stoStopped s else s

/-- What reads the block in progress again: CMD12, and the READ from that block on, or the RAW command (R361). -/
def stoAgain (s : State) : List (Nat × Nat) :=
  let b := s.get STO_RESULT_blocks
  if s.sto.op = 2 then [(12, 0), (23, s.sto.cnt - b), (18, s.sto.arg + b)] else (12, 0) :: s.sto.sent.take 1

/-- A block has failed: read or sent again up to `retries` times (R361). -/
def stoFailed (s : State) : State :=
  if s.get STO_CTRL_retries ≤ s.sto.tries then stoEnd .bus 0 s
  else
    let s := updSto (fun x => { x with tries := x.tries + 1 }) s
    if stoReads s then stoSend (stoAgain s) s else s

/-- The blocks that the command moves: a RAW with data one (R360). -/
def stoBlocks (s : State) : Nat :=
  if s.sto.op = 2 ∨ s.sto.op = 3 then s.sto.cnt else if s.sto.op = 1 ∧ s.sto.raw ≠ 0 then 1 else 0

/-- STO_BLOCK_END: whether the block's CRC or CRC status passed, and a read block's 512 bytes (R361). -/
def stoBlockEnd (ok : Bool) (data : List Byte) (s : State) : State :=
  if stoBlocks s ≤ s.get STO_RESULT_blocks then s
  else if stoReads s then
    if !ok then stoFailed s
    else if 4096 < s.sto.rx.length + 512 then s
    else stoPassed (updSto (fun x => { x with rx := x.rx ++ (List.range 512).map fun i => nth data i }) s)
  else if stoWrites s then
    if s.sto.tx.length < 512 then s
    else if !ok then stoFailed s
    else stoPassed (updSto (fun x => { x with tx := x.tx.drop 512 }) s)
  else s

/-- The words of STO_RESP that a response of the type takes: none, RESP_0 with a 48-bit one's device status, all four. -/
def stoRespWords (s : State) : Nat := match s.sto.rtype with | 0 => 0 | 3 => 4 | _ => 1

/-- STO_RESP takes a response. -/
def stoResp (resp : List Word) (s : State) : State := forN (stoRespWords s) (fun i s => s.wr (STO_RESP i) (nth resp i)) s

/-- STO_COMMAND_END: whether the device status, which a 48-bit response carries, has an error bit set, and the response (R361). -/
def stoCommandEnd (err : Bool) (resp : List Word) (s : State) : State :=
  if s.sto.op = 0 ∨ (err ∧ stoRespWords s ≠ 1) then s
  else if err then stoEnd .bus 0 (stoResp resp s)
  else if s.sto.stop then stoStopped (stoResp resp s)
  else if s.get STO_RESULT_blocks < stoBlocks s then s
  else stoEnd .done 0 (stoResp resp s)

/-- STO_RESPONSE_TIMEOUT: no response, or busy beyond its limit; a command without a response has neither. -/
def stoTimeout (s : State) : State := if s.sto.op = 0 ∨ s.sto.rtype = 0 then s else stoEnd .timeout 0 s

/-- The request lines STO_RX and STO_TX (R352); a READ or WRITE that ended early has withdrawn its line until the next command
(R362). -/
def stoRxLine (s : State) : Bool := decide (128 ≤ s.sto.rx.length) && decide (s.sto.gone ≠ 2)
def stoTxLine (s : State) : Bool := decide (s.sto.tx.length + 128 ≤ 4096) && decide (s.sto.gone ≠ 3)

/-- A read of n bytes at the data port; bytes that the FIFO does not hold are not stated: free values. -/
def stoPop (n : Nat) (s : State) : State × List Byte :=
  let got := s.sto.rx.take n
  let s := updSto (fun x => { x with rx := x.rx.drop n }) s
  if got.length = n then (s, got)
  else (s.freeNext, got ++ leBytes (n - got.length) (s.freeVal (8 * (n - got.length))))

/-- A write at the data port; a full FIFO takes no more. -/
def stoPush (bytes : List Byte) (s : State) : State := updSto (fun x => { x with tx := (x.tx ++ bytes).take 4096 }) s

/-- STO_CTRL. -/
def wrStoCtrl (w : Word) (s : State) : State :=
  if wf w STO_CTRL_width = 3 ∨ 4 < wf w STO_CTRL_timing ∨ wf w STO_CTRL_busy_ms = 0 then s.ret .range
  else if s.sto.op ≠ 0 ∧ mergeWord STO_CTRL_fs (s.rd STO_CTRL) w false ≠ s.rd STO_CTRL then s.ret .state
  else plainWrite STO_CTRL STO_CTRL_fs w s

/-! ## Boot flash (R363, R364) -/

/-- The bits of a byte, most significant first. -/
def msbBits (b : Byte) : List Bool := (List.range 8).map fun i => b.getLsbD (7 - i)

/-- One BOOT_CLK period with a bit on BOOT_IO_0, and one with nothing driven. -/
def norBit (b : Bool) : List (Option Bool) := [some b, none, none, none]
def norNone : List (Option Bool) := List.replicate 4 none

/-- A data byte on all four lines, in two periods: the high half first, its most significant bit on BOOT_IO_3 (PRESUMED, log 157). -/
def norQuad (b : Byte) : List (List (Option Bool)) :=
  [4, 0].map fun o => (List.range 4).map fun i => some (b.getLsbD (o + i))

/-- Byte b of the buffer. -/
def norByte (b : Nat) (s : State) : Byte := BitVec.ofNat 8 (s.get ⟨STO_NOR_BUF (b / 4), 8 * (b % 4), 8⟩)

/-- Bytes on BOOT_IO_0. -/
def norSerial (l : List Byte) : List (List (Option Bool)) := l.flatMap fun b => (msbBits b).map norBit

/-- What a transaction drives: opcode, address, dummy clocks, data (R363). -/
def norSend (s : State) : List (List (Option Bool)) :=
  let n := s.get STO_NOR_CMD_addr_bytes
  let quad := s.on STO_NOR_CMD_quad
  let data := (List.range (s.get STO_NOR_CMD_len)).map fun b => norByte b s
  norSerial [BitVec.ofNat 8 (s.get STO_NOR_CMD_opcode)] ++ norSerial (leBytes n (s.rd STO_NOR_ADDR).toNat).reverse ++
    List.replicate (s.get STO_NOR_CMD_dummy) norNone ++
    (match s.get STO_NOR_CMD_dir with
      | 1 => List.replicate (data.length * (if quad then 2 else 8)) norNone
      | 2 => if quad then data.flatMap norQuad else norSerial data
      | _ => [])

/-- A write of STO_NOR_CMD: with go = 1 a transaction. -/
def wrNorCmd (w : Word) (s : State) : State :=
  if wf w STO_NOR_CMD_go = 0 then plainWrite STO_NOR_CMD STO_NOR_CMD_fs w s
  else
    let n := wf w STO_NOR_CMD_addr_bytes
    if (n ≠ 0 ∧ n ≠ 3 ∧ n ≠ 4) ∨ 256 < wf w STO_NOR_CMD_len ∨ wf w STO_NOR_CMD_dir = 3 then s.ret .range
    else if s.on STO_NOR_RESULT_busy then s.ret .state
    else
      let s := ((s.store STO_NOR_CMD STO_NOR_CMD_fs w).set STO_NOR_RESULT_outcome Code.held.n).set STO_NOR_RESULT_reason 0
      let s := updSto (fun x => { x with norDir := s.get STO_NOR_CMD_dir, norLen := s.get STO_NOR_CMD_len }) s
      { (s.set STO_NOR_RESULT_busy 1) with norWave := norSend s }.ret .held

/-- Byte b of a transaction is byte b mod 4 of word b / 4. -/
def norPut (b : Nat) (v : Byte) (s : State) : State := s.set ⟨STO_NOR_BUF (b / 4), 8 * (b % 4), 8⟩ v.toNat

/-- The flash takes bytes. -/
def flashPut : List Host.Cell → List Host.Cell → List Host.Cell
  | m, [] => m
  | m, (a, v) :: t => flashPut (memInsert m a v) t

/-- NOR_TRANSACTION_END: the bytes read, and the bytes of the flash that the transaction has changed. -/
def norEnd (data : List Byte) (changed : List Host.Cell) (s : State) : State :=
  if !s.on STO_NOR_RESULT_busy then s
  else
    let s := { s with flash := flashPut s.flash changed, norWave := [] }
    let s := if s.sto.norDir = 1 then forN s.sto.norLen (fun b s => norPut b (nth data b) s) s else s
    (((s.set STO_NOR_RESULT_outcome Code.done.n).set STO_NOR_RESULT_reason 0).set STO_NOR_RESULT_busy 0).raise 496

/-- STO_NOR_BUF_j. -/
def wrNorBuf (j : Nat) (w : Word) (s : State) : State :=
  if s.on STO_NOR_RESULT_busy ∧ s.rd (STO_NOR_BUF j) ≠ w then s.ret .state else plainWrite (STO_NOR_BUF j) STO_NOR_BUF_fs w s

/-- The block's reset takes hold (R362, R364), and withdraws the line of the command that it ends: commands end without a record
(R555), a READ or WRITE with CMD12 unless power-on reset or RESET_N resets the device itself. -/
def resetSto (s : State) : State :=
  let last := if (s.sto.op = 2 ∨ s.sto.op = 3) ∧ !s.rst.por ∧ !s.rst.resetN then s.sto.sent ++ [(12, 0)] else []
  let gone := if s.rst.por ∨ s.rst.resetN then 0 else stoGone s
  { s.dropRange STO_CTRL (STO_CTRL + 0x8000) with sto := { sent := last, gone }, norWave := [] }

/-! ## Meanings -/

def stoWrite (q : Rq) (op : Nat) (w : Word) (s : State) : Out :=
  let w := force w STO_CMD_op op
  .next (gated q STO_CMD STO_CMD_fs w (wrStoCmd w) s)

def execStoRaw (q : Rq) (w : Word) (s : State) : Out := stoWrite q 1 w s
def execStoRead (q : Rq) (s : State) : Out := stoWrite q 2 0 s
def execStoWrite (q : Rq) (w : Word) (s : State) : Out := stoWrite q 3 w s
def execStoTrim (q : Rq) (s : State) : Out := stoWrite q 4 0 s
def execStoFlush (q : Rq) (s : State) : Out := stoWrite q 5 0 s
def execStoStop (q : Rq) (s : State) : Out := stoWrite q 6 0 s
def execStoBlockEnd (ok : Bool) (data : List Byte) (s : State) : Out := .next (stoBlockEnd ok data s)
def execStoCommandEnd (err : Bool) (resp : List Word) (s : State) : Out := .next (stoCommandEnd err resp s)
def execStoResponseTimeout (s : State) : Out := .next (stoTimeout s)

def execNorGo (q : Rq) (w : Word) (s : State) : Out :=
  let w := force w STO_NOR_CMD_go 1
  .next (gated q STO_NOR_CMD STO_NOR_CMD_fs w (wrNorCmd w) s)

def execNorTransactionEnd (data : List Byte) (changed : List Host.Cell) (s : State) : Out := .next (norEnd data changed s)

end Sys2Proof.Machine
end

