-- ==== Sys2Proof/Machine/Evr.lean ====
section
/-! DEFINITION. The event router, the watchdog, the counters' registers, the core commands and the acceptance of a LOAD
(chapter 11). -/

namespace Sys2Proof.Machine

/-! ## The event router (R324 to R327) -/

/-- Pending bit e. -/
def isPend (e : Nat) (s : State) : Bool := bit (s.rd (EVR_PEND (e / 32))) (e % 32)

/-- Pending bit e becomes 0. -/
def clearPend (e : Nat) (s : State) : State := s.set ⟨EVR_PEND (e / 32), e % 32, 1⟩ 0

/-- The events that are pending, in ascending order. -/
def pendList (s : State) : List Nat :=
  (List.range 16).flatMap fun j =>
    if s.rd (EVR_PEND j) = 0 then [] else ((List.range 32).filter fun i => bit (s.rd (EVR_PEND j)) i).map fun i => 32 * j + i

/-- Event e is routed to core c; the non-maskable ones to SC (R325, R326). -/
def routed (e c : Nat) (s : State) : Bool := if e < 8 then decide (c = 12) else decide (s.get (EVR_ROUTE_core e) = c)

/-- Event e is pending for core c. -/
def pendFor (e c : Nat) (s : State) : Bool := isPend e s && routed e c s

/-- The lowest-numbered non-maskable event that is pending. -/
def nmiNext (s : State) : Option Nat := (List.range 8).find? fun e => isPend e s

/-- The maskable event that core c would take: the lowest prio, and within it the lowest number (R325). -/
def evtNext (c : Nat) (s : State) : Option Nat :=
  let l := (pendList s).filter fun e => decide (8 ≤ e) && routed e c s && s.on (EVR_ROUTE_en e)
  (List.range 4).findSome? fun p => l.find? fun e => decide (s.get (EVR_ROUTE_prio e) = p)

/-- The event that EVR_NEXT_c shows. -/
def nextFor (c : Nat) (s : State) : Option Nat :=
  match (if c = 12 then nmiNext s else none) with
  | some e => some e
  | none => evtNext c s

/-- A read of EVR_NEXT_c. -/
def rdEvrNext (c : Nat) (s : State) : State :=
  s.retData [match nextFor c s with | some e => BitVec.ofNat 32 (e + 2 ^ 31) | none => 0]

/-- A write of EVR_PEND_j: bits 0 to 7 of EVR_PEND_0 stay. -/
def wrPend (j : Nat) (w : Word) (s : State) : State :=
  let w := if j = 0 then w &&& 0xFFFFFF00 else w
  plainWrite (EVR_PEND j) EVR_PEND_fs w s

/-- A write of EVR_RAISE (R327). -/
def wrEvrRaise (w : Word) (s : State) : State :=
  let e := wf w EVR_RAISE_event
  if e < 8 then s.ret .range else (s.raise e).ret .done

/-- A write of EVR_ROUTE_e: core, en and prio of events 0 to 7 stay (R326); with its host bit a pending event enters page 0xB2
(R455, R456). -/
def wrRoute (e : Nat) (w : Word) (s : State) : State :=
  sendIbi (isPend e s && !s.on (EVR_ROUTE_host e) && bit w 7)
    (plainWrite (EVR_ROUTE e) (if e < 8 then [(7, 1, .rw)] else EVR_ROUTE_fs) w s)

/-! ## The watchdog (R329, R330) -/

/-- An interval of n eighths of a millisecond starts. -/
def wdStart (n second : Nat) (s : State) : State := { (s.set EVR_WDOG_STAT_second second) with wdLen := n, wdT := 0 }

/-- A write of EVR_WDOG_CTRL. -/
def wrWdogCtrl (w : Word) (s : State) : State :=
  let v := mergeWord EVR_WDOG_CTRL_fs (s.rd EVR_WDOG_CTRL) w (s.on EVR_WDOG_CTRL_lock)
  if wf v EVR_WDOG_CTRL_period = 0 then s.ret .range
  else
    let was := s.on EVR_WDOG_CTRL_en
    let s := s.wr EVR_WDOG_CTRL v
    (if !s.on EVR_WDOG_CTRL_en then wdStart 0 0 s
      else if was then s
      else wdStart (8 * s.get EVR_WDOG_CTRL_period) 0 s).ret .done

/-- A write of EVR_WDOG_KICK. -/
def wrKick (w : Word) (s : State) : State :=
  if w = 0xA5C3 then
    (if s.on EVR_WDOG_CTRL_en then wdStart (8 * s.get EVR_WDOG_CTRL_period) 0 s else s).ret .done
  else (s.addSat EVR_WDOG_STAT_bad_kicks 1).ret .range

/-- The watchdog counts on FOSC: enabled, and neither SC halted nor the part in stop. -/
def wdRuns (s : State) : Bool :=
  s.on EVR_WDOG_CTRL_en && s.on CRP_CLK_STAT_fosc_ready && decide (s.get (OWN_CORE_STAT_state 12) ≠ 2) && !s.stop && !blkHeld 28 s

/-- WDOG_EXPIRE: the first interval ends. -/
def wdExpire (s : State) : State :=
  if wdRuns s ∧ !s.on EVR_WDOG_STAT_second then wdStart (max 8 (s.get EVR_WDOG_CTRL_period)) 1 (s.raise 7) else s

/-- A read of EVR_WDOG_STAT: left is computed. -/
def rdWdogStat (s : State) : State :=
  let left := if s.on EVR_WDOG_CTRL_en then cdiv (s.wdLen * (msTicks / 8) - s.wdT) msTicks else 0
  s.retData [putField (s.rd EVR_WDOG_STAT) 16 16 left]

/-! ## Counters (R331 to R335) -/

/-- CNT_OVERFLOW: counter j of core c, at its largest value, counts one. -/
def cntOverflow (c j : Nat) (s : State) : State :=
  let sel := nth (s.cpu c).cntSel j
  let evt := fieldOf sel 0 6
  let full := decide (nth (s.cpu c).cnt j = 2 ^ 48 - 1)
  if 1 ≤ evt ∧ evt ≤ 13 ∧ full then
    let p := cntWrap c j {} (updCpu c (fun k => { k with cnt := upd k.cnt j fun _ => 0 }) s)
    p.2.foldl (fun s e => s.raise e) p.1
  else s

/-- PMC_OVERFLOW: system counter j, at its largest value, counts one. -/
def pmcOverflow (j : Nat) (s : State) : State :=
  let evt := s.get (PMC_SEL_evt j)
  if 1 ≤ evt ∧ evt ≤ 10 ∧ nth s.pmc j = 2 ^ 48 - 1 then
    let s := updPmc j (fun _ => 0) (s.set (PMC_SEL_ovf j) 1)
    if s.on (PMC_SEL_ovf_ie j) then s.raise 21 else s
  else s

/-- A read of PMC_CNT_L_j latches PMC_CNT_H_j (R294). -/
def rdPmcL (j : Nat) (s : State) : State :=
  let v := nth s.pmc j
  (s.wr (PMC_CNT_H j) (BitVec.ofNat 32 (v / 2 ^ 32))).retData [BitVec.ofNat 32 v]

/-- A write of PMC_CNT_L_j or PMC_CNT_H_j (R333). -/
def wrPmcL (j : Nat) (w : Word) (s : State) : State :=
  (updPmc j (fun v => v / 2 ^ 32 * 2 ^ 32 + w.toNat) s).ret .done

def wrPmcH (j : Nat) (w : Word) (s : State) : State :=
  let h := w.toNat % 2 ^ 16
  (updPmc j (fun v => v % 2 ^ 32 + 2 ^ 32 * h) (s.wr (PMC_CNT_H j) (BitVec.ofNat 32 h))).ret .done

/-! ## Shelves (R310 to R312) -/

/-- SC runs the boot ROM (R316). -/
def scInRom (s : State) : Bool := decide ((s.cpu 12).pc.toNat < 0x10000)

/-- The idle shelf of a core: A while SC runs the ROM (R314). -/
def idleShelf (c : Nat) (s : State) : Nat := if c = 12 ∧ scInRom s then 0 else 1 - s.get (OWN_CORE_STAT_active c)

/-- The checked mark of a shelf. -/
def chkFd (c sh : Nat) : Fd := if sh = 0 then OWN_CORE_STAT_chk_a c else OWN_CORE_STAT_chk_b c

/-- Core states: 0 RESET, 1 RUNNING, 2 HALTED. -/
def coreState (c : Nat) (s : State) : Nat := s.get (OWN_CORE_STAT_state c)

/-- The entry of the image in a shelf. -/
def entryOf (c sh : Nat) (s : State) : Nat := if sh = 0 then (s.cpu c).entryA else (s.cpu c).entryB

/-- Registers and CSRs of core c at their reset values; what the shelves hold stays (R312). -/
def cpuReset (c : Nat) (s : State) : State :=
  updCpu c (fun k => { lvl := if c = 12 then 2 else 1, entryA := k.entryA, entryB := k.entryB, verA := k.verA, verB := k.verB }) s

/-! ## Core commands (R313) -/

def coreEnd (c op : Nat) (o : Code) (s : State) : State :=
  ((s.set (OWN_CORE_RESULT_outcome c) o.n).set (OWN_CORE_RESULT_op c) op).ret o

/-- START. -/
def coreStart (c : Nat) (s : State) : State :=
  let sh := s.get (OWN_CORE_CTRL_boot_shelf c)
  if coreState c s = 0 ∧ s.on (chkFd c sh) then
    let s := ((s.set (OWN_CORE_STAT_state c) 1).set (OWN_CORE_STAT_active c) sh).set (OWN_CORE_STAT_fenced c) 0
    let s := updCpu c (fun k => { k with pc := BitVec.ofNat 32 (0x7F000000 + entryOf c sh s) }) (cpuReset c s)
    coreEnd c 1 .done s
  else coreEnd c 1 .state s

/-- The core is HALTED. -/
def coreHalted (c : Nat) (s : State) : State :=
  updCpu c (fun k => { k with haltReq := 0 }) ((lbCoreStop c s).set (OWN_CORE_STAT_state c) 2)

/-- The core waits in WAIT or EVWAIT. -/
def inWait (c : Nat) (s : State) : Bool :=
  match (s.cpu c).wait with
  | .wait | .evwait _ _ _ => true
  | .run | .swap _ => false

/-- HALT: at the next instruction boundary, at once from WAIT or EVWAIT. -/
def coreHalt (c : Nat) (s : State) : State :=
  if coreState c s ≠ 1 then coreEnd c 2 .state s
  else if inWait c s then coreEnd c 2 .done (coreHalted c s)
  else coreEnd c 2 .held (updCpu c (fun k => { k with haltReq := 1 }) s)

/-- RESUME. -/
def coreResume (c : Nat) (s : State) : State :=
  if coreState c s = 2 then coreEnd c 3 .done (s.set (OWN_CORE_STAT_state c) 1) else coreEnd c 3 .state s

/-- A signing command that waited for the loader starts (R467). -/
def signStart (s : State) : State :=
  { s with own := { s.own with sign := s.own.sign.map fun g =>
      if g.wait then { g with wait := false, start := s.now, band := s.bandTime, aon := s.clk.aon } else g } }

/-- The signing unit verifies the image of a LOAD, whose bytes are all hashed (R317, R467). -/
def loadVerifies (s : State) : Bool := s.load.any fun l => decide (l.hashAt ≤ s.now)

/-- A LOAD's final code, with LD_DONE. -/
def loadEnd (o : Code) (step reason : Nat) (s : State) : State :=
  let s := signStart { (s.set OWN_LD_RESULT_outcome o.n) with load := none }
  (((s.set OWN_LD_RESULT_busy 0).set OWN_LD_RESULT_step step).set OWN_LD_RESULT_reason reason).raise 22

/-- A write has reached shelf sh of core c: a report that is hashing it has it as changed (R469). -/
def shelfDirty (c sh : Nat) (s : State) : State :=
  { s with own := { s.own with sign := s.own.sign.map fun g =>
      if g.op = 1 ∧ !g.wait ∧ g.hashed.length = 2 * c + sh then { g with cur := true } else g } }

/-- The nominal band-clock periods in which n bytes pass at 8 bytes a system-clock cycle of 1.2 GHz without waits (R317, R469). -/
def byteTicks (n : Nat) : Nat := cdiv (n / 8 * 98304) 120000

/-- The shelf of a LOAD that does not end DONE: its contents are undefined (R316). -/
def shelfLost (l : Load) (s : State) : State :=
  shelfDirty l.c l.shelf (putFree (shelfBase l.c l.shelf) (shelfSize l.c) s)

/-- A LOAD that initialises the data memory of a core that is reset ends ABORTED, reason RESET: its shelf stays unchecked and its
contents are undefined (R317). -/
def loadAbort (c : Nat) (s : State) : State :=
  match s.load with
  | some l => if l.c = c ∧ l.dinit then loadEnd .aborted 0 1 (shelfLost l s) else s
  | none => s

/-- The port of core c's memories is fenced: the accesses to them that it has accepted, which the merge buffer completes within 32
cycles, are drained and their replies carry the stale tag (R321, R322, R340). -/
def portDrain (c : Nat) (s : State) : State :=
  (retireWith (if c = 12 then 0 else 2 + c) true (fun e => decide (c ≠ 12) || scMemory e.a) s).1

/-- The core goes to RESET: its swap is disarmed, its port fenced. -/
def coreToReset (c : Nat) (s : State) : State :=
  let s := portDrain c (lbCoreStop c s)
  let s := ((s.set (OWN_CORE_STAT_state c) 0).set (OWN_CORE_STAT_fenced c) 1).set (OWN_CORE_STAT_armed c) 0
  loadAbort c (cpuReset c s)

/-- RESET. -/
def coreResetCmd (c : Nat) (s : State) : State := coreEnd c 4 .done (coreToReset c s)

/-- A write of OWN_CORE_CTRL_c; core 13 has no such registers. -/
def wrCoreCtrl (c : Nat) (w : Word) (s : State) : State :=
  let op := wf w (OWN_CORE_CTRL_op c)
  if c = 13 then s.ret (if op = 0 then .done else .range)
  else
  let s := s.store (OWN_CORE_CTRL c) OWN_CORE_CTRL_fs w
  if op = 0 then s.ret .done
  else if c = 12 ∨ 4 < op then coreEnd c op .range s
  else match op with
    | 1 => coreStart c s
    | 2 => coreHalt c s
    | 3 => coreResume c s
    | _ => coreResetCmd c s

/-- A swap is under way (R298). -/
def inSwap (c : Nat) (s : State) : Bool :=
  match (s.cpu c).wait with
  | .swap _ => true
  | .run | .wait | .evwait _ _ _ => false

/-- CORE_HALT_DONE: the core reaches an instruction boundary, which no core in its swap has. -/
def haltDone (c : Nat) (s : State) : State :=
  if coreState c s = 1 ∧ !inSwap c s then
    match (s.cpu c).haltReq with
    | 0 => s
    | 1 =>
      let s := coreHalted c s
      (s.set (OWN_CORE_RESULT_outcome c) Code.done.n).set (OWN_CORE_RESULT_op c) 2
    | _ => coreHalted c s
  else s

/-! ## LOAD (R315) -/

/-- Whether the image whose header lies at `a` stays within the system SRAM. -/
def imageFits (a : Nat) (s : State) : Bool :=
  decide (0x10000000 ≤ a) && decide (a + 2048 + leVal (s.bytes (a + 0x0C) 4) + leVal (s.bytes (a + 0x18) 4) ≤ 0x10800000)

/-- A LOAD that ends at once. -/
def loadNow (o : Code) (s : State) : State :=
  ((((s.set OWN_LD_RESULT_outcome o.n).set OWN_LD_RESULT_step 0).set OWN_LD_RESULT_reason 0).raise 22).ret o

/-- The LOAD in progress changes. -/
def setLoad (l : Option Load) (s : State) : State := { s with load := l }

/-- LOAD. -/
def loadStart (c : Nat) (s : State) : State :=
  let src := s.get OWN_LD_SRC_addr
  if src % 8 ≠ 0 then loadNow .align s
  else
    let s := retireRange src (src + 28) s
    if 12 < c ∨ !imageFits src s then loadNow .range s
    else if s.load.isSome ∨ s.on (OWN_CORE_STAT_armed c) ∨ s.rst.atticBusy ∨ s.on CRP_ATTIC_STAT_hold then loadNow .state s
    else
      let sh := if coreState c s = 0 then s.get (OWN_CORE_CTRL_boot_shelf c) else idleShelf c s
      let dinit := decide (coreState c s = 0) || (decide (c = 12) && scInRom s)
      let s := (s.set OWN_LD_CMD_core c).set (chkFd c sh) 0
      let s := ((s.set OWN_LD_RESULT_busy 1).set OWN_LD_RESULT_shelf sh).set OWN_LD_RESULT_core c
      let s := ((s.set OWN_LD_RESULT_outcome Code.held.n).set OWN_LD_RESULT_step 0).set OWN_LD_RESULT_reason 0
      let n := 2048 + leVal (s.bytes (src + 0x0C) 4) + leVal (s.bytes (src + 0x18) 4)
      (setLoad (some { c, shelf := sh, src, dinit, hashAt := s.now + byteTicks n }) s).ret .held

/-- A write of OWN_LD_CMD. -/
def wrLdCmd (w : Word) (s : State) : State :=
  if wf w OWN_LD_CMD_load = 0 then plainWrite OWN_LD_CMD OWN_LD_CMD_fs w s else loadStart (wf w OWN_LD_CMD_core) s

/-- OWN_LD_FLOOR_k never falls. -/
def wrLdFloor (k : Nat) (w : Word) (s : State) : State :=
  if w.toNat < (s.rd (OWN_LD_FLOOR k)).toNat then s.ret .range else plainWrite (OWN_LD_FLOOR k) OWN_LD_FLOOR_fs w s

/-- OWN_LD_KEYTAB: a 16 KiB table in the system SRAM at a multiple of 2,048, not while a LOAD runs. -/
def wrLdKeytab (w : Word) (s : State) : State :=
  let a := w.toNat
  if a % 2048 ≠ 0 then s.ret .align
  else if a < 0x10000000 ∨ 0x10800000 < a + 16384 then s.ret .range
  else if s.load.isSome then s.ret .state
  else plainWrite OWN_LD_KEYTAB OWN_LD_KEYTAB_fs w s

/-! ## Resets -/

/-- The registers of EVR and the watchdog return to their reset values, and SC takes no non-maskable event until KTVEC is
written. -/
def resetEvr (s : State) : State :=
  { s.dropRange (EVR_PEND 0) (EVR_PEND 0 + 0x2000) with wdLen := 0, wdT := 0 }

/-- The system counters return to 0. -/
def resetPmc (s : State) : State := { s.dropRange (PMC_SEL 0) (PMC_SEL 0 + 0x1000) with pmc := List.replicate 32 0 }

/-! ## Meanings -/

def coreWrite (q : Rq) (c op : Nat) (b : Bool) (s : State) : Out :=
  let w := force (force 0 (OWN_CORE_CTRL_op c) op) (OWN_CORE_CTRL_boot_shelf c) b.toNat
  .next (gated q (OWN_CORE_CTRL c) OWN_CORE_CTRL_fs w (wrCoreCtrl c w) s)

def execCoreBootShelfSet (q : Rq) (c : Fin 13) (b : Bool) (s : State) : Out := coreWrite q c 0 b s
def execCoreStart (q : Rq) (c : Fin 13) (b : Bool) (s : State) : Out := coreWrite q c 1 b s
def execCoreHalt (q : Rq) (c : Fin 13) (b : Bool) (s : State) : Out := coreWrite q c 2 b s
def execCoreHaltDone (c : Fin 13) (s : State) : Out := .next (haltDone c s)
def execCoreResume (q : Rq) (c : Fin 13) (b : Bool) (s : State) : Out := coreWrite q c 3 b s
def execCoreReset (q : Rq) (c : Fin 13) (b : Bool) (s : State) : Out := coreWrite q c 4 b s

def execLoaderLoad (q : Rq) (c : Fin 16) (s : State) : Out :=
  let w := force (force 0 OWN_LD_CMD_load 1) OWN_LD_CMD_core c
  .next (gated q OWN_LD_CMD OWN_LD_CMD_fs w (wrLdCmd w) s)

def execSoftwareEventRaise (q : Rq) (w : Word) (s : State) : Out := .next (gated q EVR_RAISE [] w (wrEvrRaise w) s)
def execWdogKick (q : Rq) (w : Word) (s : State) : Out := .next (gated q EVR_WDOG_KICK [] w (wrKick w) s)
def execWdogExpire (s : State) : Out := .next (wdExpire s)
def execCntOverflow (c : Fin 13) (j : Fin 8) (s : State) : Out := .next (cntOverflow c j s)
def execPmcOverflow (j : Fin 32) (s : State) : Out := .next (pmcOverflow j s)
def execPmcCntLRead (q : Rq) (j : Fin 32) (s : State) : Out := .next (gatedRead q (PMC_CNT_L j) (rdPmcL j) s)

end Sys2Proof.Machine
end

