-- ==== Sys2Proof/Machine/Clk.lean ====
section
/-! DEFINITION. Clock sources, monitors, switches and the always-on time (chapter 13). -/

namespace Sys2Proof.Machine

def updClk (f : Clk → Clk) (s : State) : State := { s with clk := f s.clk }

/-- Event flag `b` of CRP_CLK_EVT, event 27 + b. -/
def clkEvt (b : Nat) (s : State) : State := s.flag ⟨CRP_CLK_EVT, b, 1⟩ (27 + b)

/-! ## PLLs (R367 to R371) -/

/-- A ready bit falls (R370). -/
def pllFall (p : Nat) (s : State) : State :=
  if s.on (pllReady p) then clkEvt 0 ((s.set (pllReady p) 0).addSat CRP_PLL_STAT_unlocks 1) else s

/-- The system domain runs on SPLL, or is being switched to it. -/
def onSpll (s : State) : Bool :=
  s.on CRP_CLK_STAT_sys_src || (match s.clk.sw with | some x => decide (x.target = 1) | none => false)

/-- PLL p still has a user (R369). -/
def pllUser (p : Nat) (s : State) : Bool :=
  match p with
  | 0 => (List.range 8).any fun n => s.on (FRM_LANE_CTRL_up n)
  | 1 => (List.range 8).any fun h => decide (hostState h s ≠ 0)
  | 2 => onSpll s
  | _ => ((List.range 128).any fun k => decide (admState k s ≠ 0)) || portAny (BND_PIN 0) (fun _ => true) s ||
      portAny (BND_POUT 0) (fun _ => true) s ||
      (List.range 8).any fun h => decide (hostState h s ≠ 0) && decide (s.get (HOST_CTRL_mode h) = 4)

/-- CRP_PLL_CTRL: tx_mode only with tx_en = 0; no PLL with a user is disabled. -/
def wrPllCtrl (w : Word) (s : State) : State :=
  let off := fun p => s.on (pllEn p) && decide (wf w (pllEn p) = 0)
  if s.chg w CRP_PLL_CTRL_tx_mode ∧ s.on CRP_PLL_CTRL_tx_en then s.ret .state
  else if (List.range 4).any fun p => off p && pllUser p s then s.ret .state
  else
    let gone := (List.range 4).filter off
    let s := s.store CRP_PLL_CTRL CRP_PLL_CTRL_fs w
    (gone.foldl (fun s p => (pllFall p s).set (pllHold p) 0) s).ret .done

/-- PLL_LOCK. -/
def pllLock (p : Nat) (s : State) : State :=
  if s.on (pllEn p) ∧ !s.on CRP_CLK_STAT_ref_fail ∧ clkLive s then
    updClk (fun c => { c with cold := c.cold.filter fun x => decide (x ≠ p) }) ((s.set (pllReady p) 1).set (pllHold p) 0)
  else s

/-- CRP_BPLL_TRIM: within ±102,400,000. -/
def wrBpllTrim (w : Word) (s : State) : State :=
  let t := sgn 28 (wf w CRP_BPLL_TRIM_trim)
  if 102400000 < t.natAbs then s.ret .range
  else
    let s := s.store CRP_BPLL_TRIM CRP_BPLL_TRIM_fs w
    (s.set CRP_BPLL_APPLIED_slewing (decide (s.get CRP_BPLL_TRIM_trim ≠ s.get CRP_BPLL_APPLIED_applied)).toNat).ret .done

/-- The applied trim moves by at most 1,024 units at a ramp tick (R371). -/
def trimTick (s : State) : State :=
  let s := s.seti CRP_BPLL_APPLIED_applied (towards (s.geti CRP_BPLL_APPLIED_applied) (s.geti CRP_BPLL_TRIM_trim) 1024)
  s.set CRP_BPLL_APPLIED_slewing (decide (s.get CRP_BPLL_TRIM_trim ≠ s.get CRP_BPLL_APPLIED_applied)).toNat

/-- RAMP_TICK (R36, R51): derived from REFCLK. -/
def rampTick (s : State) : State :=
  if !rampLive s then s
  else trimTick (forN 8 (fun n s => if blkHeld n s then s else rampDet n (rampConv n s)) s)

/-! ## Switches of the system domain (R380 to R382) -/

/-- A HELD switch command ends ABORTED, reason FALLBACK; an earlier switch is abandoned. -/
def swAbort (s : State) : State :=
  match s.clk.sw with
  | none => s
  | some x =>
    let s := updClk (fun c => { c with sw := none }) (s.set CRP_SYS_SEL_busy 0)
    if x.cmd then clkEvt 1 ((s.set CRP_SYS_SEL_outcome Code.aborted.n).set CRP_SYS_SEL_reason 1) else s

/-- A switch begins. -/
def swBegin (target : Nat) (cmd : Bool) (nmi : List Nat) (s : State) : State :=
  updClk (fun c => { c with sw := some ⟨target, cmd, nmi⟩ }) (s.set CRP_SYS_SEL_busy 1)

/-- Whether source t is ready. -/
def srcReady (t : Nat) (s : State) : Bool := if t = 0 then s.on CRP_CLK_STAT_fosc_ready else s.on (pllReady 2)

/-- A number joins a list that does not hold it. -/
def natJoin (e : Nat) (l : List Nat) : List Nat := if l.contains e then l else l ++ [e]

/-- The pending bits that wait for the switch in progress. -/
def swNmi (s : State) : List Nat :=
  match s.clk.sw with
  | some x => x.nmi
  | none => []

/-- The automatic switch to t, whose end sets pending bit e beside those of an automatic switch that it abandons; where t is not ready
the domain is gated (R377, R380). -/
def fallback (t e : Nat) (s : State) : State :=
  let l := natJoin e (swNmi s)
  let s := swAbort s
  if srcReady t s then swBegin t false l s
  else updClk (fun c => { c with gateNmi := l }) (s.set CRP_CLK_STAT_sys_gated 1)

/-- Pending bit e joins those that wait for the clock to start: while the domain is gated, or an automatic switch is under way. -/
def nmiJoin (e : Nat) (s : State) : State :=
  if s.on CRP_CLK_STAT_sys_gated then updClk (fun c => { c with gateNmi := natJoin e c.gateNmi }) s
  else updClk (fun c => { c with sw := c.sw.map fun x => { x with nmi := natJoin e x.nmi } }) s

/-- An automatic switch to t is under way. -/
def autoTo (t : Nat) (s : State) : Bool :=
  match s.clk.sw with
  | some x => !x.cmd && decide (x.target = t)
  | none => false

/-- The domain has reached source t: sys_src, and src set to match. -/
def swReached (t : Nat) (s : State) : State := (s.set CRP_CLK_STAT_sys_src t).set CRP_SYS_SEL_src t

/-- A write of CRP_SYS_SEL (R382). -/
def wrSysSel (w : Word) (s : State) : State :=
  let t := wf w CRP_SYS_SEL_src
  let put := fun (c : Code) (s : State) => ((s.set CRP_SYS_SEL_outcome c.n).set CRP_SYS_SEL_reason 0).ret c
  if s.clk.sw.isSome ∨ s.on CRP_CLK_STAT_sys_gated then put .state s
  else if t = s.get CRP_CLK_STAT_sys_src then put .done (s.set CRP_SYS_SEL_src t)
  else if !srcReady t s then put .notReady s
  else put .held (swBegin t true [] (s.set CRP_SYS_SEL_src t))

/-- A clock gives edges: ready, or SPLL in holdover. -/
def srcAlive (t : Nat) (s : State) : Bool := srcReady t s || (decide (t = 1) && pllRuns 2 s)

/-- CLOCK_SWITCH_DONE of the system domain. -/
def sysSwitched (forced : Bool) (s : State) : State :=
  match s.clk.sw with
  | none => s
  | some x =>
    if !srcAlive x.target s then s
    else
      let s := updClk (fun c => { c with sw := none }) (swReached x.target (s.set CRP_SYS_SEL_busy 0))
      let s := s.set CRP_SYS_SEL_forced forced.toNat
      let s := if forced then s.set CRP_CLK_STAT_forced 1 else s
      let s := if x.cmd then clkEvt 1 (s.set CRP_SYS_SEL_outcome Code.done.n) else s
      x.nmi.foldl (fun s e => s.raise e) s

/-! ## FOSC (R372, R374, R380) -/

/-- FOSC_READY: a gated domain starts on FOSC. -/
def foscReady (s : State) : State :=
  if s.on CRP_CLK_STAT_fosc_ready ∨ s.stop then s
  else
    let s := s.set CRP_CLK_STAT_fosc_ready 1
    if s.on CRP_CLK_STAT_sys_gated ∧ !s.rst.nofosc then
      s.clk.gateNmi.foldl (fun s e => s.raise e) (updClk (fun c => { c with gateNmi := [] }) (swReached 0 (s.set CRP_CLK_STAT_sys_gated 0)))
    else s

/-- The domain runs on FOSC, or is being switched to it. -/
def onFosc (s : State) : Bool :=
  match s.clk.sw with
  | some x => x.cmd || decide (x.target = 0)
  | none => !s.on CRP_CLK_STAT_sys_src

/-- FOSC_CHECK: cycles of FOSC in an AOSC period. FOSC has failed: a domain on it goes to SPLL, or is gated, and takes bit 1 then. -/
def foscCheck (n : Nat) (s : State) : State :=
  if !s.on CRP_CLK_STAT_aosc_ready ∨ s.stop ∨ (2800 ≤ n ∧ n ≤ 3300) then s
  else
    let s := (s.set CRP_CLK_STAT_fosc_fail 1).set CRP_CLK_STAT_fosc_ready 0
    if s.on CRP_CLK_STAT_sys_gated ∨ autoTo 1 s then nmiJoin 1 s
    else if onFosc s then fallback 1 1 s
    else s.raise 1

/-! ## The reference monitor (R377 to R379) -/

/-- REFCLK is declared failed. -/
def refFail (s : State) : State :=
  let s := forN 4 (fun p s => if s.on (pllReady p) then (pllFall p s).set (pllHold p) 1 else s) s
  let s := (s.set CRP_CLK_STAT_ref_fail 1).set CRP_CLK_STAT_ref_ok 0
  let s := updClk (fun c => { c with discBad := true, good := 0 }) (s.addSat CRP_REFCNT_fails 1)
  if s.on CRP_CLK_STAT_sys_gated ∨ autoTo 0 s then nmiJoin 0 s
  else if onSpll s ∨ s.clk.sw.isSome ∨ !s.on CRP_CLK_STAT_fosc_ready then fallback 0 0 s
  else s.raise 0

/-- REFCLK is declared good. -/
def refGood (s : State) : State :=
  let s := (s.set CRP_CLK_STAT_ref_fail 0).set CRP_CLK_STAT_ref_ok 1
  clkEvt 2 (updClk (fun c => { c with good := 0 }) s)

/-- REFMON_WINDOW_END: REFCLK cycles in a window. -/
def refWindow (n : Nat) (s : State) : State :=
  if !clkLive s then s
  else
    let s := (s.set CRP_REFCNT_count (min n 4095)).incMod CRP_REFCNT_windows
    if n < s.get CRP_REFMON_lo ∨ s.get CRP_REFMON_hi < n then
      if s.on CRP_CLK_STAT_ref_fail then updClk (fun c => { c with good := 0 }) s else refFail s
    else if s.on CRP_CLK_STAT_ref_ok then s
    else if s.get CRP_REFMON_ok_win ≤ s.clk.good + 1 then refGood s
    else updClk (fun c => { c with good := c.good + 1 }) s

/-- CRP_REFMON. -/
def wrRefmon (w : Word) (s : State) : State :=
  if wf w CRP_REFMON_hi ≤ wf w CRP_REFMON_lo ∨ wf w CRP_REFMON_ok_win = 0 then s.ret .range
  else plainWrite CRP_REFMON CRP_REFMON_fs w s

/-! ## Always-on time (R375, R376) -/

/-- The strapped REFCLK frequency in Hz. -/
def refHz (s : State) : Nat := if s.on CRP_CLK_STAT_ref_312 then 312500000 else 156250000

/-- AOSC_DISCIPLINE_END: REFCLK cycles counted over the run. -/
def discipline (n : Nat) (s : State) : State :=
  let bad := s.clk.discBad
  let s := updClk (fun c => { c with discBad := c.discBad && s.on CRP_CLK_STAT_ref_fail }) s
  if bad ∨ !s.on CRP_AOSC_INC_disc_en ∨ !s.on CRP_CLK_STAT_ref_ok ∨ !s.on CRP_CLK_STAT_aosc_ready ∨ s.stop then s
  else (s.seti CRP_AOSC_INC_inc (divEven (2 ^ 25 * n) (refHz s))).set CRP_AOSC_INC_valid 1

/-- CRP_AOSC_INC: inc is not written while disc_en = 1. -/
def wrAoscInc (w : Word) (s : State) : State :=
  if s.on CRP_AOSC_INC_disc_en ∧ s.chg w CRP_AOSC_INC_inc then s.ret .state
  else plainWrite CRP_AOSC_INC CRP_AOSC_INC_fs w s

/-- A write of CRP_AON_TIME_H stages; one of CRP_AON_TIME_L loads at the next AOSC cycle. -/
def wrAonH (w : Word) (s : State) : State := (updClk (fun c => { c with stage := w.toNat }) s).ret .done
def wrAonL (w : Word) (s : State) : State :=
  (updClk (fun c => { c with load := some (c.stage * 2 ^ 40 + w.toNat * 2 ^ 8) }) s).ret .done

/-- A read of CRP_AON_TIME_L latches the seconds. -/
def rdAonL (s : State) : State :=
  (s.wr CRP_AON_TIME_H (BitVec.ofNat 32 (s.clk.aon / 2 ^ 40))).retData [BitVec.ofNat 32 (s.clk.aon / 2 ^ 8)]

/-- One AOSC cycle of the always-on time. -/
def aoscCycle (s : State) : State :=
  if !s.on CRP_CLK_STAT_aosc_ready then s
  else updClk (fun c => match c.load with
    | some t => { c with aon := t, load := none }
    | none => { c with aon := (c.aon + s.get CRP_AOSC_INC_inc) % 2 ^ 72 }) s

/-- AOSC_READY (R373). -/
def aoscReady (s : State) : State := s.set CRP_CLK_STAT_aosc_ready 1

/-! ## Gating of block clocks (R384) -/

/-- Block b of CRP_GATE_STAT has work. -/
def gateWork (b : Nat) (s : State) : Bool :=
  match b with
  | 0 => (List.range 128).any fun k => decide (admState k s ≠ 0)
  | 1 => (List.range 128).any fun k => decide (rptState k s ≠ 0)
  | 2 => (List.range 2).any fun c => decide (lstState c s ≠ 0)
  | 3 => (List.range 4).any fun n => decide (seqState n s ≠ 0) || s.on (FEN_SPI_STAT_busy n)
  | 4 => (List.range 32).any fun c => let t := s.get (DMA_CH_STAT_state c); decide (t ≠ 0) && decide (t ≠ 4)
  | 5 => s.on SNK_PAIR_CTRL_en || (List.range 8).any fun n => s.on (FRM_LANE_CTRL_up n)
  | 6 => decide (s.sto.op ≠ 0) || s.on STO_NOR_RESULT_busy
  | 7 => true
  | 8 => !pmcIdle s
  | 9 => !s.bst.slices.isEmpty || s.bst.lb.isSome
  | 10 => false
  | 23 => (List.range 8).any fun n => s.on (FRM_LANE_CTRL_up n)
  | _ => decide (coreState (if b < 15 then b - 3 else b - 15) s = 1)

/-- CRP_GATE_STAT as it reads. -/
def gateStat (s : State) : Word :=
  BitVec.ofNat 32 ((List.range 24).foldl (fun x b =>
    x + (s.clk.awake / 2 ^ b % 2 = 1 ∨ gateWork b s ∨ bit (s.rd CRP_GATE_FORCE) b : Bool).toNat * 2 ^ b) 0)

/-- A block that has work keeps its clock for 16 cycles after it. -/
def gateTick (s : State) : State :=
  (List.range 24).foldl (fun s b => if gateWork b s then gateWake b s else s) s

/-- CLOCK_GATE_IDLE: 16 cycles without work or access. -/
def gateIdle (b : Nat) (s : State) : State :=
  if gateWork b s then s else updClk (fun c => { c with awake := c.awake - c.awake / 2 ^ b % 2 * 2 ^ b }) s

/-! ## CLKOUT (R385, R386) -/

/-- The ratio of PLL p to REFCLK in millionths, by the strap and, for TXPLL (p = 0), tx_mode (R366). -/
def pllRatio (p txMode : Nat) (s : State) : Nat :=
  let r := match p with
    | 0 => if txMode = 0 then 1453500000 else 726000000
    | 1 => 1360000000
    | 2 => 7680000
    | _ => 6291456
  if s.on CRP_CLK_STAT_ref_312 then r / 2 else r

/-- The rate that PLL p serves, in Hz (R366); BPLL's before its trim. -/
def pllHz (p txMode : Nat) (s : State) : Nat := refHz s * pllRatio p txMode s / 1000000

/-- Highest nominal frequency of a source over every mode, in Hz, rounded up (R385, R386). -/
def clkoutMax (src : Nat) (s : State) : Nat :=
  let up := fun (d hz : Nat) => (hz + d - 1) / d
  match src with
  | 0 => refHz s
  | 1 => 100000000
  | 2 => 32768
  | 3 | 4 => pllHz 2 0 s
  | 5 => pllHz 3 0 s
  | 6 => up 1024 (pllHz 1 0 s)
  | 7 => up 1024 (pllHz 0 0 s)
  | _ => if src < 16 then up 4096 (pllHz 0 0 s) else up 1024 (pllHz 1 0 s)

/-- A write of CRP_CLKOUT. -/
def wrClkout (w : Word) (s : State) : State :=
  let put := fun (c : Code) (s : State) => (s.set CRP_CLKOUT_outcome c.n).ret c
  let src := wf w CRP_CLKOUT_src
  if !s.chg w CRP_CLKOUT_en && !s.chg w CRP_CLKOUT_src && !s.chg w CRP_CLKOUT_div_m1 then s.ret .done
  else if 23 < src ∨ 250000000 * (wf w CRP_CLKOUT_div_m1 + 1) < clkoutMax src s then put .range s
  else if s.on CRP_CLKOUT_busy then put .state s
  else put .held ((s.store CRP_CLKOUT CRP_CLKOUT_fs w).set CRP_CLKOUT_busy 1)

/-- The level of the CLKOUT pin in half-cycle h of its source, counted from a rising edge of the pin: divisor 1 passes the source, an
odd divisor d is high for (d + 1)/2 source cycles (R385); a switch in progress holds it low (R381). -/
def clkoutLevel (h : Nat) (s : State) : Bool :=
  let d := s.get CRP_CLKOUT_div_m1 + 1
  !s.stop && s.on CRP_CLKOUT_en && !s.on CRP_CLKOUT_busy && (if d = 1 then decide (h % 2 = 0) else decide (h / 2 % d < (d + 1) / 2))

/-- CLOCK_SWITCH_DONE of CLKOUT. -/
def clkoutSwitched (forced : Bool) (s : State) : State :=
  if s.on CRP_CLKOUT_busy then
    let s := if forced then s.set CRP_CLK_STAT_forced 1 else s
    clkEvt 1 ((s.set CRP_CLKOUT_busy 0).set CRP_CLKOUT_outcome Code.done.n)
  else s

/-! ## Resets (R387) -/

/-- The clock registers at power-on reset and RESET_N; the time and AOSC go on (R387, R390). -/
def resetClk (s : State) : State :=
  let h := s.rd CRP_AON_TIME_H
  let a := s.get CRP_CLK_STAT_aosc_ready
  let s := s.dropRange CRP_CLK_EVT (CRP_CLK_EVT + 0x1000)
  let s := updClk (fun c => { c with good := 0, sw := none, gateNmi := [], cold := [], awake := 0 }) s
  (s.wr CRP_AON_TIME_H h).set CRP_CLK_STAT_aosc_ready a

/-- The straps are sampled at the release of those resets (R365, R378). -/
def sampleStraps (s : State) : State :=
  let s := s.set CRP_CLK_STAT_ref_312 s.clk.refSel.toNat
  if s.clk.refSel then (s.set CRP_REFMON_lo 2812).set CRP_REFMON_hi 3438
  else (s.set CRP_REFMON_lo 1406).set CRP_REFMON_hi 1719

/-- CLKOUT under every reset that reaches the control complex (R386). -/
def resetClkout (s : State) : State := s.wr CRP_CLKOUT 0

/-! ## Meanings -/

def pllWrite (q : Rq) (p v : Nat) (s : State) : Out :=
  let w := force (s.rd CRP_PLL_CTRL) (pllEn p) v
  .next (gated q CRP_PLL_CTRL CRP_PLL_CTRL_fs w (wrPllCtrl w) s)

def execRampTick (s : State) : Out := .next (rampTick s)
def execPllEnable (q : Rq) (p : Fin 4) (s : State) : Out := pllWrite q p 1 s
def execPllDisable (q : Rq) (p : Fin 4) (s : State) : Out := pllWrite q p 0 s
def execPllUnlock (p : Fin 4) (s : State) : Out := .next (pllFall p s)

def execBpllTrimWrite (q : Rq) (w : Word) (s : State) : Out :=
  .next (gated q CRP_BPLL_TRIM CRP_BPLL_TRIM_fs w (wrBpllTrim w) s)

def execFoscCheck (n : Nat) (s : State) : Out := .next (foscCheck n s)
def execAoscDisciplineEnd (n : Nat) (s : State) : Out := .next (discipline n s)

def execAonTimeHWrite (q : Rq) (w : Word) (s : State) : Out :=
  .next (gated q CRP_AON_TIME_H CRP_AON_TIME_H_fs w (wrAonH w) s)

def execAonTimeLoad (q : Rq) (w : Word) (s : State) : Out :=
  .next (gated q CRP_AON_TIME_L CRP_AON_TIME_L_fs w (wrAonL w) s)

def execAonTimeLRead (q : Rq) (s : State) : Out := .next (gatedRead q CRP_AON_TIME_L rdAonL s)
def execRefmonWindowEnd (n : Nat) (s : State) : Out := .next (refWindow n s)

def execSysSrcSelect (q : Rq) (src : Bool) (s : State) : Out :=
  let w := force 0 CRP_SYS_SEL_src src.toNat
  .next (gated q CRP_SYS_SEL CRP_SYS_SEL_fs w (wrSysSel w) s)

def execClkoutWrite (q : Rq) (w : Word) (s : State) : Out := .next (gated q CRP_CLKOUT CRP_CLKOUT_fs w (wrClkout w) s)
def execClockGateIdle (b : Fin 24) (s : State) : Out := .next (gateIdle b s)
def execAoscReady (s : State) : Out := .next (aoscReady s)

end Sys2Proof.Machine
end

