-- ==== Sys2Proof/Machine/Grd.lean ====
section
/-! DEFINITION. The housekeeping converters and the guard rails (chapter 16). -/

namespace Sys2Proof.Machine

def updHkd (p : Nat) (f : HkPin → HkPin) (s : State) : State := { s with hkd := upd s.hkd p f }

/-- Event flag `b` of HKC_EVT; both raise event 503. -/
def hkcEvt (b : Nat) (s : State) : State := s.flag ⟨HKC_EVT, b, 1⟩ 503

/-- The block is held in a reset (R444). -/
def hkcHeld (s : State) : Bool := blkHeld 24 s

/-! ## The scan (R430, R431) -/

/-- A measurement of die sensors has the converter; the entry in progress waits and then starts again (R431). -/
def scanWaits (s : State) : Bool := s.pwr.meas.any fun m => decide (m % 256 ≠ 0)

/-- A scan starts; one that a demand delays keeps no skew (R431). -/
def scanStart (s : State) : State :=
  let s := { (s.set HKC_SCAN_CTRL_busy 1) with scanIdx := 0 }
  let s := (s.set HKC_SCAN_CTRL_pre (scanWaits s).toNat).wr HKC_SCAN_T0 (BitVec.ofNat 32 (s.clk.aon / 2 ^ 8))
  forN 32 (fun i s => s.set (HKC_RES_valid i) 0) s

/-- A write of HKC_SCAN_CTRL. -/
def wrScanCtrl (w : Word) (s : State) : State :=
  if wf w HKC_SCAN_CTRL_run = 0 then plainWrite HKC_SCAN_CTRL HKC_SCAN_CTRL_fs w s
  else if s.on HKC_SCAN_CTRL_busy then (s.set HKC_SCAN_CTRL_outcome Code.state.n).ret .state
  else (scanStart ((s.store HKC_SCAN_CTRL HKC_SCAN_CTRL_fs w).set HKC_SCAN_CTRL_outcome Code.held.n)).ret .held

/-- The average of the 2^navg valid outputs of entry i, rounded convergently (R430). -/
def scanCode (i : Nat) (outs : List (BitVec 16)) (s : State) : Nat :=
  let n := 2 ^ s.get (HKC_ENT_navg i)
  (divEven ((List.range n).foldl (fun a j => a + (nth outs j).toNat) 0) n).toNat

/-- HKC_ENTRY_END: the filter's valid outputs during the entry, and whether the input was beyond range. -/
def entryEnd (outs : List (BitVec 16)) (ovr : Bool) (s : State) : State :=
  if !s.on HKC_SCAN_CTRL_busy ∨ hkcHeld s ∨ scanWaits s then s
  else
    let s := s.wr (HKC_RES s.scanIdx) (BitVec.ofNat 32 (scanCode s.scanIdx outs s + 65536 + 131072 * ovr.toNat))
    if s.scanIdx < s.get HKC_SCAN_CTRL_n_ent then { s with scanIdx := s.scanIdx + 1 }
    else
      let s := hkcEvt 0 ((s.set HKC_SCAN_CTRL_busy 0).set HKC_SCAN_CTRL_outcome Code.done.n)
      if s.on HKC_SCAN_CTRL_cont then scanStart s else s

/-- HKC_ENT_i: chan below 32 and osr from 8 on; not while a scan runs. -/
def wrHkcEnt (i : Nat) (w : Word) (s : State) : State :=
  if 32 ≤ wf w (HKC_ENT_chan i) ∨ wf w (HKC_ENT_osr i) < 8 then s.ret .range
  else if s.on HKC_SCAN_CTRL_busy && [HKC_ENT_chan i, HKC_ENT_order i, HKC_ENT_navg i, HKC_ENT_osr i].any (s.chg w) then s.ret .state
  else plainWrite (HKC_ENT i) HKC_ENT_fs w s

/-! ## Guard limits of a pin (R435, R436) -/

def pinRole (p : Nat) (s : State) : Nat := s.get (GRD_PIN_role p)
def pinLane (p : Nat) (s : State) : Nat := s.get (GRD_PIN_lane p)

/-- Full scale of a pin at its range, in µA for role 1, whose limit is a current, and in mV for role 2. -/
def pinScale (p : Nat) (s : State) : Nat :=
  let full := if pinRole p s = 1 then 30000 else 2500
  if s.on (HKD_CTRL_range p) then full / 4 else full

/-- The codes between which a pin's output is limited: role 1 from above, role 2 on both sides, role 0 not at all. -/
def pinLo (p : Nat) (s : State) : Int :=
  if pinRole p s = 2 then cdiv (s.get (GRD_PIN_LIM_lo p) * 65536) (pinScale p s) else 0

def pinHi (p : Nat) (s : State) : Int :=
  if pinRole p s = 1 ∨ pinRole p s = 2 then min 65535 (s.get (GRD_PIN_LIM_hi p) * 65536 / pinScale p s) else 65535

/-- An enabled pin in this mode breaks its role. -/
def roleBreach (p mode : Nat) (s : State) : Bool :=
  let r := pinRole p s
  decide (r = 3) || (decide (r = 1) && decide (mode = 0)) || (decide (r = 2) && decide (mode = 1))

/-! ## Laser-off (R440 to R442) -/

/-- A cause of the laser-off action acts on lane n. -/
def laneOff (n : Nat) (s : State) : Bool :=
  s.on GRD_STAT_txdis || s.fenForced || s.own.ext || decide (s.get GRD_STAT_trip_lanes / 2 ^ n % 2 = 1)

/-- Every role-1 pin bound to lane n drives 0 mA. -/
def pinsZero (n : Nat) (s : State) : State :=
  forN 16 (fun p s =>
    if pinRole p s = 1 ∧ pinLane p s = n then updHkd p (fun h => { h with zero := true, out := 0 }) s else s) s

/-- The laser-off action on lane n with its forced cause. -/
def laserOff (n cause : Nat) (s : State) : State := pinsZero n (forceOn n cause s)

/-- TX_DISABLE_ASSERT. -/
def txDisAssert (s : State) : State :=
  if s.on GRD_STAT_txdis then s
  else forN 8 (fun n s => laserOff n causeTxDis s) ((s.set GRD_STAT_txdis 1).addSat GRD_STAT_txdis_cnt 1)

/-- TX_DISABLE_DEASSERT: low for 1 µs. -/
def txDisDeassert (s : State) : State :=
  if s.on GRD_STAT_txdis then forN 8 (fun n s => forceOff n causeTxDis s) (s.set GRD_STAT_txdis 0) else s

/-- HKD_MONITOR_TRIP of pin p. -/
def pinTrip (p : Nat) (s : State) : State :=
  if s.get (HKD_STAT_state p) = 2 ∧ (pinRole p s = 1 ∨ pinRole p s = 2) ∧ !hkcHeld s then
    let n := pinLane p s
    let s := { (s.set (HKD_STAT_state p) 3) with trips := (n, p) :: s.trips }
    let t := s.get GRD_STAT_trip_lanes
    laserOff n causeTrip ((s.set GRD_STAT_trip_lanes (t ||| 2 ^ n)).raise 3)
  else s

/-- A write of GRD_TRIP_CLR (R443). -/
def wrTripClr (w : Word) (s : State) : State :=
  let named := fun n => decide (wf w GRD_TRIP_CLR_lanes / 2 ^ n % 2 = 1)
  if s.trips.any fun t => named t.1 && s.on (HKD_CTRL_en t.2) then s.ret .state
  else
    let s := { s with trips := s.trips.filter fun t => !named t.1 }
    let was := s.get GRD_STAT_trip_lanes
    let s := s.set GRD_STAT_trip_lanes (was &&& (255 - wf w GRD_TRIP_CLR_lanes))
    (forN 8 (fun n s => if named n && decide (was / 2 ^ n % 2 = 1) then forceOff n causeTrip s else s) s).ret .done

/-! ## Bias pins (R432 to R434, R558) -/

/-- 2^80 · sin(π k / 512) for 0 ≤ k ≤ 256 by its series, within 2^-70 of it. -/
def sin80 (k : Nat) : Int :=
  let x : Int := (3797952473636338580787993 : Int) * k / 512
  let x2 := x * x / 2 ^ 80
  let r := (List.range 13).foldl (fun (a : Int × Int) (i : Nat) =>
    let t := -(a.1 * x2 / 2 ^ 80) / ((2 * (i : Int) + 2) * (2 * (i : Int) + 3))
    (t, a.2 + t)) (x, x)
  r.2

/-- tbl[i] = round(32,767 · sin(2π i / 1,024)) (R434). -/
def sineTbl (i : Nat) : Int :=
  let q := i % 1024 / 256
  let k := i % 256
  let v := divEven (32767 * sin80 (if q % 2 = 0 then k else 256 - k)) (2 ^ 80)
  if q < 2 then v else -v

/-- One update of pin p (R434, R436); a pin held at 0 mA keeps driving that (R441). -/
def pinUpdate (p : Nat) (s : State) : State :=
  if s.get (HKD_STAT_state p) ≠ 2 then s
  else
    let sine := s.on (HKD_CTRL_sine_en p)
    let s := if sine then updHkd p (fun h => { h with phase := (h.phase + s.get (HKD_FW_fw p)) % 2 ^ 32 }) s else s
    let h := nth s.hkd p
    let dither := if sine then divEven (s.get (HKD_VAL_amp p) * sineTbl (h.phase / 2 ^ 22)) 32768 else 0
    let raw := clampI 0 65535 (s.get (HKD_VAL_code p) + dither)
    let out := min (max raw (pinLo p s)) (pinHi p s)
    let s := if h.zero then s else updHkd p (fun h => { h with out := out.toNat }) s
    if out = raw then s.set (HKD_STAT_clamped p) 0
    else
      let first := decide (s.get (HKD_STAT_clips p) = 0)
      let s := (s.set (HKD_STAT_clamped p) 1).addSat (HKD_STAT_clips p) 1
      if first then hkcEvt 1 s else s

/-- HKD_UPDATE: every connected pin. -/
def hkdUpdate (s : State) : State := if hkcHeld s then s else forN 16 pinUpdate s

/-- A pin write ends with a code in HKD_STAT. -/
def pinEnd (p : Nat) (c : Code) (s : State) : State := (s.set (HKD_STAT_outcome p) c.n).ret c

/-- A write of HKD_CTRL_p. -/
def wrHkdCtrl (p : Nat) (w : Word) (s : State) : State :=
  let en := decide (wf w (HKD_CTRL_en p) = 1)
  let was := s.on (HKD_CTRL_en p)
  let chg := s.chg w (HKD_CTRL_mode p) || s.chg w (HKD_CTRL_range p)
  let sine := !s.on (HKD_CTRL_sine_en p) && decide (wf w (HKD_CTRL_sine_en p) = 1)
  let st := s.get (HKD_STAT_state p)
  if en && roleBreach p (wf w (HKD_CTRL_mode p)) s then pinEnd p .guard s
  else if en && !was && decide (s.get GRD_STAT_trip_lanes / 2 ^ pinLane p s % 2 = 1) then pinEnd p .guard s
  else if st = 1 ∧ en ∧ chg then pinEnd p .state s
  else
    let s := s.store (HKD_CTRL p) HKD_CTRL_fs w
    let s := if sine then updHkd p (fun h => { h with phase := 0 }) s else s
    let s := if !en then s.set (HKD_STAT_state p) 0
      else if st = 3 then s
      else if !was || chg then s.set (HKD_STAT_state p) 1
      else s
    pinEnd p .done s

/-- HKD_CONNECT: 5 µs after the disconnection, at an update. -/
def pinConnect (p : Nat) (s : State) : State :=
  if s.get (HKD_STAT_state p) = 1 ∧ !hkcHeld s then
    pinUpdate p (updHkd p (fun h => { h with phase := 0 }) (s.set (HKD_STAT_state p) 2))
  else s

/-- A write of HKD_VAL_p (R436, R441). -/
def wrHkdVal (p : Nat) (w : Word) (s : State) : State :=
  let code : Int := wf w (HKD_VAL_code p)
  let amp : Int := wf w (HKD_VAL_amp p)
  let r := pinRole p s
  let chg := s.chg w (HKD_VAL_code p) || s.chg w (HKD_VAL_amp p)
  if chg ∧ (((r = 1 ∨ r = 2) ∧ pinHi p s < code + amp) ∨ (r = 2 ∧ code - amp < pinLo p s)) then pinEnd p .guard s
  else
    let s := s.store (HKD_VAL p) HKD_VAL_fs w
    let s := if laneOff (pinLane p s) s then s else updHkd p (fun h => { h with zero := false }) s
    pinEnd p .done s

/-- A read of HKD_STAT_p clears clips. -/
def rdHkdStat (p : Nat) (s : State) : State := (plainRead (HKD_STAT p) s).set (HKD_STAT_clips p) 0

/-! ## Working limits (R438, R439) -/

/-- GRD_CTRL: lock only rises. -/
def wrGrdLock (w : Word) (s : State) : State := (if wf w GRD_CTRL_lock = 1 then s.set GRD_CTRL_lock 1 else s).ret .done

/-- A limit that is looser the higher it is may not move from `cur` to `v`. -/
def loosened (cur v att : Nat) (s : State) : Bool := decide (cur < v) && (s.on GRD_CTRL_lock || decide (att < v))

/-- The swing that lane n drives: its own, or the ceiling where that is lower. -/
def drivenSwing (n : Nat) (s : State) : Nat := min (s.get (LANE_TX_CTRL_swing n)) (s.get GRD_SWING_work)

/-- A lane whose swing lies above the ceiling shows that it drives less. -/
def swingClamp (s : State) : State :=
  forN 8 (fun n s =>
    if blkHeld n s then s
    else s.set (LANE_TX_STATUS_clamped n) (decide (drivenSwing n s < s.get (LANE_TX_CTRL_swing n))).toNat) s

/-- A write of GRD_SWING. -/
def wrGrdSwing (w : Word) (s : State) : State :=
  if loosened (s.get GRD_SWING_work) (wf w GRD_SWING_work) (s.get GRD_SWING_attic) s then s.ret .guard
  else if s.chg w GRD_SWING_work then (swingClamp (s.store GRD_SWING GRD_SWING_fs w)).ret .done
  else s.ret .done

/-- A write of GRD_GAIN_d. -/
def wrGrdGain (d : Nat) (w : Word) (s : State) : State :=
  if loosened (s.get (GRD_GAIN_work d)) (wf w (GRD_GAIN_work d)) (s.get (GRD_GAIN_attic d)) s then s.ret .guard
  else
    let tight := decide (wf w (GRD_GAIN_work d) < s.get (GRD_GAIN_work d))
    let s := s.store (GRD_GAIN d) GRD_GAIN_fs w
    (if tight then gainTighten d s else s).ret .done

/-- A write of GRD_PIN_LIM_p. -/
def wrPinLim (p : Nat) (w : Word) (s : State) : State :=
  let lo := wf w (GRD_PIN_LIM_lo p)
  let hi := wf w (GRD_PIN_LIM_hi p)
  let lower := decide (lo < s.get (GRD_PIN_LIM_lo p)) && (s.on GRD_CTRL_lock || decide (lo < s.get (GRD_PIN_ATT_lo p)))
  if !s.chg w (GRD_PIN_LIM_lo p) && !s.chg w (GRD_PIN_LIM_hi p) then s.ret .done
  else if hi < lo then s.ret .range
  else if lower || loosened (s.get (GRD_PIN_LIM_hi p)) hi (s.get (GRD_PIN_ATT_hi p)) s then s.ret .guard
  else plainWrite (GRD_PIN_LIM p) GRD_PIN_LIM_fs w s

/-- A read of GRD_STAT clears txdis_cnt. -/
def rdGrdStat (s : State) : State := (plainRead GRD_STAT s).set GRD_STAT_txdis_cnt 0

/-! ## Resets (R444) -/

/-- HKC's reset: pins high-impedance, no scan. -/
def resetHkc (s : State) : State :=
  { s.dropRange HKC_EVT (HKC_EVT + 0x1000) with hkd := s.hkd.map fun h => { zero := h.zero }, scanIdx := 0 }

/-- GRD's reset (R390): limits at their lowest built-in values, no trip; TX_DISABLE goes on acting. -/
def resetGrd (s : State) : State :=
  let t := s.get GRD_STAT_txdis
  let s := { s.dropRange GRD_CTRL (GRD_CTRL + 0x1000) with trips := [] }
  forN 8 (fun n s => forceOff n causeTrip s) (s.set GRD_STAT_txdis t)

/-! ## Meanings -/

def execHkcScanRun (q : Rq) (w : Word) (s : State) : Out :=
  let w := force w HKC_SCAN_CTRL_run 1
  .next (gated q HKC_SCAN_CTRL HKC_SCAN_CTRL_fs w (wrScanCtrl w) s)

def execHkcEntryEnd (outs : List (BitVec 16)) (ovr : Bool) (s : State) : Out := .next (entryEnd outs ovr s)

def hkdWrite (q : Rq) (p : Nat) (w : Word) (s : State) : Out :=
  .next (gated q (HKD_CTRL p) HKD_CTRL_fs w (wrHkdCtrl p w) s)

def execHkdEnable (q : Rq) (p : Fin 16) (w : Word) (s : State) : Out := hkdWrite q p (force w (HKD_CTRL_en p) 1) s
def execHkdDisable (q : Rq) (p : Fin 16) (w : Word) (s : State) : Out := hkdWrite q p (force w (HKD_CTRL_en p) 0) s
def execHkdConnect (p : Fin 16) (s : State) : Out := .next (pinConnect p s)
def execHkdUpdate (s : State) : Out := .next (hkdUpdate s)

def execHkdValueWrite (q : Rq) (p : Fin 16) (w : Word) (s : State) : Out :=
  .next (gated q (HKD_VAL p) HKD_VAL_fs w (wrHkdVal p w) s)

def execHkdStatRead (q : Rq) (p : Fin 16) (s : State) : Out := .next (gatedRead q (HKD_STAT p) (rdHkdStat p) s)

/-- Limit k: the window of pin k for k below 16, then the swing ceiling and the gain ceilings. -/
def execGuardLimitWrite (q : Rq) (k : Fin 19) (w : Word) (s : State) : Out :=
  .next (if k.val < 16 then gated q (GRD_PIN_LIM k) GRD_PIN_LIM_fs w (wrPinLim k w) s
    else if k.val = 16 then gated q GRD_SWING GRD_SWING_fs w (wrGrdSwing w) s
    else gated q (GRD_GAIN (k - 17)) GRD_GAIN_fs w (wrGrdGain (k - 17) w) s)

def execHkdMonitorTrip (p : Fin 16) (s : State) : Out := .next (pinTrip p s)
def execTxDisableAssert (s : State) : Out := .next (txDisAssert s)
def execTxDisableDeassert (s : State) : Out := .next (txDisDeassert s)
def execTripClear (q : Rq) (w : Word) (s : State) : Out := .next (gated q GRD_TRIP_CLR GRD_TRIP_CLR_fs w (wrTripClr w) s)
def execGrdStatRead (q : Rq) (s : State) : Out := .next (gatedRead q GRD_STAT rdGrdStat s)

end Sys2Proof.Machine
end

