-- ==== Sys2Proof/Machine/Pwr.lean ====
section
/-! DEFINITION. Supply requests over AVSBus, junction sensors, demands and thresholds (chapter 15). Stop entry and wake stand in
Stop.lean. -/

namespace Sys2Proof.Machine

def updPwr (f : Pwr → Pwr) (s : State) : State := { s with pwr := f s.pwr }

/-- Event flag b of PWR_EVT. -/
def pwrEvt (b : Nat) (s : State) : State := s.flag ⟨PWR_EVT, b, 1⟩ (497 + b)

/-! ## Supply requests (R417 to R419) -/

/-- A Voltage write is sent: the request is HELD. -/
def avsStart (r : Avs) (s : State) : State :=
  updPwr (fun p => { p with avs := some r }) (((s.set PWR_AVS_STAT_busy 1).set PWR_AVS_STAT_tries 0).set PWR_AVS_STAT_outcome Code.held.n)

/-- Hardware's own request; it waits for a firmware request in progress (R419). -/
def avsHardware (r : Avs) (s : State) : State :=
  match s.pwr.avs with
  | some _ => updPwr (fun p => { p with avsNext := some r }) s
  | none => avsStart r s

/-- The millivolts that a rail accepts (R419). -/
def avsRange (rail mv : Nat) : Bool :=
  if rail = 0 then decide (650 ≤ mv) && decide (mv ≤ 800) else decide (855 ≤ mv) && decide (mv ≤ 945)

/-- A write of PWR_AVS_REQ. -/
def wrAvsReq (w : Word) (s : State) : State :=
  if wf w PWR_AVS_REQ_go = 0 then plainWrite PWR_AVS_REQ PWR_AVS_REQ_fs w s
  else
    let rail := wf w PWR_AVS_REQ_rail
    let mv := wf w PWR_AVS_REQ_mv
    let out := fun (c : Code) (s : State) => (s.set PWR_AVS_STAT_outcome c.n).ret c
    if !avsRange rail mv then out .range s
    else if s.pwr.avs.isSome || s.pwr.avsNext.isSome then out .state s
    else out .held (avsStart ⟨rail, mv, 0, none⟩ (s.store PWR_AVS_REQ PWR_AVS_REQ_fs w))

/-- The request ends. A request of stop entry lets the power-down go on; one of the wake lets the wake go on (R410, R416). -/
def avsEnd (r : Avs) (c : Code) (s : State) : State :=
  let s := updPwr (fun p => { p with avs := none }) ((s.set PWR_AVS_STAT_busy 0).set PWR_AVS_STAT_outcome c.n)
  let ok := decide (c = .done)
  let s := if ok && r.rail = 0 then s.set PWR_AVS_CTRL_run_mv r.mv else s
  let s := pwrEvt (if ok then 5 else 3) s
  let s := if r.who ≠ 0 ∧ !ok then s.set PWR_STAT_avs_fail 1 else s
  let s := if r.who = 1 then updPwr (fun p => { p with st := 3 }) s else s
  match s.pwr.avsNext with
  | some n => avsStart n (updPwr (fun p => { p with avsNext := none }) s)
  | none => s

/-- AVS_RESPONSE: the AckCode, whether a later Status read shows VDone, and the voltage that the Voltage read reports, if it
gets a reply with AckCode 00. -/
def avsResponse (ack : Nat) (vdone : Bool) (mv : Option Nat) (s : State) : State :=
  match s.pwr.avs with
  | some r =>
    let r := { r with ack := some ack }
    let s := updPwr (fun p => { p with avs := some r }) (s.set PWR_AVS_STAT_ack ack)
    if ack = 0 ∧ vdone then
      let s := match mv with
        | some v => s.set PWR_AVS_STAT_read_mv v
        | none => s
      avsEnd r .done s
    else s
  | none => s

/-- AVS_ATTEMPT_TIMEOUT: 50 µs have passed without an acknowledgement. -/
def avsTimeout (s : State) : State :=
  match s.pwr.avs with
  | some r =>
    let t := s.get PWR_AVS_STAT_tries
    if t < 3 then s.set PWR_AVS_STAT_tries (t + 1)
    else avsEnd r (if r.ack = some 2 then .bus else .timeout) s
  | none => s

/-- PWR_AVS_CTRL. -/
def wrAvsCtrl (w : Word) (s : State) : State :=
  if avsRange 0 (wf w PWR_AVS_CTRL_ret_mv) && avsRange 0 (wf w PWR_AVS_CTRL_run_mv) then
    plainWrite PWR_AVS_CTRL PWR_AVS_CTRL_fs w s
  else s.ret .range

/-- PWR_MODE (R411). -/
def wrPwrMode (w : Word) (s : State) : State :=
  if 1 < wf w PWR_MODE_mode then s.ret .range else plainWrite PWR_MODE PWR_MODE_fs w s

/-- PWR_LARDER (R412). -/
def wrPwrLarder (w : Word) (s : State) : State :=
  if 2048 < wf w PWR_LARDER_count then s.ret .range else plainWrite PWR_LARDER PWR_LARDER_fs w s

/-! ## Thresholds (R424 to R426) -/

/-- Shutdown becomes active (R426 steps 1 and 2). -/
def shutdownOn (s : State) : State :=
  let s := forN 8 (fun n s => laserOff n causeThermal s) (rptTherm true s)
  updPwr (fun p => { p with shut := true }) ((fenForceOn s).raise 2)

/-- Shutdown becomes inactive. -/
def shutdownOff (s : State) : State := forN 8 (fun n s => forceOff n causeThermal s) (rptTherm false (fenForceOff s))

/-- Throttle changes state: capacity, equaliser, calibration (R50, R94, R196). -/
def throttled (s : State) : State :=
  let s := forN 8 (fun n s => if blkHeld n s then s
    else reduceEval n (calThrottle n s)) (bandThrottle s)
  pwrEvt 1 s

/-- State of threshold k (0 warning, 1 throttle, 2 shutdown) in TH_STAT. -/
def thFd (k : Nat) : Fd := ⟨TH_STAT, k, 1⟩

/-- The state that T gives threshold k. -/
def thNext (k : Nat) (t : Int) (s : State) : Bool :=
  let thr := s.geti (TH_THR_thr k)
  if thr ≤ t then true else if t ≤ thr - s.get (TH_THR_hyst k) then false else s.on (thFd k)

/-- The evaluation of one threshold with its actions. -/
def thEval (k : Nat) (v : Bool) (s : State) : State :=
  if v = s.on (thFd k) then s
  else
    let s := s.set (thFd k) v.toNat
    if k = 2 then (if v then shutdownOn s else shutdownOff s) else if k = 1 then throttled s else pwrEvt 0 s

/-- All three on the same T, in the order shutdown, throttle, warning. -/
def thEvaluate (t : Int) (s : State) : State :=
  let v0 := thNext 0 t s
  let v1 := thNext 1 t s
  let v2 := thNext 2 t s
  thEval 0 v0 (thEval 1 v1 (thEval 2 v2 (s.seti TH_STAT_t_max t)))

/-- TH_THR_k (R425). -/
def wrThThr (k : Nat) (w : Word) (s : State) : State :=
  let thr := fun j => if j = k then sgn 16 (wf w (TH_THR_thr k)) else s.geti (TH_THR_thr j)
  let hyst := wf w (TH_THR_hyst k)
  if thr 1 < thr 0 ∨ thr 2 < thr 1 ∨ hyst < 16 ∨ 320 < hyst then s.ret .range
  else if k = 2 ∧ 2000 < thr 2 then s.ret .guard
  else plainWrite (TH_THR k) TH_THR_fs w s

/-- TH_CTRL. -/
def wrThCtrl (w : Word) (s : State) : State :=
  let t := wf w TH_CTRL_timer_ms
  let d := wf w TH_CTRL_shut_ms
  if t = 0 ∨ 1000 < t ∨ d = 0 ∨ 100 < d then s.ret .range else plainWrite TH_CTRL TH_CTRL_fs w s

/-! ## Demands (R420 to R423) -/

/-- The measurement in progress ends; HKC is fenced (R422) or its readings stand. -/
def measStop (c : Code) (s : State) : State :=
  updPwr (fun p => { p with meas := none }) ((s.set TH_CMD_busy 0).set TH_CMD_outcome c.n)

/-- A measurement ends with HKC fenced: the readings and states hold; TH_DONE (R14, R422). -/
def measFenced (s : State) : State := measStop .fenced (pwrEvt 2 (s.addSat TH_STAT_fails 1))

/-- A measurement starts; it preempts a scan (R431). With HKC fenced it ends at once. -/
def measStart (mask : Nat) (s : State) : State :=
  let s := updPwr (fun p => { p with meas := some mask }) (s.set TH_CMD_busy 1)
  if hkcHeld s then measFenced s
  else if mask % 256 ≠ 0 ∧ s.on HKC_SCAN_CTRL_busy then s.set HKC_SCAN_CTRL_pre 1
  else s

/-- The pending demand runs, once nothing else is measured (R422). -/
def measPending (s : State) : State :=
  if s.pwr.measNext ≠ 0 ∧ s.pwr.meas.isNone then
    measStart s.pwr.measNext (updPwr (fun p => { p with measNext := 0 }) (s.set TH_CMD_pending 0))
  else s

/-- A demand joins the pending one. -/
def measJoin (mask : Nat) (s : State) : State :=
  updPwr (fun p => { p with measNext := p.measNext ||| mask }) (s.set TH_CMD_pending 1)

/-- A demand: at once, or joined to the pending one while a measurement runs or from step 3 of stop entry on. -/
def demand (mask : Nat) (s : State) : State :=
  if s.pwr.meas.isSome ∨ 2 ≤ s.pwr.st then measJoin mask s else measStart mask s

/-- A write of TH_CMD. -/
def wrThCmd (w : Word) (s : State) : State :=
  let mask := wf w TH_CMD_mask
  if mask = 0 then (s.set TH_CMD_outcome Code.range.n).ret .range
  else (demand mask (s.set TH_CMD_outcome Code.held.n)).ret .held

/-- TH_SENS_8 takes CEL_TEMP; not valid while the cellar is ABSENT (R420, R421). -/
def sensCellar (s : State) : State :=
  let s := s.set (TH_SENS_temp 8) (s.get CEL_TEMP_temp)
  s.set (TH_SENS_valid 8) (if s.get CEL_STAT_state = 0 then 0 else s.get CEL_TEMP_valid)

/-- The named sensors' readings are written and the thresholds evaluated. -/
def readings (mask : Nat) (temps : List Int) (s : State) : State :=
  let named := (List.range 8).filter fun i => decide (mask / 2 ^ i % 2 = 1)
  let s := named.foldl (fun s i => (s.seti (TH_SENS_temp i) (satI 16 (nth temps i))).set (TH_SENS_valid i) 1) s
  let s := if mask / 256 % 2 = 1 then sensCellar s else s
  let s := pwrEvt 2 s
  match named with
  | [] => s
  | i :: t => thEvaluate (t.foldl (fun m j => max m (satI 16 (nth temps j))) (satI 16 (nth temps i))) s

/-- THERMAL_MEASUREMENT_END: the readings of the sensors 0 to 7 in 1/16 °C. The pending demand then runs, even in a stop entry
past step 3 where it has joined a measurement in progress. -/
def thMeasEnd (temps : List Int) (s : State) : State :=
  match s.pwr.meas with
  | some mask =>
    let s := if hkcHeld s then measFenced s else measStop .done (readings mask temps s)
    measPending s
  | none => s

/-- THERMAL_TIMER_EXPIRE: in run only. -/
def thTimer (s : State) : State := if s.pwr.st ≤ 1 ∧ clkLive s then demand 255 s else s

/-- HKC is fenced while a measurement runs (R422). -/
def measFence (s : State) : State :=
  match s.pwr.meas with
  | some _ => measPending (measFenced s)
  | none => s

/-- DROOP_COMPARATOR_TRIP: in stop. -/
def droop (s : State) : State := if s.pwr.st = 4 then s.set PWR_STAT_droop_seen 1 else s

/-! ## Resets -/

/-- Power-on reset and RESET_N (R390): the registers of this chapter; an active shutdown ends with them. -/
def resetPwr (s : State) : State :=
  let s := if s.on TH_STAT_shutdown then shutdownOff s else s
  updPwr (fun _ => {}) (s.dropRange PWR_MODE (PWR_MODE + 0x1000))

/-! ## Meanings -/

def execAvsRequest (q : Rq) (w : Word) (s : State) : Out :=
  let w := force w PWR_AVS_REQ_go 1
  .next (gated q PWR_AVS_REQ PWR_AVS_REQ_fs w (wrAvsReq w) s)

def execThermalDemand (q : Rq) (w : Word) (s : State) : Out := .next (gated q TH_CMD TH_CMD_fs w (wrThCmd w) s)
def execThermalTimerExpire (s : State) : Out := .next (thTimer s)
def execThresholdWrite (q : Rq) (k : Fin 3) (w : Word) (s : State) : Out := .next (gated q (TH_THR k) TH_THR_fs w (wrThThr k w) s)
def execDroopComparatorTrip (s : State) : Out := .next (droop s)

end Sys2Proof.Machine
end

