-- ==== Sys2Proof/Machine/Own.lean ====
section
/-! DEFINITION. Ownership, keys, the signing unit, and the parts of the management interface and of the hatch that make no bus
access (chapter 17). -/

namespace Sys2Proof.Machine

def updOwn (f : Own → Own) (s : State) : State := { s with own := f s.own }

/-- Event flag b of OWN_EVT. -/
def ownEvt (b : Nat) (s : State) : State := s.flag ⟨OWN_EVT, b, 1⟩ (504 + b)

def ownHeld (s : State) : Bool := blkHeld 27 s

/-! ## Election and lease (R449, R450) -/

/-- A claim, renewal or accept that does not end DONE (R452). -/
def ownRefuse (q : Rq) (a : Nat) (c : Code) (s : State) : State := (logRefusal q a c s).ret c

/-- The lease starts with the length that OWN_LEASE_CFG gives. -/
def leaseStart (s : State) : State := updOwn (fun o => { o with leaseLen := s.get OWN_LEASE_CFG_lease_ms, leaseAt := s.now }) s

/-- The owner changes; `cls` 0 is none. -/
def setOwner (cls addr : Nat) (s : State) : State :=
  ownEvt 0 (((s.set OWN_STAT_owner cls).set OWN_STAT_addr addr).incMod OWN_STAT_changes)

/-- The class may claim (R449, R451). -/
def mayClaim (cls : Nat) (s : State) : Bool :=
  decide (1 ≤ cls) && decide (cls ≤ 4) && decide (s.get OWN_POLICY_claim_mask / 2 ^ (cls - 1) % 2 = 1)

/-- A write of OWN_CLAIM. -/
def wrClaim (q : Rq) (w : Word) (s : State) : State :=
  if w ≠ 0x0C1A then ownRefuse q OWN_CLAIM .range s
  else if !mayClaim q.cls s || (decide (q = .hatch) && decide (s.get OWN_HATCH_STAT_level ≠ 2)) then
    ownRefuse q OWN_CLAIM .notOwner s
  else if s.get OWN_STAT_owner ≠ 0 then ownRefuse q OWN_CLAIM .state s
  else (leaseStart (setOwner q.cls q.faddr s)).ret .done

/-- A write of OWN_LEASE. -/
def wrLease (q : Rq) (w : Word) (s : State) : State :=
  if wf w OWN_LEASE_renew = 0 then
    (if q.cls = 0 ∨ isOwner q s then s.ret .done else refuseLog q OWN_LEASE .notOwner s)
  else if s.get OWN_STAT_owner = 0 then ownRefuse q OWN_LEASE .state s
  else if isOwner q s then (leaseStart s).ret .done
  else ownRefuse q OWN_LEASE .notOwner s

/-- OWN_LEASE as it reads: milliseconds until the lapse. -/
def leaseReg (s : State) : Word :=
  let left := if s.get OWN_STAT_owner = 0 then 0
    else cdiv (s.own.leaseLen * msTicks - (s.now - s.own.leaseAt)) msTicks
  BitVec.ofNat 32 (min left 65535 * 65536)

/-- OWN_LEASE_CFG. -/
def wrLeaseCfg (w : Word) (s : State) : State :=
  let n := wf w OWN_LEASE_CFG_lease_ms
  if n < 100 ∨ 60000 < n then s.ret .range else plainWrite OWN_LEASE_CFG OWN_LEASE_CFG_fs w s

/-! ## Handover (R451) -/

/-- A pending handover ends. -/
def hoEnd (c : Code) (reason : Nat) (s : State) : State :=
  if s.on OWN_STAT_ho_pend then
    let s := (s.set OWN_STAT_succ 0).set OWN_STAT_ho_pend 0
    (s.set OWN_HO_RESULT_outcome c.n).set OWN_HO_RESULT_reason reason
  else s

/-- The handover command ends or is HELD at once. -/
def hoNow (c : Code) (s : State) : State := ((s.set OWN_HO_RESULT_outcome c.n).set OWN_HO_RESULT_reason 0).ret c

/-- A write of OWN_HANDOVER. A write that changes neither field, from a master without the right, has no effect (R554). -/
def wrHandover (q : Rq) (w : Word) (s : State) : State :=
  let succ := wf w OWN_HANDOVER_succ
  let owner := s.get OWN_STAT_owner
  let self := decide (succ = owner) &&
    (decide (succ ≠ 2) || decide (wf w OWN_HANDOVER_succ_addr = s.get OWN_STAT_addr))
  if !ownRight q s then s.ret .done
  else if owner = 0 then s.ret .state
  else if s.on OWN_STAT_ho_pend then
    if succ = 0 then (hoEnd .aborted 1 (s.store OWN_HANDOVER OWN_HANDOVER_fs w)).ret .done else s.ret .state
  else if !mayClaim succ s || self then hoNow .range s
  else
    let s := s.store OWN_HANDOVER OWN_HANDOVER_fs w
    hoNow .held ((s.set OWN_STAT_succ succ).set OWN_STAT_ho_pend 1)

/-- The requester is the successor that the pending handover names. -/
def isNamed (q : Rq) (s : State) : Bool :=
  decide (q.cls = s.get OWN_STAT_succ) && (decide (q.cls ≠ 2) || decide (q.faddr = s.get OWN_HANDOVER_succ_addr))

/-- A write of OWN_ACCEPT. -/
def wrAccept (q : Rq) (w : Word) (s : State) : State :=
  if w ≠ 0x0ACC then ownRefuse q OWN_ACCEPT .range s
  else if !s.on OWN_STAT_ho_pend then ownRefuse q OWN_ACCEPT .state s
  else if !isNamed q s then ownRefuse q OWN_ACCEPT .notOwner s
  else (leaseStart (setOwner q.cls q.faddr (hoEnd .done 0 s))).ret .done

/-- LEASE_LAPSE. -/
def lapse (s : State) : State :=
  if s.get OWN_STAT_owner = 0 then s else ownEvt 1 (setOwner 0 0 (hoEnd .aborted 2 s))

/-- HANDOVER_TIMEOUT. -/
def hoTimeout (s : State) : State := hoEnd .timeout 0 s

/-! ## What the attic presents (R457, R463, R464, R557) -/

/-- The attic load has completed with a valid copy, and no reset that reaches the attic values is in force. -/
def atticGood (s : State) : Bool :=
  s.on CRP_ATTIC_STAT_done && !s.on CRP_ATTIC_STAT_hold && !s.rst.atticBusy && !s.rst.por && !s.rst.resetN &&
    !(s.rst.wide && s.rst.deep) && !s.stop

/-- Majority of three copies of a bit. -/
def majority (n : Nat) : Bool := decide (2 ≤ n % 2 + n / 2 % 2 + n / 4 % 2)

/-- A slot is usable. -/
def KeySlot.usable (k : KeySlot) : Bool := k.ok && majority k.enrolled && !majority k.revoked

/-- The little-endian word at byte offset o of a byte string. -/
def wordAt (l : List Byte) (o : Nat) : Word := BitVec.ofNat 32 (leVal ((List.range 4).map fun i => nth l (o + i)))

/-- OWN_KEYSLOT_k shows slot k. -/
def showSlot (k : Nat) (s : State) : State :=
  let t := nth s.attic.slots k
  let s := s.wr (OWN_KEYSLOT k)
    (BitVec.ofNat 32 ((majority t.enrolled).toNat + 2 * (majority t.revoked).toNat + 4 * t.usable.toNat))
  forN 8 (fun i s => s.wr (OWN_KEYSLOT k + 4 + 4 * i) (wordAt t.hash (4 * i))) s

/-- DEV_ID: the SHAKE256 output of 32 bytes over the public key. -/
def devId (s : State) : List Byte :=
  match s.attic.pub with
  | some k => Config.shake256 32 k
  | none => List.replicate 32 0

/-- The copy of the parameter block in use (R400). -/
def atticUsed (s : State) : AtticPar := if s.attic.a.ok then s.attic.a else s.attic.b

/-- The values of the OWN block that the attic gives; without a valid load they stay at their lowest values. -/
def ownAttic (s : State) : State :=
  if !atticGood s then s
  else
    let s := if s.attic.polOk then
        ((s.set OWN_POLICY_claim_mask s.attic.claimMask).set OWN_POLICY_read_mask s.attic.readMask).set OWN_POLICY_hatch_field
          s.attic.hatchField.toNat
      else s
    let s := forN 12 showSlot s
    let s := forN 3 (fun k s => s.wr (OWN_LD_FLOOR (k + 1)) (BitVec.ofNat 32 (nth (atticUsed s).floors k))) s
    let s := if s.on OWN_POLICY_hatch_field then s else s.set OWN_HATCH_STAT_level 2
    match s.attic.pub with
    | some k =>
      let s := forN 8 (fun j s => s.wr (OWN_ID j) (wordAt (devId s) (4 * j))) s
      forN 449 (fun j s => s.wr (OWN_IDPUB j) (wordAt (k.take 1793) (4 * j))) s
    | none => s

/-! ## Secrets (R462, R463, R560) -/

/-- The bytes from lo up to hi are 0, with good check bits. -/
def clearBytes (lo hi : Nat) (s : State) : State :=
  { s with
    mem := s.mem.filter fun c => !(decide (lo ≤ c.1) && decide (c.1 < hi))
    ecc := s.ecc.filter fun c => !(decide (lo ≤ c.1) && decide (c.1 < hi)) }

/-- Zeroisation of the key RAM and the secret window. -/
def zeroise (s : State) : State :=
  let lo := secretLo s
  let hi := secretHi s
  let s := updOwn (fun o => { o with keyRam := [] }) (clearBytes lo hi (retireRange lo hi s))
  ((s.set OWN_ZERO_key_ready 0).set OWN_ZERO_zeroised 1).addSat OWN_ZERO_count 1

/-- A write of OWN_ZERO. -/
def wrOwnZero (w : Word) (s : State) : State :=
  if wf w OWN_ZERO_keyload = 0 then plainWrite OWN_ZERO OWN_ZERO_fs w s
  else if s.get OWN_HATCH_STAT_level ≠ 0 ∨ s.own.key = 2 then
    (s.set OWN_ZERO_outcome Code.state.n).ret .state
  else
    let s := ((s.store OWN_ZERO OWN_ZERO_fs w).set OWN_ZERO_key_ready 0).set OWN_ZERO_outcome Code.held.n
    (updOwn (fun o => { o with key := 2 }) s).ret .held

/-- KEY_LOAD_DONE: the key RAM holds what the private-key record does. -/
def keyLoaded (s : State) : State :=
  if s.own.key = 0 ∨ ownHeld s then s
  else
    let s := if s.own.key = 2 then s.set OWN_ZERO_outcome Code.done.n else s
    updOwn (fun o => { o with key := 0, keyRam := s.attic.priv.getD [] }) (s.set OWN_ZERO_key_ready 1)

/-- The window lies in the system SRAM, is not empty and is at most 256 KiB. -/
def windowOk (lo hi : Nat) : Bool :=
  decide (0x10000 ≤ lo) && decide (hi ≤ 0x10800) && decide (lo < hi) && decide (hi - lo ≤ 64)

/-- A write of OWN_SECRET_LO (`hiReg` false) or OWN_SECRET_HI. -/
def wrSecret (hiReg : Bool) (w : Word) (s : State) : State :=
  let a := if hiReg then OWN_SECRET_HI else OWN_SECRET_LO
  let fs := if hiReg then OWN_SECRET_HI_fs else OWN_SECRET_LO_fs
  let t := s.wr a (mergeWord fs (s.rd a) w (s.on OWN_SECRET_LO_lock))
  let lo := t.get OWN_SECRET_LO_base
  let hi := t.get OWN_SECRET_HI_end
  let same := decide (lo = s.get OWN_SECRET_LO_base) && decide (hi = s.get OWN_SECRET_HI_end)
  if same || windowOk lo hi then t.ret .done else s.ret .range

/-! ## Key fusing (R466) -/

/-- The bytes lie in the system SRAM. -/
def inSram (a n : Nat) : Bool := decide (0x10000000 ≤ a) && decide (a + n ≤ 0x10800000)

def fuseNow (c : Code) (s : State) : State := (s.set OWN_FUSE_RESULT_outcome c.n).ret c

/-- Slot k is the last usable image-key slot. -/
def lastUsable (k : Nat) (s : State) : Bool :=
  decide (k < 8) && (nth s.attic.slots k).usable &&
    !((List.range 8).any fun j => decide (j ≠ k) && (nth s.attic.slots j).usable)

/-- A write of OWN_FUSE_CMD. -/
def wrFuseCmd (w : Word) (s : State) : State :=
  let op := wf w OWN_FUSE_CMD_op
  let k := wf w OWN_FUSE_CMD_slot
  let buf := s.get OWN_FUSE_BUF_buf
  if op = 0 ∨ op = 3 ∨ 11 < k ∨ buf % 8 ≠ 0 ∨ !inSram buf 32 then fuseNow .range s
  else if s.own.fuse.isSome then fuseNow .state s
  else
    let t := nth s.attic.slots k
    if (op = 1 ∧ majority t.enrolled) ∨ (op = 2 ∧ (!majority t.enrolled ∨ lastUsable k s)) then fuseNow .state s
    else
      let r := if op = 1 then unitRead buf 32 s else (s, .done)
      if r.2 ≠ .done then fuseNow r.2 r.1
      else
      let s := r.1.store OWN_FUSE_CMD OWN_FUSE_CMD_fs w
      fuseNow .held (updOwn (fun o => { o with fuse := some ⟨op, k, s.bytes buf 32⟩ }) (s.set OWN_FUSE_RESULT_busy 1))

/-- FUSE_DONE: whether every bit reads back; else the hash bits that are fused, or the copies of the revoked bit. -/
def fuseDone (ok : Bool) (part : List Byte) (copies : Nat) (s : State) : State :=
  match s.own.fuse with
  | some f =>
    let t := nth s.attic.slots f.slot
    let mask := fun i => if ok then (255 : Byte) else nth part i
    let hash := (List.range 32).map fun i => nth t.hash i ||| (nth f.hash i &&& mask i)
    let good := ok && (decide (f.op ≠ 1) || decide (hash = f.hash))
    let t := if f.op = 1 then (if good then { t with hash, enrolled := 7, ok := true } else { t with hash })
      else { t with revoked := t.revoked ||| (if ok then 7 else copies % 8) }
    let s := { s with attic := { s.attic with slots := upd s.attic.slots f.slot fun _ => t } }
    let s := updOwn (fun o => { o with fuse := none }) (showSlot f.slot s)
    (s.set OWN_FUSE_RESULT_busy 0).set OWN_FUSE_RESULT_outcome (if good then Code.done else Code.bus).n
  | none => s

/-! ## Signing unit (R467 to R469) -/

/-- A signing command's code, with SIGN_DONE where it is final. -/
def signNow (c : Code) (s : State) : State := (ownEvt 4 (s.set OWN_SIGN_RESULT_outcome c.n)).ret c

/-- A write of OWN_SIGN_CMD. -/
def wrSignCmd (q : Rq) (w : Word) (s : State) : State :=
  let op := wf w OWN_SIGN_CMD_op
  let buf := s.get OWN_SIGN_BUF_buf
  let size := if op = 1 then 2436 else 0x44 + 1280
  if op = 0 ∨ op = 3 then signNow .range s
  else if op = 2 ∧ !keyRight q then refuseLog q OWN_SIGN_CMD .notOwner s
  else if buf % 8 ≠ 0 then signNow .align s
  else if !inSram buf size then signNow .range s
  else if s.own.sign.isSome then signNow .state s
  else if op = 1 ∧ !s.on OWN_ZERO_key_ready then signNow .notReady s
  else
    let s := s.store OWN_SIGN_CMD OWN_SIGN_CMD_fs w
    let s := updOwn (fun o => { o with sign := some { op, buf, band := s.bandTime, aon := s.clk.aon, start := s.now, wait := loadVerifies s } }) s
    ((s.set OWN_SIGN_RESULT_busy 1).set OWN_SIGN_RESULT_outcome Code.held.n).ret .held

/-- A write of a hardware unit to memory, 8 aligned bytes or fewer, where it may write. -/
def unitPut (a : Nat) (bytes : List Byte) (s : State) : State :=
  match unitOf a with
  | some u => if unitBarred a s then s else (memWrite u .engine a bytes s).1
  | none => s

/-- Bytes written to the system SRAM by the signing unit and the receive rings: whole words, then the bytes left. -/
def sramPut (a : Nat) (bytes : List Byte) (s : State) : State :=
  let n := bytes.length / 8
  let s := forN n (fun i s => unitPut (a + 8 * i) ((bytes.drop (8 * i)).take 8) s) s
  (bytes.drop (8 * n)).zipIdx.foldl (fun s x => unitPut (a + 8 * n + x.2) [x.1] s) s

/-- The bytes of the shelves before shelf j = 2c + s of the report. -/
def shelfSum (j : Nat) : Nat := ((List.range j).map fun i => shelfSize (i / 2)).foldl (· + ·) 0

/-- The next shelf of the report has been hashed: its CHANGED bit, and its hash, a free value where the hash describes no single
content (R469). -/
def shelfHash (s : State) : State :=
  match s.own.sign with
  | some g =>
    let j := g.hashed.length
    let r := unitRead (shelfBase (j / 2) (j % 2)) (shelfSize (j / 2)) s
    let hash := if g.cur then (List.range 32).map fun i => BitVec.ofNat 8 (Config.freeValue (r.1.free + i))
      else (Config.shake256 32 (r.1.bytes (shelfBase (j / 2) (j % 2)) (shelfSize (j / 2)))).take 32
    let s := if g.cur then { r.1 with free := r.1.free + 32 } else r.1
    let g := { g with hashed := g.hashed ++ [(hash, g.cur)], cur := false, bad := g.bad || decide (r.2 ≠ .done) }
    updOwn (fun o => { o with sign := some g }) s
  | none => s

/-- The signing unit hashes 8 bytes a system-clock cycle: the shelf whose last byte has passed is done (R469, log 94). -/
def signTick (s : State) : State :=
  match s.own.sign with
  | some g =>
    if g.op = 1 ∧ !g.wait ∧ g.hashed.length < 26 ∧ g.start + byteTicks (shelfSum (g.hashed.length + 1)) ≤ s.now then shelfHash s else s
  | none => s

/-- Shelf number j = 2c + s of the report: its 40 bytes. While SC runs the boot ROM neither of its shelves is active, and the idle one
is A (R314). -/
def shelfEntry (j : Nat) (hash : List Byte × Bool) (s : State) : List Byte :=
  let c := j / 2
  let sh := j % 2
  let chk := s.on (chkFd c sh)
  let active := decide (idleShelf c s ≠ sh) && decide (s.get (OWN_CORE_STAT_state c) ≠ 0) && !(decide (c = 12) && scInRom s)
  let armed := s.on (OWN_CORE_STAT_armed c) && decide (idleShelf c s = sh)
  let ver := if chk then (if sh = 0 then (s.cpu c).verA else (s.cpu c).verB) else 0
  hash.1 ++ leBytes 4 ver ++ leBytes 4 (chk.toNat + 2 * active.toNat + 4 * armed.toNat + 8 * hash.2.toNat)

/-- The first 0x480 bytes of the report (R468). -/
def signReport (g : Sign) (s : State) : List Byte :=
  let w := fun a => leBytes 4 (s.rd a).toNat
  leBytes 4 0x5454414D ++ leBytes 2 1 ++ leBytes 2 0x480 ++ (devId s).take 32 ++ s.bytes (g.buf + 0x28) 32 ++
    leBytes 8 g.band ++ leBytes 4 (g.aon / 2 ^ 8) ++ leBytes 4 (g.aon / 2 ^ 40) ++ w RST_CAUSE ++ w CRP_ATTIC_STAT ++
    w CRP_BOOT_STAT ++ w OWN_HATCH_STAT ++ w OWN_STAT ++ leBytes 4 0 ++
    (List.range 26).flatMap fun j => shelfEntry j (nth g.hashed j) s

/-- A signing command ends, with SIGN_DONE. -/
def signEnd (c : Code) (s : State) : State :=
  ownEvt 4 (((updOwn (fun o => { o with sign := none }) s).set OWN_SIGN_RESULT_busy 0).set OWN_SIGN_RESULT_outcome c.n)

/-- SIGNING_DONE: the report or the signature is written; with an uncorrectable error in what was read, nothing (R346). -/
def signDone (s : State) : State :=
  match s.own.sign with
  | some g =>
    if g.wait then s
    else if g.op = 1 then
      let r := unitRead (g.buf + 0x28) 32 (forN (26 - g.hashed.length) (fun _ s => shelfHash s) s)
      match r.1.own.sign with
      | some h =>
        if h.bad ∨ r.2 ≠ .done then signEnd .ecc r.1
        else
          let body := signReport h r.1
          let sig := (Config.falconSign r.1.own.keyRam r.1.free body).take 1280
          signEnd .done (sramPut g.buf (body ++ leBytes 2 sig.length ++ leBytes 2 0 ++ (List.range 1280).map fun i => nth sig i)
            r.1.freeNext)
      | none => r.1
    else
      let r := unitRead g.buf 64 s
      if r.2 ≠ .done then signEnd .ecc r.1
      else
        let sig := (Config.falconSign r.1.own.keyRam r.1.free (r.1.bytes g.buf 64)).take 1280
        signEnd .done (sramPut (g.buf + 0x40) (leBytes 4 sig.length ++ sig) r.1.freeNext)
  | none => s

/-- A read of OWN_SIGN_RESULT: busy also while the unit verifies an image for the loader (R467). -/
def rdSignResult (s : State) : State :=
  s.retData [(if loadVerifies s then s.set OWN_SIGN_RESULT_busy 1 else s).rd OWN_SIGN_RESULT]

/-! ## The hatch (R457 to R461) -/

/-- The hatch level changes, with HATCH. -/
def hatchLevel (l : Nat) (s : State) : State :=
  if s.get OWN_HATCH_STAT_level = l then s else ownEvt 3 (s.set OWN_HATCH_STAT_level l)

/-- EXTEST's laser-off action and mutes end with it. -/
def extestEnd (s : State) : State :=
  if s.own.ext then
    let s := forN 8 (fun n s => forceOff n causeLaser s) (updOwn (fun o => { o with ext := false }) s)
    if s.on TH_STAT_shutdown then s else rptTherm false s
  else s

/-- HATCH is the owner and the hatch stands at FULL. -/
def hatchOwner (s : State) : Bool := isOwner .hatch s && decide (s.get OWN_HATCH_STAT_level = 2)

/-- Whether an instruction is available at the current level (R458). -/
def hatchCan (c : Nat) (s : State) : Bool :=
  let l := s.get OWN_HATCH_STAT_level
  if c = 0x00 ∨ c = 0x21 then hatchOwner s
  else if c = 0x01 ∨ c = 0x20 then decide (1 ≤ l)
  else decide (c = 0x02) || decide (c = 0x10) || decide (c = 0x11) || decide (c = 0x12) || decide (c = 0xFF)

/-- Instruction c is loaded and does `f`; where it is not available it selects BYPASS and is counted (R458). -/
def hatchRun (c : Nat) (f : State → State) (s : State) : State :=
  if ownHeld s then s
  else
    let s := if c = 0 then s else extestEnd s
    if hatchCan c s then f (updOwn (fun o => { o with ir := c }) s)
    else (updOwn (fun o => { o with ir := 0xFF }) s).addSat OWN_HATCH_STAT_refused 1

/-- EXTEST: laser off, mutes, zeroisation first. -/
def extest (s : State) : State :=
  let s := updOwn (fun o => { o with ext := true }) s
  zeroise (rptTherm true (forN 8 (fun n s => laserOff n causeLaser s) s))

/-- HATCH_CHAL: a fresh nonce, then DEV_ID. -/
def hatchChal (s : State) : State :=
  let nonce := (List.range 32).map fun i => Config.nonce s.free i
  let s := updOwn (fun o => { o with nonce := some (nonce, s.now) }) s.freeNext
  s.retData ((List.range 8).map (fun i => wordAt nonce (4 * i)) ++ (List.range 8).map fun i => wordAt (devId s) (4 * i))

/-- HATCH_MBOX: words from mailbox byte 0 on. -/
def hatchMbox (ws : List Word) (s : State) : State :=
  let m := ((List.range ws.length).foldl (fun m i =>
    (List.range 4).foldl (fun m j => memPut m ((4 * i + j) % 4096) (BitVec.ofNat 8 ((nth ws i).toNat / 2 ^ (8 * j)))) m) s.own.mbox)
  updOwn (fun o => { o with mbox := m }) s

/-- Bytes of the mailbox. -/
def mboxBytes (a n : Nat) (s : State) : List Byte := (List.range n).map fun i => memFind s.own.mbox (a + i)

/-- What a capture of HATCH_CMD returns (R458): level, outcome and fails. -/
def hatchOut (s : State) : List Word :=
  [OWN_HATCH_STAT_level, OWN_HATCH_STAT_outcome, OWN_HATCH_STAT_fails].map fun f => BitVec.ofNat 32 (s.get f)

/-- A hatch command ends; ERR_SIGNATURE counts and may lock, DONE clears the count; every failure raises HATCH (R461). -/
def hatchEnd (c : Code) (s : State) : State :=
  let s := s.set OWN_HATCH_STAT_outcome c.n
  let n := s.get OWN_HATCH_STAT_fails + 1
  let s := if c ≠ .signature then s
    else if 8 ≤ n then (s.set OWN_HATCH_STAT_fails n).set OWN_HATCH_STAT_locked 1
    else s.set OWN_HATCH_STAT_fails n
  let s := if c = .done then s else ownEvt 3 s
  { s with reply := ⟨c, hatchOut s⟩ }

/-- 60 s in band-clock periods. -/
def nonceLife : Nat := 60000 * msTicks

/-- VERIFY (R459). -/
def hatchVerify (s : State) : State :=
  let nonce := s.own.nonce
  let s := updOwn (fun o => { o with nonce := none }) s
  let slot := leVal (mboxBytes 0 4 s)
  let len := leVal (mboxBytes 0x710 4 s)
  if s.on OWN_HATCH_STAT_locked then hatchEnd .state s
  else if 3 < slot ∨ len = 0 ∨ 1280 < len then hatchEnd .range s
  else match nonce with
    | none => hatchEnd .state s
    | some (n, t) =>
      let key := mboxBytes 8 1793 s
      let k := nth s.attic.slots (8 + slot)
      if nonceLife < s.now - t then hatchEnd .timeout s
      else if k.usable && decide (Config.shake256 32 key = k.hash) &&
          Config.falconVerify key (n ++ devId s) (mboxBytes 0x714 len s) then
        hatchEnd .done (hatchLevel 2 (s.set OWN_HATCH_STAT_fails 0))
      else hatchEnd .signature s

/-- PASSWORD (R460). -/
def hatchPassword (s : State) : State :=
  match s.attic.pass with
  | none => hatchEnd .state s
  | some h =>
    if s.on OWN_HATCH_STAT_locked || h.all fun b => decide (b = 0) then hatchEnd .state s
    else if Config.shake256 32 (mboxBytes 0 32 s) = h then
      let s := s.set OWN_HATCH_STAT_fails 0
      hatchEnd .done (if s.get OWN_HATCH_STAT_level = 0 then hatchLevel 1 s else s)
    else hatchEnd .signature s

/-- A HATCH_CMD command. -/
def hatchCmd (op : Nat) (s : State) : State :=
  match op with
  | 1 => hatchVerify s
  | 2 => hatchPassword s
  | 3 => hatchEnd .done (hatchLevel 0 (s.set OWN_HATCH_STAT_fails 0))
  | _ => hatchEnd .range s

/-- Instruction code c is loaded by itself: what its entry does (R458). -/
def hatchLoad (c : Nat) (s : State) : State :=
  hatchRun c (match c with
    | 0x00 => extest
    | 0x02 => fun s => s.retData [0x13208A3B]
    | 0x10 => hatchChal
    | 0x12 => fun s => s.retData (hatchOut s)
    | _ => id) s

/-- The TAP reset state. -/
def tapReset (s : State) : State :=
  if ownHeld s then s else hatchLevel 0 (updOwn (fun o => { o with ir := 2 }) (extestEnd s))

/-! ## I3C (R453) -/

/-- A CCC that acts where the interface answers. -/
def i3c (f : State → State) (s : State) : State := if mgmtAlive s then f s else s

/-- The target has a dynamic address. -/
def i3cMode (s : State) : Bool := s.own.dyn.isSome

/-- A dynamic address is assigned: by SETDASA at the static address 0x50, or by ENTDAA. -/
def i3cAssign (a : Nat) (s : State) : State := if i3cMode s then s else updOwn (fun o => { o with dyn := some a }) s

/-- GETBCR: target role, no HDR, no data byte with an in-band interrupt, in-band interrupt request capable. -/
def i3cBcr : Nat := Config.i3cReply 0x8E % 256 &&& 0x19 ||| 0x02

/-- The answer to a read CCC. -/
def i3cGet (ws : List Word) (s : State) : State := if i3cMode s then s.retData ws else s

/-! ## Resets -/

/-- OWN's registers return to their reset values: all at power-on reset and RESET_N; else the refusal log, the checked marks, fails and
locked stay, and key_ready where the key RAM is kept (R452, R457, R470). The hatch closes; the owner and a handover are gone with OWN_STAT; the
buffer of a signing command that runs is left undefined. -/
def resetOwn (full keepKey : Bool) (s : State) : State :=
  let fails := s.get OWN_HATCH_STAT_fails
  let lock := s.get OWN_HATCH_STAT_locked
  let key := s.get OWN_ZERO_key_ready
  let ram := if keepKey then s.own.keyRam else []
  let s := extestEnd s
  let s : State := match s.own.sign with
    | some g => if g.op = 1 then putFree g.buf 2436 s else putFree (g.buf + 0x40) 1284 s
    | none => s
  let marks := (List.range 13).map fun c => (s.get (OWN_CORE_STAT_chk_a c), s.get (OWN_CORE_STAT_chk_b c))
  let log := s.regs.filter fun e => decide (e.1 = OWN_RLOG_STAT) ||
    (decide (OWN_RLOG_ADDR 0 ≤ e.1) && decide (e.1 < OWN_RLOG_ADDR 64))
  let s := s.dropRange OWN_EVT (OWN_EVT + 0x8000)
  let s : State := if full then s else
    let s : State := log.foldl (fun s e => s.wr e.1 e.2) s
    let s := forN 13 (fun c s =>
      (s.set (OWN_CORE_STAT_chk_a c) (nth marks c).1).set (OWN_CORE_STAT_chk_b c) (nth marks c).2) s
    (s.set OWN_HATCH_STAT_fails fails).set OWN_HATCH_STAT_locked lock
  let s : State := if keepKey then s.set OWN_ZERO_key_ready key else s
  let hw := keepKey && decide (s.own.key = 1)
  ownAttic ({ s with own := { key := hw.toNat, keyRam := ram } } : State)

/-! ## Meanings -/

def execOwnClaim (q : Rq) (w : Word) (s : State) : Out := .next (gated q OWN_CLAIM [] w (wrClaim q w) s)

def execLeaseRenew (q : Rq) (s : State) : Out :=
  let w := force 0 OWN_LEASE_renew 1
  .next (gated q OWN_LEASE [] w (wrLease q w) s)

def execLeaseLapse (s : State) : Out := .next (lapse s)

def execOwnHandover (q : Rq) (w : Word) (s : State) : Out :=
  .next (gated q OWN_HANDOVER OWN_HANDOVER_fs w (wrHandover q w) s)

def execOwnAccept (q : Rq) (w : Word) (s : State) : Out := .next (gated q OWN_ACCEPT [] w (wrAccept q w) s)
def execHandoverTimeout (s : State) : Out := .next (hoTimeout s)
def execI3cSetdasa (a : Fin 128) (s : State) : Out := .next (i3c (i3cAssign a) s)
def execI3cEntdaa (a : Fin 128) (s : State) : Out := .next (i3c (i3cAssign a) s)

def execI3cRstdaa (s : State) : Out := .next (i3c (updOwn fun o => { o with dyn := none }) s)

def execI3cEnec (s : State) : Out := .next (i3c (fun s => if i3cMode s then updOwn (fun o => { o with ibi := true }) s else s) s)
def execI3cDisec (s : State) : Out := .next (i3c (fun s => if i3cMode s then updOwn (fun o => { o with ibi := false }) s else s) s)

def execI3cGetpid (s : State) : Out :=
  .next (i3c (fun s => i3cGet [s.rd (OWN_ID 0), BitVec.ofNat 32 (Config.i3cReply 0x8D % 65536)] s) s)

def execI3cGetbcr (s : State) : Out := .next (i3c (fun s => i3cGet [BitVec.ofNat 32 i3cBcr] s) s)
def execI3cGetdcr (s : State) : Out := .next (i3c (fun s => i3cGet [BitVec.ofNat 32 (Config.i3cReply 0x8F % 256)] s) s)

def execI3cGetstatus (s : State) : Out :=
  .next (i3c (fun s => i3cGet [BitVec.ofNat 32 (s.freeVal 16)] s.freeNext) s)

def execI3cGetmwl (s : State) : Out := .next (i3c (fun s => i3cGet [BitVec.ofNat 32 (Config.i3cReply 0x8B % 65536)] s) s)
def execI3cGetmrl (s : State) : Out := .next (i3c (fun s => i3cGet [BitVec.ofNat 32 (Config.i3cReply 0x8C % 65536)] s) s)
def execHatchIdcode (s : State) : Out := .next (hatchRun 2 (fun s => s.retData [0x13208A3B]) s)
def execHatchSamplePreload (s : State) : Out := .next (hatchRun 1 id s)
def execHatchExtest (s : State) : Out := .next (hatchRun 0 extest s)
def execHatchBypass (c : BitVec 8) (s : State) : Out := .next (hatchLoad c.toNat s)
def execHatchChal (s : State) : Out := .next (hatchRun 0x10 hatchChal s)
def execHatchMbox (ws : List Word) (s : State) : Out := .next (hatchRun 0x11 (hatchMbox ws) s)
def execHatchVerify (s : State) : Out := .next (hatchRun 0x12 (hatchCmd 1) s)
def execHatchPassword (s : State) : Out := .next (hatchRun 0x12 (hatchCmd 2) s)
/-- A HATCH_CMD other than VERIFY and PASSWORD: CLOSE, or a code that R461 refuses. -/
def execHatchClose (op : BitVec 8) (s : State) : Out := .next (hatchRun 0x12 (hatchCmd op.toNat) s)
def execHatchTapReset (s : State) : Out := .next (tapReset s)

def execKeyload (q : Rq) (w : Word) (s : State) : Out :=
  let w := force w OWN_ZERO_keyload 1
  .next (gated q OWN_ZERO OWN_ZERO_fs w (wrOwnZero w) s)

def execKeyLoadDone (s : State) : Out := .next (keyLoaded s)

def execFuseEnrol (q : Rq) (k : Fin 16) (s : State) : Out :=
  let w := force (force 0 OWN_FUSE_CMD_op 1) OWN_FUSE_CMD_slot k
  .next (gated q OWN_FUSE_CMD OWN_FUSE_CMD_fs w (wrFuseCmd w) s)

def execFuseRevoke (q : Rq) (k : Fin 16) (s : State) : Out :=
  let w := force (force 0 OWN_FUSE_CMD_op 2) OWN_FUSE_CMD_slot k
  .next (gated q OWN_FUSE_CMD OWN_FUSE_CMD_fs w (wrFuseCmd w) s)

def execFuseDone (ok : Bool) (part : List Byte) (copies : Fin 8) (s : State) : Out := .next (fuseDone ok part copies s)

def execAttest (q : Rq) (s : State) : Out :=
  let w := force 0 OWN_SIGN_CMD_op 1
  .next (gated q OWN_SIGN_CMD OWN_SIGN_CMD_fs w (wrSignCmd q w) s)

def execSign (q : Rq) (s : State) : Out :=
  let w := force 0 OWN_SIGN_CMD_op 2
  .next (gated q OWN_SIGN_CMD OWN_SIGN_CMD_fs w (wrSignCmd q w) s)

def execSigningDone (s : State) : Out := .next (signDone s)

def execSecretWindowWrite (q : Rq) (hiReg : Bool) (w : Word) (s : State) : Out :=
  if hiReg then .next (gated q OWN_SECRET_HI OWN_SECRET_HI_fs w (wrSecret true w) s)
  else .next (gated q OWN_SECRET_LO OWN_SECRET_LO_fs w (wrSecret false w) s)

end Sys2Proof.Machine
end

