-- ==== Sys2Proof/Machine/Bst.lean ====
section
/-! DEFINITION. Memory and logic self-test (chapter 20). -/

namespace Sys2Proof.Machine

/-! ## Memory slices (R512 to R520) -/

/-- Rows of unit u (R512). -/
def unitRows (u : Nat) : Nat := unitSize u / 4096

/-- The first row from r on that the walk may test; the number of rows where none is left (R512). -/
def openRow (u r : Nat) (s : State) : Nat :=
  let t := if inSecret (unitBase u + 4096 * r) s then (secretHi s - unitBase u) / 4096 else r
  if unitRows u ≤ t then unitRows u else t

/-- A slice of unit u runs. -/
def sliceOn (u : Nat) (s : State) : Bool := s.bst.slices.any fun x => decide (x.u = u)

/-- The save and the restore of a row (R513, R516): words with one stored error become correct, others are recorded. -/
def rowSaved (u row : Nat) (s : State) : State :=
  let lo := unitBase u + 4096 * row
  let l := s.ecc.filter fun e => decide (lo ≤ e.1) && decide (e.1 < lo + 4096)
  l.foldl (fun s e =>
    if e.2 = 1 then let s := eccCorrected u .engine e.1 s; { s with ecc := natErase s.ecc e.1 } else eccRecord u 6 e.1 s) s

/-- A slice starts; the zeroisation of R462 runs before a row of the secret window is saved (R519). -/
def sliceBegin (u row kind : Nat) (s : State) : State :=
  let s := if inSecret (unitBase u + 4096 * row) s then zeroise s else s
  updBst (fun b => { b with slices := b.slices ++ [⟨u, row, kind⟩] }) (rowSaved u row s)

/-- The unit's walk has completed a round (R526). -/
def walkWrap (u : Nat) (s : State) : State :=
  let s := (s.set (BST_MEM_UNIT_row u) 0).incMod (BST_MEM_UNIT_rounds u)
  ledgerFree 5 u 0 none (some (s.get (BST_MEM_UNIT_rounds u))) s

/-- The walk stands at row r, or at row 0 after a round. -/
def walkTo (u r : Nat) (s : State) : State :=
  let t := openRow u r s
  if t = unitRows u then walkWrap u s else s.set (BST_MEM_UNIT_row u) t

/-- The walk of a unit runs (R512). -/
def walkRuns (u : Nat) (s : State) : Bool :=
  s.on BST_MEM_CTRL_en && s.on (BST_MEM_UNIT_en u) && !bstHeld s && !s.stop && !s.rst.fillBusy

/-- MEM_SLICE_START: the slice instant of unit u. -/
def sliceStart (u : Nat) (s : State) : State :=
  if !walkRuns u s ∨ sliceOn u s then s
  else match nth s.scrubAgain u with
    | some a =>
      let s := { s with scrubAgain := upd s.scrubAgain u fun _ => none }
      let row := (a - unitBase u) / 4096
      if inSecret (unitBase u + 4096 * row) s then s else sliceBegin u row 1 s
    | none =>
      let r := s.get (BST_MEM_UNIT_row u)
      let s := if openRow u r s = r then s else walkTo u r s
      let r := openRow u (s.get (BST_MEM_UNIT_row u)) s
      if r = unitRows u then s else sliceBegin u r 0 (s.set (BST_MEM_UNIT_row u) r)

/-- The lowest free spare row of unit u. -/
def freeSpare (u : Nat) (s : State) : Option Nat := (List.range 4).find? fun k => !s.on (BST_REPAIR_valid u k)

/-- A row is mapped to spare k (R517, R518). -/
def mapRow (u k row : Nat) (s : State) : State :=
  let s := (s.set (BST_REPAIR_row u k) row).set (BST_REPAIR_valid u k) 1
  s.set (BST_MEM_UNIT_spares_used u) (s.get (BST_MEM_UNIT_spares_used u) + 1)

/-- A slice has failed, its first failing stored bit being b (R517, R526). -/
def sliceFailed (u row b : Nat) (s : State) : State :=
  let s := ledger 1 u row 1 b s
  match freeSpare u s with
  | some k => bstEvt 0 (ledgerFree 3 u row none (some k) (mapRow u k row s))
  | none => bstEvt 0 (ledgerFree 4 u row none none (s.set (BST_MEM_UNIT_exhausted u) 1))

/-- TEST_ROW reaches its final code. -/
def testEnd (fail : Bool) (s : State) : State :=
  bstEvt 1 (((s.set BST_MEM_RESULT_outcome Code.done.n).set BST_MEM_RESULT_busy 0).set BST_MEM_RESULT_result fail.toNat)

/-- A TEST_ROW that waits for unit u starts. -/
def testStart (u : Nat) (s : State) : State :=
  match s.bst.test with
  | some (m, row) => if m = u then sliceBegin m row 2 (updBst (fun b => { b with test := none }) s) else s
  | none => s

/-- MEM_SLICE_END: the row is back in service; a failure maps a spare (R513, R517). -/
def sliceEnd (u : Nat) (bad : Option Nat) (s : State) : State :=
  match s.bst.slices.find? fun x => decide (x.u = u) with
  | none => s
  | some x =>
    let s := updBst (fun b => { b with slices := b.slices.filter fun y => decide (y.u ≠ u) }) s
    let s := match bad with | some b => sliceFailed u x.row b s | none => s
    let s := if x.kind = 2 then testEnd bad.isSome s else s
    let s := if x.kind = 0 then walkTo u (x.row + 1) s else s
    testStart u s

/-- A write of BST_MEM_CMD: TEST_ROW with go = 1 (R519). -/
def wrMemCmd (w : Word) (s : State) : State :=
  let u := wf w BST_MEM_CMD_unit
  let row := wf w BST_MEM_CMD_row
  let go := decide (wf w BST_MEM_CMD_go = 1)
  if go && s.on BST_MEM_RESULT_busy then s.ret .state
  else if 14 < u ∨ unitRows u ≤ row then (if go then s.set BST_MEM_RESULT_outcome Code.range.n else s).ret .range
  else
    let s := s.store BST_MEM_CMD BST_MEM_CMD_fs w
    if !go then s.ret .done
    else
      let s := (s.wr BST_MEM_RESULT 0).set BST_MEM_RESULT_busy 1
      let s := updBst (fun b => { b with test := some (u, row) }) (s.set BST_MEM_RESULT_outcome Code.held.n)
      (if sliceOn u s then s else testStart u s).ret .held

/-- A write of BST_REPAIR_m_k (R518). -/
def wrRepair (u k : Nat) (w : Word) (s : State) : State :=
  if !s.chg w (BST_REPAIR_row u k) && !s.chg w (BST_REPAIR_valid u k) then s.ret .done
  else if wf w (BST_REPAIR_valid u k) = 0 ∨ s.on (BST_REPAIR_valid u k) then s.ret .state
  else
    let row := wf w (BST_REPAIR_row u k)
    (ledger 3 u row 3 k (mapRow u k row (rowSaved u row s))).ret .done

/-! ## Logic slices (R521 to R524) -/

/-- A write of BST_LB_CMD. -/
def wrLbCmd (w : Word) (s : State) : State :=
  let c := wf w BST_LB_CMD_core
  let i := wf w BST_LB_CMD_slice
  if wf w BST_LB_CMD_go = 0 then plainWrite BST_LB_CMD BST_LB_CMD_fs w s
  else if s.bst.lb.isSome then s.ret .state
  else if 11 < c ∨ 47 < i then (s.set BST_LB_RESULT_outcome Code.range.n).ret .range
  else
    let s := s.store BST_LB_CMD BST_LB_CMD_fs w
    let s := (((s.wr BST_LB_RESULT 0).set BST_LB_RESULT_outcome Code.held.n).set BST_LB_RESULT_busy 1).set BST_LB_RESULT_core c
    (updBst (fun b => { b with lb := some (c, i, false) }) (s.set BST_LB_RESULT_slice i)).ret .held

/-- Core c may be tested: RUNNING, parked, no posted store outstanding, no event pending and enabled for it (R521). -/
def lbReady (c : Nat) (s : State) : Bool :=
  decide (coreState c s = 1) && inWait c s && (s.cpu c).posted.isEmpty && (evtNext c s).isNone && !s.stop

/-- LOGIC_SLICE_START. -/
def lbStart (s : State) : State :=
  match s.bst.lb with
  | some (c, i, false) => if lbReady c s then updBst (fun b => { b with lb := some (c, i, true) }) s else s
  | _ => s

/-- LOGIC_SLICE_END. -/
def lbDone (fail : Bool) (s : State) : State :=
  match s.bst.lb with
  | some (c, i, true) =>
    let again := s.bst.lbFail.contains (c, i)
    let s := updBst (fun b => { b with lbFail := (b.lbFail.filter fun x => decide (x ≠ (c, i))) ++ (if fail then [(c, i)] else []) }) s
    let s := s.incMod (BST_LB_STAT_runs c)
    let s := if fail then
        let s := (s.addSat (BST_LB_STAT_fails c) 1).set (BST_LB_STAT_last_fail c) i
        if again then s.set (BST_LB_STAT_suspect c) 1 else s
      else s
    let s := lbEnd .done fail.toNat 0 s
    if fail then bstEvt 0 s else s
  | _ => s

/-- LOGIC_SLICE_TIMEOUT: wait_ms has passed. -/
def lbTimeout (s : State) : State :=
  match s.bst.lb with
  | some (_, _, false) => lbEnd .notReady 0 0 s
  | _ => s

/-! ## Registers and resets -/

def wrMemCtrl (w : Word) (s : State) : State :=
  if wf w BST_MEM_CTRL_period = 0 then s.ret .range else plainWrite BST_MEM_CTRL BST_MEM_CTRL_fs w s

def wrLbCfg (w : Word) (s : State) : State :=
  if wf w BST_LB_CFG_wait_ms = 0 then s.ret .range else plainWrite BST_LB_CFG BST_LB_CFG_fs w s

/-- BST_LEDGER_BASE: a multiple of 4,096; the ring lies in the system SRAM or the larder. -/
def wrLedgerBase (w : Word) (s : State) : State :=
  let a := w.toNat
  if a % 4096 ≠ 0 then s.ret .align
  else match unitOf a with
    | some 0 => plainWrite BST_LEDGER_BASE BST_LEDGER_BASE_fs w s
    | some 14 => plainWrite BST_LEDGER_BASE BST_LEDGER_BASE_fs w s
    | _ => s.ret .range

/-- BST is reset or fenced: slices restore their rows and end with the reason (2 RESET, 3 FENCE); a logic request ends
ABORTED, reason RESET; the registers return to their reset values but for the repair map (R518, R520, R529). -/
def resetBst (why : Nat) (s : State) : State :=
  let s := s.bst.slices.foldl (fun s x => ledger 1 x.u x.row 2 why s) s
  let s := lbRecord .aborted 0 2 s
  let keep := s.regs.filter fun e => decide (BST_REPAIR 0 0 ≤ e.1) && decide (e.1 < BST_REPAIR 15 0)
  let used := (List.range 15).map fun u => s.get (BST_MEM_UNIT_spares_used u)
  let s := s.dropRange BST_EVT (BST_EVT + 0x1000)
  let s := keep.foldl (fun s e => s.wr e.1 e.2) s
  let s := forN 15 (fun u s => s.set (BST_MEM_UNIT_spares_used u) (nth used u)) s
  updBst (fun _ => {}) s

/-- Power-on reset and RESET_N: slices end without a restore and the repair map is empty (R518, R520). -/
def resetBstFull (s : State) : State := updBst (fun _ => {}) (s.dropRange BST_EVT (BST_EVT + 0x1000))

/-! ## Meanings -/

def execMemSliceStart (u : Fin 15) (s : State) : Out := .next (sliceStart u s)
def execMemSliceEnd (u : Fin 15) (bad : Option (Fin 72)) (s : State) : Out := .next (sliceEnd u (bad.map Fin.val) s)

def execRepairRestore (q : Rq) (u : Fin 15) (k : Fin 4) (row : BitVec 13) (s : State) : Out :=
  let w := force (force 0 (BST_REPAIR_row u k) row.toNat) (BST_REPAIR_valid u k) 1
  .next (gated q (BST_REPAIR u k) BST_REPAIR_fs w (wrRepair u k w) s)

def execTestRow (q : Rq) (u : BitVec 5) (row : BitVec 13) (s : State) : Out :=
  let w := force (force (force 0 BST_MEM_CMD_unit u.toNat) BST_MEM_CMD_row row.toNat) BST_MEM_CMD_go 1
  .next (gated q BST_MEM_CMD BST_MEM_CMD_fs w (wrMemCmd w) s)

def execLogicSliceRequest (q : Rq) (c : BitVec 4) (i : BitVec 6) (s : State) : Out :=
  let w := force (force (force 0 BST_LB_CMD_core c.toNat) BST_LB_CMD_slice i.toNat) BST_LB_CMD_go 1
  .next (gated q BST_LB_CMD BST_LB_CMD_fs w (wrLbCmd w) s)

def execLogicSliceStart (s : State) : Out := .next (lbStart s)
def execLogicSliceEnd (fail : Bool) (s : State) : Out := .next (lbDone fail s)
def execLogicSliceTimeout (s : State) : Out := .next (lbTimeout s)

end Sys2Proof.Machine
end

