-- ==== Sys2Proof/Machine/Loader.lean ====
section
/-! DEFINITION. The loader (R306 to R309, R315 to R317, R465): the checks of an image and what it writes. -/

namespace Sys2Proof.Machine

/-- The class of a core in an image header: 1 lane, 2 radio, 3 system (R306). -/
def imgClass (c : Nat) : Nat := if c < 8 then 1 else if c < 12 then 2 else 3

/-- The extensions that a core has: bit 0 V, bit 1 C, bit 2 K (R278, R306). -/
def imgExt (c : Nat) : Nat := if c < 8 then 1 else if c < 12 then 2 else 4

/-- The field of n bytes at offset o of a header. -/
def hdrF (h : List Byte) (o n : Nat) : Nat := leVal ((h.drop o).take n)

def allZero (l : List Byte) : Bool := l.all fun b => decide (b = 0)

/-- Step 1 of R308: the header meets R306 for core c, and the floor of its class (R316). -/
def imageOk (c floor : Nat) (h : List Byte) : Bool :=
  let ext := hdrF h 0x9 1
  let flags := hdrF h 0xA 2
  let body := hdrF h 0xC 4
  let entry := hdrF h 0x10 4
  let doff := hdrF h 0x14 4
  let dlen := hdrF h 0x18 4
  let sig := hdrF h 0x22 2
  decide (hdrF h 0 4 = 0x42594D49) && decide (hdrF h 4 2 = 1) && decide (hdrF h 6 2 = 2048) &&
    decide (hdrF h 8 1 = imgClass c) && decide (ext &&& imgExt c = ext) && decide (flags ≤ 1) &&
    decide (body % 8 = 0) && decide (body ≤ shelfSize c) && decide (entry % 4 = 0) && decide (entry < body) &&
    decide (doff % 8 = 0) && decide (dlen % 8 = 0) && (decide (flags = 1) || decide (dlen = 0)) &&
    decide (doff + dlen ≤ dataSize c) && decide (floor ≤ hdrF h 0x1C 4) && decide (hdrF h 0x20 1 ≤ 7) &&
    decide (1 ≤ sig) && decide (sig ≤ 1280) && allZero ((h.drop 0x21).take 1) && allZero ((h.drop 0x24).take 28) &&
    allZero ((h.drop (0x80 + sig)).take (1280 - sig)) && allZero (h.drop 0x580)

/-- Step 3 of R308 with its key entry (R465). -/
def sigOk (h key : List Byte) (s : State) : Bool :=
  let k := nth s.attic.slots (hdrF h 0x20 1)
  k.usable && decide (Config.shake256 32 key = k.hash) &&
    Config.falconVerify key (h.take 0x80) ((h.drop 0x80).take (hdrF h 0x22 2))

/-- The bytes are copied to an address, 8 at a time. -/
def loaderCopy (u a : Nat) (bytes : List Byte) (s : State) : State :=
  forN (bytes.length / 8) (fun i s => write8 u (a + 8 * i) ((bytes.drop (8 * i)).take 8) s) s

/-- A LOAD fails at a step: the shelf is unchecked and its contents are undefined (R316). -/
def loadFail (l : Load) (o : Code) (step : Nat) (s : State) : State :=
  loadEnd o step 0 (shelfLost l s)

/-- What the checked image writes: the program, the data initialisation where R309 applies it, and what the part keeps of the
header. -/
def loadWrite (l : Load) (h body data : List Byte) (s : State) : State :=
  let u := if l.c < 12 then 2 + l.c else 0
  let s := loaderCopy u (shelfBase l.c l.shelf) body s
  let s := if l.dinit then loaderCopy u (dataBase l.c + hdrF h 0x14 4) data s else s
  let e := hdrF h 0x10 4
  let v := hdrF h 0x1C 4
  let s := updCpu l.c (fun k => if l.shelf = 0 then { k with entryA := e, verA := v } else { k with entryB := e, verB := v }) s
  loadEnd .done 0 0 (shelfDirty l.c l.shelf (s.set (chkFd l.c l.shelf) 1))

/-- The LOAD in progress comes to its end. -/
def loadComplete (s : State) : State :=
  match s.load with
  | none => s
  | some l =>
    let r := memRead 0 .loader l.src 2048 s
    if r.2.1 ≠ .done then loadFail l r.2.1 1 r.1
    else
      let h := r.2.2
      if !imageOk l.c (s.rd (OWN_LD_FLOOR (imgClass l.c))).toNat h then loadFail l .range 1 r.1
      else
        let body := memRead 0 .loader (l.src + 2048) (hdrF h 0xC 4 + hdrF h 0x18 4) r.1
        if body.2.1 ≠ .done then loadFail l body.2.1 2 body.1
        else if Config.shake256 64 body.2.2 ≠ (h.drop 0x40).take 64 then loadFail l .signature 2 body.1
        else
          let key := memRead 0 .loader ((s.rd OWN_LD_KEYTAB).toNat + 2048 * hdrF h 0x20 1) 1793 body.1
          if key.2.1 ≠ .done then loadFail l key.2.1 3 key.1
          else if !sigOk h key.2.2 key.1 then loadFail l .signature 3 key.1
          else loadWrite l h (body.2.2.take (hdrF h 0xC 4)) (body.2.2.drop (hdrF h 0xC 4)) key.1

end Sys2Proof.Machine
end

