-- ==== Sys2Proof/Machine/Boot.lean ====
section
/-! DEFINITION. The boot ROM's own sequence (R314, R402, R404 to R407): the switch to SPLL, the boot flash and its directories, the
LOAD of core 12, the swap into shelf A. The rows SC_RELEASE, LOAD_COMPLETE, WIDE_RESET_RELEASE and LOCKSTEP_MISMATCH carry it out. -/

namespace Sys2Proof.Machine

/-! ## The boot flash (R404, R405) -/

/-- A byte of the boot flash; what it holds where nothing is known of it is free (log 159). -/
def flashByte (a : Nat) (s : State) : Byte := ((s.flash.find? fun e => decide (e.1 = a)).map Prod.snd).getD (Config.flashByte a)

def flashBytes (a n : Nat) (s : State) : List Byte := (List.range n).map fun i => flashByte (a + i) s

/-- The ROM reads n bytes of the flash from `a` on; a read that crosses 16 MiB is two (R404). -/
def romFetch (a n : Nat) (s : State) : State :=
  let l := if a < 2 ^ 24 ∧ 2 ^ 24 < a + n then [(a, 2 ^ 24 - a), (2 ^ 24, a + n - 2 ^ 24)] else [(a, n)]
  { s with rst := { s.rst with reads := s.rst.reads ++ l } }

/-- The ROM reads no more. -/
def romQuiet (s : State) : State := { s with rst := { s.rst with reads := [], readT := 0 } }

/-- What a read of the ROM drives on BOOT_IO, a BOOT_CLK period each (R404): 0x6B with a 3-byte address below 16 MiB, else 0x6C with
a 4-byte one, 8 dummy clocks, and two periods a byte in which the flash answers on four lines. -/
def romWave (a n : Nat) : List (List (Option Bool)) :=
  let long := decide (2 ^ 24 ≤ a)
  norSerial [if long then 0x6C else 0x6B] ++ norSerial (leBytes (if long then 4 else 3) a).reverse ++ List.replicate (8 + 2 * n) norNone

/-- System-clock cycles in a BOOT_CLK period: 100 MHz on SPLL, FOSC / 2 on FOSC (R404). -/
def romPeriod (s : State) : Nat := if s.on CRP_CLK_STAT_sys_src then 12 else 2

/-- n system-clock cycles of the ROM's reads, one after the other; a read that is over leaves the pins. -/
def romTick (n : Nat) (s : State) : State :=
  match s.rst.reads with
  | [] => s
  | (a, k) :: t =>
    if (romWave a k).length * romPeriod s ≤ s.rst.readT + n then { s with rst := { s.rst with reads := t, readT := 0 } }
    else { s with rst := { s.rst with readT := s.rst.readT + n } }

/-- The 64 bytes of directory d (R405). -/
def dirBytes (d : Nat) (s : State) : List Byte := flashBytes (0x2000000 * d) 64 s

/-- A directory is valid: magic, dir_ver, crc, reserved bytes and sc_len (R406). -/
def dirOk (b : List Byte) : Bool :=
  decide (hdrF b 0 4 = 0x59444D59) && decide (hdrF b 4 2 = 1) && decide (hdrF b 6 2 = 0) && decide (hdrF b 0x10 4 ≤ 788480) &&
    allZero ((b.drop 0x20).take 28) && decide (hdrF b 0x3C 4 = crc32 (b.take 0x3C))

/-- The valid directories in the order in which the ROM tries them: the greater seq first, directory 0 where they are equal. -/
def bootOrder (s : State) : List Nat :=
  let seq := fun d => hdrF (dirBytes d s) 8 4
  (if seq 0 < seq 1 then [1, 0] else [0, 1]).filter fun d => dirOk (dirBytes d s)

/-! ## The ROM's steps (R404, R406, R407) -/

/-- The ROM's stage stands in CRP_BOOT_STAT. -/
def bootStage (x : Nat) (s : State) : State := s.set CRP_BOOT_STAT_stage x

/-- A register that the ROM writes itself leaves no reply to a requester. -/
def romWrites (f : State → State) (s : State) : State := { f s with reply := s.reply }

/-- The ROM copies bytes into the system SRAM. -/
def romCopy (a : Nat) (bytes : List Byte) (s : State) : State :=
  let n := bytes.length / 8
  let s := loaderCopy 0 a bytes s
  (bytes.drop (8 * n)).zipIdx.foldl (fun s x => (memWrite 0 .engine (a + 8 * n + x.2) [x.1] s).1) s

/-- Step 1 of R406: the key table and the image (a valid directory's sc_len is at most 788,480). -/
def romImage (d : Nat) (s : State) : State :=
  let b := dirBytes d s
  let s := bootStage 2 (s.set CRP_BOOT_STAT_dir d)
  let s := romCopy 0x10100000 (flashBytes (hdrF b 0x1C 4) 16384 s) (romFetch (hdrF b 0x1C 4) 16384 s)
  let n := min (hdrF b 0x10 4) 788480
  romCopy 0x10000000 (flashBytes (hdrF b 0xC 4) n s) (romFetch (hdrF b 0xC 4) n s)

/-- Step 2 of R406: the LOAD of core 12. -/
def romLoad (s : State) : State := romWrites (loadStart 12) ((bootStage 3 s).set OWN_LD_SRC_addr 0x10000000)

/-- The ROM tries directories one after the other, until a LOAD is HELD; without another it stays in recovery. The LOAD of another core
in progress ends while the ROM still reads the image (log 159). -/
def romTries : List Nat → State → State
  | [], s => bootStage 5 s
  | d :: t, s =>
    let s := romImage d s
    if s.load.isSome then s
    else
      let s := romLoad s
      if s.load.isSome then s else romTries t (s.set CRP_BOOT_STAT_outcome (s.get OWN_LD_RESULT_outcome))

/-- KARM and QPOINT: shelf A is armed, and SC waits at its QPOINT for SHELF_SWAP. -/
def romSwap (s : State) : State :=
  let s := ((bootStage 4 s).set (OWN_CORE_STAT_armed 12) 1).set (OWN_CORE_STAT_fenced 12) 1
  updCpu 12 (fun k => { k with wait := .swap 0 }) s

/-- SC starts in the boot ROM: the domain goes to SPLL if it is ready; in safe hold no image is loaded (R402); a checked shelf A is
armed without the flash (R407), else the ROM boots from the flash. -/
def romStart (s : State) : State :=
  let s := romQuiet (s.wr CRP_BOOT_STAT 0)
  let s := if s.on (pllReady 2) then romWrites (wrSysSel 1) s else s
  if s.on CRP_ATTIC_STAT_hold then bootStage 6 s
  else
    if s.on (OWN_CORE_STAT_chk_a 12) then romSwap (s.set CRP_BOOT_STAT_warm 1)
    else
      let s := romFetch 0x2000000 64 (romFetch 0 64 s)
      let ok := fun d => (dirOk (dirBytes d s)).toNat
      let s := ((bootStage 1 s).set CRP_BOOT_STAT_dir0_ok (ok 0)).set CRP_BOOT_STAT_dir1_ok (ok 1)
      romTries (bootOrder s) s

/-- The ROM executes at the stage. -/
def romAt (x : Nat) (s : State) : Bool := scInRom s && decide (s.get CRP_BOOT_STAT_stage = x) && decide ((s.cpu 12).wait = .run)

/-- The LOAD that the ROM waits for is in progress. -/
def romLoads (s : State) : Bool := (s.load.any fun l => decide (l.c = 12)) && romAt 3 s

/-- The directories after d in the ROM's order. -/
def romRest (d : Nat) (s : State) : List Nat := if (bootOrder s).head? = some d then (bootOrder s).drop 1 else []

/-- The image is read and no LOAD is in progress any more: step 2. -/
def romRead (s : State) : State :=
  if romAt 2 s ∧ s.load.isNone then
    let d := s.get CRP_BOOT_STAT_dir
    let s := romLoad s
    if s.load.isSome then s else romTries (romRest d s) (s.set CRP_BOOT_STAT_outcome (s.get OWN_LD_RESULT_outcome))
  else s

/-- The ROM's LOAD has ended: the swap, or the next directory. -/
def romLoaded (s : State) : State :=
  let o := s.get OWN_LD_RESULT_outcome
  let d := s.get CRP_BOOT_STAT_dir
  let s := s.set CRP_BOOT_STAT_outcome o
  if o = Code.done.n then romSwap s
  else romTries (romRest d s) s

/-- LOAD_COMPLETE, and what the ROM does next where the LOAD was its own. -/
def loadDone (s : State) : State := if romLoads s then romLoaded (loadComplete s) else romRead (loadComplete s)

/-! ## Meanings -/

def execLoadComplete (s : State) : Out := .next (loadDone s)

end Sys2Proof.Machine
end

