-- ==== Sys2Proof/Machine/Fab.lean ====
section
/-! DEFINITION. The 8b/10b code and the code-group synchronisation that R472 names for the FAB ports: the tables and the machine of
IEEE 802.3 Clause 36, which the manual does not print (PRESUMED, log 177). -/

namespace Sys2Proof.Machine

/-! ## The code -/

/-- The six bits abcdei, a first, of the low five bits of a byte at negative running disparity. -/
def sixTable : List Nat :=
  [0b100111, 0b011101, 0b101101, 0b110001, 0b110101, 0b101001, 0b011001, 0b111000,
   0b111001, 0b100101, 0b010101, 0b110100, 0b001101, 0b101100, 0b011100, 0b010111,
   0b011011, 0b100011, 0b010011, 0b110010, 0b001011, 0b101010, 0b011010, 0b111010,
   0b110011, 0b100110, 0b010110, 0b110110, 0b001110, 0b101110, 0b011110, 0b101011]

/-- The four bits fghj of the high three bits at negative running disparity, of a data and of a control group. -/
def fourTable : List Nat := [0b1011, 0b1001, 0b0101, 0b1100, 0b1101, 0b1010, 0b0110, 0b1110]
def fourControl : List Nat := [0b1011, 0b0110, 0b1010, 0b1100, 0b1101, 0b0101, 0b1001, 0b0111]

/-- The ones among the low n bits. -/
def onesIn (n x : Nat) : Nat := ((List.range n).filter fun i => decide (x / 2 ^ i % 2 = 1)).length

/-- The running disparity after a block of n bits. -/
def rdAfter (n x : Nat) (rd : Bool) : Bool := if n < 2 * onesIn n x then true else if 2 * onesIn n x < n then false else rd

/-- The six bits at a running disparity. -/
def sixBits (k : Bool) (x : Nat) (rd : Bool) : Nat :=
  let m := if k ∧ x = 28 then 0b001111 else nth sixTable x
  if rd ∧ (onesIn 6 m ≠ 3 ∨ m = 0b111000) then 63 - m else m

/-- The four bits at a running disparity; D.x.7 takes its alternate where a run of five would arise. -/
def fourBits (k : Bool) (x y : Nat) (rd : Bool) : Nat :=
  if k then (if rd then 15 - nth fourControl y else nth fourControl y)
  else
    let alt := y = 7 ∧ (if rd then x = 11 ∨ x = 13 ∨ x = 14 else x = 17 ∨ x = 18 ∨ x = 20)
    let m := if alt then 0b0111 else nth fourTable y
    if rd ∧ (onesIn 4 m ≠ 2 ∨ m = 0b1100) then 15 - m else m

/-- The code group of a byte, data or control (`k`), at a running disparity, and the disparity after it. -/
def codeGroup (k : Bool) (b : Nat) (rd : Bool) : Nat × Bool :=
  let six := sixBits k (b % 32) rd
  let rd6 := rdAfter 6 six rd
  let four := fourBits k (b % 32) (b / 32) rd6
  (16 * six + four, rdAfter 4 four rd6)

/-- The code groups of a sequence of bytes. -/
def codeGroups : List (Bool × Byte) → Bool → List Nat × Bool
  | [], rd => ([], rd)
  | (k, b) :: t, rd =>
    let g := codeGroup k b.toNat rd
    let r := codeGroups t g.2
    (g.1 :: r.1, r.2)

/-- The control bytes that have a code group: K28.0 to K28.7, K23.7, K27.7, K29.7, K30.7. -/
def controlBytes : List Nat := [0x1C, 0x3C, 0x5C, 0x7C, 0x9C, 0xBC, 0xDC, 0xFC, 0xF7, 0xFB, 0xFD, 0xFE]

/-- A received group is that of a data byte, or of a control byte, at the running disparity. -/
def isDataGroup (g : Nat) (rd : Bool) : Bool := (List.range 256).any fun b => decide ((codeGroup false b rd).1 = g)
def isControlGroup (g : Nat) (rd : Bool) : Bool := controlBytes.any fun b => decide ((codeGroup true b rd).1 = g)

/-- A group that holds a comma: K28.1, K28.5 or K28.7. -/
def isComma (g : Nat) : Bool := [0x3C, 0xBC, 0xFC].any fun b => decide ((codeGroup true b false).1 = g) || decide ((codeGroup true b true).1 = g)

/-! ## Synchronisation -/

/-- Codes of the machine's states: 0 without synchronisation, 1, 3 and 5 after a comma, 2 and 4 between commas, 6 to 9 synchronised with
none to three bad groups behind. -/
def syncGroup (r : FabRx) (g : BitVec 10) : FabRx :=
  let x := g.toNat
  let valid := isDataGroup x r.rd || isControlGroup x r.rd
  let even := !r.even
  let bad := !valid || (isComma x && !even)
  let go := fun (st : Nat) (even : Bool) => ({ st, good := 0, even, rd := rdAfter 4 (x % 16) (rdAfter 6 (x / 16) r.rd) } : FabRx)
  match r.st with
  | 0 => if isComma x then go 1 true else go 0 even
  | 1 | 3 | 5 => if isDataGroup x r.rd then go (r.st + 1) even else go 0 even
  | 2 | 4 => if bad then go 0 even else if isComma x then go (r.st + 1) true else go r.st even
  | 6 => go (if bad then 7 else 6) even
  | st =>
    if bad then go (if st = 9 then 0 else st + 1) even
    else if r.good = 3 then go (st - 1) even
    else { go st even with good := r.good + 1 }

end Sys2Proof.Machine
end

