-- ==== Sys2Proof/Machine/Frm.lean ====
section
/-! DEFINITION. Coding, line frame and lane mapping (chapter 04): the overhead block and its CRC, frames received and sent,
cells, containers, and the meanings of the framing commands and events. -/

namespace Sys2Proof.Machine

/-! ## CRC-8 of the overhead block (R112, R556) -/

/-- One step of the CRC register. -/
def crc8Step (r : BitVec 8) (b : Bool) : BitVec 8 :=
  if b ^^ r.getLsbD 7 then (r <<< 1) ^^^ 0x07#8 else r <<< 1

/-- The register after bits `lo` to `hi - 1` of a block, in the order they are sent. -/
def crc8Bits (blk : BitVec 170) (lo hi : Nat) : BitVec 8 :=
  (List.range (hi - lo)).foldl (fun r i => crc8Step r (blk.getLsbD (lo + i))) 0

/-- Whether a received block is intact (R556). -/
def ohIntact (blk : BitVec 170) : Bool := decide (crc8Bits blk 16 170 = 0)

/-- The remainder as it lies in the block: bit r[7 - i] at place i. -/
def crc8Rev (r : BitVec 8) : Nat := ((List.range 8).map fun i => if r.getLsbD (7 - i) then 2 ^ i else 0).sum

/-- The block `body` (bits 0 to 161) with its CRC. -/
def ohSeal (body : Nat) : Nat := body + 2 ^ 162 * crc8Rev (crc8Bits (BitVec.ofNat 170 body) 16 162)

/-- Field of an overhead block. -/
def ohField (blk : BitVec 170) (lo w : Nat) : Nat := blk.toNat / 2 ^ lo % 2 ^ w

/-- The rot field that lane n sends at frame number k (R113). -/
def ohRot (n k : Nat) (s : State) : Nat :=
  match k % 16 with
  | 0 => n + 8 * s.get (FRM_LANE_CTRL_map n) + 32 * s.get (FRM_LANE_CTRL_outer n)
  | 1 => s.get SNK_ADDR_addr
  | 2 => (if fstate n s = 3 then 1 else 0) + 2 * s.get (FRM_LANE_STATUS_degraded n)
  | 15 => k / 16
  | _ => 0

/-- The overhead block of lane n: frame number, valid, start and the sixteen payload bytes (R112). -/
def ohBlock (n k : Nat) (valid start : Bool) (payload : List Byte) (s : State) : Nat :=
  let p := (List.range 16).map fun b => (nth payload b).toNat * 2 ^ (34 + 8 * b)
  ohSeal (0xE4D1 + 2 ^ 16 * (k % 16) + 2 ^ 20 * ohRot n k s + 2 ^ 32 * valid.toNat + 2 ^ 33 * start.toNat + p.sum)

/-- Bits in which the align field differs from 0xE4D1 (R116). -/
def alignDiff (blk : BitVec 170) : Nat :=
  ((List.range 16).filter fun i => blk.getLsbD i != (0xE4D1#16).getLsbD i).length

/-! ## Reception of overhead blocks -/

/-- The number of the frame just received (R113). -/
def nextNum (old : Option Nat) (mf rot : Nat) : Option Nat :=
  if mf = 15 then some (rot * 16 + 15)
  else
    match old with
    | some k => if (k + 1) % 16 = mf then some ((k + 1) % 65536) else none
    | none => none

/-- The skew of lane m against its reference (R118): the latest frame number that both have received. -/
def skewEval (m : Nat) (s : State) : State :=
  let r := s.get (FRM_LANE_CTRL_skew_ref m)
  if fstate m s = 3 && fstate r s = 3 && nth (nth s.frm m).seen 1 && nth (nth s.frm r).seen 1 &&
      decide (s.get (FRM_RX_ID_addr m) = s.get (FRM_RX_ID_addr r)) then
    match (nth s.frm m).arr.findSome? fun e =>
        ((nth s.frm r).arr.find? fun g => decide (g.1 = e.1)).map fun g => e.2 - g.2 with
    | some d => (s.seti (FRM_SKEW_skew m) (satI 24 d)).set (FRM_SKEW_valid m) 1
    | none => s
  else s.set (FRM_SKEW_valid m) 0

/-- The rot field of a block that passed its CRC goes to FRM_RX_ID (R113). -/
def takeRot (n mf rot : Nat) (s : State) : State :=
  let seen (i : Nat) (s : State) : State := updFrm n (fun f => { f with seen := upd f.seen i fun _ => true }) s
  let s := match mf with
    | 0 => seen 0 (((s.set (FRM_RX_ID_lane n) rot).set (FRM_RX_ID_map n) (rot / 8)).set (FRM_RX_ID_outer n) (rot / 32))
    | 1 => seen 1 (s.set (FRM_RX_ID_addr n) rot)
    | 2 => seen 2 ((s.set (FRM_RX_ID_rem_aligned n) rot).set (FRM_RX_ID_rem_degraded n) (rot / 2))
    | _ => s
  if (nth s.frm n).seen.all id then s.set (FRM_RX_ID_valid n) 1 else s

/-- An overhead block received while ALIGNED (R113, R115, R118). -/
def takeOverhead (n : Nat) (blk : BitVec 170) (arr : Int) (s : State) : State :=
  if ohIntact blk then
    let mf := ohField blk 16 4
    let rot := ohField blk 20 12
    let s := takeRot n mf rot s
    let num := nextNum (nth s.frm n).num mf rot
    let s := updFrm n (fun f => { f with
      num := num
      spoiled := f.spoiled && !(blk.getLsbD 32 && blk.getLsbD 33)
      arr := match num with | some k => ((k, arr) :: f.arr).take 16 | none => f.arr }) s
    forN 8 (fun m s => if m = n ∨ s.get (FRM_LANE_CTRL_skew_ref m) = n then skewEval m s else s) s
  else
    let num := ((nth s.frm n).num).map fun k => (k + 1) % 65536
    frmEvt n 3 (frmCount n 6 1 (updFrm n (fun f => { f with spoiled := true, num := num }) s))

/-- The bits of a frame: one overhead block and 512 payload blocks of 170 bits (R100). -/
def frameBits : Nat := 87210

/-- Bits `lo` to `lo + w - 1` of a run of received bits. -/
def Soft.part (r : Soft) (lo w : Nat) : Soft := { bits := bitsAt r.bits lo w, rel := bitsAt r.rel (4 * lo) (4 * w), len := w }

/-- The run without its first k bits. -/
def Soft.drop (r : Soft) (k : Nat) : Soft := { bits := r.bits / 2 ^ k, rel := r.rel / 2 ^ (4 * k), len := r.len - k }

/-- The first bit position below `lo + fuel`, from `lo` on, at which the align word stands exactly (R116). -/
def findAlign (v : Nat) : Nat → Nat → Option Nat
  | 0, _ => none
  | fuel + 1, lo => if bitsAt v lo 16 = 0xE4D1 then some lo else findAlign v fuel (lo + 1)

/-- The first k received bits have been taken. -/
def rxTake (n k : Nat) (s : State) : State := updFrm n (fun f => { f with rx := f.rx.drop k }) s

/-- A frame period received in HUNT (R116): the align word at any bit position gives the frame position; else a period without a
match has passed. The frame that begins at the match is taken with it. -/
def rxHunt (n : Nat) (s : State) : State :=
  let r := (nth s.frm n).rx
  match findAlign r.bits frameBits 0 with
  | some p => if p + frameBits ≤ r.len then setFstate n 2 (rxTake n (p + frameBits) s) else s
  | none => updFrm n (fun f => { f with miss := f.miss + 1 }) (rxTake n frameBits s)

/-- A frame received in CONFIRM (R116). -/
def rxConfirm (n : Nat) (blk : BitVec 170) (s : State) : State :=
  if alignDiff blk = 0 then
    if (nth s.frm n).conf = 0 then updFrm n (fun f => { f with conf := 1 }) s
    else frmEvt n 0 (setFstate n 3 s)
  else setFstate n 1 s

/-- The payload of a frame goes on (R106, R117): its message bits as received, no codeword decoded, no block marked. -/
def takePayload (n : Nat) (p : Soft) (s : State) : State :=
  let s := if s.get (FRM_LANE_CTRL_map n) = 1 then celRx (laneTenant n s) 81920 s else s
  updFrm n (fun f => { f with uncorr := false, skip := 4, pay := p, msg := msgOf p.bits, decoded := [], word := 0, marks := [] }) s

/-- A frame received in ALIGNED (R116, R137): the overhead, then the align field; its payload goes on unless the framer is lost. -/
def rxAligned (n : Nat) (fr : Soft) (arr : Int) (s : State) : State :=
  let blk := BitVec.ofNat 170 fr.bits
  let s := takeOverhead n blk arr s
  let pay := fr.part 170 87040
  if alignDiff blk ≤ 2 then updFrm n (fun f => { f with bad := 0 }) (takePayload n pay s)
  else if (nth s.frm n).bad = 3 then frameLost n s
  else updFrm n (fun f => { f with bad := f.bad + 1 }) (takePayload n pay s)

/-- RX_FRAME (R116): a frame period's bits of the detector have come, while the receiver is DETECT or LOCKED; `arr` is the frame's
time of arrival in units of 64 symbols (R118). -/
def rxFrame (n : Nat) (arr : Int) (s : State) : State :=
  let d := s.get (LANE_DET_STATUS_state n)
  let r := (nth s.frm n).rx
  if (d = 2 ∨ d = 3) ∧ frameBits ≤ r.len then
    let fr := r.part 0 frameBits
    match fstate n s with
    | 1 => rxHunt n s
    | 2 => rxConfirm n (BitVec.ofNat 170 fr.bits) (rxTake n frameBits s)
    | 3 => rxAligned n fr arr (rxTake n frameBits s)
    | _ => s
  else s

/-- PUNCTURE_PHASE_ADVANCE (R116): four frame periods without a match, in DETECT. -/
def puncturePhaseAdvance (n : Nat) (s : State) : State :=
  if fstate n s = 1 ∧ s.get (LANE_DET_STATUS_state n) = 2 ∧ 4 ≤ (nth s.frm n).miss then
    updFrm n (fun f => { f with miss := 0 }) (s.incMod (FRM_LANE_STATUS_pphase n))
  else s

/-! ## Outer decoder (R109 to R111) -/

/-- Whether the part decodes the outer code on lane n (R107, R108, R117). -/
def rsActive (n : Nat) (s : State) : Bool :=
  decide (fstate n s = 3) &&
    (decide (s.get (FRM_LANE_CTRL_map n) = 2) ||
      (decide (s.get (FRM_LANE_CTRL_map n) = 1) && decide (s.get (FRM_LANE_CTRL_outer n) = 0)))

/-- A codeword corrected with `k` symbols (R135, R136). -/
def rsCorrected (n k : Nat) (saved : Bool) (s : State) : State :=
  let s := frmCount n 0 k s
  let s := if 0 < k then frmCount n 1 1 s else s
  let s := if saved then frmCount n 4 1 s else s
  let s := if s.get (FRM_FEC_CTRL_tail_thr n) ≤ k then frmCount n 5 1 s else s
  updFrm n (fun f => { f with degSum := f.degSum + k }) s

/-- The 257-bit blocks of a frame whose message bits lie in codeword k of group g (R111). -/
def blocksIn (g k : Nat) : List Nat :=
  (List.range 320).filter fun i =>
    (List.range 27).any fun j =>
      let t := 257 * i / 10 + j
      decide (10 * t < 257 * i + 257) && decide (t / 2056 = g) && decide (t % 2056 % 4 = k)

/-- An uncorrectable codeword: on a radio lane the cells from its group on are lost (R128), on an Ethernet lane the blocks with message
bits in it are marked (R111, R137). -/
def rsFailed (n g k : Nat) (s : State) : State :=
  let s := frmCount n 2 1 s
  let s := if (nth s.frm n).uncorr then s else frmEvt n 2 s
  let radio := decide (s.get (FRM_LANE_CTRL_map n) = 2)
  updFrm n (fun f => { f with
    uncorr := true
    skip := if radio then min f.skip g else f.skip
    marks := if radio then f.marks else f.marks ++ (blocksIn g k).filter fun i => !f.marks.contains i }) s

/-- Codeword k of group g of a received payload, and the reliability of its symbols (R106, R109). -/
def rxWord (p : Soft) (g k : Nat) : List Nat := (List.range 544).map fun i => bitsAt p.bits (payPlace g k i) 10
def rxRel (p : Soft) (g k : Nat) : List Nat :=
  (List.range 544).map fun i => symbolRel (unpackBits 4 10 (bitsAt p.rel (4 * payPlace g k i) 40))

/-- RS_CODEWORD_DECODE: codeword k of group g of the frame last received is decoded with and without its erasures (R109 to R111). -/
def rsDecode (n g k : Nat) (s : State) : State :=
  let f := nth s.frm n
  if rsActive n s && decide (f.pay.len = 87040) && !f.decoded.contains (4 * g + k) then
    let w := rxWord f.pay g k
    let marks := erasures (s.on (FRM_FEC_CTRL_era_en n)) (s.get (FRM_FEC_CTRL_era_thr n)) (s.get (FRM_FEC_CTRL_era_max n)) (rxRel f.pay g k)
    let o := rsBoth marks w
    let s := frmCount n 3 marks.length (updFrm n (fun f => { f with decoded := f.decoded ++ [4 * g + k] }) s)
    match o.1.orElse fun _ => o.2 with
    | some v =>
      rsCorrected n (rsDiffer w v).length o.2.isNone (updFrm n (fun f => { f with msg := putMsg f.msg g k (v.take 514) }) s)
    | none => rsFailed n g k s
  else s

/-- The FEC symbol stream that an Ethernet-mapped lane hands the host side (R106, R111, R117, R120): none is local-fault signalling;
end-to-end the payload as received, segmented the message with its marked blocks in error, encoded again with the host's code, in a
compatibility mode the inner decoder's bits. Behind closed pair gates the
lanes of pair_lanes hand none (R491). -/
def towardsHost (n : Nat) (s : State) : Option Nat :=
  let f := nth s.frm n
  if pairShut s && decide (s.get SNK_PAIR_CTRL_pair_lanes / 2 ^ n % 2 = 1) then none
  else if s.get (FRM_LANE_CTRL_mode n) = 1 then some f.inner
  else if fstate n s ≠ 3 then none
  else if s.on (FRM_LANE_CTRL_outer n) then some f.pay.bits
  else some (hostEncode (packBits 257 ((List.range 320).map fun i =>
    let b := bitsAt f.msg (257 * i) 257
    if f.marks.contains i then Config.errorMark b else b)))

/-- FEC_WINDOW_END (R136): the flag sets, as it clears, at a window's end (DESIGN CHOICE, log 167). -/
def fecWindowEnd (n : Nat) (s : State) : State :=
  let deg := decide (s.get (FRM_FEC_CTRL_deg_thr n) * 4096 < (nth s.frm n).degSum)
  let old := s.on (FRM_LANE_STATUS_degraded n)
  let s := updFrm n (fun f => { f with degSum := 0 }) s
  if deg = old then s else frmEvt n 7 (s.set (FRM_LANE_STATUS_degraded n) deg.toNat)

/-! ## Containers (R124 to R130) -/

/-- Words of a cell by format (R124). -/
def cellWords (fmt : Nat) : Nat :=
  match fmt with
  | 0 => 7
  | 1 => 3
  | 2 => 4
  | _ => 5

/-- Load of a container in 2^-5 · 10^-6 word per frame (R129): W × 2.097152 / 2^rate words. -/
def ctrLoad (rate fmt : Nat) : Nat := cellWords fmt * 2097152 * 2 ^ (5 - rate)

/-- 10^-6 · 2^-5 word: the unit of `ctrLoad` in one word. -/
def loadUnit : Nat := 32000000

/-- The control word of container c. -/
def ctrWord (rx : Bool) (n c : Nat) (s : State) : Word := s.rd (if rx then FRM_RCTR n c else FRM_TCTR n c)

def ctrEn (w : Word) : Bool := bit w 0
def ctrRate (w : Word) : Nat := fieldOf w 1 3
def ctrFmt (w : Word) : Nat := fieldOf w 4 2

/-- The load that the container's control word gives it. -/
def wordLoad (w : Word) : Nat := if ctrEn w then ctrLoad (ctrRate w) (ctrFmt w) else 0

/-- The load of a direction (R129). -/
def dirLoad (rx : Bool) (n : Nat) (s : State) : Nat := ((List.range 128).map fun c => wordLoad (ctrWord rx n c s)).sum

/-- Enabled containers of a direction. -/
def dirCount (rx : Bool) (n : Nat) (s : State) : Nat := ((List.range 128).filter fun c => ctrEn (ctrWord rx n c s)).length

/-- FRM_RAD_LOAD_TX or _RX follows the containers. -/
def loadRefresh (rx : Bool) (n : Nat) (s : State) : State :=
  let l := cdiv (dirLoad rx n s) 32000
  let k := dirCount rx n s
  if rx then (s.set (FRM_RAD_LOAD_RX_load n) l).set (FRM_RAD_LOAD_RX_count n) k
  else (s.set (FRM_RAD_LOAD_TX_load n) l).set (FRM_RAD_LOAD_TX_count n) k

/-- The buffers of a container start empty. -/
def ctrFresh (rx : Bool) (n c : Nat) (s : State) : State :=
  updFrm n (fun f => if rx then { f with rxc := upd f.rxc c fun _ => {} } else { f with txc := upd f.txc c fun _ => {} }) s

/-- CONTAINER_WRITE: a write of FRM_TCTR_c or FRM_RCTR_c (R129, R130). Enabling a container, or changing the rate or format of an
enabled one, empties its buffers (log 44). -/
def wrCtr (rx : Bool) (n c : Nat) (w : Word) (s : State) : State :=
  let old := ctrWord rx n c s
  let diff := decide (ctrRate w ≠ ctrRate old) || decide (ctrFmt w ≠ ctrFmt old)
  if 6 ≤ ctrRate w || (rx && decide (wf w (FRM_RCTR_po_depth n c) = 0)) then s.ret .range
  else if ((ctrEn old && !ctrEn w) || diff) && ctrNamed rx n (some c) s then s.ret .state
  else if ctrEn w && (!ctrEn old || diff) && decide (1279 * loadUnit < dirLoad rx n s - wordLoad old + wordLoad w) then
    s.ret .capacity
  else
    let s := if rx then s.store (FRM_RCTR n c) FRM_RCTR_fs w else s.store (FRM_TCTR n c) FRM_TCTR_fs w
    let s := if ctrEn w && (!ctrEn old || diff) then ctrFresh rx n c s else s
    (loadRefresh rx n s).ret .done

/-- A block that RX_CELL brings to container c in sequence (R127). -/
def rxBlock (n c fmt seq blk : Nat) (s : State) : State :=
  let x := nth (nth s.frm n).rxc c
  let gap := match x.expect with | some e => (seq + 256 - e) % 256 | none => 0
  let wait := x.wait ++ List.replicate gap none
  let put (wait : List (Option Nat)) (s : State) : State :=
    updFrm n (fun f => { f with rxc := upd f.rxc c fun x => { x with expect := some ((seq + 1) % 256), wait := wait } }) s
  if fmt ≠ ctrFmt (ctrWord true n c s) then frmEvt n 5 (frmCount n 10 1 (put wait s))
  else if 16 ≤ (x.wait.filter Option.isSome).length then frmEvt n 5 (frmCount n 9 1 (put wait s))
  else put (wait ++ [some blk]) s

/-- The interleave group in which bit b of the message lies. -/
def groupOf (b : Nat) : Nat := b / 20560

/-- The four codewords of group g have been decoded. -/
def groupDone (f : Frm) (g : Nat) : Bool := (List.range 4).all fun k => f.decoded.contains (4 * g + k)

/-- RX_CELL (R117, R124, R127, R128): the next cell of the frame's message, once its groups are decoded. A cell that starts or ends in
or after a group with an uncorrectable codeword ends the frame's cells; an idle word takes one word. -/
def rxCell (n : Nat) (s : State) : State :=
  let f := nth s.frm n
  let hdr := bitsAt f.msg (64 * f.word) 20
  let c := hdr / 2 % 128
  let fmt := hdr / 256 % 4
  let size := if hdr % 2 = 0 then 1 else cellWords fmt
  let g := groupOf (64 * f.word)
  let last := groupOf (64 * (f.word + size) - 1)
  if !rsActive n s ∨ s.get (FRM_LANE_CTRL_map n) ≠ 2 ∨ f.pay.len ≠ 87040 ∨ 1285 ≤ f.word ∨ !groupDone f g ∨ !groupDone f last then s
  else if f.skip ≤ last ∨ 1285 < f.word + size then updFrm n (fun f => { f with word := 1285 }) s
  else
    let s := updFrm n (fun f => { f with word := f.word + size }) s
    if hdr % 2 = 1 && ctrEn (ctrWord true n c s) then
      rxBlock n c fmt (hdr / 1024 % 256) (bitsAt f.msg (64 * f.word + 20) (blockBits fmt)) s
    else s

/-- The next container with a whole block, in round-robin order from the scheduler's place (R125). -/
def nextReady (f : Frm) (en : Nat → Bool) : Option Nat :=
  ((List.range 128).map fun i => (f.rr + i) % 128).find? fun c => en c && !(nth f.txc c).wait.isEmpty

/-- A cell's words as a run of bits: valid, container, format and sequence in bits 19:0, the block from bit 20 (R124). -/
def cellBits (c fmt seq blk : Nat) : Nat := 1 + 2 * c + 256 * fmt + 1024 * (seq % 256) + 2 ^ 20 * (blk % 2 ^ blockBits fmt)

/-- The cells of one frame from word `w` of 1,285 on (R125): which containers are enabled and their formats; idle words are 0. The
message bits are gathered in `m`. -/
def fillCells (en : Nat → Bool) (fmt : Nat → Nat) : Nat → Nat → Nat → Frm → Nat × Frm
  | 0, _, m, f => (m, f)
  | fuel + 1, w, m, f =>
    match nextReady f en with
    | none => (m, f)
    | some c =>
      if w + cellWords (fmt c) ≤ 1285 then
        let x := nth f.txc c
        fillCells en fmt fuel (w + cellWords (fmt c)) (m + 2 ^ (64 * w) * cellBits c (fmt c) x.seq (x.wait.headD 0)) { f with
          cells := f.cells ++ [(c, x.seq)]
          rr := (c + 1) % 128
          txc := upd f.txc c fun x => { wait := x.wait.drop 1, seq := (x.seq + 1) % 256 } }
      else (m, f)

/-- The bits of a frame's payload that lane n gets from its host side: 87,040 of the host's stream end-to-end, 82,240 of its 257-bit
blocks in segmented mode. -/
def hostBits (n : Nat) (s : State) : Nat := if s.on (FRM_LANE_CTRL_outer n) then 87040 else 82240

/-- The payload of a frame of an Ethernet-mapped lane from those bits: with the part's own code in segmented mode, bit for bit
end-to-end; local-fault blocks where the host gives none (R106, R146). -/
def ethPayload (n : Nat) (host : Option Nat) (s : State) : Nat :=
  let v := (match host with | some v => v | none => Config.localFault (s.on (FRM_LANE_CTRL_outer n))) % 2 ^ hostBits n s
  if s.on (FRM_LANE_CTRL_outer n) then v else payloadOf v

/-- The symbols of a frame (R100 to R104): its overhead block and payload through the inner encoder of lane n, 5,814 periods. -/
def sendFrame (n oh payload : Nat) (s : State) : State :=
  updFrm n (fun f =>
    let r := encodeRun 5814 f.enc (oh + 2 ^ 170 * payload)
    { f with oh := oh, sym := r.1, enc := r.2, symTail := (unpackBits 2 7 (f.sym / 2 ^ (2 * 46505))).reverse }) s

/-- The frame of lane n starts (R104, R112, R125): its overhead block with the crate bytes given, and its payload; `host` is what the
host side gives an Ethernet-mapped lane. -/
def laneFrame (n : Nat) (host : Option Nat) (valid start : Bool) (payload : List Byte) (s : State) : State :=
  let oh := ohBlock n s.frameNo valid start payload s
  if s.get (FRM_LANE_CTRL_map n) = 2 then
    let fmt := fun c => ctrFmt (ctrWord false n c s)
    let r := fillCells (fun c => ctrEn (ctrWord false n c s)) fmt 428 0 0 { nth s.frm n with cells := [] }
    sendFrame n oh (payloadOf r.1) (updFrm n (fun _ => r.2) s)
  else sendFrame n oh (ethPayload n host s) (updFrm n (fun f => { f with cells := [] }) s)

/-- Symbol i of the frame last started on lane n; the last seven of the frame before it lie below 0 (R103). -/
def frameSym (n : Nat) (i : Int) (s : State) : Nat :=
  let f := nth s.frm n
  if i < 0 then nth f.symTail (-i - 1).toNat else bitsAt f.sym (2 * i.toNat) 2

/-- The DAC code that lane n drives at symbol i of the frame last started, up to the fourth symbol from its end (R59 to R61, R103,
R131). -/
def lineCode (n i : Nat) (s : State) : Int :=
  txDac n ((List.range 11).map fun (j : Nat) => frameSym n ((i : Int) + 3 - (j : Int)) s) s

/-! ## Lane control (R18 to R22, R120 to R123, R367) -/

/-- The host lanes from hgrp onwards form a group that R19 and R20 allow. -/
def groupOk (lineMode h : Nat) (s : State) : Bool :=
  let m := s.get (HOST_CTRL_mode h)
  match groupSize lineMode m with
  | some g =>
    decide (h % g = 0) && decide (h + g ≤ 8) &&
      (List.range g).all fun j => decide (s.get (HOST_CTRL_mode (h + j)) = m) && (hostGroup (h + j) s).isNone
  | none => false

/-- The fields that only change while up = 0 (R122). -/
def laneCfgChg (n : Nat) (w : Word) (s : State) : Bool :=
  s.chg w (FRM_LANE_CTRL_map n) || s.chg w (FRM_LANE_CTRL_mode n) || s.chg w (FRM_LANE_CTRL_outer n) ||
    s.chg w (FRM_LANE_CTRL_hgrp n) || s.chg w (FRM_LANE_CTRL_skew_ref n)

/-- The lane comes up (R104, R116, R123): its encoder starts at 0, an Ethernet-mapped lane takes its group. -/
def laneUp (n : Nat) (s : State) : State :=
  let h := s.get (FRM_LANE_CTRL_hgrp n)
  let g := if s.get (FRM_LANE_CTRL_map n) = 1 then (groupSize (s.get (FRM_LANE_CTRL_mode n)) (s.get (HOST_CTRL_mode h))).map fun g => (h, g)
    else none
  let s := updFrm n (fun f => { f with enc := 0, rx := {}, pay := {}, inner := 0, grp := g }) s
  if s.get (FRM_LANE_CTRL_mode n) = 0 then setFstate n 1 s else s

/-- The lane goes down (R116). -/
def laneDown (n : Nat) (s : State) : State := setFstate n 0 (updFrm n (fun f => { f with grp := none }) s)

/-- A write of FRM_LANE_CTRL (R21, R120, R122, R123, R367). -/
def wrLaneCtrl (n : Nat) (w : Word) (s : State) : State :=
  let up := s.on (FRM_LANE_CTRL_up n)
  let up' := decide (wf w (FRM_LANE_CTRL_up n) = 1)
  let map := wf w (FRM_LANE_CTRL_map n)
  let mode := wf w (FRM_LANE_CTRL_mode n)
  let tx := txState n s
  if map = 3 ∨ 2 ≤ mode then s.ret .range
  else if !up && up' && (decide (map = 0) || (decide (mode = 1) && (decide (map = 2) || decide (wf w (FRM_LANE_CTRL_outer n) = 0)))) then
    s.ret .range
  else if up && laneCfgChg n w s then s.ret .state
  else if up && !up' && decide (tx ≠ 0) && decide (tx ≠ 5) then s.ret .state
  else if s.get (FRM_LANE_CTRL_map n) = 2 && decide (map ≠ 2) && ctrListed n s then s.ret .state
  else if !up && up' && (decide (mode ≠ s.get CRP_PLL_CTRL_tx_mode) ||
      (decide (map = 1) && !groupOk mode (wf w (FRM_LANE_CTRL_hgrp n)) s)) then s.ret .state
  else
    let s := s.store (FRM_LANE_CTRL n) FRM_LANE_CTRL_fs w
    (if !up && up' then laneUp n s else if up && !up' then laneDown n s else s).ret .done

/-! ## Transmit squelch (R131 to R133) -/

/-- A ramp starts: its step length is taken (FRM_SQ_CTRL). -/
def rampStart (n t : Nat) (s : State) : State :=
  setTx n t (updFrm n (fun f => { f with rampLen := s.get (FRM_SQ_CTRL_ramp_len n) }) s)

/-- The command ends at once with `c`. -/
def txNow (n op : Nat) (c : Code) (s : State) : State := (txEnd n op c 0 s).ret c

/-- ENABLE (R133). -/
def txEnable (n : Nat) (s : State) : State :=
  match txState n s with
  | 0 => if s.on (FRM_LANE_CTRL_up n) && s.on (LANE_TX_CTRL_dac_en n) then txNow n 1 .done (rampStart n 1 s) else txNow n 1 .state s
  | 1 => txNow n 1 .done s
  | 2 => txNow n 1 .done s
  | 3 =>
    let s := (s.set (FRM_TX_RESULT_outcome n) Code.held.n).set (FRM_TX_RESULT_op n) 1
    (setTx n 4 (s.set (FRM_TX_RESULT_reason n) 0)).ret .held
  | 4 => txNow n 1 .state s
  | _ => txNow n 1 .guard s

/-- SQUELCH (R133). A ramp that it turns round has not ended and raises no TX_RAMP_END (DESIGN CHOICE, log 147). -/
def txSquelch (n : Nat) (s : State) : State :=
  match txState n s with
  | 0 => txNow n 2 .done s
  | 1 => txNow n 2 .done (rampStart n 3 s)
  | 2 => txNow n 2 .done (rampStart n 3 s)
  | 3 => txNow n 2 .done s
  | 4 => txNow n 2 .done (setTx n 3 (txEnd n 1 .aborted 1 s))
  | _ => txNow n 2 .guard s

/-- A write of FRM_TX_CMD: op 0 and 3 end ERR_RANGE. -/
def wrTxCmd (n : Nat) (w : Word) (s : State) : State :=
  match wf w (FRM_TX_CMD_op n) with
  | 1 => txEnable n s
  | 2 => txSquelch n s
  | op => txNow n op .range s

/-- SQUELCH_STEP: a transmit step boundary of lane n, counted in transmit symbols (R24, R132, R133). -/
def squelchStep (n : Nat) (s : State) : State :=
  let g := s.get (FRM_LANE_STATUS_gain n)
  if !txRuns s then s
  else match txState n s with
  | 1 =>
    let s := s.set (FRM_LANE_STATUS_gain n) (g + 1)
    if g + 1 = 256 then frmEvt n 6 (setTx n 2 s) else s
  | 3 =>
    let s := s.set (FRM_LANE_STATUS_gain n) (g - 1)
    if g ≤ 1 then frmEvt n 6 (setTx n 0 s) else s
  | 4 =>
    if g = 0 then txEnd n 1 .done 0 ((rampStart n 1 s).set (FRM_LANE_STATUS_gain n) 1)
    else
      let s := s.set (FRM_LANE_STATUS_gain n) (g - 1)
      if g = 1 then frmEvt n 6 s else s
  | _ => s

/-! ## Other registers -/

/-- FRM_SQ_CTRL: ramp_len 5 to 7 end ERR_RANGE. -/
def wrSqCtrl (n : Nat) (w : Word) (s : State) : State :=
  if 4 < wf w (FRM_SQ_CTRL_ramp_len n) then s.ret .range else plainWrite (FRM_SQ_CTRL n) FRM_SQ_CTRL_fs w s

/-- FRM_FEC_CTRL: era_max 31 and tail_thr 0 end ERR_RANGE. -/
def wrFecCtrl (n : Nat) (w : Word) (s : State) : State :=
  if wf w (FRM_FEC_CTRL_era_max n) = 31 ∨ wf w (FRM_FEC_CTRL_tail_thr n) = 0 then s.ret .range
  else plainWrite (FRM_FEC_CTRL n) FRM_FEC_CTRL_fs w s

/-- The snapshot of R135: the counters are copied and the live ones cleared. -/
def frmSnap (n : Nat) (s : State) : State :=
  let c := (nth s.frm n).cnt
  let s := forN 11 (fun i s => s.wr (FRM_CNT_CORR_SYM n + 4 * i) (BitVec.ofNat 32 (nth c i))) s
  updFrm n (fun f => { f with cnt := List.replicate 11 0 }) s

/-- A write of FRM_CNT_CMD (R135). -/
def wrCntCmd (n : Nat) (w : Word) (s : State) : State :=
  (if wf w (FRM_CNT_CMD_snap n) = 1 then frmSnap n s else s).ret .done

/-- The FRM block's reset takes hold (R138, R555): framers OFF, transmitters FORCED; a held ENABLE ends without a record. -/
def resetFrm (s : State) : State :=
  let cs := s.frm.map fun f => f.causes
  let s := s.dropRange (FRM_LANE_CTRL 0) (FRM_LANE_CTRL 8)
  let s := { s with frm := cs.map fun c => { causes := c }, frameNo := 0 }
  forN 8 (fun n s => forceOn n causeFence s) s

/-- The FRM block's reset is released (R138). -/
def releaseFrm (s : State) : State := forN 8 (fun n s => forceOff n causeFence s) s

/-! ## Meanings -/

def execMappingChange (q : Rq) (n : Fin 8) (w : Word) (s : State) : Out :=
  .next (gated q (FRM_LANE_CTRL n) FRM_LANE_CTRL_fs w (wrLaneCtrl n w) s)

def execLaneUp (q : Rq) (n : Fin 8) (w : Word) (s : State) : Out :=
  let w := force w (FRM_LANE_CTRL_up n) 1
  .next (gated q (FRM_LANE_CTRL n) FRM_LANE_CTRL_fs w (wrLaneCtrl n w) s)

def execLaneDown (q : Rq) (n : Fin 8) (w : Word) (s : State) : Out :=
  let w := force w (FRM_LANE_CTRL_up n) 0
  .next (gated q (FRM_LANE_CTRL n) FRM_LANE_CTRL_fs w (wrLaneCtrl n w) s)

def execRxFrame (n : Fin 8) (arr : Int) (s : State) : Out := .next (rxFrame n arr s)

def execPuncturePhaseAdvance (n : Fin 8) (s : State) : Out := .next (puncturePhaseAdvance n s)

def execRsCodewordDecode (n : Fin 8) (g k : Fin 4) (s : State) : Out := .next (rsDecode n g k s)

def execRxCell (n : Fin 8) (s : State) : Out := .next (rxCell n s)

def execContainerWrite (q : Rq) (n : Fin 8) (rx : Bool) (c : Fin 128) (w : Word) (s : State) : Out :=
  .next (gated q (if rx then FRM_RCTR n c else FRM_TCTR n c) (if rx then FRM_RCTR_fs else FRM_TCTR_fs) w (wrCtr rx n c w) s)

def execTxEnable (q : Rq) (n : Fin 8) (s : State) : Out := .next (gated q (FRM_TX_CMD n) FRM_TX_CMD_fs 1 (txEnable n) s)

def execTxSquelch (q : Rq) (n : Fin 8) (s : State) : Out := .next (gated q (FRM_TX_CMD n) FRM_TX_CMD_fs 2 (txSquelch n) s)

def execSquelchStep (n : Fin 8) (s : State) : Out := .next (squelchStep n s)

def execFecWindowEnd (n : Fin 8) (s : State) : Out := .next (fecWindowEnd n s)

def execFrmCounterSnap (q : Rq) (n : Fin 8) (s : State) : Out :=
  .next (gated q (FRM_CNT_CMD n) FRM_CNT_CMD_fs 1 (wrCntCmd n 1) s)

end Sys2Proof.Machine
end

