-- ==== Sys2Proof/Machine/Snk.lean ====
section
/-! DEFINITION. The fabric and the redundant pair (chapter 18); what needs the bus stands in Remote.lean. -/

namespace Sys2Proof.Machine

def updSnk (f : Snk → Snk) (s : State) : State := { s with snk := f s.snk }
def updLink (l : Nat) (f : SnkLink → SnkLink) (s : State) : State := updSnk (fun k => { k with links := upd k.links l f }) s
def snkLink (l : Nat) (s : State) : SnkLink := nth s.snk.links l

/-! ## Crates (R473 to R475) -/

/-- Byte i of a crate, and its fields. -/
def cb (c : List Byte) (i : Nat) : Nat := (nth c i).toNat
def cLen (c : List Byte) : Nat := (cb c 0 + 256 * cb c 1) % 512
def cBcast (c : List Byte) : Bool := decide (cb c 1 / 2 % 2 = 1)
def cStale (c : List Byte) : Bool := decide (cb c 1 / 4 % 2 = 1)
def cType (c : List Byte) : Nat := cb c 1 / 16
def cDst (c : List Byte) : Nat := cb c 2 + 256 * (cb c 3 % 16)
def cCls (c : List Byte) : Nat := cb c 3 / 16 % 4
def cSrc (c : List Byte) : Nat := cb c 4 + 256 * (cb c 5 % 16)
def cTtl (c : List Byte) : Nat := cb c 6
def cSeq (c : List Byte) : Nat := cb c 7

/-- The header meets R473 and R474. -/
def hdrOk (c : List Byte) : Bool :=
  decide (cLen c ≤ 256) && decide (cb c 1 / 8 % 2 = 0) && decide (cb c 3 / 64 = 0) && decide (cb c 5 / 16 = 0) &&
    (match cType c with
      | 0 | 1 | 2 | 3 | 4 => decide (cCls c = 2)
      | 5 => decide (cCls c = 1)
      | 6 | 7 => decide (cCls c = 0)
      | 8 => true
      | _ => false)

/-- Byte i of a crate becomes v. -/
def cSet (c : List Byte) (i v : Nat) : List Byte := upd c i fun _ => BitVec.ofNat 8 v

/-- The crate with src and seq. -/
def cFrom (src seq : Nat) (c : List Byte) : List Byte :=
  cSet (cSet (cSet c 4 (src % 256)) 5 (src / 256)) 7 seq

/-- A crate of a type and class to dst. -/
def mkCrate (ty cls dst ttl : Nat) (payload : List Byte) : List Byte :=
  let n := payload.length
  [n % 256, n / 256 % 2 + 16 * ty, dst % 256, dst / 256 % 16 + 16 * cls, 0, 0, ttl, 0].map (BitVec.ofNat 8) ++ payload

/-- The device's address. -/
def ownAddr (s : State) : Nat := s.get SNK_ADDR_addr

/-- DEV_ID as OWN_ID_j show it, a 256-bit number. -/
def devNum (s : State) : Nat := (List.range 8).foldr (fun j n => (s.rd (OWN_ID j)).toNat + 2 ^ 32 * n) 0

/-! ## Links (R471, R476) -/

/-- The link's physical layer runs. -/
def phyRuns (l : Nat) (s : State) : Bool := if l < 8 then decide (fstate l s = 3) else decide (6 ≤ (nth s.snk.fab (l - 8)).st)

/-- The link carries crates. -/
def linkRuns (l : Nat) (s : State) : Bool := decide (s.get SNK_LINK_EN_en / 2 ^ l % 2 = 1) && phyRuns l s

def linkUp (l : Nat) (s : State) : Bool := decide (s.get (SNK_LINK_STAT_state l) = 2) && linkRuns l s

/-! ## Queues (R481, R482, R485) -/

/-- What a crate occupies. -/
def occ (c : List Byte) : Nat := (c.length + 4 + 7) / 8 * 8

/-- The band time goes into payload bytes 0 to 7 of a TIME crate as its first byte leaves (R485). -/
def stamp (t : Nat) (c : List Byte) : List Byte :=
  if cType c = 5 then
    (List.range 8).foldl (fun c i => if 8 + i < c.length then cSet c (8 + i) (t / 2 ^ (8 * i)) else c) c
  else c

/-- The oldest crate of the highest class (R481). -/
def pickNext (q : List QEnt) : Option QEnt := (List.range 4).findSome? fun c => q.find? fun e => decide (e.cls = c)

/-- The queue without the first entry equal to e. -/
def dropFirst : List QEnt → QEnt → List QEnt
  | [], _ => []
  | x :: t, e => if x = e then t else x :: dropFirst t e

/-- In conflict the device sends nothing but HELLO (R478). -/
def mayIssue (c : List Byte) (s : State) : Bool := !s.on SNK_ADDR_conflict || decide (cType c = 0)

/-- A link that sends no crate takes its next one, whose first byte leaves now with its stamp (R481, R485); what a conflict bars stays
queued (R478). -/
def linkTake (l : Nat) (s : State) : State :=
  let k := snkLink l s
  if k.cur.isSome ∨ !linkRuns l s then s
  else match pickNext (k.q.filter fun e => mayIssue e.bytes s) with
    | none => s
    | some e =>
      updLink l (fun k => { k with q := dropFirst k.q e, cur := some { e with bytes := stamp s.bandTime e.bytes }, pos := 0 }) s

/-- An idle FAB port starts its next crate at once; an overhead channel's waits for its block. -/
def linkStart (l : Nat) (s : State) : State := if l < 8 then s else linkTake l s

/-- The remote access ends (R487). -/
def rraEnd (c : Code) (s : State) : State :=
  let s := updSnk (fun k => { k with rra := none }) ((s.set SNK_RRA_RESULT_outcome c.n).set SNK_RRA_RESULT_busy 0)
  snkEvt 5 s

/-- A send slot's command ends. -/
def slotEnd (t : Nat) (c : Code) (reason : Nat) (s : State) : State :=
  ((s.set (SNK_TX_RESULT_outcome t) c.n).set (SNK_TX_RESULT_busy t) 0).set (SNK_TX_RESULT_reason t) reason

/-- A drop is counted. -/
def countDrop (cls : Nat) (s : State) : State := (s.addSat (SNK_DROP_count cls) 1).flagLimited SNK_EVT_drop 484 msTicks

/-- A queued crate is dropped. -/
def entDrop (e : QEnt) (s : State) : State :=
  let s := countDrop e.cls s
  match e.own with
  | some t =>
    if t < 8 then (if s.on (SNK_TX_RESULT_busy t) then slotEnd t .aborted 1 s else s)
    else if t = 8 then (if s.snk.rra.isSome then rraEnd .aborted s else s)
    else updSnk (fun k => { k with after := none }) s
  | none => s

/-- What the link's queue holds, the crate that is leaving included. -/
def queueUsed (k : SnkLink) : Nat :=
  (k.q.map fun e => occ e.bytes).sum + (match k.cur with | some e => occ e.bytes | none => 0)

/-- Crates of lower classes are dropped until `need` bytes fit: the lowest class first, the newest first. -/
def makeRoom (l need cls : Nat) : Nat → State → State
  | 0, s => s
  | f + 1, s =>
    let k := snkLink l s
    if queueUsed k + need ≤ 4096 then s
    else
      let low := (List.range 4).reverse.findSome? fun c =>
        if cls < c then k.q.reverse.find? fun e => decide (e.cls = c) else none
      match low with
      | none => s
      | some e =>
        let q := (dropFirst k.q.reverse e).reverse
        makeRoom l need cls f (entDrop e (updLink l (fun k => { k with q }) s))

/-- A crate arrives for link l's queue; whether it is queued. -/
def enqueue (l : Nat) (e : QEnt) (s : State) : State × Bool :=
  if !mayIssue e.bytes s then (s, false)
  else
    let need := occ e.bytes
    let s := makeRoom l need e.cls 600 s
    if queueUsed (snkLink l s) + need ≤ 4096 then
      (linkStart l (updLink l (fun k => { k with q := k.q ++ [e] }) s), true)
    else (countDrop e.cls s, false)

/-- The crate goes to link l, if it fits. -/
def push (l : Nat) (c : List Byte) (s : State) : State := (enqueue l { bytes := c, cls := cCls c } s).1

/-- A crate of the device's own: src, the next sequence number of its kind. -/
def originate (c : List Byte) (s : State) : State × List Byte :=
  if cBcast c then
    let n := (s.snk.bseq + 1) % 256
    (updSnk (fun k => { k with bseq := n }) s, cFrom (ownAddr s) n c)
  else
    let n := (s.snk.seq + 1) % 256
    (updSnk (fun k => { k with seq := n }) s, cFrom (ownAddr s) n c)

/-- The code groups of a crate on a FAB port, a control code group marked true: /S/, its bytes with the CRC-32, /T/. -/
def fabSend (c : List Byte) : List (Bool × Byte) :=
  (true, 0xFB) :: ((c ++ leBytes 4 (crc32 c)).map fun b => (false, b)) ++ [(true, 0xFD)]

/-- The last byte of the crate that link l sends has left; the next one starts. -/
def linkSent (l : Nat) (s : State) : State :=
  match (snkLink l s).cur with
  | none => s
  | some e =>
    let s := updLink l (fun k => { k with cur := none, pos := 0 }) s
    let s := if l < 8 then s
      else updSnk (fun k => { k with fabRd := upd k.fabRd (l - 8) fun rd => (codeGroups (fabSend e.bytes) rd).2 }) s
    let s := match e.own with
      | some t =>
        let more := s.snk.links.any fun k => (k.q.any fun x => decide (x.own = some t)) ||
          (match k.cur with | some x => decide (x.own = some t) | none => false)
        if t < 8 ∧ !more ∧ s.on (SNK_TX_RESULT_busy t) then slotEnd t .done 0 s else s
      | none => s
    linkStart l s

/-- Whether the last byte of link l's crate can have left: on an overhead channel its frames have been sent. -/
def canEnd (l : Nat) (s : State) : Bool :=
  match (snkLink l s).cur with
  | none => false
  | some e => !snkHeld s && (decide (8 ≤ l) || decide (e.bytes.length + 4 ≤ (snkLink l s).pos))

/-! ## Line frames (R112, R114) -/

/-- The crate bytes of the next overhead block of lane n: up to 16 bytes, whether there are any, whether a crate starts. -/
def crateBlock (n : Nat) (s : State) : State × List Byte × Bool × Bool :=
  let none' := (s, List.replicate 16 (0 : Byte), false, false)
  if !linkRuns n s ∨ snkHeld s then none'
  else
    let s := linkTake n s
    let k := snkLink n s
    match k.cur with
    | none => none'
    | some e =>
      let part := ((e.bytes ++ leBytes 4 (crc32 e.bytes)).drop k.pos).take 16
      if part.isEmpty then none'
      else (updLink n (fun k => { k with pos := k.pos + 16 }) s, part ++ List.replicate (16 - part.length) 0, true, decide (k.pos = 0))

/-- The host group of an Ethernet-mapped lane is READY and aligned, so that its stream fills the frames (R146, R500). -/
def groupReady (n : Nat) (s : State) : Bool :=
  match laneGroup n s with
  | some (h, g) =>
    s.on (HOST_STATUS_grp_aligned h) && (List.range g).all fun j => decide (s.get (HOST_STATUS_state (h + j)) = 4)
  | none => false

/-- The host side of lane n gives the bits of a frame's payload, while its group is READY and aligned (R146): those that its decoder
has handed over (R147), then `more` for those that it has not (log 149). -/
def hostTake (n more : Nat) (s : State) : Option Nat × State :=
  match laneGroup n s with
  | some (h, _) =>
    if groupReady n s then
      let x := nth s.host h
      let k := hostBits n s
      (some (x.out + 2 ^ x.outLen * more),
        { s with host := upd s.host h (fun x => { x with out := x.out / 2 ^ k, outLen := x.outLen - k }) })
    else (none, s)
  | none => (none, s)

/-- Symbol i that lane n sends in a compatibility mode, which has no line frame: the standard's inner code and mapping over the host's
stream as handed over so far, or over local-fault signalling (R119 to R121, R146). -/
def compatSym (n i : Nat) (s : State) : Nat :=
  match laneGroup n s with
  | some (h, _) => Config.innerSymbol (if groupReady n s then (nth s.host h).out else Config.localFault true) i % 4
  | none => 0

/-- TX_FRAME_START, while TXPLL runs: the next frame number, and a frame on every native lane that is up. -/
def txFrameStart (host : List Nat) (s : State) : State :=
  if !txRuns s then s
  else
    let s := { s with frameNo := (s.frameNo + 1) % 65536 }
    forN 8 (fun n s =>
      if s.on (FRM_LANE_CTRL_up n) ∧ s.get (FRM_LANE_CTRL_mode n) = 0 ∧ !blkHeld 16 s then
        let r := crateBlock n s
        let p := hostTake n (nth host n) r.1
        laneFrame n p.1 r.2.2.1 r.2.2.2 r.2.1 p.2
      else s) s

/-! ## The FAB ports (R472) -/

/-- What FAB port p sends now: those of its crate, or an /I/ pair; none is a differential zero (R408, R472, R494). -/
def fabLine (p : Nat) (s : State) : Option (List (Bool × Byte)) :=
  if snkHeld s || decide (s.get SNK_LINK_EN_en / 2 ^ (8 + p) % 2 = 0) then none
  else some (match (snkLink (8 + p) s).cur with
    | some e => fabSend e.bytes
    | none => [(true, 0xBC), (false, 0x50)])

/-- The code groups, 10 bits each, that FAB port p sends now, by its running disparity. -/
def fabGroups (p : Nat) (s : State) : Option (List Nat) := (fabLine p s).map fun l => (codeGroups l (nth s.snk.fabRd p)).1

/-! ## Hellos (R476) -/

/-- A HELLO on link l, while it runs. -/
def sendHello (l : Nat) (s : State) : State :=
  if !linkRuns l s then s
  else
    let k := snkLink l s
    let id := (List.range 8).foldl (fun b j => b ++ leBytes 4 (s.rd (OWN_ID j)).toNat) []
    let nbr := s.get (SNK_LINK_STAT_nbr l) + 32768 * k.heard.toNat
    let body := id ++ [BitVec.ofNat 8 (s.get SNK_ADDR_mode + 2 * s.get SNK_PAIR_CTRL_en)] ++ leBytes 2 nbr ++ [BitVec.ofNat 8 l]
    let r := originate (mkCrate 0 2 0 1 body) s
    push l r.2 r.1

def sendHellos (s : State) : State := forN 10 sendHello s

/-- Link l changes to a state, with LINK_CHG and a HELLO. -/
def setLink (l t : Nat) (s : State) : State :=
  if s.get (SNK_LINK_STAT_state l) = t then s
  else if t = 0 then sendHello l (linkDown l s)
  else sendHello l (snkEvt 0 (s.set (SNK_LINK_STAT_state l) t))

/-! ## Addresses (R477, R478) -/

/-- Candidate k. -/
def candidate (k : Nat) (s : State) : Nat :=
  if k ≤ 20 then devNum s / 2 ^ (12 * k) % 4096 else (devNum s % 4096 + (k - 20)) % 4096

/-- The auto device takes its next candidate. -/
def nextCandidate (s : State) : State :=
  let k := (s.get SNK_ADDR_probe + 1) % 65536
  sendHellos (snkEvt 1 ((s.set SNK_ADDR_probe k).set SNK_ADDR_addr (candidate k s)))

/-- A HELLO or LSA: the sender's address against the device's own. -/
def collide (c : List Byte) (s : State) : State :=
  let id := leVal ((c.drop 8).take 32)
  let fixed := decide (cb c 40 % 2 = 1)
  let mine := s.on SNK_ADDR_mode
  if cSrc c ≠ ownAddr s ∨ id = devNum s then s
  else if mine ∧ fixed then snkEvt 2 (s.set SNK_ADDR_conflict 1)
  else if !mine ∧ (fixed ∨ id < devNum s) then nextCandidate s
  else s

/-- A HELLO arrives on link l. -/
def helloIn (l : Nat) (c : List Byte) (s : State) : State :=
  let src := cSrc c
  let k := snkLink l s
  let change := decide (s.get (SNK_LINK_STAT_state l) ≠ 0) && k.heard && decide (s.get (SNK_LINK_STAT_nbr l) ≠ src)
  let s := updLink l (fun k => { k with id := some (leVal ((c.drop 8).take 32)), heard := true }) s
  let s := s.set (SNK_LINK_STAT_nbr l) src
  let named := cb c 41 + 256 * cb c 42
  let s := if change then setLink l 0 s
    else setLink l (if named = ownAddr s + 32768 then 2 else 1) s
  collide c s

/-- A write of SNK_ADDR: an address that it changes becomes fixed; mode written 0 returns to the candidate. -/
def wrSnkAddr (w : Word) (s : State) : State :=
  let a := wf w SNK_ADDR_addr
  let s := if s.chg w SNK_ADDR_addr then
      sendHellos (((s.set SNK_ADDR_addr a).set SNK_ADDR_mode 1).set SNK_ADDR_conflict 0)
    else if s.chg w SNK_ADDR_mode then
      if wf w SNK_ADDR_mode = 1 then s.set SNK_ADDR_mode 1
      else
        let t := candidate (s.get SNK_ADDR_probe) s
        let u := ((s.set SNK_ADDR_mode 0).set SNK_ADDR_conflict 0).set SNK_ADDR_addr t
        if t = a then u else sendHellos u
    else s
  s.ret .done

/-! ## Receiving (R475, R479, R480, R484) -/

/-- A receive ring takes a crate, whose first byte began to arrive `age` band-clock periods ago (R484, R485). -/
def ringIn (l : Nat) (c : List Byte) (age : Nat) (s : State) : State :=
  let k := cCls c
  let size := 2 ^ s.get (SNK_RXR_CTRL_size_log k)
  let head := s.get (SNK_RXR_CTRL_head k)
  let tail := s.get (SNK_RXR_CTRL_tail k)
  if !s.on (SNK_RXR_CTRL_en k) ∨ (head + 1) % size = tail % size then s.addSat (SNK_DROP_count k) 1
  else
    let a := (s.rd (SNK_RXR_BASE k)).toNat + 512 * (head % size)
    let bytes := leBytes 8 ((s.bandTime + 2 ^ 64 - age % 2 ^ 64) % 2 ^ 64) ++ [BitVec.ofNat 8 l] ++ List.replicate 7 0 ++ c ++ leBytes 4 (crc32 c)
    let s := if inSram a 512 then sramPut a bytes s else s
    let s := s.set (SNK_RXR_CTRL_head k) ((head + 1) % size)
    if head % size = tail % size then snkEvt 3 s else s

/-- A reply of the remote access (R487). -/
def rreplyIn (c : List Byte) (s : State) : State :=
  match s.snk.rra with
  | some (seq, dst, read) =>
    if cSeq c = seq ∧ cSrc c = dst then
      let n := (cLen c - 4) / 4
      let s := if read then forN (min n 32) (fun j s => s.wr (SNK_RRA_DATA j) (wordAt c (12 + 4 * j))) s else s
      let s := (s.set SNK_RRA_RESULT_index (cb c 9)).set SNK_RRA_RESULT_stale (cb c 10 % 2)
      rraEnd (Code.read (cb c 8)) s
    else s.addSat SNK_DISC_late 1
  | none => s.addSat SNK_DISC_late 1

/-- A crate is sent towards its dst by the routing table. -/
def routeTo (c : List Byte) (own : Option Nat) (s : State) : State × Code :=
  let l := s.get (SNK_ROUTE_link (cDst c))
  if l < 10 ∧ linkUp l s then
    let r := enqueue l { bytes := c, cls := cCls c, own } s
    (r.1, if r.2 then .held else .capacity)
  else (s, .notReady)

/-- A crate of the device's own that no command waits for. -/
def issue (c : List Byte) (s : State) : State := (routeTo c none s).1

/-- The reply to a request. -/
def replyTo (req : List Byte) (code : Code) (index : Nat) (stale : Bool) (data : List Byte) (s : State) : List Byte :=
  let head := [code.n, index, stale.toNat, 0].map (BitVec.ofNat 8)
  let c := cFrom (ownAddr s) (cSeq req) (mkCrate 4 2 (cSrc req) (s.get SNK_CFG_ttl_def) (head ++ data))
  if stale then cSet c 1 (cb c 1 + 4) else c

/-- A request for the remote-access engine: four wait behind the one served (R486). -/
def requestIn (c : List Byte) (s : State) : State :=
  if 5 ≤ s.snk.reqs.length then issue (replyTo c .capacity 0 false [] s) s
  else updSnk (fun k => { k with reqs := k.reqs ++ [c] }) s

/-! ## The pair (R489 to R493) -/

/-- STANDBY to ACTIVE with SWITCHOVER. -/
def takeOver (s : State) : State :=
  let s := if s.snk.yieldW = 2 then s.set SNK_PAIR_STAT_outcome Code.timeout.n else s
  let s := updSnk (fun k => { k with yieldW := 0 }) s
  snkEvt 8 ((setRole 2 s).incMod SNK_PAIR_STAT_switches)

/-- Whether this device is preferred over the partner (`low`: by the lower DEV_ID, else by the greater), with the partner's DEV_ID
from its hellos; free while none has been heard. -/
def idCompare (l : Nat) (low : Bool) (s : State) : State × Bool :=
  match (snkLink l s).id with
  | some n => (s, if low then decide (devNum s < n) else decide (n < devNum s))
  | none => (s.freeNext, decide (s.freeVal 1 = 1))

/-- The roles after a heartbeat with the partner's role, preference, fault and yield bits. -/
def pairStep (l pRole pPref : Nat) (fault yield : Bool) (s : State) : State :=
  let pref := s.get SNK_PAIR_CTRL_pref
  match s.get SNK_PAIR_STAT_role with
  | 1 =>
    if pRole = 2 then setRole 3 s
    else if pRole = 1 then
      if pref ≠ pPref then setRole (if pref = 0 then 2 else 3) s
      else
        let r := idCompare l true s
        setRole (if r.2 then 2 else 3) r.1
    else s
  | 2 =>
    if pRole = 2 then
      if pref ≠ pPref then (if pref = 1 then setRole 3 s else s)
      else
        let r := idCompare l false s
        if r.2 then setRole 3 r.1 else r.1
    else pairFaultEval s
  | 3 =>
    let s := if s.snk.yieldW ≠ 0 ∧ pRole = 2 then
        updSnk (fun k => { k with yieldW := 0 }) (if s.snk.yieldW = 2 then s.set SNK_PAIR_STAT_outcome Code.done.n else s)
      else s
    if fault ∨ yield then takeOver s else s
  | _ => s

/-- A heartbeat of the partner arrives on FAB_0 or on the lane path. -/
def heartbeatIn (l : Nat) (c : List Byte) (s : State) : State :=
  let lane := s.on SNK_PAIR_CTRL_hb_lane_en && decide (l = s.get SNK_PAIR_CTRL_hb_lane)
  if !s.on SNK_PAIR_CTRL_en ∨ cSrc c ≠ s.get SNK_PAIR_CTRL_partner ∨ !(decide (l = 8) || lane) then s
  else
    let flags := cb c 9
    let s := s.set (if l = 8 then SNK_PAIR_STAT_fab_ok else SNK_PAIR_STAT_lane_ok) 1
    let s := (s.set SNK_PAIR_STAT_p_role (cb c 8)).set SNK_PAIR_STAT_p_ready (flags / 2)
    pairStep l (cb c 8 % 4) (cb c 10 % 2) (decide (flags % 2 = 1)) (decide (flags / 4 % 2 = 1)) s

/-- HEARTBEAT_TIMER: a heartbeat on FAB_0 and on the lane path. -/
def heartbeatOut (s : State) : State :=
  if !s.on SNK_PAIR_CTRL_en ∨ snkHeld s then s
  else
    let fault := pairFault s
    let flags := fault.toNat + 2 * (decide (s.get SNK_PAIR_STAT_role = 3) && !fault).toNat + 4 * (decide (s.snk.yieldW ≠ 0)).toNat
    let body := [s.get SNK_PAIR_STAT_role, flags, s.get SNK_PAIR_CTRL_pref, 0].map (BitVec.ofNat 8) ++ leBytes 4 s.snk.hb
    let s := updSnk (fun k => { k with hb := (k.hb + 1) % 2 ^ 32 }) s
    let send := fun (l : Nat) (s : State) => if linkRuns l s then
        let r := originate (mkCrate 6 0 (s.get SNK_PAIR_CTRL_partner) 1 body) s
        push l r.2 r.1
      else s
    let s := send 8 s
    if s.on SNK_PAIR_CTRL_hb_lane_en then send (s.get SNK_PAIR_CTRL_hb_lane) s else s

/-- PARTNER_LOST: no heartbeat on either path. -/
def partnerLost (s : State) : State :=
  if !s.on SNK_PAIR_CTRL_en ∨ snkHeld s then s
  else
    let s := ((s.set SNK_PAIR_STAT_fab_ok 0).set SNK_PAIR_STAT_lane_ok 0).set SNK_PAIR_STAT_p_ready 0
    if s.get SNK_PAIR_STAT_role = 3 then takeOver s else s

/-- PAIR_PATH_LOSS: heartbeats stop on one path (`lane` the lane path), the other goes on. -/
def pathLoss (lane : Bool) (s : State) : State :=
  let f := if lane then SNK_PAIR_STAT_lane_ok else SNK_PAIR_STAT_fab_ok
  let g := if lane then SNK_PAIR_STAT_fab_ok else SNK_PAIR_STAT_lane_ok
  if s.on SNK_PAIR_CTRL_en ∧ s.on f ∧ s.on g ∧ !snkHeld s then snkEvt 7 (s.set f 0) else s

/-- YIELD_TIMEOUT. -/
def yieldTimeout (s : State) : State :=
  if s.snk.yieldW ≠ 0 ∧ !snkHeld s then
    let s := if s.snk.yieldW = 2 then s.set SNK_PAIR_STAT_outcome Code.timeout.n else s
    setRole 2 (updSnk (fun k => { k with yieldW := 0 }) s)
  else s

/-- SOLO_TIMEOUT. -/
def soloTimeout (s : State) : State := if s.get SNK_PAIR_STAT_role = 1 ∧ !snkHeld s then setRole 2 s else s

/-- A write of SNK_PAIR_CMD. -/
def wrPairCmd (w : Word) (s : State) : State :=
  let fin := fun (c : Code) (s : State) => (s.set SNK_PAIR_STAT_outcome c.n).ret c
  if wf w SNK_PAIR_CMD_op ≠ 1 then s.ret .range
  else if s.get SNK_PAIR_STAT_role ≠ 2 then
    (if s.snk.yieldW = 2 then s.ret .state else fin .state s)
  else if !s.on SNK_PAIR_STAT_p_ready then fin .notReady s
  else fin .held (pairYield 2 (s.store SNK_PAIR_CMD SNK_PAIR_CMD_fs w))

/-- A write of SNK_PAIR_CTRL. -/
def wrPairCtrl (w : Word) (s : State) : State :=
  let en := decide (wf w SNK_PAIR_CTRL_en = 1)
  let was := s.on SNK_PAIR_CTRL_en
  let fixed := s.chg w SNK_PAIR_CTRL_partner || s.chg w SNK_PAIR_CTRL_pref || s.chg w SNK_PAIR_CTRL_hb_lane ||
    s.chg w SNK_PAIR_CTRL_pair_lanes
  if (en && !was && !s.on SNK_ADDR_mode) || (was && fixed) || (was && !en && decide (s.get SNK_PAIR_STAT_role = 3)) then s.ret .state
  else
    let s := s.store SNK_PAIR_CTRL SNK_PAIR_CTRL_fs w
    let s := if en && !was then setRole 1 s
      else if was && !en then
        setRole 0 (((s.set SNK_PAIR_STAT_fab_ok 0).set SNK_PAIR_STAT_lane_ok 0).set SNK_PAIR_STAT_p_ready 0)
      else s
    s.ret .done

/-! ## Delivery -/

/-- A crate delivered locally, by its type (R474). -/
def deliver (l : Nat) (c : List Byte) (age : Nat) (s : State) : State :=
  match cType c with
  | 2 | 3 => requestIn c s
  | 4 => rreplyIn c s
  | _ => ringIn l c age s

/-- The last sequence accepted from an address. -/
def lastSeq (a : Nat) (s : State) : Nat := (natFind s.snk.last a).getD 0

/-- A flooded crate (R480). -/
def floodIn (l : Nat) (c : List Byte) (age : Nat) (s : State) : State :=
  let d := (cSeq c + 256 - lastSeq (cSrc c) s) % 256
  if d = 0 ∨ 127 < d then s
  else
    let s := deliver l c age (updSnk (fun k => { k with last := natInsert k.last (cSrc c) (cSeq c) }) s)
    if cTtl c ≤ 1 then s
    else forN 10 (fun j s => if j ≠ l ∧ linkUp j s then push j (cSet c 6 (cTtl c - 1)) s else s) s

/-- A unicast crate (R479). -/
def unicastIn (l : Nat) (c : List Byte) (age : Nat) (s : State) : State :=
  if cDst c = ownAddr s then deliver l c age s
  else if cTtl c ≤ 1 then s.addSat SNK_DISC_ttl 1
  else
    let r := routeTo (cSet c 6 (cTtl c - 1)) none s
    if r.2 = .notReady then r.1.addSat SNK_DISC_unroutable 1 else r.1

/-- A crate with its CRC-32 arrives on link l; every LSA is compared, wherever it goes (R478). -/
def crateIn (l : Nat) (all : List Byte) (age : Nat) (s : State) : State :=
  let c := all.take (all.length - 4)
  if snkHeld s ∨ !linkRuns l s ∨ (l < 8 ∧ (nth s.frm l).spoiled) then s
  else if all.length < 12 ∨ !hdrOk c ∨ c.length ≠ 8 + cLen c ∨ leVal (all.drop (all.length - 4)) ≠ crc32 c then
    s.addSat SNK_DISC_malformed 1
  else match cType c with
    | 0 => helloIn l c s
    | 6 => heartbeatIn l c s
    | _ =>
      let s := if cType c = 1 then collide c s else s
      if cBcast c then floodIn l c age s else unicastIn l c age s

/-- The type and the broadcast bit of a crate as it arrives. -/
def arrives (ty : Nat) (all : List Byte) : Bool := decide (cType all = ty)

/-! ## Local sending (R483) -/

/-- The command of a send slot ends or is HELD at once. -/
def slotNow (t : Nat) (c : Code) (s : State) : State := (slotEnd t c 0 s).ret c

/-- A flood: a copy on every link that is UP. -/
def floodOut (c : List Byte) (own : Option Nat) (s : State) : State × Code :=
  let up := (List.range 10).filter fun l => linkUp l s
  if up.isEmpty then (s, .notReady)
  else
    let r := up.foldl (fun (x : State × Bool) l =>
      let y := enqueue l { bytes := c, cls := cCls c, own } x.1
      (y.1, x.2 || y.2)) (s, false)
    (r.1, if r.2 then .held else .capacity)

/-- A crate that was not sent has taken no sequence number; what R482 dropped for it stays dropped and counted (R15, R482). -/
def sameSeq (s t : State) : State := updSnk (fun k => { k with seq := s.snk.seq, bseq := s.snk.bseq }) t

/-- The words of the crate at `a` are read: its header, and as much as its length says (R340, R346). -/
def slotFetch (a : Nat) (s : State) : State × Code :=
  let s := retireRange a (a + 8) s
  unitRead a (8 + cLen (s.bytes a 8)) s

/-- A write of SNK_TX_CMD: the link is stored where the crate is queued (R15). -/
def wrSnkTx (t : Nat) (w : Word) (s : State) : State :=
  let l := wf w (SNK_TX_CMD_link t)
  let a := (s.rd (SNK_TX_ADDR t)).toNat
  if 10 ≤ l ∧ l ≤ 14 then (if wf w (SNK_TX_CMD_go t) = 0 ∨ s.on (SNK_TX_RESULT_busy t) then s.ret .range else slotNow t .range s)
  else if wf w (SNK_TX_CMD_go t) = 0 then plainWrite (SNK_TX_CMD t) SNK_TX_CMD_fs w s
  else if s.on (SNK_TX_RESULT_busy t) then s.ret .state
  else if a % 8 ≠ 0 then slotNow t .align s
  else
    let r := slotFetch a s
    let s := r.1
    let h := s.bytes a 8
    let c := s.bytes a (8 + cLen h)
    if !inSram a (8 + cLen h) then slotNow t .range s
    else if r.2 ≠ .done then slotNow t r.2 s
    else if !hdrOk h ∨ !mayIssue h s then slotNow t .range s
    else
      let c := if cTtl c = 0 then cSet c 6 (s.get SNK_CFG_ttl_def) else c
      let o := originate c s
      let r := if l < 10 then
          if linkUp l o.1 then
            let e := enqueue l { bytes := o.2, cls := cCls c, own := some t } o.1
            (e.1, if e.2 then Code.held else .capacity)
          else (o.1, .notReady)
        else if cBcast c then floodOut o.2 (some t) o.1
        else routeTo o.2 (some t) o.1
      if r.2 = .held then
        let s := ((r.1.store (SNK_TX_CMD t) SNK_TX_CMD_fs w).set (SNK_TX_RESULT_outcome t) Code.held.n).set (SNK_TX_RESULT_reason t) 0
        (s.set (SNK_TX_RESULT_busy t) 1).ret .held
      else slotNow t r.2 (sameSeq s r.1)

/-! ## Remote access (R487) -/

/-- A write of SNK_RRA_CTRL: its fields are stored where the request is queued (R15). One that does not leave ends REFUSED_NOT_READY, or
ABORTED where the queue drops it (R487, log 176). -/
def wrRraCtrl (w : Word) (s : State) : State :=
  let op := wf w SNK_RRA_CTRL_op
  if op = 0 ∨ op = 3 then s.ret .range
  else if wf w SNK_RRA_CTRL_go = 0 then plainWrite SNK_RRA_CTRL SNK_RRA_CTRL_fs w s
  else if s.on SNK_RRA_RESULT_busy then s.ret .state
  else
    let old := s
    let s := s.store SNK_RRA_CTRL SNK_RRA_CTRL_fs w
    let n := s.get SNK_RRA_CTRL_count + 1
    let data := if op = 2 then (List.range n).foldl (fun b j => b ++ leBytes 4 (s.rd (SNK_RRA_DATA j)).toNat) [] else []
    let body := leBytes 4 (s.rd SNK_RRA_ADDR).toNat ++ [BitVec.ofNat 8 n, 0, 0, 0] ++ data
    let dst := s.get SNK_RRA_CTRL_dst
    let o := originate (mkCrate (if op = 1 then 2 else 3) 2 dst (s.get SNK_CFG_ttl_def) body) s
    let r := routeTo o.2 (some 8) o.1
    if r.2 = .held then
      let s := updSnk (fun k => { k with rra := some (k.seq, dst, decide (op = 1)) }) r.1
      ((s.set SNK_RRA_RESULT_outcome Code.held.n).set SNK_RRA_RESULT_busy 1).ret .held
    else
      let c := if r.2 = .capacity then (if s.on SNK_ADDR_conflict then Code.notReady else .aborted) else r.2
      (rraEnd c (sameSeq s (r.1.wr SNK_RRA_CTRL (old.rd SNK_RRA_CTRL)))).ret c

/-- RRA_TIMEOUT. -/
def rraTimeout (s : State) : State := if s.snk.rra.isSome ∧ !snkHeld s then rraEnd .timeout s else s

/-! ## Other registers -/

/-- SNK_CFG. -/
def wrSnkCfg (w : Word) (s : State) : State :=
  let d := wf w SNK_CFG_dead_ms
  if d < 150 ∨ 1000 < d ∨ wf w SNK_CFG_rra_ms = 0 ∨ wf w SNK_CFG_ttl_def = 0 then s.ret .range
  else plainWrite SNK_CFG SNK_CFG_fs w s

/-- SNK_LINK_EN: a link that no longer carries crates is DOWN; one that does starts on its queue. -/
def wrLinkEn (w : Word) (s : State) : State :=
  let old := s.get SNK_LINK_EN_en
  let s := s.store SNK_LINK_EN SNK_LINK_EN_fs w
  let s := forN 10 (fun l s =>
    if old / 2 ^ l % 2 = s.get SNK_LINK_EN_en / 2 ^ l % 2 then s
    else if old / 2 ^ l % 2 = 1 then linkDown l s else linkStart l s) s
  s.ret .done

/-- SNK_RXR_BASE and SNK_RXR_CTRL. -/
def wrRxrBase (c : Nat) (w : Word) (s : State) : State :=
  if w.toNat % 512 ≠ 0 then s.ret .align else plainWrite (SNK_RXR_BASE c) SNK_RXR_BASE_fs w s

def wrRxrCtrl (c : Nat) (w : Word) (s : State) : State :=
  let n := wf w (SNK_RXR_CTRL_size_log c)
  if n = 0 ∨ 10 < n then s.ret .range else plainWrite (SNK_RXR_CTRL c) SNK_RXR_CTRL_fs w s

/-- SNK_PAIR_TIM. -/
def wrPairTim (w : Word) (s : State) : State :=
  let h := wf w SNK_PAIR_TIM_hb_us
  if h < 2 ∨ 100 < h ∨ wf w SNK_PAIR_TIM_hb_miss < 2 ∨ wf w SNK_PAIR_TIM_solo_ms = 0 then s.ret .range
  else plainWrite SNK_PAIR_TIM SNK_PAIR_TIM_fs w s

/-- SNK_ROUTE_a. -/
def wrRoute4 (a : Nat) (w : Word) (s : State) : State :=
  let l := wf w (SNK_ROUTE_link a)
  if 10 ≤ l ∧ l ≤ 14 then s.ret .range else plainWrite (SNK_ROUTE a) SNK_ROUTE_fs w s

/-- LINK_PHY_CHANGE: the code groups that a FAB port has received since, which may gain or lose it its synchronisation (R472); a lane's
framer has changed. -/
def phyChange (l : Nat) (groups : List (BitVec 10)) (s : State) : State :=
  if snkHeld s then s
  else
    let s := if l < 8 then s else updSnk (fun k => { k with fab := upd k.fab (l - 8) fun r => groups.foldl syncGroup r }) s
    if linkRuns l s then linkStart l s else linkDown l s

/-! ## Resets (R494) -/

/-- The role after a release: SOLO with closed gates where the pair is enabled (R492, R494). -/
def pairRelease (s : State) : State := if s.on SNK_PAIR_CTRL_en ∧ s.get SNK_PAIR_STAT_role = 0 then setRole 1 s else s

/-- SNK's registers after a block reset, a command or a watchdog reset (`full` false), or after a reset that loads the pair record. -/
def resetSnk (full : Bool) (s : State) : State :=
  let ctrl := s.rd SNK_PAIR_CTRL
  let tim := s.rd SNK_PAIR_TIM
  let mode := s.get SNK_ADDR_mode
  let addr := s.get SNK_ADDR_addr
  let fab := s.snk.fab
  let s := { s.dropRange SNK_EVT (SNK_EVT + 0x8000) with snk := { fab } }
  if full then s
  else
    let s := (s.wr SNK_PAIR_CTRL ctrl).wr SNK_PAIR_TIM tim
    if mode = 1 then (s.set SNK_ADDR_mode 1).set SNK_ADDR_addr addr else s.set SNK_ADDR_addr (candidate 0 s)

/-- The attic's pair record, or candidate 0 where it does not enable the pair. -/
def atticPair (p : Option PairRec) (s : State) : State :=
  match p with
  | some r =>
    let s := (s.set SNK_ADDR_addr r.addr).set SNK_ADDR_mode 1
    let s := ((s.set SNK_PAIR_CTRL_en 1).set SNK_PAIR_CTRL_pref r.pref).set SNK_PAIR_CTRL_partner r.partner
    let s := (s.set SNK_PAIR_CTRL_hb_lane r.hbLane).set SNK_PAIR_CTRL_hb_lane_en r.hbLaneEn
    pairRelease (s.set SNK_PAIR_CTRL_pair_lanes r.lanes)
  | none => s.set SNK_ADDR_addr (candidate 0 s)

/-! ## Meanings -/

def execHelloTimer (s : State) : Out := .next (if snkHeld s then s else sendHellos s)
def execHelloRx (l : Fin 10) (c : List Byte) (s : State) : Out := .next (if arrives 0 c then crateIn l c 0 s else s)

def execLinkDeadTimeout (l : Fin 10) (s : State) : Out :=
  .next (if snkHeld s then s else setLink l 0 s)

def execLinkPhyChange (l : Fin 10) (groups : List (BitVec 10)) (s : State) : Out := .next (phyChange l groups s)
def execCrateRxUnicast (l : Fin 10) (c : List Byte) (age : Nat) (s : State) : Out := .next (if cBcast c then s else crateIn l c age s)
def execCrateRxBroadcast (l : Fin 10) (c : List Byte) (age : Nat) (s : State) : Out := .next (if cBcast c then crateIn l c age s else s)

def execCrateSend (q : Rq) (t : Fin 8) (w : Word) (s : State) : Out :=
  let w := force w (SNK_TX_CMD_go t) 1
  .next (gated q (SNK_TX_CMD t) SNK_TX_CMD_fs w (wrSnkTx t w) s)

def execRraRead (q : Rq) (w : Word) (s : State) : Out :=
  let w := force (force w SNK_RRA_CTRL_go 1) SNK_RRA_CTRL_op 1
  .next (gated q SNK_RRA_CTRL SNK_RRA_CTRL_fs w (wrRraCtrl w) s)

def execRraWrite (q : Rq) (w : Word) (s : State) : Out :=
  let w := force (force w SNK_RRA_CTRL_go 1) SNK_RRA_CTRL_op 2
  .next (gated q SNK_RRA_CTRL SNK_RRA_CTRL_fs w (wrRraCtrl w) s)

def execRreplyRx (l : Fin 10) (c : List Byte) (s : State) : Out := .next (if arrives 4 c then crateIn l c 0 s else s)
def execRraTimeout (s : State) : Out := .next (rraTimeout s)

def execSnkAddrWrite (q : Rq) (w : Word) (s : State) : Out :=
  .next (gated q SNK_ADDR SNK_ADDR_fs w (wrSnkAddr w) s)

def execSnkDiscRead (q : Rq) (s : State) : Out := .next (gatedRead q SNK_DISC (clearRead SNK_DISC) s)
def execSnkDropRead (q : Rq) (c : Fin 4) (s : State) : Out := .next (gatedRead q (SNK_DROP c) (clearRead (SNK_DROP c)) s)

def execPairEnable (q : Rq) (w : Word) (s : State) : Out :=
  let w := force w SNK_PAIR_CTRL_en 1
  .next (gated q SNK_PAIR_CTRL SNK_PAIR_CTRL_fs w (wrPairCtrl w) s)

def execPairDisable (q : Rq) (w : Word) (s : State) : Out :=
  let w := force w SNK_PAIR_CTRL_en 0
  .next (gated q SNK_PAIR_CTRL SNK_PAIR_CTRL_fs w (wrPairCtrl w) s)

def execHeartbeatTimer (s : State) : Out := .next (heartbeatOut s)
def execHeartbeatRx (l : Fin 10) (c : List Byte) (s : State) : Out := .next (if arrives 6 c then crateIn l c 0 s else s)
def execPartnerLost (s : State) : Out := .next (partnerLost s)
def execPairPathLoss (lane : Bool) (s : State) : Out := .next (pathLoss lane s)

def execPairSwitch (q : Rq) (s : State) : Out :=
  let w := force 0 SNK_PAIR_CMD_op 1
  .next (gated q SNK_PAIR_CMD SNK_PAIR_CMD_fs w (wrPairCmd w) s)

def execYieldTimeout (s : State) : Out := .next (yieldTimeout s)
def execSoloTimeout (s : State) : Out := .next (soloTimeout s)

end Sys2Proof.Machine
end

