-- ==== Sys2Proof/Machine/Cel.lean ====
section
/-! DEFINITION. The sealed accounting cellar (chapter 19): taps, commits, records, log, and the window. -/

namespace Sys2Proof.Machine

def updCel (f : Cel → Cel) (s : State) : State := { s with cel := f s.cel }

/-- Event flag b of CEL_EVT; each raises event 509. -/
def celEvt (b : Nat) (s : State) : State := s.flag ⟨CEL_EVT, b, 1⟩ 509

/-- The cellar's state (R499): 0 ABSENT, 1 STARTING, 2 UNSEALED, 3 RUNNING, 4 FAULT. -/
def celState (s : State) : Nat := s.get CEL_STAT_state

def setCel (t : Nat) (s : State) : State := if celState s = t then s else celEvt 1 (s.set CEL_STAT_state t)

/-- Cellar seconds. -/
def celSec (s : State) : Nat := s.cel.t / (1000 * msTicks)

/-! ## Taps on the tick of 1,024 band-clock periods (R500, R501) -/

/-- Bits of a lane at 40,960 per 204.8 ns that end in the t-th nominal band-clock period: 625,000 / 3,072 each. -/
def djBits (t : Nat) : Nat := (t + 1) * 625000 / 3072 - t * 625000 / 3072

/-- A lane in an IEEE 802.3dj mode in a nominal period: what it receives while its host group is READY, and what it sends where the
transmit clock runs (R24, R500); none during a fence of FRM (R501). -/
def djLane (n : Nat) (s : State) : State :=
  match laneGroup n s with
  | some (h, g) =>
    if s.get (FRM_LANE_CTRL_mode n) ≠ 0 ∧ !blkHeld 16 s ∧ (List.range g).all fun j => decide (s.get (HOST_STATUS_state (h + j)) = 4) then
      let s := celRx (laneTenant n s) (djBits s.now) s
      if txRuns s then celTx (laneTenant n s) (djBits s.now) s else s
    else s
  | none => s

/-- The lanes in an IEEE 802.3dj mode in a nominal period, whatever the band clock does. -/
def djTick (s : State) : State := if celState s ≠ 3 then s else forN 8 djLane s

/-- A tick's counts of band time, but of a standby (R500, R501). -/
def celTick (s : State) : State :=
  if celState s ≠ 3 ∨ pairShut s then s
  else
    forN 128 (fun k s =>
      if 0 < (nth s.rpt k).a then
        celAdd (s.get (BND_POUT_tenant (outPort k s))) (fun x => { x with band := x.band + pathLoad k s }) s
      else s) s

/-- REPEATER_TICK: every path, then the cellar's counts. -/
def repeaterTickAll (s : State) : State := if bandRuns s then celTick (repeaterTick s) else s

/-- A line frame and the blocks in its cells, as the taps see them (R500, R501). -/
def celFrame (n : Nat) (s : State) : State :=
  if s.get (FRM_LANE_CTRL_map n) = 1 then (if groupReady n s then celTx (laneTenant n s) 81920 s else s)
  else
    if pairShut s then s
    else (nth s.frm n).cells.foldl (fun s c =>
      match ctrEntry false n c.1 s with
      | some w =>
        let src := wf w (BND_POUT_src 0)
        if src = 1 ∨ src = 2 then celTx (wf w (BND_POUT_tenant 0)) (blockBits (ctrFmt (ctrWord false n c.1 s))) s else s
      | none => s) s

/-- TX_FRAME_START with its tap. -/
def txFrames (host : List Nat) (s : State) : State :=
  let up := (List.range 8).filter fun n =>
    txRuns s && s.on (FRM_LANE_CTRL_up n) && decide (s.get (FRM_LANE_CTRL_mode n) = 0) && !blkHeld 16 s
  up.foldl (fun s n => celFrame n s) (txFrameStart host s)

/-! ## Log (R508, R509) -/

/-- An entry is written. -/
def logWrite (e : Nat × Nat × Nat) (s : State) : State :=
  let i := s.cel.logSeq % 256
  let bytes := leBytes 4 s.cel.logSeq ++ leBytes 6 e.2.2 ++ [BitVec.ofNat 8 e.1, BitVec.ofNat 8 e.2.1] ++ leBytes 4 0
  let log := (List.range 16).foldl (fun m j => memPut m (16 * i + j) (nth bytes j)) s.cel.log
  (updCel (fun c => { c with log, logSeq := c.logSeq + 1 }) s).set CEL_LOG_HEAD_next (i + 1)

/-- An entry of a type with its detail; while commits are deferred it waits. -/
def logPut (ty detail : Nat) (s : State) : State :=
  let e := (ty, detail, celSec s)
  if s.on CEL_STAT_deferred then updCel (fun c => { c with logWait := c.logWait ++ [e] }) s else logWrite e s

/-- CELLAR_TAMPER_CHANGE: an accepted level, and the changes that were not accepted before it. -/
def tamperChange (high : Bool) (glitches : Nat) (s : State) : State :=
  if celState s = 0 ∨ s.on CEL_STAT_tamper = high then s
  else
    let s := celEvt 3 (s.set CEL_STAT_tamper high.toNat)
    let s := updCel (fun c => { c with changes := c.changes + glitches, tampers := c.tampers + (high && c.sealed.isSome).toNat }) s
    let last := if high then s.cel.openAt else s.cel.closeAt
    let due := match last with
      | some t => decide (t + 10000 * msTicks ≤ s.cel.t)
      | none => true
    if due then
      let s := logPut (if high then 1 else 2) (min 255 s.cel.changes) s
      updCel (fun c => if high then { c with openAt := some c.t, changes := 0 } else { c with closeAt := some c.t, changes := 0 }) s
    else updCel (fun c => { c with changes := c.changes + 1 }) s

/-! ## Commits (R503 to R505) -/

/-- The whole accumulator state goes to the next slot. -/
def commitSlot (s : State) : State :=
  let c := s.cel
  let i := c.next
  let s := updCel (fun c => { c with
    slots := upd c.slots i fun _ => some ⟨c.seq + 1, c.tot, c.t⟩, seq := c.seq + 1, next := (i + 1) % 4 }) s
  s.set CEL_STAT_commits (s.get CEL_STAT_commits + 1)

/-- Sensor 8 is read. -/
def readTemp (t : Int) (s : State) : State := (s.seti CEL_TEMP_temp (satI 16 t)).set CEL_TEMP_valid 1

/-- A commit is deferred. -/
def commitDefer (s : State) : State :=
  let s := updCel (fun c => { c with defers := c.defers + 1, defIv := true }) s
  if s.on CEL_STAT_deferred then s else logPut 5 0 (celEvt 2 (s.set CEL_STAT_deferred 1))

/-- CELLAR_COMMIT with the reading of sensor 8 in 1/16 °C. -/
def celCommit (t : Int) (s : State) : State :=
  if celState s ≠ 3 then s
  else
    let s := readTemp t (updCel (fun c => { c with early := none }) s)
    if s.on CEL_STAT_deferred then
      if 32 ≤ t ∧ t ≤ 1728 then
        let s := celEvt 2 ((commitSlot s).set CEL_STAT_deferred 0)
        let w := s.cel.logWait
        logPut 6 0 (w.foldl (fun s e => logWrite e s) (updCel (fun c => { c with logWait := [] }) s))
      else commitDefer s
    else if t < 0 ∨ 1760 < t then commitDefer s
    else
      let i := s.cel.next
      updCel (fun c => { c with sched := some (i, c.t) }) (commitSlot s)

/-- A scheduled commit, which lasts up to 2 ms, may still be in progress as the supply falls; whether it is, is free (R503). It is
abandoned, and its slot is invalid. -/
def commitAbandon (s : State) : State :=
  match s.cel.sched with
  | some (i, t) =>
    let s := updCel (fun c => { c with sched := none }) s
    if s.cel.t < t + 2 * msTicks then
      let gone := decide (s.freeVal 1 = 1)
      let s := s.freeNext
      if gone then
        (updCel (fun c => { c with slots := upd c.slots i fun _ => none }) s).set CEL_STAT_commits (s.get CEL_STAT_commits + 2 ^ 16 - 1)
      else s
    else s
  | none => s

/-- CELLAR_SUPPLY_FALL: the early commit, in the next slot in rotation. -/
def supplyFall (t : Int) (s : State) : State :=
  if celState s ≠ 3 then s
  else
    let s := updCel (fun c => { c with early := none }) (commitAbandon (readTemp t s))
    if s.on CEL_STAT_deferred ∨ t < 0 ∨ 1760 < t then commitDefer s
    else
      let i := s.cel.next
      updCel (fun c => { c with early := some i }) (commitSlot s)

/-! ## Records (R506, R507) -/

/-- The band time as the tap delivers it: 0 while the band engine is fenced or without its clock (R501, R506). -/
def tapTime (s : State) : Nat := if bandRuns s && !bndHeld s then s.bandTime else 0

/-- The record body. -/
def recordBody (seq : Nat) (s : State) : List Byte :=
  let c := s.cel
  let sl := c.sealed.getD ⟨0, [], [], 0, 0, false⟩
  let flags := c.defIv.toNat + 2 * (s.on CEL_STAT_tamper).toNat + 4 * c.lossIv.toNat + 8 * c.empty.toNat
  let head := leBytes 4 0x4C454352 ++ leBytes 2 1 ++ leBytes 2 16 ++ leBytes 8 seq ++ leBytes 8 (celSec s) ++
    leBytes 8 (tapTime s) ++ c.prev.take 16 ++ leBytes 4 sl.crc ++ leBytes 2 (Config.cellarRom 0) ++
    [BitVec.ofNat 8 sl.interval, BitVec.ofNat 8 flags] ++ leBytes 4 c.defers ++ leBytes 2 c.tampers ++ leBytes 2 c.losses
  head ++ c.tot.foldl (fun b t => b ++ leBytes 8 (t.rx / 8000) ++ leBytes 8 (t.tx / 8000) ++ leBytes 6 (t.band / 9600) ++
    leBytes 6 (t.en / (1228800 * 2 ^ 30))) []

/-- Bytes of the record ring. -/
def ringPut (o : Nat) (bytes : List Byte) (s : State) : State :=
  let r := (List.range bytes.length).foldl (fun m i => memPut m (o + i) (nth bytes i)) s.cel.ring
  updCel (fun c => { c with ring := r }) s

/-- CELLAR_RECORD: the snapshot; the seal word of its slot reads 0. -/
def celRecord (s : State) : State :=
  if celState s ≠ 3 then s
  else
    let seq := s.cel.recNo + 1
    let body := recordBody seq s
    let s := ringPut (seq % 16 * 2048 + 0x7FC) (List.replicate 4 0) s
    updCel (fun c => { c with recNo := c.recNo + 1, snap := some (seq, body), defIv := false, lossIv := false, empty := false }) s

/-- CELLAR_RECORD_COMPLETE. -/
def celRecordDone (s : State) : State :=
  match s.cel.snap with
  | none => s
  | some (seq, body) =>
    if celState s ≠ 3 then s
    else
      let sig := (Config.cellarSign seq body).take 1280
      let slot := body.take 512 ++ leBytes 2 sig.length ++ leBytes 2 0 ++ (List.range (0x7FC - 0x204)).map (fun i => nth sig i) ++
        leBytes 4 seq
      let s := ringPut (seq % 16 * 2048) slot s
      let s := updCel (fun c => { c with snap := none, prev := Config.shake256 16 (body ++ sig), line := true }) s
      celEvt 0 (s.wr CEL_REC_HEAD (BitVec.ofNat 32 seq))

/-! ## Supply and seal (R497 to R499) -/

/-- CELLAR_POWER_ON. -/
def celPowerOn (s : State) : State :=
  if celState s ≠ 0 then s
  else
    let s := (s.set CEL_ID_ROM_VER_rom_ver (Config.cellarRom 0)).set CEL_ID_ROM_CRC_rom_crc (Config.cellarRom 1)
    let key := Config.shake256 32 ((List.range 1793).map Config.cellarKey)
    let s := forN 8 (fun j s => s.wr (CEL_ID_KEY_ID j) (wordAt key (4 * j))) s
    let s := match s.cel.sealed with
      | some k => (s.set CEL_ID_SEAL_CRC_seal_crc k.crc).set CEL_ID_INTERVAL_interval k.interval
      | none => s
    let s := s.set CEL_LOG_HEAD_next (s.cel.logSeq % 256)
    setCel 1 s

/-- The valid slot with the highest sequence number. -/
def newestSlot (l : List (Option CelSlot)) : Option CelSlot :=
  l.foldl (fun b x => match b, x with
    | none, x => x
    | b, none => b
    | some p, some q => if p.seq < q.seq then some q else some p) none

/-- CELLAR_START_DONE. -/
def celStarted (s : State) : State :=
  if celState s ≠ 1 then s
  else
    let early := s.cel.earlyOk
    let s := updCel (fun c => { c with earlyOk := false }) s
    match s.cel.sealed with
    | none => logPut 3 early.toNat (setCel 2 s)
    | some k =>
      if !k.ok then logPut 3 early.toNat (setCel 4 s)
      else match newestSlot s.cel.slots with
        | some g =>
          let i := (s.cel.slots.findIdx fun x => decide (x = some g)) + 1
          let s := updCel (fun c => { c with tot := g.tot, t := max c.t g.t, seq := g.seq, next := i % 4 }) s
          logPut 3 early.toNat (setCel 3 s)
        | none =>
          let s := updCel (fun c => { c with tot := List.replicate 16 {}, seq := 0, next := 0, empty := true }) s
          logPut 4 0 (logPut 3 early.toNat (setCel 3 s))

/-- CELLAR_POWER_LOSS: whether the hold-up of R505 was met. A commit that the loss interrupts leaves its slot invalid. -/
def celPowerLoss (met : Bool) (s : State) : State :=
  if celState s = 0 then s
  else
    let c := s.cel
    let slots := match c.early with
      | some i => if met then c.slots else upd c.slots i fun _ => none
      | none => c.slots
    let evt := s.rd CEL_EVT
    let s := updCel (fun c => { c with
      slots, early := none, earlyOk := met && c.early.isSome, tot := List.replicate 16 {}, t := 0, snap := none, ring := [],
      sram := [], logWait := [], openAt := none, closeAt := none, changes := 0, line := false, sched := none,
      losses := c.losses + c.sealed.isSome.toNat, lossIv := true }) s
    let s := cpuReset 13 ((s.dropRange CEL_STAT (CEL_STAT + 0x8000)).wr CEL_EVT evt)
    celEvt 1 (s.set (TH_SENS_valid 8) 0)

/-- CELLAR_SEAL: once; deferrals, tamper events and supply losses count from it (R506). -/
def celSeal (k : Seal) (s : State) : State :=
  if celState s = 0 ∨ s.cel.sealed.isSome then s
  else
    let s := updCel (fun c => { c with sealed := some k, defers := 0, tampers := 0, losses := 0 }) s
    (s.set CEL_ID_SEAL_CRC_seal_crc k.crc).set CEL_ID_INTERVAL_interval k.interval

/-! ## The window (R496, R510) -/

/-- The window's event flags and its DMA line reset with the control complex (R497). -/
def resetCelWin (s : State) : State := updCel (fun c => { c with line := false }) (s.wr CEL_EVT 0)

/-- A word of the window as it reads. -/
def celWord (a : Nat) (s : State) : Word :=
  let o := a - CEL_STAT
  let of4 := fun (f : Nat → Byte) => BitVec.ofNat 32 (leVal ((List.range 4).map f))
  if celState s = 0 then 0
  else if 0x8000 ≤ o then of4 fun i => memFind s.cel.ring (o - 0x8000 + i)
  else if 0x1000 ≤ o ∧ o < 0x2000 then of4 fun i => memFind s.cel.log (o - 0x1000 + i)
  else if 0x200 ≤ o ∧ o < 0x200 + 1796 then
    of4 fun i => if o - 0x200 + i < 1793 then Config.cellarKey (o - 0x200 + i) else 0
  else s.rd a

/-- A write to a word of the window. -/
def celWrite (q : Rq) (a : Nat) (w : Word) (s : State) : State :=
  if a = CEL_EVT then gated q CEL_EVT CEL_EVT_fs w (plainWrite CEL_EVT CEL_EVT_fs w) s
  else gated q a [] w (fun s => s.ret .state) s

/-! ## Meanings -/

def execRepeaterTick (s : State) : Out := .next (repeaterTickAll s)
def execTxFrameStart (host : List Nat) (s : State) : Out := .next (txFrames host s)
def execCellarPowerOn (s : State) : Out := .next (celPowerOn s)
def execCellarPowerLoss (met : Bool) (s : State) : Out := .next (celPowerLoss met s)
def execCellarStartDone (s : State) : Out := .next (celStarted s)

def execCellarSeal (interval : Nat) (eth scale : List Nat) (trim : Nat) (crc : Word) (ok : Bool) (s : State) : Out :=
  .next (celSeal ⟨interval, eth, scale, trim, crc.toNat, ok⟩ s)

def execCellarCommit (t : Int) (s : State) : Out := .next (celCommit t s)
def execCellarSupplyFall (t : Int) (s : State) : Out := .next (supplyFall t s)
def execCellarRecord (s : State) : Out := .next (celRecord s)
def execCellarRecordComplete (s : State) : Out := .next (celRecordDone s)
def execCelRecLineExpire (s : State) : Out := .next (updCel (fun c => { c with line := false }) s)
def execCellarTamperChange (high : Bool) (glitches : Nat) (s : State) : Out := .next (tamperChange high glitches s)
def execCellarWindowWrite (q : Rq) (o : Fin 65536) (w : Word) (s : State) : Out := .next (celWrite q (CEL_STAT + o) w s)

end Sys2Proof.Machine
end

