-- ==== Sys2Proof/Machine/Rst.lean ====
section
/-! DEFINITION. Resets, the attic load and start-up (chapter 14). -/

namespace Sys2Proof.Machine

def updRst (f : Rst → Rst) (s : State) : State := { s with rst := f s.rst }

/-- A reset with the reach of power-on reset is in force. -/
def fullHeld (s : State) : Bool := s.rst.por || s.rst.resetN || (s.rst.wide && s.rst.deep)

/-- Event flag b of CRP_RST_EVT. -/
def rstEvt (b : Nat) (s : State) : State := s.flag ⟨CRP_RST_EVT, b, 1⟩ (30 + b)

/-! ## Causes (R396, R397) -/

/-- A reset is in force that was applied in this very cycle (log 175). -/
def sameCycle (s : State) : Bool := decide (s.rst.causeAt = some s.now)

/-- Cause bits are set; in last-only mode those of other cycles are cleared. -/
def setCauses (bits : List Nat) (s : State) : State :=
  let s := if s.on RST_CAUSE_last_only && !sameCycle s then s.set ⟨RST_CAUSE, 0, 7⟩ 0 else s
  bits.foldl (fun s b => s.set ⟨RST_CAUSE, b, 1⟩ 1) (updRst (fun r => { r with causeAt := some s.now }) s)

/-- A write of RST_CAUSE: the first one sets mode_lock. -/
def wrRstCause (w : Word) (s : State) : State :=
  let v := mergeWord RST_CAUSE_fs (s.rd RST_CAUSE) w (s.on RST_CAUSE_mode_lock)
  ((s.wr RST_CAUSE v).set RST_CAUSE_mode_lock 1).ret .done

/-! ## What a reset does to a block (R390, R394) -/

/-- Line lane n (R53, R96). -/
def resetLane (n : Nat) (s : State) : State :=
  let s := framerLost n s
  resetDet n (resetConv n (s.dropRange (LANE_ADC_CTRL n) (LANE_ADC_CTRL n + 0x4000)))

/-- Framing: the framers leave ALIGNED, then R138. -/
def resetFraming (s : State) : State :=
  resetFrm (forN 8 (fun n s => if fstate n s = 0 then s else setFstate n 0 s) s)

/-- DMA (R358). -/
def resetDma (s : State) : State := { s.dropRange DMA_EVT (DMA_EVT + 0x2000) with dma := List.replicate 32 {} }

/-- A reset takes hold of block b; `own` for its own bit of CRP_BLK_RST. -/
def blockDown (own : Bool) (b : Nat) (s : State) : State :=
  if b < 8 then resetLane b s
  else if b < 16 then resetHost (b - 8) s
  else match b with
    | 16 => resetFraming s
    | 17 => resetBnd s
    | 18 => resetRpt s
    | 19 => resetLst s
    | 20 => resetFen s
    | 21 => resetDma s
    | 22 => resetSto s
    | 23 => resetSnk false s
    | 24 => measFence (resetHkc s)
    | 25 => resetPmc s
    | 26 => resetBst (if own then 3 else 2) s
    | _ => s

/-- Block b is released: what its pins and conditions show then. -/
def blockUp (b : Nat) (s : State) : State :=
  if blkHeld b s then s
  else if b < 8 then reduceEval b s
  else match b with
    | 16 => releaseFrm s
    | 18 => releaseRpt s
    | 23 => pairRelease s
    | _ => s

/-! ## Resets of SC's side (R390, R391) -/

/-- A LOAD in progress is cut off: its shelf stays unchecked and its contents are undefined. -/
def loadCut (s : State) : State :=
  match s.load with
  | some l => shelfLost l (setLoad none s)
  | none => s

/-- Cores 0 to 12; the cellar's window goes with the control complex (R497). -/
def resetCores (s : State) : State := forN 13 cpuReset (loadCut (resetCelWin s))

/-- Stop entry that has not reached step 3 is cancelled, but for a forced one; PWR_MODE.mode is 0. -/
def pwrCancel (s : State) : State :=
  let s := s.set PWR_MODE_mode 0
  if s.pwr.st = 1 ∧ !s.pwr.forced then updPwr (fun p => { p with st := 0 }) s else s

/-- What every reset of R390's table reaches: the radio side, DMA, storage, fabric, self-test, counters, cores, MEM, OWN, EVR. -/
def resetWide (s : State) : State :=
  let s := [26, 21, 22, 23, 20, 19, 18, 17, 25].foldl (fun s b => blockDown false b s) s
  let s := resetMem (resetOwn false true (resetCores s))
  resetEvr (resetClkout (pwrCancel (romQuiet (s.wr CRP_BOOT_STAT 0))))

/-- A reset with the reach of CMD is applied; where one is in force already only the cause is added (R392). -/
def wideReset (causes : List Nat) (s : State) : State :=
  let s := setCauses causes s
  if s.rst.wide || fullHeld s then s
  else resetWide (updRst (fun r => { r with wide := true, causeWd := wdRuns s && s.on EVR_WDOG_STAT_second,
                                            causeOwn := s.rd OWN_STAT }) s)

/-! ## Resets of the whole die (R389, R390, R399 to R403) -/

/-- The attic load in progress stops (R401). -/
def loadInterrupt (s : State) : State :=
  if s.rst.atticBusy then
    (updRst (fun r => { r with atticBusy := false }) (s.set RST_CAUSE_load_interrupted 1)).addSat CRP_ATTIC_STAT_restarts 1
  else s

/-- The registers of chapter 14 but RST_CAUSE; the count of interrupted loads stays. -/
def resetCrp (s : State) : State :=
  let n := s.get CRP_ATTIC_STAT_restarts
  (s.dropRange CRP_CMD_RESET (CRP_CMD_RESET + 0xFFC)).set CRP_ATTIC_STAT_restarts n

/-- Merge buffers empty, scrubbers at their first place, no lockstep mismatch, no stop. -/
def stillDie (s : State) : State :=
  { s with merge := List.replicate 15 [], scrubPos := List.replicate 15 0, scrubLast := List.replicate 15 none,
           scrubAgain := List.replicate 15 none, lockAt := none, stop := false }

/-- What POR, RESET_N (`full`) and a CLK_NOFOSC reset with that reach have in common (R390); that one alone keeps the refusal log, the
key RAM, fails and locked (R452, R470). -/
def resetDie (full : Bool) (s : State) : State :=
  let s := forN 8 (fun n s => forceOff n causeHold (blockDown false (8 + n) (blockDown false n s))) s
  let s := blockDown false 16 s
  let s := resetSnk true (resetFen (resetLst (resetRpt (resetBnd s))))
  let s := s.wr RPT_CEIL (resetWord RPT_CEIL)
  let s := resetSto (resetDma (resetBstFull (resetPmc s)))
  let s := resetGrd (resetHkc s)
  let s := forN 13 (updCpu · (fun k => { k with entryA := 0, entryB := 0, verA := 0, verB := 0 })) (forN 13 cpuReset (resetCelWin s))
  let s := resetOwn full (!full) (setLoad none s)
  let s := (resetMem s).set MEM_FILL_STAT_done 0
  let s := stillDie s
  resetEvr (resetClkout (pwrCancel (romQuiet (s.wr CRP_BOOT_STAT 0))))

/-- The registers that POR and RESET_N alone reach: of chapters 13 to 15, the block bits among them. -/
def resetFull (s : State) : State :=
  let s := portsFenced (updRst (fun r => { r with held := [], relReq := [], relDue := [] }) s)
  resetCrp (resetPwr (resetClk (resetDie true s)))

/-- A reset with that reach is applied. -/
def fullReset (cause : Nat) (hold : Rst → Rst) (s : State) : State :=
  let s := loadInterrupt (setCauses [cause] s)
  updRst (fun r => hold { r with released := false, atticBusy := false, fillBusy := false }) s

/-- The last of those resets ends: the attic load and the memory fill start (R399, R403). -/
def bootStart (s : State) : State :=
  if fullHeld s then s else forN 27 blockUp (updRst (fun r => { r with atticBusy := true, fillBusy := true, causeAt := none }) s)

/-- Power-on reset or RESET_N is released: the straps are sampled once neither holds (R365). -/
def pinRelease (s : State) : State := bootStart (if s.rst.por || s.rst.resetN then s else sampleStraps s)

/-- POWER_ON_RESET. -/
def porAssert (s : State) : State := resetFull (fullReset 0 (fun r => { r with por := true }) s)

/-- POWER_ON_RESET_RELEASE. -/
def porRelease (s : State) : State := if s.rst.por then pinRelease (updRst (fun r => { r with por := false }) s) else s

/-- RESET_N_ASSERT. -/
def resetNAssert (s : State) : State := resetFull (fullReset 1 (fun r => { r with resetN := true }) s)

/-- RESET_N_RELEASE: the pin is high and FOSC is ready. -/
def resetNRelease (s : State) : State :=
  if s.rst.resetN && s.on CRP_CLK_STAT_fosc_ready then pinRelease (updRst (fun r => { r with resetN := false }) s) else s

/-- AON_POWER_ON_RESET: the always-on time, AOSC and RST_CAUSE (R390, R396). -/
def aonReset (s : State) : State :=
  let s := (s.wr RST_CAUSE 1).set CRP_ATTIC_STAT_restarts 0
  let s := ((s.wr CRP_AOSC_INC (resetWord CRP_AOSC_INC)).wr CRP_AON_TIME_H 0).set CRP_CLK_STAT_aosc_ready 0
  updClk (fun c => { c with aon := 0, stage := 0, load := none, discBad := false }) s

/-! ## CLK_NOFOSC (R380, R391) -/

/-- The domain starts on the source that has become ready. -/
def nofoscStart (s : State) : State :=
  updClk (fun c => { c with gateNmi := [] }) (swReached (if s.on CRP_CLK_STAT_fosc_ready then 0 else 1) (s.set CRP_CLK_STAT_sys_gated 0))

/-- The block's release is done: BLK_REL. -/
def blkFree (b : Nat) (s : State) : State :=
  let s := updRst (fun r => { r with held := r.held.filter fun x => decide (x ≠ b), relReq := r.relReq.filter fun x => decide (x ≠ b),
                                     relDue := r.relDue.filter fun x => decide (x ≠ b) }) s
  rstEvt 1 (blockUp b (s.set ⟨CRP_BLK_RST_STAT, b, 1⟩ 0))

/-- A reset with the reach of CMD is released, and with it the blocks that waited for its end (R391, R395). -/
def wideRelease (s : State) : State :=
  let s := forN 27 blockUp (updRst (fun r => { r with wide := false, nofosc := false, causeAt := none }) s)
  let s := forN 27 (fun b s => if s.rst.relDue.contains b then blkFree b s else s) s
  if s.rst.released && !fullHeld s && !s.stop then romStart s else s

/-- The CLK_NOFOSC reset in force is released once its clock is there. -/
def nofoscRelease (s : State) : State :=
  if !s.rst.nofosc then s
  else if s.rst.deep then
    if s.on CRP_CLK_STAT_fosc_ready then
      bootStart (updRst (fun r => { r with wide := false, nofosc := false, deep := false }) (nofoscStart s))
    else s
  else if s.on CRP_CLK_STAT_fosc_ready || s.on (pllReady 2) then wideRelease (nofoscStart s)
  else s

/-- NOFOSC_TIMEOUT: fosc_ready is still 0. What waits at the ports is fenced; SPLL may be there already (R380, R391). -/
def nofoscReset (s : State) : State :=
  if !s.on CRP_CLK_STAT_sys_gated || s.on CRP_CLK_STAT_fosc_ready || fullHeld s || s.stop || s.rst.nofosc then s
  else
    let s := portsFenced (swAbort s)
    if s.rst.released then
      nofoscRelease (updRst (fun r => { r with nofosc := true }) (wideReset [5] s))
    else resetDie false (fullReset 5 (fun r => { r with wide := true, nofosc := true, deep := true }) s)

/-- WIDE_RESET_RELEASE: 2 µs have passed. -/
def wideTimeout (s : State) : State := if s.rst.wide && !s.rst.nofosc then wideRelease s else s

/-! ## Block resets (R394, R395) -/

/-- A bit of CRP_BLK_RST becomes 1. -/
def blkSet (b : Nat) (s : State) : State :=
  let up := !blkHeld b s
  let s := s.set ⟨CRP_BLK_RST_STAT, b, 1⟩ 1
  let s := updRst (fun r => { r with held := if r.held.contains b then r.held else b :: r.held,
                                     relReq := r.relReq.filter fun x => decide (x ≠ b),
                                     relDue := r.relDue.filter fun x => decide (x ≠ b), heldAt := natInsert r.heldAt b s.now }) s
  if up then blockDown true b s else s

/-- A reset wider than its own holds block b (R395). -/
def widerHeld (b : Nat) (s : State) : Bool := s.rst.wide && (wideReach b || s.rst.deep)

/-- The block's release, where it has been requested; it waits for a wider reset to end (R395). -/
def blkRelease (b : Nat) (s : State) : State :=
  if !s.rst.relReq.contains b then s
  else if widerHeld b s then updRst (fun r => { r with relDue := if r.relDue.contains b then r.relDue else b :: r.relDue }) s
  else blkFree b s

/-- 2 µs in nominal band-clock periods, rounded up. -/
def blkTicks : Nat := 1967

/-- A bit of CRP_BLK_RST becomes 0: its release is requested, and comes at once where 2 µs have passed since the assertion. -/
def blkClear (b : Nat) (s : State) : State :=
  let s := updRst (fun r => { r with relReq := if r.held.contains b && !r.relReq.contains b then b :: r.relReq else r.relReq }) s
  if (natFind s.rst.heldAt b).any fun t => decide (t + blkTicks ≤ s.now) then blkRelease b s else s

/-- A write of CRP_BLK_RST. -/
def wrBlkRst (w : Word) (s : State) : State :=
  let old := s.rd CRP_BLK_RST
  let s := s.store CRP_BLK_RST CRP_BLK_RST_fs w
  let new := s.rd CRP_BLK_RST
  (forN 27 (fun b s => if bit new b && !bit old b then blkSet b s else if bit old b && !bit new b then blkClear b s else s) s).ret .done

/-! ## The attic load and the start of SC (R398 to R403) -/

/-- The values of a valid copy, all in one cycle (R400). -/
def atticValues (s : State) : State :=
  let p := atticUsed s
  let s := (s.set GRD_SWING_attic p.swing).set GRD_SWING_work p.swing
  let s := forN 2 (fun d s => (s.set (GRD_GAIN_attic d) (nth p.gain d)).set (GRD_GAIN_work d) (nth p.gain d)) s
  let s := forN 16 (fun i s =>
    let g := nth p.pins i
    let s := (s.set (GRD_PIN_role i) g.role).set (GRD_PIN_lane i) g.lane
    let s := (s.set (GRD_PIN_ATT_lo i) g.lo).set (GRD_PIN_ATT_hi i) g.hi
    (s.set (GRD_PIN_LIM_lo i) g.lo).set (GRD_PIN_LIM_hi i) g.hi) s
  let s := forN 8 (fun n s => if laneOff n s then pinsZero n s else s) s
  let s := (s.seti RPT_CEIL_ceil_attic p.ceil).seti RPT_CEIL_ceil p.ceil
  atticPair p.pair (ownAttic s)

/-- ATTIC_LOAD_DONE (R400, R402); the key RAM is loaded next (R463). -/
def atticDone (s : State) : State :=
  if !s.rst.atticBusy || fullHeld s then s
  else
    let a := s.attic.a.ok
    let b := s.attic.b.ok
    let s := updRst (fun r => { r with atticBusy := false }) s
    let s := ((s.set CRP_ATTIC_STAT_done 1).set CRP_ATTIC_STAT_a_ok a.toNat).set CRP_ATTIC_STAT_b_ok b.toNat
    let s := (s.set CRP_ATTIC_STAT_used (!a).toNat).set CRP_ATTIC_STAT_hold (!(a || b)).toNat
    let s := updOwn (fun o => { o with key := 1 }) s
    if a || b then atticValues s else forN 8 (fun n s => forceOn n causeHold s) s

/-- ATTIC_WARN where exactly one copy is valid (R402). -/
def atticWarn (s : State) : State := if s.on CRP_ATTIC_STAT_a_ok ≠ s.on CRP_ATTIC_STAT_b_ok then rstEvt 0 s else s

/-- SC_RELEASE: after both the load and the fill; SC is at level K in the boot ROM (R403, R404). -/
def scRelease (s : State) : State :=
  if fullHeld s || s.rst.wide || s.rst.atticBusy || s.rst.fillBusy || s.rst.released || s.stop then s
  else romStart (atticWarn (updRst (fun r => { r with released := true }) s))

/-- VDDIO_REACHING_THRESHOLD: the safe levels by majority of the three copies (R398). -/
def safeLevels (s : State) : State :=
  let a := nth s.attic.safe 0
  let b := nth s.attic.safe 1
  let c := nth s.attic.safe 2
  rfcShow (s.wr FEN_RFC_SAFE ((a &&& b) ||| (a &&& c) ||| (b &&& c)))

/-! ## Lockstep, watchdog, command reset -/

/-- SC executes: released, no reset of it in force, the part in run, its clock there, RUNNING. -/
def scRuns (s : State) : Bool :=
  s.rst.released && !s.rst.wide && !fullHeld s && !s.stop && decide (s.pwr.st ≤ 1) && !s.on CRP_CLK_STAT_sys_gated &&
    decide (coreState 12 s = 1)

/-- LOCKSTEP_MISMATCH (R328). -/
def lockstep (s : State) : State :=
  if !scRuns s then s
  else
    let s := (s.addSat EVR_LOCK_STAT_count 1).wr EVR_LOCK_PC (s.cpu 12).pc
    let second := match s.lockAt with | some t => decide (s.now < t + 1000 * msTicks) | none => false
    if second then wideReset [4] { s with lockAt := none }
    else
      let s := loadAbort 12 (cpuReset 12 (portDrain 12 s))
      let s := (s.set (OWN_CORE_STAT_armed 12) 0).set (OWN_CORE_STAT_fenced 12) 0
      romStart (({ s.set (OWN_CORE_STAT_active 12) 0 with lockAt := some s.now } : State).raise 6)

/-- WDOG_RESET: the second interval has ended (R329), were it in the cycle of a command reset (R392). -/
def wdReset (s : State) : State :=
  if (wdRuns s && s.on EVR_WDOG_STAT_second) || (sameCycle s && s.rst.wide && s.rst.causeWd) then wideReset [3] s else s

/-- A write of CRP_CMD_RESET (R392). -/
def wrCmdReset (w : Word) (s : State) : State := if w = 0x6D3B then wideReset [2] (s.ret .done) else s.ret .range

/-- The owner's command reset in the cycle of a watchdog reset, which has taken the ownership away (R392). -/
def cmdWithWd (q : Rq) (w : Word) (s : State) : Bool :=
  sameCycle s && s.rst.wide && s.on ⟨RST_CAUSE, 3, 1⟩ && decide (w = 0x6D3B) && isOwner q (s.wr OWN_STAT s.rst.causeOwn)

/-! ## Meanings -/

def execLockstepMismatch (s : State) : Out := .next (lockstep s)
def execWdogReset (s : State) : Out := .next (wdReset s)
def execPowerOnReset (s : State) : Out := .next (porAssert s)
def execPowerOnResetRelease (s : State) : Out := .next (porRelease s)
def execAonPowerOnReset (s : State) : Out := .next (aonReset s)
def execResetNAssert (s : State) : Out := .next (resetNAssert s)
def execResetNRelease (s : State) : Out := .next (resetNRelease s)

def execCommandReset (q : Rq) (w : Word) (s : State) : Out :=
  .next (if cmdWithWd q w s then setCauses [2] (s.ret .done) else gated q CRP_CMD_RESET CRP_CMD_RESET_fs w (wrCmdReset w) s)

def execWideResetRelease (s : State) : Out := .next (wideTimeout s)
def execRstCauseWrite (q : Rq) (w : Word) (s : State) : Out := .next (gated q RST_CAUSE RST_CAUSE_fs w (wrRstCause w) s)

def execBlkRstSet (q : Rq) (b : Fin 27) (s : State) : Out :=
  let w := s.rd CRP_BLK_RST ||| BitVec.ofNat 32 (2 ^ b.val)
  .next (gated q CRP_BLK_RST CRP_BLK_RST_fs w (wrBlkRst w) s)

def execBlkRstClear (q : Rq) (b : Fin 27) (s : State) : Out :=
  let w := s.rd CRP_BLK_RST &&& ~~~ BitVec.ofNat 32 (2 ^ b.val)
  .next (gated q CRP_BLK_RST CRP_BLK_RST_fs w (wrBlkRst w) s)

def execBlockRelease (b : Fin 27) (s : State) : Out := .next (blkRelease b s)
def execAtticLoadDone (s : State) : Out := .next (atticDone s)
def execScRelease (s : State) : Out := .next (scRelease s)
def execVddioReachingThreshold (s : State) : Out := .next (safeLevels s)

end Sys2Proof.Machine
end

