-- ==== Sys2Proof/Machine/MemBus.lean ====
section
/-! DEFINITION. Accesses to memory over the bus: aliases, alignment, fences, ownership, shelves (R283, R310 to R312, R346, R448,
R462, R547 to R550); and the commands and retirements of the DMA channels (R349 to R356), whose write-backs are such accesses. -/

namespace Sys2Proof.Machine

/-! ## Memory -/

/-- The system address that a requester's address names: an alias names the accessing core's own memory (R311, R549). -/
def resolve (q : Rq) (a : Nat) (s : State) : Option Nat :=
  match region a with
  | .shelfAlias =>
    match q with
    | .core c _ =>
      if c < 13 ∧ a - 0x7F000000 < shelfSize c then some (shelfBase c (s.get (OWN_CORE_STAT_active c)) + (a - 0x7F000000)) else none
    | _ => none
  | .dataAlias =>
    match q with
    | .core c _ => if c < 13 ∧ a - 0x7F800000 < dataSize c then some (dataBase c + (a - 0x7F800000)) else none
    | _ => none
  | .hole => none
  | _ => some a

/-- The widths of a memory access, naturally aligned (R547). -/
def memAligned (a n : Nat) : Bool := (n = 1 || n = 2 || n = 4 || n = 8 || n = 32) && decide (a % n = 0)

/-- The port of a core's memories is fenced to this requester (R313, R321): the core in RESET or in its swap window. -/
def portFenced (q : Rq) (a : Nat) (s : State) : Bool :=
  let f := fun (c : Nat) =>
    s.on (OWN_CORE_STAT_fenced c) && (match q with | .loader => false | .core d _ => decide (d ≠ c) | _ => true)
  match region a with
  | .lcMem n => f n
  | .rcMem c => f (8 + c)
  | _ => (scMemory a && f 12) || s.stop || s.rst.por || s.rst.resetN

/-- HATCH as owner at FULL reaches the secret window; no other outside class does (R448). -/
def secretOk (q : Rq) (a : Nat) (s : State) : Bool :=
  decide (q.cls = 0) || !inSecret a s || (decide (q = .hatch) && isOwner q s && decide (s.get OWN_HATCH_STAT_level = 2))

/-- An access of n bytes at a addresses a byte of the secret window. -/
def touchesSecret (a n : Nat) (s : State) : Bool := decide (secretLo s < a + n) && decide (a < secretHi s)

/-- A hatch access that addresses the secret window zeroises it first, whatever becomes of the access (R462). -/
def hatchSecret (q : Rq) (a n : Nat) (s : State) : State := if q = .hatch ∧ touchesSecret a n s then zeroise s else s

/-- Whether the requester may write a shelf (R312). -/
def shelfWriter (q : Rq) (c : Nat) : Bool :=
  match q with
  | .loader => true
  | .core d l => (decide (d = c) && decide (l = .s)) || (decide (d = 12) && decide (l = .k))
  | _ => false

/-- What a write means for the shelf that it reaches: none where it is refused (R312). -/
def shelfCheck (q : Rq) (a : Nat) (s : State) : Option State :=
  match shelfOf a with
  | none => some s
  | some (c, sh) =>
    if !shelfWriter q c ∨ (s.on (OWN_CORE_STAT_armed c) ∧ sh = idleShelf c s) then none
    else some (shelfDirty c sh (if q = .loader then s else s.set (chkFd c sh) 0))

/-- A read of memory of unit u over the bus. -/
def memBusRead (u : Nat) (q : Rq) (a n : Nat) (s : State) : State × Code × List Byte :=
  let s := hatchSecret q a n s
  if !memAligned a n then (s, .align, [])
  else if portFenced q a s then (s, .fenced, [])
  else if !mayRead q a s then (s, .notOwner, List.replicate n 0) else memRead u q a n s

/-- A write to memory of unit u over the bus; no code for a core's narrow store, which completes later (R286, R342). -/
def memBusWrite (u : Nat) (q : Rq) (a : Nat) (bytes : List Byte) (s : State) : State × Option Code :=
  let s := hatchSecret q a bytes.length s
  if !memAligned a bytes.length then (s, some .align)
  else if portFenced q a s then (s, some .fenced)
  else if q.cls ≠ 0 ∧ (!isOwner q s ∨ !secretOk q a s) then (logRefusal q a .notOwner s, some .notOwner)
  else if savedArea a then (s, some .state)
  else match shelfCheck q a s with
    | none => (s, some .state)
    | some s => memWrite u q a bytes s

/-! ## DMA channels (R349 to R356) -/

def updDma (c : Nat) (f : DmaCh → DmaCh) (s : State) : State := { s with dma := upd s.dma c f }

def State.dch (s : State) (c : Nat) : DmaCh := nth s.dma c

/-- Channel state: 0 IDLE, 1 FETCH, 2 RUN, 3 WAIT, 4 HALTED. -/
def chState (c : Nat) (s : State) : Nat := s.get (DMA_CH_STAT_state c)

/-- Bit c of DMA_EVT. -/
def dmaEvt (c : Nat) (s : State) : State := s.flag ⟨DMA_EVT, c, 1⟩ (448 + c)

/-- A final code of channel c with its reason. -/
def chOut (c : Nat) (o : Code) (reason : Nat) (s : State) : State :=
  (s.set (DMA_CH_STAT_outcome c) o.n).set (DMA_CH_STAT_reason c) reason

/-- The channel halts (R351). -/
def chHalt (c : Nat) (o : Code) (reason : Nat) (resumable : Bool) (s : State) : State :=
  dmaEvt c (((chOut c o reason s).set (DMA_CH_STAT_state c) 4).set (DMA_CH_STAT_resumable c) resumable.toNat)

/-- The loaded descriptor's fields (R349). -/
def DmaCh.beats (d : DmaCh) : Nat := fieldOf d.ctl 0 4 + 1
def DmaCh.swap (d : DmaCh) : Nat := fieldOf d.ctl 4 2
def DmaCh.barrier (d : DmaCh) : Bool := bit d.ctl 6
def DmaCh.ev (d : DmaCh) : Bool := bit d.ctl 7
def DmaCh.srcFix (d : DmaCh) : Bool := bit d.ctl 8
def DmaCh.dstFix (d : DmaCh) : Bool := bit d.ctl 9
def DmaCh.req (d : DmaCh) : Nat := fieldOf d.ctl 10 5

/-- A request line is asserted; line 0 paces nothing (R352). -/
def lineOn (r : Nat) (s : State) : Bool :=
  match r with
  | 0 => true
  | 1 => stoRxLine s
  | 2 => stoTxLine s
  | 3 => s.cel.line
  | _ => false

/-- RUN, or WAIT where the channel is paced and its line is not asserted. -/
def chGo (c : Nat) (s : State) : State := s.set (DMA_CH_STAT_state c) (if lineOn (s.dch c).req s then 2 else 3)

/-- The descriptor retires: wb is written, the event raised, the chain goes on (R351, R355). -/
def chRetire (c : Nat) (s : State) : State :=
  let d := s.dch c
  let wb := leBytes 4 d.next ++ leBytes 4 (0x100 + 0x200 * d.stale.toNat)
  let s := match unitOf (d.cur + 0x10) with
    | some u => (memBusWrite u (.dma c) (d.cur + 0x10) wb s).1
    | none => s
  let s := updDma c (fun d => { d with stale := false, loose := !d.barrier, posted := none }) s
  let s := if d.ev then dmaEvt c s else s
  let s := if d.next = 0 then chOut c .done 0 (s.set (DMA_CH_STAT_state c) 0)
    else (s.set (DMA_CH_STAT_state c) 1).set (DMA_CH_DESC_desc c) d.next
  match d.posted with
  | some o =>
    let r := s.freeVal 1
    chHalt c o 6 (r = 1) s.freeNext
  | none => s

/-- START. -/
def chStart (c : Nat) (s : State) : State :=
  let t := chState c s
  if t = 0 ∨ t = 4 then
    let s := (chOut c .done 0 (s.set (DMA_CH_STAT_state c) 1)).set (DMA_CH_STAT_resumable c) 0
    (updDma c (fun d => { loose := d.loose }) (s.set (DMA_CH_STAT_empty c) 0)).ret .done
  else (s.set (DMA_CH_STAT_outcome c) Code.state.n).ret .state

/-- STOP; in FETCH it is refused. -/
def chStop (c : Nat) (s : State) : State :=
  let t := chState c s
  if t = 2 ∨ t = 3 then (chHalt c .aborted 1 true s).ret .done
  else if t = 1 then (s.set (DMA_CH_STAT_outcome c) Code.state.n).ret .state
  else (s.set (DMA_CH_STAT_outcome c) Code.done.n).ret .done

/-- RESUME. -/
def chResume (c : Nat) (s : State) : State :=
  if chState c s = 4 ∧ s.on (DMA_CH_STAT_resumable c) then
    let s := (chOut c .done 0 s).set (DMA_CH_STAT_resumable c) 0
    (if s.get (DMA_CH_COUNT_count c) = 0 then chRetire c s else chGo c s).ret .done
  else (s.set (DMA_CH_STAT_outcome c) Code.state.n).ret .state

/-- A write of DMA_CH_CMD_c. -/
def wrDmaCmd (c : Nat) (w : Word) (s : State) : State :=
  match wf w (DMA_CH_CMD_op c) with
  | 1 => chStart c s
  | 2 => chStop c s
  | 3 => chResume c s
  | _ => (s.set (DMA_CH_STAT_outcome c) Code.range.n).ret .range

/-- The channel registers are writable in IDLE and HALTED; source and destination are multiples of 8. -/
def wrDmaReg (c a : Nat) (eight : Bool) (w : Word) (s : State) : State :=
  if eight ∧ w.toNat % 8 ≠ 0 then s.ret .align
  else if w = s.rd a then s.ret .done
  else if chState c s = 0 ∨ chState c s = 4 then plainWrite a (regFields a) w s
  else s.ret .state

end Sys2Proof.Machine
end

