-- ==== Sys2Proof/Machine/Bus.lean ====
section
/-! DEFINITION. The register side of the bus: which hook each register's write and read have, and the accesses of R547 as a whole. -/

namespace Sys2Proof.Machine

/-! ## Write hooks -/

/-- A row of a hook table: first address, stride, count, and the hook of register i. -/
structure Hook where
  base : Nat
  stride : Nat := 4
  cnt : Nat := 1
  run : Nat → State → State

/-- The hook of an address in a table. -/
def hookAt (l : List Hook) (a : Nat) : Option (State → State) :=
  l.findSome? fun h =>
    if h.base ≤ a ∧ (a - h.base) % h.stride = 0 ∧ (a - h.base) / h.stride < h.cnt then some (h.run ((a - h.base) / h.stride)) else none

/-- Line lane n (chapters 02 and 03). -/
def laneHooks (n : Nat) (w : Word) : List Hook :=
  [{ base := LANE_ADC_CTRL n, run := fun _ => wrAdcCtrl n w },
   { base := LANE_CAL_CMD n, run := fun _ => wrCalCmd n w },
   { base := LANE_RAMP_CTRL n, run := fun _ => wrRampCtrl n w },
   { base := LANE_TX_CTRL n, run := fun _ => wrTxCtrl n w },
   { base := LANE_TX_COMMIT n, run := fun _ => wrTxCommit n w },
   { base := LANE_TX_FIR n 0, cnt := 8, run := fun k => wrTxFir n k w },
   { base := LANE_TX_PDA n 0, cnt := 256, run := fun i => wrPd n 0 i w },
   { base := LANE_TX_PDB n 0, cnt := 256, run := fun i => wrPd n 1 i w },
   { base := LANE_DET_CTRL n, run := fun _ => wrDetCtrl n w },
   { base := LANE_DET_CMD n, run := fun _ => wrDetCmd n w },
   { base := LANE_EQ_CTRL n, run := fun _ => wrEqCtrl n w },
   { base := LANE_EQ_TAP n 0, cnt := 48, run := fun k => wrEqTap n k w },
   { base := LANE_TR_CTRL n, run := fun _ => wrTrCtrl n w },
   { base := LANE_TR_PHASE n, run := fun _ => wrTrPhase n w },
   { base := LANE_TR_FREQ n, run := fun _ => wrTrFreq n w },
   { base := LANE_TRL_COMMIT n, run := fun _ => wrTrlCommit n w },
   { base := LANE_TRL_LEVA n 0, cnt := 64, run := fun i => wrLevel n 0 i w },
   { base := LANE_TRL_LEVB n 0, cnt := 64, run := fun i => wrLevel n 1 i w },
   { base := LANE_LMS_CFG n 0, stride := 64, cnt := 4, run := fun u => wrLmsCfg n u w },
   { base := LANE_LMS_CMD n 0, stride := 64, cnt := 4, run := fun u => wrLmsCmd n u w },
   { base := LANE_HIST_CTRL n, run := fun _ => wrHistCtrl n w }]

/-- Framing of line lane n (chapter 04). -/
def frmHooks (n : Nat) (w : Word) : List Hook :=
  [{ base := FRM_LANE_CTRL n, run := fun _ => wrLaneCtrl n w },
   { base := FRM_TX_CMD n, run := fun _ => wrTxCmd n w },
   { base := FRM_SQ_CTRL n, run := fun _ => wrSqCtrl n w },
   { base := FRM_FEC_CTRL n, run := fun _ => wrFecCtrl n w },
   { base := FRM_CNT_CMD n, run := fun _ => wrCntCmd n w },
   { base := FRM_TCTR n 0, cnt := 128, run := fun c => wrCtr false n c w },
   { base := FRM_RCTR n 0, cnt := 128, run := fun c => wrCtr true n c w }]

/-- Host lane n (chapter 05). -/
def hostHooks (n : Nat) (w : Word) : List Hook :=
  [{ base := HOST_CTRL n, run := fun _ => wrHostCtrl n w },
   { base := HOST_CMD n, run := fun _ => wrHostCmd n w },
   { base := HOST_TRAIN_REQ n, run := fun _ => wrTrainReq n w },
   { base := HOST_TX_FIR n 0, cnt := 5, run := fun k => wrHostFir n k w },
   { base := HOST_RX_EQ n, run := fun _ => wrHostRxEq n w },
   { base := HOST_PAT_CTRL n, run := fun _ => wrPatCtrl n w },
   { base := HOST_FEC_CMD n, run := fun _ => wrFecCmd n w },
   { base := HOST_JESD_RX_CFG n, run := fun _ => wrJesdCfg (HOST_JESD_RX_CFG n) n HOST_JESD_RX_CFG_fs w },
   { base := HOST_JESD_TX_CFG n, run := fun _ => wrJesdCfg (HOST_JESD_TX_CFG n) n HOST_JESD_TX_CFG_fs w },
   { base := HOST_JESD_DL n, run := fun _ => wrJesdDl n w },
   { base := HOST_JESD_SYS n, run := fun _ => wrJesdSys n w }]

/-- The band engine's globals and port tables (chapter 06). -/
def bndHooks (w : Word) : List Hook :=
  [{ base := BND_SYNC_CTRL, run := fun _ => wrSyncCtrl w },
   { base := BND_SYNC_CMD, run := fun _ => wrSyncCmd w },
   { base := BND_ADM_RES 0, stride := 8, cnt := 2, run := fun d => wrAdmRes d w },
   { base := BND_ADM_THR, run := fun _ => wrAdmThr w },
   { base := BND_MEAS_CTRL, run := fun _ => wrMeasCtrl w },
   { base := BND_MEAS_SRC 0, cnt := 16, run := fun c => wrMeasSrc c w },
   { base := BND_PIN 0, stride := 8, cnt := 1024, run := fun p => wrPort false p w },
   { base := BND_PIN2 0, stride := 8, cnt := 1024, run := fun p => wrPort2 false p w },
   { base := BND_POUT 0, stride := 8, cnt := 1024, run := fun p => wrPort true p w },
   { base := BND_POUT2 0, stride := 8, cnt := 1024, run := fun p => wrPort2 true p w }]

/-- Band path k (chapter 06). -/
def pathHooks (k : Nat) (w : Word) : List Hook :=
  [{ base := BND_PATH_CFG k, run := fun _ => wrPathIdle k (BND_PATH_CFG k) BND_PATH_CFG_fs w },
   { base := BND_PATH_CFG2 k, run := fun _ => wrPathIdle k (BND_PATH_CFG2 k) BND_PATH_CFG2_fs w },
   { base := BND_PATH_CMD k, run := fun _ => wrPathCmd k w },
   { base := BND_PATH_NCO k, run := fun _ => wrPathNco k w },
   { base := BND_PATH_IQB k, run := fun _ => wrPathIqb k w },
   { base := BND_PATH_GAIN k, run := fun _ => wrPathGain k w },
   { base := BND_PATH_CF k, run := fun _ => wrPathCf k w },
   { base := BND_PATH_CXCMD k, run := fun _ => wrCxcmd k w },
   { base := BND_PATH_MTR_CTRL k, run := fun _ => wrMtrCtrl k w },
   { base := BND_PATH_CFC k 0, cnt := 255, run := fun j => wrCfc k j w }]

/-- Repeater control (chapter 07): the registers of a path under R226. -/
def rptHooks (q : Rq) (w : Word) : List Hook :=
  let own := fun (k : Nat) (f : State → State) => rptOwned q k f
  let plain := fun (r : Nat → Nat) (k : Nat) => rptOwned q k (plainWrite (r k) (regFields (r k)) w)
  [{ base := RPT_MUTE_CTRL, run := fun _ => wrMuteCtrl w },
   { base := RPT_CEIL, run := fun _ => wrRptCeil w },
   { base := RPT_GRD_CTRL, run := fun _ => wrGrdCtrl w },
   { base := RPT_PATH_CFG 0, stride := RPT_PATH_CFG 1 - RPT_PATH_CFG 0, cnt := 128, run := fun k => own k (wrRptCfg k w) },
   { base := RPT_PATH_CMD 0, stride := RPT_PATH_CFG 1 - RPT_PATH_CFG 0, cnt := 128, run := fun k => own k (wrRptCmd k w) },
   { base := RPT_PATH_LIM 0, stride := RPT_PATH_CFG 1 - RPT_PATH_CFG 0, cnt := 128, run := plain RPT_PATH_LIM },
   { base := RPT_PATH_ISO 0, stride := RPT_PATH_CFG 1 - RPT_PATH_CFG 0, cnt := 128, run := plain RPT_PATH_ISO },
   { base := RPT_PATH_RAMP 0, stride := RPT_PATH_CFG 1 - RPT_PATH_CFG 0, cnt := 128, run := fun k => own k (wrRptRamp k w) },
   { base := RPT_PATH_OSC 0, stride := RPT_PATH_CFG 1 - RPT_PATH_CFG 0, cnt := 128, run := fun k => own k (wrRptOsc k w) },
   { base := RPT_PATH_NR 0, stride := RPT_PATH_CFG 1 - RPT_PATH_CFG 0, cnt := 128, run := fun k => own k (wrRptNr k w) },
   { base := RPT_PATH_NRC 0, stride := RPT_PATH_CFG 1 - RPT_PATH_CFG 0, cnt := 128, run := plain RPT_PATH_NRC },
   { base := RPT_PATH_LD 0, stride := RPT_PATH_CFG 1 - RPT_PATH_CFG 0, cnt := 128, run := fun k => own k (wrRptLd k w) },
   { base := RPT_PATH_STAT 0, stride := RPT_PATH_CFG 1 - RPT_PATH_CFG 0, cnt := 128, run := plain RPT_PATH_STAT },
   { base := RPT_PATH_APP 0, stride := RPT_PATH_CFG 1 - RPT_PATH_CFG 0, cnt := 128, run := plain RPT_PATH_APP },
   { base := RPT_PATH_ATT_A 0, stride := RPT_PATH_CFG 1 - RPT_PATH_CFG 0, cnt := 128, run := plain RPT_PATH_ATT_A },
   { base := RPT_PATH_ATT_B 0, stride := RPT_PATH_CFG 1 - RPT_PATH_CFG 0, cnt := 128, run := plain RPT_PATH_ATT_B },
   { base := RPT_PATH_NRS 0, stride := RPT_PATH_CFG 1 - RPT_PATH_CFG 0, cnt := 128, run := plain RPT_PATH_NRS }]

/-- Cell listener (chapter 08). -/
def lstHooks (w : Word) : List Hook :=
  [{ base := LST_CTRL, run := fun _ => wrLstCtrl w },
   { base := LST_ALLOW 0, cnt := 32, run := fun i => wrAllow i w },
   { base := LST_NF_CFG 0, stride := LST_NF_CFG 1 - LST_NF_CFG 0, cnt := 16, run := fun g => wrNfCfg g w }] ++
  (List.range 2).flatMap fun ch =>
    [{ base := LST_CH_CTRL ch, run := fun _ => wrLstChCtrl ch w },
     { base := LST_CH_SRC ch, run := fun _ => wrLstOff ch (LST_CH_SRC ch) LST_CH_SRC_fs w },
     { base := LST_CH_NCO ch, run := fun _ => wrLstOff ch (LST_CH_NCO ch) LST_CH_NCO_fs w },
     { base := LST_CH_THR ch, run := fun _ => wrLstThr ch w },
     { base := LST_CH_CAL ch, run := fun _ => wrLstCal ch w },
     { base := LST_CH_CMD ch, run := fun _ => wrLstCmd ch w },
     { base := LST_TDD_B ch, run := fun _ => wrTddB ch w },
     { base := LST_NRBUF_CTRL ch, run := fun _ => wrNrbuf ch w }]

/-- Front-end control (chapter 09). -/
def fenHooks (w : Word) : List Hook :=
  [{ base := FEN_RFC_OWN_L, run := fun _ => wrRfcOwn FEN_RFC_OWN_L w },
   { base := FEN_RFC_OWN_H, run := fun _ => wrRfcOwn FEN_RFC_OWN_H w },
   { base := FEN_COEX_CTRL, run := fun _ => wrCoexCtrl w },
   { base := FEN_COEX_CFG, run := fun _ => wrCoexCfg w }] ++
  (List.range 4).flatMap fun n =>
    [{ base := FEN_SEQ_CTRL n, run := fun _ => wrSeqCtrl n w },
     { base := FEN_SEQ_CMD n, run := fun _ => wrSeqCmd n w },
     { base := FEN_SEQ_HOLD n, run := fun _ => wrSeqHold n w },
     { base := FEN_SEQ_LOCK n, run := fun _ => wrSeqLock n w },
     { base := FEN_SEQ_CAL n, run := fun _ => wrSeqCal n w },
     { base := FEN_SPI_CFG n, run := fun _ => wrSpiCfg n w },
     { base := FEN_SPI_CMD n, run := fun _ => wrSpiCmd n w },
     { base := FEN_SPI_DATA n 0, cnt := 16, run := fun j => wrSpiData n j w }]

/-- CRP (chapters 13 to 15); CRP_BOOT_STAT is written by the boot ROM alone (R406). -/
def crpHooks (q : Rq) (w : Word) : List Hook :=
  [{ base := CRP_REFMON, run := fun _ => wrRefmon w },
   { base := CRP_PLL_CTRL, run := fun _ => wrPllCtrl w },
   { base := CRP_BPLL_TRIM, run := fun _ => wrBpllTrim w },
   { base := CRP_SYS_SEL, run := fun _ => wrSysSel w },
   { base := CRP_CLKOUT, run := fun _ => wrClkout w },
   { base := CRP_AOSC_INC, run := fun _ => wrAoscInc w },
   { base := CRP_AON_TIME_L, run := fun _ => wrAonL w },
   { base := CRP_AON_TIME_H, run := fun _ => wrAonH w },
   { base := RST_CAUSE, run := fun _ => wrRstCause w },
   { base := CRP_CMD_RESET, run := fun _ => wrCmdReset w },
   { base := CRP_BLK_RST, run := fun _ => wrBlkRst w },
   { base := CRP_BOOT_STAT, run := fun _ s =>
       (if q.isKeeper && scInRom s then s.wr CRP_BOOT_STAT (w &&& 0xFF7F) else s).ret .done },
   { base := PWR_MODE, run := fun _ => wrPwrMode w },
   { base := PWR_LARDER, run := fun _ => wrPwrLarder w },
   { base := PWR_AVS_CTRL, run := fun _ => wrAvsCtrl w },
   { base := PWR_AVS_REQ, run := fun _ => wrAvsReq w },
   { base := TH_CTRL, run := fun _ => wrThCtrl w },
   { base := TH_CMD, run := fun _ => wrThCmd w },
   { base := TH_THR 0, cnt := 3, stride := TH_THR 1 - TH_THR 0, run := fun k => wrThThr k w }]

/-- Bias converters and guard rails (chapter 16). -/
def biasHooks (w : Word) : List Hook :=
  [{ base := HKC_SCAN_CTRL, run := fun _ => wrScanCtrl w },
   { base := HKC_ENT 0, cnt := 32, stride := HKC_ENT 1 - HKC_ENT 0, run := fun i => wrHkcEnt i w },
   { base := HKD_CTRL 0, cnt := 16, stride := HKD_CTRL 1 - HKD_CTRL 0, run := fun p => wrHkdCtrl p w },
   { base := HKD_VAL 0, cnt := 16, stride := HKD_VAL 1 - HKD_VAL 0, run := fun p => wrHkdVal p w },
   { base := GRD_CTRL, run := fun _ => wrGrdLock w },
   { base := GRD_TRIP_CLR, run := fun _ => wrTripClr w },
   { base := GRD_SWING, run := fun _ => wrGrdSwing w },
   { base := GRD_GAIN 0, cnt := 2, run := fun d => wrGrdGain d w },
   { base := GRD_PIN_LIM 0, cnt := 16, stride := 16, run := fun p => wrPinLim p w }]

/-- Event router and counters (chapter 11). -/
def evrHooks (w : Word) : List Hook :=
  [{ base := EVR_PEND 0, cnt := 16, run := fun j => wrPend j w },
   { base := EVR_RAISE, run := fun _ => wrEvrRaise w },
   { base := EVR_WDOG_CTRL, run := fun _ => wrWdogCtrl w },
   { base := EVR_WDOG_KICK, run := fun _ => wrKick w },
   { base := EVR_ROUTE 0, cnt := 512, run := fun e => wrRoute e w },
   { base := PMC_CNT_L 0, cnt := 32, stride := 16, run := fun j => wrPmcL j w },
   { base := PMC_CNT_H 0, cnt := 32, stride := 16, run := fun j => wrPmcH j w }]

/-- Memory, DMA and storage (chapter 12). -/
def memHooks (w : Word) : List Hook :=
  [{ base := MEM_ARB_W, run := fun _ => wrArbW w },
   { base := MEM_INJ_CTRL, run := fun _ => wrInjCtrl w },
   { base := MEM_SCRUB 0, cnt := 15, run := fun u => wrScrub u w },
   { base := DMA_CH_DESC 0, cnt := 32, stride := 64, run := fun c => wrDmaReg c (DMA_CH_DESC c) false w },
   { base := DMA_CH_CMD 0, cnt := 32, stride := 64, run := fun c => wrDmaCmd c w },
   { base := DMA_CH_SRC 0, cnt := 32, stride := 64, run := fun c => wrDmaReg c (DMA_CH_SRC c) true w },
   { base := DMA_CH_DST 0, cnt := 32, stride := 64, run := fun c => wrDmaReg c (DMA_CH_DST c) true w },
   { base := DMA_CH_COUNT 0, cnt := 32, stride := 64, run := fun c => wrDmaReg c (DMA_CH_COUNT c) false w },
   { base := STO_CTRL, run := fun _ => wrStoCtrl w },
   { base := STO_CMD, run := fun _ => wrStoCmd w },
   { base := STO_NOR_CMD, run := fun _ => wrNorCmd w },
   { base := STO_NOR_BUF 0, cnt := 64, run := fun j => wrNorBuf j w }]

/-- Ownership, core control and loader (chapters 11 and 17). -/
def ownHooks (q : Rq) (w : Word) : List Hook :=
  [{ base := OWN_CLAIM, run := fun _ => wrClaim q w },
   { base := OWN_LEASE, run := fun _ => wrLease q w },
   { base := OWN_LEASE_CFG, run := fun _ => wrLeaseCfg w },
   { base := OWN_HANDOVER, run := fun _ => wrHandover q w },
   { base := OWN_ACCEPT, run := fun _ => wrAccept q w },
   { base := OWN_ZERO, run := fun _ => wrOwnZero w },
   { base := OWN_SECRET_LO, run := fun _ => wrSecret false w },
   { base := OWN_SECRET_HI, run := fun _ => wrSecret true w },
   { base := OWN_FUSE_CMD, run := fun _ => wrFuseCmd w },
   { base := OWN_SIGN_CMD, run := fun _ => wrSignCmd q w },
   { base := OWN_CORE_CTRL 0, cnt := 14, stride := 16, run := fun c => wrCoreCtrl c w },
   { base := OWN_LD_CMD, run := fun _ => wrLdCmd w },
   { base := OWN_LD_FLOOR 1, cnt := 3, run := fun k => wrLdFloor (k + 1) w },
   { base := OWN_LD_KEYTAB, run := fun _ => wrLdKeytab w }]

/-- Fabric and pair (chapter 18). -/
def snkHooks (w : Word) : List Hook :=
  [{ base := SNK_ADDR, run := fun _ => wrSnkAddr w },
   { base := SNK_CFG, run := fun _ => wrSnkCfg w },
   { base := SNK_LINK_EN, run := fun _ => wrLinkEn w },
   { base := SNK_TX_CMD 0, cnt := 8, stride := SNK_TX_CMD 1 - SNK_TX_CMD 0, run := fun t => wrSnkTx t w },
   { base := SNK_RXR_BASE 0, cnt := 4, stride := SNK_RXR_BASE 1 - SNK_RXR_BASE 0, run := fun c => wrRxrBase c w },
   { base := SNK_RXR_CTRL 0, cnt := 4, stride := SNK_RXR_CTRL 1 - SNK_RXR_CTRL 0, run := fun c => wrRxrCtrl c w },
   { base := SNK_RRA_CTRL, run := fun _ => wrRraCtrl w },
   { base := SNK_PAIR_CTRL, run := fun _ => wrPairCtrl w },
   { base := SNK_PAIR_TIM, run := fun _ => wrPairTim w },
   { base := SNK_PAIR_CMD, run := fun _ => wrPairCmd w },
   { base := SNK_ROUTE 0, cnt := 4096, run := fun a => wrRoute4 a w }]

/-- Self-test (chapter 20). -/
def bstHooks (w : Word) : List Hook :=
  [{ base := BST_MEM_CTRL, run := fun _ => wrMemCtrl w },
   { base := BST_MEM_CMD, run := fun _ => wrMemCmd w },
   { base := BST_LB_CMD, run := fun _ => wrLbCmd w },
   { base := BST_LB_CFG, run := fun _ => wrLbCfg w },
   { base := BST_LEDGER_BASE, run := fun _ => wrLedgerBase w },
   { base := BST_REPAIR 0 0, cnt := 60, run := fun i => wrRepair (i / 4) (i % 4) w }]

/-- The hook of a write to a register address, none where its fields take the written values alone. -/
def writeHook (q : Rq) (a : Nat) (w : Word) : Option (State → State) :=
  if a < 0x21000000 then hookAt (laneHooks ((a - 0x20000000) / 0x100000) w) a
  else if a < 0x22000000 then hookAt (hostHooks ((a - 0x21000000) / 0x10000) w) a
  else if a < 0x30000000 then hookAt (frmHooks ((a - 0x22000000) / 0x10000) w) a
  else if a < 0x30100000 then hookAt (bndHooks w) a
  else if a < 0x30200000 then hookAt (pathHooks ((a - 0x30100000) / 0x2000) w) a
  else if a < 0x31000000 then hookAt (rptHooks q w) a
  else if a < 0x32000000 then hookAt (lstHooks w) a
  else if a < 0x33000000 then hookAt (fenHooks w) a
  else if a < 0x40100000 then hookAt (crpHooks q w) a
  else if a < 0x40300000 then hookAt (biasHooks w) a
  else if a < 0x40400000 then hookAt (evrHooks w) a
  else if a < 0x40600000 then hookAt (memHooks w) a
  else if a < 0x40700000 then hookAt (snkHooks w) a
  else if a < 0x40800000 then hookAt (ownHooks q w) a
  else if a < 0x40900000 then hookAt (memHooks w) a
  else if a < 0x40B00000 then hookAt (evrHooks w) a
  else hookAt (bstHooks w) a

/-- The fields that judge a write at an address: a command to core 13 is judged as one to the others (R313). -/
def fieldsAt (a : Nat) : List (Nat × Nat × Acc) := if a = OWN_CORE_CTRL 13 then OWN_CORE_CTRL_fs else regFields a

/-- A whole-word write at an aligned register address (R6, R9, R12); an offset without a register ignores it (R548). -/
def regWrite (q : Rq) (a : Nat) (w : Word) (s : State) : State :=
  if 0x40900000 ≤ a ∧ a < 0x40910000 then celWrite q a w s
  else match writeHook q a w with
    | some f => gatedBus q a (fieldsAt a) w f s
    | none => gatedBus q a (regFields a) w (plainWrite a (regFields a) w) s

/-! ## Read hooks -/

/-- Registers whose reading is more than their stored word. -/
def readHooks : List Hook :=
  [{ base := LANE_ADC_STATUS 0, stride := 0x100000, cnt := 8, run := fun n s =>
       s.retData [(s.set (LANE_ADC_STATUS_ramp_busy n) (rampBusy n s).toNat).rd (LANE_ADC_STATUS n)] },
   { base := BND_SYNC_STAT, run := fun _ => clearRead BND_SYNC_STAT },
   { base := BND_TIME_L, run := fun _ => rdBandTime },
   { base := BND_PATH_SAT 0, stride := BND_PATH_SAT 1 - BND_PATH_SAT 0, cnt := 128, run := fun k => clearRead (BND_PATH_SAT k) },
   { base := RPT_MUTE_CNT, run := fun _ => clearRead RPT_MUTE_CNT },
   { base := LST_CH_CNT 0, stride := LST_CH_CNT 1 - LST_CH_CNT 0, cnt := 2, run := fun c => clearRead (LST_CH_CNT c) },
   { base := LST_RX_TIME_L 0, stride := LST_RX_TIME_L 1 - LST_RX_TIME_L 0, cnt := 2, run := rdRxTimeL },
   { base := FEN_COEX_CNT, run := fun _ => clearRead FEN_COEX_CNT },
   { base := FEN_SEQ_CNT 0, stride := FEN_SEQ_CNT 1 - FEN_SEQ_CNT 0, cnt := 4, run := fun n => clearRead (FEN_SEQ_CNT n) },
   { base := CRP_AON_TIME_L, run := fun _ => rdAonL },
   { base := CRP_GATE_STAT, run := fun _ s => s.retData [gateStat s] },
   { base := HKD_STAT 0, stride := HKD_STAT 1 - HKD_STAT 0, cnt := 16, run := rdHkdStat },
   { base := GRD_STAT, run := fun _ => rdGrdStat },
   { base := EVR_NEXT 0, cnt := 13, run := rdEvrNext },
   { base := EVR_WDOG_STAT, run := fun _ => rdWdogStat },
   { base := PMC_CNT_L 0, stride := 16, cnt := 32, run := rdPmcL },
   { base := MEM_CORR, run := fun _ => clearRead MEM_CORR },
   { base := SNK_DISC, run := fun _ => clearRead SNK_DISC },
   { base := SNK_DROP 0, stride := SNK_DROP 1 - SNK_DROP 0, cnt := 4, run := fun c => clearRead (SNK_DROP c) },
   { base := OWN_SIGN_RESULT, run := fun _ => rdSignResult },
   { base := OWN_LEASE, run := fun _ s => s.retData [leaseReg s] }]

/-- A read of an aligned register address. -/
def regRead (q : Rq) (a : Nat) (s : State) : State :=
  if 0x40900000 ≤ a ∧ a < 0x40910000 then gatedRead q a (fun s => s.retData [celWord a s]) s
  else match hookAt readHooks a with
    | some f => gatedRead q a f s
    | none => gatedRead q a (plainRead a) s

/-! ## The bus -/

/-- Data words as bytes (R4). -/
def wordBytes (l : List Word) : List Byte := l.flatMap fun w => leBytes 4 w.toNat

/-- A register access leaves its completion in the reply. -/
def fromReply (s : State) : State × Code × List Byte := (s, s.reply.code, wordBytes s.reply.data)

/-- A data window accepts 4 and 8 bytes, aligned (R6). -/
def windowAligned (a n : Nat) : Bool := (n = 4 || n = 8) && decide (a % n = 0)

/-- A read outside register space, at the address that an alias names. -/
def windowRead (q : Rq) (a n : Nat) (s : State) : State × Code × List Byte :=
  match region a with
  | .rom =>
    if !memAligned a n then (s, .align, [])
    else if !mayRead q a s then (s, .notOwner, List.replicate n 0)
    else (s, .done, (List.range n).map fun i => Config.romByte (a + i))
  | .stoFifo =>
    if !windowAligned a n then (s, .align, [])
    else if fencedAt a s then (s, .fenced, [])
    else if !mayRead q a s then (s, .notOwner, List.replicate n 0)
    else ((stoPop n s).1, .done, (stoPop n s).2)
  | .celRing =>
    if !windowAligned a n then (s, .align, [])
    else if !mayRead q a s then (s, .notOwner, List.replicate n 0)
    else (s, .done, wordBytes ((List.range (n / 4)).map fun i => celWord (a + 4 * i) s))
  | _ => match unitOf a with
    | some u => memBusRead u q a n s
    | none => (s, .bus, [])

/-- The target does not complete the access of `q` to `a` (R348): it ends ERR_TIMEOUT without an effect (R15). -/
def timedOut (q : Rq) (a : Nat) (write : Bool) (s : State) : State :=
  completed q a write .timeout (request q a { s with stuck := s.stuck.erase (q, a) })

/-- A read on the bus: the state, the completion code and the bytes. -/
def busRead (q : Rq) (a n : Nat) (s : State) : State × Code × List Byte :=
  match resolve q a s with
  | none => (s, .bus, [])
  | some a =>
    if s.stuck.contains (q, a) then (timedOut q a false s, .timeout, [])
    else if region a = .regs ∧ n = 4 ∧ a % 4 = 0 then fromReply (regRead q a s)
    else if region a = .regs then (request q a s, .align, [])
    else
      let r := windowRead q a n (request q a s)
      (completed q a false r.2.1 r.1, r.2.1, r.2.2)

/-- A write outside register space; no code for a core's narrow store to memory, which completes later. -/
def windowWrite (q : Rq) (a : Nat) (bytes : List Byte) (s : State) : State × Option Code :=
  let n := bytes.length
  let outside := q.cls ≠ 0 && !isOwner q s
  match region a with
  | .rom =>
    if !memAligned a n then (s, some .align)
    else if outside then (logRefusal q a .notOwner s, some .notOwner) else (s, some .state)
  | .stoFifo =>
    if !windowAligned a n then (s, some .align)
    else if fencedAt a s then (s, some .fenced)
    else if outside then (logRefusal q a .notOwner s, some .notOwner)
    else (stoPush bytes s, some .done)
  | _ => match unitOf a with
    | some u => memBusWrite u q a bytes s
    | none => (s, some .bus)

/-- The state left by a register write, with the reply's code. -/
def writeReply (s : State) : State × Option Code := (s, some s.reply.code)

/-- A write on the bus; no code for a core's narrow store to memory, which completes later. -/
def busWrite (q : Rq) (a : Nat) (bytes : List Byte) (s : State) : State × Option Code :=
  match resolve q a s with
  | none => (s, some .bus)
  | some a =>
    let n := bytes.length
    if s.stuck.contains (q, a) then (timedOut q a true s, some .timeout)
    else if mgmtLimits q a s then (completed q a true .state (request q a s), some .state)
    else if region a = .regs ∧ n = 4 ∧ a % 4 = 0 then writeReply (regWrite q a (BitVec.ofNat 32 (leVal bytes)) s)
    else if region a = .celRing ∧ windowAligned a n then writeReply (celWrite q (a / 4 * 4) 0 s)
    else if region a = .regs ∨ region a = .celRing then (request q a s, some .align)
    else
      let r := windowWrite q a bytes (request q a s)
      match r.2 with
      | some c => (completed q a true c r.1, some c)
      | none => r

/-- The core below level K whose write of a whole word to `a` R12 refuses. -/
def refusedWrite (q : Rq) (a : Nat) (w : Word) (s : State) : Option Nat :=
  match resolve q a s with
  | some a =>
    if region a = .regs ∧ a % 4 = 0 ∧ ¬(0x40900000 ≤ a ∧ a < 0x40910000) then refusedCore q (writeGate q a (fieldsAt a) w s) else none
  | none => none

/-- The request of `q` to `a` waits at its port (R380). -/
def rqWaits (q : Rq) (a : Nat) (s : State) : Bool :=
  (resolve q a s).any fun b => portWaits b s && !fencedAt b s && !portFenced q b s

/-- A write that is a command by itself: its code is the reply, and a core below level K takes the privilege trap of R12. -/
def writeServe (q : Rq) (a : Nat) (bytes : List Byte) (s : State) : State :=
  let r := busWrite q a bytes s
  let c := if bytes.length = 4 then refusedWrite q a (BitVec.ofNat 32 (leVal bytes)) s else none
  (raisePriv c a r.1).ret (r.2.getD .done)

def writeCmd (q : Rq) (a : Nat) (bytes : List Byte) (s : State) : State :=
  if q = .host && !mgmtAlive s then s
  else if rqWaits q a s then park (.write q a bytes) s
  else writeServe q a bytes s

/-- A posted store of core c to `a` that has no completion yet ends ERR_TIMEOUT (R348); its merge entry no longer waits for it. -/
def storeTimeout (c a : Nat) (s : State) : State :=
  let rec drop : List (Nat × Nat) → List (Nat × Nat)
    | [] => []
    | x :: t => if x = (c, a) then t else x :: drop t
  let s := postedCode c a .timeout false s
  { s with merge := s.merge.map fun l => l.map fun e => { e with who := drop e.who } }

/-- The request of `q` to system address `a` that its target does not complete is a posted store in flight. -/
def storeWaits (q : Rq) (a : Nat) (s : State) : Bool :=
  match q with
  | .core c _ => (s.cpu c).posted.any fun p => decide (p.sys = a) && decide (p.code = none)
  | _ => false

/-- TARGET_TIMEOUT: the target at system address `a` does not complete a request of `q`: a posted store in flight, else the next
access of `q` to `a`, be it a fetch, a load, a store or an access of an outside master (R348, log 172). -/
def targetTimeout (q : Rq) (a : Nat) (s : State) : State :=
  if storeWaits q a s then storeTimeout q.coreNo a s
  else { s with stuck := if s.stuck.contains (q, a) then s.stuck else (q, a) :: s.stuck }

/-- The requester is itself fenced, so that a reply to it is discarded (R323): a core in RESET or in its swap window, SC in a reset
that reaches it or in stop, DMA in its block reset. -/
def rqFenced (q : Rq) (s : State) : Bool :=
  match q with
  | .core c _ => (decide (c < 13) && s.on (OWN_CORE_STAT_fenced c)) ||
      (decide (c = 12) && (!s.rst.released || s.rst.wide || fullHeld s || s.stop))
  | .dma _ => blkHeld 21 s
  | _ => false

/-- STALE_REPLY: a reply with the stale tag, to an access at `a`, reaches a core or a DMA channel (R322, R332, R354). -/
def staleReply (q : Rq) (a : Nat) (s : State) : State :=
  let s := pmcCount 5 1 (rqMst q) { lvl := rqLvl q, addr := some a } s
  if rqFenced q s then s
  else match q with
  | .core c _ => if c < 13 then (s.addSat (OWN_CORE_STAT_stale c) 1).raise 23 else s
  | .dma c => updDma c (fun d => { d with stale := true }) (s.set (DMA_CH_STAT_stale c) 1)
  | _ => s

/-! ## Meanings -/

def execRegisterWrite (q : Rq) (a : Nat) (w : Word) (s : State) : Out := .next (writeCmd q a (leBytes 4 w.toNat) s)
def execTargetTimeout (q : Rq) (a : Nat) (s : State) : Out := .next (targetTimeout q a s)
def execStaleReply (q : Rq) (a : Nat) (s : State) : Out := .next (staleReply q a s)

/-- SHELF_WRITE: 1, 2, 4, 8 or 32 bytes into a shelf (R312). -/
def execShelfWrite (q : Rq) (c : Fin 13) (sh : Fin 2) (o : Nat) (bytes : List Byte) (s : State) : Out :=
  .next (if o + bytes.length ≤ shelfSize c then writeCmd q (shelfBase c sh + o) bytes s else s)

end Sys2Proof.Machine
end

