-- ==== Sys2Proof/Machine/Dma.lean ====
section
/-! DEFINITION. The DMA channels' descriptors, bursts and errors (R349 to R357). -/

namespace Sys2Proof.Machine

/-- No channel works: DMA is held, or its clock is stopped (R380). -/
def dmaHeld (s : State) : Bool := blkHeld 21 s || s.on CRP_CLK_STAT_sys_gated

/-! ## Descriptors -/

/-- The code with which a descriptor's check ends, `done` where it passes (R350). -/
def descCode (d : List Byte) : Code :=
  let src := leVal (d.take 4)
  let dst := leVal ((d.drop 4).take 4)
  let len := leVal ((d.drop 8).take 4)
  let ctl := leVal ((d.drop 12).take 4)
  let next := leVal ((d.drop 16).take 4)
  let last := leVal ((d.drop 28).take 4)
  if src % 8 ≠ 0 ∨ dst % 8 ≠ 0 ∨ len % 8 ≠ 0 ∨ next % 32 ≠ 0 then .align
  else if len % 2 ^ 28 = 0 ∨ len / 2 ^ 28 ≠ 0 ∨ ctl / 2 ^ 16 ≠ 0 ∨ last ≠ 0 ∨ 3 < ctl / 2 ^ 10 % 32 then .range
  else .done

/-- The descriptor's fields are loaded and the channel runs or waits. -/
def descLoad (c a : Nat) (d : List Byte) (s : State) : State :=
  let s := (s.wr (DMA_CH_SRC c) (wordAt d 0)).wr (DMA_CH_DST c) (wordAt d 4)
  let s := s.set (DMA_CH_COUNT_count c) (leVal ((d.drop 8).take 4))
  let s := updDma c (fun k => { k with ctl := wordAt d 12, next := leVal ((d.drop 16).take 4), cur := a, stale := false, fresh := true }) s
  chGo c s

/-- DESCRIPTOR_FETCH. -/
def descFetch (c : Nat) (s : State) : State :=
  if chState c s ≠ 1 ∨ dmaHeld s then s
  else
    let a := s.get (DMA_CH_DESC_desc c)
    let r := busRead (.dma c) a 32 s
    if r.2.1 ≠ .done then chHalt c r.2.1 3 false r.1
    else if descCode r.2.2 ≠ .done then chHalt c (descCode r.2.2) 3 false r.1
    else descLoad c a r.2.2 r.1

/-! ## Bursts -/

/-- The eight bytes of a beat after the swap (R353). -/
def swapBeat (m : Nat) (b : List Byte) : List Byte :=
  let at' := fun (l : List Nat) => l.map fun i => nth b i
  match m with
  | 1 => at' [1, 0, 3, 2, 5, 4, 7, 6]
  | 2 => at' [3, 2, 1, 0, 7, 6, 5, 4]
  | 3 => at' [2, 3, 0, 1, 6, 7, 4, 5]
  | _ => b

/-- A beat issues: COUNT falls by 8 and the addresses advance. -/
def beatIssue (c : Nat) (s : State) : State :=
  let d := s.dch c
  let src := (s.rd (DMA_CH_SRC c)).toNat
  let dst := (s.rd (DMA_CH_DST c)).toNat
  let s := pmcCount 8 1 (some 3) { addr := some src } s
  let s := s.set (DMA_CH_COUNT_count c) (s.get (DMA_CH_COUNT_count c) - 8)
  let s := if d.srcFix then s else s.wr (DMA_CH_SRC c) (BitVec.ofNat 32 (src + 8))
  let s := if d.dstFix then s else s.wr (DMA_CH_DST c) (BitVec.ofNat 32 (dst + 8))
  updDma c (fun k => { k with src, dst, fresh := false }) s

/-- The error response `o` to the beat last issued, at address `a`: the last beat halts LAST_BEAT, any other BEAT. -/
def beatError (c a : Nat) (o : Code) (s : State) : State :=
  let s := s.set (DMA_CH_FADDR_faddr c) a
  if s.get (DMA_CH_COUNT_count c) = 0 then chHalt c .bus 5 true s else chHalt c o 4 true s

/-- The write of a beat is acknowledged with `o`. -/
def beatAck (c dst : Nat) (o : Code) (s : State) : State :=
  if o = .done then s
  else if s.get (DMA_CH_COUNT_count c) = 0 ∧ !(s.dch c).barrier then updDma c (fun k => { k with posted := some o }) s
  else beatError c dst o s

/-- One beat; `bad` is an error with which its read response comes. -/
def beat (c : Nat) (bad : Option Code) (s : State) : State :=
  let s := beatIssue c s
  let d := s.dch c
  match bad with
  | some o => beatError c d.src o s
  | none =>
    let r := busRead (.dma c) d.src 8 s
    if r.2.1 ≠ .done then beatError c d.src r.2.1 r.1
    else
      let w := busWrite (.dma c) d.dst (swapBeat d.swap r.2.2) r.1
      beatAck c d.dst (w.2.getD .done) w.1

/-- Up to n beats, while the channel runs and bytes are left; after `k` further beats the read response `bad` comes. -/
def beats (c : Nat) (bad : Option (Nat × Code)) : Nat → Nat → State → State
  | 0, _, s => s
  | n + 1, i, s =>
    if chState c s ≠ 2 ∨ s.get (DMA_CH_COUNT_count c) = 0 then s
    else
      let e := bad.bind fun b => if b.1 = i then some b.2 else none
      beats c bad n (i + 1) (beat c e s)

/-- The beats of the next burst. -/
def burstLen (c : Nat) (s : State) : Nat := min (s.dch c).beats (s.get (DMA_CH_COUNT_count c) / 8)

/-- A burst starts, or the channel waits for its line. -/
def burst (c : Nat) (bad : Option (Nat × Code)) (s : State) : State :=
  if chState c s ≠ 2 ∨ dmaHeld s then s
  else if !lineOn (s.dch c).req s then s.set (DMA_CH_STAT_state c) 3
  else beats c bad (burstLen c s) 0 s

/-- DMA_REQUEST_LINE: line r is asserted; the channels that wait for it run. -/
def reqLine (r : Nat) (s : State) : State :=
  if !lineOn r s ∨ dmaHeld s then s
  else forN 32 (fun c s => if chState c s = 3 ∧ (s.dch c).req = r then s.set (DMA_CH_STAT_state c) 2 else s) s

/-- DESCRIPTOR_RETIRE: every response has returned. -/
def retire (c : Nat) (s : State) : State :=
  if chState c s = 2 ∧ s.get (DMA_CH_COUNT_count c) = 0 ∧ !dmaHeld s then chRetire c s else s

/-- DMA_POSTED_ERROR: an error write acknowledgement of a descriptor that has retired without barrier. -/
def postedError (c : Nat) (o : Code) (s : State) : State :=
  let t := chState c s
  let d := s.dch c
  if o ≠ .done ∧ d.loose ∧ (t = 0 ∨ t = 1 ∨ ((t = 2 ∨ t = 3) ∧ d.fresh)) ∧ !dmaHeld s then
    chHalt c o 6 (s.freeVal 1 = 1) (updDma c (fun k => { k with loose := false }) s.freeNext)
  else s

/-- DMA_LAST_BEAT_ERROR: an error response to the last beat, of its read or, with barrier, of its write. -/
def lastBeatError (c : Nat) (write : Bool) (s : State) : State :=
  let d := s.dch c
  if chState c s = 2 ∧ s.get (DMA_CH_COUNT_count c) = 0 ∧ (!write || d.barrier) ∧ !dmaHeld s then
    beatError c (if write then d.dst else d.src) .bus s
  else s

/-- DMA_WITHDRAW: the paced peripheral withdraws after k beats of a burst; the beats after them are empty (R357). -/
def withdraw (c k : Nat) (s : State) : State :=
  let d := s.dch c
  if chState c s ≠ 2 ∨ dmaHeld s ∨ d.req = 0 ∨ !lineOn d.req s then s
  else
    let n := burstLen c s
    let s := beats c none (min k n) 0 s
    if chState c s ≠ 2 ∨ n ≤ k then s
    else
      let a := (s.rd (DMA_CH_SRC c)).toNat
      let s := forN (n - k) (fun _ s => beatIssue c s) s
      chHalt c .withdrawn 0 true ((s.set (DMA_CH_STAT_empty c) (n - k)).set (DMA_CH_FADDR_faddr c) a)

/-! ## Meanings -/

def dmaWrite (q : Rq) (c op : Nat) (s : State) : Out :=
  let w := force 0 (DMA_CH_CMD_op c) op
  .next (gated q (DMA_CH_CMD c) DMA_CH_CMD_fs w (wrDmaCmd c w) s)

def execDmaStart (q : Rq) (c : Fin 32) (s : State) : Out := dmaWrite q c 1 s
def execDmaStop (q : Rq) (c : Fin 32) (s : State) : Out := dmaWrite q c 2 s
def execDmaResume (q : Rq) (c : Fin 32) (s : State) : Out := dmaWrite q c 3 s
def execDescriptorFetch (c : Fin 32) (s : State) : Out := .next (descFetch c s)
def execDmaBurst (c : Fin 32) (s : State) : Out := .next (burst c none s)
def execDmaRequestLine (r : Fin 32) (s : State) : Out := .next (reqLine r s)
def execDescriptorRetire (c : Fin 32) (s : State) : Out := .next (retire c s)

/-- A burst whose beat k is answered with an error (a code other than DONE) by its source. -/
def execDmaReadError (c : Fin 32) (k : Fin 16) (o : Code) (s : State) : Out :=
  .next (if o = .done then s else burst c (some (k, o)) s)

def execDmaPostedError (c : Fin 32) (o : Code) (s : State) : Out := .next (postedError c o s)
def execDmaLastBeatError (c : Fin 32) (write : Bool) (s : State) : Out := .next (lastBeatError c write s)
def execDmaWithdraw (c : Fin 32) (k : Fin 16) (s : State) : Out := .next (withdraw c k s)

end Sys2Proof.Machine
end

