-- ==== Sys2Proof/Machine/Stop.lean ====
section
/-! DEFINITION. Stop entry, the larder list, wake and the forced stop (R409 to R416, R426). -/

namespace Sys2Proof.Machine

/-! ## Conditions (R409, R415) -/

/-- The wake sources that are active. `pins`: bit n, line lane n receives 50 mV; bit 8, a START on the management bus; bit 9, VDDIO
below 1.62 V; bit 10, the level of EXT_WAKE. -/
def wakeActive (pins : Nat) (s : State) : Nat :=
  (decide (pins % 256 &&& s.get PWR_WAKE_EN_opt_lanes ≠ 0)).toNat + 2 * (pins / 256 % 2) + 4 * (pins / 512 % 2) +
    8 * (decide (pins / 1024 % 2 = s.get PWR_WAKE_EN_ext_pol)).toNat + 16 * (decide ((s.rd PWR_ALARM).toNat ≤ s.clk.aon / 2 ^ 40)).toNat

/-- An enabled wake source is active. -/
def wakeAny (pins : Nat) (s : State) : Bool := decide (wakeActive pins s &&& s.get PWR_WAKE_EN_en ≠ 0)

/-- An event is pending and enabled for SC (R325, R326). -/
def scEvent (s : State) : Bool := (nextFor 12 s).isSome

/-- The first condition of R409 that fails, by its reason number; 0 for none. -/
def stopReason (pins : Nat) (s : State) : Nat :=
  if (List.range 8).any fun n => s.on (FRM_LANE_CTRL_up n) || decide (hostState n s ≠ 0) then 1
  else if ((List.range 128).any fun k => decide (admState k s ≠ 0)) || ((List.range 2).any fun c => decide (lstState c s ≠ 0)) ||
      ((List.range 4).any fun n => decide (seqState n s ≠ 0)) then 2
  else if ((List.range 12).any fun c => decide (coreState c s ≠ 0)) || s.load.isSome then 3
  else if ((List.range 32).any fun c => decide (1 ≤ chState c s) && decide (chState c s ≤ 3)) || decide (s.sto.op ≠ 0) ||
      s.on STO_NOR_RESULT_busy then 4
  else if scEvent s || wakeAny pins s then 5
  else 0

/-- SC stays or leaves its WAIT: the pc goes to the next instruction. -/
def waitDone (s : State) : State := updCpu 12 (fun k => { k with pc := k.pc + 4, wait := .run }) s

/-- WAIT at level K with PWR_MODE.mode = 1: the entry begins, or WAIT completes with the reason. -/
def stopWait (pins : Nat) (s : State) : State :=
  let r := stopReason pins s
  if r ≠ 0 then waitDone ((s.set PWR_STAT_outcome Code.state.n).set PWR_STAT_reason r)
  else updPwr (fun p => { p with st := 1 }) (updCpu 12 (fun k => { k with wait := .wait }) s)

/-- The entry is abandoned before step 3 and WAIT completes (R410). -/
def stopAbandon (s : State) : State :=
  let s := (s.set PWR_STAT_outcome Code.aborted.n).set PWR_STAT_reason 6
  waitDone (updPwr (fun p => { p with st := 0, saved := none }) s)

/-! ## The larder list (R412, R413) -/

/-- Entry i of the list; none where it is skipped. An entry that cannot be read names no register. -/
def larderEntry (i : Nat) (s : State) : State × Option Nat :=
  let r := memRead 14 .larder (0x50000000 + 4 * i) 4 s
  let a := leVal r.2.2
  let skip := decide (r.2.1 ≠ .done) || decide (a % 4 ≠ 0) || decide (a < 0x20000000) || decide (0x40B0FFFF < a) ||
    (decide (0x40000000 ≤ a) && decide (a < 0x40003000)) || (decide (0x40900000 ≤ a) && decide (a < 0x40910000))
  (r.1, if skip then none else some a)

/-- Entry i is saved; a value that its read does not return is free. -/
def larderSave (i : Nat) (s : State) : State :=
  let e := larderEntry i s
  match e.2 with
  | none => e.1.addSat PWR_LARDER_skipped 1
  | some a =>
    let r := busRead .larder a 4 e.1
    let v := if r.2.2.length = 4 then (r.1, r.2.2) else (r.1.freeNext, leBytes 4 (r.1.freeVal 32))
    (memWrite 14 .larder (0x50002000 + 4 * i) v.2 v.1).1

/-- Every entry is saved. -/
def larderSaveAll (s : State) : State := forN (s.get PWR_LARDER_count) larderSave (s.set PWR_LARDER_skipped 0)

/-- Entry i is restored; a write that does not end DONE is counted. -/
def larderRestore (i : Nat) (s : State) : State :=
  let e := larderEntry i s
  match e.2 with
  | none => e.1
  | some a =>
    let v := memRead 14 .larder (0x50002000 + 4 * i) 4 e.1
    let r := if v.2.1 = .done then busWrite .larder a v.2.2 v.1 else (v.1, some v.2.1)
    match r.2 with
    | some .done => r.1
    | o =>
      let s := if r.1.get PWR_LARDER_failed = 0 then
          (r.1.set PWR_LARDER_FAIL_first_fail i).set PWR_LARDER_FAIL_code (o.getD .done).n
        else r.1
      s.addSat PWR_LARDER_failed 1

/-- Every entry is restored, in ascending order. -/
def larderRestoreAll (s : State) : State :=
  forN (s.get PWR_LARDER_count) larderRestore ((s.set PWR_LARDER_failed 0).wr PWR_LARDER_FAIL 0)

/-! ## Entry (R410) -/

/-- Power-down of the clocks: the ready bits of the PLLs and of FOSC fall (R370, R372). -/
def clocksDown (s : State) : State :=
  let s := (forN 4 pllFall s).set CRP_CLK_STAT_fosc_ready 0
  updClk (fun c => { c with discBad := true, awake := 0, cold := [0, 1, 2, 3] }) s

/-- The part is in stop, or not. -/
def setStop (b : Bool) (s : State) : State := { s with stop := b }

/-- Step 4 itself: every domain but the always-on one goes down. The registers outside CRP return to their reset values (R416 step 3)
but for what the chapters keep through stop; the memories keep their contents; where SC's state has been saved, so are its
shelf and its armed swap. -/
def stopDown (s : State) : State :=
  let act := s.get (OWN_CORE_STAT_active 12)
  let arm := s.get (OWN_CORE_STAT_armed 12)
  let s := clocksDown (romQuiet (portsFenced s))
  let s := forN 15 (fun u s => (retireIf u (fun _ => true) s).1) s
  let s := blockDown false 26 s
  let s := forN 23 (fun b s => blockDown false b s) s
  let s := blockDown false 25 (blockDown false 24 (resetSnk true s))
  let s := (resetGrd s).wr RPT_CEIL (resetWord RPT_CEIL)
  let s := updPwr (fun p => { p with st := 4 }) (setStop true s)
  let s := resetEvr (resetMem (resetOwn false false (resetCores s)))
  if s.pwr.saved.isSome then (s.set (OWN_CORE_STAT_active 12) act).set (OWN_CORE_STAT_armed 12) arm else s

/-! ## Wake begins (R415, R416) -/

/-- Steps 1 to 4 of the wake begin. -/
def wakeUp (pins : Nat) (s : State) : State :=
  let s := (s.set PWR_STAT_wake_src (wakeActive pins s)).set PWR_MODE_mode 0
  let s := (s.set CRP_SYS_SEL_src 0).set CRP_CLK_STAT_sys_src 0
  let s := updPwr (fun p => { p with st := 5, wake := none }) (setStop false s)
  let s := updRst (fun r => { r with atticBusy := true }) (s.set CRP_ATTIC_STAT_done 0)
  let s := forN 27 blockUp s
  if s.on PWR_MODE_avs_ret then avsHardware ⟨0, s.get PWR_AVS_CTRL_run_mv, 2, none⟩ s else s

/-- WAKE_SOURCE_QUALIFIED: in stop the wake begins; during steps 3 and 4 of the entry the source is kept for their end (R410). -/
def wakeStart (pins : Nat) (s : State) : State :=
  if !wakeAny pins s then s
  else if s.pwr.st = 4 then wakeUp pins s
  else if s.pwr.st = 2 ∨ s.pwr.st = 3 then updPwr (fun p => { p with wake := some pins }) s
  else s

/-- A wake source that has become active during steps 3 and 4 wakes the part at their end. -/
def wakeLatched (s : State) : State :=
  match s.pwr.wake with
  | some pins => wakeUp pins s
  | none => s

/-- Step 4. -/
def powerDown (s : State) : State := wakeLatched (stopDown s)

/-! ## Entry goes on (R410) -/

/-- A clock of the system domain runs: no switch is in progress, and it is not gated. -/
def sysSteady (s : State) : Bool := s.clk.sw.isNone && !s.on CRP_CLK_STAT_sys_gated

/-- Step 4 waits for the retention request, for a measurement in progress and for a supply request of firmware (R419, R422). -/
def stopGo (s : State) : State :=
  if s.pwr.st = 3 ∧ s.pwr.meas.isNone ∧ s.pwr.avs.isNone ∧ sysSteady s then powerDown s else s

/-- Step 3: the retention request, if avs_ret = 1. -/
def stopStep3 (s : State) : State :=
  if s.on PWR_MODE_avs_ret then
    avsHardware ⟨0, s.get PWR_AVS_CTRL_ret_mv, 1, none⟩ (updPwr (fun p => { p with st := 2 }) s)
  else stopGo (updPwr (fun p => { p with st := 3 }) s)

/-- STOP_ENTRY: SC's state and the list are saved and the part goes to stop, unless an event or a wake source abandons the entry.
The manual does not lay out the saved state in the larder: its bytes there are free. -/
def stopEntry (pins : Nat) (s : State) : State :=
  if s.pwr.st ≠ 1 ∨ s.pwr.forced ∨ !sysSteady s then s
  else if scEvent s ∨ wakeAny pins s then stopAbandon s
  else
    let k := s.cpu 12
    let s := putFree 0x5000F000 0x400 (updPwr (fun p => { p with saved := some { k with pc := k.pc + 4, wait := .run } }) s)
    let s := larderSaveAll s
    if scEvent s ∨ wakeAny pins s then stopAbandon s else stopStep3 s

/-- The forced stop begins: no SC state is saved (R426). -/
def forcedStop (s : State) : State :=
  stopStep3 (larderSaveAll (updPwr (fun p => { p with forced := true, saved := none, shut := false }) s))

/-- SHUTDOWN_STOP: shut_ms has passed. An entry past step 2, and a stop, become a forced one; a wake, a switch or the gating of the clock
in progress ends first. -/
def shutdownStop (s : State) : State :=
  if !s.pwr.shut ∨ fullHeld s then s
  else match s.pwr.st with
    | 2 | 3 | 4 => updPwr (fun p => { p with shut := false, forced := true, saved := none }) s
    | 5 => updPwr (fun p => { p with shut := false, shutAfter := true }) s
    | _ => if sysSteady s then forcedStop s else updPwr (fun p => { p with shut := false, shutAfter := true }) s

/-- The clock of the system domain has started: what waited for it goes on. -/
def stopOn (s : State) : State :=
  if s.pwr.shutAfter ∧ s.pwr.st ≤ 1 ∧ sysSteady s ∧ !fullHeld s then forcedStop (updPwr (fun p => { p with shutAfter := false }) s)
  else stopGo s

/-! ## Wake (R416) -/

/-- SC resumes or restarts: woke, PWR_WAKE, and ATTIC_WARN where one copy is invalid. A forced stop that fell due meanwhile
begins. -/
def woken (s : State) : State :=
  let s := atticWarn (pwrEvt 4 (s.set PWR_STAT_woke 1))
  if s.pwr.shutAfter then forcedStop (updPwr (fun p => { p with shutAfter := false }) s) else s

/-- Step 6: the die sensors are measured, with a demand that waited, and the thresholds evaluated. -/
def wakeMeasure (temps : List Int) (s : State) : State :=
  let mask := 255 ||| s.pwr.measNext
  thMeasEnd temps (measStart mask (updPwr (fun p => { p with measNext := 0 }) (s.set TH_CMD_pending 0)))

/-- WAKE_RESUME: steps 5 to 7, once FOSC, the voltage and the attic load allow. Without a valid copy the part is in safe hold
(R402). -/
def wakeResume (temps : List Int) (s : State) : State :=
  if s.pwr.st ≠ 5 ∨ s.pwr.avs.isSome ∨ s.pwr.meas.isSome ∨ !s.on CRP_CLK_STAT_fosc_ready ∨ s.rst.atticBusy ∨ fullHeld s then s
  else if s.on CRP_ATTIC_STAT_hold then
    romStart (updPwr (fun p => { p with st := 0, forced := false, saved := none }) (cpuReset 12 s))
  else
    let s := wakeMeasure temps (larderRestoreAll s)
    if s.pwr.forced then
      let s := s.set PWR_STAT_forced 1
      if s.on TH_STAT_shutdown then powerDown (updPwr (fun p => { p with shut := false }) (s.addSat PWR_STAT_re_stops 1))
      else woken (romStart (updPwr (fun p => { p with st := 0, forced := false }) (cpuReset 12 s)))
    else
      let k := s.pwr.saved.getD (s.cpu 12)
      let s := updPwr (fun p => { p with st := 0, saved := none }) (updCpu 12 (fun _ => k) s)
      woken ((s.set PWR_STAT_outcome Code.done.n).set PWR_STAT_reason 0)

/-! ## Meanings -/

def execStopEntry (pins : BitVec 11) (s : State) : Out := .next (stopEntry pins.toNat s)
def execWakeSourceQualified (pins : BitVec 11) (s : State) : Out := .next (wakeStart pins.toNat s)
def execWakeResume (temps : List Int) (s : State) : Out := .next (wakeResume temps s)
def execShutdownStop (s : State) : Out := .next (shutdownStop s)

/-- A response to the Voltage write in progress: its AckCode, whether a later Status read shows VDone, and the voltage read back. -/
def execAvsResponse (ack : BitVec 2) (vdone : Bool) (mv : Option (BitVec 16)) (s : State) : Out :=
  .next (stopGo (avsResponse ack.toNat vdone (mv.map BitVec.toNat) s))

def execAvsAttemptTimeout (s : State) : Out := .next (stopGo (avsTimeout s))
def execThermalMeasurementEnd (temps : List Int) (s : State) : Out := .next (stopGo (thMeasEnd temps s))

end Sys2Proof.Machine
end

