-- ==== Sys2Proof/Machine/IsaBase.lean ====
section
/-! DEFINITION. What the instructions of the cores share (chapter 10): which core executes, the fetch, registers, the words of the
formats (R276), traps (R299 to R301), retirement and the counters (R331), posted stores (R286). -/

namespace Sys2Proof.Machine

/-! ## Cores -/

/-- The core executes instructions: RUNNING, out of reset, stop and logic slices, with its clock. The cellar core runs while the
cellar is powered. -/
def coreRuns (c : Nat) (s : State) : Bool :=
  if c = 13 then decide (celState s ≠ 0)
  else if c = 12 then scRuns s && !inSlice 12 s
  else decide (coreState c s = 1) && !fullHeld s && !s.rst.wide && !s.stop && !s.on CRP_CLK_STAT_sys_gated && !inSlice c s

/-- The core can issue its next instruction. -/
def coreIssues (c : Nat) (s : State) : Bool := coreRuns c s && decide ((s.cpu c).wait = .run)

/-- Extensions (R278). -/
def hasV (c : Nat) : Bool := decide (c < 8)
def hasC (c : Nat) : Bool := decide (8 ≤ c) && decide (c < 12)
def hasK (c : Nat) : Bool := decide (c = 12)

/-- The requester that the core is at its level. -/
def coreRq (c : Nat) (s : State) : Rq := .core c (match (s.cpu c).lvl with | 0 => .u | 1 => .s | _ => .k)

/-! ## Registers (R274) -/

/-- General register r as it reads. -/
def getW (c r : Nat) (s : State) : Word := if r = 0 then 0 else nth (s.cpu c).w r

/-- A write of general register r; w0 discards it. -/
def setW (c r : Nat) (v : Word) (s : State) : State :=
  if r = 0 then s else updCpu c (fun k => { k with w := upd k.w r fun _ => v }) s

/-- Vector register r. -/
def getV (c r : Nat) (s : State) : List Word := nth (s.cpu c).v r
def setV (c r : Nat) (v : List Word) (s : State) : State := updCpu c (fun k => { k with v := upd k.v r fun _ => v }) s

/-! ## Instruction words (R276) -/

def wordA (fn rd rs1 rs2 : Nat) : Word := BitVec.ofNat 32 (2 ^ 21 * rd + 2 ^ 16 * rs1 + 2 ^ 11 * rs2 + fn)
def wordI (op rd rs1 imm : Nat) : Word := BitVec.ofNat 32 (2 ^ 26 * op + 2 ^ 21 * rd + 2 ^ 16 * rs1 + imm)
def wordM (op rt rb sz sx off : Nat) : Word :=
  BitVec.ofNat 32 (2 ^ 26 * op + 2 ^ 21 * rt + 2 ^ 16 * rb + 2 ^ 14 * sz + 2 ^ 13 * sx + off)
def wordX (op xd xa xb fn sel : Nat) : Word :=
  BitVec.ofNat 32 (2 ^ 26 * op + 2 ^ 21 * xd + 2 ^ 16 * xa + 2 ^ 11 * xb + 2 ^ 3 * fn + sel)

/-- The system instructions of format I, major opcode 0x3C: sub-operation in imm[15:12]. -/
def wordS (sub rd rs1 imm : Nat) : Word := wordI 0x3C rd rs1 (4096 * sub + imm)

/-! ## Counters (R331) -/

/-- An occurrence at the counters of cores 0 to 12. -/
def tally (c evt : Nat) (o : Occ) (s : State) : State := if c < 13 then count c evt 1 o s else s

/-- The level of core c, for the counters. -/
def lvlOcc (c : Nat) (s : State) : Occ := { lvl := some (s.cpu c).lvl }

/-- The instruction at pc retires (R331): what the counters see of it. -/
def retireOcc (c : Nat) (s : State) : Occ :=
  { lvl := some (s.cpu c).lvl, addr := some (s.cpu c).pc.toNat, pc := some (s.cpu c).pc }

/-- The instruction at pc retires and execution goes on at `t`. -/
def goTo (c : Nat) (t : Word) (s : State) : State := tally c 2 (retireOcc c s) (updCpu c (fun k => { k with pc := t }) s)

/-- The instruction retires and the next one follows (R275). -/
def goOn (c : Nat) (s : State) : State := goTo c ((s.cpu c).pc + 4) s

/-- A taken branch or jump. -/
def jump (c : Nat) (t : Word) (s : State) : State := goTo c t (tally c 5 (lvlOcc c s) s)

/-! ## Traps (R299, R300) -/

/-- What a trap records: code, info, event, more, async, tval, the vector's offset and the EPC. -/
structure Trap where
  code : Nat
  info : Nat := 0
  ev : Nat := 0
  more : Bool := false
  async : Bool := false
  tval : Word := 0
  vec : Nat := 0
  epc : Word

/-- The CAUSE word of a trap. -/
def Trap.cause (t : Trap) : Word :=
  BitVec.ofNat 32 (t.code + 2 ^ 8 * t.info + 2 ^ 16 * t.ev + 2 ^ 30 * t.more.toNat + 2 ^ 31 * t.async.toNat)

/-- Core c's registers after a trap: into K for NMI and KCALL and from level K, else into S. -/
def Cpu.trapped (k : Cpu) (t : Trap) : Cpu :=
  if t.code = 0x11 ∨ t.code = 0x12 ∨ k.lvl = 2 then
    { k with kepc := t.epc, kcause := t.cause, ktval := t.tval, kplvl := k.lvl, kpie := k.ie, ie := false, lvl := 2,
             nmiAct := k.nmiAct || decide (t.code = 0x11), pc := k.ktvec + BitVec.ofNat 32 t.vec, wait := .run }
  else
    { k with epc := t.epc, cause := t.cause, tval := t.tval, plvl := k.lvl, pie := k.ie, ie := false, lvl := 1,
             pc := k.tvec + BitVec.ofNat 32 t.vec, wait := .run }

/-- The trap is taken. -/
def takeTrap (c : Nat) (t : Trap) (s : State) : State :=
  let o := lvlOcc c s
  let s := tally c 8 o s
  let s := if t.code = 0x10 then tally c 9 o s else s
  updCpu c (fun k => k.trapped t) s

/-! ## Events (R297, R302, R303, R325, R326) -/

/-- SC would take a non-maskable event. -/
def nmiReady (c : Nat) (s : State) : Option Nat :=
  if c = 12 ∧ !(s.cpu 12).nmiAct ∧ !(s.cpu 12).nmiHold then nmiNext s else none

/-- The instruction at which an asynchronous trap is taken: the one after a WAIT, else the one at pc. -/
def asyncEpc (c : Nat) (s : State) : Word := if (s.cpu c).wait = .wait then (s.cpu c).pc + 4 else (s.cpu c).pc

/-- A stop entry that has not reached step 3 is abandoned by an event (R410). -/
def stopEvent (c : Nat) (s : State) : State := if c = 12 ∧ s.pwr.st = 1 then stopAbandon s else s

/-- The WAIT that a trap ends has retired (R295, R331). -/
def retireWait (c : Nat) (s : State) : State := if (s.cpu c).wait = .wait then tally c 2 (retireOcc c s) s else s

/-- An event trap: the pending bit is cleared at entry. -/
def eventTrap (c e : Nat) (s : State) : State :=
  let s := retireWait c (stopEvent c s)
  takeTrap c { code := 0x10, ev := e, async := true, vec := 0x100, epc := asyncEpc c s } (clearPend e s)

/-- The trap of a non-maskable event. -/
def nmiTrap (e : Nat) (s : State) : State :=
  let s := retireWait 12 (stopEvent 12 s)
  takeTrap 12 { code := 0x11, ev := e, async := true, vec := 0x200, epc := asyncEpc 12 s } (clearPend e s)

/-! ## Synchronous traps (R299, R301) -/

/-- Trap `t` of core c, unless a non-maskable event that SC would take comes first (R301). -/
def rankTrap (c : Nat) (t : Trap) (s : State) : State :=
  match nmiReady c s with
  | some e => nmiTrap e s
  | none => takeTrap c t s

/-- A synchronous trap of the instruction at pc. -/
def trap (c code info : Nat) (tval : Word) (s : State) : State :=
  rankTrap c { code, info, tval, epc := (s.cpu c).pc } s

def illegal (c : Nat) (word : Word) (s : State) : State := trap c 0 0 word s
def priv (c : Nat) (tval : Word) (s : State) : State := trap c 1 0 tval s

/-! ## Fetch (R284, R311) -/

/-- The fetch of the word at pc: its code and the word. The cellar core's program is the mask ROM's, a constant (R310). -/
def fetch (c : Nat) (s : State) : State × Code × Word :=
  let pc := (s.cpu c).pc.toNat
  let q := coreRq c s
  if c = 13 then (s, .done, BitVec.ofNat 32 (leVal ((List.range 4).map fun i => Config.cellarRomByte (pc + i))))
  else if pc % 4 ≠ 0 then (s, .align, 0)
  else if region pc = .shelfAlias ∨ region pc = .dataAlias then
    match resolve q pc s with
    | some a => match unitOf a with
      | some u =>
        if s.stuck.contains (q, a) then (timedOut q a false s, .timeout, 0)
        else
        let r := readWord u q (a / 8 * 8) s
        (r.1, r.2, BitVec.ofNat 32 (leVal (r.1.bytes a 4)))
      | none => (s, .bus, 0)
    | none => (s, .bus, 0)
  else
    let r := busRead q pc 4 s
    (r.1, r.2.1, BitVec.ofNat 32 (leVal r.2.2))

/-- A fetch that does not end DONE traps as FETCH_ECC or ACCESS. -/
def fetchTrap (c : Nat) (o : Code) (s : State) : State :=
  let pc := (s.cpu c).pc
  if o = .ecc then trap c 4 0 pc s else trap c 6 o.n pc (tally c 12 (lvlOcc c s) s)

/-- An instruction of core c, where it can issue: its fetch, then `f`. -/
def isa (c : Nat) (f : State → State) (s : State) : State :=
  if coreIssues c s then
    let r := fetch c s
    if r.2.1 = .done then f r.1 else fetchTrap c r.2.1 r.1
  else s

/-! ## Posted stores (R286) -/

/-- What the counters see of posted store p. -/
def Posted.occ (p : Posted) : Occ := { lvl := some p.lvl, addr := some p.a, pc := some p.pc }

/-- The completion of posted store p: an error waits to be taken, or sets more where one waits already; a stale completion is
counted and raises none (R322, R332). -/
def storeDone (c : Nat) (p : Posted) (stale : Bool) (s : State) : State :=
  match p.code with
  | none => s
  | some o =>
    if stale || p.stale then pmcCount 5 1 (rqMst (.core c .s)) p.occ s
    else if o = .done then s
    else storeErr c p.a o p.priv (tally c 12 p.occ s)

/-- STORE_COMPLETION: the oldest posted store that has a code completes. -/
def storeNext (c : Nat) (stale : Bool) (s : State) : State :=
  match (s.cpu c).posted.find? fun p => p.code.isSome with
  | none => s
  | some p => storeDone c p stale (updCpu c (fun k => { k with posted := k.posted.erase p }) s)

/-- Every earlier store of core c completes: its merge entries retire (R340), then the completions return. -/
def settle (c : Nat) (s : State) : State :=
  let s := drainCore c s
  (s.cpu c).posted.foldl (fun s _ => storeNext c false s) s

/-- The trap of the first failed store: STORE_ERR, or PRIV for a refusal under R12. A non-maskable event that comes first leaves it
pending (R301). -/
def storeTrap (c : Nat) (s : State) : State :=
  let k := s.cpu c
  match k.serr with
  | none => s
  | some e =>
    match nmiReady c s with
    | some n => nmiTrap n s
    | none =>
      takeTrap c { code := if e.priv then 1 else 7, info := e.code.n, more := k.more, async := true,
                   tval := BitVec.ofNat 32 e.a, epc := k.pc } (updCpu c (fun k => { k with serr := none, more := false }) s)

/-- FENCE, WAIT, EVWAIT, QPOINT and RETT wait for every posted store, and a failed one traps first; a store that has no
completion yet keeps the instruction waiting. -/
def afterStores (c : Nat) (f : State → State) (s : State) : State :=
  let s := settle c s
  if (s.cpu c).serr.isSome then storeTrap c s
  else if (s.cpu c).posted.isEmpty then f s
  else s

/-! ## Privilege of data accesses (R279) -/

/-- A data access of n bytes at a is allowed at the level: at U only the own data memory and the window. -/
def dataAllowed (c a n : Nat) (s : State) : Bool :=
  let k := s.cpu c
  decide (k.lvl ≠ 0) ||
    (decide (0x7F800000 ≤ a) && decide (a + n ≤ 0x7F800000 + dataSize c)) ||
    (decide (dataBase c ≤ a) && decide (a + n ≤ dataBase c + dataSize c)) ||
    (decide (k.uwinLo.toNat ≤ a) && decide (a + n ≤ k.uwinHi.toNat))

end Sys2Proof.Machine
end

