-- ==== Sys2Proof/Machine/IsaInt.lean ====
section
/-! DEFINITION. Base arithmetic, immediates, branches and jumps (R281, R282). -/

namespace Sys2Proof.Machine

/-! ## Results -/

/-- A result is written and the next instruction follows. -/
def alu (c rd : Nat) (v : Word) (s : State) : State := goOn c (setW c rd v s)

/-- The signed and unsigned value of a word. -/
def si (w : Word) : Int := w.toInt
def ui (w : Word) : Int := w.toNat

/-- The low 32 bits of an integer. -/
def lo32 (x : Int) : Word := BitVec.ofInt 32 x

/-- Bits 32 to 63 of an integer. -/
def hi32 (x : Int) : Word := BitVec.ofInt 32 (x / 2 ^ 32)

def boolW (b : Bool) : Word := if b then 1 else 0

/-- A 16-bit immediate sign-extended and zero-extended. -/
def sext16 (i : BitVec 16) : Word := i.signExtend 32
def zext16 (i : BitVec 16) : Word := i.zeroExtend 32

/-- DIV: towards zero; a zero divisor and the overflow saturate (R282). -/
def divS (a b : Word) : Word :=
  if b = 0 then (if 0 ≤ si a then 0x7FFFFFFF else 0x80000000)
  else if a = 0x80000000 ∧ b = 0xFFFFFFFF then 0x7FFFFFFF
  else lo32 ((si a).tdiv (si b))

/-- REM: the sign of the dividend; 0 for a zero divisor. -/
def remS (a b : Word) : Word := if b = 0 then 0 else lo32 ((si a).tmod (si b))

def divU (a b : Word) : Word := if b = 0 then 0xFFFFFFFF else BitVec.ofNat 32 (a.toNat / b.toNat)
def remU (a b : Word) : Word := if b = 0 then 0 else BitVec.ofNat 32 (a.toNat % b.toNat)

/-- XFLAGS.sat is set by a result, which the counters see. -/
def setSat (c : Nat) (s : State) : State := tally c 11 (lvlOcc c s) (updCpu c (fun k => { k with sat := true }) s)

def setDz (c : Nat) (s : State) : State := updCpu c (fun k => { k with dz := true }) s

/-- The flags of a division: dz for a zero divisor, sat for DIV of -2^31 by -1. -/
def divFlags (c : Nat) (signedDiv : Bool) (a b : Word) (s : State) : State :=
  if b = 0 then setDz c s else if signedDiv ∧ a = 0x80000000 ∧ b = 0xFFFFFFFF then setSat c s else s

/-! ## Shapes -/

/-- A register-register operation. -/
def opA (c rd rs1 rs2 : Nat) (f : Word → Word → Word) (s : State) : State := alu c rd (f (getW c rs1 s) (getW c rs2 s)) s

/-- A division or remainder. -/
def opDiv (c rd rs1 rs2 : Nat) (sd : Bool) (f : Word → Word → Word) (s : State) : State :=
  let a := getW c rs1 s
  let b := getW c rs2 s
  alu c rd (f a b) (divFlags c sd a b s)

/-- An operation with an immediate. -/
def opI (c rd rs1 : Nat) (i : Word) (f : Word → Word → Word) (s : State) : State := alu c rd (f (getW c rs1 s) i) s

/-- A shift by an immediate: imm[15:5] is unused. -/
def opShift (c op rd rs1 : Nat) (i : BitVec 16) (f : Word → Nat → Word) (s : State) : State :=
  if 32 ≤ i.toNat then illegal c (wordI op rd rs1 i.toNat) s
  else alu c rd (f (getW c rs1 s) i.toNat) s

/-- A conditional branch. -/
def opB (c rs1 rs2 : Nat) (off : BitVec 16) (p : Word → Word → Bool) (s : State) : State :=
  if p (getW c rs1 s) (getW c rs2 s) then jump c ((s.cpu c).pc + 4 * sext16 off) s else goOn c s

/-- A jump to t that leaves pc + 4 in rd. -/
def opLink (c rd : Nat) (t : Word) (s : State) : State := jump c t (setW c rd ((s.cpu c).pc + 4) s)

def opJalr (c rd rs1 : Nat) (i : BitVec 16) (s : State) : State :=
  let t := getW c rs1 s + sext16 i
  if t.toNat % 4 ≠ 0 then trap c 2 0 t s else opLink c rd t s

/-- The upper immediate imm << 11. -/
def upper (i : BitVec 21) : Word := i.zeroExtend 32 <<< 11

def sll (a b : Word) : Word := a <<< (b.toNat % 32)
def srl (a b : Word) : Word := a >>> (b.toNat % 32)
def sra (a b : Word) : Word := a.sshiftRight (b.toNat % 32)
def slt (a b : Word) : Word := boolW (a.slt b)
def sltu (a b : Word) : Word := boolW (a.ult b)

/-! ## Meanings -/

def execAdd (c : Fin 14) (rd rs1 rs2 : Fin 32) (s : State) : Out := .next (isa c (opA c rd rs1 rs2 (· + ·)) s)
def execSub (c : Fin 14) (rd rs1 rs2 : Fin 32) (s : State) : Out := .next (isa c (opA c rd rs1 rs2 (· - ·)) s)
def execAnd (c : Fin 14) (rd rs1 rs2 : Fin 32) (s : State) : Out := .next (isa c (opA c rd rs1 rs2 (· &&& ·)) s)
def execOr (c : Fin 14) (rd rs1 rs2 : Fin 32) (s : State) : Out := .next (isa c (opA c rd rs1 rs2 (· ||| ·)) s)
def execXor (c : Fin 14) (rd rs1 rs2 : Fin 32) (s : State) : Out := .next (isa c (opA c rd rs1 rs2 (· ^^^ ·)) s)
def execNor (c : Fin 14) (rd rs1 rs2 : Fin 32) (s : State) : Out := .next (isa c (opA c rd rs1 rs2 fun a b => ~~~(a ||| b)) s)
def execSll (c : Fin 14) (rd rs1 rs2 : Fin 32) (s : State) : Out := .next (isa c (opA c rd rs1 rs2 sll) s)
def execSrl (c : Fin 14) (rd rs1 rs2 : Fin 32) (s : State) : Out := .next (isa c (opA c rd rs1 rs2 srl) s)
def execSra (c : Fin 14) (rd rs1 rs2 : Fin 32) (s : State) : Out := .next (isa c (opA c rd rs1 rs2 sra) s)
def execSlt (c : Fin 14) (rd rs1 rs2 : Fin 32) (s : State) : Out := .next (isa c (opA c rd rs1 rs2 slt) s)
def execSltu (c : Fin 14) (rd rs1 rs2 : Fin 32) (s : State) : Out := .next (isa c (opA c rd rs1 rs2 sltu) s)
def execMul (c : Fin 14) (rd rs1 rs2 : Fin 32) (s : State) : Out := .next (isa c (opA c rd rs1 rs2 (· * ·)) s)
def execMulh (c : Fin 14) (rd rs1 rs2 : Fin 32) (s : State) : Out :=
  .next (isa c (opA c rd rs1 rs2 fun a b => hi32 (si a * si b)) s)
def execMulhu (c : Fin 14) (rd rs1 rs2 : Fin 32) (s : State) : Out :=
  .next (isa c (opA c rd rs1 rs2 fun a b => hi32 (ui a * ui b)) s)
def execDiv (c : Fin 14) (rd rs1 rs2 : Fin 32) (s : State) : Out := .next (isa c (opDiv c rd rs1 rs2 true divS) s)
def execDivu (c : Fin 14) (rd rs1 rs2 : Fin 32) (s : State) : Out := .next (isa c (opDiv c rd rs1 rs2 false divU) s)
def execRem (c : Fin 14) (rd rs1 rs2 : Fin 32) (s : State) : Out := .next (isa c (opDiv c rd rs1 rs2 false remS) s)
def execRemu (c : Fin 14) (rd rs1 rs2 : Fin 32) (s : State) : Out := .next (isa c (opDiv c rd rs1 rs2 false remU) s)
def execAddi (c : Fin 14) (rd rs1 : Fin 32) (i : BitVec 16) (s : State) : Out :=
  .next (isa c (opI c rd rs1 (sext16 i) (· + ·)) s)
def execAndi (c : Fin 14) (rd rs1 : Fin 32) (i : BitVec 16) (s : State) : Out :=
  .next (isa c (opI c rd rs1 (zext16 i) (· &&& ·)) s)
def execOri (c : Fin 14) (rd rs1 : Fin 32) (i : BitVec 16) (s : State) : Out :=
  .next (isa c (opI c rd rs1 (zext16 i) (· ||| ·)) s)
def execXori (c : Fin 14) (rd rs1 : Fin 32) (i : BitVec 16) (s : State) : Out :=
  .next (isa c (opI c rd rs1 (zext16 i) (· ^^^ ·)) s)
def execSlti (c : Fin 14) (rd rs1 : Fin 32) (i : BitVec 16) (s : State) : Out :=
  .next (isa c (opI c rd rs1 (sext16 i) slt) s)
def execSltiu (c : Fin 14) (rd rs1 : Fin 32) (i : BitVec 16) (s : State) : Out :=
  .next (isa c (opI c rd rs1 (sext16 i) sltu) s)
def execSlli (c : Fin 14) (rd rs1 : Fin 32) (i : BitVec 16) (s : State) : Out :=
  .next (isa c (opShift c 0x0A rd rs1 i fun a n => a <<< n) s)
def execSrli (c : Fin 14) (rd rs1 : Fin 32) (i : BitVec 16) (s : State) : Out :=
  .next (isa c (opShift c 0x0B rd rs1 i fun a n => a >>> n) s)
def execSrai (c : Fin 14) (rd rs1 : Fin 32) (i : BitVec 16) (s : State) : Out :=
  .next (isa c (opShift c 0x0C rd rs1 i fun a n => a.sshiftRight n) s)
def execJalr (c : Fin 14) (rd rs1 : Fin 32) (i : BitVec 16) (s : State) : Out := .next (isa c (opJalr c rd rs1 i) s)
def execLui (c : Fin 14) (rd : Fin 32) (i : BitVec 21) (s : State) : Out := .next (isa c (alu c rd (upper i)) s)
def execAuipc (c : Fin 14) (rd : Fin 32) (i : BitVec 21) (s : State) : Out :=
  .next (isa c (fun s => alu c rd ((s.cpu c).pc + upper i) s) s)
def execJal (c : Fin 14) (rd : Fin 32) (i : BitVec 21) (s : State) : Out :=
  .next (isa c (fun s => opLink c rd ((s.cpu c).pc + 4 * i.signExtend 32) s) s)
def execBeq (c : Fin 14) (rs1 rs2 : Fin 32) (off : BitVec 16) (s : State) : Out :=
  .next (isa c (opB c rs1 rs2 off fun a b => decide (a = b)) s)
def execBne (c : Fin 14) (rs1 rs2 : Fin 32) (off : BitVec 16) (s : State) : Out :=
  .next (isa c (opB c rs1 rs2 off fun a b => decide (a ≠ b)) s)
def execBlt (c : Fin 14) (rs1 rs2 : Fin 32) (off : BitVec 16) (s : State) : Out :=
  .next (isa c (opB c rs1 rs2 off fun a b => a.slt b) s)
def execBge (c : Fin 14) (rs1 rs2 : Fin 32) (off : BitVec 16) (s : State) : Out :=
  .next (isa c (opB c rs1 rs2 off fun a b => !a.slt b) s)
def execBltu (c : Fin 14) (rs1 rs2 : Fin 32) (off : BitVec 16) (s : State) : Out :=
  .next (isa c (opB c rs1 rs2 off fun a b => a.ult b) s)
def execBgeu (c : Fin 14) (rs1 rs2 : Fin 32) (off : BitVec 16) (s : State) : Out :=
  .next (isa c (opB c rs1 rs2 off fun a b => !a.ult b) s)

end Sys2Proof.Machine
end

