-- ==== Sys2Proof/Machine/IsaMem.lean ====
section
/-! DEFINITION. Loads, stores and the exchange (R279, R281, R283 to R286). -/

namespace Sys2Proof.Machine

/-- The address rb + sext(off). -/
def memAddr (c rb : Nat) (off : BitVec 13) (s : State) : Word := getW c rb s + off.signExtend 32

/-- The checks of a data access: PRIV, then MISALIGN_DATA; then `f`. -/
def dataCheck (c : Nat) (a : Word) (n : Nat) (f : State → State) (s : State) : State :=
  if !dataAllowed c a.toNat n s then priv c a s
  else if a.toNat % n ≠ 0 then trap c 3 0 a s
  else f s

/-- What the counters see of a data access of core c to `a`. -/
def dataOcc (c : Nat) (a : Word) (s : State) : Occ := { lvl := some (s.cpu c).lvl, addr := some a.toNat }

/-- The trap of a load whose completion code is `o` (R284). -/
def loadTrap (c : Nat) (o : Code) (a : Word) (s : State) : State :=
  if o = .ecc then trap c 5 0 a s
  else trap c 6 o.n a (tally c 12 (dataOcc c a s) s)

/-! ## The cellar core's own map (R310, R311): its data memory at its alias; what else it reaches in the cellar, and at which address,
the spec does not say: Config.cellarReach names what stands at an address, the mask ROM a constant (log 158). -/

/-- An access of n bytes at a lies in CC's data memory. -/
def ccOwn (a n : Nat) : Bool := decide (0x7F800000 ≤ a) && decide (a + n ≤ 0x7F810000)

/-- The code of an access of CC; the mask ROM takes no write. -/
def ccCode (a n : Nat) (write : Bool) : Code :=
  if ccOwn a n then .done
  else match Config.cellarReach a with
    | 1 => if write then .bus else .done
    | 2 => .done
    | _ => .bus

/-- What an access of CC reads: its data memory, the mask ROM, or what the spec does not give, a free value. -/
def ccData (a n : Nat) (s : State) : State × List Byte :=
  if ccOwn a n then (s, (List.range n).map fun i => memFind s.cel.sram (a + i - 0x7F800000))
  else if Config.cellarReach a = 1 then (s, (List.range n).map fun i => Config.cellarRomByte (a + i))
  else (s.freeNext, leBytes n (s.freeVal (8 * n)))

/-- CC's data memory takes bytes. -/
def ccPut (a : Nat) (bytes : List Byte) (s : State) : State :=
  if ccOwn a bytes.length then
    updCel (fun c => { c with sram := bytes.zipIdx.foldl (fun m x => memPut m (a + x.2 - 0x7F800000) x.1) c.sram }) s
  else s

/-- A data read of core c: its code and its bytes. -/
def coreRead (c a n : Nat) (s : State) : State × Code × List Byte :=
  if c = 13 then
    let d := ccData a n s
    (d.1, ccCode a n false, d.2)
  else busRead (coreRq c s) a n s

/-- A data write of core c: its code where that is known at once. -/
def coreWriteTo (c a : Nat) (b : List Byte) (s : State) : State × Option Code :=
  if c = 13 then
    (ccPut a b s, some (ccCode a b.length true))
  else busWrite (coreRq c s) a b s

/-- A data read that ends DONE goes on with its bytes; any other code traps. -/
def dataRead (c : Nat) (a : Word) (n : Nat) (f : List Byte → State → State) (s : State) : State :=
  let r := coreRead c a.toNat n s
  if r.2.1 = .done then f r.2.2 (tally c 3 (dataOcc c a s) r.1)
  else loadTrap c r.2.1 a r.1

/-- The loaded value, extended by sx. -/
def extend (n : Nat) (sx : Bool) (b : List Byte) : Word :=
  if sx then BitVec.ofInt 32 (sgn (8 * n) (leVal b)) else BitVec.ofNat 32 (leVal b)

/-- A load of n bytes. -/
def opLoad (c rt rb : Nat) (off : BitVec 13) (n : Nat) (sx : Bool) (s : State) : State :=
  let a := memAddr c rb off s
  dataCheck c a n (dataRead c a n fun b s => goOn c (setW c rt (extend n sx b) s)) s

/-- The record of a store to `a` that is posted now, with its code where that is known. -/
def postedAt (c : Nat) (a : Word) (o : Option Code) (priv : Bool) (s : State) : Posted :=
  { a := a.toNat, sys := (resolve (coreRq c s) a.toNat s).getD a.toNat, code := o, priv, pc := (s.cpu c).pc, lvl := (s.cpu c).lvl }

/-- The store is issued: it is posted with its code, where that is known at once. -/
def dataWrite (c : Nat) (a : Word) (b : List Byte) (s : State) : State :=
  let priv := decide (c ≠ 13) && decide (b.length = 4) && (refusedWrite (coreRq c s) a.toNat (BitVec.ofNat 32 (leVal b)) s).isSome
  let r := coreWriteTo c a.toNat b s
  tally c 4 (dataOcc c a s) (updCpu c (fun k => { k with posted := k.posted ++ [postedAt c a r.2 priv s] }) r.1)

/-- A store of the low n bytes of rt; sx is unused. -/
def opStore (c rt rb : Nat) (sx : Bool) (off : BitVec 13) (n sz : Nat) (s : State) : State :=
  if sx then illegal c (wordM 0x11 rt rb sz 1 off.toNat) s
  else
    let a := memAddr c rb off s
    dataCheck c a n (fun s => goOn c (dataWrite c a (leBytes n (getW c rt s).toNat) s)) s

/-- What XCHG reaches: the system SRAM and the core's own data memory (R285). -/
def xchgReach (c a : Nat) : Bool :=
  decide (region a = .sram) || (decide (0x7F800000 ≤ a) && decide (a + 4 ≤ 0x7F800000 + dataSize c)) ||
    (decide (dataBase c ≤ a) && decide (a + 4 ≤ dataBase c + dataSize c))

/-- XCHG: the write follows the read with no other access between; a refused write traps. -/
def opXchg (c rt rb : Nat) (sx : Bool) (off : BitVec 13) (s : State) : State :=
  if sx then illegal c (wordM 0x12 rt rb 2 1 off.toNat) s
  else
    let a := memAddr c rb off s
    dataCheck c a 4 (fun s =>
      if !xchgReach c a.toNat then loadTrap c .range a s
      else
        let d := coreRead c a.toNat 4 s
        if d.2.1 ≠ .done then loadTrap c d.2.1 a d.1
        else
          let r := coreWriteTo c a.toNat (leBytes 4 (getW c rt d.1).toNat) d.1
          let fin := fun s => goOn c (setW c rt (extend 4 false d.2.2) (tally c 4 (dataOcc c a s) (tally c 3 (dataOcc c a s) s)))
          match r.2 with
          | some .done => fin r.1
          | some o => loadTrap c o a r.1
          | none => fin (updCpu c (fun k => { k with posted := k.posted ++ [postedAt c a none false s] }) r.1)) s

/-! ## Meanings -/

def execLb (c : Fin 14) (rt rb : Fin 32) (off : BitVec 13) (s : State) : Out := .next (isa c (opLoad c rt rb off 1 true) s)
def execLbu (c : Fin 14) (rt rb : Fin 32) (off : BitVec 13) (s : State) : Out := .next (isa c (opLoad c rt rb off 1 false) s)
def execLh (c : Fin 14) (rt rb : Fin 32) (off : BitVec 13) (s : State) : Out := .next (isa c (opLoad c rt rb off 2 true) s)
def execLhu (c : Fin 14) (rt rb : Fin 32) (off : BitVec 13) (s : State) : Out := .next (isa c (opLoad c rt rb off 2 false) s)
def execLw (c : Fin 14) (rt rb : Fin 32) (off : BitVec 13) (s : State) : Out := .next (isa c (opLoad c rt rb off 4 false) s)
def execSb (c : Fin 14) (rt rb : Fin 32) (sx : Bool) (off : BitVec 13) (s : State) : Out :=
  .next (isa c (opStore c rt rb sx off 1 0) s)
def execSh (c : Fin 14) (rt rb : Fin 32) (sx : Bool) (off : BitVec 13) (s : State) : Out :=
  .next (isa c (opStore c rt rb sx off 2 1) s)
def execSw (c : Fin 14) (rt rb : Fin 32) (sx : Bool) (off : BitVec 13) (s : State) : Out :=
  .next (isa c (opStore c rt rb sx off 4 2) s)
def execXchg (c : Fin 14) (rt rb : Fin 32) (sx : Bool) (off : BitVec 13) (s : State) : Out :=
  .next (isa c (opXchg c rt rb sx off) s)

end Sys2Proof.Machine
end

