-- ==== Sys2Proof/Machine/IsaVec.lean ====
section
/-! DEFINITION. The V extension of the lane cores (R287) and the C extension of the radio cores (R288). -/

namespace Sys2Proof.Machine

/-! ## The V extension -/

/-- A V or C instruction that has not trapped is counted and retires (R281, R331). -/
def vecOn (c : Nat) (s : State) : State := goOn c (tally c 10 (lvlOcc c s) s)

/-- One with a result in general register rd. -/
def vecAlu (c rd : Nat) (v : Word) (s : State) : State := vecOn c (setW c rd v s)

/-- A vector instruction: its word is judged first (R277), `vs` being its vector register fields and `un` its unused fields. -/
def opV (c : Nat) (xd xa xb sel : Nat) (fn : Nat) (vs un : List Nat) (f : State → State) (s : State) : State :=
  if !hasV c ∨ (vs.any fun r => decide (16 ≤ r)) ∨ (un.any fun r => decide (r ≠ 0)) then
    illegal c (wordX 0x30 xd xa xb fn sel) s
  else f s

/-- A value limited to 32 bits, and whether the limit changed it. -/
def sat32 (x : Int) : Word × Bool := (BitVec.ofInt 32 (satI 32 x), decide (satI 32 x ≠ x))

/-- p / 2^31, rounded convergently. -/
def q31 (p : Int) : Int := divEven p (2 ^ 31)

/-- Lane i of a vector. -/
def lane (v : List Word) (i : Nat) : Int := si (nth v i)

/-- The lanes of a result that saturates: written to vd, XFLAGS.sat set where a lane changed. -/
def vecSat (c vd : Nat) (r : Nat → Int) (s : State) : State :=
  let l := (List.range 8).map fun i => sat32 (r i)
  vecOn c (setV c vd (l.map Prod.fst) (if l.any Prod.snd then setSat c s else s))

/-- The lanes of a result that does not saturate. -/
def vecPlain (c vd : Nat) (r : Nat → Int) (s : State) : State :=
  vecOn c (setV c vd ((List.range 8).map fun i => lo32 (r i)) s)

/-- A lane-by-lane operation of two vectors, the old vd before them, and whether it saturates. -/
def opVec (c : Nat) (xd xa xb sel fn : Nat) (sat : Bool) (f : Int → Int → Int → Int) (s : State) : State :=
  opV c xd xa xb sel fn [xd, xa, xb] [sel] (fun s =>
    let d := getV c xd s
    let a := getV c xa s
    let b := getV c xb s
    let r := fun i => f (lane d i) (lane a i) (lane b i)
    if sat then vecSat c xd r s else vecPlain c xd r s) s

def opVabs (c : Nat) (xd xa xb sel : Nat) (s : State) : State :=
  opV c xd xa xb sel 0x07 [xd, xa] [xb, sel] (fun s =>
    let a := getV c xa s
    vecSat c xd (fun i => (lane a i).natAbs) s) s

def opVshift (c : Nat) (xd xa xb sel : Nat) (left : Bool) (s : State) : State :=
  opV c xd xa xb sel (if left then 0x09 else 0x08) [xd, xa] [sel] (fun s =>
    let a := getV c xa s
    if left then vecSat c xd (fun i => lane a i * 2 ^ xb) s
    else vecPlain c xd (fun i => divEven (lane a i) (2 ^ xb)) s) s

def opVsplat (c : Nat) (xd xa xb sel : Nat) (s : State) : State :=
  opV c xd xa xb sel 0x0A [xd] [xb, sel] (fun s =>
    let a := getW c xa s
    vecPlain c xd (fun _ => si a) s) s

def opVext (c : Nat) (xd xa xb sel : Nat) (s : State) : State :=
  opV c xd xa xb sel 0x0B [xa] [xb] (fun s => vecAlu c xd (nth (getV c xa s) sel) s) s

def opVins (c : Nat) (xd xa xb sel : Nat) (s : State) : State :=
  opV c xd xa xb sel 0x0C [xd] [xb] (fun s =>
    let a := getW c xa s
    vecOn c (setV c xd (upd (getV c xd s) sel fun _ => a) s)) s

def opVsum (c : Nat) (xd xa xb sel : Nat) (s : State) : State :=
  opV c xd xa xb sel 0x0D [xa] [xb, sel] (fun s =>
    let a := getV c xa s
    let r := sat32 ((List.range 8).foldl (fun n i => n + lane a i) 0)
    vecAlu c xd r.1 (if r.2 then setSat c s else s)) s

def opVclamp (c : Nat) (xd xa xb sel : Nat) (s : State) : State :=
  opV c xd xa xb sel 0x0E [xd, xa] [sel] (fun t =>
    let a := getV c xa t
    let b := si (getW c xb t)
    if b < 0 then illegal c (wordX 0x30 xd xa xb 0x0E sel) s
    else vecPlain c xd (fun i => min (max (lane a i) (-b)) b) t) s

def opVld (c : Nat) (xd xa xb sel : Nat) (s : State) : State :=
  opV c xd xa xb sel 0x10 [xd] [xb, sel] (fun s =>
    let a := getW c xa s
    dataCheck c a 32 (dataRead c a 32 fun b s => vecOn c (setV c xd ((List.range 8).map fun i => wordAt b (4 * i)) s)) s) s

def opVst (c : Nat) (xd xa xb sel : Nat) (s : State) : State :=
  opV c xd xa xb sel 0x11 [xd] [xb, sel] (fun s =>
    let a := getW c xa s
    dataCheck c a 32 (fun s => vecOn c (dataWrite c a ((getV c xd s).flatMap fun w => leBytes 4 w.toNat) s)) s) s

/-! ## The C extension -/

/-- The I and Q halves of a sample word (R169). -/
def reI (w : Word) : Int := sgn 16 (w.toNat % 2 ^ 16)
def imQ (w : Word) : Int := sgn 16 (w.toNat / 2 ^ 16)

/-- A sample word of two halves, each limited, and whether a limit changed one. -/
def sample (i q : Int) : Word × Bool :=
  (BitVec.ofNat 32 (enc 16 (satI 16 i) + 2 ^ 16 * enc 16 (satI 16 q)), decide (satI 16 i ≠ i) || decide (satI 16 q ≠ q))

/-- p / 2^15, rounded convergently. -/
def q15 (p : Int) : Int := divEven p (2 ^ 15)

/-- A complex instruction, with `un` its unused fields. -/
def opC (c : Nat) (xd xa xb sel fn : Nat) (un : List Nat) (f : Word → Word → Word → Word × Bool) (s : State) : State :=
  if !hasC c ∨ (un.any fun r => decide (r ≠ 0)) then illegal c (wordX 0x31 xd xa xb fn sel) s
  else
    let r := f (getW c xd s) (getW c xa s) (getW c xb s)
    vecAlu c xd r.1 (if r.2 then setSat c s else s)

/-- The rounded halves of a × b, or of a × conj(b) with `j`. -/
def prodI (j : Bool) (a b : Word) : Int :=
  let q := if j then -imQ b else imQ b
  q15 (reI a * reI b - imQ a * q)
def prodQ (j : Bool) (a b : Word) : Int :=
  let q := if j then -imQ b else imQ b
  q15 (reI a * q + imQ a * reI b)

/-! ## Meanings -/

def execVadd (c : Fin 14) (xd xa xb : Fin 32) (sel : Fin 8) (s : State) : Out :=
  .next (isa c (opVec c xd xa xb sel 0x00 true fun _ a b => a + b) s)
def execVsub (c : Fin 14) (xd xa xb : Fin 32) (sel : Fin 8) (s : State) : Out :=
  .next (isa c (opVec c xd xa xb sel 0x01 true fun _ a b => a - b) s)
def execVmul (c : Fin 14) (xd xa xb : Fin 32) (sel : Fin 8) (s : State) : Out :=
  .next (isa c (opVec c xd xa xb sel 0x02 false fun _ a b => a * b) s)
def execVmulq (c : Fin 14) (xd xa xb : Fin 32) (sel : Fin 8) (s : State) : Out :=
  .next (isa c (opVec c xd xa xb sel 0x03 true fun _ a b => q31 (a * b)) s)
def execVmac (c : Fin 14) (xd xa xb : Fin 32) (sel : Fin 8) (s : State) : Out :=
  .next (isa c (opVec c xd xa xb sel 0x04 true fun d a b => d + q31 (a * b)) s)
def execVmin (c : Fin 14) (xd xa xb : Fin 32) (sel : Fin 8) (s : State) : Out :=
  .next (isa c (opVec c xd xa xb sel 0x05 false fun _ a b => min a b) s)
def execVmax (c : Fin 14) (xd xa xb : Fin 32) (sel : Fin 8) (s : State) : Out :=
  .next (isa c (opVec c xd xa xb sel 0x06 false fun _ a b => max a b) s)
def execVabs (c : Fin 14) (xd xa xb : Fin 32) (sel : Fin 8) (s : State) : Out := .next (isa c (opVabs c xd xa xb sel) s)
def execVshr (c : Fin 14) (xd xa xb : Fin 32) (sel : Fin 8) (s : State) : Out := .next (isa c (opVshift c xd xa xb sel false) s)
def execVshl (c : Fin 14) (xd xa xb : Fin 32) (sel : Fin 8) (s : State) : Out := .next (isa c (opVshift c xd xa xb sel true) s)
def execVsplat (c : Fin 14) (xd xa xb : Fin 32) (sel : Fin 8) (s : State) : Out := .next (isa c (opVsplat c xd xa xb sel) s)
def execVext (c : Fin 14) (xd xa xb : Fin 32) (sel : Fin 8) (s : State) : Out := .next (isa c (opVext c xd xa xb sel) s)
def execVins (c : Fin 14) (xd xa xb : Fin 32) (sel : Fin 8) (s : State) : Out := .next (isa c (opVins c xd xa xb sel) s)
def execVsum (c : Fin 14) (xd xa xb : Fin 32) (sel : Fin 8) (s : State) : Out := .next (isa c (opVsum c xd xa xb sel) s)
def execVclamp (c : Fin 14) (xd xa xb : Fin 32) (sel : Fin 8) (s : State) : Out := .next (isa c (opVclamp c xd xa xb sel) s)
def execVld (c : Fin 14) (xd xa xb : Fin 32) (sel : Fin 8) (s : State) : Out := .next (isa c (opVld c xd xa xb sel) s)
def execVst (c : Fin 14) (xd xa xb : Fin 32) (sel : Fin 8) (s : State) : Out := .next (isa c (opVst c xd xa xb sel) s)

def opCadd (c xd xa xb sel : Nat) : State → State :=
  opC c xd xa xb sel 0x00 [] fun _ a b => sample (reI a + reI b) (imQ a + imQ b)
def opCsub (c xd xa xb sel : Nat) : State → State :=
  opC c xd xa xb sel 0x01 [] fun _ a b => sample (reI a - reI b) (imQ a - imQ b)
def opCmul (c xd xa xb sel : Nat) : State → State :=
  opC c xd xa xb sel 0x02 [] fun _ a b => sample (prodI false a b) (prodQ false a b)
def opCmulj (c xd xa xb sel : Nat) : State → State :=
  opC c xd xa xb sel 0x03 [] fun _ a b => sample (prodI true a b) (prodQ true a b)
def opCmac (c xd xa xb sel : Nat) : State → State :=
  opC c xd xa xb sel 0x04 [] fun d a b => sample (reI d + prodI false a b) (imQ d + prodQ false a b)
def opConj (c xd xa xb sel : Nat) : State → State :=
  opC c xd xa xb sel 0x05 [xb] fun _ a _ => sample (reI a) (-imQ a)
def opCmag2 (c xd xa xb sel : Nat) : State → State :=
  opC c xd xa xb sel 0x06 [xb] fun _ a _ => (lo32 (reI a * reI a + imQ a * imQ a), false)
def opCscale (c xd xa xb sel : Nat) : State → State :=
  opC c xd xa xb sel 0x07 [] fun _ a b => sample (q15 (reI a * reI b)) (q15 (imQ a * reI b))
def opCshr (c xd xa xb sel : Nat) : State → State :=
  opC c xd xa xb sel 0x08 [xb / 16] fun _ a _ => sample (divEven (reI a) (2 ^ xb)) (divEven (imQ a) (2 ^ xb))
def opCpack (c xd xa xb sel : Nat) : State → State :=
  opC c xd xa xb sel 0x09 [] fun _ a b => (BitVec.ofNat 32 (a.toNat % 2 ^ 16 + 2 ^ 16 * b.toNat), false)

def execCadd (c : Fin 14) (xd xa xb : Fin 32) (sel : Fin 8) (s : State) : Out := .next (isa c (opCadd c xd xa xb sel) s)
def execCsub (c : Fin 14) (xd xa xb : Fin 32) (sel : Fin 8) (s : State) : Out := .next (isa c (opCsub c xd xa xb sel) s)
def execCmul (c : Fin 14) (xd xa xb : Fin 32) (sel : Fin 8) (s : State) : Out := .next (isa c (opCmul c xd xa xb sel) s)
def execCmulj (c : Fin 14) (xd xa xb : Fin 32) (sel : Fin 8) (s : State) : Out := .next (isa c (opCmulj c xd xa xb sel) s)
def execCmac (c : Fin 14) (xd xa xb : Fin 32) (sel : Fin 8) (s : State) : Out := .next (isa c (opCmac c xd xa xb sel) s)
def execConj (c : Fin 14) (xd xa xb : Fin 32) (sel : Fin 8) (s : State) : Out := .next (isa c (opConj c xd xa xb sel) s)
def execCmag2 (c : Fin 14) (xd xa xb : Fin 32) (sel : Fin 8) (s : State) : Out := .next (isa c (opCmag2 c xd xa xb sel) s)
def execCscale (c : Fin 14) (xd xa xb : Fin 32) (sel : Fin 8) (s : State) : Out := .next (isa c (opCscale c xd xa xb sel) s)
def execCshr (c : Fin 14) (xd xa xb : Fin 32) (sel : Fin 8) (s : State) : Out := .next (isa c (opCshr c xd xa xb sel) s)
def execCpack (c : Fin 14) (xd xa xb : Fin 32) (sel : Fin 8) (s : State) : Out := .next (isa c (opCpack c xd xa xb sel) s)

end Sys2Proof.Machine
end

