-- ==== Sys2Proof/Machine/IsaSys.lean ====
section
/-! DEFINITION. CSRs, waits, fences, the swap, traps and returns, and the K extension (R289 to R304, R318, R319). -/

namespace Sys2Proof.Machine

/-! ## CSRs (R291 to R294) -/

/-- The CSR number is listed (R293). -/
def csrListed (n : Nat) : Bool :=
  decide (n = 0) || (decide (0x200 ≤ n) && decide (n ≤ 0x204)) || (decide (0x210 ≤ n) && decide (n ≤ 0x21F)) ||
    (decide (0x400 ≤ n) && decide (n ≤ 0x407)) || (decide (0x410 ≤ n) && decide (n ≤ 0x428)) || decide (n = 0x600) ||
    (decide (0x800 ≤ n) && decide (n ≤ 0x805))

/-- The trap code of an access to CSR n, none where it is allowed: ILLEGAL before PRIV. -/
def csrTrap (c n : Nat) (write : Bool) (s : State) : Option Nat :=
  let lvl := (s.cpu c).lvl
  if !csrListed n ∨ (n / 1024 = 2 ∧ c ≠ 12) ∨ (write ∧ n / 512 % 2 = 1) then some 0
  else if lvl < n / 1024 then some 1
  else if lvl = 0 ∧ 0x210 ≤ n ∧ n ≤ 0x21F ∧ (s.cpu c).cntUen / 2 ^ ((n - 0x210) / 2) % 2 = 0 then some 1
  else none

/-- Low half of counter j, with the latch of its high half (R294). -/
def cntLow (c j : Nat) (s : State) : State × Word :=
  let v := nth (s.cpu c).cnt j
  (updCpu c (fun k => { k with cntH := upd k.cntH j fun _ => BitVec.ofNat 32 (v / 2 ^ 32) }) s, BitVec.ofNat 32 v)

/-- CORE_ID. -/
def coreId (c : Nat) : Word :=
  BitVec.ofNat 32 (c + 2 ^ 8 * (hasV c).toNat + 2 ^ 9 * (hasC c).toNat + 2 ^ 10 * (hasK c).toNat + 2 ^ 16)

/-- STATUS and KSTATUS. -/
def Cpu.status (k : Cpu) : Word := BitVec.ofNat 32 (k.lvl + 4 * k.plvl + 16 * k.ie.toNat + 32 * k.pie.toNat)
def Cpu.kstatus (k : Cpu) : Word := BitVec.ofNat 32 (k.kplvl + 16 * k.kpie.toNat + 256 * k.nmiAct.toNat)

/-- SHELF_STAT: active reads 0 while SC runs the ROM (R314). -/
def shelfStat (c : Nat) (s : State) : Word :=
  if c = 13 then 0
  else
    let act := if c = 12 ∧ scInRom s then 0 else s.get (OWN_CORE_STAT_active c)
    BitVec.ofNat 32 (act + 2 * s.get (OWN_CORE_STAT_armed c) + 256 * ((s.cpu c).swaps % 256))

/-- A CSR read, with its side effect. -/
def csrRead (c n : Nat) (s : State) : State × Word :=
  let k := s.cpu c
  match n with
  | 0x000 => (s, BitVec.ofNat 32 (k.sat.toNat + 2 * k.dz.toNat))
  | 0x200 => (s, coreId c)
  | 0x201 => (updCpu c (fun k => { k with cycleH := BitVec.ofNat 32 (k.cycle / 2 ^ 32) }) s, BitVec.ofNat 32 k.cycle)
  | 0x202 => (s, k.cycleH)
  | 0x203 =>
    (updCpu c (fun k => { k with timeH := BitVec.ofNat 32 (s.bandTime / 2 ^ 32) }) s, BitVec.ofNat 32 s.bandTime)
  | 0x204 => (s, k.timeH)
  | 0x400 => (s, k.status)
  | 0x401 => (s, k.tvec)
  | 0x402 => (s, k.epc)
  | 0x403 => (s, k.cause)
  | 0x404 => (s, k.tval)
  | 0x405 => (s, k.scratch)
  | 0x406 => (s, k.uwinLo)
  | 0x407 => (s, k.uwinHi)
  | 0x428 => (s, BitVec.ofNat 32 k.cntUen)
  | 0x600 => (s, shelfStat c s)
  | 0x800 => (s, k.kstatus)
  | 0x801 => (s, k.ktvec)
  | 0x802 => (s, k.kepc)
  | 0x803 => (s, k.kcause)
  | 0x804 => (s, k.ktval)
  | 0x805 => (s, k.kscratch)
  | n =>
    let j := (n - 0x10) % 16 / 2
    if 0x420 ≤ n then (s, nth k.cntSel (n - 0x420))
    else if n % 2 = 0 then cntLow c j s else (s, nth k.cntH j)

/-- The bits of CAUSE and CNT_SEL that a write sets; CNT_SEL.ovf can only be cleared. -/
def causeMask (w : Word) : Word := w &&& 0xC1FFFFFF
def cntSelWrite (old w : Word) : Word := (w &&& 0x17FF3F3F) ||| (w &&& old &&& 0x20000000)

/-- A CSR write; a read-only CSR is never written. -/
def csrWrite (c n : Nat) (w : Word) (s : State) : State :=
  let put := fun (f : Cpu → Cpu) => updCpu c f s
  let tv := w &&& 0xFFFFFC00
  match n with
  | 0x000 => put fun k => { k with sat := bit w 0, dz := bit w 1 }
  | 0x400 => put fun k => { k with plvl := min 1 (fieldOf w 2 2), ie := bit w 4, pie := bit w 5 }
  | 0x401 => put fun k => { k with tvec := tv }
  | 0x402 => put fun k => { k with epc := w }
  | 0x403 => put fun k => { k with cause := causeMask w }
  | 0x404 => put fun k => { k with tval := w }
  | 0x405 => put fun k => { k with scratch := w }
  | 0x406 => put fun k => { k with uwinLo := w }
  | 0x407 => put fun k => { k with uwinHi := w }
  | 0x428 => put fun k => { k with cntUen := w.toNat % 256 }
  | 0x800 => put fun k => { k with kplvl := fieldOf w 0 2, kpie := bit w 4 }
  | 0x801 => put fun k => { k with ktvec := tv, nmiHold := false }
  | 0x802 => put fun k => { k with kepc := w }
  | 0x803 => put fun k => { k with kcause := causeMask w }
  | 0x804 => put fun k => { k with ktval := w }
  | 0x805 => put fun k => { k with kscratch := w }
  | n =>
    let j := (n - 0x10) % 16 / 2
    if 0x420 ≤ n then put fun k => { k with cntSel := upd k.cntSel (n - 0x420) fun o => cntSelWrite o w }
    else if n % 2 = 0 then put fun k => { k with cnt := upd k.cnt j fun v => v / 2 ^ 32 * 2 ^ 32 + w.toNat }
    else
      let h := w.toNat % 2 ^ 16
      put fun k => { k with cnt := upd k.cnt j (fun v => v % 2 ^ 32 + 2 ^ 32 * h), cntH := upd k.cntH j fun _ => BitVec.ofNat 32 h }

/-- A CSR access that is allowed does `f`. -/
def csrOp (c n : Nat) (write : Bool) (word : Word) (f : State → State) (s : State) : State :=
  match csrTrap c n write s with
  | some t => trap c t 0 word s
  | none => f s

def opCsrrw (c rd rs1 : Nat) (n : BitVec 12) (s : State) : State :=
  csrOp c n.toNat true (wordS 0 rd rs1 n.toNat) (fun s =>
    let v := getW c rs1 s
    let r := csrRead c n.toNat s
    goOn c (setW c rd r.2 (csrWrite c n.toNat v r.1))) s

def opCsrrd (c rd rs1 : Nat) (n : BitVec 12) (s : State) : State :=
  if rs1 ≠ 0 then illegal c (wordS 1 rd rs1 n.toNat) s
  else csrOp c n.toNat false (wordS 1 rd rs1 n.toNat) (fun s =>
    let r := csrRead c n.toNat s
    goOn c (setW c rd r.2 r.1)) s

def opCsrrm (c rd rs1 : Nat) (n : BitVec 12) (s : State) : State :=
  csrOp c n.toNat true (wordS 2 rd rs1 n.toNat) (fun s =>
    let v := getW c rs1 s
    let m := getW c rd s
    let r := csrRead c n.toNat s
    goOn c (setW c rd r.2 (csrWrite c n.toNat ((r.2 &&& ~~~m) ||| (v &&& m)) r.1))) s

/-! ## WAIT, FENCE, EVWAIT, QPOINT (R295 to R298) -/

/-- A system instruction that level U may not execute; `un` are its unused fields. -/
def opSys (c : Nat) (word : Word) (un : List Nat) (f : State → State) (s : State) : State :=
  if un.any fun n => decide (n ≠ 0) then illegal c word s
  else if (s.cpu c).lvl = 0 then priv c word s
  else f s

/-- An event is pending and enabled for core c; none is routed to the cellar core. -/
def eventFor (c : Nat) (s : State) : Bool := decide (c < 13) && (nextFor c s).isSome

/-- WAIT; `pins` are the wake sources that the pins show, for a stop request of SC. -/
def opWait (c rd rs1 : Nat) (imm : BitVec 12) (pins : Nat) (s : State) : State :=
  opSys c (wordS 8 rd rs1 imm.toNat) [rd, rs1, imm.toNat] (afterStores c fun s =>
    if c = 12 ∧ (s.cpu 12).lvl = 2 ∧ s.get PWR_MODE_mode = 1 then stopWait pins s
    else if eventFor c s then goOn c s
    else updCpu c (fun k => { k with wait := .wait }) s) s

/-- WAIT_WAKE: an enabled event ends the WAIT; it is taken as a trap, or execution goes on. -/
def waitWake (c : Nat) (s : State) : State :=
  if !coreRuns c s ∨ (s.cpu c).wait ≠ .wait ∨ !eventFor c s then s
  else match nmiReady c s with
    | some e => nmiTrap e s
    | none => match (if (s.cpu c).ie then evtNext c s else none) with
      | some e => eventTrap c e s
      | none => if c = 12 ∧ s.pwr.st = 1 then stopAbandon s else goOn c (updCpu c (fun k => { k with wait := .run }) s)

/-- FENCE: imm[1:0] its kinds. -/
def opFence (c rd rs1 : Nat) (imm : BitVec 12) (s : State) : State :=
  if imm.toNat = 0 ∨ 4 ≤ imm.toNat then illegal c (wordS 9 rd rs1 imm.toNat) s
  else if imm.toNat % 2 = 1 then afterStores c (goOn c) s
  else if (s.cpu c).serr.isSome then storeTrap c s
  else goOn c s

/-- EVWAIT: event number rs1, a timeout of imm µs. -/
def opEvwait (c rd rs1 : Nat) (imm : BitVec 12) (s : State) : State :=
  opSys c (wordS 10 rd rs1 imm.toNat) [] (afterStores c fun s =>
    let e := (getW c rs1 s).toNat
    if 511 < e then alu c rd (BitVec.ofNat 32 Code.range.n) s
    else if c < 13 ∧ pendFor e c s then alu c rd 0 (clearPend e s)
    else updCpu c (fun k => { k with wait := .evwait e rd (decide (imm ≠ 0)) }) s) s

/-- EVWAIT_EVENT: the awaited event is pending. -/
def evwaitEvent (c : Nat) (s : State) : State :=
  match (s.cpu c).wait with
  | .evwait e rd _ =>
    if coreRuns c s ∧ c < 13 ∧ pendFor e c s then alu c rd 0 (updCpu c (fun k => { k with wait := .run }) (clearPend e s)) else s
  | .run | .wait | .swap _ => s

/-- EVWAIT_TIMEOUT: imm µs have passed. -/
def evwaitTimeout (c : Nat) (s : State) : State :=
  match (s.cpu c).wait with
  | .evwait _ rd timed =>
    if coreRuns c s ∧ timed then alu c rd (BitVec.ofNat 32 Code.timeout.n) (updCpu c (fun k => { k with wait := .run }) s) else s
  | .run | .wait | .swap _ => s

/-- QPOINT: without an armed swap 0 into rd; with one the port is fenced until SHELF_SWAP (R319). -/
def opQpoint (c rd rs1 : Nat) (imm : BitVec 12) (s : State) : State :=
  opSys c (wordS 11 rd rs1 imm.toNat) [rs1, imm.toNat] (afterStores c fun s =>
    if c < 13 ∧ s.on (OWN_CORE_STAT_armed c) then
      updCpu c (fun k => { k with wait := .swap rd }) ((portDrain c s).set (OWN_CORE_STAT_fenced c) 1)
    else alu c rd 0 s) s

/-- SHELF_SWAP: the shelves are exchanged and execution goes on at the entry of the new one. -/
def shelfSwap (c : Nat) (s : State) : State :=
  match (s.cpu c).wait with
  | .swap rd =>
    if coreRuns c s ∧ c < 13 then
      let sh := idleShelf c s
      let s := ((s.set (OWN_CORE_STAT_active c) sh).set (OWN_CORE_STAT_armed c) 0).set (OWN_CORE_STAT_fenced c) 0
      let s := updCpu c (fun k => { k with wait := .run, swaps := (k.swaps + 1) % 256 }) (setW c rd 1 s)
      goTo c (BitVec.ofNat 32 (0x7F000000 + entryOf c sh s)) s
    else s
  | .run | .wait | .evwait _ _ _ => s

/-! ## Traps and returns -/

def opTrap (c rd rs1 : Nat) (imm : BitVec 12) (s : State) : State :=
  if 256 ≤ imm.toNat then illegal c (wordS 12 rd rs1 imm.toNat) s else trap c 8 imm.toNat 0 s

/-- RETT (R304). The cellar core has no level but S; a saved level 3 names none. -/
def opRett (c rd rs1 : Nat) (imm : BitVec 12) (s : State) : State :=
  opSys c (wordS 14 rd rs1 imm.toNat) [] (afterStores c fun s =>
    let k := s.cpu c
    if k.lvl = 2 then
      let l := if k.kplvl = 3 then s.freeVal 8 % 3 else k.kplvl
      let s := goTo c k.kepc (if k.kplvl = 3 then s.freeNext else s)
      updCpu c (fun k => { k with lvl := l, ie := k.kpie, nmiAct := false }) s
    else
      let s := goTo c k.epc s
      updCpu c (fun k => { k with lvl := if c = 13 then 1 else k.plvl, ie := k.pie }) s) s

/-- EVENT_TRAP: while ie = 1, unless a trap of higher rank is pending (R301, R302). -/
def takeEvent (c : Nat) (s : State) : State :=
  let k := s.cpu c
  if !coreRuns c s ∨ !k.ie ∨ 13 ≤ c ∨ inSwap c s ∨ k.serr.isSome ∨ (nmiReady c s).isSome then s
  else match evtNext c s with
    | some e => eventTrap c e s
    | none => s

/-- NMI_TRAP. -/
def takeNmi (s : State) : State :=
  if !coreRuns 12 s ∨ inSwap 12 s then s
  else match nmiReady 12 s with
    | some e => nmiTrap e s
    | none => s

/-- STORE_ERR_TRAP: between instructions, unless a non-maskable event comes first. -/
def takeStoreErr (c : Nat) (s : State) : State :=
  if !coreIssues c s ∨ (nmiReady c s).isSome then s else storeTrap c s

/-! ## The K extension (R289, R290) -/

/-- KCALL: at S and K. -/
def opKcall (c xd xa xb sel : Nat) (s : State) : State :=
  let word := wordX 0x32 xd xa xb 0x00 sel
  if !hasK c ∨ xd ≠ 0 ∨ xa ≠ 0 ∨ xb ≠ 0 then illegal c word s
  else if (s.cpu c).lvl = 0 then priv c word s
  else rankTrap c { code := 0x12, vec := 0x300, epc := (s.cpu c).pc } s

/-- A K instruction that leaves an outcome code in wd. -/
def opK (c xd xa xb fn sel : Nat) (f : Word → Word → State → State × Code) (s : State) : State :=
  let word := wordX 0x32 xd xa xb fn sel
  if !hasK c then illegal c word s
  else if (s.cpu c).lvl ≠ 2 then priv c word s
  else
    let r := f (getW c xa s) (getW c xb s) s
    alu c xd (BitVec.ofNat 32 r.2.n) r.1

/-- KARM. -/
def karm (wa : Word) (s : State) : State × Code :=
  let c := wa.toNat
  if 12 < c then (s, .range)
  else if coreState c s = 0 then (s, .fenced)
  else if s.on (OWN_CORE_STAT_armed c) ∨ !s.on (chkFd c (idleShelf c s)) then (s, .state)
  else (s.set (OWN_CORE_STAT_armed c) 1, .done)

/-- A core between its QPOINT and SHELF_SWAP goes on past its QPOINT as without an armed swap (DESIGN CHOICE, log 160). -/
def swapCancel (c : Nat) (s : State) : State :=
  match (s.cpu c).wait with
  | .swap rd => alu c rd 0 (updCpu c (fun k => { k with wait := .run }) (s.set (OWN_CORE_STAT_fenced c) 0))
  | .run | .wait | .evwait _ _ _ => s

/-- KDISARM: the swap is cancelled, also one whose QPOINT has been reached. -/
def kdisarm (wa : Word) (s : State) : State × Code :=
  let c := wa.toNat
  if 12 < c then (s, .range)
  else if !s.on (OWN_CORE_STAT_armed c) then (s, .state)
  else (swapCancel c (s.set (OWN_CORE_STAT_armed c) 0), .done)

/-- 64 zero bytes at a, in the unit of the system SRAM; a shelf that they reach loses its checked mark (R312). -/
def zeroBlock (a : Nat) (s : State) : State :=
  let s := (shelfCheck (.core 12 .k) a s).getD s
  (memWrite 0 (.core 12 .k) a (List.replicate 64 0) s).1

/-- KZERO of n blocks of 64 bytes; `stop` is the number of blocks cleared when a non-maskable event arrives. -/
def kzero (stop : Option Nat) (wa wb : Word) (s : State) : State × Code :=
  let n := wb.toNat / 64
  let a := match resolve (.core 12 .k) wa.toNat s with | some a => a | none => 0
  let isAlias := decide (0x7F800000 ≤ wa.toNat) && decide (wa.toNat + wb.toNat ≤ 0x7F800000 + dataSize 12)
  let sram := decide (0x10000000 ≤ wa.toNat) && decide (wa.toNat + wb.toNat ≤ 0x10800000)
  if wa.toNat % 64 ≠ 0 ∨ wb.toNat % 64 ≠ 0 then (s, .align)
  else if 0x100000 < wb.toNat ∨ (!isAlias ∧ !sram) then (s, .range)
  else if (List.range n).any fun i => (shelfCheck (.core 12 .k) (a + 64 * i) s).isNone then (s, .state)
  else match (if (nmiReady 12 s).isSome then stop else none) with
    | some m => if m < n then (forN m (fun i s => zeroBlock (a + 64 * i) s) s, .aborted)
      else (forN n (fun i s => zeroBlock (a + 64 * i) s) s, .done)
    | none => (forN n (fun i s => zeroBlock (a + 64 * i) s) s, .done)

/-! ## Meanings -/

def execCsrrw (c : Fin 14) (rd rs1 : Fin 32) (n : BitVec 12) (s : State) : Out := .next (isa c (opCsrrw c rd rs1 n) s)
def execCsrrd (c : Fin 14) (rd rs1 : Fin 32) (n : BitVec 12) (s : State) : Out := .next (isa c (opCsrrd c rd rs1 n) s)
def execCsrrm (c : Fin 14) (rd rs1 : Fin 32) (n : BitVec 12) (s : State) : Out := .next (isa c (opCsrrm c rd rs1 n) s)
def execWait (c : Fin 14) (rd rs1 : Fin 32) (imm : BitVec 12) (pins : BitVec 11) (s : State) : Out :=
  .next (isa c (opWait c rd rs1 imm pins.toNat) s)
def execWaitWake (c : Fin 14) (s : State) : Out := .next (waitWake c s)
def execFence (c : Fin 14) (rd rs1 : Fin 32) (imm : BitVec 12) (s : State) : Out := .next (isa c (opFence c rd rs1 imm) s)
def execEvwait (c : Fin 14) (rd rs1 : Fin 32) (imm : BitVec 12) (s : State) : Out := .next (isa c (opEvwait c rd rs1 imm) s)
def execEvwaitEvent (c : Fin 14) (s : State) : Out := .next (evwaitEvent c s)
def execEvwaitTimeout (c : Fin 14) (s : State) : Out := .next (evwaitTimeout c s)
def execQpoint (c : Fin 14) (rd rs1 : Fin 32) (imm : BitVec 12) (s : State) : Out := .next (isa c (opQpoint c rd rs1 imm) s)
def execShelfSwap (c : Fin 13) (s : State) : Out := .next (shelfSwap c s)
def execTrap (c : Fin 14) (rd rs1 : Fin 32) (imm : BitVec 12) (s : State) : Out := .next (isa c (opTrap c rd rs1 imm) s)
def execBrk (c : Fin 14) (s : State) : Out := .next (isa c (fun s => trap c 9 0 0 s) s)
def execRett (c : Fin 14) (rd rs1 : Fin 32) (imm : BitVec 12) (s : State) : Out := .next (isa c (opRett c rd rs1 imm) s)
def execEventTrap (c : Fin 14) (s : State) : Out := .next (takeEvent c s)
def execNmiTrap (s : State) : Out := .next (takeNmi s)
def execStoreCompletion (c : Fin 14) (stale : Bool) (s : State) : Out := .next (storeNext c stale s)
def execStoreErrTrap (c : Fin 14) (s : State) : Out := .next (takeStoreErr c s)
def execKcall (c : Fin 14) (xd xa xb : Fin 32) (sel : Fin 8) (s : State) : Out := .next (isa c (opKcall c xd xa xb sel) s)
def execKarm (c : Fin 14) (xd xa xb : Fin 32) (sel : Fin 8) (s : State) : Out :=
  .next (isa c (opK c xd xa xb 0x01 sel fun a _ => karm a) s)
def execKdisarm (c : Fin 14) (xd xa xb : Fin 32) (sel : Fin 8) (s : State) : Out :=
  .next (isa c (opK c xd xa xb 0x02 sel fun a _ => kdisarm a) s)
def execKzero (c : Fin 14) (xd xa xb : Fin 32) (sel : Fin 8) (stop : Option (BitVec 15)) (s : State) : Out :=
  .next (isa c (opK c xd xa xb 0x03 sel (kzero (stop.map BitVec.toNat))) s)

end Sys2Proof.Machine
end

