-- ==== Sys2Proof/Machine/Remote.lean ====
section
/-! DEFINITION. What the outside sends onto the bus: the remote-access engine of the fabric (R486, R488), the management window
(R454, R455) and the hatch bus (R559). -/

namespace Sys2Proof.Machine

/-- The class of an access that a crate from `src` makes (R446). -/
def crateRq (src : Nat) (s : State) : Rq :=
  if s.on SNK_PAIR_CTRL_en ∧ src = s.get SNK_PAIR_CTRL_partner then .partner else .fabric src

/-- Up to n word reads from a upwards, up to the first that does not end DONE: its code and index, and the words read. -/
def readWords (q : Rq) (a : Nat) : Nat → Nat → State → State × Code × Nat × List Byte
  | 0, j, s => (s, .done, j, [])
  | n + 1, j, s =>
    let r := busRead q (a + 4 * j) 4 s
    if r.2.1 = .done then
      let t := readWords q a n (j + 1) r.1
      (t.1, t.2.1, t.2.2.1, r.2.2 ++ t.2.2.2)
    else (r.1, r.2.1, j, [])

/-- Word writes from a upwards, up to the first that does not end DONE: its code and index. With `cut`, the key written to
CRP_CMD_RESET by the owner is kept for later and ends the request DONE (R488). -/
def writeWords (q : Rq) (cut : Bool) (a : Nat) : List Word → Nat → State → State × Code × Nat
  | [], j, s => (s, .done, j)
  | w :: t, j, s =>
    if cut ∧ a + 4 * j = CRP_CMD_RESET ∧ w = 0x6D3B ∧ isOwner q s then
      (updSnk (fun k => { k with after := some (decide (q = .partner), q.faddr, w) }) s, .done, j)
    else
      let r := busWrite q (a + 4 * j) (leBytes 4 w.toNat) s
      match r.2 with
      | some .done => writeWords q cut a t (j + 1) r.1
      | some c => (r.1, c, j)
      | none => writeWords q cut a t (j + 1) r.1

/-- The words that a request carries; words that its payload lacks are free values. -/
def reqWords (c : List Byte) : Nat → Nat → State → State × List Word
  | 0, _, s => (s, [])
  | n + 1, j, s =>
    let r := if 20 + 4 * j ≤ c.length then (s, wordAt c (16 + 4 * j)) else (s.freeNext, BitVec.ofNat 32 (s.freeVal 32))
    let t := reqWords c n (j + 1) r.1
    (t.1, r.2 :: t.2)

/-- A request crate's address and count meet R486. -/
def reqCode (c : List Byte) : Code :=
  if leVal ((c.drop 8).take 4) % 4 ≠ 0 then .align else if cb c 12 = 0 ∨ 32 < cb c 12 then .range else .done

/-- The request has been served: it leaves the engine and its reply is sent. The index of a reply with outcome DONE is free. -/
def reqAnswer (c : List Byte) (code : Code) (index : Nat) (stale : Bool) (data : List Byte) (own : Option Nat) (s : State) :
    State :=
  let s := updSnk (fun k => { k with reqs := k.reqs.tail }) s
  let i := if code = .done then s.freeVal 8 else index
  let s := if code = .done then s.freeNext else s
  let r := routeTo (replyTo c code i stale data s) own s
  if r.2 = .held then r.1 else updSnk (fun k => if own.isSome then { k with after := none } else k) r.1

/-- The request at the front, if it has the type and the engine is free and has its clock. -/
def reqFront (ty : Nat) (s : State) : Option (List Byte) :=
  if snkHeld s ∨ s.on CRP_CLK_STAT_sys_gated ∨ s.snk.after.isSome then none else s.snk.reqs.head?.filter fun c => decide (cType c = ty)

/-- An RREAD is served and answered; `stale` if any reply was stale. -/
def remoteRead (stale : Bool) (s : State) : State :=
  match reqFront 2 s with
  | none => s
  | some c =>
    if reqCode c = .done then
      let r := readWords (crateRq (cSrc c) s) (leVal ((c.drop 8).take 4)) (cb c 12) 0 s
      reqAnswer c r.2.1 r.2.2.1 stale r.2.2.2 none r.1
    else reqAnswer c (reqCode c) 0 false [] none s

/-- An RWRITE is served and answered. -/
def remoteWrite (stale : Bool) (s : State) : State :=
  match reqFront 3 s with
  | none => s
  | some c =>
    if reqCode c = .done then
      let ws := reqWords c (cb c 12) 0 s
      let r := writeWords (crateRq (cSrc c) s) true (leVal ((c.drop 8).take 4)) ws.2 0 ws.1
      reqAnswer c r.2.1 r.2.2 stale [] (if r.1.snk.after.isSome then some 9 else none) r.1
    else reqAnswer c (reqCode c) 0 false [] none s

/-- The last byte of link l's crate leaves (R481); a command reset that waited for it follows (R488). -/
def crateSent (l : Nat) (s : State) : State :=
  if !canEnd l s then s
  else
    let waits := match (snkLink l s).cur with
      | some e => decide (e.own = some 9)
      | none => false
    let s := linkSent l s
    match s.snk.after with
    | some (_, _, w) => if waits then wrCmdReset w (updSnk (fun k => { k with after := none }) s) else s
    | none => s

/-! ## The management window (R454, R455) -/

/-- Byte i of page 0xB0, from byte 128. -/
def b0Set (i v : Nat) (s : State) : State := updOwn (fun o => { o with b0 := upd o.b0 i fun _ => BitVec.ofNat 8 v }) s

/-- The window transaction that a write of byte 133 starts. -/
def windowServe (s : State) : State :=
  let a := leVal (s.own.b0.take 4)
  let n := (nth s.own.b0 4).toNat
  let op := (nth s.own.b0 5).toNat
  let fin := fun (c : Code) (s : State) => (b0Set 7 c.n s).ret c
  if a % 4 ≠ 0 then b0Set 8 0 (fin .align s)
  else if n = 0 ∨ 32 < n ∨ (op ≠ 1 ∧ op ≠ 2) then b0Set 8 0 (fin .range s)
  else if op = 1 then
    let r := readWords .host a n 0 s
    let s := updOwn (fun o => { o with b1 := r.2.2.2 ++ o.b1.drop r.2.2.2.length }) r.1
    fin r.2.1 (if r.2.1 = .done then s else b0Set 8 r.2.2.1 s)
  else
    let r := writeWords .host false a ((List.range n).map fun j => wordAt s.own.b1 (4 * j)) 0 s
    fin r.2.1 (if r.2.1 = .done then r.1 else b0Set 8 r.2.2 r.1)

/-- The window transaction, where its port has its clock; else it waits. -/
def windowRun (s : State) : State := if rqWaits .host (leVal (s.own.b0.take 4)) s then park .window s else windowServe s

/-- Byte b of the page selected is one that the CMIS agent serves, and the agent is there: SC runs firmware and is not between programs
(R454). -/
def agentByte (b : Nat) (s : State) : Bool :=
  scRuns s && !scInRom s && !inSwap 12 s &&
    (decide (b < 126) || (decide (128 ≤ b) && decide (s.own.bank = 0) &&
      [0x00, 0x01, 0x02, 0x03, 0x10, 0x11, 0x13, 0x14, 0x9F].contains s.own.page))

/-- The agent's interrupt flags after it has judged a write: a change from 0 to 1 sends an in-band interrupt (R456). -/
def agentFlag (flag : Bool) (s : State) : State :=
  sendIbi (flag && !s.own.cmis) (updOwn (fun o => { o with cmis := flag }) s)

/-- A byte written over the management interface: bank and page select, pages 0xB0 and 0xB1; the other pages are the agent's, whose
interrupt flags are `flag` after it, or ignore it. -/
def mgmtWrite (b : Nat) (v : Byte) (flag : Bool) (s : State) : State :=
  if !mgmtAlive s ∨ ownHeld s then s
  else if b = 126 then updOwn (fun o => { o with bank := v.toNat }) s
  else if b = 127 then updOwn (fun o => { o with page := v.toNat }) s
  else if agentByte b s then agentFlag flag s
  else if b < 128 then s
  else if s.own.page = 0xB0 then
    (if b ≤ 132 then b0Set (b - 128) v.toNat s else if b = 133 then windowRun (b0Set 5 v.toNat s) else s)
  else if s.own.page = 0xB1 then updOwn (fun o => { o with b1 := upd o.b1 (b - 128) fun _ => v }) s
  else s

/-- Byte i of page 0xB2: the pending events whose host bit is set. -/
def hostPend (i : Nat) (s : State) : Byte :=
  BitVec.ofNat 8 ((List.range 8).foldl (fun n k => if isPend (8 * i + k) s ∧ s.on (EVR_ROUTE_host (8 * i + k)) then n + 2 ^ k else n) 0)

/-- Page 0xBF: the cellar identification, 0 while the cellar is ABSENT (R511). -/
def celPage (s : State) : List Byte :=
  if celState s = 0 then List.replicate 128 0
  else
    let body := leBytes 2 (s.rd CEL_ID_ROM_VER).toNat ++ leBytes 4 (s.rd CEL_ID_ROM_CRC).toNat ++
      leBytes 4 (s.rd CEL_ID_SEAL_CRC).toNat ++ [BitVec.ofNat 8 (celState s), BitVec.ofNat 8 (s.get CEL_ID_INTERVAL_interval)] ++
      (List.range 8).flatMap fun j => leBytes 4 (s.rd (CEL_ID_KEY_ID j)).toNat
    body ++ List.replicate (128 - body.length) 0

/-- Byte b, 128 to 255, of a private page as it reads (R455, R511). -/
def privatePage (page b : Nat) (s : State) : Byte :=
  if page = 0xB0 then (if b ≤ 136 then nth s.own.b0 (b - 128) else 0)
  else if page = 0xB1 then nth s.own.b1 (b - 128)
  else if page = 0xB2 then (if b < 192 then hostPend (b - 128) s else 0)
  else if page = 0xBF then nth (celPage s) (b - 128)
  else 0

/-- Hardware pulls INT_N low: for a bit of page 0xB2 or an interrupt flag of the agent (R456). -/
def intLow (s : State) : Bool := mgmtAlive s && (s.own.cmis || (pendList s).any fun e => s.on (EVR_ROUTE_host e))

/-! ## The hatch bus (R559) -/

/-- The access is done: what the next capture returns. -/
def hatchBusEnd (a d : Word) (write : Bool) (c : Code) (s : State) : State :=
  (updOwn (fun o => { o with bus := (a, d, write, c) }) s).ret c

/-- A read; data that it does not return is free. -/
def hatchReadServe (a : Word) (s : State) : State :=
  let r := busRead .hatch a.toNat 4 s
  if r.2.2.length = 4 then
    let s := hatchBusEnd a (BitVec.ofNat 32 (leVal r.2.2)) false r.2.1 r.1
    { s with reply := ⟨r.2.1, [BitVec.ofNat 32 (leVal r.2.2)]⟩ }
  else hatchBusEnd a (BitVec.ofNat 32 (r.1.freeVal 32)) false r.2.1 r.1.freeNext

/-- A write: at NARROW refused without a bus access. -/
def hatchWriteServe (a w : Word) (s : State) : State :=
  if s.get OWN_HATCH_STAT_level = 2 then
    let r := busWrite .hatch a.toNat (leBytes 4 w.toNat) s
    hatchBusEnd a 0 true (r.2.getD .done) r.1
  else
    let s := hatchSecret .hatch a.toNat 4 s
    hatchBusEnd a 0 true .notOwner (logRefusal .hatch a.toNat .notOwner s)

def hatchRead (a : Word) (s : State) : State :=
  if rqWaits .hatch a.toNat s then park (.hatch a none) s else hatchReadServe a s

def hatchWrite (a w : Word) (s : State) : State :=
  if s.get OWN_HATCH_STAT_level = 2 ∧ rqWaits .hatch a.toNat s then park (.hatch a (some w)) s else hatchWriteServe a w s

/-! ## The ports of the gated domain (R380) -/

/-- A request that has waited is served. -/
def waited (x : Waiting) (s : State) : State :=
  match x with
  | .write q a bytes => writeServe q a bytes s
  | .read q a => regRead q a s
  | .hatch a none => hatchReadServe a s
  | .hatch a (some w) => hatchWriteServe a w s
  | .window => windowServe s

/-- The domain has its clock: what waits at its ports is served in order, and a stop that waited for it goes on. -/
def thaw (s : State) : State :=
  if s.on CRP_CLK_STAT_sys_gated then s else stopOn (s.waits.foldl (fun s x => waited x s) { s with waits := [] })

/-! ## Meanings -/

def execPllLock (p : Fin 4) (s : State) : Out := .next (thaw (nofoscRelease (pllLock p s)))
def execFoscReady (s : State) : Out := .next (thaw (nofoscRelease (foscReady s)))

def execNofoscTimeout (s : State) : Out := .next (thaw (nofoscReset s))

def execClockSwitchDone (clkout forced : Bool) (s : State) : Out :=
  .next (if clkout then clkoutSwitched forced s else thaw (sysSwitched forced s))


def execCrateSent (l : Fin 10) (s : State) : Out := .next (crateSent l s)
def execRemoteRead (stale : Bool) (s : State) : Out := .next (remoteRead stale s)
def execRemoteWrite (stale : Bool) (s : State) : Out := .next (remoteWrite stale s)

/-- A write of byte 133 of page 0xB0, while that page is selected. -/
def execMgmtWindowTransaction (op : Byte) (s : State) : Out := .next (if s.own.page = 0xB0 then mgmtWrite 133 op false s else s)

def execMgmtPageWrite (b v : Byte) (flag : Bool) (s : State) : Out := .next (mgmtWrite b.toNat v flag s)
def execHatchBusRead (a : Word) (s : State) : Out := .next (hatchRun 0x20 (hatchRead a) s)
def execHatchBusWrite (a w : Word) (s : State) : Out := .next (hatchRun 0x20 (hatchWrite a w) s)

end Sys2Proof.Machine
end

