-- ==== Sys2Proof/Machine/IsaStep.lean ====
section
/-! DEFINITION. The instruction words of R276 read back, and HATCH_CORE (R458), which steps a halted core through them. -/

namespace Sys2Proof.Machine

/-! ## Decoding (R276, R277, R281) -/

/-- Major opcode 0x00, by fn. -/
def runA (c fn rd rs1 rs2 : Nat) (word : Word) : State → State :=
  match fn with
  | 0x000 => opA c rd rs1 rs2 (· + ·)
  | 0x001 => opA c rd rs1 rs2 (· - ·)
  | 0x002 => opA c rd rs1 rs2 (· &&& ·)
  | 0x003 => opA c rd rs1 rs2 (· ||| ·)
  | 0x004 => opA c rd rs1 rs2 (· ^^^ ·)
  | 0x005 => opA c rd rs1 rs2 fun a b => ~~~(a ||| b)
  | 0x008 => opA c rd rs1 rs2 sll
  | 0x009 => opA c rd rs1 rs2 srl
  | 0x00A => opA c rd rs1 rs2 sra
  | 0x00C => opA c rd rs1 rs2 slt
  | 0x00D => opA c rd rs1 rs2 sltu
  | 0x010 => opA c rd rs1 rs2 (· * ·)
  | 0x011 => opA c rd rs1 rs2 fun a b => hi32 (si a * si b)
  | 0x012 => opA c rd rs1 rs2 fun a b => hi32 (ui a * ui b)
  | 0x014 => opDiv c rd rs1 rs2 true divS
  | 0x015 => opDiv c rd rs1 rs2 false divU
  | 0x016 => opDiv c rd rs1 rs2 false remS
  | 0x017 => opDiv c rd rs1 rs2 false remU
  | _ => illegal c word

/-- Major opcode 0x3C, by imm[15:12]. -/
def runS (c sub rd rs1 : Nat) (imm : BitVec 12) (pins : Nat) (word : Word) : State → State :=
  match sub with
  | 0 => opCsrrw c rd rs1 imm
  | 1 => opCsrrd c rd rs1 imm
  | 2 => opCsrrm c rd rs1 imm
  | 8 => opWait c rd rs1 imm pins
  | 9 => opFence c rd rs1 imm
  | 10 => opEvwait c rd rs1 imm
  | 11 => opQpoint c rd rs1 imm
  | 12 => opTrap c rd rs1 imm
  | 13 => trap c 9 0 0
  | 14 => opRett c rd rs1 imm
  | _ => illegal c word

/-- Major opcode 0x30, by fn. -/
def runV (c fn xd xa xb sel : Nat) (word : Word) : State → State :=
  match fn with
  | 0x00 => opVec c xd xa xb sel 0x00 true fun _ a b => a + b
  | 0x01 => opVec c xd xa xb sel 0x01 true fun _ a b => a - b
  | 0x02 => opVec c xd xa xb sel 0x02 false fun _ a b => a * b
  | 0x03 => opVec c xd xa xb sel 0x03 true fun _ a b => q31 (a * b)
  | 0x04 => opVec c xd xa xb sel 0x04 true fun d a b => d + q31 (a * b)
  | 0x05 => opVec c xd xa xb sel 0x05 false fun _ a b => min a b
  | 0x06 => opVec c xd xa xb sel 0x06 false fun _ a b => max a b
  | 0x07 => opVabs c xd xa xb sel
  | 0x08 => opVshift c xd xa xb sel false
  | 0x09 => opVshift c xd xa xb sel true
  | 0x0A => opVsplat c xd xa xb sel
  | 0x0B => opVext c xd xa xb sel
  | 0x0C => opVins c xd xa xb sel
  | 0x0D => opVsum c xd xa xb sel
  | 0x0E => opVclamp c xd xa xb sel
  | 0x10 => opVld c xd xa xb sel
  | 0x11 => opVst c xd xa xb sel
  | _ => illegal c word

/-- Major opcode 0x31, by fn. -/
def runC (c fn xd xa xb sel : Nat) (word : Word) : State → State :=
  match fn with
  | 0x00 => opCadd c xd xa xb sel
  | 0x01 => opCsub c xd xa xb sel
  | 0x02 => opCmul c xd xa xb sel
  | 0x03 => opCmulj c xd xa xb sel
  | 0x04 => opCmac c xd xa xb sel
  | 0x05 => opConj c xd xa xb sel
  | 0x06 => opCmag2 c xd xa xb sel
  | 0x07 => opCscale c xd xa xb sel
  | 0x08 => opCshr c xd xa xb sel
  | 0x09 => opCpack c xd xa xb sel
  | _ => illegal c word

/-- Major opcode 0x32, by fn. -/
def runK (c fn xd xa xb sel : Nat) (word : Word) : State → State :=
  match fn with
  | 0x00 => opKcall c xd xa xb sel
  | 0x01 => opK c xd xa xb 0x01 sel fun a _ => karm a
  | 0x02 => opK c xd xa xb 0x02 sel fun a _ => kdisarm a
  | 0x03 => opK c xd xa xb 0x03 sel (kzero none)
  | _ => illegal c word

/-- Major opcodes 0x10 to 0x12, by sz and sx. -/
def runM (c op rt rb sz : Nat) (sx : Bool) (off : BitVec 13) (word : Word) : State → State :=
  match op, sz, sx with
  | 0x10, 0, sx => opLoad c rt rb off 1 sx
  | 0x10, 1, sx => opLoad c rt rb off 2 sx
  | 0x10, 2, false => opLoad c rt rb off 4 false
  | 0x11, 0, sx => opStore c rt rb sx off 1 0
  | 0x11, 1, sx => opStore c rt rb sx off 2 1
  | 0x11, 2, sx => opStore c rt rb sx off 4 2
  | 0x12, 2, sx => opXchg c rt rb sx off
  | _, _, _ => illegal c word

/-- What core c does with an instruction word. -/
def runWord (c : Nat) (word : Word) (pins : Nat) (s : State) : State :=
  let f := fieldOf word
  let imm : BitVec 16 := BitVec.ofNat 16 word.toNat
  let up : BitVec 21 := BitVec.ofNat 21 word.toNat
  let r1 := f 21 5
  let r2 := f 16 5
  match f 26 6 with
  | 0x00 => runA c (f 0 11) r1 r2 (f 11 5) word s
  | 0x01 => opI c r1 r2 (sext16 imm) (· + ·) s
  | 0x02 => opI c r1 r2 (zext16 imm) (· &&& ·) s
  | 0x03 => opI c r1 r2 (zext16 imm) (· ||| ·) s
  | 0x04 => alu c r1 (upper up) s
  | 0x05 => alu c r1 ((s.cpu c).pc + upper up) s
  | 0x06 => opLink c r1 ((s.cpu c).pc + 4 * up.signExtend 32) s
  | 0x07 => opI c r1 r2 (zext16 imm) (· ^^^ ·) s
  | 0x08 => opI c r1 r2 (sext16 imm) slt s
  | 0x09 => opI c r1 r2 (sext16 imm) sltu s
  | 0x0A => opShift c 0x0A r1 r2 imm (fun a n => a <<< n) s
  | 0x0B => opShift c 0x0B r1 r2 imm (fun a n => a >>> n) s
  | 0x0C => opShift c 0x0C r1 r2 imm (fun a n => a.sshiftRight n) s
  | 0x0D => opJalr c r1 r2 imm s
  | 0x18 => opB c r1 r2 imm (fun a b => decide (a = b)) s
  | 0x19 => opB c r1 r2 imm (fun a b => decide (a ≠ b)) s
  | 0x1A => opB c r1 r2 imm (fun a b => a.slt b) s
  | 0x1B => opB c r1 r2 imm (fun a b => !a.slt b) s
  | 0x1C => opB c r1 r2 imm (fun a b => a.ult b) s
  | 0x1D => opB c r1 r2 imm (fun a b => !a.ult b) s
  | 0x30 => runV c (f 3 8) r1 r2 (f 11 5) (f 0 3) word s
  | 0x31 => runC c (f 3 8) r1 r2 (f 11 5) (f 0 3) word s
  | 0x32 => runK c (f 3 8) r1 r2 (f 11 5) (f 0 3) word s
  | 0x3C => runS c (f 12 4) r1 r2 (BitVec.ofNat 12 word.toNat) pins word s
  | op => if 0x10 ≤ op ∧ op ≤ 0x12 then runM c op r1 r2 (f 14 2) (bit word 13) (BitVec.ofNat 13 word.toNat) word s else illegal c word s

/-! ## HATCH_CORE (R458) -/

/-- What reaches SC's registers or halts it zeroises the secrets first (R462). -/
def scSecrets (c : Nat) (s : State) : State := if c = 12 then zeroise s else s

/-- HALT: at the next instruction boundary, at once from WAIT or EVWAIT. -/
def hatchHalt (c : Nat) (s : State) : State :=
  let s := scSecrets c s
  if coreState c s ≠ 1 then s.ret .state
  else if inWait c s then (coreHalted c s).ret .done
  else (updCpu c (fun k => { k with haltReq := if k.haltReq = 0 then 2 else k.haltReq }) s).ret .held

def hatchResume (c : Nat) (s : State) : State :=
  if coreState c s = 2 then (s.set (OWN_CORE_STAT_state c) 1).ret .done else s.ret .state

/-- STEP: one instruction of a halted core. -/
def hatchStep (c pins : Nat) (s : State) : State :=
  if coreState c s ≠ 2 ∨ fullHeld s ∨ s.rst.wide ∨ s.stop ∨ s.on CRP_CLK_STAT_sys_gated then s.ret .state
  else
    let s := updCpu c (fun k => { k with wait := .run }) s
    let r := fetch c s
    let s := if r.2.1 = .done then runWord c r.2.2 pins r.1 else fetchTrap c r.2.1 r.1
    s.ret .done

/-- A register of a halted core as it reads. -/
def hregRead (c : Nat) (r : HReg) (s : State) : State :=
  match r with
  | .gpr i => s.retData [getW c i s]
  | .vec i => if hasV c then s.retData (getV c i s) else s.ret .range
  | .pc => s.retData [(s.cpu c).pc]
  | .csr n => if csrListed n.toNat ∧ (n.toNat / 1024 ≠ 2 ∨ c = 12) then
      let x := csrRead c n.toNat s
      x.1.retData [x.2]
    else s.ret .range

/-- A register of a halted core takes a value. -/
def hregWrite (c : Nat) (r : HReg) (v : List Word) (s : State) : State :=
  let w := nth v 0
  match r with
  | .gpr i => (setW c i w s).ret .done
  | .vec i => if hasV c then (setV c i ((List.range 8).map fun j => nth v j) s).ret .done else s.ret .range
  | .pc => (updCpu c (fun k => { k with pc := w }) s).ret .done
  | .csr n => if csrListed n.toNat ∧ (n.toNat / 1024 ≠ 2 ∨ c = 12) ∧ n.toNat / 512 % 2 = 0 then
      (csrWrite c n.toNat w s).ret .done
    else s.ret .range

/-- Register access: a read, or a write of `v`. -/
def hatchReg (c : Nat) (r : HReg) (v : Option (List Word)) (s : State) : State :=
  let s := scSecrets c s
  if coreState c s ≠ 2 then s.ret .state
  else match v with
    | none => hregRead c r s
    | some v => hregWrite c r v s

/-! ## Meanings -/

def execHatchCoreHalt (c : Fin 13) (s : State) : Out := .next (hatchRun 0x21 (hatchHalt c) s)
def execHatchCoreResume (c : Fin 13) (s : State) : Out := .next (hatchRun 0x21 (hatchResume c) s)
def execHatchCoreStep (c : Fin 13) (pins : BitVec 11) (s : State) : Out := .next (hatchRun 0x21 (hatchStep c pins.toNat) s)
def execHatchCoreRegAccess (c : Fin 13) (r : HReg) (v : Option (List Word)) (s : State) : Out :=
  .next (hatchRun 0x21 (hatchReg c r v) s)

end Sys2Proof.Machine
end

