-- ==== Sys2Proof/Machine/PathRun.lean ====
section
/-! DEFINITION. The band engine's datapath (chapter 06): samples crossing an input port, the chain of a band path (R178 to R189), the
samples of an output port (R176), and the meanings of the rows that bring samples in and out of containers (R126, R127, R170). -/

namespace Sys2Proof.Machine

/-! ## Time (R170, R189) -/

/-- Band-clock periods of one input sample of path k. -/
def inPeriod (k : Nat) (s : State) : Nat := 8 * 2 ^ rateIn k s

/-- The port timestamp of a sample that crosses input port p at band time t. -/
def portTime (p t : Nat) (s : State) : Int := (t : Int) - s.geti (BND_PIN2_ts_trim p)

/-- The signal time of an output sample of path k with port timestamp t. -/
def signalTime (k : Nat) (t : Int) (s : State) : Int := t - s.get (BND_PATH_DELAY_delay k)

/-! ## Output ports (R176) -/

/-- The sample that crossed input port p whose period holds band time t. -/
def carriedAt (p : Nat) (t : Int) (s : State) : Nat :=
  let per := 8 * 2 ^ s.get (BND_PIN_rate p)
  ((s.carry.find? fun c => decide (c.port = p) && decide ((c.t : Int) ≤ t) && decide (t < (c.t + per : Nat))).map Carried.w).getD 0

/-- Output port p passes what its source gives: it is enabled, the block is not held (R201) and the pair gates are open (R491). -/
def portOpen (p : Nat) (s : State) : Bool := !bndHeld s && !pairShut s && s.on (BND_POUT_en p)

/-- The sample that output port p sends at band time t: a carried input port 160 periods later, the sum of the samples that band paths have
sent, or zero. -/
def portVal (p : Nat) (t : Int) (s : State) : Nat :=
  if !portOpen p s then 0
  else match s.get (BND_POUT_src p) with
    | 1 => carriedAt (s.get (BND_POUT2_src_port p)) (t - 160) s
    | 2 => composite p t s
    | _ => 0

/-! ## The chain of a band path -/

/-- The canceller's estimate for an input sample with port timestamp t, in 2^-30 (R184): r[n - d] crossed the output port d sample
periods before it. -/
def cancelSum (k : Nat) (t : Int) (s : State) : Cx :=
  ((List.range 8).map fun c =>
    if s.on (BND_PATH_CXL_act_en k c) then
      clusterSum ((List.range 64).map fun i => (s.rd (BND_PATH_CXA k (64 * c + i))).toNat)
        ((List.range 64).map fun (i : Nat) =>
          composite (outPort k s) (t - ((s.get (BND_PATH_CXL_act_delay k c) + i) * inPeriod k s : Nat)) s)
    else (0, 0)).foldl cxAdd (0, 0)

/-- The channel filter's output now from its history, newest first (R180, R187). -/
def filterOut (k : Nat) (hist : List Nat) (s : State) : Cx × Bool :=
  let p := nth s.bnd k
  let xs := hist.map cplx
  let old := firCx (filterTaps p.actMode p.actN p.act) xs
  if s.on (BND_PATH_CF_fading k) then
    let new := firCx (filterTaps (s.get (BND_PATH_CF_mode k)) (s.get (BND_PATH_CF_n_taps k)) (inactiveBank k s)) xs
    let l := 2 ^ (8 + s.get (BND_PATH_CF_fade_len k))
    let j := min l ((s.bclk - p.fadeAt) / outPeriod k s)
    roundCx (fadeMix l j old.1 new.1, fadeMix l j old.2 new.2) (65536 * l)
  else roundCx old 65536

/-- One halfband stage: its history and output after a sample, with a gain of 1 or 2 (R182). -/
def halfbandStep (gain : Nat) (h : List Nat) (w : Nat) : List Nat × Cx × Bool :=
  let h := (w :: h).take 31
  (h, roundCx (cxScale gain (firCx halfbandTaps (h.map cplx))) 131072)

/-- A run of samples through one interpolating stage: a zero after every sample, double gain. -/
def interpStage (h : List Nat) (ws : List Nat) : List Nat × List Nat × Nat :=
  (ws.flatMap fun w => [w, 0]).foldl (fun (a : List Nat × List Nat × Nat) w =>
    let r := halfbandStep 2 a.1 w
    (r.1, a.2.1 ++ [cxWord r.2.1], a.2.2 + r.2.2.toNat)) (h, [], 0)

/-- One sample through one decimating stage, which keeps its output or not. -/
def decimStage (keep : Bool) (h : List Nat) : List Nat → List Nat × List Nat × Nat
  | [] => (h, [], 0)
  | w :: _ =>
    let r := halfbandStep 1 h w
    if keep then (r.1, [cxWord r.2.1], r.2.2.toNat) else (r.1, [], 0)

/-- The samples that `n` halfband stages from stage i on make of some samples, with their histories and how many they saturated. The
decimators keep the samples whose index is a multiple of their factor (R190). -/
def halfbands (interp : Bool) (idx : Nat) : Nat → Nat → List (List Nat) → List Nat → List (List Nat) × List Nat × Nat
  | 0, _, hs, ws => (hs, ws, 0)
  | _ + 1, _, [], ws => ([], ws, 0)
  | n + 1, i, h :: t, ws =>
    let a := if interp then interpStage h ws else decimStage (decide (idx % 2 ^ (i + 1) = 0)) h ws
    let r := halfbands interp idx n (i + 1) t a.2.1
    (a.1 :: r.1, r.2.1, a.2.2 + r.2.2)

/-- The TDD gate of path k stands open. -/
def gateOpen (k : Nat) (s : State) : Bool :=
  let p := nth s.rpt k
  p.gate && decide (p.gateAt ≤ s.bclk) && decide (s.bclk < p.gateEnd)

/-- The TDD gate's factor in sixteenths now (R225): over the first 16 output samples of a burst it rises, over the last 16 it falls, the
j-th by j sixteenths (log 153). A path that follows no TDD pattern is not gated. -/
def gateFactor (k : Nat) (s : State) : Nat :=
  let p := nth s.rpt k
  if !s.on (RPT_PATH_CFG_duplex k) then 16
  else if !gateOpen k s then 0
  else min 16 (min ((s.bclk - p.gateAt) / outPeriod k s + 1) (cdiv (p.gateEnd - s.bclk) (outPeriod k s) - 1))

/-- An output sample of path k that crosses its port now: the product of the gain stage and of the gate, rounded once (R171, R183, R225), or
the tone of a CAL, which bypasses them (R264). -/
def gained (k w : Nat) (s : State) : Cx × Bool :=
  match calTone k s with
  | some n => roundCx (cxScale (s.get (FEN_SEQ_CALAMP_amp n)) (ncoOut (calPhase n k s))) 131072
  | none => roundCx (cxScale (gainStage k s * gateFactor k s) (cplx w)) (2 ^ 44)

/-- An input sample of path k with port timestamp t crosses its port and runs through the chain to the gain stage: the points IN and RES,
the histories, the output samples, which cross the output port 480 periods later, and the correlators (R178 to R189, R194, R265). -/
def pathSample (k : Nat) (t : Int) (w : Nat) (s : State) : State :=
  let s := sampleCount k t s
  let p := nth s.bnd k
  let e := cancelSum k t s
  let res := roundCx (cxSub (cplx w) (divEven e.1 32768, divEven e.2 32768)) 1
  let beta := cplx (s.rd (BND_PATH_IQB k)).toNat
  let delta := cplx (s.rd (BND_PATH_DC k)).toNat
  let y := roundCx (mixed beta delta res.1 p.nco) (2 ^ 32)
  let hist := (cxWord y.1 :: p.hist).take 255
  let f := filterOut k hist s
  let h := halfbands (s.on (BND_PATH_CFG_hb_dir k)) p.idx (s.get (BND_PATH_CFG_hb k)) 0 p.hb [cxWord f.1]
  let ins := p.ins ++ [(w, cxWord res.1)]
  let fly : List Flight := h.2.1.zipIdx.map fun x => ⟨s.bandTime + 480 + x.2 * outPeriod k s, x.1, if x.2 = 0 then ins else []⟩
  let s := updBnd k (fun p => { p with
    hist := hist, hb := h.1, ins := if h.2.1.isEmpty then ins else [], fly := p.fly ++ fly }) s
  let s := calFeed k (iqCorrect beta delta res.1) (measFeed k 1 t (cxWord res.1) (measFeed k 0 t w s))
  satCount k (res.2.toNat + y.2.toNat + f.2.toNat + h.2.2) s

/-- The windows of path k take an output sample, with the samples at IN and RES that came with it and whether the gain stage saturated it
(R186, R215). -/
def meterSample (k : Nat) (ins : List (Nat × Nat)) (w : Nat) (sat : Bool) (s : State) : State :=
  let gate := gateOpen k s
  let watch := oscWatches k s
  updBnd k (fun p =>
    let edge := gate != p.gateWas
    let m := (p.mtr.add ins w sat gate edge).roll (2 ^ s.get (BND_PATH_MTR_CTRL_win k)) p.mtrs
    let o := if watch then (p.osc.add ins w sat gate edge).roll (2 ^ s.get (RPT_PATH_OSC_win k)) p.oscs else ({}, [])
    { p with mtr := m.1, mtrs := m.2, osc := o.1, oscs := o.2, gateWas := gate }) s

/-- An output sample of path k crosses its output port: the gain stage and the gate, the point OUT, and what the port sends of it. What the
canceller can still ask for stays known (R184). -/
def pathSend (k : Nat) (o : Flight) (s : State) : State :=
  let g := gained k o.w s
  let w := cxWord g.1
  let p := outPort k s
  let per := outPeriod k s
  let x : OutSample := ⟨o.t, p, per, if portOpen p s then w else 0⟩
  let s := updBnd k (fun b => { b with out := (x :: b.out).takeWhile (fun y => decide (o.t < y.t + 4096 * y.per + 65536)) }) s
  satCount k g.2.toNat (measFeed k 2 o.t w (meterSample k o.ins w g.2 s))

/-- The output samples of path k whose time has come cross its port; those of a path that no longer processes samples are gone. -/
def pathCross (k : Nat) (s : State) : State :=
  let p := nth s.bnd k
  if p.fly.isEmpty then s
  else if admState k s < 2 then updBnd k (fun p => { p with fly := [] }) s
  else
    let due := p.fly.takeWhile fun o => decide (o.t ≤ s.bandTime)
    due.foldl (fun s o => pathSend k o s) (updBnd k (fun p => { p with fly := p.fly.drop due.length }) s)

/-- The output samples of every band path whose time has come cross their ports. -/
def pathsCross (s : State) : State := if bndHeld s then s else forN 128 pathCross s

/-! ## Input ports -/

/-- A sample crosses input port p: every path, output port, listener channel and noise job that reads it takes it (R176, R178, R229, R248).
What a carrying port can still send stays known. -/
def portSampleIn (p w : Nat) (s : State) : State :=
  let t := s.bandTime
  let s := if carriageNames p s then { s with carry := (⟨p, t, w⟩ :: s.carry).takeWhile (fun c => decide (t < c.t + 8192)) } else s
  let s := if lstHeld s then s else
    forN 2 (fun ch s => if lstState ch s ≠ 0 ∧ s.get (LST_CH_SRC_port ch) = p then lstSample ch (portTime p t s) w s else s) s
  let s := nfSample p t w s
  forN 128 (fun k s =>
    if 2 ≤ admState k s ∧ s.get (BND_PATH_CFG_in_port k) = p then pathSample k (portTime p t s) w s else s) s

/-- Samples cross input port p one after the other, the first now. -/
def portIn (p : Nat) (ws : List Nat) (s : State) : State :=
  if bndHeld s then s
  else match ws with
    | [] => s
    | w :: t =>
      let per := 8 * 2 ^ s.get (BND_PIN_rate p)
      let later : List Carried := t.zipIdx.map fun x => ⟨p, s.bandTime + (x.2 + 1) * per, x.1⟩
      portSampleIn p w { s with inq := s.inq ++ later }

/-- The samples whose time has come cross their input ports; an entry that has been disabled takes none. -/
def portsCross (s : State) : State :=
  (s.inq.filter fun c => decide (c.t ≤ s.bandTime)).foldl (fun s c => if s.on (BND_PIN_en c.port) then portSampleIn c.port c.w s else s)
    { s with inq := s.inq.filter (fun c => decide (s.bandTime < c.t)) }

/-- The enabled entry of a port table that names a container, with its number. -/
def ctrPort (rx : Bool) (n c : Nat) (s : State) : Option (Nat × Word) :=
  let base := if rx then BND_PIN 0 else BND_POUT 0
  (s.regs.find? fun e => decide (base ≤ e.1) && decide (e.1 < base + 8192) && decide (e.1 % 8 = 0) && bit e.2 0 &&
    namesCtr n (some c) e.2).map fun e => ((e.1 - base) / 8, e.2)

/-- A block delivered to an enabled input port: a packed block whose exponent is too large decodes as zeros, counted with BFP_ERR
(R174); the cellar counts its bits (R500), but none that a standby shadows (R501). -/
def portBlock (n c blk : Nat) (s : State) : State :=
  match ctrPort true n c s with
  | none => s
  | some (p, w) =>
    let fmt := ctrFmt (ctrWord true n c s)
    let s := if fmt ≠ 0 ∧ 16 - bfpWidth fmt < blk % 16 ∧ !blkHeld 17 s then
        (s.addSat BND_BFP_ERR_count 1).flag ⟨BND_EVT, 8, 1⟩ 296
      else s
    portIn p (decodeBlock fmt blk) (if pairShut s then s else celRx (wf w (BND_PIN_tenant 0)) (blockBits fmt) s)

/-- 12 zero samples delivered to the port side (R127). -/
def portZeros (n c : Nat) (s : State) : State :=
  match ctrPort true n c s with
  | none => s
  | some (p, _) => portIn p (List.replicate 12 0) s

/-- One block played to the port side: the next one, or zero samples (R127). -/
def playBlock (n c : Nat) (s : State) : State :=
  match (nth (nth s.frm n).rxc c).wait with
  | some b :: t =>
    portBlock n c b (updFrm n (fun f => { f with rxc := upd f.rxc c fun x => { x with wait := t, played := b } }) s)
  | none :: t =>
    portZeros n c (frmEvt n 5 (frmCount n 8 1
      (updFrm n (fun f => { f with rxc := upd f.rxc c fun x => { x with wait := t, played := 0 } }) s)))
  | [] => portZeros n c (frmEvt n 5 (frmCount n 8 1 (updFrm n (fun f => { f with rxc := upd f.rxc c fun x => { x with played := 0 } }) s)))

/-- PLAYOUT_TICK (R127): a play-out instant of container c, once po_depth blocks have filled. Missing blocks count towards that
depth, and after an underrun play-out does not wait for it again (DESIGN CHOICE, log 147). -/
def playoutTick (n c : Nat) (s : State) : State :=
  let x := nth (nth s.frm n).rxc c
  if ctrEn (ctrWord true n c s) && s.on (FRM_LANE_CTRL_up n) && decide (s.get (FRM_LANE_CTRL_map n) = 2) && bandRuns s then
    if x.filled then playBlock n c s
    else if s.get (FRM_RCTR_po_depth n c) ≤ x.wait.length then
      playBlock n c (updFrm n (fun f => { f with rxc := upd f.rxc c fun x => { x with filled := true } }) s)
    else s
  else s

/-! ## Output samples to containers and links -/

/-- The 12 samples that output port p has sent by now. -/
def portRun (p : Nat) (s : State) : List Nat :=
  let per := 8 * 2 ^ s.get (BND_POUT_rate p)
  (List.range 12).map fun (i : Nat) => portVal p ((s.bandTime : Int) - (12 - i : Nat) * per) s

/-- The block that the port side has for transmit container c: the samples of the enabled output port that names it, or zeros while the
band engine is held and its output port sent there (R201). -/
def portBlockOut (n c : Nat) (s : State) : Option Nat :=
  if bndHeld s then (if s.bndZero.contains (n, c) then some 0 else none)
  else (ctrPort false n c s).map fun x => encodeBlock (ctrFmt (ctrWord false n c s)) (portRun x.1 s)

/-- CONTAINER_BLOCK_IN (R126, R173): the port side has 12 more samples for container c; they make a block of its format. A container
that no output port names gets no block. -/
def containerBlockIn (n c : Nat) (s : State) : State :=
  match portBlockOut n c s with
  | none => s
  | some blk =>
    if ctrEn (ctrWord false n c s) then
      let full := decide (4 ≤ (nth (nth s.frm n).txc c).wait.length)
      let s := updFrm n (fun f => { f with txc := upd f.txc c fun x =>
        { x with wait := (if full then x.wait.drop 1 else x.wait) ++ [blk] } }) s
      if full then frmEvt n 5 (frmCount n 9 1 s) else s
    else s

/-- The enabled entries of a port table for the streams of the link at f: port and stream. -/
def linkPorts (out : Bool) (f : Nat) (s : State) : List (Nat × Nat) :=
  let base := if out then BND_POUT 0 else BND_PIN 0
  (s.regs.filter fun e => decide (base ≤ e.1) && decide (e.1 < base + 8192) && decide (e.1 % 8 = 0) && bit e.2 0 &&
    decide (wf e.2 (BND_PIN_kind 0) = 2) && decide (wf e.2 (BND_PIN_lane 0) = f)).map
    fun e => ((e.1 - base) / 8, wf e.2 (BND_PIN_idx 0))

/-- The converter samples that the transmit link at f sends at time t (R162, R176): zeros where no port feeds a stream. -/
def linkSends (f : Nat) (t : Int) (s : State) : List Nat :=
  streamConv ((List.range ((jesdTx f s).m / 2)).map fun c =>
    match (linkPorts true f s).find? fun x => decide (x.2 = c) with
    | some x => portVal x.1 t s
    | none => 0)

/-- The receive link that starts at f is READY on all its lanes. -/
def jesdUp (f : Nat) (s : State) : Bool :=
  match linkOf f s with
  | some x => decide (x.1 = f) && (linkLanes x).all fun j => decide (hostState j s = 4)
  | none => false

/-- A sample instant of the receive link at f: its samples arrive from its release on (R164, R170). -/
def linkInstant (f : Nat) (s : State) : Bool :=
  let a := (nth s.host f).relAt
  jesdUp f s && decide (a ≤ s.bclk) && decide ((s.bclk - a) % (8 * 2 ^ (jesdRx f s).rate) = 0)

/-- A band-clock period: every READY receive link whose sample instant it is gives one sample of each converter (R162), which the
cellar's tap counts (R500), but not of a standby (R501). What the pins carry is free (log 154). -/
def linkTick (s : State) : State :=
  if bndHeld s || !bandRuns s then s
  else
    forN 8 (fun f s =>
      if linkInstant f s then
        let m := (jesdRx f s).m
        let conv := (List.range m).map fun i => Config.freeValue (s.free + i) % 65536
        (linkPorts false f s).foldl (fun s x => portIn x.1 [streamSample conv x.2]
            (if pairShut s then s else celRx (s.get (BND_PIN_tenant x.1)) 32 s))
          { s with free := s.free + m }
      else s) s

/-- The cellar's tap of the converter output ports (R500, R501): at its sample instant a port with src 1 or 2 counts 32 bits, and the
energy of its sample. Behind closed pair gates nothing is counted. -/
def outTap (s : State) : State :=
  if bndHeld s || pairShut s || !bandRuns s then s
  else
    (s.regs.filter fun e => decide (BND_POUT 0 ≤ e.1) && decide (e.1 < BND_POUT 0 + 8192) && decide (e.1 % 8 = 0) && bit e.2 0 &&
      decide (wf e.2 (BND_POUT_kind 0) = 2)).foldl (fun s e =>
        let p := (e.1 - BND_POUT 0) / 8
        let src := wf e.2 (BND_POUT_src 0)
        let r := wf e.2 (BND_POUT_rate 0)
        if s.bclk % (8 * 2 ^ r) = 0 ∧ (src = 1 ∨ src = 2) then
          celAdd (wf e.2 (BND_POUT_tenant 0))
            (fun x => { x with tx := x.tx + 32, en := x.en + cxPow (cplx (portVal p s.bandTime s)) * 2 ^ r }) s
        else s) s

/-! ## Meanings -/

def execContainerBlockIn (n : Fin 8) (c : Fin 128) (s : State) : Out := .next (containerBlockIn n c s)
def execPlayoutTick (n : Fin 8) (c : Fin 128) (s : State) : Out := .next (playoutTick n c s)

end Sys2Proof.Machine
end

