-- ==== Sys2Proof/Machine/Dispatch.lean ====
section
/-! DEFINITION. Which meaning each command has. -/

namespace Sys2Proof.Machine

def exec (i : Instr) (s : State) : Host.Outcome State Fault Refusal :=
  match i with
  | .registerWrite q a w => Sys2Proof.Machine.execRegisterWrite q a w s
  | .mappingChange q n w => Sys2Proof.Machine.execMappingChange q n w s
  | .laneUp q n w => Sys2Proof.Machine.execLaneUp q n w s
  | .laneDown q n w => Sys2Proof.Machine.execLaneDown q n w s
  | .rampTick => Sys2Proof.Machine.execRampTick s
  | .rxEnOn q n w => Sys2Proof.Machine.execRxEnOn q n w s
  | .fgCalDone n est failed => Sys2Proof.Machine.execFgCalDone n est failed s
  | .rxEnOff q n w => Sys2Proof.Machine.execRxEnOff q n w s
  | .rotationResume n => Sys2Proof.Machine.execRotationResume n s
  | .sparePhaseEnd n est stuck => Sys2Proof.Machine.execSparePhaseEnd n est stuck s
  | .skewPhaseEnd n est => Sys2Proof.Machine.execSkewPhaseEnd n est s
  | .slotHandover n cont => Sys2Proof.Machine.execSlotHandover n cont s
  | .hold q n k => Sys2Proof.Machine.execHold q n k s
  | .calResume q n k => Sys2Proof.Machine.execCalResume q n k s
  | .recal q n k => Sys2Proof.Machine.execRecal q n k s
  | .releaseSlice q n k => Sys2Proof.Machine.execReleaseSlice q n k s
  | .swingWrite q n w => Sys2Proof.Machine.execSwingWrite q n w s
  | .firCommit q n w => Sys2Proof.Machine.execFirCommit q n w s
  | .pdSwap q n w => Sys2Proof.Machine.execPdSwap q n w s
  | .txCommitApply n => Sys2Proof.Machine.execTxCommitApply n s
  | .blockBoundary n codes look => Sys2Proof.Machine.execBlockBoundary n codes look s
  | .monitorWindowEnd n => Sys2Proof.Machine.execMonitorWindowEnd n s
  | .detEnable q n w => Sys2Proof.Machine.execDetEnable q n w s
  | .detDisable q n w => Sys2Proof.Machine.execDetDisable q n w s
  | .detAcquire q n => Sys2Proof.Machine.execDetAcquire q n s
  | .detDetect q n => Sys2Proof.Machine.execDetDetect q n s
  | .detLock q n => Sys2Proof.Machine.execDetLock q n s
  | .detDrop q n => Sys2Proof.Machine.execDetDrop q n s
  | .lmsAccum q n u => Sys2Proof.Machine.execLmsAccum q n u s
  | .lmsAccumDone n u => Sys2Proof.Machine.execLmsAccumDone n u s
  | .lmsApply q n u mu => Sys2Proof.Machine.execLmsApply q n u mu s
  | .eqTapWrite q n k w => Sys2Proof.Machine.execEqTapWrite q n k w s
  | .levelSwap q n => Sys2Proof.Machine.execLevelSwap q n s
  | .histRun q n w => Sys2Proof.Machine.execHistRun q n w s
  | .histDone n => Sys2Proof.Machine.execHistDone n s
  | .rxFrame n arr => Sys2Proof.Machine.execRxFrame n arr s
  | .puncturePhaseAdvance n => Sys2Proof.Machine.execPuncturePhaseAdvance n s
  | .rsCodewordDecode n g k => Sys2Proof.Machine.execRsCodewordDecode n g k s
  | .txFrameStart host => Sys2Proof.Machine.execTxFrameStart host s
  | .containerBlockIn n c => Sys2Proof.Machine.execContainerBlockIn n c s
  | .rxCell n => Sys2Proof.Machine.execRxCell n s
  | .playoutTick n c => Sys2Proof.Machine.execPlayoutTick n c s
  | .containerWrite q n rx c w => Sys2Proof.Machine.execContainerWrite q n rx c w s
  | .txEnable q n => Sys2Proof.Machine.execTxEnable q n s
  | .txSquelch q n => Sys2Proof.Machine.execTxSquelch q n s
  | .squelchStep n => Sys2Proof.Machine.execSquelchStep n s
  | .fecWindowEnd n => Sys2Proof.Machine.execFecWindowEnd n s
  | .frmCounterSnap q n => Sys2Proof.Machine.execFrmCounterSnap q n s
  | .hostModeWrite q n w => Sys2Proof.Machine.execHostModeWrite q n w s
  | .hostStart q n => Sys2Proof.Machine.execHostStart q n s
  | .hostRetrain q n => Sys2Proof.Machine.execHostRetrain q n s
  | .hostStop q n => Sys2Proof.Machine.execHostStop q n s
  | .hostResync q n => Sys2Proof.Machine.execHostResync q n s
  | .hostLockAcquired n snr => Sys2Proof.Machine.execHostLockAcquired n snr s
  | .hostAcquireTimeout n => Sys2Proof.Machine.execHostAcquireTimeout n s
  | .trainingFrameRx n mark ctl sts snr => Sys2Proof.Machine.execTrainingFrameRx n mark ctl sts snr s
  | .trainTimeout n => Sys2Proof.Machine.execTrainTimeout n s
  | .trainAutoReady n => Sys2Proof.Machine.execTrainAutoReady n s
  | .hostTrainReqWrite q n w => Sys2Proof.Machine.execHostTrainReqWrite q n w s
  | .hostTxFirWrite q n k w => Sys2Proof.Machine.execHostTxFirWrite q n k w s
  | .hostTxFirApply n => Sys2Proof.Machine.execHostTxFirApply n s
  | .hostGroupAlign n size ids skewPs => Sys2Proof.Machine.execHostGroupAlign n size ids skewPs s
  | .hostLaneLost n why => Sys2Proof.Machine.execHostLaneLost n why s
  | .hostSyncEdge => Sys2Proof.Machine.execHostSyncEdge s
  | .hostSysrefArm q n w => Sys2Proof.Machine.execHostSysrefArm q n w s
  | .jesdRelease n got occ crc => Sys2Proof.Machine.execJesdRelease n got occ crc s
  | .sysrefTimeout n => Sys2Proof.Machine.execSysrefTimeout n s
  | .patternGenEnable q n w => Sys2Proof.Machine.execPatternGenEnable q n w s
  | .patternInject q n w => Sys2Proof.Machine.execPatternInject q n w s
  | .checkerLock n => Sys2Proof.Machine.execCheckerLock n s
  | .checkerUnlock n bits errs => Sys2Proof.Machine.execCheckerUnlock n bits errs s
  | .patternSnap q n w bits errs => Sys2Proof.Machine.execPatternSnap q n w bits errs s
  | .hostCodewordDecode n k rx => Sys2Proof.Machine.execHostCodewordDecode n k rx s
  | .hostFecSnap q n => Sys2Proof.Machine.execHostFecSnap q n s
  | .portEnable q out p w => Sys2Proof.Machine.execPortEnable q out p w s
  | .portDisable q out p w => Sys2Proof.Machine.execPortDisable q out p w s
  | .admitPath q k => Sys2Proof.Machine.execAdmitPath q k s
  | .release q k => Sys2Proof.Machine.execRelease q k s
  | .releaseRampEnd k => Sys2Proof.Machine.execReleaseRampEnd k s
  | .queuePass d => Sys2Proof.Machine.execQueuePass d s
  | .admFloorWrite q r w => Sys2Proof.Machine.execAdmFloorWrite q r w s
  | .pathGainWrite q k w => Sys2Proof.Machine.execPathGainWrite q k w s
  | .filterCommit q k w => Sys2Proof.Machine.execFilterCommit q k w s
  | .xfadeEnd k => Sys2Proof.Machine.execXfadeEnd k s
  | .cancellerSwap q k => Sys2Proof.Machine.execCancellerSwap q k s
  | .meterWindowEnd k => Sys2Proof.Machine.execMeterWindowEnd k s
  | .bandSyncEdge ago low => Sys2Proof.Machine.execBandSyncEdge ago low s
  | .bandSyncGlitch => Sys2Proof.Machine.execBandSyncGlitch s
  | .bandSyncArm q w => Sys2Proof.Machine.execBandSyncArm q w s
  | .syncRestart => Sys2Proof.Machine.execSyncRestart s
  | .syncStuck => Sys2Proof.Machine.execSyncStuck s
  | .syncCmd q w => Sys2Proof.Machine.execSyncCmd q w s
  | .measRun q w => Sys2Proof.Machine.execMeasRun q w s
  | .measEnd => Sys2Proof.Machine.execMeasEnd s
  | .bndSyncStatRead q => Sys2Proof.Machine.execBndSyncStatRead q s
  | .bndPathSatRead q k => Sys2Proof.Machine.execBndPathSatRead q k s
  | .bndTimeLRead q => Sys2Proof.Machine.execBndTimeLRead q s
  | .repeaterTick => Sys2Proof.Machine.execRepeaterTick s
  | .isoAppStep k => Sys2Proof.Machine.execIsoAppStep k s
  | .creditStep k => Sys2Proof.Machine.execCreditStep k s
  | .rptArm q k => Sys2Proof.Machine.execRptArm q k s
  | .rptMute q k => Sys2Proof.Machine.execRptMute q k s
  | .rptOff q k => Sys2Proof.Machine.execRptOff q k s
  | .rptClear q k => Sys2Proof.Machine.execRptClear q k s
  | .armingEnd k => Sys2Proof.Machine.execArmingEnd k s
  | .mutingEnd k => Sys2Proof.Machine.execMutingEnd k s
  | .autoRearm k => Sys2Proof.Machine.execAutoRearm k s
  | .oscWindowEnd k => Sys2Proof.Machine.execOscWindowEnd k s
  | .oscHoldExpire k => Sys2Proof.Machine.execOscHoldExpire k s
  | .ceilWindowEnd p => Sys2Proof.Machine.execCeilWindowEnd p s
  | .clDecayStep p => Sys2Proof.Machine.execClDecayStep p s
  | .ceilHoldExpire k => Sys2Proof.Machine.execCeilHoldExpire k s
  | .nrEvaluate k => Sys2Proof.Machine.execNrEvaluate k s
  | .nrRelax k => Sys2Proof.Machine.execNrRelax k s
  | .donorHoldExpire k => Sys2Proof.Machine.execDonorHoldExpire k s
  | .muteNAssert => Sys2Proof.Machine.execMuteNAssert s
  | .muteNDeassert => Sys2Proof.Machine.execMuteNDeassert s
  | .muteNGlitch => Sys2Proof.Machine.execMuteNGlitch s
  | .muteNStuck => Sys2Proof.Machine.execMuteNStuck s
  | .rptMuteCntRead q => Sys2Proof.Machine.execRptMuteCntRead q s
  | .rptCeilWrite q w => Sys2Proof.Machine.execRptCeilWrite q w s
  | .lstStart q ch => Sys2Proof.Machine.execLstStart q ch s
  | .lstStop q ch => Sys2Proof.Machine.execLstStop q ch s
  | .lstRestart q ch => Sys2Proof.Machine.execLstRestart q ch s
  | .agcWindowEnd ch => Sys2Proof.Machine.execAgcWindowEnd ch s
  | .syncDetect ch => Sys2Proof.Machine.execSyncDetect ch s
  | .sssEvaluate ch => Sys2Proof.Machine.execSssEvaluate ch s
  | .pbchDecode ch soft => Sys2Proof.Machine.execPbchDecode ch soft s
  | .watchPeak ch eval => Sys2Proof.Machine.execWatchPeak ch eval s
  | .candidateExpire ch => Sys2Proof.Machine.execCandidateExpire ch s
  | .nrbufRelease q ch => Sys2Proof.Machine.execNrbufRelease q ch s
  | .presenceExpire r => Sys2Proof.Machine.execPresenceExpire r s
  | .timingStale ch => Sys2Proof.Machine.execTimingStale ch s
  | .tddPatternWrite q ch w => Sys2Proof.Machine.execTddPatternWrite q ch w s
  | .tddPatternActivate ch => Sys2Proof.Machine.execTddPatternActivate ch s
  | .nfPublish g => Sys2Proof.Machine.execNfPublish g s
  | .nfExpire g => Sys2Proof.Machine.execNfExpire g s
  | .lstChCntRead q ch => Sys2Proof.Machine.execLstChCntRead q ch s
  | .lstRxTimeLRead q ch => Sys2Proof.Machine.execLstRxTimeLRead q ch s
  | .seqStandby q n => Sys2Proof.Machine.execSeqStandby q n s
  | .seqRx q n => Sys2Proof.Machine.execSeqRx q n s
  | .seqTx q n dur => Sys2Proof.Machine.execSeqTx q n dur s
  | .seqSettle q n => Sys2Proof.Machine.execSeqSettle q n s
  | .seqCal q n => Sys2Proof.Machine.execSeqCal q n s
  | .seqOff q n => Sys2Proof.Machine.execSeqOff q n s
  | .seqTxDurExpire n => Sys2Proof.Machine.execSeqTxDurExpire n s
  | .feLockQualify n im => Sys2Proof.Machine.execFeLockQualify n im s
  | .feLockFall im => Sys2Proof.Machine.execFeLockFall im s
  | .heldTxEnter n => Sys2Proof.Machine.execHeldTxEnter n s
  | .txHoldExpire n => Sys2Proof.Machine.execTxHoldExpire n s
  | .settleDone n => Sys2Proof.Machine.execSettleDone n s
  | .settleTimeout n => Sys2Proof.Machine.execSettleTimeout n s
  | .calPassEnd n => Sys2Proof.Machine.execCalPassEnd n s
  | .burstTxEnter n sym => Sys2Proof.Machine.execBurstTxEnter n sym s
  | .burstRxEnter n sym => Sys2Proof.Machine.execBurstRxEnter n sym s
  | .burstLeave n => Sys2Proof.Machine.execBurstLeave n s
  | .tddGateEdge k opens => Sys2Proof.Machine.execTddGateEdge k opens s
  | .spiGo q m => Sys2Proof.Machine.execSpiGo q m s
  | .spiTransferEnd m rx => Sys2Proof.Machine.execSpiTransferEnd m rx s
  | .rfcOwnWrite q high w => Sys2Proof.Machine.execRfcOwnWrite q high w s
  | .coexCtrlWrite q w => Sys2Proof.Machine.execCoexCtrlWrite q w s
  | .coexReqAssert n => Sys2Proof.Machine.execCoexReqAssert n s
  | .coexGrantAssert => Sys2Proof.Machine.execCoexGrantAssert s
  | .coexGrantDeassert => Sys2Proof.Machine.execCoexGrantDeassert s
  | .coexGrantGlitch => Sys2Proof.Machine.execCoexGrantGlitch s
  | .coexGrantStuck => Sys2Proof.Machine.execCoexGrantStuck s
  | .fenCoexCntRead q => Sys2Proof.Machine.execFenCoexCntRead q s
  | .fenSeqCntRead q n => Sys2Proof.Machine.execFenSeqCntRead q n s
  | .add c rd rs1 rs2 => Sys2Proof.Machine.execAdd c rd rs1 rs2 s
  | .sub c rd rs1 rs2 => Sys2Proof.Machine.execSub c rd rs1 rs2 s
  | .and c rd rs1 rs2 => Sys2Proof.Machine.execAnd c rd rs1 rs2 s
  | .or c rd rs1 rs2 => Sys2Proof.Machine.execOr c rd rs1 rs2 s
  | .xor c rd rs1 rs2 => Sys2Proof.Machine.execXor c rd rs1 rs2 s
  | .nor c rd rs1 rs2 => Sys2Proof.Machine.execNor c rd rs1 rs2 s
  | .sll c rd rs1 rs2 => Sys2Proof.Machine.execSll c rd rs1 rs2 s
  | .srl c rd rs1 rs2 => Sys2Proof.Machine.execSrl c rd rs1 rs2 s
  | .sra c rd rs1 rs2 => Sys2Proof.Machine.execSra c rd rs1 rs2 s
  | .slt c rd rs1 rs2 => Sys2Proof.Machine.execSlt c rd rs1 rs2 s
  | .sltu c rd rs1 rs2 => Sys2Proof.Machine.execSltu c rd rs1 rs2 s
  | .mul c rd rs1 rs2 => Sys2Proof.Machine.execMul c rd rs1 rs2 s
  | .mulh c rd rs1 rs2 => Sys2Proof.Machine.execMulh c rd rs1 rs2 s
  | .mulhu c rd rs1 rs2 => Sys2Proof.Machine.execMulhu c rd rs1 rs2 s
  | .div c rd rs1 rs2 => Sys2Proof.Machine.execDiv c rd rs1 rs2 s
  | .divu c rd rs1 rs2 => Sys2Proof.Machine.execDivu c rd rs1 rs2 s
  | .rem c rd rs1 rs2 => Sys2Proof.Machine.execRem c rd rs1 rs2 s
  | .remu c rd rs1 rs2 => Sys2Proof.Machine.execRemu c rd rs1 rs2 s
  | .addi c rd rs1 im => Sys2Proof.Machine.execAddi c rd rs1 im s
  | .andi c rd rs1 im => Sys2Proof.Machine.execAndi c rd rs1 im s
  | .ori c rd rs1 im => Sys2Proof.Machine.execOri c rd rs1 im s
  | .xori c rd rs1 im => Sys2Proof.Machine.execXori c rd rs1 im s
  | .slti c rd rs1 im => Sys2Proof.Machine.execSlti c rd rs1 im s
  | .sltiu c rd rs1 im => Sys2Proof.Machine.execSltiu c rd rs1 im s
  | .slli c rd rs1 im => Sys2Proof.Machine.execSlli c rd rs1 im s
  | .srli c rd rs1 im => Sys2Proof.Machine.execSrli c rd rs1 im s
  | .srai c rd rs1 im => Sys2Proof.Machine.execSrai c rd rs1 im s
  | .jalr c rd rs1 im => Sys2Proof.Machine.execJalr c rd rs1 im s
  | .lui c rd im => Sys2Proof.Machine.execLui c rd im s
  | .auipc c rd im => Sys2Proof.Machine.execAuipc c rd im s
  | .jal c rd im => Sys2Proof.Machine.execJal c rd im s
  | .lb c rt rb off => Sys2Proof.Machine.execLb c rt rb off s
  | .lbu c rt rb off => Sys2Proof.Machine.execLbu c rt rb off s
  | .lh c rt rb off => Sys2Proof.Machine.execLh c rt rb off s
  | .lhu c rt rb off => Sys2Proof.Machine.execLhu c rt rb off s
  | .lw c rt rb off => Sys2Proof.Machine.execLw c rt rb off s
  | .sb c rt rb sx off => Sys2Proof.Machine.execSb c rt rb sx off s
  | .sh c rt rb sx off => Sys2Proof.Machine.execSh c rt rb sx off s
  | .sw c rt rb sx off => Sys2Proof.Machine.execSw c rt rb sx off s
  | .xchg c rt rb sx off => Sys2Proof.Machine.execXchg c rt rb sx off s
  | .beq c rs1 rs2 off => Sys2Proof.Machine.execBeq c rs1 rs2 off s
  | .bne c rs1 rs2 off => Sys2Proof.Machine.execBne c rs1 rs2 off s
  | .blt c rs1 rs2 off => Sys2Proof.Machine.execBlt c rs1 rs2 off s
  | .bge c rs1 rs2 off => Sys2Proof.Machine.execBge c rs1 rs2 off s
  | .bltu c rs1 rs2 off => Sys2Proof.Machine.execBltu c rs1 rs2 off s
  | .bgeu c rs1 rs2 off => Sys2Proof.Machine.execBgeu c rs1 rs2 off s
  | .csrrw c rd rs1 n => Sys2Proof.Machine.execCsrrw c rd rs1 n s
  | .csrrd c rd rs1 n => Sys2Proof.Machine.execCsrrd c rd rs1 n s
  | .csrrm c rd rs1 n => Sys2Proof.Machine.execCsrrm c rd rs1 n s
  | .wait c rd rs1 imm pins => Sys2Proof.Machine.execWait c rd rs1 imm pins s
  | .waitWake c => Sys2Proof.Machine.execWaitWake c s
  | .fence c rd rs1 imm => Sys2Proof.Machine.execFence c rd rs1 imm s
  | .evwait c rd rs1 imm => Sys2Proof.Machine.execEvwait c rd rs1 imm s
  | .evwaitEvent c => Sys2Proof.Machine.execEvwaitEvent c s
  | .evwaitTimeout c => Sys2Proof.Machine.execEvwaitTimeout c s
  | .qpoint c rd rs1 imm => Sys2Proof.Machine.execQpoint c rd rs1 imm s
  | .shelfSwap c => Sys2Proof.Machine.execShelfSwap c s
  | .trap c rd rs1 imm => Sys2Proof.Machine.execTrap c rd rs1 imm s
  | .brk c => Sys2Proof.Machine.execBrk c s
  | .rett c rd rs1 imm => Sys2Proof.Machine.execRett c rd rs1 imm s
  | .eventTrap c => Sys2Proof.Machine.execEventTrap c s
  | .nmiTrap => Sys2Proof.Machine.execNmiTrap s
  | .storeCompletion c stale => Sys2Proof.Machine.execStoreCompletion c stale s
  | .storeErrTrap c => Sys2Proof.Machine.execStoreErrTrap c s
  | .staleReply q a => Sys2Proof.Machine.execStaleReply q a s
  | .vadd c xd xa xb sel => Sys2Proof.Machine.execVadd c xd xa xb sel s
  | .vsub c xd xa xb sel => Sys2Proof.Machine.execVsub c xd xa xb sel s
  | .vmul c xd xa xb sel => Sys2Proof.Machine.execVmul c xd xa xb sel s
  | .vmulq c xd xa xb sel => Sys2Proof.Machine.execVmulq c xd xa xb sel s
  | .vmac c xd xa xb sel => Sys2Proof.Machine.execVmac c xd xa xb sel s
  | .vmin c xd xa xb sel => Sys2Proof.Machine.execVmin c xd xa xb sel s
  | .vmax c xd xa xb sel => Sys2Proof.Machine.execVmax c xd xa xb sel s
  | .vabs c xd xa xb sel => Sys2Proof.Machine.execVabs c xd xa xb sel s
  | .vshr c xd xa xb sel => Sys2Proof.Machine.execVshr c xd xa xb sel s
  | .vshl c xd xa xb sel => Sys2Proof.Machine.execVshl c xd xa xb sel s
  | .vsplat c xd xa xb sel => Sys2Proof.Machine.execVsplat c xd xa xb sel s
  | .vext c xd xa xb sel => Sys2Proof.Machine.execVext c xd xa xb sel s
  | .vins c xd xa xb sel => Sys2Proof.Machine.execVins c xd xa xb sel s
  | .vsum c xd xa xb sel => Sys2Proof.Machine.execVsum c xd xa xb sel s
  | .vclamp c xd xa xb sel => Sys2Proof.Machine.execVclamp c xd xa xb sel s
  | .vld c xd xa xb sel => Sys2Proof.Machine.execVld c xd xa xb sel s
  | .vst c xd xa xb sel => Sys2Proof.Machine.execVst c xd xa xb sel s
  | .cadd c xd xa xb sel => Sys2Proof.Machine.execCadd c xd xa xb sel s
  | .csub c xd xa xb sel => Sys2Proof.Machine.execCsub c xd xa xb sel s
  | .cmul c xd xa xb sel => Sys2Proof.Machine.execCmul c xd xa xb sel s
  | .cmulj c xd xa xb sel => Sys2Proof.Machine.execCmulj c xd xa xb sel s
  | .cmac c xd xa xb sel => Sys2Proof.Machine.execCmac c xd xa xb sel s
  | .conj c xd xa xb sel => Sys2Proof.Machine.execConj c xd xa xb sel s
  | .cmag2 c xd xa xb sel => Sys2Proof.Machine.execCmag2 c xd xa xb sel s
  | .cscale c xd xa xb sel => Sys2Proof.Machine.execCscale c xd xa xb sel s
  | .cshr c xd xa xb sel => Sys2Proof.Machine.execCshr c xd xa xb sel s
  | .cpack c xd xa xb sel => Sys2Proof.Machine.execCpack c xd xa xb sel s
  | .kcall c xd xa xb sel => Sys2Proof.Machine.execKcall c xd xa xb sel s
  | .karm c xd xa xb sel => Sys2Proof.Machine.execKarm c xd xa xb sel s
  | .kdisarm c xd xa xb sel => Sys2Proof.Machine.execKdisarm c xd xa xb sel s
  | .kzero c xd xa xb sel stop => Sys2Proof.Machine.execKzero c xd xa xb sel stop s
  | .coreBootShelfSet q c b => Sys2Proof.Machine.execCoreBootShelfSet q c b s
  | .coreStart q c b => Sys2Proof.Machine.execCoreStart q c b s
  | .coreHalt q c b => Sys2Proof.Machine.execCoreHalt q c b s
  | .coreHaltDone c => Sys2Proof.Machine.execCoreHaltDone c s
  | .coreResume q c b => Sys2Proof.Machine.execCoreResume q c b s
  | .coreReset q c b => Sys2Proof.Machine.execCoreReset q c b s
  | .loaderLoad q c => Sys2Proof.Machine.execLoaderLoad q c s
  | .loadComplete => Sys2Proof.Machine.execLoadComplete s
  | .shelfWrite q c sh o bytes => Sys2Proof.Machine.execShelfWrite q c sh o bytes s
  | .softwareEventRaise q w => Sys2Proof.Machine.execSoftwareEventRaise q w s
  | .lockstepMismatch => Sys2Proof.Machine.execLockstepMismatch s
  | .wdogKick q w => Sys2Proof.Machine.execWdogKick q w s
  | .wdogExpire => Sys2Proof.Machine.execWdogExpire s
  | .wdogReset => Sys2Proof.Machine.execWdogReset s
  | .cntOverflow c j => Sys2Proof.Machine.execCntOverflow c j s
  | .pmcOverflow j => Sys2Proof.Machine.execPmcOverflow j s
  | .pmcCntLRead q j => Sys2Proof.Machine.execPmcCntLRead q j s
  | .mergeRetire u im => Sys2Proof.Machine.execMergeRetire u im s
  | .memoryFillDone => Sys2Proof.Machine.execMemoryFillDone s
  | .scrubRead u => Sys2Proof.Machine.execScrubRead u s
  | .memCorrRead q => Sys2Proof.Machine.execMemCorrRead q s
  | .arbGrant p waiting => Sys2Proof.Machine.execArbGrant p waiting s
  | .targetTimeout q a => Sys2Proof.Machine.execTargetTimeout q a s
  | .dmaStart q c => Sys2Proof.Machine.execDmaStart q c s
  | .dmaStop q c => Sys2Proof.Machine.execDmaStop q c s
  | .dmaResume q c => Sys2Proof.Machine.execDmaResume q c s
  | .descriptorFetch c => Sys2Proof.Machine.execDescriptorFetch c s
  | .dmaBurst c => Sys2Proof.Machine.execDmaBurst c s
  | .dmaRequestLine r => Sys2Proof.Machine.execDmaRequestLine r s
  | .descriptorRetire c => Sys2Proof.Machine.execDescriptorRetire c s
  | .dmaReadError c k o => Sys2Proof.Machine.execDmaReadError c k o s
  | .dmaPostedError c o => Sys2Proof.Machine.execDmaPostedError c o s
  | .dmaLastBeatError c write => Sys2Proof.Machine.execDmaLastBeatError c write s
  | .dmaWithdraw c k => Sys2Proof.Machine.execDmaWithdraw c k s
  | .stoRaw q w => Sys2Proof.Machine.execStoRaw q w s
  | .stoRead q => Sys2Proof.Machine.execStoRead q s
  | .stoWrite q w => Sys2Proof.Machine.execStoWrite q w s
  | .stoTrim q => Sys2Proof.Machine.execStoTrim q s
  | .stoFlush q => Sys2Proof.Machine.execStoFlush q s
  | .stoStop q => Sys2Proof.Machine.execStoStop q s
  | .stoBlockEnd ok data => Sys2Proof.Machine.execStoBlockEnd ok data s
  | .stoCommandEnd err resp => Sys2Proof.Machine.execStoCommandEnd err resp s
  | .stoResponseTimeout => Sys2Proof.Machine.execStoResponseTimeout s
  | .norGo q w => Sys2Proof.Machine.execNorGo q w s
  | .norTransactionEnd data changed => Sys2Proof.Machine.execNorTransactionEnd data changed s
  | .pllEnable q p => Sys2Proof.Machine.execPllEnable q p s
  | .pllDisable q p => Sys2Proof.Machine.execPllDisable q p s
  | .pllLock p => Sys2Proof.Machine.execPllLock p s
  | .pllUnlock p => Sys2Proof.Machine.execPllUnlock p s
  | .bpllTrimWrite q w => Sys2Proof.Machine.execBpllTrimWrite q w s
  | .foscReady => Sys2Proof.Machine.execFoscReady s
  | .foscCheck n => Sys2Proof.Machine.execFoscCheck n s
  | .aoscDisciplineEnd n => Sys2Proof.Machine.execAoscDisciplineEnd n s
  | .aonTimeHWrite q w => Sys2Proof.Machine.execAonTimeHWrite q w s
  | .aonTimeLoad q w => Sys2Proof.Machine.execAonTimeLoad q w s
  | .aonTimeLRead q => Sys2Proof.Machine.execAonTimeLRead q s
  | .refmonWindowEnd n => Sys2Proof.Machine.execRefmonWindowEnd n s
  | .sysSrcSelect q src => Sys2Proof.Machine.execSysSrcSelect q src s
  | .clockSwitchDone clkout forced => Sys2Proof.Machine.execClockSwitchDone clkout forced s
  | .nofoscTimeout => Sys2Proof.Machine.execNofoscTimeout s
  | .clkoutWrite q w => Sys2Proof.Machine.execClkoutWrite q w s
  | .clockGateIdle b => Sys2Proof.Machine.execClockGateIdle b s
  | .powerOnReset => Sys2Proof.Machine.execPowerOnReset s
  | .powerOnResetRelease => Sys2Proof.Machine.execPowerOnResetRelease s
  | .aonPowerOnReset => Sys2Proof.Machine.execAonPowerOnReset s
  | .resetNAssert => Sys2Proof.Machine.execResetNAssert s
  | .resetNRelease => Sys2Proof.Machine.execResetNRelease s
  | .commandReset q w => Sys2Proof.Machine.execCommandReset q w s
  | .wideResetRelease => Sys2Proof.Machine.execWideResetRelease s
  | .rstCauseWrite q w => Sys2Proof.Machine.execRstCauseWrite q w s
  | .blkRstSet q b => Sys2Proof.Machine.execBlkRstSet q b s
  | .blkRstClear q b => Sys2Proof.Machine.execBlkRstClear q b s
  | .blockRelease b => Sys2Proof.Machine.execBlockRelease b s
  | .atticLoadDone => Sys2Proof.Machine.execAtticLoadDone s
  | .scRelease => Sys2Proof.Machine.execScRelease s
  | .stopEntry pins => Sys2Proof.Machine.execStopEntry pins s
  | .wakeSourceQualified pins => Sys2Proof.Machine.execWakeSourceQualified pins s
  | .wakeResume temps => Sys2Proof.Machine.execWakeResume temps s
  | .avsRequest q w => Sys2Proof.Machine.execAvsRequest q w s
  | .avsResponse ack vdone mv => Sys2Proof.Machine.execAvsResponse ack vdone mv s
  | .avsAttemptTimeout => Sys2Proof.Machine.execAvsAttemptTimeout s
  | .thermalDemand q w => Sys2Proof.Machine.execThermalDemand q w s
  | .thermalTimerExpire => Sys2Proof.Machine.execThermalTimerExpire s
  | .thermalMeasurementEnd temps => Sys2Proof.Machine.execThermalMeasurementEnd temps s
  | .shutdownStop => Sys2Proof.Machine.execShutdownStop s
  | .thresholdWrite q k w => Sys2Proof.Machine.execThresholdWrite q k w s
  | .hkcScanRun q w => Sys2Proof.Machine.execHkcScanRun q w s
  | .hkcEntryEnd outs ovr => Sys2Proof.Machine.execHkcEntryEnd outs ovr s
  | .hkdEnable q p w => Sys2Proof.Machine.execHkdEnable q p w s
  | .hkdDisable q p w => Sys2Proof.Machine.execHkdDisable q p w s
  | .hkdConnect p => Sys2Proof.Machine.execHkdConnect p s
  | .hkdUpdate => Sys2Proof.Machine.execHkdUpdate s
  | .hkdValueWrite q p w => Sys2Proof.Machine.execHkdValueWrite q p w s
  | .hkdStatRead q p => Sys2Proof.Machine.execHkdStatRead q p s
  | .guardLimitWrite q k w => Sys2Proof.Machine.execGuardLimitWrite q k w s
  | .hkdMonitorTrip p => Sys2Proof.Machine.execHkdMonitorTrip p s
  | .txDisableAssert => Sys2Proof.Machine.execTxDisableAssert s
  | .txDisableDeassert => Sys2Proof.Machine.execTxDisableDeassert s
  | .tripClear q w => Sys2Proof.Machine.execTripClear q w s
  | .grdStatRead q => Sys2Proof.Machine.execGrdStatRead q s
  | .ownClaim q w => Sys2Proof.Machine.execOwnClaim q w s
  | .leaseRenew q => Sys2Proof.Machine.execLeaseRenew q s
  | .leaseLapse => Sys2Proof.Machine.execLeaseLapse s
  | .ownHandover q w => Sys2Proof.Machine.execOwnHandover q w s
  | .ownAccept q w => Sys2Proof.Machine.execOwnAccept q w s
  | .handoverTimeout => Sys2Proof.Machine.execHandoverTimeout s
  | .mgmtWindowTransaction op => Sys2Proof.Machine.execMgmtWindowTransaction op s
  | .mgmtPageWrite b v flag => Sys2Proof.Machine.execMgmtPageWrite b v flag s
  | .i3cSetdasa a => Sys2Proof.Machine.execI3cSetdasa a s
  | .i3cEntdaa a => Sys2Proof.Machine.execI3cEntdaa a s
  | .i3cRstdaa => Sys2Proof.Machine.execI3cRstdaa s
  | .i3cEnec => Sys2Proof.Machine.execI3cEnec s
  | .i3cDisec => Sys2Proof.Machine.execI3cDisec s
  | .i3cGetpid => Sys2Proof.Machine.execI3cGetpid s
  | .i3cGetbcr => Sys2Proof.Machine.execI3cGetbcr s
  | .i3cGetdcr => Sys2Proof.Machine.execI3cGetdcr s
  | .i3cGetstatus => Sys2Proof.Machine.execI3cGetstatus s
  | .i3cGetmwl => Sys2Proof.Machine.execI3cGetmwl s
  | .i3cGetmrl => Sys2Proof.Machine.execI3cGetmrl s
  | .hatchIdcode => Sys2Proof.Machine.execHatchIdcode s
  | .hatchSamplePreload => Sys2Proof.Machine.execHatchSamplePreload s
  | .hatchExtest => Sys2Proof.Machine.execHatchExtest s
  | .hatchBypass c => Sys2Proof.Machine.execHatchBypass c s
  | .hatchChal => Sys2Proof.Machine.execHatchChal s
  | .hatchMbox ws => Sys2Proof.Machine.execHatchMbox ws s
  | .hatchVerify => Sys2Proof.Machine.execHatchVerify s
  | .hatchPassword => Sys2Proof.Machine.execHatchPassword s
  | .hatchClose op => Sys2Proof.Machine.execHatchClose op s
  | .hatchBusRead a => Sys2Proof.Machine.execHatchBusRead a s
  | .hatchBusWrite a w => Sys2Proof.Machine.execHatchBusWrite a w s
  | .hatchCoreHalt c => Sys2Proof.Machine.execHatchCoreHalt c s
  | .hatchCoreResume c => Sys2Proof.Machine.execHatchCoreResume c s
  | .hatchCoreStep c pins => Sys2Proof.Machine.execHatchCoreStep c pins s
  | .hatchCoreRegAccess c r v => Sys2Proof.Machine.execHatchCoreRegAccess c r v s
  | .hatchTapReset => Sys2Proof.Machine.execHatchTapReset s
  | .keyload q w => Sys2Proof.Machine.execKeyload q w s
  | .keyLoadDone => Sys2Proof.Machine.execKeyLoadDone s
  | .fuseEnrol q k => Sys2Proof.Machine.execFuseEnrol q k s
  | .fuseRevoke q k => Sys2Proof.Machine.execFuseRevoke q k s
  | .fuseDone ok part copies => Sys2Proof.Machine.execFuseDone ok part copies s
  | .attest q => Sys2Proof.Machine.execAttest q s
  | .sign q => Sys2Proof.Machine.execSign q s
  | .signingDone => Sys2Proof.Machine.execSigningDone s
  | .secretWindowWrite q hiReg w => Sys2Proof.Machine.execSecretWindowWrite q hiReg w s
  | .helloTimer => Sys2Proof.Machine.execHelloTimer s
  | .helloRx l c => Sys2Proof.Machine.execHelloRx l c s
  | .linkDeadTimeout l => Sys2Proof.Machine.execLinkDeadTimeout l s
  | .linkPhyChange l groups => Sys2Proof.Machine.execLinkPhyChange l groups s
  | .crateRxUnicast l c age => Sys2Proof.Machine.execCrateRxUnicast l c age s
  | .crateRxBroadcast l c age => Sys2Proof.Machine.execCrateRxBroadcast l c age s
  | .crateSent l => Sys2Proof.Machine.execCrateSent l s
  | .crateSend q t w => Sys2Proof.Machine.execCrateSend q t w s
  | .remoteRead stale => Sys2Proof.Machine.execRemoteRead stale s
  | .remoteWrite stale => Sys2Proof.Machine.execRemoteWrite stale s
  | .rraRead q w => Sys2Proof.Machine.execRraRead q w s
  | .rraWrite q w => Sys2Proof.Machine.execRraWrite q w s
  | .rreplyRx l c => Sys2Proof.Machine.execRreplyRx l c s
  | .rraTimeout => Sys2Proof.Machine.execRraTimeout s
  | .snkAddrWrite q w => Sys2Proof.Machine.execSnkAddrWrite q w s
  | .snkDiscRead q => Sys2Proof.Machine.execSnkDiscRead q s
  | .snkDropRead q c => Sys2Proof.Machine.execSnkDropRead q c s
  | .pairEnable q w => Sys2Proof.Machine.execPairEnable q w s
  | .pairDisable q w => Sys2Proof.Machine.execPairDisable q w s
  | .heartbeatTimer => Sys2Proof.Machine.execHeartbeatTimer s
  | .heartbeatRx l c => Sys2Proof.Machine.execHeartbeatRx l c s
  | .partnerLost => Sys2Proof.Machine.execPartnerLost s
  | .pairPathLoss lane => Sys2Proof.Machine.execPairPathLoss lane s
  | .pairSwitch q => Sys2Proof.Machine.execPairSwitch q s
  | .yieldTimeout => Sys2Proof.Machine.execYieldTimeout s
  | .soloTimeout => Sys2Proof.Machine.execSoloTimeout s
  | .cellarPowerOn => Sys2Proof.Machine.execCellarPowerOn s
  | .cellarPowerLoss met => Sys2Proof.Machine.execCellarPowerLoss met s
  | .cellarStartDone => Sys2Proof.Machine.execCellarStartDone s
  | .cellarSeal interval eth scale trim crc ok => Sys2Proof.Machine.execCellarSeal interval eth scale trim crc ok s
  | .cellarCommit t => Sys2Proof.Machine.execCellarCommit t s
  | .cellarSupplyFall t => Sys2Proof.Machine.execCellarSupplyFall t s
  | .cellarRecord => Sys2Proof.Machine.execCellarRecord s
  | .cellarRecordComplete => Sys2Proof.Machine.execCellarRecordComplete s
  | .celRecLineExpire => Sys2Proof.Machine.execCelRecLineExpire s
  | .cellarTamperChange high glitches => Sys2Proof.Machine.execCellarTamperChange high glitches s
  | .cellarWindowWrite q o w => Sys2Proof.Machine.execCellarWindowWrite q o w s
  | .memSliceStart u => Sys2Proof.Machine.execMemSliceStart u s
  | .memSliceEnd u bad => Sys2Proof.Machine.execMemSliceEnd u bad s
  | .repairRestore q u k row => Sys2Proof.Machine.execRepairRestore q u k row s
  | .testRow q u row => Sys2Proof.Machine.execTestRow q u row s
  | .logicSliceRequest q c im => Sys2Proof.Machine.execLogicSliceRequest q c im s
  | .logicSliceStart => Sys2Proof.Machine.execLogicSliceStart s
  | .logicSliceEnd fail => Sys2Proof.Machine.execLogicSliceEnd fail s
  | .logicSliceTimeout => Sys2Proof.Machine.execLogicSliceTimeout s
  | .aoscReady => Sys2Proof.Machine.execAoscReady s
  | .droopComparatorTrip => Sys2Proof.Machine.execDroopComparatorTrip s
  | .vddioReachingThreshold => Sys2Proof.Machine.execVddioReachingThreshold s

end Sys2Proof.Machine
end

