-- ==== Sys2Proof/Machine/Tick.lean ====
section
/-! DEFINITION. What happens in one nominal period of the band clock while no command waits: the clocks and the counts of cycles
go on (log 3, log 88). -/

namespace Sys2Proof.Machine

/-- System-clock cycles that end in the n-th nominal band-clock period: 1,200 MHz on SPLL, 100 MHz on FOSC against 983.04 MHz
(R365, R372). -/
def sysCycles (n : Nat) (spll : Bool) : Nat :=
  if spll then (n + 1) * 625 / 512 - n * 625 / 512 else (n + 1) * 625 / 6144 - n * 625 / 6144

/-- The system clock runs: no switch holds it low (R366, R381, R389, R409). -/
def sysRuns (s : State) : Bool := !s.on CRP_CLK_STAT_sys_gated && !s.stop && !s.rst.por && !s.rst.resetN && s.clk.sw.isNone

/-- SC is in reset (R390, R403). -/
def scHeld (s : State) : Bool := !s.rst.released || s.rst.wide || fullHeld s

/-- How many of n cycles core c stalls on fetch and on data, which R305 does not fix: free values (R331, log 173). -/
def stallCycles (c n : Nat) (s : State) : State :=
  if cntQuiet 6 s && cntQuiet 7 s then s
  else
    let o : Occ := { lvl := some (s.cpu c).lvl }
    let f := s.freeVal 32 % (n + 1)
    let d := s.freeNext.freeVal 32 % (n - f + 1)
    count c 7 d o (count c 6 f o s.freeNext.freeNext)

/-- The kinds of requester that system counter event 3 tells apart: the master class, and the level of a core. -/
def waiters : List (Nat × Option Nat) :=
  [(0, some 0), (0, some 1), (1, some 0), (1, some 1), (2, some 0), (2, some 1), (2, some 2), (3, none), (4, none), (5, none), (6, none),
   (7, none)]

/-- How many cycles the requests of each kind, 32 at most, wait for grant within n cycles: free values (R332, R347, log 173). -/
def waitCycles (n : Nat) (s : State) : State :=
  if pmcIdle s || (List.range 32).all fun j => decide (s.get (PMC_SEL_evt j) ≠ 3) then s
  else waiters.foldl (fun s w => pmcCount 3 (s.freeVal 32 % (32 * n + 1)) (some w.1) { lvl := w.2 } s.freeNext) s

/-- n system-clock cycles at the cores: CYCLE (R293) and the counters of events 1, 6 and 7 (R331). -/
def coreCycles (n : Nat) (s : State) : State :=
  forN 13 (fun c s =>
    if coreState c s = 0 || (decide (c = 12) && scHeld s) then s
    else stallCycles c n (count c 1 n { lvl := some (s.cpu c).lvl } (updCpu c (fun k => { k with cycle := (k.cycle + n) % 2 ^ 64 }) s))) s

/-- n system-clock cycles at the cores, the system counters (R332), the boot ROM's reads and the signing unit. -/
def sysTick (n : Nat) (s : State) : State := if n = 0 then s else signTick (romTick n (waitCycles n (pmcCount 1 n none {} (coreCycles n s))))

/-- The band clock's periods, and the band time while BND is not held (R170). -/
def bandTick (s : State) : State :=
  if !bandRuns s then s
  else
    let s := { s with bclk := s.bclk + 1, bandTime := if blkHeld 17 s then s.bandTime else (s.bandTime + 1) % 2 ^ 64 }
    seqBoundary (if lstHeld s then s else trackTick s)

/-- The always-on time on every 30,000th period (R375). -/
def aonTick (s : State) : State := if s.now % 30000 = 0 then aoscCycle s else s

/-- The watchdog's interval, on FOSC (R329). -/
def wdTick (s : State) : State := if wdRuns s then { s with wdT := s.wdT + 1 } else s

/-- Cycles of the cellar's 8 MHz oscillator that end in its n-th nominal band-clock period. -/
def celCycles (n : Nat) : Nat := (n + 1) * 25 / 3072 - n * 25 / 3072

/-- Cellar time and CC's CYCLE, on the cellar's own oscillator (R293, R498, R505; log 158). -/
def celClock (s : State) : State :=
  if celState s = 0 then s
  else
    let s := updCpu 13 (fun k => { k with cycle := (k.cycle + celCycles s.cel.t) % 2 ^ 64 }) s
    updCel (fun c => { c with t := c.t + 1 }) s

/-- 2^10 × 10^9, of which one unit of CRP_BPLL_TRIM is one part (R371). -/
def trimUnit : Nat := 2 ^ 10 * 10 ^ 9

/-- What BPLL gains in one nominal period, in these parts: 1 + trim × 2^-10 × 10^-9 periods with the part left before. -/
def bandGain (s : State) : Nat := (s.clk.part + trimUnit + s.geti CRP_BPLL_APPLIED_applied).toNat

/-- One period of the band clock: what crosses the output ports in the period that ends, the band time, and what then crosses the input
ports. -/
def bandPeriod (s : State) : State := if bandRuns s then linkTick (portsCross (bandTick (outTap (pathsCross s)))) else s

/-- The periods of the band clock that end in one nominal period: the applied trim makes it one more or less at times (R371). -/
def bandPeriods (s : State) : State :=
  let g := bandGain s
  forN (g / trimUnit) (fun _ s => bandPeriod s) (updClk (fun c => { c with part := g % trimUnit }) s)

/-- One nominal band-clock period without a command. -/
def tick (s : State) : State :=
  let n := if sysRuns s then sysCycles s.now (s.on CRP_CLK_STAT_sys_src) else 0
  celClock (djTick (wdTick (aonTick (hostAdapt (gateTick (bandPeriods { sysTick n s with now := s.now + 1 }))))))

end Sys2Proof.Machine
end

