-- ==== Sys2Proof/Machine/Pins.lean ====
section
/-! DEFINITION. The levels of the pins of R408 as the state gives them; the lines of SPI, FAB, CLKOUT, RFC and LTX have their
definitions beside their blocks (spiLine, fabLine, clkoutLevel, rfcPin, txDac). -/

namespace Sys2Proof.Machine

/-- EMMC_RST_N: low while power-on reset or RESET_N holds the controller and in stop, else STO_CTRL.rst_n (R362, R414). -/
def emmcRstN (s : State) : Bool := !s.rst.por && !s.rst.resetN && !s.stop && s.on STO_CTRL_rst_n

/-- What the boot-flash pins carry, a BOOT_CLK period each: the ROM's read in progress, or a transaction of the boot-flash master (R363,
R364, R404). -/
def bootWave (s : State) : List (List (Option Bool)) :=
  match s.rst.reads with
  | (a, n) :: _ => romWave a n
  | [] => s.norWave

/-- BOOT_CS_N: high but for a read of the ROM or a transaction. -/
def bootCsN (s : State) : Bool := (bootWave s).isEmpty

/-- BOOT_CLK, SPI mode 0: low, and high in the second half of each period of a read or a transaction (R404, R408). -/
def bootClk (t : Nat) (second : Bool) (s : State) : Bool := second && decide (t < (bootWave s).length)

/-- What BOOT_IO_0 to BOOT_IO_3 carry in BOOT_CLK period t; none is not driven. -/
def bootIo (t : Nat) (s : State) : List (Option Bool) := ((bootWave s)[t]?).getD norNone

/-- COEX_REQ and COEX_PRI (R267, R268). -/
def coexReqPin (s : State) : Bool := s.on FEN_COEX_STAT_req
def coexPriPin (s : State) : Bool := s.on FEN_COEX_STAT_pri

/-- INT_N is open-drain: low while a flag asks for it, else released (R456). -/
def intN (s : State) : Option Bool := if intLow s then some false else none

/-- The code that HKD_p drives; none is high impedance with the pull-down (R408, R434). -/
def hkdPin (p : Nat) (s : State) : Option Nat :=
  if s.get (HKD_STAT_state p) = 2 then some (if (nth s.hkd p).zero then 0 else (nth s.hkd p).out) else none

/-- HTX_n drives symbols, and else a differential zero (R408). -/
def htxDrives (n : Nat) (s : State) : Bool := decide (hostSends n s ≠ .zero)

/-- What HTX_n sends. -/
inductive HtxOut
  /-- a differential zero -/
  | zero
  /-- symbols, or bits on a converter lane, first to last -/
  | units (l : List Nat)
  /-- a transmit link's samples of one instant, with the band-clock periods since its extended multiblock began (R160 to R164) -/
  | link (since : Option Nat) (conv : List Nat)
deriving DecidableEq, Repr

/-- The line lane that host lane h serves while it is up, with the group's first lane and size (R19, R20). -/
def hostServes (h : Nat) (s : State) : Option (Nat × Nat × Nat) :=
  (List.range 8).findSome? fun n =>
    match laneGroup n s with
    | some (b, g) => if b ≤ h ∧ h < b + g then some (n, b, g) else none
    | none => none

/-- The symbols in which host lane h carries its line lane's last frame, or local-fault signalling, to the host (R106, R117, R143,
R144). -/
def hostTraffic (h : Nat) (s : State) : List Nat :=
  match hostServes h s with
  | some (n, b, g) =>
    let m := hostMode h s
    pamSyms (hostTransmit m g (h - b) ((towardsHost n s).getD (Config.localFault true)) 87040) (87040 / g)
  | none => []

/-- What HTX_n sends: its training frame, `units` of its pattern, its traffic, its link's samples, or a differential zero. -/
def htxOut (n units : Nat) (s : State) : HtxOut :=
  match hostSends n s with
  | .zero => .zero
  | .training => .units (trainSent n s)
  | .pattern => .units (patternSent n units s)
  | .traffic =>
    if hostMode n s = 4 then
      match linkTx n s with
      | some x => .link (txMultiblock x.1 s) (linkSends x.1 s.bandTime (pathsCross s))
      | none => .zero
    else .units (hostTraffic n s)

end Sys2Proof.Machine
end

