-- ==== Sys2Proof/Safety.lean ====
section
/-! DEFINITION. What a run keeps: the form of the register list, of the memory lists and of the merge buffers, and the sizes of the
state's arrays; and the words in which the statements speak of a state. -/

namespace Sys2Proof.Machine

/-- The register list is in its one form: addresses strictly rising, no register at its reset word (R6, R8). -/
def RegsOk (l : List (Nat × Word)) : Prop :=
  l.Pairwise (fun x y => x.1 < y.1) ∧ ∀ e ∈ l, e.2 ≠ resetWord e.1

/-- The list of stored errors is in its one form: addresses strictly rising, marks 1 or 2 (R337). -/
def EccOk (l : List (Nat × Nat)) : Prop :=
  l.Pairwise (fun x y => x.1 < y.1) ∧ ∀ e ∈ l, e.2 = 1 ∨ e.2 = 2

/-- A core has 32 general registers, 16 vector registers and 8 counters (R274, R275, R331). -/
def CpuOk (k : Cpu) : Prop :=
  k.w.length = 32 ∧ k.v.length = 16 ∧ k.cnt.length = 8 ∧ k.cntH.length = 8 ∧ k.cntSel.length = 8

/-- An entry of unit u's merge buffer holds bytes of one aligned word of that unit (R339). -/
def EntryOk (u : Nat) (e : Merge) : Prop := unitOf e.a = some u ∧ e.a % 8 = 0 ∧ e.bytes.length = 8

/-- A merge buffer has 8 entries at most, for words that differ (R336, R339). -/
def BufferOk (u : Nat) (l : List Merge) : Prop := l.length ≤ 8 ∧ l.Pairwise (fun x y => x.a ≠ y.a) ∧ ∀ e ∈ l, EntryOk u e

/-- The merge buffers of the 15 units are in order. -/
def MergeOk (m : List (List Merge)) : Prop := m.length = 15 ∧ ∀ u, BufferOk u (nth m u)

/-- The arrays of the state have the sizes that the part has, those of the SC state saved for stop among them. -/
def SizesOk (s : State) : Prop :=
  s.conv.length = 8 ∧ s.det.length = 8 ∧ s.frm.length = 8 ∧ s.host.length = 8 ∧ s.rpt.length = 128 ∧ s.lst.length = 2 ∧
  s.bnd.length = 128 ∧ s.fen.length = 4 ∧ s.spi.length = 4 ∧ s.nf.length = 16 ∧ s.cores.length = 14 ∧ s.pmc.length = 32 ∧
  MergeOk s.merge ∧ s.dma.length = 32 ∧ ∀ k ∈ s.pwr.saved, CpuOk k

/-- What every step keeps. -/
def Inv (s : State) : Prop :=
  RegsOk s.regs ∧ Memory.wf s.mem = true ∧ EccOk s.ecc ∧ SizesOk s ∧ ∀ k ∈ s.cores, CpuOk k

/-- The registers that every event and every access may change: pending bits (R324), system counters and skid records (R332 to
R334). -/
def Router (a : Nat) : Prop := (0x40300000 ≤ a ∧ a < 0x40300040) ∨ (0x40A00000 ≤ a ∧ a < 0x40A01000)

/-- A core without its event counters and without the store error that waits for it, which a refused write leaves (R12, R286). -/
def Cpu.bare (k : Cpu) : Cpu := { k with cnt := [], cntSel := [], serr := none, more := false }

/-- What a state holds beside registers, the reply, counters, in-band interrupts, the clock that an access starts and the model's own
counts of free values and of times. -/
def State.bare (s : State) : State :=
  { s with regs := [], reply := ⟨.done, []⟩, pmc := [], free := 0, rate := [], ibiSent := 0, clk := { s.clk with awake := 0 },
           cores := s.cores.map Cpu.bare }

/-- t has the registers of s but for those in A and the router's, and holds the same beside registers (see State.bare). -/
def Same (A : Nat → Prop) (s t : State) : Prop := (∀ a, ¬A a → ¬Router a → t.rd a = s.rd a) ∧ t.bare = s.bare

/-- Event e is pending (R324). -/
def Pending (e : Nat) (s : State) : Prop := s.get (pendBit e) = 1

/-- A write of w by q reaches the register at a: no fence, no missing right, and its port does not wait (R12, R15, R321, R380,
R448). -/
abbrev Sent (q : Rq) (a : Nat) (fs : List (Nat × Nat × Acc)) (w : Word) (s : State) : Prop := writeGate q a fs w s = .go

/-- A read by q reaches the register at a, whose port does not wait. -/
abbrev Reads (q : Rq) (a : Nat) (s : State) : Prop :=
  (q = .host && !mgmtAlive s) = false ∧ a % 4 = 0 ∧ fencedAt a s = false ∧ portWaits a s = false ∧ mayRead q a s = true

/-- The state that a write of w by q leaves where its fields take their values by their access codes and nothing else happens
(R9), before its completion. -/
abbrev wrote (q : Rq) (a : Nat) (fs : List (Nat × Nat × Acc)) (w : Word) (s : State) : State := (request q a s).store a fs w

/-- What a block of a running receiver shows (R67 to R77). -/
abbrev blockShown (n : Nat) (codes look : List Int) (s : State) : BlockObs := blockObs n (blockView n codes look s) s

/-- A running receiver's detected bits have gone on, and its block has left its end to the next one. -/
abbrev blockGiven (n : Nat) (codes look : List Int) (s : State) : State :=
  keepTail n (blockView n codes look s) (giveBits n (blockView n codes look s).bits s)

/-- Then its samples and loops over the block: adaptation, histogram and timing, the counts of the monitor and of the signal criterion
(R69, R76, R77, R84, R88, R93). -/
abbrev blockHeard (n : Nat) (codes look : List Int) (s : State) : State :=
  updDet n (fun d => { d with
      winCount := d.winCount + (blockShown n codes look s).seams, winBlocks := d.winBlocks + 1,
      low := if (blockShown n codes look s).meanY < s.get (LANE_DET_MON_sig_min n) then d.low + 1 else 0 })
    (timingStep n (blockShown n codes look s).eps (histSample n (blockShown n codes look s).hist
      (forN 4 (fun u r => lmsSample n u (nth (blockShown n codes look s).lms u) r) (blockGiven n codes look s))))

/-- The command word of a sequencer (R256). -/
abbrev seqWord (n op dur : Nat) : Word := force (force 0 (FEN_SEQ_CMD_op n) op) (FEN_SEQ_CMD_dur n) dur

/-! ## Instructions of the cores -/

/-- The state after core c has fetched its instruction. -/
abbrev fetched (c : Nat) (s : State) : State := (fetch c s).1

/-- Core c can issue its next instruction, and its fetch ends DONE (R284, R311). -/
abbrev Issues (c : Nat) (s : State) : Prop := coreIssues c s = true ∧ (fetch c s).2.1 = .done

/-- Registers r1 and r2 of core c at its instruction. -/
abbrev opnd (c r : Nat) (s : State) : Word := getW c r (fetched c s)

/-- An instruction of core c whose result v goes to rd, with the next instruction after it (R275). -/
abbrev result (c rd : Nat) (v : Word) (s : State) : State := alu c rd v (fetched c s)

/-- A data access of core c of n bytes at a is allowed and aligned (R279, R283). -/
abbrev MayAccess (c n : Nat) (a : Word) (s : State) : Prop := dataAllowed c a.toNat n s = true ∧ a.toNat % n = 0

/-- The data read of a load. -/
abbrev loadRead (c n : Nat) (a : Word) (s : State) : State × Code × List Byte := coreRead c a.toNat n s

/-- The state after a load's bus read, which the counters see (R331). -/
abbrev loadTaken (c n : Nat) (a : Word) (s : State) : State :=
  tally c 3 { lvl := some (s.cpu c).lvl, addr := some a.toNat } (loadRead c n a s).1

/-- The address of a load or store of core c at its instruction. -/
abbrev eaOf (c rb : Nat) (off : BitVec 13) (s : State) : Word := memAddr c rb off (fetched c s)

/-- The write of an exchange of core c: rt to a, in the state after its read. -/
abbrev xchgWrite (c rt : Nat) (a : Word) (s : State) : State × Option Code :=
  coreWriteTo c a.toNat (leBytes 4 (getW c rt (loadRead c 4 a s).1).toNat) (loadRead c 4 a s).1

/-- The state in which an exchange's write whose code is not known at once has been posted. -/
abbrev xchgPosted (c rt : Nat) (a : Word) (s : State) : State :=
  updCpu c (fun k => { k with posted := k.posted ++ [postedAt c a none false (xchgWrite c rt a s).1] }) (xchgWrite c rt a s).1

/-- An exchange of core c at a that does not trap ends with its old word in rt: it counts as a load and as a store (log 173). -/
abbrev xchgDone (c rt : Nat) (a : Word) (b : List Byte) (s : State) : State :=
  goOn c (setW c rt (BitVec.ofNat 32 (leVal b)) (tally c 4 { lvl := some (s.cpu c).lvl, addr := some a.toNat }
    (tally c 3 { lvl := some (s.cpu c).lvl, addr := some a.toNat } s)))

/-- The state in which every earlier store of core c has completed, at its instruction (R286). -/
abbrev ready (c : Nat) (s : State) : State := settle c (fetched c s)

/-- No store of core c waits and none has failed, once they have completed. -/
abbrev StoresDone (c : Nat) (s : State) : Prop := ((ready c s).cpu c).serr = none ∧ ((ready c s).cpu c).posted = []

/-- Core c executes at level S or K. -/
abbrev Above (c : Nat) (s : State) : Prop := ((fetched c s).cpu c).lvl ≠ 0

/-- The exchange of core c's shelves: the idle one runs, disarmed and unfenced, with 1 in rd (R319). -/
abbrev swapTaken (c rd : Nat) (s : State) : State :=
  let u := updCpu c (fun k => { k with wait := .run, swaps := (k.swaps + 1) % 256 })
    (setW c rd 1 (((s.set (OWN_CORE_STAT_active c) (idleShelf c s)).set (OWN_CORE_STAT_armed c) 0).set (OWN_CORE_STAT_fenced c) 0))
  goTo c (BitVec.ofNat 32 (0x7F000000 + entryOf c (idleShelf c s) u)) u

/-- The word v goes to rd of core c by a vector or complex instruction, which is counted, and the next instruction follows. -/
abbrev extTo (c rd : Nat) (v : Word) (s : State) : State := vecOn c (setW c rd v s)

/-- The sample r goes to rd of core c, with sat where a limit changed a half (R288), and the next instruction follows. -/
abbrev sampleTo (c rd : Nat) (r : Word × Bool) (s : State) : State := extTo c rd r.1 (if r.2 then setSat c s else s)

/-! ## Ownership and the hatch -/

/-- The state in which hatch instruction c, other than EXTEST, is in the instruction register. -/
abbrev hatchIn (c : Nat) (s : State) : State := updOwn (fun o => { o with ir := c }) (extestEnd s)

/-- The state that a hatch instruction which is not available leaves: BYPASS, and a count (R458). -/
abbrev hatchRefused (s : State) : State :=
  (updOwn (fun o => { o with ir := 0xFF }) (extestEnd s)).addSat OWN_HATCH_STAT_refused 1

/-- A VERIFY has taken its nonce. -/
abbrev verifyTaken (s : State) : State := updOwn (fun o => { o with nonce := none }) (hatchIn 0x12 s)

/-- The register of the secret window's end or base after a write, before the bounds are judged (R462). -/
abbrev secretNew (hiReg : Bool) (w : Word) (s : State) : State :=
  s.wr (if hiReg then OWN_SECRET_HI else OWN_SECRET_LO)
    (mergeWord (if hiReg then OWN_SECRET_HI_fs else OWN_SECRET_LO_fs)
      (s.rd (if hiReg then OWN_SECRET_HI else OWN_SECRET_LO)) w (s.on OWN_SECRET_LO_lock))

/-- The command word of the fuse unit (R466). -/
abbrev fuseWord (op k : Nat) : Word := force (force 0 OWN_FUSE_CMD_op op) OWN_FUSE_CMD_slot k

/-- The state in which ENROL has read its buffer (R466). -/
abbrev fuseSeen (q : Rq) (s : State) : State :=
  (unitRead (s.get OWN_FUSE_BUF_buf) 32 (request q OWN_FUSE_CMD s)).1

/-- The state in which SC's secrets are zeroised where c is SC, with HATCH_CORE in the instruction register (R458, R462). -/
abbrev hatchCoreAt (c : Nat) (s : State) : State := scSecrets c (hatchIn 0x21 s)

/-- A halted core steps from its own state: it waits for nothing. -/
abbrev stepFrom (c : Nat) (s : State) : State := updCpu c (fun k => { k with wait := .run }) (hatchIn 0x21 s)

/-! ## The fabric -/

/-- A crate without its CRC-32. -/
abbrev crateOf (all : List Byte) : List Byte := all.take (all.length - 4)

/-- A crate arrives on link l that runs, outside a reset, and none of its overhead blocks failed (R115, R471). -/
abbrev CrateHeard (l : Nat) (s : State) : Prop :=
  snkHeld s = false ∧ linkRuns l s = true ∧ (l < 8 → (nth s.frm l).spoiled = false)

/-- The crate meets R473 to R475. -/
abbrev WellMade (all : List Byte) : Prop :=
  12 ≤ all.length ∧ hdrOk (crateOf all) = true ∧ (crateOf all).length = 8 + cLen (crateOf all) ∧
    leVal (all.drop (all.length - 4)) = crc32 (crateOf all)

/-- The sequence distance of a flooded crate from the last that was accepted from its source (R480). -/
abbrev floodDist (c : List Byte) (s : State) : Nat := (cSeq c + 256 - lastSeq (cSrc c) s) % 256

/-- A flooded crate's record and local delivery (R480). -/
abbrev floodTaken (l : Nat) (c : List Byte) (age : Nat) (s : State) : State :=
  deliver l c age (updSnk (fun k => { k with last := natInsert k.last (cSrc c) (cSeq c) }) s)

/-- The state in which a send slot's crate has been read, its header, and the crate with the default ttl where it carries none
(R483). -/
abbrev slotAt (t : Nat) (s : State) : Nat := (s.rd (SNK_TX_ADDR t)).toNat
abbrev slotSeen (q : Rq) (t : Nat) (s : State) : State := (slotFetch (slotAt t s) (request q (SNK_TX_CMD t) s)).1
abbrev slotRead (q : Rq) (t : Nat) (s : State) : Code := (slotFetch (slotAt t s) (request q (SNK_TX_CMD t) s)).2
abbrev slotHead (a : Nat) (s : State) : List Byte := s.bytes a 8
abbrev slotCrate (a : Nat) (s : State) : List Byte :=
  let c := s.bytes a (8 + cLen (slotHead a s))
  if cTtl c = 0 then cSet c 6 (s.get SNK_CFG_ttl_def) else c

/-- The command of a send slot is HELD (R483). -/
abbrev slotHeld (t : Nat) (s : State) : State :=
  (((s.set (SNK_TX_RESULT_outcome t) Code.held.n).set (SNK_TX_RESULT_reason t) 0).set (SNK_TX_RESULT_busy t) 1).ret .held

/-- The request crate of a remote access, op 1 a read, 2 a write (R486, R487). -/
abbrev rraCrate (op : Nat) (s : State) : List Byte :=
  mkCrate (if op = 1 then 2 else 3) 2 (s.get SNK_RRA_CTRL_dst) (s.get SNK_CFG_ttl_def)
    (leBytes 4 (s.rd SNK_RRA_ADDR).toNat ++ [BitVec.ofNat 8 (s.get SNK_RRA_CTRL_count + 1), 0, 0, 0] ++
      (if op = 2 then (List.range (s.get SNK_RRA_CTRL_count + 1)).foldl (fun b j => b ++ leBytes 4 (s.rd (SNK_RRA_DATA j)).toNat) []
       else []))

/-- The command word of a remote access. -/
abbrev rraWord (op : Nat) (w : Word) : Word := force (force w SNK_RRA_CTRL_go 1) SNK_RRA_CTRL_op op

/-- What the routing of a remote access's request leaves. -/
abbrev rraRouted (op : Nat) (s : State) : State × Code :=
  routeTo (originate (rraCrate op s) s).2 (some 8) (originate (rraCrate op s) s).1

/-- The partner's heartbeat has been taken up in the pair's status (R490). -/
abbrev heartSeen (l : Nat) (c : List Byte) (s : State) : State :=
  ((s.set (if l = 8 then SNK_PAIR_STAT_fab_ok else SNK_PAIR_STAT_lane_ok) 1).set SNK_PAIR_STAT_p_role (cb c 8)).set
    SNK_PAIR_STAT_p_ready (cb c 9 / 2)

/-- The pair's status after the partner is lost, before the role. -/
abbrev partnerGone (s : State) : State :=
  ((s.set SNK_PAIR_STAT_fab_ok 0).set SNK_PAIR_STAT_lane_ok 0).set SNK_PAIR_STAT_p_ready 0

/-! ## The management window -/

/-- The address, the count and the words of page 0xB0 and 0xB1 (R455). -/
abbrev winAt (s : State) : Nat := leVal (s.own.b0.take 4)
abbrev winCount (s : State) : Nat := (nth s.own.b0 4).toNat

/-- The management interface answers and page p is selected (R454). -/
abbrev PageOf (p : Nat) (s : State) : Prop := mgmtAlive s = true ∧ ownHeld s = false ∧ s.own.page = p

/-- The bus reads of a window transaction. -/
abbrev winRead (s : State) : State × Code × Nat × List Byte := readWords .host (winAt s) (winCount s) 0 s

/-- The bus writes of a window transaction. -/
abbrev winWrite (s : State) : State × Code × Nat :=
  writeWords .host false (winAt s) ((List.range (winCount s)).map fun j => wordAt s.own.b1 (4 * j)) 0 s

/-- The read of a remote-access engine for request c. -/
abbrev reqReads (c : List Byte) (s : State) : State × Code × Nat × List Byte :=
  readWords (crateRq (cSrc c) s) (leVal ((c.drop 8).take 4)) (cb c 12) 0 s

/-- The writes of a remote-access engine for request c. -/
abbrev reqWrites (c : List Byte) (s : State) : State × Code × Nat :=
  writeWords (crateRq (cSrc c) s) true (leVal ((c.drop 8).take 4)) (reqWords c (cb c 12) 0 s).2 0 (reqWords c (cb c 12) 0 s).1

/-! ## Cores, loader, memories, DMA and storage -/

/-- The word of a core command (R313). -/
abbrev coreWord (c op : Nat) (b : Bool) : Word := force (force 0 (OWN_CORE_CTRL_op c) op) (OWN_CORE_CTRL_boot_shelf c) b.toNat

/-- A core command whose write reaches the register, with its fields stored. -/
abbrev coreAsked (q : Rq) (c op : Nat) (b : Bool) (s : State) : State :=
  wrote q (OWN_CORE_CTRL c) OWN_CORE_CTRL_fs (coreWord c op b) s

/-- Core c has left RESET for the shelf sh (R313). -/
abbrev coreStarted (c sh : Nat) (s : State) : State :=
  let u := ((s.set (OWN_CORE_STAT_state c) 1).set (OWN_CORE_STAT_active c) sh).set (OWN_CORE_STAT_fenced c) 0
  updCpu c (fun k => { k with pc := BitVec.ofNat 32 (0x7F000000 + entryOf c sh u) }) (cpuReset c u)

/-- The word of a LOAD (R315). -/
abbrev loadWord (c : Nat) : Word := force (force 0 OWN_LD_CMD_load 1) OWN_LD_CMD_core c

/-- The state in which a LOAD has read the image's lengths (R315). -/
abbrev loadSeen (q : Rq) (s : State) : State :=
  retireRange (s.get OWN_LD_SRC_addr) (s.get OWN_LD_SRC_addr + 28) (request q OWN_LD_CMD s)

/-- A LOAD of core c into shelf sh is HELD (R315). -/
abbrev loadHeld (c sh src : Nat) (dinit : Bool) (s : State) : State :=
  let u := (((s.set OWN_LD_CMD_core c).set (chkFd c sh) 0).set OWN_LD_RESULT_busy 1).set OWN_LD_RESULT_shelf sh
  let u := (((u.set OWN_LD_RESULT_core c).set OWN_LD_RESULT_outcome Code.held.n).set OWN_LD_RESULT_step 0).set OWN_LD_RESULT_reason 0
  let n := 2048 + leVal (u.bytes (src + 0x0C) 4) + leVal (u.bytes (src + 0x18) 4)
  (setLoad (some ⟨c, sh, src, dinit, u.now + byteTicks n⟩) u).ret .held

/-- What a LOAD reads: its header, its body with the data initialisation, and the key of its slot (R308). -/
abbrev loadHdr (l : Load) (s : State) : State × Code × List Byte := memRead 0 .loader l.src 2048 s
abbrev loadBody (l : Load) (s : State) : State × Code × List Byte :=
  memRead 0 .loader (l.src + 2048) (hdrF (loadHdr l s).2.2 0xC 4 + hdrF (loadHdr l s).2.2 0x18 4) (loadHdr l s).1
abbrev loadKey (l : Load) (s : State) : State × Code × List Byte :=
  memRead 0 .loader (((loadBody l s).1.rd OWN_LD_KEYTAB).toNat + 2048 * hdrF (loadHdr l s).2.2 0x20 1) 1793 (loadBody l s).1

/-- The word of a DMA command (R351). -/
abbrev dmaWord (c op : Nat) : Word := force 0 (DMA_CH_CMD_op c) op

/-- The fetch of a channel's descriptor (R350). -/
abbrev descRead (c : Nat) (s : State) : State × Code × List Byte := busRead (.dma c) (s.get (DMA_CH_DESC_desc c)) 32 s

/-- The word of a storage command (R360). -/
abbrev stoWord (op : Nat) (w : Word) : Word := force w STO_CMD_op op

/-! ## Clocks, resets and power -/

/-- CRP_BLK_RST with bit b set or cleared. -/
abbrev blkWordSet (b : Nat) (s : State) : Word := s.rd CRP_BLK_RST ||| BitVec.ofNat 32 (2 ^ b)
abbrev blkWordClear (b : Nat) (s : State) : Word := s.rd CRP_BLK_RST &&& ~~~ BitVec.ofNat 32 (2 ^ b)

/-- CRP_PLL_CTRL with the enable of PLL p at v. -/
abbrev pllWord (p v : Nat) (s : State) : Word := force (s.rd CRP_PLL_CTRL) (pllEn p) v

/-- The result of the attic load, before its values are applied (R400, R402). -/
abbrev atticShown (s : State) : State :=
  updOwn (fun o => { o with key := 1 })
    (((((updRst (fun r => { r with atticBusy := false }) s).set CRP_ATTIC_STAT_done 1).set CRP_ATTIC_STAT_a_ok
      s.attic.a.ok.toNat).set CRP_ATTIC_STAT_b_ok s.attic.b.ok.toNat).set CRP_ATTIC_STAT_used (!s.attic.a.ok).toNat |>.set
      CRP_ATTIC_STAT_hold (!(s.attic.a.ok || s.attic.b.ok)).toNat)

/-- A window of the reference monitor has been counted (R377). -/
abbrev refCounted (n : Nat) (s : State) : State := (s.set CRP_REFCNT_count (min n 4095)).incMod CRP_REFCNT_windows

/-- FOSC is declared failed (R374). -/
abbrev foscFailed (s : State) : State := (s.set CRP_CLK_STAT_fosc_fail 1).set CRP_CLK_STAT_fosc_ready 0

/-- The answer to a write of CRP_SYS_SEL (R382). -/
abbrev sysSel (c : Code) (s : State) : State := ((s.set CRP_SYS_SEL_outcome c.n).set CRP_SYS_SEL_reason 0).ret c

/-- SC's state is saved for stop: the state after its WAIT; where it lies in the larder the spec does not say (R410). -/
abbrev scSaved (s : State) : State :=
  putFree 0x5000F000 0x400
    (updPwr (fun p => { p with saved := some { s.cpu 12 with pc := (s.cpu 12).pc + 4, wait := .run } }) s)

/-- The command word of TEST_ROW and of a logic slice (R519, R521). -/
abbrev testWord (u : BitVec 5) (row : BitVec 13) : Word :=
  force (force (force 0 BST_MEM_CMD_unit u.toNat) BST_MEM_CMD_row row.toNat) BST_MEM_CMD_go 1
abbrev logicWord (c : BitVec 4) (i : BitVec 6) : Word :=
  force (force (force 0 BST_LB_CMD_core c.toNat) BST_LB_CMD_slice i.toNat) BST_LB_CMD_go 1
abbrev repairWord (u k : Nat) (row : BitVec 13) : Word :=
  force (force 0 (BST_REPAIR_row u k) row.toNat) (BST_REPAIR_valid u k) 1

/-! ## Which commands reach which state -/

/-- The commands of the line lanes, the host lanes, the band engine, the repeater, the listener and the front ends (chapters 02 to
09). -/
def isRadio : Instr → Bool
  | .rxEnOn .. | .rxEnOff .. | .rotationResume .. | .sparePhaseEnd .. | .skewPhaseEnd .. | .slotHandover .. | .hold ..
  | .calResume .. | .recal .. | .releaseSlice .. | .swingWrite .. | .firCommit .. | .pdSwap .. | .txCommitApply ..
  | .fgCalDone .. | .blockBoundary .. | .monitorWindowEnd .. | .detEnable .. | .detDisable .. | .detAcquire ..
  | .detDetect .. | .detLock .. | .detDrop .. | .lmsAccum .. | .lmsAccumDone .. | .lmsApply .. | .eqTapWrite ..
  | .levelSwap .. | .histRun .. | .histDone .. | .mappingChange .. | .laneUp .. | .laneDown .. | .rxFrame ..
  | .puncturePhaseAdvance .. | .rsCodewordDecode .. | .rxCell .. | .containerWrite .. | .txEnable .. | .txSquelch ..
  | .squelchStep .. | .fecWindowEnd .. | .frmCounterSnap .. | .hostModeWrite .. | .hostStart .. | .hostRetrain ..
  | .hostStop .. | .hostResync .. | .hostLockAcquired .. | .hostAcquireTimeout .. | .trainingFrameRx ..
  | .trainTimeout .. | .trainAutoReady .. | .hostTrainReqWrite .. | .hostTxFirWrite .. | .hostTxFirApply ..
  | .hostGroupAlign .. | .hostLaneLost .. | .hostSyncEdge | .hostSysrefArm .. | .jesdRelease .. | .sysrefTimeout ..
  | .patternGenEnable .. | .patternInject .. | .checkerLock .. | .checkerUnlock .. | .patternSnap ..
  | .hostCodewordDecode .. | .hostFecSnap .. | .portEnable .. | .portDisable .. | .admitPath .. | .release ..
  | .releaseRampEnd .. | .queuePass .. | .admFloorWrite .. | .pathGainWrite .. | .filterCommit .. | .xfadeEnd ..
  | .cancellerSwap .. | .meterWindowEnd .. | .bandSyncEdge .. | .bandSyncGlitch | .bandSyncArm .. | .syncRestart
  | .syncStuck | .syncCmd .. | .measRun .. | .measEnd | .bndSyncStatRead .. | .bndPathSatRead .. | .bndTimeLRead ..
  | .isoAppStep .. | .creditStep .. | .rptArm .. | .rptMute .. | .rptOff .. | .rptClear .. | .armingEnd ..
  | .mutingEnd .. | .autoRearm .. | .oscWindowEnd .. | .oscHoldExpire .. | .ceilWindowEnd .. | .clDecayStep ..
  | .ceilHoldExpire .. | .nrEvaluate .. | .nrRelax .. | .donorHoldExpire .. | .muteNAssert | .muteNDeassert
  | .muteNGlitch | .muteNStuck | .rptMuteCntRead .. | .rptCeilWrite .. | .lstStart .. | .lstStop .. | .lstRestart ..
  | .agcWindowEnd .. | .syncDetect .. | .sssEvaluate .. | .pbchDecode .. | .watchPeak .. | .candidateExpire ..
  | .nrbufRelease .. | .presenceExpire .. | .timingStale .. | .tddPatternWrite .. | .tddPatternActivate ..
  | .nfPublish .. | .nfExpire .. | .lstChCntRead .. | .lstRxTimeLRead .. | .seqStandby .. | .seqRx .. | .seqTx ..
  | .seqSettle .. | .seqCal .. | .seqOff .. | .seqTxDurExpire .. | .feLockQualify .. | .feLockFall .. | .heldTxEnter ..
  | .txHoldExpire .. | .settleDone .. | .settleTimeout .. | .calPassEnd .. | .burstTxEnter .. | .burstRxEnter ..
  | .burstLeave .. | .tddGateEdge .. | .spiGo .. | .spiTransferEnd .. | .rfcOwnWrite .. | .coexCtrlWrite ..
  | .coexReqAssert .. | .coexGrantAssert | .coexGrantDeassert | .coexGrantGlitch | .coexGrantStuck | .fenCoexCntRead ..
  | .fenSeqCntRead .. => true
  | _ => false

/-- The core that computes by an instruction which reads and writes no data in memory (R281, R282, R287, R288). -/
def computes : Instr → Option (Fin 14)
  | .add c .. | .sub c .. | .and c .. | .or c .. | .xor c .. | .nor c .. | .sll c .. | .srl c .. | .sra c ..
  | .slt c .. | .sltu c .. | .mul c .. | .mulh c .. | .mulhu c .. | .div c .. | .divu c .. | .rem c .. | .remu c ..
  | .addi c .. | .andi c .. | .ori c .. | .xori c .. | .slti c .. | .sltiu c .. | .slli c .. | .srli c .. | .srai c ..
  | .jalr c .. | .lui c .. | .auipc c .. | .jal c .. | .beq c .. | .bne c .. | .blt c .. | .bge c .. | .bltu c ..
  | .bgeu c .. | .vadd c .. | .vsub c .. | .vmul c .. | .vmulq c .. | .vmac c .. | .vmin c .. | .vmax c .. | .vabs c ..
  | .vshr c .. | .vshl c .. | .vsplat c .. | .vext c .. | .vins c .. | .vsum c .. | .vclamp c .. | .cadd c ..
  | .csub c .. | .cmul c .. | .cmulj c .. | .cmac c .. | .conj c .. | .cmag2 c .. | .cscale c .. | .cshr c ..
  | .cpack c .. => some c
  | _ => none

/-- What a state holds beside registers (see State.bare) and beside the state of the radio chapters, of the partner's links and of
the cellar, which hear of a lane's state. -/
def State.beyond (s : State) : State :=
  { s.bare with conv := [], det := [], frm := [], frameNo := 0, host := [], rpt := [], muteN := false, muteStuck := false, lst := [],
                bnd := [], bsync := {}, bandTime := 0, admSeq := 0, ceilRun := [], ceilNear := [], seen := [], nfTurn := 0, nfDone := [],
                nf := [], meas := {}, inq := [], carry := [], bndZero := [],
                fen := [], fenForced := false, coexHi := false, coexLo := false, spi := [], snk := {}, cel := {} }

/-- What a state holds beside registers, but for core c. -/
def State.others (c : Nat) (s : State) : State := { s.bare with cores := upd s.bare.cores c fun _ => {} }

/-- The registers that a command of the radio chapters may change: its blocks', the router's, those of the links and of the
refusal log. -/
def RadioReg (a : Nat) : Prop :=
  (0x20000000 ≤ a ∧ a < 0x32001000) ∨ Router a ∨ (0x40600000 ≤ a ∧ a < 0x40608000) ∨ (0x40700000 ≤ a ∧ a < 0x40709000)

/-- The byte at a as an access meets it: the merge buffer's where its word's entry holds it, else the stored one (R339, R340). -/
def State.byteSeen (s : State) (a : Nat) : Byte :=
  match unitOf a with
  | some u => match (mergeOf u s).find? fun e => decide (e.a = a / 8 * 8) with
    | some e => (nth e.bytes (a % 8)).getD (s.byte a)
    | none => s.byte a
  | none => s.byte a

/-- The system address that core c's address a names (R311, R549). -/
abbrev named (c : Nat) (a : Word) (s : State) : Nat := (resolve (coreRq c s) a.toNat s).getD a.toNat

/-- The system address of a load or store of core c at its instruction. -/
abbrev dataAt (c rb : Nat) (off : BitVec 13) (s : State) : Nat := named c (eaOf c rb off s) (fetched c s)

/-- An address of one of the memories of R336. -/
abbrev InMemory (a : Nat) : Prop := unitOf a ≠ none

/-- Core c, not the cellar's, can issue an instruction that it fetches from memory, and no word holds a stored error (R284, R337). -/
abbrev RunsFromMemory (c : Nat) (s : State) : Prop :=
  c < 13 ∧ Issues c s ∧ InMemory (named c (s.cpu c).pc s) ∧ s.ecc = []

/-- Every byte but those in [p, p + n) is seen in t as in s. -/
def SeenBut (p n : Nat) (s t : State) : Prop := ∀ a, a < p ∨ p + n ≤ a → t.byteSeen a = s.byteSeen a

/-- A store of the low n bytes of rt that is allowed, aligned and enters memory with no code yet (R286, R339). -/
abbrev StoreAccepted (c rt rb n : Nat) (off : BitVec 13) (s : State) : Prop :=
  MayAccess c n (eaOf c rb off s) (fetched c s) ∧
  (busWrite (coreRq c (fetched c s)) (eaOf c rb off s).toNat (leBytes n (opnd c rt s).toNat) (fetched c s)).2 = none

/-- The bytes from p on are seen as b. -/
def Stored (p : Nat) (b : List Byte) (t : State) : Prop := ∀ k, k < b.length → t.byteSeen (p + k) = nth b k

end Sys2Proof.Machine
end

