-- ==== Sys2Proof/Certificates/Slice0/Obligations.lean ====
section
/-! DEFINITION. The statements for the provers. -/

open Sys2Proof Sys2Proof.Machine

/-- For every command c, queue rest and state s, step on s with c in front of rest is exec c on s with the rest. -/
def Obligations.StepRunsFrontCommand : Prop :=
  ∀ (c : Instr) (rest : List Instr) (s : State), step { s with pending := c :: rest } = exec c { s with pending := rest }

/-- The reset state has the canonical register list, memory lists, merge buffers and array sizes. (R8, R336, R339.) -/
def Obligations.ResetMeetsInv : Prop :=
  Inv State.reset

/-- From every state that meets Inv, a step that answers a next state answers one that meets Inv: registers listed by rising
address and none at its reset value, memory in its one form, stored errors in order, every merge buffer with at most 8 entries
for differing aligned words of its own unit, and the part's numbers of lanes, paths, cores and their registers. (R8, R274, R275,
R336, R337, R339.) -/
def Obligations.StepKeepsInv : Prop :=
  ∀ s t : State, Inv s → step s = .next t → Inv t

/-- exec leaves the queue of waiting commands as it is, for every command and state. -/
def Obligations.CommandsLeaveQueue : Prop :=
  ∀ (c : Instr) (s t : State), exec c s = .next t → t.pending = s.pending

/-- Where its write reaches LANE_ADC_CTRL and asks for no refused change, RX_EN_ON from off starts the foreground pass and
RX_EN_OFF from on powers the converters down; a reserved slot length completes ERR_RANGE. ROTATION_RESUME starts a slot under
R48's conditions. A phase end with an estimate inside the failure test moves to the next phase, SKEW_PHASE_END writes the
spare's targets and begins SHADOW, SLOT_HANDOVER exchanges the slices. HOLD, RESUME, RECAL and RELEASE have their effect while
no calibration command is under way; HOLD ends REFUSED_STATE while one is. Conventions of the model that a clause may rest on:
log 20, 21, 23, 25, 138, 142, 165, 166. (R32, R42, R43, R44, R47, R48, R49, R54, R55.) -/
def Obligations.ConverterCalibration : Prop :=
  (∀ (q : Rq) (n : Fin 8) (w : Word) (s : State), Sent q (LANE_ADC_CTRL n) LANE_ADC_CTRL_fs (force w (LANE_ADC_CTRL_rx_en n) 1)
      s → s.on (LANE_ADC_CTRL_rx_en n) = false → (wf w (LANE_ADC_CTRL_slot_len n) ≠ 3 ∨ s.chg w (LANE_ADC_CTRL_slot_len n) =
      false) → (s.chg w (LANE_ADC_CTRL_ctle_peak n) = false ∨ locked n s = false) → exec (.rxEnOn q n w) s = .next ((((wrote q
      (LANE_ADC_CTRL n) LANE_ADC_CTRL_fs (force w (LANE_ADC_CTRL_rx_en n) 1) s).set (LANE_ADC_STATUS_fg_busy n) 1).set
      (LANE_ADC_STATUS_fg_done n) 0).ret .done)) ∧
  (∀ (q : Rq) (n : Fin 8) (w : Word) (s : State), Sent q (LANE_ADC_CTRL n) LANE_ADC_CTRL_fs (force w (LANE_ADC_CTRL_rx_en n) 1)
      s → wf w (LANE_ADC_CTRL_slot_len n) = 3 → s.chg w (LANE_ADC_CTRL_slot_len n) = true → exec (.rxEnOn q n w) s = .next
      ((request q (LANE_ADC_CTRL n) s).ret .range)) ∧
  (∀ (q : Rq) (n : Fin 8) (w : Word) (s : State), Sent q (LANE_ADC_CTRL n) LANE_ADC_CTRL_fs (force w (LANE_ADC_CTRL_rx_en n) 0)
      s → s.on (LANE_ADC_CTRL_rx_en n) = true → (wf w (LANE_ADC_CTRL_slot_len n) ≠ 3 ∨ s.chg w (LANE_ADC_CTRL_slot_len n) =
      false) → (s.chg w (LANE_ADC_CTRL_ctle_peak n) = false ∨ locked n s = false) → exec (.rxEnOff q n w) s = .next ((rxOff n
      (wrote q (LANE_ADC_CTRL n) LANE_ADC_CTRL_fs (force w (LANE_ADC_CTRL_rx_en n) 0) s)).ret .done)) ∧
  (∀ (n : Fin 8) (s : State), rotOk n s = true → (nth s.conv n).slotOn = false → (nth s.conv n).paused = false → s.on
      TH_STAT_throttle = false → s.on (LANE_ADC_STATUS_no_spare n) = false → rampLive s = true → exec (.rotationResume n) s =
      .next ((((updConv n (fun c => { c with slotOn := true, slotLen := s.get (LANE_ADC_CTRL_slot_len n) }) s).set
      (LANE_ADC_STATUS_rot_run n) 1).set (LANE_ADC_STATUS_phase n) 0).set (LANE_ADC_STATUS_deferred n) 0)) ∧
  (∀ (n : Fin 8) (est : Int) (stuck : Bool) (s : State), (nth s.conv n).slotOn = true → s.get (LANE_ADC_STATUS_phase n) = 0 →
      jumpOfs est (nth (nth s.conv n).est (s.get (LANE_ADC_STATUS_spare n))).ofs = false → rampLive s = true → exec
      (.sparePhaseEnd n est stuck) s = .next ((updConv n (fun c =>
      { c with est := upd c.est (s.get (LANE_ADC_STATUS_spare n)) fun e => { e with ofs := est } }) s).set
      (LANE_ADC_STATUS_phase n) 1)) ∧
  (∀ (n : Fin 8) (est : Int) (s : State), (nth s.conv n).slotOn = true → s.get (LANE_ADC_STATUS_phase n) = 1 → jumpGain est (nth
      (nth s.conv n).est (s.get (LANE_ADC_STATUS_spare n))).gain = false → rampLive s = true → exec (.sparePhaseEnd n est false)
      s = .next ((updConv n (fun c =>
      { c with est := upd c.est (s.get (LANE_ADC_STATUS_spare n)) fun e => { e with gain := est } }) s).set
      (LANE_ADC_STATUS_phase n) 2)) ∧
  (∀ (n : Fin 8) (est : Int) (stuck : Bool) (s : State), (nth s.conv n).slotOn = true → s.get (LANE_ADC_STATUS_phase n) = 1 →
      stuck = true → rampLive s = true → exec (.sparePhaseEnd n est stuck) s = .next (sliceFail n (updConv n (fun c =>
      { c with est := upd c.est (s.get (LANE_ADC_STATUS_spare n)) fun e => { e with gain := est } }) s))) ∧
  (∀ (n : Fin 8) (est : Int) (s : State), (nth s.conv n).slotOn = true → (nth s.conv n).recal = none → s.get
      (LANE_ADC_STATUS_phase n) = 2 → jumpSkew est (nth (nth s.conv n).est (s.get (LANE_ADC_STATUS_spare n))).skew = false →
      s.on (LANE_SLICE_TGT_pin n (s.get (LANE_ADC_STATUS_spare n))) = true → rampLive s = true → exec (.skewPhaseEnd n est) s =
      .next (((updConv n (fun c =>
      { c with est := upd c.est (s.get (LANE_ADC_STATUS_spare n)) fun e => { e with skew := est } }) s).set
      (LANE_ADC_STATUS_phase n) 3).set (LANE_SLICE_CSKEW_state n (s.get (LANE_ADC_STATUS_spare n))) 3)) ∧
  (∀ (n : Fin 8) (est : Int) (s : State), (nth s.conv n).slotOn = true → (nth s.conv n).recal = none → s.get
      (LANE_ADC_STATUS_phase n) = 2 → jumpSkew est (nth (nth s.conv n).est (s.get (LANE_ADC_STATUS_spare n))).skew = false →
      s.on (LANE_SLICE_TGT_pin n (s.get (LANE_ADC_STATUS_spare n))) = false → rampLive s = true → exec (.skewPhaseEnd n est) s =
      .next (((writeTargets n (s.get (LANE_ADC_STATUS_spare n)) (nth (upd (nth s.conv n).est (s.get (LANE_ADC_STATUS_spare n))
      fun e => { e with skew := est }) (s.get (LANE_ADC_STATUS_spare n))) (updConv n (fun c =>
      { c with est := upd c.est (s.get (LANE_ADC_STATUS_spare n)) fun e => { e with skew := est } }) s)).set
      (LANE_ADC_STATUS_phase n) 3).set (LANE_SLICE_CSKEW_state n (s.get (LANE_ADC_STATUS_spare n))) 3)) ∧
  (∀ (n : Fin 8) (cont : SliceEst) (s : State), (nth s.conv n).slotOn = true → s.get (LANE_ADC_STATUS_phase n) = 3 → rampLive s
      = true → exec (.slotHandover n cont) s = .next (slotNext n (recalSlotEnd n (countSlot n (exchange n cont s))))) ∧
  (∀ (q : Rq) (n : Fin 8) (k : Fin 128) (s : State), Sent q (LANE_CAL_CMD n) LANE_CAL_CMD_fs (calWord n 1 k) s → calBusy n s =
      false → exec (.hold q n k) s = .next (if (nth s.conv n).slotOn then (calBegin n 1 k .held (updConv n (fun c =>
      { c with holdPend := true, holdK := k }) (request q (LANE_CAL_CMD n) s))).ret .held else calNow n 1 k .done (updConv n
      (fun c => { c with paused := true }) (request q (LANE_CAL_CMD n) s)))) ∧
  (∀ (q : Rq) (n : Fin 8) (k : Fin 128) (s : State), Sent q (LANE_CAL_CMD n) LANE_CAL_CMD_fs (calWord n 2 k) s → calBusy n s =
      false → s.on (LANE_ADC_STATUS_fg_done n) = true → exec (.calResume q n k) s = .next (calNow n 2 k .done (updConv n (fun c
      => { c with paused := false }) (request q (LANE_CAL_CMD n) s)))) ∧
  (∀ (q : Rq) (n : Fin 8) (k : Fin 128) (s : State), Sent q (LANE_CAL_CMD n) LANE_CAL_CMD_fs (calWord n 3 k) s → calBusy n s =
      false → k.val < 65 → s.get (LANE_SLICE_CSKEW_state n k) ≠ 2 → exec (.recal q n k) s = .next ((calBegin n 3 k .queued
      (updConv n (fun c => { c with recal := some ⟨k, if s.get (LANE_ADC_STATUS_spare n) = k then 2 else 0⟩ }) (request q
      (LANE_CAL_CMD n) s))).ret .queued)) ∧
  (∀ (q : Rq) (n : Fin 8) (k : Fin 128) (s : State), Sent q (LANE_CAL_CMD n) LANE_CAL_CMD_fs (calWord n 4 k) s → calBusy n s =
      false → k.val < 65 → exec (.releaseSlice q n k) s = .next (calNow n 4 k .done ((((request q (LANE_CAL_CMD n) s).set
      (LANE_SLICE_TGT_ofs n k) (s.get (LANE_SLICE_CUR_ofs n k))).set (LANE_SLICE_TGT_gain n k) (s.get (LANE_SLICE_CUR_gain n
      k))).set (LANE_SLICE_TSKEW_skew n k) (s.get (LANE_SLICE_CSKEW_skew n k))))) ∧
  (∀ (q : Rq) (n : Fin 8) (k : Fin 128) (s : State), Sent q (LANE_CAL_CMD n) LANE_CAL_CMD_fs (calWord n 1 k) s → calBusy n s =
      true → exec (.hold q n k) s = .next (completed q (LANE_CAL_CMD n) true .state (calNow n 1 k .state (request q
      (LANE_CAL_CMD n) s))))

/-- Where its write reaches LANE_TX_CTRL: SWING_WRITE with a new swing above 240 completes ERR_RANGE, above the working ceiling
GUARD, each without a change but the outcome; an allowed one is stored and ends the clamp. FIR_COMMIT and PD_SWAP with none
pending become HELD, with shadow coefficients beyond 340 FIR_COMMIT completes ERR_RANGE, and while one is pending both complete
REFUSED_STATE. TX_COMMIT_APPLY, while the transmit clock runs, makes the shadow coefficients and main position active and
exchanges the banks as the pending commit says; it changes nothing while TXPLL is off. Conventions of the model that a clause
may rest on: log 22, 24, 138, 165. (R62, R63, R65.) -/
def Obligations.TransmitConverter : Prop :=
  (∀ (q : Rq) (n : Fin 8) (w : Word) (s : State), Sent q (LANE_TX_CTRL n) LANE_TX_CTRL_fs w s → s.chg w (LANE_TX_CTRL_swing n) =
      true → 240 < wf w (LANE_TX_CTRL_swing n) → exec (.swingWrite q n w) s = .next (((request q (LANE_TX_CTRL n) s).set
      (LANE_TX_STATUS_outcome n) Code.range.n).ret .range)) ∧
  (∀ (q : Rq) (n : Fin 8) (w : Word) (s : State), Sent q (LANE_TX_CTRL n) LANE_TX_CTRL_fs w s → s.chg w (LANE_TX_CTRL_swing n) =
      true → wf w (LANE_TX_CTRL_swing n) ≤ 240 → s.get GRD_SWING_work < wf w (LANE_TX_CTRL_swing n) → exec (.swingWrite q n w) s
      = .next (completed q (LANE_TX_CTRL n) true .guard (((request q (LANE_TX_CTRL n) s).set (LANE_TX_STATUS_outcome n)
      Code.guard.n).ret .guard))) ∧
  (∀ (q : Rq) (n : Fin 8) (w : Word) (s : State), Sent q (LANE_TX_CTRL n) LANE_TX_CTRL_fs w s → s.chg w (LANE_TX_CTRL_swing n) =
      true → wf w (LANE_TX_CTRL_swing n) ≤ 240 → wf w (LANE_TX_CTRL_swing n) ≤ s.get GRD_SWING_work → (s.chg w
      (LANE_TX_CTRL_main_pos n) = false ∨ s.on (LANE_TX_STATUS_pending n) = false) → exec (.swingWrite q n w) s = .next
      ((((wrote q (LANE_TX_CTRL n) LANE_TX_CTRL_fs w s).set (LANE_TX_STATUS_outcome n) 0).set (LANE_TX_STATUS_clamped n) 0).ret
      .done)) ∧
  (∀ (q : Rq) (n : Fin 8) (w : Word) (s : State), Sent q (LANE_TX_COMMIT n) LANE_TX_COMMIT_fs (force w (LANE_TX_COMMIT_fir n) 1)
      s → s.on (LANE_TX_STATUS_pending n) = false → firAbsSum n s ≤ 340 → exec (.firCommit q n w) s = .next ((((updConv n (fun c
      => { c with firPend := true, swapPend := decide (wf w (LANE_TX_COMMIT_pd_swap n) = 1) }) (request q (LANE_TX_COMMIT n)
      s)).set (LANE_TX_STATUS_pending n) 1).set (LANE_TX_STATUS_outcome n) Code.held.n).ret .held)) ∧
  (∀ (q : Rq) (n : Fin 8) (w : Word) (s : State), Sent q (LANE_TX_COMMIT n) LANE_TX_COMMIT_fs (force w (LANE_TX_COMMIT_fir n) 1)
      s → s.on (LANE_TX_STATUS_pending n) = false → 340 < firAbsSum n s → exec (.firCommit q n w) s = .next (((request q
      (LANE_TX_COMMIT n) s).set (LANE_TX_STATUS_outcome n) Code.range.n).ret .range)) ∧
  (∀ (q : Rq) (n : Fin 8) (w : Word) (s : State), Sent q (LANE_TX_COMMIT n) LANE_TX_COMMIT_fs (force w (LANE_TX_COMMIT_pd_swap
      n) 1) s → s.on (LANE_TX_STATUS_pending n) = false → (wf w (LANE_TX_COMMIT_fir n) = 1 → firAbsSum n s ≤ 340) → exec
      (.pdSwap q n w) s = .next ((((updConv n (fun c =>
      { c with firPend := decide (wf w (LANE_TX_COMMIT_fir n) = 1), swapPend := true }) (request q (LANE_TX_COMMIT n) s)).set
      (LANE_TX_STATUS_pending n) 1).set (LANE_TX_STATUS_outcome n) Code.held.n).ret .held)) ∧
  (∀ (q : Rq) (n : Fin 8) (w : Word) (s : State), Sent q (LANE_TX_COMMIT n) LANE_TX_COMMIT_fs (force w (LANE_TX_COMMIT_pd_swap
      n) 1) s → s.on (LANE_TX_STATUS_pending n) = true → exec (.pdSwap q n w) s = .next (completed q (LANE_TX_COMMIT n) true
      .state (((request q (LANE_TX_COMMIT n) s).set (LANE_TX_STATUS_outcome n) Code.state.n).ret .state))) ∧
  (∀ (q : Rq) (n : Fin 8) (w : Word) (s : State), Sent q (LANE_TX_COMMIT n) LANE_TX_COMMIT_fs (force w (LANE_TX_COMMIT_fir n) 1)
      s → s.on (LANE_TX_STATUS_pending n) = true → exec (.firCommit q n w) s = .next (completed q (LANE_TX_COMMIT n) true .state
      (((request q (LANE_TX_COMMIT n) s).set (LANE_TX_STATUS_outcome n) Code.state.n).ret .state))) ∧
  (∀ (n : Fin 8) (s : State), txRuns s = true → s.on (LANE_TX_STATUS_pending n) = true → (nth s.conv n).firPend = true → (nth
      s.conv n).swapPend = false → exec (.txCommitApply n) s = .next (((updConv n (fun c =>
      { c with mainPos := s.get (LANE_TX_CTRL_main_pos n), firPend := false, swapPend := false }) (forN 8 (fun k t => t.set
      (LANE_TX_FIR_active n k) (t.get (LANE_TX_FIR_shadow n k))) s)).set (LANE_TX_STATUS_pending n) 0).set
      (LANE_TX_STATUS_outcome n) 0)) ∧
  (∀ (n : Fin 8) (s : State), txRuns s = false → exec (.txCommitApply n) s = .next s) ∧
  (∀ (n : Fin 8) (s : State), txRuns s = true → s.on (LANE_TX_STATUS_pending n) = true → (nth s.conv n).firPend = false → (nth
      s.conv n).swapPend = true → exec (.txCommitApply n) s = .next ((((updConv n (fun c =>
      { c with firPend := false, swapPend := false }) s).set (LANE_TX_STATUS_pd_bank n) (1 - s.get (LANE_TX_STATUS_pd_bank
      n))).set (LANE_TX_STATUS_pending n) 0).set (LANE_TX_STATUS_outcome n) 0))

/-- BLOCK_BOUNDARY equalises and detects the block's codes, hands the detected bits on, runs the loops on what the block shows,
judges the signal, and then lets every waiting change take effect in order; in OFF only the waiting changes; in a held lane
nothing changes. MONITOR_WINDOW_END after the window's blocks stores the count, and a held LOCK in DETECT is done where the
count is within the lock threshold. FG_CAL_DONE ends a running foreground pass and starts a receiver that waits for it.
Conventions of the model that a clause may rest on: log 30, 31, 34, 144, 145, 146, 166, 168. (R69, R76, R92, R93, R47, R58.) -/
def Obligations.ReceiverBlocks : Prop :=
  (∀ (n : Fin 8) (codes look : List Int) (s : State), blkHeld n s = true → exec (.blockBoundary n codes look) s = .next s) ∧
  (∀ (n : Fin 8) (codes look : List Int) (s : State), blkHeld n s = false → detState n s = 0 → exec (.blockBoundary n codes
      look) s = .next (detCfgApply n (boundaryTaps n s))) ∧
  (∀ (n : Fin 8) (codes look : List Int) (s : State), blkHeld n s = false → (detState n s = 1 ∨ detState n s = 4) → exec
      (.blockBoundary n codes look) s = .next (detCmdApply n (forN 4 (lmsStart n) (histStart n (detCfgApply n (boundaryTaps n
      (blockHeard n codes look s))))))) ∧
  (∀ (n : Fin 8) (codes look : List Int) (s : State), blkHeld n s = false → (detState n s = 2 ∨ detState n s = 3) → exec
      (.blockBoundary n codes look) s = .next (detCmdApply n (forN 4 (lmsStart n) (histStart n (detCfgApply n (boundaryTaps n
      (if 256 ≤ (nth s.det n).low ∨ 256 ≤ (nth (blockHeard n codes look s).det n).low then detLost n 1 (blockHeard n codes look
      s) else blockHeard n codes look s))))))) ∧
  (∀ (n : Fin 8) (s : State), detState n s = 2 → 2 ^ (10 + (nth s.det n).winLen) ≤ (nth s.det n).winBlocks → (nth s.det
      n).winCount ≤ 16 * s.get (LANE_DET_MON_lock_thr n) → (nth s.det n).winCount ≤ 256 * s.get (LANE_DET_MON_loss_thr n) → (nth
      s.det n).freqPin = false → (nth s.det n).cmd = some 3 → exec (.monitorWindowEnd n) s = .next (detCmdEnd n .done 0 (setDet
      n 3 (updDet n (fun d =>
      { d with winBlocks := 0, winCount := 0, freqPin := true, seamBad := 0, winLen := s.get (LANE_DET_MON_mon_len n), winMet := some true })
      ((s.set (LANE_SEAM_CNT_count n) (min (nth s.det n).winCount (2 ^ 24 - 1))).incMod (LANE_SEAM_CNT_windows n)))))) ∧
  (∀ (n : Fin 8) (est : List SliceEst) (failed : List Nat) (s : State), s.on (LANE_ADC_STATUS_fg_busy n) = true → failed = [] →
      exec (.fgCalDone n est failed) s = .next (detStart n (calThrottle n (adcEvt n 0 (((((updConv n (fun c =>
      { c with est := est, slots := 0, slotOn := false }) (((forN 65 (fgSlice n est [] 64) s).set (LANE_ADC_STATUS_spare n)
      64).set (LANE_ADC_STATUS_no_spare n) 0)).set (LANE_ADC_STATUS_fg_busy n) 0).set (LANE_ADC_STATUS_fg_done n) 1).set
      (LANE_ADC_STATUS_phase n) 0)))))) ∧
  (∀ (n : Fin 8) (est : List SliceEst) (failed : List Nat) (s : State), s.on (LANE_ADC_STATUS_fg_busy n) = false → exec
      (.fgCalDone n est failed) s = .next (detStart n s))

/-- Where the write reaches the receiver's registers: DET_ENABLE and DET_DISABLE store the control fields, settle reduced-tap
mode and start or stop the receiver. With no command held, ACQUIRE in ACQUIRE, DETECT in DETECT, LOCK in LOCKED and DROP outside
OFF end DONE, ACQUIRE and DETECT where they must wait for a boundary are HELD, LOCK in DETECT follows the last window or waits
for one; a command in OFF ends REFUSED_STATE, and so does any while one is held. Conventions of the model that a clause may rest
on: log 31, 34, 138, 146, 166. (R91, R92, R94.) -/
def Obligations.ReceiverCommands : Prop :=
  (∀ (q : Rq) (n : Fin 8) (w : Word) (s : State), Sent q (LANE_DET_CTRL n) LANE_DET_CTRL_fs (force w (LANE_DET_CTRL_det_en n) 1)
      s → wf w (LANE_DET_CTRL_seam_mode n) < 2 → exec (.detEnable q n w) s = .next ((detStart n (reduceEval n (wrote q
      (LANE_DET_CTRL n) LANE_DET_CTRL_fs (force w (LANE_DET_CTRL_det_en n) 1) s))).ret .done)) ∧
  (∀ (q : Rq) (n : Fin 8) (w : Word) (s : State), Sent q (LANE_DET_CTRL n) LANE_DET_CTRL_fs (force w (LANE_DET_CTRL_det_en n) 0)
      s → wf w (LANE_DET_CTRL_seam_mode n) < 2 → s.on (LANE_DET_CTRL_det_en n) = true → exec (.detDisable q n w) s = .next
      ((detOff n (reduceEval n (wrote q (LANE_DET_CTRL n) LANE_DET_CTRL_fs (force w (LANE_DET_CTRL_det_en n) 0) s))).ret .done))
      ∧
  (∀ (q : Rq) (n : Fin 8) (s : State), Sent q (LANE_DET_CMD n) LANE_DET_CMD_fs 1 s → detBusy n s = false → detState n s = 1 →
      exec (.detAcquire q n) s = .next (detNow n 1 .done (request q (LANE_DET_CMD n) s))) ∧
  (∀ (q : Rq) (n : Fin 8) (s : State), Sent q (LANE_DET_CMD n) LANE_DET_CMD_fs 1 s → detBusy n s = false → detState n s = 4 →
      exec (.detAcquire q n) s = .next (detHold n 1 (request q (LANE_DET_CMD n) s))) ∧
  (∀ (q : Rq) (n : Fin 8) (s : State), Sent q (LANE_DET_CMD n) LANE_DET_CMD_fs 1 s → (detBusy n s = true ∨ detState n s = 0) →
      exec (.detAcquire q n) s = .next (completed q (LANE_DET_CMD n) true .state (detNow n 1 .state (request q (LANE_DET_CMD n)
      s)))) ∧
  (∀ (q : Rq) (n : Fin 8) (s : State), Sent q (LANE_DET_CMD n) LANE_DET_CMD_fs 2 s → detBusy n s = false → (detState n s = 1 ∨
      detState n s = 4) → exec (.detDetect q n) s = .next (detHold n 2 (request q (LANE_DET_CMD n) s))) ∧
  (∀ (q : Rq) (n : Fin 8) (s : State), Sent q (LANE_DET_CMD n) LANE_DET_CMD_fs 2 s → detBusy n s = false → detState n s = 2 →
      exec (.detDetect q n) s = .next (detNow n 2 .done (request q (LANE_DET_CMD n) s))) ∧
  (∀ (q : Rq) (n : Fin 8) (s : State), Sent q (LANE_DET_CMD n) LANE_DET_CMD_fs 2 s → (detBusy n s = true ∨ detState n s = 0) →
      exec (.detDetect q n) s = .next (completed q (LANE_DET_CMD n) true .state (detNow n 2 .state (request q (LANE_DET_CMD n)
      s)))) ∧
  (∀ (q : Rq) (n : Fin 8) (s : State), Sent q (LANE_DET_CMD n) LANE_DET_CMD_fs 3 s → detBusy n s = false → detState n s = 2 →
      (nth s.det n).winMet = some true → exec (.detLock q n) s = .next (detNow n 3 .done (setDet n 3 (request q (LANE_DET_CMD n)
      s)))) ∧
  (∀ (q : Rq) (n : Fin 8) (s : State), Sent q (LANE_DET_CMD n) LANE_DET_CMD_fs 3 s → detBusy n s = false → detState n s = 2 →
      (nth s.det n).winMet = none → exec (.detLock q n) s = .next (detHold n 3 (request q (LANE_DET_CMD n) s))) ∧
  (∀ (q : Rq) (n : Fin 8) (s : State), Sent q (LANE_DET_CMD n) LANE_DET_CMD_fs 3 s → detBusy n s = false → detState n s = 3 →
      exec (.detLock q n) s = .next (detNow n 3 .done (request q (LANE_DET_CMD n) s))) ∧
  (∀ (q : Rq) (n : Fin 8) (s : State), Sent q (LANE_DET_CMD n) LANE_DET_CMD_fs 3 s → (detBusy n s = true ∨ detState n s = 0 ∨
      (detState n s = 2 ∧ (nth s.det n).winMet = some false)) → exec (.detLock q n) s = .next (completed q (LANE_DET_CMD n) true
      .state (detNow n 3 .state (request q (LANE_DET_CMD n) s)))) ∧
  (∀ (q : Rq) (n : Fin 8) (s : State), Sent q (LANE_DET_CMD n) LANE_DET_CMD_fs 4 s → detBusy n s = false → detState n s ≠ 0 →
      exec (.detDrop q n) s = .next (detNow n 4 .done (setDet n 1 (request q (LANE_DET_CMD n) s)))) ∧
  (∀ (q : Rq) (n : Fin 8) (s : State), Sent q (LANE_DET_CMD n) LANE_DET_CMD_fs 4 s → (detBusy n s = true ∨ detState n s = 0) →
      exec (.detDrop q n) s = .next (completed q (LANE_DET_CMD n) true .state (detNow n 4 .state (request q (LANE_DET_CMD n)
      s))))

/-- Where the write reaches its register: an idle unit whose range is allowed takes ACCUM, and APPLY after an ACCUM;
LMS_ACCUM_DONE after the last sample ends the ACCUM DONE. A tap write that changes the coefficient of an ungated tap, on a
locked receiver by at most step_max, waits for the boundary; one that changes nothing is DONE; a gated tap answers REFUSED_STATE
and a too large step ERR_RANGE. LEVEL_SWAP is HELD unless the receiver is locked and the levels are far apart. HIST_RUN starts a
run, HIST_DONE ends it after the last sample. Conventions of the model that a clause may rest on: log 32, 33, 34, 138, 146, 166.
(R73, R81, R82, R83, R87, R88, R95.) -/
def Obligations.Adaptation : Prop :=
  (∀ (q : Rq) (n : Fin 8) (u : Fin 4) (s : State), Sent q (LANE_LMS_CMD n u) LANE_LMS_CMD_fs 1 s → (nth (nth s.det n).lms
      u).phase = 0 → ((lmsRange n u s).2 ≤ if s.get (LANE_LMS_CFG_kind n u) = 0 then 47 else 63) → (s.get (LANE_LMS_CFG_kind n
      u) = 0 → s.get (LANE_EQ_CTRL_anchor n) < (lmsRange n u s).1 ∨ (lmsRange n u s).2 < s.get (LANE_EQ_CTRL_anchor n)) → exec
      (.lmsAccum q n u) s = .next (lmsHold n u 1 1 0 (request q (LANE_LMS_CMD n u) s))) ∧
  (∀ (q : Rq) (n : Fin 8) (u : Fin 4) (s : State), Sent q (LANE_LMS_CMD n u) LANE_LMS_CMD_fs 1 s → (nth (nth s.det n).lms
      u).phase ≠ 0 → exec (.lmsAccum q n u) s = .next (completed q (LANE_LMS_CMD n u) true .state (lmsNow n u 1 .state (request
      q (LANE_LMS_CMD n u) s)))) ∧
  (∀ (n : Fin 8) (u : Fin 4) (s : State), (nth (nth s.det n).lms u).phase = 2 → (nth (nth s.det n).lms u).left = 0 → exec
      (.lmsAccumDone n u) s = .next (lmsEnd n u .done 0 (updLms n u (fun x => { x with accDone := true }) s))) ∧
  (∀ (q : Rq) (n : Fin 8) (u : Fin 4) (mu : Fin 16) (s : State), Sent q (LANE_LMS_CMD n u) LANE_LMS_CMD_fs (force 2
      (LANE_LMS_CMD_mu_shift n u) mu) s → (nth (nth s.det n).lms u).phase = 0 → (nth (nth s.det n).lms u).accDone = true →
      (s.get (LANE_LMS_CFG_kind n u) = 0 → ∀ k : Fin 48, (lmsRange n u s).1 ≤ k → k ≤ (lmsRange n u s).2 → s.on
      (LANE_EQ_TAP_gated n k) = false) → exec (.lmsApply q n u mu) s = .next (lmsHold n u 2 3 mu (request q (LANE_LMS_CMD n u)
      s))) ∧
  (∀ (q : Rq) (n : Fin 8) (u : Fin 4) (mu : Fin 16) (s : State), Sent q (LANE_LMS_CMD n u) LANE_LMS_CMD_fs (force 2
      (LANE_LMS_CMD_mu_shift n u) mu) s → ((nth (nth s.det n).lms u).accDone = false ∨ (nth (nth s.det n).lms u).phase ≠ 0) →
      exec (.lmsApply q n u mu) s = .next (completed q (LANE_LMS_CMD n u) true .state (lmsNow n u 2 .state (request q
      (LANE_LMS_CMD n u) s)))) ∧
  (∀ (q : Rq) (n : Fin 8) (k : Fin 48) (w : Word) (s : State), Sent q (LANE_EQ_TAP n k) LANE_EQ_TAP_fs w s → s.chg w
      (LANE_EQ_TAP_coef n k) = true → s.on (LANE_EQ_TAP_gated n k) = false → (locked n s = true → (sgn 12 (wf w
      (LANE_EQ_TAP_coef n k)) - s.geti (LANE_EQ_TAP_coef n k)).natAbs ≤ s.get (LANE_EQ_CTRL_step_max n)) → exec (.eqTapWrite q n
      k w) s = .next ((updDet n (fun d => { d with tapPend := k :: d.tapPend }) (wrote q (LANE_EQ_TAP n k) LANE_EQ_TAP_fs w
      s)).ret .done)) ∧
  (∀ (q : Rq) (n : Fin 8) (k : Fin 48) (w : Word) (s : State), Sent q (LANE_EQ_TAP n k) LANE_EQ_TAP_fs w s → s.chg w
      (LANE_EQ_TAP_coef n k) = true → s.on (LANE_EQ_TAP_gated n k) = true → exec (.eqTapWrite q n k w) s = .next (completed q
      (LANE_EQ_TAP n k) true .state ((request q (LANE_EQ_TAP n k) s).ret .state))) ∧
  (∀ (q : Rq) (n : Fin 8) (k : Fin 48) (w : Word) (s : State), Sent q (LANE_EQ_TAP n k) LANE_EQ_TAP_fs w s → s.chg w
      (LANE_EQ_TAP_coef n k) = true → s.on (LANE_EQ_TAP_gated n k) = false → locked n s = true → s.get (LANE_EQ_CTRL_step_max n)
      < (sgn 12 (wf w (LANE_EQ_TAP_coef n k)) - s.geti (LANE_EQ_TAP_coef n k)).natAbs → exec (.eqTapWrite q n k w) s = .next
      ((request q (LANE_EQ_TAP n k) s).ret .range)) ∧
  (∀ (q : Rq) (n : Fin 8) (k : Fin 48) (w : Word) (s : State), Sent q (LANE_EQ_TAP n k) LANE_EQ_TAP_fs w s → s.chg w
      (LANE_EQ_TAP_coef n k) = false → exec (.eqTapWrite q n k w) s = .next ((request q (LANE_EQ_TAP n k) s).ret .done)) ∧
  (∀ (q : Rq) (n : Fin 8) (s : State), Sent q (LANE_TRL_COMMIT n) LANE_TRL_COMMIT_fs 1 s → (locked n s = false ∨ levelsFar n s =
      false) → exec (.levelSwap q n) s = .next ((((request q (LANE_TRL_COMMIT n) s).set (LANE_TRL_CTRL_pending n) 1).set
      (LANE_TRL_CTRL_outcome n) Code.held.n).ret .held)) ∧
  (∀ (q : Rq) (n : Fin 8) (s : State), Sent q (LANE_TRL_COMMIT n) LANE_TRL_COMMIT_fs 1 s → locked n s = true → levelsFar n s =
      true → exec (.levelSwap q n) s = .next ((detEvt n 14 ((request q (LANE_TRL_COMMIT n) s).set (LANE_TRL_CTRL_outcome n)
      Code.range.n)).ret .range)) ∧
  (∀ (q : Rq) (n : Fin 8) (w : Word) (s : State), Sent q (LANE_HIST_CTRL n) LANE_HIST_CTRL_fs (force w (LANE_HIST_CTRL_run n) 1)
      s → wf w (LANE_HIST_CTRL_sel n) < 2 → wf w (LANE_HIST_CTRL_bin_shift n) ≤ 10 → exec (.histRun q n w) s = .next ((updDet n
      (fun d => { d with hist := 1 }) ((wrote q (LANE_HIST_CTRL n) LANE_HIST_CTRL_fs (force w (LANE_HIST_CTRL_run n) 1) s).set
      (LANE_HIST_CTRL_busy n) 1)).ret .done)) ∧
  (∀ (n : Fin 8) (s : State), (nth s.det n).hist = 2 → (nth s.det n).histLeft = 0 → exec (.histDone n) s = .next (detEvt n 13
      ((updDet n (fun d => { d with hist := 0 }) s).set (LANE_HIST_CTRL_busy n) 0)))

/-- Where its write reaches FRM_LANE_CTRL: LANE_UP of a lane that is down, with an allowed map and mode that fit the clock and a
legal host group, stores the fields and starts the framer; LANE_DOWN of an up lane whose transmitter is SQUELCHED or FORCED and
whose configuration does not change stops it; MAPPING_CHANGE on a lane that stays down stores the fields. A changed
configuration of an up lane completes REFUSED_STATE, map 3 or a reserved mode ERR_RANGE. CONTAINER_WRITE with an allowed rate
and depth that fits the load and disturbs no named container is stored, a new container starts empty, the load follows; a rate
above 5 completes ERR_RANGE. CONTAINER_BLOCK_IN of a container that a port names queues the block of its last 12 samples and
drops the oldest of four; while the band engine is held a container whose port sent then carries zero blocks. RX_CELL of an
ALIGNED radio lane gives the next cell's block to an enabled container, and an idle word takes one word. PLAYOUT_TICK plays the
next block of a container that has filled, and of one that reaches its depth. Conventions of the model that a clause may rest
on: log 43, 44, 45, 147, 153, 154. (R116, R120, R122, R123, R21, R124, R126, R127, R129, R130, R201.) -/
def Obligations.LanesAndContainers : Prop :=
  (∀ (q : Rq) (n : Fin 8) (w : Word) (s : State), Sent q (FRM_LANE_CTRL n) FRM_LANE_CTRL_fs (force w (FRM_LANE_CTRL_up n) 1) s →
      s.on (FRM_LANE_CTRL_up n) = false → (wf w (FRM_LANE_CTRL_map n) = 1 ∨ (wf w (FRM_LANE_CTRL_map n) = 2 ∧ wf w
      (FRM_LANE_CTRL_mode n) = 0)) → (wf w (FRM_LANE_CTRL_mode n) = 0 ∨ (wf w (FRM_LANE_CTRL_mode n) = 1 ∧ wf w
      (FRM_LANE_CTRL_outer n) = 1)) → (s.get (FRM_LANE_CTRL_map n) = 2 → wf w (FRM_LANE_CTRL_map n) = 2 ∨ ctrListed n s = false)
      → wf w (FRM_LANE_CTRL_mode n) = s.get CRP_PLL_CTRL_tx_mode → (wf w (FRM_LANE_CTRL_map n) = 1 → groupOk (wf w
      (FRM_LANE_CTRL_mode n)) (wf w (FRM_LANE_CTRL_hgrp n)) s = true) → exec (.laneUp q n w) s = .next ((laneUp n (wrote q
      (FRM_LANE_CTRL n) FRM_LANE_CTRL_fs (force w (FRM_LANE_CTRL_up n) 1) s)).ret .done)) ∧
  (∀ (q : Rq) (n : Fin 8) (w : Word) (s : State), Sent q (FRM_LANE_CTRL n) FRM_LANE_CTRL_fs (force w (FRM_LANE_CTRL_up n) 0) s →
      s.on (FRM_LANE_CTRL_up n) = true → wf w (FRM_LANE_CTRL_map n) ≠ 3 → wf w (FRM_LANE_CTRL_mode n) < 2 → laneCfgChg n w s =
      false → (txState n s = 0 ∨ txState n s = 5) → exec (.laneDown q n w) s = .next ((laneDown n (wrote q (FRM_LANE_CTRL n)
      FRM_LANE_CTRL_fs (force w (FRM_LANE_CTRL_up n) 0) s)).ret .done)) ∧
  (∀ (q : Rq) (n : Fin 8) (w : Word) (s : State), Sent q (FRM_LANE_CTRL n) FRM_LANE_CTRL_fs w s → s.on (FRM_LANE_CTRL_up n) =
      false → wf w (FRM_LANE_CTRL_up n) = 0 → wf w (FRM_LANE_CTRL_map n) ≠ 3 → wf w (FRM_LANE_CTRL_mode n) < 2 → (s.get
      (FRM_LANE_CTRL_map n) = 2 → wf w (FRM_LANE_CTRL_map n) = 2 ∨ ctrListed n s = false) → exec (.mappingChange q n w) s =
      .next ((wrote q (FRM_LANE_CTRL n) FRM_LANE_CTRL_fs w s).ret .done)) ∧
  (∀ (q : Rq) (n : Fin 8) (w : Word) (s : State), Sent q (FRM_LANE_CTRL n) FRM_LANE_CTRL_fs w s → s.on (FRM_LANE_CTRL_up n) =
      true → wf w (FRM_LANE_CTRL_map n) ≠ 3 → wf w (FRM_LANE_CTRL_mode n) < 2 → laneCfgChg n w s = true → exec (.mappingChange q
      n w) s = .next (completed q (FRM_LANE_CTRL n) true .state ((request q (FRM_LANE_CTRL n) s).ret .state))) ∧
  (∀ (q : Rq) (n : Fin 8) (w : Word) (s : State), Sent q (FRM_LANE_CTRL n) FRM_LANE_CTRL_fs w s → (wf w (FRM_LANE_CTRL_map n) =
      3 ∨ 2 ≤ wf w (FRM_LANE_CTRL_mode n)) → exec (.mappingChange q n w) s = .next ((request q (FRM_LANE_CTRL n) s).ret .range))
      ∧
  (∀ (q : Rq) (n : Fin 8) (rx : Bool) (c : Fin 128) (w : Word) (s : State), (Sent q (if rx then FRM_RCTR n c else FRM_TCTR n c)
      (if rx then FRM_RCTR_fs else FRM_TCTR_fs) w s) → ctrRate w < 6 → (rx = true → wf w (FRM_RCTR_po_depth n c) ≠ 0) → ctrNamed
      rx n (some c.val) s = false → dirLoad rx n s - wordLoad (ctrWord rx n c s) + wordLoad w ≤ 1279 * loadUnit → exec
      (.containerWrite q n rx c w) s = .next ((loadRefresh rx n (if ctrEn w = true ∧ (ctrEn (ctrWord rx n c s) = false ∨ ctrRate
      w ≠ ctrRate (ctrWord rx n c s) ∨ ctrFmt w ≠ ctrFmt (ctrWord rx n c s)) then ctrFresh rx n c (wrote q (if rx then FRM_RCTR
      n c else FRM_TCTR n c) (if rx then FRM_RCTR_fs else FRM_TCTR_fs) w s) else wrote q (if rx then FRM_RCTR n c else FRM_TCTR
      n c) (if rx then FRM_RCTR_fs else FRM_TCTR_fs) w s)).ret .done)) ∧
  (∀ (q : Rq) (n : Fin 8) (rx : Bool) (c : Fin 128) (w : Word) (s : State), (Sent q (if rx then FRM_RCTR n c else FRM_TCTR n c)
      (if rx then FRM_RCTR_fs else FRM_TCTR_fs) w s) → 6 ≤ ctrRate w → exec (.containerWrite q n rx c w) s = .next ((request q
      (if rx then FRM_RCTR n c else FRM_TCTR n c) s).ret .range)) ∧
  (∀ (n : Fin 8) (c : Fin 128) (p : Nat) (e : Word) (s : State), bndHeld s = false → ctrPort false n c s = some (p, e) → ctrEn
      (ctrWord false n c s) = true → (nth (nth s.frm n).txc c).wait.length < 4 → exec (.containerBlockIn n c) s = .next (updFrm
      n (fun f => { f with txc := upd f.txc c fun x => { x with wait := (nth (nth s.frm n).txc c).wait ++ [encodeBlock (ctrFmt (ctrWord false n c s)) (portRun p s)] } })
      s)) ∧
  (∀ (n : Fin 8) (c : Fin 128) (p : Nat) (e : Word) (s : State), bndHeld s = false → ctrPort false n c s = some (p, e) → ctrEn
      (ctrWord false n c s) = true → (nth (nth s.frm n).txc c).wait.length = 4 → exec (.containerBlockIn n c) s = .next (frmEvt
      n 5 (frmCount n 9 1 (updFrm n (fun f =>
      { f with txc := upd f.txc c fun x => { x with wait := (nth (nth s.frm n).txc c).wait.drop 1 ++ [encodeBlock (ctrFmt (ctrWord false n c s)) (portRun p s)] } })
      s)))) ∧
  (∀ (n : Fin 8) (c : Fin 128) (s : State), bndHeld s = true → s.bndZero.contains (n.val, c.val) = true → ctrEn (ctrWord false n
      c s) = true → (nth (nth s.frm n).txc c).wait.length < 4 → exec (.containerBlockIn n c) s = .next (updFrm n (fun f =>
      { f with txc := upd f.txc c fun x => { x with wait := x.wait ++ [0] } }) s)) ∧
  (∀ (n : Fin 8) (c : Fin 128) (s : State), (portBlockOut n c s = none ∨ ctrEn (ctrWord false n c s) = false) → exec
      (.containerBlockIn n c) s = .next s) ∧
  (∀ (n : Fin 8) (g : Nat) (s : State), rsActive n s = true → s.get (FRM_LANE_CTRL_map n) = 2 → (nth s.frm n).pay.len = 87040 →
      bitsAt (nth s.frm n).msg (64 * (nth s.frm n).word) 1 = 1 → g = cellWords (bitsAt (nth s.frm n).msg (64 * (nth s.frm
      n).word + 8) 2) → (nth s.frm n).word + g ≤ 1285 → groupDone (nth s.frm n) (groupOf (64 * (nth s.frm n).word)) = true →
      groupDone (nth s.frm n) (groupOf (64 * ((nth s.frm n).word + g) - 1)) = true → groupOf (64 * ((nth s.frm n).word + g) - 1)
      < (nth s.frm n).skip → ctrEn (ctrWord true n (bitsAt (nth s.frm n).msg (64 * (nth s.frm n).word + 1) 7) s) = true → exec
      (.rxCell n) s = .next (rxBlock n (bitsAt (nth s.frm n).msg (64 * (nth s.frm n).word + 1) 7) (bitsAt (nth s.frm n).msg (64
      * (nth s.frm n).word + 8) 2) (bitsAt (nth s.frm n).msg (64 * (nth s.frm n).word + 10) 8) (bitsAt (nth s.frm n).msg (64 *
      (nth s.frm n).word + 20) (blockBits (bitsAt (nth s.frm n).msg (64 * (nth s.frm n).word + 8) 2))) (updFrm n (fun f =>
      { f with word := f.word + g }) s))) ∧
  (∀ (n : Fin 8) (s : State), rsActive n s = true → s.get (FRM_LANE_CTRL_map n) = 2 → (nth s.frm n).pay.len = 87040 → (nth s.frm
      n).word < 1285 → bitsAt (nth s.frm n).msg (64 * (nth s.frm n).word) 1 = 0 → groupDone (nth s.frm n) (groupOf (64 * (nth
      s.frm n).word)) = true → groupDone (nth s.frm n) (groupOf (64 * ((nth s.frm n).word + 1) - 1)) = true → groupOf (64 *
      ((nth s.frm n).word + 1) - 1) < (nth s.frm n).skip → exec (.rxCell n) s = .next (updFrm n (fun f =>
      { f with word := f.word + 1 }) s)) ∧
  (∀ (n : Fin 8) (c : Fin 128) (s : State), ctrEn (ctrWord true n c s) = true → s.on (FRM_LANE_CTRL_up n) = true → s.get
      (FRM_LANE_CTRL_map n) = 2 → bandRuns s = true → (nth (nth s.frm n).rxc c).filled = true → exec (.playoutTick n c) s =
      .next (playBlock n c s)) ∧
  (∀ (n : Fin 8) (c : Fin 128) (s : State), ctrEn (ctrWord true n c s) = true → s.on (FRM_LANE_CTRL_up n) = true → s.get
      (FRM_LANE_CTRL_map n) = 2 → bandRuns s = true → (nth (nth s.frm n).rxc c).filled = false → s.get (FRM_RCTR_po_depth n c) ≤
      (nth (nth s.frm n).rxc c).wait.length → exec (.playoutTick n c) s = .next (playBlock n c (updFrm n (fun f =>
      { f with rxc := upd f.rxc c fun x => { x with filled := true } }) s)))

/-- With the receiver in DETECT or LOCKED, RX_FRAME with the align word at a bit position of a frame period's bits leads HUNT to
CONFIRM, the second match in CONFIRM to ALIGNED with FRAME_LOCK, a miss there to HUNT; in ALIGNED the frame is taken or, at the
fourth bad one, lost. PUNCTURE_PHASE_ADVANCE after four misses advances the phase. RS_CODEWORD_DECODE decodes a codeword with
and without erasures, counts it as corrected or failed and puts the corrected message in its place; FEC_WINDOW_END judges
degradation. TX_ENABLE and TX_SQUELCH start a ramp from SQUELCHED and ON, SQUELCH_STEP moves the gain by one while TXPLL runs,
TX_FRAME_START then takes the next frame number and sends a frame of an up lane: overhead, cells or host bits, encoded.
FRM_COUNTER_SNAP copies and clears the counters. Conventions of the model that a clause may rest on: log 40, 41, 42, 143, 147,
149, 164, 167. (R110, R116, R131, R132, R133, R135, R136, R104, R112, R114.) -/
def Obligations.LineFrames : Prop :=
  (∀ (n : Fin 8) (arr : Int) (s : State), (nth s.frm n).rx.len < frameBits → exec (.rxFrame n arr) s = .next s) ∧
  (∀ (n : Fin 8) (arr : Int) (p : Nat) (s : State), (s.get (LANE_DET_STATUS_state n) = 2 ∨ s.get (LANE_DET_STATUS_state n) = 3)
      → fstate n s = 1 → findAlign (nth s.frm n).rx.bits frameBits 0 = some p → p + frameBits ≤ (nth s.frm n).rx.len → exec
      (.rxFrame n arr) s = .next (setFstate n 2 (rxTake n (p + frameBits) s))) ∧
  (∀ (n : Fin 8) (arr : Int) (s : State), (s.get (LANE_DET_STATUS_state n) = 2 ∨ s.get (LANE_DET_STATUS_state n) = 3) →
      frameBits ≤ (nth s.frm n).rx.len → fstate n s = 2 → alignDiff (BitVec.ofNat 170 ((nth s.frm n).rx.part 0 frameBits).bits)
      = 0 → (nth s.frm n).conf = 1 → exec (.rxFrame n arr) s = .next (frmEvt n 0 (setFstate n 3 (rxTake n frameBits s)))) ∧
  (∀ (n : Fin 8) (arr : Int) (s : State), (s.get (LANE_DET_STATUS_state n) = 2 ∨ s.get (LANE_DET_STATUS_state n) = 3) →
      frameBits ≤ (nth s.frm n).rx.len → fstate n s = 2 → 0 < alignDiff (BitVec.ofNat 170 ((nth s.frm n).rx.part 0
      frameBits).bits) → exec (.rxFrame n arr) s = .next (setFstate n 1 (rxTake n frameBits s))) ∧
  (∀ (n : Fin 8) (arr : Int) (s : State), (s.get (LANE_DET_STATUS_state n) = 2 ∨ s.get (LANE_DET_STATUS_state n) = 3) →
      frameBits ≤ (nth s.frm n).rx.len → fstate n s = 3 → alignDiff (BitVec.ofNat 170 ((nth s.frm n).rx.part 0 frameBits).bits)
      ≤ 2 → exec (.rxFrame n arr) s = .next (updFrm n (fun f => { f with bad := 0 }) (takePayload n (((nth s.frm n).rx.part 0
      frameBits).part 170 87040) (takeOverhead n (BitVec.ofNat 170 ((nth s.frm n).rx.part 0 frameBits).bits) arr (rxTake n
      frameBits s))))) ∧
  (∀ (n : Fin 8) (arr : Int) (s : State), (s.get (LANE_DET_STATUS_state n) = 2 ∨ s.get (LANE_DET_STATUS_state n) = 3) →
      frameBits ≤ (nth s.frm n).rx.len → fstate n s = 3 → 2 < alignDiff (BitVec.ofNat 170 ((nth s.frm n).rx.part 0
      frameBits).bits) → (nth s.frm n).bad = 3 → exec (.rxFrame n arr) s = .next (frameLost n (takeOverhead n (BitVec.ofNat 170
      ((nth s.frm n).rx.part 0 frameBits).bits) arr (rxTake n frameBits s)))) ∧
  (∀ (n : Fin 8) (s : State), fstate n s = 1 → s.get (LANE_DET_STATUS_state n) = 2 → 4 ≤ (nth s.frm n).miss → exec
      (.puncturePhaseAdvance n) s = .next (updFrm n (fun f => { f with miss := 0 }) (s.set (FRM_LANE_STATUS_pphase n) (s.get
      (FRM_LANE_STATUS_pphase n) + 1)))) ∧
  (∀ (n : Fin 8) (g k : Fin 4) (s : State), rsActive n s = true → (nth s.frm n).pay.len = 87040 → (nth s.frm n).decoded.contains
      (4 * g.val + k.val) = false → exec (.rsCodewordDecode n g k) s = .next
      (let x := rxWord (nth s.frm n).pay g k; let marks := erasures (s.on (FRM_FEC_CTRL_era_en n)) (s.get (FRM_FEC_CTRL_era_thr n)) (s.get (FRM_FEC_CTRL_era_max n)) (rxRel (nth s.frm n).pay g k); let t := frmCount n 3 marks.length (updFrm n (fun f => { f with decoded := f.decoded ++ [4 * g.val + k.val] }) s); match rsDecodeWord marks x, rsDecodeWord [] x with | some v, o => rsCorrected n (rsDiffer x v).length o.isNone (updFrm n (fun f => { f with msg := putMsg f.msg g k (v.take 514) }) t) | none, some v => rsCorrected n (rsDiffer x v).length false (updFrm n (fun f => { f with msg := putMsg f.msg g k (v.take 514) }) t) | none, none => rsFailed n g k t)) ∧
  (∀ (n : Fin 8) (g k : Fin 4) (s : State), rsActive n s = false → exec (.rsCodewordDecode n g k) s = .next s) ∧
  (∀ (n : Fin 8) (s : State), s.get (FRM_FEC_CTRL_deg_thr n) * 4096 < (nth s.frm n).degSum → s.on (FRM_LANE_STATUS_degraded n) =
      false → exec (.fecWindowEnd n) s = .next (frmEvt n 7 ((updFrm n (fun f => { f with degSum := 0 }) s).set
      (FRM_LANE_STATUS_degraded n) 1))) ∧
  (∀ (n : Fin 8) (s : State), (nth s.frm n).degSum ≤ s.get (FRM_FEC_CTRL_deg_thr n) * 4096 → s.on (FRM_LANE_STATUS_degraded n) =
      false → exec (.fecWindowEnd n) s = .next (updFrm n (fun f => { f with degSum := 0 }) s)) ∧
  (∀ (q : Rq) (n : Fin 8) (s : State), Sent q (FRM_TX_CMD n) FRM_TX_CMD_fs 1 s → txState n s = 0 → s.on (FRM_LANE_CTRL_up n) =
      true → s.on (LANE_TX_CTRL_dac_en n) = true → exec (.txEnable q n) s = .next (txNow n 1 .done (rampStart n 1 (request q
      (FRM_TX_CMD n) s)))) ∧
  (∀ (q : Rq) (n : Fin 8) (s : State), Sent q (FRM_TX_CMD n) FRM_TX_CMD_fs 1 s → txState n s = 3 → exec (.txEnable q n) s =
      .next ((setTx n 4 ((((request q (FRM_TX_CMD n) s).set (FRM_TX_RESULT_outcome n) Code.held.n).set (FRM_TX_RESULT_op n)
      1).set (FRM_TX_RESULT_reason n) 0)).ret .held)) ∧
  (∀ (q : Rq) (n : Fin 8) (s : State), Sent q (FRM_TX_CMD n) FRM_TX_CMD_fs 1 s → txState n s = 5 → exec (.txEnable q n) s =
      .next (completed q (FRM_TX_CMD n) true .guard (txNow n 1 .guard (request q (FRM_TX_CMD n) s)))) ∧
  (∀ (q : Rq) (n : Fin 8) (s : State), Sent q (FRM_TX_CMD n) FRM_TX_CMD_fs 2 s → txState n s = 2 → exec (.txSquelch q n) s =
      .next (txNow n 2 .done (rampStart n 3 (request q (FRM_TX_CMD n) s)))) ∧
  (∀ (q : Rq) (n : Fin 8) (s : State), Sent q (FRM_TX_CMD n) FRM_TX_CMD_fs 2 s → (txState n s = 0 ∨ txState n s = 3) → exec
      (.txSquelch q n) s = .next (txNow n 2 .done (request q (FRM_TX_CMD n) s))) ∧
  (∀ (n : Fin 8) (s : State), txRuns s = true → txState n s = 1 → s.get (FRM_LANE_STATUS_gain n) < 255 → exec (.squelchStep n) s
      = .next (s.set (FRM_LANE_STATUS_gain n) (s.get (FRM_LANE_STATUS_gain n) + 1))) ∧
  (∀ (n : Fin 8) (s : State), txRuns s = true → txState n s = 1 → s.get (FRM_LANE_STATUS_gain n) = 255 → exec (.squelchStep n) s
      = .next (frmEvt n 6 (setTx n 2 (s.set (FRM_LANE_STATUS_gain n) 256)))) ∧
  (∀ (n : Fin 8) (s : State), txRuns s = true → txState n s = 3 → s.get (FRM_LANE_STATUS_gain n) = 1 → exec (.squelchStep n) s =
      .next (frmEvt n 6 (setTx n 0 (s.set (FRM_LANE_STATUS_gain n) 0)))) ∧
  (∀ (n : Fin 8) (s : State), txRuns s = false → exec (.squelchStep n) s = .next s) ∧
  (∀ (q : Rq) (n : Fin 8) (s : State), Sent q (FRM_CNT_CMD n) FRM_CNT_CMD_fs 1 s → exec (.frmCounterSnap q n) s = .next ((updFrm
      n (fun f => { f with cnt := List.replicate 11 0 }) (forN 11 (fun i t => t.wr (FRM_CNT_CORR_SYM n + 4 * i) (BitVec.ofNat 32
      (nth (nth s.frm n).cnt i))) (request q (FRM_CNT_CMD n) s))).ret .done)) ∧
  (∀ (host : List Nat) (s : State), txRuns s = true → ∃ t, exec (.txFrameStart host) s = .next t ∧ t.frameNo = (s.frameNo + 1) %
      65536) ∧
  (∀ (host : List Nat) (s : State), txRuns s = false → exec (.txFrameStart host) s = .next s) ∧
  (∀ (host : List Nat) (n : Fin 8) (s : State), txRuns s = true → s.on (FRM_LANE_CTRL_up n) = true → s.get
      (FRM_LANE_CTRL_mode n) = 0 → s.get (FRM_LANE_CTRL_map n) = 2 → blkHeld 16 s = false → blkHeld n s = false →
      (∀ m : Fin 8, m ≠ n → s.on (FRM_LANE_CTRL_up m) = false) → exec (.txFrameStart host) s = .next
      (celFrame n (let r := crateBlock n { s with frameNo := (s.frameNo + 1) % 65536 }; let f := fillCells (fun c => ctrEn (ctrWord false n c s)) (fun c => ctrFmt (ctrWord false n c s)) 428 0 0 { nth s.frm n with cells := [] }; sendFrame n (ohBlock n ((s.frameNo + 1) % 65536) r.2.2.1 r.2.2.2 r.2.1 s) (payloadOf f.1) (updFrm n (fun _ => f.2) r.1)))) ∧
  (∀ (host : List Nat) (n : Fin 8) (s : State), txRuns s = true → s.on (FRM_LANE_CTRL_up n) = true → s.get
      (FRM_LANE_CTRL_mode n) = 0 → s.get (FRM_LANE_CTRL_map n) ≠ 2 → blkHeld 16 s = false → blkHeld n s = false →
      (∀ m : Fin 8, m ≠ n → s.on (FRM_LANE_CTRL_up m) = false) → exec (.txFrameStart host) s = .next
      (celFrame n (let r := crateBlock n { s with frameNo := (s.frameNo + 1) % 65536 }; let p := hostTake n (nth host n) r.1; sendFrame n (ohBlock n ((s.frameNo + 1) % 65536) r.2.2.1 r.2.2.2 r.2.1 s) (ethPayload n p.1 s) (updFrm n (fun f => { f with cells := [] }) p.2))))

/-- Where the write reaches its register and no command is held: HOST_MODE_WRITE of an allowed mode and amplitude is stored
while the lane is OFF and in no group, or the mode does not change. START from OFF with both halves enabled and a mode other
than converter mode is HELD in ACQUIRE; in converter mode with an illegal link it ends ERR_RANGE. RETRAIN from READY or LOST in
a trained mode is HELD in TRAIN. STOP ends a held command ABORTED and leads to OFF; in OFF it is DONE. RESYNC from READY in
converter mode is HELD in ALIGN. Another command while one is held ends REFUSED_STATE. Conventions of the model that a clause
may rest on: log 50, 54, 57. (R141, R142, R148, R150, R161.) -/
def Obligations.HostLaneCommands : Prop :=
  (∀ (q : Rq) (n : Fin 8) (w : Word) (s : State), Sent q (HOST_CTRL n) HOST_CTRL_fs w s → wf w (HOST_CTRL_mode n) ≤ 4 → wf w
      (HOST_CTRL_amp n) ≤ 120 → (s.chg w (HOST_CTRL_mode n) = true → hostState n s = 0 ∧ hostGroup n s = none) → exec
      (.hostModeWrite q n w) s = .next ((adaptRefresh n (wrote q (HOST_CTRL n) HOST_CTRL_fs w s)).ret .done)) ∧
  (∀ (q : Rq) (n : Fin 8) (s : State), Sent q (HOST_CMD n) HOST_CMD_fs 1 s → (nth s.host n).cmd = none → hostState n s = 0 →
      hostMode n s ≠ 0 → hostMode n s ≠ 4 → s.on (HOST_CTRL_rx_en n) = true → s.on (HOST_CTRL_tx_en n) = true → exec (.hostStart
      q n) s = .next (hostHeld n 1 1 (request q (HOST_CMD n) s))) ∧
  (∀ (q : Rq) (n : Fin 8) (s : State), Sent q (HOST_CMD n) HOST_CMD_fs 1 s → (nth s.host n).cmd = none → hostState n s = 5 →
      hostMode n s ≠ 4 → exec (.hostStart q n) s = .next (hostHeld n 1 1 (request q (HOST_CMD n) s))) ∧
  (∀ (q : Rq) (n : Fin 8) (s : State), Sent q (HOST_CMD n) HOST_CMD_fs 1 s → (nth s.host n).cmd = none → hostState n s = 5 →
      hostMode n s = 4 → linkOk n s = false → exec (.hostStart q n) s = .next (hostNow n 1 .range (request q (HOST_CMD n) s))) ∧
  (∀ (q : Rq) (n : Fin 8) (s : State), Sent q (HOST_CMD n) HOST_CMD_fs 1 s → (nth s.host n).cmd ≠ none → exec (.hostStart q n) s
      = .next (completed q (HOST_CMD n) true .state (hostNow n 1 .state (request q (HOST_CMD n) s)))) ∧
  (∀ (q : Rq) (n : Fin 8) (s : State), Sent q (HOST_CMD n) HOST_CMD_fs 2 s → (nth s.host n).cmd = none → (hostState n s = 4 ∨
      hostState n s = 5) → (hostMode n s = 1 ∨ (hostMode n s = 2 ∧ s.on (HOST_CTRL_c2c n) = true)) → exec (.hostRetrain q n) s =
      .next (hostHeld n 2 2 (request q (HOST_CMD n) s))) ∧
  (∀ (q : Rq) (n : Fin 8) (s : State), Sent q (HOST_CMD n) HOST_CMD_fs 3 s → hostState n s ≠ 0 → exec (.hostStop q n) s = .next
      (hostNow n 3 .done (setHost n 0 (heldEnd n .aborted 1 (request q (HOST_CMD n) s))))) ∧
  (∀ (q : Rq) (n : Fin 8) (s : State), Sent q (HOST_CMD n) HOST_CMD_fs 3 s → hostState n s = 0 → exec (.hostStop q n) s = .next
      (hostNow n 3 .done (request q (HOST_CMD n) s))) ∧
  (∀ (q : Rq) (n : Fin 8) (s : State), Sent q (HOST_CMD n) HOST_CMD_fs 4 s → (nth s.host n).cmd = none → hostState n s = 4 →
      hostMode n s = 4 → exec (.hostResync q n) s = .next (hostHeld n 4 3 (request q (HOST_CMD n) s)))

/-- While HPLL runs, HOST_LOCK_ACQUIRED in ACQUIRE leads a trained lane to TRAIN and another, outside converter mode, to READY.
HOST_ACQUIRE_TIMEOUT and TRAIN_TIMEOUT lead ACQUIRE and TRAIN to LOST with TIMEOUT, HOST_LANE_LOST leads READY to LOST. A
training frame outside TRAIN changes nothing; in TRAIN one records the equaliser's quality and counts its marker, one without a
marker at its place starts the count again, and the fields of a locked exchange are counted. TRAIN_AUTO_READY declares ready
where firmware wrote nothing. HOST_TRAIN_REQ_WRITE in TRAIN is stored. HOST_TX_FIR_WRITE within the limits outside TRAIN waits
for HOST_TX_FIR_APPLY, which makes all taps active. HOST_GROUP_ALIGN of a READY group records its skew, the marker numbers of
its FEC lanes, and that it is aligned where they name every FEC lane and the skew is 32 ns at most. Conventions of the model
that a clause may rest on: log 50, 51, 52, 53, 57, 149, 170. (R145, R148, R149, R151, R153, R154.) -/
def Obligations.HostLaneEvents : Prop :=
  (∀ (n : Fin 8) (snr : Fin 256) (s : State), hostRuns s = true → hostState n s = 1 → hostMode n s ≠ 4 → exec
      (.hostLockAcquired n snr) s = .next
      (let t := (updHost n (fun h => { h with shLock := true }) s).set (HOST_RX_EQ_snr n) snr; if hostTrains n s then setHost n 2 t else hostReady n false t)) ∧
  (∀ (n : Fin 8) (s : State), hostState n s = 1 → exec (.hostAcquireTimeout n) s = .next (heldEnd n .timeout 0 ((setHost n 5
      s).set (HOST_STATUS_lost_reason n) 2))) ∧
  (∀ (n : Fin 8) (mark : Bool) (ctl sts : BitVec 16) (snr : Fin 256) (s : State), hostState n s ≠ 2 → exec (.trainingFrameRx n
      mark ctl sts snr) s = .next s) ∧
  (∀ (n : Fin 8) (mark : Bool) (ctl sts : BitVec 16) (snr : Fin 256) (s : State), hostRuns s = true → hostState n s = 2 → (nth
      s.host n).gotReady = false → (mark = false ∨ (nth s.host n).marks < 2) → exec (.trainingFrameRx n mark ctl sts snr) s =
      .next (updHost n (fun h =>
      { h with marks := if mark then h.marks + 1 else 1, ctlRep := if mark then h.ctlRep else 0, stsRep := if mark then h.stsRep else 0, sent := h.sent + 1, sentReady := if sendsReady n s then min 3 (h.sentReady + 1) else 0 })
      (s.set (HOST_RX_EQ_snr n) snr))) ∧
  (∀ (n : Fin 8) (ctl sts : BitVec 16) (snr : Fin 256) (s : State), hostRuns s = true → hostState n s = 2 → (nth s.host
      n).gotReady = false → (nth s.host n).marks = 3 → (nth s.host n).ctlRep = 0 → (nth s.host n).stsRep = 0 → exec
      (.trainingFrameRx n true ctl sts snr) s = .next (trainFields n ctl.toNat sts.toNat (updHost n (fun h =>
      { h with sent := h.sent + 1, sentReady := if sendsReady n s then min 3 (h.sentReady + 1) else 0 }) (s.set (HOST_RX_EQ_snr
      n) snr)))) ∧
  (∀ (n : Fin 8) (s : State), hostState n s = 2 → exec (.trainTimeout n) s = .next (heldEnd n .timeout 0 ((setHost n 5 s).set
      (HOST_STATUS_lost_reason n) 4))) ∧
  (∀ (n : Fin 8) (s : State), hostState n s = 2 → (nth s.host n).wrote = false → exec (.trainAutoReady n) s = .next (updHost n
      (fun h => { h with auto := true }) s)) ∧
  (∀ (q : Rq) (n : Fin 8) (w : Word) (s : State), Sent q (HOST_TRAIN_REQ n) HOST_TRAIN_REQ_fs w s → hostState n s = 2 → exec
      (.hostTrainReqWrite q n w) s = .next ((updHost n (fun h => { h with wrote := true, auto := false }) (wrote q
      (HOST_TRAIN_REQ n) HOST_TRAIN_REQ_fs w s)).ret .done)) ∧
  (∀ (q : Rq) (n : Fin 8) (w : Word) (s : State), Sent q (HOST_TRAIN_REQ n) HOST_TRAIN_REQ_fs w s → hostState n s ≠ 2 → exec
      (.hostTrainReqWrite q n w) s = .next (completed q (HOST_TRAIN_REQ n) true .state ((request q (HOST_TRAIN_REQ n) s).ret
      .state))) ∧
  (∀ (q : Rq) (n : Fin 8) (k : Fin 5) (w : Word) (s : State), Sent q (HOST_TX_FIR n k) HOST_TX_FIR_fs w s → s.chg w
      (HOST_TX_FIR_value n k) = true → (tapsOk (upd (hostTaps n s) k fun _ => sgn 7 (wf w (HOST_TX_FIR_value n k))) = true) →
      hostState n s ≠ 2 → exec (.hostTxFirWrite q n k w) s = .next ((updHost n (fun h => { h with firPend := true }) (wrote q
      (HOST_TX_FIR n k) HOST_TX_FIR_fs w s)).ret .done)) ∧
  (∀ (q : Rq) (n : Fin 8) (k : Fin 5) (w : Word) (s : State), Sent q (HOST_TX_FIR n k) HOST_TX_FIR_fs w s → s.chg w
      (HOST_TX_FIR_value n k) = true → (tapsOk (upd (hostTaps n s) k fun _ => sgn 7 (wf w (HOST_TX_FIR_value n k))) = false) →
      exec (.hostTxFirWrite q n k w) s = .next ((request q (HOST_TX_FIR n k) s).ret .range)) ∧
  (∀ (n : Fin 8) (s : State), hostRuns s = true → (nth s.host n).firPend = true → exec (.hostTxFirApply n) s = .next (updHost n
      (fun h => { h with firPend := false }) (forN 5 (fun k t => t.set (HOST_TX_FIR_active n k) (t.get (HOST_TX_FIR_value n k)))
      s))) ∧
  (∀ (n : Fin 8) (size : Fin 5) (ids : List Nat) (skewPs : Nat) (s : State), hostRuns s = true →
      (size = 1 ∨ size = 2 ∨ size = 4) → n.val % size.val = 0 → 1 ≤ hostMode n s → hostMode n s ≤ 3 →
      (∀ j : Fin 4, j.val < size.val → hostMode (n + j.val) s = hostMode n s ∧ hostState (n + j.val) s = 4) → exec
      (.hostGroupAlign n size ids skewPs) s = .next
      (let ok := decide (skewPs ≤ 32000) && decide (ids.length = fecLanes (hostMode n s) size) && (List.range (fecLanes (hostMode n s) size)).all fun i => ids.contains i; updHost n (fun h => { h with grp := if ok then size else 0, ids := ids }) (((fecQuiet n size (forN size (fun j t => groupBreak (n + j) t) s)).set (HOST_STATUS_grp_skew n) (if skewPs ≤ 32000 then 0 else 1)).set (HOST_STATUS_grp_aligned n) ok.toNat))) ∧
  (∀ (n : Fin 8) (why : Fin 3) (s : State), hostState n s = 4 → exec (.hostLaneLost n why) s = .next (hostEvt n 1 (heldEnd n
      .aborted 0 ((setHost n 5 s).set (HOST_STATUS_lost_reason n) (why + 1)))))

/-- HOST_SYNC_EDGE reaches every link's first lane that no reset holds. HOST_SYSREF_ARM is stored and arms the link.
JESD_RELEASE with every lane of the link's start of multiblock at hand leads its ALIGN lanes to READY, and with only some of
them reports the link late. SYSREF_TIMEOUT in ALIGN with no edge since its entry leads to LOST. PATTERN_GEN_ENABLE with allowed
patterns on a lane without traffic is stored, PATTERN_INJECT counts an inverted symbol, PATTERN_SNAP counts and copies,
CHECKER_LOCK and CHECKER_UNLOCK move the checker while the host clock runs, and change nothing else. HOST_CODEWORD_DECODE on the
first lane of an aligned READY group takes its codeword from what the group's lanes received, demultiplexed and put in order by
the marker numbers, decodes it, counts it and hands it on, HOST_FEC_SNAP copies and clears the counters. Conventions of the
model that a clause may rest on: log 54, 55, 56, 148, 149, 164, 170. (R156, R157, R158, R159, R163, R164, R165.) -/
def Obligations.HostLinks : Prop :=
  (∀ (s : State), exec .hostSyncEdge s = .next
      (forN 8 (fun f t => match linkFrom f t with | some x => if blkHeld (8 + f) t = false then linkEdge f x.2 t else t | none => t) s)) ∧
  (∀ (q : Rq) (n : Fin 8) (w : Word) (s : State), Sent q (HOST_JESD_SYS n) HOST_JESD_SYS_fs (force w (HOST_JESD_SYS_arm n) 1) s
      → exec (.hostSysrefArm q n w) s = .next ((updHost n (fun h => { h with armed := true }) (wrote q (HOST_JESD_SYS n)
      HOST_JESD_SYS_fs (force w (HOST_JESD_SYS_arm n) 1) s)).ret .done)) ∧
  (∀ (n : Fin 8) (got : List Bool) (occ crc : Nat) (s : State), linkOf n s = some (n.val, 1) → hostState n s = 3 → (nth s.host
      n).lemc ≠ none → hostRuns s = true → got = [true] → exec (.jesdRelease n got occ crc) s = .next (hostReady n false
      (updHost n (fun h => { h with relAt := releaseAt n (s.addSat (HOST_JESD_STAT_crc_err n) crc) }) (((s.addSat
      (HOST_JESD_STAT_crc_err n) crc).set (HOST_JESD_DL_occ n) (min occ 8191)).set (HOST_JESD_STAT_late n) 0)))) ∧
  (∀ (n : Fin 8) (got : List Bool) (occ crc : Nat) (s : State), linkOf n s = some (n.val, 2) → hostState n s = 3 → hostState (n
      + 1) s = 3 → n.val < 7 → (nth s.host n).lemc ≠ none → hostRuns s = true → got = [true, false] → exec (.jesdRelease n got
      occ crc) s = .next (hostEvt n 7 ((s.addSat (HOST_JESD_STAT_crc_err n) crc).set (HOST_JESD_STAT_late n) 1))) ∧
  (∀ (n : Fin 8) (s : State), linkOf n s = some (n.val, 1) → hostState n s = 3 → s.get (HOST_JESD_SYS_sysref_mode n) ≠ 0 → (nth
      s.host n).edge = false → exec (.sysrefTimeout n) s = .next (heldEnd n .timeout 0 ((setHost n 5 s).set
      (HOST_STATUS_lost_reason n) 5))) ∧
  (∀ (q : Rq) (n : Fin 8) (w : Word) (s : State), Sent q (HOST_PAT_CTRL n) HOST_PAT_CTRL_fs (force w (HOST_PAT_CTRL_gen_en n) 1)
      s → badPattern (hostMode n s) (wf w (HOST_PAT_CTRL_gen_pat n)) = false → badPattern (hostMode n s) (wf w
      (HOST_PAT_CTRL_chk_pat n)) = false → patBusy n s = false → wf w (HOST_PAT_CTRL_chk_en n) = 1 → wf w (HOST_PAT_CTRL_inject
      n) = 0 → wf w (HOST_PAT_CTRL_snap n) = 0 → exec (.patternGenEnable q n w) s = .next ((wrote q (HOST_PAT_CTRL n)
      HOST_PAT_CTRL_fs (force w (HOST_PAT_CTRL_gen_en n) 1) s).ret .done)) ∧
  (∀ (q : Rq) (n : Fin 8) (w : Word) (s : State), Sent q (HOST_PAT_CTRL n) HOST_PAT_CTRL_fs (force w (HOST_PAT_CTRL_inject n) 1)
      s → badPattern (hostMode n s) (wf w (HOST_PAT_CTRL_gen_pat n)) = false → badPattern (hostMode n s) (wf w
      (HOST_PAT_CTRL_chk_pat n)) = false → s.chg w (HOST_PAT_CTRL_gen_en n) = false → wf w (HOST_PAT_CTRL_chk_en n) = 1 → wf w
      (HOST_PAT_CTRL_snap n) = 0 → exec (.patternInject q n w) s = .next ((updHost n (fun h =>
      { h with inverted := h.inverted + 1 }) (wrote q (HOST_PAT_CTRL n) HOST_PAT_CTRL_fs (force w (HOST_PAT_CTRL_inject n) 1)
      s)).ret .done)) ∧
  (∀ (q : Rq) (n : Fin 8) (w : Word) (bits errs : Nat) (s : State), Sent q (HOST_PAT_CTRL n) HOST_PAT_CTRL_fs (force w
      (HOST_PAT_CTRL_snap n) 1) s → badPattern (hostMode n s) (wf w (HOST_PAT_CTRL_gen_pat n)) = false → badPattern (hostMode n
      s) (wf w (HOST_PAT_CTRL_chk_pat n)) = false → s.chg w (HOST_PAT_CTRL_gen_en n) = false → wf w (HOST_PAT_CTRL_chk_en n) = 1
      → wf w (HOST_PAT_CTRL_inject n) = 0 → exec (.patternSnap q n w bits errs) s = .next ((patSnap n ((chkCount n bits errs
      (request q (HOST_PAT_CTRL n) s)).store (HOST_PAT_CTRL n) HOST_PAT_CTRL_fs (force w (HOST_PAT_CTRL_snap n) 1))).ret .done))
      ∧
  (∀ (n : Fin 8) (s : State), hostRuns s = true → s.on (HOST_PAT_CTRL_chk_en n) = true → s.on (HOST_PAT_CTRL_locked n) = false →
      exec (.checkerLock n) s = .next (hostEvt n 4 (s.set (HOST_PAT_CTRL_locked n) 1))) ∧
  (∀ (n : Fin 8) (bits errs : Nat) (s : State), hostRuns s = false → exec (.checkerLock n) s = .next s ∧
      exec (.checkerUnlock n bits errs) s = .next s) ∧
  (∀ (n : Fin 8) (bits errs : Nat) (s : State), hostRuns s = true → s.on (HOST_PAT_CTRL_locked n) = true → exec (.checkerUnlock
      n bits errs) s = .next (hostEvt n 4 ((updHost n (fun h =>
      { h with chkErr := min (h.chkErr + errs) (2 ^ 24 - 1), chkBits := min (h.chkBits + bits) (2 ^ 64 - 1), chkUnl := min (h.chkUnl + 1) 255 })
      s).set (HOST_PAT_CTRL_locked n) 0))) ∧
  (∀ (n : Fin 8) (k : Fin 2) (rx : List Nat) (s : State), hostRuns s = true → hostState n s = 4 → (nth s.host n).grp ≠ 0 → exec
      (.hostCodewordDecode n k rx) s = .next
      (match rsDecodeWord [] (hostWord n k rx s) with | some v => handOver n k (hostWord n k rx s) (v.take 514) false (fecCount n (3 + min (rsDiffer (hostWord n k rx s) v).length 15) 1 (fecCount n 1 (min (rsDiffer (hostWord n k rx s) v).length 15) (fecCount n 0 1 s))) | none => handOver n k (hostWord n k rx s) ((hostWord n k rx s).take 514) true ((fecCount n 2 1 (fecCount n 0 1 s)).flagLimited (HOST_EVT_fec_uncorr n) (160 + 8 * n + 5) fecGap))) ∧
  (∀ (n : Fin 8) (k : Fin 2) (rx : List Nat) (s : State), ((nth s.host n).grp = 0 ∨ hostState n s ≠ 4) → exec
      (.hostCodewordDecode n k rx) s = .next s) ∧
  (∀ (q : Rq) (n : Fin 8) (s : State), Sent q (HOST_FEC_CMD n) HOST_FEC_CMD_fs 1 s → exec (.hostFecSnap q n) s = .next ((fecSnap
      n (request q (HOST_FEC_CMD n) s)).ret .done))

/-- Where the write reaches its register: PORT_ENABLE of a disabled entry whose source agrees is stored, PORT_DISABLE of an
entry that nothing names is stored and an input port's listener loses it; a reserved kind or rate completes ERR_RANGE. A gain
within its bound is stored and ramps; one above it completes GUARD. FILTER_COMMIT of a legal bank starts a fade and is HELD, an
illegal bank ends ERR_RANGE; XFADE_END ends a running fade of an ADMITTED path. CANCELLER_SWAP with legal clusters copies all
registers and ends DONE. Conventions of the model that a clause may rest on: log 71, 72, 76, 151, 169. (R175, R177, R181, R183,
R184, R185, R187, R188.) -/
def Obligations.BandPorts : Prop :=
  (∀ (q : Rq) (out : Bool) (p : Fin 1024) (w : Word) (s : State), (Sent q (if out then BND_POUT p else BND_PIN p) (if out then
      BND_POUT_fs else BND_PIN_fs) (force w (BND_PIN_en p) 1) s) → (bit (s.rd (if out then BND_POUT p else BND_PIN p)) 0 =
      false) → wf w (BND_PIN_kind p) ≠ 3 → wf w (BND_PIN_rate p) ≤ 5 → (out = true → wf w (BND_POUT_src p) ≠ 3) → (portSourceOk
      out p (force w (BND_PIN_en p) 1) (request q (if out then BND_POUT p else BND_PIN p) s) = true) → exec (.portEnable q out p
      w) s = .next ((wrote q (if out then BND_POUT p else BND_PIN p) (if out then BND_POUT_fs else BND_PIN_fs) (force w
      (BND_PIN_en p) 1) s).ret .done)) ∧
  (∀ (q : Rq) (out : Bool) (p : Fin 1024) (w : Word) (s : State), (Sent q (if out then BND_POUT p else BND_PIN p) (if out then
      BND_POUT_fs else BND_PIN_fs) (force w (BND_PIN_en p) 1) s) → (wf w (BND_PIN_kind p) = 3 ∨ 5 < wf w (BND_PIN_rate p)) →
      exec (.portEnable q out p w) s = .next ((request q (if out then BND_POUT p else BND_PIN p) s).ret .range)) ∧
  (∀ (q : Rq) (out : Bool) (p : Fin 1024) (w : Word) (s : State), (Sent q (if out then BND_POUT p else BND_PIN p) (if out then
      BND_POUT_fs else BND_PIN_fs) (force w (BND_PIN_en p) 0) s) → (bit (s.rd (if out then BND_POUT p else BND_PIN p)) 0 = true)
      → ((mergeWord (if out then BND_POUT_fs else BND_PIN_fs) (s.rd (if out then BND_POUT p else BND_PIN p)) (force w
      (BND_PIN_en p) 0) false).toNat / 2 = (s.rd (if out then BND_POUT p else BND_PIN p)).toNat / 2) → wf w (BND_PIN_kind p) ≠ 3
      → wf w (BND_PIN_rate p) ≤ 5 → (out = true → wf w (BND_POUT_src p) ≠ 3) → portNamed out p s = false → exec (.portDisable q
      out p w) s = .next ((if out then wrote q (BND_POUT p) BND_POUT_fs (force w (BND_PIN_en p) 0) s else lstPortOff p (wrote q
      (BND_PIN p) BND_PIN_fs (force w (BND_PIN_en p) 0) s)).ret .done)) ∧
  (∀ (q : Rq) (k : Fin 128) (w : Word) (s : State), Sent q (BND_PATH_GAIN k) BND_PATH_GAIN_fs w s → s.chg w (BND_PATH_GAIN_gain
      k) = true → wf w (BND_PATH_GAIN_gain k) * (nth s.rpt k).a ≤ 65536 * gainBound (pathDir k) s → exec (.pathGainWrite q k w)
      s = .next (((gainFollow k (wf w (BND_PATH_GAIN_gain k)) (request q (BND_PATH_GAIN k) s)).store (BND_PATH_GAIN k)
      BND_PATH_GAIN_fs w).ret .done)) ∧
  (∀ (q : Rq) (k : Fin 128) (w : Word) (s : State), Sent q (BND_PATH_GAIN k) BND_PATH_GAIN_fs w s → s.chg w (BND_PATH_GAIN_gain
      k) = true → 65536 * gainBound (pathDir k) s < wf w (BND_PATH_GAIN_gain k) * (nth s.rpt k).a → exec (.pathGainWrite q k w)
      s = .next (completed q (BND_PATH_GAIN k) true .guard ((request q (BND_PATH_GAIN k) s).ret .guard))) ∧
  (∀ (q : Rq) (k : Fin 128) (w : Word) (s : State), Sent q (BND_PATH_CF k) BND_PATH_CF_fs (force w (BND_PATH_CF_commit k) 1) s →
      wf w (BND_PATH_CF_fade_len k) ≤ 8 → s.on (BND_PATH_CF_fading k) = false → commitOk k (wf w (BND_PATH_CF_n_taps k)) (wf w
      (BND_PATH_CF_mode k)) s = true → exec (.filterCommit q k w) s = .next ((((updBnd k (fun p => { p with fadeAt := s.bclk })
      (wrote q (BND_PATH_CF k) BND_PATH_CF_fs (force w (BND_PATH_CF_commit k) 1) s)).set (BND_PATH_CF_fading k) 1).set
      (BND_PATH_CF_outcome k) Code.held.n).set (BND_PATH_DELAY_changing k) 1 |>.ret .held)) ∧
  (∀ (q : Rq) (k : Fin 128) (w : Word) (s : State), Sent q (BND_PATH_CF k) BND_PATH_CF_fs (force w (BND_PATH_CF_commit k) 1) s →
      wf w (BND_PATH_CF_fade_len k) ≤ 8 → s.on (BND_PATH_CF_fading k) = false → commitOk k (wf w (BND_PATH_CF_n_taps k)) (wf w
      (BND_PATH_CF_mode k)) s = false → exec (.filterCommit q k w) s = .next (((request q (BND_PATH_CF k) s).set
      (BND_PATH_CF_outcome k) Code.range.n).ret .range)) ∧
  (∀ (k : Fin 128) (s : State), s.on (BND_PATH_CF_fading k) = true → admState k s = 2 → exec (.xfadeEnd k) s = .next (bndEvt 5
      ((((delayShow k (bankSwap k s)).set (BND_PATH_CF_fading k) 0).set (BND_PATH_CF_outcome k) Code.done.n).set
      (BND_PATH_DELAY_changing k) 0))) ∧
  (∀ (k : Fin 128) (s : State), (s.on (BND_PATH_CF_fading k) = false ∨ admState k s ≠ 2) → exec (.xfadeEnd k) s = .next s) ∧
  (∀ (q : Rq) (k : Fin 128) (s : State), Sent q (BND_PATH_CXCMD k) BND_PATH_CXCMD_fs 1 s → (s.get (BND_PATH_CFG_hb k) = 0 ∨ ∀ c
      : Fin 8, s.on (BND_PATH_CXL_en k c) = false) → (∀ c : Fin 8, s.on (BND_PATH_CXL_en k c) = true → 1 ≤ s.get
      (BND_PATH_CXL_delay k c) ∧ s.get (BND_PATH_CXL_delay k c) ≤ 4032) → exec (.cancellerSwap q k) s = .next (((forN 512 (fun j
      t => t.wr (BND_PATH_CXA k j) (t.rd (BND_PATH_CXT k j))) (forN 8 (fun c t => (t.set (BND_PATH_CXL_act_delay k c) (t.get
      (BND_PATH_CXL_delay k c))).set (BND_PATH_CXL_act_en k c) (t.get (BND_PATH_CXL_en k c))) (request q (BND_PATH_CXCMD k)
      s))).set (BND_PATH_CXCMD_outcome k) Code.done.n).ret .done))

/-- Where the write reaches its register: ADMIT of an IDLE path with a legal configuration that can fit takes its place in the
order of requests and is ADMITTED at once where it fits now and nothing that ranks above waits; one that can never fit ends
CAPACITY, one that is not IDLE ends REFUSED_STATE. RELEASE of an ADMITTED path is HELD until RELEASE_RAMP_END, which leaves it
IDLE, DONE, and runs a queue pass. QUEUE_PASS outside a reset of the block runs a pass. Floors of at most 512 units and
thresholds of 32 to 512 are stored, followed by the queue's checks; others complete ERR_RANGE. Conventions of the model that a
clause may rest on: log 70, 73. (R196, R197, R198, R199, R200.) -/
def Obligations.Admission : Prop :=
  (∀ (q : Rq) (k : Fin 128) (s : State), Sent q (BND_PATH_CMD k) BND_PATH_CMD_fs 1 s → admState k s = 0 → cfgOk k s = true →
      neverFits (pathDir k) (pathClass k s) (pathLoad k s) s = false → fitsNow (pathDir k) (pathClass k s) (pathLoad k s) s =
      true → queuedPaths (pathDir k) s = [] → exec (.admitPath q k) s = .next ((admShow (pathDir k) (pathAdmit k (updBnd k (fun
      p => { p with req := s.admSeq + 1 }) { request q (BND_PATH_CMD k) s with admSeq := s.admSeq + 1 }))).ret .done)) ∧
  (∀ (q : Rq) (k : Fin 128) (s : State), Sent q (BND_PATH_CMD k) BND_PATH_CMD_fs 1 s → admState k s ≠ 0 → exec (.admitPath q k)
      s = .next (completed q (BND_PATH_CMD k) true .state (admNow k .state (request q (BND_PATH_CMD k) s)))) ∧
  (∀ (q : Rq) (k : Fin 128) (s : State), Sent q (BND_PATH_CMD k) BND_PATH_CMD_fs 1 s → admState k s = 0 → cfgOk k s = true →
      neverFits (pathDir k) (pathClass k s) (pathLoad k s) s = true → exec (.admitPath q k) s = .next (completed q (BND_PATH_CMD
      k) true .capacity (admNow k .capacity (request q (BND_PATH_CMD k) s)))) ∧
  (∀ (q : Rq) (k : Fin 128) (s : State), Sent q (BND_PATH_CMD k) BND_PATH_CMD_fs 2 s → admState k s = 2 → exec (.release q k) s
      = .next ((admShow (pathDir k) (pathReleasing k false (((request q (BND_PATH_CMD k) s).set (BND_PATH_STAT_outcome k)
      Code.held.n).set (BND_PATH_STAT_reason k) 0))).ret .held)) ∧
  (∀ (q : Rq) (k : Fin 128) (s : State), Sent q (BND_PATH_CMD k) BND_PATH_CMD_fs 2 s → admState k s = 1 → (nth s.bnd k).admWait
      = true → exec (.release q k) s = .next (admShow (pathDir k) (admNow k .done (rptLeft k 3 (admEnd k .aborted 1 (pathIdle k
      (request q (BND_PATH_CMD k) s))))))) ∧
  (∀ (k : Fin 128) (s : State), admState k s = 3 → s.on (BND_PATH_STAT_evicted k) = false → exec (.releaseRampEnd k) s = .next
      (queuePass (pathDir k) (admEnd k .done 0 (pathIdle k s)))) ∧
  (∀ (k : Fin 128) (s : State), admState k s = 3 → s.on (BND_PATH_STAT_evicted k) = true → exec (.releaseRampEnd k) s = .next
      (queuePass (pathDir k) (bndEvt 4 (s.set (BND_PATH_STAT_state k) 1)))) ∧
  (∀ (d : Fin 2) (s : State), bndHeld s = false → exec (.queuePass d) s = .next (queuePass d s)) ∧
  (∀ (q : Rq) (r : Fin 3) (w : Word) (s : State), r ≠ 2 → Sent q (BND_ADM_RES r) BND_ADM_RES_fs w s → fieldOf w 0 8 + fieldOf w
      8 8 + fieldOf w 16 8 + fieldOf w 24 8 ≤ 128 → queuedPaths r s = [] → exec (.admFloorWrite q r w) s = .next ((queuePass r
      (wrote q (BND_ADM_RES r) BND_ADM_RES_fs w s)).ret .done)) ∧
  (∀ (q : Rq) (w : Word) (s : State), Sent q BND_ADM_THR BND_ADM_THR_fs w s → (32 ≤ wf w BND_ADM_THR_thr_dl ∧ wf w
      BND_ADM_THR_thr_dl ≤ 512) → (32 ≤ wf w BND_ADM_THR_thr_ul ∧ wf w BND_ADM_THR_thr_ul ≤ 512) → exec (.admFloorWrite q 2 w) s
      = .next ((capacityChange 1 (capacityChange 0 (wrote q BND_ADM_THR BND_ADM_THR_fs w s))).ret .done)) ∧
  (∀ (q : Rq) (w : Word) (s : State), Sent q BND_ADM_THR BND_ADM_THR_fs w s → (wf w BND_ADM_THR_thr_dl < 32 ∨ 512 < wf w
      BND_ADM_THR_thr_ul) → exec (.admFloorWrite q 2 w) s = .next ((request q BND_ADM_THR s).ret .range))

/-- BAND_SYNC_EDGE that is accepted counts and stamps the edge and in mode 0 schedules nothing; BAND_SYNC_GLITCH counts;
SYNC_STUCK reports once. Where the write reaches its register, BAND_SYNC_ARM stores and arms, SYNC_CMD with none under way is
HELD for the next such band time. SYNC_RESTART at a commanded instant restarts the paths and ends it DONE. METER_WINDOW_END
takes the oldest finished window of the path and stores the levels of its three meters; without one it changes nothing. MEAS_RUN
over one rate is HELD, over differing rates ends ERR_RANGE with nothing stored; MEAS_END after the run's samples stores the
means and the first port timestamp. Reads of BND_SYNC_STAT and BND_PATH_SAT return and clear; BND_TIME_L returns the band time
and latches its high half. Conventions of the model that a clause may rest on: log 74, 75, 152, 168, 169. (R170, R171, R186,
R190, R191, R192, R193, R194, R195.) -/
def Obligations.BandTimeAndMeasurement : Prop :=
  (∀ (ago : Nat) (low : Bool) (s : State), bndHeld s = false → (s.bsync.stuck = false ∨ low = true) → s.get BND_SYNC_CTRL_mode =
      0 → exec (.bandSyncEdge ago low) s = .next ((({ s with bsync := { s.bsync with stuck := false } }.addSat
      BND_SYNC_STAT_edges 1).wr BND_SYNC_TIME (BitVec.ofNat 32 (s.bandTime - ago))).flagLimited BND_EVT_sync_edge 288 (s.get
      BND_SYNC_CTRL_ev_gap * msTicks))) ∧
  (∀ (ago : Nat) (low : Bool) (s : State), bndHeld s = false → (s.bsync.stuck = false ∨ low = true) → s.get BND_SYNC_CTRL_mode =
      2 → exec (.bandSyncEdge ago low) s = .next
      ((({ s with bsync := { s.bsync with stuck := false, edges := s.bsync.edges ++ [s.bandTime - ago + 1024] } }.addSat
      BND_SYNC_STAT_edges 1).wr BND_SYNC_TIME (BitVec.ofNat 32 (s.bandTime - ago))).flagLimited BND_EVT_sync_edge 288 (s.get
      BND_SYNC_CTRL_ev_gap * msTicks))) ∧
  (∀ (s : State), bndHeld s = false → exec .bandSyncGlitch s = .next (s.addSat BND_SYNC_STAT_glitches 1)) ∧
  (∀ (s : State), bndHeld s = false → s.bsync.stuck = false → exec .syncStuck s = .next (bndEvt 1
      ({ s with bsync := { s.bsync with stuck := true } }.addSat BND_SYNC_STAT_stuck 1))) ∧
  (∀ (q : Rq) (w : Word) (s : State), Sent q BND_SYNC_CTRL BND_SYNC_CTRL_fs (force w BND_SYNC_CTRL_arm 1) s → wf w
      BND_SYNC_CTRL_mode ≠ 3 → wf w BND_SYNC_CTRL_stuck_ms ≠ 0 → wf w BND_SYNC_CTRL_ev_gap ≠ 0 → exec (.bandSyncArm q w) s =
      .next (({ wrote q BND_SYNC_CTRL BND_SYNC_CTRL_fs (force w BND_SYNC_CTRL_arm 1) s with bsync := { s.bsync with armed := true } }).ret
      .done)) ∧
  (∀ (q : Rq) (w : Word) (s : State), Sent q BND_SYNC_CMD BND_SYNC_CMD_fs w s → s.bsync.cmd = none → exec (.syncCmd q w) s =
      .next (({ request q BND_SYNC_CMD s with bsync := { s.bsync with cmd := some (nextBand s.bandTime w.toNat) } }.set
      BND_SYNC_RESULT_outcome Code.held.n).ret .held)) ∧
  (∀ (s : State) (t : Nat), s.bsync.cmd = some t → s.bsync.edges = [] → exec .syncRestart s = .next (bndEvt 2
      ({ forN 128 (restartPath t) s with bsync := { s.bsync with cmd := none, made := s.bsync.made + 1 } }.set
      BND_SYNC_RESULT_outcome Code.done.n))) ∧
  (∀ (k : Fin 128) (m : MtrWin) (l : List MtrWin) (s : State), (nth s.bnd k).mtrs = m :: l → exec (.meterWindowEnd k) s = .next
      (nrWindow k m.mOut.levels.1 m.open_ (meterPut (BND_PATH_MTR_OUT_level k) (BND_PATH_MTR_OUT_peak k) m.mOut.levels (meterPut
      (BND_PATH_MTR_RES_level k) (BND_PATH_MTR_RES_peak k) m.mRes.levels (meterPut (BND_PATH_MTR_IN_level k)
      (BND_PATH_MTR_IN_peak k) m.mIn.levels (updBnd k (fun p => { p with mtrs := l }) s)))))) ∧
  (∀ (k : Fin 128) (s : State), (nth s.bnd k).mtrs = [] → exec (.meterWindowEnd k) s = .next s) ∧
  (∀ (q : Rq) (w : Word) (s : State), Sent q BND_MEAS_CTRL BND_MEAS_CTRL_fs (force w BND_MEAS_CTRL_run 1) s → s.on
      BND_MEAS_CTRL_busy = false → wf w BND_MEAS_CTRL_len ≤ 12 → measSame (wf w BND_MEAS_CTRL_ch_en) s = true → exec (.measRun q
      w) s = .next (((({ wrote q BND_MEAS_CTRL BND_MEAS_CTRL_fs (force w BND_MEAS_CTRL_run 1) s with meas := { start := s.bandTime } }
      : State).set BND_MEAS_CTRL_busy 1).set BND_MEAS_CTRL_outcome Code.held.n).ret .held)) ∧
  (∀ (q : Rq) (w : Word) (s : State), Sent q BND_MEAS_CTRL BND_MEAS_CTRL_fs (force w BND_MEAS_CTRL_run 1) s → s.on
      BND_MEAS_CTRL_busy = true → exec (.measRun q w) s = .next (completed q BND_MEAS_CTRL true .state ((request q BND_MEAS_CTRL
      s).ret .state))) ∧
  (∀ (q : Rq) (w : Word) (s : State), Sent q BND_MEAS_CTRL BND_MEAS_CTRL_fs (force w BND_MEAS_CTRL_run 1) s → s.on
      BND_MEAS_CTRL_busy = false → wf w BND_MEAS_CTRL_len ≤ 12 → measSame (wf w BND_MEAS_CTRL_ch_en) s = false → exec (.measRun
      q w) s = .next (((request q BND_MEAS_CTRL s).set BND_MEAS_CTRL_outcome Code.range.n).ret .range)) ∧
  (∀ (s : State), s.on BND_MEAS_CTRL_busy = true → measReady s = true → exec .measEnd s = .next (bndEvt 6 ((((measOn s).foldl
      (fun t c => (t.wr (BND_MEAS_RE c) (corrWord (nth s.meas.ch c).re (measLen s))).wr (BND_MEAS_IM c) (corrWord (nth s.meas.ch
      c).im (measLen s))) (s.wr BND_MEAS_T0 (BitVec.ofInt 32 (s.meas.t0.getD 0)))).set BND_MEAS_CTRL_busy 0).set
      BND_MEAS_CTRL_outcome Code.done.n))) ∧
  (∀ (s : State), (s.on BND_MEAS_CTRL_busy = false ∨ measReady s = false) → exec .measEnd s = .next s) ∧
  (∀ (q : Rq) (s : State), Reads q BND_SYNC_STAT s → exec (.bndSyncStatRead q) s = .next (((request q BND_SYNC_STAT s).retData
      [s.rd BND_SYNC_STAT]).wr BND_SYNC_STAT 0)) ∧
  (∀ (q : Rq) (k : Fin 128) (s : State), Reads q (BND_PATH_SAT k) s → exec (.bndPathSatRead q k) s = .next (((request q
      (BND_PATH_SAT k) s).retData [s.rd (BND_PATH_SAT k)]).wr (BND_PATH_SAT k) 0)) ∧
  (∀ (q : Rq) (s : State), Reads q BND_TIME_L s → exec (.bndTimeLRead q) s = .next (((request q BND_TIME_L s).retData
      [BitVec.ofNat 32 s.bandTime]).wr BND_TIME_H (BitVec.ofNat 32 (s.bandTime / 2 ^ 32))))

/-- Where the write reaches the path's command register and R226 does not bar the requester: ARM of an ADMITTED path in OFF, and
of a path in MUTED, starts arming and is DONE where no cause but CMD is left and osc_hold has elapsed, else it is HELD in MUTED;
in ARMING, ACTIVE and LIMITED it is DONE; in MUTING it is HELD; a second ARM, one in FAULT and one of an OFF path that is not
ADMITTED end REFUSED_STATE. MUTE sets the command cause and ends a held ARM ABORTED; in FAULT it ends REFUSED_STATE (in OFF too,
the model's choice, log 62). OFF from MUTED or FAULT and CLEAR from FAULT end DONE, elsewhere REFUSED_STATE. A barred requester
gets REFUSED_NOT_OWNER and the path's state stays. ARMING_END at 0 dB and MUTING_END at 60 dB move on; AUTO_REARM restarts a
MUTED path. REPEATER_TICK with the band clock running and the block out of reset is one tick of each of the 128 paths; a tick of
a path moves r by up_rate or dn_rate, takes the stable-gain reduction of R206, keeps the applied reduction at or above the sum,
and sets the factor. Conventions of the model that a clause may rest on: log 60, 62, 64. (R205, R206, R209, R210, R211, R212,
R213, R226.) -/
def Obligations.RepeaterCommands : Prop :=
  (∀ (q : Rq) (k : Fin 128) (s : State), Sent q (RPT_PATH_CMD k) RPT_PATH_CMD_fs 1 s → rptBarred q k s = false → rptState k s =
      0 → admState k s = 2 → s.on (RPT_PATH_STAT_arm_pend k) = false → (nth s.rpt k).oscHold = false → (retakeCauses k (causeOff
      k cNoise (causeOff k cCeil (causeOff k cCmd (request q (RPT_PATH_CMD k) s))))).get (RPT_PATH_STAT_causes k) = 0 → exec
      (.rptArm q k) s = .next (rptNow k .done (startArming k (retakeCauses k (causeOff k cNoise (causeOff k cCeil (causeOff k
      cCmd (request q (RPT_PATH_CMD k) s)))))))) ∧
  (∀ (q : Rq) (k : Fin 128) (s : State), Sent q (RPT_PATH_CMD k) RPT_PATH_CMD_fs 1 s → rptBarred q k s = false → rptState k s =
      5 → s.on (RPT_PATH_STAT_arm_pend k) = false → (nth s.rpt k).oscHold = false → (causeOff k cNoise (causeOff k cCeil
      (causeOff k cCmd (request q (RPT_PATH_CMD k) s)))).get (RPT_PATH_STAT_causes k) = 0 → exec (.rptArm q k) s = .next (rptNow
      k .done (startArming k (causeOff k cNoise (causeOff k cCeil (causeOff k cCmd (request q (RPT_PATH_CMD k) s))))))) ∧
  (∀ (q : Rq) (k : Fin 128) (s : State), Sent q (RPT_PATH_CMD k) RPT_PATH_CMD_fs 1 s → rptBarred q k s = false → rptState k s =
      5 → s.on (RPT_PATH_STAT_arm_pend k) = false → ((nth s.rpt k).oscHold = true ∨ (causeOff k cNoise (causeOff k cCeil
      (causeOff k cCmd (request q (RPT_PATH_CMD k) s)))).get (RPT_PATH_STAT_causes k) ≠ 0) → exec (.rptArm q k) s = .next
      (((((causeOff k cNoise (causeOff k cCeil (causeOff k cCmd (request q (RPT_PATH_CMD k) s)))).set (RPT_PATH_STAT_arm_pend k)
      1).set (RPT_PATH_STAT_outcome k) Code.held.n).set (RPT_PATH_STAT_reason k) 0).ret .held)) ∧
  (∀ (q : Rq) (k : Fin 128) (s : State), Sent q (RPT_PATH_CMD k) RPT_PATH_CMD_fs 1 s → rptBarred q k s = false → rptState k s =
      0 → admState k s = 2 → s.on (RPT_PATH_STAT_arm_pend k) = false → ((nth s.rpt k).oscHold = true ∨ (retakeCauses k (causeOff
      k cNoise (causeOff k cCeil (causeOff k cCmd (request q (RPT_PATH_CMD k) s))))).get (RPT_PATH_STAT_causes k) ≠ 0) → exec
      (.rptArm q k) s = .next ((setRpt k 5 ((((retakeCauses k (causeOff k cNoise (causeOff k cCeil (causeOff k cCmd (request q
      (RPT_PATH_CMD k) s))))).set (RPT_PATH_STAT_arm_pend k) 1).set (RPT_PATH_STAT_outcome k) Code.held.n).set
      (RPT_PATH_STAT_reason k) 0)).ret .held)) ∧
  (∀ (q : Rq) (k : Fin 128) (s : State), Sent q (RPT_PATH_CMD k) RPT_PATH_CMD_fs 1 s → rptBarred q k s = false → 1 ≤ rptState k
      s → rptState k s ≤ 3 → s.on (RPT_PATH_STAT_arm_pend k) = false → exec (.rptArm q k) s = .next (rptNow k .done (causeOff k
      cNoise (causeOff k cCeil (causeOff k cCmd (request q (RPT_PATH_CMD k) s)))))) ∧
  (∀ (q : Rq) (k : Fin 128) (s : State), Sent q (RPT_PATH_CMD k) RPT_PATH_CMD_fs 1 s → rptBarred q k s = false → rptState k s =
      4 → s.on (RPT_PATH_STAT_arm_pend k) = false → exec (.rptArm q k) s = .next (((((causeOff k cNoise (causeOff k cCeil
      (causeOff k cCmd (request q (RPT_PATH_CMD k) s)))).set (RPT_PATH_STAT_arm_pend k) 1).set (RPT_PATH_STAT_outcome k)
      Code.held.n).set (RPT_PATH_STAT_reason k) 0).ret .held)) ∧
  (∀ (q : Rq) (k : Fin 128) (s : State), Sent q (RPT_PATH_CMD k) RPT_PATH_CMD_fs 1 s → rptBarred q k s = false → (s.on
      (RPT_PATH_STAT_arm_pend k) = true ∨ rptState k s = 6 ∨ (rptState k s = 0 ∧ admState k s ≠ 2)) → exec (.rptArm q k) s =
      .next (completed q (RPT_PATH_CMD k) true .state (rptNow k .state (request q (RPT_PATH_CMD k) s)))) ∧
  (∀ (q : Rq) (k : Fin 128) (s : State), Sent q (RPT_PATH_CMD k) RPT_PATH_CMD_fs 1 s → rptBarred q k s = true → exec (.rptArm q
      k) s = .next (completed q (RPT_PATH_CMD k) true .notOwner ((request q (RPT_PATH_CMD k) s).ret .notOwner))) ∧
  (∀ (q : Rq) (k : Fin 128) (s : State), Sent q (RPT_PATH_CMD k) RPT_PATH_CMD_fs 2 s → rptBarred q k s = false → rptState k s ≠
      0 → rptState k s ≠ 6 → exec (.rptMute q k) s = .next (rptNow k .done (armEnd k .aborted 1 (causeOn k cCmd (request q
      (RPT_PATH_CMD k) s))))) ∧
  (∀ (q : Rq) (k : Fin 128) (s : State), Sent q (RPT_PATH_CMD k) RPT_PATH_CMD_fs 3 s → rptBarred q k s = false → (rptState k s =
      5 ∨ rptState k s = 6) → exec (.rptOff q k) s = .next (rptNow k .done (rptToOff k 0 (request q (RPT_PATH_CMD k) s)))) ∧
  (∀ (q : Rq) (k : Fin 128) (s : State), Sent q (RPT_PATH_CMD k) RPT_PATH_CMD_fs 4 s → rptBarred q k s = false → rptState k s =
      6 → exec (.rptClear q k) s = .next (rptNow k .done (setRpt k 5 ((updRpt k (fun p => { p with trips := [] }) (request q
      (RPT_PATH_CMD k) s)).set (RPT_PATH_STAT_osc_trips k) 0)))) ∧
  (∀ (q : Rq) (k : Fin 128) (s : State), Sent q (RPT_PATH_CMD k) RPT_PATH_CMD_fs 4 s → rptBarred q k s = false → rptState k s ≠
      6 → exec (.rptClear q k) s = .next (completed q (RPT_PATH_CMD k) true .state (rptNow k .state (request q (RPT_PATH_CMD k)
      s)))) ∧
  (∀ (q : Rq) (k : Fin 128) (s : State), Sent q (RPT_PATH_CMD k) RPT_PATH_CMD_fs 2 s → rptBarred q k s = false → (rptState k s =
      0 ∨ rptState k s = 6) → exec (.rptMute q k) s = .next (completed q (RPT_PATH_CMD k) true .state (rptNow k .state (request
      q (RPT_PATH_CMD k) s)))) ∧
  (∀ (q : Rq) (k : Fin 128) (s : State), Sent q (RPT_PATH_CMD k) RPT_PATH_CMD_fs 3 s → rptBarred q k s = false → rptState k s ≠
      5 → rptState k s ≠ 6 → exec (.rptOff q k) s = .next (completed q (RPT_PATH_CMD k) true .state (rptNow k .state (request q
      (RPT_PATH_CMD k) s)))) ∧
  (∀ (q : Rq) (k : Fin 128) (s : State), Sent q (RPT_PATH_CMD k) RPT_PATH_CMD_fs 2 s → rptBarred q k s = true → exec (.rptMute q
      k) s = .next (completed q (RPT_PATH_CMD k) true .notOwner ((request q (RPT_PATH_CMD k) s).ret .notOwner))) ∧
  (∀ (q : Rq) (k : Fin 128) (s : State), Sent q (RPT_PATH_CMD k) RPT_PATH_CMD_fs 3 s → rptBarred q k s = true → exec (.rptOff q
      k) s = .next (completed q (RPT_PATH_CMD k) true .notOwner ((request q (RPT_PATH_CMD k) s).ret .notOwner))) ∧
  (∀ (q : Rq) (k : Fin 128) (s : State), Sent q (RPT_PATH_CMD k) RPT_PATH_CMD_fs 4 s → rptBarred q k s = true → exec (.rptClear
      q k) s = .next (completed q (RPT_PATH_CMD k) true .notOwner ((request q (RPT_PATH_CMD k) s).ret .notOwner))) ∧
  (∀ (k : Fin 128) (s : State), rptState k s = 1 → (nth s.rpt k).r = 0 → exec (.armingEnd k) s = .next (setRpt k (if redSum (nth
      s.rpt k) = 0 then 2 else 3) s)) ∧
  (∀ (k : Fin 128) (s : State), rptState k s = 4 → (nth s.rpt k).r = 57600 → exec (.mutingEnd k) s = .next (setRpt k 5 s)) ∧
  (∀ (k : Fin 128) (s : State), rptState k s = 5 → s.get (RPT_PATH_STAT_causes k) = 0 → (nth s.rpt k).oscHold = false → (s.on
      (RPT_PATH_STAT_arm_pend k) = true ∨ autoAllowed k s = true) → exec (.autoRearm k) s = .next (armEnd k .done 0 (startArming
      k s))) ∧
  (∀ (s : State), rptHeld s = false → bandRuns s = true → exec .repeaterTick s = .next (celTick (forN 128 rptTick s))) ∧
  (∀ (k : Fin 128) (s : State), k.val < s.rpt.length → (nth (rptTick k s).rpt k).lim = stableLim k (appFall k s) ∧
      (rptState k s = 1 → (nth (rptTick k s).rpt k).r = (nth s.rpt k).r - s.get (RPT_PATH_RAMP_up_rate k)) ∧
      (rptState k s = 4 ∧ (nth s.rpt k).fast = false → (nth (rptTick k s).rpt k).r = min 57600 ((nth s.rpt k).r + s.get
      (RPT_PATH_RAMP_dn_rate k))) ∧
      60 * redSum (nth (rptTick k s).rpt k) ≤ (nth (rptTick k s).rpt k).red ∧
      (nth (rptTick k s).rpt k).a = factorOf (rptState k s) (nth (rptTick k s).rpt k))

/-- ISO_APP_STEP and CREDIT_STEP raise the applied values by one 1/16 dB towards their targets. OSC_WINDOW_END takes the oldest
finished window: one that holds a gate transition starts the history afresh, of a path that is not watched it only passes, and
it trips at the second window running with more than a sixteenth of its samples saturated, or with a residual over its limit
while a cluster is active. OSC_HOLD_EXPIRE ends the cause. CEIL_WINDOW_END with the port's mean above the ceiling reduces every
feeder, CL_DECAY_STEP takes 1/16 dB back where no window since the last came within 1 dB of the ceiling, CEIL_HOLD_EXPIRE sets
the cause. NR_EVALUATE without a valid floor refreshes it and goes on, NR_RELAX takes a step back, DONOR_HOLD_EXPIRE sets the
cause. A ceiling above the attic's completes GUARD. With the repeater block out of reset, the assertion of MUTE_N sets its
status, counts, and sets its cause on every path that follows it; the deassertion clears both; a glitch and a stuck assertion
are counted, the latter once. A read of RPT_MUTE_CNT returns and clears it. Conventions of the model that a clause may rest on:
log 60, 61, 63, 169. (R207, R208, R215, R216, R217, R218, R219, R220, R221, R222, R223, R224.) -/
def Obligations.RepeaterProtection : Prop :=
  (∀ (k : Fin 128) (s : State), rptState k s ≠ 0 → s.get (RPT_PATH_APP_iso_app k) < s.get (RPT_PATH_ISO_iso k) → exec
      (.isoAppStep k) s = .next (s.set (RPT_PATH_APP_iso_app k) (s.get (RPT_PATH_APP_iso_app k) + 1))) ∧
  (∀ (k : Fin 128) (s : State), s.on (RPT_PATH_ISO_conv k) = true → clusterActive k s = true → s.get (RPT_PATH_APP_credit_app k)
      < min 480 (s.get (RPT_PATH_ISO_credit k)) → exec (.creditStep k) s = .next (s.set (RPT_PATH_APP_credit_app k) (s.get
      (RPT_PATH_APP_credit_app k) + 1))) ∧
  (∀ (k : Fin 128) (s : State), (nth s.bnd k).oscs = [] → exec (.oscWindowEnd k) s = .next s) ∧
  (∀ (k : Fin 128) (m : MtrWin) (l : List MtrWin) (s : State), (nth s.bnd k).oscs = m :: l → (rptState k s = 0 ∨ 5 ≤ rptState k
      s) → exec (.oscWindowEnd k) s = .next (updBnd k (fun p => { p with oscs := l }) s)) ∧
  (∀ (k : Fin 128) (m : MtrWin) (l : List MtrWin) (s : State), (nth s.bnd k).oscs = m :: l → m.edge = true → 1 ≤ rptState k s →
      rptState k s ≤ 4 → exec (.oscWindowEnd k) s = .next (updRpt k (fun p => { p with hist := [], resRun := 0, satRun := 0 })
      (updBnd k (fun p => { p with oscs := l }) s))) ∧
  (∀ (k : Fin 128) (m : MtrWin) (l : List MtrWin) (s : State), (nth s.bnd k).oscs = m :: l → m.edge = false → 1 ≤ rptState k s →
      rptState k s ≤ 4 → clusterActive k s = false → m.mOut.n < 16 * m.sat → (nth s.rpt k).satRun = 1 → k.val < s.rpt.length →
      exec (.oscWindowEnd k) s = .next (oscTrip k (updRpt k (fun p =>
      { p with hist := (m.mOut.levels.1 :: p.hist).take (s.get (RPT_PATH_OSC_n k) + 1), resRun := 0, satRun := 2 }) (updBnd k
      (fun p => { p with oscs := l }) s)))) ∧
  (∀ (k : Fin 128) (m : MtrWin) (l : List MtrWin) (s : State), (nth s.bnd k).oscs = m :: l → m.edge = false → 1 ≤ rptState k s →
      rptState k s ≤ 4 → clusterActive k s = true → 64 * (s.get (RPT_PATH_OSC_res_lim k) : Int) < m.mRes.levels.1 -
      m.mIn.levels.1 → (nth s.rpt k).resRun = 1 → 16 * m.sat ≤ m.mOut.n → k.val < s.rpt.length → exec (.oscWindowEnd k) s =
      .next (oscTrip k (updRpt k (fun p =>
      { p with hist := (m.mOut.levels.1 :: p.hist).take (s.get (RPT_PATH_OSC_n k) + 1), resRun := 2, satRun := 0 }) (updBnd k
      (fun p => { p with oscs := l }) s)))) ∧
  (∀ (k : Fin 128) (s : State), (nth s.rpt k).oscHold = true → exec (.oscHoldExpire k) s = .next (causeOff k cOsc (updRpt k (fun
      p => { p with oscHold := false }) s))) ∧
  (∀ (p : Fin 1024) (s : State), sumPort p s = true → ceilInForce p s < ceilMean p s → rptHeld s = false → exec (.ceilWindowEnd
      p) s = .next ((rptEvt 3 ((feeders p s).foldl (fun t k => updRpt k (fun x =>
      { x with cl := x.cl + cdiv (ceilMean p s - ceilInForce p s).toNat 4 }) t) (ceilMark p (ceilMean p s - ceilInForce p s)
      (ceilNext p s)))).raise 4)) ∧
  (∀ (p : Fin 1024) (s : State), ceilMean p s ≤ ceilInForce p s → exec (.ceilWindowEnd p) s = .next (ceilMark p (ceilMean p s -
      ceilInForce p s) (ceilNext p s))) ∧
  (∀ (p : Fin 1024) (s : State), sumPort p s = true → p.val ∉ s.ceilNear → rptHeld s = false → exec (.clDecayStep p) s = .next
      ((feeders p s).foldl (fun t k => updRpt k (fun x => { x with cl := x.cl - 1 }) t) s)) ∧
  (∀ (p : Fin 1024) (s : State), p.val ∈ s.ceilNear → exec (.clDecayStep p) s = .next
      { s with ceilNear := s.ceilNear.filter (· ≠ p.val) }) ∧
  (∀ (k : Fin 128) (s : State), 0 < (nth s.rpt k).cl → exec (.ceilHoldExpire k) s = .next (causeOn k cCeil s)) ∧
  (∀ (k : Fin 128) (s : State), s.on (LST_NF_valid (s.get (RPT_PATH_CFG_donor k))) = false → exec (.nrEvaluate k) s = .next
      (nrsRefresh k s)) ∧
  (∀ (k : Fin 128) (s : State), lMin k s = none → exec (.nrEvaluate k) s = .next (nrsRefresh k s)) ∧
  (∀ (k : Fin 128) (l : Int) (s : State), lMin k s = some l → nrActive k (nrsRefresh k s) = true → riseAbove (noiseGap k l
      (nrsRefresh k s)) (s.get (RPT_PATH_NR_limit k)) = true → nrSpaced k s = true → (nth s.rpt k).nr + 16 * s.get
      (RPT_PATH_NR_nr_step k) ≤ 16 * s.get (RPT_PATH_NR_nr_max k) → exec (.nrEvaluate k) s = .next (updRpt k (fun p =>
      { p with nr := p.nr + 16 * s.get (RPT_PATH_NR_nr_step k) }) (rptEvt 4 (updRpt k (fun p => { p with nrRun := 0 }) (updRpt k
      (fun p => { p with low := decide (8 ≤ s.get (RPT_PATH_NR_limit k)) && !riseAbove (noiseGap k l (nrsRefresh k s)) (s.get (RPT_PATH_NR_limit k) - 8) })
      (((nrsRefresh k s).set (RPT_PATH_NRS_rise k) (riseFloor (noiseGap k l (nrsRefresh k s)) + (nrsRefresh k s).freeVal
      1)).freeNext)))))) ∧
  (∀ (k : Fin 128) (s : State), (nth s.rpt k).low = true → nrActive k s = true → nrSpaced k s = true → exec (.nrRelax k) s =
      .next (updRpt k (fun p => { p with nr := p.nr - 16 * s.get (RPT_PATH_NR_nr_step k), nrRun := 0 }) s)) ∧
  (∀ (k : Fin 128) (s : State), (nth s.rpt k).lost = true → exec (.donorHoldExpire k) s = .next (causeOn k cDonor (updRpt k (fun
      p => { p with gone := true }) s))) ∧
  (∀ (q : Rq) (w : Word) (s : State), Sent q RPT_CEIL RPT_CEIL_fs w s → sgn 16 (wf w RPT_CEIL_ceil) = s.geti RPT_CEIL_ceil →
      exec (.rptCeilWrite q w) s = .next ((request q RPT_CEIL s).ret .done)) ∧
  (∀ (q : Rq) (w : Word) (s : State), Sent q RPT_CEIL RPT_CEIL_fs w s → sgn 16 (wf w RPT_CEIL_ceil) ≤ s.geti RPT_CEIL_ceil_attic
      → sgn 16 (wf w RPT_CEIL_ceil) < s.geti RPT_CEIL_ceil → exec (.rptCeilWrite q w) s = .next (((ceilKeep (request q RPT_CEIL
      s)).store RPT_CEIL RPT_CEIL_fs w).ret .done)) ∧
  (∀ (q : Rq) (w : Word) (s : State), Sent q RPT_CEIL RPT_CEIL_fs w s → sgn 16 (wf w RPT_CEIL_ceil) ≤ s.geti RPT_CEIL_ceil_attic
      → s.geti RPT_CEIL_ceil < sgn 16 (wf w RPT_CEIL_ceil) → s.on GRD_CTRL_lock = false → exec (.rptCeilWrite q w) s = .next
      ((wrote q RPT_CEIL RPT_CEIL_fs w s).ret .done)) ∧
  (∀ (q : Rq) (w : Word) (s : State), Sent q RPT_CEIL RPT_CEIL_fs w s → sgn 16 (wf w RPT_CEIL_ceil) ≠ s.geti RPT_CEIL_ceil →
      (s.geti RPT_CEIL_ceil_attic < sgn 16 (wf w RPT_CEIL_ceil) ∨ (s.geti RPT_CEIL_ceil < sgn 16 (wf w RPT_CEIL_ceil) ∧ s.on
      GRD_CTRL_lock = true)) → exec (.rptCeilWrite q w) s = .next (completed q RPT_CEIL true .guard ((request q RPT_CEIL s).ret
      .guard))) ∧
  (∀ (s : State), s.muteN = false → rptHeld s = false → exec .muteNAssert s = .next ((forN 128 (fun k t => if t.on
      (RPT_PATH_CFG_mute_n_en k) then causeOn k cMuteN t else t) ((({ s with muteN := true, muteStuck := false } : State).set
      RPT_MUTE_CTRL_asserted 1).addSat RPT_MUTE_CNT_asserts 1)).flagLimited RPT_EVT_mute_n 326 (s.get RPT_MUTE_CTRL_ev_gap *
      msTicks))) ∧
  (∀ (s : State), s.muteN = true → rptHeld s = false → exec .muteNDeassert s = .next (forN 128 (fun k t => causeOff k cMuteN t)
      (({ s with muteN := false, muteStuck := false } : State).set RPT_MUTE_CTRL_asserted 0))) ∧
  (∀ (s : State), rptHeld s = false → exec .muteNGlitch s = .next (s.addSat RPT_MUTE_CNT_glitches 1)) ∧
  (∀ (s : State), s.muteN = true → s.muteStuck = false → rptHeld s = false → exec .muteNStuck s = .next (rptEvt 7
      ({ s with muteStuck := true }.addSat RPT_MUTE_CNT_stuck 1))) ∧
  (∀ (q : Rq) (s : State), Reads q RPT_MUTE_CNT s → exec (.rptMuteCntRead q) s = .next (((request q RPT_MUTE_CNT s).retData
      [s.rd RPT_MUTE_CNT]).wr RPT_MUTE_CNT 0))

/-- Where the write reaches the command register: START of an OFF channel with a legal source begins SEARCH with its NCO,
decimator and history fresh, without one it ends ERR_RANGE, of another channel REFUSED_STATE; STOP leads to OFF; RESTART of a
RECEIVE channel ends the reception ABORTED and goes on in SEARCH. AGC_WINDOW_END moves the gain by the mean power of the
window's scaled samples, or freezes it where that waits. SYNC_DETECT in SEARCH starts a reception where the correlator of one of
the three PSS finds a peak at the threshold, and changes nothing without one. SSS_EVALUATE tests the symbol of the reception's
SSS: below the confirm threshold it is a false reception, the first one above reports the cell and ends DONE or goes on to the
PBCH. PBCH_DECODE evaluates the SSS of the newest radio frame and combines the frames so far: with a MIB the reception ends
DONE, the fourth frame without ends TIMEOUT. WATCH_PEAK (with no evaluation complete in its period) of a peak outside the
reception's own PSS: at least 6 dB stronger and with capture on it starts the reception anew, with capture off it is counted,
weaker it becomes the candidate; at the own PSS, or without a peak, nothing changes. CANDIDATE_EXPIRE forgets the candidate.
Conventions of the model that a clause may rest on: log 65, 66, 67, 155, 156, 168, 171. (R231, R232, R233, R234, R235, R238,
R239, R240, R242.) -/
def Obligations.ListenerChannels : Prop :=
  (∀ (q : Rq) (ch : Fin 2) (s : State), Sent q (LST_CH_CMD ch) LST_CH_CMD_fs 1 s → lstState ch s = 0 → sourceOk ch s = true →
      exec (.lstStart q ch) s = .next (lstNow ch .done (((((updLst ch (fun c =>
      { c with rx := none, cand := none, freezePend := false, fresh := true, phase := 0, taken := 0, mixed := [], hist := [], cnt := 0, win := {} })
      (request q (LST_CH_CMD ch) s)).set (LST_CH_STAT_state ch) 1).set (LST_CH_STAT_gain ch) 384).set (LST_CH_STAT_frozen ch)
      0).set (LST_CH_STAT_off_reason ch) 0))) ∧
  (∀ (q : Rq) (ch : Fin 2) (s : State), Sent q (LST_CH_CMD ch) LST_CH_CMD_fs 1 s → lstState ch s = 0 → sourceOk ch s = false →
      exec (.lstStart q ch) s = .next (lstNow ch .range (request q (LST_CH_CMD ch) s))) ∧
  (∀ (q : Rq) (ch : Fin 2) (s : State), Sent q (LST_CH_CMD ch) LST_CH_CMD_fs 1 s → lstState ch s ≠ 0 → exec (.lstStart q ch) s =
      .next (completed q (LST_CH_CMD ch) true .state (lstNow ch .state (request q (LST_CH_CMD ch) s)))) ∧
  (∀ (q : Rq) (ch : Fin 2) (s : State), Sent q (LST_CH_CMD ch) LST_CH_CMD_fs 2 s → exec (.lstStop q ch) s = .next (lstNow ch
      .done (lstToOff ch 3 (request q (LST_CH_CMD ch) s)))) ∧
  (∀ (q : Rq) (ch : Fin 2) (s : State), Sent q (LST_CH_CMD ch) LST_CH_CMD_fs 3 s → lstState ch s = 2 → exec (.lstRestart q ch) s
      = .next (lstNow ch .done (dropCand ch (rxEnd ch .aborted 4 1 (request q (LST_CH_CMD ch) s))))) ∧
  (∀ (q : Rq) (ch : Fin 2) (s : State), Sent q (LST_CH_CMD ch) LST_CH_CMD_fs 3 s → lstState ch s = 0 → exec (.lstRestart q ch) s
      = .next (completed q (LST_CH_CMD ch) true .state (lstNow ch .state (request q (LST_CH_CMD ch) s)))) ∧
  (∀ (ch : Fin 2) (pw : Int) (s : State), lstState ch s ≠ 0 → (nth s.lst ch).freezePend = false → s.on (LST_CH_STAT_frozen ch) =
      false → windowPower ch s = some pw → exec (.agcWindowEnd ch) s = .next ((updLst ch (fun c => { c with win := {} }) s).set
      (LST_CH_STAT_gain ch) (clampI 0 768 ((s.get (LST_CH_STAT_gain ch) : Int) - 16 * s.get (LST_CH_THR_agc_tgt ch) -
      pw)).toNat)) ∧
  (∀ (ch : Fin 2) (s : State), lstState ch s ≠ 0 → (nth s.lst ch).freezePend = false → (s.on (LST_CH_STAT_frozen ch) = true ∨
      windowPower ch s = none) → exec (.agcWindowEnd ch) s = .next (updLst ch (fun c => { c with win := {} }) s)) ∧
  (∀ (ch : Fin 2) (s : State), lstState ch s ≠ 0 → (nth s.lst ch).freezePend = true → exec (.agcWindowEnd ch) s = .next ((updLst
      ch (fun c => { c with freezePend := false }) (updLst ch (fun c => { c with win := {} }) s)).set (LST_CH_STAT_frozen ch)
      1)) ∧
  (∀ (ch : Fin 2) (s : State), lstState ch s = 1 → exec (.syncDetect ch) s = .next (match pssPeak ch s with
      | some p => ((updLst ch (fun c => { c with rx := some (peakRx ch p s), freezePend := true }) s).set (LST_CH_STAT_state ch)
          2).freeNext
      | none => s)) ∧
  (∀ (ch : Fin 2) (s : State), lstState ch s ≠ 1 → exec (.syncDetect ch) s = .next s) ∧
  (∀ (ch : Fin 2) (s : State) (r : Rxn), (nth s.lst ch).rx = some r → exec (.sssEvaluate ch) s = .next
      (match sssOf ch 0 r s with
      | none => s
      | some e => let u := s.seti (LST_RX_CELL_q ch) (satI 16 e.q)
      if e.q < s.get (LST_CH_THR_cfm_thr ch) then rxFalse ch u
      else if r.first then u
      else if s.get (LST_CH_CTRL_rat ch) = 0 ∧ s.on (LST_CH_CTRL_pbch_en ch) = true ∧ (nth s.lst ch).mibCell ≠ some e.pci then
      (cellReport ch r e u).set (LST_RX_STAT_mib_valid ch) 0
      else rxDone ch (if s.get (LST_CH_CTRL_rat ch) = 0 then [] else nrElements ch r (cellReport ch r e u)) (cellReport ch r e
      u))) ∧
  (∀ (ch : Fin 2) (s : State), (nth s.lst ch).rx = none → exec (.sssEvaluate ch) s = .next s) ∧
  (∀ (ch : Fin 2) (soft : List Int) (s : State) (r : Rxn), (nth s.lst ch).rx = some r → r.first = true → exec
      (.pbchDecode ch soft) s = .next (match sssOf ch (((nth s.lst ch).cnt - r.start) / 19200) r s with
      | none => s
      | some e => let u := s.seti (LST_RX_CELL_q ch) (satI 16 e.q)
      if e.q < s.get (LST_CH_THR_cfm_thr ch) then rxFalse ch u
      else match pbchMatch (s.on (LST_CH_CTRL_ecp ch)) (s.get (LST_RX_CELL_pci ch)) (soft :: r.frames) with
      | some (b, ports, fofs) => rxDone ch [] (updLst ch (fun c => { c with mibCell := some (s.get (LST_RX_CELL_pci ch)) })
          (((u.set (LST_MIB_mib ch) b).set (LST_MIB_ports ch) ports).set (LST_MIB_fofs ch) fofs))
      | none => if r.frames.length < 3 then updLst ch (fun c => { c with rx := some { r with frames := soft :: r.frames } }) u
          else rxEnd ch .timeout 0 1 (u.set (LST_RX_STAT_mib_valid ch) 0))) ∧
  (∀ (ch : Fin 2) (soft : List Int) (s : State), ((nth s.lst ch).rx.all (fun r => !r.first) = true) → exec (.pbchDecode ch soft)
      s = .next s) ∧
  (∀ (ch : Fin 2) (s : State) (r : Rxn), (nth s.lst ch).rx = some r → exec (.watchPeak ch false) s = .next
      (match pssPeak ch s with
      | none => s
      | some p => if ownPss ch r (peakRx ch p s).time s then s
      else if r.pow ^ 5 * 1000 ≤ p.pow ^ 5 then
      if s.on (LST_CH_CTRL_cap_en ch) then (rxStart ch (peakRx ch p s) false (rxRecord ch .aborted 1 (s.addSat
      (LST_CH_CNT_captures ch) 1))).freeNext
      else s.addSat (LST_CH_CNT_cap_ign ch) 1
      else ((updLst ch (fun c => { c with cand := some (peakRx ch p s) }) s).set (LST_CH_STAT_cand ch) 1).freeNext)) ∧
  (∀ (ch : Fin 2) (eval : Bool) (s : State), (nth s.lst ch).rx = none → exec (.watchPeak ch eval) s = .next s) ∧
  (∀ (ch : Fin 2) (s : State), exec (.candidateExpire ch) s = .next ((updLst ch (fun c => { c with cand := none }) s).set
      (LST_CH_STAT_cand ch) 0))

/-- NRBUF_RELEASE clears full. PRESENCE_EXPIRE of a present entry clears it and its group's flag follows. TIMING_STALE marks a
channel that tracks. TDD_PATTERN_WRITE of a legal pattern keeps it as accepted, and TDD_PATTERN_ACTIVATE takes it where band
time stands at a tracked frame boundary; an illegal one completes ERR_RANGE. NF_PUBLISH of an enabled group publishes the mean
of its oldest full sum of 2^(10 + nf_len) samples as its floor; without a full one it changes nothing; NF_EXPIRE of a valid one
invalidates it. A read of LST_CH_CNT returns and clears it; of LST_RX_TIME_L returns it and latches the high word. Conventions
of the model that a clause may rest on: log 66, 155, 171. (R237, R244, R246, R247, R248, R249, R250.) -/
def Obligations.ListenerTiming : Prop :=
  (∀ (q : Rq) (ch : Fin 2) (s : State), Sent q (LST_NRBUF_CTRL ch) LST_NRBUF_CTRL_fs 2 s → exec (.nrbufRelease q ch) s = .next
      (((request q (LST_NRBUF_CTRL ch) s).set (LST_NRBUF_CTRL_full ch) 0).ret .done)) ∧
  (∀ (r : Fin 32) (s : State), s.on (LST_ALLOW_present r) = true → exec (.presenceExpire r) s = .next (donorEval (s.get
      (LST_ALLOW_group r)) (s.set (LST_ALLOW_present r) 0))) ∧
  (∀ (ch : Fin 2) (s : State), s.on (LST_CH_CTRL_tim_en ch) = true → s.on (LST_CH_STAT_tim_stale ch) = false → exec
      (.timingStale ch) s = .next (lstEvt (8 * ch + 5) (s.set (LST_CH_STAT_tim_stale ch) 1))) ∧
  (∀ (q : Rq) (ch : Fin 2) (w : Word) (s : State), Sent q (LST_TDD_B ch) LST_TDD_B_fs (force w (LST_TDD_B_valid ch) 1) s →
      tddBad ch (force w (LST_TDD_B_valid ch) 1) s = false → exec (.tddPatternWrite q ch w) s = .next ((updLst ch (fun c =>
      { c with tddPend := some ((wrote q (LST_TDD_B ch) LST_TDD_B_fs (force w (LST_TDD_B_valid ch) 1) s).rd (LST_TDD_A ch), (wrote q (LST_TDD_B ch) LST_TDD_B_fs (force w (LST_TDD_B_valid ch) 1) s).rd (LST_TDD_B ch)) })
      (wrote q (LST_TDD_B ch) LST_TDD_B_fs (force w (LST_TDD_B_valid ch) 1) s)).ret .done)) ∧
  (∀ (q : Rq) (ch : Fin 2) (w : Word) (s : State), Sent q (LST_TDD_B ch) LST_TDD_B_fs (force w (LST_TDD_B_valid ch) 1) s →
      tddBad ch (force w (LST_TDD_B_valid ch) 1) s = true → exec (.tddPatternWrite q ch w) s = .next ((request q (LST_TDD_B ch)
      s).ret .range)) ∧
  (∀ (ch : Fin 2) (p : Word × Word) (f : Nat) (s : State), (nth s.lst ch).tddPend = some p → (nth s.lst ch).track = some f →
      ((s.bandTime : Int) - f) % 9830400 = 0 → exec (.tddPatternActivate ch) s = .next (updLst ch (fun c =>
      { c with tddPend := none, tddA := p.1, tddB := p.2, tddAt := s.bandTime }) s)) ∧
  (∀ (ch : Fin 2) (s : State), ((nth s.lst ch).tddPend = none ∨ (nth s.lst ch).track = none) → exec (.tddPatternActivate ch) s =
      .next s) ∧
  (∀ (g : Fin 16) (m : Mtr) (l : List Mtr) (s : State), s.on (LST_NF_CFG_en g) = true → lstHeld s = false → nth s.nfDone g = m
      :: l → exec (.nfPublish g) s = .next (lstEvt 17 (nrsGroup g (((({ s with nfDone := upd s.nfDone g fun _ => l } :
      State).seti (LST_NF_floor g) (satI 16 (levelIn 16 m.sum (m.n * 2 ^ 30) + s.geti (LST_NF_CFG2_fs_dbm g)))).set
      (LST_NF_valid g) 1).incMod (LST_NF_pubs g))))) ∧
  (∀ (g : Fin 16) (s : State), (nth s.nfDone g = [] ∨ s.on (LST_NF_CFG_en g) = false) → exec (.nfPublish g) s = .next s) ∧
  (∀ (g : Fin 16) (s : State), s.on (LST_NF_valid g) = true → s.get LST_CTRL_nf_age ≠ 0 → exec (.nfExpire g) s = .next (lstEvt
      17 (nrsGroup g (s.set (LST_NF_valid g) 0)))) ∧
  (∀ (q : Rq) (ch : Fin 2) (s : State), Reads q (LST_CH_CNT ch) s → exec (.lstChCntRead q ch) s = .next (((request q (LST_CH_CNT
      ch) s).retData [s.rd (LST_CH_CNT ch)]).wr (LST_CH_CNT ch) 0)) ∧
  (∀ (q : Rq) (ch : Fin 2) (s : State), Reads q (LST_RX_TIME_L ch) s → exec (.lstRxTimeLRead q ch) s = .next (((request q
      (LST_RX_TIME_L ch) s).retData [s.rd (LST_RX_TIME_L ch)]).wr (LST_RX_TIME_H ch) (nth s.lst ch).timeH))

/-- Where the write reaches the command register and no forced cause acts: STANDBY from OFF and, in command mode, from RX or TX,
and RX from STANDBY or TX in command mode enter their state, DONE. TX in TX takes the new duration; from STANDBY or RX it asks
for the medium and enters TX where the sequencer is ready, or is HELD. SETTLE and CAL are HELD in their states where they may
start; CAL without lock ends NOT_READY. OFF ends the held commands ABORTED and enters OFF. While a forced cause acts a command
ends GUARD, and in safe hold one but OFF ends REFUSED_STATE. Conventions of the model that a clause may rest on: log 77, 113,
138, 157. (R256, R257, R260, R264, R267.) -/
def Obligations.SequencerCommands : Prop :=
  (∀ (q : Rq) (n : Fin 4) (s : State), Sent q (FEN_SEQ_CMD n) FEN_SEQ_CMD_fs (seqWord n 1 0) s → s.fenForced = false → s.on
      CRP_ATTIC_STAT_hold = false → seqState n s = 0 → exec (.seqStandby q n) s = .next (seqNow n 1 .done (updFen n (fun f =>
      { f with wait := s.on (FEN_SEQ_CTRL_mode n) }) (seqEnter n 1 (request q (FEN_SEQ_CMD n) s))))) ∧
  (∀ (q : Rq) (n : Fin 4) (s : State), Sent q (FEN_SEQ_CMD n) FEN_SEQ_CMD_fs (seqWord n 1 0) s → s.fenForced = false → s.on
      CRP_ATTIC_STAT_hold = false → s.on (FEN_SEQ_CTRL_mode n) = false → (seqState n s = 4 ∨ seqState n s = 5) → exec
      (.seqStandby q n) s = .next (seqNow n 1 .done (seqEnter n 1 (request q (FEN_SEQ_CMD n) s)))) ∧
  (∀ (q : Rq) (n : Fin 4) (s : State), Sent q (FEN_SEQ_CMD n) FEN_SEQ_CMD_fs (seqWord n 2 0) s → s.fenForced = false → s.on
      CRP_ATTIC_STAT_hold = false → s.on (FEN_SEQ_CTRL_mode n) = false → (seqState n s = 1 ∨ seqState n s = 5) → exec (.seqRx q
      n) s = .next (seqNow n 2 .done (seqEnter n 4 (request q (FEN_SEQ_CMD n) s)))) ∧
  (∀ (q : Rq) (n : Fin 4) (dur : BitVec 16) (s : State), Sent q (FEN_SEQ_CMD n) FEN_SEQ_CMD_fs (seqWord n 3 dur.toNat) s →
      s.fenForced = false → s.on CRP_ATTIC_STAT_hold = false → s.on (FEN_SEQ_CTRL_mode n) = false → s.on (FEN_SEQ_STAT_tx_held
      n) = false → seqState n s = 5 → exec (.seqTx q n dur) s = .next (seqNow n 3 .done (updFen n (fun f =>
      { f with dur := dur.toNat }) (request q (FEN_SEQ_CMD n) s)))) ∧
  (∀ (q : Rq) (n : Fin 4) (dur : BitVec 16) (s : State), Sent q (FEN_SEQ_CMD n) FEN_SEQ_CMD_fs (seqWord n 3 dur.toNat) s →
      s.fenForced = false → s.on CRP_ATTIC_STAT_hold = false → s.on (FEN_SEQ_CTRL_mode n) = false → s.on
      (FEN_SEQ_STAT_tx_held n) = false → seqState n s ≠ 0 → seqState n s ≠ 5 → exec (.seqTx q n dur) s = .next
      (let t := coexAsk n (request q (FEN_SEQ_CMD n) s); if seqReady n t then seqNow n 3 .done (txEnter n dur.toNat t) else seqHeld n 3 (updFen n (fun f => { f with txDur := dur.toNat }) (t.set (FEN_SEQ_STAT_tx_held n) 1)))) ∧
  (∀ (q : Rq) (n : Fin 4) (dur : BitVec 16) (s : State), Sent q (FEN_SEQ_CMD n) FEN_SEQ_CMD_fs (seqWord n 3 dur.toNat) s →
      s.fenForced = true → exec (.seqTx q n dur) s = .next (completed q (FEN_SEQ_CMD n) true .guard (seqNow n 3 .guard (request
      q (FEN_SEQ_CMD n) s)))) ∧
  (∀ (q : Rq) (n : Fin 4) (s : State), Sent q (FEN_SEQ_CMD n) FEN_SEQ_CMD_fs (seqWord n 1 0) s → s.fenForced = false → s.on
      CRP_ATTIC_STAT_hold = true → exec (.seqStandby q n) s = .next (completed q (FEN_SEQ_CMD n) true .state (seqNow n 1 .state
      (request q (FEN_SEQ_CMD n) s)))) ∧
  (∀ (q : Rq) (n : Fin 4) (s : State), Sent q (FEN_SEQ_CMD n) FEN_SEQ_CMD_fs (seqWord n 4 0) s → s.fenForced = false → s.on
      CRP_ATTIC_STAT_hold = false → (seqState n s = 1 ∨ seqState n s = 4 ∨ seqState n s = 5) → s.on (FEN_SEQ_CTRL_spi_go n) =
      false → exec (.seqSettle q n) s = .next (seqHeld n 4 (updFen n (fun f => { f with op := 4, words := false }) (seqEnter n 2
      ((request q (FEN_SEQ_CMD n) s).set (FEN_SEQ_STAT_op_held n) 1))))) ∧
  (∀ (q : Rq) (n : Fin 4) (s : State), Sent q (FEN_SEQ_CMD n) FEN_SEQ_CMD_fs (seqWord n 4 0) s → s.fenForced = false → s.on
      CRP_ATTIC_STAT_hold = false → (seqState n s = 1 ∨ seqState n s = 4 ∨ seqState n s = 5) → s.on (FEN_SEQ_CTRL_spi_go n) =
      true → s.on (FEN_SPI_STAT_busy (s.get (FEN_SEQ_CTRL_spi_m n))) = false → exec (.seqSettle q n) s = .next (seqHeld n 4
      (spiStart (s.get (FEN_SEQ_CTRL_spi_m n)) (updFen n (fun f => { f with op := 4, words := true }) (seqEnter n 2 ((request q
      (FEN_SEQ_CMD n) s).set (FEN_SEQ_STAT_op_held n) 1)))))) ∧
  (∀ (q : Rq) (n : Fin 4) (s : State), Sent q (FEN_SEQ_CMD n) FEN_SEQ_CMD_fs (seqWord n 5 0) s → s.fenForced = false → s.on
      CRP_ATTIC_STAT_hold = false → (seqState n s = 1 ∨ seqState n s = 4) → seqLocked n s = true → calValid n s = true → exec
      (.seqCal q n) s = .next (seqHeld n 5 ((updFen n (fun f => { f with op := 5, cal := {} }) (seqEnter n 3 ((request q
      (FEN_SEQ_CMD n) s).set (FEN_SEQ_STAT_op_held n) 1))).set (FEN_SEQ_CALRES_passes n) 0))) ∧
  (∀ (q : Rq) (n : Fin 4) (s : State), Sent q (FEN_SEQ_CMD n) FEN_SEQ_CMD_fs (seqWord n 5 0) s → s.fenForced = false → s.on
      CRP_ATTIC_STAT_hold = false → (seqState n s = 1 ∨ seqState n s = 4) → seqLocked n s = false → exec (.seqCal q n) s = .next
      (completed q (FEN_SEQ_CMD n) true .notReady (seqNow n 5 .notReady (request q (FEN_SEQ_CMD n) s)))) ∧
  (∀ (q : Rq) (n : Fin 4) (s : State), Sent q (FEN_SEQ_CMD n) FEN_SEQ_CMD_fs (seqWord n 6 0) s → s.fenForced = false → exec
      (.seqOff q n) s = .next (seqNow n 6 .done (seqEnter n 0 (seqAbort n 1 (request q (FEN_SEQ_CMD n) s)))))

/-- SEQ_TX_DUR_EXPIRE leaves a timed TX. FE_LOCK_QUALIFY and FE_LOCK_FALL with the block out of reset move the qualification
and, on a fall, end TX or CAL of the sequencers that follow the input. HELD_TX_ENTER enters a ready TX; TX_HOLD_EXPIRE ends one
that is not ready NOT_READY. SETTLE_DONE with lock ends DONE, SETTLE_TIMEOUT without ends TIMEOUT. CAL_PASS_END with its 2^(10 +
cal_len) samples and the rejection met ends DONE; not met in the first three passes it moves beta; before, it changes nothing. A
burst starts where its symbol run stands in the pattern and ends with the run. At its entry time it is entered by a locked,
granted sequencer, waits for the end of an unfinished one, or is skipped; at the end the next burst is passed into directly,
else the state is left to the return state. TDD_GATE_EDGE opens only at the start of an entered TX burst. Conventions of the
model that a clause may rest on: log 77, 79, 153, 157, 168. (R257, R258, R259, R260, R261, R262, R265, R225.) -/
def Obligations.SequencerEvents : Prop :=
  (∀ (n : Fin 4) (s : State), seqState n s = 5 → s.on (FEN_SEQ_CTRL_mode n) = false → (nth s.fen n).dur ≠ 0 → exec
      (.seqTxDurExpire n) s = .next (seqEnter n (if s.on (FEN_SEQ_CTRL_ret n) then 4 else 1) s)) ∧
  (∀ (n i : Fin 4) (s : State), fenHeld s = false → exec (.feLockQualify n i) s = .next (lockShow n (updFen n (fun f =>
      { f with qual := upd f.qual i fun _ => true }) s))) ∧
  (∀ (i : Fin 4) (s : State), fenHeld s = false → exec (.feLockFall i) s = .next
      (forN 4 (fun n r => let t := lockShow n (updFen n (fun f => { f with qual := upd f.qual i fun _ => false }) r); if t.get (FEN_SEQ_CTRL_lk n) = i then lockLost n t else t) s)) ∧
  (∀ (n : Fin 4) (s : State), s.on (FEN_SEQ_STAT_tx_held n) = true → seqReady n s = true → exec (.heldTxEnter n) s = .next
      (txHeldEnd n .done 0 (txEnter n (nth s.fen n).txDur s))) ∧
  (∀ (n : Fin 4) (s : State), s.on (FEN_SEQ_STAT_tx_held n) = true → seqReady n s = false → exec (.txHoldExpire n) s = .next
      ((txHeldEnd n .notReady 0 s).addSat (FEN_SEQ_CNT_refused n) 1)) ∧
  (∀ (n : Fin 4) (s : State), settling n s = true → seqLocked n s = true → exec (.settleDone n) s = .next (opHeldEnd n .done 0
      (seqEnter n (seqRet n s) s))) ∧
  (∀ (n : Fin 4) (s : State), settling n s = true → seqLocked n s = false → exec (.settleTimeout n) s = .next (opHeldEnd n
      .timeout 0 (seqEnter n 1 s))) ∧
  (∀ (n : Fin 4) (c : CalAcc) (s : State), seqState n s = 3 → (nth s.fen n).cal = c → 2 ^ (10 + s.get (FEN_SEQ_CAL_cal_len n)) ≤
      c.n → irrMet n (cxPow c.t) (cxPow c.i) s = true → exec (.calPassEnd n) s = .next (opHeldEnd n .done 0 (seqEnter n (if s.on
      (FEN_SEQ_CTRL_ret n) then 4 else 1) (irrShow n (cxPow c.t) (cxPow c.i) ((updFen n (fun f => { f with cal := {} })
      s).incMod (FEN_SEQ_CALRES_passes n)))))) ∧
  (∀ (n : Fin 4) (c : CalAcc) (s : State), seqState n s = 3 → (nth s.fen n).cal = c → 2 ^ (10 + s.get (FEN_SEQ_CAL_cal_len n)) ≤
      c.n → irrMet n (cxPow c.t) (cxPow c.i) s = false → s.get (FEN_SEQ_CALRES_passes n) < 3 → exec (.calPassEnd n) s = .next
      (betaStep (s.get (FEN_SEQ_CAL_cal_rx n)) c.t.1 c.t.2 c.i.1 c.i.2 (irrShow n (cxPow c.t) (cxPow c.i) ((updFen n (fun f =>
      { f with cal := {} }) s).incMod (FEN_SEQ_CALRES_passes n))))) ∧
  (∀ (n : Fin 4) (s : State), (seqState n s ≠ 3 ∨ (nth s.fen n).cal.n < 2 ^ (10 + s.get (FEN_SEQ_CAL_cal_len n))) → exec
      (.calPassEnd n) s = .next s) ∧
  (∀ (n sym : Nat) (tx : Bool) (t : Int) (b : Burst) (s : State), burstFrom n sym tx t s = some b → b.tx = tx ∧ b.s = t ∧
      (let v := patAt (seqCh n s) (t - s.geti (FEN_SEQ_OFS_t_ofs n)) s; let d := burstDir n tx v
      following n v = true ∧ runStart n sym d v = true ∧ chPos (seqCh n s) (t - s.geti (FEN_SEQ_OFS_t_ofs n)) v = symTime n sym
      v ∧ b.e = t + (symTime n (sym + runLen n sym d v) v - symTime n sym v : Nat))) ∧
  (∀ (n : Fin 4) (sym : Nat) (b : Burst) (s : State), burstFrom n sym true (s.bandTime + s.get (FEN_SEQ_TIM_tx_lead n) : Nat) s
      = some b → seqLocked n s = true → seqGranted n s = true → burstState n s = true → (nth s.fen n).burst = none → (nth s.fen
      n).next = [] → exec (.burstTxEnter n sym) s = .next (updFen n (fun f => { f with burst := some b, dur := 0 }) (seqEnter n
      5 s))) ∧
  (∀ (n : Fin 4) (sym : Nat) (b c : Burst) (s : State), burstFrom n sym true (s.bandTime + s.get (FEN_SEQ_TIM_tx_lead n) : Nat)
      s = some b → seqLocked n s = true → seqGranted n s = true → burstState n s = true → (nth s.fen n).burst = some c →
      s.bandTime < c.e → exec (.burstTxEnter n sym) s = .next (updFen n (fun f => { f with next := (nth s.fen n).next ++ [b] })
      s)) ∧
  (∀ (n : Fin 4) (sym : Nat) (b : Burst) (s : State), burstFrom n sym true (s.bandTime + s.get (FEN_SEQ_TIM_tx_lead n) : Nat) s
      = some b → (seqLocked n s = false ∨ seqGranted n s = false ∨ burstState n s = false) → exec (.burstTxEnter n sym) s =
      .next (seqSkip n b.s s)) ∧
  (∀ (n : Fin 4) (sym : Nat) (b : Burst) (s : State), burstFrom n sym false (s.bandTime + s.get (FEN_SEQ_TIM2_rx_lead n) : Nat)
      s = some b → burstState n s = true → (nth s.fen n).burst = none → (nth s.fen n).next = [] → exec (.burstRxEnter n sym) s =
      .next (updFen n (fun f => { f with burst := some b }) (seqEnter n 4 s))) ∧
  (∀ (n : Fin 4) (c : Burst) (s : State), (nth s.fen n).burst = some c → s.bandTime < c.e → exec (.burstLeave n) s = .next s) ∧
  (∀ (n : Fin 4) (c : Burst) (s : State), (nth s.fen n).burst = some c → (c.e + (if c.tx then s.get (FEN_SEQ_TIM_tx_lag n) else
      0 : Nat) ≤ s.bandTime) → (nth s.fen n).next = [] → exec (.burstLeave n) s = .next (seqEnter n (if s.on (FEN_SEQ_CTRL_ret
      n) then 4 else 1) s)) ∧
  (∀ (n : Fin 4) (b c : Burst) (l : List Burst) (s : State), (nth s.fen n).burst = some c → c.e ≤ s.bandTime → (nth s.fen
      n).next = b :: l → following n (patAt (seqCh n s) (b.s - s.geti (FEN_SEQ_OFS_t_ofs n)) s) = true → b.tx = true → seqLocked
      n s = true → seqGranted n s = true → exec (.burstLeave n) s = .next (updFen n (fun f =>
      { f with burst := some b, next := l, dur := 0 }) (seqEnter n 5 s))) ∧
  (∀ (k : Fin 128) (b : Burst) (s : State), s.on (RPT_PATH_CFG_duplex k) = true → rptHeld s = false → (nth s.fen (s.get
      (RPT_PATH_CFG_seq k))).burst = some b → b.tx = true → b.s = s.bandTime → exec (.tddGateEdge k true) s = .next (updRpt k
      (fun p => { p with gate := true, gateAt := s.bclk, gateEnd := s.bclk + (b.e - b.s).toNat }) s)) ∧
  (∀ (k : Fin 128) (s : State), (¬∃ b, (nth s.fen (s.get (RPT_PATH_CFG_seq k))).burst = some b ∧ b.tx = true ∧ b.s = s.bandTime)
      → exec (.tddGateEdge k true) s = .next s) ∧
  (∀ (k : Fin 128) (s : State), s.on (RPT_PATH_CFG_duplex k) = true → rptHeld s = false → exec (.tddGateEdge k false) s = .next
      (updRpt k (fun p => { p with gate := false }) s))

/-- Where the write reaches its register: SPI_GO on an idle master is HELD and drives its words most significant bit first, on a
busy one REFUSED_STATE; SPI_TRANSFER_END ends a busy transfer. RFC_OWN_WRITE that moves no pin of a running sequencer is stored
and shown; COEX_CTRL_WRITE that moves nothing of a running sequencer is stored. COEX_REQ_ASSERT asks for the medium,
COEX_GRANT_ASSERT, _DEASSERT, _GLITCH and _STUCK with the wires in use are counted. FEN_COEX_CNT and FEN_SEQ_CNT return and
clear on a read. Conventions of the model that a clause may rest on: log 78, 79, 157. (R254, R266, R267, R268, R269, R270.) -/
def Obligations.FrontEndWires : Prop :=
  (∀ (q : Rq) (m : Fin 4) (s : State), Sent q (FEN_SPI_CMD m) FEN_SPI_CMD_fs 1 s → s.on (FEN_SPI_STAT_busy m) = false → exec
      (.spiGo q m) s = .next
      (((({ request q (FEN_SPI_CMD m) s with spi := upd s.spi m fun _ => { wave := spiWave m s, start := s.bclk } } : State).set
      (FEN_SPI_STAT_busy m) 1).set (FEN_SPI_STAT_outcome m) Code.held.n).ret .held)) ∧
  (∀ (m : Fin 4) (i : Nat) (s : State), i ≤ s.get (FEN_SPI_CFG_bits m) → (spiWave m s)[2 * i]? = some
      ⟨false, false, some (bit (s.rd (FEN_SPI_DATA m 0)) (s.get (FEN_SPI_CFG_bits m) - i))⟩ ∧
      (spiWave m s)[2 * i + 1]? = some ⟨false, true, some (bit (s.rd (FEN_SPI_DATA m 0)) (s.get (FEN_SPI_CFG_bits m) - i))⟩) ∧
  (∀ (q : Rq) (m : Fin 4) (s : State), Sent q (FEN_SPI_CMD m) FEN_SPI_CMD_fs 1 s → s.on (FEN_SPI_STAT_busy m) = true → exec
      (.spiGo q m) s = .next (completed q (FEN_SPI_CMD m) true .state ((request q (FEN_SPI_CMD m) s).ret .state))) ∧
  (∀ (m : Fin 4) (rx : List Word) (s : State), s.on (FEN_SPI_STAT_busy m) = true → exec (.spiTransferEnd m rx) s = .next (fenEvt
      (16 + m) (forN 4 (fun n t => if t.get (FEN_SEQ_CTRL_spi_m n) = m then updFen n (fun f => { f with words := false }) t else
      t) (((forN (s.get (FEN_SPI_CFG_count m) + 1) (fun j t => t.wr (FEN_SPI_DATA m j) (BitVec.ofNat 32 ((nth rx j).toNat % 2 ^
      (s.get (FEN_SPI_CFG_bits m) + 1)))) s).set (FEN_SPI_STAT_busy m) 0).set (FEN_SPI_STAT_outcome m) Code.done.n)))) ∧
  (∀ (q : Rq) (high : Bool) (w : Word) (s : State), (Sent q (if high then FEN_RFC_OWN_H else FEN_RFC_OWN_L) FEN_RFC_OWN_L_fs w
      s) → (∀ i : Fin 16, fieldOf (s.rd (if high then FEN_RFC_OWN_H else FEN_RFC_OWN_L)) (2 * i) 2 = fieldOf w (2 * i) 2 ∨
      (seqState (fieldOf (s.rd (if high then FEN_RFC_OWN_H else FEN_RFC_OWN_L)) (2 * i) 2) s = 0 ∧ seqState (fieldOf w (2 * i)
      2) s = 0)) → exec (.rfcOwnWrite q high w) s = .next (rfcShow ((wrote q (if high then FEN_RFC_OWN_H else FEN_RFC_OWN_L)
      FEN_RFC_OWN_L_fs w s).ret .done))) ∧
  (∀ (q : Rq) (w : Word) (s : State), Sent q FEN_COEX_CTRL FEN_COEX_CTRL_fs w s → wf w FEN_COEX_CTRL_coex_en = 1 → ((s.chg w
      FEN_COEX_CTRL_coex_en = false ∧ s.chg w FEN_COEX_CTRL_seq = false) ∨ (seqState (s.get FEN_COEX_CTRL_seq) s = 0 ∧ seqState
      (wf w FEN_COEX_CTRL_seq) s = 0)) → exec (.coexCtrlWrite q w) s = .next ((wrote q FEN_COEX_CTRL FEN_COEX_CTRL_fs w s).ret
      .done)) ∧
  (∀ (n : Fin 4) (s : State), coexOn s = true → txComes n s = true → exec (.coexReqAssert n) s = .next (coexAsk n s)) ∧
  (∀ (s : State), coexOn s = true → s.on FEN_COEX_STAT_grant = false → exec .coexGrantAssert s = .next ((grantChg 1 s).addSat
      FEN_COEX_CNT_grants 1)) ∧
  (∀ (s : State), coexOn s = true → s.on FEN_COEX_STAT_grant = true → seqState (s.get FEN_COEX_CTRL_seq) s ≠ 5 → exec
      .coexGrantDeassert s = .next (grantChg 0 s)) ∧
  (∀ (s : State), coexOn s = true → s.on FEN_COEX_STAT_grant = true → seqState (s.get FEN_COEX_CTRL_seq) s = 5 → s.on
      FEN_COEX_CTRL_coex_mode = false → exec .coexGrantDeassert s = .next (fenEvt 20 ((grantChg 0 s).addSat FEN_COEX_CNT_lost
      1))) ∧
  (∀ (s : State), coexOn s = true → exec .coexGrantGlitch s = .next (s.addSat FEN_COEX_CNT_glitches 1)) ∧
  (∀ (s : State), coexOn s = true → s.on FEN_COEX_STAT_grant = true → s.on FEN_COEX_STAT_stuck_hi = false → s.coexLo = true →
      exec .coexGrantStuck s = .next (fenEvt 21 ((s.set FEN_COEX_STAT_stuck_hi 1).addSat FEN_COEX_CNT_stuck 1))) ∧
  (∀ (q : Rq) (s : State), Reads q FEN_COEX_CNT s → exec (.fenCoexCntRead q) s = .next (((request q FEN_COEX_CNT s).retData
      [s.rd FEN_COEX_CNT]).wr FEN_COEX_CNT 0)) ∧
  (∀ (q : Rq) (n : Fin 4) (s : State), Reads q (FEN_SEQ_CNT n) s → exec (.fenSeqCntRead q n) s = .next (((request q (FEN_SEQ_CNT
      n) s).retData [s.rd (FEN_SEQ_CNT n)]).wr (FEN_SEQ_CNT n) 0))

/-- For every core that can issue and whose fetch ends DONE: each register and immediate operation writes its result to rd and
goes on, division also sets its flags; a shift by an immediate with an unused bit set is illegal; a branch goes to its target or
on; JAL and JALR go to their target and leave pc + 4 in rd; a misaligned JALR target traps. Conventions of the model that a
clause may rest on: log 122. (R274, R275, R281, R282.) -/
def Obligations.IntegerInstructions : Prop :=
  (∀ (c : Fin 14) (rd r1 r2 : Fin 32) (s : State), Issues c s → exec (.add c rd r1 r2) s = .next (result c rd (opnd c r1 s +
      opnd c r2 s) s) ∧
      exec (.sub c rd r1 r2) s = .next (result c rd (opnd c r1 s - opnd c r2 s) s) ∧
      exec (.and c rd r1 r2) s = .next (result c rd (opnd c r1 s &&& opnd c r2 s) s) ∧
      exec (.or c rd r1 r2) s = .next (result c rd (opnd c r1 s ||| opnd c r2 s) s) ∧
      exec (.xor c rd r1 r2) s = .next (result c rd (opnd c r1 s ^^^ opnd c r2 s) s) ∧
      exec (.nor c rd r1 r2) s = .next (result c rd (~~~(opnd c r1 s ||| opnd c r2 s)) s) ∧
      exec (.sll c rd r1 r2) s = .next (result c rd (opnd c r1 s <<< ((opnd c r2 s).toNat % 32)) s) ∧
      exec (.srl c rd r1 r2) s = .next (result c rd (opnd c r1 s >>> ((opnd c r2 s).toNat % 32)) s) ∧
      exec (.sra c rd r1 r2) s = .next (result c rd ((opnd c r1 s).sshiftRight ((opnd c r2 s).toNat % 32)) s) ∧
      exec (.slt c rd r1 r2) s = .next (result c rd (if (opnd c r1 s).toInt < (opnd c r2 s).toInt then 1 else 0) s) ∧
      exec (.sltu c rd r1 r2) s = .next (result c rd (if (opnd c r1 s).toNat < (opnd c r2 s).toNat then 1 else 0) s) ∧
      exec (.mul c rd r1 r2) s = .next (result c rd (opnd c r1 s * opnd c r2 s) s) ∧
      exec (.mulh c rd r1 r2) s = .next (result c rd (BitVec.ofInt 32 ((opnd c r1 s).toInt * (opnd c r2 s).toInt / 2 ^ 32)) s) ∧
      exec (.mulhu c rd r1 r2) s = .next (result c rd (BitVec.ofNat 32 ((opnd c r1 s).toNat * (opnd c r2 s).toNat / 2 ^ 32)) s))
      ∧
  (∀ (c : Fin 14) (rd r1 r2 : Fin 32) (s : State), Issues c s → opnd c r2 s ≠ 0 → (¬(opnd c r1 s = 0x80000000 ∧ opnd c r2 s =
      0xFFFFFFFF)) → exec (.div c rd r1 r2) s = .next (result c rd (BitVec.ofInt 32 ((opnd c r1 s).toInt.tdiv (opnd c r2
      s).toInt)) s) ∧
      exec (.rem c rd r1 r2) s = .next (result c rd (BitVec.ofInt 32 ((opnd c r1 s).toInt.tmod (opnd c r2 s).toInt)) s) ∧
      exec (.divu c rd r1 r2) s = .next (result c rd (BitVec.ofNat 32 ((opnd c r1 s).toNat / (opnd c r2 s).toNat)) s) ∧
      exec (.remu c rd r1 r2) s = .next (result c rd (BitVec.ofNat 32 ((opnd c r1 s).toNat % (opnd c r2 s).toNat)) s)) ∧
  (∀ (c : Fin 14) (rd r1 r2 : Fin 32) (s : State), Issues c s → opnd c r2 s = 0 → exec (.div c rd r1 r2) s = .next (alu c rd (if
      0 ≤ (opnd c r1 s).toInt then 0x7FFFFFFF else 0x80000000) (setDz c (fetched c s))) ∧
      exec (.divu c rd r1 r2) s = .next (alu c rd 0xFFFFFFFF (setDz c (fetched c s))) ∧
      exec (.rem c rd r1 r2) s = .next (alu c rd 0 (setDz c (fetched c s))) ∧
      exec (.remu c rd r1 r2) s = .next (alu c rd 0 (setDz c (fetched c s)))) ∧
  (∀ (c : Fin 14) (rd r1 r2 : Fin 32) (s : State), Issues c s → (opnd c r1 s = 0x80000000 ∧ opnd c r2 s = 0xFFFFFFFF) → exec
      (.div c rd r1 r2) s = .next (alu c rd 0x7FFFFFFF (setSat c (fetched c s)))) ∧
  (∀ (c : Fin 14) (rd r1 : Fin 32) (i : BitVec 16) (s : State), Issues c s → exec (.addi c rd r1 i) s = .next (result c rd (opnd
      c r1 s + i.signExtend 32) s) ∧
      exec (.andi c rd r1 i) s = .next (result c rd (opnd c r1 s &&& i.zeroExtend 32) s) ∧
      exec (.ori c rd r1 i) s = .next (result c rd (opnd c r1 s ||| i.zeroExtend 32) s) ∧
      exec (.xori c rd r1 i) s = .next (result c rd (opnd c r1 s ^^^ i.zeroExtend 32) s) ∧
      exec (.slti c rd r1 i) s = .next (result c rd (if (opnd c r1 s).toInt < i.toInt then 1 else 0) s) ∧
      exec (.sltiu c rd r1 i) s = .next (result c rd (if (opnd c r1 s).toNat < (i.signExtend 32).toNat then 1 else 0) s)) ∧
  (∀ (c : Fin 14) (rd r1 : Fin 32) (i : BitVec 16) (s : State), Issues c s → i.toNat < 32 → exec (.slli c rd r1 i) s = .next
      (result c rd (opnd c r1 s <<< i.toNat) s) ∧
      exec (.srli c rd r1 i) s = .next (result c rd (opnd c r1 s >>> i.toNat) s) ∧
      exec (.srai c rd r1 i) s = .next (result c rd ((opnd c r1 s).sshiftRight i.toNat) s)) ∧
  (∀ (c : Fin 14) (rd r1 : Fin 32) (i : BitVec 16) (s : State), Issues c s → 32 ≤ i.toNat → exec (.slli c rd r1 i) s = .next
      (illegal c (wordI 0x0A rd r1 i.toNat) (fetched c s))) ∧
  (∀ (c : Fin 14) (rd : Fin 32) (i : BitVec 21) (s : State), Issues c s → exec (.lui c rd i) s = .next (result c rd
      (BitVec.ofNat 32 (i.toNat * 2048)) s) ∧
      exec (.auipc c rd i) s = .next (result c rd (((fetched c s).cpu c).pc + BitVec.ofNat 32 (i.toNat * 2048)) s) ∧
      exec (.jal c rd i) s = .next (jump c (((fetched c s).cpu c).pc + 4 * i.signExtend 32) (setW c rd (((fetched c s).cpu c).pc
      + 4) (fetched c s)))) ∧
  (∀ (c : Fin 14) (rd r1 : Fin 32) (i : BitVec 16) (s : State), Issues c s → (opnd c r1 s + i.signExtend 32).toNat % 4 = 0 →
      exec (.jalr c rd r1 i) s = .next (jump c (opnd c r1 s + i.signExtend 32) (setW c rd (((fetched c s).cpu c).pc + 4)
      (fetched c s)))) ∧
  (∀ (c : Fin 14) (rd r1 : Fin 32) (i : BitVec 16) (s : State), Issues c s → (opnd c r1 s + i.signExtend 32).toNat % 4 ≠ 0 →
      exec (.jalr c rd r1 i) s = .next (trap c 2 0 (opnd c r1 s + i.signExtend 32) (fetched c s))) ∧
  (∀ (c : Fin 14) (r1 r2 : Fin 32) (off : BitVec 16) (s : State), Issues c s → exec (.beq c r1 r2 off) s = .next (if opnd c r1 s
      = opnd c r2 s then jump c (((fetched c s).cpu c).pc + 4 * off.signExtend 32) (fetched c s) else goOn c (fetched c s)) ∧
      exec (.bne c r1 r2 off) s = .next (if opnd c r1 s ≠ opnd c r2 s then jump c (((fetched c s).cpu c).pc + 4 * off.signExtend
      32) (fetched c s) else goOn c (fetched c s)) ∧
      exec (.blt c r1 r2 off) s = .next (if (opnd c r1 s).toInt < (opnd c r2 s).toInt then jump c (((fetched c s).cpu c).pc + 4
      * off.signExtend 32) (fetched c s) else goOn c (fetched c s)) ∧
      exec (.bge c r1 r2 off) s = .next (if (opnd c r2 s).toInt ≤ (opnd c r1 s).toInt then jump c (((fetched c s).cpu c).pc + 4
      * off.signExtend 32) (fetched c s) else goOn c (fetched c s)) ∧
      exec (.bltu c r1 r2 off) s = .next (if (opnd c r1 s).toNat < (opnd c r2 s).toNat then jump c (((fetched c s).cpu c).pc + 4
      * off.signExtend 32) (fetched c s) else goOn c (fetched c s)) ∧
      exec (.bgeu c r1 r2 off) s = .next (if (opnd c r2 s).toNat ≤ (opnd c r1 s).toNat then jump c (((fetched c s).cpu c).pc + 4
      * off.signExtend 32) (fetched c s) else goOn c (fetched c s)))

/-- For a core that can issue and whose fetch ends DONE, at an allowed and aligned address: a load whose bus read ends DONE
writes the extended value to rt and goes on; a store posts the low bytes of rt and goes on; XCHG that reaches its word and whose
write is posted writes the old word to rt. An access of level U outside what R279 allows traps PRIV, a misaligned one
MISALIGN_DATA; a store or exchange with the unused bit set is illegal. A load whose read fails traps; XCHG outside its reach
traps with ERR_RANGE. The cellar's core reads and writes its own data memory at its alias. Conventions of the model that a
clause may rest on: log 122, 123, 126, 128, 158, 173. (R279, R281, R283, R284, R285, R286.) -/
def Obligations.LoadsAndStores : Prop :=
  (∀ (c : Fin 14) (rt rb : Fin 32) (off : BitVec 13) (s : State), Issues c s → MayAccess c 1 (eaOf c rb off s) (fetched c s) →
      (loadRead c 1 (eaOf c rb off s) (fetched c s)).2.1 = .done → exec (.lb c rt rb off) s = .next (goOn c (setW c rt
      (BitVec.ofInt 32 (sgn 8 (leVal (loadRead c 1 (eaOf c rb off s) (fetched c s)).2.2))) (loadTaken c 1 (eaOf c rb off s)
      (fetched c s)))) ∧
      exec (.lbu c rt rb off) s = .next (goOn c (setW c rt (BitVec.ofNat 32 (leVal (loadRead c 1 (eaOf c rb off s) (fetched c
      s)).2.2)) (loadTaken c 1 (eaOf c rb off s) (fetched c s))))) ∧
  (∀ (c : Fin 14) (rt rb : Fin 32) (off : BitVec 13) (s : State), Issues c s → MayAccess c 2 (eaOf c rb off s) (fetched c s) →
      (loadRead c 2 (eaOf c rb off s) (fetched c s)).2.1 = .done → exec (.lh c rt rb off) s = .next (goOn c (setW c rt
      (BitVec.ofInt 32 (sgn 16 (leVal (loadRead c 2 (eaOf c rb off s) (fetched c s)).2.2))) (loadTaken c 2 (eaOf c rb off s)
      (fetched c s)))) ∧
      exec (.lhu c rt rb off) s = .next (goOn c (setW c rt (BitVec.ofNat 32 (leVal (loadRead c 2 (eaOf c rb off s) (fetched c
      s)).2.2)) (loadTaken c 2 (eaOf c rb off s) (fetched c s))))) ∧
  (∀ (c : Fin 14) (rt rb : Fin 32) (off : BitVec 13) (s : State), Issues c s → MayAccess c 4 (eaOf c rb off s) (fetched c s) →
      (loadRead c 4 (eaOf c rb off s) (fetched c s)).2.1 = .done → exec (.lw c rt rb off) s = .next (goOn c (setW c rt
      (BitVec.ofNat 32 (leVal (loadRead c 4 (eaOf c rb off s) (fetched c s)).2.2)) (loadTaken c 4 (eaOf c rb off s) (fetched c
      s))))) ∧
  (∀ (c : Fin 14) (rt rb : Fin 32) (off : BitVec 13) (s : State), Issues c s → MayAccess c 4 (eaOf c rb off s) (fetched c s) →
      (loadRead c 4 (eaOf c rb off s) (fetched c s)).2.1 ≠ .done → exec (.lw c rt rb off) s = .next (loadTrap c (loadRead c 4
      (eaOf c rb off s) (fetched c s)).2.1 (eaOf c rb off s) (loadRead c 4 (eaOf c rb off s) (fetched c s)).1)) ∧
  (∀ (a n : Nat) (s : State), (0x7F800000 ≤ a ∧ a + n ≤ 0x7F810000) → coreRead 13 a n s = (s, .done, (List.range n).map fun i =>
      memFind s.cel.sram (a + i - 0x7F800000))) ∧
  (∀ (a : Nat) (b : List Byte) (s : State), (0x7F800000 ≤ a ∧ a + b.length ≤ 0x7F810000) → coreWriteTo 13 a b s = (updCel (fun c
      => { c with sram := b.zipIdx.foldl (fun m x => memPut m (a + x.2 - 0x7F800000) x.1) c.sram }) s, some .done)) ∧
  (∀ (c : Fin 14) (rt rb : Fin 32) (off : BitVec 13) (s : State), Issues c s → dataAllowed c (eaOf c rb off s).toNat 4 (fetched
      c s) = true → (eaOf c rb off s).toNat % 4 ≠ 0 → exec (.lw c rt rb off) s = .next (trap c 3 0 (eaOf c rb off s) (fetched c
      s)) ∧
      exec (.sw c rt rb false off) s = .next (trap c 3 0 (eaOf c rb off s) (fetched c s)) ∧
      exec (.xchg c rt rb false off) s = .next (trap c 3 0 (eaOf c rb off s) (fetched c s))) ∧
  (∀ (c : Fin 14) (rt rb : Fin 32) (off : BitVec 13) (s : State), Issues c s → dataAllowed c (eaOf c rb off s).toNat 2 (fetched
      c s) = true → (eaOf c rb off s).toNat % 2 ≠ 0 → exec (.lh c rt rb off) s = .next (trap c 3 0 (eaOf c rb off s) (fetched c
      s)) ∧
      exec (.lhu c rt rb off) s = .next (trap c 3 0 (eaOf c rb off s) (fetched c s)) ∧
      exec (.sh c rt rb false off) s = .next (trap c 3 0 (eaOf c rb off s) (fetched c s))) ∧
  (∀ (c : Fin 14) (rt rb : Fin 32) (off : BitVec 13) (s : State), Issues c s → dataAllowed c (eaOf c rb off s).toNat 4 (fetched
      c s) = false → exec (.lw c rt rb off) s = .next (trap c 1 0 (eaOf c rb off s) (fetched c s)) ∧
      exec (.sw c rt rb false off) s = .next (trap c 1 0 (eaOf c rb off s) (fetched c s))) ∧
  (∀ (c : Fin 14) (rt rb : Fin 32) (off : BitVec 13) (s : State), Issues c s → MayAccess c 1 (eaOf c rb off s) (fetched c s) →
      exec (.sb c rt rb false off) s = .next (goOn c (dataWrite c (eaOf c rb off s) (leBytes 1 (opnd c rt s).toNat) (fetched c
      s)))) ∧
  (∀ (c : Fin 14) (rt rb : Fin 32) (off : BitVec 13) (s : State), Issues c s → MayAccess c 2 (eaOf c rb off s) (fetched c s) →
      exec (.sh c rt rb false off) s = .next (goOn c (dataWrite c (eaOf c rb off s) (leBytes 2 (opnd c rt s).toNat) (fetched c
      s)))) ∧
  (∀ (c : Fin 14) (rt rb : Fin 32) (off : BitVec 13) (s : State), Issues c s → MayAccess c 4 (eaOf c rb off s) (fetched c s) →
      exec (.sw c rt rb false off) s = .next (goOn c (dataWrite c (eaOf c rb off s) (leBytes 4 (opnd c rt s).toNat) (fetched c
      s)))) ∧
  (∀ (c : Fin 14) (rt rb : Fin 32) (off : BitVec 13) (s : State), Issues c s → exec (.sb c rt rb true off) s = .next (illegal c
      (wordM 0x11 rt rb 0 1 off.toNat) (fetched c s)) ∧
      exec (.sh c rt rb true off) s = .next (illegal c (wordM 0x11 rt rb 1 1 off.toNat) (fetched c s)) ∧
      exec (.sw c rt rb true off) s = .next (illegal c (wordM 0x11 rt rb 2 1 off.toNat) (fetched c s)) ∧
      exec (.xchg c rt rb true off) s = .next (illegal c (wordM 0x12 rt rb 2 1 off.toNat) (fetched c s))) ∧
  (∀ (c : Fin 14) (rt rb : Fin 32) (off : BitVec 13) (s : State), Issues c s → MayAccess c 4 (eaOf c rb off s) (fetched c s) →
      xchgReach c (eaOf c rb off s).toNat = true → (loadRead c 4 (eaOf c rb off s) (fetched c s)).2.1 = .done → (xchgWrite c rt
      (eaOf c rb off s) (fetched c s)).2 = none → exec (.xchg c rt rb false off) s = .next (goOn c (setW c rt (BitVec.ofNat 32
      (leVal (loadRead c 4 (eaOf c rb off s) (fetched c s)).2.2)) (xchgPosted c rt (eaOf c rb off s) (fetched c s))))) ∧
  (∀ (c : Fin 14) (rt rb : Fin 32) (off : BitVec 13) (s : State), Issues c s → MayAccess c 4 (eaOf c rb off s) (fetched c s) →
      xchgReach c (eaOf c rb off s).toNat = true → (loadRead c 4 (eaOf c rb off s) (fetched c s)).2.1 = .done → (xchgWrite c rt
      (eaOf c rb off s) (fetched c s)).2 = some .done → exec (.xchg c rt rb false off) s = .next (goOn c (setW c rt
      (BitVec.ofNat 32 (leVal (loadRead c 4 (eaOf c rb off s) (fetched c s)).2.2)) (xchgWrite c rt (eaOf c rb off s) (fetched c
      s)).1))) ∧
  (∀ (c : Fin 14) (rt rb : Fin 32) (off : BitVec 13) (s : State), Issues c s → MayAccess c 4 (eaOf c rb off s) (fetched c s) →
      xchgReach c (eaOf c rb off s).toNat = false → exec (.xchg c rt rb false off) s = .next (loadTrap c .range (eaOf c rb off
      s) (fetched c s)))

/-- For a lane core that can issue and whose fetch ends DONE, with vector registers below 16 and unused fields 0: each
instruction computes lane by lane, with saturation where R287 gives it, writes its result and goes on. On another core, with a
vector register above 15 or an unused field set the instruction is illegal; VCLAMP by a negative bound is illegal. VLD and VST
move 32 bytes at an allowed, aligned address. For a radio core that can issue and whose fetch ends DONE, with the unused fields
0: each complex instruction computes its two halves with R288's rounding and limits, writes the sample to wd, sets sat where a
limit changed a half, and goes on. On another core or with an unused field set the instruction is illegal. Conventions of the
model that a clause may rest on: log 121, 122. (R277, R287, R288.) -/
def Obligations.VectorInstructions : Prop :=
  (∀ (c : Fin 14) (d a b : Fin 32) (s : State), Issues c s → c.val < 8 → d.val < 16 → a.val < 16 → b.val < 16 → exec (.vadd c d
      a b 0) s = .next (vecSat c d (fun i => lane (getV c a (fetched c s)) i + lane (getV c b (fetched c s)) i) (fetched c s)) ∧
      exec (.vsub c d a b 0) s = .next (vecSat c d (fun i => lane (getV c a (fetched c s)) i - lane (getV c b (fetched c s)) i)
      (fetched c s)) ∧
      exec (.vmul c d a b 0) s = .next (vecPlain c d (fun i => lane (getV c a (fetched c s)) i * lane (getV c b (fetched c s))
      i) (fetched c s)) ∧
      exec (.vmulq c d a b 0) s = .next (vecSat c d (fun i => divEven (lane (getV c a (fetched c s)) i * lane (getV c b (fetched
      c s)) i) (2 ^ 31)) (fetched c s)) ∧
      exec (.vmac c d a b 0) s = .next (vecSat c d (fun i => lane (getV c d (fetched c s)) i + divEven (lane (getV c a (fetched
      c s)) i * lane (getV c b (fetched c s)) i) (2 ^ 31)) (fetched c s)) ∧
      exec (.vmin c d a b 0) s = .next (vecPlain c d (fun i => min (lane (getV c a (fetched c s)) i) (lane (getV c b (fetched c
      s)) i)) (fetched c s)) ∧
      exec (.vmax c d a b 0) s = .next (vecPlain c d (fun i => max (lane (getV c a (fetched c s)) i) (lane (getV c b (fetched c
      s)) i)) (fetched c s)) ∧
      exec (.vabs c d a 0 0) s = .next (vecSat c d (fun i => ((lane (getV c a (fetched c s)) i).natAbs : Int)) (fetched c s))) ∧
  (∀ (c : Fin 14) (d a n : Fin 32) (s : State), Issues c s → c.val < 8 → d.val < 16 → a.val < 16 → exec (.vshr c d a n 0) s =
      .next (vecPlain c d (fun i => divEven (lane (getV c a (fetched c s)) i) (2 ^ n.val)) (fetched c s)) ∧
      exec (.vshl c d a n 0) s = .next (vecSat c d (fun i => lane (getV c a (fetched c s)) i * 2 ^ n.val) (fetched c s))) ∧
  (∀ (c : Fin 14) (d a : Fin 32) (sel : Fin 8) (s : State), Issues c s → c.val < 8 → d.val < 16 → exec (.vsplat c d a 0 0) s =
      .next (vecPlain c d (fun _ => (getW c a (fetched c s)).toInt) (fetched c s)) ∧
      exec (.vins c d a 0 sel) s = .next (vecOn c (setV c d (upd (getV c d (fetched c s)) sel fun _ => getW c a (fetched c s))
      (fetched c s)))) ∧
  (∀ (c : Fin 14) (d a : Fin 32) (sel : Fin 8) (s : State), Issues c s → c.val < 8 → a.val < 16 → exec (.vext c d a 0 sel) s =
      .next (extTo c d (nth (getV c a (fetched c s)) sel) (fetched c s)) ∧
      exec (.vsum c d a 0 0) s = .next (extTo c d (sat32 ((List.range 8).foldl (fun n i => n + lane (getV c a (fetched c s)) i)
      0)).1 (if (sat32 ((List.range 8).foldl (fun n i => n + lane (getV c a (fetched c s)) i) 0)).2 then setSat c (fetched c s)
      else fetched c s))) ∧
  (∀ (c : Fin 14) (d a b : Fin 32) (s : State), Issues c s → c.val < 8 → d.val < 16 → a.val < 16 → 0 ≤ (getW c b (fetched c
      s)).toInt → exec (.vclamp c d a b 0) s = .next (vecPlain c d (fun i => min (max (lane (getV c a (fetched c s)) i) (-(getW
      c b (fetched c s)).toInt)) (getW c b (fetched c s)).toInt) (fetched c s))) ∧
  (∀ (c : Fin 14) (d a b : Fin 32) (s : State), Issues c s → (8 ≤ c.val ∨ 16 ≤ d.val ∨ 16 ≤ a.val ∨ (getW c b (fetched c
      s)).toInt < 0) → exec (.vclamp c d a b 0) s = .next (illegal c (wordX 0x30 d a b 0x0E 0) (fetched c s))) ∧
  (∀ (c : Fin 14) (d a b : Fin 32) (sel : Fin 8) (s : State), Issues c s → (8 ≤ c.val ∨ 16 ≤ d.val ∨ 16 ≤ a.val ∨ 16 ≤ b.val ∨
      sel ≠ 0) → exec (.vadd c d a b sel) s = .next (illegal c (wordX 0x30 d a b 0x00 sel) (fetched c s))) ∧
  (∀ (c : Fin 14) (d a : Fin 32) (s : State), Issues c s → c.val < 8 → d.val < 16 → MayAccess c 32 (getW c a (fetched c s))
      (fetched c s) → (loadRead c 32 (getW c a (fetched c s)) (fetched c s)).2.1 = .done → exec (.vld c d a 0 0) s = .next
      (vecOn c (setV c d ((List.range 8).map fun i => wordAt (loadRead c 32 (getW c a (fetched c s)) (fetched c s)).2.2 (4 * i))
      (loadTaken c 32 (getW c a (fetched c s)) (fetched c s))))) ∧
  (∀ (c : Fin 14) (d a : Fin 32) (s : State), Issues c s → c.val < 8 → d.val < 16 → MayAccess c 32 (getW c a (fetched c s))
      (fetched c s) → exec (.vst c d a 0 0) s = .next (vecOn c (dataWrite c (getW c a (fetched c s)) ((getV c d (fetched c
      s)).flatMap fun w => leBytes 4 w.toNat) (fetched c s)))) ∧
  (∀ (c : Fin 14) (d a b : Fin 32) (sel : Fin 8) (s : State), Issues c s → 8 ≤ c.val → c.val < 12 → exec (.cadd c d a b sel) s =
      .next (sampleTo c d (sample (reI (getW c a (fetched c s)) + reI (getW c b (fetched c s))) (imQ (getW c a (fetched c s)) +
      imQ (getW c b (fetched c s)))) (fetched c s)) ∧
      exec (.csub c d a b sel) s = .next (sampleTo c d (sample (reI (getW c a (fetched c s)) - reI (getW c b (fetched c s)))
      (imQ (getW c a (fetched c s)) - imQ (getW c b (fetched c s)))) (fetched c s)) ∧
      exec (.cmul c d a b sel) s = .next (sampleTo c d (sample (prodI false (getW c a (fetched c s)) (getW c b (fetched c s)))
      (prodQ false (getW c a (fetched c s)) (getW c b (fetched c s)))) (fetched c s)) ∧
      exec (.cmulj c d a b sel) s = .next (sampleTo c d (sample (prodI true (getW c a (fetched c s)) (getW c b (fetched c s)))
      (prodQ true (getW c a (fetched c s)) (getW c b (fetched c s)))) (fetched c s)) ∧
      exec (.cmac c d a b sel) s = .next (sampleTo c d (sample (reI (getW c d (fetched c s)) + prodI false (getW c a (fetched c
      s)) (getW c b (fetched c s))) (imQ (getW c d (fetched c s)) + prodQ false (getW c a (fetched c s)) (getW c b (fetched c
      s)))) (fetched c s)) ∧
      exec (.cscale c d a b sel) s = .next (sampleTo c d (sample (divEven (reI (getW c a (fetched c s)) * reI (getW c b (fetched
      c s))) (2 ^ 15)) (divEven (imQ (getW c a (fetched c s)) * reI (getW c b (fetched c s))) (2 ^ 15))) (fetched c s)) ∧
      exec (.cpack c d a b sel) s = .next (extTo c d (BitVec.ofNat 32 ((getW c a (fetched c s)).toNat % 2 ^ 16 + 2 ^ 16 * (getW
      c b (fetched c s)).toNat)) (fetched c s))) ∧
  (∀ (c : Fin 14) (d a : Fin 32) (sel : Fin 8) (s : State), Issues c s → 8 ≤ c.val → c.val < 12 → exec (.conj c d a 0 sel) s =
      .next (sampleTo c d (sample (reI (getW c a (fetched c s))) (-imQ (getW c a (fetched c s)))) (fetched c s)) ∧
      exec (.cmag2 c d a 0 sel) s = .next (extTo c d (BitVec.ofInt 32 (reI (getW c a (fetched c s)) * reI (getW c a (fetched c
      s)) + imQ (getW c a (fetched c s)) * imQ (getW c a (fetched c s)))) (fetched c s))) ∧
  (∀ (c : Fin 14) (d a n : Fin 32) (sel : Fin 8) (s : State), Issues c s → 8 ≤ c.val → c.val < 12 → n.val < 16 → exec (.cshr c d
      a n sel) s = .next (sampleTo c d (sample (divEven (reI (getW c a (fetched c s))) (2 ^ n.val)) (divEven (imQ (getW c a
      (fetched c s))) (2 ^ n.val))) (fetched c s))) ∧
  (∀ (c : Fin 14) (d a b : Fin 32) (sel : Fin 8) (s : State), Issues c s → (c.val < 8 ∨ 12 ≤ c.val) → exec (.cadd c d a b sel) s
      = .next (illegal c (wordX 0x31 d a b 0x00 sel) (fetched c s))) ∧
  (∀ (c : Fin 14) (d a b : Fin 32) (sel : Fin 8) (s : State), Issues c s → (c.val < 8 ∨ 12 ≤ c.val ∨ b ≠ 0) → exec (.conj c d a
      b sel) s = .next (illegal c (wordX 0x31 d a b 0x05 sel) (fetched c s)))

/-- For a core that can issue and whose fetch ends DONE: an allowed CSRRW puts the CSR's value in rd and rs1 into the CSR, CSRRD
with rs1 = w0 only reads, CSRRM writes the bits that the old rd selects; a CSR access that is not allowed traps with the code
that R292 gives it, at that instruction; CSRRD with another rs1 is illegal. SC's KCALL at S or K enters KTVEC + 0x300. At K,
KARM arms a checked idle shelf of a core out of reset that is not armed, KDISARM disarms an armed one, and KZERO clears whole
blocks of the SRAM that hold no shelf SC may not write, or the first of them with ABORTED where a non-maskable event arrives;
each leaves its outcome's code in wd: RANGE, FENCED, REFUSED_STATE or ALIGN where it does nothing. On another core the K
instructions are illegal, below K the three trap PRIV. Conventions of the model that a clause may rest on: log 122, 125, 127,
160. (R291, R292, R293, R289, R290.) -/
def Obligations.CsrAndKeeper : Prop :=
  (∀ (c : Fin 14) (rd rs1 : Fin 32) (n : BitVec 12) (s : State), Issues c s → csrTrap c n.toNat true (fetched c s) = none → exec
      (.csrrw c rd rs1 n) s = .next (goOn c (setW c rd (csrRead c n.toNat (fetched c s)).2 (csrWrite c n.toNat (opnd c rs1 s)
      (csrRead c n.toNat (fetched c s)).1))) ∧
      exec (.csrrm c rd rs1 n) s = .next (goOn c (setW c rd (csrRead c n.toNat (fetched c s)).2 (csrWrite c n.toNat (((csrRead c
      n.toNat (fetched c s)).2 &&& ~~~(opnd c rd s)) ||| (opnd c rs1 s &&& opnd c rd s)) (csrRead c n.toNat (fetched c s)).1))))
      ∧
  (∀ (c : Fin 14) (rd : Fin 32) (n : BitVec 12) (s : State), Issues c s → csrTrap c n.toNat false (fetched c s) = none → exec
      (.csrrd c rd 0 n) s = .next (goOn c (setW c rd (csrRead c n.toNat (fetched c s)).2 (csrRead c n.toNat (fetched c s)).1)))
      ∧
  (∀ (c : Fin 14) (rd rs1 : Fin 32) (n : BitVec 12) (s : State), Issues c s → rs1 ≠ 0 → exec (.csrrd c rd rs1 n) s = .next
      (illegal c (wordS 1 rd rs1 n.toNat) (fetched c s))) ∧
  (∀ (c : Fin 14) (rd rs1 : Fin 32) (n : BitVec 12) (t : Nat) (s : State), Issues c s → csrTrap c n.toNat true (fetched c s) =
      some t → exec (.csrrw c rd rs1 n) s = .next (trap c t 0 (wordS 0 rd rs1 n.toNat) (fetched c s)) ∧
      exec (.csrrm c rd rs1 n) s = .next (trap c t 0 (wordS 2 rd rs1 n.toNat) (fetched c s))) ∧
  (∀ (sel : Fin 8) (s : State), Issues 12 s → Above 12 s → exec (.kcall 12 0 0 0 sel) s = .next (takeTrap 12
      { code := 0x12, vec := 0x300, epc := ((fetched 12 s).cpu 12).pc } (fetched 12 s))) ∧
  (∀ (c : Fin 14) (xd xa xb : Fin 32) (sel : Fin 8) (lim : Option (BitVec 15)) (s : State), Issues c s → c ≠ 12 → exec (.kcall c
      xd xa xb sel) s = .next (illegal c (wordX 0x32 xd xa xb 0 sel) (fetched c s)) ∧
      exec (.karm c xd xa xb sel) s = .next (illegal c (wordX 0x32 xd xa xb 1 sel) (fetched c s)) ∧
      exec (.kdisarm c xd xa xb sel) s = .next (illegal c (wordX 0x32 xd xa xb 2 sel) (fetched c s)) ∧
      exec (.kzero c xd xa xb sel lim) s = .next (illegal c (wordX 0x32 xd xa xb 3 sel) (fetched c s))) ∧
  (∀ (xd xa xb : Fin 32) (sel : Fin 8) (lim : Option (BitVec 15)) (s : State), Issues 12 s → ((fetched 12 s).cpu 12).lvl ≠ 2 →
      exec (.karm 12 xd xa xb sel) s = .next (priv 12 (wordX 0x32 xd xa xb 1 sel) (fetched 12 s)) ∧
      exec (.kdisarm 12 xd xa xb sel) s = .next (priv 12 (wordX 0x32 xd xa xb 2 sel) (fetched 12 s)) ∧
      exec (.kzero 12 xd xa xb sel lim) s = .next (priv 12 (wordX 0x32 xd xa xb 3 sel) (fetched 12 s))) ∧
  (∀ (xd xa xb : Fin 32) (sel : Fin 8) (s : State), Issues 12 s → ((fetched 12 s).cpu 12).lvl = 2 → exec (.karm 12 xd xa xb sel)
      s = .next (
      if 12 < (opnd 12 xa s).toNat then result 12 xd (BitVec.ofNat 32 Code.range.n) s
      else if coreState (opnd 12 xa s).toNat (fetched 12 s) = 0 then result 12 xd (BitVec.ofNat 32 Code.fenced.n) s
      else if (fetched 12 s).get (OWN_CORE_STAT_armed (opnd 12 xa s).toNat) = 1 ∨ (fetched 12 s).get (chkFd (opnd 12 xa s).toNat
      (idleShelf (opnd 12 xa s).toNat (fetched 12 s))) ≠ 1 then result 12 xd (BitVec.ofNat 32 Code.state.n) s
      else alu 12 xd 0 ((fetched 12 s).set (OWN_CORE_STAT_armed (opnd 12 xa s).toNat) 1)) ∧
      exec (.kdisarm 12 xd xa xb sel) s = .next (
      if 12 < (opnd 12 xa s).toNat then result 12 xd (BitVec.ofNat 32 Code.range.n) s
      else if (fetched 12 s).get (OWN_CORE_STAT_armed (opnd 12 xa s).toNat) ≠ 1 then result 12 xd (BitVec.ofNat 32 Code.state.n)
      s
      else alu 12 xd 0 (swapCancel (opnd 12 xa s).toNat ((fetched 12 s).set (OWN_CORE_STAT_armed (opnd 12 xa s).toNat) 0)))) ∧
  (∀ (xd xa xb : Fin 32) (sel : Fin 8) (lim : Option (BitVec 15)) (s : State), Issues 12 s → ((fetched 12 s).cpu 12).lvl = 2 →
      (0x10000000 ≤ (opnd 12 xa s).toNat ∧ (opnd 12 xa s).toNat + (opnd 12 xb s).toNat ≤ 0x10800000) → ((opnd 12 xa s).toNat %
      64 = 0 ∧ (opnd 12 xb s).toNat % 64 = 0 ∧ (opnd 12 xb s).toNat ≤ 0x100000) → (((List.range ((opnd 12 xb s).toNat / 64)).any
      fun i => (shelfCheck (.core 12 .k) ((opnd 12 xa s).toNat + 64 * i) (fetched 12 s)).isNone) = false) → nmiReady 12 (fetched
      12 s) = none → exec (.kzero 12 xd xa xb sel lim) s = .next (alu 12 xd 0 (forN ((opnd 12 xb s).toNat / 64) (fun i s =>
      zeroBlock ((opnd 12 xa s).toNat + 64 * i) s) (fetched 12 s)))) ∧
  (∀ (xd xa xb : Fin 32) (sel : Fin 8) (m : BitVec 15) (s : State), Issues 12 s → ((fetched 12 s).cpu 12).lvl = 2 → (0x10000000
      ≤ (opnd 12 xa s).toNat ∧ (opnd 12 xa s).toNat + (opnd 12 xb s).toNat ≤ 0x10800000) → ((opnd 12 xa s).toNat % 64 = 0 ∧
      (opnd 12 xb s).toNat % 64 = 0 ∧ (opnd 12 xb s).toNat ≤ 0x100000) → (((List.range ((opnd 12 xb s).toNat / 64)).any fun i =>
      (shelfCheck (.core 12 .k) ((opnd 12 xa s).toNat + 64 * i) (fetched 12 s)).isNone) = false) → (nmiReady 12 (fetched 12
      s)).isSome = true → m.toNat < (opnd 12 xb s).toNat / 64 → exec (.kzero 12 xd xa xb sel (some m)) s = .next (alu 12 xd
      (BitVec.ofNat 32 Code.aborted.n) (forN m.toNat (fun i s => zeroBlock ((opnd 12 xa s).toNat + 64 * i) s) (fetched 12 s))))
      ∧
  (∀ (xd xa xb : Fin 32) (sel : Fin 8) (lim : Option (BitVec 15)) (s : State), Issues 12 s → ((fetched 12 s).cpu 12).lvl = 2 →
      ((opnd 12 xa s).toNat % 64 ≠ 0 ∨ (opnd 12 xb s).toNat % 64 ≠ 0) → exec (.kzero 12 xd xa xb sel lim) s = .next (result 12
      xd (BitVec.ofNat 32 Code.align.n) s))

/-- For a core above level U whose fetch ends DONE and whose stores have all completed without a fault: WAIT goes on where an
enabled event is pending and waits else, and for SC at K with the mode STOP it asks for a stop; FENCE goes on; EVWAIT consumes a
pending event with 0 in rd, answers RANGE for a number above 511, and waits else; QPOINT with no armed swap puts 0 in rd, with
one it fences the port and waits for the exchange. At level U, WAIT, EVWAIT and QPOINT trap PRIV; a failed store traps first;
WAIT with an operand and FENCE with an unlisted kind are illegal. WAIT_WAKE of a running core in WAIT with an enabled event
takes it as a trap where ie is 1 and goes on where it is 0 (for a core other than SC); the awaited event ends EVWAIT with 0 in
rd and its bit cleared; a timed EVWAIT ends with TIMEOUT; SHELF_SWAP exchanges the shelves, disarms, opens the port, puts 1 in
rd and goes on at the new shelf's entry. Conventions of the model that a clause may rest on: log 122, 129, 130, 173. (R295,
R296, R297, R298, R319.) -/
def Obligations.WaitsAndFences : Prop :=
  (∀ (c : Fin 14) (pins : BitVec 11) (s : State), Issues c s → Above c s → StoresDone c s → (¬(c = 12 ∧ ((ready c s).cpu 12).lvl
      = 2 ∧ (ready c s).get PWR_MODE_mode = 1)) → exec (.wait c 0 0 0 pins) s = .next (if eventFor c (ready c s) then goOn c
      (ready c s) else updCpu c (fun k => { k with wait := .wait }) (ready c s))) ∧
  (∀ (pins : BitVec 11) (s : State), Issues 12 s → StoresDone 12 s → (((fetched 12 s).cpu 12).lvl ≠ 0 ∧ ((ready 12 s).cpu
      12).lvl = 2 ∧ (ready 12 s).get PWR_MODE_mode = 1) → exec (.wait 12 0 0 0 pins) s = .next (stopWait pins.toNat (ready 12
      s))) ∧
  (∀ (c : Fin 14) (rd rs1 : Fin 32) (imm : BitVec 12) (pins : BitVec 11) (s : State), Issues c s → (rd ≠ 0 ∨ rs1 ≠ 0 ∨ imm.toNat
      ≠ 0) → exec (.wait c rd rs1 imm pins) s = .next (illegal c (wordS 8 rd rs1 imm.toNat) (fetched c s))) ∧
  (∀ (c : Fin 14) (rd rs1 : Fin 32) (imm : BitVec 12) (pins : BitVec 11) (s : State), Issues c s → ((fetched c s).cpu c).lvl = 0
      → exec (.wait c 0 0 0 pins) s = .next (priv c (wordS 8 0 0 0) (fetched c s)) ∧
      exec (.evwait c rd rs1 imm) s = .next (priv c (wordS 10 rd rs1 imm.toNat) (fetched c s)) ∧
      exec (.qpoint c rd 0 0) s = .next (priv c (wordS 11 rd 0 0) (fetched c s)) ∧
      exec (.rett c rd rs1 imm) s = .next (priv c (wordS 14 rd rs1 imm.toNat) (fetched c s))) ∧
  (∀ (c : Fin 14) (rd rs1 : Fin 32) (imm : BitVec 12) (s : State), Issues c s → (imm.toNat = 1 ∨ imm.toNat = 3) → StoresDone c s
      → exec (.fence c rd rs1 imm) s = .next (goOn c (ready c s))) ∧
  (∀ (c : Fin 14) (rd rs1 : Fin 32) (s : State), Issues c s → ((fetched c s).cpu c).serr = none → exec (.fence c rd rs1 2) s =
      .next (goOn c (fetched c s))) ∧
  (∀ (c : Fin 14) (rd rs1 : Fin 32) (imm : BitVec 12) (s : State), Issues c s → (imm.toNat = 0 ∨ 4 ≤ imm.toNat) → exec (.fence c
      rd rs1 imm) s = .next (illegal c (wordS 9 rd rs1 imm.toNat) (fetched c s))) ∧
  (∀ (c : Fin 14) (rd rs1 : Fin 32) (imm : BitVec 12) (pins : BitVec 11) (s : State), Issues c s → Above c s → ((ready c s).cpu
      c).serr ≠ none → exec (.wait c 0 0 0 pins) s = .next (storeTrap c (ready c s)) ∧
      exec (.fence c rd rs1 1) s = .next (storeTrap c (ready c s)) ∧
      exec (.evwait c rd rs1 imm) s = .next (storeTrap c (ready c s)) ∧
      exec (.qpoint c rd 0 0) s = .next (storeTrap c (ready c s)) ∧
      exec (.rett c rd rs1 imm) s = .next (storeTrap c (ready c s))) ∧
  (∀ (c : Fin 14) (rd rs1 : Fin 32) (imm : BitVec 12) (s : State), Issues c s → Above c s → StoresDone c s → exec (.evwait c rd
      rs1 imm) s = .next
      (if 511 < (getW c rs1 (ready c s)).toNat then alu c rd (BitVec.ofNat 32 Code.range.n) (ready c s)
      else if c < 13 ∧ pendFor (getW c rs1 (ready c s)).toNat c (ready c s) = true then alu c rd 0 (clearPend (getW c rs1 (ready
      c s)).toNat (ready c s))
      else updCpu c (fun k => { k with wait := .evwait (getW c rs1 (ready c s)).toNat rd (decide (imm ≠ 0)) }) (ready c s))) ∧
  (∀ (c : Fin 14) (rd : Fin 32) (s : State), Issues c s → Above c s → StoresDone c s → exec (.qpoint c rd 0 0) s = .next
      (if c < 13 ∧ (ready c s).get (OWN_CORE_STAT_armed c) = 1 then updCpu c (fun k => { k with wait := .swap rd }) ((ready c
      s).set (OWN_CORE_STAT_fenced c) 1) else alu c rd 0 (ready c s))) ∧
  (∀ (c : Fin 14) (s : State), coreRuns c s = true → (s.cpu c).wait = .wait → eventFor c s = true → c ≠ 12 → (s.cpu c).ie =
      false → exec (.waitWake c) s = .next (goOn c (updCpu c (fun k => { k with wait := .run }) s))) ∧
  (∀ (c : Fin 14) (e : Nat) (s : State), coreRuns c s = true → (s.cpu c).wait = .wait → c < 12 → (s.cpu c).ie = true → evtNext c
      s = some e → exec (.waitWake c) s = .next (eventTrap c e s)) ∧
  (∀ (c : Fin 14) (e rd : Nat) (timed : Bool) (s : State), coreRuns c s = true → c < 13 → (s.cpu c).wait = .evwait e rd timed →
      pendFor e c s = true → exec (.evwaitEvent c) s = .next (alu c rd 0 (updCpu c (fun k => { k with wait := .run }) (clearPend
      e s)))) ∧
  (∀ (c : Fin 14) (e rd : Nat) (s : State), coreRuns c s = true → (s.cpu c).wait = .evwait e rd true → exec (.evwaitTimeout c) s
      = .next (alu c rd (BitVec.ofNat 32 Code.timeout.n) (updCpu c (fun k => { k with wait := .run }) s))) ∧
  (∀ (c : Fin 13) (rd : Nat) (s : State), coreRuns c s = true → (s.cpu c).wait = .swap rd → exec (.shelfSwap c) s = .next
      (swapTaken c rd s))

/-- TRAP with a code below 256 and BRK take their traps at the instruction; an event trap clears the pending bit and enters at
TVEC + 0x100, a non-maskable one at KTVEC + 0x200; a failed store's fault is taken between instructions; a store's completion
retires the oldest posted store that has a code. NMI and KCALL, and every trap of a core at level K, are taken into K; every
other trap into S. On entry EPC, CAUSE and TVAL of that level take the trap's, the level and ie are saved in plvl and pie, ie
becomes 0, the level becomes the target, and pc is the vector from that level's TVEC; no general register changes. Conventions
of the model that a clause may rest on: log 122, 123. (R286, R299, R301, R302, R300, R303.) -/
def Obligations.Traps : Prop :=
  (∀ (c : Fin 14) (rd rs1 : Fin 32) (imm : BitVec 12) (s : State), Issues c s → imm.toNat < 256 → exec (.trap c rd rs1 imm) s =
      .next (trap c 8 imm.toNat 0 (fetched c s)) ∧
      exec (.brk c) s = .next (trap c 9 0 0 (fetched c s))) ∧
  (∀ (c : Fin 14) (rd rs1 : Fin 32) (imm : BitVec 12) (s : State), Issues c s → 256 ≤ imm.toNat → exec (.trap c rd rs1 imm) s =
      .next (illegal c (wordS 12 rd rs1 imm.toNat) (fetched c s))) ∧
  (∀ (c : Fin 14) (e : Nat) (s : State), coreRuns c s = true → (s.cpu c).ie = true → c < 13 → inSwap c s = false → (s.cpu
      c).serr = none → nmiReady c s = none → evtNext c s = some e → exec (.eventTrap c) s = .next (eventTrap c e s)) ∧
  (∀ (e : Nat) (s : State), coreRuns 12 s = true → inSwap 12 s = false → nmiReady 12 s = some e → exec .nmiTrap s = .next
      (nmiTrap e s)) ∧
  (∀ (c : Fin 14) (p : Posted) (stale : Bool) (s : State), ((s.cpu c).posted.find? (fun p => p.code.isSome) = some p) → exec
      (.storeCompletion c stale) s = .next (storeDone c p stale (updCpu c (fun k => { k with posted := k.posted.erase p }) s)))
      ∧
  (∀ (c : Fin 14) (s : State), coreIssues c s = true → nmiReady c s = none → exec (.storeErrTrap c) s = .next (storeTrap c s)) ∧
  (∀ (c : Nat) (t : Trap) (s : State), c < 14 → s.cores.length = 14 → (t.code ≠ 0x11 ∧ t.code ≠ 0x12) → (s.cpu c).lvl ≠ 2 →
      ((takeTrap c t s).cpu c).epc = t.epc ∧ ((takeTrap c t s).cpu c).cause = t.cause ∧ ((takeTrap c t s).cpu c).tval = t.tval ∧
      ((takeTrap c t s).cpu c).plvl = (s.cpu c).lvl ∧ ((takeTrap c t s).cpu c).pie = (s.cpu c).ie ∧ ((takeTrap c t s).cpu c).ie
      = false ∧ ((takeTrap c t s).cpu c).lvl = 1 ∧ ((takeTrap c t s).cpu c).pc = (s.cpu c).tvec + BitVec.ofNat 32 t.vec ∧
      ((takeTrap c t s).cpu c).w = (s.cpu c).w ∧ ((takeTrap c t s).cpu c).v = (s.cpu c).v) ∧
  (∀ (c : Nat) (t : Trap) (s : State), c < 14 → s.cores.length = 14 → (t.code = 0x11 ∨ t.code = 0x12 ∨ (s.cpu c).lvl = 2) →
      ((takeTrap c t s).cpu c).kepc = t.epc ∧ ((takeTrap c t s).cpu c).kcause = t.cause ∧ ((takeTrap c t s).cpu c).ktval =
      t.tval ∧ ((takeTrap c t s).cpu c).kplvl = (s.cpu c).lvl ∧ ((takeTrap c t s).cpu c).kpie = (s.cpu c).ie ∧ ((takeTrap c t
      s).cpu c).ie = false ∧ ((takeTrap c t s).cpu c).lvl = 2 ∧ ((takeTrap c t s).cpu c).pc = (s.cpu c).ktvec + BitVec.ofNat 32
      t.vec ∧ (t.code = 0x11 → ((takeTrap c t s).cpu c).nmiAct = true) ∧ ((takeTrap c t s).cpu c).w = (s.cpu c).w)

/-- Where the write reaches its register: the claim value from a class that may claim, with no owner, makes the class owner and
starts the lease; with an owner it ends REFUSED_STATE, with another value ERR_RANGE. The owner's renewal starts the lease again,
another's is refused. A lapse leaves no owner and ends a pending handover ABORTED. A handover to a class that may claim is HELD
with its successor named, is cancelled by successor 0, ends ERR_RANGE for another class, and with no owner answers REFUSED_STATE
and changes nothing more; the accept of the named successor ends it DONE and makes it owner; the timeout ends it ERR_TIMEOUT.
Conventions of the model that a clause may rest on: log 93. (R449, R450, R451.) -/
def Obligations.OwnershipCommands : Prop :=
  (∀ (q : Rq) (s : State), Sent q OWN_CLAIM [] 0x0C1A s → mayClaim q.cls s = true → (q = .hatch → s.get OWN_HATCH_STAT_level =
      2) → s.get OWN_STAT_owner = 0 → exec (.ownClaim q 0x0C1A) s = .next ((leaseStart (setOwner q.cls q.faddr (request q
      OWN_CLAIM s))).ret .done)) ∧
  (∀ (q : Rq) (s : State), Sent q OWN_CLAIM [] 0x0C1A s → mayClaim q.cls s = true → (q = .hatch → s.get OWN_HATCH_STAT_level =
      2) → s.get OWN_STAT_owner ≠ 0 → exec (.ownClaim q 0x0C1A) s = .next (completed q OWN_CLAIM true .state ((logRefusal q
      OWN_CLAIM .state (request q OWN_CLAIM s)).ret .state))) ∧
  (∀ (q : Rq) (w : Word) (s : State), Sent q OWN_CLAIM [] w s → w ≠ 0x0C1A → exec (.ownClaim q w) s = .next ((logRefusal q
      OWN_CLAIM .range (request q OWN_CLAIM s)).ret .range)) ∧
  (∀ (q : Rq) (s : State), Sent q OWN_CLAIM [] 0x0C1A s → mayClaim q.cls s = false → exec (.ownClaim q 0x0C1A) s = .next
      (completed q OWN_CLAIM true .notOwner ((logRefusal q OWN_CLAIM .notOwner (request q OWN_CLAIM s)).ret .notOwner))) ∧
  (∀ (q : Rq) (s : State), Sent q OWN_LEASE [] (force 0 OWN_LEASE_renew 1) s → isOwner q s = true → exec (.leaseRenew q) s =
      .next ((leaseStart (request q OWN_LEASE s)).ret .done)) ∧
  (∀ (q : Rq) (s : State), Sent q OWN_LEASE [] (force 0 OWN_LEASE_renew 1) s → s.get OWN_STAT_owner ≠ 0 → isOwner q s = false →
      exec (.leaseRenew q) s = .next (completed q OWN_LEASE true .notOwner ((logRefusal q OWN_LEASE .notOwner (request q
      OWN_LEASE s)).ret .notOwner))) ∧
  (∀ (s : State), s.get OWN_STAT_owner ≠ 0 → exec .leaseLapse s = .next (ownEvt 1 (setOwner 0 0 (hoEnd .aborted 2 s)))) ∧
  (∀ (q : Rq) (w : Word) (s : State), Sent q OWN_HANDOVER OWN_HANDOVER_fs w s → ownRight q s = true → s.get OWN_STAT_owner ≠ 0 →
      s.get OWN_STAT_ho_pend = 0 → mayClaim (wf w OWN_HANDOVER_succ) s = true → (wf w OWN_HANDOVER_succ ≠ s.get OWN_STAT_owner ∨
      (wf w OWN_HANDOVER_succ = 2 ∧ wf w OWN_HANDOVER_succ_addr ≠ s.get OWN_STAT_addr)) → exec (.ownHandover q w) s = .next
      (hoNow .held (((wrote q OWN_HANDOVER OWN_HANDOVER_fs w s).set OWN_STAT_succ (wf w OWN_HANDOVER_succ)).set OWN_STAT_ho_pend
      1))) ∧
  (∀ (q : Rq) (w : Word) (s : State), Sent q OWN_HANDOVER OWN_HANDOVER_fs w s → ownRight q s = true → s.get OWN_STAT_owner = 0 →
      exec (.ownHandover q w) s = .next (completed q OWN_HANDOVER true .state ((request q OWN_HANDOVER s).ret .state))) ∧
  (∀ (q : Rq) (w : Word) (s : State), Sent q OWN_HANDOVER OWN_HANDOVER_fs w s → ownRight q s = true → s.get OWN_STAT_owner ≠ 0 →
      s.get OWN_STAT_ho_pend = 0 → mayClaim (wf w OWN_HANDOVER_succ) s = false → exec (.ownHandover q w) s = .next (hoNow .range
      (request q OWN_HANDOVER s))) ∧
  (∀ (q : Rq) (w : Word) (s : State), Sent q OWN_HANDOVER OWN_HANDOVER_fs w s → ownRight q s = true → s.get OWN_STAT_owner ≠ 0 →
      s.get OWN_STAT_ho_pend = 1 → wf w OWN_HANDOVER_succ = 0 → exec (.ownHandover q w) s = .next ((hoEnd .aborted 1 (wrote q
      OWN_HANDOVER OWN_HANDOVER_fs w s)).ret .done)) ∧
  (∀ (q : Rq) (s : State), Sent q OWN_ACCEPT [] 0x0ACC s → s.get OWN_STAT_ho_pend = 1 → isNamed q s = true → exec (.ownAccept q
      0x0ACC) s = .next ((leaseStart (setOwner q.cls q.faddr (hoEnd .done 0 (request q OWN_ACCEPT s)))).ret .done)) ∧
  (∀ (q : Rq) (s : State), Sent q OWN_ACCEPT [] 0x0ACC s → s.get OWN_STAT_ho_pend = 1 → isNamed q s = false → exec (.ownAccept q
      0x0ACC) s = .next (completed q OWN_ACCEPT true .notOwner ((logRefusal q OWN_ACCEPT .notOwner (request q OWN_ACCEPT s)).ret
      .notOwner))) ∧
  (∀ (s : State), s.get OWN_STAT_ho_pend = 1 → exec .handoverTimeout s = .next ((((s.set OWN_STAT_succ 0).set OWN_STAT_ho_pend
      0).set OWN_HO_RESULT_outcome Code.timeout.n).set OWN_HO_RESULT_reason 0))

/-- Where the interface answers: SETDASA and ENTDAA give a target without a dynamic address one; RSTDAA takes it; ENEC and DISEC
set and clear the in-band interrupt's enable; with an address, GETPID begins with OWN_ID_0, GETBCR tells a target that can
request in-band interrupts, and GETDCR, GETSTATUS, GETMWL and GETMRL return one value each. IDCODE returns the part's code at
every level; an instruction that is not available at the level selects BYPASS and is counted; EXTEST, for HATCH as owner at
FULL, takes its laser-off action, mutes and zeroises; CHAL returns a fresh nonce and DEV_ID; MBOX writes the mailbox; VERIFY
opens the hatch to FULL where the enrolled key signed nonce and DEV_ID, and ends REFUSED_STATE without a nonce or when locked,
ERR_RANGE for another slot; PASSWORD opens CLOSED to NARROW; CLOSE and the TAP's reset state close it; a HATCH_CMD code outside
1 to 3 ends ERR_RANGE. Conventions of the model that a clause may rest on: log 96, 97, 98, 118, 163. (R453, R457, R458, R459,
R460, R461.) -/
def Obligations.HatchAndManagementBus : Prop :=
  (∀ (a : Fin 128) (s : State), mgmtAlive s = true → s.own.dyn = none → exec (.i3cSetdasa a) s = .next (updOwn (fun o =>
      { o with dyn := some a }) s) ∧
      exec (.i3cEntdaa a) s = .next (updOwn (fun o => { o with dyn := some a }) s)) ∧
  (∀ (s : State), mgmtAlive s = true → exec .i3cRstdaa s = .next (updOwn (fun o => { o with dyn := none }) s)) ∧
  (∀ (s : State), mgmtAlive s = true → s.own.dyn ≠ none → exec .i3cEnec s = .next (updOwn (fun o => { o with ibi := true }) s) ∧
      exec .i3cDisec s = .next (updOwn (fun o => { o with ibi := false }) s) ∧
      exec .i3cGetpid s = .next (s.retData [s.rd (OWN_ID 0), BitVec.ofNat 32 (Config.i3cReply 0x8D % 65536)]) ∧
      (∃ t, exec .i3cGetbcr s = .next t ∧ t.reply.code = .done ∧ nth t.reply.data 0 &&& 0xE6 = 2) ∧
      exec .i3cGetdcr s = .next (s.retData [BitVec.ofNat 32 (Config.i3cReply 0x8F % 256)]) ∧
      exec .i3cGetmwl s = .next (s.retData [BitVec.ofNat 32 (Config.i3cReply 0x8B % 65536)]) ∧
      exec .i3cGetmrl s = .next (s.retData [BitVec.ofNat 32 (Config.i3cReply 0x8C % 65536)]) ∧
      exec .i3cGetstatus s = .next (s.freeNext.retData [BitVec.ofNat 32 (s.freeVal 16)])) ∧
  (∀ (s : State), ownHeld s = false → exec .hatchIdcode s = .next ((hatchIn 2 s).retData [0x13208A3B]) ∧
      exec (.hatchBypass 0xFF) s = .next (hatchIn 0xFF s)) ∧
  (∀ (ws : List Word) (s : State), ownHeld s = false → exec (.hatchMbox ws) s = .next (hatchMbox ws (hatchIn 0x11 s)) ∧
      exec .hatchTapReset s = .next (hatchLevel 0 (hatchIn 2 s)) ∧
      exec (.hatchClose 3) s = .next (hatchEnd .done (hatchLevel 0 ((hatchIn 0x12 s).set OWN_HATCH_STAT_fails 0)))) ∧
  (∀ (op : BitVec 8) (s : State), ownHeld s = false → (op = 0 ∨ 3 < op.toNat) → exec (.hatchClose op) s = .next (hatchEnd .range
      (hatchIn 0x12 s))) ∧
  (∀ (s : State), ownHeld s = false → hatchCan 1 (extestEnd s) = true → exec .hatchSamplePreload s = .next (hatchIn 1 s)) ∧
  (∀ (s : State), ownHeld s = false → hatchCan 1 (extestEnd s) = false → exec .hatchSamplePreload s = .next (hatchRefused s)) ∧
  (∀ (b : BitVec 8) (s : State), ownHeld s = false → b ≠ 0 → hatchCan b.toNat (extestEnd s) = false → exec (.hatchBypass b) s =
      .next (hatchRefused s)) ∧
  (∀ (s : State), ownHeld s = false → hatchOwner s = true → exec .hatchExtest s = .next (zeroise (rptTherm true (forN 8 (fun n s
      => laserOff n causeLaser s) (updOwn (fun o => { o with ir := 0, ext := true }) s))))) ∧
  (∀ (s : State), ownHeld s = false → ∃ t, exec .hatchChal s = .next t ∧ t.own.nonce = some ((List.range 32).map (fun i =>
      Config.nonce (extestEnd s).free i), (extestEnd s).now) ∧ t.reply.code = .done ∧ t.reply.data.length = 16 ∧
      t.reply.data.drop 8 = (List.range 8).map fun i => wordAt (devId s) (4 * i)) ∧
  (∀ (s : State), ownHeld s = false → ((hatchIn 0x12 s).get OWN_HATCH_STAT_locked = 1 ∨ (leVal (mboxBytes 0 4 (hatchIn 0x12 s))
      ≤ 3 ∧ 0 < leVal (mboxBytes 0x710 4 (hatchIn 0x12 s)) ∧ leVal (mboxBytes 0x710 4 (hatchIn 0x12 s)) ≤ 1280 ∧ (hatchIn 0x12
      s).own.nonce = none)) → exec .hatchVerify s = .next (hatchEnd .state (verifyTaken s))) ∧
  (∀ (s : State), ownHeld s = false → (hatchIn 0x12 s).get OWN_HATCH_STAT_locked = 0 → (3 < leVal (mboxBytes 0 4 (hatchIn 0x12
      s)) ∨ leVal (mboxBytes 0x710 4 (hatchIn 0x12 s)) = 0 ∨ 1280 < leVal (mboxBytes 0x710 4 (hatchIn 0x12 s))) → exec
      .hatchVerify s = .next (hatchEnd .range (verifyTaken s))) ∧
  (∀ (n : List Byte) (t : Nat) (s : State), ownHeld s = false → (hatchIn 0x12 s).get OWN_HATCH_STAT_locked = 0 → (leVal
      (mboxBytes 0 4 (hatchIn 0x12 s)) ≤ 3 ∧ 0 < leVal (mboxBytes 0x710 4 (hatchIn 0x12 s)) ∧ leVal (mboxBytes 0x710 4 (hatchIn
      0x12 s)) ≤ 1280) → (hatchIn 0x12 s).own.nonce = some (n, t) → (hatchIn 0x12 s).now - t ≤ nonceLife → exec .hatchVerify s =
      .next (
      if (nth (hatchIn 0x12 s).attic.slots (8 + leVal (mboxBytes 0 4 (hatchIn 0x12 s)))).usable = true ∧ Config.shake256 32
      (mboxBytes 8 1793 (hatchIn 0x12 s)) = (nth (hatchIn 0x12 s).attic.slots (8 + leVal (mboxBytes 0 4 (hatchIn 0x12 s)))).hash
      ∧ Config.falconVerify (mboxBytes 8 1793 (hatchIn 0x12 s)) (n ++ devId (hatchIn 0x12 s)) (mboxBytes 0x714 (leVal (mboxBytes
      0x710 4 (hatchIn 0x12 s))) (hatchIn 0x12 s)) = true
      then hatchEnd .done (hatchLevel 2 ((verifyTaken s).set OWN_HATCH_STAT_fails 0)) else hatchEnd .signature (verifyTaken s)))
      ∧
  (∀ (h : List Byte) (s : State), ownHeld s = false → (hatchIn 0x12 s).attic.pass = some h → (hatchIn 0x12 s).get
      OWN_HATCH_STAT_locked = 0 → ((h.all fun b => decide (b = 0)) = false) → exec .hatchPassword s = .next (
      if Config.shake256 32 (mboxBytes 0 32 (hatchIn 0x12 s)) = h then hatchEnd .done (if ((hatchIn 0x12 s).set
      OWN_HATCH_STAT_fails 0).get OWN_HATCH_STAT_level = 0 then hatchLevel 1 ((hatchIn 0x12 s).set OWN_HATCH_STAT_fails 0) else
      (hatchIn 0x12 s).set OWN_HATCH_STAT_fails 0)
      else hatchEnd .signature (hatchIn 0x12 s)))

/-- Where the write reaches its register: KEYLOAD with the hatch closed is HELD and clears key_ready, the load's end sets it;
enrolling an unenrolled slot and revoking an enrolled one that is not the last usable image key are HELD, a slot above 11 ends
ERR_RANGE and a command while one runs REFUSED_STATE; the fuse command's end marks the slot; ATTEST with the key ready and SIGN
by a keeper are HELD on an aligned buffer in the system SRAM; a command whose bytes are read without an uncorrectable error ends
DONE with its report or signature written, else ERR_ECC with nothing written, both with the event, and one that waits for the
loader does not end; the secret window takes bounds that R462 allows and ends ERR_RANGE for others. Conventions of the model
that a clause may rest on: log 94, 95, 163. (R462, R463, R466, R467, R468, R469.) -/
def Obligations.KeysAndSigning : Prop :=
  (∀ (q : Rq) (w : Word) (s : State), Sent q OWN_ZERO OWN_ZERO_fs (force w OWN_ZERO_keyload 1) s → s.get OWN_HATCH_STAT_level =
      0 → s.own.key ≠ 2 → exec (.keyload q w) s = .next ((updOwn (fun o => { o with key := 2 }) (((wrote q OWN_ZERO OWN_ZERO_fs
      (force w OWN_ZERO_keyload 1) s).set OWN_ZERO_key_ready 0).set OWN_ZERO_outcome Code.held.n)).ret .held)) ∧
  (∀ (q : Rq) (w : Word) (s : State), Sent q OWN_ZERO OWN_ZERO_fs (force w OWN_ZERO_keyload 1) s → (s.get OWN_HATCH_STAT_level ≠
      0 ∨ s.own.key = 2) → exec (.keyload q w) s = .next (completed q OWN_ZERO true .state (((request q OWN_ZERO s).set
      OWN_ZERO_outcome Code.state.n).ret .state))) ∧
  (∀ (s : State), ownHeld s = false → s.own.key = 2 → exec .keyLoadDone s = .next (updOwn (fun o =>
      { o with key := 0, keyRam := s.attic.priv.getD [] }) ((s.set OWN_ZERO_outcome Code.done.n).set OWN_ZERO_key_ready 1))) ∧
  (∀ (q : Rq) (k : Fin 16) (s : State), Sent q OWN_FUSE_CMD OWN_FUSE_CMD_fs (fuseWord 1 k) s → k < 12 → (s.get OWN_FUSE_BUF_buf
      % 8 = 0 ∧ inSram (s.get OWN_FUSE_BUF_buf) 32 = true) → s.own.fuse = none → majority (nth s.attic.slots k).enrolled = false
      → (unitRead (s.get OWN_FUSE_BUF_buf) 32 (request q OWN_FUSE_CMD s)).2 = .done → exec (.fuseEnrol q k) s = .next (fuseNow
      .held (updOwn (fun o => { o with fuse := some ⟨1, k, (fuseSeen q s).bytes (s.get OWN_FUSE_BUF_buf) 32⟩ }) (((fuseSeen q
      s).store OWN_FUSE_CMD OWN_FUSE_CMD_fs (fuseWord 1 k)).set OWN_FUSE_RESULT_busy 1)))) ∧
  (∀ (q : Rq) (k : Fin 16) (s : State), Sent q OWN_FUSE_CMD OWN_FUSE_CMD_fs (fuseWord 1 k) s → 12 ≤ k → exec (.fuseEnrol q k) s
      = .next (fuseNow .range (request q OWN_FUSE_CMD s))) ∧
  (∀ (q : Rq) (k : Fin 16) (s : State), Sent q OWN_FUSE_CMD OWN_FUSE_CMD_fs (fuseWord 2 k) s → k < 12 → (s.get OWN_FUSE_BUF_buf
      % 8 = 0 ∧ inSram (s.get OWN_FUSE_BUF_buf) 32 = true) → (s.own.fuse ≠ none ∨ majority (nth s.attic.slots k).enrolled =
      false ∨ lastUsable k s = true) → exec (.fuseRevoke q k) s = .next (completed q OWN_FUSE_CMD true .state (fuseNow .state
      (request q OWN_FUSE_CMD s)))) ∧
  (∀ (q : Rq) (k : Fin 16) (s : State), Sent q OWN_FUSE_CMD OWN_FUSE_CMD_fs (fuseWord 2 k) s → k < 12 → (s.get OWN_FUSE_BUF_buf
      % 8 = 0 ∧ inSram (s.get OWN_FUSE_BUF_buf) 32 = true) → s.own.fuse = none → majority (nth s.attic.slots k).enrolled = true
      → lastUsable k s = false → exec (.fuseRevoke q k) s = .next (fuseNow .held (updOwn (fun o =>
      { o with fuse := some ⟨2, k, s.bytes (s.get OWN_FUSE_BUF_buf) 32⟩ }) ((wrote q OWN_FUSE_CMD OWN_FUSE_CMD_fs (fuseWord 2 k)
      s).set OWN_FUSE_RESULT_busy 1)))) ∧
  (∀ (f : Fuse) (part : List Byte) (copies : Fin 8) (s : State), s.own.fuse = some f → f.op = 2 → f.slot < s.attic.slots.length
      → ∃ t, exec (.fuseDone true part copies) s = .next t ∧ nth t.attic.slots f.slot =
      { nth s.attic.slots f.slot with revoked := (nth s.attic.slots f.slot).revoked ||| 7 } ∧ t.own.fuse = none ∧ t.get
      OWN_FUSE_RESULT_busy = 0 ∧ t.get OWN_FUSE_RESULT_outcome = Code.done.n) ∧
  (∀ (f : Fuse) (part : List Byte) (copies : Fin 8) (s : State), s.own.fuse = some f → f.op = 1 → f.slot < s.attic.slots.length
      → ((List.range 32).map (fun i => nth (nth s.attic.slots f.slot).hash i ||| nth f.hash i) = f.hash) → ∃ t, exec (.fuseDone
      true part copies) s = .next t ∧ nth t.attic.slots f.slot =
      { nth s.attic.slots f.slot with hash := f.hash, enrolled := 7, ok := true } ∧ t.own.fuse = none ∧ t.get
      OWN_FUSE_RESULT_busy = 0 ∧ t.get OWN_FUSE_RESULT_outcome = Code.done.n) ∧
  (∀ (q : Rq) (s : State), Sent q OWN_SIGN_CMD OWN_SIGN_CMD_fs (force 0 OWN_SIGN_CMD_op 1) s → (s.get OWN_SIGN_BUF_buf % 8 = 0 ∧
      inSram (s.get OWN_SIGN_BUF_buf) 2436 = true) → s.own.sign = none → s.get OWN_ZERO_key_ready = 1 → exec (.attest q) s =
      .next ((((updOwn (fun o =>
      { o with sign := some { op := 1, buf := s.get OWN_SIGN_BUF_buf, band := s.bandTime, aon := s.clk.aon, start := s.now, wait := loadVerifies s } })
      (wrote q OWN_SIGN_CMD OWN_SIGN_CMD_fs (force 0 OWN_SIGN_CMD_op 1) s)).set OWN_SIGN_RESULT_busy 1).set
      OWN_SIGN_RESULT_outcome Code.held.n).ret .held)) ∧
  (∀ (q : Rq) (s : State), Sent q OWN_SIGN_CMD OWN_SIGN_CMD_fs (force 0 OWN_SIGN_CMD_op 2) s → keyRight q = true → (s.get
      OWN_SIGN_BUF_buf % 8 = 0 ∧ inSram (s.get OWN_SIGN_BUF_buf) (0x44 + 1280) = true) → s.own.sign = none → exec (.sign q) s =
      .next ((((updOwn (fun o =>
      { o with sign := some { op := 2, buf := s.get OWN_SIGN_BUF_buf, band := s.bandTime, aon := s.clk.aon, start := s.now, wait := loadVerifies s } })
      (wrote q OWN_SIGN_CMD OWN_SIGN_CMD_fs (force 0 OWN_SIGN_CMD_op 2) s)).set OWN_SIGN_RESULT_busy 1).set
      OWN_SIGN_RESULT_outcome Code.held.n).ret .held)) ∧
  (∀ (q : Rq) (s : State), Sent q OWN_SIGN_CMD OWN_SIGN_CMD_fs (force 0 OWN_SIGN_CMD_op 1) s → s.get OWN_SIGN_BUF_buf % 8 ≠ 0 →
      exec (.attest q) s = .next (signNow .align (request q OWN_SIGN_CMD s))) ∧
  (∀ (g : Sign) (s : State), s.own.sign = some g → g.wait = true → exec .signingDone s = .next s) ∧
  (∀ (g : Sign) (s : State), s.own.sign = some g → g.wait = false → g.op ≠ 1 → exec .signingDone s = .next
      (let r := unitRead g.buf 64 s; let sig := (Config.falconSign r.1.own.keyRam r.1.free (r.1.bytes g.buf 64)).take 1280
      if r.2 = .done then signEnd .done (sramPut (g.buf + 0x40) (leBytes 4 sig.length ++ sig) r.1.freeNext) else signEnd .ecc
      r.1)) ∧
  (∀ (g h : Sign) (s : State), s.own.sign = some g → g.wait = false → g.op = 1 → g.hashed.length = 26 →
      (unitRead (g.buf + 0x28) 32 s).1.own.sign = some h → exec .signingDone s = .next
      (let r := unitRead (g.buf + 0x28) 32 s; let sig := (Config.falconSign r.1.own.keyRam r.1.free (signReport h r.1)).take 1280
      if h.bad = false ∧ r.2 = .done then signEnd .done (sramPut g.buf (signReport h r.1 ++ leBytes 2 sig.length ++ leBytes 2 0
      ++ (List.range 1280).map fun i => nth sig i) r.1.freeNext) else signEnd .ecc r.1)) ∧
  (∀ (c : Code) (s : State), (signEnd c s).own.sign = none ∧ (signEnd c s).get OWN_SIGN_RESULT_busy = 0 ∧ (signEnd c s).get
      OWN_SIGN_RESULT_outcome = c.n ∧ Pending 508 (signEnd c s)) ∧
  (∀ (q : Rq) (hiReg : Bool) (w : Word) (s : State), (Sent q (if hiReg then OWN_SECRET_HI else OWN_SECRET_LO) (if hiReg then
      OWN_SECRET_HI_fs else OWN_SECRET_LO_fs) w s) → windowOk ((secretNew hiReg w s).get OWN_SECRET_LO_base) ((secretNew hiReg w
      s).get OWN_SECRET_HI_end) = true → exec (.secretWindowWrite q hiReg w) s = .next ((secretNew hiReg w (request q (if hiReg
      then OWN_SECRET_HI else OWN_SECRET_LO) s)).ret .done)) ∧
  (∀ (q : Rq) (hiReg : Bool) (w : Word) (s : State), (Sent q (if hiReg then OWN_SECRET_HI else OWN_SECRET_LO) (if hiReg then
      OWN_SECRET_HI_fs else OWN_SECRET_LO_fs) w s) → windowOk ((secretNew hiReg w s).get OWN_SECRET_LO_base) ((secretNew hiReg w
      s).get OWN_SECRET_HI_end) = false → ((secretNew hiReg w s).get OWN_SECRET_LO_base ≠ s.get OWN_SECRET_LO_base ∨ (secretNew
      hiReg w s).get OWN_SECRET_HI_end ≠ s.get OWN_SECRET_HI_end) → exec (.secretWindowWrite q hiReg w) s = .next ((request q
      (if hiReg then OWN_SECRET_HI else OWN_SECRET_LO) s).ret .range))

/-- Outside a reset the hello timer sends hellos; a HELLO that meets R473 to R475 on a running link is judged for the link's
state and for a collision; a crate that does not meet them is counted malformed; a link without hellos goes DOWN;
LINK_PHY_CHANGE takes a FAB port's code groups into its synchronisation; a link that runs then starts on its queue, another goes
DOWN. A unicast crate for the own address is delivered, with no hop left it is counted, else it goes to its route or is counted
unroutable; a flooded crate is accepted within 127 of the last sequence, recorded, delivered, and sent on with one hop less.
Conventions of the model that a clause may rest on: log 101, 102, 177, 178. (R473, R475, R476, R479, R480.) -/
def Obligations.FabricLinks : Prop :=
  (∀ (s : State), snkHeld s = false → exec .helloTimer s = .next (sendHellos s)) ∧
  (∀ (l : Fin 10) (c : List Byte) (s : State), CrateHeard l s → WellMade c → cType c = 0 → exec (.helloRx l c) s = .next
      (helloIn l (crateOf c) s)) ∧
  (∀ (l : Fin 10) (c : List Byte) (age : Nat) (s : State), CrateHeard l s → ¬WellMade c → cBcast c = false → exec
      (.crateRxUnicast l c age) s = .next (s.addSat SNK_DISC_malformed 1)) ∧
  (∀ (l : Fin 10) (s : State), snkHeld s = false → s.get (SNK_LINK_STAT_state l) ≠ 0 → exec (.linkDeadTimeout l) s = .next
      (sendHello l (snkEvt 0 ((s.set (SNK_LINK_STAT_state l) 0).addSat (SNK_LINK_STAT_downs l) 1)))) ∧
  (∀ (l : Fin 10) (groups : List (BitVec 10)) (s : State), snkHeld s = false → 8 ≤ l → exec (.linkPhyChange l groups) s = .next
      (let t := updSnk (fun k => { k with fab := upd k.fab (l - 8) fun r => groups.foldl syncGroup r }) s
      if linkRuns l t then linkStart l t else linkDown l t)) ∧
  (∀ (l : Fin 10) (groups : List (BitVec 10)) (s : State), snkHeld s = false → l < 8 → exec (.linkPhyChange l groups) s = .next
      (if linkRuns l s then linkStart l s else linkDown l s)) ∧
  (∀ (l : Fin 10) (c : List Byte) (age : Nat) (s : State), CrateHeard l s → WellMade c → cBcast c = false → (cType c ≠ 0 ∧ cType
      c ≠ 6) → cDst c = ownAddr s → exec (.crateRxUnicast l c age) s = .next (deliver l (crateOf c) age s)) ∧
  (∀ (l : Fin 10) (c : List Byte) (age : Nat) (s : State), CrateHeard l s → WellMade c → cBcast c = false → (cType c ≠ 0 ∧ cType
      c ≠ 6) → cDst c ≠ ownAddr s → cTtl c ≤ 1 → exec (.crateRxUnicast l c age) s = .next (s.addSat SNK_DISC_ttl 1)) ∧
  (∀ (l : Fin 10) (c : List Byte) (age : Nat) (s : State), CrateHeard l s → WellMade c → cBcast c = false → (cType c ≠ 0 ∧ cType
      c ≠ 6) → cDst c ≠ ownAddr s → 1 < cTtl c → (s.get (SNK_ROUTE_link (cDst c)) < 10 ∧ linkUp (s.get (SNK_ROUTE_link (cDst
      c))) s = true) → exec (.crateRxUnicast l c age) s = .next (push (s.get (SNK_ROUTE_link (cDst c))) (cSet (crateOf c) 6
      (cTtl c - 1)) s)) ∧
  (∀ (l : Fin 10) (c : List Byte) (age : Nat) (s : State), CrateHeard l s → WellMade c → cBcast c = false → (cType c ≠ 0 ∧ cType
      c ≠ 6) → cDst c ≠ ownAddr s → 1 < cTtl c → linkUp (s.get (SNK_ROUTE_link (cDst c))) s = false → exec (.crateRxUnicast l c
      age) s = .next (s.addSat SNK_DISC_unroutable 1)) ∧
  (∀ (l : Fin 10) (c : List Byte) (age : Nat) (s : State), CrateHeard l s → WellMade c → cBcast c = true → (cType c ≠ 0 ∧ cType
      c ≠ 6) → (1 ≤ floodDist c s ∧ floodDist c s ≤ 127) → exec (.crateRxBroadcast l c age) s = .next (if cTtl c ≤ 1 then
      floodTaken l (crateOf c) age s else forN 10 (fun j u => if j ≠ l ∧ linkUp j u = true then push j (cSet (crateOf c) 6 (cTtl
      c - 1)) u else u) (floodTaken l (crateOf c) age s))) ∧
  (∀ (l : Fin 10) (c : List Byte) (age : Nat) (s : State), CrateHeard l s → WellMade c → cBcast c = true → (cType c ≠ 0 ∧ cType
      c ≠ 6) → (floodDist c s = 0 ∨ 127 < floodDist c s) → exec (.crateRxBroadcast l c age) s = .next s)

/-- Where the write reaches its register: a send slot takes the crate at its address to its link, or ends ERR_ALIGN,
REFUSED_STATE or ERR_RANGE; a remote access sends its request and is HELD where a link takes it, and ends REFUSED_NOT_READY
without one or in a conflict, ABORTED where the queue drops it; the reply that fits ends it, another is counted late, and the
time limit ends it ERR_TIMEOUT; a written address becomes fixed and is told to the neighbours; the discard and drop counters
clear on read; the last byte of a crate ends its slot's command and starts the next crate. Conventions of the model that a
clause may rest on: log 99, 100, 103, 105, 163, 176, 178. (R477, R481, R483, R486, R487, R488.) -/
def Obligations.FabricSending : Prop :=
  (∀ (q : Rq) (t : Fin 8) (w : Word) (s : State), Sent q (SNK_TX_CMD t) SNK_TX_CMD_fs (force w (SNK_TX_CMD_go t) 1) s → wf w
      (SNK_TX_CMD_link t) < 10 → s.get (SNK_TX_RESULT_busy t) = 0 → (s.rd (SNK_TX_ADDR t)).toNat % 8 = 0 → inSram (slotAt t s)
      (8 + cLen (slotHead (slotAt t s) (slotSeen q t s))) = true → slotRead q t s = .done → hdrOk (slotHead (slotAt t s)
      (slotSeen q t s)) = true → (slotSeen q t s).get SNK_ADDR_conflict = 0 → linkUp (wf w (SNK_TX_CMD_link t)) (slotSeen q t s)
      = true → (enqueue (wf w (SNK_TX_CMD_link t))
      { bytes := (originate (slotCrate (slotAt t s) (slotSeen q t s)) (slotSeen q t s)).2, cls := cCls (slotCrate (slotAt t s) (slotSeen q t s)), own := some t.val }
      (originate (slotCrate (slotAt t s) (slotSeen q t s)) (slotSeen q t s)).1).2 = true → exec (.crateSend q t w) s = .next
      (slotHeld t ((enqueue (wf w (SNK_TX_CMD_link t))
      { bytes := (originate (slotCrate (slotAt t s) (slotSeen q t s)) (slotSeen q t s)).2, cls := cCls (slotCrate (slotAt t s) (slotSeen q t s)), own := some t.val }
      (originate (slotCrate (slotAt t s) (slotSeen q t s)) (slotSeen q t s)).1).1.store (SNK_TX_CMD t) SNK_TX_CMD_fs (force w
      (SNK_TX_CMD_go t) 1)))) ∧
  (∀ (q : Rq) (t : Fin 8) (w : Word) (s : State), Sent q (SNK_TX_CMD t) SNK_TX_CMD_fs (force w (SNK_TX_CMD_go t) 1) s → (wf w
      (SNK_TX_CMD_link t) < 10 ∨ wf w (SNK_TX_CMD_link t) = 15) → s.get (SNK_TX_RESULT_busy t) = 0 → (s.rd (SNK_TX_ADDR
      t)).toNat % 8 ≠ 0 → exec (.crateSend q t w) s = .next (slotNow t .align (request q (SNK_TX_CMD t) s))) ∧
  (∀ (q : Rq) (t : Fin 8) (w : Word) (s : State), Sent q (SNK_TX_CMD t) SNK_TX_CMD_fs (force w (SNK_TX_CMD_go t) 1) s → (wf w
      (SNK_TX_CMD_link t) < 10 ∨ wf w (SNK_TX_CMD_link t) = 15) → s.get (SNK_TX_RESULT_busy t) = 1 → exec (.crateSend q t w) s =
      .next (completed q (SNK_TX_CMD t) true .state ((request q (SNK_TX_CMD t) s).ret .state))) ∧
  (∀ (q : Rq) (w : Word) (s : State), Sent q SNK_RRA_CTRL SNK_RRA_CTRL_fs (rraWord 1 w) s → s.get SNK_RRA_RESULT_busy = 0 →
      (rraRouted 1 (wrote q SNK_RRA_CTRL SNK_RRA_CTRL_fs (rraWord 1 w) s)).2 = .held → exec (.rraRead q w) s = .next ((((updSnk
      (fun k => { k with rra := some (k.seq, wf (rraWord 1 w) SNK_RRA_CTRL_dst, true) }) (rraRouted 1 (wrote q SNK_RRA_CTRL
      SNK_RRA_CTRL_fs (rraWord 1 w) s)).1).set SNK_RRA_RESULT_outcome Code.held.n).set SNK_RRA_RESULT_busy 1).ret .held)) ∧
  (∀ (q : Rq) (w : Word) (s : State), Sent q SNK_RRA_CTRL SNK_RRA_CTRL_fs (rraWord 2 w) s → s.get SNK_RRA_RESULT_busy = 0 →
      (rraRouted 2 (wrote q SNK_RRA_CTRL SNK_RRA_CTRL_fs (rraWord 2 w) s)).2 = .held → exec (.rraWrite q w) s = .next ((((updSnk
      (fun k => { k with rra := some (k.seq, wf (rraWord 2 w) SNK_RRA_CTRL_dst, false) }) (rraRouted 2 (wrote q SNK_RRA_CTRL
      SNK_RRA_CTRL_fs (rraWord 2 w) s)).1).set SNK_RRA_RESULT_outcome Code.held.n).set SNK_RRA_RESULT_busy 1).ret .held)) ∧
  (∀ (q : Rq) (w : Word) (s : State), Sent q SNK_RRA_CTRL SNK_RRA_CTRL_fs (rraWord 1 w) s → s.get SNK_RRA_RESULT_busy = 0 →
      (rraRouted 1 (wrote q SNK_RRA_CTRL SNK_RRA_CTRL_fs (rraWord 1 w) s)).2 = .notReady → exec (.rraRead q w) s = .next
      (completed q SNK_RRA_CTRL true .notReady ((rraEnd .notReady (sameSeq (request q SNK_RRA_CTRL s) ((rraRouted 1 (wrote q
      SNK_RRA_CTRL SNK_RRA_CTRL_fs (rraWord 1 w) s)).1.wr SNK_RRA_CTRL (s.rd SNK_RRA_CTRL)))).ret .notReady))) ∧
  (∀ (q : Rq) (w : Word) (s : State), Sent q SNK_RRA_CTRL SNK_RRA_CTRL_fs (rraWord 1 w) s → s.get SNK_RRA_RESULT_busy = 0 →
      (rraRouted 1 (wrote q SNK_RRA_CTRL SNK_RRA_CTRL_fs (rraWord 1 w) s)).2 = .capacity → (rraRouted 1 (wrote q SNK_RRA_CTRL
      SNK_RRA_CTRL_fs (rraWord 1 w) s)).1.get SNK_ADDR_conflict = 1 → exec (.rraRead q w) s = .next (completed q SNK_RRA_CTRL
      true .notReady ((rraEnd .notReady (sameSeq (request q SNK_RRA_CTRL s) ((rraRouted 1 (wrote q SNK_RRA_CTRL SNK_RRA_CTRL_fs
      (rraWord 1 w) s)).1.wr SNK_RRA_CTRL (s.rd SNK_RRA_CTRL)))).ret .notReady))) ∧
  (∀ (q : Rq) (w : Word) (s : State), Sent q SNK_RRA_CTRL SNK_RRA_CTRL_fs (rraWord 1 w) s → s.get SNK_RRA_RESULT_busy = 0 →
      (rraRouted 1 (wrote q SNK_RRA_CTRL SNK_RRA_CTRL_fs (rraWord 1 w) s)).2 = .capacity → (rraRouted 1 (wrote q SNK_RRA_CTRL
      SNK_RRA_CTRL_fs (rraWord 1 w) s)).1.get SNK_ADDR_conflict = 0 → exec (.rraRead q w) s = .next ((rraEnd .aborted (sameSeq
      (request q SNK_RRA_CTRL s) ((rraRouted 1 (wrote q SNK_RRA_CTRL SNK_RRA_CTRL_fs (rraWord 1 w) s)).1.wr SNK_RRA_CTRL (s.rd
      SNK_RRA_CTRL)))).ret .aborted)) ∧
  (∀ (q : Rq) (w : Word) (s : State), Sent q SNK_RRA_CTRL SNK_RRA_CTRL_fs (rraWord 1 w) s → s.get SNK_RRA_RESULT_busy = 1 → exec
      (.rraRead q w) s = .next (completed q SNK_RRA_CTRL true .state ((request q SNK_RRA_CTRL s).ret .state))) ∧
  (∀ (l : Fin 10) (c : List Byte) (s : State), CrateHeard l s → WellMade c → cType c = 4 → cBcast c = false → cDst c = ownAddr s
      → s.snk.rra = some (cSeq c, cSrc c, true) → exec (.rreplyRx l c) s = .next (rraEnd (Code.read (cb c 8)) (((forN (min
      ((cLen c - 4) / 4) 32) (fun j s => s.wr (SNK_RRA_DATA j) (wordAt (crateOf c) (12 + 4 * j))) s).set SNK_RRA_RESULT_index
      (cb (crateOf c) 9)).set SNK_RRA_RESULT_stale (cb (crateOf c) 10 % 2)))) ∧
  (∀ (l : Fin 10) (c : List Byte) (s : State), CrateHeard l s → WellMade c → cType c = 4 → cBcast c = false → cDst c = ownAddr s
      → s.snk.rra = none → exec (.rreplyRx l c) s = .next (s.addSat SNK_DISC_late 1)) ∧
  (∀ (s : State), s.snk.rra ≠ none → snkHeld s = false → exec .rraTimeout s = .next (rraEnd .timeout s)) ∧
  (∀ (q : Rq) (w : Word) (s : State), Sent q SNK_ADDR SNK_ADDR_fs w s → s.chg w SNK_ADDR_addr = true → exec (.snkAddrWrite q w)
      s = .next ((sendHellos ((((request q SNK_ADDR s).set SNK_ADDR_addr (wf w SNK_ADDR_addr)).set SNK_ADDR_mode 1).set
      SNK_ADDR_conflict 0)).ret .done)) ∧
  (∀ (q : Rq) (s : State), Reads q SNK_DISC s → exec (.snkDiscRead q) s = .next (((request q SNK_DISC s).retData
      [s.rd SNK_DISC]).wr SNK_DISC 0)) ∧
  (∀ (q : Rq) (c : Fin 4) (s : State), Reads q (SNK_DROP c) s → exec (.snkDropRead q c) s = .next (((request q (SNK_DROP c)
      s).retData [s.rd (SNK_DROP c)]).wr (SNK_DROP c) 0)) ∧
  (∀ (l : Fin 10) (s : State), canEnd l s = true → s.snk.after = none → exec (.crateSent l) s = .next (linkSent l s)) ∧
  (∀ (l : Fin 10) (e : QEnt) (a : Bool × Nat × Word) (s : State), canEnd l s = true → (snkLink l s).cur = some e → e.own = some
      9 → s.snk.after = some a → (snkLink l s).q = [] → exec (.crateSent l) s = .next (wrCmdReset a.2.2 (updSnk (fun k =>
      { k with after := none }) (updLink l (fun k => { k with cur := none, pos := 0 }) s))))

/-- Where the write reaches its register: enabling with a fixed address leads to SOLO with closed gates, and is REFUSED_STATE
with an auto one; disabling leads to OFF except in STANDBY; SWITCH in ACTIVE with a ready partner is HELD with the yield, with
another partner REFUSED_NOT_READY, elsewhere REFUSED_STATE. The partner's heartbeat updates the status and the role; with the
partner lost a STANDBY takes over; the loss of one path raises PAIR_LINK and leaves the role; the yield's and the SOLO limit
make the device ACTIVE. Conventions of the model that a clause may rest on: log 104. (R489, R490, R491, R492.) -/
def Obligations.RedundantPair : Prop :=
  (∀ (q : Rq) (w : Word) (s : State), Sent q SNK_PAIR_CTRL SNK_PAIR_CTRL_fs (force w SNK_PAIR_CTRL_en 1) s → s.get
      SNK_PAIR_CTRL_en = 0 → s.get SNK_ADDR_mode = 1 → exec (.pairEnable q w) s = .next ((setRole 1 (wrote q SNK_PAIR_CTRL
      SNK_PAIR_CTRL_fs (force w SNK_PAIR_CTRL_en 1) s)).ret .done)) ∧
  (∀ (q : Rq) (w : Word) (s : State), Sent q SNK_PAIR_CTRL SNK_PAIR_CTRL_fs (force w SNK_PAIR_CTRL_en 1) s → s.get
      SNK_PAIR_CTRL_en = 0 → s.get SNK_ADDR_mode = 0 → exec (.pairEnable q w) s = .next (completed q SNK_PAIR_CTRL true .state
      ((request q SNK_PAIR_CTRL s).ret .state))) ∧
  (∀ (q : Rq) (s : State), Sent q SNK_PAIR_CTRL SNK_PAIR_CTRL_fs (force (s.rd SNK_PAIR_CTRL) SNK_PAIR_CTRL_en 0) s → s.get
      SNK_PAIR_CTRL_en = 1 → s.get SNK_PAIR_STAT_role ≠ 3 → exec (.pairDisable q (s.rd SNK_PAIR_CTRL)) s = .next ((setRole 0
      (partnerGone (wrote q SNK_PAIR_CTRL SNK_PAIR_CTRL_fs (force (s.rd SNK_PAIR_CTRL) SNK_PAIR_CTRL_en 0) s))).ret .done)) ∧
  (∀ (q : Rq) (w : Word) (s : State), Sent q SNK_PAIR_CTRL SNK_PAIR_CTRL_fs (force w SNK_PAIR_CTRL_en 0) s → s.get
      SNK_PAIR_CTRL_en = 1 → s.get SNK_PAIR_STAT_role = 3 → exec (.pairDisable q w) s = .next (completed q SNK_PAIR_CTRL true
      .state ((request q SNK_PAIR_CTRL s).ret .state))) ∧
  (∀ (s : State), snkHeld s = false → s.get SNK_PAIR_CTRL_en = 1 → s.get SNK_PAIR_CTRL_hb_lane_en = 0 → linkRuns 8 s = true →
      exec .heartbeatTimer s = .next (push 8 (originate (mkCrate 6 0 (s.get SNK_PAIR_CTRL_partner) 1
      ([s.get SNK_PAIR_STAT_role, (pairFault s).toNat + 2 * (decide (s.get SNK_PAIR_STAT_role = 3) && !pairFault s).toNat + 4 * (decide (s.snk.yieldW ≠ 0)).toNat, s.get SNK_PAIR_CTRL_pref, 0].map
      (BitVec.ofNat 8) ++ leBytes 4 s.snk.hb)) (updSnk (fun k => { k with hb := (k.hb + 1) % 2 ^ 32 }) s)).2 (originate (mkCrate
      6 0 (s.get SNK_PAIR_CTRL_partner) 1
      ([s.get SNK_PAIR_STAT_role, (pairFault s).toNat + 2 * (decide (s.get SNK_PAIR_STAT_role = 3) && !pairFault s).toNat + 4 * (decide (s.snk.yieldW ≠ 0)).toNat, s.get SNK_PAIR_CTRL_pref, 0].map
      (BitVec.ofNat 8) ++ leBytes 4 s.snk.hb)) (updSnk (fun k => { k with hb := (k.hb + 1) % 2 ^ 32 }) s)).1)) ∧
  (∀ (l : Fin 10) (c : List Byte) (s : State), CrateHeard l s → WellMade c → cType c = 6 → s.get SNK_PAIR_CTRL_en = 1 → cSrc c =
      s.get SNK_PAIR_CTRL_partner → l = 8 → exec (.heartbeatRx l c) s = .next (pairStep l (cb (crateOf c) 8 % 4) (cb (crateOf c)
      10 % 2) (decide (cb (crateOf c) 9 % 2 = 1)) (decide (cb (crateOf c) 9 / 4 % 2 = 1)) (heartSeen l (crateOf c) s))) ∧
  (∀ (s : State), snkHeld s = false → s.get SNK_PAIR_CTRL_en = 1 → exec .partnerLost s = .next (if s.get SNK_PAIR_STAT_role = 3
      then takeOver (partnerGone s) else partnerGone s)) ∧
  (∀ (s : State), snkHeld s = false → s.get SNK_PAIR_CTRL_en = 1 → s.get SNK_PAIR_STAT_lane_ok = 1 → s.get SNK_PAIR_STAT_fab_ok
      = 1 → exec (.pairPathLoss true) s = .next (snkEvt 7 (s.set SNK_PAIR_STAT_lane_ok 0)) ∧
      exec (.pairPathLoss false) s = .next (snkEvt 7 (s.set SNK_PAIR_STAT_fab_ok 0))) ∧
  (∀ (q : Rq) (s : State), Sent q SNK_PAIR_CMD SNK_PAIR_CMD_fs (force 0 SNK_PAIR_CMD_op 1) s → s.get SNK_PAIR_STAT_role = 2 →
      s.get SNK_PAIR_STAT_p_ready = 1 → exec (.pairSwitch q) s = .next (((pairYield 2 (wrote q SNK_PAIR_CMD SNK_PAIR_CMD_fs
      (force 0 SNK_PAIR_CMD_op 1) s)).set SNK_PAIR_STAT_outcome Code.held.n).ret .held)) ∧
  (∀ (q : Rq) (s : State), Sent q SNK_PAIR_CMD SNK_PAIR_CMD_fs (force 0 SNK_PAIR_CMD_op 1) s → s.get SNK_PAIR_STAT_role = 2 →
      s.get SNK_PAIR_STAT_p_ready = 0 → exec (.pairSwitch q) s = .next (completed q SNK_PAIR_CMD true .notReady (((request q
      SNK_PAIR_CMD s).set SNK_PAIR_STAT_outcome Code.notReady.n).ret .notReady))) ∧
  (∀ (q : Rq) (s : State), Sent q SNK_PAIR_CMD SNK_PAIR_CMD_fs (force 0 SNK_PAIR_CMD_op 1) s → s.get SNK_PAIR_STAT_role ≠ 2 →
      s.snk.yieldW ≠ 2 → exec (.pairSwitch q) s = .next (completed q SNK_PAIR_CMD true .state (((request q SNK_PAIR_CMD s).set
      SNK_PAIR_STAT_outcome Code.state.n).ret .state))) ∧
  (∀ (s : State), snkHeld s = false → s.snk.yieldW = 2 → exec .yieldTimeout s = .next (setRole 2 (updSnk (fun k =>
      { k with yieldW := 0 }) (s.set SNK_PAIR_STAT_outcome Code.timeout.n)))) ∧
  (∀ (s : State), snkHeld s = false → s.get SNK_PAIR_STAT_role = 1 → exec .soloTimeout s = .next (setRole 2 s))

/-- While the interface answers: bytes 126 and 127 select bank and page, page 0xB1 takes bytes, and the write of byte 133 on
page 0xB0 runs a read or a write of 1 to 32 words, with ERR_ALIGN or ERR_RANGE for another address, count or operation, or waits
where its port has no clock; the CMIS agent's interrupt flags follow a write to its pages. The hatch's bus reads return what the
bus returns, its bus writes take effect at FULL and are refused and logged at NARROW. The remote-access engine serves the
request at its front and answers it, without an access where address or count are wrong. With HATCH_CORE available: HALT of a
running core in a wait halts it, else it is HELD until the next boundary, and ends REFUSED_STATE for another core; RESUME starts
a halted core; STEP of a halted core runs the instruction at its pc; a halted core's general registers and pc are read and
written, its vector registers and listed CSRs where it has them. SC's registers and its halt zeroise the secrets first.
Conventions of the model that a clause may rest on: log 113, 116, 117, 118, 119, 120, 172, 174. (R454, R455, R486, R559, R458.)
-/
def Obligations.OutsideAccesses : Prop :=
  (∀ (v : Byte) (flag : Bool) (s : State), mgmtAlive s = true → ownHeld s = false → exec (.mgmtPageWrite 126 v flag) s = .next
      (updOwn (fun o => { o with bank := v.toNat }) s) ∧
      exec (.mgmtPageWrite 127 v flag) s = .next (updOwn (fun o => { o with page := v.toNat }) s)) ∧
  (∀ (b v : Byte) (flag : Bool) (s : State), PageOf 0xB1 s → 128 ≤ b.toNat → exec (.mgmtPageWrite b v flag) s = .next (updOwn
      (fun o => { o with b1 := upd o.b1 (b.toNat - 128) fun _ => v }) s)) ∧
  (∀ (b v : Byte) (flag : Bool) (s : State), PageOf 0xB0 s → 128 ≤ b.toNat → b.toNat ≤ 132 → exec (.mgmtPageWrite b v flag) s =
      .next (b0Set (b.toNat - 128) v.toNat s)) ∧
  (∀ (s : State), PageOf 0xB0 s → rqWaits .host (winAt (b0Set 5 1 s)) (b0Set 5 1 s) = false → winAt (b0Set 5 1 s) % 4 = 0 → (1 ≤
      winCount (b0Set 5 1 s) ∧ winCount (b0Set 5 1 s) ≤ 32) → nth (b0Set 5 1 s).own.b0 5 = 1 → (winRead (b0Set 5 1 s)).2.1 =
      .done → exec (.mgmtWindowTransaction 1) s = .next ((b0Set 7 0 (updOwn (fun o =>
      { o with b1 := (winRead (b0Set 5 1 s)).2.2.2 ++ o.b1.drop (winRead (b0Set 5 1 s)).2.2.2.length }) (winRead (b0Set 5 1
      s)).1)).ret .done)) ∧
  (∀ (s : State), PageOf 0xB0 s → rqWaits .host (winAt (b0Set 5 2 s)) (b0Set 5 2 s) = false → winAt (b0Set 5 2 s) % 4 = 0 → (1 ≤
      winCount (b0Set 5 2 s) ∧ winCount (b0Set 5 2 s) ≤ 32) → nth (b0Set 5 2 s).own.b0 5 = 2 → (winWrite (b0Set 5 2 s)).2.1 =
      .done → exec (.mgmtWindowTransaction 2) s = .next ((b0Set 7 0 (winWrite (b0Set 5 2 s)).1).ret .done)) ∧
  (∀ (v : Byte) (s : State), PageOf 0xB0 s → rqWaits .host (winAt (b0Set 5 v.toNat s)) (b0Set 5 v.toNat s) = false → winAt
      (b0Set 5 v.toNat s) % 4 ≠ 0 → exec (.mgmtWindowTransaction v) s = .next (b0Set 8 0 ((b0Set 7 Code.align.n (b0Set 5 v.toNat
      s)).ret .align))) ∧
  (∀ (v : Byte) (s : State), PageOf 0xB0 s → rqWaits .host (winAt (b0Set 5 v.toNat s)) (b0Set 5 v.toNat s) = false → winAt
      (b0Set 5 v.toNat s) % 4 = 0 → (winCount (b0Set 5 v.toNat s) = 0 ∨ 32 < winCount (b0Set 5 v.toNat s)) → exec
      (.mgmtWindowTransaction v) s = .next (b0Set 8 0 ((b0Set 7 Code.range.n (b0Set 5 v.toNat s)).ret .range))) ∧
  (∀ (v : Byte) (s : State), PageOf 0xB0 s → rqWaits .host (winAt (b0Set 5 v.toNat s)) (b0Set 5 v.toNat s) = true → exec
      (.mgmtWindowTransaction v) s = .next (park .window (b0Set 5 v.toNat s))) ∧
  (∀ (v : Byte) (flag : Bool) (s : State), PageOf 0x10 s → (scRuns s = true ∧ scInRom s = false ∧ inSwap 12 s = false) →
      s.own.bank = 0 → exec (.mgmtPageWrite 200 v flag) s = .next (sendIbi (flag && !s.own.cmis) (updOwn (fun o =>
      { o with cmis := flag }) s))) ∧
  (∀ (a : Word) (s : State), ownHeld s = false → hatchCan 0x20 (extestEnd s) = true → rqWaits .hatch a.toNat (hatchIn 0x20 s) =
      false → (busRead .hatch a.toNat 4 (hatchIn 0x20 s)).2.2.length = 4 → exec (.hatchBusRead a) s = .next
      { updOwn (fun o => { o with bus := (a, BitVec.ofNat 32 (leVal (busRead .hatch a.toNat 4 (hatchIn 0x20 s)).2.2), false, (busRead .hatch a.toNat 4 (hatchIn 0x20 s)).2.1) }) (busRead .hatch a.toNat 4 (hatchIn 0x20 s)).1 with reply := ⟨(busRead .hatch a.toNat 4 (hatchIn 0x20 s)).2.1, [BitVec.ofNat 32 (leVal (busRead .hatch a.toNat 4 (hatchIn 0x20 s)).2.2)]⟩ })
      ∧
  (∀ (a w : Word) (s : State), ownHeld s = false → hatchCan 0x20 (extestEnd s) = true → (hatchIn 0x20 s).get
      OWN_HATCH_STAT_level = 2 → rqWaits .hatch a.toNat (hatchIn 0x20 s) = false → exec (.hatchBusWrite a w) s = .next ((updOwn
      (fun o => { o with bus := (a, 0, true, (busWrite .hatch a.toNat (leBytes 4 w.toNat) (hatchIn 0x20 s)).2.getD .done) })
      (busWrite .hatch a.toNat (leBytes 4 w.toNat) (hatchIn 0x20 s)).1).ret ((busWrite .hatch a.toNat (leBytes 4 w.toNat)
      (hatchIn 0x20 s)).2.getD .done))) ∧
  (∀ (a w : Word) (s : State), ownHeld s = false → hatchCan 0x20 (extestEnd s) = true → (hatchIn 0x20 s).get
      OWN_HATCH_STAT_level = 1 → inSecret a.toNat (hatchIn 0x20 s) = false → exec (.hatchBusWrite a w) s = .next ((updOwn (fun o
      => { o with bus := (a, 0, true, .notOwner) }) (logRefusal .hatch a.toNat .notOwner (hatchIn 0x20 s))).ret .notOwner)) ∧
  (∀ (stale : Bool) (c : List Byte) (s : State), reqFront 2 s = some c → reqCode c = .done → exec (.remoteRead stale) s = .next
      (reqAnswer c (reqReads c s).2.1 (reqReads c s).2.2.1 stale (reqReads c s).2.2.2 none (reqReads c s).1)) ∧
  (∀ (stale : Bool) (c : List Byte) (s : State), reqFront 3 s = some c → reqCode c = .done → exec (.remoteWrite stale) s = .next
      (reqAnswer c (reqWrites c s).2.1 (reqWrites c s).2.2 stale [] (if (reqWrites c s).1.snk.after.isSome then some 9 else
      none) (reqWrites c s).1)) ∧
  (∀ (stale : Bool) (c : List Byte) (s : State), reqFront 2 s = some c → reqCode c ≠ .done → exec (.remoteRead stale) s = .next
      (reqAnswer c (reqCode c) 0 false [] none s)) ∧
  (∀ (c : Fin 13) (s : State), ownHeld s = false → hatchCan 0x21 (extestEnd s) = true → coreState c (hatchCoreAt c s) = 1 → exec
      (.hatchCoreHalt c) s = .next (if inWait c (hatchCoreAt c s) then (coreHalted c (hatchCoreAt c s)).ret .done else (updCpu c
      (fun k => { k with haltReq := if k.haltReq = 0 then 2 else k.haltReq }) (hatchCoreAt c s)).ret .held)) ∧
  (∀ (c : Fin 13) (s : State), ownHeld s = false → hatchCan 0x21 (extestEnd s) = true → coreState c (hatchCoreAt c s) ≠ 1 → exec
      (.hatchCoreHalt c) s = .next ((hatchCoreAt c s).ret .state)) ∧
  (∀ (c : Fin 13) (s : State), ownHeld s = false → hatchCan 0x21 (extestEnd s) = true → coreState c (hatchIn 0x21 s) = 2 → exec
      (.hatchCoreResume c) s = .next (((hatchIn 0x21 s).set (OWN_CORE_STAT_state c) 1).ret .done)) ∧
  (∀ (c : Fin 13) (pins : BitVec 11) (s : State), ownHeld s = false → hatchCan 0x21 (extestEnd s) = true → coreState c (hatchIn
      0x21 s) = 2 → (fullHeld (hatchIn 0x21 s) = false ∧ (hatchIn 0x21 s).rst.wide = false ∧ (hatchIn 0x21 s).stop = false ∧
      (hatchIn 0x21 s).get CRP_CLK_STAT_sys_gated = 0) → (fetch c (stepFrom c s)).2.1 = .done → exec (.hatchCoreStep c pins) s =
      .next ((runWord c (fetch c (stepFrom c s)).2.2 pins.toNat (fetch c (stepFrom c s)).1).ret .done)) ∧
  (∀ (c : Fin 13) (i : Fin 32) (v : Word) (s : State), ownHeld s = false → hatchCan 0x21 (extestEnd s) = true → coreState c
      (hatchCoreAt c s) = 2 → exec (.hatchCoreRegAccess c (.gpr i) none) s = .next ((hatchCoreAt c s).retData
      [getW c i (hatchCoreAt c s)]) ∧
      exec (.hatchCoreRegAccess c (.gpr i) (some [v])) s = .next ((setW c i v (hatchCoreAt c s)).ret .done) ∧
      exec (.hatchCoreRegAccess c .pc none) s = .next ((hatchCoreAt c s).retData [((hatchCoreAt c s).cpu c).pc]) ∧
      exec (.hatchCoreRegAccess c .pc (some [v])) s = .next ((updCpu c (fun k => { k with pc := v }) (hatchCoreAt c s)).ret
      .done)) ∧
  (∀ (c : Fin 13) (i : Fin 16) (s : State), ownHeld s = false → hatchCan 0x21 (extestEnd s) = true → coreState c (hatchCoreAt c
      s) = 2 → exec (.hatchCoreRegAccess c (.vec i) none) s = .next (if c < 8 then (hatchCoreAt c s).retData (getV c i
      (hatchCoreAt c s)) else (hatchCoreAt c s).ret .range)) ∧
  (∀ (c : Fin 13) (n : BitVec 12) (v : Word) (s : State), ownHeld s = false → hatchCan 0x21 (extestEnd s) = true → coreState c
      (hatchCoreAt c s) = 2 → csrListed n.toNat = true → n.toNat / 1024 ≠ 2 → n.toNat / 512 % 2 = 0 → exec (.hatchCoreRegAccess
      c (.csr n) none) s = .next ((csrRead c n.toNat (hatchCoreAt c s)).1.retData [(csrRead c n.toNat (hatchCoreAt c s)).2]) ∧
      exec (.hatchCoreRegAccess c (.csr n) (some [v])) s = .next ((csrWrite c n.toNat v (hatchCoreAt c s)).ret .done))

/-- Where the write reaches the register of a core other than SC: the boot shelf is stored; START from RESET with a checked boot
shelf runs the core at its image's entry, with registers at reset and the port open, and ends REFUSED_STATE else; HALT of a
running core halts it in a wait and is HELD until its next boundary else, where the halt ends it DONE; RESUME runs a halted
core; RESET leads to RESET with the swap disarmed and the port fenced. Commands to SC end ERR_RANGE. Where the write reaches its
register: LOAD of an image that lies in the system SRAM at a multiple of 8 is HELD, unchecks its target shelf (the boot shelf of
a core in RESET, else the idle one) and copies data only for a core in RESET; a misaligned source ends ERR_ALIGN, an image or
core outside ERR_RANGE, a second LOAD, an armed swap, the attic's read or the safe hold REFUSED_STATE. The load's end reports
the first failing check: an unreadable header or ERR_RANGE at step 1, the body's hash at step 2, key and signature at step 3; an
image that passes all is written and its shelf checked. After the end of its own LOAD the boot ROM arms shelf A and waits for
the swap, or tries the next directory. Conventions of the model that a clause may rest on: log 84, 111, 113, 129, 159, 163.
(R313, R308, R315, R316, R406.) -/
def Obligations.CoresAndLoader : Prop :=
  (∀ (q : Rq) (c : Fin 13) (b : Bool) (s : State), Sent q (OWN_CORE_CTRL c) OWN_CORE_CTRL_fs (coreWord c 0 b) s → exec
      (.coreBootShelfSet q c b) s = .next ((coreAsked q c 0 b s).ret .done)) ∧
  (∀ (q : Rq) (c : Fin 13) (b : Bool) (s : State), Sent q (OWN_CORE_CTRL c) OWN_CORE_CTRL_fs (coreWord c 1 b) s → c ≠ 12 →
      coreState c s = 0 → s.get (chkFd c b.toNat) = 1 → exec (.coreStart q c b) s = .next (coreEnd c 1 .done (coreStarted c
      b.toNat (coreAsked q c 1 b s)))) ∧
  (∀ (q : Rq) (c : Fin 13) (b : Bool) (s : State), Sent q (OWN_CORE_CTRL c) OWN_CORE_CTRL_fs (coreWord c 1 b) s → c ≠ 12 →
      (coreState c s ≠ 0 ∨ s.get (chkFd c b.toNat) = 0) → exec (.coreStart q c b) s = .next (completed q (OWN_CORE_CTRL c) true
      .state (coreEnd c 1 .state (coreAsked q c 1 b s)))) ∧
  (∀ (q : Rq) (b : Bool) (s : State), Sent q (OWN_CORE_CTRL 12) OWN_CORE_CTRL_fs (coreWord 12 1 b) s → exec (.coreStart q 12 b)
      s = .next (coreEnd 12 1 .range (coreAsked q 12 1 b s))) ∧
  (∀ (q : Rq) (c : Fin 13) (b : Bool) (s : State), Sent q (OWN_CORE_CTRL c) OWN_CORE_CTRL_fs (coreWord c 2 b) s → c ≠ 12 →
      coreState c s = 1 → exec (.coreHalt q c b) s = .next (if inWait c s then coreEnd c 2 .done (coreHalted c (coreAsked q c 2
      b s)) else coreEnd c 2 .held (updCpu c (fun k => { k with haltReq := 1 }) (coreAsked q c 2 b s)))) ∧
  (∀ (q : Rq) (c : Fin 13) (b : Bool) (s : State), Sent q (OWN_CORE_CTRL c) OWN_CORE_CTRL_fs (coreWord c 2 b) s → c ≠ 12 →
      coreState c s ≠ 1 → exec (.coreHalt q c b) s = .next (completed q (OWN_CORE_CTRL c) true .state (coreEnd c 2 .state
      (coreAsked q c 2 b s)))) ∧
  (∀ (c : Fin 13) (s : State), coreState c s = 1 → inSwap c s = false → (s.cpu c).haltReq = 1 → exec (.coreHaltDone c) s = .next
      (((coreHalted c s).set (OWN_CORE_RESULT_outcome c) Code.done.n).set (OWN_CORE_RESULT_op c) 2)) ∧
  (∀ (q : Rq) (c : Fin 13) (b : Bool) (s : State), Sent q (OWN_CORE_CTRL c) OWN_CORE_CTRL_fs (coreWord c 3 b) s → c ≠ 12 →
      coreState c s = 2 → exec (.coreResume q c b) s = .next (coreEnd c 3 .done ((coreAsked q c 3 b s).set (OWN_CORE_STAT_state
      c) 1))) ∧
  (∀ (q : Rq) (c : Fin 13) (b : Bool) (s : State), Sent q (OWN_CORE_CTRL c) OWN_CORE_CTRL_fs (coreWord c 3 b) s → c ≠ 12 →
      coreState c s ≠ 2 → exec (.coreResume q c b) s = .next (completed q (OWN_CORE_CTRL c) true .state (coreEnd c 3 .state
      (coreAsked q c 3 b s)))) ∧
  (∀ (q : Rq) (c : Fin 13) (b : Bool) (s : State), Sent q (OWN_CORE_CTRL c) OWN_CORE_CTRL_fs (coreWord c 4 b) s → c ≠ 12 → exec
      (.coreReset q c b) s = .next (coreEnd c 4 .done (coreToReset c (coreAsked q c 4 b s)))) ∧
  (∀ (q : Rq) (c : Fin 16) (s : State), Sent q OWN_LD_CMD OWN_LD_CMD_fs (loadWord c) s → s.get OWN_LD_SRC_addr % 8 = 0 → c ≤ 12
      → imageFits (s.get OWN_LD_SRC_addr) (loadSeen q s) = true → (loadSeen q s).load = none → ((loadSeen q s).rst.atticBusy =
      false ∧ (loadSeen q s).get CRP_ATTIC_STAT_hold = 0) → (loadSeen q s).get (OWN_CORE_STAT_armed c) = 0 → coreState c
      (loadSeen q s) = 0 → exec (.loaderLoad q c) s = .next (loadHeld c ((loadSeen q s).get (OWN_CORE_CTRL_boot_shelf c)) (s.get
      OWN_LD_SRC_addr) true (loadSeen q s))) ∧
  (∀ (q : Rq) (c : Fin 16) (s : State), Sent q OWN_LD_CMD OWN_LD_CMD_fs (loadWord c) s → s.get OWN_LD_SRC_addr % 8 = 0 → c < 12
      → imageFits (s.get OWN_LD_SRC_addr) (loadSeen q s) = true → (loadSeen q s).load = none → ((loadSeen q s).rst.atticBusy =
      false ∧ (loadSeen q s).get CRP_ATTIC_STAT_hold = 0) → (loadSeen q s).get (OWN_CORE_STAT_armed c) = 0 → coreState c
      (loadSeen q s) ≠ 0 → exec (.loaderLoad q c) s = .next (loadHeld c (idleShelf c (loadSeen q s)) (s.get OWN_LD_SRC_addr)
      false (loadSeen q s))) ∧
  (∀ (q : Rq) (c : Fin 16) (s : State), Sent q OWN_LD_CMD OWN_LD_CMD_fs (loadWord c) s → s.get OWN_LD_SRC_addr % 8 ≠ 0 → exec
      (.loaderLoad q c) s = .next (loadNow .align (request q OWN_LD_CMD s))) ∧
  (∀ (q : Rq) (c : Fin 16) (s : State), Sent q OWN_LD_CMD OWN_LD_CMD_fs (loadWord c) s → s.get OWN_LD_SRC_addr % 8 = 0 → (12 < c
      ∨ imageFits (s.get OWN_LD_SRC_addr) (loadSeen q s) = false) → exec (.loaderLoad q c) s = .next (loadNow .range (loadSeen q
      s))) ∧
  (∀ (q : Rq) (c : Fin 16) (s : State), Sent q OWN_LD_CMD OWN_LD_CMD_fs (loadWord c) s → s.get OWN_LD_SRC_addr % 8 = 0 → c ≤ 12
      → imageFits (s.get OWN_LD_SRC_addr) (loadSeen q s) = true → ((loadSeen q s).load ≠ none ∨ (loadSeen q s).get
      (OWN_CORE_STAT_armed c) = 1 ∨ (loadSeen q s).rst.atticBusy = true ∨ (loadSeen q s).get CRP_ATTIC_STAT_hold = 1) → exec
      (.loaderLoad q c) s = .next (completed q OWN_LD_CMD true .state (loadNow .state (loadSeen q s)))) ∧
  (∀ (l : Load) (s : State), s.load = some l → (romLoads s = false ∧ romAt 2 s = false) → (loadHdr l s).2.1 ≠ .done → exec
      .loadComplete s = .next (loadFail l (loadHdr l s).2.1 1 (loadHdr l s).1)) ∧
  (∀ (l : Load) (s : State), s.load = some l → (romLoads s = false ∧ romAt 2 s = false) → (loadHdr l s).2.1 = .done → imageOk
      l.c ((loadHdr l s).1.rd (OWN_LD_FLOOR (imgClass l.c))).toNat (loadHdr l s).2.2 = false → exec .loadComplete s = .next
      (loadFail l .range 1 (loadHdr l s).1)) ∧
  (∀ (l : Load) (s : State), s.load = some l → (romLoads s = false ∧ romAt 2 s = false) → (loadHdr l s).2.1 = .done → imageOk
      l.c ((loadHdr l s).1.rd (OWN_LD_FLOOR (imgClass l.c))).toNat (loadHdr l s).2.2 = true → (loadBody l s).2.1 = .done →
      (loadKey l s).2.1 = .done → exec .loadComplete s = .next (
      if Config.shake256 64 (loadBody l s).2.2 ≠ ((loadHdr l s).2.2.drop 0x40).take 64 then loadFail l .signature 2 (loadBody l
      s).1
      else if sigOk (loadHdr l s).2.2 (loadKey l s).2.2 (loadKey l s).1 = false then loadFail l .signature 3 (loadKey l s).1
      else loadWrite l (loadHdr l s).2.2 ((loadBody l s).2.2.take (hdrF (loadHdr l s).2.2 0xC 4)) ((loadBody l s).2.2.drop (hdrF
      (loadHdr l s).2.2 0xC 4)) (loadKey l s).1)) ∧
  (∀ (l : Load) (s : State), s.load = some l → (romLoads s = false ∧ romAt 2 s = false) → (loadHdr l s).2.1 = .done → imageOk
      l.c ((loadHdr l s).1.rd (OWN_LD_FLOOR (imgClass l.c))).toNat (loadHdr l s).2.2 = true → (loadBody l s).2.1 ≠ .done → exec
      .loadComplete s = .next (loadFail l (loadBody l s).2.1 2 (loadBody l s).1)) ∧
  (∀ (s : State), romLoads s = true → exec .loadComplete s = .next
      (let t := (loadComplete s).set CRP_BOOT_STAT_outcome ((loadComplete s).get OWN_LD_RESULT_outcome); if (loadComplete s).get OWN_LD_RESULT_outcome = Code.done.n then updCpu 12 (fun k => { k with wait := .swap 0 }) (((t.set CRP_BOOT_STAT_stage 4).set (OWN_CORE_STAT_armed 12) 1).set (OWN_CORE_STAT_fenced 12) 1) else romTries (romRest ((loadComplete s).get CRP_BOOT_STAT_dir) t) t))

/-- Where the write reaches its register, a software event from 8 on is raised and one below ends ERR_RANGE; the watchdog's key
starts its interval and another value is counted; the first interval's end raises the watchdog's event and starts the second. A
counter at its largest value wraps to 0, sets ovf and, where its interrupt is enabled, raises its event; a read of a system
counter's low half latches the high one. Conventions of the model that a clause may rest on: log 81, 85, 140, 173. (R294, R327,
R329, R330, R333, R334.) -/
def Obligations.EventsAndCounters : Prop :=
  (∀ (q : Rq) (w : Word) (s : State), Sent q EVR_RAISE [] w s → 8 ≤ wf w EVR_RAISE_event → exec (.softwareEventRaise q w) s =
      .next (((request q EVR_RAISE s).raise (wf w EVR_RAISE_event)).ret .done)) ∧
  (∀ (q : Rq) (w : Word) (s : State), Sent q EVR_RAISE [] w s → wf w EVR_RAISE_event < 8 → exec (.softwareEventRaise q w) s =
      .next ((request q EVR_RAISE s).ret .range)) ∧
  (∀ (q : Rq) (s : State), Sent q EVR_WDOG_KICK [] 0xA5C3 s → s.get EVR_WDOG_CTRL_en = 1 → exec (.wdogKick q 0xA5C3) s = .next
      ((wdStart (8 * s.get EVR_WDOG_CTRL_period) 0 (request q EVR_WDOG_KICK s)).ret .done)) ∧
  (∀ (q : Rq) (w : Word) (s : State), Sent q EVR_WDOG_KICK [] w s → w ≠ 0xA5C3 → exec (.wdogKick q w) s = .next (((request q
      EVR_WDOG_KICK s).addSat EVR_WDOG_STAT_bad_kicks 1).ret .range)) ∧
  (∀ (s : State), wdRuns s = true → s.get EVR_WDOG_STAT_second = 0 → exec .wdogExpire s = .next (wdStart (max 8 ((s.raise 7).get
      EVR_WDOG_CTRL_period)) 1 (s.raise 7))) ∧
  (∀ (c : Fin 13) (j : Fin 8) (s : State), (1 ≤ fieldOf (nth (s.cpu c).cntSel j) 0 6 ∧ fieldOf (nth (s.cpu c).cntSel j) 0 6 ≤
      13) → nth (s.cpu c).cnt j = 2 ^ 48 - 1 → bit (nth (s.cpu c).cntSel j) 28 = false → exec (.cntOverflow c j) s = .next
      (updCpu c (fun k => { k with cntSel := upd k.cntSel j fun w => w ||| 0x20000000 }) (updCpu c (fun k =>
      { k with cnt := upd k.cnt j fun _ => 0 }) s))) ∧
  (∀ (c : Fin 13) (j : Fin 8) (s : State), (1 ≤ fieldOf (nth (s.cpu c).cntSel j) 0 6 ∧ fieldOf (nth (s.cpu c).cntSel j) 0 6 ≤
      13) → nth (s.cpu c).cnt j = 2 ^ 48 - 1 → bit (nth (s.cpu c).cntSel j) 28 = true → (s.cpu c).cntSel.length = 8 → exec
      (.cntOverflow c j) s = .next ((cntWrap c j {} (updCpu c (fun k => { k with cnt := upd k.cnt j fun _ => 0 }) s)).1.raise (8
      + c))) ∧
  (∀ (j : Fin 32) (s : State), (1 ≤ s.get (PMC_SEL_evt j) ∧ s.get (PMC_SEL_evt j) ≤ 10) → nth s.pmc j = 2 ^ 48 - 1 → s.get
      (PMC_SEL_ovf_ie j) = 1 → exec (.pmcOverflow j) s = .next ((updPmc j (fun _ => 0) (s.set (PMC_SEL_ovf j) 1)).raise 21)) ∧
  (∀ (q : Rq) (j : Fin 32) (s : State), Reads q (PMC_CNT_L j) s → exec (.pmcCntLRead q j) s = .next (((request q (PMC_CNT_L j)
      s).wr (PMC_CNT_H j) (BitVec.ofNat 32 (nth (request q (PMC_CNT_L j) s).pmc j / 2 ^ 32))).retData
      [BitVec.ofNat 32 (nth (request q (PMC_CNT_L j) s).pmc j)]))

/-- An entry of a merge buffer whose time has come leaves the buffer and retires: a whole word is stored with good check bits,
and the stores that wait for it complete DONE. The fill's end leaves every byte 0. The scrubber leaves a clean word as it is,
writes one stored error back corrected, and records two. A waiting request is granted by the weights in turn; MEM_CORR clears on
read. A whole-word write of a register whose fields have no further effect stores them and completes DONE. A write of 1, 2, 4, 8
or 32 bytes into a shelf leaves the bus's state and code, or waits at a port without its clock. A posted store without a
completion that meets the time limit gets ERR_TIMEOUT, and a merge entry waits for it no longer; else the time limit is marked
for the requester's next access there. A stale reply to a core is counted and raises its event, one to a DMA channel marks its
descriptor. Conventions of the model that a clause may rest on: log 80, 82, 133, 172, 174. (R339, R340, R343, R344, R345, R347,
R6, R312, R322, R348, R354.) -/
def Obligations.MemoryAndBus : Prop :=
  (∀ (u : Fin 15) (i : Fin 8) (e : Merge) (s : State), (mergeOf u s)[i.val]? = some e → ((e.bytes.all fun b => b.isSome) = true)
      → exec (.mergeRetire u i) s = .next (mergeDone e.who .done false (eccWritten e.a ((setMerge u ((mergeOf u s).eraseIdx i)
      s).putBytes e.a ((List.range 8).map fun k => (nth e.bytes k).getD ((setMerge u ((mergeOf u s).eraseIdx i) s).byte (e.a +
      k))))))) ∧
  (∀ (s : State), s.rst.fillBusy = true → ∃ t, exec .memoryFillDone s = .next t ∧ t.mem = [] ∧ t.ecc = [] ∧ t.rst.fillBusy =
      false ∧ t.get MEM_FILL_STAT_done = 1 ∧ ∀ u : Fin 15, mergeOf u t = []) ∧
  (∀ (u : Fin 15) (s : State), (s.get (MEM_SCRUB_en u) = 1 ∧ s.rst.fillBusy = false ∧ s.stop = false ∧ blkHeld 29 s = false) →
      s.bst.slices = [] → (retireWord u (unitBase u + nth s.scrubPos u) s).eccAt (unitBase u + nth s.scrubPos u) = 0 → exec
      (.scrubRead u) s = .next (scrubMove u (nth s.scrubPos u) 8 (retireWord u (unitBase u + nth s.scrubPos u) s))) ∧
  (∀ (u : Fin 15) (s : State), (s.get (MEM_SCRUB_en u) = 1 ∧ s.rst.fillBusy = false ∧ s.stop = false ∧ blkHeld 29 s = false) →
      s.bst.slices = [] → (retireWord u (unitBase u + nth s.scrubPos u) s).eccAt (unitBase u + nth s.scrubPos u) = 1 → exec
      (.scrubRead u) s = .next (scrubMove u (nth s.scrubPos u) 8 (scrubFix u (unitBase u + nth s.scrubPos u) (retireWord u
      (unitBase u + nth s.scrubPos u) s)))) ∧
  (∀ (u : Fin 15) (s : State), (s.get (MEM_SCRUB_en u) = 1 ∧ s.rst.fillBusy = false ∧ s.stop = false ∧ blkHeld 29 s = false) →
      s.bst.slices = [] → (retireWord u (unitBase u + nth s.scrubPos u) s).eccAt (unitBase u + nth s.scrubPos u) = 2 → scMemory
      (unitBase u + nth s.scrubPos u) = false → exec (.scrubRead u) s = .next (scrubMove u (nth s.scrubPos u) 8 (ueEvt
      (eccRecord u 6 (unitBase u + nth s.scrubPos u) (retireWord u (unitBase u + nth s.scrubPos u) s))))) ∧
  (∀ (q : Rq) (s : State), Reads q MEM_CORR s → exec (.memCorrRead q) s = .next (((request q MEM_CORR s).retData
      [s.rd MEM_CORR]).wr MEM_CORR 0)) ∧
  (∀ (p : Nat) (waiting : List (Nat × Nat)) (x : Arb) (i m : Nat) (s : State), arbNext 9 (arbFind s.arb p) (arbWeights s)
      waiting = some (x, i, m) → exec (.arbGrant p waiting) s = .next
      { s with arb := arbPut s.arb p x, reply := ⟨.done, [BitVec.ofNat 32 i, BitVec.ofNat 32 m]⟩ }) ∧
  (∀ (q : Rq) (a : Nat) (w : Word) (s : State), a < 0x40900000 → region a = .regs → (writeHook q a w).isNone = true → Sent q a
      (regFields a) w s → exec (.registerWrite q a w) s = .next ((wrote q a (regFields a) w s).ret .done)) ∧
  (∀ (q : Rq) (c : Fin 13) (sh : Fin 2) (o : Nat) (bytes : List Byte) (s : State), o + bytes.length ≤ shelfSize c → (q ≠ .host ∨
      mgmtAlive s = true) → rqWaits q (shelfBase c sh + o) s = false → exec (.shelfWrite q c sh o bytes) s = .next ((busWrite q
      (shelfBase c sh + o) bytes s).1.ret ((busWrite q (shelfBase c sh + o) bytes s).2.getD .done))) ∧
  (∀ (q : Rq) (c : Fin 13) (sh : Fin 2) (o : Nat) (bytes : List Byte) (s : State), o + bytes.length ≤ shelfSize c → (q ≠ .host ∨
      mgmtAlive s = true) → rqWaits q (shelfBase c sh + o) s = true → exec (.shelfWrite q c sh o bytes) s = .next (park (.write
      q (shelfBase c sh + o) bytes) s)) ∧
  (∀ (c : Fin 14) (l : Lvl) (a : Nat) (p : Posted) (s : State), (s.cpu c).posted = [p] → p.sys = a → p.code = none → ∃ t, exec
      (.targetTimeout (.core c l) a) s = .next t ∧ (t.cpu c).posted = [{ p with code := some .timeout }] ∧ t.regs = s.regs ∧
      t.mem = s.mem) ∧
  (∀ (q : Rq) (a : Nat) (s : State), storeWaits q a s = false → (q, a) ∉ s.stuck → exec (.targetTimeout q a) s = .next
      { s with stuck := (q, a) :: s.stuck }) ∧
  (∀ (c : Nat) (l : Lvl) (a : Nat) (s : State), c < 13 → rqFenced (.core c l) s = false → exec (.staleReply (.core c l) a) s =
      .next (((pmcCount 5 1 (rqMst (.core c l)) { lvl := rqLvl (.core c l), addr := some a } s).addSat (OWN_CORE_STAT_stale c)
      1).raise 23)) ∧
  (∀ (ch a : Nat) (s : State), rqFenced (.dma ch) s = false → exec (.staleReply (.dma ch) a) s = .next (updDma ch (fun d =>
      { d with stale := true }) ((pmcCount 5 1 (some 3) { addr := some a } s).set (DMA_CH_STAT_stale ch) 1))) ∧
  (∀ (q : Rq) (a : Nat) (s : State), rqFenced q s = true → exec (.staleReply q a) s = .next (pmcCount 5 1 (rqMst q)
      { lvl := rqLvl q, addr := some a } s))

/-- Where the write reaches its register: START from IDLE or HALTED leads to FETCH, elsewhere it ends REFUSED_STATE; STOP of a
channel that runs or waits halts it ABORTED and resumable; RESUME of a resumable channel goes on. A descriptor that reads and
checks well loads its fields, another halts the channel with its code. A burst moves its beats while the request line is
asserted and waits else; an asserted line starts the channels that wait for it; a spent descriptor retires; errors halt the
channel with their codes. Conventions of the model that a clause may rest on: log 115. (R350, R351, R352, R354, R355, R356,
R357.) -/
def Obligations.DmaCommands : Prop :=
  (∀ (q : Rq) (c : Fin 32) (s : State), Sent q (DMA_CH_CMD c) DMA_CH_CMD_fs (dmaWord c 1) s → (chState c s = 0 ∨ chState c s =
      4) → exec (.dmaStart q c) s = .next ((updDma c (fun _ => {}) ((((chOut c .done 0 ((request q (DMA_CH_CMD c) s).set
      (DMA_CH_STAT_state c) 1)).set (DMA_CH_STAT_resumable c) 0)).set (DMA_CH_STAT_empty c) 0)).ret .done)) ∧
  (∀ (q : Rq) (c : Fin 32) (s : State), Sent q (DMA_CH_CMD c) DMA_CH_CMD_fs (dmaWord c 1) s → (chState c s ≠ 0 ∧ chState c s ≠
      4) → exec (.dmaStart q c) s = .next (completed q (DMA_CH_CMD c) true .state (((request q (DMA_CH_CMD c) s).set
      (DMA_CH_STAT_outcome c) Code.state.n).ret .state))) ∧
  (∀ (q : Rq) (c : Fin 32) (s : State), Sent q (DMA_CH_CMD c) DMA_CH_CMD_fs (dmaWord c 2) s → (chState c s = 2 ∨ chState c s =
      3) → exec (.dmaStop q c) s = .next ((chHalt c .aborted 1 true (request q (DMA_CH_CMD c) s)).ret .done)) ∧
  (∀ (q : Rq) (c : Fin 32) (s : State), Sent q (DMA_CH_CMD c) DMA_CH_CMD_fs (dmaWord c 3) s → (chState c s = 4 ∧ s.get
      (DMA_CH_STAT_resumable c) = 1) → s.get (DMA_CH_COUNT_count c) ≠ 0 → exec (.dmaResume q c) s = .next ((chGo c ((chOut c
      .done 0 (request q (DMA_CH_CMD c) s)).set (DMA_CH_STAT_resumable c) 0)).ret .done)) ∧
  (∀ (c : Fin 32) (s : State), (chState c s = 1 ∧ dmaHeld s = false) → (descRead c s).2.1 = .done → descCode (descRead c s).2.2
      = .done → exec (.descriptorFetch c) s = .next (descLoad c (s.get (DMA_CH_DESC_desc c)) (descRead c s).2.2 (descRead c
      s).1)) ∧
  (∀ (c : Fin 32) (s : State), (chState c s = 1 ∧ dmaHeld s = false) → (descRead c s).2.1 ≠ .done → exec (.descriptorFetch c) s
      = .next (chHalt c (descRead c s).2.1 3 false (descRead c s).1)) ∧
  (∀ (c : Fin 32) (s : State), (chState c s = 2 ∧ dmaHeld s = false) → lineOn (s.dch c).req s = true → exec (.dmaBurst c) s =
      .next (beats c none (burstLen c s) 0 s)) ∧
  (∀ (c : Fin 32) (s : State), (chState c s = 2 ∧ dmaHeld s = false) → lineOn (s.dch c).req s = false → exec (.dmaBurst c) s =
      .next (s.set (DMA_CH_STAT_state c) 3)) ∧
  (∀ (r : Fin 32) (s : State), (lineOn r s = true ∧ dmaHeld s = false) → exec (.dmaRequestLine r) s = .next (forN 32 (fun c u =>
      if chState c u = 3 ∧ (u.dch c).req = r then u.set (DMA_CH_STAT_state c) 2 else u) s)) ∧
  (∀ (c : Fin 32) (s : State), (chState c s = 2 ∧ dmaHeld s = false) → s.get (DMA_CH_COUNT_count c) = 0 → exec
      (.descriptorRetire c) s = .next (chRetire c s)) ∧
  (∀ (c : Fin 32) (k : Fin 16) (o : Code) (s : State), (chState c s = 2 ∧ dmaHeld s = false) → lineOn (s.dch c).req s = true → o
      ≠ .done → exec (.dmaReadError c k o) s = .next (beats c (some (k, o)) (burstLen c s) 0 s)) ∧
  (∀ (c : Fin 32) (o : Code) (s : State), o ≠ .done → (s.dch c).loose = true → (chState c s = 0 ∨ chState c s = 1) → dmaHeld s =
      false → exec (.dmaPostedError c o) s = .next (chHalt c o 6 (s.freeVal 1 = 1) (updDma c (fun k =>
      { k with loose := false }) s.freeNext))) ∧
  (∀ (c : Fin 32) (s : State), (chState c s = 2 ∧ dmaHeld s = false) → s.get (DMA_CH_COUNT_count c) = 0 → exec
      (.dmaLastBeatError c false) s = .next (beatError c (s.dch c).src .bus s)) ∧
  (∀ (c : Fin 32) (s : State), (chState c s = 2 ∧ dmaHeld s = false) → s.get (DMA_CH_COUNT_count c) = 0 → (s.dch c).barrier =
      true → exec (.dmaLastBeatError c true) s = .next (beatError c (s.dch c).dst .bus s)) ∧
  (∀ (c : Fin 32) (s : State), (chState c s = 2 ∧ dmaHeld s = false) → (s.dch c).req ≠ 0 → lineOn (s.dch c).req s = true → 0 <
      burstLen c s → exec (.dmaWithdraw c 0) s = .next (chHalt c .withdrawn 0 true (((forN (burstLen c s) (fun _ u => beatIssue
      c u) s).set (DMA_CH_STAT_empty c) (burstLen c s)).set (DMA_CH_FADDR_faddr c) (s.rd (DMA_CH_SRC c)).toNat)))

/-- Where the write reaches its register and no command runs: RAW, FLUSH, and READ, WRITE and TRIM with their sectors in range
are HELD; READ, WRITE and TRIM outside it end ERR_RANGE; a command while one runs ends REFUSED_STATE; STOP of a READ or WRITE is
DONE. A read block that passes enters the FIFO and counts, one that fails is read again after CMD12 or ends ERR_BUS. The
command's end with its response in the words of STO_RESP that its type has, its response's time limit and the transaction's end
set the result and raise STO_DONE. Conventions of the model that a clause may rest on: log 83, 157, 159, 162. (R360, R361,
R363.) -/
def Obligations.StorageCommands : Prop :=
  (∀ (q : Rq) (w : Word) (s : State), Sent q STO_CMD STO_CMD_fs (stoWord 1 w) s → s.sto.op = 0 → exec (.stoRaw q w) s = .next
      (stoStart 1 (stoWord 1 w) (request q STO_CMD s))) ∧
  (∀ (q : Rq) (s : State), Sent q STO_CMD STO_CMD_fs (stoWord 5 0) s → s.sto.op = 0 → exec (.stoFlush q) s = .next (stoStart 5
      (stoWord 5 0) (request q STO_CMD s))) ∧
  (∀ (q : Rq) (w : Word) (s : State), Sent q STO_CMD STO_CMD_fs (stoWord 2 0) s → Sent q STO_CMD STO_CMD_fs (stoWord 3 w) s →
      Sent q STO_CMD STO_CMD_fs (stoWord 4 0) s → s.sto.op = 0 → (s.get STO_CNT_cnt ≠ 0 ∧ s.get STO_ARG_arg + s.get STO_CNT_cnt
      ≤ 250000000) → exec (.stoRead q) s = .next (stoStart 2 (stoWord 2 0) (request q STO_CMD s)) ∧
      exec (.stoWrite q w) s = .next (stoStart 3 (stoWord 3 w) (request q STO_CMD s)) ∧
      exec (.stoTrim q) s = .next (stoStart 4 (stoWord 4 0) (request q STO_CMD s))) ∧
  (∀ (q : Rq) (s : State), Sent q STO_CMD STO_CMD_fs (stoWord 2 0) s → s.sto.op = 0 → (s.get STO_CNT_cnt = 0 ∨ 250000000 < s.get
      STO_ARG_arg + s.get STO_CNT_cnt) → exec (.stoRead q) s = .next (stoNow .range (request q STO_CMD s))) ∧
  (∀ (q : Rq) (s : State), Sent q STO_CMD STO_CMD_fs (stoWord 5 0) s → s.sto.op ≠ 0 → exec (.stoFlush q) s = .next (completed q
      STO_CMD true .state ((request q STO_CMD s).ret .state))) ∧
  (∀ (q : Rq) (s : State), Sent q STO_CMD STO_CMD_fs (stoWord 6 0) s → (s.sto.op = 2 ∨ s.sto.op = 3) → exec (.stoStop q) s =
      .next ((updSto (fun x => { x with stop := true }) (request q STO_CMD s)).ret .done)) ∧
  (∀ (data : List Byte) (s : State), s.sto.op = 2 → s.get STO_RESULT_blocks < s.sto.cnt → s.sto.rx.length + 512 ≤ 4096 →
      s.sto.stop = false → exec (.stoBlockEnd true data) s = .next ((updSto (fun x =>
      { x with rx := x.rx ++ (List.range 512).map (fun i => nth data i), tries := 0 }) s).incMod STO_RESULT_blocks)) ∧
  (∀ (data : List Byte) (s : State), s.sto.op = 2 → s.get STO_RESULT_blocks < s.sto.cnt → exec (.stoBlockEnd false data) s =
      .next (if s.get STO_CTRL_retries ≤ s.sto.tries then stoEnd .bus 0 s else stoSend
      [(12, 0), (23, s.sto.cnt - s.get STO_RESULT_blocks), (18, s.sto.arg + s.get STO_RESULT_blocks)] (updSto (fun x =>
      { x with tries := x.tries + 1 }) s))) ∧
  (∀ (resp : List Word) (s : State), s.sto.op ≠ 0 → s.sto.stop = false → (s.sto.rtype = 1 ∨ s.sto.rtype = 2) → stoBlocks s ≤
      s.get STO_RESULT_blocks → exec (.stoCommandEnd false resp) s = .next (stoEnd .done 0 (s.wr (STO_RESP 0) (nth resp 0))) ∧
      exec (.stoCommandEnd true resp) s = .next (stoEnd .bus 0 (s.wr (STO_RESP 0) (nth resp 0))) ∧
      exec .stoResponseTimeout s = .next (stoEnd .timeout 0 s)) ∧
  (∀ (resp : List Word) (s : State), s.sto.op ≠ 0 → s.sto.stop = false → (s.sto.rtype = 0 ∨ s.sto.rtype = 3) → stoBlocks s ≤
      s.get STO_RESULT_blocks → exec (.stoCommandEnd false resp) s = .next (stoEnd .done 0 (if s.sto.rtype = 3 then forN 4 (fun
      i u => u.wr (STO_RESP i) (nth resp i)) s else s))) ∧
  (∀ (q : Rq) (w : Word) (s : State), Sent q STO_NOR_CMD STO_NOR_CMD_fs (force w STO_NOR_CMD_go 1) s →
      (wf w STO_NOR_CMD_addr_bytes = 0 ∨ wf w STO_NOR_CMD_addr_bytes = 3 ∨ wf w STO_NOR_CMD_addr_bytes = 4) →
      (wf w STO_NOR_CMD_len ≤ 256 ∧ wf w STO_NOR_CMD_dir ≠ 3) → s.get STO_NOR_RESULT_busy = 0 → exec (.norGo q w) s = .next
      (let t := (((wrote q STO_NOR_CMD STO_NOR_CMD_fs (force w STO_NOR_CMD_go 1) s).set STO_NOR_RESULT_outcome Code.held.n).set STO_NOR_RESULT_reason 0)
      let u := updSto (fun x => { x with norDir := t.get STO_NOR_CMD_dir, norLen := t.get STO_NOR_CMD_len }) t
      ({ (u.set STO_NOR_RESULT_busy 1) with norWave := norSend u } : State).ret .held)) ∧
  (∀ (data : List Byte) (changed : List Host.Cell) (s : State), s.get STO_NOR_RESULT_busy = 1 → s.sto.norDir ≠ 1 → exec
      (.norTransactionEnd data changed) s = .next (((({ s with flash := flashPut s.flash changed, norWave := [] }.set
      STO_NOR_RESULT_outcome Code.done.n).set STO_NOR_RESULT_reason 0).set STO_NOR_RESULT_busy 0).raise 496)) ∧
  (∀ (data : List Byte) (changed : List Host.Cell) (s : State), s.get STO_NOR_RESULT_busy = 1 → s.sto.norDir = 1 → exec
      (.norTransactionEnd data changed) s = .next (((((forN s.sto.norLen (fun b u => norPut b (nth data b) u)
      { s with flash := flashPut s.flash changed, norWave := [] }).set STO_NOR_RESULT_outcome Code.done.n).set
      STO_NOR_RESULT_reason 0).set STO_NOR_RESULT_busy 0).raise 496))

/-- Power-on reset and RESET_N put the die into reset and record their causes, with the storage card's reset low and the boot
flash deselected, their release samples the straps and starts the attic load and the fill once no such reset is left; the key
written to CRP_CMD_RESET resets with the cause CMD and another value ends ERR_RANGE; the watchdog's second interval and a second
lockstep mismatch within a second reset with their causes, a first mismatch restarts SC and raises its event. A block's bit
holds it in reset until its release, which waits for a wider reset to end. The attic's values apply with a valid copy, else the
part stays in safe hold; SC starts after load and fill in the boot ROM, which asks for SPLL where it is ready: in safe hold it
stops at stage 6; a checked shelf A is swapped in without the flash; else the valid directories of the boot flash are tried in
their order, and without another the ROM stays in recovery. Conventions of the model that a clause may rest on: log 1, 112, 113,
159, 175. (R328, R329, R392, R394, R395, R396, R398, R400, R402, R403, R406, R408.) -/
def Obligations.ResetCommands : Prop :=
  (∀ (s : State), exec .powerOnReset s = .next (resetFull (fullReset 0 (fun r => { r with por := true }) s)) ∧
      exec .resetNAssert s = .next (resetFull (fullReset 1 (fun r => { r with resetN := true }) s))) ∧
  (∀ (s : State), ∃ t, exec .resetNAssert s = .next t ∧ t.rst.resetN = true ∧ emmcRstN t = false ∧ bootCsN t = true) ∧
  (∀ (s : State), s.rst.por = true → (s.rst.resetN = false ∧ s.rst.wide = false) → exec .powerOnResetRelease s = .next (forN 27
      blockUp (updRst (fun r => { r with atticBusy := true, fillBusy := true, causeAt := none }) (sampleStraps (updRst (fun r =>
      { r with por := false }) s))))) ∧
  (∀ (s : State), (s.rst.resetN = true ∧ s.get CRP_CLK_STAT_fosc_ready = 1) → (s.rst.por = false ∧ s.rst.wide = false) → exec
      .resetNRelease s = .next (forN 27 blockUp (updRst (fun r =>
      { r with atticBusy := true, fillBusy := true, causeAt := none }) (sampleStraps (updRst (fun r =>
      { r with resetN := false }) s))))) ∧
  (∀ (s : State), ∃ t, exec .aonPowerOnReset s = .next t ∧ t.rd RST_CAUSE = 1 ∧ t.clk.aon = 0 ∧ t.clk.load = none ∧ t.get
      CRP_CLK_STAT_aosc_ready = 0 ∧ t.rd CRP_AON_TIME_H = 0 ∧ t.rd CRP_AOSC_INC = resetWord CRP_AOSC_INC) ∧
  (∀ (q : Rq) (s : State), Sent q CRP_CMD_RESET CRP_CMD_RESET_fs 0x6D3B s → cmdWithWd q 0x6D3B s = false → exec (.commandReset q
      0x6D3B) s = .next (wideReset [2] ((request q CRP_CMD_RESET s).ret .done))) ∧
  (∀ (q : Rq) (w : Word) (s : State), Sent q CRP_CMD_RESET CRP_CMD_RESET_fs w s → w ≠ 0x6D3B → exec (.commandReset q w) s =
      .next ((request q CRP_CMD_RESET s).ret .range)) ∧
  (∀ (s : State), (s.rst.wide = true ∧ s.rst.nofosc = false) → exec .wideResetRelease s = .next
      (let t := forN 27 blockUp (updRst (fun r => { r with wide := false, nofosc := false, causeAt := none }) s)
      let u := forN 27 (fun b s => if s.rst.relDue.contains b = true then blkFree b s else s) t
      if u.rst.released && !fullHeld u && !u.stop then romStart u else u)) ∧
  (∀ (q : Rq) (w : Word) (s : State), Sent q RST_CAUSE RST_CAUSE_fs w s → exec (.rstCauseWrite q w) s = .next ((((request q
      RST_CAUSE s).wr RST_CAUSE (mergeWord RST_CAUSE_fs (s.rd RST_CAUSE) w (s.on RST_CAUSE_mode_lock))).set RST_CAUSE_mode_lock
      1).ret .done)) ∧
  (∀ (q : Rq) (b : Fin 27) (s : State), Sent q CRP_BLK_RST CRP_BLK_RST_fs (blkWordSet b s) s → bit (s.rd CRP_BLK_RST) b = false
      → exec (.blkRstSet q b) s = .next ((blkSet b (wrote q CRP_BLK_RST CRP_BLK_RST_fs (blkWordSet b s) s)).ret .done)) ∧
  (∀ (q : Rq) (b : Fin 27) (s : State), Sent q CRP_BLK_RST CRP_BLK_RST_fs (blkWordClear b s) s → bit (s.rd CRP_BLK_RST) b = true
      → exec (.blkRstClear q b) s = .next ((blkClear b (wrote q CRP_BLK_RST CRP_BLK_RST_fs (blkWordClear b s) s)).ret .done)) ∧
  (∀ (b : Fin 27) (s : State), s.rst.relReq.contains b.val = true → widerHeld b s = false → exec (.blockRelease b) s = .next
      (rstEvt 1 (blockUp b ((updRst (fun r =>
      { r with held := r.held.filter (fun x => decide (x ≠ b)), relReq := r.relReq.filter (fun x => decide (x ≠ b)), relDue := r.relDue.filter fun x => decide (x ≠ b) })
      s).set ⟨CRP_BLK_RST_STAT, b, 1⟩ 0)))) ∧
  (∀ (b : Fin 27) (s : State), s.rst.relReq.contains b.val = true → widerHeld b s = true → s.rst.relDue.contains b.val = false →
      exec (.blockRelease b) s = .next (updRst (fun r => { r with relDue := b.val :: r.relDue }) s)) ∧
  (∀ (s : State), scRuns s = true → s.lockAt = none → exec .lockstepMismatch s = .next (romStart
      (({ (((loadAbort 12 (cpuReset 12 (portDrain 12 ((s.addSat EVR_LOCK_STAT_count 1).wr EVR_LOCK_PC (s.cpu 12).pc)))).set (OWN_CORE_STAT_armed 12) 0).set (OWN_CORE_STAT_fenced 12) 0).set (OWN_CORE_STAT_active 12) 0 with lockAt := some s.now }
      : State).raise 6))) ∧
  (∀ (t : Nat) (s : State), scRuns s = true → s.lockAt = some t → s.now < t + 1000 * msTicks → exec .lockstepMismatch s = .next
      (wideReset [4] { (s.addSat EVR_LOCK_STAT_count 1).wr EVR_LOCK_PC (s.cpu 12).pc with lockAt := none })) ∧
  (∀ (s : State), (wdRuns s = true ∧ s.get EVR_WDOG_STAT_second = 1) → exec .wdogReset s = .next (wideReset [3] s)) ∧
  (∀ (s : State), (s.rst.atticBusy = true ∧ fullHeld s = false) → exec .atticLoadDone s = .next (if (s.attic.a.ok ||
      s.attic.b.ok) = true then atticValues (atticShown s) else forN 8 (fun n u => forceOn n causeHold u) (atticShown s))) ∧
  (∀ (s : State), (fullHeld s = false ∧ s.rst.wide = false ∧ s.rst.atticBusy = false ∧ s.rst.fillBusy = false ∧ s.rst.released =
      false ∧ s.stop = false) → exec .scRelease s = .next (romStart (atticWarn (updRst (fun r => { r with released := true })
      s)))) ∧
  (∀ (s : State), romStart s =
      (let r := (if s.on (pllReady 2) = true then romWrites (wrSysSel 1) (romQuiet (s.wr CRP_BOOT_STAT 0)) else romQuiet (s.wr CRP_BOOT_STAT 0)); if r.on CRP_ATTIC_STAT_hold = true then r.set CRP_BOOT_STAT_stage 6
      else if r.on (OWN_CORE_STAT_chk_a 12) = true then updCpu 12 (fun k => { k with wait := .swap 0 }) ((((r.set
      CRP_BOOT_STAT_warm 1).set CRP_BOOT_STAT_stage 4).set (OWN_CORE_STAT_armed 12) 1).set (OWN_CORE_STAT_fenced 12) 1)
      else (let u := romFetch 0x2000000 64 (romFetch 0 64 r); let t := ((u.set CRP_BOOT_STAT_stage 1).set CRP_BOOT_STAT_dir0_ok (dirOk (dirBytes 0 u)).toNat).set CRP_BOOT_STAT_dir1_ok (dirOk (dirBytes 1 u)).toNat; romTries (bootOrder t) t))) ∧
  (∀ (s : State), romTries [] s = s.set CRP_BOOT_STAT_stage 5) ∧
  (∀ (d : Nat) (s : State), (d ∈ bootOrder s ↔ d < 2 ∧ dirOk (dirBytes d s) = true) ∧ (hdrF (dirBytes 0 s) 8 4 < hdrF (dirBytes
      1 s) 8 4 → bootOrder s ≠ [0, 1]) ∧ (hdrF (dirBytes 1 s) 8 4 ≤ hdrF (dirBytes 0 s) 8 4 → bootOrder s ≠ [1, 0])) ∧
  (∀ (s : State), exec .vddioReachingThreshold s = .next (rfcShow (s.wr FEN_RFC_SAFE ((nth s.attic.safe 0 &&& nth s.attic.safe
      1) ||| (nth s.attic.safe 0 &&& nth s.attic.safe 2) ||| (nth s.attic.safe 1 &&& nth s.attic.safe 2)))))

/-- Where the write reaches HKC_SCAN_CTRL: HKC_SCAN_RUN with the converter idle stores the fields, starts the scan and completes
HELD, and while a scan runs it completes REFUSED_STATE and starts none. HKC_ENTRY_END in a scan stores the average of the
entry's outputs and goes on; after the last entry without cont the scan ends DONE with its flag and event 503. HKD_ENABLE where
the pin's role allows the mode, its lane has no trip and it is off, and HKD_DISABLE, store the fields, start the connection or
open the pin, set a new sine's phase to 0 and end DONE; an enable that breaks the role ends GUARD. HKD_CONNECT joins a pin that
is connecting and updates it, HKD_UPDATE updates all pins. HKD_VALUE_WRITE inside the pin's window stores the value and lifts a
laser-off that has no cause left. HKD_MONITOR_TRIP opens the pin, records the trip, raises event 3 and turns the lane's laser
off. A read of HKD_STAT returns it and clears clips. Conventions of the model that a clause may rest on: log 89, 141. (R430,
R431, R432, R433, R434, R436, R443.) -/
def Obligations.PinsAndHousekeeping : Prop :=
  (∀ (q : Rq) (w : Word) (s : State), Sent q HKC_SCAN_CTRL HKC_SCAN_CTRL_fs (force w HKC_SCAN_CTRL_run 1) s → s.on
      HKC_SCAN_CTRL_busy = false → exec (.hkcScanRun q w) s = .next ((scanStart ((wrote q HKC_SCAN_CTRL HKC_SCAN_CTRL_fs (force
      w HKC_SCAN_CTRL_run 1) s).set HKC_SCAN_CTRL_outcome Code.held.n)).ret .held)) ∧
  (∀ (q : Rq) (w : Word) (s : State), Sent q HKC_SCAN_CTRL HKC_SCAN_CTRL_fs (force w HKC_SCAN_CTRL_run 1) s → s.on
      HKC_SCAN_CTRL_busy = true → exec (.hkcScanRun q w) s = .next (completed q HKC_SCAN_CTRL true .state (((request q
      HKC_SCAN_CTRL s).set HKC_SCAN_CTRL_outcome Code.state.n).ret .state))) ∧
  (∀ (outs : List (BitVec 16)) (ovr : Bool) (s : State), s.on HKC_SCAN_CTRL_busy = true → hkcHeld s = false → scanWaits s =
      false → s.scanIdx < s.get HKC_SCAN_CTRL_n_ent → exec (.hkcEntryEnd outs ovr) s = .next
      { s.wr (HKC_RES s.scanIdx) (BitVec.ofNat 32 (scanCode s.scanIdx outs s + 65536 + 131072 * ovr.toNat)) with scanIdx := s.scanIdx + 1 })
      ∧
  (∀ (outs : List (BitVec 16)) (ovr : Bool) (s : State), s.on HKC_SCAN_CTRL_busy = true → hkcHeld s = false → scanWaits s =
      false → s.scanIdx = s.get HKC_SCAN_CTRL_n_ent → s.on HKC_SCAN_CTRL_cont = false → exec (.hkcEntryEnd outs ovr) s = .next
      ((((s.wr (HKC_RES s.scanIdx) (BitVec.ofNat 32 (scanCode s.scanIdx outs s + 65536 + 131072 * ovr.toNat))).set
      HKC_SCAN_CTRL_busy 0).set HKC_SCAN_CTRL_outcome Code.done.n).flag HKC_EVT_scan_done 503)) ∧
  (∀ (q : Rq) (p : Fin 16) (w : Word) (s : State), Sent q (HKD_CTRL p) HKD_CTRL_fs (force w (HKD_CTRL_en p) 1) s → roleBreach p
      (wf w (HKD_CTRL_mode p)) s = false → s.get GRD_STAT_trip_lanes / 2 ^ pinLane p s % 2 = 0 → s.get (HKD_STAT_state p) = 0 →
      s.on (HKD_CTRL_en p) = false → exec (.hkdEnable q p w) s = .next (pinEnd p .done ((if s.on (HKD_CTRL_sine_en p) = false ∧
      wf w (HKD_CTRL_sine_en p) = 1 then updHkd p (fun h => { h with phase := 0 }) (wrote q (HKD_CTRL p) HKD_CTRL_fs (force w
      (HKD_CTRL_en p) 1) s) else wrote q (HKD_CTRL p) HKD_CTRL_fs (force w (HKD_CTRL_en p) 1) s).set (HKD_STAT_state p) 1))) ∧
  (∀ (q : Rq) (p : Fin 16) (w : Word) (s : State), Sent q (HKD_CTRL p) HKD_CTRL_fs (force w (HKD_CTRL_en p) 1) s → roleBreach p
      (wf w (HKD_CTRL_mode p)) s = true → exec (.hkdEnable q p w) s = .next (completed q (HKD_CTRL p) true .guard (pinEnd p
      .guard (request q (HKD_CTRL p) s)))) ∧
  (∀ (q : Rq) (p : Fin 16) (w : Word) (s : State), Sent q (HKD_CTRL p) HKD_CTRL_fs (force w (HKD_CTRL_en p) 0) s → exec
      (.hkdDisable q p w) s = .next (pinEnd p .done (((if s.on (HKD_CTRL_sine_en p) = false ∧ wf w (HKD_CTRL_sine_en p) = 1 then
      updHkd p (fun h => { h with phase := 0 }) (wrote q (HKD_CTRL p) HKD_CTRL_fs (force w (HKD_CTRL_en p) 0) s) else wrote q
      (HKD_CTRL p) HKD_CTRL_fs (force w (HKD_CTRL_en p) 0) s).set (HKD_STAT_state p) 0).set (HKD_STAT_clamped p) 0))) ∧
  (∀ (p : Fin 16) (s : State), s.get (HKD_STAT_state p) = 1 → hkcHeld s = false → exec (.hkdConnect p) s = .next (pinUpdate p
      (updHkd p (fun h => { h with phase := 0 }) (s.set (HKD_STAT_state p) 2)))) ∧
  (∀ (s : State), hkcHeld s = false → exec .hkdUpdate s = .next (forN 16 pinUpdate s)) ∧
  (∀ (q : Rq) (p : Fin 16) (w : Word) (s : State), Sent q (HKD_VAL p) HKD_VAL_fs w s → ((wf w (HKD_VAL_code p) + wf w
      (HKD_VAL_amp p) : Nat) : Int) ≤ pinHi p s → (pinRole p s = 2 → pinLo p s ≤ (wf w (HKD_VAL_code p) : Int) - wf w
      (HKD_VAL_amp p)) → exec (.hkdValueWrite q p w) s = .next (pinEnd p .done (if laneOff (pinLane p s) s then wrote q (HKD_VAL
      p) HKD_VAL_fs w s else updHkd p (fun h => { h with zero := false }) (wrote q (HKD_VAL p) HKD_VAL_fs w s)))) ∧
  (∀ (p : Fin 16) (s : State), s.get (HKD_STAT_state p) = 2 → (pinRole p s = 1 ∨ pinRole p s = 2) → hkcHeld s = false → exec
      (.hkdMonitorTrip p) s = .next (laserOff (pinLane p s) causeTrip
      ((({ s.set (HKD_STAT_state p) 3 with trips := (pinLane p s, p.val) :: s.trips } : State).set GRD_STAT_trip_lanes (s.get
      GRD_STAT_trip_lanes ||| 2 ^ pinLane p s)).raise 3))) ∧
  (∀ (q : Rq) (p : Fin 16) (s : State), Reads q (HKD_STAT p) s → exec (.hkdStatRead q p) s = .next (((request q (HKD_STAT p)
      s).retData [s.rd (HKD_STAT p)]).set (HKD_STAT_clips p) 0))

/-- GUARD_LIMIT_WRITE that loosens no limit is stored: a pin's window of either order allowed, the swing ceiling clamps the
lanes' drives, a tighter gain ceiling acts on the device's paths, one that the attic's allows loosens it. A limit looser than
the attic's, or any looser one under the lock, completes GUARD and changes nothing. TX_DISABLE_ASSERT sets txdis, counts it and
turns every lane's laser off; TX_DISABLE_DEASSERT ends that cause. TRIP_CLEAR with every named pin disabled forgets the trips of
the named lanes and ends their cause. A read of GRD_STAT returns it and clears txdis_cnt. Conventions of the model that a clause
may rest on: log 89. (R438, R439, R440, R443.) -/
def Obligations.GuardLimits : Prop :=
  (∀ (q : Rq) (k : Fin 19) (w : Word) (s : State), k.val < 16 → Sent q (GRD_PIN_LIM k) GRD_PIN_LIM_fs w s → wf w (GRD_PIN_LIM_lo
      k) ≤ wf w (GRD_PIN_LIM_hi k) → s.get (GRD_PIN_LIM_lo k) ≤ wf w (GRD_PIN_LIM_lo k) → wf w (GRD_PIN_LIM_hi k) ≤ s.get
      (GRD_PIN_LIM_hi k) → exec (.guardLimitWrite q k w) s = .next ((wrote q (GRD_PIN_LIM k) GRD_PIN_LIM_fs w s).ret .done)) ∧
  (∀ (q : Rq) (w : Word) (s : State), Sent q GRD_SWING GRD_SWING_fs w s → wf w GRD_SWING_work < s.get GRD_SWING_work → exec
      (.guardLimitWrite q 16 w) s = .next ((swingClamp (wrote q GRD_SWING GRD_SWING_fs w s)).ret .done)) ∧
  (∀ (q : Rq) (d : Fin 2) (w : Word) (s : State), Sent q (GRD_GAIN d) GRD_GAIN_fs w s → wf w (GRD_GAIN_work d) < s.get
      (GRD_GAIN_work d) → exec (.guardLimitWrite q (.ofNat 19 (17 + d)) w) s = .next ((gainTighten d (wrote q (GRD_GAIN d)
      GRD_GAIN_fs w s)).ret .done)) ∧
  (∀ (q : Rq) (d : Fin 2) (w : Word) (s : State), Sent q (GRD_GAIN d) GRD_GAIN_fs w s → s.get (GRD_GAIN_work d) ≤ wf w
      (GRD_GAIN_work d) → (s.on GRD_CTRL_lock = false ∨ wf w (GRD_GAIN_work d) = s.get (GRD_GAIN_work d)) → wf w (GRD_GAIN_work
      d) ≤ s.get (GRD_GAIN_attic d) → exec (.guardLimitWrite q (.ofNat 19 (17 + d)) w) s = .next ((wrote q (GRD_GAIN d)
      GRD_GAIN_fs w s).ret .done)) ∧
  (∀ (q : Rq) (w : Word) (s : State), Sent q GRD_SWING GRD_SWING_fs w s → s.get GRD_SWING_work < wf w GRD_SWING_work → (s.on
      GRD_CTRL_lock = true ∨ s.get GRD_SWING_attic < wf w GRD_SWING_work) → exec (.guardLimitWrite q 16 w) s = .next (completed
      q GRD_SWING true .guard ((request q GRD_SWING s).ret .guard))) ∧
  (∀ (s : State), s.on GRD_STAT_txdis = false → exec .txDisableAssert s = .next (forN 8 (fun n => laserOff n causeTxDis) ((s.set
      GRD_STAT_txdis 1).addSat GRD_STAT_txdis_cnt 1))) ∧
  (∀ (s : State), s.on GRD_STAT_txdis = true → exec .txDisableDeassert s = .next (forN 8 (fun n => forceOff n causeTxDis) (s.set
      GRD_STAT_txdis 0))) ∧
  (∀ (q : Rq) (w : Word) (s : State), Sent q GRD_TRIP_CLR GRD_TRIP_CLR_fs w s → (∀ t ∈ s.trips, wf w GRD_TRIP_CLR_lanes / 2 ^
      t.1 % 2 = 1 → s.on (HKD_CTRL_en t.2) = false) → exec (.tripClear q w) s = .next ((forN 8 (fun n t => if wf w
      GRD_TRIP_CLR_lanes / 2 ^ n % 2 = 1 ∧ s.get GRD_STAT_trip_lanes / 2 ^ n % 2 = 1 then forceOff n causeTrip t else t)
      (({ request q GRD_TRIP_CLR s with trips := s.trips.filter fun t => decide (wf w GRD_TRIP_CLR_lanes / 2 ^ t.1 % 2 = 0) } :
      State).set GRD_STAT_trip_lanes (s.get GRD_STAT_trip_lanes &&& (255 - wf w GRD_TRIP_CLR_lanes)))).ret .done)) ∧
  (∀ (q : Rq) (s : State), Reads q GRD_STAT s → exec (.grdStatRead q) s = .next (((request q GRD_STAT s).retData
      [s.rd GRD_STAT]).set GRD_STAT_txdis_cnt 0))

/-- Where the write reaches its register: a PLL is enabled; one without a user is disabled with its ready and holdover bits 0,
one with a user ends REFUSED_STATE; a BPLL trim within its bounds is stored and applied in steps, another ends ERR_RANGE; the
always-on time is staged, loaded at the next AOSC cycle, and read with its seconds latched. A lock sets ready, an unlock clears
it and counts. FOSC outside its bounds is declared failed and the system domain on it, or on its way to it, changes over; a
discipline run sets the increment; a window outside the bounds declares REFCLK failed. Conventions of the model that a clause
may rest on: log 86, 87, 88, 164, 174. (R36, R367, R369, R370, R371, R374, R375, R376, R377, R380.) -/
def Obligations.ClockSources : Prop :=
  (∀ (s : State), (s.get CRP_CLK_STAT_ref_fail = 0 ∧ clkLive s = true) → exec .rampTick s = .next (trimTick (forN 8 (fun n u =>
      if blkHeld n u then u else rampDet n (rampConv n u)) s))) ∧
  (∀ (q : Rq) (p : Fin 4) (s : State), Sent q CRP_PLL_CTRL CRP_PLL_CTRL_fs (pllWord p 1 s) s → exec (.pllEnable q p) s = .next
      ((wrote q CRP_PLL_CTRL CRP_PLL_CTRL_fs (pllWord p 1 s) s).ret .done)) ∧
  (∀ (q : Rq) (p : Fin 4) (s : State), Sent q CRP_PLL_CTRL CRP_PLL_CTRL_fs (pllWord p 0 s) s → s.get (pllEn p) = 1 → pllUser p s
      = false → exec (.pllDisable q p) s = .next (((pllFall p (wrote q CRP_PLL_CTRL CRP_PLL_CTRL_fs (pllWord p 0 s) s)).set
      (pllHold p) 0).ret .done)) ∧
  (∀ (q : Rq) (p : Fin 4) (s : State), Sent q CRP_PLL_CTRL CRP_PLL_CTRL_fs (pllWord p 0 s) s → s.get (pllEn p) = 1 → pllUser p s
      = true → exec (.pllDisable q p) s = .next (completed q CRP_PLL_CTRL true .state ((request q CRP_PLL_CTRL s).ret .state)))
      ∧
  (∀ (p : Fin 4) (s : State), (s.get (pllEn p) = 1 ∧ s.get CRP_CLK_STAT_ref_fail = 0 ∧ clkLive s = true) → s.rst.nofosc = false
      → exec (.pllLock p) s = .next (thaw (updClk (fun c => { c with cold := c.cold.filter fun x => decide (x ≠ p.val) })
      ((s.set (pllReady p) 1).set (pllHold p) 0)))) ∧
  (∀ (p : Fin 4) (s : State), s.get (pllReady p) = 1 → exec (.pllUnlock p) s = .next (clkEvt 0 ((s.set (pllReady p) 0).addSat
      CRP_PLL_STAT_unlocks 1))) ∧
  (∀ (q : Rq) (w : Word) (s : State), Sent q CRP_BPLL_TRIM CRP_BPLL_TRIM_fs w s → (sgn 28 (wf w CRP_BPLL_TRIM_trim)).natAbs ≤
      102400000 → exec (.bpllTrimWrite q w) s = .next (((wrote q CRP_BPLL_TRIM CRP_BPLL_TRIM_fs w s).set
      CRP_BPLL_APPLIED_slewing (decide ((wrote q CRP_BPLL_TRIM CRP_BPLL_TRIM_fs w s).get CRP_BPLL_TRIM_trim ≠ (wrote q
      CRP_BPLL_TRIM CRP_BPLL_TRIM_fs w s).get CRP_BPLL_APPLIED_applied)).toNat).ret .done)) ∧
  (∀ (q : Rq) (w : Word) (s : State), Sent q CRP_BPLL_TRIM CRP_BPLL_TRIM_fs w s → 102400000 < (sgn 28 (wf w
      CRP_BPLL_TRIM_trim)).natAbs → exec (.bpllTrimWrite q w) s = .next ((request q CRP_BPLL_TRIM s).ret .range)) ∧
  (∀ (s : State), (s.get CRP_CLK_STAT_fosc_ready = 0 ∧ s.stop = false) → s.rst.nofosc = false → exec .foscReady s = .next (thaw
      (if s.get CRP_CLK_STAT_sys_gated = 1 then s.clk.gateNmi.foldl (fun s e => s.raise e) (updClk (fun c =>
      { c with gateNmi := [] }) (swReached 0 ((s.set CRP_CLK_STAT_fosc_ready 1).set CRP_CLK_STAT_sys_gated 0))) else s.set
      CRP_CLK_STAT_fosc_ready 1))) ∧
  (∀ (n : Nat) (s : State), (s.get CRP_CLK_STAT_aosc_ready = 1 ∧ s.stop = false) → (n < 2800 ∨ 3300 < n) → s.clk.sw = none →
      exec (.foscCheck n) s = .next (if s.get CRP_CLK_STAT_sys_gated = 1 then updClk (fun c =>
      { c with gateNmi := natJoin 1 c.gateNmi }) (foscFailed s)
      else if s.get CRP_CLK_STAT_sys_src = 0 then fallback 1 1 (foscFailed s) else (foscFailed s).raise 1)) ∧
  (∀ (n : Nat) (x : ClkSw) (s : State), (s.get CRP_CLK_STAT_aosc_ready = 1 ∧ s.stop = false ∧ s.get CRP_CLK_STAT_sys_gated = 0)
      → (n < 2800 ∨ 3300 < n) → s.clk.sw = some x → exec (.foscCheck n) s = .next (if x.cmd = false ∧ x.target = 1 then nmiJoin
      1 (foscFailed s) else if x.cmd = true ∨ x.target = 0 then fallback 1 1 (foscFailed s) else (foscFailed s).raise 1)) ∧
  (∀ (n : Nat) (s : State), (2800 ≤ n ∧ n ≤ 3300) → exec (.foscCheck n) s = .next s) ∧
  (∀ (n : Nat) (s : State), s.clk.discBad = false → (s.get CRP_AOSC_INC_disc_en = 1 ∧ s.get CRP_CLK_STAT_ref_ok = 1 ∧ s.get
      CRP_CLK_STAT_aosc_ready = 1 ∧ s.stop = false) → exec (.aoscDisciplineEnd n) s = .next ((s.seti CRP_AOSC_INC_inc (divEven
      (2 ^ 25 * n) (refHz s))).set CRP_AOSC_INC_valid 1)) ∧
  (∀ (q : Rq) (w : Word) (s : State), Sent q CRP_AON_TIME_H CRP_AON_TIME_H_fs w s → exec (.aonTimeHWrite q w) s = .next ((updClk
      (fun c => { c with stage := w.toNat }) (request q CRP_AON_TIME_H s)).ret .done)) ∧
  (∀ (q : Rq) (w : Word) (s : State), Sent q CRP_AON_TIME_L CRP_AON_TIME_L_fs w s → exec (.aonTimeLoad q w) s = .next ((updClk
      (fun c => { c with load := some (c.stage * 2 ^ 40 + w.toNat * 2 ^ 8) }) (request q CRP_AON_TIME_L s)).ret .done)) ∧
  (∀ (q : Rq) (s : State), Reads q CRP_AON_TIME_L s → exec (.aonTimeLRead q) s = .next (((request q CRP_AON_TIME_L s).wr
      CRP_AON_TIME_H (BitVec.ofNat 32 (s.clk.aon / 2 ^ 40))).retData [BitVec.ofNat 32 (s.clk.aon / 2 ^ 8)])) ∧
  (∀ (n : Nat) (s : State), clkLive s = true → (s.get CRP_REFMON_lo ≤ n ∧ n ≤ s.get CRP_REFMON_hi) → s.get CRP_CLK_STAT_ref_ok =
      1 → exec (.refmonWindowEnd n) s = .next (refCounted n s)) ∧
  (∀ (n : Nat) (s : State), clkLive s = true → (n < s.get CRP_REFMON_lo ∨ s.get CRP_REFMON_hi < n) → s.get CRP_CLK_STAT_ref_fail
      = 0 → exec (.refmonWindowEnd n) s = .next (refFail (refCounted n s))) ∧
  (∀ (s : State), exec .aoscReady s = .next (s.set CRP_CLK_STAT_aosc_ready 1))

/-- Where the write reaches its register: a source that is not the current one and is ready is HELD as a switch, the current one
is DONE, one that is not ready ends REFUSED_NOT_READY, a second switch REFUSED_STATE; a CLKOUT setting within 250 MHz is HELD
and beyond it ends ERR_RANGE. The switch's end names the new source and ends the command DONE. A gated domain without FOSC
resets with the cause CLK_NOFOSC. The clock of a block without work stops after its idle cycles. Once the domain has its clock,
what waits at its ports is served. Conventions of the model that a clause may rest on: log 86, 141. (R380, R382, R384, R386,
R391.) -/
def Obligations.ClockSwitches : Prop :=
  (∀ (q : Rq) (src : Bool) (s : State), Sent q CRP_SYS_SEL CRP_SYS_SEL_fs (force 0 CRP_SYS_SEL_src src.toNat) s → (s.clk.sw =
      none ∧ s.get CRP_CLK_STAT_sys_gated = 0) → src.toNat ≠ s.get CRP_CLK_STAT_sys_src → srcReady src.toNat s = true → exec
      (.sysSrcSelect q src) s = .next (sysSel .held (swBegin src.toNat true [] ((request q CRP_SYS_SEL s).set CRP_SYS_SEL_src
      src.toNat)))) ∧
  (∀ (q : Rq) (src : Bool) (s : State), Sent q CRP_SYS_SEL CRP_SYS_SEL_fs (force 0 CRP_SYS_SEL_src src.toNat) s → (s.clk.sw =
      none ∧ s.get CRP_CLK_STAT_sys_gated = 0) → src.toNat = s.get CRP_CLK_STAT_sys_src → exec (.sysSrcSelect q src) s = .next
      (sysSel .done ((request q CRP_SYS_SEL s).set CRP_SYS_SEL_src src.toNat))) ∧
  (∀ (q : Rq) (src : Bool) (s : State), Sent q CRP_SYS_SEL CRP_SYS_SEL_fs (force 0 CRP_SYS_SEL_src src.toNat) s → (s.clk.sw =
      none ∧ s.get CRP_CLK_STAT_sys_gated = 0) → src.toNat ≠ s.get CRP_CLK_STAT_sys_src → srcReady src.toNat s = false → exec
      (.sysSrcSelect q src) s = .next (completed q CRP_SYS_SEL true .notReady (sysSel .notReady (request q CRP_SYS_SEL s)))) ∧
  (∀ (q : Rq) (src : Bool) (s : State), Sent q CRP_SYS_SEL CRP_SYS_SEL_fs (force 0 CRP_SYS_SEL_src src.toNat) s → (s.clk.sw ≠
      none ∨ s.get CRP_CLK_STAT_sys_gated = 1) → exec (.sysSrcSelect q src) s = .next (completed q CRP_SYS_SEL true .state
      (sysSel .state (request q CRP_SYS_SEL s)))) ∧
  (∀ (t : Nat) (s : State), s.clk.sw = some ⟨t, true, []⟩ → srcAlive t s = true → exec (.clockSwitchDone false false) s = .next
      (thaw (clkEvt 1 (((updClk (fun c => { c with sw := none }) (swReached t (s.set CRP_SYS_SEL_busy 0))).set
      CRP_SYS_SEL_forced 0).set CRP_SYS_SEL_outcome Code.done.n)))) ∧
  (∀ (s : State), s.get CRP_CLKOUT_busy = 1 → exec (.clockSwitchDone true false) s = .next (clkEvt 1 ((s.set CRP_CLKOUT_busy
      0).set CRP_CLKOUT_outcome Code.done.n))) ∧
  (∀ (q : Rq) (w : Word) (s : State), Sent q CRP_CLKOUT CRP_CLKOUT_fs w s → (s.chg w CRP_CLKOUT_en = true ∨ s.chg w
      CRP_CLKOUT_src = true ∨ s.chg w CRP_CLKOUT_div_m1 = true) → (wf w CRP_CLKOUT_src ≤ 23 ∧ clkoutMax (wf w CRP_CLKOUT_src) s
      ≤ 250000000 * (wf w CRP_CLKOUT_div_m1 + 1)) → s.get CRP_CLKOUT_busy = 0 → exec (.clkoutWrite q w) s = .next ((((wrote q
      CRP_CLKOUT CRP_CLKOUT_fs w s).set CRP_CLKOUT_busy 1).set CRP_CLKOUT_outcome Code.held.n).ret .held)) ∧
  (∀ (q : Rq) (w : Word) (s : State), Sent q CRP_CLKOUT CRP_CLKOUT_fs w s → (s.chg w CRP_CLKOUT_en = true ∨ s.chg w
      CRP_CLKOUT_src = true ∨ s.chg w CRP_CLKOUT_div_m1 = true) → (23 < wf w CRP_CLKOUT_src ∨ 250000000 * (wf w
      CRP_CLKOUT_div_m1 + 1) < clkoutMax (wf w CRP_CLKOUT_src) s) → exec (.clkoutWrite q w) s = .next (((request q CRP_CLKOUT
      s).set CRP_CLKOUT_outcome Code.range.n).ret .range)) ∧
  (∀ (b : Fin 24) (s : State), gateWork b s = false → exec (.clockGateIdle b) s = .next (updClk (fun c =>
      { c with awake := c.awake - c.awake / 2 ^ b.val % 2 * 2 ^ b.val }) s)) ∧
  (∀ (b : Fin 24) (s : State), gateWork b s = true → exec (.clockGateIdle b) s = .next s) ∧
  (∀ (s : State), (s.get CRP_CLK_STAT_sys_gated = 1 ∧ s.get CRP_CLK_STAT_fosc_ready = 0) → (fullHeld s = false ∧ s.stop = false
      ∧ s.rst.nofosc = false) → exec .nofoscTimeout s = .next (thaw (if s.rst.released then nofoscRelease (updRst (fun r =>
      { r with nofosc := true }) (wideReset [5] (portsFenced (swAbort s)))) else resetDie false (fullReset 5 (fun r =>
      { r with wide := true, nofosc := true, deep := true }) (portsFenced (swAbort s))))))

/-- Where the write reaches its register: a request within the rail's range is HELD and sent, one outside ends ERR_RANGE, one
while another is in progress REFUSED_STATE; a demand with a sensor is HELD and measured or joined, an empty one ends ERR_RANGE;
a threshold within its order and hysteresis is stored, a shutdown threshold above 125 °C ends REFUSED_GUARD. The acknowledged
response with VDone ends the request DONE, missing acknowledgements end it after three more attempts; the end of a measurement
writes the readings and evaluates the thresholds. A droop in stop is recorded. An entry with no event and no wake source saves
SC's state and the larder list and goes on to step 3; an event or a wake source abandons it. An enabled source during the
entry's last steps is kept for their end; in stop it begins the wake, which starts the attic load and asks for the run voltage
where the retention voltage was used. The wake ends once FOSC, voltage and attic allow: the larder list is restored, the sensors
are measured, and SC resumes after its WAIT; without a valid copy the part stays in safe hold. An overdue shutdown forces a stop
that saves no SC state, and makes a stop that has begun a forced one. Conventions of the model that a clause may rest on: log
90, 91, 131, 132, 159. (R417, R418, R419, R420, R422, R425, R410, R412, R416, R426.) -/
def Obligations.PowerThermalAndStop : Prop :=
  (∀ (q : Rq) (w : Word) (s : State), Sent q PWR_AVS_REQ PWR_AVS_REQ_fs (force w PWR_AVS_REQ_go 1) s → avsRange (wf w
      PWR_AVS_REQ_rail) (wf w PWR_AVS_REQ_mv) = true → (s.pwr.avs = none ∧ s.pwr.avsNext = none) → exec (.avsRequest q w) s =
      .next (((avsStart ⟨wf w PWR_AVS_REQ_rail, wf w PWR_AVS_REQ_mv, 0, none⟩ (wrote q PWR_AVS_REQ PWR_AVS_REQ_fs (force w
      PWR_AVS_REQ_go 1) s)).set PWR_AVS_STAT_outcome Code.held.n).ret .held)) ∧
  (∀ (q : Rq) (w : Word) (s : State), Sent q PWR_AVS_REQ PWR_AVS_REQ_fs (force w PWR_AVS_REQ_go 1) s → avsRange (wf w
      PWR_AVS_REQ_rail) (wf w PWR_AVS_REQ_mv) = false → exec (.avsRequest q w) s = .next (((request q PWR_AVS_REQ s).set
      PWR_AVS_STAT_outcome Code.range.n).ret .range)) ∧
  (∀ (q : Rq) (w : Word) (s : State), Sent q PWR_AVS_REQ PWR_AVS_REQ_fs (force w PWR_AVS_REQ_go 1) s → avsRange (wf w
      PWR_AVS_REQ_rail) (wf w PWR_AVS_REQ_mv) = true → s.pwr.avs ≠ none → exec (.avsRequest q w) s = .next (completed q
      PWR_AVS_REQ true .state (((request q PWR_AVS_REQ s).set PWR_AVS_STAT_outcome Code.state.n).ret .state))) ∧
  (∀ (r : Avs) (mv : BitVec 16) (s : State), s.pwr.avs = some r → r.who ≠ 1 → s.pwr.st ≠ 3 → exec (.avsResponse 0 true (some
      mv)) s = .next (avsEnd { r with ack := some 0 } .done ((updPwr (fun p => { p with avs := some { r with ack := some 0 } })
      (s.set PWR_AVS_STAT_ack 0)).set PWR_AVS_STAT_read_mv mv.toNat))) ∧
  (∀ (r : Avs) (s : State), s.pwr.avs = some r → r.who ≠ 1 → s.pwr.st ≠ 3 → exec .avsAttemptTimeout s = .next (if s.get
      PWR_AVS_STAT_tries < 3 then s.set PWR_AVS_STAT_tries (s.get PWR_AVS_STAT_tries + 1) else avsEnd r (if r.ack = some 2 then
      .bus else .timeout) s)) ∧
  (∀ (q : Rq) (w : Word) (s : State), Sent q TH_CMD TH_CMD_fs w s → wf w TH_CMD_mask ≠ 0 → exec (.thermalDemand q w) s = .next
      ((if s.pwr.meas.isSome ∨ 2 ≤ s.pwr.st then measJoin (wf w TH_CMD_mask) ((request q TH_CMD s).set TH_CMD_outcome
      Code.held.n) else measStart (wf w TH_CMD_mask) ((request q TH_CMD s).set TH_CMD_outcome Code.held.n)).ret .held)) ∧
  (∀ (q : Rq) (w : Word) (s : State), Sent q TH_CMD TH_CMD_fs w s → wf w TH_CMD_mask = 0 → exec (.thermalDemand q w) s = .next
      (((request q TH_CMD s).set TH_CMD_outcome Code.range.n).ret .range)) ∧
  (∀ (s : State), (s.pwr.st ≤ 1 ∧ clkLive s = true) → exec .thermalTimerExpire s = .next (if s.pwr.meas.isSome then measJoin 255
      s else measStart 255 s)) ∧
  (∀ (mask : Nat) (temps : List Int) (s : State), s.pwr.meas = some mask → hkcHeld s = false → s.pwr.measNext = 0 → s.pwr.st ≠ 3
      → exec (.thermalMeasurementEnd temps) s = .next (measStop .done (readings mask temps s))) ∧
  (∀ (q : Rq) (k : Fin 3) (w : Word) (s : State), Sent q (TH_THR k) TH_THR_fs w s → (16 ≤ wf w (TH_THR_hyst k) ∧ wf w
      (TH_THR_hyst k) ≤ 320) → ((if k.val = 0 then sgn 16 (wf w (TH_THR_thr k)) else s.geti (TH_THR_thr 0)) ≤ (if k.val = 1 then
      sgn 16 (wf w (TH_THR_thr k)) else s.geti (TH_THR_thr 1)) ∧ (if k.val = 1 then sgn 16 (wf w (TH_THR_thr k)) else s.geti
      (TH_THR_thr 1)) ≤ (if k.val = 2 then sgn 16 (wf w (TH_THR_thr k)) else s.geti (TH_THR_thr 2))) → (k.val = 2 → sgn 16 (wf w
      (TH_THR_thr k)) ≤ 2000) → exec (.thresholdWrite q k w) s = .next ((wrote q (TH_THR k) TH_THR_fs w s).ret .done)) ∧
  (∀ (q : Rq) (w : Word) (s : State), Sent q (TH_THR 2) TH_THR_fs w s → (16 ≤ wf w (TH_THR_hyst 2) ∧ wf w (TH_THR_hyst 2) ≤ 320)
      → (s.geti (TH_THR_thr 0) ≤ s.geti (TH_THR_thr 1) ∧ s.geti (TH_THR_thr 1) ≤ sgn 16 (wf w (TH_THR_thr 2))) → 2000 < sgn 16
      (wf w (TH_THR_thr 2)) → exec (.thresholdWrite q 2 w) s = .next (completed q (TH_THR 2) true .guard ((request q (TH_THR 2)
      s).ret .guard))) ∧
  (∀ (s : State), s.pwr.st = 4 → exec .droopComparatorTrip s = .next (s.set PWR_STAT_droop_seen 1)) ∧
  (∀ (pins : BitVec 11) (s : State), (s.pwr.st = 1 ∧ s.pwr.forced = false ∧ sysSteady s = true) → (scEvent s = false ∧ wakeAny
      pins.toNat s = false) → (scEvent (larderSaveAll (scSaved s)) = false ∧ wakeAny pins.toNat (larderSaveAll (scSaved s)) =
      false) → exec (.stopEntry pins) s = .next (stopStep3 (larderSaveAll (scSaved s)))) ∧
  (∀ (pins : BitVec 11) (s : State), (s.pwr.st = 1 ∧ s.pwr.forced = false ∧ sysSteady s = true) → (scEvent s = true ∨ wakeAny
      pins.toNat s = true) → exec (.stopEntry pins) s = .next (stopAbandon s)) ∧
  (∀ (pins : BitVec 11) (s : State), s.pwr.st = 4 → wakeAny pins.toNat s = true → s.get PWR_MODE_avs_ret = 0 → exec
      (.wakeSourceQualified pins) s = .next (forN 27 blockUp (updRst (fun r => { r with atticBusy := true }) ((updPwr (fun p =>
      { p with st := 5, wake := none }) (setStop false ((((s.set PWR_STAT_wake_src (wakeActive pins.toNat s)).set PWR_MODE_mode
      0).set CRP_SYS_SEL_src 0).set CRP_CLK_STAT_sys_src 0))).set CRP_ATTIC_STAT_done 0)))) ∧
  (∀ (pins : BitVec 11) (s : State), (s.pwr.st = 2 ∨ s.pwr.st = 3) → wakeAny pins.toNat s = true → exec (.wakeSourceQualified
      pins) s = .next (updPwr (fun p => { p with wake := some pins.toNat }) s)) ∧
  (∀ (pins : BitVec 11) (s : State), wakeAny pins.toNat s = false → exec (.wakeSourceQualified pins) s = .next s) ∧
  (∀ (temps : List Int) (k : Cpu) (s : State), (s.pwr.st = 5 ∧ s.pwr.avs = none ∧ s.pwr.meas = none ∧ s.get
      CRP_CLK_STAT_fosc_ready = 1 ∧ s.rst.atticBusy = false ∧ fullHeld s = false) → s.get CRP_ATTIC_STAT_hold = 0 → (wakeMeasure
      temps (larderRestoreAll s)).pwr.forced = false → (wakeMeasure temps (larderRestoreAll s)).pwr.saved = some k → exec
      (.wakeResume temps) s = .next (woken (((updPwr (fun p => { p with st := 0, saved := none }) (updCpu 12 (fun _ => k)
      (wakeMeasure temps (larderRestoreAll s)))).set PWR_STAT_outcome Code.done.n).set PWR_STAT_reason 0))) ∧
  (∀ (temps : List Int) (s : State), (s.pwr.st = 5 ∧ s.pwr.avs = none ∧ s.pwr.meas = none ∧ s.get CRP_CLK_STAT_fosc_ready = 1 ∧
      s.rst.atticBusy = false ∧ fullHeld s = false) → s.get CRP_ATTIC_STAT_hold = 1 → exec (.wakeResume temps) s = .next
      (romStart (updPwr (fun p => { p with st := 0, forced := false, saved := none }) (cpuReset 12 s)))) ∧
  (∀ (s : State), (s.pwr.shut = true ∧ fullHeld s = false) → s.pwr.st ≤ 1 → sysSteady s = true → exec .shutdownStop s = .next
      (stopStep3 (larderSaveAll (updPwr (fun p => { p with forced := true, saved := none, shut := false }) s)))) ∧
  (∀ (s : State), (s.pwr.shut = true ∧ fullHeld s = false) → (2 ≤ s.pwr.st ∧ s.pwr.st ≤ 4) → exec .shutdownStop s = .next
      (updPwr (fun p => { p with shut := false, forced := true, saved := none }) s))

/-- Power at the ABSENT cellar leads to STARTING; the start's end leads to UNSEALED, to FAULT with a bad seal, and to RUNNING
with the totals and the time of the newest commit, or from zero totals without one. The seal is taken once, and deferrals,
tamper events and losses of supply count from it. A RUNNING cellar commits its totals to the next of four slots within the
temperature bounds and defers the commit outside them; a deferred commit is made up, with the log entries that waited, once the
sensor reads inside the inner bounds. The fall of the supply commits early; a scheduled commit still in progress within 2 ms is
abandoned and its slot invalid, and whether it is in progress is free. A record takes the next number and a snapshot, and its
completion fills its ring slot, sets the head and raises the event; the loss of supply clears totals and ring. Tamper changes
are logged at most once in 10 s each way, a level that is shown already changes nothing. Writes to the window end REFUSED_STATE
but for the event flags; one from outside that is not the owner's is refused and logged. Conventions of the model that a clause
may rest on: log 106, 107, 108, 178. (R448, R496, R497, R498, R499, R503, R504, R505, R506, R508, R509, R510.) -/
def Obligations.CellarRecords : Prop :=
  (∀ (s : State), celState s = 0 → ∃ t, exec .cellarPowerOn s = .next t ∧ celState t = 1 ∧ t.get CEL_EVT_state = 1 ∧ Pending 509
      t) ∧
  (∀ (s : State), celState s = 1 → s.cel.sealed = none → exec .cellarStartDone s = .next (logPut 3 s.cel.earlyOk.toNat (setCel 2
      (updCel (fun c => { c with earlyOk := false }) s)))) ∧
  (∀ (sl : Seal) (s : State), celState s = 1 → s.cel.sealed = some sl → sl.ok = false → exec .cellarStartDone s = .next (logPut
      3 s.cel.earlyOk.toNat (setCel 4 (updCel (fun c => { c with earlyOk := false }) s)))) ∧
  (∀ (sl : Seal) (g : CelSlot) (s : State), celState s = 1 → s.cel.sealed = some sl → sl.ok = true → newestSlot s.cel.slots =
      some g → ∃ t, exec .cellarStartDone s = .next t ∧ celState t = 3 ∧ t.cel.tot = g.tot ∧ t.cel.t = max s.cel.t g.t ∧
      t.cel.seq = g.seq ∧ t.cel.recNo = s.cel.recNo) ∧
  (∀ (sl : Seal) (s : State), celState s = 1 → s.cel.sealed = some sl → sl.ok = true → newestSlot s.cel.slots = none → ∃ t, exec
      .cellarStartDone s = .next t ∧ celState t = 3 ∧ t.cel.tot = List.replicate 16 {} ∧ t.cel.seq = 0 ∧ t.cel.empty = true ∧
      t.cel.recNo = s.cel.recNo) ∧
  (∀ (interval : Nat) (eth scale : List Nat) (trim : Nat) (crc : Word) (valid : Bool) (s : State), celState s ≠ 0 → s.cel.sealed
      = none → exec (.cellarSeal interval eth scale trim crc valid) s = .next (((updCel (fun c =>
      { c with sealed := some ⟨interval, eth, scale, trim, crc.toNat, valid⟩, defers := 0, tampers := 0, losses := 0 }) s).set
      CEL_ID_SEAL_CRC_seal_crc crc.toNat).set CEL_ID_INTERVAL_interval interval)) ∧
  (∀ (interval : Nat) (eth scale : List Nat) (trim : Nat) (crc : Word) (valid : Bool) (s : State), s.cel.sealed.isSome = true →
      exec (.cellarSeal interval eth scale trim crc valid) s = .next s) ∧
  (∀ (t : Int) (s : State), celState s = 3 → s.get CEL_STAT_deferred = 0 → (0 ≤ t ∧ t ≤ 1760) → exec (.cellarCommit t) s = .next
      (updCel (fun c => { c with sched := some (s.cel.next, s.cel.t) }) (commitSlot (((updCel (fun c =>
      { c with early := none }) s).seti CEL_TEMP_temp (satI 16 t)).set CEL_TEMP_valid 1)))) ∧
  (∀ (t : Int) (s : State), celState s = 3 → s.get CEL_STAT_deferred = 0 → (t < 0 ∨ 1760 < t) → exec (.cellarCommit t) s = .next
      (commitDefer (((updCel (fun c => { c with early := none }) s).seti CEL_TEMP_temp (satI 16 t)).set CEL_TEMP_valid 1))) ∧
  (∀ (t : Int) (s : State), celState s = 3 → s.get CEL_STAT_deferred = 1 → (32 ≤ t ∧ t ≤ 1728) → exec (.cellarCommit t) s =
      .next (logPut 6 0 (s.cel.logWait.foldl (fun u e => logWrite e u) (updCel (fun c => { c with logWait := [] }) (celEvt 2
      ((commitSlot (((updCel (fun c => { c with early := none }) s).seti CEL_TEMP_temp (satI 16 t)).set CEL_TEMP_valid 1)).set
      CEL_STAT_deferred 0)))))) ∧
  (∀ (t : Int) (s : State), celState s = 3 → s.get CEL_STAT_deferred = 1 → (t < 32 ∨ 1728 < t) → exec (.cellarCommit t) s =
      .next (commitDefer (((updCel (fun c => { c with early := none }) s).seti CEL_TEMP_temp (satI 16 t)).set CEL_TEMP_valid
      1))) ∧
  (∀ (s : State), (commitSlot s).cel.seq = s.cel.seq + 1 ∧ (commitSlot s).cel.next = (s.cel.next + 1) % 4 ∧ (commitSlot
      s).cel.slots = upd s.cel.slots s.cel.next (fun _ => some ⟨s.cel.seq + 1, s.cel.tot, s.cel.t⟩) ∧ (commitSlot s).cel.tot =
      s.cel.tot) ∧
  (∀ (t : Int) (s : State), celState s = 3 → (s.on CEL_STAT_deferred = true ∨ t < 0 ∨ 1760 < t) → exec (.cellarSupplyFall t) s =
      .next (commitDefer (updCel (fun c => { c with early := none }) (commitAbandon ((s.seti CEL_TEMP_temp (satI 16 t)).set
      CEL_TEMP_valid 1))))) ∧
  (∀ (t : Int) (s : State), celState s = 3 → s.get CEL_STAT_deferred = 0 → (0 ≤ t ∧ t ≤ 1760) → exec (.cellarSupplyFall t) s =
      .next (updCel (fun c => { c with early := some s.cel.next }) (commitSlot (updCel (fun c => { c with early := none })
      (commitAbandon ((s.seti CEL_TEMP_temp (satI 16 t)).set CEL_TEMP_valid 1)))))) ∧
  (∀ (i t0 : Nat) (s : State), s.cel.sched = some (i, t0) → (s.cel.t < t0 + 2 * msTicks → s.freeVal 1 = 1 → (commitAbandon
      s).cel.slots = upd s.cel.slots i fun _ => none) ∧
      (s.cel.t < t0 + 2 * msTicks → s.freeVal 1 ≠ 1 → (commitAbandon s).cel.slots = s.cel.slots) ∧
      (t0 + 2 * msTicks ≤ s.cel.t → (commitAbandon s).cel.slots = s.cel.slots) ∧
      (commitAbandon s).cel.sched = none ∧ (commitAbandon s).cel.next = s.cel.next ∧ (commitAbandon s).cel.tot = s.cel.tot) ∧
  (∀ (s : State), celState s = 3 → ∃ t, exec .cellarRecord s = .next t ∧ t.cel.recNo = s.cel.recNo + 1 ∧ t.cel.snap = some
      (s.cel.recNo + 1, recordBody (s.cel.recNo + 1) s) ∧ t.regs = s.regs ∧ t.cel.tot = s.cel.tot) ∧
  (∀ (seq : Nat) (body : List Byte) (s : State), celState s = 3 → s.cel.snap = some (seq, body) → ∃ t, exec
      .cellarRecordComplete s = .next t ∧ t.cel.snap = none ∧ t.cel.line = true ∧ t.rd CEL_REC_HEAD = BitVec.ofNat 32 seq ∧
      t.cel.prev = Config.shake256 16 (body ++ (Config.cellarSign seq body).take 1280) ∧ Pending 509 t) ∧
  (∀ (s : State), exec .celRecLineExpire s = .next (updCel (fun c => { c with line := false }) s)) ∧
  (∀ (met : Bool) (s : State), celState s ≠ 0 → ∃ t, exec (.cellarPowerLoss met) s = .next t ∧ celState t = 0 ∧ t.cel.tot =
      List.replicate 16 {} ∧ t.cel.ring = [] ∧ t.cel.snap = none ∧ t.cel.losses = s.cel.losses + s.cel.sealed.isSome.toNat ∧
      t.cel.recNo = s.cel.recNo ∧ t.cel.sealed = s.cel.sealed ∧ t.cel.log = s.cel.log) ∧
  (∀ (glitches : Nat) (s : State), celState s ≠ 0 → s.get CEL_STAT_tamper = 0 → s.cel.openAt = none → ∃ t, exec
      (.cellarTamperChange true glitches) s = .next t ∧ t.get CEL_STAT_tamper = 1 ∧ t.cel.tampers = s.cel.tampers +
      s.cel.sealed.isSome.toNat ∧ t.cel.openAt = some s.cel.t ∧ t.cel.changes = 0 ∧ Pending 509 t) ∧
  (∀ (glitches t0 : Nat) (s : State), celState s ≠ 0 → s.get CEL_STAT_tamper = 0 → s.cel.openAt = some t0 → s.cel.t < t0 + 10000
      * msTicks → ∃ t, exec (.cellarTamperChange true glitches) s = .next t ∧ t.get CEL_STAT_tamper = 1 ∧ t.cel.tampers =
      s.cel.tampers + s.cel.sealed.isSome.toNat ∧ t.cel.openAt = some t0 ∧ t.cel.changes = s.cel.changes + glitches + 1 ∧
      t.cel.log = s.cel.log ∧ Pending 509 t) ∧
  (∀ (glitches : Nat) (s : State), celState s ≠ 0 → s.get CEL_STAT_tamper = 1 → s.cel.closeAt = none → ∃ t, exec
      (.cellarTamperChange false glitches) s = .next t ∧ t.get CEL_STAT_tamper = 0 ∧ t.cel.tampers = s.cel.tampers ∧
      t.cel.closeAt = some s.cel.t ∧ t.cel.changes = 0 ∧ Pending 509 t) ∧
  (∀ (high : Bool) (glitches : Nat) (s : State), s.get CEL_STAT_tamper = high.toNat → exec (.cellarTamperChange high glitches) s
      = .next s) ∧
  (∀ (q : Rq) (o : Fin 65536) (w : Word) (s : State), CEL_STAT + o.val ≠ CEL_EVT → (CEL_STAT + o.val) % 4 = 0 → fencedAt
      (CEL_STAT + o.val) s = false → (q = .host && !mgmtAlive s) = false → (q.cls ≠ 0 ∧ isOwner q s = false) → exec
      (.cellarWindowWrite q o w) s = .next (completed q (CEL_STAT + o.val) true .notOwner (refuseLog q (CEL_STAT + o.val)
      .notOwner (request q (CEL_STAT + o.val) s)))) ∧
  (∀ (q : Rq) (o : Fin 65536) (w : Word) (s : State), CEL_STAT + o.val ≠ CEL_EVT → Sent q (CEL_STAT + o.val) [] w s → exec
      (.cellarWindowWrite q o w) s = .next (completed q (CEL_STAT + o.val) true .state ((request q (CEL_STAT + o.val) s).ret
      .state))) ∧
  (∀ (q : Rq) (w : Word) (o : Fin 65536) (s : State), CEL_STAT + o.val = CEL_EVT → Sent q CEL_EVT CEL_EVT_fs w s → exec
      (.cellarWindowWrite q o w) s = .next ((wrote q CEL_EVT CEL_EVT_fs w s).ret .done))

/-- A slice of a unit whose walk runs starts at its row outside the secret window, or at the row that the scrubber has named; a
slice that passes gives the row back and the walk goes on; one that fails is entered in the ledger and maps the lowest free
spare, without one the unit is exhausted; a TEST_ROW ends with its result, and one that waits starts. Where the write reaches
its register: TEST_ROW is HELD and starts, its row out of range ends ERR_RANGE, a second REFUSED_STATE; a repair is restored
into a free spare and ends REFUSED_STATE in a used one; a logic slice is HELD, out of range ERR_RANGE, a second REFUSED_STATE;
it starts on a parked core, its end counts and is DONE, a second failure of one slice running marks the core suspect, its time
limit ends it REFUSED_NOT_READY. Conventions of the model that a clause may rest on: log 109, 110, 163. (R512, R513, R516, R517,
R518, R519, R521, R522, R524, R526.) -/
def Obligations.SelfTest : Prop :=
  (∀ (u : Fin 15) (s : State), (walkRuns u s = true ∧ sliceOn u s = false) → nth s.scrubAgain u = none → openRow u (s.get
      (BST_MEM_UNIT_row u)) s = s.get (BST_MEM_UNIT_row u) → s.get (BST_MEM_UNIT_row u) < unitRows u → exec (.memSliceStart u) s
      = .next (sliceBegin u (s.get (BST_MEM_UNIT_row u)) 0 (s.set (BST_MEM_UNIT_row u) (s.get (BST_MEM_UNIT_row u))))) ∧
  (∀ (u : Fin 15) (a : Nat) (s : State), (walkRuns u s = true ∧ sliceOn u s = false) → nth s.scrubAgain u = some a → inSecret
      (unitBase u + 4096 * ((a - unitBase u) / 4096)) s = false → exec (.memSliceStart u) s = .next (sliceBegin u ((a - unitBase
      u) / 4096) 1 { s with scrubAgain := upd s.scrubAgain u fun _ => none })) ∧
  (∀ (u : Fin 15) (s : State), (walkRuns u s = true ∧ sliceOn u s = false) → nth s.scrubAgain u = none → openRow u
      (s.get (BST_MEM_UNIT_row u)) s ≠ s.get (BST_MEM_UNIT_row u) → openRow u
      ((walkTo u (s.get (BST_MEM_UNIT_row u)) s).get (BST_MEM_UNIT_row u)) (walkTo u (s.get (BST_MEM_UNIT_row u)) s) < unitRows
      u → exec (.memSliceStart u) s = .next
      (let t := walkTo u (s.get (BST_MEM_UNIT_row u)) s; let r := openRow u (t.get (BST_MEM_UNIT_row u)) t; sliceBegin u r 0 (t.set (BST_MEM_UNIT_row u) r))) ∧
  (∀ (u : Fin 15) (s : State), (walkRuns u s = false ∨ sliceOn u s = true) → exec (.memSliceStart u) s = .next s) ∧
  (∀ (u : Fin 15) (bd : Option (Fin 72)) (s : State), s.bst.slices = [] → exec (.memSliceEnd u bd) s = .next s) ∧
  (∀ (u : Fin 15) (x : BstSlice) (s : State), s.bst.slices = [x] → (x.u = u.val ∧ x.kind = 1) → s.bst.test = none → exec
      (.memSliceEnd u none) s = .next (updBst (fun b => { b with slices := [] }) s)) ∧
  (∀ (u : Fin 15) (x : BstSlice) (b : Fin 72) (s : State), s.bst.slices = [x] → (x.u = u.val ∧ x.kind = 0) → s.bst.test = none →
      ((walkTo u (x.row + 1) (sliceFailed u x.row b (updBst (fun b => { b with slices := [] }) s))).bst.test = none) → exec
      (.memSliceEnd u (some b)) s = .next (walkTo u (x.row + 1) (sliceFailed u x.row b (updBst (fun b =>
      { b with slices := [] }) s)))) ∧
  (∀ (u : Fin 15) (x : BstSlice) (s : State), s.bst.slices = [x] → (x.u = u.val ∧ x.kind = 2) → s.bst.test = none → exec
      (.memSliceEnd u none) s = .next (testEnd false (updBst (fun b => { b with slices := [] }) s))) ∧
  (∀ (u : Fin 15) (x : BstSlice) (row : Nat) (s : State), s.bst.slices = [x] → (x.u = u.val ∧ x.kind = 1) → s.bst.test = some
      (u.val, row) → exec (.memSliceEnd u none) s = .next (sliceBegin u row 2 (updBst (fun b => { b with test := none }) (updBst
      (fun b => { b with slices := [] }) s)))) ∧
  (∀ (u row b : Nat) (s : State), freeSpare u (ledger 1 u row 1 b s) = none → sliceFailed u row b s = bstEvt 0 (ledgerFree 4 u
      row none none ((ledger 1 u row 1 b s).set (BST_MEM_UNIT_exhausted u) 1))) ∧
  (∀ (u : Fin 15) (x : BstSlice) (s : State), s.bst.slices = [x] → (x.u = u.val ∧ x.kind = 0) → s.bst.test = none → exec
      (.memSliceEnd u none) s = .next (walkTo u (x.row + 1) (updBst (fun b => { b with slices := [] }) s))) ∧
  (∀ (u : Fin 15) (x : BstSlice) (b : Fin 72) (s : State), s.bst.slices = [x] → (x.u = u.val ∧ x.kind = 1) → s.bst.test = none →
      exec (.memSliceEnd u (some b)) s = .next (sliceFailed u x.row b (updBst (fun b => { b with slices := [] }) s))) ∧
  (∀ (u row b spare : Nat) (s : State), freeSpare u (ledger 1 u row 1 b s) = some spare → sliceFailed u row b s = bstEvt 0
      (ledgerFree 3 u row none (some spare) (mapRow u spare row (ledger 1 u row 1 b s)))) ∧
  (∀ (q : Rq) (u : Fin 15) (k : Fin 4) (row : BitVec 13) (s : State), Sent q (BST_REPAIR u k) BST_REPAIR_fs (repairWord u k row)
      s → s.get (BST_REPAIR_valid u k) = 0 → exec (.repairRestore q u k row) s = .next ((ledger 3 u (wf (repairWord u k row)
      (BST_REPAIR_row u k)) 3 k (mapRow u k (wf (repairWord u k row) (BST_REPAIR_row u k)) (rowSaved u (wf (repairWord u k row)
      (BST_REPAIR_row u k)) (request q (BST_REPAIR u k) s)))).ret .done)) ∧
  (∀ (q : Rq) (u : Fin 15) (k : Fin 4) (row : BitVec 13) (s : State), Sent q (BST_REPAIR u k) BST_REPAIR_fs (repairWord u k row)
      s → s.get (BST_REPAIR_valid u k) = 1 → s.chg (repairWord u k row) (BST_REPAIR_row u k) = true → exec (.repairRestore q u k
      row) s = .next (completed q (BST_REPAIR u k) true .state ((request q (BST_REPAIR u k) s).ret .state))) ∧
  (∀ (q : Rq) (u : BitVec 5) (row : BitVec 13) (s : State), Sent q BST_MEM_CMD BST_MEM_CMD_fs (testWord u row) s → s.get
      BST_MEM_RESULT_busy = 0 → (u.toNat ≤ 14 ∧ wf (testWord u row) BST_MEM_CMD_row < unitRows u.toNat) → sliceOn u.toNat s =
      false → exec (.testRow q u row) s = .next ((testStart u.toNat (updBst (fun b =>
      { b with test := some (u.toNat, wf (testWord u row) BST_MEM_CMD_row) }) ((((wrote q BST_MEM_CMD BST_MEM_CMD_fs (testWord u
      row) s).wr BST_MEM_RESULT 0).set BST_MEM_RESULT_busy 1).set BST_MEM_RESULT_outcome Code.held.n))).ret .held)) ∧
  (∀ (q : Rq) (u : BitVec 5) (row : BitVec 13) (s : State), Sent q BST_MEM_CMD BST_MEM_CMD_fs (testWord u row) s → s.get
      BST_MEM_RESULT_busy = 0 → 14 < wf (testWord u row) BST_MEM_CMD_unit → exec (.testRow q u row) s = .next (((request q
      BST_MEM_CMD s).set BST_MEM_RESULT_outcome Code.range.n).ret .range)) ∧
  (∀ (q : Rq) (u : BitVec 5) (row : BitVec 13) (s : State), Sent q BST_MEM_CMD BST_MEM_CMD_fs (testWord u row) s → s.get
      BST_MEM_RESULT_busy = 1 → exec (.testRow q u row) s = .next (completed q BST_MEM_CMD true .state ((request q BST_MEM_CMD
      s).ret .state))) ∧
  (∀ (q : Rq) (c : BitVec 4) (i : BitVec 6) (s : State), Sent q BST_LB_CMD BST_LB_CMD_fs (logicWord c i) s → s.bst.lb = none →
      (c.toNat ≤ 11 ∧ i.toNat ≤ 47) → exec (.logicSliceRequest q c i) s = .next ((updBst (fun b =>
      { b with lb := some (c.toNat, i.toNat, false) }) (((((wrote q BST_LB_CMD BST_LB_CMD_fs (logicWord c i) s).wr BST_LB_RESULT
      0).set BST_LB_RESULT_outcome Code.held.n).set BST_LB_RESULT_busy 1).set BST_LB_RESULT_core c.toNat |>.set
      BST_LB_RESULT_slice i.toNat)).ret .held)) ∧
  (∀ (q : Rq) (c : BitVec 4) (i : BitVec 6) (s : State), Sent q BST_LB_CMD BST_LB_CMD_fs (logicWord c i) s → s.bst.lb = none →
      (11 < c.toNat ∨ 47 < i.toNat) → exec (.logicSliceRequest q c i) s = .next (((request q BST_LB_CMD s).set
      BST_LB_RESULT_outcome Code.range.n).ret .range)) ∧
  (∀ (q : Rq) (c : BitVec 4) (i : BitVec 6) (s : State), Sent q BST_LB_CMD BST_LB_CMD_fs (logicWord c i) s → s.bst.lb ≠ none →
      exec (.logicSliceRequest q c i) s = .next (completed q BST_LB_CMD true .state ((request q BST_LB_CMD s).ret .state))) ∧
  (∀ (c i : Nat) (s : State), s.bst.lb = some (c, i, false) → exec .logicSliceStart s = .next (if lbReady c s then updBst (fun b
      => { b with lb := some (c, i, true) }) s else s) ∧
      exec .logicSliceTimeout s = .next (lbEnd .notReady 0 0 s)) ∧
  (∀ (c i : Nat) (s : State), s.bst.lb = some (c, i, true) → exec (.logicSliceEnd false) s = .next (lbEnd .done 0 0 ((updBst
      (fun b => { b with lbFail := b.lbFail.filter (fun x => decide (x ≠ (c, i))) }) s).incMod (BST_LB_STAT_runs c)))) ∧
  (∀ (c i : Nat) (s : State), s.bst.lb = some (c, i, true) → c < 12 → s.bst.lbFail = [] → exec (.logicSliceEnd true) s = .next
      (bstEvt 0 (lbEnd .done 1 0 ((((updBst (fun b => { b with lbFail := [(c, i)] }) s).incMod (BST_LB_STAT_runs c)).addSat
      (BST_LB_STAT_fails c) 1).set (BST_LB_STAT_last_fail c) i)))) ∧
  (∀ (c i : Nat) (s : State), s.bst.lb = some (c, i, true) → c < 12 → s.bst.lbFail = [(c, i)] → exec (.logicSliceEnd true) s =
      .next (bstEvt 0 (lbEnd .done 1 0 (((((updBst (fun b => { b with lbFail := [(c, i)] }) s).incMod (BST_LB_STAT_runs
      c)).addSat (BST_LB_STAT_fails c) 1).set (BST_LB_STAT_last_fail c) i).set (BST_LB_STAT_suspect c) 1)))) ∧
  (∀ (s : State), s.bst.lb = none → exec .logicSliceStart s = .next s ∧ exec (.logicSliceEnd true) s = .next s ∧ exec
      .logicSliceTimeout s = .next s)

/-- RETT of a core above level U whose stores have all completed without a fault: at S it sets pc to EPC, the level to plvl and
ie to pie (the cellar's core has no level but S); at K it does the same from KEPC and KSTATUS and clears nmi_act, for a saved
level that exists. While a store has no completion it waits: nothing but the stores' completion happens. (R304.) -/
def Obligations.ReturnFromTrap : Prop :=
  (∀ (c : Fin 14) (rd rs1 : Fin 32) (imm : BitVec 12) (s : State), Issues c s → Above c s → StoresDone c s → ((ready c s).cpu
      c).lvl ≠ 2 → c ≠ 13 → exec (.rett c rd rs1 imm) s = .next (updCpu c (fun k => { k with lvl := k.plvl, ie := k.pie }) (goTo
      c ((ready c s).cpu c).epc (ready c s)))) ∧
  (∀ (rd rs1 : Fin 32) (imm : BitVec 12) (s : State), Issues 12 s → Above 12 s → StoresDone 12 s → ((ready 12 s).cpu 12).lvl = 2
      → ((ready 12 s).cpu 12).kplvl < 3 → exec (.rett 12 rd rs1 imm) s = .next (updCpu 12 (fun k =>
      { k with lvl := ((ready 12 s).cpu 12).kplvl, ie := ((ready 12 s).cpu 12).kpie, nmiAct := false }) (goTo 12 ((ready 12
      s).cpu 12).kepc (ready 12 s)))) ∧
  (∀ (rd rs1 : Fin 32) (imm : BitVec 12) (s : State), Issues 13 s → Above 13 s → StoresDone 13 s → ((ready 13 s).cpu 13).lvl ≠ 2
      → exec (.rett 13 rd rs1 imm) s = .next (updCpu 13 (fun k => { k with lvl := 1, ie := k.pie }) (goTo 13 ((ready 13 s).cpu
      13).epc (ready 13 s)))) ∧
  (∀ (c : Fin 14) (rd rs1 : Fin 32) (imm : BitVec 12) (s : State), Issues c s → Above c s → ((ready c s).cpu c).serr = none →
      ((ready c s).cpu c).posted ≠ [] → exec (.rett c rd rs1 imm) s = .next (ready c s))

/-- For a core that can issue and whose fetch ends DONE: a number with bits 11:10 both 1, a number that is not listed, and a K
number on a core other than SC raise ILLEGAL; CSRRW and CSRRM on a read-only number raise ILLEGAL; an access from a level below
bits 11:10 raises PRIV; each at that instruction, with no register written. A listed CSR of a level that the core has is read.
(R291.) -/
def Obligations.CsrRights : Prop :=
  (∀ (c : Fin 14) (rd rs1 : Fin 32) (n : BitVec 12) (s : State), Issues c s → (n.toNat / 1024 = 3 ∨ csrListed n.toNat = false ∨
      (n.toNat / 1024 = 2 ∧ c ≠ 12)) → exec (.csrrw c rd rs1 n) s = .next (trap c 0 0 (wordS 0 rd rs1 n.toNat) (fetched c s)) ∧
      exec (.csrrm c rd rs1 n) s = .next (trap c 0 0 (wordS 2 rd rs1 n.toNat) (fetched c s)) ∧
      exec (.csrrd c rd 0 n) s = .next (trap c 0 0 (wordS 1 rd 0 n.toNat) (fetched c s))) ∧
  (∀ (c : Fin 14) (rd rs1 : Fin 32) (n : BitVec 12) (s : State), Issues c s → n.toNat / 512 % 2 = 1 → exec (.csrrw c rd rs1 n) s
      = .next (trap c 0 0 (wordS 0 rd rs1 n.toNat) (fetched c s)) ∧
      exec (.csrrm c rd rs1 n) s = .next (trap c 0 0 (wordS 2 rd rs1 n.toNat) (fetched c s))) ∧
  (∀ (c : Fin 14) (rd rs1 : Fin 32) (n : BitVec 12) (s : State), Issues c s → csrListed n.toNat = true → (n.toNat / 1024 ≠ 2 ∨ c
      = 12) → ((fetched c s).cpu c).lvl < n.toNat / 1024 → exec (.csrrd c rd 0 n) s = .next (trap c 1 0 (wordS 1 rd 0 n.toNat)
      (fetched c s)) ∧
      (n.toNat / 512 % 2 = 0 → exec (.csrrw c rd rs1 n) s = .next (trap c 1 0 (wordS 0 rd rs1 n.toNat) (fetched c s)) ∧
      exec (.csrrm c rd rs1 n) s = .next (trap c 1 0 (wordS 2 rd rs1 n.toNat) (fetched c s)))) ∧
  (∀ (c : Fin 14) (rd : Fin 32) (n : BitVec 12) (s : State), Issues c s → csrListed n.toNat = true → (n.toNat / 1024 ≠ 2 ∨ c =
      12) → n.toNat / 1024 ≤ ((fetched c s).cpu c).lvl → ((fetched c s).cpu c).lvl ≠ 0 → exec (.csrrd c rd 0 n) s = .next (goOn
      c (setW c rd (csrRead c n.toNat (fetched c s)).2 (csrRead c n.toNat (fetched c s)).1)))

/-- The owner is one class, and for FABRIC one device address of it. A write that changes an OWN field has its right where it
comes from the owner, from SC at level K or from a larder restore, and from no one else; every other internal master's write of
such a register, aligned and unfenced, is refused with REFUSED_NOT_OWNER and logged, and the register does not take it; a core
below level K then has a PRIV trap to take. (R447.) -/
def Obligations.OwnFields : Prop :=
  (∀ (q : Rq) (s : State), isOwner q s = true ↔ q.cls ≠ 0 ∧ s.get OWN_STAT_owner = q.cls ∧ (q.cls = 2 → s.get OWN_STAT_addr =
      q.faddr)) ∧
  (∀ (q : Rq) (lo n : Nat) (old w : Word) (lk : Bool) (s : State), fieldOf w lo n ≠ fieldOf old lo n → lacksRight q
      [(lo, n, .own)] old w lk s = false ↔ (isOwner q s = true ∨ q = .core 12 .k ∨ q = .larder)) ∧
  (∀ (q : Rq) (a lo n : Nat) (w : Word) (hook : State → State) (s : State), q.cls = 0 → (q ≠ .core 12 .k ∧ q ≠ .larder) → a % 4
      = 0 → fencedAt a s = false → fieldOf w lo n ≠ fieldOf (s.rd a) lo n → gated q a [(lo, n, .own)] w hook s = (match q with
      | .core c l => if l = .k then completed q a true .notOwner (refuseLog q a .notOwner (request q a s)) else storeErr c a
          .notOwner true (completed q a true .notOwner (refuseLog q a .notOwner (request q a s)))
      | _ => completed q a true .notOwner (refuseLog q a .notOwner (request q a s))))

/-- An event trap is taken only while ie is 1, and never on the cellar's core. The event that a core takes is maskable, pending,
routed to the core and enabled, and no other such event has a lower prio, or the same prio and a lower number; where no event is
chosen, none is pending, routed and enabled. Its entry clears the pending bit and writes the number into CAUSE.event. (R302,
R325.) -/
def Obligations.EventTraps : Prop :=
  (∀ (c : Fin 14) (s : State), ((s.cpu c).ie = false ∨ c = 13) → exec (.eventTrap c) s = .next s) ∧
  (∀ (c : Nat) (e : Nat) (s : State), evtNext c s = some e → 8 ≤ e ∧ e < 512 ∧ Pending e s ∧ s.get (EVR_ROUTE_core e) = c ∧
      s.get (EVR_ROUTE_en e) = 1 ∧
      ∀ k, k < 512 → (8 ≤ k ∧ Pending k s ∧ s.get (EVR_ROUTE_core k) = c ∧ s.get (EVR_ROUTE_en k) = 1) →
      s.get (EVR_ROUTE_prio e) < s.get (EVR_ROUTE_prio k) ∨ (s.get (EVR_ROUTE_prio e) = s.get (EVR_ROUTE_prio k) ∧ e ≤ k)) ∧
  (∀ (c : Nat) (s : State), evtNext c s = none → ∀ k, k < 512 → (8 ≤ k ∧ Pending k s ∧ s.get (EVR_ROUTE_core k) = c) → s.get
      (EVR_ROUTE_en k) = 0) ∧
  (∀ (c : Fin 13) (e : Nat) (s : State), (8 ≤ e ∧ e < 512) → c.val ≠ 12 → (s.cpu c).lvl ≠ 2 → c.val < s.cores.length → ¬Pending
      e (clearPend e s) ∧ fieldOf ((eventTrap c e s).cpu c).cause 16 9 = e ∧ ((eventTrap c e s).cpu c).pc = (s.cpu c).tvec +
      0x100 ∧ ((eventTrap c e s).cpu c).ie = false ∧ ((eventTrap c e s).cpu c).pie = (s.cpu c).ie ∧ ((eventTrap c e s).cpu
      c).plvl = (s.cpu c).lvl ∧ ((eventTrap c e s).cpu c).lvl = 1 ∧ ((eventTrap c e s).cpu c).epc = asyncEpc c s)

/-- A command of the line lanes, the host lanes, the band engine, the repeater, the listener or the front ends (chapters 02 to
09) leaves every byte of memory and its marks, the merge buffers, every core but its event counters, ownership and keys, DMA,
storage, power, clocks but the count of clocks started, resets, self-test and the waiting commands as they were; and it leaves
every register as it was but those of the radio blocks, the event router's pending bits and counters, the links' and the refusal
log's. (R21, R324, R452, R473, R547.) -/
def Obligations.RadioReach : Prop :=
∀ (i : Instr) (s t : State), isRadio i = true → exec i s = .next t → t.beyond = s.beyond ∧ ∀ a, ¬RadioReg a → t.rd a = s.rd a

/-- An integer, vector or complex instruction of a core that can issue and whose fetch ends DONE changes, beside what its fetch
does, the registers of its own core alone: all memory with its marks and buffers, every other core but its event counters, and
every register but the event router's pending bits and the counters are as the fetch left them, whether it completes or traps.
Conventions of the model that a clause may rest on: log 122. (R274, R275, R281, R282, R287, R288, R331.) -/
def Obligations.ComputeFrame : Prop :=
∀ (i : Instr) (c : Fin 14) (s t : State), computes i = some c → Issues c s → exec i s = .next t →
    t.others c = (fetched c s).others c ∧ ∀ a, ¬Router a → t.rd a = (fetched c s).rd a

/-- For a core (not the cellar's) that can issue, fetches from memory and finds no stored error, in a state that meets the
invariant: its fetch changes no byte as accesses see it (merge buffers first); a load from memory changes none, SB, SH, SW and
XCHG none outside the 1, 2, 4 and 4 bytes at their address, VLD none and VST none outside its 32 bytes, on every path; and a
store that is allowed, aligned and accepted without a code leaves the low bytes of rt there. Conventions of the model that a
clause may rest on: log 122. (R279, R283, R285, R286, R287, R311, R339, R340, R341.) -/
def Obligations.MemoryFrame : Prop :=
∀ (c : Fin 14) (rt rb : Fin 32) (sx : Bool) (off : BitVec 13) (s : State), Inv s → RunsFromMemory c s →
    SeenBut 0 0 s (fetched c s) ∧
    (InMemory (dataAt c rb off s) →
      (∃ t, exec (.lb c rt rb off) s = .next t ∧ SeenBut 0 0 s t) ∧ (∃ t, exec (.lbu c rt rb off) s = .next t ∧ SeenBut 0 0 s t)
      ∧
      (∃ t, exec (.lh c rt rb off) s = .next t ∧ SeenBut 0 0 s t) ∧ (∃ t, exec (.lhu c rt rb off) s = .next t ∧ SeenBut 0 0 s t)
      ∧
      (∃ t, exec (.lw c rt rb off) s = .next t ∧ SeenBut 0 0 s t) ∧
      (∃ t, exec (.sb c rt rb sx off) s = .next t ∧ SeenBut (dataAt c rb off s) 1 s t) ∧
      (∃ t, exec (.sh c rt rb sx off) s = .next t ∧ SeenBut (dataAt c rb off s) 2 s t) ∧
      (∃ t, exec (.sw c rt rb sx off) s = .next t ∧ SeenBut (dataAt c rb off s) 4 s t) ∧
      (∃ t, exec (.xchg c rt rb sx off) s = .next t ∧ SeenBut (dataAt c rb off s) 4 s t)) ∧
    (InMemory (named c (opnd c rb s) (fetched c s)) → ∀ (xb : Fin 32) (sel : Fin 8),
      (∃ t, exec (.vld c rt rb xb sel) s = .next t ∧ SeenBut 0 0 s t) ∧
      (∃ t, exec (.vst c rt rb xb sel) s = .next t ∧ SeenBut (named c (opnd c rb s) (fetched c s)) 32 s t)) ∧
    (InMemory (dataAt c rb off s) → StoreAccepted c rt rb 1 off s →
      ∃ t, exec (.sb c rt rb false off) s = .next t ∧ Stored (dataAt c rb off s) (leBytes 1 (opnd c rt s).toNat) t) ∧
    (InMemory (dataAt c rb off s) → StoreAccepted c rt rb 2 off s →
      ∃ t, exec (.sh c rt rb false off) s = .next t ∧ Stored (dataAt c rb off s) (leBytes 2 (opnd c rt s).toNat) t) ∧
    (InMemory (dataAt c rb off s) → StoreAccepted c rt rb 4 off s →
      ∃ t, exec (.sw c rt rb false off) s = .next t ∧ Stored (dataAt c rb off s) (leBytes 4 (opnd c rt s).toNat) t)

/-- Whatever command runs, and in an idle period: a cellar that is sealed stays sealed with the same words, the number of its
records never falls, and a key slot whose revoked bit is fused (two copies of three at least) stays revoked. Conventions of the
model that a clause may rest on: log 106. (R464, R466, R498, R506.) -/
def Obligations.RecordsAndKeysLast : Prop :=
∀ s t : State, step s = .next t → (∀ k, s.cel.sealed = some k → t.cel.sealed = some k) ∧ s.cel.recNo ≤ t.cel.recNo ∧
    ∀ i, majority (nth s.attic.slots i).revoked = true → majority (nth t.attic.slots i).revoked = true

/-- A register write that comes from HOST, FABRIC, PARTNER or HATCH and not from the owner, to a register other than OWN_CLAIM,
OWN_ACCEPT and OWN_LEASE, changes no state beside counters and pending bits but the refusal log, whatever the register's own
effect is; while its block has no clock it waits at the port and changes nothing else. On a live interface that is not limited,
aligned, unfenced and clocked, it completes with REFUSED_NOT_OWNER. (The lease's register is open here because R450 judges its
writes itself.) Conventions of the model that a clause may rest on: log 174. (R380, R447, R448, R450, R452.) -/
def Obligations.OutsideWrites : Prop :=
∀ (q : Rq) (a : Nat) (fs : List (Nat × Nat × Acc)) (w : Word) (hook : State → State) (s : State),
    q.cls ≠ 0 → isOwner q s = false → openWrite a = false →
    ({ (gated q a fs w hook s).bare with waits := [] } = { s.bare with waits := [] } ∧
      (portWaits a s = false → (gated q a fs w hook s).waits = s.waits) ∧
      ∀ b, ¬Router b → ¬(0x40700000 ≤ b ∧ b < 0x40709000) → (gated q a fs w hook s).rd b = s.rd b) ∧
    ((q = .host && !mgmtAlive s) = false → a % 4 = 0 → fencedAt a s = false → portWaits a s = false → mgmtLimits q a s = false →
      (gated q a fs w hook s).reply.code = .notOwner)

/-- No command faults or is refused by the model, in any state. With no command waiting a step lets one nominal period of the
band clock pass (the model's choice, log 3): the period is counted, the band clock counts where it runs, and the band time where
it runs and BND is not held, modulo 2^64. (R13, R15, R170.) -/
def Obligations.EveryCommandAnswers : Prop :=
(∀ (i : Instr) (s : State), ∃ t, exec i s = .next t) ∧
    ∀ s : State, s.pending = [] → ∃ t, step s = .next t ∧ t.pending = [] ∧ t.now = s.now + 1 ∧
      t.bclk = (if bandRuns s then s.bclk + 1 else s.bclk) ∧
      t.bandTime = (if bandRuns s && !blkHeld 17 s then (s.bandTime + 1) % 2 ^ 64 else s.bandTime)
end

