-- ==== Sys2Proof/Laws/Lists.lean ====
section
/-! SUPPORT. The lists of the state: the register list, the memory list, the association lists, element updates. -/

namespace Sys2Proof.Machine

/-! ## Element updates -/

@[simp] theorem upd_length {α : Type} (l : List α) (n : Nat) (f : α → α) : (upd l n f).length = l.length := by
  induction l generalizing n with
  | nil => rfl
  | cons x t ih => cases n <;> simp [upd, ih]

/-- The elements of an updated list are old ones or the changed one. -/
theorem mem_upd {α : Type} {l : List α} {n : Nat} {f : α → α} {x : α} (h : x ∈ upd l n f) : x ∈ l ∨ ∃ y ∈ l, x = f y := by
  induction l generalizing n with
  | nil => simp [upd] at h
  | cons y t ih =>
    cases n with
    | zero =>
      simp only [upd, List.mem_cons] at h
      rcases h with h | h
      · exact .inr ⟨y, by simp, h⟩
      · exact .inl (by simp [h])
    | succ n =>
      simp only [upd, List.mem_cons] at h
      rcases h with h | h
      · exact .inl (by simp [h])
      · rcases ih h with h | ⟨z, hz, e⟩
        · exact .inl (by simp [h])
        · exact .inr ⟨z, by simp [hz], e⟩

theorem nth_upd {α : Type} [Inhabited α] (l : List α) (i j : Nat) (f : α → α) :
    nth (upd l i f) j = if i = j ∧ i < l.length then f (nth l i) else nth l j := by
  induction l generalizing i j with
  | nil => simp [upd, nth]
  | cons x t ih =>
    cases i <;> cases j <;> simp [upd, nth] at *
    · simpa [nth] using ih _ _

/-! ## The register list -/

theorem regFind_erase (l : List (Nat × Word)) (a b : Nat) : regFind (regErase l a) b = if a = b then none else regFind l b := by
  induction l with
  | nil => simp [regErase, regFind]
  | cons x t ih =>
    obtain ⟨c, v⟩ := x
    simp only [regErase]
    split
    · next h => subst h; rw [ih]; by_cases h : a = b <;> simp [regFind, h, Ne.symm]
    · next h =>
      simp only [regFind, ih]
      by_cases e : a = b
      · subst e; simp [h]
      · simp [e]

theorem regFind_insert (l : List (Nat × Word)) (a b : Nat) (v : Word) :
    regFind (regInsert l a v) b = if a = b then some v else regFind l b := by
  induction l with
  | nil => simp [regInsert, regFind, eq_comm]
  | cons x t ih =>
    obtain ⟨c, u⟩ := x
    simp only [regInsert]
    split
    · simp only [regFind]; by_cases e : a = b <;> simp [e, eq_comm]
    · split
      · next h => subst h; simp only [regFind]; by_cases e : a = b <;> simp [e, eq_comm]
      · simp only [regFind, ih]
        by_cases e : a = b
        · subst e; simp [*]
        · simp [e]

theorem regErase_sub (l : List (Nat × Word)) (a : Nat) : (regErase l a).Sublist l := by
  induction l with
  | nil => simp [regErase]
  | cons x t ih =>
    obtain ⟨c, v⟩ := x
    simp only [regErase]
    split
    · exact ih.cons _
    · exact ih.cons_cons _

theorem RegsOk.sub {l m : List (Nat × Word)} (h : RegsOk l) (s : m.Sublist l) : RegsOk m :=
  ⟨h.1.sublist s, fun e he => h.2 e (s.subset he)⟩

theorem mem_regInsert {l : List (Nat × Word)} {a : Nat} {v : Word} {e : Nat × Word} (h : e ∈ regInsert l a v) :
    e = (a, v) ∨ e ∈ l := by
  induction l with
  | nil => simpa [regInsert] using h
  | cons x t ih =>
    obtain ⟨c, u⟩ := x
    simp only [regInsert] at h
    split at h
    · simpa using h
    · split at h
      · simp only [List.mem_cons] at h ⊢; tauto
      · simp only [List.mem_cons] at h ⊢
        rcases h with h | h
        · exact .inr (.inl h)
        · rcases ih h with h | h <;> simp [h]

theorem RegsOk.insert {l : List (Nat × Word)} (h : RegsOk l) (a : Nat) {v : Word} (hv : v ≠ resetWord a) :
    RegsOk (regInsert l a v) := by
  refine ⟨?_, fun e he => ?_⟩
  · obtain ⟨hp, -⟩ := h
    induction l with
    | nil => simp [regInsert]
    | cons x t ih =>
      obtain ⟨c, u⟩ := x
      simp only [List.pairwise_cons] at hp
      simp only [regInsert]
      split
      · next hac =>
        simp only [List.pairwise_cons, List.mem_cons]
        refine ⟨?_, hp.1, hp.2⟩
        rintro y (rfl | hy)
        · exact hac
        · exact hac.trans (hp.1 y hy)
      · split
        · next hac => subst hac; simp only [List.pairwise_cons]; exact ⟨hp.1, hp.2⟩
        · simp only [List.pairwise_cons]
          refine ⟨fun y hy => ?_, ih hp.2⟩
          rcases mem_regInsert hy with rfl | hy
          · dsimp only; omega
          · exact hp.1 y hy
  · rcases mem_regInsert he with rfl | he
    · exact hv
    · exact h.2 e he

theorem RegsOk.erase {l : List (Nat × Word)} (h : RegsOk l) (a : Nat) : RegsOk (regErase l a) := h.sub (regErase_sub l a)

/-! ## The memory list -/

theorem memErase_sub (l : List Host.Cell) (a : Nat) : (memErase l a).Sublist l := by
  induction l with
  | nil => simp [memErase]
  | cons x t ih =>
    obtain ⟨c, v⟩ := x
    simp only [memErase]
    split
    · exact ih.cons _
    · exact ih.cons_cons _

theorem memFind_erase (l : List Host.Cell) (a b : Nat) : memFind (memErase l a) b = if a = b then 0 else memFind l b := by
  induction l with
  | nil => simp [memErase, memFind]
  | cons x t ih =>
    obtain ⟨c, v⟩ := x
    simp only [memErase]
    split
    · next h =>
      subst h; rw [ih]
      by_cases h : a = b
      · simp [h]
      · simp [memFind, h, Ne.symm h]
    · next h =>
      simp only [memFind, ih]
      by_cases e : a = b
      · subst e; simp [h]
      · simp [e]

theorem memFind_insert (l : List Host.Cell) (a b : Nat) (v : Byte) :
    memFind (memInsert l a v) b = if a = b then v else memFind l b := by
  induction l with
  | nil => simp [memInsert, memFind, eq_comm]
  | cons x t ih =>
    obtain ⟨c, u⟩ := x
    simp only [memInsert]
    split
    · simp only [memFind]; by_cases e : a = b <;> simp [e, eq_comm]
    · split
      · next h => subst h; simp only [memFind]; by_cases e : a = b <;> simp [e, eq_comm]
      · simp only [memFind, ih]
        by_cases e : a = b
        · subst e; simp [*]
        · simp [e]

/-- A read after a write of one byte. -/
theorem memFind_put (l : List Host.Cell) (a b : Nat) (v : Byte) :
    memFind (memPut l a v) b = if a = b then v else memFind l b := by
  unfold memPut
  split
  · next h => rw [memFind_erase]; simp [h]
  · exact memFind_insert ..

theorem mem_memInsert {l : List Host.Cell} {a : Nat} {v : Byte} {e : Host.Cell} (h : e ∈ memInsert l a v) :
    e = (a, v) ∨ e ∈ l := by
  induction l with
  | nil => simpa [memInsert] using h
  | cons x t ih =>
    obtain ⟨c, u⟩ := x
    simp only [memInsert] at h
    split at h
    · simpa using h
    · split at h
      · simp only [List.mem_cons] at h ⊢; tauto
      · simp only [List.mem_cons] at h ⊢
        rcases h with h | h
        · exact .inr (.inl h)
        · rcases ih h with h | h <;> simp [h]

/-- The canonical form as propositions. -/
theorem Memory.wf_iff (l : List Host.Cell) : Memory.wf l = true ↔ (∀ e ∈ l, e.2 ≠ 0) ∧ l.Pairwise fun x y => x.1 < y.1 := by
  simp [Memory.wf]

theorem Memory.wf_sub {l m : List Host.Cell} (h : Memory.wf l = true) (s : m.Sublist l) : Memory.wf m = true := by
  rw [Memory.wf_iff] at *
  exact ⟨fun e he => h.1 e (s.subset he), h.2.sublist s⟩

theorem Memory.wf_insert {l : List Host.Cell} (h : Memory.wf l = true) (a : Nat) {v : Byte} (hv : v ≠ 0) :
    Memory.wf (memInsert l a v) = true := by
  rw [Memory.wf_iff] at *
  refine ⟨fun e he => ?_, ?_⟩
  · rcases mem_memInsert he with rfl | he
    · exact hv
    · exact h.1 e he
  · obtain ⟨-, hp⟩ := h
    induction l with
    | nil => simp [memInsert]
    | cons x t ih =>
      obtain ⟨c, u⟩ := x
      simp only [List.pairwise_cons] at hp
      simp only [memInsert]
      split
      · next hac =>
        simp only [List.pairwise_cons, List.mem_cons]
        refine ⟨?_, hp.1, hp.2⟩
        rintro y (rfl | hy)
        · exact hac
        · exact hac.trans (hp.1 y hy)
      · split
        · next hac => subst hac; simp only [List.pairwise_cons]; exact ⟨hp.1, hp.2⟩
        · simp only [List.pairwise_cons]
          refine ⟨fun y hy => ?_, ih hp.2⟩
          rcases mem_memInsert hy with rfl | hy
          · dsimp only; omega
          · exact hp.1 y hy

/-- A write of one byte keeps the canonical form. -/
theorem Memory.wf_put {l : List Host.Cell} (h : Memory.wf l = true) (a : Nat) (v : Byte) : Memory.wf (memPut l a v) = true := by
  unfold memPut
  split
  · exact Memory.wf_sub h (memErase_sub l a)
  · next hv => exact Memory.wf_insert h a hv

/-! ## Association lists -/

theorem mem_natInsert {l : List (Nat × Nat)} {a v : Nat} {e : Nat × Nat} (h : e ∈ natInsert l a v) : e = (a, v) ∨ e ∈ l := by
  induction l with
  | nil => simpa [natInsert] using h
  | cons x t ih =>
    obtain ⟨c, u⟩ := x
    simp only [natInsert] at h
    split at h
    · simpa using h
    · split at h
      · simp only [List.mem_cons] at h ⊢; tauto
      · simp only [List.mem_cons] at h ⊢
        rcases h with h | h
        · exact .inr (.inl h)
        · rcases ih h with h | h <;> simp [h]

theorem EccOk.insert {l : List (Nat × Nat)} (h : EccOk l) (a : Nat) {v : Nat} (hv : v = 1 ∨ v = 2) : EccOk (natInsert l a v) := by
  refine ⟨?_, fun e he => ?_⟩
  · obtain ⟨hp, -⟩ := h
    induction l with
    | nil => simp [natInsert]
    | cons x t ih =>
      obtain ⟨c, u⟩ := x
      simp only [List.pairwise_cons] at hp
      simp only [natInsert]
      split
      · next hac =>
        simp only [List.pairwise_cons, List.mem_cons]
        refine ⟨?_, hp.1, hp.2⟩
        rintro y (rfl | hy)
        · exact hac
        · exact hac.trans (hp.1 y hy)
      · split
        · next hac => subst hac; simp only [List.pairwise_cons]; exact ⟨hp.1, hp.2⟩
        · simp only [List.pairwise_cons]
          refine ⟨fun y hy => ?_, ih hp.2⟩
          rcases mem_natInsert hy with rfl | hy
          · dsimp only; omega
          · exact hp.1 y hy
  · rcases mem_natInsert he with rfl | he
    · exact hv
    · exact h.2 e he

theorem EccOk.sub {l m : List (Nat × Nat)} (h : EccOk l) (s : m.Sublist l) : EccOk m :=
  ⟨h.1.sublist s, fun e he => h.2 e (s.subset he)⟩

theorem natErase_sub (l : List (Nat × Nat)) (a : Nat) : (natErase l a).Sublist l := by
  induction l with
  | nil => simp [natErase]
  | cons x t ih =>
    obtain ⟨c, v⟩ := x
    simp only [natErase]
    split
    · exact ih.cons _
    · exact ih.cons_cons _

theorem EccOk.erase {l : List (Nat × Nat)} (h : EccOk l) (a : Nat) : EccOk (natErase l a) := h.sub (natErase_sub l a)

end Sys2Proof.Machine
end

