-- ==== Sys2Proof/Laws/Regs.lean ====
section
/-! SUPPORT. What a register and a field read as after a write of a register or a field. -/

namespace Sys2Proof.Machine

/-! ## Registers -/

/-- A register reads as it was last written; the others read as before. -/
theorem rd_wr (s : State) (a b : Nat) (v : Word) : (s.wr a v).rd b = if a = b then v else s.rd b := by
  simp only [State.wr, State.rd]
  split
  · next h =>
    rw [regFind_erase]
    by_cases e : a = b
    · subst e; simp [h]
    · simp [e]
  · rw [regFind_insert]
    by_cases e : a = b <;> simp [e]

@[simp] theorem rd_wr_self (s : State) (a : Nat) (v : Word) : (s.wr a v).rd a = v := by simp [rd_wr]

theorem rd_wr_ne (s : State) {a b : Nat} (v : Word) (h : a ≠ b) : (s.wr a v).rd b = s.rd b := by simp [rd_wr, h]

theorem rd_set_ne (s : State) {f : Fd} {b : Nat} (v : Nat) (h : f.a ≠ b) : (s.set f v).rd b = s.rd b := rd_wr_ne s _ h

theorem rd_seti_ne (s : State) {f : Fd} {b : Nat} (v : Int) (h : f.a ≠ b) : (s.seti f v).rd b = s.rd b := rd_wr_ne s _ h

theorem rd_addSat_ne (s : State) {f : Fd} {b : Nat} (v : Nat) (h : f.a ≠ b) : (s.addSat f v).rd b = s.rd b := rd_wr_ne s _ h

theorem rd_incMod_ne (s : State) {f : Fd} {b : Nat} (h : f.a ≠ b) : (s.incMod f).rd b = s.rd b := rd_wr_ne s _ h

theorem rd_store_ne (s : State) {a b : Nat} (fs : List (Nat × Nat × Acc)) (w : Word) (h : a ≠ b) :
    (s.store a fs w).rd b = s.rd b := rd_wr_ne s _ h

/-- A register outside the range keeps its word; one inside has its reset word. -/
theorem rd_dropRange (s : State) (lo hi a : Nat) :
    (s.dropRange lo hi).rd a = if lo ≤ a ∧ a < hi then resetWord a else s.rd a := by
  have key : ∀ l : List (Nat × Word), regFind (l.filter fun e => ! (decide (lo ≤ e.1) && decide (e.1 < hi))) a =
      if lo ≤ a ∧ a < hi then none else regFind l a := by
    intro l
    induction l with
    | nil => simp [regFind]
    | cons x t ih =>
      obtain ⟨b, v⟩ := x
      rw [List.filter_cons]
      split
      · next h =>
        simp only [regFind, ih]
        by_cases e : a = b
        · subst e
          have : ¬(lo ≤ a ∧ a < hi) := by simp at h; omega
          simp [this]
        · simp [e]
      · next h =>
        simp only [regFind, ih]
        by_cases e : a = b
        · subst e
          have : lo ≤ a ∧ a < hi := by simpa using h
          simp [this]
        · simp [e]
  simp only [State.dropRange, State.rd, key]
  split <;> simp

/-! ## Fields -/

theorem testBit_fieldOf (w : Word) (lo n i : Nat) : (fieldOf w lo n).testBit i = (decide (i < n) && w.getLsbD (lo + i)) := by
  simp only [fieldOf, Nat.testBit_mod_two_pow, Nat.testBit_div_two_pow, BitVec.getLsbD]
  rw [Nat.add_comm]

theorem getLsbD_putField (w : Word) (lo n v i : Nat) (hi : i < 32) :
    (putField w lo n v).getLsbD i = if lo ≤ i ∧ i < lo + n then v.testBit (i - lo) else w.getLsbD i := by
  simp only [putField, BitVec.getLsbD_or, BitVec.getLsbD_and, BitVec.getLsbD_not, BitVec.getLsbD_ofNat, hi, decide_true, Bool.true_and]
  simp only [Nat.testBit_mul_two_pow, Nat.testBit_two_pow_sub_one, Nat.testBit_mod_two_pow]
  by_cases h1 : lo ≤ i <;> by_cases h2 : i < lo + n
  · have : i - lo < n := by omega
    simp [h1, h2, this]
  · have : ¬ i - lo < n := by omega
    simp [h1, h2, this]
  · simp [h1]
  · simp [h1]

/-- A field reads as it was last written. -/
theorem fieldOf_putField (w : Word) (lo n v : Nat) (h : lo + n ≤ 32) : fieldOf (putField w lo n v) lo n = v % 2 ^ n := by
  apply Nat.eq_of_testBit_eq
  intro i
  rw [testBit_fieldOf, Nat.testBit_mod_two_pow]
  by_cases hi : i < n
  · rw [getLsbD_putField _ _ _ _ _ (by omega)]
    simp [hi]
  · simp [hi]

/-- Another field of the register keeps its value. -/
theorem fieldOf_putField_ne (w : Word) (lo n v a b : Nat) (h : lo + n ≤ a ∨ a + b ≤ lo) (hb : a + b ≤ 32) :
    fieldOf (putField w lo n v) a b = fieldOf w a b := by
  apply Nat.eq_of_testBit_eq
  intro i
  rw [testBit_fieldOf, testBit_fieldOf]
  by_cases hi : i < b
  · rw [getLsbD_putField _ _ _ _ _ (by omega), if_neg (by omega)]
  · simp [hi]

theorem get_set (s : State) (f : Fd) (v : Nat) (h : f.lo + f.w ≤ 32) : (s.set f v).get f = v % 2 ^ f.w := by
  simp only [State.get, State.set, rd_wr_self]
  exact fieldOf_putField _ _ _ _ h

theorem get_set_addr (s : State) {f g : Fd} (v : Nat) (h : f.a ≠ g.a) : (s.set f v).get g = s.get g := by
  simp only [State.get, rd_set_ne s v h]

theorem get_set_bits (s : State) {f g : Fd} (v : Nat) (h : f.lo + f.w ≤ g.lo ∨ g.lo + g.w ≤ f.lo) (hg : g.lo + g.w ≤ 32) :
    (s.set f v).get g = s.get g := by
  by_cases e : f.a = g.a
  · simp only [State.get, State.set, e, rd_wr_self]
    exact fieldOf_putField_ne _ _ _ _ _ _ h hg
  · exact get_set_addr s v e

/-- A one-bit field that was set reads as set. -/
theorem on_set (s : State) (f : Fd) (h : f.lo + 1 ≤ 32) (hw : f.w = 1) : (s.set f 1).on f = true := by
  simp [State.on, get_set s f 1 (by omega), hw]

/-- The forced field of a written word. -/
theorem wf_force (w : Word) {f : Fd} {v : Nat} (h : f.lo + f.w ≤ 32) : wf (force w f v) f = v % 2 ^ f.w := fieldOf_putField _ _ _ _ h

/-- Another field of a written word with one field forced. -/
theorem wf_force_ne (w : Word) {f g : Fd} {v : Nat} (h : f.lo + f.w ≤ g.lo ∨ g.lo + g.w ≤ f.lo) (hg : g.lo + g.w ≤ 32) :
    wf (force w f v) g = wf w g := fieldOf_putField_ne _ _ _ _ _ _ h hg

end Sys2Proof.Machine
end

