-- ==== Sys2Proof/Laws/Quiet.lean ====
section
/-! SUPPORT. What an event, a count and an access leave alone: every register but the router's, and all that a state holds
beside counters. -/

namespace Sys2Proof.Machine

/-- t differs from s in the router's registers, counters and the model's own counts alone; what was pending is pending. -/
def Quiet (s t : State) : Prop :=
  (∀ a, ¬Router a → t.rd a = s.rd a) ∧ t.bare = s.bare ∧ ∀ e, Pending e s → Pending e t

theorem Quiet.refl (s : State) : Quiet s s := ⟨fun _ _ => rfl, rfl, fun _ h => h⟩

theorem Quiet.trans {a b c : State} (h : Quiet a b) (g : Quiet b c) : Quiet a c :=
  ⟨fun x hx => (g.1 x hx).trans (h.1 x hx), g.2.1.trans h.2.1, fun e he => g.2.2 e (h.2.2 e he)⟩

theorem Quiet.foldl {α : Type} {o s : State} {l : List α} {f : State → α → State} (h : Quiet o s)
    (hf : ∀ s x, x ∈ l → Quiet o s → Quiet o (f s x)) : Quiet o (l.foldl f s) := by
  induction l generalizing s with
  | nil => exact h
  | cons x t ih => exact ih (hf s x (by simp) h) fun s y hy => hf s y (by simp [hy])

theorem Quiet.foldl1 {α β : Type} {o : State} {p : State × β} {l : List α} {f : State × β → α → State × β}
    (h : Quiet o p.1) (hf : ∀ p x, x ∈ l → Quiet o p.1 → Quiet o (f p x).1) : Quiet o (l.foldl f p).1 := by
  induction l generalizing p with
  | nil => exact h
  | cons x t ih => exact ih (hf p x (by simp) h) fun s y hy => hf s y (by simp [hy])

/-! ## Steps -/

/-- A write of a counter register, which is no pending word. -/
theorem Quiet.wr {o s : State} {a : Nat} {v : Word} (h : Quiet o s) (ha : 0x40A00000 ≤ a ∧ a < 0x40A01000) : Quiet o (s.wr a v) := by
  refine h.trans ⟨fun b hb => rd_wr_ne s v ?_, rfl, fun e he => ?_⟩
  · rintro rfl
    exact hb (.inr ha)
  · have : (pendBit e).a ≠ a := by simp only [pendBit, EVR_PEND]; omega
    simp only [Pending, State.get] at he ⊢
    rwa [rd_wr_ne s v (Ne.symm this)]

theorem Quiet.set {o s : State} {f : Fd} {v : Nat} (h : Quiet o s) (ha : 0x40A00000 ≤ f.a ∧ f.a < 0x40A01000) : Quiet o (s.set f v) :=
  h.wr ha

theorem Quiet.sendIbi {o s : State} {b : Bool} (h : Quiet o s) : Quiet o (Machine.sendIbi b s) := by
  unfold Machine.sendIbi
  split
  · exact h.trans ⟨fun _ _ => rfl, rfl, fun _ he => he⟩
  · exact h

theorem Quiet.setPend {o s : State} {e : Nat} (h : Quiet o s) : Quiet o (Machine.setPend e s) := by
  refine Quiet.sendIbi (h.trans ⟨fun b hb => rd_set_ne s 1 ?_, rfl, fun k hk => ?_⟩)
  · rintro rfl
    apply hb
    simp only [Router, pendBit, EVR_PEND]
    omega
  · by_cases q : pendBit e = pendBit k
    · simp only [Pending, ← q]
      rw [get_set _ _ _ (by simp only [pendBit]; omega)]
      simp [pendBit]
    · simp only [Pending] at hk ⊢
      by_cases a : (pendBit e).a = (pendBit k).a
      · rw [get_set_bits]
        · exact hk
        · simp only [pendBit, EVR_PEND, Fd.mk.injEq, and_true] at q a ⊢
          omega
        · simp only [pendBit]; omega
      · rw [get_set_addr _ _ a]
        exact hk

/-- A change of a core's counters. -/
theorem Quiet.updCpu {o s : State} {c : Nat} {f : Cpu → Cpu} (h : Quiet o s) (hf : ∀ k, (f k).bare = k.bare) :
    Quiet o (Machine.updCpu c f s) := by
  refine h.trans ⟨fun _ _ => rfl, ?_, fun _ he => he⟩
  have : ∀ (l : List Cpu) n, (upd l n f).map Cpu.bare = l.map Cpu.bare := by
    intro l
    induction l with
    | nil => intro n; rfl
    | cons x t ih => intro n; cases n <;> simp [upd, hf, ih]
  simp only [State.bare, Machine.updCpu, this]

theorem Quiet.free {o s : State} (h : Quiet o s) : Quiet o s.freeNext := h.trans ⟨fun _ _ => rfl, rfl, fun _ he => he⟩
theorem Quiet.ret {o s : State} {c : Code} (h : Quiet o s) : Quiet o (s.ret c) := h.trans ⟨fun _ _ => rfl, rfl, fun _ he => he⟩
theorem Quiet.retData {o s : State} {d : List Word} (h : Quiet o s) : Quiet o (s.retData d) :=
  h.trans ⟨fun _ _ => rfl, rfl, fun _ he => he⟩

/-! ## Counters and events -/

theorem Quiet.cntWrap {o s : State} {c j : Nat} {p : Occ} (hc : c < 14) (h : Quiet o s) :
    Quiet o (Machine.cntWrap c j p s).1 := by
  unfold Machine.cntWrap
  have g : Quiet o (Machine.updCpu c (fun k => { k with cntSel := upd k.cntSel j fun w => w ||| 0x20000000 }) s) :=
    h.updCpu fun _ => rfl
  dsimp only
  split
  · refine Quiet.free (Quiet.wr (Quiet.wr g ?_) ?_) <;> simp only [PMC_SKID, PMC_SKID_PC] <;> omega
  · exact g

theorem Quiet.cntAdd {o s : State} {c evt n : Nat} {p : Occ} (hc : c < 14) (h : Quiet o s) : Quiet o (Machine.cntAdd c evt n p s).1 := by
  unfold Machine.cntAdd
  refine Quiet.foldl1 h fun q j _ g => ?_
  split
  · dsimp only
    have k : Quiet o (Machine.updCpu c (fun k => { k with cnt := upd k.cnt j fun _ => (nth (q.1.cpu c).cnt j + n) % 2 ^ 48 }) q.1) :=
      g.updCpu fun _ => rfl
    split
    · exact k
    · exact Quiet.cntWrap hc k
  · exact g

theorem Quiet.updPmc {o s : State} {j : Nat} {f : Nat → Nat} (h : Quiet o s) : Quiet o (Machine.updPmc j f s) :=
  h.trans ⟨fun _ _ => rfl, rfl, fun _ he => he⟩

theorem Quiet.pmcAdd {o s : State} {evt n : Nat} {m : Option Nat} {p : Occ} (h : Quiet o s) : Quiet o (Machine.pmcAdd evt n m p s).1 := by
  unfold Machine.pmcAdd
  split
  · exact h
  · refine Quiet.foldl1 h fun q j hj g => ?_
    split
    · dsimp only
      split
      · exact g.updPmc
      · refine Quiet.set g.updPmc ?_
        have := List.mem_range.1 hj
        simp only [PMC_SEL_ovf, PMC_SEL]
        omega
    · exact g

theorem Quiet.raiseN {o s : State} {f e : Nat} (h : Quiet o s) : Quiet o (Machine.raiseN f e s) := by
  induction f generalizing e s with
  | zero => exact h.setPend
  | succ f ih =>
    unfold Machine.raiseN
    dsimp only
    refine Quiet.foldl (Quiet.pmcAdd ?_) fun s x _ g => ih g
    split
    · exact h.setPend
    · exact Quiet.foldl1 h.setPend fun q c hc g => Quiet.cntAdd (by have := List.mem_range.1 hc; omega) g

theorem Quiet.raise {o s : State} {e : Nat} (h : Quiet o s) : Quiet o (s.raise e) := Quiet.raiseN h

theorem Quiet.count {o s : State} {c evt n : Nat} {p : Occ} (hc : c < 14) (h : Quiet o s) : Quiet o (Machine.count c evt n p s) := by
  unfold Machine.count
  split
  · exact h
  · exact Quiet.foldl (Quiet.cntAdd hc h) fun _ _ _ g => g.raise

theorem Quiet.pmcCount {o s : State} {evt n : Nat} {m : Option Nat} {p : Occ} (h : Quiet o s) : Quiet o (Machine.pmcCount evt n m p s) :=
  Quiet.foldl (Quiet.pmcAdd h) fun _ _ _ g => g.raise

/-! ## Accesses -/

theorem Quiet.gateWake {o s : State} {b : Nat} (h : Quiet o s) : Quiet o (Machine.gateWake b s) :=
  h.trans ⟨fun _ _ => rfl, rfl, fun _ he => he⟩

theorem Quiet.request {o s : State} {q : Rq} {a : Nat} (h : Quiet o s) : Quiet o (Machine.request q a s) := by
  unfold Machine.request
  dsimp only
  split
  · exact h.pmcCount.gateWake
  · exact h.pmcCount

theorem Quiet.completed {o s : State} {q : Rq} {a : Nat} {w : Bool} {c : Code} (h : Quiet o s) : Quiet o (Machine.completed q a w c s) := by
  unfold Machine.completed
  dsimp only
  split
  · exact h.pmcCount
  · split
    · exact h.pmcCount
    · exact h

/-- The pending bit of an event that has been raised is 1. -/
theorem pending_raise (s : State) (e : Nat) : Pending e (s.raise e) := by
  have key : ∀ z : State, Pending e (Machine.setPend e z) := fun z => by
    refine (Quiet.refl _).sendIbi.2.2 e ?_
    rw [Pending, get_set _ _ _ (by simp only [pendBit]; omega)]
    simp [pendBit]
  have : Quiet (Machine.setPend e s) (s.raise e) := by
    unfold State.raise Machine.raiseN
    dsimp only
    refine Quiet.foldl (Quiet.pmcAdd ?_) fun s x _ g => g.raiseN
    split
    · exact .refl _
    · exact Quiet.foldl1 (.refl _) fun q c hc g => Quiet.cntAdd (by have := List.mem_range.1 hc; omega) g
  exact this.2.2 e (key s)

end Sys2Proof.Machine
end

