-- ==== Sys2Proof/Laws/Goes.lean ====
section
/-! SUPPORT. What holds of a state after an event, an access, a field's change: the lemmas that carry the reads of fields and the
rest of the state through a meaning. -/

namespace Sys2Proof.Machine

theorem Quiet.rd {s t : State} (h : Quiet s t) {a : Nat} (ha : ¬Router a) : t.rd a = s.rd a := h.1 a ha
theorem Quiet.get {s t : State} (h : Quiet s t) {f : Fd} (ha : ¬Router f.a) : t.get f = s.get f := by simp only [State.get, h.1 _ ha]
theorem Quiet.on {s t : State} (h : Quiet s t) {f : Fd} (ha : ¬Router f.a) : t.on f = s.on f := by simp only [State.on, h.get ha]

theorem quiet_raise (s : State) (e : Nat) : Quiet s (s.raise e) := (Quiet.refl s).raise
theorem quiet_request (q : Rq) (a : Nat) (s : State) : Quiet s (request q a s) := (Quiet.refl s).request

theorem rd_raise (s : State) (e : Nat) {a : Nat} (h : ¬Router a) : (s.raise e).rd a = s.rd a := (quiet_raise s e).1 a h
theorem get_raise (s : State) (e : Nat) {f : Fd} (h : ¬Router f.a) : (s.raise e).get f = s.get f := (quiet_raise s e).get h
theorem rd_request (q : Rq) (b : Nat) (s : State) {a : Nat} (h : ¬Router a) : (request q b s).rd a = s.rd a := (quiet_request q b s).1 a h
theorem get_request (q : Rq) (b : Nat) (s : State) {f : Fd} (h : ¬Router f.a) : (request q b s).get f = s.get f := (quiet_request q b s).get h

theorem on_request (q : Rq) (b : Nat) (s : State) {f : Fd} (h : ¬Router f.a) : (request q b s).on f = s.on f := (quiet_request q b s).on h

theorem on_raise (s : State) (e : Nat) {f : Fd} (h : ¬Router f.a) : (s.raise e).on f = s.on f := (quiet_raise s e).on h
theorem on_set_addr (s : State) {f g : Fd} (v : Nat) (h : f.a ≠ g.a) : (s.set f v).on g = s.on g := by
  simp only [State.on, get_set_addr s v h]

/-! ## Accesses that reach their register -/

theorem gated_go {q : Rq} {a : Nat} {fs : List (Nat × Nat × Acc)} {w : Word} {hook : State → State} {s : State} (h : Sent q a fs w s) :
    gated q a fs w hook s = completed q a true (hook (request q a s)).reply.code (hook (request q a s)) := by
  unfold gated gatedBus
  rw [h]
  rfl

/-- A completion that counts nothing. -/
theorem completed_ok {q : Rq} {a : Nat} {b : Bool} {c : Code} {s : State} (h : c.n < 3) : completed q a b c s = s := by
  unfold completed
  dsimp only
  rw [if_neg, if_neg]
  · omega
  · rintro rfl; simp [Code.n] at h

theorem gatedRead_go {q : Rq} {a : Nat} {hook : State → State} {s : State} (h : Reads q a s) :
    gatedRead q a hook s = hook (request q a s) := by
  obtain ⟨h1, h2, h3, h4⟩ := h
  unfold gatedRead
  simp only [h1, h2, h3, h4, Bool.false_eq_true, if_false, ne_eq, not_true_eq_false, if_true]

/-! ## The rest of the state -/

@[simp] theorem bare_wr (s : State) (a : Nat) (v : Word) : (s.wr a v).bare = s.bare := rfl
@[simp] theorem bare_set (s : State) (f : Fd) (v : Nat) : (s.set f v).bare = s.bare := rfl
@[simp] theorem bare_seti (s : State) (f : Fd) (v : Int) : (s.seti f v).bare = s.bare := rfl
@[simp] theorem bare_addSat (s : State) (f : Fd) (v : Nat) : (s.addSat f v).bare = s.bare := rfl
@[simp] theorem bare_incMod (s : State) (f : Fd) : (s.incMod f).bare = s.bare := rfl
@[simp] theorem bare_store (s : State) (a : Nat) (fs : List (Nat × Nat × Acc)) (w : Word) : (s.store a fs w).bare = s.bare := rfl
@[simp] theorem bare_dropRange (s : State) (a b : Nat) : (s.dropRange a b).bare = s.bare := rfl
@[simp] theorem bare_ret (s : State) (c : Code) : (s.ret c).bare = s.bare := rfl
@[simp] theorem bare_retData (s : State) (d : List Word) : (s.retData d).bare = s.bare := rfl
@[simp] theorem bare_freeNext (s : State) : s.freeNext.bare = s.bare := rfl
@[simp] theorem bare_raise (s : State) (e : Nat) : (s.raise e).bare = s.bare := (quiet_raise s e).2.1
@[simp] theorem bare_request (q : Rq) (a : Nat) (s : State) : (request q a s).bare = s.bare := (quiet_request q a s).2.1

end Sys2Proof.Machine
end

