-- ==== Sys2Proof/Laws/State.lean ====
section
/-! SUPPORT. Each field of a state after each named operation, so that no later proof unfolds a record update. -/

namespace Sys2Proof.Machine

/-! ## wr -/

@[simp] theorem wr_reply (s : State) (a : Nat) (v : Word) : (s.wr a v).reply = s.reply := rfl
@[simp] theorem wr_now (s : State) (a : Nat) (v : Word) : (s.wr a v).now = s.now := rfl
@[simp] theorem wr_free (s : State) (a : Nat) (v : Word) : (s.wr a v).free = s.free := rfl
@[simp] theorem wr_rate (s : State) (a : Nat) (v : Word) : (s.wr a v).rate = s.rate := rfl
@[simp] theorem wr_conv (s : State) (a : Nat) (v : Word) : (s.wr a v).conv = s.conv := rfl
@[simp] theorem wr_rst (s : State) (a : Nat) (v : Word) : (s.wr a v).rst = s.rst := rfl
@[simp] theorem wr_det (s : State) (a : Nat) (v : Word) : (s.wr a v).det = s.det := rfl
@[simp] theorem wr_frm (s : State) (a : Nat) (v : Word) : (s.wr a v).frm = s.frm := rfl
@[simp] theorem wr_frameNo (s : State) (a : Nat) (v : Word) : (s.wr a v).frameNo = s.frameNo := rfl
@[simp] theorem wr_host (s : State) (a : Nat) (v : Word) : (s.wr a v).host = s.host := rfl
@[simp] theorem wr_bclk (s : State) (a : Nat) (v : Word) : (s.wr a v).bclk = s.bclk := rfl
@[simp] theorem wr_rpt (s : State) (a : Nat) (v : Word) : (s.wr a v).rpt = s.rpt := rfl
@[simp] theorem wr_ceilRun (s : State) (a : Nat) (v : Word) : (s.wr a v).ceilRun = s.ceilRun := rfl
@[simp] theorem wr_ceilNear (s : State) (a : Nat) (v : Word) : (s.wr a v).ceilNear = s.ceilNear := rfl
@[simp] theorem wr_muteN (s : State) (a : Nat) (v : Word) : (s.wr a v).muteN = s.muteN := rfl
@[simp] theorem wr_muteStuck (s : State) (a : Nat) (v : Word) : (s.wr a v).muteStuck = s.muteStuck := rfl
@[simp] theorem wr_lst (s : State) (a : Nat) (v : Word) : (s.wr a v).lst = s.lst := rfl
@[simp] theorem wr_seen (s : State) (a : Nat) (v : Word) : (s.wr a v).seen = s.seen := rfl
@[simp] theorem wr_nfTurn (s : State) (a : Nat) (v : Word) : (s.wr a v).nfTurn = s.nfTurn := rfl
@[simp] theorem wr_nfDone (s : State) (a : Nat) (v : Word) : (s.wr a v).nfDone = s.nfDone := rfl
@[simp] theorem wr_nf (s : State) (a : Nat) (v : Word) : (s.wr a v).nf = s.nf := rfl
@[simp] theorem wr_bnd (s : State) (a : Nat) (v : Word) : (s.wr a v).bnd = s.bnd := rfl
@[simp] theorem wr_bsync (s : State) (a : Nat) (v : Word) : (s.wr a v).bsync = s.bsync := rfl
@[simp] theorem wr_bandTime (s : State) (a : Nat) (v : Word) : (s.wr a v).bandTime = s.bandTime := rfl
@[simp] theorem wr_admSeq (s : State) (a : Nat) (v : Word) : (s.wr a v).admSeq = s.admSeq := rfl
@[simp] theorem wr_meas (s : State) (a : Nat) (v : Word) : (s.wr a v).meas = s.meas := rfl
@[simp] theorem wr_inq (s : State) (a : Nat) (v : Word) : (s.wr a v).inq = s.inq := rfl
@[simp] theorem wr_carry (s : State) (a : Nat) (v : Word) : (s.wr a v).carry = s.carry := rfl
@[simp] theorem wr_bndZero (s : State) (a : Nat) (v : Word) : (s.wr a v).bndZero = s.bndZero := rfl
@[simp] theorem wr_fen (s : State) (a : Nat) (v : Word) : (s.wr a v).fen = s.fen := rfl
@[simp] theorem wr_fenForced (s : State) (a : Nat) (v : Word) : (s.wr a v).fenForced = s.fenForced := rfl
@[simp] theorem wr_coexHi (s : State) (a : Nat) (v : Word) : (s.wr a v).coexHi = s.coexHi := rfl
@[simp] theorem wr_coexLo (s : State) (a : Nat) (v : Word) : (s.wr a v).coexLo = s.coexLo := rfl
@[simp] theorem wr_spi (s : State) (a : Nat) (v : Word) : (s.wr a v).spi = s.spi := rfl
@[simp] theorem wr_ibiSent (s : State) (a : Nat) (v : Word) : (s.wr a v).ibiSent = s.ibiSent := rfl
@[simp] theorem wr_flash (s : State) (a : Nat) (v : Word) : (s.wr a v).flash = s.flash := rfl
@[simp] theorem wr_norWave (s : State) (a : Nat) (v : Word) : (s.wr a v).norWave = s.norWave := rfl
@[simp] theorem wr_cores (s : State) (a : Nat) (v : Word) : (s.wr a v).cores = s.cores := rfl
@[simp] theorem wr_pmc (s : State) (a : Nat) (v : Word) : (s.wr a v).pmc = s.pmc := rfl
@[simp] theorem wr_mem (s : State) (a : Nat) (v : Word) : (s.wr a v).mem = s.mem := rfl
@[simp] theorem wr_ecc (s : State) (a : Nat) (v : Word) : (s.wr a v).ecc = s.ecc := rfl
@[simp] theorem wr_merge (s : State) (a : Nat) (v : Word) : (s.wr a v).merge = s.merge := rfl
@[simp] theorem wr_scrubPos (s : State) (a : Nat) (v : Word) : (s.wr a v).scrubPos = s.scrubPos := rfl
@[simp] theorem wr_scrubLast (s : State) (a : Nat) (v : Word) : (s.wr a v).scrubLast = s.scrubLast := rfl
@[simp] theorem wr_scrubAgain (s : State) (a : Nat) (v : Word) : (s.wr a v).scrubAgain = s.scrubAgain := rfl
@[simp] theorem wr_arb (s : State) (a : Nat) (v : Word) : (s.wr a v).arb = s.arb := rfl
@[simp] theorem wr_sto (s : State) (a : Nat) (v : Word) : (s.wr a v).sto = s.sto := rfl
@[simp] theorem wr_stop (s : State) (a : Nat) (v : Word) : (s.wr a v).stop = s.stop := rfl
@[simp] theorem wr_wdLen (s : State) (a : Nat) (v : Word) : (s.wr a v).wdLen = s.wdLen := rfl
@[simp] theorem wr_wdT (s : State) (a : Nat) (v : Word) : (s.wr a v).wdT = s.wdT := rfl
@[simp] theorem wr_lockAt (s : State) (a : Nat) (v : Word) : (s.wr a v).lockAt = s.lockAt := rfl
@[simp] theorem wr_load (s : State) (a : Nat) (v : Word) : (s.wr a v).load = s.load := rfl
@[simp] theorem wr_stuck (s : State) (a : Nat) (v : Word) : (s.wr a v).stuck = s.stuck := rfl
@[simp] theorem wr_waits (s : State) (a : Nat) (v : Word) : (s.wr a v).waits = s.waits := rfl
@[simp] theorem wr_clk (s : State) (a : Nat) (v : Word) : (s.wr a v).clk = s.clk := rfl
@[simp] theorem wr_hkd (s : State) (a : Nat) (v : Word) : (s.wr a v).hkd = s.hkd := rfl
@[simp] theorem wr_scanIdx (s : State) (a : Nat) (v : Word) : (s.wr a v).scanIdx = s.scanIdx := rfl
@[simp] theorem wr_trips (s : State) (a : Nat) (v : Word) : (s.wr a v).trips = s.trips := rfl
@[simp] theorem wr_pwr (s : State) (a : Nat) (v : Word) : (s.wr a v).pwr = s.pwr := rfl
@[simp] theorem wr_attic (s : State) (a : Nat) (v : Word) : (s.wr a v).attic = s.attic := rfl
@[simp] theorem wr_own (s : State) (a : Nat) (v : Word) : (s.wr a v).own = s.own := rfl
@[simp] theorem wr_snk (s : State) (a : Nat) (v : Word) : (s.wr a v).snk = s.snk := rfl
@[simp] theorem wr_cel (s : State) (a : Nat) (v : Word) : (s.wr a v).cel = s.cel := rfl
@[simp] theorem wr_bst (s : State) (a : Nat) (v : Word) : (s.wr a v).bst = s.bst := rfl
@[simp] theorem wr_dma (s : State) (a : Nat) (v : Word) : (s.wr a v).dma = s.dma := rfl
@[simp] theorem wr_pending (s : State) (a : Nat) (v : Word) : (s.wr a v).pending = s.pending := rfl

/-! ## set -/

@[simp] theorem set_reply (s : State) (f : Fd) (v : Nat) : (s.set f v).reply = s.reply := rfl
@[simp] theorem set_now (s : State) (f : Fd) (v : Nat) : (s.set f v).now = s.now := rfl
@[simp] theorem set_free (s : State) (f : Fd) (v : Nat) : (s.set f v).free = s.free := rfl
@[simp] theorem set_rate (s : State) (f : Fd) (v : Nat) : (s.set f v).rate = s.rate := rfl
@[simp] theorem set_conv (s : State) (f : Fd) (v : Nat) : (s.set f v).conv = s.conv := rfl
@[simp] theorem set_rst (s : State) (f : Fd) (v : Nat) : (s.set f v).rst = s.rst := rfl
@[simp] theorem set_det (s : State) (f : Fd) (v : Nat) : (s.set f v).det = s.det := rfl
@[simp] theorem set_frm (s : State) (f : Fd) (v : Nat) : (s.set f v).frm = s.frm := rfl
@[simp] theorem set_frameNo (s : State) (f : Fd) (v : Nat) : (s.set f v).frameNo = s.frameNo := rfl
@[simp] theorem set_host (s : State) (f : Fd) (v : Nat) : (s.set f v).host = s.host := rfl
@[simp] theorem set_bclk (s : State) (f : Fd) (v : Nat) : (s.set f v).bclk = s.bclk := rfl
@[simp] theorem set_rpt (s : State) (f : Fd) (v : Nat) : (s.set f v).rpt = s.rpt := rfl
@[simp] theorem set_ceilRun (s : State) (f : Fd) (v : Nat) : (s.set f v).ceilRun = s.ceilRun := rfl
@[simp] theorem set_ceilNear (s : State) (f : Fd) (v : Nat) : (s.set f v).ceilNear = s.ceilNear := rfl
@[simp] theorem set_muteN (s : State) (f : Fd) (v : Nat) : (s.set f v).muteN = s.muteN := rfl
@[simp] theorem set_muteStuck (s : State) (f : Fd) (v : Nat) : (s.set f v).muteStuck = s.muteStuck := rfl
@[simp] theorem set_lst (s : State) (f : Fd) (v : Nat) : (s.set f v).lst = s.lst := rfl
@[simp] theorem set_seen (s : State) (f : Fd) (v : Nat) : (s.set f v).seen = s.seen := rfl
@[simp] theorem set_nfTurn (s : State) (f : Fd) (v : Nat) : (s.set f v).nfTurn = s.nfTurn := rfl
@[simp] theorem set_nfDone (s : State) (f : Fd) (v : Nat) : (s.set f v).nfDone = s.nfDone := rfl
@[simp] theorem set_nf (s : State) (f : Fd) (v : Nat) : (s.set f v).nf = s.nf := rfl
@[simp] theorem set_bnd (s : State) (f : Fd) (v : Nat) : (s.set f v).bnd = s.bnd := rfl
@[simp] theorem set_bsync (s : State) (f : Fd) (v : Nat) : (s.set f v).bsync = s.bsync := rfl
@[simp] theorem set_bandTime (s : State) (f : Fd) (v : Nat) : (s.set f v).bandTime = s.bandTime := rfl
@[simp] theorem set_admSeq (s : State) (f : Fd) (v : Nat) : (s.set f v).admSeq = s.admSeq := rfl
@[simp] theorem set_meas (s : State) (f : Fd) (v : Nat) : (s.set f v).meas = s.meas := rfl
@[simp] theorem set_inq (s : State) (f : Fd) (v : Nat) : (s.set f v).inq = s.inq := rfl
@[simp] theorem set_carry (s : State) (f : Fd) (v : Nat) : (s.set f v).carry = s.carry := rfl
@[simp] theorem set_bndZero (s : State) (f : Fd) (v : Nat) : (s.set f v).bndZero = s.bndZero := rfl
@[simp] theorem set_fen (s : State) (f : Fd) (v : Nat) : (s.set f v).fen = s.fen := rfl
@[simp] theorem set_fenForced (s : State) (f : Fd) (v : Nat) : (s.set f v).fenForced = s.fenForced := rfl
@[simp] theorem set_coexHi (s : State) (f : Fd) (v : Nat) : (s.set f v).coexHi = s.coexHi := rfl
@[simp] theorem set_coexLo (s : State) (f : Fd) (v : Nat) : (s.set f v).coexLo = s.coexLo := rfl
@[simp] theorem set_spi (s : State) (f : Fd) (v : Nat) : (s.set f v).spi = s.spi := rfl
@[simp] theorem set_ibiSent (s : State) (f : Fd) (v : Nat) : (s.set f v).ibiSent = s.ibiSent := rfl
@[simp] theorem set_flash (s : State) (f : Fd) (v : Nat) : (s.set f v).flash = s.flash := rfl
@[simp] theorem set_norWave (s : State) (f : Fd) (v : Nat) : (s.set f v).norWave = s.norWave := rfl
@[simp] theorem set_cores (s : State) (f : Fd) (v : Nat) : (s.set f v).cores = s.cores := rfl
@[simp] theorem set_pmc (s : State) (f : Fd) (v : Nat) : (s.set f v).pmc = s.pmc := rfl
@[simp] theorem set_mem (s : State) (f : Fd) (v : Nat) : (s.set f v).mem = s.mem := rfl
@[simp] theorem set_ecc (s : State) (f : Fd) (v : Nat) : (s.set f v).ecc = s.ecc := rfl
@[simp] theorem set_merge (s : State) (f : Fd) (v : Nat) : (s.set f v).merge = s.merge := rfl
@[simp] theorem set_scrubPos (s : State) (f : Fd) (v : Nat) : (s.set f v).scrubPos = s.scrubPos := rfl
@[simp] theorem set_scrubLast (s : State) (f : Fd) (v : Nat) : (s.set f v).scrubLast = s.scrubLast := rfl
@[simp] theorem set_scrubAgain (s : State) (f : Fd) (v : Nat) : (s.set f v).scrubAgain = s.scrubAgain := rfl
@[simp] theorem set_arb (s : State) (f : Fd) (v : Nat) : (s.set f v).arb = s.arb := rfl
@[simp] theorem set_sto (s : State) (f : Fd) (v : Nat) : (s.set f v).sto = s.sto := rfl
@[simp] theorem set_stop (s : State) (f : Fd) (v : Nat) : (s.set f v).stop = s.stop := rfl
@[simp] theorem set_wdLen (s : State) (f : Fd) (v : Nat) : (s.set f v).wdLen = s.wdLen := rfl
@[simp] theorem set_wdT (s : State) (f : Fd) (v : Nat) : (s.set f v).wdT = s.wdT := rfl
@[simp] theorem set_lockAt (s : State) (f : Fd) (v : Nat) : (s.set f v).lockAt = s.lockAt := rfl
@[simp] theorem set_load (s : State) (f : Fd) (v : Nat) : (s.set f v).load = s.load := rfl
@[simp] theorem set_stuck (s : State) (f : Fd) (v : Nat) : (s.set f v).stuck = s.stuck := rfl
@[simp] theorem set_waits (s : State) (f : Fd) (v : Nat) : (s.set f v).waits = s.waits := rfl
@[simp] theorem set_clk (s : State) (f : Fd) (v : Nat) : (s.set f v).clk = s.clk := rfl
@[simp] theorem set_hkd (s : State) (f : Fd) (v : Nat) : (s.set f v).hkd = s.hkd := rfl
@[simp] theorem set_scanIdx (s : State) (f : Fd) (v : Nat) : (s.set f v).scanIdx = s.scanIdx := rfl
@[simp] theorem set_trips (s : State) (f : Fd) (v : Nat) : (s.set f v).trips = s.trips := rfl
@[simp] theorem set_pwr (s : State) (f : Fd) (v : Nat) : (s.set f v).pwr = s.pwr := rfl
@[simp] theorem set_attic (s : State) (f : Fd) (v : Nat) : (s.set f v).attic = s.attic := rfl
@[simp] theorem set_own (s : State) (f : Fd) (v : Nat) : (s.set f v).own = s.own := rfl
@[simp] theorem set_snk (s : State) (f : Fd) (v : Nat) : (s.set f v).snk = s.snk := rfl
@[simp] theorem set_cel (s : State) (f : Fd) (v : Nat) : (s.set f v).cel = s.cel := rfl
@[simp] theorem set_bst (s : State) (f : Fd) (v : Nat) : (s.set f v).bst = s.bst := rfl
@[simp] theorem set_dma (s : State) (f : Fd) (v : Nat) : (s.set f v).dma = s.dma := rfl
@[simp] theorem set_pending (s : State) (f : Fd) (v : Nat) : (s.set f v).pending = s.pending := rfl

/-! ## seti -/

@[simp] theorem seti_reply (s : State) (f : Fd) (v : Int) : (s.seti f v).reply = s.reply := rfl
@[simp] theorem seti_now (s : State) (f : Fd) (v : Int) : (s.seti f v).now = s.now := rfl
@[simp] theorem seti_free (s : State) (f : Fd) (v : Int) : (s.seti f v).free = s.free := rfl
@[simp] theorem seti_rate (s : State) (f : Fd) (v : Int) : (s.seti f v).rate = s.rate := rfl
@[simp] theorem seti_conv (s : State) (f : Fd) (v : Int) : (s.seti f v).conv = s.conv := rfl
@[simp] theorem seti_rst (s : State) (f : Fd) (v : Int) : (s.seti f v).rst = s.rst := rfl
@[simp] theorem seti_det (s : State) (f : Fd) (v : Int) : (s.seti f v).det = s.det := rfl
@[simp] theorem seti_frm (s : State) (f : Fd) (v : Int) : (s.seti f v).frm = s.frm := rfl
@[simp] theorem seti_frameNo (s : State) (f : Fd) (v : Int) : (s.seti f v).frameNo = s.frameNo := rfl
@[simp] theorem seti_host (s : State) (f : Fd) (v : Int) : (s.seti f v).host = s.host := rfl
@[simp] theorem seti_bclk (s : State) (f : Fd) (v : Int) : (s.seti f v).bclk = s.bclk := rfl
@[simp] theorem seti_rpt (s : State) (f : Fd) (v : Int) : (s.seti f v).rpt = s.rpt := rfl
@[simp] theorem seti_ceilRun (s : State) (f : Fd) (v : Int) : (s.seti f v).ceilRun = s.ceilRun := rfl
@[simp] theorem seti_ceilNear (s : State) (f : Fd) (v : Int) : (s.seti f v).ceilNear = s.ceilNear := rfl
@[simp] theorem seti_muteN (s : State) (f : Fd) (v : Int) : (s.seti f v).muteN = s.muteN := rfl
@[simp] theorem seti_muteStuck (s : State) (f : Fd) (v : Int) : (s.seti f v).muteStuck = s.muteStuck := rfl
@[simp] theorem seti_lst (s : State) (f : Fd) (v : Int) : (s.seti f v).lst = s.lst := rfl
@[simp] theorem seti_seen (s : State) (f : Fd) (v : Int) : (s.seti f v).seen = s.seen := rfl
@[simp] theorem seti_nfTurn (s : State) (f : Fd) (v : Int) : (s.seti f v).nfTurn = s.nfTurn := rfl
@[simp] theorem seti_nfDone (s : State) (f : Fd) (v : Int) : (s.seti f v).nfDone = s.nfDone := rfl
@[simp] theorem seti_nf (s : State) (f : Fd) (v : Int) : (s.seti f v).nf = s.nf := rfl
@[simp] theorem seti_bnd (s : State) (f : Fd) (v : Int) : (s.seti f v).bnd = s.bnd := rfl
@[simp] theorem seti_bsync (s : State) (f : Fd) (v : Int) : (s.seti f v).bsync = s.bsync := rfl
@[simp] theorem seti_bandTime (s : State) (f : Fd) (v : Int) : (s.seti f v).bandTime = s.bandTime := rfl
@[simp] theorem seti_admSeq (s : State) (f : Fd) (v : Int) : (s.seti f v).admSeq = s.admSeq := rfl
@[simp] theorem seti_meas (s : State) (f : Fd) (v : Int) : (s.seti f v).meas = s.meas := rfl
@[simp] theorem seti_inq (s : State) (f : Fd) (v : Int) : (s.seti f v).inq = s.inq := rfl
@[simp] theorem seti_carry (s : State) (f : Fd) (v : Int) : (s.seti f v).carry = s.carry := rfl
@[simp] theorem seti_bndZero (s : State) (f : Fd) (v : Int) : (s.seti f v).bndZero = s.bndZero := rfl
@[simp] theorem seti_fen (s : State) (f : Fd) (v : Int) : (s.seti f v).fen = s.fen := rfl
@[simp] theorem seti_fenForced (s : State) (f : Fd) (v : Int) : (s.seti f v).fenForced = s.fenForced := rfl
@[simp] theorem seti_coexHi (s : State) (f : Fd) (v : Int) : (s.seti f v).coexHi = s.coexHi := rfl
@[simp] theorem seti_coexLo (s : State) (f : Fd) (v : Int) : (s.seti f v).coexLo = s.coexLo := rfl
@[simp] theorem seti_spi (s : State) (f : Fd) (v : Int) : (s.seti f v).spi = s.spi := rfl
@[simp] theorem seti_ibiSent (s : State) (f : Fd) (v : Int) : (s.seti f v).ibiSent = s.ibiSent := rfl
@[simp] theorem seti_flash (s : State) (f : Fd) (v : Int) : (s.seti f v).flash = s.flash := rfl
@[simp] theorem seti_norWave (s : State) (f : Fd) (v : Int) : (s.seti f v).norWave = s.norWave := rfl
@[simp] theorem seti_cores (s : State) (f : Fd) (v : Int) : (s.seti f v).cores = s.cores := rfl
@[simp] theorem seti_pmc (s : State) (f : Fd) (v : Int) : (s.seti f v).pmc = s.pmc := rfl
@[simp] theorem seti_mem (s : State) (f : Fd) (v : Int) : (s.seti f v).mem = s.mem := rfl
@[simp] theorem seti_ecc (s : State) (f : Fd) (v : Int) : (s.seti f v).ecc = s.ecc := rfl
@[simp] theorem seti_merge (s : State) (f : Fd) (v : Int) : (s.seti f v).merge = s.merge := rfl
@[simp] theorem seti_scrubPos (s : State) (f : Fd) (v : Int) : (s.seti f v).scrubPos = s.scrubPos := rfl
@[simp] theorem seti_scrubLast (s : State) (f : Fd) (v : Int) : (s.seti f v).scrubLast = s.scrubLast := rfl
@[simp] theorem seti_scrubAgain (s : State) (f : Fd) (v : Int) : (s.seti f v).scrubAgain = s.scrubAgain := rfl
@[simp] theorem seti_arb (s : State) (f : Fd) (v : Int) : (s.seti f v).arb = s.arb := rfl
@[simp] theorem seti_sto (s : State) (f : Fd) (v : Int) : (s.seti f v).sto = s.sto := rfl
@[simp] theorem seti_stop (s : State) (f : Fd) (v : Int) : (s.seti f v).stop = s.stop := rfl
@[simp] theorem seti_wdLen (s : State) (f : Fd) (v : Int) : (s.seti f v).wdLen = s.wdLen := rfl
@[simp] theorem seti_wdT (s : State) (f : Fd) (v : Int) : (s.seti f v).wdT = s.wdT := rfl
@[simp] theorem seti_lockAt (s : State) (f : Fd) (v : Int) : (s.seti f v).lockAt = s.lockAt := rfl
@[simp] theorem seti_load (s : State) (f : Fd) (v : Int) : (s.seti f v).load = s.load := rfl
@[simp] theorem seti_stuck (s : State) (f : Fd) (v : Int) : (s.seti f v).stuck = s.stuck := rfl
@[simp] theorem seti_waits (s : State) (f : Fd) (v : Int) : (s.seti f v).waits = s.waits := rfl
@[simp] theorem seti_clk (s : State) (f : Fd) (v : Int) : (s.seti f v).clk = s.clk := rfl
@[simp] theorem seti_hkd (s : State) (f : Fd) (v : Int) : (s.seti f v).hkd = s.hkd := rfl
@[simp] theorem seti_scanIdx (s : State) (f : Fd) (v : Int) : (s.seti f v).scanIdx = s.scanIdx := rfl
@[simp] theorem seti_trips (s : State) (f : Fd) (v : Int) : (s.seti f v).trips = s.trips := rfl
@[simp] theorem seti_pwr (s : State) (f : Fd) (v : Int) : (s.seti f v).pwr = s.pwr := rfl
@[simp] theorem seti_attic (s : State) (f : Fd) (v : Int) : (s.seti f v).attic = s.attic := rfl
@[simp] theorem seti_own (s : State) (f : Fd) (v : Int) : (s.seti f v).own = s.own := rfl
@[simp] theorem seti_snk (s : State) (f : Fd) (v : Int) : (s.seti f v).snk = s.snk := rfl
@[simp] theorem seti_cel (s : State) (f : Fd) (v : Int) : (s.seti f v).cel = s.cel := rfl
@[simp] theorem seti_bst (s : State) (f : Fd) (v : Int) : (s.seti f v).bst = s.bst := rfl
@[simp] theorem seti_dma (s : State) (f : Fd) (v : Int) : (s.seti f v).dma = s.dma := rfl
@[simp] theorem seti_pending (s : State) (f : Fd) (v : Int) : (s.seti f v).pending = s.pending := rfl

/-! ## addSat -/

@[simp] theorem addSat_reply (s : State) (f : Fd) (v : Nat) : (s.addSat f v).reply = s.reply := rfl
@[simp] theorem addSat_now (s : State) (f : Fd) (v : Nat) : (s.addSat f v).now = s.now := rfl
@[simp] theorem addSat_free (s : State) (f : Fd) (v : Nat) : (s.addSat f v).free = s.free := rfl
@[simp] theorem addSat_rate (s : State) (f : Fd) (v : Nat) : (s.addSat f v).rate = s.rate := rfl
@[simp] theorem addSat_conv (s : State) (f : Fd) (v : Nat) : (s.addSat f v).conv = s.conv := rfl
@[simp] theorem addSat_rst (s : State) (f : Fd) (v : Nat) : (s.addSat f v).rst = s.rst := rfl
@[simp] theorem addSat_det (s : State) (f : Fd) (v : Nat) : (s.addSat f v).det = s.det := rfl
@[simp] theorem addSat_frm (s : State) (f : Fd) (v : Nat) : (s.addSat f v).frm = s.frm := rfl
@[simp] theorem addSat_frameNo (s : State) (f : Fd) (v : Nat) : (s.addSat f v).frameNo = s.frameNo := rfl
@[simp] theorem addSat_host (s : State) (f : Fd) (v : Nat) : (s.addSat f v).host = s.host := rfl
@[simp] theorem addSat_bclk (s : State) (f : Fd) (v : Nat) : (s.addSat f v).bclk = s.bclk := rfl
@[simp] theorem addSat_rpt (s : State) (f : Fd) (v : Nat) : (s.addSat f v).rpt = s.rpt := rfl
@[simp] theorem addSat_ceilRun (s : State) (f : Fd) (v : Nat) : (s.addSat f v).ceilRun = s.ceilRun := rfl
@[simp] theorem addSat_ceilNear (s : State) (f : Fd) (v : Nat) : (s.addSat f v).ceilNear = s.ceilNear := rfl
@[simp] theorem addSat_muteN (s : State) (f : Fd) (v : Nat) : (s.addSat f v).muteN = s.muteN := rfl
@[simp] theorem addSat_muteStuck (s : State) (f : Fd) (v : Nat) : (s.addSat f v).muteStuck = s.muteStuck := rfl
@[simp] theorem addSat_lst (s : State) (f : Fd) (v : Nat) : (s.addSat f v).lst = s.lst := rfl
@[simp] theorem addSat_seen (s : State) (f : Fd) (v : Nat) : (s.addSat f v).seen = s.seen := rfl
@[simp] theorem addSat_nfTurn (s : State) (f : Fd) (v : Nat) : (s.addSat f v).nfTurn = s.nfTurn := rfl
@[simp] theorem addSat_nfDone (s : State) (f : Fd) (v : Nat) : (s.addSat f v).nfDone = s.nfDone := rfl
@[simp] theorem addSat_nf (s : State) (f : Fd) (v : Nat) : (s.addSat f v).nf = s.nf := rfl
@[simp] theorem addSat_bnd (s : State) (f : Fd) (v : Nat) : (s.addSat f v).bnd = s.bnd := rfl
@[simp] theorem addSat_bsync (s : State) (f : Fd) (v : Nat) : (s.addSat f v).bsync = s.bsync := rfl
@[simp] theorem addSat_bandTime (s : State) (f : Fd) (v : Nat) : (s.addSat f v).bandTime = s.bandTime := rfl
@[simp] theorem addSat_admSeq (s : State) (f : Fd) (v : Nat) : (s.addSat f v).admSeq = s.admSeq := rfl
@[simp] theorem addSat_meas (s : State) (f : Fd) (v : Nat) : (s.addSat f v).meas = s.meas := rfl
@[simp] theorem addSat_inq (s : State) (f : Fd) (v : Nat) : (s.addSat f v).inq = s.inq := rfl
@[simp] theorem addSat_carry (s : State) (f : Fd) (v : Nat) : (s.addSat f v).carry = s.carry := rfl
@[simp] theorem addSat_bndZero (s : State) (f : Fd) (v : Nat) : (s.addSat f v).bndZero = s.bndZero := rfl
@[simp] theorem addSat_fen (s : State) (f : Fd) (v : Nat) : (s.addSat f v).fen = s.fen := rfl
@[simp] theorem addSat_fenForced (s : State) (f : Fd) (v : Nat) : (s.addSat f v).fenForced = s.fenForced := rfl
@[simp] theorem addSat_coexHi (s : State) (f : Fd) (v : Nat) : (s.addSat f v).coexHi = s.coexHi := rfl
@[simp] theorem addSat_coexLo (s : State) (f : Fd) (v : Nat) : (s.addSat f v).coexLo = s.coexLo := rfl
@[simp] theorem addSat_spi (s : State) (f : Fd) (v : Nat) : (s.addSat f v).spi = s.spi := rfl
@[simp] theorem addSat_ibiSent (s : State) (f : Fd) (v : Nat) : (s.addSat f v).ibiSent = s.ibiSent := rfl
@[simp] theorem addSat_flash (s : State) (f : Fd) (v : Nat) : (s.addSat f v).flash = s.flash := rfl
@[simp] theorem addSat_norWave (s : State) (f : Fd) (v : Nat) : (s.addSat f v).norWave = s.norWave := rfl
@[simp] theorem addSat_cores (s : State) (f : Fd) (v : Nat) : (s.addSat f v).cores = s.cores := rfl
@[simp] theorem addSat_pmc (s : State) (f : Fd) (v : Nat) : (s.addSat f v).pmc = s.pmc := rfl
@[simp] theorem addSat_mem (s : State) (f : Fd) (v : Nat) : (s.addSat f v).mem = s.mem := rfl
@[simp] theorem addSat_ecc (s : State) (f : Fd) (v : Nat) : (s.addSat f v).ecc = s.ecc := rfl
@[simp] theorem addSat_merge (s : State) (f : Fd) (v : Nat) : (s.addSat f v).merge = s.merge := rfl
@[simp] theorem addSat_scrubPos (s : State) (f : Fd) (v : Nat) : (s.addSat f v).scrubPos = s.scrubPos := rfl
@[simp] theorem addSat_scrubLast (s : State) (f : Fd) (v : Nat) : (s.addSat f v).scrubLast = s.scrubLast := rfl
@[simp] theorem addSat_scrubAgain (s : State) (f : Fd) (v : Nat) : (s.addSat f v).scrubAgain = s.scrubAgain := rfl
@[simp] theorem addSat_arb (s : State) (f : Fd) (v : Nat) : (s.addSat f v).arb = s.arb := rfl
@[simp] theorem addSat_sto (s : State) (f : Fd) (v : Nat) : (s.addSat f v).sto = s.sto := rfl
@[simp] theorem addSat_stop (s : State) (f : Fd) (v : Nat) : (s.addSat f v).stop = s.stop := rfl
@[simp] theorem addSat_wdLen (s : State) (f : Fd) (v : Nat) : (s.addSat f v).wdLen = s.wdLen := rfl
@[simp] theorem addSat_wdT (s : State) (f : Fd) (v : Nat) : (s.addSat f v).wdT = s.wdT := rfl
@[simp] theorem addSat_lockAt (s : State) (f : Fd) (v : Nat) : (s.addSat f v).lockAt = s.lockAt := rfl
@[simp] theorem addSat_load (s : State) (f : Fd) (v : Nat) : (s.addSat f v).load = s.load := rfl
@[simp] theorem addSat_stuck (s : State) (f : Fd) (v : Nat) : (s.addSat f v).stuck = s.stuck := rfl
@[simp] theorem addSat_waits (s : State) (f : Fd) (v : Nat) : (s.addSat f v).waits = s.waits := rfl
@[simp] theorem addSat_clk (s : State) (f : Fd) (v : Nat) : (s.addSat f v).clk = s.clk := rfl
@[simp] theorem addSat_hkd (s : State) (f : Fd) (v : Nat) : (s.addSat f v).hkd = s.hkd := rfl
@[simp] theorem addSat_scanIdx (s : State) (f : Fd) (v : Nat) : (s.addSat f v).scanIdx = s.scanIdx := rfl
@[simp] theorem addSat_trips (s : State) (f : Fd) (v : Nat) : (s.addSat f v).trips = s.trips := rfl
@[simp] theorem addSat_pwr (s : State) (f : Fd) (v : Nat) : (s.addSat f v).pwr = s.pwr := rfl
@[simp] theorem addSat_attic (s : State) (f : Fd) (v : Nat) : (s.addSat f v).attic = s.attic := rfl
@[simp] theorem addSat_own (s : State) (f : Fd) (v : Nat) : (s.addSat f v).own = s.own := rfl
@[simp] theorem addSat_snk (s : State) (f : Fd) (v : Nat) : (s.addSat f v).snk = s.snk := rfl
@[simp] theorem addSat_cel (s : State) (f : Fd) (v : Nat) : (s.addSat f v).cel = s.cel := rfl
@[simp] theorem addSat_bst (s : State) (f : Fd) (v : Nat) : (s.addSat f v).bst = s.bst := rfl
@[simp] theorem addSat_dma (s : State) (f : Fd) (v : Nat) : (s.addSat f v).dma = s.dma := rfl
@[simp] theorem addSat_pending (s : State) (f : Fd) (v : Nat) : (s.addSat f v).pending = s.pending := rfl

/-! ## incMod -/

@[simp] theorem incMod_reply (s : State) (f : Fd) : (s.incMod f).reply = s.reply := rfl
@[simp] theorem incMod_now (s : State) (f : Fd) : (s.incMod f).now = s.now := rfl
@[simp] theorem incMod_free (s : State) (f : Fd) : (s.incMod f).free = s.free := rfl
@[simp] theorem incMod_rate (s : State) (f : Fd) : (s.incMod f).rate = s.rate := rfl
@[simp] theorem incMod_conv (s : State) (f : Fd) : (s.incMod f).conv = s.conv := rfl
@[simp] theorem incMod_rst (s : State) (f : Fd) : (s.incMod f).rst = s.rst := rfl
@[simp] theorem incMod_det (s : State) (f : Fd) : (s.incMod f).det = s.det := rfl
@[simp] theorem incMod_frm (s : State) (f : Fd) : (s.incMod f).frm = s.frm := rfl
@[simp] theorem incMod_frameNo (s : State) (f : Fd) : (s.incMod f).frameNo = s.frameNo := rfl
@[simp] theorem incMod_host (s : State) (f : Fd) : (s.incMod f).host = s.host := rfl
@[simp] theorem incMod_bclk (s : State) (f : Fd) : (s.incMod f).bclk = s.bclk := rfl
@[simp] theorem incMod_rpt (s : State) (f : Fd) : (s.incMod f).rpt = s.rpt := rfl
@[simp] theorem incMod_ceilRun (s : State) (f : Fd) : (s.incMod f).ceilRun = s.ceilRun := rfl
@[simp] theorem incMod_ceilNear (s : State) (f : Fd) : (s.incMod f).ceilNear = s.ceilNear := rfl
@[simp] theorem incMod_muteN (s : State) (f : Fd) : (s.incMod f).muteN = s.muteN := rfl
@[simp] theorem incMod_muteStuck (s : State) (f : Fd) : (s.incMod f).muteStuck = s.muteStuck := rfl
@[simp] theorem incMod_lst (s : State) (f : Fd) : (s.incMod f).lst = s.lst := rfl
@[simp] theorem incMod_seen (s : State) (f : Fd) : (s.incMod f).seen = s.seen := rfl
@[simp] theorem incMod_nfTurn (s : State) (f : Fd) : (s.incMod f).nfTurn = s.nfTurn := rfl
@[simp] theorem incMod_nfDone (s : State) (f : Fd) : (s.incMod f).nfDone = s.nfDone := rfl
@[simp] theorem incMod_nf (s : State) (f : Fd) : (s.incMod f).nf = s.nf := rfl
@[simp] theorem incMod_bnd (s : State) (f : Fd) : (s.incMod f).bnd = s.bnd := rfl
@[simp] theorem incMod_bsync (s : State) (f : Fd) : (s.incMod f).bsync = s.bsync := rfl
@[simp] theorem incMod_bandTime (s : State) (f : Fd) : (s.incMod f).bandTime = s.bandTime := rfl
@[simp] theorem incMod_admSeq (s : State) (f : Fd) : (s.incMod f).admSeq = s.admSeq := rfl
@[simp] theorem incMod_meas (s : State) (f : Fd) : (s.incMod f).meas = s.meas := rfl
@[simp] theorem incMod_inq (s : State) (f : Fd) : (s.incMod f).inq = s.inq := rfl
@[simp] theorem incMod_carry (s : State) (f : Fd) : (s.incMod f).carry = s.carry := rfl
@[simp] theorem incMod_bndZero (s : State) (f : Fd) : (s.incMod f).bndZero = s.bndZero := rfl
@[simp] theorem incMod_fen (s : State) (f : Fd) : (s.incMod f).fen = s.fen := rfl
@[simp] theorem incMod_fenForced (s : State) (f : Fd) : (s.incMod f).fenForced = s.fenForced := rfl
@[simp] theorem incMod_coexHi (s : State) (f : Fd) : (s.incMod f).coexHi = s.coexHi := rfl
@[simp] theorem incMod_coexLo (s : State) (f : Fd) : (s.incMod f).coexLo = s.coexLo := rfl
@[simp] theorem incMod_spi (s : State) (f : Fd) : (s.incMod f).spi = s.spi := rfl
@[simp] theorem incMod_ibiSent (s : State) (f : Fd) : (s.incMod f).ibiSent = s.ibiSent := rfl
@[simp] theorem incMod_flash (s : State) (f : Fd) : (s.incMod f).flash = s.flash := rfl
@[simp] theorem incMod_norWave (s : State) (f : Fd) : (s.incMod f).norWave = s.norWave := rfl
@[simp] theorem incMod_cores (s : State) (f : Fd) : (s.incMod f).cores = s.cores := rfl
@[simp] theorem incMod_pmc (s : State) (f : Fd) : (s.incMod f).pmc = s.pmc := rfl
@[simp] theorem incMod_mem (s : State) (f : Fd) : (s.incMod f).mem = s.mem := rfl
@[simp] theorem incMod_ecc (s : State) (f : Fd) : (s.incMod f).ecc = s.ecc := rfl
@[simp] theorem incMod_merge (s : State) (f : Fd) : (s.incMod f).merge = s.merge := rfl
@[simp] theorem incMod_scrubPos (s : State) (f : Fd) : (s.incMod f).scrubPos = s.scrubPos := rfl
@[simp] theorem incMod_scrubLast (s : State) (f : Fd) : (s.incMod f).scrubLast = s.scrubLast := rfl
@[simp] theorem incMod_scrubAgain (s : State) (f : Fd) : (s.incMod f).scrubAgain = s.scrubAgain := rfl
@[simp] theorem incMod_arb (s : State) (f : Fd) : (s.incMod f).arb = s.arb := rfl
@[simp] theorem incMod_sto (s : State) (f : Fd) : (s.incMod f).sto = s.sto := rfl
@[simp] theorem incMod_stop (s : State) (f : Fd) : (s.incMod f).stop = s.stop := rfl
@[simp] theorem incMod_wdLen (s : State) (f : Fd) : (s.incMod f).wdLen = s.wdLen := rfl
@[simp] theorem incMod_wdT (s : State) (f : Fd) : (s.incMod f).wdT = s.wdT := rfl
@[simp] theorem incMod_lockAt (s : State) (f : Fd) : (s.incMod f).lockAt = s.lockAt := rfl
@[simp] theorem incMod_load (s : State) (f : Fd) : (s.incMod f).load = s.load := rfl
@[simp] theorem incMod_stuck (s : State) (f : Fd) : (s.incMod f).stuck = s.stuck := rfl
@[simp] theorem incMod_waits (s : State) (f : Fd) : (s.incMod f).waits = s.waits := rfl
@[simp] theorem incMod_clk (s : State) (f : Fd) : (s.incMod f).clk = s.clk := rfl
@[simp] theorem incMod_hkd (s : State) (f : Fd) : (s.incMod f).hkd = s.hkd := rfl
@[simp] theorem incMod_scanIdx (s : State) (f : Fd) : (s.incMod f).scanIdx = s.scanIdx := rfl
@[simp] theorem incMod_trips (s : State) (f : Fd) : (s.incMod f).trips = s.trips := rfl
@[simp] theorem incMod_pwr (s : State) (f : Fd) : (s.incMod f).pwr = s.pwr := rfl
@[simp] theorem incMod_attic (s : State) (f : Fd) : (s.incMod f).attic = s.attic := rfl
@[simp] theorem incMod_own (s : State) (f : Fd) : (s.incMod f).own = s.own := rfl
@[simp] theorem incMod_snk (s : State) (f : Fd) : (s.incMod f).snk = s.snk := rfl
@[simp] theorem incMod_cel (s : State) (f : Fd) : (s.incMod f).cel = s.cel := rfl
@[simp] theorem incMod_bst (s : State) (f : Fd) : (s.incMod f).bst = s.bst := rfl
@[simp] theorem incMod_dma (s : State) (f : Fd) : (s.incMod f).dma = s.dma := rfl
@[simp] theorem incMod_pending (s : State) (f : Fd) : (s.incMod f).pending = s.pending := rfl

/-! ## store -/

@[simp] theorem store_reply (s : State) (a : Nat) (l : List (Nat × Nat × Acc)) (w : Word) : (s.store a l w).reply = s.reply := rfl
@[simp] theorem store_now (s : State) (a : Nat) (l : List (Nat × Nat × Acc)) (w : Word) : (s.store a l w).now = s.now := rfl
@[simp] theorem store_free (s : State) (a : Nat) (l : List (Nat × Nat × Acc)) (w : Word) : (s.store a l w).free = s.free := rfl
@[simp] theorem store_rate (s : State) (a : Nat) (l : List (Nat × Nat × Acc)) (w : Word) : (s.store a l w).rate = s.rate := rfl
@[simp] theorem store_conv (s : State) (a : Nat) (l : List (Nat × Nat × Acc)) (w : Word) : (s.store a l w).conv = s.conv := rfl
@[simp] theorem store_rst (s : State) (a : Nat) (l : List (Nat × Nat × Acc)) (w : Word) : (s.store a l w).rst = s.rst := rfl
@[simp] theorem store_det (s : State) (a : Nat) (l : List (Nat × Nat × Acc)) (w : Word) : (s.store a l w).det = s.det := rfl
@[simp] theorem store_frm (s : State) (a : Nat) (l : List (Nat × Nat × Acc)) (w : Word) : (s.store a l w).frm = s.frm := rfl
@[simp] theorem store_frameNo (s : State) (a : Nat) (l : List (Nat × Nat × Acc)) (w : Word) : (s.store a l w).frameNo = s.frameNo := rfl
@[simp] theorem store_host (s : State) (a : Nat) (l : List (Nat × Nat × Acc)) (w : Word) : (s.store a l w).host = s.host := rfl
@[simp] theorem store_bclk (s : State) (a : Nat) (l : List (Nat × Nat × Acc)) (w : Word) : (s.store a l w).bclk = s.bclk := rfl
@[simp] theorem store_rpt (s : State) (a : Nat) (l : List (Nat × Nat × Acc)) (w : Word) : (s.store a l w).rpt = s.rpt := rfl
@[simp] theorem store_ceilRun (s : State) (a : Nat) (l : List (Nat × Nat × Acc)) (w : Word) : (s.store a l w).ceilRun = s.ceilRun := rfl
@[simp] theorem store_ceilNear (s : State) (a : Nat) (l : List (Nat × Nat × Acc)) (w : Word) : (s.store a l w).ceilNear = s.ceilNear := rfl
@[simp] theorem store_muteN (s : State) (a : Nat) (l : List (Nat × Nat × Acc)) (w : Word) : (s.store a l w).muteN = s.muteN := rfl
@[simp] theorem store_muteStuck (s : State) (a : Nat) (l : List (Nat × Nat × Acc)) (w : Word) : (s.store a l w).muteStuck = s.muteStuck := rfl
@[simp] theorem store_lst (s : State) (a : Nat) (l : List (Nat × Nat × Acc)) (w : Word) : (s.store a l w).lst = s.lst := rfl
@[simp] theorem store_seen (s : State) (a : Nat) (l : List (Nat × Nat × Acc)) (w : Word) : (s.store a l w).seen = s.seen := rfl
@[simp] theorem store_nfTurn (s : State) (a : Nat) (l : List (Nat × Nat × Acc)) (w : Word) : (s.store a l w).nfTurn = s.nfTurn := rfl
@[simp] theorem store_nfDone (s : State) (a : Nat) (l : List (Nat × Nat × Acc)) (w : Word) : (s.store a l w).nfDone = s.nfDone := rfl
@[simp] theorem store_nf (s : State) (a : Nat) (l : List (Nat × Nat × Acc)) (w : Word) : (s.store a l w).nf = s.nf := rfl
@[simp] theorem store_bnd (s : State) (a : Nat) (l : List (Nat × Nat × Acc)) (w : Word) : (s.store a l w).bnd = s.bnd := rfl
@[simp] theorem store_bsync (s : State) (a : Nat) (l : List (Nat × Nat × Acc)) (w : Word) : (s.store a l w).bsync = s.bsync := rfl
@[simp] theorem store_bandTime (s : State) (a : Nat) (l : List (Nat × Nat × Acc)) (w : Word) : (s.store a l w).bandTime = s.bandTime := rfl
@[simp] theorem store_admSeq (s : State) (a : Nat) (l : List (Nat × Nat × Acc)) (w : Word) : (s.store a l w).admSeq = s.admSeq := rfl
@[simp] theorem store_meas (s : State) (a : Nat) (l : List (Nat × Nat × Acc)) (w : Word) : (s.store a l w).meas = s.meas := rfl
@[simp] theorem store_inq (s : State) (a : Nat) (l : List (Nat × Nat × Acc)) (w : Word) : (s.store a l w).inq = s.inq := rfl
@[simp] theorem store_carry (s : State) (a : Nat) (l : List (Nat × Nat × Acc)) (w : Word) : (s.store a l w).carry = s.carry := rfl
@[simp] theorem store_bndZero (s : State) (a : Nat) (l : List (Nat × Nat × Acc)) (w : Word) : (s.store a l w).bndZero = s.bndZero := rfl
@[simp] theorem store_fen (s : State) (a : Nat) (l : List (Nat × Nat × Acc)) (w : Word) : (s.store a l w).fen = s.fen := rfl
@[simp] theorem store_fenForced (s : State) (a : Nat) (l : List (Nat × Nat × Acc)) (w : Word) : (s.store a l w).fenForced = s.fenForced := rfl
@[simp] theorem store_coexHi (s : State) (a : Nat) (l : List (Nat × Nat × Acc)) (w : Word) : (s.store a l w).coexHi = s.coexHi := rfl
@[simp] theorem store_coexLo (s : State) (a : Nat) (l : List (Nat × Nat × Acc)) (w : Word) : (s.store a l w).coexLo = s.coexLo := rfl
@[simp] theorem store_spi (s : State) (a : Nat) (l : List (Nat × Nat × Acc)) (w : Word) : (s.store a l w).spi = s.spi := rfl
@[simp] theorem store_ibiSent (s : State) (a : Nat) (l : List (Nat × Nat × Acc)) (w : Word) : (s.store a l w).ibiSent = s.ibiSent := rfl
@[simp] theorem store_flash (s : State) (a : Nat) (l : List (Nat × Nat × Acc)) (w : Word) : (s.store a l w).flash = s.flash := rfl
@[simp] theorem store_norWave (s : State) (a : Nat) (l : List (Nat × Nat × Acc)) (w : Word) : (s.store a l w).norWave = s.norWave := rfl
@[simp] theorem store_cores (s : State) (a : Nat) (l : List (Nat × Nat × Acc)) (w : Word) : (s.store a l w).cores = s.cores := rfl
@[simp] theorem store_pmc (s : State) (a : Nat) (l : List (Nat × Nat × Acc)) (w : Word) : (s.store a l w).pmc = s.pmc := rfl
@[simp] theorem store_mem (s : State) (a : Nat) (l : List (Nat × Nat × Acc)) (w : Word) : (s.store a l w).mem = s.mem := rfl
@[simp] theorem store_ecc (s : State) (a : Nat) (l : List (Nat × Nat × Acc)) (w : Word) : (s.store a l w).ecc = s.ecc := rfl
@[simp] theorem store_merge (s : State) (a : Nat) (l : List (Nat × Nat × Acc)) (w : Word) : (s.store a l w).merge = s.merge := rfl
@[simp] theorem store_scrubPos (s : State) (a : Nat) (l : List (Nat × Nat × Acc)) (w : Word) : (s.store a l w).scrubPos = s.scrubPos := rfl
@[simp] theorem store_scrubLast (s : State) (a : Nat) (l : List (Nat × Nat × Acc)) (w : Word) : (s.store a l w).scrubLast = s.scrubLast := rfl
@[simp] theorem store_scrubAgain (s : State) (a : Nat) (l : List (Nat × Nat × Acc)) (w : Word) : (s.store a l w).scrubAgain = s.scrubAgain := rfl
@[simp] theorem store_arb (s : State) (a : Nat) (l : List (Nat × Nat × Acc)) (w : Word) : (s.store a l w).arb = s.arb := rfl
@[simp] theorem store_sto (s : State) (a : Nat) (l : List (Nat × Nat × Acc)) (w : Word) : (s.store a l w).sto = s.sto := rfl
@[simp] theorem store_stop (s : State) (a : Nat) (l : List (Nat × Nat × Acc)) (w : Word) : (s.store a l w).stop = s.stop := rfl
@[simp] theorem store_wdLen (s : State) (a : Nat) (l : List (Nat × Nat × Acc)) (w : Word) : (s.store a l w).wdLen = s.wdLen := rfl
@[simp] theorem store_wdT (s : State) (a : Nat) (l : List (Nat × Nat × Acc)) (w : Word) : (s.store a l w).wdT = s.wdT := rfl
@[simp] theorem store_lockAt (s : State) (a : Nat) (l : List (Nat × Nat × Acc)) (w : Word) : (s.store a l w).lockAt = s.lockAt := rfl
@[simp] theorem store_load (s : State) (a : Nat) (l : List (Nat × Nat × Acc)) (w : Word) : (s.store a l w).load = s.load := rfl
@[simp] theorem store_stuck (s : State) (a : Nat) (l : List (Nat × Nat × Acc)) (w : Word) : (s.store a l w).stuck = s.stuck := rfl
@[simp] theorem store_waits (s : State) (a : Nat) (l : List (Nat × Nat × Acc)) (w : Word) : (s.store a l w).waits = s.waits := rfl
@[simp] theorem store_clk (s : State) (a : Nat) (l : List (Nat × Nat × Acc)) (w : Word) : (s.store a l w).clk = s.clk := rfl
@[simp] theorem store_hkd (s : State) (a : Nat) (l : List (Nat × Nat × Acc)) (w : Word) : (s.store a l w).hkd = s.hkd := rfl
@[simp] theorem store_scanIdx (s : State) (a : Nat) (l : List (Nat × Nat × Acc)) (w : Word) : (s.store a l w).scanIdx = s.scanIdx := rfl
@[simp] theorem store_trips (s : State) (a : Nat) (l : List (Nat × Nat × Acc)) (w : Word) : (s.store a l w).trips = s.trips := rfl
@[simp] theorem store_pwr (s : State) (a : Nat) (l : List (Nat × Nat × Acc)) (w : Word) : (s.store a l w).pwr = s.pwr := rfl
@[simp] theorem store_attic (s : State) (a : Nat) (l : List (Nat × Nat × Acc)) (w : Word) : (s.store a l w).attic = s.attic := rfl
@[simp] theorem store_own (s : State) (a : Nat) (l : List (Nat × Nat × Acc)) (w : Word) : (s.store a l w).own = s.own := rfl
@[simp] theorem store_snk (s : State) (a : Nat) (l : List (Nat × Nat × Acc)) (w : Word) : (s.store a l w).snk = s.snk := rfl
@[simp] theorem store_cel (s : State) (a : Nat) (l : List (Nat × Nat × Acc)) (w : Word) : (s.store a l w).cel = s.cel := rfl
@[simp] theorem store_bst (s : State) (a : Nat) (l : List (Nat × Nat × Acc)) (w : Word) : (s.store a l w).bst = s.bst := rfl
@[simp] theorem store_dma (s : State) (a : Nat) (l : List (Nat × Nat × Acc)) (w : Word) : (s.store a l w).dma = s.dma := rfl
@[simp] theorem store_pending (s : State) (a : Nat) (l : List (Nat × Nat × Acc)) (w : Word) : (s.store a l w).pending = s.pending := rfl

/-! ## dropRange -/

@[simp] theorem dropRange_reply (s : State) (a b : Nat) : (s.dropRange a b).reply = s.reply := rfl
@[simp] theorem dropRange_now (s : State) (a b : Nat) : (s.dropRange a b).now = s.now := rfl
@[simp] theorem dropRange_free (s : State) (a b : Nat) : (s.dropRange a b).free = s.free := rfl
@[simp] theorem dropRange_rate (s : State) (a b : Nat) : (s.dropRange a b).rate = s.rate := rfl
@[simp] theorem dropRange_conv (s : State) (a b : Nat) : (s.dropRange a b).conv = s.conv := rfl
@[simp] theorem dropRange_rst (s : State) (a b : Nat) : (s.dropRange a b).rst = s.rst := rfl
@[simp] theorem dropRange_det (s : State) (a b : Nat) : (s.dropRange a b).det = s.det := rfl
@[simp] theorem dropRange_frm (s : State) (a b : Nat) : (s.dropRange a b).frm = s.frm := rfl
@[simp] theorem dropRange_frameNo (s : State) (a b : Nat) : (s.dropRange a b).frameNo = s.frameNo := rfl
@[simp] theorem dropRange_host (s : State) (a b : Nat) : (s.dropRange a b).host = s.host := rfl
@[simp] theorem dropRange_bclk (s : State) (a b : Nat) : (s.dropRange a b).bclk = s.bclk := rfl
@[simp] theorem dropRange_rpt (s : State) (a b : Nat) : (s.dropRange a b).rpt = s.rpt := rfl
@[simp] theorem dropRange_ceilRun (s : State) (a b : Nat) : (s.dropRange a b).ceilRun = s.ceilRun := rfl
@[simp] theorem dropRange_ceilNear (s : State) (a b : Nat) : (s.dropRange a b).ceilNear = s.ceilNear := rfl
@[simp] theorem dropRange_muteN (s : State) (a b : Nat) : (s.dropRange a b).muteN = s.muteN := rfl
@[simp] theorem dropRange_muteStuck (s : State) (a b : Nat) : (s.dropRange a b).muteStuck = s.muteStuck := rfl
@[simp] theorem dropRange_lst (s : State) (a b : Nat) : (s.dropRange a b).lst = s.lst := rfl
@[simp] theorem dropRange_seen (s : State) (a b : Nat) : (s.dropRange a b).seen = s.seen := rfl
@[simp] theorem dropRange_nfTurn (s : State) (a b : Nat) : (s.dropRange a b).nfTurn = s.nfTurn := rfl
@[simp] theorem dropRange_nfDone (s : State) (a b : Nat) : (s.dropRange a b).nfDone = s.nfDone := rfl
@[simp] theorem dropRange_nf (s : State) (a b : Nat) : (s.dropRange a b).nf = s.nf := rfl
@[simp] theorem dropRange_bnd (s : State) (a b : Nat) : (s.dropRange a b).bnd = s.bnd := rfl
@[simp] theorem dropRange_bsync (s : State) (a b : Nat) : (s.dropRange a b).bsync = s.bsync := rfl
@[simp] theorem dropRange_bandTime (s : State) (a b : Nat) : (s.dropRange a b).bandTime = s.bandTime := rfl
@[simp] theorem dropRange_admSeq (s : State) (a b : Nat) : (s.dropRange a b).admSeq = s.admSeq := rfl
@[simp] theorem dropRange_meas (s : State) (a b : Nat) : (s.dropRange a b).meas = s.meas := rfl
@[simp] theorem dropRange_inq (s : State) (a b : Nat) : (s.dropRange a b).inq = s.inq := rfl
@[simp] theorem dropRange_carry (s : State) (a b : Nat) : (s.dropRange a b).carry = s.carry := rfl
@[simp] theorem dropRange_bndZero (s : State) (a b : Nat) : (s.dropRange a b).bndZero = s.bndZero := rfl
@[simp] theorem dropRange_fen (s : State) (a b : Nat) : (s.dropRange a b).fen = s.fen := rfl
@[simp] theorem dropRange_fenForced (s : State) (a b : Nat) : (s.dropRange a b).fenForced = s.fenForced := rfl
@[simp] theorem dropRange_coexHi (s : State) (a b : Nat) : (s.dropRange a b).coexHi = s.coexHi := rfl
@[simp] theorem dropRange_coexLo (s : State) (a b : Nat) : (s.dropRange a b).coexLo = s.coexLo := rfl
@[simp] theorem dropRange_spi (s : State) (a b : Nat) : (s.dropRange a b).spi = s.spi := rfl
@[simp] theorem dropRange_ibiSent (s : State) (a b : Nat) : (s.dropRange a b).ibiSent = s.ibiSent := rfl
@[simp] theorem dropRange_flash (s : State) (a b : Nat) : (s.dropRange a b).flash = s.flash := rfl
@[simp] theorem dropRange_norWave (s : State) (a b : Nat) : (s.dropRange a b).norWave = s.norWave := rfl
@[simp] theorem dropRange_cores (s : State) (a b : Nat) : (s.dropRange a b).cores = s.cores := rfl
@[simp] theorem dropRange_pmc (s : State) (a b : Nat) : (s.dropRange a b).pmc = s.pmc := rfl
@[simp] theorem dropRange_mem (s : State) (a b : Nat) : (s.dropRange a b).mem = s.mem := rfl
@[simp] theorem dropRange_ecc (s : State) (a b : Nat) : (s.dropRange a b).ecc = s.ecc := rfl
@[simp] theorem dropRange_merge (s : State) (a b : Nat) : (s.dropRange a b).merge = s.merge := rfl
@[simp] theorem dropRange_scrubPos (s : State) (a b : Nat) : (s.dropRange a b).scrubPos = s.scrubPos := rfl
@[simp] theorem dropRange_scrubLast (s : State) (a b : Nat) : (s.dropRange a b).scrubLast = s.scrubLast := rfl
@[simp] theorem dropRange_scrubAgain (s : State) (a b : Nat) : (s.dropRange a b).scrubAgain = s.scrubAgain := rfl
@[simp] theorem dropRange_arb (s : State) (a b : Nat) : (s.dropRange a b).arb = s.arb := rfl
@[simp] theorem dropRange_sto (s : State) (a b : Nat) : (s.dropRange a b).sto = s.sto := rfl
@[simp] theorem dropRange_stop (s : State) (a b : Nat) : (s.dropRange a b).stop = s.stop := rfl
@[simp] theorem dropRange_wdLen (s : State) (a b : Nat) : (s.dropRange a b).wdLen = s.wdLen := rfl
@[simp] theorem dropRange_wdT (s : State) (a b : Nat) : (s.dropRange a b).wdT = s.wdT := rfl
@[simp] theorem dropRange_lockAt (s : State) (a b : Nat) : (s.dropRange a b).lockAt = s.lockAt := rfl
@[simp] theorem dropRange_load (s : State) (a b : Nat) : (s.dropRange a b).load = s.load := rfl
@[simp] theorem dropRange_stuck (s : State) (a b : Nat) : (s.dropRange a b).stuck = s.stuck := rfl
@[simp] theorem dropRange_waits (s : State) (a b : Nat) : (s.dropRange a b).waits = s.waits := rfl
@[simp] theorem dropRange_clk (s : State) (a b : Nat) : (s.dropRange a b).clk = s.clk := rfl
@[simp] theorem dropRange_hkd (s : State) (a b : Nat) : (s.dropRange a b).hkd = s.hkd := rfl
@[simp] theorem dropRange_scanIdx (s : State) (a b : Nat) : (s.dropRange a b).scanIdx = s.scanIdx := rfl
@[simp] theorem dropRange_trips (s : State) (a b : Nat) : (s.dropRange a b).trips = s.trips := rfl
@[simp] theorem dropRange_pwr (s : State) (a b : Nat) : (s.dropRange a b).pwr = s.pwr := rfl
@[simp] theorem dropRange_attic (s : State) (a b : Nat) : (s.dropRange a b).attic = s.attic := rfl
@[simp] theorem dropRange_own (s : State) (a b : Nat) : (s.dropRange a b).own = s.own := rfl
@[simp] theorem dropRange_snk (s : State) (a b : Nat) : (s.dropRange a b).snk = s.snk := rfl
@[simp] theorem dropRange_cel (s : State) (a b : Nat) : (s.dropRange a b).cel = s.cel := rfl
@[simp] theorem dropRange_bst (s : State) (a b : Nat) : (s.dropRange a b).bst = s.bst := rfl
@[simp] theorem dropRange_dma (s : State) (a b : Nat) : (s.dropRange a b).dma = s.dma := rfl
@[simp] theorem dropRange_pending (s : State) (a b : Nat) : (s.dropRange a b).pending = s.pending := rfl

/-! ## ret -/

@[simp] theorem ret_regs (s : State) (c : Code) : (s.ret c).regs = s.regs := rfl
@[simp] theorem ret_now (s : State) (c : Code) : (s.ret c).now = s.now := rfl
@[simp] theorem ret_free (s : State) (c : Code) : (s.ret c).free = s.free := rfl
@[simp] theorem ret_rate (s : State) (c : Code) : (s.ret c).rate = s.rate := rfl
@[simp] theorem ret_conv (s : State) (c : Code) : (s.ret c).conv = s.conv := rfl
@[simp] theorem ret_rst (s : State) (c : Code) : (s.ret c).rst = s.rst := rfl
@[simp] theorem ret_det (s : State) (c : Code) : (s.ret c).det = s.det := rfl
@[simp] theorem ret_frm (s : State) (c : Code) : (s.ret c).frm = s.frm := rfl
@[simp] theorem ret_frameNo (s : State) (c : Code) : (s.ret c).frameNo = s.frameNo := rfl
@[simp] theorem ret_host (s : State) (c : Code) : (s.ret c).host = s.host := rfl
@[simp] theorem ret_bclk (s : State) (c : Code) : (s.ret c).bclk = s.bclk := rfl
@[simp] theorem ret_rpt (s : State) (c : Code) : (s.ret c).rpt = s.rpt := rfl
@[simp] theorem ret_ceilRun (s : State) (c : Code) : (s.ret c).ceilRun = s.ceilRun := rfl
@[simp] theorem ret_ceilNear (s : State) (c : Code) : (s.ret c).ceilNear = s.ceilNear := rfl
@[simp] theorem ret_muteN (s : State) (c : Code) : (s.ret c).muteN = s.muteN := rfl
@[simp] theorem ret_muteStuck (s : State) (c : Code) : (s.ret c).muteStuck = s.muteStuck := rfl
@[simp] theorem ret_lst (s : State) (c : Code) : (s.ret c).lst = s.lst := rfl
@[simp] theorem ret_seen (s : State) (c : Code) : (s.ret c).seen = s.seen := rfl
@[simp] theorem ret_nfTurn (s : State) (c : Code) : (s.ret c).nfTurn = s.nfTurn := rfl
@[simp] theorem ret_nfDone (s : State) (c : Code) : (s.ret c).nfDone = s.nfDone := rfl
@[simp] theorem ret_nf (s : State) (c : Code) : (s.ret c).nf = s.nf := rfl
@[simp] theorem ret_bnd (s : State) (c : Code) : (s.ret c).bnd = s.bnd := rfl
@[simp] theorem ret_bsync (s : State) (c : Code) : (s.ret c).bsync = s.bsync := rfl
@[simp] theorem ret_bandTime (s : State) (c : Code) : (s.ret c).bandTime = s.bandTime := rfl
@[simp] theorem ret_admSeq (s : State) (c : Code) : (s.ret c).admSeq = s.admSeq := rfl
@[simp] theorem ret_meas (s : State) (c : Code) : (s.ret c).meas = s.meas := rfl
@[simp] theorem ret_inq (s : State) (c : Code) : (s.ret c).inq = s.inq := rfl
@[simp] theorem ret_carry (s : State) (c : Code) : (s.ret c).carry = s.carry := rfl
@[simp] theorem ret_bndZero (s : State) (c : Code) : (s.ret c).bndZero = s.bndZero := rfl
@[simp] theorem ret_fen (s : State) (c : Code) : (s.ret c).fen = s.fen := rfl
@[simp] theorem ret_fenForced (s : State) (c : Code) : (s.ret c).fenForced = s.fenForced := rfl
@[simp] theorem ret_coexHi (s : State) (c : Code) : (s.ret c).coexHi = s.coexHi := rfl
@[simp] theorem ret_coexLo (s : State) (c : Code) : (s.ret c).coexLo = s.coexLo := rfl
@[simp] theorem ret_spi (s : State) (c : Code) : (s.ret c).spi = s.spi := rfl
@[simp] theorem ret_ibiSent (s : State) (c : Code) : (s.ret c).ibiSent = s.ibiSent := rfl
@[simp] theorem ret_flash (s : State) (c : Code) : (s.ret c).flash = s.flash := rfl
@[simp] theorem ret_norWave (s : State) (c : Code) : (s.ret c).norWave = s.norWave := rfl
@[simp] theorem ret_cores (s : State) (c : Code) : (s.ret c).cores = s.cores := rfl
@[simp] theorem ret_pmc (s : State) (c : Code) : (s.ret c).pmc = s.pmc := rfl
@[simp] theorem ret_mem (s : State) (c : Code) : (s.ret c).mem = s.mem := rfl
@[simp] theorem ret_ecc (s : State) (c : Code) : (s.ret c).ecc = s.ecc := rfl
@[simp] theorem ret_merge (s : State) (c : Code) : (s.ret c).merge = s.merge := rfl
@[simp] theorem ret_scrubPos (s : State) (c : Code) : (s.ret c).scrubPos = s.scrubPos := rfl
@[simp] theorem ret_scrubLast (s : State) (c : Code) : (s.ret c).scrubLast = s.scrubLast := rfl
@[simp] theorem ret_scrubAgain (s : State) (c : Code) : (s.ret c).scrubAgain = s.scrubAgain := rfl
@[simp] theorem ret_arb (s : State) (c : Code) : (s.ret c).arb = s.arb := rfl
@[simp] theorem ret_sto (s : State) (c : Code) : (s.ret c).sto = s.sto := rfl
@[simp] theorem ret_stop (s : State) (c : Code) : (s.ret c).stop = s.stop := rfl
@[simp] theorem ret_wdLen (s : State) (c : Code) : (s.ret c).wdLen = s.wdLen := rfl
@[simp] theorem ret_wdT (s : State) (c : Code) : (s.ret c).wdT = s.wdT := rfl
@[simp] theorem ret_lockAt (s : State) (c : Code) : (s.ret c).lockAt = s.lockAt := rfl
@[simp] theorem ret_load (s : State) (c : Code) : (s.ret c).load = s.load := rfl
@[simp] theorem ret_stuck (s : State) (c : Code) : (s.ret c).stuck = s.stuck := rfl
@[simp] theorem ret_waits (s : State) (c : Code) : (s.ret c).waits = s.waits := rfl
@[simp] theorem ret_clk (s : State) (c : Code) : (s.ret c).clk = s.clk := rfl
@[simp] theorem ret_hkd (s : State) (c : Code) : (s.ret c).hkd = s.hkd := rfl
@[simp] theorem ret_scanIdx (s : State) (c : Code) : (s.ret c).scanIdx = s.scanIdx := rfl
@[simp] theorem ret_trips (s : State) (c : Code) : (s.ret c).trips = s.trips := rfl
@[simp] theorem ret_pwr (s : State) (c : Code) : (s.ret c).pwr = s.pwr := rfl
@[simp] theorem ret_attic (s : State) (c : Code) : (s.ret c).attic = s.attic := rfl
@[simp] theorem ret_own (s : State) (c : Code) : (s.ret c).own = s.own := rfl
@[simp] theorem ret_snk (s : State) (c : Code) : (s.ret c).snk = s.snk := rfl
@[simp] theorem ret_cel (s : State) (c : Code) : (s.ret c).cel = s.cel := rfl
@[simp] theorem ret_bst (s : State) (c : Code) : (s.ret c).bst = s.bst := rfl
@[simp] theorem ret_dma (s : State) (c : Code) : (s.ret c).dma = s.dma := rfl
@[simp] theorem ret_pending (s : State) (c : Code) : (s.ret c).pending = s.pending := rfl

/-! ## retData -/

@[simp] theorem retData_regs (s : State) (d : List Word) : (s.retData d).regs = s.regs := rfl
@[simp] theorem retData_now (s : State) (d : List Word) : (s.retData d).now = s.now := rfl
@[simp] theorem retData_free (s : State) (d : List Word) : (s.retData d).free = s.free := rfl
@[simp] theorem retData_rate (s : State) (d : List Word) : (s.retData d).rate = s.rate := rfl
@[simp] theorem retData_conv (s : State) (d : List Word) : (s.retData d).conv = s.conv := rfl
@[simp] theorem retData_rst (s : State) (d : List Word) : (s.retData d).rst = s.rst := rfl
@[simp] theorem retData_det (s : State) (d : List Word) : (s.retData d).det = s.det := rfl
@[simp] theorem retData_frm (s : State) (d : List Word) : (s.retData d).frm = s.frm := rfl
@[simp] theorem retData_frameNo (s : State) (d : List Word) : (s.retData d).frameNo = s.frameNo := rfl
@[simp] theorem retData_host (s : State) (d : List Word) : (s.retData d).host = s.host := rfl
@[simp] theorem retData_bclk (s : State) (d : List Word) : (s.retData d).bclk = s.bclk := rfl
@[simp] theorem retData_rpt (s : State) (d : List Word) : (s.retData d).rpt = s.rpt := rfl
@[simp] theorem retData_ceilRun (s : State) (d : List Word) : (s.retData d).ceilRun = s.ceilRun := rfl
@[simp] theorem retData_ceilNear (s : State) (d : List Word) : (s.retData d).ceilNear = s.ceilNear := rfl
@[simp] theorem retData_muteN (s : State) (d : List Word) : (s.retData d).muteN = s.muteN := rfl
@[simp] theorem retData_muteStuck (s : State) (d : List Word) : (s.retData d).muteStuck = s.muteStuck := rfl
@[simp] theorem retData_lst (s : State) (d : List Word) : (s.retData d).lst = s.lst := rfl
@[simp] theorem retData_seen (s : State) (d : List Word) : (s.retData d).seen = s.seen := rfl
@[simp] theorem retData_nfTurn (s : State) (d : List Word) : (s.retData d).nfTurn = s.nfTurn := rfl
@[simp] theorem retData_nfDone (s : State) (d : List Word) : (s.retData d).nfDone = s.nfDone := rfl
@[simp] theorem retData_nf (s : State) (d : List Word) : (s.retData d).nf = s.nf := rfl
@[simp] theorem retData_bnd (s : State) (d : List Word) : (s.retData d).bnd = s.bnd := rfl
@[simp] theorem retData_bsync (s : State) (d : List Word) : (s.retData d).bsync = s.bsync := rfl
@[simp] theorem retData_bandTime (s : State) (d : List Word) : (s.retData d).bandTime = s.bandTime := rfl
@[simp] theorem retData_admSeq (s : State) (d : List Word) : (s.retData d).admSeq = s.admSeq := rfl
@[simp] theorem retData_meas (s : State) (d : List Word) : (s.retData d).meas = s.meas := rfl
@[simp] theorem retData_inq (s : State) (d : List Word) : (s.retData d).inq = s.inq := rfl
@[simp] theorem retData_carry (s : State) (d : List Word) : (s.retData d).carry = s.carry := rfl
@[simp] theorem retData_bndZero (s : State) (d : List Word) : (s.retData d).bndZero = s.bndZero := rfl
@[simp] theorem retData_fen (s : State) (d : List Word) : (s.retData d).fen = s.fen := rfl
@[simp] theorem retData_fenForced (s : State) (d : List Word) : (s.retData d).fenForced = s.fenForced := rfl
@[simp] theorem retData_coexHi (s : State) (d : List Word) : (s.retData d).coexHi = s.coexHi := rfl
@[simp] theorem retData_coexLo (s : State) (d : List Word) : (s.retData d).coexLo = s.coexLo := rfl
@[simp] theorem retData_spi (s : State) (d : List Word) : (s.retData d).spi = s.spi := rfl
@[simp] theorem retData_ibiSent (s : State) (d : List Word) : (s.retData d).ibiSent = s.ibiSent := rfl
@[simp] theorem retData_flash (s : State) (d : List Word) : (s.retData d).flash = s.flash := rfl
@[simp] theorem retData_norWave (s : State) (d : List Word) : (s.retData d).norWave = s.norWave := rfl
@[simp] theorem retData_cores (s : State) (d : List Word) : (s.retData d).cores = s.cores := rfl
@[simp] theorem retData_pmc (s : State) (d : List Word) : (s.retData d).pmc = s.pmc := rfl
@[simp] theorem retData_mem (s : State) (d : List Word) : (s.retData d).mem = s.mem := rfl
@[simp] theorem retData_ecc (s : State) (d : List Word) : (s.retData d).ecc = s.ecc := rfl
@[simp] theorem retData_merge (s : State) (d : List Word) : (s.retData d).merge = s.merge := rfl
@[simp] theorem retData_scrubPos (s : State) (d : List Word) : (s.retData d).scrubPos = s.scrubPos := rfl
@[simp] theorem retData_scrubLast (s : State) (d : List Word) : (s.retData d).scrubLast = s.scrubLast := rfl
@[simp] theorem retData_scrubAgain (s : State) (d : List Word) : (s.retData d).scrubAgain = s.scrubAgain := rfl
@[simp] theorem retData_arb (s : State) (d : List Word) : (s.retData d).arb = s.arb := rfl
@[simp] theorem retData_sto (s : State) (d : List Word) : (s.retData d).sto = s.sto := rfl
@[simp] theorem retData_stop (s : State) (d : List Word) : (s.retData d).stop = s.stop := rfl
@[simp] theorem retData_wdLen (s : State) (d : List Word) : (s.retData d).wdLen = s.wdLen := rfl
@[simp] theorem retData_wdT (s : State) (d : List Word) : (s.retData d).wdT = s.wdT := rfl
@[simp] theorem retData_lockAt (s : State) (d : List Word) : (s.retData d).lockAt = s.lockAt := rfl
@[simp] theorem retData_load (s : State) (d : List Word) : (s.retData d).load = s.load := rfl
@[simp] theorem retData_stuck (s : State) (d : List Word) : (s.retData d).stuck = s.stuck := rfl
@[simp] theorem retData_waits (s : State) (d : List Word) : (s.retData d).waits = s.waits := rfl
@[simp] theorem retData_clk (s : State) (d : List Word) : (s.retData d).clk = s.clk := rfl
@[simp] theorem retData_hkd (s : State) (d : List Word) : (s.retData d).hkd = s.hkd := rfl
@[simp] theorem retData_scanIdx (s : State) (d : List Word) : (s.retData d).scanIdx = s.scanIdx := rfl
@[simp] theorem retData_trips (s : State) (d : List Word) : (s.retData d).trips = s.trips := rfl
@[simp] theorem retData_pwr (s : State) (d : List Word) : (s.retData d).pwr = s.pwr := rfl
@[simp] theorem retData_attic (s : State) (d : List Word) : (s.retData d).attic = s.attic := rfl
@[simp] theorem retData_own (s : State) (d : List Word) : (s.retData d).own = s.own := rfl
@[simp] theorem retData_snk (s : State) (d : List Word) : (s.retData d).snk = s.snk := rfl
@[simp] theorem retData_cel (s : State) (d : List Word) : (s.retData d).cel = s.cel := rfl
@[simp] theorem retData_bst (s : State) (d : List Word) : (s.retData d).bst = s.bst := rfl
@[simp] theorem retData_dma (s : State) (d : List Word) : (s.retData d).dma = s.dma := rfl
@[simp] theorem retData_pending (s : State) (d : List Word) : (s.retData d).pending = s.pending := rfl

/-! ## freeNext -/

@[simp] theorem freeNext_regs (s : State)  : (s.freeNext).regs = s.regs := rfl
@[simp] theorem freeNext_reply (s : State)  : (s.freeNext).reply = s.reply := rfl
@[simp] theorem freeNext_now (s : State)  : (s.freeNext).now = s.now := rfl
@[simp] theorem freeNext_rate (s : State)  : (s.freeNext).rate = s.rate := rfl
@[simp] theorem freeNext_conv (s : State)  : (s.freeNext).conv = s.conv := rfl
@[simp] theorem freeNext_rst (s : State)  : (s.freeNext).rst = s.rst := rfl
@[simp] theorem freeNext_det (s : State)  : (s.freeNext).det = s.det := rfl
@[simp] theorem freeNext_frm (s : State)  : (s.freeNext).frm = s.frm := rfl
@[simp] theorem freeNext_frameNo (s : State)  : (s.freeNext).frameNo = s.frameNo := rfl
@[simp] theorem freeNext_host (s : State)  : (s.freeNext).host = s.host := rfl
@[simp] theorem freeNext_bclk (s : State)  : (s.freeNext).bclk = s.bclk := rfl
@[simp] theorem freeNext_rpt (s : State)  : (s.freeNext).rpt = s.rpt := rfl
@[simp] theorem freeNext_ceilRun (s : State)  : (s.freeNext).ceilRun = s.ceilRun := rfl
@[simp] theorem freeNext_ceilNear (s : State)  : (s.freeNext).ceilNear = s.ceilNear := rfl
@[simp] theorem freeNext_muteN (s : State)  : (s.freeNext).muteN = s.muteN := rfl
@[simp] theorem freeNext_muteStuck (s : State)  : (s.freeNext).muteStuck = s.muteStuck := rfl
@[simp] theorem freeNext_lst (s : State)  : (s.freeNext).lst = s.lst := rfl
@[simp] theorem freeNext_seen (s : State)  : (s.freeNext).seen = s.seen := rfl
@[simp] theorem freeNext_nfTurn (s : State)  : (s.freeNext).nfTurn = s.nfTurn := rfl
@[simp] theorem freeNext_nfDone (s : State)  : (s.freeNext).nfDone = s.nfDone := rfl
@[simp] theorem freeNext_nf (s : State)  : (s.freeNext).nf = s.nf := rfl
@[simp] theorem freeNext_bnd (s : State)  : (s.freeNext).bnd = s.bnd := rfl
@[simp] theorem freeNext_bsync (s : State)  : (s.freeNext).bsync = s.bsync := rfl
@[simp] theorem freeNext_bandTime (s : State)  : (s.freeNext).bandTime = s.bandTime := rfl
@[simp] theorem freeNext_admSeq (s : State)  : (s.freeNext).admSeq = s.admSeq := rfl
@[simp] theorem freeNext_meas (s : State)  : (s.freeNext).meas = s.meas := rfl
@[simp] theorem freeNext_inq (s : State)  : (s.freeNext).inq = s.inq := rfl
@[simp] theorem freeNext_carry (s : State)  : (s.freeNext).carry = s.carry := rfl
@[simp] theorem freeNext_bndZero (s : State)  : (s.freeNext).bndZero = s.bndZero := rfl
@[simp] theorem freeNext_fen (s : State)  : (s.freeNext).fen = s.fen := rfl
@[simp] theorem freeNext_fenForced (s : State)  : (s.freeNext).fenForced = s.fenForced := rfl
@[simp] theorem freeNext_coexHi (s : State)  : (s.freeNext).coexHi = s.coexHi := rfl
@[simp] theorem freeNext_coexLo (s : State)  : (s.freeNext).coexLo = s.coexLo := rfl
@[simp] theorem freeNext_spi (s : State)  : (s.freeNext).spi = s.spi := rfl
@[simp] theorem freeNext_ibiSent (s : State)  : (s.freeNext).ibiSent = s.ibiSent := rfl
@[simp] theorem freeNext_flash (s : State)  : (s.freeNext).flash = s.flash := rfl
@[simp] theorem freeNext_norWave (s : State)  : (s.freeNext).norWave = s.norWave := rfl
@[simp] theorem freeNext_cores (s : State)  : (s.freeNext).cores = s.cores := rfl
@[simp] theorem freeNext_pmc (s : State)  : (s.freeNext).pmc = s.pmc := rfl
@[simp] theorem freeNext_mem (s : State)  : (s.freeNext).mem = s.mem := rfl
@[simp] theorem freeNext_ecc (s : State)  : (s.freeNext).ecc = s.ecc := rfl
@[simp] theorem freeNext_merge (s : State)  : (s.freeNext).merge = s.merge := rfl
@[simp] theorem freeNext_scrubPos (s : State)  : (s.freeNext).scrubPos = s.scrubPos := rfl
@[simp] theorem freeNext_scrubLast (s : State)  : (s.freeNext).scrubLast = s.scrubLast := rfl
@[simp] theorem freeNext_scrubAgain (s : State)  : (s.freeNext).scrubAgain = s.scrubAgain := rfl
@[simp] theorem freeNext_arb (s : State)  : (s.freeNext).arb = s.arb := rfl
@[simp] theorem freeNext_sto (s : State)  : (s.freeNext).sto = s.sto := rfl
@[simp] theorem freeNext_stop (s : State)  : (s.freeNext).stop = s.stop := rfl
@[simp] theorem freeNext_wdLen (s : State)  : (s.freeNext).wdLen = s.wdLen := rfl
@[simp] theorem freeNext_wdT (s : State)  : (s.freeNext).wdT = s.wdT := rfl
@[simp] theorem freeNext_lockAt (s : State)  : (s.freeNext).lockAt = s.lockAt := rfl
@[simp] theorem freeNext_load (s : State)  : (s.freeNext).load = s.load := rfl
@[simp] theorem freeNext_stuck (s : State)  : (s.freeNext).stuck = s.stuck := rfl
@[simp] theorem freeNext_waits (s : State)  : (s.freeNext).waits = s.waits := rfl
@[simp] theorem freeNext_clk (s : State)  : (s.freeNext).clk = s.clk := rfl
@[simp] theorem freeNext_hkd (s : State)  : (s.freeNext).hkd = s.hkd := rfl
@[simp] theorem freeNext_scanIdx (s : State)  : (s.freeNext).scanIdx = s.scanIdx := rfl
@[simp] theorem freeNext_trips (s : State)  : (s.freeNext).trips = s.trips := rfl
@[simp] theorem freeNext_pwr (s : State)  : (s.freeNext).pwr = s.pwr := rfl
@[simp] theorem freeNext_attic (s : State)  : (s.freeNext).attic = s.attic := rfl
@[simp] theorem freeNext_own (s : State)  : (s.freeNext).own = s.own := rfl
@[simp] theorem freeNext_snk (s : State)  : (s.freeNext).snk = s.snk := rfl
@[simp] theorem freeNext_cel (s : State)  : (s.freeNext).cel = s.cel := rfl
@[simp] theorem freeNext_bst (s : State)  : (s.freeNext).bst = s.bst := rfl
@[simp] theorem freeNext_dma (s : State)  : (s.freeNext).dma = s.dma := rfl
@[simp] theorem freeNext_pending (s : State)  : (s.freeNext).pending = s.pending := rfl

/-! ## Reads after a completion -/

@[simp] theorem ret_rd (s : State) (c : Code) (a : Nat) : (s.ret c).rd a = s.rd a := rfl
@[simp] theorem ret_get (s : State) (c : Code) (f : Fd) : (s.ret c).get f = s.get f := rfl
@[simp] theorem ret_on (s : State) (c : Code) (f : Fd) : (s.ret c).on f = s.on f := rfl
@[simp] theorem ret_reply (s : State) (c : Code) : (s.ret c).reply = ⟨c, []⟩ := rfl
@[simp] theorem retData_rd (s : State) (d : List Word) (a : Nat) : (s.retData d).rd a = s.rd a := rfl
@[simp] theorem retData_get (s : State) (d : List Word) (f : Fd) : (s.retData d).get f = s.get f := rfl
@[simp] theorem retData_reply (s : State) (d : List Word) : (s.retData d).reply = ⟨.done, d⟩ := rfl

/-! ## Reads of one register after a change of another -/

theorem wr_rd_ne (s : State) {a : Nat} {v : Word} {x : Nat} (h : a ≠ x) : (s.wr a v).rd x = s.rd x := rd_wr_ne s _ h
theorem wr_get_ne (s : State) {a : Nat} {v : Word} {g : Fd} (h : a ≠ g.a) : (s.wr a v).get g = s.get g := by simp only [State.get, wr_rd_ne s h]
theorem wr_geti_ne (s : State) {a : Nat} {v : Word} {g : Fd} (h : a ≠ g.a) : (s.wr a v).geti g = s.geti g := by simp only [State.geti, wr_get_ne s h]
theorem wr_on_ne (s : State) {a : Nat} {v : Word} {g : Fd} (h : a ≠ g.a) : (s.wr a v).on g = s.on g := by simp only [State.on, wr_get_ne s h]
theorem set_rd_ne (s : State) {f : Fd} {v : Nat} {x : Nat} (h : f.a ≠ x) : (s.set f v).rd x = s.rd x := rd_wr_ne s _ h
theorem set_get_ne (s : State) {f : Fd} {v : Nat} {g : Fd} (h : f.a ≠ g.a) : (s.set f v).get g = s.get g := by simp only [State.get, set_rd_ne s h]
theorem set_geti_ne (s : State) {f : Fd} {v : Nat} {g : Fd} (h : f.a ≠ g.a) : (s.set f v).geti g = s.geti g := by simp only [State.geti, set_get_ne s h]
theorem set_on_ne (s : State) {f : Fd} {v : Nat} {g : Fd} (h : f.a ≠ g.a) : (s.set f v).on g = s.on g := by simp only [State.on, set_get_ne s h]
theorem seti_rd_ne (s : State) {f : Fd} {v : Int} {x : Nat} (h : f.a ≠ x) : (s.seti f v).rd x = s.rd x := rd_wr_ne s _ h
theorem seti_get_ne (s : State) {f : Fd} {v : Int} {g : Fd} (h : f.a ≠ g.a) : (s.seti f v).get g = s.get g := by simp only [State.get, seti_rd_ne s h]
theorem seti_geti_ne (s : State) {f : Fd} {v : Int} {g : Fd} (h : f.a ≠ g.a) : (s.seti f v).geti g = s.geti g := by simp only [State.geti, seti_get_ne s h]
theorem seti_on_ne (s : State) {f : Fd} {v : Int} {g : Fd} (h : f.a ≠ g.a) : (s.seti f v).on g = s.on g := by simp only [State.on, seti_get_ne s h]
theorem addSat_rd_ne (s : State) {f : Fd} {v : Nat} {x : Nat} (h : f.a ≠ x) : (s.addSat f v).rd x = s.rd x := rd_wr_ne s _ h
theorem addSat_get_ne (s : State) {f : Fd} {v : Nat} {g : Fd} (h : f.a ≠ g.a) : (s.addSat f v).get g = s.get g := by simp only [State.get, addSat_rd_ne s h]
theorem addSat_geti_ne (s : State) {f : Fd} {v : Nat} {g : Fd} (h : f.a ≠ g.a) : (s.addSat f v).geti g = s.geti g := by simp only [State.geti, addSat_get_ne s h]
theorem addSat_on_ne (s : State) {f : Fd} {v : Nat} {g : Fd} (h : f.a ≠ g.a) : (s.addSat f v).on g = s.on g := by simp only [State.on, addSat_get_ne s h]
theorem incMod_rd_ne (s : State) {f : Fd} {x : Nat} (h : f.a ≠ x) : (s.incMod f).rd x = s.rd x := rd_wr_ne s _ h
theorem incMod_get_ne (s : State) {f : Fd} {g : Fd} (h : f.a ≠ g.a) : (s.incMod f).get g = s.get g := by simp only [State.get, incMod_rd_ne s h]
theorem incMod_geti_ne (s : State) {f : Fd} {g : Fd} (h : f.a ≠ g.a) : (s.incMod f).geti g = s.geti g := by simp only [State.geti, incMod_get_ne s h]
theorem incMod_on_ne (s : State) {f : Fd} {g : Fd} (h : f.a ≠ g.a) : (s.incMod f).on g = s.on g := by simp only [State.on, incMod_get_ne s h]
theorem store_rd_ne (s : State) {a : Nat} {l : List (Nat × Nat × Acc)} {w : Word} {x : Nat} (h : a ≠ x) : (s.store a l w).rd x = s.rd x := rd_wr_ne s _ h
theorem store_get_ne (s : State) {a : Nat} {l : List (Nat × Nat × Acc)} {w : Word} {g : Fd} (h : a ≠ g.a) : (s.store a l w).get g = s.get g := by simp only [State.get, store_rd_ne s h]
theorem store_geti_ne (s : State) {a : Nat} {l : List (Nat × Nat × Acc)} {w : Word} {g : Fd} (h : a ≠ g.a) : (s.store a l w).geti g = s.geti g := by simp only [State.geti, store_get_ne s h]
theorem store_on_ne (s : State) {a : Nat} {l : List (Nat × Nat × Acc)} {w : Word} {g : Fd} (h : a ≠ g.a) : (s.store a l w).on g = s.on g := by simp only [State.on, store_get_ne s h]

/-! ## Reads of one field after a change of another or of itself -/

theorem set_geti_bits (s : State) {f g : Fd} {v : Nat} (h : f.lo + f.w ≤ g.lo ∨ g.lo + g.w ≤ f.lo) (hg : g.lo + g.w ≤ 32) :
    (s.set f v).geti g = s.geti g := by simp only [State.geti, get_set_bits s v h hg]
theorem set_on_bits (s : State) {f g : Fd} {v : Nat} (h : f.lo + f.w ≤ g.lo ∨ g.lo + g.w ≤ f.lo) (hg : g.lo + g.w ≤ 32) :
    (s.set f v).on g = s.on g := by simp only [State.on, get_set_bits s v h hg]
theorem seti_get_bits (s : State) {f g : Fd} {v : Int} (h : f.lo + f.w ≤ g.lo ∨ g.lo + g.w ≤ f.lo) (hg : g.lo + g.w ≤ 32) :
    (s.seti f v).get g = s.get g := get_set_bits s _ h hg
theorem addSat_get_bits (s : State) {f g : Fd} {v : Nat} (h : f.lo + f.w ≤ g.lo ∨ g.lo + g.w ≤ f.lo) (hg : g.lo + g.w ≤ 32) :
    (s.addSat f v).get g = s.get g := get_set_bits s _ h hg
theorem addSat_on_bits (s : State) {f g : Fd} {v : Nat} (h : f.lo + f.w ≤ g.lo ∨ g.lo + g.w ≤ f.lo) (hg : g.lo + g.w ≤ 32) :
    (s.addSat f v).on g = s.on g := set_on_bits s h hg
theorem incMod_get_bits (s : State) {f g : Fd} (h : f.lo + f.w ≤ g.lo ∨ g.lo + g.w ≤ f.lo) (hg : g.lo + g.w ≤ 32) :
    (s.incMod f).get g = s.get g := get_set_bits s _ h hg
theorem set_on (s : State) {f : Fd} {v : Nat} (h : f.lo + f.w ≤ 32) : (s.set f v).on f = decide (v % 2 ^ f.w = 1) := by
  simp only [State.on, get_set s f v h]
theorem store_get (s : State) {a : Nat} {l : List (Nat × Nat × Acc)} {w : Word} {g : Fd} (h : g.a = a) :
    (s.store a l w).get g = fieldOf (mergeWord l (s.rd a) w false) g.lo g.w := by simp only [State.get, State.store, h, rd_wr_self]

/-! ## What an event and an access leave -/

theorem Quiet.now {s t : State} (h : Quiet s t) : t.now = s.now := by have e := congrArg State.now h.2.1; exact e
theorem Quiet.conv {s t : State} (h : Quiet s t) : t.conv = s.conv := by have e := congrArg State.conv h.2.1; exact e
theorem Quiet.rst {s t : State} (h : Quiet s t) : t.rst = s.rst := by have e := congrArg State.rst h.2.1; exact e
theorem Quiet.det {s t : State} (h : Quiet s t) : t.det = s.det := by have e := congrArg State.det h.2.1; exact e
theorem Quiet.frm {s t : State} (h : Quiet s t) : t.frm = s.frm := by have e := congrArg State.frm h.2.1; exact e
theorem Quiet.frameNo {s t : State} (h : Quiet s t) : t.frameNo = s.frameNo := by have e := congrArg State.frameNo h.2.1; exact e
theorem Quiet.host {s t : State} (h : Quiet s t) : t.host = s.host := by have e := congrArg State.host h.2.1; exact e
theorem Quiet.bclk {s t : State} (h : Quiet s t) : t.bclk = s.bclk := by have e := congrArg State.bclk h.2.1; exact e
theorem Quiet.rpt {s t : State} (h : Quiet s t) : t.rpt = s.rpt := by have e := congrArg State.rpt h.2.1; exact e
theorem Quiet.ceilRun {s t : State} (h : Quiet s t) : t.ceilRun = s.ceilRun := by have e := congrArg State.ceilRun h.2.1; exact e
theorem Quiet.ceilNear {s t : State} (h : Quiet s t) : t.ceilNear = s.ceilNear := by have e := congrArg State.ceilNear h.2.1; exact e
theorem Quiet.muteN {s t : State} (h : Quiet s t) : t.muteN = s.muteN := by have e := congrArg State.muteN h.2.1; exact e
theorem Quiet.muteStuck {s t : State} (h : Quiet s t) : t.muteStuck = s.muteStuck := by have e := congrArg State.muteStuck h.2.1; exact e
theorem Quiet.lst {s t : State} (h : Quiet s t) : t.lst = s.lst := by have e := congrArg State.lst h.2.1; exact e
theorem Quiet.seen {s t : State} (h : Quiet s t) : t.seen = s.seen := by have e := congrArg State.seen h.2.1; exact e
theorem Quiet.nfTurn {s t : State} (h : Quiet s t) : t.nfTurn = s.nfTurn := by have e := congrArg State.nfTurn h.2.1; exact e
theorem Quiet.nfDone {s t : State} (h : Quiet s t) : t.nfDone = s.nfDone := by have e := congrArg State.nfDone h.2.1; exact e
theorem Quiet.nf {s t : State} (h : Quiet s t) : t.nf = s.nf := by have e := congrArg State.nf h.2.1; exact e
theorem Quiet.bnd {s t : State} (h : Quiet s t) : t.bnd = s.bnd := by have e := congrArg State.bnd h.2.1; exact e
theorem Quiet.bsync {s t : State} (h : Quiet s t) : t.bsync = s.bsync := by have e := congrArg State.bsync h.2.1; exact e
theorem Quiet.bandTime {s t : State} (h : Quiet s t) : t.bandTime = s.bandTime := by have e := congrArg State.bandTime h.2.1; exact e
theorem Quiet.admSeq {s t : State} (h : Quiet s t) : t.admSeq = s.admSeq := by have e := congrArg State.admSeq h.2.1; exact e
theorem Quiet.meas {s t : State} (h : Quiet s t) : t.meas = s.meas := by have e := congrArg State.meas h.2.1; exact e
theorem Quiet.inq {s t : State} (h : Quiet s t) : t.inq = s.inq := by have e := congrArg State.inq h.2.1; exact e
theorem Quiet.carry {s t : State} (h : Quiet s t) : t.carry = s.carry := by have e := congrArg State.carry h.2.1; exact e
theorem Quiet.bndZero {s t : State} (h : Quiet s t) : t.bndZero = s.bndZero := by have e := congrArg State.bndZero h.2.1; exact e
theorem Quiet.fen {s t : State} (h : Quiet s t) : t.fen = s.fen := by have e := congrArg State.fen h.2.1; exact e
theorem Quiet.fenForced {s t : State} (h : Quiet s t) : t.fenForced = s.fenForced := by have e := congrArg State.fenForced h.2.1; exact e
theorem Quiet.coexHi {s t : State} (h : Quiet s t) : t.coexHi = s.coexHi := by have e := congrArg State.coexHi h.2.1; exact e
theorem Quiet.coexLo {s t : State} (h : Quiet s t) : t.coexLo = s.coexLo := by have e := congrArg State.coexLo h.2.1; exact e
theorem Quiet.spi {s t : State} (h : Quiet s t) : t.spi = s.spi := by have e := congrArg State.spi h.2.1; exact e
theorem Quiet.flash {s t : State} (h : Quiet s t) : t.flash = s.flash := by have e := congrArg State.flash h.2.1; exact e
theorem Quiet.norWave {s t : State} (h : Quiet s t) : t.norWave = s.norWave := by have e := congrArg State.norWave h.2.1; exact e
theorem Quiet.mem {s t : State} (h : Quiet s t) : t.mem = s.mem := by have e := congrArg State.mem h.2.1; exact e
theorem Quiet.ecc {s t : State} (h : Quiet s t) : t.ecc = s.ecc := by have e := congrArg State.ecc h.2.1; exact e
theorem Quiet.merge {s t : State} (h : Quiet s t) : t.merge = s.merge := by have e := congrArg State.merge h.2.1; exact e
theorem Quiet.scrubPos {s t : State} (h : Quiet s t) : t.scrubPos = s.scrubPos := by have e := congrArg State.scrubPos h.2.1; exact e
theorem Quiet.scrubLast {s t : State} (h : Quiet s t) : t.scrubLast = s.scrubLast := by have e := congrArg State.scrubLast h.2.1; exact e
theorem Quiet.scrubAgain {s t : State} (h : Quiet s t) : t.scrubAgain = s.scrubAgain := by have e := congrArg State.scrubAgain h.2.1; exact e
theorem Quiet.arb {s t : State} (h : Quiet s t) : t.arb = s.arb := by have e := congrArg State.arb h.2.1; exact e
theorem Quiet.sto {s t : State} (h : Quiet s t) : t.sto = s.sto := by have e := congrArg State.sto h.2.1; exact e
theorem Quiet.stop {s t : State} (h : Quiet s t) : t.stop = s.stop := by have e := congrArg State.stop h.2.1; exact e
theorem Quiet.wdLen {s t : State} (h : Quiet s t) : t.wdLen = s.wdLen := by have e := congrArg State.wdLen h.2.1; exact e
theorem Quiet.wdT {s t : State} (h : Quiet s t) : t.wdT = s.wdT := by have e := congrArg State.wdT h.2.1; exact e
theorem Quiet.lockAt {s t : State} (h : Quiet s t) : t.lockAt = s.lockAt := by have e := congrArg State.lockAt h.2.1; exact e
theorem Quiet.load {s t : State} (h : Quiet s t) : t.load = s.load := by have e := congrArg State.load h.2.1; exact e
theorem Quiet.stuck {s t : State} (h : Quiet s t) : t.stuck = s.stuck := by have e := congrArg State.stuck h.2.1; exact e
theorem Quiet.waits {s t : State} (h : Quiet s t) : t.waits = s.waits := by have e := congrArg State.waits h.2.1; exact e
theorem Quiet.hkd {s t : State} (h : Quiet s t) : t.hkd = s.hkd := by have e := congrArg State.hkd h.2.1; exact e
theorem Quiet.scanIdx {s t : State} (h : Quiet s t) : t.scanIdx = s.scanIdx := by have e := congrArg State.scanIdx h.2.1; exact e
theorem Quiet.trips {s t : State} (h : Quiet s t) : t.trips = s.trips := by have e := congrArg State.trips h.2.1; exact e
theorem Quiet.pwr {s t : State} (h : Quiet s t) : t.pwr = s.pwr := by have e := congrArg State.pwr h.2.1; exact e
theorem Quiet.attic {s t : State} (h : Quiet s t) : t.attic = s.attic := by have e := congrArg State.attic h.2.1; exact e
theorem Quiet.own {s t : State} (h : Quiet s t) : t.own = s.own := by have e := congrArg State.own h.2.1; exact e
theorem Quiet.snk {s t : State} (h : Quiet s t) : t.snk = s.snk := by have e := congrArg State.snk h.2.1; exact e
theorem Quiet.cel {s t : State} (h : Quiet s t) : t.cel = s.cel := by have e := congrArg State.cel h.2.1; exact e
theorem Quiet.bst {s t : State} (h : Quiet s t) : t.bst = s.bst := by have e := congrArg State.bst h.2.1; exact e
theorem Quiet.dma {s t : State} (h : Quiet s t) : t.dma = s.dma := by have e := congrArg State.dma h.2.1; exact e
theorem Quiet.pending {s t : State} (h : Quiet s t) : t.pending = s.pending := by have e := congrArg State.pending h.2.1; exact e
theorem Quiet.clk_refSel {s t : State} (h : Quiet s t) : t.clk.refSel = s.clk.refSel := by have e := congrArg (fun z : State => z.clk.refSel) h.2.1; exact e
theorem Quiet.clk_good {s t : State} (h : Quiet s t) : t.clk.good = s.clk.good := by have e := congrArg (fun z : State => z.clk.good) h.2.1; exact e
theorem Quiet.clk_sw {s t : State} (h : Quiet s t) : t.clk.sw = s.clk.sw := by have e := congrArg (fun z : State => z.clk.sw) h.2.1; exact e
theorem Quiet.clk_gateNmi {s t : State} (h : Quiet s t) : t.clk.gateNmi = s.clk.gateNmi := by have e := congrArg (fun z : State => z.clk.gateNmi) h.2.1; exact e
theorem Quiet.clk_cold {s t : State} (h : Quiet s t) : t.clk.cold = s.clk.cold := by have e := congrArg (fun z : State => z.clk.cold) h.2.1; exact e
theorem Quiet.clk_aon {s t : State} (h : Quiet s t) : t.clk.aon = s.clk.aon := by have e := congrArg (fun z : State => z.clk.aon) h.2.1; exact e
theorem Quiet.clk_stage {s t : State} (h : Quiet s t) : t.clk.stage = s.clk.stage := by have e := congrArg (fun z : State => z.clk.stage) h.2.1; exact e
theorem Quiet.clk_load {s t : State} (h : Quiet s t) : t.clk.load = s.clk.load := by have e := congrArg (fun z : State => z.clk.load) h.2.1; exact e
theorem Quiet.clk_discBad {s t : State} (h : Quiet s t) : t.clk.discBad = s.clk.discBad := by have e := congrArg (fun z : State => z.clk.discBad) h.2.1; exact e
theorem Quiet.clk_part {s t : State} (h : Quiet s t) : t.clk.part = s.clk.part := by have e := congrArg (fun z : State => z.clk.part) h.2.1; exact e
theorem Quiet.cores {s t : State} (h : Quiet s t) : t.cores.map Cpu.bare = s.cores.map Cpu.bare := by
  have e := congrArg State.cores h.2.1; exact e

theorem Quiet.cpu {s t : State} (h : Quiet s t) (c : Nat) : (t.cpu c).bare = (s.cpu c).bare := by
  have e := h.cores
  have l : t.cores.length = s.cores.length := by simpa using congrArg List.length e
  have g := congrArg (fun z => z[c]?) e
  simp only [List.getElem?_map] at g
  simp only [State.cpu, nth, List.getD_eq_getElem?_getD]
  by_cases hc : c < s.cores.length
  · rw [List.getElem?_eq_getElem hc, List.getElem?_eq_getElem (l ▸ hc)] at g ⊢
    simpa using g
  · rw [List.getElem?_eq_none (by omega), List.getElem?_eq_none (by omega)]

theorem Quiet.cpu_w {s t : State} (h : Quiet s t) (c : Nat) : (t.cpu c).w = (s.cpu c).w := by have e := congrArg Cpu.w (h.cpu c); exact e
theorem Quiet.cpu_v {s t : State} (h : Quiet s t) (c : Nat) : (t.cpu c).v = (s.cpu c).v := by have e := congrArg Cpu.v (h.cpu c); exact e
theorem Quiet.cpu_pc {s t : State} (h : Quiet s t) (c : Nat) : (t.cpu c).pc = (s.cpu c).pc := by have e := congrArg Cpu.pc (h.cpu c); exact e
theorem Quiet.cpu_lvl {s t : State} (h : Quiet s t) (c : Nat) : (t.cpu c).lvl = (s.cpu c).lvl := by have e := congrArg Cpu.lvl (h.cpu c); exact e
theorem Quiet.cpu_plvl {s t : State} (h : Quiet s t) (c : Nat) : (t.cpu c).plvl = (s.cpu c).plvl := by have e := congrArg Cpu.plvl (h.cpu c); exact e
theorem Quiet.cpu_ie {s t : State} (h : Quiet s t) (c : Nat) : (t.cpu c).ie = (s.cpu c).ie := by have e := congrArg Cpu.ie (h.cpu c); exact e
theorem Quiet.cpu_pie {s t : State} (h : Quiet s t) (c : Nat) : (t.cpu c).pie = (s.cpu c).pie := by have e := congrArg Cpu.pie (h.cpu c); exact e
theorem Quiet.cpu_sat {s t : State} (h : Quiet s t) (c : Nat) : (t.cpu c).sat = (s.cpu c).sat := by have e := congrArg Cpu.sat (h.cpu c); exact e
theorem Quiet.cpu_dz {s t : State} (h : Quiet s t) (c : Nat) : (t.cpu c).dz = (s.cpu c).dz := by have e := congrArg Cpu.dz (h.cpu c); exact e
theorem Quiet.cpu_tvec {s t : State} (h : Quiet s t) (c : Nat) : (t.cpu c).tvec = (s.cpu c).tvec := by have e := congrArg Cpu.tvec (h.cpu c); exact e
theorem Quiet.cpu_epc {s t : State} (h : Quiet s t) (c : Nat) : (t.cpu c).epc = (s.cpu c).epc := by have e := congrArg Cpu.epc (h.cpu c); exact e
theorem Quiet.cpu_cause {s t : State} (h : Quiet s t) (c : Nat) : (t.cpu c).cause = (s.cpu c).cause := by have e := congrArg Cpu.cause (h.cpu c); exact e
theorem Quiet.cpu_tval {s t : State} (h : Quiet s t) (c : Nat) : (t.cpu c).tval = (s.cpu c).tval := by have e := congrArg Cpu.tval (h.cpu c); exact e
theorem Quiet.cpu_scratch {s t : State} (h : Quiet s t) (c : Nat) : (t.cpu c).scratch = (s.cpu c).scratch := by have e := congrArg Cpu.scratch (h.cpu c); exact e
theorem Quiet.cpu_uwinLo {s t : State} (h : Quiet s t) (c : Nat) : (t.cpu c).uwinLo = (s.cpu c).uwinLo := by have e := congrArg Cpu.uwinLo (h.cpu c); exact e
theorem Quiet.cpu_uwinHi {s t : State} (h : Quiet s t) (c : Nat) : (t.cpu c).uwinHi = (s.cpu c).uwinHi := by have e := congrArg Cpu.uwinHi (h.cpu c); exact e
theorem Quiet.cpu_kplvl {s t : State} (h : Quiet s t) (c : Nat) : (t.cpu c).kplvl = (s.cpu c).kplvl := by have e := congrArg Cpu.kplvl (h.cpu c); exact e
theorem Quiet.cpu_kpie {s t : State} (h : Quiet s t) (c : Nat) : (t.cpu c).kpie = (s.cpu c).kpie := by have e := congrArg Cpu.kpie (h.cpu c); exact e
theorem Quiet.cpu_nmiAct {s t : State} (h : Quiet s t) (c : Nat) : (t.cpu c).nmiAct = (s.cpu c).nmiAct := by have e := congrArg Cpu.nmiAct (h.cpu c); exact e
theorem Quiet.cpu_ktvec {s t : State} (h : Quiet s t) (c : Nat) : (t.cpu c).ktvec = (s.cpu c).ktvec := by have e := congrArg Cpu.ktvec (h.cpu c); exact e
theorem Quiet.cpu_kepc {s t : State} (h : Quiet s t) (c : Nat) : (t.cpu c).kepc = (s.cpu c).kepc := by have e := congrArg Cpu.kepc (h.cpu c); exact e
theorem Quiet.cpu_kcause {s t : State} (h : Quiet s t) (c : Nat) : (t.cpu c).kcause = (s.cpu c).kcause := by have e := congrArg Cpu.kcause (h.cpu c); exact e
theorem Quiet.cpu_ktval {s t : State} (h : Quiet s t) (c : Nat) : (t.cpu c).ktval = (s.cpu c).ktval := by have e := congrArg Cpu.ktval (h.cpu c); exact e
theorem Quiet.cpu_kscratch {s t : State} (h : Quiet s t) (c : Nat) : (t.cpu c).kscratch = (s.cpu c).kscratch := by have e := congrArg Cpu.kscratch (h.cpu c); exact e
theorem Quiet.cpu_cycle {s t : State} (h : Quiet s t) (c : Nat) : (t.cpu c).cycle = (s.cpu c).cycle := by have e := congrArg Cpu.cycle (h.cpu c); exact e
theorem Quiet.cpu_cycleH {s t : State} (h : Quiet s t) (c : Nat) : (t.cpu c).cycleH = (s.cpu c).cycleH := by have e := congrArg Cpu.cycleH (h.cpu c); exact e
theorem Quiet.cpu_timeH {s t : State} (h : Quiet s t) (c : Nat) : (t.cpu c).timeH = (s.cpu c).timeH := by have e := congrArg Cpu.timeH (h.cpu c); exact e
theorem Quiet.cpu_cntH {s t : State} (h : Quiet s t) (c : Nat) : (t.cpu c).cntH = (s.cpu c).cntH := by have e := congrArg Cpu.cntH (h.cpu c); exact e
theorem Quiet.cpu_cntUen {s t : State} (h : Quiet s t) (c : Nat) : (t.cpu c).cntUen = (s.cpu c).cntUen := by have e := congrArg Cpu.cntUen (h.cpu c); exact e
theorem Quiet.cpu_swaps {s t : State} (h : Quiet s t) (c : Nat) : (t.cpu c).swaps = (s.cpu c).swaps := by have e := congrArg Cpu.swaps (h.cpu c); exact e
theorem Quiet.cpu_wait {s t : State} (h : Quiet s t) (c : Nat) : (t.cpu c).wait = (s.cpu c).wait := by have e := congrArg Cpu.wait (h.cpu c); exact e
theorem Quiet.cpu_posted {s t : State} (h : Quiet s t) (c : Nat) : (t.cpu c).posted = (s.cpu c).posted := by have e := congrArg Cpu.posted (h.cpu c); exact e
theorem Quiet.cpu_haltReq {s t : State} (h : Quiet s t) (c : Nat) : (t.cpu c).haltReq = (s.cpu c).haltReq := by have e := congrArg Cpu.haltReq (h.cpu c); exact e
theorem Quiet.cpu_nmiHold {s t : State} (h : Quiet s t) (c : Nat) : (t.cpu c).nmiHold = (s.cpu c).nmiHold := by have e := congrArg Cpu.nmiHold (h.cpu c); exact e
theorem Quiet.cpu_entryA {s t : State} (h : Quiet s t) (c : Nat) : (t.cpu c).entryA = (s.cpu c).entryA := by have e := congrArg Cpu.entryA (h.cpu c); exact e
theorem Quiet.cpu_entryB {s t : State} (h : Quiet s t) (c : Nat) : (t.cpu c).entryB = (s.cpu c).entryB := by have e := congrArg Cpu.entryB (h.cpu c); exact e
theorem Quiet.cpu_verA {s t : State} (h : Quiet s t) (c : Nat) : (t.cpu c).verA = (s.cpu c).verA := by have e := congrArg Cpu.verA (h.cpu c); exact e
theorem Quiet.cpu_verB {s t : State} (h : Quiet s t) (c : Nat) : (t.cpu c).verB = (s.cpu c).verB := by have e := congrArg Cpu.verB (h.cpu c); exact e

@[simp] theorem raise_now (s : State) (e : Nat) : (s.raise e).now = s.now := (quiet_raise s e).now
@[simp] theorem raise_conv (s : State) (e : Nat) : (s.raise e).conv = s.conv := (quiet_raise s e).conv
@[simp] theorem raise_rst (s : State) (e : Nat) : (s.raise e).rst = s.rst := (quiet_raise s e).rst
@[simp] theorem raise_det (s : State) (e : Nat) : (s.raise e).det = s.det := (quiet_raise s e).det
@[simp] theorem raise_frm (s : State) (e : Nat) : (s.raise e).frm = s.frm := (quiet_raise s e).frm
@[simp] theorem raise_frameNo (s : State) (e : Nat) : (s.raise e).frameNo = s.frameNo := (quiet_raise s e).frameNo
@[simp] theorem raise_host (s : State) (e : Nat) : (s.raise e).host = s.host := (quiet_raise s e).host
@[simp] theorem raise_bclk (s : State) (e : Nat) : (s.raise e).bclk = s.bclk := (quiet_raise s e).bclk
@[simp] theorem raise_rpt (s : State) (e : Nat) : (s.raise e).rpt = s.rpt := (quiet_raise s e).rpt
@[simp] theorem raise_ceilRun (s : State) (e : Nat) : (s.raise e).ceilRun = s.ceilRun := (quiet_raise s e).ceilRun
@[simp] theorem raise_ceilNear (s : State) (e : Nat) : (s.raise e).ceilNear = s.ceilNear := (quiet_raise s e).ceilNear
@[simp] theorem raise_muteN (s : State) (e : Nat) : (s.raise e).muteN = s.muteN := (quiet_raise s e).muteN
@[simp] theorem raise_muteStuck (s : State) (e : Nat) : (s.raise e).muteStuck = s.muteStuck := (quiet_raise s e).muteStuck
@[simp] theorem raise_lst (s : State) (e : Nat) : (s.raise e).lst = s.lst := (quiet_raise s e).lst
@[simp] theorem raise_seen (s : State) (e : Nat) : (s.raise e).seen = s.seen := (quiet_raise s e).seen
@[simp] theorem raise_nfTurn (s : State) (e : Nat) : (s.raise e).nfTurn = s.nfTurn := (quiet_raise s e).nfTurn
@[simp] theorem raise_nfDone (s : State) (e : Nat) : (s.raise e).nfDone = s.nfDone := (quiet_raise s e).nfDone
@[simp] theorem raise_nf (s : State) (e : Nat) : (s.raise e).nf = s.nf := (quiet_raise s e).nf
@[simp] theorem raise_bnd (s : State) (e : Nat) : (s.raise e).bnd = s.bnd := (quiet_raise s e).bnd
@[simp] theorem raise_bsync (s : State) (e : Nat) : (s.raise e).bsync = s.bsync := (quiet_raise s e).bsync
@[simp] theorem raise_bandTime (s : State) (e : Nat) : (s.raise e).bandTime = s.bandTime := (quiet_raise s e).bandTime
@[simp] theorem raise_admSeq (s : State) (e : Nat) : (s.raise e).admSeq = s.admSeq := (quiet_raise s e).admSeq
@[simp] theorem raise_meas (s : State) (e : Nat) : (s.raise e).meas = s.meas := (quiet_raise s e).meas
@[simp] theorem raise_inq (s : State) (e : Nat) : (s.raise e).inq = s.inq := (quiet_raise s e).inq
@[simp] theorem raise_carry (s : State) (e : Nat) : (s.raise e).carry = s.carry := (quiet_raise s e).carry
@[simp] theorem raise_bndZero (s : State) (e : Nat) : (s.raise e).bndZero = s.bndZero := (quiet_raise s e).bndZero
@[simp] theorem raise_fen (s : State) (e : Nat) : (s.raise e).fen = s.fen := (quiet_raise s e).fen
@[simp] theorem raise_fenForced (s : State) (e : Nat) : (s.raise e).fenForced = s.fenForced := (quiet_raise s e).fenForced
@[simp] theorem raise_coexHi (s : State) (e : Nat) : (s.raise e).coexHi = s.coexHi := (quiet_raise s e).coexHi
@[simp] theorem raise_coexLo (s : State) (e : Nat) : (s.raise e).coexLo = s.coexLo := (quiet_raise s e).coexLo
@[simp] theorem raise_spi (s : State) (e : Nat) : (s.raise e).spi = s.spi := (quiet_raise s e).spi
@[simp] theorem raise_flash (s : State) (e : Nat) : (s.raise e).flash = s.flash := (quiet_raise s e).flash
@[simp] theorem raise_norWave (s : State) (e : Nat) : (s.raise e).norWave = s.norWave := (quiet_raise s e).norWave
@[simp] theorem raise_mem (s : State) (e : Nat) : (s.raise e).mem = s.mem := (quiet_raise s e).mem
@[simp] theorem raise_ecc (s : State) (e : Nat) : (s.raise e).ecc = s.ecc := (quiet_raise s e).ecc
@[simp] theorem raise_merge (s : State) (e : Nat) : (s.raise e).merge = s.merge := (quiet_raise s e).merge
@[simp] theorem raise_scrubPos (s : State) (e : Nat) : (s.raise e).scrubPos = s.scrubPos := (quiet_raise s e).scrubPos
@[simp] theorem raise_scrubLast (s : State) (e : Nat) : (s.raise e).scrubLast = s.scrubLast := (quiet_raise s e).scrubLast
@[simp] theorem raise_scrubAgain (s : State) (e : Nat) : (s.raise e).scrubAgain = s.scrubAgain := (quiet_raise s e).scrubAgain
@[simp] theorem raise_arb (s : State) (e : Nat) : (s.raise e).arb = s.arb := (quiet_raise s e).arb
@[simp] theorem raise_sto (s : State) (e : Nat) : (s.raise e).sto = s.sto := (quiet_raise s e).sto
@[simp] theorem raise_stop (s : State) (e : Nat) : (s.raise e).stop = s.stop := (quiet_raise s e).stop
@[simp] theorem raise_wdLen (s : State) (e : Nat) : (s.raise e).wdLen = s.wdLen := (quiet_raise s e).wdLen
@[simp] theorem raise_wdT (s : State) (e : Nat) : (s.raise e).wdT = s.wdT := (quiet_raise s e).wdT
@[simp] theorem raise_lockAt (s : State) (e : Nat) : (s.raise e).lockAt = s.lockAt := (quiet_raise s e).lockAt
@[simp] theorem raise_load (s : State) (e : Nat) : (s.raise e).load = s.load := (quiet_raise s e).load
@[simp] theorem raise_stuck (s : State) (e : Nat) : (s.raise e).stuck = s.stuck := (quiet_raise s e).stuck
@[simp] theorem raise_waits (s : State) (e : Nat) : (s.raise e).waits = s.waits := (quiet_raise s e).waits
@[simp] theorem raise_hkd (s : State) (e : Nat) : (s.raise e).hkd = s.hkd := (quiet_raise s e).hkd
@[simp] theorem raise_scanIdx (s : State) (e : Nat) : (s.raise e).scanIdx = s.scanIdx := (quiet_raise s e).scanIdx
@[simp] theorem raise_trips (s : State) (e : Nat) : (s.raise e).trips = s.trips := (quiet_raise s e).trips
@[simp] theorem raise_pwr (s : State) (e : Nat) : (s.raise e).pwr = s.pwr := (quiet_raise s e).pwr
@[simp] theorem raise_attic (s : State) (e : Nat) : (s.raise e).attic = s.attic := (quiet_raise s e).attic
@[simp] theorem raise_own (s : State) (e : Nat) : (s.raise e).own = s.own := (quiet_raise s e).own
@[simp] theorem raise_snk (s : State) (e : Nat) : (s.raise e).snk = s.snk := (quiet_raise s e).snk
@[simp] theorem raise_cel (s : State) (e : Nat) : (s.raise e).cel = s.cel := (quiet_raise s e).cel
@[simp] theorem raise_bst (s : State) (e : Nat) : (s.raise e).bst = s.bst := (quiet_raise s e).bst
@[simp] theorem raise_dma (s : State) (e : Nat) : (s.raise e).dma = s.dma := (quiet_raise s e).dma
@[simp] theorem raise_pending (s : State) (e : Nat) : (s.raise e).pending = s.pending := (quiet_raise s e).pending
@[simp] theorem raise_clk_refSel (s : State) (e : Nat) : (s.raise e).clk.refSel = s.clk.refSel := (quiet_raise s e).clk_refSel
@[simp] theorem raise_clk_good (s : State) (e : Nat) : (s.raise e).clk.good = s.clk.good := (quiet_raise s e).clk_good
@[simp] theorem raise_clk_sw (s : State) (e : Nat) : (s.raise e).clk.sw = s.clk.sw := (quiet_raise s e).clk_sw
@[simp] theorem raise_clk_gateNmi (s : State) (e : Nat) : (s.raise e).clk.gateNmi = s.clk.gateNmi := (quiet_raise s e).clk_gateNmi
@[simp] theorem raise_clk_cold (s : State) (e : Nat) : (s.raise e).clk.cold = s.clk.cold := (quiet_raise s e).clk_cold
@[simp] theorem raise_clk_aon (s : State) (e : Nat) : (s.raise e).clk.aon = s.clk.aon := (quiet_raise s e).clk_aon
@[simp] theorem raise_clk_stage (s : State) (e : Nat) : (s.raise e).clk.stage = s.clk.stage := (quiet_raise s e).clk_stage
@[simp] theorem raise_clk_load (s : State) (e : Nat) : (s.raise e).clk.load = s.clk.load := (quiet_raise s e).clk_load
@[simp] theorem raise_clk_discBad (s : State) (e : Nat) : (s.raise e).clk.discBad = s.clk.discBad := (quiet_raise s e).clk_discBad
@[simp] theorem raise_clk_part (s : State) (e : Nat) : (s.raise e).clk.part = s.clk.part := (quiet_raise s e).clk_part
@[simp] theorem raise_cores (s : State) (e : Nat) : (s.raise e).cores.map Cpu.bare = s.cores.map Cpu.bare := (quiet_raise s e).cores
@[simp] theorem raise_cpu_w (s : State) (e : Nat) (c : Nat) : ((s.raise e).cpu c).w = (s.cpu c).w := (quiet_raise s e).cpu_w c
@[simp] theorem raise_cpu_v (s : State) (e : Nat) (c : Nat) : ((s.raise e).cpu c).v = (s.cpu c).v := (quiet_raise s e).cpu_v c
@[simp] theorem raise_cpu_pc (s : State) (e : Nat) (c : Nat) : ((s.raise e).cpu c).pc = (s.cpu c).pc := (quiet_raise s e).cpu_pc c
@[simp] theorem raise_cpu_lvl (s : State) (e : Nat) (c : Nat) : ((s.raise e).cpu c).lvl = (s.cpu c).lvl := (quiet_raise s e).cpu_lvl c
@[simp] theorem raise_cpu_plvl (s : State) (e : Nat) (c : Nat) : ((s.raise e).cpu c).plvl = (s.cpu c).plvl := (quiet_raise s e).cpu_plvl c
@[simp] theorem raise_cpu_ie (s : State) (e : Nat) (c : Nat) : ((s.raise e).cpu c).ie = (s.cpu c).ie := (quiet_raise s e).cpu_ie c
@[simp] theorem raise_cpu_pie (s : State) (e : Nat) (c : Nat) : ((s.raise e).cpu c).pie = (s.cpu c).pie := (quiet_raise s e).cpu_pie c
@[simp] theorem raise_cpu_sat (s : State) (e : Nat) (c : Nat) : ((s.raise e).cpu c).sat = (s.cpu c).sat := (quiet_raise s e).cpu_sat c
@[simp] theorem raise_cpu_dz (s : State) (e : Nat) (c : Nat) : ((s.raise e).cpu c).dz = (s.cpu c).dz := (quiet_raise s e).cpu_dz c
@[simp] theorem raise_cpu_tvec (s : State) (e : Nat) (c : Nat) : ((s.raise e).cpu c).tvec = (s.cpu c).tvec := (quiet_raise s e).cpu_tvec c
@[simp] theorem raise_cpu_epc (s : State) (e : Nat) (c : Nat) : ((s.raise e).cpu c).epc = (s.cpu c).epc := (quiet_raise s e).cpu_epc c
@[simp] theorem raise_cpu_cause (s : State) (e : Nat) (c : Nat) : ((s.raise e).cpu c).cause = (s.cpu c).cause := (quiet_raise s e).cpu_cause c
@[simp] theorem raise_cpu_tval (s : State) (e : Nat) (c : Nat) : ((s.raise e).cpu c).tval = (s.cpu c).tval := (quiet_raise s e).cpu_tval c
@[simp] theorem raise_cpu_scratch (s : State) (e : Nat) (c : Nat) : ((s.raise e).cpu c).scratch = (s.cpu c).scratch := (quiet_raise s e).cpu_scratch c
@[simp] theorem raise_cpu_uwinLo (s : State) (e : Nat) (c : Nat) : ((s.raise e).cpu c).uwinLo = (s.cpu c).uwinLo := (quiet_raise s e).cpu_uwinLo c
@[simp] theorem raise_cpu_uwinHi (s : State) (e : Nat) (c : Nat) : ((s.raise e).cpu c).uwinHi = (s.cpu c).uwinHi := (quiet_raise s e).cpu_uwinHi c
@[simp] theorem raise_cpu_kplvl (s : State) (e : Nat) (c : Nat) : ((s.raise e).cpu c).kplvl = (s.cpu c).kplvl := (quiet_raise s e).cpu_kplvl c
@[simp] theorem raise_cpu_kpie (s : State) (e : Nat) (c : Nat) : ((s.raise e).cpu c).kpie = (s.cpu c).kpie := (quiet_raise s e).cpu_kpie c
@[simp] theorem raise_cpu_nmiAct (s : State) (e : Nat) (c : Nat) : ((s.raise e).cpu c).nmiAct = (s.cpu c).nmiAct := (quiet_raise s e).cpu_nmiAct c
@[simp] theorem raise_cpu_ktvec (s : State) (e : Nat) (c : Nat) : ((s.raise e).cpu c).ktvec = (s.cpu c).ktvec := (quiet_raise s e).cpu_ktvec c
@[simp] theorem raise_cpu_kepc (s : State) (e : Nat) (c : Nat) : ((s.raise e).cpu c).kepc = (s.cpu c).kepc := (quiet_raise s e).cpu_kepc c
@[simp] theorem raise_cpu_kcause (s : State) (e : Nat) (c : Nat) : ((s.raise e).cpu c).kcause = (s.cpu c).kcause := (quiet_raise s e).cpu_kcause c
@[simp] theorem raise_cpu_ktval (s : State) (e : Nat) (c : Nat) : ((s.raise e).cpu c).ktval = (s.cpu c).ktval := (quiet_raise s e).cpu_ktval c
@[simp] theorem raise_cpu_kscratch (s : State) (e : Nat) (c : Nat) : ((s.raise e).cpu c).kscratch = (s.cpu c).kscratch := (quiet_raise s e).cpu_kscratch c
@[simp] theorem raise_cpu_cycle (s : State) (e : Nat) (c : Nat) : ((s.raise e).cpu c).cycle = (s.cpu c).cycle := (quiet_raise s e).cpu_cycle c
@[simp] theorem raise_cpu_cycleH (s : State) (e : Nat) (c : Nat) : ((s.raise e).cpu c).cycleH = (s.cpu c).cycleH := (quiet_raise s e).cpu_cycleH c
@[simp] theorem raise_cpu_timeH (s : State) (e : Nat) (c : Nat) : ((s.raise e).cpu c).timeH = (s.cpu c).timeH := (quiet_raise s e).cpu_timeH c
@[simp] theorem raise_cpu_cntH (s : State) (e : Nat) (c : Nat) : ((s.raise e).cpu c).cntH = (s.cpu c).cntH := (quiet_raise s e).cpu_cntH c
@[simp] theorem raise_cpu_cntUen (s : State) (e : Nat) (c : Nat) : ((s.raise e).cpu c).cntUen = (s.cpu c).cntUen := (quiet_raise s e).cpu_cntUen c
@[simp] theorem raise_cpu_swaps (s : State) (e : Nat) (c : Nat) : ((s.raise e).cpu c).swaps = (s.cpu c).swaps := (quiet_raise s e).cpu_swaps c
@[simp] theorem raise_cpu_wait (s : State) (e : Nat) (c : Nat) : ((s.raise e).cpu c).wait = (s.cpu c).wait := (quiet_raise s e).cpu_wait c
@[simp] theorem raise_cpu_posted (s : State) (e : Nat) (c : Nat) : ((s.raise e).cpu c).posted = (s.cpu c).posted := (quiet_raise s e).cpu_posted c
@[simp] theorem raise_cpu_haltReq (s : State) (e : Nat) (c : Nat) : ((s.raise e).cpu c).haltReq = (s.cpu c).haltReq := (quiet_raise s e).cpu_haltReq c
@[simp] theorem raise_cpu_nmiHold (s : State) (e : Nat) (c : Nat) : ((s.raise e).cpu c).nmiHold = (s.cpu c).nmiHold := (quiet_raise s e).cpu_nmiHold c
@[simp] theorem raise_cpu_entryA (s : State) (e : Nat) (c : Nat) : ((s.raise e).cpu c).entryA = (s.cpu c).entryA := (quiet_raise s e).cpu_entryA c
@[simp] theorem raise_cpu_entryB (s : State) (e : Nat) (c : Nat) : ((s.raise e).cpu c).entryB = (s.cpu c).entryB := (quiet_raise s e).cpu_entryB c
@[simp] theorem raise_cpu_verA (s : State) (e : Nat) (c : Nat) : ((s.raise e).cpu c).verA = (s.cpu c).verA := (quiet_raise s e).cpu_verA c
@[simp] theorem raise_cpu_verB (s : State) (e : Nat) (c : Nat) : ((s.raise e).cpu c).verB = (s.cpu c).verB := (quiet_raise s e).cpu_verB c

@[simp] theorem request_now (s : State) (q : Rq) (a : Nat) : (request q a s).now = s.now := (quiet_request q a s).now
@[simp] theorem request_conv (s : State) (q : Rq) (a : Nat) : (request q a s).conv = s.conv := (quiet_request q a s).conv
@[simp] theorem request_rst (s : State) (q : Rq) (a : Nat) : (request q a s).rst = s.rst := (quiet_request q a s).rst
@[simp] theorem request_det (s : State) (q : Rq) (a : Nat) : (request q a s).det = s.det := (quiet_request q a s).det
@[simp] theorem request_frm (s : State) (q : Rq) (a : Nat) : (request q a s).frm = s.frm := (quiet_request q a s).frm
@[simp] theorem request_frameNo (s : State) (q : Rq) (a : Nat) : (request q a s).frameNo = s.frameNo := (quiet_request q a s).frameNo
@[simp] theorem request_host (s : State) (q : Rq) (a : Nat) : (request q a s).host = s.host := (quiet_request q a s).host
@[simp] theorem request_bclk (s : State) (q : Rq) (a : Nat) : (request q a s).bclk = s.bclk := (quiet_request q a s).bclk
@[simp] theorem request_rpt (s : State) (q : Rq) (a : Nat) : (request q a s).rpt = s.rpt := (quiet_request q a s).rpt
@[simp] theorem request_ceilRun (s : State) (q : Rq) (a : Nat) : (request q a s).ceilRun = s.ceilRun := (quiet_request q a s).ceilRun
@[simp] theorem request_ceilNear (s : State) (q : Rq) (a : Nat) : (request q a s).ceilNear = s.ceilNear := (quiet_request q a s).ceilNear
@[simp] theorem request_muteN (s : State) (q : Rq) (a : Nat) : (request q a s).muteN = s.muteN := (quiet_request q a s).muteN
@[simp] theorem request_muteStuck (s : State) (q : Rq) (a : Nat) : (request q a s).muteStuck = s.muteStuck := (quiet_request q a s).muteStuck
@[simp] theorem request_lst (s : State) (q : Rq) (a : Nat) : (request q a s).lst = s.lst := (quiet_request q a s).lst
@[simp] theorem request_seen (s : State) (q : Rq) (a : Nat) : (request q a s).seen = s.seen := (quiet_request q a s).seen
@[simp] theorem request_nfTurn (s : State) (q : Rq) (a : Nat) : (request q a s).nfTurn = s.nfTurn := (quiet_request q a s).nfTurn
@[simp] theorem request_nfDone (s : State) (q : Rq) (a : Nat) : (request q a s).nfDone = s.nfDone := (quiet_request q a s).nfDone
@[simp] theorem request_nf (s : State) (q : Rq) (a : Nat) : (request q a s).nf = s.nf := (quiet_request q a s).nf
@[simp] theorem request_bnd (s : State) (q : Rq) (a : Nat) : (request q a s).bnd = s.bnd := (quiet_request q a s).bnd
@[simp] theorem request_bsync (s : State) (q : Rq) (a : Nat) : (request q a s).bsync = s.bsync := (quiet_request q a s).bsync
@[simp] theorem request_bandTime (s : State) (q : Rq) (a : Nat) : (request q a s).bandTime = s.bandTime := (quiet_request q a s).bandTime
@[simp] theorem request_admSeq (s : State) (q : Rq) (a : Nat) : (request q a s).admSeq = s.admSeq := (quiet_request q a s).admSeq
@[simp] theorem request_meas (s : State) (q : Rq) (a : Nat) : (request q a s).meas = s.meas := (quiet_request q a s).meas
@[simp] theorem request_inq (s : State) (q : Rq) (a : Nat) : (request q a s).inq = s.inq := (quiet_request q a s).inq
@[simp] theorem request_carry (s : State) (q : Rq) (a : Nat) : (request q a s).carry = s.carry := (quiet_request q a s).carry
@[simp] theorem request_bndZero (s : State) (q : Rq) (a : Nat) : (request q a s).bndZero = s.bndZero := (quiet_request q a s).bndZero
@[simp] theorem request_fen (s : State) (q : Rq) (a : Nat) : (request q a s).fen = s.fen := (quiet_request q a s).fen
@[simp] theorem request_fenForced (s : State) (q : Rq) (a : Nat) : (request q a s).fenForced = s.fenForced := (quiet_request q a s).fenForced
@[simp] theorem request_coexHi (s : State) (q : Rq) (a : Nat) : (request q a s).coexHi = s.coexHi := (quiet_request q a s).coexHi
@[simp] theorem request_coexLo (s : State) (q : Rq) (a : Nat) : (request q a s).coexLo = s.coexLo := (quiet_request q a s).coexLo
@[simp] theorem request_spi (s : State) (q : Rq) (a : Nat) : (request q a s).spi = s.spi := (quiet_request q a s).spi
@[simp] theorem request_flash (s : State) (q : Rq) (a : Nat) : (request q a s).flash = s.flash := (quiet_request q a s).flash
@[simp] theorem request_norWave (s : State) (q : Rq) (a : Nat) : (request q a s).norWave = s.norWave := (quiet_request q a s).norWave
@[simp] theorem request_mem (s : State) (q : Rq) (a : Nat) : (request q a s).mem = s.mem := (quiet_request q a s).mem
@[simp] theorem request_ecc (s : State) (q : Rq) (a : Nat) : (request q a s).ecc = s.ecc := (quiet_request q a s).ecc
@[simp] theorem request_merge (s : State) (q : Rq) (a : Nat) : (request q a s).merge = s.merge := (quiet_request q a s).merge
@[simp] theorem request_scrubPos (s : State) (q : Rq) (a : Nat) : (request q a s).scrubPos = s.scrubPos := (quiet_request q a s).scrubPos
@[simp] theorem request_scrubLast (s : State) (q : Rq) (a : Nat) : (request q a s).scrubLast = s.scrubLast := (quiet_request q a s).scrubLast
@[simp] theorem request_scrubAgain (s : State) (q : Rq) (a : Nat) : (request q a s).scrubAgain = s.scrubAgain := (quiet_request q a s).scrubAgain
@[simp] theorem request_arb (s : State) (q : Rq) (a : Nat) : (request q a s).arb = s.arb := (quiet_request q a s).arb
@[simp] theorem request_sto (s : State) (q : Rq) (a : Nat) : (request q a s).sto = s.sto := (quiet_request q a s).sto
@[simp] theorem request_stop (s : State) (q : Rq) (a : Nat) : (request q a s).stop = s.stop := (quiet_request q a s).stop
@[simp] theorem request_wdLen (s : State) (q : Rq) (a : Nat) : (request q a s).wdLen = s.wdLen := (quiet_request q a s).wdLen
@[simp] theorem request_wdT (s : State) (q : Rq) (a : Nat) : (request q a s).wdT = s.wdT := (quiet_request q a s).wdT
@[simp] theorem request_lockAt (s : State) (q : Rq) (a : Nat) : (request q a s).lockAt = s.lockAt := (quiet_request q a s).lockAt
@[simp] theorem request_load (s : State) (q : Rq) (a : Nat) : (request q a s).load = s.load := (quiet_request q a s).load
@[simp] theorem request_stuck (s : State) (q : Rq) (a : Nat) : (request q a s).stuck = s.stuck := (quiet_request q a s).stuck
@[simp] theorem request_waits (s : State) (q : Rq) (a : Nat) : (request q a s).waits = s.waits := (quiet_request q a s).waits
@[simp] theorem request_hkd (s : State) (q : Rq) (a : Nat) : (request q a s).hkd = s.hkd := (quiet_request q a s).hkd
@[simp] theorem request_scanIdx (s : State) (q : Rq) (a : Nat) : (request q a s).scanIdx = s.scanIdx := (quiet_request q a s).scanIdx
@[simp] theorem request_trips (s : State) (q : Rq) (a : Nat) : (request q a s).trips = s.trips := (quiet_request q a s).trips
@[simp] theorem request_pwr (s : State) (q : Rq) (a : Nat) : (request q a s).pwr = s.pwr := (quiet_request q a s).pwr
@[simp] theorem request_attic (s : State) (q : Rq) (a : Nat) : (request q a s).attic = s.attic := (quiet_request q a s).attic
@[simp] theorem request_own (s : State) (q : Rq) (a : Nat) : (request q a s).own = s.own := (quiet_request q a s).own
@[simp] theorem request_snk (s : State) (q : Rq) (a : Nat) : (request q a s).snk = s.snk := (quiet_request q a s).snk
@[simp] theorem request_cel (s : State) (q : Rq) (a : Nat) : (request q a s).cel = s.cel := (quiet_request q a s).cel
@[simp] theorem request_bst (s : State) (q : Rq) (a : Nat) : (request q a s).bst = s.bst := (quiet_request q a s).bst
@[simp] theorem request_dma (s : State) (q : Rq) (a : Nat) : (request q a s).dma = s.dma := (quiet_request q a s).dma
@[simp] theorem request_pending (s : State) (q : Rq) (a : Nat) : (request q a s).pending = s.pending := (quiet_request q a s).pending
@[simp] theorem request_clk_refSel (s : State) (q : Rq) (a : Nat) : (request q a s).clk.refSel = s.clk.refSel := (quiet_request q a s).clk_refSel
@[simp] theorem request_clk_good (s : State) (q : Rq) (a : Nat) : (request q a s).clk.good = s.clk.good := (quiet_request q a s).clk_good
@[simp] theorem request_clk_sw (s : State) (q : Rq) (a : Nat) : (request q a s).clk.sw = s.clk.sw := (quiet_request q a s).clk_sw
@[simp] theorem request_clk_gateNmi (s : State) (q : Rq) (a : Nat) : (request q a s).clk.gateNmi = s.clk.gateNmi := (quiet_request q a s).clk_gateNmi
@[simp] theorem request_clk_cold (s : State) (q : Rq) (a : Nat) : (request q a s).clk.cold = s.clk.cold := (quiet_request q a s).clk_cold
@[simp] theorem request_clk_aon (s : State) (q : Rq) (a : Nat) : (request q a s).clk.aon = s.clk.aon := (quiet_request q a s).clk_aon
@[simp] theorem request_clk_stage (s : State) (q : Rq) (a : Nat) : (request q a s).clk.stage = s.clk.stage := (quiet_request q a s).clk_stage
@[simp] theorem request_clk_load (s : State) (q : Rq) (a : Nat) : (request q a s).clk.load = s.clk.load := (quiet_request q a s).clk_load
@[simp] theorem request_clk_discBad (s : State) (q : Rq) (a : Nat) : (request q a s).clk.discBad = s.clk.discBad := (quiet_request q a s).clk_discBad
@[simp] theorem request_clk_part (s : State) (q : Rq) (a : Nat) : (request q a s).clk.part = s.clk.part := (quiet_request q a s).clk_part
@[simp] theorem request_cores (s : State) (q : Rq) (a : Nat) : (request q a s).cores.map Cpu.bare = s.cores.map Cpu.bare := (quiet_request q a s).cores
@[simp] theorem request_cpu_w (s : State) (q : Rq) (a : Nat) (c : Nat) : ((request q a s).cpu c).w = (s.cpu c).w := (quiet_request q a s).cpu_w c
@[simp] theorem request_cpu_v (s : State) (q : Rq) (a : Nat) (c : Nat) : ((request q a s).cpu c).v = (s.cpu c).v := (quiet_request q a s).cpu_v c
@[simp] theorem request_cpu_pc (s : State) (q : Rq) (a : Nat) (c : Nat) : ((request q a s).cpu c).pc = (s.cpu c).pc := (quiet_request q a s).cpu_pc c
@[simp] theorem request_cpu_lvl (s : State) (q : Rq) (a : Nat) (c : Nat) : ((request q a s).cpu c).lvl = (s.cpu c).lvl := (quiet_request q a s).cpu_lvl c
@[simp] theorem request_cpu_plvl (s : State) (q : Rq) (a : Nat) (c : Nat) : ((request q a s).cpu c).plvl = (s.cpu c).plvl := (quiet_request q a s).cpu_plvl c
@[simp] theorem request_cpu_ie (s : State) (q : Rq) (a : Nat) (c : Nat) : ((request q a s).cpu c).ie = (s.cpu c).ie := (quiet_request q a s).cpu_ie c
@[simp] theorem request_cpu_pie (s : State) (q : Rq) (a : Nat) (c : Nat) : ((request q a s).cpu c).pie = (s.cpu c).pie := (quiet_request q a s).cpu_pie c
@[simp] theorem request_cpu_sat (s : State) (q : Rq) (a : Nat) (c : Nat) : ((request q a s).cpu c).sat = (s.cpu c).sat := (quiet_request q a s).cpu_sat c
@[simp] theorem request_cpu_dz (s : State) (q : Rq) (a : Nat) (c : Nat) : ((request q a s).cpu c).dz = (s.cpu c).dz := (quiet_request q a s).cpu_dz c
@[simp] theorem request_cpu_tvec (s : State) (q : Rq) (a : Nat) (c : Nat) : ((request q a s).cpu c).tvec = (s.cpu c).tvec := (quiet_request q a s).cpu_tvec c
@[simp] theorem request_cpu_epc (s : State) (q : Rq) (a : Nat) (c : Nat) : ((request q a s).cpu c).epc = (s.cpu c).epc := (quiet_request q a s).cpu_epc c
@[simp] theorem request_cpu_cause (s : State) (q : Rq) (a : Nat) (c : Nat) : ((request q a s).cpu c).cause = (s.cpu c).cause := (quiet_request q a s).cpu_cause c
@[simp] theorem request_cpu_tval (s : State) (q : Rq) (a : Nat) (c : Nat) : ((request q a s).cpu c).tval = (s.cpu c).tval := (quiet_request q a s).cpu_tval c
@[simp] theorem request_cpu_scratch (s : State) (q : Rq) (a : Nat) (c : Nat) : ((request q a s).cpu c).scratch = (s.cpu c).scratch := (quiet_request q a s).cpu_scratch c
@[simp] theorem request_cpu_uwinLo (s : State) (q : Rq) (a : Nat) (c : Nat) : ((request q a s).cpu c).uwinLo = (s.cpu c).uwinLo := (quiet_request q a s).cpu_uwinLo c
@[simp] theorem request_cpu_uwinHi (s : State) (q : Rq) (a : Nat) (c : Nat) : ((request q a s).cpu c).uwinHi = (s.cpu c).uwinHi := (quiet_request q a s).cpu_uwinHi c
@[simp] theorem request_cpu_kplvl (s : State) (q : Rq) (a : Nat) (c : Nat) : ((request q a s).cpu c).kplvl = (s.cpu c).kplvl := (quiet_request q a s).cpu_kplvl c
@[simp] theorem request_cpu_kpie (s : State) (q : Rq) (a : Nat) (c : Nat) : ((request q a s).cpu c).kpie = (s.cpu c).kpie := (quiet_request q a s).cpu_kpie c
@[simp] theorem request_cpu_nmiAct (s : State) (q : Rq) (a : Nat) (c : Nat) : ((request q a s).cpu c).nmiAct = (s.cpu c).nmiAct := (quiet_request q a s).cpu_nmiAct c
@[simp] theorem request_cpu_ktvec (s : State) (q : Rq) (a : Nat) (c : Nat) : ((request q a s).cpu c).ktvec = (s.cpu c).ktvec := (quiet_request q a s).cpu_ktvec c
@[simp] theorem request_cpu_kepc (s : State) (q : Rq) (a : Nat) (c : Nat) : ((request q a s).cpu c).kepc = (s.cpu c).kepc := (quiet_request q a s).cpu_kepc c
@[simp] theorem request_cpu_kcause (s : State) (q : Rq) (a : Nat) (c : Nat) : ((request q a s).cpu c).kcause = (s.cpu c).kcause := (quiet_request q a s).cpu_kcause c
@[simp] theorem request_cpu_ktval (s : State) (q : Rq) (a : Nat) (c : Nat) : ((request q a s).cpu c).ktval = (s.cpu c).ktval := (quiet_request q a s).cpu_ktval c
@[simp] theorem request_cpu_kscratch (s : State) (q : Rq) (a : Nat) (c : Nat) : ((request q a s).cpu c).kscratch = (s.cpu c).kscratch := (quiet_request q a s).cpu_kscratch c
@[simp] theorem request_cpu_cycle (s : State) (q : Rq) (a : Nat) (c : Nat) : ((request q a s).cpu c).cycle = (s.cpu c).cycle := (quiet_request q a s).cpu_cycle c
@[simp] theorem request_cpu_cycleH (s : State) (q : Rq) (a : Nat) (c : Nat) : ((request q a s).cpu c).cycleH = (s.cpu c).cycleH := (quiet_request q a s).cpu_cycleH c
@[simp] theorem request_cpu_timeH (s : State) (q : Rq) (a : Nat) (c : Nat) : ((request q a s).cpu c).timeH = (s.cpu c).timeH := (quiet_request q a s).cpu_timeH c
@[simp] theorem request_cpu_cntH (s : State) (q : Rq) (a : Nat) (c : Nat) : ((request q a s).cpu c).cntH = (s.cpu c).cntH := (quiet_request q a s).cpu_cntH c
@[simp] theorem request_cpu_cntUen (s : State) (q : Rq) (a : Nat) (c : Nat) : ((request q a s).cpu c).cntUen = (s.cpu c).cntUen := (quiet_request q a s).cpu_cntUen c
@[simp] theorem request_cpu_swaps (s : State) (q : Rq) (a : Nat) (c : Nat) : ((request q a s).cpu c).swaps = (s.cpu c).swaps := (quiet_request q a s).cpu_swaps c
@[simp] theorem request_cpu_wait (s : State) (q : Rq) (a : Nat) (c : Nat) : ((request q a s).cpu c).wait = (s.cpu c).wait := (quiet_request q a s).cpu_wait c
@[simp] theorem request_cpu_posted (s : State) (q : Rq) (a : Nat) (c : Nat) : ((request q a s).cpu c).posted = (s.cpu c).posted := (quiet_request q a s).cpu_posted c
@[simp] theorem request_cpu_haltReq (s : State) (q : Rq) (a : Nat) (c : Nat) : ((request q a s).cpu c).haltReq = (s.cpu c).haltReq := (quiet_request q a s).cpu_haltReq c
@[simp] theorem request_cpu_nmiHold (s : State) (q : Rq) (a : Nat) (c : Nat) : ((request q a s).cpu c).nmiHold = (s.cpu c).nmiHold := (quiet_request q a s).cpu_nmiHold c
@[simp] theorem request_cpu_entryA (s : State) (q : Rq) (a : Nat) (c : Nat) : ((request q a s).cpu c).entryA = (s.cpu c).entryA := (quiet_request q a s).cpu_entryA c
@[simp] theorem request_cpu_entryB (s : State) (q : Rq) (a : Nat) (c : Nat) : ((request q a s).cpu c).entryB = (s.cpu c).entryB := (quiet_request q a s).cpu_entryB c
@[simp] theorem request_cpu_verA (s : State) (q : Rq) (a : Nat) (c : Nat) : ((request q a s).cpu c).verA = (s.cpu c).verA := (quiet_request q a s).cpu_verA c
@[simp] theorem request_cpu_verB (s : State) (q : Rq) (a : Nat) (c : Nat) : ((request q a s).cpu c).verB = (s.cpu c).verB := (quiet_request q a s).cpu_verB c

end Sys2Proof.Machine
end

