-- ==== Sys2Proof/Laws/Isa.lean ====
section
/-! SUPPORT. What the operations that the instructions share do with the cores: register reads after writes, and what a count leaves
of a core. -/

namespace Sys2Proof.Machine

/-- A core after a change of core c. -/
theorem cpu_updCpu (c d : Nat) (f : Cpu → Cpu) (s : State) :
    (updCpu c f s).cpu d = if c = d ∧ c < s.cores.length then f (s.cpu c) else s.cpu d := by
  simp only [State.cpu, updCpu, nth_upd]

theorem cpu_updCpu_self {c : Nat} (f : Cpu → Cpu) {s : State} (h : c < s.cores.length) :
    (updCpu c f s).cpu c = f (s.cpu c) := by rw [cpu_updCpu, if_pos ⟨rfl, h⟩]

theorem cpu_updCpu_ne {c d : Nat} (f : Cpu → Cpu) (s : State) (h : c ≠ d) : (updCpu c f s).cpu d = s.cpu d := by
  rw [cpu_updCpu, if_neg fun e => h e.1]

/-- w0 reads as zero (R274). -/
@[simp] theorem getW_zero (c : Nat) (s : State) : getW c 0 s = 0 := rfl

/-- w0 discards a write (R274). -/
@[simp] theorem setW_zero (c : Nat) (v : Word) (s : State) : setW c 0 v s = s := rfl

/-- Register r of core c after a write of register d (R274). -/
theorem getW_setW {c d r : Nat} {v : Word} {s : State} (hc : c < s.cores.length) (hd : d < (s.cpu c).w.length) :
    getW c r (setW c d v s) = if r = 0 then 0 else if d = r then v else getW c r s := by
  unfold getW setW
  by_cases r0 : r = 0
  · simp [r0]
  · by_cases d0 : d = 0
    · subst d0
      simp [r0, Ne.symm r0]
    · rw [if_neg r0, if_neg d0, cpu_updCpu_self _ hc]
      simp only [nth_upd, r0, if_false]
      by_cases e : d = r
      · subst e; simp [hd]
      · simp [e]

/-- A count of an occurrence leaves everything but counters and pending bits. -/
theorem quiet_tally (c evt : Nat) (o : Occ) (s : State) : Quiet s (tally c evt o s) := by
  unfold tally
  split
  · exact Quiet.count (by omega) (Quiet.refl s)
  · exact Quiet.refl s

@[simp] theorem bare_tally (c evt : Nat) (o : Occ) (s : State) : (tally c evt o s).bare = s.bare := (quiet_tally c evt o s).2.1

/-- A core beside its counters is the same after a count. -/
theorem cpu_tally (c evt : Nat) (o : Occ) (s : State) (d : Nat) : ((tally c evt o s).cpu d).bare = (s.cpu d).bare :=
  (quiet_tally c evt o s).cpu d

end Sys2Proof.Machine
end

