-- ==== Sys2Proof/Laws/Keep.lean ====
section
/-! SUPPORT. What every operation keeps: the invariant, the queue, the cellar's seal and records, the revoked keys. -/

namespace Sys2Proof.Machine

/-- The cellar's memory keeps its seal and its record count (R498, R506). -/
def CelKeeps (a b : Cel) : Prop := (∀ k, a.sealed = some k → b.sealed = some k) ∧ a.recNo ≤ b.recNo

/-- t keeps what s has. -/
def Keeps (s t : State) : Prop :=
  (Inv s → Inv t) ∧ t.pending = s.pending ∧ CelKeeps s.cel t.cel ∧
    ∀ i, majority (nth s.attic.slots i).revoked = true → majority (nth t.attic.slots i).revoked = true

theorem Keeps.refl (s : State) : Keeps s s := ⟨id, rfl, ⟨fun _ => id, le_refl _⟩, fun _ => id⟩

theorem Keeps.trans {a b c : State} (h : Keeps a b) (g : Keeps b c) : Keeps a c :=
  ⟨fun i => g.1 (h.1 i), g.2.1.trans h.2.1, ⟨fun k e => g.2.2.1.1 k (h.2.2.1.1 k e), h.2.2.1.2.trans g.2.2.1.2⟩,
    fun i e => g.2.2.2 i (h.2.2.2 i e)⟩

/-! ## Cuts for the proofs that follow a definition line by line -/

theorem Keeps.ite {o a b : State} {c : Prop} [Decidable c] (h : Keeps o a) (g : Keeps o b) : Keeps o (if c then a else b) := by
  split <;> assumption

theorem Keeps.ite1 {α : Type} {o : State} {a b : State × α} {c : Prop} [Decidable c] (h : Keeps o a.1) (g : Keeps o b.1) :
    Keeps o (if c then a else b).1 := by
  split <;> assumption

theorem Keeps.cut {o : State} {p : Prop} (v : State) (h : Keeps o v) (g : Keeps o v → p) : p := g h

theorem Keeps.cut1 {α : Type} {o : State} {p : Prop} (v : State × α) (h : Keeps o v.1) (g : Keeps o v.1 → p) : p := g h

theorem Keeps.ite2 {α : Type} {o : State} {a b : α × State} {c : Prop} [Decidable c] (h : Keeps o a.2) (g : Keeps o b.2) :
    Keeps o (if c then a else b).2 := by
  split <;> assumption

theorem Keeps.cut2 {α : Type} {o : State} {p : Prop} (v : α × State) (h : Keeps o v.2) (g : Keeps o v.2 → p) : p := g h

theorem Keeps.cutF {α β : Type} {p : Prop} (_ : α → β) (g : p) : p := g

theorem Keeps.foldl {α : Type} {o s : State} {l : List α} {f : State → α → State} (h : Keeps o s)
    (hf : ∀ s x, Keeps o s → Keeps o (f s x)) : Keeps o (l.foldl f s) := by
  induction l generalizing s with
  | nil => exact h
  | cons x t ih => exact ih (hf s x h)

theorem Keeps.foldlMem {α : Type} {o s : State} {l : List α} {f : State → α → State} (h : Keeps o s)
    (hf : ∀ s x, x ∈ l → Keeps o s → Keeps o (f s x)) : Keeps o (l.foldl f s) := by
  induction l generalizing s with
  | nil => exact h
  | cons x t ih => exact ih (hf s x (by simp) h) fun s y hy => hf s y (by simp [hy])

theorem Keeps.foldl1 {α β : Type} {o : State} {p : State × β} {l : List α} {f : State × β → α → State × β}
    (h : Keeps o p.1) (hf : ∀ p x, Keeps o p.1 → Keeps o (f p x).1) : Keeps o (l.foldl f p).1 := by
  induction l generalizing p with
  | nil => exact h
  | cons x t ih => exact ih (hf p x h)

theorem Keeps.forN {o s : State} {n : Nat} {f : Nat → State → State} (h : Keeps o s)
    (hf : ∀ i s, Keeps o s → Keeps o (f i s)) : Keeps o (forN n f s) := Keeps.foldl h fun s x => hf x s

/-! ## Record updates -/

/-- A state that differs in none of the parts that Keeps looks at. -/
theorem Keeps.upd {o s t : State} (h : Keeps o s) (h1 : t.regs = s.regs) (h2 : t.mem = s.mem) (h3 : t.ecc = s.ecc)
    (h4 : t.cores = s.cores) (h5 : t.pending = s.pending) (h6 : CelKeeps s.cel t.cel) (h7 : t.attic = s.attic)
    (h8 : SizesOk s → SizesOk t) : Keeps o t := by
  refine ⟨fun i => ?_, by rw [h5]; exact h.2.1, ?_, ?_⟩
  · obtain ⟨a, b, c, d, e⟩ := h.1 i
    exact ⟨h1 ▸ a, h2 ▸ b, h3 ▸ c, h8 d, h4 ▸ e⟩
  · exact ⟨fun k e => h6.1 k (h.2.2.1.1 k e), h.2.2.1.2.trans h6.2⟩
  · rw [h7]; exact h.2.2.2

theorem CelKeeps.refl (c : Cel) : CelKeeps c c := ⟨fun _ => id, le_refl _⟩

/-- A record update that leaves alone the parts that Keeps looks at closely; one name, so that a proof meets it once. -/
def patch (s : State)
    (xreply : Reply) (xnow : Nat) (xfree : Nat) (xrate : List (Nat × Nat)) (xconv : List Conv) (xrst : Rst) (xdet
    : List Det) (xfrm : List Frm) (xframeNo : Nat) (xhost : List HostL) (xbclk : Nat) (xrpt : List RptP) (xceilRun
    : List (Nat × Int)) (xceilNear : List Nat) (xmuteN : Bool) (xmuteStuck : Bool) (xlst : List LstCh) (xseen :
    List Seen) (xnfTurn : Nat) (xnfDone : List (List Mtr)) (xnf : List Mtr) (xbnd : List BndP) (xbsync : BndSync)
    (xbandTime : Nat) (xadmSeq : Nat) (xmeas : Meas) (xinq : List Carried) (xcarry : List Carried) (xbndZero :
    List (Nat × Nat)) (xfen : List FenSeq) (xfenForced : Bool) (xcoexHi : Bool) (xcoexLo : Bool) (xspi : List
    SpiM) (xibiSent : Nat) (xflash : List Host.Cell) (xnorWave : List (List (Option Bool))) (xpmc : List Nat)
    (xmerge : List (List Merge)) (xscrubPos : List Nat) (xscrubLast : List (Option (Nat × Nat))) (xscrubAgain :
    List (Option Nat)) (xarb : List (Nat × Arb)) (xsto : Sto) (xstop : Bool) (xwdLen : Nat) (xwdT : Nat) (xlockAt
    : Option Nat) (xload : Option Load) (xstuck : List (Rq × Nat)) (xwaits : List Waiting) (xclk : Clk) (xhkd :
    List HkPin) (xscanIdx : Nat) (xtrips : List (Nat × Nat)) (xpwr : Pwr) (xown : Own) (xsnk : Snk) (xcel : Cel)
    (xbst : Bst) (xdma : List DmaCh) : State :=
  State.mk s.regs xreply xnow xfree xrate xconv xrst xdet xfrm xframeNo xhost xbclk xrpt xceilRun xceilNear xmuteN
      xmuteStuck xlst xseen xnfTurn xnfDone xnf xbnd xbsync xbandTime xadmSeq xmeas xinq xcarry xbndZero xfen
      xfenForced xcoexHi xcoexLo xspi xibiSent xflash xnorWave s.cores xpmc s.mem s.ecc xmerge xscrubPos xscrubLast
      xscrubAgain xarb xsto xstop xwdLen xwdT xlockAt xload xstuck xwaits xclk xhkd xscanIdx xtrips xpwr s.attic
      xown xsnk xcel xbst xdma s.pending

theorem patch_eq (s : State)
    (xreply : Reply) (xnow : Nat) (xfree : Nat) (xrate : List (Nat × Nat)) (xconv : List Conv) (xrst : Rst) (xdet
    : List Det) (xfrm : List Frm) (xframeNo : Nat) (xhost : List HostL) (xbclk : Nat) (xrpt : List RptP) (xceilRun
    : List (Nat × Int)) (xceilNear : List Nat) (xmuteN : Bool) (xmuteStuck : Bool) (xlst : List LstCh) (xseen :
    List Seen) (xnfTurn : Nat) (xnfDone : List (List Mtr)) (xnf : List Mtr) (xbnd : List BndP) (xbsync : BndSync)
    (xbandTime : Nat) (xadmSeq : Nat) (xmeas : Meas) (xinq : List Carried) (xcarry : List Carried) (xbndZero :
    List (Nat × Nat)) (xfen : List FenSeq) (xfenForced : Bool) (xcoexHi : Bool) (xcoexLo : Bool) (xspi : List
    SpiM) (xibiSent : Nat) (xflash : List Host.Cell) (xnorWave : List (List (Option Bool))) (xpmc : List Nat)
    (xmerge : List (List Merge)) (xscrubPos : List Nat) (xscrubLast : List (Option (Nat × Nat))) (xscrubAgain :
    List (Option Nat)) (xarb : List (Nat × Arb)) (xsto : Sto) (xstop : Bool) (xwdLen : Nat) (xwdT : Nat) (xlockAt
    : Option Nat) (xload : Option Load) (xstuck : List (Rq × Nat)) (xwaits : List Waiting) (xclk : Clk) (xhkd :
    List HkPin) (xscanIdx : Nat) (xtrips : List (Nat × Nat)) (xpwr : Pwr) (xown : Own) (xsnk : Snk) (xcel : Cel)
    (xbst : Bst) (xdma : List DmaCh) :
    State.mk s.regs xreply xnow xfree xrate xconv xrst xdet xfrm xframeNo xhost xbclk xrpt xceilRun xceilNear xmuteN
      xmuteStuck xlst xseen xnfTurn xnfDone xnf xbnd xbsync xbandTime xadmSeq xmeas xinq xcarry xbndZero xfen
      xfenForced xcoexHi xcoexLo xspi xibiSent xflash xnorWave s.cores xpmc s.mem s.ecc xmerge xscrubPos xscrubLast
      xscrubAgain xarb xsto xstop xwdLen xwdT xlockAt xload xstuck xwaits xclk xhkd xscanIdx xtrips xpwr s.attic
      xown xsnk xcel xbst xdma s.pending =
    patch s xreply xnow xfree xrate xconv xrst xdet xfrm xframeNo xhost xbclk xrpt xceilRun xceilNear xmuteN xmuteStuck
      xlst xseen xnfTurn xnfDone xnf xbnd xbsync xbandTime xadmSeq xmeas xinq xcarry xbndZero xfen xfenForced
      xcoexHi xcoexLo xspi xibiSent xflash xnorWave xpmc xmerge xscrubPos xscrubLast xscrubAgain xarb xsto xstop
      xwdLen xwdT xlockAt xload xstuck xwaits xclk xhkd xscanIdx xtrips xpwr xown xsnk xcel xbst xdma := rfl

theorem Keeps.patch {o s : State} (h : Keeps o s)
    {xreply : Reply} {xnow : Nat} {xfree : Nat} {xrate : List (Nat × Nat)} {xconv : List Conv} {xrst : Rst} {xdet
    : List Det} {xfrm : List Frm} {xframeNo : Nat} {xhost : List HostL} {xbclk : Nat} {xrpt : List RptP} {xceilRun
    : List (Nat × Int)} {xceilNear : List Nat} {xmuteN : Bool} {xmuteStuck : Bool} {xlst : List LstCh} {xseen :
    List Seen} {xnfTurn : Nat} {xnfDone : List (List Mtr)} {xnf : List Mtr} {xbnd : List BndP} {xbsync : BndSync}
    {xbandTime : Nat} {xadmSeq : Nat} {xmeas : Meas} {xinq : List Carried} {xcarry : List Carried} {xbndZero :
    List (Nat × Nat)} {xfen : List FenSeq} {xfenForced : Bool} {xcoexHi : Bool} {xcoexLo : Bool} {xspi : List
    SpiM} {xibiSent : Nat} {xflash : List Host.Cell} {xnorWave : List (List (Option Bool))} {xpmc : List Nat}
    {xmerge : List (List Merge)} {xscrubPos : List Nat} {xscrubLast : List (Option (Nat × Nat))} {xscrubAgain :
    List (Option Nat)} {xarb : List (Nat × Arb)} {xsto : Sto} {xstop : Bool} {xwdLen : Nat} {xwdT : Nat} {xlockAt
    : Option Nat} {xload : Option Load} {xstuck : List (Rq × Nat)} {xwaits : List Waiting} {xclk : Clk} {xhkd :
    List HkPin} {xscanIdx : Nat} {xtrips : List (Nat × Nat)} {xpwr : Pwr} {xown : Own} {xsnk : Snk} {xcel : Cel}
    {xbst : Bst} {xdma : List DmaCh}
    (h6 : CelKeeps s.cel xcel)
    (h8 : SizesOk s → SizesOk (Machine.patch s xreply xnow xfree xrate xconv xrst xdet xfrm xframeNo xhost xbclk xrpt xceilRun xceilNear xmuteN xmuteStuck
      xlst xseen xnfTurn xnfDone xnf xbnd xbsync xbandTime xadmSeq xmeas xinq xcarry xbndZero xfen xfenForced
      xcoexHi xcoexLo xspi xibiSent xflash xnorWave xpmc xmerge xscrubPos xscrubLast xscrubAgain xarb xsto xstop
      xwdLen xwdT xlockAt xload xstuck xwaits xclk xhkd xscanIdx xtrips xpwr xown xsnk xcel xbst xdma)) :
    Keeps o (Machine.patch s xreply xnow xfree xrate xconv xrst xdet xfrm xframeNo xhost xbclk xrpt xceilRun xceilNear xmuteN xmuteStuck
      xlst xseen xnfTurn xnfDone xnf xbnd xbsync xbandTime xadmSeq xmeas xinq xcarry xbndZero xfen xfenForced
      xcoexHi xcoexLo xspi xibiSent xflash xnorWave xpmc xmerge xscrubPos xscrubLast xscrubAgain xarb xsto xstop
      xwdLen xwdT xlockAt xload xstuck xwaits xclk xhkd xscanIdx xtrips xpwr xown xsnk xcel xbst xdma) :=
  h.upd rfl rfl rfl rfl rfl h6 rfl h8

/-- The register list takes another form that is in order. -/
theorem Keeps.regs {o s : State} (h : Keeps o s) {l : List (Nat × Word)} (g : RegsOk s.regs → RegsOk l) :
    Keeps o { s with regs := l } :=
  ⟨fun i => let ⟨a, b⟩ := h.1 i; ⟨g a, b⟩, h.2⟩

/-- The memory takes another form that is in order. -/
theorem Keeps.mem {o s : State} (h : Keeps o s) {l : List Host.Cell} (g : Memory.wf s.mem = true → Memory.wf l = true) :
    Keeps o { s with mem := l } :=
  ⟨fun i => let ⟨a, b, c⟩ := h.1 i; ⟨a, g b, c⟩, h.2⟩

/-- The list of stored errors takes another form that is in order. -/
theorem Keeps.ecc {o s : State} (h : Keeps o s) {l : List (Nat × Nat)} (g : EccOk s.ecc → EccOk l) :
    Keeps o { s with ecc := l } :=
  ⟨fun i => let ⟨a, b, c, d⟩ := h.1 i; ⟨a, b, g c, d⟩, h.2⟩

theorem Keeps.updCpu {o s : State} (h : Keeps o s) {c : Nat} {f : Cpu → Cpu} (g : ∀ k, CpuOk k → CpuOk (f k)) :
    Keeps o (updCpu c f s) := by
  refine ⟨fun i => ?_, h.2⟩
  obtain ⟨a, b, c, d, e⟩ := h.1 i
  refine ⟨a, b, c, ?_, fun k hk => ?_⟩
  · simpa [SizesOk, Machine.updCpu] using d
  · rcases mem_upd hk with hk | ⟨y, hy, rfl⟩
    · exact e k hk
    · exact g y (e y hy)

/-! ## The named operations -/

theorem Keeps.wr {o s : State} (h : Keeps o s) {a : Nat} {v : Word} : Keeps o (s.wr a v) := by
  refine Keeps.regs h fun r => ?_
  split
  · exact r.erase a
  · exact r.insert a ‹_›

theorem Keeps.dropRange {o s : State} (h : Keeps o s) {a b : Nat} : Keeps o (s.dropRange a b) :=
  Keeps.regs h fun r => r.sub List.filter_sublist

theorem Keeps.idS {o s : State} (h : Keeps o s) : Keeps o (id s) := h
theorem Keeps.ret {o s : State} (h : Keeps o s) {c : Code} : Keeps o (s.ret c) := h
theorem Keeps.retData {o s : State} (h : Keeps o s) {d : List Word} : Keeps o (s.retData d) := h
theorem Keeps.freeNext {o s : State} (h : Keeps o s) : Keeps o s.freeNext := h
theorem Keeps.set {o s : State} (h : Keeps o s) {f : Fd} {v : Nat} : Keeps o (s.set f v) := h.wr
theorem Keeps.seti {o s : State} (h : Keeps o s) {f : Fd} {v : Int} : Keeps o (s.seti f v) := h.wr
theorem Keeps.addSat {o s : State} (h : Keeps o s) {f : Fd} {v : Nat} : Keeps o (s.addSat f v) := h.wr
theorem Keeps.incMod {o s : State} (h : Keeps o s) {f : Fd} : Keeps o (s.incMod f) := h.wr
theorem Keeps.store {o s : State} (h : Keeps o s) {a : Nat} {l : List (Nat × Nat × Acc)} {w : Word} :
    Keeps o (s.store a l w) := h.wr

end Sys2Proof.Machine
end

