-- ==== Sys2Proof/Laws/KeepOps.lean ====
section
/-! SUPPORT. What the operations of Ops.lean keep. -/

set_option linter.all false

namespace Sys2Proof.Machine

theorem Keeps.sendIbi {z0 s : State} {rises : Bool} (hz : Keeps z0 s)  : Keeps z0 (Machine.sendIbi rises s) := by
  unfold Machine.sendIbi
  repeat' first
    | with_reducible assumption
    | with_reducible apply Keeps.ite
    | with_reducible apply Keeps.ite1
    | ((first | rw [patch_eq] | skip); (with_reducible refine Keeps.patch ?_ ?_ ?_); rotate_left; (first | exact CelKeeps.refl _ | exact ⟨fun _ h => h, Nat.le_refl _⟩ | exact ⟨fun _ h => h, Nat.le_succ _⟩); (refine fun g => ?_; first | exact g | simpa only [SizesOk, Machine.patch, upd_length] using g | (simp only [SizesOk, Machine.patch, upd_length, List.length_map, List.length_replicate, true_and] at g ⊢; tauto)))

theorem Keeps.setPend {z0 s : State} {e : Nat} (hz : Keeps z0 s)  : Keeps z0 (Machine.setPend e s) := by
  unfold Machine.setPend
  repeat' first
    | with_reducible assumption
    | with_reducible apply Keeps.sendIbi
    | with_reducible apply Keeps.set

theorem Keeps.updPmc {z0 s : State} {j : Nat} {f : Nat → Nat} (hz : Keeps z0 s)  : Keeps z0 (Machine.updPmc j f s) := by
  unfold Machine.updPmc
  exact Keeps.upd hz rfl rfl rfl rfl rfl (CelKeeps.refl _) rfl (fun g => by simp_all [SizesOk])

theorem Keeps.cntWrap {z0 s : State} {c : Nat} {j : Nat} {o : Occ} (hz : Keeps z0 s)  : Keeps z0 (Machine.cntWrap c j o s).1 := by
  unfold Machine.cntWrap
  try lift_lets
  repeat' first
    | (refine fun (k : Cpu) (hk : CpuOk k) => (?_ : CpuOk _); first | exact hk | (simp only [CpuOk, upd_length] at *; simpa using hk) | (split <;> first | exact hk | (simp only [CpuOk, upd_length] at *; simpa using hk)))
    | exact CelKeeps.refl _
    | exact ⟨fun _ h => h, Nat.le_refl _⟩
    | exact ⟨fun _ h => h, Nat.le_succ _⟩
    | with_reducible assumption
    | (intro x; with_reducible refine Keeps.cut (o := z0) x ?_ ?_; dsimp only [x]; rotate_left; try clear_value x)
    | (intro x; with_reducible refine Keeps.cut1 (o := z0) x ?_ ?_; dsimp only [x]; rotate_left; try clear_value x)
    | (intro x; with_reducible refine Keeps.cutF x ?_; try dsimp only [x])
    | (intro x; try clear_value x)
    | with_reducible apply Keeps.ite
    | with_reducible apply Keeps.ite1
    | with_reducible apply Keeps.wr
    | with_reducible apply Keeps.freeNext
    | with_reducible apply Keeps.updCpu
    | ((first | rw [patch_eq] | skip); (with_reducible refine Keeps.patch ?_ ?_ ?_); rotate_left; (first | exact CelKeeps.refl _ | exact ⟨fun _ h => h, Nat.le_refl _⟩ | exact ⟨fun _ h => h, Nat.le_succ _⟩); (refine fun g => ?_; first | exact g | simpa only [SizesOk, Machine.patch, upd_length] using g | (simp only [SizesOk, Machine.patch, upd_length, List.length_map, List.length_replicate, true_and] at g ⊢; tauto)))
    | (fail_if_no_progress dsimp -zeta only)
    | split

theorem Keeps.cntAdd {z0 s : State} {c : Nat} {evt : Nat} {n : Nat} {o : Occ} (hz : Keeps z0 s)  : Keeps z0 (Machine.cntAdd c evt n o s).1 := by
  unfold Machine.cntAdd
  try lift_lets
  repeat' first
    | (refine fun (k : Cpu) (hk : CpuOk k) => (?_ : CpuOk _); first | exact hk | (simp only [CpuOk, upd_length] at *; simpa using hk) | (split <;> first | exact hk | (simp only [CpuOk, upd_length] at *; simpa using hk)))
    | exact CelKeeps.refl _
    | exact ⟨fun _ h => h, Nat.le_refl _⟩
    | exact ⟨fun _ h => h, Nat.le_succ _⟩
    | with_reducible assumption
    | (intro x; with_reducible refine Keeps.cut (o := z0) x ?_ ?_; dsimp only [x]; rotate_left; try clear_value x)
    | (intro x; with_reducible refine Keeps.cut1 (o := z0) x ?_ ?_; dsimp only [x]; rotate_left; try clear_value x)
    | (intro x; with_reducible refine Keeps.cut2 (o := z0) x ?_ ?_; dsimp only [x]; rotate_left; try clear_value x)
    | with_reducible apply Keeps.ite2
    | (intro x; with_reducible refine Keeps.cutF x ?_; try dsimp only [x])
    | (intro x; try clear_value x)
    | with_reducible apply Keeps.ite
    | with_reducible apply Keeps.ite1
    | with_reducible apply Keeps.foldl
    | with_reducible apply Keeps.foldl1
    | with_reducible apply Keeps.cntWrap
    | with_reducible apply Keeps.updCpu
    | ((first | rw [patch_eq] | skip); (with_reducible refine Keeps.patch ?_ ?_ ?_); rotate_left; (first | exact CelKeeps.refl _ | exact ⟨fun _ h => h, Nat.le_refl _⟩ | exact ⟨fun _ h => h, Nat.le_succ _⟩); (refine fun g => ?_; first | exact g | simpa only [SizesOk, Machine.patch, upd_length] using g | (simp only [SizesOk, Machine.patch, upd_length, List.length_map, List.length_replicate, true_and] at g ⊢; tauto)))
    | (fail_if_no_progress dsimp -zeta only)
    | split

theorem Keeps.pmcAdd {z0 s : State} {evt : Nat} {n : Nat} {mst : Option Nat} {o : Occ} (hz : Keeps z0 s)  : Keeps z0 (Machine.pmcAdd evt n mst o s).1 := by
  unfold Machine.pmcAdd
  try lift_lets
  repeat' first
    | with_reducible assumption
    | with_reducible apply Keeps.ite2
    | (intro x; try clear_value x)
    | with_reducible apply Keeps.ite
    | with_reducible apply Keeps.ite1
    | with_reducible apply Keeps.foldl
    | with_reducible apply Keeps.foldl1
    | with_reducible apply Keeps.updPmc
    | with_reducible apply Keeps.set

theorem Keeps.raiseN {o : State} (f e : Nat) {s : State} (h : Keeps o s) : Keeps o (Machine.raiseN f e s) := by
  induction f generalizing e s with
  | zero => exact Keeps.setPend h
  | succ f ih =>
    unfold Machine.raiseN
    dsimp only
    refine Keeps.foldl ?_ fun s e g => ih e g
    refine Keeps.pmcAdd ?_
    split
    · exact Keeps.setPend h
    · exact Keeps.foldl1 (Keeps.setPend h) fun p c g => Keeps.cntAdd g

theorem Keeps.raise {z0 s : State} {e : Nat} (hz : Keeps z0 s)  : Keeps z0 (Machine.State.raise s e) := by
  unfold Machine.State.raise
  repeat' first
    | with_reducible assumption
    | with_reducible apply Keeps.raiseN

theorem Keeps.count {z0 s : State} {c : Nat} {evt : Nat} {n : Nat} {o : Occ} (hz : Keeps z0 s)  : Keeps z0 (Machine.count c evt n o s) := by
  unfold Machine.count
  try lift_lets
  repeat' first
    | with_reducible assumption
    | (intro x; with_reducible refine Keeps.cut1 (o := z0) x ?_ ?_; dsimp only [x]; rotate_left; try clear_value x)
    | with_reducible apply Keeps.ite2
    | (intro x; try clear_value x)
    | with_reducible apply Keeps.ite
    | with_reducible apply Keeps.ite1
    | with_reducible apply Keeps.foldl
    | with_reducible apply Keeps.foldl1
    | with_reducible apply Keeps.cntAdd
    | with_reducible apply Keeps.raise

theorem Keeps.pmcCount {z0 s : State} {evt : Nat} {n : Nat} {mst : Option Nat} {o : Occ} (hz : Keeps z0 s)  : Keeps z0 (Machine.pmcCount evt n mst o s) := by
  unfold Machine.pmcCount
  try lift_lets
  repeat' first
    | with_reducible assumption
    | (intro x; with_reducible refine Keeps.cut1 (o := z0) x ?_ ?_; dsimp only [x]; rotate_left; try clear_value x)
    | with_reducible apply Keeps.ite2
    | (intro x; try clear_value x)
    | with_reducible apply Keeps.foldl
    | with_reducible apply Keeps.foldl1
    | with_reducible apply Keeps.pmcAdd
    | with_reducible apply Keeps.raise

theorem Keeps.flag {z0 s : State} {f : Fd} {e : Nat} (hz : Keeps z0 s)  : Keeps z0 (Machine.State.flag s f e) := by
  unfold Machine.State.flag
  repeat' first
    | with_reducible assumption
    | with_reducible apply Keeps.raise
    | with_reducible apply Keeps.set

theorem Keeps.flagLimited {z0 s : State} {f : Fd} {e : Nat} {gap : Nat} (hz : Keeps z0 s)  : Keeps z0 (Machine.State.flagLimited s f e gap) := by
  unfold Machine.State.flagLimited
  try lift_lets
  repeat' first
    | with_reducible assumption
    | (intro x; with_reducible refine Keeps.cut (o := z0) x ?_ ?_; dsimp only [x]; rotate_left; try clear_value x)
    | (intro x; try clear_value x)
    | with_reducible apply Keeps.ite
    | with_reducible apply Keeps.ite1
    | with_reducible apply Keeps.raise
    | with_reducible apply Keeps.set
    | ((first | rw [patch_eq] | skip); (with_reducible refine Keeps.patch ?_ ?_ ?_); rotate_left; (first | exact CelKeeps.refl _ | exact ⟨fun _ h => h, Nat.le_refl _⟩ | exact ⟨fun _ h => h, Nat.le_succ _⟩); (refine fun g => ?_; first | exact g | simpa only [SizesOk, Machine.patch, upd_length] using g | (simp only [SizesOk, Machine.patch, upd_length, List.length_map, List.length_replicate, true_and] at g ⊢; tauto)))

end Sys2Proof.Machine
end

