-- ==== Sys2Proof/Laws/KeepGate.lean ====
section
/-! SUPPORT. What the operations of Gate.lean keep. -/

set_option linter.all false

namespace Sys2Proof.Machine

theorem Keeps.park {z0 s : State} {x : Waiting} (hz : Keeps z0 s)  : Keeps z0 (Machine.park x s) := by
  unfold Machine.park
  exact Keeps.upd hz rfl rfl rfl rfl rfl (CelKeeps.refl _) rfl (fun g => by simp_all [SizesOk])

theorem Keeps.logRefusal {z0 s : State} {q : Rq} {a : Nat} {c : Code} (hz : Keeps z0 s)  : Keeps z0 (Machine.logRefusal q a c s) := by
  unfold Machine.logRefusal
  try lift_lets
  repeat' first
    | with_reducible assumption
    | (intro x; with_reducible refine Keeps.cut (o := z0) x ?_ ?_; dsimp only [x]; rotate_left; try clear_value x)
    | (intro x; try clear_value x)
    | with_reducible apply Keeps.ite
    | with_reducible apply Keeps.ite1
    | with_reducible apply Keeps.flagLimited
    | with_reducible apply Keeps.wr
    | with_reducible apply Keeps.set
    | with_reducible apply Keeps.addSat

theorem Keeps.refuseLog {z0 s : State} {q : Rq} {a : Nat} {c : Code} (hz : Keeps z0 s)  : Keeps z0 (Machine.refuseLog q a c s) := by
  unfold Machine.refuseLog
  repeat' first
    | with_reducible assumption
    | with_reducible apply Keeps.logRefusal
    | with_reducible apply Keeps.ret

theorem Keeps.gateWake {z0 s : State} {b : Nat} (hz : Keeps z0 s)  : Keeps z0 (Machine.gateWake b s) := by
  unfold Machine.gateWake
  exact Keeps.upd hz rfl rfl rfl rfl rfl (CelKeeps.refl _) rfl (fun g => by simp_all [SizesOk])

theorem Keeps.request {z0 s : State} {q : Rq} {a : Nat} (hz : Keeps z0 s)  : Keeps z0 (Machine.request q a s) := by
  unfold Machine.request
  repeat' first
    | with_reducible assumption
    | with_reducible apply Keeps.pmcCount
    | with_reducible apply Keeps.gateWake
    | (fail_if_no_progress dsimp -zeta only)
    | split

theorem Keeps.completed {z0 s : State} {q : Rq} {a : Nat} {write : Bool} {c : Code} (hz : Keeps z0 s)  : Keeps z0 (Machine.completed q a write c s) := by
  unfold Machine.completed
  try lift_lets
  repeat' first
    | with_reducible assumption
    | (intro x; try clear_value x)
    | with_reducible apply Keeps.ite
    | with_reducible apply Keeps.ite1
    | with_reducible apply Keeps.pmcCount

theorem Keeps.portsFenced {z0 s : State}  (hz : Keeps z0 s)  : Keeps z0 (Machine.portsFenced s) := by
  unfold Machine.portsFenced
  repeat' first
    | with_reducible assumption
    | (intro x; with_reducible refine Keeps.cut (o := z0) x ?_ ?_; dsimp only [x]; rotate_left; try clear_value x)
    | (intro x; with_reducible refine Keeps.cut1 (o := z0) x ?_ ?_; dsimp only [x]; rotate_left; try clear_value x)
    | (intro x; with_reducible refine Keeps.cutF x ?_; try dsimp only [x])
    | (intro x; try clear_value x)
    | with_reducible apply Keeps.foldl
    | with_reducible apply Keeps.foldl1
    | with_reducible apply Keeps.completed
    | with_reducible apply Keeps.ret
    | ((first | rw [patch_eq] | skip); (with_reducible refine Keeps.patch ?_ ?_ ?_); rotate_left; (first | exact CelKeeps.refl _ | exact ⟨fun _ h => h, Nat.le_refl _⟩ | exact ⟨fun _ h => h, Nat.le_succ _⟩); (refine fun g => ?_; first | exact g | simpa only [SizesOk, Machine.patch, upd_length] using g | (simp only [SizesOk, Machine.patch, upd_length, List.length_map, List.length_replicate, true_and] at g ⊢; tauto)))
    | (fail_if_no_progress dsimp -zeta only)
    | split

theorem Keeps.gatedBus {z0 s : State} {q : Rq} {a : Nat} {fs : List (Nat × Nat × Acc)} {w : Word} {hook : State → State} (hz : Keeps z0 s) (hhook : ∀ x0, Keeps z0 x0 → Keeps z0 (hook x0)) : Keeps z0 (Machine.gatedBus q a fs w hook s) := by
  unfold Machine.gatedBus
  repeat' first
    | with_reducible assumption
    | (intro x; with_reducible refine Keeps.cut (o := z0) x ?_ ?_; dsimp only [x]; rotate_left; try clear_value x)
    | (intro x; with_reducible refine Keeps.cut1 (o := z0) x ?_ ?_; dsimp only [x]; rotate_left; try clear_value x)
    | (intro x; with_reducible refine Keeps.cutF x ?_; try dsimp only [x])
    | (intro x; try clear_value x)
    | with_reducible apply hhook
    | with_reducible apply Keeps.park
    | with_reducible apply Keeps.refuseLog
    | with_reducible apply Keeps.request
    | with_reducible apply Keeps.completed
    | with_reducible apply Keeps.ret
    | ((first | rw [patch_eq] | skip); (with_reducible refine Keeps.patch ?_ ?_ ?_); rotate_left; (first | exact CelKeeps.refl _ | exact ⟨fun _ h => h, Nat.le_refl _⟩ | exact ⟨fun _ h => h, Nat.le_succ _⟩); (refine fun g => ?_; first | exact g | simpa only [SizesOk, Machine.patch, upd_length] using g | (simp only [SizesOk, Machine.patch, upd_length, List.length_map, List.length_replicate, true_and] at g ⊢; tauto)))
    | (fail_if_no_progress dsimp -zeta only)
    | split
    | lift_lets

theorem Keeps.storeErr {z0 s : State} {c : Nat} {a : Nat} {o : Code} {priv : Bool} (hz : Keeps z0 s)  : Keeps z0 (Machine.storeErr c a o priv s) := by
  unfold Machine.storeErr
  repeat' first
    | (refine fun (k : Cpu) (hk : CpuOk k) => (?_ : CpuOk _); first | exact hk | (simp only [CpuOk, upd_length] at *; simpa using hk) | (split <;> first | exact hk | (simp only [CpuOk, upd_length] at *; simpa using hk)))
    | exact CelKeeps.refl _
    | exact ⟨fun _ h => h, Nat.le_refl _⟩
    | exact ⟨fun _ h => h, Nat.le_succ _⟩
    | with_reducible assumption
    | with_reducible apply Keeps.priv
    | with_reducible apply Keeps.updCpu
    | ((first | rw [patch_eq] | skip); (with_reducible refine Keeps.patch ?_ ?_ ?_); rotate_left; (first | exact CelKeeps.refl _ | exact ⟨fun _ h => h, Nat.le_refl _⟩ | exact ⟨fun _ h => h, Nat.le_succ _⟩); (refine fun g => ?_; first | exact g | simpa only [SizesOk, Machine.patch, upd_length] using g | (simp only [SizesOk, Machine.patch, upd_length, List.length_map, List.length_replicate, true_and] at g ⊢; tauto)))

theorem Keeps.raisePriv {z0 s : State} {c : Option Nat} {a : Nat} (hz : Keeps z0 s)  : Keeps z0 (Machine.raisePriv c a s) := by
  unfold Machine.raisePriv
  repeat' first
    | with_reducible assumption
    | with_reducible apply Keeps.storeErr
    | (fail_if_no_progress dsimp -zeta only)
    | split

theorem Keeps.gated {z0 s : State} {q : Rq} {a : Nat} {fs : List (Nat × Nat × Acc)} {w : Word} {hook : State → State} (hz : Keeps z0 s) (hhook : ∀ x0, Keeps z0 x0 → Keeps z0 (hook x0)) : Keeps z0 (Machine.gated q a fs w hook s) := by
  unfold Machine.gated
  repeat' first
    | with_reducible assumption
    | with_reducible apply hhook
    | with_reducible apply Keeps.gatedBus
    | with_reducible apply Keeps.raisePriv

theorem Keeps.plainWrite {z0 s : State} {a : Nat} {fs : List (Nat × Nat × Acc)} {w : Word} (hz : Keeps z0 s)  : Keeps z0 (Machine.plainWrite a fs w s) := by
  unfold Machine.plainWrite
  repeat' first
    | with_reducible assumption
    | with_reducible apply Keeps.store
    | with_reducible apply Keeps.ret

theorem Keeps.gatedRead {z0 s : State} {q : Rq} {a : Nat} {hook : State → State} (hz : Keeps z0 s) (hhook : ∀ x0, Keeps z0 x0 → Keeps z0 (hook x0)) : Keeps z0 (Machine.gatedRead q a hook s) := by
  unfold Machine.gatedRead
  try lift_lets
  repeat' first
    | with_reducible assumption
    | (intro x; with_reducible refine Keeps.cut (o := z0) x ?_ ?_; dsimp only [x]; rotate_left; try clear_value x)
    | (intro x; with_reducible refine Keeps.cut1 (o := z0) x ?_ ?_; dsimp only [x]; rotate_left; try clear_value x)
    | (intro x; with_reducible refine Keeps.cutF x ?_; try dsimp only [x])
    | (intro x; try clear_value x)
    | with_reducible apply Keeps.ite
    | with_reducible apply Keeps.ite1
    | with_reducible apply hhook
    | with_reducible apply Keeps.park
    | with_reducible apply Keeps.request
    | with_reducible apply Keeps.completed
    | with_reducible apply Keeps.ret
    | ((first | rw [patch_eq] | skip); (with_reducible refine Keeps.patch ?_ ?_ ?_); rotate_left; (first | exact CelKeeps.refl _ | exact ⟨fun _ h => h, Nat.le_refl _⟩ | exact ⟨fun _ h => h, Nat.le_succ _⟩); (refine fun g => ?_; first | exact g | simpa only [SizesOk, Machine.patch, upd_length] using g | (simp only [SizesOk, Machine.patch, upd_length, List.length_map, List.length_replicate, true_and] at g ⊢; tauto)))
    | (fail_if_no_progress dsimp -zeta only)
    | split

theorem Keeps.plainRead {z0 s : State} {a : Nat} (hz : Keeps z0 s)  : Keeps z0 (Machine.plainRead a s) := by
  unfold Machine.plainRead
  repeat' first
    | with_reducible assumption
    | with_reducible apply Keeps.retData

theorem Keeps.clearRead {z0 s : State} {a : Nat} (hz : Keeps z0 s)  : Keeps z0 (Machine.clearRead a s) := by
  unfold Machine.clearRead
  repeat' first
    | with_reducible assumption
    | with_reducible apply Keeps.plainRead
    | with_reducible apply Keeps.wr

end Sys2Proof.Machine
end

