-- ==== Sys2Proof/Laws/KeepLink.lean ====
section
/-! SUPPORT. What the operations of Link.lean keep. -/

set_option linter.all false

namespace Sys2Proof.Machine

theorem Keeps.updFrm {z0 s : State} {n : Nat} {f : Frm → Frm} (hz : Keeps z0 s)  : Keeps z0 (Machine.updFrm n f s) := by
  unfold Machine.updFrm
  exact Keeps.upd hz rfl rfl rfl rfl rfl (CelKeeps.refl _) rfl (fun g => by simp_all [SizesOk])

theorem Keeps.frmEvt {z0 s : State} {n : Nat} {b : Nat} (hz : Keeps z0 s)  : Keeps z0 (Machine.frmEvt n b s) := by
  unfold Machine.frmEvt
  repeat' first
    | with_reducible assumption
    | with_reducible apply Keeps.flag

theorem Keeps.frmCount {z0 s : State} {n : Nat} {i : Nat} {k : Nat} (hz : Keeps z0 s)  : Keeps z0 (Machine.frmCount n i k s) := by
  unfold Machine.frmCount
  repeat' first
    | with_reducible assumption
    | with_reducible apply Keeps.updFrm
    | ((first | rw [patch_eq] | skip); (with_reducible refine Keeps.patch ?_ ?_ ?_); rotate_left; (first | exact CelKeeps.refl _ | exact ⟨fun _ h => h, Nat.le_refl _⟩ | exact ⟨fun _ h => h, Nat.le_succ _⟩); (refine fun g => ?_; first | exact g | simpa only [SizesOk, Machine.patch, upd_length] using g | (simp only [SizesOk, Machine.patch, upd_length, List.length_map, List.length_replicate, true_and] at g ⊢; tauto)))

theorem Keeps.snkEvt {z0 s : State} {b : Nat} (hz : Keeps z0 s)  : Keeps z0 (Machine.snkEvt b s) := by
  unfold Machine.snkEvt
  repeat' first
    | with_reducible assumption
    | with_reducible apply Keeps.flag

theorem Keeps.setRole {z0 s : State} {r : Nat} (hz : Keeps z0 s)  : Keeps z0 (Machine.setRole r s) := by
  unfold Machine.setRole
  repeat' first
    | with_reducible assumption
    | with_reducible apply Keeps.snkEvt
    | with_reducible apply Keeps.set

theorem Keeps.pairYield {z0 s : State} {why : Nat} (hz : Keeps z0 s)  : Keeps z0 (Machine.pairYield why s) := by
  unfold Machine.pairYield
  repeat' first
    | with_reducible assumption
    | with_reducible apply Keeps.setRole
    | ((first | rw [patch_eq] | skip); (with_reducible refine Keeps.patch ?_ ?_ ?_); rotate_left; (first | exact CelKeeps.refl _ | exact ⟨fun _ h => h, Nat.le_refl _⟩ | exact ⟨fun _ h => h, Nat.le_succ _⟩); (refine fun g => ?_; first | exact g | simpa only [SizesOk, Machine.patch, upd_length] using g | (simp only [SizesOk, Machine.patch, upd_length, List.length_map, List.length_replicate, true_and] at g ⊢; tauto)))

theorem Keeps.pairFaultEval {z0 s : State}  (hz : Keeps z0 s)  : Keeps z0 (Machine.pairFaultEval s) := by
  unfold Machine.pairFaultEval
  repeat' first
    | with_reducible assumption
    | with_reducible apply Keeps.ite
    | with_reducible apply Keeps.ite1
    | with_reducible apply Keeps.pairYield

theorem Keeps.linkDown {z0 s : State} {l : Nat} (hz : Keeps z0 s)  : Keeps z0 (Machine.linkDown l s) := by
  unfold Machine.linkDown
  repeat' first
    | with_reducible assumption
    | with_reducible apply Keeps.ite
    | with_reducible apply Keeps.ite1
    | with_reducible apply Keeps.snkEvt
    | with_reducible apply Keeps.set
    | with_reducible apply Keeps.addSat

theorem Keeps.setFstate {z0 s : State} {n : Nat} {t : Nat} (hz : Keeps z0 s)  : Keeps z0 (Machine.setFstate n t s) := by
  unfold Machine.setFstate
  try lift_lets
  repeat' first
    | with_reducible assumption
    | (intro x; with_reducible refine Keeps.cut (o := z0) x ?_ ?_; dsimp only [x]; rotate_left; try clear_value x)
    | (intro x; try clear_value x)
    | with_reducible apply Keeps.ite
    | with_reducible apply Keeps.ite1
    | with_reducible apply Keeps.forN
    | with_reducible apply Keeps.updFrm
    | with_reducible apply Keeps.pairFaultEval
    | with_reducible apply Keeps.linkDown
    | with_reducible apply Keeps.set
    | ((first | rw [patch_eq] | skip); (with_reducible refine Keeps.patch ?_ ?_ ?_); rotate_left; (first | exact CelKeeps.refl _ | exact ⟨fun _ h => h, Nat.le_refl _⟩ | exact ⟨fun _ h => h, Nat.le_succ _⟩); (refine fun g => ?_; first | exact g | simpa only [SizesOk, Machine.patch, upd_length] using g | (simp only [SizesOk, Machine.patch, upd_length, List.length_map, List.length_replicate, true_and] at g ⊢; tauto)))

theorem Keeps.frameLost {z0 s : State} {n : Nat} (hz : Keeps z0 s)  : Keeps z0 (Machine.frameLost n s) := by
  unfold Machine.frameLost
  repeat' first
    | with_reducible assumption
    | with_reducible apply Keeps.frmEvt
    | with_reducible apply Keeps.frmCount
    | with_reducible apply Keeps.setFstate

theorem Keeps.framerLost {z0 s : State} {n : Nat} (hz : Keeps z0 s)  : Keeps z0 (Machine.framerLost n s) := by
  unfold Machine.framerLost
  repeat' first
    | with_reducible assumption
    | with_reducible apply Keeps.setFstate
    | with_reducible apply Keeps.frameLost
    | (fail_if_no_progress dsimp -zeta only)
    | split

theorem Keeps.txEnd {z0 s : State} {n : Nat} {op : Nat} {c : Code} {reason : Nat} (hz : Keeps z0 s)  : Keeps z0 (Machine.txEnd n op c reason s) := by
  unfold Machine.txEnd
  try lift_lets
  repeat' first
    | with_reducible assumption
    | (intro x; with_reducible refine Keeps.cut (o := z0) x ?_ ?_; dsimp only [x]; rotate_left; try clear_value x)
    | (intro x; try clear_value x)
    | with_reducible apply Keeps.frmEvt
    | with_reducible apply Keeps.set

theorem Keeps.setTx {z0 s : State} {n : Nat} {t : Nat} (hz : Keeps z0 s)  : Keeps z0 (Machine.setTx n t s) := by
  unfold Machine.setTx
  repeat' first
    | with_reducible assumption
    | with_reducible apply Keeps.set

theorem Keeps.forceOn {z0 s : State} {n : Nat} {cause : Nat} (hz : Keeps z0 s)  : Keeps z0 (Machine.forceOn n cause s) := by
  unfold Machine.forceOn
  try lift_lets
  repeat' first
    | with_reducible assumption
    | (intro x; with_reducible refine Keeps.cut (o := z0) x ?_ ?_; dsimp only [x]; rotate_left; try clear_value x)
    | (intro x; try clear_value x)
    | with_reducible apply Keeps.ite
    | with_reducible apply Keeps.ite1
    | with_reducible apply Keeps.updFrm
    | with_reducible apply Keeps.txEnd
    | with_reducible apply Keeps.setTx
    | with_reducible apply Keeps.set
    | ((first | rw [patch_eq] | skip); (with_reducible refine Keeps.patch ?_ ?_ ?_); rotate_left; (first | exact CelKeeps.refl _ | exact ⟨fun _ h => h, Nat.le_refl _⟩ | exact ⟨fun _ h => h, Nat.le_succ _⟩); (refine fun g => ?_; first | exact g | simpa only [SizesOk, Machine.patch, upd_length] using g | (simp only [SizesOk, Machine.patch, upd_length, List.length_map, List.length_replicate, true_and] at g ⊢; tauto)))

theorem Keeps.forceOff {z0 s : State} {n : Nat} {cause : Nat} (hz : Keeps z0 s)  : Keeps z0 (Machine.forceOff n cause s) := by
  unfold Machine.forceOff
  try lift_lets
  repeat' first
    | with_reducible assumption
    | (intro x; with_reducible refine Keeps.cut (o := z0) x ?_ ?_; dsimp only [x]; rotate_left; try clear_value x)
    | (intro x; try clear_value x)
    | with_reducible apply Keeps.ite
    | with_reducible apply Keeps.ite1
    | with_reducible apply Keeps.updFrm
    | with_reducible apply Keeps.setTx
    | ((first | rw [patch_eq] | skip); (with_reducible refine Keeps.patch ?_ ?_ ?_); rotate_left; (first | exact CelKeeps.refl _ | exact ⟨fun _ h => h, Nat.le_refl _⟩ | exact ⟨fun _ h => h, Nat.le_succ _⟩); (refine fun g => ?_; first | exact g | simpa only [SizesOk, Machine.patch, upd_length] using g | (simp only [SizesOk, Machine.patch, upd_length, List.length_map, List.length_replicate, true_and] at g ⊢; tauto)))

theorem Keeps.celAdd {z0 s : State} {t : Nat} {f : Tot → Tot} (hz : Keeps z0 s)  : Keeps z0 (Machine.celAdd t f s) := by
  unfold Machine.celAdd
  repeat' first
    | with_reducible assumption
    | with_reducible apply Keeps.ite
    | with_reducible apply Keeps.ite1
    | ((first | rw [patch_eq] | skip); (with_reducible refine Keeps.patch ?_ ?_ ?_); rotate_left; (first | exact CelKeeps.refl _ | exact ⟨fun _ h => h, Nat.le_refl _⟩ | exact ⟨fun _ h => h, Nat.le_succ _⟩); (refine fun g => ?_; first | exact g | simpa only [SizesOk, Machine.patch, upd_length] using g | (simp only [SizesOk, Machine.patch, upd_length, List.length_map, List.length_replicate, true_and] at g ⊢; tauto)))

theorem Keeps.celRx {z0 s : State} {t : Nat} {bits : Nat} (hz : Keeps z0 s)  : Keeps z0 (Machine.celRx t bits s) := by
  unfold Machine.celRx
  repeat' first
    | with_reducible assumption
    | with_reducible apply Keeps.celAdd
    | ((first | rw [patch_eq] | skip); (with_reducible refine Keeps.patch ?_ ?_ ?_); rotate_left; (first | exact CelKeeps.refl _ | exact ⟨fun _ h => h, Nat.le_refl _⟩ | exact ⟨fun _ h => h, Nat.le_succ _⟩); (refine fun g => ?_; first | exact g | simpa only [SizesOk, Machine.patch, upd_length] using g | (simp only [SizesOk, Machine.patch, upd_length, List.length_map, List.length_replicate, true_and] at g ⊢; tauto)))

theorem Keeps.celTx {z0 s : State} {t : Nat} {bits : Nat} (hz : Keeps z0 s)  : Keeps z0 (Machine.celTx t bits s) := by
  unfold Machine.celTx
  repeat' first
    | with_reducible assumption
    | with_reducible apply Keeps.celAdd
    | ((first | rw [patch_eq] | skip); (with_reducible refine Keeps.patch ?_ ?_ ?_); rotate_left; (first | exact CelKeeps.refl _ | exact ⟨fun _ h => h, Nat.le_refl _⟩ | exact ⟨fun _ h => h, Nat.le_succ _⟩); (refine fun g => ?_; first | exact g | simpa only [SizesOk, Machine.patch, upd_length] using g | (simp only [SizesOk, Machine.patch, upd_length, List.length_map, List.length_replicate, true_and] at g ⊢; tauto)))

end Sys2Proof.Machine
end

