-- ==== Sys2Proof/Laws/KeepBandBase.lean ====
section
/-! SUPPORT. What the operations of BandBase.lean keep. -/

set_option linter.all false

namespace Sys2Proof.Machine

theorem Keeps.updBnd {z0 s : State} {k : Nat} {f : BndP → BndP} (hz : Keeps z0 s)  : Keeps z0 (Machine.updBnd k f s) := by
  unfold Machine.updBnd
  exact Keeps.upd hz rfl rfl rfl rfl rfl (CelKeeps.refl _) rfl (fun g => by simp_all [SizesOk])

end Sys2Proof.Machine
end

