-- ==== Sys2Proof/Laws/KeepHostLane.lean ====
section
/-! SUPPORT. What the operations of HostLane.lean keep. -/

set_option linter.all false

namespace Sys2Proof.Machine

theorem Keeps.updHost {z0 s : State} {n : Nat} {f : HostL → HostL} (hz : Keeps z0 s)  : Keeps z0 (Machine.updHost n f s) := by
  unfold Machine.updHost
  exact Keeps.upd hz rfl rfl rfl rfl rfl (CelKeeps.refl _) rfl (fun g => by simp_all [SizesOk])

theorem Keeps.hostEvt {z0 s : State} {n : Nat} {b : Nat} (hz : Keeps z0 s)  : Keeps z0 (Machine.hostEvt n b s) := by
  unfold Machine.hostEvt
  repeat' first
    | with_reducible assumption
    | with_reducible apply Keeps.flag

theorem Keeps.linkStat {z0 s : State} {n : Nat} (hz : Keeps z0 s)  : Keeps z0 (Machine.linkStat n s) := by
  unfold Machine.linkStat
  repeat' first
    | with_reducible assumption
    | with_reducible apply Keeps.set
    | (fail_if_no_progress dsimp -zeta only)
    | split

theorem Keeps.adaptRefresh {z0 s : State} {n : Nat} (hz : Keeps z0 s)  : Keeps z0 (Machine.adaptRefresh n s) := by
  unfold Machine.adaptRefresh
  try lift_lets
  repeat' first
    | with_reducible assumption
    | (intro x; try clear_value x)
    | with_reducible apply Keeps.set

theorem Keeps.groupBreak {z0 s : State} {n : Nat} (hz : Keeps z0 s)  : Keeps z0 (Machine.groupBreak n s) := by
  unfold Machine.groupBreak
  try lift_lets
  repeat' first
    | with_reducible assumption
    | (intro x; try clear_value x)
    | with_reducible apply Keeps.ite
    | with_reducible apply Keeps.ite1
    | with_reducible apply Keeps.forN
    | with_reducible apply Keeps.updHost
    | with_reducible apply Keeps.set
    | ((first | rw [patch_eq] | skip); (with_reducible refine Keeps.patch ?_ ?_ ?_); rotate_left; (first | exact CelKeeps.refl _ | exact ⟨fun _ h => h, Nat.le_refl _⟩ | exact ⟨fun _ h => h, Nat.le_succ _⟩); (refine fun g => ?_; first | exact g | simpa only [SizesOk, Machine.patch, upd_length] using g | (simp only [SizesOk, Machine.patch, upd_length, List.length_map, List.length_replicate, true_and] at g ⊢; tauto)))

theorem Keeps.trainFresh {z0 s : State} {n : Nat} (hz : Keeps z0 s)  : Keeps z0 (Machine.trainFresh n s) := by
  unfold Machine.trainFresh
  repeat' first
    | with_reducible assumption
    | with_reducible apply Keeps.updHost
    | ((first | rw [patch_eq] | skip); (with_reducible refine Keeps.patch ?_ ?_ ?_); rotate_left; (first | exact CelKeeps.refl _ | exact ⟨fun _ h => h, Nat.le_refl _⟩ | exact ⟨fun _ h => h, Nat.le_succ _⟩); (refine fun g => ?_; first | exact g | simpa only [SizesOk, Machine.patch, upd_length] using g | (simp only [SizesOk, Machine.patch, upd_length, List.length_map, List.length_replicate, true_and] at g ⊢; tauto)))

theorem Keeps.setHost {z0 s : State} {n : Nat} {t : Nat} (hz : Keeps z0 s)  : Keeps z0 (Machine.setHost n t s) := by
  unfold Machine.setHost
  repeat' first
    | with_reducible assumption
    | (intro x; with_reducible refine Keeps.cut (o := z0) x ?_ ?_; dsimp only [x]; rotate_left; try clear_value x)
    | (intro x; try clear_value x)
    | with_reducible apply Keeps.ite
    | with_reducible apply Keeps.ite1
    | with_reducible apply Keeps.updHost
    | with_reducible apply Keeps.linkStat
    | with_reducible apply Keeps.adaptRefresh
    | with_reducible apply Keeps.groupBreak
    | with_reducible apply Keeps.trainFresh
    | with_reducible apply Keeps.set
    | (fail_if_no_progress dsimp -zeta only)
    | split
    | lift_lets

theorem Keeps.hostEnd {z0 s : State} {n : Nat} {op : Nat} {c : Code} {reason : Nat} (hz : Keeps z0 s)  : Keeps z0 (Machine.hostEnd n op c reason s) := by
  unfold Machine.hostEnd
  try lift_lets
  repeat' first
    | with_reducible assumption
    | (intro x; with_reducible refine Keeps.cut (o := z0) x ?_ ?_; dsimp only [x]; rotate_left; try clear_value x)
    | (intro x; try clear_value x)
    | with_reducible apply Keeps.hostEvt
    | with_reducible apply Keeps.set

theorem Keeps.heldEnd {z0 s : State} {n : Nat} {c : Code} {reason : Nat} (hz : Keeps z0 s)  : Keeps z0 (Machine.heldEnd n c reason s) := by
  unfold Machine.heldEnd
  repeat' first
    | with_reducible assumption
    | with_reducible apply Keeps.updHost
    | with_reducible apply Keeps.hostEnd
    | (fail_if_no_progress dsimp -zeta only)
    | split

theorem Keeps.hostNow {z0 s : State} {n : Nat} {op : Nat} {c : Code} (hz : Keeps z0 s)  : Keeps z0 (Machine.hostNow n op c s) := by
  unfold Machine.hostNow
  repeat' first
    | with_reducible assumption
    | with_reducible apply Keeps.hostEnd
    | with_reducible apply Keeps.ret

theorem Keeps.hostHeld {z0 s : State} {n : Nat} {op : Nat} {t : Nat} (hz : Keeps z0 s)  : Keeps z0 (Machine.hostHeld n op t s) := by
  unfold Machine.hostHeld
  try lift_lets
  repeat' first
    | with_reducible assumption
    | (intro x; with_reducible refine Keeps.cut (o := z0) x ?_ ?_; dsimp only [x]; rotate_left; try clear_value x)
    | (intro x; try clear_value x)
    | with_reducible apply Keeps.updHost
    | with_reducible apply Keeps.setHost
    | with_reducible apply Keeps.set
    | with_reducible apply Keeps.ret
    | ((first | rw [patch_eq] | skip); (with_reducible refine Keeps.patch ?_ ?_ ?_); rotate_left; (first | exact CelKeeps.refl _ | exact ⟨fun _ h => h, Nat.le_refl _⟩ | exact ⟨fun _ h => h, Nat.le_succ _⟩); (refine fun g => ?_; first | exact g | simpa only [SizesOk, Machine.patch, upd_length] using g | (simp only [SizesOk, Machine.patch, upd_length, List.length_map, List.length_replicate, true_and] at g ⊢; tauto)))

theorem Keeps.hostReady {z0 s : State} {n : Nat} {trained : Bool} (hz : Keeps z0 s)  : Keeps z0 (Machine.hostReady n trained s) := by
  unfold Machine.hostReady
  try lift_lets
  repeat' first
    | with_reducible assumption
    | (intro x; with_reducible refine Keeps.cut (o := z0) x ?_ ?_; dsimp only [x]; rotate_left; try clear_value x)
    | (intro x; try clear_value x)
    | with_reducible apply Keeps.ite
    | with_reducible apply Keeps.ite1
    | with_reducible apply Keeps.hostEvt
    | with_reducible apply Keeps.setHost
    | with_reducible apply Keeps.heldEnd

theorem Keeps.hostLose {z0 s : State} {n : Nat} {reason : Nat} {c : Code} (hz : Keeps z0 s)  : Keeps z0 (Machine.hostLose n reason c s) := by
  unfold Machine.hostLose
  try lift_lets
  repeat' first
    | with_reducible assumption
    | (intro x; with_reducible refine Keeps.cut (o := z0) x ?_ ?_; dsimp only [x]; rotate_left; try clear_value x)
    | (intro x; try clear_value x)
    | with_reducible apply Keeps.ite
    | with_reducible apply Keeps.ite1
    | with_reducible apply Keeps.hostEvt
    | with_reducible apply Keeps.setHost
    | with_reducible apply Keeps.heldEnd
    | with_reducible apply Keeps.set

theorem Keeps.hostStart {z0 s : State} {n : Nat} (hz : Keeps z0 s)  : Keeps z0 (Machine.hostStart n s) := by
  unfold Machine.hostStart
  repeat' first
    | with_reducible assumption
    | with_reducible apply Keeps.ite
    | with_reducible apply Keeps.ite1
    | with_reducible apply Keeps.updHost
    | with_reducible apply Keeps.hostNow
    | with_reducible apply Keeps.hostHeld
    | with_reducible apply Keeps.set
    | (fail_if_no_progress dsimp -zeta only)
    | split

theorem Keeps.hostRetrain {z0 s : State} {n : Nat} (hz : Keeps z0 s)  : Keeps z0 (Machine.hostRetrain n s) := by
  unfold Machine.hostRetrain
  try lift_lets
  repeat' first
    | with_reducible assumption
    | (intro x; try clear_value x)
    | with_reducible apply Keeps.ite
    | with_reducible apply Keeps.ite1
    | with_reducible apply Keeps.hostNow
    | with_reducible apply Keeps.hostHeld

theorem Keeps.hostStop {z0 s : State} {n : Nat} (hz : Keeps z0 s)  : Keeps z0 (Machine.hostStop n s) := by
  unfold Machine.hostStop
  repeat' first
    | with_reducible assumption
    | with_reducible apply Keeps.ite
    | with_reducible apply Keeps.ite1
    | with_reducible apply Keeps.setHost
    | with_reducible apply Keeps.heldEnd
    | with_reducible apply Keeps.hostNow

theorem Keeps.hostResync {z0 s : State} {n : Nat} (hz : Keeps z0 s)  : Keeps z0 (Machine.hostResync n s) := by
  unfold Machine.hostResync
  repeat' first
    | with_reducible assumption
    | with_reducible apply Keeps.ite
    | with_reducible apply Keeps.ite1
    | with_reducible apply Keeps.hostNow
    | with_reducible apply Keeps.hostHeld

theorem Keeps.wrHostCmd {z0 s : State} {n : Nat} {w : Word} (hz : Keeps z0 s)  : Keeps z0 (Machine.wrHostCmd n w s) := by
  unfold Machine.wrHostCmd
  repeat' first
    | with_reducible assumption
    | with_reducible apply Keeps.hostNow
    | with_reducible apply Keeps.hostStart
    | with_reducible apply Keeps.hostRetrain
    | with_reducible apply Keeps.hostStop
    | with_reducible apply Keeps.hostResync
    | (fail_if_no_progress dsimp -zeta only)
    | split

theorem Keeps.hostLockAcquired {z0 s : State} {n : Nat} {snr : Nat} (hz : Keeps z0 s)  : Keeps z0 (Machine.hostLockAcquired n snr s) := by
  unfold Machine.hostLockAcquired
  repeat' first
    | with_reducible assumption
    | (intro x; try clear_value x)
    | with_reducible apply Keeps.ite
    | with_reducible apply Keeps.ite1
    | with_reducible apply Keeps.foldl
    | with_reducible apply Keeps.foldl1
    | with_reducible apply Keeps.updHost
    | with_reducible apply Keeps.setHost
    | with_reducible apply Keeps.hostReady
    | with_reducible apply Keeps.set
    | (fail_if_no_progress dsimp -zeta only)
    | split

theorem Keeps.hostAcquireTimeout {z0 s : State} {n : Nat} (hz : Keeps z0 s)  : Keeps z0 (Machine.hostAcquireTimeout n s) := by
  unfold Machine.hostAcquireTimeout
  repeat' first
    | with_reducible assumption
    | with_reducible apply Keeps.ite
    | with_reducible apply Keeps.ite1
    | with_reducible apply Keeps.hostLose

theorem Keeps.hostLaneLost {z0 s : State} {n : Nat} {reason : Nat} (hz : Keeps z0 s)  : Keeps z0 (Machine.hostLaneLost n reason s) := by
  unfold Machine.hostLaneLost
  repeat' first
    | with_reducible assumption
    | with_reducible apply Keeps.ite
    | with_reducible apply Keeps.ite1
    | with_reducible apply Keeps.hostLose

theorem Keeps.putTaps {z0 s : State} {n : Nat} {c : List Int} (hz : Keeps z0 s)  : Keeps z0 (Machine.putTaps n c s) := by
  unfold Machine.putTaps
  repeat' first
    | with_reducible assumption
    | (intro x; try clear_value x)
    | with_reducible apply Keeps.forN
    | with_reducible apply Keeps.updHost
    | with_reducible apply Keeps.seti
    | ((first | rw [patch_eq] | skip); (with_reducible refine Keeps.patch ?_ ?_ ?_); rotate_left; (first | exact CelKeeps.refl _ | exact ⟨fun _ h => h, Nat.le_refl _⟩ | exact ⟨fun _ h => h, Nat.le_succ _⟩); (refine fun g => ?_; first | exact g | simpa only [SizesOk, Machine.patch, upd_length] using g | (simp only [SizesOk, Machine.patch, upd_length, List.length_map, List.length_replicate, true_and] at g ⊢; tauto)))

theorem Keeps.actControl {z0 s : State} {n : Nat} {ctl : Nat} (hz : Keeps z0 s)  : Keeps z0 (Machine.actControl n ctl s) := by
  unfold Machine.actControl
  try lift_lets
  repeat' first
    | with_reducible assumption
    | (intro x; with_reducible refine Keeps.cut (o := z0) x ?_ ?_; dsimp only [x]; rotate_left; try clear_value x)
    | with_reducible apply Keeps.ite2
    | (intro x; try clear_value x)
    | with_reducible apply Keeps.ite
    | with_reducible apply Keeps.ite1
    | with_reducible apply Keeps.updHost
    | with_reducible apply Keeps.putTaps
    | ((first | rw [patch_eq] | skip); (with_reducible refine Keeps.patch ?_ ?_ ?_); rotate_left; (first | exact CelKeeps.refl _ | exact ⟨fun _ h => h, Nat.le_refl _⟩ | exact ⟨fun _ h => h, Nat.le_succ _⟩); (refine fun g => ?_; first | exact g | simpa only [SizesOk, Machine.patch, upd_length] using g | (simp only [SizesOk, Machine.patch, upd_length, List.length_map, List.length_replicate, true_and] at g ⊢; tauto)))

theorem Keeps.trainFields {z0 s : State} {n : Nat} {ctl : Nat} {sts : Nat} (hz : Keeps z0 s)  : Keeps z0 (Machine.trainFields n ctl sts s) := by
  unfold Machine.trainFields
  repeat' first
    | with_reducible assumption
    | with_reducible apply Keeps.ite
    | with_reducible apply Keeps.ite1
    | with_reducible apply Keeps.updHost
    | ((first | rw [patch_eq] | skip); (with_reducible refine Keeps.patch ?_ ?_ ?_); rotate_left; (first | exact CelKeeps.refl _ | exact ⟨fun _ h => h, Nat.le_refl _⟩ | exact ⟨fun _ h => h, Nat.le_succ _⟩); (refine fun g => ?_; first | exact g | simpa only [SizesOk, Machine.patch, upd_length] using g | (simp only [SizesOk, Machine.patch, upd_length, List.length_map, List.length_replicate, true_and] at g ⊢; tauto)))

theorem Keeps.trainMark {z0 s : State} {n : Nat} {mark : Bool} (hz : Keeps z0 s)  : Keeps z0 (Machine.trainMark n mark s) := by
  unfold Machine.trainMark
  try lift_lets
  repeat' first
    | with_reducible assumption
    | (intro x; try clear_value x)
    | with_reducible apply Keeps.ite
    | with_reducible apply Keeps.ite1
    | with_reducible apply Keeps.updHost
    | ((first | rw [patch_eq] | skip); (with_reducible refine Keeps.patch ?_ ?_ ?_); rotate_left; (first | exact CelKeeps.refl _ | exact ⟨fun _ h => h, Nat.le_refl _⟩ | exact ⟨fun _ h => h, Nat.le_succ _⟩); (refine fun g => ?_; first | exact g | simpa only [SizesOk, Machine.patch, upd_length] using g | (simp only [SizesOk, Machine.patch, upd_length, List.length_map, List.length_replicate, true_and] at g ⊢; tauto)))

theorem Keeps.trainingFrameRx {z0 s : State} {n : Nat} {mark : Bool} {ctl : Nat} {sts : Nat} {snr : Nat} (hz : Keeps z0 s)  : Keeps z0 (Machine.trainingFrameRx n mark ctl sts snr s) := by
  unfold Machine.trainingFrameRx
  try lift_lets
  repeat' first
    | with_reducible assumption
    | (intro x; with_reducible refine Keeps.cut (o := z0) x ?_ ?_; dsimp only [x]; rotate_left; try clear_value x)
    | (intro x; try clear_value x)
    | with_reducible apply Keeps.ite
    | with_reducible apply Keeps.ite1
    | with_reducible apply Keeps.hostReady
    | with_reducible apply Keeps.actControl
    | with_reducible apply Keeps.trainFields
    | with_reducible apply Keeps.trainMark
    | with_reducible apply Keeps.set

theorem Keeps.trainTimeout {z0 s : State} {n : Nat} (hz : Keeps z0 s)  : Keeps z0 (Machine.trainTimeout n s) := by
  unfold Machine.trainTimeout
  repeat' first
    | with_reducible assumption
    | with_reducible apply Keeps.ite
    | with_reducible apply Keeps.ite1
    | with_reducible apply Keeps.hostLose

theorem Keeps.trainAutoReady {z0 s : State} {n : Nat} (hz : Keeps z0 s)  : Keeps z0 (Machine.trainAutoReady n s) := by
  unfold Machine.trainAutoReady
  repeat' first
    | with_reducible assumption
    | with_reducible apply Keeps.ite
    | with_reducible apply Keeps.ite1
    | with_reducible apply Keeps.updHost
    | ((first | rw [patch_eq] | skip); (with_reducible refine Keeps.patch ?_ ?_ ?_); rotate_left; (first | exact CelKeeps.refl _ | exact ⟨fun _ h => h, Nat.le_refl _⟩ | exact ⟨fun _ h => h, Nat.le_succ _⟩); (refine fun g => ?_; first | exact g | simpa only [SizesOk, Machine.patch, upd_length] using g | (simp only [SizesOk, Machine.patch, upd_length, List.length_map, List.length_replicate, true_and] at g ⊢; tauto)))

theorem Keeps.wrTrainReq {z0 s : State} {n : Nat} {w : Word} (hz : Keeps z0 s)  : Keeps z0 (Machine.wrTrainReq n w s) := by
  unfold Machine.wrTrainReq
  repeat' first
    | with_reducible assumption
    | with_reducible apply Keeps.ite
    | with_reducible apply Keeps.ite1
    | with_reducible apply Keeps.updHost
    | with_reducible apply Keeps.store
    | with_reducible apply Keeps.ret
    | ((first | rw [patch_eq] | skip); (with_reducible refine Keeps.patch ?_ ?_ ?_); rotate_left; (first | exact CelKeeps.refl _ | exact ⟨fun _ h => h, Nat.le_refl _⟩ | exact ⟨fun _ h => h, Nat.le_succ _⟩); (refine fun g => ?_; first | exact g | simpa only [SizesOk, Machine.patch, upd_length] using g | (simp only [SizesOk, Machine.patch, upd_length, List.length_map, List.length_replicate, true_and] at g ⊢; tauto)))

theorem Keeps.wrHostFir {z0 s : State} {n : Nat} {k : Nat} {w : Word} (hz : Keeps z0 s)  : Keeps z0 (Machine.wrHostFir n k w s) := by
  unfold Machine.wrHostFir
  repeat' first
    | with_reducible assumption
    | with_reducible apply Keeps.ite
    | with_reducible apply Keeps.ite1
    | with_reducible apply Keeps.updHost
    | with_reducible apply Keeps.store
    | with_reducible apply Keeps.ret
    | ((first | rw [patch_eq] | skip); (with_reducible refine Keeps.patch ?_ ?_ ?_); rotate_left; (first | exact CelKeeps.refl _ | exact ⟨fun _ h => h, Nat.le_refl _⟩ | exact ⟨fun _ h => h, Nat.le_succ _⟩); (refine fun g => ?_; first | exact g | simpa only [SizesOk, Machine.patch, upd_length] using g | (simp only [SizesOk, Machine.patch, upd_length, List.length_map, List.length_replicate, true_and] at g ⊢; tauto)))

theorem Keeps.hostTxFirApply {z0 s : State} {n : Nat} (hz : Keeps z0 s)  : Keeps z0 (Machine.hostTxFirApply n s) := by
  unfold Machine.hostTxFirApply
  repeat' first
    | with_reducible assumption
    | (intro x; try clear_value x)
    | with_reducible apply Keeps.ite
    | with_reducible apply Keeps.ite1
    | with_reducible apply Keeps.forN
    | with_reducible apply Keeps.updHost
    | with_reducible apply Keeps.set
    | ((first | rw [patch_eq] | skip); (with_reducible refine Keeps.patch ?_ ?_ ?_); rotate_left; (first | exact CelKeeps.refl _ | exact ⟨fun _ h => h, Nat.le_refl _⟩ | exact ⟨fun _ h => h, Nat.le_succ _⟩); (refine fun g => ?_; first | exact g | simpa only [SizesOk, Machine.patch, upd_length] using g | (simp only [SizesOk, Machine.patch, upd_length, List.length_map, List.length_replicate, true_and] at g ⊢; tauto)))

theorem Keeps.fecQuiet {z0 s : State} {n : Nat} {size : Nat} (hz : Keeps z0 s)  : Keeps z0 (Machine.fecQuiet n size s) := by
  unfold Machine.fecQuiet
  try lift_lets
  repeat' first
    | with_reducible assumption
    | (intro x; try clear_value x)
    | with_reducible apply Keeps.forN
    | with_reducible apply Keeps.updHost
    | with_reducible apply Keeps.wr
    | ((first | rw [patch_eq] | skip); (with_reducible refine Keeps.patch ?_ ?_ ?_); rotate_left; (first | exact CelKeeps.refl _ | exact ⟨fun _ h => h, Nat.le_refl _⟩ | exact ⟨fun _ h => h, Nat.le_succ _⟩); (refine fun g => ?_; first | exact g | simpa only [SizesOk, Machine.patch, upd_length] using g | (simp only [SizesOk, Machine.patch, upd_length, List.length_map, List.length_replicate, true_and] at g ⊢; tauto)))

theorem Keeps.hostGroupAlign {z0 s : State} {n : Nat} {size : Nat} {ids : List Nat} {skewPs : Nat} (hz : Keeps z0 s)  : Keeps z0 (Machine.hostGroupAlign n size ids skewPs s) := by
  unfold Machine.hostGroupAlign
  try lift_lets
  repeat' first
    | with_reducible assumption
    | (intro x; with_reducible refine Keeps.cut (o := z0) x ?_ ?_; dsimp only [x]; rotate_left; try clear_value x)
    | (intro x; with_reducible refine Keeps.cut1 (o := z0) x ?_ ?_; dsimp only [x]; rotate_left; try clear_value x)
    | (intro x; with_reducible refine Keeps.cutF x ?_; try dsimp only [x])
    | (intro x; try clear_value x)
    | with_reducible apply Keeps.ite
    | with_reducible apply Keeps.ite1
    | with_reducible apply Keeps.forN
    | with_reducible apply Keeps.updHost
    | with_reducible apply Keeps.groupBreak
    | with_reducible apply Keeps.fecQuiet
    | with_reducible apply Keeps.set
    | ((first | rw [patch_eq] | skip); (with_reducible refine Keeps.patch ?_ ?_ ?_); rotate_left; (first | exact CelKeeps.refl _ | exact ⟨fun _ h => h, Nat.le_refl _⟩ | exact ⟨fun _ h => h, Nat.le_succ _⟩); (refine fun g => ?_; first | exact g | simpa only [SizesOk, Machine.patch, upd_length] using g | (simp only [SizesOk, Machine.patch, upd_length, List.length_map, List.length_replicate, true_and] at g ⊢; tauto)))
    | (fail_if_no_progress dsimp -zeta only)
    | split

theorem Keeps.lemcSet {z0 s : State} {f : Nat} (hz : Keeps z0 s)  : Keeps z0 (Machine.lemcSet f s) := by
  unfold Machine.lemcSet
  repeat' first
    | with_reducible assumption
    | with_reducible apply Keeps.updHost
    | with_reducible apply Keeps.set
    | ((first | rw [patch_eq] | skip); (with_reducible refine Keeps.patch ?_ ?_ ?_); rotate_left; (first | exact CelKeeps.refl _ | exact ⟨fun _ h => h, Nat.le_refl _⟩ | exact ⟨fun _ h => h, Nat.le_succ _⟩); (refine fun g => ?_; first | exact g | simpa only [SizesOk, Machine.patch, upd_length] using g | (simp only [SizesOk, Machine.patch, upd_length, List.length_map, List.length_replicate, true_and] at g ⊢; tauto)))

theorem Keeps.sysrefErr {z0 s : State} {f : Nat} (hz : Keeps z0 s)  : Keeps z0 (Machine.sysrefErr f s) := by
  unfold Machine.sysrefErr
  try lift_lets
  repeat' first
    | with_reducible assumption
    | (intro x; with_reducible refine Keeps.cut (o := z0) x ?_ ?_; dsimp only [x]; rotate_left; try clear_value x)
    | (intro x; try clear_value x)
    | with_reducible apply Keeps.flagLimited
    | with_reducible apply Keeps.updHost
    | ((first | rw [patch_eq] | skip); (with_reducible refine Keeps.patch ?_ ?_ ?_); rotate_left; (first | exact CelKeeps.refl _ | exact ⟨fun _ h => h, Nat.le_refl _⟩ | exact ⟨fun _ h => h, Nat.le_succ _⟩); (refine fun g => ?_; first | exact g | simpa only [SizesOk, Machine.patch, upd_length] using g | (simp only [SizesOk, Machine.patch, upd_length, List.length_map, List.length_replicate, true_and] at g ⊢; tauto)))

theorem Keeps.linkEdge {z0 s : State} {f : Nat} {l : Nat} (hz : Keeps z0 s)  : Keeps z0 (Machine.linkEdge f l s) := by
  unfold Machine.linkEdge
  repeat' first
    | with_reducible assumption
    | (intro x; try clear_value x)
    | with_reducible apply Keeps.ite
    | with_reducible apply Keeps.ite1
    | with_reducible apply Keeps.foldl
    | with_reducible apply Keeps.foldl1
    | with_reducible apply Keeps.updHost
    | with_reducible apply Keeps.setHost
    | with_reducible apply Keeps.lemcSet
    | with_reducible apply Keeps.sysrefErr
    | with_reducible apply Keeps.set
    | with_reducible apply Keeps.seti
    | (fail_if_no_progress dsimp -zeta only)
    | split

theorem Keeps.hostSyncEdge {z0 s : State}  (hz : Keeps z0 s)  : Keeps z0 (Machine.hostSyncEdge s) := by
  unfold Machine.hostSyncEdge
  repeat' first
    | with_reducible assumption
    | (intro x; try clear_value x)
    | with_reducible apply Keeps.ite
    | with_reducible apply Keeps.ite1
    | with_reducible apply Keeps.forN
    | with_reducible apply Keeps.linkEdge
    | (fail_if_no_progress dsimp -zeta only)
    | split

theorem Keeps.wrJesdSys {z0 s : State} {n : Nat} {w : Word} (hz : Keeps z0 s)  : Keeps z0 (Machine.wrJesdSys n w s) := by
  unfold Machine.wrJesdSys
  try lift_lets
  repeat' first
    | with_reducible assumption
    | (intro x; with_reducible refine Keeps.cut (o := z0) x ?_ ?_; dsimp only [x]; rotate_left; try clear_value x)
    | (intro x; try clear_value x)
    | with_reducible apply Keeps.ite
    | with_reducible apply Keeps.ite1
    | with_reducible apply Keeps.updHost
    | with_reducible apply Keeps.store
    | with_reducible apply Keeps.ret
    | ((first | rw [patch_eq] | skip); (with_reducible refine Keeps.patch ?_ ?_ ?_); rotate_left; (first | exact CelKeeps.refl _ | exact ⟨fun _ h => h, Nat.le_refl _⟩ | exact ⟨fun _ h => h, Nat.le_succ _⟩); (refine fun g => ?_; first | exact g | simpa only [SizesOk, Machine.patch, upd_length] using g | (simp only [SizesOk, Machine.patch, upd_length, List.length_map, List.length_replicate, true_and] at g ⊢; tauto)))

theorem Keeps.jesdRelease {z0 s : State} {n : Nat} {got : List Bool} {occ : Nat} {crc : Nat} (hz : Keeps z0 s)  : Keeps z0 (Machine.jesdRelease n got occ crc s) := by
  unfold Machine.jesdRelease
  repeat' first
    | with_reducible assumption
    | (intro x; with_reducible refine Keeps.cut (o := z0) x ?_ ?_; dsimp only [x]; rotate_left; try clear_value x)
    | (intro x; with_reducible refine Keeps.cut1 (o := z0) x ?_ ?_; dsimp only [x]; rotate_left; try clear_value x)
    | (intro x; with_reducible refine Keeps.cutF x ?_; try dsimp only [x])
    | (intro x; try clear_value x)
    | with_reducible apply Keeps.ite
    | with_reducible apply Keeps.ite1
    | with_reducible apply Keeps.foldl
    | with_reducible apply Keeps.foldl1
    | with_reducible apply Keeps.updHost
    | with_reducible apply Keeps.hostEvt
    | with_reducible apply Keeps.hostReady
    | with_reducible apply Keeps.set
    | with_reducible apply Keeps.addSat
    | ((first | rw [patch_eq] | skip); (with_reducible refine Keeps.patch ?_ ?_ ?_); rotate_left; (first | exact CelKeeps.refl _ | exact ⟨fun _ h => h, Nat.le_refl _⟩ | exact ⟨fun _ h => h, Nat.le_succ _⟩); (refine fun g => ?_; first | exact g | simpa only [SizesOk, Machine.patch, upd_length] using g | (simp only [SizesOk, Machine.patch, upd_length, List.length_map, List.length_replicate, true_and] at g ⊢; tauto)))
    | with_reducible apply Keeps.idS
    | (fail_if_no_progress dsimp -zeta only)
    | split
    | lift_lets

theorem Keeps.sysrefTimeout {z0 s : State} {n : Nat} (hz : Keeps z0 s)  : Keeps z0 (Machine.sysrefTimeout n s) := by
  unfold Machine.sysrefTimeout
  repeat' first
    | with_reducible assumption
    | with_reducible apply Keeps.ite
    | with_reducible apply Keeps.ite1
    | with_reducible apply Keeps.hostLose
    | (fail_if_no_progress dsimp -zeta only)
    | split

theorem Keeps.wrJesdCfg {z0 s : State} {a : Nat} {n : Nat} {fs : List (Nat × Nat × Acc)} {w : Word} (hz : Keeps z0 s)  : Keeps z0 (Machine.wrJesdCfg a n fs w s) := by
  unfold Machine.wrJesdCfg
  try lift_lets
  repeat' first
    | with_reducible assumption
    | (intro x; try clear_value x)
    | with_reducible apply Keeps.ite
    | with_reducible apply Keeps.ite1
    | with_reducible apply Keeps.plainWrite
    | with_reducible apply Keeps.ret

theorem Keeps.wrJesdDl {z0 s : State} {n : Nat} {w : Word} (hz : Keeps z0 s)  : Keeps z0 (Machine.wrJesdDl n w s) := by
  unfold Machine.wrJesdDl
  repeat' first
    | with_reducible assumption
    | with_reducible apply Keeps.ite
    | with_reducible apply Keeps.ite1
    | with_reducible apply Keeps.plainWrite
    | with_reducible apply Keeps.ret

theorem Keeps.patSnap {z0 s : State} {n : Nat} (hz : Keeps z0 s)  : Keeps z0 (Machine.patSnap n s) := by
  unfold Machine.patSnap
  try lift_lets
  repeat' first
    | with_reducible assumption
    | (intro x; with_reducible refine Keeps.cut (o := z0) x ?_ ?_; dsimp only [x]; rotate_left; try clear_value x)
    | (intro x; try clear_value x)
    | with_reducible apply Keeps.updHost
    | with_reducible apply Keeps.wr
    | with_reducible apply Keeps.set
    | ((first | rw [patch_eq] | skip); (with_reducible refine Keeps.patch ?_ ?_ ?_); rotate_left; (first | exact CelKeeps.refl _ | exact ⟨fun _ h => h, Nat.le_refl _⟩ | exact ⟨fun _ h => h, Nat.le_succ _⟩); (refine fun g => ?_; first | exact g | simpa only [SizesOk, Machine.patch, upd_length] using g | (simp only [SizesOk, Machine.patch, upd_length, List.length_map, List.length_replicate, true_and] at g ⊢; tauto)))

theorem Keeps.chkCount {z0 s : State} {n : Nat} {bits : Nat} {errs : Nat} (hz : Keeps z0 s)  : Keeps z0 (Machine.chkCount n bits errs s) := by
  unfold Machine.chkCount
  repeat' first
    | with_reducible assumption
    | with_reducible apply Keeps.ite
    | with_reducible apply Keeps.ite1
    | with_reducible apply Keeps.updHost
    | ((first | rw [patch_eq] | skip); (with_reducible refine Keeps.patch ?_ ?_ ?_); rotate_left; (first | exact CelKeeps.refl _ | exact ⟨fun _ h => h, Nat.le_refl _⟩ | exact ⟨fun _ h => h, Nat.le_succ _⟩); (refine fun g => ?_; first | exact g | simpa only [SizesOk, Machine.patch, upd_length] using g | (simp only [SizesOk, Machine.patch, upd_length, List.length_map, List.length_replicate, true_and] at g ⊢; tauto)))

theorem Keeps.wrPatCtrl {z0 s : State} {n : Nat} {w : Word} (hz : Keeps z0 s)  : Keeps z0 (Machine.wrPatCtrl n w s) := by
  unfold Machine.wrPatCtrl
  try lift_lets
  repeat' first
    | with_reducible assumption
    | (intro x; with_reducible refine Keeps.cut (o := z0) x ?_ ?_; dsimp only [x]; rotate_left; try clear_value x)
    | (intro x; try clear_value x)
    | with_reducible apply Keeps.ite
    | with_reducible apply Keeps.ite1
    | with_reducible apply Keeps.updHost
    | with_reducible apply Keeps.patSnap
    | with_reducible apply Keeps.set
    | with_reducible apply Keeps.store
    | with_reducible apply Keeps.ret
    | ((first | rw [patch_eq] | skip); (with_reducible refine Keeps.patch ?_ ?_ ?_); rotate_left; (first | exact CelKeeps.refl _ | exact ⟨fun _ h => h, Nat.le_refl _⟩ | exact ⟨fun _ h => h, Nat.le_succ _⟩); (refine fun g => ?_; first | exact g | simpa only [SizesOk, Machine.patch, upd_length] using g | (simp only [SizesOk, Machine.patch, upd_length, List.length_map, List.length_replicate, true_and] at g ⊢; tauto)))

theorem Keeps.checkerLock {z0 s : State} {n : Nat} (hz : Keeps z0 s)  : Keeps z0 (Machine.checkerLock n s) := by
  unfold Machine.checkerLock
  repeat' first
    | with_reducible assumption
    | with_reducible apply Keeps.ite
    | with_reducible apply Keeps.ite1
    | with_reducible apply Keeps.hostEvt
    | with_reducible apply Keeps.set

theorem Keeps.checkerUnlock {z0 s : State} {n : Nat} {bits : Nat} {errs : Nat} (hz : Keeps z0 s)  : Keeps z0 (Machine.checkerUnlock n bits errs s) := by
  unfold Machine.checkerUnlock
  try lift_lets
  repeat' first
    | with_reducible assumption
    | (intro x; with_reducible refine Keeps.cut (o := z0) x ?_ ?_; dsimp only [x]; rotate_left; try clear_value x)
    | (intro x; try clear_value x)
    | with_reducible apply Keeps.ite
    | with_reducible apply Keeps.ite1
    | with_reducible apply Keeps.updHost
    | with_reducible apply Keeps.hostEvt
    | with_reducible apply Keeps.chkCount
    | with_reducible apply Keeps.set
    | ((first | rw [patch_eq] | skip); (with_reducible refine Keeps.patch ?_ ?_ ?_); rotate_left; (first | exact CelKeeps.refl _ | exact ⟨fun _ h => h, Nat.le_refl _⟩ | exact ⟨fun _ h => h, Nat.le_succ _⟩); (refine fun g => ?_; first | exact g | simpa only [SizesOk, Machine.patch, upd_length] using g | (simp only [SizesOk, Machine.patch, upd_length, List.length_map, List.length_replicate, true_and] at g ⊢; tauto)))

theorem Keeps.fecCount {z0 s : State} {n : Nat} {i : Nat} {k : Nat} (hz : Keeps z0 s)  : Keeps z0 (Machine.fecCount n i k s) := by
  unfold Machine.fecCount
  repeat' first
    | with_reducible assumption
    | with_reducible apply Keeps.updHost
    | ((first | rw [patch_eq] | skip); (with_reducible refine Keeps.patch ?_ ?_ ?_); rotate_left; (first | exact CelKeeps.refl _ | exact ⟨fun _ h => h, Nat.le_refl _⟩ | exact ⟨fun _ h => h, Nat.le_succ _⟩); (refine fun g => ?_; first | exact g | simpa only [SizesOk, Machine.patch, upd_length] using g | (simp only [SizesOk, Machine.patch, upd_length, List.length_map, List.length_replicate, true_and] at g ⊢; tauto)))

theorem Keeps.hostGive {z0 s : State} {n : Nat} {v : Nat} {len : Nat} (hz : Keeps z0 s)  : Keeps z0 (Machine.hostGive n v len s) := by
  unfold Machine.hostGive
  repeat' first
    | with_reducible assumption
    | with_reducible apply Keeps.updHost
    | ((first | rw [patch_eq] | skip); (with_reducible refine Keeps.patch ?_ ?_ ?_); rotate_left; (first | exact CelKeeps.refl _ | exact ⟨fun _ h => h, Nat.le_refl _⟩ | exact ⟨fun _ h => h, Nat.le_succ _⟩); (refine fun g => ?_; first | exact g | simpa only [SizesOk, Machine.patch, upd_length] using g | (simp only [SizesOk, Machine.patch, upd_length, List.length_map, List.length_replicate, true_and] at g ⊢; tauto)))

theorem Keeps.handOver {z0 s : State} {n : Nat} {k : Nat} {w : List Nat} {msg : List Nat} {bad : Bool} (hz : Keeps z0 s)  : Keeps z0 (Machine.handOver n k w msg bad s) := by
  unfold Machine.handOver
  repeat' first
    | with_reducible assumption
    | with_reducible apply Keeps.ite
    | with_reducible apply Keeps.ite1
    | with_reducible apply Keeps.updHost
    | with_reducible apply Keeps.hostGive
    | (fail_if_no_progress dsimp -zeta only)
    | split

theorem Keeps.hostCodeword {z0 s : State} {n : Nat} {k : Nat} {rx : List Nat} (hz : Keeps z0 s)  : Keeps z0 (Machine.hostCodeword n k rx s) := by
  unfold Machine.hostCodeword
  repeat' first
    | with_reducible assumption
    | (intro x; with_reducible refine Keeps.cut (o := z0) x ?_ ?_; dsimp only [x]; rotate_left; try clear_value x)
    | (intro x; with_reducible refine Keeps.cut1 (o := z0) x ?_ ?_; dsimp only [x]; rotate_left; try clear_value x)
    | (intro x; with_reducible refine Keeps.cutF x ?_; try dsimp only [x])
    | (intro x; try clear_value x)
    | with_reducible apply Keeps.ite
    | with_reducible apply Keeps.ite1
    | with_reducible apply Keeps.flagLimited
    | with_reducible apply Keeps.fecCount
    | with_reducible apply Keeps.handOver
    | ((first | rw [patch_eq] | skip); (with_reducible refine Keeps.patch ?_ ?_ ?_); rotate_left; (first | exact CelKeeps.refl _ | exact ⟨fun _ h => h, Nat.le_refl _⟩ | exact ⟨fun _ h => h, Nat.le_succ _⟩); (refine fun g => ?_; first | exact g | simpa only [SizesOk, Machine.patch, upd_length] using g | (simp only [SizesOk, Machine.patch, upd_length, List.length_map, List.length_replicate, true_and] at g ⊢; tauto)))
    | (fail_if_no_progress dsimp -zeta only)
    | split
    | lift_lets

theorem Keeps.fecSnap {z0 s : State} {n : Nat} (hz : Keeps z0 s)  : Keeps z0 (Machine.fecSnap n s) := by
  unfold Machine.fecSnap
  try lift_lets
  repeat' first
    | with_reducible assumption
    | (intro x; with_reducible refine Keeps.cut (o := z0) x ?_ ?_; dsimp only [x]; rotate_left; try clear_value x)
    | (intro x; try clear_value x)
    | with_reducible apply Keeps.forN
    | with_reducible apply Keeps.updHost
    | with_reducible apply Keeps.wr
    | ((first | rw [patch_eq] | skip); (with_reducible refine Keeps.patch ?_ ?_ ?_); rotate_left; (first | exact CelKeeps.refl _ | exact ⟨fun _ h => h, Nat.le_refl _⟩ | exact ⟨fun _ h => h, Nat.le_succ _⟩); (refine fun g => ?_; first | exact g | simpa only [SizesOk, Machine.patch, upd_length] using g | (simp only [SizesOk, Machine.patch, upd_length, List.length_map, List.length_replicate, true_and] at g ⊢; tauto)))

theorem Keeps.wrFecCmd {z0 s : State} {n : Nat} {w : Word} (hz : Keeps z0 s)  : Keeps z0 (Machine.wrFecCmd n w s) := by
  unfold Machine.wrFecCmd
  repeat' first
    | with_reducible assumption
    | with_reducible apply Keeps.ite
    | with_reducible apply Keeps.ite1
    | with_reducible apply Keeps.fecSnap
    | with_reducible apply Keeps.ret

theorem Keeps.wrHostCtrl {z0 s : State} {n : Nat} {w : Word} (hz : Keeps z0 s)  : Keeps z0 (Machine.wrHostCtrl n w s) := by
  unfold Machine.wrHostCtrl
  repeat' first
    | with_reducible assumption
    | with_reducible apply Keeps.ite
    | with_reducible apply Keeps.ite1
    | with_reducible apply Keeps.adaptRefresh
    | with_reducible apply Keeps.store
    | with_reducible apply Keeps.ret

theorem Keeps.wrHostRxEq {z0 s : State} {n : Nat} {w : Word} (hz : Keeps z0 s)  : Keeps z0 (Machine.wrHostRxEq n w s) := by
  unfold Machine.wrHostRxEq
  repeat' first
    | with_reducible assumption
    | with_reducible apply Keeps.ite
    | with_reducible apply Keeps.ite1
    | with_reducible apply Keeps.plainWrite
    | with_reducible apply Keeps.ret

theorem Keeps.resetHost {z0 s : State} {n : Nat} (hz : Keeps z0 s)  : Keeps z0 (Machine.resetHost n s) := by
  unfold Machine.resetHost
  repeat' first
    | with_reducible assumption
    | (intro x; with_reducible refine Keeps.cut (o := z0) x ?_ ?_; dsimp only [x]; rotate_left; try clear_value x)
    | (intro x; try clear_value x)
    | with_reducible apply Keeps.ite
    | with_reducible apply Keeps.ite1
    | with_reducible apply Keeps.updHost
    | with_reducible apply Keeps.groupBreak
    | with_reducible apply Keeps.set
    | with_reducible apply Keeps.dropRange
    | (fail_if_no_progress dsimp -zeta only)
    | split
    | lift_lets

theorem Keeps.lmsHost {z0 s : State} {n : Nat} (hz : Keeps z0 s)  : Keeps z0 (Machine.lmsHost n s) := by
  unfold Machine.lmsHost
  try lift_lets
  repeat' first
    | with_reducible assumption
    | with_reducible apply Keeps.ite2
    | with_reducible apply Keeps.ite
    | with_reducible apply Keeps.ite1
    | with_reducible apply Keeps.updHost
    | ((first | rw [patch_eq] | skip); (with_reducible refine Keeps.patch ?_ ?_ ?_); rotate_left; (first | exact CelKeeps.refl _ | exact ⟨fun _ h => h, Nat.le_refl _⟩ | exact ⟨fun _ h => h, Nat.le_succ _⟩); (refine fun g => ?_; first | exact g | simpa only [SizesOk, Machine.patch, upd_length] using g | (simp only [SizesOk, Machine.patch, upd_length, List.length_map, List.length_replicate, true_and] at g ⊢; tauto)))

theorem Keeps.hostAdapt {z0 s : State}  (hz : Keeps z0 s)  : Keeps z0 (Machine.hostAdapt s) := by
  unfold Machine.hostAdapt
  repeat' first
    | with_reducible assumption
    | (intro x; try clear_value x)
    | with_reducible apply Keeps.ite
    | with_reducible apply Keeps.ite1
    | with_reducible apply Keeps.forN
    | with_reducible apply Keeps.lmsHost

theorem Keeps.execHostModeWrite {s z : State} {q : Rq} {n : Fin 8} {w : Word} (e : Machine.execHostModeWrite q n w s = .next z) : Keeps s z := by
  have hz := Keeps.refl s
  revert e
  unfold Machine.execHostModeWrite
  first
    | (intro e; injection e with e; subst e; (repeat' first
         | with_reducible assumption
         | (intro x; try clear_value x)
         | with_reducible apply Keeps.gated
         | with_reducible apply Keeps.wrHostCtrl
         ); done)

theorem Keeps.execHostStart {s z : State} {q : Rq} {n : Fin 8} (e : Machine.execHostStart q n s = .next z) : Keeps s z := by
  have hz := Keeps.refl s
  revert e
  unfold Machine.execHostStart
  first
    | (intro e; injection e with e; subst e; (repeat' first
         | with_reducible assumption
         | (intro x; try clear_value x)
         | with_reducible apply Keeps.gated
         | with_reducible apply Keeps.hostStart
         ); done)

theorem Keeps.execHostRetrain {s z : State} {q : Rq} {n : Fin 8} (e : Machine.execHostRetrain q n s = .next z) : Keeps s z := by
  have hz := Keeps.refl s
  revert e
  unfold Machine.execHostRetrain
  first
    | (intro e; injection e with e; subst e; (repeat' first
         | with_reducible assumption
         | (intro x; try clear_value x)
         | with_reducible apply Keeps.gated
         | with_reducible apply Keeps.hostRetrain
         ); done)

theorem Keeps.execHostStop {s z : State} {q : Rq} {n : Fin 8} (e : Machine.execHostStop q n s = .next z) : Keeps s z := by
  have hz := Keeps.refl s
  revert e
  unfold Machine.execHostStop
  first
    | (intro e; injection e with e; subst e; (repeat' first
         | with_reducible assumption
         | (intro x; try clear_value x)
         | with_reducible apply Keeps.gated
         | with_reducible apply Keeps.hostStop
         ); done)

theorem Keeps.execHostResync {s z : State} {q : Rq} {n : Fin 8} (e : Machine.execHostResync q n s = .next z) : Keeps s z := by
  have hz := Keeps.refl s
  revert e
  unfold Machine.execHostResync
  first
    | (intro e; injection e with e; subst e; (repeat' first
         | with_reducible assumption
         | (intro x; try clear_value x)
         | with_reducible apply Keeps.gated
         | with_reducible apply Keeps.hostResync
         ); done)

theorem Keeps.execHostLockAcquired {s z : State} {n : Fin 8} {snr : Fin 256} (e : Machine.execHostLockAcquired n snr s = .next z) : Keeps s z := by
  have hz := Keeps.refl s
  revert e
  unfold Machine.execHostLockAcquired
  first
    | (intro e; injection e with e; subst e; (repeat' first
         | with_reducible assumption
         | with_reducible apply Keeps.hostLockAcquired
         ); done)

theorem Keeps.execHostAcquireTimeout {s z : State} {n : Fin 8} (e : Machine.execHostAcquireTimeout n s = .next z) : Keeps s z := by
  have hz := Keeps.refl s
  revert e
  unfold Machine.execHostAcquireTimeout
  first
    | (intro e; injection e with e; subst e; (repeat' first
         | with_reducible assumption
         | with_reducible apply Keeps.hostAcquireTimeout
         ); done)

theorem Keeps.execTrainingFrameRx {s z : State} {n : Fin 8} {mark : Bool} {ctl : BitVec 16} {sts : BitVec 16} {snr : Fin 256} (e : Machine.execTrainingFrameRx n mark ctl sts snr s = .next z) : Keeps s z := by
  have hz := Keeps.refl s
  revert e
  unfold Machine.execTrainingFrameRx
  first
    | (intro e; injection e with e; subst e; (repeat' first
         | with_reducible assumption
         | with_reducible apply Keeps.trainingFrameRx
         ); done)

theorem Keeps.execTrainTimeout {s z : State} {n : Fin 8} (e : Machine.execTrainTimeout n s = .next z) : Keeps s z := by
  have hz := Keeps.refl s
  revert e
  unfold Machine.execTrainTimeout
  first
    | (intro e; injection e with e; subst e; (repeat' first
         | with_reducible assumption
         | with_reducible apply Keeps.trainTimeout
         ); done)

theorem Keeps.execTrainAutoReady {s z : State} {n : Fin 8} (e : Machine.execTrainAutoReady n s = .next z) : Keeps s z := by
  have hz := Keeps.refl s
  revert e
  unfold Machine.execTrainAutoReady
  first
    | (intro e; injection e with e; subst e; (repeat' first
         | with_reducible assumption
         | with_reducible apply Keeps.trainAutoReady
         ); done)

theorem Keeps.execHostTrainReqWrite {s z : State} {q : Rq} {n : Fin 8} {w : Word} (e : Machine.execHostTrainReqWrite q n w s = .next z) : Keeps s z := by
  have hz := Keeps.refl s
  revert e
  unfold Machine.execHostTrainReqWrite
  first
    | (intro e; injection e with e; subst e; (repeat' first
         | with_reducible assumption
         | (intro x; try clear_value x)
         | with_reducible apply Keeps.gated
         | with_reducible apply Keeps.wrTrainReq
         ); done)

theorem Keeps.execHostTxFirWrite {s z : State} {q : Rq} {n : Fin 8} {k : Fin 5} {w : Word} (e : Machine.execHostTxFirWrite q n k w s = .next z) : Keeps s z := by
  have hz := Keeps.refl s
  revert e
  unfold Machine.execHostTxFirWrite
  first
    | (intro e; injection e with e; subst e; (repeat' first
         | with_reducible assumption
         | (intro x; try clear_value x)
         | with_reducible apply Keeps.gated
         | with_reducible apply Keeps.wrHostFir
         ); done)

theorem Keeps.execHostTxFirApply {s z : State} {n : Fin 8} (e : Machine.execHostTxFirApply n s = .next z) : Keeps s z := by
  have hz := Keeps.refl s
  revert e
  unfold Machine.execHostTxFirApply
  first
    | (intro e; injection e with e; subst e; (repeat' first
         | with_reducible assumption
         | with_reducible apply Keeps.hostTxFirApply
         ); done)

theorem Keeps.execHostGroupAlign {s z : State} {n : Fin 8} {size : Fin 5} {ids : List Nat} {skewPs : Nat} (e : Machine.execHostGroupAlign n size ids skewPs s = .next z) : Keeps s z := by
  have hz := Keeps.refl s
  revert e
  unfold Machine.execHostGroupAlign
  first
    | (intro e; injection e with e; subst e; (repeat' first
         | with_reducible assumption
         | (intro x; with_reducible refine Keeps.cut (o := z0) x ?_ ?_; dsimp only [x]; rotate_left; try clear_value x)
         | (intro x; with_reducible refine Keeps.cut1 (o := z0) x ?_ ?_; dsimp only [x]; rotate_left; try clear_value x)
         | (intro x; with_reducible refine Keeps.cutF x ?_; try dsimp only [x])
         | (intro x; try clear_value x)
         | with_reducible apply Keeps.hostGroupAlign
         | (fail_if_no_progress dsimp -zeta only)
         | split
         ); done)

theorem Keeps.execHostLaneLost {s z : State} {n : Fin 8} {why : Fin 3} (e : Machine.execHostLaneLost n why s = .next z) : Keeps s z := by
  have hz := Keeps.refl s
  revert e
  unfold Machine.execHostLaneLost
  first
    | (intro e; injection e with e; subst e; (repeat' first
         | with_reducible assumption
         | with_reducible apply Keeps.hostLaneLost
         ); done)

theorem Keeps.execHostSyncEdge {s z : State}  (e : Machine.execHostSyncEdge s = .next z) : Keeps s z := by
  have hz := Keeps.refl s
  revert e
  unfold Machine.execHostSyncEdge
  first
    | (intro e; injection e with e; subst e; (repeat' first
         | with_reducible assumption
         | with_reducible apply Keeps.hostSyncEdge
         ); done)

theorem Keeps.execHostSysrefArm {s z : State} {q : Rq} {n : Fin 8} {w : Word} (e : Machine.execHostSysrefArm q n w s = .next z) : Keeps s z := by
  have hz := Keeps.refl s
  revert e
  unfold Machine.execHostSysrefArm
  first
    | (intro e; injection e with e; subst e; (repeat' first
         | with_reducible assumption
         | (intro x; try clear_value x)
         | with_reducible apply Keeps.gated
         | with_reducible apply Keeps.wrJesdSys
         ); done)

theorem Keeps.execJesdRelease {s z : State} {n : Fin 8} {got : List Bool} {occ : Nat} {crc : Nat} (e : Machine.execJesdRelease n got occ crc s = .next z) : Keeps s z := by
  have hz := Keeps.refl s
  revert e
  unfold Machine.execJesdRelease
  first
    | (intro e; injection e with e; subst e; (repeat' first
         | with_reducible assumption
         | with_reducible apply Keeps.jesdRelease
         ); done)

theorem Keeps.execSysrefTimeout {s z : State} {n : Fin 8} (e : Machine.execSysrefTimeout n s = .next z) : Keeps s z := by
  have hz := Keeps.refl s
  revert e
  unfold Machine.execSysrefTimeout
  first
    | (intro e; injection e with e; subst e; (repeat' first
         | with_reducible assumption
         | with_reducible apply Keeps.sysrefTimeout
         ); done)

theorem Keeps.execPatternGenEnable {s z : State} {q : Rq} {n : Fin 8} {w : Word} (e : Machine.execPatternGenEnable q n w s = .next z) : Keeps s z := by
  have hz := Keeps.refl s
  revert e
  unfold Machine.execPatternGenEnable
  first
    | (intro e; injection e with e; subst e; (repeat' first
         | with_reducible assumption
         | (intro x; try clear_value x)
         | with_reducible apply Keeps.gated
         | with_reducible apply Keeps.wrPatCtrl
         ); done)

theorem Keeps.execPatternInject {s z : State} {q : Rq} {n : Fin 8} {w : Word} (e : Machine.execPatternInject q n w s = .next z) : Keeps s z := by
  have hz := Keeps.refl s
  revert e
  unfold Machine.execPatternInject
  first
    | (intro e; injection e with e; subst e; (repeat' first
         | with_reducible assumption
         | (intro x; try clear_value x)
         | with_reducible apply Keeps.gated
         | with_reducible apply Keeps.wrPatCtrl
         ); done)

theorem Keeps.execCheckerLock {s z : State} {n : Fin 8} (e : Machine.execCheckerLock n s = .next z) : Keeps s z := by
  have hz := Keeps.refl s
  revert e
  unfold Machine.execCheckerLock
  first
    | (intro e; injection e with e; subst e; (repeat' first
         | with_reducible assumption
         | with_reducible apply Keeps.checkerLock
         ); done)

theorem Keeps.execCheckerUnlock {s z : State} {n : Fin 8} {bits : Nat} {errs : Nat} (e : Machine.execCheckerUnlock n bits errs s = .next z) : Keeps s z := by
  have hz := Keeps.refl s
  revert e
  unfold Machine.execCheckerUnlock
  first
    | (intro e; injection e with e; subst e; (repeat' first
         | with_reducible assumption
         | with_reducible apply Keeps.checkerUnlock
         ); done)

theorem Keeps.execPatternSnap {s z : State} {q : Rq} {n : Fin 8} {w : Word} {bits : Nat} {errs : Nat} (e : Machine.execPatternSnap q n w bits errs s = .next z) : Keeps s z := by
  have hz := Keeps.refl s
  revert e
  unfold Machine.execPatternSnap
  first
    | (intro e; injection e with e; subst e; (repeat' first
         | with_reducible assumption
         | (intro x; try clear_value x)
         | with_reducible apply Keeps.gated
         | with_reducible apply Keeps.chkCount
         | with_reducible apply Keeps.wrPatCtrl
         ); done)

theorem Keeps.execHostCodewordDecode {s z : State} {n : Fin 8} {k : Fin 2} {rx : List Nat} (e : Machine.execHostCodewordDecode n k rx s = .next z) : Keeps s z := by
  have hz := Keeps.refl s
  revert e
  unfold Machine.execHostCodewordDecode
  first
    | (intro e; injection e with e; subst e; (repeat' first
         | with_reducible assumption
         | (intro x; with_reducible refine Keeps.cut (o := z0) x ?_ ?_; dsimp only [x]; rotate_left; try clear_value x)
         | (intro x; with_reducible refine Keeps.cut1 (o := z0) x ?_ ?_; dsimp only [x]; rotate_left; try clear_value x)
         | (intro x; with_reducible refine Keeps.cutF x ?_; try dsimp only [x])
         | (intro x; try clear_value x)
         | with_reducible apply Keeps.hostCodeword
         | (fail_if_no_progress dsimp -zeta only)
         | split
         ); done)

theorem Keeps.execHostFecSnap {s z : State} {q : Rq} {n : Fin 8} (e : Machine.execHostFecSnap q n s = .next z) : Keeps s z := by
  have hz := Keeps.refl s
  revert e
  unfold Machine.execHostFecSnap
  first
    | (intro e; injection e with e; subst e; (repeat' first
         | with_reducible assumption
         | (intro x; try clear_value x)
         | with_reducible apply Keeps.gated
         | with_reducible apply Keeps.wrFecCmd
         ); done)

end Sys2Proof.Machine
end

