-- ==== Sys2Proof/Laws/KeepRpt.lean ====
section
/-! SUPPORT. What the operations of Rpt.lean keep. -/

set_option linter.all false

namespace Sys2Proof.Machine

theorem Keeps.updRpt {z0 s : State} {k : Nat} {f : RptP → RptP} (hz : Keeps z0 s)  : Keeps z0 (Machine.updRpt k f s) := by
  unfold Machine.updRpt
  exact Keeps.upd hz rfl rfl rfl rfl rfl (CelKeeps.refl _) rfl (fun g => by simp_all [SizesOk])

theorem Keeps.rptEvt {z0 s : State} {b : Nat} (hz : Keeps z0 s)  : Keeps z0 (Machine.rptEvt b s) := by
  unfold Machine.rptEvt
  repeat' first
    | with_reducible assumption
    | with_reducible apply Keeps.flagLimited

theorem Keeps.setRpt {z0 s : State} {k : Nat} {t : Nat} (hz : Keeps z0 s)  : Keeps z0 (Machine.setRpt k t s) := by
  unfold Machine.setRpt
  try lift_lets
  repeat' first
    | with_reducible assumption
    | (intro x; with_reducible refine Keeps.cut (o := z0) x ?_ ?_; dsimp only [x]; rotate_left; try clear_value x)
    | (intro x; try clear_value x)
    | with_reducible apply Keeps.ite
    | with_reducible apply Keeps.ite1
    | with_reducible apply Keeps.updRpt
    | with_reducible apply Keeps.rptEvt
    | with_reducible apply Keeps.set
    | ((first | rw [patch_eq] | skip); (with_reducible refine Keeps.patch ?_ ?_ ?_); rotate_left; (first | exact CelKeeps.refl _ | exact ⟨fun _ h => h, Nat.le_refl _⟩ | exact ⟨fun _ h => h, Nat.le_succ _⟩); (refine fun g => ?_; first | exact g | simpa only [SizesOk, Machine.patch, upd_length] using g | (simp only [SizesOk, Machine.patch, upd_length, List.length_map, List.length_replicate, true_and] at g ⊢; tauto)))

theorem Keeps.rptEnd {z0 s : State} {k : Nat} {c : Code} {reason : Nat} (hz : Keeps z0 s)  : Keeps z0 (Machine.rptEnd k c reason s) := by
  unfold Machine.rptEnd
  repeat' first
    | with_reducible assumption
    | with_reducible apply Keeps.flag
    | with_reducible apply Keeps.set

theorem Keeps.armEnd {z0 s : State} {k : Nat} {c : Code} {reason : Nat} (hz : Keeps z0 s)  : Keeps z0 (Machine.armEnd k c reason s) := by
  unfold Machine.armEnd
  repeat' first
    | with_reducible assumption
    | with_reducible apply Keeps.ite
    | with_reducible apply Keeps.ite1
    | with_reducible apply Keeps.rptEnd
    | with_reducible apply Keeps.set

theorem Keeps.rptNow {z0 s : State} {k : Nat} {c : Code} (hz : Keeps z0 s)  : Keeps z0 (Machine.rptNow k c s) := by
  unfold Machine.rptNow
  repeat' first
    | with_reducible assumption
    | with_reducible apply Keeps.rptEnd
    | with_reducible apply Keeps.ret

theorem Keeps.causeOn {z0 s : State} {k : Nat} {c : Nat} (hz : Keeps z0 s)  : Keeps z0 (Machine.causeOn k c s) := by
  unfold Machine.causeOn
  try lift_lets
  repeat' first
    | with_reducible assumption
    | (intro x; with_reducible refine Keeps.cut (o := z0) x ?_ ?_; dsimp only [x]; rotate_left; try clear_value x)
    | (intro x; try clear_value x)
    | with_reducible apply Keeps.ite
    | with_reducible apply Keeps.ite1
    | with_reducible apply Keeps.updRpt
    | with_reducible apply Keeps.setRpt
    | with_reducible apply Keeps.set
    | ((first | rw [patch_eq] | skip); (with_reducible refine Keeps.patch ?_ ?_ ?_); rotate_left; (first | exact CelKeeps.refl _ | exact ⟨fun _ h => h, Nat.le_refl _⟩ | exact ⟨fun _ h => h, Nat.le_succ _⟩); (refine fun g => ?_; first | exact g | simpa only [SizesOk, Machine.patch, upd_length] using g | (simp only [SizesOk, Machine.patch, upd_length, List.length_map, List.length_replicate, true_and] at g ⊢; tauto)))

theorem Keeps.causeOff {z0 s : State} {k : Nat} {c : Nat} (hz : Keeps z0 s)  : Keeps z0 (Machine.causeOff k c s) := by
  unfold Machine.causeOff
  repeat' first
    | with_reducible assumption
    | with_reducible apply Keeps.set

theorem Keeps.startArming {z0 s : State} {k : Nat} (hz : Keeps z0 s)  : Keeps z0 (Machine.startArming k s) := by
  unfold Machine.startArming
  repeat' first
    | with_reducible assumption
    | with_reducible apply Keeps.updRpt
    | with_reducible apply Keeps.setRpt
    | ((first | rw [patch_eq] | skip); (with_reducible refine Keeps.patch ?_ ?_ ?_); rotate_left; (first | exact CelKeeps.refl _ | exact ⟨fun _ h => h, Nat.le_refl _⟩ | exact ⟨fun _ h => h, Nat.le_succ _⟩); (refine fun g => ?_; first | exact g | simpa only [SizesOk, Machine.patch, upd_length] using g | (simp only [SizesOk, Machine.patch, upd_length, List.length_map, List.length_replicate, true_and] at g ⊢; tauto)))

theorem Keeps.rptToOff {z0 s : State} {k : Nat} {reason : Nat} (hz : Keeps z0 s)  : Keeps z0 (Machine.rptToOff k reason s) := by
  unfold Machine.rptToOff
  try lift_lets
  repeat' first
    | with_reducible assumption
    | (intro x; with_reducible refine Keeps.cut (o := z0) x ?_ ?_; dsimp only [x]; rotate_left; try clear_value x)
    | (intro x; try clear_value x)
    | with_reducible apply Keeps.updRpt
    | with_reducible apply Keeps.setRpt
    | with_reducible apply Keeps.armEnd
    | with_reducible apply Keeps.set
    | ((first | rw [patch_eq] | skip); (with_reducible refine Keeps.patch ?_ ?_ ?_); rotate_left; (first | exact CelKeeps.refl _ | exact ⟨fun _ h => h, Nat.le_refl _⟩ | exact ⟨fun _ h => h, Nat.le_succ _⟩); (refine fun g => ?_; first | exact g | simpa only [SizesOk, Machine.patch, upd_length] using g | (simp only [SizesOk, Machine.patch, upd_length, List.length_map, List.length_replicate, true_and] at g ⊢; tauto)))

theorem Keeps.rptLeft {z0 s : State} {k : Nat} {reason : Nat} (hz : Keeps z0 s)  : Keeps z0 (Machine.rptLeft k reason s) := by
  unfold Machine.rptLeft
  repeat' first
    | with_reducible assumption
    | with_reducible apply Keeps.ite
    | with_reducible apply Keeps.ite1
    | with_reducible apply Keeps.rptToOff

theorem Keeps.rptEvict {z0 s : State} {k : Nat} (hz : Keeps z0 s)  : Keeps z0 (Machine.rptEvict k s) := by
  unfold Machine.rptEvict
  try lift_lets
  repeat' first
    | with_reducible assumption
    | (intro x; try clear_value x)
    | with_reducible apply Keeps.ite
    | with_reducible apply Keeps.ite1
    | with_reducible apply Keeps.causeOn

theorem Keeps.retakeCauses {z0 s : State} {k : Nat} (hz : Keeps z0 s)  : Keeps z0 (Machine.retakeCauses k s) := by
  unfold Machine.retakeCauses
  try lift_lets
  repeat' first
    | with_reducible assumption
    | (intro x; with_reducible refine Keeps.cut (o := z0) x ?_ ?_; dsimp only [x]; rotate_left; try clear_value x)
    | (intro x; try clear_value x)
    | with_reducible apply Keeps.ite
    | with_reducible apply Keeps.ite1
    | with_reducible apply Keeps.causeOn

theorem Keeps.rptArm {z0 s : State} {k : Nat} (hz : Keeps z0 s)  : Keeps z0 (Machine.rptArm k s) := by
  unfold Machine.rptArm
  try lift_lets
  repeat' first
    | with_reducible assumption
    | (intro x; with_reducible refine Keeps.cut (o := z0) x ?_ ?_; dsimp only [x]; rotate_left; try clear_value x)
    | (intro x; try clear_value x)
    | with_reducible apply Keeps.ite
    | with_reducible apply Keeps.ite1
    | with_reducible apply Keeps.setRpt
    | with_reducible apply Keeps.rptNow
    | with_reducible apply Keeps.causeOff
    | with_reducible apply Keeps.startArming
    | with_reducible apply Keeps.retakeCauses
    | with_reducible apply Keeps.set
    | with_reducible apply Keeps.ret

theorem Keeps.rptMute {z0 s : State} {k : Nat} (hz : Keeps z0 s)  : Keeps z0 (Machine.rptMute k s) := by
  unfold Machine.rptMute
  try lift_lets
  repeat' first
    | with_reducible assumption
    | (intro x; try clear_value x)
    | with_reducible apply Keeps.ite
    | with_reducible apply Keeps.ite1
    | with_reducible apply Keeps.armEnd
    | with_reducible apply Keeps.rptNow
    | with_reducible apply Keeps.causeOn

theorem Keeps.rptOff {z0 s : State} {k : Nat} (hz : Keeps z0 s)  : Keeps z0 (Machine.rptOff k s) := by
  unfold Machine.rptOff
  try lift_lets
  repeat' first
    | with_reducible assumption
    | (intro x; try clear_value x)
    | with_reducible apply Keeps.ite
    | with_reducible apply Keeps.ite1
    | with_reducible apply Keeps.rptNow
    | with_reducible apply Keeps.rptToOff

theorem Keeps.rptClear {z0 s : State} {k : Nat} (hz : Keeps z0 s)  : Keeps z0 (Machine.rptClear k s) := by
  unfold Machine.rptClear
  repeat' first
    | with_reducible assumption
    | with_reducible apply Keeps.ite
    | with_reducible apply Keeps.ite1
    | with_reducible apply Keeps.updRpt
    | with_reducible apply Keeps.setRpt
    | with_reducible apply Keeps.rptNow
    | with_reducible apply Keeps.set
    | ((first | rw [patch_eq] | skip); (with_reducible refine Keeps.patch ?_ ?_ ?_); rotate_left; (first | exact CelKeeps.refl _ | exact ⟨fun _ h => h, Nat.le_refl _⟩ | exact ⟨fun _ h => h, Nat.le_succ _⟩); (refine fun g => ?_; first | exact g | simpa only [SizesOk, Machine.patch, upd_length] using g | (simp only [SizesOk, Machine.patch, upd_length, List.length_map, List.length_replicate, true_and] at g ⊢; tauto)))

theorem Keeps.rptOwned {z0 s : State} {q : Rq} {k : Nat} {f : State → State} (hz : Keeps z0 s) (hf : ∀ x0, Keeps z0 x0 → Keeps z0 (f x0)) : Keeps z0 (Machine.rptOwned q k f s) := by
  unfold Machine.rptOwned
  repeat' first
    | with_reducible assumption
    | with_reducible apply Keeps.ite
    | with_reducible apply Keeps.ite1
    | with_reducible apply hf
    | with_reducible apply Keeps.ret

theorem Keeps.wrRptCmd {z0 s : State} {k : Nat} {w : Word} (hz : Keeps z0 s)  : Keeps z0 (Machine.wrRptCmd k w s) := by
  unfold Machine.wrRptCmd
  repeat' first
    | with_reducible assumption
    | with_reducible apply Keeps.rptNow
    | with_reducible apply Keeps.rptArm
    | with_reducible apply Keeps.rptMute
    | with_reducible apply Keeps.rptOff
    | with_reducible apply Keeps.rptClear
    | (fail_if_no_progress dsimp -zeta only)
    | split

theorem Keeps.appFall {z0 s : State} {k : Nat} (hz : Keeps z0 s)  : Keeps z0 (Machine.appFall k s) := by
  unfold Machine.appFall
  try lift_lets
  repeat' first
    | with_reducible assumption
    | (intro x; with_reducible refine Keeps.cut (o := z0) x ?_ ?_; dsimp only [x]; rotate_left; try clear_value x)
    | (intro x; try clear_value x)
    | with_reducible apply Keeps.ite
    | with_reducible apply Keeps.ite1
    | with_reducible apply Keeps.set

theorem Keeps.rptShow {z0 s : State} {k : Nat} (hz : Keeps z0 s)  : Keeps z0 (Machine.rptShow k s) := by
  unfold Machine.rptShow
  try lift_lets
  repeat' first
    | with_reducible assumption
    | (intro x; with_reducible refine Keeps.cut (o := z0) x ?_ ?_; dsimp only [x]; rotate_left; try clear_value x)
    | (intro x; try clear_value x)
    | with_reducible apply Keeps.set

theorem Keeps.rptTick {z0 s : State} {k : Nat} (hz : Keeps z0 s)  : Keeps z0 (Machine.rptTick k s) := by
  unfold Machine.rptTick
  try lift_lets
  repeat' first
    | with_reducible assumption
    | (intro x; with_reducible refine Keeps.cut (o := z0) x ?_ ?_; dsimp only [x]; rotate_left; try clear_value x)
    | (intro x; try clear_value x)
    | with_reducible apply Keeps.ite
    | with_reducible apply Keeps.ite1
    | with_reducible apply Keeps.updRpt
    | with_reducible apply Keeps.setRpt
    | with_reducible apply Keeps.appFall
    | with_reducible apply Keeps.rptShow
    | with_reducible apply Keeps.set
    | ((first | rw [patch_eq] | skip); (with_reducible refine Keeps.patch ?_ ?_ ?_); rotate_left; (first | exact CelKeeps.refl _ | exact ⟨fun _ h => h, Nat.le_refl _⟩ | exact ⟨fun _ h => h, Nat.le_succ _⟩); (refine fun g => ?_; first | exact g | simpa only [SizesOk, Machine.patch, upd_length] using g | (simp only [SizesOk, Machine.patch, upd_length, List.length_map, List.length_replicate, true_and] at g ⊢; tauto)))

theorem Keeps.repeaterTick {z0 s : State}  (hz : Keeps z0 s)  : Keeps z0 (Machine.repeaterTick s) := by
  unfold Machine.repeaterTick
  repeat' first
    | with_reducible assumption
    | (intro x; try clear_value x)
    | with_reducible apply Keeps.ite
    | with_reducible apply Keeps.ite1
    | with_reducible apply Keeps.forN
    | with_reducible apply Keeps.rptTick

theorem Keeps.isoAppStep {z0 s : State} {k : Nat} (hz : Keeps z0 s)  : Keeps z0 (Machine.isoAppStep k s) := by
  unfold Machine.isoAppStep
  repeat' first
    | with_reducible assumption
    | with_reducible apply Keeps.ite
    | with_reducible apply Keeps.ite1
    | with_reducible apply Keeps.set

theorem Keeps.creditStep {z0 s : State} {k : Nat} (hz : Keeps z0 s)  : Keeps z0 (Machine.creditStep k s) := by
  unfold Machine.creditStep
  repeat' first
    | with_reducible assumption
    | with_reducible apply Keeps.ite
    | with_reducible apply Keeps.ite1
    | with_reducible apply Keeps.set

theorem Keeps.armingEnd {z0 s : State} {k : Nat} (hz : Keeps z0 s)  : Keeps z0 (Machine.armingEnd k s) := by
  unfold Machine.armingEnd
  repeat' first
    | with_reducible assumption
    | with_reducible apply Keeps.ite
    | with_reducible apply Keeps.ite1
    | with_reducible apply Keeps.setRpt

theorem Keeps.mutingEnd {z0 s : State} {k : Nat} (hz : Keeps z0 s)  : Keeps z0 (Machine.mutingEnd k s) := by
  unfold Machine.mutingEnd
  repeat' first
    | with_reducible assumption
    | with_reducible apply Keeps.ite
    | with_reducible apply Keeps.ite1
    | with_reducible apply Keeps.setRpt

theorem Keeps.autoRearm {z0 s : State} {k : Nat} (hz : Keeps z0 s)  : Keeps z0 (Machine.autoRearm k s) := by
  unfold Machine.autoRearm
  repeat' first
    | with_reducible assumption
    | with_reducible apply Keeps.ite
    | with_reducible apply Keeps.ite1
    | with_reducible apply Keeps.armEnd
    | with_reducible apply Keeps.startArming

theorem Keeps.oscTrip {z0 s : State} {k : Nat} (hz : Keeps z0 s)  : Keeps z0 (Machine.oscTrip k s) := by
  unfold Machine.oscTrip
  try lift_lets
  repeat' first
    | with_reducible assumption
    | (intro x; with_reducible refine Keeps.cut (o := z0) x ?_ ?_; dsimp only [x]; rotate_left; try clear_value x)
    | (intro x; try clear_value x)
    | with_reducible apply Keeps.ite
    | with_reducible apply Keeps.ite1
    | with_reducible apply Keeps.raise
    | with_reducible apply Keeps.updRpt
    | with_reducible apply Keeps.rptEvt
    | with_reducible apply Keeps.setRpt
    | with_reducible apply Keeps.armEnd
    | with_reducible apply Keeps.causeOn
    | with_reducible apply Keeps.set
    | ((first | rw [patch_eq] | skip); (with_reducible refine Keeps.patch ?_ ?_ ?_); rotate_left; (first | exact CelKeeps.refl _ | exact ⟨fun _ h => h, Nat.le_refl _⟩ | exact ⟨fun _ h => h, Nat.le_succ _⟩); (refine fun g => ?_; first | exact g | simpa only [SizesOk, Machine.patch, upd_length] using g | (simp only [SizesOk, Machine.patch, upd_length, List.length_map, List.length_replicate, true_and] at g ⊢; tauto)))

theorem Keeps.oscJudge {z0 s : State} {k : Nat} {m : MtrWin} (hz : Keeps z0 s)  : Keeps z0 (Machine.oscJudge k m s) := by
  unfold Machine.oscJudge
  try lift_lets
  repeat' first
    | with_reducible assumption
    | (intro x; with_reducible refine Keeps.cut (o := z0) x ?_ ?_; dsimp only [x]; rotate_left; try clear_value x)
    | (intro x; with_reducible refine Keeps.cut1 (o := z0) x ?_ ?_; dsimp only [x]; rotate_left; try clear_value x)
    | (intro x; with_reducible refine Keeps.cutF x ?_; try dsimp only [x])
    | (intro x; try clear_value x)
    | with_reducible apply Keeps.ite
    | with_reducible apply Keeps.ite1
    | with_reducible apply Keeps.updRpt
    | with_reducible apply Keeps.oscTrip
    | ((first | rw [patch_eq] | skip); (with_reducible refine Keeps.patch ?_ ?_ ?_); rotate_left; (first | exact CelKeeps.refl _ | exact ⟨fun _ h => h, Nat.le_refl _⟩ | exact ⟨fun _ h => h, Nat.le_succ _⟩); (refine fun g => ?_; first | exact g | simpa only [SizesOk, Machine.patch, upd_length] using g | (simp only [SizesOk, Machine.patch, upd_length, List.length_map, List.length_replicate, true_and] at g ⊢; tauto)))
    | (fail_if_no_progress dsimp -zeta only)
    | split

theorem Keeps.oscWindowEnd {z0 s : State} {k : Nat} (hz : Keeps z0 s)  : Keeps z0 (Machine.oscWindowEnd k s) := by
  unfold Machine.oscWindowEnd
  repeat' first
    | with_reducible assumption
    | (intro x; with_reducible refine Keeps.cut (o := z0) x ?_ ?_; dsimp only [x]; rotate_left; try clear_value x)
    | (intro x; with_reducible refine Keeps.cut1 (o := z0) x ?_ ?_; dsimp only [x]; rotate_left; try clear_value x)
    | (intro x; with_reducible refine Keeps.cutF x ?_; try dsimp only [x])
    | (intro x; try clear_value x)
    | with_reducible apply Keeps.ite
    | with_reducible apply Keeps.ite1
    | with_reducible apply Keeps.updBnd
    | with_reducible apply Keeps.oscJudge
    | ((first | rw [patch_eq] | skip); (with_reducible refine Keeps.patch ?_ ?_ ?_); rotate_left; (first | exact CelKeeps.refl _ | exact ⟨fun _ h => h, Nat.le_refl _⟩ | exact ⟨fun _ h => h, Nat.le_succ _⟩); (refine fun g => ?_; first | exact g | simpa only [SizesOk, Machine.patch, upd_length] using g | (simp only [SizesOk, Machine.patch, upd_length, List.length_map, List.length_replicate, true_and] at g ⊢; tauto)))
    | (fail_if_no_progress dsimp -zeta only)
    | split
    | lift_lets

theorem Keeps.oscHoldExpire {z0 s : State} {k : Nat} (hz : Keeps z0 s)  : Keeps z0 (Machine.oscHoldExpire k s) := by
  unfold Machine.oscHoldExpire
  repeat' first
    | with_reducible assumption
    | with_reducible apply Keeps.ite
    | with_reducible apply Keeps.ite1
    | with_reducible apply Keeps.updRpt
    | with_reducible apply Keeps.causeOff
    | ((first | rw [patch_eq] | skip); (with_reducible refine Keeps.patch ?_ ?_ ?_); rotate_left; (first | exact CelKeeps.refl _ | exact ⟨fun _ h => h, Nat.le_refl _⟩ | exact ⟨fun _ h => h, Nat.le_succ _⟩); (refine fun g => ?_; first | exact g | simpa only [SizesOk, Machine.patch, upd_length] using g | (simp only [SizesOk, Machine.patch, upd_length, List.length_map, List.length_replicate, true_and] at g ⊢; tauto)))

theorem Keeps.ceilNext {z0 s : State} {p : Nat} (hz : Keeps z0 s)  : Keeps z0 (Machine.ceilNext p s) := by
  unfold Machine.ceilNext
  exact Keeps.upd hz rfl rfl rfl rfl rfl (CelKeeps.refl _) rfl (fun g => by simp_all [SizesOk])

theorem Keeps.ceilKeep {z0 s : State}  (hz : Keeps z0 s)  : Keeps z0 (Machine.ceilKeep s) := by
  unfold Machine.ceilKeep
  exact Keeps.upd hz rfl rfl rfl rfl rfl (CelKeeps.refl _) rfl (fun g => by simp_all [SizesOk])

theorem Keeps.ceilMark {z0 s : State} {p : Nat} {e : Int} (hz : Keeps z0 s)  : Keeps z0 (Machine.ceilMark p e s) := by
  unfold Machine.ceilMark
  repeat' first
    | with_reducible assumption
    | (intro x; with_reducible refine Keeps.cut (o := z0) x ?_ ?_; dsimp only [x]; rotate_left; try clear_value x)
    | (intro x; with_reducible refine Keeps.cut1 (o := z0) x ?_ ?_; dsimp only [x]; rotate_left; try clear_value x)
    | (intro x; with_reducible refine Keeps.cutF x ?_; try dsimp only [x])
    | (intro x; try clear_value x)
    | with_reducible apply Keeps.ite
    | with_reducible apply Keeps.ite1
    | ((first | rw [patch_eq] | skip); (with_reducible refine Keeps.patch ?_ ?_ ?_); rotate_left; (first | exact CelKeeps.refl _ | exact ⟨fun _ h => h, Nat.le_refl _⟩ | exact ⟨fun _ h => h, Nat.le_succ _⟩); (refine fun g => ?_; first | exact g | simpa only [SizesOk, Machine.patch, upd_length] using g | (simp only [SizesOk, Machine.patch, upd_length, List.length_map, List.length_replicate, true_and] at g ⊢; tauto)))
    | (fail_if_no_progress dsimp -zeta only)
    | split

theorem Keeps.ceilWindowEnd {z0 s : State} {p : Nat} (hz : Keeps z0 s)  : Keeps z0 (Machine.ceilWindowEnd p s) := by
  unfold Machine.ceilWindowEnd
  try lift_lets
  repeat' first
    | with_reducible assumption
    | (intro x; with_reducible refine Keeps.cut (o := z0) x ?_ ?_; dsimp only [x]; rotate_left; try clear_value x)
    | (intro x; with_reducible refine Keeps.cut1 (o := z0) x ?_ ?_; dsimp only [x]; rotate_left; try clear_value x)
    | (intro x; with_reducible refine Keeps.cutF x ?_; try dsimp only [x])
    | (intro x; try clear_value x)
    | with_reducible apply Keeps.ite
    | with_reducible apply Keeps.ite1
    | with_reducible apply Keeps.foldl
    | with_reducible apply Keeps.foldl1
    | with_reducible apply Keeps.raise
    | with_reducible apply Keeps.updRpt
    | with_reducible apply Keeps.rptEvt
    | with_reducible apply Keeps.ceilNext
    | with_reducible apply Keeps.ceilMark
    | ((first | rw [patch_eq] | skip); (with_reducible refine Keeps.patch ?_ ?_ ?_); rotate_left; (first | exact CelKeeps.refl _ | exact ⟨fun _ h => h, Nat.le_refl _⟩ | exact ⟨fun _ h => h, Nat.le_succ _⟩); (refine fun g => ?_; first | exact g | simpa only [SizesOk, Machine.patch, upd_length] using g | (simp only [SizesOk, Machine.patch, upd_length, List.length_map, List.length_replicate, true_and] at g ⊢; tauto)))
    | (fail_if_no_progress dsimp -zeta only)
    | split

theorem Keeps.clDecayStep {z0 s : State} {p : Nat} (hz : Keeps z0 s)  : Keeps z0 (Machine.clDecayStep p s) := by
  unfold Machine.clDecayStep
  try lift_lets
  repeat' first
    | with_reducible assumption
    | (intro x; with_reducible refine Keeps.cut (o := z0) x ?_ ?_; dsimp only [x]; rotate_left; try clear_value x)
    | (intro x; with_reducible refine Keeps.cut1 (o := z0) x ?_ ?_; dsimp only [x]; rotate_left; try clear_value x)
    | (intro x; with_reducible refine Keeps.cutF x ?_; try dsimp only [x])
    | (intro x; try clear_value x)
    | with_reducible apply Keeps.ite
    | with_reducible apply Keeps.ite1
    | with_reducible apply Keeps.foldl
    | with_reducible apply Keeps.foldl1
    | with_reducible apply Keeps.updRpt
    | ((first | rw [patch_eq] | skip); (with_reducible refine Keeps.patch ?_ ?_ ?_); rotate_left; (first | exact CelKeeps.refl _ | exact ⟨fun _ h => h, Nat.le_refl _⟩ | exact ⟨fun _ h => h, Nat.le_succ _⟩); (refine fun g => ?_; first | exact g | simpa only [SizesOk, Machine.patch, upd_length] using g | (simp only [SizesOk, Machine.patch, upd_length, List.length_map, List.length_replicate, true_and] at g ⊢; tauto)))
    | (fail_if_no_progress dsimp -zeta only)
    | split

theorem Keeps.ceilHoldExpire {z0 s : State} {k : Nat} (hz : Keeps z0 s)  : Keeps z0 (Machine.ceilHoldExpire k s) := by
  unfold Machine.ceilHoldExpire
  repeat' first
    | with_reducible assumption
    | with_reducible apply Keeps.ite
    | with_reducible apply Keeps.ite1
    | with_reducible apply Keeps.causeOn

theorem Keeps.wrRptCeil {z0 s : State} {w : Word} (hz : Keeps z0 s)  : Keeps z0 (Machine.wrRptCeil w s) := by
  unfold Machine.wrRptCeil
  try lift_lets
  repeat' first
    | with_reducible assumption
    | (intro x; try clear_value x)
    | with_reducible apply Keeps.ite
    | with_reducible apply Keeps.ite1
    | with_reducible apply Keeps.plainWrite
    | with_reducible apply Keeps.ceilKeep
    | with_reducible apply Keeps.ret

theorem Keeps.nrsRefresh {z0 s : State} {k : Nat} (hz : Keeps z0 s)  : Keeps z0 (Machine.nrsRefresh k s) := by
  unfold Machine.nrsRefresh
  try lift_lets
  repeat' first
    | with_reducible assumption
    | (intro x; try clear_value x)
    | with_reducible apply Keeps.set

theorem Keeps.nrWindow {z0 s : State} {k : Nat} {level : Int} {open_ : Bool} (hz : Keeps z0 s)  : Keeps z0 (Machine.nrWindow k level open_ s) := by
  unfold Machine.nrWindow
  repeat' first
    | with_reducible assumption
    | with_reducible apply Keeps.ite
    | with_reducible apply Keeps.ite1
    | with_reducible apply Keeps.updRpt
    | ((first | rw [patch_eq] | skip); (with_reducible refine Keeps.patch ?_ ?_ ?_); rotate_left; (first | exact CelKeeps.refl _ | exact ⟨fun _ h => h, Nat.le_refl _⟩ | exact ⟨fun _ h => h, Nat.le_succ _⟩); (refine fun g => ?_; first | exact g | simpa only [SizesOk, Machine.patch, upd_length] using g | (simp only [SizesOk, Machine.patch, upd_length, List.length_map, List.length_replicate, true_and] at g ⊢; tauto)))

theorem Keeps.nrEvaluate {z0 s : State} {k : Nat} (hz : Keeps z0 s)  : Keeps z0 (Machine.nrEvaluate k s) := by
  unfold Machine.nrEvaluate
  repeat' first
    | with_reducible assumption
    | (intro x; with_reducible refine Keeps.cut (o := z0) x ?_ ?_; dsimp only [x]; rotate_left; try clear_value x)
    | (intro x; try clear_value x)
    | with_reducible apply Keeps.ite
    | with_reducible apply Keeps.ite1
    | with_reducible apply Keeps.updRpt
    | with_reducible apply Keeps.rptEvt
    | with_reducible apply Keeps.causeOn
    | with_reducible apply Keeps.nrsRefresh
    | with_reducible apply Keeps.set
    | with_reducible apply Keeps.freeNext
    | (fail_if_no_progress dsimp -zeta only)
    | split
    | lift_lets

theorem Keeps.nrRelax {z0 s : State} {k : Nat} (hz : Keeps z0 s)  : Keeps z0 (Machine.nrRelax k s) := by
  unfold Machine.nrRelax
  repeat' first
    | with_reducible assumption
    | with_reducible apply Keeps.ite
    | with_reducible apply Keeps.ite1
    | with_reducible apply Keeps.updRpt
    | ((first | rw [patch_eq] | skip); (with_reducible refine Keeps.patch ?_ ?_ ?_); rotate_left; (first | exact CelKeeps.refl _ | exact ⟨fun _ h => h, Nat.le_refl _⟩ | exact ⟨fun _ h => h, Nat.le_succ _⟩); (refine fun g => ?_; first | exact g | simpa only [SizesOk, Machine.patch, upd_length] using g | (simp only [SizesOk, Machine.patch, upd_length, List.length_map, List.length_replicate, true_and] at g ⊢; tauto)))

theorem Keeps.donorFall {z0 s : State} {g : Nat} (hz : Keeps z0 s)  : Keeps z0 (Machine.donorFall g s) := by
  unfold Machine.donorFall
  try lift_lets
  repeat' first
    | with_reducible assumption
    | (intro x; with_reducible refine Keeps.cut (o := z0) x ?_ ?_; dsimp only [x]; rotate_left; try clear_value x)
    | (intro x; try clear_value x)
    | with_reducible apply Keeps.ite
    | with_reducible apply Keeps.ite1
    | with_reducible apply Keeps.forN
    | with_reducible apply Keeps.updRpt
    | with_reducible apply Keeps.rptEvt
    | with_reducible apply Keeps.set
    | ((first | rw [patch_eq] | skip); (with_reducible refine Keeps.patch ?_ ?_ ?_); rotate_left; (first | exact CelKeeps.refl _ | exact ⟨fun _ h => h, Nat.le_refl _⟩ | exact ⟨fun _ h => h, Nat.le_succ _⟩); (refine fun g => ?_; first | exact g | simpa only [SizesOk, Machine.patch, upd_length] using g | (simp only [SizesOk, Machine.patch, upd_length, List.length_map, List.length_replicate, true_and] at g ⊢; tauto)))

theorem Keeps.donorRise {z0 s : State} {g : Nat} (hz : Keeps z0 s)  : Keeps z0 (Machine.donorRise g s) := by
  unfold Machine.donorRise
  repeat' first
    | with_reducible assumption
    | (intro x; try clear_value x)
    | with_reducible apply Keeps.ite
    | with_reducible apply Keeps.ite1
    | with_reducible apply Keeps.forN
    | with_reducible apply Keeps.updRpt
    | with_reducible apply Keeps.causeOff
    | with_reducible apply Keeps.set
    | ((first | rw [patch_eq] | skip); (with_reducible refine Keeps.patch ?_ ?_ ?_); rotate_left; (first | exact CelKeeps.refl _ | exact ⟨fun _ h => h, Nat.le_refl _⟩ | exact ⟨fun _ h => h, Nat.le_succ _⟩); (refine fun g => ?_; first | exact g | simpa only [SizesOk, Machine.patch, upd_length] using g | (simp only [SizesOk, Machine.patch, upd_length, List.length_map, List.length_replicate, true_and] at g ⊢; tauto)))

theorem Keeps.donorSet {z0 s : State} {g : Nat} {v : Bool} (hz : Keeps z0 s)  : Keeps z0 (Machine.donorSet g v s) := by
  unfold Machine.donorSet
  repeat' first
    | with_reducible assumption
    | with_reducible apply Keeps.ite
    | with_reducible apply Keeps.ite1
    | with_reducible apply Keeps.donorFall
    | with_reducible apply Keeps.donorRise

theorem Keeps.donorHoldExpire {z0 s : State} {k : Nat} (hz : Keeps z0 s)  : Keeps z0 (Machine.donorHoldExpire k s) := by
  unfold Machine.donorHoldExpire
  repeat' first
    | with_reducible assumption
    | with_reducible apply Keeps.ite
    | with_reducible apply Keeps.ite1
    | with_reducible apply Keeps.updRpt
    | with_reducible apply Keeps.causeOn
    | ((first | rw [patch_eq] | skip); (with_reducible refine Keeps.patch ?_ ?_ ?_); rotate_left; (first | exact CelKeeps.refl _ | exact ⟨fun _ h => h, Nat.le_refl _⟩ | exact ⟨fun _ h => h, Nat.le_succ _⟩); (refine fun g => ?_; first | exact g | simpa only [SizesOk, Machine.patch, upd_length] using g | (simp only [SizesOk, Machine.patch, upd_length, List.length_map, List.length_replicate, true_and] at g ⊢; tauto)))

theorem Keeps.muteNAssert {z0 s : State}  (hz : Keeps z0 s)  : Keeps z0 (Machine.muteNAssert s) := by
  unfold Machine.muteNAssert
  try lift_lets
  repeat' first
    | with_reducible assumption
    | (intro x; with_reducible refine Keeps.cut (o := z0) x ?_ ?_; dsimp only [x]; rotate_left; try clear_value x)
    | (intro x; try clear_value x)
    | with_reducible apply Keeps.ite
    | with_reducible apply Keeps.ite1
    | with_reducible apply Keeps.forN
    | with_reducible apply Keeps.flagLimited
    | with_reducible apply Keeps.causeOn
    | with_reducible apply Keeps.set
    | with_reducible apply Keeps.addSat
    | ((first | rw [patch_eq] | skip); (with_reducible refine Keeps.patch ?_ ?_ ?_); rotate_left; (first | exact CelKeeps.refl _ | exact ⟨fun _ h => h, Nat.le_refl _⟩ | exact ⟨fun _ h => h, Nat.le_succ _⟩); (refine fun g => ?_; first | exact g | simpa only [SizesOk, Machine.patch, upd_length] using g | (simp only [SizesOk, Machine.patch, upd_length, List.length_map, List.length_replicate, true_and] at g ⊢; tauto)))

theorem Keeps.muteNDeassert {z0 s : State}  (hz : Keeps z0 s)  : Keeps z0 (Machine.muteNDeassert s) := by
  unfold Machine.muteNDeassert
  try lift_lets
  repeat' first
    | with_reducible assumption
    | (intro x; with_reducible refine Keeps.cut (o := z0) x ?_ ?_; dsimp only [x]; rotate_left; try clear_value x)
    | (intro x; try clear_value x)
    | with_reducible apply Keeps.ite
    | with_reducible apply Keeps.ite1
    | with_reducible apply Keeps.forN
    | with_reducible apply Keeps.causeOff
    | with_reducible apply Keeps.set
    | ((first | rw [patch_eq] | skip); (with_reducible refine Keeps.patch ?_ ?_ ?_); rotate_left; (first | exact CelKeeps.refl _ | exact ⟨fun _ h => h, Nat.le_refl _⟩ | exact ⟨fun _ h => h, Nat.le_succ _⟩); (refine fun g => ?_; first | exact g | simpa only [SizesOk, Machine.patch, upd_length] using g | (simp only [SizesOk, Machine.patch, upd_length, List.length_map, List.length_replicate, true_and] at g ⊢; tauto)))

theorem Keeps.muteNGlitch {z0 s : State}  (hz : Keeps z0 s)  : Keeps z0 (Machine.muteNGlitch s) := by
  unfold Machine.muteNGlitch
  repeat' first
    | with_reducible assumption
    | with_reducible apply Keeps.ite
    | with_reducible apply Keeps.ite1
    | with_reducible apply Keeps.addSat

theorem Keeps.muteNStuckEv {z0 s : State}  (hz : Keeps z0 s)  : Keeps z0 (Machine.muteNStuckEv s) := by
  unfold Machine.muteNStuckEv
  repeat' first
    | with_reducible assumption
    | with_reducible apply Keeps.ite
    | with_reducible apply Keeps.ite1
    | with_reducible apply Keeps.rptEvt
    | with_reducible apply Keeps.addSat
    | ((first | rw [patch_eq] | skip); (with_reducible refine Keeps.patch ?_ ?_ ?_); rotate_left; (first | exact CelKeeps.refl _ | exact ⟨fun _ h => h, Nat.le_refl _⟩ | exact ⟨fun _ h => h, Nat.le_succ _⟩); (refine fun g => ?_; first | exact g | simpa only [SizesOk, Machine.patch, upd_length] using g | (simp only [SizesOk, Machine.patch, upd_length, List.length_map, List.length_replicate, true_and] at g ⊢; tauto)))

theorem Keeps.rptTherm {z0 s : State} {on : Bool} (hz : Keeps z0 s)  : Keeps z0 (Machine.rptTherm on s) := by
  unfold Machine.rptTherm
  repeat' first
    | with_reducible assumption
    | (intro x; try clear_value x)
    | with_reducible apply Keeps.ite
    | with_reducible apply Keeps.ite1
    | with_reducible apply Keeps.forN
    | with_reducible apply Keeps.causeOn
    | with_reducible apply Keeps.causeOff

theorem Keeps.wrRptCfg {z0 s : State} {k : Nat} {w : Word} (hz : Keeps z0 s)  : Keeps z0 (Machine.wrRptCfg k w s) := by
  unfold Machine.wrRptCfg
  try lift_lets
  repeat' first
    | with_reducible assumption
    | (intro x; with_reducible refine Keeps.cut (o := z0) x ?_ ?_; dsimp only [x]; rotate_left; try clear_value x)
    | (intro x; try clear_value x)
    | with_reducible apply Keeps.ite
    | with_reducible apply Keeps.ite1
    | with_reducible apply Keeps.updRpt
    | with_reducible apply Keeps.nrsRefresh
    | with_reducible apply Keeps.store
    | with_reducible apply Keeps.ret
    | ((first | rw [patch_eq] | skip); (with_reducible refine Keeps.patch ?_ ?_ ?_); rotate_left; (first | exact CelKeeps.refl _ | exact ⟨fun _ h => h, Nat.le_refl _⟩ | exact ⟨fun _ h => h, Nat.le_succ _⟩); (refine fun g => ?_; first | exact g | simpa only [SizesOk, Machine.patch, upd_length] using g | (simp only [SizesOk, Machine.patch, upd_length, List.length_map, List.length_replicate, true_and] at g ⊢; tauto)))

theorem Keeps.wrRptRamp {z0 s : State} {k : Nat} {w : Word} (hz : Keeps z0 s)  : Keeps z0 (Machine.wrRptRamp k w s) := by
  unfold Machine.wrRptRamp
  try lift_lets
  repeat' first
    | with_reducible assumption
    | (intro x; try clear_value x)
    | with_reducible apply Keeps.ite
    | with_reducible apply Keeps.ite1
    | with_reducible apply Keeps.plainWrite
    | with_reducible apply Keeps.ret

theorem Keeps.wrRptOsc {z0 s : State} {k : Nat} {w : Word} (hz : Keeps z0 s)  : Keeps z0 (Machine.wrRptOsc k w s) := by
  unfold Machine.wrRptOsc
  try lift_lets
  repeat' first
    | with_reducible assumption
    | (intro x; try clear_value x)
    | with_reducible apply Keeps.ite
    | with_reducible apply Keeps.ite1
    | with_reducible apply Keeps.plainWrite
    | with_reducible apply Keeps.ret

theorem Keeps.wrRptNr {z0 s : State} {k : Nat} {w : Word} (hz : Keeps z0 s)  : Keeps z0 (Machine.wrRptNr k w s) := by
  unfold Machine.wrRptNr
  try lift_lets
  repeat' first
    | with_reducible assumption
    | (intro x; try clear_value x)
    | with_reducible apply Keeps.ite
    | with_reducible apply Keeps.ite1
    | with_reducible apply Keeps.plainWrite
    | with_reducible apply Keeps.ret

theorem Keeps.wrRptLd {z0 s : State} {k : Nat} {w : Word} (hz : Keeps z0 s)  : Keeps z0 (Machine.wrRptLd k w s) := by
  unfold Machine.wrRptLd
  repeat' first
    | with_reducible assumption
    | with_reducible apply Keeps.ite
    | with_reducible apply Keeps.ite1
    | with_reducible apply Keeps.plainWrite
    | with_reducible apply Keeps.ret

theorem Keeps.wrMuteCtrl {z0 s : State} {w : Word} (hz : Keeps z0 s)  : Keeps z0 (Machine.wrMuteCtrl w s) := by
  unfold Machine.wrMuteCtrl
  repeat' first
    | with_reducible assumption
    | with_reducible apply Keeps.ite
    | with_reducible apply Keeps.ite1
    | with_reducible apply Keeps.plainWrite
    | with_reducible apply Keeps.ret

theorem Keeps.wrGrdCtrl {z0 s : State} {w : Word} (hz : Keeps z0 s)  : Keeps z0 (Machine.wrGrdCtrl w s) := by
  unfold Machine.wrGrdCtrl
  repeat' first
    | with_reducible assumption
    | with_reducible apply Keeps.ite
    | with_reducible apply Keeps.ite1
    | with_reducible apply Keeps.plainWrite
    | with_reducible apply Keeps.ret

theorem Keeps.resetRpt {z0 s : State}  (hz : Keeps z0 s)  : Keeps z0 (Machine.resetRpt s) := by
  unfold Machine.resetRpt
  try lift_lets
  repeat' first
    | with_reducible assumption
    | (intro x; with_reducible refine Keeps.cut (o := z0) x ?_ ?_; dsimp only [x]; rotate_left; try clear_value x)
    | (intro x; try clear_value x)
    | with_reducible apply Keeps.set
    | with_reducible apply Keeps.dropRange
    | ((first | rw [patch_eq] | skip); (with_reducible refine Keeps.patch ?_ ?_ ?_); rotate_left; (first | exact CelKeeps.refl _ | exact ⟨fun _ h => h, Nat.le_refl _⟩ | exact ⟨fun _ h => h, Nat.le_succ _⟩); (refine fun g => ?_; first | exact g | simpa only [SizesOk, Machine.patch, upd_length] using g | (simp only [SizesOk, Machine.patch, upd_length, List.length_map, List.length_replicate, true_and] at g ⊢; tauto)))

theorem Keeps.releaseRpt {z0 s : State}  (hz : Keeps z0 s)  : Keeps z0 (Machine.releaseRpt s) := by
  unfold Machine.releaseRpt
  try lift_lets
  repeat' first
    | with_reducible assumption
    | (intro x; with_reducible refine Keeps.cut (o := z0) x ?_ ?_; dsimp only [x]; rotate_left; try clear_value x)
    | (intro x; with_reducible refine Keeps.cut1 (o := z0) x ?_ ?_; dsimp only [x]; rotate_left; try clear_value x)
    | (intro x; with_reducible refine Keeps.cutF x ?_; try dsimp only [x])
    | (intro x; try clear_value x)
    | with_reducible apply Keeps.ite
    | with_reducible apply Keeps.ite1
    | with_reducible apply Keeps.forN
    | with_reducible apply Keeps.flag
    | with_reducible apply Keeps.rptTherm
    | with_reducible apply Keeps.set
    | (fail_if_no_progress dsimp -zeta only)
    | split

theorem Keeps.execIsoAppStep {s z : State} {k : Fin 128} (e : Machine.execIsoAppStep k s = .next z) : Keeps s z := by
  have hz := Keeps.refl s
  revert e
  unfold Machine.execIsoAppStep
  first
    | (intro e; injection e with e; subst e; (repeat' first
         | with_reducible assumption
         | with_reducible apply Keeps.isoAppStep
         ); done)

theorem Keeps.execCreditStep {s z : State} {k : Fin 128} (e : Machine.execCreditStep k s = .next z) : Keeps s z := by
  have hz := Keeps.refl s
  revert e
  unfold Machine.execCreditStep
  first
    | (intro e; injection e with e; subst e; (repeat' first
         | with_reducible assumption
         | with_reducible apply Keeps.creditStep
         ); done)

theorem Keeps.execRptArm {s z : State} {q : Rq} {k : Fin 128} (e : Machine.execRptArm q k s = .next z) : Keeps s z := by
  have hz := Keeps.refl s
  revert e
  unfold Machine.execRptArm
  first
    | (intro e; injection e with e; subst e; (repeat' first
         | with_reducible assumption
         | (intro x; try clear_value x)
         | with_reducible apply Keeps.gated
         | with_reducible apply Keeps.rptArm
         | with_reducible apply Keeps.rptOwned
         ); done)

theorem Keeps.execRptMute {s z : State} {q : Rq} {k : Fin 128} (e : Machine.execRptMute q k s = .next z) : Keeps s z := by
  have hz := Keeps.refl s
  revert e
  unfold Machine.execRptMute
  first
    | (intro e; injection e with e; subst e; (repeat' first
         | with_reducible assumption
         | (intro x; try clear_value x)
         | with_reducible apply Keeps.gated
         | with_reducible apply Keeps.rptMute
         | with_reducible apply Keeps.rptOwned
         ); done)

theorem Keeps.execRptOff {s z : State} {q : Rq} {k : Fin 128} (e : Machine.execRptOff q k s = .next z) : Keeps s z := by
  have hz := Keeps.refl s
  revert e
  unfold Machine.execRptOff
  first
    | (intro e; injection e with e; subst e; (repeat' first
         | with_reducible assumption
         | (intro x; try clear_value x)
         | with_reducible apply Keeps.gated
         | with_reducible apply Keeps.rptOff
         | with_reducible apply Keeps.rptOwned
         ); done)

theorem Keeps.execRptClear {s z : State} {q : Rq} {k : Fin 128} (e : Machine.execRptClear q k s = .next z) : Keeps s z := by
  have hz := Keeps.refl s
  revert e
  unfold Machine.execRptClear
  first
    | (intro e; injection e with e; subst e; (repeat' first
         | with_reducible assumption
         | (intro x; try clear_value x)
         | with_reducible apply Keeps.gated
         | with_reducible apply Keeps.rptClear
         | with_reducible apply Keeps.rptOwned
         ); done)

theorem Keeps.execArmingEnd {s z : State} {k : Fin 128} (e : Machine.execArmingEnd k s = .next z) : Keeps s z := by
  have hz := Keeps.refl s
  revert e
  unfold Machine.execArmingEnd
  first
    | (intro e; injection e with e; subst e; (repeat' first
         | with_reducible assumption
         | with_reducible apply Keeps.armingEnd
         ); done)

theorem Keeps.execMutingEnd {s z : State} {k : Fin 128} (e : Machine.execMutingEnd k s = .next z) : Keeps s z := by
  have hz := Keeps.refl s
  revert e
  unfold Machine.execMutingEnd
  first
    | (intro e; injection e with e; subst e; (repeat' first
         | with_reducible assumption
         | with_reducible apply Keeps.mutingEnd
         ); done)

theorem Keeps.execAutoRearm {s z : State} {k : Fin 128} (e : Machine.execAutoRearm k s = .next z) : Keeps s z := by
  have hz := Keeps.refl s
  revert e
  unfold Machine.execAutoRearm
  first
    | (intro e; injection e with e; subst e; (repeat' first
         | with_reducible assumption
         | with_reducible apply Keeps.autoRearm
         ); done)

theorem Keeps.execOscWindowEnd {s z : State} {k : Fin 128} (e : Machine.execOscWindowEnd k s = .next z) : Keeps s z := by
  have hz := Keeps.refl s
  revert e
  unfold Machine.execOscWindowEnd
  first
    | (intro e; injection e with e; subst e; (repeat' first
         | with_reducible assumption
         | (intro x; with_reducible refine Keeps.cut (o := z0) x ?_ ?_; dsimp only [x]; rotate_left; try clear_value x)
         | (intro x; with_reducible refine Keeps.cut1 (o := z0) x ?_ ?_; dsimp only [x]; rotate_left; try clear_value x)
         | (intro x; with_reducible refine Keeps.cutF x ?_; try dsimp only [x])
         | (intro x; try clear_value x)
         | with_reducible apply Keeps.oscWindowEnd
         | (fail_if_no_progress dsimp -zeta only)
         | split
         ); done)

theorem Keeps.execOscHoldExpire {s z : State} {k : Fin 128} (e : Machine.execOscHoldExpire k s = .next z) : Keeps s z := by
  have hz := Keeps.refl s
  revert e
  unfold Machine.execOscHoldExpire
  first
    | (intro e; injection e with e; subst e; (repeat' first
         | with_reducible assumption
         | with_reducible apply Keeps.oscHoldExpire
         ); done)

theorem Keeps.execCeilWindowEnd {s z : State} {p : Fin 1024} (e : Machine.execCeilWindowEnd p s = .next z) : Keeps s z := by
  have hz := Keeps.refl s
  revert e
  unfold Machine.execCeilWindowEnd
  first
    | (intro e; injection e with e; subst e; (repeat' first
         | with_reducible assumption
         | (intro x; with_reducible refine Keeps.cut (o := z0) x ?_ ?_; dsimp only [x]; rotate_left; try clear_value x)
         | (intro x; with_reducible refine Keeps.cut1 (o := z0) x ?_ ?_; dsimp only [x]; rotate_left; try clear_value x)
         | (intro x; with_reducible refine Keeps.cutF x ?_; try dsimp only [x])
         | (intro x; try clear_value x)
         | with_reducible apply Keeps.ceilWindowEnd
         | (fail_if_no_progress dsimp -zeta only)
         | split
         ); done)

theorem Keeps.execClDecayStep {s z : State} {p : Fin 1024} (e : Machine.execClDecayStep p s = .next z) : Keeps s z := by
  have hz := Keeps.refl s
  revert e
  unfold Machine.execClDecayStep
  first
    | (intro e; injection e with e; subst e; (repeat' first
         | with_reducible assumption
         | (intro x; with_reducible refine Keeps.cut (o := z0) x ?_ ?_; dsimp only [x]; rotate_left; try clear_value x)
         | (intro x; with_reducible refine Keeps.cut1 (o := z0) x ?_ ?_; dsimp only [x]; rotate_left; try clear_value x)
         | (intro x; with_reducible refine Keeps.cutF x ?_; try dsimp only [x])
         | (intro x; try clear_value x)
         | with_reducible apply Keeps.clDecayStep
         | (fail_if_no_progress dsimp -zeta only)
         | split
         ); done)

theorem Keeps.execCeilHoldExpire {s z : State} {k : Fin 128} (e : Machine.execCeilHoldExpire k s = .next z) : Keeps s z := by
  have hz := Keeps.refl s
  revert e
  unfold Machine.execCeilHoldExpire
  first
    | (intro e; injection e with e; subst e; (repeat' first
         | with_reducible assumption
         | with_reducible apply Keeps.ceilHoldExpire
         ); done)

theorem Keeps.execNrEvaluate {s z : State} {k : Fin 128} (e : Machine.execNrEvaluate k s = .next z) : Keeps s z := by
  have hz := Keeps.refl s
  revert e
  unfold Machine.execNrEvaluate
  first
    | (intro e; injection e with e; subst e; (repeat' first
         | with_reducible assumption
         | with_reducible apply Keeps.nrEvaluate
         ); done)

theorem Keeps.execNrRelax {s z : State} {k : Fin 128} (e : Machine.execNrRelax k s = .next z) : Keeps s z := by
  have hz := Keeps.refl s
  revert e
  unfold Machine.execNrRelax
  first
    | (intro e; injection e with e; subst e; (repeat' first
         | with_reducible assumption
         | with_reducible apply Keeps.nrRelax
         ); done)

theorem Keeps.execDonorHoldExpire {s z : State} {k : Fin 128} (e : Machine.execDonorHoldExpire k s = .next z) : Keeps s z := by
  have hz := Keeps.refl s
  revert e
  unfold Machine.execDonorHoldExpire
  first
    | (intro e; injection e with e; subst e; (repeat' first
         | with_reducible assumption
         | with_reducible apply Keeps.donorHoldExpire
         ); done)

theorem Keeps.execMuteNAssert {s z : State}  (e : Machine.execMuteNAssert s = .next z) : Keeps s z := by
  have hz := Keeps.refl s
  revert e
  unfold Machine.execMuteNAssert
  first
    | (intro e; injection e with e; subst e; (repeat' first
         | with_reducible assumption
         | with_reducible apply Keeps.muteNAssert
         ); done)

theorem Keeps.execMuteNDeassert {s z : State}  (e : Machine.execMuteNDeassert s = .next z) : Keeps s z := by
  have hz := Keeps.refl s
  revert e
  unfold Machine.execMuteNDeassert
  first
    | (intro e; injection e with e; subst e; (repeat' first
         | with_reducible assumption
         | with_reducible apply Keeps.muteNDeassert
         ); done)

theorem Keeps.execMuteNGlitch {s z : State}  (e : Machine.execMuteNGlitch s = .next z) : Keeps s z := by
  have hz := Keeps.refl s
  revert e
  unfold Machine.execMuteNGlitch
  first
    | (intro e; injection e with e; subst e; (repeat' first
         | with_reducible assumption
         | with_reducible apply Keeps.muteNGlitch
         ); done)

theorem Keeps.execMuteNStuck {s z : State}  (e : Machine.execMuteNStuck s = .next z) : Keeps s z := by
  have hz := Keeps.refl s
  revert e
  unfold Machine.execMuteNStuck
  first
    | (intro e; injection e with e; subst e; (repeat' first
         | with_reducible assumption
         | with_reducible apply Keeps.muteNStuckEv
         ); done)

theorem Keeps.execRptMuteCntRead {s z : State} {q : Rq} (e : Machine.execRptMuteCntRead q s = .next z) : Keeps s z := by
  have hz := Keeps.refl s
  revert e
  unfold Machine.execRptMuteCntRead
  first
    | (intro e; injection e with e; subst e; (repeat' first
         | with_reducible assumption
         | (intro x; try clear_value x)
         | with_reducible apply Keeps.gatedRead
         | with_reducible apply Keeps.clearRead
         ); done)

theorem Keeps.execRptCeilWrite {s z : State} {q : Rq} {w : Word} (e : Machine.execRptCeilWrite q w s = .next z) : Keeps s z := by
  have hz := Keeps.refl s
  revert e
  unfold Machine.execRptCeilWrite
  first
    | (intro e; injection e with e; subst e; (repeat' first
         | with_reducible assumption
         | (intro x; try clear_value x)
         | with_reducible apply Keeps.gated
         | with_reducible apply Keeps.wrRptCeil
         ); done)

end Sys2Proof.Machine
end

