-- ==== Sys2Proof/Laws/KeepLst.lean ====
section
/-! SUPPORT. What the operations of Lst.lean keep. -/

set_option linter.all false

namespace Sys2Proof.Machine

theorem Keeps.updLst {z0 s : State} {ch : Nat} {f : LstCh → LstCh} (hz : Keeps z0 s)  : Keeps z0 (Machine.updLst ch f s) := by
  unfold Machine.updLst
  exact Keeps.upd hz rfl rfl rfl rfl rfl (CelKeeps.refl _) rfl (fun g => by simp_all [SizesOk])

theorem Keeps.lstEvt {z0 s : State} {b : Nat} (hz : Keeps z0 s)  : Keeps z0 (Machine.lstEvt b s) := by
  unfold Machine.lstEvt
  repeat' first
    | with_reducible assumption
    | with_reducible apply Keeps.flag

theorem Keeps.rxEvt {z0 s : State} {ch : Nat} {b : Nat} (hz : Keeps z0 s)  : Keeps z0 (Machine.rxEvt ch b s) := by
  unfold Machine.rxEvt
  repeat' first
    | with_reducible assumption
    | with_reducible apply Keeps.flagLimited

theorem Keeps.donorEval {z0 s : State} {g : Nat} (hz : Keeps z0 s)  : Keeps z0 (Machine.donorEval g s) := by
  unfold Machine.donorEval
  try lift_lets
  repeat' first
    | with_reducible assumption
    | (intro x; try clear_value x)
    | with_reducible apply Keeps.ite
    | with_reducible apply Keeps.ite1
    | with_reducible apply Keeps.donorSet
    | with_reducible apply Keeps.lstEvt

theorem Keeps.presenceSeen {z0 s : State} {ch : Nat} {pci : Nat} (hz : Keeps z0 s)  : Keeps z0 (Machine.presenceSeen ch pci s) := by
  unfold Machine.presenceSeen
  try lift_lets
  repeat' first
    | with_reducible assumption
    | (intro x; with_reducible refine Keeps.cut (o := z0) x ?_ ?_; dsimp only [x]; rotate_left; try clear_value x)
    | (intro x; try clear_value x)
    | with_reducible apply Keeps.ite
    | with_reducible apply Keeps.ite1
    | with_reducible apply Keeps.forN
    | with_reducible apply Keeps.donorEval
    | with_reducible apply Keeps.set
    | ((first | rw [patch_eq] | skip); (with_reducible refine Keeps.patch ?_ ?_ ?_); rotate_left; (first | exact CelKeeps.refl _ | exact ⟨fun _ h => h, Nat.le_refl _⟩ | exact ⟨fun _ h => h, Nat.le_succ _⟩); (refine fun g => ?_; first | exact g | simpa only [SizesOk, Machine.patch, upd_length] using g | (simp only [SizesOk, Machine.patch, upd_length, List.length_map, List.length_replicate, true_and] at g ⊢; tauto)))

theorem Keeps.presenceExpire {z0 s : State} {i : Nat} (hz : Keeps z0 s)  : Keeps z0 (Machine.presenceExpire i s) := by
  unfold Machine.presenceExpire
  try lift_lets
  repeat' first
    | with_reducible assumption
    | (intro x; with_reducible refine Keeps.cut (o := z0) x ?_ ?_; dsimp only [x]; rotate_left; try clear_value x)
    | (intro x; try clear_value x)
    | with_reducible apply Keeps.ite
    | with_reducible apply Keeps.ite1
    | with_reducible apply Keeps.donorEval
    | with_reducible apply Keeps.set
    | ((first | rw [patch_eq] | skip); (with_reducible refine Keeps.patch ?_ ?_ ?_); rotate_left; (first | exact CelKeeps.refl _ | exact ⟨fun _ h => h, Nat.le_refl _⟩ | exact ⟨fun _ h => h, Nat.le_succ _⟩); (refine fun g => ?_; first | exact g | simpa only [SizesOk, Machine.patch, upd_length] using g | (simp only [SizesOk, Machine.patch, upd_length, List.length_map, List.length_replicate, true_and] at g ⊢; tauto)))

theorem Keeps.wrAllow {z0 s : State} {i : Nat} {w : Word} (hz : Keeps z0 s)  : Keeps z0 (Machine.wrAllow i w s) := by
  unfold Machine.wrAllow
  try lift_lets
  repeat' first
    | with_reducible assumption
    | (intro x; with_reducible refine Keeps.cut (o := z0) x ?_ ?_; dsimp only [x]; rotate_left; try clear_value x)
    | (intro x; try clear_value x)
    | with_reducible apply Keeps.ite
    | with_reducible apply Keeps.ite1
    | with_reducible apply Keeps.donorEval
    | with_reducible apply Keeps.set
    | with_reducible apply Keeps.store
    | with_reducible apply Keeps.ret

theorem Keeps.lstSample {z0 s : State} {ch : Nat} {t : Int} {w : Nat} (hz : Keeps z0 s)  : Keeps z0 (Machine.lstSample ch t w s) := by
  unfold Machine.lstSample
  try lift_lets
  repeat' first
    | with_reducible assumption
    | (intro x; with_reducible refine Keeps.cut (o := z0) x ?_ ?_; dsimp only [x]; rotate_left; try clear_value x)
    | (intro x; with_reducible refine Keeps.cut1 (o := z0) x ?_ ?_; dsimp only [x]; rotate_left; try clear_value x)
    | (intro x; with_reducible refine Keeps.cutF x ?_; try dsimp only [x])
    | (intro x; try clear_value x)
    | with_reducible apply Keeps.ite
    | with_reducible apply Keeps.ite1
    | with_reducible apply Keeps.updLst
    | ((first | rw [patch_eq] | skip); (with_reducible refine Keeps.patch ?_ ?_ ?_); rotate_left; (first | exact CelKeeps.refl _ | exact ⟨fun _ h => h, Nat.le_refl _⟩ | exact ⟨fun _ h => h, Nat.le_succ _⟩); (refine fun g => ?_; first | exact g | simpa only [SizesOk, Machine.patch, upd_length] using g | (simp only [SizesOk, Machine.patch, upd_length, List.length_map, List.length_replicate, true_and] at g ⊢; tauto)))
    | (fail_if_no_progress dsimp -zeta only)
    | split

theorem Keeps.putTrack {z0 s : State} {ch : Nat} {t : Int} (hz : Keeps z0 s)  : Keeps z0 (Machine.putTrack ch t s) := by
  unfold Machine.putTrack
  try lift_lets
  repeat' first
    | with_reducible assumption
    | (intro x; with_reducible refine Keeps.cut (o := z0) x ?_ ?_; dsimp only [x]; rotate_left; try clear_value x)
    | (intro x; try clear_value x)
    | with_reducible apply Keeps.updLst
    | with_reducible apply Keeps.wr
    | ((first | rw [patch_eq] | skip); (with_reducible refine Keeps.patch ?_ ?_ ?_); rotate_left; (first | exact CelKeeps.refl _ | exact ⟨fun _ h => h, Nat.le_refl _⟩ | exact ⟨fun _ h => h, Nat.le_succ _⟩); (refine fun g => ?_; first | exact g | simpa only [SizesOk, Machine.patch, upd_length] using g | (simp only [SizesOk, Machine.patch, upd_length, List.length_map, List.length_replicate, true_and] at g ⊢; tauto)))

theorem Keeps.tddShift {z0 s : State} {ch : Nat} {d : Int} (hz : Keeps z0 s)  : Keeps z0 (Machine.tddShift ch d s) := by
  unfold Machine.tddShift
  repeat' first
    | with_reducible assumption
    | with_reducible apply Keeps.updLst
    | ((first | rw [patch_eq] | skip); (with_reducible refine Keeps.patch ?_ ?_ ?_); rotate_left; (first | exact CelKeeps.refl _ | exact ⟨fun _ h => h, Nat.le_refl _⟩ | exact ⟨fun _ h => h, Nat.le_succ _⟩); (refine fun g => ?_; first | exact g | simpa only [SizesOk, Machine.patch, upd_length] using g | (simp only [SizesOk, Machine.patch, upd_length, List.length_map, List.length_replicate, true_and] at g ⊢; tauto)))

theorem Keeps.trackSeen {z0 s : State} {ch : Nat} {time : Nat} {sf5 : Bool} (hz : Keeps z0 s)  : Keeps z0 (Machine.trackSeen ch time sf5 s) := by
  unfold Machine.trackSeen
  repeat' first
    | with_reducible assumption
    | (intro x; with_reducible refine Keeps.cut (o := z0) x ?_ ?_; dsimp only [x]; rotate_left; try clear_value x)
    | (intro x; try clear_value x)
    | with_reducible apply Keeps.ite
    | with_reducible apply Keeps.ite1
    | with_reducible apply Keeps.updLst
    | with_reducible apply Keeps.lstEvt
    | with_reducible apply Keeps.putTrack
    | with_reducible apply Keeps.tddShift
    | with_reducible apply Keeps.set
    | (fail_if_no_progress dsimp -zeta only)
    | split
    | lift_lets

theorem Keeps.trackTick {z0 s : State}  (hz : Keeps z0 s)  : Keeps z0 (Machine.trackTick s) := by
  unfold Machine.trackTick
  repeat' first
    | with_reducible assumption
    | (intro x; try clear_value x)
    | with_reducible apply Keeps.ite
    | with_reducible apply Keeps.ite1
    | with_reducible apply Keeps.forN
    | with_reducible apply Keeps.putTrack
    | (fail_if_no_progress dsimp -zeta only)
    | split

theorem Keeps.timingStale {z0 s : State} {ch : Nat} (hz : Keeps z0 s)  : Keeps z0 (Machine.timingStale ch s) := by
  unfold Machine.timingStale
  repeat' first
    | with_reducible assumption
    | with_reducible apply Keeps.ite
    | with_reducible apply Keeps.ite1
    | with_reducible apply Keeps.lstEvt
    | with_reducible apply Keeps.set

theorem Keeps.rxStart {z0 s : State} {ch : Nat} {r : Rxn} {pend : Bool} (hz : Keeps z0 s)  : Keeps z0 (Machine.rxStart ch r pend s) := by
  unfold Machine.rxStart
  try lift_lets
  repeat' first
    | with_reducible assumption
    | (intro x; with_reducible refine Keeps.cut (o := z0) x ?_ ?_; dsimp only [x]; rotate_left; try clear_value x)
    | (intro x; try clear_value x)
    | with_reducible apply Keeps.updLst
    | with_reducible apply Keeps.set
    | ((first | rw [patch_eq] | skip); (with_reducible refine Keeps.patch ?_ ?_ ?_); rotate_left; (first | exact CelKeeps.refl _ | exact ⟨fun _ h => h, Nat.le_refl _⟩ | exact ⟨fun _ h => h, Nat.le_succ _⟩); (refine fun g => ?_; first | exact g | simpa only [SizesOk, Machine.patch, upd_length] using g | (simp only [SizesOk, Machine.patch, upd_length, List.length_map, List.length_replicate, true_and] at g ⊢; tauto)))

theorem Keeps.dropCand {z0 s : State} {ch : Nat} (hz : Keeps z0 s)  : Keeps z0 (Machine.dropCand ch s) := by
  unfold Machine.dropCand
  repeat' first
    | with_reducible assumption
    | with_reducible apply Keeps.updLst
    | with_reducible apply Keeps.set
    | ((first | rw [patch_eq] | skip); (with_reducible refine Keeps.patch ?_ ?_ ?_); rotate_left; (first | exact CelKeeps.refl _ | exact ⟨fun _ h => h, Nat.le_refl _⟩ | exact ⟨fun _ h => h, Nat.le_succ _⟩); (refine fun g => ?_; first | exact g | simpa only [SizesOk, Machine.patch, upd_length] using g | (simp only [SizesOk, Machine.patch, upd_length, List.length_map, List.length_replicate, true_and] at g ⊢; tauto)))

theorem Keeps.rxRecord {z0 s : State} {ch : Nat} {c : Code} {reason : Nat} (hz : Keeps z0 s)  : Keeps z0 (Machine.rxRecord ch c reason s) := by
  unfold Machine.rxRecord
  try lift_lets
  repeat' first
    | with_reducible assumption
    | (intro x; with_reducible refine Keeps.cut (o := z0) x ?_ ?_; dsimp only [x]; rotate_left; try clear_value x)
    | (intro x; try clear_value x)
    | with_reducible apply Keeps.ite
    | with_reducible apply Keeps.ite1
    | with_reducible apply Keeps.rxEvt
    | with_reducible apply Keeps.set

theorem Keeps.rxEnd {z0 s : State} {ch : Nat} {c : Code} {reason : Nat} {t : Nat} (hz : Keeps z0 s)  : Keeps z0 (Machine.rxEnd ch c reason t s) := by
  unfold Machine.rxEnd
  try lift_lets
  repeat' first
    | with_reducible assumption
    | (intro x; with_reducible refine Keeps.cut (o := z0) x ?_ ?_; dsimp only [x]; rotate_left; try clear_value x)
    | (intro x; try clear_value x)
    | with_reducible apply Keeps.updLst
    | with_reducible apply Keeps.rxRecord
    | with_reducible apply Keeps.set
    | ((first | rw [patch_eq] | skip); (with_reducible refine Keeps.patch ?_ ?_ ?_); rotate_left; (first | exact CelKeeps.refl _ | exact ⟨fun _ h => h, Nat.le_refl _⟩ | exact ⟨fun _ h => h, Nat.le_succ _⟩); (refine fun g => ?_; first | exact g | simpa only [SizesOk, Machine.patch, upd_length] using g | (simp only [SizesOk, Machine.patch, upd_length, List.length_map, List.length_replicate, true_and] at g ⊢; tauto)))

theorem Keeps.rxFalse {z0 s : State} {ch : Nat} (hz : Keeps z0 s)  : Keeps z0 (Machine.rxFalse ch s) := by
  unfold Machine.rxFalse
  repeat' first
    | with_reducible assumption
    | (intro x; with_reducible refine Keeps.cut (o := z0) x ?_ ?_; dsimp only [x]; rotate_left; try clear_value x)
    | (intro x; try clear_value x)
    | with_reducible apply Keeps.rxStart
    | with_reducible apply Keeps.dropCand
    | with_reducible apply Keeps.rxEnd
    | with_reducible apply Keeps.addSat
    | (fail_if_no_progress dsimp -zeta only)
    | split
    | lift_lets

theorem Keeps.nrStore {z0 s : State} {ch : Nat} {re : List Word} (hz : Keeps z0 s)  : Keeps z0 (Machine.nrStore ch re s) := by
  unfold Machine.nrStore
  repeat' first
    | with_reducible assumption
    | (intro x; try clear_value x)
    | with_reducible apply Keeps.ite
    | with_reducible apply Keeps.ite1
    | with_reducible apply Keeps.forN
    | with_reducible apply Keeps.lstEvt
    | with_reducible apply Keeps.wr
    | with_reducible apply Keeps.set
    | with_reducible apply Keeps.addSat

theorem Keeps.rxDone {z0 s : State} {ch : Nat} {re : List Word} (hz : Keeps z0 s)  : Keeps z0 (Machine.rxDone ch re s) := by
  unfold Machine.rxDone
  repeat' first
    | with_reducible assumption
    | with_reducible apply Keeps.ite
    | with_reducible apply Keeps.ite1
    | with_reducible apply Keeps.presenceSeen
    | with_reducible apply Keeps.trackSeen
    | with_reducible apply Keeps.rxEnd
    | with_reducible apply Keeps.nrStore
    | with_reducible apply Keeps.set
    | ((first | rw [patch_eq] | skip); (with_reducible refine Keeps.patch ?_ ?_ ?_); rotate_left; (first | exact CelKeeps.refl _ | exact ⟨fun _ h => h, Nat.le_refl _⟩ | exact ⟨fun _ h => h, Nat.le_succ _⟩); (refine fun g => ?_; first | exact g | simpa only [SizesOk, Machine.patch, upd_length] using g | (simp only [SizesOk, Machine.patch, upd_length, List.length_map, List.length_replicate, true_and] at g ⊢; tauto)))

theorem Keeps.syncDetect {z0 s : State} {ch : Nat} (hz : Keeps z0 s)  : Keeps z0 (Machine.syncDetect ch s) := by
  unfold Machine.syncDetect
  repeat' first
    | with_reducible assumption
    | (intro x; with_reducible refine Keeps.cut (o := z0) x ?_ ?_; dsimp only [x]; rotate_left; try clear_value x)
    | (intro x; with_reducible refine Keeps.cut1 (o := z0) x ?_ ?_; dsimp only [x]; rotate_left; try clear_value x)
    | (intro x; with_reducible refine Keeps.cutF x ?_; try dsimp only [x])
    | (intro x; try clear_value x)
    | with_reducible apply Keeps.ite
    | with_reducible apply Keeps.ite1
    | with_reducible apply Keeps.rxStart
    | with_reducible apply Keeps.freeNext
    | ((first | rw [patch_eq] | skip); (with_reducible refine Keeps.patch ?_ ?_ ?_); rotate_left; (first | exact CelKeeps.refl _ | exact ⟨fun _ h => h, Nat.le_refl _⟩ | exact ⟨fun _ h => h, Nat.le_succ _⟩); (refine fun g => ?_; first | exact g | simpa only [SizesOk, Machine.patch, upd_length] using g | (simp only [SizesOk, Machine.patch, upd_length, List.length_map, List.length_replicate, true_and] at g ⊢; tauto)))
    | (fail_if_no_progress dsimp -zeta only)
    | split

theorem Keeps.cellReport {z0 s : State} {ch : Nat} {r : Rxn} {e : Eval} (hz : Keeps z0 s)  : Keeps z0 (Machine.cellReport ch r e s) := by
  unfold Machine.cellReport
  try lift_lets
  repeat' first
    | with_reducible assumption
    | (intro x; with_reducible refine Keeps.cut (o := z0) x ?_ ?_; dsimp only [x]; rotate_left; try clear_value x)
    | (intro x; with_reducible refine Keeps.cut1 (o := z0) x ?_ ?_; dsimp only [x]; rotate_left; try clear_value x)
    | (intro x; with_reducible refine Keeps.cutF x ?_; try dsimp only [x])
    | (intro x; try clear_value x)
    | with_reducible apply Keeps.updLst
    | with_reducible apply Keeps.wr
    | with_reducible apply Keeps.set
    | with_reducible apply Keeps.seti
    | ((first | rw [patch_eq] | skip); (with_reducible refine Keeps.patch ?_ ?_ ?_); rotate_left; (first | exact CelKeeps.refl _ | exact ⟨fun _ h => h, Nat.le_refl _⟩ | exact ⟨fun _ h => h, Nat.le_succ _⟩); (refine fun g => ?_; first | exact g | simpa only [SizesOk, Machine.patch, upd_length] using g | (simp only [SizesOk, Machine.patch, upd_length, List.length_map, List.length_replicate, true_and] at g ⊢; tauto)))
    | (fail_if_no_progress dsimp -zeta only)
    | split

theorem Keeps.sssJudge {z0 s : State} {ch : Nat} {r : Rxn} {e : Eval} (hz : Keeps z0 s)  : Keeps z0 (Machine.sssJudge ch r e s) := by
  unfold Machine.sssJudge
  try lift_lets
  repeat' first
    | with_reducible assumption
    | (intro x; with_reducible refine Keeps.cut (o := z0) x ?_ ?_; dsimp only [x]; rotate_left; try clear_value x)
    | (intro x; with_reducible refine Keeps.cut1 (o := z0) x ?_ ?_; dsimp only [x]; rotate_left; try clear_value x)
    | (intro x; with_reducible refine Keeps.cutF x ?_; try dsimp only [x])
    | (intro x; try clear_value x)
    | with_reducible apply Keeps.ite
    | with_reducible apply Keeps.ite1
    | with_reducible apply Keeps.rxFalse
    | with_reducible apply Keeps.rxDone
    | with_reducible apply Keeps.cellReport
    | with_reducible apply Keeps.set
    | with_reducible apply Keeps.seti
    | (fail_if_no_progress dsimp -zeta only)
    | split

theorem Keeps.sssEvaluate {z0 s : State} {ch : Nat} (hz : Keeps z0 s)  : Keeps z0 (Machine.sssEvaluate ch s) := by
  unfold Machine.sssEvaluate
  repeat' first
    | with_reducible assumption
    | (intro x; with_reducible refine Keeps.cut (o := z0) x ?_ ?_; dsimp only [x]; rotate_left; try clear_value x)
    | (intro x; with_reducible refine Keeps.cut1 (o := z0) x ?_ ?_; dsimp only [x]; rotate_left; try clear_value x)
    | (intro x; with_reducible refine Keeps.cutF x ?_; try dsimp only [x])
    | (intro x; try clear_value x)
    | with_reducible apply Keeps.sssJudge
    | ((first | rw [patch_eq] | skip); (with_reducible refine Keeps.patch ?_ ?_ ?_); rotate_left; (first | exact CelKeeps.refl _ | exact ⟨fun _ h => h, Nat.le_refl _⟩ | exact ⟨fun _ h => h, Nat.le_succ _⟩); (refine fun g => ?_; first | exact g | simpa only [SizesOk, Machine.patch, upd_length] using g | (simp only [SizesOk, Machine.patch, upd_length, List.length_map, List.length_replicate, true_and] at g ⊢; tauto)))
    | (fail_if_no_progress dsimp -zeta only)
    | split

theorem Keeps.pbchJudge {z0 s : State} {ch : Nat} {r : Rxn} {soft : List Int} (hz : Keeps z0 s)  : Keeps z0 (Machine.pbchJudge ch r soft s) := by
  unfold Machine.pbchJudge
  repeat' first
    | with_reducible assumption
    | (intro x; with_reducible refine Keeps.cut (o := z0) x ?_ ?_; dsimp only [x]; rotate_left; try clear_value x)
    | (intro x; with_reducible refine Keeps.cut1 (o := z0) x ?_ ?_; dsimp only [x]; rotate_left; try clear_value x)
    | (intro x; with_reducible refine Keeps.cutF x ?_; try dsimp only [x])
    | (intro x; try clear_value x)
    | with_reducible apply Keeps.ite
    | with_reducible apply Keeps.ite1
    | with_reducible apply Keeps.updLst
    | with_reducible apply Keeps.rxEnd
    | with_reducible apply Keeps.rxDone
    | with_reducible apply Keeps.set
    | ((first | rw [patch_eq] | skip); (with_reducible refine Keeps.patch ?_ ?_ ?_); rotate_left; (first | exact CelKeeps.refl _ | exact ⟨fun _ h => h, Nat.le_refl _⟩ | exact ⟨fun _ h => h, Nat.le_succ _⟩); (refine fun g => ?_; first | exact g | simpa only [SizesOk, Machine.patch, upd_length] using g | (simp only [SizesOk, Machine.patch, upd_length, List.length_map, List.length_replicate, true_and] at g ⊢; tauto)))
    | (fail_if_no_progress dsimp -zeta only)
    | split
    | lift_lets

theorem Keeps.pbchDecode {z0 s : State} {ch : Nat} {soft : List Int} (hz : Keeps z0 s)  : Keeps z0 (Machine.pbchDecode ch soft s) := by
  unfold Machine.pbchDecode
  repeat' first
    | with_reducible assumption
    | (intro x; with_reducible refine Keeps.cut (o := z0) x ?_ ?_; dsimp only [x]; rotate_left; try clear_value x)
    | (intro x; with_reducible refine Keeps.cut1 (o := z0) x ?_ ?_; dsimp only [x]; rotate_left; try clear_value x)
    | (intro x; with_reducible refine Keeps.cutF x ?_; try dsimp only [x])
    | (intro x; try clear_value x)
    | with_reducible apply Keeps.ite
    | with_reducible apply Keeps.ite1
    | with_reducible apply Keeps.rxFalse
    | with_reducible apply Keeps.pbchJudge
    | with_reducible apply Keeps.seti
    | ((first | rw [patch_eq] | skip); (with_reducible refine Keeps.patch ?_ ?_ ?_); rotate_left; (first | exact CelKeeps.refl _ | exact ⟨fun _ h => h, Nat.le_refl _⟩ | exact ⟨fun _ h => h, Nat.le_succ _⟩); (refine fun g => ?_; first | exact g | simpa only [SizesOk, Machine.patch, upd_length] using g | (simp only [SizesOk, Machine.patch, upd_length, List.length_map, List.length_replicate, true_and] at g ⊢; tauto)))
    | (fail_if_no_progress dsimp -zeta only)
    | split
    | lift_lets

theorem Keeps.watchJudge {z0 s : State} {ch : Nat} {r : Rxn} {p : Option Peak} {fals : Bool} (hz : Keeps z0 s)  : Keeps z0 (Machine.watchJudge ch r p fals s) := by
  unfold Machine.watchJudge
  repeat' first
    | with_reducible assumption
    | (intro x; with_reducible refine Keeps.cut (o := z0) x ?_ ?_; dsimp only [x]; rotate_left; try clear_value x)
    | (intro x; with_reducible refine Keeps.cut1 (o := z0) x ?_ ?_; dsimp only [x]; rotate_left; try clear_value x)
    | (intro x; with_reducible refine Keeps.cutF x ?_; try dsimp only [x])
    | (intro x; try clear_value x)
    | with_reducible apply Keeps.ite
    | with_reducible apply Keeps.ite1
    | with_reducible apply Keeps.updLst
    | with_reducible apply Keeps.rxStart
    | with_reducible apply Keeps.rxRecord
    | with_reducible apply Keeps.rxFalse
    | with_reducible apply Keeps.set
    | with_reducible apply Keeps.addSat
    | with_reducible apply Keeps.freeNext
    | ((first | rw [patch_eq] | skip); (with_reducible refine Keeps.patch ?_ ?_ ?_); rotate_left; (first | exact CelKeeps.refl _ | exact ⟨fun _ h => h, Nat.le_refl _⟩ | exact ⟨fun _ h => h, Nat.le_succ _⟩); (refine fun g => ?_; first | exact g | simpa only [SizesOk, Machine.patch, upd_length] using g | (simp only [SizesOk, Machine.patch, upd_length, List.length_map, List.length_replicate, true_and] at g ⊢; tauto)))
    | (fail_if_no_progress dsimp -zeta only)
    | split
    | lift_lets

theorem Keeps.watchPeak {z0 s : State} {ch : Nat} {eval : Bool} (hz : Keeps z0 s)  : Keeps z0 (Machine.watchPeak ch eval s) := by
  unfold Machine.watchPeak
  repeat' first
    | with_reducible assumption
    | (intro x; with_reducible refine Keeps.cut (o := z0) x ?_ ?_; dsimp only [x]; rotate_left; try clear_value x)
    | (intro x; with_reducible refine Keeps.cut1 (o := z0) x ?_ ?_; dsimp only [x]; rotate_left; try clear_value x)
    | (intro x; with_reducible refine Keeps.cutF x ?_; try dsimp only [x])
    | (intro x; try clear_value x)
    | with_reducible apply Keeps.ite
    | with_reducible apply Keeps.ite1
    | with_reducible apply Keeps.watchJudge
    | with_reducible apply Keeps.seti
    | ((first | rw [patch_eq] | skip); (with_reducible refine Keeps.patch ?_ ?_ ?_); rotate_left; (first | exact CelKeeps.refl _ | exact ⟨fun _ h => h, Nat.le_refl _⟩ | exact ⟨fun _ h => h, Nat.le_succ _⟩); (refine fun g => ?_; first | exact g | simpa only [SizesOk, Machine.patch, upd_length] using g | (simp only [SizesOk, Machine.patch, upd_length, List.length_map, List.length_replicate, true_and] at g ⊢; tauto)))
    | (fail_if_no_progress dsimp -zeta only)
    | split
    | lift_lets

theorem Keeps.candidateExpire {z0 s : State} {ch : Nat} (hz : Keeps z0 s)  : Keeps z0 (Machine.candidateExpire ch s) := by
  unfold Machine.candidateExpire
  repeat' first
    | with_reducible assumption
    | with_reducible apply Keeps.dropCand

theorem Keeps.agcWindowEnd {z0 s : State} {ch : Nat} (hz : Keeps z0 s)  : Keeps z0 (Machine.agcWindowEnd ch s) := by
  unfold Machine.agcWindowEnd
  repeat' first
    | with_reducible assumption
    | with_reducible apply Keeps.ite
    | with_reducible apply Keeps.ite1
    | with_reducible apply Keeps.updLst
    | with_reducible apply Keeps.set
    | (fail_if_no_progress dsimp -zeta only)
    | split

theorem Keeps.lstNow {z0 s : State} {ch : Nat} {c : Code} (hz : Keeps z0 s)  : Keeps z0 (Machine.lstNow ch c s) := by
  unfold Machine.lstNow
  repeat' first
    | with_reducible assumption
    | with_reducible apply Keeps.lstEvt
    | with_reducible apply Keeps.set
    | with_reducible apply Keeps.ret

theorem Keeps.lstStart {z0 s : State} {ch : Nat} (hz : Keeps z0 s)  : Keeps z0 (Machine.lstStart ch s) := by
  unfold Machine.lstStart
  try lift_lets
  repeat' first
    | with_reducible assumption
    | (intro x; with_reducible refine Keeps.cut (o := z0) x ?_ ?_; dsimp only [x]; rotate_left; try clear_value x)
    | (intro x; try clear_value x)
    | with_reducible apply Keeps.ite
    | with_reducible apply Keeps.ite1
    | with_reducible apply Keeps.updLst
    | with_reducible apply Keeps.lstNow
    | with_reducible apply Keeps.set
    | ((first | rw [patch_eq] | skip); (with_reducible refine Keeps.patch ?_ ?_ ?_); rotate_left; (first | exact CelKeeps.refl _ | exact ⟨fun _ h => h, Nat.le_refl _⟩ | exact ⟨fun _ h => h, Nat.le_succ _⟩); (refine fun g => ?_; first | exact g | simpa only [SizesOk, Machine.patch, upd_length] using g | (simp only [SizesOk, Machine.patch, upd_length, List.length_map, List.length_replicate, true_and] at g ⊢; tauto)))

theorem Keeps.lstToOff {z0 s : State} {ch : Nat} {reason : Nat} (hz : Keeps z0 s)  : Keeps z0 (Machine.lstToOff ch reason s) := by
  unfold Machine.lstToOff
  repeat' first
    | with_reducible assumption
    | with_reducible apply Keeps.ite
    | with_reducible apply Keeps.ite1
    | with_reducible apply Keeps.dropCand
    | with_reducible apply Keeps.rxEnd
    | with_reducible apply Keeps.set

theorem Keeps.lstStop {z0 s : State} {ch : Nat} (hz : Keeps z0 s)  : Keeps z0 (Machine.lstStop ch s) := by
  unfold Machine.lstStop
  repeat' first
    | with_reducible assumption
    | with_reducible apply Keeps.lstNow
    | with_reducible apply Keeps.lstToOff

theorem Keeps.lstRestart {z0 s : State} {ch : Nat} (hz : Keeps z0 s)  : Keeps z0 (Machine.lstRestart ch s) := by
  unfold Machine.lstRestart
  repeat' first
    | with_reducible assumption
    | with_reducible apply Keeps.dropCand
    | with_reducible apply Keeps.rxEnd
    | with_reducible apply Keeps.lstNow
    | (fail_if_no_progress dsimp -zeta only)
    | split

theorem Keeps.wrLstCmd {z0 s : State} {ch : Nat} {w : Word} (hz : Keeps z0 s)  : Keeps z0 (Machine.wrLstCmd ch w s) := by
  unfold Machine.wrLstCmd
  repeat' first
    | with_reducible assumption
    | with_reducible apply Keeps.lstNow
    | with_reducible apply Keeps.lstStart
    | with_reducible apply Keeps.lstStop
    | with_reducible apply Keeps.lstRestart
    | (fail_if_no_progress dsimp -zeta only)
    | split

theorem Keeps.lstPortOff {z0 s : State} {p : Nat} (hz : Keeps z0 s)  : Keeps z0 (Machine.lstPortOff p s) := by
  unfold Machine.lstPortOff
  repeat' first
    | with_reducible assumption
    | (intro x; try clear_value x)
    | with_reducible apply Keeps.ite
    | with_reducible apply Keeps.ite1
    | with_reducible apply Keeps.forN
    | with_reducible apply Keeps.lstToOff
    | with_reducible apply Keeps.set

theorem Keeps.wrTddB {z0 s : State} {ch : Nat} {w : Word} (hz : Keeps z0 s)  : Keeps z0 (Machine.wrTddB ch w s) := by
  unfold Machine.wrTddB
  try lift_lets
  repeat' first
    | with_reducible assumption
    | (intro x; with_reducible refine Keeps.cut (o := z0) x ?_ ?_; dsimp only [x]; rotate_left; try clear_value x)
    | (intro x; try clear_value x)
    | with_reducible apply Keeps.ite
    | with_reducible apply Keeps.ite1
    | with_reducible apply Keeps.updLst
    | with_reducible apply Keeps.store
    | with_reducible apply Keeps.ret
    | ((first | rw [patch_eq] | skip); (with_reducible refine Keeps.patch ?_ ?_ ?_); rotate_left; (first | exact CelKeeps.refl _ | exact ⟨fun _ h => h, Nat.le_refl _⟩ | exact ⟨fun _ h => h, Nat.le_succ _⟩); (refine fun g => ?_; first | exact g | simpa only [SizesOk, Machine.patch, upd_length] using g | (simp only [SizesOk, Machine.patch, upd_length, List.length_map, List.length_replicate, true_and] at g ⊢; tauto)))

theorem Keeps.tddPut {z0 s : State} {ch : Nat} {p : Word × Word} {t : Int} (hz : Keeps z0 s)  : Keeps z0 (Machine.tddPut ch p t s) := by
  unfold Machine.tddPut
  repeat' first
    | with_reducible assumption
    | with_reducible apply Keeps.ite2
    | with_reducible apply Keeps.updLst
    | ((first | rw [patch_eq] | skip); (with_reducible refine Keeps.patch ?_ ?_ ?_); rotate_left; (first | exact CelKeeps.refl _ | exact ⟨fun _ h => h, Nat.le_refl _⟩ | exact ⟨fun _ h => h, Nat.le_succ _⟩); (refine fun g => ?_; first | exact g | simpa only [SizesOk, Machine.patch, upd_length] using g | (simp only [SizesOk, Machine.patch, upd_length, List.length_map, List.length_replicate, true_and] at g ⊢; tauto)))

theorem Keeps.tddActivate {z0 s : State} {ch : Nat} (hz : Keeps z0 s)  : Keeps z0 (Machine.tddActivate ch s) := by
  unfold Machine.tddActivate
  repeat' first
    | with_reducible assumption
    | with_reducible apply Keeps.ite
    | with_reducible apply Keeps.ite1
    | with_reducible apply Keeps.tddPut
    | (fail_if_no_progress dsimp -zeta only)
    | split

theorem Keeps.patAt {z0 s : State} {ch : Nat} {t : Int} (hz : Keeps z0 s)  : Keeps z0 (Machine.patAt ch t s) := by
  unfold Machine.patAt
  repeat' first
    | with_reducible assumption
    | with_reducible apply Keeps.ite
    | with_reducible apply Keeps.ite1
    | with_reducible apply Keeps.tddPut
    | (fail_if_no_progress dsimp -zeta only)
    | split

theorem Keeps.nrsGroup {z0 s : State} {g : Nat} (hz : Keeps z0 s)  : Keeps z0 (Machine.nrsGroup g s) := by
  unfold Machine.nrsGroup
  repeat' first
    | with_reducible assumption
    | (intro x; try clear_value x)
    | with_reducible apply Keeps.ite
    | with_reducible apply Keeps.ite1
    | with_reducible apply Keeps.forN
    | with_reducible apply Keeps.nrsRefresh

theorem Keeps.nfCount {z0 s : State} {g : Nat} {w : Nat} (hz : Keeps z0 s)  : Keeps z0 (Machine.nfCount g w s) := by
  unfold Machine.nfCount
  try lift_lets
  repeat' first
    | with_reducible assumption
    | (intro x; with_reducible refine Keeps.cut (o := z0) x ?_ ?_; dsimp only [x]; rotate_left; try clear_value x)
    | (intro x; with_reducible refine Keeps.cut1 (o := z0) x ?_ ?_; dsimp only [x]; rotate_left; try clear_value x)
    | (intro x; with_reducible refine Keeps.cutF x ?_; try dsimp only [x])
    | (intro x; try clear_value x)
    | with_reducible apply Keeps.ite
    | with_reducible apply Keeps.ite1
    | ((first | rw [patch_eq] | skip); (with_reducible refine Keeps.patch ?_ ?_ ?_); rotate_left; (first | exact CelKeeps.refl _ | exact ⟨fun _ h => h, Nat.le_refl _⟩ | exact ⟨fun _ h => h, Nat.le_succ _⟩); (refine fun g => ?_; first | exact g | simpa only [SizesOk, Machine.patch, upd_length] using g | (simp only [SizesOk, Machine.patch, upd_length, List.length_map, List.length_replicate, true_and] at g ⊢; tauto)))
    | (fail_if_no_progress dsimp -zeta only)
    | split

theorem Keeps.nfSample {z0 s : State} {p : Nat} {t : Nat} {w : Nat} (hz : Keeps z0 s)  : Keeps z0 (Machine.nfSample p t w s) := by
  unfold Machine.nfSample
  try lift_lets
  repeat' first
    | with_reducible assumption
    | (intro x; with_reducible refine Keeps.cut (o := z0) x ?_ ?_; dsimp only [x]; rotate_left; try clear_value x)
    | (intro x; with_reducible refine Keeps.cut1 (o := z0) x ?_ ?_; dsimp only [x]; rotate_left; try clear_value x)
    | (intro x; with_reducible refine Keeps.cutF x ?_; try dsimp only [x])
    | (intro x; try clear_value x)
    | with_reducible apply Keeps.ite
    | with_reducible apply Keeps.ite1
    | with_reducible apply Keeps.nfCount
    | with_reducible apply Keeps.freeNext
    | ((first | rw [patch_eq] | skip); (with_reducible refine Keeps.patch ?_ ?_ ?_); rotate_left; (first | exact CelKeeps.refl _ | exact ⟨fun _ h => h, Nat.le_refl _⟩ | exact ⟨fun _ h => h, Nat.le_succ _⟩); (refine fun g => ?_; first | exact g | simpa only [SizesOk, Machine.patch, upd_length] using g | (simp only [SizesOk, Machine.patch, upd_length, List.length_map, List.length_replicate, true_and] at g ⊢; tauto)))
    | (fail_if_no_progress dsimp -zeta only)
    | split

theorem Keeps.nfPublish {z0 s : State} {g : Nat} (hz : Keeps z0 s)  : Keeps z0 (Machine.nfPublish g s) := by
  unfold Machine.nfPublish
  repeat' first
    | with_reducible assumption
    | (intro x; with_reducible refine Keeps.cut (o := z0) x ?_ ?_; dsimp only [x]; rotate_left; try clear_value x)
    | (intro x; with_reducible refine Keeps.cut1 (o := z0) x ?_ ?_; dsimp only [x]; rotate_left; try clear_value x)
    | (intro x; with_reducible refine Keeps.cutF x ?_; try dsimp only [x])
    | (intro x; try clear_value x)
    | with_reducible apply Keeps.ite
    | with_reducible apply Keeps.ite1
    | with_reducible apply Keeps.lstEvt
    | with_reducible apply Keeps.nrsGroup
    | with_reducible apply Keeps.set
    | with_reducible apply Keeps.seti
    | with_reducible apply Keeps.incMod
    | ((first | rw [patch_eq] | skip); (with_reducible refine Keeps.patch ?_ ?_ ?_); rotate_left; (first | exact CelKeeps.refl _ | exact ⟨fun _ h => h, Nat.le_refl _⟩ | exact ⟨fun _ h => h, Nat.le_succ _⟩); (refine fun g => ?_; first | exact g | simpa only [SizesOk, Machine.patch, upd_length] using g | (simp only [SizesOk, Machine.patch, upd_length, List.length_map, List.length_replicate, true_and] at g ⊢; tauto)))
    | (fail_if_no_progress dsimp -zeta only)
    | split
    | lift_lets

theorem Keeps.nfInvalid {z0 s : State} {g : Nat} (hz : Keeps z0 s)  : Keeps z0 (Machine.nfInvalid g s) := by
  unfold Machine.nfInvalid
  repeat' first
    | with_reducible assumption
    | with_reducible apply Keeps.nrsGroup
    | with_reducible apply Keeps.set

theorem Keeps.nfExpire {z0 s : State} {g : Nat} (hz : Keeps z0 s)  : Keeps z0 (Machine.nfExpire g s) := by
  unfold Machine.nfExpire
  repeat' first
    | with_reducible assumption
    | with_reducible apply Keeps.ite
    | with_reducible apply Keeps.ite1
    | with_reducible apply Keeps.lstEvt
    | with_reducible apply Keeps.nfInvalid

theorem Keeps.wrNfCfg {z0 s : State} {g : Nat} {w : Word} (hz : Keeps z0 s)  : Keeps z0 (Machine.wrNfCfg g w s) := by
  unfold Machine.wrNfCfg
  try lift_lets
  repeat' first
    | with_reducible assumption
    | (intro x; with_reducible refine Keeps.cut (o := z0) x ?_ ?_; dsimp only [x]; rotate_left; try clear_value x)
    | (intro x; with_reducible refine Keeps.cut1 (o := z0) x ?_ ?_; dsimp only [x]; rotate_left; try clear_value x)
    | (intro x; with_reducible refine Keeps.cutF x ?_; try dsimp only [x])
    | (intro x; try clear_value x)
    | with_reducible apply Keeps.ite
    | with_reducible apply Keeps.ite1
    | with_reducible apply Keeps.nfInvalid
    | with_reducible apply Keeps.store
    | with_reducible apply Keeps.ret
    | ((first | rw [patch_eq] | skip); (with_reducible refine Keeps.patch ?_ ?_ ?_); rotate_left; (first | exact CelKeeps.refl _ | exact ⟨fun _ h => h, Nat.le_refl _⟩ | exact ⟨fun _ h => h, Nat.le_succ _⟩); (refine fun g => ?_; first | exact g | simpa only [SizesOk, Machine.patch, upd_length] using g | (simp only [SizesOk, Machine.patch, upd_length, List.length_map, List.length_replicate, true_and] at g ⊢; tauto)))
    | (fail_if_no_progress dsimp -zeta only)
    | split

theorem Keeps.presenceEval {z0 s : State}  (hz : Keeps z0 s)  : Keeps z0 (Machine.presenceEval s) := by
  unfold Machine.presenceEval
  repeat' first
    | with_reducible assumption
    | (intro x; with_reducible refine Keeps.cut (o := z0) x ?_ ?_; dsimp only [x]; rotate_left; try clear_value x)
    | (intro x; with_reducible refine Keeps.cut1 (o := z0) x ?_ ?_; dsimp only [x]; rotate_left; try clear_value x)
    | (intro x; with_reducible refine Keeps.cutF x ?_; try dsimp only [x])
    | (intro x; try clear_value x)
    | with_reducible apply Keeps.ite
    | with_reducible apply Keeps.ite1
    | with_reducible apply Keeps.forN
    | with_reducible apply Keeps.donorEval
    | with_reducible apply Keeps.set
    | (fail_if_no_progress dsimp -zeta only)
    | split

theorem Keeps.wrLstCtrl {z0 s : State} {w : Word} (hz : Keeps z0 s)  : Keeps z0 (Machine.wrLstCtrl w s) := by
  unfold Machine.wrLstCtrl
  try lift_lets
  repeat' first
    | with_reducible assumption
    | (intro x; with_reducible refine Keeps.cut (o := z0) x ?_ ?_; dsimp only [x]; rotate_left; try clear_value x)
    | (intro x; with_reducible refine Keeps.cut1 (o := z0) x ?_ ?_; dsimp only [x]; rotate_left; try clear_value x)
    | (intro x; with_reducible refine Keeps.cutF x ?_; try dsimp only [x])
    | (intro x; try clear_value x)
    | with_reducible apply Keeps.ite
    | with_reducible apply Keeps.ite1
    | with_reducible apply Keeps.presenceEval
    | with_reducible apply Keeps.store
    | with_reducible apply Keeps.ret
    | (fail_if_no_progress dsimp -zeta only)
    | split

theorem Keeps.wrLstOff {z0 s : State} {ch : Nat} {a : Nat} {fs : List (Nat × Nat × Acc)} {w : Word} (hz : Keeps z0 s)  : Keeps z0 (Machine.wrLstOff ch a fs w s) := by
  unfold Machine.wrLstOff
  repeat' first
    | with_reducible assumption
    | with_reducible apply Keeps.ite
    | with_reducible apply Keeps.ite1
    | with_reducible apply Keeps.plainWrite
    | with_reducible apply Keeps.ret

theorem Keeps.wrLstChCtrl {z0 s : State} {ch : Nat} {w : Word} (hz : Keeps z0 s)  : Keeps z0 (Machine.wrLstChCtrl ch w s) := by
  unfold Machine.wrLstChCtrl
  repeat' first
    | with_reducible assumption
    | with_reducible apply Keeps.ite
    | with_reducible apply Keeps.ite1
    | with_reducible apply Keeps.wrLstOff
    | with_reducible apply Keeps.ret

theorem Keeps.wrLstThr {z0 s : State} {ch : Nat} {w : Word} (hz : Keeps z0 s)  : Keeps z0 (Machine.wrLstThr ch w s) := by
  unfold Machine.wrLstThr
  try lift_lets
  repeat' first
    | with_reducible assumption
    | (intro x; try clear_value x)
    | with_reducible apply Keeps.ite
    | with_reducible apply Keeps.ite1
    | with_reducible apply Keeps.plainWrite
    | with_reducible apply Keeps.ret

theorem Keeps.wrLstCal {z0 s : State} {ch : Nat} {w : Word} (hz : Keeps z0 s)  : Keeps z0 (Machine.wrLstCal ch w s) := by
  unfold Machine.wrLstCal
  repeat' first
    | with_reducible assumption
    | with_reducible apply Keeps.ite
    | with_reducible apply Keeps.ite1
    | with_reducible apply Keeps.plainWrite
    | with_reducible apply Keeps.ret

theorem Keeps.wrNrbuf {z0 s : State} {ch : Nat} {w : Word} (hz : Keeps z0 s)  : Keeps z0 (Machine.wrNrbuf ch w s) := by
  unfold Machine.wrNrbuf
  repeat' first
    | with_reducible assumption
    | with_reducible apply Keeps.ite
    | with_reducible apply Keeps.ite1
    | with_reducible apply Keeps.set
    | with_reducible apply Keeps.ret

theorem Keeps.rdRxTimeL {z0 s : State} {ch : Nat} (hz : Keeps z0 s)  : Keeps z0 (Machine.rdRxTimeL ch s) := by
  unfold Machine.rdRxTimeL
  repeat' first
    | with_reducible assumption
    | with_reducible apply Keeps.plainRead
    | with_reducible apply Keeps.wr

theorem Keeps.resetLst {z0 s : State}  (hz : Keeps z0 s)  : Keeps z0 (Machine.resetLst s) := by
  unfold Machine.resetLst
  try lift_lets
  repeat' first
    | with_reducible assumption
    | (intro x; with_reducible refine Keeps.cut (o := z0) x ?_ ?_; dsimp only [x]; rotate_left; try clear_value x)
    | (intro x; try clear_value x)
    | with_reducible apply Keeps.forN
    | with_reducible apply Keeps.nrsRefresh
    | with_reducible apply Keeps.donorSet
    | with_reducible apply Keeps.dropRange
    | ((first | rw [patch_eq] | skip); (with_reducible refine Keeps.patch ?_ ?_ ?_); rotate_left; (first | exact CelKeeps.refl _ | exact ⟨fun _ h => h, Nat.le_refl _⟩ | exact ⟨fun _ h => h, Nat.le_succ _⟩); (refine fun g => ?_; first | exact g | simpa only [SizesOk, Machine.patch, upd_length] using g | (simp only [SizesOk, Machine.patch, upd_length, List.length_map, List.length_replicate, true_and] at g ⊢; tauto)))

theorem Keeps.execLstStart {s z : State} {q : Rq} {ch : Fin 2} (e : Machine.execLstStart q ch s = .next z) : Keeps s z := by
  have hz := Keeps.refl s
  revert e
  unfold Machine.execLstStart
  first
    | (intro e; injection e with e; subst e; (repeat' first
         | with_reducible assumption
         | (intro x; try clear_value x)
         | with_reducible apply Keeps.gated
         | with_reducible apply Keeps.lstStart
         ); done)

theorem Keeps.execLstStop {s z : State} {q : Rq} {ch : Fin 2} (e : Machine.execLstStop q ch s = .next z) : Keeps s z := by
  have hz := Keeps.refl s
  revert e
  unfold Machine.execLstStop
  first
    | (intro e; injection e with e; subst e; (repeat' first
         | with_reducible assumption
         | (intro x; try clear_value x)
         | with_reducible apply Keeps.gated
         | with_reducible apply Keeps.lstStop
         ); done)

theorem Keeps.execLstRestart {s z : State} {q : Rq} {ch : Fin 2} (e : Machine.execLstRestart q ch s = .next z) : Keeps s z := by
  have hz := Keeps.refl s
  revert e
  unfold Machine.execLstRestart
  first
    | (intro e; injection e with e; subst e; (repeat' first
         | with_reducible assumption
         | (intro x; try clear_value x)
         | with_reducible apply Keeps.gated
         | with_reducible apply Keeps.lstRestart
         ); done)

theorem Keeps.execAgcWindowEnd {s z : State} {ch : Fin 2} (e : Machine.execAgcWindowEnd ch s = .next z) : Keeps s z := by
  have hz := Keeps.refl s
  revert e
  unfold Machine.execAgcWindowEnd
  first
    | (intro e; injection e with e; subst e; (repeat' first
         | with_reducible assumption
         | with_reducible apply Keeps.agcWindowEnd
         ); done)

theorem Keeps.execSyncDetect {s z : State} {ch : Fin 2} (e : Machine.execSyncDetect ch s = .next z) : Keeps s z := by
  have hz := Keeps.refl s
  revert e
  unfold Machine.execSyncDetect
  first
    | (intro e; injection e with e; subst e; (repeat' first
         | with_reducible assumption
         | (intro x; with_reducible refine Keeps.cut (o := z0) x ?_ ?_; dsimp only [x]; rotate_left; try clear_value x)
         | (intro x; with_reducible refine Keeps.cut1 (o := z0) x ?_ ?_; dsimp only [x]; rotate_left; try clear_value x)
         | (intro x; with_reducible refine Keeps.cutF x ?_; try dsimp only [x])
         | (intro x; try clear_value x)
         | with_reducible apply Keeps.syncDetect
         | (fail_if_no_progress dsimp -zeta only)
         | split
         ); done)

theorem Keeps.execSssEvaluate {s z : State} {ch : Fin 2} (e : Machine.execSssEvaluate ch s = .next z) : Keeps s z := by
  have hz := Keeps.refl s
  revert e
  unfold Machine.execSssEvaluate
  first
    | (intro e; injection e with e; subst e; (repeat' first
         | with_reducible assumption
         | (intro x; with_reducible refine Keeps.cut (o := z0) x ?_ ?_; dsimp only [x]; rotate_left; try clear_value x)
         | (intro x; with_reducible refine Keeps.cut1 (o := z0) x ?_ ?_; dsimp only [x]; rotate_left; try clear_value x)
         | (intro x; with_reducible refine Keeps.cutF x ?_; try dsimp only [x])
         | (intro x; try clear_value x)
         | with_reducible apply Keeps.sssEvaluate
         | (fail_if_no_progress dsimp -zeta only)
         | split
         ); done)

theorem Keeps.execPbchDecode {s z : State} {ch : Fin 2} {soft : List Int} (e : Machine.execPbchDecode ch soft s = .next z) : Keeps s z := by
  have hz := Keeps.refl s
  revert e
  unfold Machine.execPbchDecode
  first
    | (intro e; injection e with e; subst e; (repeat' first
         | with_reducible assumption
         | (intro x; with_reducible refine Keeps.cut (o := z0) x ?_ ?_; dsimp only [x]; rotate_left; try clear_value x)
         | (intro x; with_reducible refine Keeps.cut1 (o := z0) x ?_ ?_; dsimp only [x]; rotate_left; try clear_value x)
         | (intro x; with_reducible refine Keeps.cutF x ?_; try dsimp only [x])
         | (intro x; try clear_value x)
         | with_reducible apply Keeps.pbchDecode
         | (fail_if_no_progress dsimp -zeta only)
         | split
         ); done)

theorem Keeps.execWatchPeak {s z : State} {ch : Fin 2} {eval : Bool} (e : Machine.execWatchPeak ch eval s = .next z) : Keeps s z := by
  have hz := Keeps.refl s
  revert e
  unfold Machine.execWatchPeak
  first
    | (intro e; injection e with e; subst e; (repeat' first
         | with_reducible assumption
         | (intro x; with_reducible refine Keeps.cut (o := z0) x ?_ ?_; dsimp only [x]; rotate_left; try clear_value x)
         | (intro x; with_reducible refine Keeps.cut1 (o := z0) x ?_ ?_; dsimp only [x]; rotate_left; try clear_value x)
         | (intro x; with_reducible refine Keeps.cutF x ?_; try dsimp only [x])
         | (intro x; try clear_value x)
         | with_reducible apply Keeps.watchPeak
         | (fail_if_no_progress dsimp -zeta only)
         | split
         ); done)

theorem Keeps.execCandidateExpire {s z : State} {ch : Fin 2} (e : Machine.execCandidateExpire ch s = .next z) : Keeps s z := by
  have hz := Keeps.refl s
  revert e
  unfold Machine.execCandidateExpire
  first
    | (intro e; injection e with e; subst e; (repeat' first
         | with_reducible assumption
         | with_reducible apply Keeps.candidateExpire
         ); done)

theorem Keeps.execNrbufRelease {s z : State} {q : Rq} {ch : Fin 2} (e : Machine.execNrbufRelease q ch s = .next z) : Keeps s z := by
  have hz := Keeps.refl s
  revert e
  unfold Machine.execNrbufRelease
  first
    | (intro e; injection e with e; subst e; (repeat' first
         | with_reducible assumption
         | (intro x; try clear_value x)
         | with_reducible apply Keeps.gated
         | with_reducible apply Keeps.wrNrbuf
         ); done)

theorem Keeps.execPresenceExpire {s z : State} {r : Fin 32} (e : Machine.execPresenceExpire r s = .next z) : Keeps s z := by
  have hz := Keeps.refl s
  revert e
  unfold Machine.execPresenceExpire
  first
    | (intro e; injection e with e; subst e; (repeat' first
         | with_reducible assumption
         | with_reducible apply Keeps.presenceExpire
         ); done)

theorem Keeps.execTimingStale {s z : State} {ch : Fin 2} (e : Machine.execTimingStale ch s = .next z) : Keeps s z := by
  have hz := Keeps.refl s
  revert e
  unfold Machine.execTimingStale
  first
    | (intro e; injection e with e; subst e; (repeat' first
         | with_reducible assumption
         | with_reducible apply Keeps.timingStale
         ); done)

theorem Keeps.execTddPatternWrite {s z : State} {q : Rq} {ch : Fin 2} {w : Word} (e : Machine.execTddPatternWrite q ch w s = .next z) : Keeps s z := by
  have hz := Keeps.refl s
  revert e
  unfold Machine.execTddPatternWrite
  first
    | (intro e; injection e with e; subst e; (repeat' first
         | with_reducible assumption
         | (intro x; try clear_value x)
         | with_reducible apply Keeps.gated
         | with_reducible apply Keeps.wrTddB
         ); done)

theorem Keeps.execTddPatternActivate {s z : State} {ch : Fin 2} (e : Machine.execTddPatternActivate ch s = .next z) : Keeps s z := by
  have hz := Keeps.refl s
  revert e
  unfold Machine.execTddPatternActivate
  first
    | (intro e; injection e with e; subst e; (repeat' first
         | with_reducible assumption
         | with_reducible apply Keeps.tddActivate
         ); done)

theorem Keeps.execNfPublish {s z : State} {g : Fin 16} (e : Machine.execNfPublish g s = .next z) : Keeps s z := by
  have hz := Keeps.refl s
  revert e
  unfold Machine.execNfPublish
  first
    | (intro e; injection e with e; subst e; (repeat' first
         | with_reducible assumption
         | with_reducible apply Keeps.nfPublish
         ); done)

theorem Keeps.execNfExpire {s z : State} {g : Fin 16} (e : Machine.execNfExpire g s = .next z) : Keeps s z := by
  have hz := Keeps.refl s
  revert e
  unfold Machine.execNfExpire
  first
    | (intro e; injection e with e; subst e; (repeat' first
         | with_reducible assumption
         | with_reducible apply Keeps.nfExpire
         ); done)

theorem Keeps.execLstChCntRead {s z : State} {q : Rq} {ch : Fin 2} (e : Machine.execLstChCntRead q ch s = .next z) : Keeps s z := by
  have hz := Keeps.refl s
  revert e
  unfold Machine.execLstChCntRead
  first
    | (intro e; injection e with e; subst e; (repeat' first
         | with_reducible assumption
         | (intro x; try clear_value x)
         | with_reducible apply Keeps.gatedRead
         | with_reducible apply Keeps.clearRead
         ); done)

theorem Keeps.execLstRxTimeLRead {s z : State} {q : Rq} {ch : Fin 2} (e : Machine.execLstRxTimeLRead q ch s = .next z) : Keeps s z := by
  have hz := Keeps.refl s
  revert e
  unfold Machine.execLstRxTimeLRead
  first
    | (intro e; injection e with e; subst e; (repeat' first
         | with_reducible assumption
         | (intro x; try clear_value x)
         | with_reducible apply Keeps.gatedRead
         | with_reducible apply Keeps.rdRxTimeL
         ); done)

end Sys2Proof.Machine
end

