-- ==== Sys2Proof/Laws/KeepBand.lean ====
section
/-! SUPPORT. What the operations of Band.lean keep. -/

set_option linter.all false

namespace Sys2Proof.Machine

theorem Keeps.bndEvt {z0 s : State} {b : Nat} (hz : Keeps z0 s)  : Keeps z0 (Machine.bndEvt b s) := by
  unfold Machine.bndEvt
  repeat' first
    | with_reducible assumption
    | with_reducible apply Keeps.flag

theorem Keeps.ncoSample {z0 s : State} {k : Nat} {again : Bool} (hz : Keeps z0 s)  : Keeps z0 (Machine.ncoSample k again s) := by
  unfold Machine.ncoSample
  try lift_lets
  repeat' first
    | with_reducible assumption
    | (intro x; with_reducible refine Keeps.cut (o := z0) x ?_ ?_; dsimp only [x]; rotate_left; try clear_value x)
    | (intro x; with_reducible refine Keeps.cut1 (o := z0) x ?_ ?_; dsimp only [x]; rotate_left; try clear_value x)
    | (intro x; with_reducible refine Keeps.cutF x ?_; try dsimp only [x])
    | (intro x; try clear_value x)
    | with_reducible apply Keeps.ite
    | with_reducible apply Keeps.ite1
    | with_reducible apply Keeps.updBnd
    | ((first | rw [patch_eq] | skip); (with_reducible refine Keeps.patch ?_ ?_ ?_); rotate_left; (first | exact CelKeeps.refl _ | exact ⟨fun _ h => h, Nat.le_refl _⟩ | exact ⟨fun _ h => h, Nat.le_succ _⟩); (refine fun g => ?_; first | exact g | simpa only [SizesOk, Machine.patch, upd_length] using g | (simp only [SizesOk, Machine.patch, upd_length, List.length_map, List.length_replicate, true_and] at g ⊢; tauto)))
    | (fail_if_no_progress dsimp -zeta only)
    | split

theorem Keeps.gainRamp {z0 s : State} {k : Nat} {g : Nat} (hz : Keeps z0 s)  : Keeps z0 (Machine.gainRamp k g s) := by
  unfold Machine.gainRamp
  try lift_lets
  repeat' first
    | with_reducible assumption
    | (intro x; try clear_value x)
    | with_reducible apply Keeps.updBnd
    | ((first | rw [patch_eq] | skip); (with_reducible refine Keeps.patch ?_ ?_ ?_); rotate_left; (first | exact CelKeeps.refl _ | exact ⟨fun _ h => h, Nat.le_refl _⟩ | exact ⟨fun _ h => h, Nat.le_succ _⟩); (refine fun g => ?_; first | exact g | simpa only [SizesOk, Machine.patch, upd_length] using g | (simp only [SizesOk, Machine.patch, upd_length, List.length_map, List.length_replicate, true_and] at g ⊢; tauto)))

theorem Keeps.gainFollow {z0 s : State} {k : Nat} {g : Nat} (hz : Keeps z0 s)  : Keeps z0 (Machine.gainFollow k g s) := by
  unfold Machine.gainFollow
  repeat' first
    | with_reducible assumption
    | with_reducible apply Keeps.ite
    | with_reducible apply Keeps.ite1
    | with_reducible apply Keeps.gainRamp

theorem Keeps.delayShow {z0 s : State} {k : Nat} (hz : Keeps z0 s)  : Keeps z0 (Machine.delayShow k s) := by
  unfold Machine.delayShow
  try lift_lets
  repeat' first
    | with_reducible assumption
    | (intro x; try clear_value x)
    | with_reducible apply Keeps.set

theorem Keeps.admShow {z0 s : State} {d : Nat} (hz : Keeps z0 s)  : Keeps z0 (Machine.admShow d s) := by
  unfold Machine.admShow
  try lift_lets
  repeat' first
    | with_reducible assumption
    | (intro x; with_reducible refine Keeps.cut (o := z0) x ?_ ?_; dsimp only [x]; rotate_left; try clear_value x)
    | (intro x; try clear_value x)
    | with_reducible apply Keeps.set

theorem Keeps.admEnd {z0 s : State} {k : Nat} {c : Code} {reason : Nat} (hz : Keeps z0 s)  : Keeps z0 (Machine.admEnd k c reason s) := by
  unfold Machine.admEnd
  repeat' first
    | with_reducible assumption
    | with_reducible apply Keeps.bndEvt
    | with_reducible apply Keeps.set

theorem Keeps.admNow {z0 s : State} {k : Nat} {c : Code} (hz : Keeps z0 s)  : Keeps z0 (Machine.admNow k c s) := by
  unfold Machine.admNow
  repeat' first
    | with_reducible assumption
    | with_reducible apply Keeps.admEnd
    | with_reducible apply Keeps.ret

theorem Keeps.fadeStop {z0 s : State} {k : Nat} (hz : Keeps z0 s)  : Keeps z0 (Machine.fadeStop k s) := by
  unfold Machine.fadeStop
  try lift_lets
  repeat' first
    | with_reducible assumption
    | (intro x; with_reducible refine Keeps.cut (o := z0) x ?_ ?_; dsimp only [x]; rotate_left; try clear_value x)
    | (intro x; try clear_value x)
    | with_reducible apply Keeps.ite
    | with_reducible apply Keeps.ite1
    | with_reducible apply Keeps.updBnd
    | with_reducible apply Keeps.bndEvt
    | with_reducible apply Keeps.set
    | ((first | rw [patch_eq] | skip); (with_reducible refine Keeps.patch ?_ ?_ ?_); rotate_left; (first | exact CelKeeps.refl _ | exact ⟨fun _ h => h, Nat.le_refl _⟩ | exact ⟨fun _ h => h, Nat.le_succ _⟩); (refine fun g => ?_; first | exact g | simpa only [SizesOk, Machine.patch, upd_length] using g | (simp only [SizesOk, Machine.patch, upd_length, List.length_map, List.length_replicate, true_and] at g ⊢; tauto)))

theorem Keeps.pathAdmit {z0 s : State} {k : Nat} (hz : Keeps z0 s)  : Keeps z0 (Machine.pathAdmit k s) := by
  unfold Machine.pathAdmit
  try lift_lets
  repeat' first
    | with_reducible assumption
    | (intro x; with_reducible refine Keeps.cut (o := z0) x ?_ ?_; dsimp only [x]; rotate_left; try clear_value x)
    | (intro x; try clear_value x)
    | with_reducible apply Keeps.causeOff
    | with_reducible apply Keeps.updBnd
    | with_reducible apply Keeps.admEnd
    | with_reducible apply Keeps.set
    | ((first | rw [patch_eq] | skip); (with_reducible refine Keeps.patch ?_ ?_ ?_); rotate_left; (first | exact CelKeeps.refl _ | exact ⟨fun _ h => h, Nat.le_refl _⟩ | exact ⟨fun _ h => h, Nat.le_succ _⟩); (refine fun g => ?_; first | exact g | simpa only [SizesOk, Machine.patch, upd_length] using g | (simp only [SizesOk, Machine.patch, upd_length, List.length_map, List.length_replicate, true_and] at g ⊢; tauto)))

theorem Keeps.queuePassN {o s : State} {d n : Nat} (h : Keeps o s) : Keeps o (Machine.queuePassN d n s) := by
  induction n generalizing s with
  | zero => exact h
  | succ n ih =>
    unfold Machine.queuePassN
    split
    · exact Keeps.ite (ih (Keeps.pathAdmit h)) h
    · exact h

theorem Keeps.queuePass {z0 s : State} {d : Nat} (hz : Keeps z0 s)  : Keeps z0 (Machine.queuePass d s) := by
  unfold Machine.queuePass
  repeat' first
    | with_reducible assumption
    | with_reducible apply Keeps.admShow
    | with_reducible apply Keeps.queuePassN

theorem Keeps.pathReleasing {z0 s : State} {k : Nat} {evicted : Bool} (hz : Keeps z0 s)  : Keeps z0 (Machine.pathReleasing k evicted s) := by
  unfold Machine.pathReleasing
  try lift_lets
  repeat' first
    | with_reducible assumption
    | (intro x; with_reducible refine Keeps.cut (o := z0) x ?_ ?_; dsimp only [x]; rotate_left; try clear_value x)
    | (intro x; try clear_value x)
    | with_reducible apply Keeps.ite
    | with_reducible apply Keeps.ite1
    | with_reducible apply Keeps.rptLeft
    | with_reducible apply Keeps.rptEvict
    | with_reducible apply Keeps.gainRamp
    | with_reducible apply Keeps.fadeStop
    | with_reducible apply Keeps.set

theorem Keeps.evictN {o s : State} {d n : Nat} (h : Keeps o s) : Keeps o (Machine.evictN d n s) := by
  induction n generalizing s with
  | zero => exact h
  | succ n ih =>
    unfold Machine.evictN
    refine Keeps.ite ?_ h
    split
    · exact ih (Keeps.pathReleasing h)
    · exact h

theorem Keeps.capacityChange {z0 s : State} {d : Nat} (hz : Keeps z0 s)  : Keeps z0 (Machine.capacityChange d s) := by
  unfold Machine.capacityChange
  repeat' first
    | with_reducible assumption
    | with_reducible apply Keeps.queuePass
    | with_reducible apply Keeps.evictN

theorem Keeps.bandThrottle {z0 s : State}  (hz : Keeps z0 s)  : Keeps z0 (Machine.bandThrottle s) := by
  unfold Machine.bandThrottle
  repeat' first
    | with_reducible assumption
    | with_reducible apply Keeps.capacityChange

theorem Keeps.admitNow {z0 s : State} {k : Nat} (hz : Keeps z0 s)  : Keeps z0 (Machine.admitNow k s) := by
  unfold Machine.admitNow
  try lift_lets
  repeat' first
    | with_reducible assumption
    | (intro x; with_reducible refine Keeps.cut (o := z0) x ?_ ?_; dsimp only [x]; rotate_left; try clear_value x)
    | (intro x; try clear_value x)
    | with_reducible apply Keeps.ite
    | with_reducible apply Keeps.ite1
    | with_reducible apply Keeps.updBnd
    | with_reducible apply Keeps.admShow
    | with_reducible apply Keeps.admNow
    | with_reducible apply Keeps.pathAdmit
    | with_reducible apply Keeps.set
    | with_reducible apply Keeps.ret
    | ((first | rw [patch_eq] | skip); (with_reducible refine Keeps.patch ?_ ?_ ?_); rotate_left; (first | exact CelKeeps.refl _ | exact ⟨fun _ h => h, Nat.le_refl _⟩ | exact ⟨fun _ h => h, Nat.le_succ _⟩); (refine fun g => ?_; first | exact g | simpa only [SizesOk, Machine.patch, upd_length] using g | (simp only [SizesOk, Machine.patch, upd_length, List.length_map, List.length_replicate, true_and] at g ⊢; tauto)))

theorem Keeps.pathIdle {z0 s : State} {k : Nat} (hz : Keeps z0 s)  : Keeps z0 (Machine.pathIdle k s) := by
  unfold Machine.pathIdle
  repeat' first
    | with_reducible assumption
    | with_reducible apply Keeps.updBnd
    | with_reducible apply Keeps.set
    | ((first | rw [patch_eq] | skip); (with_reducible refine Keeps.patch ?_ ?_ ?_); rotate_left; (first | exact CelKeeps.refl _ | exact ⟨fun _ h => h, Nat.le_refl _⟩ | exact ⟨fun _ h => h, Nat.le_succ _⟩); (refine fun g => ?_; first | exact g | simpa only [SizesOk, Machine.patch, upd_length] using g | (simp only [SizesOk, Machine.patch, upd_length, List.length_map, List.length_replicate, true_and] at g ⊢; tauto)))

theorem Keeps.release {z0 s : State} {k : Nat} (hz : Keeps z0 s)  : Keeps z0 (Machine.release k s) := by
  unfold Machine.release
  repeat' first
    | with_reducible assumption
    | with_reducible apply Keeps.ite
    | with_reducible apply Keeps.ite1
    | with_reducible apply Keeps.rptLeft
    | with_reducible apply Keeps.admShow
    | with_reducible apply Keeps.admEnd
    | with_reducible apply Keeps.admNow
    | with_reducible apply Keeps.pathReleasing
    | with_reducible apply Keeps.pathIdle
    | with_reducible apply Keeps.set
    | with_reducible apply Keeps.ret
    | (fail_if_no_progress dsimp -zeta only)
    | split

theorem Keeps.wrPathCmd {z0 s : State} {k : Nat} {w : Word} (hz : Keeps z0 s)  : Keeps z0 (Machine.wrPathCmd k w s) := by
  unfold Machine.wrPathCmd
  repeat' first
    | with_reducible assumption
    | with_reducible apply Keeps.admNow
    | with_reducible apply Keeps.admitNow
    | with_reducible apply Keeps.release
    | (fail_if_no_progress dsimp -zeta only)
    | split

theorem Keeps.releaseRampEnd {z0 s : State} {k : Nat} (hz : Keeps z0 s)  : Keeps z0 (Machine.releaseRampEnd k s) := by
  unfold Machine.releaseRampEnd
  try lift_lets
  repeat' first
    | with_reducible assumption
    | (intro x; with_reducible refine Keeps.cut (o := z0) x ?_ ?_; dsimp only [x]; rotate_left; try clear_value x)
    | (intro x; try clear_value x)
    | with_reducible apply Keeps.ite
    | with_reducible apply Keeps.ite1
    | with_reducible apply Keeps.bndEvt
    | with_reducible apply Keeps.admEnd
    | with_reducible apply Keeps.queuePass
    | with_reducible apply Keeps.pathIdle
    | with_reducible apply Keeps.set

theorem Keeps.wrAdmRes {z0 s : State} {d : Nat} {w : Word} (hz : Keeps z0 s)  : Keeps z0 (Machine.wrAdmRes d w s) := by
  unfold Machine.wrAdmRes
  try lift_lets
  repeat' first
    | with_reducible assumption
    | (intro x; with_reducible refine Keeps.cut (o := z0) x ?_ ?_; dsimp only [x]; rotate_left; try clear_value x)
    | (intro x; try clear_value x)
    | with_reducible apply Keeps.ite
    | with_reducible apply Keeps.ite1
    | with_reducible apply Keeps.foldl
    | with_reducible apply Keeps.foldl1
    | with_reducible apply Keeps.admEnd
    | with_reducible apply Keeps.queuePass
    | with_reducible apply Keeps.pathIdle
    | with_reducible apply Keeps.store
    | with_reducible apply Keeps.ret

theorem Keeps.wrAdmThr {z0 s : State} {w : Word} (hz : Keeps z0 s)  : Keeps z0 (Machine.wrAdmThr w s) := by
  unfold Machine.wrAdmThr
  try lift_lets
  repeat' first
    | with_reducible assumption
    | (intro x; with_reducible refine Keeps.cut (o := z0) x ?_ ?_; dsimp only [x]; rotate_left; try clear_value x)
    | (intro x; try clear_value x)
    | with_reducible apply Keeps.ite
    | with_reducible apply Keeps.ite1
    | with_reducible apply Keeps.capacityChange
    | with_reducible apply Keeps.store
    | with_reducible apply Keeps.ret

theorem Keeps.wrPort {z0 s : State} {out : Bool} {p : Nat} {w : Word} (hz : Keeps z0 s)  : Keeps z0 (Machine.wrPort out p w s) := by
  unfold Machine.wrPort
  try lift_lets
  repeat' first
    | with_reducible assumption
    | (intro x; with_reducible refine Keeps.cut (o := z0) x ?_ ?_; dsimp only [x]; rotate_left; try clear_value x)
    | (intro x; try clear_value x)
    | with_reducible apply Keeps.ite
    | with_reducible apply Keeps.ite1
    | with_reducible apply Keeps.lstPortOff
    | with_reducible apply Keeps.store
    | with_reducible apply Keeps.ret

theorem Keeps.wrPort2 {z0 s : State} {out : Bool} {p : Nat} {w : Word} (hz : Keeps z0 s)  : Keeps z0 (Machine.wrPort2 out p w s) := by
  unfold Machine.wrPort2
  try lift_lets
  repeat' first
    | with_reducible assumption
    | (intro x; try clear_value x)
    | with_reducible apply Keeps.ite
    | with_reducible apply Keeps.ite1
    | with_reducible apply Keeps.plainWrite
    | with_reducible apply Keeps.ret

theorem Keeps.wrPathIdle {z0 s : State} {k : Nat} {a : Nat} {fs : List (Nat × Nat × Acc)} {w : Word} (hz : Keeps z0 s)  : Keeps z0 (Machine.wrPathIdle k a fs w s) := by
  unfold Machine.wrPathIdle
  repeat' first
    | with_reducible assumption
    | with_reducible apply Keeps.ite
    | with_reducible apply Keeps.ite1
    | with_reducible apply Keeps.ncoHold
    | with_reducible apply Keeps.delayShow
    | with_reducible apply Keeps.store
    | with_reducible apply Keeps.ret

theorem Keeps.wrPathGain {z0 s : State} {k : Nat} {w : Word} (hz : Keeps z0 s)  : Keeps z0 (Machine.wrPathGain k w s) := by
  unfold Machine.wrPathGain
  try lift_lets
  repeat' first
    | with_reducible assumption
    | (intro x; try clear_value x)
    | with_reducible apply Keeps.ite
    | with_reducible apply Keeps.ite1
    | with_reducible apply Keeps.gainFollow
    | with_reducible apply Keeps.store
    | with_reducible apply Keeps.ret

theorem Keeps.gainTighten {z0 s : State} {d : Nat} (hz : Keeps z0 s)  : Keeps z0 (Machine.gainTighten d s) := by
  unfold Machine.gainTighten
  repeat' first
    | with_reducible assumption
    | (intro x; try clear_value x)
    | with_reducible apply Keeps.ite
    | with_reducible apply Keeps.ite1
    | with_reducible apply Keeps.foldl
    | with_reducible apply Keeps.foldl1
    | with_reducible apply Keeps.gainFollow
    | with_reducible apply Keeps.set

theorem Keeps.wrPathNco {z0 s : State} {k : Nat} {w : Word} (hz : Keeps z0 s)  : Keeps z0 (Machine.wrPathNco k w s) := by
  unfold Machine.wrPathNco
  repeat' first
    | with_reducible assumption
    | (intro x; with_reducible refine Keeps.cut (o := z0) x ?_ ?_; dsimp only [x]; rotate_left; try clear_value x)
    | (intro x; with_reducible refine Keeps.cut1 (o := z0) x ?_ ?_; dsimp only [x]; rotate_left; try clear_value x)
    | (intro x; with_reducible refine Keeps.cutF x ?_; try dsimp only [x])
    | (intro x; try clear_value x)
    | with_reducible apply Keeps.plainWrite
    | (fail_if_no_progress dsimp -zeta only)
    | split

theorem Keeps.bankSwap {z0 s : State} {k : Nat} (hz : Keeps z0 s)  : Keeps z0 (Machine.bankSwap k s) := by
  unfold Machine.bankSwap
  try lift_lets
  repeat' first
    | with_reducible assumption
    | (intro x; with_reducible refine Keeps.cut (o := z0) x ?_ ?_; dsimp only [x]; rotate_left; try clear_value x)
    | (intro x; try clear_value x)
    | with_reducible apply Keeps.ite
    | with_reducible apply Keeps.ite1
    | with_reducible apply Keeps.forN
    | with_reducible apply Keeps.updBnd
    | with_reducible apply Keeps.set
    | ((first | rw [patch_eq] | skip); (with_reducible refine Keeps.patch ?_ ?_ ?_); rotate_left; (first | exact CelKeeps.refl _ | exact ⟨fun _ h => h, Nat.le_refl _⟩ | exact ⟨fun _ h => h, Nat.le_succ _⟩); (refine fun g => ?_; first | exact g | simpa only [SizesOk, Machine.patch, upd_length] using g | (simp only [SizesOk, Machine.patch, upd_length, List.length_map, List.length_replicate, true_and] at g ⊢; tauto)))

theorem Keeps.fadeDone {z0 s : State} {k : Nat} (hz : Keeps z0 s)  : Keeps z0 (Machine.fadeDone k s) := by
  unfold Machine.fadeDone
  try lift_lets
  repeat' first
    | with_reducible assumption
    | (intro x; with_reducible refine Keeps.cut (o := z0) x ?_ ?_; dsimp only [x]; rotate_left; try clear_value x)
    | (intro x; try clear_value x)
    | with_reducible apply Keeps.bndEvt
    | with_reducible apply Keeps.delayShow
    | with_reducible apply Keeps.bankSwap
    | with_reducible apply Keeps.set

theorem Keeps.xfadeEnd {z0 s : State} {k : Nat} (hz : Keeps z0 s)  : Keeps z0 (Machine.xfadeEnd k s) := by
  unfold Machine.xfadeEnd
  repeat' first
    | with_reducible assumption
    | with_reducible apply Keeps.ite
    | with_reducible apply Keeps.ite1
    | with_reducible apply Keeps.fadeDone

theorem Keeps.wrPathCf {z0 s : State} {k : Nat} {w : Word} (hz : Keeps z0 s)  : Keeps z0 (Machine.wrPathCf k w s) := by
  unfold Machine.wrPathCf
  try lift_lets
  repeat' first
    | with_reducible assumption
    | (intro x; with_reducible refine Keeps.cut (o := z0) x ?_ ?_; dsimp only [x]; rotate_left; try clear_value x)
    | (intro x; try clear_value x)
    | with_reducible apply Keeps.ite
    | with_reducible apply Keeps.ite1
    | with_reducible apply Keeps.plainWrite
    | with_reducible apply Keeps.updBnd
    | with_reducible apply Keeps.set
    | with_reducible apply Keeps.store
    | with_reducible apply Keeps.ret
    | ((first | rw [patch_eq] | skip); (with_reducible refine Keeps.patch ?_ ?_ ?_); rotate_left; (first | exact CelKeeps.refl _ | exact ⟨fun _ h => h, Nat.le_refl _⟩ | exact ⟨fun _ h => h, Nat.le_succ _⟩); (refine fun g => ?_; first | exact g | simpa only [SizesOk, Machine.patch, upd_length] using g | (simp only [SizesOk, Machine.patch, upd_length, List.length_map, List.length_replicate, true_and] at g ⊢; tauto)))

theorem Keeps.wrCfc {z0 s : State} {k : Nat} {j : Nat} {w : Word} (hz : Keeps z0 s)  : Keeps z0 (Machine.wrCfc k j w s) := by
  unfold Machine.wrCfc
  repeat' first
    | with_reducible assumption
    | with_reducible apply Keeps.ite
    | with_reducible apply Keeps.ite1
    | with_reducible apply Keeps.plainWrite
    | with_reducible apply Keeps.ret

theorem Keeps.wrCxcmd {z0 s : State} {k : Nat} {w : Word} (hz : Keeps z0 s)  : Keeps z0 (Machine.wrCxcmd k w s) := by
  unfold Machine.wrCxcmd
  try lift_lets
  repeat' first
    | with_reducible assumption
    | (intro x; with_reducible refine Keeps.cut (o := z0) x ?_ ?_; dsimp only [x]; rotate_left; try clear_value x)
    | (intro x; try clear_value x)
    | with_reducible apply Keeps.ite
    | with_reducible apply Keeps.ite1
    | with_reducible apply Keeps.forN
    | with_reducible apply Keeps.wr
    | with_reducible apply Keeps.set
    | with_reducible apply Keeps.ret

theorem Keeps.meterPut {z0 s : State} {level : Fd} {peak : Fd} {x : Int × Int} (hz : Keeps z0 s)  : Keeps z0 (Machine.meterPut level peak x s) := by
  unfold Machine.meterPut
  repeat' first
    | with_reducible assumption
    | with_reducible apply Keeps.ite2
    | with_reducible apply Keeps.seti

theorem Keeps.satCount {z0 s : State} {k : Nat} {n : Nat} (hz : Keeps z0 s)  : Keeps z0 (Machine.satCount k n s) := by
  unfold Machine.satCount
  try lift_lets
  repeat' first
    | with_reducible assumption
    | (intro x; with_reducible refine Keeps.cut (o := z0) x ?_ ?_; dsimp only [x]; rotate_left; try clear_value x)
    | (intro x; try clear_value x)
    | with_reducible apply Keeps.ite
    | with_reducible apply Keeps.ite1
    | with_reducible apply Keeps.flagLimited
    | with_reducible apply Keeps.addSat

theorem Keeps.meterWindowEnd {z0 s : State} {k : Nat} (hz : Keeps z0 s)  : Keeps z0 (Machine.meterWindowEnd k s) := by
  unfold Machine.meterWindowEnd
  repeat' first
    | with_reducible assumption
    | (intro x; with_reducible refine Keeps.cut (o := z0) x ?_ ?_; dsimp only [x]; rotate_left; try clear_value x)
    | (intro x; with_reducible refine Keeps.cut1 (o := z0) x ?_ ?_; dsimp only [x]; rotate_left; try clear_value x)
    | (intro x; with_reducible refine Keeps.cutF x ?_; try dsimp only [x])
    | (intro x; try clear_value x)
    | with_reducible apply Keeps.updBnd
    | with_reducible apply Keeps.nrWindow
    | with_reducible apply Keeps.meterPut
    | ((first | rw [patch_eq] | skip); (with_reducible refine Keeps.patch ?_ ?_ ?_); rotate_left; (first | exact CelKeeps.refl _ | exact ⟨fun _ h => h, Nat.le_refl _⟩ | exact ⟨fun _ h => h, Nat.le_succ _⟩); (refine fun g => ?_; first | exact g | simpa only [SizesOk, Machine.patch, upd_length] using g | (simp only [SizesOk, Machine.patch, upd_length, List.length_map, List.length_replicate, true_and] at g ⊢; tauto)))
    | (fail_if_no_progress dsimp -zeta only)
    | split
    | lift_lets

theorem Keeps.wrMtrCtrl {z0 s : State} {k : Nat} {w : Word} (hz : Keeps z0 s)  : Keeps z0 (Machine.wrMtrCtrl k w s) := by
  unfold Machine.wrMtrCtrl
  try lift_lets
  repeat' first
    | with_reducible assumption
    | (intro x; try clear_value x)
    | with_reducible apply Keeps.ite
    | with_reducible apply Keeps.ite1
    | with_reducible apply Keeps.plainWrite
    | with_reducible apply Keeps.ret

theorem Keeps.bandSyncEdge {z0 s : State} {ago : Nat} {low : Bool} (hz : Keeps z0 s)  : Keeps z0 (Machine.bandSyncEdge ago low s) := by
  unfold Machine.bandSyncEdge
  try lift_lets
  repeat' first
    | with_reducible assumption
    | (intro x; with_reducible refine Keeps.cut (o := z0) x ?_ ?_; dsimp only [x]; rotate_left; try clear_value x)
    | (intro x; try clear_value x)
    | with_reducible apply Keeps.ite
    | with_reducible apply Keeps.ite1
    | with_reducible apply Keeps.flagLimited
    | with_reducible apply Keeps.wr
    | with_reducible apply Keeps.addSat
    | ((first | rw [patch_eq] | skip); (with_reducible refine Keeps.patch ?_ ?_ ?_); rotate_left; (first | exact CelKeeps.refl _ | exact ⟨fun _ h => h, Nat.le_refl _⟩ | exact ⟨fun _ h => h, Nat.le_succ _⟩); (refine fun g => ?_; first | exact g | simpa only [SizesOk, Machine.patch, upd_length] using g | (simp only [SizesOk, Machine.patch, upd_length, List.length_map, List.length_replicate, true_and] at g ⊢; tauto)))

theorem Keeps.bandSyncGlitch {z0 s : State}  (hz : Keeps z0 s)  : Keeps z0 (Machine.bandSyncGlitch s) := by
  unfold Machine.bandSyncGlitch
  repeat' first
    | with_reducible assumption
    | with_reducible apply Keeps.ite
    | with_reducible apply Keeps.ite1
    | with_reducible apply Keeps.addSat

theorem Keeps.syncStuck {z0 s : State}  (hz : Keeps z0 s)  : Keeps z0 (Machine.syncStuck s) := by
  unfold Machine.syncStuck
  repeat' first
    | with_reducible assumption
    | with_reducible apply Keeps.ite
    | with_reducible apply Keeps.ite1
    | with_reducible apply Keeps.bndEvt
    | with_reducible apply Keeps.addSat
    | ((first | rw [patch_eq] | skip); (with_reducible refine Keeps.patch ?_ ?_ ?_); rotate_left; (first | exact CelKeeps.refl _ | exact ⟨fun _ h => h, Nat.le_refl _⟩ | exact ⟨fun _ h => h, Nat.le_succ _⟩); (refine fun g => ?_; first | exact g | simpa only [SizesOk, Machine.patch, upd_length] using g | (simp only [SizesOk, Machine.patch, upd_length, List.length_map, List.length_replicate, true_and] at g ⊢; tauto)))

theorem Keeps.wrSyncCtrl {z0 s : State} {w : Word} (hz : Keeps z0 s)  : Keeps z0 (Machine.wrSyncCtrl w s) := by
  unfold Machine.wrSyncCtrl
  try lift_lets
  repeat' first
    | with_reducible assumption
    | (intro x; with_reducible refine Keeps.cut (o := z0) x ?_ ?_; dsimp only [x]; rotate_left; try clear_value x)
    | (intro x; try clear_value x)
    | with_reducible apply Keeps.ite
    | with_reducible apply Keeps.ite1
    | with_reducible apply Keeps.store
    | with_reducible apply Keeps.ret
    | ((first | rw [patch_eq] | skip); (with_reducible refine Keeps.patch ?_ ?_ ?_); rotate_left; (first | exact CelKeeps.refl _ | exact ⟨fun _ h => h, Nat.le_refl _⟩ | exact ⟨fun _ h => h, Nat.le_succ _⟩); (refine fun g => ?_; first | exact g | simpa only [SizesOk, Machine.patch, upd_length] using g | (simp only [SizesOk, Machine.patch, upd_length, List.length_map, List.length_replicate, true_and] at g ⊢; tauto)))

theorem Keeps.wrSyncCmd {z0 s : State} {w : Word} (hz : Keeps z0 s)  : Keeps z0 (Machine.wrSyncCmd w s) := by
  unfold Machine.wrSyncCmd
  repeat' first
    | with_reducible assumption
    | with_reducible apply Keeps.ite
    | with_reducible apply Keeps.ite1
    | with_reducible apply Keeps.set
    | with_reducible apply Keeps.ret
    | ((first | rw [patch_eq] | skip); (with_reducible refine Keeps.patch ?_ ?_ ?_); rotate_left; (first | exact CelKeeps.refl _ | exact ⟨fun _ h => h, Nat.le_refl _⟩ | exact ⟨fun _ h => h, Nat.le_succ _⟩); (refine fun g => ?_; first | exact g | simpa only [SizesOk, Machine.patch, upd_length] using g | (simp only [SizesOk, Machine.patch, upd_length, List.length_map, List.length_replicate, true_and] at g ⊢; tauto)))

theorem Keeps.restartPath {z0 s : State} {t : Nat} {k : Nat} (hz : Keeps z0 s)  : Keeps z0 (Machine.restartPath t k s) := by
  unfold Machine.restartPath
  try lift_lets
  repeat' first
    | with_reducible assumption
    | (intro x; with_reducible refine Keeps.cut (o := z0) x ?_ ?_; dsimp only [x]; rotate_left; try clear_value x)
    | (intro x; try clear_value x)
    | with_reducible apply Keeps.ite
    | with_reducible apply Keeps.ite1
    | with_reducible apply Keeps.updBnd
    | ((first | rw [patch_eq] | skip); (with_reducible refine Keeps.patch ?_ ?_ ?_); rotate_left; (first | exact CelKeeps.refl _ | exact ⟨fun _ h => h, Nat.le_refl _⟩ | exact ⟨fun _ h => h, Nat.le_succ _⟩); (refine fun g => ?_; first | exact g | simpa only [SizesOk, Machine.patch, upd_length] using g | (simp only [SizesOk, Machine.patch, upd_length, List.length_map, List.length_replicate, true_and] at g ⊢; tauto)))

theorem Keeps.sampleCount {z0 s : State} {k : Nat} {t : Int} (hz : Keeps z0 s)  : Keeps z0 (Machine.sampleCount k t s) := by
  unfold Machine.sampleCount
  try lift_lets
  repeat' first
    | with_reducible assumption
    | (intro x; with_reducible refine Keeps.cut (o := z0) x ?_ ?_; dsimp only [x]; rotate_left; try clear_value x)
    | (intro x; with_reducible refine Keeps.cut1 (o := z0) x ?_ ?_; dsimp only [x]; rotate_left; try clear_value x)
    | (intro x; with_reducible refine Keeps.cutF x ?_; try dsimp only [x])
    | (intro x; try clear_value x)
    | with_reducible apply Keeps.ite
    | with_reducible apply Keeps.ite1
    | with_reducible apply Keeps.foldl
    | with_reducible apply Keeps.foldl1
    | with_reducible apply Keeps.updBnd
    | with_reducible apply Keeps.ncoSample
    | ((first | rw [patch_eq] | skip); (with_reducible refine Keeps.patch ?_ ?_ ?_); rotate_left; (first | exact CelKeeps.refl _ | exact ⟨fun _ h => h, Nat.le_refl _⟩ | exact ⟨fun _ h => h, Nat.le_succ _⟩); (refine fun g => ?_; first | exact g | simpa only [SizesOk, Machine.patch, upd_length] using g | (simp only [SizesOk, Machine.patch, upd_length, List.length_map, List.length_replicate, true_and] at g ⊢; tauto)))
    | (fail_if_no_progress dsimp -zeta only)
    | split

theorem Keeps.syncRestart {z0 s : State}  (hz : Keeps z0 s)  : Keeps z0 (Machine.syncRestart s) := by
  unfold Machine.syncRestart
  repeat' first
    | with_reducible assumption
    | (intro x; try clear_value x)
    | with_reducible apply Keeps.ite
    | with_reducible apply Keeps.ite1
    | with_reducible apply Keeps.forN
    | with_reducible apply Keeps.bndEvt
    | with_reducible apply Keeps.restartPath
    | with_reducible apply Keeps.set
    | ((first | rw [patch_eq] | skip); (with_reducible refine Keeps.patch ?_ ?_ ?_); rotate_left; (first | exact CelKeeps.refl _ | exact ⟨fun _ h => h, Nat.le_refl _⟩ | exact ⟨fun _ h => h, Nat.le_succ _⟩); (refine fun g => ?_; first | exact g | simpa only [SizesOk, Machine.patch, upd_length] using g | (simp only [SizesOk, Machine.patch, upd_length, List.length_map, List.length_replicate, true_and] at g ⊢; tauto)))
    | (fail_if_no_progress dsimp -zeta only)
    | split

theorem Keeps.wrMeasCtrl {z0 s : State} {w : Word} (hz : Keeps z0 s)  : Keeps z0 (Machine.wrMeasCtrl w s) := by
  unfold Machine.wrMeasCtrl
  try lift_lets
  repeat' first
    | with_reducible assumption
    | (intro x; with_reducible refine Keeps.cut (o := z0) x ?_ ?_; dsimp only [x]; rotate_left; try clear_value x)
    | (intro x; try clear_value x)
    | with_reducible apply Keeps.ite
    | with_reducible apply Keeps.ite1
    | with_reducible apply Keeps.set
    | with_reducible apply Keeps.store
    | with_reducible apply Keeps.ret
    | ((first | rw [patch_eq] | skip); (with_reducible refine Keeps.patch ?_ ?_ ?_); rotate_left; (first | exact CelKeeps.refl _ | exact ⟨fun _ h => h, Nat.le_refl _⟩ | exact ⟨fun _ h => h, Nat.le_succ _⟩); (refine fun g => ?_; first | exact g | simpa only [SizesOk, Machine.patch, upd_length] using g | (simp only [SizesOk, Machine.patch, upd_length, List.length_map, List.length_replicate, true_and] at g ⊢; tauto)))

theorem Keeps.measMeet {z0 s : State} {k : Nat} {point : Nat} {t : Int} {w : Nat} (hz : Keeps z0 s)  : Keeps z0 (Machine.measMeet k point t w s) := by
  unfold Machine.measMeet
  repeat' first
    | with_reducible assumption
    | (intro x; with_reducible refine Keeps.cut (o := z0) x ?_ ?_; dsimp only [x]; rotate_left; try clear_value x)
    | (intro x; with_reducible refine Keeps.cut1 (o := z0) x ?_ ?_; dsimp only [x]; rotate_left; try clear_value x)
    | (intro x; with_reducible refine Keeps.cutF x ?_; try dsimp only [x])
    | (intro x; try clear_value x)
    | with_reducible apply Keeps.ite
    | with_reducible apply Keeps.ite1
    | with_reducible apply Keeps.foldl
    | with_reducible apply Keeps.foldl1
    | ((first | rw [patch_eq] | skip); (with_reducible refine Keeps.patch ?_ ?_ ?_); rotate_left; (first | exact CelKeeps.refl _ | exact ⟨fun _ h => h, Nat.le_refl _⟩ | exact ⟨fun _ h => h, Nat.le_succ _⟩); (refine fun g => ?_; first | exact g | simpa only [SizesOk, Machine.patch, upd_length] using g | (simp only [SizesOk, Machine.patch, upd_length, List.length_map, List.length_replicate, true_and] at g ⊢; tauto)))
    | (fail_if_no_progress dsimp -zeta only)
    | split

theorem Keeps.measTake {z0 s : State} {x : Int} {c : Nat} (hz : Keeps z0 s)  : Keeps z0 (Machine.measTake x c s) := by
  unfold Machine.measTake
  try lift_lets
  repeat' first
    | with_reducible assumption
    | (intro x; with_reducible refine Keeps.cut (o := z0) x ?_ ?_; dsimp only [x]; rotate_left; try clear_value x)
    | (intro x; with_reducible refine Keeps.cut1 (o := z0) x ?_ ?_; dsimp only [x]; rotate_left; try clear_value x)
    | (intro x; with_reducible refine Keeps.cut2 (o := z0) x ?_ ?_; dsimp only [x]; rotate_left; try clear_value x)
    | with_reducible apply Keeps.ite2
    | (intro x; with_reducible refine Keeps.cutF x ?_; try dsimp only [x])
    | (intro x; try clear_value x)
    | with_reducible apply Keeps.ite
    | with_reducible apply Keeps.ite1
    | with_reducible apply Keeps.foldl
    | with_reducible apply Keeps.foldl1
    | ((first | rw [patch_eq] | skip); (with_reducible refine Keeps.patch ?_ ?_ ?_); rotate_left; (first | exact CelKeeps.refl _ | exact ⟨fun _ h => h, Nat.le_refl _⟩ | exact ⟨fun _ h => h, Nat.le_succ _⟩); (refine fun g => ?_; first | exact g | simpa only [SizesOk, Machine.patch, upd_length] using g | (simp only [SizesOk, Machine.patch, upd_length, List.length_map, List.length_replicate, true_and] at g ⊢; tauto)))
    | (fail_if_no_progress dsimp -zeta only)
    | split

theorem Keeps.measFeed {z0 s : State} {k : Nat} {point : Nat} {t : Int} {w : Nat} (hz : Keeps z0 s)  : Keeps z0 (Machine.measFeed k point t w s) := by
  unfold Machine.measFeed
  repeat' first
    | with_reducible assumption
    | (intro x; with_reducible refine Keeps.cut (o := z0) x ?_ ?_; dsimp only [x]; rotate_left; try clear_value x)
    | (intro x; with_reducible refine Keeps.cut1 (o := z0) x ?_ ?_; dsimp only [x]; rotate_left; try clear_value x)
    | (intro x; with_reducible refine Keeps.cutF x ?_; try dsimp only [x])
    | (intro x; try clear_value x)
    | with_reducible apply Keeps.ite
    | with_reducible apply Keeps.ite1
    | with_reducible apply Keeps.foldl
    | with_reducible apply Keeps.foldl1
    | with_reducible apply Keeps.measMeet
    | with_reducible apply Keeps.measTake
    | ((first | rw [patch_eq] | skip); (with_reducible refine Keeps.patch ?_ ?_ ?_); rotate_left; (first | exact CelKeeps.refl _ | exact ⟨fun _ h => h, Nat.le_refl _⟩ | exact ⟨fun _ h => h, Nat.le_succ _⟩); (refine fun g => ?_; first | exact g | simpa only [SizesOk, Machine.patch, upd_length] using g | (simp only [SizesOk, Machine.patch, upd_length, List.length_map, List.length_replicate, true_and] at g ⊢; tauto)))
    | (fail_if_no_progress dsimp -zeta only)
    | split
    | lift_lets

theorem Keeps.measEnd {z0 s : State}  (hz : Keeps z0 s)  : Keeps z0 (Machine.measEnd s) := by
  unfold Machine.measEnd
  try lift_lets
  repeat' first
    | with_reducible assumption
    | (intro x; with_reducible refine Keeps.cut (o := z0) x ?_ ?_; dsimp only [x]; rotate_left; try clear_value x)
    | (intro x; try clear_value x)
    | with_reducible apply Keeps.ite
    | with_reducible apply Keeps.ite1
    | with_reducible apply Keeps.foldl
    | with_reducible apply Keeps.foldl1
    | with_reducible apply Keeps.bndEvt
    | with_reducible apply Keeps.wr
    | with_reducible apply Keeps.set

theorem Keeps.wrMeasSrc {z0 s : State} {c : Nat} {w : Word} (hz : Keeps z0 s)  : Keeps z0 (Machine.wrMeasSrc c w s) := by
  unfold Machine.wrMeasSrc
  repeat' first
    | with_reducible assumption
    | with_reducible apply Keeps.ite
    | with_reducible apply Keeps.ite1
    | with_reducible apply Keeps.plainWrite
    | with_reducible apply Keeps.ret

theorem Keeps.rdBandTime {z0 s : State}  (hz : Keeps z0 s)  : Keeps z0 (Machine.rdBandTime s) := by
  unfold Machine.rdBandTime
  repeat' first
    | with_reducible assumption
    | with_reducible apply Keeps.wr
    | with_reducible apply Keeps.retData

theorem Keeps.portsZero {z0 s : State}  (hz : Keeps z0 s)  : Keeps z0 (Machine.portsZero s) := by
  unfold Machine.portsZero
  try lift_lets
  repeat' first
    | with_reducible assumption
    | (intro x; with_reducible refine Keeps.cut (o := z0) x ?_ ?_; dsimp only [x]; rotate_left; try clear_value x)
    | (intro x; with_reducible refine Keeps.cut1 (o := z0) x ?_ ?_; dsimp only [x]; rotate_left; try clear_value x)
    | (intro x; with_reducible refine Keeps.cut2 (o := z0) x ?_ ?_; dsimp only [x]; rotate_left; try clear_value x)
    | with_reducible apply Keeps.ite2
    | (intro x; with_reducible refine Keeps.cutF x ?_; try dsimp only [x])
    | (intro x; try clear_value x)
    | with_reducible apply Keeps.foldl
    | with_reducible apply Keeps.foldl1
    | ((first | rw [patch_eq] | skip); (with_reducible refine Keeps.patch ?_ ?_ ?_); rotate_left; (first | exact CelKeeps.refl _ | exact ⟨fun _ h => h, Nat.le_refl _⟩ | exact ⟨fun _ h => h, Nat.le_succ _⟩); (refine fun g => ?_; first | exact g | simpa only [SizesOk, Machine.patch, upd_length] using g | (simp only [SizesOk, Machine.patch, upd_length, List.length_map, List.length_replicate, true_and] at g ⊢; tauto)))
    | (fail_if_no_progress dsimp -zeta only)
    | split

theorem Keeps.resetBnd {z0 s : State}  (hz : Keeps z0 s)  : Keeps z0 (Machine.resetBnd s) := by
  unfold Machine.resetBnd
  try lift_lets
  repeat' first
    | with_reducible assumption
    | (intro x; with_reducible refine Keeps.cut (o := z0) x ?_ ?_; dsimp only [x]; rotate_left; try clear_value x)
    | (intro x; with_reducible refine Keeps.cut1 (o := z0) x ?_ ?_; dsimp only [x]; rotate_left; try clear_value x)
    | (intro x; with_reducible refine Keeps.cutF x ?_; try dsimp only [x])
    | (intro x; try clear_value x)
    | with_reducible apply Keeps.ite
    | with_reducible apply Keeps.ite1
    | with_reducible apply Keeps.forN
    | with_reducible apply Keeps.rptLeft
    | with_reducible apply Keeps.lstToOff
    | with_reducible apply Keeps.admShow
    | with_reducible apply Keeps.portsZero
    | with_reducible apply Keeps.set
    | with_reducible apply Keeps.dropRange
    | ((first | rw [patch_eq] | skip); (with_reducible refine Keeps.patch ?_ ?_ ?_); rotate_left; (first | exact CelKeeps.refl _ | exact ⟨fun _ h => h, Nat.le_refl _⟩ | exact ⟨fun _ h => h, Nat.le_succ _⟩); (refine fun g => ?_; first | exact g | simpa only [SizesOk, Machine.patch, upd_length] using g | (simp only [SizesOk, Machine.patch, upd_length, List.length_map, List.length_replicate, true_and] at g ⊢; tauto)))
    | (fail_if_no_progress dsimp -zeta only)
    | split

theorem Keeps.execPortEnable {s z : State} {q : Rq} {out : Bool} {p : Fin 1024} {w : Word} (e : Machine.execPortEnable q out p w s = .next z) : Keeps s z := by
  have hz := Keeps.refl s
  revert e
  unfold Machine.execPortEnable
  first
    | (intro e; injection e with e; subst e; (repeat' first
         | with_reducible assumption
         | (intro x; try clear_value x)
         | with_reducible apply Keeps.ite
         | with_reducible apply Keeps.ite1
         | with_reducible apply Keeps.gated
         | with_reducible apply Keeps.wrPort
         ); done)

theorem Keeps.execPortDisable {s z : State} {q : Rq} {out : Bool} {p : Fin 1024} {w : Word} (e : Machine.execPortDisable q out p w s = .next z) : Keeps s z := by
  have hz := Keeps.refl s
  revert e
  unfold Machine.execPortDisable
  first
    | (intro e; injection e with e; subst e; (repeat' first
         | with_reducible assumption
         | (intro x; try clear_value x)
         | with_reducible apply Keeps.ite
         | with_reducible apply Keeps.ite1
         | with_reducible apply Keeps.gated
         | with_reducible apply Keeps.wrPort
         ); done)

theorem Keeps.execAdmitPath {s z : State} {q : Rq} {k : Fin 128} (e : Machine.execAdmitPath q k s = .next z) : Keeps s z := by
  have hz := Keeps.refl s
  revert e
  unfold Machine.execAdmitPath
  first
    | (intro e; injection e with e; subst e; (repeat' first
         | with_reducible assumption
         | (intro x; try clear_value x)
         | with_reducible apply Keeps.gated
         | with_reducible apply Keeps.wrPathCmd
         ); done)

theorem Keeps.execRelease {s z : State} {q : Rq} {k : Fin 128} (e : Machine.execRelease q k s = .next z) : Keeps s z := by
  have hz := Keeps.refl s
  revert e
  unfold Machine.execRelease
  first
    | (intro e; injection e with e; subst e; (repeat' first
         | with_reducible assumption
         | (intro x; try clear_value x)
         | with_reducible apply Keeps.gated
         | with_reducible apply Keeps.release
         ); done)

theorem Keeps.execReleaseRampEnd {s z : State} {k : Fin 128} (e : Machine.execReleaseRampEnd k s = .next z) : Keeps s z := by
  have hz := Keeps.refl s
  revert e
  unfold Machine.execReleaseRampEnd
  first
    | (intro e; injection e with e; subst e; (repeat' first
         | with_reducible assumption
         | with_reducible apply Keeps.releaseRampEnd
         ); done)

theorem Keeps.execQueuePass {s z : State} {d : Fin 2} (e : Machine.execQueuePass d s = .next z) : Keeps s z := by
  have hz := Keeps.refl s
  revert e
  unfold Machine.execQueuePass
  first
    | (intro e; injection e with e; subst e; (repeat' first
         | with_reducible assumption
         | with_reducible apply Keeps.ite
         | with_reducible apply Keeps.ite1
         | with_reducible apply Keeps.queuePass
         ); done)

theorem Keeps.execAdmFloorWrite {s z : State} {q : Rq} {r : Fin 3} {w : Word} (e : Machine.execAdmFloorWrite q r w s = .next z) : Keeps s z := by
  have hz := Keeps.refl s
  revert e
  unfold Machine.execAdmFloorWrite
  first
    | (intro e; injection e with e; subst e; (repeat' first
         | with_reducible assumption
         | (intro x; try clear_value x)
         | with_reducible apply Keeps.ite
         | with_reducible apply Keeps.ite1
         | with_reducible apply Keeps.gated
         | with_reducible apply Keeps.wrAdmRes
         | with_reducible apply Keeps.wrAdmThr
         ); done)

theorem Keeps.execPathGainWrite {s z : State} {q : Rq} {k : Fin 128} {w : Word} (e : Machine.execPathGainWrite q k w s = .next z) : Keeps s z := by
  have hz := Keeps.refl s
  revert e
  unfold Machine.execPathGainWrite
  first
    | (intro e; injection e with e; subst e; (repeat' first
         | with_reducible assumption
         | (intro x; try clear_value x)
         | with_reducible apply Keeps.gated
         | with_reducible apply Keeps.wrPathGain
         ); done)

theorem Keeps.execFilterCommit {s z : State} {q : Rq} {k : Fin 128} {w : Word} (e : Machine.execFilterCommit q k w s = .next z) : Keeps s z := by
  have hz := Keeps.refl s
  revert e
  unfold Machine.execFilterCommit
  first
    | (intro e; injection e with e; subst e; (repeat' first
         | with_reducible assumption
         | (intro x; try clear_value x)
         | with_reducible apply Keeps.gated
         | with_reducible apply Keeps.wrPathCf
         ); done)

theorem Keeps.execXfadeEnd {s z : State} {k : Fin 128} (e : Machine.execXfadeEnd k s = .next z) : Keeps s z := by
  have hz := Keeps.refl s
  revert e
  unfold Machine.execXfadeEnd
  first
    | (intro e; injection e with e; subst e; (repeat' first
         | with_reducible assumption
         | with_reducible apply Keeps.xfadeEnd
         ); done)

theorem Keeps.execCancellerSwap {s z : State} {q : Rq} {k : Fin 128} (e : Machine.execCancellerSwap q k s = .next z) : Keeps s z := by
  have hz := Keeps.refl s
  revert e
  unfold Machine.execCancellerSwap
  first
    | (intro e; injection e with e; subst e; (repeat' first
         | with_reducible assumption
         | (intro x; try clear_value x)
         | with_reducible apply Keeps.gated
         | with_reducible apply Keeps.wrCxcmd
         ); done)

theorem Keeps.execMeterWindowEnd {s z : State} {k : Fin 128} (e : Machine.execMeterWindowEnd k s = .next z) : Keeps s z := by
  have hz := Keeps.refl s
  revert e
  unfold Machine.execMeterWindowEnd
  first
    | (intro e; injection e with e; subst e; (repeat' first
         | with_reducible assumption
         | with_reducible apply Keeps.meterWindowEnd
         ); done)

theorem Keeps.execBandSyncEdge {s z : State} {ago : Nat} {low : Bool} (e : Machine.execBandSyncEdge ago low s = .next z) : Keeps s z := by
  have hz := Keeps.refl s
  revert e
  unfold Machine.execBandSyncEdge
  first
    | (intro e; injection e with e; subst e; (repeat' first
         | with_reducible assumption
         | with_reducible apply Keeps.bandSyncEdge
         ); done)

theorem Keeps.execBandSyncGlitch {s z : State}  (e : Machine.execBandSyncGlitch s = .next z) : Keeps s z := by
  have hz := Keeps.refl s
  revert e
  unfold Machine.execBandSyncGlitch
  first
    | (intro e; injection e with e; subst e; (repeat' first
         | with_reducible assumption
         | with_reducible apply Keeps.bandSyncGlitch
         ); done)

theorem Keeps.execBandSyncArm {s z : State} {q : Rq} {w : Word} (e : Machine.execBandSyncArm q w s = .next z) : Keeps s z := by
  have hz := Keeps.refl s
  revert e
  unfold Machine.execBandSyncArm
  first
    | (intro e; injection e with e; subst e; (repeat' first
         | with_reducible assumption
         | (intro x; try clear_value x)
         | with_reducible apply Keeps.gated
         | with_reducible apply Keeps.wrSyncCtrl
         ); done)

theorem Keeps.execSyncRestart {s z : State}  (e : Machine.execSyncRestart s = .next z) : Keeps s z := by
  have hz := Keeps.refl s
  revert e
  unfold Machine.execSyncRestart
  first
    | (intro e; injection e with e; subst e; (repeat' first
         | with_reducible assumption
         | with_reducible apply Keeps.syncRestart
         ); done)

theorem Keeps.execSyncStuck {s z : State}  (e : Machine.execSyncStuck s = .next z) : Keeps s z := by
  have hz := Keeps.refl s
  revert e
  unfold Machine.execSyncStuck
  first
    | (intro e; injection e with e; subst e; (repeat' first
         | with_reducible assumption
         | with_reducible apply Keeps.syncStuck
         ); done)

theorem Keeps.execSyncCmd {s z : State} {q : Rq} {w : Word} (e : Machine.execSyncCmd q w s = .next z) : Keeps s z := by
  have hz := Keeps.refl s
  revert e
  unfold Machine.execSyncCmd
  first
    | (intro e; injection e with e; subst e; (repeat' first
         | with_reducible assumption
         | (intro x; try clear_value x)
         | with_reducible apply Keeps.gated
         | with_reducible apply Keeps.wrSyncCmd
         ); done)

theorem Keeps.execMeasRun {s z : State} {q : Rq} {w : Word} (e : Machine.execMeasRun q w s = .next z) : Keeps s z := by
  have hz := Keeps.refl s
  revert e
  unfold Machine.execMeasRun
  first
    | (intro e; injection e with e; subst e; (repeat' first
         | with_reducible assumption
         | (intro x; try clear_value x)
         | with_reducible apply Keeps.gated
         | with_reducible apply Keeps.wrMeasCtrl
         ); done)

theorem Keeps.execMeasEnd {s z : State}  (e : Machine.execMeasEnd s = .next z) : Keeps s z := by
  have hz := Keeps.refl s
  revert e
  unfold Machine.execMeasEnd
  first
    | (intro e; injection e with e; subst e; (repeat' first
         | with_reducible assumption
         | with_reducible apply Keeps.measEnd
         ); done)

theorem Keeps.execBndSyncStatRead {s z : State} {q : Rq} (e : Machine.execBndSyncStatRead q s = .next z) : Keeps s z := by
  have hz := Keeps.refl s
  revert e
  unfold Machine.execBndSyncStatRead
  first
    | (intro e; injection e with e; subst e; (repeat' first
         | with_reducible assumption
         | (intro x; try clear_value x)
         | with_reducible apply Keeps.gatedRead
         | with_reducible apply Keeps.clearRead
         ); done)

theorem Keeps.execBndPathSatRead {s z : State} {q : Rq} {k : Fin 128} (e : Machine.execBndPathSatRead q k s = .next z) : Keeps s z := by
  have hz := Keeps.refl s
  revert e
  unfold Machine.execBndPathSatRead
  first
    | (intro e; injection e with e; subst e; (repeat' first
         | with_reducible assumption
         | (intro x; try clear_value x)
         | with_reducible apply Keeps.gatedRead
         | with_reducible apply Keeps.clearRead
         ); done)

theorem Keeps.execBndTimeLRead {s z : State} {q : Rq} (e : Machine.execBndTimeLRead q s = .next z) : Keeps s z := by
  have hz := Keeps.refl s
  revert e
  unfold Machine.execBndTimeLRead
  first
    | (intro e; injection e with e; subst e; (repeat' first
         | with_reducible assumption
         | (intro x; try clear_value x)
         | with_reducible apply Keeps.gatedRead
         | with_reducible apply Keeps.rdBandTime
         ); done)

end Sys2Proof.Machine
end

