-- ==== Sys2Proof/Laws/KeepFen.lean ====
section
/-! SUPPORT. What the operations of Fen.lean keep. -/

set_option linter.all false

namespace Sys2Proof.Machine

theorem Keeps.updFen {z0 s : State} {n : Nat} {f : FenSeq → FenSeq} (hz : Keeps z0 s)  : Keeps z0 (Machine.updFen n f s) := by
  unfold Machine.updFen
  exact Keeps.upd hz rfl rfl rfl rfl rfl (CelKeeps.refl _) rfl (fun g => by simp_all [SizesOk])

theorem Keeps.fenEvt {z0 s : State} {b : Nat} (hz : Keeps z0 s)  : Keeps z0 (Machine.fenEvt b s) := by
  unfold Machine.fenEvt
  repeat' first
    | with_reducible assumption
    | with_reducible apply Keeps.flag

theorem Keeps.setFit {z0 s : State} {f : Fd} {lo : Int} {hi : Int} {x : Int} (hz : Keeps z0 s)  : Keeps z0 (Machine.State.setFit f lo hi x s) := by
  unfold Machine.State.setFit
  repeat' first
    | with_reducible assumption
    | with_reducible apply Keeps.ite
    | with_reducible apply Keeps.ite1
    | with_reducible apply Keeps.set
    | with_reducible apply Keeps.freeNext

theorem Keeps.rfcShow {z0 s : State}  (hz : Keeps z0 s)  : Keeps z0 (Machine.rfcShow s) := by
  unfold Machine.rfcShow
  repeat' first
    | with_reducible assumption
    | with_reducible apply Keeps.foldl
    | with_reducible apply Keeps.foldl1
    | with_reducible apply Keeps.wr

theorem Keeps.coexRise {z0 s : State}  (hz : Keeps z0 s)  : Keeps z0 (Machine.coexRise s) := by
  unfold Machine.coexRise
  repeat' first
    | with_reducible assumption
    | with_reducible apply Keeps.set
    | ((first | rw [patch_eq] | skip); (with_reducible refine Keeps.patch ?_ ?_ ?_); rotate_left; (first | exact CelKeeps.refl _ | exact ⟨fun _ h => h, Nat.le_refl _⟩ | exact ⟨fun _ h => h, Nat.le_succ _⟩); (refine fun g => ?_; first | exact g | simpa only [SizesOk, Machine.patch, upd_length] using g | (simp only [SizesOk, Machine.patch, upd_length, List.length_map, List.length_replicate, true_and] at g ⊢; tauto)))

theorem Keeps.coexFall {z0 s : State}  (hz : Keeps z0 s)  : Keeps z0 (Machine.coexFall s) := by
  unfold Machine.coexFall
  repeat' first
    | with_reducible assumption
    | with_reducible apply Keeps.set
    | ((first | rw [patch_eq] | skip); (with_reducible refine Keeps.patch ?_ ?_ ?_); rotate_left; (first | exact CelKeeps.refl _ | exact ⟨fun _ h => h, Nat.le_refl _⟩ | exact ⟨fun _ h => h, Nat.le_succ _⟩); (refine fun g => ?_; first | exact g | simpa only [SizesOk, Machine.patch, upd_length] using g | (simp only [SizesOk, Machine.patch, upd_length, List.length_map, List.length_replicate, true_and] at g ⊢; tauto)))

theorem Keeps.coexAsk {z0 s : State} {n : Nat} (hz : Keeps z0 s)  : Keeps z0 (Machine.coexAsk n s) := by
  unfold Machine.coexAsk
  repeat' first
    | with_reducible assumption
    | with_reducible apply Keeps.ite
    | with_reducible apply Keeps.ite1
    | with_reducible apply Keeps.coexRise

theorem Keeps.coexGive {z0 s : State} {n : Nat} (hz : Keeps z0 s)  : Keeps z0 (Machine.coexGive n s) := by
  unfold Machine.coexGive
  repeat' first
    | with_reducible assumption
    | with_reducible apply Keeps.ite
    | with_reducible apply Keeps.ite1
    | with_reducible apply Keeps.coexFall

theorem Keeps.gatesClose {z0 s : State} {n : Nat} (hz : Keeps z0 s)  : Keeps z0 (Machine.gatesClose n s) := by
  unfold Machine.gatesClose
  repeat' first
    | with_reducible assumption
    | (intro x; try clear_value x)
    | with_reducible apply Keeps.ite
    | with_reducible apply Keeps.ite1
    | with_reducible apply Keeps.forN
    | with_reducible apply Keeps.updRpt
    | ((first | rw [patch_eq] | skip); (with_reducible refine Keeps.patch ?_ ?_ ?_); rotate_left; (first | exact CelKeeps.refl _ | exact ⟨fun _ h => h, Nat.le_refl _⟩ | exact ⟨fun _ h => h, Nat.le_succ _⟩); (refine fun g => ?_; first | exact g | simpa only [SizesOk, Machine.patch, upd_length] using g | (simp only [SizesOk, Machine.patch, upd_length, List.length_map, List.length_replicate, true_and] at g ⊢; tauto)))

theorem Keeps.seqEnter {z0 s : State} {n : Nat} {t : Nat} (hz : Keeps z0 s)  : Keeps z0 (Machine.seqEnter n t s) := by
  unfold Machine.seqEnter
  try lift_lets
  repeat' first
    | with_reducible assumption
    | (intro x; with_reducible refine Keeps.cut (o := z0) x ?_ ?_; dsimp only [x]; rotate_left; try clear_value x)
    | (intro x; try clear_value x)
    | with_reducible apply Keeps.ite
    | with_reducible apply Keeps.ite1
    | with_reducible apply Keeps.updFen
    | with_reducible apply Keeps.rfcShow
    | with_reducible apply Keeps.coexGive
    | with_reducible apply Keeps.gatesClose
    | with_reducible apply Keeps.burst
    | with_reducible apply Keeps.set
    | ((first | rw [patch_eq] | skip); (with_reducible refine Keeps.patch ?_ ?_ ?_); rotate_left; (first | exact CelKeeps.refl _ | exact ⟨fun _ h => h, Nat.le_refl _⟩ | exact ⟨fun _ h => h, Nat.le_succ _⟩); (refine fun g => ?_; first | exact g | simpa only [SizesOk, Machine.patch, upd_length] using g | (simp only [SizesOk, Machine.patch, upd_length, List.length_map, List.length_replicate, true_and] at g ⊢; tauto)))

theorem Keeps.seqEnd {z0 s : State} {n : Nat} {op : Nat} {c : Code} {reason : Nat} (hz : Keeps z0 s)  : Keeps z0 (Machine.seqEnd n op c reason s) := by
  unfold Machine.seqEnd
  try lift_lets
  repeat' first
    | with_reducible assumption
    | (intro x; with_reducible refine Keeps.cut (o := z0) x ?_ ?_; dsimp only [x]; rotate_left; try clear_value x)
    | (intro x; try clear_value x)
    | with_reducible apply Keeps.fenEvt
    | with_reducible apply Keeps.set

theorem Keeps.seqNow {z0 s : State} {n : Nat} {op : Nat} {c : Code} (hz : Keeps z0 s)  : Keeps z0 (Machine.seqNow n op c s) := by
  unfold Machine.seqNow
  repeat' first
    | with_reducible assumption
    | with_reducible apply Keeps.seqEnd
    | with_reducible apply Keeps.ret

theorem Keeps.seqHeld {z0 s : State} {n : Nat} {op : Nat} (hz : Keeps z0 s)  : Keeps z0 (Machine.seqHeld n op s) := by
  unfold Machine.seqHeld
  repeat' first
    | with_reducible assumption
    | with_reducible apply Keeps.set
    | with_reducible apply Keeps.ret

theorem Keeps.txHeldEnd {z0 s : State} {n : Nat} {c : Code} {reason : Nat} (hz : Keeps z0 s)  : Keeps z0 (Machine.txHeldEnd n c reason s) := by
  unfold Machine.txHeldEnd
  try lift_lets
  repeat' first
    | with_reducible assumption
    | (intro x; with_reducible refine Keeps.cut (o := z0) x ?_ ?_; dsimp only [x]; rotate_left; try clear_value x)
    | (intro x; try clear_value x)
    | with_reducible apply Keeps.ite
    | with_reducible apply Keeps.ite1
    | with_reducible apply Keeps.coexGive
    | with_reducible apply Keeps.seqEnd
    | with_reducible apply Keeps.set

theorem Keeps.opHeldEnd {z0 s : State} {n : Nat} {c : Code} {reason : Nat} (hz : Keeps z0 s)  : Keeps z0 (Machine.opHeldEnd n c reason s) := by
  unfold Machine.opHeldEnd
  try lift_lets
  repeat' first
    | with_reducible assumption
    | (intro x; try clear_value x)
    | with_reducible apply Keeps.updFen
    | with_reducible apply Keeps.seqEnd
    | with_reducible apply Keeps.set
    | ((first | rw [patch_eq] | skip); (with_reducible refine Keeps.patch ?_ ?_ ?_); rotate_left; (first | exact CelKeeps.refl _ | exact ⟨fun _ h => h, Nat.le_refl _⟩ | exact ⟨fun _ h => h, Nat.le_succ _⟩); (refine fun g => ?_; first | exact g | simpa only [SizesOk, Machine.patch, upd_length] using g | (simp only [SizesOk, Machine.patch, upd_length, List.length_map, List.length_replicate, true_and] at g ⊢; tauto)))

theorem Keeps.seqAbort {z0 s : State} {n : Nat} {reason : Nat} (hz : Keeps z0 s)  : Keeps z0 (Machine.seqAbort n reason s) := by
  unfold Machine.seqAbort
  try lift_lets
  repeat' first
    | with_reducible assumption
    | (intro x; with_reducible refine Keeps.cut (o := z0) x ?_ ?_; dsimp only [x]; rotate_left; try clear_value x)
    | (intro x; try clear_value x)
    | with_reducible apply Keeps.ite
    | with_reducible apply Keeps.ite1
    | with_reducible apply Keeps.txHeldEnd
    | with_reducible apply Keeps.opHeldEnd

theorem Keeps.seqStandby {z0 s : State} {n : Nat} (hz : Keeps z0 s)  : Keeps z0 (Machine.seqStandby n s) := by
  unfold Machine.seqStandby
  try lift_lets
  repeat' first
    | with_reducible assumption
    | (intro x; try clear_value x)
    | with_reducible apply Keeps.ite
    | with_reducible apply Keeps.ite1
    | with_reducible apply Keeps.updFen
    | with_reducible apply Keeps.seqEnter
    | with_reducible apply Keeps.seqNow
    | ((first | rw [patch_eq] | skip); (with_reducible refine Keeps.patch ?_ ?_ ?_); rotate_left; (first | exact CelKeeps.refl _ | exact ⟨fun _ h => h, Nat.le_refl _⟩ | exact ⟨fun _ h => h, Nat.le_succ _⟩); (refine fun g => ?_; first | exact g | simpa only [SizesOk, Machine.patch, upd_length] using g | (simp only [SizesOk, Machine.patch, upd_length, List.length_map, List.length_replicate, true_and] at g ⊢; tauto)))

theorem Keeps.seqRx {z0 s : State} {n : Nat} (hz : Keeps z0 s)  : Keeps z0 (Machine.seqRx n s) := by
  unfold Machine.seqRx
  try lift_lets
  repeat' first
    | with_reducible assumption
    | (intro x; try clear_value x)
    | with_reducible apply Keeps.ite
    | with_reducible apply Keeps.ite1
    | with_reducible apply Keeps.seqEnter
    | with_reducible apply Keeps.seqNow

theorem Keeps.txEnter {z0 s : State} {n : Nat} {dur : Nat} (hz : Keeps z0 s)  : Keeps z0 (Machine.txEnter n dur s) := by
  unfold Machine.txEnter
  repeat' first
    | with_reducible assumption
    | with_reducible apply Keeps.updFen
    | with_reducible apply Keeps.seqEnter
    | ((first | rw [patch_eq] | skip); (with_reducible refine Keeps.patch ?_ ?_ ?_); rotate_left; (first | exact CelKeeps.refl _ | exact ⟨fun _ h => h, Nat.le_refl _⟩ | exact ⟨fun _ h => h, Nat.le_succ _⟩); (refine fun g => ?_; first | exact g | simpa only [SizesOk, Machine.patch, upd_length] using g | (simp only [SizesOk, Machine.patch, upd_length, List.length_map, List.length_replicate, true_and] at g ⊢; tauto)))

theorem Keeps.seqTx {z0 s : State} {n : Nat} {dur : Nat} (hz : Keeps z0 s)  : Keeps z0 (Machine.seqTx n dur s) := by
  unfold Machine.seqTx
  try lift_lets
  repeat' first
    | with_reducible assumption
    | (intro x; with_reducible refine Keeps.cut (o := z0) x ?_ ?_; dsimp only [x]; rotate_left; try clear_value x)
    | (intro x; try clear_value x)
    | with_reducible apply Keeps.ite
    | with_reducible apply Keeps.ite1
    | with_reducible apply Keeps.updFen
    | with_reducible apply Keeps.coexAsk
    | with_reducible apply Keeps.seqNow
    | with_reducible apply Keeps.seqHeld
    | with_reducible apply Keeps.txEnter
    | with_reducible apply Keeps.set
    | ((first | rw [patch_eq] | skip); (with_reducible refine Keeps.patch ?_ ?_ ?_); rotate_left; (first | exact CelKeeps.refl _ | exact ⟨fun _ h => h, Nat.le_refl _⟩ | exact ⟨fun _ h => h, Nat.le_succ _⟩); (refine fun g => ?_; first | exact g | simpa only [SizesOk, Machine.patch, upd_length] using g | (simp only [SizesOk, Machine.patch, upd_length, List.length_map, List.length_replicate, true_and] at g ⊢; tauto)))

theorem Keeps.spiStart {z0 s : State} {m : Nat} (hz : Keeps z0 s)  : Keeps z0 (Machine.spiStart m s) := by
  unfold Machine.spiStart
  try lift_lets
  repeat' first
    | with_reducible assumption
    | (intro x; with_reducible refine Keeps.cut (o := z0) x ?_ ?_; dsimp only [x]; rotate_left; try clear_value x)
    | (intro x; try clear_value x)
    | with_reducible apply Keeps.set
    | ((first | rw [patch_eq] | skip); (with_reducible refine Keeps.patch ?_ ?_ ?_); rotate_left; (first | exact CelKeeps.refl _ | exact ⟨fun _ h => h, Nat.le_refl _⟩ | exact ⟨fun _ h => h, Nat.le_succ _⟩); (refine fun g => ?_; first | exact g | simpa only [SizesOk, Machine.patch, upd_length] using g | (simp only [SizesOk, Machine.patch, upd_length, List.length_map, List.length_replicate, true_and] at g ⊢; tauto)))

theorem Keeps.seqSettle {z0 s : State} {n : Nat} (hz : Keeps z0 s)  : Keeps z0 (Machine.seqSettle n s) := by
  unfold Machine.seqSettle
  try lift_lets
  repeat' first
    | with_reducible assumption
    | (intro x; with_reducible refine Keeps.cut (o := z0) x ?_ ?_; dsimp only [x]; rotate_left; try clear_value x)
    | (intro x; try clear_value x)
    | with_reducible apply Keeps.ite
    | with_reducible apply Keeps.ite1
    | with_reducible apply Keeps.updFen
    | with_reducible apply Keeps.seqEnter
    | with_reducible apply Keeps.seqNow
    | with_reducible apply Keeps.seqHeld
    | with_reducible apply Keeps.spiStart
    | with_reducible apply Keeps.set
    | ((first | rw [patch_eq] | skip); (with_reducible refine Keeps.patch ?_ ?_ ?_); rotate_left; (first | exact CelKeeps.refl _ | exact ⟨fun _ h => h, Nat.le_refl _⟩ | exact ⟨fun _ h => h, Nat.le_succ _⟩); (refine fun g => ?_; first | exact g | simpa only [SizesOk, Machine.patch, upd_length] using g | (simp only [SizesOk, Machine.patch, upd_length, List.length_map, List.length_replicate, true_and] at g ⊢; tauto)))

theorem Keeps.seqCal {z0 s : State} {n : Nat} (hz : Keeps z0 s)  : Keeps z0 (Machine.seqCal n s) := by
  unfold Machine.seqCal
  try lift_lets
  repeat' first
    | with_reducible assumption
    | (intro x; with_reducible refine Keeps.cut (o := z0) x ?_ ?_; dsimp only [x]; rotate_left; try clear_value x)
    | (intro x; try clear_value x)
    | with_reducible apply Keeps.ite
    | with_reducible apply Keeps.ite1
    | with_reducible apply Keeps.updFen
    | with_reducible apply Keeps.seqEnter
    | with_reducible apply Keeps.seqNow
    | with_reducible apply Keeps.seqHeld
    | with_reducible apply Keeps.set
    | ((first | rw [patch_eq] | skip); (with_reducible refine Keeps.patch ?_ ?_ ?_); rotate_left; (first | exact CelKeeps.refl _ | exact ⟨fun _ h => h, Nat.le_refl _⟩ | exact ⟨fun _ h => h, Nat.le_succ _⟩); (refine fun g => ?_; first | exact g | simpa only [SizesOk, Machine.patch, upd_length] using g | (simp only [SizesOk, Machine.patch, upd_length, List.length_map, List.length_replicate, true_and] at g ⊢; tauto)))

theorem Keeps.seqOff {z0 s : State} {n : Nat} (hz : Keeps z0 s)  : Keeps z0 (Machine.seqOff n s) := by
  unfold Machine.seqOff
  repeat' first
    | with_reducible assumption
    | with_reducible apply Keeps.seqEnter
    | with_reducible apply Keeps.seqNow
    | with_reducible apply Keeps.seqAbort

theorem Keeps.wrSeqCmd {z0 s : State} {n : Nat} {w : Word} (hz : Keeps z0 s)  : Keeps z0 (Machine.wrSeqCmd n w s) := by
  unfold Machine.wrSeqCmd
  repeat' first
    | with_reducible assumption
    | with_reducible apply Keeps.ite
    | with_reducible apply Keeps.ite1
    | with_reducible apply Keeps.seqNow
    | with_reducible apply Keeps.seqStandby
    | with_reducible apply Keeps.seqRx
    | with_reducible apply Keeps.seqTx
    | with_reducible apply Keeps.seqSettle
    | with_reducible apply Keeps.seqCal
    | with_reducible apply Keeps.seqOff
    | (fail_if_no_progress dsimp -zeta only)
    | split

theorem Keeps.fenForceOn {z0 s : State}  (hz : Keeps z0 s)  : Keeps z0 (Machine.fenForceOn s) := by
  unfold Machine.fenForceOn
  try lift_lets
  repeat' first
    | with_reducible assumption
    | (intro x; with_reducible refine Keeps.cut (o := z0) x ?_ ?_; dsimp only [x]; rotate_left; try clear_value x)
    | (intro x; try clear_value x)
    | with_reducible apply Keeps.ite
    | with_reducible apply Keeps.ite1
    | with_reducible apply Keeps.forN
    | with_reducible apply Keeps.fenEvt
    | with_reducible apply Keeps.seqEnter
    | with_reducible apply Keeps.seqAbort
    | ((first | rw [patch_eq] | skip); (with_reducible refine Keeps.patch ?_ ?_ ?_); rotate_left; (first | exact CelKeeps.refl _ | exact ⟨fun _ h => h, Nat.le_refl _⟩ | exact ⟨fun _ h => h, Nat.le_succ _⟩); (refine fun g => ?_; first | exact g | simpa only [SizesOk, Machine.patch, upd_length] using g | (simp only [SizesOk, Machine.patch, upd_length, List.length_map, List.length_replicate, true_and] at g ⊢; tauto)))

theorem Keeps.fenForceOff {z0 s : State}  (hz : Keeps z0 s)  : Keeps z0 (Machine.fenForceOff s) := by
  unfold Machine.fenForceOff
  exact Keeps.upd hz rfl rfl rfl rfl rfl (CelKeeps.refl _) rfl (fun g => by simp_all [SizesOk])

theorem Keeps.txDurExpire {z0 s : State} {n : Nat} (hz : Keeps z0 s)  : Keeps z0 (Machine.txDurExpire n s) := by
  unfold Machine.txDurExpire
  repeat' first
    | with_reducible assumption
    | with_reducible apply Keeps.ite
    | with_reducible apply Keeps.ite1
    | with_reducible apply Keeps.seqEnter

theorem Keeps.lockShow {z0 s : State} {n : Nat} (hz : Keeps z0 s)  : Keeps z0 (Machine.lockShow n s) := by
  unfold Machine.lockShow
  repeat' first
    | with_reducible assumption
    | with_reducible apply Keeps.set

theorem Keeps.lockQualify {z0 s : State} {n : Nat} {i : Nat} (hz : Keeps z0 s)  : Keeps z0 (Machine.lockQualify n i s) := by
  unfold Machine.lockQualify
  repeat' first
    | with_reducible assumption
    | with_reducible apply Keeps.ite
    | with_reducible apply Keeps.ite1
    | with_reducible apply Keeps.updFen
    | with_reducible apply Keeps.lockShow
    | ((first | rw [patch_eq] | skip); (with_reducible refine Keeps.patch ?_ ?_ ?_); rotate_left; (first | exact CelKeeps.refl _ | exact ⟨fun _ h => h, Nat.le_refl _⟩ | exact ⟨fun _ h => h, Nat.le_succ _⟩); (refine fun g => ?_; first | exact g | simpa only [SizesOk, Machine.patch, upd_length] using g | (simp only [SizesOk, Machine.patch, upd_length, List.length_map, List.length_replicate, true_and] at g ⊢; tauto)))

theorem Keeps.lockLost {z0 s : State} {n : Nat} (hz : Keeps z0 s)  : Keeps z0 (Machine.lockLost n s) := by
  unfold Machine.lockLost
  repeat' first
    | with_reducible assumption
    | with_reducible apply Keeps.fenEvt
    | with_reducible apply Keeps.seqEnter
    | with_reducible apply Keeps.opHeldEnd
    | with_reducible apply Keeps.addSat
    | (fail_if_no_progress dsimp -zeta only)
    | split

theorem Keeps.lockFall {z0 s : State} {i : Nat} (hz : Keeps z0 s)  : Keeps z0 (Machine.lockFall i s) := by
  unfold Machine.lockFall
  try lift_lets
  repeat' first
    | with_reducible assumption
    | (intro x; try clear_value x)
    | with_reducible apply Keeps.ite
    | with_reducible apply Keeps.ite1
    | with_reducible apply Keeps.forN
    | with_reducible apply Keeps.updFen
    | with_reducible apply Keeps.lockShow
    | with_reducible apply Keeps.lockLost
    | ((first | rw [patch_eq] | skip); (with_reducible refine Keeps.patch ?_ ?_ ?_); rotate_left; (first | exact CelKeeps.refl _ | exact ⟨fun _ h => h, Nat.le_refl _⟩ | exact ⟨fun _ h => h, Nat.le_succ _⟩); (refine fun g => ?_; first | exact g | simpa only [SizesOk, Machine.patch, upd_length] using g | (simp only [SizesOk, Machine.patch, upd_length, List.length_map, List.length_replicate, true_and] at g ⊢; tauto)))

theorem Keeps.heldTxEnter {z0 s : State} {n : Nat} (hz : Keeps z0 s)  : Keeps z0 (Machine.heldTxEnter n s) := by
  unfold Machine.heldTxEnter
  repeat' first
    | with_reducible assumption
    | with_reducible apply Keeps.ite
    | with_reducible apply Keeps.ite1
    | with_reducible apply Keeps.txHeldEnd
    | with_reducible apply Keeps.txEnter

theorem Keeps.txHoldExpire {z0 s : State} {n : Nat} (hz : Keeps z0 s)  : Keeps z0 (Machine.txHoldExpire n s) := by
  unfold Machine.txHoldExpire
  repeat' first
    | with_reducible assumption
    | with_reducible apply Keeps.ite
    | with_reducible apply Keeps.ite1
    | with_reducible apply Keeps.txHeldEnd
    | with_reducible apply Keeps.heldTxEnter
    | with_reducible apply Keeps.addSat

theorem Keeps.settleDone {z0 s : State} {n : Nat} (hz : Keeps z0 s)  : Keeps z0 (Machine.settleDone n s) := by
  unfold Machine.settleDone
  repeat' first
    | with_reducible assumption
    | with_reducible apply Keeps.ite
    | with_reducible apply Keeps.ite1
    | with_reducible apply Keeps.seqEnter
    | with_reducible apply Keeps.opHeldEnd

theorem Keeps.settleTimeout {z0 s : State} {n : Nat} (hz : Keeps z0 s)  : Keeps z0 (Machine.settleTimeout n s) := by
  unfold Machine.settleTimeout
  repeat' first
    | with_reducible assumption
    | with_reducible apply Keeps.ite
    | with_reducible apply Keeps.ite1
    | with_reducible apply Keeps.seqEnter
    | with_reducible apply Keeps.opHeldEnd
    | with_reducible apply Keeps.settleDone

theorem Keeps.betaStep {z0 s : State} {k : Nat} {tr : Int} {ti : Int} {ir : Int} {ii : Int} (hz : Keeps z0 s)  : Keeps z0 (Machine.betaStep k tr ti ir ii s) := by
  unfold Machine.betaStep
  try lift_lets
  repeat' first
    | with_reducible assumption
    | (intro x; try clear_value x)
    | with_reducible apply Keeps.ite
    | with_reducible apply Keeps.ite1
    | with_reducible apply Keeps.setFit
    | with_reducible apply Keeps.wr
    | with_reducible apply Keeps.freeNext

theorem Keeps.irrShow {z0 s : State} {n : Nat} {a : Nat} {b : Nat} (hz : Keeps z0 s)  : Keeps z0 (Machine.irrShow n a b s) := by
  unfold Machine.irrShow
  repeat' first
    | with_reducible assumption
    | with_reducible apply Keeps.ite
    | with_reducible apply Keeps.ite1
    | with_reducible apply Keeps.setFit
    | with_reducible apply Keeps.freeNext

theorem Keeps.calFeed {z0 s : State} {k : Nat} {z : Cx} (hz : Keeps z0 s)  : Keeps z0 (Machine.calFeed k z s) := by
  unfold Machine.calFeed
  repeat' first
    | with_reducible assumption
    | (intro x; with_reducible refine Keeps.cut (o := z0) x ?_ ?_; dsimp only [x]; rotate_left; try clear_value x)
    | (intro x; with_reducible refine Keeps.cut1 (o := z0) x ?_ ?_; dsimp only [x]; rotate_left; try clear_value x)
    | (intro x; with_reducible refine Keeps.cutF x ?_; try dsimp only [x])
    | (intro x; try clear_value x)
    | with_reducible apply Keeps.ite
    | with_reducible apply Keeps.ite1
    | with_reducible apply Keeps.forN
    | with_reducible apply Keeps.updFen
    | ((first | rw [patch_eq] | skip); (with_reducible refine Keeps.patch ?_ ?_ ?_); rotate_left; (first | exact CelKeeps.refl _ | exact ⟨fun _ h => h, Nat.le_refl _⟩ | exact ⟨fun _ h => h, Nat.le_succ _⟩); (refine fun g => ?_; first | exact g | simpa only [SizesOk, Machine.patch, upd_length] using g | (simp only [SizesOk, Machine.patch, upd_length, List.length_map, List.length_replicate, true_and] at g ⊢; tauto)))
    | (fail_if_no_progress dsimp -zeta only)
    | split

theorem Keeps.calPassEnd {z0 s : State} {n : Nat} (hz : Keeps z0 s)  : Keeps z0 (Machine.calPassEnd n s) := by
  unfold Machine.calPassEnd
  try lift_lets
  repeat' first
    | with_reducible assumption
    | (intro x; with_reducible refine Keeps.cut (o := z0) x ?_ ?_; dsimp only [x]; rotate_left; try clear_value x)
    | (intro x; with_reducible refine Keeps.cut1 (o := z0) x ?_ ?_; dsimp only [x]; rotate_left; try clear_value x)
    | (intro x; with_reducible refine Keeps.cut2 (o := z0) x ?_ ?_; dsimp only [x]; rotate_left; try clear_value x)
    | with_reducible apply Keeps.ite2
    | (intro x; with_reducible refine Keeps.cutF x ?_; try dsimp only [x])
    | (intro x; try clear_value x)
    | with_reducible apply Keeps.ite
    | with_reducible apply Keeps.ite1
    | with_reducible apply Keeps.updFen
    | with_reducible apply Keeps.seqEnter
    | with_reducible apply Keeps.opHeldEnd
    | with_reducible apply Keeps.betaStep
    | with_reducible apply Keeps.irrShow
    | with_reducible apply Keeps.incMod
    | ((first | rw [patch_eq] | skip); (with_reducible refine Keeps.patch ?_ ?_ ?_); rotate_left; (first | exact CelKeeps.refl _ | exact ⟨fun _ h => h, Nat.le_refl _⟩ | exact ⟨fun _ h => h, Nat.le_succ _⟩); (refine fun g => ?_; first | exact g | simpa only [SizesOk, Machine.patch, upd_length] using g | (simp only [SizesOk, Machine.patch, upd_length, List.length_map, List.length_replicate, true_and] at g ⊢; tauto)))
    | (fail_if_no_progress dsimp -zeta only)
    | split

theorem Keeps.seqSkip {z0 s : State} {n : Nat} {t : Int} (hz : Keeps z0 s)  : Keeps z0 (Machine.seqSkip n t s) := by
  unfold Machine.seqSkip
  try lift_lets
  repeat' first
    | with_reducible assumption
    | (intro x; with_reducible refine Keeps.cut (o := z0) x ?_ ?_; dsimp only [x]; rotate_left; try clear_value x)
    | (intro x; try clear_value x)
    | with_reducible apply Keeps.ite
    | with_reducible apply Keeps.ite1
    | with_reducible apply Keeps.flagLimited
    | with_reducible apply Keeps.updFen
    | with_reducible apply Keeps.coexGive
    | with_reducible apply Keeps.set
    | with_reducible apply Keeps.addSat
    | ((first | rw [patch_eq] | skip); (with_reducible refine Keeps.patch ?_ ?_ ?_); rotate_left; (first | exact CelKeeps.refl _ | exact ⟨fun _ h => h, Nat.le_refl _⟩ | exact ⟨fun _ h => h, Nat.le_succ _⟩); (refine fun g => ?_; first | exact g | simpa only [SizesOk, Machine.patch, upd_length] using g | (simp only [SizesOk, Machine.patch, upd_length, List.length_map, List.length_replicate, true_and] at g ⊢; tauto)))

theorem Keeps.burstGo {z0 s : State} {n : Nat} {b : Burst} {next : List Burst} (hz : Keeps z0 s)  : Keeps z0 (Machine.burstGo n b next s) := by
  unfold Machine.burstGo
  repeat' first
    | with_reducible assumption
    | (intro x; with_reducible refine Keeps.cut (o := z0) x ?_ ?_; dsimp only [x]; rotate_left; try clear_value x)
    | (intro x; with_reducible refine Keeps.cut1 (o := z0) x ?_ ?_; dsimp only [x]; rotate_left; try clear_value x)
    | (intro x; with_reducible refine Keeps.cutF x ?_; try dsimp only [x])
    | (intro x; try clear_value x)
    | with_reducible apply Keeps.ite
    | with_reducible apply Keeps.ite1
    | with_reducible apply Keeps.updFen
    | with_reducible apply Keeps.seqEnter
    | with_reducible apply Keeps.burst
    | ((first | rw [patch_eq] | skip); (with_reducible refine Keeps.patch ?_ ?_ ?_); rotate_left; (first | exact CelKeeps.refl _ | exact ⟨fun _ h => h, Nat.le_refl _⟩ | exact ⟨fun _ h => h, Nat.le_succ _⟩); (refine fun g => ?_; first | exact g | simpa only [SizesOk, Machine.patch, upd_length] using g | (simp only [SizesOk, Machine.patch, upd_length, List.length_map, List.length_replicate, true_and] at g ⊢; tauto)))
    | (fail_if_no_progress dsimp -zeta only)
    | split

theorem Keeps.burstTake {z0 s : State} {n : Nat} {b : Burst} (hz : Keeps z0 s)  : Keeps z0 (Machine.burstTake n b s) := by
  unfold Machine.burstTake
  try lift_lets
  repeat' first
    | with_reducible assumption
    | (intro x; with_reducible refine Keeps.cut (o := z0) x ?_ ?_; dsimp only [x]; rotate_left; try clear_value x)
    | (intro x; with_reducible refine Keeps.cut1 (o := z0) x ?_ ?_; dsimp only [x]; rotate_left; try clear_value x)
    | (intro x; with_reducible refine Keeps.cutF x ?_; try dsimp only [x])
    | (intro x; try clear_value x)
    | with_reducible apply Keeps.ite
    | with_reducible apply Keeps.ite1
    | with_reducible apply Keeps.updFen
    | with_reducible apply Keeps.burstGo
    | with_reducible apply Keeps.burst
    | ((first | rw [patch_eq] | skip); (with_reducible refine Keeps.patch ?_ ?_ ?_); rotate_left; (first | exact CelKeeps.refl _ | exact ⟨fun _ h => h, Nat.le_refl _⟩ | exact ⟨fun _ h => h, Nat.le_succ _⟩); (refine fun g => ?_; first | exact g | simpa only [SizesOk, Machine.patch, upd_length] using g | (simp only [SizesOk, Machine.patch, upd_length, List.length_map, List.length_replicate, true_and] at g ⊢; tauto)))
    | (fail_if_no_progress dsimp -zeta only)
    | split

theorem Keeps.burstTxEnter {z0 s : State} {n : Nat} {sym : Nat} (hz : Keeps z0 s)  : Keeps z0 (Machine.burstTxEnter n sym s) := by
  unfold Machine.burstTxEnter
  repeat' first
    | with_reducible assumption
    | with_reducible apply Keeps.ite
    | with_reducible apply Keeps.ite1
    | with_reducible apply Keeps.seqSkip
    | with_reducible apply Keeps.burstTake
    | (fail_if_no_progress dsimp -zeta only)
    | split

theorem Keeps.burstRxEnter {z0 s : State} {n : Nat} {sym : Nat} (hz : Keeps z0 s)  : Keeps z0 (Machine.burstRxEnter n sym s) := by
  unfold Machine.burstRxEnter
  repeat' first
    | with_reducible assumption
    | with_reducible apply Keeps.ite
    | with_reducible apply Keeps.ite1
    | with_reducible apply Keeps.burstTake
    | (fail_if_no_progress dsimp -zeta only)
    | split

theorem Keeps.burstRet {z0 s : State} {n : Nat} {c : Burst} (hz : Keeps z0 s)  : Keeps z0 (Machine.burstRet n c s) := by
  unfold Machine.burstRet
  repeat' first
    | with_reducible assumption
    | with_reducible apply Keeps.ite
    | with_reducible apply Keeps.ite1
    | with_reducible apply Keeps.seqEnter

theorem Keeps.burstPass {z0 : State} {n : Nat} {c : Burst} (l : List Burst) {s : State} (h : Keeps z0 s) :
    Keeps z0 (Machine.burstPass n c l s) := by
  induction l generalizing s with
  | nil => exact Keeps.burstRet (Keeps.updFen h)
  | cons b t ih =>
    unfold Machine.burstPass
    exact Keeps.ite (ih h) (Keeps.ite (ih (Keeps.seqSkip h)) (Keeps.burstGo h))

theorem Keeps.burstLeave {z0 s : State} {n : Nat} (hz : Keeps z0 s)  : Keeps z0 (Machine.burstLeave n s) := by
  unfold Machine.burstLeave
  repeat' first
    | with_reducible assumption
    | (intro x; with_reducible refine Keeps.cut (o := z0) x ?_ ?_; dsimp only [x]; rotate_left; try clear_value x)
    | (intro x; with_reducible refine Keeps.cut1 (o := z0) x ?_ ?_; dsimp only [x]; rotate_left; try clear_value x)
    | (intro x; with_reducible refine Keeps.cutF x ?_; try dsimp only [x])
    | (intro x; try clear_value x)
    | with_reducible apply Keeps.ite
    | with_reducible apply Keeps.ite1
    | with_reducible apply Keeps.burstPass
    | with_reducible apply Keeps.burst
    | ((first | rw [patch_eq] | skip); (with_reducible refine Keeps.patch ?_ ?_ ?_); rotate_left; (first | exact CelKeeps.refl _ | exact ⟨fun _ h => h, Nat.le_refl _⟩ | exact ⟨fun _ h => h, Nat.le_succ _⟩); (refine fun g => ?_; first | exact g | simpa only [SizesOk, Machine.patch, upd_length] using g | (simp only [SizesOk, Machine.patch, upd_length, List.length_map, List.length_replicate, true_and] at g ⊢; tauto)))
    | (fail_if_no_progress dsimp -zeta only)
    | split

theorem Keeps.seqBoundary {z0 s : State}  (hz : Keeps z0 s)  : Keeps z0 (Machine.seqBoundary s) := by
  unfold Machine.seqBoundary
  repeat' first
    | with_reducible assumption
    | (intro x; try clear_value x)
    | with_reducible apply Keeps.ite
    | with_reducible apply Keeps.ite1
    | with_reducible apply Keeps.forN
    | with_reducible apply Keeps.updFen
    | (fail_if_no_progress dsimp -zeta only)
    | split

theorem Keeps.gateEdge {z0 s : State} {k : Nat} {opens : Bool} (hz : Keeps z0 s)  : Keeps z0 (Machine.gateEdge k opens s) := by
  unfold Machine.gateEdge
  repeat' first
    | with_reducible assumption
    | with_reducible apply Keeps.ite
    | with_reducible apply Keeps.ite1
    | with_reducible apply Keeps.updRpt
    | with_reducible apply Keeps.burst
    | (fail_if_no_progress dsimp -zeta only)
    | split

theorem Keeps.wrSpiCmd {z0 s : State} {m : Nat} {w : Word} (hz : Keeps z0 s)  : Keeps z0 (Machine.wrSpiCmd m w s) := by
  unfold Machine.wrSpiCmd
  repeat' first
    | with_reducible assumption
    | with_reducible apply Keeps.ite
    | with_reducible apply Keeps.ite1
    | with_reducible apply Keeps.spiStart
    | with_reducible apply Keeps.ret

theorem Keeps.spiEnd {z0 s : State} {m : Nat} {rx : List Word} (hz : Keeps z0 s)  : Keeps z0 (Machine.spiEnd m rx s) := by
  unfold Machine.spiEnd
  try lift_lets
  repeat' first
    | with_reducible assumption
    | (intro x; with_reducible refine Keeps.cut (o := z0) x ?_ ?_; dsimp only [x]; rotate_left; try clear_value x)
    | (intro x; try clear_value x)
    | with_reducible apply Keeps.ite
    | with_reducible apply Keeps.ite1
    | with_reducible apply Keeps.forN
    | with_reducible apply Keeps.updFen
    | with_reducible apply Keeps.fenEvt
    | with_reducible apply Keeps.wr
    | with_reducible apply Keeps.set
    | ((first | rw [patch_eq] | skip); (with_reducible refine Keeps.patch ?_ ?_ ?_); rotate_left; (first | exact CelKeeps.refl _ | exact ⟨fun _ h => h, Nat.le_refl _⟩ | exact ⟨fun _ h => h, Nat.le_succ _⟩); (refine fun g => ?_; first | exact g | simpa only [SizesOk, Machine.patch, upd_length] using g | (simp only [SizesOk, Machine.patch, upd_length, List.length_map, List.length_replicate, true_and] at g ⊢; tauto)))

theorem Keeps.wrSpiCfg {z0 s : State} {m : Nat} {w : Word} (hz : Keeps z0 s)  : Keeps z0 (Machine.wrSpiCfg m w s) := by
  unfold Machine.wrSpiCfg
  repeat' first
    | with_reducible assumption
    | with_reducible apply Keeps.ite
    | with_reducible apply Keeps.ite1
    | with_reducible apply Keeps.plainWrite
    | with_reducible apply Keeps.ret

theorem Keeps.wrSpiData {z0 s : State} {m : Nat} {j : Nat} {w : Word} (hz : Keeps z0 s)  : Keeps z0 (Machine.wrSpiData m j w s) := by
  unfold Machine.wrSpiData
  repeat' first
    | with_reducible assumption
    | with_reducible apply Keeps.ite
    | with_reducible apply Keeps.ite1
    | with_reducible apply Keeps.plainWrite
    | with_reducible apply Keeps.ret

theorem Keeps.wrCoexCtrl {z0 s : State} {w : Word} (hz : Keeps z0 s)  : Keeps z0 (Machine.wrCoexCtrl w s) := by
  unfold Machine.wrCoexCtrl
  try lift_lets
  repeat' first
    | with_reducible assumption
    | (intro x; with_reducible refine Keeps.cut (o := z0) x ?_ ?_; dsimp only [x]; rotate_left; try clear_value x)
    | (intro x; try clear_value x)
    | with_reducible apply Keeps.ite
    | with_reducible apply Keeps.ite1
    | with_reducible apply Keeps.coexFall
    | with_reducible apply Keeps.set
    | with_reducible apply Keeps.store
    | with_reducible apply Keeps.ret
    | ((first | rw [patch_eq] | skip); (with_reducible refine Keeps.patch ?_ ?_ ?_); rotate_left; (first | exact CelKeeps.refl _ | exact ⟨fun _ h => h, Nat.le_refl _⟩ | exact ⟨fun _ h => h, Nat.le_succ _⟩); (refine fun g => ?_; first | exact g | simpa only [SizesOk, Machine.patch, upd_length] using g | (simp only [SizesOk, Machine.patch, upd_length, List.length_map, List.length_replicate, true_and] at g ⊢; tauto)))

theorem Keeps.wrCoexCfg {z0 s : State} {w : Word} (hz : Keeps z0 s)  : Keeps z0 (Machine.wrCoexCfg w s) := by
  unfold Machine.wrCoexCfg
  repeat' first
    | with_reducible assumption
    | with_reducible apply Keeps.ite
    | with_reducible apply Keeps.ite1
    | with_reducible apply Keeps.plainWrite
    | with_reducible apply Keeps.ret

theorem Keeps.coexReqAssert {z0 s : State} {n : Nat} (hz : Keeps z0 s)  : Keeps z0 (Machine.coexReqAssert n s) := by
  unfold Machine.coexReqAssert
  repeat' first
    | with_reducible assumption
    | with_reducible apply Keeps.ite
    | with_reducible apply Keeps.ite1
    | with_reducible apply Keeps.coexAsk

theorem Keeps.grantChg {z0 s : State} {v : Nat} (hz : Keeps z0 s)  : Keeps z0 (Machine.grantChg v s) := by
  unfold Machine.grantChg
  try lift_lets
  repeat' first
    | with_reducible assumption
    | (intro x; with_reducible refine Keeps.cut (o := z0) x ?_ ?_; dsimp only [x]; rotate_left; try clear_value x)
    | (intro x; try clear_value x)
    | with_reducible apply Keeps.flagLimited
    | with_reducible apply Keeps.set
    | ((first | rw [patch_eq] | skip); (with_reducible refine Keeps.patch ?_ ?_ ?_); rotate_left; (first | exact CelKeeps.refl _ | exact ⟨fun _ h => h, Nat.le_refl _⟩ | exact ⟨fun _ h => h, Nat.le_succ _⟩); (refine fun g => ?_; first | exact g | simpa only [SizesOk, Machine.patch, upd_length] using g | (simp only [SizesOk, Machine.patch, upd_length, List.length_map, List.length_replicate, true_and] at g ⊢; tauto)))

theorem Keeps.grantAssert {z0 s : State}  (hz : Keeps z0 s)  : Keeps z0 (Machine.grantAssert s) := by
  unfold Machine.grantAssert
  repeat' first
    | with_reducible assumption
    | with_reducible apply Keeps.ite
    | with_reducible apply Keeps.ite1
    | with_reducible apply Keeps.grantChg
    | with_reducible apply Keeps.addSat

theorem Keeps.grantDeassert {z0 s : State}  (hz : Keeps z0 s)  : Keeps z0 (Machine.grantDeassert s) := by
  unfold Machine.grantDeassert
  try lift_lets
  repeat' first
    | with_reducible assumption
    | (intro x; with_reducible refine Keeps.cut (o := z0) x ?_ ?_; dsimp only [x]; rotate_left; try clear_value x)
    | (intro x; try clear_value x)
    | with_reducible apply Keeps.ite
    | with_reducible apply Keeps.ite1
    | with_reducible apply Keeps.fenEvt
    | with_reducible apply Keeps.seqEnter
    | with_reducible apply Keeps.grantChg
    | with_reducible apply Keeps.addSat

theorem Keeps.grantGlitch {z0 s : State}  (hz : Keeps z0 s)  : Keeps z0 (Machine.grantGlitch s) := by
  unfold Machine.grantGlitch
  repeat' first
    | with_reducible assumption
    | with_reducible apply Keeps.ite
    | with_reducible apply Keeps.ite1
    | with_reducible apply Keeps.addSat

theorem Keeps.grantStuck {z0 s : State}  (hz : Keeps z0 s)  : Keeps z0 (Machine.grantStuck s) := by
  unfold Machine.grantStuck
  try lift_lets
  repeat' first
    | with_reducible assumption
    | (intro x; try clear_value x)
    | with_reducible apply Keeps.ite
    | with_reducible apply Keeps.ite1
    | with_reducible apply Keeps.fenEvt
    | with_reducible apply Keeps.set
    | with_reducible apply Keeps.addSat

theorem Keeps.wrRfcOwn {z0 s : State} {a : Nat} {w : Word} (hz : Keeps z0 s)  : Keeps z0 (Machine.wrRfcOwn a w s) := by
  unfold Machine.wrRfcOwn
  try lift_lets
  repeat' first
    | with_reducible assumption
    | (intro x; try clear_value x)
    | with_reducible apply Keeps.ite
    | with_reducible apply Keeps.ite1
    | with_reducible apply Keeps.plainWrite
    | with_reducible apply Keeps.rfcShow
    | with_reducible apply Keeps.ret

theorem Keeps.wrSeqCtrl {z0 s : State} {n : Nat} {w : Word} (hz : Keeps z0 s)  : Keeps z0 (Machine.wrSeqCtrl n w s) := by
  unfold Machine.wrSeqCtrl
  repeat' first
    | with_reducible assumption
    | with_reducible apply Keeps.ite
    | with_reducible apply Keeps.ite1
    | with_reducible apply Keeps.plainWrite
    | with_reducible apply Keeps.lockShow
    | with_reducible apply Keeps.ret

theorem Keeps.wrSeqHold {z0 s : State} {n : Nat} {w : Word} (hz : Keeps z0 s)  : Keeps z0 (Machine.wrSeqHold n w s) := by
  unfold Machine.wrSeqHold
  repeat' first
    | with_reducible assumption
    | with_reducible apply Keeps.ite
    | with_reducible apply Keeps.ite1
    | with_reducible apply Keeps.plainWrite
    | with_reducible apply Keeps.ret

theorem Keeps.wrSeqLock {z0 s : State} {n : Nat} {w : Word} (hz : Keeps z0 s)  : Keeps z0 (Machine.wrSeqLock n w s) := by
  unfold Machine.wrSeqLock
  repeat' first
    | with_reducible assumption
    | with_reducible apply Keeps.ite
    | with_reducible apply Keeps.ite1
    | with_reducible apply Keeps.plainWrite
    | with_reducible apply Keeps.ret

theorem Keeps.wrSeqCal {z0 s : State} {n : Nat} {w : Word} (hz : Keeps z0 s)  : Keeps z0 (Machine.wrSeqCal n w s) := by
  unfold Machine.wrSeqCal
  repeat' first
    | with_reducible assumption
    | with_reducible apply Keeps.ite
    | with_reducible apply Keeps.ite1
    | with_reducible apply Keeps.plainWrite
    | with_reducible apply Keeps.ret

theorem Keeps.wrPathIqb {z0 s : State} {k : Nat} {w : Word} (hz : Keeps z0 s)  : Keeps z0 (Machine.wrPathIqb k w s) := by
  unfold Machine.wrPathIqb
  repeat' first
    | with_reducible assumption
    | with_reducible apply Keeps.ite
    | with_reducible apply Keeps.ite1
    | with_reducible apply Keeps.plainWrite
    | with_reducible apply Keeps.ret

theorem Keeps.resetFen {z0 s : State}  (hz : Keeps z0 s)  : Keeps z0 (Machine.resetFen s) := by
  unfold Machine.resetFen
  try lift_lets
  repeat' first
    | with_reducible assumption
    | (intro x; with_reducible refine Keeps.cut (o := z0) x ?_ ?_; dsimp only [x]; rotate_left; try clear_value x)
    | (intro x; try clear_value x)
    | with_reducible apply Keeps.forN
    | with_reducible apply Keeps.rfcShow
    | with_reducible apply Keeps.gatesClose
    | with_reducible apply Keeps.wr
    | with_reducible apply Keeps.dropRange
    | ((first | rw [patch_eq] | skip); (with_reducible refine Keeps.patch ?_ ?_ ?_); rotate_left; (first | exact CelKeeps.refl _ | exact ⟨fun _ h => h, Nat.le_refl _⟩ | exact ⟨fun _ h => h, Nat.le_succ _⟩); (refine fun g => ?_; first | exact g | simpa only [SizesOk, Machine.patch, upd_length] using g | (simp only [SizesOk, Machine.patch, upd_length, List.length_map, List.length_replicate, true_and] at g ⊢; tauto)))

theorem Keeps.seqWrite {s z : State} {q : Rq} {n : Nat} {op : Nat} {dur : Nat} (e : Machine.seqWrite q n op dur s = .next z) : Keeps s z := by
  have hz := Keeps.refl s
  revert e
  unfold Machine.seqWrite
  first
    | (intro e; injection e with e; subst e; (repeat' first
         | with_reducible assumption
         | (intro x; try clear_value x)
         | with_reducible apply Keeps.gated
         | with_reducible apply Keeps.wrSeqCmd
         ); done)

theorem Keeps.execSeqStandby {s z : State} {q : Rq} {n : Fin 4} (e : Machine.execSeqStandby q n s = .next z) : Keeps s z := by
  have hz := Keeps.refl s
  revert e
  unfold Machine.execSeqStandby
  first
    | exact fun e => Keeps.seqWrite e
    | (intro e; injection e with e; subst e; (repeat' first
         | with_reducible assumption
         | (intro x; with_reducible refine Keeps.cut (o := z0) x ?_ ?_; dsimp only [x]; rotate_left; try clear_value x)
         | (intro x; with_reducible refine Keeps.cut1 (o := z0) x ?_ ?_; dsimp only [x]; rotate_left; try clear_value x)
         | (intro x; with_reducible refine Keeps.cutF x ?_; try dsimp only [x])
         | (intro x; try clear_value x)
         | (fail_if_no_progress dsimp -zeta only)
         | split
         ); done)

theorem Keeps.execSeqRx {s z : State} {q : Rq} {n : Fin 4} (e : Machine.execSeqRx q n s = .next z) : Keeps s z := by
  have hz := Keeps.refl s
  revert e
  unfold Machine.execSeqRx
  first
    | exact fun e => Keeps.seqWrite e
    | (intro e; injection e with e; subst e; (repeat' first
         | with_reducible assumption
         | (intro x; with_reducible refine Keeps.cut (o := z0) x ?_ ?_; dsimp only [x]; rotate_left; try clear_value x)
         | (intro x; with_reducible refine Keeps.cut1 (o := z0) x ?_ ?_; dsimp only [x]; rotate_left; try clear_value x)
         | (intro x; with_reducible refine Keeps.cutF x ?_; try dsimp only [x])
         | (intro x; try clear_value x)
         | (fail_if_no_progress dsimp -zeta only)
         | split
         ); done)

theorem Keeps.execSeqTx {s z : State} {q : Rq} {n : Fin 4} {dur : BitVec 16} (e : Machine.execSeqTx q n dur s = .next z) : Keeps s z := by
  have hz := Keeps.refl s
  revert e
  unfold Machine.execSeqTx
  first
    | exact fun e => Keeps.seqWrite e
    | (intro e; injection e with e; subst e; (repeat' first
         | with_reducible assumption
         | (intro x; with_reducible refine Keeps.cut (o := z0) x ?_ ?_; dsimp only [x]; rotate_left; try clear_value x)
         | (intro x; with_reducible refine Keeps.cut1 (o := z0) x ?_ ?_; dsimp only [x]; rotate_left; try clear_value x)
         | (intro x; with_reducible refine Keeps.cutF x ?_; try dsimp only [x])
         | (intro x; try clear_value x)
         | (fail_if_no_progress dsimp -zeta only)
         | split
         ); done)

theorem Keeps.execSeqSettle {s z : State} {q : Rq} {n : Fin 4} (e : Machine.execSeqSettle q n s = .next z) : Keeps s z := by
  have hz := Keeps.refl s
  revert e
  unfold Machine.execSeqSettle
  first
    | exact fun e => Keeps.seqWrite e
    | (intro e; injection e with e; subst e; (repeat' first
         | with_reducible assumption
         | (intro x; with_reducible refine Keeps.cut (o := z0) x ?_ ?_; dsimp only [x]; rotate_left; try clear_value x)
         | (intro x; with_reducible refine Keeps.cut1 (o := z0) x ?_ ?_; dsimp only [x]; rotate_left; try clear_value x)
         | (intro x; with_reducible refine Keeps.cutF x ?_; try dsimp only [x])
         | (intro x; try clear_value x)
         | (fail_if_no_progress dsimp -zeta only)
         | split
         ); done)

theorem Keeps.execSeqCal {s z : State} {q : Rq} {n : Fin 4} (e : Machine.execSeqCal q n s = .next z) : Keeps s z := by
  have hz := Keeps.refl s
  revert e
  unfold Machine.execSeqCal
  first
    | exact fun e => Keeps.seqWrite e
    | (intro e; injection e with e; subst e; (repeat' first
         | with_reducible assumption
         | (intro x; with_reducible refine Keeps.cut (o := z0) x ?_ ?_; dsimp only [x]; rotate_left; try clear_value x)
         | (intro x; with_reducible refine Keeps.cut1 (o := z0) x ?_ ?_; dsimp only [x]; rotate_left; try clear_value x)
         | (intro x; with_reducible refine Keeps.cutF x ?_; try dsimp only [x])
         | (intro x; try clear_value x)
         | (fail_if_no_progress dsimp -zeta only)
         | split
         ); done)

theorem Keeps.execSeqOff {s z : State} {q : Rq} {n : Fin 4} (e : Machine.execSeqOff q n s = .next z) : Keeps s z := by
  have hz := Keeps.refl s
  revert e
  unfold Machine.execSeqOff
  first
    | exact fun e => Keeps.seqWrite e
    | (intro e; injection e with e; subst e; (repeat' first
         | with_reducible assumption
         | (intro x; with_reducible refine Keeps.cut (o := z0) x ?_ ?_; dsimp only [x]; rotate_left; try clear_value x)
         | (intro x; with_reducible refine Keeps.cut1 (o := z0) x ?_ ?_; dsimp only [x]; rotate_left; try clear_value x)
         | (intro x; with_reducible refine Keeps.cutF x ?_; try dsimp only [x])
         | (intro x; try clear_value x)
         | (fail_if_no_progress dsimp -zeta only)
         | split
         ); done)

theorem Keeps.execSeqTxDurExpire {s z : State} {n : Fin 4} (e : Machine.execSeqTxDurExpire n s = .next z) : Keeps s z := by
  have hz := Keeps.refl s
  revert e
  unfold Machine.execSeqTxDurExpire
  first
    | (intro e; injection e with e; subst e; (repeat' first
         | with_reducible assumption
         | with_reducible apply Keeps.txDurExpire
         ); done)

theorem Keeps.execFeLockQualify {s z : State} {n : Fin 4} {i : Fin 4} (e : Machine.execFeLockQualify n i s = .next z) : Keeps s z := by
  have hz := Keeps.refl s
  revert e
  unfold Machine.execFeLockQualify
  first
    | (intro e; injection e with e; subst e; (repeat' first
         | with_reducible assumption
         | with_reducible apply Keeps.lockQualify
         ); done)

theorem Keeps.execFeLockFall {s z : State} {i : Fin 4} (e : Machine.execFeLockFall i s = .next z) : Keeps s z := by
  have hz := Keeps.refl s
  revert e
  unfold Machine.execFeLockFall
  first
    | (intro e; injection e with e; subst e; (repeat' first
         | with_reducible assumption
         | with_reducible apply Keeps.lockFall
         ); done)

theorem Keeps.execHeldTxEnter {s z : State} {n : Fin 4} (e : Machine.execHeldTxEnter n s = .next z) : Keeps s z := by
  have hz := Keeps.refl s
  revert e
  unfold Machine.execHeldTxEnter
  first
    | (intro e; injection e with e; subst e; (repeat' first
         | with_reducible assumption
         | with_reducible apply Keeps.heldTxEnter
         ); done)

theorem Keeps.execTxHoldExpire {s z : State} {n : Fin 4} (e : Machine.execTxHoldExpire n s = .next z) : Keeps s z := by
  have hz := Keeps.refl s
  revert e
  unfold Machine.execTxHoldExpire
  first
    | (intro e; injection e with e; subst e; (repeat' first
         | with_reducible assumption
         | with_reducible apply Keeps.txHoldExpire
         ); done)

theorem Keeps.execSettleDone {s z : State} {n : Fin 4} (e : Machine.execSettleDone n s = .next z) : Keeps s z := by
  have hz := Keeps.refl s
  revert e
  unfold Machine.execSettleDone
  first
    | (intro e; injection e with e; subst e; (repeat' first
         | with_reducible assumption
         | with_reducible apply Keeps.settleDone
         ); done)

theorem Keeps.execSettleTimeout {s z : State} {n : Fin 4} (e : Machine.execSettleTimeout n s = .next z) : Keeps s z := by
  have hz := Keeps.refl s
  revert e
  unfold Machine.execSettleTimeout
  first
    | (intro e; injection e with e; subst e; (repeat' first
         | with_reducible assumption
         | with_reducible apply Keeps.settleTimeout
         ); done)

theorem Keeps.execCalPassEnd {s z : State} {n : Fin 4} (e : Machine.execCalPassEnd n s = .next z) : Keeps s z := by
  have hz := Keeps.refl s
  revert e
  unfold Machine.execCalPassEnd
  first
    | (intro e; injection e with e; subst e; (repeat' first
         | with_reducible assumption
         | (intro x; with_reducible refine Keeps.cut (o := z0) x ?_ ?_; dsimp only [x]; rotate_left; try clear_value x)
         | (intro x; with_reducible refine Keeps.cut1 (o := z0) x ?_ ?_; dsimp only [x]; rotate_left; try clear_value x)
         | (intro x; with_reducible refine Keeps.cutF x ?_; try dsimp only [x])
         | (intro x; try clear_value x)
         | with_reducible apply Keeps.calPassEnd
         | (fail_if_no_progress dsimp -zeta only)
         | split
         ); done)

theorem Keeps.execBurstTxEnter {s z : State} {n : Fin 4} {sym : Nat} (e : Machine.execBurstTxEnter n sym s = .next z) : Keeps s z := by
  have hz := Keeps.refl s
  revert e
  unfold Machine.execBurstTxEnter
  first
    | (intro e; injection e with e; subst e; (repeat' first
         | with_reducible assumption
         | with_reducible apply Keeps.burstTxEnter
         ); done)

theorem Keeps.execBurstRxEnter {s z : State} {n : Fin 4} {sym : Nat} (e : Machine.execBurstRxEnter n sym s = .next z) : Keeps s z := by
  have hz := Keeps.refl s
  revert e
  unfold Machine.execBurstRxEnter
  first
    | (intro e; injection e with e; subst e; (repeat' first
         | with_reducible assumption
         | with_reducible apply Keeps.burstRxEnter
         ); done)

theorem Keeps.execBurstLeave {s z : State} {n : Fin 4} (e : Machine.execBurstLeave n s = .next z) : Keeps s z := by
  have hz := Keeps.refl s
  revert e
  unfold Machine.execBurstLeave
  first
    | (intro e; injection e with e; subst e; (repeat' first
         | with_reducible assumption
         | with_reducible apply Keeps.burstLeave
         ); done)

theorem Keeps.execTddGateEdge {s z : State} {k : Fin 128} {opens : Bool} (e : Machine.execTddGateEdge k opens s = .next z) : Keeps s z := by
  have hz := Keeps.refl s
  revert e
  unfold Machine.execTddGateEdge
  first
    | (intro e; injection e with e; subst e; (repeat' first
         | with_reducible assumption
         | with_reducible apply Keeps.gateEdge
         ); done)

theorem Keeps.execSpiGo {s z : State} {q : Rq} {m : Fin 4} (e : Machine.execSpiGo q m s = .next z) : Keeps s z := by
  have hz := Keeps.refl s
  revert e
  unfold Machine.execSpiGo
  first
    | (intro e; injection e with e; subst e; (repeat' first
         | with_reducible assumption
         | (intro x; try clear_value x)
         | with_reducible apply Keeps.gated
         | with_reducible apply Keeps.wrSpiCmd
         ); done)

theorem Keeps.execSpiTransferEnd {s z : State} {m : Fin 4} {rx : List Word} (e : Machine.execSpiTransferEnd m rx s = .next z) : Keeps s z := by
  have hz := Keeps.refl s
  revert e
  unfold Machine.execSpiTransferEnd
  first
    | (intro e; injection e with e; subst e; (repeat' first
         | with_reducible assumption
         | with_reducible apply Keeps.spiEnd
         ); done)

theorem Keeps.execRfcOwnWrite {s z : State} {q : Rq} {high : Bool} {w : Word} (e : Machine.execRfcOwnWrite q high w s = .next z) : Keeps s z := by
  have hz := Keeps.refl s
  revert e
  unfold Machine.execRfcOwnWrite
  first
    | (intro e; injection e with e; subst e; (repeat' first
         | with_reducible assumption
         | (intro x; try clear_value x)
         | with_reducible apply Keeps.ite
         | with_reducible apply Keeps.ite1
         | with_reducible apply Keeps.gated
         | with_reducible apply Keeps.wrRfcOwn
         ); done)

theorem Keeps.execCoexCtrlWrite {s z : State} {q : Rq} {w : Word} (e : Machine.execCoexCtrlWrite q w s = .next z) : Keeps s z := by
  have hz := Keeps.refl s
  revert e
  unfold Machine.execCoexCtrlWrite
  first
    | (intro e; injection e with e; subst e; (repeat' first
         | with_reducible assumption
         | (intro x; try clear_value x)
         | with_reducible apply Keeps.gated
         | with_reducible apply Keeps.wrCoexCtrl
         ); done)

theorem Keeps.execCoexReqAssert {s z : State} {n : Fin 4} (e : Machine.execCoexReqAssert n s = .next z) : Keeps s z := by
  have hz := Keeps.refl s
  revert e
  unfold Machine.execCoexReqAssert
  first
    | (intro e; injection e with e; subst e; (repeat' first
         | with_reducible assumption
         | with_reducible apply Keeps.coexReqAssert
         ); done)

theorem Keeps.execCoexGrantAssert {s z : State}  (e : Machine.execCoexGrantAssert s = .next z) : Keeps s z := by
  have hz := Keeps.refl s
  revert e
  unfold Machine.execCoexGrantAssert
  first
    | (intro e; injection e with e; subst e; (repeat' first
         | with_reducible assumption
         | with_reducible apply Keeps.grantAssert
         ); done)

theorem Keeps.execCoexGrantDeassert {s z : State}  (e : Machine.execCoexGrantDeassert s = .next z) : Keeps s z := by
  have hz := Keeps.refl s
  revert e
  unfold Machine.execCoexGrantDeassert
  first
    | (intro e; injection e with e; subst e; (repeat' first
         | with_reducible assumption
         | with_reducible apply Keeps.grantDeassert
         ); done)

theorem Keeps.execCoexGrantGlitch {s z : State}  (e : Machine.execCoexGrantGlitch s = .next z) : Keeps s z := by
  have hz := Keeps.refl s
  revert e
  unfold Machine.execCoexGrantGlitch
  first
    | (intro e; injection e with e; subst e; (repeat' first
         | with_reducible assumption
         | with_reducible apply Keeps.grantGlitch
         ); done)

theorem Keeps.execCoexGrantStuck {s z : State}  (e : Machine.execCoexGrantStuck s = .next z) : Keeps s z := by
  have hz := Keeps.refl s
  revert e
  unfold Machine.execCoexGrantStuck
  first
    | (intro e; injection e with e; subst e; (repeat' first
         | with_reducible assumption
         | with_reducible apply Keeps.grantStuck
         ); done)

theorem Keeps.execFenCoexCntRead {s z : State} {q : Rq} (e : Machine.execFenCoexCntRead q s = .next z) : Keeps s z := by
  have hz := Keeps.refl s
  revert e
  unfold Machine.execFenCoexCntRead
  first
    | (intro e; injection e with e; subst e; (repeat' first
         | with_reducible assumption
         | (intro x; try clear_value x)
         | with_reducible apply Keeps.gatedRead
         | with_reducible apply Keeps.clearRead
         ); done)

theorem Keeps.execFenSeqCntRead {s z : State} {q : Rq} {n : Fin 4} (e : Machine.execFenSeqCntRead q n s = .next z) : Keeps s z := by
  have hz := Keeps.refl s
  revert e
  unfold Machine.execFenSeqCntRead
  first
    | (intro e; injection e with e; subst e; (repeat' first
         | with_reducible assumption
         | (intro x; try clear_value x)
         | with_reducible apply Keeps.gatedRead
         | with_reducible apply Keeps.clearRead
         ); done)

end Sys2Proof.Machine
end

