-- ==== Sys2Proof/Laws/Merge.lean ====
section
/-! SUPPORT. The merge buffers stay in order under what the memories do with them. -/

namespace Sys2Proof.Machine

/-! ## Words of a unit -/

theorem le_word {k a : Nat} (h : k % 8 = 0) : k ≤ a / 8 * 8 ↔ k ≤ a := by omega
theorem word_lt {k a : Nat} (h : k % 8 = 0) : a / 8 * 8 < k ↔ a < k := by omega

theorem word_div {a b st : Nat} (hb : b % 8 = 0) (hs : st % 8 = 0) : (a / 8 * 8 - b) / st = (a - b) / st := by
  obtain ⟨c, rfl⟩ := Nat.dvd_of_mod_eq_zero hb
  obtain ⟨d, rfl⟩ := Nat.dvd_of_mod_eq_zero hs
  rw [← Nat.div_div_eq_div_mul, ← Nat.div_div_eq_div_mul]
  congr 1
  omega

theorem word_mod {a b st n : Nat} (hb : b % 8 = 0) (hs : st % 8 = 0) (hn : n % 8 = 0) :
    (a / 8 * 8 - b) % st < n ↔ (a - b) % st < n := by
  have h1 := Nat.mod_add_div (a / 8 * 8 - b) st
  have h2 := Nat.mod_add_div (a - b) st
  rw [word_div hb hs] at h1
  obtain ⟨d, rfl⟩ := Nat.dvd_of_mod_eq_zero hs
  have e : 8 * d * ((a - b) / (8 * d)) = 8 * (d * ((a - b) / (8 * d))) := by ring
  rw [e] at h1 h2
  omega

theorem region_word (a : Nat) : region (a / 8 * 8) = region a := by
  unfold region inWin
  repeat' refine if_congr ?_ ?_ ?_
  all_goals simp (disch := decide) only [le_word, word_lt, word_div, word_mod]

theorem unitOf_word (a : Nat) : unitOf (a / 8 * 8) = unitOf a := by
  unfold unitOf
  rw [region_word]

/-- The larder's saved words lie in the larder. -/
theorem unitOf_saved {i : Nat} (h : i < 4096) : unitOf (0x50002000 + 4 * i) = some 14 := by
  have : region (0x50002000 + 4 * i) = .larder := by
    unfold region inWin
    simp only [Bool.and_eq_true, decide_eq_true_eq]
    repeat' first
      | rw [if_pos (by omega)]
      | rw [if_neg (by omega)]
  unfold unitOf
  rw [this]

/-! ## Buffers -/

theorem BufferOk.sub {u : Nat} {l m : List Merge} (h : BufferOk u l) (s : m.Sublist l) : BufferOk u m :=
  ⟨s.length_le.trans h.1, h.2.1.sublist s, fun e he => h.2.2 e (s.subset he)⟩

theorem bufferOk_nil (u : Nat) : BufferOk u [] := ⟨by simp, List.Pairwise.nil, by simp⟩

@[simp] theorem mergeOk_empty : MergeOk (List.replicate 15 []) := by
  refine ⟨by simp, fun u => ?_⟩
  have : nth (List.replicate 15 ([] : List Merge)) u = [] := by
    simp only [nth, List.getD_eq_getElem?_getD, List.getElem?_replicate]
    split <;> rfl
  rw [this]
  exact bufferOk_nil u

theorem MergeOk.upd {m : List (List Merge)} (h : MergeOk m) (u : Nat) {l : List Merge} (hl : BufferOk u l) :
    MergeOk (upd m u fun _ => l) := by
  refine ⟨by simpa using h.1, fun v => ?_⟩
  rw [nth_upd]
  split
  · next e => exact e.1 ▸ hl
  · exact h.2 v

theorem joinBytes_length (l : List (Option Byte)) (o : Nat) (b : List Byte) : (joinBytes l o b).length = 8 := by simp [joinBytes]

/-- The bytes and the stores of one entry change. -/
theorem BufferOk.map {u : Nat} {l : List Merge} (h : BufferOk u l) {f : Merge → Merge} (ha : ∀ e, (f e).a = e.a)
    (hb : ∀ e, e.bytes.length = 8 → (f e).bytes.length = 8) : BufferOk u (l.map f) := by
  refine ⟨by simpa using h.1, ?_, ?_⟩
  · refine List.pairwise_map.2 (h.2.1.imp fun {x y} e => ?_)
    rwa [ha, ha]
  · intro e he
    obtain ⟨x, hx, rfl⟩ := List.mem_map.1 he
    obtain ⟨a, b, c⟩ := h.2.2 x hx
    exact ⟨by rw [ha]; exact a, by rw [ha]; exact b, hb x c⟩

/-- An entry for another word is added where one is free. -/
theorem BufferOk.add {u : Nat} {l : List Merge} (h : BufferOk u l) {e : Merge} (he : EntryOk u e) (hl : l.length < 8)
    (hn : ∀ x ∈ l, x.a ≠ e.a) : BufferOk u (l ++ [e]) := by
  refine ⟨by simp; omega, ?_, ?_⟩
  · rw [List.pairwise_append]
    exact ⟨h.2.1, List.pairwise_singleton _ _, fun x hx y hy => by rw [List.mem_singleton.1 hy]; exact hn x hx⟩
  · intro x hx
    rcases List.mem_append.1 hx with hx | hx
    · exact h.2.2 x hx
    · rw [List.mem_singleton.1 hx]; exact he

/-- What every entry of every buffer holds beside its word and its bytes changes. -/
theorem MergeOk.map {m : List (List Merge)} (h : MergeOk m) {f : Merge → Merge} (ha : ∀ e, (f e).a = e.a)
    (hb : ∀ e, e.bytes.length = 8 → (f e).bytes.length = 8) : MergeOk (m.map fun l => l.map f) := by
  refine ⟨by simpa using h.1, fun u => ?_⟩
  have : nth (m.map fun l => l.map f) u = (nth m u).map f := by
    simp only [nth, List.getD_eq_getElem?_getD, List.getElem?_map]
    cases m[u]? <;> rfl
  rw [this]
  exact (h.2 u).map ha hb

/-! ## What a retirement leaves of the buffers -/

theorem merge_pmcCount (evt n : Nat) (m : Option Nat) (o : Occ) (s : State) : (pmcCount evt n m o s).merge = s.merge :=
  (Quiet.pmcCount (Quiet.refl s)).merge

theorem merge_flagLimited (f : Fd) (e gap : Nat) (s : State) : (s.flagLimited f e gap).merge = s.merge := by
  unfold State.flagLimited
  extract_lets u
  have h : u.merge = s.merge := set_merge s f 1
  clear_value u
  split
  · exact Eq.trans (b := (u.raise e).merge) rfl ((raise_merge u e).trans h)
  · exact h

theorem merge_eccCorrected (u : Nat) (q : Rq) (a : Nat) (s : State) : (eccCorrected u q a s).merge = s.merge := by
  unfold eccCorrected
  extract_lets v
  have h : v.merge = s.merge := (set_merge ..).trans (addSat_merge ..)
  clear_value v
  exact (merge_pmcCount ..).trans ((merge_flagLimited ..).trans h)

theorem merge_eccRecord (u slot a : Nat) (s : State) : (eccRecord u slot a s).merge = s.merge := by
  unfold eccRecord
  split
  · exact (set_merge ..).trans (addSat_merge ..)
  · exact (wr_merge ..).trans (wr_merge ..)

theorem merge_mergeDone (who : List (Nat × Nat)) (c : Code) (b : Bool) (s : State) : (mergeDone who c b s).merge = s.merge := by
  induction who generalizing s with
  | nil => rfl
  | cons w t ih => exact ih (postedCode w.1 w.2 c b s)

theorem merge_putBytes (l : List Byte) (a : Nat) (s : State) : (s.putBytes a l).merge = s.merge := by
  induction l generalizing a s with
  | nil => rfl
  | cons b t ih => exact ih (a + 1) { s with mem := memPut s.mem a b }

theorem merge_eccWritten (a : Nat) (s : State) : (eccWritten a s).merge = s.merge := by
  unfold eccWritten
  split
  · exact set_merge s MEM_INJ_CTRL_arm 0
  · rfl

theorem merge_mergeRetire (u : Nat) (e : Merge) (b : Bool) (s : State) : (mergeRetire u e b s).1.merge = s.merge := by
  unfold mergeRetire
  extract_lets full s1 s2 s3 s4
  have h1 : s1.merge = s.merge := by
    show (if full = true then s else pmcCount 9 1 (rqMst e.q) { lvl := rqLvl e.q, addr := some e.a } s).merge = s.merge
    split
    · rfl
    · exact merge_pmcCount ..
  split
  · have h2 : s2.merge = s1.merge := merge_eccRecord ..
    clear_value s2
    have h3 : s3.merge = s2.merge := by
      show (if (e.who.any fun w => decide (w.1 = 12)) = true then s2.raise 5 else s2).merge = s2.merge
      split
      · exact raise_merge ..
      · rfl
    clear_value s3
    exact (merge_mergeDone e.who .ecc b s3).trans (h3.trans (h2.trans h1))
  · have h2 : s4.merge = s1.merge := by
      show (if (!full) = true ∧ s1.eccAt e.a = 1 then eccCorrected u e.q e.a s1 else s1).merge = s1.merge
      split
      · exact merge_eccCorrected ..
      · rfl
    clear_value s4
    exact (merge_mergeDone e.who .done b _).trans ((merge_eccWritten ..).trans ((merge_putBytes ..).trans (h2.trans h1)))

end Sys2Proof.Machine
end

