-- ==== Sys2Proof/Laws/KeepMem.lean ====
section
/-! SUPPORT. What the operations of Mem.lean keep. -/

set_option linter.all false

namespace Sys2Proof.Machine

theorem Keeps.putBytes {o : State} (l : List Byte) {a : Nat} {s : State} (h : Keeps o s) : Keeps o (s.putBytes a l) := by
  induction l generalizing a s with
  | nil => exact h
  | cons b t ih => exact ih (Keeps.mem h fun g => Memory.wf_put g a b)

theorem Keeps.eccWritten {o s : State} {a : Nat} (h : Keeps o s) : Keeps o (Machine.eccWritten a s) := by
  unfold Machine.eccWritten
  refine Keeps.ite (Keeps.ecc h.set fun g => ?_) (Keeps.ecc h fun g => g.erase a)
  exact g.insert a (by split <;> simp)

theorem Keeps.eccCorrected {z0 s : State} {u : Nat} {q : Rq} {a : Nat} (hz : Keeps z0 s)  : Keeps z0 (Machine.eccCorrected u q a s) := by
  unfold Machine.eccCorrected
  try lift_lets
  repeat' first
    | with_reducible assumption
    | (intro x; with_reducible refine Keeps.cut (o := z0) x ?_ ?_; dsimp only [x]; rotate_left; try clear_value x)
    | (intro x; with_reducible refine Keeps.cut1 (o := z0) x ?_ ?_; dsimp only [x]; rotate_left; try clear_value x)
    | (intro x; with_reducible refine Keeps.cutF x ?_; try dsimp only [x])
    | (intro x; try clear_value x)
    | with_reducible apply Keeps.pmcCount
    | with_reducible apply Keeps.flagLimited
    | with_reducible apply Keeps.set
    | with_reducible apply Keeps.addSat
    | (fail_if_no_progress dsimp -zeta only)
    | split

theorem Keeps.eccRecord {z0 s : State} {u : Nat} {slot : Nat} {a : Nat} (hz : Keeps z0 s)  : Keeps z0 (Machine.eccRecord u slot a s) := by
  unfold Machine.eccRecord
  repeat' first
    | with_reducible assumption
    | with_reducible apply Keeps.ite
    | with_reducible apply Keeps.ite1
    | with_reducible apply Keeps.wr
    | with_reducible apply Keeps.set
    | with_reducible apply Keeps.addSat

theorem Keeps.ueEvt {z0 s : State}  (hz : Keeps z0 s)  : Keeps z0 (Machine.ueEvt s) := by
  unfold Machine.ueEvt
  repeat' first
    | with_reducible assumption
    | with_reducible apply Keeps.flagLimited

theorem Keeps.eccMet {z0 s : State} {u : Nat} {q : Rq} {a : Nat} (hz : Keeps z0 s)  : Keeps z0 (Machine.eccMet u q a s) := by
  unfold Machine.eccMet
  repeat' first
    | with_reducible assumption
    | with_reducible apply Keeps.ite
    | with_reducible apply Keeps.ite1
    | with_reducible apply Keeps.raise
    | with_reducible apply Keeps.eccRecord
    | with_reducible apply Keeps.ueEvt
    | (fail_if_no_progress dsimp -zeta only)
    | split

theorem Keeps.postedCode {z0 s : State} {c : Nat} {a : Nat} {code : Code} {stale : Bool} (hz : Keeps z0 s)  : Keeps z0 (Machine.postedCode c a code stale s) := by
  unfold Machine.postedCode
  try lift_lets
  repeat' first
    | (refine fun (k : Cpu) (hk : CpuOk k) => (?_ : CpuOk _); first | exact hk | (simp only [CpuOk, upd_length] at *; simpa using hk) | (split <;> first | exact hk | (simp only [CpuOk, upd_length] at *; simpa using hk)))
    | exact CelKeeps.refl _
    | exact ⟨fun _ h => h, Nat.le_refl _⟩
    | exact ⟨fun _ h => h, Nat.le_succ _⟩
    | with_reducible assumption
    | (intro x; with_reducible refine Keeps.cut (o := z0) x ?_ ?_; dsimp only [x]; rotate_left; try clear_value x)
    | (intro x; with_reducible refine Keeps.cut1 (o := z0) x ?_ ?_; dsimp only [x]; rotate_left; try clear_value x)
    | (intro x; with_reducible refine Keeps.cutF x ?_; try dsimp only [x])
    | (intro x; try clear_value x)
    | with_reducible apply Keeps.ite
    | with_reducible apply Keeps.ite1
    | with_reducible apply Keeps.updCpu
    | ((first | rw [patch_eq] | skip); (with_reducible refine Keeps.patch ?_ ?_ ?_); rotate_left; (first | exact CelKeeps.refl _ | exact ⟨fun _ h => h, Nat.le_refl _⟩ | exact ⟨fun _ h => h, Nat.le_succ _⟩); (refine fun g => ?_; first | exact g | simpa only [SizesOk, Machine.patch, upd_length] using g | (simp only [SizesOk, Machine.patch, upd_length, List.length_map, List.length_replicate, true_and] at g ⊢; tauto)))
    | (fail_if_no_progress dsimp -zeta only)
    | split

theorem Keeps.mergeDone {z0 s : State} {who : List (Nat × Nat)} {code : Code} {stale : Bool} (hz : Keeps z0 s)  : Keeps z0 (Machine.mergeDone who code stale s) := by
  unfold Machine.mergeDone
  repeat' first
    | with_reducible assumption
    | (intro x; with_reducible refine Keeps.cut (o := z0) x ?_ ?_; dsimp only [x]; rotate_left; try clear_value x)
    | (intro x; with_reducible refine Keeps.cut1 (o := z0) x ?_ ?_; dsimp only [x]; rotate_left; try clear_value x)
    | (intro x; with_reducible refine Keeps.cut2 (o := z0) x ?_ ?_; dsimp only [x]; rotate_left; try clear_value x)
    | with_reducible apply Keeps.ite2
    | (intro x; with_reducible refine Keeps.cutF x ?_; try dsimp only [x])
    | (intro x; try clear_value x)
    | with_reducible apply Keeps.foldl
    | with_reducible apply Keeps.foldl1
    | with_reducible apply Keeps.postedCode
    | (fail_if_no_progress dsimp -zeta only)
    | split

theorem Keeps.mergeRetire {z0 s : State} {u : Nat} {e : Merge} {stale : Bool} (hz : Keeps z0 s)  : Keeps z0 (Machine.mergeRetire u e stale s).1 := by
  unfold Machine.mergeRetire
  try lift_lets
  repeat' first
    | with_reducible assumption
    | (intro x; with_reducible refine Keeps.cut (o := z0) x ?_ ?_; dsimp only [x]; rotate_left; try clear_value x)
    | (intro x; with_reducible refine Keeps.cut1 (o := z0) x ?_ ?_; dsimp only [x]; rotate_left; try clear_value x)
    | (intro x; with_reducible refine Keeps.cutF x ?_; try dsimp only [x])
    | (intro x; try clear_value x)
    | with_reducible apply Keeps.ite
    | with_reducible apply Keeps.ite1
    | with_reducible apply Keeps.raise
    | with_reducible apply Keeps.pmcCount
    | with_reducible apply Keeps.putBytes
    | with_reducible apply Keeps.eccWritten
    | with_reducible apply Keeps.eccCorrected
    | with_reducible apply Keeps.eccRecord
    | with_reducible apply Keeps.mergeDone
    | (fail_if_no_progress dsimp -zeta only)
    | split

theorem Keeps.merge {z0 s : State} (hz : Keeps z0 s) (h : Inv z0) : MergeOk s.merge := (hz.1 h).2.2.2.1.2.2.2.2.2.2.2.2.2.2.2.2.1

theorem Keeps.setMerge {z0 s : State} {u : Nat} {l : List Merge} (hz : Keeps z0 s) (hl : Inv z0 → BufferOk u l) :
    Keeps z0 (Machine.setMerge u l s) := by
  refine ⟨fun i => ?_, hz.2⟩
  obtain ⟨a, b, c, d, e⟩ := hz.1 i
  refine ⟨a, b, c, ?_, e⟩
  have := (hz.merge i).upd u (hl i)
  simp only [SizesOk, Machine.setMerge] at d ⊢
  tauto

theorem Keeps.retireWith {z0 s : State} {u : Nat} {stale : Bool} {p : Merge → Bool} (hz : Keeps z0 s) : Keeps z0 (Machine.retireWith u stale p s).1 := by
  unfold Machine.retireWith
  exact Keeps.foldl1 (Keeps.setMerge hz fun i => ((hz.merge i).2 u).sub List.filter_sublist) fun x e h => Keeps.mergeRetire h

theorem Keeps.retireIf {z0 s : State} {u : Nat} {p : Merge → Bool} (hz : Keeps z0 s)  : Keeps z0 (Machine.retireIf u p s).1 := by
  unfold Machine.retireIf
  exact Keeps.foldl1 (Keeps.setMerge hz fun i => ((hz.merge i).2 u).sub List.filter_sublist) fun x e h => Keeps.mergeRetire h

theorem Keeps.retireWord {z0 s : State} {u : Nat} {a : Nat} (hz : Keeps z0 s)  : Keeps z0 (Machine.retireWord u a s) := by
  unfold Machine.retireWord
  repeat' first
    | with_reducible assumption
    | with_reducible apply Keeps.retireIf

theorem Keeps.retireRange {z0 s : State} {lo hi : Nat} (hz : Keeps z0 s)  : Keeps z0 (Machine.retireRange lo hi s) := by
  unfold Machine.retireRange
  repeat' first
    | with_reducible assumption
    | (intro x; try clear_value x)
    | with_reducible apply Keeps.forN
    | with_reducible apply Keeps.retireIf

theorem Keeps.write8 {z0 s : State} {u : Nat} {a : Nat} {bytes : List Byte} (hz : Keeps z0 s)  : Keeps z0 (Machine.write8 u a bytes s) := by
  unfold Machine.write8
  exact Keeps.eccWritten (Keeps.putBytes _ (Keeps.foldl (Keeps.setMerge hz fun i => ((hz.merge i).2 u).sub List.filter_sublist)
    fun x e h => Keeps.mergeDone h))

/-- The entry of a narrow write. -/
theorem entryOk_new {u a : Nat} (hu : unitOf a = some u) (l : List (Option Byte)) (o : Nat) (b : List Byte) (who : List (Nat × Nat))
    (q : Rq) : EntryOk u { a := a / 8 * 8, bytes := joinBytes l o b, who := who, q := q } :=
  ⟨(unitOf_word a).trans hu, Nat.mul_mod_left _ 8, joinBytes_length _ _ _⟩

theorem Keeps.writeNarrow {z0 s : State} {u : Nat} {q : Rq} {a : Nat} {bytes : List Byte} {who : List (Nat × Nat)} (hz : Keeps z0 s)
    (hu : unitOf a = some u) : Keeps z0 (Machine.writeNarrow u q a bytes who s) := by
  unfold Machine.writeNarrow
  dsimp only
  split
  · refine Keeps.setMerge hz fun i => ((hz.merge i).2 u).map (fun e => ?_) fun e he => ?_
    · split <;> rfl
    · split
      · exact joinBytes_length _ _ _
      · exact he
  · next hn =>
    have hn : ∀ x ∈ mergeOf u s, x.a ≠ a / 8 * 8 := by simpa using hn
    split
    · next h8 =>
      cases hm : mergeOf u s with
      | nil => simp [hm] at h8
      | cons e t =>
        have hb : Inv z0 → BufferOk u (e :: t) := fun i => hm ▸ (hz.merge i).2 u
        have hl : mergeOf u (Machine.mergeRetire u e false (Machine.setMerge u t s)).1 = t := by
          have hlt : u < s.merge.length := by
            by_contra hlt
            have : mergeOf u s = [] := by
              simp only [mergeOf, nth, List.getD_eq_getElem?_getD]
              rw [List.getElem?_eq_none (by omega)]
              rfl
            rw [this] at hm; cases hm
          simp only [mergeOf, merge_mergeRetire]
          simp only [Machine.setMerge, nth_upd]
          simp [hlt]
        refine Keeps.setMerge (Keeps.mergeRetire (Keeps.setMerge hz fun i => (hb i).sub (List.sublist_cons_self e t))) fun i => ?_
        rw [hl]
        refine ((hb i).sub (List.sublist_cons_self e t)).add (entryOk_new hu _ _ _ _ _) ?_ fun x hx => hn x (by rw [hm]; exact List.mem_cons_of_mem _ hx)
        have := (hb i).1
        simp only [List.length_cons] at this
        omega
    · next h8 => exact Keeps.setMerge hz fun i => ((hz.merge i).2 u).add (entryOk_new hu _ _ _ _ _) (by simpa [mergeOf] using h8) hn

theorem Keeps.putFree {z0 s : State} {a : Nat} {n : Nat} (hz : Keeps z0 s)  : Keeps z0 (Machine.putFree a n s) := by
  unfold Machine.putFree
  repeat' first
    | with_reducible assumption
    | with_reducible apply Keeps.putBytes
    | ((first | rw [patch_eq] | skip); (with_reducible refine Keeps.patch ?_ ?_ ?_); rotate_left; (first | exact CelKeeps.refl _ | exact ⟨fun _ h => h, Nat.le_refl _⟩ | exact ⟨fun _ h => h, Nat.le_succ _⟩); (refine fun g => ?_; first | exact g | simpa only [SizesOk, Machine.patch, upd_length] using g | (simp only [SizesOk, Machine.patch, upd_length, List.length_map, List.length_replicate, true_and] at g ⊢; tauto)))

theorem Keeps.memWrite {z0 s : State} {u : Nat} {q : Rq} {a : Nat} {bytes : List Byte} (hz : Keeps z0 s)
    (hu : bytes.length < 8 → unitOf a = some u) : Keeps z0 (Machine.memWrite u q a bytes s).1 := by
  unfold Machine.memWrite
  split
  · exact Keeps.forN hz fun i s h => Keeps.write8 h
  · next h8 =>
    have hu := hu (by omega)
    split
    · exact Keeps.writeNarrow hz hu
    · exact Keeps.ite (Keeps.ueEvt (Keeps.retireIf (Keeps.writeNarrow hz hu))) (Keeps.retireIf (Keeps.writeNarrow hz hu))

theorem Keeps.readWord {z0 s : State} {u : Nat} {q : Rq} {a : Nat} (hz : Keeps z0 s)  : Keeps z0 (Machine.readWord u q a s).1 := by
  unfold Machine.readWord
  repeat' first
    | with_reducible assumption
    | (intro x; with_reducible refine Keeps.cut (o := z0) x ?_ ?_; dsimp only [x]; rotate_left; try clear_value x)
    | (intro x; with_reducible refine Keeps.cut1 (o := z0) x ?_ ?_; dsimp only [x]; rotate_left; try clear_value x)
    | (intro x; with_reducible refine Keeps.cutF x ?_; try dsimp only [x])
    | (intro x; try clear_value x)
    | with_reducible apply Keeps.eccCorrected
    | with_reducible apply Keeps.eccMet
    | with_reducible apply Keeps.retireWord
    | ((first | rw [patch_eq] | skip); (with_reducible refine Keeps.patch ?_ ?_ ?_); rotate_left; (first | exact CelKeeps.refl _ | exact ⟨fun _ h => h, Nat.le_refl _⟩ | exact ⟨fun _ h => h, Nat.le_succ _⟩); (refine fun g => ?_; first | exact g | simpa only [SizesOk, Machine.patch, upd_length] using g | (simp only [SizesOk, Machine.patch, upd_length, List.length_map, List.length_replicate, true_and] at g ⊢; tauto)))
    | (fail_if_no_progress dsimp -zeta only)
    | split
    | lift_lets

theorem Keeps.memRead {z0 s : State} {u : Nat} {q : Rq} {a : Nat} {n : Nat} (hz : Keeps z0 s)  : Keeps z0 (Machine.memRead u q a n s).1 := by
  unfold Machine.memRead
  try lift_lets
  repeat' first
    | with_reducible assumption
    | (intro x; with_reducible refine Keeps.cut1 (o := z0) x ?_ ?_; dsimp only [x]; rotate_left; try clear_value x)
    | with_reducible apply Keeps.ite2
    | (intro x; try clear_value x)
    | with_reducible apply Keeps.ite
    | with_reducible apply Keeps.ite1
    | with_reducible apply Keeps.foldl
    | with_reducible apply Keeps.foldl1
    | with_reducible apply Keeps.readWord

theorem Keeps.unitRead {z0 s : State} {lo : Nat} {n : Nat} (hz : Keeps z0 s)  : Keeps z0 (Machine.unitRead lo n s).1 := by
  unfold Machine.unitRead
  repeat' first
    | with_reducible assumption
    | (intro x; with_reducible refine Keeps.cut (o := z0) x ?_ ?_; dsimp only [x]; rotate_left; try clear_value x)
    | (intro x; with_reducible refine Keeps.cut1 (o := z0) x ?_ ?_; dsimp only [x]; rotate_left; try clear_value x)
    | (intro x; with_reducible refine Keeps.cut2 (o := z0) x ?_ ?_; dsimp only [x]; rotate_left; try clear_value x)
    | with_reducible apply Keeps.ite2
    | (intro x; with_reducible refine Keeps.cutF x ?_; try dsimp only [x])
    | (intro x; try clear_value x)
    | with_reducible apply Keeps.ite
    | with_reducible apply Keeps.ite1
    | with_reducible apply Keeps.foldl
    | with_reducible apply Keeps.foldl1
    | with_reducible apply Keeps.eccCorrected
    | with_reducible apply Keeps.eccMet
    | with_reducible apply Keeps.retireRange
    | ((first | rw [patch_eq] | skip); (with_reducible refine Keeps.patch ?_ ?_ ?_); rotate_left; (first | exact CelKeeps.refl _ | exact ⟨fun _ h => h, Nat.le_refl _⟩ | exact ⟨fun _ h => h, Nat.le_succ _⟩); (refine fun g => ?_; first | exact g | simpa only [SizesOk, Machine.patch, upd_length] using g | (simp only [SizesOk, Machine.patch, upd_length, List.length_map, List.length_replicate, true_and] at g ⊢; tauto)))
    | (fail_if_no_progress dsimp -zeta only)
    | split
    | lift_lets

theorem Keeps.drainCore {z0 s : State} {c : Nat} (hz : Keeps z0 s)  : Keeps z0 (Machine.drainCore c s) := by
  unfold Machine.drainCore
  repeat' first
    | with_reducible assumption
    | (intro x; try clear_value x)
    | with_reducible apply Keeps.forN
    | with_reducible apply Keeps.retireIf

theorem Keeps.mergeExpire {z0 s : State} {u : Nat} {i : Nat} (hz : Keeps z0 s)  : Keeps z0 (Machine.mergeExpire u i s) := by
  unfold Machine.mergeExpire
  split
  · exact Keeps.mergeRetire (Keeps.setMerge hz fun i => ((hz.merge i).2 u).sub (List.eraseIdx_sublist ..))
  · exact hz

theorem Keeps.fillDone {o s : State} (h : Keeps o s) : Keeps o (Machine.fillDone s) := by
  unfold Machine.fillDone
  refine Keeps.ite ?_ h
  have m := Keeps.ecc (l := []) (Keeps.mem (l := []) (h.set (f := MEM_FILL_STAT_done) (v := 1)) fun _ => by decide)
    fun _ => ⟨List.Pairwise.nil, fun e he => nomatch he⟩
  exact m.upd rfl rfl rfl rfl rfl (CelKeeps.refl _) rfl (fun g => by
    simp only [SizesOk, List.length_replicate, mergeOk_empty, true_and] at g ⊢; tauto)

theorem Keeps.scrubMove {z0 s : State} {u : Nat} {pos : Nat} {step : Nat} (hz : Keeps z0 s)  : Keeps z0 (Machine.scrubMove u pos step s) := by
  unfold Machine.scrubMove
  try lift_lets
  repeat' first
    | with_reducible assumption
    | (intro x; with_reducible refine Keeps.cut (o := z0) x ?_ ?_; dsimp only [x]; rotate_left; try clear_value x)
    | with_reducible apply Keeps.ite2
    | (intro x; try clear_value x)
    | with_reducible apply Keeps.ite
    | with_reducible apply Keeps.ite1
    | with_reducible apply Keeps.flagLimited
    | with_reducible apply Keeps.incMod
    | ((first | rw [patch_eq] | skip); (with_reducible refine Keeps.patch ?_ ?_ ?_); rotate_left; (first | exact CelKeeps.refl _ | exact ⟨fun _ h => h, Nat.le_refl _⟩ | exact ⟨fun _ h => h, Nat.le_succ _⟩); (refine fun g => ?_; first | exact g | simpa only [SizesOk, Machine.patch, upd_length] using g | (simp only [SizesOk, Machine.patch, upd_length, List.length_map, List.length_replicate, true_and] at g ⊢; tauto)))

theorem Keeps.scrubFix {z0 s : State} {u : Nat} {a : Nat} (hz : Keeps z0 s)  : Keeps z0 (Machine.scrubFix u a s) := by
  unfold Machine.scrubFix
  repeat' first
    | with_reducible assumption
    | (intro x; with_reducible refine Keeps.cut (o := z0) x ?_ ?_; dsimp only [x]; rotate_left; try clear_value x)
    | (intro x; with_reducible refine Keeps.cut1 (o := z0) x ?_ ?_; dsimp only [x]; rotate_left; try clear_value x)
    | (intro x; with_reducible refine Keeps.cutF x ?_; try dsimp only [x])
    | (intro x; try clear_value x)
    | with_reducible apply Keeps.ite
    | with_reducible apply Keeps.ite1
    | with_reducible apply Keeps.eccWritten
    | with_reducible apply Keeps.eccCorrected
    | ((first | rw [patch_eq] | skip); (with_reducible refine Keeps.patch ?_ ?_ ?_); rotate_left; (first | exact CelKeeps.refl _ | exact ⟨fun _ h => h, Nat.le_refl _⟩ | exact ⟨fun _ h => h, Nat.le_succ _⟩); (refine fun g => ?_; first | exact g | simpa only [SizesOk, Machine.patch, upd_length] using g | (simp only [SizesOk, Machine.patch, upd_length, List.length_map, List.length_replicate, true_and] at g ⊢; tauto)))
    | (fail_if_no_progress dsimp -zeta only)
    | split
    | lift_lets

theorem Keeps.scrubRead {z0 s : State} {u : Nat} (hz : Keeps z0 s)  : Keeps z0 (Machine.scrubRead u s) := by
  unfold Machine.scrubRead
  repeat' first
    | with_reducible assumption
    | with_reducible apply Keeps.ite
    | with_reducible apply Keeps.ite1
    | with_reducible apply Keeps.raise
    | with_reducible apply Keeps.eccRecord
    | with_reducible apply Keeps.ueEvt
    | with_reducible apply Keeps.retireWord
    | with_reducible apply Keeps.scrubMove
    | with_reducible apply Keeps.scrubFix
    | (fail_if_no_progress dsimp -zeta only)
    | split

theorem Keeps.arbGrant {z0 s : State} {p : Nat} {waiting : List (Nat × Nat)} (hz : Keeps z0 s)  : Keeps z0 (Machine.arbGrant p waiting s) := by
  unfold Machine.arbGrant
  repeat' first
    | with_reducible assumption
    | ((first | rw [patch_eq] | skip); (with_reducible refine Keeps.patch ?_ ?_ ?_); rotate_left; (first | exact CelKeeps.refl _ | exact ⟨fun _ h => h, Nat.le_refl _⟩ | exact ⟨fun _ h => h, Nat.le_succ _⟩); (refine fun g => ?_; first | exact g | simpa only [SizesOk, Machine.patch, upd_length] using g | (simp only [SizesOk, Machine.patch, upd_length, List.length_map, List.length_replicate, true_and] at g ⊢; tauto)))
    | (fail_if_no_progress dsimp -zeta only)
    | split

theorem Keeps.wrArbW {z0 s : State} {w : Word} (hz : Keeps z0 s)  : Keeps z0 (Machine.wrArbW w s) := by
  unfold Machine.wrArbW
  repeat' first
    | with_reducible assumption
    | with_reducible apply Keeps.ite
    | with_reducible apply Keeps.ite1
    | with_reducible apply Keeps.plainWrite
    | with_reducible apply Keeps.ret

theorem Keeps.wrInjCtrl {z0 s : State} {w : Word} (hz : Keeps z0 s)  : Keeps z0 (Machine.wrInjCtrl w s) := by
  unfold Machine.wrInjCtrl
  repeat' first
    | with_reducible assumption
    | with_reducible apply Keeps.ite
    | with_reducible apply Keeps.ite1
    | with_reducible apply Keeps.plainWrite
    | with_reducible apply Keeps.ret

theorem Keeps.wrScrub {z0 s : State} {u : Nat} {w : Word} (hz : Keeps z0 s)  : Keeps z0 (Machine.wrScrub u w s) := by
  unfold Machine.wrScrub
  repeat' first
    | with_reducible assumption
    | with_reducible apply Keeps.ite
    | with_reducible apply Keeps.ite1
    | with_reducible apply Keeps.plainWrite
    | with_reducible apply Keeps.ret

theorem Keeps.resetMem {z0 s : State}  (hz : Keeps z0 s)  : Keeps z0 (Machine.resetMem s) := by
  unfold Machine.resetMem
  try lift_lets
  repeat' first
    | with_reducible assumption
    | (intro x; with_reducible refine Keeps.cut (o := z0) x ?_ ?_; dsimp only [x]; rotate_left; try clear_value x)
    | (intro x; try clear_value x)
    | with_reducible apply Keeps.set
    | with_reducible apply Keeps.dropRange
    | ((first | rw [patch_eq] | skip); (with_reducible refine Keeps.patch ?_ ?_ ?_); rotate_left; (first | exact CelKeeps.refl _ | exact ⟨fun _ h => h, Nat.le_refl _⟩ | exact ⟨fun _ h => h, Nat.le_succ _⟩); (refine fun g => ?_; first | exact g | simpa only [SizesOk, Machine.patch, upd_length] using g | (simp only [SizesOk, Machine.patch, upd_length, List.length_map, List.length_replicate, true_and] at g ⊢; tauto)))

theorem Keeps.execMergeRetire {s z : State} {u : Fin 15} {i : Fin 8} (e : Machine.execMergeRetire u i s = .next z) : Keeps s z := by
  have hz := Keeps.refl s
  revert e
  unfold Machine.execMergeRetire
  first
    | (intro e; injection e with e; subst e; (repeat' first
         | with_reducible assumption
         | with_reducible apply Keeps.mergeExpire
         ); done)

theorem Keeps.execMemoryFillDone {s z : State}  (e : Machine.execMemoryFillDone s = .next z) : Keeps s z := by
  have hz := Keeps.refl s
  revert e
  unfold Machine.execMemoryFillDone
  first
    | (intro e; injection e with e; subst e; (repeat' first
         | with_reducible assumption
         | with_reducible apply Keeps.fillDone
         ); done)

theorem Keeps.execScrubRead {s z : State} {u : Fin 15} (e : Machine.execScrubRead u s = .next z) : Keeps s z := by
  have hz := Keeps.refl s
  revert e
  unfold Machine.execScrubRead
  first
    | (intro e; injection e with e; subst e; (repeat' first
         | with_reducible assumption
         | with_reducible apply Keeps.scrubRead
         ); done)

theorem Keeps.execMemCorrRead {s z : State} {q : Rq} (e : Machine.execMemCorrRead q s = .next z) : Keeps s z := by
  have hz := Keeps.refl s
  revert e
  unfold Machine.execMemCorrRead
  first
    | (intro e; injection e with e; subst e; (repeat' first
         | with_reducible assumption
         | (intro x; try clear_value x)
         | with_reducible apply Keeps.gatedRead
         | with_reducible apply Keeps.clearRead
         ); done)

theorem Keeps.execArbGrant {s z : State} {p : Nat} {waiting : List (Nat × Nat)} (e : Machine.execArbGrant p waiting s = .next z) : Keeps s z := by
  have hz := Keeps.refl s
  revert e
  unfold Machine.execArbGrant
  first
    | (intro e; injection e with e; subst e; (repeat' first
         | with_reducible assumption
         | with_reducible apply Keeps.arbGrant
         ); done)

end Sys2Proof.Machine
end

