-- ==== Sys2Proof/Laws/KeepBstBase.lean ====
section
/-! SUPPORT. What the operations of BstBase.lean keep. -/

set_option linter.all false

namespace Sys2Proof.Machine

theorem Keeps.updBst {z0 s : State} {f : Bst → Bst} (hz : Keeps z0 s)  : Keeps z0 (Machine.updBst f s) := by
  unfold Machine.updBst
  exact Keeps.upd hz rfl rfl rfl rfl rfl (CelKeeps.refl _) rfl (fun g => by simp_all [SizesOk])

theorem Keeps.bstEvt {z0 s : State} {b : Nat} (hz : Keeps z0 s)  : Keeps z0 (Machine.bstEvt b s) := by
  unfold Machine.bstEvt
  repeat' first
    | with_reducible assumption
    | with_reducible apply Keeps.flag

theorem Keeps.ledger {z0 s : State} {kind : Nat} {u : Nat} {row : Nat} {res : Nat} {det : Nat} (hz : Keeps z0 s)  : Keeps z0 (Machine.ledger kind u row res det s) := by
  unfold Machine.ledger
  repeat' first
    | with_reducible assumption
    | with_reducible apply Keeps.ite
    | with_reducible apply Keeps.ite1
    | with_reducible apply Keeps.write8
    | with_reducible apply Keeps.addSat
    | with_reducible apply Keeps.incMod
    | (fail_if_no_progress dsimp -zeta only)
    | split

theorem Keeps.ledgerFree {z0 s : State} {kind : Nat} {u : Nat} {row : Nat} {res : Option Nat} {det : Option Nat} (hz : Keeps z0 s)  : Keeps z0 (Machine.ledgerFree kind u row res det s) := by
  unfold Machine.ledgerFree
  repeat' first
    | with_reducible assumption
    | with_reducible apply Keeps.ite2
    | with_reducible apply Keeps.ledger
    | with_reducible apply Keeps.freeNext
    | (fail_if_no_progress dsimp -zeta only)
    | split

theorem Keeps.lbRecord {z0 s : State} {o : Code} {res : Nat} {reason : Nat} (hz : Keeps z0 s)  : Keeps z0 (Machine.lbRecord o res reason s) := by
  unfold Machine.lbRecord
  repeat' first
    | with_reducible assumption
    | with_reducible apply Keeps.updBst
    | with_reducible apply Keeps.ledgerFree
    | with_reducible apply Keeps.set
    | (fail_if_no_progress dsimp -zeta only)
    | split

theorem Keeps.lbEnd {z0 s : State} {o : Code} {res : Nat} {reason : Nat} (hz : Keeps z0 s)  : Keeps z0 (Machine.lbEnd o res reason s) := by
  unfold Machine.lbEnd
  repeat' first
    | with_reducible assumption
    | with_reducible apply Keeps.ite
    | with_reducible apply Keeps.ite1
    | with_reducible apply Keeps.bstEvt
    | with_reducible apply Keeps.lbRecord

theorem Keeps.lbCoreStop {z0 s : State} {c : Nat} (hz : Keeps z0 s)  : Keeps z0 (Machine.lbCoreStop c s) := by
  unfold Machine.lbCoreStop
  repeat' first
    | with_reducible assumption
    | with_reducible apply Keeps.ite
    | with_reducible apply Keeps.ite1
    | with_reducible apply Keeps.lbEnd

end Sys2Proof.Machine
end

