-- ==== Sys2Proof/Laws/KeepConv.lean ====
section
/-! SUPPORT. What the operations of Conv.lean keep. -/

set_option linter.all false

namespace Sys2Proof.Machine

theorem Keeps.updConv {z0 s : State} {n : Nat} {f : Conv → Conv} (hz : Keeps z0 s)  : Keeps z0 (Machine.updConv n f s) := by
  unfold Machine.updConv
  exact Keeps.upd hz rfl rfl rfl rfl rfl (CelKeeps.refl _) rfl (fun g => by simp_all [SizesOk])

theorem Keeps.adcEvt {z0 s : State} {n : Nat} {b : Nat} (hz : Keeps z0 s)  : Keeps z0 (Machine.adcEvt n b s) := by
  unfold Machine.adcEvt
  repeat' first
    | with_reducible assumption
    | with_reducible apply Keeps.flag

theorem Keeps.calEnd {z0 s : State} {n : Nat} {op : Nat} {k : Nat} {c : Code} {reason : Nat} (hz : Keeps z0 s)  : Keeps z0 (Machine.calEnd n op k c reason s) := by
  unfold Machine.calEnd
  try lift_lets
  repeat' first
    | with_reducible assumption
    | (intro x; with_reducible refine Keeps.cut (o := z0) x ?_ ?_; dsimp only [x]; rotate_left; try clear_value x)
    | (intro x; try clear_value x)
    | with_reducible apply Keeps.adcEvt
    | with_reducible apply Keeps.set

theorem Keeps.holdEnd {z0 s : State} {n : Nat} {c : Code} {reason : Nat} (hz : Keeps z0 s)  : Keeps z0 (Machine.holdEnd n c reason s) := by
  unfold Machine.holdEnd
  repeat' first
    | with_reducible assumption
    | with_reducible apply Keeps.calEnd

theorem Keeps.stepTap {z0 s : State} {cur : Fd} {tgt : Fd} {d : Nat} (hz : Keeps z0 s)  : Keeps z0 (Machine.stepTap cur tgt d s) := by
  unfold Machine.stepTap
  repeat' first
    | with_reducible assumption
    | with_reducible apply Keeps.seti

theorem Keeps.rampSlice {z0 s : State} {n : Nat} {k : Nat} (hz : Keeps z0 s)  : Keeps z0 (Machine.rampSlice n k s) := by
  unfold Machine.rampSlice
  try lift_lets
  repeat' first
    | with_reducible assumption
    | (intro x; with_reducible refine Keeps.cut (o := z0) x ?_ ?_; dsimp only [x]; rotate_left; try clear_value x)
    | (intro x; try clear_value x)
    | with_reducible apply Keeps.ite
    | with_reducible apply Keeps.ite1
    | with_reducible apply Keeps.stepTap

theorem Keeps.rampConv {z0 s : State} {n : Nat} (hz : Keeps z0 s)  : Keeps z0 (Machine.rampConv n s) := by
  unfold Machine.rampConv
  repeat' first
    | with_reducible assumption
    | (intro x; try clear_value x)
    | with_reducible apply Keeps.ite
    | with_reducible apply Keeps.ite1
    | with_reducible apply Keeps.forN
    | with_reducible apply Keeps.rampSlice

theorem Keeps.writeEst {z0 s : State} {n : Nat} {k : Nat} {f : Fd} {x : Int} (hz : Keeps z0 s)  : Keeps z0 (Machine.writeEst n k f x s) := by
  unfold Machine.writeEst
  try lift_lets
  repeat' first
    | with_reducible assumption
    | (intro x; with_reducible refine Keeps.cut (o := z0) x ?_ ?_; dsimp only [x]; rotate_left; try clear_value x)
    | (intro x; try clear_value x)
    | with_reducible apply Keeps.ite
    | with_reducible apply Keeps.ite1
    | with_reducible apply Keeps.adcEvt
    | with_reducible apply Keeps.set
    | with_reducible apply Keeps.seti

theorem Keeps.writeTargets {z0 s : State} {n : Nat} {k : Nat} {e : SliceEst} (hz : Keeps z0 s)  : Keeps z0 (Machine.writeTargets n k e s) := by
  unfold Machine.writeTargets
  repeat' first
    | with_reducible assumption
    | with_reducible apply Keeps.writeEst

theorem Keeps.currentFromTargets {z0 s : State} {n : Nat} {k : Nat} (hz : Keeps z0 s)  : Keeps z0 (Machine.currentFromTargets n k s) := by
  unfold Machine.currentFromTargets
  try lift_lets
  repeat' first
    | with_reducible assumption
    | (intro x; with_reducible refine Keeps.cut (o := z0) x ?_ ?_; dsimp only [x]; rotate_left; try clear_value x)
    | (intro x; try clear_value x)
    | with_reducible apply Keeps.set

theorem Keeps.fgSlice {z0 s : State} {n : Nat} {est : List SliceEst} {failed : List Nat} {out : Nat} {k : Nat} (hz : Keeps z0 s)  : Keeps z0 (Machine.fgSlice n est failed out k s) := by
  unfold Machine.fgSlice
  try lift_lets
  repeat' first
    | with_reducible assumption
    | (intro x; with_reducible refine Keeps.cut (o := z0) x ?_ ?_; dsimp only [x]; rotate_left; try clear_value x)
    | (intro x; try clear_value x)
    | with_reducible apply Keeps.ite
    | with_reducible apply Keeps.ite1
    | with_reducible apply Keeps.writeTargets
    | with_reducible apply Keeps.currentFromTargets
    | with_reducible apply Keeps.set

theorem Keeps.calThrottle {z0 s : State} {n : Nat} (hz : Keeps z0 s)  : Keeps z0 (Machine.calThrottle n s) := by
  unfold Machine.calThrottle
  repeat' first
    | with_reducible assumption
    | with_reducible apply Keeps.ite
    | with_reducible apply Keeps.ite1
    | with_reducible apply Keeps.adcEvt
    | with_reducible apply Keeps.set

theorem Keeps.fgCalDone {z0 s : State} {n : Nat} {est : List SliceEst} {failed : List Nat} (hz : Keeps z0 s)  : Keeps z0 (Machine.fgCalDone n est failed s) := by
  unfold Machine.fgCalDone
  try lift_lets
  repeat' first
    | with_reducible assumption
    | (intro x; with_reducible refine Keeps.cut (o := z0) x ?_ ?_; dsimp only [x]; rotate_left; try clear_value x)
    | (intro x; try clear_value x)
    | with_reducible apply Keeps.ite
    | with_reducible apply Keeps.ite1
    | with_reducible apply Keeps.forN
    | with_reducible apply Keeps.updConv
    | with_reducible apply Keeps.adcEvt
    | with_reducible apply Keeps.fgSlice
    | with_reducible apply Keeps.calThrottle
    | with_reducible apply Keeps.set
    | ((first | rw [patch_eq] | skip); (with_reducible refine Keeps.patch ?_ ?_ ?_); rotate_left; (first | exact CelKeeps.refl _ | exact ⟨fun _ h => h, Nat.le_refl _⟩ | exact ⟨fun _ h => h, Nat.le_succ _⟩); (refine fun g => ?_; first | exact g | simpa only [SizesOk, Machine.patch, upd_length] using g | (simp only [SizesOk, Machine.patch, upd_length, List.length_map, List.length_replicate, true_and] at g ⊢; tauto)))

theorem Keeps.rotationResume {z0 s : State} {n : Nat} (hz : Keeps z0 s)  : Keeps z0 (Machine.rotationResume n s) := by
  unfold Machine.rotationResume
  try lift_lets
  repeat' first
    | with_reducible assumption
    | (intro x; with_reducible refine Keeps.cut (o := z0) x ?_ ?_; dsimp only [x]; rotate_left; try clear_value x)
    | (intro x; try clear_value x)
    | with_reducible apply Keeps.ite
    | with_reducible apply Keeps.ite1
    | with_reducible apply Keeps.updConv
    | with_reducible apply Keeps.set
    | ((first | rw [patch_eq] | skip); (with_reducible refine Keeps.patch ?_ ?_ ?_); rotate_left; (first | exact CelKeeps.refl _ | exact ⟨fun _ h => h, Nat.le_refl _⟩ | exact ⟨fun _ h => h, Nat.le_succ _⟩); (refine fun g => ?_; first | exact g | simpa only [SizesOk, Machine.patch, upd_length] using g | (simp only [SizesOk, Machine.patch, upd_length, List.length_map, List.length_replicate, true_and] at g ⊢; tauto)))

theorem Keeps.rotStop {z0 s : State} {n : Nat} (hz : Keeps z0 s)  : Keeps z0 (Machine.rotStop n s) := by
  unfold Machine.rotStop
  repeat' first
    | with_reducible assumption
    | with_reducible apply Keeps.updConv
    | with_reducible apply Keeps.set
    | ((first | rw [patch_eq] | skip); (with_reducible refine Keeps.patch ?_ ?_ ?_); rotate_left; (first | exact CelKeeps.refl _ | exact ⟨fun _ h => h, Nat.le_refl _⟩ | exact ⟨fun _ h => h, Nat.le_succ _⟩); (refine fun g => ?_; first | exact g | simpa only [SizesOk, Machine.patch, upd_length] using g | (simp only [SizesOk, Machine.patch, upd_length, List.length_map, List.length_replicate, true_and] at g ⊢; tauto)))

theorem Keeps.recalAbort {z0 s : State} {n : Nat} {reason : Nat} (hz : Keeps z0 s)  : Keeps z0 (Machine.recalAbort n reason s) := by
  unfold Machine.recalAbort
  repeat' first
    | with_reducible assumption
    | with_reducible apply Keeps.updConv
    | with_reducible apply Keeps.calEnd
    | (fail_if_no_progress dsimp -zeta only)
    | split

theorem Keeps.sliceFail {z0 s : State} {n : Nat} (hz : Keeps z0 s)  : Keeps z0 (Machine.sliceFail n s) := by
  unfold Machine.sliceFail
  try lift_lets
  repeat' first
    | with_reducible assumption
    | (intro x; with_reducible refine Keeps.cut (o := z0) x ?_ ?_; dsimp only [x]; rotate_left; try clear_value x)
    | (intro x; try clear_value x)
    | with_reducible apply Keeps.ite
    | with_reducible apply Keeps.ite1
    | with_reducible apply Keeps.updConv
    | with_reducible apply Keeps.adcEvt
    | with_reducible apply Keeps.holdEnd
    | with_reducible apply Keeps.rotStop
    | with_reducible apply Keeps.recalAbort
    | with_reducible apply Keeps.set
    | ((first | rw [patch_eq] | skip); (with_reducible refine Keeps.patch ?_ ?_ ?_); rotate_left; (first | exact CelKeeps.refl _ | exact ⟨fun _ h => h, Nat.le_refl _⟩ | exact ⟨fun _ h => h, Nat.le_succ _⟩); (refine fun g => ?_; first | exact g | simpa only [SizesOk, Machine.patch, upd_length] using g | (simp only [SizesOk, Machine.patch, upd_length, List.length_map, List.length_replicate, true_and] at g ⊢; tauto)))

theorem Keeps.sparePhaseEnd {z0 s : State} {n : Nat} {est : Int} {stuck : Bool} (hz : Keeps z0 s)  : Keeps z0 (Machine.sparePhaseEnd n est stuck s) := by
  unfold Machine.sparePhaseEnd
  try lift_lets
  repeat' first
    | with_reducible assumption
    | (intro x; with_reducible refine Keeps.cut (o := z0) x ?_ ?_; dsimp only [x]; rotate_left; try clear_value x)
    | (intro x; try clear_value x)
    | with_reducible apply Keeps.ite
    | with_reducible apply Keeps.ite1
    | with_reducible apply Keeps.updConv
    | with_reducible apply Keeps.sliceFail
    | with_reducible apply Keeps.set
    | ((first | rw [patch_eq] | skip); (with_reducible refine Keeps.patch ?_ ?_ ?_); rotate_left; (first | exact CelKeeps.refl _ | exact ⟨fun _ h => h, Nat.le_refl _⟩ | exact ⟨fun _ h => h, Nat.le_succ _⟩); (refine fun g => ?_; first | exact g | simpa only [SizesOk, Machine.patch, upd_length] using g | (simp only [SizesOk, Machine.patch, upd_length, List.length_map, List.length_replicate, true_and] at g ⊢; tauto)))

theorem Keeps.skewPhaseEnd {z0 s : State} {n : Nat} {est : Int} (hz : Keeps z0 s)  : Keeps z0 (Machine.skewPhaseEnd n est s) := by
  unfold Machine.skewPhaseEnd
  try lift_lets
  repeat' first
    | with_reducible assumption
    | (intro x; with_reducible refine Keeps.cut (o := z0) x ?_ ?_; dsimp only [x]; rotate_left; try clear_value x)
    | (intro x; try clear_value x)
    | with_reducible apply Keeps.ite
    | with_reducible apply Keeps.ite1
    | with_reducible apply Keeps.updConv
    | with_reducible apply Keeps.writeTargets
    | with_reducible apply Keeps.sliceFail
    | with_reducible apply Keeps.set
    | ((first | rw [patch_eq] | skip); (with_reducible refine Keeps.patch ?_ ?_ ?_); rotate_left; (first | exact CelKeeps.refl _ | exact ⟨fun _ h => h, Nat.le_refl _⟩ | exact ⟨fun _ h => h, Nat.le_succ _⟩); (refine fun g => ?_; first | exact g | simpa only [SizesOk, Machine.patch, upd_length] using g | (simp only [SizesOk, Machine.patch, upd_length, List.length_map, List.length_replicate, true_and] at g ⊢; tauto)))

theorem Keeps.exchange {z0 s : State} {n : Nat} {cont : SliceEst} (hz : Keeps z0 s)  : Keeps z0 (Machine.exchange n cont s) := by
  unfold Machine.exchange
  try lift_lets
  repeat' first
    | with_reducible assumption
    | (intro x; with_reducible refine Keeps.cut (o := z0) x ?_ ?_; dsimp only [x]; rotate_left; try clear_value x)
    | (intro x; try clear_value x)
    | with_reducible apply Keeps.set
    | with_reducible apply Keeps.seti

theorem Keeps.countSlot {z0 s : State} {n : Nat} (hz : Keeps z0 s)  : Keeps z0 (Machine.countSlot n s) := by
  unfold Machine.countSlot
  repeat' first
    | with_reducible assumption
    | with_reducible apply Keeps.ite
    | with_reducible apply Keeps.ite1
    | with_reducible apply Keeps.updConv
    | with_reducible apply Keeps.adcEvt
    | with_reducible apply Keeps.incMod
    | ((first | rw [patch_eq] | skip); (with_reducible refine Keeps.patch ?_ ?_ ?_); rotate_left; (first | exact CelKeeps.refl _ | exact ⟨fun _ h => h, Nat.le_refl _⟩ | exact ⟨fun _ h => h, Nat.le_succ _⟩); (refine fun g => ?_; first | exact g | simpa only [SizesOk, Machine.patch, upd_length] using g | (simp only [SizesOk, Machine.patch, upd_length, List.length_map, List.length_replicate, true_and] at g ⊢; tauto)))

theorem Keeps.recalSlotEnd {z0 s : State} {n : Nat} (hz : Keeps z0 s)  : Keeps z0 (Machine.recalSlotEnd n s) := by
  unfold Machine.recalSlotEnd
  repeat' first
    | with_reducible assumption
    | with_reducible apply Keeps.ite
    | with_reducible apply Keeps.ite1
    | with_reducible apply Keeps.updConv
    | with_reducible apply Keeps.calEnd
    | (fail_if_no_progress dsimp -zeta only)
    | split

theorem Keeps.slotNext {z0 s : State} {n : Nat} (hz : Keeps z0 s)  : Keeps z0 (Machine.slotNext n s) := by
  unfold Machine.slotNext
  try lift_lets
  repeat' first
    | with_reducible assumption
    | (intro x; with_reducible refine Keeps.cut (o := z0) x ?_ ?_; dsimp only [x]; rotate_left; try clear_value x)
    | (intro x; try clear_value x)
    | with_reducible apply Keeps.ite
    | with_reducible apply Keeps.ite1
    | with_reducible apply Keeps.updConv
    | with_reducible apply Keeps.adcEvt
    | with_reducible apply Keeps.holdEnd
    | with_reducible apply Keeps.rotStop
    | with_reducible apply Keeps.set
    | ((first | rw [patch_eq] | skip); (with_reducible refine Keeps.patch ?_ ?_ ?_); rotate_left; (first | exact CelKeeps.refl _ | exact ⟨fun _ h => h, Nat.le_refl _⟩ | exact ⟨fun _ h => h, Nat.le_succ _⟩); (refine fun g => ?_; first | exact g | simpa only [SizesOk, Machine.patch, upd_length] using g | (simp only [SizesOk, Machine.patch, upd_length, List.length_map, List.length_replicate, true_and] at g ⊢; tauto)))

theorem Keeps.slotHandover {z0 s : State} {n : Nat} {cont : SliceEst} (hz : Keeps z0 s)  : Keeps z0 (Machine.slotHandover n cont s) := by
  unfold Machine.slotHandover
  repeat' first
    | with_reducible assumption
    | with_reducible apply Keeps.ite
    | with_reducible apply Keeps.ite1
    | with_reducible apply Keeps.exchange
    | with_reducible apply Keeps.countSlot
    | with_reducible apply Keeps.recalSlotEnd
    | with_reducible apply Keeps.slotNext

theorem Keeps.slotAbandon {z0 s : State} {n : Nat} (hz : Keeps z0 s)  : Keeps z0 (Machine.slotAbandon n s) := by
  unfold Machine.slotAbandon
  try lift_lets
  repeat' first
    | with_reducible assumption
    | (intro x; with_reducible refine Keeps.cut (o := z0) x ?_ ?_; dsimp only [x]; rotate_left; try clear_value x)
    | (intro x; try clear_value x)
    | with_reducible apply Keeps.ite
    | with_reducible apply Keeps.ite1
    | with_reducible apply Keeps.rotStop
    | with_reducible apply Keeps.set

theorem Keeps.rxOff {z0 s : State} {n : Nat} (hz : Keeps z0 s)  : Keeps z0 (Machine.rxOff n s) := by
  unfold Machine.rxOff
  try lift_lets
  repeat' first
    | with_reducible assumption
    | (intro x; with_reducible refine Keeps.cut (o := z0) x ?_ ?_; dsimp only [x]; rotate_left; try clear_value x)
    | (intro x; try clear_value x)
    | with_reducible apply Keeps.ite
    | with_reducible apply Keeps.ite1
    | with_reducible apply Keeps.updConv
    | with_reducible apply Keeps.holdEnd
    | with_reducible apply Keeps.recalAbort
    | with_reducible apply Keeps.slotAbandon
    | with_reducible apply Keeps.set
    | ((first | rw [patch_eq] | skip); (with_reducible refine Keeps.patch ?_ ?_ ?_); rotate_left; (first | exact CelKeeps.refl _ | exact ⟨fun _ h => h, Nat.le_refl _⟩ | exact ⟨fun _ h => h, Nat.le_succ _⟩); (refine fun g => ?_; first | exact g | simpa only [SizesOk, Machine.patch, upd_length] using g | (simp only [SizesOk, Machine.patch, upd_length, List.length_map, List.length_replicate, true_and] at g ⊢; tauto)))

theorem Keeps.rxOn {z0 s : State} {n : Nat} (hz : Keeps z0 s)  : Keeps z0 (Machine.rxOn n s) := by
  unfold Machine.rxOn
  repeat' first
    | with_reducible assumption
    | with_reducible apply Keeps.set

theorem Keeps.wrAdcCtrl {z0 s : State} {n : Nat} {w : Word} (hz : Keeps z0 s)  : Keeps z0 (Machine.wrAdcCtrl n w s) := by
  unfold Machine.wrAdcCtrl
  try lift_lets
  repeat' first
    | with_reducible assumption
    | (intro x; with_reducible refine Keeps.cut (o := z0) x ?_ ?_; dsimp only [x]; rotate_left; try clear_value x)
    | (intro x; try clear_value x)
    | with_reducible apply Keeps.ite
    | with_reducible apply Keeps.ite1
    | with_reducible apply Keeps.rxOff
    | with_reducible apply Keeps.rxOn
    | with_reducible apply Keeps.store
    | with_reducible apply Keeps.ret

theorem Keeps.calBegin {z0 s : State} {n : Nat} {op : Nat} {k : Nat} {c : Code} (hz : Keeps z0 s)  : Keeps z0 (Machine.calBegin n op k c s) := by
  unfold Machine.calBegin
  try lift_lets
  repeat' first
    | with_reducible assumption
    | (intro x; with_reducible refine Keeps.cut (o := z0) x ?_ ?_; dsimp only [x]; rotate_left; try clear_value x)
    | (intro x; try clear_value x)
    | with_reducible apply Keeps.set

theorem Keeps.calNow {z0 s : State} {n : Nat} {op : Nat} {k : Nat} {c : Code} (hz : Keeps z0 s)  : Keeps z0 (Machine.calNow n op k c s) := by
  unfold Machine.calNow
  repeat' first
    | with_reducible assumption
    | with_reducible apply Keeps.adcEvt
    | with_reducible apply Keeps.calBegin
    | with_reducible apply Keeps.ret

theorem Keeps.calHold {z0 s : State} {n : Nat} {k : Nat} (hz : Keeps z0 s)  : Keeps z0 (Machine.calHold n k s) := by
  unfold Machine.calHold
  repeat' first
    | with_reducible assumption
    | with_reducible apply Keeps.ite
    | with_reducible apply Keeps.ite1
    | with_reducible apply Keeps.updConv
    | with_reducible apply Keeps.calBegin
    | with_reducible apply Keeps.calNow
    | with_reducible apply Keeps.ret
    | ((first | rw [patch_eq] | skip); (with_reducible refine Keeps.patch ?_ ?_ ?_); rotate_left; (first | exact CelKeeps.refl _ | exact ⟨fun _ h => h, Nat.le_refl _⟩ | exact ⟨fun _ h => h, Nat.le_succ _⟩); (refine fun g => ?_; first | exact g | simpa only [SizesOk, Machine.patch, upd_length] using g | (simp only [SizesOk, Machine.patch, upd_length, List.length_map, List.length_replicate, true_and] at g ⊢; tauto)))

theorem Keeps.calResume {z0 s : State} {n : Nat} {k : Nat} (hz : Keeps z0 s)  : Keeps z0 (Machine.calResume n k s) := by
  unfold Machine.calResume
  repeat' first
    | with_reducible assumption
    | with_reducible apply Keeps.ite
    | with_reducible apply Keeps.ite1
    | with_reducible apply Keeps.updConv
    | with_reducible apply Keeps.calNow
    | ((first | rw [patch_eq] | skip); (with_reducible refine Keeps.patch ?_ ?_ ?_); rotate_left; (first | exact CelKeeps.refl _ | exact ⟨fun _ h => h, Nat.le_refl _⟩ | exact ⟨fun _ h => h, Nat.le_succ _⟩); (refine fun g => ?_; first | exact g | simpa only [SizesOk, Machine.patch, upd_length] using g | (simp only [SizesOk, Machine.patch, upd_length, List.length_map, List.length_replicate, true_and] at g ⊢; tauto)))

theorem Keeps.calRecal {z0 s : State} {n : Nat} {k : Nat} (hz : Keeps z0 s)  : Keeps z0 (Machine.calRecal n k s) := by
  unfold Machine.calRecal
  try lift_lets
  repeat' first
    | with_reducible assumption
    | (intro x; try clear_value x)
    | with_reducible apply Keeps.ite
    | with_reducible apply Keeps.ite1
    | with_reducible apply Keeps.updConv
    | with_reducible apply Keeps.calBegin
    | with_reducible apply Keeps.calNow
    | with_reducible apply Keeps.ret
    | ((first | rw [patch_eq] | skip); (with_reducible refine Keeps.patch ?_ ?_ ?_); rotate_left; (first | exact CelKeeps.refl _ | exact ⟨fun _ h => h, Nat.le_refl _⟩ | exact ⟨fun _ h => h, Nat.le_succ _⟩); (refine fun g => ?_; first | exact g | simpa only [SizesOk, Machine.patch, upd_length] using g | (simp only [SizesOk, Machine.patch, upd_length, List.length_map, List.length_replicate, true_and] at g ⊢; tauto)))

theorem Keeps.calRelease {z0 s : State} {n : Nat} {k : Nat} (hz : Keeps z0 s)  : Keeps z0 (Machine.calRelease n k s) := by
  unfold Machine.calRelease
  try lift_lets
  repeat' first
    | with_reducible assumption
    | (intro x; with_reducible refine Keeps.cut (o := z0) x ?_ ?_; dsimp only [x]; rotate_left; try clear_value x)
    | (intro x; try clear_value x)
    | with_reducible apply Keeps.ite
    | with_reducible apply Keeps.ite1
    | with_reducible apply Keeps.calNow
    | with_reducible apply Keeps.set

theorem Keeps.wrCalCmd {z0 s : State} {n : Nat} {w : Word} (hz : Keeps z0 s)  : Keeps z0 (Machine.wrCalCmd n w s) := by
  unfold Machine.wrCalCmd
  repeat' first
    | with_reducible assumption
    | with_reducible apply Keeps.calNow
    | with_reducible apply Keeps.calHold
    | with_reducible apply Keeps.calResume
    | with_reducible apply Keeps.calRecal
    | with_reducible apply Keeps.calRelease
    | (fail_if_no_progress dsimp -zeta only)
    | split

theorem Keeps.wrRampCtrl {z0 s : State} {n : Nat} {w : Word} (hz : Keeps z0 s)  : Keeps z0 (Machine.wrRampCtrl n w s) := by
  unfold Machine.wrRampCtrl
  repeat' first
    | with_reducible assumption
    | with_reducible apply Keeps.ite
    | with_reducible apply Keeps.ite1
    | with_reducible apply Keeps.plainWrite
    | with_reducible apply Keeps.ret

theorem Keeps.wrTxCtrl {z0 s : State} {n : Nat} {w : Word} (hz : Keeps z0 s)  : Keeps z0 (Machine.wrTxCtrl n w s) := by
  unfold Machine.wrTxCtrl
  try lift_lets
  repeat' first
    | with_reducible assumption
    | (intro x; with_reducible refine Keeps.cut (o := z0) x ?_ ?_; dsimp only [x]; rotate_left; try clear_value x)
    | (intro x; try clear_value x)
    | with_reducible apply Keeps.ite
    | with_reducible apply Keeps.ite1
    | with_reducible apply Keeps.set
    | with_reducible apply Keeps.store
    | with_reducible apply Keeps.ret

theorem Keeps.wrTxCommit {z0 s : State} {n : Nat} {w : Word} (hz : Keeps z0 s)  : Keeps z0 (Machine.wrTxCommit n w s) := by
  unfold Machine.wrTxCommit
  try lift_lets
  repeat' first
    | with_reducible assumption
    | (intro x; with_reducible refine Keeps.cut (o := z0) x ?_ ?_; dsimp only [x]; rotate_left; try clear_value x)
    | (intro x; try clear_value x)
    | with_reducible apply Keeps.ite
    | with_reducible apply Keeps.ite1
    | with_reducible apply Keeps.updConv
    | with_reducible apply Keeps.set
    | with_reducible apply Keeps.ret
    | ((first | rw [patch_eq] | skip); (with_reducible refine Keeps.patch ?_ ?_ ?_); rotate_left; (first | exact CelKeeps.refl _ | exact ⟨fun _ h => h, Nat.le_refl _⟩ | exact ⟨fun _ h => h, Nat.le_succ _⟩); (refine fun g => ?_; first | exact g | simpa only [SizesOk, Machine.patch, upd_length] using g | (simp only [SizesOk, Machine.patch, upd_length, List.length_map, List.length_replicate, true_and] at g ⊢; tauto)))

theorem Keeps.txCommitApply {z0 s : State} {n : Nat} (hz : Keeps z0 s)  : Keeps z0 (Machine.txCommitApply n s) := by
  unfold Machine.txCommitApply
  try lift_lets
  repeat' first
    | with_reducible assumption
    | (intro x; with_reducible refine Keeps.cut (o := z0) x ?_ ?_; dsimp only [x]; rotate_left; try clear_value x)
    | (intro x; try clear_value x)
    | with_reducible apply Keeps.ite
    | with_reducible apply Keeps.ite1
    | with_reducible apply Keeps.forN
    | with_reducible apply Keeps.updConv
    | with_reducible apply Keeps.set
    | ((first | rw [patch_eq] | skip); (with_reducible refine Keeps.patch ?_ ?_ ?_); rotate_left; (first | exact CelKeeps.refl _ | exact ⟨fun _ h => h, Nat.le_refl _⟩ | exact ⟨fun _ h => h, Nat.le_succ _⟩); (refine fun g => ?_; first | exact g | simpa only [SizesOk, Machine.patch, upd_length] using g | (simp only [SizesOk, Machine.patch, upd_length, List.length_map, List.length_replicate, true_and] at g ⊢; tauto)))

theorem Keeps.wrTxFir {z0 s : State} {n : Nat} {k : Nat} {w : Word} (hz : Keeps z0 s)  : Keeps z0 (Machine.wrTxFir n k w s) := by
  unfold Machine.wrTxFir
  repeat' first
    | with_reducible assumption
    | with_reducible apply Keeps.ite
    | with_reducible apply Keeps.ite1
    | with_reducible apply Keeps.plainWrite
    | with_reducible apply Keeps.ret

theorem Keeps.wrPd {z0 s : State} {n : Nat} {b : Nat} {i : Nat} {w : Word} (hz : Keeps z0 s)  : Keeps z0 (Machine.wrPd n b i w s) := by
  unfold Machine.wrPd
  try lift_lets
  repeat' first
    | with_reducible assumption
    | (intro x; try clear_value x)
    | with_reducible apply Keeps.ite
    | with_reducible apply Keeps.ite1
    | with_reducible apply Keeps.plainWrite
    | with_reducible apply Keeps.ret

theorem Keeps.resetConv {z0 s : State} {n : Nat} (hz : Keeps z0 s)  : Keeps z0 (Machine.resetConv n s) := by
  unfold Machine.resetConv
  repeat' first
    | with_reducible assumption
    | with_reducible apply Keeps.updConv

theorem Keeps.execRxEnOn {s z : State} {q : Rq} {n : Fin 8} {w : Word} (e : Machine.execRxEnOn q n w s = .next z) : Keeps s z := by
  have hz := Keeps.refl s
  revert e
  unfold Machine.execRxEnOn
  first
    | (intro e; injection e with e; subst e; (repeat' first
         | with_reducible assumption
         | (intro x; try clear_value x)
         | with_reducible apply Keeps.gated
         | with_reducible apply Keeps.wrAdcCtrl
         ); done)

theorem Keeps.execRxEnOff {s z : State} {q : Rq} {n : Fin 8} {w : Word} (e : Machine.execRxEnOff q n w s = .next z) : Keeps s z := by
  have hz := Keeps.refl s
  revert e
  unfold Machine.execRxEnOff
  first
    | (intro e; injection e with e; subst e; (repeat' first
         | with_reducible assumption
         | (intro x; try clear_value x)
         | with_reducible apply Keeps.gated
         | with_reducible apply Keeps.wrAdcCtrl
         ); done)

theorem Keeps.execRotationResume {s z : State} {n : Fin 8} (e : Machine.execRotationResume n s = .next z) : Keeps s z := by
  have hz := Keeps.refl s
  revert e
  unfold Machine.execRotationResume
  first
    | (intro e; injection e with e; subst e; (repeat' first
         | with_reducible assumption
         | with_reducible apply Keeps.rotationResume
         ); done)

theorem Keeps.execSparePhaseEnd {s z : State} {n : Fin 8} {est : Int} {stuck : Bool} (e : Machine.execSparePhaseEnd n est stuck s = .next z) : Keeps s z := by
  have hz := Keeps.refl s
  revert e
  unfold Machine.execSparePhaseEnd
  first
    | (intro e; injection e with e; subst e; (repeat' first
         | with_reducible assumption
         | with_reducible apply Keeps.sparePhaseEnd
         ); done)

theorem Keeps.execSkewPhaseEnd {s z : State} {n : Fin 8} {est : Int} (e : Machine.execSkewPhaseEnd n est s = .next z) : Keeps s z := by
  have hz := Keeps.refl s
  revert e
  unfold Machine.execSkewPhaseEnd
  first
    | (intro e; injection e with e; subst e; (repeat' first
         | with_reducible assumption
         | with_reducible apply Keeps.skewPhaseEnd
         ); done)

theorem Keeps.execSlotHandover {s z : State} {n : Fin 8} {cont : SliceEst} (e : Machine.execSlotHandover n cont s = .next z) : Keeps s z := by
  have hz := Keeps.refl s
  revert e
  unfold Machine.execSlotHandover
  first
    | (intro e; injection e with e; subst e; (repeat' first
         | with_reducible assumption
         | with_reducible apply Keeps.slotHandover
         ); done)

theorem Keeps.execHold {s z : State} {q : Rq} {n : Fin 8} {k : Fin 128} (e : Machine.execHold q n k s = .next z) : Keeps s z := by
  have hz := Keeps.refl s
  revert e
  unfold Machine.execHold
  first
    | (intro e; injection e with e; subst e; (repeat' first
         | with_reducible assumption
         | (intro x; try clear_value x)
         | with_reducible apply Keeps.gated
         | with_reducible apply Keeps.calHold
         ); done)

theorem Keeps.execCalResume {s z : State} {q : Rq} {n : Fin 8} {k : Fin 128} (e : Machine.execCalResume q n k s = .next z) : Keeps s z := by
  have hz := Keeps.refl s
  revert e
  unfold Machine.execCalResume
  first
    | (intro e; injection e with e; subst e; (repeat' first
         | with_reducible assumption
         | (intro x; try clear_value x)
         | with_reducible apply Keeps.gated
         | with_reducible apply Keeps.calResume
         ); done)

theorem Keeps.execRecal {s z : State} {q : Rq} {n : Fin 8} {k : Fin 128} (e : Machine.execRecal q n k s = .next z) : Keeps s z := by
  have hz := Keeps.refl s
  revert e
  unfold Machine.execRecal
  first
    | (intro e; injection e with e; subst e; (repeat' first
         | with_reducible assumption
         | (intro x; try clear_value x)
         | with_reducible apply Keeps.gated
         | with_reducible apply Keeps.calRecal
         ); done)

theorem Keeps.execReleaseSlice {s z : State} {q : Rq} {n : Fin 8} {k : Fin 128} (e : Machine.execReleaseSlice q n k s = .next z) : Keeps s z := by
  have hz := Keeps.refl s
  revert e
  unfold Machine.execReleaseSlice
  first
    | (intro e; injection e with e; subst e; (repeat' first
         | with_reducible assumption
         | (intro x; try clear_value x)
         | with_reducible apply Keeps.gated
         | with_reducible apply Keeps.calRelease
         ); done)

theorem Keeps.execSwingWrite {s z : State} {q : Rq} {n : Fin 8} {w : Word} (e : Machine.execSwingWrite q n w s = .next z) : Keeps s z := by
  have hz := Keeps.refl s
  revert e
  unfold Machine.execSwingWrite
  first
    | (intro e; injection e with e; subst e; (repeat' first
         | with_reducible assumption
         | (intro x; try clear_value x)
         | with_reducible apply Keeps.gated
         | with_reducible apply Keeps.wrTxCtrl
         ); done)

theorem Keeps.execFirCommit {s z : State} {q : Rq} {n : Fin 8} {w : Word} (e : Machine.execFirCommit q n w s = .next z) : Keeps s z := by
  have hz := Keeps.refl s
  revert e
  unfold Machine.execFirCommit
  first
    | (intro e; injection e with e; subst e; (repeat' first
         | with_reducible assumption
         | (intro x; try clear_value x)
         | with_reducible apply Keeps.gated
         | with_reducible apply Keeps.wrTxCommit
         ); done)

theorem Keeps.execPdSwap {s z : State} {q : Rq} {n : Fin 8} {w : Word} (e : Machine.execPdSwap q n w s = .next z) : Keeps s z := by
  have hz := Keeps.refl s
  revert e
  unfold Machine.execPdSwap
  first
    | (intro e; injection e with e; subst e; (repeat' first
         | with_reducible assumption
         | (intro x; try clear_value x)
         | with_reducible apply Keeps.gated
         | with_reducible apply Keeps.wrTxCommit
         ); done)

theorem Keeps.execTxCommitApply {s z : State} {n : Fin 8} (e : Machine.execTxCommitApply n s = .next z) : Keeps s z := by
  have hz := Keeps.refl s
  revert e
  unfold Machine.execTxCommitApply
  first
    | (intro e; injection e with e; subst e; (repeat' first
         | with_reducible assumption
         | with_reducible apply Keeps.txCommitApply
         ); done)

end Sys2Proof.Machine
end

