-- ==== Sys2Proof/Laws/KeepDet.lean ====
section
/-! SUPPORT. What the operations of Det.lean keep. -/

set_option linter.all false

namespace Sys2Proof.Machine

theorem Keeps.updDet {z0 s : State} {n : Nat} {f : Det → Det} (hz : Keeps z0 s)  : Keeps z0 (Machine.updDet n f s) := by
  unfold Machine.updDet
  exact Keeps.upd hz rfl rfl rfl rfl rfl (CelKeeps.refl _) rfl (fun g => by simp_all [SizesOk])

theorem Keeps.updLms {z0 s : State} {n : Nat} {u : Nat} {f : LmsUnit → LmsUnit} (hz : Keeps z0 s)  : Keeps z0 (Machine.updLms n u f s) := by
  unfold Machine.updLms
  repeat' first
    | with_reducible assumption
    | with_reducible apply Keeps.updDet
    | ((first | rw [patch_eq] | skip); (with_reducible refine Keeps.patch ?_ ?_ ?_); rotate_left; (first | exact CelKeeps.refl _ | exact ⟨fun _ h => h, Nat.le_refl _⟩ | exact ⟨fun _ h => h, Nat.le_succ _⟩); (refine fun g => ?_; first | exact g | simpa only [SizesOk, Machine.patch, upd_length] using g | (simp only [SizesOk, Machine.patch, upd_length, List.length_map, List.length_replicate, true_and] at g ⊢; tauto)))

theorem Keeps.detEvt {z0 s : State} {n : Nat} {b : Nat} (hz : Keeps z0 s)  : Keeps z0 (Machine.detEvt n b s) := by
  unfold Machine.detEvt
  repeat' first
    | with_reducible assumption
    | with_reducible apply Keeps.flag

theorem Keeps.lmsReport {z0 s : State} {n : Nat} {u : Nat} {op : Nat} {c : Code} {reason : Nat} (hz : Keeps z0 s)  : Keeps z0 (Machine.lmsReport n u op c reason s) := by
  unfold Machine.lmsReport
  try lift_lets
  repeat' first
    | with_reducible assumption
    | (intro x; with_reducible refine Keeps.cut (o := z0) x ?_ ?_; dsimp only [x]; rotate_left; try clear_value x)
    | (intro x; try clear_value x)
    | with_reducible apply Keeps.detEvt
    | with_reducible apply Keeps.set

theorem Keeps.lmsEnd {z0 s : State} {n : Nat} {u : Nat} {c : Code} {reason : Nat} (hz : Keeps z0 s)  : Keeps z0 (Machine.lmsEnd n u c reason s) := by
  unfold Machine.lmsEnd
  try lift_lets
  repeat' first
    | with_reducible assumption
    | (intro x; with_reducible refine Keeps.cut (o := z0) x ?_ ?_; dsimp only [x]; rotate_left; try clear_value x)
    | (intro x; try clear_value x)
    | with_reducible apply Keeps.ite
    | with_reducible apply Keeps.ite1
    | with_reducible apply Keeps.updLms
    | with_reducible apply Keeps.lmsReport
    | with_reducible apply Keeps.set
    | ((first | rw [patch_eq] | skip); (with_reducible refine Keeps.patch ?_ ?_ ?_); rotate_left; (first | exact CelKeeps.refl _ | exact ⟨fun _ h => h, Nat.le_refl _⟩ | exact ⟨fun _ h => h, Nat.le_succ _⟩); (refine fun g => ?_; first | exact g | simpa only [SizesOk, Machine.patch, upd_length] using g | (simp only [SizesOk, Machine.patch, upd_length, List.length_map, List.length_replicate, true_and] at g ⊢; tauto)))

theorem Keeps.accumEnd {z0 s : State} {n : Nat} {u : Nat} (hz : Keeps z0 s)  : Keeps z0 (Machine.accumEnd n u s) := by
  unfold Machine.accumEnd
  repeat' first
    | with_reducible assumption
    | with_reducible apply Keeps.updLms
    | with_reducible apply Keeps.lmsEnd
    | ((first | rw [patch_eq] | skip); (with_reducible refine Keeps.patch ?_ ?_ ?_); rotate_left; (first | exact CelKeeps.refl _ | exact ⟨fun _ h => h, Nat.le_refl _⟩ | exact ⟨fun _ h => h, Nat.le_succ _⟩); (refine fun g => ?_; first | exact g | simpa only [SizesOk, Machine.patch, upd_length] using g | (simp only [SizesOk, Machine.patch, upd_length, List.length_map, List.length_replicate, true_and] at g ⊢; tauto)))

theorem Keeps.setDet {z0 s : State} {n : Nat} {t : Nat} (hz : Keeps z0 s)  : Keeps z0 (Machine.setDet n t s) := by
  unfold Machine.setDet
  try lift_lets
  repeat' first
    | with_reducible assumption
    | (intro x; with_reducible refine Keeps.cut (o := z0) x ?_ ?_; dsimp only [x]; rotate_left; try clear_value x)
    | (intro x; try clear_value x)
    | with_reducible apply Keeps.ite
    | with_reducible apply Keeps.ite1
    | with_reducible apply Keeps.forN
    | with_reducible apply Keeps.updFrm
    | with_reducible apply Keeps.framerLost
    | with_reducible apply Keeps.updDet
    | with_reducible apply Keeps.detEvt
    | with_reducible apply Keeps.lmsEnd
    | with_reducible apply Keeps.accumEnd
    | with_reducible apply Keeps.set
    | ((first | rw [patch_eq] | skip); (with_reducible refine Keeps.patch ?_ ?_ ?_); rotate_left; (first | exact CelKeeps.refl _ | exact ⟨fun _ h => h, Nat.le_refl _⟩ | exact ⟨fun _ h => h, Nat.le_succ _⟩); (refine fun g => ?_; first | exact g | simpa only [SizesOk, Machine.patch, upd_length] using g | (simp only [SizesOk, Machine.patch, upd_length, List.length_map, List.length_replicate, true_and] at g ⊢; tauto)))

theorem Keeps.detReport {z0 s : State} {n : Nat} {op : Nat} {c : Code} {reason : Nat} (hz : Keeps z0 s)  : Keeps z0 (Machine.detReport n op c reason s) := by
  unfold Machine.detReport
  try lift_lets
  repeat' first
    | with_reducible assumption
    | (intro x; with_reducible refine Keeps.cut (o := z0) x ?_ ?_; dsimp only [x]; rotate_left; try clear_value x)
    | (intro x; try clear_value x)
    | with_reducible apply Keeps.detEvt
    | with_reducible apply Keeps.set

theorem Keeps.detCmdEnd {z0 s : State} {n : Nat} {c : Code} {reason : Nat} (hz : Keeps z0 s)  : Keeps z0 (Machine.detCmdEnd n c reason s) := by
  unfold Machine.detCmdEnd
  repeat' first
    | with_reducible assumption
    | with_reducible apply Keeps.updDet
    | with_reducible apply Keeps.detReport
    | (fail_if_no_progress dsimp -zeta only)
    | split

theorem Keeps.detLost {z0 s : State} {n : Nat} {reason : Nat} (hz : Keeps z0 s)  : Keeps z0 (Machine.detLost n reason s) := by
  unfold Machine.detLost
  try lift_lets
  repeat' first
    | with_reducible assumption
    | (intro x; with_reducible refine Keeps.cut (o := z0) x ?_ ?_; dsimp only [x]; rotate_left; try clear_value x)
    | (intro x; try clear_value x)
    | with_reducible apply Keeps.setDet
    | with_reducible apply Keeps.detCmdEnd
    | with_reducible apply Keeps.set

theorem Keeps.detOff {z0 s : State} {n : Nat} (hz : Keeps z0 s)  : Keeps z0 (Machine.detOff n s) := by
  unfold Machine.detOff
  try lift_lets
  repeat' first
    | with_reducible assumption
    | (intro x; with_reducible refine Keeps.cut (o := z0) x ?_ ?_; dsimp only [x]; rotate_left; try clear_value x)
    | (intro x; try clear_value x)
    | with_reducible apply Keeps.ite
    | with_reducible apply Keeps.ite1
    | with_reducible apply Keeps.forN
    | with_reducible apply Keeps.lmsEnd
    | with_reducible apply Keeps.accumEnd
    | with_reducible apply Keeps.setDet
    | with_reducible apply Keeps.detCmdEnd

theorem Keeps.detStart {z0 s : State} {n : Nat} (hz : Keeps z0 s)  : Keeps z0 (Machine.detStart n s) := by
  unfold Machine.detStart
  repeat' first
    | with_reducible assumption
    | with_reducible apply Keeps.ite
    | with_reducible apply Keeps.ite1
    | with_reducible apply Keeps.updDet
    | with_reducible apply Keeps.setDet
    | ((first | rw [patch_eq] | skip); (with_reducible refine Keeps.patch ?_ ?_ ?_); rotate_left; (first | exact CelKeeps.refl _ | exact ⟨fun _ h => h, Nat.le_refl _⟩ | exact ⟨fun _ h => h, Nat.le_succ _⟩); (refine fun g => ?_; first | exact g | simpa only [SizesOk, Machine.patch, upd_length] using g | (simp only [SizesOk, Machine.patch, upd_length, List.length_map, List.length_replicate, true_and] at g ⊢; tauto)))

theorem Keeps.reduceEval {z0 s : State} {n : Nat} (hz : Keeps z0 s)  : Keeps z0 (Machine.reduceEval n s) := by
  unfold Machine.reduceEval
  try lift_lets
  repeat' first
    | with_reducible assumption
    | (intro x; with_reducible refine Keeps.cut (o := z0) x ?_ ?_; dsimp only [x]; rotate_left; try clear_value x)
    | (intro x; try clear_value x)
    | with_reducible apply Keeps.ite
    | with_reducible apply Keeps.ite1
    | with_reducible apply Keeps.forN
    | with_reducible apply Keeps.detEvt
    | with_reducible apply Keeps.set

theorem Keeps.gatedTap {z0 s : State} {n : Nat} {k : Nat} (hz : Keeps z0 s)  : Keeps z0 (Machine.gatedTap n k s) := by
  unfold Machine.gatedTap
  try lift_lets
  repeat' first
    | with_reducible assumption
    | (intro x; with_reducible refine Keeps.cut (o := z0) x ?_ ?_; dsimp only [x]; rotate_left; try clear_value x)
    | (intro x; try clear_value x)
    | with_reducible apply Keeps.ite
    | with_reducible apply Keeps.ite1
    | with_reducible apply Keeps.set
    | with_reducible apply Keeps.seti

theorem Keeps.rampDet {z0 s : State} {n : Nat} (hz : Keeps z0 s)  : Keeps z0 (Machine.rampDet n s) := by
  unfold Machine.rampDet
  try lift_lets
  repeat' first
    | with_reducible assumption
    | (intro x; with_reducible refine Keeps.cut (o := z0) x ?_ ?_; dsimp only [x]; rotate_left; try clear_value x)
    | (intro x; try clear_value x)
    | with_reducible apply Keeps.ite
    | with_reducible apply Keeps.ite1
    | with_reducible apply Keeps.forN
    | with_reducible apply Keeps.gatedTap
    | with_reducible apply Keeps.set

theorem Keeps.lmsSample {z0 s : State} {n : Nat} {u : Nat} {o : LmsObs} (hz : Keeps z0 s)  : Keeps z0 (Machine.lmsSample n u o s) := by
  unfold Machine.lmsSample
  try lift_lets
  repeat' first
    | with_reducible assumption
    | (intro x; with_reducible refine Keeps.cut (o := z0) x ?_ ?_; dsimp only [x]; rotate_left; try clear_value x)
    | (intro x; try clear_value x)
    | with_reducible apply Keeps.ite
    | with_reducible apply Keeps.ite1
    | with_reducible apply Keeps.forN
    | with_reducible apply Keeps.updLms
    | with_reducible apply Keeps.seti
    | ((first | rw [patch_eq] | skip); (with_reducible refine Keeps.patch ?_ ?_ ?_); rotate_left; (first | exact CelKeeps.refl _ | exact ⟨fun _ h => h, Nat.le_refl _⟩ | exact ⟨fun _ h => h, Nat.le_succ _⟩); (refine fun g => ?_; first | exact g | simpa only [SizesOk, Machine.patch, upd_length] using g | (simp only [SizesOk, Machine.patch, upd_length, List.length_map, List.length_replicate, true_and] at g ⊢; tauto)))

theorem Keeps.lmsStart {z0 s : State} {n : Nat} {u : Nat} (hz : Keeps z0 s)  : Keeps z0 (Machine.lmsStart n u s) := by
  unfold Machine.lmsStart
  try lift_lets
  repeat' first
    | with_reducible assumption
    | (intro x; with_reducible refine Keeps.cut (o := z0) x ?_ ?_; dsimp only [x]; rotate_left; try clear_value x)
    | (intro x; try clear_value x)
    | with_reducible apply Keeps.ite
    | with_reducible apply Keeps.ite1
    | with_reducible apply Keeps.forN
    | with_reducible apply Keeps.updLms
    | with_reducible apply Keeps.wr
    | ((first | rw [patch_eq] | skip); (with_reducible refine Keeps.patch ?_ ?_ ?_); rotate_left; (first | exact CelKeeps.refl _ | exact ⟨fun _ h => h, Nat.le_refl _⟩ | exact ⟨fun _ h => h, Nat.le_succ _⟩); (refine fun g => ?_; first | exact g | simpa only [SizesOk, Machine.patch, upd_length] using g | (simp only [SizesOk, Machine.patch, upd_length, List.length_map, List.length_replicate, true_and] at g ⊢; tauto)))

theorem Keeps.histSample {z0 s : State} {n : Nat} {o : HistObs} (hz : Keeps z0 s)  : Keeps z0 (Machine.histSample n o s) := by
  unfold Machine.histSample
  try lift_lets
  repeat' first
    | with_reducible assumption
    | (intro x; with_reducible refine Keeps.cut (o := z0) x ?_ ?_; dsimp only [x]; rotate_left; try clear_value x)
    | (intro x; try clear_value x)
    | with_reducible apply Keeps.ite
    | with_reducible apply Keeps.ite1
    | with_reducible apply Keeps.forN
    | with_reducible apply Keeps.updDet
    | with_reducible apply Keeps.addSat
    | ((first | rw [patch_eq] | skip); (with_reducible refine Keeps.patch ?_ ?_ ?_); rotate_left; (first | exact CelKeeps.refl _ | exact ⟨fun _ h => h, Nat.le_refl _⟩ | exact ⟨fun _ h => h, Nat.le_succ _⟩); (refine fun g => ?_; first | exact g | simpa only [SizesOk, Machine.patch, upd_length] using g | (simp only [SizesOk, Machine.patch, upd_length, List.length_map, List.length_replicate, true_and] at g ⊢; tauto)))

theorem Keeps.histStart {z0 s : State} {n : Nat} (hz : Keeps z0 s)  : Keeps z0 (Machine.histStart n s) := by
  unfold Machine.histStart
  try lift_lets
  repeat' first
    | with_reducible assumption
    | (intro x; with_reducible refine Keeps.cut (o := z0) x ?_ ?_; dsimp only [x]; rotate_left; try clear_value x)
    | (intro x; try clear_value x)
    | with_reducible apply Keeps.ite
    | with_reducible apply Keeps.ite1
    | with_reducible apply Keeps.forN
    | with_reducible apply Keeps.updDet
    | with_reducible apply Keeps.wr
    | ((first | rw [patch_eq] | skip); (with_reducible refine Keeps.patch ?_ ?_ ?_); rotate_left; (first | exact CelKeeps.refl _ | exact ⟨fun _ h => h, Nat.le_refl _⟩ | exact ⟨fun _ h => h, Nat.le_succ _⟩); (refine fun g => ?_; first | exact g | simpa only [SizesOk, Machine.patch, upd_length] using g | (simp only [SizesOk, Machine.patch, upd_length, List.length_map, List.length_replicate, true_and] at g ⊢; tauto)))

theorem Keeps.timingStep {z0 s : State} {n : Nat} {eps : Int} (hz : Keeps z0 s)  : Keeps z0 (Machine.timingStep n eps s) := by
  unfold Machine.timingStep
  try lift_lets
  repeat' first
    | with_reducible assumption
    | (intro x; with_reducible refine Keeps.cut (o := z0) x ?_ ?_; dsimp only [x]; rotate_left; try clear_value x)
    | with_reducible apply Keeps.ite2
    | (intro x; try clear_value x)
    | with_reducible apply Keeps.ite
    | with_reducible apply Keeps.ite1
    | with_reducible apply Keeps.updDet
    | with_reducible apply Keeps.detEvt
    | with_reducible apply Keeps.set
    | with_reducible apply Keeps.seti
    | ((first | rw [patch_eq] | skip); (with_reducible refine Keeps.patch ?_ ?_ ?_); rotate_left; (first | exact CelKeeps.refl _ | exact ⟨fun _ h => h, Nat.le_refl _⟩ | exact ⟨fun _ h => h, Nat.le_succ _⟩); (refine fun g => ?_; first | exact g | simpa only [SizesOk, Machine.patch, upd_length] using g | (simp only [SizesOk, Machine.patch, upd_length, List.length_map, List.length_replicate, true_and] at g ⊢; tauto)))

theorem Keeps.lmsMark {z0 s : State} {n : Nat} {i : Nat} {ds : List (Nat × Int)} (hz : Keeps z0 s)  : Keeps z0 (Machine.lmsMark n i ds s) := by
  unfold Machine.lmsMark
  try lift_lets
  repeat' first
    | with_reducible assumption
    | (intro x; try clear_value x)
    | with_reducible apply Keeps.foldl
    | with_reducible apply Keeps.foldl1
    | with_reducible apply Keeps.set

theorem Keeps.applyTap {z0 s : State} {n : Nat} {k : Nat} (hz : Keeps z0 s)  : Keeps z0 (Machine.applyTap n k s) := by
  unfold Machine.applyTap
  try lift_lets
  repeat' first
    | with_reducible assumption
    | (intro x; with_reducible refine Keeps.cut (o := z0) x ?_ ?_; dsimp only [x]; rotate_left; try clear_value x)
    | with_reducible apply Keeps.ite2
    | (intro x; try clear_value x)
    | with_reducible apply Keeps.ite
    | with_reducible apply Keeps.ite1
    | with_reducible apply Keeps.lmsMark
    | with_reducible apply Keeps.seti

theorem Keeps.applyLevel {z0 s : State} {n : Nat} {i : Nat} (hz : Keeps z0 s)  : Keeps z0 (Machine.applyLevel n i s) := by
  unfold Machine.applyLevel
  try lift_lets
  repeat' first
    | with_reducible assumption
    | (intro x; with_reducible refine Keeps.cut (o := z0) x ?_ ?_; dsimp only [x]; rotate_left; try clear_value x)
    | with_reducible apply Keeps.ite2
    | (intro x; try clear_value x)
    | with_reducible apply Keeps.ite
    | with_reducible apply Keeps.ite1
    | with_reducible apply Keeps.lmsMark
    | with_reducible apply Keeps.seti

theorem Keeps.swapApply {z0 s : State} {n : Nat} (hz : Keeps z0 s)  : Keeps z0 (Machine.swapApply n s) := by
  unfold Machine.swapApply
  try lift_lets
  repeat' first
    | with_reducible assumption
    | (intro x; with_reducible refine Keeps.cut (o := z0) x ?_ ?_; dsimp only [x]; rotate_left; try clear_value x)
    | (intro x; try clear_value x)
    | with_reducible apply Keeps.ite
    | with_reducible apply Keeps.ite1
    | with_reducible apply Keeps.forN
    | with_reducible apply Keeps.detEvt
    | with_reducible apply Keeps.lmsEnd
    | with_reducible apply Keeps.set

theorem Keeps.lmsApply {z0 s : State} {n : Nat} (hz : Keeps z0 s)  : Keeps z0 (Machine.lmsApply n s) := by
  unfold Machine.lmsApply
  try lift_lets
  repeat' first
    | with_reducible assumption
    | (intro x; with_reducible refine Keeps.cut (o := z0) x ?_ ?_; dsimp only [x]; rotate_left; try clear_value x)
    | (intro x; try clear_value x)
    | with_reducible apply Keeps.ite
    | with_reducible apply Keeps.ite1
    | with_reducible apply Keeps.forN
    | with_reducible apply Keeps.lmsEnd
    | with_reducible apply Keeps.applyTap
    | with_reducible apply Keeps.applyLevel
    | with_reducible apply Keeps.set

theorem Keeps.tapsApply {z0 s : State} {n : Nat} (hz : Keeps z0 s)  : Keeps z0 (Machine.tapsApply n s) := by
  unfold Machine.tapsApply
  try lift_lets
  repeat' first
    | with_reducible assumption
    | (intro x; with_reducible refine Keeps.cut (o := z0) x ?_ ?_; dsimp only [x]; rotate_left; try clear_value x)
    | (intro x; try clear_value x)
    | with_reducible apply Keeps.foldl
    | with_reducible apply Keeps.foldl1
    | with_reducible apply Keeps.updDet
    | with_reducible apply Keeps.set
    | ((first | rw [patch_eq] | skip); (with_reducible refine Keeps.patch ?_ ?_ ?_); rotate_left; (first | exact CelKeeps.refl _ | exact ⟨fun _ h => h, Nat.le_refl _⟩ | exact ⟨fun _ h => h, Nat.le_succ _⟩); (refine fun g => ?_; first | exact g | simpa only [SizesOk, Machine.patch, upd_length] using g | (simp only [SizesOk, Machine.patch, upd_length, List.length_map, List.length_replicate, true_and] at g ⊢; tauto)))

theorem Keeps.detCfgApply {z0 s : State} {n : Nat} (hz : Keeps z0 s)  : Keeps z0 (Machine.detCfgApply n s) := by
  unfold Machine.detCfgApply
  repeat' first
    | with_reducible assumption
    | with_reducible apply Keeps.updDet
    | ((first | rw [patch_eq] | skip); (with_reducible refine Keeps.patch ?_ ?_ ?_); rotate_left; (first | exact CelKeeps.refl _ | exact ⟨fun _ h => h, Nat.le_refl _⟩ | exact ⟨fun _ h => h, Nat.le_succ _⟩); (refine fun g => ?_; first | exact g | simpa only [SizesOk, Machine.patch, upd_length] using g | (simp only [SizesOk, Machine.patch, upd_length, List.length_map, List.length_replicate, true_and] at g ⊢; tauto)))

theorem Keeps.detCmdApply {z0 s : State} {n : Nat} (hz : Keeps z0 s)  : Keeps z0 (Machine.detCmdApply n s) := by
  unfold Machine.detCmdApply
  repeat' first
    | with_reducible assumption
    | with_reducible apply Keeps.setDet
    | with_reducible apply Keeps.detCmdEnd
    | (fail_if_no_progress dsimp -zeta only)
    | split

theorem Keeps.boundaryTaps {z0 s : State} {n : Nat} (hz : Keeps z0 s)  : Keeps z0 (Machine.boundaryTaps n s) := by
  unfold Machine.boundaryTaps
  repeat' first
    | with_reducible assumption
    | with_reducible apply Keeps.swapApply
    | with_reducible apply Keeps.lmsApply
    | with_reducible apply Keeps.tapsApply

theorem Keeps.giveBits {z0 s : State} {n : Nat} {l : List (Bool × Nat)} (hz : Keeps z0 s)  : Keeps z0 (Machine.giveBits n l s) := by
  unfold Machine.giveBits
  try lift_lets
  repeat' first
    | with_reducible assumption
    | (intro x; try clear_value x)
    | with_reducible apply Keeps.ite
    | with_reducible apply Keeps.ite1
    | with_reducible apply Keeps.updFrm
    | ((first | rw [patch_eq] | skip); (with_reducible refine Keeps.patch ?_ ?_ ?_); rotate_left; (first | exact CelKeeps.refl _ | exact ⟨fun _ h => h, Nat.le_refl _⟩ | exact ⟨fun _ h => h, Nat.le_succ _⟩); (refine fun g => ?_; first | exact g | simpa only [SizesOk, Machine.patch, upd_length] using g | (simp only [SizesOk, Machine.patch, upd_length, List.length_map, List.length_replicate, true_and] at g ⊢; tauto)))

theorem Keeps.keepTail {z0 s : State} {n : Nat} {v : View} (hz : Keeps z0 s)  : Keeps z0 (Machine.keepTail n v s) := by
  unfold Machine.keepTail
  try lift_lets
  repeat' first
    | with_reducible assumption
    | (intro x; try clear_value x)
    | with_reducible apply Keeps.updDet
    | ((first | rw [patch_eq] | skip); (with_reducible refine Keeps.patch ?_ ?_ ?_); rotate_left; (first | exact CelKeeps.refl _ | exact ⟨fun _ h => h, Nat.le_refl _⟩ | exact ⟨fun _ h => h, Nat.le_succ _⟩); (refine fun g => ?_; first | exact g | simpa only [SizesOk, Machine.patch, upd_length] using g | (simp only [SizesOk, Machine.patch, upd_length, List.length_map, List.length_replicate, true_and] at g ⊢; tauto)))

theorem Keeps.blockStep {z0 s : State} {n : Nat} {o : BlockObs} (hz : Keeps z0 s)  : Keeps z0 (Machine.blockStep n o s) := by
  unfold Machine.blockStep
  try lift_lets
  repeat' first
    | with_reducible assumption
    | (intro x; with_reducible refine Keeps.cut (o := z0) x ?_ ?_; dsimp only [x]; rotate_left; try clear_value x)
    | (intro x; try clear_value x)
    | with_reducible apply Keeps.ite
    | with_reducible apply Keeps.ite1
    | with_reducible apply Keeps.forN
    | with_reducible apply Keeps.updDet
    | with_reducible apply Keeps.detLost
    | with_reducible apply Keeps.lmsSample
    | with_reducible apply Keeps.lmsStart
    | with_reducible apply Keeps.histSample
    | with_reducible apply Keeps.histStart
    | with_reducible apply Keeps.timingStep
    | with_reducible apply Keeps.detCfgApply
    | with_reducible apply Keeps.detCmdApply
    | with_reducible apply Keeps.boundaryTaps
    | ((first | rw [patch_eq] | skip); (with_reducible refine Keeps.patch ?_ ?_ ?_); rotate_left; (first | exact CelKeeps.refl _ | exact ⟨fun _ h => h, Nat.le_refl _⟩ | exact ⟨fun _ h => h, Nat.le_succ _⟩); (refine fun g => ?_; first | exact g | simpa only [SizesOk, Machine.patch, upd_length] using g | (simp only [SizesOk, Machine.patch, upd_length, List.length_map, List.length_replicate, true_and] at g ⊢; tauto)))

theorem Keeps.blockBoundary {z0 s : State} {n : Nat} {codes : List Int} {look : List Int} (hz : Keeps z0 s)  : Keeps z0 (Machine.blockBoundary n codes look s) := by
  unfold Machine.blockBoundary
  try lift_lets
  repeat' first
    | with_reducible assumption
    | (intro x; try clear_value x)
    | with_reducible apply Keeps.ite
    | with_reducible apply Keeps.ite1
    | with_reducible apply Keeps.detCfgApply
    | with_reducible apply Keeps.boundaryTaps
    | with_reducible apply Keeps.giveBits
    | with_reducible apply Keeps.keepTail
    | with_reducible apply Keeps.blockStep

theorem Keeps.lockJudge {z0 s : State} {n : Nat} {met : Bool} (hz : Keeps z0 s)  : Keeps z0 (Machine.lockJudge n met s) := by
  unfold Machine.lockJudge
  repeat' first
    | with_reducible assumption
    | with_reducible apply Keeps.ite
    | with_reducible apply Keeps.ite1
    | with_reducible apply Keeps.setDet
    | with_reducible apply Keeps.detCmdEnd

theorem Keeps.monitorWindowEnd {z0 s : State} {n : Nat} (hz : Keeps z0 s)  : Keeps z0 (Machine.monitorWindowEnd n s) := by
  unfold Machine.monitorWindowEnd
  try lift_lets
  repeat' first
    | with_reducible assumption
    | (intro x; with_reducible refine Keeps.cut (o := z0) x ?_ ?_; dsimp only [x]; rotate_left; try clear_value x)
    | (intro x; try clear_value x)
    | with_reducible apply Keeps.ite
    | with_reducible apply Keeps.ite1
    | with_reducible apply Keeps.updDet
    | with_reducible apply Keeps.detEvt
    | with_reducible apply Keeps.detLost
    | with_reducible apply Keeps.lockJudge
    | with_reducible apply Keeps.set
    | with_reducible apply Keeps.incMod
    | ((first | rw [patch_eq] | skip); (with_reducible refine Keeps.patch ?_ ?_ ?_); rotate_left; (first | exact CelKeeps.refl _ | exact ⟨fun _ h => h, Nat.le_refl _⟩ | exact ⟨fun _ h => h, Nat.le_succ _⟩); (refine fun g => ?_; first | exact g | simpa only [SizesOk, Machine.patch, upd_length] using g | (simp only [SizesOk, Machine.patch, upd_length, List.length_map, List.length_replicate, true_and] at g ⊢; tauto)))

theorem Keeps.detNow {z0 s : State} {n : Nat} {op : Nat} {c : Code} (hz : Keeps z0 s)  : Keeps z0 (Machine.detNow n op c s) := by
  unfold Machine.detNow
  repeat' first
    | with_reducible assumption
    | with_reducible apply Keeps.detReport
    | with_reducible apply Keeps.ret

theorem Keeps.detHold {z0 s : State} {n : Nat} {op : Nat} (hz : Keeps z0 s)  : Keeps z0 (Machine.detHold n op s) := by
  unfold Machine.detHold
  try lift_lets
  repeat' first
    | with_reducible assumption
    | (intro x; with_reducible refine Keeps.cut (o := z0) x ?_ ?_; dsimp only [x]; rotate_left; try clear_value x)
    | (intro x; try clear_value x)
    | with_reducible apply Keeps.updDet
    | with_reducible apply Keeps.set
    | with_reducible apply Keeps.ret
    | ((first | rw [patch_eq] | skip); (with_reducible refine Keeps.patch ?_ ?_ ?_); rotate_left; (first | exact CelKeeps.refl _ | exact ⟨fun _ h => h, Nat.le_refl _⟩ | exact ⟨fun _ h => h, Nat.le_succ _⟩); (refine fun g => ?_; first | exact g | simpa only [SizesOk, Machine.patch, upd_length] using g | (simp only [SizesOk, Machine.patch, upd_length, List.length_map, List.length_replicate, true_and] at g ⊢; tauto)))

theorem Keeps.detAcquire {z0 s : State} {n : Nat} (hz : Keeps z0 s)  : Keeps z0 (Machine.detAcquire n s) := by
  unfold Machine.detAcquire
  repeat' first
    | with_reducible assumption
    | with_reducible apply Keeps.ite
    | with_reducible apply Keeps.ite1
    | with_reducible apply Keeps.detNow
    | with_reducible apply Keeps.detHold
    | (fail_if_no_progress dsimp -zeta only)
    | split

theorem Keeps.detDetect {z0 s : State} {n : Nat} (hz : Keeps z0 s)  : Keeps z0 (Machine.detDetect n s) := by
  unfold Machine.detDetect
  repeat' first
    | with_reducible assumption
    | with_reducible apply Keeps.ite
    | with_reducible apply Keeps.ite1
    | with_reducible apply Keeps.detNow
    | with_reducible apply Keeps.detHold
    | (fail_if_no_progress dsimp -zeta only)
    | split

theorem Keeps.detLock {z0 s : State} {n : Nat} (hz : Keeps z0 s)  : Keeps z0 (Machine.detLock n s) := by
  unfold Machine.detLock
  repeat' first
    | with_reducible assumption
    | with_reducible apply Keeps.ite
    | with_reducible apply Keeps.ite1
    | with_reducible apply Keeps.setDet
    | with_reducible apply Keeps.detNow
    | with_reducible apply Keeps.detHold
    | (fail_if_no_progress dsimp -zeta only)
    | split

theorem Keeps.detDrop {z0 s : State} {n : Nat} (hz : Keeps z0 s)  : Keeps z0 (Machine.detDrop n s) := by
  unfold Machine.detDrop
  repeat' first
    | with_reducible assumption
    | with_reducible apply Keeps.ite
    | with_reducible apply Keeps.ite1
    | with_reducible apply Keeps.setDet
    | with_reducible apply Keeps.detNow
    | (fail_if_no_progress dsimp -zeta only)
    | split

theorem Keeps.wrDetCmd {z0 s : State} {n : Nat} {w : Word} (hz : Keeps z0 s)  : Keeps z0 (Machine.wrDetCmd n w s) := by
  unfold Machine.wrDetCmd
  repeat' first
    | with_reducible assumption
    | with_reducible apply Keeps.detNow
    | with_reducible apply Keeps.detAcquire
    | with_reducible apply Keeps.detDetect
    | with_reducible apply Keeps.detLock
    | with_reducible apply Keeps.detDrop
    | (fail_if_no_progress dsimp -zeta only)
    | split

theorem Keeps.wrDetCtrl {z0 s : State} {n : Nat} {w : Word} (hz : Keeps z0 s)  : Keeps z0 (Machine.wrDetCtrl n w s) := by
  unfold Machine.wrDetCtrl
  try lift_lets
  repeat' first
    | with_reducible assumption
    | (intro x; with_reducible refine Keeps.cut (o := z0) x ?_ ?_; dsimp only [x]; rotate_left; try clear_value x)
    | (intro x; try clear_value x)
    | with_reducible apply Keeps.ite
    | with_reducible apply Keeps.ite1
    | with_reducible apply Keeps.detOff
    | with_reducible apply Keeps.detStart
    | with_reducible apply Keeps.reduceEval
    | with_reducible apply Keeps.store
    | with_reducible apply Keeps.ret

theorem Keeps.wrEqCtrl {z0 s : State} {n : Nat} {w : Word} (hz : Keeps z0 s)  : Keeps z0 (Machine.wrEqCtrl n w s) := by
  unfold Machine.wrEqCtrl
  try lift_lets
  repeat' first
    | with_reducible assumption
    | (intro x; try clear_value x)
    | with_reducible apply Keeps.ite
    | with_reducible apply Keeps.ite1
    | with_reducible apply Keeps.plainWrite
    | with_reducible apply Keeps.ret

theorem Keeps.wrEqTap {z0 s : State} {n : Nat} {k : Nat} {w : Word} (hz : Keeps z0 s)  : Keeps z0 (Machine.wrEqTap n k w s) := by
  unfold Machine.wrEqTap
  try lift_lets
  repeat' first
    | with_reducible assumption
    | (intro x; with_reducible refine Keeps.cut (o := z0) x ?_ ?_; dsimp only [x]; rotate_left; try clear_value x)
    | (intro x; try clear_value x)
    | with_reducible apply Keeps.ite
    | with_reducible apply Keeps.ite1
    | with_reducible apply Keeps.updDet
    | with_reducible apply Keeps.store
    | with_reducible apply Keeps.ret
    | ((first | rw [patch_eq] | skip); (with_reducible refine Keeps.patch ?_ ?_ ?_); rotate_left; (first | exact CelKeeps.refl _ | exact ⟨fun _ h => h, Nat.le_refl _⟩ | exact ⟨fun _ h => h, Nat.le_succ _⟩); (refine fun g => ?_; first | exact g | simpa only [SizesOk, Machine.patch, upd_length] using g | (simp only [SizesOk, Machine.patch, upd_length, List.length_map, List.length_replicate, true_and] at g ⊢; tauto)))

theorem Keeps.wrTrCtrl {z0 s : State} {n : Nat} {w : Word} (hz : Keeps z0 s)  : Keeps z0 (Machine.wrTrCtrl n w s) := by
  unfold Machine.wrTrCtrl
  try lift_lets
  repeat' first
    | with_reducible assumption
    | (intro x; try clear_value x)
    | with_reducible apply Keeps.ite
    | with_reducible apply Keeps.ite1
    | with_reducible apply Keeps.plainWrite
    | with_reducible apply Keeps.ret

theorem Keeps.wrTrPhase {z0 s : State} {n : Nat} {w : Word} (hz : Keeps z0 s)  : Keeps z0 (Machine.wrTrPhase n w s) := by
  unfold Machine.wrTrPhase
  repeat' first
    | with_reducible assumption
    | with_reducible apply Keeps.ite
    | with_reducible apply Keeps.ite1
    | with_reducible apply Keeps.plainWrite
    | with_reducible apply Keeps.ret

theorem Keeps.wrTrFreq {z0 s : State} {n : Nat} {w : Word} (hz : Keeps z0 s)  : Keeps z0 (Machine.wrTrFreq n w s) := by
  unfold Machine.wrTrFreq
  try lift_lets
  repeat' first
    | with_reducible assumption
    | (intro x; try clear_value x)
    | with_reducible apply Keeps.ite
    | with_reducible apply Keeps.ite1
    | with_reducible apply Keeps.updDet
    | with_reducible apply Keeps.store
    | with_reducible apply Keeps.ret
    | ((first | rw [patch_eq] | skip); (with_reducible refine Keeps.patch ?_ ?_ ?_); rotate_left; (first | exact CelKeeps.refl _ | exact ⟨fun _ h => h, Nat.le_refl _⟩ | exact ⟨fun _ h => h, Nat.le_succ _⟩); (refine fun g => ?_; first | exact g | simpa only [SizesOk, Machine.patch, upd_length] using g | (simp only [SizesOk, Machine.patch, upd_length, List.length_map, List.length_replicate, true_and] at g ⊢; tauto)))

theorem Keeps.wrLevel {z0 s : State} {n : Nat} {b : Nat} {i : Nat} {w : Word} (hz : Keeps z0 s)  : Keeps z0 (Machine.wrLevel n b i w s) := by
  unfold Machine.wrLevel
  try lift_lets
  repeat' first
    | with_reducible assumption
    | (intro x; try clear_value x)
    | with_reducible apply Keeps.ite
    | with_reducible apply Keeps.ite1
    | with_reducible apply Keeps.plainWrite
    | with_reducible apply Keeps.ret

theorem Keeps.wrTrlCommit {z0 s : State} {n : Nat} {w : Word} (hz : Keeps z0 s)  : Keeps z0 (Machine.wrTrlCommit n w s) := by
  unfold Machine.wrTrlCommit
  repeat' first
    | with_reducible assumption
    | with_reducible apply Keeps.ite
    | with_reducible apply Keeps.ite1
    | with_reducible apply Keeps.detEvt
    | with_reducible apply Keeps.set
    | with_reducible apply Keeps.ret

theorem Keeps.wrLmsCfg {z0 s : State} {n : Nat} {u : Nat} {w : Word} (hz : Keeps z0 s)  : Keeps z0 (Machine.wrLmsCfg n u w s) := by
  unfold Machine.wrLmsCfg
  try lift_lets
  repeat' first
    | with_reducible assumption
    | (intro x; with_reducible refine Keeps.cut (o := z0) x ?_ ?_; dsimp only [x]; rotate_left; try clear_value x)
    | (intro x; try clear_value x)
    | with_reducible apply Keeps.ite
    | with_reducible apply Keeps.ite1
    | with_reducible apply Keeps.updLms
    | with_reducible apply Keeps.store
    | with_reducible apply Keeps.ret
    | ((first | rw [patch_eq] | skip); (with_reducible refine Keeps.patch ?_ ?_ ?_); rotate_left; (first | exact CelKeeps.refl _ | exact ⟨fun _ h => h, Nat.le_refl _⟩ | exact ⟨fun _ h => h, Nat.le_succ _⟩); (refine fun g => ?_; first | exact g | simpa only [SizesOk, Machine.patch, upd_length] using g | (simp only [SizesOk, Machine.patch, upd_length, List.length_map, List.length_replicate, true_and] at g ⊢; tauto)))

theorem Keeps.lmsNow {z0 s : State} {n : Nat} {u : Nat} {op : Nat} {c : Code} (hz : Keeps z0 s)  : Keeps z0 (Machine.lmsNow n u op c s) := by
  unfold Machine.lmsNow
  repeat' first
    | with_reducible assumption
    | with_reducible apply Keeps.lmsReport
    | with_reducible apply Keeps.ret

theorem Keeps.lmsHold {z0 s : State} {n : Nat} {u : Nat} {op : Nat} {ph : Nat} {mu : Nat} (hz : Keeps z0 s)  : Keeps z0 (Machine.lmsHold n u op ph mu s) := by
  unfold Machine.lmsHold
  try lift_lets
  repeat' first
    | with_reducible assumption
    | (intro x; with_reducible refine Keeps.cut (o := z0) x ?_ ?_; dsimp only [x]; rotate_left; try clear_value x)
    | (intro x; try clear_value x)
    | with_reducible apply Keeps.updLms
    | with_reducible apply Keeps.set
    | with_reducible apply Keeps.ret
    | ((first | rw [patch_eq] | skip); (with_reducible refine Keeps.patch ?_ ?_ ?_); rotate_left; (first | exact CelKeeps.refl _ | exact ⟨fun _ h => h, Nat.le_refl _⟩ | exact ⟨fun _ h => h, Nat.le_succ _⟩); (refine fun g => ?_; first | exact g | simpa only [SizesOk, Machine.patch, upd_length] using g | (simp only [SizesOk, Machine.patch, upd_length, List.length_map, List.length_replicate, true_and] at g ⊢; tauto)))

theorem Keeps.lmsAccum {z0 s : State} {n : Nat} {u : Nat} (hz : Keeps z0 s)  : Keeps z0 (Machine.lmsAccum n u s) := by
  unfold Machine.lmsAccum
  try lift_lets
  repeat' first
    | with_reducible assumption
    | with_reducible apply Keeps.ite2
    | (intro x; try clear_value x)
    | with_reducible apply Keeps.ite
    | with_reducible apply Keeps.ite1
    | with_reducible apply Keeps.lmsNow
    | with_reducible apply Keeps.lmsHold

theorem Keeps.lmsApplyCmd {z0 s : State} {n : Nat} {u : Nat} {mu : Nat} (hz : Keeps z0 s)  : Keeps z0 (Machine.lmsApplyCmd n u mu s) := by
  unfold Machine.lmsApplyCmd
  try lift_lets
  repeat' first
    | with_reducible assumption
    | with_reducible apply Keeps.ite2
    | (intro x; try clear_value x)
    | with_reducible apply Keeps.ite
    | with_reducible apply Keeps.ite1
    | with_reducible apply Keeps.lmsNow
    | with_reducible apply Keeps.lmsHold

theorem Keeps.wrLmsCmd {z0 s : State} {n : Nat} {u : Nat} {w : Word} (hz : Keeps z0 s)  : Keeps z0 (Machine.wrLmsCmd n u w s) := by
  unfold Machine.wrLmsCmd
  repeat' first
    | with_reducible assumption
    | with_reducible apply Keeps.lmsNow
    | with_reducible apply Keeps.lmsAccum
    | with_reducible apply Keeps.lmsApplyCmd
    | (fail_if_no_progress dsimp -zeta only)
    | split

theorem Keeps.lmsAccumDone {z0 s : State} {n : Nat} {u : Nat} (hz : Keeps z0 s)  : Keeps z0 (Machine.lmsAccumDone n u s) := by
  unfold Machine.lmsAccumDone
  try lift_lets
  repeat' first
    | with_reducible assumption
    | (intro x; try clear_value x)
    | with_reducible apply Keeps.ite
    | with_reducible apply Keeps.ite1
    | with_reducible apply Keeps.accumEnd

theorem Keeps.wrHistCtrl {z0 s : State} {n : Nat} {w : Word} (hz : Keeps z0 s)  : Keeps z0 (Machine.wrHistCtrl n w s) := by
  unfold Machine.wrHistCtrl
  try lift_lets
  repeat' first
    | with_reducible assumption
    | (intro x; with_reducible refine Keeps.cut (o := z0) x ?_ ?_; dsimp only [x]; rotate_left; try clear_value x)
    | (intro x; try clear_value x)
    | with_reducible apply Keeps.ite
    | with_reducible apply Keeps.ite1
    | with_reducible apply Keeps.updDet
    | with_reducible apply Keeps.set
    | with_reducible apply Keeps.store
    | with_reducible apply Keeps.ret
    | ((first | rw [patch_eq] | skip); (with_reducible refine Keeps.patch ?_ ?_ ?_); rotate_left; (first | exact CelKeeps.refl _ | exact ⟨fun _ h => h, Nat.le_refl _⟩ | exact ⟨fun _ h => h, Nat.le_succ _⟩); (refine fun g => ?_; first | exact g | simpa only [SizesOk, Machine.patch, upd_length] using g | (simp only [SizesOk, Machine.patch, upd_length, List.length_map, List.length_replicate, true_and] at g ⊢; tauto)))

theorem Keeps.histDone {z0 s : State} {n : Nat} (hz : Keeps z0 s)  : Keeps z0 (Machine.histDone n s) := by
  unfold Machine.histDone
  try lift_lets
  repeat' first
    | with_reducible assumption
    | (intro x; try clear_value x)
    | with_reducible apply Keeps.ite
    | with_reducible apply Keeps.ite1
    | with_reducible apply Keeps.updDet
    | with_reducible apply Keeps.detEvt
    | with_reducible apply Keeps.set
    | ((first | rw [patch_eq] | skip); (with_reducible refine Keeps.patch ?_ ?_ ?_); rotate_left; (first | exact CelKeeps.refl _ | exact ⟨fun _ h => h, Nat.le_refl _⟩ | exact ⟨fun _ h => h, Nat.le_succ _⟩); (refine fun g => ?_; first | exact g | simpa only [SizesOk, Machine.patch, upd_length] using g | (simp only [SizesOk, Machine.patch, upd_length, List.length_map, List.length_replicate, true_and] at g ⊢; tauto)))

theorem Keeps.resetDet {z0 s : State} {n : Nat} (hz : Keeps z0 s)  : Keeps z0 (Machine.resetDet n s) := by
  unfold Machine.resetDet
  repeat' first
    | with_reducible assumption
    | with_reducible apply Keeps.updDet

theorem Keeps.execFgCalDone {s z : State} {n : Fin 8} {est : List SliceEst} {failed : List Nat} (e : Machine.execFgCalDone n est failed s = .next z) : Keeps s z := by
  have hz := Keeps.refl s
  revert e
  unfold Machine.execFgCalDone
  first
    | (intro e; injection e with e; subst e; (repeat' first
         | with_reducible assumption
         | with_reducible apply Keeps.fgCalDone
         | with_reducible apply Keeps.detStart
         ); done)

theorem Keeps.execBlockBoundary {s z : State} {n : Fin 8} {codes : List Int} {look : List Int} (e : Machine.execBlockBoundary n codes look s = .next z) : Keeps s z := by
  have hz := Keeps.refl s
  revert e
  unfold Machine.execBlockBoundary
  first
    | (intro e; injection e with e; subst e; (repeat' first
         | with_reducible assumption
         | with_reducible apply Keeps.blockBoundary
         ); done)

theorem Keeps.execMonitorWindowEnd {s z : State} {n : Fin 8} (e : Machine.execMonitorWindowEnd n s = .next z) : Keeps s z := by
  have hz := Keeps.refl s
  revert e
  unfold Machine.execMonitorWindowEnd
  first
    | (intro e; injection e with e; subst e; (repeat' first
         | with_reducible assumption
         | with_reducible apply Keeps.monitorWindowEnd
         ); done)

theorem Keeps.execDetEnable {s z : State} {q : Rq} {n : Fin 8} {w : Word} (e : Machine.execDetEnable q n w s = .next z) : Keeps s z := by
  have hz := Keeps.refl s
  revert e
  unfold Machine.execDetEnable
  first
    | (intro e; injection e with e; subst e; (repeat' first
         | with_reducible assumption
         | (intro x; try clear_value x)
         | with_reducible apply Keeps.gated
         | with_reducible apply Keeps.wrDetCtrl
         ); done)

theorem Keeps.execDetDisable {s z : State} {q : Rq} {n : Fin 8} {w : Word} (e : Machine.execDetDisable q n w s = .next z) : Keeps s z := by
  have hz := Keeps.refl s
  revert e
  unfold Machine.execDetDisable
  first
    | (intro e; injection e with e; subst e; (repeat' first
         | with_reducible assumption
         | (intro x; try clear_value x)
         | with_reducible apply Keeps.gated
         | with_reducible apply Keeps.wrDetCtrl
         ); done)

theorem Keeps.execDetAcquire {s z : State} {q : Rq} {n : Fin 8} (e : Machine.execDetAcquire q n s = .next z) : Keeps s z := by
  have hz := Keeps.refl s
  revert e
  unfold Machine.execDetAcquire
  first
    | (intro e; injection e with e; subst e; (repeat' first
         | with_reducible assumption
         | (intro x; try clear_value x)
         | with_reducible apply Keeps.gated
         | with_reducible apply Keeps.detAcquire
         ); done)

theorem Keeps.execDetDetect {s z : State} {q : Rq} {n : Fin 8} (e : Machine.execDetDetect q n s = .next z) : Keeps s z := by
  have hz := Keeps.refl s
  revert e
  unfold Machine.execDetDetect
  first
    | (intro e; injection e with e; subst e; (repeat' first
         | with_reducible assumption
         | (intro x; try clear_value x)
         | with_reducible apply Keeps.gated
         | with_reducible apply Keeps.detDetect
         ); done)

theorem Keeps.execDetLock {s z : State} {q : Rq} {n : Fin 8} (e : Machine.execDetLock q n s = .next z) : Keeps s z := by
  have hz := Keeps.refl s
  revert e
  unfold Machine.execDetLock
  first
    | (intro e; injection e with e; subst e; (repeat' first
         | with_reducible assumption
         | (intro x; try clear_value x)
         | with_reducible apply Keeps.gated
         | with_reducible apply Keeps.detLock
         ); done)

theorem Keeps.execDetDrop {s z : State} {q : Rq} {n : Fin 8} (e : Machine.execDetDrop q n s = .next z) : Keeps s z := by
  have hz := Keeps.refl s
  revert e
  unfold Machine.execDetDrop
  first
    | (intro e; injection e with e; subst e; (repeat' first
         | with_reducible assumption
         | (intro x; try clear_value x)
         | with_reducible apply Keeps.gated
         | with_reducible apply Keeps.detDrop
         ); done)

theorem Keeps.execLmsAccum {s z : State} {q : Rq} {n : Fin 8} {u : Fin 4} (e : Machine.execLmsAccum q n u s = .next z) : Keeps s z := by
  have hz := Keeps.refl s
  revert e
  unfold Machine.execLmsAccum
  first
    | (intro e; injection e with e; subst e; (repeat' first
         | with_reducible assumption
         | (intro x; try clear_value x)
         | with_reducible apply Keeps.gated
         | with_reducible apply Keeps.lmsAccum
         ); done)

theorem Keeps.execLmsAccumDone {s z : State} {n : Fin 8} {u : Fin 4} (e : Machine.execLmsAccumDone n u s = .next z) : Keeps s z := by
  have hz := Keeps.refl s
  revert e
  unfold Machine.execLmsAccumDone
  first
    | (intro e; injection e with e; subst e; (repeat' first
         | with_reducible assumption
         | with_reducible apply Keeps.lmsAccumDone
         ); done)

theorem Keeps.execLmsApply {s z : State} {q : Rq} {n : Fin 8} {u : Fin 4} {mu : Fin 16} (e : Machine.execLmsApply q n u mu s = .next z) : Keeps s z := by
  have hz := Keeps.refl s
  revert e
  unfold Machine.execLmsApply
  first
    | (intro e; injection e with e; subst e; (repeat' first
         | with_reducible assumption
         | (intro x; try clear_value x)
         | with_reducible apply Keeps.gated
         | with_reducible apply Keeps.lmsApplyCmd
         ); done)

theorem Keeps.execEqTapWrite {s z : State} {q : Rq} {n : Fin 8} {k : Fin 48} {w : Word} (e : Machine.execEqTapWrite q n k w s = .next z) : Keeps s z := by
  have hz := Keeps.refl s
  revert e
  unfold Machine.execEqTapWrite
  first
    | (intro e; injection e with e; subst e; (repeat' first
         | with_reducible assumption
         | (intro x; try clear_value x)
         | with_reducible apply Keeps.gated
         | with_reducible apply Keeps.wrEqTap
         ); done)

theorem Keeps.execLevelSwap {s z : State} {q : Rq} {n : Fin 8} (e : Machine.execLevelSwap q n s = .next z) : Keeps s z := by
  have hz := Keeps.refl s
  revert e
  unfold Machine.execLevelSwap
  first
    | (intro e; injection e with e; subst e; (repeat' first
         | with_reducible assumption
         | (intro x; try clear_value x)
         | with_reducible apply Keeps.gated
         | with_reducible apply Keeps.wrTrlCommit
         ); done)

theorem Keeps.execHistRun {s z : State} {q : Rq} {n : Fin 8} {w : Word} (e : Machine.execHistRun q n w s = .next z) : Keeps s z := by
  have hz := Keeps.refl s
  revert e
  unfold Machine.execHistRun
  first
    | (intro e; injection e with e; subst e; (repeat' first
         | with_reducible assumption
         | (intro x; try clear_value x)
         | with_reducible apply Keeps.gated
         | with_reducible apply Keeps.wrHistCtrl
         ); done)

theorem Keeps.execHistDone {s z : State} {n : Fin 8} (e : Machine.execHistDone n s = .next z) : Keeps s z := by
  have hz := Keeps.refl s
  revert e
  unfold Machine.execHistDone
  first
    | (intro e; injection e with e; subst e; (repeat' first
         | with_reducible assumption
         | with_reducible apply Keeps.histDone
         ); done)

end Sys2Proof.Machine
end

