-- ==== Sys2Proof/Laws/KeepSto.lean ====
section
/-! SUPPORT. What the operations of Sto.lean keep. -/

set_option linter.all false

namespace Sys2Proof.Machine

theorem Keeps.updSto {z0 s : State} {f : Sto → Sto} (hz : Keeps z0 s)  : Keeps z0 (Machine.updSto f s) := by
  unfold Machine.updSto
  exact Keeps.upd hz rfl rfl rfl rfl rfl (CelKeeps.refl _) rfl (fun g => by simp_all [SizesOk])

theorem Keeps.stoFinal {z0 s : State} {c : Code} {reason : Nat} (hz : Keeps z0 s)  : Keeps z0 (Machine.stoFinal c reason s) := by
  unfold Machine.stoFinal
  repeat' first
    | with_reducible assumption
    | (intro x; with_reducible refine Keeps.cut (o := z0) x ?_ ?_; dsimp only [x]; rotate_left; try clear_value x)
    | (intro x; with_reducible refine Keeps.cut1 (o := z0) x ?_ ?_; dsimp only [x]; rotate_left; try clear_value x)
    | (intro x; with_reducible refine Keeps.cutF x ?_; try dsimp only [x])
    | (intro x; try clear_value x)
    | with_reducible apply Keeps.raise
    | with_reducible apply Keeps.set
    | (fail_if_no_progress dsimp -zeta only)
    | split

theorem Keeps.stoSend {z0 s : State} {l : List (Nat × Nat)} (hz : Keeps z0 s)  : Keeps z0 (Machine.stoSend l s) :=
  Keeps.updSto hz

theorem Keeps.stoEnd {z0 s : State} {c : Code} {reason : Nat} (hz : Keeps z0 s)  : Keeps z0 (Machine.stoEnd c reason s) := by
  unfold Machine.stoEnd
  repeat' first
    | with_reducible assumption
    | (intro x; with_reducible refine Keeps.cut (o := z0) x ?_ ?_; dsimp only [x]; rotate_left; try clear_value x)
    | (intro x; with_reducible refine Keeps.cut1 (o := z0) x ?_ ?_; dsimp only [x]; rotate_left; try clear_value x)
    | (intro x; with_reducible refine Keeps.cutF x ?_; try dsimp only [x])
    | (intro x; try clear_value x)
    | with_reducible apply Keeps.updSto
    | with_reducible apply Keeps.stoFinal
    | ((first | rw [patch_eq] | skip); (with_reducible refine Keeps.patch ?_ ?_ ?_); rotate_left; (first | exact CelKeeps.refl _ | exact ⟨fun _ h => h, Nat.le_refl _⟩ | exact ⟨fun _ h => h, Nat.le_succ _⟩); (refine fun g => ?_; first | exact g | simpa only [SizesOk, Machine.patch, upd_length] using g | (simp only [SizesOk, Machine.patch, upd_length, List.length_map, List.length_replicate, true_and] at g ⊢; tauto)))
    | (fail_if_no_progress dsimp -zeta only)
    | split

theorem Keeps.stoNow {z0 s : State} {c : Code} (hz : Keeps z0 s)  : Keeps z0 (Machine.stoNow c s) := by
  unfold Machine.stoNow
  repeat' first
    | with_reducible assumption
    | (intro x; with_reducible refine Keeps.cut (o := z0) x ?_ ?_; dsimp only [x]; rotate_left; try clear_value x)
    | (intro x; with_reducible refine Keeps.cut1 (o := z0) x ?_ ?_; dsimp only [x]; rotate_left; try clear_value x)
    | (intro x; with_reducible refine Keeps.cutF x ?_; try dsimp only [x])
    | (intro x; try clear_value x)
    | with_reducible apply Keeps.stoFinal
    | with_reducible apply Keeps.set
    | with_reducible apply Keeps.ret
    | (fail_if_no_progress dsimp -zeta only)
    | split

theorem Keeps.stoStart {z0 s : State} {op : Nat} {w : Word} (hz : Keeps z0 s)  : Keeps z0 (Machine.stoStart op w s) := by
  unfold Machine.stoStart
  try lift_lets
  repeat' first
    | with_reducible assumption
    | (intro x; with_reducible refine Keeps.cut (o := z0) x ?_ ?_; dsimp only [x]; rotate_left; try clear_value x)
    | (intro x; try clear_value x)
    | with_reducible apply Keeps.updSto
    | with_reducible apply Keeps.set
    | with_reducible apply Keeps.ret
    | ((first | rw [patch_eq] | skip); (with_reducible refine Keeps.patch ?_ ?_ ?_); rotate_left; (first | exact CelKeeps.refl _ | exact ⟨fun _ h => h, Nat.le_refl _⟩ | exact ⟨fun _ h => h, Nat.le_succ _⟩); (refine fun g => ?_; first | exact g | simpa only [SizesOk, Machine.patch, upd_length] using g | (simp only [SizesOk, Machine.patch, upd_length, List.length_map, List.length_replicate, true_and] at g ⊢; tauto)))

theorem Keeps.wrStoCmd {z0 s : State} {w : Word} (hz : Keeps z0 s)  : Keeps z0 (Machine.wrStoCmd w s) := by
  unfold Machine.wrStoCmd
  try lift_lets
  repeat' first
    | with_reducible assumption
    | (intro x; try clear_value x)
    | with_reducible apply Keeps.ite
    | with_reducible apply Keeps.ite1
    | with_reducible apply Keeps.updSto
    | with_reducible apply Keeps.stoNow
    | with_reducible apply Keeps.stoStart
    | with_reducible apply Keeps.ret
    | ((first | rw [patch_eq] | skip); (with_reducible refine Keeps.patch ?_ ?_ ?_); rotate_left; (first | exact CelKeeps.refl _ | exact ⟨fun _ h => h, Nat.le_refl _⟩ | exact ⟨fun _ h => h, Nat.le_succ _⟩); (refine fun g => ?_; first | exact g | simpa only [SizesOk, Machine.patch, upd_length] using g | (simp only [SizesOk, Machine.patch, upd_length, List.length_map, List.length_replicate, true_and] at g ⊢; tauto)))

theorem Keeps.stoStopped {z0 s : State}  (hz : Keeps z0 s)  : Keeps z0 (Machine.stoStopped s) :=
  Keeps.stoEnd (Keeps.stoSend hz)

theorem Keeps.stoPassed {z0 s : State}  (hz : Keeps z0 s)  : Keeps z0 (Machine.stoPassed s) := by
  unfold Machine.stoPassed
  try lift_lets
  repeat' first
    | with_reducible assumption
    | (intro x; with_reducible refine Keeps.cut (o := z0) x ?_ ?_; dsimp only [x]; rotate_left; try clear_value x)
    | (intro x; try clear_value x)
    | with_reducible apply Keeps.ite
    | with_reducible apply Keeps.ite1
    | with_reducible apply Keeps.updSto
    | with_reducible apply Keeps.stoEnd
    | with_reducible apply Keeps.stoStopped
    | with_reducible apply Keeps.stoSend
    | with_reducible apply Keeps.incMod
    | ((first | rw [patch_eq] | skip); (with_reducible refine Keeps.patch ?_ ?_ ?_); rotate_left; (first | exact CelKeeps.refl _ | exact ⟨fun _ h => h, Nat.le_refl _⟩ | exact ⟨fun _ h => h, Nat.le_succ _⟩); (refine fun g => ?_; first | exact g | simpa only [SizesOk, Machine.patch, upd_length] using g | (simp only [SizesOk, Machine.patch, upd_length, List.length_map, List.length_replicate, true_and] at g ⊢; tauto)))

theorem Keeps.stoFailed {z0 s : State}  (hz : Keeps z0 s)  : Keeps z0 (Machine.stoFailed s) := by
  unfold Machine.stoFailed
  try lift_lets
  repeat' first
    | with_reducible assumption
    | (intro x; with_reducible refine Keeps.cut (o := z0) x ?_ ?_; dsimp only [x]; rotate_left; try clear_value x)
    | (intro x; try clear_value x)
    | with_reducible apply Keeps.ite
    | with_reducible apply Keeps.ite1
    | with_reducible apply Keeps.updSto
    | with_reducible apply Keeps.stoEnd
    | with_reducible apply Keeps.stoStopped
    | with_reducible apply Keeps.stoSend
    | ((first | rw [patch_eq] | skip); (with_reducible refine Keeps.patch ?_ ?_ ?_); rotate_left; (first | exact CelKeeps.refl _ | exact ⟨fun _ h => h, Nat.le_refl _⟩ | exact ⟨fun _ h => h, Nat.le_succ _⟩); (refine fun g => ?_; first | exact g | simpa only [SizesOk, Machine.patch, upd_length] using g | (simp only [SizesOk, Machine.patch, upd_length, List.length_map, List.length_replicate, true_and] at g ⊢; tauto)))

theorem Keeps.stoBlockEnd {z0 s : State} {ok : Bool} {data : List Byte} (hz : Keeps z0 s)  : Keeps z0 (Machine.stoBlockEnd ok data s) := by
  unfold Machine.stoBlockEnd
  repeat' first
    | with_reducible assumption
    | with_reducible apply Keeps.ite
    | with_reducible apply Keeps.ite1
    | with_reducible apply Keeps.updSto
    | with_reducible apply Keeps.stoPassed
    | with_reducible apply Keeps.stoFailed
    | ((first | rw [patch_eq] | skip); (with_reducible refine Keeps.patch ?_ ?_ ?_); rotate_left; (first | exact CelKeeps.refl _ | exact ⟨fun _ h => h, Nat.le_refl _⟩ | exact ⟨fun _ h => h, Nat.le_succ _⟩); (refine fun g => ?_; first | exact g | simpa only [SizesOk, Machine.patch, upd_length] using g | (simp only [SizesOk, Machine.patch, upd_length, List.length_map, List.length_replicate, true_and] at g ⊢; tauto)))

theorem Keeps.stoResp {z0 s : State} {resp : List Word} (hz : Keeps z0 s)  : Keeps z0 (Machine.stoResp resp s) := by
  unfold Machine.stoResp
  repeat' first
    | with_reducible assumption
    | (intro x; try clear_value x)
    | with_reducible apply Keeps.forN
    | with_reducible apply Keeps.wr

theorem Keeps.stoCommandEnd {z0 s : State} {err : Bool} {resp : List Word} (hz : Keeps z0 s)  : Keeps z0 (Machine.stoCommandEnd err resp s) := by
  unfold Machine.stoCommandEnd
  repeat' first
    | with_reducible assumption
    | with_reducible apply Keeps.ite
    | with_reducible apply Keeps.ite1
    | with_reducible apply Keeps.stoEnd
    | with_reducible apply Keeps.stoStopped
    | with_reducible apply Keeps.stoSend
    | with_reducible apply Keeps.stoResp

theorem Keeps.stoTimeout {z0 s : State}  (hz : Keeps z0 s)  : Keeps z0 (Machine.stoTimeout s) := by
  unfold Machine.stoTimeout
  repeat' first
    | with_reducible assumption
    | with_reducible apply Keeps.ite
    | with_reducible apply Keeps.ite1
    | with_reducible apply Keeps.stoEnd

theorem Keeps.stoPop {z0 s : State} {n : Nat} (hz : Keeps z0 s)  : Keeps z0 (Machine.stoPop n s).1 := by
  unfold Machine.stoPop
  try lift_lets
  repeat' first
    | with_reducible assumption
    | (intro x; with_reducible refine Keeps.cut (o := z0) x ?_ ?_; dsimp only [x]; rotate_left; try clear_value x)
    | (intro x; try clear_value x)
    | with_reducible apply Keeps.ite
    | with_reducible apply Keeps.ite1
    | with_reducible apply Keeps.updSto
    | with_reducible apply Keeps.freeNext
    | ((first | rw [patch_eq] | skip); (with_reducible refine Keeps.patch ?_ ?_ ?_); rotate_left; (first | exact CelKeeps.refl _ | exact ⟨fun _ h => h, Nat.le_refl _⟩ | exact ⟨fun _ h => h, Nat.le_succ _⟩); (refine fun g => ?_; first | exact g | simpa only [SizesOk, Machine.patch, upd_length] using g | (simp only [SizesOk, Machine.patch, upd_length, List.length_map, List.length_replicate, true_and] at g ⊢; tauto)))

theorem Keeps.stoPush {z0 s : State} {bytes : List Byte} (hz : Keeps z0 s)  : Keeps z0 (Machine.stoPush bytes s) := by
  unfold Machine.stoPush
  repeat' first
    | with_reducible assumption
    | with_reducible apply Keeps.updSto
    | ((first | rw [patch_eq] | skip); (with_reducible refine Keeps.patch ?_ ?_ ?_); rotate_left; (first | exact CelKeeps.refl _ | exact ⟨fun _ h => h, Nat.le_refl _⟩ | exact ⟨fun _ h => h, Nat.le_succ _⟩); (refine fun g => ?_; first | exact g | simpa only [SizesOk, Machine.patch, upd_length] using g | (simp only [SizesOk, Machine.patch, upd_length, List.length_map, List.length_replicate, true_and] at g ⊢; tauto)))

theorem Keeps.wrStoCtrl {z0 s : State} {w : Word} (hz : Keeps z0 s)  : Keeps z0 (Machine.wrStoCtrl w s) := by
  unfold Machine.wrStoCtrl
  repeat' first
    | with_reducible assumption
    | with_reducible apply Keeps.ite
    | with_reducible apply Keeps.ite1
    | with_reducible apply Keeps.plainWrite
    | with_reducible apply Keeps.ret

theorem Keeps.wrNorCmd {z0 s : State} {w : Word} (hz : Keeps z0 s)  : Keeps z0 (Machine.wrNorCmd w s) := by
  unfold Machine.wrNorCmd
  try lift_lets
  repeat' first
    | with_reducible assumption
    | (intro x; with_reducible refine Keeps.cut (o := z0) x ?_ ?_; dsimp only [x]; rotate_left; try clear_value x)
    | (intro x; with_reducible refine Keeps.cut1 (o := z0) x ?_ ?_; dsimp only [x]; rotate_left; try clear_value x)
    | (intro x; with_reducible refine Keeps.cutF x ?_; try dsimp only [x])
    | (intro x; try clear_value x)
    | with_reducible apply Keeps.ite
    | with_reducible apply Keeps.ite1
    | with_reducible apply Keeps.plainWrite
    | with_reducible apply Keeps.updSto
    | with_reducible apply Keeps.set
    | with_reducible apply Keeps.store
    | with_reducible apply Keeps.ret
    | ((first | rw [patch_eq] | skip); (with_reducible refine Keeps.patch ?_ ?_ ?_); rotate_left; (first | exact CelKeeps.refl _ | exact ⟨fun _ h => h, Nat.le_refl _⟩ | exact ⟨fun _ h => h, Nat.le_succ _⟩); (refine fun g => ?_; first | exact g | simpa only [SizesOk, Machine.patch, upd_length] using g | (simp only [SizesOk, Machine.patch, upd_length, List.length_map, List.length_replicate, true_and] at g ⊢; tauto)))
    | (fail_if_no_progress dsimp -zeta only)
    | split

theorem Keeps.norPut {z0 s : State} {b : Nat} {v : Byte} (hz : Keeps z0 s)  : Keeps z0 (Machine.norPut b v s) := by
  unfold Machine.norPut
  repeat' first
    | with_reducible assumption
    | with_reducible apply Keeps.set

theorem Keeps.norEnd {z0 s : State} {data : List Byte} {changed : List Host.Cell} (hz : Keeps z0 s)  : Keeps z0 (Machine.norEnd data changed s) := by
  unfold Machine.norEnd
  try lift_lets
  repeat' first
    | with_reducible assumption
    | (intro x; with_reducible refine Keeps.cut (o := z0) x ?_ ?_; dsimp only [x]; rotate_left; try clear_value x)
    | (intro x; try clear_value x)
    | with_reducible apply Keeps.ite
    | with_reducible apply Keeps.ite1
    | with_reducible apply Keeps.forN
    | with_reducible apply Keeps.raise
    | with_reducible apply Keeps.norPut
    | with_reducible apply Keeps.set
    | ((first | rw [patch_eq] | skip); (with_reducible refine Keeps.patch ?_ ?_ ?_); rotate_left; (first | exact CelKeeps.refl _ | exact ⟨fun _ h => h, Nat.le_refl _⟩ | exact ⟨fun _ h => h, Nat.le_succ _⟩); (refine fun g => ?_; first | exact g | simpa only [SizesOk, Machine.patch, upd_length] using g | (simp only [SizesOk, Machine.patch, upd_length, List.length_map, List.length_replicate, true_and] at g ⊢; tauto)))

theorem Keeps.wrNorBuf {z0 s : State} {j : Nat} {w : Word} (hz : Keeps z0 s)  : Keeps z0 (Machine.wrNorBuf j w s) := by
  unfold Machine.wrNorBuf
  repeat' first
    | with_reducible assumption
    | with_reducible apply Keeps.ite
    | with_reducible apply Keeps.ite1
    | with_reducible apply Keeps.plainWrite
    | with_reducible apply Keeps.ret

theorem Keeps.resetSto {z0 s : State}  (hz : Keeps z0 s)  : Keeps z0 (Machine.resetSto s) := by
  unfold Machine.resetSto
  repeat' first
    | with_reducible assumption
    | with_reducible apply Keeps.dropRange
    | ((first | rw [patch_eq] | skip); (with_reducible refine Keeps.patch ?_ ?_ ?_); rotate_left; (first | exact CelKeeps.refl _ | exact ⟨fun _ h => h, Nat.le_refl _⟩ | exact ⟨fun _ h => h, Nat.le_succ _⟩); (refine fun g => ?_; first | exact g | simpa only [SizesOk, Machine.patch, upd_length] using g | (simp only [SizesOk, Machine.patch, upd_length, List.length_map, List.length_replicate, true_and] at g ⊢; tauto)))

theorem Keeps.stoWrite {s z : State} {q : Rq} {op : Nat} {w : Word} (e : Machine.stoWrite q op w s = .next z) : Keeps s z := by
  have hz := Keeps.refl s
  revert e
  unfold Machine.stoWrite
  first
    | (intro e; injection e with e; subst e; (repeat' first
         | with_reducible assumption
         | (intro x; try clear_value x)
         | with_reducible apply Keeps.gated
         | with_reducible apply Keeps.wrStoCmd
         ); done)

theorem Keeps.execStoRaw {s z : State} {q : Rq} {w : Word} (e : Machine.execStoRaw q w s = .next z) : Keeps s z := by
  have hz := Keeps.refl s
  revert e
  unfold Machine.execStoRaw
  first
    | exact fun e => Keeps.stoWrite e
    | (intro e; injection e with e; subst e; (repeat' first
         | with_reducible assumption
         | (intro x; with_reducible refine Keeps.cut (o := z0) x ?_ ?_; dsimp only [x]; rotate_left; try clear_value x)
         | (intro x; with_reducible refine Keeps.cut1 (o := z0) x ?_ ?_; dsimp only [x]; rotate_left; try clear_value x)
         | (intro x; with_reducible refine Keeps.cutF x ?_; try dsimp only [x])
         | (intro x; try clear_value x)
         | (fail_if_no_progress dsimp -zeta only)
         | split
         ); done)

theorem Keeps.execStoRead {s z : State} {q : Rq} (e : Machine.execStoRead q s = .next z) : Keeps s z := by
  have hz := Keeps.refl s
  revert e
  unfold Machine.execStoRead
  first
    | exact fun e => Keeps.stoWrite e
    | (intro e; injection e with e; subst e; (repeat' first
         | with_reducible assumption
         | (intro x; with_reducible refine Keeps.cut (o := z0) x ?_ ?_; dsimp only [x]; rotate_left; try clear_value x)
         | (intro x; with_reducible refine Keeps.cut1 (o := z0) x ?_ ?_; dsimp only [x]; rotate_left; try clear_value x)
         | (intro x; with_reducible refine Keeps.cutF x ?_; try dsimp only [x])
         | (intro x; try clear_value x)
         | (fail_if_no_progress dsimp -zeta only)
         | split
         ); done)

theorem Keeps.execStoWrite {s z : State} {q : Rq} {w : Word} (e : Machine.execStoWrite q w s = .next z) : Keeps s z := by
  have hz := Keeps.refl s
  revert e
  unfold Machine.execStoWrite
  first
    | exact fun e => Keeps.stoWrite e
    | (intro e; injection e with e; subst e; (repeat' first
         | with_reducible assumption
         | (intro x; with_reducible refine Keeps.cut (o := z0) x ?_ ?_; dsimp only [x]; rotate_left; try clear_value x)
         | (intro x; with_reducible refine Keeps.cut1 (o := z0) x ?_ ?_; dsimp only [x]; rotate_left; try clear_value x)
         | (intro x; with_reducible refine Keeps.cutF x ?_; try dsimp only [x])
         | (intro x; try clear_value x)
         | (fail_if_no_progress dsimp -zeta only)
         | split
         ); done)

theorem Keeps.execStoTrim {s z : State} {q : Rq} (e : Machine.execStoTrim q s = .next z) : Keeps s z := by
  have hz := Keeps.refl s
  revert e
  unfold Machine.execStoTrim
  first
    | exact fun e => Keeps.stoWrite e
    | (intro e; injection e with e; subst e; (repeat' first
         | with_reducible assumption
         | (intro x; with_reducible refine Keeps.cut (o := z0) x ?_ ?_; dsimp only [x]; rotate_left; try clear_value x)
         | (intro x; with_reducible refine Keeps.cut1 (o := z0) x ?_ ?_; dsimp only [x]; rotate_left; try clear_value x)
         | (intro x; with_reducible refine Keeps.cutF x ?_; try dsimp only [x])
         | (intro x; try clear_value x)
         | (fail_if_no_progress dsimp -zeta only)
         | split
         ); done)

theorem Keeps.execStoFlush {s z : State} {q : Rq} (e : Machine.execStoFlush q s = .next z) : Keeps s z := by
  have hz := Keeps.refl s
  revert e
  unfold Machine.execStoFlush
  first
    | exact fun e => Keeps.stoWrite e
    | (intro e; injection e with e; subst e; (repeat' first
         | with_reducible assumption
         | (intro x; with_reducible refine Keeps.cut (o := z0) x ?_ ?_; dsimp only [x]; rotate_left; try clear_value x)
         | (intro x; with_reducible refine Keeps.cut1 (o := z0) x ?_ ?_; dsimp only [x]; rotate_left; try clear_value x)
         | (intro x; with_reducible refine Keeps.cutF x ?_; try dsimp only [x])
         | (intro x; try clear_value x)
         | (fail_if_no_progress dsimp -zeta only)
         | split
         ); done)

theorem Keeps.execStoStop {s z : State} {q : Rq} (e : Machine.execStoStop q s = .next z) : Keeps s z := by
  have hz := Keeps.refl s
  revert e
  unfold Machine.execStoStop
  first
    | exact fun e => Keeps.stoWrite e
    | (intro e; injection e with e; subst e; (repeat' first
         | with_reducible assumption
         | (intro x; with_reducible refine Keeps.cut (o := z0) x ?_ ?_; dsimp only [x]; rotate_left; try clear_value x)
         | (intro x; with_reducible refine Keeps.cut1 (o := z0) x ?_ ?_; dsimp only [x]; rotate_left; try clear_value x)
         | (intro x; with_reducible refine Keeps.cutF x ?_; try dsimp only [x])
         | (intro x; try clear_value x)
         | (fail_if_no_progress dsimp -zeta only)
         | split
         ); done)

theorem Keeps.execStoBlockEnd {s z : State} {ok : Bool} {data : List Byte} (e : Machine.execStoBlockEnd ok data s = .next z) : Keeps s z := by
  have hz := Keeps.refl s
  revert e
  unfold Machine.execStoBlockEnd
  first
    | (intro e; injection e with e; subst e; (repeat' first
         | with_reducible assumption
         | with_reducible apply Keeps.stoBlockEnd
         ); done)

theorem Keeps.execStoCommandEnd {s z : State} {err : Bool} {resp : List Word} (e : Machine.execStoCommandEnd err resp s = .next z) : Keeps s z := by
  have hz := Keeps.refl s
  revert e
  unfold Machine.execStoCommandEnd
  first
    | (intro e; injection e with e; subst e; (repeat' first
         | with_reducible assumption
         | with_reducible apply Keeps.stoCommandEnd
         ); done)

theorem Keeps.execStoResponseTimeout {s z : State}  (e : Machine.execStoResponseTimeout s = .next z) : Keeps s z := by
  have hz := Keeps.refl s
  revert e
  unfold Machine.execStoResponseTimeout
  first
    | (intro e; injection e with e; subst e; (repeat' first
         | with_reducible assumption
         | with_reducible apply Keeps.stoTimeout
         ); done)

theorem Keeps.execNorGo {s z : State} {q : Rq} {w : Word} (e : Machine.execNorGo q w s = .next z) : Keeps s z := by
  have hz := Keeps.refl s
  revert e
  unfold Machine.execNorGo
  first
    | (intro e; injection e with e; subst e; (repeat' first
         | with_reducible assumption
         | (intro x; try clear_value x)
         | with_reducible apply Keeps.gated
         | with_reducible apply Keeps.wrNorCmd
         ); done)

theorem Keeps.execNorTransactionEnd {s z : State} {data : List Byte} {changed : List Host.Cell} (e : Machine.execNorTransactionEnd data changed s = .next z) : Keeps s z := by
  have hz := Keeps.refl s
  revert e
  unfold Machine.execNorTransactionEnd
  first
    | (intro e; injection e with e; subst e; (repeat' first
         | with_reducible assumption
         | with_reducible apply Keeps.norEnd
         ); done)

end Sys2Proof.Machine
end

