-- ==== Sys2Proof/Laws/KeepEvr.lean ====
section
/-! SUPPORT. What the operations of Evr.lean keep. -/

set_option linter.all false

namespace Sys2Proof.Machine

theorem Keeps.clearPend {z0 s : State} {e : Nat} (hz : Keeps z0 s)  : Keeps z0 (Machine.clearPend e s) := by
  unfold Machine.clearPend
  repeat' first
    | with_reducible assumption
    | with_reducible apply Keeps.set

theorem Keeps.rdEvrNext {z0 s : State} {c : Nat} (hz : Keeps z0 s)  : Keeps z0 (Machine.rdEvrNext c s) := by
  unfold Machine.rdEvrNext
  repeat' first
    | with_reducible assumption
    | with_reducible apply Keeps.retData
    | ((first | rw [patch_eq] | skip); (with_reducible refine Keeps.patch ?_ ?_ ?_); rotate_left; (first | exact CelKeeps.refl _ | exact ⟨fun _ h => h, Nat.le_refl _⟩ | exact ⟨fun _ h => h, Nat.le_succ _⟩); (refine fun g => ?_; first | exact g | simpa only [SizesOk, Machine.patch, upd_length] using g | (simp only [SizesOk, Machine.patch, upd_length, List.length_map, List.length_replicate, true_and] at g ⊢; tauto)))

theorem Keeps.wrPend {z0 s : State} {j : Nat} {w : Word} (hz : Keeps z0 s)  : Keeps z0 (Machine.wrPend j w s) := by
  unfold Machine.wrPend
  try lift_lets
  repeat' first
    | with_reducible assumption
    | (intro x; try clear_value x)
    | with_reducible apply Keeps.ite
    | with_reducible apply Keeps.ite1
    | with_reducible apply Keeps.plainWrite

theorem Keeps.wrEvrRaise {z0 s : State} {w : Word} (hz : Keeps z0 s)  : Keeps z0 (Machine.wrEvrRaise w s) := by
  unfold Machine.wrEvrRaise
  try lift_lets
  repeat' first
    | with_reducible assumption
    | (intro x; try clear_value x)
    | with_reducible apply Keeps.ite
    | with_reducible apply Keeps.ite1
    | with_reducible apply Keeps.raise
    | with_reducible apply Keeps.ret

theorem Keeps.wrRoute {z0 s : State} {e : Nat} {w : Word} (hz : Keeps z0 s)  : Keeps z0 (Machine.wrRoute e w s) := by
  unfold Machine.wrRoute
  repeat' first
    | with_reducible assumption
    | with_reducible apply Keeps.ite
    | with_reducible apply Keeps.ite1
    | with_reducible apply Keeps.sendIbi
    | with_reducible apply Keeps.plainWrite

theorem Keeps.wdStart {z0 s : State} {n : Nat} {second : Nat} (hz : Keeps z0 s)  : Keeps z0 (Machine.wdStart n second s) := by
  unfold Machine.wdStart
  repeat' first
    | with_reducible assumption
    | with_reducible apply Keeps.set
    | ((first | rw [patch_eq] | skip); (with_reducible refine Keeps.patch ?_ ?_ ?_); rotate_left; (first | exact CelKeeps.refl _ | exact ⟨fun _ h => h, Nat.le_refl _⟩ | exact ⟨fun _ h => h, Nat.le_succ _⟩); (refine fun g => ?_; first | exact g | simpa only [SizesOk, Machine.patch, upd_length] using g | (simp only [SizesOk, Machine.patch, upd_length, List.length_map, List.length_replicate, true_and] at g ⊢; tauto)))

theorem Keeps.wrWdogCtrl {z0 s : State} {w : Word} (hz : Keeps z0 s)  : Keeps z0 (Machine.wrWdogCtrl w s) := by
  unfold Machine.wrWdogCtrl
  try lift_lets
  repeat' first
    | with_reducible assumption
    | (intro x; with_reducible refine Keeps.cut (o := z0) x ?_ ?_; dsimp only [x]; rotate_left; try clear_value x)
    | (intro x; try clear_value x)
    | with_reducible apply Keeps.ite
    | with_reducible apply Keeps.ite1
    | with_reducible apply Keeps.wdStart
    | with_reducible apply Keeps.wr
    | with_reducible apply Keeps.ret

theorem Keeps.wrKick {z0 s : State} {w : Word} (hz : Keeps z0 s)  : Keeps z0 (Machine.wrKick w s) := by
  unfold Machine.wrKick
  repeat' first
    | with_reducible assumption
    | with_reducible apply Keeps.ite
    | with_reducible apply Keeps.ite1
    | with_reducible apply Keeps.wdStart
    | with_reducible apply Keeps.addSat
    | with_reducible apply Keeps.ret

theorem Keeps.wdExpire {z0 s : State}  (hz : Keeps z0 s)  : Keeps z0 (Machine.wdExpire s) := by
  unfold Machine.wdExpire
  repeat' first
    | with_reducible assumption
    | with_reducible apply Keeps.ite
    | with_reducible apply Keeps.ite1
    | with_reducible apply Keeps.raise
    | with_reducible apply Keeps.wdStart

theorem Keeps.rdWdogStat {z0 s : State}  (hz : Keeps z0 s)  : Keeps z0 (Machine.rdWdogStat s) := by
  unfold Machine.rdWdogStat
  try lift_lets
  repeat' first
    | with_reducible assumption
    | (intro x; try clear_value x)
    | with_reducible apply Keeps.ite
    | with_reducible apply Keeps.ite1
    | with_reducible apply Keeps.retData

theorem Keeps.cntOverflow {z0 s : State} {c : Nat} {j : Nat} (hz : Keeps z0 s)  : Keeps z0 (Machine.cntOverflow c j s) := by
  unfold Machine.cntOverflow
  try lift_lets
  repeat' first
    | (refine fun (k : Cpu) (hk : CpuOk k) => (?_ : CpuOk _); first | exact hk | (simp only [CpuOk, upd_length] at *; simpa using hk) | (split <;> first | exact hk | (simp only [CpuOk, upd_length] at *; simpa using hk)))
    | exact CelKeeps.refl _
    | exact ⟨fun _ h => h, Nat.le_refl _⟩
    | exact ⟨fun _ h => h, Nat.le_succ _⟩
    | with_reducible assumption
    | (intro x; with_reducible refine Keeps.cut1 (o := z0) x ?_ ?_; dsimp only [x]; rotate_left; try clear_value x)
    | with_reducible apply Keeps.ite2
    | (intro x; try clear_value x)
    | with_reducible apply Keeps.ite
    | with_reducible apply Keeps.ite1
    | with_reducible apply Keeps.foldl
    | with_reducible apply Keeps.foldl1
    | with_reducible apply Keeps.cntWrap
    | with_reducible apply Keeps.raise
    | with_reducible apply Keeps.updCpu
    | ((first | rw [patch_eq] | skip); (with_reducible refine Keeps.patch ?_ ?_ ?_); rotate_left; (first | exact CelKeeps.refl _ | exact ⟨fun _ h => h, Nat.le_refl _⟩ | exact ⟨fun _ h => h, Nat.le_succ _⟩); (refine fun g => ?_; first | exact g | simpa only [SizesOk, Machine.patch, upd_length] using g | (simp only [SizesOk, Machine.patch, upd_length, List.length_map, List.length_replicate, true_and] at g ⊢; tauto)))

theorem Keeps.pmcOverflow {z0 s : State} {j : Nat} (hz : Keeps z0 s)  : Keeps z0 (Machine.pmcOverflow j s) := by
  unfold Machine.pmcOverflow
  try lift_lets
  repeat' first
    | with_reducible assumption
    | (intro x; with_reducible refine Keeps.cut (o := z0) x ?_ ?_; dsimp only [x]; rotate_left; try clear_value x)
    | (intro x; try clear_value x)
    | with_reducible apply Keeps.ite
    | with_reducible apply Keeps.ite1
    | with_reducible apply Keeps.updPmc
    | with_reducible apply Keeps.raise
    | with_reducible apply Keeps.set

theorem Keeps.rdPmcL {z0 s : State} {j : Nat} (hz : Keeps z0 s)  : Keeps z0 (Machine.rdPmcL j s) := by
  unfold Machine.rdPmcL
  try lift_lets
  repeat' first
    | with_reducible assumption
    | (intro x; try clear_value x)
    | with_reducible apply Keeps.wr
    | with_reducible apply Keeps.retData

theorem Keeps.wrPmcL {z0 s : State} {j : Nat} {w : Word} (hz : Keeps z0 s)  : Keeps z0 (Machine.wrPmcL j w s) := by
  unfold Machine.wrPmcL
  repeat' first
    | with_reducible assumption
    | with_reducible apply Keeps.updPmc
    | with_reducible apply Keeps.ret

theorem Keeps.wrPmcH {z0 s : State} {j : Nat} {w : Word} (hz : Keeps z0 s)  : Keeps z0 (Machine.wrPmcH j w s) := by
  unfold Machine.wrPmcH
  try lift_lets
  repeat' first
    | with_reducible assumption
    | (intro x; try clear_value x)
    | with_reducible apply Keeps.updPmc
    | with_reducible apply Keeps.wr
    | with_reducible apply Keeps.ret

theorem Keeps.cpuReset {z0 s : State} {c : Nat} (hz : Keeps z0 s)  : Keeps z0 (Machine.cpuReset c s) := by
  unfold Machine.cpuReset
  repeat' first
    | (refine fun (k : Cpu) (hk : CpuOk k) => (?_ : CpuOk _); first | exact hk | (simp only [CpuOk, upd_length] at *; simpa using hk) | (split <;> first | exact hk | (simp only [CpuOk, upd_length] at *; simpa using hk)))
    | exact CelKeeps.refl _
    | exact ⟨fun _ h => h, Nat.le_refl _⟩
    | exact ⟨fun _ h => h, Nat.le_succ _⟩
    | with_reducible assumption
    | with_reducible apply Keeps.ite
    | with_reducible apply Keeps.ite1
    | with_reducible apply Keeps.updCpu

theorem Keeps.coreEnd {z0 s : State} {c : Nat} {op : Nat} {o : Code} (hz : Keeps z0 s)  : Keeps z0 (Machine.coreEnd c op o s) := by
  unfold Machine.coreEnd
  repeat' first
    | with_reducible assumption
    | with_reducible apply Keeps.set
    | with_reducible apply Keeps.ret

theorem Keeps.coreStart {z0 s : State} {c : Nat} (hz : Keeps z0 s)  : Keeps z0 (Machine.coreStart c s) := by
  unfold Machine.coreStart
  try lift_lets
  repeat' first
    | (refine fun (k : Cpu) (hk : CpuOk k) => (?_ : CpuOk _); first | exact hk | (simp only [CpuOk, upd_length] at *; simpa using hk) | (split <;> first | exact hk | (simp only [CpuOk, upd_length] at *; simpa using hk)))
    | exact CelKeeps.refl _
    | exact ⟨fun _ h => h, Nat.le_refl _⟩
    | exact ⟨fun _ h => h, Nat.le_succ _⟩
    | with_reducible assumption
    | (intro x; with_reducible refine Keeps.cut (o := z0) x ?_ ?_; dsimp only [x]; rotate_left; try clear_value x)
    | (intro x; try clear_value x)
    | with_reducible apply Keeps.ite
    | with_reducible apply Keeps.ite1
    | with_reducible apply Keeps.cpuReset
    | with_reducible apply Keeps.coreEnd
    | with_reducible apply Keeps.set
    | with_reducible apply Keeps.updCpu
    | ((first | rw [patch_eq] | skip); (with_reducible refine Keeps.patch ?_ ?_ ?_); rotate_left; (first | exact CelKeeps.refl _ | exact ⟨fun _ h => h, Nat.le_refl _⟩ | exact ⟨fun _ h => h, Nat.le_succ _⟩); (refine fun g => ?_; first | exact g | simpa only [SizesOk, Machine.patch, upd_length] using g | (simp only [SizesOk, Machine.patch, upd_length, List.length_map, List.length_replicate, true_and] at g ⊢; tauto)))

theorem Keeps.coreHalted {z0 s : State} {c : Nat} (hz : Keeps z0 s)  : Keeps z0 (Machine.coreHalted c s) := by
  unfold Machine.coreHalted
  repeat' first
    | (refine fun (k : Cpu) (hk : CpuOk k) => (?_ : CpuOk _); first | exact hk | (simp only [CpuOk, upd_length] at *; simpa using hk) | (split <;> first | exact hk | (simp only [CpuOk, upd_length] at *; simpa using hk)))
    | exact CelKeeps.refl _
    | exact ⟨fun _ h => h, Nat.le_refl _⟩
    | exact ⟨fun _ h => h, Nat.le_succ _⟩
    | with_reducible assumption
    | with_reducible apply Keeps.lbCoreStop
    | with_reducible apply Keeps.set
    | with_reducible apply Keeps.updCpu
    | ((first | rw [patch_eq] | skip); (with_reducible refine Keeps.patch ?_ ?_ ?_); rotate_left; (first | exact CelKeeps.refl _ | exact ⟨fun _ h => h, Nat.le_refl _⟩ | exact ⟨fun _ h => h, Nat.le_succ _⟩); (refine fun g => ?_; first | exact g | simpa only [SizesOk, Machine.patch, upd_length] using g | (simp only [SizesOk, Machine.patch, upd_length, List.length_map, List.length_replicate, true_and] at g ⊢; tauto)))

theorem Keeps.coreHalt {z0 s : State} {c : Nat} (hz : Keeps z0 s)  : Keeps z0 (Machine.coreHalt c s) := by
  unfold Machine.coreHalt
  repeat' first
    | (refine fun (k : Cpu) (hk : CpuOk k) => (?_ : CpuOk _); first | exact hk | (simp only [CpuOk, upd_length] at *; simpa using hk) | (split <;> first | exact hk | (simp only [CpuOk, upd_length] at *; simpa using hk)))
    | exact CelKeeps.refl _
    | exact ⟨fun _ h => h, Nat.le_refl _⟩
    | exact ⟨fun _ h => h, Nat.le_succ _⟩
    | with_reducible assumption
    | with_reducible apply Keeps.ite
    | with_reducible apply Keeps.ite1
    | with_reducible apply Keeps.coreEnd
    | with_reducible apply Keeps.coreHalted
    | with_reducible apply Keeps.updCpu
    | ((first | rw [patch_eq] | skip); (with_reducible refine Keeps.patch ?_ ?_ ?_); rotate_left; (first | exact CelKeeps.refl _ | exact ⟨fun _ h => h, Nat.le_refl _⟩ | exact ⟨fun _ h => h, Nat.le_succ _⟩); (refine fun g => ?_; first | exact g | simpa only [SizesOk, Machine.patch, upd_length] using g | (simp only [SizesOk, Machine.patch, upd_length, List.length_map, List.length_replicate, true_and] at g ⊢; tauto)))

theorem Keeps.coreResume {z0 s : State} {c : Nat} (hz : Keeps z0 s)  : Keeps z0 (Machine.coreResume c s) := by
  unfold Machine.coreResume
  repeat' first
    | with_reducible assumption
    | with_reducible apply Keeps.ite
    | with_reducible apply Keeps.ite1
    | with_reducible apply Keeps.coreEnd
    | with_reducible apply Keeps.set

theorem Keeps.signStart {z0 s : State}  (hz : Keeps z0 s)  : Keeps z0 (Machine.signStart s) := by
  unfold Machine.signStart
  exact Keeps.upd hz rfl rfl rfl rfl rfl (CelKeeps.refl _) rfl (fun g => by simp_all [SizesOk])

theorem Keeps.loadEnd {z0 s : State} {o : Code} {step : Nat} {reason : Nat} (hz : Keeps z0 s)  : Keeps z0 (Machine.loadEnd o step reason s) := by
  unfold Machine.loadEnd
  try lift_lets
  repeat' first
    | with_reducible assumption
    | (intro x; with_reducible refine Keeps.cut (o := z0) x ?_ ?_; dsimp only [x]; rotate_left; try clear_value x)
    | (intro x; with_reducible refine Keeps.cut1 (o := z0) x ?_ ?_; dsimp only [x]; rotate_left; try clear_value x)
    | (intro x; with_reducible refine Keeps.cutF x ?_; try dsimp only [x])
    | (intro x; try clear_value x)
    | with_reducible apply Keeps.raise
    | with_reducible apply Keeps.signStart
    | with_reducible apply Keeps.set
    | ((first | rw [patch_eq] | skip); (with_reducible refine Keeps.patch ?_ ?_ ?_); rotate_left; (first | exact CelKeeps.refl _ | exact ⟨fun _ h => h, Nat.le_refl _⟩ | exact ⟨fun _ h => h, Nat.le_succ _⟩); (refine fun g => ?_; first | exact g | simpa only [SizesOk, Machine.patch, upd_length] using g | (simp only [SizesOk, Machine.patch, upd_length, List.length_map, List.length_replicate, true_and] at g ⊢; tauto)))
    | (fail_if_no_progress dsimp -zeta only)
    | split

theorem Keeps.shelfDirty {z0 s : State} {c : Nat} {sh : Nat} (hz : Keeps z0 s)  : Keeps z0 (Machine.shelfDirty c sh s) := by
  unfold Machine.shelfDirty
  exact Keeps.upd hz rfl rfl rfl rfl rfl (CelKeeps.refl _) rfl (fun g => by simp_all [SizesOk])

theorem Keeps.shelfLost {z0 s : State} {l : Load} (hz : Keeps z0 s)  : Keeps z0 (Machine.shelfLost l s) :=
  Keeps.shelfDirty (Keeps.putFree hz)

theorem Keeps.loadAbort {z0 s : State} {c : Nat} (hz : Keeps z0 s)  : Keeps z0 (Machine.loadAbort c s) := by
  unfold Machine.loadAbort
  repeat' first
    | with_reducible assumption
    | with_reducible apply Keeps.ite
    | with_reducible apply Keeps.ite1
    | with_reducible apply Keeps.shelfLost
    | with_reducible apply Keeps.loadEnd
    | (fail_if_no_progress dsimp -zeta only)
    | split

theorem Keeps.portDrain {z0 s : State} {c : Nat} (hz : Keeps z0 s)  : Keeps z0 (Machine.portDrain c s) := by
  unfold Machine.portDrain
  repeat' first
    | with_reducible assumption
    | (intro x; with_reducible refine Keeps.cut (o := z0) x ?_ ?_; dsimp only [x]; rotate_left; try clear_value x)
    | (intro x; with_reducible refine Keeps.cut1 (o := z0) x ?_ ?_; dsimp only [x]; rotate_left; try clear_value x)
    | (intro x; with_reducible refine Keeps.cutF x ?_; try dsimp only [x])
    | (intro x; try clear_value x)
    | with_reducible apply Keeps.ite
    | with_reducible apply Keeps.ite1
    | with_reducible apply Keeps.retireWith
    | (fail_if_no_progress dsimp -zeta only)
    | split

theorem Keeps.coreToReset {z0 s : State} {c : Nat} (hz : Keeps z0 s)  : Keeps z0 (Machine.coreToReset c s) := by
  unfold Machine.coreToReset
  try lift_lets
  repeat' first
    | with_reducible assumption
    | (intro x; with_reducible refine Keeps.cut (o := z0) x ?_ ?_; dsimp only [x]; rotate_left; try clear_value x)
    | (intro x; with_reducible refine Keeps.cut1 (o := z0) x ?_ ?_; dsimp only [x]; rotate_left; try clear_value x)
    | (intro x; with_reducible refine Keeps.cutF x ?_; try dsimp only [x])
    | (intro x; try clear_value x)
    | with_reducible apply Keeps.lbCoreStop
    | with_reducible apply Keeps.cpuReset
    | with_reducible apply Keeps.loadAbort
    | with_reducible apply Keeps.portDrain
    | with_reducible apply Keeps.set
    | (fail_if_no_progress dsimp -zeta only)
    | split

theorem Keeps.coreResetCmd {z0 s : State} {c : Nat} (hz : Keeps z0 s)  : Keeps z0 (Machine.coreResetCmd c s) := by
  unfold Machine.coreResetCmd
  repeat' first
    | with_reducible assumption
    | with_reducible apply Keeps.coreEnd
    | with_reducible apply Keeps.coreToReset

theorem Keeps.wrCoreCtrl {z0 s : State} {c : Nat} {w : Word} (hz : Keeps z0 s)  : Keeps z0 (Machine.wrCoreCtrl c w s) := by
  unfold Machine.wrCoreCtrl
  repeat' first
    | with_reducible assumption
    | with_reducible apply Keeps.ite
    | with_reducible apply Keeps.ite1
    | with_reducible apply Keeps.coreEnd
    | with_reducible apply Keeps.coreStart
    | with_reducible apply Keeps.coreHalt
    | with_reducible apply Keeps.coreResume
    | with_reducible apply Keeps.coreResetCmd
    | with_reducible apply Keeps.store
    | with_reducible apply Keeps.ret
    | (fail_if_no_progress dsimp -zeta only)
    | split

theorem Keeps.haltDone {z0 s : State} {c : Nat} (hz : Keeps z0 s)  : Keeps z0 (Machine.haltDone c s) := by
  unfold Machine.haltDone
  repeat' first
    | with_reducible assumption
    | with_reducible apply Keeps.ite
    | with_reducible apply Keeps.ite1
    | with_reducible apply Keeps.coreHalted
    | with_reducible apply Keeps.set
    | (fail_if_no_progress dsimp -zeta only)
    | split

theorem Keeps.loadNow {z0 s : State} {o : Code} (hz : Keeps z0 s)  : Keeps z0 (Machine.loadNow o s) := by
  unfold Machine.loadNow
  repeat' first
    | with_reducible assumption
    | with_reducible apply Keeps.raise
    | with_reducible apply Keeps.set
    | with_reducible apply Keeps.ret

theorem Keeps.setLoad {z0 s : State} {l : Option Load} (hz : Keeps z0 s)  : Keeps z0 (Machine.setLoad l s) := by
  unfold Machine.setLoad
  exact Keeps.upd hz rfl rfl rfl rfl rfl (CelKeeps.refl _) rfl (fun g => by simp_all [SizesOk])

theorem Keeps.loadStart {z0 s : State} {c : Nat} (hz : Keeps z0 s)  : Keeps z0 (Machine.loadStart c s) := by
  unfold Machine.loadStart
  try lift_lets
  repeat' first
    | with_reducible assumption
    | (intro x; with_reducible refine Keeps.cut (o := z0) x ?_ ?_; dsimp only [x]; rotate_left; try clear_value x)
    | (intro x; try clear_value x)
    | with_reducible apply Keeps.ite
    | with_reducible apply Keeps.ite1
    | with_reducible apply Keeps.loadNow
    | with_reducible apply Keeps.setLoad
    | with_reducible apply Keeps.retireRange
    | with_reducible apply Keeps.set
    | with_reducible apply Keeps.ret

theorem Keeps.wrLdCmd {z0 s : State} {w : Word} (hz : Keeps z0 s)  : Keeps z0 (Machine.wrLdCmd w s) := by
  unfold Machine.wrLdCmd
  repeat' first
    | with_reducible assumption
    | with_reducible apply Keeps.ite
    | with_reducible apply Keeps.ite1
    | with_reducible apply Keeps.plainWrite
    | with_reducible apply Keeps.loadStart

theorem Keeps.wrLdFloor {z0 s : State} {k : Nat} {w : Word} (hz : Keeps z0 s)  : Keeps z0 (Machine.wrLdFloor k w s) := by
  unfold Machine.wrLdFloor
  repeat' first
    | with_reducible assumption
    | with_reducible apply Keeps.ite
    | with_reducible apply Keeps.ite1
    | with_reducible apply Keeps.plainWrite
    | with_reducible apply Keeps.ret

theorem Keeps.wrLdKeytab {z0 s : State} {w : Word} (hz : Keeps z0 s)  : Keeps z0 (Machine.wrLdKeytab w s) := by
  unfold Machine.wrLdKeytab
  try lift_lets
  repeat' first
    | with_reducible assumption
    | (intro x; try clear_value x)
    | with_reducible apply Keeps.ite
    | with_reducible apply Keeps.ite1
    | with_reducible apply Keeps.plainWrite
    | with_reducible apply Keeps.ret

theorem Keeps.resetEvr {z0 s : State}  (hz : Keeps z0 s)  : Keeps z0 (Machine.resetEvr s) := by
  unfold Machine.resetEvr
  try lift_lets
  repeat' first
    | with_reducible assumption
    | (intro x; with_reducible refine Keeps.cut (o := z0) x ?_ ?_; dsimp only [x]; rotate_left; try clear_value x)
    | (intro x; try clear_value x)
    | with_reducible apply Keeps.wr
    | with_reducible apply Keeps.dropRange
    | ((first | rw [patch_eq] | skip); (with_reducible refine Keeps.patch ?_ ?_ ?_); rotate_left; (first | exact CelKeeps.refl _ | exact ⟨fun _ h => h, Nat.le_refl _⟩ | exact ⟨fun _ h => h, Nat.le_succ _⟩); (refine fun g => ?_; first | exact g | simpa only [SizesOk, Machine.patch, upd_length] using g | (simp only [SizesOk, Machine.patch, upd_length, List.length_map, List.length_replicate, true_and] at g ⊢; tauto)))

theorem Keeps.resetPmc {z0 s : State}  (hz : Keeps z0 s)  : Keeps z0 (Machine.resetPmc s) := by
  unfold Machine.resetPmc
  repeat' first
    | with_reducible assumption
    | with_reducible apply Keeps.dropRange
    | ((first | rw [patch_eq] | skip); (with_reducible refine Keeps.patch ?_ ?_ ?_); rotate_left; (first | exact CelKeeps.refl _ | exact ⟨fun _ h => h, Nat.le_refl _⟩ | exact ⟨fun _ h => h, Nat.le_succ _⟩); (refine fun g => ?_; first | exact g | simpa only [SizesOk, Machine.patch, upd_length] using g | (simp only [SizesOk, Machine.patch, upd_length, List.length_map, List.length_replicate, true_and] at g ⊢; tauto)))

theorem Keeps.coreWrite {s z : State} {q : Rq} {c : Nat} {op : Nat} {b : Bool} (e : Machine.coreWrite q c op b s = .next z) : Keeps s z := by
  have hz := Keeps.refl s
  revert e
  unfold Machine.coreWrite
  first
    | (intro e; injection e with e; subst e; (repeat' first
         | with_reducible assumption
         | (intro x; try clear_value x)
         | with_reducible apply Keeps.gated
         | with_reducible apply Keeps.wrCoreCtrl
         ); done)

theorem Keeps.execCoreBootShelfSet {s z : State} {q : Rq} {c : Fin 13} {b : Bool} (e : Machine.execCoreBootShelfSet q c b s = .next z) : Keeps s z := by
  have hz := Keeps.refl s
  revert e
  unfold Machine.execCoreBootShelfSet
  first
    | exact fun e => Keeps.coreWrite e
    | (intro e; injection e with e; subst e; (repeat' first
         | with_reducible assumption
         | (intro x; with_reducible refine Keeps.cut (o := z0) x ?_ ?_; dsimp only [x]; rotate_left; try clear_value x)
         | (intro x; with_reducible refine Keeps.cut1 (o := z0) x ?_ ?_; dsimp only [x]; rotate_left; try clear_value x)
         | (intro x; with_reducible refine Keeps.cutF x ?_; try dsimp only [x])
         | (intro x; try clear_value x)
         | (fail_if_no_progress dsimp -zeta only)
         | split
         ); done)

theorem Keeps.execCoreStart {s z : State} {q : Rq} {c : Fin 13} {b : Bool} (e : Machine.execCoreStart q c b s = .next z) : Keeps s z := by
  have hz := Keeps.refl s
  revert e
  unfold Machine.execCoreStart
  first
    | exact fun e => Keeps.coreWrite e
    | (intro e; injection e with e; subst e; (repeat' first
         | with_reducible assumption
         | (intro x; with_reducible refine Keeps.cut (o := z0) x ?_ ?_; dsimp only [x]; rotate_left; try clear_value x)
         | (intro x; with_reducible refine Keeps.cut1 (o := z0) x ?_ ?_; dsimp only [x]; rotate_left; try clear_value x)
         | (intro x; with_reducible refine Keeps.cutF x ?_; try dsimp only [x])
         | (intro x; try clear_value x)
         | (fail_if_no_progress dsimp -zeta only)
         | split
         ); done)

theorem Keeps.execCoreHalt {s z : State} {q : Rq} {c : Fin 13} {b : Bool} (e : Machine.execCoreHalt q c b s = .next z) : Keeps s z := by
  have hz := Keeps.refl s
  revert e
  unfold Machine.execCoreHalt
  first
    | exact fun e => Keeps.coreWrite e
    | (intro e; injection e with e; subst e; (repeat' first
         | with_reducible assumption
         | (intro x; with_reducible refine Keeps.cut (o := z0) x ?_ ?_; dsimp only [x]; rotate_left; try clear_value x)
         | (intro x; with_reducible refine Keeps.cut1 (o := z0) x ?_ ?_; dsimp only [x]; rotate_left; try clear_value x)
         | (intro x; with_reducible refine Keeps.cutF x ?_; try dsimp only [x])
         | (intro x; try clear_value x)
         | (fail_if_no_progress dsimp -zeta only)
         | split
         ); done)

theorem Keeps.execCoreHaltDone {s z : State} {c : Fin 13} (e : Machine.execCoreHaltDone c s = .next z) : Keeps s z := by
  have hz := Keeps.refl s
  revert e
  unfold Machine.execCoreHaltDone
  first
    | (intro e; injection e with e; subst e; (repeat' first
         | with_reducible assumption
         | with_reducible apply Keeps.haltDone
         ); done)

theorem Keeps.execCoreResume {s z : State} {q : Rq} {c : Fin 13} {b : Bool} (e : Machine.execCoreResume q c b s = .next z) : Keeps s z := by
  have hz := Keeps.refl s
  revert e
  unfold Machine.execCoreResume
  first
    | exact fun e => Keeps.coreWrite e
    | (intro e; injection e with e; subst e; (repeat' first
         | with_reducible assumption
         | (intro x; with_reducible refine Keeps.cut (o := z0) x ?_ ?_; dsimp only [x]; rotate_left; try clear_value x)
         | (intro x; with_reducible refine Keeps.cut1 (o := z0) x ?_ ?_; dsimp only [x]; rotate_left; try clear_value x)
         | (intro x; with_reducible refine Keeps.cutF x ?_; try dsimp only [x])
         | (intro x; try clear_value x)
         | (fail_if_no_progress dsimp -zeta only)
         | split
         ); done)

theorem Keeps.execCoreReset {s z : State} {q : Rq} {c : Fin 13} {b : Bool} (e : Machine.execCoreReset q c b s = .next z) : Keeps s z := by
  have hz := Keeps.refl s
  revert e
  unfold Machine.execCoreReset
  first
    | exact fun e => Keeps.coreWrite e
    | (intro e; injection e with e; subst e; (repeat' first
         | with_reducible assumption
         | (intro x; with_reducible refine Keeps.cut (o := z0) x ?_ ?_; dsimp only [x]; rotate_left; try clear_value x)
         | (intro x; with_reducible refine Keeps.cut1 (o := z0) x ?_ ?_; dsimp only [x]; rotate_left; try clear_value x)
         | (intro x; with_reducible refine Keeps.cutF x ?_; try dsimp only [x])
         | (intro x; try clear_value x)
         | (fail_if_no_progress dsimp -zeta only)
         | split
         ); done)

theorem Keeps.execLoaderLoad {s z : State} {q : Rq} {c : Fin 16} (e : Machine.execLoaderLoad q c s = .next z) : Keeps s z := by
  have hz := Keeps.refl s
  revert e
  unfold Machine.execLoaderLoad
  first
    | (intro e; injection e with e; subst e; (repeat' first
         | with_reducible assumption
         | (intro x; try clear_value x)
         | with_reducible apply Keeps.gated
         | with_reducible apply Keeps.wrLdCmd
         ); done)

theorem Keeps.execSoftwareEventRaise {s z : State} {q : Rq} {w : Word} (e : Machine.execSoftwareEventRaise q w s = .next z) : Keeps s z := by
  have hz := Keeps.refl s
  revert e
  unfold Machine.execSoftwareEventRaise
  first
    | (intro e; injection e with e; subst e; (repeat' first
         | with_reducible assumption
         | (intro x; try clear_value x)
         | with_reducible apply Keeps.gated
         | with_reducible apply Keeps.wrEvrRaise
         ); done)

theorem Keeps.execWdogKick {s z : State} {q : Rq} {w : Word} (e : Machine.execWdogKick q w s = .next z) : Keeps s z := by
  have hz := Keeps.refl s
  revert e
  unfold Machine.execWdogKick
  first
    | (intro e; injection e with e; subst e; (repeat' first
         | with_reducible assumption
         | (intro x; try clear_value x)
         | with_reducible apply Keeps.gated
         | with_reducible apply Keeps.wrKick
         ); done)

theorem Keeps.execWdogExpire {s z : State}  (e : Machine.execWdogExpire s = .next z) : Keeps s z := by
  have hz := Keeps.refl s
  revert e
  unfold Machine.execWdogExpire
  first
    | (intro e; injection e with e; subst e; (repeat' first
         | with_reducible assumption
         | with_reducible apply Keeps.wdExpire
         ); done)

theorem Keeps.execCntOverflow {s z : State} {c : Fin 13} {j : Fin 8} (e : Machine.execCntOverflow c j s = .next z) : Keeps s z := by
  have hz := Keeps.refl s
  revert e
  unfold Machine.execCntOverflow
  first
    | (intro e; injection e with e; subst e; (repeat' first
         | with_reducible assumption
         | with_reducible apply Keeps.cntOverflow
         ); done)

theorem Keeps.execPmcOverflow {s z : State} {j : Fin 32} (e : Machine.execPmcOverflow j s = .next z) : Keeps s z := by
  have hz := Keeps.refl s
  revert e
  unfold Machine.execPmcOverflow
  first
    | (intro e; injection e with e; subst e; (repeat' first
         | with_reducible assumption
         | with_reducible apply Keeps.pmcOverflow
         ); done)

theorem Keeps.execPmcCntLRead {s z : State} {q : Rq} {j : Fin 32} (e : Machine.execPmcCntLRead q j s = .next z) : Keeps s z := by
  have hz := Keeps.refl s
  revert e
  unfold Machine.execPmcCntLRead
  first
    | (intro e; injection e with e; subst e; (repeat' first
         | with_reducible assumption
         | (intro x; try clear_value x)
         | with_reducible apply Keeps.gatedRead
         | with_reducible apply Keeps.rdPmcL
         ); done)

end Sys2Proof.Machine
end

