-- ==== Sys2Proof/Laws/KeepClk.lean ====
section
/-! SUPPORT. What the operations of Clk.lean keep. -/

set_option linter.all false

namespace Sys2Proof.Machine

theorem Keeps.updClk {z0 s : State} {f : Clk → Clk} (hz : Keeps z0 s)  : Keeps z0 (Machine.updClk f s) := by
  unfold Machine.updClk
  exact Keeps.upd hz rfl rfl rfl rfl rfl (CelKeeps.refl _) rfl (fun g => by simp_all [SizesOk])

theorem Keeps.clkEvt {z0 s : State} {b : Nat} (hz : Keeps z0 s)  : Keeps z0 (Machine.clkEvt b s) := by
  unfold Machine.clkEvt
  repeat' first
    | with_reducible assumption
    | with_reducible apply Keeps.flag

theorem Keeps.pllFall {z0 s : State} {p : Nat} (hz : Keeps z0 s)  : Keeps z0 (Machine.pllFall p s) := by
  unfold Machine.pllFall
  repeat' first
    | with_reducible assumption
    | with_reducible apply Keeps.ite
    | with_reducible apply Keeps.ite1
    | with_reducible apply Keeps.clkEvt
    | with_reducible apply Keeps.set
    | with_reducible apply Keeps.addSat

theorem Keeps.wrPllCtrl {z0 s : State} {w : Word} (hz : Keeps z0 s)  : Keeps z0 (Machine.wrPllCtrl w s) := by
  unfold Machine.wrPllCtrl
  try lift_lets
  repeat' first
    | with_reducible assumption
    | (intro x; with_reducible refine Keeps.cutF x ?_; try dsimp only [x])
    | (intro x; try clear_value x)
    | with_reducible apply Keeps.ite
    | with_reducible apply Keeps.ite1
    | with_reducible apply Keeps.foldl
    | with_reducible apply Keeps.foldl1
    | with_reducible apply Keeps.pllFall
    | with_reducible apply Keeps.set
    | with_reducible apply Keeps.store
    | with_reducible apply Keeps.ret

theorem Keeps.pllLock {z0 s : State} {p : Nat} (hz : Keeps z0 s)  : Keeps z0 (Machine.pllLock p s) := by
  unfold Machine.pllLock
  repeat' first
    | with_reducible assumption
    | (intro x; with_reducible refine Keeps.cut (o := z0) x ?_ ?_; dsimp only [x]; rotate_left; try clear_value x)
    | (intro x; with_reducible refine Keeps.cut1 (o := z0) x ?_ ?_; dsimp only [x]; rotate_left; try clear_value x)
    | (intro x; with_reducible refine Keeps.cutF x ?_; try dsimp only [x])
    | (intro x; try clear_value x)
    | with_reducible apply Keeps.ite
    | with_reducible apply Keeps.ite1
    | with_reducible apply Keeps.updClk
    | with_reducible apply Keeps.set
    | ((first | rw [patch_eq] | skip); (with_reducible refine Keeps.patch ?_ ?_ ?_); rotate_left; (first | exact CelKeeps.refl _ | exact ⟨fun _ h => h, Nat.le_refl _⟩ | exact ⟨fun _ h => h, Nat.le_succ _⟩); (refine fun g => ?_; first | exact g | simpa only [SizesOk, Machine.patch, upd_length] using g | (simp only [SizesOk, Machine.patch, upd_length, List.length_map, List.length_replicate, true_and] at g ⊢; tauto)))
    | (fail_if_no_progress dsimp -zeta only)
    | split

theorem Keeps.wrBpllTrim {z0 s : State} {w : Word} (hz : Keeps z0 s)  : Keeps z0 (Machine.wrBpllTrim w s) := by
  unfold Machine.wrBpllTrim
  try lift_lets
  repeat' first
    | with_reducible assumption
    | (intro x; with_reducible refine Keeps.cut (o := z0) x ?_ ?_; dsimp only [x]; rotate_left; try clear_value x)
    | (intro x; try clear_value x)
    | with_reducible apply Keeps.ite
    | with_reducible apply Keeps.ite1
    | with_reducible apply Keeps.set
    | with_reducible apply Keeps.store
    | with_reducible apply Keeps.ret

theorem Keeps.trimTick {z0 s : State}  (hz : Keeps z0 s)  : Keeps z0 (Machine.trimTick s) := by
  unfold Machine.trimTick
  try lift_lets
  repeat' first
    | with_reducible assumption
    | (intro x; with_reducible refine Keeps.cut (o := z0) x ?_ ?_; dsimp only [x]; rotate_left; try clear_value x)
    | (intro x; try clear_value x)
    | with_reducible apply Keeps.set
    | with_reducible apply Keeps.seti

theorem Keeps.rampTick {z0 s : State}  (hz : Keeps z0 s)  : Keeps z0 (Machine.rampTick s) := by
  unfold Machine.rampTick
  repeat' first
    | with_reducible assumption
    | (intro x; try clear_value x)
    | with_reducible apply Keeps.ite
    | with_reducible apply Keeps.ite1
    | with_reducible apply Keeps.forN
    | with_reducible apply Keeps.rampConv
    | with_reducible apply Keeps.rampDet
    | with_reducible apply Keeps.trimTick

theorem Keeps.swAbort {z0 s : State}  (hz : Keeps z0 s)  : Keeps z0 (Machine.swAbort s) := by
  unfold Machine.swAbort
  repeat' first
    | with_reducible assumption
    | with_reducible apply Keeps.ite
    | with_reducible apply Keeps.ite1
    | with_reducible apply Keeps.updClk
    | with_reducible apply Keeps.clkEvt
    | with_reducible apply Keeps.set
    | (fail_if_no_progress dsimp -zeta only)
    | split

theorem Keeps.swBegin {z0 s : State} {target : Nat} {cmd : Bool} {nmi : List Nat} (hz : Keeps z0 s)  : Keeps z0 (Machine.swBegin target cmd nmi s) := by
  unfold Machine.swBegin
  repeat' first
    | with_reducible assumption
    | (intro x; with_reducible refine Keeps.cut (o := z0) x ?_ ?_; dsimp only [x]; rotate_left; try clear_value x)
    | (intro x; with_reducible refine Keeps.cut1 (o := z0) x ?_ ?_; dsimp only [x]; rotate_left; try clear_value x)
    | (intro x; with_reducible refine Keeps.cutF x ?_; try dsimp only [x])
    | (intro x; try clear_value x)
    | with_reducible apply Keeps.updClk
    | with_reducible apply Keeps.set
    | ((first | rw [patch_eq] | skip); (with_reducible refine Keeps.patch ?_ ?_ ?_); rotate_left; (first | exact CelKeeps.refl _ | exact ⟨fun _ h => h, Nat.le_refl _⟩ | exact ⟨fun _ h => h, Nat.le_succ _⟩); (refine fun g => ?_; first | exact g | simpa only [SizesOk, Machine.patch, upd_length] using g | (simp only [SizesOk, Machine.patch, upd_length, List.length_map, List.length_replicate, true_and] at g ⊢; tauto)))
    | (fail_if_no_progress dsimp -zeta only)
    | split

theorem Keeps.fallback {z0 s : State} {t : Nat} {e : Nat} (hz : Keeps z0 s)  : Keeps z0 (Machine.fallback t e s) := by
  unfold Machine.fallback
  try lift_lets
  repeat' first
    | with_reducible assumption
    | (intro x; with_reducible refine Keeps.cut (o := z0) x ?_ ?_; dsimp only [x]; rotate_left; try clear_value x)
    | (intro x; with_reducible refine Keeps.cut1 (o := z0) x ?_ ?_; dsimp only [x]; rotate_left; try clear_value x)
    | (intro x; with_reducible refine Keeps.cutF x ?_; try dsimp only [x])
    | (intro x; try clear_value x)
    | with_reducible apply Keeps.ite
    | with_reducible apply Keeps.ite1
    | with_reducible apply Keeps.updClk
    | with_reducible apply Keeps.swAbort
    | with_reducible apply Keeps.swBegin
    | with_reducible apply Keeps.set
    | ((first | rw [patch_eq] | skip); (with_reducible refine Keeps.patch ?_ ?_ ?_); rotate_left; (first | exact CelKeeps.refl _ | exact ⟨fun _ h => h, Nat.le_refl _⟩ | exact ⟨fun _ h => h, Nat.le_succ _⟩); (refine fun g => ?_; first | exact g | simpa only [SizesOk, Machine.patch, upd_length] using g | (simp only [SizesOk, Machine.patch, upd_length, List.length_map, List.length_replicate, true_and] at g ⊢; tauto)))
    | (fail_if_no_progress dsimp -zeta only)
    | split

theorem Keeps.nmiJoin {z0 s : State} {e : Nat} (hz : Keeps z0 s)  : Keeps z0 (Machine.nmiJoin e s) := by
  unfold Machine.nmiJoin
  repeat' first
    | with_reducible assumption
    | (intro x; with_reducible refine Keeps.cut (o := z0) x ?_ ?_; dsimp only [x]; rotate_left; try clear_value x)
    | (intro x; with_reducible refine Keeps.cut1 (o := z0) x ?_ ?_; dsimp only [x]; rotate_left; try clear_value x)
    | (intro x; with_reducible refine Keeps.cutF x ?_; try dsimp only [x])
    | (intro x; try clear_value x)
    | with_reducible apply Keeps.ite
    | with_reducible apply Keeps.ite1
    | with_reducible apply Keeps.updClk
    | ((first | rw [patch_eq] | skip); (with_reducible refine Keeps.patch ?_ ?_ ?_); rotate_left; (first | exact CelKeeps.refl _ | exact ⟨fun _ h => h, Nat.le_refl _⟩ | exact ⟨fun _ h => h, Nat.le_succ _⟩); (refine fun g => ?_; first | exact g | simpa only [SizesOk, Machine.patch, upd_length] using g | (simp only [SizesOk, Machine.patch, upd_length, List.length_map, List.length_replicate, true_and] at g ⊢; tauto)))
    | (fail_if_no_progress dsimp -zeta only)
    | split

theorem Keeps.swReached {z0 s : State} {t : Nat} (hz : Keeps z0 s)  : Keeps z0 (Machine.swReached t s) := by
  unfold Machine.swReached
  repeat' first
    | with_reducible assumption
    | with_reducible apply Keeps.set

theorem Keeps.wrSysSel {z0 s : State} {w : Word} (hz : Keeps z0 s)  : Keeps z0 (Machine.wrSysSel w s) := by
  unfold Machine.wrSysSel
  try lift_lets
  repeat' first
    | with_reducible assumption
    | (intro x; with_reducible refine Keeps.cut (o := z0) x ?_ ?_; dsimp only [x]; rotate_left; try clear_value x)
    | (intro x; with_reducible refine Keeps.cut1 (o := z0) x ?_ ?_; dsimp only [x]; rotate_left; try clear_value x)
    | (intro x; with_reducible refine Keeps.cutF x ?_; try dsimp only [x])
    | (intro x; try clear_value x)
    | with_reducible apply Keeps.ite
    | with_reducible apply Keeps.ite1
    | with_reducible apply Keeps.swBegin
    | with_reducible apply Keeps.set
    | with_reducible apply Keeps.ret
    | (fail_if_no_progress dsimp -zeta only)
    | split

theorem Keeps.sysSwitched {z0 s : State} {forced : Bool} (hz : Keeps z0 s)  : Keeps z0 (Machine.sysSwitched forced s) := by
  unfold Machine.sysSwitched
  repeat' first
    | with_reducible assumption
    | (intro x; with_reducible refine Keeps.cut (o := z0) x ?_ ?_; dsimp only [x]; rotate_left; try clear_value x)
    | (intro x; with_reducible refine Keeps.cut1 (o := z0) x ?_ ?_; dsimp only [x]; rotate_left; try clear_value x)
    | (intro x; with_reducible refine Keeps.cutF x ?_; try dsimp only [x])
    | (intro x; try clear_value x)
    | with_reducible apply Keeps.ite
    | with_reducible apply Keeps.ite1
    | with_reducible apply Keeps.foldl
    | with_reducible apply Keeps.foldl1
    | with_reducible apply Keeps.raise
    | with_reducible apply Keeps.updClk
    | with_reducible apply Keeps.clkEvt
    | with_reducible apply Keeps.swReached
    | with_reducible apply Keeps.set
    | ((first | rw [patch_eq] | skip); (with_reducible refine Keeps.patch ?_ ?_ ?_); rotate_left; (first | exact CelKeeps.refl _ | exact ⟨fun _ h => h, Nat.le_refl _⟩ | exact ⟨fun _ h => h, Nat.le_succ _⟩); (refine fun g => ?_; first | exact g | simpa only [SizesOk, Machine.patch, upd_length] using g | (simp only [SizesOk, Machine.patch, upd_length, List.length_map, List.length_replicate, true_and] at g ⊢; tauto)))
    | (fail_if_no_progress dsimp -zeta only)
    | split
    | lift_lets

theorem Keeps.foscReady {z0 s : State}  (hz : Keeps z0 s)  : Keeps z0 (Machine.foscReady s) := by
  unfold Machine.foscReady
  try lift_lets
  repeat' first
    | with_reducible assumption
    | (intro x; with_reducible refine Keeps.cut (o := z0) x ?_ ?_; dsimp only [x]; rotate_left; try clear_value x)
    | (intro x; with_reducible refine Keeps.cut1 (o := z0) x ?_ ?_; dsimp only [x]; rotate_left; try clear_value x)
    | (intro x; with_reducible refine Keeps.cutF x ?_; try dsimp only [x])
    | (intro x; try clear_value x)
    | with_reducible apply Keeps.ite
    | with_reducible apply Keeps.ite1
    | with_reducible apply Keeps.foldl
    | with_reducible apply Keeps.foldl1
    | with_reducible apply Keeps.raise
    | with_reducible apply Keeps.updClk
    | with_reducible apply Keeps.swReached
    | with_reducible apply Keeps.set
    | ((first | rw [patch_eq] | skip); (with_reducible refine Keeps.patch ?_ ?_ ?_); rotate_left; (first | exact CelKeeps.refl _ | exact ⟨fun _ h => h, Nat.le_refl _⟩ | exact ⟨fun _ h => h, Nat.le_succ _⟩); (refine fun g => ?_; first | exact g | simpa only [SizesOk, Machine.patch, upd_length] using g | (simp only [SizesOk, Machine.patch, upd_length, List.length_map, List.length_replicate, true_and] at g ⊢; tauto)))
    | (fail_if_no_progress dsimp -zeta only)
    | split

theorem Keeps.foscCheck {z0 s : State} {n : Nat} (hz : Keeps z0 s)  : Keeps z0 (Machine.foscCheck n s) := by
  unfold Machine.foscCheck
  try lift_lets
  repeat' first
    | with_reducible assumption
    | (intro x; with_reducible refine Keeps.cut (o := z0) x ?_ ?_; dsimp only [x]; rotate_left; try clear_value x)
    | (intro x; with_reducible refine Keeps.cut1 (o := z0) x ?_ ?_; dsimp only [x]; rotate_left; try clear_value x)
    | (intro x; with_reducible refine Keeps.cutF x ?_; try dsimp only [x])
    | (intro x; try clear_value x)
    | with_reducible apply Keeps.ite
    | with_reducible apply Keeps.ite1
    | with_reducible apply Keeps.raise
    | with_reducible apply Keeps.fallback
    | with_reducible apply Keeps.nmiJoin
    | with_reducible apply Keeps.set
    | (fail_if_no_progress dsimp -zeta only)
    | split

theorem Keeps.refFail {z0 s : State}  (hz : Keeps z0 s)  : Keeps z0 (Machine.refFail s) := by
  unfold Machine.refFail
  try lift_lets
  repeat' first
    | with_reducible assumption
    | (intro x; with_reducible refine Keeps.cut (o := z0) x ?_ ?_; dsimp only [x]; rotate_left; try clear_value x)
    | (intro x; with_reducible refine Keeps.cut1 (o := z0) x ?_ ?_; dsimp only [x]; rotate_left; try clear_value x)
    | (intro x; with_reducible refine Keeps.cutF x ?_; try dsimp only [x])
    | (intro x; try clear_value x)
    | with_reducible apply Keeps.ite
    | with_reducible apply Keeps.ite1
    | with_reducible apply Keeps.forN
    | with_reducible apply Keeps.raise
    | with_reducible apply Keeps.updClk
    | with_reducible apply Keeps.pllFall
    | with_reducible apply Keeps.fallback
    | with_reducible apply Keeps.nmiJoin
    | with_reducible apply Keeps.set
    | with_reducible apply Keeps.addSat
    | ((first | rw [patch_eq] | skip); (with_reducible refine Keeps.patch ?_ ?_ ?_); rotate_left; (first | exact CelKeeps.refl _ | exact ⟨fun _ h => h, Nat.le_refl _⟩ | exact ⟨fun _ h => h, Nat.le_succ _⟩); (refine fun g => ?_; first | exact g | simpa only [SizesOk, Machine.patch, upd_length] using g | (simp only [SizesOk, Machine.patch, upd_length, List.length_map, List.length_replicate, true_and] at g ⊢; tauto)))
    | (fail_if_no_progress dsimp -zeta only)
    | split

theorem Keeps.refGood {z0 s : State}  (hz : Keeps z0 s)  : Keeps z0 (Machine.refGood s) := by
  unfold Machine.refGood
  try lift_lets
  repeat' first
    | with_reducible assumption
    | (intro x; with_reducible refine Keeps.cut (o := z0) x ?_ ?_; dsimp only [x]; rotate_left; try clear_value x)
    | (intro x; try clear_value x)
    | with_reducible apply Keeps.updClk
    | with_reducible apply Keeps.clkEvt
    | with_reducible apply Keeps.set
    | ((first | rw [patch_eq] | skip); (with_reducible refine Keeps.patch ?_ ?_ ?_); rotate_left; (first | exact CelKeeps.refl _ | exact ⟨fun _ h => h, Nat.le_refl _⟩ | exact ⟨fun _ h => h, Nat.le_succ _⟩); (refine fun g => ?_; first | exact g | simpa only [SizesOk, Machine.patch, upd_length] using g | (simp only [SizesOk, Machine.patch, upd_length, List.length_map, List.length_replicate, true_and] at g ⊢; tauto)))

theorem Keeps.refWindow {z0 s : State} {n : Nat} (hz : Keeps z0 s)  : Keeps z0 (Machine.refWindow n s) := by
  unfold Machine.refWindow
  try lift_lets
  repeat' first
    | with_reducible assumption
    | (intro x; with_reducible refine Keeps.cut (o := z0) x ?_ ?_; dsimp only [x]; rotate_left; try clear_value x)
    | (intro x; try clear_value x)
    | with_reducible apply Keeps.ite
    | with_reducible apply Keeps.ite1
    | with_reducible apply Keeps.updClk
    | with_reducible apply Keeps.refFail
    | with_reducible apply Keeps.refGood
    | with_reducible apply Keeps.set
    | with_reducible apply Keeps.incMod
    | ((first | rw [patch_eq] | skip); (with_reducible refine Keeps.patch ?_ ?_ ?_); rotate_left; (first | exact CelKeeps.refl _ | exact ⟨fun _ h => h, Nat.le_refl _⟩ | exact ⟨fun _ h => h, Nat.le_succ _⟩); (refine fun g => ?_; first | exact g | simpa only [SizesOk, Machine.patch, upd_length] using g | (simp only [SizesOk, Machine.patch, upd_length, List.length_map, List.length_replicate, true_and] at g ⊢; tauto)))

theorem Keeps.wrRefmon {z0 s : State} {w : Word} (hz : Keeps z0 s)  : Keeps z0 (Machine.wrRefmon w s) := by
  unfold Machine.wrRefmon
  repeat' first
    | with_reducible assumption
    | with_reducible apply Keeps.ite
    | with_reducible apply Keeps.ite1
    | with_reducible apply Keeps.plainWrite
    | with_reducible apply Keeps.ret

theorem Keeps.discipline {z0 s : State} {n : Nat} (hz : Keeps z0 s)  : Keeps z0 (Machine.discipline n s) := by
  unfold Machine.discipline
  try lift_lets
  repeat' first
    | with_reducible assumption
    | (intro x; with_reducible refine Keeps.cut (o := z0) x ?_ ?_; dsimp only [x]; rotate_left; try clear_value x)
    | (intro x; try clear_value x)
    | with_reducible apply Keeps.ite
    | with_reducible apply Keeps.ite1
    | with_reducible apply Keeps.updClk
    | with_reducible apply Keeps.set
    | with_reducible apply Keeps.seti
    | ((first | rw [patch_eq] | skip); (with_reducible refine Keeps.patch ?_ ?_ ?_); rotate_left; (first | exact CelKeeps.refl _ | exact ⟨fun _ h => h, Nat.le_refl _⟩ | exact ⟨fun _ h => h, Nat.le_succ _⟩); (refine fun g => ?_; first | exact g | simpa only [SizesOk, Machine.patch, upd_length] using g | (simp only [SizesOk, Machine.patch, upd_length, List.length_map, List.length_replicate, true_and] at g ⊢; tauto)))

theorem Keeps.wrAoscInc {z0 s : State} {w : Word} (hz : Keeps z0 s)  : Keeps z0 (Machine.wrAoscInc w s) := by
  unfold Machine.wrAoscInc
  repeat' first
    | with_reducible assumption
    | with_reducible apply Keeps.ite
    | with_reducible apply Keeps.ite1
    | with_reducible apply Keeps.plainWrite
    | with_reducible apply Keeps.ret

theorem Keeps.wrAonH {z0 s : State} {w : Word} (hz : Keeps z0 s)  : Keeps z0 (Machine.wrAonH w s) := by
  unfold Machine.wrAonH
  repeat' first
    | with_reducible assumption
    | with_reducible apply Keeps.updClk
    | with_reducible apply Keeps.ret
    | ((first | rw [patch_eq] | skip); (with_reducible refine Keeps.patch ?_ ?_ ?_); rotate_left; (first | exact CelKeeps.refl _ | exact ⟨fun _ h => h, Nat.le_refl _⟩ | exact ⟨fun _ h => h, Nat.le_succ _⟩); (refine fun g => ?_; first | exact g | simpa only [SizesOk, Machine.patch, upd_length] using g | (simp only [SizesOk, Machine.patch, upd_length, List.length_map, List.length_replicate, true_and] at g ⊢; tauto)))

theorem Keeps.wrAonL {z0 s : State} {w : Word} (hz : Keeps z0 s)  : Keeps z0 (Machine.wrAonL w s) := by
  unfold Machine.wrAonL
  repeat' first
    | with_reducible assumption
    | with_reducible apply Keeps.updClk
    | with_reducible apply Keeps.ret
    | ((first | rw [patch_eq] | skip); (with_reducible refine Keeps.patch ?_ ?_ ?_); rotate_left; (first | exact CelKeeps.refl _ | exact ⟨fun _ h => h, Nat.le_refl _⟩ | exact ⟨fun _ h => h, Nat.le_succ _⟩); (refine fun g => ?_; first | exact g | simpa only [SizesOk, Machine.patch, upd_length] using g | (simp only [SizesOk, Machine.patch, upd_length, List.length_map, List.length_replicate, true_and] at g ⊢; tauto)))

theorem Keeps.rdAonL {z0 s : State}  (hz : Keeps z0 s)  : Keeps z0 (Machine.rdAonL s) := by
  unfold Machine.rdAonL
  repeat' first
    | with_reducible assumption
    | with_reducible apply Keeps.wr
    | with_reducible apply Keeps.retData

theorem Keeps.aoscCycle {z0 s : State}  (hz : Keeps z0 s)  : Keeps z0 (Machine.aoscCycle s) := by
  unfold Machine.aoscCycle
  repeat' first
    | with_reducible assumption
    | with_reducible apply Keeps.ite
    | with_reducible apply Keeps.ite1
    | with_reducible apply Keeps.updClk
    | ((first | rw [patch_eq] | skip); (with_reducible refine Keeps.patch ?_ ?_ ?_); rotate_left; (first | exact CelKeeps.refl _ | exact ⟨fun _ h => h, Nat.le_refl _⟩ | exact ⟨fun _ h => h, Nat.le_succ _⟩); (refine fun g => ?_; first | exact g | simpa only [SizesOk, Machine.patch, upd_length] using g | (simp only [SizesOk, Machine.patch, upd_length, List.length_map, List.length_replicate, true_and] at g ⊢; tauto)))

theorem Keeps.aoscReady {z0 s : State}  (hz : Keeps z0 s)  : Keeps z0 (Machine.aoscReady s) := by
  unfold Machine.aoscReady
  repeat' first
    | with_reducible assumption
    | with_reducible apply Keeps.set

theorem Keeps.gateTick {z0 s : State}  (hz : Keeps z0 s)  : Keeps z0 (Machine.gateTick s) := by
  unfold Machine.gateTick
  repeat' first
    | with_reducible assumption
    | (intro x; with_reducible refine Keeps.cut (o := z0) x ?_ ?_; dsimp only [x]; rotate_left; try clear_value x)
    | (intro x; with_reducible refine Keeps.cut1 (o := z0) x ?_ ?_; dsimp only [x]; rotate_left; try clear_value x)
    | (intro x; with_reducible refine Keeps.cutF x ?_; try dsimp only [x])
    | (intro x; try clear_value x)
    | with_reducible apply Keeps.ite
    | with_reducible apply Keeps.ite1
    | with_reducible apply Keeps.foldl
    | with_reducible apply Keeps.foldl1
    | with_reducible apply Keeps.gateWake
    | (fail_if_no_progress dsimp -zeta only)
    | split

theorem Keeps.gateIdle {z0 s : State} {b : Nat} (hz : Keeps z0 s)  : Keeps z0 (Machine.gateIdle b s) := by
  unfold Machine.gateIdle
  repeat' first
    | with_reducible assumption
    | (intro x; with_reducible refine Keeps.cut (o := z0) x ?_ ?_; dsimp only [x]; rotate_left; try clear_value x)
    | (intro x; with_reducible refine Keeps.cut1 (o := z0) x ?_ ?_; dsimp only [x]; rotate_left; try clear_value x)
    | (intro x; with_reducible refine Keeps.cutF x ?_; try dsimp only [x])
    | (intro x; try clear_value x)
    | with_reducible apply Keeps.ite
    | with_reducible apply Keeps.ite1
    | with_reducible apply Keeps.updClk
    | ((first | rw [patch_eq] | skip); (with_reducible refine Keeps.patch ?_ ?_ ?_); rotate_left; (first | exact CelKeeps.refl _ | exact ⟨fun _ h => h, Nat.le_refl _⟩ | exact ⟨fun _ h => h, Nat.le_succ _⟩); (refine fun g => ?_; first | exact g | simpa only [SizesOk, Machine.patch, upd_length] using g | (simp only [SizesOk, Machine.patch, upd_length, List.length_map, List.length_replicate, true_and] at g ⊢; tauto)))
    | (fail_if_no_progress dsimp -zeta only)
    | split

theorem Keeps.wrClkout {z0 s : State} {w : Word} (hz : Keeps z0 s)  : Keeps z0 (Machine.wrClkout w s) := by
  unfold Machine.wrClkout
  try lift_lets
  repeat' first
    | with_reducible assumption
    | (intro x; with_reducible refine Keeps.cutF x ?_; try dsimp only [x])
    | with_reducible apply Keeps.ite
    | with_reducible apply Keeps.ite1
    | with_reducible apply Keeps.set
    | with_reducible apply Keeps.store
    | with_reducible apply Keeps.ret

theorem Keeps.clkoutSwitched {z0 s : State} {forced : Bool} (hz : Keeps z0 s)  : Keeps z0 (Machine.clkoutSwitched forced s) := by
  unfold Machine.clkoutSwitched
  try lift_lets
  repeat' first
    | with_reducible assumption
    | (intro x; with_reducible refine Keeps.cut (o := z0) x ?_ ?_; dsimp only [x]; rotate_left; try clear_value x)
    | (intro x; try clear_value x)
    | with_reducible apply Keeps.ite
    | with_reducible apply Keeps.ite1
    | with_reducible apply Keeps.clkEvt
    | with_reducible apply Keeps.set

theorem Keeps.resetClk {z0 s : State}  (hz : Keeps z0 s)  : Keeps z0 (Machine.resetClk s) := by
  unfold Machine.resetClk
  try lift_lets
  repeat' first
    | with_reducible assumption
    | (intro x; with_reducible refine Keeps.cut (o := z0) x ?_ ?_; dsimp only [x]; rotate_left; try clear_value x)
    | (intro x; try clear_value x)
    | with_reducible apply Keeps.updClk
    | with_reducible apply Keeps.wr
    | with_reducible apply Keeps.set
    | with_reducible apply Keeps.dropRange
    | ((first | rw [patch_eq] | skip); (with_reducible refine Keeps.patch ?_ ?_ ?_); rotate_left; (first | exact CelKeeps.refl _ | exact ⟨fun _ h => h, Nat.le_refl _⟩ | exact ⟨fun _ h => h, Nat.le_succ _⟩); (refine fun g => ?_; first | exact g | simpa only [SizesOk, Machine.patch, upd_length] using g | (simp only [SizesOk, Machine.patch, upd_length, List.length_map, List.length_replicate, true_and] at g ⊢; tauto)))

theorem Keeps.sampleStraps {z0 s : State}  (hz : Keeps z0 s)  : Keeps z0 (Machine.sampleStraps s) := by
  unfold Machine.sampleStraps
  try lift_lets
  repeat' first
    | with_reducible assumption
    | (intro x; with_reducible refine Keeps.cut (o := z0) x ?_ ?_; dsimp only [x]; rotate_left; try clear_value x)
    | (intro x; try clear_value x)
    | with_reducible apply Keeps.ite
    | with_reducible apply Keeps.ite1
    | with_reducible apply Keeps.set

theorem Keeps.resetClkout {z0 s : State}  (hz : Keeps z0 s)  : Keeps z0 (Machine.resetClkout s) := by
  unfold Machine.resetClkout
  repeat' first
    | with_reducible assumption
    | with_reducible apply Keeps.wr

theorem Keeps.pllWrite {s z : State} {q : Rq} {p : Nat} {v : Nat} (e : Machine.pllWrite q p v s = .next z) : Keeps s z := by
  have hz := Keeps.refl s
  revert e
  unfold Machine.pllWrite
  first
    | (intro e; injection e with e; subst e; (repeat' first
         | with_reducible assumption
         | (intro x; try clear_value x)
         | with_reducible apply Keeps.gated
         | with_reducible apply Keeps.wrPllCtrl
         ); done)

theorem Keeps.execRampTick {s z : State}  (e : Machine.execRampTick s = .next z) : Keeps s z := by
  have hz := Keeps.refl s
  revert e
  unfold Machine.execRampTick
  first
    | (intro e; injection e with e; subst e; (repeat' first
         | with_reducible assumption
         | with_reducible apply Keeps.rampTick
         ); done)

theorem Keeps.execPllEnable {s z : State} {q : Rq} {p : Fin 4} (e : Machine.execPllEnable q p s = .next z) : Keeps s z := by
  have hz := Keeps.refl s
  revert e
  unfold Machine.execPllEnable
  first
    | exact fun e => Keeps.pllWrite e
    | (intro e; injection e with e; subst e; (repeat' first
         | with_reducible assumption
         | (intro x; with_reducible refine Keeps.cut (o := z0) x ?_ ?_; dsimp only [x]; rotate_left; try clear_value x)
         | (intro x; with_reducible refine Keeps.cut1 (o := z0) x ?_ ?_; dsimp only [x]; rotate_left; try clear_value x)
         | (intro x; with_reducible refine Keeps.cutF x ?_; try dsimp only [x])
         | (intro x; try clear_value x)
         | (fail_if_no_progress dsimp -zeta only)
         | split
         ); done)

theorem Keeps.execPllDisable {s z : State} {q : Rq} {p : Fin 4} (e : Machine.execPllDisable q p s = .next z) : Keeps s z := by
  have hz := Keeps.refl s
  revert e
  unfold Machine.execPllDisable
  first
    | exact fun e => Keeps.pllWrite e
    | (intro e; injection e with e; subst e; (repeat' first
         | with_reducible assumption
         | (intro x; with_reducible refine Keeps.cut (o := z0) x ?_ ?_; dsimp only [x]; rotate_left; try clear_value x)
         | (intro x; with_reducible refine Keeps.cut1 (o := z0) x ?_ ?_; dsimp only [x]; rotate_left; try clear_value x)
         | (intro x; with_reducible refine Keeps.cutF x ?_; try dsimp only [x])
         | (intro x; try clear_value x)
         | (fail_if_no_progress dsimp -zeta only)
         | split
         ); done)

theorem Keeps.execPllUnlock {s z : State} {p : Fin 4} (e : Machine.execPllUnlock p s = .next z) : Keeps s z := by
  have hz := Keeps.refl s
  revert e
  unfold Machine.execPllUnlock
  first
    | (intro e; injection e with e; subst e; (repeat' first
         | with_reducible assumption
         | with_reducible apply Keeps.pllFall
         ); done)

theorem Keeps.execBpllTrimWrite {s z : State} {q : Rq} {w : Word} (e : Machine.execBpllTrimWrite q w s = .next z) : Keeps s z := by
  have hz := Keeps.refl s
  revert e
  unfold Machine.execBpllTrimWrite
  first
    | (intro e; injection e with e; subst e; (repeat' first
         | with_reducible assumption
         | (intro x; try clear_value x)
         | with_reducible apply Keeps.gated
         | with_reducible apply Keeps.wrBpllTrim
         ); done)

theorem Keeps.execFoscCheck {s z : State} {n : Nat} (e : Machine.execFoscCheck n s = .next z) : Keeps s z := by
  have hz := Keeps.refl s
  revert e
  unfold Machine.execFoscCheck
  first
    | (intro e; injection e with e; subst e; (repeat' first
         | with_reducible assumption
         | with_reducible apply Keeps.foscCheck
         ); done)

theorem Keeps.execAoscDisciplineEnd {s z : State} {n : Nat} (e : Machine.execAoscDisciplineEnd n s = .next z) : Keeps s z := by
  have hz := Keeps.refl s
  revert e
  unfold Machine.execAoscDisciplineEnd
  first
    | (intro e; injection e with e; subst e; (repeat' first
         | with_reducible assumption
         | with_reducible apply Keeps.discipline
         ); done)

theorem Keeps.execAonTimeHWrite {s z : State} {q : Rq} {w : Word} (e : Machine.execAonTimeHWrite q w s = .next z) : Keeps s z := by
  have hz := Keeps.refl s
  revert e
  unfold Machine.execAonTimeHWrite
  first
    | (intro e; injection e with e; subst e; (repeat' first
         | with_reducible assumption
         | (intro x; try clear_value x)
         | with_reducible apply Keeps.gated
         | with_reducible apply Keeps.wrAonH
         ); done)

theorem Keeps.execAonTimeLoad {s z : State} {q : Rq} {w : Word} (e : Machine.execAonTimeLoad q w s = .next z) : Keeps s z := by
  have hz := Keeps.refl s
  revert e
  unfold Machine.execAonTimeLoad
  first
    | (intro e; injection e with e; subst e; (repeat' first
         | with_reducible assumption
         | (intro x; try clear_value x)
         | with_reducible apply Keeps.gated
         | with_reducible apply Keeps.wrAonL
         ); done)

theorem Keeps.execAonTimeLRead {s z : State} {q : Rq} (e : Machine.execAonTimeLRead q s = .next z) : Keeps s z := by
  have hz := Keeps.refl s
  revert e
  unfold Machine.execAonTimeLRead
  first
    | (intro e; injection e with e; subst e; (repeat' first
         | with_reducible assumption
         | (intro x; try clear_value x)
         | with_reducible apply Keeps.gatedRead
         | with_reducible apply Keeps.rdAonL
         ); done)

theorem Keeps.execRefmonWindowEnd {s z : State} {n : Nat} (e : Machine.execRefmonWindowEnd n s = .next z) : Keeps s z := by
  have hz := Keeps.refl s
  revert e
  unfold Machine.execRefmonWindowEnd
  first
    | (intro e; injection e with e; subst e; (repeat' first
         | with_reducible assumption
         | with_reducible apply Keeps.refWindow
         ); done)

theorem Keeps.execSysSrcSelect {s z : State} {q : Rq} {src : Bool} (e : Machine.execSysSrcSelect q src s = .next z) : Keeps s z := by
  have hz := Keeps.refl s
  revert e
  unfold Machine.execSysSrcSelect
  first
    | (intro e; injection e with e; subst e; (repeat' first
         | with_reducible assumption
         | (intro x; try clear_value x)
         | with_reducible apply Keeps.gated
         | with_reducible apply Keeps.wrSysSel
         ); done)

theorem Keeps.execClkoutWrite {s z : State} {q : Rq} {w : Word} (e : Machine.execClkoutWrite q w s = .next z) : Keeps s z := by
  have hz := Keeps.refl s
  revert e
  unfold Machine.execClkoutWrite
  first
    | (intro e; injection e with e; subst e; (repeat' first
         | with_reducible assumption
         | (intro x; try clear_value x)
         | with_reducible apply Keeps.gated
         | with_reducible apply Keeps.wrClkout
         ); done)

theorem Keeps.execClockGateIdle {s z : State} {b : Fin 24} (e : Machine.execClockGateIdle b s = .next z) : Keeps s z := by
  have hz := Keeps.refl s
  revert e
  unfold Machine.execClockGateIdle
  first
    | (intro e; injection e with e; subst e; (repeat' first
         | with_reducible assumption
         | with_reducible apply Keeps.gateIdle
         ); done)

theorem Keeps.execAoscReady {s z : State}  (e : Machine.execAoscReady s = .next z) : Keeps s z := by
  have hz := Keeps.refl s
  revert e
  unfold Machine.execAoscReady
  first
    | (intro e; injection e with e; subst e; (repeat' first
         | with_reducible assumption
         | with_reducible apply Keeps.aoscReady
         ); done)

end Sys2Proof.Machine
end

