-- ==== Sys2Proof/Laws/KeepGrd.lean ====
section
/-! SUPPORT. What the operations of Grd.lean keep. -/

set_option linter.all false

namespace Sys2Proof.Machine

theorem Keeps.updHkd {z0 s : State} {p : Nat} {f : HkPin → HkPin} (hz : Keeps z0 s)  : Keeps z0 (Machine.updHkd p f s) := by
  unfold Machine.updHkd
  exact Keeps.upd hz rfl rfl rfl rfl rfl (CelKeeps.refl _) rfl (fun g => by simp_all [SizesOk])

theorem Keeps.hkcEvt {z0 s : State} {b : Nat} (hz : Keeps z0 s)  : Keeps z0 (Machine.hkcEvt b s) := by
  unfold Machine.hkcEvt
  repeat' first
    | with_reducible assumption
    | with_reducible apply Keeps.flag

theorem Keeps.scanStart {z0 s : State}  (hz : Keeps z0 s)  : Keeps z0 (Machine.scanStart s) := by
  unfold Machine.scanStart
  try lift_lets
  repeat' first
    | with_reducible assumption
    | (intro x; with_reducible refine Keeps.cut (o := z0) x ?_ ?_; dsimp only [x]; rotate_left; try clear_value x)
    | (intro x; try clear_value x)
    | with_reducible apply Keeps.forN
    | with_reducible apply Keeps.wr
    | with_reducible apply Keeps.set
    | ((first | rw [patch_eq] | skip); (with_reducible refine Keeps.patch ?_ ?_ ?_); rotate_left; (first | exact CelKeeps.refl _ | exact ⟨fun _ h => h, Nat.le_refl _⟩ | exact ⟨fun _ h => h, Nat.le_succ _⟩); (refine fun g => ?_; first | exact g | simpa only [SizesOk, Machine.patch, upd_length] using g | (simp only [SizesOk, Machine.patch, upd_length, List.length_map, List.length_replicate, true_and] at g ⊢; tauto)))

theorem Keeps.wrScanCtrl {z0 s : State} {w : Word} (hz : Keeps z0 s)  : Keeps z0 (Machine.wrScanCtrl w s) := by
  unfold Machine.wrScanCtrl
  repeat' first
    | with_reducible assumption
    | with_reducible apply Keeps.ite
    | with_reducible apply Keeps.ite1
    | with_reducible apply Keeps.plainWrite
    | with_reducible apply Keeps.scanStart
    | with_reducible apply Keeps.set
    | with_reducible apply Keeps.store
    | with_reducible apply Keeps.ret

theorem Keeps.entryEnd {z0 s : State} {outs : List (BitVec 16)} {ovr : Bool} (hz : Keeps z0 s)  : Keeps z0 (Machine.entryEnd outs ovr s) := by
  unfold Machine.entryEnd
  try lift_lets
  repeat' first
    | with_reducible assumption
    | (intro x; with_reducible refine Keeps.cut (o := z0) x ?_ ?_; dsimp only [x]; rotate_left; try clear_value x)
    | (intro x; try clear_value x)
    | with_reducible apply Keeps.ite
    | with_reducible apply Keeps.ite1
    | with_reducible apply Keeps.hkcEvt
    | with_reducible apply Keeps.scanStart
    | with_reducible apply Keeps.wr
    | with_reducible apply Keeps.set
    | ((first | rw [patch_eq] | skip); (with_reducible refine Keeps.patch ?_ ?_ ?_); rotate_left; (first | exact CelKeeps.refl _ | exact ⟨fun _ h => h, Nat.le_refl _⟩ | exact ⟨fun _ h => h, Nat.le_succ _⟩); (refine fun g => ?_; first | exact g | simpa only [SizesOk, Machine.patch, upd_length] using g | (simp only [SizesOk, Machine.patch, upd_length, List.length_map, List.length_replicate, true_and] at g ⊢; tauto)))

theorem Keeps.wrHkcEnt {z0 s : State} {i : Nat} {w : Word} (hz : Keeps z0 s)  : Keeps z0 (Machine.wrHkcEnt i w s) := by
  unfold Machine.wrHkcEnt
  repeat' first
    | with_reducible assumption
    | with_reducible apply Keeps.ite
    | with_reducible apply Keeps.ite1
    | with_reducible apply Keeps.plainWrite
    | with_reducible apply Keeps.ret

theorem Keeps.pinsZero {z0 s : State} {n : Nat} (hz : Keeps z0 s)  : Keeps z0 (Machine.pinsZero n s) := by
  unfold Machine.pinsZero
  repeat' first
    | with_reducible assumption
    | (intro x; try clear_value x)
    | with_reducible apply Keeps.ite
    | with_reducible apply Keeps.ite1
    | with_reducible apply Keeps.forN
    | with_reducible apply Keeps.updHkd
    | ((first | rw [patch_eq] | skip); (with_reducible refine Keeps.patch ?_ ?_ ?_); rotate_left; (first | exact CelKeeps.refl _ | exact ⟨fun _ h => h, Nat.le_refl _⟩ | exact ⟨fun _ h => h, Nat.le_succ _⟩); (refine fun g => ?_; first | exact g | simpa only [SizesOk, Machine.patch, upd_length] using g | (simp only [SizesOk, Machine.patch, upd_length, List.length_map, List.length_replicate, true_and] at g ⊢; tauto)))

theorem Keeps.laserOff {z0 s : State} {n : Nat} {cause : Nat} (hz : Keeps z0 s)  : Keeps z0 (Machine.laserOff n cause s) := by
  unfold Machine.laserOff
  repeat' first
    | with_reducible assumption
    | with_reducible apply Keeps.forceOn
    | with_reducible apply Keeps.pinsZero

theorem Keeps.txDisAssert {z0 s : State}  (hz : Keeps z0 s)  : Keeps z0 (Machine.txDisAssert s) := by
  unfold Machine.txDisAssert
  repeat' first
    | with_reducible assumption
    | (intro x; try clear_value x)
    | with_reducible apply Keeps.ite
    | with_reducible apply Keeps.ite1
    | with_reducible apply Keeps.forN
    | with_reducible apply Keeps.laserOff
    | with_reducible apply Keeps.set
    | with_reducible apply Keeps.addSat

theorem Keeps.txDisDeassert {z0 s : State}  (hz : Keeps z0 s)  : Keeps z0 (Machine.txDisDeassert s) := by
  unfold Machine.txDisDeassert
  repeat' first
    | with_reducible assumption
    | (intro x; try clear_value x)
    | with_reducible apply Keeps.ite
    | with_reducible apply Keeps.ite1
    | with_reducible apply Keeps.forN
    | with_reducible apply Keeps.forceOff
    | with_reducible apply Keeps.set

theorem Keeps.pinTrip {z0 s : State} {p : Nat} (hz : Keeps z0 s)  : Keeps z0 (Machine.pinTrip p s) := by
  unfold Machine.pinTrip
  try lift_lets
  repeat' first
    | with_reducible assumption
    | (intro x; with_reducible refine Keeps.cut (o := z0) x ?_ ?_; dsimp only [x]; rotate_left; try clear_value x)
    | (intro x; try clear_value x)
    | with_reducible apply Keeps.ite
    | with_reducible apply Keeps.ite1
    | with_reducible apply Keeps.raise
    | with_reducible apply Keeps.laserOff
    | with_reducible apply Keeps.set
    | ((first | rw [patch_eq] | skip); (with_reducible refine Keeps.patch ?_ ?_ ?_); rotate_left; (first | exact CelKeeps.refl _ | exact ⟨fun _ h => h, Nat.le_refl _⟩ | exact ⟨fun _ h => h, Nat.le_succ _⟩); (refine fun g => ?_; first | exact g | simpa only [SizesOk, Machine.patch, upd_length] using g | (simp only [SizesOk, Machine.patch, upd_length, List.length_map, List.length_replicate, true_and] at g ⊢; tauto)))

theorem Keeps.wrTripClr {z0 s : State} {w : Word} (hz : Keeps z0 s)  : Keeps z0 (Machine.wrTripClr w s) := by
  unfold Machine.wrTripClr
  try lift_lets
  repeat' first
    | with_reducible assumption
    | with_reducible apply Keeps.ite2
    | (intro x; with_reducible refine Keeps.cutF x ?_; try dsimp only [x])
    | (intro x; try clear_value x)
    | with_reducible apply Keeps.ite
    | with_reducible apply Keeps.ite1
    | with_reducible apply Keeps.forN
    | with_reducible apply Keeps.forceOff
    | with_reducible apply Keeps.set
    | with_reducible apply Keeps.ret
    | ((first | rw [patch_eq] | skip); (with_reducible refine Keeps.patch ?_ ?_ ?_); rotate_left; (first | exact CelKeeps.refl _ | exact ⟨fun _ h => h, Nat.le_refl _⟩ | exact ⟨fun _ h => h, Nat.le_succ _⟩); (refine fun g => ?_; first | exact g | simpa only [SizesOk, Machine.patch, upd_length] using g | (simp only [SizesOk, Machine.patch, upd_length, List.length_map, List.length_replicate, true_and] at g ⊢; tauto)))

theorem Keeps.pinUpdate {z0 s : State} {p : Nat} (hz : Keeps z0 s)  : Keeps z0 (Machine.pinUpdate p s) := by
  unfold Machine.pinUpdate
  try lift_lets
  repeat' first
    | with_reducible assumption
    | (intro x; with_reducible refine Keeps.cut (o := z0) x ?_ ?_; dsimp only [x]; rotate_left; try clear_value x)
    | (intro x; try clear_value x)
    | with_reducible apply Keeps.ite
    | with_reducible apply Keeps.ite1
    | with_reducible apply Keeps.updHkd
    | with_reducible apply Keeps.hkcEvt
    | with_reducible apply Keeps.set
    | with_reducible apply Keeps.addSat
    | ((first | rw [patch_eq] | skip); (with_reducible refine Keeps.patch ?_ ?_ ?_); rotate_left; (first | exact CelKeeps.refl _ | exact ⟨fun _ h => h, Nat.le_refl _⟩ | exact ⟨fun _ h => h, Nat.le_succ _⟩); (refine fun g => ?_; first | exact g | simpa only [SizesOk, Machine.patch, upd_length] using g | (simp only [SizesOk, Machine.patch, upd_length, List.length_map, List.length_replicate, true_and] at g ⊢; tauto)))

theorem Keeps.hkdUpdate {z0 s : State}  (hz : Keeps z0 s)  : Keeps z0 (Machine.hkdUpdate s) := by
  unfold Machine.hkdUpdate
  repeat' first
    | with_reducible assumption
    | (intro x; try clear_value x)
    | with_reducible apply Keeps.ite
    | with_reducible apply Keeps.ite1
    | with_reducible apply Keeps.forN
    | with_reducible apply Keeps.pinUpdate

theorem Keeps.pinEnd {z0 s : State} {p : Nat} {c : Code} (hz : Keeps z0 s)  : Keeps z0 (Machine.pinEnd p c s) := by
  unfold Machine.pinEnd
  repeat' first
    | with_reducible assumption
    | with_reducible apply Keeps.set
    | with_reducible apply Keeps.ret

theorem Keeps.wrHkdCtrl {z0 s : State} {p : Nat} {w : Word} (hz : Keeps z0 s)  : Keeps z0 (Machine.wrHkdCtrl p w s) := by
  unfold Machine.wrHkdCtrl
  try lift_lets
  repeat' first
    | with_reducible assumption
    | (intro x; with_reducible refine Keeps.cut (o := z0) x ?_ ?_; dsimp only [x]; rotate_left; try clear_value x)
    | (intro x; try clear_value x)
    | with_reducible apply Keeps.ite
    | with_reducible apply Keeps.ite1
    | with_reducible apply Keeps.updHkd
    | with_reducible apply Keeps.pinEnd
    | with_reducible apply Keeps.set
    | with_reducible apply Keeps.store
    | ((first | rw [patch_eq] | skip); (with_reducible refine Keeps.patch ?_ ?_ ?_); rotate_left; (first | exact CelKeeps.refl _ | exact ⟨fun _ h => h, Nat.le_refl _⟩ | exact ⟨fun _ h => h, Nat.le_succ _⟩); (refine fun g => ?_; first | exact g | simpa only [SizesOk, Machine.patch, upd_length] using g | (simp only [SizesOk, Machine.patch, upd_length, List.length_map, List.length_replicate, true_and] at g ⊢; tauto)))

theorem Keeps.pinConnect {z0 s : State} {p : Nat} (hz : Keeps z0 s)  : Keeps z0 (Machine.pinConnect p s) := by
  unfold Machine.pinConnect
  repeat' first
    | with_reducible assumption
    | with_reducible apply Keeps.ite
    | with_reducible apply Keeps.ite1
    | with_reducible apply Keeps.updHkd
    | with_reducible apply Keeps.pinUpdate
    | with_reducible apply Keeps.set
    | ((first | rw [patch_eq] | skip); (with_reducible refine Keeps.patch ?_ ?_ ?_); rotate_left; (first | exact CelKeeps.refl _ | exact ⟨fun _ h => h, Nat.le_refl _⟩ | exact ⟨fun _ h => h, Nat.le_succ _⟩); (refine fun g => ?_; first | exact g | simpa only [SizesOk, Machine.patch, upd_length] using g | (simp only [SizesOk, Machine.patch, upd_length, List.length_map, List.length_replicate, true_and] at g ⊢; tauto)))

theorem Keeps.wrHkdVal {z0 s : State} {p : Nat} {w : Word} (hz : Keeps z0 s)  : Keeps z0 (Machine.wrHkdVal p w s) := by
  unfold Machine.wrHkdVal
  try lift_lets
  repeat' first
    | with_reducible assumption
    | (intro x; with_reducible refine Keeps.cut (o := z0) x ?_ ?_; dsimp only [x]; rotate_left; try clear_value x)
    | (intro x; try clear_value x)
    | with_reducible apply Keeps.ite
    | with_reducible apply Keeps.ite1
    | with_reducible apply Keeps.updHkd
    | with_reducible apply Keeps.pinEnd
    | with_reducible apply Keeps.store
    | ((first | rw [patch_eq] | skip); (with_reducible refine Keeps.patch ?_ ?_ ?_); rotate_left; (first | exact CelKeeps.refl _ | exact ⟨fun _ h => h, Nat.le_refl _⟩ | exact ⟨fun _ h => h, Nat.le_succ _⟩); (refine fun g => ?_; first | exact g | simpa only [SizesOk, Machine.patch, upd_length] using g | (simp only [SizesOk, Machine.patch, upd_length, List.length_map, List.length_replicate, true_and] at g ⊢; tauto)))

theorem Keeps.rdHkdStat {z0 s : State} {p : Nat} (hz : Keeps z0 s)  : Keeps z0 (Machine.rdHkdStat p s) := by
  unfold Machine.rdHkdStat
  repeat' first
    | with_reducible assumption
    | with_reducible apply Keeps.plainRead
    | with_reducible apply Keeps.set

theorem Keeps.wrGrdLock {z0 s : State} {w : Word} (hz : Keeps z0 s)  : Keeps z0 (Machine.wrGrdLock w s) := by
  unfold Machine.wrGrdLock
  repeat' first
    | with_reducible assumption
    | with_reducible apply Keeps.ite
    | with_reducible apply Keeps.ite1
    | with_reducible apply Keeps.set
    | with_reducible apply Keeps.ret

theorem Keeps.swingClamp {z0 s : State}  (hz : Keeps z0 s)  : Keeps z0 (Machine.swingClamp s) := by
  unfold Machine.swingClamp
  repeat' first
    | with_reducible assumption
    | (intro x; try clear_value x)
    | with_reducible apply Keeps.ite
    | with_reducible apply Keeps.ite1
    | with_reducible apply Keeps.forN
    | with_reducible apply Keeps.set

theorem Keeps.wrGrdSwing {z0 s : State} {w : Word} (hz : Keeps z0 s)  : Keeps z0 (Machine.wrGrdSwing w s) := by
  unfold Machine.wrGrdSwing
  repeat' first
    | with_reducible assumption
    | with_reducible apply Keeps.ite
    | with_reducible apply Keeps.ite1
    | with_reducible apply Keeps.swingClamp
    | with_reducible apply Keeps.store
    | with_reducible apply Keeps.ret

theorem Keeps.wrGrdGain {z0 s : State} {d : Nat} {w : Word} (hz : Keeps z0 s)  : Keeps z0 (Machine.wrGrdGain d w s) := by
  unfold Machine.wrGrdGain
  repeat' first
    | with_reducible assumption
    | with_reducible apply Keeps.ite
    | with_reducible apply Keeps.ite1
    | with_reducible apply Keeps.gainTighten
    | with_reducible apply Keeps.store
    | with_reducible apply Keeps.ret

theorem Keeps.wrPinLim {z0 s : State} {p : Nat} {w : Word} (hz : Keeps z0 s)  : Keeps z0 (Machine.wrPinLim p w s) := by
  unfold Machine.wrPinLim
  try lift_lets
  repeat' first
    | with_reducible assumption
    | (intro x; try clear_value x)
    | with_reducible apply Keeps.ite
    | with_reducible apply Keeps.ite1
    | with_reducible apply Keeps.plainWrite
    | with_reducible apply Keeps.ret

theorem Keeps.rdGrdStat {z0 s : State}  (hz : Keeps z0 s)  : Keeps z0 (Machine.rdGrdStat s) := by
  unfold Machine.rdGrdStat
  repeat' first
    | with_reducible assumption
    | with_reducible apply Keeps.plainRead
    | with_reducible apply Keeps.set

theorem Keeps.resetHkc {z0 s : State}  (hz : Keeps z0 s)  : Keeps z0 (Machine.resetHkc s) := by
  unfold Machine.resetHkc
  repeat' first
    | with_reducible assumption
    | with_reducible apply Keeps.dropRange
    | ((first | rw [patch_eq] | skip); (with_reducible refine Keeps.patch ?_ ?_ ?_); rotate_left; (first | exact CelKeeps.refl _ | exact ⟨fun _ h => h, Nat.le_refl _⟩ | exact ⟨fun _ h => h, Nat.le_succ _⟩); (refine fun g => ?_; first | exact g | simpa only [SizesOk, Machine.patch, upd_length] using g | (simp only [SizesOk, Machine.patch, upd_length, List.length_map, List.length_replicate, true_and] at g ⊢; tauto)))

theorem Keeps.resetGrd {z0 s : State}  (hz : Keeps z0 s)  : Keeps z0 (Machine.resetGrd s) := by
  unfold Machine.resetGrd
  try lift_lets
  repeat' first
    | with_reducible assumption
    | (intro x; with_reducible refine Keeps.cut (o := z0) x ?_ ?_; dsimp only [x]; rotate_left; try clear_value x)
    | (intro x; try clear_value x)
    | with_reducible apply Keeps.forN
    | with_reducible apply Keeps.forceOff
    | with_reducible apply Keeps.set
    | with_reducible apply Keeps.dropRange
    | ((first | rw [patch_eq] | skip); (with_reducible refine Keeps.patch ?_ ?_ ?_); rotate_left; (first | exact CelKeeps.refl _ | exact ⟨fun _ h => h, Nat.le_refl _⟩ | exact ⟨fun _ h => h, Nat.le_succ _⟩); (refine fun g => ?_; first | exact g | simpa only [SizesOk, Machine.patch, upd_length] using g | (simp only [SizesOk, Machine.patch, upd_length, List.length_map, List.length_replicate, true_and] at g ⊢; tauto)))

theorem Keeps.execHkcScanRun {s z : State} {q : Rq} {w : Word} (e : Machine.execHkcScanRun q w s = .next z) : Keeps s z := by
  have hz := Keeps.refl s
  revert e
  unfold Machine.execHkcScanRun
  first
    | (intro e; injection e with e; subst e; (repeat' first
         | with_reducible assumption
         | (intro x; try clear_value x)
         | with_reducible apply Keeps.gated
         | with_reducible apply Keeps.wrScanCtrl
         ); done)

theorem Keeps.execHkcEntryEnd {s z : State} {outs : List (BitVec 16)} {ovr : Bool} (e : Machine.execHkcEntryEnd outs ovr s = .next z) : Keeps s z := by
  have hz := Keeps.refl s
  revert e
  unfold Machine.execHkcEntryEnd
  first
    | (intro e; injection e with e; subst e; (repeat' first
         | with_reducible assumption
         | with_reducible apply Keeps.entryEnd
         ); done)

theorem Keeps.hkdWrite {s z : State} {q : Rq} {p : Nat} {w : Word} (e : Machine.hkdWrite q p w s = .next z) : Keeps s z := by
  have hz := Keeps.refl s
  revert e
  unfold Machine.hkdWrite
  first
    | (intro e; injection e with e; subst e; (repeat' first
         | with_reducible assumption
         | (intro x; try clear_value x)
         | with_reducible apply Keeps.gated
         | with_reducible apply Keeps.wrHkdCtrl
         ); done)

theorem Keeps.execHkdEnable {s z : State} {q : Rq} {p : Fin 16} {w : Word} (e : Machine.execHkdEnable q p w s = .next z) : Keeps s z := by
  have hz := Keeps.refl s
  revert e
  unfold Machine.execHkdEnable
  first
    | exact fun e => Keeps.hkdWrite e
    | (intro e; injection e with e; subst e; (repeat' first
         | with_reducible assumption
         | (intro x; with_reducible refine Keeps.cut (o := z0) x ?_ ?_; dsimp only [x]; rotate_left; try clear_value x)
         | (intro x; with_reducible refine Keeps.cut1 (o := z0) x ?_ ?_; dsimp only [x]; rotate_left; try clear_value x)
         | (intro x; with_reducible refine Keeps.cutF x ?_; try dsimp only [x])
         | (intro x; try clear_value x)
         | (fail_if_no_progress dsimp -zeta only)
         | split
         ); done)

theorem Keeps.execHkdDisable {s z : State} {q : Rq} {p : Fin 16} {w : Word} (e : Machine.execHkdDisable q p w s = .next z) : Keeps s z := by
  have hz := Keeps.refl s
  revert e
  unfold Machine.execHkdDisable
  first
    | exact fun e => Keeps.hkdWrite e
    | (intro e; injection e with e; subst e; (repeat' first
         | with_reducible assumption
         | (intro x; with_reducible refine Keeps.cut (o := z0) x ?_ ?_; dsimp only [x]; rotate_left; try clear_value x)
         | (intro x; with_reducible refine Keeps.cut1 (o := z0) x ?_ ?_; dsimp only [x]; rotate_left; try clear_value x)
         | (intro x; with_reducible refine Keeps.cutF x ?_; try dsimp only [x])
         | (intro x; try clear_value x)
         | (fail_if_no_progress dsimp -zeta only)
         | split
         ); done)

theorem Keeps.execHkdConnect {s z : State} {p : Fin 16} (e : Machine.execHkdConnect p s = .next z) : Keeps s z := by
  have hz := Keeps.refl s
  revert e
  unfold Machine.execHkdConnect
  first
    | (intro e; injection e with e; subst e; (repeat' first
         | with_reducible assumption
         | with_reducible apply Keeps.pinConnect
         ); done)

theorem Keeps.execHkdUpdate {s z : State}  (e : Machine.execHkdUpdate s = .next z) : Keeps s z := by
  have hz := Keeps.refl s
  revert e
  unfold Machine.execHkdUpdate
  first
    | (intro e; injection e with e; subst e; (repeat' first
         | with_reducible assumption
         | with_reducible apply Keeps.hkdUpdate
         ); done)

theorem Keeps.execHkdValueWrite {s z : State} {q : Rq} {p : Fin 16} {w : Word} (e : Machine.execHkdValueWrite q p w s = .next z) : Keeps s z := by
  have hz := Keeps.refl s
  revert e
  unfold Machine.execHkdValueWrite
  first
    | (intro e; injection e with e; subst e; (repeat' first
         | with_reducible assumption
         | (intro x; try clear_value x)
         | with_reducible apply Keeps.gated
         | with_reducible apply Keeps.wrHkdVal
         ); done)

theorem Keeps.execHkdStatRead {s z : State} {q : Rq} {p : Fin 16} (e : Machine.execHkdStatRead q p s = .next z) : Keeps s z := by
  have hz := Keeps.refl s
  revert e
  unfold Machine.execHkdStatRead
  first
    | (intro e; injection e with e; subst e; (repeat' first
         | with_reducible assumption
         | (intro x; try clear_value x)
         | with_reducible apply Keeps.gatedRead
         | with_reducible apply Keeps.rdHkdStat
         ); done)

theorem Keeps.execGuardLimitWrite {s z : State} {q : Rq} {k : Fin 19} {w : Word} (e : Machine.execGuardLimitWrite q k w s = .next z) : Keeps s z := by
  have hz := Keeps.refl s
  revert e
  unfold Machine.execGuardLimitWrite
  first
    | (intro e; injection e with e; subst e; (repeat' first
         | with_reducible assumption
         | (intro x; try clear_value x)
         | with_reducible apply Keeps.ite
         | with_reducible apply Keeps.ite1
         | with_reducible apply Keeps.gated
         | with_reducible apply Keeps.wrGrdSwing
         | with_reducible apply Keeps.wrGrdGain
         | with_reducible apply Keeps.wrPinLim
         ); done)

theorem Keeps.execHkdMonitorTrip {s z : State} {p : Fin 16} (e : Machine.execHkdMonitorTrip p s = .next z) : Keeps s z := by
  have hz := Keeps.refl s
  revert e
  unfold Machine.execHkdMonitorTrip
  first
    | (intro e; injection e with e; subst e; (repeat' first
         | with_reducible assumption
         | with_reducible apply Keeps.pinTrip
         ); done)

theorem Keeps.execTxDisableAssert {s z : State}  (e : Machine.execTxDisableAssert s = .next z) : Keeps s z := by
  have hz := Keeps.refl s
  revert e
  unfold Machine.execTxDisableAssert
  first
    | (intro e; injection e with e; subst e; (repeat' first
         | with_reducible assumption
         | with_reducible apply Keeps.txDisAssert
         ); done)

theorem Keeps.execTxDisableDeassert {s z : State}  (e : Machine.execTxDisableDeassert s = .next z) : Keeps s z := by
  have hz := Keeps.refl s
  revert e
  unfold Machine.execTxDisableDeassert
  first
    | (intro e; injection e with e; subst e; (repeat' first
         | with_reducible assumption
         | with_reducible apply Keeps.txDisDeassert
         ); done)

theorem Keeps.execTripClear {s z : State} {q : Rq} {w : Word} (e : Machine.execTripClear q w s = .next z) : Keeps s z := by
  have hz := Keeps.refl s
  revert e
  unfold Machine.execTripClear
  first
    | (intro e; injection e with e; subst e; (repeat' first
         | with_reducible assumption
         | (intro x; try clear_value x)
         | with_reducible apply Keeps.gated
         | with_reducible apply Keeps.wrTripClr
         ); done)

theorem Keeps.execGrdStatRead {s z : State} {q : Rq} (e : Machine.execGrdStatRead q s = .next z) : Keeps s z := by
  have hz := Keeps.refl s
  revert e
  unfold Machine.execGrdStatRead
  first
    | (intro e; injection e with e; subst e; (repeat' first
         | with_reducible assumption
         | (intro x; try clear_value x)
         | with_reducible apply Keeps.gatedRead
         | with_reducible apply Keeps.rdGrdStat
         ); done)

end Sys2Proof.Machine
end

