-- ==== Sys2Proof/Laws/KeepPwr.lean ====
section
/-! SUPPORT. What the operations of Pwr.lean keep. -/

set_option linter.all false

namespace Sys2Proof.Machine

theorem Keeps.updPwr {o s : State} {f : Pwr → Pwr} (h : Keeps o s) (hf : ∀ p k, (f p).saved = some k → p.saved = some k) :
    Keeps o (Machine.updPwr f s) :=
  h.upd rfl rfl rfl rfl rfl (CelKeeps.refl _) rfl fun g => by
    simp only [SizesOk, Machine.updPwr] at g ⊢
    obtain ⟨a1, a2, a3, a4, a5, a6, a7, a8, a9, a10, a11, a12, a13, a14, a⟩ := g
    exact ⟨a1, a2, a3, a4, a5, a6, a7, a8, a9, a10, a11, a12, a13, a14, fun k hk => a k (hf _ _ hk)⟩

theorem Keeps.pwrEvt {z0 s : State} {b : Nat} (hz : Keeps z0 s)  : Keeps z0 (Machine.pwrEvt b s) := by
  unfold Machine.pwrEvt
  repeat' first
    | with_reducible assumption
    | with_reducible apply Keeps.flag

theorem Keeps.avsStart {z0 s : State} {r : Avs} (hz : Keeps z0 s)  : Keeps z0 (Machine.avsStart r s) := by
  unfold Machine.avsStart
  repeat' first
    | exact fun _ _ e => e
    | (exact fun _ _ e => absurd (Eq.symm e) (Option.some_ne_none _))
    | with_reducible assumption
    | with_reducible apply Keeps.updPwr
    | with_reducible apply Keeps.set
    | ((first | rw [patch_eq] | skip); (with_reducible refine Keeps.patch ?_ ?_ ?_); rotate_left; (first | exact CelKeeps.refl _ | exact ⟨fun _ h => h, Nat.le_refl _⟩ | exact ⟨fun _ h => h, Nat.le_succ _⟩); (refine fun g => ?_; first | exact g | simpa only [SizesOk, Machine.patch, upd_length] using g | (simp only [SizesOk, Machine.patch, upd_length, List.length_map, List.length_replicate, true_and] at g ⊢; tauto)))

theorem Keeps.avsHardware {z0 s : State} {r : Avs} (hz : Keeps z0 s)  : Keeps z0 (Machine.avsHardware r s) := by
  unfold Machine.avsHardware
  repeat' first
    | exact fun _ _ e => e
    | (exact fun _ _ e => absurd (Eq.symm e) (Option.some_ne_none _))
    | with_reducible assumption
    | with_reducible apply Keeps.updPwr
    | with_reducible apply Keeps.avsStart
    | (fail_if_no_progress dsimp -zeta only)
    | split

theorem Keeps.wrAvsReq {z0 s : State} {w : Word} (hz : Keeps z0 s)  : Keeps z0 (Machine.wrAvsReq w s) := by
  unfold Machine.wrAvsReq
  try lift_lets
  repeat' first
    | with_reducible assumption
    | (intro x; with_reducible refine Keeps.cutF x ?_; try dsimp only [x])
    | (intro x; try clear_value x)
    | with_reducible apply Keeps.ite
    | with_reducible apply Keeps.ite1
    | with_reducible apply Keeps.plainWrite
    | with_reducible apply Keeps.avsStart
    | with_reducible apply Keeps.wr
    | with_reducible apply Keeps.set
    | with_reducible apply Keeps.ret
    | with_reducible apply Keeps.store

theorem Keeps.avsEnd {z0 s : State} {r : Avs} {c : Code} (hz : Keeps z0 s)  : Keeps z0 (Machine.avsEnd r c s) := by
  unfold Machine.avsEnd
  repeat' first
    | exact fun _ _ e => e
    | (exact fun _ _ e => absurd (Eq.symm e) (Option.some_ne_none _))
    | with_reducible assumption
    | (intro x; with_reducible refine Keeps.cut (o := z0) x ?_ ?_; dsimp only [x]; rotate_left; try clear_value x)
    | (intro x; try clear_value x)
    | with_reducible apply Keeps.ite
    | with_reducible apply Keeps.ite1
    | with_reducible apply Keeps.updPwr
    | with_reducible apply Keeps.pwrEvt
    | with_reducible apply Keeps.avsStart
    | with_reducible apply Keeps.set
    | (fail_if_no_progress dsimp -zeta only)
    | split
    | lift_lets

theorem Keeps.avsResponse {z0 s : State} {ack : Nat} {vdone : Bool} {mv : Option Nat} (hz : Keeps z0 s)  : Keeps z0 (Machine.avsResponse ack vdone mv s) := by
  unfold Machine.avsResponse
  repeat' first
    | exact fun _ _ e => e
    | (exact fun _ _ e => absurd (Eq.symm e) (Option.some_ne_none _))
    | with_reducible assumption
    | with_reducible apply Keeps.ite
    | with_reducible apply Keeps.ite1
    | with_reducible apply Keeps.updPwr
    | with_reducible apply Keeps.avsEnd
    | with_reducible apply Keeps.set
    | (fail_if_no_progress dsimp -zeta only)
    | split

theorem Keeps.avsTimeout {z0 s : State}  (hz : Keeps z0 s)  : Keeps z0 (Machine.avsTimeout s) := by
  unfold Machine.avsTimeout
  repeat' first
    | with_reducible assumption
    | with_reducible apply Keeps.ite
    | with_reducible apply Keeps.ite1
    | with_reducible apply Keeps.avsEnd
    | with_reducible apply Keeps.set
    | (fail_if_no_progress dsimp -zeta only)
    | split

theorem Keeps.wrAvsCtrl {z0 s : State} {w : Word} (hz : Keeps z0 s)  : Keeps z0 (Machine.wrAvsCtrl w s) := by
  unfold Machine.wrAvsCtrl
  repeat' first
    | with_reducible assumption
    | with_reducible apply Keeps.ite
    | with_reducible apply Keeps.ite1
    | with_reducible apply Keeps.plainWrite
    | with_reducible apply Keeps.ret

theorem Keeps.wrPwrMode {z0 s : State} {w : Word} (hz : Keeps z0 s)  : Keeps z0 (Machine.wrPwrMode w s) := by
  unfold Machine.wrPwrMode
  repeat' first
    | with_reducible assumption
    | with_reducible apply Keeps.ite
    | with_reducible apply Keeps.ite1
    | with_reducible apply Keeps.plainWrite
    | with_reducible apply Keeps.ret

theorem Keeps.wrPwrLarder {z0 s : State} {w : Word} (hz : Keeps z0 s)  : Keeps z0 (Machine.wrPwrLarder w s) := by
  unfold Machine.wrPwrLarder
  repeat' first
    | with_reducible assumption
    | with_reducible apply Keeps.ite
    | with_reducible apply Keeps.ite1
    | with_reducible apply Keeps.plainWrite
    | with_reducible apply Keeps.ret

theorem Keeps.shutdownOn {z0 s : State}  (hz : Keeps z0 s)  : Keeps z0 (Machine.shutdownOn s) := by
  unfold Machine.shutdownOn
  try lift_lets
  repeat' first
    | exact fun _ _ e => e
    | (exact fun _ _ e => absurd (Eq.symm e) (Option.some_ne_none _))
    | with_reducible assumption
    | (intro x; with_reducible refine Keeps.cut (o := z0) x ?_ ?_; dsimp only [x]; rotate_left; try clear_value x)
    | (intro x; try clear_value x)
    | with_reducible apply Keeps.forN
    | with_reducible apply Keeps.raise
    | with_reducible apply Keeps.rptTherm
    | with_reducible apply Keeps.fenForceOn
    | with_reducible apply Keeps.laserOff
    | with_reducible apply Keeps.updPwr
    | ((first | rw [patch_eq] | skip); (with_reducible refine Keeps.patch ?_ ?_ ?_); rotate_left; (first | exact CelKeeps.refl _ | exact ⟨fun _ h => h, Nat.le_refl _⟩ | exact ⟨fun _ h => h, Nat.le_succ _⟩); (refine fun g => ?_; first | exact g | simpa only [SizesOk, Machine.patch, upd_length] using g | (simp only [SizesOk, Machine.patch, upd_length, List.length_map, List.length_replicate, true_and] at g ⊢; tauto)))

theorem Keeps.shutdownOff {z0 s : State}  (hz : Keeps z0 s)  : Keeps z0 (Machine.shutdownOff s) := by
  unfold Machine.shutdownOff
  repeat' first
    | with_reducible assumption
    | (intro x; try clear_value x)
    | with_reducible apply Keeps.forN
    | with_reducible apply Keeps.forceOff
    | with_reducible apply Keeps.rptTherm
    | with_reducible apply Keeps.fenForceOff

theorem Keeps.throttled {z0 s : State}  (hz : Keeps z0 s)  : Keeps z0 (Machine.throttled s) := by
  unfold Machine.throttled
  try lift_lets
  repeat' first
    | with_reducible assumption
    | (intro x; with_reducible refine Keeps.cut (o := z0) x ?_ ?_; dsimp only [x]; rotate_left; try clear_value x)
    | (intro x; try clear_value x)
    | with_reducible apply Keeps.ite
    | with_reducible apply Keeps.ite1
    | with_reducible apply Keeps.forN
    | with_reducible apply Keeps.bandThrottle
    | with_reducible apply Keeps.calThrottle
    | with_reducible apply Keeps.reduceEval
    | with_reducible apply Keeps.pwrEvt

theorem Keeps.thEval {z0 s : State} {k : Nat} {v : Bool} (hz : Keeps z0 s)  : Keeps z0 (Machine.thEval k v s) := by
  unfold Machine.thEval
  try lift_lets
  repeat' first
    | with_reducible assumption
    | (intro x; with_reducible refine Keeps.cut (o := z0) x ?_ ?_; dsimp only [x]; rotate_left; try clear_value x)
    | (intro x; try clear_value x)
    | with_reducible apply Keeps.ite
    | with_reducible apply Keeps.ite1
    | with_reducible apply Keeps.pwrEvt
    | with_reducible apply Keeps.shutdownOn
    | with_reducible apply Keeps.shutdownOff
    | with_reducible apply Keeps.throttled
    | with_reducible apply Keeps.set

theorem Keeps.thEvaluate {z0 s : State} {t : Int} (hz : Keeps z0 s)  : Keeps z0 (Machine.thEvaluate t s) := by
  unfold Machine.thEvaluate
  try lift_lets
  repeat' first
    | with_reducible assumption
    | (intro x; try clear_value x)
    | with_reducible apply Keeps.thEval
    | with_reducible apply Keeps.seti

theorem Keeps.wrThThr {z0 s : State} {k : Nat} {w : Word} (hz : Keeps z0 s)  : Keeps z0 (Machine.wrThThr k w s) := by
  unfold Machine.wrThThr
  try lift_lets
  repeat' first
    | with_reducible assumption
    | (intro x; with_reducible refine Keeps.cutF x ?_; try dsimp only [x])
    | with_reducible apply Keeps.ite
    | with_reducible apply Keeps.ite1
    | with_reducible apply Keeps.plainWrite
    | with_reducible apply Keeps.ret

theorem Keeps.wrThCtrl {z0 s : State} {w : Word} (hz : Keeps z0 s)  : Keeps z0 (Machine.wrThCtrl w s) := by
  unfold Machine.wrThCtrl
  try lift_lets
  repeat' first
    | with_reducible assumption
    | (intro x; try clear_value x)
    | with_reducible apply Keeps.ite
    | with_reducible apply Keeps.ite1
    | with_reducible apply Keeps.plainWrite
    | with_reducible apply Keeps.ret

theorem Keeps.measStop {z0 s : State} {c : Code} (hz : Keeps z0 s)  : Keeps z0 (Machine.measStop c s) := by
  unfold Machine.measStop
  repeat' first
    | exact fun _ _ e => e
    | (exact fun _ _ e => absurd (Eq.symm e) (Option.some_ne_none _))
    | with_reducible assumption
    | with_reducible apply Keeps.updPwr
    | with_reducible apply Keeps.set
    | ((first | rw [patch_eq] | skip); (with_reducible refine Keeps.patch ?_ ?_ ?_); rotate_left; (first | exact CelKeeps.refl _ | exact ⟨fun _ h => h, Nat.le_refl _⟩ | exact ⟨fun _ h => h, Nat.le_succ _⟩); (refine fun g => ?_; first | exact g | simpa only [SizesOk, Machine.patch, upd_length] using g | (simp only [SizesOk, Machine.patch, upd_length, List.length_map, List.length_replicate, true_and] at g ⊢; tauto)))

theorem Keeps.measFenced {z0 s : State}  (hz : Keeps z0 s)  : Keeps z0 (Machine.measFenced s) := by
  unfold Machine.measFenced
  repeat' first
    | with_reducible assumption
    | with_reducible apply Keeps.pwrEvt
    | with_reducible apply Keeps.measStop
    | with_reducible apply Keeps.addSat

theorem Keeps.measStart {z0 s : State} {mask : Nat} (hz : Keeps z0 s)  : Keeps z0 (Machine.measStart mask s) := by
  unfold Machine.measStart
  try lift_lets
  repeat' first
    | exact fun _ _ e => e
    | (exact fun _ _ e => absurd (Eq.symm e) (Option.some_ne_none _))
    | with_reducible assumption
    | (intro x; with_reducible refine Keeps.cut (o := z0) x ?_ ?_; dsimp only [x]; rotate_left; try clear_value x)
    | (intro x; try clear_value x)
    | with_reducible apply Keeps.ite
    | with_reducible apply Keeps.ite1
    | with_reducible apply Keeps.updPwr
    | with_reducible apply Keeps.measFenced
    | with_reducible apply Keeps.set
    | ((first | rw [patch_eq] | skip); (with_reducible refine Keeps.patch ?_ ?_ ?_); rotate_left; (first | exact CelKeeps.refl _ | exact ⟨fun _ h => h, Nat.le_refl _⟩ | exact ⟨fun _ h => h, Nat.le_succ _⟩); (refine fun g => ?_; first | exact g | simpa only [SizesOk, Machine.patch, upd_length] using g | (simp only [SizesOk, Machine.patch, upd_length, List.length_map, List.length_replicate, true_and] at g ⊢; tauto)))

theorem Keeps.measPending {z0 s : State}  (hz : Keeps z0 s)  : Keeps z0 (Machine.measPending s) := by
  unfold Machine.measPending
  repeat' first
    | exact fun _ _ e => e
    | (exact fun _ _ e => absurd (Eq.symm e) (Option.some_ne_none _))
    | with_reducible assumption
    | with_reducible apply Keeps.ite
    | with_reducible apply Keeps.ite1
    | with_reducible apply Keeps.updPwr
    | with_reducible apply Keeps.measStart
    | with_reducible apply Keeps.set
    | ((first | rw [patch_eq] | skip); (with_reducible refine Keeps.patch ?_ ?_ ?_); rotate_left; (first | exact CelKeeps.refl _ | exact ⟨fun _ h => h, Nat.le_refl _⟩ | exact ⟨fun _ h => h, Nat.le_succ _⟩); (refine fun g => ?_; first | exact g | simpa only [SizesOk, Machine.patch, upd_length] using g | (simp only [SizesOk, Machine.patch, upd_length, List.length_map, List.length_replicate, true_and] at g ⊢; tauto)))

theorem Keeps.measJoin {z0 s : State} {mask : Nat} (hz : Keeps z0 s)  : Keeps z0 (Machine.measJoin mask s) := by
  unfold Machine.measJoin
  repeat' first
    | exact fun _ _ e => e
    | (exact fun _ _ e => absurd (Eq.symm e) (Option.some_ne_none _))
    | with_reducible assumption
    | with_reducible apply Keeps.updPwr
    | with_reducible apply Keeps.set
    | ((first | rw [patch_eq] | skip); (with_reducible refine Keeps.patch ?_ ?_ ?_); rotate_left; (first | exact CelKeeps.refl _ | exact ⟨fun _ h => h, Nat.le_refl _⟩ | exact ⟨fun _ h => h, Nat.le_succ _⟩); (refine fun g => ?_; first | exact g | simpa only [SizesOk, Machine.patch, upd_length] using g | (simp only [SizesOk, Machine.patch, upd_length, List.length_map, List.length_replicate, true_and] at g ⊢; tauto)))

theorem Keeps.demand {z0 s : State} {mask : Nat} (hz : Keeps z0 s)  : Keeps z0 (Machine.demand mask s) := by
  unfold Machine.demand
  repeat' first
    | with_reducible assumption
    | with_reducible apply Keeps.ite
    | with_reducible apply Keeps.ite1
    | with_reducible apply Keeps.measStart
    | with_reducible apply Keeps.measJoin

theorem Keeps.wrThCmd {z0 s : State} {w : Word} (hz : Keeps z0 s)  : Keeps z0 (Machine.wrThCmd w s) := by
  unfold Machine.wrThCmd
  try lift_lets
  repeat' first
    | with_reducible assumption
    | (intro x; try clear_value x)
    | with_reducible apply Keeps.ite
    | with_reducible apply Keeps.ite1
    | with_reducible apply Keeps.demand
    | with_reducible apply Keeps.set
    | with_reducible apply Keeps.ret

theorem Keeps.sensCellar {z0 s : State}  (hz : Keeps z0 s)  : Keeps z0 (Machine.sensCellar s) := by
  unfold Machine.sensCellar
  try lift_lets
  repeat' first
    | with_reducible assumption
    | (intro x; with_reducible refine Keeps.cut (o := z0) x ?_ ?_; dsimp only [x]; rotate_left; try clear_value x)
    | (intro x; try clear_value x)
    | with_reducible apply Keeps.ite
    | with_reducible apply Keeps.ite1
    | with_reducible apply Keeps.set

theorem Keeps.readings {z0 s : State} {mask : Nat} {temps : List Int} (hz : Keeps z0 s)  : Keeps z0 (Machine.readings mask temps s) := by
  unfold Machine.readings
  repeat' first
    | with_reducible assumption
    | (intro x; with_reducible refine Keeps.cut (o := z0) x ?_ ?_; dsimp only [x]; rotate_left; try clear_value x)
    | (intro x; try clear_value x)
    | with_reducible apply Keeps.ite
    | with_reducible apply Keeps.ite1
    | with_reducible apply Keeps.foldl
    | with_reducible apply Keeps.foldl1
    | with_reducible apply Keeps.pwrEvt
    | with_reducible apply Keeps.thEvaluate
    | with_reducible apply Keeps.sensCellar
    | with_reducible apply Keeps.set
    | with_reducible apply Keeps.seti
    | (fail_if_no_progress dsimp -zeta only)
    | split
    | lift_lets

theorem Keeps.thMeasEnd {z0 s : State} {temps : List Int} (hz : Keeps z0 s)  : Keeps z0 (Machine.thMeasEnd temps s) := by
  unfold Machine.thMeasEnd
  repeat' first
    | with_reducible assumption
    | with_reducible apply Keeps.ite
    | with_reducible apply Keeps.ite1
    | with_reducible apply Keeps.measStop
    | with_reducible apply Keeps.measFenced
    | with_reducible apply Keeps.measPending
    | with_reducible apply Keeps.readings
    | (fail_if_no_progress dsimp -zeta only)
    | split

theorem Keeps.thTimer {z0 s : State}  (hz : Keeps z0 s)  : Keeps z0 (Machine.thTimer s) := by
  unfold Machine.thTimer
  repeat' first
    | with_reducible assumption
    | with_reducible apply Keeps.ite
    | with_reducible apply Keeps.ite1
    | with_reducible apply Keeps.demand

theorem Keeps.measFence {z0 s : State}  (hz : Keeps z0 s)  : Keeps z0 (Machine.measFence s) := by
  unfold Machine.measFence
  repeat' first
    | with_reducible assumption
    | with_reducible apply Keeps.measFenced
    | with_reducible apply Keeps.measPending
    | (fail_if_no_progress dsimp -zeta only)
    | split

theorem Keeps.droop {z0 s : State}  (hz : Keeps z0 s)  : Keeps z0 (Machine.droop s) := by
  unfold Machine.droop
  repeat' first
    | with_reducible assumption
    | with_reducible apply Keeps.ite
    | with_reducible apply Keeps.ite1
    | with_reducible apply Keeps.set

theorem Keeps.resetPwr {z0 s : State}  (hz : Keeps z0 s)  : Keeps z0 (Machine.resetPwr s) := by
  unfold Machine.resetPwr
  try lift_lets
  repeat' first
    | exact fun _ _ e => e
    | (exact fun _ _ e => absurd (Eq.symm e) (Option.some_ne_none _))
    | with_reducible assumption
    | (intro x; with_reducible refine Keeps.cut (o := z0) x ?_ ?_; dsimp only [x]; rotate_left; try clear_value x)
    | (intro x; try clear_value x)
    | with_reducible apply Keeps.ite
    | with_reducible apply Keeps.ite1
    | with_reducible apply Keeps.updPwr
    | with_reducible apply Keeps.shutdownOff
    | with_reducible apply Keeps.dropRange

theorem Keeps.execAvsRequest {s z : State} {q : Rq} {w : Word} (e : Machine.execAvsRequest q w s = .next z) : Keeps s z := by
  have hz := Keeps.refl s
  revert e
  unfold Machine.execAvsRequest
  first
    | (intro e; injection e with e; subst e; (repeat' first
         | with_reducible assumption
         | (intro x; try clear_value x)
         | with_reducible apply Keeps.gated
         | with_reducible apply Keeps.wrAvsReq
         ); done)

theorem Keeps.execThermalDemand {s z : State} {q : Rq} {w : Word} (e : Machine.execThermalDemand q w s = .next z) : Keeps s z := by
  have hz := Keeps.refl s
  revert e
  unfold Machine.execThermalDemand
  first
    | (intro e; injection e with e; subst e; (repeat' first
         | with_reducible assumption
         | (intro x; try clear_value x)
         | with_reducible apply Keeps.gated
         | with_reducible apply Keeps.wrThCmd
         ); done)

theorem Keeps.execThermalTimerExpire {s z : State}  (e : Machine.execThermalTimerExpire s = .next z) : Keeps s z := by
  have hz := Keeps.refl s
  revert e
  unfold Machine.execThermalTimerExpire
  first
    | (intro e; injection e with e; subst e; (repeat' first
         | with_reducible assumption
         | with_reducible apply Keeps.thTimer
         ); done)

theorem Keeps.execThresholdWrite {s z : State} {q : Rq} {k : Fin 3} {w : Word} (e : Machine.execThresholdWrite q k w s = .next z) : Keeps s z := by
  have hz := Keeps.refl s
  revert e
  unfold Machine.execThresholdWrite
  first
    | (intro e; injection e with e; subst e; (repeat' first
         | with_reducible assumption
         | (intro x; try clear_value x)
         | with_reducible apply Keeps.gated
         | with_reducible apply Keeps.wrThThr
         ); done)

theorem Keeps.execDroopComparatorTrip {s z : State}  (e : Machine.execDroopComparatorTrip s = .next z) : Keeps s z := by
  have hz := Keeps.refl s
  revert e
  unfold Machine.execDroopComparatorTrip
  first
    | (intro e; injection e with e; subst e; (repeat' first
         | with_reducible assumption
         | with_reducible apply Keeps.droop
         ); done)

end Sys2Proof.Machine
end

