-- ==== Sys2Proof/Laws/KeepOwn.lean ====
section
/-! SUPPORT. What the operations of Own.lean keep. -/

set_option linter.all false

namespace Sys2Proof.Machine

theorem Keeps.updOwn {z0 s : State} {f : Own → Own} (hz : Keeps z0 s)  : Keeps z0 (Machine.updOwn f s) := by
  unfold Machine.updOwn
  exact Keeps.upd hz rfl rfl rfl rfl rfl (CelKeeps.refl _) rfl (fun g => by simp_all [SizesOk])

theorem Keeps.ownEvt {z0 s : State} {b : Nat} (hz : Keeps z0 s)  : Keeps z0 (Machine.ownEvt b s) := by
  unfold Machine.ownEvt
  repeat' first
    | with_reducible assumption
    | with_reducible apply Keeps.flag

theorem Keeps.ownRefuse {z0 s : State} {q : Rq} {a : Nat} {c : Code} (hz : Keeps z0 s)  : Keeps z0 (Machine.ownRefuse q a c s) := by
  unfold Machine.ownRefuse
  repeat' first
    | with_reducible assumption
    | with_reducible apply Keeps.logRefusal
    | with_reducible apply Keeps.ret

theorem Keeps.leaseStart {z0 s : State}  (hz : Keeps z0 s)  : Keeps z0 (Machine.leaseStart s) := by
  unfold Machine.leaseStart
  repeat' first
    | with_reducible assumption
    | with_reducible apply Keeps.updOwn
    | ((first | rw [patch_eq] | skip); (with_reducible refine Keeps.patch ?_ ?_ ?_); rotate_left; (first | exact CelKeeps.refl _ | exact ⟨fun _ h => h, Nat.le_refl _⟩ | exact ⟨fun _ h => h, Nat.le_succ _⟩); (refine fun g => ?_; first | exact g | simpa only [SizesOk, Machine.patch, upd_length] using g | (simp only [SizesOk, Machine.patch, upd_length, List.length_map, List.length_replicate, true_and] at g ⊢; tauto)))

theorem Keeps.setOwner {z0 s : State} {cls : Nat} {addr : Nat} (hz : Keeps z0 s)  : Keeps z0 (Machine.setOwner cls addr s) := by
  unfold Machine.setOwner
  repeat' first
    | with_reducible assumption
    | with_reducible apply Keeps.ownEvt
    | with_reducible apply Keeps.set
    | with_reducible apply Keeps.incMod

theorem Keeps.wrClaim {z0 s : State} {q : Rq} {w : Word} (hz : Keeps z0 s)  : Keeps z0 (Machine.wrClaim q w s) := by
  unfold Machine.wrClaim
  repeat' first
    | with_reducible assumption
    | with_reducible apply Keeps.ite
    | with_reducible apply Keeps.ite1
    | with_reducible apply Keeps.ownRefuse
    | with_reducible apply Keeps.leaseStart
    | with_reducible apply Keeps.setOwner
    | with_reducible apply Keeps.ret

theorem Keeps.wrLease {z0 s : State} {q : Rq} {w : Word} (hz : Keeps z0 s)  : Keeps z0 (Machine.wrLease q w s) := by
  unfold Machine.wrLease
  repeat' first
    | with_reducible assumption
    | with_reducible apply Keeps.ite
    | with_reducible apply Keeps.ite1
    | with_reducible apply Keeps.refuseLog
    | with_reducible apply Keeps.ownRefuse
    | with_reducible apply Keeps.leaseStart
    | with_reducible apply Keeps.ret

theorem Keeps.wrLeaseCfg {z0 s : State} {w : Word} (hz : Keeps z0 s)  : Keeps z0 (Machine.wrLeaseCfg w s) := by
  unfold Machine.wrLeaseCfg
  try lift_lets
  repeat' first
    | with_reducible assumption
    | (intro x; try clear_value x)
    | with_reducible apply Keeps.ite
    | with_reducible apply Keeps.ite1
    | with_reducible apply Keeps.plainWrite
    | with_reducible apply Keeps.ret

theorem Keeps.hoEnd {z0 s : State} {c : Code} {reason : Nat} (hz : Keeps z0 s)  : Keeps z0 (Machine.hoEnd c reason s) := by
  unfold Machine.hoEnd
  try lift_lets
  repeat' first
    | with_reducible assumption
    | (intro x; with_reducible refine Keeps.cut (o := z0) x ?_ ?_; dsimp only [x]; rotate_left; try clear_value x)
    | (intro x; try clear_value x)
    | with_reducible apply Keeps.ite
    | with_reducible apply Keeps.ite1
    | with_reducible apply Keeps.set

theorem Keeps.hoNow {z0 s : State} {c : Code} (hz : Keeps z0 s)  : Keeps z0 (Machine.hoNow c s) := by
  unfold Machine.hoNow
  repeat' first
    | with_reducible assumption
    | with_reducible apply Keeps.set
    | with_reducible apply Keeps.ret

theorem Keeps.wrHandover {z0 s : State} {q : Rq} {w : Word} (hz : Keeps z0 s)  : Keeps z0 (Machine.wrHandover q w s) := by
  unfold Machine.wrHandover
  try lift_lets
  repeat' first
    | with_reducible assumption
    | (intro x; with_reducible refine Keeps.cut (o := z0) x ?_ ?_; dsimp only [x]; rotate_left; try clear_value x)
    | (intro x; try clear_value x)
    | with_reducible apply Keeps.ite
    | with_reducible apply Keeps.ite1
    | with_reducible apply Keeps.hoEnd
    | with_reducible apply Keeps.hoNow
    | with_reducible apply Keeps.set
    | with_reducible apply Keeps.store
    | with_reducible apply Keeps.ret

theorem Keeps.wrAccept {z0 s : State} {q : Rq} {w : Word} (hz : Keeps z0 s)  : Keeps z0 (Machine.wrAccept q w s) := by
  unfold Machine.wrAccept
  repeat' first
    | with_reducible assumption
    | with_reducible apply Keeps.ite
    | with_reducible apply Keeps.ite1
    | with_reducible apply Keeps.ownRefuse
    | with_reducible apply Keeps.leaseStart
    | with_reducible apply Keeps.setOwner
    | with_reducible apply Keeps.hoEnd
    | with_reducible apply Keeps.ret

theorem Keeps.lapse {z0 s : State}  (hz : Keeps z0 s)  : Keeps z0 (Machine.lapse s) := by
  unfold Machine.lapse
  repeat' first
    | with_reducible assumption
    | with_reducible apply Keeps.ite
    | with_reducible apply Keeps.ite1
    | with_reducible apply Keeps.ownEvt
    | with_reducible apply Keeps.setOwner
    | with_reducible apply Keeps.hoEnd

theorem Keeps.hoTimeout {z0 s : State}  (hz : Keeps z0 s)  : Keeps z0 (Machine.hoTimeout s) := by
  unfold Machine.hoTimeout
  repeat' first
    | with_reducible assumption
    | with_reducible apply Keeps.hoEnd

theorem Keeps.showSlot {z0 s : State} {k : Nat} (hz : Keeps z0 s)  : Keeps z0 (Machine.showSlot k s) := by
  unfold Machine.showSlot
  try lift_lets
  repeat' first
    | with_reducible assumption
    | (intro x; with_reducible refine Keeps.cut (o := z0) x ?_ ?_; dsimp only [x]; rotate_left; try clear_value x)
    | (intro x; try clear_value x)
    | with_reducible apply Keeps.forN
    | with_reducible apply Keeps.wr

theorem Keeps.ownAttic {z0 s : State}  (hz : Keeps z0 s)  : Keeps z0 (Machine.ownAttic s) := by
  unfold Machine.ownAttic
  repeat' first
    | with_reducible assumption
    | (intro x; with_reducible refine Keeps.cut (o := z0) x ?_ ?_; dsimp only [x]; rotate_left; try clear_value x)
    | (intro x; try clear_value x)
    | with_reducible apply Keeps.ite
    | with_reducible apply Keeps.ite1
    | with_reducible apply Keeps.forN
    | with_reducible apply Keeps.showSlot
    | with_reducible apply Keeps.wr
    | with_reducible apply Keeps.set
    | (fail_if_no_progress dsimp -zeta only)
    | split
    | lift_lets

theorem Keeps.clearBytes {o s : State} {lo hi : Nat} (h : Keeps o s) : Keeps o (Machine.clearBytes lo hi s) :=
  Keeps.ecc (Keeps.mem h fun k => Memory.wf_sub k List.filter_sublist) fun k => k.sub List.filter_sublist

theorem Keeps.zeroise {z0 s : State}  (hz : Keeps z0 s)  : Keeps z0 (Machine.zeroise s) := by
  unfold Machine.zeroise
  try lift_lets
  repeat' first
    | with_reducible assumption
    | (intro x; with_reducible refine Keeps.cut (o := z0) x ?_ ?_; dsimp only [x]; rotate_left; try clear_value x)
    | (intro x; with_reducible refine Keeps.cut1 (o := z0) x ?_ ?_; dsimp only [x]; rotate_left; try clear_value x)
    | (intro x; with_reducible refine Keeps.cutF x ?_; try dsimp only [x])
    | (intro x; try clear_value x)
    | with_reducible apply Keeps.retireRange
    | with_reducible apply Keeps.updOwn
    | with_reducible apply Keeps.clearBytes
    | with_reducible apply Keeps.set
    | with_reducible apply Keeps.addSat
    | ((first | rw [patch_eq] | skip); (with_reducible refine Keeps.patch ?_ ?_ ?_); rotate_left; (first | exact CelKeeps.refl _ | exact ⟨fun _ h => h, Nat.le_refl _⟩ | exact ⟨fun _ h => h, Nat.le_succ _⟩); (refine fun g => ?_; first | exact g | simpa only [SizesOk, Machine.patch, upd_length] using g | (simp only [SizesOk, Machine.patch, upd_length, List.length_map, List.length_replicate, true_and] at g ⊢; tauto)))
    | (fail_if_no_progress dsimp -zeta only)
    | split

theorem Keeps.wrOwnZero {z0 s : State} {w : Word} (hz : Keeps z0 s)  : Keeps z0 (Machine.wrOwnZero w s) := by
  unfold Machine.wrOwnZero
  try lift_lets
  repeat' first
    | with_reducible assumption
    | (intro x; with_reducible refine Keeps.cut (o := z0) x ?_ ?_; dsimp only [x]; rotate_left; try clear_value x)
    | (intro x; try clear_value x)
    | with_reducible apply Keeps.ite
    | with_reducible apply Keeps.ite1
    | with_reducible apply Keeps.plainWrite
    | with_reducible apply Keeps.updOwn
    | with_reducible apply Keeps.set
    | with_reducible apply Keeps.store
    | with_reducible apply Keeps.ret
    | ((first | rw [patch_eq] | skip); (with_reducible refine Keeps.patch ?_ ?_ ?_); rotate_left; (first | exact CelKeeps.refl _ | exact ⟨fun _ h => h, Nat.le_refl _⟩ | exact ⟨fun _ h => h, Nat.le_succ _⟩); (refine fun g => ?_; first | exact g | simpa only [SizesOk, Machine.patch, upd_length] using g | (simp only [SizesOk, Machine.patch, upd_length, List.length_map, List.length_replicate, true_and] at g ⊢; tauto)))

theorem Keeps.keyLoaded {z0 s : State}  (hz : Keeps z0 s)  : Keeps z0 (Machine.keyLoaded s) := by
  unfold Machine.keyLoaded
  try lift_lets
  repeat' first
    | with_reducible assumption
    | (intro x; with_reducible refine Keeps.cut (o := z0) x ?_ ?_; dsimp only [x]; rotate_left; try clear_value x)
    | (intro x; try clear_value x)
    | with_reducible apply Keeps.ite
    | with_reducible apply Keeps.ite1
    | with_reducible apply Keeps.updOwn
    | with_reducible apply Keeps.set
    | ((first | rw [patch_eq] | skip); (with_reducible refine Keeps.patch ?_ ?_ ?_); rotate_left; (first | exact CelKeeps.refl _ | exact ⟨fun _ h => h, Nat.le_refl _⟩ | exact ⟨fun _ h => h, Nat.le_succ _⟩); (refine fun g => ?_; first | exact g | simpa only [SizesOk, Machine.patch, upd_length] using g | (simp only [SizesOk, Machine.patch, upd_length, List.length_map, List.length_replicate, true_and] at g ⊢; tauto)))

theorem Keeps.wrSecret {z0 s : State} {hiReg : Bool} {w : Word} (hz : Keeps z0 s)  : Keeps z0 (Machine.wrSecret hiReg w s) := by
  unfold Machine.wrSecret
  try lift_lets
  repeat' first
    | with_reducible assumption
    | (intro x; with_reducible refine Keeps.cut (o := z0) x ?_ ?_; dsimp only [x]; rotate_left; try clear_value x)
    | (intro x; try clear_value x)
    | with_reducible apply Keeps.ite
    | with_reducible apply Keeps.ite1
    | with_reducible apply Keeps.wr
    | with_reducible apply Keeps.ret

theorem Keeps.fuseNow {z0 s : State} {c : Code} (hz : Keeps z0 s)  : Keeps z0 (Machine.fuseNow c s) := by
  unfold Machine.fuseNow
  repeat' first
    | with_reducible assumption
    | with_reducible apply Keeps.set
    | with_reducible apply Keeps.ret

theorem Keeps.wrFuseCmd {z0 s : State} {w : Word} (hz : Keeps z0 s)  : Keeps z0 (Machine.wrFuseCmd w s) := by
  unfold Machine.wrFuseCmd
  try lift_lets
  repeat' first
    | with_reducible assumption
    | (intro x; with_reducible refine Keeps.cut (o := z0) x ?_ ?_; dsimp only [x]; rotate_left; try clear_value x)
    | (intro x; with_reducible refine Keeps.cut1 (o := z0) x ?_ ?_; dsimp only [x]; rotate_left; try clear_value x)
    | (intro x; with_reducible refine Keeps.cut2 (o := z0) x ?_ ?_; dsimp only [x]; rotate_left; try clear_value x)
    | with_reducible apply Keeps.ite2
    | (intro x; with_reducible refine Keeps.cutF x ?_; try dsimp only [x])
    | (intro x; try clear_value x)
    | with_reducible apply Keeps.ite
    | with_reducible apply Keeps.ite1
    | with_reducible apply Keeps.unitRead
    | with_reducible apply Keeps.updOwn
    | with_reducible apply Keeps.fuseNow
    | with_reducible apply Keeps.set
    | with_reducible apply Keeps.store
    | ((first | rw [patch_eq] | skip); (with_reducible refine Keeps.patch ?_ ?_ ?_); rotate_left; (first | exact CelKeeps.refl _ | exact ⟨fun _ h => h, Nat.le_refl _⟩ | exact ⟨fun _ h => h, Nat.le_succ _⟩); (refine fun g => ?_; first | exact g | simpa only [SizesOk, Machine.patch, upd_length] using g | (simp only [SizesOk, Machine.patch, upd_length, List.length_map, List.length_replicate, true_and] at g ⊢; tauto)))
    | (fail_if_no_progress dsimp -zeta only)
    | split

theorem bit_or_le (n m i : Nat) : n / 2 ^ i % 2 ≤ (n ||| m) / 2 ^ i % 2 := by
  have h := Nat.testBit_or n m i
  simp only [Nat.testBit_eq_decide_div_mod_eq] at h
  have a := Nat.mod_two_eq_zero_or_one (n / 2 ^ i)
  have b := Nat.mod_two_eq_zero_or_one ((n ||| m) / 2 ^ i)
  rcases a with a | a <;> rcases b with b | b <;> simp_all

/-- A revoked bit that reads as set stays set however many copies are fused. -/
theorem majority_or {n : Nat} (m : Nat) (h : majority n = true) : majority (n ||| m) = true := by
  have a := bit_or_le n m 0
  have b := bit_or_le n m 1
  have c := bit_or_le n m 2
  simp only [majority, decide_eq_true_eq] at *
  omega

theorem Keeps.fuseDone {o s : State} {ok : Bool} {part : List Byte} {copies : Nat} (h : Keeps o s) :
    Keeps o (Machine.fuseDone ok part copies s) := by
  unfold Machine.fuseDone
  split
  · next f hf =>
    refine Keeps.set (Keeps.set (Keeps.updOwn (Keeps.showSlot ?_)))
    refine ⟨fun i => h.1 i, h.2.1, h.2.2.1, fun i e => ?_⟩
    have e := h.2.2.2 i e
    dsimp only
    rw [nth_upd]
    split
    · next hi =>
      rw [← hi.1] at e
      split
      · (repeat' split) <;> exact e
      · exact majority_or _ e
    · exact e
  · exact h

theorem Keeps.signNow {z0 s : State} {c : Code} (hz : Keeps z0 s)  : Keeps z0 (Machine.signNow c s) := by
  unfold Machine.signNow
  repeat' first
    | with_reducible assumption
    | with_reducible apply Keeps.ownEvt
    | with_reducible apply Keeps.set
    | with_reducible apply Keeps.ret

theorem Keeps.wrSignCmd {z0 s : State} {q : Rq} {w : Word} (hz : Keeps z0 s)  : Keeps z0 (Machine.wrSignCmd q w s) := by
  unfold Machine.wrSignCmd
  try lift_lets
  repeat' first
    | with_reducible assumption
    | (intro x; with_reducible refine Keeps.cut (o := z0) x ?_ ?_; dsimp only [x]; rotate_left; try clear_value x)
    | (intro x; try clear_value x)
    | with_reducible apply Keeps.ite
    | with_reducible apply Keeps.ite1
    | with_reducible apply Keeps.refuseLog
    | with_reducible apply Keeps.updOwn
    | with_reducible apply Keeps.signNow
    | with_reducible apply Keeps.set
    | with_reducible apply Keeps.store
    | with_reducible apply Keeps.ret
    | ((first | rw [patch_eq] | skip); (with_reducible refine Keeps.patch ?_ ?_ ?_); rotate_left; (first | exact CelKeeps.refl _ | exact ⟨fun _ h => h, Nat.le_refl _⟩ | exact ⟨fun _ h => h, Nat.le_succ _⟩); (refine fun g => ?_; first | exact g | simpa only [SizesOk, Machine.patch, upd_length] using g | (simp only [SizesOk, Machine.patch, upd_length, List.length_map, List.length_replicate, true_and] at g ⊢; tauto)))

theorem Keeps.unitPut {z0 s : State} {a : Nat} {bytes : List Byte} (hz : Keeps z0 s)  : Keeps z0 (Machine.unitPut a bytes s) := by
  unfold Machine.unitPut
  split
  next u h => exact Keeps.ite hz (Keeps.memWrite hz fun _ => h)
  next => exact hz

theorem Keeps.sramPut {z0 s : State} {a : Nat} {bytes : List Byte} (hz : Keeps z0 s)  : Keeps z0 (Machine.sramPut a bytes s) := by
  unfold Machine.sramPut
  try lift_lets
  repeat' first
    | with_reducible assumption
    | (intro x; with_reducible refine Keeps.cut (o := z0) x ?_ ?_; dsimp only [x]; rotate_left; try clear_value x)
    | (intro x; try clear_value x)
    | with_reducible apply Keeps.forN
    | with_reducible apply Keeps.foldl
    | with_reducible apply Keeps.unitPut

theorem Keeps.shelfHash {z0 s : State}  (hz : Keeps z0 s)  : Keeps z0 (Machine.shelfHash s) := by
  unfold Machine.shelfHash
  repeat' first
    | with_reducible assumption
    | (intro x; with_reducible refine Keeps.cut (o := z0) x ?_ ?_; dsimp only [x]; rotate_left; try clear_value x)
    | (intro x; with_reducible refine Keeps.cut1 (o := z0) x ?_ ?_; dsimp only [x]; rotate_left; try clear_value x)
    | (intro x; with_reducible refine Keeps.cut2 (o := z0) x ?_ ?_; dsimp only [x]; rotate_left; try clear_value x)
    | with_reducible apply Keeps.ite2
    | (intro x; with_reducible refine Keeps.cutF x ?_; try dsimp only [x])
    | (intro x; try clear_value x)
    | with_reducible apply Keeps.ite
    | with_reducible apply Keeps.ite1
    | with_reducible apply Keeps.unitRead
    | with_reducible apply Keeps.updOwn
    | ((first | rw [patch_eq] | skip); (with_reducible refine Keeps.patch ?_ ?_ ?_); rotate_left; (first | exact CelKeeps.refl _ | exact ⟨fun _ h => h, Nat.le_refl _⟩ | exact ⟨fun _ h => h, Nat.le_succ _⟩); (refine fun g => ?_; first | exact g | simpa only [SizesOk, Machine.patch, upd_length] using g | (simp only [SizesOk, Machine.patch, upd_length, List.length_map, List.length_replicate, true_and] at g ⊢; tauto)))
    | (fail_if_no_progress dsimp -zeta only)
    | split
    | lift_lets

theorem Keeps.signTick {z0 s : State}  (hz : Keeps z0 s)  : Keeps z0 (Machine.signTick s) := by
  unfold Machine.signTick
  repeat' first
    | with_reducible assumption
    | (intro x; with_reducible refine Keeps.cut (o := z0) x ?_ ?_; dsimp only [x]; rotate_left; try clear_value x)
    | (intro x; with_reducible refine Keeps.cut1 (o := z0) x ?_ ?_; dsimp only [x]; rotate_left; try clear_value x)
    | (intro x; with_reducible refine Keeps.cutF x ?_; try dsimp only [x])
    | (intro x; try clear_value x)
    | with_reducible apply Keeps.ite
    | with_reducible apply Keeps.ite1
    | with_reducible apply Keeps.shelfHash
    | ((first | rw [patch_eq] | skip); (with_reducible refine Keeps.patch ?_ ?_ ?_); rotate_left; (first | exact CelKeeps.refl _ | exact ⟨fun _ h => h, Nat.le_refl _⟩ | exact ⟨fun _ h => h, Nat.le_succ _⟩); (refine fun g => ?_; first | exact g | simpa only [SizesOk, Machine.patch, upd_length] using g | (simp only [SizesOk, Machine.patch, upd_length, List.length_map, List.length_replicate, true_and] at g ⊢; tauto)))
    | (fail_if_no_progress dsimp -zeta only)
    | split

theorem Keeps.signEnd {z0 s : State} {c : Code} (hz : Keeps z0 s)  : Keeps z0 (Machine.signEnd c s) := by
  unfold Machine.signEnd
  repeat' first
    | with_reducible assumption
    | (intro x; with_reducible refine Keeps.cut (o := z0) x ?_ ?_; dsimp only [x]; rotate_left; try clear_value x)
    | (intro x; with_reducible refine Keeps.cut1 (o := z0) x ?_ ?_; dsimp only [x]; rotate_left; try clear_value x)
    | (intro x; with_reducible refine Keeps.cutF x ?_; try dsimp only [x])
    | (intro x; try clear_value x)
    | with_reducible apply Keeps.updOwn
    | with_reducible apply Keeps.ownEvt
    | with_reducible apply Keeps.set
    | ((first | rw [patch_eq] | skip); (with_reducible refine Keeps.patch ?_ ?_ ?_); rotate_left; (first | exact CelKeeps.refl _ | exact ⟨fun _ h => h, Nat.le_refl _⟩ | exact ⟨fun _ h => h, Nat.le_succ _⟩); (refine fun g => ?_; first | exact g | simpa only [SizesOk, Machine.patch, upd_length] using g | (simp only [SizesOk, Machine.patch, upd_length, List.length_map, List.length_replicate, true_and] at g ⊢; tauto)))
    | (fail_if_no_progress dsimp -zeta only)
    | split

theorem Keeps.signDone {z0 s : State}  (hz : Keeps z0 s)  : Keeps z0 (Machine.signDone s) := by
  unfold Machine.signDone
  repeat' first
    | with_reducible assumption
    | (intro x; with_reducible refine Keeps.cut (o := z0) x ?_ ?_; dsimp only [x]; rotate_left; try clear_value x)
    | (intro x; with_reducible refine Keeps.cut1 (o := z0) x ?_ ?_; dsimp only [x]; rotate_left; try clear_value x)
    | (intro x; with_reducible refine Keeps.cut2 (o := z0) x ?_ ?_; dsimp only [x]; rotate_left; try clear_value x)
    | with_reducible apply Keeps.ite2
    | (intro x; with_reducible refine Keeps.cutF x ?_; try dsimp only [x])
    | (intro x; try clear_value x)
    | with_reducible apply Keeps.ite
    | with_reducible apply Keeps.ite1
    | with_reducible apply Keeps.forN
    | with_reducible apply Keeps.unitRead
    | with_reducible apply Keeps.sramPut
    | with_reducible apply Keeps.shelfHash
    | with_reducible apply Keeps.signEnd
    | with_reducible apply Keeps.freeNext
    | ((first | rw [patch_eq] | skip); (with_reducible refine Keeps.patch ?_ ?_ ?_); rotate_left; (first | exact CelKeeps.refl _ | exact ⟨fun _ h => h, Nat.le_refl _⟩ | exact ⟨fun _ h => h, Nat.le_succ _⟩); (refine fun g => ?_; first | exact g | simpa only [SizesOk, Machine.patch, upd_length] using g | (simp only [SizesOk, Machine.patch, upd_length, List.length_map, List.length_replicate, true_and] at g ⊢; tauto)))
    | (fail_if_no_progress dsimp -zeta only)
    | split
    | lift_lets

theorem Keeps.rdSignResult {z0 s : State}  (hz : Keeps z0 s)  : Keeps z0 (Machine.rdSignResult s) := by
  unfold Machine.rdSignResult
  repeat' first
    | with_reducible assumption
    | (intro x; with_reducible refine Keeps.cut (o := z0) x ?_ ?_; dsimp only [x]; rotate_left; try clear_value x)
    | (intro x; with_reducible refine Keeps.cut1 (o := z0) x ?_ ?_; dsimp only [x]; rotate_left; try clear_value x)
    | (intro x; with_reducible refine Keeps.cutF x ?_; try dsimp only [x])
    | (intro x; try clear_value x)
    | with_reducible apply Keeps.ite
    | with_reducible apply Keeps.ite1
    | with_reducible apply Keeps.set
    | with_reducible apply Keeps.retData
    | (fail_if_no_progress dsimp -zeta only)
    | split

theorem Keeps.hatchLevel {z0 s : State} {l : Nat} (hz : Keeps z0 s)  : Keeps z0 (Machine.hatchLevel l s) := by
  unfold Machine.hatchLevel
  repeat' first
    | with_reducible assumption
    | with_reducible apply Keeps.ite
    | with_reducible apply Keeps.ite1
    | with_reducible apply Keeps.ownEvt
    | with_reducible apply Keeps.set

theorem Keeps.extestEnd {z0 s : State}  (hz : Keeps z0 s)  : Keeps z0 (Machine.extestEnd s) := by
  unfold Machine.extestEnd
  try lift_lets
  repeat' first
    | with_reducible assumption
    | (intro x; with_reducible refine Keeps.cut (o := z0) x ?_ ?_; dsimp only [x]; rotate_left; try clear_value x)
    | (intro x; try clear_value x)
    | with_reducible apply Keeps.ite
    | with_reducible apply Keeps.ite1
    | with_reducible apply Keeps.forN
    | with_reducible apply Keeps.forceOff
    | with_reducible apply Keeps.rptTherm
    | with_reducible apply Keeps.updOwn
    | ((first | rw [patch_eq] | skip); (with_reducible refine Keeps.patch ?_ ?_ ?_); rotate_left; (first | exact CelKeeps.refl _ | exact ⟨fun _ h => h, Nat.le_refl _⟩ | exact ⟨fun _ h => h, Nat.le_succ _⟩); (refine fun g => ?_; first | exact g | simpa only [SizesOk, Machine.patch, upd_length] using g | (simp only [SizesOk, Machine.patch, upd_length, List.length_map, List.length_replicate, true_and] at g ⊢; tauto)))

theorem Keeps.hatchRun {z0 s : State} {c : Nat} {f : State → State} (hz : Keeps z0 s) (hf : ∀ x0, Keeps z0 x0 → Keeps z0 (f x0)) : Keeps z0 (Machine.hatchRun c f s) := by
  unfold Machine.hatchRun
  try lift_lets
  repeat' first
    | with_reducible assumption
    | (intro x; with_reducible refine Keeps.cut (o := z0) x ?_ ?_; dsimp only [x]; rotate_left; try clear_value x)
    | (intro x; try clear_value x)
    | with_reducible apply Keeps.ite
    | with_reducible apply Keeps.ite1
    | with_reducible apply hf
    | with_reducible apply Keeps.updOwn
    | with_reducible apply Keeps.extestEnd
    | with_reducible apply Keeps.addSat
    | ((first | rw [patch_eq] | skip); (with_reducible refine Keeps.patch ?_ ?_ ?_); rotate_left; (first | exact CelKeeps.refl _ | exact ⟨fun _ h => h, Nat.le_refl _⟩ | exact ⟨fun _ h => h, Nat.le_succ _⟩); (refine fun g => ?_; first | exact g | simpa only [SizesOk, Machine.patch, upd_length] using g | (simp only [SizesOk, Machine.patch, upd_length, List.length_map, List.length_replicate, true_and] at g ⊢; tauto)))

theorem Keeps.extest {z0 s : State}  (hz : Keeps z0 s)  : Keeps z0 (Machine.extest s) := by
  unfold Machine.extest
  try lift_lets
  repeat' first
    | with_reducible assumption
    | (intro x; with_reducible refine Keeps.cut (o := z0) x ?_ ?_; dsimp only [x]; rotate_left; try clear_value x)
    | (intro x; try clear_value x)
    | with_reducible apply Keeps.forN
    | with_reducible apply Keeps.rptTherm
    | with_reducible apply Keeps.laserOff
    | with_reducible apply Keeps.updOwn
    | with_reducible apply Keeps.zeroise
    | ((first | rw [patch_eq] | skip); (with_reducible refine Keeps.patch ?_ ?_ ?_); rotate_left; (first | exact CelKeeps.refl _ | exact ⟨fun _ h => h, Nat.le_refl _⟩ | exact ⟨fun _ h => h, Nat.le_succ _⟩); (refine fun g => ?_; first | exact g | simpa only [SizesOk, Machine.patch, upd_length] using g | (simp only [SizesOk, Machine.patch, upd_length, List.length_map, List.length_replicate, true_and] at g ⊢; tauto)))

theorem Keeps.hatchChal {z0 s : State}  (hz : Keeps z0 s)  : Keeps z0 (Machine.hatchChal s) := by
  unfold Machine.hatchChal
  try lift_lets
  repeat' first
    | with_reducible assumption
    | (intro x; with_reducible refine Keeps.cut (o := z0) x ?_ ?_; dsimp only [x]; rotate_left; try clear_value x)
    | (intro x; try clear_value x)
    | with_reducible apply Keeps.updOwn
    | with_reducible apply Keeps.retData
    | with_reducible apply Keeps.freeNext
    | ((first | rw [patch_eq] | skip); (with_reducible refine Keeps.patch ?_ ?_ ?_); rotate_left; (first | exact CelKeeps.refl _ | exact ⟨fun _ h => h, Nat.le_refl _⟩ | exact ⟨fun _ h => h, Nat.le_succ _⟩); (refine fun g => ?_; first | exact g | simpa only [SizesOk, Machine.patch, upd_length] using g | (simp only [SizesOk, Machine.patch, upd_length, List.length_map, List.length_replicate, true_and] at g ⊢; tauto)))

theorem Keeps.hatchMbox {z0 s : State} {ws : List Word} (hz : Keeps z0 s)  : Keeps z0 (Machine.hatchMbox ws s) := by
  unfold Machine.hatchMbox
  try lift_lets
  repeat' first
    | with_reducible assumption
    | (intro x; try clear_value x)
    | with_reducible apply Keeps.foldl
    | with_reducible apply Keeps.foldl1
    | with_reducible apply Keeps.updOwn
    | ((first | rw [patch_eq] | skip); (with_reducible refine Keeps.patch ?_ ?_ ?_); rotate_left; (first | exact CelKeeps.refl _ | exact ⟨fun _ h => h, Nat.le_refl _⟩ | exact ⟨fun _ h => h, Nat.le_succ _⟩); (refine fun g => ?_; first | exact g | simpa only [SizesOk, Machine.patch, upd_length] using g | (simp only [SizesOk, Machine.patch, upd_length, List.length_map, List.length_replicate, true_and] at g ⊢; tauto)))

theorem Keeps.hatchEnd {z0 s : State} {c : Code} (hz : Keeps z0 s)  : Keeps z0 (Machine.hatchEnd c s) := by
  unfold Machine.hatchEnd
  try lift_lets
  repeat' first
    | with_reducible assumption
    | (intro x; with_reducible refine Keeps.cut (o := z0) x ?_ ?_; dsimp only [x]; rotate_left; try clear_value x)
    | (intro x; try clear_value x)
    | with_reducible apply Keeps.ite
    | with_reducible apply Keeps.ite1
    | with_reducible apply Keeps.ownEvt
    | with_reducible apply Keeps.set
    | with_reducible apply Keeps.ret
    | ((first | rw [patch_eq] | skip); (with_reducible refine Keeps.patch ?_ ?_ ?_); rotate_left; (first | exact CelKeeps.refl _ | exact ⟨fun _ h => h, Nat.le_refl _⟩ | exact ⟨fun _ h => h, Nat.le_succ _⟩); (refine fun g => ?_; first | exact g | simpa only [SizesOk, Machine.patch, upd_length] using g | (simp only [SizesOk, Machine.patch, upd_length, List.length_map, List.length_replicate, true_and] at g ⊢; tauto)))

theorem Keeps.hatchVerify {z0 s : State}  (hz : Keeps z0 s)  : Keeps z0 (Machine.hatchVerify s) := by
  unfold Machine.hatchVerify
  repeat' first
    | with_reducible assumption
    | with_reducible apply Keeps.ite
    | with_reducible apply Keeps.ite1
    | with_reducible apply Keeps.updOwn
    | with_reducible apply Keeps.hatchLevel
    | with_reducible apply Keeps.hatchEnd
    | with_reducible apply Keeps.set
    | (fail_if_no_progress dsimp -zeta only)
    | split

theorem Keeps.hatchPassword {z0 s : State}  (hz : Keeps z0 s)  : Keeps z0 (Machine.hatchPassword s) := by
  unfold Machine.hatchPassword
  repeat' first
    | with_reducible assumption
    | with_reducible apply Keeps.ite
    | with_reducible apply Keeps.ite1
    | with_reducible apply Keeps.hatchLevel
    | with_reducible apply Keeps.hatchEnd
    | with_reducible apply Keeps.set
    | (fail_if_no_progress dsimp -zeta only)
    | split

theorem Keeps.hatchCmd {z0 s : State} {op : Nat} (hz : Keeps z0 s)  : Keeps z0 (Machine.hatchCmd op s) := by
  unfold Machine.hatchCmd
  repeat' first
    | with_reducible assumption
    | with_reducible apply Keeps.hatchLevel
    | with_reducible apply Keeps.hatchEnd
    | with_reducible apply Keeps.hatchVerify
    | with_reducible apply Keeps.hatchPassword
    | with_reducible apply Keeps.set
    | (fail_if_no_progress dsimp -zeta only)
    | split

theorem Keeps.hatchLoad {z0 s : State} {c : Nat} (hz : Keeps z0 s)  : Keeps z0 (Machine.hatchLoad c s) := by
  unfold Machine.hatchLoad
  repeat' first
    | with_reducible assumption
    | (intro x; with_reducible refine Keeps.cut (o := z0) x ?_ ?_; dsimp only [x]; rotate_left; try clear_value x)
    | (intro x; with_reducible refine Keeps.cut1 (o := z0) x ?_ ?_; dsimp only [x]; rotate_left; try clear_value x)
    | (intro x; with_reducible refine Keeps.cutF x ?_; try dsimp only [x])
    | (intro x; try clear_value x)
    | with_reducible apply Keeps.hatchRun
    | with_reducible apply Keeps.extest
    | with_reducible apply Keeps.hatchChal
    | with_reducible apply Keeps.retData
    | ((first | rw [patch_eq] | skip); (with_reducible refine Keeps.patch ?_ ?_ ?_); rotate_left; (first | exact CelKeeps.refl _ | exact ⟨fun _ h => h, Nat.le_refl _⟩ | exact ⟨fun _ h => h, Nat.le_succ _⟩); (refine fun g => ?_; first | exact g | simpa only [SizesOk, Machine.patch, upd_length] using g | (simp only [SizesOk, Machine.patch, upd_length, List.length_map, List.length_replicate, true_and] at g ⊢; tauto)))
    | with_reducible apply Keeps.idS
    | (fail_if_no_progress dsimp -zeta only)
    | split

theorem Keeps.tapReset {z0 s : State}  (hz : Keeps z0 s)  : Keeps z0 (Machine.tapReset s) := by
  unfold Machine.tapReset
  repeat' first
    | with_reducible assumption
    | with_reducible apply Keeps.ite
    | with_reducible apply Keeps.ite1
    | with_reducible apply Keeps.updOwn
    | with_reducible apply Keeps.hatchLevel
    | with_reducible apply Keeps.extestEnd
    | ((first | rw [patch_eq] | skip); (with_reducible refine Keeps.patch ?_ ?_ ?_); rotate_left; (first | exact CelKeeps.refl _ | exact ⟨fun _ h => h, Nat.le_refl _⟩ | exact ⟨fun _ h => h, Nat.le_succ _⟩); (refine fun g => ?_; first | exact g | simpa only [SizesOk, Machine.patch, upd_length] using g | (simp only [SizesOk, Machine.patch, upd_length, List.length_map, List.length_replicate, true_and] at g ⊢; tauto)))

theorem Keeps.i3c {z0 s : State} {f : State → State} (hz : Keeps z0 s) (hf : ∀ x0, Keeps z0 x0 → Keeps z0 (f x0)) : Keeps z0 (Machine.i3c f s) := by
  unfold Machine.i3c
  repeat' first
    | with_reducible assumption
    | with_reducible apply Keeps.ite
    | with_reducible apply Keeps.ite1
    | with_reducible apply hf

theorem Keeps.i3cAssign {z0 s : State} {a : Nat} (hz : Keeps z0 s)  : Keeps z0 (Machine.i3cAssign a s) := by
  unfold Machine.i3cAssign
  repeat' first
    | with_reducible assumption
    | with_reducible apply Keeps.ite
    | with_reducible apply Keeps.ite1
    | with_reducible apply Keeps.updOwn
    | ((first | rw [patch_eq] | skip); (with_reducible refine Keeps.patch ?_ ?_ ?_); rotate_left; (first | exact CelKeeps.refl _ | exact ⟨fun _ h => h, Nat.le_refl _⟩ | exact ⟨fun _ h => h, Nat.le_succ _⟩); (refine fun g => ?_; first | exact g | simpa only [SizesOk, Machine.patch, upd_length] using g | (simp only [SizesOk, Machine.patch, upd_length, List.length_map, List.length_replicate, true_and] at g ⊢; tauto)))

theorem Keeps.i3cGet {z0 s : State} {ws : List Word} (hz : Keeps z0 s)  : Keeps z0 (Machine.i3cGet ws s) := by
  unfold Machine.i3cGet
  repeat' first
    | with_reducible assumption
    | with_reducible apply Keeps.ite
    | with_reducible apply Keeps.ite1
    | with_reducible apply Keeps.retData

theorem Keeps.resetOwn {z0 s : State} {full : Bool} {keepKey : Bool} (hz : Keeps z0 s)  : Keeps z0 (Machine.resetOwn full keepKey s) := by
  unfold Machine.resetOwn
  repeat' first
    | with_reducible assumption
    | with_reducible apply Keeps.ite2
    | (intro x; try clear_value x)
    | with_reducible apply Keeps.ite
    | with_reducible apply Keeps.ite1
    | with_reducible apply Keeps.foldl
    | with_reducible apply Keeps.foldl1
    | with_reducible apply Keeps.forN
    | with_reducible apply Keeps.putFree
    | with_reducible apply Keeps.ownAttic
    | with_reducible apply Keeps.extestEnd
    | with_reducible apply Keeps.wr
    | with_reducible apply Keeps.set
    | with_reducible apply Keeps.dropRange
    | ((first | rw [patch_eq] | skip); (with_reducible refine Keeps.patch ?_ ?_ ?_); rotate_left; (first | exact CelKeeps.refl _ | exact ⟨fun _ h => h, Nat.le_refl _⟩ | exact ⟨fun _ h => h, Nat.le_succ _⟩); (refine fun g => ?_; first | exact g | simpa only [SizesOk, Machine.patch, upd_length] using g | (simp only [SizesOk, Machine.patch, upd_length, List.length_map, List.length_replicate, true_and] at g ⊢; tauto)))
    | (fail_if_no_progress dsimp -zeta only)
    | split

theorem Keeps.execOwnClaim {s z : State} {q : Rq} {w : Word} (e : Machine.execOwnClaim q w s = .next z) : Keeps s z := by
  have hz := Keeps.refl s
  revert e
  unfold Machine.execOwnClaim
  first
    | (intro e; injection e with e; subst e; (repeat' first
         | with_reducible assumption
         | (intro x; try clear_value x)
         | with_reducible apply Keeps.gated
         | with_reducible apply Keeps.wrClaim
         ); done)

theorem Keeps.execLeaseRenew {s z : State} {q : Rq} (e : Machine.execLeaseRenew q s = .next z) : Keeps s z := by
  have hz := Keeps.refl s
  revert e
  unfold Machine.execLeaseRenew
  first
    | (intro e; injection e with e; subst e; (repeat' first
         | with_reducible assumption
         | (intro x; try clear_value x)
         | with_reducible apply Keeps.gated
         | with_reducible apply Keeps.wrLease
         ); done)

theorem Keeps.execLeaseLapse {s z : State}  (e : Machine.execLeaseLapse s = .next z) : Keeps s z := by
  have hz := Keeps.refl s
  revert e
  unfold Machine.execLeaseLapse
  first
    | (intro e; injection e with e; subst e; (repeat' first
         | with_reducible assumption
         | with_reducible apply Keeps.lapse
         ); done)

theorem Keeps.execOwnHandover {s z : State} {q : Rq} {w : Word} (e : Machine.execOwnHandover q w s = .next z) : Keeps s z := by
  have hz := Keeps.refl s
  revert e
  unfold Machine.execOwnHandover
  first
    | (intro e; injection e with e; subst e; (repeat' first
         | with_reducible assumption
         | (intro x; try clear_value x)
         | with_reducible apply Keeps.gated
         | with_reducible apply Keeps.wrHandover
         ); done)

theorem Keeps.execOwnAccept {s z : State} {q : Rq} {w : Word} (e : Machine.execOwnAccept q w s = .next z) : Keeps s z := by
  have hz := Keeps.refl s
  revert e
  unfold Machine.execOwnAccept
  first
    | (intro e; injection e with e; subst e; (repeat' first
         | with_reducible assumption
         | (intro x; try clear_value x)
         | with_reducible apply Keeps.gated
         | with_reducible apply Keeps.wrAccept
         ); done)

theorem Keeps.execHandoverTimeout {s z : State}  (e : Machine.execHandoverTimeout s = .next z) : Keeps s z := by
  have hz := Keeps.refl s
  revert e
  unfold Machine.execHandoverTimeout
  first
    | (intro e; injection e with e; subst e; (repeat' first
         | with_reducible assumption
         | with_reducible apply Keeps.hoTimeout
         ); done)

theorem Keeps.execI3cSetdasa {s z : State} {a : Fin 128} (e : Machine.execI3cSetdasa a s = .next z) : Keeps s z := by
  have hz := Keeps.refl s
  revert e
  unfold Machine.execI3cSetdasa
  first
    | (intro e; injection e with e; subst e; (repeat' first
         | with_reducible assumption
         | (intro x; try clear_value x)
         | with_reducible apply Keeps.i3c
         | with_reducible apply Keeps.i3cAssign
         ); done)

theorem Keeps.execI3cEntdaa {s z : State} {a : Fin 128} (e : Machine.execI3cEntdaa a s = .next z) : Keeps s z := by
  have hz := Keeps.refl s
  revert e
  unfold Machine.execI3cEntdaa
  first
    | (intro e; injection e with e; subst e; (repeat' first
         | with_reducible assumption
         | (intro x; try clear_value x)
         | with_reducible apply Keeps.i3c
         | with_reducible apply Keeps.i3cAssign
         ); done)

theorem Keeps.execI3cRstdaa {s z : State}  (e : Machine.execI3cRstdaa s = .next z) : Keeps s z := by
  have hz := Keeps.refl s
  revert e
  unfold Machine.execI3cRstdaa
  first
    | (intro e; injection e with e; subst e; (repeat' first
         | with_reducible assumption
         | (intro x; try clear_value x)
         | with_reducible apply Keeps.updOwn
         | with_reducible apply Keeps.i3c
         | ((first | rw [patch_eq] | skip); (with_reducible refine Keeps.patch ?_ ?_ ?_); rotate_left; (first | exact CelKeeps.refl _ | exact ⟨fun _ h => h, Nat.le_refl _⟩ | exact ⟨fun _ h => h, Nat.le_succ _⟩); (refine fun g => ?_; first | exact g | simpa only [SizesOk, Machine.patch, upd_length] using g | (simp only [SizesOk, Machine.patch, upd_length, List.length_map, List.length_replicate, true_and] at g ⊢; tauto)))
         ); done)

theorem Keeps.execI3cEnec {s z : State}  (e : Machine.execI3cEnec s = .next z) : Keeps s z := by
  have hz := Keeps.refl s
  revert e
  unfold Machine.execI3cEnec
  first
    | (intro e; injection e with e; subst e; (repeat' first
         | with_reducible assumption
         | (intro x; try clear_value x)
         | with_reducible apply Keeps.ite
         | with_reducible apply Keeps.ite1
         | with_reducible apply Keeps.updOwn
         | with_reducible apply Keeps.i3c
         | ((first | rw [patch_eq] | skip); (with_reducible refine Keeps.patch ?_ ?_ ?_); rotate_left; (first | exact CelKeeps.refl _ | exact ⟨fun _ h => h, Nat.le_refl _⟩ | exact ⟨fun _ h => h, Nat.le_succ _⟩); (refine fun g => ?_; first | exact g | simpa only [SizesOk, Machine.patch, upd_length] using g | (simp only [SizesOk, Machine.patch, upd_length, List.length_map, List.length_replicate, true_and] at g ⊢; tauto)))
         ); done)

theorem Keeps.execI3cDisec {s z : State}  (e : Machine.execI3cDisec s = .next z) : Keeps s z := by
  have hz := Keeps.refl s
  revert e
  unfold Machine.execI3cDisec
  first
    | (intro e; injection e with e; subst e; (repeat' first
         | with_reducible assumption
         | (intro x; try clear_value x)
         | with_reducible apply Keeps.ite
         | with_reducible apply Keeps.ite1
         | with_reducible apply Keeps.updOwn
         | with_reducible apply Keeps.i3c
         | ((first | rw [patch_eq] | skip); (with_reducible refine Keeps.patch ?_ ?_ ?_); rotate_left; (first | exact CelKeeps.refl _ | exact ⟨fun _ h => h, Nat.le_refl _⟩ | exact ⟨fun _ h => h, Nat.le_succ _⟩); (refine fun g => ?_; first | exact g | simpa only [SizesOk, Machine.patch, upd_length] using g | (simp only [SizesOk, Machine.patch, upd_length, List.length_map, List.length_replicate, true_and] at g ⊢; tauto)))
         ); done)

theorem Keeps.execI3cGetpid {s z : State}  (e : Machine.execI3cGetpid s = .next z) : Keeps s z := by
  have hz := Keeps.refl s
  revert e
  unfold Machine.execI3cGetpid
  first
    | (intro e; injection e with e; subst e; (repeat' first
         | with_reducible assumption
         | (intro x; try clear_value x)
         | with_reducible apply Keeps.i3c
         | with_reducible apply Keeps.i3cGet
         ); done)

theorem Keeps.execI3cGetbcr {s z : State}  (e : Machine.execI3cGetbcr s = .next z) : Keeps s z := by
  have hz := Keeps.refl s
  revert e
  unfold Machine.execI3cGetbcr
  first
    | (intro e; injection e with e; subst e; (repeat' first
         | with_reducible assumption
         | (intro x; try clear_value x)
         | with_reducible apply Keeps.i3c
         | with_reducible apply Keeps.i3cGet
         ); done)

theorem Keeps.execI3cGetdcr {s z : State}  (e : Machine.execI3cGetdcr s = .next z) : Keeps s z := by
  have hz := Keeps.refl s
  revert e
  unfold Machine.execI3cGetdcr
  first
    | (intro e; injection e with e; subst e; (repeat' first
         | with_reducible assumption
         | (intro x; try clear_value x)
         | with_reducible apply Keeps.i3c
         | with_reducible apply Keeps.i3cGet
         ); done)

theorem Keeps.execI3cGetstatus {s z : State}  (e : Machine.execI3cGetstatus s = .next z) : Keeps s z := by
  have hz := Keeps.refl s
  revert e
  unfold Machine.execI3cGetstatus
  first
    | (intro e; injection e with e; subst e; (repeat' first
         | with_reducible assumption
         | (intro x; try clear_value x)
         | with_reducible apply Keeps.i3c
         | with_reducible apply Keeps.i3cGet
         | with_reducible apply Keeps.freeNext
         ); done)

theorem Keeps.execI3cGetmwl {s z : State}  (e : Machine.execI3cGetmwl s = .next z) : Keeps s z := by
  have hz := Keeps.refl s
  revert e
  unfold Machine.execI3cGetmwl
  first
    | (intro e; injection e with e; subst e; (repeat' first
         | with_reducible assumption
         | (intro x; try clear_value x)
         | with_reducible apply Keeps.i3c
         | with_reducible apply Keeps.i3cGet
         ); done)

theorem Keeps.execI3cGetmrl {s z : State}  (e : Machine.execI3cGetmrl s = .next z) : Keeps s z := by
  have hz := Keeps.refl s
  revert e
  unfold Machine.execI3cGetmrl
  first
    | (intro e; injection e with e; subst e; (repeat' first
         | with_reducible assumption
         | (intro x; try clear_value x)
         | with_reducible apply Keeps.i3c
         | with_reducible apply Keeps.i3cGet
         ); done)

theorem Keeps.execHatchIdcode {s z : State}  (e : Machine.execHatchIdcode s = .next z) : Keeps s z := by
  have hz := Keeps.refl s
  revert e
  unfold Machine.execHatchIdcode
  first
    | (intro e; injection e with e; subst e; (repeat' first
         | with_reducible assumption
         | (intro x; try clear_value x)
         | with_reducible apply Keeps.hatchRun
         | with_reducible apply Keeps.retData
         ); done)

theorem Keeps.execHatchSamplePreload {s z : State}  (e : Machine.execHatchSamplePreload s = .next z) : Keeps s z := by
  have hz := Keeps.refl s
  revert e
  unfold Machine.execHatchSamplePreload
  first
    | (intro e; injection e with e; subst e; (repeat' first
         | with_reducible assumption
         | (intro x; try clear_value x)
         | with_reducible apply Keeps.hatchRun
         | with_reducible apply Keeps.idS
         ); done)

theorem Keeps.execHatchExtest {s z : State}  (e : Machine.execHatchExtest s = .next z) : Keeps s z := by
  have hz := Keeps.refl s
  revert e
  unfold Machine.execHatchExtest
  first
    | (intro e; injection e with e; subst e; (repeat' first
         | with_reducible assumption
         | (intro x; try clear_value x)
         | with_reducible apply Keeps.hatchRun
         | with_reducible apply Keeps.extest
         ); done)

theorem Keeps.execHatchBypass {s z : State} {c : BitVec 8} (e : Machine.execHatchBypass c s = .next z) : Keeps s z := by
  have hz := Keeps.refl s
  revert e
  unfold Machine.execHatchBypass
  first
    | (intro e; injection e with e; subst e; (repeat' first
         | with_reducible assumption
         | (intro x; with_reducible refine Keeps.cut (o := z0) x ?_ ?_; dsimp only [x]; rotate_left; try clear_value x)
         | (intro x; with_reducible refine Keeps.cut1 (o := z0) x ?_ ?_; dsimp only [x]; rotate_left; try clear_value x)
         | (intro x; with_reducible refine Keeps.cutF x ?_; try dsimp only [x])
         | (intro x; try clear_value x)
         | with_reducible apply Keeps.hatchLoad
         | (fail_if_no_progress dsimp -zeta only)
         | split
         ); done)

theorem Keeps.execHatchChal {s z : State}  (e : Machine.execHatchChal s = .next z) : Keeps s z := by
  have hz := Keeps.refl s
  revert e
  unfold Machine.execHatchChal
  first
    | (intro e; injection e with e; subst e; (repeat' first
         | with_reducible assumption
         | (intro x; try clear_value x)
         | with_reducible apply Keeps.hatchRun
         | with_reducible apply Keeps.hatchChal
         ); done)

theorem Keeps.execHatchMbox {s z : State} {ws : List Word} (e : Machine.execHatchMbox ws s = .next z) : Keeps s z := by
  have hz := Keeps.refl s
  revert e
  unfold Machine.execHatchMbox
  first
    | (intro e; injection e with e; subst e; (repeat' first
         | with_reducible assumption
         | (intro x; try clear_value x)
         | with_reducible apply Keeps.hatchRun
         | with_reducible apply Keeps.hatchMbox
         ); done)

theorem Keeps.execHatchVerify {s z : State}  (e : Machine.execHatchVerify s = .next z) : Keeps s z := by
  have hz := Keeps.refl s
  revert e
  unfold Machine.execHatchVerify
  first
    | (intro e; injection e with e; subst e; (repeat' first
         | with_reducible assumption
         | (intro x; try clear_value x)
         | with_reducible apply Keeps.hatchRun
         | with_reducible apply Keeps.hatchCmd
         ); done)

theorem Keeps.execHatchPassword {s z : State}  (e : Machine.execHatchPassword s = .next z) : Keeps s z := by
  have hz := Keeps.refl s
  revert e
  unfold Machine.execHatchPassword
  first
    | (intro e; injection e with e; subst e; (repeat' first
         | with_reducible assumption
         | (intro x; try clear_value x)
         | with_reducible apply Keeps.hatchRun
         | with_reducible apply Keeps.hatchCmd
         ); done)

theorem Keeps.execHatchClose {s z : State} {op : BitVec 8} (e : Machine.execHatchClose op s = .next z) : Keeps s z := by
  have hz := Keeps.refl s
  revert e
  unfold Machine.execHatchClose
  first
    | (intro e; injection e with e; subst e; (repeat' first
         | with_reducible assumption
         | (intro x; with_reducible refine Keeps.cut (o := z0) x ?_ ?_; dsimp only [x]; rotate_left; try clear_value x)
         | (intro x; with_reducible refine Keeps.cut1 (o := z0) x ?_ ?_; dsimp only [x]; rotate_left; try clear_value x)
         | (intro x; with_reducible refine Keeps.cutF x ?_; try dsimp only [x])
         | (intro x; try clear_value x)
         | with_reducible apply Keeps.hatchRun
         | with_reducible apply Keeps.hatchCmd
         | (fail_if_no_progress dsimp -zeta only)
         | split
         ); done)

theorem Keeps.execHatchTapReset {s z : State}  (e : Machine.execHatchTapReset s = .next z) : Keeps s z := by
  have hz := Keeps.refl s
  revert e
  unfold Machine.execHatchTapReset
  first
    | (intro e; injection e with e; subst e; (repeat' first
         | with_reducible assumption
         | with_reducible apply Keeps.tapReset
         ); done)

theorem Keeps.execKeyload {s z : State} {q : Rq} {w : Word} (e : Machine.execKeyload q w s = .next z) : Keeps s z := by
  have hz := Keeps.refl s
  revert e
  unfold Machine.execKeyload
  first
    | (intro e; injection e with e; subst e; (repeat' first
         | with_reducible assumption
         | (intro x; try clear_value x)
         | with_reducible apply Keeps.gated
         | with_reducible apply Keeps.wrOwnZero
         ); done)

theorem Keeps.execKeyLoadDone {s z : State}  (e : Machine.execKeyLoadDone s = .next z) : Keeps s z := by
  have hz := Keeps.refl s
  revert e
  unfold Machine.execKeyLoadDone
  first
    | (intro e; injection e with e; subst e; (repeat' first
         | with_reducible assumption
         | with_reducible apply Keeps.keyLoaded
         ); done)

theorem Keeps.execFuseEnrol {s z : State} {q : Rq} {k : Fin 16} (e : Machine.execFuseEnrol q k s = .next z) : Keeps s z := by
  have hz := Keeps.refl s
  revert e
  unfold Machine.execFuseEnrol
  first
    | (intro e; injection e with e; subst e; (repeat' first
         | with_reducible assumption
         | (intro x; try clear_value x)
         | with_reducible apply Keeps.gated
         | with_reducible apply Keeps.wrFuseCmd
         ); done)

theorem Keeps.execFuseRevoke {s z : State} {q : Rq} {k : Fin 16} (e : Machine.execFuseRevoke q k s = .next z) : Keeps s z := by
  have hz := Keeps.refl s
  revert e
  unfold Machine.execFuseRevoke
  first
    | (intro e; injection e with e; subst e; (repeat' first
         | with_reducible assumption
         | (intro x; try clear_value x)
         | with_reducible apply Keeps.gated
         | with_reducible apply Keeps.wrFuseCmd
         ); done)

theorem Keeps.execFuseDone {s z : State} {ok : Bool} {part : List Byte} {copies : Fin 8} (e : Machine.execFuseDone ok part copies s = .next z) : Keeps s z := by
  have hz := Keeps.refl s
  revert e
  unfold Machine.execFuseDone
  first
    | (intro e; injection e with e; subst e; (repeat' first
         | with_reducible assumption
         | with_reducible apply Keeps.fuseDone
         ); done)

theorem Keeps.execAttest {s z : State} {q : Rq} (e : Machine.execAttest q s = .next z) : Keeps s z := by
  have hz := Keeps.refl s
  revert e
  unfold Machine.execAttest
  first
    | (intro e; injection e with e; subst e; (repeat' first
         | with_reducible assumption
         | (intro x; try clear_value x)
         | with_reducible apply Keeps.gated
         | with_reducible apply Keeps.wrSignCmd
         ); done)

theorem Keeps.execSign {s z : State} {q : Rq} (e : Machine.execSign q s = .next z) : Keeps s z := by
  have hz := Keeps.refl s
  revert e
  unfold Machine.execSign
  first
    | (intro e; injection e with e; subst e; (repeat' first
         | with_reducible assumption
         | (intro x; try clear_value x)
         | with_reducible apply Keeps.gated
         | with_reducible apply Keeps.wrSignCmd
         ); done)

theorem Keeps.execSigningDone {s z : State}  (e : Machine.execSigningDone s = .next z) : Keeps s z := by
  have hz := Keeps.refl s
  revert e
  unfold Machine.execSigningDone
  first
    | (intro e; injection e with e; subst e; (repeat' first
         | with_reducible assumption
         | with_reducible apply Keeps.signDone
         ); done)

theorem Keeps.execSecretWindowWrite {s z : State} {q : Rq} {hiReg : Bool} {w : Word} (e : Machine.execSecretWindowWrite q hiReg w s = .next z) : Keeps s z := by
  have hz := Keeps.refl s
  revert e
  unfold Machine.execSecretWindowWrite
  first
    | (intro e; injection e with e; subst e; (repeat' first
         | with_reducible assumption
         | (intro x; with_reducible refine Keeps.cut (o := z0) x ?_ ?_; dsimp only [x]; rotate_left; try clear_value x)
         | (intro x; with_reducible refine Keeps.cut1 (o := z0) x ?_ ?_; dsimp only [x]; rotate_left; try clear_value x)
         | (intro x; with_reducible refine Keeps.cutF x ?_; try dsimp only [x])
         | (intro x; try clear_value x)
         | with_reducible apply Keeps.ite
         | with_reducible apply Keeps.ite1
         | with_reducible apply Keeps.gated
         | with_reducible apply Keeps.wrSecret
         | (fail_if_no_progress dsimp -zeta only)
         | split
         ); done)
    | (repeat' split) <;> first | (intro e; injection e with e; subst e; (repeat' first
         | with_reducible assumption
         | (intro x; try clear_value x)
         | with_reducible apply Keeps.ite
         | with_reducible apply Keeps.ite1
         | with_reducible apply Keeps.gated
         | with_reducible apply Keeps.wrSecret
         ))

end Sys2Proof.Machine
end

