-- ==== Sys2Proof/Laws/KeepBst.lean ====
section
/-! SUPPORT. What the operations of Bst.lean keep. -/

set_option linter.all false

namespace Sys2Proof.Machine

theorem Keeps.rowSaved {o s : State} {u row : Nat} (h : Keeps o s) : Keeps o (Machine.rowSaved u row s) := by
  unfold Machine.rowSaved
  refine Keeps.foldl h fun s e g => Keeps.ite ?_ (Keeps.eccRecord g)
  exact Keeps.ecc (Keeps.eccCorrected g) fun k => k.erase _

theorem Keeps.sliceBegin {z0 s : State} {u : Nat} {row : Nat} {kind : Nat} (hz : Keeps z0 s)  : Keeps z0 (Machine.sliceBegin u row kind s) := by
  unfold Machine.sliceBegin
  try lift_lets
  repeat' first
    | with_reducible assumption
    | (intro x; with_reducible refine Keeps.cut (o := z0) x ?_ ?_; dsimp only [x]; rotate_left; try clear_value x)
    | (intro x; try clear_value x)
    | with_reducible apply Keeps.ite
    | with_reducible apply Keeps.ite1
    | with_reducible apply Keeps.updBst
    | with_reducible apply Keeps.zeroise
    | with_reducible apply Keeps.rowSaved
    | ((first | rw [patch_eq] | skip); (with_reducible refine Keeps.patch ?_ ?_ ?_); rotate_left; (first | exact CelKeeps.refl _ | exact ⟨fun _ h => h, Nat.le_refl _⟩ | exact ⟨fun _ h => h, Nat.le_succ _⟩); (refine fun g => ?_; first | exact g | simpa only [SizesOk, Machine.patch, upd_length] using g | (simp only [SizesOk, Machine.patch, upd_length, List.length_map, List.length_replicate, true_and] at g ⊢; tauto)))

theorem Keeps.walkWrap {z0 s : State} {u : Nat} (hz : Keeps z0 s)  : Keeps z0 (Machine.walkWrap u s) := by
  unfold Machine.walkWrap
  try lift_lets
  repeat' first
    | with_reducible assumption
    | (intro x; with_reducible refine Keeps.cut (o := z0) x ?_ ?_; dsimp only [x]; rotate_left; try clear_value x)
    | (intro x; try clear_value x)
    | with_reducible apply Keeps.ledgerFree
    | with_reducible apply Keeps.set
    | with_reducible apply Keeps.incMod

theorem Keeps.walkTo {z0 s : State} {u : Nat} {r : Nat} (hz : Keeps z0 s)  : Keeps z0 (Machine.walkTo u r s) := by
  unfold Machine.walkTo
  try lift_lets
  repeat' first
    | with_reducible assumption
    | (intro x; try clear_value x)
    | with_reducible apply Keeps.ite
    | with_reducible apply Keeps.ite1
    | with_reducible apply Keeps.walkWrap
    | with_reducible apply Keeps.set

theorem Keeps.sliceStart {z0 s : State} {u : Nat} (hz : Keeps z0 s)  : Keeps z0 (Machine.sliceStart u s) := by
  unfold Machine.sliceStart
  repeat' first
    | with_reducible assumption
    | with_reducible apply Keeps.ite
    | with_reducible apply Keeps.ite1
    | with_reducible apply Keeps.sliceBegin
    | with_reducible apply Keeps.walkTo
    | with_reducible apply Keeps.set
    | ((first | rw [patch_eq] | skip); (with_reducible refine Keeps.patch ?_ ?_ ?_); rotate_left; (first | exact CelKeeps.refl _ | exact ⟨fun _ h => h, Nat.le_refl _⟩ | exact ⟨fun _ h => h, Nat.le_succ _⟩); (refine fun g => ?_; first | exact g | simpa only [SizesOk, Machine.patch, upd_length] using g | (simp only [SizesOk, Machine.patch, upd_length, List.length_map, List.length_replicate, true_and] at g ⊢; tauto)))
    | (fail_if_no_progress dsimp -zeta only)
    | split

theorem Keeps.mapRow {z0 s : State} {u : Nat} {k : Nat} {row : Nat} (hz : Keeps z0 s)  : Keeps z0 (Machine.mapRow u k row s) := by
  unfold Machine.mapRow
  try lift_lets
  repeat' first
    | with_reducible assumption
    | (intro x; with_reducible refine Keeps.cut (o := z0) x ?_ ?_; dsimp only [x]; rotate_left; try clear_value x)
    | (intro x; try clear_value x)
    | with_reducible apply Keeps.set

theorem Keeps.sliceFailed {z0 s : State} {u : Nat} {row : Nat} {b : Nat} (hz : Keeps z0 s)  : Keeps z0 (Machine.sliceFailed u row b s) := by
  unfold Machine.sliceFailed
  repeat' first
    | with_reducible assumption
    | (intro x; with_reducible refine Keeps.cut (o := z0) x ?_ ?_; dsimp only [x]; rotate_left; try clear_value x)
    | (intro x; try clear_value x)
    | with_reducible apply Keeps.bstEvt
    | with_reducible apply Keeps.ledger
    | with_reducible apply Keeps.ledgerFree
    | with_reducible apply Keeps.mapRow
    | with_reducible apply Keeps.set
    | (fail_if_no_progress dsimp -zeta only)
    | split
    | lift_lets

theorem Keeps.testEnd {z0 s : State} {fail : Bool} (hz : Keeps z0 s)  : Keeps z0 (Machine.testEnd fail s) := by
  unfold Machine.testEnd
  repeat' first
    | with_reducible assumption
    | with_reducible apply Keeps.bstEvt
    | with_reducible apply Keeps.set

theorem Keeps.testStart {z0 s : State} {u : Nat} (hz : Keeps z0 s)  : Keeps z0 (Machine.testStart u s) := by
  unfold Machine.testStart
  repeat' first
    | with_reducible assumption
    | with_reducible apply Keeps.ite
    | with_reducible apply Keeps.ite1
    | with_reducible apply Keeps.updBst
    | with_reducible apply Keeps.sliceBegin
    | (fail_if_no_progress dsimp -zeta only)
    | split

theorem Keeps.sliceEnd {z0 s : State} {u : Nat} {bad : Option Nat} (hz : Keeps z0 s)  : Keeps z0 (Machine.sliceEnd u bad s) := by
  unfold Machine.sliceEnd
  repeat' first
    | with_reducible assumption
    | with_reducible apply Keeps.ite
    | with_reducible apply Keeps.ite1
    | with_reducible apply Keeps.updBst
    | with_reducible apply Keeps.walkTo
    | with_reducible apply Keeps.sliceFailed
    | with_reducible apply Keeps.testEnd
    | with_reducible apply Keeps.testStart
    | (fail_if_no_progress dsimp -zeta only)
    | split

theorem Keeps.wrMemCmd {z0 s : State} {w : Word} (hz : Keeps z0 s)  : Keeps z0 (Machine.wrMemCmd w s) := by
  unfold Machine.wrMemCmd
  try lift_lets
  repeat' first
    | with_reducible assumption
    | (intro x; with_reducible refine Keeps.cut (o := z0) x ?_ ?_; dsimp only [x]; rotate_left; try clear_value x)
    | (intro x; try clear_value x)
    | with_reducible apply Keeps.ite
    | with_reducible apply Keeps.ite1
    | with_reducible apply Keeps.updBst
    | with_reducible apply Keeps.testStart
    | with_reducible apply Keeps.wr
    | with_reducible apply Keeps.set
    | with_reducible apply Keeps.store
    | with_reducible apply Keeps.ret
    | ((first | rw [patch_eq] | skip); (with_reducible refine Keeps.patch ?_ ?_ ?_); rotate_left; (first | exact CelKeeps.refl _ | exact ⟨fun _ h => h, Nat.le_refl _⟩ | exact ⟨fun _ h => h, Nat.le_succ _⟩); (refine fun g => ?_; first | exact g | simpa only [SizesOk, Machine.patch, upd_length] using g | (simp only [SizesOk, Machine.patch, upd_length, List.length_map, List.length_replicate, true_and] at g ⊢; tauto)))

theorem Keeps.wrRepair {z0 s : State} {u : Nat} {k : Nat} {w : Word} (hz : Keeps z0 s)  : Keeps z0 (Machine.wrRepair u k w s) := by
  unfold Machine.wrRepair
  try lift_lets
  repeat' first
    | with_reducible assumption
    | (intro x; try clear_value x)
    | with_reducible apply Keeps.ite
    | with_reducible apply Keeps.ite1
    | with_reducible apply Keeps.ledger
    | with_reducible apply Keeps.rowSaved
    | with_reducible apply Keeps.mapRow
    | with_reducible apply Keeps.ret

theorem Keeps.wrLbCmd {z0 s : State} {w : Word} (hz : Keeps z0 s)  : Keeps z0 (Machine.wrLbCmd w s) := by
  unfold Machine.wrLbCmd
  try lift_lets
  repeat' first
    | with_reducible assumption
    | (intro x; with_reducible refine Keeps.cut (o := z0) x ?_ ?_; dsimp only [x]; rotate_left; try clear_value x)
    | (intro x; try clear_value x)
    | with_reducible apply Keeps.ite
    | with_reducible apply Keeps.ite1
    | with_reducible apply Keeps.plainWrite
    | with_reducible apply Keeps.updBst
    | with_reducible apply Keeps.wr
    | with_reducible apply Keeps.set
    | with_reducible apply Keeps.store
    | with_reducible apply Keeps.ret
    | ((first | rw [patch_eq] | skip); (with_reducible refine Keeps.patch ?_ ?_ ?_); rotate_left; (first | exact CelKeeps.refl _ | exact ⟨fun _ h => h, Nat.le_refl _⟩ | exact ⟨fun _ h => h, Nat.le_succ _⟩); (refine fun g => ?_; first | exact g | simpa only [SizesOk, Machine.patch, upd_length] using g | (simp only [SizesOk, Machine.patch, upd_length, List.length_map, List.length_replicate, true_and] at g ⊢; tauto)))

theorem Keeps.lbStart {z0 s : State}  (hz : Keeps z0 s)  : Keeps z0 (Machine.lbStart s) := by
  unfold Machine.lbStart
  repeat' first
    | with_reducible assumption
    | with_reducible apply Keeps.ite
    | with_reducible apply Keeps.ite1
    | with_reducible apply Keeps.updBst
    | (fail_if_no_progress dsimp -zeta only)
    | split

theorem Keeps.lbDone {z0 s : State} {fail : Bool} (hz : Keeps z0 s)  : Keeps z0 (Machine.lbDone fail s) := by
  unfold Machine.lbDone
  repeat' first
    | with_reducible assumption
    | with_reducible apply Keeps.ite
    | with_reducible apply Keeps.ite1
    | with_reducible apply Keeps.updBst
    | with_reducible apply Keeps.bstEvt
    | with_reducible apply Keeps.lbEnd
    | with_reducible apply Keeps.set
    | with_reducible apply Keeps.addSat
    | with_reducible apply Keeps.incMod
    | (fail_if_no_progress dsimp -zeta only)
    | split

theorem Keeps.lbTimeout {z0 s : State}  (hz : Keeps z0 s)  : Keeps z0 (Machine.lbTimeout s) := by
  unfold Machine.lbTimeout
  repeat' first
    | with_reducible assumption
    | with_reducible apply Keeps.lbEnd
    | (fail_if_no_progress dsimp -zeta only)
    | split

theorem Keeps.wrMemCtrl {z0 s : State} {w : Word} (hz : Keeps z0 s)  : Keeps z0 (Machine.wrMemCtrl w s) := by
  unfold Machine.wrMemCtrl
  repeat' first
    | with_reducible assumption
    | with_reducible apply Keeps.ite
    | with_reducible apply Keeps.ite1
    | with_reducible apply Keeps.plainWrite
    | with_reducible apply Keeps.ret

theorem Keeps.wrLbCfg {z0 s : State} {w : Word} (hz : Keeps z0 s)  : Keeps z0 (Machine.wrLbCfg w s) := by
  unfold Machine.wrLbCfg
  repeat' first
    | with_reducible assumption
    | with_reducible apply Keeps.ite
    | with_reducible apply Keeps.ite1
    | with_reducible apply Keeps.plainWrite
    | with_reducible apply Keeps.ret

theorem Keeps.wrLedgerBase {z0 s : State} {w : Word} (hz : Keeps z0 s)  : Keeps z0 (Machine.wrLedgerBase w s) := by
  unfold Machine.wrLedgerBase
  repeat' first
    | with_reducible assumption
    | with_reducible apply Keeps.ite
    | with_reducible apply Keeps.ite1
    | with_reducible apply Keeps.plainWrite
    | with_reducible apply Keeps.ret
    | (fail_if_no_progress dsimp -zeta only)
    | split

theorem Keeps.resetBst {z0 s : State} {why : Nat} (hz : Keeps z0 s)  : Keeps z0 (Machine.resetBst why s) := by
  unfold Machine.resetBst
  try lift_lets
  repeat' first
    | with_reducible assumption
    | (intro x; with_reducible refine Keeps.cut (o := z0) x ?_ ?_; dsimp only [x]; rotate_left; try clear_value x)
    | with_reducible apply Keeps.ite2
    | (intro x; try clear_value x)
    | with_reducible apply Keeps.foldl
    | with_reducible apply Keeps.foldl1
    | with_reducible apply Keeps.forN
    | with_reducible apply Keeps.updBst
    | with_reducible apply Keeps.ledger
    | with_reducible apply Keeps.lbRecord
    | with_reducible apply Keeps.wr
    | with_reducible apply Keeps.set
    | with_reducible apply Keeps.dropRange

theorem Keeps.resetBstFull {z0 s : State}  (hz : Keeps z0 s)  : Keeps z0 (Machine.resetBstFull s) := by
  unfold Machine.resetBstFull
  repeat' first
    | with_reducible assumption
    | with_reducible apply Keeps.updBst
    | with_reducible apply Keeps.dropRange

theorem Keeps.execMemSliceStart {s z : State} {u : Fin 15} (e : Machine.execMemSliceStart u s = .next z) : Keeps s z := by
  have hz := Keeps.refl s
  revert e
  unfold Machine.execMemSliceStart
  first
    | (intro e; injection e with e; subst e; (repeat' first
         | with_reducible assumption
         | with_reducible apply Keeps.sliceStart
         ); done)

theorem Keeps.execMemSliceEnd {s z : State} {u : Fin 15} {bad : Option (Fin 72)} (e : Machine.execMemSliceEnd u bad s = .next z) : Keeps s z := by
  have hz := Keeps.refl s
  revert e
  unfold Machine.execMemSliceEnd
  first
    | (intro e; injection e with e; subst e; (repeat' first
         | with_reducible assumption
         | with_reducible apply Keeps.sliceEnd
         ); done)

theorem Keeps.execRepairRestore {s z : State} {q : Rq} {u : Fin 15} {k : Fin 4} {row : BitVec 13} (e : Machine.execRepairRestore q u k row s = .next z) : Keeps s z := by
  have hz := Keeps.refl s
  revert e
  unfold Machine.execRepairRestore
  first
    | (intro e; injection e with e; subst e; (repeat' first
         | with_reducible assumption
         | (intro x; try clear_value x)
         | with_reducible apply Keeps.gated
         | with_reducible apply Keeps.wrRepair
         ); done)

theorem Keeps.execTestRow {s z : State} {q : Rq} {u : BitVec 5} {row : BitVec 13} (e : Machine.execTestRow q u row s = .next z) : Keeps s z := by
  have hz := Keeps.refl s
  revert e
  unfold Machine.execTestRow
  first
    | (intro e; injection e with e; subst e; (repeat' first
         | with_reducible assumption
         | (intro x; try clear_value x)
         | with_reducible apply Keeps.gated
         | with_reducible apply Keeps.wrMemCmd
         ); done)

theorem Keeps.execLogicSliceRequest {s z : State} {q : Rq} {c : BitVec 4} {i : BitVec 6} (e : Machine.execLogicSliceRequest q c i s = .next z) : Keeps s z := by
  have hz := Keeps.refl s
  revert e
  unfold Machine.execLogicSliceRequest
  first
    | (intro e; injection e with e; subst e; (repeat' first
         | with_reducible assumption
         | (intro x; try clear_value x)
         | with_reducible apply Keeps.gated
         | with_reducible apply Keeps.wrLbCmd
         ); done)

theorem Keeps.execLogicSliceStart {s z : State}  (e : Machine.execLogicSliceStart s = .next z) : Keeps s z := by
  have hz := Keeps.refl s
  revert e
  unfold Machine.execLogicSliceStart
  first
    | (intro e; injection e with e; subst e; (repeat' first
         | with_reducible assumption
         | with_reducible apply Keeps.lbStart
         ); done)

theorem Keeps.execLogicSliceEnd {s z : State} {fail : Bool} (e : Machine.execLogicSliceEnd fail s = .next z) : Keeps s z := by
  have hz := Keeps.refl s
  revert e
  unfold Machine.execLogicSliceEnd
  first
    | (intro e; injection e with e; subst e; (repeat' first
         | with_reducible assumption
         | with_reducible apply Keeps.lbDone
         ); done)

theorem Keeps.execLogicSliceTimeout {s z : State}  (e : Machine.execLogicSliceTimeout s = .next z) : Keeps s z := by
  have hz := Keeps.refl s
  revert e
  unfold Machine.execLogicSliceTimeout
  first
    | (intro e; injection e with e; subst e; (repeat' first
         | with_reducible assumption
         | with_reducible apply Keeps.lbTimeout
         ); done)

end Sys2Proof.Machine
end

