-- ==== Sys2Proof/Laws/KeepLoader.lean ====
section
/-! SUPPORT. What the operations of Loader.lean keep. -/

set_option linter.all false

namespace Sys2Proof.Machine

theorem Keeps.loaderCopy {z0 s : State} {u : Nat} {a : Nat} {bytes : List Byte} (hz : Keeps z0 s)  : Keeps z0 (Machine.loaderCopy u a bytes s) := by
  unfold Machine.loaderCopy
  repeat' first
    | with_reducible assumption
    | (intro x; try clear_value x)
    | with_reducible apply Keeps.forN
    | with_reducible apply Keeps.write8

theorem Keeps.loadFail {z0 s : State} {l : Load} {o : Code} {step : Nat} (hz : Keeps z0 s)  : Keeps z0 (Machine.loadFail l o step s) :=
  Keeps.loadEnd (Keeps.shelfLost hz)

theorem Keeps.loadWrite {z0 s : State} {l : Load} {h : List Byte} {body : List Byte} {data : List Byte} (hz : Keeps z0 s)  : Keeps z0 (Machine.loadWrite l h body data s) := by
  unfold Machine.loadWrite
  try lift_lets
  repeat' first
    | (refine fun (k : Cpu) (hk : CpuOk k) => (?_ : CpuOk _); first | exact hk | (simp only [CpuOk, upd_length] at *; simpa using hk) | (split <;> first | exact hk | (simp only [CpuOk, upd_length] at *; simpa using hk)))
    | exact CelKeeps.refl _
    | exact ⟨fun _ h => h, Nat.le_refl _⟩
    | exact ⟨fun _ h => h, Nat.le_succ _⟩
    | with_reducible assumption
    | (intro x; with_reducible refine Keeps.cut (o := z0) x ?_ ?_; dsimp only [x]; rotate_left; try clear_value x)
    | (intro x; try clear_value x)
    | with_reducible apply Keeps.ite
    | with_reducible apply Keeps.ite1
    | with_reducible apply Keeps.loadEnd
    | with_reducible apply Keeps.shelfDirty
    | with_reducible apply Keeps.loaderCopy
    | with_reducible apply Keeps.set
    | with_reducible apply Keeps.updCpu
    | ((first | rw [patch_eq] | skip); (with_reducible refine Keeps.patch ?_ ?_ ?_); rotate_left; (first | exact CelKeeps.refl _ | exact ⟨fun _ h => h, Nat.le_refl _⟩ | exact ⟨fun _ h => h, Nat.le_succ _⟩); (refine fun g => ?_; first | exact g | simpa only [SizesOk, Machine.patch, upd_length] using g | (simp only [SizesOk, Machine.patch, upd_length, List.length_map, List.length_replicate, true_and] at g ⊢; tauto)))

theorem Keeps.loadComplete {z0 s : State}  (hz : Keeps z0 s)  : Keeps z0 (Machine.loadComplete s) := by
  unfold Machine.loadComplete
  repeat' first
    | with_reducible assumption
    | with_reducible apply Keeps.ite2
    | with_reducible apply Keeps.ite
    | with_reducible apply Keeps.ite1
    | with_reducible apply Keeps.memRead
    | with_reducible apply Keeps.loadFail
    | with_reducible apply Keeps.loadWrite
    | (fail_if_no_progress dsimp -zeta only)
    | split

end Sys2Proof.Machine
end

