-- ==== Sys2Proof/Laws/KeepBoot.lean ====
section
/-! SUPPORT. What the operations of Boot.lean keep. -/

set_option linter.all false

namespace Sys2Proof.Machine

theorem Keeps.bootStage {z0 s : State} {x : Nat} (hz : Keeps z0 s)  : Keeps z0 (Machine.bootStage x s) := by
  unfold Machine.bootStage
  repeat' first
    | with_reducible assumption
    | with_reducible apply Keeps.set

theorem Keeps.romWrites {z0 s : State} {f : State → State} (hz : Keeps z0 s) (hf : ∀ x0, Keeps z0 x0 → Keeps z0 (f x0)) : Keeps z0 (Machine.romWrites f s) := by
  unfold Machine.romWrites
  exact Keeps.upd (hf s hz) rfl rfl rfl rfl rfl (CelKeeps.refl _) rfl id

theorem region_sram {a : Nat} (h1 : 0x10000000 ≤ a) (h2 : a < 0x10800000) : unitOf a = some 0 := by
  have : region a = .sram := by
    unfold region; rw [if_neg (by omega), if_pos ⟨h1, h2⟩]
  simp [unitOf, this]

theorem Keeps.romCopy {z0 s : State} {a : Nat} {bytes : List Byte} (hz : Keeps z0 s) (h1 : 0x10000000 ≤ a)
    (h2 : a + bytes.length ≤ 0x10800000) : Keeps z0 (Machine.romCopy a bytes s) := by
  unfold Machine.romCopy
  refine Keeps.foldlMem (Keeps.loaderCopy hz) fun s x hx hs => Keeps.memWrite hs fun _ => ?_
  have h3 := List.mem_zipIdx hx
  simp only [List.length_drop] at h3
  exact region_sram (by omega) (by omega)

theorem Keeps.romFetch {z0 s : State} {a n : Nat} (hz : Keeps z0 s)  : Keeps z0 (Machine.romFetch a n s) := by
  unfold Machine.romFetch
  exact Keeps.upd hz rfl rfl rfl rfl rfl (CelKeeps.refl _) rfl (fun g => by simp_all [SizesOk])

theorem Keeps.romQuiet {z0 s : State}  (hz : Keeps z0 s)  : Keeps z0 (Machine.romQuiet s) := by
  unfold Machine.romQuiet
  exact Keeps.upd hz rfl rfl rfl rfl rfl (CelKeeps.refl _) rfl (fun g => by simp_all [SizesOk])

theorem Keeps.romTick {z0 s : State} {n : Nat} (hz : Keeps z0 s)  : Keeps z0 (Machine.romTick n s) := by
  unfold Machine.romTick
  repeat' first
    | with_reducible assumption
    | (intro x; with_reducible refine Keeps.cut (o := z0) x ?_ ?_; dsimp only [x]; rotate_left; try clear_value x)
    | (intro x; with_reducible refine Keeps.cut1 (o := z0) x ?_ ?_; dsimp only [x]; rotate_left; try clear_value x)
    | (intro x; with_reducible refine Keeps.cutF x ?_; try dsimp only [x])
    | (intro x; try clear_value x)
    | with_reducible apply Keeps.ite
    | with_reducible apply Keeps.ite1
    | ((first | rw [patch_eq] | skip); (with_reducible refine Keeps.patch ?_ ?_ ?_); rotate_left; (first | exact CelKeeps.refl _ | exact ⟨fun _ h => h, Nat.le_refl _⟩ | exact ⟨fun _ h => h, Nat.le_succ _⟩); (refine fun g => ?_; first | exact g | simpa only [SizesOk, Machine.patch, upd_length] using g | (simp only [SizesOk, Machine.patch, upd_length, List.length_map, List.length_replicate, true_and] at g ⊢; tauto)))
    | (fail_if_no_progress dsimp -zeta only)
    | split

theorem Keeps.romImage {z0 s : State} {d : Nat} (hz : Keeps z0 s)  : Keeps z0 (Machine.romImage d s) := by
  unfold Machine.romImage
  refine Keeps.romCopy (Keeps.romFetch (Keeps.romCopy (Keeps.romFetch (Keeps.bootStage (Keeps.set hz))) ?_ ?_)) ?_ ?_
  all_goals first | omega | (simp only [flashBytes, List.length_map, List.length_range]; omega)

theorem Keeps.romLoad {z0 s : State}  (hz : Keeps z0 s)  : Keeps z0 (Machine.romLoad s) := by
  unfold Machine.romLoad
  repeat' first
    | with_reducible assumption
    | (intro x; with_reducible refine Keeps.cut (o := z0) x ?_ ?_; dsimp only [x]; rotate_left; try clear_value x)
    | (intro x; with_reducible refine Keeps.cut1 (o := z0) x ?_ ?_; dsimp only [x]; rotate_left; try clear_value x)
    | (intro x; with_reducible refine Keeps.cutF x ?_; try dsimp only [x])
    | (intro x; try clear_value x)
    | with_reducible apply Keeps.loadStart
    | with_reducible apply Keeps.bootStage
    | with_reducible apply Keeps.romWrites
    | with_reducible apply Keeps.set
    | (fail_if_no_progress dsimp -zeta only)
    | split

theorem Keeps.romSwap {z0 s : State}  (hz : Keeps z0 s)  : Keeps z0 (Machine.romSwap s) := by
  unfold Machine.romSwap
  try lift_lets
  repeat' first
    | (refine fun (k : Cpu) (hk : CpuOk k) => (?_ : CpuOk _); first | exact hk | (simp only [CpuOk, upd_length] at *; simpa using hk) | (split <;> first | exact hk | (simp only [CpuOk, upd_length] at *; simpa using hk)))
    | exact CelKeeps.refl _
    | exact ⟨fun _ h => h, Nat.le_refl _⟩
    | exact ⟨fun _ h => h, Nat.le_succ _⟩
    | with_reducible assumption
    | (intro x; with_reducible refine Keeps.cut (o := z0) x ?_ ?_; dsimp only [x]; rotate_left; try clear_value x)
    | (intro x; try clear_value x)
    | with_reducible apply Keeps.bootStage
    | with_reducible apply Keeps.set
    | with_reducible apply Keeps.updCpu
    | ((first | rw [patch_eq] | skip); (with_reducible refine Keeps.patch ?_ ?_ ?_); rotate_left; (first | exact CelKeeps.refl _ | exact ⟨fun _ h => h, Nat.le_refl _⟩ | exact ⟨fun _ h => h, Nat.le_succ _⟩); (refine fun g => ?_; first | exact g | simpa only [SizesOk, Machine.patch, upd_length] using g | (simp only [SizesOk, Machine.patch, upd_length, List.length_map, List.length_replicate, true_and] at g ⊢; tauto)))

theorem Keeps.romTries {z0 s : State} {l : List Nat} (hz : Keeps z0 s) : Keeps z0 (Machine.romTries l s) := by
  induction l generalizing s with
  | nil => exact Keeps.bootStage hz
  | cons d t ih =>
    unfold Machine.romTries
    dsimp only
    exact Keeps.ite (Keeps.romImage hz) (Keeps.ite (Keeps.romLoad (Keeps.romImage hz)) (ih (Keeps.set (Keeps.romLoad (Keeps.romImage hz)))))

theorem Keeps.romStart {z0 s : State}  (hz : Keeps z0 s)  : Keeps z0 (Machine.romStart s) := by
  unfold Machine.romStart
  try lift_lets
  repeat' first
    | with_reducible assumption
    | (intro x; with_reducible refine Keeps.cut (o := z0) x ?_ ?_; dsimp only [x]; rotate_left; try clear_value x)
    | (intro x; with_reducible refine Keeps.cut1 (o := z0) x ?_ ?_; dsimp only [x]; rotate_left; try clear_value x)
    | (intro x; with_reducible refine Keeps.cutF x ?_; try dsimp only [x])
    | (intro x; try clear_value x)
    | with_reducible apply Keeps.ite
    | with_reducible apply Keeps.ite1
    | with_reducible apply Keeps.wrSysSel
    | with_reducible apply Keeps.romFetch
    | with_reducible apply Keeps.romQuiet
    | with_reducible apply Keeps.bootStage
    | with_reducible apply Keeps.romWrites
    | with_reducible apply Keeps.romTries
    | with_reducible apply Keeps.romSwap
    | with_reducible apply Keeps.wr
    | with_reducible apply Keeps.set
    | (fail_if_no_progress dsimp -zeta only)
    | split

theorem Keeps.romRead {z0 s : State}  (hz : Keeps z0 s)  : Keeps z0 (Machine.romRead s) := by
  unfold Machine.romRead
  try lift_lets
  repeat' first
    | with_reducible assumption
    | (intro x; with_reducible refine Keeps.cut (o := z0) x ?_ ?_; dsimp only [x]; rotate_left; try clear_value x)
    | (intro x; with_reducible refine Keeps.cut1 (o := z0) x ?_ ?_; dsimp only [x]; rotate_left; try clear_value x)
    | (intro x; with_reducible refine Keeps.cutF x ?_; try dsimp only [x])
    | (intro x; try clear_value x)
    | with_reducible apply Keeps.ite
    | with_reducible apply Keeps.ite1
    | with_reducible apply Keeps.romLoad
    | with_reducible apply Keeps.romTries
    | with_reducible apply Keeps.set
    | (fail_if_no_progress dsimp -zeta only)
    | split

theorem Keeps.romLoaded {z0 s : State}  (hz : Keeps z0 s)  : Keeps z0 (Machine.romLoaded s) := by
  unfold Machine.romLoaded
  try lift_lets
  repeat' first
    | with_reducible assumption
    | (intro x; with_reducible refine Keeps.cut (o := z0) x ?_ ?_; dsimp only [x]; rotate_left; try clear_value x)
    | (intro x; try clear_value x)
    | with_reducible apply Keeps.ite
    | with_reducible apply Keeps.ite1
    | with_reducible apply Keeps.romTries
    | with_reducible apply Keeps.romSwap
    | with_reducible apply Keeps.set

theorem Keeps.loadDone {z0 s : State}  (hz : Keeps z0 s)  : Keeps z0 (Machine.loadDone s) := by
  unfold Machine.loadDone
  repeat' first
    | with_reducible assumption
    | (intro x; with_reducible refine Keeps.cut (o := z0) x ?_ ?_; dsimp only [x]; rotate_left; try clear_value x)
    | (intro x; with_reducible refine Keeps.cut1 (o := z0) x ?_ ?_; dsimp only [x]; rotate_left; try clear_value x)
    | (intro x; with_reducible refine Keeps.cutF x ?_; try dsimp only [x])
    | (intro x; try clear_value x)
    | with_reducible apply Keeps.ite
    | with_reducible apply Keeps.ite1
    | with_reducible apply Keeps.loadComplete
    | with_reducible apply Keeps.romRead
    | with_reducible apply Keeps.romLoaded
    | (fail_if_no_progress dsimp -zeta only)
    | split

theorem Keeps.execLoadComplete {s z : State}  (e : Machine.execLoadComplete s = .next z) : Keeps s z := by
  have hz := Keeps.refl s
  revert e
  unfold Machine.execLoadComplete
  first
    | (intro e; injection e with e; subst e; (repeat' first
         | with_reducible assumption
         | with_reducible apply Keeps.loadDone
         ); done)

end Sys2Proof.Machine
end

