-- ==== Sys2Proof/Laws/KeepFrm.lean ====
section
/-! SUPPORT. What the operations of Frm.lean keep. -/

set_option linter.all false

namespace Sys2Proof.Machine

theorem Keeps.skewEval {z0 s : State} {m : Nat} (hz : Keeps z0 s)  : Keeps z0 (Machine.skewEval m s) := by
  unfold Machine.skewEval
  repeat' first
    | with_reducible assumption
    | with_reducible apply Keeps.ite2
    | with_reducible apply Keeps.ite
    | with_reducible apply Keeps.ite1
    | with_reducible apply Keeps.set
    | with_reducible apply Keeps.seti
    | (fail_if_no_progress dsimp -zeta only)
    | split

theorem Keeps.takeRot {z0 s : State} {n : Nat} {mf : Nat} {rot : Nat} (hz : Keeps z0 s)  : Keeps z0 (Machine.takeRot n mf rot s) := by
  unfold Machine.takeRot
  repeat' first
    | with_reducible assumption
    | with_reducible apply Keeps.ite
    | with_reducible apply Keeps.ite1
    | with_reducible apply Keeps.updFrm
    | with_reducible apply Keeps.set
    | with_reducible apply Keeps.idS
    | (fail_if_no_progress dsimp -zeta only)
    | split

theorem Keeps.takeOverhead {z0 s : State} {n : Nat} {blk : BitVec 170} {arr : Int} (hz : Keeps z0 s)  : Keeps z0 (Machine.takeOverhead n blk arr s) := by
  unfold Machine.takeOverhead
  repeat' first
    | with_reducible assumption
    | (intro x; try clear_value x)
    | with_reducible apply Keeps.ite
    | with_reducible apply Keeps.ite1
    | with_reducible apply Keeps.forN
    | with_reducible apply Keeps.updFrm
    | with_reducible apply Keeps.frmEvt
    | with_reducible apply Keeps.frmCount
    | with_reducible apply Keeps.skewEval
    | with_reducible apply Keeps.takeRot
    | ((first | rw [patch_eq] | skip); (with_reducible refine Keeps.patch ?_ ?_ ?_); rotate_left; (first | exact CelKeeps.refl _ | exact ⟨fun _ h => h, Nat.le_refl _⟩ | exact ⟨fun _ h => h, Nat.le_succ _⟩); (refine fun g => ?_; first | exact g | simpa only [SizesOk, Machine.patch, upd_length] using g | (simp only [SizesOk, Machine.patch, upd_length, List.length_map, List.length_replicate, true_and] at g ⊢; tauto)))

theorem Keeps.rxTake {z0 s : State} {n : Nat} {k : Nat} (hz : Keeps z0 s)  : Keeps z0 (Machine.rxTake n k s) := by
  unfold Machine.rxTake
  repeat' first
    | with_reducible assumption
    | with_reducible apply Keeps.updFrm
    | ((first | rw [patch_eq] | skip); (with_reducible refine Keeps.patch ?_ ?_ ?_); rotate_left; (first | exact CelKeeps.refl _ | exact ⟨fun _ h => h, Nat.le_refl _⟩ | exact ⟨fun _ h => h, Nat.le_succ _⟩); (refine fun g => ?_; first | exact g | simpa only [SizesOk, Machine.patch, upd_length] using g | (simp only [SizesOk, Machine.patch, upd_length, List.length_map, List.length_replicate, true_and] at g ⊢; tauto)))

theorem Keeps.rxHunt {z0 s : State} {n : Nat} (hz : Keeps z0 s)  : Keeps z0 (Machine.rxHunt n s) := by
  unfold Machine.rxHunt
  repeat' first
    | with_reducible assumption
    | (intro x; try clear_value x)
    | with_reducible apply Keeps.ite
    | with_reducible apply Keeps.ite1
    | with_reducible apply Keeps.updFrm
    | with_reducible apply Keeps.setFstate
    | with_reducible apply Keeps.rxTake
    | (fail_if_no_progress dsimp -zeta only)
    | split
    | lift_lets

theorem Keeps.rxConfirm {z0 s : State} {n : Nat} {blk : BitVec 170} (hz : Keeps z0 s)  : Keeps z0 (Machine.rxConfirm n blk s) := by
  unfold Machine.rxConfirm
  repeat' first
    | with_reducible assumption
    | with_reducible apply Keeps.ite
    | with_reducible apply Keeps.ite1
    | with_reducible apply Keeps.updFrm
    | with_reducible apply Keeps.frmEvt
    | with_reducible apply Keeps.setFstate
    | ((first | rw [patch_eq] | skip); (with_reducible refine Keeps.patch ?_ ?_ ?_); rotate_left; (first | exact CelKeeps.refl _ | exact ⟨fun _ h => h, Nat.le_refl _⟩ | exact ⟨fun _ h => h, Nat.le_succ _⟩); (refine fun g => ?_; first | exact g | simpa only [SizesOk, Machine.patch, upd_length] using g | (simp only [SizesOk, Machine.patch, upd_length, List.length_map, List.length_replicate, true_and] at g ⊢; tauto)))

theorem Keeps.takePayload {z0 s : State} {n : Nat} {p : Soft} (hz : Keeps z0 s)  : Keeps z0 (Machine.takePayload n p s) := by
  unfold Machine.takePayload
  try lift_lets
  repeat' first
    | with_reducible assumption
    | (intro x; with_reducible refine Keeps.cut (o := z0) x ?_ ?_; dsimp only [x]; rotate_left; try clear_value x)
    | (intro x; try clear_value x)
    | with_reducible apply Keeps.ite
    | with_reducible apply Keeps.ite1
    | with_reducible apply Keeps.updFrm
    | with_reducible apply Keeps.celRx
    | ((first | rw [patch_eq] | skip); (with_reducible refine Keeps.patch ?_ ?_ ?_); rotate_left; (first | exact CelKeeps.refl _ | exact ⟨fun _ h => h, Nat.le_refl _⟩ | exact ⟨fun _ h => h, Nat.le_succ _⟩); (refine fun g => ?_; first | exact g | simpa only [SizesOk, Machine.patch, upd_length] using g | (simp only [SizesOk, Machine.patch, upd_length, List.length_map, List.length_replicate, true_and] at g ⊢; tauto)))

theorem Keeps.rxAligned {z0 s : State} {n : Nat} {fr : Soft} {arr : Int} (hz : Keeps z0 s)  : Keeps z0 (Machine.rxAligned n fr arr s) := by
  unfold Machine.rxAligned
  try lift_lets
  repeat' first
    | with_reducible assumption
    | (intro x; with_reducible refine Keeps.cut (o := z0) x ?_ ?_; dsimp only [x]; rotate_left; try clear_value x)
    | (intro x; try clear_value x)
    | with_reducible apply Keeps.ite
    | with_reducible apply Keeps.ite1
    | with_reducible apply Keeps.updFrm
    | with_reducible apply Keeps.frameLost
    | with_reducible apply Keeps.takeOverhead
    | with_reducible apply Keeps.takePayload
    | ((first | rw [patch_eq] | skip); (with_reducible refine Keeps.patch ?_ ?_ ?_); rotate_left; (first | exact CelKeeps.refl _ | exact ⟨fun _ h => h, Nat.le_refl _⟩ | exact ⟨fun _ h => h, Nat.le_succ _⟩); (refine fun g => ?_; first | exact g | simpa only [SizesOk, Machine.patch, upd_length] using g | (simp only [SizesOk, Machine.patch, upd_length, List.length_map, List.length_replicate, true_and] at g ⊢; tauto)))

theorem Keeps.rxFrame {z0 s : State} {n : Nat} {arr : Int} (hz : Keeps z0 s)  : Keeps z0 (Machine.rxFrame n arr s) := by
  unfold Machine.rxFrame
  repeat' first
    | with_reducible assumption
    | with_reducible apply Keeps.ite
    | with_reducible apply Keeps.ite1
    | with_reducible apply Keeps.rxTake
    | with_reducible apply Keeps.rxHunt
    | with_reducible apply Keeps.rxConfirm
    | with_reducible apply Keeps.rxAligned
    | (fail_if_no_progress dsimp -zeta only)
    | split

theorem Keeps.puncturePhaseAdvance {z0 s : State} {n : Nat} (hz : Keeps z0 s)  : Keeps z0 (Machine.puncturePhaseAdvance n s) := by
  unfold Machine.puncturePhaseAdvance
  repeat' first
    | with_reducible assumption
    | with_reducible apply Keeps.ite
    | with_reducible apply Keeps.ite1
    | with_reducible apply Keeps.updFrm
    | with_reducible apply Keeps.incMod
    | ((first | rw [patch_eq] | skip); (with_reducible refine Keeps.patch ?_ ?_ ?_); rotate_left; (first | exact CelKeeps.refl _ | exact ⟨fun _ h => h, Nat.le_refl _⟩ | exact ⟨fun _ h => h, Nat.le_succ _⟩); (refine fun g => ?_; first | exact g | simpa only [SizesOk, Machine.patch, upd_length] using g | (simp only [SizesOk, Machine.patch, upd_length, List.length_map, List.length_replicate, true_and] at g ⊢; tauto)))

theorem Keeps.rsCorrected {z0 s : State} {n : Nat} {k : Nat} {saved : Bool} (hz : Keeps z0 s)  : Keeps z0 (Machine.rsCorrected n k saved s) := by
  unfold Machine.rsCorrected
  try lift_lets
  repeat' first
    | with_reducible assumption
    | (intro x; with_reducible refine Keeps.cut (o := z0) x ?_ ?_; dsimp only [x]; rotate_left; try clear_value x)
    | (intro x; try clear_value x)
    | with_reducible apply Keeps.ite
    | with_reducible apply Keeps.ite1
    | with_reducible apply Keeps.updFrm
    | with_reducible apply Keeps.frmCount
    | ((first | rw [patch_eq] | skip); (with_reducible refine Keeps.patch ?_ ?_ ?_); rotate_left; (first | exact CelKeeps.refl _ | exact ⟨fun _ h => h, Nat.le_refl _⟩ | exact ⟨fun _ h => h, Nat.le_succ _⟩); (refine fun g => ?_; first | exact g | simpa only [SizesOk, Machine.patch, upd_length] using g | (simp only [SizesOk, Machine.patch, upd_length, List.length_map, List.length_replicate, true_and] at g ⊢; tauto)))

theorem Keeps.rsFailed {z0 s : State} {n : Nat} {g : Nat} {k : Nat} (hz : Keeps z0 s)  : Keeps z0 (Machine.rsFailed n g k s) := by
  unfold Machine.rsFailed
  try lift_lets
  repeat' first
    | with_reducible assumption
    | (intro x; with_reducible refine Keeps.cut (o := z0) x ?_ ?_; dsimp only [x]; rotate_left; try clear_value x)
    | (intro x; try clear_value x)
    | with_reducible apply Keeps.ite
    | with_reducible apply Keeps.ite1
    | with_reducible apply Keeps.updFrm
    | with_reducible apply Keeps.frmEvt
    | with_reducible apply Keeps.frmCount
    | ((first | rw [patch_eq] | skip); (with_reducible refine Keeps.patch ?_ ?_ ?_); rotate_left; (first | exact CelKeeps.refl _ | exact ⟨fun _ h => h, Nat.le_refl _⟩ | exact ⟨fun _ h => h, Nat.le_succ _⟩); (refine fun g => ?_; first | exact g | simpa only [SizesOk, Machine.patch, upd_length] using g | (simp only [SizesOk, Machine.patch, upd_length, List.length_map, List.length_replicate, true_and] at g ⊢; tauto)))

theorem Keeps.rsDecode {z0 s : State} {n : Nat} {g : Nat} {k : Nat} (hz : Keeps z0 s)  : Keeps z0 (Machine.rsDecode n g k s) := by
  unfold Machine.rsDecode
  repeat' first
    | with_reducible assumption
    | (intro x; with_reducible refine Keeps.cut (o := z0) x ?_ ?_; dsimp only [x]; rotate_left; try clear_value x)
    | with_reducible apply Keeps.ite2
    | (intro x; try clear_value x)
    | with_reducible apply Keeps.ite
    | with_reducible apply Keeps.ite1
    | with_reducible apply Keeps.updFrm
    | with_reducible apply Keeps.frmCount
    | with_reducible apply Keeps.rsCorrected
    | with_reducible apply Keeps.rsFailed
    | (fail_if_no_progress dsimp -zeta only)
    | split
    | lift_lets

theorem Keeps.fecWindowEnd {z0 s : State} {n : Nat} (hz : Keeps z0 s)  : Keeps z0 (Machine.fecWindowEnd n s) := by
  unfold Machine.fecWindowEnd
  try lift_lets
  repeat' first
    | with_reducible assumption
    | (intro x; with_reducible refine Keeps.cut (o := z0) x ?_ ?_; dsimp only [x]; rotate_left; try clear_value x)
    | (intro x; try clear_value x)
    | with_reducible apply Keeps.ite
    | with_reducible apply Keeps.ite1
    | with_reducible apply Keeps.updFrm
    | with_reducible apply Keeps.frmEvt
    | with_reducible apply Keeps.set
    | ((first | rw [patch_eq] | skip); (with_reducible refine Keeps.patch ?_ ?_ ?_); rotate_left; (first | exact CelKeeps.refl _ | exact ⟨fun _ h => h, Nat.le_refl _⟩ | exact ⟨fun _ h => h, Nat.le_succ _⟩); (refine fun g => ?_; first | exact g | simpa only [SizesOk, Machine.patch, upd_length] using g | (simp only [SizesOk, Machine.patch, upd_length, List.length_map, List.length_replicate, true_and] at g ⊢; tauto)))

theorem Keeps.loadRefresh {z0 s : State} {rx : Bool} {n : Nat} (hz : Keeps z0 s)  : Keeps z0 (Machine.loadRefresh rx n s) := by
  unfold Machine.loadRefresh
  try lift_lets
  repeat' first
    | with_reducible assumption
    | (intro x; try clear_value x)
    | with_reducible apply Keeps.ite
    | with_reducible apply Keeps.ite1
    | with_reducible apply Keeps.set

theorem Keeps.ctrFresh {z0 s : State} {rx : Bool} {n : Nat} {c : Nat} (hz : Keeps z0 s)  : Keeps z0 (Machine.ctrFresh rx n c s) := by
  unfold Machine.ctrFresh
  repeat' first
    | with_reducible assumption
    | with_reducible apply Keeps.ite
    | with_reducible apply Keeps.ite1
    | with_reducible apply Keeps.updFrm
    | ((first | rw [patch_eq] | skip); (with_reducible refine Keeps.patch ?_ ?_ ?_); rotate_left; (first | exact CelKeeps.refl _ | exact ⟨fun _ h => h, Nat.le_refl _⟩ | exact ⟨fun _ h => h, Nat.le_succ _⟩); (refine fun g => ?_; first | exact g | simpa only [SizesOk, Machine.patch, upd_length] using g | (simp only [SizesOk, Machine.patch, upd_length, List.length_map, List.length_replicate, true_and] at g ⊢; tauto)))

theorem Keeps.wrCtr {z0 s : State} {rx : Bool} {n : Nat} {c : Nat} {w : Word} (hz : Keeps z0 s)  : Keeps z0 (Machine.wrCtr rx n c w s) := by
  unfold Machine.wrCtr
  try lift_lets
  repeat' first
    | with_reducible assumption
    | (intro x; with_reducible refine Keeps.cut (o := z0) x ?_ ?_; dsimp only [x]; rotate_left; try clear_value x)
    | (intro x; try clear_value x)
    | with_reducible apply Keeps.ite
    | with_reducible apply Keeps.ite1
    | with_reducible apply Keeps.loadRefresh
    | with_reducible apply Keeps.ctrFresh
    | with_reducible apply Keeps.store
    | with_reducible apply Keeps.ret

theorem Keeps.rxBlock {z0 s : State} {n : Nat} {c : Nat} {fmt : Nat} {seq : Nat} {blk : Nat} (hz : Keeps z0 s)  : Keeps z0 (Machine.rxBlock n c fmt seq blk s) := by
  unfold Machine.rxBlock
  repeat' first
    | with_reducible assumption
    | with_reducible apply Keeps.ite
    | with_reducible apply Keeps.ite1
    | with_reducible apply Keeps.updFrm
    | with_reducible apply Keeps.frmEvt
    | with_reducible apply Keeps.frmCount
    | ((first | rw [patch_eq] | skip); (with_reducible refine Keeps.patch ?_ ?_ ?_); rotate_left; (first | exact CelKeeps.refl _ | exact ⟨fun _ h => h, Nat.le_refl _⟩ | exact ⟨fun _ h => h, Nat.le_succ _⟩); (refine fun g => ?_; first | exact g | simpa only [SizesOk, Machine.patch, upd_length] using g | (simp only [SizesOk, Machine.patch, upd_length, List.length_map, List.length_replicate, true_and] at g ⊢; tauto)))

theorem Keeps.rxCell {z0 s : State} {n : Nat} (hz : Keeps z0 s)  : Keeps z0 (Machine.rxCell n s) := by
  unfold Machine.rxCell
  try lift_lets
  repeat' first
    | with_reducible assumption
    | (intro x; with_reducible refine Keeps.cut (o := z0) x ?_ ?_; dsimp only [x]; rotate_left; try clear_value x)
    | (intro x; try clear_value x)
    | with_reducible apply Keeps.ite
    | with_reducible apply Keeps.ite1
    | with_reducible apply Keeps.updFrm
    | with_reducible apply Keeps.rxBlock
    | ((first | rw [patch_eq] | skip); (with_reducible refine Keeps.patch ?_ ?_ ?_); rotate_left; (first | exact CelKeeps.refl _ | exact ⟨fun _ h => h, Nat.le_refl _⟩ | exact ⟨fun _ h => h, Nat.le_succ _⟩); (refine fun g => ?_; first | exact g | simpa only [SizesOk, Machine.patch, upd_length] using g | (simp only [SizesOk, Machine.patch, upd_length, List.length_map, List.length_replicate, true_and] at g ⊢; tauto)))

theorem Keeps.sendFrame {z0 s : State} {n : Nat} {oh : Nat} {payload : Nat} (hz : Keeps z0 s)  : Keeps z0 (Machine.sendFrame n oh payload s) := by
  unfold Machine.sendFrame
  try lift_lets
  repeat' first
    | with_reducible assumption
    | with_reducible apply Keeps.ite2
    | with_reducible apply Keeps.updFrm
    | ((first | rw [patch_eq] | skip); (with_reducible refine Keeps.patch ?_ ?_ ?_); rotate_left; (first | exact CelKeeps.refl _ | exact ⟨fun _ h => h, Nat.le_refl _⟩ | exact ⟨fun _ h => h, Nat.le_succ _⟩); (refine fun g => ?_; first | exact g | simpa only [SizesOk, Machine.patch, upd_length] using g | (simp only [SizesOk, Machine.patch, upd_length, List.length_map, List.length_replicate, true_and] at g ⊢; tauto)))

theorem Keeps.laneFrame {z0 s : State} {n : Nat} {host : Option Nat} {valid : Bool} {start : Bool} {payload : List Byte} (hz : Keeps z0 s)  : Keeps z0 (Machine.laneFrame n host valid start payload s) := by
  unfold Machine.laneFrame
  try lift_lets
  repeat' first
    | with_reducible assumption
    | with_reducible apply Keeps.ite2
    | (intro x; with_reducible refine Keeps.cutF x ?_; try dsimp only [x])
    | (intro x; try clear_value x)
    | with_reducible apply Keeps.ite
    | with_reducible apply Keeps.ite1
    | with_reducible apply Keeps.updFrm
    | with_reducible apply Keeps.sendFrame
    | ((first | rw [patch_eq] | skip); (with_reducible refine Keeps.patch ?_ ?_ ?_); rotate_left; (first | exact CelKeeps.refl _ | exact ⟨fun _ h => h, Nat.le_refl _⟩ | exact ⟨fun _ h => h, Nat.le_succ _⟩); (refine fun g => ?_; first | exact g | simpa only [SizesOk, Machine.patch, upd_length] using g | (simp only [SizesOk, Machine.patch, upd_length, List.length_map, List.length_replicate, true_and] at g ⊢; tauto)))

theorem Keeps.laneUp {z0 s : State} {n : Nat} (hz : Keeps z0 s)  : Keeps z0 (Machine.laneUp n s) := by
  unfold Machine.laneUp
  try lift_lets
  repeat' first
    | with_reducible assumption
    | (intro x; with_reducible refine Keeps.cut (o := z0) x ?_ ?_; dsimp only [x]; rotate_left; try clear_value x)
    | (intro x; try clear_value x)
    | with_reducible apply Keeps.ite
    | with_reducible apply Keeps.ite1
    | with_reducible apply Keeps.updFrm
    | with_reducible apply Keeps.setFstate
    | ((first | rw [patch_eq] | skip); (with_reducible refine Keeps.patch ?_ ?_ ?_); rotate_left; (first | exact CelKeeps.refl _ | exact ⟨fun _ h => h, Nat.le_refl _⟩ | exact ⟨fun _ h => h, Nat.le_succ _⟩); (refine fun g => ?_; first | exact g | simpa only [SizesOk, Machine.patch, upd_length] using g | (simp only [SizesOk, Machine.patch, upd_length, List.length_map, List.length_replicate, true_and] at g ⊢; tauto)))

theorem Keeps.laneDown {z0 s : State} {n : Nat} (hz : Keeps z0 s)  : Keeps z0 (Machine.laneDown n s) := by
  unfold Machine.laneDown
  repeat' first
    | with_reducible assumption
    | with_reducible apply Keeps.updFrm
    | with_reducible apply Keeps.setFstate
    | ((first | rw [patch_eq] | skip); (with_reducible refine Keeps.patch ?_ ?_ ?_); rotate_left; (first | exact CelKeeps.refl _ | exact ⟨fun _ h => h, Nat.le_refl _⟩ | exact ⟨fun _ h => h, Nat.le_succ _⟩); (refine fun g => ?_; first | exact g | simpa only [SizesOk, Machine.patch, upd_length] using g | (simp only [SizesOk, Machine.patch, upd_length, List.length_map, List.length_replicate, true_and] at g ⊢; tauto)))

theorem Keeps.wrLaneCtrl {z0 s : State} {n : Nat} {w : Word} (hz : Keeps z0 s)  : Keeps z0 (Machine.wrLaneCtrl n w s) := by
  unfold Machine.wrLaneCtrl
  try lift_lets
  repeat' first
    | with_reducible assumption
    | (intro x; with_reducible refine Keeps.cut (o := z0) x ?_ ?_; dsimp only [x]; rotate_left; try clear_value x)
    | (intro x; try clear_value x)
    | with_reducible apply Keeps.ite
    | with_reducible apply Keeps.ite1
    | with_reducible apply Keeps.laneUp
    | with_reducible apply Keeps.laneDown
    | with_reducible apply Keeps.store
    | with_reducible apply Keeps.ret

theorem Keeps.rampStart {z0 s : State} {n : Nat} {t : Nat} (hz : Keeps z0 s)  : Keeps z0 (Machine.rampStart n t s) := by
  unfold Machine.rampStart
  repeat' first
    | with_reducible assumption
    | with_reducible apply Keeps.updFrm
    | with_reducible apply Keeps.setTx
    | ((first | rw [patch_eq] | skip); (with_reducible refine Keeps.patch ?_ ?_ ?_); rotate_left; (first | exact CelKeeps.refl _ | exact ⟨fun _ h => h, Nat.le_refl _⟩ | exact ⟨fun _ h => h, Nat.le_succ _⟩); (refine fun g => ?_; first | exact g | simpa only [SizesOk, Machine.patch, upd_length] using g | (simp only [SizesOk, Machine.patch, upd_length, List.length_map, List.length_replicate, true_and] at g ⊢; tauto)))

theorem Keeps.txNow {z0 s : State} {n : Nat} {op : Nat} {c : Code} (hz : Keeps z0 s)  : Keeps z0 (Machine.txNow n op c s) := by
  unfold Machine.txNow
  repeat' first
    | with_reducible assumption
    | with_reducible apply Keeps.txEnd
    | with_reducible apply Keeps.ret

theorem Keeps.txEnable {z0 s : State} {n : Nat} (hz : Keeps z0 s)  : Keeps z0 (Machine.txEnable n s) := by
  unfold Machine.txEnable
  repeat' first
    | with_reducible assumption
    | with_reducible apply Keeps.ite
    | with_reducible apply Keeps.ite1
    | with_reducible apply Keeps.setTx
    | with_reducible apply Keeps.rampStart
    | with_reducible apply Keeps.txNow
    | with_reducible apply Keeps.set
    | with_reducible apply Keeps.ret
    | (fail_if_no_progress dsimp -zeta only)
    | split

theorem Keeps.txSquelch {z0 s : State} {n : Nat} (hz : Keeps z0 s)  : Keeps z0 (Machine.txSquelch n s) := by
  unfold Machine.txSquelch
  repeat' first
    | with_reducible assumption
    | with_reducible apply Keeps.txEnd
    | with_reducible apply Keeps.setTx
    | with_reducible apply Keeps.rampStart
    | with_reducible apply Keeps.txNow
    | (fail_if_no_progress dsimp -zeta only)
    | split

theorem Keeps.wrTxCmd {z0 s : State} {n : Nat} {w : Word} (hz : Keeps z0 s)  : Keeps z0 (Machine.wrTxCmd n w s) := by
  unfold Machine.wrTxCmd
  repeat' first
    | with_reducible assumption
    | with_reducible apply Keeps.txNow
    | with_reducible apply Keeps.txEnable
    | with_reducible apply Keeps.txSquelch
    | (fail_if_no_progress dsimp -zeta only)
    | split

theorem Keeps.squelchStep {z0 s : State} {n : Nat} (hz : Keeps z0 s)  : Keeps z0 (Machine.squelchStep n s) := by
  unfold Machine.squelchStep
  repeat' first
    | with_reducible assumption
    | with_reducible apply Keeps.ite
    | with_reducible apply Keeps.ite1
    | with_reducible apply Keeps.frmEvt
    | with_reducible apply Keeps.txEnd
    | with_reducible apply Keeps.setTx
    | with_reducible apply Keeps.rampStart
    | with_reducible apply Keeps.set
    | (fail_if_no_progress dsimp -zeta only)
    | split

theorem Keeps.wrSqCtrl {z0 s : State} {n : Nat} {w : Word} (hz : Keeps z0 s)  : Keeps z0 (Machine.wrSqCtrl n w s) := by
  unfold Machine.wrSqCtrl
  repeat' first
    | with_reducible assumption
    | with_reducible apply Keeps.ite
    | with_reducible apply Keeps.ite1
    | with_reducible apply Keeps.plainWrite
    | with_reducible apply Keeps.ret

theorem Keeps.wrFecCtrl {z0 s : State} {n : Nat} {w : Word} (hz : Keeps z0 s)  : Keeps z0 (Machine.wrFecCtrl n w s) := by
  unfold Machine.wrFecCtrl
  repeat' first
    | with_reducible assumption
    | with_reducible apply Keeps.ite
    | with_reducible apply Keeps.ite1
    | with_reducible apply Keeps.plainWrite
    | with_reducible apply Keeps.ret

theorem Keeps.frmSnap {z0 s : State} {n : Nat} (hz : Keeps z0 s)  : Keeps z0 (Machine.frmSnap n s) := by
  unfold Machine.frmSnap
  try lift_lets
  repeat' first
    | with_reducible assumption
    | (intro x; with_reducible refine Keeps.cut (o := z0) x ?_ ?_; dsimp only [x]; rotate_left; try clear_value x)
    | (intro x; try clear_value x)
    | with_reducible apply Keeps.forN
    | with_reducible apply Keeps.updFrm
    | with_reducible apply Keeps.wr
    | ((first | rw [patch_eq] | skip); (with_reducible refine Keeps.patch ?_ ?_ ?_); rotate_left; (first | exact CelKeeps.refl _ | exact ⟨fun _ h => h, Nat.le_refl _⟩ | exact ⟨fun _ h => h, Nat.le_succ _⟩); (refine fun g => ?_; first | exact g | simpa only [SizesOk, Machine.patch, upd_length] using g | (simp only [SizesOk, Machine.patch, upd_length, List.length_map, List.length_replicate, true_and] at g ⊢; tauto)))

theorem Keeps.wrCntCmd {z0 s : State} {n : Nat} {w : Word} (hz : Keeps z0 s)  : Keeps z0 (Machine.wrCntCmd n w s) := by
  unfold Machine.wrCntCmd
  repeat' first
    | with_reducible assumption
    | with_reducible apply Keeps.ite
    | with_reducible apply Keeps.ite1
    | with_reducible apply Keeps.frmSnap
    | with_reducible apply Keeps.ret

theorem Keeps.resetFrm {o s : State} (h : Keeps o s) : Keeps o (Machine.resetFrm s) := by
  unfold Machine.resetFrm
  refine Keeps.forN ?_ fun n s g => Keeps.forceOn g
  exact (h.dropRange (a := FRM_LANE_CTRL 0) (b := FRM_LANE_CTRL 8)).upd rfl rfl rfl rfl rfl (CelKeeps.refl _) rfl
    (fun g => by simpa [SizesOk, State.dropRange] using g)

theorem Keeps.releaseFrm {z0 s : State}  (hz : Keeps z0 s)  : Keeps z0 (Machine.releaseFrm s) := by
  unfold Machine.releaseFrm
  repeat' first
    | with_reducible assumption
    | (intro x; try clear_value x)
    | with_reducible apply Keeps.forN
    | with_reducible apply Keeps.forceOff

theorem Keeps.execMappingChange {s z : State} {q : Rq} {n : Fin 8} {w : Word} (e : Machine.execMappingChange q n w s = .next z) : Keeps s z := by
  have hz := Keeps.refl s
  revert e
  unfold Machine.execMappingChange
  first
    | (intro e; injection e with e; subst e; (repeat' first
         | with_reducible assumption
         | (intro x; try clear_value x)
         | with_reducible apply Keeps.gated
         | with_reducible apply Keeps.wrLaneCtrl
         ); done)

theorem Keeps.execLaneUp {s z : State} {q : Rq} {n : Fin 8} {w : Word} (e : Machine.execLaneUp q n w s = .next z) : Keeps s z := by
  have hz := Keeps.refl s
  revert e
  unfold Machine.execLaneUp
  first
    | (intro e; injection e with e; subst e; (repeat' first
         | with_reducible assumption
         | (intro x; try clear_value x)
         | with_reducible apply Keeps.gated
         | with_reducible apply Keeps.wrLaneCtrl
         ); done)

theorem Keeps.execLaneDown {s z : State} {q : Rq} {n : Fin 8} {w : Word} (e : Machine.execLaneDown q n w s = .next z) : Keeps s z := by
  have hz := Keeps.refl s
  revert e
  unfold Machine.execLaneDown
  first
    | (intro e; injection e with e; subst e; (repeat' first
         | with_reducible assumption
         | (intro x; try clear_value x)
         | with_reducible apply Keeps.gated
         | with_reducible apply Keeps.wrLaneCtrl
         ); done)

theorem Keeps.execRxFrame {s z : State} {n : Fin 8} {arr : Int} (e : Machine.execRxFrame n arr s = .next z) : Keeps s z := by
  have hz := Keeps.refl s
  revert e
  unfold Machine.execRxFrame
  first
    | (intro e; injection e with e; subst e; (repeat' first
         | with_reducible assumption
         | with_reducible apply Keeps.rxFrame
         ); done)

theorem Keeps.execPuncturePhaseAdvance {s z : State} {n : Fin 8} (e : Machine.execPuncturePhaseAdvance n s = .next z) : Keeps s z := by
  have hz := Keeps.refl s
  revert e
  unfold Machine.execPuncturePhaseAdvance
  first
    | (intro e; injection e with e; subst e; (repeat' first
         | with_reducible assumption
         | with_reducible apply Keeps.puncturePhaseAdvance
         ); done)

theorem Keeps.execRsCodewordDecode {s z : State} {n : Fin 8} {g : Fin 4} {k : Fin 4} (e : Machine.execRsCodewordDecode n g k s = .next z) : Keeps s z := by
  have hz := Keeps.refl s
  revert e
  unfold Machine.execRsCodewordDecode
  first
    | (intro e; injection e with e; subst e; (repeat' first
         | with_reducible assumption
         | with_reducible apply Keeps.rsDecode
         ); done)

theorem Keeps.execRxCell {s z : State} {n : Fin 8} (e : Machine.execRxCell n s = .next z) : Keeps s z := by
  have hz := Keeps.refl s
  revert e
  unfold Machine.execRxCell
  first
    | (intro e; injection e with e; subst e; (repeat' first
         | with_reducible assumption
         | with_reducible apply Keeps.rxCell
         ); done)

theorem Keeps.execContainerWrite {s z : State} {q : Rq} {n : Fin 8} {rx : Bool} {c : Fin 128} {w : Word} (e : Machine.execContainerWrite q n rx c w s = .next z) : Keeps s z := by
  have hz := Keeps.refl s
  revert e
  unfold Machine.execContainerWrite
  first
    | (intro e; injection e with e; subst e; (repeat' first
         | with_reducible assumption
         | (intro x; try clear_value x)
         | with_reducible apply Keeps.ite
         | with_reducible apply Keeps.ite1
         | with_reducible apply Keeps.gated
         | with_reducible apply Keeps.wrCtr
         ); done)

theorem Keeps.execTxEnable {s z : State} {q : Rq} {n : Fin 8} (e : Machine.execTxEnable q n s = .next z) : Keeps s z := by
  have hz := Keeps.refl s
  revert e
  unfold Machine.execTxEnable
  first
    | (intro e; injection e with e; subst e; (repeat' first
         | with_reducible assumption
         | (intro x; try clear_value x)
         | with_reducible apply Keeps.gated
         | with_reducible apply Keeps.txEnable
         ); done)

theorem Keeps.execTxSquelch {s z : State} {q : Rq} {n : Fin 8} (e : Machine.execTxSquelch q n s = .next z) : Keeps s z := by
  have hz := Keeps.refl s
  revert e
  unfold Machine.execTxSquelch
  first
    | (intro e; injection e with e; subst e; (repeat' first
         | with_reducible assumption
         | (intro x; try clear_value x)
         | with_reducible apply Keeps.gated
         | with_reducible apply Keeps.txSquelch
         ); done)

theorem Keeps.execSquelchStep {s z : State} {n : Fin 8} (e : Machine.execSquelchStep n s = .next z) : Keeps s z := by
  have hz := Keeps.refl s
  revert e
  unfold Machine.execSquelchStep
  first
    | (intro e; injection e with e; subst e; (repeat' first
         | with_reducible assumption
         | with_reducible apply Keeps.squelchStep
         ); done)

theorem Keeps.execFecWindowEnd {s z : State} {n : Fin 8} (e : Machine.execFecWindowEnd n s = .next z) : Keeps s z := by
  have hz := Keeps.refl s
  revert e
  unfold Machine.execFecWindowEnd
  first
    | (intro e; injection e with e; subst e; (repeat' first
         | with_reducible assumption
         | with_reducible apply Keeps.fecWindowEnd
         ); done)

theorem Keeps.execFrmCounterSnap {s z : State} {q : Rq} {n : Fin 8} (e : Machine.execFrmCounterSnap q n s = .next z) : Keeps s z := by
  have hz := Keeps.refl s
  revert e
  unfold Machine.execFrmCounterSnap
  first
    | (intro e; injection e with e; subst e; (repeat' first
         | with_reducible assumption
         | (intro x; try clear_value x)
         | with_reducible apply Keeps.gated
         | with_reducible apply Keeps.wrCntCmd
         ); done)

end Sys2Proof.Machine
end

