-- ==== Sys2Proof/Laws/KeepSnk.lean ====
section
/-! SUPPORT. What the operations of Snk.lean keep. -/

set_option linter.all false

namespace Sys2Proof.Machine

theorem Keeps.updSnk {z0 s : State} {f : Snk → Snk} (hz : Keeps z0 s)  : Keeps z0 (Machine.updSnk f s) := by
  unfold Machine.updSnk
  exact Keeps.upd hz rfl rfl rfl rfl rfl (CelKeeps.refl _) rfl (fun g => by simp_all [SizesOk])

theorem Keeps.updLink {z0 s : State} {l : Nat} {f : SnkLink → SnkLink} (hz : Keeps z0 s)  : Keeps z0 (Machine.updLink l f s) := by
  unfold Machine.updLink
  repeat' first
    | with_reducible assumption
    | with_reducible apply Keeps.updSnk
    | ((first | rw [patch_eq] | skip); (with_reducible refine Keeps.patch ?_ ?_ ?_); rotate_left; (first | exact CelKeeps.refl _ | exact ⟨fun _ h => h, Nat.le_refl _⟩ | exact ⟨fun _ h => h, Nat.le_succ _⟩); (refine fun g => ?_; first | exact g | simpa only [SizesOk, Machine.patch, upd_length] using g | (simp only [SizesOk, Machine.patch, upd_length, List.length_map, List.length_replicate, true_and] at g ⊢; tauto)))

theorem Keeps.linkTake {z0 s : State} {l : Nat} (hz : Keeps z0 s)  : Keeps z0 (Machine.linkTake l s) := by
  unfold Machine.linkTake
  repeat' first
    | with_reducible assumption
    | (intro x; with_reducible refine Keeps.cut (o := z0) x ?_ ?_; dsimp only [x]; rotate_left; try clear_value x)
    | (intro x; with_reducible refine Keeps.cut1 (o := z0) x ?_ ?_; dsimp only [x]; rotate_left; try clear_value x)
    | (intro x; with_reducible refine Keeps.cutF x ?_; try dsimp only [x])
    | (intro x; try clear_value x)
    | with_reducible apply Keeps.ite
    | with_reducible apply Keeps.ite1
    | with_reducible apply Keeps.updLink
    | ((first | rw [patch_eq] | skip); (with_reducible refine Keeps.patch ?_ ?_ ?_); rotate_left; (first | exact CelKeeps.refl _ | exact ⟨fun _ h => h, Nat.le_refl _⟩ | exact ⟨fun _ h => h, Nat.le_succ _⟩); (refine fun g => ?_; first | exact g | simpa only [SizesOk, Machine.patch, upd_length] using g | (simp only [SizesOk, Machine.patch, upd_length, List.length_map, List.length_replicate, true_and] at g ⊢; tauto)))
    | (fail_if_no_progress dsimp -zeta only)
    | split
    | lift_lets

theorem Keeps.linkStart {z0 s : State} {l : Nat} (hz : Keeps z0 s)  : Keeps z0 (Machine.linkStart l s) := by
  unfold Machine.linkStart
  repeat' first
    | with_reducible assumption
    | (intro x; with_reducible refine Keeps.cut (o := z0) x ?_ ?_; dsimp only [x]; rotate_left; try clear_value x)
    | (intro x; with_reducible refine Keeps.cut1 (o := z0) x ?_ ?_; dsimp only [x]; rotate_left; try clear_value x)
    | (intro x; with_reducible refine Keeps.cutF x ?_; try dsimp only [x])
    | (intro x; try clear_value x)
    | with_reducible apply Keeps.ite
    | with_reducible apply Keeps.ite1
    | with_reducible apply Keeps.linkTake
    | (fail_if_no_progress dsimp -zeta only)
    | split

theorem Keeps.rraEnd {z0 s : State} {c : Code} (hz : Keeps z0 s)  : Keeps z0 (Machine.rraEnd c s) := by
  unfold Machine.rraEnd
  try lift_lets
  repeat' first
    | with_reducible assumption
    | (intro x; with_reducible refine Keeps.cut (o := z0) x ?_ ?_; dsimp only [x]; rotate_left; try clear_value x)
    | (intro x; try clear_value x)
    | with_reducible apply Keeps.snkEvt
    | with_reducible apply Keeps.updSnk
    | with_reducible apply Keeps.set
    | ((first | rw [patch_eq] | skip); (with_reducible refine Keeps.patch ?_ ?_ ?_); rotate_left; (first | exact CelKeeps.refl _ | exact ⟨fun _ h => h, Nat.le_refl _⟩ | exact ⟨fun _ h => h, Nat.le_succ _⟩); (refine fun g => ?_; first | exact g | simpa only [SizesOk, Machine.patch, upd_length] using g | (simp only [SizesOk, Machine.patch, upd_length, List.length_map, List.length_replicate, true_and] at g ⊢; tauto)))

theorem Keeps.slotEnd {z0 s : State} {t : Nat} {c : Code} {reason : Nat} (hz : Keeps z0 s)  : Keeps z0 (Machine.slotEnd t c reason s) := by
  unfold Machine.slotEnd
  repeat' first
    | with_reducible assumption
    | with_reducible apply Keeps.set

theorem Keeps.countDrop {z0 s : State} {cls : Nat} (hz : Keeps z0 s)  : Keeps z0 (Machine.countDrop cls s) := by
  unfold Machine.countDrop
  repeat' first
    | with_reducible assumption
    | with_reducible apply Keeps.flagLimited
    | with_reducible apply Keeps.addSat

theorem Keeps.entDrop {z0 s : State} {e : QEnt} (hz : Keeps z0 s)  : Keeps z0 (Machine.entDrop e s) := by
  unfold Machine.entDrop
  repeat' first
    | with_reducible assumption
    | with_reducible apply Keeps.ite
    | with_reducible apply Keeps.ite1
    | with_reducible apply Keeps.updSnk
    | with_reducible apply Keeps.rraEnd
    | with_reducible apply Keeps.slotEnd
    | with_reducible apply Keeps.countDrop
    | (fail_if_no_progress dsimp -zeta only)
    | split

theorem Keeps.makeRoom {o s : State} {l need cls n : Nat} (h : Keeps o s) : Keeps o (Machine.makeRoom l need cls n s) := by
  induction n generalizing s with
  | zero => exact h
  | succ n ih =>
    unfold Machine.makeRoom
    refine Keeps.ite h ?_
    dsimp only
    split
    · exact h
    · exact ih (Keeps.entDrop (Keeps.updLink h))

theorem Keeps.enqueue {z0 s : State} {l : Nat} {e : QEnt} (hz : Keeps z0 s)  : Keeps z0 (Machine.enqueue l e s).1 := by
  unfold Machine.enqueue
  try lift_lets
  repeat' first
    | with_reducible assumption
    | (intro x; with_reducible refine Keeps.cut (o := z0) x ?_ ?_; dsimp only [x]; rotate_left; try clear_value x)
    | (intro x; try clear_value x)
    | with_reducible apply Keeps.ite
    | with_reducible apply Keeps.ite1
    | with_reducible apply Keeps.updLink
    | with_reducible apply Keeps.linkStart
    | with_reducible apply Keeps.countDrop
    | with_reducible apply Keeps.makeRoom
    | ((first | rw [patch_eq] | skip); (with_reducible refine Keeps.patch ?_ ?_ ?_); rotate_left; (first | exact CelKeeps.refl _ | exact ⟨fun _ h => h, Nat.le_refl _⟩ | exact ⟨fun _ h => h, Nat.le_succ _⟩); (refine fun g => ?_; first | exact g | simpa only [SizesOk, Machine.patch, upd_length] using g | (simp only [SizesOk, Machine.patch, upd_length, List.length_map, List.length_replicate, true_and] at g ⊢; tauto)))

theorem Keeps.push {z0 s : State} {l : Nat} {c : List Byte} (hz : Keeps z0 s)  : Keeps z0 (Machine.push l c s) := by
  unfold Machine.push
  repeat' first
    | with_reducible assumption
    | with_reducible apply Keeps.enqueue

theorem Keeps.originate {z0 s : State} {c : List Byte} (hz : Keeps z0 s)  : Keeps z0 (Machine.originate c s).1 := by
  unfold Machine.originate
  try lift_lets
  repeat' first
    | with_reducible assumption
    | (intro x; try clear_value x)
    | with_reducible apply Keeps.ite
    | with_reducible apply Keeps.ite1
    | with_reducible apply Keeps.updSnk
    | ((first | rw [patch_eq] | skip); (with_reducible refine Keeps.patch ?_ ?_ ?_); rotate_left; (first | exact CelKeeps.refl _ | exact ⟨fun _ h => h, Nat.le_refl _⟩ | exact ⟨fun _ h => h, Nat.le_succ _⟩); (refine fun g => ?_; first | exact g | simpa only [SizesOk, Machine.patch, upd_length] using g | (simp only [SizesOk, Machine.patch, upd_length, List.length_map, List.length_replicate, true_and] at g ⊢; tauto)))

theorem Keeps.linkSent {z0 s : State} {l : Nat} (hz : Keeps z0 s)  : Keeps z0 (Machine.linkSent l s) := by
  unfold Machine.linkSent
  repeat' first
    | with_reducible assumption
    | (intro x; with_reducible refine Keeps.cut (o := z0) x ?_ ?_; dsimp only [x]; rotate_left; try clear_value x)
    | (intro x; with_reducible refine Keeps.cut1 (o := z0) x ?_ ?_; dsimp only [x]; rotate_left; try clear_value x)
    | (intro x; with_reducible refine Keeps.cut2 (o := z0) x ?_ ?_; dsimp only [x]; rotate_left; try clear_value x)
    | with_reducible apply Keeps.ite2
    | (intro x; with_reducible refine Keeps.cutF x ?_; try dsimp only [x])
    | (intro x; try clear_value x)
    | with_reducible apply Keeps.ite
    | with_reducible apply Keeps.ite1
    | with_reducible apply Keeps.updSnk
    | with_reducible apply Keeps.updLink
    | with_reducible apply Keeps.linkStart
    | with_reducible apply Keeps.slotEnd
    | ((first | rw [patch_eq] | skip); (with_reducible refine Keeps.patch ?_ ?_ ?_); rotate_left; (first | exact CelKeeps.refl _ | exact ⟨fun _ h => h, Nat.le_refl _⟩ | exact ⟨fun _ h => h, Nat.le_succ _⟩); (refine fun g => ?_; first | exact g | simpa only [SizesOk, Machine.patch, upd_length] using g | (simp only [SizesOk, Machine.patch, upd_length, List.length_map, List.length_replicate, true_and] at g ⊢; tauto)))
    | (fail_if_no_progress dsimp -zeta only)
    | split
    | lift_lets

theorem Keeps.crateBlock {z0 s : State} {n : Nat} (hz : Keeps z0 s)  : Keeps z0 (Machine.crateBlock n s).1 := by
  unfold Machine.crateBlock
  repeat' first
    | with_reducible assumption
    | (intro x; with_reducible refine Keeps.cut (o := z0) x ?_ ?_; dsimp only [x]; rotate_left; try clear_value x)
    | (intro x; with_reducible refine Keeps.cut1 (o := z0) x ?_ ?_; dsimp only [x]; rotate_left; try clear_value x)
    | (intro x; with_reducible refine Keeps.cutF x ?_; try dsimp only [x])
    | (intro x; try clear_value x)
    | with_reducible apply Keeps.ite
    | with_reducible apply Keeps.ite1
    | with_reducible apply Keeps.updLink
    | with_reducible apply Keeps.linkTake
    | ((first | rw [patch_eq] | skip); (with_reducible refine Keeps.patch ?_ ?_ ?_); rotate_left; (first | exact CelKeeps.refl _ | exact ⟨fun _ h => h, Nat.le_refl _⟩ | exact ⟨fun _ h => h, Nat.le_succ _⟩); (refine fun g => ?_; first | exact g | simpa only [SizesOk, Machine.patch, upd_length] using g | (simp only [SizesOk, Machine.patch, upd_length, List.length_map, List.length_replicate, true_and] at g ⊢; tauto)))
    | (fail_if_no_progress dsimp -zeta only)
    | split
    | lift_lets

theorem Keeps.hostTake {z0 s : State} {n more : Nat} (hz : Keeps z0 s) : Keeps z0 (Machine.hostTake n more s).2 := by
  unfold Machine.hostTake
  split
  · split
    · exact Keeps.upd hz rfl rfl rfl rfl rfl (CelKeeps.refl _) rfl (fun g => by simpa only [SizesOk, upd_length] using g)
    · exact hz
  · exact hz

theorem Keeps.txFrameStart {z0 s : State} {host : List Nat} (hz : Keeps z0 s)  : Keeps z0 (Machine.txFrameStart host s) := by
  unfold Machine.txFrameStart
  try lift_lets
  repeat' first
    | with_reducible assumption
    | with_reducible apply Keeps.hostTake
    | (intro x; with_reducible refine Keeps.cut (o := z0) x ?_ ?_; dsimp only [x]; rotate_left; try clear_value x)
    | with_reducible apply Keeps.ite2
    | (intro x; try clear_value x)
    | with_reducible apply Keeps.ite
    | with_reducible apply Keeps.ite1
    | with_reducible apply Keeps.forN
    | with_reducible apply Keeps.laneFrame
    | with_reducible apply Keeps.crateBlock
    | ((first | rw [patch_eq] | skip); (with_reducible refine Keeps.patch ?_ ?_ ?_); rotate_left; (first | exact CelKeeps.refl _ | exact ⟨fun _ h => h, Nat.le_refl _⟩ | exact ⟨fun _ h => h, Nat.le_succ _⟩); (refine fun g => ?_; first | exact g | simpa only [SizesOk, Machine.patch, upd_length] using g | (simp only [SizesOk, Machine.patch, upd_length, List.length_map, List.length_replicate, true_and] at g ⊢; tauto)))

theorem Keeps.sendHello {z0 s : State} {l : Nat} (hz : Keeps z0 s)  : Keeps z0 (Machine.sendHello l s) := by
  unfold Machine.sendHello
  try lift_lets
  repeat' first
    | with_reducible assumption
    | (intro x; with_reducible refine Keeps.cut1 (o := z0) x ?_ ?_; dsimp only [x]; rotate_left; try clear_value x)
    | with_reducible apply Keeps.ite2
    | (intro x; try clear_value x)
    | with_reducible apply Keeps.ite
    | with_reducible apply Keeps.ite1
    | with_reducible apply Keeps.foldl
    | with_reducible apply Keeps.foldl1
    | with_reducible apply Keeps.push
    | with_reducible apply Keeps.originate

theorem Keeps.sendHellos {z0 s : State}  (hz : Keeps z0 s)  : Keeps z0 (Machine.sendHellos s) := by
  unfold Machine.sendHellos
  repeat' first
    | with_reducible assumption
    | (intro x; try clear_value x)
    | with_reducible apply Keeps.forN
    | with_reducible apply Keeps.sendHello

theorem Keeps.setLink {z0 s : State} {l : Nat} {t : Nat} (hz : Keeps z0 s)  : Keeps z0 (Machine.setLink l t s) := by
  unfold Machine.setLink
  repeat' first
    | with_reducible assumption
    | with_reducible apply Keeps.ite
    | with_reducible apply Keeps.ite1
    | with_reducible apply Keeps.snkEvt
    | with_reducible apply Keeps.linkDown
    | with_reducible apply Keeps.sendHello
    | with_reducible apply Keeps.set

theorem Keeps.nextCandidate {z0 s : State}  (hz : Keeps z0 s)  : Keeps z0 (Machine.nextCandidate s) := by
  unfold Machine.nextCandidate
  try lift_lets
  repeat' first
    | with_reducible assumption
    | (intro x; try clear_value x)
    | with_reducible apply Keeps.snkEvt
    | with_reducible apply Keeps.sendHellos
    | with_reducible apply Keeps.set

theorem Keeps.collide {z0 s : State} {c : List Byte} (hz : Keeps z0 s)  : Keeps z0 (Machine.collide c s) := by
  unfold Machine.collide
  try lift_lets
  repeat' first
    | with_reducible assumption
    | (intro x; try clear_value x)
    | with_reducible apply Keeps.ite
    | with_reducible apply Keeps.ite1
    | with_reducible apply Keeps.snkEvt
    | with_reducible apply Keeps.nextCandidate
    | with_reducible apply Keeps.set

theorem Keeps.helloIn {z0 s : State} {l : Nat} {c : List Byte} (hz : Keeps z0 s)  : Keeps z0 (Machine.helloIn l c s) := by
  unfold Machine.helloIn
  try lift_lets
  repeat' first
    | with_reducible assumption
    | (intro x; with_reducible refine Keeps.cut (o := z0) x ?_ ?_; dsimp only [x]; rotate_left; try clear_value x)
    | (intro x; try clear_value x)
    | with_reducible apply Keeps.ite
    | with_reducible apply Keeps.ite1
    | with_reducible apply Keeps.updLink
    | with_reducible apply Keeps.setLink
    | with_reducible apply Keeps.collide
    | with_reducible apply Keeps.set
    | ((first | rw [patch_eq] | skip); (with_reducible refine Keeps.patch ?_ ?_ ?_); rotate_left; (first | exact CelKeeps.refl _ | exact ⟨fun _ h => h, Nat.le_refl _⟩ | exact ⟨fun _ h => h, Nat.le_succ _⟩); (refine fun g => ?_; first | exact g | simpa only [SizesOk, Machine.patch, upd_length] using g | (simp only [SizesOk, Machine.patch, upd_length, List.length_map, List.length_replicate, true_and] at g ⊢; tauto)))

theorem Keeps.wrSnkAddr {z0 s : State} {w : Word} (hz : Keeps z0 s)  : Keeps z0 (Machine.wrSnkAddr w s) := by
  unfold Machine.wrSnkAddr
  try lift_lets
  repeat' first
    | with_reducible assumption
    | (intro x; with_reducible refine Keeps.cut (o := z0) x ?_ ?_; dsimp only [x]; rotate_left; try clear_value x)
    | (intro x; try clear_value x)
    | with_reducible apply Keeps.ite
    | with_reducible apply Keeps.ite1
    | with_reducible apply Keeps.sendHellos
    | with_reducible apply Keeps.set
    | with_reducible apply Keeps.ret

theorem Keeps.ringIn {z0 s : State} {l : Nat} {c : List Byte} {age : Nat} (hz : Keeps z0 s)  : Keeps z0 (Machine.ringIn l c age s) := by
  unfold Machine.ringIn
  try lift_lets
  repeat' first
    | with_reducible assumption
    | (intro x; with_reducible refine Keeps.cut (o := z0) x ?_ ?_; dsimp only [x]; rotate_left; try clear_value x)
    | (intro x; with_reducible refine Keeps.cut1 (o := z0) x ?_ ?_; dsimp only [x]; rotate_left; try clear_value x)
    | (intro x; with_reducible refine Keeps.cutF x ?_; try dsimp only [x])
    | (intro x; try clear_value x)
    | with_reducible apply Keeps.ite
    | with_reducible apply Keeps.ite1
    | with_reducible apply Keeps.snkEvt
    | with_reducible apply Keeps.sramPut
    | with_reducible apply Keeps.set
    | with_reducible apply Keeps.addSat
    | (fail_if_no_progress dsimp -zeta only)
    | split

theorem Keeps.rreplyIn {z0 s : State} {c : List Byte} (hz : Keeps z0 s)  : Keeps z0 (Machine.rreplyIn c s) := by
  unfold Machine.rreplyIn
  repeat' first
    | with_reducible assumption
    | (intro x; try clear_value x)
    | with_reducible apply Keeps.ite
    | with_reducible apply Keeps.ite1
    | with_reducible apply Keeps.forN
    | with_reducible apply Keeps.rraEnd
    | with_reducible apply Keeps.wr
    | with_reducible apply Keeps.set
    | with_reducible apply Keeps.addSat
    | (fail_if_no_progress dsimp -zeta only)
    | split

theorem Keeps.routeTo {z0 s : State} {c : List Byte} {own : Option Nat} (hz : Keeps z0 s)  : Keeps z0 (Machine.routeTo c own s).1 := by
  unfold Machine.routeTo
  try lift_lets
  repeat' first
    | with_reducible assumption
    | (intro x; with_reducible refine Keeps.cut1 (o := z0) x ?_ ?_; dsimp only [x]; rotate_left; try clear_value x)
    | with_reducible apply Keeps.ite2
    | (intro x; try clear_value x)
    | with_reducible apply Keeps.ite
    | with_reducible apply Keeps.ite1
    | with_reducible apply Keeps.enqueue

theorem Keeps.issue {z0 s : State} {c : List Byte} (hz : Keeps z0 s)  : Keeps z0 (Machine.issue c s) := by
  unfold Machine.issue
  repeat' first
    | with_reducible assumption
    | with_reducible apply Keeps.routeTo

theorem Keeps.requestIn {z0 s : State} {c : List Byte} (hz : Keeps z0 s)  : Keeps z0 (Machine.requestIn c s) := by
  unfold Machine.requestIn
  repeat' first
    | with_reducible assumption
    | with_reducible apply Keeps.ite
    | with_reducible apply Keeps.ite1
    | with_reducible apply Keeps.updSnk
    | with_reducible apply Keeps.issue
    | ((first | rw [patch_eq] | skip); (with_reducible refine Keeps.patch ?_ ?_ ?_); rotate_left; (first | exact CelKeeps.refl _ | exact ⟨fun _ h => h, Nat.le_refl _⟩ | exact ⟨fun _ h => h, Nat.le_succ _⟩); (refine fun g => ?_; first | exact g | simpa only [SizesOk, Machine.patch, upd_length] using g | (simp only [SizesOk, Machine.patch, upd_length, List.length_map, List.length_replicate, true_and] at g ⊢; tauto)))

theorem Keeps.takeOver {z0 s : State}  (hz : Keeps z0 s)  : Keeps z0 (Machine.takeOver s) := by
  unfold Machine.takeOver
  try lift_lets
  repeat' first
    | with_reducible assumption
    | (intro x; with_reducible refine Keeps.cut (o := z0) x ?_ ?_; dsimp only [x]; rotate_left; try clear_value x)
    | (intro x; try clear_value x)
    | with_reducible apply Keeps.ite
    | with_reducible apply Keeps.ite1
    | with_reducible apply Keeps.snkEvt
    | with_reducible apply Keeps.setRole
    | with_reducible apply Keeps.updSnk
    | with_reducible apply Keeps.set
    | with_reducible apply Keeps.incMod
    | ((first | rw [patch_eq] | skip); (with_reducible refine Keeps.patch ?_ ?_ ?_); rotate_left; (first | exact CelKeeps.refl _ | exact ⟨fun _ h => h, Nat.le_refl _⟩ | exact ⟨fun _ h => h, Nat.le_succ _⟩); (refine fun g => ?_; first | exact g | simpa only [SizesOk, Machine.patch, upd_length] using g | (simp only [SizesOk, Machine.patch, upd_length, List.length_map, List.length_replicate, true_and] at g ⊢; tauto)))

theorem Keeps.idCompare {z0 s : State} {l : Nat} {low : Bool} (hz : Keeps z0 s)  : Keeps z0 (Machine.idCompare l low s).1 := by
  unfold Machine.idCompare
  repeat' first
    | with_reducible assumption
    | with_reducible apply Keeps.ite
    | with_reducible apply Keeps.ite1
    | with_reducible apply Keeps.freeNext
    | with_reducible apply Keeps.idS
    | (fail_if_no_progress dsimp -zeta only)
    | split

theorem Keeps.pairStep {z0 s : State} {l : Nat} {pRole : Nat} {pPref : Nat} {fault : Bool} {yield : Bool} (hz : Keeps z0 s)  : Keeps z0 (Machine.pairStep l pRole pPref fault yield s) := by
  unfold Machine.pairStep
  repeat' first
    | with_reducible assumption
    | with_reducible apply Keeps.ite2
    | with_reducible apply Keeps.ite
    | with_reducible apply Keeps.ite1
    | with_reducible apply Keeps.setRole
    | with_reducible apply Keeps.pairFaultEval
    | with_reducible apply Keeps.updSnk
    | with_reducible apply Keeps.takeOver
    | with_reducible apply Keeps.idCompare
    | with_reducible apply Keeps.set
    | (fail_if_no_progress dsimp -zeta only)
    | split

theorem Keeps.heartbeatIn {z0 s : State} {l : Nat} {c : List Byte} (hz : Keeps z0 s)  : Keeps z0 (Machine.heartbeatIn l c s) := by
  unfold Machine.heartbeatIn
  try lift_lets
  repeat' first
    | with_reducible assumption
    | (intro x; with_reducible refine Keeps.cut (o := z0) x ?_ ?_; dsimp only [x]; rotate_left; try clear_value x)
    | (intro x; try clear_value x)
    | with_reducible apply Keeps.ite
    | with_reducible apply Keeps.ite1
    | with_reducible apply Keeps.pairStep
    | with_reducible apply Keeps.set

theorem Keeps.heartbeatOut {z0 s : State}  (hz : Keeps z0 s)  : Keeps z0 (Machine.heartbeatOut s) := by
  unfold Machine.heartbeatOut
  try lift_lets
  repeat' first
    | with_reducible assumption
    | (intro x; with_reducible refine Keeps.cut (o := z0) x ?_ ?_; dsimp only [x]; rotate_left; try clear_value x)
    | with_reducible apply Keeps.ite2
    | (intro x; with_reducible refine Keeps.cutF x ?_; try dsimp only [x])
    | (intro x; try clear_value x)
    | with_reducible apply Keeps.ite
    | with_reducible apply Keeps.ite1
    | with_reducible apply Keeps.updSnk
    | with_reducible apply Keeps.push
    | with_reducible apply Keeps.originate
    | ((first | rw [patch_eq] | skip); (with_reducible refine Keeps.patch ?_ ?_ ?_); rotate_left; (first | exact CelKeeps.refl _ | exact ⟨fun _ h => h, Nat.le_refl _⟩ | exact ⟨fun _ h => h, Nat.le_succ _⟩); (refine fun g => ?_; first | exact g | simpa only [SizesOk, Machine.patch, upd_length] using g | (simp only [SizesOk, Machine.patch, upd_length, List.length_map, List.length_replicate, true_and] at g ⊢; tauto)))

theorem Keeps.partnerLost {z0 s : State}  (hz : Keeps z0 s)  : Keeps z0 (Machine.partnerLost s) := by
  unfold Machine.partnerLost
  try lift_lets
  repeat' first
    | with_reducible assumption
    | (intro x; with_reducible refine Keeps.cut (o := z0) x ?_ ?_; dsimp only [x]; rotate_left; try clear_value x)
    | (intro x; try clear_value x)
    | with_reducible apply Keeps.ite
    | with_reducible apply Keeps.ite1
    | with_reducible apply Keeps.takeOver
    | with_reducible apply Keeps.set

theorem Keeps.pathLoss {z0 s : State} {lane : Bool} (hz : Keeps z0 s)  : Keeps z0 (Machine.pathLoss lane s) := by
  unfold Machine.pathLoss
  try lift_lets
  repeat' first
    | with_reducible assumption
    | (intro x; try clear_value x)
    | with_reducible apply Keeps.ite
    | with_reducible apply Keeps.ite1
    | with_reducible apply Keeps.snkEvt
    | with_reducible apply Keeps.set

theorem Keeps.yieldTimeout {z0 s : State}  (hz : Keeps z0 s)  : Keeps z0 (Machine.yieldTimeout s) := by
  unfold Machine.yieldTimeout
  try lift_lets
  repeat' first
    | with_reducible assumption
    | (intro x; with_reducible refine Keeps.cut (o := z0) x ?_ ?_; dsimp only [x]; rotate_left; try clear_value x)
    | (intro x; try clear_value x)
    | with_reducible apply Keeps.ite
    | with_reducible apply Keeps.ite1
    | with_reducible apply Keeps.setRole
    | with_reducible apply Keeps.updSnk
    | with_reducible apply Keeps.set
    | ((first | rw [patch_eq] | skip); (with_reducible refine Keeps.patch ?_ ?_ ?_); rotate_left; (first | exact CelKeeps.refl _ | exact ⟨fun _ h => h, Nat.le_refl _⟩ | exact ⟨fun _ h => h, Nat.le_succ _⟩); (refine fun g => ?_; first | exact g | simpa only [SizesOk, Machine.patch, upd_length] using g | (simp only [SizesOk, Machine.patch, upd_length, List.length_map, List.length_replicate, true_and] at g ⊢; tauto)))

theorem Keeps.soloTimeout {z0 s : State}  (hz : Keeps z0 s)  : Keeps z0 (Machine.soloTimeout s) := by
  unfold Machine.soloTimeout
  repeat' first
    | with_reducible assumption
    | with_reducible apply Keeps.ite
    | with_reducible apply Keeps.ite1
    | with_reducible apply Keeps.setRole

theorem Keeps.wrPairCmd {z0 s : State} {w : Word} (hz : Keeps z0 s)  : Keeps z0 (Machine.wrPairCmd w s) := by
  unfold Machine.wrPairCmd
  try lift_lets
  repeat' first
    | with_reducible assumption
    | (intro x; with_reducible refine Keeps.cutF x ?_; try dsimp only [x])
    | with_reducible apply Keeps.ite
    | with_reducible apply Keeps.ite1
    | with_reducible apply Keeps.pairYield
    | with_reducible apply Keeps.set
    | with_reducible apply Keeps.store
    | with_reducible apply Keeps.ret

theorem Keeps.wrPairCtrl {z0 s : State} {w : Word} (hz : Keeps z0 s)  : Keeps z0 (Machine.wrPairCtrl w s) := by
  unfold Machine.wrPairCtrl
  try lift_lets
  repeat' first
    | with_reducible assumption
    | (intro x; with_reducible refine Keeps.cut (o := z0) x ?_ ?_; dsimp only [x]; rotate_left; try clear_value x)
    | (intro x; try clear_value x)
    | with_reducible apply Keeps.ite
    | with_reducible apply Keeps.ite1
    | with_reducible apply Keeps.setRole
    | with_reducible apply Keeps.set
    | with_reducible apply Keeps.store
    | with_reducible apply Keeps.ret

theorem Keeps.deliver {z0 s : State} {l : Nat} {c : List Byte} {age : Nat} (hz : Keeps z0 s)  : Keeps z0 (Machine.deliver l c age s) := by
  unfold Machine.deliver
  repeat' first
    | with_reducible assumption
    | (intro x; with_reducible refine Keeps.cut (o := z0) x ?_ ?_; dsimp only [x]; rotate_left; try clear_value x)
    | (intro x; with_reducible refine Keeps.cut1 (o := z0) x ?_ ?_; dsimp only [x]; rotate_left; try clear_value x)
    | (intro x; with_reducible refine Keeps.cutF x ?_; try dsimp only [x])
    | (intro x; try clear_value x)
    | with_reducible apply Keeps.ringIn
    | with_reducible apply Keeps.rreplyIn
    | with_reducible apply Keeps.requestIn
    | ((first | rw [patch_eq] | skip); (with_reducible refine Keeps.patch ?_ ?_ ?_); rotate_left; (first | exact CelKeeps.refl _ | exact ⟨fun _ h => h, Nat.le_refl _⟩ | exact ⟨fun _ h => h, Nat.le_succ _⟩); (refine fun g => ?_; first | exact g | simpa only [SizesOk, Machine.patch, upd_length] using g | (simp only [SizesOk, Machine.patch, upd_length, List.length_map, List.length_replicate, true_and] at g ⊢; tauto)))
    | (fail_if_no_progress dsimp -zeta only)
    | split

theorem Keeps.floodIn {z0 s : State} {l : Nat} {c : List Byte} {age : Nat} (hz : Keeps z0 s)  : Keeps z0 (Machine.floodIn l c age s) := by
  unfold Machine.floodIn
  try lift_lets
  repeat' first
    | with_reducible assumption
    | (intro x; with_reducible refine Keeps.cut (o := z0) x ?_ ?_; dsimp only [x]; rotate_left; try clear_value x)
    | (intro x; with_reducible refine Keeps.cut1 (o := z0) x ?_ ?_; dsimp only [x]; rotate_left; try clear_value x)
    | (intro x; with_reducible refine Keeps.cutF x ?_; try dsimp only [x])
    | (intro x; try clear_value x)
    | with_reducible apply Keeps.ite
    | with_reducible apply Keeps.ite1
    | with_reducible apply Keeps.forN
    | with_reducible apply Keeps.updSnk
    | with_reducible apply Keeps.push
    | with_reducible apply Keeps.deliver
    | ((first | rw [patch_eq] | skip); (with_reducible refine Keeps.patch ?_ ?_ ?_); rotate_left; (first | exact CelKeeps.refl _ | exact ⟨fun _ h => h, Nat.le_refl _⟩ | exact ⟨fun _ h => h, Nat.le_succ _⟩); (refine fun g => ?_; first | exact g | simpa only [SizesOk, Machine.patch, upd_length] using g | (simp only [SizesOk, Machine.patch, upd_length, List.length_map, List.length_replicate, true_and] at g ⊢; tauto)))
    | (fail_if_no_progress dsimp -zeta only)
    | split

theorem Keeps.unicastIn {z0 s : State} {l : Nat} {c : List Byte} {age : Nat} (hz : Keeps z0 s)  : Keeps z0 (Machine.unicastIn l c age s) := by
  unfold Machine.unicastIn
  try lift_lets
  repeat' first
    | with_reducible assumption
    | (intro x; with_reducible refine Keeps.cut (o := z0) x ?_ ?_; dsimp only [x]; rotate_left; try clear_value x)
    | (intro x; with_reducible refine Keeps.cut1 (o := z0) x ?_ ?_; dsimp only [x]; rotate_left; try clear_value x)
    | (intro x; with_reducible refine Keeps.cut2 (o := z0) x ?_ ?_; dsimp only [x]; rotate_left; try clear_value x)
    | with_reducible apply Keeps.ite2
    | (intro x; with_reducible refine Keeps.cutF x ?_; try dsimp only [x])
    | (intro x; try clear_value x)
    | with_reducible apply Keeps.ite
    | with_reducible apply Keeps.ite1
    | with_reducible apply Keeps.routeTo
    | with_reducible apply Keeps.deliver
    | with_reducible apply Keeps.addSat
    | (fail_if_no_progress dsimp -zeta only)
    | split

theorem Keeps.crateIn {z0 s : State} {l : Nat} {all : List Byte} {age : Nat} (hz : Keeps z0 s)  : Keeps z0 (Machine.crateIn l all age s) := by
  unfold Machine.crateIn
  repeat' first
    | with_reducible assumption
    | (intro x; with_reducible refine Keeps.cut (o := z0) x ?_ ?_; dsimp only [x]; rotate_left; try clear_value x)
    | (intro x; with_reducible refine Keeps.cut1 (o := z0) x ?_ ?_; dsimp only [x]; rotate_left; try clear_value x)
    | (intro x; with_reducible refine Keeps.cutF x ?_; try dsimp only [x])
    | (intro x; try clear_value x)
    | with_reducible apply Keeps.ite
    | with_reducible apply Keeps.ite1
    | with_reducible apply Keeps.collide
    | with_reducible apply Keeps.helloIn
    | with_reducible apply Keeps.heartbeatIn
    | with_reducible apply Keeps.floodIn
    | with_reducible apply Keeps.unicastIn
    | with_reducible apply Keeps.addSat
    | ((first | rw [patch_eq] | skip); (with_reducible refine Keeps.patch ?_ ?_ ?_); rotate_left; (first | exact CelKeeps.refl _ | exact ⟨fun _ h => h, Nat.le_refl _⟩ | exact ⟨fun _ h => h, Nat.le_succ _⟩); (refine fun g => ?_; first | exact g | simpa only [SizesOk, Machine.patch, upd_length] using g | (simp only [SizesOk, Machine.patch, upd_length, List.length_map, List.length_replicate, true_and] at g ⊢; tauto)))
    | (fail_if_no_progress dsimp -zeta only)
    | split
    | lift_lets

theorem Keeps.slotNow {z0 s : State} {t : Nat} {c : Code} (hz : Keeps z0 s)  : Keeps z0 (Machine.slotNow t c s) := by
  unfold Machine.slotNow
  repeat' first
    | with_reducible assumption
    | with_reducible apply Keeps.slotEnd
    | with_reducible apply Keeps.ret

theorem Keeps.floodOut {z0 s : State} {c : List Byte} {own : Option Nat} (hz : Keeps z0 s)  : Keeps z0 (Machine.floodOut c own s).1 := by
  unfold Machine.floodOut
  try lift_lets
  repeat' first
    | with_reducible assumption
    | (intro x; with_reducible refine Keeps.cut1 (o := z0) x ?_ ?_; dsimp only [x]; rotate_left; try clear_value x)
    | with_reducible apply Keeps.ite2
    | (intro x; try clear_value x)
    | with_reducible apply Keeps.ite
    | with_reducible apply Keeps.ite1
    | with_reducible apply Keeps.foldl
    | with_reducible apply Keeps.foldl1
    | with_reducible apply Keeps.enqueue

theorem Keeps.sameSeq {z0 s : State} {t : State} (hz : Keeps z0 t)  : Keeps z0 (Machine.sameSeq s t) := by
  unfold Machine.sameSeq
  repeat' first
    | with_reducible assumption
    | with_reducible apply Keeps.updSnk
    | ((first | rw [patch_eq] | skip); (with_reducible refine Keeps.patch ?_ ?_ ?_); rotate_left; (first | exact CelKeeps.refl _ | exact ⟨fun _ h => h, Nat.le_refl _⟩ | exact ⟨fun _ h => h, Nat.le_succ _⟩); (refine fun g => ?_; first | exact g | simpa only [SizesOk, Machine.patch, upd_length] using g | (simp only [SizesOk, Machine.patch, upd_length, List.length_map, List.length_replicate, true_and] at g ⊢; tauto)))

theorem Keeps.slotFetch {z0 s : State} {a : Nat} (hz : Keeps z0 s)  : Keeps z0 (Machine.slotFetch a s).1 := by
  unfold Machine.slotFetch
  try lift_lets
  repeat' first
    | with_reducible assumption
    | (intro x; with_reducible refine Keeps.cut (o := z0) x ?_ ?_; dsimp only [x]; rotate_left; try clear_value x)
    | (intro x; with_reducible refine Keeps.cut1 (o := z0) x ?_ ?_; dsimp only [x]; rotate_left; try clear_value x)
    | (intro x; with_reducible refine Keeps.cutF x ?_; try dsimp only [x])
    | (intro x; try clear_value x)
    | with_reducible apply Keeps.retireRange
    | with_reducible apply Keeps.unitRead
    | (fail_if_no_progress dsimp -zeta only)
    | split

theorem Keeps.wrSnkTx {z0 s : State} {t : Nat} {w : Word} (hz : Keeps z0 s)  : Keeps z0 (Machine.wrSnkTx t w s) := by
  unfold Machine.wrSnkTx
  try lift_lets
  repeat' first
    | with_reducible assumption
    | (intro x; with_reducible refine Keeps.cut (o := z0) x ?_ ?_; dsimp only [x]; rotate_left; try clear_value x)
    | (intro x; with_reducible refine Keeps.cut1 (o := z0) x ?_ ?_; dsimp only [x]; rotate_left; try clear_value x)
    | (intro x; with_reducible refine Keeps.cut2 (o := z0) x ?_ ?_; dsimp only [x]; rotate_left; try clear_value x)
    | with_reducible apply Keeps.ite2
    | (intro x; with_reducible refine Keeps.cutF x ?_; try dsimp only [x])
    | (intro x; try clear_value x)
    | with_reducible apply Keeps.ite
    | with_reducible apply Keeps.ite1
    | with_reducible apply Keeps.plainWrite
    | with_reducible apply Keeps.enqueue
    | with_reducible apply Keeps.originate
    | with_reducible apply Keeps.routeTo
    | with_reducible apply Keeps.slotNow
    | with_reducible apply Keeps.floodOut
    | with_reducible apply Keeps.sameSeq
    | with_reducible apply Keeps.slotFetch
    | with_reducible apply Keeps.set
    | with_reducible apply Keeps.store
    | with_reducible apply Keeps.ret
    | (fail_if_no_progress dsimp -zeta only)
    | split

theorem Keeps.wrRraCtrl {z0 s : State} {w : Word} (hz : Keeps z0 s)  : Keeps z0 (Machine.wrRraCtrl w s) := by
  unfold Machine.wrRraCtrl
  try lift_lets
  repeat' first
    | with_reducible assumption
    | (intro x; with_reducible refine Keeps.cut (o := z0) x ?_ ?_; dsimp only [x]; rotate_left; try clear_value x)
    | (intro x; with_reducible refine Keeps.cut1 (o := z0) x ?_ ?_; dsimp only [x]; rotate_left; try clear_value x)
    | with_reducible apply Keeps.ite2
    | (intro x; try clear_value x)
    | with_reducible apply Keeps.ite
    | with_reducible apply Keeps.ite1
    | with_reducible apply Keeps.foldl
    | with_reducible apply Keeps.foldl1
    | with_reducible apply Keeps.plainWrite
    | with_reducible apply Keeps.updSnk
    | with_reducible apply Keeps.rraEnd
    | with_reducible apply Keeps.originate
    | with_reducible apply Keeps.routeTo
    | with_reducible apply Keeps.sameSeq
    | with_reducible apply Keeps.wr
    | with_reducible apply Keeps.set
    | with_reducible apply Keeps.store
    | with_reducible apply Keeps.ret
    | ((first | rw [patch_eq] | skip); (with_reducible refine Keeps.patch ?_ ?_ ?_); rotate_left; (first | exact CelKeeps.refl _ | exact ⟨fun _ h => h, Nat.le_refl _⟩ | exact ⟨fun _ h => h, Nat.le_succ _⟩); (refine fun g => ?_; first | exact g | simpa only [SizesOk, Machine.patch, upd_length] using g | (simp only [SizesOk, Machine.patch, upd_length, List.length_map, List.length_replicate, true_and] at g ⊢; tauto)))

theorem Keeps.rraTimeout {z0 s : State}  (hz : Keeps z0 s)  : Keeps z0 (Machine.rraTimeout s) := by
  unfold Machine.rraTimeout
  repeat' first
    | with_reducible assumption
    | with_reducible apply Keeps.ite
    | with_reducible apply Keeps.ite1
    | with_reducible apply Keeps.rraEnd

theorem Keeps.wrSnkCfg {z0 s : State} {w : Word} (hz : Keeps z0 s)  : Keeps z0 (Machine.wrSnkCfg w s) := by
  unfold Machine.wrSnkCfg
  try lift_lets
  repeat' first
    | with_reducible assumption
    | (intro x; try clear_value x)
    | with_reducible apply Keeps.ite
    | with_reducible apply Keeps.ite1
    | with_reducible apply Keeps.plainWrite
    | with_reducible apply Keeps.ret

theorem Keeps.wrLinkEn {z0 s : State} {w : Word} (hz : Keeps z0 s)  : Keeps z0 (Machine.wrLinkEn w s) := by
  unfold Machine.wrLinkEn
  try lift_lets
  repeat' first
    | with_reducible assumption
    | (intro x; with_reducible refine Keeps.cut (o := z0) x ?_ ?_; dsimp only [x]; rotate_left; try clear_value x)
    | (intro x; try clear_value x)
    | with_reducible apply Keeps.ite
    | with_reducible apply Keeps.ite1
    | with_reducible apply Keeps.forN
    | with_reducible apply Keeps.linkDown
    | with_reducible apply Keeps.linkStart
    | with_reducible apply Keeps.store
    | with_reducible apply Keeps.ret

theorem Keeps.wrRxrBase {z0 s : State} {c : Nat} {w : Word} (hz : Keeps z0 s)  : Keeps z0 (Machine.wrRxrBase c w s) := by
  unfold Machine.wrRxrBase
  repeat' first
    | with_reducible assumption
    | with_reducible apply Keeps.ite
    | with_reducible apply Keeps.ite1
    | with_reducible apply Keeps.plainWrite
    | with_reducible apply Keeps.ret

theorem Keeps.wrRxrCtrl {z0 s : State} {c : Nat} {w : Word} (hz : Keeps z0 s)  : Keeps z0 (Machine.wrRxrCtrl c w s) := by
  unfold Machine.wrRxrCtrl
  try lift_lets
  repeat' first
    | with_reducible assumption
    | (intro x; try clear_value x)
    | with_reducible apply Keeps.ite
    | with_reducible apply Keeps.ite1
    | with_reducible apply Keeps.plainWrite
    | with_reducible apply Keeps.ret

theorem Keeps.wrPairTim {z0 s : State} {w : Word} (hz : Keeps z0 s)  : Keeps z0 (Machine.wrPairTim w s) := by
  unfold Machine.wrPairTim
  try lift_lets
  repeat' first
    | with_reducible assumption
    | (intro x; try clear_value x)
    | with_reducible apply Keeps.ite
    | with_reducible apply Keeps.ite1
    | with_reducible apply Keeps.plainWrite
    | with_reducible apply Keeps.ret

theorem Keeps.wrRoute4 {z0 s : State} {a : Nat} {w : Word} (hz : Keeps z0 s)  : Keeps z0 (Machine.wrRoute4 a w s) := by
  unfold Machine.wrRoute4
  try lift_lets
  repeat' first
    | with_reducible assumption
    | (intro x; try clear_value x)
    | with_reducible apply Keeps.ite
    | with_reducible apply Keeps.ite1
    | with_reducible apply Keeps.plainWrite
    | with_reducible apply Keeps.ret

theorem Keeps.phyChange {z0 s : State} {l : Nat} {groups : List (BitVec 10)} (hz : Keeps z0 s)  : Keeps z0 (Machine.phyChange l groups s) := by
  unfold Machine.phyChange
  try lift_lets
  repeat' first
    | with_reducible assumption
    | (intro x; with_reducible refine Keeps.cut (o := z0) x ?_ ?_; dsimp only [x]; rotate_left; try clear_value x)
    | (intro x; with_reducible refine Keeps.cut1 (o := z0) x ?_ ?_; dsimp only [x]; rotate_left; try clear_value x)
    | (intro x; with_reducible refine Keeps.cutF x ?_; try dsimp only [x])
    | (intro x; try clear_value x)
    | with_reducible apply Keeps.ite
    | with_reducible apply Keeps.ite1
    | with_reducible apply Keeps.foldl
    | with_reducible apply Keeps.foldl1
    | with_reducible apply Keeps.linkDown
    | with_reducible apply Keeps.updSnk
    | with_reducible apply Keeps.linkStart
    | ((first | rw [patch_eq] | skip); (with_reducible refine Keeps.patch ?_ ?_ ?_); rotate_left; (first | exact CelKeeps.refl _ | exact ⟨fun _ h => h, Nat.le_refl _⟩ | exact ⟨fun _ h => h, Nat.le_succ _⟩); (refine fun g => ?_; first | exact g | simpa only [SizesOk, Machine.patch, upd_length] using g | (simp only [SizesOk, Machine.patch, upd_length, List.length_map, List.length_replicate, true_and] at g ⊢; tauto)))
    | (fail_if_no_progress dsimp -zeta only)
    | split

theorem Keeps.pairRelease {z0 s : State}  (hz : Keeps z0 s)  : Keeps z0 (Machine.pairRelease s) := by
  unfold Machine.pairRelease
  repeat' first
    | with_reducible assumption
    | (intro x; with_reducible refine Keeps.cut (o := z0) x ?_ ?_; dsimp only [x]; rotate_left; try clear_value x)
    | (intro x; with_reducible refine Keeps.cut1 (o := z0) x ?_ ?_; dsimp only [x]; rotate_left; try clear_value x)
    | (intro x; with_reducible refine Keeps.cutF x ?_; try dsimp only [x])
    | (intro x; try clear_value x)
    | with_reducible apply Keeps.ite
    | with_reducible apply Keeps.ite1
    | with_reducible apply Keeps.setRole
    | (fail_if_no_progress dsimp -zeta only)
    | split

theorem Keeps.resetSnk {z0 s : State} {full : Bool} (hz : Keeps z0 s)  : Keeps z0 (Machine.resetSnk full s) := by
  unfold Machine.resetSnk
  try lift_lets
  repeat' first
    | with_reducible assumption
    | (intro x; with_reducible refine Keeps.cut (o := z0) x ?_ ?_; dsimp only [x]; rotate_left; try clear_value x)
    | (intro x; try clear_value x)
    | with_reducible apply Keeps.ite
    | with_reducible apply Keeps.ite1
    | with_reducible apply Keeps.pairRelease
    | with_reducible apply Keeps.wr
    | with_reducible apply Keeps.set
    | with_reducible apply Keeps.dropRange
    | ((first | rw [patch_eq] | skip); (with_reducible refine Keeps.patch ?_ ?_ ?_); rotate_left; (first | exact CelKeeps.refl _ | exact ⟨fun _ h => h, Nat.le_refl _⟩ | exact ⟨fun _ h => h, Nat.le_succ _⟩); (refine fun g => ?_; first | exact g | simpa only [SizesOk, Machine.patch, upd_length] using g | (simp only [SizesOk, Machine.patch, upd_length, List.length_map, List.length_replicate, true_and] at g ⊢; tauto)))

theorem Keeps.atticPair {z0 s : State} {p : Option PairRec} (hz : Keeps z0 s)  : Keeps z0 (Machine.atticPair p s) := by
  unfold Machine.atticPair
  repeat' first
    | with_reducible assumption
    | with_reducible apply Keeps.pairRelease
    | with_reducible apply Keeps.set
    | (fail_if_no_progress dsimp -zeta only)
    | split

theorem Keeps.execHelloTimer {s z : State}  (e : Machine.execHelloTimer s = .next z) : Keeps s z := by
  have hz := Keeps.refl s
  revert e
  unfold Machine.execHelloTimer
  first
    | (intro e; injection e with e; subst e; (repeat' first
         | with_reducible assumption
         | with_reducible apply Keeps.ite
         | with_reducible apply Keeps.ite1
         | with_reducible apply Keeps.sendHellos
         ); done)

theorem Keeps.execHelloRx {s z : State} {l : Fin 10} {c : List Byte} (e : Machine.execHelloRx l c s = .next z) : Keeps s z := by
  have hz := Keeps.refl s
  revert e
  unfold Machine.execHelloRx
  first
    | (intro e; injection e with e; subst e; (repeat' first
         | with_reducible assumption
         | (intro x; with_reducible refine Keeps.cut (o := z0) x ?_ ?_; dsimp only [x]; rotate_left; try clear_value x)
         | (intro x; with_reducible refine Keeps.cut1 (o := z0) x ?_ ?_; dsimp only [x]; rotate_left; try clear_value x)
         | (intro x; with_reducible refine Keeps.cutF x ?_; try dsimp only [x])
         | (intro x; try clear_value x)
         | with_reducible apply Keeps.ite
         | with_reducible apply Keeps.ite1
         | with_reducible apply Keeps.crateIn
         | (fail_if_no_progress dsimp -zeta only)
         | split
         ); done)
    | (repeat' split) <;> first | (intro e; injection e with e; subst e; (repeat' first
         | with_reducible assumption
         | (intro x; with_reducible refine Keeps.cut (o := z0) x ?_ ?_; dsimp only [x]; rotate_left; try clear_value x)
         | (intro x; with_reducible refine Keeps.cut1 (o := z0) x ?_ ?_; dsimp only [x]; rotate_left; try clear_value x)
         | (intro x; with_reducible refine Keeps.cutF x ?_; try dsimp only [x])
         | (intro x; try clear_value x)
         | with_reducible apply Keeps.ite
         | with_reducible apply Keeps.ite1
         | with_reducible apply Keeps.crateIn
         | (fail_if_no_progress dsimp -zeta only)
         | split
         ))

theorem Keeps.execLinkDeadTimeout {s z : State} {l : Fin 10} (e : Machine.execLinkDeadTimeout l s = .next z) : Keeps s z := by
  have hz := Keeps.refl s
  revert e
  unfold Machine.execLinkDeadTimeout
  first
    | (intro e; injection e with e; subst e; (repeat' first
         | with_reducible assumption
         | with_reducible apply Keeps.ite
         | with_reducible apply Keeps.ite1
         | with_reducible apply Keeps.setLink
         ); done)

theorem Keeps.execLinkPhyChange {s z : State} {l : Fin 10} {groups : List (BitVec 10)} (e : Machine.execLinkPhyChange l groups s = .next z) : Keeps s z := by
  have hz := Keeps.refl s
  revert e
  unfold Machine.execLinkPhyChange
  first
    | (intro e; injection e with e; subst e; (repeat' first
         | with_reducible assumption
         | (intro x; with_reducible refine Keeps.cut (o := z0) x ?_ ?_; dsimp only [x]; rotate_left; try clear_value x)
         | (intro x; with_reducible refine Keeps.cut1 (o := z0) x ?_ ?_; dsimp only [x]; rotate_left; try clear_value x)
         | (intro x; with_reducible refine Keeps.cutF x ?_; try dsimp only [x])
         | (intro x; try clear_value x)
         | with_reducible apply Keeps.phyChange
         | (fail_if_no_progress dsimp -zeta only)
         | split
         ); done)

theorem Keeps.execCrateRxUnicast {s z : State} {l : Fin 10} {c : List Byte} {age : Nat} (e : Machine.execCrateRxUnicast l c age s = .next z) : Keeps s z := by
  have hz := Keeps.refl s
  revert e
  unfold Machine.execCrateRxUnicast
  first
    | (intro e; injection e with e; subst e; (repeat' first
         | with_reducible assumption
         | (intro x; with_reducible refine Keeps.cut (o := z0) x ?_ ?_; dsimp only [x]; rotate_left; try clear_value x)
         | (intro x; with_reducible refine Keeps.cut1 (o := z0) x ?_ ?_; dsimp only [x]; rotate_left; try clear_value x)
         | (intro x; with_reducible refine Keeps.cutF x ?_; try dsimp only [x])
         | (intro x; try clear_value x)
         | with_reducible apply Keeps.ite
         | with_reducible apply Keeps.ite1
         | with_reducible apply Keeps.crateIn
         | (fail_if_no_progress dsimp -zeta only)
         | split
         ); done)
    | (repeat' split) <;> first | (intro e; injection e with e; subst e; (repeat' first
         | with_reducible assumption
         | (intro x; with_reducible refine Keeps.cut (o := z0) x ?_ ?_; dsimp only [x]; rotate_left; try clear_value x)
         | (intro x; with_reducible refine Keeps.cut1 (o := z0) x ?_ ?_; dsimp only [x]; rotate_left; try clear_value x)
         | (intro x; with_reducible refine Keeps.cutF x ?_; try dsimp only [x])
         | (intro x; try clear_value x)
         | with_reducible apply Keeps.ite
         | with_reducible apply Keeps.ite1
         | with_reducible apply Keeps.crateIn
         | (fail_if_no_progress dsimp -zeta only)
         | split
         ))

theorem Keeps.execCrateRxBroadcast {s z : State} {l : Fin 10} {c : List Byte} {age : Nat} (e : Machine.execCrateRxBroadcast l c age s = .next z) : Keeps s z := by
  have hz := Keeps.refl s
  revert e
  unfold Machine.execCrateRxBroadcast
  first
    | (intro e; injection e with e; subst e; (repeat' first
         | with_reducible assumption
         | (intro x; with_reducible refine Keeps.cut (o := z0) x ?_ ?_; dsimp only [x]; rotate_left; try clear_value x)
         | (intro x; with_reducible refine Keeps.cut1 (o := z0) x ?_ ?_; dsimp only [x]; rotate_left; try clear_value x)
         | (intro x; with_reducible refine Keeps.cutF x ?_; try dsimp only [x])
         | (intro x; try clear_value x)
         | with_reducible apply Keeps.ite
         | with_reducible apply Keeps.ite1
         | with_reducible apply Keeps.crateIn
         | (fail_if_no_progress dsimp -zeta only)
         | split
         ); done)
    | (repeat' split) <;> first | (intro e; injection e with e; subst e; (repeat' first
         | with_reducible assumption
         | (intro x; with_reducible refine Keeps.cut (o := z0) x ?_ ?_; dsimp only [x]; rotate_left; try clear_value x)
         | (intro x; with_reducible refine Keeps.cut1 (o := z0) x ?_ ?_; dsimp only [x]; rotate_left; try clear_value x)
         | (intro x; with_reducible refine Keeps.cutF x ?_; try dsimp only [x])
         | (intro x; try clear_value x)
         | with_reducible apply Keeps.ite
         | with_reducible apply Keeps.ite1
         | with_reducible apply Keeps.crateIn
         | (fail_if_no_progress dsimp -zeta only)
         | split
         ))

theorem Keeps.execCrateSend {s z : State} {q : Rq} {t : Fin 8} {w : Word} (e : Machine.execCrateSend q t w s = .next z) : Keeps s z := by
  have hz := Keeps.refl s
  revert e
  unfold Machine.execCrateSend
  first
    | (intro e; injection e with e; subst e; (repeat' first
         | with_reducible assumption
         | (intro x; try clear_value x)
         | with_reducible apply Keeps.gated
         | with_reducible apply Keeps.wrSnkTx
         ); done)

theorem Keeps.execRraRead {s z : State} {q : Rq} {w : Word} (e : Machine.execRraRead q w s = .next z) : Keeps s z := by
  have hz := Keeps.refl s
  revert e
  unfold Machine.execRraRead
  first
    | (intro e; injection e with e; subst e; (repeat' first
         | with_reducible assumption
         | (intro x; try clear_value x)
         | with_reducible apply Keeps.gated
         | with_reducible apply Keeps.wrRraCtrl
         ); done)

theorem Keeps.execRraWrite {s z : State} {q : Rq} {w : Word} (e : Machine.execRraWrite q w s = .next z) : Keeps s z := by
  have hz := Keeps.refl s
  revert e
  unfold Machine.execRraWrite
  first
    | (intro e; injection e with e; subst e; (repeat' first
         | with_reducible assumption
         | (intro x; try clear_value x)
         | with_reducible apply Keeps.gated
         | with_reducible apply Keeps.wrRraCtrl
         ); done)

theorem Keeps.execRreplyRx {s z : State} {l : Fin 10} {c : List Byte} (e : Machine.execRreplyRx l c s = .next z) : Keeps s z := by
  have hz := Keeps.refl s
  revert e
  unfold Machine.execRreplyRx
  first
    | (intro e; injection e with e; subst e; (repeat' first
         | with_reducible assumption
         | (intro x; with_reducible refine Keeps.cut (o := z0) x ?_ ?_; dsimp only [x]; rotate_left; try clear_value x)
         | (intro x; with_reducible refine Keeps.cut1 (o := z0) x ?_ ?_; dsimp only [x]; rotate_left; try clear_value x)
         | (intro x; with_reducible refine Keeps.cutF x ?_; try dsimp only [x])
         | (intro x; try clear_value x)
         | with_reducible apply Keeps.ite
         | with_reducible apply Keeps.ite1
         | with_reducible apply Keeps.crateIn
         | (fail_if_no_progress dsimp -zeta only)
         | split
         ); done)
    | (repeat' split) <;> first | (intro e; injection e with e; subst e; (repeat' first
         | with_reducible assumption
         | (intro x; with_reducible refine Keeps.cut (o := z0) x ?_ ?_; dsimp only [x]; rotate_left; try clear_value x)
         | (intro x; with_reducible refine Keeps.cut1 (o := z0) x ?_ ?_; dsimp only [x]; rotate_left; try clear_value x)
         | (intro x; with_reducible refine Keeps.cutF x ?_; try dsimp only [x])
         | (intro x; try clear_value x)
         | with_reducible apply Keeps.ite
         | with_reducible apply Keeps.ite1
         | with_reducible apply Keeps.crateIn
         | (fail_if_no_progress dsimp -zeta only)
         | split
         ))

theorem Keeps.execRraTimeout {s z : State}  (e : Machine.execRraTimeout s = .next z) : Keeps s z := by
  have hz := Keeps.refl s
  revert e
  unfold Machine.execRraTimeout
  first
    | (intro e; injection e with e; subst e; (repeat' first
         | with_reducible assumption
         | with_reducible apply Keeps.rraTimeout
         ); done)

theorem Keeps.execSnkAddrWrite {s z : State} {q : Rq} {w : Word} (e : Machine.execSnkAddrWrite q w s = .next z) : Keeps s z := by
  have hz := Keeps.refl s
  revert e
  unfold Machine.execSnkAddrWrite
  first
    | (intro e; injection e with e; subst e; (repeat' first
         | with_reducible assumption
         | (intro x; try clear_value x)
         | with_reducible apply Keeps.gated
         | with_reducible apply Keeps.wrSnkAddr
         ); done)

theorem Keeps.execSnkDiscRead {s z : State} {q : Rq} (e : Machine.execSnkDiscRead q s = .next z) : Keeps s z := by
  have hz := Keeps.refl s
  revert e
  unfold Machine.execSnkDiscRead
  first
    | (intro e; injection e with e; subst e; (repeat' first
         | with_reducible assumption
         | (intro x; try clear_value x)
         | with_reducible apply Keeps.gatedRead
         | with_reducible apply Keeps.clearRead
         ); done)

theorem Keeps.execSnkDropRead {s z : State} {q : Rq} {c : Fin 4} (e : Machine.execSnkDropRead q c s = .next z) : Keeps s z := by
  have hz := Keeps.refl s
  revert e
  unfold Machine.execSnkDropRead
  first
    | (intro e; injection e with e; subst e; (repeat' first
         | with_reducible assumption
         | (intro x; try clear_value x)
         | with_reducible apply Keeps.gatedRead
         | with_reducible apply Keeps.clearRead
         ); done)

theorem Keeps.execPairEnable {s z : State} {q : Rq} {w : Word} (e : Machine.execPairEnable q w s = .next z) : Keeps s z := by
  have hz := Keeps.refl s
  revert e
  unfold Machine.execPairEnable
  first
    | (intro e; injection e with e; subst e; (repeat' first
         | with_reducible assumption
         | (intro x; try clear_value x)
         | with_reducible apply Keeps.gated
         | with_reducible apply Keeps.wrPairCtrl
         ); done)

theorem Keeps.execPairDisable {s z : State} {q : Rq} {w : Word} (e : Machine.execPairDisable q w s = .next z) : Keeps s z := by
  have hz := Keeps.refl s
  revert e
  unfold Machine.execPairDisable
  first
    | (intro e; injection e with e; subst e; (repeat' first
         | with_reducible assumption
         | (intro x; try clear_value x)
         | with_reducible apply Keeps.gated
         | with_reducible apply Keeps.wrPairCtrl
         ); done)

theorem Keeps.execHeartbeatTimer {s z : State}  (e : Machine.execHeartbeatTimer s = .next z) : Keeps s z := by
  have hz := Keeps.refl s
  revert e
  unfold Machine.execHeartbeatTimer
  first
    | (intro e; injection e with e; subst e; (repeat' first
         | with_reducible assumption
         | with_reducible apply Keeps.heartbeatOut
         ); done)

theorem Keeps.execHeartbeatRx {s z : State} {l : Fin 10} {c : List Byte} (e : Machine.execHeartbeatRx l c s = .next z) : Keeps s z := by
  have hz := Keeps.refl s
  revert e
  unfold Machine.execHeartbeatRx
  first
    | (intro e; injection e with e; subst e; (repeat' first
         | with_reducible assumption
         | (intro x; with_reducible refine Keeps.cut (o := z0) x ?_ ?_; dsimp only [x]; rotate_left; try clear_value x)
         | (intro x; with_reducible refine Keeps.cut1 (o := z0) x ?_ ?_; dsimp only [x]; rotate_left; try clear_value x)
         | (intro x; with_reducible refine Keeps.cutF x ?_; try dsimp only [x])
         | (intro x; try clear_value x)
         | with_reducible apply Keeps.ite
         | with_reducible apply Keeps.ite1
         | with_reducible apply Keeps.crateIn
         | (fail_if_no_progress dsimp -zeta only)
         | split
         ); done)
    | (repeat' split) <;> first | (intro e; injection e with e; subst e; (repeat' first
         | with_reducible assumption
         | (intro x; with_reducible refine Keeps.cut (o := z0) x ?_ ?_; dsimp only [x]; rotate_left; try clear_value x)
         | (intro x; with_reducible refine Keeps.cut1 (o := z0) x ?_ ?_; dsimp only [x]; rotate_left; try clear_value x)
         | (intro x; with_reducible refine Keeps.cutF x ?_; try dsimp only [x])
         | (intro x; try clear_value x)
         | with_reducible apply Keeps.ite
         | with_reducible apply Keeps.ite1
         | with_reducible apply Keeps.crateIn
         | (fail_if_no_progress dsimp -zeta only)
         | split
         ))

theorem Keeps.execPartnerLost {s z : State}  (e : Machine.execPartnerLost s = .next z) : Keeps s z := by
  have hz := Keeps.refl s
  revert e
  unfold Machine.execPartnerLost
  first
    | (intro e; injection e with e; subst e; (repeat' first
         | with_reducible assumption
         | with_reducible apply Keeps.partnerLost
         ); done)

theorem Keeps.execPairPathLoss {s z : State} {lane : Bool} (e : Machine.execPairPathLoss lane s = .next z) : Keeps s z := by
  have hz := Keeps.refl s
  revert e
  unfold Machine.execPairPathLoss
  first
    | (intro e; injection e with e; subst e; (repeat' first
         | with_reducible assumption
         | with_reducible apply Keeps.pathLoss
         ); done)

theorem Keeps.execPairSwitch {s z : State} {q : Rq} (e : Machine.execPairSwitch q s = .next z) : Keeps s z := by
  have hz := Keeps.refl s
  revert e
  unfold Machine.execPairSwitch
  first
    | (intro e; injection e with e; subst e; (repeat' first
         | with_reducible assumption
         | (intro x; try clear_value x)
         | with_reducible apply Keeps.gated
         | with_reducible apply Keeps.wrPairCmd
         ); done)

theorem Keeps.execYieldTimeout {s z : State}  (e : Machine.execYieldTimeout s = .next z) : Keeps s z := by
  have hz := Keeps.refl s
  revert e
  unfold Machine.execYieldTimeout
  first
    | (intro e; injection e with e; subst e; (repeat' first
         | with_reducible assumption
         | with_reducible apply Keeps.yieldTimeout
         ); done)

theorem Keeps.execSoloTimeout {s z : State}  (e : Machine.execSoloTimeout s = .next z) : Keeps s z := by
  have hz := Keeps.refl s
  revert e
  unfold Machine.execSoloTimeout
  first
    | (intro e; injection e with e; subst e; (repeat' first
         | with_reducible assumption
         | with_reducible apply Keeps.soloTimeout
         ); done)

end Sys2Proof.Machine
end

