-- ==== Sys2Proof/Laws/KeepCel.lean ====
section
/-! SUPPORT. What the operations of Cel.lean keep. -/

set_option linter.all false

namespace Sys2Proof.Machine

theorem Keeps.updCel {o s : State} {f : Cel → Cel} (h : Keeps o s) (hf : CelKeeps s.cel (f s.cel)) : Keeps o (Machine.updCel f s) :=
  h.upd rfl rfl rfl rfl rfl hf rfl (fun g => g)

theorem Keeps.celEvt {z0 s : State} {b : Nat} (hz : Keeps z0 s)  : Keeps z0 (Machine.celEvt b s) := by
  unfold Machine.celEvt
  repeat' first
    | with_reducible assumption
    | with_reducible apply Keeps.flag

theorem Keeps.setCel {z0 s : State} {t : Nat} (hz : Keeps z0 s)  : Keeps z0 (Machine.setCel t s) := by
  unfold Machine.setCel
  repeat' first
    | with_reducible assumption
    | with_reducible apply Keeps.ite
    | with_reducible apply Keeps.ite1
    | with_reducible apply Keeps.celEvt
    | with_reducible apply Keeps.set

theorem Keeps.djLane {z0 s : State} {n : Nat} (hz : Keeps z0 s)  : Keeps z0 (Machine.djLane n s) := by
  unfold Machine.djLane
  repeat' first
    | with_reducible assumption
    | with_reducible apply Keeps.ite
    | with_reducible apply Keeps.ite1
    | with_reducible apply Keeps.celRx
    | with_reducible apply Keeps.celTx
    | (fail_if_no_progress dsimp -zeta only)
    | split

theorem Keeps.djTick {z0 s : State}  (hz : Keeps z0 s)  : Keeps z0 (Machine.djTick s) := by
  unfold Machine.djTick
  repeat' first
    | with_reducible assumption
    | (intro x; with_reducible refine Keeps.cut (o := z0) x ?_ ?_; dsimp only [x]; rotate_left; try clear_value x)
    | (intro x; with_reducible refine Keeps.cut1 (o := z0) x ?_ ?_; dsimp only [x]; rotate_left; try clear_value x)
    | (intro x; with_reducible refine Keeps.cutF x ?_; try dsimp only [x])
    | (intro x; try clear_value x)
    | with_reducible apply Keeps.ite
    | with_reducible apply Keeps.ite1
    | with_reducible apply Keeps.forN
    | with_reducible apply Keeps.djLane
    | (fail_if_no_progress dsimp -zeta only)
    | split

theorem Keeps.celTick {z0 s : State}  (hz : Keeps z0 s)  : Keeps z0 (Machine.celTick s) := by
  unfold Machine.celTick
  try lift_lets
  repeat' first
    | exact CelKeeps.refl _
    | exact ⟨fun _ h => h, Nat.le_refl _⟩
    | exact ⟨fun _ h => h, Nat.le_succ _⟩
    | with_reducible assumption
    | (intro x; with_reducible refine Keeps.cut (o := z0) x ?_ ?_; dsimp only [x]; rotate_left; try clear_value x)
    | (intro x; try clear_value x)
    | with_reducible apply Keeps.ite
    | with_reducible apply Keeps.ite1
    | with_reducible apply Keeps.forN
    | with_reducible apply Keeps.celAdd
    | with_reducible apply Keeps.updCel
    | with_reducible apply Keeps.djLane
    | ((first | rw [patch_eq] | skip); (with_reducible refine Keeps.patch ?_ ?_ ?_); rotate_left; (first | exact CelKeeps.refl _ | exact ⟨fun _ h => h, Nat.le_refl _⟩ | exact ⟨fun _ h => h, Nat.le_succ _⟩); (refine fun g => ?_; first | exact g | simpa only [SizesOk, Machine.patch, upd_length] using g | (simp only [SizesOk, Machine.patch, upd_length, List.length_map, List.length_replicate, true_and] at g ⊢; tauto)))

theorem Keeps.repeaterTickAll {z0 s : State}  (hz : Keeps z0 s)  : Keeps z0 (Machine.repeaterTickAll s) := by
  unfold Machine.repeaterTickAll
  repeat' first
    | with_reducible assumption
    | with_reducible apply Keeps.ite
    | with_reducible apply Keeps.ite1
    | with_reducible apply Keeps.repeaterTick
    | with_reducible apply Keeps.celTick

theorem Keeps.celFrame {z0 s : State} {n : Nat} (hz : Keeps z0 s)  : Keeps z0 (Machine.celFrame n s) := by
  unfold Machine.celFrame
  repeat' first
    | with_reducible assumption
    | (intro x; try clear_value x)
    | with_reducible apply Keeps.ite
    | with_reducible apply Keeps.ite1
    | with_reducible apply Keeps.foldl
    | with_reducible apply Keeps.foldl1
    | with_reducible apply Keeps.celTx
    | (fail_if_no_progress dsimp -zeta only)
    | split

theorem Keeps.txFrames {z0 s : State} {host : List Nat} (hz : Keeps z0 s)  : Keeps z0 (Machine.txFrames host s) := by
  unfold Machine.txFrames
  try lift_lets
  repeat' first
    | with_reducible assumption
    | (intro x; try clear_value x)
    | with_reducible apply Keeps.foldl
    | with_reducible apply Keeps.foldl1
    | with_reducible apply Keeps.txFrameStart
    | with_reducible apply Keeps.celFrame

theorem Keeps.logWrite {z0 s : State} {e : Nat × Nat × Nat} (hz : Keeps z0 s)  : Keeps z0 (Machine.logWrite e s) := by
  unfold Machine.logWrite
  try lift_lets
  repeat' first
    | exact CelKeeps.refl _
    | exact ⟨fun _ h => h, Nat.le_refl _⟩
    | exact ⟨fun _ h => h, Nat.le_succ _⟩
    | with_reducible assumption
    | with_reducible apply Keeps.ite2
    | (intro x; try clear_value x)
    | with_reducible apply Keeps.foldl
    | with_reducible apply Keeps.foldl1
    | with_reducible apply Keeps.updCel
    | with_reducible apply Keeps.set
    | ((first | rw [patch_eq] | skip); (with_reducible refine Keeps.patch ?_ ?_ ?_); rotate_left; (first | exact CelKeeps.refl _ | exact ⟨fun _ h => h, Nat.le_refl _⟩ | exact ⟨fun _ h => h, Nat.le_succ _⟩); (refine fun g => ?_; first | exact g | simpa only [SizesOk, Machine.patch, upd_length] using g | (simp only [SizesOk, Machine.patch, upd_length, List.length_map, List.length_replicate, true_and] at g ⊢; tauto)))

theorem Keeps.logPut {z0 s : State} {ty : Nat} {detail : Nat} (hz : Keeps z0 s)  : Keeps z0 (Machine.logPut ty detail s) := by
  unfold Machine.logPut
  try lift_lets
  repeat' first
    | exact CelKeeps.refl _
    | exact ⟨fun _ h => h, Nat.le_refl _⟩
    | exact ⟨fun _ h => h, Nat.le_succ _⟩
    | with_reducible assumption
    | (intro x; try clear_value x)
    | with_reducible apply Keeps.ite
    | with_reducible apply Keeps.ite1
    | with_reducible apply Keeps.updCel
    | with_reducible apply Keeps.logWrite
    | ((first | rw [patch_eq] | skip); (with_reducible refine Keeps.patch ?_ ?_ ?_); rotate_left; (first | exact CelKeeps.refl _ | exact ⟨fun _ h => h, Nat.le_refl _⟩ | exact ⟨fun _ h => h, Nat.le_succ _⟩); (refine fun g => ?_; first | exact g | simpa only [SizesOk, Machine.patch, upd_length] using g | (simp only [SizesOk, Machine.patch, upd_length, List.length_map, List.length_replicate, true_and] at g ⊢; tauto)))

theorem Keeps.tamperChange {z0 s : State} {high : Bool} {glitches : Nat} (hz : Keeps z0 s)  : Keeps z0 (Machine.tamperChange high glitches s) := by
  unfold Machine.tamperChange
  repeat' first
    | exact CelKeeps.refl _
    | exact ⟨fun _ h => h, Nat.le_refl _⟩
    | exact ⟨fun _ h => h, Nat.le_succ _⟩
    | with_reducible assumption
    | with_reducible apply Keeps.ite
    | with_reducible apply Keeps.ite1
    | with_reducible apply Keeps.updCel
    | with_reducible apply Keeps.celEvt
    | with_reducible apply Keeps.logPut
    | with_reducible apply Keeps.set
    | (fail_if_no_progress dsimp -zeta only)
    | split

theorem Keeps.commitSlot {z0 s : State}  (hz : Keeps z0 s)  : Keeps z0 (Machine.commitSlot s) := by
  unfold Machine.commitSlot
  try lift_lets
  repeat' first
    | exact CelKeeps.refl _
    | exact ⟨fun _ h => h, Nat.le_refl _⟩
    | exact ⟨fun _ h => h, Nat.le_succ _⟩
    | with_reducible assumption
    | (intro x; with_reducible refine Keeps.cut (o := z0) x ?_ ?_; dsimp only [x]; rotate_left; try clear_value x)
    | (intro x; try clear_value x)
    | with_reducible apply Keeps.updCel
    | with_reducible apply Keeps.set
    | ((first | rw [patch_eq] | skip); (with_reducible refine Keeps.patch ?_ ?_ ?_); rotate_left; (first | exact CelKeeps.refl _ | exact ⟨fun _ h => h, Nat.le_refl _⟩ | exact ⟨fun _ h => h, Nat.le_succ _⟩); (refine fun g => ?_; first | exact g | simpa only [SizesOk, Machine.patch, upd_length] using g | (simp only [SizesOk, Machine.patch, upd_length, List.length_map, List.length_replicate, true_and] at g ⊢; tauto)))

theorem Keeps.readTemp {z0 s : State} {t : Int} (hz : Keeps z0 s)  : Keeps z0 (Machine.readTemp t s) := by
  unfold Machine.readTemp
  repeat' first
    | with_reducible assumption
    | with_reducible apply Keeps.set
    | with_reducible apply Keeps.seti

theorem Keeps.commitDefer {z0 s : State}  (hz : Keeps z0 s)  : Keeps z0 (Machine.commitDefer s) := by
  unfold Machine.commitDefer
  try lift_lets
  repeat' first
    | exact CelKeeps.refl _
    | exact ⟨fun _ h => h, Nat.le_refl _⟩
    | exact ⟨fun _ h => h, Nat.le_succ _⟩
    | with_reducible assumption
    | (intro x; with_reducible refine Keeps.cut (o := z0) x ?_ ?_; dsimp only [x]; rotate_left; try clear_value x)
    | (intro x; try clear_value x)
    | with_reducible apply Keeps.ite
    | with_reducible apply Keeps.ite1
    | with_reducible apply Keeps.updCel
    | with_reducible apply Keeps.celEvt
    | with_reducible apply Keeps.logPut
    | with_reducible apply Keeps.set
    | ((first | rw [patch_eq] | skip); (with_reducible refine Keeps.patch ?_ ?_ ?_); rotate_left; (first | exact CelKeeps.refl _ | exact ⟨fun _ h => h, Nat.le_refl _⟩ | exact ⟨fun _ h => h, Nat.le_succ _⟩); (refine fun g => ?_; first | exact g | simpa only [SizesOk, Machine.patch, upd_length] using g | (simp only [SizesOk, Machine.patch, upd_length, List.length_map, List.length_replicate, true_and] at g ⊢; tauto)))

theorem Keeps.celCommit {z0 s : State} {t : Int} (hz : Keeps z0 s)  : Keeps z0 (Machine.celCommit t s) := by
  unfold Machine.celCommit
  try lift_lets
  repeat' first
    | exact CelKeeps.refl _
    | exact ⟨fun _ h => h, Nat.le_refl _⟩
    | exact ⟨fun _ h => h, Nat.le_succ _⟩
    | with_reducible assumption
    | (intro x; with_reducible refine Keeps.cut (o := z0) x ?_ ?_; dsimp only [x]; rotate_left; try clear_value x)
    | (intro x; try clear_value x)
    | with_reducible apply Keeps.ite
    | with_reducible apply Keeps.ite1
    | with_reducible apply Keeps.foldl
    | with_reducible apply Keeps.foldl1
    | with_reducible apply Keeps.updCel
    | with_reducible apply Keeps.celEvt
    | with_reducible apply Keeps.logWrite
    | with_reducible apply Keeps.logPut
    | with_reducible apply Keeps.commitSlot
    | with_reducible apply Keeps.readTemp
    | with_reducible apply Keeps.commitDefer
    | with_reducible apply Keeps.set
    | ((first | rw [patch_eq] | skip); (with_reducible refine Keeps.patch ?_ ?_ ?_); rotate_left; (first | exact CelKeeps.refl _ | exact ⟨fun _ h => h, Nat.le_refl _⟩ | exact ⟨fun _ h => h, Nat.le_succ _⟩); (refine fun g => ?_; first | exact g | simpa only [SizesOk, Machine.patch, upd_length] using g | (simp only [SizesOk, Machine.patch, upd_length, List.length_map, List.length_replicate, true_and] at g ⊢; tauto)))

theorem Keeps.commitAbandon {z0 s : State}  (hz : Keeps z0 s)  : Keeps z0 (Machine.commitAbandon s) := by
  unfold Machine.commitAbandon
  repeat' first
    | (refine fun (k : Cpu) (hk : CpuOk k) => (?_ : CpuOk _); first | exact hk | (simp only [CpuOk, upd_length] at *; simpa using hk) | (split <;> first | exact hk | (simp only [CpuOk, upd_length] at *; simpa using hk)))
    | exact CelKeeps.refl _
    | exact ⟨fun _ h => h, Nat.le_refl _⟩
    | exact ⟨fun _ h => h, Nat.le_succ _⟩
    | with_reducible assumption
    | (intro x; with_reducible refine Keeps.cut (o := z0) x ?_ ?_; dsimp only [x]; rotate_left; try clear_value x)
    | (intro x; with_reducible refine Keeps.cut1 (o := z0) x ?_ ?_; dsimp only [x]; rotate_left; try clear_value x)
    | (intro x; with_reducible refine Keeps.cutF x ?_; try dsimp only [x])
    | (intro x; try clear_value x)
    | with_reducible apply Keeps.ite
    | with_reducible apply Keeps.ite1
    | with_reducible apply Keeps.updCel
    | with_reducible apply Keeps.set
    | with_reducible apply Keeps.freeNext
    | ((first | rw [patch_eq] | skip); (with_reducible refine Keeps.patch ?_ ?_ ?_); rotate_left; (first | exact CelKeeps.refl _ | exact ⟨fun _ h => h, Nat.le_refl _⟩ | exact ⟨fun _ h => h, Nat.le_succ _⟩); (refine fun g => ?_; first | exact g | simpa only [SizesOk, Machine.patch, upd_length] using g | (simp only [SizesOk, Machine.patch, upd_length, List.length_map, List.length_replicate, true_and] at g ⊢; tauto)))
    | (fail_if_no_progress dsimp -zeta only)
    | split
    | lift_lets

theorem Keeps.supplyFall {z0 s : State} {t : Int} (hz : Keeps z0 s)  : Keeps z0 (Machine.supplyFall t s) := by
  unfold Machine.supplyFall
  try lift_lets
  repeat' first
    | (refine fun (k : Cpu) (hk : CpuOk k) => (?_ : CpuOk _); first | exact hk | (simp only [CpuOk, upd_length] at *; simpa using hk) | (split <;> first | exact hk | (simp only [CpuOk, upd_length] at *; simpa using hk)))
    | exact CelKeeps.refl _
    | exact ⟨fun _ h => h, Nat.le_refl _⟩
    | exact ⟨fun _ h => h, Nat.le_succ _⟩
    | with_reducible assumption
    | (intro x; with_reducible refine Keeps.cut (o := z0) x ?_ ?_; dsimp only [x]; rotate_left; try clear_value x)
    | (intro x; with_reducible refine Keeps.cut1 (o := z0) x ?_ ?_; dsimp only [x]; rotate_left; try clear_value x)
    | (intro x; with_reducible refine Keeps.cutF x ?_; try dsimp only [x])
    | (intro x; try clear_value x)
    | with_reducible apply Keeps.ite
    | with_reducible apply Keeps.ite1
    | with_reducible apply Keeps.updCel
    | with_reducible apply Keeps.commitSlot
    | with_reducible apply Keeps.readTemp
    | with_reducible apply Keeps.commitDefer
    | with_reducible apply Keeps.commitAbandon
    | ((first | rw [patch_eq] | skip); (with_reducible refine Keeps.patch ?_ ?_ ?_); rotate_left; (first | exact CelKeeps.refl _ | exact ⟨fun _ h => h, Nat.le_refl _⟩ | exact ⟨fun _ h => h, Nat.le_succ _⟩); (refine fun g => ?_; first | exact g | simpa only [SizesOk, Machine.patch, upd_length] using g | (simp only [SizesOk, Machine.patch, upd_length, List.length_map, List.length_replicate, true_and] at g ⊢; tauto)))
    | (fail_if_no_progress dsimp -zeta only)
    | split

theorem Keeps.ringPut {z0 s : State} {o : Nat} {bytes : List Byte} (hz : Keeps z0 s)  : Keeps z0 (Machine.ringPut o bytes s) := by
  unfold Machine.ringPut
  try lift_lets
  repeat' first
    | exact CelKeeps.refl _
    | exact ⟨fun _ h => h, Nat.le_refl _⟩
    | exact ⟨fun _ h => h, Nat.le_succ _⟩
    | with_reducible assumption
    | (intro x; try clear_value x)
    | with_reducible apply Keeps.foldl
    | with_reducible apply Keeps.foldl1
    | with_reducible apply Keeps.updCel
    | ((first | rw [patch_eq] | skip); (with_reducible refine Keeps.patch ?_ ?_ ?_); rotate_left; (first | exact CelKeeps.refl _ | exact ⟨fun _ h => h, Nat.le_refl _⟩ | exact ⟨fun _ h => h, Nat.le_succ _⟩); (refine fun g => ?_; first | exact g | simpa only [SizesOk, Machine.patch, upd_length] using g | (simp only [SizesOk, Machine.patch, upd_length, List.length_map, List.length_replicate, true_and] at g ⊢; tauto)))

theorem Keeps.celRecord {z0 s : State}  (hz : Keeps z0 s)  : Keeps z0 (Machine.celRecord s) := by
  unfold Machine.celRecord
  try lift_lets
  repeat' first
    | exact CelKeeps.refl _
    | exact ⟨fun _ h => h, Nat.le_refl _⟩
    | exact ⟨fun _ h => h, Nat.le_succ _⟩
    | with_reducible assumption
    | (intro x; with_reducible refine Keeps.cut (o := z0) x ?_ ?_; dsimp only [x]; rotate_left; try clear_value x)
    | (intro x; try clear_value x)
    | with_reducible apply Keeps.ite
    | with_reducible apply Keeps.ite1
    | with_reducible apply Keeps.updCel
    | with_reducible apply Keeps.ringPut
    | ((first | rw [patch_eq] | skip); (with_reducible refine Keeps.patch ?_ ?_ ?_); rotate_left; (first | exact CelKeeps.refl _ | exact ⟨fun _ h => h, Nat.le_refl _⟩ | exact ⟨fun _ h => h, Nat.le_succ _⟩); (refine fun g => ?_; first | exact g | simpa only [SizesOk, Machine.patch, upd_length] using g | (simp only [SizesOk, Machine.patch, upd_length, List.length_map, List.length_replicate, true_and] at g ⊢; tauto)))

theorem Keeps.celRecordDone {z0 s : State}  (hz : Keeps z0 s)  : Keeps z0 (Machine.celRecordDone s) := by
  unfold Machine.celRecordDone
  repeat' first
    | exact CelKeeps.refl _
    | exact ⟨fun _ h => h, Nat.le_refl _⟩
    | exact ⟨fun _ h => h, Nat.le_succ _⟩
    | with_reducible assumption
    | with_reducible apply Keeps.ite
    | with_reducible apply Keeps.ite1
    | with_reducible apply Keeps.updCel
    | with_reducible apply Keeps.celEvt
    | with_reducible apply Keeps.ringPut
    | with_reducible apply Keeps.wr
    | (fail_if_no_progress dsimp -zeta only)
    | split

theorem Keeps.celPowerOn {z0 s : State}  (hz : Keeps z0 s)  : Keeps z0 (Machine.celPowerOn s) := by
  unfold Machine.celPowerOn
  repeat' first
    | with_reducible assumption
    | (intro x; try clear_value x)
    | with_reducible apply Keeps.ite
    | with_reducible apply Keeps.ite1
    | with_reducible apply Keeps.forN
    | with_reducible apply Keeps.setCel
    | with_reducible apply Keeps.wr
    | with_reducible apply Keeps.set
    | (fail_if_no_progress dsimp -zeta only)
    | split

theorem Keeps.celStarted {z0 s : State}  (hz : Keeps z0 s)  : Keeps z0 (Machine.celStarted s) := by
  unfold Machine.celStarted
  repeat' first
    | exact CelKeeps.refl _
    | exact ⟨fun _ h => h, Nat.le_refl _⟩
    | exact ⟨fun _ h => h, Nat.le_succ _⟩
    | with_reducible assumption
    | (intro x; with_reducible refine Keeps.cut (o := z0) x ?_ ?_; dsimp only [x]; rotate_left; try clear_value x)
    | (intro x; try clear_value x)
    | with_reducible apply Keeps.ite
    | with_reducible apply Keeps.ite1
    | with_reducible apply Keeps.updCel
    | with_reducible apply Keeps.setCel
    | with_reducible apply Keeps.logPut
    | (fail_if_no_progress dsimp -zeta only)
    | split
    | lift_lets

theorem Keeps.celPowerLoss {z0 s : State} {met : Bool} (hz : Keeps z0 s)  : Keeps z0 (Machine.celPowerLoss met s) := by
  unfold Machine.celPowerLoss
  repeat' first
    | exact CelKeeps.refl _
    | exact ⟨fun _ h => h, Nat.le_refl _⟩
    | exact ⟨fun _ h => h, Nat.le_succ _⟩
    | with_reducible assumption
    | with_reducible apply Keeps.ite
    | with_reducible apply Keeps.ite1
    | with_reducible apply Keeps.cpuReset
    | with_reducible apply Keeps.updCel
    | with_reducible apply Keeps.celEvt
    | with_reducible apply Keeps.wr
    | with_reducible apply Keeps.set
    | with_reducible apply Keeps.dropRange
    | ((first | rw [patch_eq] | skip); (with_reducible refine Keeps.patch ?_ ?_ ?_); rotate_left; (first | exact CelKeeps.refl _ | exact ⟨fun _ h => h, Nat.le_refl _⟩ | exact ⟨fun _ h => h, Nat.le_succ _⟩); (refine fun g => ?_; first | exact g | simpa only [SizesOk, Machine.patch, upd_length] using g | (simp only [SizesOk, Machine.patch, upd_length, List.length_map, List.length_replicate, true_and] at g ⊢; tauto)))

theorem Keeps.celSeal {o s : State} {k : Seal} (h : Keeps o s) : Keeps o (Machine.celSeal k s) := by
  unfold Machine.celSeal
  split
  · exact h
  · next c =>
    refine Keeps.set (Keeps.set (Keeps.updCel h ⟨fun k' e => ?_, Nat.le_refl _⟩))
    simp [e] at c

theorem Keeps.resetCelWin {z0 s : State}  (hz : Keeps z0 s)  : Keeps z0 (Machine.resetCelWin s) := by
  unfold Machine.resetCelWin
  repeat' first
    | (refine fun (k : Cpu) (hk : CpuOk k) => (?_ : CpuOk _); first | exact hk | (simp only [CpuOk, upd_length] at *; simpa using hk) | (split <;> first | exact hk | (simp only [CpuOk, upd_length] at *; simpa using hk)))
    | exact CelKeeps.refl _
    | exact ⟨fun _ h => h, Nat.le_refl _⟩
    | exact ⟨fun _ h => h, Nat.le_succ _⟩
    | with_reducible assumption
    | (intro x; with_reducible refine Keeps.cut (o := z0) x ?_ ?_; dsimp only [x]; rotate_left; try clear_value x)
    | (intro x; with_reducible refine Keeps.cut1 (o := z0) x ?_ ?_; dsimp only [x]; rotate_left; try clear_value x)
    | (intro x; with_reducible refine Keeps.cutF x ?_; try dsimp only [x])
    | (intro x; try clear_value x)
    | with_reducible apply Keeps.updCel
    | with_reducible apply Keeps.wr
    | ((first | rw [patch_eq] | skip); (with_reducible refine Keeps.patch ?_ ?_ ?_); rotate_left; (first | exact CelKeeps.refl _ | exact ⟨fun _ h => h, Nat.le_refl _⟩ | exact ⟨fun _ h => h, Nat.le_succ _⟩); (refine fun g => ?_; first | exact g | simpa only [SizesOk, Machine.patch, upd_length] using g | (simp only [SizesOk, Machine.patch, upd_length, List.length_map, List.length_replicate, true_and] at g ⊢; tauto)))
    | (fail_if_no_progress dsimp -zeta only)
    | split

theorem Keeps.celWrite {z0 s : State} {q : Rq} {a : Nat} {w : Word} (hz : Keeps z0 s)  : Keeps z0 (Machine.celWrite q a w s) := by
  unfold Machine.celWrite
  repeat' first
    | with_reducible assumption
    | (intro x; try clear_value x)
    | with_reducible apply Keeps.ite
    | with_reducible apply Keeps.ite1
    | with_reducible apply Keeps.gated
    | with_reducible apply Keeps.plainWrite
    | with_reducible apply Keeps.ret

theorem Keeps.execRepeaterTick {s z : State}  (e : Machine.execRepeaterTick s = .next z) : Keeps s z := by
  have hz := Keeps.refl s
  revert e
  unfold Machine.execRepeaterTick
  first
    | (intro e; injection e with e; subst e; (repeat' first
         | with_reducible assumption
         | with_reducible apply Keeps.repeaterTickAll
         ); done)

theorem Keeps.execTxFrameStart {s z : State} {host : List Nat} (e : Machine.execTxFrameStart host s = .next z) : Keeps s z := by
  have hz := Keeps.refl s
  revert e
  unfold Machine.execTxFrameStart
  first
    | (intro e; injection e with e; subst e; (repeat' first
         | with_reducible assumption
         | with_reducible apply Keeps.txFrames
         ); done)

theorem Keeps.execCellarPowerOn {s z : State}  (e : Machine.execCellarPowerOn s = .next z) : Keeps s z := by
  have hz := Keeps.refl s
  revert e
  unfold Machine.execCellarPowerOn
  first
    | (intro e; injection e with e; subst e; (repeat' first
         | with_reducible assumption
         | with_reducible apply Keeps.celPowerOn
         ); done)

theorem Keeps.execCellarPowerLoss {s z : State} {met : Bool} (e : Machine.execCellarPowerLoss met s = .next z) : Keeps s z := by
  have hz := Keeps.refl s
  revert e
  unfold Machine.execCellarPowerLoss
  first
    | (intro e; injection e with e; subst e; (repeat' first
         | with_reducible assumption
         | with_reducible apply Keeps.celPowerLoss
         ); done)

theorem Keeps.execCellarStartDone {s z : State}  (e : Machine.execCellarStartDone s = .next z) : Keeps s z := by
  have hz := Keeps.refl s
  revert e
  unfold Machine.execCellarStartDone
  first
    | (intro e; injection e with e; subst e; (repeat' first
         | with_reducible assumption
         | with_reducible apply Keeps.celStarted
         ); done)

theorem Keeps.execCellarSeal {s z : State} {interval : Nat} {eth : List Nat} {scale : List Nat} {trim : Nat} {crc : Word} {ok : Bool} (e : Machine.execCellarSeal interval eth scale trim crc ok s = .next z) : Keeps s z := by
  have hz := Keeps.refl s
  revert e
  unfold Machine.execCellarSeal
  first
    | (intro e; injection e with e; subst e; (repeat' first
         | with_reducible assumption
         | with_reducible apply Keeps.celSeal
         ); done)

theorem Keeps.execCellarCommit {s z : State} {t : Int} (e : Machine.execCellarCommit t s = .next z) : Keeps s z := by
  have hz := Keeps.refl s
  revert e
  unfold Machine.execCellarCommit
  first
    | (intro e; injection e with e; subst e; (repeat' first
         | with_reducible assumption
         | with_reducible apply Keeps.celCommit
         ); done)

theorem Keeps.execCellarSupplyFall {s z : State} {t : Int} (e : Machine.execCellarSupplyFall t s = .next z) : Keeps s z := by
  have hz := Keeps.refl s
  revert e
  unfold Machine.execCellarSupplyFall
  first
    | (intro e; injection e with e; subst e; (repeat' first
         | with_reducible assumption
         | with_reducible apply Keeps.supplyFall
         ); done)

theorem Keeps.execCellarRecord {s z : State}  (e : Machine.execCellarRecord s = .next z) : Keeps s z := by
  have hz := Keeps.refl s
  revert e
  unfold Machine.execCellarRecord
  first
    | (intro e; injection e with e; subst e; (repeat' first
         | with_reducible assumption
         | with_reducible apply Keeps.celRecord
         ); done)

theorem Keeps.execCellarRecordComplete {s z : State}  (e : Machine.execCellarRecordComplete s = .next z) : Keeps s z := by
  have hz := Keeps.refl s
  revert e
  unfold Machine.execCellarRecordComplete
  first
    | (intro e; injection e with e; subst e; (repeat' first
         | with_reducible assumption
         | with_reducible apply Keeps.celRecordDone
         ); done)

theorem Keeps.execCelRecLineExpire {s z : State}  (e : Machine.execCelRecLineExpire s = .next z) : Keeps s z := by
  have hz := Keeps.refl s
  revert e
  unfold Machine.execCelRecLineExpire
  first
    | (intro e; injection e with e; subst e; (repeat' first
         | exact CelKeeps.refl _
         | exact ⟨fun _ h => h, Nat.le_refl _⟩
         | exact ⟨fun _ h => h, Nat.le_succ _⟩
         | with_reducible assumption
         | with_reducible apply Keeps.updCel
         | ((first | rw [patch_eq] | skip); (with_reducible refine Keeps.patch ?_ ?_ ?_); rotate_left; (first | exact CelKeeps.refl _ | exact ⟨fun _ h => h, Nat.le_refl _⟩ | exact ⟨fun _ h => h, Nat.le_succ _⟩); (refine fun g => ?_; first | exact g | simpa only [SizesOk, Machine.patch, upd_length] using g | (simp only [SizesOk, Machine.patch, upd_length, List.length_map, List.length_replicate, true_and] at g ⊢; tauto)))
         ); done)

theorem Keeps.execCellarTamperChange {s z : State} {high : Bool} {glitches : Nat} (e : Machine.execCellarTamperChange high glitches s = .next z) : Keeps s z := by
  have hz := Keeps.refl s
  revert e
  unfold Machine.execCellarTamperChange
  first
    | (intro e; injection e with e; subst e; (repeat' first
         | with_reducible assumption
         | with_reducible apply Keeps.tamperChange
         ); done)

theorem Keeps.execCellarWindowWrite {s z : State} {q : Rq} {o : Fin 65536} {w : Word} (e : Machine.execCellarWindowWrite q o w s = .next z) : Keeps s z := by
  have hz := Keeps.refl s
  revert e
  unfold Machine.execCellarWindowWrite
  first
    | (intro e; injection e with e; subst e; (repeat' first
         | with_reducible assumption
         | with_reducible apply Keeps.celWrite
         ); done)

end Sys2Proof.Machine
end

