-- ==== Sys2Proof/Laws/KeepRst.lean ====
section
/-! SUPPORT. What the operations of Rst.lean keep. -/

set_option linter.all false

namespace Sys2Proof.Machine

theorem Keeps.updRst {z0 s : State} {f : Rst → Rst} (hz : Keeps z0 s)  : Keeps z0 (Machine.updRst f s) := by
  unfold Machine.updRst
  exact Keeps.upd hz rfl rfl rfl rfl rfl (CelKeeps.refl _) rfl (fun g => by simp_all [SizesOk])

theorem Keeps.rstEvt {z0 s : State} {b : Nat} (hz : Keeps z0 s)  : Keeps z0 (Machine.rstEvt b s) := by
  unfold Machine.rstEvt
  repeat' first
    | with_reducible assumption
    | with_reducible apply Keeps.flag

theorem Keeps.setCauses {z0 s : State} {bits : List Nat} (hz : Keeps z0 s)  : Keeps z0 (Machine.setCauses bits s) := by
  unfold Machine.setCauses
  try lift_lets
  repeat' first
    | with_reducible assumption
    | (intro x; with_reducible refine Keeps.cut (o := z0) x ?_ ?_; dsimp only [x]; rotate_left; try clear_value x)
    | (intro x; with_reducible refine Keeps.cut1 (o := z0) x ?_ ?_; dsimp only [x]; rotate_left; try clear_value x)
    | (intro x; with_reducible refine Keeps.cutF x ?_; try dsimp only [x])
    | (intro x; try clear_value x)
    | with_reducible apply Keeps.ite
    | with_reducible apply Keeps.ite1
    | with_reducible apply Keeps.foldl
    | with_reducible apply Keeps.foldl1
    | with_reducible apply Keeps.updRst
    | with_reducible apply Keeps.set
    | ((first | rw [patch_eq] | skip); (with_reducible refine Keeps.patch ?_ ?_ ?_); rotate_left; (first | exact CelKeeps.refl _ | exact ⟨fun _ h => h, Nat.le_refl _⟩ | exact ⟨fun _ h => h, Nat.le_succ _⟩); (refine fun g => ?_; first | exact g | simpa only [SizesOk, Machine.patch, upd_length] using g | (simp only [SizesOk, Machine.patch, upd_length, List.length_map, List.length_replicate, true_and] at g ⊢; tauto)))
    | (fail_if_no_progress dsimp -zeta only)
    | split

theorem Keeps.wrRstCause {z0 s : State} {w : Word} (hz : Keeps z0 s)  : Keeps z0 (Machine.wrRstCause w s) := by
  unfold Machine.wrRstCause
  try lift_lets
  repeat' first
    | with_reducible assumption
    | (intro x; try clear_value x)
    | with_reducible apply Keeps.wr
    | with_reducible apply Keeps.set
    | with_reducible apply Keeps.ret

theorem Keeps.resetLane {z0 s : State} {n : Nat} (hz : Keeps z0 s)  : Keeps z0 (Machine.resetLane n s) := by
  unfold Machine.resetLane
  try lift_lets
  repeat' first
    | with_reducible assumption
    | (intro x; with_reducible refine Keeps.cut (o := z0) x ?_ ?_; dsimp only [x]; rotate_left; try clear_value x)
    | (intro x; try clear_value x)
    | with_reducible apply Keeps.framerLost
    | with_reducible apply Keeps.resetConv
    | with_reducible apply Keeps.resetDet
    | with_reducible apply Keeps.dropRange

theorem Keeps.resetFraming {z0 s : State}  (hz : Keeps z0 s)  : Keeps z0 (Machine.resetFraming s) := by
  unfold Machine.resetFraming
  repeat' first
    | with_reducible assumption
    | (intro x; try clear_value x)
    | with_reducible apply Keeps.ite
    | with_reducible apply Keeps.ite1
    | with_reducible apply Keeps.forN
    | with_reducible apply Keeps.setFstate
    | with_reducible apply Keeps.resetFrm

theorem Keeps.resetDma {z0 s : State}  (hz : Keeps z0 s)  : Keeps z0 (Machine.resetDma s) := by
  unfold Machine.resetDma
  repeat' first
    | with_reducible assumption
    | with_reducible apply Keeps.dropRange
    | ((first | rw [patch_eq] | skip); (with_reducible refine Keeps.patch ?_ ?_ ?_); rotate_left; (first | exact CelKeeps.refl _ | exact ⟨fun _ h => h, Nat.le_refl _⟩ | exact ⟨fun _ h => h, Nat.le_succ _⟩); (refine fun g => ?_; first | exact g | simpa only [SizesOk, Machine.patch, upd_length] using g | (simp only [SizesOk, Machine.patch, upd_length, List.length_map, List.length_replicate, true_and] at g ⊢; tauto)))

theorem Keeps.blockDown {z0 s : State} {own : Bool} {b : Nat} (hz : Keeps z0 s)  : Keeps z0 (Machine.blockDown own b s) := by
  unfold Machine.blockDown
  repeat' first
    | with_reducible assumption
    | with_reducible apply Keeps.ite
    | with_reducible apply Keeps.ite1
    | with_reducible apply Keeps.resetHost
    | with_reducible apply Keeps.resetRpt
    | with_reducible apply Keeps.resetLst
    | with_reducible apply Keeps.resetBnd
    | with_reducible apply Keeps.resetFen
    | with_reducible apply Keeps.resetSto
    | with_reducible apply Keeps.resetPmc
    | with_reducible apply Keeps.resetHkc
    | with_reducible apply Keeps.measFence
    | with_reducible apply Keeps.resetBst
    | with_reducible apply Keeps.resetSnk
    | with_reducible apply Keeps.resetLane
    | with_reducible apply Keeps.resetFraming
    | with_reducible apply Keeps.resetDma
    | (fail_if_no_progress dsimp -zeta only)
    | split

theorem Keeps.blockUp {z0 s : State} {b : Nat} (hz : Keeps z0 s)  : Keeps z0 (Machine.blockUp b s) := by
  unfold Machine.blockUp
  repeat' first
    | with_reducible assumption
    | (intro x; with_reducible refine Keeps.cut (o := z0) x ?_ ?_; dsimp only [x]; rotate_left; try clear_value x)
    | (intro x; with_reducible refine Keeps.cut1 (o := z0) x ?_ ?_; dsimp only [x]; rotate_left; try clear_value x)
    | (intro x; with_reducible refine Keeps.cutF x ?_; try dsimp only [x])
    | (intro x; try clear_value x)
    | with_reducible apply Keeps.ite
    | with_reducible apply Keeps.ite1
    | with_reducible apply Keeps.releaseRpt
    | with_reducible apply Keeps.reduceEval
    | with_reducible apply Keeps.releaseFrm
    | with_reducible apply Keeps.pairRelease
    | ((first | rw [patch_eq] | skip); (with_reducible refine Keeps.patch ?_ ?_ ?_); rotate_left; (first | exact CelKeeps.refl _ | exact ⟨fun _ h => h, Nat.le_refl _⟩ | exact ⟨fun _ h => h, Nat.le_succ _⟩); (refine fun g => ?_; first | exact g | simpa only [SizesOk, Machine.patch, upd_length] using g | (simp only [SizesOk, Machine.patch, upd_length, List.length_map, List.length_replicate, true_and] at g ⊢; tauto)))
    | (fail_if_no_progress dsimp -zeta only)
    | split

theorem Keeps.loadCut {z0 s : State}  (hz : Keeps z0 s)  : Keeps z0 (Machine.loadCut s) := by
  unfold Machine.loadCut
  repeat' first
    | with_reducible assumption
    | with_reducible apply Keeps.shelfLost
    | with_reducible apply Keeps.setLoad
    | (fail_if_no_progress dsimp -zeta only)
    | split

theorem Keeps.resetCores {z0 s : State}  (hz : Keeps z0 s)  : Keeps z0 (Machine.resetCores s) := by
  unfold Machine.resetCores
  repeat' first
    | with_reducible assumption
    | (intro x; with_reducible refine Keeps.cut (o := z0) x ?_ ?_; dsimp only [x]; rotate_left; try clear_value x)
    | (intro x; with_reducible refine Keeps.cut1 (o := z0) x ?_ ?_; dsimp only [x]; rotate_left; try clear_value x)
    | (intro x; with_reducible refine Keeps.cutF x ?_; try dsimp only [x])
    | (intro x; try clear_value x)
    | with_reducible apply Keeps.forN
    | with_reducible apply Keeps.cpuReset
    | with_reducible apply Keeps.resetCelWin
    | with_reducible apply Keeps.loadCut
    | (fail_if_no_progress dsimp -zeta only)
    | split

theorem Keeps.pwrCancel {z0 s : State}  (hz : Keeps z0 s)  : Keeps z0 (Machine.pwrCancel s) := by
  unfold Machine.pwrCancel
  try lift_lets
  repeat' first
    | exact fun _ _ e => e
    | (exact fun _ _ e => absurd (Eq.symm e) (Option.some_ne_none _))
    | with_reducible assumption
    | (intro x; with_reducible refine Keeps.cut (o := z0) x ?_ ?_; dsimp only [x]; rotate_left; try clear_value x)
    | (intro x; try clear_value x)
    | with_reducible apply Keeps.ite
    | with_reducible apply Keeps.ite1
    | with_reducible apply Keeps.updPwr
    | with_reducible apply Keeps.set
    | ((first | rw [patch_eq] | skip); (with_reducible refine Keeps.patch ?_ ?_ ?_); rotate_left; (first | exact CelKeeps.refl _ | exact ⟨fun _ h => h, Nat.le_refl _⟩ | exact ⟨fun _ h => h, Nat.le_succ _⟩); (refine fun g => ?_; first | exact g | simpa only [SizesOk, Machine.patch, upd_length] using g | (simp only [SizesOk, Machine.patch, upd_length, List.length_map, List.length_replicate, true_and] at g ⊢; tauto)))

theorem Keeps.resetWide {z0 s : State}  (hz : Keeps z0 s)  : Keeps z0 (Machine.resetWide s) := by
  unfold Machine.resetWide
  try lift_lets
  repeat' first
    | with_reducible assumption
    | (intro x; with_reducible refine Keeps.cut (o := z0) x ?_ ?_; dsimp only [x]; rotate_left; try clear_value x)
    | (intro x; with_reducible refine Keeps.cut1 (o := z0) x ?_ ?_; dsimp only [x]; rotate_left; try clear_value x)
    | (intro x; with_reducible refine Keeps.cutF x ?_; try dsimp only [x])
    | (intro x; try clear_value x)
    | with_reducible apply Keeps.foldl
    | with_reducible apply Keeps.foldl1
    | with_reducible apply Keeps.resetMem
    | with_reducible apply Keeps.resetEvr
    | with_reducible apply Keeps.resetClkout
    | with_reducible apply Keeps.resetOwn
    | with_reducible apply Keeps.romQuiet
    | with_reducible apply Keeps.blockDown
    | with_reducible apply Keeps.resetCores
    | with_reducible apply Keeps.pwrCancel
    | with_reducible apply Keeps.wr
    | (fail_if_no_progress dsimp -zeta only)
    | split

theorem Keeps.wideReset {z0 s : State} {causes : List Nat} (hz : Keeps z0 s)  : Keeps z0 (Machine.wideReset causes s) := by
  unfold Machine.wideReset
  try lift_lets
  repeat' first
    | with_reducible assumption
    | (intro x; with_reducible refine Keeps.cut (o := z0) x ?_ ?_; dsimp only [x]; rotate_left; try clear_value x)
    | (intro x; try clear_value x)
    | with_reducible apply Keeps.ite
    | with_reducible apply Keeps.ite1
    | with_reducible apply Keeps.updRst
    | with_reducible apply Keeps.setCauses
    | with_reducible apply Keeps.resetWide
    | ((first | rw [patch_eq] | skip); (with_reducible refine Keeps.patch ?_ ?_ ?_); rotate_left; (first | exact CelKeeps.refl _ | exact ⟨fun _ h => h, Nat.le_refl _⟩ | exact ⟨fun _ h => h, Nat.le_succ _⟩); (refine fun g => ?_; first | exact g | simpa only [SizesOk, Machine.patch, upd_length] using g | (simp only [SizesOk, Machine.patch, upd_length, List.length_map, List.length_replicate, true_and] at g ⊢; tauto)))

theorem Keeps.loadInterrupt {z0 s : State}  (hz : Keeps z0 s)  : Keeps z0 (Machine.loadInterrupt s) := by
  unfold Machine.loadInterrupt
  repeat' first
    | with_reducible assumption
    | with_reducible apply Keeps.ite
    | with_reducible apply Keeps.ite1
    | with_reducible apply Keeps.updRst
    | with_reducible apply Keeps.set
    | with_reducible apply Keeps.addSat
    | ((first | rw [patch_eq] | skip); (with_reducible refine Keeps.patch ?_ ?_ ?_); rotate_left; (first | exact CelKeeps.refl _ | exact ⟨fun _ h => h, Nat.le_refl _⟩ | exact ⟨fun _ h => h, Nat.le_succ _⟩); (refine fun g => ?_; first | exact g | simpa only [SizesOk, Machine.patch, upd_length] using g | (simp only [SizesOk, Machine.patch, upd_length, List.length_map, List.length_replicate, true_and] at g ⊢; tauto)))

theorem Keeps.resetCrp {z0 s : State}  (hz : Keeps z0 s)  : Keeps z0 (Machine.resetCrp s) := by
  unfold Machine.resetCrp
  try lift_lets
  repeat' first
    | with_reducible assumption
    | (intro x; try clear_value x)
    | with_reducible apply Keeps.set
    | with_reducible apply Keeps.dropRange

theorem Keeps.stillDie {o s : State} (h : Keeps o s) : Keeps o (Machine.stillDie s) :=
  h.upd rfl rfl rfl rfl rfl (CelKeeps.refl _) rfl (fun g => by
    simp only [SizesOk, Machine.stillDie, List.length_replicate, mergeOk_empty, true_and] at g ⊢; tauto)

theorem Keeps.resetDie {z0 s : State} {full : Bool} (hz : Keeps z0 s)  : Keeps z0 (Machine.resetDie full s) := by
  unfold Machine.resetDie
  try lift_lets
  repeat' first
    | (refine fun (k : Cpu) (hk : CpuOk k) => (?_ : CpuOk _); first | exact hk | (simp only [CpuOk, upd_length] at *; simpa using hk) | (split <;> first | exact hk | (simp only [CpuOk, upd_length] at *; simpa using hk)))
    | exact CelKeeps.refl _
    | exact ⟨fun _ h => h, Nat.le_refl _⟩
    | exact ⟨fun _ h => h, Nat.le_succ _⟩
    | with_reducible assumption
    | (intro x; with_reducible refine Keeps.cut (o := z0) x ?_ ?_; dsimp only [x]; rotate_left; try clear_value x)
    | (intro x; with_reducible refine Keeps.cut1 (o := z0) x ?_ ?_; dsimp only [x]; rotate_left; try clear_value x)
    | (intro x; with_reducible refine Keeps.cutF x ?_; try dsimp only [x])
    | (intro x; try clear_value x)
    | with_reducible apply Keeps.forN
    | with_reducible apply Keeps.forceOff
    | with_reducible apply Keeps.resetRpt
    | with_reducible apply Keeps.resetLst
    | with_reducible apply Keeps.resetBnd
    | with_reducible apply Keeps.resetFen
    | with_reducible apply Keeps.resetMem
    | with_reducible apply Keeps.resetSto
    | with_reducible apply Keeps.cpuReset
    | with_reducible apply Keeps.setLoad
    | with_reducible apply Keeps.resetEvr
    | with_reducible apply Keeps.resetPmc
    | with_reducible apply Keeps.resetClkout
    | with_reducible apply Keeps.resetHkc
    | with_reducible apply Keeps.resetGrd
    | with_reducible apply Keeps.resetOwn
    | with_reducible apply Keeps.resetBstFull
    | with_reducible apply Keeps.romQuiet
    | with_reducible apply Keeps.resetSnk
    | with_reducible apply Keeps.resetCelWin
    | with_reducible apply Keeps.resetDma
    | with_reducible apply Keeps.blockDown
    | with_reducible apply Keeps.pwrCancel
    | with_reducible apply Keeps.stillDie
    | with_reducible apply Keeps.wr
    | with_reducible apply Keeps.set
    | with_reducible apply Keeps.updCpu
    | ((first | rw [patch_eq] | skip); (with_reducible refine Keeps.patch ?_ ?_ ?_); rotate_left; (first | exact CelKeeps.refl _ | exact ⟨fun _ h => h, Nat.le_refl _⟩ | exact ⟨fun _ h => h, Nat.le_succ _⟩); (refine fun g => ?_; first | exact g | simpa only [SizesOk, Machine.patch, upd_length] using g | (simp only [SizesOk, Machine.patch, upd_length, List.length_map, List.length_replicate, true_and] at g ⊢; tauto)))
    | (fail_if_no_progress dsimp -zeta only)
    | split

theorem Keeps.resetFull {z0 s : State}  (hz : Keeps z0 s)  : Keeps z0 (Machine.resetFull s) := by
  unfold Machine.resetFull
  try lift_lets
  repeat' first
    | with_reducible assumption
    | (intro x; with_reducible refine Keeps.cut (o := z0) x ?_ ?_; dsimp only [x]; rotate_left; try clear_value x)
    | (intro x; with_reducible refine Keeps.cut1 (o := z0) x ?_ ?_; dsimp only [x]; rotate_left; try clear_value x)
    | (intro x; with_reducible refine Keeps.cutF x ?_; try dsimp only [x])
    | (intro x; try clear_value x)
    | with_reducible apply Keeps.portsFenced
    | with_reducible apply Keeps.resetClk
    | with_reducible apply Keeps.resetPwr
    | with_reducible apply Keeps.updRst
    | with_reducible apply Keeps.resetCrp
    | with_reducible apply Keeps.resetDie
    | ((first | rw [patch_eq] | skip); (with_reducible refine Keeps.patch ?_ ?_ ?_); rotate_left; (first | exact CelKeeps.refl _ | exact ⟨fun _ h => h, Nat.le_refl _⟩ | exact ⟨fun _ h => h, Nat.le_succ _⟩); (refine fun g => ?_; first | exact g | simpa only [SizesOk, Machine.patch, upd_length] using g | (simp only [SizesOk, Machine.patch, upd_length, List.length_map, List.length_replicate, true_and] at g ⊢; tauto)))
    | (fail_if_no_progress dsimp -zeta only)
    | split

theorem Keeps.fullReset {z0 s : State} {cause : Nat} {hold : Rst → Rst} (hz : Keeps z0 s)  : Keeps z0 (Machine.fullReset cause hold s) := by
  unfold Machine.fullReset
  try lift_lets
  repeat' first
    | with_reducible assumption
    | (intro x; with_reducible refine Keeps.cut (o := z0) x ?_ ?_; dsimp only [x]; rotate_left; try clear_value x)
    | (intro x; try clear_value x)
    | with_reducible apply Keeps.updRst
    | with_reducible apply Keeps.setCauses
    | with_reducible apply Keeps.loadInterrupt
    | ((first | rw [patch_eq] | skip); (with_reducible refine Keeps.patch ?_ ?_ ?_); rotate_left; (first | exact CelKeeps.refl _ | exact ⟨fun _ h => h, Nat.le_refl _⟩ | exact ⟨fun _ h => h, Nat.le_succ _⟩); (refine fun g => ?_; first | exact g | simpa only [SizesOk, Machine.patch, upd_length] using g | (simp only [SizesOk, Machine.patch, upd_length, List.length_map, List.length_replicate, true_and] at g ⊢; tauto)))

theorem Keeps.bootStart {z0 s : State}  (hz : Keeps z0 s)  : Keeps z0 (Machine.bootStart s) := by
  unfold Machine.bootStart
  try lift_lets
  repeat' first
    | with_reducible assumption
    | (intro x; with_reducible refine Keeps.cut (o := z0) x ?_ ?_; dsimp only [x]; rotate_left; try clear_value x)
    | (intro x; try clear_value x)
    | with_reducible apply Keeps.ite
    | with_reducible apply Keeps.ite1
    | with_reducible apply Keeps.forN
    | with_reducible apply Keeps.sampleStraps
    | with_reducible apply Keeps.updRst
    | with_reducible apply Keeps.blockUp
    | ((first | rw [patch_eq] | skip); (with_reducible refine Keeps.patch ?_ ?_ ?_); rotate_left; (first | exact CelKeeps.refl _ | exact ⟨fun _ h => h, Nat.le_refl _⟩ | exact ⟨fun _ h => h, Nat.le_succ _⟩); (refine fun g => ?_; first | exact g | simpa only [SizesOk, Machine.patch, upd_length] using g | (simp only [SizesOk, Machine.patch, upd_length, List.length_map, List.length_replicate, true_and] at g ⊢; tauto)))

theorem Keeps.pinRelease {z0 s : State}  (hz : Keeps z0 s)  : Keeps z0 (Machine.pinRelease s) := by
  unfold Machine.pinRelease
  repeat' first
    | with_reducible assumption
    | (intro x; with_reducible refine Keeps.cut (o := z0) x ?_ ?_; dsimp only [x]; rotate_left; try clear_value x)
    | (intro x; with_reducible refine Keeps.cut1 (o := z0) x ?_ ?_; dsimp only [x]; rotate_left; try clear_value x)
    | (intro x; with_reducible refine Keeps.cutF x ?_; try dsimp only [x])
    | (intro x; try clear_value x)
    | with_reducible apply Keeps.ite
    | with_reducible apply Keeps.ite1
    | with_reducible apply Keeps.sampleStraps
    | with_reducible apply Keeps.bootStart
    | (fail_if_no_progress dsimp -zeta only)
    | split

theorem Keeps.porAssert {z0 s : State}  (hz : Keeps z0 s)  : Keeps z0 (Machine.porAssert s) := by
  unfold Machine.porAssert
  try lift_lets
  repeat' first
    | with_reducible assumption
    | (intro x; with_reducible refine Keeps.cut (o := z0) x ?_ ?_; dsimp only [x]; rotate_left; try clear_value x)
    | (intro x; try clear_value x)
    | with_reducible apply Keeps.resetFull
    | with_reducible apply Keeps.fullReset
    | with_reducible apply Keeps.wr
    | ((first | rw [patch_eq] | skip); (with_reducible refine Keeps.patch ?_ ?_ ?_); rotate_left; (first | exact CelKeeps.refl _ | exact ⟨fun _ h => h, Nat.le_refl _⟩ | exact ⟨fun _ h => h, Nat.le_succ _⟩); (refine fun g => ?_; first | exact g | simpa only [SizesOk, Machine.patch, upd_length] using g | (simp only [SizesOk, Machine.patch, upd_length, List.length_map, List.length_replicate, true_and] at g ⊢; tauto)))

theorem Keeps.porRelease {z0 s : State}  (hz : Keeps z0 s)  : Keeps z0 (Machine.porRelease s) := by
  unfold Machine.porRelease
  repeat' first
    | with_reducible assumption
    | (intro x; with_reducible refine Keeps.cut (o := z0) x ?_ ?_; dsimp only [x]; rotate_left; try clear_value x)
    | (intro x; with_reducible refine Keeps.cut1 (o := z0) x ?_ ?_; dsimp only [x]; rotate_left; try clear_value x)
    | (intro x; with_reducible refine Keeps.cutF x ?_; try dsimp only [x])
    | (intro x; try clear_value x)
    | with_reducible apply Keeps.ite
    | with_reducible apply Keeps.ite1
    | with_reducible apply Keeps.updRst
    | with_reducible apply Keeps.pinRelease
    | ((first | rw [patch_eq] | skip); (with_reducible refine Keeps.patch ?_ ?_ ?_); rotate_left; (first | exact CelKeeps.refl _ | exact ⟨fun _ h => h, Nat.le_refl _⟩ | exact ⟨fun _ h => h, Nat.le_succ _⟩); (refine fun g => ?_; first | exact g | simpa only [SizesOk, Machine.patch, upd_length] using g | (simp only [SizesOk, Machine.patch, upd_length, List.length_map, List.length_replicate, true_and] at g ⊢; tauto)))
    | (fail_if_no_progress dsimp -zeta only)
    | split

theorem Keeps.resetNAssert {z0 s : State}  (hz : Keeps z0 s)  : Keeps z0 (Machine.resetNAssert s) := by
  unfold Machine.resetNAssert
  repeat' first
    | with_reducible assumption
    | with_reducible apply Keeps.resetFull
    | with_reducible apply Keeps.fullReset
    | ((first | rw [patch_eq] | skip); (with_reducible refine Keeps.patch ?_ ?_ ?_); rotate_left; (first | exact CelKeeps.refl _ | exact ⟨fun _ h => h, Nat.le_refl _⟩ | exact ⟨fun _ h => h, Nat.le_succ _⟩); (refine fun g => ?_; first | exact g | simpa only [SizesOk, Machine.patch, upd_length] using g | (simp only [SizesOk, Machine.patch, upd_length, List.length_map, List.length_replicate, true_and] at g ⊢; tauto)))

theorem Keeps.resetNRelease {z0 s : State}  (hz : Keeps z0 s)  : Keeps z0 (Machine.resetNRelease s) := by
  unfold Machine.resetNRelease
  repeat' first
    | with_reducible assumption
    | (intro x; with_reducible refine Keeps.cut (o := z0) x ?_ ?_; dsimp only [x]; rotate_left; try clear_value x)
    | (intro x; with_reducible refine Keeps.cut1 (o := z0) x ?_ ?_; dsimp only [x]; rotate_left; try clear_value x)
    | (intro x; with_reducible refine Keeps.cutF x ?_; try dsimp only [x])
    | (intro x; try clear_value x)
    | with_reducible apply Keeps.ite
    | with_reducible apply Keeps.ite1
    | with_reducible apply Keeps.updRst
    | with_reducible apply Keeps.pinRelease
    | ((first | rw [patch_eq] | skip); (with_reducible refine Keeps.patch ?_ ?_ ?_); rotate_left; (first | exact CelKeeps.refl _ | exact ⟨fun _ h => h, Nat.le_refl _⟩ | exact ⟨fun _ h => h, Nat.le_succ _⟩); (refine fun g => ?_; first | exact g | simpa only [SizesOk, Machine.patch, upd_length] using g | (simp only [SizesOk, Machine.patch, upd_length, List.length_map, List.length_replicate, true_and] at g ⊢; tauto)))
    | (fail_if_no_progress dsimp -zeta only)
    | split

theorem Keeps.aonReset {z0 s : State}  (hz : Keeps z0 s)  : Keeps z0 (Machine.aonReset s) := by
  unfold Machine.aonReset
  try lift_lets
  repeat' first
    | with_reducible assumption
    | (intro x; with_reducible refine Keeps.cut (o := z0) x ?_ ?_; dsimp only [x]; rotate_left; try clear_value x)
    | (intro x; try clear_value x)
    | with_reducible apply Keeps.updClk
    | with_reducible apply Keeps.wr
    | with_reducible apply Keeps.set
    | ((first | rw [patch_eq] | skip); (with_reducible refine Keeps.patch ?_ ?_ ?_); rotate_left; (first | exact CelKeeps.refl _ | exact ⟨fun _ h => h, Nat.le_refl _⟩ | exact ⟨fun _ h => h, Nat.le_succ _⟩); (refine fun g => ?_; first | exact g | simpa only [SizesOk, Machine.patch, upd_length] using g | (simp only [SizesOk, Machine.patch, upd_length, List.length_map, List.length_replicate, true_and] at g ⊢; tauto)))

theorem Keeps.nofoscStart {z0 s : State}  (hz : Keeps z0 s)  : Keeps z0 (Machine.nofoscStart s) := by
  unfold Machine.nofoscStart
  repeat' first
    | with_reducible assumption
    | (intro x; with_reducible refine Keeps.cut (o := z0) x ?_ ?_; dsimp only [x]; rotate_left; try clear_value x)
    | (intro x; with_reducible refine Keeps.cut1 (o := z0) x ?_ ?_; dsimp only [x]; rotate_left; try clear_value x)
    | (intro x; with_reducible refine Keeps.cutF x ?_; try dsimp only [x])
    | (intro x; try clear_value x)
    | with_reducible apply Keeps.ite
    | with_reducible apply Keeps.ite1
    | with_reducible apply Keeps.updClk
    | with_reducible apply Keeps.swReached
    | with_reducible apply Keeps.set
    | ((first | rw [patch_eq] | skip); (with_reducible refine Keeps.patch ?_ ?_ ?_); rotate_left; (first | exact CelKeeps.refl _ | exact ⟨fun _ h => h, Nat.le_refl _⟩ | exact ⟨fun _ h => h, Nat.le_succ _⟩); (refine fun g => ?_; first | exact g | simpa only [SizesOk, Machine.patch, upd_length] using g | (simp only [SizesOk, Machine.patch, upd_length, List.length_map, List.length_replicate, true_and] at g ⊢; tauto)))
    | (fail_if_no_progress dsimp -zeta only)
    | split

theorem Keeps.blkFree {z0 s : State} {b : Nat} (hz : Keeps z0 s)  : Keeps z0 (Machine.blkFree b s) := by
  unfold Machine.blkFree
  try lift_lets
  repeat' first
    | with_reducible assumption
    | (intro x; with_reducible refine Keeps.cut (o := z0) x ?_ ?_; dsimp only [x]; rotate_left; try clear_value x)
    | (intro x; with_reducible refine Keeps.cut1 (o := z0) x ?_ ?_; dsimp only [x]; rotate_left; try clear_value x)
    | (intro x; with_reducible refine Keeps.cutF x ?_; try dsimp only [x])
    | (intro x; try clear_value x)
    | with_reducible apply Keeps.updRst
    | with_reducible apply Keeps.rstEvt
    | with_reducible apply Keeps.blockUp
    | with_reducible apply Keeps.set
    | ((first | rw [patch_eq] | skip); (with_reducible refine Keeps.patch ?_ ?_ ?_); rotate_left; (first | exact CelKeeps.refl _ | exact ⟨fun _ h => h, Nat.le_refl _⟩ | exact ⟨fun _ h => h, Nat.le_succ _⟩); (refine fun g => ?_; first | exact g | simpa only [SizesOk, Machine.patch, upd_length] using g | (simp only [SizesOk, Machine.patch, upd_length, List.length_map, List.length_replicate, true_and] at g ⊢; tauto)))
    | (fail_if_no_progress dsimp -zeta only)
    | split

theorem Keeps.wideRelease {z0 s : State}  (hz : Keeps z0 s)  : Keeps z0 (Machine.wideRelease s) := by
  unfold Machine.wideRelease
  try lift_lets
  repeat' first
    | with_reducible assumption
    | (intro x; with_reducible refine Keeps.cut (o := z0) x ?_ ?_; dsimp only [x]; rotate_left; try clear_value x)
    | (intro x; with_reducible refine Keeps.cut1 (o := z0) x ?_ ?_; dsimp only [x]; rotate_left; try clear_value x)
    | (intro x; with_reducible refine Keeps.cutF x ?_; try dsimp only [x])
    | (intro x; try clear_value x)
    | with_reducible apply Keeps.ite
    | with_reducible apply Keeps.ite1
    | with_reducible apply Keeps.forN
    | with_reducible apply Keeps.romStart
    | with_reducible apply Keeps.updRst
    | with_reducible apply Keeps.blockUp
    | with_reducible apply Keeps.blkFree
    | ((first | rw [patch_eq] | skip); (with_reducible refine Keeps.patch ?_ ?_ ?_); rotate_left; (first | exact CelKeeps.refl _ | exact ⟨fun _ h => h, Nat.le_refl _⟩ | exact ⟨fun _ h => h, Nat.le_succ _⟩); (refine fun g => ?_; first | exact g | simpa only [SizesOk, Machine.patch, upd_length] using g | (simp only [SizesOk, Machine.patch, upd_length, List.length_map, List.length_replicate, true_and] at g ⊢; tauto)))
    | (fail_if_no_progress dsimp -zeta only)
    | split

theorem Keeps.nofoscRelease {z0 s : State}  (hz : Keeps z0 s)  : Keeps z0 (Machine.nofoscRelease s) := by
  unfold Machine.nofoscRelease
  repeat' first
    | with_reducible assumption
    | with_reducible apply Keeps.ite
    | with_reducible apply Keeps.ite1
    | with_reducible apply Keeps.updRst
    | with_reducible apply Keeps.bootStart
    | with_reducible apply Keeps.nofoscStart
    | with_reducible apply Keeps.wideRelease
    | ((first | rw [patch_eq] | skip); (with_reducible refine Keeps.patch ?_ ?_ ?_); rotate_left; (first | exact CelKeeps.refl _ | exact ⟨fun _ h => h, Nat.le_refl _⟩ | exact ⟨fun _ h => h, Nat.le_succ _⟩); (refine fun g => ?_; first | exact g | simpa only [SizesOk, Machine.patch, upd_length] using g | (simp only [SizesOk, Machine.patch, upd_length, List.length_map, List.length_replicate, true_and] at g ⊢; tauto)))

theorem Keeps.nofoscReset {z0 s : State}  (hz : Keeps z0 s)  : Keeps z0 (Machine.nofoscReset s) := by
  unfold Machine.nofoscReset
  try lift_lets
  repeat' first
    | with_reducible assumption
    | (intro x; with_reducible refine Keeps.cut (o := z0) x ?_ ?_; dsimp only [x]; rotate_left; try clear_value x)
    | (intro x; with_reducible refine Keeps.cut1 (o := z0) x ?_ ?_; dsimp only [x]; rotate_left; try clear_value x)
    | (intro x; with_reducible refine Keeps.cutF x ?_; try dsimp only [x])
    | (intro x; try clear_value x)
    | with_reducible apply Keeps.ite
    | with_reducible apply Keeps.ite1
    | with_reducible apply Keeps.portsFenced
    | with_reducible apply Keeps.swAbort
    | with_reducible apply Keeps.updRst
    | with_reducible apply Keeps.wideReset
    | with_reducible apply Keeps.resetDie
    | with_reducible apply Keeps.fullReset
    | with_reducible apply Keeps.nofoscRelease
    | ((first | rw [patch_eq] | skip); (with_reducible refine Keeps.patch ?_ ?_ ?_); rotate_left; (first | exact CelKeeps.refl _ | exact ⟨fun _ h => h, Nat.le_refl _⟩ | exact ⟨fun _ h => h, Nat.le_succ _⟩); (refine fun g => ?_; first | exact g | simpa only [SizesOk, Machine.patch, upd_length] using g | (simp only [SizesOk, Machine.patch, upd_length, List.length_map, List.length_replicate, true_and] at g ⊢; tauto)))
    | (fail_if_no_progress dsimp -zeta only)
    | split

theorem Keeps.wideTimeout {z0 s : State}  (hz : Keeps z0 s)  : Keeps z0 (Machine.wideTimeout s) := by
  unfold Machine.wideTimeout
  repeat' first
    | with_reducible assumption
    | with_reducible apply Keeps.ite
    | with_reducible apply Keeps.ite1
    | with_reducible apply Keeps.wideRelease

theorem Keeps.blkSet {z0 s : State} {b : Nat} (hz : Keeps z0 s)  : Keeps z0 (Machine.blkSet b s) := by
  unfold Machine.blkSet
  try lift_lets
  repeat' first
    | with_reducible assumption
    | (intro x; with_reducible refine Keeps.cut (o := z0) x ?_ ?_; dsimp only [x]; rotate_left; try clear_value x)
    | (intro x; try clear_value x)
    | with_reducible apply Keeps.ite
    | with_reducible apply Keeps.ite1
    | with_reducible apply Keeps.updRst
    | with_reducible apply Keeps.blockDown
    | with_reducible apply Keeps.set
    | ((first | rw [patch_eq] | skip); (with_reducible refine Keeps.patch ?_ ?_ ?_); rotate_left; (first | exact CelKeeps.refl _ | exact ⟨fun _ h => h, Nat.le_refl _⟩ | exact ⟨fun _ h => h, Nat.le_succ _⟩); (refine fun g => ?_; first | exact g | simpa only [SizesOk, Machine.patch, upd_length] using g | (simp only [SizesOk, Machine.patch, upd_length, List.length_map, List.length_replicate, true_and] at g ⊢; tauto)))

theorem Keeps.blkRelease {z0 s : State} {b : Nat} (hz : Keeps z0 s)  : Keeps z0 (Machine.blkRelease b s) := by
  unfold Machine.blkRelease
  repeat' first
    | with_reducible assumption
    | (intro x; with_reducible refine Keeps.cut (o := z0) x ?_ ?_; dsimp only [x]; rotate_left; try clear_value x)
    | (intro x; with_reducible refine Keeps.cut1 (o := z0) x ?_ ?_; dsimp only [x]; rotate_left; try clear_value x)
    | (intro x; with_reducible refine Keeps.cutF x ?_; try dsimp only [x])
    | (intro x; try clear_value x)
    | with_reducible apply Keeps.ite
    | with_reducible apply Keeps.ite1
    | with_reducible apply Keeps.updRst
    | with_reducible apply Keeps.blkFree
    | ((first | rw [patch_eq] | skip); (with_reducible refine Keeps.patch ?_ ?_ ?_); rotate_left; (first | exact CelKeeps.refl _ | exact ⟨fun _ h => h, Nat.le_refl _⟩ | exact ⟨fun _ h => h, Nat.le_succ _⟩); (refine fun g => ?_; first | exact g | simpa only [SizesOk, Machine.patch, upd_length] using g | (simp only [SizesOk, Machine.patch, upd_length, List.length_map, List.length_replicate, true_and] at g ⊢; tauto)))
    | (fail_if_no_progress dsimp -zeta only)
    | split

theorem Keeps.blkClear {z0 s : State} {b : Nat} (hz : Keeps z0 s)  : Keeps z0 (Machine.blkClear b s) := by
  unfold Machine.blkClear
  try lift_lets
  repeat' first
    | with_reducible assumption
    | (intro x; with_reducible refine Keeps.cut (o := z0) x ?_ ?_; dsimp only [x]; rotate_left; try clear_value x)
    | (intro x; try clear_value x)
    | with_reducible apply Keeps.ite
    | with_reducible apply Keeps.ite1
    | with_reducible apply Keeps.updRst
    | with_reducible apply Keeps.blkRelease
    | ((first | rw [patch_eq] | skip); (with_reducible refine Keeps.patch ?_ ?_ ?_); rotate_left; (first | exact CelKeeps.refl _ | exact ⟨fun _ h => h, Nat.le_refl _⟩ | exact ⟨fun _ h => h, Nat.le_succ _⟩); (refine fun g => ?_; first | exact g | simpa only [SizesOk, Machine.patch, upd_length] using g | (simp only [SizesOk, Machine.patch, upd_length, List.length_map, List.length_replicate, true_and] at g ⊢; tauto)))

theorem Keeps.wrBlkRst {z0 s : State} {w : Word} (hz : Keeps z0 s)  : Keeps z0 (Machine.wrBlkRst w s) := by
  unfold Machine.wrBlkRst
  try lift_lets
  repeat' first
    | with_reducible assumption
    | (intro x; with_reducible refine Keeps.cut (o := z0) x ?_ ?_; dsimp only [x]; rotate_left; try clear_value x)
    | (intro x; try clear_value x)
    | with_reducible apply Keeps.ite
    | with_reducible apply Keeps.ite1
    | with_reducible apply Keeps.forN
    | with_reducible apply Keeps.blkSet
    | with_reducible apply Keeps.blkClear
    | with_reducible apply Keeps.store
    | with_reducible apply Keeps.ret

theorem Keeps.atticValues {z0 s : State}  (hz : Keeps z0 s)  : Keeps z0 (Machine.atticValues s) := by
  unfold Machine.atticValues
  try lift_lets
  repeat' first
    | with_reducible assumption
    | (intro x; with_reducible refine Keeps.cut (o := z0) x ?_ ?_; dsimp only [x]; rotate_left; try clear_value x)
    | (intro x; try clear_value x)
    | with_reducible apply Keeps.ite
    | with_reducible apply Keeps.ite1
    | with_reducible apply Keeps.forN
    | with_reducible apply Keeps.pinsZero
    | with_reducible apply Keeps.ownAttic
    | with_reducible apply Keeps.atticPair
    | with_reducible apply Keeps.set
    | with_reducible apply Keeps.seti

theorem Keeps.atticDone {z0 s : State}  (hz : Keeps z0 s)  : Keeps z0 (Machine.atticDone s) := by
  unfold Machine.atticDone
  try lift_lets
  repeat' first
    | with_reducible assumption
    | (intro x; with_reducible refine Keeps.cut (o := z0) x ?_ ?_; dsimp only [x]; rotate_left; try clear_value x)
    | (intro x; try clear_value x)
    | with_reducible apply Keeps.ite
    | with_reducible apply Keeps.ite1
    | with_reducible apply Keeps.forN
    | with_reducible apply Keeps.forceOn
    | with_reducible apply Keeps.updOwn
    | with_reducible apply Keeps.updRst
    | with_reducible apply Keeps.atticValues
    | with_reducible apply Keeps.set
    | ((first | rw [patch_eq] | skip); (with_reducible refine Keeps.patch ?_ ?_ ?_); rotate_left; (first | exact CelKeeps.refl _ | exact ⟨fun _ h => h, Nat.le_refl _⟩ | exact ⟨fun _ h => h, Nat.le_succ _⟩); (refine fun g => ?_; first | exact g | simpa only [SizesOk, Machine.patch, upd_length] using g | (simp only [SizesOk, Machine.patch, upd_length, List.length_map, List.length_replicate, true_and] at g ⊢; tauto)))

theorem Keeps.atticWarn {z0 s : State}  (hz : Keeps z0 s)  : Keeps z0 (Machine.atticWarn s) := by
  unfold Machine.atticWarn
  repeat' first
    | with_reducible assumption
    | with_reducible apply Keeps.ite
    | with_reducible apply Keeps.ite1
    | with_reducible apply Keeps.rstEvt

theorem Keeps.scRelease {z0 s : State}  (hz : Keeps z0 s)  : Keeps z0 (Machine.scRelease s) := by
  unfold Machine.scRelease
  repeat' first
    | with_reducible assumption
    | with_reducible apply Keeps.ite
    | with_reducible apply Keeps.ite1
    | with_reducible apply Keeps.romStart
    | with_reducible apply Keeps.updRst
    | with_reducible apply Keeps.atticWarn
    | ((first | rw [patch_eq] | skip); (with_reducible refine Keeps.patch ?_ ?_ ?_); rotate_left; (first | exact CelKeeps.refl _ | exact ⟨fun _ h => h, Nat.le_refl _⟩ | exact ⟨fun _ h => h, Nat.le_succ _⟩); (refine fun g => ?_; first | exact g | simpa only [SizesOk, Machine.patch, upd_length] using g | (simp only [SizesOk, Machine.patch, upd_length, List.length_map, List.length_replicate, true_and] at g ⊢; tauto)))

theorem Keeps.safeLevels {z0 s : State}  (hz : Keeps z0 s)  : Keeps z0 (Machine.safeLevels s) := by
  unfold Machine.safeLevels
  try lift_lets
  repeat' first
    | with_reducible assumption
    | (intro x; try clear_value x)
    | with_reducible apply Keeps.rfcShow
    | with_reducible apply Keeps.wr

theorem Keeps.lockstep {z0 s : State}  (hz : Keeps z0 s)  : Keeps z0 (Machine.lockstep s) := by
  unfold Machine.lockstep
  repeat' first
    | with_reducible assumption
    | (intro x; with_reducible refine Keeps.cut (o := z0) x ?_ ?_; dsimp only [x]; rotate_left; try clear_value x)
    | (intro x; with_reducible refine Keeps.cut1 (o := z0) x ?_ ?_; dsimp only [x]; rotate_left; try clear_value x)
    | (intro x; with_reducible refine Keeps.cutF x ?_; try dsimp only [x])
    | (intro x; try clear_value x)
    | with_reducible apply Keeps.ite
    | with_reducible apply Keeps.ite1
    | with_reducible apply Keeps.raise
    | with_reducible apply Keeps.cpuReset
    | with_reducible apply Keeps.loadAbort
    | with_reducible apply Keeps.portDrain
    | with_reducible apply Keeps.romStart
    | with_reducible apply Keeps.wideReset
    | with_reducible apply Keeps.wr
    | with_reducible apply Keeps.set
    | with_reducible apply Keeps.addSat
    | ((first | rw [patch_eq] | skip); (with_reducible refine Keeps.patch ?_ ?_ ?_); rotate_left; (first | exact CelKeeps.refl _ | exact ⟨fun _ h => h, Nat.le_refl _⟩ | exact ⟨fun _ h => h, Nat.le_succ _⟩); (refine fun g => ?_; first | exact g | simpa only [SizesOk, Machine.patch, upd_length] using g | (simp only [SizesOk, Machine.patch, upd_length, List.length_map, List.length_replicate, true_and] at g ⊢; tauto)))
    | (fail_if_no_progress dsimp -zeta only)
    | split
    | lift_lets

theorem Keeps.wdReset {z0 s : State}  (hz : Keeps z0 s)  : Keeps z0 (Machine.wdReset s) := by
  unfold Machine.wdReset
  repeat' first
    | with_reducible assumption
    | with_reducible apply Keeps.ite
    | with_reducible apply Keeps.ite1
    | with_reducible apply Keeps.wideReset

theorem Keeps.wrCmdReset {z0 s : State} {w : Word} (hz : Keeps z0 s)  : Keeps z0 (Machine.wrCmdReset w s) := by
  unfold Machine.wrCmdReset
  repeat' first
    | with_reducible assumption
    | with_reducible apply Keeps.ite
    | with_reducible apply Keeps.ite1
    | with_reducible apply Keeps.wideReset
    | with_reducible apply Keeps.ret

theorem Keeps.execLockstepMismatch {s z : State}  (e : Machine.execLockstepMismatch s = .next z) : Keeps s z := by
  have hz := Keeps.refl s
  revert e
  unfold Machine.execLockstepMismatch
  first
    | (intro e; injection e with e; subst e; (repeat' first
         | with_reducible assumption
         | with_reducible apply Keeps.lockstep
         ); done)

theorem Keeps.execWdogReset {s z : State}  (e : Machine.execWdogReset s = .next z) : Keeps s z := by
  have hz := Keeps.refl s
  revert e
  unfold Machine.execWdogReset
  first
    | (intro e; injection e with e; subst e; (repeat' first
         | with_reducible assumption
         | with_reducible apply Keeps.wdReset
         ); done)

theorem Keeps.execPowerOnReset {s z : State}  (e : Machine.execPowerOnReset s = .next z) : Keeps s z := by
  have hz := Keeps.refl s
  revert e
  unfold Machine.execPowerOnReset
  first
    | (intro e; injection e with e; subst e; (repeat' first
         | with_reducible assumption
         | with_reducible apply Keeps.porAssert
         ); done)

theorem Keeps.execPowerOnResetRelease {s z : State}  (e : Machine.execPowerOnResetRelease s = .next z) : Keeps s z := by
  have hz := Keeps.refl s
  revert e
  unfold Machine.execPowerOnResetRelease
  first
    | (intro e; injection e with e; subst e; (repeat' first
         | with_reducible assumption
         | with_reducible apply Keeps.porRelease
         ); done)

theorem Keeps.execAonPowerOnReset {s z : State}  (e : Machine.execAonPowerOnReset s = .next z) : Keeps s z := by
  have hz := Keeps.refl s
  revert e
  unfold Machine.execAonPowerOnReset
  first
    | (intro e; injection e with e; subst e; (repeat' first
         | with_reducible assumption
         | with_reducible apply Keeps.aonReset
         ); done)

theorem Keeps.execResetNAssert {s z : State}  (e : Machine.execResetNAssert s = .next z) : Keeps s z := by
  have hz := Keeps.refl s
  revert e
  unfold Machine.execResetNAssert
  first
    | (intro e; injection e with e; subst e; (repeat' first
         | with_reducible assumption
         | with_reducible apply Keeps.resetNAssert
         ); done)

theorem Keeps.execResetNRelease {s z : State}  (e : Machine.execResetNRelease s = .next z) : Keeps s z := by
  have hz := Keeps.refl s
  revert e
  unfold Machine.execResetNRelease
  first
    | (intro e; injection e with e; subst e; (repeat' first
         | with_reducible assumption
         | with_reducible apply Keeps.resetNRelease
         ); done)

theorem Keeps.execCommandReset {s z : State} {q : Rq} {w : Word} (e : Machine.execCommandReset q w s = .next z) : Keeps s z := by
  have hz := Keeps.refl s
  revert e
  unfold Machine.execCommandReset
  first
    | (intro e; injection e with e; subst e; (repeat' first
         | with_reducible assumption
         | (intro x; with_reducible refine Keeps.cut (o := z0) x ?_ ?_; dsimp only [x]; rotate_left; try clear_value x)
         | (intro x; with_reducible refine Keeps.cut1 (o := z0) x ?_ ?_; dsimp only [x]; rotate_left; try clear_value x)
         | (intro x; with_reducible refine Keeps.cutF x ?_; try dsimp only [x])
         | (intro x; try clear_value x)
         | with_reducible apply Keeps.ite
         | with_reducible apply Keeps.ite1
         | with_reducible apply Keeps.gated
         | with_reducible apply Keeps.setCauses
         | with_reducible apply Keeps.wrCmdReset
         | with_reducible apply Keeps.ret
         | (fail_if_no_progress dsimp -zeta only)
         | split
         ); done)
    | (repeat' split) <;> first | (intro e; injection e with e; subst e; (repeat' first
         | with_reducible assumption
         | (intro x; with_reducible refine Keeps.cut (o := z0) x ?_ ?_; dsimp only [x]; rotate_left; try clear_value x)
         | (intro x; with_reducible refine Keeps.cut1 (o := z0) x ?_ ?_; dsimp only [x]; rotate_left; try clear_value x)
         | (intro x; with_reducible refine Keeps.cutF x ?_; try dsimp only [x])
         | (intro x; try clear_value x)
         | with_reducible apply Keeps.ite
         | with_reducible apply Keeps.ite1
         | with_reducible apply Keeps.gated
         | with_reducible apply Keeps.setCauses
         | with_reducible apply Keeps.wrCmdReset
         | with_reducible apply Keeps.ret
         | (fail_if_no_progress dsimp -zeta only)
         | split
         ))

theorem Keeps.execWideResetRelease {s z : State}  (e : Machine.execWideResetRelease s = .next z) : Keeps s z := by
  have hz := Keeps.refl s
  revert e
  unfold Machine.execWideResetRelease
  first
    | (intro e; injection e with e; subst e; (repeat' first
         | with_reducible assumption
         | with_reducible apply Keeps.wideTimeout
         ); done)

theorem Keeps.execRstCauseWrite {s z : State} {q : Rq} {w : Word} (e : Machine.execRstCauseWrite q w s = .next z) : Keeps s z := by
  have hz := Keeps.refl s
  revert e
  unfold Machine.execRstCauseWrite
  first
    | (intro e; injection e with e; subst e; (repeat' first
         | with_reducible assumption
         | (intro x; try clear_value x)
         | with_reducible apply Keeps.gated
         | with_reducible apply Keeps.wrRstCause
         ); done)

theorem Keeps.execBlkRstSet {s z : State} {q : Rq} {b : Fin 27} (e : Machine.execBlkRstSet q b s = .next z) : Keeps s z := by
  have hz := Keeps.refl s
  revert e
  unfold Machine.execBlkRstSet
  first
    | (intro e; injection e with e; subst e; (repeat' first
         | with_reducible assumption
         | (intro x; try clear_value x)
         | with_reducible apply Keeps.gated
         | with_reducible apply Keeps.wrBlkRst
         ); done)

theorem Keeps.execBlkRstClear {s z : State} {q : Rq} {b : Fin 27} (e : Machine.execBlkRstClear q b s = .next z) : Keeps s z := by
  have hz := Keeps.refl s
  revert e
  unfold Machine.execBlkRstClear
  first
    | (intro e; injection e with e; subst e; (repeat' first
         | with_reducible assumption
         | (intro x; try clear_value x)
         | with_reducible apply Keeps.gated
         | with_reducible apply Keeps.wrBlkRst
         ); done)

theorem Keeps.execBlockRelease {s z : State} {b : Fin 27} (e : Machine.execBlockRelease b s = .next z) : Keeps s z := by
  have hz := Keeps.refl s
  revert e
  unfold Machine.execBlockRelease
  first
    | (intro e; injection e with e; subst e; (repeat' first
         | with_reducible assumption
         | with_reducible apply Keeps.blkRelease
         ); done)

theorem Keeps.execAtticLoadDone {s z : State}  (e : Machine.execAtticLoadDone s = .next z) : Keeps s z := by
  have hz := Keeps.refl s
  revert e
  unfold Machine.execAtticLoadDone
  first
    | (intro e; injection e with e; subst e; (repeat' first
         | with_reducible assumption
         | with_reducible apply Keeps.atticDone
         ); done)

theorem Keeps.execScRelease {s z : State}  (e : Machine.execScRelease s = .next z) : Keeps s z := by
  have hz := Keeps.refl s
  revert e
  unfold Machine.execScRelease
  first
    | (intro e; injection e with e; subst e; (repeat' first
         | with_reducible assumption
         | with_reducible apply Keeps.scRelease
         ); done)

theorem Keeps.execVddioReachingThreshold {s z : State}  (e : Machine.execVddioReachingThreshold s = .next z) : Keeps s z := by
  have hz := Keeps.refl s
  revert e
  unfold Machine.execVddioReachingThreshold
  first
    | (intro e; injection e with e; subst e; (repeat' first
         | with_reducible assumption
         | with_reducible apply Keeps.safeLevels
         ); done)

end Sys2Proof.Machine
end

