-- ==== Sys2Proof/Laws/KeepMemBus.lean ====
section
/-! SUPPORT. What the operations of MemBus.lean keep. -/

set_option linter.all false

namespace Sys2Proof.Machine

theorem Keeps.hatchSecret {z0 s : State} {q : Rq} {a : Nat} {n : Nat} (hz : Keeps z0 s)  : Keeps z0 (Machine.hatchSecret q a n s) := by
  unfold Machine.hatchSecret
  repeat' first
    | with_reducible assumption
    | (intro x; with_reducible refine Keeps.cut (o := z0) x ?_ ?_; dsimp only [x]; rotate_left; try clear_value x)
    | (intro x; with_reducible refine Keeps.cut1 (o := z0) x ?_ ?_; dsimp only [x]; rotate_left; try clear_value x)
    | (intro x; with_reducible refine Keeps.cutF x ?_; try dsimp only [x])
    | (intro x; try clear_value x)
    | with_reducible apply Keeps.ite
    | with_reducible apply Keeps.ite1
    | with_reducible apply Keeps.zeroise
    | (fail_if_no_progress dsimp -zeta only)
    | split

theorem Keeps.shelfCheck {o s t : State} {q : Rq} {a : Nat} (h : Keeps o s) (e : Machine.shelfCheck q a s = some t) : Keeps o t := by
  unfold Machine.shelfCheck at e
  split at e
  · cases e; exact h
  · split at e
    · cases e
    · cases e
      exact Keeps.shelfDirty (Keeps.ite h h.set)

theorem Keeps.shelfCheckD {o s : State} {q : Rq} {a : Nat} (h : Keeps o s) : Keeps o ((Machine.shelfCheck q a s).getD s) := by
  cases e : Machine.shelfCheck q a s with
  | none => exact h
  | some t => exact Keeps.shelfCheck h e

theorem Keeps.memBusRead {z0 s : State} {u : Nat} {q : Rq} {a : Nat} {n : Nat} (hz : Keeps z0 s)  : Keeps z0 (Machine.memBusRead u q a n s).1 := by
  unfold Machine.memBusRead
  try lift_lets
  repeat' first
    | with_reducible assumption
    | (intro x; with_reducible refine Keeps.cut (o := z0) x ?_ ?_; dsimp only [x]; rotate_left; try clear_value x)
    | (intro x; with_reducible refine Keeps.cut1 (o := z0) x ?_ ?_; dsimp only [x]; rotate_left; try clear_value x)
    | (intro x; with_reducible refine Keeps.cutF x ?_; try dsimp only [x])
    | (intro x; try clear_value x)
    | with_reducible apply Keeps.ite
    | with_reducible apply Keeps.ite1
    | with_reducible apply Keeps.memRead
    | with_reducible apply Keeps.hatchSecret
    | (fail_if_no_progress dsimp -zeta only)
    | split

theorem Keeps.memBusWrite {o s : State} {u : Nat} {q : Rq} {a : Nat} {bytes : List Byte} (h : Keeps o s)
    (hu : unitOf a = some u) : Keeps o (Machine.memBusWrite u q a bytes s).1 := by
  unfold Machine.memBusWrite
  have g : Keeps o (Machine.hatchSecret q a bytes.length s) := Keeps.hatchSecret h
  refine Keeps.ite1 g (Keeps.ite1 g ?_)
  refine Keeps.ite1 (Keeps.logRefusal g) (Keeps.ite1 g ?_)
  split
  · exact g
  · next z e => exact Keeps.memWrite (Keeps.shelfCheck g e) fun _ => hu

theorem Keeps.updDma {z0 s : State} {c : Nat} {f : DmaCh → DmaCh} (hz : Keeps z0 s)  : Keeps z0 (Machine.updDma c f s) := by
  unfold Machine.updDma
  exact Keeps.upd hz rfl rfl rfl rfl rfl (CelKeeps.refl _) rfl (fun g => by simp_all [SizesOk])

theorem Keeps.dmaEvt {z0 s : State} {c : Nat} (hz : Keeps z0 s)  : Keeps z0 (Machine.dmaEvt c s) := by
  unfold Machine.dmaEvt
  repeat' first
    | with_reducible assumption
    | with_reducible apply Keeps.flag

theorem Keeps.chOut {z0 s : State} {c : Nat} {o : Code} {reason : Nat} (hz : Keeps z0 s)  : Keeps z0 (Machine.chOut c o reason s) := by
  unfold Machine.chOut
  repeat' first
    | with_reducible assumption
    | with_reducible apply Keeps.set

theorem Keeps.chHalt {z0 s : State} {c : Nat} {o : Code} {reason : Nat} {resumable : Bool} (hz : Keeps z0 s)  : Keeps z0 (Machine.chHalt c o reason resumable s) := by
  unfold Machine.chHalt
  repeat' first
    | with_reducible assumption
    | with_reducible apply Keeps.dmaEvt
    | with_reducible apply Keeps.chOut
    | with_reducible apply Keeps.set

theorem Keeps.chGo {z0 s : State} {c : Nat} (hz : Keeps z0 s)  : Keeps z0 (Machine.chGo c s) := by
  unfold Machine.chGo
  repeat' first
    | with_reducible assumption
    | with_reducible apply Keeps.ite
    | with_reducible apply Keeps.ite1
    | with_reducible apply Keeps.set

theorem Keeps.chRetire {z0 s : State} {c : Nat} (hz : Keeps z0 s)  : Keeps z0 (Machine.chRetire c s) := by
  unfold Machine.chRetire
  repeat' first
    | with_reducible assumption
    | (intro x; with_reducible refine Keeps.cut (o := z0) x ?_ ?_; dsimp only [x]; rotate_left; try clear_value x)
    | (intro x; try clear_value x)
    | with_reducible apply Keeps.ite
    | with_reducible apply Keeps.ite1
    | with_reducible apply Keeps.memBusWrite
    | with_reducible apply Keeps.updDma
    | with_reducible apply Keeps.dmaEvt
    | with_reducible apply Keeps.chOut
    | with_reducible apply Keeps.chHalt
    | with_reducible apply Keeps.set
    | with_reducible apply Keeps.freeNext
    | (fail_if_no_progress dsimp -zeta only)
    | split
    | lift_lets

theorem Keeps.chStart {z0 s : State} {c : Nat} (hz : Keeps z0 s)  : Keeps z0 (Machine.chStart c s) := by
  unfold Machine.chStart
  try lift_lets
  repeat' first
    | with_reducible assumption
    | (intro x; with_reducible refine Keeps.cut (o := z0) x ?_ ?_; dsimp only [x]; rotate_left; try clear_value x)
    | (intro x; try clear_value x)
    | with_reducible apply Keeps.ite
    | with_reducible apply Keeps.ite1
    | with_reducible apply Keeps.updDma
    | with_reducible apply Keeps.chOut
    | with_reducible apply Keeps.set
    | with_reducible apply Keeps.ret

theorem Keeps.chStop {z0 s : State} {c : Nat} (hz : Keeps z0 s)  : Keeps z0 (Machine.chStop c s) := by
  unfold Machine.chStop
  try lift_lets
  repeat' first
    | with_reducible assumption
    | (intro x; try clear_value x)
    | with_reducible apply Keeps.ite
    | with_reducible apply Keeps.ite1
    | with_reducible apply Keeps.chHalt
    | with_reducible apply Keeps.set
    | with_reducible apply Keeps.ret

theorem Keeps.chResume {z0 s : State} {c : Nat} (hz : Keeps z0 s)  : Keeps z0 (Machine.chResume c s) := by
  unfold Machine.chResume
  try lift_lets
  repeat' first
    | with_reducible assumption
    | (intro x; with_reducible refine Keeps.cut (o := z0) x ?_ ?_; dsimp only [x]; rotate_left; try clear_value x)
    | (intro x; try clear_value x)
    | with_reducible apply Keeps.ite
    | with_reducible apply Keeps.ite1
    | with_reducible apply Keeps.chOut
    | with_reducible apply Keeps.chGo
    | with_reducible apply Keeps.chRetire
    | with_reducible apply Keeps.set
    | with_reducible apply Keeps.ret

theorem Keeps.wrDmaCmd {z0 s : State} {c : Nat} {w : Word} (hz : Keeps z0 s)  : Keeps z0 (Machine.wrDmaCmd c w s) := by
  unfold Machine.wrDmaCmd
  repeat' first
    | with_reducible assumption
    | with_reducible apply Keeps.chStart
    | with_reducible apply Keeps.chStop
    | with_reducible apply Keeps.chResume
    | with_reducible apply Keeps.set
    | with_reducible apply Keeps.ret
    | (fail_if_no_progress dsimp -zeta only)
    | split

theorem Keeps.wrDmaReg {z0 s : State} {c : Nat} {a : Nat} {eight : Bool} {w : Word} (hz : Keeps z0 s)  : Keeps z0 (Machine.wrDmaReg c a eight w s) := by
  unfold Machine.wrDmaReg
  repeat' first
    | with_reducible assumption
    | with_reducible apply Keeps.ite
    | with_reducible apply Keeps.ite1
    | with_reducible apply Keeps.plainWrite
    | with_reducible apply Keeps.ret

end Sys2Proof.Machine
end

