-- ==== Sys2Proof/Laws/KeepBus.lean ====
section
/-! SUPPORT. What the operations of Bus.lean keep. -/

set_option linter.all false

namespace Sys2Proof.Machine

/-- Every hook of a table keeps. -/
def HooksKeep (l : List Hook) : Prop := ∀ k ∈ l, ∀ i o s, Keeps o s → Keeps o (k.run i s)

theorem HooksKeep.nil : HooksKeep [] := fun _ h => nomatch h

theorem HooksKeep.cons {b t c : Nat} {r : Nat → State → State} {l : List Hook} (h : ∀ i o s, Keeps o s → Keeps o (r i s))
    (g : HooksKeep l) : HooksKeep (⟨b, t, c, r⟩ :: l) := by
  intro k hk
  rcases List.mem_cons.1 hk with rfl | hk
  · exact h
  · exact g k hk

theorem HooksKeep.append {l m : List Hook} (h : HooksKeep l) (g : HooksKeep m) : HooksKeep (l ++ m) := by
  intro k hk
  rcases List.mem_append.1 hk with hk | hk
  · exact h k hk
  · exact g k hk

theorem HooksKeep.flatMap {l : List Nat} {f : Nat → List Hook} (h : ∀ n, HooksKeep (f n)) : HooksKeep (l.flatMap f) := by
  intro k hk
  obtain ⟨n, _, hk⟩ := List.mem_flatMap.1 hk
  exact h n k hk

theorem Keeps.hookAt {l : List Hook} {a : Nat} {f : State → State} {o s : State} (hl : HooksKeep l) (e : Machine.hookAt l a = some f)
    (h : Keeps o s) : Keeps o (f s) := by
  obtain ⟨k, hk, e⟩ := List.exists_of_findSome?_eq_some e
  split at e
  · cases e; exact hl k hk _ o s h
  · cases e

theorem HooksKeep.laneHooks {n : Nat} {w : Word} : HooksKeep (Machine.laneHooks n w) := by
  unfold Machine.laneHooks
  try dsimp only
  repeat' first
    | exact HooksKeep.nil
    | (refine HooksKeep.cons (fun i z s h => ?_) ?_; rotate_left)
    | with_reducible assumption
    | apply HooksKeep.append
    | apply HooksKeep.flatMap
    | intro n
    | with_reducible apply Keeps.wrAdcCtrl
    | with_reducible apply Keeps.wrCalCmd
    | with_reducible apply Keeps.wrRampCtrl
    | with_reducible apply Keeps.wrTxCtrl
    | with_reducible apply Keeps.wrTxCommit
    | with_reducible apply Keeps.wrTxFir
    | with_reducible apply Keeps.wrPd
    | with_reducible apply Keeps.wrDetCtrl
    | with_reducible apply Keeps.wrDetCmd
    | with_reducible apply Keeps.wrEqCtrl
    | with_reducible apply Keeps.wrEqTap
    | with_reducible apply Keeps.wrTrCtrl
    | with_reducible apply Keeps.wrTrPhase
    | with_reducible apply Keeps.wrTrFreq
    | with_reducible apply Keeps.wrTrlCommit
    | with_reducible apply Keeps.wrLevel
    | with_reducible apply Keeps.wrLmsCfg
    | with_reducible apply Keeps.wrLmsCmd
    | with_reducible apply Keeps.wrHistCtrl

theorem HooksKeep.frmHooks {n : Nat} {w : Word} : HooksKeep (Machine.frmHooks n w) := by
  unfold Machine.frmHooks
  try dsimp only
  repeat' first
    | exact HooksKeep.nil
    | (refine HooksKeep.cons (fun i z s h => ?_) ?_; rotate_left)
    | with_reducible assumption
    | apply HooksKeep.append
    | apply HooksKeep.flatMap
    | intro n
    | with_reducible apply Keeps.wrLaneCtrl
    | with_reducible apply Keeps.wrTxCmd
    | with_reducible apply Keeps.wrSqCtrl
    | with_reducible apply Keeps.wrFecCtrl
    | with_reducible apply Keeps.wrCntCmd
    | with_reducible apply Keeps.wrCtr

theorem HooksKeep.hostHooks {n : Nat} {w : Word} : HooksKeep (Machine.hostHooks n w) := by
  unfold Machine.hostHooks
  try dsimp only
  repeat' first
    | exact HooksKeep.nil
    | (refine HooksKeep.cons (fun i z s h => ?_) ?_; rotate_left)
    | with_reducible assumption
    | apply HooksKeep.append
    | apply HooksKeep.flatMap
    | intro n
    | with_reducible apply Keeps.wrHostCtrl
    | with_reducible apply Keeps.wrHostCmd
    | with_reducible apply Keeps.wrTrainReq
    | with_reducible apply Keeps.wrHostFir
    | with_reducible apply Keeps.wrHostRxEq
    | with_reducible apply Keeps.wrPatCtrl
    | with_reducible apply Keeps.wrFecCmd
    | with_reducible apply Keeps.wrJesdCfg
    | with_reducible apply Keeps.wrJesdDl
    | with_reducible apply Keeps.wrJesdSys

theorem HooksKeep.bndHooks {w : Word} : HooksKeep (Machine.bndHooks w) := by
  unfold Machine.bndHooks
  try dsimp only
  repeat' first
    | exact HooksKeep.nil
    | (refine HooksKeep.cons (fun i z s h => ?_) ?_; rotate_left)
    | with_reducible assumption
    | apply HooksKeep.append
    | apply HooksKeep.flatMap
    | intro n
    | with_reducible apply Keeps.wrSyncCtrl
    | with_reducible apply Keeps.wrSyncCmd
    | with_reducible apply Keeps.wrAdmRes
    | with_reducible apply Keeps.wrAdmThr
    | with_reducible apply Keeps.wrMeasCtrl
    | with_reducible apply Keeps.wrMeasSrc
    | with_reducible apply Keeps.wrPort
    | with_reducible apply Keeps.wrPort2

theorem HooksKeep.pathHooks {k : Nat} {w : Word} : HooksKeep (Machine.pathHooks k w) := by
  unfold Machine.pathHooks
  try dsimp only
  repeat' first
    | exact HooksKeep.nil
    | (refine HooksKeep.cons (fun i z s h => ?_) ?_; rotate_left)
    | with_reducible assumption
    | apply HooksKeep.append
    | apply HooksKeep.flatMap
    | intro n
    | with_reducible apply Keeps.wrPathIdle
    | with_reducible apply Keeps.wrPathCmd
    | with_reducible apply Keeps.wrPathNco
    | with_reducible apply Keeps.wrPathIqb
    | with_reducible apply Keeps.wrPathGain
    | with_reducible apply Keeps.wrPathCf
    | with_reducible apply Keeps.wrCxcmd
    | with_reducible apply Keeps.wrMtrCtrl
    | with_reducible apply Keeps.wrCfc

theorem HooksKeep.rptHooks {q : Rq} {w : Word} : HooksKeep (Machine.rptHooks q w) :=
  .cons (fun _ _ _ h => Keeps.wrMuteCtrl h) <|
  .cons (fun _ _ _ h => Keeps.wrRptCeil h) <|
  .cons (fun _ _ _ h => Keeps.wrGrdCtrl h) <|
  .cons (fun i _ _ h => Keeps.rptOwned h fun _ g => Keeps.wrRptCfg g) <|
  .cons (fun i _ _ h => Keeps.rptOwned h fun _ g => Keeps.wrRptCmd g) <|
  .cons (fun i _ _ h => Keeps.rptOwned h fun _ g => Keeps.plainWrite g) <|
  .cons (fun i _ _ h => Keeps.rptOwned h fun _ g => Keeps.plainWrite g) <|
  .cons (fun i _ _ h => Keeps.rptOwned h fun _ g => Keeps.wrRptRamp g) <|
  .cons (fun i _ _ h => Keeps.rptOwned h fun _ g => Keeps.wrRptOsc g) <|
  .cons (fun i _ _ h => Keeps.rptOwned h fun _ g => Keeps.wrRptNr g) <|
  .cons (fun i _ _ h => Keeps.rptOwned h fun _ g => Keeps.plainWrite g) <|
  .cons (fun i _ _ h => Keeps.rptOwned h fun _ g => Keeps.wrRptLd g) <|
  .cons (fun i _ _ h => Keeps.rptOwned h fun _ g => Keeps.plainWrite g) <|
  .cons (fun i _ _ h => Keeps.rptOwned h fun _ g => Keeps.plainWrite g) <|
  .cons (fun i _ _ h => Keeps.rptOwned h fun _ g => Keeps.plainWrite g) <|
  .cons (fun i _ _ h => Keeps.rptOwned h fun _ g => Keeps.plainWrite g) <|
  .cons (fun i _ _ h => Keeps.rptOwned h fun _ g => Keeps.plainWrite g) <|
  .nil

theorem HooksKeep.lstHooks {w : Word} : HooksKeep (Machine.lstHooks w) := by
  unfold Machine.lstHooks
  try dsimp only
  repeat' first
    | exact HooksKeep.nil
    | (refine HooksKeep.cons (fun i z s h => ?_) ?_; rotate_left)
    | with_reducible assumption
    | apply HooksKeep.append
    | apply HooksKeep.flatMap
    | intro n
    | with_reducible apply Keeps.wrLstCtrl
    | with_reducible apply Keeps.wrAllow
    | with_reducible apply Keeps.wrNfCfg
    | with_reducible apply Keeps.wrLstChCtrl
    | with_reducible apply Keeps.wrLstOff
    | with_reducible apply Keeps.wrLstThr
    | with_reducible apply Keeps.wrLstCal
    | with_reducible apply Keeps.wrLstCmd
    | with_reducible apply Keeps.wrTddB
    | with_reducible apply Keeps.wrNrbuf

theorem HooksKeep.fenHooks {w : Word} : HooksKeep (Machine.fenHooks w) := by
  unfold Machine.fenHooks
  try dsimp only
  repeat' first
    | exact HooksKeep.nil
    | (refine HooksKeep.cons (fun i z s h => ?_) ?_; rotate_left)
    | with_reducible assumption
    | apply HooksKeep.append
    | apply HooksKeep.flatMap
    | intro n
    | with_reducible apply Keeps.wrRfcOwn
    | with_reducible apply Keeps.wrCoexCtrl
    | with_reducible apply Keeps.wrCoexCfg
    | with_reducible apply Keeps.wrSeqCtrl
    | with_reducible apply Keeps.wrSeqCmd
    | with_reducible apply Keeps.wrSeqHold
    | with_reducible apply Keeps.wrSeqLock
    | with_reducible apply Keeps.wrSeqCal
    | with_reducible apply Keeps.wrSpiCfg
    | with_reducible apply Keeps.wrSpiCmd
    | with_reducible apply Keeps.wrSpiData

theorem HooksKeep.crpHooks {q : Rq} {w : Word} : HooksKeep (Machine.crpHooks q w) := by
  unfold Machine.crpHooks
  try dsimp only
  repeat' first
    | exact HooksKeep.nil
    | (refine HooksKeep.cons (fun i z s h => ?_) ?_; rotate_left)
    | with_reducible assumption
    | apply HooksKeep.append
    | apply HooksKeep.flatMap
    | intro n
    | with_reducible apply Keeps.wrRefmon
    | with_reducible apply Keeps.wrPllCtrl
    | with_reducible apply Keeps.wrBpllTrim
    | with_reducible apply Keeps.wrSysSel
    | with_reducible apply Keeps.wrClkout
    | with_reducible apply Keeps.wrAoscInc
    | with_reducible apply Keeps.wrAonL
    | with_reducible apply Keeps.wrAonH
    | with_reducible apply Keeps.wrRstCause
    | with_reducible apply Keeps.wrCmdReset
    | with_reducible apply Keeps.wrBlkRst
    | with_reducible apply Keeps.wrPwrMode
    | with_reducible apply Keeps.wrPwrLarder
    | with_reducible apply Keeps.wrAvsCtrl
    | with_reducible apply Keeps.wrAvsReq
    | with_reducible apply Keeps.wrThCtrl
    | with_reducible apply Keeps.wrThCmd
    | with_reducible apply Keeps.wrThThr
    | with_reducible apply Keeps.retData
    | with_reducible apply Keeps.ret
    | with_reducible apply Keeps.ite
    | with_reducible apply Keeps.wr

theorem HooksKeep.biasHooks {w : Word} : HooksKeep (Machine.biasHooks w) := by
  unfold Machine.biasHooks
  try dsimp only
  repeat' first
    | exact HooksKeep.nil
    | (refine HooksKeep.cons (fun i z s h => ?_) ?_; rotate_left)
    | with_reducible assumption
    | apply HooksKeep.append
    | apply HooksKeep.flatMap
    | intro n
    | with_reducible apply Keeps.wrScanCtrl
    | with_reducible apply Keeps.wrHkcEnt
    | with_reducible apply Keeps.wrHkdCtrl
    | with_reducible apply Keeps.wrHkdVal
    | with_reducible apply Keeps.wrGrdLock
    | with_reducible apply Keeps.wrTripClr
    | with_reducible apply Keeps.wrGrdSwing
    | with_reducible apply Keeps.wrGrdGain
    | with_reducible apply Keeps.wrPinLim

theorem HooksKeep.evrHooks {w : Word} : HooksKeep (Machine.evrHooks w) := by
  unfold Machine.evrHooks
  try dsimp only
  repeat' first
    | exact HooksKeep.nil
    | (refine HooksKeep.cons (fun i z s h => ?_) ?_; rotate_left)
    | with_reducible assumption
    | apply HooksKeep.append
    | apply HooksKeep.flatMap
    | intro n
    | with_reducible apply Keeps.wrPend
    | with_reducible apply Keeps.wrEvrRaise
    | with_reducible apply Keeps.wrWdogCtrl
    | with_reducible apply Keeps.wrKick
    | with_reducible apply Keeps.wrRoute
    | with_reducible apply Keeps.wrPmcL
    | with_reducible apply Keeps.wrPmcH

theorem HooksKeep.memHooks {w : Word} : HooksKeep (Machine.memHooks w) := by
  unfold Machine.memHooks
  try dsimp only
  repeat' first
    | exact HooksKeep.nil
    | (refine HooksKeep.cons (fun i z s h => ?_) ?_; rotate_left)
    | with_reducible assumption
    | apply HooksKeep.append
    | apply HooksKeep.flatMap
    | intro n
    | with_reducible apply Keeps.wrArbW
    | with_reducible apply Keeps.wrInjCtrl
    | with_reducible apply Keeps.wrScrub
    | with_reducible apply Keeps.wrDmaReg
    | with_reducible apply Keeps.wrDmaCmd
    | with_reducible apply Keeps.wrStoCtrl
    | with_reducible apply Keeps.wrStoCmd
    | with_reducible apply Keeps.wrNorCmd
    | with_reducible apply Keeps.wrNorBuf

theorem HooksKeep.ownHooks {q : Rq} {w : Word} : HooksKeep (Machine.ownHooks q w) := by
  unfold Machine.ownHooks
  try dsimp only
  repeat' first
    | exact HooksKeep.nil
    | (refine HooksKeep.cons (fun i z s h => ?_) ?_; rotate_left)
    | with_reducible assumption
    | apply HooksKeep.append
    | apply HooksKeep.flatMap
    | intro n
    | with_reducible apply Keeps.wrClaim
    | with_reducible apply Keeps.wrLease
    | with_reducible apply Keeps.wrLeaseCfg
    | with_reducible apply Keeps.wrHandover
    | with_reducible apply Keeps.wrAccept
    | with_reducible apply Keeps.wrOwnZero
    | with_reducible apply Keeps.wrSecret
    | with_reducible apply Keeps.wrFuseCmd
    | with_reducible apply Keeps.wrSignCmd
    | with_reducible apply Keeps.wrCoreCtrl
    | with_reducible apply Keeps.wrLdCmd
    | with_reducible apply Keeps.wrLdFloor
    | with_reducible apply Keeps.wrLdKeytab

theorem HooksKeep.snkHooks {w : Word} : HooksKeep (Machine.snkHooks w) := by
  unfold Machine.snkHooks
  try dsimp only
  repeat' first
    | exact HooksKeep.nil
    | (refine HooksKeep.cons (fun i z s h => ?_) ?_; rotate_left)
    | with_reducible assumption
    | apply HooksKeep.append
    | apply HooksKeep.flatMap
    | intro n
    | with_reducible apply Keeps.wrSnkAddr
    | with_reducible apply Keeps.wrSnkCfg
    | with_reducible apply Keeps.wrLinkEn
    | with_reducible apply Keeps.wrSnkTx
    | with_reducible apply Keeps.wrRxrBase
    | with_reducible apply Keeps.wrRxrCtrl
    | with_reducible apply Keeps.wrRraCtrl
    | with_reducible apply Keeps.wrPairCtrl
    | with_reducible apply Keeps.wrPairTim
    | with_reducible apply Keeps.wrPairCmd
    | with_reducible apply Keeps.wrRoute4

theorem HooksKeep.bstHooks {w : Word} : HooksKeep (Machine.bstHooks w) := by
  unfold Machine.bstHooks
  try dsimp only
  repeat' first
    | exact HooksKeep.nil
    | (refine HooksKeep.cons (fun i z s h => ?_) ?_; rotate_left)
    | with_reducible assumption
    | apply HooksKeep.append
    | apply HooksKeep.flatMap
    | intro n
    | with_reducible apply Keeps.wrMemCtrl
    | with_reducible apply Keeps.wrMemCmd
    | with_reducible apply Keeps.wrLbCmd
    | with_reducible apply Keeps.wrLbCfg
    | with_reducible apply Keeps.wrLedgerBase
    | with_reducible apply Keeps.wrRepair

theorem ite_or {α : Type} {c : Prop} [Decidable c] {a b x : α} (h : (if c then a else b) = x) : a = x ∨ b = x := by
  by_cases hc : c
  · exact .inl (by rwa [if_pos hc] at h)
  · exact .inr (by rwa [if_neg hc] at h)

theorem Keeps.writeHook {q : Rq} {a : Nat} {w : Word} {f : State → State} {o s : State} (e : Machine.writeHook q a w = some f)
    (h : Keeps o s) : Keeps o (f s) := by
  unfold Machine.writeHook at e
  rcases ite_or e with e | e
  · exact Keeps.hookAt HooksKeep.laneHooks e h
  rcases ite_or e with e | e
  · exact Keeps.hookAt HooksKeep.hostHooks e h
  rcases ite_or e with e | e
  · exact Keeps.hookAt HooksKeep.frmHooks e h
  rcases ite_or e with e | e
  · exact Keeps.hookAt HooksKeep.bndHooks e h
  rcases ite_or e with e | e
  · exact Keeps.hookAt HooksKeep.pathHooks e h
  rcases ite_or e with e | e
  · exact Keeps.hookAt HooksKeep.rptHooks e h
  rcases ite_or e with e | e
  · exact Keeps.hookAt HooksKeep.lstHooks e h
  rcases ite_or e with e | e
  · exact Keeps.hookAt HooksKeep.fenHooks e h
  rcases ite_or e with e | e
  · exact Keeps.hookAt HooksKeep.crpHooks e h
  rcases ite_or e with e | e
  · exact Keeps.hookAt HooksKeep.biasHooks e h
  rcases ite_or e with e | e
  · exact Keeps.hookAt HooksKeep.evrHooks e h
  rcases ite_or e with e | e
  · exact Keeps.hookAt HooksKeep.memHooks e h
  rcases ite_or e with e | e
  · exact Keeps.hookAt HooksKeep.snkHooks e h
  rcases ite_or e with e | e
  · exact Keeps.hookAt HooksKeep.ownHooks e h
  rcases ite_or e with e | e
  · exact Keeps.hookAt HooksKeep.memHooks e h
  rcases ite_or e with e | e
  · exact Keeps.hookAt HooksKeep.evrHooks e h
  exact Keeps.hookAt HooksKeep.bstHooks e h

theorem Keeps.regWrite {o s : State} {q : Rq} {a : Nat} {w : Word} (h : Keeps o s) : Keeps o (Machine.regWrite q a w s) := by
  unfold Machine.regWrite
  refine Keeps.ite (Keeps.celWrite h) ?_
  split
  · next f e => exact Keeps.gatedBus h fun x hx => Keeps.writeHook e hx
  · exact Keeps.gatedBus h fun x hx => Keeps.plainWrite hx

theorem HooksKeep.readHooks  : HooksKeep (Machine.readHooks ) := by
  unfold Machine.readHooks
  try dsimp only
  repeat' first
    | exact HooksKeep.nil
    | (refine HooksKeep.cons (fun i z s h => ?_) ?_; rotate_left)
    | with_reducible assumption
    | apply HooksKeep.append
    | apply HooksKeep.flatMap
    | intro n
    | with_reducible apply Keeps.clearRead
    | with_reducible apply Keeps.rdBandTime
    | with_reducible apply Keeps.rdRxTimeL
    | with_reducible apply Keeps.rdAonL
    | with_reducible apply Keeps.rdHkdStat
    | with_reducible apply Keeps.rdGrdStat
    | with_reducible apply Keeps.rdEvrNext
    | with_reducible apply Keeps.rdWdogStat
    | with_reducible apply Keeps.rdPmcL
    | with_reducible apply Keeps.rdSignResult
    | with_reducible apply Keeps.retData

theorem Keeps.regRead {o s : State} {q : Rq} {a : Nat} (h : Keeps o s) : Keeps o (Machine.regRead q a s) := by
  unfold Machine.regRead
  refine Keeps.ite (Keeps.gatedRead h fun x hx => Keeps.retData hx) ?_
  split
  · next f e => exact Keeps.gatedRead h fun x hx => Keeps.hookAt HooksKeep.readHooks e hx
  · exact Keeps.gatedRead h fun x hx => Keeps.plainRead hx

theorem Keeps.fromReply {z0 s : State}  (hz : Keeps z0 s)  : Keeps z0 (Machine.fromReply s).1 := by
  unfold Machine.fromReply
  repeat' first
    | with_reducible assumption

theorem Keeps.windowRead {z0 s : State} {q : Rq} {a : Nat} {n : Nat} (hz : Keeps z0 s)  : Keeps z0 (Machine.windowRead q a n s).1 := by
  unfold Machine.windowRead
  repeat' first
    | with_reducible assumption
    | with_reducible apply Keeps.ite2
    | with_reducible apply Keeps.ite
    | with_reducible apply Keeps.ite1
    | with_reducible apply Keeps.stoPop
    | with_reducible apply Keeps.memBusRead
    | (fail_if_no_progress dsimp -zeta only)
    | split

theorem Keeps.timedOut {z0 s : State} {q : Rq} {a : Nat} {write : Bool} (hz : Keeps z0 s)  : Keeps z0 (Machine.timedOut q a write s) := by
  unfold Machine.timedOut
  repeat' first
    | with_reducible assumption
    | (intro x; with_reducible refine Keeps.cut (o := z0) x ?_ ?_; dsimp only [x]; rotate_left; try clear_value x)
    | (intro x; with_reducible refine Keeps.cut1 (o := z0) x ?_ ?_; dsimp only [x]; rotate_left; try clear_value x)
    | (intro x; with_reducible refine Keeps.cutF x ?_; try dsimp only [x])
    | (intro x; try clear_value x)
    | with_reducible apply Keeps.request
    | with_reducible apply Keeps.completed
    | ((first | rw [patch_eq] | skip); (with_reducible refine Keeps.patch ?_ ?_ ?_); rotate_left; (first | exact CelKeeps.refl _ | exact ⟨fun _ h => h, Nat.le_refl _⟩ | exact ⟨fun _ h => h, Nat.le_succ _⟩); (refine fun g => ?_; first | exact g | simpa only [SizesOk, Machine.patch, upd_length] using g | (simp only [SizesOk, Machine.patch, upd_length, List.length_map, List.length_replicate, true_and] at g ⊢; tauto)))
    | (fail_if_no_progress dsimp -zeta only)
    | split

theorem Keeps.busRead {z0 s : State} {q : Rq} {a : Nat} {n : Nat} (hz : Keeps z0 s)  : Keeps z0 (Machine.busRead q a n s).1 := by
  unfold Machine.busRead
  repeat' first
    | with_reducible assumption
    | (intro x; with_reducible refine Keeps.cut (o := z0) x ?_ ?_; dsimp only [x]; rotate_left; try clear_value x)
    | (intro x; with_reducible refine Keeps.cut1 (o := z0) x ?_ ?_; dsimp only [x]; rotate_left; try clear_value x)
    | (intro x; with_reducible refine Keeps.cut2 (o := z0) x ?_ ?_; dsimp only [x]; rotate_left; try clear_value x)
    | with_reducible apply Keeps.ite2
    | (intro x; with_reducible refine Keeps.cutF x ?_; try dsimp only [x])
    | (intro x; try clear_value x)
    | with_reducible apply Keeps.ite
    | with_reducible apply Keeps.ite1
    | with_reducible apply Keeps.request
    | with_reducible apply Keeps.completed
    | with_reducible apply Keeps.regRead
    | with_reducible apply Keeps.fromReply
    | with_reducible apply Keeps.windowRead
    | with_reducible apply Keeps.timedOut
    | ((first | rw [patch_eq] | skip); (with_reducible refine Keeps.patch ?_ ?_ ?_); rotate_left; (first | exact CelKeeps.refl _ | exact ⟨fun _ h => h, Nat.le_refl _⟩ | exact ⟨fun _ h => h, Nat.le_succ _⟩); (refine fun g => ?_; first | exact g | simpa only [SizesOk, Machine.patch, upd_length] using g | (simp only [SizesOk, Machine.patch, upd_length, List.length_map, List.length_replicate, true_and] at g ⊢; tauto)))
    | (fail_if_no_progress dsimp -zeta only)
    | split
    | lift_lets

theorem Keeps.windowWrite {z0 s : State} {q : Rq} {a : Nat} {bytes : List Byte} (hz : Keeps z0 s)  : Keeps z0 (Machine.windowWrite q a bytes s).1 := by
  unfold Machine.windowWrite
  repeat' first
    | with_reducible assumption
    | with_reducible apply Keeps.ite
    | with_reducible apply Keeps.ite1
    | with_reducible apply Keeps.logRefusal
    | with_reducible apply Keeps.stoPush
    | with_reducible apply Keeps.memBusWrite
    | (fail_if_no_progress dsimp -zeta only)
    | split

theorem Keeps.writeReply {z0 s : State}  (hz : Keeps z0 s)  : Keeps z0 (Machine.writeReply s).1 := by
  unfold Machine.writeReply
  repeat' first
    | with_reducible assumption

theorem Keeps.busWrite {z0 s : State} {q : Rq} {a : Nat} {bytes : List Byte} (hz : Keeps z0 s)  : Keeps z0 (Machine.busWrite q a bytes s).1 := by
  unfold Machine.busWrite
  repeat' first
    | with_reducible assumption
    | (intro x; with_reducible refine Keeps.cut (o := z0) x ?_ ?_; dsimp only [x]; rotate_left; try clear_value x)
    | (intro x; with_reducible refine Keeps.cut1 (o := z0) x ?_ ?_; dsimp only [x]; rotate_left; try clear_value x)
    | (intro x; with_reducible refine Keeps.cut2 (o := z0) x ?_ ?_; dsimp only [x]; rotate_left; try clear_value x)
    | with_reducible apply Keeps.ite2
    | (intro x; with_reducible refine Keeps.cutF x ?_; try dsimp only [x])
    | (intro x; try clear_value x)
    | with_reducible apply Keeps.ite
    | with_reducible apply Keeps.ite1
    | with_reducible apply Keeps.request
    | with_reducible apply Keeps.completed
    | with_reducible apply Keeps.celWrite
    | with_reducible apply Keeps.regWrite
    | with_reducible apply Keeps.timedOut
    | with_reducible apply Keeps.windowWrite
    | with_reducible apply Keeps.writeReply
    | ((first | rw [patch_eq] | skip); (with_reducible refine Keeps.patch ?_ ?_ ?_); rotate_left; (first | exact CelKeeps.refl _ | exact ⟨fun _ h => h, Nat.le_refl _⟩ | exact ⟨fun _ h => h, Nat.le_succ _⟩); (refine fun g => ?_; first | exact g | simpa only [SizesOk, Machine.patch, upd_length] using g | (simp only [SizesOk, Machine.patch, upd_length, List.length_map, List.length_replicate, true_and] at g ⊢; tauto)))
    | (fail_if_no_progress dsimp -zeta only)
    | split
    | lift_lets

theorem Keeps.writeServe {z0 s : State} {q : Rq} {a : Nat} {bytes : List Byte} (hz : Keeps z0 s)  : Keeps z0 (Machine.writeServe q a bytes s) := by
  unfold Machine.writeServe
  try lift_lets
  repeat' first
    | with_reducible assumption
    | (intro x; with_reducible refine Keeps.cut (o := z0) x ?_ ?_; dsimp only [x]; rotate_left; try clear_value x)
    | (intro x; with_reducible refine Keeps.cut1 (o := z0) x ?_ ?_; dsimp only [x]; rotate_left; try clear_value x)
    | (intro x; with_reducible refine Keeps.cut2 (o := z0) x ?_ ?_; dsimp only [x]; rotate_left; try clear_value x)
    | with_reducible apply Keeps.ite2
    | (intro x; with_reducible refine Keeps.cutF x ?_; try dsimp only [x])
    | (intro x; try clear_value x)
    | with_reducible apply Keeps.ite
    | with_reducible apply Keeps.ite1
    | with_reducible apply Keeps.raisePriv
    | with_reducible apply Keeps.busWrite
    | with_reducible apply Keeps.ret
    | (fail_if_no_progress dsimp -zeta only)
    | split

theorem Keeps.writeCmd {z0 s : State} {q : Rq} {a : Nat} {bytes : List Byte} (hz : Keeps z0 s)  : Keeps z0 (Machine.writeCmd q a bytes s) := by
  unfold Machine.writeCmd
  repeat' first
    | with_reducible assumption
    | (intro x; with_reducible refine Keeps.cut (o := z0) x ?_ ?_; dsimp only [x]; rotate_left; try clear_value x)
    | (intro x; with_reducible refine Keeps.cut1 (o := z0) x ?_ ?_; dsimp only [x]; rotate_left; try clear_value x)
    | (intro x; with_reducible refine Keeps.cutF x ?_; try dsimp only [x])
    | (intro x; try clear_value x)
    | with_reducible apply Keeps.ite
    | with_reducible apply Keeps.ite1
    | with_reducible apply Keeps.park
    | with_reducible apply Keeps.writeServe
    | (fail_if_no_progress dsimp -zeta only)
    | split

theorem Keeps.storeTimeout {o s : State} {c a : Nat} (h : Keeps o s) : Keeps o (Machine.storeTimeout c a s) := by
  unfold Machine.storeTimeout
  refine (Keeps.postedCode h).upd rfl rfl rfl rfl rfl (CelKeeps.refl _) rfl (fun g => ?_)
  have hm := g.2.2.2.2.2.2.2.2.2.2.2.2.1
  have := hm.map (f := fun e => { e with who := Machine.storeTimeout.drop c a e.who }) (fun _ => rfl) fun _ h => h
  simp only [SizesOk] at g ⊢
  tauto

theorem Keeps.targetTimeout {z0 s : State} {q : Rq} {a : Nat} (hz : Keeps z0 s)  : Keeps z0 (Machine.targetTimeout q a s) := by
  unfold Machine.targetTimeout
  repeat' first
    | with_reducible assumption
    | (intro x; with_reducible refine Keeps.cut (o := z0) x ?_ ?_; dsimp only [x]; rotate_left; try clear_value x)
    | (intro x; with_reducible refine Keeps.cut1 (o := z0) x ?_ ?_; dsimp only [x]; rotate_left; try clear_value x)
    | (intro x; with_reducible refine Keeps.cutF x ?_; try dsimp only [x])
    | (intro x; try clear_value x)
    | with_reducible apply Keeps.ite
    | with_reducible apply Keeps.ite1
    | with_reducible apply Keeps.storeTimeout
    | ((first | rw [patch_eq] | skip); (with_reducible refine Keeps.patch ?_ ?_ ?_); rotate_left; (first | exact CelKeeps.refl _ | exact ⟨fun _ h => h, Nat.le_refl _⟩ | exact ⟨fun _ h => h, Nat.le_succ _⟩); (refine fun g => ?_; first | exact g | simpa only [SizesOk, Machine.patch, upd_length] using g | (simp only [SizesOk, Machine.patch, upd_length, List.length_map, List.length_replicate, true_and] at g ⊢; tauto)))
    | (fail_if_no_progress dsimp -zeta only)
    | split

theorem Keeps.staleReply {z0 s : State} {q : Rq} {a : Nat} (hz : Keeps z0 s)  : Keeps z0 (Machine.staleReply q a s) := by
  unfold Machine.staleReply
  repeat' first
    | with_reducible assumption
    | (intro x; with_reducible refine Keeps.cut (o := z0) x ?_ ?_; dsimp only [x]; rotate_left; try clear_value x)
    | (intro x; with_reducible refine Keeps.cut1 (o := z0) x ?_ ?_; dsimp only [x]; rotate_left; try clear_value x)
    | (intro x; with_reducible refine Keeps.cutF x ?_; try dsimp only [x])
    | (intro x; try clear_value x)
    | with_reducible apply Keeps.ite
    | with_reducible apply Keeps.ite1
    | with_reducible apply Keeps.raise
    | with_reducible apply Keeps.pmcCount
    | with_reducible apply Keeps.updDma
    | with_reducible apply Keeps.set
    | with_reducible apply Keeps.addSat
    | ((first | rw [patch_eq] | skip); (with_reducible refine Keeps.patch ?_ ?_ ?_); rotate_left; (first | exact CelKeeps.refl _ | exact ⟨fun _ h => h, Nat.le_refl _⟩ | exact ⟨fun _ h => h, Nat.le_succ _⟩); (refine fun g => ?_; first | exact g | simpa only [SizesOk, Machine.patch, upd_length] using g | (simp only [SizesOk, Machine.patch, upd_length, List.length_map, List.length_replicate, true_and] at g ⊢; tauto)))
    | (fail_if_no_progress dsimp -zeta only)
    | split
    | lift_lets

theorem Keeps.execRegisterWrite {s z : State} {q : Rq} {a : Nat} {w : Word} (e : Machine.execRegisterWrite q a w s = .next z) : Keeps s z := by
  have hz := Keeps.refl s
  revert e
  unfold Machine.execRegisterWrite
  first
    | (intro e; injection e with e; subst e; (repeat' first
         | with_reducible assumption
         | (intro x; with_reducible refine Keeps.cut (o := z0) x ?_ ?_; dsimp only [x]; rotate_left; try clear_value x)
         | (intro x; with_reducible refine Keeps.cut1 (o := z0) x ?_ ?_; dsimp only [x]; rotate_left; try clear_value x)
         | (intro x; with_reducible refine Keeps.cutF x ?_; try dsimp only [x])
         | (intro x; try clear_value x)
         | with_reducible apply Keeps.writeCmd
         | (fail_if_no_progress dsimp -zeta only)
         | split
         ); done)

theorem Keeps.execTargetTimeout {s z : State} {q : Rq} {a : Nat} (e : Machine.execTargetTimeout q a s = .next z) : Keeps s z := by
  have hz := Keeps.refl s
  revert e
  unfold Machine.execTargetTimeout
  first
    | (intro e; injection e with e; subst e; (repeat' first
         | with_reducible assumption
         | (intro x; with_reducible refine Keeps.cut (o := z0) x ?_ ?_; dsimp only [x]; rotate_left; try clear_value x)
         | (intro x; with_reducible refine Keeps.cut1 (o := z0) x ?_ ?_; dsimp only [x]; rotate_left; try clear_value x)
         | (intro x; with_reducible refine Keeps.cutF x ?_; try dsimp only [x])
         | (intro x; try clear_value x)
         | with_reducible apply Keeps.targetTimeout
         | (fail_if_no_progress dsimp -zeta only)
         | split
         ); done)

theorem Keeps.execStaleReply {s z : State} {q : Rq} {a : Nat} (e : Machine.execStaleReply q a s = .next z) : Keeps s z := by
  have hz := Keeps.refl s
  revert e
  unfold Machine.execStaleReply
  first
    | (intro e; injection e with e; subst e; (repeat' first
         | with_reducible assumption
         | (intro x; with_reducible refine Keeps.cut (o := z0) x ?_ ?_; dsimp only [x]; rotate_left; try clear_value x)
         | (intro x; with_reducible refine Keeps.cut1 (o := z0) x ?_ ?_; dsimp only [x]; rotate_left; try clear_value x)
         | (intro x; with_reducible refine Keeps.cutF x ?_; try dsimp only [x])
         | (intro x; try clear_value x)
         | with_reducible apply Keeps.staleReply
         | (fail_if_no_progress dsimp -zeta only)
         | split
         ); done)

theorem Keeps.execShelfWrite {s z : State} {q : Rq} {c : Fin 13} {sh : Fin 2} {o : Nat} {bytes : List Byte} (e : Machine.execShelfWrite q c sh o bytes s = .next z) : Keeps s z := by
  have hz := Keeps.refl s
  revert e
  unfold Machine.execShelfWrite
  first
    | (intro e; injection e with e; subst e; (repeat' first
         | with_reducible assumption
         | (intro x; with_reducible refine Keeps.cut (o := z0) x ?_ ?_; dsimp only [x]; rotate_left; try clear_value x)
         | (intro x; with_reducible refine Keeps.cut1 (o := z0) x ?_ ?_; dsimp only [x]; rotate_left; try clear_value x)
         | (intro x; with_reducible refine Keeps.cutF x ?_; try dsimp only [x])
         | (intro x; try clear_value x)
         | with_reducible apply Keeps.ite
         | with_reducible apply Keeps.ite1
         | with_reducible apply Keeps.writeCmd
         | (fail_if_no_progress dsimp -zeta only)
         | split
         ); done)
    | (repeat' split) <;> first | (intro e; injection e with e; subst e; (repeat' first
         | with_reducible assumption
         | (intro x; with_reducible refine Keeps.cut (o := z0) x ?_ ?_; dsimp only [x]; rotate_left; try clear_value x)
         | (intro x; with_reducible refine Keeps.cut1 (o := z0) x ?_ ?_; dsimp only [x]; rotate_left; try clear_value x)
         | (intro x; with_reducible refine Keeps.cutF x ?_; try dsimp only [x])
         | (intro x; try clear_value x)
         | with_reducible apply Keeps.ite
         | with_reducible apply Keeps.ite1
         | with_reducible apply Keeps.writeCmd
         | (fail_if_no_progress dsimp -zeta only)
         | split
         ))

end Sys2Proof.Machine
end

