-- ==== Sys2Proof/Laws/KeepDma.lean ====
section
/-! SUPPORT. What the operations of Dma.lean keep. -/

set_option linter.all false

namespace Sys2Proof.Machine

theorem Keeps.descLoad {z0 s : State} {c : Nat} {a : Nat} {d : List Byte} (hz : Keeps z0 s)  : Keeps z0 (Machine.descLoad c a d s) := by
  unfold Machine.descLoad
  try lift_lets
  repeat' first
    | with_reducible assumption
    | (intro x; with_reducible refine Keeps.cut (o := z0) x ?_ ?_; dsimp only [x]; rotate_left; try clear_value x)
    | (intro x; try clear_value x)
    | with_reducible apply Keeps.updDma
    | with_reducible apply Keeps.chGo
    | with_reducible apply Keeps.wr
    | with_reducible apply Keeps.set
    | ((first | rw [patch_eq] | skip); (with_reducible refine Keeps.patch ?_ ?_ ?_); rotate_left; (first | exact CelKeeps.refl _ | exact ⟨fun _ h => h, Nat.le_refl _⟩ | exact ⟨fun _ h => h, Nat.le_succ _⟩); (refine fun g => ?_; first | exact g | simpa only [SizesOk, Machine.patch, upd_length] using g | (simp only [SizesOk, Machine.patch, upd_length, List.length_map, List.length_replicate, true_and] at g ⊢; tauto)))

theorem Keeps.descFetch {z0 s : State} {c : Nat} (hz : Keeps z0 s)  : Keeps z0 (Machine.descFetch c s) := by
  unfold Machine.descFetch
  try lift_lets
  repeat' first
    | with_reducible assumption
    | (intro x; with_reducible refine Keeps.cut1 (o := z0) x ?_ ?_; dsimp only [x]; rotate_left; try clear_value x)
    | with_reducible apply Keeps.ite2
    | (intro x; try clear_value x)
    | with_reducible apply Keeps.ite
    | with_reducible apply Keeps.ite1
    | with_reducible apply Keeps.chHalt
    | with_reducible apply Keeps.busRead
    | with_reducible apply Keeps.descLoad

theorem Keeps.beatIssue {z0 s : State} {c : Nat} (hz : Keeps z0 s)  : Keeps z0 (Machine.beatIssue c s) := by
  unfold Machine.beatIssue
  try lift_lets
  repeat' first
    | with_reducible assumption
    | (intro x; with_reducible refine Keeps.cut (o := z0) x ?_ ?_; dsimp only [x]; rotate_left; try clear_value x)
    | (intro x; try clear_value x)
    | with_reducible apply Keeps.ite
    | with_reducible apply Keeps.ite1
    | with_reducible apply Keeps.pmcCount
    | with_reducible apply Keeps.updDma
    | with_reducible apply Keeps.wr
    | with_reducible apply Keeps.set
    | ((first | rw [patch_eq] | skip); (with_reducible refine Keeps.patch ?_ ?_ ?_); rotate_left; (first | exact CelKeeps.refl _ | exact ⟨fun _ h => h, Nat.le_refl _⟩ | exact ⟨fun _ h => h, Nat.le_succ _⟩); (refine fun g => ?_; first | exact g | simpa only [SizesOk, Machine.patch, upd_length] using g | (simp only [SizesOk, Machine.patch, upd_length, List.length_map, List.length_replicate, true_and] at g ⊢; tauto)))

theorem Keeps.beatError {z0 s : State} {c : Nat} {a : Nat} {o : Code} (hz : Keeps z0 s)  : Keeps z0 (Machine.beatError c a o s) := by
  unfold Machine.beatError
  try lift_lets
  repeat' first
    | with_reducible assumption
    | (intro x; with_reducible refine Keeps.cut (o := z0) x ?_ ?_; dsimp only [x]; rotate_left; try clear_value x)
    | (intro x; try clear_value x)
    | with_reducible apply Keeps.ite
    | with_reducible apply Keeps.ite1
    | with_reducible apply Keeps.chHalt
    | with_reducible apply Keeps.set

theorem Keeps.beatAck {z0 s : State} {c : Nat} {dst : Nat} {o : Code} (hz : Keeps z0 s)  : Keeps z0 (Machine.beatAck c dst o s) := by
  unfold Machine.beatAck
  repeat' first
    | with_reducible assumption
    | with_reducible apply Keeps.ite
    | with_reducible apply Keeps.ite1
    | with_reducible apply Keeps.updDma
    | with_reducible apply Keeps.beatError
    | ((first | rw [patch_eq] | skip); (with_reducible refine Keeps.patch ?_ ?_ ?_); rotate_left; (first | exact CelKeeps.refl _ | exact ⟨fun _ h => h, Nat.le_refl _⟩ | exact ⟨fun _ h => h, Nat.le_succ _⟩); (refine fun g => ?_; first | exact g | simpa only [SizesOk, Machine.patch, upd_length] using g | (simp only [SizesOk, Machine.patch, upd_length, List.length_map, List.length_replicate, true_and] at g ⊢; tauto)))

theorem Keeps.beat {z0 s : State} {c : Nat} {bad : Option Code} (hz : Keeps z0 s)  : Keeps z0 (Machine.beat c bad s) := by
  unfold Machine.beat
  repeat' first
    | with_reducible assumption
    | with_reducible apply Keeps.ite2
    | with_reducible apply Keeps.ite
    | with_reducible apply Keeps.ite1
    | with_reducible apply Keeps.busRead
    | with_reducible apply Keeps.busWrite
    | with_reducible apply Keeps.beatIssue
    | with_reducible apply Keeps.beatError
    | with_reducible apply Keeps.beatAck
    | (fail_if_no_progress dsimp -zeta only)
    | split

theorem Keeps.beats {o s : State} {c n i : Nat} {bad : Option (Nat × Code)} (h : Keeps o s) : Keeps o (Machine.beats c bad n i s) := by
  induction n generalizing i s with
  | zero => exact h
  | succ n ih =>
    unfold Machine.beats
    refine Keeps.ite h ?_
    exact ih (Keeps.beat h)

theorem Keeps.burst {z0 s : State} {c : Nat} {bad : Option (Nat × Code)} (hz : Keeps z0 s)  : Keeps z0 (Machine.burst c bad s) := by
  unfold Machine.burst
  repeat' first
    | with_reducible assumption
    | with_reducible apply Keeps.ite
    | with_reducible apply Keeps.ite1
    | with_reducible apply Keeps.beats
    | with_reducible apply Keeps.set

theorem Keeps.reqLine {z0 s : State} {r : Nat} (hz : Keeps z0 s)  : Keeps z0 (Machine.reqLine r s) := by
  unfold Machine.reqLine
  repeat' first
    | with_reducible assumption
    | (intro x; try clear_value x)
    | with_reducible apply Keeps.ite
    | with_reducible apply Keeps.ite1
    | with_reducible apply Keeps.forN
    | with_reducible apply Keeps.set

theorem Keeps.retire {z0 s : State} {c : Nat} (hz : Keeps z0 s)  : Keeps z0 (Machine.retire c s) := by
  unfold Machine.retire
  repeat' first
    | with_reducible assumption
    | with_reducible apply Keeps.ite
    | with_reducible apply Keeps.ite1
    | with_reducible apply Keeps.chRetire

theorem Keeps.postedError {z0 s : State} {c : Nat} {o : Code} (hz : Keeps z0 s)  : Keeps z0 (Machine.postedError c o s) := by
  unfold Machine.postedError
  try lift_lets
  repeat' first
    | with_reducible assumption
    | (intro x; try clear_value x)
    | with_reducible apply Keeps.ite
    | with_reducible apply Keeps.ite1
    | with_reducible apply Keeps.updDma
    | with_reducible apply Keeps.chHalt
    | with_reducible apply Keeps.freeNext
    | ((first | rw [patch_eq] | skip); (with_reducible refine Keeps.patch ?_ ?_ ?_); rotate_left; (first | exact CelKeeps.refl _ | exact ⟨fun _ h => h, Nat.le_refl _⟩ | exact ⟨fun _ h => h, Nat.le_succ _⟩); (refine fun g => ?_; first | exact g | simpa only [SizesOk, Machine.patch, upd_length] using g | (simp only [SizesOk, Machine.patch, upd_length, List.length_map, List.length_replicate, true_and] at g ⊢; tauto)))

theorem Keeps.lastBeatError {z0 s : State} {c : Nat} {write : Bool} (hz : Keeps z0 s)  : Keeps z0 (Machine.lastBeatError c write s) := by
  unfold Machine.lastBeatError
  try lift_lets
  repeat' first
    | with_reducible assumption
    | (intro x; try clear_value x)
    | with_reducible apply Keeps.ite
    | with_reducible apply Keeps.ite1
    | with_reducible apply Keeps.beatError

theorem Keeps.withdraw {z0 s : State} {c : Nat} {k : Nat} (hz : Keeps z0 s)  : Keeps z0 (Machine.withdraw c k s) := by
  unfold Machine.withdraw
  try lift_lets
  repeat' first
    | with_reducible assumption
    | (intro x; with_reducible refine Keeps.cut (o := z0) x ?_ ?_; dsimp only [x]; rotate_left; try clear_value x)
    | (intro x; try clear_value x)
    | with_reducible apply Keeps.ite
    | with_reducible apply Keeps.ite1
    | with_reducible apply Keeps.forN
    | with_reducible apply Keeps.chHalt
    | with_reducible apply Keeps.beatIssue
    | with_reducible apply Keeps.beats
    | with_reducible apply Keeps.set

theorem Keeps.dmaWrite {s z : State} {q : Rq} {c : Nat} {op : Nat} (e : Machine.dmaWrite q c op s = .next z) : Keeps s z := by
  have hz := Keeps.refl s
  revert e
  unfold Machine.dmaWrite
  first
    | (intro e; injection e with e; subst e; (repeat' first
         | with_reducible assumption
         | (intro x; try clear_value x)
         | with_reducible apply Keeps.gated
         | with_reducible apply Keeps.wrDmaCmd
         ); done)

theorem Keeps.execDmaStart {s z : State} {q : Rq} {c : Fin 32} (e : Machine.execDmaStart q c s = .next z) : Keeps s z := by
  have hz := Keeps.refl s
  revert e
  unfold Machine.execDmaStart
  first
    | exact fun e => Keeps.dmaWrite e
    | (intro e; injection e with e; subst e; (repeat' first
         | with_reducible assumption
         | (intro x; with_reducible refine Keeps.cut (o := z0) x ?_ ?_; dsimp only [x]; rotate_left; try clear_value x)
         | (intro x; with_reducible refine Keeps.cut1 (o := z0) x ?_ ?_; dsimp only [x]; rotate_left; try clear_value x)
         | (intro x; with_reducible refine Keeps.cutF x ?_; try dsimp only [x])
         | (intro x; try clear_value x)
         | (fail_if_no_progress dsimp -zeta only)
         | split
         ); done)

theorem Keeps.execDmaStop {s z : State} {q : Rq} {c : Fin 32} (e : Machine.execDmaStop q c s = .next z) : Keeps s z := by
  have hz := Keeps.refl s
  revert e
  unfold Machine.execDmaStop
  first
    | exact fun e => Keeps.dmaWrite e
    | (intro e; injection e with e; subst e; (repeat' first
         | with_reducible assumption
         | (intro x; with_reducible refine Keeps.cut (o := z0) x ?_ ?_; dsimp only [x]; rotate_left; try clear_value x)
         | (intro x; with_reducible refine Keeps.cut1 (o := z0) x ?_ ?_; dsimp only [x]; rotate_left; try clear_value x)
         | (intro x; with_reducible refine Keeps.cutF x ?_; try dsimp only [x])
         | (intro x; try clear_value x)
         | (fail_if_no_progress dsimp -zeta only)
         | split
         ); done)

theorem Keeps.execDmaResume {s z : State} {q : Rq} {c : Fin 32} (e : Machine.execDmaResume q c s = .next z) : Keeps s z := by
  have hz := Keeps.refl s
  revert e
  unfold Machine.execDmaResume
  first
    | exact fun e => Keeps.dmaWrite e
    | (intro e; injection e with e; subst e; (repeat' first
         | with_reducible assumption
         | (intro x; with_reducible refine Keeps.cut (o := z0) x ?_ ?_; dsimp only [x]; rotate_left; try clear_value x)
         | (intro x; with_reducible refine Keeps.cut1 (o := z0) x ?_ ?_; dsimp only [x]; rotate_left; try clear_value x)
         | (intro x; with_reducible refine Keeps.cutF x ?_; try dsimp only [x])
         | (intro x; try clear_value x)
         | (fail_if_no_progress dsimp -zeta only)
         | split
         ); done)

theorem Keeps.execDescriptorFetch {s z : State} {c : Fin 32} (e : Machine.execDescriptorFetch c s = .next z) : Keeps s z := by
  have hz := Keeps.refl s
  revert e
  unfold Machine.execDescriptorFetch
  first
    | (intro e; injection e with e; subst e; (repeat' first
         | with_reducible assumption
         | with_reducible apply Keeps.descFetch
         ); done)

theorem Keeps.execDmaBurst {s z : State} {c : Fin 32} (e : Machine.execDmaBurst c s = .next z) : Keeps s z := by
  have hz := Keeps.refl s
  revert e
  unfold Machine.execDmaBurst
  first
    | (intro e; injection e with e; subst e; (repeat' first
         | with_reducible assumption
         | with_reducible apply Keeps.burst
         ); done)

theorem Keeps.execDmaRequestLine {s z : State} {r : Fin 32} (e : Machine.execDmaRequestLine r s = .next z) : Keeps s z := by
  have hz := Keeps.refl s
  revert e
  unfold Machine.execDmaRequestLine
  first
    | (intro e; injection e with e; subst e; (repeat' first
         | with_reducible assumption
         | with_reducible apply Keeps.reqLine
         ); done)

theorem Keeps.execDescriptorRetire {s z : State} {c : Fin 32} (e : Machine.execDescriptorRetire c s = .next z) : Keeps s z := by
  have hz := Keeps.refl s
  revert e
  unfold Machine.execDescriptorRetire
  first
    | (intro e; injection e with e; subst e; (repeat' first
         | with_reducible assumption
         | with_reducible apply Keeps.retire
         ); done)

theorem Keeps.execDmaReadError {s z : State} {c : Fin 32} {k : Fin 16} {o : Code} (e : Machine.execDmaReadError c k o s = .next z) : Keeps s z := by
  have hz := Keeps.refl s
  revert e
  unfold Machine.execDmaReadError
  first
    | (intro e; injection e with e; subst e; (repeat' first
         | with_reducible assumption
         | with_reducible apply Keeps.ite
         | with_reducible apply Keeps.ite1
         | with_reducible apply Keeps.burst
         ); done)

theorem Keeps.execDmaPostedError {s z : State} {c : Fin 32} {o : Code} (e : Machine.execDmaPostedError c o s = .next z) : Keeps s z := by
  have hz := Keeps.refl s
  revert e
  unfold Machine.execDmaPostedError
  first
    | (intro e; injection e with e; subst e; (repeat' first
         | with_reducible assumption
         | with_reducible apply Keeps.postedError
         ); done)

theorem Keeps.execDmaLastBeatError {s z : State} {c : Fin 32} {write : Bool} (e : Machine.execDmaLastBeatError c write s = .next z) : Keeps s z := by
  have hz := Keeps.refl s
  revert e
  unfold Machine.execDmaLastBeatError
  first
    | (intro e; injection e with e; subst e; (repeat' first
         | with_reducible assumption
         | with_reducible apply Keeps.lastBeatError
         ); done)

theorem Keeps.execDmaWithdraw {s z : State} {c : Fin 32} {k : Fin 16} (e : Machine.execDmaWithdraw c k s = .next z) : Keeps s z := by
  have hz := Keeps.refl s
  revert e
  unfold Machine.execDmaWithdraw
  first
    | (intro e; injection e with e; subst e; (repeat' first
         | with_reducible assumption
         | with_reducible apply Keeps.withdraw
         ); done)

end Sys2Proof.Machine
end

