-- ==== Sys2Proof/Laws/KeepStop.lean ====
section
/-! SUPPORT. What the operations of Stop.lean keep. -/

set_option linter.all false

namespace Sys2Proof.Machine

theorem Keeps.waitDone {z0 s : State}  (hz : Keeps z0 s)  : Keeps z0 (Machine.waitDone s) := by
  unfold Machine.waitDone
  repeat' first
    | (refine fun (k : Cpu) (hk : CpuOk k) => (?_ : CpuOk _); first | exact hk | (simp only [CpuOk, upd_length] at *; simpa using hk) | (split <;> first | exact hk | (simp only [CpuOk, upd_length] at *; simpa using hk)))
    | exact CelKeeps.refl _
    | exact ⟨fun _ h => h, Nat.le_refl _⟩
    | exact ⟨fun _ h => h, Nat.le_succ _⟩
    | with_reducible assumption
    | with_reducible apply Keeps.updCpu
    | ((first | rw [patch_eq] | skip); (with_reducible refine Keeps.patch ?_ ?_ ?_); rotate_left; (first | exact CelKeeps.refl _ | exact ⟨fun _ h => h, Nat.le_refl _⟩ | exact ⟨fun _ h => h, Nat.le_succ _⟩); (refine fun g => ?_; first | exact g | simpa only [SizesOk, Machine.patch, upd_length] using g | (simp only [SizesOk, Machine.patch, upd_length, List.length_map, List.length_replicate, true_and] at g ⊢; tauto)))

theorem Keeps.stopWait {z0 s : State} {pins : Nat} (hz : Keeps z0 s)  : Keeps z0 (Machine.stopWait pins s) := by
  unfold Machine.stopWait
  try lift_lets
  repeat' first
    | (refine fun (k : Cpu) (hk : CpuOk k) => (?_ : CpuOk _); first | exact hk | (simp only [CpuOk, upd_length] at *; simpa using hk) | (split <;> first | exact hk | (simp only [CpuOk, upd_length] at *; simpa using hk)))
    | exact CelKeeps.refl _
    | exact ⟨fun _ h => h, Nat.le_refl _⟩
    | exact ⟨fun _ h => h, Nat.le_succ _⟩
    | exact fun _ _ e => e
    | (exact fun _ _ e => absurd (Eq.symm e) (Option.some_ne_none _))
    | with_reducible assumption
    | (intro x; try clear_value x)
    | with_reducible apply Keeps.ite
    | with_reducible apply Keeps.ite1
    | with_reducible apply Keeps.updPwr
    | with_reducible apply Keeps.waitDone
    | with_reducible apply Keeps.set
    | with_reducible apply Keeps.updCpu
    | ((first | rw [patch_eq] | skip); (with_reducible refine Keeps.patch ?_ ?_ ?_); rotate_left; (first | exact CelKeeps.refl _ | exact ⟨fun _ h => h, Nat.le_refl _⟩ | exact ⟨fun _ h => h, Nat.le_succ _⟩); (refine fun g => ?_; first | exact g | simpa only [SizesOk, Machine.patch, upd_length] using g | (simp only [SizesOk, Machine.patch, upd_length, List.length_map, List.length_replicate, true_and] at g ⊢; tauto)))

theorem Keeps.stopAbandon {z0 s : State}  (hz : Keeps z0 s)  : Keeps z0 (Machine.stopAbandon s) := by
  unfold Machine.stopAbandon
  try lift_lets
  repeat' first
    | exact fun _ _ e => e
    | (exact fun _ _ e => absurd (Eq.symm e) (Option.some_ne_none _))
    | with_reducible assumption
    | (intro x; with_reducible refine Keeps.cut (o := z0) x ?_ ?_; dsimp only [x]; rotate_left; try clear_value x)
    | (intro x; try clear_value x)
    | with_reducible apply Keeps.updPwr
    | with_reducible apply Keeps.waitDone
    | with_reducible apply Keeps.set
    | ((first | rw [patch_eq] | skip); (with_reducible refine Keeps.patch ?_ ?_ ?_); rotate_left; (first | exact CelKeeps.refl _ | exact ⟨fun _ h => h, Nat.le_refl _⟩ | exact ⟨fun _ h => h, Nat.le_succ _⟩); (refine fun g => ?_; first | exact g | simpa only [SizesOk, Machine.patch, upd_length] using g | (simp only [SizesOk, Machine.patch, upd_length, List.length_map, List.length_replicate, true_and] at g ⊢; tauto)))

theorem Keeps.larderEntry {z0 s : State} {i : Nat} (hz : Keeps z0 s)  : Keeps z0 (Machine.larderEntry i s).1 := by
  unfold Machine.larderEntry
  try lift_lets
  repeat' first
    | with_reducible assumption
    | (intro x; with_reducible refine Keeps.cut1 (o := z0) x ?_ ?_; dsimp only [x]; rotate_left; try clear_value x)
    | with_reducible apply Keeps.ite2
    | (intro x; try clear_value x)
    | with_reducible apply Keeps.ite
    | with_reducible apply Keeps.ite1
    | with_reducible apply Keeps.memRead

theorem Keeps.larderSave {z0 s : State} {i : Nat} (hz : Keeps z0 s) (hi : i < 4096) : Keeps z0 (Machine.larderSave i s) := by
  unfold Machine.larderSave
  repeat' first
    | with_reducible assumption
    | (intro x; with_reducible refine Keeps.cut1 (o := z0) x ?_ ?_; dsimp only [x]; rotate_left; try clear_value x)
    | with_reducible apply Keeps.ite2
    | (intro x; try clear_value x)
    | with_reducible apply Keeps.ite
    | with_reducible apply Keeps.ite1
    | (with_reducible refine Keeps.memWrite ?_ fun _ => unitOf_saved hi)
    | with_reducible apply Keeps.busRead
    | with_reducible apply Keeps.larderEntry
    | with_reducible apply Keeps.addSat
    | with_reducible apply Keeps.freeNext
    | (fail_if_no_progress dsimp -zeta only)
    | split
    | lift_lets

theorem Keeps.larderSaveAll {z0 s : State}  (hz : Keeps z0 s)  : Keeps z0 (Machine.larderSaveAll s) := by
  unfold Machine.larderSaveAll Machine.forN
  refine Keeps.foldlMem hz.set fun s x hx h => Keeps.larderSave h ?_
  have hc : ∀ s : State, s.get PWR_LARDER_count < 4096 := fun s => Nat.mod_lt _ (by decide)
  exact (List.mem_range.1 hx).trans (hc _)

theorem Keeps.larderRestore {z0 s : State} {i : Nat} (hz : Keeps z0 s)  : Keeps z0 (Machine.larderRestore i s) := by
  unfold Machine.larderRestore
  repeat' first
    | with_reducible assumption
    | (intro x; with_reducible refine Keeps.cut1 (o := z0) x ?_ ?_; dsimp only [x]; rotate_left; try clear_value x)
    | with_reducible apply Keeps.ite2
    | (intro x; try clear_value x)
    | with_reducible apply Keeps.ite
    | with_reducible apply Keeps.ite1
    | with_reducible apply Keeps.memRead
    | with_reducible apply Keeps.busWrite
    | with_reducible apply Keeps.larderEntry
    | with_reducible apply Keeps.set
    | with_reducible apply Keeps.addSat
    | (fail_if_no_progress dsimp -zeta only)
    | split
    | lift_lets

theorem Keeps.larderRestoreAll {z0 s : State}  (hz : Keeps z0 s)  : Keeps z0 (Machine.larderRestoreAll s) := by
  unfold Machine.larderRestoreAll
  repeat' first
    | with_reducible assumption
    | (intro x; try clear_value x)
    | with_reducible apply Keeps.forN
    | with_reducible apply Keeps.larderRestore
    | with_reducible apply Keeps.wr
    | with_reducible apply Keeps.set

theorem Keeps.clocksDown {z0 s : State}  (hz : Keeps z0 s)  : Keeps z0 (Machine.clocksDown s) := by
  unfold Machine.clocksDown
  try lift_lets
  repeat' first
    | with_reducible assumption
    | (intro x; with_reducible refine Keeps.cut (o := z0) x ?_ ?_; dsimp only [x]; rotate_left; try clear_value x)
    | (intro x; with_reducible refine Keeps.cut1 (o := z0) x ?_ ?_; dsimp only [x]; rotate_left; try clear_value x)
    | (intro x; with_reducible refine Keeps.cutF x ?_; try dsimp only [x])
    | (intro x; try clear_value x)
    | with_reducible apply Keeps.forN
    | with_reducible apply Keeps.updClk
    | with_reducible apply Keeps.pllFall
    | with_reducible apply Keeps.set
    | ((first | rw [patch_eq] | skip); (with_reducible refine Keeps.patch ?_ ?_ ?_); rotate_left; (first | exact CelKeeps.refl _ | exact ⟨fun _ h => h, Nat.le_refl _⟩ | exact ⟨fun _ h => h, Nat.le_succ _⟩); (refine fun g => ?_; first | exact g | simpa only [SizesOk, Machine.patch, upd_length] using g | (simp only [SizesOk, Machine.patch, upd_length, List.length_map, List.length_replicate, true_and] at g ⊢; tauto)))
    | (fail_if_no_progress dsimp -zeta only)
    | split

theorem Keeps.setStop {z0 s : State} {b : Bool} (hz : Keeps z0 s)  : Keeps z0 (Machine.setStop b s) := by
  unfold Machine.setStop
  exact Keeps.upd hz rfl rfl rfl rfl rfl (CelKeeps.refl _) rfl (fun g => by simp_all [SizesOk])

theorem Keeps.stopDown {z0 s : State}  (hz : Keeps z0 s)  : Keeps z0 (Machine.stopDown s) := by
  unfold Machine.stopDown
  try lift_lets
  repeat' first
    | exact fun _ _ e => e
    | (exact fun _ _ e => absurd (Eq.symm e) (Option.some_ne_none _))
    | with_reducible assumption
    | (intro x; with_reducible refine Keeps.cut (o := z0) x ?_ ?_; dsimp only [x]; rotate_left; try clear_value x)
    | (intro x; with_reducible refine Keeps.cut1 (o := z0) x ?_ ?_; dsimp only [x]; rotate_left; try clear_value x)
    | (intro x; with_reducible refine Keeps.cutF x ?_; try dsimp only [x])
    | (intro x; try clear_value x)
    | with_reducible apply Keeps.ite
    | with_reducible apply Keeps.ite1
    | with_reducible apply Keeps.forN
    | with_reducible apply Keeps.portsFenced
    | with_reducible apply Keeps.retireIf
    | with_reducible apply Keeps.resetMem
    | with_reducible apply Keeps.resetEvr
    | with_reducible apply Keeps.resetGrd
    | with_reducible apply Keeps.updPwr
    | with_reducible apply Keeps.resetOwn
    | with_reducible apply Keeps.romQuiet
    | with_reducible apply Keeps.resetSnk
    | with_reducible apply Keeps.blockDown
    | with_reducible apply Keeps.resetCores
    | with_reducible apply Keeps.clocksDown
    | with_reducible apply Keeps.setStop
    | with_reducible apply Keeps.wr
    | with_reducible apply Keeps.set
    | ((first | rw [patch_eq] | skip); (with_reducible refine Keeps.patch ?_ ?_ ?_); rotate_left; (first | exact CelKeeps.refl _ | exact ⟨fun _ h => h, Nat.le_refl _⟩ | exact ⟨fun _ h => h, Nat.le_succ _⟩); (refine fun g => ?_; first | exact g | simpa only [SizesOk, Machine.patch, upd_length] using g | (simp only [SizesOk, Machine.patch, upd_length, List.length_map, List.length_replicate, true_and] at g ⊢; tauto)))
    | (fail_if_no_progress dsimp -zeta only)
    | split

theorem Keeps.wakeUp {z0 s : State} {pins : Nat} (hz : Keeps z0 s)  : Keeps z0 (Machine.wakeUp pins s) := by
  unfold Machine.wakeUp
  try lift_lets
  repeat' first
    | exact fun _ _ e => e
    | (exact fun _ _ e => absurd (Eq.symm e) (Option.some_ne_none _))
    | with_reducible assumption
    | (intro x; with_reducible refine Keeps.cut (o := z0) x ?_ ?_; dsimp only [x]; rotate_left; try clear_value x)
    | (intro x; with_reducible refine Keeps.cut1 (o := z0) x ?_ ?_; dsimp only [x]; rotate_left; try clear_value x)
    | (intro x; with_reducible refine Keeps.cutF x ?_; try dsimp only [x])
    | (intro x; try clear_value x)
    | with_reducible apply Keeps.ite
    | with_reducible apply Keeps.ite1
    | with_reducible apply Keeps.forN
    | with_reducible apply Keeps.updPwr
    | with_reducible apply Keeps.avsHardware
    | with_reducible apply Keeps.updRst
    | with_reducible apply Keeps.blockUp
    | with_reducible apply Keeps.setStop
    | with_reducible apply Keeps.set
    | ((first | rw [patch_eq] | skip); (with_reducible refine Keeps.patch ?_ ?_ ?_); rotate_left; (first | exact CelKeeps.refl _ | exact ⟨fun _ h => h, Nat.le_refl _⟩ | exact ⟨fun _ h => h, Nat.le_succ _⟩); (refine fun g => ?_; first | exact g | simpa only [SizesOk, Machine.patch, upd_length] using g | (simp only [SizesOk, Machine.patch, upd_length, List.length_map, List.length_replicate, true_and] at g ⊢; tauto)))
    | (fail_if_no_progress dsimp -zeta only)
    | split

theorem Keeps.wakeStart {z0 s : State} {pins : Nat} (hz : Keeps z0 s)  : Keeps z0 (Machine.wakeStart pins s) := by
  unfold Machine.wakeStart
  repeat' first
    | exact fun _ _ e => e
    | (exact fun _ _ e => absurd (Eq.symm e) (Option.some_ne_none _))
    | with_reducible assumption
    | (intro x; with_reducible refine Keeps.cut (o := z0) x ?_ ?_; dsimp only [x]; rotate_left; try clear_value x)
    | (intro x; with_reducible refine Keeps.cut1 (o := z0) x ?_ ?_; dsimp only [x]; rotate_left; try clear_value x)
    | (intro x; with_reducible refine Keeps.cutF x ?_; try dsimp only [x])
    | (intro x; try clear_value x)
    | with_reducible apply Keeps.ite
    | with_reducible apply Keeps.ite1
    | with_reducible apply Keeps.updPwr
    | with_reducible apply Keeps.wakeUp
    | ((first | rw [patch_eq] | skip); (with_reducible refine Keeps.patch ?_ ?_ ?_); rotate_left; (first | exact CelKeeps.refl _ | exact ⟨fun _ h => h, Nat.le_refl _⟩ | exact ⟨fun _ h => h, Nat.le_succ _⟩); (refine fun g => ?_; first | exact g | simpa only [SizesOk, Machine.patch, upd_length] using g | (simp only [SizesOk, Machine.patch, upd_length, List.length_map, List.length_replicate, true_and] at g ⊢; tauto)))
    | (fail_if_no_progress dsimp -zeta only)
    | split

theorem Keeps.wakeLatched {z0 s : State}  (hz : Keeps z0 s)  : Keeps z0 (Machine.wakeLatched s) := by
  unfold Machine.wakeLatched
  repeat' first
    | with_reducible assumption
    | (intro x; with_reducible refine Keeps.cut (o := z0) x ?_ ?_; dsimp only [x]; rotate_left; try clear_value x)
    | (intro x; with_reducible refine Keeps.cut1 (o := z0) x ?_ ?_; dsimp only [x]; rotate_left; try clear_value x)
    | (intro x; with_reducible refine Keeps.cutF x ?_; try dsimp only [x])
    | (intro x; try clear_value x)
    | with_reducible apply Keeps.wakeUp
    | ((first | rw [patch_eq] | skip); (with_reducible refine Keeps.patch ?_ ?_ ?_); rotate_left; (first | exact CelKeeps.refl _ | exact ⟨fun _ h => h, Nat.le_refl _⟩ | exact ⟨fun _ h => h, Nat.le_succ _⟩); (refine fun g => ?_; first | exact g | simpa only [SizesOk, Machine.patch, upd_length] using g | (simp only [SizesOk, Machine.patch, upd_length, List.length_map, List.length_replicate, true_and] at g ⊢; tauto)))
    | (fail_if_no_progress dsimp -zeta only)
    | split

theorem Keeps.powerDown {z0 s : State} (hz : Keeps z0 s) : Keeps z0 (Machine.powerDown s) := Keeps.wakeLatched (Keeps.stopDown hz)

theorem Keeps.stopGo {z0 s : State}  (hz : Keeps z0 s)  : Keeps z0 (Machine.stopGo s) := by
  unfold Machine.stopGo
  repeat' first
    | with_reducible assumption
    | with_reducible apply Keeps.ite
    | with_reducible apply Keeps.ite1
    | with_reducible apply Keeps.powerDown

theorem Keeps.stopStep3 {z0 s : State}  (hz : Keeps z0 s)  : Keeps z0 (Machine.stopStep3 s) := by
  unfold Machine.stopStep3
  repeat' first
    | exact fun _ _ e => e
    | (exact fun _ _ e => absurd (Eq.symm e) (Option.some_ne_none _))
    | with_reducible assumption
    | with_reducible apply Keeps.ite
    | with_reducible apply Keeps.ite1
    | with_reducible apply Keeps.updPwr
    | with_reducible apply Keeps.avsHardware
    | with_reducible apply Keeps.stopGo
    | ((first | rw [patch_eq] | skip); (with_reducible refine Keeps.patch ?_ ?_ ?_); rotate_left; (first | exact CelKeeps.refl _ | exact ⟨fun _ h => h, Nat.le_refl _⟩ | exact ⟨fun _ h => h, Nat.le_succ _⟩); (refine fun g => ?_; first | exact g | simpa only [SizesOk, Machine.patch, upd_length] using g | (simp only [SizesOk, Machine.patch, upd_length, List.length_map, List.length_replicate, true_and] at g ⊢; tauto)))

theorem nth_mem {α : Type} [Inhabited α] {l : List α} {n : Nat} (h : n < l.length) : nth l n ∈ l := by
  induction l generalizing n with
  | nil => simp at h
  | cons x t ih =>
    cases n with
    | zero => simp [nth]
    | succ n => exact List.mem_cons_of_mem _ (ih (Nat.lt_of_succ_lt_succ h))

/-- Every core that the part has is of its size. -/
theorem Inv.cpu {s : State} (h : Inv s) {c : Nat} (hc : c < 14) : CpuOk (s.cpu c) := by
  obtain ⟨_, _, _, d, e⟩ := h
  have l : s.cores.length = 14 := d.2.2.2.2.2.2.2.2.2.2.1
  exact e _ (nth_mem (l ▸ hc))

theorem Inv.saved {s : State} (h : Inv s) : CpuOk (s.pwr.saved.getD (s.cpu 12)) := by
  cases e : s.pwr.saved with
  | none => exact h.cpu (by decide)
  | some k => exact h.2.2.2.1.2.2.2.2.2.2.2.2.2.2.2.2.2.2 k e

theorem Keeps.updPwrI {o s : State} {f : Pwr → Pwr} (h : Keeps o s) (hf : Inv s → ∀ k, (f s.pwr).saved = some k → CpuOk k) :
    Keeps o (Machine.updPwr f s) := by
  refine ⟨fun i => ?_, h.2⟩
  obtain ⟨a, b, c, d, e⟩ := h.1 i
  obtain ⟨a1, a2, a3, a4, a5, a6, a7, a8, a9, a10, a11, a12, a13, a14, _⟩ := d
  exact ⟨a, b, c, ⟨a1, a2, a3, a4, a5, a6, a7, a8, a9, a10, a11, a12, a13, a14, hf (h.1 i)⟩, e⟩

theorem Keeps.updCpuI {o s : State} (h : Keeps o s) {c : Nat} {f : Cpu → Cpu} (g : Inv s → ∀ k, CpuOk k → CpuOk (f k)) :
    Keeps o (Machine.updCpu c f s) :=
  ⟨fun i => (Keeps.updCpu (Keeps.refl s) (g (h.1 i))).1 (h.1 i), h.2⟩

theorem Keeps.stopEntry {o s : State} {pins : Nat} (h : Keeps o s) : Keeps o (Machine.stopEntry pins s) := by
  unfold Machine.stopEntry
  refine Keeps.ite h (Keeps.ite (Keeps.stopAbandon h) ?_)
  have g : Keeps o (Machine.larderSaveAll (Machine.putFree 0x5000F000 0x400 (Machine.updPwr (fun p =>
      { p with saved := some { s.cpu 12 with pc := (s.cpu 12).pc + 4, wait := .run } }) s))) := by
    refine Keeps.larderSaveAll (Keeps.putFree (Keeps.updPwrI h fun i k e => ?_))
    cases e
    exact i.cpu (by decide)
  exact Keeps.ite (Keeps.stopAbandon g) (Keeps.stopStep3 g)

theorem Keeps.forcedStop {z0 s : State}  (hz : Keeps z0 s)  : Keeps z0 (Machine.forcedStop s) := by
  unfold Machine.forcedStop
  repeat' first
    | exact fun _ _ e => e
    | (exact fun _ _ e => absurd (Eq.symm e) (Option.some_ne_none _))
    | with_reducible assumption
    | with_reducible apply Keeps.updPwr
    | with_reducible apply Keeps.larderSaveAll
    | with_reducible apply Keeps.stopStep3
    | ((first | rw [patch_eq] | skip); (with_reducible refine Keeps.patch ?_ ?_ ?_); rotate_left; (first | exact CelKeeps.refl _ | exact ⟨fun _ h => h, Nat.le_refl _⟩ | exact ⟨fun _ h => h, Nat.le_succ _⟩); (refine fun g => ?_; first | exact g | simpa only [SizesOk, Machine.patch, upd_length] using g | (simp only [SizesOk, Machine.patch, upd_length, List.length_map, List.length_replicate, true_and] at g ⊢; tauto)))

theorem Keeps.shutdownStop {z0 s : State}  (hz : Keeps z0 s)  : Keeps z0 (Machine.shutdownStop s) := by
  unfold Machine.shutdownStop
  repeat' first
    | exact fun _ _ e => e
    | (exact fun _ _ e => absurd (Eq.symm e) (Option.some_ne_none _))
    | with_reducible assumption
    | with_reducible apply Keeps.ite
    | with_reducible apply Keeps.ite1
    | with_reducible apply Keeps.updPwr
    | with_reducible apply Keeps.forcedStop
    | (fail_if_no_progress dsimp -zeta only)
    | split

theorem Keeps.stopOn {z0 s : State}  (hz : Keeps z0 s)  : Keeps z0 (Machine.stopOn s) := by
  unfold Machine.stopOn
  repeat' first
    | exact fun _ _ e => e
    | (exact fun _ _ e => absurd (Eq.symm e) (Option.some_ne_none _))
    | with_reducible assumption
    | (intro x; with_reducible refine Keeps.cut (o := z0) x ?_ ?_; dsimp only [x]; rotate_left; try clear_value x)
    | (intro x; with_reducible refine Keeps.cut1 (o := z0) x ?_ ?_; dsimp only [x]; rotate_left; try clear_value x)
    | (intro x; with_reducible refine Keeps.cutF x ?_; try dsimp only [x])
    | (intro x; try clear_value x)
    | with_reducible apply Keeps.ite
    | with_reducible apply Keeps.ite1
    | with_reducible apply Keeps.updPwr
    | with_reducible apply Keeps.stopGo
    | with_reducible apply Keeps.forcedStop
    | ((first | rw [patch_eq] | skip); (with_reducible refine Keeps.patch ?_ ?_ ?_); rotate_left; (first | exact CelKeeps.refl _ | exact ⟨fun _ h => h, Nat.le_refl _⟩ | exact ⟨fun _ h => h, Nat.le_succ _⟩); (refine fun g => ?_; first | exact g | simpa only [SizesOk, Machine.patch, upd_length] using g | (simp only [SizesOk, Machine.patch, upd_length, List.length_map, List.length_replicate, true_and] at g ⊢; tauto)))
    | (fail_if_no_progress dsimp -zeta only)
    | split

theorem Keeps.woken {z0 s : State}  (hz : Keeps z0 s)  : Keeps z0 (Machine.woken s) := by
  unfold Machine.woken
  try lift_lets
  repeat' first
    | exact fun _ _ e => e
    | (exact fun _ _ e => absurd (Eq.symm e) (Option.some_ne_none _))
    | with_reducible assumption
    | (intro x; with_reducible refine Keeps.cut (o := z0) x ?_ ?_; dsimp only [x]; rotate_left; try clear_value x)
    | (intro x; try clear_value x)
    | with_reducible apply Keeps.ite
    | with_reducible apply Keeps.ite1
    | with_reducible apply Keeps.updPwr
    | with_reducible apply Keeps.pwrEvt
    | with_reducible apply Keeps.atticWarn
    | with_reducible apply Keeps.forcedStop
    | with_reducible apply Keeps.set
    | ((first | rw [patch_eq] | skip); (with_reducible refine Keeps.patch ?_ ?_ ?_); rotate_left; (first | exact CelKeeps.refl _ | exact ⟨fun _ h => h, Nat.le_refl _⟩ | exact ⟨fun _ h => h, Nat.le_succ _⟩); (refine fun g => ?_; first | exact g | simpa only [SizesOk, Machine.patch, upd_length] using g | (simp only [SizesOk, Machine.patch, upd_length, List.length_map, List.length_replicate, true_and] at g ⊢; tauto)))

theorem Keeps.wakeMeasure {z0 s : State} {temps : List Int} (hz : Keeps z0 s)  : Keeps z0 (Machine.wakeMeasure temps s) := by
  unfold Machine.wakeMeasure
  try lift_lets
  repeat' first
    | exact fun _ _ e => e
    | (exact fun _ _ e => absurd (Eq.symm e) (Option.some_ne_none _))
    | with_reducible assumption
    | (intro x; try clear_value x)
    | with_reducible apply Keeps.updPwr
    | with_reducible apply Keeps.measStart
    | with_reducible apply Keeps.thMeasEnd
    | with_reducible apply Keeps.set
    | ((first | rw [patch_eq] | skip); (with_reducible refine Keeps.patch ?_ ?_ ?_); rotate_left; (first | exact CelKeeps.refl _ | exact ⟨fun _ h => h, Nat.le_refl _⟩ | exact ⟨fun _ h => h, Nat.le_succ _⟩); (refine fun g => ?_; first | exact g | simpa only [SizesOk, Machine.patch, upd_length] using g | (simp only [SizesOk, Machine.patch, upd_length, List.length_map, List.length_replicate, true_and] at g ⊢; tauto)))

theorem Keeps.wakeResume {o s : State} {temps : List Int} (h : Keeps o s) : Keeps o (Machine.wakeResume temps s) := by
  unfold Machine.wakeResume
  refine Keeps.ite h (Keeps.ite (Keeps.romStart (Keeps.updPwr (Keeps.cpuReset h) fun _ _ e => absurd (Eq.symm e) (Option.some_ne_none _))) ?_)
  have g : Keeps o (Machine.wakeMeasure temps (Machine.larderRestoreAll s)) := Keeps.wakeMeasure (Keeps.larderRestoreAll h)
  refine Keeps.ite (Keeps.ite ?_ ?_) ?_
  · exact Keeps.powerDown (Keeps.updPwr (Keeps.addSat (Keeps.set g)) fun _ _ e => e)
  · exact Keeps.woken (Keeps.romStart (Keeps.updPwr (Keeps.cpuReset (Keeps.set g)) fun _ _ e => e))
  · exact Keeps.woken (Keeps.set (Keeps.set (Keeps.updPwr (Keeps.updCpuI g fun i _ _ => i.saved)
      fun _ _ e => absurd (Eq.symm e) (Option.some_ne_none _))))

theorem Keeps.execStopEntry {s z : State} {pins : BitVec 11} (e : Machine.execStopEntry pins s = .next z) : Keeps s z := by
  have hz := Keeps.refl s
  revert e
  unfold Machine.execStopEntry
  first
    | (intro e; injection e with e; subst e; (repeat' first
         | with_reducible assumption
         | (intro x; with_reducible refine Keeps.cut (o := z0) x ?_ ?_; dsimp only [x]; rotate_left; try clear_value x)
         | (intro x; with_reducible refine Keeps.cut1 (o := z0) x ?_ ?_; dsimp only [x]; rotate_left; try clear_value x)
         | (intro x; with_reducible refine Keeps.cutF x ?_; try dsimp only [x])
         | (intro x; try clear_value x)
         | with_reducible apply Keeps.stopEntry
         | (fail_if_no_progress dsimp -zeta only)
         | split
         ); done)

theorem Keeps.execWakeSourceQualified {s z : State} {pins : BitVec 11} (e : Machine.execWakeSourceQualified pins s = .next z) : Keeps s z := by
  have hz := Keeps.refl s
  revert e
  unfold Machine.execWakeSourceQualified
  first
    | (intro e; injection e with e; subst e; (repeat' first
         | with_reducible assumption
         | (intro x; with_reducible refine Keeps.cut (o := z0) x ?_ ?_; dsimp only [x]; rotate_left; try clear_value x)
         | (intro x; with_reducible refine Keeps.cut1 (o := z0) x ?_ ?_; dsimp only [x]; rotate_left; try clear_value x)
         | (intro x; with_reducible refine Keeps.cutF x ?_; try dsimp only [x])
         | (intro x; try clear_value x)
         | with_reducible apply Keeps.wakeStart
         | (fail_if_no_progress dsimp -zeta only)
         | split
         ); done)

theorem Keeps.execWakeResume {s z : State} {temps : List Int} (e : Machine.execWakeResume temps s = .next z) : Keeps s z := by
  have hz := Keeps.refl s
  revert e
  unfold Machine.execWakeResume
  first
    | (intro e; injection e with e; subst e; (repeat' first
         | with_reducible assumption
         | with_reducible apply Keeps.wakeResume
         ); done)

theorem Keeps.execShutdownStop {s z : State}  (e : Machine.execShutdownStop s = .next z) : Keeps s z := by
  have hz := Keeps.refl s
  revert e
  unfold Machine.execShutdownStop
  first
    | (intro e; injection e with e; subst e; (repeat' first
         | with_reducible assumption
         | with_reducible apply Keeps.shutdownStop
         ); done)

theorem Keeps.execAvsResponse {s z : State} {ack : BitVec 2} {vdone : Bool} {mv : Option (BitVec 16)} (e : Machine.execAvsResponse ack vdone mv s = .next z) : Keeps s z := by
  have hz := Keeps.refl s
  revert e
  unfold Machine.execAvsResponse
  first
    | (intro e; injection e with e; subst e; (repeat' first
         | with_reducible assumption
         | with_reducible apply Keeps.avsResponse
         | with_reducible apply Keeps.stopGo
         ); done)

theorem Keeps.execAvsAttemptTimeout {s z : State}  (e : Machine.execAvsAttemptTimeout s = .next z) : Keeps s z := by
  have hz := Keeps.refl s
  revert e
  unfold Machine.execAvsAttemptTimeout
  first
    | (intro e; injection e with e; subst e; (repeat' first
         | with_reducible assumption
         | with_reducible apply Keeps.avsTimeout
         | with_reducible apply Keeps.stopGo
         ); done)

theorem Keeps.execThermalMeasurementEnd {s z : State} {temps : List Int} (e : Machine.execThermalMeasurementEnd temps s = .next z) : Keeps s z := by
  have hz := Keeps.refl s
  revert e
  unfold Machine.execThermalMeasurementEnd
  first
    | (intro e; injection e with e; subst e; (repeat' first
         | with_reducible assumption
         | with_reducible apply Keeps.thMeasEnd
         | with_reducible apply Keeps.stopGo
         ); done)

end Sys2Proof.Machine
end

