-- ==== Sys2Proof/Laws/KeepIsaBase.lean ====
section
/-! SUPPORT. What the operations of IsaBase.lean keep. -/

set_option linter.all false

namespace Sys2Proof.Machine

theorem Keeps.setW {z0 s : State} {c : Nat} {r : Nat} {v : Word} (hz : Keeps z0 s)  : Keeps z0 (Machine.setW c r v s) := by
  unfold Machine.setW
  repeat' first
    | (refine fun (k : Cpu) (hk : CpuOk k) => (?_ : CpuOk _); first | exact hk | (simp only [CpuOk, upd_length] at *; simpa using hk) | (split <;> first | exact hk | (simp only [CpuOk, upd_length] at *; simpa using hk)))
    | exact CelKeeps.refl _
    | exact ⟨fun _ h => h, Nat.le_refl _⟩
    | exact ⟨fun _ h => h, Nat.le_succ _⟩
    | with_reducible assumption
    | with_reducible apply Keeps.ite
    | with_reducible apply Keeps.ite1
    | with_reducible apply Keeps.updCpu
    | ((first | rw [patch_eq] | skip); (with_reducible refine Keeps.patch ?_ ?_ ?_); rotate_left; (first | exact CelKeeps.refl _ | exact ⟨fun _ h => h, Nat.le_refl _⟩ | exact ⟨fun _ h => h, Nat.le_succ _⟩); (refine fun g => ?_; first | exact g | simpa only [SizesOk, Machine.patch, upd_length] using g | (simp only [SizesOk, Machine.patch, upd_length, List.length_map, List.length_replicate, true_and] at g ⊢; tauto)))

theorem Keeps.setV {z0 s : State} {c : Nat} {r : Nat} {v : List Word} (hz : Keeps z0 s)  : Keeps z0 (Machine.setV c r v s) := by
  unfold Machine.setV
  repeat' first
    | (refine fun (k : Cpu) (hk : CpuOk k) => (?_ : CpuOk _); first | exact hk | (simp only [CpuOk, upd_length] at *; simpa using hk) | (split <;> first | exact hk | (simp only [CpuOk, upd_length] at *; simpa using hk)))
    | exact CelKeeps.refl _
    | exact ⟨fun _ h => h, Nat.le_refl _⟩
    | exact ⟨fun _ h => h, Nat.le_succ _⟩
    | with_reducible assumption
    | with_reducible apply Keeps.updCpu
    | ((first | rw [patch_eq] | skip); (with_reducible refine Keeps.patch ?_ ?_ ?_); rotate_left; (first | exact CelKeeps.refl _ | exact ⟨fun _ h => h, Nat.le_refl _⟩ | exact ⟨fun _ h => h, Nat.le_succ _⟩); (refine fun g => ?_; first | exact g | simpa only [SizesOk, Machine.patch, upd_length] using g | (simp only [SizesOk, Machine.patch, upd_length, List.length_map, List.length_replicate, true_and] at g ⊢; tauto)))

theorem Keeps.tally {z0 s : State} {c : Nat} {evt : Nat} {o : Occ} (hz : Keeps z0 s)  : Keeps z0 (Machine.tally c evt o s) := by
  unfold Machine.tally
  repeat' first
    | with_reducible assumption
    | with_reducible apply Keeps.ite
    | with_reducible apply Keeps.ite1
    | with_reducible apply Keeps.count

theorem Keeps.goTo {z0 s : State} {c : Nat} {t : Word} (hz : Keeps z0 s)  : Keeps z0 (Machine.goTo c t s) := by
  unfold Machine.goTo
  try lift_lets
  repeat' first
    | (refine fun (k : Cpu) (hk : CpuOk k) => (?_ : CpuOk _); first | exact hk | (simp only [CpuOk, upd_length] at *; simpa using hk) | (split <;> first | exact hk | (simp only [CpuOk, upd_length] at *; simpa using hk)))
    | exact CelKeeps.refl _
    | exact ⟨fun _ h => h, Nat.le_refl _⟩
    | exact ⟨fun _ h => h, Nat.le_succ _⟩
    | with_reducible assumption
    | (intro x; try clear_value x)
    | with_reducible apply Keeps.tally
    | with_reducible apply Keeps.updCpu
    | ((first | rw [patch_eq] | skip); (with_reducible refine Keeps.patch ?_ ?_ ?_); rotate_left; (first | exact CelKeeps.refl _ | exact ⟨fun _ h => h, Nat.le_refl _⟩ | exact ⟨fun _ h => h, Nat.le_succ _⟩); (refine fun g => ?_; first | exact g | simpa only [SizesOk, Machine.patch, upd_length] using g | (simp only [SizesOk, Machine.patch, upd_length, List.length_map, List.length_replicate, true_and] at g ⊢; tauto)))

theorem Keeps.goOn {z0 s : State} {c : Nat} (hz : Keeps z0 s)  : Keeps z0 (Machine.goOn c s) := by
  unfold Machine.goOn
  repeat' first
    | with_reducible assumption
    | with_reducible apply Keeps.goTo

theorem Keeps.jump {z0 s : State} {c : Nat} {t : Word} (hz : Keeps z0 s)  : Keeps z0 (Machine.jump c t s) := by
  unfold Machine.jump
  repeat' first
    | with_reducible assumption
    | with_reducible apply Keeps.tally
    | with_reducible apply Keeps.goTo

theorem CpuOk.trapped {k : Cpu} {t : Trap} (h : CpuOk k) : CpuOk (k.trapped t) := by
  unfold Cpu.trapped
  split <;> exact h

theorem Keeps.takeTrap {o s : State} {c : Nat} {t : Trap} (h : Keeps o s) : Keeps o (Machine.takeTrap c t s) := by
  unfold Machine.takeTrap
  refine Keeps.updCpu ?_ fun k hk => hk.trapped
  exact Keeps.ite (Keeps.tally (Keeps.tally h)) (Keeps.tally h)

theorem Keeps.stopEvent {z0 s : State} {c : Nat} (hz : Keeps z0 s)  : Keeps z0 (Machine.stopEvent c s) := by
  unfold Machine.stopEvent
  repeat' first
    | with_reducible assumption
    | with_reducible apply Keeps.ite
    | with_reducible apply Keeps.ite1
    | with_reducible apply Keeps.stopAbandon

theorem Keeps.retireWait {z0 s : State} {c : Nat} (hz : Keeps z0 s)  : Keeps z0 (Machine.retireWait c s) := by
  unfold Machine.retireWait
  repeat' first
    | with_reducible assumption
    | (intro x; with_reducible refine Keeps.cut (o := z0) x ?_ ?_; dsimp only [x]; rotate_left; try clear_value x)
    | (intro x; with_reducible refine Keeps.cut1 (o := z0) x ?_ ?_; dsimp only [x]; rotate_left; try clear_value x)
    | (intro x; with_reducible refine Keeps.cutF x ?_; try dsimp only [x])
    | (intro x; try clear_value x)
    | with_reducible apply Keeps.ite
    | with_reducible apply Keeps.ite1
    | with_reducible apply Keeps.tally
    | (fail_if_no_progress dsimp -zeta only)
    | split

theorem Keeps.eventTrap {z0 s : State} {c : Nat} {e : Nat} (hz : Keeps z0 s)  : Keeps z0 (Machine.eventTrap c e s) := by
  unfold Machine.eventTrap
  try lift_lets
  repeat' first
    | with_reducible assumption
    | (intro x; with_reducible refine Keeps.cut (o := z0) x ?_ ?_; dsimp only [x]; rotate_left; try clear_value x)
    | (intro x; with_reducible refine Keeps.cut1 (o := z0) x ?_ ?_; dsimp only [x]; rotate_left; try clear_value x)
    | (intro x; with_reducible refine Keeps.cutF x ?_; try dsimp only [x])
    | (intro x; try clear_value x)
    | with_reducible apply Keeps.clearPend
    | with_reducible apply Keeps.takeTrap
    | with_reducible apply Keeps.stopEvent
    | with_reducible apply Keeps.retireWait
    | (fail_if_no_progress dsimp -zeta only)
    | split

theorem Keeps.nmiTrap {z0 s : State} {e : Nat} (hz : Keeps z0 s)  : Keeps z0 (Machine.nmiTrap e s) := by
  unfold Machine.nmiTrap
  try lift_lets
  repeat' first
    | with_reducible assumption
    | (intro x; with_reducible refine Keeps.cut (o := z0) x ?_ ?_; dsimp only [x]; rotate_left; try clear_value x)
    | (intro x; with_reducible refine Keeps.cut1 (o := z0) x ?_ ?_; dsimp only [x]; rotate_left; try clear_value x)
    | (intro x; with_reducible refine Keeps.cutF x ?_; try dsimp only [x])
    | (intro x; try clear_value x)
    | with_reducible apply Keeps.clearPend
    | with_reducible apply Keeps.takeTrap
    | with_reducible apply Keeps.stopEvent
    | with_reducible apply Keeps.retireWait
    | (fail_if_no_progress dsimp -zeta only)
    | split

theorem Keeps.rankTrap {z0 s : State} {c : Nat} {t : Trap} (hz : Keeps z0 s)  : Keeps z0 (Machine.rankTrap c t s) := by
  unfold Machine.rankTrap
  repeat' first
    | with_reducible assumption
    | (intro x; with_reducible refine Keeps.cut (o := z0) x ?_ ?_; dsimp only [x]; rotate_left; try clear_value x)
    | (intro x; with_reducible refine Keeps.cut1 (o := z0) x ?_ ?_; dsimp only [x]; rotate_left; try clear_value x)
    | (intro x; with_reducible refine Keeps.cutF x ?_; try dsimp only [x])
    | (intro x; try clear_value x)
    | with_reducible apply Keeps.takeTrap
    | with_reducible apply Keeps.nmiTrap
    | ((first | rw [patch_eq] | skip); (with_reducible refine Keeps.patch ?_ ?_ ?_); rotate_left; (first | exact CelKeeps.refl _ | exact ⟨fun _ h => h, Nat.le_refl _⟩ | exact ⟨fun _ h => h, Nat.le_succ _⟩); (refine fun g => ?_; first | exact g | simpa only [SizesOk, Machine.patch, upd_length] using g | (simp only [SizesOk, Machine.patch, upd_length, List.length_map, List.length_replicate, true_and] at g ⊢; tauto)))
    | (fail_if_no_progress dsimp -zeta only)
    | split

theorem Keeps.trap {z0 s : State} {c : Nat} {code : Nat} {info : Nat} {tval : Word} (hz : Keeps z0 s)  : Keeps z0 (Machine.trap c code info tval s) := by
  unfold Machine.trap
  repeat' first
    | with_reducible assumption
    | (intro x; with_reducible refine Keeps.cut (o := z0) x ?_ ?_; dsimp only [x]; rotate_left; try clear_value x)
    | (intro x; with_reducible refine Keeps.cut1 (o := z0) x ?_ ?_; dsimp only [x]; rotate_left; try clear_value x)
    | (intro x; with_reducible refine Keeps.cutF x ?_; try dsimp only [x])
    | (intro x; try clear_value x)
    | with_reducible apply Keeps.rankTrap
    | (fail_if_no_progress dsimp -zeta only)
    | split

theorem Keeps.illegal {z0 s : State} {c : Nat} {word : Word} (hz : Keeps z0 s)  : Keeps z0 (Machine.illegal c word s) := by
  unfold Machine.illegal
  repeat' first
    | with_reducible assumption
    | with_reducible apply Keeps.trap

theorem Keeps.priv {z0 s : State} {c : Nat} {tval : Word} (hz : Keeps z0 s)  : Keeps z0 (Machine.priv c tval s) := by
  unfold Machine.priv
  repeat' first
    | with_reducible assumption
    | with_reducible apply Keeps.trap

theorem Keeps.fetch {z0 s : State} {c : Nat} (hz : Keeps z0 s)  : Keeps z0 (Machine.fetch c s).1 := by
  unfold Machine.fetch
  repeat' first
    | with_reducible assumption
    | (intro x; with_reducible refine Keeps.cut (o := z0) x ?_ ?_; dsimp only [x]; rotate_left; try clear_value x)
    | (intro x; with_reducible refine Keeps.cut1 (o := z0) x ?_ ?_; dsimp only [x]; rotate_left; try clear_value x)
    | (intro x; with_reducible refine Keeps.cut2 (o := z0) x ?_ ?_; dsimp only [x]; rotate_left; try clear_value x)
    | with_reducible apply Keeps.ite2
    | (intro x; with_reducible refine Keeps.cutF x ?_; try dsimp only [x])
    | (intro x; try clear_value x)
    | with_reducible apply Keeps.ite
    | with_reducible apply Keeps.ite1
    | with_reducible apply Keeps.readWord
    | with_reducible apply Keeps.timedOut
    | with_reducible apply Keeps.busRead
    | ((first | rw [patch_eq] | skip); (with_reducible refine Keeps.patch ?_ ?_ ?_); rotate_left; (first | exact CelKeeps.refl _ | exact ⟨fun _ h => h, Nat.le_refl _⟩ | exact ⟨fun _ h => h, Nat.le_succ _⟩); (refine fun g => ?_; first | exact g | simpa only [SizesOk, Machine.patch, upd_length] using g | (simp only [SizesOk, Machine.patch, upd_length, List.length_map, List.length_replicate, true_and] at g ⊢; tauto)))
    | (fail_if_no_progress dsimp -zeta only)
    | split
    | lift_lets

theorem Keeps.fetchTrap {z0 s : State} {c : Nat} {o : Code} (hz : Keeps z0 s)  : Keeps z0 (Machine.fetchTrap c o s) := by
  unfold Machine.fetchTrap
  try lift_lets
  repeat' first
    | with_reducible assumption
    | (intro x; try clear_value x)
    | with_reducible apply Keeps.ite
    | with_reducible apply Keeps.ite1
    | with_reducible apply Keeps.tally
    | with_reducible apply Keeps.trap

theorem Keeps.isa {z0 s : State} {c : Nat} {f : State → State} (hz : Keeps z0 s) (hf : ∀ x0, Keeps z0 x0 → Keeps z0 (f x0)) : Keeps z0 (Machine.isa c f s) := by
  unfold Machine.isa
  try lift_lets
  repeat' first
    | with_reducible assumption
    | (intro x; with_reducible refine Keeps.cut1 (o := z0) x ?_ ?_; dsimp only [x]; rotate_left; try clear_value x)
    | with_reducible apply Keeps.ite2
    | (intro x; try clear_value x)
    | with_reducible apply Keeps.ite
    | with_reducible apply Keeps.ite1
    | with_reducible apply hf
    | with_reducible apply Keeps.fetch
    | with_reducible apply Keeps.fetchTrap

theorem Keeps.storeDone {z0 s : State} {c : Nat} {p : Posted} {stale : Bool} (hz : Keeps z0 s)  : Keeps z0 (Machine.storeDone c p stale s) := by
  unfold Machine.storeDone
  repeat' first
    | with_reducible assumption
    | (intro x; with_reducible refine Keeps.cut (o := z0) x ?_ ?_; dsimp only [x]; rotate_left; try clear_value x)
    | (intro x; with_reducible refine Keeps.cut1 (o := z0) x ?_ ?_; dsimp only [x]; rotate_left; try clear_value x)
    | (intro x; with_reducible refine Keeps.cutF x ?_; try dsimp only [x])
    | (intro x; try clear_value x)
    | with_reducible apply Keeps.ite
    | with_reducible apply Keeps.ite1
    | with_reducible apply Keeps.pmcCount
    | with_reducible apply Keeps.storeErr
    | with_reducible apply Keeps.tally
    | with_reducible apply Keeps.priv
    | ((first | rw [patch_eq] | skip); (with_reducible refine Keeps.patch ?_ ?_ ?_); rotate_left; (first | exact CelKeeps.refl _ | exact ⟨fun _ h => h, Nat.le_refl _⟩ | exact ⟨fun _ h => h, Nat.le_succ _⟩); (refine fun g => ?_; first | exact g | simpa only [SizesOk, Machine.patch, upd_length] using g | (simp only [SizesOk, Machine.patch, upd_length, List.length_map, List.length_replicate, true_and] at g ⊢; tauto)))
    | (fail_if_no_progress dsimp -zeta only)
    | split

theorem Keeps.storeNext {z0 s : State} {c : Nat} {stale : Bool} (hz : Keeps z0 s)  : Keeps z0 (Machine.storeNext c stale s) := by
  unfold Machine.storeNext
  repeat' first
    | (refine fun (k : Cpu) (hk : CpuOk k) => (?_ : CpuOk _); first | exact hk | (simp only [CpuOk, upd_length] at *; simpa using hk) | (split <;> first | exact hk | (simp only [CpuOk, upd_length] at *; simpa using hk)))
    | exact CelKeeps.refl _
    | exact ⟨fun _ h => h, Nat.le_refl _⟩
    | exact ⟨fun _ h => h, Nat.le_succ _⟩
    | with_reducible assumption
    | with_reducible apply Keeps.storeDone
    | with_reducible apply Keeps.updCpu
    | (fail_if_no_progress dsimp -zeta only)
    | split

theorem Keeps.settle {z0 s : State} {c : Nat} (hz : Keeps z0 s)  : Keeps z0 (Machine.settle c s) := by
  unfold Machine.settle
  try lift_lets
  repeat' first
    | with_reducible assumption
    | (intro x; with_reducible refine Keeps.cut (o := z0) x ?_ ?_; dsimp only [x]; rotate_left; try clear_value x)
    | (intro x; try clear_value x)
    | with_reducible apply Keeps.foldl
    | with_reducible apply Keeps.foldl1
    | with_reducible apply Keeps.drainCore
    | with_reducible apply Keeps.storeNext

theorem Keeps.storeTrap {z0 s : State} {c : Nat} (hz : Keeps z0 s)  : Keeps z0 (Machine.storeTrap c s) := by
  unfold Machine.storeTrap
  repeat' first
    | (refine fun (k : Cpu) (hk : CpuOk k) => (?_ : CpuOk _); first | exact hk | (simp only [CpuOk, upd_length] at *; simpa using hk) | (split <;> first | exact hk | (simp only [CpuOk, upd_length] at *; simpa using hk)))
    | exact CelKeeps.refl _
    | exact ⟨fun _ h => h, Nat.le_refl _⟩
    | exact ⟨fun _ h => h, Nat.le_succ _⟩
    | with_reducible assumption
    | (intro x; with_reducible refine Keeps.cut (o := z0) x ?_ ?_; dsimp only [x]; rotate_left; try clear_value x)
    | (intro x; with_reducible refine Keeps.cut1 (o := z0) x ?_ ?_; dsimp only [x]; rotate_left; try clear_value x)
    | (intro x; with_reducible refine Keeps.cutF x ?_; try dsimp only [x])
    | (intro x; try clear_value x)
    | with_reducible apply Keeps.ite
    | with_reducible apply Keeps.ite1
    | with_reducible apply Keeps.takeTrap
    | with_reducible apply Keeps.nmiTrap
    | with_reducible apply Keeps.priv
    | with_reducible apply Keeps.updCpu
    | ((first | rw [patch_eq] | skip); (with_reducible refine Keeps.patch ?_ ?_ ?_); rotate_left; (first | exact CelKeeps.refl _ | exact ⟨fun _ h => h, Nat.le_refl _⟩ | exact ⟨fun _ h => h, Nat.le_succ _⟩); (refine fun g => ?_; first | exact g | simpa only [SizesOk, Machine.patch, upd_length] using g | (simp only [SizesOk, Machine.patch, upd_length, List.length_map, List.length_replicate, true_and] at g ⊢; tauto)))
    | (fail_if_no_progress dsimp -zeta only)
    | split
    | lift_lets

theorem Keeps.afterStores {z0 s : State} {c : Nat} {f : State → State} (hz : Keeps z0 s) (hf : ∀ x0, Keeps z0 x0 → Keeps z0 (f x0)) : Keeps z0 (Machine.afterStores c f s) := by
  unfold Machine.afterStores
  try lift_lets
  repeat' first
    | with_reducible assumption
    | (intro x; with_reducible refine Keeps.cut (o := z0) x ?_ ?_; dsimp only [x]; rotate_left; try clear_value x)
    | (intro x; try clear_value x)
    | with_reducible apply Keeps.ite
    | with_reducible apply Keeps.ite1
    | with_reducible apply hf
    | with_reducible apply Keeps.settle
    | with_reducible apply Keeps.storeTrap

end Sys2Proof.Machine
end

