-- ==== Sys2Proof/Laws/KeepIsaInt.lean ====
section
/-! SUPPORT. What the operations of IsaInt.lean keep. -/

set_option linter.all false

namespace Sys2Proof.Machine

theorem Keeps.alu {z0 s : State} {c : Nat} {rd : Nat} {v : Word} (hz : Keeps z0 s)  : Keeps z0 (Machine.alu c rd v s) := by
  unfold Machine.alu
  repeat' first
    | with_reducible assumption
    | with_reducible apply Keeps.setW
    | with_reducible apply Keeps.goOn

theorem Keeps.setSat {z0 s : State} {c : Nat} (hz : Keeps z0 s)  : Keeps z0 (Machine.setSat c s) := by
  unfold Machine.setSat
  repeat' first
    | (refine fun (k : Cpu) (hk : CpuOk k) => (?_ : CpuOk _); first | exact hk | (simp only [CpuOk, upd_length] at *; simpa using hk) | (split <;> first | exact hk | (simp only [CpuOk, upd_length] at *; simpa using hk)))
    | exact CelKeeps.refl _
    | exact ⟨fun _ h => h, Nat.le_refl _⟩
    | exact ⟨fun _ h => h, Nat.le_succ _⟩
    | with_reducible assumption
    | with_reducible apply Keeps.tally
    | with_reducible apply Keeps.updCpu
    | ((first | rw [patch_eq] | skip); (with_reducible refine Keeps.patch ?_ ?_ ?_); rotate_left; (first | exact CelKeeps.refl _ | exact ⟨fun _ h => h, Nat.le_refl _⟩ | exact ⟨fun _ h => h, Nat.le_succ _⟩); (refine fun g => ?_; first | exact g | simpa only [SizesOk, Machine.patch, upd_length] using g | (simp only [SizesOk, Machine.patch, upd_length, List.length_map, List.length_replicate, true_and] at g ⊢; tauto)))

theorem Keeps.setDz {z0 s : State} {c : Nat} (hz : Keeps z0 s)  : Keeps z0 (Machine.setDz c s) := by
  unfold Machine.setDz
  repeat' first
    | (refine fun (k : Cpu) (hk : CpuOk k) => (?_ : CpuOk _); first | exact hk | (simp only [CpuOk, upd_length] at *; simpa using hk) | (split <;> first | exact hk | (simp only [CpuOk, upd_length] at *; simpa using hk)))
    | exact CelKeeps.refl _
    | exact ⟨fun _ h => h, Nat.le_refl _⟩
    | exact ⟨fun _ h => h, Nat.le_succ _⟩
    | with_reducible assumption
    | with_reducible apply Keeps.updCpu
    | ((first | rw [patch_eq] | skip); (with_reducible refine Keeps.patch ?_ ?_ ?_); rotate_left; (first | exact CelKeeps.refl _ | exact ⟨fun _ h => h, Nat.le_refl _⟩ | exact ⟨fun _ h => h, Nat.le_succ _⟩); (refine fun g => ?_; first | exact g | simpa only [SizesOk, Machine.patch, upd_length] using g | (simp only [SizesOk, Machine.patch, upd_length, List.length_map, List.length_replicate, true_and] at g ⊢; tauto)))

theorem Keeps.divFlags {z0 s : State} {c : Nat} {signedDiv : Bool} {a : Word} {b : Word} (hz : Keeps z0 s)  : Keeps z0 (Machine.divFlags c signedDiv a b s) := by
  unfold Machine.divFlags
  repeat' first
    | with_reducible assumption
    | with_reducible apply Keeps.ite
    | with_reducible apply Keeps.ite1
    | with_reducible apply Keeps.setSat
    | with_reducible apply Keeps.setDz

theorem Keeps.opA {z0 s : State} {c : Nat} {rd : Nat} {rs1 : Nat} {rs2 : Nat} {f : Word → Word → Word} (hz : Keeps z0 s)  : Keeps z0 (Machine.opA c rd rs1 rs2 f s) := by
  unfold Machine.opA
  repeat' first
    | with_reducible assumption
    | with_reducible apply Keeps.alu

theorem Keeps.opDiv {z0 s : State} {c : Nat} {rd : Nat} {rs1 : Nat} {rs2 : Nat} {sd : Bool} {f : Word → Word → Word} (hz : Keeps z0 s)  : Keeps z0 (Machine.opDiv c rd rs1 rs2 sd f s) := by
  unfold Machine.opDiv
  try lift_lets
  repeat' first
    | with_reducible assumption
    | (intro x; try clear_value x)
    | with_reducible apply Keeps.alu
    | with_reducible apply Keeps.divFlags

theorem Keeps.opI {z0 s : State} {c : Nat} {rd : Nat} {rs1 : Nat} {i : Word} {f : Word → Word → Word} (hz : Keeps z0 s)  : Keeps z0 (Machine.opI c rd rs1 i f s) := by
  unfold Machine.opI
  repeat' first
    | with_reducible assumption
    | with_reducible apply Keeps.alu

theorem Keeps.opShift {z0 s : State} {c : Nat} {op : Nat} {rd : Nat} {rs1 : Nat} {i : BitVec 16} {f : Word → Nat → Word} (hz : Keeps z0 s)  : Keeps z0 (Machine.opShift c op rd rs1 i f s) := by
  unfold Machine.opShift
  repeat' first
    | with_reducible assumption
    | with_reducible apply Keeps.ite
    | with_reducible apply Keeps.ite1
    | with_reducible apply Keeps.illegal
    | with_reducible apply Keeps.alu

theorem Keeps.opB {z0 s : State} {c : Nat} {rs1 : Nat} {rs2 : Nat} {off : BitVec 16} {p : Word → Word → Bool} (hz : Keeps z0 s)  : Keeps z0 (Machine.opB c rs1 rs2 off p s) := by
  unfold Machine.opB
  repeat' first
    | with_reducible assumption
    | with_reducible apply Keeps.ite
    | with_reducible apply Keeps.ite1
    | with_reducible apply Keeps.goOn
    | with_reducible apply Keeps.jump

theorem Keeps.opLink {z0 s : State} {c : Nat} {rd : Nat} {t : Word} (hz : Keeps z0 s)  : Keeps z0 (Machine.opLink c rd t s) := by
  unfold Machine.opLink
  repeat' first
    | with_reducible assumption
    | with_reducible apply Keeps.setW
    | with_reducible apply Keeps.jump

theorem Keeps.opJalr {z0 s : State} {c : Nat} {rd : Nat} {rs1 : Nat} {i : BitVec 16} (hz : Keeps z0 s)  : Keeps z0 (Machine.opJalr c rd rs1 i s) := by
  unfold Machine.opJalr
  try lift_lets
  repeat' first
    | with_reducible assumption
    | (intro x; try clear_value x)
    | with_reducible apply Keeps.ite
    | with_reducible apply Keeps.ite1
    | with_reducible apply Keeps.trap
    | with_reducible apply Keeps.opLink

theorem Keeps.execAdd {s z : State} {c : Fin 14} {rd : Fin 32} {rs1 : Fin 32} {rs2 : Fin 32} (e : Machine.execAdd c rd rs1 rs2 s = .next z) : Keeps s z := by
  have hz := Keeps.refl s
  revert e
  unfold Machine.execAdd
  first
    | (intro e; injection e with e; subst e; (repeat' first
         | with_reducible assumption
         | (intro x; try clear_value x)
         | with_reducible apply Keeps.isa
         | with_reducible apply Keeps.opA
         ); done)

theorem Keeps.execSub {s z : State} {c : Fin 14} {rd : Fin 32} {rs1 : Fin 32} {rs2 : Fin 32} (e : Machine.execSub c rd rs1 rs2 s = .next z) : Keeps s z := by
  have hz := Keeps.refl s
  revert e
  unfold Machine.execSub
  first
    | (intro e; injection e with e; subst e; (repeat' first
         | with_reducible assumption
         | (intro x; try clear_value x)
         | with_reducible apply Keeps.isa
         | with_reducible apply Keeps.opA
         ); done)

theorem Keeps.execAnd {s z : State} {c : Fin 14} {rd : Fin 32} {rs1 : Fin 32} {rs2 : Fin 32} (e : Machine.execAnd c rd rs1 rs2 s = .next z) : Keeps s z := by
  have hz := Keeps.refl s
  revert e
  unfold Machine.execAnd
  first
    | (intro e; injection e with e; subst e; (repeat' first
         | with_reducible assumption
         | (intro x; try clear_value x)
         | with_reducible apply Keeps.isa
         | with_reducible apply Keeps.opA
         ); done)

theorem Keeps.execOr {s z : State} {c : Fin 14} {rd : Fin 32} {rs1 : Fin 32} {rs2 : Fin 32} (e : Machine.execOr c rd rs1 rs2 s = .next z) : Keeps s z := by
  have hz := Keeps.refl s
  revert e
  unfold Machine.execOr
  first
    | (intro e; injection e with e; subst e; (repeat' first
         | with_reducible assumption
         | (intro x; try clear_value x)
         | with_reducible apply Keeps.isa
         | with_reducible apply Keeps.opA
         ); done)

theorem Keeps.execXor {s z : State} {c : Fin 14} {rd : Fin 32} {rs1 : Fin 32} {rs2 : Fin 32} (e : Machine.execXor c rd rs1 rs2 s = .next z) : Keeps s z := by
  have hz := Keeps.refl s
  revert e
  unfold Machine.execXor
  first
    | (intro e; injection e with e; subst e; (repeat' first
         | with_reducible assumption
         | (intro x; try clear_value x)
         | with_reducible apply Keeps.isa
         | with_reducible apply Keeps.opA
         ); done)

theorem Keeps.execNor {s z : State} {c : Fin 14} {rd : Fin 32} {rs1 : Fin 32} {rs2 : Fin 32} (e : Machine.execNor c rd rs1 rs2 s = .next z) : Keeps s z := by
  have hz := Keeps.refl s
  revert e
  unfold Machine.execNor
  first
    | (intro e; injection e with e; subst e; (repeat' first
         | with_reducible assumption
         | (intro x; try clear_value x)
         | with_reducible apply Keeps.isa
         | with_reducible apply Keeps.opA
         ); done)

theorem Keeps.execSll {s z : State} {c : Fin 14} {rd : Fin 32} {rs1 : Fin 32} {rs2 : Fin 32} (e : Machine.execSll c rd rs1 rs2 s = .next z) : Keeps s z := by
  have hz := Keeps.refl s
  revert e
  unfold Machine.execSll
  first
    | (intro e; injection e with e; subst e; (repeat' first
         | with_reducible assumption
         | (intro x; try clear_value x)
         | with_reducible apply Keeps.isa
         | with_reducible apply Keeps.opA
         ); done)

theorem Keeps.execSrl {s z : State} {c : Fin 14} {rd : Fin 32} {rs1 : Fin 32} {rs2 : Fin 32} (e : Machine.execSrl c rd rs1 rs2 s = .next z) : Keeps s z := by
  have hz := Keeps.refl s
  revert e
  unfold Machine.execSrl
  first
    | (intro e; injection e with e; subst e; (repeat' first
         | with_reducible assumption
         | (intro x; try clear_value x)
         | with_reducible apply Keeps.isa
         | with_reducible apply Keeps.opA
         ); done)

theorem Keeps.execSra {s z : State} {c : Fin 14} {rd : Fin 32} {rs1 : Fin 32} {rs2 : Fin 32} (e : Machine.execSra c rd rs1 rs2 s = .next z) : Keeps s z := by
  have hz := Keeps.refl s
  revert e
  unfold Machine.execSra
  first
    | (intro e; injection e with e; subst e; (repeat' first
         | with_reducible assumption
         | (intro x; try clear_value x)
         | with_reducible apply Keeps.isa
         | with_reducible apply Keeps.opA
         ); done)

theorem Keeps.execSlt {s z : State} {c : Fin 14} {rd : Fin 32} {rs1 : Fin 32} {rs2 : Fin 32} (e : Machine.execSlt c rd rs1 rs2 s = .next z) : Keeps s z := by
  have hz := Keeps.refl s
  revert e
  unfold Machine.execSlt
  first
    | (intro e; injection e with e; subst e; (repeat' first
         | with_reducible assumption
         | (intro x; try clear_value x)
         | with_reducible apply Keeps.isa
         | with_reducible apply Keeps.opA
         ); done)

theorem Keeps.execSltu {s z : State} {c : Fin 14} {rd : Fin 32} {rs1 : Fin 32} {rs2 : Fin 32} (e : Machine.execSltu c rd rs1 rs2 s = .next z) : Keeps s z := by
  have hz := Keeps.refl s
  revert e
  unfold Machine.execSltu
  first
    | (intro e; injection e with e; subst e; (repeat' first
         | with_reducible assumption
         | (intro x; try clear_value x)
         | with_reducible apply Keeps.isa
         | with_reducible apply Keeps.opA
         ); done)

theorem Keeps.execMul {s z : State} {c : Fin 14} {rd : Fin 32} {rs1 : Fin 32} {rs2 : Fin 32} (e : Machine.execMul c rd rs1 rs2 s = .next z) : Keeps s z := by
  have hz := Keeps.refl s
  revert e
  unfold Machine.execMul
  first
    | (intro e; injection e with e; subst e; (repeat' first
         | with_reducible assumption
         | (intro x; try clear_value x)
         | with_reducible apply Keeps.isa
         | with_reducible apply Keeps.opA
         ); done)

theorem Keeps.execMulh {s z : State} {c : Fin 14} {rd : Fin 32} {rs1 : Fin 32} {rs2 : Fin 32} (e : Machine.execMulh c rd rs1 rs2 s = .next z) : Keeps s z := by
  have hz := Keeps.refl s
  revert e
  unfold Machine.execMulh
  first
    | (intro e; injection e with e; subst e; (repeat' first
         | with_reducible assumption
         | (intro x; try clear_value x)
         | with_reducible apply Keeps.isa
         | with_reducible apply Keeps.opA
         ); done)

theorem Keeps.execMulhu {s z : State} {c : Fin 14} {rd : Fin 32} {rs1 : Fin 32} {rs2 : Fin 32} (e : Machine.execMulhu c rd rs1 rs2 s = .next z) : Keeps s z := by
  have hz := Keeps.refl s
  revert e
  unfold Machine.execMulhu
  first
    | (intro e; injection e with e; subst e; (repeat' first
         | with_reducible assumption
         | (intro x; try clear_value x)
         | with_reducible apply Keeps.isa
         | with_reducible apply Keeps.opA
         ); done)

theorem Keeps.execDiv {s z : State} {c : Fin 14} {rd : Fin 32} {rs1 : Fin 32} {rs2 : Fin 32} (e : Machine.execDiv c rd rs1 rs2 s = .next z) : Keeps s z := by
  have hz := Keeps.refl s
  revert e
  unfold Machine.execDiv
  first
    | (intro e; injection e with e; subst e; (repeat' first
         | with_reducible assumption
         | (intro x; try clear_value x)
         | with_reducible apply Keeps.isa
         | with_reducible apply Keeps.opDiv
         ); done)

theorem Keeps.execDivu {s z : State} {c : Fin 14} {rd : Fin 32} {rs1 : Fin 32} {rs2 : Fin 32} (e : Machine.execDivu c rd rs1 rs2 s = .next z) : Keeps s z := by
  have hz := Keeps.refl s
  revert e
  unfold Machine.execDivu
  first
    | (intro e; injection e with e; subst e; (repeat' first
         | with_reducible assumption
         | (intro x; try clear_value x)
         | with_reducible apply Keeps.isa
         | with_reducible apply Keeps.opDiv
         ); done)

theorem Keeps.execRem {s z : State} {c : Fin 14} {rd : Fin 32} {rs1 : Fin 32} {rs2 : Fin 32} (e : Machine.execRem c rd rs1 rs2 s = .next z) : Keeps s z := by
  have hz := Keeps.refl s
  revert e
  unfold Machine.execRem
  first
    | (intro e; injection e with e; subst e; (repeat' first
         | with_reducible assumption
         | (intro x; try clear_value x)
         | with_reducible apply Keeps.isa
         | with_reducible apply Keeps.opDiv
         ); done)

theorem Keeps.execRemu {s z : State} {c : Fin 14} {rd : Fin 32} {rs1 : Fin 32} {rs2 : Fin 32} (e : Machine.execRemu c rd rs1 rs2 s = .next z) : Keeps s z := by
  have hz := Keeps.refl s
  revert e
  unfold Machine.execRemu
  first
    | (intro e; injection e with e; subst e; (repeat' first
         | with_reducible assumption
         | (intro x; try clear_value x)
         | with_reducible apply Keeps.isa
         | with_reducible apply Keeps.opDiv
         ); done)

theorem Keeps.execAddi {s z : State} {c : Fin 14} {rd : Fin 32} {rs1 : Fin 32} {i : BitVec 16} (e : Machine.execAddi c rd rs1 i s = .next z) : Keeps s z := by
  have hz := Keeps.refl s
  revert e
  unfold Machine.execAddi
  first
    | (intro e; injection e with e; subst e; (repeat' first
         | with_reducible assumption
         | (intro x; try clear_value x)
         | with_reducible apply Keeps.isa
         | with_reducible apply Keeps.opI
         ); done)

theorem Keeps.execAndi {s z : State} {c : Fin 14} {rd : Fin 32} {rs1 : Fin 32} {i : BitVec 16} (e : Machine.execAndi c rd rs1 i s = .next z) : Keeps s z := by
  have hz := Keeps.refl s
  revert e
  unfold Machine.execAndi
  first
    | (intro e; injection e with e; subst e; (repeat' first
         | with_reducible assumption
         | (intro x; try clear_value x)
         | with_reducible apply Keeps.isa
         | with_reducible apply Keeps.opI
         ); done)

theorem Keeps.execOri {s z : State} {c : Fin 14} {rd : Fin 32} {rs1 : Fin 32} {i : BitVec 16} (e : Machine.execOri c rd rs1 i s = .next z) : Keeps s z := by
  have hz := Keeps.refl s
  revert e
  unfold Machine.execOri
  first
    | (intro e; injection e with e; subst e; (repeat' first
         | with_reducible assumption
         | (intro x; try clear_value x)
         | with_reducible apply Keeps.isa
         | with_reducible apply Keeps.opI
         ); done)

theorem Keeps.execXori {s z : State} {c : Fin 14} {rd : Fin 32} {rs1 : Fin 32} {i : BitVec 16} (e : Machine.execXori c rd rs1 i s = .next z) : Keeps s z := by
  have hz := Keeps.refl s
  revert e
  unfold Machine.execXori
  first
    | (intro e; injection e with e; subst e; (repeat' first
         | with_reducible assumption
         | (intro x; try clear_value x)
         | with_reducible apply Keeps.isa
         | with_reducible apply Keeps.opI
         ); done)

theorem Keeps.execSlti {s z : State} {c : Fin 14} {rd : Fin 32} {rs1 : Fin 32} {i : BitVec 16} (e : Machine.execSlti c rd rs1 i s = .next z) : Keeps s z := by
  have hz := Keeps.refl s
  revert e
  unfold Machine.execSlti
  first
    | (intro e; injection e with e; subst e; (repeat' first
         | with_reducible assumption
         | (intro x; try clear_value x)
         | with_reducible apply Keeps.isa
         | with_reducible apply Keeps.opI
         ); done)

theorem Keeps.execSltiu {s z : State} {c : Fin 14} {rd : Fin 32} {rs1 : Fin 32} {i : BitVec 16} (e : Machine.execSltiu c rd rs1 i s = .next z) : Keeps s z := by
  have hz := Keeps.refl s
  revert e
  unfold Machine.execSltiu
  first
    | (intro e; injection e with e; subst e; (repeat' first
         | with_reducible assumption
         | (intro x; try clear_value x)
         | with_reducible apply Keeps.isa
         | with_reducible apply Keeps.opI
         ); done)

theorem Keeps.execSlli {s z : State} {c : Fin 14} {rd : Fin 32} {rs1 : Fin 32} {i : BitVec 16} (e : Machine.execSlli c rd rs1 i s = .next z) : Keeps s z := by
  have hz := Keeps.refl s
  revert e
  unfold Machine.execSlli
  first
    | (intro e; injection e with e; subst e; (repeat' first
         | with_reducible assumption
         | (intro x; try clear_value x)
         | with_reducible apply Keeps.isa
         | with_reducible apply Keeps.opShift
         ); done)

theorem Keeps.execSrli {s z : State} {c : Fin 14} {rd : Fin 32} {rs1 : Fin 32} {i : BitVec 16} (e : Machine.execSrli c rd rs1 i s = .next z) : Keeps s z := by
  have hz := Keeps.refl s
  revert e
  unfold Machine.execSrli
  first
    | (intro e; injection e with e; subst e; (repeat' first
         | with_reducible assumption
         | (intro x; try clear_value x)
         | with_reducible apply Keeps.isa
         | with_reducible apply Keeps.opShift
         ); done)

theorem Keeps.execSrai {s z : State} {c : Fin 14} {rd : Fin 32} {rs1 : Fin 32} {i : BitVec 16} (e : Machine.execSrai c rd rs1 i s = .next z) : Keeps s z := by
  have hz := Keeps.refl s
  revert e
  unfold Machine.execSrai
  first
    | (intro e; injection e with e; subst e; (repeat' first
         | with_reducible assumption
         | (intro x; try clear_value x)
         | with_reducible apply Keeps.isa
         | with_reducible apply Keeps.opShift
         ); done)

theorem Keeps.execJalr {s z : State} {c : Fin 14} {rd : Fin 32} {rs1 : Fin 32} {i : BitVec 16} (e : Machine.execJalr c rd rs1 i s = .next z) : Keeps s z := by
  have hz := Keeps.refl s
  revert e
  unfold Machine.execJalr
  first
    | (intro e; injection e with e; subst e; (repeat' first
         | with_reducible assumption
         | (intro x; try clear_value x)
         | with_reducible apply Keeps.isa
         | with_reducible apply Keeps.opJalr
         ); done)

theorem Keeps.execLui {s z : State} {c : Fin 14} {rd : Fin 32} {i : BitVec 21} (e : Machine.execLui c rd i s = .next z) : Keeps s z := by
  have hz := Keeps.refl s
  revert e
  unfold Machine.execLui
  first
    | (intro e; injection e with e; subst e; (repeat' first
         | with_reducible assumption
         | (intro x; try clear_value x)
         | with_reducible apply Keeps.isa
         | with_reducible apply Keeps.alu
         ); done)

theorem Keeps.execAuipc {s z : State} {c : Fin 14} {rd : Fin 32} {i : BitVec 21} (e : Machine.execAuipc c rd i s = .next z) : Keeps s z := by
  have hz := Keeps.refl s
  revert e
  unfold Machine.execAuipc
  first
    | (intro e; injection e with e; subst e; (repeat' first
         | with_reducible assumption
         | (intro x; try clear_value x)
         | with_reducible apply Keeps.isa
         | with_reducible apply Keeps.alu
         ); done)

theorem Keeps.execJal {s z : State} {c : Fin 14} {rd : Fin 32} {i : BitVec 21} (e : Machine.execJal c rd i s = .next z) : Keeps s z := by
  have hz := Keeps.refl s
  revert e
  unfold Machine.execJal
  first
    | (intro e; injection e with e; subst e; (repeat' first
         | with_reducible assumption
         | (intro x; try clear_value x)
         | with_reducible apply Keeps.isa
         | with_reducible apply Keeps.opLink
         ); done)

theorem Keeps.execBeq {s z : State} {c : Fin 14} {rs1 : Fin 32} {rs2 : Fin 32} {off : BitVec 16} (e : Machine.execBeq c rs1 rs2 off s = .next z) : Keeps s z := by
  have hz := Keeps.refl s
  revert e
  unfold Machine.execBeq
  first
    | (intro e; injection e with e; subst e; (repeat' first
         | with_reducible assumption
         | (intro x; try clear_value x)
         | with_reducible apply Keeps.isa
         | with_reducible apply Keeps.opB
         ); done)

theorem Keeps.execBne {s z : State} {c : Fin 14} {rs1 : Fin 32} {rs2 : Fin 32} {off : BitVec 16} (e : Machine.execBne c rs1 rs2 off s = .next z) : Keeps s z := by
  have hz := Keeps.refl s
  revert e
  unfold Machine.execBne
  first
    | (intro e; injection e with e; subst e; (repeat' first
         | with_reducible assumption
         | (intro x; try clear_value x)
         | with_reducible apply Keeps.isa
         | with_reducible apply Keeps.opB
         ); done)

theorem Keeps.execBlt {s z : State} {c : Fin 14} {rs1 : Fin 32} {rs2 : Fin 32} {off : BitVec 16} (e : Machine.execBlt c rs1 rs2 off s = .next z) : Keeps s z := by
  have hz := Keeps.refl s
  revert e
  unfold Machine.execBlt
  first
    | (intro e; injection e with e; subst e; (repeat' first
         | with_reducible assumption
         | (intro x; try clear_value x)
         | with_reducible apply Keeps.isa
         | with_reducible apply Keeps.opB
         ); done)

theorem Keeps.execBge {s z : State} {c : Fin 14} {rs1 : Fin 32} {rs2 : Fin 32} {off : BitVec 16} (e : Machine.execBge c rs1 rs2 off s = .next z) : Keeps s z := by
  have hz := Keeps.refl s
  revert e
  unfold Machine.execBge
  first
    | (intro e; injection e with e; subst e; (repeat' first
         | with_reducible assumption
         | (intro x; try clear_value x)
         | with_reducible apply Keeps.isa
         | with_reducible apply Keeps.opB
         ); done)

theorem Keeps.execBltu {s z : State} {c : Fin 14} {rs1 : Fin 32} {rs2 : Fin 32} {off : BitVec 16} (e : Machine.execBltu c rs1 rs2 off s = .next z) : Keeps s z := by
  have hz := Keeps.refl s
  revert e
  unfold Machine.execBltu
  first
    | (intro e; injection e with e; subst e; (repeat' first
         | with_reducible assumption
         | (intro x; try clear_value x)
         | with_reducible apply Keeps.isa
         | with_reducible apply Keeps.opB
         ); done)

theorem Keeps.execBgeu {s z : State} {c : Fin 14} {rs1 : Fin 32} {rs2 : Fin 32} {off : BitVec 16} (e : Machine.execBgeu c rs1 rs2 off s = .next z) : Keeps s z := by
  have hz := Keeps.refl s
  revert e
  unfold Machine.execBgeu
  first
    | (intro e; injection e with e; subst e; (repeat' first
         | with_reducible assumption
         | (intro x; try clear_value x)
         | with_reducible apply Keeps.isa
         | with_reducible apply Keeps.opB
         ); done)

end Sys2Proof.Machine
end

