-- ==== Sys2Proof/Laws/KeepIsaMem.lean ====
section
/-! SUPPORT. What the operations of IsaMem.lean keep. -/

set_option linter.all false

namespace Sys2Proof.Machine

theorem Keeps.dataCheck {z0 s : State} {c : Nat} {a : Word} {n : Nat} {f : State → State} (hz : Keeps z0 s) (hf : ∀ x0, Keeps z0 x0 → Keeps z0 (f x0)) : Keeps z0 (Machine.dataCheck c a n f s) := by
  unfold Machine.dataCheck
  repeat' first
    | with_reducible assumption
    | with_reducible apply Keeps.ite
    | with_reducible apply Keeps.ite1
    | with_reducible apply hf
    | with_reducible apply Keeps.trap
    | with_reducible apply Keeps.priv

theorem Keeps.loadTrap {z0 s : State} {c : Nat} {o : Code} {a : Word} (hz : Keeps z0 s)  : Keeps z0 (Machine.loadTrap c o a s) := by
  unfold Machine.loadTrap
  repeat' first
    | with_reducible assumption
    | with_reducible apply Keeps.ite
    | with_reducible apply Keeps.ite1
    | with_reducible apply Keeps.tally
    | with_reducible apply Keeps.trap

theorem Keeps.ccData {z0 s : State} {a : Nat} {n : Nat} (hz : Keeps z0 s)  : Keeps z0 (Machine.ccData a n s).1 := by
  unfold Machine.ccData
  repeat' first
    | with_reducible assumption
    | with_reducible apply Keeps.ite
    | with_reducible apply Keeps.ite1
    | with_reducible apply Keeps.freeNext

theorem Keeps.ccPut {z0 s : State} {a : Nat} {bytes : List Byte} (hz : Keeps z0 s)  : Keeps z0 (Machine.ccPut a bytes s) := by
  unfold Machine.ccPut
  repeat' first
    | exact CelKeeps.refl _
    | exact ⟨fun _ h => h, Nat.le_refl _⟩
    | exact ⟨fun _ h => h, Nat.le_succ _⟩
    | with_reducible assumption
    | with_reducible apply Keeps.ite2
    | with_reducible apply Keeps.ite
    | with_reducible apply Keeps.ite1
    | with_reducible apply Keeps.foldl
    | with_reducible apply Keeps.foldl1
    | with_reducible apply Keeps.updCel
    | ((first | rw [patch_eq] | skip); (with_reducible refine Keeps.patch ?_ ?_ ?_); rotate_left; (first | exact CelKeeps.refl _ | exact ⟨fun _ h => h, Nat.le_refl _⟩ | exact ⟨fun _ h => h, Nat.le_succ _⟩); (refine fun g => ?_; first | exact g | simpa only [SizesOk, Machine.patch, upd_length] using g | (simp only [SizesOk, Machine.patch, upd_length, List.length_map, List.length_replicate, true_and] at g ⊢; tauto)))

theorem Keeps.coreRead {z0 s : State} {c : Nat} {a : Nat} {n : Nat} (hz : Keeps z0 s)  : Keeps z0 (Machine.coreRead c a n s).1 := by
  unfold Machine.coreRead
  try lift_lets
  repeat' first
    | with_reducible assumption
    | (intro x; with_reducible refine Keeps.cut1 (o := z0) x ?_ ?_; dsimp only [x]; rotate_left; try clear_value x)
    | with_reducible apply Keeps.ite2
    | (intro x; try clear_value x)
    | with_reducible apply Keeps.ite
    | with_reducible apply Keeps.ite1
    | with_reducible apply Keeps.busRead
    | with_reducible apply Keeps.ccCode
    | with_reducible apply Keeps.ccData

theorem Keeps.coreWriteTo {z0 s : State} {c : Nat} {a : Nat} {b : List Byte} (hz : Keeps z0 s)  : Keeps z0 (Machine.coreWriteTo c a b s).1 := by
  unfold Machine.coreWriteTo
  try lift_lets
  repeat' first
    | with_reducible assumption
    | (intro x; with_reducible refine Keeps.cut1 (o := z0) x ?_ ?_; dsimp only [x]; rotate_left; try clear_value x)
    | with_reducible apply Keeps.ite2
    | (intro x; try clear_value x)
    | with_reducible apply Keeps.ite
    | with_reducible apply Keeps.ite1
    | with_reducible apply Keeps.busWrite
    | with_reducible apply Keeps.ccCode
    | with_reducible apply Keeps.ccPut

theorem Keeps.dataRead {z0 s : State} {c : Nat} {a : Word} {n : Nat} {f : List Byte → State → State} (hz : Keeps z0 s) (hf : ∀ x0 x1, Keeps z0 x1 → Keeps z0 (f x0 x1)) : Keeps z0 (Machine.dataRead c a n f s) := by
  unfold Machine.dataRead
  try lift_lets
  repeat' first
    | with_reducible assumption
    | (intro x; with_reducible refine Keeps.cut1 (o := z0) x ?_ ?_; dsimp only [x]; rotate_left; try clear_value x)
    | with_reducible apply Keeps.ite2
    | (intro x; try clear_value x)
    | with_reducible apply Keeps.ite
    | with_reducible apply Keeps.ite1
    | with_reducible apply hf
    | with_reducible apply Keeps.tally
    | with_reducible apply Keeps.loadTrap
    | with_reducible apply Keeps.coreRead

theorem Keeps.opLoad {z0 s : State} {c : Nat} {rt : Nat} {rb : Nat} {off : BitVec 13} {n : Nat} {sx : Bool} (hz : Keeps z0 s)  : Keeps z0 (Machine.opLoad c rt rb off n sx s) := by
  unfold Machine.opLoad
  try lift_lets
  repeat' first
    | with_reducible assumption
    | (intro x; try clear_value x)
    | with_reducible apply Keeps.setW
    | with_reducible apply Keeps.goOn
    | with_reducible apply Keeps.dataCheck
    | with_reducible apply Keeps.dataRead

theorem Keeps.dataWrite {z0 s : State} {c : Nat} {a : Word} {b : List Byte} (hz : Keeps z0 s)  : Keeps z0 (Machine.dataWrite c a b s) := by
  unfold Machine.dataWrite
  try lift_lets
  repeat' first
    | (refine fun (k : Cpu) (hk : CpuOk k) => (?_ : CpuOk _); first | exact hk | (simp only [CpuOk, upd_length] at *; simpa using hk) | (split <;> first | exact hk | (simp only [CpuOk, upd_length] at *; simpa using hk)))
    | exact CelKeeps.refl _
    | exact ⟨fun _ h => h, Nat.le_refl _⟩
    | exact ⟨fun _ h => h, Nat.le_succ _⟩
    | with_reducible assumption
    | (intro x; with_reducible refine Keeps.cut (o := z0) x ?_ ?_; dsimp only [x]; rotate_left; try clear_value x)
    | (intro x; with_reducible refine Keeps.cut1 (o := z0) x ?_ ?_; dsimp only [x]; rotate_left; try clear_value x)
    | with_reducible apply Keeps.ite2
    | (intro x; try clear_value x)
    | with_reducible apply Keeps.tally
    | with_reducible apply Keeps.priv
    | with_reducible apply Keeps.coreWriteTo
    | with_reducible apply Keeps.updCpu
    | ((first | rw [patch_eq] | skip); (with_reducible refine Keeps.patch ?_ ?_ ?_); rotate_left; (first | exact CelKeeps.refl _ | exact ⟨fun _ h => h, Nat.le_refl _⟩ | exact ⟨fun _ h => h, Nat.le_succ _⟩); (refine fun g => ?_; first | exact g | simpa only [SizesOk, Machine.patch, upd_length] using g | (simp only [SizesOk, Machine.patch, upd_length, List.length_map, List.length_replicate, true_and] at g ⊢; tauto)))

theorem Keeps.opStore {z0 s : State} {c : Nat} {rt : Nat} {rb : Nat} {sx : Bool} {off : BitVec 13} {n : Nat} {sz : Nat} (hz : Keeps z0 s)  : Keeps z0 (Machine.opStore c rt rb sx off n sz s) := by
  unfold Machine.opStore
  try lift_lets
  repeat' first
    | with_reducible assumption
    | (intro x; try clear_value x)
    | with_reducible apply Keeps.ite
    | with_reducible apply Keeps.ite1
    | with_reducible apply Keeps.goOn
    | with_reducible apply Keeps.illegal
    | with_reducible apply Keeps.dataCheck
    | with_reducible apply Keeps.dataWrite

theorem Keeps.opXchg {z0 s : State} {c : Nat} {rt : Nat} {rb : Nat} {sx : Bool} {off : BitVec 13} (hz : Keeps z0 s)  : Keeps z0 (Machine.opXchg c rt rb sx off s) := by
  unfold Machine.opXchg
  repeat' first
    | (refine fun (k : Cpu) (hk : CpuOk k) => (?_ : CpuOk _); first | exact hk | (simp only [CpuOk, upd_length] at *; simpa using hk) | (split <;> first | exact hk | (simp only [CpuOk, upd_length] at *; simpa using hk)))
    | exact CelKeeps.refl _
    | exact ⟨fun _ h => h, Nat.le_refl _⟩
    | exact ⟨fun _ h => h, Nat.le_succ _⟩
    | with_reducible assumption
    | (intro x; with_reducible refine Keeps.cut (o := z0) x ?_ ?_; dsimp only [x]; rotate_left; try clear_value x)
    | (intro x; with_reducible refine Keeps.cut1 (o := z0) x ?_ ?_; dsimp only [x]; rotate_left; try clear_value x)
    | (intro x; with_reducible refine Keeps.cut2 (o := z0) x ?_ ?_; dsimp only [x]; rotate_left; try clear_value x)
    | with_reducible apply Keeps.ite2
    | (intro x; with_reducible refine Keeps.cutF x ?_; try dsimp only [x])
    | (intro x; try clear_value x)
    | with_reducible apply Keeps.ite
    | with_reducible apply Keeps.ite1
    | with_reducible apply Keeps.setW
    | with_reducible apply Keeps.tally
    | with_reducible apply Keeps.goOn
    | with_reducible apply Keeps.illegal
    | with_reducible apply Keeps.dataCheck
    | with_reducible apply Keeps.loadTrap
    | with_reducible apply Keeps.coreRead
    | with_reducible apply Keeps.coreWriteTo
    | with_reducible apply Keeps.updCpu
    | ((first | rw [patch_eq] | skip); (with_reducible refine Keeps.patch ?_ ?_ ?_); rotate_left; (first | exact CelKeeps.refl _ | exact ⟨fun _ h => h, Nat.le_refl _⟩ | exact ⟨fun _ h => h, Nat.le_succ _⟩); (refine fun g => ?_; first | exact g | simpa only [SizesOk, Machine.patch, upd_length] using g | (simp only [SizesOk, Machine.patch, upd_length, List.length_map, List.length_replicate, true_and] at g ⊢; tauto)))
    | (fail_if_no_progress dsimp -zeta only)
    | split
    | lift_lets

theorem Keeps.execLb {s z : State} {c : Fin 14} {rt : Fin 32} {rb : Fin 32} {off : BitVec 13} (e : Machine.execLb c rt rb off s = .next z) : Keeps s z := by
  have hz := Keeps.refl s
  revert e
  unfold Machine.execLb
  first
    | (intro e; injection e with e; subst e; (repeat' first
         | with_reducible assumption
         | (intro x; try clear_value x)
         | with_reducible apply Keeps.isa
         | with_reducible apply Keeps.opLoad
         ); done)

theorem Keeps.execLbu {s z : State} {c : Fin 14} {rt : Fin 32} {rb : Fin 32} {off : BitVec 13} (e : Machine.execLbu c rt rb off s = .next z) : Keeps s z := by
  have hz := Keeps.refl s
  revert e
  unfold Machine.execLbu
  first
    | (intro e; injection e with e; subst e; (repeat' first
         | with_reducible assumption
         | (intro x; try clear_value x)
         | with_reducible apply Keeps.isa
         | with_reducible apply Keeps.opLoad
         ); done)

theorem Keeps.execLh {s z : State} {c : Fin 14} {rt : Fin 32} {rb : Fin 32} {off : BitVec 13} (e : Machine.execLh c rt rb off s = .next z) : Keeps s z := by
  have hz := Keeps.refl s
  revert e
  unfold Machine.execLh
  first
    | (intro e; injection e with e; subst e; (repeat' first
         | with_reducible assumption
         | (intro x; try clear_value x)
         | with_reducible apply Keeps.isa
         | with_reducible apply Keeps.opLoad
         ); done)

theorem Keeps.execLhu {s z : State} {c : Fin 14} {rt : Fin 32} {rb : Fin 32} {off : BitVec 13} (e : Machine.execLhu c rt rb off s = .next z) : Keeps s z := by
  have hz := Keeps.refl s
  revert e
  unfold Machine.execLhu
  first
    | (intro e; injection e with e; subst e; (repeat' first
         | with_reducible assumption
         | (intro x; try clear_value x)
         | with_reducible apply Keeps.isa
         | with_reducible apply Keeps.opLoad
         ); done)

theorem Keeps.execLw {s z : State} {c : Fin 14} {rt : Fin 32} {rb : Fin 32} {off : BitVec 13} (e : Machine.execLw c rt rb off s = .next z) : Keeps s z := by
  have hz := Keeps.refl s
  revert e
  unfold Machine.execLw
  first
    | (intro e; injection e with e; subst e; (repeat' first
         | with_reducible assumption
         | (intro x; try clear_value x)
         | with_reducible apply Keeps.isa
         | with_reducible apply Keeps.opLoad
         ); done)

theorem Keeps.execSb {s z : State} {c : Fin 14} {rt : Fin 32} {rb : Fin 32} {sx : Bool} {off : BitVec 13} (e : Machine.execSb c rt rb sx off s = .next z) : Keeps s z := by
  have hz := Keeps.refl s
  revert e
  unfold Machine.execSb
  first
    | (intro e; injection e with e; subst e; (repeat' first
         | with_reducible assumption
         | (intro x; try clear_value x)
         | with_reducible apply Keeps.isa
         | with_reducible apply Keeps.opStore
         ); done)

theorem Keeps.execSh {s z : State} {c : Fin 14} {rt : Fin 32} {rb : Fin 32} {sx : Bool} {off : BitVec 13} (e : Machine.execSh c rt rb sx off s = .next z) : Keeps s z := by
  have hz := Keeps.refl s
  revert e
  unfold Machine.execSh
  first
    | (intro e; injection e with e; subst e; (repeat' first
         | with_reducible assumption
         | (intro x; try clear_value x)
         | with_reducible apply Keeps.isa
         | with_reducible apply Keeps.opStore
         ); done)

theorem Keeps.execSw {s z : State} {c : Fin 14} {rt : Fin 32} {rb : Fin 32} {sx : Bool} {off : BitVec 13} (e : Machine.execSw c rt rb sx off s = .next z) : Keeps s z := by
  have hz := Keeps.refl s
  revert e
  unfold Machine.execSw
  first
    | (intro e; injection e with e; subst e; (repeat' first
         | with_reducible assumption
         | (intro x; try clear_value x)
         | with_reducible apply Keeps.isa
         | with_reducible apply Keeps.opStore
         ); done)

theorem Keeps.execXchg {s z : State} {c : Fin 14} {rt : Fin 32} {rb : Fin 32} {sx : Bool} {off : BitVec 13} (e : Machine.execXchg c rt rb sx off s = .next z) : Keeps s z := by
  have hz := Keeps.refl s
  revert e
  unfold Machine.execXchg
  first
    | (intro e; injection e with e; subst e; (repeat' first
         | with_reducible assumption
         | (intro x; try clear_value x)
         | with_reducible apply Keeps.isa
         | with_reducible apply Keeps.opXchg
         ); done)

end Sys2Proof.Machine
end

