-- ==== Sys2Proof/Laws/KeepIsaVec.lean ====
section
/-! SUPPORT. What the operations of IsaVec.lean keep. -/

set_option linter.all false

namespace Sys2Proof.Machine

theorem Keeps.vecOn {z0 s : State} {c : Nat} (hz : Keeps z0 s)  : Keeps z0 (Machine.vecOn c s) := by
  unfold Machine.vecOn
  repeat' first
    | with_reducible assumption
    | (intro x; with_reducible refine Keeps.cut (o := z0) x ?_ ?_; dsimp only [x]; rotate_left; try clear_value x)
    | (intro x; with_reducible refine Keeps.cut1 (o := z0) x ?_ ?_; dsimp only [x]; rotate_left; try clear_value x)
    | (intro x; with_reducible refine Keeps.cutF x ?_; try dsimp only [x])
    | (intro x; try clear_value x)
    | with_reducible apply Keeps.tally
    | with_reducible apply Keeps.goOn
    | (fail_if_no_progress dsimp -zeta only)
    | split

theorem Keeps.vecAlu {z0 s : State} {c : Nat} {rd : Nat} {v : Word} (hz : Keeps z0 s)  : Keeps z0 (Machine.vecAlu c rd v s) := by
  unfold Machine.vecAlu
  repeat' first
    | with_reducible assumption
    | (intro x; with_reducible refine Keeps.cut (o := z0) x ?_ ?_; dsimp only [x]; rotate_left; try clear_value x)
    | (intro x; with_reducible refine Keeps.cut1 (o := z0) x ?_ ?_; dsimp only [x]; rotate_left; try clear_value x)
    | (intro x; with_reducible refine Keeps.cutF x ?_; try dsimp only [x])
    | (intro x; try clear_value x)
    | with_reducible apply Keeps.setW
    | with_reducible apply Keeps.vecOn
    | (fail_if_no_progress dsimp -zeta only)
    | split

theorem Keeps.opV {z0 s : State} {c : Nat} {xd : Nat} {xa : Nat} {xb : Nat} {sel : Nat} {fn : Nat} {vs : List Nat} {un : List Nat} {f : State → State} (hz : Keeps z0 s) (hf : ∀ x0, Keeps z0 x0 → Keeps z0 (f x0)) : Keeps z0 (Machine.opV c xd xa xb sel fn vs un f s) := by
  unfold Machine.opV
  repeat' first
    | with_reducible assumption
    | with_reducible apply Keeps.ite
    | with_reducible apply Keeps.ite1
    | with_reducible apply hf
    | with_reducible apply Keeps.tally
    | with_reducible apply Keeps.illegal

theorem Keeps.vecSat {z0 s : State} {c : Nat} {vd : Nat} {r : Nat → Int} (hz : Keeps z0 s)  : Keeps z0 (Machine.vecSat c vd r s) := by
  unfold Machine.vecSat
  try lift_lets
  repeat' first
    | with_reducible assumption
    | (intro x; with_reducible refine Keeps.cut (o := z0) x ?_ ?_; dsimp only [x]; rotate_left; try clear_value x)
    | (intro x; with_reducible refine Keeps.cut1 (o := z0) x ?_ ?_; dsimp only [x]; rotate_left; try clear_value x)
    | (intro x; with_reducible refine Keeps.cutF x ?_; try dsimp only [x])
    | (intro x; try clear_value x)
    | with_reducible apply Keeps.ite
    | with_reducible apply Keeps.ite1
    | with_reducible apply Keeps.setV
    | with_reducible apply Keeps.setSat
    | with_reducible apply Keeps.vecOn
    | (fail_if_no_progress dsimp -zeta only)
    | split

theorem Keeps.vecPlain {z0 s : State} {c : Nat} {vd : Nat} {r : Nat → Int} (hz : Keeps z0 s)  : Keeps z0 (Machine.vecPlain c vd r s) := by
  unfold Machine.vecPlain
  repeat' first
    | with_reducible assumption
    | (intro x; with_reducible refine Keeps.cut (o := z0) x ?_ ?_; dsimp only [x]; rotate_left; try clear_value x)
    | (intro x; with_reducible refine Keeps.cut1 (o := z0) x ?_ ?_; dsimp only [x]; rotate_left; try clear_value x)
    | (intro x; with_reducible refine Keeps.cutF x ?_; try dsimp only [x])
    | (intro x; try clear_value x)
    | with_reducible apply Keeps.setV
    | with_reducible apply Keeps.vecOn
    | (fail_if_no_progress dsimp -zeta only)
    | split

theorem Keeps.opVec {z0 s : State} {c : Nat} {xd : Nat} {xa : Nat} {xb : Nat} {sel : Nat} {fn : Nat} {sat : Bool} {f : Int → Int → Int → Int} (hz : Keeps z0 s)  : Keeps z0 (Machine.opVec c xd xa xb sel fn sat f s) := by
  unfold Machine.opVec
  try lift_lets
  repeat' first
    | with_reducible assumption
    | (intro x; try clear_value x)
    | with_reducible apply Keeps.ite
    | with_reducible apply Keeps.ite1
    | with_reducible apply Keeps.opV
    | with_reducible apply Keeps.vecSat
    | with_reducible apply Keeps.vecPlain

theorem Keeps.opVabs {z0 s : State} {c : Nat} {xd : Nat} {xa : Nat} {xb : Nat} {sel : Nat} (hz : Keeps z0 s)  : Keeps z0 (Machine.opVabs c xd xa xb sel s) := by
  unfold Machine.opVabs
  try lift_lets
  repeat' first
    | with_reducible assumption
    | (intro x; try clear_value x)
    | with_reducible apply Keeps.opV
    | with_reducible apply Keeps.vecSat

theorem Keeps.opVshift {z0 s : State} {c : Nat} {xd : Nat} {xa : Nat} {xb : Nat} {sel : Nat} {left : Bool} (hz : Keeps z0 s)  : Keeps z0 (Machine.opVshift c xd xa xb sel left s) := by
  unfold Machine.opVshift
  try lift_lets
  repeat' first
    | with_reducible assumption
    | (intro x; try clear_value x)
    | with_reducible apply Keeps.ite
    | with_reducible apply Keeps.ite1
    | with_reducible apply Keeps.opV
    | with_reducible apply Keeps.vecSat
    | with_reducible apply Keeps.vecPlain

theorem Keeps.opVsplat {z0 s : State} {c : Nat} {xd : Nat} {xa : Nat} {xb : Nat} {sel : Nat} (hz : Keeps z0 s)  : Keeps z0 (Machine.opVsplat c xd xa xb sel s) := by
  unfold Machine.opVsplat
  try lift_lets
  repeat' first
    | with_reducible assumption
    | (intro x; try clear_value x)
    | with_reducible apply Keeps.opV
    | with_reducible apply Keeps.vecPlain

theorem Keeps.opVext {z0 s : State} {c : Nat} {xd : Nat} {xa : Nat} {xb : Nat} {sel : Nat} (hz : Keeps z0 s)  : Keeps z0 (Machine.opVext c xd xa xb sel s) := by
  unfold Machine.opVext
  repeat' first
    | with_reducible assumption
    | (intro x; with_reducible refine Keeps.cut (o := z0) x ?_ ?_; dsimp only [x]; rotate_left; try clear_value x)
    | (intro x; with_reducible refine Keeps.cut1 (o := z0) x ?_ ?_; dsimp only [x]; rotate_left; try clear_value x)
    | (intro x; with_reducible refine Keeps.cutF x ?_; try dsimp only [x])
    | (intro x; try clear_value x)
    | with_reducible apply Keeps.vecAlu
    | with_reducible apply Keeps.opV
    | (fail_if_no_progress dsimp -zeta only)
    | split

theorem Keeps.opVins {z0 s : State} {c : Nat} {xd : Nat} {xa : Nat} {xb : Nat} {sel : Nat} (hz : Keeps z0 s)  : Keeps z0 (Machine.opVins c xd xa xb sel s) := by
  unfold Machine.opVins
  try lift_lets
  repeat' first
    | with_reducible assumption
    | (intro x; with_reducible refine Keeps.cut (o := z0) x ?_ ?_; dsimp only [x]; rotate_left; try clear_value x)
    | (intro x; with_reducible refine Keeps.cut1 (o := z0) x ?_ ?_; dsimp only [x]; rotate_left; try clear_value x)
    | (intro x; with_reducible refine Keeps.cutF x ?_; try dsimp only [x])
    | (intro x; try clear_value x)
    | with_reducible apply Keeps.setV
    | with_reducible apply Keeps.vecOn
    | with_reducible apply Keeps.opV
    | (fail_if_no_progress dsimp -zeta only)
    | split

theorem Keeps.opVsum {z0 s : State} {c : Nat} {xd : Nat} {xa : Nat} {xb : Nat} {sel : Nat} (hz : Keeps z0 s)  : Keeps z0 (Machine.opVsum c xd xa xb sel s) := by
  unfold Machine.opVsum
  try lift_lets
  repeat' first
    | with_reducible assumption
    | (intro x; with_reducible refine Keeps.cut (o := z0) x ?_ ?_; dsimp only [x]; rotate_left; try clear_value x)
    | (intro x; with_reducible refine Keeps.cut1 (o := z0) x ?_ ?_; dsimp only [x]; rotate_left; try clear_value x)
    | (intro x; with_reducible refine Keeps.cut2 (o := z0) x ?_ ?_; dsimp only [x]; rotate_left; try clear_value x)
    | with_reducible apply Keeps.ite2
    | (intro x; with_reducible refine Keeps.cutF x ?_; try dsimp only [x])
    | (intro x; try clear_value x)
    | with_reducible apply Keeps.ite
    | with_reducible apply Keeps.ite1
    | with_reducible apply Keeps.foldl
    | with_reducible apply Keeps.foldl1
    | with_reducible apply Keeps.setSat
    | with_reducible apply Keeps.vecAlu
    | with_reducible apply Keeps.opV
    | (fail_if_no_progress dsimp -zeta only)
    | split

theorem Keeps.opVclamp {z0 s : State} {c : Nat} {xd : Nat} {xa : Nat} {xb : Nat} {sel : Nat} (hz : Keeps z0 s)  : Keeps z0 (Machine.opVclamp c xd xa xb sel s) := by
  unfold Machine.opVclamp
  try lift_lets
  repeat' first
    | with_reducible assumption
    | (intro x; try clear_value x)
    | with_reducible apply Keeps.ite
    | with_reducible apply Keeps.ite1
    | with_reducible apply Keeps.illegal
    | with_reducible apply Keeps.opV
    | with_reducible apply Keeps.vecPlain

theorem Keeps.opVld {z0 s : State} {c : Nat} {xd : Nat} {xa : Nat} {xb : Nat} {sel : Nat} (hz : Keeps z0 s)  : Keeps z0 (Machine.opVld c xd xa xb sel s) := by
  unfold Machine.opVld
  try lift_lets
  repeat' first
    | with_reducible assumption
    | (intro x; with_reducible refine Keeps.cut (o := z0) x ?_ ?_; dsimp only [x]; rotate_left; try clear_value x)
    | (intro x; with_reducible refine Keeps.cut1 (o := z0) x ?_ ?_; dsimp only [x]; rotate_left; try clear_value x)
    | (intro x; with_reducible refine Keeps.cutF x ?_; try dsimp only [x])
    | (intro x; try clear_value x)
    | with_reducible apply Keeps.setV
    | with_reducible apply Keeps.dataCheck
    | with_reducible apply Keeps.dataRead
    | with_reducible apply Keeps.vecOn
    | with_reducible apply Keeps.opV
    | (fail_if_no_progress dsimp -zeta only)
    | split

theorem Keeps.opVst {z0 s : State} {c : Nat} {xd : Nat} {xa : Nat} {xb : Nat} {sel : Nat} (hz : Keeps z0 s)  : Keeps z0 (Machine.opVst c xd xa xb sel s) := by
  unfold Machine.opVst
  try lift_lets
  repeat' first
    | with_reducible assumption
    | (intro x; with_reducible refine Keeps.cut (o := z0) x ?_ ?_; dsimp only [x]; rotate_left; try clear_value x)
    | (intro x; with_reducible refine Keeps.cut1 (o := z0) x ?_ ?_; dsimp only [x]; rotate_left; try clear_value x)
    | (intro x; with_reducible refine Keeps.cutF x ?_; try dsimp only [x])
    | (intro x; try clear_value x)
    | with_reducible apply Keeps.dataCheck
    | with_reducible apply Keeps.dataWrite
    | with_reducible apply Keeps.vecOn
    | with_reducible apply Keeps.opV
    | (fail_if_no_progress dsimp -zeta only)
    | split

theorem Keeps.opC {z0 s : State} {c : Nat} {xd : Nat} {xa : Nat} {xb : Nat} {sel : Nat} {fn : Nat} {un : List Nat} {f : Word → Word → Word → Word × Bool} (hz : Keeps z0 s)  : Keeps z0 (Machine.opC c xd xa xb sel fn un f s) := by
  unfold Machine.opC
  try lift_lets
  repeat' first
    | with_reducible assumption
    | (intro x; with_reducible refine Keeps.cut (o := z0) x ?_ ?_; dsimp only [x]; rotate_left; try clear_value x)
    | (intro x; with_reducible refine Keeps.cut1 (o := z0) x ?_ ?_; dsimp only [x]; rotate_left; try clear_value x)
    | (intro x; with_reducible refine Keeps.cut2 (o := z0) x ?_ ?_; dsimp only [x]; rotate_left; try clear_value x)
    | with_reducible apply Keeps.ite2
    | (intro x; with_reducible refine Keeps.cutF x ?_; try dsimp only [x])
    | (intro x; try clear_value x)
    | with_reducible apply Keeps.ite
    | with_reducible apply Keeps.ite1
    | with_reducible apply Keeps.illegal
    | with_reducible apply Keeps.setSat
    | with_reducible apply Keeps.vecAlu
    | (fail_if_no_progress dsimp -zeta only)
    | split

theorem Keeps.execVadd {s z : State} {c : Fin 14} {xd : Fin 32} {xa : Fin 32} {xb : Fin 32} {sel : Fin 8} (e : Machine.execVadd c xd xa xb sel s = .next z) : Keeps s z := by
  have hz := Keeps.refl s
  revert e
  unfold Machine.execVadd
  first
    | (intro e; injection e with e; subst e; (repeat' first
         | with_reducible assumption
         | (intro x; try clear_value x)
         | with_reducible apply Keeps.isa
         | with_reducible apply Keeps.opVec
         ); done)

theorem Keeps.execVsub {s z : State} {c : Fin 14} {xd : Fin 32} {xa : Fin 32} {xb : Fin 32} {sel : Fin 8} (e : Machine.execVsub c xd xa xb sel s = .next z) : Keeps s z := by
  have hz := Keeps.refl s
  revert e
  unfold Machine.execVsub
  first
    | (intro e; injection e with e; subst e; (repeat' first
         | with_reducible assumption
         | (intro x; try clear_value x)
         | with_reducible apply Keeps.isa
         | with_reducible apply Keeps.opVec
         ); done)

theorem Keeps.execVmul {s z : State} {c : Fin 14} {xd : Fin 32} {xa : Fin 32} {xb : Fin 32} {sel : Fin 8} (e : Machine.execVmul c xd xa xb sel s = .next z) : Keeps s z := by
  have hz := Keeps.refl s
  revert e
  unfold Machine.execVmul
  first
    | (intro e; injection e with e; subst e; (repeat' first
         | with_reducible assumption
         | (intro x; try clear_value x)
         | with_reducible apply Keeps.isa
         | with_reducible apply Keeps.opVec
         ); done)

theorem Keeps.execVmulq {s z : State} {c : Fin 14} {xd : Fin 32} {xa : Fin 32} {xb : Fin 32} {sel : Fin 8} (e : Machine.execVmulq c xd xa xb sel s = .next z) : Keeps s z := by
  have hz := Keeps.refl s
  revert e
  unfold Machine.execVmulq
  first
    | (intro e; injection e with e; subst e; (repeat' first
         | with_reducible assumption
         | (intro x; try clear_value x)
         | with_reducible apply Keeps.isa
         | with_reducible apply Keeps.opVec
         ); done)

theorem Keeps.execVmac {s z : State} {c : Fin 14} {xd : Fin 32} {xa : Fin 32} {xb : Fin 32} {sel : Fin 8} (e : Machine.execVmac c xd xa xb sel s = .next z) : Keeps s z := by
  have hz := Keeps.refl s
  revert e
  unfold Machine.execVmac
  first
    | (intro e; injection e with e; subst e; (repeat' first
         | with_reducible assumption
         | (intro x; try clear_value x)
         | with_reducible apply Keeps.isa
         | with_reducible apply Keeps.opVec
         ); done)

theorem Keeps.execVmin {s z : State} {c : Fin 14} {xd : Fin 32} {xa : Fin 32} {xb : Fin 32} {sel : Fin 8} (e : Machine.execVmin c xd xa xb sel s = .next z) : Keeps s z := by
  have hz := Keeps.refl s
  revert e
  unfold Machine.execVmin
  first
    | (intro e; injection e with e; subst e; (repeat' first
         | with_reducible assumption
         | (intro x; try clear_value x)
         | with_reducible apply Keeps.isa
         | with_reducible apply Keeps.opVec
         ); done)

theorem Keeps.execVmax {s z : State} {c : Fin 14} {xd : Fin 32} {xa : Fin 32} {xb : Fin 32} {sel : Fin 8} (e : Machine.execVmax c xd xa xb sel s = .next z) : Keeps s z := by
  have hz := Keeps.refl s
  revert e
  unfold Machine.execVmax
  first
    | (intro e; injection e with e; subst e; (repeat' first
         | with_reducible assumption
         | (intro x; try clear_value x)
         | with_reducible apply Keeps.isa
         | with_reducible apply Keeps.opVec
         ); done)

theorem Keeps.execVabs {s z : State} {c : Fin 14} {xd : Fin 32} {xa : Fin 32} {xb : Fin 32} {sel : Fin 8} (e : Machine.execVabs c xd xa xb sel s = .next z) : Keeps s z := by
  have hz := Keeps.refl s
  revert e
  unfold Machine.execVabs
  first
    | (intro e; injection e with e; subst e; (repeat' first
         | with_reducible assumption
         | (intro x; try clear_value x)
         | with_reducible apply Keeps.isa
         | with_reducible apply Keeps.opVabs
         ); done)

theorem Keeps.execVshr {s z : State} {c : Fin 14} {xd : Fin 32} {xa : Fin 32} {xb : Fin 32} {sel : Fin 8} (e : Machine.execVshr c xd xa xb sel s = .next z) : Keeps s z := by
  have hz := Keeps.refl s
  revert e
  unfold Machine.execVshr
  first
    | (intro e; injection e with e; subst e; (repeat' first
         | with_reducible assumption
         | (intro x; try clear_value x)
         | with_reducible apply Keeps.isa
         | with_reducible apply Keeps.opVshift
         ); done)

theorem Keeps.execVshl {s z : State} {c : Fin 14} {xd : Fin 32} {xa : Fin 32} {xb : Fin 32} {sel : Fin 8} (e : Machine.execVshl c xd xa xb sel s = .next z) : Keeps s z := by
  have hz := Keeps.refl s
  revert e
  unfold Machine.execVshl
  first
    | (intro e; injection e with e; subst e; (repeat' first
         | with_reducible assumption
         | (intro x; try clear_value x)
         | with_reducible apply Keeps.isa
         | with_reducible apply Keeps.opVshift
         ); done)

theorem Keeps.execVsplat {s z : State} {c : Fin 14} {xd : Fin 32} {xa : Fin 32} {xb : Fin 32} {sel : Fin 8} (e : Machine.execVsplat c xd xa xb sel s = .next z) : Keeps s z := by
  have hz := Keeps.refl s
  revert e
  unfold Machine.execVsplat
  first
    | (intro e; injection e with e; subst e; (repeat' first
         | with_reducible assumption
         | (intro x; try clear_value x)
         | with_reducible apply Keeps.isa
         | with_reducible apply Keeps.opVsplat
         ); done)

theorem Keeps.execVext {s z : State} {c : Fin 14} {xd : Fin 32} {xa : Fin 32} {xb : Fin 32} {sel : Fin 8} (e : Machine.execVext c xd xa xb sel s = .next z) : Keeps s z := by
  have hz := Keeps.refl s
  revert e
  unfold Machine.execVext
  first
    | (intro e; injection e with e; subst e; (repeat' first
         | with_reducible assumption
         | (intro x; try clear_value x)
         | with_reducible apply Keeps.isa
         | with_reducible apply Keeps.opVext
         ); done)

theorem Keeps.execVins {s z : State} {c : Fin 14} {xd : Fin 32} {xa : Fin 32} {xb : Fin 32} {sel : Fin 8} (e : Machine.execVins c xd xa xb sel s = .next z) : Keeps s z := by
  have hz := Keeps.refl s
  revert e
  unfold Machine.execVins
  first
    | (intro e; injection e with e; subst e; (repeat' first
         | with_reducible assumption
         | (intro x; try clear_value x)
         | with_reducible apply Keeps.isa
         | with_reducible apply Keeps.opVins
         ); done)

theorem Keeps.execVsum {s z : State} {c : Fin 14} {xd : Fin 32} {xa : Fin 32} {xb : Fin 32} {sel : Fin 8} (e : Machine.execVsum c xd xa xb sel s = .next z) : Keeps s z := by
  have hz := Keeps.refl s
  revert e
  unfold Machine.execVsum
  first
    | (intro e; injection e with e; subst e; (repeat' first
         | with_reducible assumption
         | (intro x; try clear_value x)
         | with_reducible apply Keeps.isa
         | with_reducible apply Keeps.opVsum
         ); done)

theorem Keeps.execVclamp {s z : State} {c : Fin 14} {xd : Fin 32} {xa : Fin 32} {xb : Fin 32} {sel : Fin 8} (e : Machine.execVclamp c xd xa xb sel s = .next z) : Keeps s z := by
  have hz := Keeps.refl s
  revert e
  unfold Machine.execVclamp
  first
    | (intro e; injection e with e; subst e; (repeat' first
         | with_reducible assumption
         | (intro x; try clear_value x)
         | with_reducible apply Keeps.isa
         | with_reducible apply Keeps.opVclamp
         ); done)

theorem Keeps.execVld {s z : State} {c : Fin 14} {xd : Fin 32} {xa : Fin 32} {xb : Fin 32} {sel : Fin 8} (e : Machine.execVld c xd xa xb sel s = .next z) : Keeps s z := by
  have hz := Keeps.refl s
  revert e
  unfold Machine.execVld
  first
    | (intro e; injection e with e; subst e; (repeat' first
         | with_reducible assumption
         | (intro x; try clear_value x)
         | with_reducible apply Keeps.isa
         | with_reducible apply Keeps.opVld
         ); done)

theorem Keeps.execVst {s z : State} {c : Fin 14} {xd : Fin 32} {xa : Fin 32} {xb : Fin 32} {sel : Fin 8} (e : Machine.execVst c xd xa xb sel s = .next z) : Keeps s z := by
  have hz := Keeps.refl s
  revert e
  unfold Machine.execVst
  first
    | (intro e; injection e with e; subst e; (repeat' first
         | with_reducible assumption
         | (intro x; try clear_value x)
         | with_reducible apply Keeps.isa
         | with_reducible apply Keeps.opVst
         ); done)

theorem Keeps.opCadd {z0 s : State} {c : Nat} {xd : Nat} {xa : Nat} {xb : Nat} {sel : Nat} (hz : Keeps z0 s)  : Keeps z0 (Machine.opCadd c xd xa xb sel s) := by
  unfold Machine.opCadd
  repeat' first
    | with_reducible assumption
    | with_reducible apply Keeps.opC

theorem Keeps.opCsub {z0 s : State} {c : Nat} {xd : Nat} {xa : Nat} {xb : Nat} {sel : Nat} (hz : Keeps z0 s)  : Keeps z0 (Machine.opCsub c xd xa xb sel s) := by
  unfold Machine.opCsub
  repeat' first
    | with_reducible assumption
    | with_reducible apply Keeps.opC

theorem Keeps.opCmul {z0 s : State} {c : Nat} {xd : Nat} {xa : Nat} {xb : Nat} {sel : Nat} (hz : Keeps z0 s)  : Keeps z0 (Machine.opCmul c xd xa xb sel s) := by
  unfold Machine.opCmul
  repeat' first
    | with_reducible assumption
    | with_reducible apply Keeps.opC

theorem Keeps.opCmulj {z0 s : State} {c : Nat} {xd : Nat} {xa : Nat} {xb : Nat} {sel : Nat} (hz : Keeps z0 s)  : Keeps z0 (Machine.opCmulj c xd xa xb sel s) := by
  unfold Machine.opCmulj
  repeat' first
    | with_reducible assumption
    | with_reducible apply Keeps.opC

theorem Keeps.opCmac {z0 s : State} {c : Nat} {xd : Nat} {xa : Nat} {xb : Nat} {sel : Nat} (hz : Keeps z0 s)  : Keeps z0 (Machine.opCmac c xd xa xb sel s) := by
  unfold Machine.opCmac
  repeat' first
    | with_reducible assumption
    | with_reducible apply Keeps.opC

theorem Keeps.opConj {z0 s : State} {c : Nat} {xd : Nat} {xa : Nat} {xb : Nat} {sel : Nat} (hz : Keeps z0 s)  : Keeps z0 (Machine.opConj c xd xa xb sel s) := by
  unfold Machine.opConj
  repeat' first
    | with_reducible assumption
    | with_reducible apply Keeps.opC

theorem Keeps.opCmag2 {z0 s : State} {c : Nat} {xd : Nat} {xa : Nat} {xb : Nat} {sel : Nat} (hz : Keeps z0 s)  : Keeps z0 (Machine.opCmag2 c xd xa xb sel s) := by
  unfold Machine.opCmag2
  repeat' first
    | with_reducible assumption
    | with_reducible apply Keeps.opC

theorem Keeps.opCscale {z0 s : State} {c : Nat} {xd : Nat} {xa : Nat} {xb : Nat} {sel : Nat} (hz : Keeps z0 s)  : Keeps z0 (Machine.opCscale c xd xa xb sel s) := by
  unfold Machine.opCscale
  repeat' first
    | with_reducible assumption
    | with_reducible apply Keeps.opC

theorem Keeps.opCshr {z0 s : State} {c : Nat} {xd : Nat} {xa : Nat} {xb : Nat} {sel : Nat} (hz : Keeps z0 s)  : Keeps z0 (Machine.opCshr c xd xa xb sel s) := by
  unfold Machine.opCshr
  repeat' first
    | with_reducible assumption
    | with_reducible apply Keeps.opC

theorem Keeps.opCpack {z0 s : State} {c : Nat} {xd : Nat} {xa : Nat} {xb : Nat} {sel : Nat} (hz : Keeps z0 s)  : Keeps z0 (Machine.opCpack c xd xa xb sel s) := by
  unfold Machine.opCpack
  repeat' first
    | with_reducible assumption
    | with_reducible apply Keeps.opC

theorem Keeps.execCadd {s z : State} {c : Fin 14} {xd : Fin 32} {xa : Fin 32} {xb : Fin 32} {sel : Fin 8} (e : Machine.execCadd c xd xa xb sel s = .next z) : Keeps s z := by
  have hz := Keeps.refl s
  revert e
  unfold Machine.execCadd
  first
    | (intro e; injection e with e; subst e; (repeat' first
         | with_reducible assumption
         | (intro x; try clear_value x)
         | with_reducible apply Keeps.isa
         | with_reducible apply Keeps.opCadd
         ); done)

theorem Keeps.execCsub {s z : State} {c : Fin 14} {xd : Fin 32} {xa : Fin 32} {xb : Fin 32} {sel : Fin 8} (e : Machine.execCsub c xd xa xb sel s = .next z) : Keeps s z := by
  have hz := Keeps.refl s
  revert e
  unfold Machine.execCsub
  first
    | (intro e; injection e with e; subst e; (repeat' first
         | with_reducible assumption
         | (intro x; try clear_value x)
         | with_reducible apply Keeps.isa
         | with_reducible apply Keeps.opCsub
         ); done)

theorem Keeps.execCmul {s z : State} {c : Fin 14} {xd : Fin 32} {xa : Fin 32} {xb : Fin 32} {sel : Fin 8} (e : Machine.execCmul c xd xa xb sel s = .next z) : Keeps s z := by
  have hz := Keeps.refl s
  revert e
  unfold Machine.execCmul
  first
    | (intro e; injection e with e; subst e; (repeat' first
         | with_reducible assumption
         | (intro x; try clear_value x)
         | with_reducible apply Keeps.isa
         | with_reducible apply Keeps.opCmul
         ); done)

theorem Keeps.execCmulj {s z : State} {c : Fin 14} {xd : Fin 32} {xa : Fin 32} {xb : Fin 32} {sel : Fin 8} (e : Machine.execCmulj c xd xa xb sel s = .next z) : Keeps s z := by
  have hz := Keeps.refl s
  revert e
  unfold Machine.execCmulj
  first
    | (intro e; injection e with e; subst e; (repeat' first
         | with_reducible assumption
         | (intro x; try clear_value x)
         | with_reducible apply Keeps.isa
         | with_reducible apply Keeps.opCmulj
         ); done)

theorem Keeps.execCmac {s z : State} {c : Fin 14} {xd : Fin 32} {xa : Fin 32} {xb : Fin 32} {sel : Fin 8} (e : Machine.execCmac c xd xa xb sel s = .next z) : Keeps s z := by
  have hz := Keeps.refl s
  revert e
  unfold Machine.execCmac
  first
    | (intro e; injection e with e; subst e; (repeat' first
         | with_reducible assumption
         | (intro x; try clear_value x)
         | with_reducible apply Keeps.isa
         | with_reducible apply Keeps.opCmac
         ); done)

theorem Keeps.execConj {s z : State} {c : Fin 14} {xd : Fin 32} {xa : Fin 32} {xb : Fin 32} {sel : Fin 8} (e : Machine.execConj c xd xa xb sel s = .next z) : Keeps s z := by
  have hz := Keeps.refl s
  revert e
  unfold Machine.execConj
  first
    | (intro e; injection e with e; subst e; (repeat' first
         | with_reducible assumption
         | (intro x; try clear_value x)
         | with_reducible apply Keeps.isa
         | with_reducible apply Keeps.opConj
         ); done)

theorem Keeps.execCmag2 {s z : State} {c : Fin 14} {xd : Fin 32} {xa : Fin 32} {xb : Fin 32} {sel : Fin 8} (e : Machine.execCmag2 c xd xa xb sel s = .next z) : Keeps s z := by
  have hz := Keeps.refl s
  revert e
  unfold Machine.execCmag2
  first
    | (intro e; injection e with e; subst e; (repeat' first
         | with_reducible assumption
         | (intro x; try clear_value x)
         | with_reducible apply Keeps.isa
         | with_reducible apply Keeps.opCmag2
         ); done)

theorem Keeps.execCscale {s z : State} {c : Fin 14} {xd : Fin 32} {xa : Fin 32} {xb : Fin 32} {sel : Fin 8} (e : Machine.execCscale c xd xa xb sel s = .next z) : Keeps s z := by
  have hz := Keeps.refl s
  revert e
  unfold Machine.execCscale
  first
    | (intro e; injection e with e; subst e; (repeat' first
         | with_reducible assumption
         | (intro x; try clear_value x)
         | with_reducible apply Keeps.isa
         | with_reducible apply Keeps.opCscale
         ); done)

theorem Keeps.execCshr {s z : State} {c : Fin 14} {xd : Fin 32} {xa : Fin 32} {xb : Fin 32} {sel : Fin 8} (e : Machine.execCshr c xd xa xb sel s = .next z) : Keeps s z := by
  have hz := Keeps.refl s
  revert e
  unfold Machine.execCshr
  first
    | (intro e; injection e with e; subst e; (repeat' first
         | with_reducible assumption
         | (intro x; try clear_value x)
         | with_reducible apply Keeps.isa
         | with_reducible apply Keeps.opCshr
         ); done)

theorem Keeps.execCpack {s z : State} {c : Fin 14} {xd : Fin 32} {xa : Fin 32} {xb : Fin 32} {sel : Fin 8} (e : Machine.execCpack c xd xa xb sel s = .next z) : Keeps s z := by
  have hz := Keeps.refl s
  revert e
  unfold Machine.execCpack
  first
    | (intro e; injection e with e; subst e; (repeat' first
         | with_reducible assumption
         | (intro x; try clear_value x)
         | with_reducible apply Keeps.isa
         | with_reducible apply Keeps.opCpack
         ); done)

end Sys2Proof.Machine
end

