-- ==== Sys2Proof/Laws/KeepIsaSys.lean ====
section
/-! SUPPORT. What the operations of IsaSys.lean keep. -/

set_option linter.all false

namespace Sys2Proof.Machine

theorem Keeps.cntLow {z0 s : State} {c : Nat} {j : Nat} (hz : Keeps z0 s)  : Keeps z0 (Machine.cntLow c j s).1 := by
  unfold Machine.cntLow
  try lift_lets
  repeat' first
    | (refine fun (k : Cpu) (hk : CpuOk k) => (?_ : CpuOk _); first | exact hk | (simp only [CpuOk, upd_length] at *; simpa using hk) | (split <;> first | exact hk | (simp only [CpuOk, upd_length] at *; simpa using hk)))
    | exact CelKeeps.refl _
    | exact ⟨fun _ h => h, Nat.le_refl _⟩
    | exact ⟨fun _ h => h, Nat.le_succ _⟩
    | with_reducible assumption
    | (intro x; try clear_value x)
    | with_reducible apply Keeps.updCpu
    | ((first | rw [patch_eq] | skip); (with_reducible refine Keeps.patch ?_ ?_ ?_); rotate_left; (first | exact CelKeeps.refl _ | exact ⟨fun _ h => h, Nat.le_refl _⟩ | exact ⟨fun _ h => h, Nat.le_succ _⟩); (refine fun g => ?_; first | exact g | simpa only [SizesOk, Machine.patch, upd_length] using g | (simp only [SizesOk, Machine.patch, upd_length, List.length_map, List.length_replicate, true_and] at g ⊢; tauto)))

theorem Keeps.csrRead {z0 s : State} {c : Nat} {n : Nat} (hz : Keeps z0 s)  : Keeps z0 (Machine.csrRead c n s).1 := by
  unfold Machine.csrRead
  repeat' first
    | (refine fun (k : Cpu) (hk : CpuOk k) => (?_ : CpuOk _); first | exact hk | (simp only [CpuOk, upd_length] at *; simpa using hk) | (split <;> first | exact hk | (simp only [CpuOk, upd_length] at *; simpa using hk)))
    | exact CelKeeps.refl _
    | exact ⟨fun _ h => h, Nat.le_refl _⟩
    | exact ⟨fun _ h => h, Nat.le_succ _⟩
    | with_reducible assumption
    | with_reducible apply Keeps.ite
    | with_reducible apply Keeps.ite1
    | with_reducible apply Keeps.cntLow
    | with_reducible apply Keeps.updCpu
    | (fail_if_no_progress dsimp -zeta only)
    | split

theorem Keeps.csrWrite {z0 s : State} {c : Nat} {n : Nat} {w : Word} (hz : Keeps z0 s)  : Keeps z0 (Machine.csrWrite c n w s) := by
  unfold Machine.csrWrite
  repeat' first
    | (refine fun (k : Cpu) (hk : CpuOk k) => (?_ : CpuOk _); first | exact hk | (simp only [CpuOk, upd_length] at *; simpa using hk) | (split <;> first | exact hk | (simp only [CpuOk, upd_length] at *; simpa using hk)))
    | exact CelKeeps.refl _
    | exact ⟨fun _ h => h, Nat.le_refl _⟩
    | exact ⟨fun _ h => h, Nat.le_succ _⟩
    | with_reducible assumption
    | with_reducible apply Keeps.ite
    | with_reducible apply Keeps.ite1
    | with_reducible apply Keeps.updCpu
    | (fail_if_no_progress dsimp -zeta only)
    | split

theorem Keeps.csrOp {z0 s : State} {c : Nat} {n : Nat} {write : Bool} {word : Word} {f : State → State} (hz : Keeps z0 s) (hf : ∀ x0, Keeps z0 x0 → Keeps z0 (f x0)) : Keeps z0 (Machine.csrOp c n write word f s) := by
  unfold Machine.csrOp
  repeat' first
    | with_reducible assumption
    | with_reducible apply hf
    | with_reducible apply Keeps.trap
    | (fail_if_no_progress dsimp -zeta only)
    | split

theorem Keeps.opCsrrw {z0 s : State} {c : Nat} {rd : Nat} {rs1 : Nat} {n : BitVec 12} (hz : Keeps z0 s)  : Keeps z0 (Machine.opCsrrw c rd rs1 n s) := by
  unfold Machine.opCsrrw
  try lift_lets
  repeat' first
    | with_reducible assumption
    | with_reducible apply Keeps.ite2
    | (intro x; try clear_value x)
    | with_reducible apply Keeps.setW
    | with_reducible apply Keeps.goOn
    | with_reducible apply Keeps.csrRead
    | with_reducible apply Keeps.csrWrite
    | with_reducible apply Keeps.csrOp

theorem Keeps.opCsrrd {z0 s : State} {c : Nat} {rd : Nat} {rs1 : Nat} {n : BitVec 12} (hz : Keeps z0 s)  : Keeps z0 (Machine.opCsrrd c rd rs1 n s) := by
  unfold Machine.opCsrrd
  try lift_lets
  repeat' first
    | with_reducible assumption
    | with_reducible apply Keeps.ite2
    | (intro x; try clear_value x)
    | with_reducible apply Keeps.ite
    | with_reducible apply Keeps.ite1
    | with_reducible apply Keeps.setW
    | with_reducible apply Keeps.goOn
    | with_reducible apply Keeps.illegal
    | with_reducible apply Keeps.csrRead
    | with_reducible apply Keeps.csrOp

theorem Keeps.opCsrrm {z0 s : State} {c : Nat} {rd : Nat} {rs1 : Nat} {n : BitVec 12} (hz : Keeps z0 s)  : Keeps z0 (Machine.opCsrrm c rd rs1 n s) := by
  unfold Machine.opCsrrm
  try lift_lets
  repeat' first
    | with_reducible assumption
    | with_reducible apply Keeps.ite2
    | (intro x; try clear_value x)
    | with_reducible apply Keeps.setW
    | with_reducible apply Keeps.goOn
    | with_reducible apply Keeps.csrRead
    | with_reducible apply Keeps.csrWrite
    | with_reducible apply Keeps.csrOp

theorem Keeps.opSys {z0 s : State} {c : Nat} {word : Word} {un : List Nat} {f : State → State} (hz : Keeps z0 s) (hf : ∀ x0, Keeps z0 x0 → Keeps z0 (f x0)) : Keeps z0 (Machine.opSys c word un f s) := by
  unfold Machine.opSys
  repeat' first
    | with_reducible assumption
    | with_reducible apply Keeps.ite
    | with_reducible apply Keeps.ite1
    | with_reducible apply hf
    | with_reducible apply Keeps.illegal
    | with_reducible apply Keeps.priv

theorem Keeps.opWait {z0 s : State} {c : Nat} {rd : Nat} {rs1 : Nat} {imm : BitVec 12} {pins : Nat} (hz : Keeps z0 s)  : Keeps z0 (Machine.opWait c rd rs1 imm pins s) := by
  unfold Machine.opWait
  repeat' first
    | (refine fun (k : Cpu) (hk : CpuOk k) => (?_ : CpuOk _); first | exact hk | (simp only [CpuOk, upd_length] at *; simpa using hk) | (split <;> first | exact hk | (simp only [CpuOk, upd_length] at *; simpa using hk)))
    | exact CelKeeps.refl _
    | exact ⟨fun _ h => h, Nat.le_refl _⟩
    | exact ⟨fun _ h => h, Nat.le_succ _⟩
    | with_reducible assumption
    | (intro x; try clear_value x)
    | with_reducible apply Keeps.ite
    | with_reducible apply Keeps.ite1
    | with_reducible apply Keeps.stopWait
    | with_reducible apply Keeps.goOn
    | with_reducible apply Keeps.afterStores
    | with_reducible apply Keeps.opSys
    | with_reducible apply Keeps.updCpu
    | ((first | rw [patch_eq] | skip); (with_reducible refine Keeps.patch ?_ ?_ ?_); rotate_left; (first | exact CelKeeps.refl _ | exact ⟨fun _ h => h, Nat.le_refl _⟩ | exact ⟨fun _ h => h, Nat.le_succ _⟩); (refine fun g => ?_; first | exact g | simpa only [SizesOk, Machine.patch, upd_length] using g | (simp only [SizesOk, Machine.patch, upd_length, List.length_map, List.length_replicate, true_and] at g ⊢; tauto)))

theorem Keeps.waitWake {z0 s : State} {c : Nat} (hz : Keeps z0 s)  : Keeps z0 (Machine.waitWake c s) := by
  unfold Machine.waitWake
  repeat' first
    | (refine fun (k : Cpu) (hk : CpuOk k) => (?_ : CpuOk _); first | exact hk | (simp only [CpuOk, upd_length] at *; simpa using hk) | (split <;> first | exact hk | (simp only [CpuOk, upd_length] at *; simpa using hk)))
    | exact CelKeeps.refl _
    | exact ⟨fun _ h => h, Nat.le_refl _⟩
    | exact ⟨fun _ h => h, Nat.le_succ _⟩
    | with_reducible assumption
    | with_reducible apply Keeps.ite
    | with_reducible apply Keeps.ite1
    | with_reducible apply Keeps.stopAbandon
    | with_reducible apply Keeps.goOn
    | with_reducible apply Keeps.eventTrap
    | with_reducible apply Keeps.nmiTrap
    | with_reducible apply Keeps.updCpu
    | (fail_if_no_progress dsimp -zeta only)
    | split

theorem Keeps.opFence {z0 s : State} {c : Nat} {rd : Nat} {rs1 : Nat} {imm : BitVec 12} (hz : Keeps z0 s)  : Keeps z0 (Machine.opFence c rd rs1 imm s) := by
  unfold Machine.opFence
  repeat' first
    | with_reducible assumption
    | (intro x; try clear_value x)
    | with_reducible apply Keeps.ite
    | with_reducible apply Keeps.ite1
    | with_reducible apply Keeps.goOn
    | with_reducible apply Keeps.illegal
    | with_reducible apply Keeps.storeTrap
    | with_reducible apply Keeps.afterStores

theorem Keeps.opEvwait {z0 s : State} {c : Nat} {rd : Nat} {rs1 : Nat} {imm : BitVec 12} (hz : Keeps z0 s)  : Keeps z0 (Machine.opEvwait c rd rs1 imm s) := by
  unfold Machine.opEvwait
  try lift_lets
  repeat' first
    | (refine fun (k : Cpu) (hk : CpuOk k) => (?_ : CpuOk _); first | exact hk | (simp only [CpuOk, upd_length] at *; simpa using hk) | (split <;> first | exact hk | (simp only [CpuOk, upd_length] at *; simpa using hk)))
    | exact CelKeeps.refl _
    | exact ⟨fun _ h => h, Nat.le_refl _⟩
    | exact ⟨fun _ h => h, Nat.le_succ _⟩
    | with_reducible assumption
    | (intro x; try clear_value x)
    | with_reducible apply Keeps.ite
    | with_reducible apply Keeps.ite1
    | with_reducible apply Keeps.clearPend
    | with_reducible apply Keeps.afterStores
    | with_reducible apply Keeps.alu
    | with_reducible apply Keeps.opSys
    | with_reducible apply Keeps.updCpu
    | ((first | rw [patch_eq] | skip); (with_reducible refine Keeps.patch ?_ ?_ ?_); rotate_left; (first | exact CelKeeps.refl _ | exact ⟨fun _ h => h, Nat.le_refl _⟩ | exact ⟨fun _ h => h, Nat.le_succ _⟩); (refine fun g => ?_; first | exact g | simpa only [SizesOk, Machine.patch, upd_length] using g | (simp only [SizesOk, Machine.patch, upd_length, List.length_map, List.length_replicate, true_and] at g ⊢; tauto)))

theorem Keeps.evwaitEvent {z0 s : State} {c : Nat} (hz : Keeps z0 s)  : Keeps z0 (Machine.evwaitEvent c s) := by
  unfold Machine.evwaitEvent
  repeat' first
    | (refine fun (k : Cpu) (hk : CpuOk k) => (?_ : CpuOk _); first | exact hk | (simp only [CpuOk, upd_length] at *; simpa using hk) | (split <;> first | exact hk | (simp only [CpuOk, upd_length] at *; simpa using hk)))
    | exact CelKeeps.refl _
    | exact ⟨fun _ h => h, Nat.le_refl _⟩
    | exact ⟨fun _ h => h, Nat.le_succ _⟩
    | with_reducible assumption
    | with_reducible apply Keeps.ite
    | with_reducible apply Keeps.ite1
    | with_reducible apply Keeps.clearPend
    | with_reducible apply Keeps.alu
    | with_reducible apply Keeps.updCpu
    | (fail_if_no_progress dsimp -zeta only)
    | split

theorem Keeps.evwaitTimeout {z0 s : State} {c : Nat} (hz : Keeps z0 s)  : Keeps z0 (Machine.evwaitTimeout c s) := by
  unfold Machine.evwaitTimeout
  repeat' first
    | (refine fun (k : Cpu) (hk : CpuOk k) => (?_ : CpuOk _); first | exact hk | (simp only [CpuOk, upd_length] at *; simpa using hk) | (split <;> first | exact hk | (simp only [CpuOk, upd_length] at *; simpa using hk)))
    | exact CelKeeps.refl _
    | exact ⟨fun _ h => h, Nat.le_refl _⟩
    | exact ⟨fun _ h => h, Nat.le_succ _⟩
    | with_reducible assumption
    | with_reducible apply Keeps.ite
    | with_reducible apply Keeps.ite1
    | with_reducible apply Keeps.alu
    | with_reducible apply Keeps.updCpu
    | (fail_if_no_progress dsimp -zeta only)
    | split

theorem Keeps.opQpoint {z0 s : State} {c : Nat} {rd : Nat} {rs1 : Nat} {imm : BitVec 12} (hz : Keeps z0 s)  : Keeps z0 (Machine.opQpoint c rd rs1 imm s) := by
  unfold Machine.opQpoint
  repeat' first
    | (refine fun (k : Cpu) (hk : CpuOk k) => (?_ : CpuOk _); first | exact hk | (simp only [CpuOk, upd_length] at *; simpa using hk) | (split <;> first | exact hk | (simp only [CpuOk, upd_length] at *; simpa using hk)))
    | exact CelKeeps.refl _
    | exact ⟨fun _ h => h, Nat.le_refl _⟩
    | exact ⟨fun _ h => h, Nat.le_succ _⟩
    | with_reducible assumption
    | (intro x; with_reducible refine Keeps.cut (o := z0) x ?_ ?_; dsimp only [x]; rotate_left; try clear_value x)
    | (intro x; with_reducible refine Keeps.cut1 (o := z0) x ?_ ?_; dsimp only [x]; rotate_left; try clear_value x)
    | (intro x; with_reducible refine Keeps.cutF x ?_; try dsimp only [x])
    | (intro x; try clear_value x)
    | with_reducible apply Keeps.ite
    | with_reducible apply Keeps.ite1
    | with_reducible apply Keeps.portDrain
    | with_reducible apply Keeps.afterStores
    | with_reducible apply Keeps.alu
    | with_reducible apply Keeps.opSys
    | with_reducible apply Keeps.set
    | with_reducible apply Keeps.updCpu
    | ((first | rw [patch_eq] | skip); (with_reducible refine Keeps.patch ?_ ?_ ?_); rotate_left; (first | exact CelKeeps.refl _ | exact ⟨fun _ h => h, Nat.le_refl _⟩ | exact ⟨fun _ h => h, Nat.le_succ _⟩); (refine fun g => ?_; first | exact g | simpa only [SizesOk, Machine.patch, upd_length] using g | (simp only [SizesOk, Machine.patch, upd_length, List.length_map, List.length_replicate, true_and] at g ⊢; tauto)))
    | (fail_if_no_progress dsimp -zeta only)
    | split

theorem Keeps.shelfSwap {z0 s : State} {c : Nat} (hz : Keeps z0 s)  : Keeps z0 (Machine.shelfSwap c s) := by
  unfold Machine.shelfSwap
  repeat' first
    | (refine fun (k : Cpu) (hk : CpuOk k) => (?_ : CpuOk _); first | exact hk | (simp only [CpuOk, upd_length] at *; simpa using hk) | (split <;> first | exact hk | (simp only [CpuOk, upd_length] at *; simpa using hk)))
    | exact CelKeeps.refl _
    | exact ⟨fun _ h => h, Nat.le_refl _⟩
    | exact ⟨fun _ h => h, Nat.le_succ _⟩
    | with_reducible assumption
    | with_reducible apply Keeps.ite
    | with_reducible apply Keeps.ite1
    | with_reducible apply Keeps.setW
    | with_reducible apply Keeps.goTo
    | with_reducible apply Keeps.set
    | with_reducible apply Keeps.updCpu
    | (fail_if_no_progress dsimp -zeta only)
    | split

theorem Keeps.opTrap {z0 s : State} {c : Nat} {rd : Nat} {rs1 : Nat} {imm : BitVec 12} (hz : Keeps z0 s)  : Keeps z0 (Machine.opTrap c rd rs1 imm s) := by
  unfold Machine.opTrap
  repeat' first
    | with_reducible assumption
    | with_reducible apply Keeps.ite
    | with_reducible apply Keeps.ite1
    | with_reducible apply Keeps.trap
    | with_reducible apply Keeps.illegal

theorem Keeps.opRett {z0 s : State} {c : Nat} {rd : Nat} {rs1 : Nat} {imm : BitVec 12} (hz : Keeps z0 s)  : Keeps z0 (Machine.opRett c rd rs1 imm s) := by
  unfold Machine.opRett
  try lift_lets
  repeat' first
    | (refine fun (k : Cpu) (hk : CpuOk k) => (?_ : CpuOk _); first | exact hk | (simp only [CpuOk, upd_length] at *; simpa using hk) | (split <;> first | exact hk | (simp only [CpuOk, upd_length] at *; simpa using hk)))
    | exact CelKeeps.refl _
    | exact ⟨fun _ h => h, Nat.le_refl _⟩
    | exact ⟨fun _ h => h, Nat.le_succ _⟩
    | with_reducible assumption
    | (intro x; try clear_value x)
    | with_reducible apply Keeps.ite
    | with_reducible apply Keeps.ite1
    | with_reducible apply Keeps.goTo
    | with_reducible apply Keeps.afterStores
    | with_reducible apply Keeps.opSys
    | with_reducible apply Keeps.freeNext
    | with_reducible apply Keeps.updCpu
    | ((first | rw [patch_eq] | skip); (with_reducible refine Keeps.patch ?_ ?_ ?_); rotate_left; (first | exact CelKeeps.refl _ | exact ⟨fun _ h => h, Nat.le_refl _⟩ | exact ⟨fun _ h => h, Nat.le_succ _⟩); (refine fun g => ?_; first | exact g | simpa only [SizesOk, Machine.patch, upd_length] using g | (simp only [SizesOk, Machine.patch, upd_length, List.length_map, List.length_replicate, true_and] at g ⊢; tauto)))

theorem Keeps.takeEvent {z0 s : State} {c : Nat} (hz : Keeps z0 s)  : Keeps z0 (Machine.takeEvent c s) := by
  unfold Machine.takeEvent
  repeat' first
    | with_reducible assumption
    | with_reducible apply Keeps.ite
    | with_reducible apply Keeps.ite1
    | with_reducible apply Keeps.eventTrap
    | (fail_if_no_progress dsimp -zeta only)
    | split

theorem Keeps.takeNmi {z0 s : State}  (hz : Keeps z0 s)  : Keeps z0 (Machine.takeNmi s) := by
  unfold Machine.takeNmi
  repeat' first
    | with_reducible assumption
    | with_reducible apply Keeps.ite
    | with_reducible apply Keeps.ite1
    | with_reducible apply Keeps.nmiTrap
    | (fail_if_no_progress dsimp -zeta only)
    | split

theorem Keeps.takeStoreErr {z0 s : State} {c : Nat} (hz : Keeps z0 s)  : Keeps z0 (Machine.takeStoreErr c s) := by
  unfold Machine.takeStoreErr
  repeat' first
    | with_reducible assumption
    | with_reducible apply Keeps.ite
    | with_reducible apply Keeps.ite1
    | with_reducible apply Keeps.storeTrap

theorem Keeps.opKcall {z0 s : State} {c : Nat} {xd : Nat} {xa : Nat} {xb : Nat} {sel : Nat} (hz : Keeps z0 s)  : Keeps z0 (Machine.opKcall c xd xa xb sel s) := by
  unfold Machine.opKcall
  try lift_lets
  repeat' first
    | with_reducible assumption
    | (intro x; with_reducible refine Keeps.cut (o := z0) x ?_ ?_; dsimp only [x]; rotate_left; try clear_value x)
    | (intro x; with_reducible refine Keeps.cut1 (o := z0) x ?_ ?_; dsimp only [x]; rotate_left; try clear_value x)
    | (intro x; with_reducible refine Keeps.cutF x ?_; try dsimp only [x])
    | (intro x; try clear_value x)
    | with_reducible apply Keeps.ite
    | with_reducible apply Keeps.ite1
    | with_reducible apply Keeps.rankTrap
    | with_reducible apply Keeps.illegal
    | with_reducible apply Keeps.priv
    | (fail_if_no_progress dsimp -zeta only)
    | split

theorem Keeps.opK {z0 s : State} {c : Nat} {xd : Nat} {xa : Nat} {xb : Nat} {fn : Nat} {sel : Nat} {f : Word → Word → State → State × Code} (hz : Keeps z0 s) (hf : ∀ x0 x1 x2, Keeps z0 x2 → Keeps z0 (f x0 x1 x2).1) : Keeps z0 (Machine.opK c xd xa xb fn sel f s) := by
  unfold Machine.opK
  try lift_lets
  repeat' first
    | with_reducible assumption
    | (intro x; with_reducible refine Keeps.cut1 (o := z0) x ?_ ?_; dsimp only [x]; rotate_left; try clear_value x)
    | with_reducible apply Keeps.ite2
    | (intro x; try clear_value x)
    | with_reducible apply Keeps.ite
    | with_reducible apply Keeps.ite1
    | with_reducible apply hf
    | with_reducible apply Keeps.illegal
    | with_reducible apply Keeps.priv
    | with_reducible apply Keeps.alu

theorem Keeps.karm {z0 s : State} {wa : Word} (hz : Keeps z0 s)  : Keeps z0 (Machine.karm wa s).1 := by
  unfold Machine.karm
  try lift_lets
  repeat' first
    | with_reducible assumption
    | (intro x; try clear_value x)
    | with_reducible apply Keeps.ite
    | with_reducible apply Keeps.ite1
    | with_reducible apply Keeps.set

theorem Keeps.swapCancel {z0 s : State} {c : Nat} (hz : Keeps z0 s)  : Keeps z0 (Machine.swapCancel c s) := by
  unfold Machine.swapCancel
  repeat' first
    | (refine fun (k : Cpu) (hk : CpuOk k) => (?_ : CpuOk _); first | exact hk | (simp only [CpuOk, upd_length] at *; simpa using hk) | (split <;> first | exact hk | (simp only [CpuOk, upd_length] at *; simpa using hk)))
    | exact CelKeeps.refl _
    | exact ⟨fun _ h => h, Nat.le_refl _⟩
    | exact ⟨fun _ h => h, Nat.le_succ _⟩
    | with_reducible assumption
    | with_reducible apply Keeps.alu
    | with_reducible apply Keeps.set
    | with_reducible apply Keeps.updCpu
    | (fail_if_no_progress dsimp -zeta only)
    | split

theorem Keeps.kdisarm {z0 s : State} {wa : Word} (hz : Keeps z0 s)  : Keeps z0 (Machine.kdisarm wa s).1 := by
  unfold Machine.kdisarm
  try lift_lets
  repeat' first
    | with_reducible assumption
    | (intro x; try clear_value x)
    | with_reducible apply Keeps.ite
    | with_reducible apply Keeps.ite1
    | with_reducible apply Keeps.swapCancel
    | with_reducible apply Keeps.set

theorem Keeps.zeroBlock {z0 s : State} {a : Nat} (hz : Keeps z0 s)  : Keeps z0 (Machine.zeroBlock a s) := by
  unfold Machine.zeroBlock
  try lift_lets
  repeat' first
    | with_reducible assumption
    | (intro x; with_reducible refine Keeps.cut (o := z0) x ?_ ?_; dsimp only [x]; rotate_left; try clear_value x)
    | (intro x; try clear_value x)
    | (with_reducible refine Keeps.memWrite ?_ fun h => absurd h (by simp))
    | exact Keeps.shelfCheckD (by with_reducible assumption)

theorem Keeps.kzero {z0 s : State} {stop : Option Nat} {wa : Word} {wb : Word} (hz : Keeps z0 s)  : Keeps z0 (Machine.kzero stop wa wb s).1 := by
  unfold Machine.kzero
  repeat' first
    | with_reducible assumption
    | (intro x; try clear_value x)
    | with_reducible apply Keeps.ite
    | with_reducible apply Keeps.ite1
    | with_reducible apply Keeps.forN
    | with_reducible apply Keeps.zeroBlock
    | (fail_if_no_progress dsimp -zeta only)
    | split

theorem Keeps.execCsrrw {s z : State} {c : Fin 14} {rd : Fin 32} {rs1 : Fin 32} {n : BitVec 12} (e : Machine.execCsrrw c rd rs1 n s = .next z) : Keeps s z := by
  have hz := Keeps.refl s
  revert e
  unfold Machine.execCsrrw
  first
    | (intro e; injection e with e; subst e; (repeat' first
         | with_reducible assumption
         | (intro x; try clear_value x)
         | with_reducible apply Keeps.isa
         | with_reducible apply Keeps.opCsrrw
         ); done)

theorem Keeps.execCsrrd {s z : State} {c : Fin 14} {rd : Fin 32} {rs1 : Fin 32} {n : BitVec 12} (e : Machine.execCsrrd c rd rs1 n s = .next z) : Keeps s z := by
  have hz := Keeps.refl s
  revert e
  unfold Machine.execCsrrd
  first
    | (intro e; injection e with e; subst e; (repeat' first
         | with_reducible assumption
         | (intro x; try clear_value x)
         | with_reducible apply Keeps.isa
         | with_reducible apply Keeps.opCsrrd
         ); done)

theorem Keeps.execCsrrm {s z : State} {c : Fin 14} {rd : Fin 32} {rs1 : Fin 32} {n : BitVec 12} (e : Machine.execCsrrm c rd rs1 n s = .next z) : Keeps s z := by
  have hz := Keeps.refl s
  revert e
  unfold Machine.execCsrrm
  first
    | (intro e; injection e with e; subst e; (repeat' first
         | with_reducible assumption
         | (intro x; try clear_value x)
         | with_reducible apply Keeps.isa
         | with_reducible apply Keeps.opCsrrm
         ); done)

theorem Keeps.execWait {s z : State} {c : Fin 14} {rd : Fin 32} {rs1 : Fin 32} {imm : BitVec 12} {pins : BitVec 11} (e : Machine.execWait c rd rs1 imm pins s = .next z) : Keeps s z := by
  have hz := Keeps.refl s
  revert e
  unfold Machine.execWait
  first
    | (intro e; injection e with e; subst e; (repeat' first
         | with_reducible assumption
         | (intro x; with_reducible refine Keeps.cut (o := z0) x ?_ ?_; dsimp only [x]; rotate_left; try clear_value x)
         | (intro x; with_reducible refine Keeps.cut1 (o := z0) x ?_ ?_; dsimp only [x]; rotate_left; try clear_value x)
         | (intro x; with_reducible refine Keeps.cutF x ?_; try dsimp only [x])
         | (intro x; try clear_value x)
         | with_reducible apply Keeps.isa
         | with_reducible apply Keeps.opWait
         | (fail_if_no_progress dsimp -zeta only)
         | split
         ); done)

theorem Keeps.execWaitWake {s z : State} {c : Fin 14} (e : Machine.execWaitWake c s = .next z) : Keeps s z := by
  have hz := Keeps.refl s
  revert e
  unfold Machine.execWaitWake
  first
    | (intro e; injection e with e; subst e; (repeat' first
         | with_reducible assumption
         | with_reducible apply Keeps.waitWake
         ); done)

theorem Keeps.execFence {s z : State} {c : Fin 14} {rd : Fin 32} {rs1 : Fin 32} {imm : BitVec 12} (e : Machine.execFence c rd rs1 imm s = .next z) : Keeps s z := by
  have hz := Keeps.refl s
  revert e
  unfold Machine.execFence
  first
    | (intro e; injection e with e; subst e; (repeat' first
         | with_reducible assumption
         | (intro x; try clear_value x)
         | with_reducible apply Keeps.isa
         | with_reducible apply Keeps.opFence
         ); done)

theorem Keeps.execEvwait {s z : State} {c : Fin 14} {rd : Fin 32} {rs1 : Fin 32} {imm : BitVec 12} (e : Machine.execEvwait c rd rs1 imm s = .next z) : Keeps s z := by
  have hz := Keeps.refl s
  revert e
  unfold Machine.execEvwait
  first
    | (intro e; injection e with e; subst e; (repeat' first
         | with_reducible assumption
         | (intro x; try clear_value x)
         | with_reducible apply Keeps.isa
         | with_reducible apply Keeps.opEvwait
         ); done)

theorem Keeps.execEvwaitEvent {s z : State} {c : Fin 14} (e : Machine.execEvwaitEvent c s = .next z) : Keeps s z := by
  have hz := Keeps.refl s
  revert e
  unfold Machine.execEvwaitEvent
  first
    | (intro e; injection e with e; subst e; (repeat' first
         | with_reducible assumption
         | with_reducible apply Keeps.evwaitEvent
         ); done)

theorem Keeps.execEvwaitTimeout {s z : State} {c : Fin 14} (e : Machine.execEvwaitTimeout c s = .next z) : Keeps s z := by
  have hz := Keeps.refl s
  revert e
  unfold Machine.execEvwaitTimeout
  first
    | (intro e; injection e with e; subst e; (repeat' first
         | with_reducible assumption
         | with_reducible apply Keeps.evwaitTimeout
         ); done)

theorem Keeps.execQpoint {s z : State} {c : Fin 14} {rd : Fin 32} {rs1 : Fin 32} {imm : BitVec 12} (e : Machine.execQpoint c rd rs1 imm s = .next z) : Keeps s z := by
  have hz := Keeps.refl s
  revert e
  unfold Machine.execQpoint
  first
    | (intro e; injection e with e; subst e; (repeat' first
         | with_reducible assumption
         | (intro x; try clear_value x)
         | with_reducible apply Keeps.isa
         | with_reducible apply Keeps.opQpoint
         ); done)

theorem Keeps.execShelfSwap {s z : State} {c : Fin 13} (e : Machine.execShelfSwap c s = .next z) : Keeps s z := by
  have hz := Keeps.refl s
  revert e
  unfold Machine.execShelfSwap
  first
    | (intro e; injection e with e; subst e; (repeat' first
         | with_reducible assumption
         | with_reducible apply Keeps.shelfSwap
         ); done)

theorem Keeps.execTrap {s z : State} {c : Fin 14} {rd : Fin 32} {rs1 : Fin 32} {imm : BitVec 12} (e : Machine.execTrap c rd rs1 imm s = .next z) : Keeps s z := by
  have hz := Keeps.refl s
  revert e
  unfold Machine.execTrap
  first
    | (intro e; injection e with e; subst e; (repeat' first
         | with_reducible assumption
         | (intro x; try clear_value x)
         | with_reducible apply Keeps.isa
         | with_reducible apply Keeps.opTrap
         ); done)

theorem Keeps.execBrk {s z : State} {c : Fin 14} (e : Machine.execBrk c s = .next z) : Keeps s z := by
  have hz := Keeps.refl s
  revert e
  unfold Machine.execBrk
  first
    | (intro e; injection e with e; subst e; (repeat' first
         | with_reducible assumption
         | (intro x; try clear_value x)
         | with_reducible apply Keeps.trap
         | with_reducible apply Keeps.isa
         ); done)

theorem Keeps.execRett {s z : State} {c : Fin 14} {rd : Fin 32} {rs1 : Fin 32} {imm : BitVec 12} (e : Machine.execRett c rd rs1 imm s = .next z) : Keeps s z := by
  have hz := Keeps.refl s
  revert e
  unfold Machine.execRett
  first
    | (intro e; injection e with e; subst e; (repeat' first
         | with_reducible assumption
         | (intro x; try clear_value x)
         | with_reducible apply Keeps.isa
         | with_reducible apply Keeps.opRett
         ); done)

theorem Keeps.execEventTrap {s z : State} {c : Fin 14} (e : Machine.execEventTrap c s = .next z) : Keeps s z := by
  have hz := Keeps.refl s
  revert e
  unfold Machine.execEventTrap
  first
    | (intro e; injection e with e; subst e; (repeat' first
         | with_reducible assumption
         | with_reducible apply Keeps.takeEvent
         ); done)

theorem Keeps.execNmiTrap {s z : State}  (e : Machine.execNmiTrap s = .next z) : Keeps s z := by
  have hz := Keeps.refl s
  revert e
  unfold Machine.execNmiTrap
  first
    | (intro e; injection e with e; subst e; (repeat' first
         | with_reducible assumption
         | with_reducible apply Keeps.takeNmi
         ); done)

theorem Keeps.execStoreCompletion {s z : State} {c : Fin 14} {stale : Bool} (e : Machine.execStoreCompletion c stale s = .next z) : Keeps s z := by
  have hz := Keeps.refl s
  revert e
  unfold Machine.execStoreCompletion
  first
    | (intro e; injection e with e; subst e; (repeat' first
         | with_reducible assumption
         | with_reducible apply Keeps.storeNext
         ); done)

theorem Keeps.execStoreErrTrap {s z : State} {c : Fin 14} (e : Machine.execStoreErrTrap c s = .next z) : Keeps s z := by
  have hz := Keeps.refl s
  revert e
  unfold Machine.execStoreErrTrap
  first
    | (intro e; injection e with e; subst e; (repeat' first
         | with_reducible assumption
         | with_reducible apply Keeps.takeStoreErr
         ); done)

theorem Keeps.execKcall {s z : State} {c : Fin 14} {xd : Fin 32} {xa : Fin 32} {xb : Fin 32} {sel : Fin 8} (e : Machine.execKcall c xd xa xb sel s = .next z) : Keeps s z := by
  have hz := Keeps.refl s
  revert e
  unfold Machine.execKcall
  first
    | (intro e; injection e with e; subst e; (repeat' first
         | with_reducible assumption
         | (intro x; try clear_value x)
         | with_reducible apply Keeps.isa
         | with_reducible apply Keeps.opKcall
         ); done)

theorem Keeps.execKarm {s z : State} {c : Fin 14} {xd : Fin 32} {xa : Fin 32} {xb : Fin 32} {sel : Fin 8} (e : Machine.execKarm c xd xa xb sel s = .next z) : Keeps s z := by
  have hz := Keeps.refl s
  revert e
  unfold Machine.execKarm
  first
    | (intro e; injection e with e; subst e; (repeat' first
         | with_reducible assumption
         | (intro x; try clear_value x)
         | with_reducible apply Keeps.isa
         | with_reducible apply Keeps.opK
         | with_reducible apply Keeps.karm
         ); done)

theorem Keeps.execKdisarm {s z : State} {c : Fin 14} {xd : Fin 32} {xa : Fin 32} {xb : Fin 32} {sel : Fin 8} (e : Machine.execKdisarm c xd xa xb sel s = .next z) : Keeps s z := by
  have hz := Keeps.refl s
  revert e
  unfold Machine.execKdisarm
  first
    | (intro e; injection e with e; subst e; (repeat' first
         | with_reducible assumption
         | (intro x; try clear_value x)
         | with_reducible apply Keeps.isa
         | with_reducible apply Keeps.opK
         | with_reducible apply Keeps.kdisarm
         ); done)

theorem Keeps.execKzero {s z : State} {c : Fin 14} {xd : Fin 32} {xa : Fin 32} {xb : Fin 32} {sel : Fin 8} {stop : Option (BitVec 15)} (e : Machine.execKzero c xd xa xb sel stop s = .next z) : Keeps s z := by
  have hz := Keeps.refl s
  revert e
  unfold Machine.execKzero
  first
    | (intro e; injection e with e; subst e; (repeat' first
         | with_reducible assumption
         | (intro x; try clear_value x)
         | with_reducible apply Keeps.isa
         | with_reducible apply Keeps.opK
         | with_reducible apply Keeps.kzero
         ); done)

end Sys2Proof.Machine
end

