-- ==== Sys2Proof/Laws/KeepRemote.lean ====
section
/-! SUPPORT. What the operations of Remote.lean keep. -/

set_option linter.all false

namespace Sys2Proof.Machine

theorem Keeps.readWords {o s : State} {q : Rq} {a n j : Nat} (h : Keeps o s) : Keeps o (Machine.readWords q a n j s).1 := by
  induction n generalizing j s with
  | zero => exact h
  | succ n ih =>
    unfold Machine.readWords
    refine Keeps.ite1 ?_ ?_
    · exact ih (Keeps.busRead h)
    · exact Keeps.busRead h

theorem Keeps.writeWords {o s : State} {q : Rq} {cut : Bool} {a j : Nat} {l : List Word} (h : Keeps o s) :
    Keeps o (Machine.writeWords q cut a l j s).1 := by
  induction l generalizing j s with
  | nil => exact h
  | cons w t ih =>
    unfold Machine.writeWords
    refine Keeps.ite1 (Keeps.updSnk h) ?_
    have g : Keeps o (Machine.busWrite q (a + 4 * j) (leBytes 4 w.toNat) s).1 := Keeps.busWrite h
    dsimp only
    split
    · exact ih g
    · exact g
    · exact ih g

theorem Keeps.reqWords {o s : State} {c : List Byte} {n j : Nat} (h : Keeps o s) : Keeps o (Machine.reqWords c n j s).1 := by
  induction n generalizing j s with
  | zero => exact h
  | succ n ih =>
    unfold Machine.reqWords
    exact ih (Keeps.ite1 h h.freeNext)

theorem Keeps.reqAnswer {z0 s : State} {c : List Byte} {code : Code} {index : Nat} {stale : Bool} {data : List Byte} {own : Option Nat} (hz : Keeps z0 s)  : Keeps z0 (Machine.reqAnswer c code index stale data own s) := by
  unfold Machine.reqAnswer
  try lift_lets
  repeat' first
    | with_reducible assumption
    | (intro x; with_reducible refine Keeps.cut (o := z0) x ?_ ?_; dsimp only [x]; rotate_left; try clear_value x)
    | (intro x; with_reducible refine Keeps.cut1 (o := z0) x ?_ ?_; dsimp only [x]; rotate_left; try clear_value x)
    | with_reducible apply Keeps.ite2
    | (intro x; try clear_value x)
    | with_reducible apply Keeps.ite
    | with_reducible apply Keeps.ite1
    | with_reducible apply Keeps.updSnk
    | with_reducible apply Keeps.routeTo
    | with_reducible apply Keeps.freeNext
    | ((first | rw [patch_eq] | skip); (with_reducible refine Keeps.patch ?_ ?_ ?_); rotate_left; (first | exact CelKeeps.refl _ | exact ⟨fun _ h => h, Nat.le_refl _⟩ | exact ⟨fun _ h => h, Nat.le_succ _⟩); (refine fun g => ?_; first | exact g | simpa only [SizesOk, Machine.patch, upd_length] using g | (simp only [SizesOk, Machine.patch, upd_length, List.length_map, List.length_replicate, true_and] at g ⊢; tauto)))

theorem Keeps.remoteRead {z0 s : State} {stale : Bool} (hz : Keeps z0 s)  : Keeps z0 (Machine.remoteRead stale s) := by
  unfold Machine.remoteRead
  repeat' first
    | with_reducible assumption
    | with_reducible apply Keeps.ite2
    | with_reducible apply Keeps.ite
    | with_reducible apply Keeps.ite1
    | with_reducible apply Keeps.readWords
    | with_reducible apply Keeps.reqAnswer
    | (fail_if_no_progress dsimp -zeta only)
    | split

theorem Keeps.remoteWrite {z0 s : State} {stale : Bool} (hz : Keeps z0 s)  : Keeps z0 (Machine.remoteWrite stale s) := by
  unfold Machine.remoteWrite
  repeat' first
    | with_reducible assumption
    | with_reducible apply Keeps.ite2
    | with_reducible apply Keeps.ite
    | with_reducible apply Keeps.ite1
    | with_reducible apply Keeps.writeWords
    | with_reducible apply Keeps.reqWords
    | with_reducible apply Keeps.reqAnswer
    | (fail_if_no_progress dsimp -zeta only)
    | split

theorem Keeps.crateSent {z0 s : State} {l : Nat} (hz : Keeps z0 s)  : Keeps z0 (Machine.crateSent l s) := by
  unfold Machine.crateSent
  repeat' first
    | with_reducible assumption
    | (intro x; with_reducible refine Keeps.cut (o := z0) x ?_ ?_; dsimp only [x]; rotate_left; try clear_value x)
    | (intro x; try clear_value x)
    | with_reducible apply Keeps.ite
    | with_reducible apply Keeps.ite1
    | with_reducible apply Keeps.updSnk
    | with_reducible apply Keeps.linkSent
    | with_reducible apply Keeps.wrCmdReset
    | (fail_if_no_progress dsimp -zeta only)
    | split
    | lift_lets

theorem Keeps.b0Set {z0 s : State} {i : Nat} {v : Nat} (hz : Keeps z0 s)  : Keeps z0 (Machine.b0Set i v s) := by
  unfold Machine.b0Set
  repeat' first
    | with_reducible assumption
    | with_reducible apply Keeps.updOwn
    | ((first | rw [patch_eq] | skip); (with_reducible refine Keeps.patch ?_ ?_ ?_); rotate_left; (first | exact CelKeeps.refl _ | exact ⟨fun _ h => h, Nat.le_refl _⟩ | exact ⟨fun _ h => h, Nat.le_succ _⟩); (refine fun g => ?_; first | exact g | simpa only [SizesOk, Machine.patch, upd_length] using g | (simp only [SizesOk, Machine.patch, upd_length, List.length_map, List.length_replicate, true_and] at g ⊢; tauto)))

theorem Keeps.windowServe {z0 s : State}  (hz : Keeps z0 s)  : Keeps z0 (Machine.windowServe s) := by
  unfold Machine.windowServe
  try lift_lets
  repeat' first
    | with_reducible assumption
    | (intro x; with_reducible refine Keeps.cut (o := z0) x ?_ ?_; dsimp only [x]; rotate_left; try clear_value x)
    | (intro x; with_reducible refine Keeps.cut1 (o := z0) x ?_ ?_; dsimp only [x]; rotate_left; try clear_value x)
    | (intro x; with_reducible refine Keeps.cut2 (o := z0) x ?_ ?_; dsimp only [x]; rotate_left; try clear_value x)
    | with_reducible apply Keeps.ite2
    | (intro x; with_reducible refine Keeps.cutF x ?_; try dsimp only [x])
    | (intro x; try clear_value x)
    | with_reducible apply Keeps.ite
    | with_reducible apply Keeps.ite1
    | with_reducible apply Keeps.updOwn
    | with_reducible apply Keeps.readWords
    | with_reducible apply Keeps.writeWords
    | with_reducible apply Keeps.b0Set
    | with_reducible apply Keeps.ret
    | ((first | rw [patch_eq] | skip); (with_reducible refine Keeps.patch ?_ ?_ ?_); rotate_left; (first | exact CelKeeps.refl _ | exact ⟨fun _ h => h, Nat.le_refl _⟩ | exact ⟨fun _ h => h, Nat.le_succ _⟩); (refine fun g => ?_; first | exact g | simpa only [SizesOk, Machine.patch, upd_length] using g | (simp only [SizesOk, Machine.patch, upd_length, List.length_map, List.length_replicate, true_and] at g ⊢; tauto)))
    | (fail_if_no_progress dsimp -zeta only)
    | split

theorem Keeps.windowRun {z0 s : State}  (hz : Keeps z0 s)  : Keeps z0 (Machine.windowRun s) := by
  unfold Machine.windowRun
  repeat' first
    | with_reducible assumption
    | (intro x; with_reducible refine Keeps.cut (o := z0) x ?_ ?_; dsimp only [x]; rotate_left; try clear_value x)
    | (intro x; with_reducible refine Keeps.cut1 (o := z0) x ?_ ?_; dsimp only [x]; rotate_left; try clear_value x)
    | (intro x; with_reducible refine Keeps.cutF x ?_; try dsimp only [x])
    | (intro x; try clear_value x)
    | with_reducible apply Keeps.ite
    | with_reducible apply Keeps.ite1
    | with_reducible apply Keeps.park
    | with_reducible apply Keeps.windowServe
    | (fail_if_no_progress dsimp -zeta only)
    | split

theorem Keeps.agentFlag {z0 s : State} {flag : Bool} (hz : Keeps z0 s)  : Keeps z0 (Machine.agentFlag flag s) := by
  unfold Machine.agentFlag
  repeat' first
    | with_reducible assumption
    | (intro x; with_reducible refine Keeps.cut (o := z0) x ?_ ?_; dsimp only [x]; rotate_left; try clear_value x)
    | (intro x; with_reducible refine Keeps.cut1 (o := z0) x ?_ ?_; dsimp only [x]; rotate_left; try clear_value x)
    | (intro x; with_reducible refine Keeps.cutF x ?_; try dsimp only [x])
    | (intro x; try clear_value x)
    | with_reducible apply Keeps.sendIbi
    | with_reducible apply Keeps.flag
    | with_reducible apply Keeps.updOwn
    | ((first | rw [patch_eq] | skip); (with_reducible refine Keeps.patch ?_ ?_ ?_); rotate_left; (first | exact CelKeeps.refl _ | exact ⟨fun _ h => h, Nat.le_refl _⟩ | exact ⟨fun _ h => h, Nat.le_succ _⟩); (refine fun g => ?_; first | exact g | simpa only [SizesOk, Machine.patch, upd_length] using g | (simp only [SizesOk, Machine.patch, upd_length, List.length_map, List.length_replicate, true_and] at g ⊢; tauto)))
    | (fail_if_no_progress dsimp -zeta only)
    | split

theorem Keeps.mgmtWrite {z0 s : State} {b : Nat} {v : Byte} {flag : Bool} (hz : Keeps z0 s)  : Keeps z0 (Machine.mgmtWrite b v flag s) := by
  unfold Machine.mgmtWrite
  repeat' first
    | with_reducible assumption
    | (intro x; with_reducible refine Keeps.cut (o := z0) x ?_ ?_; dsimp only [x]; rotate_left; try clear_value x)
    | (intro x; with_reducible refine Keeps.cut1 (o := z0) x ?_ ?_; dsimp only [x]; rotate_left; try clear_value x)
    | (intro x; with_reducible refine Keeps.cutF x ?_; try dsimp only [x])
    | (intro x; try clear_value x)
    | with_reducible apply Keeps.ite
    | with_reducible apply Keeps.ite1
    | with_reducible apply Keeps.flag
    | with_reducible apply Keeps.updOwn
    | with_reducible apply Keeps.b0Set
    | with_reducible apply Keeps.windowRun
    | with_reducible apply Keeps.agentFlag
    | ((first | rw [patch_eq] | skip); (with_reducible refine Keeps.patch ?_ ?_ ?_); rotate_left; (first | exact CelKeeps.refl _ | exact ⟨fun _ h => h, Nat.le_refl _⟩ | exact ⟨fun _ h => h, Nat.le_succ _⟩); (refine fun g => ?_; first | exact g | simpa only [SizesOk, Machine.patch, upd_length] using g | (simp only [SizesOk, Machine.patch, upd_length, List.length_map, List.length_replicate, true_and] at g ⊢; tauto)))
    | (fail_if_no_progress dsimp -zeta only)
    | split

theorem Keeps.hatchBusEnd {z0 s : State} {a : Word} {d : Word} {write : Bool} {c : Code} (hz : Keeps z0 s)  : Keeps z0 (Machine.hatchBusEnd a d write c s) := by
  unfold Machine.hatchBusEnd
  repeat' first
    | with_reducible assumption
    | with_reducible apply Keeps.updOwn
    | with_reducible apply Keeps.ret
    | ((first | rw [patch_eq] | skip); (with_reducible refine Keeps.patch ?_ ?_ ?_); rotate_left; (first | exact CelKeeps.refl _ | exact ⟨fun _ h => h, Nat.le_refl _⟩ | exact ⟨fun _ h => h, Nat.le_succ _⟩); (refine fun g => ?_; first | exact g | simpa only [SizesOk, Machine.patch, upd_length] using g | (simp only [SizesOk, Machine.patch, upd_length, List.length_map, List.length_replicate, true_and] at g ⊢; tauto)))

theorem Keeps.hatchReadServe {z0 s : State} {a : Word} (hz : Keeps z0 s)  : Keeps z0 (Machine.hatchReadServe a s) := by
  unfold Machine.hatchReadServe
  try lift_lets
  repeat' first
    | with_reducible assumption
    | (intro x; with_reducible refine Keeps.cut (o := z0) x ?_ ?_; dsimp only [x]; rotate_left; try clear_value x)
    | (intro x; with_reducible refine Keeps.cut1 (o := z0) x ?_ ?_; dsimp only [x]; rotate_left; try clear_value x)
    | (intro x; with_reducible refine Keeps.cut2 (o := z0) x ?_ ?_; dsimp only [x]; rotate_left; try clear_value x)
    | with_reducible apply Keeps.ite2
    | (intro x; with_reducible refine Keeps.cutF x ?_; try dsimp only [x])
    | (intro x; try clear_value x)
    | with_reducible apply Keeps.ite
    | with_reducible apply Keeps.ite1
    | with_reducible apply Keeps.busRead
    | with_reducible apply Keeps.hatchBusEnd
    | with_reducible apply Keeps.freeNext
    | ((first | rw [patch_eq] | skip); (with_reducible refine Keeps.patch ?_ ?_ ?_); rotate_left; (first | exact CelKeeps.refl _ | exact ⟨fun _ h => h, Nat.le_refl _⟩ | exact ⟨fun _ h => h, Nat.le_succ _⟩); (refine fun g => ?_; first | exact g | simpa only [SizesOk, Machine.patch, upd_length] using g | (simp only [SizesOk, Machine.patch, upd_length, List.length_map, List.length_replicate, true_and] at g ⊢; tauto)))
    | (fail_if_no_progress dsimp -zeta only)
    | split

theorem Keeps.hatchWriteServe {z0 s : State} {a : Word} {w : Word} (hz : Keeps z0 s)  : Keeps z0 (Machine.hatchWriteServe a w s) := by
  unfold Machine.hatchWriteServe
  try lift_lets
  repeat' first
    | with_reducible assumption
    | (intro x; with_reducible refine Keeps.cut (o := z0) x ?_ ?_; dsimp only [x]; rotate_left; try clear_value x)
    | (intro x; with_reducible refine Keeps.cut1 (o := z0) x ?_ ?_; dsimp only [x]; rotate_left; try clear_value x)
    | (intro x; with_reducible refine Keeps.cut2 (o := z0) x ?_ ?_; dsimp only [x]; rotate_left; try clear_value x)
    | with_reducible apply Keeps.ite2
    | (intro x; with_reducible refine Keeps.cutF x ?_; try dsimp only [x])
    | (intro x; try clear_value x)
    | with_reducible apply Keeps.ite
    | with_reducible apply Keeps.ite1
    | with_reducible apply Keeps.logRefusal
    | with_reducible apply Keeps.hatchSecret
    | with_reducible apply Keeps.busWrite
    | with_reducible apply Keeps.hatchBusEnd
    | (fail_if_no_progress dsimp -zeta only)
    | split

theorem Keeps.hatchRead {z0 s : State} {a : Word} (hz : Keeps z0 s)  : Keeps z0 (Machine.hatchRead a s) := by
  unfold Machine.hatchRead
  repeat' first
    | with_reducible assumption
    | (intro x; with_reducible refine Keeps.cut (o := z0) x ?_ ?_; dsimp only [x]; rotate_left; try clear_value x)
    | (intro x; with_reducible refine Keeps.cut1 (o := z0) x ?_ ?_; dsimp only [x]; rotate_left; try clear_value x)
    | (intro x; with_reducible refine Keeps.cutF x ?_; try dsimp only [x])
    | (intro x; try clear_value x)
    | with_reducible apply Keeps.ite
    | with_reducible apply Keeps.ite1
    | with_reducible apply Keeps.park
    | with_reducible apply Keeps.hatchReadServe
    | (fail_if_no_progress dsimp -zeta only)
    | split

theorem Keeps.hatchWrite {z0 s : State} {a : Word} {w : Word} (hz : Keeps z0 s)  : Keeps z0 (Machine.hatchWrite a w s) := by
  unfold Machine.hatchWrite
  repeat' first
    | with_reducible assumption
    | (intro x; with_reducible refine Keeps.cut (o := z0) x ?_ ?_; dsimp only [x]; rotate_left; try clear_value x)
    | (intro x; with_reducible refine Keeps.cut1 (o := z0) x ?_ ?_; dsimp only [x]; rotate_left; try clear_value x)
    | (intro x; with_reducible refine Keeps.cutF x ?_; try dsimp only [x])
    | (intro x; try clear_value x)
    | with_reducible apply Keeps.ite
    | with_reducible apply Keeps.ite1
    | with_reducible apply Keeps.park
    | with_reducible apply Keeps.hatchWriteServe
    | (fail_if_no_progress dsimp -zeta only)
    | split

theorem Keeps.waited {z0 s : State} {x : Waiting} (hz : Keeps z0 s)  : Keeps z0 (Machine.waited x s) := by
  unfold Machine.waited
  repeat' first
    | with_reducible assumption
    | (intro x; with_reducible refine Keeps.cut (o := z0) x ?_ ?_; dsimp only [x]; rotate_left; try clear_value x)
    | (intro x; with_reducible refine Keeps.cut1 (o := z0) x ?_ ?_; dsimp only [x]; rotate_left; try clear_value x)
    | (intro x; with_reducible refine Keeps.cutF x ?_; try dsimp only [x])
    | (intro x; try clear_value x)
    | with_reducible apply Keeps.regRead
    | with_reducible apply Keeps.writeServe
    | with_reducible apply Keeps.windowServe
    | with_reducible apply Keeps.hatchReadServe
    | with_reducible apply Keeps.hatchWriteServe
    | ((first | rw [patch_eq] | skip); (with_reducible refine Keeps.patch ?_ ?_ ?_); rotate_left; (first | exact CelKeeps.refl _ | exact ⟨fun _ h => h, Nat.le_refl _⟩ | exact ⟨fun _ h => h, Nat.le_succ _⟩); (refine fun g => ?_; first | exact g | simpa only [SizesOk, Machine.patch, upd_length] using g | (simp only [SizesOk, Machine.patch, upd_length, List.length_map, List.length_replicate, true_and] at g ⊢; tauto)))
    | (fail_if_no_progress dsimp -zeta only)
    | split

theorem Keeps.thaw {z0 s : State}  (hz : Keeps z0 s)  : Keeps z0 (Machine.thaw s) := by
  unfold Machine.thaw
  repeat' first
    | with_reducible assumption
    | (intro x; with_reducible refine Keeps.cut (o := z0) x ?_ ?_; dsimp only [x]; rotate_left; try clear_value x)
    | (intro x; with_reducible refine Keeps.cut1 (o := z0) x ?_ ?_; dsimp only [x]; rotate_left; try clear_value x)
    | (intro x; with_reducible refine Keeps.cutF x ?_; try dsimp only [x])
    | (intro x; try clear_value x)
    | with_reducible apply Keeps.ite
    | with_reducible apply Keeps.ite1
    | with_reducible apply Keeps.foldl
    | with_reducible apply Keeps.foldl1
    | with_reducible apply Keeps.stopOn
    | with_reducible apply Keeps.waited
    | ((first | rw [patch_eq] | skip); (with_reducible refine Keeps.patch ?_ ?_ ?_); rotate_left; (first | exact CelKeeps.refl _ | exact ⟨fun _ h => h, Nat.le_refl _⟩ | exact ⟨fun _ h => h, Nat.le_succ _⟩); (refine fun g => ?_; first | exact g | simpa only [SizesOk, Machine.patch, upd_length] using g | (simp only [SizesOk, Machine.patch, upd_length, List.length_map, List.length_replicate, true_and] at g ⊢; tauto)))
    | (fail_if_no_progress dsimp -zeta only)
    | split

theorem Keeps.execPllLock {s z : State} {p : Fin 4} (e : Machine.execPllLock p s = .next z) : Keeps s z := by
  have hz := Keeps.refl s
  revert e
  unfold Machine.execPllLock
  first
    | (intro e; injection e with e; subst e; (repeat' first
         | with_reducible assumption
         | (intro x; with_reducible refine Keeps.cut (o := z0) x ?_ ?_; dsimp only [x]; rotate_left; try clear_value x)
         | (intro x; with_reducible refine Keeps.cut1 (o := z0) x ?_ ?_; dsimp only [x]; rotate_left; try clear_value x)
         | (intro x; with_reducible refine Keeps.cutF x ?_; try dsimp only [x])
         | (intro x; try clear_value x)
         | with_reducible apply Keeps.pllLock
         | with_reducible apply Keeps.nofoscRelease
         | with_reducible apply Keeps.thaw
         | (fail_if_no_progress dsimp -zeta only)
         | split
         ); done)

theorem Keeps.execFoscReady {s z : State}  (e : Machine.execFoscReady s = .next z) : Keeps s z := by
  have hz := Keeps.refl s
  revert e
  unfold Machine.execFoscReady
  first
    | (intro e; injection e with e; subst e; (repeat' first
         | with_reducible assumption
         | (intro x; with_reducible refine Keeps.cut (o := z0) x ?_ ?_; dsimp only [x]; rotate_left; try clear_value x)
         | (intro x; with_reducible refine Keeps.cut1 (o := z0) x ?_ ?_; dsimp only [x]; rotate_left; try clear_value x)
         | (intro x; with_reducible refine Keeps.cutF x ?_; try dsimp only [x])
         | (intro x; try clear_value x)
         | with_reducible apply Keeps.foscReady
         | with_reducible apply Keeps.nofoscRelease
         | with_reducible apply Keeps.thaw
         | (fail_if_no_progress dsimp -zeta only)
         | split
         ); done)

theorem Keeps.execNofoscTimeout {s z : State}  (e : Machine.execNofoscTimeout s = .next z) : Keeps s z := by
  have hz := Keeps.refl s
  revert e
  unfold Machine.execNofoscTimeout
  first
    | (intro e; injection e with e; subst e; (repeat' first
         | with_reducible assumption
         | (intro x; with_reducible refine Keeps.cut (o := z0) x ?_ ?_; dsimp only [x]; rotate_left; try clear_value x)
         | (intro x; with_reducible refine Keeps.cut1 (o := z0) x ?_ ?_; dsimp only [x]; rotate_left; try clear_value x)
         | (intro x; with_reducible refine Keeps.cutF x ?_; try dsimp only [x])
         | (intro x; try clear_value x)
         | with_reducible apply Keeps.nofoscReset
         | with_reducible apply Keeps.thaw
         | (fail_if_no_progress dsimp -zeta only)
         | split
         ); done)

theorem Keeps.execClockSwitchDone {s z : State} {clkout : Bool} {forced : Bool} (e : Machine.execClockSwitchDone clkout forced s = .next z) : Keeps s z := by
  have hz := Keeps.refl s
  revert e
  unfold Machine.execClockSwitchDone
  first
    | (intro e; injection e with e; subst e; (repeat' first
         | with_reducible assumption
         | (intro x; with_reducible refine Keeps.cut (o := z0) x ?_ ?_; dsimp only [x]; rotate_left; try clear_value x)
         | (intro x; with_reducible refine Keeps.cut1 (o := z0) x ?_ ?_; dsimp only [x]; rotate_left; try clear_value x)
         | (intro x; with_reducible refine Keeps.cutF x ?_; try dsimp only [x])
         | (intro x; try clear_value x)
         | with_reducible apply Keeps.ite
         | with_reducible apply Keeps.ite1
         | with_reducible apply Keeps.sysSwitched
         | with_reducible apply Keeps.clkoutSwitched
         | with_reducible apply Keeps.thaw
         | (fail_if_no_progress dsimp -zeta only)
         | split
         ); done)
    | (repeat' split) <;> first | (intro e; injection e with e; subst e; (repeat' first
         | with_reducible assumption
         | (intro x; with_reducible refine Keeps.cut (o := z0) x ?_ ?_; dsimp only [x]; rotate_left; try clear_value x)
         | (intro x; with_reducible refine Keeps.cut1 (o := z0) x ?_ ?_; dsimp only [x]; rotate_left; try clear_value x)
         | (intro x; with_reducible refine Keeps.cutF x ?_; try dsimp only [x])
         | (intro x; try clear_value x)
         | with_reducible apply Keeps.ite
         | with_reducible apply Keeps.ite1
         | with_reducible apply Keeps.sysSwitched
         | with_reducible apply Keeps.clkoutSwitched
         | with_reducible apply Keeps.thaw
         | (fail_if_no_progress dsimp -zeta only)
         | split
         ))

theorem Keeps.execCrateSent {s z : State} {l : Fin 10} (e : Machine.execCrateSent l s = .next z) : Keeps s z := by
  have hz := Keeps.refl s
  revert e
  unfold Machine.execCrateSent
  first
    | (intro e; injection e with e; subst e; (repeat' first
         | with_reducible assumption
         | with_reducible apply Keeps.crateSent
         ); done)

theorem Keeps.execRemoteRead {s z : State} {stale : Bool} (e : Machine.execRemoteRead stale s = .next z) : Keeps s z := by
  have hz := Keeps.refl s
  revert e
  unfold Machine.execRemoteRead
  first
    | (intro e; injection e with e; subst e; (repeat' first
         | with_reducible assumption
         | with_reducible apply Keeps.remoteRead
         ); done)

theorem Keeps.execRemoteWrite {s z : State} {stale : Bool} (e : Machine.execRemoteWrite stale s = .next z) : Keeps s z := by
  have hz := Keeps.refl s
  revert e
  unfold Machine.execRemoteWrite
  first
    | (intro e; injection e with e; subst e; (repeat' first
         | with_reducible assumption
         | with_reducible apply Keeps.remoteWrite
         ); done)

theorem Keeps.execMgmtWindowTransaction {s z : State} {op : Byte} (e : Machine.execMgmtWindowTransaction op s = .next z) : Keeps s z := by
  have hz := Keeps.refl s
  revert e
  unfold Machine.execMgmtWindowTransaction
  first
    | (intro e; injection e with e; subst e; (repeat' first
         | with_reducible assumption
         | (intro x; with_reducible refine Keeps.cut (o := z0) x ?_ ?_; dsimp only [x]; rotate_left; try clear_value x)
         | (intro x; with_reducible refine Keeps.cut1 (o := z0) x ?_ ?_; dsimp only [x]; rotate_left; try clear_value x)
         | (intro x; with_reducible refine Keeps.cutF x ?_; try dsimp only [x])
         | (intro x; try clear_value x)
         | with_reducible apply Keeps.ite
         | with_reducible apply Keeps.ite1
         | with_reducible apply Keeps.mgmtWrite
         | (fail_if_no_progress dsimp -zeta only)
         | split
         ); done)
    | (repeat' split) <;> first | (intro e; injection e with e; subst e; (repeat' first
         | with_reducible assumption
         | (intro x; with_reducible refine Keeps.cut (o := z0) x ?_ ?_; dsimp only [x]; rotate_left; try clear_value x)
         | (intro x; with_reducible refine Keeps.cut1 (o := z0) x ?_ ?_; dsimp only [x]; rotate_left; try clear_value x)
         | (intro x; with_reducible refine Keeps.cutF x ?_; try dsimp only [x])
         | (intro x; try clear_value x)
         | with_reducible apply Keeps.ite
         | with_reducible apply Keeps.ite1
         | with_reducible apply Keeps.mgmtWrite
         | (fail_if_no_progress dsimp -zeta only)
         | split
         ))

theorem Keeps.execMgmtPageWrite {s z : State} {b : Byte} {v : Byte} {flag : Bool} (e : Machine.execMgmtPageWrite b v flag s = .next z) : Keeps s z := by
  have hz := Keeps.refl s
  revert e
  unfold Machine.execMgmtPageWrite
  first
    | (intro e; injection e with e; subst e; (repeat' first
         | with_reducible assumption
         | (intro x; with_reducible refine Keeps.cut (o := z0) x ?_ ?_; dsimp only [x]; rotate_left; try clear_value x)
         | (intro x; with_reducible refine Keeps.cut1 (o := z0) x ?_ ?_; dsimp only [x]; rotate_left; try clear_value x)
         | (intro x; with_reducible refine Keeps.cutF x ?_; try dsimp only [x])
         | (intro x; try clear_value x)
         | with_reducible apply Keeps.flag
         | with_reducible apply Keeps.mgmtWrite
         | (fail_if_no_progress dsimp -zeta only)
         | split
         ); done)

theorem Keeps.execHatchBusRead {s z : State} {a : Word} (e : Machine.execHatchBusRead a s = .next z) : Keeps s z := by
  have hz := Keeps.refl s
  revert e
  unfold Machine.execHatchBusRead
  first
    | (intro e; injection e with e; subst e; (repeat' first
         | with_reducible assumption
         | (intro x; try clear_value x)
         | with_reducible apply Keeps.hatchRun
         | with_reducible apply Keeps.hatchRead
         ); done)

theorem Keeps.execHatchBusWrite {s z : State} {a : Word} {w : Word} (e : Machine.execHatchBusWrite a w s = .next z) : Keeps s z := by
  have hz := Keeps.refl s
  revert e
  unfold Machine.execHatchBusWrite
  first
    | (intro e; injection e with e; subst e; (repeat' first
         | with_reducible assumption
         | (intro x; try clear_value x)
         | with_reducible apply Keeps.hatchRun
         | with_reducible apply Keeps.hatchWrite
         ); done)

end Sys2Proof.Machine
end

