-- ==== Sys2Proof/Laws/KeepIsaStep.lean ====
section
/-! SUPPORT. What the operations of IsaStep.lean keep. -/

set_option linter.all false

namespace Sys2Proof.Machine

theorem Keeps.runA {z0 s : State} {c : Nat} {fn : Nat} {rd : Nat} {rs1 : Nat} {rs2 : Nat} {word : Word} (hz : Keeps z0 s)  : Keeps z0 (Machine.runA c fn rd rs1 rs2 word s) := by
  unfold Machine.runA
  repeat' first
    | with_reducible assumption
    | with_reducible apply Keeps.illegal
    | with_reducible apply Keeps.opA
    | with_reducible apply Keeps.opDiv
    | (fail_if_no_progress dsimp -zeta only)
    | split

theorem Keeps.runS {z0 s : State} {c : Nat} {sub : Nat} {rd : Nat} {rs1 : Nat} {imm : BitVec 12} {pins : Nat} {word : Word} (hz : Keeps z0 s)  : Keeps z0 (Machine.runS c sub rd rs1 imm pins word s) := by
  unfold Machine.runS
  repeat' first
    | with_reducible assumption
    | with_reducible apply Keeps.trap
    | with_reducible apply Keeps.illegal
    | with_reducible apply Keeps.opCsrrw
    | with_reducible apply Keeps.opCsrrd
    | with_reducible apply Keeps.opCsrrm
    | with_reducible apply Keeps.opWait
    | with_reducible apply Keeps.opFence
    | with_reducible apply Keeps.opEvwait
    | with_reducible apply Keeps.opQpoint
    | with_reducible apply Keeps.opTrap
    | with_reducible apply Keeps.opRett
    | (fail_if_no_progress dsimp -zeta only)
    | split

theorem Keeps.runV {z0 s : State} {c : Nat} {fn : Nat} {xd : Nat} {xa : Nat} {xb : Nat} {sel : Nat} {word : Word} (hz : Keeps z0 s)  : Keeps z0 (Machine.runV c fn xd xa xb sel word s) := by
  unfold Machine.runV
  repeat' first
    | with_reducible assumption
    | with_reducible apply Keeps.illegal
    | with_reducible apply Keeps.opVec
    | with_reducible apply Keeps.opVabs
    | with_reducible apply Keeps.opVshift
    | with_reducible apply Keeps.opVsplat
    | with_reducible apply Keeps.opVext
    | with_reducible apply Keeps.opVins
    | with_reducible apply Keeps.opVsum
    | with_reducible apply Keeps.opVclamp
    | with_reducible apply Keeps.opVld
    | with_reducible apply Keeps.opVst
    | (fail_if_no_progress dsimp -zeta only)
    | split

theorem Keeps.runC {z0 s : State} {c : Nat} {fn : Nat} {xd : Nat} {xa : Nat} {xb : Nat} {sel : Nat} {word : Word} (hz : Keeps z0 s)  : Keeps z0 (Machine.runC c fn xd xa xb sel word s) := by
  unfold Machine.runC
  repeat' first
    | with_reducible assumption
    | with_reducible apply Keeps.illegal
    | with_reducible apply Keeps.opCadd
    | with_reducible apply Keeps.opCsub
    | with_reducible apply Keeps.opCmul
    | with_reducible apply Keeps.opCmulj
    | with_reducible apply Keeps.opCmac
    | with_reducible apply Keeps.opConj
    | with_reducible apply Keeps.opCmag2
    | with_reducible apply Keeps.opCscale
    | with_reducible apply Keeps.opCshr
    | with_reducible apply Keeps.opCpack
    | (fail_if_no_progress dsimp -zeta only)
    | split

theorem Keeps.runK {z0 s : State} {c : Nat} {fn : Nat} {xd : Nat} {xa : Nat} {xb : Nat} {sel : Nat} {word : Word} (hz : Keeps z0 s)  : Keeps z0 (Machine.runK c fn xd xa xb sel word s) := by
  unfold Machine.runK
  repeat' first
    | with_reducible assumption
    | (intro x; try clear_value x)
    | with_reducible apply Keeps.illegal
    | with_reducible apply Keeps.opKcall
    | with_reducible apply Keeps.opK
    | with_reducible apply Keeps.karm
    | with_reducible apply Keeps.kdisarm
    | with_reducible apply Keeps.kzero
    | (fail_if_no_progress dsimp -zeta only)
    | split

theorem Keeps.runM {z0 s : State} {c : Nat} {op : Nat} {rt : Nat} {rb : Nat} {sz : Nat} {sx : Bool} {off : BitVec 13} {word : Word} (hz : Keeps z0 s)  : Keeps z0 (Machine.runM c op rt rb sz sx off word s) := by
  unfold Machine.runM
  repeat' first
    | with_reducible assumption
    | with_reducible apply Keeps.illegal
    | with_reducible apply Keeps.opLoad
    | with_reducible apply Keeps.opStore
    | with_reducible apply Keeps.opXchg
    | (fail_if_no_progress dsimp -zeta only)
    | split

theorem Keeps.runWord {z0 s : State} {c : Nat} {word : Word} {pins : Nat} (hz : Keeps z0 s)  : Keeps z0 (Machine.runWord c word pins s) := by
  unfold Machine.runWord
  repeat' first
    | with_reducible assumption
    | (intro x; with_reducible refine Keeps.cutF x ?_; try dsimp only [x])
    | with_reducible apply Keeps.ite
    | with_reducible apply Keeps.ite1
    | with_reducible apply Keeps.illegal
    | with_reducible apply Keeps.alu
    | with_reducible apply Keeps.opI
    | with_reducible apply Keeps.opShift
    | with_reducible apply Keeps.opB
    | with_reducible apply Keeps.opLink
    | with_reducible apply Keeps.opJalr
    | with_reducible apply Keeps.runA
    | with_reducible apply Keeps.runS
    | with_reducible apply Keeps.runV
    | with_reducible apply Keeps.runC
    | with_reducible apply Keeps.runK
    | with_reducible apply Keeps.runM
    | (fail_if_no_progress dsimp -zeta only)
    | split
    | lift_lets

theorem Keeps.scSecrets {z0 s : State} {c : Nat} (hz : Keeps z0 s)  : Keeps z0 (Machine.scSecrets c s) := by
  unfold Machine.scSecrets
  repeat' first
    | with_reducible assumption
    | with_reducible apply Keeps.ite
    | with_reducible apply Keeps.ite1
    | with_reducible apply Keeps.zeroise

theorem Keeps.hatchHalt {z0 s : State} {c : Nat} (hz : Keeps z0 s)  : Keeps z0 (Machine.hatchHalt c s) := by
  unfold Machine.hatchHalt
  try lift_lets
  repeat' first
    | (refine fun (k : Cpu) (hk : CpuOk k) => (?_ : CpuOk _); first | exact hk | (simp only [CpuOk, upd_length] at *; simpa using hk) | (split <;> first | exact hk | (simp only [CpuOk, upd_length] at *; simpa using hk)))
    | exact CelKeeps.refl _
    | exact ⟨fun _ h => h, Nat.le_refl _⟩
    | exact ⟨fun _ h => h, Nat.le_succ _⟩
    | with_reducible assumption
    | (intro x; with_reducible refine Keeps.cut (o := z0) x ?_ ?_; dsimp only [x]; rotate_left; try clear_value x)
    | (intro x; try clear_value x)
    | with_reducible apply Keeps.ite
    | with_reducible apply Keeps.ite1
    | with_reducible apply Keeps.coreHalted
    | with_reducible apply Keeps.scSecrets
    | with_reducible apply Keeps.ret
    | with_reducible apply Keeps.updCpu
    | ((first | rw [patch_eq] | skip); (with_reducible refine Keeps.patch ?_ ?_ ?_); rotate_left; (first | exact CelKeeps.refl _ | exact ⟨fun _ h => h, Nat.le_refl _⟩ | exact ⟨fun _ h => h, Nat.le_succ _⟩); (refine fun g => ?_; first | exact g | simpa only [SizesOk, Machine.patch, upd_length] using g | (simp only [SizesOk, Machine.patch, upd_length, List.length_map, List.length_replicate, true_and] at g ⊢; tauto)))

theorem Keeps.hatchResume {z0 s : State} {c : Nat} (hz : Keeps z0 s)  : Keeps z0 (Machine.hatchResume c s) := by
  unfold Machine.hatchResume
  repeat' first
    | with_reducible assumption
    | with_reducible apply Keeps.ite
    | with_reducible apply Keeps.ite1
    | with_reducible apply Keeps.set
    | with_reducible apply Keeps.ret

theorem Keeps.hatchStep {z0 s : State} {c : Nat} {pins : Nat} (hz : Keeps z0 s)  : Keeps z0 (Machine.hatchStep c pins s) := by
  unfold Machine.hatchStep
  try lift_lets
  repeat' first
    | (refine fun (k : Cpu) (hk : CpuOk k) => (?_ : CpuOk _); first | exact hk | (simp only [CpuOk, upd_length] at *; simpa using hk) | (split <;> first | exact hk | (simp only [CpuOk, upd_length] at *; simpa using hk)))
    | exact CelKeeps.refl _
    | exact ⟨fun _ h => h, Nat.le_refl _⟩
    | exact ⟨fun _ h => h, Nat.le_succ _⟩
    | with_reducible assumption
    | (intro x; with_reducible refine Keeps.cut (o := z0) x ?_ ?_; dsimp only [x]; rotate_left; try clear_value x)
    | (intro x; with_reducible refine Keeps.cut1 (o := z0) x ?_ ?_; dsimp only [x]; rotate_left; try clear_value x)
    | with_reducible apply Keeps.ite2
    | (intro x; try clear_value x)
    | with_reducible apply Keeps.ite
    | with_reducible apply Keeps.ite1
    | with_reducible apply Keeps.fetch
    | with_reducible apply Keeps.fetchTrap
    | with_reducible apply Keeps.runWord
    | with_reducible apply Keeps.ret
    | with_reducible apply Keeps.updCpu
    | ((first | rw [patch_eq] | skip); (with_reducible refine Keeps.patch ?_ ?_ ?_); rotate_left; (first | exact CelKeeps.refl _ | exact ⟨fun _ h => h, Nat.le_refl _⟩ | exact ⟨fun _ h => h, Nat.le_succ _⟩); (refine fun g => ?_; first | exact g | simpa only [SizesOk, Machine.patch, upd_length] using g | (simp only [SizesOk, Machine.patch, upd_length, List.length_map, List.length_replicate, true_and] at g ⊢; tauto)))

theorem Keeps.hregRead {z0 s : State} {c : Nat} {r : HReg} (hz : Keeps z0 s)  : Keeps z0 (Machine.hregRead c r s) := by
  unfold Machine.hregRead
  repeat' first
    | with_reducible assumption
    | with_reducible apply Keeps.ite2
    | with_reducible apply Keeps.ite
    | with_reducible apply Keeps.ite1
    | with_reducible apply Keeps.csrRead
    | with_reducible apply Keeps.ret
    | with_reducible apply Keeps.retData
    | (fail_if_no_progress dsimp -zeta only)
    | split

theorem Keeps.hregWrite {z0 s : State} {c : Nat} {r : HReg} {v : List Word} (hz : Keeps z0 s)  : Keeps z0 (Machine.hregWrite c r v s) := by
  unfold Machine.hregWrite
  repeat' first
    | (refine fun (k : Cpu) (hk : CpuOk k) => (?_ : CpuOk _); first | exact hk | (simp only [CpuOk, upd_length] at *; simpa using hk) | (split <;> first | exact hk | (simp only [CpuOk, upd_length] at *; simpa using hk)))
    | exact CelKeeps.refl _
    | exact ⟨fun _ h => h, Nat.le_refl _⟩
    | exact ⟨fun _ h => h, Nat.le_succ _⟩
    | with_reducible assumption
    | with_reducible apply Keeps.ite
    | with_reducible apply Keeps.ite1
    | with_reducible apply Keeps.setW
    | with_reducible apply Keeps.setV
    | with_reducible apply Keeps.csrWrite
    | with_reducible apply Keeps.ret
    | with_reducible apply Keeps.updCpu
    | (fail_if_no_progress dsimp -zeta only)
    | split

theorem Keeps.hatchReg {z0 s : State} {c : Nat} {r : HReg} {v : Option (List Word)} (hz : Keeps z0 s)  : Keeps z0 (Machine.hatchReg c r v s) := by
  unfold Machine.hatchReg
  repeat' first
    | with_reducible assumption
    | with_reducible apply Keeps.ite
    | with_reducible apply Keeps.ite1
    | with_reducible apply Keeps.scSecrets
    | with_reducible apply Keeps.hregRead
    | with_reducible apply Keeps.hregWrite
    | with_reducible apply Keeps.ret
    | (fail_if_no_progress dsimp -zeta only)
    | split

theorem Keeps.execHatchCoreHalt {s z : State} {c : Fin 13} (e : Machine.execHatchCoreHalt c s = .next z) : Keeps s z := by
  have hz := Keeps.refl s
  revert e
  unfold Machine.execHatchCoreHalt
  first
    | (intro e; injection e with e; subst e; (repeat' first
         | with_reducible assumption
         | (intro x; try clear_value x)
         | with_reducible apply Keeps.hatchRun
         | with_reducible apply Keeps.hatchHalt
         ); done)

theorem Keeps.execHatchCoreResume {s z : State} {c : Fin 13} (e : Machine.execHatchCoreResume c s = .next z) : Keeps s z := by
  have hz := Keeps.refl s
  revert e
  unfold Machine.execHatchCoreResume
  first
    | (intro e; injection e with e; subst e; (repeat' first
         | with_reducible assumption
         | (intro x; try clear_value x)
         | with_reducible apply Keeps.hatchRun
         | with_reducible apply Keeps.hatchResume
         ); done)

theorem Keeps.execHatchCoreStep {s z : State} {c : Fin 13} {pins : BitVec 11} (e : Machine.execHatchCoreStep c pins s = .next z) : Keeps s z := by
  have hz := Keeps.refl s
  revert e
  unfold Machine.execHatchCoreStep
  first
    | (intro e; injection e with e; subst e; (repeat' first
         | with_reducible assumption
         | (intro x; with_reducible refine Keeps.cut (o := z0) x ?_ ?_; dsimp only [x]; rotate_left; try clear_value x)
         | (intro x; with_reducible refine Keeps.cut1 (o := z0) x ?_ ?_; dsimp only [x]; rotate_left; try clear_value x)
         | (intro x; with_reducible refine Keeps.cutF x ?_; try dsimp only [x])
         | (intro x; try clear_value x)
         | with_reducible apply Keeps.hatchRun
         | with_reducible apply Keeps.hatchStep
         | (fail_if_no_progress dsimp -zeta only)
         | split
         ); done)

theorem Keeps.execHatchCoreRegAccess {s z : State} {c : Fin 13} {r : HReg} {v : Option (List Word)} (e : Machine.execHatchCoreRegAccess c r v s = .next z) : Keeps s z := by
  have hz := Keeps.refl s
  revert e
  unfold Machine.execHatchCoreRegAccess
  first
    | (intro e; injection e with e; subst e; (repeat' first
         | with_reducible assumption
         | (intro x; try clear_value x)
         | with_reducible apply Keeps.hatchRun
         | with_reducible apply Keeps.hatchReg
         ); done)

end Sys2Proof.Machine
end

