-- ==== Sys2Proof/WellFormed.lean ====
section
/-! DEFINITION. Which commands are well formed: operands that a type leaves too wide keep to the sizes that the spec gives. -/

namespace Sys2Proof

/-- A requester that the part has: cores 0 to 13 (R278), 12-bit fabric addresses (R2), 32 DMA channels (R349). -/
def Rq.wf : Rq → Bool
  | .core c _ => decide (c < 14)
  | .fabric a => decide (a < 4096)
  | .dma ch => decide (ch < 32)
  | .host | .partner | .hatch | .loader | .larder | .engine => true

/-- A well-formed command: 32-bit addresses (R547), 65 slices (R41), blocks of 4,096 symbols (R69), 5,440-bit
codewords (R147), the soft bits of a PBCH frame (R235), at most 128 outputs of the converter (R430), 720 resource elements (R237), 16 SPI words, slots of the arbiter
(R347), 512-byte blocks (R361), 256 NOR bytes (R363), eight die sensors (R422), a mailbox of 4 KiB, hashes of 32 bytes
(R464), crates of at most 523 bytes with their CRC, what the nine bits of len allow (R473), eight lanes and sixteen tenants (R498). -/
def Instr.wf : Instr → Bool
  | .registerWrite q a _ => q.wf && decide (a < 2 ^ 32)
  | .mappingChange q _ _ => q.wf
  | .laneUp q _ _ => q.wf
  | .laneDown q _ _ => q.wf
  | .rampTick => true
  | .rxEnOn q _ _ => q.wf
  | .fgCalDone _ est failed => decide (est.length = 65) && failed.all fun k => decide (k < 65)
  | .rxEnOff q _ _ => q.wf
  | .rotationResume _ => true
  | .sparePhaseEnd _ _ _ => true
  | .skewPhaseEnd _ _ => true
  | .slotHandover _ _ => true
  | .hold q _ _ => q.wf
  | .calResume q _ _ => q.wf
  | .recal q _ _ => q.wf
  | .releaseSlice q _ _ => q.wf
  | .swingWrite q _ _ => q.wf
  | .firCommit q _ _ => q.wf
  | .pdSwap q _ _ => q.wf
  | .txCommitApply _ => true
  | .blockBoundary _ codes look => decide (codes.length = 4096) && decide (look.length = 63)
  | .monitorWindowEnd _ => true
  | .detEnable q _ _ => q.wf
  | .detDisable q _ _ => q.wf
  | .detAcquire q _ => q.wf
  | .detDetect q _ => q.wf
  | .detLock q _ => q.wf
  | .detDrop q _ => q.wf
  | .lmsAccum q _ _ => q.wf
  | .lmsAccumDone _ _ => true
  | .lmsApply q _ _ _ => q.wf
  | .eqTapWrite q _ _ _ => q.wf
  | .levelSwap q _ => q.wf
  | .histRun q _ _ => q.wf
  | .histDone _ => true
  | .rxFrame _ _ => true
  | .puncturePhaseAdvance _ => true
  | .rsCodewordDecode _ _ _ => true
  | .txFrameStart host => decide (host.length = 8)
  | .containerBlockIn _ _ => true
  | .rxCell _ => true
  | .playoutTick _ _ => true
  | .containerWrite q _ _ _ _ => q.wf
  | .txEnable q _ => q.wf
  | .txSquelch q _ => q.wf
  | .squelchStep _ => true
  | .fecWindowEnd _ => true
  | .frmCounterSnap q _ => q.wf
  | .hostModeWrite q _ _ => q.wf
  | .hostStart q _ => q.wf
  | .hostRetrain q _ => q.wf
  | .hostStop q _ => q.wf
  | .hostResync q _ => q.wf
  | .hostLockAcquired _ _ => true
  | .hostAcquireTimeout _ => true
  | .trainingFrameRx _ _ _ _ _ => true
  | .trainTimeout _ => true
  | .trainAutoReady _ => true
  | .hostTrainReqWrite q _ _ => q.wf
  | .hostTxFirWrite q _ _ _ => q.wf
  | .hostTxFirApply _ => true
  | .hostGroupAlign _ _ ids _ => decide (ids.length ≤ 16)
  | .hostLaneLost _ _ => true
  | .hostSyncEdge => true
  | .hostSysrefArm q _ _ => q.wf
  | .jesdRelease _ got _ _ => decide (got.length ≤ 8)
  | .sysrefTimeout _ => true
  | .patternGenEnable q _ _ => q.wf
  | .patternInject q _ _ => q.wf
  | .checkerLock _ => true
  | .checkerUnlock _ _ _ => true
  | .patternSnap q _ _ _ _ => q.wf
  | .hostCodewordDecode _ _ rx => decide (rx.length ≤ 4) && rx.all fun v => decide (v < 2 ^ 10880)
  | .hostFecSnap q _ => q.wf
  | .portEnable q _ _ _ => q.wf
  | .portDisable q _ _ _ => q.wf
  | .admitPath q _ => q.wf
  | .release q _ => q.wf
  | .releaseRampEnd _ => true
  | .queuePass _ => true
  | .admFloorWrite q _ _ => q.wf
  | .pathGainWrite q _ _ => q.wf
  | .filterCommit q _ _ => q.wf
  | .xfadeEnd _ => true
  | .cancellerSwap q _ => q.wf
  | .meterWindowEnd _ => true
  | .bandSyncEdge _ _ => true
  | .bandSyncGlitch => true
  | .bandSyncArm q _ => q.wf
  | .syncRestart => true
  | .syncStuck => true
  | .syncCmd q _ => q.wf
  | .measRun q _ => q.wf
  | .measEnd => true
  | .bndSyncStatRead q => q.wf
  | .bndPathSatRead q _ => q.wf
  | .bndTimeLRead q => q.wf
  | .repeaterTick => true
  | .isoAppStep _ => true
  | .creditStep _ => true
  | .rptArm q _ => q.wf
  | .rptMute q _ => q.wf
  | .rptOff q _ => q.wf
  | .rptClear q _ => q.wf
  | .armingEnd _ => true
  | .mutingEnd _ => true
  | .autoRearm _ => true
  | .oscWindowEnd _ => true
  | .oscHoldExpire _ => true
  | .ceilWindowEnd _ => true
  | .clDecayStep _ => true
  | .ceilHoldExpire _ => true
  | .nrEvaluate _ => true
  | .nrRelax _ => true
  | .donorHoldExpire _ => true
  | .muteNAssert => true
  | .muteNDeassert => true
  | .muteNGlitch => true
  | .muteNStuck => true
  | .rptMuteCntRead q => q.wf
  | .rptCeilWrite q _ => q.wf
  | .lstStart q _ => q.wf
  | .lstStop q _ => q.wf
  | .lstRestart q _ => q.wf
  | .agcWindowEnd _ => true
  | .syncDetect _ => true
  | .sssEvaluate _ => true
  | .pbchDecode _ soft => [480, 432].contains soft.length
  | .watchPeak _ _ => true
  | .candidateExpire _ => true
  | .nrbufRelease q _ => q.wf
  | .presenceExpire _ => true
  | .timingStale _ => true
  | .tddPatternWrite q _ _ => q.wf
  | .tddPatternActivate _ => true
  | .nfPublish _ => true
  | .nfExpire _ => true
  | .lstChCntRead q _ => q.wf
  | .lstRxTimeLRead q _ => q.wf
  | .seqStandby q _ => q.wf
  | .seqRx q _ => q.wf
  | .seqTx q _ _ => q.wf
  | .seqSettle q _ => q.wf
  | .seqCal q _ => q.wf
  | .seqOff q _ => q.wf
  | .seqTxDurExpire _ => true
  | .feLockQualify _ _ => true
  | .feLockFall _ => true
  | .heldTxEnter _ => true
  | .txHoldExpire _ => true
  | .settleDone _ => true
  | .settleTimeout _ => true
  | .calPassEnd _ => true
  | .burstTxEnter _ _ => true
  | .burstRxEnter _ _ => true
  | .burstLeave _ => true
  | .tddGateEdge _ _ => true
  | .spiGo q _ => q.wf
  | .spiTransferEnd _ rx => decide (rx.length ≤ 16)
  | .rfcOwnWrite q _ _ => q.wf
  | .coexCtrlWrite q _ => q.wf
  | .coexReqAssert _ => true
  | .coexGrantAssert => true
  | .coexGrantDeassert => true
  | .coexGrantGlitch => true
  | .coexGrantStuck => true
  | .fenCoexCntRead q => q.wf
  | .fenSeqCntRead q _ => q.wf
  | .add _ _ _ _ => true
  | .sub _ _ _ _ => true
  | .and _ _ _ _ => true
  | .or _ _ _ _ => true
  | .xor _ _ _ _ => true
  | .nor _ _ _ _ => true
  | .sll _ _ _ _ => true
  | .srl _ _ _ _ => true
  | .sra _ _ _ _ => true
  | .slt _ _ _ _ => true
  | .sltu _ _ _ _ => true
  | .mul _ _ _ _ => true
  | .mulh _ _ _ _ => true
  | .mulhu _ _ _ _ => true
  | .div _ _ _ _ => true
  | .divu _ _ _ _ => true
  | .rem _ _ _ _ => true
  | .remu _ _ _ _ => true
  | .addi _ _ _ _ => true
  | .andi _ _ _ _ => true
  | .ori _ _ _ _ => true
  | .xori _ _ _ _ => true
  | .slti _ _ _ _ => true
  | .sltiu _ _ _ _ => true
  | .slli _ _ _ _ => true
  | .srli _ _ _ _ => true
  | .srai _ _ _ _ => true
  | .jalr _ _ _ _ => true
  | .lui _ _ _ => true
  | .auipc _ _ _ => true
  | .jal _ _ _ => true
  | .lb _ _ _ _ => true
  | .lbu _ _ _ _ => true
  | .lh _ _ _ _ => true
  | .lhu _ _ _ _ => true
  | .lw _ _ _ _ => true
  | .sb _ _ _ _ _ => true
  | .sh _ _ _ _ _ => true
  | .sw _ _ _ _ _ => true
  | .xchg _ _ _ _ _ => true
  | .beq _ _ _ _ => true
  | .bne _ _ _ _ => true
  | .blt _ _ _ _ => true
  | .bge _ _ _ _ => true
  | .bltu _ _ _ _ => true
  | .bgeu _ _ _ _ => true
  | .csrrw _ _ _ _ => true
  | .csrrd _ _ _ _ => true
  | .csrrm _ _ _ _ => true
  | .wait _ _ _ _ _ => true
  | .waitWake _ => true
  | .fence _ _ _ _ => true
  | .evwait _ _ _ _ => true
  | .evwaitEvent _ => true
  | .evwaitTimeout _ => true
  | .qpoint _ _ _ _ => true
  | .shelfSwap _ => true
  | .trap _ _ _ _ => true
  | .brk _ => true
  | .rett _ _ _ _ => true
  | .eventTrap _ => true
  | .nmiTrap => true
  | .storeCompletion _ _ => true
  | .storeErrTrap _ => true
  | .staleReply q a => q.wf && decide (a < 2 ^ 32)
  | .vadd _ _ _ _ _ => true
  | .vsub _ _ _ _ _ => true
  | .vmul _ _ _ _ _ => true
  | .vmulq _ _ _ _ _ => true
  | .vmac _ _ _ _ _ => true
  | .vmin _ _ _ _ _ => true
  | .vmax _ _ _ _ _ => true
  | .vabs _ _ _ _ _ => true
  | .vshr _ _ _ _ _ => true
  | .vshl _ _ _ _ _ => true
  | .vsplat _ _ _ _ _ => true
  | .vext _ _ _ _ _ => true
  | .vins _ _ _ _ _ => true
  | .vsum _ _ _ _ _ => true
  | .vclamp _ _ _ _ _ => true
  | .vld _ _ _ _ _ => true
  | .vst _ _ _ _ _ => true
  | .cadd _ _ _ _ _ => true
  | .csub _ _ _ _ _ => true
  | .cmul _ _ _ _ _ => true
  | .cmulj _ _ _ _ _ => true
  | .cmac _ _ _ _ _ => true
  | .conj _ _ _ _ _ => true
  | .cmag2 _ _ _ _ _ => true
  | .cscale _ _ _ _ _ => true
  | .cshr _ _ _ _ _ => true
  | .cpack _ _ _ _ _ => true
  | .kcall _ _ _ _ _ => true
  | .karm _ _ _ _ _ => true
  | .kdisarm _ _ _ _ _ => true
  | .kzero _ _ _ _ _ _ => true
  | .coreBootShelfSet q _ _ => q.wf
  | .coreStart q _ _ => q.wf
  | .coreHalt q _ _ => q.wf
  | .coreHaltDone _ => true
  | .coreResume q _ _ => q.wf
  | .coreReset q _ _ => q.wf
  | .loaderLoad q _ => q.wf
  | .loadComplete => true
  | .shelfWrite q _ _ _ bytes => q.wf && [1, 2, 4, 8, 32].contains bytes.length
  | .softwareEventRaise q _ => q.wf
  | .lockstepMismatch => true
  | .wdogKick q _ => q.wf
  | .wdogExpire => true
  | .wdogReset => true
  | .cntOverflow _ _ => true
  | .pmcOverflow _ => true
  | .pmcCntLRead q _ => q.wf
  | .mergeRetire _ _ => true
  | .memoryFillDone => true
  | .scrubRead _ => true
  | .memCorrRead q => q.wf
  | .arbGrant _ waiting => waiting.all fun e => decide (e.1 < 7)
  | .targetTimeout q a => q.wf && decide (a < 2 ^ 32)
  | .dmaStart q _ => q.wf
  | .dmaStop q _ => q.wf
  | .dmaResume q _ => q.wf
  | .descriptorFetch _ => true
  | .dmaBurst _ => true
  | .dmaRequestLine _ => true
  | .descriptorRetire _ => true
  | .dmaReadError _ _ _ => true
  | .dmaPostedError _ _ => true
  | .dmaLastBeatError _ _ => true
  | .dmaWithdraw _ _ => true
  | .stoRaw q _ => q.wf
  | .stoRead q => q.wf
  | .stoWrite q _ => q.wf
  | .stoTrim q => q.wf
  | .stoFlush q => q.wf
  | .stoStop q => q.wf
  | .stoBlockEnd ok data => !ok || decide (data.length ≤ 512)
  | .stoCommandEnd _ resp => decide (resp.length ≤ 4)
  | .stoResponseTimeout => true
  | .norGo q _ => q.wf
  | .norTransactionEnd data changed => decide (data.length ≤ 256) && changed.all fun e => decide (e.1 < 2 ^ 32)
  | .pllEnable q _ => q.wf
  | .pllDisable q _ => q.wf
  | .pllLock _ => true
  | .pllUnlock _ => true
  | .bpllTrimWrite q _ => q.wf
  | .foscReady => true
  | .foscCheck _ => true
  | .aoscDisciplineEnd _ => true
  | .aonTimeHWrite q _ => q.wf
  | .aonTimeLoad q _ => q.wf
  | .aonTimeLRead q => q.wf
  | .refmonWindowEnd _ => true
  | .sysSrcSelect q _ => q.wf
  | .clockSwitchDone _ _ => true
  | .nofoscTimeout => true
  | .clkoutWrite q _ => q.wf
  | .clockGateIdle _ => true
  | .powerOnReset => true
  | .powerOnResetRelease => true
  | .aonPowerOnReset => true
  | .resetNAssert => true
  | .resetNRelease => true
  | .commandReset q _ => q.wf
  | .wideResetRelease => true
  | .rstCauseWrite q _ => q.wf
  | .blkRstSet q _ => q.wf
  | .blkRstClear q _ => q.wf
  | .blockRelease _ => true
  | .atticLoadDone => true
  | .scRelease => true
  | .stopEntry _ => true
  | .wakeSourceQualified _ => true
  | .wakeResume temps => decide (temps.length = 8)
  | .avsRequest q _ => q.wf
  | .avsResponse _ _ _ => true
  | .avsAttemptTimeout => true
  | .thermalDemand q _ => q.wf
  | .thermalTimerExpire => true
  | .thermalMeasurementEnd temps => decide (temps.length = 8)
  | .shutdownStop => true
  | .thresholdWrite q _ _ => q.wf
  | .hkcScanRun q _ => q.wf
  | .hkcEntryEnd outs _ => decide (outs.length ≤ 128)
  | .hkdEnable q _ _ => q.wf
  | .hkdDisable q _ _ => q.wf
  | .hkdConnect _ => true
  | .hkdUpdate => true
  | .hkdValueWrite q _ _ => q.wf
  | .hkdStatRead q _ => q.wf
  | .guardLimitWrite q _ _ => q.wf
  | .hkdMonitorTrip _ => true
  | .txDisableAssert => true
  | .txDisableDeassert => true
  | .tripClear q _ => q.wf
  | .grdStatRead q => q.wf
  | .ownClaim q _ => q.wf
  | .leaseRenew q => q.wf
  | .leaseLapse => true
  | .ownHandover q _ => q.wf
  | .ownAccept q _ => q.wf
  | .handoverTimeout => true
  | .mgmtWindowTransaction _ => true
  | .mgmtPageWrite _ _ _ => true
  | .i3cSetdasa _ => true
  | .i3cEntdaa _ => true
  | .i3cRstdaa => true
  | .i3cEnec => true
  | .i3cDisec => true
  | .i3cGetpid => true
  | .i3cGetbcr => true
  | .i3cGetdcr => true
  | .i3cGetstatus => true
  | .i3cGetmwl => true
  | .i3cGetmrl => true
  | .hatchIdcode => true
  | .hatchSamplePreload => true
  | .hatchExtest => true
  | .hatchBypass _ => true
  | .hatchChal => true
  | .hatchMbox ws => decide (ws.length ≤ 1024)
  | .hatchVerify => true
  | .hatchPassword => true
  | .hatchClose op => decide (op ≠ 1) && decide (op ≠ 2)
  | .hatchBusRead _ => true
  | .hatchBusWrite _ _ => true
  | .hatchCoreHalt _ => true
  | .hatchCoreResume _ => true
  | .hatchCoreStep _ _ => true
  | .hatchCoreRegAccess _ _ v => (match v with | some l => decide (1 ≤ l.length) && decide (l.length ≤ 8) | none => true)
  | .hatchTapReset => true
  | .keyload q _ => q.wf
  | .keyLoadDone => true
  | .fuseEnrol q _ => q.wf
  | .fuseRevoke q _ => q.wf
  | .fuseDone _ part _ => decide (part.length = 32)
  | .attest q => q.wf
  | .sign q => q.wf
  | .signingDone => true
  | .secretWindowWrite q _ _ => q.wf
  | .helloTimer => true
  | .helloRx _ c => decide (c.length ≤ 523)
  | .linkDeadTimeout _ => true
  | .linkPhyChange _ _ => true
  | .crateRxUnicast _ c _ => decide (c.length ≤ 523)
  | .crateRxBroadcast _ c _ => decide (c.length ≤ 523)
  | .crateSent _ => true
  | .crateSend q _ _ => q.wf
  | .remoteRead _ => true
  | .remoteWrite _ => true
  | .rraRead q _ => q.wf
  | .rraWrite q _ => q.wf
  | .rreplyRx _ c => decide (c.length ≤ 523)
  | .rraTimeout => true
  | .snkAddrWrite q _ => q.wf
  | .snkDiscRead q => q.wf
  | .snkDropRead q _ => q.wf
  | .pairEnable q _ => q.wf
  | .pairDisable q _ => q.wf
  | .heartbeatTimer => true
  | .heartbeatRx _ c => decide (c.length ≤ 523)
  | .partnerLost => true
  | .pairPathLoss _ => true
  | .pairSwitch q => q.wf
  | .yieldTimeout => true
  | .soloTimeout => true
  | .cellarPowerOn => true
  | .cellarPowerLoss _ => true
  | .cellarStartDone => true
  | .cellarSeal _ eth scale _ _ _ => decide (eth.length = 8) && decide (scale.length = 16)
  | .cellarCommit _ => true
  | .cellarSupplyFall _ => true
  | .cellarRecord => true
  | .cellarRecordComplete => true
  | .celRecLineExpire => true
  | .cellarTamperChange _ _ => true
  | .cellarWindowWrite q _ _ => q.wf
  | .memSliceStart _ => true
  | .memSliceEnd _ _ => true
  | .repairRestore q _ _ _ => q.wf
  | .testRow q _ _ => q.wf
  | .logicSliceRequest q _ _ => q.wf
  | .logicSliceStart => true
  | .logicSliceEnd _ => true
  | .logicSliceTimeout => true
  | .aoscReady => true
  | .droopComparatorTrip => true
  | .vddioReachingThreshold => true

end Sys2Proof
end

