-- ==== Sys2Proof/Tests/Slice0.lean ====
section
/-! SUPPORT. The model's own tests: ill-formed commands that WellFormed refuses, a state and operands that meet the hypotheses of
each statement, and one or two fields after a step, worked out from the spec by hand. -/

open Sys2Proof Sys2Proof.Machine

namespace Sys2Proof.Tests

set_option Elab.async false

/-- The reset state with some fields at other values. -/
def st (l : List (Fd × Nat)) : State := l.foldl (fun s f => s.set f.1 f.2) State.reset

/-- Core 0 runs at its shelf's start. -/
def run0 : State := { st [(OWN_CORE_STAT_state 0, 1)] with cores := upd State.reset.cores 0 fun k => { k with pc := 0x7F000000 } }

/-- A radio core runs. -/
def run8 : State := { st [(OWN_CORE_STAT_state 8, 1)] with cores := upd State.reset.cores 8 fun k => { k with pc := 0x7F000000 } }

/-- SC runs, after its release. -/
def run12 : State :=
  { st [(OWN_CORE_STAT_state 12, 1)] with
      rst := { State.reset.rst with released := true, wide := false }
      cores := upd State.reset.cores 12 fun k => { k with pc := 0x7F000000 } }

/-- The fabric ports carry code groups, and their links are enabled. -/
def fabUp (l : List (Fd × Nat)) : State :=
  { st ((SNK_LINK_EN_en, 0x3FF) :: (SNK_ADDR_addr, 7) :: l) with snk := { State.reset.snk with fab := [{ st := 6 }, { st := 6 }] } }

/-- A crate with its CRC. -/
def crated (c : List Byte) : List Byte := c ++ leBytes 4 (crc32 c)

/-- A small image's header. -/
def imageHdr : List Byte :=
  leBytes 4 0x42594D49 ++ leBytes 2 1 ++ leBytes 2 2048 ++ [1, 0, 0, 0] ++ leBytes 4 8 ++ List.replicate 16 0 ++ [0, 0, 1, 0]

/-- The state after a command. -/
def aft (i : Instr) (s : State) : State := match exec i s with | .next t => t | _ => s

/-! ## WellFormed refuses an ill-formed operand of each checked kind -/

theorem test_wf_requesters :
    Instr.wf (.hold (.core 14 .s) 0 0) = false ∧ Instr.wf (.hold (.fabric 4096) 0 0) = false ∧
    Instr.wf (.hold (.dma 32) 0 0) = false ∧ Instr.wf (.hold (.core 13 .s) 0 0) = true := by decide

theorem test_wf_addresses :
    Instr.wf (.registerWrite .host (2 ^ 32) 0) = false ∧ Instr.wf (.targetTimeout .host (2 ^ 32)) = false := by decide

theorem test_wf_lanes :
    Instr.wf (.fgCalDone 0 [] []) = false ∧ Instr.wf (.fgCalDone 0 (List.replicate 65 ⟨0, 0, 0⟩) [65]) = false ∧
    Instr.wf (.blockBoundary 0 [] []) = false ∧ Instr.wf (.txFrameStart []) = false ∧
    Instr.wf (.hostCodewordDecode 0 0 [2 ^ 10880]) = false ∧ Instr.wf (.jesdRelease 0 (List.replicate 9 true) 0 0) = false := by
  decide +kernel

theorem test_wf_bands :
    Instr.wf (.pbchDecode 0 []) = false ∧ Instr.wf (.hkcEntryEnd (List.replicate 129 0) false) = false ∧
    Instr.wf (.spiTransferEnd 0 (List.replicate 17 0)) = false := by decide +kernel

theorem test_wf_memory :
    Instr.wf (.arbGrant 0 [(7, 0)]) = false ∧ Instr.wf (.stoBlockEnd true (List.replicate 513 0)) = false ∧
    Instr.wf (.stoCommandEnd true (List.replicate 5 0)) = false ∧ Instr.wf (.norTransactionEnd (List.replicate 257 0) []) = false ∧
    Instr.wf (.norTransactionEnd [] [(2 ^ 32, 0)]) = false := by
  decide +kernel

theorem test_wf_part :
    Instr.wf (.wakeResume []) = false ∧ Instr.wf (.thermalMeasurementEnd []) = false ∧
    Instr.wf (.hatchMbox (List.replicate 1025 0)) = false ∧ Instr.wf (.hatchCoreRegAccess 0 .pc (some [])) = false ∧
    Instr.wf (.hatchCoreRegAccess 0 .pc (some (List.replicate 9 0))) = false ∧ Instr.wf (.fuseDone true [] 0) = false ∧
    Instr.wf (.cellarSeal 1 [] [] 0 0 true) = false := by decide +kernel

theorem test_wf_crates :
    Instr.wf (.helloRx 0 (List.replicate 524 0)) = false ∧ Instr.wf (.crateRxUnicast 0 (List.replicate 524 0) 0) = false ∧
    Instr.wf (.crateRxBroadcast 0 (List.replicate 524 0) 0) = false ∧ Instr.wf (.rreplyRx 0 (List.replicate 524 0)) = false ∧
    Instr.wf (.heartbeatRx 0 (List.replicate 524 0)) = false := by decide +kernel

/-! ## Results worked out from the rules -/

/-- No row of the table gives bits. -/
theorem test_decode : Sys2Proof.decodeTableWord 32 0 = none := by decide

/-- R9, R10: a W1C field clears where 1 is written, and a read-only field keeps its value. -/
theorem test_access_codes :
    mergeWord [(0, 1, .w1c), (1, 1, .w1c), (4, 4, .ro), (8, 4, .rw)] 0x3A3 0xF51 false = 0xFA2 := by decide

/-- R12: a core at S may not change an OWN field; SC at K may. -/
theorem test_own_right :
    lacksRight (.core 0 .s) [(4, 4, .own)] 0 0x10 false run0 = true ∧ lacksRight (.core 12 .k) [(4, 4, .own)] 0 0x10 false run0 = false := by
  decide +kernel

/-- R281: ADD wraps modulo 2^32. -/
theorem test_add_wraps :
    getW 0 5 (aft (.add 0 5 3 4) (setW 0 3 0xFFFFFFFF (setW 0 4 2 run0))) = 1 := by decide +kernel

/-- R274: w0 discards what is written. -/
theorem test_w0 : getW 0 0 (aft (.addi 0 0 0 5) run0) = 0 ∧ ((aft (.addi 0 0 0 5) run0).cpu 0).pc = 0x7F000004 := by decide +kernel

/-- R281: MULH of -2 and 3 has the high word of -6. -/
theorem test_mulh : getW 0 5 (aft (.mulh 0 5 3 4) (setW 0 3 0xFFFFFFFE (setW 0 4 3 run0))) = 0xFFFFFFFF := by decide +kernel

/-- R282: DIV truncates towards zero; a zero divisor saturates and sets dz. -/
theorem test_div :
    getW 0 5 (aft (.div 0 5 3 4) (setW 0 3 0xFFFFFFF9 (setW 0 4 2 run0))) = 0xFFFFFFFD ∧
    getW 0 5 (aft (.div 0 5 3 4) (setW 0 3 0xFFFFFFF9 run0)) = 0x80000000 ∧
    ((aft (.div 0 5 3 4) (setW 0 3 0xFFFFFFF9 run0)).cpu 0).dz = true := by decide +kernel

/-- R282: REM takes the sign of the dividend. -/
theorem test_rem : getW 0 5 (aft (.rem 0 5 3 4) (setW 0 3 0xFFFFFFF9 (setW 0 4 2 run0))) = 0xFFFFFFFF := by decide +kernel

/-- R275, R281: a branch offset counts words from the branch itself. -/
theorem test_beq : ((aft (.beq 0 3 4 (BitVec.ofInt 16 (-2))) run0).cpu 0).pc = 0x7EFFFFF8 := by decide +kernel

/-- R281: JALR to an address that is no multiple of 4 traps MISALIGN_FETCH, cause 2, with the target in TVAL. -/
theorem test_jalr_misaligned :
    ((aft (.jalr 0 5 3 0) (setW 0 3 0x10000002 run0)).cpu 0).cause = 2 ∧
    ((aft (.jalr 0 5 3 0) (setW 0 3 0x10000002 run0)).cpu 0).tval = 0x10000002 ∧
    getW 0 5 (aft (.jalr 0 5 3 0) (setW 0 3 0x10000002 run0)) = 0 := by decide +kernel

/-- R4, R339: the bytes of a stored word lie little-endian in the merge buffer of their unit. -/
theorem test_sw :
    (mergeOf 0 (aft (.sw 0 3 4 false 4) (setW 0 3 0x11223344 (setW 0 4 0x10000000 run0)))).map (fun e => (e.a, e.bytes)) =
      [(0x10000000, [none, none, none, none, some 0x44, some 0x33, some 0x22, some 0x11])] := by decide +kernel

/-- R340: a load of the word finds what was stored; LB extends the sign. -/
theorem test_lb :
    getW 0 5 (aft (.lb 0 5 4 0) (aft (.sb 0 3 4 false 0) (setW 0 3 0x80 (setW 0 4 0x10000000 run0)))) = 0xFFFFFF80 := by
  decide +kernel

/-- R283: a misaligned word traps MISALIGN_DATA, cause 3, and stores nothing. -/
theorem test_sw_misaligned :
    ((aft (.sw 0 3 4 false 2) (setW 0 4 0x10000000 run0)).cpu 0).cause = 3 ∧
    mergeOf 0 (aft (.sw 0 3 4 false 2) (setW 0 4 0x10000000 run0)) = [] := by decide +kernel

/-- R299, R300: TRAP 5 is cause 8 with info 5, saves pc and enters TVEC. -/
theorem test_trap :
    ((aft (.trap 0 0 0 5) run0).cpu 0).cause = 0x508 ∧ ((aft (.trap 0 0 0 5) run0).cpu 0).epc = 0x7F000000 ∧
    ((aft (.trap 0 0 0 5) run0).cpu 0).plvl = 1 := by decide +kernel

/-- R304: RETT at S goes to EPC with the saved level and ie. -/
theorem test_rett :
    ((aft (.rett 0 0 0 0) (updCpu 0 (fun k => { k with epc := 0x7F000100, plvl := 0, pie := true }) run0)).cpu 0).pc = 0x7F000100 ∧
    ((aft (.rett 0 0 0 0) (updCpu 0 (fun k => { k with epc := 0x7F000100, plvl := 0, pie := true }) run0)).cpu 0).lvl = 0 := by
  decide +kernel

/-- R291: a K number on a lane core is ILLEGAL, cause 0, with the word in TVAL. -/
theorem test_csr_illegal :
    ((aft (.csrrd 0 5 0 0x800) run0).cpu 0).cause = 0 ∧ ((aft (.csrrd 0 5 0 0x800) run0).cpu 0).tval = 0xF0A01800 := by decide +kernel

/-- R288: a complex product with a half of one quarter is one eighth. -/
theorem test_cmul :
    getW 8 5 (aft (.cmul 8 5 3 4 0) (setW 8 3 0x4000 (setW 8 4 0x2000 run8))) = 0x1000 := by decide +kernel

/-- R287: VADD adds lane by lane. -/
theorem test_vadd :
    getV 0 5 (aft (.vadd 0 5 3 4 0) (setV 0 3 [1, 2, 3, 4, 5, 6, 7, 8] (setV 0 4 [8, 7, 6, 5, 4, 3, 2, 1] run0))) =
      [9, 9, 9, 9, 9, 9, 9, 9] := by decide +kernel

/-- R170: an idle period without the band PLL counts no band time, but counts the model's periods. -/
theorem test_idle : (match step State.reset with | .next t => (t.now, t.bandTime) | _ => (0, 9)) = (1, 0) := by decide +kernel

/-- A step runs the command in front and takes it off the queue. -/
theorem test_step :
    (match step { run0 with pending := [.addi 0 5 0 7, .addi 0 6 0 8] } with
      | .next t => (getW 0 5 t, getW 0 6 t, t.pending.length)
      | _ => (0, 0, 0)) = (7, 0, 1) := by decide +kernel

/-- R449: the first claim makes PARTNER (class 3) the owner; a second one ends REFUSED_STATE. -/
theorem test_claim :
    (aft (.ownClaim .partner 0x0C1A) (st [(OWN_POLICY_claim_mask, 15)])).get OWN_STAT_owner = 3 ∧
    (aft (.ownClaim .partner 0x0C1A) (st [(OWN_POLICY_claim_mask, 15), (OWN_STAT_owner, 4)])).reply.code = .state := by decide +kernel

/-- R393: HOST has no answer before SC is released. -/
theorem test_host_silent : aft (.ownClaim .host 0x0C1A) State.reset = State.reset := by decide +kernel

/-- R351: START takes an idle channel to FETCH (1); a second START ends REFUSED_STATE. -/
theorem test_dma_start :
    (aft (.dmaStart (.core 12 .k) 3) run12).get (DMA_CH_STAT_state 3) = 1 ∧
    (aft (.dmaStart (.core 12 .k) 3) (run12.set (DMA_CH_STAT_state 3) 2)).reply.code = .state := by decide +kernel

/-- R223: an accepted assertion of MUTE_N is counted. -/
theorem test_mute_n : (aft .muteNAssert run12).get RPT_MUTE_CNT_asserts = 1 := by decide +kernel

/-- R211: at 10 dB/ms a tick of ARMING takes 10 of the 57,600 steps of 60 dB. -/
def armed (r : Nat) : State :=
  { st [(RPT_PATH_STAT_state 3, 1)] with rpt := upd State.reset.rpt 3 fun x => { x with r } }

theorem test_arming : (nth (rptTick 3 (armed 57600)).rpt 3).r = 57590 := by decide +kernel

/-- R405, R406: an erased flash page is no directory. -/
theorem test_no_directory : dirOk (List.replicate 64 0xFF) = false := by decide +kernel

/-- R266: a byte goes out most significant bit first. -/
theorem test_spi_first_bit :
    (spiWave 0 ((st [(FEN_SPI_CFG_bits 0, 7)]).wr (FEN_SPI_DATA 0 0) 0x80))[1]? = some ⟨false, true, some true⟩ := by decide +kernel

/-! ## The hypotheses of the statements -/

theorem test_hyps_ConverterCalibration :
    ((fun (q : Rq) (n : Fin 8) (w : Word) (s : State) => Sent q (LANE_ADC_CTRL n) LANE_ADC_CTRL_fs (force w (LANE_ADC_CTRL_rx_en n) 1) s ∧ s.on (LANE_ADC_CTRL_rx_en n) = false ∧ (wf w (LANE_ADC_CTRL_slot_len n) ≠ 3 ∨ s.chg w (LANE_ADC_CTRL_slot_len n) = false) ∧ (s.chg w (LANE_ADC_CTRL_ctle_peak n) = false ∨ locked n s = false)) (.core 12 .k) 2 0 .reset) ∧
    ((fun (q : Rq) (n : Fin 8) (w : Word) (s : State) => Sent q (LANE_ADC_CTRL n) LANE_ADC_CTRL_fs (force w (LANE_ADC_CTRL_rx_en n) 1) s ∧ wf w (LANE_ADC_CTRL_slot_len n) = 3 ∧ s.chg w (LANE_ADC_CTRL_slot_len n) = true) (.core 12 .k) 2 (force 0 (LANE_ADC_CTRL_slot_len 2) 3) .reset) ∧
    ((fun (q : Rq) (n : Fin 8) (w : Word) (s : State) => Sent q (LANE_ADC_CTRL n) LANE_ADC_CTRL_fs (force w (LANE_ADC_CTRL_rx_en n) 0) s ∧ s.on (LANE_ADC_CTRL_rx_en n) = true ∧ (wf w (LANE_ADC_CTRL_slot_len n) ≠ 3 ∨ s.chg w (LANE_ADC_CTRL_slot_len n) = false) ∧ (s.chg w (LANE_ADC_CTRL_ctle_peak n) = false ∨ locked n s = false)) (.core 12 .k) 2 0 (st [(LANE_ADC_CTRL_rx_en 2, 1)])) ∧
    ((fun (n : Fin 8) (s : State) => rotOk n s = true ∧ (nth s.conv n).slotOn = false ∧ (nth s.conv n).paused = false ∧ s.on TH_STAT_throttle = false ∧ s.on (LANE_ADC_STATUS_no_spare n) = false ∧ rampLive s = true) 2 (st [(LANE_ADC_CTRL_rot_en 2, 1), (LANE_ADC_STATUS_fg_done 2, 1), (LANE_DET_STATUS_locked 2, 1)])) ∧
    ((fun (n : Fin 8) (est : Int) (s : State) => (nth s.conv n).slotOn = true ∧ s.get (LANE_ADC_STATUS_phase n) = 0 ∧ jumpOfs est (nth (nth s.conv n).est (s.get (LANE_ADC_STATUS_spare n))).ofs = false ∧ rampLive s = true) 2 5 (updConv 2 (fun c => { c with slotOn := true }) .reset)) ∧
    ((fun (n : Fin 8) (est : Int) (s : State) => (nth s.conv n).slotOn = true ∧ s.get (LANE_ADC_STATUS_phase n) = 1 ∧ jumpGain est (nth (nth s.conv n).est (s.get (LANE_ADC_STATUS_spare n))).gain = false ∧ rampLive s = true) 2 5 (updConv 2 (fun c => { c with slotOn := true }) (st [(LANE_ADC_STATUS_phase 2, 1)]))) ∧
    ((fun (n : Fin 8) (stuck : Bool) (s : State) => (nth s.conv n).slotOn = true ∧ s.get (LANE_ADC_STATUS_phase n) = 1 ∧ stuck = true ∧ rampLive s = true) 2 true (updConv 2 (fun c => { c with slotOn := true }) (st [(LANE_ADC_STATUS_phase 2, 1)]))) ∧
    ((fun (n : Fin 8) (est : Int) (s : State) => (nth s.conv n).slotOn = true ∧ (nth s.conv n).recal = none ∧ s.get (LANE_ADC_STATUS_phase n) = 2 ∧ jumpSkew est (nth (nth s.conv n).est (s.get (LANE_ADC_STATUS_spare n))).skew = false ∧ s.on (LANE_SLICE_TGT_pin n (s.get (LANE_ADC_STATUS_spare n))) = true ∧ rampLive s = true) 2 5 (updConv 2 (fun c => { c with slotOn := true }) (st [(LANE_ADC_STATUS_phase 2, 2), (LANE_SLICE_TGT_pin 2 ((State.reset).get (LANE_ADC_STATUS_spare 2)), 1)]))) ∧
    ((fun (n : Fin 8) (est : Int) (s : State) => (nth s.conv n).slotOn = true ∧ (nth s.conv n).recal = none ∧ s.get (LANE_ADC_STATUS_phase n) = 2 ∧ jumpSkew est (nth (nth s.conv n).est (s.get (LANE_ADC_STATUS_spare n))).skew = false ∧ s.on (LANE_SLICE_TGT_pin n (s.get (LANE_ADC_STATUS_spare n))) = false ∧ rampLive s = true) 2 5 (updConv 2 (fun c => { c with slotOn := true }) (st [(LANE_ADC_STATUS_phase 2, 2)]))) ∧
    ((fun (n : Fin 8) (s : State) => (nth s.conv n).slotOn = true ∧ s.get (LANE_ADC_STATUS_phase n) = 3 ∧ rampLive s = true) 2 (updConv 2 (fun c => { c with slotOn := true }) (st [(LANE_ADC_STATUS_phase 2, 3)]))) ∧
    ((fun (q : Rq) (n : Fin 8) (k : Fin 128) (s : State) => Sent q (LANE_CAL_CMD n) LANE_CAL_CMD_fs (calWord n 1 k) s ∧ calBusy n s = false) (.core 12 .k) 2 3 .reset) ∧
    ((fun (q : Rq) (n : Fin 8) (k : Fin 128) (s : State) => Sent q (LANE_CAL_CMD n) LANE_CAL_CMD_fs (calWord n 2 k) s ∧ calBusy n s = false ∧ s.on (LANE_ADC_STATUS_fg_done n) = true) (.core 12 .k) 2 3 (st [(LANE_ADC_STATUS_fg_done 2, 1)])) ∧
    ((fun (q : Rq) (n : Fin 8) (k : Fin 128) (s : State) => Sent q (LANE_CAL_CMD n) LANE_CAL_CMD_fs (calWord n 3 k) s ∧ calBusy n s = false ∧ k.val < 65 ∧ s.get (LANE_SLICE_CSKEW_state n k) ≠ 2) (.core 12 .k) 2 3 .reset) ∧
    ((fun (q : Rq) (n : Fin 8) (k : Fin 128) (s : State) => Sent q (LANE_CAL_CMD n) LANE_CAL_CMD_fs (calWord n 4 k) s ∧ calBusy n s = false ∧ k.val < 65) (.core 12 .k) 2 3 .reset) ∧
    ((fun (q : Rq) (n : Fin 8) (k : Fin 128) (s : State) => Sent q (LANE_CAL_CMD n) LANE_CAL_CMD_fs (calWord n 1 k) s ∧ calBusy n s = true) (.core 12 .k) 2 3 (updConv 2 (fun c => { c with holdPend := true }) .reset)) := by
  refine ⟨?_, ?_, ?_, ?_, ?_, ?_, ?_, ?_, ?_, ?_, ?_, ?_, ?_, ?_, ?_⟩ <;> (beta_reduce; decide +kernel)

theorem test_hyps_TransmitConverter :
    ((fun (q : Rq) (n : Fin 8) (w : Word) (s : State) => Sent q (LANE_TX_CTRL n) LANE_TX_CTRL_fs w s ∧ s.chg w (LANE_TX_CTRL_swing n) = true ∧ 240 < wf w (LANE_TX_CTRL_swing n)) (.core 12 .k) 2 (force 0 (LANE_TX_CTRL_swing 2) 250) .reset) ∧
    ((fun (q : Rq) (n : Fin 8) (w : Word) (s : State) => Sent q (LANE_TX_CTRL n) LANE_TX_CTRL_fs w s ∧ s.chg w (LANE_TX_CTRL_swing n) = true ∧ wf w (LANE_TX_CTRL_swing n) ≤ 240 ∧ s.get GRD_SWING_work < wf w (LANE_TX_CTRL_swing n)) (.core 12 .k) 2 (force 0 (LANE_TX_CTRL_swing 2) 230) (st [(GRD_SWING_work, 100)])) ∧
    ((fun (q : Rq) (n : Fin 8) (w : Word) (s : State) => Sent q (LANE_TX_CTRL n) LANE_TX_CTRL_fs w s ∧ s.chg w (LANE_TX_CTRL_swing n) = true ∧ wf w (LANE_TX_CTRL_swing n) ≤ 240 ∧ wf w (LANE_TX_CTRL_swing n) ≤ s.get GRD_SWING_work ∧ (s.chg w (LANE_TX_CTRL_main_pos n) = false ∨ s.on (LANE_TX_STATUS_pending n) = false)) (.core 12 .k) 2 (force 0 (LANE_TX_CTRL_swing 2) 50) (st [(GRD_SWING_work, 100)])) ∧
    ((fun (q : Rq) (n : Fin 8) (w : Word) (s : State) => Sent q (LANE_TX_COMMIT n) LANE_TX_COMMIT_fs (force w (LANE_TX_COMMIT_fir n) 1) s ∧ s.on (LANE_TX_STATUS_pending n) = false ∧ firAbsSum n s ≤ 340) (.core 12 .k) 2 0 .reset) ∧
    ((fun (q : Rq) (n : Fin 8) (w : Word) (s : State) => Sent q (LANE_TX_COMMIT n) LANE_TX_COMMIT_fs (force w (LANE_TX_COMMIT_fir n) 1) s ∧ s.on (LANE_TX_STATUS_pending n) = false ∧ 340 < firAbsSum n s) (.core 12 .k) 2 0 (st [(LANE_TX_FIR_shadow 2 0, 100), (LANE_TX_FIR_shadow 2 1, 120), (LANE_TX_FIR_shadow 2 2, 90), (LANE_TX_FIR_shadow 2 3, 90)])) ∧
    ((fun (q : Rq) (n : Fin 8) (w : Word) (s : State) => Sent q (LANE_TX_COMMIT n) LANE_TX_COMMIT_fs (force w (LANE_TX_COMMIT_pd_swap n) 1) s ∧ s.on (LANE_TX_STATUS_pending n) = false ∧ (wf w (LANE_TX_COMMIT_fir n) = 1 → firAbsSum n s ≤ 340)) (.core 12 .k) 2 0 .reset) ∧
    ((fun (q : Rq) (n : Fin 8) (w : Word) (s : State) => Sent q (LANE_TX_COMMIT n) LANE_TX_COMMIT_fs (force w (LANE_TX_COMMIT_pd_swap n) 1) s ∧ s.on (LANE_TX_STATUS_pending n) = true) (.core 12 .k) 2 0 (st [(LANE_TX_STATUS_pending 2, 1)])) ∧
    ((fun (q : Rq) (n : Fin 8) (w : Word) (s : State) => Sent q (LANE_TX_COMMIT n) LANE_TX_COMMIT_fs (force w (LANE_TX_COMMIT_fir n) 1) s ∧ s.on (LANE_TX_STATUS_pending n) = true) (.core 12 .k) 2 0 (st [(LANE_TX_STATUS_pending 2, 1)])) ∧
    ((fun (n : Fin 8) (s : State) => txRuns s = true ∧ s.on (LANE_TX_STATUS_pending n) = true ∧ (nth s.conv n).firPend = true ∧ (nth s.conv n).swapPend = false) 2 (updConv 2 (fun c => { c with firPend := true }) (st [(LANE_TX_STATUS_pending 2, 1), (pllEn 0, 1), (pllReady 0, 1)]))) ∧
    ((fun (s : State) => txRuns s = false) (st [(LANE_TX_STATUS_pending 2, 1)])) ∧
    ((fun (n : Fin 8) (s : State) => txRuns s = true ∧ s.on (LANE_TX_STATUS_pending n) = true ∧ (nth s.conv n).firPend = false ∧ (nth s.conv n).swapPend = true) 2 (updConv 2 (fun c => { c with swapPend := true }) (st [(LANE_TX_STATUS_pending 2, 1), (pllEn 0, 1), (pllReady 0, 1)]))) := by
  refine ⟨?_, ?_, ?_, ?_, ?_, ?_, ?_, ?_, ?_, ?_, ?_⟩ <;> (beta_reduce; decide +kernel)

theorem test_hyps_ReceiverBlocks :
    ((fun (n : Fin 8) (s : State) => blkHeld n s = true) 2 { State.reset with stop := true }) ∧
    ((fun (n : Fin 8) (s : State) => blkHeld n s = false ∧ detState n s = 0) 2 .reset) ∧
    ((fun (n : Fin 8) (s : State) => blkHeld n s = false ∧ (detState n s = 1 ∨ detState n s = 4)) 2 (st [(LANE_DET_STATUS_state 2, 1)])) ∧
    ((fun (n : Fin 8) (s : State) => blkHeld n s = false ∧ (detState n s = 2 ∨ detState n s = 3)) 2 (st [(LANE_DET_STATUS_state 2, 2)])) ∧
    ((fun (n : Fin 8) (s : State) => detState n s = 2 ∧ 2 ^ (10 + (nth s.det n).winLen) ≤ (nth s.det n).winBlocks ∧ (nth s.det n).winCount ≤ 16 * s.get (LANE_DET_MON_lock_thr n) ∧ (nth s.det n).winCount ≤ 256 * s.get (LANE_DET_MON_loss_thr n) ∧ (nth s.det n).freqPin = false ∧ (nth s.det n).cmd = some 3) 2 (updDet 2 (fun d => { d with winBlocks := 2 ^ 26, cmd := some 3, freqPin := false }) (st [(LANE_DET_STATUS_state 2, 2)]))) ∧
    ((fun (n : Fin 8) (failed : List Nat) (s : State) => s.on (LANE_ADC_STATUS_fg_busy n) = true ∧ failed = []) 2 [] (st [(LANE_ADC_STATUS_fg_busy 2, 1)])) ∧
    ((fun (n : Fin 8) (s : State) => s.on (LANE_ADC_STATUS_fg_busy n) = false) 2 .reset) := by
  refine ⟨?_, ?_, ?_, ?_, ?_, ?_, ?_⟩ <;> (beta_reduce; decide +kernel)

theorem test_hyps_ReceiverCommands :
    ((fun (q : Rq) (n : Fin 8) (w : Word) (s : State) => Sent q (LANE_DET_CTRL n) LANE_DET_CTRL_fs (force w (LANE_DET_CTRL_det_en n) 1) s ∧ wf w (LANE_DET_CTRL_seam_mode n) < 2) (.core 12 .k) 2 0 .reset) ∧
    ((fun (q : Rq) (n : Fin 8) (w : Word) (s : State) => Sent q (LANE_DET_CTRL n) LANE_DET_CTRL_fs (force w (LANE_DET_CTRL_det_en n) 0) s ∧ wf w (LANE_DET_CTRL_seam_mode n) < 2 ∧ s.on (LANE_DET_CTRL_det_en n) = true) (.core 12 .k) 2 0 (st [(LANE_DET_CTRL_det_en 2, 1)])) ∧
    ((fun (q : Rq) (n : Fin 8) (s : State) => Sent q (LANE_DET_CMD n) LANE_DET_CMD_fs 1 s ∧ detBusy n s = false ∧ detState n s = 1) (.core 12 .k) 2 (st [(LANE_DET_STATUS_state 2, 1)])) ∧
    ((fun (q : Rq) (n : Fin 8) (s : State) => Sent q (LANE_DET_CMD n) LANE_DET_CMD_fs 1 s ∧ detBusy n s = false ∧ detState n s = 4) (.core 12 .k) 2 (st [(LANE_DET_STATUS_state 2, 4)])) ∧
    ((fun (q : Rq) (n : Fin 8) (s : State) => Sent q (LANE_DET_CMD n) LANE_DET_CMD_fs 1 s ∧ (detBusy n s = true ∨ detState n s = 0)) (.core 12 .k) 2 .reset) ∧
    ((fun (q : Rq) (n : Fin 8) (s : State) => Sent q (LANE_DET_CMD n) LANE_DET_CMD_fs 1 s ∧ (detBusy n s = true ∨ detState n s = 0)) (.core 12 .k) 2 (updDet 2 (fun d => { d with cmd := some 2 }) (st [(LANE_DET_STATUS_state 2, 1)]))) ∧
    ((fun (q : Rq) (n : Fin 8) (s : State) => Sent q (LANE_DET_CMD n) LANE_DET_CMD_fs 2 s ∧ detBusy n s = false ∧ (detState n s = 1 ∨ detState n s = 4)) (.core 12 .k) 2 (st [(LANE_DET_STATUS_state 2, 1)])) ∧
    ((fun (q : Rq) (n : Fin 8) (s : State) => Sent q (LANE_DET_CMD n) LANE_DET_CMD_fs 2 s ∧ detBusy n s = false ∧ detState n s = 2) (.core 12 .k) 2 (st [(LANE_DET_STATUS_state 2, 2)])) ∧
    ((fun (q : Rq) (n : Fin 8) (s : State) => Sent q (LANE_DET_CMD n) LANE_DET_CMD_fs 2 s ∧ (detBusy n s = true ∨ detState n s = 0)) (.core 12 .k) 2 .reset) ∧
    ((fun (q : Rq) (n : Fin 8) (s : State) => Sent q (LANE_DET_CMD n) LANE_DET_CMD_fs 3 s ∧ detBusy n s = false ∧ detState n s = 2 ∧ (nth s.det n).winMet = some true) (.core 12 .k) 2 (updDet 2 (fun d => { d with winMet := some true }) (st [(LANE_DET_STATUS_state 2, 2)]))) ∧
    ((fun (q : Rq) (n : Fin 8) (s : State) => Sent q (LANE_DET_CMD n) LANE_DET_CMD_fs 3 s ∧ detBusy n s = false ∧ detState n s = 2 ∧ (nth s.det n).winMet = none) (.core 12 .k) 2 (st [(LANE_DET_STATUS_state 2, 2)])) ∧
    ((fun (q : Rq) (n : Fin 8) (s : State) => Sent q (LANE_DET_CMD n) LANE_DET_CMD_fs 3 s ∧ detBusy n s = false ∧ detState n s = 3) (.core 12 .k) 2 (st [(LANE_DET_STATUS_state 2, 3)])) ∧
    ((fun (q : Rq) (n : Fin 8) (s : State) => Sent q (LANE_DET_CMD n) LANE_DET_CMD_fs 3 s ∧ (detBusy n s = true ∨ detState n s = 0 ∨ (detState n s = 2 ∧ (nth s.det n).winMet = some false))) (.core 12 .k) 2 .reset) ∧
    ((fun (q : Rq) (n : Fin 8) (s : State) => Sent q (LANE_DET_CMD n) LANE_DET_CMD_fs 3 s ∧ (detBusy n s = true ∨ detState n s = 0 ∨ (detState n s = 2 ∧ (nth s.det n).winMet = some false))) (.core 12 .k) 2 (updDet 2 (fun d => { d with winMet := some false }) (st [(LANE_DET_STATUS_state 2, 2)]))) ∧
    ((fun (q : Rq) (n : Fin 8) (s : State) => Sent q (LANE_DET_CMD n) LANE_DET_CMD_fs 4 s ∧ detBusy n s = false ∧ detState n s ≠ 0) (.core 12 .k) 2 (st [(LANE_DET_STATUS_state 2, 3)])) ∧
    ((fun (q : Rq) (n : Fin 8) (s : State) => Sent q (LANE_DET_CMD n) LANE_DET_CMD_fs 4 s ∧ (detBusy n s = true ∨ detState n s = 0)) (.core 12 .k) 2 .reset) := by
  refine ⟨?_, ?_, ?_, ?_, ?_, ?_, ?_, ?_, ?_, ?_, ?_, ?_, ?_, ?_, ?_, ?_⟩ <;> (beta_reduce; decide +kernel)

theorem test_hyps_Adaptation :
    ((fun (q : Rq) (n : Fin 8) (u : Fin 4) (s : State) => Sent q (LANE_LMS_CMD n u) LANE_LMS_CMD_fs 1 s ∧ (nth (nth s.det n).lms u).phase = 0 ∧ ((lmsRange n u s).2 ≤ if s.get (LANE_LMS_CFG_kind n u) = 0 then 47 else 63) ∧ (s.get (LANE_LMS_CFG_kind n u) = 0 → s.get (LANE_EQ_CTRL_anchor n) < (lmsRange n u s).1 ∨ (lmsRange n u s).2 < s.get (LANE_EQ_CTRL_anchor n))) (.core 12 .k) 2 1 (st [(LANE_LMS_CFG_kind 2 1, 1)])) ∧
    ((fun (q : Rq) (n : Fin 8) (u : Fin 4) (s : State) => Sent q (LANE_LMS_CMD n u) LANE_LMS_CMD_fs 1 s ∧ (nth (nth s.det n).lms u).phase ≠ 0) (.core 12 .k) 2 1 (updLms 2 1 (fun x => { x with phase := 2 }) .reset)) ∧
    ((fun (n : Fin 8) (u : Fin 4) (s : State) => (nth (nth s.det n).lms u).phase = 2 ∧ (nth (nth s.det n).lms u).left = 0) 2 1 (updLms 2 1 (fun x => { x with phase := 2 }) .reset)) ∧
    ((fun (q : Rq) (n : Fin 8) (u : Fin 4) (mu : Fin 16) (s : State) => Sent q (LANE_LMS_CMD n u) LANE_LMS_CMD_fs (force 2 (LANE_LMS_CMD_mu_shift n u) mu) s ∧ (nth (nth s.det n).lms u).phase = 0 ∧ (nth (nth s.det n).lms u).accDone = true ∧ (s.get (LANE_LMS_CFG_kind n u) = 0 → ∀ k : Fin 48, (lmsRange n u s).1 ≤ k → k ≤ (lmsRange n u s).2 → s.on (LANE_EQ_TAP_gated n k) = false)) (.core 12 .k) 2 1 3 (updLms 2 1 (fun x => { x with accDone := true }) .reset)) ∧
    ((fun (q : Rq) (n : Fin 8) (u : Fin 4) (mu : Fin 16) (s : State) => Sent q (LANE_LMS_CMD n u) LANE_LMS_CMD_fs (force 2 (LANE_LMS_CMD_mu_shift n u) mu) s ∧ ((nth (nth s.det n).lms u).accDone = false ∨ (nth (nth s.det n).lms u).phase ≠ 0)) (.core 12 .k) 2 1 3 .reset) ∧
    ((fun (q : Rq) (n : Fin 8) (k : Fin 48) (w : Word) (s : State) => Sent q (LANE_EQ_TAP n k) LANE_EQ_TAP_fs w s ∧ s.chg w (LANE_EQ_TAP_coef n k) = true ∧ s.on (LANE_EQ_TAP_gated n k) = false ∧ (locked n s = true → (sgn 12 (wf w (LANE_EQ_TAP_coef n k)) - s.geti (LANE_EQ_TAP_coef n k)).natAbs ≤ s.get (LANE_EQ_CTRL_step_max n))) (.core 12 .k) 2 5 (force 0 (LANE_EQ_TAP_coef 2 5) 9) .reset) ∧
    ((fun (q : Rq) (n : Fin 8) (k : Fin 48) (w : Word) (s : State) => Sent q (LANE_EQ_TAP n k) LANE_EQ_TAP_fs w s ∧ s.chg w (LANE_EQ_TAP_coef n k) = true ∧ s.on (LANE_EQ_TAP_gated n k) = true) (.core 12 .k) 2 5 (force 0 (LANE_EQ_TAP_coef 2 5) 9) (st [(LANE_EQ_TAP_gated 2 5, 1)])) ∧
    ((fun (q : Rq) (n : Fin 8) (k : Fin 48) (w : Word) (s : State) => Sent q (LANE_EQ_TAP n k) LANE_EQ_TAP_fs w s ∧ s.chg w (LANE_EQ_TAP_coef n k) = true ∧ s.on (LANE_EQ_TAP_gated n k) = false ∧ locked n s = true ∧ s.get (LANE_EQ_CTRL_step_max n) < (sgn 12 (wf w (LANE_EQ_TAP_coef n k)) - s.geti (LANE_EQ_TAP_coef n k)).natAbs) (.core 12 .k) 2 5 (force 0 (LANE_EQ_TAP_coef 2 5) 1000) (st [(LANE_DET_STATUS_locked 2, 1)])) ∧
    ((fun (q : Rq) (n : Fin 8) (k : Fin 48) (w : Word) (s : State) => Sent q (LANE_EQ_TAP n k) LANE_EQ_TAP_fs w s ∧ s.chg w (LANE_EQ_TAP_coef n k) = false) (.core 12 .k) 2 5 0 .reset) ∧
    ((fun (q : Rq) (n : Fin 8) (s : State) => Sent q (LANE_TRL_COMMIT n) LANE_TRL_COMMIT_fs 1 s ∧ (locked n s = false ∨ levelsFar n s = false)) (.core 12 .k) 2 .reset) ∧
    ((fun (q : Rq) (n : Fin 8) (s : State) => Sent q (LANE_TRL_COMMIT n) LANE_TRL_COMMIT_fs 1 s ∧ locked n s = true ∧ levelsFar n s = true) (.core 12 .k) 2 (st [(LANE_DET_STATUS_locked 2, 1), (LANE_TRL_LEVA_level 2 3, 900)])) ∧
    ((fun (q : Rq) (n : Fin 8) (w : Word) (s : State) => Sent q (LANE_HIST_CTRL n) LANE_HIST_CTRL_fs (force w (LANE_HIST_CTRL_run n) 1) s ∧ wf w (LANE_HIST_CTRL_sel n) < 2 ∧ wf w (LANE_HIST_CTRL_bin_shift n) ≤ 10) (.core 12 .k) 2 0 .reset) ∧
    ((fun (n : Fin 8) (s : State) => (nth s.det n).hist = 2 ∧ (nth s.det n).histLeft = 0) 2 (updDet 2 (fun d => { d with hist := 2 }) .reset)) := by
  refine ⟨?_, ?_, ?_, ?_, ?_, ?_, ?_, ?_, ?_, ?_, ?_, ?_, ?_⟩ <;> (beta_reduce; decide +kernel)

theorem test_hyps_LanesAndContainers :
    ((fun (q : Rq) (n : Fin 8) (w : Word) (s : State) => Sent q (FRM_LANE_CTRL n) FRM_LANE_CTRL_fs (force w (FRM_LANE_CTRL_up n) 1) s ∧ s.on (FRM_LANE_CTRL_up n) = false ∧ (wf w (FRM_LANE_CTRL_map n) = 1 ∨ (wf w (FRM_LANE_CTRL_map n) = 2 ∧ wf w (FRM_LANE_CTRL_mode n) = 0)) ∧ (wf w (FRM_LANE_CTRL_mode n) = 0 ∨ (wf w (FRM_LANE_CTRL_mode n) = 1 ∧ wf w (FRM_LANE_CTRL_outer n) = 1)) ∧ (s.get (FRM_LANE_CTRL_map n) = 2 → wf w (FRM_LANE_CTRL_map n) = 2 ∨ ctrListed n s = false) ∧ wf w (FRM_LANE_CTRL_mode n) = s.get CRP_PLL_CTRL_tx_mode ∧ (wf w (FRM_LANE_CTRL_map n) = 1 → groupOk (wf w (FRM_LANE_CTRL_mode n)) (wf w (FRM_LANE_CTRL_hgrp n)) s = true)) (.core 12 .k) 2 (force 0 (FRM_LANE_CTRL_map 2) 2) .reset) ∧
    ((fun (q : Rq) (n : Fin 8) (w : Word) (s : State) => Sent q (FRM_LANE_CTRL n) FRM_LANE_CTRL_fs (force w (FRM_LANE_CTRL_up n) 0) s ∧ s.on (FRM_LANE_CTRL_up n) = true ∧ wf w (FRM_LANE_CTRL_map n) ≠ 3 ∧ wf w (FRM_LANE_CTRL_mode n) < 2 ∧ laneCfgChg n w s = false ∧ (txState n s = 0 ∨ txState n s = 5)) (.core 12 .k) 2 0 (st [(FRM_LANE_CTRL_up 2, 1)])) ∧
    ((fun (q : Rq) (n : Fin 8) (w : Word) (s : State) => Sent q (FRM_LANE_CTRL n) FRM_LANE_CTRL_fs w s ∧ s.on (FRM_LANE_CTRL_up n) = false ∧ wf w (FRM_LANE_CTRL_up n) = 0 ∧ wf w (FRM_LANE_CTRL_map n) ≠ 3 ∧ wf w (FRM_LANE_CTRL_mode n) < 2 ∧ (s.get (FRM_LANE_CTRL_map n) = 2 → wf w (FRM_LANE_CTRL_map n) = 2 ∨ ctrListed n s = false)) (.core 12 .k) 2 (force 0 (FRM_LANE_CTRL_map 2) 2) .reset) ∧
    ((fun (q : Rq) (n : Fin 8) (w : Word) (s : State) => Sent q (FRM_LANE_CTRL n) FRM_LANE_CTRL_fs w s ∧ s.on (FRM_LANE_CTRL_up n) = true ∧ wf w (FRM_LANE_CTRL_map n) ≠ 3 ∧ wf w (FRM_LANE_CTRL_mode n) < 2 ∧ laneCfgChg n w s = true) (.core 12 .k) 2 (force 0 (FRM_LANE_CTRL_map 2) 2) (st [(FRM_LANE_CTRL_up 2, 1)])) ∧
    ((fun (q : Rq) (n : Fin 8) (w : Word) (s : State) => Sent q (FRM_LANE_CTRL n) FRM_LANE_CTRL_fs w s ∧ (wf w (FRM_LANE_CTRL_map n) = 3 ∨ 2 ≤ wf w (FRM_LANE_CTRL_mode n))) (.core 12 .k) 2 (force 0 (FRM_LANE_CTRL_map 2) 3) .reset) ∧
    ((fun (q : Rq) (n : Fin 8) (rx : Bool) (c : Fin 128) (w : Word) (s : State) => (Sent q (if rx then FRM_RCTR n c else FRM_TCTR n c) (if rx then FRM_RCTR_fs else FRM_TCTR_fs) w s) ∧ ctrRate w < 6 ∧ (rx = true → wf w (FRM_RCTR_po_depth n c) ≠ 0) ∧ ctrNamed rx n (some c.val) s = false ∧ dirLoad rx n s - wordLoad (ctrWord rx n c s) + wordLoad w ≤ 1279 * loadUnit) (.core 12 .k) 2 false 3 1 .reset) ∧
    ((fun (q : Rq) (n : Fin 8) (rx : Bool) (c : Fin 128) (w : Word) (s : State) => (Sent q (if rx then FRM_RCTR n c else FRM_TCTR n c) (if rx then FRM_RCTR_fs else FRM_TCTR_fs) w s) ∧ ctrRate w < 6 ∧ (rx = true → wf w (FRM_RCTR_po_depth n c) ≠ 0) ∧ ctrNamed rx n (some c.val) s = false ∧ dirLoad rx n s - wordLoad (ctrWord rx n c s) + wordLoad w ≤ 1279 * loadUnit) (.core 12 .k) 2 true 3 (force 1 (FRM_RCTR_po_depth 2 3) 4) .reset) ∧
    ((fun (q : Rq) (n : Fin 8) (rx : Bool) (c : Fin 128) (w : Word) (s : State) => (Sent q (if rx then FRM_RCTR n c else FRM_TCTR n c) (if rx then FRM_RCTR_fs else FRM_TCTR_fs) w s) ∧ 6 ≤ ctrRate w) (.core 12 .k) 2 false 3 14 .reset) ∧
    ((fun (n : Fin 8) (c : Fin 128) (p : Nat) (e : Word) (s : State) => bndHeld s = false ∧ ctrPort false n c s = some (p, e) ∧ ctrEn (ctrWord false n c s) = true ∧ (nth (nth s.frm n).txc c).wait.length < 4) 2 3 5 ((st [(BND_POUT_en 5, 1), (BND_POUT_kind 5, 1), (BND_POUT_lane 5, 2), (BND_POUT_idx 5, 3)]).rd (BND_POUT 5)) (st [(FRM_TCTR_en 2 3, 1), (BND_POUT_en 5, 1), (BND_POUT_kind 5, 1), (BND_POUT_lane 5, 2), (BND_POUT_idx 5, 3)])) ∧
    ((fun (n : Fin 8) (c : Fin 128) (p : Nat) (e : Word) (s : State) => bndHeld s = false ∧ ctrPort false n c s = some (p, e) ∧ ctrEn (ctrWord false n c s) = true ∧ (nth (nth s.frm n).txc c).wait.length = 4) 2 3 5 ((st [(BND_POUT_en 5, 1), (BND_POUT_kind 5, 1), (BND_POUT_lane 5, 2), (BND_POUT_idx 5, 3)]).rd (BND_POUT 5)) (updFrm 2 (fun f => { f with txc := upd f.txc 3 fun x => { x with wait := [1, 2, 3, 4] } }) (st [(FRM_TCTR_en 2 3, 1), (BND_POUT_en 5, 1), (BND_POUT_kind 5, 1), (BND_POUT_lane 5, 2), (BND_POUT_idx 5, 3)]))) ∧
    ((fun (n : Fin 8) (c : Fin 128) (s : State) => bndHeld s = true ∧ s.bndZero.contains (n.val, c.val) = true ∧ ctrEn (ctrWord false n c s) = true ∧ (nth (nth s.frm n).txc c).wait.length < 4) 2 3 { st [(FRM_TCTR_en 2 3, 1)] with rst := { held := [17] }, bndZero := [(2, 3)] }) ∧
    ((fun (n : Fin 8) (c : Fin 128) (s : State) => (portBlockOut n c s = none ∨ ctrEn (ctrWord false n c s) = false)) 2 3 .reset) ∧
    ((fun (n : Fin 8) (g : Nat) (s : State) => rsActive n s = true ∧ s.get (FRM_LANE_CTRL_map n) = 2 ∧ (nth s.frm n).pay.len = 87040 ∧ bitsAt (nth s.frm n).msg (64 * (nth s.frm n).word) 1 = 1 ∧ g = cellWords (bitsAt (nth s.frm n).msg (64 * (nth s.frm n).word + 8) 2) ∧ (nth s.frm n).word + g ≤ 1285 ∧ groupDone (nth s.frm n) (groupOf (64 * (nth s.frm n).word)) = true ∧ groupDone (nth s.frm n) (groupOf (64 * ((nth s.frm n).word + g) - 1)) = true ∧ groupOf (64 * ((nth s.frm n).word + g) - 1) < (nth s.frm n).skip ∧ ctrEn (ctrWord true n (bitsAt (nth s.frm n).msg (64 * (nth s.frm n).word + 1) 7) s) = true) 2 7 (updFrm 2 (fun f => { f with pay := ⟨0, 0, 87040⟩, msg := 7, decoded := [0, 1, 2, 3] }) (st [(FRM_LANE_STATUS_fstate 2, 3), (FRM_LANE_CTRL_map 2, 2), (FRM_RCTR_en 2 3, 1)]))) ∧
    ((fun (n : Fin 8) (s : State) => rsActive n s = true ∧ s.get (FRM_LANE_CTRL_map n) = 2 ∧ (nth s.frm n).pay.len = 87040 ∧ (nth s.frm n).word < 1285 ∧ bitsAt (nth s.frm n).msg (64 * (nth s.frm n).word) 1 = 0 ∧ groupDone (nth s.frm n) (groupOf (64 * (nth s.frm n).word)) = true ∧ groupDone (nth s.frm n) (groupOf (64 * ((nth s.frm n).word + 1) - 1)) = true ∧ groupOf (64 * ((nth s.frm n).word + 1) - 1) < (nth s.frm n).skip) 2 (updFrm 2 (fun f => { f with pay := ⟨0, 0, 87040⟩, decoded := [0, 1, 2, 3] }) (st [(FRM_LANE_STATUS_fstate 2, 3), (FRM_LANE_CTRL_map 2, 2)]))) ∧
    ((fun (n : Fin 8) (c : Fin 128) (s : State) => ctrEn (ctrWord true n c s) = true ∧ s.on (FRM_LANE_CTRL_up n) = true ∧ s.get (FRM_LANE_CTRL_map n) = 2 ∧ bandRuns s = true ∧ (nth (nth s.frm n).rxc c).filled = true) 2 3 (updFrm 2 (fun f => { f with rxc := upd f.rxc 3 fun x => { x with filled := true } }) (st [(FRM_RCTR_en 2 3, 1), (FRM_LANE_CTRL_up 2, 1), (FRM_LANE_CTRL_map 2, 2), (CRP_PLL_CTRL_b_en, 1), (CRP_PLL_STAT_ready, 8)]))) ∧
    ((fun (n : Fin 8) (c : Fin 128) (s : State) => ctrEn (ctrWord true n c s) = true ∧ s.on (FRM_LANE_CTRL_up n) = true ∧ s.get (FRM_LANE_CTRL_map n) = 2 ∧ bandRuns s = true ∧ (nth (nth s.frm n).rxc c).filled = false ∧ s.get (FRM_RCTR_po_depth n c) ≤ (nth (nth s.frm n).rxc c).wait.length) 2 3 (updFrm 2 (fun f => { f with rxc := upd f.rxc 3 fun x => { x with wait := [some 1, none, none, none, none, none, none, none, none, none, none, none, none, none, none, none] } }) (st [(FRM_RCTR_en 2 3, 1), (FRM_RCTR_po_depth 2 3, 2), (FRM_LANE_CTRL_up 2, 1), (FRM_LANE_CTRL_map 2, 2), (CRP_PLL_CTRL_b_en, 1), (CRP_PLL_STAT_ready, 8)]))) := by
  refine ⟨?_, ?_, ?_, ?_, ?_, ?_, ?_, ?_, ?_, ?_, ?_, ?_, ?_, ?_, ?_, ?_⟩ <;> (beta_reduce; decide +kernel)

theorem test_hyps_LineFrames :
    ((fun (n : Fin 8) (s : State) => (nth s.frm n).rx.len < frameBits) 2 .reset) ∧
    ((fun (n : Fin 8) (p : Nat) (s : State) => (s.get (LANE_DET_STATUS_state n) = 2 ∨ s.get (LANE_DET_STATUS_state n) = 3) ∧ fstate n s = 1 ∧ findAlign (nth s.frm n).rx.bits frameBits 0 = some p ∧ p + frameBits ≤ (nth s.frm n).rx.len) 2 0 (updFrm 2 (fun f => { f with rx := ⟨0xE4D1, 0, 90000⟩ }) (st [(LANE_DET_STATUS_state 2, 3), (FRM_LANE_STATUS_fstate 2, 1)]))) ∧
    ((fun (n : Fin 8) (p : Nat) (s : State) => (s.get (LANE_DET_STATUS_state n) = 2 ∨ s.get (LANE_DET_STATUS_state n) = 3) ∧ fstate n s = 1 ∧ findAlign (nth s.frm n).rx.bits frameBits 0 = some p ∧ p + frameBits ≤ (nth s.frm n).rx.len) 2 2 (updFrm 2 (fun f => { f with rx := ⟨4 * 0xE4D1, 0, 90000⟩ }) (st [(LANE_DET_STATUS_state 2, 2), (FRM_LANE_STATUS_fstate 2, 1)]))) ∧
    ((fun (n : Fin 8) (s : State) => (s.get (LANE_DET_STATUS_state n) = 2 ∨ s.get (LANE_DET_STATUS_state n) = 3) ∧ frameBits ≤ (nth s.frm n).rx.len ∧ fstate n s = 2 ∧ alignDiff (BitVec.ofNat 170 ((nth s.frm n).rx.part 0 frameBits).bits) = 0 ∧ (nth s.frm n).conf = 1) 2 (updFrm 2 (fun f => { f with conf := 1, rx := ⟨0xE4D1, 0, 90000⟩ }) (st [(LANE_DET_STATUS_state 2, 3), (FRM_LANE_STATUS_fstate 2, 2)]))) ∧
    ((fun (n : Fin 8) (s : State) => (s.get (LANE_DET_STATUS_state n) = 2 ∨ s.get (LANE_DET_STATUS_state n) = 3) ∧ frameBits ≤ (nth s.frm n).rx.len ∧ fstate n s = 2 ∧ 0 < alignDiff (BitVec.ofNat 170 ((nth s.frm n).rx.part 0 frameBits).bits)) 2 (updFrm 2 (fun f => { f with conf := 1, rx := ⟨0xE4D0, 0, 90000⟩ }) (st [(LANE_DET_STATUS_state 2, 3), (FRM_LANE_STATUS_fstate 2, 2)]))) ∧
    ((fun (n : Fin 8) (s : State) => (s.get (LANE_DET_STATUS_state n) = 2 ∨ s.get (LANE_DET_STATUS_state n) = 3) ∧ frameBits ≤ (nth s.frm n).rx.len ∧ fstate n s = 3 ∧ alignDiff (BitVec.ofNat 170 ((nth s.frm n).rx.part 0 frameBits).bits) ≤ 2) 2 (updFrm 2 (fun f => { f with rx := ⟨0xE4D1, 0, 90000⟩ }) (st [(LANE_DET_STATUS_state 2, 3), (FRM_LANE_STATUS_fstate 2, 3)]))) ∧
    ((fun (n : Fin 8) (s : State) => (s.get (LANE_DET_STATUS_state n) = 2 ∨ s.get (LANE_DET_STATUS_state n) = 3) ∧ frameBits ≤ (nth s.frm n).rx.len ∧ fstate n s = 3 ∧ 2 < alignDiff (BitVec.ofNat 170 ((nth s.frm n).rx.part 0 frameBits).bits) ∧ (nth s.frm n).bad = 3) 2 (updFrm 2 (fun f => { f with bad := 3, rx := ⟨0, 0, 90000⟩ }) (st [(LANE_DET_STATUS_state 2, 3), (FRM_LANE_STATUS_fstate 2, 3)]))) ∧
    ((fun (n : Fin 8) (s : State) => fstate n s = 1 ∧ s.get (LANE_DET_STATUS_state n) = 2 ∧ 4 ≤ (nth s.frm n).miss) 2 (updFrm 2 (fun f => { f with miss := 4 }) (st [(LANE_DET_STATUS_state 2, 2), (FRM_LANE_STATUS_fstate 2, 1)]))) ∧
    ((fun (n : Fin 8) (g : Fin 4) (k : Fin 4) (s : State) => rsActive n s = true ∧ (nth s.frm n).pay.len = 87040 ∧ (nth s.frm n).decoded.contains (4 * g.val + k.val) = false) 2 1 3 (updFrm 2 (fun f => { f with pay := ⟨0, 0, 87040⟩ }) (st [(FRM_LANE_STATUS_fstate 2, 3), (FRM_LANE_CTRL_map 2, 2), (FRM_FEC_CTRL_era_en 2, 0)]))) ∧
    ((fun (n : Fin 8) (g : Fin 4) (k : Fin 4) (s : State) => rsActive n s = true ∧ (nth s.frm n).pay.len = 87040 ∧ (nth s.frm n).decoded.contains (4 * g.val + k.val) = false) 2 1 3 (updFrm 2 (fun f => { f with pay := ⟨0, 0, 87040⟩ }) (st [(FRM_LANE_STATUS_fstate 2, 3), (FRM_LANE_CTRL_map 2, 2), (FRM_FEC_CTRL_era_en 2, 1)]))) ∧
    ((fun (n : Fin 8) (s : State) => rsActive n s = false) 2 .reset) ∧
    ((fun (n : Fin 8) (s : State) => s.get (FRM_FEC_CTRL_deg_thr n) * 4096 < (nth s.frm n).degSum ∧ s.on (FRM_LANE_STATUS_degraded n) = false) 2 (updFrm 2 (fun f => { f with degSum := 2 ^ 30 }) .reset)) ∧
    ((fun (n : Fin 8) (s : State) => (nth s.frm n).degSum ≤ s.get (FRM_FEC_CTRL_deg_thr n) * 4096 ∧ s.on (FRM_LANE_STATUS_degraded n) = false) 2 .reset) ∧
    ((fun (q : Rq) (n : Fin 8) (s : State) => Sent q (FRM_TX_CMD n) FRM_TX_CMD_fs 1 s ∧ txState n s = 0 ∧ s.on (FRM_LANE_CTRL_up n) = true ∧ s.on (LANE_TX_CTRL_dac_en n) = true) (.core 12 .k) 2 (st [(FRM_LANE_STATUS_tx_state 2, 0), (FRM_LANE_CTRL_up 2, 1), (LANE_TX_CTRL_dac_en 2, 1)])) ∧
    ((fun (q : Rq) (n : Fin 8) (s : State) => Sent q (FRM_TX_CMD n) FRM_TX_CMD_fs 1 s ∧ txState n s = 3) (.core 12 .k) 2 (st [(FRM_LANE_STATUS_tx_state 2, 3)])) ∧
    ((fun (q : Rq) (n : Fin 8) (s : State) => Sent q (FRM_TX_CMD n) FRM_TX_CMD_fs 1 s ∧ txState n s = 5) (.core 12 .k) 2 (st [(FRM_LANE_STATUS_tx_state 2, 5)])) ∧
    ((fun (q : Rq) (n : Fin 8) (s : State) => Sent q (FRM_TX_CMD n) FRM_TX_CMD_fs 2 s ∧ txState n s = 2) (.core 12 .k) 2 (st [(FRM_LANE_STATUS_tx_state 2, 2)])) ∧
    ((fun (q : Rq) (n : Fin 8) (s : State) => Sent q (FRM_TX_CMD n) FRM_TX_CMD_fs 2 s ∧ (txState n s = 0 ∨ txState n s = 3)) (.core 12 .k) 2 (st [(FRM_LANE_STATUS_tx_state 2, 0)])) ∧
    ((fun (n : Fin 8) (s : State) => txRuns s = true ∧ txState n s = 1 ∧ s.get (FRM_LANE_STATUS_gain n) < 255) 2 (st [(CRP_PLL_CTRL_tx_en, 1), (CRP_PLL_STAT_ready, 1), (FRM_LANE_STATUS_tx_state 2, 1), (FRM_LANE_STATUS_gain 2, 7)])) ∧
    ((fun (n : Fin 8) (s : State) => txRuns s = true ∧ txState n s = 1 ∧ s.get (FRM_LANE_STATUS_gain n) = 255) 2 (st [(CRP_PLL_CTRL_tx_en, 1), (CRP_PLL_STAT_ready, 1), (FRM_LANE_STATUS_tx_state 2, 1), (FRM_LANE_STATUS_gain 2, 255)])) ∧
    ((fun (n : Fin 8) (s : State) => txRuns s = true ∧ txState n s = 3 ∧ s.get (FRM_LANE_STATUS_gain n) = 1) 2 (st [(CRP_PLL_CTRL_tx_en, 1), (CRP_PLL_STAT_ready, 1), (FRM_LANE_STATUS_tx_state 2, 3), (FRM_LANE_STATUS_gain 2, 1)])) ∧
    ((fun (s : State) => txRuns s = false) .reset) ∧
    ((fun (q : Rq) (n : Fin 8) (s : State) => Sent q (FRM_CNT_CMD n) FRM_CNT_CMD_fs 1 s) (.core 12 .k) 2 (updFrm 2 (fun f => { f with cnt := [1, 2, 3, 4, 5, 6, 7, 8, 9, 10, 11] }) .reset)) ∧
    ((fun (s : State) => txRuns s = true) (st [(CRP_PLL_CTRL_tx_en, 1), (CRP_PLL_STAT_ready, 1), (FRM_LANE_CTRL_up 2, 1), (FRM_LANE_CTRL_map 2, 2), (FRM_LANE_CTRL_mode 2, 0)])) ∧
    ((fun (s : State) => txRuns s = false) .reset) ∧
    ((fun (n : Fin 8) (s : State) => txRuns s = true ∧ s.on (FRM_LANE_CTRL_up n) = true ∧ s.get (FRM_LANE_CTRL_mode n) = 0 ∧ s.get (FRM_LANE_CTRL_map n) = 2 ∧ blkHeld 16 s = false ∧ blkHeld n s = false ∧ (∀ m : Fin 8, m ≠ n → s.on (FRM_LANE_CTRL_up m) = false)) 2 (st [(CRP_PLL_CTRL_tx_en, 1), (CRP_PLL_STAT_ready, 1), (FRM_LANE_CTRL_up 2, 1), (FRM_LANE_CTRL_map 2, 2), (FRM_LANE_CTRL_mode 2, 0)])) ∧
    ((fun (n : Fin 8) (s : State) => txRuns s = true ∧ s.on (FRM_LANE_CTRL_up n) = true ∧ s.get (FRM_LANE_CTRL_mode n) = 0 ∧ s.get (FRM_LANE_CTRL_map n) ≠ 2 ∧ blkHeld 16 s = false ∧ blkHeld n s = false ∧ (∀ m : Fin 8, m ≠ n → s.on (FRM_LANE_CTRL_up m) = false)) 2 (st [(CRP_PLL_CTRL_tx_en, 1), (CRP_PLL_STAT_ready, 1), (FRM_LANE_CTRL_up 2, 1), (FRM_LANE_CTRL_map 2, 1), (FRM_LANE_CTRL_mode 2, 0)])) := by
  refine ⟨?_, ?_, ?_, ?_, ?_, ?_, ?_, ?_, ?_, ?_, ?_, ?_, ?_, ?_, ?_, ?_, ?_, ?_, ?_, ?_, ?_, ?_, ?_, ?_, ?_, ?_, ?_⟩ <;> (beta_reduce; decide +kernel)

theorem test_hyps_HostLaneCommands :
    ((fun (q : Rq) (n : Fin 8) (w : Word) (s : State) => Sent q (HOST_CTRL n) HOST_CTRL_fs w s ∧ wf w (HOST_CTRL_mode n) ≤ 4 ∧ wf w (HOST_CTRL_amp n) ≤ 120 ∧ (s.chg w (HOST_CTRL_mode n) = true → hostState n s = 0 ∧ hostGroup n s = none)) (.core 12 .k) 2 0 .reset) ∧
    ((fun (q : Rq) (n : Fin 8) (s : State) => Sent q (HOST_CMD n) HOST_CMD_fs 1 s ∧ (nth s.host n).cmd = none ∧ hostState n s = 0 ∧ hostMode n s ≠ 0 ∧ hostMode n s ≠ 4 ∧ s.on (HOST_CTRL_rx_en n) = true ∧ s.on (HOST_CTRL_tx_en n) = true) (.core 12 .k) 2 (st [(HOST_CTRL_mode 2, 2), (HOST_CTRL_rx_en 2, 1), (HOST_CTRL_tx_en 2, 1)])) ∧
    ((fun (q : Rq) (n : Fin 8) (s : State) => Sent q (HOST_CMD n) HOST_CMD_fs 1 s ∧ (nth s.host n).cmd = none ∧ hostState n s = 5 ∧ hostMode n s ≠ 4) (.core 12 .k) 2 (st [(HOST_CTRL_mode 2, 2), (HOST_STATUS_state 2, 5)])) ∧
    ((fun (q : Rq) (n : Fin 8) (s : State) => Sent q (HOST_CMD n) HOST_CMD_fs 1 s ∧ (nth s.host n).cmd = none ∧ hostState n s = 5 ∧ hostMode n s = 4 ∧ linkOk n s = false) (.core 12 .k) 2 (st [(HOST_CTRL_mode 2, 4), (HOST_STATUS_state 2, 5), (HOST_JESD_RX_CFG_rate 2, 5), (HOST_JESD_RX_CFG_l_log 2, 0)])) ∧
    ((fun (q : Rq) (n : Fin 8) (s : State) => Sent q (HOST_CMD n) HOST_CMD_fs 1 s ∧ (nth s.host n).cmd ≠ none) (.core 12 .k) 2 (updHost 2 (fun h => { h with cmd := some 1 }) .reset)) ∧
    ((fun (q : Rq) (n : Fin 8) (s : State) => Sent q (HOST_CMD n) HOST_CMD_fs 2 s ∧ (nth s.host n).cmd = none ∧ (hostState n s = 4 ∨ hostState n s = 5) ∧ (hostMode n s = 1 ∨ (hostMode n s = 2 ∧ s.on (HOST_CTRL_c2c n) = true))) (.core 12 .k) 2 (st [(HOST_CTRL_mode 2, 1), (HOST_STATUS_state 2, 4)])) ∧
    ((fun (q : Rq) (n : Fin 8) (s : State) => Sent q (HOST_CMD n) HOST_CMD_fs 3 s ∧ hostState n s ≠ 0) (.core 12 .k) 2 (st [(HOST_STATUS_state 2, 4)])) ∧
    ((fun (q : Rq) (n : Fin 8) (s : State) => Sent q (HOST_CMD n) HOST_CMD_fs 3 s ∧ hostState n s = 0) (.core 12 .k) 2 .reset) ∧
    ((fun (q : Rq) (n : Fin 8) (s : State) => Sent q (HOST_CMD n) HOST_CMD_fs 4 s ∧ (nth s.host n).cmd = none ∧ hostState n s = 4 ∧ hostMode n s = 4) (.core 12 .k) 2 (st [(HOST_CTRL_mode 2, 4), (HOST_STATUS_state 2, 4)])) := by
  refine ⟨?_, ?_, ?_, ?_, ?_, ?_, ?_, ?_, ?_⟩ <;> (beta_reduce; decide +kernel)

theorem test_hyps_HostLaneEvents :
    ((fun (n : Fin 8) (s : State) => hostRuns s = true ∧ hostState n s = 1 ∧ hostMode n s ≠ 4) 2 (st [(CRP_PLL_CTRL_h_en, 1), (CRP_PLL_STAT_ready, 2), (HOST_CTRL_mode 2, 2), (HOST_STATUS_state 2, 1)])) ∧
    ((fun (n : Fin 8) (s : State) => hostState n s = 1) 2 (st [(HOST_CTRL_mode 2, 2), (HOST_STATUS_state 2, 1)])) ∧
    ((fun (n : Fin 8) (s : State) => hostState n s ≠ 2) 2 .reset) ∧
    ((fun (n : Fin 8) (mark : Bool) (s : State) => hostRuns s = true ∧ hostState n s = 2 ∧ (nth s.host n).gotReady = false ∧ (mark = false ∨ (nth s.host n).marks < 2)) 2 false (st [(CRP_PLL_CTRL_h_en, 1), (CRP_PLL_STAT_ready, 2), (HOST_STATUS_state 2, 2)])) ∧
    ((fun (n : Fin 8) (mark : Bool) (s : State) => hostRuns s = true ∧ hostState n s = 2 ∧ (nth s.host n).gotReady = false ∧ (mark = false ∨ (nth s.host n).marks < 2)) 2 true (st [(CRP_PLL_CTRL_h_en, 1), (CRP_PLL_STAT_ready, 2), (HOST_STATUS_state 2, 2)])) ∧
    ((fun (n : Fin 8) (s : State) => hostRuns s = true ∧ hostState n s = 2 ∧ (nth s.host n).gotReady = false ∧ (nth s.host n).marks = 3 ∧ (nth s.host n).ctlRep = 0 ∧ (nth s.host n).stsRep = 0) 2 (updHost 2 (fun h => { h with marks := 3 }) (st [(CRP_PLL_CTRL_h_en, 1), (CRP_PLL_STAT_ready, 2), (HOST_STATUS_state 2, 2)]))) ∧
    ((fun (n : Fin 8) (s : State) => hostState n s = 2) 2 (st [(HOST_STATUS_state 2, 2)])) ∧
    ((fun (n : Fin 8) (s : State) => hostState n s = 2 ∧ (nth s.host n).wrote = false) 2 (st [(HOST_STATUS_state 2, 2)])) ∧
    ((fun (q : Rq) (n : Fin 8) (w : Word) (s : State) => Sent q (HOST_TRAIN_REQ n) HOST_TRAIN_REQ_fs w s ∧ hostState n s = 2) (.core 12 .k) 2 5 (st [(HOST_STATUS_state 2, 2)])) ∧
    ((fun (q : Rq) (n : Fin 8) (w : Word) (s : State) => Sent q (HOST_TRAIN_REQ n) HOST_TRAIN_REQ_fs w s ∧ hostState n s ≠ 2) (.core 12 .k) 2 5 .reset) ∧
    ((fun (q : Rq) (n : Fin 8) (k : Fin 5) (w : Word) (s : State) => Sent q (HOST_TX_FIR n k) HOST_TX_FIR_fs w s ∧ s.chg w (HOST_TX_FIR_value n k) = true ∧ (tapsOk (upd (hostTaps n s) k fun _ => sgn 7 (wf w (HOST_TX_FIR_value n k))) = true) ∧ hostState n s ≠ 2) (.core 12 .k) 2 3 40 .reset) ∧
    ((fun (q : Rq) (n : Fin 8) (k : Fin 5) (w : Word) (s : State) => Sent q (HOST_TX_FIR n k) HOST_TX_FIR_fs w s ∧ s.chg w (HOST_TX_FIR_value n k) = true ∧ (tapsOk (upd (hostTaps n s) k fun _ => sgn 7 (wf w (HOST_TX_FIR_value n k))) = false)) (.core 12 .k) 2 3 5 .reset) ∧
    ((fun (n : Fin 8) (s : State) => hostRuns s = true ∧ (nth s.host n).firPend = true) 2 (updHost 2 (fun h => { h with firPend := true }) (st [(CRP_PLL_CTRL_h_en, 1), (CRP_PLL_STAT_ready, 2)]))) ∧
    ((fun (n : Fin 8) (size : Fin 5) (s : State) => hostRuns s = true ∧ (size = 1 ∨ size = 2 ∨ size = 4) ∧ n.val % size.val = 0 ∧ 1 ≤ hostMode n s ∧ hostMode n s ≤ 3 ∧ (∀ j : Fin 4, j.val < size.val → hostMode (n + j.val) s = hostMode n s ∧ hostState (n + j.val) s = 4)) 2 2 (st [(CRP_PLL_CTRL_h_en, 1), (CRP_PLL_STAT_ready, 2), (HOST_CTRL_mode 2, 2), (HOST_STATUS_state 2, 4), (HOST_CTRL_mode 3, 2), (HOST_STATUS_state 3, 4)])) ∧
    ((fun (n : Fin 8) (size : Fin 5) (s : State) => hostRuns s = true ∧ (size = 1 ∨ size = 2 ∨ size = 4) ∧ n.val % size.val = 0 ∧ 1 ≤ hostMode n s ∧ hostMode n s ≤ 3 ∧ (∀ j : Fin 4, j.val < size.val → hostMode (n + j.val) s = hostMode n s ∧ hostState (n + j.val) s = 4)) 2 2 (st [(CRP_PLL_CTRL_h_en, 1), (CRP_PLL_STAT_ready, 2), (HOST_CTRL_mode 2, 2), (HOST_STATUS_state 2, 4), (HOST_CTRL_mode 3, 2), (HOST_STATUS_state 3, 4)])) ∧
    ((fun (n : Fin 8) (s : State) => hostState n s = 4) 2 (st [(HOST_STATUS_state 2, 4)])) := by
  refine ⟨?_, ?_, ?_, ?_, ?_, ?_, ?_, ?_, ?_, ?_, ?_, ?_, ?_, ?_, ?_, ?_⟩ <;> (beta_reduce; decide +kernel)

theorem test_hyps_HostLinks :
    ((fun (q : Rq) (n : Fin 8) (w : Word) (s : State) => Sent q (HOST_JESD_SYS n) HOST_JESD_SYS_fs (force w (HOST_JESD_SYS_arm n) 1) s) (.core 12 .k) 2 0 .reset) ∧
    ((fun (n : Fin 8) (got : List Bool) (s : State) => linkOf n s = some (n.val, 1) ∧ hostState n s = 3 ∧ (nth s.host n).lemc ≠ none ∧ hostRuns s = true ∧ got = [true]) 2 [true] (updHost 2 (fun h => { h with lemc := some 4 }) (st [(CRP_PLL_CTRL_h_en, 1), (CRP_PLL_STAT_ready, 2), (HOST_CTRL_mode 2, 4), (HOST_STATUS_state 2, 3), (HOST_JESD_RX_CFG_l_log 2, 0)]))) ∧
    ((fun (n : Fin 8) (got : List Bool) (s : State) => linkOf n s = some (n.val, 2) ∧ hostState n s = 3 ∧ hostState (n + 1) s = 3 ∧ n.val < 7 ∧ (nth s.host n).lemc ≠ none ∧ hostRuns s = true ∧ got = [true, false]) 2 [true, false] (updHost 2 (fun h => { h with lemc := some 4 }) (st [(CRP_PLL_CTRL_h_en, 1), (CRP_PLL_STAT_ready, 2), (HOST_CTRL_mode 2, 4), (HOST_STATUS_state 2, 3), (HOST_STATUS_state 3, 3), (HOST_JESD_RX_CFG_l_log 2, 1)]))) ∧
    ((fun (n : Fin 8) (s : State) => linkOf n s = some (n.val, 1) ∧ hostState n s = 3 ∧ s.get (HOST_JESD_SYS_sysref_mode n) ≠ 0 ∧ (nth s.host n).edge = false) 2 (st [(HOST_CTRL_mode 2, 4), (HOST_STATUS_state 2, 3), (HOST_JESD_RX_CFG_l_log 2, 0), (HOST_JESD_SYS_sysref_mode 2, 1)])) ∧
    ((fun (q : Rq) (n : Fin 8) (w : Word) (s : State) => Sent q (HOST_PAT_CTRL n) HOST_PAT_CTRL_fs (force w (HOST_PAT_CTRL_gen_en n) 1) s ∧ badPattern (hostMode n s) (wf w (HOST_PAT_CTRL_gen_pat n)) = false ∧ badPattern (hostMode n s) (wf w (HOST_PAT_CTRL_chk_pat n)) = false ∧ patBusy n s = false ∧ wf w (HOST_PAT_CTRL_chk_en n) = 1 ∧ wf w (HOST_PAT_CTRL_inject n) = 0 ∧ wf w (HOST_PAT_CTRL_snap n) = 0) (.core 12 .k) 2 (force 0 (HOST_PAT_CTRL_chk_en 2) 1) .reset) ∧
    ((fun (q : Rq) (n : Fin 8) (w : Word) (s : State) => Sent q (HOST_PAT_CTRL n) HOST_PAT_CTRL_fs (force w (HOST_PAT_CTRL_inject n) 1) s ∧ badPattern (hostMode n s) (wf w (HOST_PAT_CTRL_gen_pat n)) = false ∧ badPattern (hostMode n s) (wf w (HOST_PAT_CTRL_chk_pat n)) = false ∧ s.chg w (HOST_PAT_CTRL_gen_en n) = false ∧ wf w (HOST_PAT_CTRL_chk_en n) = 1 ∧ wf w (HOST_PAT_CTRL_snap n) = 0) (.core 12 .k) 2 (force 0 (HOST_PAT_CTRL_chk_en 2) 1) .reset) ∧
    ((fun (q : Rq) (n : Fin 8) (w : Word) (s : State) => Sent q (HOST_PAT_CTRL n) HOST_PAT_CTRL_fs (force w (HOST_PAT_CTRL_snap n) 1) s ∧ badPattern (hostMode n s) (wf w (HOST_PAT_CTRL_gen_pat n)) = false ∧ badPattern (hostMode n s) (wf w (HOST_PAT_CTRL_chk_pat n)) = false ∧ s.chg w (HOST_PAT_CTRL_gen_en n) = false ∧ wf w (HOST_PAT_CTRL_chk_en n) = 1 ∧ wf w (HOST_PAT_CTRL_inject n) = 0) (.core 12 .k) 2 (force 0 (HOST_PAT_CTRL_chk_en 2) 1) (st [(HOST_PAT_CTRL_locked 2, 1)])) ∧
    ((fun (n : Fin 8) (s : State) => hostRuns s = true ∧ s.on (HOST_PAT_CTRL_chk_en n) = true ∧ s.on (HOST_PAT_CTRL_locked n) = false) 2 (st [(HOST_PAT_CTRL_chk_en 2, 1), (CRP_PLL_CTRL_h_en, 1), (CRP_PLL_STAT_ready, 2)])) ∧
    ((fun (s : State) => hostRuns s = false) (st [(HOST_PAT_CTRL_chk_en 2, 1), (HOST_PAT_CTRL_locked 2, 1)])) ∧
    ((fun (n : Fin 8) (s : State) => hostRuns s = true ∧ s.on (HOST_PAT_CTRL_locked n) = true) 2 (st [(HOST_PAT_CTRL_locked 2, 1), (CRP_PLL_CTRL_h_en, 1), (CRP_PLL_STAT_ready, 2)])) ∧
    ((fun (n : Fin 8) (s : State) => hostRuns s = true ∧ hostState n s = 4 ∧ (nth s.host n).grp ≠ 0) 2 (updHost 2 (fun h => { h with grp := 2, ids := List.range 16 }) (st [(CRP_PLL_CTRL_h_en, 1), (CRP_PLL_STAT_ready, 2), (HOST_STATUS_state 2, 4), (HOST_CTRL_mode 2, 1)]))) ∧
    ((fun (n : Fin 8) (s : State) => ((nth s.host n).grp = 0 ∨ hostState n s ≠ 4)) 2 .reset) ∧
    ((fun (q : Rq) (n : Fin 8) (s : State) => Sent q (HOST_FEC_CMD n) HOST_FEC_CMD_fs 1 s) (.core 12 .k) 2 .reset) := by
  refine ⟨?_, ?_, ?_, ?_, ?_, ?_, ?_, ?_, ?_, ?_, ?_, ?_, ?_⟩ <;> (beta_reduce; decide +kernel)

theorem test_hyps_BandPorts :
    ((fun (q : Rq) (out : Bool) (p : Fin 1024) (w : Word) (s : State) => (Sent q (if out then BND_POUT p else BND_PIN p) (if out then BND_POUT_fs else BND_PIN_fs) (force w (BND_PIN_en p) 1) s) ∧ (bit (s.rd (if out then BND_POUT p else BND_PIN p)) 0 = false) ∧ wf w (BND_PIN_kind p) ≠ 3 ∧ wf w (BND_PIN_rate p) ≤ 5 ∧ (out = true → wf w (BND_POUT_src p) ≠ 3) ∧ (portSourceOk out p (force w (BND_PIN_en p) 1) (request q (if out then BND_POUT p else BND_PIN p) s) = true)) (.core 12 .k) false 3 (force (force 0 (BND_PIN_kind 3) 1) (BND_PIN_lane 3) 2) (st [(FRM_RCTR_en 2 0, 1)])) ∧
    ((fun (q : Rq) (out : Bool) (p : Fin 1024) (w : Word) (s : State) => (Sent q (if out then BND_POUT p else BND_PIN p) (if out then BND_POUT_fs else BND_PIN_fs) (force w (BND_PIN_en p) 1) s) ∧ (wf w (BND_PIN_kind p) = 3 ∨ 5 < wf w (BND_PIN_rate p))) (.core 12 .k) false 3 (force 0 (BND_PIN_kind 3) 3) .reset) ∧
    ((fun (q : Rq) (out : Bool) (p : Fin 1024) (w : Word) (s : State) => (Sent q (if out then BND_POUT p else BND_PIN p) (if out then BND_POUT_fs else BND_PIN_fs) (force w (BND_PIN_en p) 0) s) ∧ (bit (s.rd (if out then BND_POUT p else BND_PIN p)) 0 = true) ∧ ((mergeWord (if out then BND_POUT_fs else BND_PIN_fs) (s.rd (if out then BND_POUT p else BND_PIN p)) (force w (BND_PIN_en p) 0) false).toNat / 2 = (s.rd (if out then BND_POUT p else BND_PIN p)).toNat / 2) ∧ wf w (BND_PIN_kind p) ≠ 3 ∧ wf w (BND_PIN_rate p) ≤ 5 ∧ (out = true → wf w (BND_POUT_src p) ≠ 3) ∧ portNamed out p s = false) (.core 12 .k) true 3 0 (st [(BND_POUT_en 3, 1)])) ∧
    ((fun (q : Rq) (out : Bool) (p : Fin 1024) (w : Word) (s : State) => (Sent q (if out then BND_POUT p else BND_PIN p) (if out then BND_POUT_fs else BND_PIN_fs) (force w (BND_PIN_en p) 0) s) ∧ (bit (s.rd (if out then BND_POUT p else BND_PIN p)) 0 = true) ∧ ((mergeWord (if out then BND_POUT_fs else BND_PIN_fs) (s.rd (if out then BND_POUT p else BND_PIN p)) (force w (BND_PIN_en p) 0) false).toNat / 2 = (s.rd (if out then BND_POUT p else BND_PIN p)).toNat / 2) ∧ wf w (BND_PIN_kind p) ≠ 3 ∧ wf w (BND_PIN_rate p) ≤ 5 ∧ (out = true → wf w (BND_POUT_src p) ≠ 3) ∧ portNamed out p s = false) (.core 12 .k) false 3 0 (st [(BND_PIN_en 3, 1)])) ∧
    ((fun (q : Rq) (k : Fin 128) (w : Word) (s : State) => Sent q (BND_PATH_GAIN k) BND_PATH_GAIN_fs w s ∧ s.chg w (BND_PATH_GAIN_gain k) = true ∧ wf w (BND_PATH_GAIN_gain k) * (nth s.rpt k).a ≤ 65536 * gainBound (pathDir k) s) (.core 12 .k) 3 7 (st [(GRD_GAIN_work 0, 1000)])) ∧
    ((fun (q : Rq) (k : Fin 128) (w : Word) (s : State) => Sent q (BND_PATH_GAIN k) BND_PATH_GAIN_fs w s ∧ s.chg w (BND_PATH_GAIN_gain k) = true ∧ 65536 * gainBound (pathDir k) s < wf w (BND_PATH_GAIN_gain k) * (nth s.rpt k).a) (.core 12 .k) 3 7 { st [(GRD_GAIN_work 0, 0)] with rpt := upd State.reset.rpt 3 fun r => { r with a := 65536 } }) ∧
    ((fun (q : Rq) (k : Fin 128) (w : Word) (s : State) => Sent q (BND_PATH_CF k) BND_PATH_CF_fs (force w (BND_PATH_CF_commit k) 1) s ∧ wf w (BND_PATH_CF_fade_len k) ≤ 8 ∧ s.on (BND_PATH_CF_fading k) = false ∧ commitOk k (wf w (BND_PATH_CF_n_taps k)) (wf w (BND_PATH_CF_mode k)) s = true) (.core 12 .k) 3 (force 0 (BND_PATH_CF_n_taps 3) 3) (st [(BND_PATH_STAT_state 3, 2)])) ∧
    ((fun (q : Rq) (k : Fin 128) (w : Word) (s : State) => Sent q (BND_PATH_CF k) BND_PATH_CF_fs (force w (BND_PATH_CF_commit k) 1) s ∧ wf w (BND_PATH_CF_fade_len k) ≤ 8 ∧ s.on (BND_PATH_CF_fading k) = false ∧ commitOk k (wf w (BND_PATH_CF_n_taps k)) (wf w (BND_PATH_CF_mode k)) s = true) (.core 12 .k) 3 (force 0 (BND_PATH_CF_n_taps 3) 3) .reset) ∧
    ((fun (q : Rq) (k : Fin 128) (w : Word) (s : State) => Sent q (BND_PATH_CF k) BND_PATH_CF_fs (force w (BND_PATH_CF_commit k) 1) s ∧ wf w (BND_PATH_CF_fade_len k) ≤ 8 ∧ s.on (BND_PATH_CF_fading k) = false ∧ commitOk k (wf w (BND_PATH_CF_n_taps k)) (wf w (BND_PATH_CF_mode k)) s = false) (.core 12 .k) 3 0 .reset) ∧
    ((fun (k : Fin 128) (s : State) => s.on (BND_PATH_CF_fading k) = true ∧ admState k s = 2) 3 (st [(BND_PATH_CF_fading 3, 1), (BND_PATH_STAT_state 3, 2)])) ∧
    ((fun (k : Fin 128) (s : State) => (s.on (BND_PATH_CF_fading k) = false ∨ admState k s ≠ 2)) 3 .reset) ∧
    ((fun (q : Rq) (k : Fin 128) (s : State) => Sent q (BND_PATH_CXCMD k) BND_PATH_CXCMD_fs 1 s ∧ (s.get (BND_PATH_CFG_hb k) = 0 ∨ ∀ c : Fin 8, s.on (BND_PATH_CXL_en k c) = false) ∧ (∀ c : Fin 8, s.on (BND_PATH_CXL_en k c) = true → 1 ≤ s.get (BND_PATH_CXL_delay k c) ∧ s.get (BND_PATH_CXL_delay k c) ≤ 4032)) (.core 12 .k) 3 .reset) := by
  refine ⟨?_, ?_, ?_, ?_, ?_, ?_, ?_, ?_, ?_, ?_, ?_, ?_⟩ <;> (beta_reduce; decide +kernel)

theorem test_hyps_Admission :
    ((fun (q : Rq) (k : Fin 128) (s : State) => Sent q (BND_PATH_CMD k) BND_PATH_CMD_fs 1 s ∧ admState k s = 0 ∧ cfgOk k s = true ∧ neverFits (pathDir k) (pathClass k s) (pathLoad k s) s = false ∧ fitsNow (pathDir k) (pathClass k s) (pathLoad k s) s = true ∧ queuedPaths (pathDir k) s = []) (.core 12 .k) 3 (st [(BND_PIN_en 0, 1), (BND_POUT_en 0, 1), (BND_POUT_src 0, 2)])) ∧
    ((fun (q : Rq) (k : Fin 128) (s : State) => Sent q (BND_PATH_CMD k) BND_PATH_CMD_fs 1 s ∧ admState k s ≠ 0) (.core 12 .k) 3 (st [(BND_PATH_STAT_state 3, 2)])) ∧
    ((fun (q : Rq) (k : Fin 128) (s : State) => Sent q (BND_PATH_CMD k) BND_PATH_CMD_fs 1 s ∧ admState k s = 0 ∧ cfgOk k s = true ∧ neverFits (pathDir k) (pathClass k s) (pathLoad k s) s = true) (.core 12 .k) 3 ((st [(BND_PIN_en 0, 1), (BND_POUT_en 0, 1), (BND_POUT_src 0, 2)]).wr (BND_ADM_RES 0) 0x8000)) ∧
    ((fun (q : Rq) (k : Fin 128) (s : State) => Sent q (BND_PATH_CMD k) BND_PATH_CMD_fs 2 s ∧ admState k s = 2) (.core 12 .k) 3 (st [(BND_PATH_STAT_state 3, 2)])) ∧
    ((fun (q : Rq) (k : Fin 128) (s : State) => Sent q (BND_PATH_CMD k) BND_PATH_CMD_fs 2 s ∧ admState k s = 1 ∧ (nth s.bnd k).admWait = true) (.core 12 .k) 3 (updBnd 3 (fun p => { p with admWait := true }) (st [(BND_PATH_STAT_state 3, 1)]))) ∧
    ((fun (k : Fin 128) (s : State) => admState k s = 3 ∧ s.on (BND_PATH_STAT_evicted k) = false) 3 (st [(BND_PATH_STAT_state 3, 3)])) ∧
    ((fun (k : Fin 128) (s : State) => admState k s = 3 ∧ s.on (BND_PATH_STAT_evicted k) = true) 3 (st [(BND_PATH_STAT_state 3, 3), (BND_PATH_STAT_evicted 3, 1)])) ∧
    ((fun (s : State) => bndHeld s = false) .reset) ∧
    ((fun (q : Rq) (r : Fin 3) (w : Word) (s : State) => r ≠ 2 ∧ Sent q (BND_ADM_RES r) BND_ADM_RES_fs w s ∧ fieldOf w 0 8 + fieldOf w 8 8 + fieldOf w 16 8 + fieldOf w 24 8 ≤ 128 ∧ queuedPaths r s = []) (.core 12 .k) 1 0x01020304 .reset) ∧
    ((fun (q : Rq) (w : Word) (s : State) => Sent q BND_ADM_THR BND_ADM_THR_fs w s ∧ (32 ≤ wf w BND_ADM_THR_thr_dl ∧ wf w BND_ADM_THR_thr_dl ≤ 512) ∧ (32 ≤ wf w BND_ADM_THR_thr_ul ∧ wf w BND_ADM_THR_thr_ul ≤ 512)) (.core 12 .k) (force (force 0 BND_ADM_THR_thr_dl 256) BND_ADM_THR_thr_ul 256) .reset) ∧
    ((fun (q : Rq) (w : Word) (s : State) => Sent q BND_ADM_THR BND_ADM_THR_fs w s ∧ (wf w BND_ADM_THR_thr_dl < 32 ∨ 512 < wf w BND_ADM_THR_thr_ul)) (.core 12 .k) 0 .reset) := by
  refine ⟨?_, ?_, ?_, ?_, ?_, ?_, ?_, ?_, ?_, ?_, ?_⟩ <;> (beta_reduce; decide +kernel)

theorem test_hyps_BandTimeAndMeasurement :
    ((fun (low : Bool) (s : State) => bndHeld s = false ∧ (s.bsync.stuck = false ∨ low = true) ∧ s.get BND_SYNC_CTRL_mode = 0) true .reset) ∧
    ((fun (low : Bool) (s : State) => bndHeld s = false ∧ (s.bsync.stuck = false ∨ low = true) ∧ s.get BND_SYNC_CTRL_mode = 2) true (st [(BND_SYNC_CTRL_mode, 2)])) ∧
    ((fun (s : State) => bndHeld s = false) .reset) ∧
    ((fun (s : State) => bndHeld s = false ∧ s.bsync.stuck = false) .reset) ∧
    ((fun (q : Rq) (w : Word) (s : State) => Sent q BND_SYNC_CTRL BND_SYNC_CTRL_fs (force w BND_SYNC_CTRL_arm 1) s ∧ wf w BND_SYNC_CTRL_mode ≠ 3 ∧ wf w BND_SYNC_CTRL_stuck_ms ≠ 0 ∧ wf w BND_SYNC_CTRL_ev_gap ≠ 0) (.core 12 .k) (force (force 0 BND_SYNC_CTRL_stuck_ms 1) BND_SYNC_CTRL_ev_gap 1) .reset) ∧
    ((fun (q : Rq) (w : Word) (s : State) => Sent q BND_SYNC_CMD BND_SYNC_CMD_fs w s ∧ s.bsync.cmd = none) (.core 12 .k) 77 .reset) ∧
    ((fun (s : State) (t : Nat) => s.bsync.cmd = some t ∧ s.bsync.edges = []) { State.reset with bsync := { cmd := some 77 } } 77) ∧
    ((fun (k : Fin 128) (m : MtrWin) (l : List MtrWin) (s : State) => (nth s.bnd k).mtrs = m :: l) 3 { mOut := ⟨16, 5, 6⟩, mIn := ⟨16, 7, 8⟩ } [] (updBnd 3 (fun p => { p with mtrs := [{ mOut := ⟨16, 5, 6⟩, mIn := ⟨16, 7, 8⟩ }] }) (st [(BND_PATH_STAT_state 3, 2)]))) ∧
    ((fun (k : Fin 128) (s : State) => (nth s.bnd k).mtrs = []) 3 .reset) ∧
    ((fun (q : Rq) (w : Word) (s : State) => Sent q BND_MEAS_CTRL BND_MEAS_CTRL_fs (force w BND_MEAS_CTRL_run 1) s ∧ s.on BND_MEAS_CTRL_busy = false ∧ wf w BND_MEAS_CTRL_len ≤ 12 ∧ measSame (wf w BND_MEAS_CTRL_ch_en) s = true) (.core 12 .k) 0 { State.reset with bandTime := 77 }) ∧
    ((fun (q : Rq) (w : Word) (s : State) => Sent q BND_MEAS_CTRL BND_MEAS_CTRL_fs (force w BND_MEAS_CTRL_run 1) s ∧ s.on BND_MEAS_CTRL_busy = true) (.core 12 .k) 0 (st [(BND_MEAS_CTRL_busy, 1)])) ∧
    ((fun (q : Rq) (w : Word) (s : State) => Sent q BND_MEAS_CTRL BND_MEAS_CTRL_fs (force w BND_MEAS_CTRL_run 1) s ∧ s.on BND_MEAS_CTRL_busy = false ∧ wf w BND_MEAS_CTRL_len ≤ 12 ∧ measSame (wf w BND_MEAS_CTRL_ch_en) s = false) (.core 12 .k) (force 0 BND_MEAS_CTRL_ch_en 3) (st [(BND_MEAS_SRC_path 1, 1), (BND_PATH_CFG_rate_in 1, 3)])) ∧
    ((fun (s : State) => s.on BND_MEAS_CTRL_busy = true ∧ measReady s = true) { st [(BND_MEAS_CTRL_busy, 1), (BND_MEAS_CTRL_ch_en, 1)] with meas := { ch := [⟨256, 5, 6⟩], t0 := some 9 } }) ∧
    ((fun (s : State) => (s.on BND_MEAS_CTRL_busy = false ∨ measReady s = false)) .reset) ∧
    ((fun (q : Rq) (s : State) => Reads q BND_SYNC_STAT s) (.core 12 .k) (st [(BND_SYNC_STAT_edges, 4)])) ∧
    ((fun (q : Rq) (k : Fin 128) (s : State) => Reads q (BND_PATH_SAT k) s) (.core 12 .k) 3 (st [(BND_PATH_SAT_count 3, 4)])) ∧
    ((fun (q : Rq) (s : State) => Reads q BND_TIME_L s) (.core 12 .k) { State.reset with bandTime := 2 ^ 40 + 5 }) := by
  refine ⟨?_, ?_, ?_, ?_, ?_, ?_, ?_, ?_, ?_, ?_, ?_, ?_, ?_, ?_, ?_, ?_, ?_⟩ <;> (beta_reduce; decide +kernel)

theorem test_hyps_RepeaterCommands :
    ((fun (q : Rq) (k : Fin 128) (s : State) => Sent q (RPT_PATH_CMD k) RPT_PATH_CMD_fs 1 s ∧ rptBarred q k s = false ∧ rptState k s = 0 ∧ admState k s = 2 ∧ s.on (RPT_PATH_STAT_arm_pend k) = false ∧ (nth s.rpt k).oscHold = false ∧ (retakeCauses k (causeOff k cNoise (causeOff k cCeil (causeOff k cCmd (request q (RPT_PATH_CMD k) s))))).get (RPT_PATH_STAT_causes k) = 0) (.core 12 .k) 3 (st [(BND_PATH_STAT_state 3, 2)])) ∧
    ((fun (q : Rq) (k : Fin 128) (s : State) => Sent q (RPT_PATH_CMD k) RPT_PATH_CMD_fs 1 s ∧ rptBarred q k s = false ∧ rptState k s = 5 ∧ s.on (RPT_PATH_STAT_arm_pend k) = false ∧ (nth s.rpt k).oscHold = false ∧ (causeOff k cNoise (causeOff k cCeil (causeOff k cCmd (request q (RPT_PATH_CMD k) s)))).get (RPT_PATH_STAT_causes k) = 0) (.core 12 .k) 3 (st [(RPT_PATH_STAT_state 3, 5), (RPT_PATH_STAT_causes 3, 1)])) ∧
    ((fun (q : Rq) (k : Fin 128) (s : State) => Sent q (RPT_PATH_CMD k) RPT_PATH_CMD_fs 1 s ∧ rptBarred q k s = false ∧ rptState k s = 5 ∧ s.on (RPT_PATH_STAT_arm_pend k) = false ∧ ((nth s.rpt k).oscHold = true ∨ (causeOff k cNoise (causeOff k cCeil (causeOff k cCmd (request q (RPT_PATH_CMD k) s)))).get (RPT_PATH_STAT_causes k) ≠ 0)) (.core 12 .k) 3 (st [(RPT_PATH_STAT_state 3, 5), (RPT_PATH_STAT_causes 3, 16)])) ∧
    ((fun (q : Rq) (k : Fin 128) (s : State) => Sent q (RPT_PATH_CMD k) RPT_PATH_CMD_fs 1 s ∧ rptBarred q k s = false ∧ rptState k s = 5 ∧ s.on (RPT_PATH_STAT_arm_pend k) = false ∧ ((nth s.rpt k).oscHold = true ∨ (causeOff k cNoise (causeOff k cCeil (causeOff k cCmd (request q (RPT_PATH_CMD k) s)))).get (RPT_PATH_STAT_causes k) ≠ 0)) (.core 12 .k) 3 (updRpt 3 (fun r => { r with oscHold := true }) (st [(RPT_PATH_STAT_state 3, 5)]))) ∧
    ((fun (q : Rq) (k : Fin 128) (s : State) => Sent q (RPT_PATH_CMD k) RPT_PATH_CMD_fs 1 s ∧ rptBarred q k s = false ∧ rptState k s = 0 ∧ admState k s = 2 ∧ s.on (RPT_PATH_STAT_arm_pend k) = false ∧ ((nth s.rpt k).oscHold = true ∨ (retakeCauses k (causeOff k cNoise (causeOff k cCeil (causeOff k cCmd (request q (RPT_PATH_CMD k) s))))).get (RPT_PATH_STAT_causes k) ≠ 0)) (.core 12 .k) 3 { st [(BND_PATH_STAT_state 3, 2)] with muteN := true }) ∧
    ((fun (q : Rq) (k : Fin 128) (s : State) => Sent q (RPT_PATH_CMD k) RPT_PATH_CMD_fs 1 s ∧ rptBarred q k s = false ∧ 1 ≤ rptState k s ∧ rptState k s ≤ 3 ∧ s.on (RPT_PATH_STAT_arm_pend k) = false) (.core 12 .k) 3 (st [(RPT_PATH_STAT_state 3, 2)])) ∧
    ((fun (q : Rq) (k : Fin 128) (s : State) => Sent q (RPT_PATH_CMD k) RPT_PATH_CMD_fs 1 s ∧ rptBarred q k s = false ∧ rptState k s = 4 ∧ s.on (RPT_PATH_STAT_arm_pend k) = false) (.core 12 .k) 3 (st [(RPT_PATH_STAT_state 3, 4)])) ∧
    ((fun (q : Rq) (k : Fin 128) (s : State) => Sent q (RPT_PATH_CMD k) RPT_PATH_CMD_fs 1 s ∧ rptBarred q k s = false ∧ (s.on (RPT_PATH_STAT_arm_pend k) = true ∨ rptState k s = 6 ∨ (rptState k s = 0 ∧ admState k s ≠ 2))) (.core 12 .k) 3 .reset) ∧
    ((fun (q : Rq) (k : Fin 128) (s : State) => Sent q (RPT_PATH_CMD k) RPT_PATH_CMD_fs 1 s ∧ rptBarred q k s = false ∧ (s.on (RPT_PATH_STAT_arm_pend k) = true ∨ rptState k s = 6 ∨ (rptState k s = 0 ∧ admState k s ≠ 2))) (.core 12 .k) 3 (st [(RPT_PATH_STAT_state 3, 6)])) ∧
    ((fun (q : Rq) (k : Fin 128) (s : State) => Sent q (RPT_PATH_CMD k) RPT_PATH_CMD_fs 1 s ∧ rptBarred q k s = false ∧ (s.on (RPT_PATH_STAT_arm_pend k) = true ∨ rptState k s = 6 ∨ (rptState k s = 0 ∧ admState k s ≠ 2))) (.core 12 .k) 3 (st [(RPT_PATH_STAT_arm_pend 3, 1)])) ∧
    ((fun (q : Rq) (k : Fin 128) (s : State) => Sent q (RPT_PATH_CMD k) RPT_PATH_CMD_fs 1 s ∧ rptBarred q k s = true) (.core 9 .s) 3 .reset) ∧
    ((fun (q : Rq) (k : Fin 128) (s : State) => Sent q (RPT_PATH_CMD k) RPT_PATH_CMD_fs 2 s ∧ rptBarred q k s = false ∧ rptState k s ≠ 0 ∧ rptState k s ≠ 6) (.core 12 .k) 3 (st [(RPT_PATH_STAT_state 3, 2)])) ∧
    ((fun (q : Rq) (k : Fin 128) (s : State) => Sent q (RPT_PATH_CMD k) RPT_PATH_CMD_fs 3 s ∧ rptBarred q k s = false ∧ (rptState k s = 5 ∨ rptState k s = 6)) (.core 12 .k) 3 (st [(RPT_PATH_STAT_state 3, 5)])) ∧
    ((fun (q : Rq) (k : Fin 128) (s : State) => Sent q (RPT_PATH_CMD k) RPT_PATH_CMD_fs 4 s ∧ rptBarred q k s = false ∧ rptState k s = 6) (.core 12 .k) 3 (st [(RPT_PATH_STAT_state 3, 6)])) ∧
    ((fun (q : Rq) (k : Fin 128) (s : State) => Sent q (RPT_PATH_CMD k) RPT_PATH_CMD_fs 4 s ∧ rptBarred q k s = false ∧ rptState k s ≠ 6) (.core 12 .k) 3 .reset) ∧
    ((fun (q : Rq) (k : Fin 128) (s : State) => Sent q (RPT_PATH_CMD k) RPT_PATH_CMD_fs 2 s ∧ rptBarred q k s = false ∧ (rptState k s = 0 ∨ rptState k s = 6)) (.core 12 .k) 3 (st [(RPT_PATH_STAT_state 3, 6)])) ∧
    ((fun (q : Rq) (k : Fin 128) (s : State) => Sent q (RPT_PATH_CMD k) RPT_PATH_CMD_fs 2 s ∧ rptBarred q k s = false ∧ (rptState k s = 0 ∨ rptState k s = 6)) (.core 12 .k) 3 .reset) ∧
    ((fun (q : Rq) (k : Fin 128) (s : State) => Sent q (RPT_PATH_CMD k) RPT_PATH_CMD_fs 3 s ∧ rptBarred q k s = false ∧ rptState k s ≠ 5 ∧ rptState k s ≠ 6) (.core 12 .k) 3 .reset) ∧
    ((fun (q : Rq) (k : Fin 128) (s : State) => Sent q (RPT_PATH_CMD k) RPT_PATH_CMD_fs 2 s ∧ rptBarred q k s = true) (.core 9 .s) 3 .reset) ∧
    ((fun (q : Rq) (k : Fin 128) (s : State) => Sent q (RPT_PATH_CMD k) RPT_PATH_CMD_fs 3 s ∧ rptBarred q k s = true) (.core 9 .s) 3 .reset) ∧
    ((fun (q : Rq) (k : Fin 128) (s : State) => Sent q (RPT_PATH_CMD k) RPT_PATH_CMD_fs 4 s ∧ rptBarred q k s = true) (.core 9 .s) 3 .reset) ∧
    ((fun (k : Fin 128) (s : State) => rptState k s = 1 ∧ (nth s.rpt k).r = 0) 3 { st [(RPT_PATH_STAT_state 3, 1)] with rpt := upd State.reset.rpt 3 fun r => { r with r := 0 } }) ∧
    ((fun (k : Fin 128) (s : State) => rptState k s = 4 ∧ (nth s.rpt k).r = 57600) 3 (st [(RPT_PATH_STAT_state 3, 4)])) ∧
    ((fun (k : Fin 128) (s : State) => rptState k s = 5 ∧ s.get (RPT_PATH_STAT_causes k) = 0 ∧ (nth s.rpt k).oscHold = false ∧ (s.on (RPT_PATH_STAT_arm_pend k) = true ∨ autoAllowed k s = true)) 3 (st [(RPT_PATH_STAT_state 3, 5), (RPT_PATH_STAT_arm_pend 3, 1)])) ∧
    ((fun (s : State) => rptHeld s = false ∧ bandRuns s = true) (st [(CRP_PLL_CTRL_b_en, 1), (CRP_PLL_STAT_ready, 8)])) ∧
    ((fun (k : Fin 128) (s : State) => k.val < s.rpt.length) 3 (st [(RPT_PATH_STAT_state 3, 1)])) := by
  refine ⟨?_, ?_, ?_, ?_, ?_, ?_, ?_, ?_, ?_, ?_, ?_, ?_, ?_, ?_, ?_, ?_, ?_, ?_, ?_, ?_, ?_, ?_, ?_, ?_, ?_, ?_⟩ <;> (beta_reduce; decide +kernel)

theorem test_hyps_RepeaterProtection :
    ((fun (k : Fin 128) (s : State) => rptState k s ≠ 0 ∧ s.get (RPT_PATH_APP_iso_app k) < s.get (RPT_PATH_ISO_iso k)) 3 (st [(RPT_PATH_STAT_state 3, 2), (RPT_PATH_ISO_iso 3, 5)])) ∧
    ((fun (k : Fin 128) (s : State) => s.on (RPT_PATH_ISO_conv k) = true ∧ clusterActive k s = true ∧ s.get (RPT_PATH_APP_credit_app k) < min 480 (s.get (RPT_PATH_ISO_credit k))) 3 (st [(RPT_PATH_ISO_conv 3, 1), (RPT_PATH_ISO_credit 3, 5), (BND_PATH_CXL_act_en 3 2, 1)])) ∧
    ((fun (k : Fin 128) (s : State) => (nth s.bnd k).oscs = []) 3 .reset) ∧
    ((fun (k : Fin 128) (m : MtrWin) (l : List MtrWin) (s : State) => (nth s.bnd k).oscs = m :: l ∧ (rptState k s = 0 ∨ 5 ≤ rptState k s)) 3 {} [] (updBnd 3 (fun p => { p with oscs := [{}] }) .reset)) ∧
    ((fun (k : Fin 128) (m : MtrWin) (l : List MtrWin) (s : State) => (nth s.bnd k).oscs = m :: l ∧ m.edge = true ∧ 1 ≤ rptState k s ∧ rptState k s ≤ 4) 3 { edge := true } [] (updBnd 3 (fun p => { p with oscs := [{ edge := true }] }) (st [(RPT_PATH_STAT_state 3, 2)]))) ∧
    ((fun (k : Fin 128) (m : MtrWin) (l : List MtrWin) (s : State) => (nth s.bnd k).oscs = m :: l ∧ m.edge = false ∧ 1 ≤ rptState k s ∧ rptState k s ≤ 4 ∧ clusterActive k s = false ∧ m.mOut.n < 16 * m.sat ∧ (nth s.rpt k).satRun = 1 ∧ k.val < s.rpt.length) 3 { mOut := ⟨16, 5, 6⟩, sat := 2 } [] (updBnd 3 (fun p => { p with oscs := [{ mOut := ⟨16, 5, 6⟩, sat := 2 }] }) { st [(RPT_PATH_STAT_state 3, 2)] with rpt := upd State.reset.rpt 3 fun r => { r with satRun := 1 } })) ∧
    ((fun (k : Fin 128) (m : MtrWin) (l : List MtrWin) (s : State) => (nth s.bnd k).oscs = m :: l ∧ m.edge = false ∧ 1 ≤ rptState k s ∧ rptState k s ≤ 4 ∧ clusterActive k s = true ∧ 64 * (s.get (RPT_PATH_OSC_res_lim k) : Int) < m.mRes.levels.1 - m.mIn.levels.1 ∧ (nth s.rpt k).resRun = 1 ∧ 16 * m.sat ≤ m.mOut.n ∧ k.val < s.rpt.length) 3 { mRes := ⟨16, 2 ^ 30, 6⟩ } [] (updBnd 3 (fun p => { p with oscs := [{ mRes := ⟨16, 2 ^ 30, 6⟩ }] }) { st [(RPT_PATH_STAT_state 3, 2), (BND_PATH_CXL_act_en 3 0, 1)] with rpt := upd State.reset.rpt 3 fun r => { r with resRun := 1 } })) ∧
    ((fun (k : Fin 128) (s : State) => (nth s.rpt k).oscHold = true) 3 (updRpt 3 (fun r => { r with oscHold := true }) .reset)) ∧
    ((fun (p : Fin 1024) (s : State) => sumPort p s = true ∧ ceilInForce p s < ceilMean p s ∧ rptHeld s = false) 3 (st [(BND_POUT_en 3, 1), (BND_POUT_src 3, 2), (RPT_CEIL_ceil, 0x8000)])) ∧
    ((fun (p : Fin 1024) (s : State) => sumPort p s = true ∧ ceilInForce p s < ceilMean p s ∧ rptHeld s = false) 3 { st [(BND_POUT_en 3, 1), (BND_POUT_src 3, 2), (RPT_CEIL_ceil, 0x8000)] with ceilRun := [(3, -20000)] }) ∧
    ((fun (p : Fin 1024) (s : State) => ceilMean p s ≤ ceilInForce p s) 3 { st [(BND_POUT_en 3, 1), (BND_POUT_src 3, 2), (RPT_CEIL_ceil, 5)] with ceilRun := [(3, 7)] }) ∧
    ((fun (p : Fin 1024) (s : State) => sumPort p s = true ∧ p.val ∉ s.ceilNear ∧ rptHeld s = false) 3 (st [(BND_POUT_en 3, 1), (BND_POUT_src 3, 2), (RPT_CEIL_ceil, 5)])) ∧
    ((fun (p : Fin 1024) (s : State) => p.val ∈ s.ceilNear) 3 { st [(BND_POUT_en 3, 1), (BND_POUT_src 3, 2)] with ceilNear := [3] }) ∧
    ((fun (k : Fin 128) (s : State) => 0 < (nth s.rpt k).cl) 3 (updRpt 3 (fun r => { r with cl := 4 }) .reset)) ∧
    ((fun (k : Fin 128) (s : State) => s.on (LST_NF_valid (s.get (RPT_PATH_CFG_donor k))) = false) 3 .reset) ∧
    ((fun (k : Fin 128) (s : State) => lMin k s = none) 3 .reset) ∧
    ((fun (k : Fin 128) (l : Int) (s : State) => lMin k s = some l ∧ nrActive k (nrsRefresh k s) = true ∧ riseAbove (noiseGap k l (nrsRefresh k s)) (s.get (RPT_PATH_NR_limit k)) = true ∧ nrSpaced k s = true ∧ (nth s.rpt k).nr + 16 * s.get (RPT_PATH_NR_nr_step k) ≤ 16 * s.get (RPT_PATH_NR_nr_max k)) 3 640 (updRpt 3 (fun r => { r with levels := List.replicate 16 640, nrRun := 16 }) (st [(RPT_PATH_STAT_state 3, 2), (RPT_PATH_CFG_nr_en 3, 1), (LST_NF_valid 0, 1)]))) ∧
    ((fun (k : Fin 128) (s : State) => (nth s.rpt k).low = true ∧ nrActive k s = true ∧ nrSpaced k s = true) 3 (updRpt 3 (fun r => { r with low := true, nr := 32, nrRun := 16 }) (st [(RPT_PATH_STAT_state 3, 3), (RPT_PATH_CFG_nr_en 3, 1), (RPT_PATH_NRS_floor_valid 3, 1)]))) ∧
    ((fun (k : Fin 128) (s : State) => (nth s.rpt k).lost = true) 3 (updRpt 3 (fun r => { r with lost := true }) .reset)) ∧
    ((fun (q : Rq) (w : Word) (s : State) => Sent q RPT_CEIL RPT_CEIL_fs w s ∧ sgn 16 (wf w RPT_CEIL_ceil) = s.geti RPT_CEIL_ceil) (.core 12 .k) (force 0 RPT_CEIL_ceil 5) (st [(RPT_CEIL_ceil, 5)])) ∧
    ((fun (q : Rq) (w : Word) (s : State) => Sent q RPT_CEIL RPT_CEIL_fs w s ∧ sgn 16 (wf w RPT_CEIL_ceil) ≤ s.geti RPT_CEIL_ceil_attic ∧ sgn 16 (wf w RPT_CEIL_ceil) < s.geti RPT_CEIL_ceil) (.core 12 .k) (force 0 RPT_CEIL_ceil 4) (st [(RPT_CEIL_ceil, 5), (RPT_CEIL_ceil_attic, 5)])) ∧
    ((fun (q : Rq) (w : Word) (s : State) => Sent q RPT_CEIL RPT_CEIL_fs w s ∧ sgn 16 (wf w RPT_CEIL_ceil) ≤ s.geti RPT_CEIL_ceil_attic ∧ s.geti RPT_CEIL_ceil < sgn 16 (wf w RPT_CEIL_ceil) ∧ s.on GRD_CTRL_lock = false) (.core 12 .k) (force 0 RPT_CEIL_ceil 6) (st [(RPT_CEIL_ceil, 5), (RPT_CEIL_ceil_attic, 7)])) ∧
    ((fun (q : Rq) (w : Word) (s : State) => Sent q RPT_CEIL RPT_CEIL_fs w s ∧ sgn 16 (wf w RPT_CEIL_ceil) ≠ s.geti RPT_CEIL_ceil ∧ (s.geti RPT_CEIL_ceil_attic < sgn 16 (wf w RPT_CEIL_ceil) ∨ (s.geti RPT_CEIL_ceil < sgn 16 (wf w RPT_CEIL_ceil) ∧ s.on GRD_CTRL_lock = true))) (.core 12 .k) 0x7FFF .reset) ∧
    ((fun (s : State) => s.muteN = false ∧ rptHeld s = false) .reset) ∧
    ((fun (s : State) => s.muteN = true ∧ rptHeld s = false) { State.reset with muteN := true }) ∧
    ((fun (s : State) => rptHeld s = false) .reset) ∧
    ((fun (s : State) => s.muteN = true ∧ s.muteStuck = false ∧ rptHeld s = false) { State.reset with muteN := true }) ∧
    ((fun (q : Rq) (s : State) => Reads q RPT_MUTE_CNT s) (.core 12 .k) (st [(RPT_MUTE_CNT_asserts, 2)])) := by
  refine ⟨?_, ?_, ?_, ?_, ?_, ?_, ?_, ?_, ?_, ?_, ?_, ?_, ?_, ?_, ?_, ?_, ?_, ?_, ?_, ?_, ?_, ?_, ?_, ?_, ?_, ?_, ?_, ?_⟩ <;> (beta_reduce; decide +kernel)

theorem test_hyps_ListenerChannels :
    ((fun (q : Rq) (ch : Fin 2) (s : State) => Sent q (LST_CH_CMD ch) LST_CH_CMD_fs 1 s ∧ lstState ch s = 0 ∧ sourceOk ch s = true) (.core 12 .k) 1 (st [(BND_PIN_en 0, 1)])) ∧
    ((fun (q : Rq) (ch : Fin 2) (s : State) => Sent q (LST_CH_CMD ch) LST_CH_CMD_fs 1 s ∧ lstState ch s = 0 ∧ sourceOk ch s = false) (.core 12 .k) 1 .reset) ∧
    ((fun (q : Rq) (ch : Fin 2) (s : State) => Sent q (LST_CH_CMD ch) LST_CH_CMD_fs 1 s ∧ lstState ch s ≠ 0) (.core 12 .k) 1 (st [(LST_CH_STAT_state 1, 1)])) ∧
    ((fun (q : Rq) (ch : Fin 2) (s : State) => Sent q (LST_CH_CMD ch) LST_CH_CMD_fs 2 s) (.core 12 .k) 1 (st [(LST_CH_STAT_state 1, 2)])) ∧
    ((fun (q : Rq) (ch : Fin 2) (s : State) => Sent q (LST_CH_CMD ch) LST_CH_CMD_fs 3 s ∧ lstState ch s = 2) (.core 12 .k) 1 (st [(LST_CH_STAT_state 1, 2)])) ∧
    ((fun (q : Rq) (ch : Fin 2) (s : State) => Sent q (LST_CH_CMD ch) LST_CH_CMD_fs 3 s ∧ lstState ch s = 0) (.core 12 .k) 1 .reset) ∧
    ((fun (ch : Fin 2) (pw : Int) (s : State) => lstState ch s ≠ 0 ∧ (nth s.lst ch).freezePend = false ∧ s.on (LST_CH_STAT_frozen ch) = false ∧ windowPower ch s = some pw) 1 (-2560) (updLst 1 (fun c => { c with win := ⟨3, 0, 0⟩ }) (st [(LST_CH_STAT_state 1, 1)]))) ∧
    ((fun (ch : Fin 2) (s : State) => lstState ch s ≠ 0 ∧ (nth s.lst ch).freezePend = false ∧ (s.on (LST_CH_STAT_frozen ch) = true ∨ windowPower ch s = none)) 1 (st [(LST_CH_STAT_state 1, 1)])) ∧
    ((fun (ch : Fin 2) (s : State) => lstState ch s ≠ 0 ∧ (nth s.lst ch).freezePend = false ∧ (s.on (LST_CH_STAT_frozen ch) = true ∨ windowPower ch s = none)) 1 (st [(LST_CH_STAT_state 1, 2), (LST_CH_STAT_frozen 1, 1)])) ∧
    ((fun (ch : Fin 2) (s : State) => lstState ch s ≠ 0 ∧ (nth s.lst ch).freezePend = true) 1 (updLst 1 (fun c => { c with freezePend := true }) (st [(LST_CH_STAT_state 1, 2)]))) ∧
    ((fun (ch : Fin 2) (s : State) => lstState ch s = 1) 1 (st [(LST_CH_STAT_state 1, 1)])) ∧
    ((fun (ch : Fin 2) (s : State) => lstState ch s ≠ 1) 1 .reset) ∧
    ((fun (ch : Fin 2) (s : State) (r : Rxn) => (nth s.lst ch).rx = some r) 1 (updLst 1 (fun c => { c with rx := some { pow := 1, m := 2, time := 3 } }) (st [(LST_CH_STAT_state 1, 2)])) { pow := 1, m := 2, time := 3 }) ∧
    ((fun (ch : Fin 2) (s : State) => (nth s.lst ch).rx = none) 1 .reset) ∧
    ((fun (ch : Fin 2) (s : State) (r : Rxn) => (nth s.lst ch).rx = some r ∧ r.first = true) 1 (updLst 1 (fun c => { c with rx := some { pow := 1, m := 2, time := 3, first := true } }) (st [(LST_CH_STAT_state 1, 2)])) { pow := 1, m := 2, time := 3, first := true }) ∧
    ((fun (ch : Fin 2) (s : State) => ((nth s.lst ch).rx.all (fun r => !r.first) = true)) 1 (updLst 1 (fun c => { c with rx := some { pow := 1, m := 2, time := 3 } }) (st [(LST_CH_STAT_state 1, 2)]))) ∧
    ((fun (ch : Fin 2) (s : State) (r : Rxn) => (nth s.lst ch).rx = some r) 1 (updLst 1 (fun c => { c with rx := some { pow := 1, m := 2, time := 3 } }) (st [(LST_CH_STAT_state 1, 2), (LST_CH_CTRL_cap_en 1, 1)])) { pow := 1, m := 2, time := 3 }) ∧
    ((fun (ch : Fin 2) (s : State) => (nth s.lst ch).rx = none) 1 .reset) := by
  refine ⟨?_, ?_, ?_, ?_, ?_, ?_, ?_, ?_, ?_, ?_, ?_, ?_, ?_, ?_, ?_, ?_, ?_, ?_⟩ <;> (beta_reduce; decide +kernel)

theorem test_hyps_ListenerTiming :
    ((fun (q : Rq) (ch : Fin 2) (s : State) => Sent q (LST_NRBUF_CTRL ch) LST_NRBUF_CTRL_fs 2 s) (.core 12 .k) 1 (st [(LST_NRBUF_CTRL_full 1, 1)])) ∧
    ((fun (r : Fin 32) (s : State) => s.on (LST_ALLOW_present r) = true) 3 (st [(LST_ALLOW_present 3, 1)])) ∧
    ((fun (ch : Fin 2) (s : State) => s.on (LST_CH_CTRL_tim_en ch) = true ∧ s.on (LST_CH_STAT_tim_stale ch) = false) 1 (st [(LST_CH_CTRL_tim_en 1, 1)])) ∧
    ((fun (q : Rq) (ch : Fin 2) (w : Word) (s : State) => Sent q (LST_TDD_B ch) LST_TDD_B_fs (force w (LST_TDD_B_valid ch) 1) s ∧ tddBad ch (force w (LST_TDD_B_valid ch) 1) s = false) (.core 12 .k) 1 (force 0 (LST_TDD_B_n_slots 1) 3) .reset) ∧
    ((fun (q : Rq) (ch : Fin 2) (w : Word) (s : State) => Sent q (LST_TDD_B ch) LST_TDD_B_fs (force w (LST_TDD_B_valid ch) 1) s ∧ tddBad ch (force w (LST_TDD_B_valid ch) 1) s = true) (.core 12 .k) 1 0 .reset) ∧
    ((fun (ch : Fin 2) (p : Word × Word) (f : Nat) (s : State) => (nth s.lst ch).tddPend = some p ∧ (nth s.lst ch).track = some f ∧ ((s.bandTime : Int) - f) % 9830400 = 0) 1 (5, 6) 5 { updLst 1 (fun c => { c with tddPend := some (5, 6), track := some 5 }) .reset with bandTime := 9830405 }) ∧
    ((fun (ch : Fin 2) (s : State) => ((nth s.lst ch).tddPend = none ∨ (nth s.lst ch).track = none)) 1 .reset) ∧
    ((fun (g : Fin 16) (m : Mtr) (l : List Mtr) (s : State) => s.on (LST_NF_CFG_en g) = true ∧ lstHeld s = false ∧ nth s.nfDone g = m :: l) 3 ⟨1048576, 5, 0⟩ [] { st [(LST_NF_CFG_en 3, 1)] with nfDone := upd State.reset.nfDone 3 fun _ => [⟨1048576, 5, 0⟩] }) ∧
    ((fun (g : Fin 16) (s : State) => (nth s.nfDone g = [] ∨ s.on (LST_NF_CFG_en g) = false)) 3 (st [(LST_NF_CFG_en 3, 1)])) ∧
    ((fun (g : Fin 16) (s : State) => (nth s.nfDone g = [] ∨ s.on (LST_NF_CFG_en g) = false)) 3 .reset) ∧
    ((fun (g : Fin 16) (s : State) => s.on (LST_NF_valid g) = true ∧ s.get LST_CTRL_nf_age ≠ 0) 3 (st [(LST_NF_valid 3, 1), (LST_CTRL_nf_age, 5)])) ∧
    ((fun (q : Rq) (ch : Fin 2) (s : State) => Reads q (LST_CH_CNT ch) s) (.core 12 .k) 1 (st [(LST_CH_CNT_falses 1, 1)])) ∧
    ((fun (q : Rq) (ch : Fin 2) (s : State) => Reads q (LST_RX_TIME_L ch) s) (.core 12 .k) 1 .reset) := by
  refine ⟨?_, ?_, ?_, ?_, ?_, ?_, ?_, ?_, ?_, ?_, ?_, ?_, ?_⟩ <;> (beta_reduce; decide +kernel)

theorem test_hyps_SequencerCommands :
    ((fun (q : Rq) (n : Fin 4) (s : State) => Sent q (FEN_SEQ_CMD n) FEN_SEQ_CMD_fs (seqWord n 1 0) s ∧ s.fenForced = false ∧ s.on CRP_ATTIC_STAT_hold = false ∧ seqState n s = 0) (.core 12 .k) 2 .reset) ∧
    ((fun (q : Rq) (n : Fin 4) (s : State) => Sent q (FEN_SEQ_CMD n) FEN_SEQ_CMD_fs (seqWord n 1 0) s ∧ s.fenForced = false ∧ s.on CRP_ATTIC_STAT_hold = false ∧ seqState n s = 0) (.core 12 .k) 2 (st [(FEN_SEQ_CTRL_mode 2, 1)])) ∧
    ((fun (q : Rq) (n : Fin 4) (s : State) => Sent q (FEN_SEQ_CMD n) FEN_SEQ_CMD_fs (seqWord n 1 0) s ∧ s.fenForced = false ∧ s.on CRP_ATTIC_STAT_hold = false ∧ s.on (FEN_SEQ_CTRL_mode n) = false ∧ (seqState n s = 4 ∨ seqState n s = 5)) (.core 12 .k) 2 (st [(FEN_SEQ_STAT_state 2, 4)])) ∧
    ((fun (q : Rq) (n : Fin 4) (s : State) => Sent q (FEN_SEQ_CMD n) FEN_SEQ_CMD_fs (seqWord n 2 0) s ∧ s.fenForced = false ∧ s.on CRP_ATTIC_STAT_hold = false ∧ s.on (FEN_SEQ_CTRL_mode n) = false ∧ (seqState n s = 1 ∨ seqState n s = 5)) (.core 12 .k) 2 (st [(FEN_SEQ_STAT_state 2, 1)])) ∧
    ((fun (q : Rq) (n : Fin 4) (dur : BitVec 16) (s : State) => Sent q (FEN_SEQ_CMD n) FEN_SEQ_CMD_fs (seqWord n 3 dur.toNat) s ∧ s.fenForced = false ∧ s.on CRP_ATTIC_STAT_hold = false ∧ s.on (FEN_SEQ_CTRL_mode n) = false ∧ s.on (FEN_SEQ_STAT_tx_held n) = false ∧ seqState n s = 5) (.core 12 .k) 2 7 (st [(FEN_SEQ_STAT_state 2, 5)])) ∧
    ((fun (q : Rq) (n : Fin 4) (dur : BitVec 16) (s : State) => Sent q (FEN_SEQ_CMD n) FEN_SEQ_CMD_fs (seqWord n 3 dur.toNat) s ∧ s.fenForced = false ∧ s.on CRP_ATTIC_STAT_hold = false ∧ s.on (FEN_SEQ_CTRL_mode n) = false ∧ s.on (FEN_SEQ_STAT_tx_held n) = false ∧ seqState n s ≠ 0 ∧ seqState n s ≠ 5) (.core 12 .k) 2 7 (st [(FEN_SEQ_STAT_state 2, 1)])) ∧
    ((fun (q : Rq) (n : Fin 4) (dur : BitVec 16) (s : State) => Sent q (FEN_SEQ_CMD n) FEN_SEQ_CMD_fs (seqWord n 3 dur.toNat) s ∧ s.fenForced = true) (.core 12 .k) 2 7 { State.reset with fenForced := true }) ∧
    ((fun (q : Rq) (n : Fin 4) (s : State) => Sent q (FEN_SEQ_CMD n) FEN_SEQ_CMD_fs (seqWord n 1 0) s ∧ s.fenForced = false ∧ s.on CRP_ATTIC_STAT_hold = true) (.core 12 .k) 2 (st [(CRP_ATTIC_STAT_hold, 1)])) ∧
    ((fun (q : Rq) (n : Fin 4) (s : State) => Sent q (FEN_SEQ_CMD n) FEN_SEQ_CMD_fs (seqWord n 4 0) s ∧ s.fenForced = false ∧ s.on CRP_ATTIC_STAT_hold = false ∧ (seqState n s = 1 ∨ seqState n s = 4 ∨ seqState n s = 5) ∧ s.on (FEN_SEQ_CTRL_spi_go n) = false) (.core 12 .k) 2 (st [(FEN_SEQ_STAT_state 2, 1)])) ∧
    ((fun (q : Rq) (n : Fin 4) (s : State) => Sent q (FEN_SEQ_CMD n) FEN_SEQ_CMD_fs (seqWord n 4 0) s ∧ s.fenForced = false ∧ s.on CRP_ATTIC_STAT_hold = false ∧ (seqState n s = 1 ∨ seqState n s = 4 ∨ seqState n s = 5) ∧ s.on (FEN_SEQ_CTRL_spi_go n) = true ∧ s.on (FEN_SPI_STAT_busy (s.get (FEN_SEQ_CTRL_spi_m n))) = false) (.core 12 .k) 2 (st [(FEN_SEQ_STAT_state 2, 1), (FEN_SEQ_CTRL_spi_go 2, 1)])) ∧
    ((fun (q : Rq) (n : Fin 4) (s : State) => Sent q (FEN_SEQ_CMD n) FEN_SEQ_CMD_fs (seqWord n 5 0) s ∧ s.fenForced = false ∧ s.on CRP_ATTIC_STAT_hold = false ∧ (seqState n s = 1 ∨ seqState n s = 4) ∧ seqLocked n s = true ∧ calValid n s = true) (.core 12 .k) 2 (st [(FEN_SEQ_STAT_state 2, 1), (FEN_SEQ_STAT_locked 2, 1), (FEN_SEQ_CAL_cal_tx 2, 3), (FEN_SEQ_CAL_cal_rx 2, 4), (BND_PATH_STAT_state 3, 2), (BND_PATH_STAT_state 4, 2)])) ∧
    ((fun (q : Rq) (n : Fin 4) (s : State) => Sent q (FEN_SEQ_CMD n) FEN_SEQ_CMD_fs (seqWord n 5 0) s ∧ s.fenForced = false ∧ s.on CRP_ATTIC_STAT_hold = false ∧ (seqState n s = 1 ∨ seqState n s = 4) ∧ seqLocked n s = false) (.core 12 .k) 2 (st [(FEN_SEQ_STAT_state 2, 1)])) ∧
    ((fun (q : Rq) (n : Fin 4) (s : State) => Sent q (FEN_SEQ_CMD n) FEN_SEQ_CMD_fs (seqWord n 6 0) s ∧ s.fenForced = false) (.core 12 .k) 2 (st [(FEN_SEQ_STAT_state 2, 5)])) := by
  refine ⟨?_, ?_, ?_, ?_, ?_, ?_, ?_, ?_, ?_, ?_, ?_, ?_, ?_⟩ <;> (beta_reduce; decide +kernel)

theorem test_hyps_SequencerEvents :
    ((fun (n : Fin 4) (s : State) => seqState n s = 5 ∧ s.on (FEN_SEQ_CTRL_mode n) = false ∧ (nth s.fen n).dur ≠ 0) 2 (updFen 2 (fun f => { f with dur := 5 }) (st [(FEN_SEQ_STAT_state 2, 5)]))) ∧
    ((fun (s : State) => fenHeld s = false) .reset) ∧
    ((fun (s : State) => fenHeld s = false) (st [(FEN_SEQ_STAT_state 2, 5)])) ∧
    ((fun (n : Fin 4) (s : State) => s.on (FEN_SEQ_STAT_tx_held n) = true ∧ seqReady n s = true) 2 (st [(FEN_SEQ_STAT_state 2, 1), (FEN_SEQ_STAT_tx_held 2, 1), (FEN_SEQ_STAT_locked 2, 1)])) ∧
    ((fun (n : Fin 4) (s : State) => s.on (FEN_SEQ_STAT_tx_held n) = true ∧ seqReady n s = false) 2 (st [(FEN_SEQ_STAT_state 2, 1), (FEN_SEQ_STAT_tx_held 2, 1)])) ∧
    ((fun (n : Fin 4) (s : State) => settling n s = true ∧ seqLocked n s = true) 2 (st [(FEN_SEQ_STAT_state 2, 2), (FEN_SEQ_STAT_locked 2, 1)])) ∧
    ((fun (n : Fin 4) (s : State) => settling n s = true ∧ seqLocked n s = false) 2 (st [(FEN_SEQ_STAT_state 2, 2)])) ∧
    ((fun (n : Fin 4) (c : CalAcc) (s : State) => seqState n s = 3 ∧ (nth s.fen n).cal = c ∧ 2 ^ (10 + s.get (FEN_SEQ_CAL_cal_len n)) ≤ c.n ∧ irrMet n (cxPow c.t) (cxPow c.i) s = true) 2 ⟨1048576, (50000, 3), (1, 0)⟩ (updFen 2 (fun f => { f with cal := ⟨1048576, (50000, 3), (1, 0)⟩ }) (st [(FEN_SEQ_STAT_state 2, 3)]))) ∧
    ((fun (n : Fin 4) (c : CalAcc) (s : State) => seqState n s = 3 ∧ (nth s.fen n).cal = c ∧ 2 ^ (10 + s.get (FEN_SEQ_CAL_cal_len n)) ≤ c.n ∧ irrMet n (cxPow c.t) (cxPow c.i) s = false ∧ s.get (FEN_SEQ_CALRES_passes n) < 3) 2 ⟨1048576, (5, 3), (5, 0)⟩ (updFen 2 (fun f => { f with cal := ⟨1048576, (5, 3), (5, 0)⟩ }) (st [(FEN_SEQ_STAT_state 2, 3)]))) ∧
    ((fun (n : Fin 4) (s : State) => (seqState n s ≠ 3 ∨ (nth s.fen n).cal.n < 2 ^ (10 + s.get (FEN_SEQ_CAL_cal_len n)))) 2 (st [(FEN_SEQ_STAT_state 2, 3)])) ∧
    ((fun (n : Nat) (sym : Nat) (tx : Bool) (t : Int) (b : Burst) (s : State) => burstFrom n sym tx t s = some b) 2 0 true 0 ⟨true, 0, 983040⟩ { st [(FEN_SEQ_STAT_state 2, 1), (FEN_SEQ_STAT_locked 2, 1), (FEN_SEQ_TIM_tx_lead 2, 0), (FEN_SEQ_TIM2_rx_lead 2, 0), (FEN_SEQ_CTRL_mode 2, 1), (LST_CH_STAT_state 0, 1)] with lst := upd State.reset.lst 0 fun c => { c with track := some 0, tddA := 4, tddB := force (force 0 (LST_TDD_B_valid 0) 1) (LST_TDD_B_n_slots 0) 2 } }) ∧
    ((fun (n : Fin 4) (sym : Nat) (b : Burst) (s : State) => burstFrom n sym true (s.bandTime + s.get (FEN_SEQ_TIM_tx_lead n) : Nat) s = some b ∧ seqLocked n s = true ∧ seqGranted n s = true ∧ burstState n s = true ∧ (nth s.fen n).burst = none ∧ (nth s.fen n).next = []) 2 0 ⟨true, 0, 983040⟩ { st [(FEN_SEQ_STAT_state 2, 1), (FEN_SEQ_STAT_locked 2, 1), (FEN_SEQ_TIM_tx_lead 2, 0), (FEN_SEQ_TIM2_rx_lead 2, 0), (FEN_SEQ_CTRL_mode 2, 1), (LST_CH_STAT_state 0, 1)] with lst := upd State.reset.lst 0 fun c => { c with track := some 0, tddA := 4, tddB := force (force 0 (LST_TDD_B_valid 0) 1) (LST_TDD_B_n_slots 0) 2 } }) ∧
    ((fun (n : Fin 4) (sym : Nat) (b : Burst) (c : Burst) (s : State) => burstFrom n sym true (s.bandTime + s.get (FEN_SEQ_TIM_tx_lead n) : Nat) s = some b ∧ seqLocked n s = true ∧ seqGranted n s = true ∧ burstState n s = true ∧ (nth s.fen n).burst = some c ∧ s.bandTime < c.e) 2 0 ⟨true, 0, 983040⟩ ⟨false, -9, 5⟩ { st [(FEN_SEQ_STAT_state 2, 1), (FEN_SEQ_STAT_locked 2, 1), (FEN_SEQ_TIM_tx_lead 2, 0), (FEN_SEQ_TIM2_rx_lead 2, 0), (FEN_SEQ_CTRL_mode 2, 1), (LST_CH_STAT_state 0, 1)] with lst := upd State.reset.lst 0 fun c => { c with track := some 0, tddA := 4, tddB := force (force 0 (LST_TDD_B_valid 0) 1) (LST_TDD_B_n_slots 0) 2 }, fen := upd State.reset.fen 2 fun f => { f with burst := some ⟨false, -9, 5⟩ } }) ∧
    ((fun (n : Fin 4) (sym : Nat) (b : Burst) (s : State) => burstFrom n sym true (s.bandTime + s.get (FEN_SEQ_TIM_tx_lead n) : Nat) s = some b ∧ (seqLocked n s = false ∨ seqGranted n s = false ∨ burstState n s = false)) 2 0 ⟨true, 0, 983040⟩ ({ st [(FEN_SEQ_STAT_state 2, 1), (FEN_SEQ_STAT_locked 2, 1), (FEN_SEQ_TIM_tx_lead 2, 0), (FEN_SEQ_TIM2_rx_lead 2, 0), (FEN_SEQ_CTRL_mode 2, 1), (LST_CH_STAT_state 0, 1)] with lst := upd State.reset.lst 0 fun c => { c with track := some 0, tddA := 4, tddB := force (force 0 (LST_TDD_B_valid 0) 1) (LST_TDD_B_n_slots 0) 2 } }.set (FEN_SEQ_STAT_locked 2) 0)) ∧
    ((fun (n : Fin 4) (sym : Nat) (b : Burst) (s : State) => burstFrom n sym false (s.bandTime + s.get (FEN_SEQ_TIM2_rx_lead n) : Nat) s = some b ∧ burstState n s = true ∧ (nth s.fen n).burst = none ∧ (nth s.fen n).next = []) 2 14 ⟨false, 983040, 1966080⟩ { st [(FEN_SEQ_STAT_state 2, 1), (FEN_SEQ_STAT_locked 2, 1), (FEN_SEQ_TIM_tx_lead 2, 0), (FEN_SEQ_TIM2_rx_lead 2, 0), (FEN_SEQ_CTRL_mode 2, 1), (LST_CH_STAT_state 0, 1)] with lst := upd State.reset.lst 0 fun c => { c with track := some 0, tddA := 4, tddB := force (force 0 (LST_TDD_B_valid 0) 1) (LST_TDD_B_n_slots 0) 2 }, bandTime := 983040 }) ∧
    ((fun (n : Fin 4) (c : Burst) (s : State) => (nth s.fen n).burst = some c ∧ s.bandTime < c.e) 2 ⟨false, -9, 5⟩ { st [(FEN_SEQ_STAT_state 2, 1), (FEN_SEQ_STAT_locked 2, 1), (FEN_SEQ_TIM_tx_lead 2, 0), (FEN_SEQ_TIM2_rx_lead 2, 0), (FEN_SEQ_CTRL_mode 2, 1), (LST_CH_STAT_state 0, 1)] with lst := upd State.reset.lst 0 fun c => { c with track := some 0, tddA := 4, tddB := force (force 0 (LST_TDD_B_valid 0) 1) (LST_TDD_B_n_slots 0) 2 }, fen := upd State.reset.fen 2 fun f => { f with burst := some ⟨false, -9, 5⟩ } }) ∧
    ((fun (n : Fin 4) (c : Burst) (s : State) => (nth s.fen n).burst = some c ∧ (c.e + (if c.tx then s.get (FEN_SEQ_TIM_tx_lag n) else 0 : Nat) ≤ s.bandTime) ∧ (nth s.fen n).next = []) 2 ⟨true, -9, -5⟩ (updFen 2 (fun f => { f with burst := some ⟨true, -9, -5⟩ }) (st [(FEN_SEQ_STAT_state 2, 5), (FEN_SEQ_TIM_tx_lag 2, 3)]))) ∧
    ((fun (n : Fin 4) (b : Burst) (c : Burst) (l : List Burst) (s : State) => (nth s.fen n).burst = some c ∧ c.e ≤ s.bandTime ∧ (nth s.fen n).next = b :: l ∧ following n (patAt (seqCh n s) (b.s - s.geti (FEN_SEQ_OFS_t_ofs n)) s) = true ∧ b.tx = true ∧ seqLocked n s = true ∧ seqGranted n s = true) 2 ⟨true, 0, 983040⟩ ⟨false, -9, 0⟩ [] { st [(FEN_SEQ_STAT_state 2, 1), (FEN_SEQ_STAT_locked 2, 1), (FEN_SEQ_TIM_tx_lead 2, 0), (FEN_SEQ_TIM2_rx_lead 2, 0), (FEN_SEQ_CTRL_mode 2, 1), (LST_CH_STAT_state 0, 1)] with lst := upd State.reset.lst 0 fun c => { c with track := some 0, tddA := 4, tddB := force (force 0 (LST_TDD_B_valid 0) 1) (LST_TDD_B_n_slots 0) 2 }, fen := upd State.reset.fen 2 fun f => { f with burst := some ⟨false, -9, 0⟩, next := [⟨true, 0, 983040⟩] } }) ∧
    ((fun (k : Fin 128) (b : Burst) (s : State) => s.on (RPT_PATH_CFG_duplex k) = true ∧ rptHeld s = false ∧ (nth s.fen (s.get (RPT_PATH_CFG_seq k))).burst = some b ∧ b.tx = true ∧ b.s = s.bandTime) 3 ⟨true, 0, 983040⟩ (updFen 0 (fun f => { f with burst := some ⟨true, 0, 983040⟩ }) (st [(RPT_PATH_CFG_duplex 3, 1)]))) ∧
    ((fun (k : Fin 128) (s : State) => (¬∃ b, (nth s.fen (s.get (RPT_PATH_CFG_seq k))).burst = some b ∧ b.tx = true ∧ b.s = s.bandTime)) 3 (st [(RPT_PATH_CFG_duplex 3, 1)])) ∧
    ((fun (k : Fin 128) (s : State) => s.on (RPT_PATH_CFG_duplex k) = true ∧ rptHeld s = false) 3 (st [(RPT_PATH_CFG_duplex 3, 1)])) := by
  refine ⟨?_, ?_, ?_, ?_, ?_, ?_, ?_, ?_, ?_, ?_, ?_, ?_, ?_, ?_, ?_, ?_, ?_, ?_, ?_, ?_, ?_⟩ <;> (beta_reduce; decide +kernel)

theorem test_hyps_FrontEndWires :
    ((fun (q : Rq) (m : Fin 4) (s : State) => Sent q (FEN_SPI_CMD m) FEN_SPI_CMD_fs 1 s ∧ s.on (FEN_SPI_STAT_busy m) = false) (.core 12 .k) 2 .reset) ∧
    ((fun (m : Fin 4) (i : Nat) (s : State) => i ≤ s.get (FEN_SPI_CFG_bits m)) 2 3 (st [(FEN_SPI_CFG_bits 2, 7)])) ∧
    ((fun (q : Rq) (m : Fin 4) (s : State) => Sent q (FEN_SPI_CMD m) FEN_SPI_CMD_fs 1 s ∧ s.on (FEN_SPI_STAT_busy m) = true) (.core 12 .k) 2 (st [(FEN_SPI_STAT_busy 2, 1)])) ∧
    ((fun (m : Fin 4) (s : State) => s.on (FEN_SPI_STAT_busy m) = true) 2 (st [(FEN_SPI_STAT_busy 2, 1)])) ∧
    ((fun (q : Rq) (high : Bool) (w : Word) (s : State) => (Sent q (if high then FEN_RFC_OWN_H else FEN_RFC_OWN_L) FEN_RFC_OWN_L_fs w s) ∧ (∀ i : Fin 16, fieldOf (s.rd (if high then FEN_RFC_OWN_H else FEN_RFC_OWN_L)) (2 * i) 2 = fieldOf w (2 * i) 2 ∨ (seqState (fieldOf (s.rd (if high then FEN_RFC_OWN_H else FEN_RFC_OWN_L)) (2 * i) 2) s = 0 ∧ seqState (fieldOf w (2 * i) 2) s = 0))) (.core 12 .k) true 0xE4 .reset) ∧
    ((fun (q : Rq) (w : Word) (s : State) => Sent q FEN_COEX_CTRL FEN_COEX_CTRL_fs w s ∧ wf w FEN_COEX_CTRL_coex_en = 1 ∧ ((s.chg w FEN_COEX_CTRL_coex_en = false ∧ s.chg w FEN_COEX_CTRL_seq = false) ∨ (seqState (s.get FEN_COEX_CTRL_seq) s = 0 ∧ seqState (wf w FEN_COEX_CTRL_seq) s = 0))) (.core 12 .k) (force 0 FEN_COEX_CTRL_coex_en 1) .reset) ∧
    ((fun (n : Fin 4) (s : State) => coexOn s = true ∧ txComes n s = true) 2 (({ st [(FEN_SEQ_STAT_state 2, 1), (FEN_SEQ_STAT_locked 2, 1), (FEN_SEQ_TIM_tx_lead 2, 0), (FEN_SEQ_TIM2_rx_lead 2, 0), (FEN_SEQ_CTRL_mode 2, 1), (LST_CH_STAT_state 0, 1)] with lst := upd State.reset.lst 0 fun c => { c with track := some 0, tddA := 4, tddB := force (force 0 (LST_TDD_B_valid 0) 1) (LST_TDD_B_n_slots 0) 2 } }.set FEN_COEX_CTRL_coex_en 1).set FEN_COEX_CTRL_req_lead 0)) ∧
    ((fun (s : State) => coexOn s = true ∧ s.on FEN_COEX_STAT_grant = false) (st [(FEN_COEX_CTRL_coex_en, 1)])) ∧
    ((fun (s : State) => coexOn s = true ∧ s.on FEN_COEX_STAT_grant = true ∧ seqState (s.get FEN_COEX_CTRL_seq) s ≠ 5) (st [(FEN_COEX_CTRL_coex_en, 1), (FEN_COEX_STAT_grant, 1)])) ∧
    ((fun (s : State) => coexOn s = true ∧ s.on FEN_COEX_STAT_grant = true ∧ seqState (s.get FEN_COEX_CTRL_seq) s = 5 ∧ s.on FEN_COEX_CTRL_coex_mode = false) (st [(FEN_COEX_CTRL_coex_en, 1), (FEN_COEX_STAT_grant, 1), (FEN_SEQ_STAT_state 0, 5)])) ∧
    ((fun (s : State) => coexOn s = true) (st [(FEN_COEX_CTRL_coex_en, 1)])) ∧
    ((fun (s : State) => coexOn s = true ∧ s.on FEN_COEX_STAT_grant = true ∧ s.on FEN_COEX_STAT_stuck_hi = false ∧ s.coexLo = true) { st [(FEN_COEX_CTRL_coex_en, 1), (FEN_COEX_STAT_grant, 1)] with coexLo := true }) ∧
    ((fun (q : Rq) (s : State) => Reads q FEN_COEX_CNT s) (.core 12 .k) (st [(FEN_COEX_CNT_lost, 2)])) ∧
    ((fun (q : Rq) (n : Fin 4) (s : State) => Reads q (FEN_SEQ_CNT n) s) (.core 12 .k) 2 (st [(FEN_SEQ_CNT_skips 2, 2)])) := by
  refine ⟨?_, ?_, ?_, ?_, ?_, ?_, ?_, ?_, ?_, ?_, ?_, ?_, ?_, ?_⟩ <;> (beta_reduce; decide +kernel)

theorem test_hyps_IntegerInstructions :
    ((fun (c : Fin 14) (s : State) => Issues c s) 0 run0) ∧
    ((fun (c : Fin 14) (r1 : Fin 32) (r2 : Fin 32) (s : State) => Issues c s ∧ opnd c r2 s ≠ 0 ∧ (¬(opnd c r1 s = 0x80000000 ∧ opnd c r2 s = 0xFFFFFFFF))) 0 4 5 (setW 0 5 7 (setW 0 4 100 run0))) ∧
    ((fun (c : Fin 14) (r2 : Fin 32) (s : State) => Issues c s ∧ opnd c r2 s = 0) 0 5 (setW 0 4 0x80000000 run0)) ∧
    ((fun (c : Fin 14) (r1 : Fin 32) (r2 : Fin 32) (s : State) => Issues c s ∧ (opnd c r1 s = 0x80000000 ∧ opnd c r2 s = 0xFFFFFFFF)) 0 4 5 (setW 0 5 0xFFFFFFFF (setW 0 4 0x80000000 run0))) ∧
    ((fun (c : Fin 14) (s : State) => Issues c s) 0 run0) ∧
    ((fun (c : Fin 14) (i : BitVec 16) (s : State) => Issues c s ∧ i.toNat < 32) 0 31 run0) ∧
    ((fun (c : Fin 14) (i : BitVec 16) (s : State) => Issues c s ∧ 32 ≤ i.toNat) 0 32 run0) ∧
    ((fun (c : Fin 14) (s : State) => Issues c s) 0 run0) ∧
    ((fun (c : Fin 14) (r1 : Fin 32) (i : BitVec 16) (s : State) => Issues c s ∧ (opnd c r1 s + i.signExtend 32).toNat % 4 = 0) 0 4 8 run0) ∧
    ((fun (c : Fin 14) (r1 : Fin 32) (i : BitVec 16) (s : State) => Issues c s ∧ (opnd c r1 s + i.signExtend 32).toNat % 4 ≠ 0) 0 4 7 run0) ∧
    ((fun (c : Fin 14) (s : State) => Issues c s) 0 run0) := by
  refine ⟨?_, ?_, ?_, ?_, ?_, ?_, ?_, ?_, ?_, ?_, ?_⟩ <;> (beta_reduce; decide +kernel)

theorem test_hyps_LoadsAndStores :
    ((fun (c : Fin 14) (rb : Fin 32) (off : BitVec 13) (s : State) => Issues c s ∧ MayAccess c 1 (eaOf c rb off s) (fetched c s) ∧ (loadRead c 1 (eaOf c rb off s) (fetched c s)).2.1 = .done) 0 4 3 (setW 0 4 0x10000000 run0)) ∧
    ((fun (c : Fin 14) (rb : Fin 32) (off : BitVec 13) (s : State) => Issues c s ∧ MayAccess c 2 (eaOf c rb off s) (fetched c s) ∧ (loadRead c 2 (eaOf c rb off s) (fetched c s)).2.1 = .done) 0 4 2 (setW 0 4 0x10000000 run0)) ∧
    ((fun (c : Fin 14) (rb : Fin 32) (off : BitVec 13) (s : State) => Issues c s ∧ MayAccess c 4 (eaOf c rb off s) (fetched c s) ∧ (loadRead c 4 (eaOf c rb off s) (fetched c s)).2.1 = .done) 0 4 4 (setW 0 4 0x10000000 run0)) ∧
    ((fun (c : Fin 14) (rb : Fin 32) (off : BitVec 13) (s : State) => Issues c s ∧ MayAccess c 4 (eaOf c rb off s) (fetched c s) ∧ (loadRead c 4 (eaOf c rb off s) (fetched c s)).2.1 ≠ .done) 0 4 4 (setW 0 4 0x4FFFFFF8 run0)) ∧
    ((fun (a : Nat) (n : Nat) => (0x7F800000 ≤ a ∧ a + n ≤ 0x7F810000)) 0x7F800004 4) ∧
    ((fun (a : Nat) (b : List Byte) => (0x7F800000 ≤ a ∧ a + b.length ≤ 0x7F810000)) 0x7F800004 [1, 2]) ∧
    ((fun (c : Fin 14) (rb : Fin 32) (off : BitVec 13) (s : State) => Issues c s ∧ dataAllowed c (eaOf c rb off s).toNat 4 (fetched c s) = true ∧ (eaOf c rb off s).toNat % 4 ≠ 0) 0 4 2 (setW 0 4 0x10000000 run0)) ∧
    ((fun (c : Fin 14) (rb : Fin 32) (off : BitVec 13) (s : State) => Issues c s ∧ dataAllowed c (eaOf c rb off s).toNat 2 (fetched c s) = true ∧ (eaOf c rb off s).toNat % 2 ≠ 0) 0 4 1 (setW 0 4 0x10000000 run0)) ∧
    ((fun (c : Fin 14) (rb : Fin 32) (off : BitVec 13) (s : State) => Issues c s ∧ dataAllowed c (eaOf c rb off s).toNat 4 (fetched c s) = false) 0 4 0 (updCpu 0 (fun k => { k with lvl := 0 }) (setW 0 4 0x10000000 run0))) ∧
    ((fun (c : Fin 14) (rb : Fin 32) (off : BitVec 13) (s : State) => Issues c s ∧ MayAccess c 1 (eaOf c rb off s) (fetched c s)) 0 4 3 (setW 0 4 0x10000000 run0)) ∧
    ((fun (c : Fin 14) (rb : Fin 32) (off : BitVec 13) (s : State) => Issues c s ∧ MayAccess c 2 (eaOf c rb off s) (fetched c s)) 0 4 2 (setW 0 4 0x10000000 run0)) ∧
    ((fun (c : Fin 14) (rb : Fin 32) (off : BitVec 13) (s : State) => Issues c s ∧ MayAccess c 4 (eaOf c rb off s) (fetched c s)) 0 4 4 (setW 0 3 0x12345678 (setW 0 4 0x10000000 run0))) ∧
    ((fun (c : Fin 14) (s : State) => Issues c s) 0 run0) ∧
    ((fun (c : Fin 14) (rt : Fin 32) (rb : Fin 32) (off : BitVec 13) (s : State) => Issues c s ∧ MayAccess c 4 (eaOf c rb off s) (fetched c s) ∧ xchgReach c (eaOf c rb off s).toNat = true ∧ (loadRead c 4 (eaOf c rb off s) (fetched c s)).2.1 = .done ∧ (xchgWrite c rt (eaOf c rb off s) (fetched c s)).2 = none) 0 3 4 4 (setW 0 3 0x12345678 (setW 0 4 0x10000000 run0))) ∧
    ((fun (c : Fin 14) (rt : Fin 32) (rb : Fin 32) (off : BitVec 13) (s : State) => Issues c s ∧ MayAccess c 4 (eaOf c rb off s) (fetched c s) ∧ xchgReach c (eaOf c rb off s).toNat = true ∧ (loadRead c 4 (eaOf c rb off s) (fetched c s)).2.1 = .done ∧ (xchgWrite c rt (eaOf c rb off s) (fetched c s)).2 = some .done) 13 3 4 4 (setW 13 4 0x7F800000 (st [(CEL_STAT_state, 3)]))) ∧
    ((fun (c : Fin 14) (rb : Fin 32) (off : BitVec 13) (s : State) => Issues c s ∧ MayAccess c 4 (eaOf c rb off s) (fetched c s) ∧ xchgReach c (eaOf c rb off s).toNat = false) 0 4 4 (setW 0 4 0x60000000 run0)) := by
  refine ⟨?_, ?_, ?_, ?_, ?_, ?_, ?_, ?_, ?_, ?_, ?_, ?_, ?_, ?_, ?_, ?_⟩ <;> (beta_reduce; decide +kernel)

theorem test_hyps_VectorInstructions :
    ((fun (c : Fin 14) (d : Fin 32) (a : Fin 32) (b : Fin 32) (s : State) => Issues c s ∧ c.val < 8 ∧ d.val < 16 ∧ a.val < 16 ∧ b.val < 16) 0 1 2 3 (setV 0 2 [5, 0x80000000, 7, 0x7FFFFFFF, 9, 10, 11, 12] (setV 0 3 [1, 0x80000000, 3, 4, 5, 6, 7, 8] run0))) ∧
    ((fun (c : Fin 14) (d : Fin 32) (a : Fin 32) (s : State) => Issues c s ∧ c.val < 8 ∧ d.val < 16 ∧ a.val < 16) 0 1 2 (setV 0 2 [5, 0x80000000, 7, 0x7FFFFFFF, 9, 10, 11, 12] run0)) ∧
    ((fun (c : Fin 14) (d : Fin 32) (s : State) => Issues c s ∧ c.val < 8 ∧ d.val < 16) 0 1 run0) ∧
    ((fun (c : Fin 14) (a : Fin 32) (s : State) => Issues c s ∧ c.val < 8 ∧ a.val < 16) 0 2 (setV 0 2 [5, 0x80000000, 7, 0x8FFFFFFF, 9, 10, 11, 12] run0)) ∧
    ((fun (c : Fin 14) (d : Fin 32) (a : Fin 32) (b : Fin 32) (s : State) => Issues c s ∧ c.val < 8 ∧ d.val < 16 ∧ a.val < 16 ∧ 0 ≤ (getW c b (fetched c s)).toInt) 0 1 2 4 (setW 0 4 6 (setV 0 2 [5, 0x80000000, 7, 0x8FFFFFFF, 9, 10, 11, 12] run0))) ∧
    ((fun (c : Fin 14) (d : Fin 32) (a : Fin 32) (b : Fin 32) (s : State) => Issues c s ∧ (8 ≤ c.val ∨ 16 ≤ d.val ∨ 16 ≤ a.val ∨ (getW c b (fetched c s)).toInt < 0)) 0 17 2 4 run0) ∧
    ((fun (c : Fin 14) (d : Fin 32) (a : Fin 32) (b : Fin 32) (s : State) => Issues c s ∧ (8 ≤ c.val ∨ 16 ≤ d.val ∨ 16 ≤ a.val ∨ (getW c b (fetched c s)).toInt < 0)) 0 1 2 4 (setW 0 4 0x80000000 run0)) ∧
    ((fun (c : Fin 14) (d : Fin 32) (a : Fin 32) (b : Fin 32) (sel : Fin 8) (s : State) => Issues c s ∧ (8 ≤ c.val ∨ 16 ≤ d.val ∨ 16 ≤ a.val ∨ 16 ≤ b.val ∨ sel ≠ 0)) 0 1 2 3 5 run0) ∧
    ((fun (c : Fin 14) (d : Fin 32) (a : Fin 32) (s : State) => Issues c s ∧ c.val < 8 ∧ d.val < 16 ∧ MayAccess c 32 (getW c a (fetched c s)) (fetched c s) ∧ (loadRead c 32 (getW c a (fetched c s)) (fetched c s)).2.1 = .done) 0 1 4 (setW 0 4 0x10000020 run0)) ∧
    ((fun (c : Fin 14) (d : Fin 32) (a : Fin 32) (s : State) => Issues c s ∧ c.val < 8 ∧ d.val < 16 ∧ MayAccess c 32 (getW c a (fetched c s)) (fetched c s)) 0 1 4 (setW 0 4 0x10000020 (setV 0 1 [5, 0x80000000, 7, 0x8FFFFFFF, 9, 10, 11, 12] run0))) ∧
    ((fun (c : Fin 14) (s : State) => Issues c s ∧ 8 ≤ c.val ∧ c.val < 12) 8 (setW 8 2 0x7FFF8000 (setW 8 3 0x80000001 run8))) ∧
    ((fun (c : Fin 14) (s : State) => Issues c s ∧ 8 ≤ c.val ∧ c.val < 12) 8 (setW 8 2 0x80000001 run8)) ∧
    ((fun (c : Fin 14) (n : Fin 32) (s : State) => Issues c s ∧ 8 ≤ c.val ∧ c.val < 12 ∧ n.val < 16) 8 3 (setW 8 2 0x80000001 run8)) ∧
    ((fun (c : Fin 14) (s : State) => Issues c s ∧ (c.val < 8 ∨ 12 ≤ c.val)) 0 run0) ∧
    ((fun (c : Fin 14) (b : Fin 32) (s : State) => Issues c s ∧ (c.val < 8 ∨ 12 ≤ c.val ∨ b ≠ 0)) 8 3 run8) := by
  refine ⟨?_, ?_, ?_, ?_, ?_, ?_, ?_, ?_, ?_, ?_, ?_, ?_, ?_, ?_, ?_⟩ <;> (beta_reduce; decide +kernel)

theorem test_hyps_CsrAndKeeper :
    ((fun (c : Fin 14) (n : BitVec 12) (s : State) => Issues c s ∧ csrTrap c n.toNat true (fetched c s) = none) 0 0x401 (setW 0 4 0x12345678 (setW 0 3 0xFFFF0000 run0))) ∧
    ((fun (c : Fin 14) (n : BitVec 12) (s : State) => Issues c s ∧ csrTrap c n.toNat false (fetched c s) = none) 0 0x200 run0) ∧
    ((fun (c : Fin 14) (rs1 : Fin 32) (s : State) => Issues c s ∧ rs1 ≠ 0) 0 1 run0) ∧
    ((fun (c : Fin 14) (n : BitVec 12) (t : Nat) (s : State) => Issues c s ∧ csrTrap c n.toNat true (fetched c s) = some t) 0 0x200 0 run0) ∧
    ((fun (c : Fin 14) (n : BitVec 12) (t : Nat) (s : State) => Issues c s ∧ csrTrap c n.toNat true (fetched c s) = some t) 0 0x400 1 (updCpu 0 (fun k => { k with lvl := 0 }) run0)) ∧
    ((fun (s : State) => Issues 12 s ∧ Above 12 s) (updCpu 12 (fun k => { k with lvl := 1 }) run12)) ∧
    ((fun (c : Fin 14) (s : State) => Issues c s ∧ c ≠ 12) 0 run0) ∧
    ((fun (s : State) => Issues 12 s ∧ ((fetched 12 s).cpu 12).lvl ≠ 2) (updCpu 12 (fun k => { k with lvl := 1 }) run12)) ∧
    ((fun (s : State) => Issues 12 s ∧ ((fetched 12 s).cpu 12).lvl = 2) (setW 12 4 2 ((run12.set (OWN_CORE_STAT_state 2) 1).set (OWN_CORE_STAT_chk_b 2) 1))) ∧
    ((fun (s : State) => Issues 12 s ∧ ((fetched 12 s).cpu 12).lvl = 2) (setW 12 4 2 (run12.set (OWN_CORE_STAT_armed 2) 1))) ∧
    ((fun (xa : Fin 32) (xb : Fin 32) (s : State) => Issues 12 s ∧ ((fetched 12 s).cpu 12).lvl = 2 ∧ (0x10000000 ≤ (opnd 12 xa s).toNat ∧ (opnd 12 xa s).toNat + (opnd 12 xb s).toNat ≤ 0x10800000) ∧ ((opnd 12 xa s).toNat % 64 = 0 ∧ (opnd 12 xb s).toNat % 64 = 0 ∧ (opnd 12 xb s).toNat ≤ 0x100000) ∧ (((List.range ((opnd 12 xb s).toNat / 64)).any fun i => (shelfCheck (.core 12 .k) ((opnd 12 xa s).toNat + 64 * i) (fetched 12 s)).isNone) = false) ∧ nmiReady 12 (fetched 12 s) = none) 4 5 (setW 12 5 128 (setW 12 4 0x10000040 run12))) ∧
    ((fun (xa : Fin 32) (xb : Fin 32) (m : BitVec 15) (s : State) => Issues 12 s ∧ ((fetched 12 s).cpu 12).lvl = 2 ∧ (0x10000000 ≤ (opnd 12 xa s).toNat ∧ (opnd 12 xa s).toNat + (opnd 12 xb s).toNat ≤ 0x10800000) ∧ ((opnd 12 xa s).toNat % 64 = 0 ∧ (opnd 12 xb s).toNat % 64 = 0 ∧ (opnd 12 xb s).toNat ≤ 0x100000) ∧ (((List.range ((opnd 12 xb s).toNat / 64)).any fun i => (shelfCheck (.core 12 .k) ((opnd 12 xa s).toNat + 64 * i) (fetched 12 s)).isNone) = false) ∧ (nmiReady 12 (fetched 12 s)).isSome = true ∧ m.toNat < (opnd 12 xb s).toNat / 64) 4 5 1 ((setW 12 5 128 (setW 12 4 0x10000040 (updCpu 12 (fun k => { k with nmiHold := false }) run12))).raise 6)) ∧
    ((fun (xa : Fin 32) (xb : Fin 32) (s : State) => Issues 12 s ∧ ((fetched 12 s).cpu 12).lvl = 2 ∧ ((opnd 12 xa s).toNat % 64 ≠ 0 ∨ (opnd 12 xb s).toNat % 64 ≠ 0)) 4 5 (setW 12 4 0x10000020 run12)) := by
  refine ⟨?_, ?_, ?_, ?_, ?_, ?_, ?_, ?_, ?_, ?_, ?_, ?_, ?_⟩ <;> (beta_reduce; decide +kernel)

theorem test_hyps_WaitsAndFences :
    ((fun (c : Fin 14) (s : State) => Issues c s ∧ Above c s ∧ StoresDone c s ∧ (¬(c = 12 ∧ ((ready c s).cpu 12).lvl = 2 ∧ (ready c s).get PWR_MODE_mode = 1))) 0 run0) ∧
    ((fun (c : Fin 14) (s : State) => Issues c s ∧ Above c s ∧ StoresDone c s ∧ (¬(c = 12 ∧ ((ready c s).cpu 12).lvl = 2 ∧ (ready c s).get PWR_MODE_mode = 1))) 0 (((run0.set (EVR_ROUTE_en 100) 1).set (EVR_ROUTE_core 100) 0).raise 100)) ∧
    ((fun (s : State) => Issues 12 s ∧ StoresDone 12 s ∧ (((fetched 12 s).cpu 12).lvl ≠ 0 ∧ ((ready 12 s).cpu 12).lvl = 2 ∧ (ready 12 s).get PWR_MODE_mode = 1)) (run12.set PWR_MODE_mode 1)) ∧
    ((fun (c : Fin 14) (rd : Fin 32) (rs1 : Fin 32) (imm : BitVec 12) (s : State) => Issues c s ∧ (rd ≠ 0 ∨ rs1 ≠ 0 ∨ imm.toNat ≠ 0)) 0 1 0 0 run0) ∧
    ((fun (c : Fin 14) (s : State) => Issues c s ∧ ((fetched c s).cpu c).lvl = 0) 0 (updCpu 0 (fun k => { k with lvl := 0 }) run0)) ∧
    ((fun (c : Fin 14) (imm : BitVec 12) (s : State) => Issues c s ∧ (imm.toNat = 1 ∨ imm.toNat = 3) ∧ StoresDone c s) 0 1 run0) ∧
    ((fun (c : Fin 14) (imm : BitVec 12) (s : State) => Issues c s ∧ (imm.toNat = 1 ∨ imm.toNat = 3) ∧ StoresDone c s) 0 3 run0) ∧
    ((fun (c : Fin 14) (s : State) => Issues c s ∧ ((fetched c s).cpu c).serr = none) 0 run0) ∧
    ((fun (c : Fin 14) (imm : BitVec 12) (s : State) => Issues c s ∧ (imm.toNat = 0 ∨ 4 ≤ imm.toNat)) 0 4 run0) ∧
    ((fun (c : Fin 14) (s : State) => Issues c s ∧ Above c s ∧ ((ready c s).cpu c).serr ≠ none) 0 (updCpu 0 (fun k => { k with posted := [{ a := 0x10000000, sys := 0x10000000, code := some .ecc }] }) run0)) ∧
    ((fun (c : Fin 14) (s : State) => Issues c s ∧ Above c s ∧ StoresDone c s) 0 (setW 0 4 512 run0)) ∧
    ((fun (c : Fin 14) (s : State) => Issues c s ∧ Above c s ∧ StoresDone c s) 0 (setW 0 4 100 run0)) ∧
    ((fun (c : Fin 14) (s : State) => Issues c s ∧ Above c s ∧ StoresDone c s) 0 (setW 0 4 100 ((run0.set (EVR_ROUTE_core 100) 0).raise 100))) ∧
    ((fun (c : Fin 14) (s : State) => Issues c s ∧ Above c s ∧ StoresDone c s) 0 run0) ∧
    ((fun (c : Fin 14) (s : State) => Issues c s ∧ Above c s ∧ StoresDone c s) 0 (run0.set (OWN_CORE_STAT_armed 0) 1)) ∧
    ((fun (c : Fin 14) (s : State) => coreRuns c s = true ∧ (s.cpu c).wait = .wait ∧ eventFor c s = true ∧ c ≠ 12 ∧ (s.cpu c).ie = false) 0 (updCpu 0 (fun k => { k with wait := .wait }) (((run0.set (EVR_ROUTE_en 100) 1).set (EVR_ROUTE_core 100) 0).raise 100))) ∧
    ((fun (c : Fin 14) (e : Nat) (s : State) => coreRuns c s = true ∧ (s.cpu c).wait = .wait ∧ c < 12 ∧ (s.cpu c).ie = true ∧ evtNext c s = some e) 0 100 (updCpu 0 (fun k => { k with wait := .wait, ie := true }) (((run0.set (EVR_ROUTE_en 100) 1).set (EVR_ROUTE_core 100) 0).raise 100))) ∧
    ((fun (c : Fin 14) (e : Nat) (rd : Nat) (timed : Bool) (s : State) => coreRuns c s = true ∧ c < 13 ∧ (s.cpu c).wait = .evwait e rd timed ∧ pendFor e c s = true) 0 100 3 false (updCpu 0 (fun k => { k with wait := .evwait 100 3 false }) ((run0.set (EVR_ROUTE_core 100) 0).raise 100))) ∧
    ((fun (c : Fin 14) (e : Nat) (rd : Nat) (s : State) => coreRuns c s = true ∧ (s.cpu c).wait = .evwait e rd true) 0 100 3 (updCpu 0 (fun k => { k with wait := .evwait 100 3 true }) run0)) ∧
    ((fun (c : Fin 13) (rd : Nat) (s : State) => coreRuns c s = true ∧ (s.cpu c).wait = .swap rd) 0 3 (updCpu 0 (fun k => { k with wait := .swap 3 }) run0)) := by
  refine ⟨?_, ?_, ?_, ?_, ?_, ?_, ?_, ?_, ?_, ?_, ?_, ?_, ?_, ?_, ?_, ?_, ?_, ?_, ?_, ?_⟩ <;> (beta_reduce; decide +kernel)

theorem test_hyps_Traps :
    ((fun (c : Fin 14) (imm : BitVec 12) (s : State) => Issues c s ∧ imm.toNat < 256) 0 255 run0) ∧
    ((fun (c : Fin 14) (imm : BitVec 12) (s : State) => Issues c s ∧ 256 ≤ imm.toNat) 0 256 run0) ∧
    ((fun (c : Fin 14) (e : Nat) (s : State) => coreRuns c s = true ∧ (s.cpu c).ie = true ∧ c < 13 ∧ inSwap c s = false ∧ (s.cpu c).serr = none ∧ nmiReady c s = none ∧ evtNext c s = some e) 0 100 (updCpu 0 (fun k => { k with ie := true }) (((run0.set (EVR_ROUTE_en 100) 1).set (EVR_ROUTE_core 100) 0).raise 100))) ∧
    ((fun (e : Nat) (s : State) => coreRuns 12 s = true ∧ inSwap 12 s = false ∧ nmiReady 12 s = some e) 6 (updCpu 12 (fun k => { k with nmiHold := false }) (run12.raise 6))) ∧
    ((fun (c : Fin 14) (p : Posted) (s : State) => ((s.cpu c).posted.find? (fun p => p.code.isSome) = some p)) 0 { a := 0x10000000, sys := 0x10000000, code := some .ecc } (updCpu 0 (fun k => { k with posted := [{ a := 0x10000000, sys := 0x10000000, code := some .ecc }] }) run0)) ∧
    ((fun (c : Fin 14) (s : State) => coreIssues c s = true ∧ nmiReady c s = none) 0 (updCpu 0 (fun k => { k with serr := some ⟨0x10000000, .ecc, false⟩ }) run0)) ∧
    ((fun (c : Nat) (t : Trap) (s : State) => c < 14 ∧ s.cores.length = 14 ∧ (t.code ≠ 0x11 ∧ t.code ≠ 0x12) ∧ (s.cpu c).lvl ≠ 2) 0 { code := 8, epc := 0x7F000000 } run0) ∧
    ((fun (c : Nat) (t : Trap) (s : State) => c < 14 ∧ s.cores.length = 14 ∧ (t.code = 0x11 ∨ t.code = 0x12 ∨ (s.cpu c).lvl = 2)) 12 { code := 0x12, vec := 0x300, epc := 0x7F000000 } run12) := by
  refine ⟨?_, ?_, ?_, ?_, ?_, ?_, ?_, ?_⟩ <;> (beta_reduce; decide +kernel)

theorem test_hyps_OwnershipCommands :
    ((fun (q : Rq) (s : State) => Sent q OWN_CLAIM [] 0x0C1A s ∧ mayClaim q.cls s = true ∧ (q = .hatch → s.get OWN_HATCH_STAT_level = 2) ∧ s.get OWN_STAT_owner = 0) .partner (st [(OWN_POLICY_claim_mask, 15)])) ∧
    ((fun (q : Rq) (s : State) => Sent q OWN_CLAIM [] 0x0C1A s ∧ mayClaim q.cls s = true ∧ (q = .hatch → s.get OWN_HATCH_STAT_level = 2) ∧ s.get OWN_STAT_owner ≠ 0) .partner (st [(OWN_POLICY_claim_mask, 15), (OWN_STAT_owner, 4)])) ∧
    ((fun (q : Rq) (w : Word) (s : State) => Sent q OWN_CLAIM [] w s ∧ w ≠ 0x0C1A) .partner 1 .reset) ∧
    ((fun (q : Rq) (s : State) => Sent q OWN_CLAIM [] 0x0C1A s ∧ mayClaim q.cls s = false) .partner (st [(OWN_POLICY_claim_mask, 0)])) ∧
    ((fun (q : Rq) (s : State) => Sent q OWN_LEASE [] (force 0 OWN_LEASE_renew 1) s ∧ isOwner q s = true) .partner (st [(OWN_STAT_owner, 3)])) ∧
    ((fun (q : Rq) (s : State) => Sent q OWN_LEASE [] (force 0 OWN_LEASE_renew 1) s ∧ s.get OWN_STAT_owner ≠ 0 ∧ isOwner q s = false) .partner (st [(OWN_STAT_owner, 4)])) ∧
    ((fun (s : State) => s.get OWN_STAT_owner ≠ 0) (st [(OWN_STAT_owner, 4)])) ∧
    ((fun (q : Rq) (w : Word) (s : State) => Sent q OWN_HANDOVER OWN_HANDOVER_fs w s ∧ ownRight q s = true ∧ s.get OWN_STAT_owner ≠ 0 ∧ s.get OWN_STAT_ho_pend = 0 ∧ mayClaim (wf w OWN_HANDOVER_succ) s = true ∧ (wf w OWN_HANDOVER_succ ≠ s.get OWN_STAT_owner ∨ (wf w OWN_HANDOVER_succ = 2 ∧ wf w OWN_HANDOVER_succ_addr ≠ s.get OWN_STAT_addr))) .partner 4 (st [(OWN_POLICY_claim_mask, 15), (OWN_STAT_owner, 3)])) ∧
    ((fun (q : Rq) (w : Word) (s : State) => Sent q OWN_HANDOVER OWN_HANDOVER_fs w s ∧ ownRight q s = true ∧ s.get OWN_STAT_owner = 0) (.core 12 .k) 4 .reset) ∧
    ((fun (q : Rq) (w : Word) (s : State) => Sent q OWN_HANDOVER OWN_HANDOVER_fs w s ∧ ownRight q s = true ∧ s.get OWN_STAT_owner ≠ 0 ∧ s.get OWN_STAT_ho_pend = 0 ∧ mayClaim (wf w OWN_HANDOVER_succ) s = false) .partner 0 (st [(OWN_POLICY_claim_mask, 15), (OWN_STAT_owner, 3)])) ∧
    ((fun (q : Rq) (w : Word) (s : State) => Sent q OWN_HANDOVER OWN_HANDOVER_fs w s ∧ ownRight q s = true ∧ s.get OWN_STAT_owner ≠ 0 ∧ s.get OWN_STAT_ho_pend = 1 ∧ wf w OWN_HANDOVER_succ = 0) .partner 0 (st [(OWN_STAT_ho_pend, 1), (OWN_STAT_owner, 3)])) ∧
    ((fun (q : Rq) (s : State) => Sent q OWN_ACCEPT [] 0x0ACC s ∧ s.get OWN_STAT_ho_pend = 1 ∧ isNamed q s = true) .partner (st [(OWN_STAT_ho_pend, 1), (OWN_STAT_owner, 4), (OWN_STAT_succ, 3)])) ∧
    ((fun (q : Rq) (s : State) => Sent q OWN_ACCEPT [] 0x0ACC s ∧ s.get OWN_STAT_ho_pend = 1 ∧ isNamed q s = false) .hatch (st [(OWN_STAT_ho_pend, 1), (OWN_STAT_owner, 4), (OWN_STAT_succ, 3)])) ∧
    ((fun (s : State) => s.get OWN_STAT_ho_pend = 1) (st [(OWN_STAT_ho_pend, 1), (OWN_STAT_owner, 4), (OWN_STAT_succ, 3)])) := by
  refine ⟨?_, ?_, ?_, ?_, ?_, ?_, ?_, ?_, ?_, ?_, ?_, ?_, ?_, ?_⟩ <;> (beta_reduce; decide +kernel)

theorem test_hyps_HatchAndManagementBus :
    ((fun (s : State) => mgmtAlive s = true ∧ s.own.dyn = none) run12) ∧
    ((fun (s : State) => mgmtAlive s = true) (updOwn (fun o => { o with dyn := some 5 }) run12)) ∧
    ((fun (s : State) => mgmtAlive s = true ∧ s.own.dyn ≠ none) (updOwn (fun o => { o with dyn := some 5 }) run12)) ∧
    ((fun (s : State) => ownHeld s = false) .reset) ∧
    ((fun (s : State) => ownHeld s = false) (st [(OWN_HATCH_STAT_level, 2)])) ∧
    ((fun (op : BitVec 8) (s : State) => ownHeld s = false ∧ (op = 0 ∨ 3 < op.toNat)) 4 (st [(OWN_HATCH_STAT_level, 2)])) ∧
    ((fun (s : State) => ownHeld s = false ∧ hatchCan 1 (extestEnd s) = true) (st [(OWN_HATCH_STAT_level, 1)])) ∧
    ((fun (s : State) => ownHeld s = false ∧ hatchCan 1 (extestEnd s) = false) (st [(OWN_HATCH_STAT_level, 0)])) ∧
    ((fun (b : BitVec 8) (s : State) => ownHeld s = false ∧ b ≠ 0 ∧ hatchCan b.toNat (extestEnd s) = false) 3 .reset) ∧
    ((fun (s : State) => ownHeld s = false ∧ hatchOwner s = true) (st [(OWN_HATCH_STAT_level, 2), (OWN_STAT_owner, 4)])) ∧
    ((fun (s : State) => ownHeld s = false) .reset) ∧
    ((fun (s : State) => ownHeld s = false ∧ ((hatchIn 0x12 s).get OWN_HATCH_STAT_locked = 1 ∨ (leVal (mboxBytes 0 4 (hatchIn 0x12 s)) ≤ 3 ∧ 0 < leVal (mboxBytes 0x710 4 (hatchIn 0x12 s)) ∧ leVal (mboxBytes 0x710 4 (hatchIn 0x12 s)) ≤ 1280 ∧ (hatchIn 0x12 s).own.nonce = none))) (st [(OWN_HATCH_STAT_locked, 1)])) ∧
    ((fun (s : State) => ownHeld s = false ∧ (hatchIn 0x12 s).get OWN_HATCH_STAT_locked = 0 ∧ (3 < leVal (mboxBytes 0 4 (hatchIn 0x12 s)) ∨ leVal (mboxBytes 0x710 4 (hatchIn 0x12 s)) = 0 ∨ 1280 < leVal (mboxBytes 0x710 4 (hatchIn 0x12 s)))) .reset) ∧
    ((fun (n : List Byte) (t : Nat) (s : State) => ownHeld s = false ∧ (hatchIn 0x12 s).get OWN_HATCH_STAT_locked = 0 ∧ (leVal (mboxBytes 0 4 (hatchIn 0x12 s)) ≤ 3 ∧ 0 < leVal (mboxBytes 0x710 4 (hatchIn 0x12 s)) ∧ leVal (mboxBytes 0x710 4 (hatchIn 0x12 s)) ≤ 1280) ∧ (hatchIn 0x12 s).own.nonce = some (n, t) ∧ (hatchIn 0x12 s).now - t ≤ nonceLife) [1] 0 (updOwn (fun o => { o with nonce := some ([1], 0), mbox := [(0x710, 5)] }) .reset)) ∧
    ((fun (h : List Byte) (s : State) => ownHeld s = false ∧ (hatchIn 0x12 s).attic.pass = some h ∧ (hatchIn 0x12 s).get OWN_HATCH_STAT_locked = 0 ∧ ((h.all fun b => decide (b = 0)) = false)) [1] { State.reset with attic := { State.reset.attic with pass := some [1] } }) := by
  refine ⟨?_, ?_, ?_, ?_, ?_, ?_, ?_, ?_, ?_, ?_, ?_, ?_, ?_, ?_, ?_⟩ <;> (beta_reduce; decide +kernel)

theorem test_hyps_KeysAndSigning :
    ((fun (q : Rq) (w : Word) (s : State) => Sent q OWN_ZERO OWN_ZERO_fs (force w OWN_ZERO_keyload 1) s ∧ s.get OWN_HATCH_STAT_level = 0 ∧ s.own.key ≠ 2) (.core 12 .k) 0 .reset) ∧
    ((fun (q : Rq) (w : Word) (s : State) => Sent q OWN_ZERO OWN_ZERO_fs (force w OWN_ZERO_keyload 1) s ∧ (s.get OWN_HATCH_STAT_level ≠ 0 ∨ s.own.key = 2)) (.core 12 .k) 0 (st [(OWN_HATCH_STAT_level, 1)])) ∧
    ((fun (s : State) => ownHeld s = false ∧ s.own.key = 2) (updOwn (fun o => { o with key := 2 }) { State.reset with attic := { State.reset.attic with priv := some [1, 2, 3] } })) ∧
    ((fun (s : State) => ownHeld s = false ∧ s.own.key = 2) (updOwn (fun o => { o with key := 2 }) .reset)) ∧
    ((fun (q : Rq) (k : Fin 16) (s : State) => Sent q OWN_FUSE_CMD OWN_FUSE_CMD_fs (fuseWord 1 k) s ∧ k < 12 ∧ (s.get OWN_FUSE_BUF_buf % 8 = 0 ∧ inSram (s.get OWN_FUSE_BUF_buf) 32 = true) ∧ s.own.fuse = none ∧ majority (nth s.attic.slots k).enrolled = false ∧ (unitRead (s.get OWN_FUSE_BUF_buf) 32 (request q OWN_FUSE_CMD s)).2 = .done) (.core 12 .k) 3 (st [(OWN_FUSE_BUF_buf, 0x10000000)])) ∧
    ((fun (q : Rq) (k : Fin 16) (s : State) => Sent q OWN_FUSE_CMD OWN_FUSE_CMD_fs (fuseWord 1 k) s ∧ 12 ≤ k) (.core 12 .k) 12 .reset) ∧
    ((fun (q : Rq) (k : Fin 16) (s : State) => Sent q OWN_FUSE_CMD OWN_FUSE_CMD_fs (fuseWord 2 k) s ∧ k < 12 ∧ (s.get OWN_FUSE_BUF_buf % 8 = 0 ∧ inSram (s.get OWN_FUSE_BUF_buf) 32 = true) ∧ (s.own.fuse ≠ none ∨ majority (nth s.attic.slots k).enrolled = false ∨ lastUsable k s = true)) (.core 12 .k) 11 (st [(OWN_FUSE_BUF_buf, 0x10000000)])) ∧
    ((fun (q : Rq) (k : Fin 16) (s : State) => Sent q OWN_FUSE_CMD OWN_FUSE_CMD_fs (fuseWord 2 k) s ∧ k < 12 ∧ (s.get OWN_FUSE_BUF_buf % 8 = 0 ∧ inSram (s.get OWN_FUSE_BUF_buf) 32 = true) ∧ s.own.fuse = none ∧ majority (nth s.attic.slots k).enrolled = true ∧ lastUsable k s = false) (.core 12 .k) 11 { st [(OWN_FUSE_BUF_buf, 0x10000000)] with attic := { State.reset.attic with slots := upd State.reset.attic.slots 11 fun k => { k with enrolled := 7 } } }) ∧
    ((fun (f : Fuse) (s : State) => s.own.fuse = some f ∧ f.op = 2 ∧ f.slot < s.attic.slots.length) ⟨2, 11, []⟩ (updOwn (fun o => { o with fuse := some ⟨2, 11, []⟩ }) .reset)) ∧
    ((fun (f : Fuse) (s : State) => s.own.fuse = some f ∧ f.op = 1 ∧ f.slot < s.attic.slots.length ∧ ((List.range 32).map (fun i => nth (nth s.attic.slots f.slot).hash i ||| nth f.hash i) = f.hash)) ⟨1, 11, List.replicate 32 7⟩ (updOwn (fun o => { o with fuse := some ⟨1, 11, List.replicate 32 7⟩ }) .reset)) ∧
    ((fun (q : Rq) (s : State) => Sent q OWN_SIGN_CMD OWN_SIGN_CMD_fs (force 0 OWN_SIGN_CMD_op 1) s ∧ (s.get OWN_SIGN_BUF_buf % 8 = 0 ∧ inSram (s.get OWN_SIGN_BUF_buf) 2436 = true) ∧ s.own.sign = none ∧ s.get OWN_ZERO_key_ready = 1) (.core 12 .k) (st [(OWN_SIGN_BUF_buf, 0x10000000), (OWN_ZERO_key_ready, 1)])) ∧
    ((fun (q : Rq) (s : State) => Sent q OWN_SIGN_CMD OWN_SIGN_CMD_fs (force 0 OWN_SIGN_CMD_op 2) s ∧ keyRight q = true ∧ (s.get OWN_SIGN_BUF_buf % 8 = 0 ∧ inSram (s.get OWN_SIGN_BUF_buf) (0x44 + 1280) = true) ∧ s.own.sign = none) (.core 12 .k) (st [(OWN_SIGN_BUF_buf, 0x10000000)])) ∧
    ((fun (q : Rq) (s : State) => Sent q OWN_SIGN_CMD OWN_SIGN_CMD_fs (force 0 OWN_SIGN_CMD_op 1) s ∧ s.get OWN_SIGN_BUF_buf % 8 ≠ 0) (.core 12 .k) (st [(OWN_SIGN_BUF_buf, 4)])) ∧
    ((fun (g : Sign) (s : State) => s.own.sign = some g ∧ g.wait = true) { op := 2, buf := 0x10000000, band := 0, aon := 0, wait := true } (updOwn (fun o => { o with sign := some { op := 2, buf := 0x10000000, band := 0, aon := 0, wait := true } }) .reset)) ∧
    ((fun (g : Sign) (s : State) => s.own.sign = some g ∧ g.wait = false ∧ g.op ≠ 1) { op := 2, buf := 0x10000000, band := 0, aon := 0 } (updOwn (fun o => { o with sign := some { op := 2, buf := 0x10000000, band := 0, aon := 0 } }) .reset)) ∧
    ((fun (g : Sign) (h : Sign) (s : State) => s.own.sign = some g ∧ g.wait = false ∧ g.op = 1 ∧ g.hashed.length = 26 ∧ (unitRead (g.buf + 0x28) 32 s).1.own.sign = some h) { op := 1, buf := 0x10000000, band := 0, aon := 0, hashed := List.replicate 26 ([], false) } { op := 1, buf := 0x10000000, band := 0, aon := 0, hashed := List.replicate 26 ([], false) } (updOwn (fun o => { o with sign := some { op := 1, buf := 0x10000000, band := 0, aon := 0, hashed := List.replicate 26 ([], false) } }) .reset)) ∧
    ((fun (q : Rq) (hiReg : Bool) (w : Word) (s : State) => (Sent q (if hiReg then OWN_SECRET_HI else OWN_SECRET_LO) (if hiReg then OWN_SECRET_HI_fs else OWN_SECRET_LO_fs) w s) ∧ windowOk ((secretNew hiReg w s).get OWN_SECRET_LO_base) ((secretNew hiReg w s).get OWN_SECRET_HI_end) = true) (.core 12 .k) true 0x10010000 (st [(OWN_SECRET_LO_base, 0x10000)])) ∧
    ((fun (q : Rq) (hiReg : Bool) (w : Word) (s : State) => (Sent q (if hiReg then OWN_SECRET_HI else OWN_SECRET_LO) (if hiReg then OWN_SECRET_HI_fs else OWN_SECRET_LO_fs) w s) ∧ windowOk ((secretNew hiReg w s).get OWN_SECRET_LO_base) ((secretNew hiReg w s).get OWN_SECRET_HI_end) = true) (.core 12 .k) false 0x10000000 (st [(OWN_SECRET_HI_end, 0x10010)])) ∧
    ((fun (q : Rq) (hiReg : Bool) (w : Word) (s : State) => (Sent q (if hiReg then OWN_SECRET_HI else OWN_SECRET_LO) (if hiReg then OWN_SECRET_HI_fs else OWN_SECRET_LO_fs) w s) ∧ windowOk ((secretNew hiReg w s).get OWN_SECRET_LO_base) ((secretNew hiReg w s).get OWN_SECRET_HI_end) = false ∧ ((secretNew hiReg w s).get OWN_SECRET_LO_base ≠ s.get OWN_SECRET_LO_base ∨ (secretNew hiReg w s).get OWN_SECRET_HI_end ≠ s.get OWN_SECRET_HI_end)) (.core 12 .k) true 0x5000 (st [(OWN_SECRET_LO_base, 0x10000)])) := by
  refine ⟨?_, ?_, ?_, ?_, ?_, ?_, ?_, ?_, ?_, ?_, ?_, ?_, ?_, ?_, ?_, ?_, ?_, ?_, ?_⟩ <;> (beta_reduce; decide +kernel)

theorem test_hyps_FabricLinks :
    ((fun (s : State) => snkHeld s = false) (fabUp [])) ∧
    ((fun (l : Fin 10) (c : List Byte) (s : State) => CrateHeard l s ∧ WellMade c ∧ cType c = 0) 8 (crated (mkCrate 0 2 0 1 (List.replicate 36 1))) (fabUp [])) ∧
    ((fun (l : Fin 10) (c : List Byte) (s : State) => CrateHeard l s ∧ ¬WellMade c ∧ cBcast c = false) 8 (mkCrate 0 2 0 1 (List.replicate 36 1)) (fabUp [])) ∧
    ((fun (l : Fin 10) (s : State) => snkHeld s = false ∧ s.get (SNK_LINK_STAT_state l) ≠ 0) 8 (fabUp [(SNK_LINK_STAT_state 8, 2)])) ∧
    ((fun (l : Fin 10) (s : State) => snkHeld s = false ∧ 8 ≤ l) 8 (fabUp [(SNK_LINK_STAT_state 8, 2)])) ∧
    ((fun (l : Fin 10) (s : State) => snkHeld s = false ∧ 8 ≤ l) 9 (fabUp [])) ∧
    ((fun (l : Fin 10) (s : State) => snkHeld s = false ∧ l < 8) 2 (fabUp [(SNK_LINK_STAT_state 2, 2)])) ∧
    ((fun (l : Fin 10) (c : List Byte) (s : State) => CrateHeard l s ∧ WellMade c ∧ cBcast c = false ∧ (cType c ≠ 0 ∧ cType c ≠ 6) ∧ cDst c = ownAddr s) 8 (crated (mkCrate 8 3 7 1 [1, 2, 3, 4])) (fabUp [])) ∧
    ((fun (l : Fin 10) (c : List Byte) (s : State) => CrateHeard l s ∧ WellMade c ∧ cBcast c = false ∧ (cType c ≠ 0 ∧ cType c ≠ 6) ∧ cDst c ≠ ownAddr s ∧ cTtl c ≤ 1) 8 (crated (mkCrate 8 3 9 1 [1, 2, 3, 4])) (fabUp [])) ∧
    ((fun (l : Fin 10) (c : List Byte) (s : State) => CrateHeard l s ∧ WellMade c ∧ cBcast c = false ∧ (cType c ≠ 0 ∧ cType c ≠ 6) ∧ cDst c ≠ ownAddr s ∧ 1 < cTtl c ∧ (s.get (SNK_ROUTE_link (cDst c)) < 10 ∧ linkUp (s.get (SNK_ROUTE_link (cDst c))) s = true)) 8 (crated (mkCrate 8 3 9 2 [1, 2, 3, 4])) (fabUp [(SNK_ROUTE_link 9, 9), (SNK_LINK_STAT_state 9, 2)])) ∧
    ((fun (l : Fin 10) (c : List Byte) (s : State) => CrateHeard l s ∧ WellMade c ∧ cBcast c = false ∧ (cType c ≠ 0 ∧ cType c ≠ 6) ∧ cDst c ≠ ownAddr s ∧ 1 < cTtl c ∧ linkUp (s.get (SNK_ROUTE_link (cDst c))) s = false) 8 (crated (mkCrate 8 3 9 2 [1, 2, 3, 4])) (fabUp [])) ∧
    ((fun (l : Fin 10) (c : List Byte) (s : State) => CrateHeard l s ∧ WellMade c ∧ cBcast c = true ∧ (cType c ≠ 0 ∧ cType c ≠ 6) ∧ (1 ≤ floodDist c s ∧ floodDist c s ≤ 127)) 8 (crated (cSet (cSet (mkCrate 8 3 0 2 [1, 2, 3, 4]) 1 130) 7 1)) (fabUp [(SNK_LINK_STAT_state 9, 2)])) ∧
    ((fun (l : Fin 10) (c : List Byte) (s : State) => CrateHeard l s ∧ WellMade c ∧ cBcast c = true ∧ (cType c ≠ 0 ∧ cType c ≠ 6) ∧ (floodDist c s = 0 ∨ 127 < floodDist c s)) 8 (crated (cSet (mkCrate 8 3 0 2 [1, 2, 3, 4]) 1 130)) (fabUp [])) := by
  refine ⟨?_, ?_, ?_, ?_, ?_, ?_, ?_, ?_, ?_, ?_, ?_, ?_, ?_⟩ <;> (beta_reduce; decide +kernel)

theorem test_hyps_FabricSending :
    ((fun (q : Rq) (t : Fin 8) (w : Word) (s : State) => Sent q (SNK_TX_CMD t) SNK_TX_CMD_fs (force w (SNK_TX_CMD_go t) 1) s ∧ wf w (SNK_TX_CMD_link t) < 10 ∧ s.get (SNK_TX_RESULT_busy t) = 0 ∧ (s.rd (SNK_TX_ADDR t)).toNat % 8 = 0 ∧ inSram (slotAt t s) (8 + cLen (slotHead (slotAt t s) (slotSeen q t s))) = true ∧ slotRead q t s = .done ∧ hdrOk (slotHead (slotAt t s) (slotSeen q t s)) = true ∧ (slotSeen q t s).get SNK_ADDR_conflict = 0 ∧ linkUp (wf w (SNK_TX_CMD_link t)) (slotSeen q t s) = true ∧ (enqueue (wf w (SNK_TX_CMD_link t)) { bytes := (originate (slotCrate (slotAt t s) (slotSeen q t s)) (slotSeen q t s)).2, cls := cCls (slotCrate (slotAt t s) (slotSeen q t s)), own := some t.val } (originate (slotCrate (slotAt t s) (slotSeen q t s)) (slotSeen q t s)).1).2 = true) (.core 12 .k) 2 (BitVec.ofNat 32 (9 * 2 ^ (SNK_TX_CMD_link 2).lo)) (((fabUp [(SNK_LINK_STAT_state 9, 2)]).wr (SNK_TX_ADDR 2) 0x10000000).putBytes 0x10000000 (mkCrate 8 3 9 2 [1, 2, 3, 4]))) ∧
    ((fun (q : Rq) (t : Fin 8) (w : Word) (s : State) => Sent q (SNK_TX_CMD t) SNK_TX_CMD_fs (force w (SNK_TX_CMD_go t) 1) s ∧ (wf w (SNK_TX_CMD_link t) < 10 ∨ wf w (SNK_TX_CMD_link t) = 15) ∧ s.get (SNK_TX_RESULT_busy t) = 0 ∧ (s.rd (SNK_TX_ADDR t)).toNat % 8 ≠ 0) (.core 12 .k) 2 0 ((fabUp []).wr (SNK_TX_ADDR 2) 0x10000004)) ∧
    ((fun (q : Rq) (t : Fin 8) (w : Word) (s : State) => Sent q (SNK_TX_CMD t) SNK_TX_CMD_fs (force w (SNK_TX_CMD_go t) 1) s ∧ (wf w (SNK_TX_CMD_link t) < 10 ∨ wf w (SNK_TX_CMD_link t) = 15) ∧ s.get (SNK_TX_RESULT_busy t) = 1) (.core 12 .k) 2 0 (fabUp [(SNK_TX_RESULT_busy 2, 1)])) ∧
    ((fun (q : Rq) (w : Word) (s : State) => Sent q SNK_RRA_CTRL SNK_RRA_CTRL_fs (rraWord 1 w) s ∧ s.get SNK_RRA_RESULT_busy = 0 ∧ (rraRouted 1 (wrote q SNK_RRA_CTRL SNK_RRA_CTRL_fs (rraWord 1 w) s)).2 = .held) (.core 12 .k) (BitVec.ofNat 32 (9 * 2 ^ SNK_RRA_CTRL_dst.lo)) (fabUp [(SNK_ROUTE_link 9, 9), (SNK_LINK_STAT_state 9, 2)])) ∧
    ((fun (q : Rq) (w : Word) (s : State) => Sent q SNK_RRA_CTRL SNK_RRA_CTRL_fs (rraWord 2 w) s ∧ s.get SNK_RRA_RESULT_busy = 0 ∧ (rraRouted 2 (wrote q SNK_RRA_CTRL SNK_RRA_CTRL_fs (rraWord 2 w) s)).2 = .held) (.core 12 .k) (BitVec.ofNat 32 (9 * 2 ^ SNK_RRA_CTRL_dst.lo)) (fabUp [(SNK_ROUTE_link 9, 9), (SNK_LINK_STAT_state 9, 2)])) ∧
    ((fun (q : Rq) (w : Word) (s : State) => Sent q SNK_RRA_CTRL SNK_RRA_CTRL_fs (rraWord 1 w) s ∧ s.get SNK_RRA_RESULT_busy = 0 ∧ (rraRouted 1 (wrote q SNK_RRA_CTRL SNK_RRA_CTRL_fs (rraWord 1 w) s)).2 = .notReady) (.core 12 .k) 0 (fabUp [])) ∧
    ((fun (q : Rq) (w : Word) (s : State) => Sent q SNK_RRA_CTRL SNK_RRA_CTRL_fs (rraWord 1 w) s ∧ s.get SNK_RRA_RESULT_busy = 0 ∧ (rraRouted 1 (wrote q SNK_RRA_CTRL SNK_RRA_CTRL_fs (rraWord 1 w) s)).2 = .capacity ∧ (rraRouted 1 (wrote q SNK_RRA_CTRL SNK_RRA_CTRL_fs (rraWord 1 w) s)).1.get SNK_ADDR_conflict = 1) (.core 12 .k) (BitVec.ofNat 32 (9 * 2 ^ SNK_RRA_CTRL_dst.lo)) (fabUp [(SNK_ROUTE_link 9, 9), (SNK_LINK_STAT_state 9, 2), (SNK_ADDR_conflict, 1)])) ∧
    ((fun (q : Rq) (w : Word) (s : State) => Sent q SNK_RRA_CTRL SNK_RRA_CTRL_fs (rraWord 1 w) s ∧ s.get SNK_RRA_RESULT_busy = 0 ∧ (rraRouted 1 (wrote q SNK_RRA_CTRL SNK_RRA_CTRL_fs (rraWord 1 w) s)).2 = .capacity ∧ (rraRouted 1 (wrote q SNK_RRA_CTRL SNK_RRA_CTRL_fs (rraWord 1 w) s)).1.get SNK_ADDR_conflict = 0) (.core 12 .k) (BitVec.ofNat 32 (9 * 2 ^ SNK_RRA_CTRL_dst.lo)) (updLink 9 (fun k => { k with q := [{ bytes := List.replicate 4090 0, cls := 2 }] }) (fabUp [(SNK_ROUTE_link 9, 9), (SNK_LINK_STAT_state 9, 2)]))) ∧
    ((fun (q : Rq) (w : Word) (s : State) => Sent q SNK_RRA_CTRL SNK_RRA_CTRL_fs (rraWord 1 w) s ∧ s.get SNK_RRA_RESULT_busy = 1) (.core 12 .k) 0 (fabUp [(SNK_RRA_RESULT_busy, 1)])) ∧
    ((fun (l : Fin 10) (c : List Byte) (s : State) => CrateHeard l s ∧ WellMade c ∧ cType c = 4 ∧ cBcast c = false ∧ cDst c = ownAddr s ∧ s.snk.rra = some (cSeq c, cSrc c, true)) 8 (crated (mkCrate 4 2 7 1 [0, 0, 0, 0, 1, 2, 3, 4])) { fabUp [] with snk := { (fabUp []).snk with rra := some (0, 0, true) } }) ∧
    ((fun (l : Fin 10) (c : List Byte) (s : State) => CrateHeard l s ∧ WellMade c ∧ cType c = 4 ∧ cBcast c = false ∧ cDst c = ownAddr s ∧ s.snk.rra = none) 8 (crated (mkCrate 4 2 7 1 [0, 0, 0, 0, 1, 2, 3, 4])) (fabUp [])) ∧
    ((fun (s : State) => s.snk.rra ≠ none ∧ snkHeld s = false) { fabUp [] with snk := { (fabUp []).snk with rra := some (0, 0, true) } }) ∧
    ((fun (q : Rq) (w : Word) (s : State) => Sent q SNK_ADDR SNK_ADDR_fs w s ∧ s.chg w SNK_ADDR_addr = true) (.core 12 .k) 9 (fabUp [])) ∧
    ((fun (q : Rq) (s : State) => Reads q SNK_DISC s) (.core 12 .k) (fabUp [(SNK_DISC_late, 3)])) ∧
    ((fun (q : Rq) (c : Fin 4) (s : State) => Reads q (SNK_DROP c) s) (.core 12 .k) 2 (fabUp [(SNK_DROP_count 2, 3)])) ∧
    ((fun (l : Fin 10) (s : State) => canEnd l s = true ∧ s.snk.after = none) 8 (updLink 8 (fun k => { k with cur := some { bytes := [1], cls := 2 } }) (fabUp []))) ∧
    ((fun (l : Fin 10) (e : QEnt) (a : Bool × Nat × Word) (s : State) => canEnd l s = true ∧ (snkLink l s).cur = some e ∧ e.own = some 9 ∧ s.snk.after = some a ∧ (snkLink l s).q = []) 8 { bytes := [1], cls := 2, own := some 9 } (false, 0, 0x6D3B) (updSnk (fun k => { k with after := some (false, 0, 0x6D3B) }) (updLink 8 (fun k => { k with cur := some { bytes := [1], cls := 2, own := some 9 } }) (fabUp [])))) := by
  refine ⟨?_, ?_, ?_, ?_, ?_, ?_, ?_, ?_, ?_, ?_, ?_, ?_, ?_, ?_, ?_, ?_, ?_⟩ <;> (beta_reduce; decide +kernel)

theorem test_hyps_RedundantPair :
    ((fun (q : Rq) (w : Word) (s : State) => Sent q SNK_PAIR_CTRL SNK_PAIR_CTRL_fs (force w SNK_PAIR_CTRL_en 1) s ∧ s.get SNK_PAIR_CTRL_en = 0 ∧ s.get SNK_ADDR_mode = 1) (.core 12 .k) 0 (fabUp [(SNK_ADDR_mode, 1)])) ∧
    ((fun (q : Rq) (w : Word) (s : State) => Sent q SNK_PAIR_CTRL SNK_PAIR_CTRL_fs (force w SNK_PAIR_CTRL_en 1) s ∧ s.get SNK_PAIR_CTRL_en = 0 ∧ s.get SNK_ADDR_mode = 0) (.core 12 .k) 0 (fabUp [])) ∧
    ((fun (q : Rq) (s : State) => Sent q SNK_PAIR_CTRL SNK_PAIR_CTRL_fs (force (s.rd SNK_PAIR_CTRL) SNK_PAIR_CTRL_en 0) s ∧ s.get SNK_PAIR_CTRL_en = 1 ∧ s.get SNK_PAIR_STAT_role ≠ 3) (.core 12 .k) (fabUp [(SNK_PAIR_CTRL_en, 1), (SNK_PAIR_STAT_role, 2)])) ∧
    ((fun (q : Rq) (w : Word) (s : State) => Sent q SNK_PAIR_CTRL SNK_PAIR_CTRL_fs (force w SNK_PAIR_CTRL_en 0) s ∧ s.get SNK_PAIR_CTRL_en = 1 ∧ s.get SNK_PAIR_STAT_role = 3) (.core 12 .k) 0 (fabUp [(SNK_PAIR_CTRL_en, 1), (SNK_PAIR_STAT_role, 3)])) ∧
    ((fun (s : State) => snkHeld s = false ∧ s.get SNK_PAIR_CTRL_en = 1 ∧ s.get SNK_PAIR_CTRL_hb_lane_en = 0 ∧ linkRuns 8 s = true) (fabUp [(SNK_PAIR_CTRL_en, 1), (SNK_PAIR_STAT_role, 2)])) ∧
    ((fun (l : Fin 10) (c : List Byte) (s : State) => CrateHeard l s ∧ WellMade c ∧ cType c = 6 ∧ s.get SNK_PAIR_CTRL_en = 1 ∧ cSrc c = s.get SNK_PAIR_CTRL_partner ∧ l = 8) 8 (crated (cFrom 5 0 (mkCrate 6 0 7 1 [2, 0, 0, 0, 0, 0, 0, 0]))) (fabUp [(SNK_PAIR_CTRL_en, 1), (SNK_PAIR_STAT_role, 1), (SNK_PAIR_CTRL_partner, 5)])) ∧
    ((fun (s : State) => snkHeld s = false ∧ s.get SNK_PAIR_CTRL_en = 1) (fabUp [(SNK_PAIR_CTRL_en, 1), (SNK_PAIR_STAT_role, 3)])) ∧
    ((fun (s : State) => snkHeld s = false ∧ s.get SNK_PAIR_CTRL_en = 1 ∧ s.get SNK_PAIR_STAT_lane_ok = 1 ∧ s.get SNK_PAIR_STAT_fab_ok = 1) (fabUp [(SNK_PAIR_CTRL_en, 1), (SNK_PAIR_STAT_fab_ok, 1), (SNK_PAIR_STAT_lane_ok, 1)])) ∧
    ((fun (q : Rq) (s : State) => Sent q SNK_PAIR_CMD SNK_PAIR_CMD_fs (force 0 SNK_PAIR_CMD_op 1) s ∧ s.get SNK_PAIR_STAT_role = 2 ∧ s.get SNK_PAIR_STAT_p_ready = 1) (.core 12 .k) (fabUp [(SNK_PAIR_STAT_role, 2), (SNK_PAIR_STAT_p_ready, 1)])) ∧
    ((fun (q : Rq) (s : State) => Sent q SNK_PAIR_CMD SNK_PAIR_CMD_fs (force 0 SNK_PAIR_CMD_op 1) s ∧ s.get SNK_PAIR_STAT_role = 2 ∧ s.get SNK_PAIR_STAT_p_ready = 0) (.core 12 .k) (fabUp [(SNK_PAIR_STAT_role, 2)])) ∧
    ((fun (q : Rq) (s : State) => Sent q SNK_PAIR_CMD SNK_PAIR_CMD_fs (force 0 SNK_PAIR_CMD_op 1) s ∧ s.get SNK_PAIR_STAT_role ≠ 2 ∧ s.snk.yieldW ≠ 2) (.core 12 .k) (fabUp [(SNK_PAIR_STAT_role, 3)])) ∧
    ((fun (s : State) => snkHeld s = false ∧ s.snk.yieldW = 2) { fabUp [] with snk := { (fabUp []).snk with yieldW := 2 } }) ∧
    ((fun (s : State) => snkHeld s = false ∧ s.get SNK_PAIR_STAT_role = 1) (fabUp [(SNK_PAIR_STAT_role, 1)])) := by
  refine ⟨?_, ?_, ?_, ?_, ?_, ?_, ?_, ?_, ?_, ?_, ?_, ?_, ?_⟩ <;> (beta_reduce; decide +kernel)

theorem test_hyps_OutsideAccesses :
    ((fun (s : State) => mgmtAlive s = true ∧ ownHeld s = false) run12) ∧
    ((fun (b : Byte) (s : State) => PageOf 0xB1 s ∧ 128 ≤ b.toNat) 130 (updOwn (fun o => { o with page := 0xB1 }) run12)) ∧
    ((fun (b : Byte) (s : State) => PageOf 0xB0 s ∧ 128 ≤ b.toNat ∧ b.toNat ≤ 132) 132 (updOwn (fun o => { o with page := 0xB0 }) run12)) ∧
    ((fun (s : State) => PageOf 0xB0 s ∧ rqWaits .host (winAt (b0Set 5 1 s)) (b0Set 5 1 s) = false ∧ winAt (b0Set 5 1 s) % 4 = 0 ∧ (1 ≤ winCount (b0Set 5 1 s) ∧ winCount (b0Set 5 1 s) ≤ 32) ∧ nth (b0Set 5 1 s).own.b0 5 = 1 ∧ (winRead (b0Set 5 1 s)).2.1 = .done) (updOwn (fun o => { o with page := 0xB0, b0 := [0, 0, 0, 0x10, 2, 0, 0, 0, 0] }) (run12.set OWN_POLICY_read_mask 15))) ∧
    ((fun (s : State) => PageOf 0xB0 s ∧ rqWaits .host (winAt (b0Set 5 2 s)) (b0Set 5 2 s) = false ∧ winAt (b0Set 5 2 s) % 4 = 0 ∧ (1 ≤ winCount (b0Set 5 2 s) ∧ winCount (b0Set 5 2 s) ≤ 32) ∧ nth (b0Set 5 2 s).own.b0 5 = 2 ∧ (winWrite (b0Set 5 2 s)).2.1 = .done) (updOwn (fun o => { o with page := 0xB0, b0 := [0, 0, 0, 0x10, 2, 0, 0, 0, 0] }) ((run12.set OWN_POLICY_read_mask 15).set OWN_STAT_owner 1))) ∧
    ((fun (v : Byte) (s : State) => PageOf 0xB0 s ∧ rqWaits .host (winAt (b0Set 5 v.toNat s)) (b0Set 5 v.toNat s) = false ∧ winAt (b0Set 5 v.toNat s) % 4 ≠ 0) 1 (updOwn (fun o => { o with page := 0xB0, b0 := [2, 0, 0, 0x10, 2, 0, 0, 0, 0] }) run12)) ∧
    ((fun (v : Byte) (s : State) => PageOf 0xB0 s ∧ rqWaits .host (winAt (b0Set 5 v.toNat s)) (b0Set 5 v.toNat s) = false ∧ winAt (b0Set 5 v.toNat s) % 4 = 0 ∧ (winCount (b0Set 5 v.toNat s) = 0 ∨ 32 < winCount (b0Set 5 v.toNat s))) 1 (updOwn (fun o => { o with page := 0xB0, b0 := [0, 0, 0, 0x10, 33, 0, 0, 0, 0] }) run12)) ∧
    ((fun (v : Byte) (s : State) => PageOf 0xB0 s ∧ rqWaits .host (winAt (b0Set 5 v.toNat s)) (b0Set 5 v.toNat s) = true) 1 (updOwn (fun o => { o with page := 0xB0, b0 := [0, 0, 0, 0x10, 1, 0, 0, 0, 0] }) (run12.set CRP_CLK_STAT_sys_gated 1))) ∧
    ((fun (s : State) => PageOf 0x10 s ∧ (scRuns s = true ∧ scInRom s = false ∧ inSwap 12 s = false) ∧ s.own.bank = 0) (updOwn (fun o => { o with page := 0x10 }) run12)) ∧
    ((fun (a : Word) (s : State) => ownHeld s = false ∧ hatchCan 0x20 (extestEnd s) = true ∧ rqWaits .hatch a.toNat (hatchIn 0x20 s) = false ∧ (busRead .hatch a.toNat 4 (hatchIn 0x20 s)).2.2.length = 4) 0x10000000 ((State.reset.set OWN_HATCH_STAT_level 1).set OWN_POLICY_read_mask 15)) ∧
    ((fun (a : Word) (s : State) => ownHeld s = false ∧ hatchCan 0x20 (extestEnd s) = true ∧ (hatchIn 0x20 s).get OWN_HATCH_STAT_level = 2 ∧ rqWaits .hatch a.toNat (hatchIn 0x20 s) = false) 0x10000000 (st [(OWN_HATCH_STAT_level, 2), (OWN_STAT_owner, 4)])) ∧
    ((fun (a : Word) (s : State) => ownHeld s = false ∧ hatchCan 0x20 (extestEnd s) = true ∧ (hatchIn 0x20 s).get OWN_HATCH_STAT_level = 1 ∧ inSecret a.toNat (hatchIn 0x20 s) = false) 0x10000000 (st [(OWN_HATCH_STAT_level, 1)])) ∧
    ((fun (c : List Byte) (s : State) => reqFront 2 s = some c ∧ reqCode c = .done) (mkCrate 2 2 7 1 [0, 0, 0, 0x10, 1, 0, 0, 0]) (updSnk (fun k => { k with reqs := [mkCrate 2 2 7 1 [0, 0, 0, 0x10, 1, 0, 0, 0]] }) (fabUp []))) ∧
    ((fun (c : List Byte) (s : State) => reqFront 3 s = some c ∧ reqCode c = .done) (mkCrate 3 2 7 1 [0, 0, 0, 0x10, 1, 0, 0, 0, 1, 2, 3, 4]) (updSnk (fun k => { k with reqs := [mkCrate 3 2 7 1 [0, 0, 0, 0x10, 1, 0, 0, 0, 1, 2, 3, 4]] }) (fabUp []))) ∧
    ((fun (c : List Byte) (s : State) => reqFront 2 s = some c ∧ reqCode c ≠ .done) (mkCrate 2 2 7 1 [2, 0, 0, 0x10, 1, 0, 0, 0]) (updSnk (fun k => { k with reqs := [mkCrate 2 2 7 1 [2, 0, 0, 0x10, 1, 0, 0, 0]] }) (fabUp []))) ∧
    ((fun (c : Fin 13) (s : State) => ownHeld s = false ∧ hatchCan 0x21 (extestEnd s) = true ∧ coreState c (hatchCoreAt c s) = 1) 0 (((run0.set OWN_HATCH_STAT_level 2).set OWN_STAT_owner 4))) ∧
    ((fun (c : Fin 13) (s : State) => ownHeld s = false ∧ hatchCan 0x21 (extestEnd s) = true ∧ coreState c (hatchCoreAt c s) ≠ 1) 0 (st [(OWN_HATCH_STAT_level, 2), (OWN_STAT_owner, 4)])) ∧
    ((fun (c : Fin 13) (s : State) => ownHeld s = false ∧ hatchCan 0x21 (extestEnd s) = true ∧ coreState c (hatchIn 0x21 s) = 2) 0 (st [(OWN_HATCH_STAT_level, 2), (OWN_STAT_owner, 4), (OWN_CORE_STAT_state 0, 2)])) ∧
    ((fun (c : Fin 13) (s : State) => ownHeld s = false ∧ hatchCan 0x21 (extestEnd s) = true ∧ coreState c (hatchIn 0x21 s) = 2 ∧ (fullHeld (hatchIn 0x21 s) = false ∧ (hatchIn 0x21 s).rst.wide = false ∧ (hatchIn 0x21 s).stop = false ∧ (hatchIn 0x21 s).get CRP_CLK_STAT_sys_gated = 0) ∧ (fetch c (stepFrom c s)).2.1 = .done) 0 (((run0.set OWN_HATCH_STAT_level 2).set OWN_STAT_owner 4).set (OWN_CORE_STAT_state 0) 2)) ∧
    ((fun (c : Fin 13) (s : State) => ownHeld s = false ∧ hatchCan 0x21 (extestEnd s) = true ∧ coreState c (hatchCoreAt c s) = 2) 0 (st [(OWN_HATCH_STAT_level, 2), (OWN_STAT_owner, 4), (OWN_CORE_STAT_state 0, 2)])) ∧
    ((fun (c : Fin 13) (s : State) => ownHeld s = false ∧ hatchCan 0x21 (extestEnd s) = true ∧ coreState c (hatchCoreAt c s) = 2) 0 (st [(OWN_HATCH_STAT_level, 2), (OWN_STAT_owner, 4), (OWN_CORE_STAT_state 0, 2)])) ∧
    ((fun (c : Fin 13) (n : BitVec 12) (s : State) => ownHeld s = false ∧ hatchCan 0x21 (extestEnd s) = true ∧ coreState c (hatchCoreAt c s) = 2 ∧ csrListed n.toNat = true ∧ n.toNat / 1024 ≠ 2 ∧ n.toNat / 512 % 2 = 0) 0 0x401 (st [(OWN_HATCH_STAT_level, 2), (OWN_STAT_owner, 4), (OWN_CORE_STAT_state 0, 2)])) := by
  refine ⟨?_, ?_, ?_, ?_, ?_, ?_, ?_, ?_, ?_, ?_, ?_, ?_, ?_, ?_, ?_, ?_, ?_, ?_, ?_, ?_, ?_, ?_⟩ <;> (beta_reduce; decide +kernel)

theorem test_hyps_CoresAndLoader :
    ((fun (q : Rq) (c : Fin 13) (b : Bool) (s : State) => Sent q (OWN_CORE_CTRL c) OWN_CORE_CTRL_fs (coreWord c 0 b) s) (.core 12 .k) 3 true .reset) ∧
    ((fun (q : Rq) (c : Fin 13) (b : Bool) (s : State) => Sent q (OWN_CORE_CTRL c) OWN_CORE_CTRL_fs (coreWord c 1 b) s ∧ c ≠ 12 ∧ coreState c s = 0 ∧ s.get (chkFd c b.toNat) = 1) (.core 12 .k) 3 true (st [(OWN_CORE_STAT_chk_b 3, 1)])) ∧
    ((fun (q : Rq) (c : Fin 13) (b : Bool) (s : State) => Sent q (OWN_CORE_CTRL c) OWN_CORE_CTRL_fs (coreWord c 1 b) s ∧ c ≠ 12 ∧ (coreState c s ≠ 0 ∨ s.get (chkFd c b.toNat) = 0)) (.core 12 .k) 3 true .reset) ∧
    ((fun (q : Rq) (b : Bool) (s : State) => Sent q (OWN_CORE_CTRL 12) OWN_CORE_CTRL_fs (coreWord 12 1 b) s) (.core 12 .k) true .reset) ∧
    ((fun (q : Rq) (c : Fin 13) (b : Bool) (s : State) => Sent q (OWN_CORE_CTRL c) OWN_CORE_CTRL_fs (coreWord c 2 b) s ∧ c ≠ 12 ∧ coreState c s = 1) (.core 12 .k) 0 false run0) ∧
    ((fun (q : Rq) (c : Fin 13) (b : Bool) (s : State) => Sent q (OWN_CORE_CTRL c) OWN_CORE_CTRL_fs (coreWord c 2 b) s ∧ c ≠ 12 ∧ coreState c s = 1) (.core 12 .k) 0 false (updCpu 0 (fun k => { k with wait := .wait }) run0)) ∧
    ((fun (q : Rq) (c : Fin 13) (b : Bool) (s : State) => Sent q (OWN_CORE_CTRL c) OWN_CORE_CTRL_fs (coreWord c 2 b) s ∧ c ≠ 12 ∧ coreState c s ≠ 1) (.core 12 .k) 0 false .reset) ∧
    ((fun (c : Fin 13) (s : State) => coreState c s = 1 ∧ inSwap c s = false ∧ (s.cpu c).haltReq = 1) 0 (updCpu 0 (fun k => { k with haltReq := 1 }) run0)) ∧
    ((fun (q : Rq) (c : Fin 13) (b : Bool) (s : State) => Sent q (OWN_CORE_CTRL c) OWN_CORE_CTRL_fs (coreWord c 3 b) s ∧ c ≠ 12 ∧ coreState c s = 2) (.core 12 .k) 0 false (st [(OWN_CORE_STAT_state 0, 2)])) ∧
    ((fun (q : Rq) (c : Fin 13) (b : Bool) (s : State) => Sent q (OWN_CORE_CTRL c) OWN_CORE_CTRL_fs (coreWord c 3 b) s ∧ c ≠ 12 ∧ coreState c s ≠ 2) (.core 12 .k) 0 false run0) ∧
    ((fun (q : Rq) (c : Fin 13) (b : Bool) (s : State) => Sent q (OWN_CORE_CTRL c) OWN_CORE_CTRL_fs (coreWord c 4 b) s ∧ c ≠ 12) (.core 12 .k) 0 false run0) ∧
    ((fun (q : Rq) (c : Fin 16) (s : State) => Sent q OWN_LD_CMD OWN_LD_CMD_fs (loadWord c) s ∧ s.get OWN_LD_SRC_addr % 8 = 0 ∧ c ≤ 12 ∧ imageFits (s.get OWN_LD_SRC_addr) (loadSeen q s) = true ∧ (loadSeen q s).load = none ∧ ((loadSeen q s).rst.atticBusy = false ∧ (loadSeen q s).get CRP_ATTIC_STAT_hold = 0) ∧ (loadSeen q s).get (OWN_CORE_STAT_armed c) = 0 ∧ coreState c (loadSeen q s) = 0) (.core 12 .k) 3 { st [(OWN_LD_SRC_addr, 0x10000000)] with rst := { State.reset.rst with atticBusy := false } }) ∧
    ((fun (q : Rq) (c : Fin 16) (s : State) => Sent q OWN_LD_CMD OWN_LD_CMD_fs (loadWord c) s ∧ s.get OWN_LD_SRC_addr % 8 = 0 ∧ c < 12 ∧ imageFits (s.get OWN_LD_SRC_addr) (loadSeen q s) = true ∧ (loadSeen q s).load = none ∧ ((loadSeen q s).rst.atticBusy = false ∧ (loadSeen q s).get CRP_ATTIC_STAT_hold = 0) ∧ (loadSeen q s).get (OWN_CORE_STAT_armed c) = 0 ∧ coreState c (loadSeen q s) ≠ 0) (.core 12 .k) 3 { st [(OWN_LD_SRC_addr, 0x10000000), (OWN_CORE_STAT_state 3, 1)] with rst := { State.reset.rst with atticBusy := false } }) ∧
    ((fun (q : Rq) (c : Fin 16) (s : State) => Sent q OWN_LD_CMD OWN_LD_CMD_fs (loadWord c) s ∧ s.get OWN_LD_SRC_addr % 8 ≠ 0) (.core 12 .k) 3 (st [(OWN_LD_SRC_addr, 0x10000004)])) ∧
    ((fun (q : Rq) (c : Fin 16) (s : State) => Sent q OWN_LD_CMD OWN_LD_CMD_fs (loadWord c) s ∧ s.get OWN_LD_SRC_addr % 8 = 0 ∧ (12 < c ∨ imageFits (s.get OWN_LD_SRC_addr) (loadSeen q s) = false)) (.core 12 .k) 13 (st [(OWN_LD_SRC_addr, 0x10000000)])) ∧
    ((fun (q : Rq) (c : Fin 16) (s : State) => Sent q OWN_LD_CMD OWN_LD_CMD_fs (loadWord c) s ∧ s.get OWN_LD_SRC_addr % 8 = 0 ∧ (12 < c ∨ imageFits (s.get OWN_LD_SRC_addr) (loadSeen q s) = false)) (.core 12 .k) 0 .reset) ∧
    ((fun (q : Rq) (c : Fin 16) (s : State) => Sent q OWN_LD_CMD OWN_LD_CMD_fs (loadWord c) s ∧ s.get OWN_LD_SRC_addr % 8 = 0 ∧ c ≤ 12 ∧ imageFits (s.get OWN_LD_SRC_addr) (loadSeen q s) = true ∧ ((loadSeen q s).load ≠ none ∨ (loadSeen q s).get (OWN_CORE_STAT_armed c) = 1 ∨ (loadSeen q s).rst.atticBusy = true ∨ (loadSeen q s).get CRP_ATTIC_STAT_hold = 1)) (.core 12 .k) 3 (st [(OWN_LD_SRC_addr, 0x10000000)])) ∧
    ((fun (q : Rq) (c : Fin 16) (s : State) => Sent q OWN_LD_CMD OWN_LD_CMD_fs (loadWord c) s ∧ s.get OWN_LD_SRC_addr % 8 = 0 ∧ c ≤ 12 ∧ imageFits (s.get OWN_LD_SRC_addr) (loadSeen q s) = true ∧ ((loadSeen q s).load ≠ none ∨ (loadSeen q s).get (OWN_CORE_STAT_armed c) = 1 ∨ (loadSeen q s).rst.atticBusy = true ∨ (loadSeen q s).get CRP_ATTIC_STAT_hold = 1)) (.core 12 .k) 3 (setLoad (some { c := 1, shelf := 0, src := 0x10000000, dinit := false }) (st [(OWN_LD_SRC_addr, 0x10000000)]))) ∧
    ((fun (l : Load) (s : State) => s.load = some l ∧ (romLoads s = false ∧ romAt 2 s = false) ∧ (loadHdr l s).2.1 ≠ .done) { c := 1, shelf := 0, src := 0x10000000, dinit := false } { setLoad (some { c := 1, shelf := 0, src := 0x10000000, dinit := false }) .reset with ecc := [(0x10000000, 2)] }) ∧
    ((fun (l : Load) (s : State) => s.load = some l ∧ (romLoads s = false ∧ romAt 2 s = false) ∧ (loadHdr l s).2.1 = .done ∧ imageOk l.c ((loadHdr l s).1.rd (OWN_LD_FLOOR (imgClass l.c))).toNat (loadHdr l s).2.2 = false) { c := 1, shelf := 0, src := 0x10000000, dinit := false } (setLoad (some { c := 1, shelf := 0, src := 0x10000000, dinit := false }) .reset)) ∧
    ((fun (l : Load) (s : State) => s.load = some l ∧ (romLoads s = false ∧ romAt 2 s = false) ∧ (loadHdr l s).2.1 = .done ∧ imageOk l.c ((loadHdr l s).1.rd (OWN_LD_FLOOR (imgClass l.c))).toNat (loadHdr l s).2.2 = true ∧ (loadBody l s).2.1 = .done ∧ (loadKey l s).2.1 = .done) { c := 1, shelf := 0, src := 0x10000000, dinit := false } ((setLoad (some { c := 1, shelf := 0, src := 0x10000000, dinit := false }) (State.reset.wr OWN_LD_KEYTAB 0x10008000)).putBytes 0x10000000 imageHdr)) ∧
    ((fun (l : Load) (s : State) => s.load = some l ∧ (romLoads s = false ∧ romAt 2 s = false) ∧ (loadHdr l s).2.1 = .done ∧ imageOk l.c ((loadHdr l s).1.rd (OWN_LD_FLOOR (imgClass l.c))).toNat (loadHdr l s).2.2 = true ∧ (loadBody l s).2.1 ≠ .done) { c := 1, shelf := 0, src := 0x10000000, dinit := false } { (setLoad (some { c := 1, shelf := 0, src := 0x10000000, dinit := false }) (State.reset.wr OWN_LD_KEYTAB 0x10008000)).putBytes 0x10000000 imageHdr with ecc := [(0x10000800, 2)] }) ∧
    ((fun (s : State) => romLoads s = true) (setLoad (some { c := 12, shelf := 0, src := 0x10000000, dinit := true }) (st [(CRP_BOOT_STAT_stage, 3)]))) := by
  refine ⟨?_, ?_, ?_, ?_, ?_, ?_, ?_, ?_, ?_, ?_, ?_, ?_, ?_, ?_, ?_, ?_, ?_, ?_, ?_, ?_, ?_, ?_, ?_⟩ <;> (beta_reduce; decide +kernel)

theorem test_hyps_EventsAndCounters :
    ((fun (q : Rq) (w : Word) (s : State) => Sent q EVR_RAISE [] w s ∧ 8 ≤ wf w EVR_RAISE_event) (.core 3 .s) 100 .reset) ∧
    ((fun (q : Rq) (w : Word) (s : State) => Sent q EVR_RAISE [] w s ∧ wf w EVR_RAISE_event < 8) (.core 3 .s) 7 .reset) ∧
    ((fun (q : Rq) (s : State) => Sent q EVR_WDOG_KICK [] 0xA5C3 s ∧ s.get EVR_WDOG_CTRL_en = 1) (.core 3 .s) (st [(EVR_WDOG_CTRL_en, 1)])) ∧
    ((fun (q : Rq) (w : Word) (s : State) => Sent q EVR_WDOG_KICK [] w s ∧ w ≠ 0xA5C3) (.core 3 .s) 1 .reset) ∧
    ((fun (s : State) => wdRuns s = true ∧ s.get EVR_WDOG_STAT_second = 0) (st [(EVR_WDOG_CTRL_en, 1), (CRP_CLK_STAT_fosc_ready, 1)])) ∧
    ((fun (c : Fin 13) (j : Fin 8) (s : State) => (1 ≤ fieldOf (nth (s.cpu c).cntSel j) 0 6 ∧ fieldOf (nth (s.cpu c).cntSel j) 0 6 ≤ 13) ∧ nth (s.cpu c).cnt j = 2 ^ 48 - 1 ∧ bit (nth (s.cpu c).cntSel j) 28 = false) 2 3 (updCpu 2 (fun k => { k with cnt := upd k.cnt 3 (fun _ => 2 ^ 48 - 1), cntSel := upd k.cntSel 3 (fun _ => 2) }) .reset)) ∧
    ((fun (c : Fin 13) (j : Fin 8) (s : State) => (1 ≤ fieldOf (nth (s.cpu c).cntSel j) 0 6 ∧ fieldOf (nth (s.cpu c).cntSel j) 0 6 ≤ 13) ∧ nth (s.cpu c).cnt j = 2 ^ 48 - 1 ∧ bit (nth (s.cpu c).cntSel j) 28 = true ∧ (s.cpu c).cntSel.length = 8) 2 3 (updCpu 2 (fun k => { k with cnt := upd k.cnt 3 (fun _ => 2 ^ 48 - 1), cntSel := upd k.cntSel 3 (fun _ => 0x10000002) }) .reset)) ∧
    ((fun (j : Fin 32) (s : State) => (1 ≤ s.get (PMC_SEL_evt j) ∧ s.get (PMC_SEL_evt j) ≤ 10) ∧ nth s.pmc j = 2 ^ 48 - 1 ∧ s.get (PMC_SEL_ovf_ie j) = 1) 4 (updPmc 4 (fun _ => 2 ^ 48 - 1) (st [(PMC_SEL_evt 4, 2), (PMC_SEL_ovf_ie 4, 1)]))) ∧
    ((fun (q : Rq) (j : Fin 32) (s : State) => Reads q (PMC_CNT_L j) s) (.core 3 .s) 4 (updPmc 4 (fun _ => 2 ^ 40 + 5) .reset)) := by
  refine ⟨?_, ?_, ?_, ?_, ?_, ?_, ?_, ?_, ?_⟩ <;> (beta_reduce; decide +kernel)

theorem test_hyps_MemoryAndBus :
    ((fun (u : Fin 15) (i : Fin 8) (e : Merge) (s : State) => (mergeOf u s)[i.val]? = some e ∧ ((e.bytes.all fun b => b.isSome) = true)) 0 0 { a := 0x10000000, bytes := List.replicate 8 (some 5), who := [(0, 0x10000000)] } (setMerge 0 [{ a := 0x10000000, bytes := List.replicate 8 (some 5), who := [(0, 0x10000000)] }] .reset)) ∧
    ((fun (s : State) => s.rst.fillBusy = true) { State.reset with rst := { State.reset.rst with fillBusy := true } }) ∧
    ((fun (u : Fin 15) (s : State) => (s.get (MEM_SCRUB_en u) = 1 ∧ s.rst.fillBusy = false ∧ s.stop = false ∧ blkHeld 29 s = false) ∧ s.bst.slices = [] ∧ (retireWord u (unitBase u + nth s.scrubPos u) s).eccAt (unitBase u + nth s.scrubPos u) = 0) 3 { st [(MEM_SCRUB_en 3, 1)] with rst := { State.reset.rst with fillBusy := false } }) ∧
    ((fun (u : Fin 15) (s : State) => (s.get (MEM_SCRUB_en u) = 1 ∧ s.rst.fillBusy = false ∧ s.stop = false ∧ blkHeld 29 s = false) ∧ s.bst.slices = [] ∧ (retireWord u (unitBase u + nth s.scrubPos u) s).eccAt (unitBase u + nth s.scrubPos u) = 1) 0 { st [(MEM_SCRUB_en 0, 1)] with rst := { State.reset.rst with fillBusy := false }, ecc := [(0x10000000, 1)] }) ∧
    ((fun (u : Fin 15) (s : State) => (s.get (MEM_SCRUB_en u) = 1 ∧ s.rst.fillBusy = false ∧ s.stop = false ∧ blkHeld 29 s = false) ∧ s.bst.slices = [] ∧ (retireWord u (unitBase u + nth s.scrubPos u) s).eccAt (unitBase u + nth s.scrubPos u) = 2 ∧ scMemory (unitBase u + nth s.scrubPos u) = false) 0 { st [(MEM_SCRUB_en 0, 1)] with rst := { State.reset.rst with fillBusy := false }, ecc := [(0x10000000, 2)] }) ∧
    ((fun (q : Rq) (s : State) => Reads q MEM_CORR s) (.core 12 .k) (st [(MEM_CORR_count, 3)])) ∧
    ((fun (p : Nat) (waiting : List (Nat × Nat)) (x : Arb) (i : Nat) (m : Nat) (s : State) => arbNext 9 (arbFind s.arb p) (arbWeights s) waiting = some (x, i, m)) 1 [(2, 3)] ((arbNext 9 (arbFind State.reset.arb 1) (arbWeights .reset) [(2, 3)]).getD default).1 2 3 .reset) ∧
    ((fun (q : Rq) (a : Nat) (w : Word) (s : State) => a < 0x40900000 ∧ region a = .regs ∧ (writeHook q a w).isNone = true ∧ Sent q a (regFields a) w s) (.core 12 .k) SNK_RRA_ADDR 0x12 .reset) ∧
    ((fun (q : Rq) (a : Nat) (w : Word) (s : State) => a < 0x40900000 ∧ region a = .regs ∧ (writeHook q a w).isNone = true ∧ Sent q a (regFields a) w s) (.core 12 .k) STO_ARG 0x12 .reset) ∧
    ((fun (q : Rq) (c : Fin 13) (sh : Fin 2) (o : Nat) (bytes : List Byte) (s : State) => o + bytes.length ≤ shelfSize c ∧ (q ≠ .host ∨ mgmtAlive s = true) ∧ rqWaits q (shelfBase c sh + o) s = false) (.core 12 .k) 3 1 8 [1, 2, 3, 4] .reset) ∧
    ((fun (q : Rq) (c : Fin 13) (sh : Fin 2) (o : Nat) (bytes : List Byte) (s : State) => o + bytes.length ≤ shelfSize c ∧ (q ≠ .host ∨ mgmtAlive s = true) ∧ rqWaits q (shelfBase c sh + o) s = true) (.core 12 .k) 3 1 8 [1, 2, 3, 4] (st [(CRP_CLK_STAT_sys_gated, 1), (OWN_CORE_STAT_fenced 3, 0)])) ∧
    ((fun (c : Fin 14) (a : Nat) (p : Posted) (s : State) => (s.cpu c).posted = [p] ∧ p.sys = a ∧ p.code = none) 0 0x10000000 { a := 0x10000000, sys := 0x10000000, code := none } (updCpu 0 (fun k => { k with posted := [{ a := 0x10000000, sys := 0x10000000, code := none }] }) .reset)) ∧
    ((fun (q : Rq) (a : Nat) (s : State) => storeWaits q a s = false ∧ (q, a) ∉ s.stuck) .host 0x10000000 .reset) ∧
    ((fun (q : Rq) (a : Nat) (s : State) => storeWaits q a s = false ∧ (q, a) ∉ s.stuck) (.core 3 .s) 0x10000000 .reset) ∧
    ((fun (c : Nat) (l : Lvl) (s : State) => c < 13 ∧ rqFenced (.core c l) s = false) 3 .s (st [(OWN_CORE_STAT_fenced 3, 0)])) ∧
    ((fun (ch : Nat) (s : State) => rqFenced (.dma ch) s = false) 3 run0) ∧
    ((fun (q : Rq) (s : State) => rqFenced q s = true) (.dma 3) (updRst (fun r => { r with held := [21] }) run0)) := by
  refine ⟨?_, ?_, ?_, ?_, ?_, ?_, ?_, ?_, ?_, ?_, ?_, ?_, ?_, ?_, ?_, ?_, ?_⟩ <;> (beta_reduce; decide +kernel)

theorem test_hyps_DmaCommands :
    ((fun (q : Rq) (c : Fin 32) (s : State) => Sent q (DMA_CH_CMD c) DMA_CH_CMD_fs (dmaWord c 1) s ∧ (chState c s = 0 ∨ chState c s = 4)) (.core 12 .k) 5 .reset) ∧
    ((fun (q : Rq) (c : Fin 32) (s : State) => Sent q (DMA_CH_CMD c) DMA_CH_CMD_fs (dmaWord c 1) s ∧ (chState c s ≠ 0 ∧ chState c s ≠ 4)) (.core 12 .k) 5 (st [(DMA_CH_STAT_state 5, 2)])) ∧
    ((fun (q : Rq) (c : Fin 32) (s : State) => Sent q (DMA_CH_CMD c) DMA_CH_CMD_fs (dmaWord c 2) s ∧ (chState c s = 2 ∨ chState c s = 3)) (.core 12 .k) 5 (st [(DMA_CH_STAT_state 5, 2)])) ∧
    ((fun (q : Rq) (c : Fin 32) (s : State) => Sent q (DMA_CH_CMD c) DMA_CH_CMD_fs (dmaWord c 3) s ∧ (chState c s = 4 ∧ s.get (DMA_CH_STAT_resumable c) = 1) ∧ s.get (DMA_CH_COUNT_count c) ≠ 0) (.core 12 .k) 5 (st [(DMA_CH_STAT_state 5, 4), (DMA_CH_STAT_resumable 5, 1), (DMA_CH_COUNT_count 5, 8)])) ∧
    ((fun (c : Fin 32) (s : State) => (chState c s = 1 ∧ dmaHeld s = false) ∧ (descRead c s).2.1 = .done ∧ descCode (descRead c s).2.2 = .done) 5 (((st [(DMA_CH_STAT_state 5, 1)]).wr (DMA_CH_DESC 5) 0x10000000).putBytes 0x10000008 [8])) ∧
    ((fun (c : Fin 32) (s : State) => (chState c s = 1 ∧ dmaHeld s = false) ∧ (descRead c s).2.1 ≠ .done) 5 { (st [(DMA_CH_STAT_state 5, 1)]).wr (DMA_CH_DESC 5) 0x10000000 with ecc := [(0x10000000, 2)] }) ∧
    ((fun (c : Fin 32) (s : State) => (chState c s = 2 ∧ dmaHeld s = false) ∧ lineOn (s.dch c).req s = true) 5 (((updDma 5 (fun d => { d with ctl := 3 }) (st [(DMA_CH_STAT_state 5, 2), (DMA_CH_COUNT_count 5, 16)])).wr (DMA_CH_SRC 5) 0x10000000).wr (DMA_CH_DST 5) 0x10000100)) ∧
    ((fun (c : Fin 32) (s : State) => (chState c s = 2 ∧ dmaHeld s = false) ∧ lineOn (s.dch c).req s = false) 5 (updDma 5 (fun d => { d with ctl := 0x400 }) (st [(DMA_CH_STAT_state 5, 2), (DMA_CH_COUNT_count 5, 16)]))) ∧
    ((fun (r : Fin 32) (s : State) => (lineOn r s = true ∧ dmaHeld s = false)) 1 { updDma 5 (fun d => { d with ctl := 0x400 }) (st [(DMA_CH_STAT_state 5, 3)]) with sto := { State.reset.sto with rx := List.replicate 512 0 } }) ∧
    ((fun (c : Fin 32) (s : State) => (chState c s = 2 ∧ dmaHeld s = false) ∧ s.get (DMA_CH_COUNT_count c) = 0) 5 (st [(DMA_CH_STAT_state 5, 2)])) ∧
    ((fun (c : Fin 32) (o : Code) (s : State) => (chState c s = 2 ∧ dmaHeld s = false) ∧ lineOn (s.dch c).req s = true ∧ o ≠ .done) 5 .ecc (((updDma 5 (fun d => { d with ctl := 3 }) (st [(DMA_CH_STAT_state 5, 2), (DMA_CH_COUNT_count 5, 16)])).wr (DMA_CH_SRC 5) 0x10000000).wr (DMA_CH_DST 5) 0x10000100)) ∧
    ((fun (c : Fin 32) (o : Code) (s : State) => o ≠ .done ∧ (s.dch c).loose = true ∧ (chState c s = 0 ∨ chState c s = 1) ∧ dmaHeld s = false) 5 .bus (updDma 5 (fun d => { d with loose := true }) .reset)) ∧
    ((fun (c : Fin 32) (s : State) => (chState c s = 2 ∧ dmaHeld s = false) ∧ s.get (DMA_CH_COUNT_count c) = 0) 5 (st [(DMA_CH_STAT_state 5, 2)])) ∧
    ((fun (c : Fin 32) (s : State) => (chState c s = 2 ∧ dmaHeld s = false) ∧ s.get (DMA_CH_COUNT_count c) = 0 ∧ (s.dch c).barrier = true) 5 (updDma 5 (fun d => { d with ctl := 0x40 }) (st [(DMA_CH_STAT_state 5, 2)]))) ∧
    ((fun (c : Fin 32) (s : State) => (chState c s = 2 ∧ dmaHeld s = false) ∧ (s.dch c).req ≠ 0 ∧ lineOn (s.dch c).req s = true ∧ 0 < burstLen c s) 5 { updDma 5 (fun d => { d with ctl := 0x403 }) (st [(DMA_CH_STAT_state 5, 2), (DMA_CH_COUNT_count 5, 16)]) with sto := { State.reset.sto with rx := List.replicate 512 0 } }) := by
  refine ⟨?_, ?_, ?_, ?_, ?_, ?_, ?_, ?_, ?_, ?_, ?_, ?_, ?_, ?_, ?_⟩ <;> (beta_reduce; decide +kernel)

theorem test_hyps_StorageCommands :
    ((fun (q : Rq) (w : Word) (s : State) => Sent q STO_CMD STO_CMD_fs (stoWord 1 w) s ∧ s.sto.op = 0) (.core 12 .k) 0 .reset) ∧
    ((fun (q : Rq) (s : State) => Sent q STO_CMD STO_CMD_fs (stoWord 5 0) s ∧ s.sto.op = 0) (.core 12 .k) .reset) ∧
    ((fun (q : Rq) (w : Word) (s : State) => Sent q STO_CMD STO_CMD_fs (stoWord 2 0) s ∧ Sent q STO_CMD STO_CMD_fs (stoWord 3 w) s ∧ Sent q STO_CMD STO_CMD_fs (stoWord 4 0) s ∧ s.sto.op = 0 ∧ (s.get STO_CNT_cnt ≠ 0 ∧ s.get STO_ARG_arg + s.get STO_CNT_cnt ≤ 250000000)) (.core 12 .k) 0 (st [(STO_CNT_cnt, 2)])) ∧
    ((fun (q : Rq) (s : State) => Sent q STO_CMD STO_CMD_fs (stoWord 2 0) s ∧ s.sto.op = 0 ∧ (s.get STO_CNT_cnt = 0 ∨ 250000000 < s.get STO_ARG_arg + s.get STO_CNT_cnt)) (.core 12 .k) .reset) ∧
    ((fun (q : Rq) (s : State) => Sent q STO_CMD STO_CMD_fs (stoWord 5 0) s ∧ s.sto.op ≠ 0) (.core 12 .k) (updSto (fun x => { x with op := 2 }) .reset)) ∧
    ((fun (q : Rq) (s : State) => Sent q STO_CMD STO_CMD_fs (stoWord 6 0) s ∧ (s.sto.op = 2 ∨ s.sto.op = 3)) (.core 12 .k) (updSto (fun x => { x with op := 2 }) .reset)) ∧
    ((fun (s : State) => s.sto.op = 2 ∧ s.get STO_RESULT_blocks < s.sto.cnt ∧ s.sto.rx.length + 512 ≤ 4096 ∧ s.sto.stop = false) (updSto (fun x => { x with op := 2, cnt := 2 }) .reset)) ∧
    ((fun (s : State) => s.sto.op = 2 ∧ s.get STO_RESULT_blocks < s.sto.cnt) (updSto (fun x => { x with op := 2, cnt := 2 }) .reset)) ∧
    ((fun (s : State) => s.sto.op ≠ 0 ∧ s.sto.stop = false ∧ (s.sto.rtype = 1 ∨ s.sto.rtype = 2) ∧ stoBlocks s ≤ s.get STO_RESULT_blocks) (updSto (fun x => { x with op := 5, rtype := 2 }) .reset)) ∧
    ((fun (s : State) => s.sto.op ≠ 0 ∧ s.sto.stop = false ∧ (s.sto.rtype = 0 ∨ s.sto.rtype = 3) ∧ stoBlocks s ≤ s.get STO_RESULT_blocks) (updSto (fun x => { x with op := 1, rtype := 3 }) .reset)) ∧
    ((fun (q : Rq) (w : Word) (s : State) => Sent q STO_NOR_CMD STO_NOR_CMD_fs (force w STO_NOR_CMD_go 1) s ∧ (wf w STO_NOR_CMD_addr_bytes = 0 ∨ wf w STO_NOR_CMD_addr_bytes = 3 ∨ wf w STO_NOR_CMD_addr_bytes = 4) ∧ (wf w STO_NOR_CMD_len ≤ 256 ∧ wf w STO_NOR_CMD_dir ≠ 3) ∧ s.get STO_NOR_RESULT_busy = 0) (.core 12 .k) 0 .reset) ∧
    ((fun (s : State) => s.get STO_NOR_RESULT_busy = 1 ∧ s.sto.norDir ≠ 1) (st [(STO_NOR_RESULT_busy, 1)])) ∧
    ((fun (s : State) => s.get STO_NOR_RESULT_busy = 1 ∧ s.sto.norDir = 1) (updSto (fun x => { x with norDir := 1, norLen := 2 }) (st [(STO_NOR_RESULT_busy, 1)]))) := by
  refine ⟨?_, ?_, ?_, ?_, ?_, ?_, ?_, ?_, ?_, ?_, ?_, ?_, ?_⟩ <;> (beta_reduce; decide +kernel)

theorem test_hyps_ResetCommands :
    ((fun (s : State) => s.rst.por = true ∧ (s.rst.resetN = false ∧ s.rst.wide = false)) { State.reset with rst := { State.reset.rst with por := true, resetN := false, wide := false } }) ∧
    ((fun (s : State) => (s.rst.resetN = true ∧ s.get CRP_CLK_STAT_fosc_ready = 1) ∧ (s.rst.por = false ∧ s.rst.wide = false)) { st [(CRP_CLK_STAT_fosc_ready, 1)] with rst := { State.reset.rst with por := false, resetN := true, wide := false } }) ∧
    ((fun (q : Rq) (s : State) => Sent q CRP_CMD_RESET CRP_CMD_RESET_fs 0x6D3B s ∧ cmdWithWd q 0x6D3B s = false) (.core 12 .k) run12) ∧
    ((fun (q : Rq) (w : Word) (s : State) => Sent q CRP_CMD_RESET CRP_CMD_RESET_fs w s ∧ w ≠ 0x6D3B) (.core 12 .k) 1 run12) ∧
    ((fun (s : State) => (s.rst.wide = true ∧ s.rst.nofosc = false)) { State.reset with rst := { State.reset.rst with wide := true, nofosc := false } }) ∧
    ((fun (s : State) => (s.rst.wide = true ∧ s.rst.nofosc = false)) { run12 with rst := { run12.rst with wide := true, nofosc := false } }) ∧
    ((fun (q : Rq) (w : Word) (s : State) => Sent q RST_CAUSE RST_CAUSE_fs w s) (.core 12 .k) 0xFF run12) ∧
    ((fun (q : Rq) (b : Fin 27) (s : State) => Sent q CRP_BLK_RST CRP_BLK_RST_fs (blkWordSet b s) s ∧ bit (s.rd CRP_BLK_RST) b = false) (.core 12 .k) 3 run12) ∧
    ((fun (q : Rq) (b : Fin 27) (s : State) => Sent q CRP_BLK_RST CRP_BLK_RST_fs (blkWordSet b s) s ∧ bit (s.rd CRP_BLK_RST) b = false) (.core 12 .k) 26 run12) ∧
    ((fun (q : Rq) (b : Fin 27) (s : State) => Sent q CRP_BLK_RST CRP_BLK_RST_fs (blkWordClear b s) s ∧ bit (s.rd CRP_BLK_RST) b = true) (.core 12 .k) 3 (run12.wr CRP_BLK_RST 0x18)) ∧
    ((fun (b : Fin 27) (s : State) => s.rst.relReq.contains b.val = true ∧ widerHeld b s = false) 3 (updRst (fun r => { r with held := [3], relReq := [3] }) run12)) ∧
    ((fun (b : Fin 27) (s : State) => s.rst.relReq.contains b.val = true ∧ widerHeld b s = true ∧ s.rst.relDue.contains b.val = false) 20 (updRst (fun r => { r with held := [20], relReq := [20], wide := true }) run12)) ∧
    ((fun (s : State) => scRuns s = true ∧ s.lockAt = none) run12) ∧
    ((fun (t : Nat) (s : State) => scRuns s = true ∧ s.lockAt = some t ∧ s.now < t + 1000 * msTicks) 0 { run12 with lockAt := some 0, now := 5 }) ∧
    ((fun (s : State) => (wdRuns s = true ∧ s.get EVR_WDOG_STAT_second = 1)) (st [(EVR_WDOG_CTRL_en, 1), (CRP_CLK_STAT_fosc_ready, 1), (EVR_WDOG_STAT_second, 1)])) ∧
    ((fun (s : State) => (s.rst.atticBusy = true ∧ fullHeld s = false)) { State.reset with rst := { State.reset.rst with atticBusy := true } }) ∧
    ((fun (s : State) => (fullHeld s = false ∧ s.rst.wide = false ∧ s.rst.atticBusy = false ∧ s.rst.fillBusy = false ∧ s.rst.released = false ∧ s.stop = false)) { State.reset with rst := { State.reset.rst with atticBusy := false, fillBusy := false, released := false } }) := by
  refine ⟨?_, ?_, ?_, ?_, ?_, ?_, ?_, ?_, ?_, ?_, ?_, ?_, ?_, ?_, ?_, ?_, ?_⟩ <;> (beta_reduce; decide +kernel)

theorem test_hyps_PinsAndHousekeeping :
    ((fun (q : Rq) (w : Word) (s : State) => Sent q HKC_SCAN_CTRL HKC_SCAN_CTRL_fs (force w HKC_SCAN_CTRL_run 1) s ∧ s.on HKC_SCAN_CTRL_busy = false) (.core 12 .k) 0 .reset) ∧
    ((fun (q : Rq) (w : Word) (s : State) => Sent q HKC_SCAN_CTRL HKC_SCAN_CTRL_fs (force w HKC_SCAN_CTRL_run 1) s ∧ s.on HKC_SCAN_CTRL_busy = true) (.core 12 .k) 0 (st [(HKC_SCAN_CTRL_busy, 1)])) ∧
    ((fun (s : State) => s.on HKC_SCAN_CTRL_busy = true ∧ hkcHeld s = false ∧ scanWaits s = false ∧ s.scanIdx < s.get HKC_SCAN_CTRL_n_ent) (st [(HKC_SCAN_CTRL_busy, 1), (HKC_SCAN_CTRL_n_ent, 3)])) ∧
    ((fun (s : State) => s.on HKC_SCAN_CTRL_busy = true ∧ hkcHeld s = false ∧ scanWaits s = false ∧ s.scanIdx = s.get HKC_SCAN_CTRL_n_ent ∧ s.on HKC_SCAN_CTRL_cont = false) (st [(HKC_SCAN_CTRL_busy, 1)])) ∧
    ((fun (q : Rq) (p : Fin 16) (w : Word) (s : State) => Sent q (HKD_CTRL p) HKD_CTRL_fs (force w (HKD_CTRL_en p) 1) s ∧ roleBreach p (wf w (HKD_CTRL_mode p)) s = false ∧ s.get GRD_STAT_trip_lanes / 2 ^ pinLane p s % 2 = 0 ∧ s.get (HKD_STAT_state p) = 0 ∧ s.on (HKD_CTRL_en p) = false) (.core 12 .k) 3 0 (st [(GRD_PIN_role 3, 0)])) ∧
    ((fun (q : Rq) (p : Fin 16) (w : Word) (s : State) => Sent q (HKD_CTRL p) HKD_CTRL_fs (force w (HKD_CTRL_en p) 1) s ∧ roleBreach p (wf w (HKD_CTRL_mode p)) s = true) (.core 12 .k) 3 0 (st [(GRD_PIN_role 3, 1)])) ∧
    ((fun (q : Rq) (p : Fin 16) (w : Word) (s : State) => Sent q (HKD_CTRL p) HKD_CTRL_fs (force w (HKD_CTRL_en p) 0) s) (.core 12 .k) 3 0 (st [(HKD_CTRL_en 3, 1)])) ∧
    ((fun (p : Fin 16) (s : State) => s.get (HKD_STAT_state p) = 1 ∧ hkcHeld s = false) 3 (st [(HKD_STAT_state 3, 1)])) ∧
    ((fun (s : State) => hkcHeld s = false) .reset) ∧
    ((fun (q : Rq) (p : Fin 16) (w : Word) (s : State) => Sent q (HKD_VAL p) HKD_VAL_fs w s ∧ ((wf w (HKD_VAL_code p) + wf w (HKD_VAL_amp p) : Nat) : Int) ≤ pinHi p s ∧ (pinRole p s = 2 → pinLo p s ≤ (wf w (HKD_VAL_code p) : Int) - wf w (HKD_VAL_amp p))) (.core 12 .k) 3 7 (st [(GRD_PIN_role 3, 0)])) ∧
    ((fun (p : Fin 16) (s : State) => s.get (HKD_STAT_state p) = 2 ∧ (pinRole p s = 1 ∨ pinRole p s = 2) ∧ hkcHeld s = false) 3 (st [(HKD_STAT_state 3, 2), (GRD_PIN_role 3, 1)])) ∧
    ((fun (q : Rq) (p : Fin 16) (s : State) => Reads q (HKD_STAT p) s) (.core 12 .k) 3 .reset) := by
  refine ⟨?_, ?_, ?_, ?_, ?_, ?_, ?_, ?_, ?_, ?_, ?_, ?_⟩ <;> (beta_reduce; decide +kernel)

theorem test_hyps_GuardLimits :
    ((fun (q : Rq) (k : Fin 19) (w : Word) (s : State) => k.val < 16 ∧ Sent q (GRD_PIN_LIM k) GRD_PIN_LIM_fs w s ∧ wf w (GRD_PIN_LIM_lo k) ≤ wf w (GRD_PIN_LIM_hi k) ∧ s.get (GRD_PIN_LIM_lo k) ≤ wf w (GRD_PIN_LIM_lo k) ∧ wf w (GRD_PIN_LIM_hi k) ≤ s.get (GRD_PIN_LIM_hi k)) (.core 12 .k) 3 0 .reset) ∧
    ((fun (q : Rq) (w : Word) (s : State) => Sent q GRD_SWING GRD_SWING_fs w s ∧ wf w GRD_SWING_work < s.get GRD_SWING_work) (.core 12 .k) 0 (st [(GRD_SWING_work, 5)])) ∧
    ((fun (q : Rq) (d : Fin 2) (w : Word) (s : State) => Sent q (GRD_GAIN d) GRD_GAIN_fs w s ∧ wf w (GRD_GAIN_work d) < s.get (GRD_GAIN_work d)) (.core 12 .k) 1 0 (st [(GRD_GAIN_work 1, 5)])) ∧
    ((fun (q : Rq) (d : Fin 2) (w : Word) (s : State) => Sent q (GRD_GAIN d) GRD_GAIN_fs w s ∧ s.get (GRD_GAIN_work d) ≤ wf w (GRD_GAIN_work d) ∧ (s.on GRD_CTRL_lock = false ∨ wf w (GRD_GAIN_work d) = s.get (GRD_GAIN_work d)) ∧ wf w (GRD_GAIN_work d) ≤ s.get (GRD_GAIN_attic d)) (.core 12 .k) 1 (force 0 (GRD_GAIN_work 1) 7) (st [(GRD_GAIN_work 1, 5), (GRD_GAIN_attic 1, 9)])) ∧
    ((fun (q : Rq) (w : Word) (s : State) => Sent q GRD_SWING GRD_SWING_fs w s ∧ s.get GRD_SWING_work < wf w GRD_SWING_work ∧ (s.on GRD_CTRL_lock = true ∨ s.get GRD_SWING_attic < wf w GRD_SWING_work)) (.core 12 .k) (force 0 GRD_SWING_work 3) (st [(GRD_CTRL_lock, 1), (GRD_SWING_work, 1)])) ∧
    ((fun (s : State) => s.on GRD_STAT_txdis = false) .reset) ∧
    ((fun (s : State) => s.on GRD_STAT_txdis = true) (st [(GRD_STAT_txdis, 1)])) ∧
    ((fun (q : Rq) (w : Word) (s : State) => Sent q GRD_TRIP_CLR GRD_TRIP_CLR_fs w s ∧ (∀ t ∈ s.trips, wf w GRD_TRIP_CLR_lanes / 2 ^ t.1 % 2 = 1 → s.on (HKD_CTRL_en t.2) = false)) (.core 12 .k) 4 { st [(GRD_STAT_trip_lanes, 4)] with trips := [(2, 3)] }) ∧
    ((fun (q : Rq) (s : State) => Reads q GRD_STAT s) (.core 12 .k) .reset) := by
  refine ⟨?_, ?_, ?_, ?_, ?_, ?_, ?_, ?_, ?_⟩ <;> (beta_reduce; decide +kernel)

theorem test_hyps_ClockSources :
    ((fun (s : State) => (s.get CRP_CLK_STAT_ref_fail = 0 ∧ clkLive s = true)) .reset) ∧
    ((fun (q : Rq) (p : Fin 4) (s : State) => Sent q CRP_PLL_CTRL CRP_PLL_CTRL_fs (pllWord p 1 s) s) (.core 12 .k) 2 .reset) ∧
    ((fun (q : Rq) (p : Fin 4) (s : State) => Sent q CRP_PLL_CTRL CRP_PLL_CTRL_fs (pllWord p 0 s) s ∧ s.get (pllEn p) = 1 ∧ pllUser p s = false) (.core 12 .k) 1 (st [(pllEn 1, 1), (pllReady 1, 1)])) ∧
    ((fun (q : Rq) (p : Fin 4) (s : State) => Sent q CRP_PLL_CTRL CRP_PLL_CTRL_fs (pllWord p 0 s) s ∧ s.get (pllEn p) = 1 ∧ pllUser p s = true) (.core 12 .k) 0 (st [(pllEn 0, 1), (FRM_LANE_CTRL_up 3, 1)])) ∧
    ((fun (p : Fin 4) (s : State) => (s.get (pllEn p) = 1 ∧ s.get CRP_CLK_STAT_ref_fail = 0 ∧ clkLive s = true) ∧ s.rst.nofosc = false) 3 (st [(pllEn 3, 1)])) ∧
    ((fun (p : Fin 4) (s : State) => s.get (pllReady p) = 1) 3 (st [(pllReady 3, 1)])) ∧
    ((fun (q : Rq) (w : Word) (s : State) => Sent q CRP_BPLL_TRIM CRP_BPLL_TRIM_fs w s ∧ (sgn 28 (wf w CRP_BPLL_TRIM_trim)).natAbs ≤ 102400000) (.core 12 .k) 5000 .reset) ∧
    ((fun (q : Rq) (w : Word) (s : State) => Sent q CRP_BPLL_TRIM CRP_BPLL_TRIM_fs w s ∧ 102400000 < (sgn 28 (wf w CRP_BPLL_TRIM_trim)).natAbs) (.core 12 .k) 102400001 .reset) ∧
    ((fun (s : State) => (s.get CRP_CLK_STAT_fosc_ready = 0 ∧ s.stop = false) ∧ s.rst.nofosc = false) (st [(CRP_CLK_STAT_fosc_ready, 0)])) ∧
    ((fun (s : State) => (s.get CRP_CLK_STAT_fosc_ready = 0 ∧ s.stop = false) ∧ s.rst.nofosc = false) (st [(CRP_CLK_STAT_fosc_ready, 0), (CRP_CLK_STAT_sys_gated, 1)])) ∧
    ((fun (n : Nat) (s : State) => (s.get CRP_CLK_STAT_aosc_ready = 1 ∧ s.stop = false) ∧ (n < 2800 ∨ 3300 < n) ∧ s.clk.sw = none) 2799 (st [(CRP_CLK_STAT_aosc_ready, 1)])) ∧
    ((fun (n : Nat) (s : State) => (s.get CRP_CLK_STAT_aosc_ready = 1 ∧ s.stop = false) ∧ (n < 2800 ∨ 3300 < n) ∧ s.clk.sw = none) 2799 (st [(CRP_CLK_STAT_aosc_ready, 1), (CRP_CLK_STAT_sys_gated, 1)])) ∧
    ((fun (n : Nat) (s : State) => (s.get CRP_CLK_STAT_aosc_ready = 1 ∧ s.stop = false) ∧ (n < 2800 ∨ 3300 < n) ∧ s.clk.sw = none) 3301 (st [(CRP_CLK_STAT_fosc_ready, 1), (CRP_CLK_STAT_aosc_ready, 1), (CRP_CLK_STAT_sys_src, 1)])) ∧
    ((fun (n : Nat) (x : ClkSw) (s : State) => (s.get CRP_CLK_STAT_aosc_ready = 1 ∧ s.stop = false ∧ s.get CRP_CLK_STAT_sys_gated = 0) ∧ (n < 2800 ∨ 3300 < n) ∧ s.clk.sw = some x) 2799 ⟨1, false, [0]⟩ { st [(CRP_CLK_STAT_aosc_ready, 1)] with clk := { State.reset.clk with sw := some ⟨1, false, [0]⟩ } }) ∧
    ((fun (n : Nat) => (2800 ≤ n ∧ n ≤ 3300)) 2800) ∧
    ((fun (s : State) => s.clk.discBad = false ∧ (s.get CRP_AOSC_INC_disc_en = 1 ∧ s.get CRP_CLK_STAT_ref_ok = 1 ∧ s.get CRP_CLK_STAT_aosc_ready = 1 ∧ s.stop = false)) { st [(CRP_AOSC_INC_disc_en, 1), (CRP_CLK_STAT_ref_ok, 1), (CRP_CLK_STAT_aosc_ready, 1)] with clk := { State.reset.clk with discBad := false } }) ∧
    ((fun (q : Rq) (w : Word) (s : State) => Sent q CRP_AON_TIME_H CRP_AON_TIME_H_fs w s) (.core 12 .k) 5 .reset) ∧
    ((fun (q : Rq) (w : Word) (s : State) => Sent q CRP_AON_TIME_L CRP_AON_TIME_L_fs w s) (.core 12 .k) 5 .reset) ∧
    ((fun (q : Rq) (s : State) => Reads q CRP_AON_TIME_L s) (.core 12 .k) .reset) ∧
    ((fun (n : Nat) (s : State) => clkLive s = true ∧ (s.get CRP_REFMON_lo ≤ n ∧ n ≤ s.get CRP_REFMON_hi) ∧ s.get CRP_CLK_STAT_ref_ok = 1) 1500 (st [(CRP_CLK_STAT_ref_ok, 1), (CRP_REFMON_lo, 1406), (CRP_REFMON_hi, 1719)])) ∧
    ((fun (n : Nat) (s : State) => clkLive s = true ∧ (n < s.get CRP_REFMON_lo ∨ s.get CRP_REFMON_hi < n) ∧ s.get CRP_CLK_STAT_ref_fail = 0) 5 (st [(CRP_CLK_STAT_ref_ok, 1), (CRP_REFMON_lo, 1406), (CRP_REFMON_hi, 1719)])) := by
  refine ⟨?_, ?_, ?_, ?_, ?_, ?_, ?_, ?_, ?_, ?_, ?_, ?_, ?_, ?_, ?_, ?_, ?_, ?_, ?_, ?_, ?_⟩ <;> (beta_reduce; decide +kernel)

theorem test_hyps_ClockSwitches :
    ((fun (q : Rq) (src : Bool) (s : State) => Sent q CRP_SYS_SEL CRP_SYS_SEL_fs (force 0 CRP_SYS_SEL_src src.toNat) s ∧ (s.clk.sw = none ∧ s.get CRP_CLK_STAT_sys_gated = 0) ∧ src.toNat ≠ s.get CRP_CLK_STAT_sys_src ∧ srcReady src.toNat s = true) (.core 12 .k) true (st [(pllReady 2, 1)])) ∧
    ((fun (q : Rq) (src : Bool) (s : State) => Sent q CRP_SYS_SEL CRP_SYS_SEL_fs (force 0 CRP_SYS_SEL_src src.toNat) s ∧ (s.clk.sw = none ∧ s.get CRP_CLK_STAT_sys_gated = 0) ∧ src.toNat = s.get CRP_CLK_STAT_sys_src) (.core 12 .k) false .reset) ∧
    ((fun (q : Rq) (src : Bool) (s : State) => Sent q CRP_SYS_SEL CRP_SYS_SEL_fs (force 0 CRP_SYS_SEL_src src.toNat) s ∧ (s.clk.sw = none ∧ s.get CRP_CLK_STAT_sys_gated = 0) ∧ src.toNat ≠ s.get CRP_CLK_STAT_sys_src ∧ srcReady src.toNat s = false) (.core 12 .k) true .reset) ∧
    ((fun (q : Rq) (src : Bool) (s : State) => Sent q CRP_SYS_SEL CRP_SYS_SEL_fs (force 0 CRP_SYS_SEL_src src.toNat) s ∧ (s.clk.sw ≠ none ∨ s.get CRP_CLK_STAT_sys_gated = 1)) (.core 12 .k) true (st [(CRP_CLK_STAT_sys_gated, 1)])) ∧
    ((fun (t : Nat) (s : State) => s.clk.sw = some ⟨t, true, []⟩ ∧ srcAlive t s = true) 1 { st [(pllReady 2, 1)] with clk := { State.reset.clk with sw := some ⟨1, true, []⟩ } }) ∧
    ((fun (s : State) => s.get CRP_CLKOUT_busy = 1) (st [(CRP_CLKOUT_busy, 1)])) ∧
    ((fun (q : Rq) (w : Word) (s : State) => Sent q CRP_CLKOUT CRP_CLKOUT_fs w s ∧ (s.chg w CRP_CLKOUT_en = true ∨ s.chg w CRP_CLKOUT_src = true ∨ s.chg w CRP_CLKOUT_div_m1 = true) ∧ (wf w CRP_CLKOUT_src ≤ 23 ∧ clkoutMax (wf w CRP_CLKOUT_src) s ≤ 250000000 * (wf w CRP_CLKOUT_div_m1 + 1)) ∧ s.get CRP_CLKOUT_busy = 0) (.core 12 .k) 1 .reset) ∧
    ((fun (q : Rq) (w : Word) (s : State) => Sent q CRP_CLKOUT CRP_CLKOUT_fs w s ∧ (s.chg w CRP_CLKOUT_en = true ∨ s.chg w CRP_CLKOUT_src = true ∨ s.chg w CRP_CLKOUT_div_m1 = true) ∧ (23 < wf w CRP_CLKOUT_src ∨ 250000000 * (wf w CRP_CLKOUT_div_m1 + 1) < clkoutMax (wf w CRP_CLKOUT_src) s)) (.core 12 .k) (force 1 CRP_CLKOUT_src 3) .reset) ∧
    ((fun (b : Fin 24) (s : State) => gateWork b s = false) 4 .reset) ∧
    ((fun (b : Fin 24) (s : State) => gateWork b s = true) 4 (st [(DMA_CH_STAT_state 3, 2)])) ∧
    ((fun (s : State) => (s.get CRP_CLK_STAT_sys_gated = 1 ∧ s.get CRP_CLK_STAT_fosc_ready = 0) ∧ (fullHeld s = false ∧ s.stop = false ∧ s.rst.nofosc = false)) (st [(CRP_CLK_STAT_fosc_ready, 0), (CRP_CLK_STAT_sys_gated, 1)])) := by
  refine ⟨?_, ?_, ?_, ?_, ?_, ?_, ?_, ?_, ?_, ?_, ?_⟩ <;> (beta_reduce; decide +kernel)

theorem test_hyps_PowerThermalAndStop :
    ((fun (q : Rq) (w : Word) (s : State) => Sent q PWR_AVS_REQ PWR_AVS_REQ_fs (force w PWR_AVS_REQ_go 1) s ∧ avsRange (wf w PWR_AVS_REQ_rail) (wf w PWR_AVS_REQ_mv) = true ∧ (s.pwr.avs = none ∧ s.pwr.avsNext = none)) (.core 12 .k) (force (force 0 PWR_AVS_REQ_mv 700) PWR_AVS_REQ_rail 0) .reset) ∧
    ((fun (q : Rq) (w : Word) (s : State) => Sent q PWR_AVS_REQ PWR_AVS_REQ_fs (force w PWR_AVS_REQ_go 1) s ∧ avsRange (wf w PWR_AVS_REQ_rail) (wf w PWR_AVS_REQ_mv) = false) (.core 12 .k) 0 .reset) ∧
    ((fun (q : Rq) (w : Word) (s : State) => Sent q PWR_AVS_REQ PWR_AVS_REQ_fs (force w PWR_AVS_REQ_go 1) s ∧ avsRange (wf w PWR_AVS_REQ_rail) (wf w PWR_AVS_REQ_mv) = true ∧ s.pwr.avs ≠ none) (.core 12 .k) (force (force 0 PWR_AVS_REQ_mv 700) PWR_AVS_REQ_rail 0) (updPwr (fun p => { p with avs := some ⟨0, 700, 0, none⟩ }) .reset)) ∧
    ((fun (r : Avs) (s : State) => s.pwr.avs = some r ∧ r.who ≠ 1 ∧ s.pwr.st ≠ 3) ⟨0, 700, 0, none⟩ (updPwr (fun p => { p with avs := some ⟨0, 700, 0, none⟩ }) .reset)) ∧
    ((fun (r : Avs) (s : State) => s.pwr.avs = some r ∧ r.who ≠ 1 ∧ s.pwr.st ≠ 3) ⟨0, 700, 0, none⟩ (updPwr (fun p => { p with avs := some ⟨0, 700, 0, none⟩ }) (st [(PWR_AVS_STAT_tries, 3)]))) ∧
    ((fun (q : Rq) (w : Word) (s : State) => Sent q TH_CMD TH_CMD_fs w s ∧ wf w TH_CMD_mask ≠ 0) (.core 12 .k) 0xFF .reset) ∧
    ((fun (q : Rq) (w : Word) (s : State) => Sent q TH_CMD TH_CMD_fs w s ∧ wf w TH_CMD_mask = 0) (.core 12 .k) 0 .reset) ∧
    ((fun (s : State) => (s.pwr.st ≤ 1 ∧ clkLive s = true)) .reset) ∧
    ((fun (mask : Nat) (s : State) => s.pwr.meas = some mask ∧ hkcHeld s = false ∧ s.pwr.measNext = 0 ∧ s.pwr.st ≠ 3) 255 (updPwr (fun p => { p with meas := some 255 }) .reset)) ∧
    ((fun (q : Rq) (k : Fin 3) (w : Word) (s : State) => Sent q (TH_THR k) TH_THR_fs w s ∧ (16 ≤ wf w (TH_THR_hyst k) ∧ wf w (TH_THR_hyst k) ≤ 320) ∧ ((if k.val = 0 then sgn 16 (wf w (TH_THR_thr k)) else s.geti (TH_THR_thr 0)) ≤ (if k.val = 1 then sgn 16 (wf w (TH_THR_thr k)) else s.geti (TH_THR_thr 1)) ∧ (if k.val = 1 then sgn 16 (wf w (TH_THR_thr k)) else s.geti (TH_THR_thr 1)) ≤ (if k.val = 2 then sgn 16 (wf w (TH_THR_thr k)) else s.geti (TH_THR_thr 2))) ∧ (k.val = 2 → sgn 16 (wf w (TH_THR_thr k)) ≤ 2000)) (.core 12 .k) 2 (force (force 0 (TH_THR_thr 2) 2000) (TH_THR_hyst 2) 16) .reset) ∧
    ((fun (q : Rq) (w : Word) (s : State) => Sent q (TH_THR 2) TH_THR_fs w s ∧ (16 ≤ wf w (TH_THR_hyst 2) ∧ wf w (TH_THR_hyst 2) ≤ 320) ∧ (s.geti (TH_THR_thr 0) ≤ s.geti (TH_THR_thr 1) ∧ s.geti (TH_THR_thr 1) ≤ sgn 16 (wf w (TH_THR_thr 2))) ∧ 2000 < sgn 16 (wf w (TH_THR_thr 2))) (.core 12 .k) (force (force 0 (TH_THR_thr 2) 2001) (TH_THR_hyst 2) 16) .reset) ∧
    ((fun (s : State) => s.pwr.st = 4) (updPwr (fun p => { p with st := 4 }) .reset)) ∧
    ((fun (pins : BitVec 11) (s : State) => (s.pwr.st = 1 ∧ s.pwr.forced = false ∧ sysSteady s = true) ∧ (scEvent s = false ∧ wakeAny pins.toNat s = false) ∧ (scEvent (larderSaveAll (scSaved s)) = false ∧ wakeAny pins.toNat (larderSaveAll (scSaved s)) = false)) 1024 (updPwr (fun p => { p with st := 1 }) .reset)) ∧
    ((fun (pins : BitVec 11) (s : State) => (s.pwr.st = 1 ∧ s.pwr.forced = false ∧ sysSteady s = true) ∧ (scEvent s = true ∨ wakeAny pins.toNat s = true)) 0 (updPwr (fun p => { p with st := 1 }) (st [(PWR_WAKE_EN_en, 8)]))) ∧
    ((fun (pins : BitVec 11) (s : State) => s.pwr.st = 4 ∧ wakeAny pins.toNat s = true ∧ s.get PWR_MODE_avs_ret = 0) 0 (setStop true (updPwr (fun p => { p with st := 4 }) (st [(PWR_WAKE_EN_en, 8)])))) ∧
    ((fun (pins : BitVec 11) (s : State) => (s.pwr.st = 2 ∨ s.pwr.st = 3) ∧ wakeAny pins.toNat s = true) 0 (updPwr (fun p => { p with st := 2 }) (st [(PWR_WAKE_EN_en, 8)]))) ∧
    ((fun (pins : BitVec 11) (s : State) => wakeAny pins.toNat s = false) 1024 (updPwr (fun p => { p with st := 4 }) (st [(PWR_WAKE_EN_en, 8)]))) ∧
    ((fun (temps : List Int) (k : Cpu) (s : State) => (s.pwr.st = 5 ∧ s.pwr.avs = none ∧ s.pwr.meas = none ∧ s.get CRP_CLK_STAT_fosc_ready = 1 ∧ s.rst.atticBusy = false ∧ fullHeld s = false) ∧ s.get CRP_ATTIC_STAT_hold = 0 ∧ (wakeMeasure temps (larderRestoreAll s)).pwr.forced = false ∧ (wakeMeasure temps (larderRestoreAll s)).pwr.saved = some k) [400, 400, 400, 400, 400, 400, 400, 400] {} { updPwr (fun p => { p with st := 5, saved := some {} }) (st [(CRP_CLK_STAT_fosc_ready, 1)]) with rst := { State.reset.rst with atticBusy := false } }) ∧
    ((fun (s : State) => (s.pwr.st = 5 ∧ s.pwr.avs = none ∧ s.pwr.meas = none ∧ s.get CRP_CLK_STAT_fosc_ready = 1 ∧ s.rst.atticBusy = false ∧ fullHeld s = false) ∧ s.get CRP_ATTIC_STAT_hold = 1) { updPwr (fun p => { p with st := 5 }) (st [(CRP_CLK_STAT_fosc_ready, 1), (CRP_ATTIC_STAT_hold, 1)]) with rst := { State.reset.rst with atticBusy := false } }) ∧
    ((fun (s : State) => (s.pwr.shut = true ∧ fullHeld s = false) ∧ s.pwr.st ≤ 1 ∧ sysSteady s = true) (updPwr (fun p => { p with shut := true }) .reset)) ∧
    ((fun (s : State) => (s.pwr.shut = true ∧ fullHeld s = false) ∧ (2 ≤ s.pwr.st ∧ s.pwr.st ≤ 4)) (updPwr (fun p => { p with shut := true, st := 4 }) .reset)) := by
  refine ⟨?_, ?_, ?_, ?_, ?_, ?_, ?_, ?_, ?_, ?_, ?_, ?_, ?_, ?_, ?_, ?_, ?_, ?_, ?_, ?_, ?_⟩ <;> (beta_reduce; decide +kernel)

theorem test_hyps_CellarRecords :
    ((fun (s : State) => celState s = 0) .reset) ∧
    ((fun (s : State) => celState s = 1 ∧ s.cel.sealed = none) (st [(CEL_STAT_state, 1)])) ∧
    ((fun (sl : Seal) (s : State) => celState s = 1 ∧ s.cel.sealed = some sl ∧ sl.ok = false) ⟨60, [], [], 0, 0, false⟩ (updCel (fun c => { c with sealed := some ⟨60, [], [], 0, 0, false⟩ }) (st [(CEL_STAT_state, 1)]))) ∧
    ((fun (sl : Seal) (g : CelSlot) (s : State) => celState s = 1 ∧ s.cel.sealed = some sl ∧ sl.ok = true ∧ newestSlot s.cel.slots = some g) ⟨60, [], [], 0, 0, true⟩ ⟨7, List.replicate 16 {}, 5⟩ (updCel (fun c => { c with sealed := some ⟨60, [], [], 0, 0, true⟩, slots := [none, some ⟨7, List.replicate 16 {}, 5⟩, none, none] }) (st [(CEL_STAT_state, 1)]))) ∧
    ((fun (sl : Seal) (s : State) => celState s = 1 ∧ s.cel.sealed = some sl ∧ sl.ok = true ∧ newestSlot s.cel.slots = none) ⟨60, [], [], 0, 0, true⟩ (updCel (fun c => { c with sealed := some ⟨60, [], [], 0, 0, true⟩ }) (st [(CEL_STAT_state, 1)]))) ∧
    ((fun (s : State) => celState s ≠ 0 ∧ s.cel.sealed = none) (st [(CEL_STAT_state, 2)])) ∧
    ((fun (s : State) => s.cel.sealed.isSome = true) (updCel (fun c => { c with sealed := some ⟨60, [], [], 0, 0, true⟩ }) (st [(CEL_STAT_state, 3)]))) ∧
    ((fun (t : Int) (s : State) => celState s = 3 ∧ s.get CEL_STAT_deferred = 0 ∧ (0 ≤ t ∧ t ≤ 1760)) 400 (st [(CEL_STAT_state, 3)])) ∧
    ((fun (t : Int) (s : State) => celState s = 3 ∧ s.get CEL_STAT_deferred = 0 ∧ (t < 0 ∨ 1760 < t)) 1761 (st [(CEL_STAT_state, 3)])) ∧
    ((fun (t : Int) (s : State) => celState s = 3 ∧ s.get CEL_STAT_deferred = 1 ∧ (32 ≤ t ∧ t ≤ 1728)) 400 (updCel (fun c => { c with logWait := [(1, 2, 3)] }) (st [(CEL_STAT_state, 3), (CEL_STAT_deferred, 1)]))) ∧
    ((fun (t : Int) (s : State) => celState s = 3 ∧ s.get CEL_STAT_deferred = 1 ∧ (t < 32 ∨ 1728 < t)) 31 (st [(CEL_STAT_state, 3), (CEL_STAT_deferred, 1)])) ∧
    ((fun (t : Int) (s : State) => celState s = 3 ∧ (s.on CEL_STAT_deferred = true ∨ t < 0 ∨ 1760 < t)) 1761 (st [(CEL_STAT_state, 3)])) ∧
    ((fun (t : Int) (s : State) => celState s = 3 ∧ (s.on CEL_STAT_deferred = true ∨ t < 0 ∨ 1760 < t)) 400 (st [(CEL_STAT_state, 3), (CEL_STAT_deferred, 1)])) ∧
    ((fun (t : Int) (s : State) => celState s = 3 ∧ s.get CEL_STAT_deferred = 0 ∧ (0 ≤ t ∧ t ≤ 1760)) 400 (st [(CEL_STAT_state, 3)])) ∧
    ((fun (i : Nat) (t0 : Nat) (s : State) => s.cel.sched = some (i, t0)) 1 5 (updCel (fun c => { c with sched := some (1, 5), t := 6 }) (st [(CEL_STAT_state, 3)]))) ∧
    ((fun (s : State) => celState s = 3) (st [(CEL_STAT_state, 3)])) ∧
    ((fun (seq : Nat) (body : List Byte) (s : State) => celState s = 3 ∧ s.cel.snap = some (seq, body)) 3 [1, 2] (updCel (fun c => { c with snap := some (3, [1, 2]) }) (st [(CEL_STAT_state, 3)]))) ∧
    ((fun (s : State) => celState s ≠ 0) (st [(CEL_STAT_state, 3)])) ∧
    ((fun (s : State) => celState s ≠ 0) (updCel (fun c => { c with sealed := some ⟨60, [], [], 0, 0, true⟩ }) (st [(CEL_STAT_state, 3)]))) ∧
    ((fun (s : State) => celState s ≠ 0 ∧ s.get CEL_STAT_tamper = 0 ∧ s.cel.openAt = none) (st [(CEL_STAT_state, 3)])) ∧
    ((fun (t0 : Nat) (s : State) => celState s ≠ 0 ∧ s.get CEL_STAT_tamper = 0 ∧ s.cel.openAt = some t0 ∧ s.cel.t < t0 + 10000 * msTicks) 5 (updCel (fun c => { c with openAt := some 5, t := 6 }) (st [(CEL_STAT_state, 3)]))) ∧
    ((fun (s : State) => celState s ≠ 0 ∧ s.get CEL_STAT_tamper = 1 ∧ s.cel.closeAt = none) (st [(CEL_STAT_state, 3), (CEL_STAT_tamper, 1)])) ∧
    ((fun (high : Bool) (s : State) => s.get CEL_STAT_tamper = high.toNat) true (st [(CEL_STAT_state, 3), (CEL_STAT_tamper, 1)])) ∧
    ((fun (q : Rq) (o : Fin 65536) (s : State) => CEL_STAT + o.val ≠ CEL_EVT ∧ (CEL_STAT + o.val) % 4 = 0 ∧ fencedAt (CEL_STAT + o.val) s = false ∧ (q = .host && !mgmtAlive s) = false ∧ (q.cls ≠ 0 ∧ isOwner q s = false)) .hatch 0 { State.reset with rst := {} }) ∧
    ((fun (q : Rq) (o : Fin 65536) (w : Word) (s : State) => CEL_STAT + o.val ≠ CEL_EVT ∧ Sent q (CEL_STAT + o.val) [] w s) (.core 12 .k) 0 5 .reset) ∧
    ((fun (q : Rq) (w : Word) (o : Fin 65536) (s : State) => CEL_STAT + o.val = CEL_EVT ∧ Sent q CEL_EVT CEL_EVT_fs w s) (.core 12 .k) 1 (Fin.ofNat 65536 (CEL_EVT - CEL_STAT)) .reset) := by
  refine ⟨?_, ?_, ?_, ?_, ?_, ?_, ?_, ?_, ?_, ?_, ?_, ?_, ?_, ?_, ?_, ?_, ?_, ?_, ?_, ?_, ?_, ?_, ?_, ?_, ?_, ?_⟩ <;> (beta_reduce; decide +kernel)

theorem test_hyps_SelfTest :
    ((fun (u : Fin 15) (s : State) => (walkRuns u s = true ∧ sliceOn u s = false) ∧ nth s.scrubAgain u = none ∧ openRow u (s.get (BST_MEM_UNIT_row u)) s = s.get (BST_MEM_UNIT_row u) ∧ s.get (BST_MEM_UNIT_row u) < unitRows u) 3 { st [(BST_MEM_CTRL_en, 1), (BST_MEM_UNIT_en 3, 1)] with rst := { State.reset.rst with fillBusy := false } }) ∧
    ((fun (u : Fin 15) (a : Nat) (s : State) => (walkRuns u s = true ∧ sliceOn u s = false) ∧ nth s.scrubAgain u = some a ∧ inSecret (unitBase u + 4096 * ((a - unitBase u) / 4096)) s = false) 3 (unitBase 3 + 5000) { st [(BST_MEM_CTRL_en, 1), (BST_MEM_UNIT_en 3, 1)] with rst := { State.reset.rst with fillBusy := false }, scrubAgain := upd State.reset.scrubAgain 3 fun _ => some (unitBase 3 + 5000) }) ∧
    ((fun (u : Fin 15) (s : State) => (walkRuns u s = true ∧ sliceOn u s = false) ∧ nth s.scrubAgain u = none ∧ openRow u (s.get (BST_MEM_UNIT_row u)) s ≠ s.get (BST_MEM_UNIT_row u) ∧ openRow u ((walkTo u (s.get (BST_MEM_UNIT_row u)) s).get (BST_MEM_UNIT_row u)) (walkTo u (s.get (BST_MEM_UNIT_row u)) s) < unitRows u) 0 ({ st [(BST_MEM_CTRL_en, 1), (BST_MEM_UNIT_en 0, 1)] with rst := { State.reset.rst with fillBusy := false } }.set (BST_MEM_UNIT_row 0) ((secretLo State.reset - unitBase 0) / 4096))) ∧
    ((fun (u : Fin 15) (s : State) => (walkRuns u s = false ∨ sliceOn u s = true)) 3 .reset) ∧
    ((fun (s : State) => s.bst.slices = []) .reset) ∧
    ((fun (u : Fin 15) (x : BstSlice) (s : State) => s.bst.slices = [x] ∧ (x.u = u.val ∧ x.kind = 1) ∧ s.bst.test = none) 3 ⟨3, 5, 1⟩ (updBst (fun b => { b with slices := [⟨3, 5, 1⟩] }) .reset)) ∧
    ((fun (u : Fin 15) (x : BstSlice) (b : Fin 72) (s : State) => s.bst.slices = [x] ∧ (x.u = u.val ∧ x.kind = 0) ∧ s.bst.test = none ∧ ((walkTo u (x.row + 1) (sliceFailed u x.row b (updBst (fun b => { b with slices := [] }) s))).bst.test = none)) 3 ⟨3, 5, 0⟩ 70 (updBst (fun b => { b with slices := [⟨3, 5, 0⟩] }) .reset)) ∧
    ((fun (u : Fin 15) (x : BstSlice) (s : State) => s.bst.slices = [x] ∧ (x.u = u.val ∧ x.kind = 2) ∧ s.bst.test = none) 3 ⟨3, 5, 2⟩ (updBst (fun b => { b with slices := [⟨3, 5, 2⟩] }) .reset)) ∧
    ((fun (u : Fin 15) (x : BstSlice) (row : Nat) (s : State) => s.bst.slices = [x] ∧ (x.u = u.val ∧ x.kind = 1) ∧ s.bst.test = some (u.val, row)) 3 ⟨3, 5, 1⟩ 6 (updBst (fun b => { b with slices := [⟨3, 5, 1⟩], test := some (3, 6) }) .reset)) ∧
    ((fun (u : Nat) (row : Nat) (b : Nat) (s : State) => freeSpare u (ledger 1 u row 1 b s) = none) 3 5 70 (st [(BST_REPAIR_valid 3 0, 1), (BST_REPAIR_valid 3 1, 1), (BST_REPAIR_valid 3 2, 1), (BST_REPAIR_valid 3 3, 1)])) ∧
    ((fun (u : Fin 15) (x : BstSlice) (s : State) => s.bst.slices = [x] ∧ (x.u = u.val ∧ x.kind = 0) ∧ s.bst.test = none) 3 ⟨3, 5, 0⟩ (updBst (fun b => { b with slices := [⟨3, 5, 0⟩] }) .reset)) ∧
    ((fun (u : Fin 15) (x : BstSlice) (s : State) => s.bst.slices = [x] ∧ (x.u = u.val ∧ x.kind = 1) ∧ s.bst.test = none) 3 ⟨3, 5, 1⟩ (updBst (fun b => { b with slices := [⟨3, 5, 1⟩] }) .reset)) ∧
    ((fun (u : Nat) (row : Nat) (b : Nat) (spare : Nat) (s : State) => freeSpare u (ledger 1 u row 1 b s) = some spare) 3 5 70 0 .reset) ∧
    ((fun (q : Rq) (u : Fin 15) (k : Fin 4) (row : BitVec 13) (s : State) => Sent q (BST_REPAIR u k) BST_REPAIR_fs (repairWord u k row) s ∧ s.get (BST_REPAIR_valid u k) = 0) (.core 12 .k) 3 1 5 .reset) ∧
    ((fun (q : Rq) (u : Fin 15) (k : Fin 4) (row : BitVec 13) (s : State) => Sent q (BST_REPAIR u k) BST_REPAIR_fs (repairWord u k row) s ∧ s.get (BST_REPAIR_valid u k) = 1 ∧ s.chg (repairWord u k row) (BST_REPAIR_row u k) = true) (.core 12 .k) 3 1 5 (st [(BST_REPAIR_valid 3 1, 1)])) ∧
    ((fun (q : Rq) (u : BitVec 5) (row : BitVec 13) (s : State) => Sent q BST_MEM_CMD BST_MEM_CMD_fs (testWord u row) s ∧ s.get BST_MEM_RESULT_busy = 0 ∧ (u.toNat ≤ 14 ∧ wf (testWord u row) BST_MEM_CMD_row < unitRows u.toNat) ∧ sliceOn u.toNat s = false) (.core 12 .k) 3 5 .reset) ∧
    ((fun (q : Rq) (u : BitVec 5) (row : BitVec 13) (s : State) => Sent q BST_MEM_CMD BST_MEM_CMD_fs (testWord u row) s ∧ s.get BST_MEM_RESULT_busy = 0 ∧ 14 < wf (testWord u row) BST_MEM_CMD_unit) (.core 12 .k) 15 5 .reset) ∧
    ((fun (q : Rq) (u : BitVec 5) (row : BitVec 13) (s : State) => Sent q BST_MEM_CMD BST_MEM_CMD_fs (testWord u row) s ∧ s.get BST_MEM_RESULT_busy = 1) (.core 12 .k) 3 5 (st [(BST_MEM_RESULT_busy, 1)])) ∧
    ((fun (q : Rq) (c : BitVec 4) (i : BitVec 6) (s : State) => Sent q BST_LB_CMD BST_LB_CMD_fs (logicWord c i) s ∧ s.bst.lb = none ∧ (c.toNat ≤ 11 ∧ i.toNat ≤ 47)) (.core 12 .k) 11 47 .reset) ∧
    ((fun (q : Rq) (c : BitVec 4) (i : BitVec 6) (s : State) => Sent q BST_LB_CMD BST_LB_CMD_fs (logicWord c i) s ∧ s.bst.lb = none ∧ (11 < c.toNat ∨ 47 < i.toNat)) (.core 12 .k) 12 47 .reset) ∧
    ((fun (q : Rq) (c : BitVec 4) (i : BitVec 6) (s : State) => Sent q BST_LB_CMD BST_LB_CMD_fs (logicWord c i) s ∧ s.bst.lb = none ∧ (11 < c.toNat ∨ 47 < i.toNat)) (.core 12 .k) 11 48 .reset) ∧
    ((fun (q : Rq) (c : BitVec 4) (i : BitVec 6) (s : State) => Sent q BST_LB_CMD BST_LB_CMD_fs (logicWord c i) s ∧ s.bst.lb ≠ none) (.core 12 .k) 11 47 (updBst (fun b => { b with lb := some (1, 2, false) }) .reset)) ∧
    ((fun (c : Nat) (i : Nat) (s : State) => s.bst.lb = some (c, i, false)) 0 5 (updBst (fun b => { b with lb := some (0, 5, false) }) (updCpu 0 (fun k => { k with wait := .wait }) run0))) ∧
    ((fun (c : Nat) (i : Nat) (s : State) => s.bst.lb = some (c, i, true)) 0 5 (updBst (fun b => { b with lb := some (0, 5, true) }) run0)) ∧
    ((fun (c : Nat) (i : Nat) (s : State) => s.bst.lb = some (c, i, true) ∧ c < 12 ∧ s.bst.lbFail = []) 0 5 (updBst (fun b => { b with lb := some (0, 5, true) }) run0)) ∧
    ((fun (c : Nat) (i : Nat) (s : State) => s.bst.lb = some (c, i, true) ∧ c < 12 ∧ s.bst.lbFail = [(c, i)]) 0 5 (updBst (fun b => { b with lb := some (0, 5, true), lbFail := [(0, 5)] }) run0)) ∧
    ((fun (s : State) => s.bst.lb = none) .reset) := by
  refine ⟨?_, ?_, ?_, ?_, ?_, ?_, ?_, ?_, ?_, ?_, ?_, ?_, ?_, ?_, ?_, ?_, ?_, ?_, ?_, ?_, ?_, ?_, ?_, ?_, ?_, ?_, ?_⟩ <;> (beta_reduce; decide +kernel)

theorem test_hyps_ReturnFromTrap :
    ((fun (c : Fin 14) (s : State) => Issues c s ∧ Above c s ∧ StoresDone c s ∧ ((ready c s).cpu c).lvl ≠ 2 ∧ c ≠ 13) 0 (updCpu 0 (fun k => { k with epc := 0x7F000100, pie := true }) run0)) ∧
    ((fun (s : State) => Issues 12 s ∧ Above 12 s ∧ StoresDone 12 s ∧ ((ready 12 s).cpu 12).lvl = 2 ∧ ((ready 12 s).cpu 12).kplvl < 3) (updCpu 12 (fun k => { k with kepc := 0x7F000100, kplvl := 1, nmiAct := true }) run12)) ∧
    ((fun (s : State) => Issues 13 s ∧ Above 13 s ∧ StoresDone 13 s ∧ ((ready 13 s).cpu 13).lvl ≠ 2) (st [(CEL_STAT_state, 3)])) ∧
    ((fun (c : Fin 14) (s : State) => Issues c s ∧ Above c s ∧ ((ready c s).cpu c).serr = none ∧ ((ready c s).cpu c).posted ≠ []) 0 (updCpu 0 (fun k => { k with posted := [{ a := 0x40000000, sys := 0x40000000, code := none, priv := false }] }) run0)) := by
  refine ⟨?_, ?_, ?_, ?_⟩ <;> (beta_reduce; decide +kernel)

theorem test_hyps_CsrRights :
    ((fun (c : Fin 14) (n : BitVec 12) (s : State) => Issues c s ∧ (n.toNat / 1024 = 3 ∨ csrListed n.toNat = false ∨ (n.toNat / 1024 = 2 ∧ c ≠ 12))) 0 0xC00 run0) ∧
    ((fun (c : Fin 14) (n : BitVec 12) (s : State) => Issues c s ∧ (n.toNat / 1024 = 3 ∨ csrListed n.toNat = false ∨ (n.toNat / 1024 = 2 ∧ c ≠ 12))) 0 0x123 run0) ∧
    ((fun (c : Fin 14) (n : BitVec 12) (s : State) => Issues c s ∧ (n.toNat / 1024 = 3 ∨ csrListed n.toNat = false ∨ (n.toNat / 1024 = 2 ∧ c ≠ 12))) 0 0x800 run0) ∧
    ((fun (c : Fin 14) (n : BitVec 12) (s : State) => Issues c s ∧ n.toNat / 512 % 2 = 1) 0 0x200 run0) ∧
    ((fun (c : Fin 14) (n : BitVec 12) (s : State) => Issues c s ∧ csrListed n.toNat = true ∧ (n.toNat / 1024 ≠ 2 ∨ c = 12) ∧ ((fetched c s).cpu c).lvl < n.toNat / 1024) 0 0x400 (updCpu 0 (fun k => { k with lvl := 0 }) run0)) ∧
    ((fun (c : Fin 14) (n : BitVec 12) (s : State) => Issues c s ∧ csrListed n.toNat = true ∧ (n.toNat / 1024 ≠ 2 ∨ c = 12) ∧ n.toNat / 1024 ≤ ((fetched c s).cpu c).lvl ∧ ((fetched c s).cpu c).lvl ≠ 0) 0 0x400 run0) := by
  refine ⟨?_, ?_, ?_, ?_, ?_, ?_⟩ <;> (beta_reduce; decide +kernel)

theorem test_hyps_OwnFields :
    ((fun (lo : Nat) (n : Nat) (old : Word) (w : Word) => fieldOf w lo n ≠ fieldOf old lo n) 4 4 0 0x10) ∧
    ((fun (q : Rq) (a : Nat) (lo : Nat) (n : Nat) (w : Word) (s : State) => q.cls = 0 ∧ (q ≠ .core 12 .k ∧ q ≠ .larder) ∧ a % 4 = 0 ∧ fencedAt a s = false ∧ fieldOf w lo n ≠ fieldOf (s.rd a) lo n) (.core 0 .s) 0x40700000 4 4 0x10 run0) := by
  refine ⟨?_, ?_⟩ <;> (beta_reduce; decide +kernel)

theorem test_hyps_EventTraps :
    ((fun (c : Fin 14) (s : State) => ((s.cpu c).ie = false ∨ c = 13)) 0 run0) ∧
    ((fun (c : Nat) (e : Nat) (s : State) => evtNext c s = some e) 0 100 (((run0.set (EVR_ROUTE_en 100) 1).set (EVR_ROUTE_core 100) 0).raise 100)) ∧
    ((fun (c : Nat) (s : State) => evtNext c s = none) 0 run0) ∧
    ((fun (c : Fin 13) (e : Nat) (s : State) => (8 ≤ e ∧ e < 512) ∧ c.val ≠ 12 ∧ (s.cpu c).lvl ≠ 2 ∧ c.val < s.cores.length) 0 100 (((run0.set (EVR_ROUTE_en 100) 1).set (EVR_ROUTE_core 100) 0).raise 100)) := by
  refine ⟨?_, ?_, ?_, ?_⟩ <;> (beta_reduce; decide +kernel)

theorem test_hyps_RadioReach_1 :
    isRadio .muteNAssert = true ∧ ∃ t, exec .muteNAssert State.reset = .next t := ⟨by decide, _, rfl⟩

theorem test_hyps_ComputeFrame_1 :
    computes (.add 0 3 4 5) = some 0 ∧ Issues 0 run0 ∧ ∃ t, exec (.add 0 3 4 5) run0 = .next t := ⟨by decide, by decide +kernel, _, rfl⟩

theorem test_hyps_MemoryFrame_1 :
    Inv run0 ∧ RunsFromMemory 0 run0 := by refine ⟨⟨by unfold RegsOk; decide +kernel, by decide +kernel, by unfold EccOk; decide +kernel, ?_, by unfold CpuOk; decide +kernel⟩, by decide +kernel⟩; unfold SizesOk CpuOk; refine ⟨by decide, by decide, by decide, by decide, by decide +kernel, by decide, by decide +kernel, by decide, by decide, by decide, by decide, by decide, mergeOk_empty, by decide, by decide⟩

theorem test_hyps_MemoryFrame_2 :
    InMemory (dataAt 0 4 4 (setW 0 4 0x10000000 run0)) ∧ StoreAccepted 0 3 4 4 4 (setW 0 4 0x10000000 run0) ∧ InMemory (named 0 (opnd 0 4 (setW 0 4 0x10000000 run0)) (fetched 0 (setW 0 4 0x10000000 run0))) := by decide +kernel

theorem test_hyps_RecordsAndKeysLast_1 :
    ∃ t, step State.reset = .next t := ⟨_, rfl⟩

theorem test_hyps_OutsideWrites_1 :
    Rq.cls .hatch ≠ 0 ∧ isOwner .hatch State.reset = false ∧ openWrite BND_TIME_L = false ∧ (Rq.hatch = .host && !mgmtAlive State.reset) = false ∧ BND_TIME_L % 4 = 0 ∧ fencedAt BND_TIME_L { State.reset with rst := {} } = false ∧ portWaits BND_TIME_L { State.reset with rst := {} } = false ∧ mgmtLimits .hatch BND_TIME_L { State.reset with rst := {} } = false := by decide +kernel

theorem test_hyps_EveryCommandAnswers_1 :
    State.reset.pending = [] := rfl

end Sys2Proof.Tests
end

namespace Sys2Proof.Machine

/-! # The invariant from reset on, and the idle period under a trimmed BPLL -/

/-! ## Commands and steps -/

/-- The table of Dispatch.lean, with what each command's meaning keeps. -/
theorem Keeps.exec {s t : State} {i : Instr} (h : Machine.exec i s = .next t) : Keeps s t :=
  match i, h with
  | .registerWrite .., h => .execRegisterWrite h
  | .mappingChange .., h => .execMappingChange h
  | .laneUp .., h => .execLaneUp h
  | .laneDown .., h => .execLaneDown h
  | .rampTick, h => .execRampTick h
  | .rxEnOn .., h => .execRxEnOn h
  | .fgCalDone .., h => .execFgCalDone h
  | .rxEnOff .., h => .execRxEnOff h
  | .rotationResume .., h => .execRotationResume h
  | .sparePhaseEnd .., h => .execSparePhaseEnd h
  | .skewPhaseEnd .., h => .execSkewPhaseEnd h
  | .slotHandover .., h => .execSlotHandover h
  | .hold .., h => .execHold h
  | .calResume .., h => .execCalResume h
  | .recal .., h => .execRecal h
  | .releaseSlice .., h => .execReleaseSlice h
  | .swingWrite .., h => .execSwingWrite h
  | .firCommit .., h => .execFirCommit h
  | .pdSwap .., h => .execPdSwap h
  | .txCommitApply .., h => .execTxCommitApply h
  | .blockBoundary .., h => .execBlockBoundary h
  | .monitorWindowEnd .., h => .execMonitorWindowEnd h
  | .detEnable .., h => .execDetEnable h
  | .detDisable .., h => .execDetDisable h
  | .detAcquire .., h => .execDetAcquire h
  | .detDetect .., h => .execDetDetect h
  | .detLock .., h => .execDetLock h
  | .detDrop .., h => .execDetDrop h
  | .lmsAccum .., h => .execLmsAccum h
  | .lmsAccumDone .., h => .execLmsAccumDone h
  | .lmsApply .., h => .execLmsApply h
  | .eqTapWrite .., h => .execEqTapWrite h
  | .levelSwap .., h => .execLevelSwap h
  | .histRun .., h => .execHistRun h
  | .histDone .., h => .execHistDone h
  | .rxFrame .., h => .execRxFrame h
  | .puncturePhaseAdvance .., h => .execPuncturePhaseAdvance h
  | .rsCodewordDecode .., h => .execRsCodewordDecode h
  | .txFrameStart .., h => .execTxFrameStart h
  | .containerBlockIn .., h => .execContainerBlockIn h
  | .rxCell .., h => .execRxCell h
  | .playoutTick .., h => .execPlayoutTick h
  | .containerWrite .., h => .execContainerWrite h
  | .txEnable .., h => .execTxEnable h
  | .txSquelch .., h => .execTxSquelch h
  | .squelchStep .., h => .execSquelchStep h
  | .fecWindowEnd .., h => .execFecWindowEnd h
  | .frmCounterSnap .., h => .execFrmCounterSnap h
  | .hostModeWrite .., h => .execHostModeWrite h
  | .hostStart .., h => .execHostStart h
  | .hostRetrain .., h => .execHostRetrain h
  | .hostStop .., h => .execHostStop h
  | .hostResync .., h => .execHostResync h
  | .hostLockAcquired .., h => .execHostLockAcquired h
  | .hostAcquireTimeout .., h => .execHostAcquireTimeout h
  | .trainingFrameRx .., h => .execTrainingFrameRx h
  | .trainTimeout .., h => .execTrainTimeout h
  | .trainAutoReady .., h => .execTrainAutoReady h
  | .hostTrainReqWrite .., h => .execHostTrainReqWrite h
  | .hostTxFirWrite .., h => .execHostTxFirWrite h
  | .hostTxFirApply .., h => .execHostTxFirApply h
  | .hostGroupAlign .., h => .execHostGroupAlign h
  | .hostLaneLost .., h => .execHostLaneLost h
  | .hostSyncEdge, h => .execHostSyncEdge h
  | .hostSysrefArm .., h => .execHostSysrefArm h
  | .jesdRelease .., h => .execJesdRelease h
  | .sysrefTimeout .., h => .execSysrefTimeout h
  | .patternGenEnable .., h => .execPatternGenEnable h
  | .patternInject .., h => .execPatternInject h
  | .checkerLock .., h => .execCheckerLock h
  | .checkerUnlock .., h => .execCheckerUnlock h
  | .patternSnap .., h => .execPatternSnap h
  | .hostCodewordDecode .., h => .execHostCodewordDecode h
  | .hostFecSnap .., h => .execHostFecSnap h
  | .portEnable .., h => .execPortEnable h
  | .portDisable .., h => .execPortDisable h
  | .admitPath .., h => .execAdmitPath h
  | .release .., h => .execRelease h
  | .releaseRampEnd .., h => .execReleaseRampEnd h
  | .queuePass .., h => .execQueuePass h
  | .admFloorWrite .., h => .execAdmFloorWrite h
  | .pathGainWrite .., h => .execPathGainWrite h
  | .filterCommit .., h => .execFilterCommit h
  | .xfadeEnd .., h => .execXfadeEnd h
  | .cancellerSwap .., h => .execCancellerSwap h
  | .meterWindowEnd .., h => .execMeterWindowEnd h
  | .bandSyncEdge .., h => .execBandSyncEdge h
  | .bandSyncGlitch, h => .execBandSyncGlitch h
  | .bandSyncArm .., h => .execBandSyncArm h
  | .syncRestart, h => .execSyncRestart h
  | .syncStuck, h => .execSyncStuck h
  | .syncCmd .., h => .execSyncCmd h
  | .measRun .., h => .execMeasRun h
  | .measEnd, h => .execMeasEnd h
  | .bndSyncStatRead .., h => .execBndSyncStatRead h
  | .bndPathSatRead .., h => .execBndPathSatRead h
  | .bndTimeLRead .., h => .execBndTimeLRead h
  | .repeaterTick, h => .execRepeaterTick h
  | .isoAppStep .., h => .execIsoAppStep h
  | .creditStep .., h => .execCreditStep h
  | .rptArm .., h => .execRptArm h
  | .rptMute .., h => .execRptMute h
  | .rptOff .., h => .execRptOff h
  | .rptClear .., h => .execRptClear h
  | .armingEnd .., h => .execArmingEnd h
  | .mutingEnd .., h => .execMutingEnd h
  | .autoRearm .., h => .execAutoRearm h
  | .oscWindowEnd .., h => .execOscWindowEnd h
  | .oscHoldExpire .., h => .execOscHoldExpire h
  | .ceilWindowEnd .., h => .execCeilWindowEnd h
  | .clDecayStep .., h => .execClDecayStep h
  | .ceilHoldExpire .., h => .execCeilHoldExpire h
  | .nrEvaluate .., h => .execNrEvaluate h
  | .nrRelax .., h => .execNrRelax h
  | .donorHoldExpire .., h => .execDonorHoldExpire h
  | .muteNAssert, h => .execMuteNAssert h
  | .muteNDeassert, h => .execMuteNDeassert h
  | .muteNGlitch, h => .execMuteNGlitch h
  | .muteNStuck, h => .execMuteNStuck h
  | .rptMuteCntRead .., h => .execRptMuteCntRead h
  | .rptCeilWrite .., h => .execRptCeilWrite h
  | .lstStart .., h => .execLstStart h
  | .lstStop .., h => .execLstStop h
  | .lstRestart .., h => .execLstRestart h
  | .agcWindowEnd .., h => .execAgcWindowEnd h
  | .syncDetect .., h => .execSyncDetect h
  | .sssEvaluate .., h => .execSssEvaluate h
  | .pbchDecode .., h => .execPbchDecode h
  | .watchPeak .., h => .execWatchPeak h
  | .candidateExpire .., h => .execCandidateExpire h
  | .nrbufRelease .., h => .execNrbufRelease h
  | .presenceExpire .., h => .execPresenceExpire h
  | .timingStale .., h => .execTimingStale h
  | .tddPatternWrite .., h => .execTddPatternWrite h
  | .tddPatternActivate .., h => .execTddPatternActivate h
  | .nfPublish .., h => .execNfPublish h
  | .nfExpire .., h => .execNfExpire h
  | .lstChCntRead .., h => .execLstChCntRead h
  | .lstRxTimeLRead .., h => .execLstRxTimeLRead h
  | .seqStandby .., h => .execSeqStandby h
  | .seqRx .., h => .execSeqRx h
  | .seqTx .., h => .execSeqTx h
  | .seqSettle .., h => .execSeqSettle h
  | .seqCal .., h => .execSeqCal h
  | .seqOff .., h => .execSeqOff h
  | .seqTxDurExpire .., h => .execSeqTxDurExpire h
  | .feLockQualify .., h => .execFeLockQualify h
  | .feLockFall .., h => .execFeLockFall h
  | .heldTxEnter .., h => .execHeldTxEnter h
  | .txHoldExpire .., h => .execTxHoldExpire h
  | .settleDone .., h => .execSettleDone h
  | .settleTimeout .., h => .execSettleTimeout h
  | .calPassEnd .., h => .execCalPassEnd h
  | .burstTxEnter .., h => .execBurstTxEnter h
  | .burstRxEnter .., h => .execBurstRxEnter h
  | .burstLeave .., h => .execBurstLeave h
  | .tddGateEdge .., h => .execTddGateEdge h
  | .spiGo .., h => .execSpiGo h
  | .spiTransferEnd .., h => .execSpiTransferEnd h
  | .rfcOwnWrite .., h => .execRfcOwnWrite h
  | .coexCtrlWrite .., h => .execCoexCtrlWrite h
  | .coexReqAssert .., h => .execCoexReqAssert h
  | .coexGrantAssert, h => .execCoexGrantAssert h
  | .coexGrantDeassert, h => .execCoexGrantDeassert h
  | .coexGrantGlitch, h => .execCoexGrantGlitch h
  | .coexGrantStuck, h => .execCoexGrantStuck h
  | .fenCoexCntRead .., h => .execFenCoexCntRead h
  | .fenSeqCntRead .., h => .execFenSeqCntRead h
  | .add .., h => .execAdd h
  | .sub .., h => .execSub h
  | .and .., h => .execAnd h
  | .or .., h => .execOr h
  | .xor .., h => .execXor h
  | .nor .., h => .execNor h
  | .sll .., h => .execSll h
  | .srl .., h => .execSrl h
  | .sra .., h => .execSra h
  | .slt .., h => .execSlt h
  | .sltu .., h => .execSltu h
  | .mul .., h => .execMul h
  | .mulh .., h => .execMulh h
  | .mulhu .., h => .execMulhu h
  | .div .., h => .execDiv h
  | .divu .., h => .execDivu h
  | .rem .., h => .execRem h
  | .remu .., h => .execRemu h
  | .addi .., h => .execAddi h
  | .andi .., h => .execAndi h
  | .ori .., h => .execOri h
  | .xori .., h => .execXori h
  | .slti .., h => .execSlti h
  | .sltiu .., h => .execSltiu h
  | .slli .., h => .execSlli h
  | .srli .., h => .execSrli h
  | .srai .., h => .execSrai h
  | .jalr .., h => .execJalr h
  | .lui .., h => .execLui h
  | .auipc .., h => .execAuipc h
  | .jal .., h => .execJal h
  | .lb .., h => .execLb h
  | .lbu .., h => .execLbu h
  | .lh .., h => .execLh h
  | .lhu .., h => .execLhu h
  | .lw .., h => .execLw h
  | .sb .., h => .execSb h
  | .sh .., h => .execSh h
  | .sw .., h => .execSw h
  | .xchg .., h => .execXchg h
  | .beq .., h => .execBeq h
  | .bne .., h => .execBne h
  | .blt .., h => .execBlt h
  | .bge .., h => .execBge h
  | .bltu .., h => .execBltu h
  | .bgeu .., h => .execBgeu h
  | .csrrw .., h => .execCsrrw h
  | .csrrd .., h => .execCsrrd h
  | .csrrm .., h => .execCsrrm h
  | .wait .., h => .execWait h
  | .waitWake .., h => .execWaitWake h
  | .fence .., h => .execFence h
  | .evwait .., h => .execEvwait h
  | .evwaitEvent .., h => .execEvwaitEvent h
  | .evwaitTimeout .., h => .execEvwaitTimeout h
  | .qpoint .., h => .execQpoint h
  | .shelfSwap .., h => .execShelfSwap h
  | .trap .., h => .execTrap h
  | .brk .., h => .execBrk h
  | .rett .., h => .execRett h
  | .eventTrap .., h => .execEventTrap h
  | .nmiTrap, h => .execNmiTrap h
  | .storeCompletion .., h => .execStoreCompletion h
  | .storeErrTrap .., h => .execStoreErrTrap h
  | .staleReply .., h => .execStaleReply h
  | .vadd .., h => .execVadd h
  | .vsub .., h => .execVsub h
  | .vmul .., h => .execVmul h
  | .vmulq .., h => .execVmulq h
  | .vmac .., h => .execVmac h
  | .vmin .., h => .execVmin h
  | .vmax .., h => .execVmax h
  | .vabs .., h => .execVabs h
  | .vshr .., h => .execVshr h
  | .vshl .., h => .execVshl h
  | .vsplat .., h => .execVsplat h
  | .vext .., h => .execVext h
  | .vins .., h => .execVins h
  | .vsum .., h => .execVsum h
  | .vclamp .., h => .execVclamp h
  | .vld .., h => .execVld h
  | .vst .., h => .execVst h
  | .cadd .., h => .execCadd h
  | .csub .., h => .execCsub h
  | .cmul .., h => .execCmul h
  | .cmulj .., h => .execCmulj h
  | .cmac .., h => .execCmac h
  | .conj .., h => .execConj h
  | .cmag2 .., h => .execCmag2 h
  | .cscale .., h => .execCscale h
  | .cshr .., h => .execCshr h
  | .cpack .., h => .execCpack h
  | .kcall .., h => .execKcall h
  | .karm .., h => .execKarm h
  | .kdisarm .., h => .execKdisarm h
  | .kzero .., h => .execKzero h
  | .coreBootShelfSet .., h => .execCoreBootShelfSet h
  | .coreStart .., h => .execCoreStart h
  | .coreHalt .., h => .execCoreHalt h
  | .coreHaltDone .., h => .execCoreHaltDone h
  | .coreResume .., h => .execCoreResume h
  | .coreReset .., h => .execCoreReset h
  | .loaderLoad .., h => .execLoaderLoad h
  | .loadComplete, h => .execLoadComplete h
  | .shelfWrite .., h => .execShelfWrite h
  | .softwareEventRaise .., h => .execSoftwareEventRaise h
  | .lockstepMismatch, h => .execLockstepMismatch h
  | .wdogKick .., h => .execWdogKick h
  | .wdogExpire, h => .execWdogExpire h
  | .wdogReset, h => .execWdogReset h
  | .cntOverflow .., h => .execCntOverflow h
  | .pmcOverflow .., h => .execPmcOverflow h
  | .pmcCntLRead .., h => .execPmcCntLRead h
  | .mergeRetire .., h => .execMergeRetire h
  | .memoryFillDone, h => .execMemoryFillDone h
  | .scrubRead .., h => .execScrubRead h
  | .memCorrRead .., h => .execMemCorrRead h
  | .arbGrant .., h => .execArbGrant h
  | .targetTimeout .., h => .execTargetTimeout h
  | .dmaStart .., h => .execDmaStart h
  | .dmaStop .., h => .execDmaStop h
  | .dmaResume .., h => .execDmaResume h
  | .descriptorFetch .., h => .execDescriptorFetch h
  | .dmaBurst .., h => .execDmaBurst h
  | .dmaRequestLine .., h => .execDmaRequestLine h
  | .descriptorRetire .., h => .execDescriptorRetire h
  | .dmaReadError .., h => .execDmaReadError h
  | .dmaPostedError .., h => .execDmaPostedError h
  | .dmaLastBeatError .., h => .execDmaLastBeatError h
  | .dmaWithdraw .., h => .execDmaWithdraw h
  | .stoRaw .., h => .execStoRaw h
  | .stoRead .., h => .execStoRead h
  | .stoWrite .., h => .execStoWrite h
  | .stoTrim .., h => .execStoTrim h
  | .stoFlush .., h => .execStoFlush h
  | .stoStop .., h => .execStoStop h
  | .stoBlockEnd .., h => .execStoBlockEnd h
  | .stoCommandEnd .., h => .execStoCommandEnd h
  | .stoResponseTimeout, h => .execStoResponseTimeout h
  | .norGo .., h => .execNorGo h
  | .norTransactionEnd .., h => .execNorTransactionEnd h
  | .pllEnable .., h => .execPllEnable h
  | .pllDisable .., h => .execPllDisable h
  | .pllLock .., h => .execPllLock h
  | .pllUnlock .., h => .execPllUnlock h
  | .bpllTrimWrite .., h => .execBpllTrimWrite h
  | .foscReady, h => .execFoscReady h
  | .foscCheck .., h => .execFoscCheck h
  | .aoscDisciplineEnd .., h => .execAoscDisciplineEnd h
  | .aonTimeHWrite .., h => .execAonTimeHWrite h
  | .aonTimeLoad .., h => .execAonTimeLoad h
  | .aonTimeLRead .., h => .execAonTimeLRead h
  | .refmonWindowEnd .., h => .execRefmonWindowEnd h
  | .sysSrcSelect .., h => .execSysSrcSelect h
  | .clockSwitchDone .., h => .execClockSwitchDone h
  | .nofoscTimeout, h => .execNofoscTimeout h
  | .clkoutWrite .., h => .execClkoutWrite h
  | .clockGateIdle .., h => .execClockGateIdle h
  | .powerOnReset, h => .execPowerOnReset h
  | .powerOnResetRelease, h => .execPowerOnResetRelease h
  | .aonPowerOnReset, h => .execAonPowerOnReset h
  | .resetNAssert, h => .execResetNAssert h
  | .resetNRelease, h => .execResetNRelease h
  | .commandReset .., h => .execCommandReset h
  | .wideResetRelease, h => .execWideResetRelease h
  | .rstCauseWrite .., h => .execRstCauseWrite h
  | .blkRstSet .., h => .execBlkRstSet h
  | .blkRstClear .., h => .execBlkRstClear h
  | .blockRelease .., h => .execBlockRelease h
  | .atticLoadDone, h => .execAtticLoadDone h
  | .scRelease, h => .execScRelease h
  | .stopEntry .., h => .execStopEntry h
  | .wakeSourceQualified .., h => .execWakeSourceQualified h
  | .wakeResume .., h => .execWakeResume h
  | .avsRequest .., h => .execAvsRequest h
  | .avsResponse .., h => .execAvsResponse h
  | .avsAttemptTimeout, h => .execAvsAttemptTimeout h
  | .thermalDemand .., h => .execThermalDemand h
  | .thermalTimerExpire, h => .execThermalTimerExpire h
  | .thermalMeasurementEnd .., h => .execThermalMeasurementEnd h
  | .shutdownStop, h => .execShutdownStop h
  | .thresholdWrite .., h => .execThresholdWrite h
  | .hkcScanRun .., h => .execHkcScanRun h
  | .hkcEntryEnd .., h => .execHkcEntryEnd h
  | .hkdEnable .., h => .execHkdEnable h
  | .hkdDisable .., h => .execHkdDisable h
  | .hkdConnect .., h => .execHkdConnect h
  | .hkdUpdate, h => .execHkdUpdate h
  | .hkdValueWrite .., h => .execHkdValueWrite h
  | .hkdStatRead .., h => .execHkdStatRead h
  | .guardLimitWrite .., h => .execGuardLimitWrite h
  | .hkdMonitorTrip .., h => .execHkdMonitorTrip h
  | .txDisableAssert, h => .execTxDisableAssert h
  | .txDisableDeassert, h => .execTxDisableDeassert h
  | .tripClear .., h => .execTripClear h
  | .grdStatRead .., h => .execGrdStatRead h
  | .ownClaim .., h => .execOwnClaim h
  | .leaseRenew .., h => .execLeaseRenew h
  | .leaseLapse, h => .execLeaseLapse h
  | .ownHandover .., h => .execOwnHandover h
  | .ownAccept .., h => .execOwnAccept h
  | .handoverTimeout, h => .execHandoverTimeout h
  | .mgmtWindowTransaction .., h => .execMgmtWindowTransaction h
  | .mgmtPageWrite .., h => .execMgmtPageWrite h
  | .i3cSetdasa .., h => .execI3cSetdasa h
  | .i3cEntdaa .., h => .execI3cEntdaa h
  | .i3cRstdaa, h => .execI3cRstdaa h
  | .i3cEnec, h => .execI3cEnec h
  | .i3cDisec, h => .execI3cDisec h
  | .i3cGetpid, h => .execI3cGetpid h
  | .i3cGetbcr, h => .execI3cGetbcr h
  | .i3cGetdcr, h => .execI3cGetdcr h
  | .i3cGetstatus, h => .execI3cGetstatus h
  | .i3cGetmwl, h => .execI3cGetmwl h
  | .i3cGetmrl, h => .execI3cGetmrl h
  | .hatchIdcode, h => .execHatchIdcode h
  | .hatchSamplePreload, h => .execHatchSamplePreload h
  | .hatchExtest, h => .execHatchExtest h
  | .hatchBypass .., h => .execHatchBypass h
  | .hatchChal, h => .execHatchChal h
  | .hatchMbox .., h => .execHatchMbox h
  | .hatchVerify, h => .execHatchVerify h
  | .hatchPassword, h => .execHatchPassword h
  | .hatchClose .., h => .execHatchClose h
  | .hatchBusRead .., h => .execHatchBusRead h
  | .hatchBusWrite .., h => .execHatchBusWrite h
  | .hatchCoreHalt .., h => .execHatchCoreHalt h
  | .hatchCoreResume .., h => .execHatchCoreResume h
  | .hatchCoreStep .., h => .execHatchCoreStep h
  | .hatchCoreRegAccess .., h => .execHatchCoreRegAccess h
  | .hatchTapReset, h => .execHatchTapReset h
  | .keyload .., h => .execKeyload h
  | .keyLoadDone, h => .execKeyLoadDone h
  | .fuseEnrol .., h => .execFuseEnrol h
  | .fuseRevoke .., h => .execFuseRevoke h
  | .fuseDone .., h => .execFuseDone h
  | .attest .., h => .execAttest h
  | .sign .., h => .execSign h
  | .signingDone, h => .execSigningDone h
  | .secretWindowWrite .., h => .execSecretWindowWrite h
  | .helloTimer, h => .execHelloTimer h
  | .helloRx .., h => .execHelloRx h
  | .linkDeadTimeout .., h => .execLinkDeadTimeout h
  | .linkPhyChange .., h => .execLinkPhyChange h
  | .crateRxUnicast .., h => .execCrateRxUnicast h
  | .crateRxBroadcast .., h => .execCrateRxBroadcast h
  | .crateSent .., h => .execCrateSent h
  | .crateSend .., h => .execCrateSend h
  | .remoteRead .., h => .execRemoteRead h
  | .remoteWrite .., h => .execRemoteWrite h
  | .rraRead .., h => .execRraRead h
  | .rraWrite .., h => .execRraWrite h
  | .rreplyRx .., h => .execRreplyRx h
  | .rraTimeout, h => .execRraTimeout h
  | .snkAddrWrite .., h => .execSnkAddrWrite h
  | .snkDiscRead .., h => .execSnkDiscRead h
  | .snkDropRead .., h => .execSnkDropRead h
  | .pairEnable .., h => .execPairEnable h
  | .pairDisable .., h => .execPairDisable h
  | .heartbeatTimer, h => .execHeartbeatTimer h
  | .heartbeatRx .., h => .execHeartbeatRx h
  | .partnerLost, h => .execPartnerLost h
  | .pairPathLoss .., h => .execPairPathLoss h
  | .pairSwitch .., h => .execPairSwitch h
  | .yieldTimeout, h => .execYieldTimeout h
  | .soloTimeout, h => .execSoloTimeout h
  | .cellarPowerOn, h => .execCellarPowerOn h
  | .cellarPowerLoss .., h => .execCellarPowerLoss h
  | .cellarStartDone, h => .execCellarStartDone h
  | .cellarSeal .., h => .execCellarSeal h
  | .cellarCommit .., h => .execCellarCommit h
  | .cellarSupplyFall .., h => .execCellarSupplyFall h
  | .cellarRecord, h => .execCellarRecord h
  | .cellarRecordComplete, h => .execCellarRecordComplete h
  | .celRecLineExpire, h => .execCelRecLineExpire h
  | .cellarTamperChange .., h => .execCellarTamperChange h
  | .cellarWindowWrite .., h => .execCellarWindowWrite h
  | .memSliceStart .., h => .execMemSliceStart h
  | .memSliceEnd .., h => .execMemSliceEnd h
  | .repairRestore .., h => .execRepairRestore h
  | .testRow .., h => .execTestRow h
  | .logicSliceRequest .., h => .execLogicSliceRequest h
  | .logicSliceStart, h => .execLogicSliceStart h
  | .logicSliceEnd .., h => .execLogicSliceEnd h
  | .logicSliceTimeout, h => .execLogicSliceTimeout h
  | .aoscReady, h => .execAoscReady h
  | .droopComparatorTrip, h => .execDroopComparatorTrip h
  | .vddioReachingThreshold, h => .execVddioReachingThreshold h

/-- With no command waiting a step is one nominal period of the band clock (log 3). -/
theorem step_of_pending_nil {s : State} (h : s.pending = []) : step s = .next (tick s) := by
  simp only [step, h]

/-- With a command waiting a step is that command's, in the state with the rest of the queue. -/
theorem step_of_pending_cons {s : State} {i : Instr} {rest : List Instr} (h : s.pending = i :: rest) :
    step s = exec i { s with pending := rest } := by
  simp only [step, h]

/-- Inv does not speak of the queue. -/
theorem Inv.pending {s : State} (h : Inv s) (l : List Instr) : Inv { s with pending := l } := h

theorem Inv.step {s t : State} (hs : Inv s) (h : Machine.step s = .next t) : Inv t := by
  cases hp : s.pending with
  | nil =>
    rw [step_of_pending_nil hp] at h
    injection h with ht
    exact ht ▸ (Keeps.refl s).tick.1 hs
  | cons i rest =>
    rw [step_of_pending_cons hp] at h
    exact (Keeps.exec h).1 (hs.pending rest)

/-- Settles O3: a period of the clock and every command keep the invariant. -/
theorem stepKeepsInv : Obligations.StepKeepsInv := by
  unfold Obligations.StepKeepsInv
  exact fun _ _ => Inv.step

/-! ## Reset -/

/-- Every array of the reset state is a repeated element. -/
theorem sizesOk_reset : SizesOk State.reset := by
  simp only [SizesOk, State.reset, List.length_replicate, List.length_set, true_and]
  exact ⟨mergeOk_empty, fun _ h => nomatch h⟩

/-- SC's core, which leaves reset at level K, has the registers of the others. -/
theorem cpuOk_reset : ∀ k ∈ State.reset.cores, CpuOk k := by
  unfold CpuOk
  decide +kernel

/-- Settles O2: the lists are empty, and the arrays have their sizes. -/
theorem resetMeetsInv : Obligations.ResetMeetsInv := by
  unfold Obligations.ResetMeetsInv
  have regs : RegsOk State.reset.regs := ⟨.nil, nofun⟩
  have ecc : EccOk State.reset.ecc := ⟨.nil, nofun⟩
  exact ⟨regs, rfl, ecc, sizesOk_reset, cpuOk_reset⟩

/-! ## A nominal period in which no period of the band clock ends

BPLL's output is its nominal frequency times 1 + trim × 2^-10 × 10^-9 (R371), and the model counts its periods in the nominal ones
that an idle step lets pass. -/

/-- BPLL enabled and locked, a trim of -1 unit written and, at the next ramp tick, applied (R36, R368, R371). -/
def slowBand : State :=
  trimTick (wrBpllTrim (BitVec.ofInt 32 (-1)) (pllLock 3 (State.reset.set CRP_PLL_CTRL_b_en 1)))

theorem inv_slowBand : Inv slowBand :=
  (((Keeps.refl State.reset).set.pllLock.wrBpllTrim).trimTick).1 resetMeetsInv

/-- One part in 2^10 × 10^9 is missing from a period of the slowed clock. -/
theorem bandGain_slowBand : bandGain slowBand < trimUnit := by decide +kernel

theorem bandRuns_slowBand : bandRuns slowBand = true := by decide +kernel

theorem bclk_tick_slowBand : (tick slowBand).bclk = slowBand.bclk := by decide +kernel

/-- The band clock may run, gain less than a period in a nominal one and so not be counted. -/
theorem tick_without_band_period :
    ∃ s, Inv s ∧ s.pending = [] ∧ bandRuns s = true ∧ bandGain s < trimUnit ∧ (tick s).bclk = s.bclk :=
  ⟨slowBand, inv_slowBand, rfl, bandRuns_slowBand, bandGain_slowBand, bclk_tick_slowBand⟩

/-- Refutes O60: with an applied trim below 0 a nominal period passes in which the running band clock ends no period of its own
(R371), so that an idle step does not count it. -/
theorem not_everyCommandAnswers : ¬ Obligations.EveryCommandAnswers := by
  unfold Obligations.EveryCommandAnswers
  rintro ⟨-, idle⟩
  obtain ⟨s, -, hp, hruns, -, hbclk⟩ := tick_without_band_period
  obtain ⟨t, hstep, -, -, hcount, -⟩ := idle s hp
  have ht : t = tick s := by
    rw [step_of_pending_nil hp] at hstep
    injection hstep with ht
    exact ht.symm
  rw [ht, hbclk, if_pos hruns] at hcount
  omega

end Sys2Proof.Machine

namespace Sys2Proof.Machine

/-! ## A block boundary in OFF and the taps that wait for it

The list of taps that wait (Det.tapPend) holds numbers. The write of a tap puts one below 48 there, and the boundary takes each as
the number of a register, whatever it is (R69, R83). -/

/-- A loop whose passes leave their state alone leaves it alone. -/
theorem forN_fixed {n : Nat} {f : Nat → State → State} {s : State} (h : ∀ i < n, f i s = s) : forN n f s = s := by
  unfold forN
  have key : ∀ l : List Nat, (∀ i ∈ l, i < n) → l.foldl (fun s i => f i s) s = s := by
    intro l
    induction l with
    | nil => exact fun _ => rfl
    | cons i l ih =>
      intro hl
      rw [List.foldl_cons, h i (hl i (by simp))]
      exact ih fun j hj => hl j (by simp [hj])
  exact key _ fun i => List.mem_range.1

/-- No unit of lane n has an APPLY that waits for the boundary. -/
def NoApply (n : Nat) (s : State) : Prop := ∀ u < 4, (nth (nth s.det n).lms u).phase ≠ 3

theorem NoApply.lmsOn {n : Nat} {s : State} (h : NoApply n s) (kind i : Nat) : lmsOn n kind i s = [] := by
  refine List.filterMap_eq_nil_iff.2 fun u hu => ?_
  simp [h u (List.mem_range.1 hu)]

theorem NoApply.lmsApply {n : Nat} {s : State} (h : NoApply n s) : lmsApply n s = s := by
  have marks : forN 4 (fun u s => if (nth (nth s.det n).lms u).phase = 3 then s.set (LANE_LMS_STAT_clamped n u) 0 else s) s = s :=
    forN_fixed fun u hu => if_neg (h u hu)
  have taps : forN 48 (applyTap n) s = s := forN_fixed fun k _ => by simp [applyTap, h.lmsOn]
  have levels : forN 64 (applyLevel n) s = s := forN_fixed fun i _ => by simp [applyLevel, h.lmsOn]
  have ends : forN 4 (fun u s => if (nth (nth s.det n).lms u).phase = 3 then lmsEnd n u .done 0 s else s) s = s :=
    forN_fixed fun u hu => if_neg (h u hu)
  simp only [Machine.lmsApply, marks, taps, levels, ends]

theorem swapApply_of_not_pending {n : Nat} {s : State} (h : s.on (LANE_TRL_CTRL_pending n) = false) : swapApply n s = s := by
  simp [swapApply, h]

theorem rd_detCfgApply (n : Nat) (s : State) (a : Nat) : (detCfgApply n s).rd a = s.rd a := rfl

/-- The word at a tap's address after its write has taken effect: its effective value is its coefficient. -/
def tapTaken (n k : Nat) (s : State) : Word := putField (s.rd (LANE_EQ_TAP n k)) 16 12 (s.get (LANE_EQ_TAP_coef n k))

theorem rd_tapsApply_of_pending {n k : Nat} {s : State} (h : (nth s.det n).tapPend = [k]) :
    (tapsApply n s).rd (LANE_EQ_TAP n k) = tapTaken n k s := by
  unfold tapsApply
  rw [h]
  exact rd_wr_self s _ _

/-- A block of a lane in OFF takes the waiting write of "tap" k at LANE_EQ_TAP n k, for every number k. -/
theorem rd_blockBoundary_off {n k : Nat} {codes look : List Int} {s : State} (held : blkHeld n s = false) (off : detState n s = 0)
    (swap : s.on (LANE_TRL_CTRL_pending n) = false) (lms : NoApply n s) (tap : (nth s.det n).tapPend = [k]) :
    (blockBoundary n codes look s).rd (LANE_EQ_TAP n k) = tapTaken n k s :=
  calc (blockBoundary n codes look s).rd (LANE_EQ_TAP n k)
      = (boundaryTaps n s).rd (LANE_EQ_TAP n k) := by
        rw [blockBoundary, if_neg (by simp [held]), if_pos off, rd_detCfgApply]
    _ = (tapsApply n s).rd (LANE_EQ_TAP n k) := by rw [boundaryTaps, swapApply_of_not_pending swap, lms.lmsApply]
    _ = tapTaken n k s := rd_tapsApply_of_pending tap

/-! ## A tap's number that names a thermal threshold -/

/-- The number at which the taps of lane 0, continued, meet threshold 0. -/
def strayTap : Nat := (TH_THR 0 - LANE_EQ_TAP 0 0) / 4

theorem eqTap_strayTap : LANE_EQ_TAP 0 strayTap = TH_THR 0 := by decide

theorem not_radioReg_threshold : ¬RadioReg (TH_THR 0) := by
  simp only [RadioReg, Router, TH_THR]
  omega

/-- The state after reset, but that a write of that "tap" waits on lane 0. -/
def strayed : State := updDet 0 (fun d => { d with tapPend := [strayTap] }) State.reset

theorem inv_strayed : Inv strayed := (Keeps.refl State.reset).updDet.1 resetMeetsInv

theorem noApply_strayed : NoApply 0 strayed := by
  unfold NoApply
  decide +kernel

theorem tapTaken_strayed : tapTaken 0 strayTap strayed ≠ strayed.rd (TH_THR 0) := by decide +kernel

/-- A block of lane 0 changes the threshold. -/
theorem blockBoundary_changes_threshold : (blockBoundary 0 [] [] strayed).rd (TH_THR 0) ≠ strayed.rd (TH_THR 0) := by
  rw [← eqTap_strayTap, rd_blockBoundary_off (by decide +kernel) (by decide +kernel) (by decide +kernel) noApply_strayed rfl,
    eqTap_strayTap]
  exact tapTaken_strayed

/-- A state that meets the invariant, in which a radio command reaches a register that is none of RadioReg. -/
theorem radio_command_reaches_threshold :
    ∃ s t, Inv s ∧ isRadio (.blockBoundary 0 [] []) = true ∧ exec (.blockBoundary 0 [] []) s = .next t ∧
      ¬RadioReg (TH_THR 0) ∧ t.rd (TH_THR 0) ≠ s.rd (TH_THR 0) :=
  ⟨strayed, _, inv_strayed, rfl, rfl, not_radioReg_threshold, blockBoundary_changes_threshold⟩

/-- Refutes O55: the statement ranges over every state, and in one (which meets Inv) the number of a tap that waits for its boundary is
so large that the tap's address is a thermal threshold's, which BLOCK_BOUNDARY then writes. The writes of a tap queue numbers below 48
alone, which the statement does not ask of the state. -/
theorem not_radioReach : ¬ Obligations.RadioReach := by
  unfold Obligations.RadioReach
  intro reach
  obtain ⟨s, t, -, radio, step, outside, changed⟩ := radio_command_reaches_threshold
  exact changed ((reach _ s t radio step).2 _ outside)

end Sys2Proof.Machine

namespace Sys2Proof.Machine

/-! ## A write that reaches its register

An access changes the router's registers alone, which lie above those of the line lanes and of the control complex. -/

theorem rd_request_low {q : Rq} {b a : Nat} {s : State} (h : a < 0x40300000) : (request q b s).rd a = s.rd a :=
  rd_request q b s fun r => by rcases r with r | r <;> omega

theorem get_request_low {q : Rq} {b : Nat} {s : State} {f : Fd} (h : f.a < 0x40300000) : (request q b s).get f = s.get f := by
  simp only [State.get, rd_request_low h]

theorem on_request_low {q : Rq} {b : Nat} {s : State} {f : Fd} (h : f.a < 0x40300000) : (request q b s).on f = s.on f := by
  simp only [State.on, get_request_low h]

theorem chg_request_low {q : Rq} {b : Nat} {w : Word} {s : State} {f : Fd} (h : f.a < 0x40300000) :
    (request q b s).chg w f = s.chg w f := by
  simp only [State.chg, get_request_low h]

/-- A completion that neither the fenced nor the refused ones count (R332). -/
theorem completed_uncounted {q : Rq} {a : Nat} {b : Bool} {c : Code} {s : State} (hf : c ≠ .fenced) (hr : ¬(3 ≤ c.n ∧ c.n ≤ 7)) :
    completed q a b c s = s := by
  simp only [completed, if_neg hf, hr, and_false, if_false]

/-- A write whose effect ends with c, where the counters hear of c. -/
theorem gated_counted {q : Rq} {a : Nat} {fs : List (Nat × Nat × Acc)} {w : Word} {hook : State → State} {s t : State} {c : Code}
    (sent : Sent q a fs w s) (effect : hook (request q a s) = t) (code : t.reply.code = c) :
    gated q a fs w hook s = completed q a true c t := by
  rw [gated_go sent, effect, code]

/-- A write whose effect ends with a code that no counter hears of. -/
theorem gated_uncounted {q : Rq} {a : Nat} {fs : List (Nat × Nat × Acc)} {w : Word} {hook : State → State} {s t : State}
    (sent : Sent q a fs w s) (effect : hook (request q a s) = t)
    (code : t.reply.code = .done ∨ t.reply.code = .held ∨ t.reply.code = .queued ∨ t.reply.code = .range) :
    gated q a fs w hook s = t := by
  rw [gated_counted sent effect rfl]
  rcases code with c | c | c | c <;> rw [c] <;> exact completed_uncounted (by decide) (by decide)

/-- A change of an element that leaves it as it is leaves the list as it is. -/
theorem upd_fixed {α : Type} [Inhabited α] {l : List α} {i : Nat} {f : α → α} (h : f (nth l i) = nth l i) : upd l i f = l := by
  induction l generalizing i with
  | nil => rfl
  | cons x t ih =>
    cases i with
    | zero => exact congrArg (· :: t) h
    | succ i => exact congrArg (x :: ·) (ih h)

/-- Two changes of one element are one. -/
theorem upd_upd {α : Type} (l : List α) (i : Nat) (f g : α → α) : upd (upd l i f) i g = upd l i fun x => g (f x) := by
  induction l generalizing i with
  | nil => rfl
  | cons x t ih =>
    cases i with
    | zero => rfl
    | succ i => exact congrArg (x :: ·) (ih i)

/-! ## Where the registers of a lane lie -/

section
variable (n : Fin 8)

theorem laneAdcCtrl_low : LANE_ADC_CTRL n < 0x40300000 := by simp only [LANE_ADC_CTRL]; omega
theorem laneAdcStatus_low : LANE_ADC_STATUS n < 0x40300000 := by simp only [LANE_ADC_STATUS]; omega
theorem laneDetStatus_low : LANE_DET_STATUS n < 0x40300000 := by simp only [LANE_DET_STATUS]; omega
theorem laneTxCtrl_low : LANE_TX_CTRL n < 0x40300000 := by simp only [LANE_TX_CTRL]; omega
theorem laneTxStatus_low : LANE_TX_STATUS n < 0x40300000 := by simp only [LANE_TX_STATUS]; omega
theorem laneSliceCur_low (k : Fin 128) : LANE_SLICE_CUR n k < 0x40300000 := by simp only [LANE_SLICE_CUR]; omega
theorem laneSliceCskew_low (k : Fin 128) : LANE_SLICE_CSKEW n k < 0x40300000 := by simp only [LANE_SLICE_CSKEW]; omega
theorem laneTxFir_low {k : Nat} (h : k < 8) : LANE_TX_FIR n k < 0x40300000 := by simp only [LANE_TX_FIR]; omega

end

/-! ## Receive enable (R32, R47, R49) -/

/-- A stored write of LANE_ADC_CTRL leaves rx_en at the written bit. -/
theorem on_rxEn_store (n : Nat) (w : Word) (s : State) :
    (s.store (LANE_ADC_CTRL n) LANE_ADC_CTRL_fs w).on (LANE_ADC_CTRL_rx_en n) = decide (wf w (LANE_ADC_CTRL_rx_en n) = 1) := by
  have enable : fieldOf (mergeWord LANE_ADC_CTRL_fs (s.rd (LANE_ADC_CTRL n)) w false) 0 1 = fieldOf w 0 1 := by
    simp only [LANE_ADC_CTRL_fs, mergeWord, List.foldl_cons, List.foldl_nil]
    rw [fieldOf_putField_ne _ 8 2 _ 0 1 (by decide) (by decide), fieldOf_putField_ne _ 4 2 _ 0 1 (by decide) (by decide),
      fieldOf_putField_ne _ 1 1 _ 0 1 (by decide) (by decide), fieldOf_putField _ 0 1 _ (by decide)]
    exact Nat.mod_mod _ _
  rw [State.on, store_get (a := LANE_ADC_CTRL n) (g := LANE_ADC_CTRL_rx_en n) s rfl]
  exact congrArg (fun v => decide (v = 1)) enable

section
variable (n : Nat) (w : Word) (v : Nat)

theorem wf_rxEn_force : wf (force w (LANE_ADC_CTRL_rx_en n) v) (LANE_ADC_CTRL_rx_en n) = v % 2 :=
  fieldOf_putField w 0 1 v (by decide)

theorem wf_ctlePeak_force : wf (force w (LANE_ADC_CTRL_rx_en n) v) (LANE_ADC_CTRL_ctle_peak n) = wf w (LANE_ADC_CTRL_ctle_peak n) :=
  fieldOf_putField_ne w 0 1 v 4 2 (by decide) (by decide)

theorem wf_slotLen_force : wf (force w (LANE_ADC_CTRL_rx_en n) v) (LANE_ADC_CTRL_slot_len n) = wf w (LANE_ADC_CTRL_slot_len n) :=
  fieldOf_putField_ne w 0 1 v 8 2 (by decide) (by decide)

end

/-- What a write that forces rx_en asks of slot_len, in the state that has accepted it. -/
theorem chg_slotLen_request (q : Rq) (n : Fin 8) (w : Word) (v : Nat) (s : State) :
    (request q (LANE_ADC_CTRL n) s).chg (force w (LANE_ADC_CTRL_rx_en n) v) (LANE_ADC_CTRL_slot_len n) =
      s.chg w (LANE_ADC_CTRL_slot_len n) := by
  rw [chg_request_low (laneAdcCtrl_low n)]
  simp only [State.chg, wf_slotLen_force]

theorem chg_ctlePeak_request (q : Rq) (n : Fin 8) (w : Word) (v : Nat) (s : State) :
    (request q (LANE_ADC_CTRL n) s).chg (force w (LANE_ADC_CTRL_rx_en n) v) (LANE_ADC_CTRL_ctle_peak n) =
      s.chg w (LANE_ADC_CTRL_ctle_peak n) := by
  rw [chg_request_low (laneAdcCtrl_low n)]
  simp only [State.chg, wf_ctlePeak_force]

theorem locked_request (q : Rq) (a : Nat) (n : Fin 8) (s : State) : locked n (request q a s) = locked n s :=
  on_request_low (laneDetStatus_low n)

theorem wrAdcCtrl_range {n : Nat} {w : Word} {s : State} (hc : s.chg w (LANE_ADC_CTRL_slot_len n) = true)
    (hw : wf w (LANE_ADC_CTRL_slot_len n) = 3) : wrAdcCtrl n w s = s.ret .range := by
  simp [wrAdcCtrl, hc, hw]

/-- A write of LANE_ADC_CTRL that asks for no refused change: what it does by rx_en before and after. -/
theorem wrAdcCtrl_stored {n : Nat} {w : Word} {s : State}
    (len : wf w (LANE_ADC_CTRL_slot_len n) ≠ 3 ∨ s.chg w (LANE_ADC_CTRL_slot_len n) = false)
    (peak : s.chg w (LANE_ADC_CTRL_ctle_peak n) = false ∨ locked n s = false) :
    wrAdcCtrl n w s =
      (let t := s.store (LANE_ADC_CTRL n) LANE_ADC_CTRL_fs w
       if s.on (LANE_ADC_CTRL_rx_en n) = false ∧ wf w (LANE_ADC_CTRL_rx_en n) = 1 then rxOn n t
       else if s.on (LANE_ADC_CTRL_rx_en n) = true ∧ wf w (LANE_ADC_CTRL_rx_en n) ≠ 1 then rxOff n t else t).ret .done := by
  have len' : (s.chg w (LANE_ADC_CTRL_slot_len n) && decide (wf w (LANE_ADC_CTRL_slot_len n) = 3)) = false := by
    rcases len with h | h <;> simp [h]
  have peak' : (s.chg w (LANE_ADC_CTRL_ctle_peak n) && locked n s) = false := by
    rcases peak with h | h <;> simp [h]
  simp only [wrAdcCtrl, len', peak', Bool.false_eq_true, if_false, on_rxEn_store]
  by_cases was : s.on (LANE_ADC_CTRL_rx_en n) = true <;> by_cases is : wf w (LANE_ADC_CTRL_rx_en n) = 1 <;> simp [was, is]


/-- A write of LANE_ADC_CTRL with rx_en at v that asks for no refused change, in the state that has accepted it. -/
theorem wrAdcCtrl_request {q : Rq} {n : Fin 8} {w : Word} {v : Nat} {s : State}
    (len : wf w (LANE_ADC_CTRL_slot_len n) ≠ 3 ∨ s.chg w (LANE_ADC_CTRL_slot_len n) = false)
    (peak : s.chg w (LANE_ADC_CTRL_ctle_peak n) = false ∨ locked n s = false) :
    wrAdcCtrl n (force w (LANE_ADC_CTRL_rx_en n) v) (request q (LANE_ADC_CTRL n) s) =
      (let t := wrote q (LANE_ADC_CTRL n) LANE_ADC_CTRL_fs (force w (LANE_ADC_CTRL_rx_en n) v) s
       if s.on (LANE_ADC_CTRL_rx_en n) = false ∧ v % 2 = 1 then rxOn n t
       else if s.on (LANE_ADC_CTRL_rx_en n) = true ∧ v % 2 ≠ 1 then rxOff n t else t).ret .done := by
  have was : (request q (LANE_ADC_CTRL n) s).on (LANE_ADC_CTRL_rx_en n) = s.on (LANE_ADC_CTRL_rx_en n) :=
    on_request_low (laneAdcCtrl_low n)
  rw [wrAdcCtrl_stored, wf_rxEn_force, was]
  · rwa [chg_slotLen_request, wf_slotLen_force]
  · rwa [chg_ctlePeak_request, locked_request]

/-! ## The slot and its phases (R42 to R45, R48) -/

theorem rotationResume_starts {n : Nat} {s : State} (rot : rotOk n s = true) (slot : (nth s.conv n).slotOn = false)
    (pause : (nth s.conv n).paused = false) (cool : s.on TH_STAT_throttle = false)
    (spare : s.on (LANE_ADC_STATUS_no_spare n) = false) (live : rampLive s = true) :
    rotationResume n s =
      (((updConv n (fun c => { c with slotOn := true, slotLen := s.get (LANE_ADC_CTRL_slot_len n) }) s).set
        (LANE_ADC_STATUS_rot_run n) 1).set (LANE_ADC_STATUS_phase n) 0).set (LANE_ADC_STATUS_deferred n) 0 := by
  simp [rotationResume, rot, slot, pause, cool, spare, live]

theorem sparePhaseEnd_offset {n : Nat} {est : Int} {stuck : Bool} {s : State} (live : rampLive s = true)
    (slot : (nth s.conv n).slotOn = true) (phase : s.get (LANE_ADC_STATUS_phase n) = 0) :
    sparePhaseEnd n est stuck s =
      (let t := updConv n (fun c => { c with est := upd c.est (s.get (LANE_ADC_STATUS_spare n)) fun e => { e with ofs := est } }) s
       if jumpOfs est (nth (nth s.conv n).est (s.get (LANE_ADC_STATUS_spare n))).ofs then sliceFail n t
       else t.set (LANE_ADC_STATUS_phase n) 1) := by
  simp [sparePhaseEnd, live, slot, phase]

theorem sparePhaseEnd_gain {n : Nat} {est : Int} {stuck : Bool} {s : State} (live : rampLive s = true)
    (slot : (nth s.conv n).slotOn = true) (phase : s.get (LANE_ADC_STATUS_phase n) = 1) :
    sparePhaseEnd n est stuck s =
      (let t := updConv n (fun c => { c with est := upd c.est (s.get (LANE_ADC_STATUS_spare n)) fun e => { e with gain := est } }) s
       if jumpGain est (nth (nth s.conv n).est (s.get (LANE_ADC_STATUS_spare n))).gain || stuck then sliceFail n t
       else t.set (LANE_ADC_STATUS_phase n) 2) := by
  simp [sparePhaseEnd, live, slot, phase]

/-- A lane with a slot in progress is one of the converters' list. -/
theorem lt_of_slotOn {n : Nat} {s : State} (h : (nth s.conv n).slotOn = true) : n < s.conv.length := by
  by_contra out
  rw [nth, List.getD_eq_default _ _ (Nat.le_of_not_lt out)] at h
  exact absurd h (by decide)

theorem conv_writeEst (n k : Nat) (f : Fd) (x : Int) (s : State) : (writeEst n k f x s).conv = s.conv := by
  simp only [writeEst]
  split
  · rfl
  · exact raise_conv _ _

theorem conv_writeTargets (n k : Nat) (e : SliceEst) (s : State) : (writeTargets n k e s).conv = s.conv := by
  simp only [writeTargets, conv_writeEst]

/-- With no RECAL queued the start of SHADOW has none to advance. -/
theorem updConv_noRecal {n : Nat} {g : Recal → Recal} {s : State} (h : (nth s.conv n).recal = none) :
    updConv n (fun c => { c with recal := c.recal.map g }) s = s := by
  have same : upd s.conv n (fun c => { c with recal := c.recal.map g }) = s.conv := by
    refine upd_fixed ?_
    rw [h, Option.map_none, ← h]
  simp only [updConv, same]

/-- The state in which the SKEW phase has left its estimate. -/
abbrev skewPut (n : Nat) (est : Int) (s : State) : State :=
  updConv n (fun c => { c with est := upd c.est (s.get (LANE_ADC_STATUS_spare n)) fun e => { e with skew := est } }) s

/-- The lane's own state after its SKEW phase. -/
theorem nth_conv_skewPut {n : Nat} {est : Int} {s : State} (slot : (nth s.conv n).slotOn = true) :
    nth (skewPut n est s).conv n = { nth s.conv n with
      est := upd (nth s.conv n).est (s.get (LANE_ADC_STATUS_spare n)) fun e => { e with skew := est } } := by
  simp only [skewPut, updConv, nth_upd, lt_of_slotOn slot, and_self, if_true]

/-- SKEW ends with an estimate inside the failure test: the spare's targets unless pinned, and SHADOW. -/
theorem skewPhaseEnd_shadow {n : Nat} {est : Int} {s : State} (live : rampLive s = true) (slot : (nth s.conv n).slotOn = true)
    (recal : (nth s.conv n).recal = none) (phase : s.get (LANE_ADC_STATUS_phase n) = 2)
    (jump : jumpSkew est (nth (nth s.conv n).est (s.get (LANE_ADC_STATUS_spare n))).skew = false) :
    skewPhaseEnd n est s =
      (let k := s.get (LANE_ADC_STATUS_spare n)
       ((if s.on (LANE_SLICE_TGT_pin n k) then skewPut n est s
         else writeTargets n k (nth (upd (nth s.conv n).est k fun e => { e with skew := est }) k) (skewPut n est s)).set
         (LANE_ADC_STATUS_phase n) 3).set (LANE_SLICE_CSKEW_state n k) 3) := by
  have own := nth_conv_skewPut (est := est) slot
  have pin : (skewPut n est s).on (LANE_SLICE_TGT_pin n (s.get (LANE_ADC_STATUS_spare n))) =
      s.on (LANE_SLICE_TGT_pin n (s.get (LANE_ADC_STATUS_spare n))) := rfl
  simp only [skewPhaseEnd, live, slot, phase, jump, Bool.and_self, decide_true, if_true, Bool.false_eq_true, if_false, pin]
  rw [updConv_noRecal, own]
  split
  · simp only [set_conv, own, recal]
  · simp only [set_conv, conv_writeTargets, own, recal]

theorem slotHandover_running {n : Nat} {cont : SliceEst} {s : State} (live : rampLive s = true)
    (slot : (nth s.conv n).slotOn = true) (phase : s.get (LANE_ADC_STATUS_phase n) = 3) :
    slotHandover n cont s = slotNext n (recalSlotEnd n (countSlot n (exchange n cont s))) := by
  simp [slotHandover, live, slot, phase]

/-! ## Calibration commands (R54, R55) -/

theorem calBusy_request (q : Rq) (a n : Nat) (s : State) : calBusy n (request q a s) = calBusy n s := by
  simp only [calBusy, request_conv]

theorem calHold_busy {n k : Nat} {s : State} (h : calBusy n s = true) : calHold n k s = calNow n 1 k .state s := by
  simp only [calHold, h, if_true]

theorem calHold_free {n k : Nat} {s : State} (h : calBusy n s = false) :
    calHold n k s = if (nth s.conv n).slotOn then
        (calBegin n 1 k .held (updConv n (fun c => { c with holdPend := true, holdK := k }) s)).ret .held
      else calNow n 1 k .done (updConv n (fun c => { c with paused := true }) s) := by
  simp only [calHold, h, Bool.false_eq_true, if_false]

theorem calResume_free {n k : Nat} {s : State} (h : calBusy n s = false) (done : s.on (LANE_ADC_STATUS_fg_done n) = true) :
    calResume n k s = calNow n 2 k .done (updConv n (fun c => { c with paused := false }) s) := by
  simp only [calResume, h, done, Bool.false_eq_true, if_false, if_true]

theorem calRecal_free {n k : Nat} {s : State} (h : calBusy n s = false) (slice : k < 65)
    (sound : s.get (LANE_SLICE_CSKEW_state n k) ≠ 2) :
    calRecal n k s = (calBegin n 3 k .queued
      (updConv n (fun c => { c with recal := some ⟨k, if s.get (LANE_ADC_STATUS_spare n) = k then 2 else 0⟩ }) s)).ret .queued := by
  simp only [calRecal, h, Bool.false_eq_true, if_false, if_neg (Nat.not_lt.2 (Nat.le_of_lt_succ slice)), if_neg sound]

/-- RELEASE reads the current values, which lie beside the targets that it writes. -/
theorem calRelease_free {n k : Nat} {s : State} (h : calBusy n s = false) (slice : k < 65) :
    calRelease n k s = calNow n 4 k .done (((s.set (LANE_SLICE_TGT_ofs n k) (s.get (LANE_SLICE_CUR_ofs n k))).set
      (LANE_SLICE_TGT_gain n k) (s.get (LANE_SLICE_CUR_gain n k))).set (LANE_SLICE_TSKEW_skew n k)
      (s.get (LANE_SLICE_CSKEW_skew n k))) := by
  have cur : LANE_SLICE_TGT n k ≠ LANE_SLICE_CUR n k := by simp only [LANE_SLICE_TGT, LANE_SLICE_CUR]; omega
  have skew : LANE_SLICE_TGT n k ≠ LANE_SLICE_CSKEW n k := by simp only [LANE_SLICE_TGT, LANE_SLICE_CSKEW]; omega
  simp only [calRelease, h, Bool.false_eq_true, if_false, if_neg (Nat.not_lt.2 (Nat.le_of_lt_succ slice))]
  rw [set_get_ne (g := LANE_SLICE_CUR_gain n k) _ cur, set_get_ne (g := LANE_SLICE_CSKEW_skew n k) _ skew,
    set_get_ne (g := LANE_SLICE_CSKEW_skew n k) _ skew]


/-- Settles O5: a write that reaches its register has its effect in the state that has accepted it, which reads in the lane as before;
what each effect and each phase end is, the lemma of its function says. -/
theorem converterCalibration : Obligations.ConverterCalibration := by
  unfold Obligations.ConverterCalibration
  refine ⟨?_, ?_, ?_, ?_, ?_, ?_, ?_, ?_, ?_, ?_, ?_, ?_, ?_, ?_, ?_⟩
  · intro q n w s sent off len peak
    refine congrArg Host.Outcome.next (gated_uncounted sent ?_ (.inl rfl))
    rw [wrAdcCtrl_request len peak, off]
    rfl
  · intro q n w s sent len chg
    refine congrArg Host.Outcome.next (gated_uncounted sent (wrAdcCtrl_range ?_ ?_) (.inr (.inr (.inr rfl))))
    · rwa [chg_slotLen_request]
    · rwa [wf_slotLen_force]
  · intro q n w s sent on len peak
    refine congrArg Host.Outcome.next (gated_uncounted sent ?_ (.inl rfl))
    rw [wrAdcCtrl_request len peak, on]
    rfl
  · intro n s rot slot pause cool spare live
    exact congrArg Host.Outcome.next (rotationResume_starts rot slot pause cool spare live)
  · intro n est stuck s slot phase jump live
    refine congrArg Host.Outcome.next ((sparePhaseEnd_offset live slot phase).trans ?_)
    rw [jump]
    rfl
  · intro n est s slot phase jump live
    refine congrArg Host.Outcome.next ((sparePhaseEnd_gain live slot phase).trans ?_)
    rw [jump]
    rfl
  · rintro n est stuck s slot phase rfl live
    refine congrArg Host.Outcome.next ((sparePhaseEnd_gain live slot phase).trans ?_)
    rw [Bool.or_true]
    rfl
  · intro n est s slot recal phase jump pin live
    refine congrArg Host.Outcome.next ((skewPhaseEnd_shadow live slot recal phase jump).trans ?_)
    simp only [pin, if_true]
  · intro n est s slot recal phase jump pin live
    refine congrArg Host.Outcome.next ((skewPhaseEnd_shadow live slot recal phase jump).trans ?_)
    simp only [pin, Bool.false_eq_true, if_false]
  · intro n cont s slot phase live
    exact congrArg Host.Outcome.next (slotHandover_running live slot phase)
  · intro q n k s sent busy
    have free := calHold_free (k := k) ((calBusy_request q (LANE_CAL_CMD n) n s).trans busy)
    rw [request_conv] at free
    refine congrArg Host.Outcome.next (gated_uncounted sent free ?_)
    split
    · exact .inr (.inl rfl)
    · exact .inl rfl
  · intro q n k s sent busy done
    refine congrArg Host.Outcome.next (gated_uncounted sent (calResume_free ((calBusy_request ..).trans busy) ?_) (.inl rfl))
    rwa [on_request_low (f := LANE_ADC_STATUS_fg_done n) (laneAdcStatus_low n)]
  · intro q n k s sent busy slice sound
    have state := get_request_low (q := q) (b := LANE_CAL_CMD n) (s := s) (f := LANE_SLICE_CSKEW_state n k) (laneSliceCskew_low n k)
    have spare := get_request_low (q := q) (b := LANE_CAL_CMD n) (s := s) (f := LANE_ADC_STATUS_spare n) (laneAdcStatus_low n)
    have free := calRecal_free ((calBusy_request q (LANE_CAL_CMD n) n s).trans busy) slice (state.trans_ne sound)
    rw [spare] at free
    exact congrArg Host.Outcome.next (gated_uncounted sent free (.inr (.inr (.inl rfl))))
  · intro q n k s sent busy slice
    have free := calRelease_free ((calBusy_request q (LANE_CAL_CMD n) n s).trans busy) slice
    rw [get_request_low (f := LANE_SLICE_CUR_ofs n k) (laneSliceCur_low n k),
      get_request_low (f := LANE_SLICE_CUR_gain n k) (laneSliceCur_low n k),
      get_request_low (f := LANE_SLICE_CSKEW_skew n k) (laneSliceCskew_low n k)] at free
    exact congrArg Host.Outcome.next (gated_uncounted sent free (.inl rfl))
  · intro q n k s sent busy
    exact congrArg Host.Outcome.next (gated_counted sent (calHold_busy ((calBusy_request ..).trans busy)) rfl)

end Sys2Proof.Machine

namespace Sys2Proof.Machine

/-! ## Transmit swing (R62, R65) -/

theorem wrTxCtrl_range {n : Nat} {w : Word} {s : State} (chg : s.chg w (LANE_TX_CTRL_swing n) = true)
    (above : 240 < wf w (LANE_TX_CTRL_swing n)) :
    wrTxCtrl n w s = (s.set (LANE_TX_STATUS_outcome n) Code.range.n).ret .range := by
  simp [wrTxCtrl, chg, above]

theorem wrTxCtrl_guard {n : Nat} {w : Word} {s : State} (chg : s.chg w (LANE_TX_CTRL_swing n) = true)
    (within : wf w (LANE_TX_CTRL_swing n) ≤ 240) (above : s.get GRD_SWING_work < wf w (LANE_TX_CTRL_swing n)) :
    wrTxCtrl n w s = (s.set (LANE_TX_STATUS_outcome n) Code.guard.n).ret .guard := by
  simp [wrTxCtrl, chg, Nat.not_lt.2 within, above]

theorem wrTxCtrl_swing {n : Nat} {w : Word} {s : State} (chg : s.chg w (LANE_TX_CTRL_swing n) = true)
    (within : wf w (LANE_TX_CTRL_swing n) ≤ 240) (allowed : wf w (LANE_TX_CTRL_swing n) ≤ s.get GRD_SWING_work)
    (main : s.chg w (LANE_TX_CTRL_main_pos n) = false ∨ s.on (LANE_TX_STATUS_pending n) = false) :
    wrTxCtrl n w s =
      (((s.store (LANE_TX_CTRL n) LANE_TX_CTRL_fs w).set (LANE_TX_STATUS_outcome n) 0).set (LANE_TX_STATUS_clamped n) 0).ret
        .done := by
  have main' : (s.chg w (LANE_TX_CTRL_main_pos n) && s.on (LANE_TX_STATUS_pending n)) = false := by
    rcases main with h | h <;> simp [h]
  simp [wrTxCtrl, chg, Nat.not_lt.2 within, Nat.not_lt.2 allowed, main']

section
variable (q : Rq) (a : Nat) (n : Fin 8) (w : Word) (s : State)

theorem chg_swing_request : (request q a s).chg w (LANE_TX_CTRL_swing n) = s.chg w (LANE_TX_CTRL_swing n) :=
  chg_request_low (laneTxCtrl_low n)

theorem chg_mainPos_request : (request q a s).chg w (LANE_TX_CTRL_main_pos n) = s.chg w (LANE_TX_CTRL_main_pos n) :=
  chg_request_low (laneTxCtrl_low n)

theorem on_txPending_request : (request q a s).on (LANE_TX_STATUS_pending n) = s.on (LANE_TX_STATUS_pending n) :=
  on_request_low (laneTxStatus_low n)

theorem get_swingWork_request : (request q a s).get GRD_SWING_work = s.get GRD_SWING_work :=
  get_request_low (by decide)

/-- The shadow coefficients are registers of the lane. -/
theorem firAbsSum_request : firAbsSum n (request q a s) = firAbsSum n s := by
  unfold firAbsSum
  refine congrArg List.sum (List.map_congr_left fun k hk => ?_)
  rw [State.geti, State.geti, get_request_low (f := LANE_TX_FIR_shadow n k) (laneTxFir_low n (List.mem_range.1 hk))]

end

/-! ## The transmit commits (R63, R65) -/

section
variable {n : Nat} {w : Word} {s : State}

theorem wrTxCommit_pending (asked : wf w (LANE_TX_COMMIT_fir n) = 1 ∨ wf w (LANE_TX_COMMIT_pd_swap n) = 1)
    (pending : s.on (LANE_TX_STATUS_pending n) = true) :
    wrTxCommit n w s = (s.set (LANE_TX_STATUS_outcome n) Code.state.n).ret .state := by
  simp only [wrTxCommit, ← not_or, asked, not_true, pending, if_false, if_true]

theorem wrTxCommit_range (fir : wf w (LANE_TX_COMMIT_fir n) = 1) (pending : s.on (LANE_TX_STATUS_pending n) = false)
    (above : 340 < firAbsSum n s) : wrTxCommit n w s = (s.set (LANE_TX_STATUS_outcome n) Code.range.n).ret .range := by
  simp [wrTxCommit, fir, pending, above]

theorem wrTxCommit_held (asked : wf w (LANE_TX_COMMIT_fir n) = 1 ∨ wf w (LANE_TX_COMMIT_pd_swap n) = 1)
    (pending : s.on (LANE_TX_STATUS_pending n) = false) (within : wf w (LANE_TX_COMMIT_fir n) = 1 → firAbsSum n s ≤ 340) :
    wrTxCommit n w s =
      (((updConv n (fun c => { c with firPend := decide (wf w (LANE_TX_COMMIT_fir n) = 1),
                                      swapPend := decide (wf w (LANE_TX_COMMIT_pd_swap n) = 1) }) s).set
        (LANE_TX_STATUS_pending n) 1).set (LANE_TX_STATUS_outcome n) Code.held.n).ret .held := by
  have within' : ¬(wf w (LANE_TX_COMMIT_fir n) = 1 ∧ 340 < firAbsSum n s) := fun h => Nat.not_lt.2 (within h.1) h.2
  simp only [wrTxCommit, ← not_or, asked, not_true, pending, Bool.false_eq_true, if_false, gt_iff_lt, if_neg within']

end

section
variable (n : Nat) (w : Word)

theorem wf_fir_forceFir : wf (force w (LANE_TX_COMMIT_fir n) 1) (LANE_TX_COMMIT_fir n) = 1 :=
  fieldOf_putField w 0 1 1 (by decide)

theorem wf_pdSwap_forceFir : wf (force w (LANE_TX_COMMIT_fir n) 1) (LANE_TX_COMMIT_pd_swap n) = wf w (LANE_TX_COMMIT_pd_swap n) :=
  fieldOf_putField_ne w 0 1 1 1 1 (by decide) (by decide)

theorem wf_pdSwap_forcePdSwap : wf (force w (LANE_TX_COMMIT_pd_swap n) 1) (LANE_TX_COMMIT_pd_swap n) = 1 :=
  fieldOf_putField w 1 1 1 (by decide)

theorem wf_fir_forcePdSwap : wf (force w (LANE_TX_COMMIT_pd_swap n) 1) (LANE_TX_COMMIT_fir n) = wf w (LANE_TX_COMMIT_fir n) :=
  fieldOf_putField_ne w 1 1 1 0 1 (by decide) (by decide)

end

theorem txCommitApply_stopped {n : Nat} {s : State} (stopped : txRuns s = false) : txCommitApply n s = s := by
  simp [txCommitApply, stopped]

/-- The boundary of a FIR commit: the two changes of the lane's own state, of its main position and of what waits, are one. -/
theorem txCommitApply_fir {n : Nat} {s : State} (runs : txRuns s = true) (pending : s.on (LANE_TX_STATUS_pending n) = true)
    (fir : (nth s.conv n).firPend = true) (swap : (nth s.conv n).swapPend = false) :
    txCommitApply n s =
      ((updConv n (fun c => { c with mainPos := s.get (LANE_TX_CTRL_main_pos n), firPend := false, swapPend := false })
        (forN 8 (fun k t => t.set (LANE_TX_FIR_active n k) (t.get (LANE_TX_FIR_shadow n k))) s)).set
        (LANE_TX_STATUS_pending n) 0).set (LANE_TX_STATUS_outcome n) 0 := by
  simp only [txCommitApply, runs, pending, fir, swap, Bool.and_self, Bool.false_eq_true, if_true, if_false, updConv, upd_upd]

theorem txCommitApply_swap {n : Nat} {s : State} (runs : txRuns s = true) (pending : s.on (LANE_TX_STATUS_pending n) = true)
    (fir : (nth s.conv n).firPend = false) (swap : (nth s.conv n).swapPend = true) :
    txCommitApply n s =
      (((updConv n (fun c => { c with firPend := false, swapPend := false }) s).set (LANE_TX_STATUS_pd_bank n)
        (1 - s.get (LANE_TX_STATUS_pd_bank n))).set (LANE_TX_STATUS_pending n) 0).set (LANE_TX_STATUS_outcome n) 0 := by
  simp only [txCommitApply, runs, pending, fir, swap, Bool.and_self, Bool.false_eq_true, if_true, if_false]
  rfl

/-- Settles O6: the swing and the commits are judged in the state that has accepted the write, which reads in the lane and at the
working ceiling as before; the boundary applies what the pending commit names. -/
theorem transmitConverter : Obligations.TransmitConverter := by
  unfold Obligations.TransmitConverter
  refine ⟨?_, ?_, ?_, ?_, ?_, ?_, ?_, ?_, ?_, ?_, ?_⟩
  · intro q n w s sent chg above
    refine congrArg Host.Outcome.next (gated_uncounted sent (wrTxCtrl_range ?_ above) (.inr (.inr (.inr rfl))))
    rwa [chg_swing_request]
  · intro q n w s sent chg within above
    refine congrArg Host.Outcome.next (gated_counted sent (wrTxCtrl_guard ?_ within ?_) rfl)
    · rwa [chg_swing_request]
    · rwa [get_swingWork_request]
  · intro q n w s sent chg within allowed main
    refine congrArg Host.Outcome.next (gated_uncounted sent (wrTxCtrl_swing ?_ within ?_ ?_) (.inl rfl))
    · rwa [chg_swing_request]
    · rwa [get_swingWork_request]
    · rwa [chg_mainPos_request, on_txPending_request]
  · intro q n w s sent pending within
    have held := wrTxCommit_held (.inl (wf_fir_forceFir n w)) ((on_txPending_request q (LANE_TX_COMMIT n) n s).trans pending)
      fun _ => (firAbsSum_request q (LANE_TX_COMMIT n) n s).trans_le within
    simp only [wf_fir_forceFir, wf_pdSwap_forceFir, decide_true] at held
    exact congrArg Host.Outcome.next (gated_uncounted sent held (.inr (.inl rfl)))
  · intro q n w s sent pending above
    refine congrArg Host.Outcome.next
      (gated_uncounted sent (wrTxCommit_range (wf_fir_forceFir n w) ?_ ?_) (.inr (.inr (.inr rfl))))
    · rwa [on_txPending_request]
    · rwa [firAbsSum_request]
  · intro q n w s sent pending within
    have held := wrTxCommit_held (.inr (wf_pdSwap_forcePdSwap n w)) ((on_txPending_request q (LANE_TX_COMMIT n) n s).trans pending)
      (by rwa [wf_fir_forcePdSwap, firAbsSum_request])
    simp only [wf_fir_forcePdSwap, wf_pdSwap_forcePdSwap, decide_true] at held
    exact congrArg Host.Outcome.next (gated_uncounted sent held (.inr (.inl rfl)))
  · intro q n w s sent pending
    refine congrArg Host.Outcome.next (gated_counted sent (wrTxCommit_pending (.inr (wf_pdSwap_forcePdSwap n w)) ?_) rfl)
    rwa [on_txPending_request]
  · intro q n w s sent pending
    refine congrArg Host.Outcome.next (gated_counted sent (wrTxCommit_pending (.inl (wf_fir_forceFir n w)) ?_) rfl)
    rwa [on_txPending_request]
  · intro n s runs pending fir swap
    exact congrArg Host.Outcome.next (txCommitApply_fir runs pending fir swap)
  · intro n s stopped
    exact congrArg Host.Outcome.next (txCommitApply_stopped stopped)
  · intro n s runs pending fir swap
    exact congrArg Host.Outcome.next (txCommitApply_swap runs pending fir swap)

end Sys2Proof.Machine

namespace Sys2Proof.Machine

/-! ## Which registers an access lists

A use of BPLL is a port that is listed and enabled (R369), so that it is the list that counts here and not only what a register reads
as. An access leaves the listed registers below the router's as they are. -/

/-- The listed registers below the router's. -/
def State.lowRegs (s : State) : List (Nat × Word) := s.regs.filter fun e => decide (e.1 < 0x40300000)

theorem filter_regErase {p : Nat × Word → Bool} {a : Nat} (h : ∀ v, p (a, v) = false) (l : List (Nat × Word)) :
    (regErase l a).filter p = l.filter p := by
  induction l with
  | nil => rfl
  | cons x t ih =>
    obtain ⟨b, v⟩ := x
    simp only [regErase]
    split
    · next e => subst e; rw [ih, List.filter_cons_of_neg (by simp [h])]
    · simp only [List.filter_cons, ih]

theorem filter_regInsert {p : Nat × Word → Bool} {a : Nat} (h : ∀ v, p (a, v) = false) (v : Word) (l : List (Nat × Word)) :
    (regInsert l a v).filter p = l.filter p := by
  induction l with
  | nil => simp [regInsert, h]
  | cons x t ih =>
    obtain ⟨b, u⟩ := x
    simp only [regInsert]
    split
    · rw [List.filter_cons_of_neg (by simp [h])]
    · split
      · next e => subst e; rw [List.filter_cons_of_neg (by simp [h]), List.filter_cons_of_neg (by simp [h])]
      · simp only [List.filter_cons, ih]

theorem lowRegs_wr {s : State} {a : Nat} (v : Word) (h : 0x40300000 ≤ a) : (s.wr a v).lowRegs = s.lowRegs := by
  have out : ∀ u : Word, decide ((a, u).1 < 0x40300000) = false := fun u => decide_eq_false (Nat.not_lt.2 h)
  simp only [State.wr, State.lowRegs]
  split
  · exact filter_regErase out _
  · exact filter_regInsert out v _

theorem lowRegs_set {s : State} {f : Fd} (v : Nat) (h : 0x40300000 ≤ f.a) : (s.set f v).lowRegs = s.lowRegs := lowRegs_wr _ h

theorem lowRegs_foldl {α : Type} {l : List α} {f : State → α → State} {s : State}
    (h : ∀ t, ∀ x ∈ l, (f t x).lowRegs = t.lowRegs) : (l.foldl f s).lowRegs = s.lowRegs :=
  List.foldlRecOn (motive := fun t => t.lowRegs = s.lowRegs) l f rfl fun t ht x hx => (h t x hx).trans ht

theorem lowRegs_foldl_fst {α β : Type} {l : List α} {f : State × β → α → State × β} {p : State × β}
    (h : ∀ q x, (f q x).1.lowRegs = q.1.lowRegs) : (l.foldl f p).1.lowRegs = p.1.lowRegs :=
  List.foldlRecOn (motive := fun q => q.1.lowRegs = p.1.lowRegs) l f rfl fun q hq x _ => (h q x).trans hq

theorem lowRegs_setPend (e : Nat) (s : State) : (setPend e s).lowRegs = s.lowRegs := by
  have pend : (s.set (pendBit e) 1).lowRegs = s.lowRegs := lowRegs_set 1 (by simp only [pendBit, EVR_PEND]; omega)
  unfold setPend sendIbi
  split <;> exact pend

theorem lowRegs_cntWrap (c j : Nat) (o : Occ) (s : State) : (cntWrap c j o s).1.lowRegs = s.lowRegs := by
  unfold cntWrap
  dsimp only
  split
  · exact (lowRegs_wr _ (by simp only [PMC_SKID_PC]; omega)).trans (lowRegs_wr _ (by simp only [PMC_SKID]; omega))
  · rfl

theorem lowRegs_cntAdd (c evt n : Nat) (o : Occ) (s : State) : (cntAdd c evt n o s).1.lowRegs = s.lowRegs := by
  refine lowRegs_foldl_fst fun q j => ?_
  dsimp only
  split
  · split
    · rfl
    · exact lowRegs_cntWrap c j o _
  · rfl

theorem lowRegs_pmcAdd (evt n : Nat) (m : Option Nat) (o : Occ) (s : State) : (pmcAdd evt n m o s).1.lowRegs = s.lowRegs := by
  unfold pmcAdd
  split
  · rfl
  · refine lowRegs_foldl_fst fun q j => ?_
    dsimp only
    split
    · split
      · rfl
      · exact lowRegs_set 1 (by simp only [PMC_SEL_ovf, PMC_SEL]; omega)
    · rfl

theorem lowRegs_raiseN (fuel e : Nat) (s : State) : (raiseN fuel e s).lowRegs = s.lowRegs := by
  induction fuel generalizing e s with
  | zero => exact lowRegs_setPend e s
  | succ fuel ih =>
    unfold raiseN
    dsimp only
    rw [lowRegs_foldl fun t x _ => ih x t, lowRegs_pmcAdd]
    split
    · exact lowRegs_setPend e s
    · refine (lowRegs_foldl_fst fun q c => ?_).trans (lowRegs_setPend e s)
      exact lowRegs_cntAdd c 13 1 _ q.1

theorem lowRegs_pmcCount (evt n : Nat) (m : Option Nat) (o : Occ) (s : State) : (pmcCount evt n m o s).lowRegs = s.lowRegs :=
  (lowRegs_foldl fun t x _ => lowRegs_raiseN 40 x t).trans (lowRegs_pmcAdd ..)

theorem lowRegs_request (q : Rq) (a : Nat) (s : State) : (request q a s).lowRegs = s.lowRegs := by
  have counted := lowRegs_pmcCount 2 1 (rqMst q) { lvl := rqLvl q, addr := some a } s
  unfold request
  dsimp only
  split <;> exact counted

/-- A port table below the router's registers is read off the listed registers below them. -/
theorem portAny_eq_lowRegs {base : Nat} (h : base + 8192 ≤ 0x40300000) (p : Word → Bool) (s : State) :
    portAny base p s = s.lowRegs.any fun e =>
      decide (base ≤ e.1) && decide (e.1 < base + 8192) && decide (e.1 % 8 = 0) && bit e.2 0 && p e.2 := by
  rw [State.lowRegs, List.any_filter, portAny]
  refine List.any_congr rfl fun e => ?_
  by_cases low : e.1 < 0x40300000
  · simp [low]
  · have : ¬ e.1 < base + 8192 := by omega
    simp [low, this]

theorem portAny_request {base : Nat} (h : base + 8192 ≤ 0x40300000) (p : Word → Bool) (q : Rq) (a : Nat) (s : State) :
    portAny base p (request q a s) = portAny base p s := by
  simp only [portAny_eq_lowRegs h, lowRegs_request]

/-! ## The users of a PLL (R369) -/

theorem any_range_congr {n : Nat} {p r : Nat → Bool} (h : ∀ i < n, p i = r i) : (List.range n).any p = (List.range n).any r := by
  rw [Bool.eq_iff_iff]
  simp only [List.any_eq_true, List.mem_range]
  exact exists_congr fun i => and_congr_right fun hi => by rw [h i hi]

theorem hostState_request {n : Nat} (h : n < 8) (q : Rq) (a : Nat) (s : State) : hostState n (request q a s) = hostState n s :=
  get_request_low (by simp only [HOST_STATUS_state, HOST_STATUS]; omega)

theorem admState_request {k : Nat} (h : k < 128) (q : Rq) (a : Nat) (s : State) : admState k (request q a s) = admState k s :=
  get_request_low (by simp only [BND_PATH_STAT_state, BND_PATH_STAT]; omega)

theorem onSpll_request (q : Rq) (a : Nat) (s : State) : onSpll (request q a s) = onSpll s := by
  rw [onSpll, onSpll, on_request_low (f := CRP_CLK_STAT_sys_src) (by decide), request_clk_sw]

theorem pllUser_request (p : Fin 4) (q : Rq) (a : Nat) (s : State) : pllUser p (request q a s) = pllUser p s := by
  match p with
  | 0 => exact any_range_congr fun n hn => on_request_low (by simp only [FRM_LANE_CTRL_up, FRM_LANE_CTRL]; omega)
  | 1 =>
    exact any_range_congr (p := fun h => decide (hostState h (request q a s) ≠ 0)) (r := fun h => decide (hostState h s ≠ 0))
      fun h hh => by rw [hostState_request hh]
  | 2 => exact onSpll_request q a s
  | 3 =>
    have paths : ((List.range 128).any fun k => decide (admState k (request q a s) ≠ 0)) =
        (List.range 128).any fun k => decide (admState k s ≠ 0) := any_range_congr fun k hk => by rw [admState_request hk]
    have links : ((List.range 8).any fun h => decide (hostState h (request q a s) ≠ 0) &&
          decide ((request q a s).get (HOST_CTRL_mode h) = 4)) =
        (List.range 8).any fun h => decide (hostState h s ≠ 0) && decide (s.get (HOST_CTRL_mode h) = 4) :=
      any_range_congr fun h hh => by
        rw [hostState_request hh, get_request_low (f := HOST_CTRL_mode h) (by simp only [HOST_CTRL_mode, HOST_CTRL]; omega)]
    simp only [pllUser]
    rw [paths, links, portAny_request (by decide), portAny_request (by decide)]


/-! ## CRP_PLL_CTRL with one enable written (R368, R369) -/

theorem wf_pllEn_same (p v : Nat) (h : p < 4) (s : State) : wf (pllWord p v s) (pllEn p) = v % 2 :=
  fieldOf_putField _ p 1 v (by omega)

theorem wf_pllEn_other {p i : Nat} (v : Nat) (hi : i < 4) (h : i ≠ p) (s : State) : wf (pllWord p v s) (pllEn i) = s.get (pllEn i) :=
  fieldOf_putField_ne _ p 1 v i 1 (by omega) (by omega)

theorem chg_txMode_pllWord (p : Fin 4) (v : Nat) (s : State) : s.chg (pllWord p v s) CRP_PLL_CTRL_tx_mode = false := by
  have mode : wf (pllWord p v s) CRP_PLL_CTRL_tx_mode = s.get CRP_PLL_CTRL_tx_mode :=
    fieldOf_putField_ne _ p 1 v 4 1 (by omega) (by decide)
  simp [State.chg, mode]

/-- Only the PLL whose enable is written can go off. -/
theorem pllOff_iff {p i : Nat} (v : Nat) (hi : i < 4) (s : State) :
    (s.on (pllEn i) && decide (wf (pllWord p v s) (pllEn i) = 0)) = decide (i = p ∧ s.on (pllEn p) = true ∧ v % 2 = 0) := by
  by_cases h : i = p
  · subst h
    simp [wf_pllEn_same i v hi s]
  · rw [wf_pllEn_other v hi h]
    by_cases one : s.get (pllEn i) = 1 <;> simp [State.on, one, h]

theorem filter_range_eq_single : ∀ p : Fin 4, (List.range 4).filter (fun i => decide (i = p.val)) = [p.val] := by decide

/-- The PLLs that a write of one enable takes off. -/
theorem pllGone_eq (p : Fin 4) (v : Nat) (s : State) :
    (List.range 4).filter (fun i => s.on (pllEn i) && decide (wf (pllWord p v s) (pllEn i) = 0)) =
      if s.on (pllEn p) = true ∧ v % 2 = 0 then [p.val] else [] := by
  rw [List.filter_congr fun i hi => pllOff_iff v (List.mem_range.1 hi) s]
  split
  · next h => simpa only [h, and_true] using filter_range_eq_single p
  · next h => simp only [h, and_false, decide_false, List.filter_false]

/-- What a write of one enable does: the PLL that it takes off must have no user, and loses ready and holdover. -/
theorem wrPllCtrl_pllWord (p : Fin 4) (v : Nat) (s : State) :
    wrPllCtrl (pllWord p v s) s =
      if s.on (pllEn p) = true ∧ v % 2 = 0 then
        if pllUser p s then s.ret .state
        else ((pllFall p (s.store CRP_PLL_CTRL CRP_PLL_CTRL_fs (pllWord p v s))).set (pllHold p) 0).ret .done
      else (s.store CRP_PLL_CTRL CRP_PLL_CTRL_fs (pllWord p v s)).ret .done := by
  have gone := pllGone_eq p v s
  simp only [wrPllCtrl, chg_txMode_pllWord, Bool.false_eq_true, false_and, if_false, ← List.any_filter, gone]
  split <;> simp

theorem pllWord_request (q : Rq) (a p v : Nat) (s : State) : pllWord p v (request q a s) = pllWord p v s := by
  rw [pllWord, rd_request_low (by decide)]

theorem on_pllEn_request (q : Rq) (a p : Nat) (s : State) : (request q a s).on (pllEn p) = s.on (pllEn p) :=
  on_request_low (by simp only [pllEn, CRP_PLL_CTRL]; omega)

/-- The same where the write has been accepted. -/
theorem wrPllCtrl_request (q : Rq) (p : Fin 4) (v : Nat) (s : State) :
    wrPllCtrl (pllWord p v s) (request q CRP_PLL_CTRL s) =
      if s.on (pllEn p) = true ∧ v % 2 = 0 then
        if pllUser p s then (request q CRP_PLL_CTRL s).ret .state
        else ((pllFall p (wrote q CRP_PLL_CTRL CRP_PLL_CTRL_fs (pllWord p v s) s)).set (pllHold p) 0).ret .done
      else (wrote q CRP_PLL_CTRL CRP_PLL_CTRL_fs (pllWord p v s) s).ret .done := by
  have effect := wrPllCtrl_pllWord p v (request q CRP_PLL_CTRL s)
  rwa [pllWord_request, on_pllEn_request, pllUser_request] at effect

/-! ## Lock, trim, ramp tick (R36, R370, R371) -/

theorem on_of_get {s : State} {f : Fd} (h : s.get f = 1) : s.on f = true := by simp [State.on, h]

theorem not_on_of_get {s : State} {f : Fd} (h : s.get f = 0) : s.on f = false := by simp [State.on, h]

theorem rampTick_live {s : State} (ok : s.on CRP_CLK_STAT_ref_fail = false) (live : clkLive s = true) :
    rampTick s = trimTick (forN 8 (fun n u => if blkHeld n u then u else rampDet n (rampConv n u)) s) := by
  simp only [rampTick, rampLive, ok, live, Bool.not_false, Bool.and_self, Bool.not_true, Bool.false_eq_true, if_false]

theorem nofoscRelease_none {s : State} (h : s.rst.nofosc = false) : nofoscRelease s = s := by
  simp only [nofoscRelease, h, Bool.not_false, if_true]

theorem pllLock_locks {p : Nat} {s : State} (en : s.on (pllEn p) = true) (ok : s.on CRP_CLK_STAT_ref_fail = false)
    (live : clkLive s = true) :
    pllLock p s = updClk (fun c => { c with cold := c.cold.filter fun x => decide (x ≠ p) })
      ((s.set (pllReady p) 1).set (pllHold p) 0) := by
  simp only [pllLock, en, ok, live, Bool.not_false, and_self, if_true]

theorem pllFall_ready {p : Nat} {s : State} (h : s.on (pllReady p) = true) :
    pllFall p s = clkEvt 0 ((s.set (pllReady p) 0).addSat CRP_PLL_STAT_unlocks 1) := by
  simp only [pllFall, h, if_true]

theorem wrBpllTrim_range {w : Word} {s : State} (h : 102400000 < (sgn 28 (wf w CRP_BPLL_TRIM_trim)).natAbs) :
    wrBpllTrim w s = s.ret .range := by
  simp only [wrBpllTrim, h, if_true]

theorem wrBpllTrim_stored {w : Word} {s : State} (h : (sgn 28 (wf w CRP_BPLL_TRIM_trim)).natAbs ≤ 102400000) :
    wrBpllTrim w s =
      (let t := s.store CRP_BPLL_TRIM CRP_BPLL_TRIM_fs w
       (t.set CRP_BPLL_APPLIED_slewing (decide (t.get CRP_BPLL_TRIM_trim ≠ t.get CRP_BPLL_APPLIED_applied)).toNat).ret .done) := by
  simp only [wrBpllTrim, Nat.not_lt.2 h, if_false]

/-! ## FOSC (R372, R374, R380) -/

theorem nofosc_foldl_raise (l : List Nat) {s : State} (h : s.rst.nofosc = false) :
    (l.foldl (fun s e => s.raise e) s).rst.nofosc = false :=
  List.foldlRecOn (motive := fun t : State => t.rst.nofosc = false) l _ h fun t ht e _ => by rwa [raise_rst]

theorem foscReady_starts {s : State} (was : s.on CRP_CLK_STAT_fosc_ready = false) (run : s.stop = false)
    (calm : s.rst.nofosc = false) :
    foscReady s = if s.on CRP_CLK_STAT_sys_gated then
        s.clk.gateNmi.foldl (fun s e => s.raise e) (updClk (fun c => { c with gateNmi := [] })
          (swReached 0 ((s.set CRP_CLK_STAT_fosc_ready 1).set CRP_CLK_STAT_sys_gated 0)))
      else s.set CRP_CLK_STAT_fosc_ready 1 := by
  have gated : (s.set CRP_CLK_STAT_fosc_ready 1).on CRP_CLK_STAT_sys_gated = s.on CRP_CLK_STAT_sys_gated :=
    set_on_bits s (by decide) (by decide)
  simp only [foscReady, was, run, Bool.false_eq_true, or_self, if_false, gated, set_rst, calm, Bool.not_false, and_true, set_clk]

theorem nofosc_foscReady {s : State} (was : s.on CRP_CLK_STAT_fosc_ready = false) (run : s.stop = false)
    (calm : s.rst.nofosc = false) : (foscReady s).rst.nofosc = false := by
  rw [foscReady_starts was run calm]
  split
  · exact nofosc_foldl_raise _ calm
  · exact calm

theorem foscCheck_within {n : Nat} {s : State} (h : 2800 ≤ n ∧ n ≤ 3300) : foscCheck n s = s := by
  simp only [foscCheck, h, and_self, or_true, if_true]

/-- The declaration that FOSC has failed leaves the domain's source and gate as they are. -/
theorem foscCheck_outside {n : Nat} {s : State} (aosc : s.on CRP_CLK_STAT_aosc_ready = true) (run : s.stop = false)
    (out : n < 2800 ∨ 3300 < n) :
    foscCheck n s =
      if s.on CRP_CLK_STAT_sys_gated = true ∨ autoTo 1 s = true then nmiJoin 1 (foscFailed s)
      else if onFosc s then fallback 1 1 (foscFailed s) else (foscFailed s).raise 1 := by
  have out' : ¬(2800 ≤ n ∧ n ≤ 3300) := by omega
  have gated : (foscFailed s).on CRP_CLK_STAT_sys_gated = s.on CRP_CLK_STAT_sys_gated := by
    rw [foscFailed, set_on_bits _ (by decide) (by decide), set_on_bits _ (by decide) (by decide)]
  have src : (foscFailed s).on CRP_CLK_STAT_sys_src = s.on CRP_CLK_STAT_sys_src := by
    rw [foscFailed, set_on_bits _ (by decide) (by decide), set_on_bits _ (by decide) (by decide)]
  have auto : autoTo 1 (foscFailed s) = autoTo 1 s := rfl
  have on : onFosc (foscFailed s) = onFosc s := by
    simp only [onFosc, set_clk, src]
  simp only [foscCheck, aosc, run, out', Bool.not_true, Bool.false_eq_true, or_self, if_false, gated, auto, on]

theorem nmiJoin_gated {e : Nat} {s : State} (h : s.on CRP_CLK_STAT_sys_gated = true) :
    nmiJoin e s = updClk (fun c => { c with gateNmi := natJoin e c.gateNmi }) s := by
  simp only [nmiJoin, h, if_true]


/-- A field of one bit is 1 or 0. -/
theorem get_eq_zero_iff {s : State} {f : Fd} (h : f.w = 1) : s.get f = 0 ↔ s.on f = false := by
  have bit : s.get f < 2 := by
    simpa only [State.get, fieldOf, h, pow_one] using Nat.mod_lt _ (by decide : 0 < 2)
  simp only [State.on, decide_eq_false_iff_not]
  omega

/-- FOSC has failed and no switch is under way. -/
theorem foscCheck_noSwitch {n : Nat} {s : State} (aosc : s.on CRP_CLK_STAT_aosc_ready = true) (run : s.stop = false)
    (out : n < 2800 ∨ 3300 < n) (sw : s.clk.sw = none) :
    foscCheck n s =
      if s.get CRP_CLK_STAT_sys_gated = 1 then updClk (fun c => { c with gateNmi := natJoin 1 c.gateNmi }) (foscFailed s)
      else if s.get CRP_CLK_STAT_sys_src = 0 then fallback 1 1 (foscFailed s) else (foscFailed s).raise 1 := by
  have auto : autoTo 1 s = false := by simp only [autoTo, sw]
  have on : onFosc s = true ↔ s.get CRP_CLK_STAT_sys_src = 0 := by
    rw [get_eq_zero_iff rfl]
    simp only [onFosc, sw, Bool.not_eq_true']
  have join : s.get CRP_CLK_STAT_sys_gated = 1 → nmiJoin 1 (foscFailed s) =
      updClk (fun c => { c with gateNmi := natJoin 1 c.gateNmi }) (foscFailed s) := fun h => by
    refine nmiJoin_gated ?_
    rw [foscFailed, set_on_bits _ (by decide) (by decide), set_on_bits _ (by decide) (by decide)]
    exact on_of_get h
  rw [foscCheck_outside aosc run out, auto]
  by_cases gated : s.get CRP_CLK_STAT_sys_gated = 1
  · rw [if_pos (.inl (on_of_get gated)), if_pos gated, join gated]
  · simp only [State.on, gated, decide_false, Bool.false_eq_true, or_self, if_false, on]

/-- FOSC has failed while a switch is under way: the automatic one to SPLL takes the event along, a commanded one and one to FOSC give
way to the fallback. -/
theorem foscCheck_switching {n : Nat} {x : ClkSw} {s : State} (aosc : s.on CRP_CLK_STAT_aosc_ready = true) (run : s.stop = false)
    (gated : s.on CRP_CLK_STAT_sys_gated = false) (out : n < 2800 ∨ 3300 < n) (sw : s.clk.sw = some x) :
    foscCheck n s =
      if x.cmd = false ∧ x.target = 1 then nmiJoin 1 (foscFailed s)
      else if x.cmd = true ∨ x.target = 0 then fallback 1 1 (foscFailed s) else (foscFailed s).raise 1 := by
  rw [foscCheck_outside aosc run out]
  simp only [gated, autoTo, onFosc, sw, Bool.false_eq_true, false_or, Bool.and_eq_true, Bool.or_eq_true, Bool.not_eq_true',
    decide_eq_true_eq]

/-! ## The always-on time and the reference monitor (R375 to R379) -/

/-- A discipline run that REFCLK has not spoilt sets the increment. -/
theorem discipline_good {n : Nat} {s : State} (good : s.clk.discBad = false) (en : s.on CRP_AOSC_INC_disc_en = true)
    (ok : s.on CRP_CLK_STAT_ref_ok = true) (aosc : s.on CRP_CLK_STAT_aosc_ready = true) (run : s.stop = false) :
    discipline n s = (s.seti CRP_AOSC_INC_inc (divEven (2 ^ 25 * n) (refHz s))).set CRP_AOSC_INC_valid 1 := by
  have same : updClk (fun c => { c with discBad := c.discBad && s.on CRP_CLK_STAT_ref_fail }) s = s := by
    have clk : { s.clk with discBad := s.clk.discBad && s.on CRP_CLK_STAT_ref_fail } = s.clk := by
      rw [good, Bool.false_and, ← good]
    simp only [updClk, clk]
  simp [discipline, same, good, en, ok, aosc, run]

theorem get_refCounted {n : Nat} {s : State} {f : Fd} (h : CRP_REFCNT ≠ f.a) : (refCounted n s).get f = s.get f := by
  rw [refCounted, incMod_get_ne (f := CRP_REFCNT_windows) _ h, set_get_ne (f := CRP_REFCNT_count) _ h]

theorem on_refCounted {n : Nat} {s : State} {f : Fd} (h : CRP_REFCNT ≠ f.a) : (refCounted n s).on f = s.on f := by
  simp only [State.on, get_refCounted h]

theorem refWindow_ok {n : Nat} {s : State} (live : clkLive s = true) (within : s.get CRP_REFMON_lo ≤ n ∧ n ≤ s.get CRP_REFMON_hi)
    (ok : s.on CRP_CLK_STAT_ref_ok = true) : refWindow n s = refCounted n s := by
  have within' : ¬((refCounted n s).get CRP_REFMON_lo > n ∨ (refCounted n s).get CRP_REFMON_hi < n) := by
    rw [get_refCounted (by decide), get_refCounted (by decide)]
    omega
  have ok' : (refCounted n s).on CRP_CLK_STAT_ref_ok = true := by rwa [on_refCounted (by decide)]
  simp only [refWindow, live, Bool.not_true, Bool.false_eq_true, if_false]
  rw [if_neg within', if_pos ok']

theorem refWindow_fails {n : Nat} {s : State} (live : clkLive s = true)
    (out : n < s.get CRP_REFMON_lo ∨ s.get CRP_REFMON_hi < n) (was : s.on CRP_CLK_STAT_ref_fail = false) :
    refWindow n s = refFail (refCounted n s) := by
  have out' : (refCounted n s).get CRP_REFMON_lo > n ∨ (refCounted n s).get CRP_REFMON_hi < n := by
    rwa [get_refCounted (by decide), get_refCounted (by decide)]
  have was' : ¬(refCounted n s).on CRP_CLK_STAT_ref_fail = true := by
    rw [on_refCounted (by decide), was]
    decide
  simp only [refWindow, live, Bool.not_true, Bool.false_eq_true, if_false]
  rw [if_pos out', if_neg was']

/-- Settles O46: a PLL's users, like its enable, are read in the state that has accepted the write as before it; the checks of FOSC and
REFCLK read the domain's source, gate and limits beside the bits that they have changed. -/
theorem clockSources : Obligations.ClockSources := by
  unfold Obligations.ClockSources
  refine ⟨?_, ?_, ?_, ?_, ?_, ?_, ?_, ?_, ?_, ?_, ?_, ?_, ?_, ?_, ?_, ?_, ?_, ?_, ?_⟩
  · rintro s ⟨ok, live⟩
    exact congrArg Host.Outcome.next (rampTick_live (not_on_of_get ok) live)
  · intro q p s sent
    refine congrArg Host.Outcome.next (gated_uncounted sent ((wrPllCtrl_request q p 1 s).trans ?_) (.inl rfl))
    exact if_neg fun h => absurd h.2 (by decide)
  · intro q p s sent en free
    refine congrArg Host.Outcome.next (gated_uncounted sent ((wrPllCtrl_request q p 0 s).trans ?_) (.inl rfl))
    rw [if_pos ⟨on_of_get en, rfl⟩, free, if_neg Bool.false_ne_true]
  · intro q p s sent en used
    refine congrArg Host.Outcome.next (gated_counted sent ((wrPllCtrl_request q p 0 s).trans ?_) rfl)
    rw [if_pos ⟨on_of_get en, rfl⟩, if_pos used]
  · rintro p s ⟨en, ok, live⟩ calm
    have locks := pllLock_locks (on_of_get en) (not_on_of_get ok) live
    refine congrArg (fun t => Host.Outcome.next (thaw t)) ?_
    rw [nofoscRelease_none (by rw [locks]; exact calm), locks]
  · intro p s ready
    exact congrArg Host.Outcome.next (pllFall_ready (on_of_get ready))
  · intro q w s sent within
    exact congrArg Host.Outcome.next (gated_uncounted sent (wrBpllTrim_stored within) (.inl rfl))
  · intro q w s sent above
    exact congrArg Host.Outcome.next (gated_uncounted sent (wrBpllTrim_range above) (.inr (.inr (.inr rfl))))
  · rintro s ⟨was, run⟩ calm
    have off := not_on_of_get was
    refine congrArg (fun t => Host.Outcome.next (thaw t)) ?_
    rw [nofoscRelease_none (nofosc_foscReady off run calm), foscReady_starts off run calm]
    simp only [State.on, decide_eq_true_eq]
  · rintro n s ⟨aosc, run⟩ out sw
    exact congrArg Host.Outcome.next (foscCheck_noSwitch (on_of_get aosc) run out sw)
  · rintro n x s ⟨aosc, run, gated⟩ out sw
    exact congrArg Host.Outcome.next (foscCheck_switching (on_of_get aosc) run (not_on_of_get gated) out sw)
  · intro n s within
    exact congrArg Host.Outcome.next (foscCheck_within within)
  · rintro n s good ⟨en, ok, aosc, run⟩
    exact congrArg Host.Outcome.next (discipline_good good (on_of_get en) (on_of_get ok) (on_of_get aosc) run)
  · intro q w s sent
    exact congrArg Host.Outcome.next (gated_uncounted sent rfl (.inl rfl))
  · intro q w s sent
    exact congrArg Host.Outcome.next (gated_uncounted sent rfl (.inl rfl))
  · intro q s sent
    refine congrArg Host.Outcome.next ((gatedRead_go sent).trans ?_)
    rw [rdAonL, request_clk_aon]
  · intro n s live within ok
    exact congrArg Host.Outcome.next (refWindow_ok live within (on_of_get ok))
  · intro n s live out was
    exact congrArg Host.Outcome.next (refWindow_fails live out (not_on_of_get was))
  · intro s
    rfl

end Sys2Proof.Machine

namespace Sys2Proof.Machine

/-! ## What a block's work leaves of the receiver's registers

The registers of a lane's receiver that set it up and say its state lie, but for its events, below those in which a block's work is
seen: the monitor's counts, the loop, the gradients, the histogram. -/

theorem rd_forN {n a : Nat} {f : Nat → State → State} {s : State} (h : ∀ i t, (f i t).rd a = t.rd a) : (forN n f s).rd a = s.rd a :=
  List.foldlRecOn (motive := fun t : State => t.rd a = s.rd a) (List.range n) (fun t i => f i t) rfl
    fun t ht i _ => (h i t).trans ht

theorem rd_detEvt {n b a : Nat} {s : State} (evt : a ≠ LANE_DET_EVT n) (low : a < 0x40300000) : (detEvt n b s).rd a = s.rd a :=
  (rd_raise _ _ fun r => by rcases r with r | r <;> omega).trans (set_rd_ne s evt.symm)

/-- A counter that counts or not. -/
theorem rd_ite_addSat {c : Prop} [Decidable c] {f : Fd} {k a : Nat} (s : State) (h : f.a ≠ a) :
    (if c then s.addSat f k else s).rd a = s.rd a := by
  split
  · exact addSat_rd_ne s h
  · rfl

@[simp] theorem rd_updDet (n : Nat) (f : Det → Det) (s : State) (a : Nat) : (updDet n f s).rd a = s.rd a := rfl

section
variable {n a : Nat} {s : State} (head : a < LANE_SEAM_CNT n)
include head

theorem rd_lmsSample (u : Nat) (o : LmsObs) : (lmsSample n u o s).rd a = s.rd a := by
  have grad : ∀ j, LANE_LMS_GRAD n u j ≠ a := fun j => by simp only [LANE_LMS_GRAD, LANE_SEAM_CNT] at *; omega
  unfold lmsSample
  dsimp only
  split
  · exact rd_forN fun j t => seti_rd_ne t (grad j)
  · rfl

theorem rd_histSample (o : HistObs) : (histSample n o s).rd a = s.rd a := by
  have bin : ∀ b, LANE_HIST_BIN n b ≠ a := fun b => by simp only [LANE_HIST_BIN, LANE_SEAM_CNT] at *; omega
  have eye : ∀ j, LANE_EYE_CNT n j ≠ a := fun j => by simp only [LANE_EYE_CNT, LANE_SEAM_CNT] at *; omega
  unfold histSample
  dsimp only
  split
  · rw [rd_forN fun j t => (rd_ite_addSat _ (eye _)).trans (rd_ite_addSat t (eye _)), rd_ite_addSat _ (bin _)]
    rfl
  · rfl

theorem rd_timingStep {eps : Int} (evt : a ≠ LANE_DET_EVT n) (low : a < 0x40300000) : (timingStep n eps s).rd a = s.rd a := by
  have freq : LANE_TR_FREQ n ≠ a := by simp only [LANE_TR_FREQ, LANE_SEAM_CNT] at *; omega
  have phase : LANE_TR_PHASE n ≠ a := by simp only [LANE_TR_PHASE, LANE_SEAM_CNT] at *; omega
  unfold timingStep
  extract_lets d lim cur df fp s₁ was is s₂ s₃ s₄ s₅ s₆
  have moved : s₆.rd a = s.rd a :=
    calc s₆.rd a
        = s₅.rd a := rd_updDet ..
      _ = s₄.rd a := set_rd_ne s₄ phase
      _ = s₃.rd a := set_rd_ne s₃ phase
      _ = s₂.rd a := set_rd_ne s₂ freq
      _ = s₁.rd a := seti_rd_ne s₁ freq
      _ = s.rd a := rd_updDet ..
  clear_value s₆
  split
  · exact (rd_detEvt evt low).trans moved
  · exact moved

end

theorem detState_updDet (n m : Nat) (f : Det → Det) (s : State) : detState n (updDet m f s) = detState n s := rfl

/-- The samples and loops of a running receiver over a block that shows o. -/
abbrev blockWorked (n : Nat) (o : BlockObs) (s : State) : State :=
  timingStep n o.eps (histSample n o.hist (forN 4 (fun u r => lmsSample n u (nth o.lms u) r) s))

theorem rd_blockWorked {n a : Nat} {o : BlockObs} {s : State} (head : a < LANE_SEAM_CNT n) (evt : a ≠ LANE_DET_EVT n)
    (low : a < 0x40300000) : (blockWorked n o s).rd a = s.rd a :=
  calc (blockWorked n o s).rd a
      = (histSample n o.hist (forN 4 (fun u r => lmsSample n u (nth o.lms u) r) s)).rd a := rd_timingStep head evt low
    _ = (forN 4 (fun u r => lmsSample n u (nth o.lms u) r) s).rd a := rd_histSample head o.hist
    _ = s.rd a := rd_forN fun u _ => rd_lmsSample head u (nth o.lms u)

section
variable (n : Fin 8) (o : BlockObs) (s : State)

theorem detState_blockWorked : detState n (blockWorked n o s) = detState n s :=
  congrArg (fun v => fieldOf v 0 3) (rd_blockWorked (a := LANE_DET_STATUS n) (by simp only [LANE_DET_STATUS, LANE_SEAM_CNT]; omega)
    (by simp only [LANE_DET_STATUS, LANE_DET_EVT]; omega) (laneDetStatus_low n))

theorem sigMin_blockWorked : (blockWorked n o s).get (LANE_DET_MON_sig_min n) = s.get (LANE_DET_MON_sig_min n) :=
  congrArg (fun v => fieldOf v 20 8) (rd_blockWorked (a := LANE_DET_MON n) (by simp only [LANE_DET_MON, LANE_SEAM_CNT]; omega)
    (by simp only [LANE_DET_MON, LANE_DET_EVT]; omega) (by simp only [LANE_DET_MON]; omega))

end

/-! ## What a block leaves to the next -/

/-- Detected bits go to the framer. -/
theorem giveBits_frm (n : Nat) (l : List (Bool × Nat)) (s : State) : ∃ f, giveBits n l s = { s with frm := f } := by
  unfold giveBits
  split
  · split
    · exact ⟨_, rfl⟩
    · split
      · exact ⟨_, rfl⟩
      · exact ⟨s.frm, rfl⟩
  · exact ⟨s.frm, rfl⟩

section
variable (n : Nat) (v : View) (l : List (Bool × Nat)) (s : State)

theorem get_keepTail_giveBits (f : Fd) : (keepTail n v (giveBits n l s)).get f = s.get f := by
  obtain ⟨frm, eq⟩ := giveBits_frm n l s
  rw [eq]
  rfl

theorem low_keepTail_giveBits : (nth (keepTail n v (giveBits n l s)).det n).low = (nth s.det n).low := by
  obtain ⟨frm, eq⟩ := giveBits_frm n l s
  rw [eq, keepTail]
  simp only [updDet, nth_upd]
  split <;> rfl

end

/-! ## The block boundary (R69, R92, R93) -/

theorem blockBoundary_held {n : Nat} {codes look : List Int} {s : State} (held : blkHeld n s = true) :
    blockBoundary n codes look s = s := by
  rw [blockBoundary, if_pos held]

theorem blockBoundary_off {n : Nat} {codes look : List Int} {s : State} (free : blkHeld n s = false) (off : detState n s = 0) :
    blockBoundary n codes look s = detCfgApply n (boundaryTaps n s) := by
  rw [blockBoundary, if_neg (by simp [free]), if_pos off]

/-- The block's work with the counts of the monitor and of the signal criterion, whose threshold is sig. -/
abbrev blockCounted (n sig : Nat) (o : BlockObs) (s : State) : State :=
  updDet n (fun d => { d with
    winCount := d.winCount + o.seams, winBlocks := d.winBlocks + 1, low := if o.meanY < sig then d.low + 1 else 0 })
    (blockWorked n o s)

/-- The SIGNAL criterion at the end of a block that a receiver in the state st, after low low-signal blocks, has left as h. -/
abbrev signalJudged (n st low : Nat) (h : State) : State :=
  if (st = 2 ∨ st = 3) ∧ (256 ≤ low ∨ 256 ≤ (nth h.det n).low) then detLost n 1 h else h

/-- The changes of the boundary of a running receiver, in their order. -/
abbrev boundaryChanges (n : Nat) (s : State) : State :=
  detCmdApply n (forN 4 (lmsStart n) (histStart n (detCfgApply n (boundaryTaps n s))))

/-- The signal is judged in the state that the receiver had, with the threshold that stood, before the block's work. -/
theorem blockStep_eq (n : Fin 8) (o : BlockObs) (s : State) :
    blockStep n o s = boundaryChanges n
      (signalJudged n (detState n s) (nth s.det n).low (blockCounted n (s.get (LANE_DET_MON_sig_min n)) o s)) := by
  have shape : blockStep n o s = boundaryChanges n
      (signalJudged n (detState n (blockCounted n ((blockWorked n o s).get (LANE_DET_MON_sig_min n)) o s)) (nth s.det n).low
        (blockCounted n ((blockWorked n o s).get (LANE_DET_MON_sig_min n)) o s)) := rfl
  rw [shape, detState_updDet, detState_blockWorked, sigMin_blockWorked]

/-- A block of a running receiver. -/
theorem blockBoundary_running {n : Fin 8} {codes look : List Int} {s : State} (free : blkHeld n s = false)
    (on : detState n s ≠ 0) :
    blockBoundary n codes look s =
      boundaryChanges n (signalJudged n (detState n s) (nth s.det n).low (blockHeard n codes look s)) := by
  have state : detState n (blockGiven n codes look s) = detState n s := get_keepTail_giveBits ..
  have sig : (blockGiven n codes look s).get (LANE_DET_MON_sig_min n) = s.get (LANE_DET_MON_sig_min n) := get_keepTail_giveBits ..
  have low : (nth (blockGiven n codes look s).det n).low = (nth s.det n).low := low_keepTail_giveBits ..
  rw [blockBoundary, if_neg (by simp [free]), if_neg on]
  refine (blockStep_eq n (blockShown n codes look s) (blockGiven n codes look s)).trans ?_
  rw [state, sig, low]

/-! ## The end of a monitor window (R76, R92, R93) -/

/-- A window's count stands beside the setting of its length. -/
theorem monLen_seamCounted (n x : Nat) (s : State) :
    ((s.set (LANE_SEAM_CNT_count n) x).incMod (LANE_SEAM_CNT_windows n)).get (LANE_DET_MON_mon_len n) =
      s.get (LANE_DET_MON_mon_len n) := by
  have apart : LANE_SEAM_CNT n ≠ LANE_DET_MON n := by simp only [LANE_SEAM_CNT, LANE_DET_MON]; omega
  exact (incMod_get_ne (f := LANE_SEAM_CNT_windows n) (g := LANE_DET_MON_mon_len n) _ apart).trans
    (set_get_ne (f := LANE_SEAM_CNT_count n) (g := LANE_DET_MON_mon_len n) _ apart)

/-- A window in DETECT within the lock and the loss threshold, whose blocks have not all stood at the frequency limit: a HELD LOCK is
done. -/
theorem monitorWindowEnd_locks {n : Nat} {s : State} (state : detState n s = 2)
    (ended : 2 ^ (10 + (nth s.det n).winLen) ≤ (nth s.det n).winBlocks)
    (met : (nth s.det n).winCount ≤ 16 * s.get (LANE_DET_MON_lock_thr n))
    (kept : (nth s.det n).winCount ≤ 256 * s.get (LANE_DET_MON_loss_thr n))
    (freq : (nth s.det n).freqPin = false) (lock : (nth s.det n).cmd = some 3) :
    monitorWindowEnd n s = detCmdEnd n .done 0 (setDet n 3 (updDet n (fun d =>
      { d with winBlocks := 0, winCount := 0, freqPin := true, seamBad := 0, winLen := s.get (LANE_DET_MON_mon_len n),
               winMet := some true })
      ((s.set (LANE_SEAM_CNT_count n) (min (nth s.det n).winCount (2 ^ 24 - 1))).incMod (LANE_SEAM_CNT_windows n)))) := by
  have judged : ¬(detState n s = 0 ∨ (nth s.det n).winBlocks < 2 ^ (10 + (nth s.det n).winLen)) := by omega
  rw [monitorWindowEnd, if_neg judged]
  simp [state, met, freq, lock, Nat.not_lt.2 kept, monLen_seamCounted, lockJudge]

/-! ## The end of foreground calibration (R47, R58) -/

/-- A running foreground pass without a failed slice ends. -/
theorem fgCalDone_sound {n : Nat} {est : List SliceEst} {s : State} (busy : s.on (LANE_ADC_STATUS_fg_busy n) = true) :
    fgCalDone n est [] s = calThrottle n (adcEvt n 0 (((((updConv n (fun c =>
      { c with est := est, slots := 0, slotOn := false }) (((forN 65 (fgSlice n est [] 64) s).set (LANE_ADC_STATUS_spare n)
      64).set (LANE_ADC_STATUS_no_spare n) 0)).set (LANE_ADC_STATUS_fg_busy n) 0).set (LANE_ADC_STATUS_fg_done n) 1).set
      (LANE_ADC_STATUS_phase n) 0))) := by
  have out : fgOut [] = 64 := rfl
  have sound : ((List.range 65).any fun k => ([] : List Nat).contains k) = false := rfl
  have events : ∀ t, forN 65 (fun k t => if ([] : List Nat).contains k then adcEvt n 3 t else t) t = t :=
    fun t => forN_fixed fun _ _ => rfl
  simp only [fgCalDone, busy, if_true, out, sound, events, Bool.false_eq_true, if_false]

theorem fgCalDone_idle {n : Nat} {est : List SliceEst} {failed : List Nat} {s : State}
    (idle : s.on (LANE_ADC_STATUS_fg_busy n) = false) : fgCalDone n est failed s = s := by
  simp only [fgCalDone, idle, Bool.false_eq_true, if_false]

/-- Settles O7: a block's work writes neither the receiver's state nor the thresholds of its monitor, so that the boundary judges the
signal by what stood before the block; a window with no ground for a loss leaves the HELD LOCK to its count, and a pass with no
failed slice leaves slice 64 as the spare. -/
theorem receiverBlocks : Obligations.ReceiverBlocks := by
  unfold Obligations.ReceiverBlocks
  refine ⟨?_, ?_, ?_, ?_, ?_, ?_, ?_⟩
  · intro n codes look s held
    exact congrArg Host.Outcome.next (blockBoundary_held held)
  · intro n codes look s free off
    exact congrArg Host.Outcome.next (blockBoundary_off free off)
  · intro n codes look s free state
    have unlocked : ¬(detState n s = 2 ∨ detState n s = 3) := by omega
    refine congrArg Host.Outcome.next ((blockBoundary_running free (by omega)).trans ?_)
    rw [signalJudged, if_neg fun h => unlocked h.1]
  · intro n codes look s free state
    refine congrArg Host.Outcome.next ((blockBoundary_running free (by omega)).trans ?_)
    simp only [signalJudged, state, true_and]
  · intro n s state ended met kept freq lock
    exact congrArg Host.Outcome.next (monitorWindowEnd_locks state ended met kept freq lock)
  · rintro n est failed s busy rfl
    exact congrArg (fun t => Host.Outcome.next (detStart n t)) (fgCalDone_sound busy)
  · intro n est failed s idle
    exact congrArg (fun t => Host.Outcome.next (detStart n t)) (fgCalDone_idle idle)

end Sys2Proof.Machine

namespace Sys2Proof.Machine

/-! ## The receiver's registers and state where an access has been accepted -/

section
variable (n : Fin 8)

theorem laneDetCtrl_low : LANE_DET_CTRL n < 0x40300000 := by simp only [LANE_DET_CTRL]; omega
theorem laneEqCtrl_low : LANE_EQ_CTRL n < 0x40300000 := by simp only [LANE_EQ_CTRL]; omega
theorem laneEqTap_low {k : Nat} (h : k < 48) : LANE_EQ_TAP n k < 0x40300000 := by simp only [LANE_EQ_TAP]; omega
theorem laneLmsCfg_low (u : Fin 4) : LANE_LMS_CFG n u < 0x40300000 := by simp only [LANE_LMS_CFG]; omega
theorem laneTrlLeva_low {i : Nat} (h : i < 64) : LANE_TRL_LEVA n i < 0x40300000 := by simp only [LANE_TRL_LEVA]; omega
theorem laneTrlLevb_low {i : Nat} (h : i < 64) : LANE_TRL_LEVB n i < 0x40300000 := by simp only [LANE_TRL_LEVB]; omega

end

section
variable (q : Rq) (a : Nat) (n : Fin 8) (s : State)

theorem detState_request : detState n (request q a s) = detState n s := get_request_low (laneDetStatus_low n)

theorem detBusy_request : detBusy n (request q a s) = detBusy n s := by simp only [detBusy, request_det]

theorem geti_request_low {f : Fd} (h : f.a < 0x40300000) : (request q a s).geti f = s.geti f := by
  simp only [State.geti, get_request_low h]

end

/-! ## Receiver control (R92, R94) -/

/-- A field that a write stores takes its written value, where no other stored field of the register meets it. -/
theorem fieldOf_mergeWord_rw {fs : List (Nat × Nat × Acc)} {old w : Word} {locked : Bool} {lo n : Nat}
    (apart : ∀ f ∈ fs, f.1 + f.2.1 ≤ lo ∨ lo + n ≤ f.1) (h : lo + n ≤ 32) :
    fieldOf (mergeWord ((lo, n, .rw) :: fs) old w locked) lo n = fieldOf w lo n := by
  refine List.foldlRecOn (motive := fun acc => fieldOf acc lo n = fieldOf w lo n) fs _ ?_ fun acc hacc f hf => ?_
  · exact (fieldOf_putField _ lo n _ h).trans (Nat.mod_mod _ _)
  · obtain ⟨flo, fn, k⟩ := f
    have put : ∀ v, fieldOf (putField acc flo fn v) lo n = fieldOf w lo n := fun v =>
      (fieldOf_putField_ne acc flo fn v lo n (apart _ hf) h).trans hacc
    cases k <;> cases locked <;> simp only [put, hacc, if_true, if_false, Bool.false_eq_true]

/-- A stored write of LANE_DET_CTRL leaves det_en at the written bit. -/
theorem on_detEn_store (n : Nat) (w : Word) (s : State) :
    (s.store (LANE_DET_CTRL n) LANE_DET_CTRL_fs w).on (LANE_DET_CTRL_det_en n) = decide (wf w (LANE_DET_CTRL_det_en n) = 1) := by
  have enable : fieldOf (mergeWord LANE_DET_CTRL_fs (s.rd (LANE_DET_CTRL n)) w false) 0 1 = fieldOf w 0 1 :=
    fieldOf_mergeWord_rw (by decide) (by decide)
  rw [State.on, store_get (a := LANE_DET_CTRL n) (g := LANE_DET_CTRL_det_en n) s rfl]
  exact congrArg (fun v => decide (v = 1)) enable

/-- Reduced-tap mode begins and ends in the taps, the status and the events. -/
theorem rd_reduceEval {n a : Nat} {s : State} (head : a < LANE_DET_STATUS n) (low : a < 0x40300000) :
    (reduceEval n s).rd a = s.rd a := by
  have status : LANE_DET_STATUS n ≠ a := by omega
  have evt : a ≠ LANE_DET_EVT n := by simp only [LANE_DET_EVT, LANE_DET_STATUS] at *; omega
  have tap : ∀ k, LANE_EQ_TAP n k ≠ a := fun k => by simp only [LANE_EQ_TAP, LANE_DET_STATUS] at *; omega
  have gate : ∀ k t, (if tapKept n k t then t else t.set (LANE_EQ_TAP_gated n k) 1).rd a = t.rd a := fun k t => by
    split
    · rfl
    · exact set_rd_ne t (tap k)
  unfold reduceEval
  extract_lets want gated
  split
  · rfl
  · split
    · exact (rd_detEvt evt low).trans ((set_rd_ne _ status).trans (rd_forN gate))
    · exact (rd_detEvt evt low).trans (set_rd_ne _ status)

theorem on_detEn_reduceEval (n : Fin 8) (s : State) :
    (reduceEval n s).on (LANE_DET_CTRL_det_en n) = s.on (LANE_DET_CTRL_det_en n) := by
  have same : (reduceEval n s).rd (LANE_DET_CTRL n) = s.rd (LANE_DET_CTRL n) :=
    rd_reduceEval (by simp only [LANE_DET_CTRL, LANE_DET_STATUS]; omega) (laneDetCtrl_low n)
  exact congrArg (fun v => decide (fieldOf v 0 1 = 1)) same

/-- A write of LANE_DET_CTRL with an allowed seam mode: what it does by det_en before and after. -/
theorem wrDetCtrl_stored {n : Fin 8} {w : Word} {s : State} (mode : wf w (LANE_DET_CTRL_seam_mode n) < 2) :
    wrDetCtrl n w s =
      (let t := reduceEval n (s.store (LANE_DET_CTRL n) LANE_DET_CTRL_fs w)
       if wf w (LANE_DET_CTRL_det_en n) = 1 then detStart n t
       else if s.on (LANE_DET_CTRL_det_en n) then detOff n t else t).ret .done := by
  simp only [wrDetCtrl, if_neg (Nat.not_le.2 mode), on_detEn_reduceEval, on_detEn_store, decide_eq_true_eq]

theorem wf_seamMode_force (n : Nat) (w : Word) (v : Nat) :
    wf (force w (LANE_DET_CTRL_det_en n) v) (LANE_DET_CTRL_seam_mode n) = wf w (LANE_DET_CTRL_seam_mode n) :=
  fieldOf_putField_ne w 0 1 v 2 2 (by decide) (by decide)

/-- The same where the write, with det_en at v, has been accepted. -/
theorem wrDetCtrl_request {q : Rq} {n : Fin 8} {w : Word} {v : Nat} {s : State} (mode : wf w (LANE_DET_CTRL_seam_mode n) < 2) :
    wrDetCtrl n (force w (LANE_DET_CTRL_det_en n) v) (request q (LANE_DET_CTRL n) s) =
      (let t := reduceEval n (wrote q (LANE_DET_CTRL n) LANE_DET_CTRL_fs (force w (LANE_DET_CTRL_det_en n) v) s)
       if v % 2 = 1 then detStart n t else if s.on (LANE_DET_CTRL_det_en n) then detOff n t else t).ret .done := by
  have enable : wf (force w (LANE_DET_CTRL_det_en n) v) (LANE_DET_CTRL_det_en n) = v % 2 := fieldOf_putField w 0 1 v (by decide)
  have was : (request q (LANE_DET_CTRL n) s).on (LANE_DET_CTRL_det_en n) = s.on (LANE_DET_CTRL_det_en n) :=
    on_request_low (laneDetCtrl_low n)
  rw [wrDetCtrl_stored ((wf_seamMode_force n w v).trans_lt mode), enable, was]

/-! ## The receiver's commands (R92) -/

section
variable {n : Nat} {s : State}

theorem detAcquire_refused (h : detBusy n s = true ∨ detState n s = 0) : detAcquire n s = detNow n 1 .state s := by
  rcases h with busy | off
  · rw [detAcquire, if_pos busy]
  · simp only [detAcquire, off, ite_self]

theorem detAcquire_acquire (free : detBusy n s = false) (state : detState n s = 1) : detAcquire n s = detNow n 1 .done s := by
  simp only [detAcquire, free, state, Bool.false_eq_true, if_false]

theorem detAcquire_lost (free : detBusy n s = false) (state : detState n s = 4) : detAcquire n s = detHold n 1 s := by
  simp only [detAcquire, free, state, Bool.false_eq_true, if_false]

theorem detDetect_refused (h : detBusy n s = true ∨ detState n s = 0) : detDetect n s = detNow n 2 .state s := by
  rcases h with busy | off
  · rw [detDetect, if_pos busy]
  · simp only [detDetect, off, ite_self]

theorem detDetect_held (free : detBusy n s = false) (state : detState n s = 1 ∨ detState n s = 4) :
    detDetect n s = detHold n 2 s := by
  rcases state with state | state <;> simp only [detDetect, free, state, Bool.false_eq_true, if_false]

theorem detDetect_detect (free : detBusy n s = false) (state : detState n s = 2) : detDetect n s = detNow n 2 .done s := by
  simp only [detDetect, free, state, Bool.false_eq_true, if_false]

theorem detLock_refused (h : detBusy n s = true ∨ detState n s = 0 ∨ (detState n s = 2 ∧ (nth s.det n).winMet = some false)) :
    detLock n s = detNow n 3 .state s := by
  rcases h with busy | off | ⟨state, missed⟩
  · rw [detLock, if_pos busy]
  · simp only [detLock, off, ite_self]
  · simp only [detLock, state, missed, ite_self]

theorem detLock_met (free : detBusy n s = false) (state : detState n s = 2) (met : (nth s.det n).winMet = some true) :
    detLock n s = detNow n 3 .done (setDet n 3 s) := by
  simp only [detLock, free, state, met, Bool.false_eq_true, if_false]

theorem detLock_waits (free : detBusy n s = false) (state : detState n s = 2) (fresh : (nth s.det n).winMet = none) :
    detLock n s = detHold n 3 s := by
  simp only [detLock, free, state, fresh, Bool.false_eq_true, if_false]

theorem detLock_locked (free : detBusy n s = false) (state : detState n s = 3) : detLock n s = detNow n 3 .done s := by
  simp only [detLock, free, state, Bool.false_eq_true, if_false]

theorem detDrop_refused (h : detBusy n s = true ∨ detState n s = 0) : detDrop n s = detNow n 4 .state s := by
  rcases h with busy | off
  · rw [detDrop, if_pos busy]
  · simp only [detDrop, off, ite_self]

theorem detDrop_running (free : detBusy n s = false) (state : detState n s ≠ 0) :
    detDrop n s = detNow n 4 .done (setDet n 1 s) := by
  rw [detDrop, if_neg (by simp [free])]
  split
  · next off => exact absurd off state
  · rfl

end

/-- Settles O8: a command is judged in the state that has accepted its write, in which the receiver and the HELD command are as before;
what the write of LANE_DET_CTRL starts or stops, its det_en says, which the taps that it gates leave as written. -/
theorem receiverCommands : Obligations.ReceiverCommands := by
  unfold Obligations.ReceiverCommands
  refine ⟨?_, ?_, ?_, ?_, ?_, ?_, ?_, ?_, ?_, ?_, ?_, ?_, ?_, ?_⟩
  · intro q n w s sent mode
    exact congrArg Host.Outcome.next (gated_uncounted sent (wrDetCtrl_request mode) (.inl rfl))
  · intro q n w s sent mode on
    refine congrArg Host.Outcome.next (gated_uncounted sent ((wrDetCtrl_request mode).trans ?_) (.inl rfl))
    rw [on]
    rfl
  · intro q n s sent free state
    exact congrArg Host.Outcome.next
      (gated_uncounted sent (detAcquire_acquire ((detBusy_request ..).trans free) ((detState_request ..).trans state)) (.inl rfl))
  · intro q n s sent free state
    exact congrArg Host.Outcome.next
      (gated_uncounted sent (detAcquire_lost ((detBusy_request ..).trans free) ((detState_request ..).trans state))
        (.inr (.inl rfl)))
  · intro q n s sent refused
    refine congrArg Host.Outcome.next (gated_counted sent (detAcquire_refused ?_) rfl)
    rwa [detBusy_request, detState_request]
  · intro q n s sent free state
    refine congrArg Host.Outcome.next
      (gated_uncounted sent (detDetect_held ((detBusy_request ..).trans free) ?_) (.inr (.inl rfl)))
    rwa [detState_request]
  · intro q n s sent free state
    exact congrArg Host.Outcome.next
      (gated_uncounted sent (detDetect_detect ((detBusy_request ..).trans free) ((detState_request ..).trans state)) (.inl rfl))
  · intro q n s sent refused
    refine congrArg Host.Outcome.next (gated_counted sent (detDetect_refused ?_) rfl)
    rwa [detBusy_request, detState_request]
  · intro q n s sent free state met
    refine congrArg Host.Outcome.next
      (gated_uncounted sent (detLock_met ((detBusy_request ..).trans free) ((detState_request ..).trans state) ?_) (.inl rfl))
    rwa [request_det]
  · intro q n s sent free state fresh
    refine congrArg Host.Outcome.next
      (gated_uncounted sent (detLock_waits ((detBusy_request ..).trans free) ((detState_request ..).trans state) ?_)
        (.inr (.inl rfl)))
    rwa [request_det]
  · intro q n s sent free state
    exact congrArg Host.Outcome.next
      (gated_uncounted sent (detLock_locked ((detBusy_request ..).trans free) ((detState_request ..).trans state)) (.inl rfl))
  · intro q n s sent refused
    refine congrArg Host.Outcome.next (gated_counted sent (detLock_refused ?_) rfl)
    rwa [detBusy_request, detState_request, request_det]
  · intro q n s sent free state
    refine congrArg Host.Outcome.next
      (gated_uncounted sent (detDrop_running ((detBusy_request ..).trans free) ?_) (.inl rfl))
    rwa [detState_request]
  · intro q n s sent refused
    refine congrArg Host.Outcome.next (gated_counted sent (detDrop_refused ?_) rfl)
    rwa [detBusy_request, detState_request]

end Sys2Proof.Machine

namespace Sys2Proof.Machine

/-! ## LMS commands (R81, R87) -/

/-- A unit's phase, and whether it has an ACCUM to apply, where an access has been accepted. -/
theorem lms_request (q : Rq) (a n u : Nat) (s : State) : nth (nth (request q a s).det n).lms u = nth (nth s.det n).lms u := by
  rw [request_det]

section
variable (q : Rq) (a : Nat) (n : Fin 8) (u : Fin 4) (s : State)

theorem lmsRange_request : lmsRange n u (request q a s) = lmsRange n u s := by
  simp only [lmsRange, get_request_low (f := LANE_LMS_CFG_first n u) (laneLmsCfg_low n u),
    get_request_low (f := LANE_LMS_CFG_count n u) (laneLmsCfg_low n u)]

theorem lmsKind_request : (request q a s).get (LANE_LMS_CFG_kind n u) = s.get (LANE_LMS_CFG_kind n u) :=
  get_request_low (laneLmsCfg_low n u)

theorem eqAnchor_request : (request q a s).get (LANE_EQ_CTRL_anchor n) = s.get (LANE_EQ_CTRL_anchor n) :=
  get_request_low (laneEqCtrl_low n)

theorem eqGated_request {k : Nat} (h : k < 48) : (request q a s).on (LANE_EQ_TAP_gated n k) = s.on (LANE_EQ_TAP_gated n k) :=
  on_request_low (laneEqTap_low n h)

end

section
variable {n u mu : Nat} {s : State}

theorem lmsAccum_busy (busy : (nth (nth s.det n).lms u).phase ≠ 0) : lmsAccum n u s = lmsNow n u 1 .state s := by
  simp only [lmsAccum, busy, ne_eq, not_false_eq_true, if_true]

/-- An idle unit takes ACCUM where its range lies within its kind and, for taps, beside the anchor. -/
theorem lmsAccum_held (idle : (nth (nth s.det n).lms u).phase = 0)
    (range : (lmsRange n u s).2 ≤ if s.get (LANE_LMS_CFG_kind n u) = 0 then 47 else 63)
    (anchor : s.get (LANE_LMS_CFG_kind n u) = 0 →
      s.get (LANE_EQ_CTRL_anchor n) < (lmsRange n u s).1 ∨ (lmsRange n u s).2 < s.get (LANE_EQ_CTRL_anchor n)) :
    lmsAccum n u s = lmsHold n u 1 1 0 s := by
  have beside : ¬(s.get (LANE_LMS_CFG_kind n u) = 0 ∧ (lmsRange n u s).1 ≤ s.get (LANE_EQ_CTRL_anchor n) ∧
      s.get (LANE_EQ_CTRL_anchor n) ≤ (lmsRange n u s).2) := fun ⟨kind, first, last⟩ => by
    have := anchor kind
    omega
  simp only [lmsAccum, idle, ne_eq, not_true_eq_false, if_false, if_neg (Nat.not_lt.2 range), if_neg beside]

theorem lmsApplyCmd_refused
    (h : (nth (nth s.det n).lms u).accDone = false ∨ (nth (nth s.det n).lms u).phase ≠ 0) :
    lmsApplyCmd n u mu s = lmsNow n u 2 .state s := by
  rcases h with missing | busy
  · simp only [lmsApplyCmd, missing, Bool.not_false, if_true, ite_self]
  · simp only [lmsApplyCmd, busy, ne_eq, not_false_eq_true, if_true]

/-- An idle unit with an ACCUM takes APPLY where no tap of its range is gated. -/
theorem lmsApplyCmd_held (idle : (nth (nth s.det n).lms u).phase = 0) (acc : (nth (nth s.det n).lms u).accDone = true)
    (ungated : s.get (LANE_LMS_CFG_kind n u) = 0 → ∀ k : Fin 48, (lmsRange n u s).1 ≤ k → k ≤ (lmsRange n u s).2 →
      s.on (LANE_EQ_TAP_gated n k) = false) :
    lmsApplyCmd n u mu s = lmsHold n u 2 3 mu s := by
  have gated : ¬(s.get (LANE_LMS_CFG_kind n u) = 0 ∧ (List.range 48).any (fun k => decide ((lmsRange n u s).1 ≤ k) &&
      decide (k ≤ (lmsRange n u s).2) && s.on (LANE_EQ_TAP_gated n k)) = true) := fun ⟨kind, found⟩ => by
    simp only [List.any_eq_true, List.mem_range, Bool.and_eq_true, decide_eq_true_eq] at found
    obtain ⟨k, tap, ⟨first, last⟩, on⟩ := found
    exact absurd on (by simp [ungated kind ⟨k, tap⟩ first last])
  simp only [lmsApplyCmd, idle, acc, ne_eq, not_true_eq_false, Bool.not_true, Bool.false_eq_true, if_false, if_neg gated]

theorem lmsAccumDone_last (phase : (nth (nth s.det n).lms u).phase = 2) (left : (nth (nth s.det n).lms u).left = 0) :
    lmsAccumDone n u s = lmsEnd n u .done 0 (updLms n u (fun x => { x with accDone := true }) s) := by
  rw [lmsAccumDone, if_pos ⟨phase, left⟩, accumEnd]

end

/-! ## Direct tap writes (R82, R83, R95) -/

section
variable {n k : Nat} {w : Word} {s : State}

theorem wrEqTap_same (same : s.chg w (LANE_EQ_TAP_coef n k) = false) : wrEqTap n k w s = s.ret .done := by
  simp only [wrEqTap, same, Bool.not_false, if_true]

theorem wrEqTap_gated (chg : s.chg w (LANE_EQ_TAP_coef n k) = true) (gated : s.on (LANE_EQ_TAP_gated n k) = true) :
    wrEqTap n k w s = s.ret .state := by
  simp only [wrEqTap, chg, gated, Bool.not_true, Bool.false_eq_true, if_false, if_true]

theorem wrEqTap_range (chg : s.chg w (LANE_EQ_TAP_coef n k) = true) (gated : s.on (LANE_EQ_TAP_gated n k) = false)
    (lock : locked n s = true)
    (far : s.get (LANE_EQ_CTRL_step_max n) < (sgn 12 (wf w (LANE_EQ_TAP_coef n k)) - s.geti (LANE_EQ_TAP_coef n k)).natAbs) :
    wrEqTap n k w s = s.ret .range := by
  simp only [wrEqTap, chg, gated, lock, far, Bool.not_true, Bool.false_eq_true, if_false, decide_true, Bool.and_self, if_true]

theorem wrEqTap_waits (chg : s.chg w (LANE_EQ_TAP_coef n k) = true) (gated : s.on (LANE_EQ_TAP_gated n k) = false)
    (near : locked n s = true →
      (sgn 12 (wf w (LANE_EQ_TAP_coef n k)) - s.geti (LANE_EQ_TAP_coef n k)).natAbs ≤ s.get (LANE_EQ_CTRL_step_max n)) :
    wrEqTap n k w s =
      (updDet n (fun d => { d with tapPend := k :: d.tapPend }) (s.store (LANE_EQ_TAP n k) LANE_EQ_TAP_fs w)).ret .done := by
  have allowed : (locked n s && decide (s.get (LANE_EQ_CTRL_step_max n) <
      (sgn 12 (wf w (LANE_EQ_TAP_coef n k)) - s.geti (LANE_EQ_TAP_coef n k)).natAbs)) = false := by
    cases lock : locked n s with
    | false => rfl
    | true => exact decide_eq_false (Nat.not_lt.2 (near lock))
  simp only [wrEqTap, chg, gated, allowed, Bool.not_true, Bool.false_eq_true, if_false]

end

section
variable (q : Rq) (a : Nat) (n : Fin 8) (k : Fin 48) (s : State)

theorem chg_eqCoef_request (w : Word) : (request q a s).chg w (LANE_EQ_TAP_coef n k) = s.chg w (LANE_EQ_TAP_coef n k) :=
  chg_request_low (laneEqTap_low n k.isLt)

theorem geti_eqCoef_request : (request q a s).geti (LANE_EQ_TAP_coef n k) = s.geti (LANE_EQ_TAP_coef n k) :=
  geti_request_low q a s (laneEqTap_low n k.isLt)

theorem eqStepMax_request : (request q a s).get (LANE_EQ_CTRL_step_max n) = s.get (LANE_EQ_CTRL_step_max n) :=
  get_request_low (laneEqCtrl_low n)

/-! ## Level swap (R73) -/

theorem levelsFar_request : levelsFar n (request q a s) = levelsFar n s :=
  any_range_congr fun i hi => by
    rw [geti_request_low q a s (f := LANE_TRL_LEVA_level n i) (laneTrlLeva_low n hi),
      geti_request_low q a s (f := LANE_TRL_LEVB_level n i) (laneTrlLevb_low n hi)]

end

section
variable {n : Nat} {w : Word} {s : State}

theorem wrTrlCommit_held (swap : wf w (LANE_TRL_COMMIT_swap n) ≠ 0) (h : locked n s = false ∨ levelsFar n s = false) :
    wrTrlCommit n w s = ((s.set (LANE_TRL_CTRL_pending n) 1).set (LANE_TRL_CTRL_outcome n) Code.held.n).ret .held := by
  have near : (locked n s && levelsFar n s) = false := by rcases h with h | h <;> simp only [h, Bool.false_and, Bool.and_false]
  simp only [wrTrlCommit, if_neg swap, near, Bool.false_eq_true, if_false]

theorem wrTrlCommit_range (swap : wf w (LANE_TRL_COMMIT_swap n) ≠ 0) (lock : locked n s = true) (far : levelsFar n s = true) :
    wrTrlCommit n w s = (detEvt n 14 (s.set (LANE_TRL_CTRL_outcome n) Code.range.n)).ret .range := by
  simp only [wrTrlCommit, if_neg swap, lock, far, Bool.and_self, if_true]

theorem wf_swap_one (n : Nat) : wf 1 (LANE_TRL_COMMIT_swap n) ≠ 0 := by
  change fieldOf 1 0 1 ≠ 0
  decide

/-! ## Histogram (R88) -/

theorem wrHistCtrl_run (run : wf w (LANE_HIST_CTRL_run n) = 1) (sel : wf w (LANE_HIST_CTRL_sel n) < 2)
    (shift : wf w (LANE_HIST_CTRL_bin_shift n) ≤ 10) :
    wrHistCtrl n w s = (updDet n (fun d => { d with hist := 1 })
      ((s.store (LANE_HIST_CTRL n) LANE_HIST_CTRL_fs w).set (LANE_HIST_CTRL_busy n) 1)).ret .done := by
  have allowed : ¬(2 ≤ wf w (LANE_HIST_CTRL_sel n) ∨ 10 < wf w (LANE_HIST_CTRL_bin_shift n)) := by omega
  simp only [wrHistCtrl, if_neg allowed, run, if_true]

theorem histDone_last (running : (nth s.det n).hist = 2) (left : (nth s.det n).histLeft = 0) :
    histDone n s = detEvt n 13 ((updDet n (fun d => { d with hist := 0 }) s).set (LANE_HIST_CTRL_busy n) 0) := by
  simp only [histDone, running, left, and_self, if_true]

end

section
variable (n : Nat) (w : Word)

theorem wf_run_force : wf (force w (LANE_HIST_CTRL_run n) 1) (LANE_HIST_CTRL_run n) = 1 :=
  fieldOf_putField w 0 1 1 (by decide)

theorem wf_sel_force : wf (force w (LANE_HIST_CTRL_run n) 1) (LANE_HIST_CTRL_sel n) = wf w (LANE_HIST_CTRL_sel n) :=
  fieldOf_putField_ne w 0 1 1 2 2 (by decide) (by decide)

theorem wf_binShift_force : wf (force w (LANE_HIST_CTRL_run n) 1) (LANE_HIST_CTRL_bin_shift n) = wf w (LANE_HIST_CTRL_bin_shift n) :=
  fieldOf_putField_ne w 0 1 1 6 4 (by decide) (by decide)

end

/-- Settles O9: a command and a write are judged in the state that has accepted them, in which the unit, the taps and the levels are as
before; what each then does, the lemma of its function says. -/
theorem adaptation : Obligations.Adaptation := by
  unfold Obligations.Adaptation
  refine ⟨?_, ?_, ?_, ?_, ?_, ?_, ?_, ?_, ?_, ?_, ?_, ?_, ?_⟩
  · intro q n u s sent idle range anchor
    refine congrArg Host.Outcome.next (gated_uncounted sent (lmsAccum_held ?_ ?_ ?_) (.inr (.inl rfl)))
    · rwa [lms_request]
    · rwa [lmsRange_request, lmsKind_request]
    · rwa [lmsRange_request, lmsKind_request, eqAnchor_request]
  · intro q n u s sent busy
    refine congrArg Host.Outcome.next (gated_counted sent (lmsAccum_busy ?_) rfl)
    rwa [lms_request]
  · intro n u s phase left
    exact congrArg Host.Outcome.next (lmsAccumDone_last phase left)
  · intro q n u mu s sent idle acc ungated
    refine congrArg Host.Outcome.next (gated_uncounted sent (lmsApplyCmd_held ?_ ?_ fun kind k first last => ?_) (.inr (.inl rfl)))
    · rwa [lms_request]
    · rwa [lms_request]
    · rw [lmsKind_request] at kind
      rw [lmsRange_request] at first last
      rw [eqGated_request q _ n s k.isLt]
      exact ungated kind k first last
  · intro q n u mu s sent refused
    refine congrArg Host.Outcome.next (gated_counted sent (lmsApplyCmd_refused ?_) rfl)
    rwa [lms_request]
  · intro q n k w s sent chg gated near
    refine congrArg Host.Outcome.next (gated_uncounted sent (wrEqTap_waits ?_ ?_ ?_) (.inl rfl))
    · rwa [chg_eqCoef_request]
    · rwa [eqGated_request q _ n s k.isLt]
    · rwa [locked_request, geti_eqCoef_request, eqStepMax_request]
  · intro q n k w s sent chg gated
    refine congrArg Host.Outcome.next (gated_counted sent (wrEqTap_gated ?_ ?_) rfl)
    · rwa [chg_eqCoef_request]
    · rwa [eqGated_request q _ n s k.isLt]
  · intro q n k w s sent chg gated lock far
    refine congrArg Host.Outcome.next (gated_uncounted sent (wrEqTap_range ?_ ?_ ?_ ?_) (.inr (.inr (.inr rfl))))
    · rwa [chg_eqCoef_request]
    · rwa [eqGated_request q _ n s k.isLt]
    · rwa [locked_request]
    · rwa [geti_eqCoef_request, eqStepMax_request]
  · intro q n k w s sent same
    refine congrArg Host.Outcome.next (gated_uncounted sent (wrEqTap_same ?_) (.inl rfl))
    rwa [chg_eqCoef_request]
  · intro q n s sent near
    refine congrArg Host.Outcome.next (gated_uncounted sent (wrTrlCommit_held (wf_swap_one n) ?_) (.inr (.inl rfl)))
    rwa [locked_request, levelsFar_request]
  · intro q n s sent lock far
    refine congrArg Host.Outcome.next (gated_uncounted sent (wrTrlCommit_range (wf_swap_one n) ?_ ?_) (.inr (.inr (.inr rfl))))
    · rwa [locked_request]
    · rwa [levelsFar_request]
  · intro q n w s sent sel shift
    refine congrArg Host.Outcome.next (gated_uncounted sent (wrHistCtrl_run (wf_run_force n w) ?_ ?_) (.inl rfl))
    · rwa [wf_sel_force]
    · rwa [wf_binShift_force]
  · intro n s running left
    exact congrArg Host.Outcome.next (histDone_last running left)

end Sys2Proof.Machine

namespace Sys2Proof.Machine

/-! # Line lanes and containers -/

/-! ## The framing registers and the port tables where an access has been accepted -/

section
variable (n : Fin 8)

theorem frmLaneCtrl_low : FRM_LANE_CTRL n < 0x40300000 := by simp only [FRM_LANE_CTRL]; omega
theorem frmLaneStatus_low : FRM_LANE_STATUS n < 0x40300000 := by simp only [FRM_LANE_STATUS]; omega
theorem frmTctr_low {c : Nat} (h : c < 128) : FRM_TCTR n c < 0x40300000 := by simp only [FRM_TCTR]; omega
theorem frmRctr_low {c : Nat} (h : c < 128) : FRM_RCTR n c < 0x40300000 := by simp only [FRM_RCTR]; omega

end

/-- What is asked of the listed registers below the router's is answered as before an access. -/
theorem any_regs_request {p : Nat × Word → Bool} (low : ∀ e, p e = true → e.1 < 0x40300000) (q : Rq) (a : Nat) (s : State) :
    (request q a s).regs.any p = s.regs.any p := by
  have lowOnly : ∀ t : State, t.regs.any p = t.lowRegs.any p := fun t => by
    rw [State.lowRegs, List.any_filter]
    refine List.any_congr rfl fun e => ?_
    by_cases h : p e = true
    · simp [h, low e h]
    · simp [h]
  rw [lowOnly, lowOnly, lowRegs_request]

section
variable (q : Rq) (a : Nat) (s : State)

theorem all_range_congr {n : Nat} {p r : Nat → Bool} (h : ∀ i < n, p i = r i) : (List.range n).all p = (List.range n).all r := by
  rw [Bool.eq_iff_iff]
  simp only [List.all_eq_true, List.mem_range]
  exact forall₂_congr fun i hi => by rw [h i hi]

theorem ctrListed_request (n : Nat) : ctrListed n (request q a s) = ctrListed n s := by
  refine any_regs_request (fun e he => ?_) q a s
  simp only [Bool.and_eq_true, Bool.or_eq_true, decide_eq_true_eq] at he
  simp only [BND_PIN, BND_POUT] at he
  omega

theorem ctrNamed_request (rx : Bool) (n : Nat) (c : Option Nat) : ctrNamed rx n c (request q a s) = ctrNamed rx n c s :=
  portAny_request (by cases rx <;> decide) _ q a s

theorem ctrWord_request (rx : Bool) (n : Fin 8) {c : Nat} (h : c < 128) : ctrWord rx n c (request q a s) = ctrWord rx n c s := by
  cases rx
  · exact rd_request_low (frmTctr_low n h)
  · exact rd_request_low (frmRctr_low n h)

theorem dirLoad_request (rx : Bool) (n : Fin 8) : dirLoad rx n (request q a s) = dirLoad rx n s :=
  congrArg List.sum (List.map_congr_left fun c hc => by rw [ctrWord_request q a s rx n (List.mem_range.1 hc)])

theorem txState_request (n : Fin 8) : txState n (request q a s) = txState n s := get_request_low (frmLaneStatus_low n)

theorem on_laneUp_request (n : Fin 8) : (request q a s).on (FRM_LANE_CTRL_up n) = s.on (FRM_LANE_CTRL_up n) :=
  on_request_low (frmLaneCtrl_low n)

theorem laneMap_request (n : Fin 8) : (request q a s).get (FRM_LANE_CTRL_map n) = s.get (FRM_LANE_CTRL_map n) :=
  get_request_low (frmLaneCtrl_low n)

theorem txMode_request : (request q a s).get CRP_PLL_CTRL_tx_mode = s.get CRP_PLL_CTRL_tx_mode := get_request_low (by decide)

theorem hostGroup_request (h : Nat) : hostGroup h (request q a s) = hostGroup h s := by
  have group : ∀ n ∈ List.range 8, laneGroup n (request q a s) = laneGroup n s := fun n hn => by
    have lane : n < 8 := List.mem_range.1 hn
    simp only [laneGroup, on_laneUp_request q a s ⟨n, lane⟩, laneMap_request q a s ⟨n, lane⟩, request_frm]
  unfold hostGroup
  rw [← List.head?_filterMap, ← List.head?_filterMap, List.filterMap_congr fun n hn => by rw [group n hn]]

theorem groupSize_le {lineMode hostMode g : Nat} (h : groupSize lineMode hostMode = some g) : g ≤ 4 := by
  unfold groupSize at h
  split at h <;> cases h <;> decide

/-- The host lanes' modes and groups are registers of the host side and of the line lanes. -/
theorem groupOk_request (mode : Nat) {h : Nat} (first : h < 8) : groupOk mode h (request q a s) = groupOk mode h s := by
  have hostMode : ∀ j ≤ 4, (request q a s).get (HOST_CTRL_mode (h + j)) = s.get (HOST_CTRL_mode (h + j)) := fun j hj =>
    get_request_low (by simp only [HOST_CTRL_mode, HOST_CTRL]; omega)
  have own := hostMode 0 (by decide)
  simp only [groupOk, Nat.add_zero] at own ⊢
  rw [own]
  split
  · next g size =>
    have small := groupSize_le size
    congr 1
    refine all_range_congr fun j hj => ?_
    rw [hostMode j (by omega), hostGroup_request]
  · rfl

end
/-! ## Lane control (R116, R120 to R123) -/

section
variable {n : Nat} {w : Word} {s : State}

theorem wrLaneCtrl_range (h : wf w (FRM_LANE_CTRL_map n) = 3 ∨ 2 ≤ wf w (FRM_LANE_CTRL_mode n)) :
    wrLaneCtrl n w s = s.ret .range := by
  simp only [wrLaneCtrl, h, if_true]

theorem wrLaneCtrl_changed (map : wf w (FRM_LANE_CTRL_map n) ≠ 3) (mode : wf w (FRM_LANE_CTRL_mode n) < 2)
    (up : s.on (FRM_LANE_CTRL_up n) = true) (chg : laneCfgChg n w s = true) : wrLaneCtrl n w s = s.ret .state := by
  simp [wrLaneCtrl, map, Nat.not_le.2 mode, up, chg]

/-- A lane leaves the radio mapping only where no port entry names a container of it (R21). -/
theorem map_not_refused (free : s.get (FRM_LANE_CTRL_map n) = 2 → wf w (FRM_LANE_CTRL_map n) = 2 ∨ ctrListed n s = false) :
    (decide (s.get (FRM_LANE_CTRL_map n) = 2) && decide (wf w (FRM_LANE_CTRL_map n) ≠ 2) && ctrListed n s) = false := by
  by_cases radio : s.get (FRM_LANE_CTRL_map n) = 2
  · rcases free radio with h | h <;> simp [h]
  · simp [radio]

/-- A lane that is down comes up with a map and a mode that it may have, that fit the clock, and whose host group is legal. -/
theorem wrLaneCtrl_up (down : s.on (FRM_LANE_CTRL_up n) = false) (up : wf w (FRM_LANE_CTRL_up n) = 1)
    (map : wf w (FRM_LANE_CTRL_map n) = 1 ∨ (wf w (FRM_LANE_CTRL_map n) = 2 ∧ wf w (FRM_LANE_CTRL_mode n) = 0))
    (mode : wf w (FRM_LANE_CTRL_mode n) = 0 ∨ (wf w (FRM_LANE_CTRL_mode n) = 1 ∧ wf w (FRM_LANE_CTRL_outer n) = 1))
    (free : s.get (FRM_LANE_CTRL_map n) = 2 → wf w (FRM_LANE_CTRL_map n) = 2 ∨ ctrListed n s = false)
    (clock : wf w (FRM_LANE_CTRL_mode n) = s.get CRP_PLL_CTRL_tx_mode)
    (group : wf w (FRM_LANE_CTRL_map n) = 1 → groupOk (wf w (FRM_LANE_CTRL_mode n)) (wf w (FRM_LANE_CTRL_hgrp n)) s = true) :
    wrLaneCtrl n w s = (laneUp n (s.store (FRM_LANE_CTRL n) FRM_LANE_CTRL_fs w)).ret .done := by
  have known : ¬(wf w (FRM_LANE_CTRL_map n) = 3 ∨ 2 ≤ wf w (FRM_LANE_CTRL_mode n)) := by omega
  have allowed : (decide (wf w (FRM_LANE_CTRL_map n) = 0) || (decide (wf w (FRM_LANE_CTRL_mode n) = 1) &&
      (decide (wf w (FRM_LANE_CTRL_map n) = 2) || decide (wf w (FRM_LANE_CTRL_outer n) = 0)))) = false := by
    simp only [Bool.or_eq_false_iff, Bool.and_eq_false_iff, decide_eq_false_iff_not]
    omega
  have served : (decide (wf w (FRM_LANE_CTRL_map n) = 1) &&
      !groupOk (wf w (FRM_LANE_CTRL_mode n)) (wf w (FRM_LANE_CTRL_hgrp n)) s) = false := by
    by_cases eth : wf w (FRM_LANE_CTRL_map n) = 1
    · simp [group eth]
    · simp [eth]
  simp only [wrLaneCtrl, if_neg known, down, up, allowed, map_not_refused free, served, ← clock]
  simp

/-- A lane that is up goes down where its configuration stays as it is and its transmitter is silent. -/
theorem wrLaneCtrl_down (was : s.on (FRM_LANE_CTRL_up n) = true) (down : wf w (FRM_LANE_CTRL_up n) ≠ 1)
    (map : wf w (FRM_LANE_CTRL_map n) ≠ 3) (mode : wf w (FRM_LANE_CTRL_mode n) < 2) (same : laneCfgChg n w s = false)
    (silent : txState n s = 0 ∨ txState n s = 5) :
    wrLaneCtrl n w s = (laneDown n (s.store (FRM_LANE_CTRL n) FRM_LANE_CTRL_fs w)).ret .done := by
  have known : ¬(wf w (FRM_LANE_CTRL_map n) = 3 ∨ 2 ≤ wf w (FRM_LANE_CTRL_mode n)) := by omega
  have kept : wf w (FRM_LANE_CTRL_map n) = s.get (FRM_LANE_CTRL_map n) := by
    simp only [laneCfgChg, Bool.or_eq_false_iff, State.chg, decide_eq_false_iff_not, not_not] at same
    obtain ⟨⟨⟨⟨kept, -⟩, -⟩, -⟩, -⟩ := same
    exact kept
  have loud : ∀ b, (b && decide (txState n s ≠ 0) && decide (txState n s ≠ 5)) = false := fun b => by
    rcases silent with h | h <;> simp [h]
  simp only [wrLaneCtrl, if_neg known, was, down, same, loud, map_not_refused fun h => .inl (kept.trans h)]
  simp

/-- A lane that stays down takes the fields. -/
theorem wrLaneCtrl_stays (down : s.on (FRM_LANE_CTRL_up n) = false) (stays : wf w (FRM_LANE_CTRL_up n) = 0)
    (map : wf w (FRM_LANE_CTRL_map n) ≠ 3) (mode : wf w (FRM_LANE_CTRL_mode n) < 2)
    (free : s.get (FRM_LANE_CTRL_map n) = 2 → wf w (FRM_LANE_CTRL_map n) = 2 ∨ ctrListed n s = false) :
    wrLaneCtrl n w s = (s.store (FRM_LANE_CTRL n) FRM_LANE_CTRL_fs w).ret .done := by
  have known : ¬(wf w (FRM_LANE_CTRL_map n) = 3 ∨ 2 ≤ wf w (FRM_LANE_CTRL_mode n)) := by omega
  simp only [wrLaneCtrl, if_neg known, down, stays, map_not_refused free]
  simp

end

section
variable (q : Rq) (a : Nat) (n : Fin 8) (w : Word) (v : Nat) (s : State)

theorem wf_laneUp_force : wf (force w (FRM_LANE_CTRL_up n) v) (FRM_LANE_CTRL_up n) = v % 2 := fieldOf_putField w 0 1 v (by decide)

theorem wf_laneMap_force : wf (force w (FRM_LANE_CTRL_up n) v) (FRM_LANE_CTRL_map n) = wf w (FRM_LANE_CTRL_map n) :=
  fieldOf_putField_ne w 0 1 v 1 2 (by decide) (by decide)

theorem wf_laneMode_force : wf (force w (FRM_LANE_CTRL_up n) v) (FRM_LANE_CTRL_mode n) = wf w (FRM_LANE_CTRL_mode n) :=
  fieldOf_putField_ne w 0 1 v 3 2 (by decide) (by decide)

theorem wf_laneOuter_force : wf (force w (FRM_LANE_CTRL_up n) v) (FRM_LANE_CTRL_outer n) = wf w (FRM_LANE_CTRL_outer n) :=
  fieldOf_putField_ne w 0 1 v 5 1 (by decide) (by decide)

theorem wf_laneHgrp_force : wf (force w (FRM_LANE_CTRL_up n) v) (FRM_LANE_CTRL_hgrp n) = wf w (FRM_LANE_CTRL_hgrp n) :=
  fieldOf_putField_ne w 0 1 v 8 3 (by decide) (by decide)

theorem wf_hgrp_lt : wf w (FRM_LANE_CTRL_hgrp n) < 8 := Nat.mod_lt _ (Nat.two_pow_pos 3)

theorem wf_laneSkewRef_force : wf (force w (FRM_LANE_CTRL_up n) v) (FRM_LANE_CTRL_skew_ref n) = wf w (FRM_LANE_CTRL_skew_ref n) :=
  fieldOf_putField_ne w 0 1 v 12 3 (by decide) (by decide)

theorem laneCfgChg_request : laneCfgChg n w (request q a s) = laneCfgChg n w s := by
  have chg : ∀ f : Fd, f.a = FRM_LANE_CTRL n → (request q a s).chg w f = s.chg w f := fun f hf =>
    chg_request_low (hf.trans_lt (frmLaneCtrl_low n))
  simp only [laneCfgChg, chg (FRM_LANE_CTRL_map n) rfl, chg (FRM_LANE_CTRL_mode n) rfl, chg (FRM_LANE_CTRL_outer n) rfl,
    chg (FRM_LANE_CTRL_hgrp n) rfl, chg (FRM_LANE_CTRL_skew_ref n) rfl]

/-- The bit that takes the lane up or down is no part of its configuration. -/
theorem laneCfgChg_force : laneCfgChg n (force w (FRM_LANE_CTRL_up n) v) s = laneCfgChg n w s := by
  simp only [laneCfgChg, State.chg, wf_laneMap_force, wf_laneMode_force, wf_laneOuter_force, wf_laneHgrp_force, wf_laneSkewRef_force]

end

/-! ## The containers' control words (R129, R130) -/

section
variable {rx : Bool} {n c : Nat} {w : Word} {s : State}

theorem wrCtr_range (rate : 6 ≤ ctrRate w) : wrCtr rx n c w s = s.ret .range := by
  simp only [wrCtr, rate, decide_true, Bool.true_or, if_true]

/-- A write that no refusal meets: what is stored, which containers start empty, and the load. -/
theorem wrCtr_stored (rate : ctrRate w < 6) (depth : rx = true → wf w (FRM_RCTR_po_depth n c) ≠ 0)
    (unnamed : ctrNamed rx n (some c) s = false)
    (fits : dirLoad rx n s - wordLoad (ctrWord rx n c s) + wordLoad w ≤ 1279 * loadUnit) :
    wrCtr rx n c w s =
      (let t := s.store (if rx then FRM_RCTR n c else FRM_TCTR n c) (if rx then FRM_RCTR_fs else FRM_TCTR_fs) w
       loadRefresh rx n (if ctrEn w = true ∧ (ctrEn (ctrWord rx n c s) = false ∨ ctrRate w ≠ ctrRate (ctrWord rx n c s) ∨
         ctrFmt w ≠ ctrFmt (ctrWord rx n c s)) then ctrFresh rx n c t else t)).ret .done := by
  have valid : (decide (6 ≤ ctrRate w) || (rx && decide (wf w (FRM_RCTR_po_depth n c) = 0))) = false := by
    cases rx <;> simp [rate, depth]
  have starts : (ctrEn w && (!ctrEn (ctrWord rx n c s) || (decide (ctrRate w ≠ ctrRate (ctrWord rx n c s)) ||
      decide (ctrFmt w ≠ ctrFmt (ctrWord rx n c s))))) = true ↔ ctrEn w = true ∧ (ctrEn (ctrWord rx n c s) = false ∨
      ctrRate w ≠ ctrRate (ctrWord rx n c s) ∨ ctrFmt w ≠ ctrFmt (ctrWord rx n c s)) := by simp
  simp only [wrCtr, valid, unnamed, Nat.not_lt.2 fits, starts]
  cases rx <;> simp

end

/-! ## Blocks towards the line (R126, R201) -/

/-- Two changes that agree on the element that they meet are one. -/
theorem upd_congr {α : Type} [Inhabited α] {l : List α} {i : Nat} {f g : α → α} (h : f (nth l i) = g (nth l i)) :
    upd l i f = upd l i g := by
  induction l generalizing i with
  | nil => rfl
  | cons x t ih =>
    cases i with
    | zero => exact congrArg (· :: t) h
    | succ i => exact congrArg (x :: ·) (ih h)

section
variable {n c blk : Nat} {s : State}

/-- The blocks that wait in transmit container c of lane n are put as given. -/
abbrev putTxWait (n c : Nat) (wait : List Nat) (s : State) : State :=
  updFrm n (fun f => { f with txc := upd f.txc c fun x => { x with wait := wait } }) s

/-- A change of the blocks that wait depends on those that wait now. -/
theorem updTxWait_eq_put (g : List Nat → List Nat) (n c : Nat) (s : State) :
    updFrm n (fun f => { f with txc := upd f.txc c fun x => { x with wait := g x.wait } }) s =
      putTxWait n c (g (nth (nth s.frm n).txc c).wait) s := by
  have same : upd (nth s.frm n).txc c (fun x => { x with wait := g x.wait }) =
      upd (nth s.frm n).txc c fun x => { x with wait := g (nth (nth s.frm n).txc c).wait } := upd_congr rfl
  refine congrArg (fun l => { s with frm := l }) (upd_congr ?_)
  simp only [same]

theorem containerBlockIn_none (h : portBlockOut n c s = none ∨ ctrEn (ctrWord false n c s) = false) :
    containerBlockIn n c s = s := by
  unfold containerBlockIn
  split
  · rfl
  · next blk out =>
    rcases h with none | off
    · exact absurd (out.symm.trans none) (by simp)
    · simp [off]

theorem containerBlockIn_queued (out : portBlockOut n c s = some blk) (en : ctrEn (ctrWord false n c s) = true)
    (room : (nth (nth s.frm n).txc c).wait.length < 4) :
    containerBlockIn n c s = putTxWait n c ((nth (nth s.frm n).txc c).wait ++ [blk]) s := by
  rw [← updTxWait_eq_put (· ++ [blk])]
  simp only [containerBlockIn, out, en, Nat.not_le.2 room, decide_false, Bool.false_eq_true, if_false, if_true]

theorem containerBlockIn_full (out : portBlockOut n c s = some blk) (en : ctrEn (ctrWord false n c s) = true)
    (full : (nth (nth s.frm n).txc c).wait.length = 4) :
    containerBlockIn n c s =
      frmEvt n 5 (frmCount n 9 1 (putTxWait n c ((nth (nth s.frm n).txc c).wait.drop 1 ++ [blk]) s)) := by
  rw [← updTxWait_eq_put (fun l => l.drop 1 ++ [blk])]
  simp only [containerBlockIn, out, en, full, le_refl, decide_true, if_true]

theorem portBlockOut_port {p : Nat} {e : Word} (free : bndHeld s = false) (port : ctrPort false n c s = some (p, e)) :
    portBlockOut n c s = some (encodeBlock (ctrFmt (ctrWord false n c s)) (portRun p s)) := by
  simp only [portBlockOut, free, port, Bool.false_eq_true, if_false, Option.map_some]

theorem portBlockOut_held (held : bndHeld s = true) (zero : s.bndZero.contains (n, c) = true) : portBlockOut n c s = some 0 := by
  simp only [portBlockOut, held, zero, if_true]

end

/-! ## Cells received (R124, R127, R128) -/

/-- A run of bits within a run. -/
theorem bitsAt_within (v lo w k m : Nat) (h : k + m ≤ w) : bitsAt v lo w / 2 ^ k % 2 ^ m = bitsAt v (lo + k) m := by
  refine Nat.eq_of_testBit_eq fun i => ?_
  simp only [bitsAt, Nat.testBit_mod_two_pow, Nat.testBit_div_two_pow]
  by_cases hi : i < m
  · simp only [hi, show i + k < w by omega, decide_true, Bool.true_and]
    congr 1
    omega
  · simp [hi]

/-- The header of a cell: valid, container, format and sequence number. -/
theorem cellHeader_fields (v lo : Nat) :
    bitsAt v lo 20 % 2 = bitsAt v lo 1 ∧ bitsAt v lo 20 / 2 % 128 = bitsAt v (lo + 1) 7 ∧
      bitsAt v lo 20 / 256 % 4 = bitsAt v (lo + 8) 2 ∧ bitsAt v lo 20 / 1024 % 256 = bitsAt v (lo + 10) 8 :=
  ⟨by simpa using bitsAt_within v lo 20 0 1 (by decide), bitsAt_within v lo 20 1 7 (by decide),
    bitsAt_within v lo 20 8 2 (by decide), bitsAt_within v lo 20 10 8 (by decide)⟩

section
variable {n size : Nat} {s : State}

/-- The next cell or idle word, of the size that its header gives, lies in groups that have been decoded and are not discarded. -/
theorem rxCell_taken (active : rsActive n s = true) (map : s.get (FRM_LANE_CTRL_map n) = 2) (pay : (nth s.frm n).pay.len = 87040)
    (hsize : size = if bitsAt (nth s.frm n).msg (64 * (nth s.frm n).word) 1 = 0 then 1
      else cellWords (bitsAt (nth s.frm n).msg (64 * (nth s.frm n).word + 8) 2))
    (within : (nth s.frm n).word < 1285 ∧ (nth s.frm n).word + size ≤ 1285)
    (first : groupDone (nth s.frm n) (groupOf (64 * (nth s.frm n).word)) = true)
    (last : groupDone (nth s.frm n) (groupOf (64 * ((nth s.frm n).word + size) - 1)) = true)
    (kept : groupOf (64 * ((nth s.frm n).word + size) - 1) < (nth s.frm n).skip) :
    rxCell n s =
      (let t := updFrm n (fun f => { f with word := f.word + size }) s
       let c := bitsAt (nth s.frm n).msg (64 * (nth s.frm n).word + 1) 7
       let fmt := bitsAt (nth s.frm n).msg (64 * (nth s.frm n).word + 8) 2
       if bitsAt (nth s.frm n).msg (64 * (nth s.frm n).word) 1 = 1 ∧ ctrEn (ctrWord true n c s) = true then
         rxBlock n c fmt (bitsAt (nth s.frm n).msg (64 * (nth s.frm n).word + 10) 8)
           (bitsAt (nth s.frm n).msg (64 * (nth s.frm n).word + 20) (blockBits fmt)) t
       else t) := by
  obtain ⟨hv, hc, hf, hq⟩ := cellHeader_fields (nth s.frm n).msg (64 * (nth s.frm n).word)
  have runs : ¬((!rsActive n s) = true ∨ s.get (FRM_LANE_CTRL_map n) ≠ 2 ∨ (nth s.frm n).pay.len ≠ 87040 ∨
      1285 ≤ (nth s.frm n).word ∨ (!groupDone (nth s.frm n) (groupOf (64 * (nth s.frm n).word))) = true ∨
      (!groupDone (nth s.frm n) (groupOf (64 * ((nth s.frm n).word + size) - 1))) = true) := by
    simp [active, map, pay, first, last, within.1]
  have given : ¬((nth s.frm n).skip ≤ groupOf (64 * ((nth s.frm n).word + size) - 1) ∨ 1285 < (nth s.frm n).word + size) := by
    omega
  have same : ctrWord true n (bitsAt (nth s.frm n).msg (64 * (nth s.frm n).word + 1) 7)
    (updFrm n (fun f => { f with word := f.word + size }) s) =
      ctrWord true n (bitsAt (nth s.frm n).msg (64 * (nth s.frm n).word + 1) 7) s := rfl
  simp only [rxCell, hv, hc, hf, hq, ← hsize, if_neg runs, if_neg given, same, Bool.and_eq_true, decide_eq_true_eq]

end

/-! ## Play-out (R127) -/

section
variable {n c : Nat} {s : State}

theorem playoutTick_filled (en : ctrEn (ctrWord true n c s) = true) (up : s.on (FRM_LANE_CTRL_up n) = true)
    (map : s.get (FRM_LANE_CTRL_map n) = 2) (runs : bandRuns s = true) (filled : (nth (nth s.frm n).rxc c).filled = true) :
    playoutTick n c s = playBlock n c s := by
  simp only [playoutTick, en, up, map, runs, filled, decide_true, Bool.and_self, if_true]

theorem playoutTick_fills (en : ctrEn (ctrWord true n c s) = true) (up : s.on (FRM_LANE_CTRL_up n) = true)
    (map : s.get (FRM_LANE_CTRL_map n) = 2) (runs : bandRuns s = true) (filling : (nth (nth s.frm n).rxc c).filled = false)
    (depth : s.get (FRM_RCTR_po_depth n c) ≤ (nth (nth s.frm n).rxc c).wait.length) :
    playoutTick n c s =
      playBlock n c (updFrm n (fun f => { f with rxc := upd f.rxc c fun x => { x with filled := true } }) s) := by
  simp only [playoutTick, en, up, map, runs, filling, depth, decide_true, Bool.and_self, Bool.false_eq_true, if_false, if_true]

end

/-- Settles O10: a write of FRM_LANE_CTRL or of a container's word is judged in the state that has accepted it, in which the lane, its
host group, the containers and the ports are as before; what a block, a cell and a play-out instant do, the lemma of the function says. -/
theorem lanesAndContainers : Obligations.LanesAndContainers := by
  unfold Obligations.LanesAndContainers
  refine ⟨?_, ?_, ?_, ?_, ?_, ?_, ?_, ?_, ?_, ?_, ?_, ?_, ?_, ?_, ?_⟩
  · intro q n w s sent down map mode free clock group
    refine congrArg Host.Outcome.next (gated_uncounted sent (wrLaneCtrl_up ?_ (wf_laneUp_force n w 1) ?_ ?_ ?_ ?_ ?_) (.inl rfl))
    · rwa [on_laneUp_request]
    · rwa [wf_laneMap_force, wf_laneMode_force]
    · rwa [wf_laneMode_force, wf_laneOuter_force]
    · rwa [laneMap_request, wf_laneMap_force, ctrListed_request]
    · rwa [wf_laneMode_force, txMode_request]
    · rwa [wf_laneMap_force, wf_laneMode_force, wf_laneHgrp_force, groupOk_request _ _ _ _ (wf_hgrp_lt n w)]
  · intro q n w s sent up map mode same silent
    refine congrArg Host.Outcome.next (gated_uncounted sent (wrLaneCtrl_down ?_ ?_ ?_ ?_ ?_ ?_) (.inl rfl))
    · rwa [on_laneUp_request]
    · rw [wf_laneUp_force]
      decide
    · rwa [wf_laneMap_force]
    · rwa [wf_laneMode_force]
    · rwa [laneCfgChg_request, laneCfgChg_force]
    · rwa [txState_request]
  · intro q n w s sent down stays map mode free
    refine congrArg Host.Outcome.next (gated_uncounted sent (wrLaneCtrl_stays ?_ stays map mode ?_) (.inl rfl))
    · rwa [on_laneUp_request]
    · rwa [laneMap_request, ctrListed_request]
  · intro q n w s sent up map mode chg
    refine congrArg Host.Outcome.next (gated_counted sent (wrLaneCtrl_changed map mode ?_ ?_) rfl)
    · rwa [on_laneUp_request]
    · rwa [laneCfgChg_request]
  · intro q n w s sent reserved
    exact congrArg Host.Outcome.next (gated_uncounted sent (wrLaneCtrl_range reserved) (.inr (.inr (.inr rfl))))
  · intro q n rx c w s sent rate depth unnamed fits
    have word := ctrWord_request q (if rx then FRM_RCTR n c else FRM_TCTR n c) s rx n c.isLt
    have load := dirLoad_request q (if rx then FRM_RCTR n c else FRM_TCTR n c) s rx n
    have stored := wrCtr_stored (s := request q (if rx then FRM_RCTR n c else FRM_TCTR n c) s) rate depth
      ((ctrNamed_request ..).trans unnamed) (by rwa [word, load])
    rw [word] at stored
    exact congrArg Host.Outcome.next (gated_uncounted sent stored (.inl rfl))
  · intro q n rx c w s sent rate
    exact congrArg Host.Outcome.next (gated_uncounted sent (wrCtr_range rate) (.inr (.inr (.inr rfl))))
  · intro n c p e s free port en room
    exact congrArg Host.Outcome.next (containerBlockIn_queued (portBlockOut_port free port) en room)
  · intro n c p e s free port en full
    exact congrArg Host.Outcome.next (containerBlockIn_full (portBlockOut_port free port) en full)
  · intro n c s held zero en room
    refine congrArg Host.Outcome.next ((containerBlockIn_queued (portBlockOut_held held zero) en room).trans ?_)
    exact (updTxWait_eq_put (· ++ [0]) n c s).symm
  · intro n c s none
    exact congrArg Host.Outcome.next (containerBlockIn_none none)
  · rintro n g s active map pay cell rfl within first last kept en
    have words : 0 < cellWords (bitsAt (nth s.frm n).msg (64 * (nth s.frm n).word + 8) 2) := by
      unfold cellWords
      split <;> decide
    refine congrArg Host.Outcome.next ((rxCell_taken active map pay ?_ ⟨by omega, within⟩ first last kept).trans ?_)
    · rw [cell]
      rfl
    · simp only [cell, en, and_self, if_true]
  · intro n s active map pay room idle first last kept
    refine congrArg Host.Outcome.next ((rxCell_taken active map pay ?_ ⟨room, room⟩ first last kept).trans ?_)
    · rw [idle]
      rfl
    · simp only [idle, zero_ne_one, false_and, if_false]
  · intro n c s en up map runs filled
    exact congrArg Host.Outcome.next (playoutTick_filled en up map runs filled)
  · intro n c s en up map runs filling depth
    exact congrArg Host.Outcome.next (playoutTick_fills en up map runs filling depth)

end Sys2Proof.Machine

namespace Sys2Proof.Machine

/-! # Line frames -/

/-! ## Frames received (R116) -/

/-- A part of a lane's framing that a change leaves alone. -/
theorem frm_updFrm_keeps {α : Type} (p : Frm → α) {n m : Nat} {f : Frm → Frm} {s : State} (h : ∀ x, p (f x) = p x) :
    p (nth (updFrm m f s).frm n) = p (nth s.frm n) := by
  simp only [updFrm, nth_upd]
  split
  · next e => rw [h, e.1]
  · rfl

theorem frm_forN {k : Nat} {f : Nat → State → State} {s : State} (h : ∀ i t, (f i t).frm = t.frm) : (forN k f s).frm = s.frm :=
  List.foldlRecOn (motive := fun t : State => t.frm = s.frm) (List.range k) (fun t i => f i t) rfl fun t ht i _ => (h i t).trans ht

theorem frm_skewEval (m : Nat) (s : State) : (skewEval m s).frm = s.frm := by
  unfold skewEval
  dsimp only
  split
  · split <;> rfl
  · rfl

theorem frm_frmEvt (n b : Nat) (s : State) : (frmEvt n b s).frm = s.frm := raise_frm ..

theorem bad_takeRot (n m mf rot : Nat) (s : State) : (nth (takeRot m mf rot s).frm n).bad = (nth s.frm n).bad := by
  have seen : ∀ i t, (nth (updFrm m (fun f => { f with seen := upd f.seen i fun _ => true }) t).frm n).bad = (nth t.frm n).bad :=
    fun i t => frm_updFrm_keeps Frm.bad fun _ => rfl
  unfold takeRot
  extract_lets mark t
  have kept : (nth t.frm n).bad = (nth s.frm n).bad := by
    unfold t mark
    split
    · exact seen ..
    · exact seen ..
    · exact seen ..
    · rfl
  split
  · exact kept
  · exact kept

/-- The overhead leaves the count of frames with a bad align word alone. -/
theorem bad_takeOverhead (n m : Nat) (blk : BitVec 170) (arr : Int) (s : State) :
    (nth (takeOverhead m blk arr s).frm n).bad = (nth s.frm n).bad := by
  unfold takeOverhead
  split
  · dsimp only
    rw [frm_forN fun i t => by split <;> simp only [frm_skewEval]]
    refine Eq.trans (frm_updFrm_keeps Frm.bad ?_) (bad_takeRot ..)
    exact fun _ => rfl
  · dsimp only
    rw [frm_frmEvt, frmCount]
    refine Eq.trans (frm_updFrm_keeps Frm.bad ?_) (frm_updFrm_keeps Frm.bad ?_)
    · exact fun _ => rfl
    · exact fun _ => rfl

section
variable {n : Nat} {arr : Int} {s : State}

/-- The first frame period of the bits that the detector has delivered, and its overhead block. -/
abbrev rxPeriod (n : Nat) (s : State) : Soft := (nth s.frm n).rx.part 0 frameBits
abbrev rxOverhead (n : Nat) (s : State) : BitVec 170 := BitVec.ofNat 170 (rxPeriod n s).bits

theorem rxFrame_short (short : (nth s.frm n).rx.len < frameBits) : rxFrame n arr s = s := by
  simp only [rxFrame, Nat.not_le.2 short, and_false, if_false]

section
variable (live : s.get (LANE_DET_STATUS_state n) = 2 ∨ s.get (LANE_DET_STATUS_state n) = 3) (full : frameBits ≤ (nth s.frm n).rx.len)
include live full

theorem rxFrame_hunt (state : fstate n s = 1) : rxFrame n arr s = rxHunt n s := by
  simp only [rxFrame, live, full, and_self, if_true, state]

theorem rxFrame_confirm (state : fstate n s = 2) : rxFrame n arr s = rxConfirm n (rxOverhead n s) (rxTake n frameBits s) := by
  simp only [rxFrame, live, full, and_self, if_true, state]

theorem rxFrame_aligned (state : fstate n s = 3) : rxFrame n arr s = rxAligned n (rxPeriod n s) arr (rxTake n frameBits s) := by
  simp only [rxFrame, live, full, and_self, if_true, state]

end

theorem rxHunt_found {p : Nat} (found : findAlign (nth s.frm n).rx.bits frameBits 0 = some p)
    (full : p + frameBits ≤ (nth s.frm n).rx.len) : rxHunt n s = setFstate n 2 (rxTake n (p + frameBits) s) := by
  simp only [rxHunt, found, full, if_true]

theorem rxConfirm_second {blk : BitVec 170} (aligned : alignDiff blk = 0) (conf : (nth s.frm n).conf = 1) :
    rxConfirm n blk s = frmEvt n 0 (setFstate n 3 s) := by
  simp only [rxConfirm, aligned, conf, if_true, one_ne_zero, if_false]

theorem rxConfirm_miss {blk : BitVec 170} (miss : 0 < alignDiff blk) : rxConfirm n blk s = setFstate n 1 s := by
  simp only [rxConfirm, Nat.ne_of_gt miss, if_false]

theorem rxAligned_good {fr : Soft} (good : alignDiff (BitVec.ofNat 170 fr.bits) ≤ 2) :
    rxAligned n fr arr s = updFrm n (fun f => { f with bad := 0 })
      (takePayload n (fr.part 170 87040) (takeOverhead n (BitVec.ofNat 170 fr.bits) arr s)) := by
  simp only [rxAligned, good, if_true]

theorem rxAligned_lost {fr : Soft} (wrong : 2 < alignDiff (BitVec.ofNat 170 fr.bits)) (third : (nth s.frm n).bad = 3) :
    rxAligned n fr arr s = frameLost n (takeOverhead n (BitVec.ofNat 170 fr.bits) arr s) := by
  simp only [rxAligned, Nat.not_le.2 wrong, if_false, bad_takeOverhead, third, if_true]

theorem puncturePhaseAdvance_misses (state : fstate n s = 1) (detect : s.get (LANE_DET_STATUS_state n) = 2)
    (misses : 4 ≤ (nth s.frm n).miss) :
    puncturePhaseAdvance n s = updFrm n (fun f => { f with miss := 0 })
      (s.set (FRM_LANE_STATUS_pphase n) (s.get (FRM_LANE_STATUS_pphase n) + 1)) := by
  simp only [puncturePhaseAdvance, state, detect, misses, and_self, if_true, State.incMod]

end

/-! ## Outer decoding and its window (R109 to R111, R136) -/

section
variable {n g k : Nat} {s : State}

/-- Codeword k of group g is counted among the decoded ones, its erasures among the erased symbols. -/
abbrev rsTaken (n g k erased : Nat) (s : State) : State :=
  frmCount n 3 erased (updFrm n (fun f => { f with decoded := f.decoded ++ [4 * g + k] }) s)

/-- The corrected codeword v stands in its place. -/
abbrev rsPut (n g k : Nat) (v : List Nat) (s : State) : State :=
  updFrm n (fun f => { f with msg := putMsg f.msg g k (v.take 514) }) s

/-- The erasures that R109 marks in codeword k of group g. -/
abbrev rxMarks (n g k : Nat) (s : State) : List Nat :=
  erasures (s.on (FRM_FEC_CTRL_era_en n)) (s.get (FRM_FEC_CTRL_era_thr n)) (s.get (FRM_FEC_CTRL_era_max n)) (rxRel (nth s.frm n).pay g k)

theorem rsDecode_inactive (h : rsActive n s = false) : rsDecode n g k s = s := by
  simp only [rsDecode, h, Bool.false_and, Bool.false_eq_true, if_false]

section
variable (active : rsActive n s = true) (pay : (nth s.frm n).pay.len = 87040)
  (fresh : (nth s.frm n).decoded.contains (4 * g + k) = false)
include active pay fresh

/-- The decoding with erasures stands where it succeeds; whether it saved the codeword, the one without them says. -/
theorem rsDecode_aided {v : List Nat} (aided : rsDecodeWord (rxMarks n g k s) (rxWord (nth s.frm n).pay g k) = some v) :
    rsDecode n g k s = rsCorrected n (rsDiffer (rxWord (nth s.frm n).pay g k) v).length
      (rsDecodeWord [] (rxWord (nth s.frm n).pay g k)).isNone (rsPut n g k v (rsTaken n g k (rxMarks n g k s).length s)) := by
  simp only [rsDecode, active, pay, fresh, rsBoth, aided, decide_true, Bool.not_false, Bool.and_self, if_true, Option.orElse_some]

theorem rsDecode_unaided {v : List Nat} (aided : rsDecodeWord (rxMarks n g k s) (rxWord (nth s.frm n).pay g k) = none)
    (unaided : rsDecodeWord [] (rxWord (nth s.frm n).pay g k) = some v) :
    rsDecode n g k s = rsCorrected n (rsDiffer (rxWord (nth s.frm n).pay g k) v).length false
      (rsPut n g k v (rsTaken n g k (rxMarks n g k s).length s)) := by
  simp only [rsDecode, active, pay, fresh, rsBoth, aided, unaided, decide_true, Bool.not_false, Bool.and_self, if_true,
    Option.orElse_none, Option.isNone_some]

theorem rsDecode_fails (aided : rsDecodeWord (rxMarks n g k s) (rxWord (nth s.frm n).pay g k) = none)
    (unaided : rsDecodeWord [] (rxWord (nth s.frm n).pay g k) = none) :
    rsDecode n g k s = rsFailed n g k (rsTaken n g k (rxMarks n g k s).length s) := by
  simp only [rsDecode, active, pay, fresh, rsBoth, aided, unaided, decide_true, Bool.not_false, Bool.and_self, if_true,
    Option.orElse_none]

end

theorem fecWindowEnd_degrades (above : s.get (FRM_FEC_CTRL_deg_thr n) * 4096 < (nth s.frm n).degSum)
    (was : s.on (FRM_LANE_STATUS_degraded n) = false) :
    fecWindowEnd n s =
      frmEvt n 7 ((updFrm n (fun f => { f with degSum := 0 }) s).set (FRM_LANE_STATUS_degraded n) 1) := by
  simp only [fecWindowEnd, above, was, decide_true, Bool.true_eq_false, if_false, Bool.toNat_true]

theorem fecWindowEnd_sound (within : (nth s.frm n).degSum ≤ s.get (FRM_FEC_CTRL_deg_thr n) * 4096)
    (was : s.on (FRM_LANE_STATUS_degraded n) = false) : fecWindowEnd n s = updFrm n (fun f => { f with degSum := 0 }) s := by
  simp only [fecWindowEnd, Nat.not_lt.2 within, was, decide_false, if_true]

/-! ## Transmit squelch (R131 to R133) -/

theorem txEnable_starts (state : txState n s = 0) (up : s.on (FRM_LANE_CTRL_up n) = true)
    (dac : s.on (LANE_TX_CTRL_dac_en n) = true) : txEnable n s = txNow n 1 .done (rampStart n 1 s) := by
  simp only [txEnable, state, up, dac, Bool.and_self, if_true]

theorem txEnable_waits (state : txState n s = 3) :
    txEnable n s = (setTx n 4 (((s.set (FRM_TX_RESULT_outcome n) Code.held.n).set (FRM_TX_RESULT_op n) 1).set
      (FRM_TX_RESULT_reason n) 0)).ret .held := by
  simp only [txEnable, state]

theorem txEnable_forced (state : txState n s = 5) : txEnable n s = txNow n 1 .guard s := by
  simp only [txEnable, state]

theorem txSquelch_starts (state : txState n s = 2) : txSquelch n s = txNow n 2 .done (rampStart n 3 s) := by
  simp only [txSquelch, state]

theorem txSquelch_silent (state : txState n s = 0 ∨ txState n s = 3) : txSquelch n s = txNow n 2 .done s := by
  rcases state with state | state <;> simp only [txSquelch, state]

theorem squelchStep_stopped (stopped : txRuns s = false) : squelchStep n s = s := by
  simp only [squelchStep, stopped, Bool.not_false, if_true]

theorem squelchStep_rises (runs : txRuns s = true) (state : txState n s = 1) (below : s.get (FRM_LANE_STATUS_gain n) < 255) :
    squelchStep n s = s.set (FRM_LANE_STATUS_gain n) (s.get (FRM_LANE_STATUS_gain n) + 1) := by
  have unfinished : s.get (FRM_LANE_STATUS_gain n) + 1 ≠ 256 := by omega
  simp only [squelchStep, runs, state, unfinished, Bool.not_true, Bool.false_eq_true, if_false]

theorem squelchStep_opens (runs : txRuns s = true) (state : txState n s = 1) (top : s.get (FRM_LANE_STATUS_gain n) = 255) :
    squelchStep n s = frmEvt n 6 (setTx n 2 (s.set (FRM_LANE_STATUS_gain n) 256)) := by
  simp only [squelchStep, runs, state, top, Bool.not_true, Bool.false_eq_true, if_false, if_true]

theorem squelchStep_closes (runs : txRuns s = true) (state : txState n s = 3) (last : s.get (FRM_LANE_STATUS_gain n) = 1) :
    squelchStep n s = frmEvt n 6 (setTx n 0 (s.set (FRM_LANE_STATUS_gain n) 0)) := by
  simp only [squelchStep, runs, state, last, Bool.not_true, Bool.false_eq_true, if_false, le_refl, if_true]

/-! ## Counters (R135) -/

theorem wrCntCmd_snap : wrCntCmd n 1 s = (updFrm n (fun f => { f with cnt := List.replicate 11 0 })
    (forN 11 (fun i t => t.wr (FRM_CNT_CORR_SYM n + 4 * i) (BitVec.ofNat 32 (nth (nth s.frm n).cnt i))) s)).ret .done := by
  have snap : wf 1 (FRM_CNT_CMD_snap n) = 1 := by
    change fieldOf 1 0 1 = 1
    decide
  simp only [wrCntCmd, snap, if_true, frmSnap]

end

/-! ## Frames sent (R104, R112, R114) -/

/-- What a frame's crate bytes take changes the fabric's state alone. -/
theorem crateBlock_snk (n : Nat) (s : State) : ∃ k, (crateBlock n s).1 = { s with snk := k } := by
  have taken : ∃ k, linkTake n s = { s with snk := k } := by
    unfold linkTake
    dsimp only
    split
    · exact ⟨_, rfl⟩
    · split
      · exact ⟨_, rfl⟩
      · exact ⟨_, rfl⟩
  obtain ⟨k, eq⟩ := taken
  unfold crateBlock
  dsimp only
  split
  · exact ⟨_, rfl⟩
  · split
    · exact ⟨_, rfl⟩
    · split
      · exact ⟨_, rfl⟩
      · rw [eq]
        exact ⟨_, rfl⟩

/-- What a frame takes of the host side changes the host side's state alone. -/
theorem hostTake_host (n more : Nat) (s : State) : ∃ h, (hostTake n more s).2 = { s with host := h } := by
  unfold hostTake
  split
  · split <;> exact ⟨_, rfl⟩
  · exact ⟨_, rfl⟩

theorem laneFrame_frm (n : Nat) (host : Option Nat) (valid start : Bool) (payload : List Byte) (s : State) :
    ∃ f, laneFrame n host valid start payload s = { s with frm := f } := by
  unfold laneFrame
  dsimp only
  split <;> exact ⟨_, rfl⟩

/-- The frame of lane n starts, where the lane is up and native. -/
def laneStart (host : List Nat) (n : Nat) (s : State) : State :=
  let r := crateBlock n s
  let p := hostTake n (nth host n) r.1
  laneFrame n p.1 r.2.2.1 r.2.2.2 r.2.1 p.2

/-- Whether lane n starts a frame with the others: it is up and native, and FRM is not fenced. -/
def laneSends (n : Nat) (s : State) : Bool :=
  s.on (FRM_LANE_CTRL_up n) && decide (s.get (FRM_LANE_CTRL_mode n) = 0) && !blkHeld 16 s

/-- The next frame number has been taken. -/
abbrev nextFrame (s : State) : State := { s with frameNo := (s.frameNo + 1) % 65536 }

theorem laneStart_parts (host : List Nat) (n : Nat) (s : State) :
    ∃ k h f, laneStart host n s = { s with snk := k, host := h, frm := f } := by
  unfold laneStart
  extract_lets r p
  obtain ⟨f, hf⟩ := laneFrame_frm n p.1 r.2.2.1 r.2.2.2 r.2.1 p.2
  obtain ⟨h, hh⟩ := hostTake_host n (nth host n) r.1
  obtain ⟨k, hk⟩ := crateBlock_snk n s
  refine ⟨k, h, f, ?_⟩
  rw [hf, hh, hk]

theorem laneSends_laneStart (host : List Nat) (m n : Nat) (s : State) : laneSends m (laneStart host n s) = laneSends m s := by
  obtain ⟨k, h, f, eq⟩ := laneStart_parts host n s
  rw [eq]
  rfl

theorem frameNo_laneStart (host : List Nat) (n : Nat) (s : State) : (laneStart host n s).frameNo = s.frameNo := by
  obtain ⟨k, h, f, eq⟩ := laneStart_parts host n s
  rw [eq]

theorem txFrameStart_runs {host : List Nat} {s : State} (runs : txRuns s = true) :
    txFrameStart host s = forN 8 (fun n t => if laneSends n t = true then laneStart host n t else t) (nextFrame s) := by
  have sends : ∀ n t, laneSends n t = true ↔
      t.on (FRM_LANE_CTRL_up n) = true ∧ t.get (FRM_LANE_CTRL_mode n) = 0 ∧ (!blkHeld 16 t) = true := by
    simp [laneSends, and_assoc]
  simp only [txFrameStart, runs, sends, Bool.not_true, Bool.false_eq_true, if_false]
  rfl

/-- The tap of a frame changes the cellar's state alone. -/
theorem frameNo_celFrame (n : Nat) (s : State) : (celFrame n s).frameNo = s.frameNo := by
  have add : ∀ t f u, (celAdd t f u).frameNo = u.frameNo := fun t f u => by
    unfold celAdd
    split <;> rfl
  unfold celFrame
  split
  · split
    · exact add ..
    · rfl
  · split
    · rfl
    · refine List.foldlRecOn (motive := fun t : State => t.frameNo = s.frameNo) _ _ rfl fun t ht c _ => ?_
      dsimp only
      split
      · split
        · exact (add ..).trans ht
        · exact ht
      · exact ht

theorem txFrames_stopped {host : List Nat} {s : State} (stopped : txRuns s = false) : txFrames host s = s := by
  simp [txFrames, txFrameStart, stopped]

theorem frameNo_txFrames {host : List Nat} {s : State} (runs : txRuns s = true) :
    (txFrames host s).frameNo = (s.frameNo + 1) % 65536 := by
  have started : (txFrameStart host s).frameNo = (s.frameNo + 1) % 65536 := by
    rw [txFrameStart_runs runs]
    refine List.foldlRecOn (motive := fun t : State => t.frameNo = (s.frameNo + 1) % 65536) _ _ rfl fun t ht n _ => ?_
    dsimp only
    split
    · exact (frameNo_laneStart ..).trans ht
    · exact ht
  exact List.foldlRecOn (motive := fun t : State => t.frameNo = (s.frameNo + 1) % 65536) _ _ started fun t ht n _ =>
    (frameNo_celFrame n t).trans ht

theorem forN_add (a b : Nat) (f : Nat → State → State) (s : State) :
    forN (a + b) f s = forN b (fun i => f (a + i)) (forN a f s) := by
  simp only [forN, List.range_add, List.foldl_append, List.foldl_map]

/-- A loop in which one pass alone changes its state. -/
theorem forN_single {k n : Nat} {f : Nat → State → State} {s : State} (h : n < k) (before : ∀ m < n, f m s = s)
    (after : ∀ m, n < m → m < k → f m (f n s) = f n s) : forN k f s = f n s := by
  obtain ⟨d, rfl⟩ := Nat.exists_eq_add_of_le h
  have first : forN n.succ f s = f n s := by
    rw [Nat.succ_eq_add_one, forN_add, forN_fixed before]
    rfl
  rw [forN_add, first]
  exact forN_fixed fun i hi => after _ (by omega) (by omega)

theorem filter_lanes_single : ∀ n : Fin 8, (List.range 8).filter (fun m => decide (m = n.val)) = [n.val] := by decide

/-- One lane alone sends: its frame and its tap. -/
theorem txFrames_single {host : List Nat} {n : Fin 8} {s : State} (runs : txRuns s = true)
    (only : ∀ m < 8, laneSends m s = decide (m = n.val)) :
    txFrames host s = celFrame n (laneStart host n (nextFrame s)) := by
  have start : txFrameStart host s = laneStart host n (nextFrame s) := by
    have sends : ∀ m < 8, laneSends m (nextFrame s) = decide (m = n.val) := only
    rw [txFrameStart_runs runs, forN_single n.isLt]
    · simp [sends n n.isLt]
    · intro m hm
      simp [sends m (by omega), Nat.ne_of_lt hm]
    · intro m hn hm
      simp [sends n n.isLt, laneSends_laneStart, sends m hm, Nat.ne_of_gt hn]
  have up : (List.range 8).filter (fun n => txRuns s && s.on (FRM_LANE_CTRL_up n) &&
      decide (s.get (FRM_LANE_CTRL_mode n) = 0) && !blkHeld 16 s) = [n.val] := by
    rw [← filter_lanes_single n]
    refine List.filter_congr fun m hm => ?_
    rw [← only m (List.mem_range.1 hm), runs]
    rfl
  simp only [txFrames, up, start, List.foldl_cons, List.foldl_nil]

theorem laneSends_down {m : Nat} {s : State} (down : s.on (FRM_LANE_CTRL_up m) = false) : laneSends m s = false := by
  simp only [laneSends, down, Bool.false_and]

theorem laneSends_up {n : Nat} {s : State} (up : s.on (FRM_LANE_CTRL_up n) = true) (mode : s.get (FRM_LANE_CTRL_mode n) = 0)
    (free : blkHeld 16 s = false) : laneSends n s = true := by
  simp only [laneSends, up, mode, free, decide_true, Bool.not_false, Bool.and_self]

/-- A lane that is up, native and not fenced sends alone where the others are down. -/
theorem laneSends_only {n : Fin 8} {s : State} (up : s.on (FRM_LANE_CTRL_up n) = true) (mode : s.get (FRM_LANE_CTRL_mode n) = 0)
    (free : blkHeld 16 s = false) (down : ∀ m : Fin 8, m ≠ n → s.on (FRM_LANE_CTRL_up m) = false) :
    ∀ m < 8, laneSends m s = decide (m = n.val) := by
  intro m hm
  by_cases same : m = n.val
  · rw [same, laneSends_up up mode free, decide_eq_true rfl]
  · rw [laneSends_down (down ⟨m, hm⟩ fun e => same (congrArg Fin.val e)), decide_eq_false same]

/-- The overhead block reads the frame number and registers. -/
theorem ohBlock_crateBlock (n : Nat) (valid start : Bool) (payload : List Byte) (s : State) :
    ohBlock n (crateBlock n s).1.frameNo valid start payload (crateBlock n s).1 = ohBlock n s.frameNo valid start payload s := by
  obtain ⟨k, eq⟩ := crateBlock_snk n s
  rw [eq]
  rfl

/-- A radio lane's frame: its cells, of the containers as they are. -/
theorem laneStart_radio {host : List Nat} {n : Nat} {s : State} (map : s.get (FRM_LANE_CTRL_map n) = 2) :
    laneStart host n s =
      (let r := crateBlock n s
       let f := fillCells (fun c => ctrEn (ctrWord false n c s)) (fun c => ctrFmt (ctrWord false n c s)) 428 0 0
         { nth s.frm n with cells := [] }
       sendFrame n (ohBlock n s.frameNo r.2.2.1 r.2.2.2 r.2.1 s) (payloadOf f.1) (updFrm n (fun _ => f.2) r.1)) := by
  obtain ⟨k, eq⟩ := crateBlock_snk n s
  have map' : (crateBlock n s).1.get (FRM_LANE_CTRL_map n) = 2 := by rw [eq]; exact map
  have none : hostTake n (nth host n) (crateBlock n s).1 = (none, (crateBlock n s).1) := by
    simp [hostTake, laneGroup, map']
  have word : ∀ c, ctrWord false n c (crateBlock n s).1 = ctrWord false n c s := fun c => by rw [eq]; rfl
  have frm : (crateBlock n s).1.frm = s.frm := by rw [eq]
  simp only [laneStart, none, laneFrame, map', if_true, ohBlock_crateBlock, word, frm]

/-- The frame of a lane that is mapped otherwise: what its host side gives. -/
theorem laneStart_host {host : List Nat} {n : Nat} {s : State} (map : s.get (FRM_LANE_CTRL_map n) ≠ 2) :
    laneStart host n s =
      (let r := crateBlock n s
       let p := hostTake n (nth host n) r.1
       sendFrame n (ohBlock n s.frameNo r.2.2.1 r.2.2.2 r.2.1 s) (ethPayload n p.1 s) (updFrm n (fun f => { f with cells := [] }) p.2)) := by
  obtain ⟨k, hk⟩ := crateBlock_snk n s
  obtain ⟨h, hh⟩ := hostTake_host n (nth host n) (crateBlock n s).1
  have same : (hostTake n (nth host n) (crateBlock n s).1).2.get (FRM_LANE_CTRL_map n) = s.get (FRM_LANE_CTRL_map n) := by
    rw [hh, hk]
    rfl
  have oh : ∀ valid start payload, ohBlock n (hostTake n (nth host n) (crateBlock n s).1).2.frameNo valid start payload
      (hostTake n (nth host n) (crateBlock n s).1).2 = ohBlock n s.frameNo valid start payload s := fun _ _ _ => by
    rw [hh, hk]
    rfl
  have pay : ∀ v, ethPayload n v (hostTake n (nth host n) (crateBlock n s).1).2 = ethPayload n v s := fun _ => by
    rw [hh, hk]
    rfl
  simp only [laneStart, laneFrame, same, if_neg map, oh, pay]

/-- Settles O11: a command is judged in the state that has accepted its write, in which the lane is as before; what a frame, a codeword,
a window and a step of the ramp do, the lemma of the function says, and a frame that starts leaves registers and the next frame number alone. -/
theorem lineFrames : Obligations.LineFrames := by
  unfold Obligations.LineFrames
  refine ⟨?_, ?_, ?_, ?_, ?_, ?_, ?_, ?_, ?_, ?_, ?_, ?_, ?_, ?_, ?_, ?_, ?_, ?_, ?_, ?_, ?_, ?_, ?_, ?_, ?_⟩
  · intro n arr s short
    exact congrArg Host.Outcome.next (rxFrame_short short)
  · intro n arr p s live state found full
    exact congrArg Host.Outcome.next ((rxFrame_hunt live (Nat.le_of_add_left_le full) state).trans (rxHunt_found found full))
  · intro n arr s live full state align conf
    refine congrArg Host.Outcome.next ((rxFrame_confirm live full state).trans (rxConfirm_second align ?_))
    refine Eq.trans (frm_updFrm_keeps Frm.conf ?_) conf
    exact fun _ => rfl
  · intro n arr s live full state miss
    exact congrArg Host.Outcome.next ((rxFrame_confirm live full state).trans (rxConfirm_miss miss))
  · intro n arr s live full state good
    exact congrArg Host.Outcome.next ((rxFrame_aligned live full state).trans (rxAligned_good good))
  · intro n arr s live full state wrong third
    refine congrArg Host.Outcome.next ((rxFrame_aligned live full state).trans (rxAligned_lost wrong ?_))
    refine Eq.trans (frm_updFrm_keeps Frm.bad ?_) third
    exact fun _ => rfl
  · intro n s state detect misses
    exact congrArg Host.Outcome.next (puncturePhaseAdvance_misses state detect misses)
  · intro n g k s active pay fresh
    refine congrArg Host.Outcome.next (?_ : rsDecode n g k s = _)
    dsimp only
    split
    · next v o aided => exact rsDecode_aided active pay fresh aided
    · next v aided unaided => exact rsDecode_unaided active pay fresh aided unaided
    · next aided unaided => exact rsDecode_fails active pay fresh aided unaided
  · intro n g k s inactive
    exact congrArg Host.Outcome.next (rsDecode_inactive inactive)
  · intro n s above was
    exact congrArg Host.Outcome.next (fecWindowEnd_degrades above was)
  · intro n s within was
    exact congrArg Host.Outcome.next (fecWindowEnd_sound within was)
  · intro q n s sent state up dac
    refine congrArg Host.Outcome.next (gated_uncounted sent (txEnable_starts ((txState_request ..).trans state) ?_ ?_) (.inl rfl))
    · rwa [on_laneUp_request]
    · rwa [on_request_low (f := LANE_TX_CTRL_dac_en n) (laneTxCtrl_low n)]
  · intro q n s sent state
    exact congrArg Host.Outcome.next
      (gated_uncounted sent (txEnable_waits ((txState_request ..).trans state)) (.inr (.inl rfl)))
  · intro q n s sent state
    exact congrArg Host.Outcome.next (gated_counted sent (txEnable_forced ((txState_request ..).trans state)) rfl)
  · intro q n s sent state
    exact congrArg Host.Outcome.next (gated_uncounted sent (txSquelch_starts ((txState_request ..).trans state)) (.inl rfl))
  · intro q n s sent state
    refine congrArg Host.Outcome.next (gated_uncounted sent (txSquelch_silent ?_) (.inl rfl))
    rwa [txState_request]
  · intro n s runs state below
    exact congrArg Host.Outcome.next (squelchStep_rises runs state below)
  · intro n s runs state top
    exact congrArg Host.Outcome.next (squelchStep_opens runs state top)
  · intro n s runs state last
    exact congrArg Host.Outcome.next (squelchStep_closes runs state last)
  · intro n s stopped
    exact congrArg Host.Outcome.next (squelchStep_stopped stopped)
  · intro q n s sent
    have snap := wrCntCmd_snap (n := n.val) (s := request q (FRM_CNT_CMD n) s)
    rw [request_frm] at snap
    exact congrArg Host.Outcome.next (gated_uncounted sent snap (.inl rfl))
  · intro host s runs
    exact ⟨_, rfl, frameNo_txFrames runs⟩
  · intro host s stopped
    exact congrArg Host.Outcome.next (txFrames_stopped stopped)
  · intro host n s runs up mode map free _ down
    refine congrArg Host.Outcome.next ((txFrames_single runs (laneSends_only up mode free down)).trans ?_)
    exact congrArg (celFrame n) (laneStart_radio (s := nextFrame s) map)
  · intro host n s runs up mode map free _ down
    refine congrArg Host.Outcome.next ((txFrames_single runs (laneSends_only up mode free down)).trans ?_)
    exact congrArg (celFrame n) (laneStart_host (s := nextFrame s) map)

end Sys2Proof.Machine

namespace Sys2Proof.Machine

/-! # Host lanes -/

/-! ## The host lanes' registers and links where an access has been accepted -/

section
variable {n : Nat} (h : n < 8)
include h

theorem hostCtrl_low : HOST_CTRL n < 0x40300000 := by simp only [HOST_CTRL]; omega
theorem hostJesdRxCfg_low : HOST_JESD_RX_CFG n < 0x40300000 := by simp only [HOST_JESD_RX_CFG]; omega
theorem hostJesdTxCfg_low : HOST_JESD_TX_CFG n < 0x40300000 := by simp only [HOST_JESD_TX_CFG]; omega

variable (q : Rq) (a : Nat) (s : State)

theorem hostMode_request : hostMode n (request q a s) = hostMode n s := get_request_low (hostCtrl_low h)

theorem jesdRx_request : jesdRx n (request q a s) = jesdRx n s := by
  have field : ∀ lo w, (request q a s).get ⟨HOST_JESD_RX_CFG n, lo, w⟩ = s.get ⟨HOST_JESD_RX_CFG n, lo, w⟩ := fun _ _ =>
    get_request_low (hostJesdRxCfg_low h)
  simp only [jesdRx, HOST_JESD_RX_CFG_l_log, HOST_JESD_RX_CFG_m, HOST_JESD_RX_CFG_s_log, HOST_JESD_RX_CFG_rate,
    HOST_JESD_RX_CFG_e, field]

theorem jesdTx_request : jesdTx n (request q a s) = jesdTx n s := by
  have field : ∀ lo w, (request q a s).get ⟨HOST_JESD_TX_CFG n, lo, w⟩ = s.get ⟨HOST_JESD_TX_CFG n, lo, w⟩ := fun _ _ =>
    get_request_low (hostJesdTxCfg_low h)
  simp only [jesdTx, HOST_JESD_TX_CFG_l_log, HOST_JESD_TX_CFG_m, HOST_JESD_TX_CFG_s_log, HOST_JESD_TX_CFG_rate,
    HOST_JESD_TX_CFG_e, field]

end

theorem findSome?_range_congr {α : Type} {n : Nat} {f g : Nat → Option α} (h : ∀ i < n, f i = g i) :
    (List.range n).findSome? f = (List.range n).findSome? g := by
  rw [← List.head?_filterMap, ← List.head?_filterMap, List.filterMap_congr fun i hi => h i (List.mem_range.1 hi)]

/-- A link starts at one of the eight lanes. -/
theorem linkBy_first_lt {cfg : Nat → State → JesdCfg} {n : Nat} {s : State} {x : Nat × Nat} (h : linkBy cfg n s = some x) :
    x.1 < 8 := by
  obtain ⟨f, hf, hx⟩ := List.exists_of_findSome?_eq_some h
  dsimp only at hx
  split at hx
  · injection hx with hx
    exact hx ▸ List.mem_range.1 hf
  · cases hx

/-- The lanes of a link are among the eight. -/
theorem lt_of_mem_linkLanes {x : Nat × Nat} {j : Nat} (h : j ∈ linkLanes x) : j < 8 := of_decide_eq_true (List.mem_filter.1 h).2

section
variable {cfg : Nat → State → JesdCfg} {q : Rq} {a : Nat} {s : State} (same : ∀ f < 8, cfg f (request q a s) = cfg f s)
include same

theorem linkBy_request (n : Nat) : linkBy cfg n (request q a s) = linkBy cfg n s := by
  refine findSome?_range_congr fun f hf => ?_
  simp only [same f hf, hostMode_request hf]

theorem linkFits_request (n : Nat) : linkFits cfg n (request q a s) = linkFits cfg n s := by
  simp only [linkFits, linkBy_request same n]
  split
  · next f l link =>
    have modes : ((linkLanes (f, l)).all fun j => decide (hostMode j (request q a s) = 4)) =
        (linkLanes (f, l)).all fun j => decide (hostMode j s = 4) := by
      rw [Bool.eq_iff_iff]
      simp only [List.all_eq_true]
      exact forall₂_congr fun j hj => by rw [hostMode_request (lt_of_mem_linkLanes hj)]
    rw [same f (linkBy_first_lt link), modes]
  · rfl

end

section
variable (q : Rq) (a : Nat) (s : State) (n : Nat)

theorem linkOf_request : linkOf n (request q a s) = linkOf n s := linkBy_request (fun _ hf => jesdRx_request hf q a s) n

theorem linkTx_request : linkTx n (request q a s) = linkTx n s := linkBy_request (fun _ hf => jesdTx_request hf q a s) n

theorem linkOk_request : linkOk n (request q a s) = linkOk n s := by
  rw [linkOk, linkOk, linkFits_request (fun _ hf => jesdRx_request hf q a s),
    linkFits_request fun _ hf => jesdTx_request hf q a s]

end

/-! ## The mode write and the commands (R141, R142, R148, R150, R161) -/

section
variable {n : Nat} {s : State}

theorem wrHostCtrl_stored {w : Word} (mode : wf w (HOST_CTRL_mode n) ≤ 4) (amp : wf w (HOST_CTRL_amp n) ≤ 120)
    (off : s.chg w (HOST_CTRL_mode n) = true → hostState n s = 0 ∧ hostGroup n s = none) :
    wrHostCtrl n w s = (adaptRefresh n (s.store (HOST_CTRL n) HOST_CTRL_fs w)).ret .done := by
  have range : ¬(4 < wf w (HOST_CTRL_mode n) ∨ 120 < wf w (HOST_CTRL_amp n)) := by omega
  have allowed : (s.chg w (HOST_CTRL_mode n) && (decide (hostState n s ≠ 0) || (hostGroup n s).isSome)) = false := by
    cases chg : s.chg w (HOST_CTRL_mode n) with
    | false => rfl
    | true =>
      obtain ⟨state, group⟩ := off chg
      simp [state, group]
  simp only [wrHostCtrl, if_neg range, allowed, Bool.false_eq_true, if_false]

theorem hostStart_busy (busy : (nth s.host n).cmd ≠ none) : hostStart n s = hostNow n 1 .state s := by
  simp only [hostStart, if_pos (Option.isSome_iff_ne_none.2 busy)]

section
variable (free : (nth s.host n).cmd = none)
include free

theorem hostStart_off (state : hostState n s = 0) (mode : hostMode n s ≠ 0) (plain : hostMode n s ≠ 4)
    (rx : s.on (HOST_CTRL_rx_en n) = true) (tx : s.on (HOST_CTRL_tx_en n) = true) : hostStart n s = hostHeld n 1 1 s := by
  simp [hostStart, free, state, mode, plain, rx, tx]

theorem hostStart_lost (state : hostState n s = 5) (plain : hostMode n s ≠ 4) : hostStart n s = hostHeld n 1 1 s := by
  simp [hostStart, free, state, plain]

theorem hostStart_illegalLink (state : hostState n s = 5) (converter : hostMode n s = 4) (link : linkOk n s = false) :
    hostStart n s = hostNow n 1 .range s := by
  simp [hostStart, free, state, converter, link]

theorem hostRetrain_trained (state : hostState n s = 4 ∨ hostState n s = 5)
    (mode : hostMode n s = 1 ∨ (hostMode n s = 2 ∧ s.on (HOST_CTRL_c2c n) = true)) : hostRetrain n s = hostHeld n 2 2 s := by
  simp only [hostRetrain, free, Option.isSome_none, Bool.false_eq_true, if_false, if_pos (And.intro state mode)]

theorem hostResync_ready (state : hostState n s = 4) (converter : hostMode n s = 4) : hostResync n s = hostHeld n 4 3 s := by
  simp [hostResync, free, state, converter]

end

theorem hostStop_running (state : hostState n s ≠ 0) :
    hostStop n s = hostNow n 3 .done (setHost n 0 (heldEnd n .aborted 1 s)) := by
  rw [hostStop, if_neg state]

theorem hostStop_off (state : hostState n s = 0) : hostStop n s = hostNow n 3 .done s := by
  rw [hostStop, if_pos state]

end

/-- Settles O12: a command is judged in the state that has accepted its write, in which the lane, its mode and its links are as before;
what it then does, the lemma of its function says. -/
theorem hostLaneCommands : Obligations.HostLaneCommands := by
  unfold Obligations.HostLaneCommands
  refine ⟨?_, ?_, ?_, ?_, ?_, ?_, ?_, ?_, ?_⟩
  · intro q n w s sent mode amp off
    refine congrArg Host.Outcome.next (gated_uncounted sent (wrHostCtrl_stored mode amp ?_) (.inl rfl))
    rwa [chg_request_low (f := HOST_CTRL_mode n) (hostCtrl_low n.isLt), hostState_request n.isLt, hostGroup_request]
  · intro q n s sent free state mode plain rx tx
    refine congrArg Host.Outcome.next (gated_uncounted sent (hostStart_off ?_ ?_ ?_ ?_ ?_ ?_) (.inr (.inl rfl)))
    · rwa [request_host]
    · rwa [hostState_request n.isLt]
    · rwa [hostMode_request n.isLt]
    · rwa [hostMode_request n.isLt]
    · rwa [on_request_low (f := HOST_CTRL_rx_en n) (hostCtrl_low n.isLt)]
    · rwa [on_request_low (f := HOST_CTRL_tx_en n) (hostCtrl_low n.isLt)]
  · intro q n s sent free state plain
    refine congrArg Host.Outcome.next (gated_uncounted sent (hostStart_lost ?_ ?_ ?_) (.inr (.inl rfl)))
    · rwa [request_host]
    · rwa [hostState_request n.isLt]
    · rwa [hostMode_request n.isLt]
  · intro q n s sent free state converter link
    refine congrArg Host.Outcome.next (gated_uncounted sent (hostStart_illegalLink ?_ ?_ ?_ ?_) (.inr (.inr (.inr rfl))))
    · rwa [request_host]
    · rwa [hostState_request n.isLt]
    · rwa [hostMode_request n.isLt]
    · rwa [linkOk_request]
  · intro q n s sent busy
    refine congrArg Host.Outcome.next (gated_counted sent (hostStart_busy ?_) rfl)
    rwa [request_host]
  · intro q n s sent free state mode
    refine congrArg Host.Outcome.next (gated_uncounted sent (hostRetrain_trained ?_ ?_ ?_) (.inr (.inl rfl)))
    · rwa [request_host]
    · rwa [hostState_request n.isLt]
    · rwa [hostMode_request n.isLt, on_request_low (f := HOST_CTRL_c2c n) (hostCtrl_low n.isLt)]
  · intro q n s sent state
    refine congrArg Host.Outcome.next (gated_uncounted sent (hostStop_running ?_) (.inl rfl))
    rwa [hostState_request n.isLt]
  · intro q n s sent state
    refine congrArg Host.Outcome.next (gated_uncounted sent (hostStop_off ?_) (.inl rfl))
    rwa [hostState_request n.isLt]
  · intro q n s sent free state converter
    refine congrArg Host.Outcome.next (gated_uncounted sent (hostResync_ready ?_ ?_ ?_) (.inr (.inl rfl)))
    · rwa [request_host]
    · rwa [hostState_request n.isLt]
    · rwa [hostMode_request n.isLt]

end Sys2Proof.Machine

namespace Sys2Proof.Machine

/-! ## What a host lane reads as after a change of another of its registers -/

section
variable {n m v : Nat} {f : Fd} {s : State}

theorem hostState_set (h : f.a ≠ HOST_STATUS n) : hostState n (s.set f v) = hostState n s := set_get_ne s h

theorem hostMode_set (h : f.a ≠ HOST_CTRL n) : hostMode n (s.set f v) = hostMode n s := set_get_ne s h

theorem hostState_updHost (g : HostL → HostL) : hostState n (updHost m g s) = hostState n s := rfl

/-- A lane of the list after a change of its own. -/
theorem nth_host_updHost (lane : n < s.host.length) (g : HostL → HostL) : nth (updHost n g s).host n = g (nth s.host n) := by
  simp only [updHost, nth_upd, lane, and_self, if_true]

theorem nth_host_updHost_out (out : s.host.length ≤ n) (g : HostL → HostL) : nth (updHost n g s).host n = default :=
  List.getD_eq_default _ _ ((upd_length s.host n g).trans_le out)

/-- A part of a lane beyond the registers that a change leaves alone. -/
theorem host_updHost_keeps {α : Type} (p : HostL → α) {g : HostL → HostL} (h : ∀ x, p (g x) = p x) :
    p (nth (updHost m g s).host n) = p (nth s.host n) := by
  simp only [updHost, nth_upd]
  split
  · next e => rw [h, e.1]
  · rfl

/-- A lane that is not as a lane of no list is one of the list. -/
theorem lt_of_host_ne {α : Type} {p : HostL → α} (h : p (nth s.host n) ≠ p default) : n < s.host.length := by
  by_contra out
  rw [nth, List.getD_eq_default _ _ (Nat.le_of_not_lt out)] at h
  exact h rfl

/-- Two changes of a lane that agree on the lane as it is are one. -/
theorem updHost_congr {g g' : HostL → HostL} (h : g (nth s.host n) = g' (nth s.host n)) : updHost n g s = updHost n g' s :=
  congrArg (fun l => { s with host := l }) (upd_congr h)

theorem updHost_updHost (g g' : HostL → HostL) : updHost n g' (updHost n g s) = updHost n (fun x => g' (g x)) s :=
  congrArg (fun l => { s with host := l }) (upd_upd s.host n g g')

end

/-! ## Lock, timeouts and loss (R148, R149) -/

section
variable {n : Nat} {s : State}

theorem hostLose_quiet {reason : Nat} {c : Code} (state : hostState n s ≠ 4) :
    hostLose n reason c s = heldEnd n c 0 ((setHost n 5 s).set (HOST_STATUS_lost_reason n) reason) := by
  simp only [hostLose, if_neg state]

theorem hostLose_ready {reason : Nat} {c : Code} (state : hostState n s = 4) :
    hostLose n reason c s = hostEvt n 1 (heldEnd n c 0 ((setHost n 5 s).set (HOST_STATUS_lost_reason n) reason)) := by
  simp only [hostLose, if_pos state]

theorem hostAcquireTimeout_acquire (state : hostState n s = 1) :
    hostAcquireTimeout n s = heldEnd n .timeout 0 ((setHost n 5 s).set (HOST_STATUS_lost_reason n) 2) := by
  rw [hostAcquireTimeout, if_pos state, hostLose_quiet (by omega)]

theorem trainTimeout_train (state : hostState n s = 2) :
    trainTimeout n s = heldEnd n .timeout 0 ((setHost n 5 s).set (HOST_STATUS_lost_reason n) 4) := by
  rw [trainTimeout, if_pos state, hostLose_quiet (by omega)]

theorem hostLaneLost_ready {reason : Nat} (state : hostState n s = 4) :
    hostLaneLost n reason s =
      hostEvt n 1 (heldEnd n .aborted 0 ((setHost n 5 s).set (HOST_STATUS_lost_reason n) reason)) := by
  rw [hostLaneLost, if_pos state, hostLose_ready state]

/-- The state in which ACQUIRE has found its lock. -/
abbrev lockTaken (n snr : Nat) (s : State) : State := (updHost n (fun h => { h with shLock := true }) s).set (HOST_RX_EQ_snr n) snr

theorem hostRxEq_ne_hostCtrl (n : Nat) : HOST_RX_EQ n ≠ HOST_CTRL n := by simp only [HOST_RX_EQ, HOST_CTRL]; omega

theorem hostMode_lockTaken (snr : Nat) : hostMode n (lockTaken n snr s) = hostMode n s := hostMode_set (hostRxEq_ne_hostCtrl n)

theorem hostTrains_lockTaken (snr : Nat) : hostTrains n (lockTaken n snr s) = hostTrains n s := by
  have ctrl : ∀ lo w, (lockTaken n snr s).on ⟨HOST_CTRL n, lo, w⟩ = s.on ⟨HOST_CTRL n, lo, w⟩ := fun _ _ =>
    set_on_ne _ (hostRxEq_ne_hostCtrl n)
  simp only [hostTrains, hostMode_lockTaken, HOST_CTRL_train_en, HOST_CTRL_c2c, ctrl]

theorem hostLockAcquired_plain {snr : Nat} (runs : hostRuns s = true) (state : hostState n s = 1) (plain : hostMode n s ≠ 4) :
    hostLockAcquired n snr s =
      if hostTrains n s then setHost n 2 (lockTaken n snr s) else hostReady n false (lockTaken n snr s) := by
  rw [hostLockAcquired, if_pos ⟨state, runs⟩]
  simp only [hostMode_lockTaken, hostTrains_lockTaken, if_neg plain]

end

/-! ## Native training (R151 to R153) -/

section
variable {n : Nat} {s : State}

theorem trainingFrameRx_outside {mark : Bool} {ctl sts snr : Nat} (state : hostState n s ≠ 2) :
    trainingFrameRx n mark ctl sts snr s = s := by
  rw [trainingFrameRx, if_neg fun h => state h.1]

/-- The state in which a training frame's marker has been judged. -/
abbrev frameMarked (n : Nat) (mark : Bool) (snr : Nat) (s : State) : State := trainMark n mark (s.set (HOST_RX_EQ_snr n) snr)

theorem sendsReady_set_snr (snr : Nat) : sendsReady n (s.set (HOST_RX_EQ_snr n) snr) = sendsReady n s := by
  have apart : (HOST_RX_EQ_snr n).a ≠ HOST_TRAIN_REQ n := by simp only [HOST_RX_EQ_snr, HOST_RX_EQ, HOST_TRAIN_REQ]; omega
  simp only [sendsReady, set_rd_ne s apart, set_host]

theorem gotReady_frameMarked (mark : Bool) (snr : Nat) :
    (nth (frameMarked n mark snr s).host n).gotReady = (nth s.host n).gotReady :=
  host_updHost_keeps HostL.gotReady fun _ => rfl

/-- A frame whose marker gives no third one in a row: only the marker counts. -/
theorem trainingFrameRx_unlocked {mark : Bool} {ctl sts snr : Nat} (runs : hostRuns s = true) (state : hostState n s = 2)
    (waits : (nth s.host n).gotReady = false) (few : (nth (frameMarked n mark snr s).host n).marks ≠ 3) :
    trainingFrameRx n mark ctl sts snr s = frameMarked n mark snr s := by
  rw [trainingFrameRx, if_pos ⟨state, runs⟩]
  simp only [if_neg few, gotReady_frameMarked, waits, Bool.false_and, Bool.false_eq_true, if_false]

/-- A frame with its marker in place where two have not come yet, or one that starts the count again. -/
theorem frameMarked_short {mark : Bool} {snr : Nat} (short : mark = false ∨ (nth s.host n).marks < 2) :
    frameMarked n mark snr s =
      updHost n (fun h => { h with
        marks := if mark then h.marks + 1 else 1, ctlRep := if mark then h.ctlRep else 0, stsRep := if mark then h.stsRep else 0
        sent := h.sent + 1, sentReady := if sendsReady n s then min 3 (h.sentReady + 1) else 0 })
        (s.set (HOST_RX_EQ_snr n) snr) := by
  have least : (if mark then min 3 ((nth s.host n).marks + 1) else 1) = if mark then (nth s.host n).marks + 1 else 1 := by
    rcases short with rfl | few
    · rfl
    · rw [Nat.min_eq_right (by omega)]
  refine updHost_congr ?_
  simp only [set_host, sendsReady_set_snr, least]

theorem marks_frameMarked {mark : Bool} {snr : Nat} (short : mark = false ∨ (nth s.host n).marks < 2) :
    (nth (frameMarked n mark snr s).host n).marks ≠ 3 := by
  rw [frameMarked_short short]
  by_cases lane : n < s.host.length
  · rw [nth_host_updHost (s := s.set (HOST_RX_EQ_snr n) snr) lane]
    rcases short with rfl | few
    · simp
    · cases mark <;> simp only [set_host, Bool.false_eq_true, if_false, if_true] <;> omega
  · rw [nth_host_updHost_out (s := s.set (HOST_RX_EQ_snr n) snr) (Nat.not_lt.1 lane)]
    decide

/-- The state after a frame sent, where the received one has its marker in place once more. -/
abbrev frameSent (n snr : Nat) (s : State) : State :=
  updHost n (fun h => { h with
    sent := h.sent + 1, sentReady := if sendsReady n s then min 3 (h.sentReady + 1) else 0 }) (s.set (HOST_RX_EQ_snr n) snr)

theorem frameMarked_locked {snr : Nat} (marks : (nth s.host n).marks = 3) : frameMarked n true snr s = frameSent n snr s := by
  have third : min 3 ((nth s.host n).marks + 1) = (nth s.host n).marks := by omega
  refine updHost_congr ?_
  simp only [set_host, sendsReady_set_snr, third, if_true]

/-- Fields that come for the first time since the count began. -/
theorem reps_trainFields {ctl sts : Nat} (lane : n < s.host.length) (ctlRep : (nth s.host n).ctlRep = 0)
    (stsRep : (nth s.host n).stsRep = 0) :
    (nth (trainFields n ctl sts s).host n).ctlRep = 1 ∧ (nth (trainFields n ctl sts s).host n).stsRep = 1 := by
  rw [trainFields, nth_host_updHost lane]
  simp [ctlRep, stsRep]

/-- A frame of a locked exchange whose fields come for the first time: they are counted and nothing is acted on. -/
theorem trainingFrameRx_fresh {ctl sts snr : Nat} (runs : hostRuns s = true) (state : hostState n s = 2)
    (waits : (nth s.host n).gotReady = false) (marks : (nth s.host n).marks = 3) (ctlRep : (nth s.host n).ctlRep = 0)
    (stsRep : (nth s.host n).stsRep = 0) :
    trainingFrameRx n true ctl sts snr s = trainFields n ctl sts (frameSent n snr s) := by
  have lane : n < s.host.length := lt_of_host_ne (p := HostL.marks) (by rw [marks]; decide)
  have third : (nth (frameSent n snr s).host n).marks = 3 := Eq.trans (host_updHost_keeps HostL.marks fun _ => rfl) marks
  obtain ⟨once, once'⟩ := reps_trainFields (ctl := ctl) (sts := sts) (s := frameSent n snr s) ((upd_length ..).trans_gt lane)
    (Eq.trans (host_updHost_keeps HostL.ctlRep fun _ => rfl) ctlRep) (Eq.trans (host_updHost_keeps HostL.stsRep fun _ => rfl) stsRep)
  have unready : (nth (trainFields n ctl sts (frameSent n snr s)).host n).gotReady = false :=
    Eq.trans (host_updHost_keeps HostL.gotReady fun _ => rfl)
      (Eq.trans (host_updHost_keeps HostL.gotReady fun _ => rfl) waits)
  rw [trainingFrameRx, if_pos ⟨state, runs⟩]
  simp only [frameMarked_locked marks, third, once, once', unready, if_true, if_false, Bool.false_and, Bool.false_eq_true,
    OfNat.one_ne_ofNat]

theorem trainAutoReady_unwritten (state : hostState n s = 2) (unwritten : (nth s.host n).wrote = false) :
    trainAutoReady n s = updHost n (fun h => { h with auto := true }) s := by
  simp [trainAutoReady, state, unwritten]

theorem wrTrainReq_train {w : Word} (state : hostState n s = 2) :
    wrTrainReq n w s =
      (updHost n (fun h => { h with wrote := true, auto := false }) (s.store (HOST_TRAIN_REQ n) HOST_TRAIN_REQ_fs w)).ret .done := by
  rw [wrTrainReq, if_pos state]

theorem wrTrainReq_outside {w : Word} (state : hostState n s ≠ 2) : wrTrainReq n w s = s.ret .state := by
  rw [wrTrainReq, if_neg state]

end

/-! ## The transmit FIR (R154) -/

theorem hostTxFir_low {n k : Nat} (lane : n < 8) (tap : k < 5) : HOST_TX_FIR n k < 0x40300000 := by
  simp only [HOST_TX_FIR]; omega

theorem hostTaps_request {n : Nat} (lane : n < 8) (q : Rq) (a : Nat) (s : State) : hostTaps n (request q a s) = hostTaps n s :=
  List.map_congr_left fun _ hk => geti_request_low q a s (hostTxFir_low lane (List.mem_range.1 hk))

section
variable {n k : Nat} {w : Word} {s : State}

theorem wrHostFir_waits (chg : s.chg w (HOST_TX_FIR_value n k) = true)
    (limits : tapsOk (upd (hostTaps n s) k fun _ => sgn 7 (wf w (HOST_TX_FIR_value n k))) = true) (state : hostState n s ≠ 2) :
    wrHostFir n k w s =
      (updHost n (fun h => { h with firPend := true }) (s.store (HOST_TX_FIR n k) HOST_TX_FIR_fs w)).ret .done := by
  simp only [wrHostFir, chg, limits, if_neg state, Bool.not_true, Bool.false_eq_true, if_false, if_true]

theorem wrHostFir_range (chg : s.chg w (HOST_TX_FIR_value n k) = true)
    (limits : tapsOk (upd (hostTaps n s) k fun _ => sgn 7 (wf w (HOST_TX_FIR_value n k))) = false) :
    wrHostFir n k w s = s.ret .range := by
  simp only [wrHostFir, chg, limits, Bool.not_false, if_true]

theorem hostTxFirApply_pending (runs : hostRuns s = true) (pending : (nth s.host n).firPend = true) :
    hostTxFirApply n s = updHost n (fun h => { h with firPend := false })
      (forN 5 (fun k t => t.set (HOST_TX_FIR_active n k) (t.get (HOST_TX_FIR_value n k))) s) := by
  rw [hostTxFirApply, if_pos ⟨pending, runs⟩]

end

/-! ## Groups (R144, R145) -/

/-- A group whose lanes are all READY in one mode records its skew and the numbers in its markers. -/
theorem hostGroupAlign_ready {n size skewPs : Nat} {ids : List Nat} {s : State} (runs : hostRuns s = true)
    (sizes : size = 1 ∨ size = 2 ∨ size = 4) (first : n % size = 0) (low : 1 ≤ hostMode n s) (high : hostMode n s ≤ 3)
    (lanes : ∀ j < size, hostMode (n + j) s = hostMode n s ∧ hostState (n + j) s = 4) :
    hostGroupAlign n size ids skewPs s =
      (let ok := decide (skewPs ≤ 32000) && markersOk (hostMode n s) size ids
       updHost n (fun h => { h with grp := if ok then size else 0, ids := ids })
         (((fecQuiet n size (forN size (fun j t => groupBreak (n + j) t) s)).set (HOST_STATUS_grp_skew n)
           (if skewPs ≤ 32000 then 0 else 1)).set (HOST_STATUS_grp_aligned n) ok.toNat)) := by
  have ready : ((List.range size).all fun j => decide (hostMode (n + j) s = hostMode n s) && decide (hostState (n + j) s = 4)) =
      true := by
    rw [List.all_eq_true]
    intro j hj
    simp [lanes j (List.mem_range.1 hj)]
  have within : (!decide (32000 < skewPs)) = decide (skewPs ≤ 32000) :=
    decide_not.symm.trans (decide_eq_decide.2 Nat.not_lt)
  have wide : (decide (32000 < skewPs)).toNat = if skewPs ≤ 32000 then 0 else 1 := by
    by_cases h : skewPs ≤ 32000
    · simp [h, Nat.not_lt.2 h]
    · simp [h, Nat.not_le.1 h]
  rw [hostGroupAlign, if_pos ⟨sizes, first, low, high, runs, ready⟩]
  simp only [within, wide, Bool.and_comm (markersOk _ _ _)]

/-- Settles O13: a write is judged in the state that has accepted it, in which the lane and its taps are as before; an event is judged
by the lane's state, which the equaliser's recorded quality and the marks of a frame leave alone. -/
theorem hostLaneEvents : Obligations.HostLaneEvents := by
  unfold Obligations.HostLaneEvents
  refine ⟨?_, ?_, ?_, ?_, ?_, ?_, ?_, ?_, ?_, ?_, ?_, ?_, ?_, ?_⟩
  · intro n snr s runs state plain
    exact congrArg Host.Outcome.next (hostLockAcquired_plain runs state plain)
  · intro n s state
    exact congrArg Host.Outcome.next (hostAcquireTimeout_acquire state)
  · intro n mark ctl sts snr s state
    exact congrArg Host.Outcome.next (trainingFrameRx_outside state)
  · intro n mark ctl sts snr s runs state waits short
    exact congrArg Host.Outcome.next
      ((trainingFrameRx_unlocked runs state waits (marks_frameMarked short)).trans (frameMarked_short short))
  · intro n ctl sts snr s runs state waits marks ctlRep stsRep
    exact congrArg Host.Outcome.next (trainingFrameRx_fresh runs state waits marks ctlRep stsRep)
  · intro n s state
    exact congrArg Host.Outcome.next (trainTimeout_train state)
  · intro n s state unwritten
    exact congrArg Host.Outcome.next (trainAutoReady_unwritten state unwritten)
  · intro q n w s sent state
    exact congrArg Host.Outcome.next
      (gated_uncounted sent (wrTrainReq_train ((hostState_request n.isLt ..).trans state)) (.inl rfl))
  · intro q n w s sent state
    refine congrArg Host.Outcome.next (gated_counted sent (wrTrainReq_outside ?_) rfl)
    rwa [hostState_request n.isLt]
  · intro q n k w s sent chg limits state
    refine congrArg Host.Outcome.next (gated_uncounted sent (wrHostFir_waits ?_ ?_ ?_) (.inl rfl))
    · rwa [chg_request_low (f := HOST_TX_FIR_value n k) (hostTxFir_low n.isLt k.isLt)]
    · rwa [hostTaps_request n.isLt]
    · rwa [hostState_request n.isLt]
  · intro q n k w s sent chg limits
    refine congrArg Host.Outcome.next (gated_uncounted sent (wrHostFir_range ?_ ?_) (.inr (.inr (.inr rfl))))
    · rwa [chg_request_low (f := HOST_TX_FIR_value n k) (hostTxFir_low n.isLt k.isLt)]
    · rwa [hostTaps_request n.isLt]
  · intro n s runs pending
    exact congrArg Host.Outcome.next (hostTxFirApply_pending runs pending)
  · intro n size ids skewPs s runs sizes first low high lanes
    have sizes' : size.val = 1 ∨ size.val = 2 ∨ size.val = 4 := by
      rcases sizes with rfl | rfl | rfl <;> decide
    have lanes' : ∀ j < size.val, hostMode (n + j) s = hostMode n s ∧ hostState (n + j) s = 4 := fun j hj =>
      lanes ⟨j, by omega⟩ hj
    refine congrArg Host.Outcome.next ((hostGroupAlign_ready runs sizes' first low high lanes').trans ?_)
    simp only [markersOk, Bool.and_assoc]
    rfl
  · intro n why s state
    exact congrArg Host.Outcome.next (hostLaneLost_ready state)

end Sys2Proof.Machine

namespace Sys2Proof.Machine

/-! ## SYNC_IN, arming and release of converter links (R163 to R165) -/

section
variable {n : Nat} {s : State}

theorem wrJesdSys_arms {w : Word} (arm : wf w (HOST_JESD_SYS_arm n) = 1) :
    wrJesdSys n w s =
      (updHost n (fun h => { h with armed := true }) (s.store (HOST_JESD_SYS n) HOST_JESD_SYS_fs w)).ret .done := by
  simp only [wrJesdSys, arm, if_true]

theorem linkLanes_one (lane : n < 8) : linkLanes (n, 1) = [n] := by
  simp [linkLanes, List.range_succ, lane]

theorem linkLanes_two (lane : n < 7) : linkLanes (n, 2) = [n, n + 1] := by
  have first : n < 8 := by omega
  have second : n + 1 < 8 := by omega
  simp [linkLanes, List.range_succ, first, second]

/-- The state in which a link's CRC-12 failures have been counted. -/
abbrev crcCounted (n crc : Nat) (s : State) : State := s.addSat (HOST_JESD_STAT_crc_err n) crc

theorem hostState_crcCounted (j crc : Nat) : hostState j (crcCounted n crc s) = hostState j s :=
  addSat_get_ne s (by simp only [HOST_JESD_STAT_crc_err, HOST_JESD_STAT, HOST_STATUS_state, HOST_STATUS]; omega)

theorem hostRuns_crcCounted (crc : Nat) : hostRuns (crcCounted n crc s) = hostRuns s := by
  have ctrl : (crcCounted n crc s).on (pllEn 1) = s.on (pllEn 1) :=
    addSat_on_ne s (by simp only [HOST_JESD_STAT_crc_err, HOST_JESD_STAT, pllEn, CRP_PLL_CTRL]; omega)
  have stat : ∀ b, (crcCounted n crc s).on ⟨CRP_PLL_STAT, b, 1⟩ = s.on ⟨CRP_PLL_STAT, b, 1⟩ := fun b =>
    addSat_on_ne s (by simp only [HOST_JESD_STAT_crc_err, HOST_JESD_STAT, CRP_PLL_STAT]; omega)
  simp only [hostRuns, pllRuns, pllReady, pllHold, ctrl, stat, addSat_clk]

/-- The state in which a link has released its lanes' multiblocks. -/
abbrev linkReleased (n occ crc : Nat) (s : State) : State :=
  updHost n (fun h => { h with relAt := releaseAt n (crcCounted n crc s) })
    (((crcCounted n crc s).set (HOST_JESD_DL_occ n) (min occ 8191)).set (HOST_JESD_STAT_late n) 0)

theorem hostState_linkReleased (occ crc : Nat) : hostState n (linkReleased n occ crc s) = hostState n s := by
  rw [hostState_updHost, hostState_set (by simp only [HOST_JESD_STAT_late, HOST_JESD_STAT, HOST_STATUS]; omega),
    hostState_set (by simp only [HOST_JESD_DL_occ, HOST_JESD_DL, HOST_STATUS]; omega), hostState_crcCounted]

/-- What a release instant of a link does whose lanes all wait in ALIGN: by the starts of multiblock that are at hand. -/
theorem jesdRelease_due {l occ crc : Nat} {got : List Bool} (link : linkOf n s = some (n, l)) (first : n ∈ linkLanes (n, l))
    (lanes : ∀ j ∈ linkLanes (n, l), hostState j s = 3) (phase : (nth s.host n).lemc ≠ none) (runs : hostRuns s = true) :
    jesdRelease n got occ crc s =
      (let ls := linkLanes (n, l)
       let t := crcCounted n crc s
       let g := got.take ls.length
       if g.length = ls.length ∧ g.all id then
         ls.foldl (fun r j => if hostState j r = 3 then hostReady j false r else r) (linkReleased n occ crc s)
       else if g.any id then hostEvt n 7 (t.set (HOST_JESD_STAT_late n) 1)
       else t) := by
  have align : ∀ j ∈ linkLanes (n, l), hostState j (crcCounted n crc s) = 3 := fun j hj =>
    (hostState_crcCounted j crc).trans (lanes j hj)
  have ready : ((linkLanes (n, l)).all fun j =>
      decide (hostState j (crcCounted n crc s) = 3 ∨ hostState j (crcCounted n crc s) = 4)) = true := by
    rw [List.all_eq_true]
    exact fun j hj => decide_eq_true (.inl (align j hj))
  have waits : ((linkLanes (n, l)).any fun j => decide (hostState j (crcCounted n crc s) = 3)) = true := by
    rw [List.any_eq_true]
    exact ⟨n, first, decide_eq_true (align n first)⟩
  have started : (nth (crcCounted n crc s).host n).lemc.isSome = true := Option.isSome_iff_ne_none.2 phase
  simp only [jesdRelease, link]
  exact if_pos ⟨trivial, (hostRuns_crcCounted crc).trans runs, ready, waits, started⟩

/-- A link of one lane whose start of multiblock is at hand. -/
theorem jesdRelease_single {occ crc : Nat} (lane : n < 8) (link : linkOf n s = some (n, 1)) (state : hostState n s = 3)
    (phase : (nth s.host n).lemc ≠ none) (runs : hostRuns s = true) :
    jesdRelease n [true] occ crc s = hostReady n false (linkReleased n occ crc s) := by
  have own := linkLanes_one lane
  rw [jesdRelease_due link (by simp [own]) (by simpa [own] using state) phase runs, own]
  exact Eq.trans (if_pos ⟨rfl, rfl⟩) (if_pos ((hostState_linkReleased occ crc).trans state))

/-- A link of two lanes of which one alone has its start of multiblock at hand. -/
theorem jesdRelease_late {occ crc : Nat} (lane : n < 7) (link : linkOf n s = some (n, 2)) (state : hostState n s = 3)
    (other : hostState (n + 1) s = 3) (phase : (nth s.host n).lemc ≠ none) (runs : hostRuns s = true) :
    jesdRelease n [true, false] occ crc s = hostEvt n 7 ((crcCounted n crc s).set (HOST_JESD_STAT_late n) 1) := by
  have own := linkLanes_two lane
  rw [jesdRelease_due link (by simp [own]) (by simp [own, state, other]) phase runs, own]
  exact Eq.trans (if_neg fun h => Bool.false_ne_true h.2) (if_pos rfl)

theorem sysrefTimeout_align {f l : Nat} (link : linkOf n s = some (f, l)) (state : hostState n s = 3)
    (mode : s.get (HOST_JESD_SYS_sysref_mode f) ≠ 0) (edge : (nth s.host n).edge = false) :
    sysrefTimeout n s = heldEnd n .timeout 0 ((setHost n 5 s).set (HOST_STATUS_lost_reason n) 5) := by
  simp only [sysrefTimeout, link]
  rw [if_pos ⟨state, mode, by rw [edge]; rfl⟩, hostLose_quiet (by omega)]

end

/-! ## Patterns (R156 to R158) -/

theorem hostPatCtrl_low {n : Nat} (lane : n < 8) : HOST_PAT_CTRL n < 0x40300000 := by simp only [HOST_PAT_CTRL]; omega

section
variable (q : Rq) (a : Nat) (s : State)

theorem linkReady_request (x : Option (Nat × Nat)) : linkReady x (request q a s) = linkReady x s := by
  have ready : ∀ y, ((linkLanes y).any fun j => decide (hostState j (request q a s) = 4)) =
      (linkLanes y).any fun j => decide (hostState j s = 4) := fun y => by
    rw [Bool.eq_iff_iff]
    simp only [List.any_eq_true]
    exact exists_congr fun j => and_congr_right fun hj => by rw [hostState_request (lt_of_mem_linkLanes hj)]
  simp only [linkReady, ready]

theorem patBusy_request {n : Nat} (lane : n < 8) : patBusy n (request q a s) = patBusy n s := by
  simp only [patBusy, hostGroup_request, hostMode_request lane, linkOf_request, linkTx_request, linkReady_request]

end

section
variable {n : Nat} {w : Word} {s : State}

/-- A stored write of HOST_PAT_CTRL leaves chk_en at the written bit. -/
theorem on_chkEn_store : (s.store (HOST_PAT_CTRL n) HOST_PAT_CTRL_fs w).on (HOST_PAT_CTRL_chk_en n) =
    decide (wf w (HOST_PAT_CTRL_chk_en n) = 1) := by
  have enable : fieldOf (mergeWord HOST_PAT_CTRL_fs (s.rd (HOST_PAT_CTRL n)) w false) 9 1 = fieldOf w 9 1 :=
    (fieldOf_putField _ 9 1 _ (by decide)).trans (Nat.mod_mod _ _)
  rw [State.on, store_get (a := HOST_PAT_CTRL n) (g := HOST_PAT_CTRL_chk_en n) s rfl]
  exact congrArg (fun v => decide (v = 1)) enable

/-- A write of HOST_PAT_CTRL with allowed patterns that starts no generator under traffic and leaves the checker enabled. -/
theorem wrPatCtrl_stored (gen : badPattern (hostMode n s) (wf w (HOST_PAT_CTRL_gen_pat n)) = false)
    (chk : badPattern (hostMode n s) (wf w (HOST_PAT_CTRL_chk_pat n)) = false)
    (traffic : s.chg w (HOST_PAT_CTRL_gen_en n) = false ∨ patBusy n s = false) (on : wf w (HOST_PAT_CTRL_chk_en n) = 1) :
    wrPatCtrl n w s =
      (let t := s.store (HOST_PAT_CTRL n) HOST_PAT_CTRL_fs w
       let t := if wf w (HOST_PAT_CTRL_inject n) = 1 then updHost n (fun h => { h with inverted := h.inverted + 1 }) t else t
       if wf w (HOST_PAT_CTRL_snap n) = 1 then patSnap n t else t).ret .done := by
  have start : (s.chg w (HOST_PAT_CTRL_gen_en n) && decide (wf w (HOST_PAT_CTRL_gen_en n) = 1) && patBusy n s) = false := by
    rcases traffic with h | h <;> simp [h]
  have enabled : (if wf w (HOST_PAT_CTRL_inject n) = 1 then
      updHost n (fun h => { h with inverted := h.inverted + 1 }) (s.store (HOST_PAT_CTRL n) HOST_PAT_CTRL_fs w)
      else s.store (HOST_PAT_CTRL n) HOST_PAT_CTRL_fs w).on (HOST_PAT_CTRL_chk_en n) = true := by
    rw [apply_ite (State.on · (HOST_PAT_CTRL_chk_en n))]
    refine (ite_self _).trans (on_chkEn_store.trans ?_)
    rw [on]
    rfl
  simp only [wrPatCtrl, gen, chk, start, enabled, Bool.and_false, Bool.or_self, Bool.false_eq_true, if_false, if_true]

theorem wf_patBit_force {b c : Nat} (hb : b < 32) (hc : c < 32) :
    wf (force w ⟨HOST_PAT_CTRL n, b, 1⟩ 1) ⟨HOST_PAT_CTRL n, c, 1⟩ = if b = c then 1 else wf w ⟨HOST_PAT_CTRL n, c, 1⟩ := by
  split
  · next same => subst same; exact wf_force w (f := ⟨HOST_PAT_CTRL n, b, 1⟩) hb
  · next other => exact fieldOf_putField_ne w b 1 1 c 1 (by omega) hc

theorem wf_genPat_force {b : Nat} (hb : 8 ≤ b) :
    wf (force w ⟨HOST_PAT_CTRL n, b, 1⟩ 1) (HOST_PAT_CTRL_gen_pat n) = wf w (HOST_PAT_CTRL_gen_pat n) :=
  fieldOf_putField_ne w b 1 1 0 4 (.inr (by omega)) (by decide)

theorem wf_chkPat_force {b : Nat} (hb : 8 ≤ b) :
    wf (force w ⟨HOST_PAT_CTRL n, b, 1⟩ 1) (HOST_PAT_CTRL_chk_pat n) = wf w (HOST_PAT_CTRL_chk_pat n) :=
  fieldOf_putField_ne w b 1 1 4 4 (.inr hb) (by decide)

/-- The same where the write has one of the register's bits from gen_en on at 1: what the bits ask for. -/
theorem wrPatCtrl_forced {b : Nat} (hb : 8 ≤ b ∧ b < 32)
    (gen : badPattern (hostMode n s) (wf w (HOST_PAT_CTRL_gen_pat n)) = false)
    (chk : badPattern (hostMode n s) (wf w (HOST_PAT_CTRL_chk_pat n)) = false)
    (traffic : (b ≠ 8 ∧ s.chg w (HOST_PAT_CTRL_gen_en n) = false) ∨ patBusy n s = false)
    (on : wf w (HOST_PAT_CTRL_chk_en n) = 1) :
    wrPatCtrl n (force w ⟨HOST_PAT_CTRL n, b, 1⟩ 1) s =
      (let t := s.store (HOST_PAT_CTRL n) HOST_PAT_CTRL_fs (force w ⟨HOST_PAT_CTRL n, b, 1⟩ 1)
       let t := if b = 10 ∨ wf w (HOST_PAT_CTRL_inject n) = 1 then
           updHost n (fun h => { h with inverted := h.inverted + 1 }) t
         else t
       if b = 11 ∨ wf w (HOST_PAT_CTRL_snap n) = 1 then patSnap n t else t).ret .done := by
  obtain ⟨low, high⟩ := hb
  have bitOf : ∀ c < 32, wf (force w ⟨HOST_PAT_CTRL n, b, 1⟩ 1) ⟨HOST_PAT_CTRL n, c, 1⟩ = 1 ↔
      b = c ∨ wf w ⟨HOST_PAT_CTRL n, c, 1⟩ = 1 := fun c hc => by
    rw [wf_patBit_force high hc]
    split <;> simp [*]
  have enable : wf (force w ⟨HOST_PAT_CTRL n, b, 1⟩ 1) (HOST_PAT_CTRL_chk_en n) = 1 := (bitOf 9 (by decide)).2 (.inr on)
  have inject := bitOf 10 (by decide)
  have snap := bitOf 11 (by decide)
  rw [wrPatCtrl_stored _ _ _ enable]
  · exact congrArg (State.ret · .done)
      (if_congr snap (congrArg (patSnap n) (if_congr inject rfl rfl)) (if_congr inject rfl rfl))
  · rwa [wf_genPat_force low]
  · rwa [wf_chkPat_force low]
  · refine traffic.imp_left fun h => ?_
    obtain ⟨apart, same⟩ := h
    have kept : wf (force w ⟨HOST_PAT_CTRL n, b, 1⟩ 1) (HOST_PAT_CTRL_gen_en n) = wf w (HOST_PAT_CTRL_gen_en n) :=
      (wf_patBit_force high (by decide)).trans (if_neg apart)
    rwa [State.chg, kept]

theorem get_chkCount (bits errs : Nat) (f : Fd) : (chkCount n bits errs s).get f = s.get f := by
  unfold chkCount
  split <;> rfl

theorem hostMode_chkCount (m bits errs : Nat) : hostMode m (chkCount n bits errs s) = hostMode m s := get_chkCount ..

theorem chg_chkCount (bits errs : Nat) (f : Fd) : (chkCount n bits errs s).chg w f = s.chg w f := by
  simp only [State.chg, get_chkCount]

theorem checkerLock_enabled (runs : hostRuns s = true) (on : s.on (HOST_PAT_CTRL_chk_en n) = true)
    (unlocked : s.on (HOST_PAT_CTRL_locked n) = false) :
    checkerLock n s = hostEvt n 4 (s.set (HOST_PAT_CTRL_locked n) 1) := by
  simp only [checkerLock, runs, on, unlocked, Bool.not_false, and_self, if_true]

theorem checkerLock_stopped (stopped : hostRuns s = false) : checkerLock n s = s := by
  simp only [checkerLock, stopped, Bool.false_eq_true, false_and, if_false]

theorem checkerUnlock_stopped {bits errs : Nat} (stopped : hostRuns s = false) : checkerUnlock n bits errs s = s := by
  simp only [checkerUnlock, stopped, Bool.false_eq_true, false_and, if_false]

theorem checkerUnlock_locked {bits errs : Nat} (runs : hostRuns s = true) (lock : s.on (HOST_PAT_CTRL_locked n) = true) :
    checkerUnlock n bits errs s = hostEvt n 4 ((updHost n (fun h => { h with
      chkErr := min (h.chkErr + errs) (2 ^ 24 - 1), chkBits := min (h.chkBits + bits) (2 ^ 64 - 1)
      chkUnl := min (h.chkUnl + 1) 255 }) s).set (HOST_PAT_CTRL_locked n) 0) := by
  rw [checkerUnlock, if_pos ⟨runs, lock⟩, chkCount, if_pos ⟨runs, lock⟩]
  simp only [updHost_updHost]

end

/-! ## FEC monitoring (R147, R159) -/

section
variable {n k : Nat} {rx : List Nat} {s : State}

theorem hostCodeword_inactive (h : (nth s.host n).grp = 0 ∨ hostState n s ≠ 4) : hostCodeword n k rx s = s := by
  rw [hostCodeword, if_neg]
  rintro ⟨state, -, aligned⟩
  exact h.elim aligned (absurd state)

section
variable (runs : hostRuns s = true) (state : hostState n s = 4) (aligned : (nth s.host n).grp ≠ 0)
include runs state aligned

theorem hostCodeword_decoded {v : List Nat} (found : rsDecodeWord [] (hostWord n k rx s) = some v) :
    hostCodeword n k rx s = handOver n k (hostWord n k rx s) (v.take 514) false
      (fecCount n (3 + min (rsDiffer (hostWord n k rx s) v).length 15) 1
        (fecCount n 1 (min (rsDiffer (hostWord n k rx s) v).length 15) (fecCount n 0 1 s))) := by
  rw [hostCodeword, if_pos ⟨state, runs, aligned⟩]
  simp only [found]

theorem hostCodeword_uncorrectable (lost : rsDecodeWord [] (hostWord n k rx s) = none) :
    hostCodeword n k rx s = handOver n k (hostWord n k rx s) ((hostWord n k rx s).take 514) true
      ((fecCount n 2 1 (fecCount n 0 1 s)).flagLimited (HOST_EVT_fec_uncorr n) (160 + 8 * n + 5) fecGap) := by
  rw [hostCodeword, if_pos ⟨state, runs, aligned⟩]
  simp only [lost]

end

theorem wrFecCmd_snap : wrFecCmd n 1 s = (fecSnap n s).ret .done := by
  have snap : wf 1 (HOST_FEC_CMD_snap n) = 1 := by
    change fieldOf 1 0 1 = 1
    decide
  rw [wrFecCmd, if_pos snap]

end

/-- Settles O14: a write is judged in the state that has accepted it, in which the lane, its links and its groups are as before; a
release instant is judged by the states of the link's lanes, which the count of CRC failures leaves alone. -/
theorem hostLinks : Obligations.HostLinks := by
  unfold Obligations.HostLinks
  refine ⟨?_, ?_, ?_, ?_, ?_, ?_, ?_, ?_, ?_, ?_, ?_, ?_, ?_, ?_⟩
  · intro s
    refine congrArg Host.Outcome.next (congrArg (forN 8 · s) (funext₂ fun f t => ?_))
    cases linkFrom f t with
    | none => rfl
    | some x => cases blkHeld (8 + f) t <;> rfl
  · intro q n w s sent
    exact congrArg Host.Outcome.next
      (gated_uncounted sent (wrJesdSys_arms (fieldOf_putField w 2 1 1 (by decide))) (.inl rfl))
  · rintro n got occ crc s link state phase runs rfl
    exact congrArg Host.Outcome.next (jesdRelease_single n.isLt link state phase runs)
  · rintro n got occ crc s link state other lane phase runs rfl
    exact congrArg Host.Outcome.next (jesdRelease_late lane link state other phase runs)
  · intro n s link state mode edge
    exact congrArg Host.Outcome.next (sysrefTimeout_align link state mode edge)
  · intro q n w s sent gen chk traffic on inject snap
    refine congrArg Host.Outcome.next (gated_uncounted sent
      ((wrPatCtrl_forced (b := 8) (by decide) ?_ ?_ (.inr ?_) on).trans ?_) (.inl rfl))
    · rwa [hostMode_request n.isLt]
    · rwa [hostMode_request n.isLt]
    · rwa [patBusy_request q _ s n.isLt]
    · rw [inject, snap]
      rfl
  · intro q n w s sent gen chk traffic on snap
    refine congrArg Host.Outcome.next (gated_uncounted sent
      ((wrPatCtrl_forced (b := 10) (by decide) ?_ ?_ (.inl ⟨by decide, ?_⟩) on).trans ?_) (.inl rfl))
    · rwa [hostMode_request n.isLt]
    · rwa [hostMode_request n.isLt]
    · rwa [chg_request_low (f := HOST_PAT_CTRL_gen_en n) (hostPatCtrl_low n.isLt)]
    · rw [snap]
      simp only [true_or, if_true]
      rfl
  · intro q n w bits errs s sent gen chk traffic on inject
    refine congrArg Host.Outcome.next (gated_uncounted sent
      ((wrPatCtrl_forced (b := 11) (by decide) ?_ ?_ (.inl ⟨by decide, ?_⟩) on).trans ?_) (.inl rfl))
    · rwa [hostMode_chkCount, hostMode_request n.isLt]
    · rwa [hostMode_chkCount, hostMode_request n.isLt]
    · rwa [chg_chkCount, chg_request_low (f := HOST_PAT_CTRL_gen_en n) (hostPatCtrl_low n.isLt)]
    · rw [inject]
      simp only [true_or, if_true]
      rfl
  · intro n s runs on unlocked
    exact congrArg Host.Outcome.next (checkerLock_enabled runs on unlocked)
  · intro n bits errs s stopped
    exact ⟨congrArg Host.Outcome.next (checkerLock_stopped stopped), congrArg Host.Outcome.next (checkerUnlock_stopped stopped)⟩
  · intro n bits errs s runs lock
    exact congrArg Host.Outcome.next (checkerUnlock_locked runs lock)
  · intro n k rx s runs state aligned
    refine congrArg Host.Outcome.next (?_ : hostCodeword n k rx s = _)
    split
    · next v found => exact hostCodeword_decoded runs state aligned found
    · next lost => exact hostCodeword_uncorrectable runs state aligned lost
  · intro n k rx s inactive
    exact congrArg Host.Outcome.next (hostCodeword_inactive inactive)
  · intro q n s sent
    exact congrArg Host.Outcome.next (gated_uncounted sent wrFecCmd_snap (.inl rfl))

end Sys2Proof.Machine

namespace Sys2Proof.Machine

/-! # Band engine -/

/-! ## The band engine's registers where an access has been accepted -/

theorem State.get_lt (s : State) (f : Fd) : s.get f < 2 ^ f.w := Nat.mod_lt _ (Nat.two_pow_pos _)

theorem bndPin_low {p : Nat} (h : p < 1024) : BND_PIN p < 0x40300000 := by simp only [BND_PIN]; omega
theorem bndPout_low {p : Nat} (h : p < 1024) : BND_POUT p < 0x40300000 := by simp only [BND_POUT]; omega
theorem bndPout2_low {p : Nat} (h : p < 1024) : BND_POUT2 p < 0x40300000 := by simp only [BND_POUT2]; omega

section
variable {k : Nat} (path : k < 128)
include path

theorem bndPathCfg_low : BND_PATH_CFG k < 0x40300000 := by simp only [BND_PATH_CFG]; omega
theorem bndPathCfg2_low : BND_PATH_CFG2 k < 0x40300000 := by simp only [BND_PATH_CFG2]; omega
theorem bndPathStat_low : BND_PATH_STAT k < 0x40300000 := by simp only [BND_PATH_STAT]; omega
theorem bndPathGain_low : BND_PATH_GAIN k < 0x40300000 := by simp only [BND_PATH_GAIN]; omega
theorem bndPathCf_low : BND_PATH_CF k < 0x40300000 := by simp only [BND_PATH_CF]; omega
theorem bndPathSat_low : BND_PATH_SAT k < 0x40300000 := by simp only [BND_PATH_SAT]; omega
theorem bndPathCxl_low {c : Nat} (h : c < 8) : BND_PATH_CXL k c < 0x40300000 := by simp only [BND_PATH_CXL]; omega
theorem bndPathCfc_low {j : Nat} (h : j < 255) : BND_PATH_CFC k j < 0x40300000 := by simp only [BND_PATH_CFC]; omega

theorem pathDir_lt : pathDir k < 2 := by simp only [pathDir]; omega

variable (q : Rq) (a : Nat) (s : State)

theorem rateIn_request : rateIn k (request q a s) = rateIn k s := get_request_low (bndPathCfg_low path)

theorem outPort_request : outPort k (request q a s) = outPort k s := get_request_low (bndPathCfg2_low path)

theorem inPort_request : (request q a s).get (BND_PATH_CFG_in_port k) = s.get (BND_PATH_CFG_in_port k) :=
  get_request_low (bndPathCfg_low path)

theorem halfbands_request : (request q a s).get (BND_PATH_CFG_hb k) = s.get (BND_PATH_CFG_hb k) :=
  get_request_low (bndPathCfg_low path)

end

/-! ## Port entries (R175 to R177) -/

/-- The listed registers below the router's that meet a condition are those of before an access. -/
theorem filter_regs_request {p : Nat × Word → Bool} (low : ∀ e, p e = true → e.1 < 0x40300000) (q : Rq) (a : Nat) (s : State) :
    (request q a s).regs.filter p = s.regs.filter p := by
  have lowOnly : ∀ t : State, t.regs.filter p = t.lowRegs.filter p := fun t => by
    rw [State.lowRegs, List.filter_filter]
    refine List.filter_congr fun e _ => ?_
    by_cases h : p e = true
    · simp [h, low e h]
    · simp [h]
  rw [lowOnly, lowOnly, lowRegs_request]

section
variable (q : Rq) (a : Nat) (s : State)

theorem pathNames_request (out : Bool) (p : Nat) : pathNames out p (request q a s) = pathNames out p s :=
  any_range_congr fun k path => by rw [admState_request path, outPort_request path, inPort_request path]

/-- The entries that carry an input port, and the ports that they name, lie below the router's registers. -/
theorem carriedBy_request (p : Nat) : carriedBy p (request q a s) = carriedBy p s := by
  unfold carriedBy
  rw [filter_regs_request fun e he => ?low]
  · refine congrArg _ (List.filter_congr fun e _ => ?_)
    by_cases entry : e.1 < BND_POUT 1024
    · rw [get_request_low (f := BND_POUT2_src_port _) (bndPout2_low ?_)]
      simp only [BND_POUT] at entry ⊢
      omega
    · simp only [entry, decide_false, Bool.and_false, Bool.false_and]
  case low =>
    simp only [Bool.and_eq_true, decide_eq_true_eq] at he
    obtain ⟨⟨⟨⟨⟨-, entry⟩, -⟩, -⟩, -⟩, -⟩ := he
    exact entry.trans (by decide)

theorem portNamed_request (out : Bool) (p : Nat) : portNamed out p (request q a s) = portNamed out p s := by
  simp only [portNamed, carriageNames, pathNames_request, carriedBy_request]

end

/-- The register and the fields of an entry of the output or of the input port table. -/
abbrev portReg (out : Bool) (p : Nat) : Nat := if out then BND_POUT p else BND_PIN p
abbrev portFs (out : Bool) : List (Nat × Nat × Acc) := if out then BND_POUT_fs else BND_PIN_fs

theorem portReg_low (out : Bool) {p : Nat} (h : p < 1024) : portReg out p < 0x40300000 := by
  cases out
  · exact bndPin_low h
  · exact bndPout_low h

/-- The word of an entry has a kind, a rate and a source that exist (R175, R176). -/
def PortLegal (out : Bool) (p : Nat) (w : Word) : Prop :=
  wf w (BND_PIN_kind p) ≠ 3 ∧ wf w (BND_PIN_rate p) ≤ 5 ∧ (out = true → wf w (BND_POUT_src p) ≠ 3)

section
variable {out : Bool} {p : Nat} {w : Word} {s : State}

theorem bit_force_en (v : Nat) : bit (force w (BND_PIN_en p) v) 0 = v.testBit 0 :=
  getLsbD_putField w 0 1 v 0 (by decide)

theorem wf_portKind_force (v : Nat) : wf (force w (BND_PIN_en p) v) (BND_PIN_kind p) = wf w (BND_PIN_kind p) :=
  fieldOf_putField_ne w 0 1 v 1 2 (by decide) (by decide)

theorem wf_portRate_force (v : Nat) : wf (force w (BND_PIN_en p) v) (BND_PIN_rate p) = wf w (BND_PIN_rate p) :=
  fieldOf_putField_ne w 0 1 v 3 3 (by decide) (by decide)

theorem wf_portSrc_force (v : Nat) : wf (force w (BND_PIN_en p) v) (BND_POUT_src p) = wf w (BND_POUT_src p) :=
  fieldOf_putField_ne w 0 1 v 22 2 (by decide) (by decide)

theorem PortLegal.force (h : PortLegal out p w) (v : Nat) : PortLegal out p (Machine.force w (BND_PIN_en p) v) := by
  rwa [PortLegal, wf_portKind_force, wf_portRate_force, wf_portSrc_force]

theorem wrPort_range (h : wf w (BND_PIN_kind p) = 3 ∨ 5 < wf w (BND_PIN_rate p)) : wrPort out p w s = s.ret .range := by
  unfold wrPort
  exact if_pos (h.imp_right .inl)

/-- A write of an entry whose word is legal: what it may change of an enabled entry, and what it must agree with to enable one. -/
theorem wrPort_legal (h : PortLegal out p w) :
    wrPort out p w s =
      let old := s.rd (portReg out p)
      if bit old 0 && decide ((mergeWord (portFs out) old w false).toNat / 2 ≠ old.toNat / 2) then s.ret .state
      else if bit old 0 && !bit w 0 && portNamed out p s then s.ret .state
      else if !bit old 0 && bit w 0 && !portSourceOk out p w s then s.ret .range
      else
        let t := s.store (portReg out p) (portFs out) w
        (if bit old 0 && !bit w 0 && !out then lstPortOff p t else t).ret .done := by
  obtain ⟨kind, rate, src⟩ := h
  unfold wrPort
  refine if_neg ?_
  rintro (bad | bad | ⟨o, bad⟩)
  · exact kind bad
  · omega
  · exact src o bad

theorem wrPort_enables (h : PortLegal out p w) (on : bit w 0 = true) (off : bit (s.rd (portReg out p)) 0 = false)
    (source : portSourceOk out p w s = true) : wrPort out p w s = (s.store (portReg out p) (portFs out) w).ret .done := by
  simp only [wrPort_legal h, on, off, source, Bool.false_and, Bool.not_true, Bool.and_false, Bool.false_eq_true, if_false]

theorem wrPort_disables (h : PortLegal out p w) (off : bit w 0 = false) (on : bit (s.rd (portReg out p)) 0 = true)
    (same : (mergeWord (portFs out) (s.rd (portReg out p)) w false).toNat / 2 = (s.rd (portReg out p)).toNat / 2)
    (free : portNamed out p s = false) :
    wrPort out p w s =
      (if out then s.store (portReg out p) (portFs out) w else lstPortOff p (s.store (portReg out p) (portFs out) w)).ret
        .done := by
  simp only [wrPort_legal h, on, off, same, free, ne_eq, not_true_eq_false, decide_false, Bool.and_false, Bool.false_and,
    Bool.not_true, Bool.not_false, Bool.true_and, Bool.false_eq_true, if_false]
  cases out with
  | false => simp only [Bool.not_false, if_true, Bool.false_eq_true, if_false]
  | true => simp only [Bool.not_true, if_true, Bool.false_eq_true, if_false]

end

/-! ## Path gain (R183) -/

section
variable {k : Nat} {w : Word} {s : State}

theorem gainBound_request {d : Nat} (h : d < 2) (q : Rq) (a : Nat) (s : State) : gainBound d (request q a s) = gainBound d s := by
  rw [gainBound, gainBound, get_request_low (f := GRD_GAIN_work d) (by simp only [GRD_GAIN_work, GRD_GAIN]; omega)]

theorem wrPathGain_within (chg : s.chg w (BND_PATH_GAIN_gain k) = true)
    (within : wf w (BND_PATH_GAIN_gain k) * (nth s.rpt k).a ≤ 65536 * gainBound (pathDir k) s) :
    wrPathGain k w s =
      ((gainFollow k (wf w (BND_PATH_GAIN_gain k)) s).store (BND_PATH_GAIN k) BND_PATH_GAIN_fs w).ret .done := by
  simp only [wrPathGain, chg, if_true, if_neg (Nat.not_lt.2 within)]

theorem wrPathGain_above (chg : s.chg w (BND_PATH_GAIN_gain k) = true)
    (above : 65536 * gainBound (pathDir k) s < wf w (BND_PATH_GAIN_gain k) * (nth s.rpt k).a) :
    wrPathGain k w s = s.ret .guard := by
  simp only [wrPathGain, chg, above, if_true]

end

/-! ## Filter commits and fades (R181, R187, R188) -/

section
variable {k : Nat} {w : Word} {s : State}

theorem commitOk_request (path : k < 128) (n mode : Nat) (q : Rq) (a : Nat) (s : State) :
    commitOk k n mode (request q a s) = commitOk k n mode s := by
  have bank : inactiveBank k (request q a s) = inactiveBank k s :=
    List.map_congr_left fun j hj => get_request_low (bndPathCfc_low path (List.mem_range.1 hj))
  simp only [commitOk, bank]

theorem wf_commit_force : wf (force w (BND_PATH_CF_commit k) 1) (BND_PATH_CF_commit k) = 1 :=
  fieldOf_putField w 13 1 1 (by decide)

theorem wf_fadeLen_force : wf (force w (BND_PATH_CF_commit k) 1) (BND_PATH_CF_fade_len k) = wf w (BND_PATH_CF_fade_len k) :=
  fieldOf_putField_ne w 13 1 1 9 4 (by decide) (by decide)

theorem wf_nTaps_force : wf (force w (BND_PATH_CF_commit k) 1) (BND_PATH_CF_n_taps k) = wf w (BND_PATH_CF_n_taps k) :=
  fieldOf_putField_ne w 13 1 1 0 8 (by decide) (by decide)

theorem wf_cfMode_force : wf (force w (BND_PATH_CF_commit k) 1) (BND_PATH_CF_mode k) = wf w (BND_PATH_CF_mode k) :=
  fieldOf_putField_ne w 13 1 1 8 1 (by decide) (by decide)

/-- A commit while no fade runs is judged by the inactive bank. -/
theorem wrPathCf_commits (len : wf w (BND_PATH_CF_fade_len k) ≤ 8) (still : s.on (BND_PATH_CF_fading k) = false) :
    let w := force w (BND_PATH_CF_commit k) 1
    wrPathCf k w s =
      if commitOk k (wf w (BND_PATH_CF_n_taps k)) (wf w (BND_PATH_CF_mode k)) s then
        ((((updBnd k (fun p => { p with fadeAt := s.bclk }) (s.store (BND_PATH_CF k) BND_PATH_CF_fs w)).set
          (BND_PATH_CF_fading k) 1).set (BND_PATH_CF_outcome k) Code.held.n).set (BND_PATH_DELAY_changing k) 1).ret .held
      else (s.set (BND_PATH_CF_outcome k) Code.range.n).ret .range := by
  have len' : ¬ 8 < wf (force w (BND_PATH_CF_commit k) 1) (BND_PATH_CF_fade_len k) := by
    rw [wf_fadeLen_force]
    omega
  simp only [wrPathCf, if_neg len', still, wf_commit_force, decide_true, Bool.false_and, Bool.not_true, Bool.false_eq_true, if_false]
  cases commitOk k (wf (force w (BND_PATH_CF_commit k) 1) (BND_PATH_CF_n_taps k))
      (wf (force w (BND_PATH_CF_commit k) 1) (BND_PATH_CF_mode k)) s with
  | true => simp only [Bool.not_true, Bool.false_eq_true, if_false, if_true]
  | false => simp only [Bool.not_false, Bool.false_eq_true, if_false, if_true]

theorem xfadeEnd_running (fading : s.on (BND_PATH_CF_fading k) = true) (admitted : admState k s = 2) :
    xfadeEnd k s = fadeDone k s := if_pos ⟨fading, admitted⟩

theorem xfadeEnd_outside (h : s.on (BND_PATH_CF_fading k) = false ∨ admState k s ≠ 2) : xfadeEnd k s = s := by
  refine if_neg fun running => ?_
  obtain ⟨fading, admitted⟩ := running
  rcases h with h | h
  · exact Bool.false_ne_true (h.symm.trans fading)
  · exact h admitted

end

/-! ## Canceller swap (R184, R185) -/

section
variable {k : Nat} {s : State}

theorem clusterEn_request {c : Nat} (path : k < 128) (h : c < 8) (q : Rq) (a : Nat) (s : State) :
    (request q a s).on (BND_PATH_CXL_en k c) = s.on (BND_PATH_CXL_en k c) := on_request_low (bndPathCxl_low path h)

theorem clusterDelay_request {c : Nat} (path : k < 128) (h : c < 8) (q : Rq) (a : Nat) (s : State) :
    (request q a s).get (BND_PATH_CXL_delay k c) = s.get (BND_PATH_CXL_delay k c) := get_request_low (bndPathCxl_low path h)

/-- No halfband stands before an enabled cluster, and an enabled cluster's delay is 1 to 4,032 samples (R184). -/
structure ClustersLegal (k : Nat) (s : State) : Prop where
  plain : s.get (BND_PATH_CFG_hb k) = 0 ∨ ∀ c < 8, s.on (BND_PATH_CXL_en k c) = false
  delays : ∀ c < 8, s.on (BND_PATH_CXL_en k c) = true → 1 ≤ s.get (BND_PATH_CXL_delay k c) ∧ s.get (BND_PATH_CXL_delay k c) ≤ 4032

theorem ClustersLegal.request (h : ClustersLegal k s) (path : k < 128) (q : Rq) (a : Nat) :
    ClustersLegal k (Machine.request q a s) where
  plain := by
    rw [halfbands_request path]
    exact h.plain.imp_right fun off c hc => (clusterEn_request path hc q a s).trans (off c hc)
  delays c hc on := by
    rw [clusterEn_request path hc] at on
    rw [clusterDelay_request path hc]
    exact h.delays c hc on

/-- A swap of legal clusters: the delays and enables, then the taps, become the active ones. -/
theorem wrCxcmd_swaps (h : ClustersLegal k s) :
    wrCxcmd k 1 s =
      ((forN 512 (fun j t => t.wr (BND_PATH_CXA k j) (t.rd (BND_PATH_CXT k j))) (forN 8 (fun c t =>
        (t.set (BND_PATH_CXL_act_delay k c) (t.get (BND_PATH_CXL_delay k c))).set (BND_PATH_CXL_act_en k c)
          (t.get (BND_PATH_CXL_en k c))) s)).set (BND_PATH_CXCMD_outcome k) Code.done.n).ret .done := by
  have swap : ¬ wf 1 (BND_PATH_CXCMD_swap k) = 0 := by
    change ¬ fieldOf 1 0 1 = 0
    decide
  have plain : ¬(s.get (BND_PATH_CFG_hb k) ≠ 0 ∧ (List.range 8).filter (fun c => s.on (BND_PATH_CXL_en k c)) ≠ []) := by
    rintro ⟨halfbands, enabled⟩
    rcases h.plain with none | off
    · exact halfbands none
    · exact enabled (List.filter_eq_nil_iff.2 fun c hc => by rw [off c (List.mem_range.1 hc)]; exact Bool.false_ne_true)
  have delays : ((List.range 8).filter fun c => s.on (BND_PATH_CXL_en k c)).any (fun c =>
      decide (s.get (BND_PATH_CXL_delay k c) < 1) || decide (4032 < s.get (BND_PATH_CXL_delay k c))) = false := by
    refine List.any_eq_false.2 fun c hc => ?_
    obtain ⟨hc, on⟩ := List.mem_filter.1 hc
    obtain ⟨least, most⟩ := h.delays c (List.mem_range.1 hc) on
    simp only [Bool.or_eq_true, decide_eq_true_eq]
    omega
  simp only [wrCxcmd, if_neg swap, if_neg plain, delays, Bool.false_eq_true, if_false]

end

/-- Settles O15: a write is judged in the state that has accepted it, in which the port tables, the paths, the inactive bank and the
clusters are as before; what an allowed write does, the lemma of its function says. -/
theorem bandPorts : Obligations.BandPorts := by
  unfold Obligations.BandPorts
  refine ⟨?_, ?_, ?_, ?_, ?_, ?_, ?_, ?_, ?_, ?_⟩
  · intro q out p w s sent off kind rate src source
    have legal : PortLegal out p (force w (BND_PIN_en p) 1) := PortLegal.force ⟨kind, rate, src⟩ 1
    refine congrArg Host.Outcome.next (gated_uncounted sent (wrPort_enables legal (bit_force_en 1) ?_ source) (.inl rfl))
    rwa [rd_request_low (portReg_low out p.isLt)]
  · intro q out p w s sent bad
    refine congrArg Host.Outcome.next (gated_uncounted sent (wrPort_range ?_) (.inr (.inr (.inr rfl))))
    rwa [wf_portKind_force, wf_portRate_force]
  · intro q out p w s sent on same kind rate src free
    have legal : PortLegal out p (force w (BND_PIN_en p) 0) := PortLegal.force ⟨kind, rate, src⟩ 0
    have entry := rd_request_low (q := q) (b := portReg out p) (s := s) (portReg_low out p.isLt)
    refine congrArg Host.Outcome.next ((gated_uncounted sent
      (wrPort_disables legal (bit_force_en 0) ?_ ?_ ?_) (.inl rfl)).trans ?_)
    · rwa [entry]
    · rwa [entry]
    · rwa [portNamed_request]
    · cases out with
      | false => simp only [portReg, portFs, Bool.false_eq_true, if_false]
      | true => simp only [portReg, portFs, if_true]
  · intro q k w s sent chg within
    refine congrArg Host.Outcome.next (gated_uncounted sent (wrPathGain_within ?_ ?_) (.inl rfl))
    · rwa [chg_request_low (f := BND_PATH_GAIN_gain k) (bndPathGain_low k.isLt)]
    · rwa [gainBound_request (pathDir_lt k.isLt), request_rpt]
  · intro q k w s sent chg above
    refine congrArg Host.Outcome.next (gated_counted sent (wrPathGain_above ?_ ?_) rfl)
    · rwa [chg_request_low (f := BND_PATH_GAIN_gain k) (bndPathGain_low k.isLt)]
    · rwa [gainBound_request (pathDir_lt k.isLt), request_rpt]
  · intro q k w s sent len still legal
    have effect := wrPathCf_commits (s := request q (BND_PATH_CF k) s) len
      ((on_request_low (f := BND_PATH_CF_fading k) (bndPathCf_low k.isLt)).trans still)
    simp only [wf_nTaps_force, wf_cfMode_force, commitOk_request k.isLt, legal, if_true, request_bclk] at effect
    exact congrArg Host.Outcome.next (gated_uncounted sent effect (.inr (.inl rfl)))
  · intro q k w s sent len still illegal
    have effect := wrPathCf_commits (s := request q (BND_PATH_CF k) s) len
      ((on_request_low (f := BND_PATH_CF_fading k) (bndPathCf_low k.isLt)).trans still)
    simp only [wf_nTaps_force, wf_cfMode_force, commitOk_request k.isLt, illegal, Bool.false_eq_true, if_false] at effect
    exact congrArg Host.Outcome.next (gated_uncounted sent effect (.inr (.inr (.inr rfl))))
  · intro k s fading admitted
    exact congrArg Host.Outcome.next (xfadeEnd_running fading admitted)
  · intro k s outside
    exact congrArg Host.Outcome.next (xfadeEnd_outside outside)
  · intro q k s sent plain delays
    have legal : ClustersLegal k s :=
      ⟨plain.imp_right fun off c hc => off ⟨c, hc⟩, fun c hc => delays ⟨c, hc⟩⟩
    exact congrArg Host.Outcome.next (gated_uncounted sent (wrCxcmd_swaps (legal.request k.isLt q _)) (.inl rfl))

end Sys2Proof.Machine

namespace Sys2Proof.Machine

/-! ## What admission reads of the paths and the floors, where an access has been accepted (R178, R196, R197) -/

section
variable (q : Rq) (a : Nat) (s : State)

section
variable {k : Nat} (path : k < 128)
include path

theorem rateOut_request : rateOut k (request q a s) = rateOut k s := by
  simp only [rateOut, rateIn_request path, halfbands_request path,
    on_request_low (f := BND_PATH_CFG_hb_dir k) (bndPathCfg_low path)]

theorem pathClass_request : pathClass k (request q a s) = pathClass k s := get_request_low (bndPathCfg_low path)

theorem pathLoad_request : pathLoad k (request q a s) = pathLoad k s := by
  simp only [pathLoad, rateIn_request path, rateOut_request q a s path]

/-- The ports that a path names are among the 1,024. -/
theorem cfgOk_request : cfgOk k (request q a s) = cfgOk k s := by
  have input := get_request_low (q := q) (b := a) (s := s) (f := BND_PIN_rate (s.get (BND_PATH_CFG_in_port k)))
    (bndPin_low (s.get_lt (BND_PATH_CFG_in_port k)))
  have output : ∀ lo n, (request q a s).get ⟨BND_POUT (outPort k s), lo, n⟩ = s.get ⟨BND_POUT (outPort k s), lo, n⟩ := fun _ _ =>
    get_request_low (bndPout_low (s.get_lt (BND_PATH_CFG2_out_port k)))
  rw [cfgOk, cfgOk, rateOut_request q a s path]
  cases rateOut k s with
  | none => rfl
  | some f =>
    dsimp only
    rw [rateIn_request path, outPort_request path, inPort_request path, input, BND_POUT_src, BND_POUT_rate, output, output]

end

section
variable {d : Nat} (dir : d < 2)
include dir

theorem lt_of_mem_dirPaths {k : Nat} (h : k ∈ dirPaths d) : k < 128 := by
  obtain ⟨i, hi, rfl⟩ := List.mem_map.1 h
  have := List.mem_range.1 hi
  omega

theorem heldLoad_request (c : Option Nat) : heldLoad d c (request q a s) = heldLoad d c s := by
  have held : ∀ k ∈ dirPaths d, (decide (2 ≤ admState k (request q a s)) &&
      c.all fun c => decide (pathClass k (request q a s) = c)) =
      (decide (2 ≤ admState k s) && c.all fun c => decide (pathClass k s = c)) := fun k hk => by
    have path := lt_of_mem_dirPaths dir hk
    rw [admState_request path, pathClass_request q a s path]
  unfold heldLoad
  rw [List.filter_congr held]
  exact congrArg List.sum (List.map_congr_left fun k hk =>
    pathLoad_request q a s (lt_of_mem_dirPaths dir (List.mem_filter.1 hk).1))

theorem floorOf_request (c : Nat) : floorOf d c (request q a s) = floorOf d c s := by
  rw [floorOf, floorOf, rd_request_low (by simp only [BND_ADM_RES]; omega)]

theorem neverFits_request (c l : Nat) : neverFits d c l (request q a s) = neverFits d c l s := by
  simp only [neverFits, floorOf_request q a s dir]

theorem fitsNow_request (c l : Nat) : fitsNow d c l (request q a s) = fitsNow d c l s := by
  have throttle : (request q a s).on TH_STAT_throttle = s.on TH_STAT_throttle := on_request_low (by decide)
  have dl : (request q a s).get BND_ADM_THR_thr_dl = s.get BND_ADM_THR_thr_dl := get_request_low (by decide)
  have ul : (request q a s).get BND_ADM_THR_thr_ul = s.get BND_ADM_THR_thr_ul := get_request_low (by decide)
  have cap : capacity d (request q a s) = capacity d s := by rw [capacity, capacity, throttle, dl, ul]
  have floors : ((otherClasses c).map fun x => floorOf d x (request q a s) - heldLoad d (some x) (request q a s)) =
      (otherClasses c).map fun x => floorOf d x s - heldLoad d (some x) s :=
    List.map_congr_left fun x _ => by rw [floorOf_request q a s dir, heldLoad_request q a s dir]
  rw [fitsNow, fitsNow, throttle, cap, floors, heldLoad_request q a s dir]

end

end

/-- The QUEUED paths of a direction are those of another state that shows the same admission states. -/
theorem queuedPaths_congr {d : Nat} {s t : State} (dir : d < 2) (h : ∀ k < 128, admState k t = admState k s) :
    queuedPaths d t = queuedPaths d s :=
  List.filter_congr fun k hk => by rw [h k (lt_of_mem_dirPaths dir hk)]

theorem queuedPaths_request {d : Nat} (dir : d < 2) (q : Rq) (a : Nat) (s : State) :
    queuedPaths d (request q a s) = queuedPaths d s :=
  queuedPaths_congr dir fun _ path => admState_request path q a s

/-! ## ADMIT and RELEASE (R199) -/

/-- Path k has taken its place in the order of requests (R198). -/
abbrev requested (k : Nat) (s : State) : State :=
  updBnd k (fun p => { p with req := s.admSeq + 1 }) { s with admSeq := s.admSeq + 1 }

section
variable {k : Nat} {s : State}

theorem wrPathCmd_admit : wrPathCmd k 1 s = admitNow k s := by
  have op : wf 1 (BND_PATH_CMD_op k) = 1 := by
    change fieldOf 1 0 2 = 1
    decide
  simp only [wrPathCmd, op]

theorem admitNow_busy (busy : admState k s ≠ 0) : admitNow k s = admNow k .state s := if_pos busy

section
variable (idle : admState k s = 0) (cfg : cfgOk k s = true)
include idle cfg

theorem admitNow_capacity (never : neverFits (pathDir k) (pathClass k s) (pathLoad k s) s = true) :
    admitNow k s = admNow k .capacity s := by
  simp only [admitNow, idle, cfg, never, ne_eq, not_true_eq_false, Bool.not_true, Bool.false_eq_true, if_false, if_true]

/-- With no path QUEUED in its direction none ranks above the request, whose place in the order changes no load. -/
theorem admitNow_fits (never : neverFits (pathDir k) (pathClass k s) (pathLoad k s) s = false)
    (fits : fitsNow (pathDir k) (pathClass k s) (pathLoad k s) s = true) (none : queuedPaths (pathDir k) s = []) :
    admitNow k s = (admShow (pathDir k) (pathAdmit k (requested k s))).ret .done := by
  have fits' : fitsNow (pathDir k) (pathClass k (requested k s)) (pathLoad k (requested k s)) (requested k s) = true := fits
  have none' : queuedPaths (pathDir k) (requested k s) = [] := none
  simp only [requested] at fits' none'
  simp only [admitNow, idle, cfg, never, fits', none', List.any_nil, ne_eq, not_true_eq_false, Bool.not_true, Bool.not_false,
    Bool.and_self, Bool.false_eq_true, if_false, if_true]

end

theorem release_admitted (admitted : admState k s = 2) :
    release k s = (admShow (pathDir k) (pathReleasing k false
      ((s.set (BND_PATH_STAT_outcome k) Code.held.n).set (BND_PATH_STAT_reason k) 0))).ret .held := by
  simp only [release, admitted]

theorem release_queued (queued : admState k s = 1) (waits : (nth s.bnd k).admWait = true) :
    release k s = admShow (pathDir k) (admNow k .done (rptLeft k 3 (admEnd k .aborted 1 (pathIdle k s)))) := by
  simp only [release, queued, waits, if_true]

theorem releaseRampEnd_released (releasing : admState k s = 3) (own : s.on (BND_PATH_STAT_evicted k) = false) :
    releaseRampEnd k s = queuePass (pathDir k) (admEnd k .done 0 (pathIdle k s)) := by
  simp only [releaseRampEnd, releasing, own, Bool.false_eq_true, if_false, if_true]

theorem releaseRampEnd_evicted (releasing : admState k s = 3) (evicted : s.on (BND_PATH_STAT_evicted k) = true) :
    releaseRampEnd k s = queuePass (pathDir k) (bndEvt 4 (s.set (BND_PATH_STAT_state k) 1)) := by
  simp only [releaseRampEnd, releasing, evicted, if_true]

end

/-! ## Floors and thresholds (R196, R197, R200) -/

section
variable {w : Word} {s : State}

theorem admState_store_admRes {d k : Nat} :
    admState k (s.store (BND_ADM_RES d) BND_ADM_RES_fs w) = admState k s :=
  store_get_ne s (by simp only [BND_ADM_RES, BND_PATH_STAT_state, BND_PATH_STAT]; omega)

/-- Allowed floors while no path is QUEUED. -/
theorem wrAdmRes_stored {d : Nat} (dir : d < 2)
    (floors : fieldOf w 0 8 + fieldOf w 8 8 + fieldOf w 16 8 + fieldOf w 24 8 ≤ 128) (none : queuedPaths d s = []) :
    wrAdmRes d w s = (queuePass d (s.store (BND_ADM_RES d) BND_ADM_RES_fs w)).ret .done := by
  have bad : floorsBad w = false := decide_eq_false (Nat.not_lt.2 floors)
  have none' : queuedPaths d (s.store (BND_ADM_RES d) BND_ADM_RES_fs w) = [] :=
    (queuedPaths_congr dir fun _ _ => admState_store_admRes).trans none
  simp only [wrAdmRes, bad, none', List.foldl_nil, Bool.false_eq_true, if_false]

theorem wrAdmThr_stored (dl : 32 ≤ wf w BND_ADM_THR_thr_dl ∧ wf w BND_ADM_THR_thr_dl ≤ 512)
    (ul : 32 ≤ wf w BND_ADM_THR_thr_ul ∧ wf w BND_ADM_THR_thr_ul ≤ 512) :
    wrAdmThr w s = (capacityChange 1 (capacityChange 0 (s.store BND_ADM_THR BND_ADM_THR_fs w))).ret .done :=
  if_neg (by omega)

theorem wrAdmThr_range (h : wf w BND_ADM_THR_thr_dl < 32 ∨ 512 < wf w BND_ADM_THR_thr_ul) : wrAdmThr w s = s.ret .range :=
  if_pos (by omega)

end

/-- Settles O16: a command is judged in the state that has accepted its write, in which the paths, their ports, the floors and the
capacity are as before; a release ends and a queue pass runs as their functions say. -/
theorem admission : Obligations.Admission := by
  unfold Obligations.Admission
  refine ⟨?_, ?_, ?_, ?_, ?_, ?_, ?_, ?_, ?_, ?_, ?_⟩
  · intro q k s sent idle cfg never fits none
    have effect := admitNow_fits (k := k) (s := request q (BND_PATH_CMD k) s) ((admState_request k.isLt ..).trans idle)
      ((cfgOk_request q _ s k.isLt).trans cfg)
    simp only [pathClass_request q _ s k.isLt, pathLoad_request q _ s k.isLt, neverFits_request q _ s (pathDir_lt k.isLt),
      fitsNow_request q _ s (pathDir_lt k.isLt), queuedPaths_request (pathDir_lt k.isLt), requested, request_admSeq] at effect
    exact congrArg Host.Outcome.next (gated_uncounted sent (wrPathCmd_admit.trans (effect never fits none)) (.inl rfl))
  · intro q k s sent busy
    have effect := admitNow_busy ((admState_request k.isLt q (BND_PATH_CMD k) s).trans_ne busy)
    exact congrArg Host.Outcome.next (gated_counted sent (wrPathCmd_admit.trans effect) rfl)
  · intro q k s sent idle cfg never
    have effect := admitNow_capacity (k := k) (s := request q (BND_PATH_CMD k) s) ((admState_request k.isLt ..).trans idle)
      ((cfgOk_request q _ s k.isLt).trans cfg)
    simp only [pathClass_request q _ s k.isLt, pathLoad_request q _ s k.isLt, neverFits_request q _ s (pathDir_lt k.isLt)] at effect
    exact congrArg Host.Outcome.next (gated_counted sent (wrPathCmd_admit.trans (effect never)) rfl)
  · intro q k s sent admitted
    exact congrArg Host.Outcome.next
      (gated_uncounted sent (release_admitted ((admState_request k.isLt ..).trans admitted)) (.inr (.inl rfl)))
  · intro q k s sent queued waits
    refine congrArg Host.Outcome.next
      (gated_uncounted sent (release_queued ((admState_request k.isLt ..).trans queued) ?_) (.inl rfl))
    rwa [request_bnd]
  · intro k s releasing own
    exact congrArg Host.Outcome.next (releaseRampEnd_released releasing own)
  · intro k s releasing evicted
    exact congrArg Host.Outcome.next (releaseRampEnd_evicted releasing evicted)
  · intro d s live
    exact congrArg Host.Outcome.next (if_neg (live.trans_ne Bool.false_ne_true))
  · intro q r w s floorReg sent floors none
    have dir : r.val < 2 := by omega
    refine congrArg Host.Outcome.next ((if_neg floorReg).trans
      (gated_uncounted sent (wrAdmRes_stored dir floors ?_) (.inl rfl)))
    rwa [queuedPaths_request dir]
  · intro q w s sent dl ul
    exact congrArg Host.Outcome.next (gated_uncounted sent (wrAdmThr_stored dl ul) (.inl rfl))
  · intro q w s sent bad
    exact congrArg Host.Outcome.next (gated_uncounted sent (wrAdmThr_range bad) (.inr (.inr (.inr rfl))))

end Sys2Proof.Machine

namespace Sys2Proof.Machine

/-! ## SYNC_IN (R190, R192) -/

section
variable {s : State}

/-- The event gap is a field of a register that an edge does not write. -/
theorem evGap_edgeStamped (t : State) (v : Word) :
    ((t.addSat BND_SYNC_STAT_edges 1).wr BND_SYNC_TIME v).get BND_SYNC_CTRL_ev_gap = t.get BND_SYNC_CTRL_ev_gap := by
  rw [wr_get_ne _ (by decide), addSat_get_ne _ (by decide)]

/-- An edge that is accepted is counted and stamped; it schedules a restart in mode 2, and in mode 1 where armed. -/
theorem bandSyncEdge_accepted {ago : Nat} {low : Bool} (live : bndHeld s = false) (heard : s.bsync.stuck = false ∨ low = true) :
    bandSyncEdge ago low s =
      let mode := s.get BND_SYNC_CTRL_mode
      ((({ s with bsync := { s.bsync with
        stuck := false
        armed := s.bsync.armed && decide (mode ≠ 1)
        edges := if decide (mode = 2) || (decide (mode = 1) && s.bsync.armed) then s.bsync.edges ++ [s.bandTime - ago + 1024]
          else s.bsync.edges } }.addSat BND_SYNC_STAT_edges 1).wr BND_SYNC_TIME
            (BitVec.ofNat 32 (s.bandTime - ago))).flagLimited BND_EVT_sync_edge 288 (s.get BND_SYNC_CTRL_ev_gap * msTicks)) := by
  have pass : (bndHeld s || (s.bsync.stuck && !low)) = false := by
    rcases heard with h | h <;> simp [live, h]
  simp only [bandSyncEdge, pass, Bool.false_eq_true, if_false, evGap_edgeStamped]
  rfl

theorem bandSyncGlitch_live (live : bndHeld s = false) : bandSyncGlitch s = s.addSat BND_SYNC_STAT_glitches 1 :=
  if_neg (live.trans_ne Bool.false_ne_true)

theorem syncStuck_first (live : bndHeld s = false) (first : s.bsync.stuck = false) :
    syncStuck s = bndEvt 1 ({ s with bsync := { s.bsync with stuck := true } }.addSat BND_SYNC_STAT_stuck 1) := by
  simp only [syncStuck, live, first, Bool.or_self, Bool.false_eq_true, if_false]

/-! ## Arming and commanded restarts (R190, R193) -/

section
variable (w : Word)

theorem wf_arm_force : wf (force w BND_SYNC_CTRL_arm 1) BND_SYNC_CTRL_arm = 1 := wf_force w (by decide)

theorem wf_syncMode_force : wf (force w BND_SYNC_CTRL_arm 1) BND_SYNC_CTRL_mode = wf w BND_SYNC_CTRL_mode :=
  wf_force_ne w (by decide) (by decide)

theorem wf_stuckMs_force : wf (force w BND_SYNC_CTRL_arm 1) BND_SYNC_CTRL_stuck_ms = wf w BND_SYNC_CTRL_stuck_ms :=
  wf_force_ne w (by decide) (by decide)

theorem wf_evGap_force : wf (force w BND_SYNC_CTRL_arm 1) BND_SYNC_CTRL_ev_gap = wf w BND_SYNC_CTRL_ev_gap :=
  wf_force_ne w (by decide) (by decide)

end

section
variable {w : Word}

theorem wrSyncCtrl_arms (mode : wf w BND_SYNC_CTRL_mode ≠ 3) (stuck : wf w BND_SYNC_CTRL_stuck_ms ≠ 0)
    (gap : wf w BND_SYNC_CTRL_ev_gap ≠ 0) (arm : wf w BND_SYNC_CTRL_arm = 1) :
    wrSyncCtrl w s =
      { s.store BND_SYNC_CTRL BND_SYNC_CTRL_fs w with bsync := { s.bsync with armed := true } }.ret .done := by
  simp only [wrSyncCtrl, mode, stuck, gap, arm, or_self, if_false, if_true, store_bsync]

theorem wrSyncCmd_free {b : BndSync} {now : Nat} (sync : s.bsync = b) (time : s.bandTime = now) (free : b.cmd = none) :
    wrSyncCmd w s =
      ({ s with bsync := { b with cmd := some (nextBand now w.toNat) } }.set BND_SYNC_RESULT_outcome Code.held.n).ret .held := by
  subst sync time
  simp only [wrSyncCmd, free, Option.isSome_none, Bool.false_eq_true, if_false]

end

theorem bsync_restartPath (t k : Nat) (s : State) : (restartPath t k s).bsync = s.bsync := by
  unfold restartPath
  split <;> rfl

theorem bsync_restartPaths (t n : Nat) (s : State) : (forN n (restartPath t) s).bsync = s.bsync :=
  List.foldlRecOn (motive := fun r => r.bsync = s.bsync) _ _ rfl fun r hr k _ => (bsync_restartPath t k r).trans hr

/-- With no edge's restart scheduled the commanded one is the earliest. -/
theorem syncRestart_commanded {t : Nat} (cmd : s.bsync.cmd = some t) (edges : s.bsync.edges = []) :
    syncRestart s = bndEvt 2 ({ forN 128 (restartPath t) s with
      bsync := { s.bsync with cmd := none, made := s.bsync.made + 1 } }.set BND_SYNC_RESULT_outcome Code.done.n) := by
  have earliest : nextRestart s.bsync = some t := by simp [nextRestart, cmd, edges]
  simp only [syncRestart, earliest, cmd, bsync_restartPaths, decide_true, if_true, edges, List.filter_nil]

end

/-! ## Meters (R186) -/

theorem meterWindowEnd_finished {k : Nat} {m : MtrWin} {l : List MtrWin} {s : State} (h : (nth s.bnd k).mtrs = m :: l) :
    meterWindowEnd k s = nrWindow k m.mOut.levels.1 m.open_
      (meterPut (BND_PATH_MTR_OUT_level k) (BND_PATH_MTR_OUT_peak k) m.mOut.levels
        (meterPut (BND_PATH_MTR_RES_level k) (BND_PATH_MTR_RES_peak k) m.mRes.levels
          (meterPut (BND_PATH_MTR_IN_level k) (BND_PATH_MTR_IN_peak k) m.mIn.levels
            (updBnd k (fun p => { p with mtrs := l }) s)))) := by
  simp only [meterWindowEnd, h]

theorem meterWindowEnd_none {k : Nat} {s : State} (h : (nth s.bnd k).mtrs = []) : meterWindowEnd k s = s := by
  simp only [meterWindowEnd, h]

/-! ## Measurement (R194, R195) -/

section
variable (q : Rq) (a : Nat) (s : State)

/-- The channel registers name one of the 128 paths each. -/
theorem measRate_request {c : Nat} (channel : c < 16) : measRate c (request q a s) = measRate c s := by
  have src : ∀ lo n, (request q a s).get ⟨BND_MEAS_SRC c, lo, n⟩ = s.get ⟨BND_MEAS_SRC c, lo, n⟩ := fun _ _ =>
    get_request_low (by simp only [BND_MEAS_SRC]; omega)
  have path : s.get ⟨BND_MEAS_SRC c, 0, 7⟩ < 128 := s.get_lt _
  rw [measRate, measRate, BND_MEAS_SRC_path, BND_MEAS_SRC_point, src, src, rateOut_request q a s path, rateIn_request path]

theorem measSame_request (mask : Nat) : measSame mask (request q a s) = measSame mask s := by
  have first : ∀ cs : List Nat, (∀ c ∈ cs, c < 16) → measRate (cs.getD 0 0) (request q a s) = measRate (cs.getD 0 0) s := by
    rintro (_ | ⟨c, cs⟩) h
    · exact measRate_request q a s (by decide)
    · exact measRate_request q a s (h c (by simp))
  have channels : ∀ c ∈ (List.range 16).filter (fun c => decide (mask / 2 ^ c % 2 = 1)), c < 16 := fun c hc =>
    List.mem_range.1 (List.mem_filter.1 hc).1
  unfold measSame
  dsimp only
  rw [first _ channels, Bool.eq_iff_iff]
  simp only [List.all_eq_true]
  exact forall₂_congr fun c hc => by rw [measRate_request q a s (channels c hc)]

theorem measBusy_request : (request q a s).on BND_MEAS_CTRL_busy = s.on BND_MEAS_CTRL_busy := on_request_low (by decide)

end

section
variable (w : Word)

theorem wf_measRun_force : wf (force w BND_MEAS_CTRL_run 1) BND_MEAS_CTRL_run = 1 := wf_force w (by decide)

theorem wf_measLen_force : wf (force w BND_MEAS_CTRL_run 1) BND_MEAS_CTRL_len = wf w BND_MEAS_CTRL_len :=
  wf_force_ne w (by decide) (by decide)

theorem wf_chEn_force : wf (force w BND_MEAS_CTRL_run 1) BND_MEAS_CTRL_ch_en = wf w BND_MEAS_CTRL_ch_en :=
  wf_force_ne w (by decide) (by decide)

end

section
variable {w : Word} {s : State} (run : wf w BND_MEAS_CTRL_run = 1)
include run

theorem wrMeasCtrl_busy (busy : s.on BND_MEAS_CTRL_busy = true) : wrMeasCtrl w s = s.ret .state := by
  simp only [wrMeasCtrl, run, busy, decide_true, Bool.and_self, if_true]

theorem wrMeasCtrl_runs (free : s.on BND_MEAS_CTRL_busy = false) (len : wf w BND_MEAS_CTRL_len ≤ 12)
    (same : measSame (wf w BND_MEAS_CTRL_ch_en) s = true) :
    wrMeasCtrl w s =
      (({ s.store BND_MEAS_CTRL BND_MEAS_CTRL_fs w with meas := { start := s.bandTime } }.set BND_MEAS_CTRL_busy 1).set
        BND_MEAS_CTRL_outcome Code.held.n).ret .held := by
  simp only [wrMeasCtrl, run, free, same, if_neg (Nat.not_lt.2 len), decide_true, Bool.and_false, Bool.not_true, Bool.false_eq_true,
    if_false, store_bandTime]

theorem wrMeasCtrl_differ (free : s.on BND_MEAS_CTRL_busy = false) (len : wf w BND_MEAS_CTRL_len ≤ 12)
    (differ : measSame (wf w BND_MEAS_CTRL_ch_en) s = false) :
    wrMeasCtrl w s = (s.set BND_MEAS_CTRL_outcome Code.range.n).ret .range := by
  simp only [wrMeasCtrl, run, free, differ, if_neg (Nat.not_lt.2 len), decide_true, Bool.and_false, Bool.not_false, Bool.and_self,
    Bool.false_eq_true, if_false, if_true]

end

/-- The means of the channels' correlators over n samples, stored for the channels l. -/
def measStore (n : Nat) (ch : List Corr) (l : List Nat) (t : State) : State :=
  l.foldl (fun t c => (t.wr (BND_MEAS_RE c) (corrWord (nth ch c).re n)).wr (BND_MEAS_IM c) (corrWord (nth ch c).im n)) t

/-- Storing a channel's means leaves the correlators, so that each channel stores those of the run's end. -/
theorem foldl_corrWord (n : Nat) (l : List Nat) (t : State) :
    l.foldl (fun t c => (t.wr (BND_MEAS_RE c) (corrWord (nth t.meas.ch c).re n)).wr (BND_MEAS_IM c)
      (corrWord (nth t.meas.ch c).im n)) t = measStore n t.meas.ch l t := by
  induction l generalizing t with
  | nil => rfl
  | cons c l ih => exact ih _

section
variable {s : State}

theorem measEnd_ready (busy : s.on BND_MEAS_CTRL_busy = true) (ready : measReady s = true) :
    measEnd s = bndEvt 6 (((measStore (measLen s) s.meas.ch (measOn s)
      (s.wr BND_MEAS_T0 (BitVec.ofInt 32 (s.meas.t0.getD 0)))).set BND_MEAS_CTRL_busy 0).set BND_MEAS_CTRL_outcome
        Code.done.n) := by
  simp only [measEnd, busy, ready, Bool.and_self, if_true, foldl_corrWord, wr_meas]

theorem measEnd_unready (h : s.on BND_MEAS_CTRL_busy = false ∨ measReady s = false) : measEnd s = s := by
  refine if_neg ?_
  rcases h with h | h <;> simp [h]

end

/-! ## Reads that clear or latch (R170, R171, R192) -/

theorem gatedRead_clear {q : Rq} {a : Nat} {s : State} (reads : Reads q a s) (low : a < 0x40300000) :
    gatedRead q a (clearRead a) s = ((request q a s).retData [s.rd a]).wr a 0 := by
  rw [gatedRead_go reads, clearRead, plainRead, rd_request_low low]

/-- Settles O17: a write and a read are judged in the state that has accepted them, in which the band time, SYNC_IN's state and the
points of measurement are as before; what each event does, the lemma of its function says. -/
theorem bandTimeAndMeasurement : Obligations.BandTimeAndMeasurement := by
  unfold Obligations.BandTimeAndMeasurement
  refine ⟨?_, ?_, ?_, ?_, ?_, ?_, ?_, ?_, ?_, ?_, ?_, ?_, ?_, ?_, ?_, ?_, ?_⟩
  · intro ago low s live heard mode
    have effect := bandSyncEdge_accepted (ago := ago) live heard
    simp only [mode, ne_eq, OfNat.zero_ne_ofNat, zero_ne_one, not_false_eq_true, decide_true, decide_false, Bool.and_true,
      Bool.false_and, Bool.or_self, Bool.false_eq_true, if_false] at effect
    exact congrArg Host.Outcome.next effect
  · intro ago low s live heard mode
    have effect := bandSyncEdge_accepted (ago := ago) live heard
    simp only [mode, ne_eq, OfNat.ofNat_ne_one, not_false_eq_true, decide_true, Bool.and_true, Bool.true_or, if_true] at effect
    exact congrArg Host.Outcome.next effect
  · intro s live
    exact congrArg Host.Outcome.next (bandSyncGlitch_live live)
  · intro s live first
    exact congrArg Host.Outcome.next (syncStuck_first live first)
  · intro q w s sent mode stuck gap
    have effect := wrSyncCtrl_arms (s := request q BND_SYNC_CTRL s) ((wf_syncMode_force w).trans_ne mode)
      ((wf_stuckMs_force w).trans_ne stuck) ((wf_evGap_force w).trans_ne gap) (wf_arm_force w)
    rw [request_bsync] at effect
    exact congrArg Host.Outcome.next (gated_uncounted sent effect (.inl rfl))
  · intro q w s sent free
    exact congrArg Host.Outcome.next
      (gated_uncounted sent (wrSyncCmd_free (request_bsync ..) (request_bandTime ..) free) (.inr (.inl rfl)))
  · intro s t cmd edges
    exact congrArg Host.Outcome.next (syncRestart_commanded cmd edges)
  · intro k m l s finished
    exact congrArg Host.Outcome.next (meterWindowEnd_finished finished)
  · intro k s none
    exact congrArg Host.Outcome.next (meterWindowEnd_none none)
  · intro q w s sent free len same
    have effect := wrMeasCtrl_runs (wf_measRun_force w) ((measBusy_request q BND_MEAS_CTRL s).trans free)
      ((wf_measLen_force w).trans_le len) (by rwa [wf_chEn_force, measSame_request])
    rw [request_bandTime] at effect
    exact congrArg Host.Outcome.next (gated_uncounted sent effect (.inr (.inl rfl)))
  · intro q w s sent busy
    exact congrArg Host.Outcome.next (gated_counted sent
      (wrMeasCtrl_busy (wf_measRun_force w) ((measBusy_request q BND_MEAS_CTRL s).trans busy)) rfl)
  · intro q w s sent free len differ
    refine congrArg Host.Outcome.next (gated_uncounted sent (wrMeasCtrl_differ (wf_measRun_force w)
      ((measBusy_request q BND_MEAS_CTRL s).trans free) ((wf_measLen_force w).trans_le len) ?_) (.inr (.inr (.inr rfl))))
    rwa [wf_chEn_force, measSame_request]
  · intro s busy ready
    exact congrArg Host.Outcome.next (measEnd_ready busy ready)
  · intro s unready
    exact congrArg Host.Outcome.next (measEnd_unready unready)
  · intro q s reads
    exact congrArg Host.Outcome.next (gatedRead_clear reads (by decide))
  · intro q k s reads
    exact congrArg Host.Outcome.next (gatedRead_clear reads (bndPathSat_low k.isLt))
  · intro q s reads
    have effect := gatedRead_go (hook := rdBandTime) reads
    rw [rdBandTime, request_bandTime] at effect
    exact congrArg Host.Outcome.next effect

end Sys2Proof.Machine

namespace Sys2Proof.Machine

/-! # Repeater control -/

/-! ## The repeater's registers where an access has been accepted -/

section
variable {k : Nat} (path : k < 128)
include path

theorem rptPathCfg_low : RPT_PATH_CFG k < 0x40300000 := by simp only [RPT_PATH_CFG]; omega
theorem rptPathStat_low : RPT_PATH_STAT k < 0x40300000 := by simp only [RPT_PATH_STAT]; omega

variable (q : Rq) (a : Nat) (s : State)

theorem rptState_request : rptState k (request q a s) = rptState k s := get_request_low (rptPathStat_low path)

theorem armPend_request : (request q a s).on (RPT_PATH_STAT_arm_pend k) = s.on (RPT_PATH_STAT_arm_pend k) :=
  on_request_low (rptPathStat_low path)

theorem rptBarred_request (r : Rq) : rptBarred r k (request q a s) = rptBarred r k s := by
  simp only [rptBarred, get_request_low (f := RPT_PATH_CFG_ctl_core k) (rptPathCfg_low path)]

end

/-! ## What an event, a change of state and a cause leave alone (R209, R212, R226) -/

section
variable {a : Nat} {s : State} (low : a < 0x40300000)
include low

theorem rd_flagLimited {f : Fd} {e gap : Nat} (flag : f.a ≠ a) : (s.flagLimited f e gap).rd a = s.rd a := by
  unfold State.flagLimited
  dsimp only
  split
  · exact (rd_raise _ e fun r => by rcases r with r | r <;> omega).trans (set_rd_ne s flag)
  · exact set_rd_ne s flag

theorem rd_rptEvt {b : Nat} (evt : RPT_EVT ≠ a) : (rptEvt b s).rd a = s.rd a := rd_flagLimited low evt

theorem rd_setRpt {k t : Nat} (evt : RPT_EVT ≠ a) (chg : RPT_CHG (k / 32) ≠ a) (stat : RPT_PATH_STAT k ≠ a) :
    (setRpt k t s).rd a = s.rd a := by
  unfold setRpt
  split
  · rfl
  · extract_lets s₁ s₂ s₃ s₄
    have own : s₄.rd a = s₁.rd a := by
      simp only [s₄, s₃, s₂]
      split_ifs <;> rfl
    calc (rptEvt 0 (s₄.set ⟨RPT_CHG (k / 32), k % 32, 1⟩ 1)).rd a
        = (s₄.set ⟨RPT_CHG (k / 32), k % 32, 1⟩ 1).rd a := rd_rptEvt low evt
      _ = s₄.rd a := set_rd_ne s₄ chg
      _ = s₁.rd a := own
      _ = s.rd a := set_rd_ne s stat

theorem rd_causeOn {k c : Nat} (evt : RPT_EVT ≠ a) (chg : RPT_CHG (k / 32) ≠ a) (stat : RPT_PATH_STAT k ≠ a) :
    (causeOn k c s).rd a = s.rd a := by
  have set : ∀ t u, (setRpt k t u).rd a = u.rd a := fun t u => rd_setRpt low evt chg stat
  have shown : (s.set (causeFd k c) 1).rd a = s.rd a := set_rd_ne s stat
  unfold causeOn
  split
  · rfl
  · extract_lets s₁ t fast s₂
    have first : s₁.rd a = s.rd a := shown
    have second : s₂.rd a = s.rd a := by
      simp only [s₂]
      split
      · exact first
      · exact first
    split_ifs
    · rw [set, first]
    · exact first
    · rw [set, second]
    · exact second

end

theorem rpt_flagLimited (f : Fd) (e gap : Nat) (s : State) : (s.flagLimited f e gap).rpt = s.rpt := by
  unfold State.flagLimited
  dsimp only
  split
  · exact raise_rpt ..
  · rfl

theorem rpt_rptEvt (b : Nat) (s : State) : (rptEvt b s).rpt = s.rpt := rpt_flagLimited ..

theorem rd_updRpt (k a : Nat) (f : RptP → RptP) (s : State) : (updRpt k f s).rd a = s.rd a := rfl

theorem get_updRpt (k : Nat) (f : RptP → RptP) (s : State) (g : Fd) : (updRpt k f s).get g = s.get g := rfl

/-- A part of a path's own state that a change leaves alone. -/
theorem rpt_updRpt_keeps {α : Type} (p : RptP → α) {n k : Nat} {f : RptP → RptP} {s : State} (h : ∀ x, p (f x) = p x) :
    p (nth (updRpt k f s).rpt n) = p (nth s.rpt n) := by
  simp only [updRpt, nth_upd]
  split
  · next e => rw [h, e.1]
  · rfl

/-- Two changes that agree on what the path's own state is are one. -/
theorem updRpt_congr {k : Nat} {f g : RptP → RptP} {s : State} (h : f (nth s.rpt k) = g (nth s.rpt k)) :
    updRpt k f s = updRpt k g s := by
  simp only [updRpt, upd_congr h]

theorem nth_updRpt {k : Nat} {f : RptP → RptP} {s : State} (known : k < s.rpt.length) :
    nth (updRpt k f s).rpt k = f (nth s.rpt k) := by
  simp only [updRpt, nth_upd, known, and_self, if_true]

/-- In ACTIVE and LIMITED a path keeps its own state. -/
theorem rpt_setRpt_active {k t : Nat} (h : t = 2 ∨ t = 3) (s : State) : (setRpt k t s).rpt = s.rpt := by
  have stays : ¬(t = 0 ∨ t = 5 ∨ t = 6) := by omega
  simp only [setRpt, if_neg stays, if_pos h]
  split
  · rfl
  · exact rpt_rptEvt ..

@[simp] theorem rpt_causeOff (k c : Nat) (s : State) : (causeOff k c s).rpt = s.rpt := rfl

theorem oscHold_setRpt (k t n : Nat) (s : State) : (nth (setRpt k t s).rpt n).oscHold = (nth s.rpt n).oscHold := by
  unfold setRpt
  split
  · rfl
  · simp only [rpt_rptEvt, set_rpt]
    split_ifs <;> simp only [rpt_updRpt_keeps RptP.oscHold, implies_true, set_rpt]

theorem oscHold_causeOn (k c n : Nat) (s : State) : (nth (causeOn k c s).rpt n).oscHold = (nth s.rpt n).oscHold := by
  unfold causeOn
  split
  · rfl
  · dsimp only
    split_ifs <;> simp only [oscHold_setRpt, rpt_updRpt_keeps RptP.oscHold, implies_true, set_rpt]

theorem oscHold_retakeCauses (k n : Nat) (s : State) : (nth (retakeCauses k s).rpt n).oscHold = (nth s.rpt n).oscHold := by
  unfold retakeCauses
  dsimp only
  split_ifs <;> simp only [oscHold_causeOn]

/-! ## ARM, MUTE, OFF and CLEAR (R209, R210, R226) -/

section
variable {q : Rq} {k : Nat} {w : Word} {f : State → State} {s : State}

theorem rptOwned_free (path : k < 128) {a : Nat} (free : rptBarred q k s = false) :
    rptOwned q k f (request q a s) = f (request q a s) :=
  if_neg (((rptBarred_request path q a s q).trans free).trans_ne Bool.false_ne_true)

section
variable (path : k < 128) (sent : Sent q (RPT_PATH_CMD k) RPT_PATH_CMD_fs w s)
include path sent

theorem gated_rptBarred (barred : rptBarred q k s = true) :
    gated q (RPT_PATH_CMD k) RPT_PATH_CMD_fs w (rptOwned q k f) s =
      completed q (RPT_PATH_CMD k) true .notOwner ((request q (RPT_PATH_CMD k) s).ret .notOwner) :=
  gated_counted sent (if_pos ((rptBarred_request path q _ s q).trans barred)) rfl

/-- A command, of a requester that R226 does not bar, that the path takes. -/
theorem gated_rptTaken (free : rptBarred q k s = false) {t : State} (effect : f (request q (RPT_PATH_CMD k) s) = t)
    (code : t.reply.code = .done ∨ t.reply.code = .held) :
    gated q (RPT_PATH_CMD k) RPT_PATH_CMD_fs w (rptOwned q k f) s = t :=
  gated_uncounted sent ((rptOwned_free path free).trans effect) (code.imp_right .inl)

/-- A command, of a requester that R226 does not bar, that does not fit the path's state. -/
theorem gated_rptRefused (free : rptBarred q k s = false)
    (effect : f (request q (RPT_PATH_CMD k) s) = rptNow k .state (request q (RPT_PATH_CMD k) s)) :
    gated q (RPT_PATH_CMD k) RPT_PATH_CMD_fs w (rptOwned q k f) s =
      completed q (RPT_PATH_CMD k) true .state (rptNow k .state (request q (RPT_PATH_CMD k) s)) :=
  gated_counted sent ((rptOwned_free path free).trans effect) rfl

end

end

/-- The causes that ARM takes away (R212). -/
abbrev armCleared (k : Nat) (s : State) : State := causeOff k cNoise (causeOff k cCeil (causeOff k cCmd s))

/-- ARM waits for the causes that are left or for the end of MUTING. -/
abbrev armHeld (k : Nat) (s : State) : State :=
  ((s.set (RPT_PATH_STAT_arm_pend k) 1).set (RPT_PATH_STAT_outcome k) Code.held.n).set (RPT_PATH_STAT_reason k) 0

section
variable {k : Nat} {s : State}

theorem rptArm_refused
    (h : s.on (RPT_PATH_STAT_arm_pend k) = true ∨ rptState k s = 6 ∨ (rptState k s = 0 ∧ admState k s ≠ 2)) :
    rptArm k s = rptNow k .state s := by
  unfold rptArm
  dsimp only
  rcases h with pend | fault | off
  · exact if_pos (.inl pend)
  · exact if_pos (.inr fault)
  · rw [if_pos off, ite_self]

section
variable (first : s.on (RPT_PATH_STAT_arm_pend k) = false)
include first

theorem rptArm_running (low : 1 ≤ rptState k s) (high : rptState k s ≤ 3) :
    rptArm k s = rptNow k .done (armCleared k s) := by
  have fault : rptState k s ≠ 6 := by omega
  have off : rptState k s ≠ 0 := by omega
  simp only [rptArm, armCleared, first, fault, off, low, high, Bool.false_eq_true, or_self, false_and, and_self, if_false,
    if_true]

theorem rptArm_muting (muting : rptState k s = 4) : rptArm k s = (armHeld k (armCleared k s)).ret .held := by
  simp [rptArm, first, muting]

section
variable (muted : rptState k s = 5)
include muted

theorem rptArm_muted_starts (hold : (nth s.rpt k).oscHold = false)
    (causes : (armCleared k s).get (RPT_PATH_STAT_causes k) = 0) :
    rptArm k s = rptNow k .done (startArming k (armCleared k s)) := by
  simp [rptArm, first, muted, hold, causes]

theorem rptArm_muted_held
    (h : (nth s.rpt k).oscHold = true ∨ (armCleared k s).get (RPT_PATH_STAT_causes k) ≠ 0) :
    rptArm k s = (armHeld k (armCleared k s)).ret .held := by
  rcases h with hold | causes
  · simp [rptArm, first, muted, hold]
  · simp [rptArm, first, muted, causes]

end

section
variable (off : rptState k s = 0) (admitted : admState k s = 2)
include off admitted

theorem rptArm_off_starts (hold : (nth s.rpt k).oscHold = false)
    (causes : (retakeCauses k (armCleared k s)).get (RPT_PATH_STAT_causes k) = 0) :
    rptArm k s = rptNow k .done (startArming k (retakeCauses k (armCleared k s))) := by
  simp [rptArm, first, off, admitted, hold, causes, oscHold_retakeCauses]

theorem rptArm_off_held
    (h : (nth s.rpt k).oscHold = true ∨ (retakeCauses k (armCleared k s)).get (RPT_PATH_STAT_causes k) ≠ 0) :
    rptArm k s = (setRpt k 5 (armHeld k (retakeCauses k (armCleared k s)))).ret .held := by
  rcases h with hold | causes
  · simp [rptArm, first, off, admitted, hold, oscHold_retakeCauses]
  · simp [rptArm, first, off, admitted, causes]

end

end

theorem rptMute_on (off : rptState k s ≠ 0) (fault : rptState k s ≠ 6) :
    rptMute k s = rptNow k .done (armEnd k .aborted 1 (causeOn k cCmd s)) :=
  if_neg (not_or.2 ⟨off, fault⟩)

theorem rptMute_refused (h : rptState k s = 0 ∨ rptState k s = 6) : rptMute k s = rptNow k .state s := if_pos h

theorem rptOff_muted (h : rptState k s = 5 ∨ rptState k s = 6) : rptOff k s = rptNow k .done (rptToOff k 0 s) := if_pos h

theorem rptOff_refused (muted : rptState k s ≠ 5) (fault : rptState k s ≠ 6) : rptOff k s = rptNow k .state s :=
  if_neg (not_or.2 ⟨muted, fault⟩)

theorem rptClear_fault (fault : rptState k s = 6) :
    rptClear k s = rptNow k .done (setRpt k 5
      ((updRpt k (fun p => { p with trips := [] }) s).set (RPT_PATH_STAT_osc_trips k) 0)) :=
  if_pos fault

theorem rptClear_refused (fault : rptState k s ≠ 6) : rptClear k s = rptNow k .state s := if_neg fault

end

/-! ## The ends of ramps and the tick (R204 to R206, R209, R211, R213) -/

section
variable {k : Nat} {s : State}

theorem armingEnd_done (arming : rptState k s = 1) (up : (nth s.rpt k).r = 0) :
    armingEnd k s = setRpt k (if redSum (nth s.rpt k) = 0 then 2 else 3) s :=
  if_pos ⟨arming, up⟩

theorem mutingEnd_done (muting : rptState k s = 4) (down : (nth s.rpt k).r = 57600) : mutingEnd k s = setRpt k 5 s :=
  if_pos ⟨muting, down⟩

theorem autoRearm_starts (muted : rptState k s = 5) (causes : s.get (RPT_PATH_STAT_causes k) = 0)
    (hold : (nth s.rpt k).oscHold = false) (asks : s.on (RPT_PATH_STAT_arm_pend k) = true ∨ autoAllowed k s = true) :
    autoRearm k s = armEnd k .done 0 (startArming k s) :=
  if_pos ⟨muted, causes, by rw [hold]; rfl, asks⟩

theorem repeaterTickAll_live (live : rptHeld s = false) (runs : bandRuns s = true) :
    repeaterTickAll s = celTick (forN 128 rptTick s) := by
  simp only [repeaterTickAll, repeaterTick, live, runs, Bool.not_true, Bool.or_self, Bool.false_eq_true, if_false, if_true]

end

/-- A path's own state after a tick of its reductions and its ramp, in the state in which the applied values have fallen. -/
def rptTickRamped (k : Nat) (s : State) (p : RptP) : RptP :=
  rampR (rptState k s) (s.get (RPT_PATH_RAMP_up_rate k)) (s.get (RPT_PATH_RAMP_dn_rate k)) (fastOver k s)
    (rampRed (rptState k s) (s.get (RPT_PATH_RAMP_up_rate k))
      { p with lim := stableLim k s, trips := p.trips.filter fun x => decide (s.now < x + minute) })

/-- A path's own state after a tick. -/
def rptTicked (k : Nat) (s : State) (p : RptP) : RptP :=
  { rptTickRamped k s p with a := factorOf (rptState k s) (rptTickRamped k s p) }

section
variable {k : Nat} {s : State} {f : Fd}

/-- A fall of the applied values changes their own register alone. -/
theorem get_appFall (other : RPT_PATH_APP k ≠ f.a) : (appFall k s).get f = s.get f := by
  unfold appFall
  dsimp only
  rw [set_get_ne _ other]
  split
  · exact set_get_ne _ other
  · rfl

theorem rpt_appFall : (appFall k s).rpt = s.rpt := by
  unfold appFall
  dsimp only
  rw [set_rpt]
  split <;> rfl

theorem rptState_appFall : rptState k (appFall k s) = rptState k s :=
  get_appFall (by simp only [RPT_PATH_APP, RPT_PATH_STAT_state, RPT_PATH_STAT]; omega)

theorem rpt_rptTick : (rptTick k s).rpt = upd s.rpt k (rptTicked k (appFall k s)) := by
  unfold rptTick
  extract_lets u lim up t v w x
  have active : x.rpt = w.rpt := by
    simp only [x]
    split
    · exact rpt_setRpt_active (ite_eq_or_eq _ 2 3) w
    · rfl
  calc (rptShow k x).rpt
      = x.rpt := rfl
    _ = w.rpt := active
    _ = upd u.rpt k (rptTicked k u) := rfl
    _ = upd s.rpt k (rptTicked k u) := by rw [rpt_appFall]

end

section
variable (t up dn : Nat) (ended : Bool) (p : RptP)

/-- The ramp changes r and the mark of a fast ramp-down alone. -/
theorem rampR_eq : ∃ r fast, rampR t up dn ended p = { p with r := r, fast := fast } := by
  unfold rampR
  split_ifs
  · exact ⟨p.r - up, p.fast, rfl⟩
  · exact ⟨min 57600 (p.r + dn), p.fast, rfl⟩
  · exact ⟨57600, false, rfl⟩
  · exact ⟨p.r, p.fast, rfl⟩
  · exact ⟨p.r, p.fast, rfl⟩

theorem lim_rampR : (rampR t up dn ended p).lim = p.lim := by
  obtain ⟨r, fast, e⟩ := rampR_eq t up dn ended p
  rw [e]

theorem redSum_rampR : redSum (rampR t up dn ended p) = redSum p := by
  obtain ⟨r, fast, e⟩ := rampR_eq t up dn ended p
  rw [e]
  rfl

theorem red_rampR : (rampR t up dn ended p).red = p.red := by
  obtain ⟨r, fast, e⟩ := rampR_eq t up dn ended p
  rw [e]

/-- A tick leaves the applied reduction at or above the sum. -/
theorem red_rampRed : 60 * redSum (rampRed t up p) ≤ (rampRed t up p).red := le_max_left ..

/-- The factor rests on the factor before only where that stays. -/
theorem factorOf_self : factorOf t { p with a := factorOf t p } = factorOf t p := by
  by_cases off : t = 0 ∨ t = 5 ∨ t = 6 ∨ (t = 4 ∧ p.r = 57600)
  · simp only [factorOf, if_pos off]
  · by_cases fast : t = 4 ∧ p.fast = true
    · simp only [factorOf, if_neg off, if_pos fast]
    · simp only [factorOf, if_neg off, if_neg fast, attTotal]

end

section
variable {k : Nat} {s : State} {p : RptP}

theorem lim_rptTicked : (rptTicked k s p).lim = stableLim k s := by
  simp only [rptTicked, rptTickRamped, lim_rampR, rampRed]

theorem r_rptTicked_arming (arming : rptState k s = 1) : (rptTicked k s p).r = p.r - s.get (RPT_PATH_RAMP_up_rate k) := by
  simp only [rptTicked, rptTickRamped, rampR, rampRed, arming, if_true]

theorem r_rptTicked_muting (muting : rptState k s = 4) (slow : p.fast = false) :
    (rptTicked k s p).r = min 57600 (p.r + s.get (RPT_PATH_RAMP_dn_rate k)) := by
  simp [rptTicked, rptTickRamped, rampR, rampRed, muting, slow]

theorem red_rptTicked : 60 * redSum (rptTicked k s p) ≤ (rptTicked k s p).red := by
  have applied : 60 * redSum (rptTickRamped k s p) ≤ (rptTickRamped k s p).red := by
    rw [rptTickRamped, redSum_rampR, red_rampR]
    exact red_rampRed ..
  exact applied

theorem a_rptTicked : (rptTicked k s p).a = factorOf (rptState k s) (rptTicked k s p) := by
  rw [rptTicked, factorOf_self]

end

/-- What a tick of path k leaves of the path's own state (R205, R206, R211). -/
theorem nth_rptTick {k : Nat} {s : State} (known : k < s.rpt.length) :
    nth (rptTick k s).rpt k = rptTicked k (appFall k s) (nth s.rpt k) := by
  simp only [rpt_rptTick, nth_upd, known, and_self, if_true]

/-- The rates of the ramp lie beside the applied values. -/
theorem get_ramp_appFall (k lo n : Nat) (s : State) :
    (appFall k s).get ⟨RPT_PATH_RAMP k, lo, n⟩ = s.get ⟨RPT_PATH_RAMP k, lo, n⟩ :=
  get_appFall (by simp only [RPT_PATH_APP, RPT_PATH_RAMP]; omega)

/-- Settles O18: a command is judged in the state that has accepted its write, in which the path is as before; a tick of a path
leaves what its steps make of the path's own state. -/
theorem repeaterCommands : Obligations.RepeaterCommands := by
  unfold Obligations.RepeaterCommands
  refine ⟨?_, ?_, ?_, ?_, ?_, ?_, ?_, ?_, ?_, ?_, ?_, ?_, ?_, ?_, ?_, ?_, ?_, ?_, ?_, ?_, ?_, ?_⟩
  · intro q k s sent free off admitted first hold causes
    have was := rptState_request k.isLt q (RPT_PATH_CMD k) s
    have pend := (armPend_request k.isLt q (RPT_PATH_CMD k) s).trans first
    have adm := (admState_request k.isLt q (RPT_PATH_CMD k) s).trans admitted
    have effect := rptArm_off_starts pend (was.trans off) adm (by rwa [request_rpt]) causes
    exact congrArg Host.Outcome.next (gated_rptTaken k.isLt sent free effect (.inl rfl))
  · intro q k s sent free muted first hold causes
    have was := rptState_request k.isLt q (RPT_PATH_CMD k) s
    have pend := (armPend_request k.isLt q (RPT_PATH_CMD k) s).trans first
    have effect := rptArm_muted_starts pend (was.trans muted) (by rwa [request_rpt]) causes
    exact congrArg Host.Outcome.next (gated_rptTaken k.isLt sent free effect (.inl rfl))
  · intro q k s sent free muted first waits
    have was := rptState_request k.isLt q (RPT_PATH_CMD k) s
    have pend := (armPend_request k.isLt q (RPT_PATH_CMD k) s).trans first
    have effect := rptArm_muted_held pend (was.trans muted) (by rwa [request_rpt])
    exact congrArg Host.Outcome.next (gated_rptTaken k.isLt sent free effect (.inr rfl))
  · intro q k s sent free off admitted first waits
    have was := rptState_request k.isLt q (RPT_PATH_CMD k) s
    have pend := (armPend_request k.isLt q (RPT_PATH_CMD k) s).trans first
    have adm := (admState_request k.isLt q (RPT_PATH_CMD k) s).trans admitted
    have effect := rptArm_off_held pend (was.trans off) adm (by rwa [request_rpt])
    exact congrArg Host.Outcome.next (gated_rptTaken k.isLt sent free effect (.inr rfl))
  · intro q k s sent free low high first
    have was := rptState_request k.isLt q (RPT_PATH_CMD k) s
    have pend := (armPend_request k.isLt q (RPT_PATH_CMD k) s).trans first
    have effect := rptArm_running pend (low.trans_eq was.symm) (was.trans_le high)
    exact congrArg Host.Outcome.next (gated_rptTaken k.isLt sent free effect (.inl rfl))
  · intro q k s sent free muting first
    have was := rptState_request k.isLt q (RPT_PATH_CMD k) s
    have pend := (armPend_request k.isLt q (RPT_PATH_CMD k) s).trans first
    have effect := rptArm_muting pend (was.trans muting)
    exact congrArg Host.Outcome.next (gated_rptTaken k.isLt sent free effect (.inr rfl))
  · intro q k s sent free bad
    rw [← armPend_request k.isLt q (RPT_PATH_CMD k) s, ← rptState_request k.isLt q (RPT_PATH_CMD k) s,
      ← admState_request k.isLt q (RPT_PATH_CMD k) s] at bad
    exact congrArg Host.Outcome.next (gated_rptRefused k.isLt sent free (rptArm_refused bad))
  · intro q k s sent barred
    exact congrArg Host.Outcome.next (gated_rptBarred k.isLt sent barred)
  · intro q k s sent free off fault
    have was := rptState_request k.isLt q (RPT_PATH_CMD k) s
    have effect := rptMute_on (was.trans_ne off) (was.trans_ne fault)
    exact congrArg Host.Outcome.next (gated_rptTaken k.isLt sent free effect (.inl rfl))
  · intro q k s sent free muted
    rw [← rptState_request k.isLt q (RPT_PATH_CMD k) s] at muted
    exact congrArg Host.Outcome.next (gated_rptTaken k.isLt sent free (rptOff_muted muted) (.inl rfl))
  · intro q k s sent free fault
    have was := rptState_request k.isLt q (RPT_PATH_CMD k) s
    have effect := rptClear_fault (was.trans fault)
    exact congrArg Host.Outcome.next (gated_rptTaken k.isLt sent free effect (.inl rfl))
  · intro q k s sent free fault
    have effect := rptClear_refused ((rptState_request k.isLt q (RPT_PATH_CMD k) s).trans_ne fault)
    exact congrArg Host.Outcome.next (gated_rptRefused k.isLt sent free effect)
  · intro q k s sent free bad
    rw [← rptState_request k.isLt q (RPT_PATH_CMD k) s] at bad
    exact congrArg Host.Outcome.next (gated_rptRefused k.isLt sent free (rptMute_refused bad))
  · intro q k s sent free muted fault
    have was := rptState_request k.isLt q (RPT_PATH_CMD k) s
    have effect := rptOff_refused (was.trans_ne muted) (was.trans_ne fault)
    exact congrArg Host.Outcome.next (gated_rptRefused k.isLt sent free effect)
  · intro q k s sent barred
    exact congrArg Host.Outcome.next (gated_rptBarred k.isLt sent barred)
  · intro q k s sent barred
    exact congrArg Host.Outcome.next (gated_rptBarred k.isLt sent barred)
  · intro q k s sent barred
    exact congrArg Host.Outcome.next (gated_rptBarred k.isLt sent barred)
  · intro k s arming up
    exact congrArg Host.Outcome.next (armingEnd_done arming up)
  · intro k s muting down
    exact congrArg Host.Outcome.next (mutingEnd_done muting down)
  · intro k s muted causes hold asks
    exact congrArg Host.Outcome.next (autoRearm_starts muted causes hold asks)
  · intro s live runs
    exact congrArg Host.Outcome.next (repeaterTickAll_live live runs)
  · intro k s known
    rw [nth_rptTick known]
    refine ⟨lim_rptTicked, fun arming => ?_, fun ⟨muting, slow⟩ => ?_, red_rptTicked, a_rptTicked.trans ?_⟩
    · rw [r_rptTicked_arming (rptState_appFall.trans arming), RPT_PATH_RAMP_up_rate, get_ramp_appFall]
    · rw [r_rptTicked_muting (rptState_appFall.trans muting) slow, RPT_PATH_RAMP_dn_rate, get_ramp_appFall]
    · rw [rptState_appFall]

end Sys2Proof.Machine

namespace Sys2Proof.Machine

/-! # Repeater protection -/

/-! ## The applied isolation and credit (R207, R208) -/

section
variable {k : Nat} {s : State}

theorem isoAppStep_rises (on : rptState k s ≠ 0) (below : s.get (RPT_PATH_APP_iso_app k) < s.get (RPT_PATH_ISO_iso k)) :
    isoAppStep k s = s.set (RPT_PATH_APP_iso_app k) (s.get (RPT_PATH_APP_iso_app k) + 1) :=
  if_pos ⟨on, below⟩

theorem creditTarget_active (conv : s.on (RPT_PATH_ISO_conv k) = true) (cluster : clusterActive k s = true) :
    creditTarget k s = min 480 (s.get (RPT_PATH_ISO_credit k)) := by
  rw [creditTarget, conv, cluster]
  rfl

theorem creditStep_rises (below : s.get (RPT_PATH_APP_credit_app k) < creditTarget k s) :
    creditStep k s = s.set (RPT_PATH_APP_credit_app k) (s.get (RPT_PATH_APP_credit_app k) + 1) :=
  if_pos below

end

/-! ## The oscillation detector (R215, R216) -/

/-- A path's own state after a window with mean level `level`, with its counts of windows in a row over the limits. -/
abbrev oscCounted (n : Nat) (level : Int) (res sat : Nat) (p : RptP) : RptP :=
  { p with hist := (level :: p.hist).take (n + 1), resRun := res, satRun := sat }

/-- The window shows a residual over its limit while a cluster is active. -/
abbrev oscResidual (k : Nat) (m : MtrWin) (s : State) : Bool :=
  clusterActive k s && decide (64 * (s.get (RPT_PATH_OSC_res_lim k) : Int) < m.mRes.levels.1 - m.mIn.levels.1)

section
variable {k : Nat} {m : MtrWin} {s : State}

theorem oscJudge_edge (edge : m.edge = true) :
    oscJudge k m s = updRpt k (fun p => { p with hist := [], resRun := 0, satRun := 0 }) s :=
  if_pos edge

/-- A window that makes the second in a row over one of the limits trips. -/
theorem oscJudge_second {r t : Nat} (edge : m.edge = false) (known : k < s.rpt.length)
    (res : (if oscResidual k m s then (nth s.rpt k).resRun + 1 else 0) = r)
    (sat : (if m.mOut.n < 16 * m.sat then (nth s.rpt k).satRun + 1 else 0) = t) (second : 2 ≤ r ∨ 2 ≤ t) :
    oscJudge k m s = oscTrip k (updRpt k (oscCounted (s.get (RPT_PATH_OSC_n k)) m.mOut.levels.1 r t) s) := by
  unfold oscJudge
  rw [if_neg (edge.trans_ne Bool.false_ne_true)]
  extract_lets n shows counted p
  have same : counted = updRpt k (oscCounted n m.mOut.levels.1 r t) s :=
    updRpt_congr (by subst res sat; rfl)
  have runs : p = oscCounted n m.mOut.levels.1 r t (nth s.rpt k) := by
    simp only [p, same, nth_updRpt known]
  rw [if_pos (.inr (by rwa [runs])), same]

theorem oscWindowEnd_none (h : (nth s.bnd k).oscs = []) : oscWindowEnd k s = s := by
  simp only [oscWindowEnd, h]

section
variable {l : List MtrWin} (h : (nth s.bnd k).oscs = m :: l)
include h

theorem oscWindowEnd_passes (off : rptState k s = 0 ∨ 5 ≤ rptState k s) :
    oscWindowEnd k s = updBnd k (fun p => { p with oscs := l }) s := by
  have watches : oscWatches k (updBnd k (fun p => { p with oscs := l }) s) = false := by
    change (decide (1 ≤ rptState k s) && decide (rptState k s ≤ 4)) = false
    rcases off with off | off
    · simp [off]
    · simp [Nat.not_le.2 off]
  simp only [oscWindowEnd, h, watches, Bool.false_eq_true, if_false]

theorem oscWindowEnd_judges (low : 1 ≤ rptState k s) (high : rptState k s ≤ 4) :
    oscWindowEnd k s = oscJudge k m (updBnd k (fun p => { p with oscs := l }) s) := by
  have watches : oscWatches k (updBnd k (fun p => { p with oscs := l }) s) = true := by
    change (decide (1 ≤ rptState k s) && decide (rptState k s ≤ 4)) = true
    simp [low, high]
  simp only [oscWindowEnd, h, watches, if_true]

end

theorem oscHoldExpire_held (h : (nth s.rpt k).oscHold = true) :
    oscHoldExpire k s = causeOff k cOsc (updRpt k (fun p => { p with oscHold := false }) s) :=
  if_pos h

end

/-! ## The composite ceiling (R217 to R219) -/

section
variable {p : Nat} {s : State}

theorem ceilMark_eq (p : Nat) (e : Int) (s : State) : ∃ l, ceilMark p e s = { s with ceilNear := l } := by
  unfold ceilMark
  split
  · exact ⟨_, rfl⟩
  · exact ⟨s.ceilNear, rfl⟩

/-- A window that has ended: the feeders and the port are those of before it. -/
theorem ceilWindowEnd_eq :
    ceilWindowEnd p s =
      let e := ceilMean p s - ceilInForce p s
      let t := ceilMark p e (ceilNext p s)
      if sumPort p s && decide (0 < e) && !rptHeld s then
        (rptEvt 3 ((feeders p s).foldl (fun t k => updRpt k (fun x => { x with cl := x.cl + cdiv e.toNat 4 }) t) t)).raise 4
      else t := by
  unfold ceilWindowEnd
  dsimp only
  obtain ⟨l, mark⟩ := ceilMark_eq p (ceilMean p s - ceilInForce p s) (ceilNext p s)
  rw [mark]
  rfl

theorem ceilWindowEnd_above (port : sumPort p s = true) (above : ceilInForce p s < ceilMean p s) (live : rptHeld s = false) :
    ceilWindowEnd p s = (rptEvt 3 ((feeders p s).foldl (fun t k => updRpt k (fun x =>
      { x with cl := x.cl + cdiv (ceilMean p s - ceilInForce p s).toNat 4 }) t)
        (ceilMark p (ceilMean p s - ceilInForce p s) (ceilNext p s)))).raise 4 := by
  have exceeds : 0 < ceilMean p s - ceilInForce p s := by omega
  simp only [ceilWindowEnd_eq, port, exceeds, live, decide_true, Bool.and_self, Bool.not_false, if_true]

theorem ceilWindowEnd_within (within : ceilMean p s ≤ ceilInForce p s) :
    ceilWindowEnd p s = ceilMark p (ceilMean p s - ceilInForce p s) (ceilNext p s) := by
  have under : ¬0 < ceilMean p s - ceilInForce p s := by omega
  simp only [ceilWindowEnd_eq, under, decide_false, Bool.and_false, Bool.false_and, Bool.false_eq_true, if_false]

theorem clDecayStep_near (near : p ∈ s.ceilNear) :
    clDecayStep p s = { s with ceilNear := s.ceilNear.filter (· ≠ p) } := by
  have far : ceilFar p s = false := by simp [ceilFar, near]
  simp only [clDecayStep, far, Bool.and_false, Bool.false_and, Bool.false_eq_true, if_false]

/-- Where no window was marked there is no mark to take away. -/
theorem clDecayStep_far (port : sumPort p s = true) (clear : p ∉ s.ceilNear) (live : rptHeld s = false) :
    clDecayStep p s = (feeders p s).foldl (fun t k => updRpt k (fun x => { x with cl := x.cl - 1 }) t) s := by
  have far : ceilFar p s = true := by simp [ceilFar, clear]
  have none : s.ceilNear.filter (· ≠ p) = s.ceilNear :=
    List.filter_eq_self.2 fun x hx => decide_eq_true fun e => clear (e ▸ hx)
  simp only [clDecayStep, far, none, port, live, Bool.and_self, Bool.not_false, if_true]

theorem ceilHoldExpire_reduced {k : Nat} (h : 0 < (nth s.rpt k).cl) : ceilHoldExpire k s = causeOn k cCeil s := if_pos h

end

section
variable (q : Rq) (s : State)

theorem ceil_request : (request q RPT_CEIL s).geti RPT_CEIL_ceil = s.geti RPT_CEIL_ceil :=
  geti_request_low q RPT_CEIL s (by decide)

theorem ceilAttic_request : (request q RPT_CEIL s).geti RPT_CEIL_ceil_attic = s.geti RPT_CEIL_ceil_attic :=
  geti_request_low q RPT_CEIL s (by decide)

theorem guardLock_request : (request q RPT_CEIL s).on GRD_CTRL_lock = s.on GRD_CTRL_lock := on_request_low (by decide)

end

/-- The guard rails bar a ceiling above ceil_attic, and a rise under their lock (R219, R438). -/
abbrev CeilBarred (w : Word) (s : State) : Prop :=
  s.geti RPT_CEIL_ceil_attic < sgn 16 (wf w RPT_CEIL_ceil) ∨
    (s.geti RPT_CEIL_ceil < sgn 16 (wf w RPT_CEIL_ceil) ∧ s.on GRD_CTRL_lock = true)

section
variable {w : Word} {s : State}

theorem wrRptCeil_same (same : sgn 16 (wf w RPT_CEIL_ceil) = s.geti RPT_CEIL_ceil) : wrRptCeil w s = s.ret .done := if_pos same

theorem wrRptCeil_lower (attic : sgn 16 (wf w RPT_CEIL_ceil) ≤ s.geti RPT_CEIL_ceil_attic)
    (lower : sgn 16 (wf w RPT_CEIL_ceil) < s.geti RPT_CEIL_ceil) :
    wrRptCeil w s = ((ceilKeep s).store RPT_CEIL RPT_CEIL_fs w).ret .done := by
  have passes : ¬CeilBarred w s := by
    rintro (above | ⟨rise, -⟩) <;> omega
  simp only [wrRptCeil, if_neg lower.ne, if_neg passes, if_pos lower, plainWrite]

theorem wrRptCeil_higher (attic : sgn 16 (wf w RPT_CEIL_ceil) ≤ s.geti RPT_CEIL_ceil_attic)
    (higher : s.geti RPT_CEIL_ceil < sgn 16 (wf w RPT_CEIL_ceil)) (unlocked : s.on GRD_CTRL_lock = false) :
    wrRptCeil w s = (s.store RPT_CEIL RPT_CEIL_fs w).ret .done := by
  have passes : ¬CeilBarred w s := by
    rintro (above | ⟨-, lock⟩)
    · omega
    · exact Bool.false_ne_true (unlocked.symm.trans lock)
  simp only [wrRptCeil, if_neg higher.ne', if_neg passes, if_neg higher.not_gt, plainWrite]

theorem wrRptCeil_guard (other : sgn 16 (wf w RPT_CEIL_ceil) ≠ s.geti RPT_CEIL_ceil) (h : CeilBarred w s) :
    wrRptCeil w s = s.ret .guard := by
  simp only [wrRptCeil, if_neg other, if_pos h]

end

/-! ## Noise rise and a lost donor (R220 to R222) -/

section
variable {k : Nat} {s : State}

theorem get_nrsRefresh {f : Fd} (other : RPT_PATH_NRS k ≠ f.a) : (nrsRefresh k s).get f = s.get f := by
  unfold nrsRefresh
  dsimp only
  rw [set_get_ne _ other, set_get_ne _ other]

/-- The evaluation's parameters lie beside the floor that it refreshes. -/
theorem get_nr_nrsRefresh (lo n : Nat) : (nrsRefresh k s).get ⟨RPT_PATH_NR k, lo, n⟩ = s.get ⟨RPT_PATH_NR k, lo, n⟩ :=
  get_nrsRefresh (by simp only [RPT_PATH_NRS, RPT_PATH_NR]; omega)

theorem nrLen_nrsRefresh : nrLen k (nrsRefresh k s) = nrLen k s := by
  rw [nrLen, nrLen, RPT_PATH_NR_nr_len, get_nr_nrsRefresh]

theorem lMin_nrsRefresh : lMin k (nrsRefresh k s) = lMin k s := by
  unfold lMin
  rw [nrLen_nrsRefresh]
  rfl

theorem nrEvaluate_unmeasured (h : lMin k s = none) : nrEvaluate k s = nrsRefresh k s := by
  simp only [nrEvaluate, lMin_nrsRefresh, h]

theorem nrEvaluate_idle (h : nrActive k (nrsRefresh k s) = false) : nrEvaluate k s = nrsRefresh k s := by
  simp only [nrEvaluate, h, Bool.false_eq_true, if_false]
  split <;> rfl

/-- Without a valid floor of its donor group the path's refreshed one is not valid. -/
theorem nrActive_nrsRefresh_invalid (h : s.on (LST_NF_valid (s.get (RPT_PATH_CFG_donor k))) = false) :
    nrActive k (nrsRefresh k s) = false := by
  have valid : (nrsRefresh k s).on (RPT_PATH_NRS_floor_valid k) = false := by
    have bit : s.get (LST_NF_valid (s.get (RPT_PATH_CFG_donor k))) < 2 := s.get_lt _
    unfold nrsRefresh
    dsimp only
    rw [set_on _ (show 15 + 1 ≤ 32 by decide)]
    change decide (s.get (LST_NF_valid (s.get (RPT_PATH_CFG_donor k))) % 2 = 1) = false
    rw [Nat.mod_eq_of_lt bit]
    exact h
  simp only [nrActive, valid, Bool.and_false]

end

/-- The rise that an evaluation measures is reported, and whether it is low is kept. -/
abbrev nrMeasured (k : Nat) (l : Int) (s : State) : State :=
  updRpt k (fun p => { p with
      low := decide (8 ≤ s.get (RPT_PATH_NR_limit k)) &&
        !riseAbove (noiseGap k l (nrsRefresh k s)) (s.get (RPT_PATH_NR_limit k) - 8) })
    ((nrsRefresh k s).set (RPT_PATH_NRS_rise k)
      (riseFloor (noiseGap k l (nrsRefresh k s)) + (nrsRefresh k s).freeVal 1)).freeNext

/-- An evaluation whose rise is over the limit begins the spacing anew. -/
abbrev nrOver (k : Nat) (l : Int) (s : State) : State :=
  rptEvt 4 (updRpt k (fun p => { p with nrRun := 0 }) (nrMeasured k l s))

theorem get_freeNext (s : State) (f : Fd) : s.freeNext.get f = s.get f := rfl

section
variable {k : Nat} {l : Int} {s : State}

theorem get_nr_nrMeasured (lo n : Nat) :
    (nrMeasured k l s).get ⟨RPT_PATH_NR k, lo, n⟩ = s.get ⟨RPT_PATH_NR k, lo, n⟩ := by
  have other : (RPT_PATH_NRS_rise k).a ≠ RPT_PATH_NR k := by
    simp only [RPT_PATH_NRS_rise, RPT_PATH_NRS, RPT_PATH_NR]
    omega
  rw [nrMeasured, get_updRpt, get_freeNext, set_get_ne _ other, get_nr_nrsRefresh]

theorem nrSpaced_nrMeasured : nrSpaced k (nrMeasured k l s) = nrSpaced k s := by
  have len : nrLen k (nrMeasured k l s) = nrLen k s := by
    rw [nrLen, nrLen, RPT_PATH_NR_nr_len, get_nr_nrMeasured]
  have run : (nth (nrMeasured k l s).rpt k).nrRun = (nth s.rpt k).nrRun :=
    rpt_updRpt_keeps RptP.nrRun fun _ => rfl
  rw [nrSpaced, nrSpaced, len, run]

theorem get_nr_nrOver (path : k < 128) (lo n : Nat) :
    (nrOver k l s).get ⟨RPT_PATH_NR k, lo, n⟩ = s.get ⟨RPT_PATH_NR k, lo, n⟩ := by
  have evt : RPT_EVT ≠ RPT_PATH_NR k := by simp only [RPT_PATH_NR, RPT_EVT]; omega
  rw [State.get, nrOver, rd_rptEvt (by simp only [RPT_PATH_NR]; omega) evt, rd_updRpt]
  exact get_nr_nrMeasured lo n

theorem nr_nrOver : (nth (nrOver k l s).rpt k).nr = (nth s.rpt k).nr := by
  have kept : (nth (updRpt k (fun p => { p with nrRun := 0 }) (nrMeasured k l s)).rpt k).nr = (nth (nrMeasured k l s).rpt k).nr :=
    rpt_updRpt_keeps RptP.nr fun _ => rfl
  rw [nrOver, rpt_rptEvt, kept]
  exact rpt_updRpt_keeps RptP.nr fun _ => rfl

theorem nrEvaluate_steps (path : k < 128) (level : lMin k s = some l) (active : nrActive k (nrsRefresh k s) = true)
    (rise : riseAbove (noiseGap k l (nrsRefresh k s)) (s.get (RPT_PATH_NR_limit k)) = true) (spaced : nrSpaced k s = true)
    (room : (nth s.rpt k).nr + 16 * s.get (RPT_PATH_NR_nr_step k) ≤ 16 * s.get (RPT_PATH_NR_nr_max k)) :
    nrEvaluate k s = updRpt k (fun p => { p with nr := p.nr + 16 * s.get (RPT_PATH_NR_nr_step k) }) (nrOver k l s) := by
  have limit : (nrsRefresh k s).get (RPT_PATH_NR_limit k) = s.get (RPT_PATH_NR_limit k) := get_nr_nrsRefresh ..
  have step : (nrsRefresh k s).get (RPT_PATH_NR_nr_step k) = s.get (RPT_PATH_NR_nr_step k) := get_nr_nrsRefresh ..
  have most : (nrOver k l s).get (RPT_PATH_NR_nr_max k) = s.get (RPT_PATH_NR_nr_max k) := get_nr_nrOver path ..
  simp only [nrEvaluate, lMin_nrsRefresh, level, active, limit, step, if_true]
  rw [if_pos ⟨rise, nrSpaced_nrMeasured.trans spaced⟩, most, nr_nrOver, if_neg (Nat.not_lt.2 room)]

theorem nrRelax_low (low : (nth s.rpt k).low = true) (active : nrActive k s = true) (spaced : nrSpaced k s = true) :
    nrRelax k s = updRpt k (fun p => { p with nr := p.nr - 16 * s.get (RPT_PATH_NR_nr_step k), nrRun := 0 }) s :=
  if_pos ⟨low, active, spaced⟩

theorem donorHoldExpire_lost (h : (nth s.rpt k).lost = true) :
    donorHoldExpire k s = causeOn k cDonor (updRpt k (fun p => { p with gone := true }) s) :=
  if_pos h

end

/-! ## MUTE_N (R223, R224) -/

theorem rd_forN_below {n a : Nat} {f : Nat → State → State} {s : State} (h : ∀ i < n, ∀ t, (f i t).rd a = t.rd a) :
    (forN n f s).rd a = s.rd a :=
  List.foldlRecOn (motive := fun t : State => t.rd a = s.rd a) (List.range n) (fun t i => f i t) rfl
    fun t ht i hi => (h i (List.mem_range.1 hi) t).trans ht

/-- The cause that MUTE_N sets at a path that follows the input. -/
abbrev muteNFollow (k : Nat) (t : State) : State := if t.on (RPT_PATH_CFG_mute_n_en k) then causeOn k cMuteN t else t

theorem rd_muteNFollow {k : Nat} (path : k < 128) (t : State) : (muteNFollow k t).rd RPT_MUTE_CTRL = t.rd RPT_MUTE_CTRL := by
  unfold muteNFollow
  split
  · exact rd_causeOn (by decide) (by decide) (by simp only [RPT_CHG, RPT_MUTE_CTRL]; omega)
      (by simp only [RPT_PATH_STAT, RPT_MUTE_CTRL]; omega)
  · rfl

section
variable {s : State}

/-- The input's status and count after an assertion. -/
abbrev muteNCounted (s : State) : State :=
  (({ s with muteN := true, muteStuck := false } : State).set RPT_MUTE_CTRL_asserted 1).addSat RPT_MUTE_CNT_asserts 1

/-- The event gap lies beside the status, in a register that no path's cause changes. -/
theorem evGap_muteNFollow :
    (forN 128 muteNFollow (muteNCounted s)).get RPT_MUTE_CTRL_ev_gap = s.get RPT_MUTE_CTRL_ev_gap := by
  have paths : (forN 128 muteNFollow (muteNCounted s)).rd RPT_MUTE_CTRL = (muteNCounted s).rd RPT_MUTE_CTRL :=
    rd_forN_below fun _ path t => rd_muteNFollow path t
  calc (forN 128 muteNFollow (muteNCounted s)).get RPT_MUTE_CTRL_ev_gap
      = (muteNCounted s).get RPT_MUTE_CTRL_ev_gap := congrArg (fun v => fieldOf v 16 8) paths
    _ = (({ s with muteN := true, muteStuck := false } : State).set RPT_MUTE_CTRL_asserted 1).get RPT_MUTE_CTRL_ev_gap :=
        addSat_get_ne _ (by decide)
    _ = s.get RPT_MUTE_CTRL_ev_gap := get_set_bits _ _ (by decide) (by decide)

theorem muteNAssert_live (free : s.muteN = false) (live : rptHeld s = false) :
    muteNAssert s = (forN 128 muteNFollow (muteNCounted s)).flagLimited RPT_EVT_mute_n 326
      (s.get RPT_MUTE_CTRL_ev_gap * msTicks) := by
  have live' : rptHeld { s with muteN := true, muteStuck := false } = false := live
  rw [← evGap_muteNFollow]
  simp only [muteNAssert, free, live', Bool.false_eq_true, if_false]

theorem muteNDeassert_live (asserted : s.muteN = true) (live : rptHeld s = false) :
    muteNDeassert s = forN 128 (fun k t => causeOff k cMuteN t)
      (({ s with muteN := false, muteStuck := false } : State).set RPT_MUTE_CTRL_asserted 0) := by
  have live' : rptHeld { s with muteN := false, muteStuck := false } = false := live
  simp only [muteNDeassert, asserted, live', Bool.false_eq_true, if_false, if_true]

theorem muteNGlitch_live (live : rptHeld s = false) : muteNGlitch s = s.addSat RPT_MUTE_CNT_glitches 1 :=
  if_neg (live.trans_ne Bool.false_ne_true)

theorem muteNStuckEv_first (asserted : s.muteN = true) (first : s.muteStuck = false) (live : rptHeld s = false) :
    muteNStuckEv s = rptEvt 7 ({ s with muteStuck := true }.addSat RPT_MUTE_CNT_stuck 1) := by
  simp only [muteNStuckEv, asserted, first, live, Bool.not_false, Bool.and_self, if_true]

end

/-- Settles O19: a write of the ceiling is judged in the state that has accepted it, in which the ceiling, the attic's and the
guard rails' lock are as before; what each event does, the lemma of its function says. -/
theorem repeaterProtection : Obligations.RepeaterProtection := by
  unfold Obligations.RepeaterProtection
  refine ⟨?_, ?_, ?_, ?_, ?_, ?_, ?_, ?_, ?_, ?_, ?_, ?_, ?_, ?_, ?_, ?_, ?_, ?_, ?_, ?_, ?_, ?_, ?_, ?_, ?_, ?_, ?_⟩
  · intro k s on below
    exact congrArg Host.Outcome.next (isoAppStep_rises on below)
  · intro k s conv cluster below
    rw [← creditTarget_active conv cluster] at below
    exact congrArg Host.Outcome.next (creditStep_rises below)
  · intro k s none
    exact congrArg Host.Outcome.next (oscWindowEnd_none none)
  · intro k m l s window off
    exact congrArg Host.Outcome.next (oscWindowEnd_passes window off)
  · intro k m l s window edge low high
    exact congrArg Host.Outcome.next ((oscWindowEnd_judges window low high).trans (oscJudge_edge edge))
  · intro k m l s window edge low high cluster sat run known
    have quiet : oscResidual k m (updBnd k (fun p => { p with oscs := l }) s) = false := by
      change (clusterActive k s && _) = false
      rw [cluster, Bool.false_and]
    have effect := oscJudge_second (s := updBnd k (fun p => { p with oscs := l }) s) edge known
      (if_neg (quiet.trans_ne Bool.false_ne_true)) ((if_pos sat).trans (congrArg (· + 1) run)) (.inr (Nat.le_refl 2))
    exact congrArg Host.Outcome.next ((oscWindowEnd_judges window low high).trans effect)
  · intro k m l s window edge low high cluster limit run sat known
    have shows : oscResidual k m (updBnd k (fun p => { p with oscs := l }) s) = true := by
      change (clusterActive k s && _) = true
      rw [cluster, Bool.true_and]
      exact decide_eq_true limit
    have effect := oscJudge_second (s := updBnd k (fun p => { p with oscs := l }) s) edge known
      ((if_pos shows).trans (congrArg (· + 1) run)) (if_neg (Nat.not_lt.2 sat)) (.inl (Nat.le_refl 2))
    exact congrArg Host.Outcome.next ((oscWindowEnd_judges window low high).trans effect)
  · intro k s hold
    exact congrArg Host.Outcome.next (oscHoldExpire_held hold)
  · intro p s port above live
    exact congrArg Host.Outcome.next (ceilWindowEnd_above port above live)
  · intro p s within
    exact congrArg Host.Outcome.next (ceilWindowEnd_within within)
  · intro p s port clear live
    exact congrArg Host.Outcome.next (clDecayStep_far port clear live)
  · intro p s near
    exact congrArg Host.Outcome.next (clDecayStep_near near)
  · intro k s reduced
    exact congrArg Host.Outcome.next (ceilHoldExpire_reduced reduced)
  · intro k s invalid
    exact congrArg Host.Outcome.next (nrEvaluate_idle (nrActive_nrsRefresh_invalid invalid))
  · intro k s none
    exact congrArg Host.Outcome.next (nrEvaluate_unmeasured none)
  · intro k l s level active rise spaced room
    exact congrArg Host.Outcome.next (nrEvaluate_steps k.isLt level active rise spaced room)
  · intro k s low active spaced
    exact congrArg Host.Outcome.next (nrRelax_low low active spaced)
  · intro k s lost
    exact congrArg Host.Outcome.next (donorHoldExpire_lost lost)
  · intro q w s sent same
    exact congrArg Host.Outcome.next
      (gated_uncounted sent (wrRptCeil_same (same.trans (ceil_request q s).symm)) (.inl rfl))
  · intro q w s sent attic lower
    have effect := wrRptCeil_lower (attic.trans_eq (ceilAttic_request q s).symm) (lower.trans_eq (ceil_request q s).symm)
    exact congrArg Host.Outcome.next (gated_uncounted sent effect (.inl rfl))
  · intro q w s sent attic higher unlocked
    have effect := wrRptCeil_higher (attic.trans_eq (ceilAttic_request q s).symm) ((ceil_request q s).trans_lt higher)
      ((guardLock_request q s).trans unlocked)
    exact congrArg Host.Outcome.next (gated_uncounted sent effect (.inl rfl))
  · intro q w s sent other barred
    rw [← ceil_request q s] at other barred
    rw [← ceilAttic_request q s, ← guardLock_request q s] at barred
    exact congrArg Host.Outcome.next (gated_counted sent (wrRptCeil_guard other barred) rfl)
  · intro s free live
    exact congrArg Host.Outcome.next (muteNAssert_live free live)
  · intro s asserted live
    exact congrArg Host.Outcome.next (muteNDeassert_live asserted live)
  · intro s live
    exact congrArg Host.Outcome.next (muteNGlitch_live live)
  · intro s asserted first live
    exact congrArg Host.Outcome.next (muteNStuckEv_first asserted first live)
  · intro q s reads
    exact congrArg Host.Outcome.next (gatedRead_clear reads (by decide))

end Sys2Proof.Machine

namespace Sys2Proof.Machine

/-! # Cell listener -/

/-! ## The listener's registers where an access has been accepted -/

section
variable {ch : Nat} (chan : ch < 2)
include chan

theorem lstChCtrl_low : LST_CH_CTRL ch < 0x40300000 := by simp only [LST_CH_CTRL]; omega
theorem lstChSrc_low : LST_CH_SRC ch < 0x40300000 := by simp only [LST_CH_SRC]; omega
theorem lstChStat_low : LST_CH_STAT ch < 0x40300000 := by simp only [LST_CH_STAT]; omega
theorem lstRxTimeL_low : LST_RX_TIME_L ch < 0x40300000 := by simp only [LST_RX_TIME_L]; omega
theorem lstTddA_low : LST_TDD_A ch < 0x40300000 := by simp only [LST_TDD_A]; omega
theorem lstChCnt_low : LST_CH_CNT ch < 0x40300000 := by simp only [LST_CH_CNT]; omega

variable (q : Rq) (a : Nat) (s : State)

theorem lstState_request : lstState ch (request q a s) = lstState ch s := get_request_low (lstChStat_low chan)

theorem rat_request : (request q a s).get (LST_CH_CTRL_rat ch) = s.get (LST_CH_CTRL_rat ch) := get_request_low (lstChCtrl_low chan)

/-- The source register names one of the 1024 port entries. -/
theorem sourceOk_request : sourceOk ch (request q a s) = sourceOk ch s := by
  have port : (request q a s).get (LST_CH_SRC_port ch) = s.get (LST_CH_SRC_port ch) := get_request_low (lstChSrc_low chan)
  have entry : s.get (LST_CH_SRC_port ch) < 1024 := s.get_lt _
  have en := on_request_low (q := q) (b := a) (s := s) (f := BND_PIN_en (s.get (LST_CH_SRC_port ch))) (bndPin_low entry)
  have rate := get_request_low (q := q) (b := a) (s := s) (f := BND_PIN_rate (s.get (LST_CH_SRC_port ch))) (bndPin_low entry)
  simp only [sourceOk, port, en, rate, rat_request chan]

theorem tddBad_request (w : Word) : tddBad ch w (request q a s) = tddBad ch w s := by
  have ecp := on_request_low (q := q) (b := a) (s := s) (f := LST_CH_CTRL_ecp ch) (lstChCtrl_low chan)
  simp only [tddBad, ecp, rat_request chan, rd_request_low (lstTddA_low chan)]

end

/-- A part of a channel's own state that a change leaves alone. -/
theorem lst_updLst_keeps {α : Type} (p : LstCh → α) {n ch : Nat} {f : LstCh → LstCh} {s : State} (h : ∀ x, p (f x) = p x) :
    p (nth (updLst ch f s).lst n) = p (nth s.lst n) := by
  simp only [updLst, nth_upd]
  split
  · next e => rw [h, e.1]
  · rfl

theorem rd_updLst (ch a : Nat) (f : LstCh → LstCh) (s : State) : (updLst ch f s).rd a = s.rd a := rfl

theorem get_updLst (ch : Nat) (f : LstCh → LstCh) (s : State) (g : Fd) : (updLst ch f s).get g = s.get g := rfl

theorem on_updLst (ch : Nat) (f : LstCh → LstCh) (s : State) (g : Fd) : (updLst ch f s).on g = s.on g := rfl

/-! ## START, STOP and RESTART (R242) -/

section
variable {ch : Nat} {s : State}

theorem lstStart_begins (off : lstState ch s = 0) (source : sourceOk ch s = true) :
    lstStart ch s = lstNow ch .done (((((updLst ch (fun c => { c with
      rx := none, cand := none, freezePend := false, fresh := true, phase := 0, taken := 0, mixed := [], hist := [], cnt := 0,
      win := {} }) s).set (LST_CH_STAT_state ch) 1).set (LST_CH_STAT_gain ch) 384).set (LST_CH_STAT_frozen ch) 0).set
        (LST_CH_STAT_off_reason ch) 0) := by
  simp only [lstStart, off, source, ne_eq, not_true_eq_false, if_false, if_true]

theorem lstStart_range (off : lstState ch s = 0) (source : sourceOk ch s = false) : lstStart ch s = lstNow ch .range s := by
  simp only [lstStart, off, source, ne_eq, not_true_eq_false, Bool.false_eq_true, if_false]

theorem lstStart_refused (on : lstState ch s ≠ 0) : lstStart ch s = lstNow ch .state s := if_pos on

theorem lstRestart_receiving (receive : lstState ch s = 2) :
    lstRestart ch s = lstNow ch .done (dropCand ch (rxEnd ch .aborted 4 1 s)) := by
  simp only [lstRestart, receive]

theorem lstRestart_refused (off : lstState ch s = 0) : lstRestart ch s = lstNow ch .state s := by
  simp only [lstRestart, off]

end

/-! ## The AGC's windows (R231, R232) -/

/-- A new window begins. -/
abbrev windowBegun (ch : Nat) (s : State) : State := updLst ch (fun c => { c with win := {} }) s

theorem freezePend_windowBegun (ch n : Nat) (s : State) :
    (nth (windowBegun ch s).lst n).freezePend = (nth s.lst n).freezePend :=
  lst_updLst_keeps LstCh.freezePend fun _ => rfl

section
variable {ch : Nat} {s : State} (live : lstState ch s ≠ 0)
include live

theorem agcWindowEnd_freezes (pend : (nth s.lst ch).freezePend = true) :
    agcWindowEnd ch s =
      (updLst ch (fun c => { c with freezePend := false }) (windowBegun ch s)).set (LST_CH_STAT_frozen ch) 1 := by
  simp only [agcWindowEnd, if_neg live, freezePend_windowBegun, pend, if_true]

section
variable (pend : (nth s.lst ch).freezePend = false)
include pend

theorem agcWindowEnd_moves {pw : Int} (free : s.on (LST_CH_STAT_frozen ch) = false) (power : windowPower ch s = some pw) :
    agcWindowEnd ch s = (windowBegun ch s).set (LST_CH_STAT_gain ch)
      (clampI 0 768 ((s.get (LST_CH_STAT_gain ch) : Int) - 16 * s.get (LST_CH_THR_agc_tgt ch) - pw)).toNat := by
  simp only [agcWindowEnd, if_neg live, freezePend_windowBegun, pend, on_updLst, get_updLst, free, power, Bool.false_eq_true,
    if_false]

theorem agcWindowEnd_stays (h : s.on (LST_CH_STAT_frozen ch) = true ∨ windowPower ch s = none) :
    agcWindowEnd ch s = windowBegun ch s := by
  rcases h with frozen | silent
  · simp only [agcWindowEnd, if_neg live, freezePend_windowBegun, pend, on_updLst, frozen, Bool.false_eq_true, if_false, if_true]
  · simp only [agcWindowEnd, if_neg live, freezePend_windowBegun, pend, silent, Bool.false_eq_true, if_false, ite_self]

end

end

/-! ## Detection (R233) -/

section
variable {ch : Nat} {s : State}

theorem syncDetect_elsewhere (h : lstState ch s ≠ 1) : syncDetect ch s = s := if_neg h

section
variable (search : lstState ch s = 1)
include search

theorem syncDetect_silent (none : pssPeak ch s = none) : syncDetect ch s = s := by
  simp only [syncDetect, if_pos search, none]

/-- A peak's reception is unconfirmed and has no frames yet, as one that starts. -/
theorem syncDetect_peak {p : Peak} (peak : pssPeak ch s = some p) :
    syncDetect ch s = ((updLst ch (fun c => { c with rx := some (peakRx ch p s), freezePend := true }) s).set
      (LST_CH_STAT_state ch) 2).freeNext := by
  simp only [syncDetect, if_pos search, peak, rxStart, Bool.or_true]
  rfl

end

end

/-! ## Confirmation (R234, R240) -/

/-- The confirm metric of an evaluation is shown. -/
abbrev metricShown (ch : Nat) (e : Eval) (s : State) : State := s.seti (LST_RX_CELL_q ch) (satI 16 e.q)

section
variable {ch : Nat} {r : Rxn} {e : Eval} {s : State}

theorem get_metricShown {f : Fd} (other : LST_RX_CELL ch ≠ f.a) : (metricShown ch e s).get f = s.get f := seti_get_ne s other

theorem cfmThr_metricShown : (metricShown ch e s).get (LST_CH_THR_cfm_thr ch) = s.get (LST_CH_THR_cfm_thr ch) :=
  get_metricShown (by simp only [LST_RX_CELL, LST_CH_THR_cfm_thr, LST_CH_THR]; omega)

/-- The channel's configuration lies beside the metric. -/
theorem get_ctrl_metricShown {f : Fd} (ctrl : f.a = LST_CH_CTRL ch) : (metricShown ch e s).get f = s.get f :=
  get_metricShown (by simp only [ctrl, LST_RX_CELL, LST_CH_CTRL]; omega)

theorem on_ctrl_metricShown {f : Fd} (ctrl : f.a = LST_CH_CTRL ch) : (metricShown ch e s).on f = s.on f := by
  simp only [State.on, get_ctrl_metricShown ctrl]

/-- The cell stands in the metric's register, in other bits. -/
theorem pci_metricShown : (metricShown ch e s).get (LST_RX_CELL_pci ch) = s.get (LST_RX_CELL_pci ch) :=
  seti_get_bits s (.inr (show 0 + 10 ≤ 16 by decide)) (show 0 + 10 ≤ 32 by decide)

/-- A report changes the reception's registers alone. -/
theorem rd_cellReport {a : Nat} (cell : LST_RX_CELL ch ≠ a) (time : LST_RX_TIME_L ch ≠ a) (pwr : LST_RX_PWR ch ≠ a) :
    (cellReport ch r e s).rd a = s.rd a := by
  unfold cellReport
  dsimp only
  rw [set_rd_ne (f := LST_RX_PWR_m ch) _ pwr, seti_rd_ne (f := LST_RX_PWR_p_sync ch) _ pwr, rd_updLst, wr_rd_ne _ time,
    set_rd_ne (f := LST_RX_CELL_sf5 ch) _ cell, set_rd_ne (f := LST_RX_CELL_pci ch) _ cell]

theorem rd_ctrl_cellReport : (cellReport ch r e s).rd (LST_CH_CTRL ch) = s.rd (LST_CH_CTRL ch) :=
  rd_cellReport (by simp only [LST_RX_CELL, LST_CH_CTRL]; omega) (by simp only [LST_RX_TIME_L, LST_CH_CTRL]; omega)
    (by simp only [LST_RX_PWR, LST_CH_CTRL]; omega)

theorem get_ctrl_cellReport {f : Fd} (ctrl : f.a = LST_CH_CTRL ch) : (cellReport ch r e s).get f = s.get f := by
  simp only [State.get, ctrl, rd_ctrl_cellReport]

theorem on_ctrl_cellReport {f : Fd} (ctrl : f.a = LST_CH_CTRL ch) : (cellReport ch r e s).on f = s.on f := by
  simp only [State.on, get_ctrl_cellReport ctrl]

theorem mibCell_cellReport : (nth (cellReport ch r e s).lst ch).mibCell = (nth s.lst ch).mibCell := by
  unfold cellReport
  dsimp only
  rw [set_lst, seti_lst]
  exact lst_updLst_keeps LstCh.mibCell fun _ => rfl

/-- Whether a confirmed cell goes on to the PBCH is decided as before its report. -/
theorem wantsPbch_cellReport (pci : Nat) : wantsPbch ch pci (cellReport ch r e s) = wantsPbch ch pci s := by
  simp only [wantsPbch, get_ctrl_cellReport (f := LST_CH_CTRL_rat ch) rfl, on_ctrl_cellReport (f := LST_CH_CTRL_pbch_en ch) rfl,
    mibCell_cellReport]

theorem mibCell_metricShown : (nth (metricShown ch e s).lst ch).mibCell = (nth s.lst ch).mibCell := by rw [seti_lst]

theorem wantsPbch_metricShown (pci : Nat) : wantsPbch ch pci (metricShown ch e s) = wantsPbch ch pci s := by
  simp only [wantsPbch, get_ctrl_metricShown (f := LST_CH_CTRL_rat ch) rfl, on_ctrl_metricShown (f := LST_CH_CTRL_pbch_en ch) rfl,
    mibCell_metricShown]

theorem wantsPbch_iff (pci : Nat) : wantsPbch ch pci s = true ↔
    s.get (LST_CH_CTRL_rat ch) = 0 ∧ s.on (LST_CH_CTRL_pbch_en ch) = true ∧ (nth s.lst ch).mibCell ≠ some pci := by
  simp only [wantsPbch, Bool.and_eq_true, decide_eq_true_eq, and_assoc]

/-- The report of a confirmed evaluation, its metric shown. -/
abbrev confirmed (ch : Nat) (r : Rxn) (e : Eval) (s : State) : State := cellReport ch r e (metricShown ch e s)

theorem lstNr_confirmed : lstNr ch (confirmed ch r e s) = lstNr ch s := by
  simp only [lstNr, get_ctrl_cellReport (f := LST_CH_CTRL_rat ch) rfl, get_ctrl_metricShown (f := LST_CH_CTRL_rat ch) rfl]

theorem ite_lstNr {α : Sort _} (x y : α) :
    (if lstNr ch s then x else y) = if s.get (LST_CH_CTRL_rat ch) = 0 then y else x := by
  simp only [lstNr, ne_eq, decide_eq_true_eq, ite_not]

theorem sssJudge_eq :
    sssJudge ch r e s =
      if e.q < s.get (LST_CH_THR_cfm_thr ch) then rxFalse ch (metricShown ch e s)
      else if r.first then metricShown ch e s
      else if s.get (LST_CH_CTRL_rat ch) = 0 ∧ s.on (LST_CH_CTRL_pbch_en ch) = true ∧ (nth s.lst ch).mibCell ≠ some e.pci then
        (confirmed ch r e s).set (LST_RX_STAT_mib_valid ch) 0
      else rxDone ch (if s.get (LST_CH_CTRL_rat ch) = 0 then [] else nrElements ch r (confirmed ch r e s))
        (confirmed ch r e s) := by
  have wants : wantsPbch ch e.pci (confirmed ch r e s) = wantsPbch ch e.pci s :=
    (wantsPbch_cellReport _).trans (wantsPbch_metricShown _)
  simp only [sssJudge, cfmThr_metricShown, wants, wantsPbch_iff, lstNr_confirmed, ite_lstNr]

theorem sssEvaluate_idle (h : (nth s.lst ch).rx = none) : sssEvaluate ch s = s := by
  simp only [sssEvaluate, h]

section
variable (rx : (nth s.lst ch).rx = some r)
include rx

theorem sssEvaluate_unready (h : sssOf ch 0 r s = none) : sssEvaluate ch s = s := by
  simp only [sssEvaluate, rx, h]

theorem sssEvaluate_judges (h : sssOf ch 0 r s = some e) : sssEvaluate ch s = sssJudge ch r e s := by
  simp only [sssEvaluate, rx, h]

end

end

/-! ## The PBCH (R235, R236) -/

section
variable {ch : Nat} {soft : List Int} {r : Rxn} {e : Eval} {s : State}

theorem pbchResult_metricShown (frames : List (List Int)) : pbchResult ch frames (metricShown ch e s) = pbchResult ch frames s := by
  simp only [pbchResult, on_ctrl_metricShown (f := LST_CH_CTRL_ecp ch) rfl, pci_metricShown]

/-- A MIB is stored beside the cell that it is of. -/
theorem pbchJudge_mib {b ports fofs : Nat} (h : pbchResult ch (soft :: r.frames) s = some (b, ports, fofs)) :
    pbchJudge ch r soft s = rxDone ch [] (updLst ch (fun c => { c with mibCell := some (s.get (LST_RX_CELL_pci ch)) })
      (((s.set (LST_MIB_mib ch) b).set (LST_MIB_ports ch) ports).set (LST_MIB_fofs ch) fofs)) := by
  have other : LST_MIB ch ≠ LST_RX_CELL ch := by simp only [LST_MIB, LST_RX_CELL]; omega
  simp only [pbchJudge, h]
  rw [set_get_ne (f := LST_MIB_fofs ch) (g := LST_RX_CELL_pci ch) _ other,
    set_get_ne (f := LST_MIB_ports ch) (g := LST_RX_CELL_pci ch) _ other,
    set_get_ne (f := LST_MIB_mib ch) (g := LST_RX_CELL_pci ch) _ other]

theorem pbchJudge_none (h : pbchResult ch (soft :: r.frames) s = none) :
    pbchJudge ch r soft s = if r.frames.length < 3 then updLst ch (fun c => { c with
        rx := some { r with frames := soft :: r.frames } }) s
      else rxEnd ch .timeout 0 1 (s.set (LST_RX_STAT_mib_valid ch) 0) := by
  have fourth : 4 ≤ r.frames.length + 1 ↔ ¬r.frames.length < 3 := by omega
  simp only [pbchJudge, h, List.length_cons, fourth, ite_not]

/-- Without a confirmed reception there is no frame to decode. -/
theorem pbchDecode_unconfirmed (h : (nth s.lst ch).rx.all (fun r => !r.first) = true) : pbchDecode ch soft s = s := by
  unfold pbchDecode
  split
  · rfl
  · next r rx =>
    rw [rx] at h
    exact if_pos h

section
variable (rx : (nth s.lst ch).rx = some r) (first : r.first = true)
include rx first

theorem pbchDecode_unready (h : sssOf ch (framesSince ch r s) r s = none) : pbchDecode ch soft s = s := by
  simp only [pbchDecode, rx, first, h, Bool.not_true, Bool.false_eq_true, if_false]

theorem pbchDecode_evaluates (h : sssOf ch (framesSince ch r s) r s = some e) :
    pbchDecode ch soft s = if e.q < s.get (LST_CH_THR_cfm_thr ch) then rxFalse ch (metricShown ch e s)
      else pbchJudge ch r soft (metricShown ch e s) := by
  simp only [pbchDecode, rx, first, h, cfmThr_metricShown, Bool.not_true, Bool.false_eq_true, if_false]

end

end

/-! ## The watch correlator (R238, R239) -/

section
variable {ch : Nat} {r : Rxn} {p : Peak} {s : State}

theorem watchPeak_idle {eval : Bool} (h : (nth s.lst ch).rx = none) : watchPeak ch eval s = s := by
  simp only [watchPeak, h]

theorem watchPeak_unevaluated (rx : (nth s.lst ch).rx = some r) :
    watchPeak ch false s = watchJudge ch r (pssPeak ch s) false s := by
  simp only [watchPeak, rx, Bool.false_eq_true, if_false, Option.any_none]

theorem watchJudge_silent : watchJudge ch r none false s = s := rfl

theorem watchJudge_peak :
    watchJudge ch r (some p) false s =
      if ownPss ch r (peakRx ch p s).time s then s
      else if r.pow ^ 5 * 1000 ≤ p.pow ^ 5 then
        if s.on (LST_CH_CTRL_cap_en ch) then
          (rxStart ch (peakRx ch p s) false (rxRecord ch .aborted 1 (s.addSat (LST_CH_CNT_captures ch) 1))).freeNext
        else s.addSat (LST_CH_CNT_cap_ign ch) 1
      else ((updLst ch (fun c => { c with cand := some (peakRx ch p s) }) s).set (LST_CH_STAT_cand ch) 1).freeNext := by
  by_cases strong : r.pow ^ 5 * 1000 ≤ p.pow ^ 5
  · cases capture : s.on (LST_CH_CTRL_cap_en ch) <;> simp [watchJudge, strongerPeak, strong, capture]
  · simp [watchJudge, strongerPeak, strong]

end

/-- Settles O20: a command is judged in the state that has accepted its write, in which the channel and its source are as before; an
evaluation shows its metric, which changes nothing that the judgement reads. -/
theorem listenerChannels : Obligations.ListenerChannels := by
  unfold Obligations.ListenerChannels
  refine ⟨?_, ?_, ?_, ?_, ?_, ?_, ?_, ?_, ?_, ?_, ?_, ?_, ?_, ?_, ?_, ?_, ?_, ?_⟩
  · intro q ch s sent off source
    have effect := lstStart_begins ((lstState_request ch.isLt q (LST_CH_CMD ch) s).trans off)
      ((sourceOk_request ch.isLt q (LST_CH_CMD ch) s).trans source)
    exact congrArg Host.Outcome.next (gated_uncounted sent effect (.inl rfl))
  · intro q ch s sent off source
    have effect := lstStart_range ((lstState_request ch.isLt q (LST_CH_CMD ch) s).trans off)
      ((sourceOk_request ch.isLt q (LST_CH_CMD ch) s).trans source)
    exact congrArg Host.Outcome.next (gated_uncounted sent effect (.inr (.inr (.inr rfl))))
  · intro q ch s sent on
    have effect := lstStart_refused ((lstState_request ch.isLt q (LST_CH_CMD ch) s).trans_ne on)
    exact congrArg Host.Outcome.next (gated_counted sent effect rfl)
  · intro q ch s sent
    exact congrArg Host.Outcome.next (gated_uncounted sent rfl (.inl rfl))
  · intro q ch s sent receive
    have effect := lstRestart_receiving ((lstState_request ch.isLt q (LST_CH_CMD ch) s).trans receive)
    exact congrArg Host.Outcome.next (gated_uncounted sent effect (.inl rfl))
  · intro q ch s sent off
    have effect := lstRestart_refused ((lstState_request ch.isLt q (LST_CH_CMD ch) s).trans off)
    exact congrArg Host.Outcome.next (gated_counted sent effect rfl)
  · intro ch pw s live pend free power
    exact congrArg Host.Outcome.next (agcWindowEnd_moves live pend free power)
  · intro ch s live pend stays
    exact congrArg Host.Outcome.next (agcWindowEnd_stays live pend stays)
  · intro ch s live pend
    exact congrArg Host.Outcome.next (agcWindowEnd_freezes live pend)
  · intro ch s search
    cases peak : pssPeak ch s with
    | none => exact congrArg Host.Outcome.next (syncDetect_silent search peak)
    | some p => exact congrArg Host.Outcome.next (syncDetect_peak search peak)
  · intro ch s elsewhere
    exact congrArg Host.Outcome.next (syncDetect_elsewhere elsewhere)
  · intro ch s r rx
    cases ready : sssOf ch 0 r s with
    | none => exact congrArg Host.Outcome.next (sssEvaluate_unready rx ready)
    | some e => exact congrArg Host.Outcome.next ((sssEvaluate_judges rx ready).trans sssJudge_eq)
  · intro ch s idle
    exact congrArg Host.Outcome.next (sssEvaluate_idle idle)
  · intro ch soft s r rx first
    cases ready : sssOf ch (((nth s.lst ch).cnt - r.start) / 19200) r s with
    | none => exact congrArg Host.Outcome.next (pbchDecode_unready rx first ready)
    | some e =>
      refine congrArg Host.Outcome.next ((pbchDecode_evaluates rx first ready).trans ?_)
      refine congrArg (ite (e.q < s.get (LST_CH_THR_cfm_thr ch)) (rxFalse ch (metricShown ch e s))) ?_
      have result := pbchResult_metricShown (ch := ch) (e := e) (s := s) (soft :: r.frames)
      cases decoded : pbchMatch (s.on (LST_CH_CTRL_ecp ch)) (s.get (LST_RX_CELL_pci ch)) (soft :: r.frames) with
      | none => exact pbchJudge_none (result.trans decoded)
      | some v =>
        obtain ⟨b, ports, fofs⟩ := v
        have stored := pbchJudge_mib (result.trans decoded)
        rwa [pci_metricShown] at stored
  · intro ch soft s unconfirmed
    exact congrArg Host.Outcome.next (pbchDecode_unconfirmed unconfirmed)
  · intro ch s r rx
    refine congrArg Host.Outcome.next ((watchPeak_unevaluated rx).trans ?_)
    cases pssPeak ch s with
    | none => exact watchJudge_silent
    | some p => exact watchJudge_peak
  · intro ch eval s idle
    exact congrArg Host.Outcome.next (watchPeak_idle idle)
  · intro ch s
    rfl

end Sys2Proof.Machine

namespace Sys2Proof.Machine

/-! # The listener's payloads, presence, timing and noise floors -/

/-! ## Payload release, presence and staleness (R237, R244, R246) -/

theorem wf_nrbufRel_two (ch : Nat) : wf 2 (LST_NRBUF_CTRL_rel ch) = 1 := show fieldOf 2 1 1 = 1 by decide

theorem wrNrbuf_releases {ch : Nat} {w : Word} {s : State} (rel : wf w (LST_NRBUF_CTRL_rel ch) = 1) :
    wrNrbuf ch w s = (s.set (LST_NRBUF_CTRL_full ch) 0).ret .done := by
  simp only [wrNrbuf, rel, if_true]

theorem presenceExpire_present {i : Nat} {s : State} (present : s.on (LST_ALLOW_present i) = true) :
    presenceExpire i s = donorEval (s.get (LST_ALLOW_group i)) (s.set (LST_ALLOW_present i) 0) :=
  if_pos present

theorem timingStale_first {ch : Nat} {s : State} (tracks : s.on (LST_CH_CTRL_tim_en ch) = true)
    (fresh : s.on (LST_CH_STAT_tim_stale ch) = false) :
    timingStale ch s = lstEvt (8 * ch + 5) (s.set (LST_CH_STAT_tim_stale ch) 1) :=
  if_pos ⟨tracks, by rw [fresh]; rfl⟩

/-! ## TDD patterns (R247) -/

section
variable {ch : Nat} {w : Word} {s : State}

theorem wf_tddValid_force (ch : Nat) (w : Word) : wf (force w (LST_TDD_B_valid ch) 1) (LST_TDD_B_valid ch) = 1 :=
  wf_force w (f := LST_TDD_B_valid ch) (show 24 + 1 ≤ 32 by decide)

theorem wrTddB_accepts (legal : tddBad ch w s = false) :
    wrTddB ch w s = (updLst ch (fun c => { c with
      tddPend := some ((s.store (LST_TDD_B ch) LST_TDD_B_fs w).rd (LST_TDD_A ch),
        (s.store (LST_TDD_B ch) LST_TDD_B_fs w).rd (LST_TDD_B ch)) }) (s.store (LST_TDD_B ch) LST_TDD_B_fs w)).ret .done := by
  simp only [wrTddB, legal, Bool.false_eq_true, and_false, if_false]

theorem wrTddB_range (valid : wf w (LST_TDD_B_valid ch) = 1) (bad : tddBad ch w s = true) : wrTddB ch w s = s.ret .range :=
  if_pos ⟨valid, bad⟩

theorem boundaryAt_self {f : Nat} {t : Int} (h : (t - f) % (frameTicks : Int) = 0) : boundaryAt f t = t := by
  rw [boundaryAt, h, Int.sub_zero]

theorem tddActivate_boundary {p : Word × Word} {f : Nat} (pend : (nth s.lst ch).tddPend = some p)
    (track : (nth s.lst ch).track = some f) (boundary : ((s.bandTime : Int) - f) % (frameTicks : Int) = 0) :
    tddActivate ch s = tddPut ch p s.bandTime s := by
  simp only [tddActivate, pend, track, boundaryAt_self boundary, if_true]

theorem tddActivate_idle (h : (nth s.lst ch).tddPend = none ∨ (nth s.lst ch).track = none) : tddActivate ch s = s := by
  unfold tddActivate
  split
  · next p f pend track => simp [pend, track] at h
  · rfl

end

/-! ## Noise floors (R248, R249) -/

section
variable {g : Nat} {s : State}

theorem nfPublish_full {m : Mtr} {l : List Mtr} (en : s.on (LST_NF_CFG_en g) = true) (live : lstHeld s = false)
    (full : nth s.nfDone g = m :: l) :
    nfPublish g s = lstEvt 17 (nrsGroup g (((({ s with nfDone := upd s.nfDone g fun _ => l } : State).seti (LST_NF_floor g)
      (satI 16 (levelIn 16 m.sum (m.n * 2 ^ 30) + s.geti (LST_NF_CFG2_fs_dbm g)))).set (LST_NF_valid g) 1).incMod
        (LST_NF_pubs g))) := by
  simp only [nfPublish, full, en, live, Bool.not_false, Bool.and_self, if_true]
  rfl

theorem nfPublish_idle (h : nth s.nfDone g = [] ∨ s.on (LST_NF_CFG_en g) = false) : nfPublish g s = s := by
  unfold nfPublish
  split
  · rfl
  · next m l full =>
    have off : s.on (LST_NF_CFG_en g) = false := h.resolve_left (full.trans_ne (List.cons_ne_nil m l))
    rw [off]
    rfl

theorem nfExpire_valid (valid : s.on (LST_NF_valid g) = true) (age : s.get LST_CTRL_nf_age ≠ 0) :
    nfExpire g s = lstEvt 17 (nrsGroup g (s.set (LST_NF_valid g) 0)) :=
  if_pos ⟨valid, age⟩

end

/-! ## Reads that latch (R237) -/

theorem gatedRead_rxTimeL {q : Rq} {ch : Nat} {s : State} (chan : ch < 2) (reads : Reads q (LST_RX_TIME_L ch) s) :
    gatedRead q (LST_RX_TIME_L ch) (rdRxTimeL ch) s =
      ((request q (LST_RX_TIME_L ch) s).retData [s.rd (LST_RX_TIME_L ch)]).wr (LST_RX_TIME_H ch) (nth s.lst ch).timeH := by
  rw [gatedRead_go reads, rdRxTimeL, plainRead, rd_request_low (lstRxTimeL_low chan), request_lst]

/-- Settles O21: a write and a read are judged in the state that has accepted them, in which the pattern's other word, the channel's
configuration and its own state are as before; what each event does, the lemma of its function says. -/
theorem listenerTiming : Obligations.ListenerTiming := by
  unfold Obligations.ListenerTiming
  refine ⟨?_, ?_, ?_, ?_, ?_, ?_, ?_, ?_, ?_, ?_, ?_, ?_⟩
  · intro q ch s sent
    exact congrArg Host.Outcome.next (gated_uncounted sent (wrNrbuf_releases (wf_nrbufRel_two ch)) (.inl rfl))
  · intro r s present
    exact congrArg Host.Outcome.next (presenceExpire_present present)
  · intro ch s tracks fresh
    exact congrArg Host.Outcome.next (timingStale_first tracks fresh)
  · intro q ch w s sent legal
    have effect := wrTddB_accepts ((tddBad_request ch.isLt q (LST_TDD_B ch) s _).trans legal)
    exact congrArg Host.Outcome.next (gated_uncounted sent effect (.inl rfl))
  · intro q ch w s sent bad
    have effect := wrTddB_range (wf_tddValid_force ch w) ((tddBad_request ch.isLt q (LST_TDD_B ch) s _).trans bad)
    exact congrArg Host.Outcome.next (gated_uncounted sent effect (.inr (.inr (.inr rfl))))
  · intro ch p f s pend track boundary
    exact congrArg Host.Outcome.next (tddActivate_boundary pend track boundary)
  · intro ch s idle
    exact congrArg Host.Outcome.next (tddActivate_idle idle)
  · intro g m l s en live full
    exact congrArg Host.Outcome.next (nfPublish_full en live full)
  · intro g s idle
    exact congrArg Host.Outcome.next (nfPublish_idle idle)
  · intro g s valid age
    exact congrArg Host.Outcome.next (nfExpire_valid valid age)
  · intro q ch s reads
    exact congrArg Host.Outcome.next (gatedRead_clear reads (lstChCnt_low ch.isLt))
  · intro q ch s reads
    exact congrArg Host.Outcome.next (gatedRead_rxTimeL ch.isLt reads)

end Sys2Proof.Machine

namespace Sys2Proof.Machine

/-! # Radio front-end control -/

/-! ## The sequencers' registers where an access has been accepted -/

section
variable {n : Nat} (seq : n < 4)
include seq

theorem fenSeqCtrl_low : FEN_SEQ_CTRL n < 0x40300000 := by simp only [FEN_SEQ_CTRL]; omega
theorem fenSeqStat_low : FEN_SEQ_STAT n < 0x40300000 := by simp only [FEN_SEQ_STAT]; omega
theorem fenSeqCal_low : FEN_SEQ_CAL n < 0x40300000 := by simp only [FEN_SEQ_CAL]; omega
theorem fenSeqCnt_low : FEN_SEQ_CNT n < 0x40300000 := by simp only [FEN_SEQ_CNT]; omega
theorem fenSpiCfg_low : FEN_SPI_CFG n < 0x40300000 := by simp only [FEN_SPI_CFG]; omega
theorem fenSpiStat_low : FEN_SPI_STAT n < 0x40300000 := by simp only [FEN_SPI_STAT]; omega

variable (q : Rq) (a : Nat) (s : State)

theorem seqState_request : seqState n (request q a s) = seqState n s := get_request_low (fenSeqStat_low seq)

theorem seqLocked_request : seqLocked n (request q a s) = seqLocked n s := on_request_low (fenSeqStat_low seq)

theorem txHeld_request : (request q a s).on (FEN_SEQ_STAT_tx_held n) = s.on (FEN_SEQ_STAT_tx_held n) :=
  on_request_low (fenSeqStat_low seq)

theorem seqMode_request : (request q a s).on (FEN_SEQ_CTRL_mode n) = s.on (FEN_SEQ_CTRL_mode n) :=
  on_request_low (fenSeqCtrl_low seq)

theorem spiGo_request : (request q a s).on (FEN_SEQ_CTRL_spi_go n) = s.on (FEN_SEQ_CTRL_spi_go n) :=
  on_request_low (fenSeqCtrl_low seq)

theorem spiM_request : (request q a s).get (FEN_SEQ_CTRL_spi_m n) = s.get (FEN_SEQ_CTRL_spi_m n) :=
  get_request_low (fenSeqCtrl_low seq)

theorem spiBusy_request : (request q a s).on (FEN_SPI_STAT_busy n) = s.on (FEN_SPI_STAT_busy n) :=
  on_request_low (fenSpiStat_low seq)

/-- The calibration set-up names two of the 128 paths. -/
theorem calValid_request : calValid n (request q a s) = calValid n s := by
  have tx : (request q a s).get (FEN_SEQ_CAL_cal_tx n) = s.get (FEN_SEQ_CAL_cal_tx n) := get_request_low (fenSeqCal_low seq)
  have rx : (request q a s).get (FEN_SEQ_CAL_cal_rx n) = s.get (FEN_SEQ_CAL_cal_rx n) := get_request_low (fenSeqCal_low seq)
  have txPath : s.get (FEN_SEQ_CAL_cal_tx n) < 128 := s.get_lt _
  have rxPath : s.get (FEN_SEQ_CAL_cal_rx n) < 128 := s.get_lt _
  have half : (request q a s).get (BND_PATH_CFG_hb (s.get (FEN_SEQ_CAL_cal_rx n))) =
      s.get (BND_PATH_CFG_hb (s.get (FEN_SEQ_CAL_cal_rx n))) :=
    get_request_low (by simp only [BND_PATH_CFG_hb, BND_PATH_CFG]; omega)
  simp only [calValid, tx, rx, half, admState_request txPath, admState_request rxPath, rptState_request txPath,
    rptState_request rxPath]

end

/-! ## The command word (R256, R257) -/

theorem wf_op_seqWord (n dur : Nat) {op : Nat} (h : op < 8) : wf (seqWord n op dur) (FEN_SEQ_CMD_op n) = op :=
  (wf_force_ne _ (f := FEN_SEQ_CMD_dur n) (g := FEN_SEQ_CMD_op n) (.inr (show 0 + 3 ≤ 16 by decide))
    (show 0 + 3 ≤ 32 by decide)).trans
    ((wf_force 0 (f := FEN_SEQ_CMD_op n) (show 0 + 3 ≤ 32 by decide)).trans (Nat.mod_eq_of_lt h))

theorem wf_dur_seqWord (n op : Nat) {dur : Nat} (h : dur < 65536) : wf (seqWord n op dur) (FEN_SEQ_CMD_dur n) = dur :=
  (wf_force _ (f := FEN_SEQ_CMD_dur n) (show 16 + 16 ≤ 32 by decide)).trans (Nat.mod_eq_of_lt h)

/-- What a command of the table of R256 does where no forced cause acts. -/
def seqDo (n op dur : Nat) (s : State) : State :=
  match op with
  | 1 => seqStandby n s
  | 2 => seqRx n s
  | 3 => seqTx n dur s
  | 4 => seqSettle n s
  | 5 => seqCal n s
  | _ => seqOff n s

section
variable {n op dur : Nat} {s : State} (low : 1 ≤ op) (high : op ≤ 6)
include low high

theorem wrSeqCmd_guard (forced : s.fenForced = true) : wrSeqCmd n (seqWord n op dur) s = seqNow n op .guard s := by
  have known : ¬(op = 0 ∨ op = 7) := by omega
  simp only [wrSeqCmd, wf_op_seqWord n dur (show op < 8 by omega), if_neg known, forced, if_true]

variable (free : s.fenForced = false)
include free

theorem wrSeqCmd_hold (hold : s.on CRP_ATTIC_STAT_hold = true) (on : op ≠ 6) :
    wrSeqCmd n (seqWord n op dur) s = seqNow n op .state s := by
  have known : ¬(op = 0 ∨ op = 7) := by omega
  simp only [wrSeqCmd, wf_op_seqWord n dur (show op < 8 by omega), if_neg known, free, Bool.false_eq_true, if_false,
    if_pos (And.intro hold on)]

theorem wrSeqCmd_taken (dur_lt : dur < 65536) (hold : s.on CRP_ATTIC_STAT_hold = false ∨ op = 6) :
    wrSeqCmd n (seqWord n op dur) s = seqDo n op dur s := by
  have known : ¬(op = 0 ∨ op = 7) := by omega
  have serves : ¬(s.on CRP_ATTIC_STAT_hold = true ∧ op ≠ 6) := by
    rcases hold with h | h <;> simp [h]
  simp only [wrSeqCmd, wf_op_seqWord n dur (show op < 8 by omega), wf_dur_seqWord n op dur_lt, if_neg known, free,
    Bool.false_eq_true, if_false, if_neg serves]
  rfl

/-- The state that has accepted the write is neither forced off nor held where the state before is not. -/
theorem wrSeqCmd_request (dur_lt : dur < 65536) (hold : s.on CRP_ATTIC_STAT_hold = false ∨ op = 6) (q : Rq) :
    wrSeqCmd n (seqWord n op dur) (request q (FEN_SEQ_CMD n) s) = seqDo n op dur (request q (FEN_SEQ_CMD n) s) :=
  wrSeqCmd_taken low high ((request_fenForced ..).trans free) dur_lt (hold.imp_left (on_request_low (by decide)).trans)

end

section
variable {q : Rq} {n op dur : Nat} {s : State} (low : 1 ≤ op) (high : op ≤ 6)
  (sent : Sent q (FEN_SEQ_CMD n) FEN_SEQ_CMD_fs (seqWord n op dur) s)
include low high sent

theorem gated_seqGuard (forced : s.fenForced = true) :
    gated q (FEN_SEQ_CMD n) FEN_SEQ_CMD_fs (seqWord n op dur) (wrSeqCmd n (seqWord n op dur)) s =
      completed q (FEN_SEQ_CMD n) true .guard (seqNow n op .guard (request q (FEN_SEQ_CMD n) s)) :=
  gated_counted sent (wrSeqCmd_guard low high ((request_fenForced ..).trans forced)) rfl

variable (free : s.fenForced = false)
include free

theorem gated_seqHold (hold : s.on CRP_ATTIC_STAT_hold = true) (on : op ≠ 6) :
    gated q (FEN_SEQ_CMD n) FEN_SEQ_CMD_fs (seqWord n op dur) (wrSeqCmd n (seqWord n op dur)) s =
      completed q (FEN_SEQ_CMD n) true .state (seqNow n op .state (request q (FEN_SEQ_CMD n) s)) :=
  gated_counted sent (wrSeqCmd_hold low high ((request_fenForced ..).trans free) ((on_request_low (by decide)).trans hold) on) rfl

variable (dur_lt : dur < 65536) (hold : s.on CRP_ATTIC_STAT_hold = false ∨ op = 6)
include dur_lt hold

/-- A command that no forced cause and no safe hold refuses, and that the sequencer takes. -/
theorem gated_seqTaken {t : State} (effect : seqDo n op dur (request q (FEN_SEQ_CMD n) s) = t)
    (code : t.reply.code = .done ∨ t.reply.code = .held) :
    gated q (FEN_SEQ_CMD n) FEN_SEQ_CMD_fs (seqWord n op dur) (wrSeqCmd n (seqWord n op dur)) s = t :=
  gated_uncounted sent ((wrSeqCmd_request low high free dur_lt hold q).trans effect) (code.imp_right .inl)

/-- A command that no forced cause and no safe hold refuses, but the sequencer does. -/
theorem gated_seqRefused {c : Code}
    (effect : seqDo n op dur (request q (FEN_SEQ_CMD n) s) = seqNow n op c (request q (FEN_SEQ_CMD n) s)) :
    gated q (FEN_SEQ_CMD n) FEN_SEQ_CMD_fs (seqWord n op dur) (wrSeqCmd n (seqWord n op dur)) s =
      completed q (FEN_SEQ_CMD n) true c (seqNow n op c (request q (FEN_SEQ_CMD n) s)) :=
  gated_counted sent ((wrSeqCmd_request low high free dur_lt hold q).trans effect) rfl

end

/-! ## STANDBY, RX, TX, SETTLE and CAL (R256, R257, R260, R264) -/

section
variable {n dur : Nat} {s : State}

theorem seqStandby_off (off : seqState n s = 0) :
    seqStandby n s =
      seqNow n 1 .done (updFen n (fun f => { f with wait := s.on (FEN_SEQ_CTRL_mode n) }) (seqEnter n 1 s)) :=
  if_pos off

section
variable (manual : s.on (FEN_SEQ_CTRL_mode n) = false)
include manual

theorem seqStandby_running (on : seqState n s = 4 ∨ seqState n s = 5) :
    seqStandby n s = seqNow n 1 .done (seqEnter n 1 s) := by
  have live : seqState n s ≠ 0 := by omega
  have legal : ¬(seqState n s ≠ 4 ∧ seqState n s ≠ 5) := by omega
  simp only [seqStandby, if_neg live, manual, Bool.false_eq_true, false_or, if_neg legal]

theorem seqRx_running (on : seqState n s = 1 ∨ seqState n s = 5) : seqRx n s = seqNow n 2 .done (seqEnter n 4 s) := by
  have legal : ¬(seqState n s ≠ 1 ∧ seqState n s ≠ 5) := by omega
  simp only [seqRx, manual, Bool.false_eq_true, false_or, if_neg legal]

variable (first : s.on (FEN_SEQ_STAT_tx_held n) = false)
include first

theorem seqTx_renews (tx : seqState n s = 5) :
    seqTx n dur s = seqNow n 3 .done (updFen n (fun f => { f with dur := dur }) s) := by
  have live : seqState n s ≠ 0 := by omega
  simp only [seqTx, manual, first, Bool.false_eq_true, or_false, if_neg live, if_pos tx]

theorem seqTx_asks (live : seqState n s ≠ 0) (other : seqState n s ≠ 5) :
    seqTx n dur s =
      (let t := coexAsk n s
       if seqReady n t then seqNow n 3 .done (txEnter n dur t)
       else seqHeld n 3 (updFen n (fun f => { f with txDur := dur }) (t.set (FEN_SEQ_STAT_tx_held n) 1))) := by
  simp only [seqTx, manual, first, Bool.false_eq_true, or_false, if_neg live, if_neg other]

end

section
variable (on : seqState n s = 1 ∨ seqState n s = 4 ∨ seqState n s = 5)
include on

theorem seqSettle_plain (plain : s.on (FEN_SEQ_CTRL_spi_go n) = false) :
    seqSettle n s =
      seqHeld n 4 (updFen n (fun f => { f with op := 4, words := false }) (seqEnter n 2 (s.set (FEN_SEQ_STAT_op_held n) 1))) := by
  have legal : ¬(seqState n s ≠ 1 ∧ seqState n s ≠ 4 ∧ seqState n s ≠ 5) := by omega
  simp only [seqSettle, if_neg legal, plain, Bool.false_eq_true, false_and, if_false]

theorem seqSettle_sends (go : s.on (FEN_SEQ_CTRL_spi_go n) = true)
    (idle : s.on (FEN_SPI_STAT_busy (s.get (FEN_SEQ_CTRL_spi_m n))) = false) :
    seqSettle n s =
      seqHeld n 4 (spiStart (s.get (FEN_SEQ_CTRL_spi_m n)) (updFen n (fun f => { f with op := 4, words := true })
        (seqEnter n 2 (s.set (FEN_SEQ_STAT_op_held n) 1)))) := by
  have legal : ¬(seqState n s ≠ 1 ∧ seqState n s ≠ 4 ∧ seqState n s ≠ 5) := by omega
  simp only [seqSettle, if_neg legal, go, idle, Bool.false_eq_true, and_false, if_false, if_true]

end

section
variable (on : seqState n s = 1 ∨ seqState n s = 4)
include on

theorem seqCal_starts (locked : seqLocked n s = true) (valid : calValid n s = true) :
    seqCal n s =
      seqHeld n 5 ((updFen n (fun f => { f with op := 5, cal := {} }) (seqEnter n 3 (s.set (FEN_SEQ_STAT_op_held n) 1))).set
        (FEN_SEQ_CALRES_passes n) 0) := by
  have legal : ¬(seqState n s ≠ 1 ∧ seqState n s ≠ 4) := by omega
  simp only [seqCal, if_neg legal, locked, valid, Bool.not_true, Bool.false_eq_true, if_false]

theorem seqCal_unlocked (unlocked : seqLocked n s = false) : seqCal n s = seqNow n 5 .notReady s := by
  have legal : ¬(seqState n s ≠ 1 ∧ seqState n s ≠ 4) := by omega
  simp only [seqCal, if_neg legal, unlocked, Bool.not_false, if_true]

end

end

/-- Settles O22: a command is judged in the state that has accepted its write, in which the sequencer, its lock, its paths and its
SPI master are as before; what each command does there, the lemma of its function says. -/
theorem sequencerCommands : Obligations.SequencerCommands := by
  unfold Obligations.SequencerCommands
  refine ⟨?_, ?_, ?_, ?_, ?_, ?_, ?_, ?_, ?_, ?_, ?_, ?_⟩
  · intro q n s sent free serves off
    have effect := seqStandby_off ((seqState_request n.isLt q (FEN_SEQ_CMD n) s).trans off)
    rw [seqMode_request n.isLt] at effect
    exact congrArg Host.Outcome.next
      (gated_seqTaken (by decide) (by decide) sent free (by decide) (.inl serves) effect (.inl rfl))
  · intro q n s sent free serves manual on
    rw [← seqState_request n.isLt q (FEN_SEQ_CMD n) s] at on
    have effect := seqStandby_running ((seqMode_request n.isLt q _ s).trans manual) on
    exact congrArg Host.Outcome.next
      (gated_seqTaken (by decide) (by decide) sent free (by decide) (.inl serves) effect (.inl rfl))
  · intro q n s sent free serves manual on
    rw [← seqState_request n.isLt q (FEN_SEQ_CMD n) s] at on
    have effect := seqRx_running ((seqMode_request n.isLt q _ s).trans manual) on
    exact congrArg Host.Outcome.next
      (gated_seqTaken (by decide) (by decide) sent free (by decide) (.inl serves) effect (.inl rfl))
  · intro q n dur s sent free serves manual first tx
    have effect := seqTx_renews (dur := dur.toNat) ((seqMode_request n.isLt q (FEN_SEQ_CMD n) s).trans manual)
      ((txHeld_request n.isLt q _ s).trans first) ((seqState_request n.isLt q _ s).trans tx)
    exact congrArg Host.Outcome.next
      (gated_seqTaken (by decide) (by decide) sent free dur.isLt (.inl serves) effect (.inl rfl))
  · intro q n dur s sent free serves manual first live other
    have was := seqState_request n.isLt q (FEN_SEQ_CMD n) s
    have effect := seqTx_asks (dur := dur.toNat) ((seqMode_request n.isLt q _ s).trans manual)
      ((txHeld_request n.isLt q _ s).trans first) (was.trans_ne live) (was.trans_ne other)
    refine congrArg Host.Outcome.next
      (gated_seqTaken (by decide) (by decide) sent free dur.isLt (.inl serves) effect ?_)
    dsimp only
    split
    · exact .inl rfl
    · exact .inr rfl
  · intro q n dur s sent forced
    exact congrArg Host.Outcome.next (gated_seqGuard (by decide) (by decide) sent forced)
  · intro q n s sent free hold
    exact congrArg Host.Outcome.next (gated_seqHold (by decide) (by decide) sent free hold (by decide))
  · intro q n s sent free serves on plain
    rw [← seqState_request n.isLt q (FEN_SEQ_CMD n) s] at on
    have effect := seqSettle_plain on ((spiGo_request n.isLt q _ s).trans plain)
    exact congrArg Host.Outcome.next
      (gated_seqTaken (by decide) (by decide) sent free (by decide) (.inl serves) effect (.inr rfl))
  · intro q n s sent free serves on go idle
    rw [← seqState_request n.isLt q (FEN_SEQ_CMD n) s] at on
    rw [← spiBusy_request (s.get_lt (FEN_SEQ_CTRL_spi_m n)) q (FEN_SEQ_CMD n), ← spiM_request n.isLt q (FEN_SEQ_CMD n)] at idle
    have effect := seqSettle_sends on ((spiGo_request n.isLt q _ s).trans go) idle
    rw [spiM_request n.isLt] at effect
    exact congrArg Host.Outcome.next
      (gated_seqTaken (by decide) (by decide) sent free (by decide) (.inl serves) effect (.inr rfl))
  · intro q n s sent free serves on locked valid
    rw [← seqState_request n.isLt q (FEN_SEQ_CMD n) s] at on
    have effect := seqCal_starts on ((seqLocked_request n.isLt q _ s).trans locked) ((calValid_request n.isLt q _ s).trans valid)
    exact congrArg Host.Outcome.next
      (gated_seqTaken (by decide) (by decide) sent free (by decide) (.inl serves) effect (.inr rfl))
  · intro q n s sent free serves on unlocked
    rw [← seqState_request n.isLt q (FEN_SEQ_CMD n) s] at on
    have effect := seqCal_unlocked on ((seqLocked_request n.isLt q _ s).trans unlocked)
    exact congrArg Host.Outcome.next
      (gated_seqRefused (by decide) (by decide) sent free (by decide) (.inl serves) effect)
  · intro q n s sent free
    exact congrArg Host.Outcome.next
      (gated_seqTaken (by decide) (by decide) sent free (by decide) (.inr rfl) rfl (.inl rfl))

end Sys2Proof.Machine

namespace Sys2Proof.Machine

/-! # The sequencers' events -/

/-! ## What an entry leaves of the sequencers' own states, and changes of one of them -/

/-- Two changes that agree on what the sequencer's own state is are one. -/
theorem updFen_congr {n : Nat} {f g : FenSeq → FenSeq} {s : State} (h : f (nth s.fen n) = g (nth s.fen n)) :
    updFen n f s = updFen n g s := by
  simp only [updFen, upd_congr h]

theorem updFen_fixed {n : Nat} {f : FenSeq → FenSeq} {s : State} (h : f (nth s.fen n) = nth s.fen n) : updFen n f s = s := by
  simp only [updFen, upd_fixed h]

theorem fen_coexGive (n : Nat) (s : State) : (coexGive n s).fen = s.fen := by
  unfold coexGive
  split <;> rfl

theorem fen_gatesClose (n : Nat) (s : State) : (gatesClose n s).fen = s.fen :=
  List.foldlRecOn (motive := fun t : State => t.fen = s.fen) _ _ rfl fun t ht k _ => by
    dsimp only
    split
    · exact ht
    · exact ht

/-- An entry latches the state's pattern and drops the bursts. -/
theorem fen_seqEnter (n t : Nat) (s : State) :
    (seqEnter n t s).fen = upd s.fen n fun f => { f with pat := s.rd (FEN_SEQ_PAT n (patIdx t)), burst := none, next := [] } := by
  unfold seqEnter
  extract_lets old p entered left
  have stays : left.fen = entered.fen := by
    simp only [left]
    split
    · exact (fen_gatesClose ..).trans (fen_coexGive ..)
    · rfl
  calc (rfcShow left).fen
      = left.fen := wr_fen ..
    _ = entered.fen := stays
    _ = _ := congrArg (upd · n _) (set_fen ..)

theorem next_seqEnter {n : Nat} {s : State} (t : Nat) (alone : (nth s.fen n).next = []) :
    (nth (seqEnter n t s).fen n).next = [] := by
  rw [fen_seqEnter, nth_upd]
  split
  · rfl
  · exact alone

/-! ## TX that is timed or HELD, lock inputs, SETTLE (R257 to R260) -/

section
variable {n i : Nat} {s : State}

theorem txDurExpire_timed (tx : seqState n s = 5) (manual : s.on (FEN_SEQ_CTRL_mode n) = false) (timed : (nth s.fen n).dur ≠ 0) :
    txDurExpire n s = seqEnter n (seqRet n s) s :=
  if_pos ⟨tx, by rw [manual]; rfl, timed⟩

section
variable (live : fenHeld s = false)
include live

theorem lockQualify_live :
    lockQualify n i s = lockShow n (updFen n (fun f => { f with qual := upd f.qual i fun _ => true }) s) :=
  if_neg (live.trans_ne Bool.false_ne_true)

theorem lockFall_live :
    lockFall i s = forN 4 (fun n r =>
      let t := lockShow n (updFen n (fun f => { f with qual := upd f.qual i fun _ => false }) r)
      if t.get (FEN_SEQ_CTRL_lk n) = i then lockLost n t else t) s :=
  if_neg (live.trans_ne Bool.false_ne_true)

end

section
variable (waits : s.on (FEN_SEQ_STAT_tx_held n) = true)
include waits

theorem heldTxEnter_ready (ready : seqReady n s = true) :
    heldTxEnter n s = txHeldEnd n .done 0 (txEnter n (nth s.fen n).txDur s) :=
  if_pos ⟨waits, ready⟩

theorem txHoldExpire_unready (unready : seqReady n s = false) :
    txHoldExpire n s = (txHeldEnd n .notReady 0 s).addSat (FEN_SEQ_CNT_refused n) 1 := by
  simp only [txHoldExpire, waits, unready, Bool.not_true, Bool.false_eq_true, if_false]

end

section
variable (runs : settling n s = true)
include runs

theorem settleDone_locked (locked : seqLocked n s = true) :
    settleDone n s = opHeldEnd n .done 0 (seqEnter n (seqRet n s) s) := by
  simp only [settleDone, runs, locked, Bool.and_self, if_true]

theorem settleTimeout_unlocked (unlocked : seqLocked n s = false) :
    settleTimeout n s = opHeldEnd n .timeout 0 (seqEnter n 1 s) := by
  simp only [settleTimeout, runs, unlocked, Bool.and_false, Bool.false_eq_true, if_false, if_true]

end

end

/-! ## Calibration passes (R265)

A pass shows its result in FEN_SEQ_CALRES and moves β of the measured path; nothing else that the judgement reads changes. -/

section
variable {n : Nat} {s : State}

theorem get_setFit {f g : Fd} {lo hi x : Int} (other : f.a ≠ g.a) : (State.setFit f lo hi x s).get g = s.get g := by
  unfold State.setFit
  split
  · exact set_get_ne s other
  · exact set_get_ne s other

theorem get_setFit_bits {f g : Fd} {lo hi x : Int} (other : f.lo + f.w ≤ g.lo ∨ g.lo + g.w ≤ f.lo) (inside : g.lo + g.w ≤ 32) :
    (State.setFit f lo hi x s).get g = s.get g := by
  unfold State.setFit
  split
  · exact get_set_bits s _ other inside
  · exact get_set_bits s _ other inside

theorem get_irrShow {a b : Nat} {g : Fd} (other : FEN_SEQ_CALRES n ≠ g.a) : (irrShow n a b s).get g = s.get g := by
  unfold irrShow
  split
  · exact get_setFit other
  · exact get_setFit (s := s.freeNext) other

theorem passes_irrShow (n a b : Nat) (s : State) :
    (irrShow n a b s).get (FEN_SEQ_CALRES_passes n) = s.get (FEN_SEQ_CALRES_passes n) := by
  have apart : (FEN_SEQ_CALRES_irr n).lo + (FEN_SEQ_CALRES_irr n).w ≤ (FEN_SEQ_CALRES_passes n).lo := show 0 + 16 ≤ 16 by decide
  have inside : (FEN_SEQ_CALRES_passes n).lo + (FEN_SEQ_CALRES_passes n).w ≤ 32 := show 16 + 3 ≤ 32 by decide
  unfold irrShow
  split
  · exact get_setFit_bits (.inl apart) inside
  · exact get_setFit_bits (s := s.freeNext) (.inl apart) inside

theorem get_betaStep {k : Nat} {tr ti ir ii : Int} {g : Fd} (other : BND_PATH_IQB k ≠ g.a) :
    (betaStep k tr ti ir ii s).get g = s.get g := by
  unfold betaStep
  extract_lets p re im
  split
  · exact wr_get_ne s other
  · exact (get_setFit other).trans (get_setFit other)

/-- A pass has ended: its sums start anew, it is counted, and its image rejection shown. -/
abbrev passShown (n a b : Nat) (s : State) : State :=
  irrShow n a b ((updFen n (fun f => { f with cal := {} }) s).incMod (FEN_SEQ_CALRES_passes n))

theorem get_passShown {a b : Nat} {g : Fd} (other : FEN_SEQ_CALRES n ≠ g.a) : (passShown n a b s).get g = s.get g :=
  (get_irrShow other).trans (incMod_get_ne _ other)

theorem passes_passShown (n a b : Nat) (s : State) :
    (passShown n a b s).get (FEN_SEQ_CALRES_passes n) = (s.get (FEN_SEQ_CALRES_passes n) + 1) % 8 :=
  (passes_irrShow ..).trans (get_set _ _ _ (show 16 + 3 ≤ 32 by decide))

theorem irrMet_passShown (n a b : Nat) (s : State) : irrMet n a b (passShown n a b s) = irrMet n a b s := by
  have floor : (passShown n a b s).get (FEN_SEQ_CAL_irr_min n) = s.get (FEN_SEQ_CAL_irr_min n) :=
    get_passShown (by simp only [FEN_SEQ_CALRES, FEN_SEQ_CAL_irr_min, FEN_SEQ_CAL]; omega)
  simp only [irrMet, floor]

theorem seqRet_passShown (n a b : Nat) (s : State) : seqRet n (passShown n a b s) = seqRet n s := by
  have ret : (passShown n a b s).on (FEN_SEQ_CTRL_ret n) = s.on (FEN_SEQ_CTRL_ret n) := by
    rw [State.on, get_passShown (by simp only [FEN_SEQ_CALRES, FEN_SEQ_CTRL_ret, FEN_SEQ_CTRL]; omega), State.on]
  rw [seqRet, ret, seqRet]

theorem calPassEnd_unready (h : seqState n s ≠ 3 ∨ (nth s.fen n).cal.n < calLen n s) : calPassEnd n s = s := if_pos h

section
variable (cal : seqState n s = 3) (full : calLen n s ≤ (nth s.fen n).cal.n)
include cal full

theorem calPassEnd_met (met : irrMet n (cxPow (nth s.fen n).cal.t) (cxPow (nth s.fen n).cal.i) s = true) :
    calPassEnd n s = opHeldEnd n .done 0 (seqEnter n (seqRet n s)
      (passShown n (cxPow (nth s.fen n).cal.t) (cxPow (nth s.fen n).cal.i) s)) := by
  have ended : ¬(seqState n s ≠ 3 ∨ (nth s.fen n).cal.n < calLen n s) := by omega
  simp only [calPassEnd, if_neg ended, irrMet_passShown, seqRet_passShown, met, if_true]

theorem calPassEnd_moves (unmet : irrMet n (cxPow (nth s.fen n).cal.t) (cxPow (nth s.fen n).cal.i) s = false)
    (early : s.get (FEN_SEQ_CALRES_passes n) < 3) :
    calPassEnd n s = betaStep (s.get (FEN_SEQ_CAL_cal_rx n)) (nth s.fen n).cal.t.1 (nth s.fen n).cal.t.2 (nth s.fen n).cal.i.1
      (nth s.fen n).cal.i.2 (passShown n (cxPow (nth s.fen n).cal.t) (cxPow (nth s.fen n).cal.i) s) := by
  have ended : ¬(seqState n s ≠ 3 ∨ (nth s.fen n).cal.n < calLen n s) := by omega
  have path : s.get (FEN_SEQ_CAL_cal_rx n) < 128 := s.get_lt _
  have apart : BND_PATH_IQB (s.get (FEN_SEQ_CAL_cal_rx n)) ≠ (FEN_SEQ_CALRES_passes n).a := by
    simp only [BND_PATH_IQB, FEN_SEQ_CALRES_passes, FEN_SEQ_CALRES]; omega
  have again : ¬ 4 ≤ (s.get (FEN_SEQ_CALRES_passes n) + 1) % 8 := by omega
  simp only [calPassEnd, if_neg ended, irrMet_passShown, unmet, Bool.false_eq_true, if_false, get_betaStep apart,
    passes_passShown, if_neg again]

end

end

/-! ## Bursts (R261 to R263) -/

section
variable {n sym : Nat} {tx : Bool} {t : Int} {b : Burst} {s : State}

/-- A burst that starts at t: its run of symbols in the pattern that stands then. -/
theorem burstFrom_some (h : burstFrom n sym tx t s = some b) :
    b.tx = tx ∧ b.s = t ∧
      (let v := patAt (seqCh n s) (patTime n t s) s
       let d := burstDir n tx v
       following n v = true ∧ runStart n sym d v = true ∧ chPos (seqCh n s) (patTime n t s) v = symTime n sym v ∧
        b.e = t + (symTime n (sym + runLen n sym d v) v - symTime n sym v : Nat)) := by
  unfold burstFrom at h
  dsimp only at h
  split at h
  · next run =>
    simp only [Bool.and_eq_true, decide_eq_true_eq] at run
    obtain ⟨⟨⟨⟨follows, -⟩, start⟩, pos⟩, -⟩ := run
    obtain rfl := Option.some.inj h
    exact ⟨rfl, rfl, follows, start, pos, rfl⟩
  · exact absurd h (Option.some_ne_none b).symm

/-- The bursts that wait behind one that is entered alone are none. -/
theorem burstGo_alone (alone : (nth s.fen n).next = []) :
    burstGo n b [] s =
      updFen n (fun f => { f with burst := some b, dur := if b.tx then 0 else f.dur }) (seqEnter n (if b.tx then 5 else 4) s) :=
  updFen_congr (by rw [← next_seqEnter (if b.tx then 5 else 4) alone])

theorem burstTake_enters (idle : (nth s.fen n).burst = none) (alone : (nth s.fen n).next = []) :
    burstTake n b s =
      updFen n (fun f => { f with burst := some b, dur := if b.tx then 0 else f.dur }) (seqEnter n (if b.tx then 5 else 4) s) := by
  rw [← burstGo_alone alone]
  simp only [burstTake, idle, alone, List.isEmpty_nil, Bool.not_true, Option.any_none, Bool.or_self, Bool.false_eq_true, if_false]

theorem burstTake_waits {c : Burst} (current : (nth s.fen n).burst = some c) (unfinished : s.bandTime < c.e) :
    burstTake n b s = updFen n (fun f => { f with next := (nth s.fen n).next ++ [b] }) s := by
  rw [updFen_congr (g := fun f => { f with next := f.next ++ [b] }) rfl]
  simp only [burstTake, current, Option.any_some, unfinished, decide_true, Bool.or_true, if_true]

theorem burstTxEnter_taken (now : burstNow n sym true s = some b) (locked : seqLocked n s = true) (granted : seqGranted n s = true)
    (state : burstState n s = true) : burstTxEnter n sym s = burstTake n b s := by
  simp only [burstTxEnter, now, burstReady, locked, granted, state, Bool.and_self, if_true]

theorem burstTxEnter_skipped (now : burstNow n sym true s = some b)
    (h : seqLocked n s = false ∨ seqGranted n s = false ∨ burstState n s = false) :
    burstTxEnter n sym s = seqSkip n b.s s := by
  have unready : (burstReady n s && burstState n s) = false := by
    rcases h with h | h | h <;> simp [burstReady, h]
  simp only [burstTxEnter, now, unready, Bool.false_eq_true, if_false]

theorem burstRxEnter_taken (now : burstNow n sym false s = some b) (state : burstState n s = true) :
    burstRxEnter n sym s = burstTake n b s := by
  simp only [burstRxEnter, now, state, if_true]

section
variable {c : Burst} (current : (nth s.fen n).burst = some c)
include current

theorem burstLeave_unfinished (unfinished : s.bandTime < c.e) : burstLeave n s = s := by
  simp only [burstLeave, current, unfinished, if_true]

theorem burstLeave_ended (ended : c.e ≤ s.bandTime) : burstLeave n s = burstPass n c (nth s.fen n).next s := by
  simp only [burstLeave, current, if_neg (not_lt.2 ended)]

/-- A burst's leave time comes no earlier than its end. -/
theorem burstLeave_returns (left : leaveTime n c s ≤ s.bandTime) (alone : (nth s.fen n).next = []) :
    burstLeave n s = seqEnter n (seqRet n s) s := by
  have ended : c.e ≤ s.bandTime := le_trans (Int.le_add_of_nonneg_right (Int.natCast_nonneg _)) left
  rw [burstLeave_ended current ended, alone, burstPass, updFen_fixed (by rw [← alone]), burstRet, if_pos left]

theorem burstLeave_passes {l : List Burst} (ended : c.e ≤ s.bandTime) (waits : (nth s.fen n).next = b :: l)
    (follows : following n (patAt (seqCh n s) (patTime n b.s s) s) = true) (locked : seqLocked n s = true)
    (granted : seqGranted n s = true) : burstLeave n s = burstGo n b l s := by
  rw [burstLeave_ended current ended, waits]
  simp only [burstPass, follows, burstReady, locked, granted, Bool.not_true, Bool.and_self, Bool.and_false, Bool.false_eq_true,
    if_false]

end

end

/-! ## The gates (R225) -/

section
variable {k : Nat} {s : State}

theorem gateEdge_closes (duplex : s.on (RPT_PATH_CFG_duplex k) = true) (live : rptHeld s = false) :
    gateEdge k false s = updRpt k (fun p => { p with gate := false }) s := by
  simp only [gateEdge, duplex, live, Bool.not_true, Bool.not_false, Bool.false_eq_true, or_self, if_false, if_true]

theorem gateEdge_opens {b : Burst} (duplex : s.on (RPT_PATH_CFG_duplex k) = true) (live : rptHeld s = false)
    (current : (nth s.fen (s.get (RPT_PATH_CFG_seq k))).burst = some b) (tx : b.tx = true) (start : b.s = s.bandTime) :
    gateEdge k true s =
      updRpt k (fun p => { p with gate := true, gateAt := s.bclk, gateEnd := s.bclk + (b.e - b.s).toNat }) s := by
  simp only [gateEdge, duplex, live, current, tx, start, Bool.not_true, Bool.false_eq_true, or_self, and_self, if_false, if_true]

/-- Where no entered TX burst of the path's sequencer starts, no gate opens. -/
theorem gateEdge_stays (h : ¬∃ b, (nth s.fen (s.get (RPT_PATH_CFG_seq k))).burst = some b ∧ b.tx = true ∧ b.s = s.bandTime) :
    gateEdge k true s = s := by
  unfold gateEdge
  rw [Bool.not_true, if_neg Bool.false_ne_true]
  split
  · rfl
  · split
    · next b current => exact if_neg fun start => h ⟨b, current, start⟩
    · rfl

end

/-- Settles O23: what each event does, the lemma of its function says; a burst's lead and its time in the pattern are the model's
own (burstLead, patTime), written out. -/
theorem sequencerEvents : Obligations.SequencerEvents := by
  unfold Obligations.SequencerEvents
  refine ⟨?_, ?_, ?_, ?_, ?_, ?_, ?_, ?_, ?_, ?_, ?_, ?_, ?_, ?_, ?_, ?_, ?_, ?_, ?_, ?_, ?_⟩
  · intro n s tx manual timed
    exact congrArg Host.Outcome.next (txDurExpire_timed tx manual timed)
  · intro n i s live
    exact congrArg Host.Outcome.next (lockQualify_live live)
  · intro i s live
    exact congrArg Host.Outcome.next (lockFall_live live)
  · intro n s waits ready
    exact congrArg Host.Outcome.next (heldTxEnter_ready waits ready)
  · intro n s waits unready
    exact congrArg Host.Outcome.next (txHoldExpire_unready waits unready)
  · intro n s runs locked
    exact congrArg Host.Outcome.next (settleDone_locked runs locked)
  · intro n s runs unlocked
    exact congrArg Host.Outcome.next (settleTimeout_unlocked runs unlocked)
  · rintro n _ s cal rfl full met
    exact congrArg Host.Outcome.next (calPassEnd_met cal full met)
  · rintro n _ s cal rfl full unmet early
    exact congrArg Host.Outcome.next (calPassEnd_moves cal full unmet early)
  · intro n s unready
    exact congrArg Host.Outcome.next (calPassEnd_unready unready)
  · intro n sym tx t b s run
    exact burstFrom_some run
  · intro n sym b s now locked granted state idle alone
    have effect := (burstTxEnter_taken now locked granted state).trans (burstTake_enters idle alone)
    obtain ⟨tx, -⟩ := burstFrom_some now
    simp only [tx, if_true] at effect
    exact congrArg Host.Outcome.next effect
  · intro n sym b c s now locked granted state current unfinished
    exact congrArg Host.Outcome.next
      ((burstTxEnter_taken now locked granted state).trans (burstTake_waits current unfinished))
  · intro n sym b s now unready
    exact congrArg Host.Outcome.next (burstTxEnter_skipped now unready)
  · intro n sym b s now state idle alone
    have effect := (burstRxEnter_taken now state).trans (burstTake_enters idle alone)
    obtain ⟨rx, -⟩ := burstFrom_some now
    simp only [rx, Bool.false_eq_true, if_false] at effect
    exact congrArg Host.Outcome.next effect
  · intro n c s current unfinished
    exact congrArg Host.Outcome.next (burstLeave_unfinished current unfinished)
  · intro n c s current left alone
    exact congrArg Host.Outcome.next (burstLeave_returns current left alone)
  · intro n b c l s current ended waits follows tx locked granted
    have effect := burstLeave_passes current ended waits follows locked granted
    simp only [burstGo, tx, if_true] at effect
    exact congrArg Host.Outcome.next effect
  · intro k b s duplex live current tx start
    exact congrArg Host.Outcome.next (gateEdge_opens duplex live current tx start)
  · intro k s unstarted
    exact congrArg Host.Outcome.next (gateEdge_stays unstarted)
  · intro k s duplex live
    exact congrArg Host.Outcome.next (gateEdge_closes duplex live)

end Sys2Proof.Machine

namespace Sys2Proof.Machine

/-! # SPI masters, RFC pins and the coexistence wires -/

/-! ## SPI masters (R266) -/

section
variable {m : Nat}

/-- A master's configuration and its sixteen words are as before where an access has been accepted. -/
theorem spiWave_request (master : m < 4) (q : Rq) (a : Nat) (s : State) : spiWave m (request q a s) = spiWave m s := by
  have cfg : (request q a s).rd (FEN_SPI_CFG m) = s.rd (FEN_SPI_CFG m) := rd_request_low (fenSpiCfg_low master)
  have field : ∀ f : Fd, f.a = FEN_SPI_CFG m → (request q a s).get f = s.get f := fun f at' => by
    simp only [State.get, at', cfg]
  have word : ∀ j ∈ List.range (s.get (FEN_SPI_CFG_count m) + 1),
      (request q a s).rd (FEN_SPI_DATA m j) = s.rd (FEN_SPI_DATA m j) := fun j hj => by
      have count : s.get (FEN_SPI_CFG_count m) < 16 := s.get_lt _
      have below := List.mem_range.1 hj
      exact rd_request_low (by simp only [FEN_SPI_DATA]; omega)
  simp only [spiWave, State.on, field (FEN_SPI_CFG_count m) rfl, field (FEN_SPI_CFG_bits m) rfl,
    field (FEN_SPI_CFG_spi_mode m) rfl, field (FEN_SPI_CFG_csn_mode m) rfl]
  exact List.flatMap_congr fun j hj => by rw [word j hj]

theorem spiStart_request (master : m < 4) (q : Rq) (a : Nat) (s : State) :
    spiStart m (request q a s) =
      ((({ request q a s with spi := upd s.spi m fun _ => { wave := spiWave m s, start := s.bclk } } : State).set
        (FEN_SPI_STAT_busy m) 1).set (FEN_SPI_STAT_outcome m) Code.held.n) := by
  have started : (upd (request q a s).spi m fun _ => ⟨spiWave m (request q a s), (request q a s).bclk⟩) =
      upd s.spi m fun _ => ⟨spiWave m s, s.bclk⟩ := by
    rw [spiWave_request master, request_spi, request_bclk]
  rw [spiStart, started]

theorem wf_spiGo_one (m : Nat) : wf 1 (FEN_SPI_CMD_go m) = 1 := show fieldOf 1 0 1 = 1 by decide

section
variable {w : Word} {s : State} (go : wf w (FEN_SPI_CMD_go m) = 1)
include go

theorem wrSpiCmd_starts (idle : s.on (FEN_SPI_STAT_busy m) = false) : wrSpiCmd m w s = (spiStart m s).ret .held := by
  simp only [wrSpiCmd, go, idle, Nat.one_ne_zero, Bool.false_eq_true, if_false]

theorem wrSpiCmd_busy (busy : s.on (FEN_SPI_STAT_busy m) = true) : wrSpiCmd m w s = s.ret .state := by
  simp only [wrSpiCmd, go, busy, Nat.one_ne_zero, if_false, if_true]

end

/-- The lines at the two half periods of bit i of a word. -/
theorem getElem?_spiBits {width i : Nat} (inside : i < width) (p : Nat → Bool) (l : List SpiLine) :
    ((List.range width).flatMap (fun i => spiBit (p i)) ++ l)[2 * i]? = some ⟨false, false, some (p i)⟩ ∧
      ((List.range width).flatMap (fun i => spiBit (p i)) ++ l)[2 * i + 1]? = some ⟨false, true, some (p i)⟩ := by
  induction width generalizing i p with
  | zero => exact absurd inside (Nat.not_lt_zero i)
  | succ width ih =>
    rw [List.range_succ_eq_map, List.flatMap_cons, List.flatMap_map]
    cases i with
    | zero => exact ⟨rfl, rfl⟩
    | succ i => exact ih (Nat.lt_of_succ_lt_succ inside) fun i => p (i + 1)

/-- The wave begins with the bits of the first word, before which there is no rest. -/
theorem spiWave_first (m : Nat) (s : State) :
    ∃ l, spiWave m s = (List.range (s.get (FEN_SPI_CFG_bits m) + 1)).flatMap
      (fun i => spiBit (bit (s.rd (FEN_SPI_DATA m 0)) (s.get (FEN_SPI_CFG_bits m) - i))) ++ l :=
  ⟨_, by
    rw [spiWave, List.range_succ_eq_map (n := s.get (FEN_SPI_CFG_count m)), List.flatMap_cons, if_pos rfl,
      List.nil_append, Nat.add_sub_cancel]⟩

theorem spiEnd_busy {rx : List Word} {s : State} (busy : s.on (FEN_SPI_STAT_busy m) = true) :
    spiEnd m rx s = fenEvt (16 + m) (forN 4 (fun n t =>
      if t.get (FEN_SEQ_CTRL_spi_m n) = m then updFen n (fun f => { f with words := false }) t else t)
      (((forN (s.get (FEN_SPI_CFG_count m) + 1) (fun j t => t.wr (FEN_SPI_DATA m j)
        (BitVec.ofNat 32 ((nth rx j).toNat % 2 ^ (s.get (FEN_SPI_CFG_bits m) + 1)))) s).set
          (FEN_SPI_STAT_busy m) 0).set (FEN_SPI_STAT_outcome m) Code.done.n)) := by
  simp only [spiEnd, busy, Bool.not_true, Bool.false_eq_true, if_false]

end

/-! ## Pin ownership and the coexistence control (R254, R267) -/

theorem fieldOf_lt (w : Word) (lo n : Nat) : fieldOf w lo n < 2 ^ n := Nat.mod_lt _ (Nat.two_pow_pos n)

/-- No pin moves between sequencers of which one runs. -/
theorem wrRfcOwn_stores {a : Nat} {w : Word} {s : State}
    (still : ∀ i < 16, fieldOf (s.rd a) (2 * i) 2 = fieldOf w (2 * i) 2 ∨
      (seqState (fieldOf (s.rd a) (2 * i) 2) s = 0 ∧ seqState (fieldOf w (2 * i) 2) s = 0)) :
    wrRfcOwn a w s = rfcShow (plainWrite a FEN_RFC_OWN_L_fs w s) := by
  refine if_neg fun moves => ?_
  obtain ⟨i, below, moved⟩ := List.any_eq_true.1 moves
  rcases still i (List.mem_range.1 below) with same | ⟨old, new⟩
  · simp [same] at moved
  · simp [old, new] at moved

/-- An access moves neither an owner nor a sequencer. -/
theorem wrRfcOwn_request {q : Rq} {a : Nat} (low : a < 0x40300000) {w : Word} {s : State}
    (still : ∀ i < 16, fieldOf (s.rd a) (2 * i) 2 = fieldOf w (2 * i) 2 ∨
      (seqState (fieldOf (s.rd a) (2 * i) 2) s = 0 ∧ seqState (fieldOf w (2 * i) 2) s = 0)) :
    wrRfcOwn a w (request q a s) = rfcShow ((wrote q a FEN_RFC_OWN_L_fs w s).ret .done) := by
  refine wrRfcOwn_stores fun i hi => ?_
  rw [rd_request_low low, seqState_request (fieldOf_lt ..), seqState_request (fieldOf_lt ..)]
  exact still i hi

/-- A stored write of FEN_COEX_CTRL leaves coex_en at the written bit. -/
theorem on_coexEn_store (w : Word) (s : State) :
    (s.store FEN_COEX_CTRL FEN_COEX_CTRL_fs w).on FEN_COEX_CTRL_coex_en = decide (wf w FEN_COEX_CTRL_coex_en = 1) := by
  have enable : fieldOf (mergeWord FEN_COEX_CTRL_fs (s.rd FEN_COEX_CTRL) w false) 0 1 = fieldOf w 0 1 := by
    simp only [FEN_COEX_CTRL_fs, mergeWord, List.foldl_cons, List.foldl_nil]
    rw [fieldOf_putField_ne _ 16 16 _ 0 1 (by decide) (by decide), fieldOf_putField_ne _ 4 1 _ 0 1 (by decide) (by decide),
      fieldOf_putField_ne _ 3 1 _ 0 1 (by decide) (by decide), fieldOf_putField_ne _ 1 2 _ 0 1 (by decide) (by decide),
      fieldOf_putField _ 0 1 _ (by decide)]
    exact Nat.mod_mod _ _
  rw [State.on, store_get (a := FEN_COEX_CTRL) (g := FEN_COEX_CTRL_coex_en) s rfl]
  exact congrArg (fun v => decide (v = 1)) enable

theorem wrCoexCtrl_stores {w : Word} {s : State} (en : wf w FEN_COEX_CTRL_coex_en = 1)
    (still : (s.chg w FEN_COEX_CTRL_coex_en = false ∧ s.chg w FEN_COEX_CTRL_seq = false) ∨
      (seqState (s.get FEN_COEX_CTRL_seq) s = 0 ∧ seqState (wf w FEN_COEX_CTRL_seq) s = 0)) :
    wrCoexCtrl w s = (s.store FEN_COEX_CTRL FEN_COEX_CTRL_fs w).ret .done := by
  have allowed : ((s.chg w FEN_COEX_CTRL_coex_en || s.chg w FEN_COEX_CTRL_seq) &&
      (decide (seqState (s.get FEN_COEX_CTRL_seq) s ≠ 0) || decide (seqState (wf w FEN_COEX_CTRL_seq) s ≠ 0))) = false := by
    rcases still with ⟨sameEn, sameSeq⟩ | ⟨old, new⟩
    · rw [sameEn, sameSeq]; rfl
    · simp [old, new]
  simp only [wrCoexCtrl, allowed, on_coexEn_store, en, decide_true, Bool.false_eq_true, if_false, if_true]

theorem wrCoexCtrl_request {q : Rq} {w : Word} {s : State} (en : wf w FEN_COEX_CTRL_coex_en = 1)
    (still : (s.chg w FEN_COEX_CTRL_coex_en = false ∧ s.chg w FEN_COEX_CTRL_seq = false) ∨
      (seqState (s.get FEN_COEX_CTRL_seq) s = 0 ∧ seqState (wf w FEN_COEX_CTRL_seq) s = 0)) :
    wrCoexCtrl w (request q FEN_COEX_CTRL s) = (wrote q FEN_COEX_CTRL FEN_COEX_CTRL_fs w s).ret .done := by
  refine wrCoexCtrl_stores en ?_
  rw [chg_request_low (by decide), chg_request_low (by decide), get_request_low (by decide),
    seqState_request (s.get_lt FEN_COEX_CTRL_seq),
    seqState_request (n := wf w FEN_COEX_CTRL_seq) (fieldOf_lt ..)]
  exact still

/-! ## The coexistence wires (R267 to R270) -/

section
variable {s : State}

/-- An accepted change of COEX_GRANT touches FEN_COEX_STAT and the event flags alone. -/
theorem rd_grantChg {v a : Nat} (low : a < 0x40300000) (stat : FEN_COEX_STAT ≠ a) (evt : FEN_EVT ≠ a) :
    (grantChg v s).rd a = s.rd a := by
  unfold grantChg
  extract_lets cleared kept
  calc (kept.flagLimited FEN_EVT_grant 438 (kept.get FEN_COEX_CFG_ev_gap * msTicks)).rd a
      = cleared.rd a := rd_flagLimited low evt
    _ = s.rd a := ((set_rd_ne _ stat).trans (set_rd_ne _ stat)).trans (set_rd_ne s stat)

theorem seqState_grantChg {n : Nat} (seq : n < 4) (v : Nat) : seqState n (grantChg v s) = seqState n s := by
  have stat := rd_grantChg (v := v) (s := s) (fenSeqStat_low seq) (by simp only [FEN_COEX_STAT, FEN_SEQ_STAT]; omega)
    (by simp only [FEN_EVT, FEN_SEQ_STAT]; omega)
  simp only [seqState, State.get, FEN_SEQ_STAT_state, stat]

theorem rd_fenEvt {b a : Nat} (low : a < 0x40300000) (evt : FEN_EVT ≠ a) : (fenEvt b s).rd a = s.rd a :=
  (rd_raise _ _ fun r => by rcases r with r | r <;> omega).trans (set_rd_ne s evt)

theorem coexReqAssert_asks {n : Nat} (used : coexOn s = true) (comes : txComes n s = true) : coexReqAssert n s = coexAsk n s := by
  simp only [coexReqAssert, used, comes, Bool.and_self, if_true]

section
variable (used : coexOn s = true)
include used

theorem grantAssert_rises (was : s.on FEN_COEX_STAT_grant = false) :
    grantAssert s = (grantChg 1 s).addSat FEN_COEX_CNT_grants 1 := by
  simp only [grantAssert, used, was, Bool.not_false, Bool.and_self, if_true]

section
variable (was : s.on FEN_COEX_STAT_grant = true)
include was

theorem grantDeassert_idle (idle : seqState (s.get FEN_COEX_CTRL_seq) s ≠ 5) : grantDeassert s = grantChg 0 s := by
  simp only [grantDeassert, used, was, Bool.and_self, if_true, seqState_grantChg (s.get_lt FEN_COEX_CTRL_seq), if_neg idle]

/-- With coex_mode at 0 the burst runs on (R269). -/
theorem grantDeassert_tx (tx : seqState (s.get FEN_COEX_CTRL_seq) s = 5) (finish : s.on FEN_COEX_CTRL_coex_mode = false) :
    grantDeassert s = fenEvt 20 ((grantChg 0 s).addSat FEN_COEX_CNT_lost 1) := by
  have ctrl : (fenEvt 20 ((grantChg 0 s).addSat FEN_COEX_CNT_lost 1)).rd FEN_COEX_CTRL = s.rd FEN_COEX_CTRL :=
    ((rd_fenEvt (by decide) (by decide)).trans (addSat_rd_ne _ (show FEN_COEX_CNT ≠ FEN_COEX_CTRL by decide))).trans
      (rd_grantChg (by decide) (by decide) (by decide))
  have mode : (fenEvt 20 ((grantChg 0 s).addSat FEN_COEX_CNT_lost 1)).on FEN_COEX_CTRL_coex_mode = false :=
    (congrArg (fun w => decide (fieldOf w 4 1 = 1)) ctrl).trans finish
  simp only [grantDeassert, used, was, Bool.and_self, if_true, seqState_grantChg (s.get_lt FEN_COEX_CTRL_seq), if_pos tx, mode,
    Bool.false_eq_true, if_false]

theorem grantStuck_high (first : s.on FEN_COEX_STAT_stuck_hi = false) (fell : s.coexLo = true) :
    grantStuck s = fenEvt 21 ((s.set FEN_COEX_STAT_stuck_hi 1).addSat FEN_COEX_CNT_stuck 1) := by
  simp only [grantStuck, used, was, first, fell, Bool.not_false, Bool.and_self, if_true]

end

theorem grantGlitch_counts : grantGlitch s = s.addSat FEN_COEX_CNT_glitches 1 := if_pos used

end

end

theorem fenRfcOwn_low (high : Bool) : (if high then FEN_RFC_OWN_H else FEN_RFC_OWN_L) < 0x40300000 := by
  cases high <;> decide

/-- Settles O24: a write is judged in the state that has accepted it, in which the masters, the owners and the sequencers are as
before; an accepted change of COEX_GRANT leaves the sequencer's state and the coexistence control as they are. -/
theorem frontEndWires : Obligations.FrontEndWires := by
  unfold Obligations.FrontEndWires
  refine ⟨?_, ?_, ?_, ?_, ?_, ?_, ?_, ?_, ?_, ?_, ?_, ?_, ?_, ?_⟩
  · intro q m s sent idle
    have effect := wrSpiCmd_starts (wf_spiGo_one m) ((spiBusy_request m.isLt q (FEN_SPI_CMD m) s).trans idle)
    rw [spiStart_request m.isLt] at effect
    exact congrArg Host.Outcome.next (gated_uncounted sent effect (.inr (.inl rfl)))
  · intro m i s inside
    obtain ⟨l, first⟩ := spiWave_first m s
    rw [first]
    exact getElem?_spiBits (Nat.lt_succ_of_le inside) (fun i => bit (s.rd (FEN_SPI_DATA m 0)) (s.get (FEN_SPI_CFG_bits m) - i)) l
  · intro q m s sent busy
    have effect := wrSpiCmd_busy (wf_spiGo_one m) ((spiBusy_request m.isLt q (FEN_SPI_CMD m) s).trans busy)
    exact congrArg Host.Outcome.next (gated_counted sent effect rfl)
  · intro m rx s busy
    exact congrArg Host.Outcome.next (spiEnd_busy busy)
  · intro q high w s sent still
    have effect := wrRfcOwn_request (q := q) (fenRfcOwn_low high) fun i hi => still ⟨i, hi⟩
    exact congrArg Host.Outcome.next (gated_uncounted sent effect (.inl rfl))
  · intro q w s sent en still
    exact congrArg Host.Outcome.next (gated_uncounted sent (wrCoexCtrl_request en still) (.inl rfl))
  · intro n s used comes
    exact congrArg Host.Outcome.next (coexReqAssert_asks used comes)
  · intro s used was
    exact congrArg Host.Outcome.next (grantAssert_rises used was)
  · intro s used was idle
    exact congrArg Host.Outcome.next (grantDeassert_idle used was idle)
  · intro s used was tx finish
    exact congrArg Host.Outcome.next (grantDeassert_tx used was tx finish)
  · intro s used
    exact congrArg Host.Outcome.next (grantGlitch_counts used)
  · intro s used was first fell
    exact congrArg Host.Outcome.next (grantStuck_high used was first fell)
  · intro q s reads
    exact congrArg Host.Outcome.next (gatedRead_clear reads (by decide))
  · intro q n s reads
    exact congrArg Host.Outcome.next (gatedRead_clear reads (fenSeqCnt_low n.isLt))

end Sys2Proof.Machine

namespace Sys2Proof.Machine

/-! # Instructions of the cores -/

/-! ## A core that can issue (R284, R301, R311) -/

/-- A core that can issue and whose fetch ends DONE does what its instruction says, from the state after the fetch. -/
theorem isa_issues {c : Nat} {f : State → State} {s : State} (issues : Issues c s) : isa c f s = f (fetched c s) := by
  obtain ⟨can, ok⟩ := issues
  unfold isa
  exact (if_pos can).trans (if_pos ok)

/-- The command of an instruction, from what the instruction does after the fetch. -/
theorem next_isa {c : Nat} {f : State → State} {s t : State} (issues : Issues c s) (effect : f (fetched c s) = t) :
    (.next (isa c f s) : Out) = .next t :=
  congrArg Host.Outcome.next ((isa_issues issues).trans effect)

/-! ## Values (R281, R282) -/

theorem slt_eq_ite (a b : Word) : slt a b = if a.toInt < b.toInt then 1 else 0 := by
  simp [slt, boolW, BitVec.slt_eq_decide]

theorem sltu_eq_ite (a b : Word) : sltu a b = if a.toNat < b.toNat then 1 else 0 := by
  simp [sltu, boolW, BitVec.ult_eq_decide]

/-- A signed comparison with an immediate (R281). -/
theorem slt_sext16 (a : Word) (i : BitVec 16) : slt a (sext16 i) = if a.toInt < i.toInt then 1 else 0 := by
  rw [slt_eq_ite, sext16, BitVec.toInt_signExtend_of_le (by decide)]

theorem hi32_ui (a b : Word) : hi32 (ui a * ui b) = BitVec.ofNat 32 (a.toNat * b.toNat / 2 ^ 32) := by
  have product : ui a * ui b / 2 ^ 32 = ((a.toNat * b.toNat / 2 ^ 32 : Nat) : Int) := by simp [ui]
  rw [hi32, product, BitVec.ofInt_natCast]

theorem upper_eq (i : BitVec 21) : upper i = BitVec.ofNat 32 (i.toNat * 2048) := by
  apply BitVec.eq_of_toNat_eq
  simp only [upper, BitVec.toNat_shiftLeft, BitVec.toNat_setWidth, BitVec.toNat_ofNat, Nat.shiftLeft_eq]
  omega

section
variable {a b : Word}

theorem divS_zero : divS a 0 = if 0 ≤ a.toInt then 0x7FFFFFFF else 0x80000000 := if_pos rfl

theorem divS_overflow : divS 0x80000000 0xFFFFFFFF = 0x7FFFFFFF := by decide

theorem divS_quotient (divisor : b ≠ 0) (fits : ¬(a = 0x80000000 ∧ b = 0xFFFFFFFF)) :
    divS a b = BitVec.ofInt 32 (a.toInt.tdiv b.toInt) := (if_neg divisor).trans (if_neg fits)

theorem remS_remainder (divisor : b ≠ 0) : remS a b = BitVec.ofInt 32 (a.toInt.tmod b.toInt) := if_neg divisor

theorem divU_quotient (divisor : b ≠ 0) : divU a b = BitVec.ofNat 32 (a.toNat / b.toNat) := if_neg divisor

theorem remU_remainder (divisor : b ≠ 0) : remU a b = BitVec.ofNat 32 (a.toNat % b.toNat) := if_neg divisor

end

/-! ## Divisions, shifts and branches -/

section
variable {c rd r1 r2 : Nat} {sd : Bool} {f : Word → Word → Word} {s : State}

theorem opDiv_zero (zero : getW c r2 s = 0) : opDiv c rd r1 r2 sd f s = alu c rd (f (getW c r1 s) 0) (setDz c s) := by
  simp only [opDiv, divFlags, zero, if_true]

theorem opDiv_plain (divisor : getW c r2 s ≠ 0)
    (fits : ¬(sd = true ∧ getW c r1 s = 0x80000000 ∧ getW c r2 s = 0xFFFFFFFF)) :
    opDiv c rd r1 r2 sd f s = alu c rd (f (getW c r1 s) (getW c r2 s)) s := by
  simp only [opDiv, divFlags, if_neg divisor, if_neg fits]

theorem opDiv_overflow (least : getW c r1 s = 0x80000000 ∧ getW c r2 s = 0xFFFFFFFF) :
    opDiv c rd r1 r2 true divS s = alu c rd 0x7FFFFFFF (setSat c s) := by
  obtain ⟨dividend, divisor⟩ := least
  simp only [opDiv, divFlags, dividend, divisor, divS_overflow, and_self, if_true, if_neg (by decide : (0xFFFFFFFF : Word) ≠ 0)]

theorem opShift_legal {op : Nat} {i : BitVec 16} {g : Word → Nat → Word} (small : i.toNat < 32) :
    opShift c op rd r1 i g s = alu c rd (g (getW c r1 s) i.toNat) s := if_neg (by omega)

theorem opShift_illegal {op : Nat} {i : BitVec 16} {g : Word → Nat → Word} (large : 32 ≤ i.toNat) :
    opShift c op rd r1 i g s = illegal c (wordI op rd r1 i.toNat) s := if_pos large

/-- A branch by a condition p on the values of its registers. -/
theorem opB_ite {off : BitVec 16} {p : Word → Word → Bool} {q : Prop} [Decidable q]
    (condition : p (getW c r1 s) (getW c r2 s) = decide q) :
    opB c r1 r2 off p s = if q then jump c ((s.cpu c).pc + 4 * off.signExtend 32) s else goOn c s := by
  simp only [opB, condition, decide_eq_true_eq, sext16]

theorem opJalr_aligned {i : BitVec 16} (aligned : (getW c r1 s + i.signExtend 32).toNat % 4 = 0) :
    opJalr c rd r1 i s = jump c (getW c r1 s + i.signExtend 32) (setW c rd ((s.cpu c).pc + 4) s) :=
  if_neg (not_not_intro aligned)

theorem opJalr_misaligned {i : BitVec 16} (misaligned : (getW c r1 s + i.signExtend 32).toNat % 4 ≠ 0) :
    opJalr c rd r1 i s = trap c 2 0 (getW c r1 s + i.signExtend 32) s := if_pos misaligned

end

theorem slt_not (a b : Word) : (!a.slt b) = decide (b.toInt ≤ a.toInt) := by
  rw [BitVec.slt_eq_decide, ← decide_not]
  simp only [Int.not_lt]

theorem ult_not (a b : Word) : (!a.ult b) = decide (b.toNat ≤ a.toNat) := by
  rw [BitVec.ult_eq_decide, ← decide_not]
  simp only [Nat.not_lt]

/-- Settles O25: an instruction of a core that can issue acts on the state after its fetch; its value is the one that R281 and R282
give, and a division's flags depend on the divisor and on the one quotient that does not fit. -/
theorem integerInstructions : Obligations.IntegerInstructions := by
  unfold Obligations.IntegerInstructions
  refine ⟨?_, ?_, ?_, ?_, ?_, ?_, ?_, ?_, ?_, ?_, ?_⟩
  · intro c rd r1 r2 s issues
    exact ⟨next_isa issues rfl, next_isa issues rfl, next_isa issues rfl, next_isa issues rfl, next_isa issues rfl,
      next_isa issues rfl, next_isa issues rfl, next_isa issues rfl, next_isa issues rfl,
      next_isa issues (congrArg (alu c rd · _) (slt_eq_ite ..)), next_isa issues (congrArg (alu c rd · _) (sltu_eq_ite ..)),
      next_isa issues rfl, next_isa issues rfl, next_isa issues (congrArg (alu c rd · _) (hi32_ui ..))⟩
  · intro c rd r1 r2 s issues divisor fits
    have unsigned : ¬(false = true ∧ opnd c r1 s = 0x80000000 ∧ opnd c r2 s = 0xFFFFFFFF) := by simp
    exact ⟨next_isa issues ((opDiv_plain divisor fun h => fits h.2).trans (congrArg (alu c rd · _) (divS_quotient divisor fits))),
      next_isa issues ((opDiv_plain divisor unsigned).trans (congrArg (alu c rd · _) (remS_remainder divisor))),
      next_isa issues ((opDiv_plain divisor unsigned).trans (congrArg (alu c rd · _) (divU_quotient divisor))),
      next_isa issues ((opDiv_plain divisor unsigned).trans (congrArg (alu c rd · _) (remU_remainder divisor)))⟩
  · intro c rd r1 r2 s issues zero
    exact ⟨next_isa issues (opDiv_zero zero), next_isa issues (opDiv_zero zero), next_isa issues (opDiv_zero zero),
      next_isa issues (opDiv_zero zero)⟩
  · intro c rd r1 r2 s issues least
    exact next_isa issues (opDiv_overflow least)
  · intro c rd r1 i s issues
    exact ⟨next_isa issues rfl, next_isa issues rfl, next_isa issues rfl, next_isa issues rfl,
      next_isa issues (congrArg (alu c rd · _) (slt_sext16 ..)), next_isa issues (congrArg (alu c rd · _) (sltu_eq_ite ..))⟩
  · intro c rd r1 i s issues small
    exact ⟨next_isa issues (opShift_legal small), next_isa issues (opShift_legal small), next_isa issues (opShift_legal small)⟩
  · intro c rd r1 i s issues large
    exact next_isa issues (opShift_illegal large)
  · intro c rd i s issues
    exact ⟨next_isa issues (congrArg (alu c rd · _) (upper_eq i)),
      next_isa issues (congrArg (fun v => alu c rd (((fetched c s).cpu c).pc + v) (fetched c s)) (upper_eq i)), next_isa issues rfl⟩
  · intro c rd r1 i s issues aligned
    exact next_isa issues (opJalr_aligned aligned)
  · intro c rd r1 i s issues misaligned
    exact next_isa issues (opJalr_misaligned misaligned)
  · intro c r1 r2 off s issues
    exact ⟨next_isa issues (opB_ite rfl), next_isa issues (opB_ite rfl), next_isa issues (opB_ite BitVec.slt_eq_decide),
      next_isa issues (opB_ite (slt_not ..)), next_isa issues (opB_ite BitVec.ult_eq_decide), next_isa issues (opB_ite (ult_not ..))⟩

end Sys2Proof.Machine

namespace Sys2Proof.Machine

/-! ## CSR accesses (R291, R292) -/

/-- A listed number asks for level K at most. -/
theorem csrListed_level {n : Nat} (listed : csrListed n = true) : n / 1024 ≤ 2 := by
  simp only [csrListed, Bool.or_eq_true, Bool.and_eq_true, decide_eq_true_eq] at listed
  omega

section
variable {c n : Nat} {s : State}

theorem csrTrap_unlisted (write : Bool) (bad : n / 1024 = 3 ∨ csrListed n = false ∨ (n / 1024 = 2 ∧ c ≠ 12)) :
    csrTrap c n write s = some 0 := by
  refine if_pos ?_
  rcases bad with level | listed | keeper
  · have listed : csrListed n = false := Bool.eq_false_iff.2 fun listed => by have := csrListed_level listed; omega
    exact .inl (by simp [listed])
  · exact .inl (by simp [listed])
  · exact .inr (.inl keeper)

theorem csrTrap_readOnly (readOnly : n / 512 % 2 = 1) : csrTrap c n true s = some 0 := if_pos (.inr (.inr ⟨rfl, readOnly⟩))

/-- A listed number of a core that has it, and no write of a read-only one: the level alone decides. -/
theorem csrTrap_listed {write : Bool} (listed : csrListed n = true) (has : n / 1024 ≠ 2 ∨ c = 12)
    (written : write = true → n / 512 % 2 = 0) :
    csrTrap c n write s = if (s.cpu c).lvl < n / 1024 then some 1
      else if (s.cpu c).lvl = 0 ∧ 0x210 ≤ n ∧ n ≤ 0x21F ∧ (s.cpu c).cntUen / 2 ^ ((n - 0x210) / 2) % 2 = 0 then some 1 else none := by
  refine if_neg ?_
  rintro (missing | ⟨keeper, other⟩ | ⟨write, readOnly⟩)
  · simp [listed] at missing
  · exact has.elim (fun h => h keeper) other
  · have := written write
    omega

theorem csrTrap_below {write : Bool} (listed : csrListed n = true) (has : n / 1024 ≠ 2 ∨ c = 12)
    (written : write = true → n / 512 % 2 = 0) (below : (s.cpu c).lvl < n / 1024) : csrTrap c n write s = some 1 :=
  (csrTrap_listed listed has written).trans (if_pos below)

theorem csrTrap_read (listed : csrListed n = true) (has : n / 1024 ≠ 2 ∨ c = 12) (level : n / 1024 ≤ (s.cpu c).lvl)
    (above : (s.cpu c).lvl ≠ 0) : csrTrap c n false s = none := by
  rw [csrTrap_listed listed has (absurd · Bool.false_ne_true), if_neg (Nat.not_lt.2 level), if_neg fun h => above h.1]

end

section
variable {c rd rs1 t : Nat} {n : BitVec 12} {s : State}

theorem opCsrrw_trap (refused : csrTrap c n.toNat true s = some t) :
    opCsrrw c rd rs1 n s = trap c t 0 (wordS 0 rd rs1 n.toNat) s := by
  simp only [opCsrrw, csrOp, refused]

theorem opCsrrm_trap (refused : csrTrap c n.toNat true s = some t) :
    opCsrrm c rd rs1 n s = trap c t 0 (wordS 2 rd rs1 n.toNat) s := by
  simp only [opCsrrm, csrOp, refused]

theorem opCsrrd_trap (refused : csrTrap c n.toNat false s = some t) :
    opCsrrd c rd 0 n s = trap c t 0 (wordS 1 rd 0 n.toNat) s := by
  simp only [opCsrrd, csrOp, refused, ne_eq, not_true_eq_false, if_false]

theorem opCsrrd_reads (allowed : csrTrap c n.toNat false s = none) :
    opCsrrd c rd 0 n s = goOn c (setW c rd (csrRead c n.toNat s).2 (csrRead c n.toNat s).1) := by
  simp only [opCsrrd, csrOp, allowed, ne_eq, not_true_eq_false, if_false]

end

/-- The core of a number that asks for K, among the numbers of cores and as one of the fourteen. -/
theorem core_ne_keeper {c : Fin 14} (other : c ≠ 12) : c.val ≠ 12 := fun h => other (Fin.ext h)

/-- Settles O52: which number, access and level trap is the judgement of csrTrap alone, ILLEGAL before PRIV. -/
theorem csrRights : Obligations.CsrRights := by
  unfold Obligations.CsrRights
  refine ⟨?_, ?_, ?_, ?_⟩
  · intro c rd rs1 n s issues bad
    have unlisted := fun write => csrTrap_unlisted (s := fetched c s) write (bad.imp_right (.imp_right (.imp_right core_ne_keeper)))
    exact ⟨next_isa issues (opCsrrw_trap (unlisted true)), next_isa issues (opCsrrm_trap (unlisted true)),
      next_isa issues (opCsrrd_trap (unlisted false))⟩
  · intro c rd rs1 n s issues readOnly
    exact ⟨next_isa issues (opCsrrw_trap (csrTrap_readOnly readOnly)), next_isa issues (opCsrrm_trap (csrTrap_readOnly readOnly))⟩
  · intro c rd rs1 n s issues listed has below
    have has : n.toNat / 1024 ≠ 2 ∨ c.val = 12 := has.imp_right (congrArg Fin.val)
    refine ⟨next_isa issues (opCsrrd_trap (csrTrap_below listed has (absurd · Bool.false_ne_true) below)), fun writable => ?_⟩
    have refused := csrTrap_below (write := true) listed has (fun _ => writable) below
    exact ⟨next_isa issues (opCsrrw_trap refused), next_isa issues (opCsrrm_trap refused)⟩
  · intro c rd n s issues listed has level above
    exact next_isa issues (opCsrrd_reads (csrTrap_read listed (has.imp_right (congrArg Fin.val)) level above))

/-! ## The return from a trap (R286, R304) -/

/-- Two changes that agree on the core as it is are one. -/
theorem updCpu_congr {c : Nat} {f g : Cpu → Cpu} {s : State} (h : f (s.cpu c) = g (s.cpu c)) : updCpu c f s = updCpu c g s := by
  simp only [updCpu, upd_congr h]

/-- What a core goes on from leaves its saved ie alone. -/
theorem kpie_goTo (c : Nat) (t : Word) (s : State) : ((goTo c t s).cpu c).kpie = (s.cpu c).kpie := by
  refine (congrArg Cpu.kpie (cpu_tally ..)).trans ?_
  rw [cpu_updCpu]
  split <;> rfl

/-- Where every store has completed without a fault an instruction that waits for them goes on. -/
theorem afterStores_done {c : Nat} {f : State → State} {s : State} (none : ((settle c s).cpu c).serr = none)
    (empty : ((settle c s).cpu c).posted = []) : afterStores c f s = f (settle c s) := by
  simp [afterStores, none, empty]

/-- A store that has no completion keeps it waiting. -/
theorem afterStores_waits {c : Nat} {f : State → State} {s : State} (none : ((settle c s).cpu c).serr = none)
    (waits : ((settle c s).cpu c).posted ≠ []) : afterStores c f s = settle c s := by
  simp [afterStores, none, waits]

/-- A system instruction above level U with its unused fields 0. -/
theorem opSys_above {c : Nat} {word : Word} {f : State → State} {s : State} (above : (s.cpu c).lvl ≠ 0) :
    opSys c word [] f s = f s := if_neg above

section
variable {c rd rs1 : Nat} {imm : BitVec 12} {s : State}

theorem opRett_supervisor (above : (s.cpu c).lvl ≠ 0) (none : ((settle c s).cpu c).serr = none)
    (empty : ((settle c s).cpu c).posted = []) (level : ((settle c s).cpu c).lvl ≠ 2) :
    opRett c rd rs1 imm s = updCpu c (fun k => { k with lvl := if c = 13 then 1 else k.plvl, ie := k.pie })
      (goTo c ((settle c s).cpu c).epc (settle c s)) := by
  rw [opRett, opSys_above above, afterStores_done none empty]
  exact if_neg level

theorem opRett_keeper (above : (s.cpu c).lvl ≠ 0) (none : ((settle c s).cpu c).serr = none)
    (empty : ((settle c s).cpu c).posted = []) (level : ((settle c s).cpu c).lvl = 2) (saved : ((settle c s).cpu c).kplvl ≠ 3) :
    opRett c rd rs1 imm s = updCpu c
      (fun k => { k with lvl := ((settle c s).cpu c).kplvl, ie := ((settle c s).cpu c).kpie, nmiAct := false })
      (goTo c ((settle c s).cpu c).kepc (settle c s)) := by
  rw [opRett, opSys_above above, afterStores_done none empty]
  simp only [if_pos level, if_neg saved]
  exact updCpu_congr (by rw [kpie_goTo])

theorem opRett_waits (above : (s.cpu c).lvl ≠ 0) (none : ((settle c s).cpu c).serr = none)
    (waits : ((settle c s).cpu c).posted ≠ []) : opRett c rd rs1 imm s = settle c s := by
  rw [opRett, opSys_above above, afterStores_waits none waits]

end

/-- Settles O51: above level U RETT waits for the stores, and then the level decides which saved state it takes. -/
theorem returnFromTrap : Obligations.ReturnFromTrap := by
  unfold Obligations.ReturnFromTrap
  refine ⟨?_, ?_, ?_, ?_⟩
  · rintro c rd rs1 imm s issues above ⟨none, empty⟩ level other
    have other : c.val ≠ 13 := fun h => other (Fin.ext h)
    have effect := opRett_supervisor (rd := rd) (rs1 := rs1) (imm := imm) above none empty level
    simp only [if_neg other] at effect
    exact next_isa issues effect
  · rintro rd rs1 imm s issues above ⟨none, empty⟩ level saved
    exact next_isa issues (opRett_keeper above none empty level (Nat.ne_of_lt saved))
  · rintro rd rs1 imm s issues above ⟨none, empty⟩ level
    exact next_isa issues (opRett_supervisor above none empty level)
  · intro c rd rs1 imm s issues above none waits
    exact next_isa issues (opRett_waits above none waits)

end Sys2Proof.Machine

namespace Sys2Proof.Machine

/-! ## Data accesses (R279, R283) -/

section
variable {c n : Nat} {a : Word} {s : State}

theorem dataCheck_may {f : State → State} (may : MayAccess c n a s) : dataCheck c a n f s = f s := by
  obtain ⟨allowed, aligned⟩ := may
  simp only [dataCheck, allowed, aligned, Bool.not_true, Bool.false_eq_true, ne_eq, not_true_eq_false, if_false]

theorem dataRead_done {f : List Byte → State → State} (ok : (loadRead c n a s).2.1 = .done) :
    dataRead c a n f s = f (loadRead c n a s).2.2 (loadTaken c n a s) := if_pos ok

end

/-! ## The V extension (R277, R287) -/

section
variable {c xd xa xb sel fn : Nat} {vs un : List Nat} {s : State}

theorem opV_legal {f : State → State} (lane : c < 8) (vectors : ∀ r ∈ vs, r < 16) (unused : ∀ r ∈ un, r = 0) :
    opV c xd xa xb sel fn vs un f s = f s := by
  refine if_neg ?_
  rintro (other | large | used)
  · simp [hasV, lane] at other
  · obtain ⟨r, hr, large⟩ := List.any_eq_true.1 large
    exact absurd (vectors r hr) (Nat.not_lt.2 (of_decide_eq_true large))
  · obtain ⟨r, hr, used⟩ := List.any_eq_true.1 used
    exact of_decide_eq_true used (unused r hr)

theorem opV_illegal {f : State → State} (bad : 8 ≤ c ∨ (∃ r ∈ vs, 16 ≤ r) ∨ ∃ r ∈ un, r ≠ 0) :
    opV c xd xa xb sel fn vs un f s = illegal c (wordX 0x30 xd xa xb fn sel) s := by
  refine if_pos ?_
  rcases bad with other | ⟨r, hr, large⟩ | ⟨r, hr, used⟩
  · exact .inl (by simp [hasV, other])
  · exact .inr (.inl (List.any_eq_true.2 ⟨r, hr, decide_eq_true large⟩))
  · exact .inr (.inr (List.any_eq_true.2 ⟨r, hr, decide_eq_true used⟩))

/-- VCLAMP by a bound that is not negative. -/
theorem opVclamp_bound (lane : c < 8) (vd : xd < 16) (va : xa < 16) (bound : 0 ≤ (getW c xb s).toInt) :
    opVclamp c xd xa xb 0 s = vecPlain c xd
      (fun i => min (max (Machine.lane (getV c xa s) i) (-(getW c xb s).toInt)) (getW c xb s).toInt) s :=
  (opV_legal lane (by simp [vd, va]) (by simp)).trans (if_neg (Int.not_lt.2 bound))

theorem opVclamp_illegal (bad : 8 ≤ c ∨ 16 ≤ xd ∨ 16 ≤ xa ∨ (getW c xb s).toInt < 0) :
    opVclamp c xd xa xb 0 s = illegal c (wordX 0x30 xd xa xb 0x0E 0) s := by
  by_cases legal : c < 8 ∧ xd < 16 ∧ xa < 16
  · obtain ⟨lane, vd, va⟩ := legal
    have negative : (getW c xb s).toInt < 0 := by omega
    exact (opV_legal lane (by simp [vd, va]) (by simp)).trans (if_pos negative)
  · refine opV_illegal ?_
    by_cases lane : c < 8
    · refine .inr (.inl ?_)
      by_cases vd : xd < 16
      · exact ⟨xa, by simp, by omega⟩
      · exact ⟨xd, by simp, by omega⟩
    · exact .inl (Nat.not_lt.1 lane)

/-- The eight words that VLD reads. -/
theorem opVld_reads (lane : c < 8) (vd : xd < 16) (may : MayAccess c 32 (getW c xa s) s)
    (ok : (loadRead c 32 (getW c xa s) s).2.1 = .done) :
    opVld c xd xa 0 0 s = vecOn c (setV c xd ((List.range 8).map fun i => wordAt (loadRead c 32 (getW c xa s) s).2.2 (4 * i))
      (loadTaken c 32 (getW c xa s) s)) :=
  (opV_legal lane (by simp [vd]) (by simp)).trans ((dataCheck_may may).trans (dataRead_done ok))

theorem opVst_writes (lane : c < 8) (vd : xd < 16) (may : MayAccess c 32 (getW c xa s) s) :
    opVst c xd xa 0 0 s = vecOn c (dataWrite c (getW c xa s) ((getV c xd s).flatMap fun w => leBytes 4 w.toNat) s) :=
  (opV_legal lane (by simp [vd]) (by simp)).trans (dataCheck_may may)

end

/-! ## The C extension (R277, R288) -/

section
variable {c xd xa xb sel fn : Nat} {un : List Nat} {f : Word → Word → Word → Word × Bool} {s : State}

theorem opC_legal (first : 8 ≤ c) (last : c < 12) (unused : ∀ r ∈ un, r = 0) :
    opC c xd xa xb sel fn un f s = sampleTo c xd (f (getW c xd s) (getW c xa s) (getW c xb s)) s := by
  refine if_neg ?_
  rintro (other | used)
  · simp [hasC, first, last] at other
  · obtain ⟨r, hr, used⟩ := List.any_eq_true.1 used
    exact of_decide_eq_true used (unused r hr)

theorem opC_illegal (bad : c < 8 ∨ 12 ≤ c ∨ ∃ r ∈ un, r ≠ 0) :
    opC c xd xa xb sel fn un f s = illegal c (wordX 0x31 xd xa xb fn sel) s := by
  refine if_pos ?_
  rcases bad with low | high | ⟨r, hr, used⟩
  · exact .inl (by simp [hasC, low])
  · exact .inl (by simp [hasC, high])
  · exact .inr (List.any_eq_true.2 ⟨r, hr, decide_eq_true used⟩)

end

/-- Settles O27: the word is judged first; then an instruction's lanes or halves are those of its operation, with the saturation or the
rounding that its row gives. -/
theorem vectorInstructions : Obligations.VectorInstructions := by
  unfold Obligations.VectorInstructions
  refine ⟨?_, ?_, ?_, ?_, ?_, ?_, ?_, ?_, ?_, ?_, ?_, ?_, ?_, ?_⟩
  · intro c d a b s issues lane vd va vb
    have three : ∀ r ∈ [d.val, a.val, b.val], r < 16 := by simp [vd, va, vb]
    have two : ∀ r ∈ [d.val, a.val], r < 16 := by simp [vd, va]
    have zero : ∀ r ∈ [0], r = 0 := by simp
    exact ⟨next_isa issues (opV_legal lane three zero), next_isa issues (opV_legal lane three zero),
      next_isa issues (opV_legal lane three zero), next_isa issues (opV_legal lane three zero),
      next_isa issues (opV_legal lane three zero), next_isa issues (opV_legal lane three zero),
      next_isa issues (opV_legal lane three zero), next_isa issues (opV_legal lane two (by simp))⟩
  · intro c d a n s issues lane vd va
    have two : ∀ r ∈ [d.val, a.val], r < 16 := by simp [vd, va]
    have zero : ∀ r ∈ [0], r = 0 := by simp
    exact ⟨next_isa issues (opV_legal lane two zero), next_isa issues (opV_legal lane two zero)⟩
  · intro c d a sel s issues lane vd
    have one : ∀ r ∈ [d.val], r < 16 := by simp [vd]
    exact ⟨next_isa issues (opV_legal lane one (by simp)), next_isa issues (opV_legal lane one (by simp))⟩
  · intro c d a sel s issues lane va
    have one : ∀ r ∈ [a.val], r < 16 := by simp [va]
    exact ⟨next_isa issues (opV_legal lane one (by simp)), next_isa issues (opV_legal lane one (by simp))⟩
  · intro c d a b s issues lane vd va bound
    exact next_isa issues (opVclamp_bound lane vd va bound)
  · intro c d a b s issues bad
    exact next_isa issues (opVclamp_illegal bad)
  · intro c d a b sel s issues bad
    refine next_isa issues (opV_illegal ?_)
    rcases bad with other | vd | va | vb | used
    · exact .inl other
    · exact .inr (.inl ⟨d, by simp, vd⟩)
    · exact .inr (.inl ⟨a, by simp, va⟩)
    · exact .inr (.inl ⟨b, by simp, vb⟩)
    · exact .inr (.inr ⟨sel, by simp, Fin.val_ne_of_ne used⟩)
  · intro c d a s issues lane vd may ok
    exact next_isa issues (opVld_reads lane vd may ok)
  · intro c d a s issues lane vd may
    exact next_isa issues (opVst_writes lane vd may)
  · intro c d a b sel s issues first last
    exact ⟨next_isa issues (opC_legal first last (by simp)), next_isa issues (opC_legal first last (by simp)),
      next_isa issues (opC_legal first last (by simp)), next_isa issues (opC_legal first last (by simp)),
      next_isa issues (opC_legal first last (by simp)), next_isa issues (opC_legal first last (by simp)),
      next_isa issues (opC_legal first last (by simp))⟩
  · intro c d a sel s issues first last
    exact ⟨next_isa issues (opC_legal first last (by simp)), next_isa issues (opC_legal first last (by simp))⟩
  · intro c d a n sel s issues first last small
    exact next_isa issues (opC_legal first last (by simp [Nat.div_eq_of_lt small]))
  · intro c d a b sel s issues other
    exact next_isa issues (opC_illegal (other.imp_right .inl))
  · intro c d a b sel s issues bad
    exact next_isa issues (opC_illegal (bad.imp_right (.imp_right fun used => ⟨b, by simp, Fin.val_ne_of_ne used⟩)))

end Sys2Proof.Machine

namespace Sys2Proof.Machine

/-! ## Entry of a trap (R300) -/

theorem Quiet.length_cores {s t : State} (h : Quiet s t) : t.cores.length = s.cores.length := by
  simpa using congrArg List.length h.cores

/-- A trap is counted, and then its core takes it. -/
theorem takeTrap_quiet (c : Nat) (t : Trap) (s : State) : ∃ u, Quiet s u ∧ takeTrap c t s = updCpu c (fun k => k.trapped t) u := by
  refine ⟨if t.code = 0x10 then tally c 9 (lvlOcc c s) (tally c 8 (lvlOcc c s) s) else tally c 8 (lvlOcc c s) s, ?_, rfl⟩
  split
  · exact (quiet_tally ..).trans (quiet_tally ..)
  · exact quiet_tally ..

theorem cpu_takeTrap {c : Nat} (t : Trap) {s : State} (core : c < s.cores.length) :
    ∃ u, Quiet s u ∧ (takeTrap c t s).cpu c = (u.cpu c).trapped t := by
  obtain ⟨u, quiet, taken⟩ := takeTrap_quiet c t s
  exact ⟨u, quiet, by rw [taken, cpu_updCpu_self _ (quiet.length_cores.symm ▸ core)]⟩

section
variable {c : Nat} {t : Trap} {s : State}

/-- What core c holds after a trap into S: the trap's record, and the level and ie that it had. -/
theorem cpu_takeTrap_supervisor (core : c < s.cores.length) (code : t.code ≠ 0x11 ∧ t.code ≠ 0x12) (level : (s.cpu c).lvl ≠ 2) :
    ((takeTrap c t s).cpu c).epc = t.epc ∧ ((takeTrap c t s).cpu c).cause = t.cause ∧ ((takeTrap c t s).cpu c).tval = t.tval ∧
    ((takeTrap c t s).cpu c).plvl = (s.cpu c).lvl ∧ ((takeTrap c t s).cpu c).pie = (s.cpu c).ie ∧
    ((takeTrap c t s).cpu c).ie = false ∧ ((takeTrap c t s).cpu c).lvl = 1 ∧
    ((takeTrap c t s).cpu c).pc = (s.cpu c).tvec + BitVec.ofNat 32 t.vec ∧
    ((takeTrap c t s).cpu c).w = (s.cpu c).w ∧ ((takeTrap c t s).cpu c).v = (s.cpu c).v := by
  obtain ⟨u, quiet, taken⟩ := cpu_takeTrap t core
  have into : ¬(t.code = 0x11 ∨ t.code = 0x12 ∨ (u.cpu c).lvl = 2) := by
    rw [quiet.cpu_lvl c]
    rintro (nmi | kcall | keeper)
    exacts [code.1 nmi, code.2 kcall, level keeper]
  rw [taken, Cpu.trapped, if_neg into]
  exact ⟨rfl, rfl, rfl, quiet.cpu_lvl c, quiet.cpu_ie c, rfl, rfl, congrArg (· + _) (quiet.cpu_tvec c), quiet.cpu_w c,
    quiet.cpu_v c⟩

/-- What core c holds after a trap into K. -/
theorem cpu_takeTrap_keeper (core : c < s.cores.length) (into : t.code = 0x11 ∨ t.code = 0x12 ∨ (s.cpu c).lvl = 2) :
    ((takeTrap c t s).cpu c).kepc = t.epc ∧ ((takeTrap c t s).cpu c).kcause = t.cause ∧
    ((takeTrap c t s).cpu c).ktval = t.tval ∧ ((takeTrap c t s).cpu c).kplvl = (s.cpu c).lvl ∧
    ((takeTrap c t s).cpu c).kpie = (s.cpu c).ie ∧ ((takeTrap c t s).cpu c).ie = false ∧ ((takeTrap c t s).cpu c).lvl = 2 ∧
    ((takeTrap c t s).cpu c).pc = (s.cpu c).ktvec + BitVec.ofNat 32 t.vec ∧
    (t.code = 0x11 → ((takeTrap c t s).cpu c).nmiAct = true) ∧ ((takeTrap c t s).cpu c).w = (s.cpu c).w := by
  obtain ⟨u, quiet, taken⟩ := cpu_takeTrap t core
  rw [← quiet.cpu_lvl c] at into
  rw [taken, Cpu.trapped, if_pos into]
  exact ⟨rfl, rfl, rfl, quiet.cpu_lvl c, quiet.cpu_ie c, rfl, rfl, congrArg (· + _) (quiet.cpu_ktvec c),
    fun nmi => by simp [nmi], quiet.cpu_w c⟩

end

/-! ## The commands that take a trap between instructions (R286, R301 to R303) -/

section
variable {c e : Nat} {s : State}

theorem takeEvent_held (held : (s.cpu c).ie = false ∨ 13 ≤ c) : takeEvent c s = s := by
  refine if_pos ?_
  rcases held with off | cellar
  · exact .inr (.inl (by simp [off]))
  · exact .inr (.inr (.inl cellar))

theorem takeEvent_takes (runs : coreRuns c s = true) (ie : (s.cpu c).ie = true) (core : c < 13) (swap : inSwap c s = false)
    (stores : (s.cpu c).serr = none) (nmi : nmiReady c s = none) (event : evtNext c s = some e) :
    takeEvent c s = eventTrap c e s := by
  simp [takeEvent, runs, ie, swap, stores, nmi, event, Nat.not_le.2 core]

theorem takeNmi_takes (runs : coreRuns 12 s = true) (swap : inSwap 12 s = false) (nmi : nmiReady 12 s = some e) :
    takeNmi s = nmiTrap e s := by
  simp [takeNmi, runs, swap, nmi]

theorem takeStoreErr_takes (can : coreIssues c s = true) (nmi : nmiReady c s = none) : takeStoreErr c s = storeTrap c s := by
  simp [takeStoreErr, can, nmi]

theorem storeNext_completes {p : Posted} (stale : Bool) (first : (s.cpu c).posted.find? (fun p => p.code.isSome) = some p) :
    storeNext c stale s = storeDone c p stale (updCpu c (fun k => { k with posted := k.posted.erase p }) s) := by
  simp only [storeNext, first]

theorem opTrap_takes {rd rs1 : Nat} {imm : BitVec 12} (small : imm.toNat < 256) : opTrap c rd rs1 imm s = trap c 8 imm.toNat 0 s :=
  if_neg (Nat.not_le.2 small)

theorem opTrap_illegal {rd rs1 : Nat} {imm : BitVec 12} (large : 256 ≤ imm.toNat) :
    opTrap c rd rs1 imm s = illegal c (wordS 12 rd rs1 imm.toNat) s := if_pos large

end

/-- Settles O30: each command takes its trap where its conditions hold; an entry changes the core as the level that it goes to says. -/
theorem traps : Obligations.Traps := by
  unfold Obligations.Traps
  refine ⟨?_, ?_, ?_, ?_, ?_, ?_, ?_, ?_⟩
  · intro c rd rs1 imm s issues small
    exact ⟨next_isa issues (opTrap_takes small), next_isa issues rfl⟩
  · intro c rd rs1 imm s issues large
    exact next_isa issues (opTrap_illegal large)
  · intro c e s runs ie core swap stores nmi event
    exact congrArg Host.Outcome.next (takeEvent_takes runs ie core swap stores nmi event)
  · intro e s runs swap nmi
    exact congrArg Host.Outcome.next (takeNmi_takes runs swap nmi)
  · intro c p stale s first
    exact congrArg Host.Outcome.next (storeNext_completes stale first)
  · intro c s can nmi
    exact congrArg Host.Outcome.next (takeStoreErr_takes can nmi)
  · intro c t s core sizes code level
    exact cpu_takeTrap_supervisor (sizes.symm ▸ core) code level
  · intro c t s core sizes into
    exact cpu_takeTrap_keeper (sizes.symm ▸ core) into

/-! ## Pending events (R324) -/

/-- The least element of a rising list that meets a test is the one that is found first. -/
theorem find?_least {l : List Nat} (rising : l.Pairwise (· < ·)) {p : Nat → Bool} {e : Nat} (found : l.find? p = some e) :
    e ∈ l ∧ p e = true ∧ ∀ k ∈ l, p k = true → e ≤ k := by
  obtain ⟨meets, before, after, rfl, fails⟩ := List.find?_eq_some_iff_append.1 found
  refine ⟨by simp, meets, fun k hk test => ?_⟩
  rcases List.mem_append.1 hk with hk | hk
  · simpa [test] using fails k hk
  · rcases List.mem_cons.1 hk with rfl | hk
    · exact le_refl k
    · exact ((List.pairwise_cons.1 (List.pairwise_append.1 rising).2.1).1 k hk).le

/-- The first result along a rising list is that of the least element which has one. -/
theorem findSome?_least {α : Type} {l : List Nat} (rising : l.Pairwise (· < ·)) {f : Nat → Option α} {b : α}
    (found : l.findSome? f = some b) : ∃ a ∈ l, f a = some b ∧ ∀ k ∈ l, (f k).isSome → a ≤ k := by
  obtain ⟨before, a, after, rfl, result, fails⟩ := List.findSome?_eq_some_iff.1 found
  refine ⟨a, by simp, result, fun k hk has => ?_⟩
  rcases List.mem_append.1 hk with hk | hk
  · simp [fails k hk] at has
  · rcases List.mem_cons.1 hk with rfl | hk
    · exact le_refl k
    · exact ((List.pairwise_cons.1 (List.pairwise_append.1 rising).2.1).1 k hk).le

/-- A bit of a word is its field of one bit. -/
theorem bit_iff_fieldOf (w : Word) (i : Nat) : bit w i = true ↔ fieldOf w i 1 = 1 := by
  simp only [bit, BitVec.getLsbD, Nat.testBit_eq_decide_div_mod_eq, decide_eq_true_eq, fieldOf, pow_one]

theorem isPend_iff {e : Nat} (event : e < 512) (s : State) : isPend e s = true ↔ Pending e s := by
  rw [isPend, bit_iff_fieldOf, Pending, State.get, pendBit, Nat.mod_eq_of_lt event]

theorem mem_pendList {e : Nat} {s : State} : e ∈ pendList s ↔ e < 512 ∧ isPend e s = true := by
  simp only [pendList, List.mem_flatMap, List.mem_range]
  constructor
  · rintro ⟨j, word, listed⟩
    split at listed
    · simp at listed
    · simp only [List.mem_map, List.mem_filter, List.mem_range] at listed
      obtain ⟨i, ⟨inside, pends⟩, rfl⟩ := listed
      refine ⟨by omega, ?_⟩
      rwa [isPend, show (32 * j + i) / 32 = j by omega, show (32 * j + i) % 32 = i by omega]
  · rintro ⟨event, pends⟩
    refine ⟨e / 32, by omega, ?_⟩
    have listed : s.rd (EVR_PEND (e / 32)) ≠ 0 := fun zero => by simp [isPend, zero, bit] at pends
    rw [if_neg listed]
    simp only [List.mem_map, List.mem_filter, List.mem_range]
    exact ⟨e % 32, ⟨by omega, pends⟩, by omega⟩

theorem pendList_rising (s : State) : (pendList s).Pairwise (· < ·) := by
  have inWord : ∀ (j e : Nat), e ∈ (if s.rd (EVR_PEND j) = 0 then [] else
      ((List.range 32).filter fun i => bit (s.rd (EVR_PEND j)) i).map fun i => 32 * j + i) → e / 32 = j := by
    intro j e listed
    split at listed
    · simp at listed
    · simp only [List.mem_map, List.mem_filter, List.mem_range] at listed
      omega
  refine List.pairwise_flatMap.2 ⟨fun j _ => ?_, ?_⟩
  · split
    · exact .nil
    · exact ((List.pairwise_lt_range (n := 32)).filter _).map _ fun i k less => by omega
  · refine (List.pairwise_lt_range (n := 16)).imp fun {i j} less e he k hk => ?_
    have := inWord i e he
    have := inWord j k hk
    omega

/-! ## The event that a core takes (R325) -/

/-- Event e may be taken by core c: it is maskable, pending, routed there and enabled. -/
def Takeable (c e : Nat) (s : State) : Prop :=
  8 ≤ e ∧ e < 512 ∧ Pending e s ∧ s.get (EVR_ROUTE_core e) = c ∧ s.get (EVR_ROUTE_en e) = 1

theorem mem_takeable {c e : Nat} {s : State} :
    e ∈ ((pendList s).filter fun e => decide (8 ≤ e) && routed e c s && s.on (EVR_ROUTE_en e)) ↔ Takeable c e s := by
  simp only [List.mem_filter, mem_pendList, Bool.and_eq_true, decide_eq_true_eq, State.on, Takeable]
  constructor
  · rintro ⟨⟨event, pends⟩, ⟨maskable, route⟩, enabled⟩
    rw [routed, if_neg (Nat.not_lt.2 maskable), decide_eq_true_eq] at route
    exact ⟨maskable, event, (isPend_iff event s).1 pends, route, enabled⟩
  · rintro ⟨maskable, event, pends, route, enabled⟩
    exact ⟨⟨event, (isPend_iff event s).2 pends⟩, ⟨maskable, by simp [routed, Nat.not_lt.2 maskable, route]⟩, enabled⟩

theorem prio_lt (e : Nat) (s : State) : s.get (EVR_ROUTE_prio e) < 4 := s.get_lt (EVR_ROUTE_prio e)

/-- The chosen event may be taken, and none that may has a lower prio, or the same and a lower number. -/
theorem evtNext_some {c e : Nat} {s : State} (chosen : evtNext c s = some e) :
    Takeable c e s ∧ ∀ k, Takeable c k s → s.get (EVR_ROUTE_prio e) < s.get (EVR_ROUTE_prio k) ∨
      (s.get (EVR_ROUTE_prio e) = s.get (EVR_ROUTE_prio k) ∧ e ≤ k) := by
  obtain ⟨p, -, found, lowest⟩ := findSome?_least List.pairwise_lt_range chosen
  obtain ⟨listed, prio, least⟩ := find?_least ((pendList_rising s).filter _) found
  have prio : s.get (EVR_ROUTE_prio e) = p := of_decide_eq_true prio
  refine ⟨mem_takeable.1 listed, fun k taken => ?_⟩
  have listed := mem_takeable.2 taken
  have le := lowest (s.get (EVR_ROUTE_prio k)) (List.mem_range.2 (prio_lt k s))
    (List.find?_isSome.2 ⟨k, listed, decide_eq_true rfl⟩)
  rcases Nat.lt_or_eq_of_le le with less | same
  · exact .inl (prio.trans_lt less)
  · exact .inr ⟨prio.trans same, least k listed (decide_eq_true same.symm)⟩

/-- Where none is chosen, none may be taken. -/
theorem evtNext_none {c : Nat} {s : State} (none : evtNext c s = none) (k : Nat) : ¬Takeable c k s := by
  intro taken
  have fails := List.findSome?_eq_none_iff.1 none (s.get (EVR_ROUTE_prio k)) (List.mem_range.2 (prio_lt k s))
  have other := List.find?_eq_none.1 fails k (mem_takeable.2 taken)
  simp at other

/-! ## The entry of an event's trap (R302) -/

theorem not_pending_clearPend {e : Nat} (event : e < 512) (s : State) : ¬Pending e (clearPend e s) := by
  have bit : (⟨EVR_PEND (e / 32), e % 32, 1⟩ : Fd) = pendBit e := by rw [pendBit, Nat.mod_eq_of_lt event]
  rw [Pending, clearPend, bit, get_set _ _ _ (by simp only [pendBit]; omega)]
  simp [pendBit]

theorem quiet_retireWait (c : Nat) (s : State) : Quiet s (retireWait c s) := by
  unfold retireWait
  split
  · exact quiet_tally ..
  · exact Quiet.refl s

theorem Quiet.asyncEpc {s t : State} (h : Quiet s t) (c : Nat) : asyncEpc c t = asyncEpc c s := by
  simp only [Machine.asyncEpc, h.cpu_wait c, h.cpu_pc c]

/-- On a core other than SC an event's trap is the entry, after the WAIT that it ends has retired. -/
theorem eventTrap_entry {c : Nat} (other : c ≠ 12) (e : Nat) (s : State) :
    eventTrap c e s = takeTrap c { code := 0x10, ev := e, async := true, vec := 0x100, epc := asyncEpc c s }
      (clearPend e (retireWait c s)) := by
  have stays : stopEvent c s = s := if_neg fun h => other h.1
  simp only [eventTrap, stays, (quiet_retireWait c s).asyncEpc c]

theorem event_cause {e : Nat} (event : e < 512) (w : Word) :
    fieldOf (Trap.cause { code := 0x10, ev := e, async := true, vec := 0x100, epc := w }) 16 9 = e := by
  simp only [fieldOf, Trap.cause, BitVec.toNat_ofNat, Bool.toNat_false, Bool.toNat_true]
  omega

/-- Settles O54: the choice goes through the prios from 0 on and, within one, through the rising list of the pending events. -/
theorem eventTraps : Obligations.EventTraps := by
  unfold Obligations.EventTraps
  refine ⟨?_, ?_, ?_, ?_⟩
  · intro c s held
    exact congrArg Host.Outcome.next (takeEvent_held (held.imp_right fun cellar => by subst cellar; decide))
  · intro c e s chosen
    obtain ⟨⟨maskable, event, pends, route, enabled⟩, first⟩ := evtNext_some chosen
    refine ⟨maskable, event, pends, route, enabled, ?_⟩
    rintro k event ⟨maskable, pends, route, enabled⟩
    exact first k ⟨maskable, event, pends, route, enabled⟩
  · rintro c s none k event ⟨maskable, pends, route⟩
    have off : s.get (EVR_ROUTE_en k) ≠ 1 := fun enabled => evtNext_none none k ⟨maskable, event, pends, route, enabled⟩
    have bit : s.get (EVR_ROUTE_en k) < 2 := s.get_lt (EVR_ROUTE_en k)
    omega
  · rintro c e s ⟨-, event⟩ other level core
    have quiet := quiet_retireWait c.val s
    have core : c.val < (clearPend e (retireWait c s)).cores.length := quiet.length_cores.symm ▸ core
    have level : ((clearPend e (retireWait c s)).cpu c).lvl ≠ 2 := (quiet.cpu_lvl c).trans_ne level
    rw [eventTrap_entry other]
    obtain ⟨epc, cause, -, plvl, pie, ie, lvl, pc, -, -⟩ := cpu_takeTrap_supervisor
      (t := { code := 0x10, ev := e, async := true, vec := 0x100, epc := asyncEpc c s }) core (by simp) level
    exact ⟨not_pending_clearPend event s, (congrArg (fieldOf · 16 9) cause).trans (event_cause event _),
      pc.trans (congrArg (· + _) (quiet.cpu_tvec c)), ie, pie.trans (quiet.cpu_ie c), plvl.trans (quiet.cpu_lvl c), lvl, epc⟩

end Sys2Proof.Machine

namespace Sys2Proof.Machine

/-! # Software events, the watchdog and the counters -/

/-! ## Software events and the watchdog (R327, R329, R330) -/

section
variable {w : Word} {s : State}

theorem wrEvrRaise_raises (software : 8 ≤ wf w EVR_RAISE_event) : wrEvrRaise w s = (s.raise (wf w EVR_RAISE_event)).ret .done :=
  if_neg (Nat.not_lt.2 software)

theorem wrEvrRaise_range (system : wf w EVR_RAISE_event < 8) : wrEvrRaise w s = s.ret .range := if_pos system

theorem wrKick_starts (en : s.get EVR_WDOG_CTRL_en = 1) :
    wrKick 0xA5C3 s = (wdStart (8 * s.get EVR_WDOG_CTRL_period) 0 s).ret .done := by
  simp only [wrKick, State.on, en, decide_true, if_true]

theorem wrKick_bad (other : w ≠ 0xA5C3) : wrKick w s = (s.addSat EVR_WDOG_STAT_bad_kicks 1).ret .range := if_neg other

end

/-- The watchdog's control is none of the registers that an access changes. -/
theorem not_router_wdogCtrl : ¬Router EVR_WDOG_CTRL := by simp only [Router, EVR_WDOG_CTRL]; omega

/-- The first interval ends: the event leaves the period of the second one as it is. -/
theorem wdExpire_first {s : State} (runs : wdRuns s = true) (first : s.get EVR_WDOG_STAT_second = 0) :
    wdExpire s = wdStart (max 8 ((s.raise 7).get EVR_WDOG_CTRL_period)) 1 (s.raise 7) := by
  rw [wdExpire, if_pos ⟨runs, by simp [State.on, first]⟩, get_raise s 7 (f := EVR_WDOG_CTRL_period) not_router_wdogCtrl]

/-- What the key finds in the state that has accepted its write. -/
theorem wrKick_request {q : Rq} {s : State} (en : s.get EVR_WDOG_CTRL_en = 1) :
    wrKick 0xA5C3 (request q EVR_WDOG_KICK s) =
      (wdStart (8 * s.get EVR_WDOG_CTRL_period) 0 (request q EVR_WDOG_KICK s)).ret .done := by
  have period := get_request q EVR_WDOG_KICK s (f := EVR_WDOG_CTRL_period) not_router_wdogCtrl
  rw [wrKick_starts ((get_request q EVR_WDOG_KICK s (f := EVR_WDOG_CTRL_en) not_router_wdogCtrl).trans en), period]

/-! ## Counters (R294, R333, R334) -/

/-- Counter j of core c wraps to 0 with its occurrence, and the events that this raises follow. -/
theorem cntOverflow_wraps {c j : Nat} {s : State}
    (counts : 1 ≤ fieldOf (nth (s.cpu c).cntSel j) 0 6 ∧ fieldOf (nth (s.cpu c).cntSel j) 0 6 ≤ 13)
    (full : nth (s.cpu c).cnt j = 2 ^ 48 - 1) :
    cntOverflow c j s =
      (cntWrap c j {} (updCpu c (fun k => { k with cnt := upd k.cnt j fun _ => 0 }) s)).2.foldl (fun s e => s.raise e)
        (cntWrap c j {} (updCpu c (fun k => { k with cnt := upd k.cnt j fun _ => 0 }) s)).1 :=
  if_pos ⟨counts.1, counts.2, decide_eq_true full⟩

/-- A change of the counters leaves their selections. -/
theorem cntSel_updCnt (c j : Nat) (s : State) :
    ((updCpu c (fun k => { k with cnt := upd k.cnt j fun _ => 0 }) s).cpu c).cntSel = (s.cpu c).cntSel := by
  rw [cpu_updCpu]
  split <;> rfl

section
variable {c j : Nat} {o : Occ} {s : State}

theorem cntWrap_silent (ie : bit (nth (s.cpu c).cntSel j) 28 = false) :
    cntWrap c j o s = (updCpu c (fun k => { k with cntSel := upd k.cntSel j fun w => w ||| 0x20000000 }) s, []) :=
  if_neg (ie.trans_ne Bool.false_ne_true)

theorem cntWrap_raises (ie : bit (nth (s.cpu c).cntSel j) 28 = true) : (cntWrap c j o s).2 = [8 + c] :=
  congrArg Prod.snd (if_pos ie)

theorem cntOverflow_silent
    (counts : 1 ≤ fieldOf (nth (s.cpu c).cntSel j) 0 6 ∧ fieldOf (nth (s.cpu c).cntSel j) 0 6 ≤ 13)
    (full : nth (s.cpu c).cnt j = 2 ^ 48 - 1) (ie : bit (nth (s.cpu c).cntSel j) 28 = false) :
    cntOverflow c j s = updCpu c (fun k => { k with cntSel := upd k.cntSel j fun w => w ||| 0x20000000 })
      (updCpu c (fun k => { k with cnt := upd k.cnt j fun _ => 0 }) s) := by
  rw [← cntSel_updCnt c j s] at ie
  rw [cntOverflow_wraps counts full, cntWrap_silent ie, List.foldl_nil]

theorem cntOverflow_raises
    (counts : 1 ≤ fieldOf (nth (s.cpu c).cntSel j) 0 6 ∧ fieldOf (nth (s.cpu c).cntSel j) 0 6 ≤ 13)
    (full : nth (s.cpu c).cnt j = 2 ^ 48 - 1) (ie : bit (nth (s.cpu c).cntSel j) 28 = true) :
    cntOverflow c j s =
      (cntWrap c j {} (updCpu c (fun k => { k with cnt := upd k.cnt j fun _ => 0 }) s)).1.raise (8 + c) := by
  rw [← cntSel_updCnt c j s] at ie
  rw [cntOverflow_wraps counts full, cntWrap_raises ie, List.foldl_cons, List.foldl_nil]

/-- A system counter whose interrupt is enabled wraps. -/
theorem pmcOverflow_raises (counts : 1 ≤ s.get (PMC_SEL_evt j) ∧ s.get (PMC_SEL_evt j) ≤ 10) (full : nth s.pmc j = 2 ^ 48 - 1)
    (ie : s.get (PMC_SEL_ovf_ie j) = 1) :
    pmcOverflow j s = (updPmc j (fun _ => 0) (s.set (PMC_SEL_ovf j) 1)).raise 21 := by
  have enabled : (updPmc j (fun _ => 0) (s.set (PMC_SEL_ovf j) 1)).on (PMC_SEL_ovf_ie j) = true :=
    decide_eq_true ((get_set_bits s 1 (by simp [PMC_SEL_ovf, PMC_SEL_ovf_ie]) (by simp [PMC_SEL_ovf_ie])).trans ie)
  exact (if_pos ⟨counts.1, counts.2, full⟩).trans (if_pos enabled)

end

/-- Settles O39: a write is judged in the state that has accepted it, in which the watchdog's control is as before; a counter that wraps
keeps its selection but for ovf. -/
theorem eventsAndCounters : Obligations.EventsAndCounters := by
  unfold Obligations.EventsAndCounters
  refine ⟨?_, ?_, ?_, ?_, ?_, ?_, ?_, ?_, ?_⟩
  · intro q w s sent software
    exact congrArg Host.Outcome.next (gated_uncounted sent (wrEvrRaise_raises software) (.inl rfl))
  · intro q w s sent system
    exact congrArg Host.Outcome.next (gated_uncounted sent (wrEvrRaise_range system) (.inr (.inr (.inr rfl))))
  · intro q s sent en
    exact congrArg Host.Outcome.next (gated_uncounted sent (wrKick_request en) (.inl rfl))
  · intro q w s sent other
    exact congrArg Host.Outcome.next (gated_uncounted sent (wrKick_bad other) (.inr (.inr (.inr rfl))))
  · intro s runs first
    exact congrArg Host.Outcome.next (wdExpire_first runs first)
  · intro c j s counts full ie
    exact congrArg Host.Outcome.next (cntOverflow_silent counts full ie)
  · intro c j s counts full ie _
    exact congrArg Host.Outcome.next (cntOverflow_raises counts full ie)
  · intro j s counts full ie
    exact congrArg Host.Outcome.next (pmcOverflow_raises counts full ie)
  · intro q j s reads
    exact congrArg Host.Outcome.next (gatedRead_go reads)

end Sys2Proof.Machine

namespace Sys2Proof.Machine

/-! # Where a non-maskable event, a counter or another core's store comes between -/

/-- Any other trap of an instruction gives way to a non-maskable event (R301). -/
theorem rankTrap_of_nmi {c e : Nat} {s : State} (t : Trap) (nmi : nmiReady c s = some e) : rankTrap c t s = nmiTrap e s := by
  simp only [rankTrap, nmi]

/-- SC runs at level K at its shelf's start, after its release, and has written KTVEC. -/
def scInCharge : State :=
  updCpu 12 (fun k => { k with pc := 0x7F000000, nmiHold := false })
    (updRst (fun r => { r with released := true, wide := false }) (State.reset.set (OWN_CORE_STAT_state 12) 1))

theorem keeps_scInCharge : Keeps State.reset scInCharge := (Keeps.refl _).set.updRst.updCpu fun _ ok => ok

/-! ## KCALL while a non-maskable event is pending (R289, R301) -/

/-- A non-maskable event is pending. -/
def scCalled : State := scInCharge.raise 6

theorem inv_scCalled : Inv scCalled := keeps_scInCharge.raise.1 resetMeetsInv

theorem issues_scCalled : Issues 12 scCalled := by decide +kernel

theorem above_scCalled : Above 12 scCalled := by decide +kernel

theorem nmiReady_scCalled : nmiReady 12 (fetched 12 scCalled) = some 6 := by decide +kernel

/-- Above level U KCALL is ranked like every trap of an instruction. -/
theorem opKcall_of_nmi {e sel : Nat} {s : State} (above : (s.cpu 12).lvl ≠ 0) (nmi : nmiReady 12 s = some e) :
    opKcall 12 0 0 0 sel s = nmiTrap e s := by
  rw [opKcall, if_neg (by decide), if_neg above, rankTrap_of_nmi _ nmi]

/-- A state that meets the invariant, in which KCALL does not enter its own trap: KCAUSE tells. -/
theorem kcall_gives_way :
    ∃ s t, Inv s ∧ Issues 12 s ∧ Above 12 s ∧ exec (.kcall 12 0 0 0 0) s = .next t ∧
      (t.cpu 12).kcause ≠ ((takeTrap 12 { code := 0x12, vec := 0x300, epc := ((fetched 12 s).cpu 12).pc } (fetched 12 s)).cpu 12).kcause :=
  ⟨scCalled, nmiTrap 6 (fetched 12 scCalled), inv_scCalled, issues_scCalled, above_scCalled,
    next_isa issues_scCalled (opKcall_of_nmi above_scCalled nmiReady_scCalled), by decide +kernel⟩

/-- Refutes O28: with a non-maskable event pending SC takes that event's trap at KCALL, which stays to be executed (R301); the clause of
KCALL asks for no such state. -/
theorem not_csrAndKeeper : ¬ Obligations.CsrAndKeeper := by
  unfold Obligations.CsrAndKeeper
  rintro ⟨-, -, -, -, kcall, -⟩
  obtain ⟨s, t, -, issues, above, step, other⟩ := kcall_gives_way
  have entered := Host.Outcome.next.inj (step.symm.trans (kcall 0 s issues above))
  exact other (congrArg (fun t : State => (t.cpu 12).kcause) entered)

/-! ## A computing instruction that traps in a stop entry (R301, R410) -/

/-- SC's WAIT at level K has asked for a stop; then HATCH_CORE has halted SC, moved its pc on, stepped it and let it run again, which
leaves the entry in its first step. -/
def stopAsked : State :=
  hatchResume 12 (hatchStep 12 0 (hatchReg 12 .pc (some [0x7F000100])
    (hatchHalt 12 (stopWait 1024 ((scInCharge.set PWR_MODE_mode 1).wr PWR_ALARM 1)))))

/-- A non-maskable event comes. -/
def stopCalled : State := stopAsked.raise 6

theorem inv_stopCalled : Inv stopCalled :=
  (keeps_scInCharge.set.wr.stopWait.hatchHalt.hatchReg.hatchStep.hatchResume).raise.1 resetMeetsInv

theorem issues_stopCalled : Issues (12 : Fin 14) stopCalled := by decide +kernel

theorem nmiReady_stopCalled : nmiReady (12 : Fin 14) (fetched (12 : Fin 14) stopCalled) = some 6 := by decide +kernel

theorem not_router_pwrStat : ¬Router PWR_STAT := by simp only [Router, PWR_STAT]; omega

/-- The event abandons the entry, whose outcome PWR_STAT then shows. -/
theorem pwrStat_nmiTrap_stopCalled :
    (nmiTrap 6 (fetched (12 : Fin 14) stopCalled)).rd PWR_STAT ≠ (fetched (12 : Fin 14) stopCalled).rd PWR_STAT := by
  decide +kernel

/-- A vector instruction on a core without the extension is illegal, which gives way to a non-maskable event (R277, R301). -/
theorem opV_of_nmi {c xd xa xb sel fn e : Nat} {vs un : List Nat} {f : State → State} {s : State} (other : 8 ≤ c)
    (nmi : nmiReady c s = some e) : opV c xd xa xb sel fn vs un f s = nmiTrap e s :=
  (opV_illegal (.inl other)).trans (rankTrap_of_nmi _ nmi)

/-- A state that meets the invariant, in which a computing instruction changes a register that is not the event router's. -/
theorem vadd_abandons_stop :
    ∃ s t, Inv s ∧ Issues (12 : Fin 14) s ∧ exec (.vadd 12 0 0 0 0) s = .next t ∧ ¬Router PWR_STAT ∧
      t.rd PWR_STAT ≠ (fetched (12 : Fin 14) s).rd PWR_STAT :=
  ⟨stopCalled, nmiTrap 6 (fetched (12 : Fin 14) stopCalled), inv_stopCalled, issues_stopCalled,
    next_isa issues_stopCalled (opV_of_nmi (by decide) nmiReady_stopCalled), not_router_pwrStat, pwrStat_nmiTrap_stopCalled⟩

/-- Refutes O56: VADD on SC traps as ILLEGAL, which gives way to a non-maskable event; where a stop entry is in its first step, that
event abandons the entry and so writes PWR_STAT (R410). The statement asks nothing of the entry. -/
theorem not_computeFrame : ¬ Obligations.ComputeFrame := by
  unfold Obligations.ComputeFrame
  intro frame
  obtain ⟨s, t, -, issues, step, outside, changed⟩ := vadd_abandons_stop
  obtain ⟨-, kept⟩ := frame _ _ s t rfl issues step
  exact changed (kept PWR_STAT outside)

/-! ## XCHG under a counter of loads (R285, R331) -/

/-- Core 0 runs at its shelf's start with w4 at the SRAM's, and its counter 0 counts loads at every level. -/
def loadsCounted : State :=
  updCpu 0 (fun k => { k with pc := 0x7F000000, cntSel := upd k.cntSel 0 fun _ => 0x703 })
    (setW 0 4 0x10000000 (State.reset.set (OWN_CORE_STAT_state 0) 1))

theorem inv_loadsCounted : Inv loadsCounted :=
  ((Keeps.refl State.reset).set.setW.updCpu fun k ok => by simpa [CpuOk] using ok).1 resetMeetsInv

theorem issues_loadsCounted : Issues (0 : Fin 14) loadsCounted := by decide +kernel

/-- What O26 says of XCHG by core c with w3 at w4 + 4, where its write is posted. -/
abbrev xchgUncounted (c : Fin 14) (s : State) : State :=
  goOn c (setW c (3 : Fin 32) (BitVec.ofNat 32 (leVal (loadRead c 4 (eaOf c (4 : Fin 32) 4 s) (fetched c s)).2.2))
    (xchgPosted c (3 : Fin 32) (eaOf c (4 : Fin 32) 4 s) (fetched c s)))

/-- A state that meets the invariant, in which XCHG reads its word and posts its write, and the counter of loads has counted one. -/
theorem xchg_counts :
    ∃ s t, Inv s ∧ Issues (0 : Fin 14) s ∧ MayAccess (0 : Fin 14) 4 (eaOf (0 : Fin 14) (4 : Fin 32) 4 s) (fetched (0 : Fin 14) s) ∧
      xchgReach (0 : Fin 14) (eaOf (0 : Fin 14) (4 : Fin 32) 4 s).toNat = true ∧
      (loadRead (0 : Fin 14) 4 (eaOf (0 : Fin 14) (4 : Fin 32) 4 s) (fetched (0 : Fin 14) s)).2.1 = .done ∧
      (xchgWrite (0 : Fin 14) (3 : Fin 32) (eaOf (0 : Fin 14) (4 : Fin 32) 4 s) (fetched (0 : Fin 14) s)).2 = none ∧
      exec (.xchg 0 3 4 false 4) s = .next t ∧ (t.cpu 0).cnt ≠ ((xchgUncounted 0 s).cpu 0).cnt :=
  ⟨loadsCounted, opXchg (0 : Fin 14) (3 : Fin 32) (4 : Fin 32) false 4 (fetched (0 : Fin 14) loadsCounted), inv_loadsCounted,
    issues_loadsCounted, by decide +kernel, by decide +kernel, by decide +kernel, by decide +kernel, next_isa issues_loadsCounted rfl,
    by decide +kernel⟩

/-- Refutes O26: XCHG counts as a load and as a store (log 173), which its two clauses leave out; where a counter of the core counts
loads, it has counted one. -/
theorem not_loadsAndStores : ¬ Obligations.LoadsAndStores := by
  unfold Obligations.LoadsAndStores
  rintro ⟨-, -, -, -, -, -, -, -, -, -, -, -, -, xchg, -⟩
  obtain ⟨s, t, -, issues, may, reach, read, write, step, counted⟩ := xchg_counts
  have uncounted := Host.Outcome.next.inj (step.symm.trans (xchg 0 3 4 4 s issues may reach read write))
  exact counted (congrArg (fun t : State => (t.cpu 0).cnt) uncounted)

/-! ## QPOINT while another core's store waits in the memory (R319, R321, R340) -/

/-- Core 0 runs with an armed swap, and a byte that core 1 has stored in core 0's data memory is in the merge buffer. -/
def swapArmed : State :=
  (memWrite 2 (.core 1 .s) 0x200A0000 [5]
    (updCpu 0 (fun k => { k with pc := 0x7F000000 })
      ((State.reset.set (OWN_CORE_STAT_state 0) 1).set (OWN_CORE_STAT_armed 0) 1))).1

theorem inv_swapArmed : Inv swapArmed := by
  have core := (Keeps.refl State.reset).set (f := OWN_CORE_STAT_state 0) (v := 1) |>.set (f := OWN_CORE_STAT_armed 0) (v := 1)
    |>.updCpu (c := 0) (f := fun k => { k with pc := 0x7F000000 }) fun _ ok => ok
  exact (core.memWrite (u := 2) (a := 0x200A0000) fun _ => rfl).1 resetMeetsInv

theorem issues_swapArmed : Issues (0 : Fin 14) swapArmed := by decide +kernel

theorem above_swapArmed : Above (0 : Fin 14) swapArmed := by decide +kernel

theorem storesDone_swapArmed : StoresDone (0 : Fin 14) swapArmed := by decide +kernel

/-- With an armed swap QPOINT drains the port before it fences it (R321). -/
theorem opQpoint_armed {c rd : Nat} {s : State} (above : (s.cpu c).lvl ≠ 0) (none : ((settle c s).cpu c).serr = none)
    (empty : ((settle c s).cpu c).posted = []) (core : c < 13) (armed : (settle c s).get (OWN_CORE_STAT_armed c) = 1) :
    opQpoint c rd 0 0 s =
      updCpu c (fun k => { k with wait := .swap rd }) ((portDrain c (settle c s)).set (OWN_CORE_STAT_fenced c) 1) := by
  rw [opQpoint, opSys, if_neg (by decide), if_neg above, afterStores_done none empty, if_pos ⟨core, decide_eq_true armed⟩]

/-- What a core waits for and a field of a register are nothing to the merge buffers. -/
theorem mergeOf_updCpu_set (u c v : Nat) (f : Cpu → Cpu) (fd : Fd) (s : State) :
    mergeOf u (updCpu c f (s.set fd v)) = mergeOf u s := rfl

theorem armed_swapArmed : (ready (0 : Fin 14) swapArmed).get (OWN_CORE_STAT_armed (0 : Fin 14)) = 1 := by decide +kernel

/-- The port's drain takes core 1's byte out of the merge buffer, which core 0's wait for its own stores leaves there. -/
theorem mergeOf_portDrain_swapArmed :
    mergeOf 2 (portDrain (0 : Fin 14) (ready (0 : Fin 14) swapArmed)) ≠ mergeOf 2 (ready (0 : Fin 14) swapArmed) := by
  decide +kernel

/-- A state that meets the invariant, in which QPOINT takes another core's store out of the merge buffer. -/
theorem qpoint_drains :
    ∃ s t, Inv s ∧ Issues (0 : Fin 14) s ∧ Above (0 : Fin 14) s ∧ StoresDone (0 : Fin 14) s ∧
      (ready (0 : Fin 14) s).get (OWN_CORE_STAT_armed (0 : Fin 14)) = 1 ∧ exec (.qpoint 0 1 0 0) s = .next t ∧
      mergeOf 2 t ≠ mergeOf 2 (ready (0 : Fin 14) s) := by
  obtain ⟨none, empty⟩ := storesDone_swapArmed
  refine ⟨swapArmed, _, inv_swapArmed, issues_swapArmed, above_swapArmed, ⟨none, empty⟩, armed_swapArmed,
    next_isa issues_swapArmed (opQpoint_armed above_swapArmed none empty (by decide) armed_swapArmed), ?_⟩
  rw [mergeOf_updCpu_set]
  exact mergeOf_portDrain_swapArmed

/-- Refutes O29: at QPOINT with an armed swap the stores of other masters that the core's port has accepted retire too (R321), which
its clause leaves out. -/
theorem not_waitsAndFences : ¬ Obligations.WaitsAndFences := by
  unfold Obligations.WaitsAndFences
  rintro ⟨-, -, -, -, -, -, -, -, -, qpoint, -⟩
  obtain ⟨s, t, -, issues, above, stores, armed, step, drained⟩ := qpoint_drains
  have kept := qpoint 0 1 s issues above stores
  rw [if_pos ⟨by decide, armed⟩] at kept
  have merged := congrArg (mergeOf 2) (Host.Outcome.next.inj (step.symm.trans kept))
  exact drained (merged.trans (mergeOf_updCpu_set ..))

end Sys2Proof.Machine

namespace Sys2Proof.Machine

/-! # The bytes that an instruction changes (R311, R339 to R342) -/

/-! ## What leaves memory alone -/

/-- Memory, its marks and its buffers are in t as in s. -/
def Calm (s t : State) : Prop := t.mem = s.mem ∧ t.ecc = s.ecc ∧ t.merge = s.merge

theorem Calm.refl (s : State) : Calm s s := ⟨rfl, rfl, rfl⟩

theorem Calm.trans {s t u : State} (first : Calm s t) (next : Calm t u) : Calm s u := by
  obtain ⟨mem, ecc, merge⟩ := first
  obtain ⟨mem', ecc', merge'⟩ := next
  exact ⟨mem'.trans mem, ecc'.trans ecc, merge'.trans merge⟩

theorem Quiet.calm {s t : State} (quiet : Quiet s t) : Calm s t := ⟨quiet.mem, quiet.ecc, quiet.merge⟩

section
variable (s : State)

theorem calm_wr (a : Nat) (w : Word) : Calm s (s.wr a w) := ⟨rfl, rfl, rfl⟩

theorem calm_updCpu (c : Nat) (f : Cpu → Cpu) : Calm s (updCpu c f s) := ⟨rfl, rfl, rfl⟩

theorem calm_tally (c evt : Nat) (o : Occ) : Calm s (tally c evt o s) := (quiet_tally ..).calm

theorem calm_setW (c r : Nat) (v : Word) : Calm s (setW c r v s) := by
  unfold setW
  split
  exacts [Calm.refl s, calm_updCpu ..]

theorem calm_goOn (c : Nat) : Calm s (goOn c s) := (calm_updCpu ..).trans (calm_tally ..)

theorem calm_vecOn (c : Nat) : Calm s (vecOn c s) := (calm_tally ..).trans (calm_goOn ..)

theorem calm_flagLimited (f : Fd) (e gap : Nat) : Calm s (s.flagLimited f e gap) := by
  unfold State.flagLimited
  extract_lets u
  have flagged : Calm s u := ⟨rfl, rfl, rfl⟩
  clear_value u
  split
  exacts [flagged.trans (quiet_raise u e).calm, flagged]

theorem calm_request (q : Rq) (a : Nat) : Calm s (request q a s) := (quiet_request ..).calm

theorem calm_completed (q : Rq) (a : Nat) (write : Bool) (o : Code) : Calm s (completed q a write o s) :=
  (Quiet.completed (Quiet.refl s)).calm

theorem calm_timedOut (q : Rq) (a : Nat) (write : Bool) : Calm s (timedOut q a write s) :=
  (calm_request { s with stuck := s.stuck.erase (q, a) } q a).trans (calm_completed ..)

theorem calm_pmcCount (evt n : Nat) (m : Option Nat) (o : Occ) : Calm s (pmcCount evt n m o s) :=
  (Quiet.pmcCount (Quiet.refl s)).calm

/-! ## Stored errors and completed stores -/

theorem calm_eccCorrected (u : Nat) (q : Rq) (a : Nat) : Calm s (eccCorrected u q a s) :=
  (calm_flagLimited ((s.addSat MEM_CORR_count 1).set MEM_CORR_unit u) MEM_EVT_ecc_corr 24 msTicks).trans (calm_pmcCount ..)

theorem calm_eccRecord (u slot a : Nat) : Calm s (eccRecord u slot a s) := by
  unfold eccRecord
  split
  exacts [⟨rfl, rfl, rfl⟩, (calm_wr ..).trans (calm_wr ..)]

theorem calm_eccMet (u : Nat) (q : Rq) (a : Nat) : Calm s (eccMet u q a s) := by
  unfold eccMet
  extract_lets v
  have recorded : Calm s v := calm_eccRecord ..
  clear_value v
  cases q with
  | core c l =>
    dsimp only
    split
    exacts [recorded.trans (quiet_raise v 5).calm, recorded]
  | host | fabric _ | partner | hatch => exact recorded.trans (calm_flagLimited ..)
  | dma _ | loader | larder | engine => exact recorded

theorem calm_mergeDone (who : List (Nat × Nat)) (o : Code) (stale : Bool) : Calm s (mergeDone who o stale s) := by
  induction who generalizing s with
  | nil => exact Calm.refl s
  | cons w rest ih => exact (calm_updCpu ..).trans (ih _)

/-! ## Traps -/

theorem calm_takeTrap (c : Nat) (t : Trap) : Calm s (takeTrap c t s) := by
  obtain ⟨u, quiet, taken⟩ := takeTrap_quiet c t s
  exact taken ▸ quiet.calm.trans (calm_updCpu ..)

theorem calm_stopEvent (c : Nat) : Calm s (stopEvent c s) := by
  unfold stopEvent
  split
  exacts [⟨rfl, rfl, rfl⟩, Calm.refl s]

theorem calm_nmiTrap (e : Nat) : Calm s (nmiTrap e s) := by
  have cleared : ∀ u : State, Calm u (clearPend e u) := fun u => ⟨rfl, rfl, rfl⟩
  exact ((calm_stopEvent s 12).trans (quiet_retireWait ..).calm).trans ((cleared _).trans (calm_takeTrap ..))

theorem calm_trap (c code info : Nat) (tval : Word) : Calm s (trap c code info tval s) := by
  unfold trap rankTrap
  split
  exacts [calm_nmiTrap .., calm_takeTrap ..]

theorem calm_loadTrap (c : Nat) (o : Code) (a : Word) : Calm s (loadTrap c o a s) := by
  unfold loadTrap
  split
  exacts [calm_trap .., (calm_tally ..).trans (calm_trap ..)]

end

theorem shelfCheck_calm {q : Rq} {a : Nat} {s t : State} (passed : shelfCheck q a s = some t) : Calm s t := by
  unfold shelfCheck at passed
  split at passed
  · cases passed; exact Calm.refl s
  · split at passed
    · cases passed
    · cases passed
      split <;> exact ⟨rfl, rfl, rfl⟩

/-! ## The byte that an access meets (R339, R340) -/

theorem byteSeen_unmapped {a : Nat} (outside : unitOf a = none) (s : State) : s.byteSeen a = s.byte a := by
  simp only [State.byteSeen, outside]

/-- A buffer has one entry for a word. -/
theorem BufferOk.unique {u : Nat} {l : List Merge} (ok : BufferOk u l) {x y : Merge} (hx : x ∈ l) (hy : y ∈ l) (word : x.a = y.a) :
    x = y := by
  obtain ⟨-, distinct, -⟩ := ok
  have symmetric : Std.Symm fun x y : Merge => x.a ≠ y.a := ⟨fun _ _ differ => differ.symm⟩
  by_contra other
  exact distinct.forall hx hy other word

section
variable {u a : Nat} {s t : State}

/-- The word's entry is the only one with its address. -/
theorem byteSeen_held {e : Merge} (unit : unitOf a = some u) (ok : BufferOk u (mergeOf u s)) (held : e ∈ mergeOf u s)
    (word : e.a = a / 8 * 8) : s.byteSeen a = (nth e.bytes (a % 8)).getD (s.byte a) := by
  have found : (mergeOf u s).find? (fun e => decide (e.a = a / 8 * 8)) = some e := by
    obtain ⟨x, hx⟩ := Option.isSome_iff_exists.1
      (List.find?_isSome (p := fun e => decide (e.a = a / 8 * 8)).2 ⟨e, held, decide_eq_true word⟩)
    have at_word : x.a = a / 8 * 8 := by simpa using List.find?_some hx
    rw [hx, ok.unique (List.mem_of_find?_eq_some hx) held (at_word.trans word.symm)]
  simp only [State.byteSeen, unit, found]

theorem byteSeen_free (unit : unitOf a = some u) (free : ∀ e ∈ mergeOf u s, e.a ≠ a / 8 * 8) : s.byteSeen a = s.byte a := by
  have missing : (mergeOf u s).find? (fun e => decide (e.a = a / 8 * 8)) = none :=
    List.find?_eq_none.2 fun e he => by simpa using free e he
  simp only [State.byteSeen, unit, missing]

/-- A byte is seen alike where its word has the same entry and memory the same byte. -/
theorem byteSeen_congr (sOk : MergeOk s.merge) (tOk : MergeOk t.merge) (byte : t.byte a = s.byte a)
    (entry : ∀ u, unitOf a = some u → ∀ e, e.a = a / 8 * 8 → (e ∈ mergeOf u t ↔ e ∈ mergeOf u s)) :
    t.byteSeen a = s.byteSeen a := by
  cases unit : unitOf a with
  | none => rw [byteSeen_unmapped unit, byteSeen_unmapped unit, byte]
  | some u =>
    by_cases holds : ∃ e ∈ mergeOf u s, e.a = a / 8 * 8
    · obtain ⟨e, held, word⟩ := holds
      rw [byteSeen_held unit (sOk.2 u) held word, byteSeen_held unit (tOk.2 u) ((entry u unit e word).2 held) word, byte]
    · have free : ∀ e ∈ mergeOf u s, e.a ≠ a / 8 * 8 := fun e he word => holds ⟨e, he, word⟩
      rw [byteSeen_free unit free, byteSeen_free unit fun e he word => free e ((entry u unit e word).1 he) word, byte]

end

theorem Calm.byteSeen {s t : State} (calm : Calm s t) (a : Nat) : t.byteSeen a = s.byteSeen a := by
  obtain ⟨mem, -, merge⟩ := calm
  simp only [State.byteSeen, mergeOf, merge, State.byte, mem]

section
variable {p n : Nat} {s t u : State}

theorem Calm.seenBut (calm : Calm s t) : SeenBut p n s t := fun a _ => calm.byteSeen a

theorem SeenBut.trans (first : SeenBut p n s t) (next : SeenBut p n t u) : SeenBut p n s u :=
  fun a outside => (next a outside).trans (first a outside)

theorem SeenBut.mono {p' n' : Nat} (seen : SeenBut p n s t) (low : p' ≤ p) (high : p + n ≤ p' + n') : SeenBut p' n' s t :=
  fun a outside => seen a (by omega)

/-- Where no byte changes, none changes outside an interval. -/
theorem SeenBut.all (seen : SeenBut 0 0 s t) : SeenBut p n s t := fun a _ => seen a (.inr (Nat.zero_le a))

theorem Calm.stored {b : List Byte} (calm : Calm s t) (stored : Stored p b s) : Stored p b t :=
  fun k inside => (calm.byteSeen _).trans (stored k inside)

end

/-! ## The marks of stored errors (R337) -/

/-- No word holds an error that is found and not mended. -/
def Clean (s : State) : Prop := ∀ a, s.eccAt a ≠ 2

theorem Calm.eccAt {s t : State} (calm : Calm s t) (a : Nat) : t.eccAt a = s.eccAt a := by
  rw [State.eccAt, calm.2.1]
  rfl

theorem Calm.clean {s t : State} (calm : Calm s t) (clean : Clean s) : Clean t := fun a => calm.eccAt a ▸ clean a

theorem natFind_natErase (l : List (Nat × Nat)) (a b : Nat) :
    natFind (natErase l a) b = if b = a then none else natFind l b := by
  induction l with
  | nil => simp [natErase, natFind]
  | cons x rest ih =>
    obtain ⟨k, v⟩ := x
    by_cases first : a = k
    · subst first
      simp only [natErase, if_true, ih, natFind]
      split <;> rfl
    · by_cases same : b = a
      · subst same
        simp [natErase, natFind, first, ih]
      · simp [natErase, natFind, first, same, ih]

theorem natFind_natInsert (l : List (Nat × Nat)) (a b v : Nat) :
    natFind (natInsert l a v) b = if b = a then some v else natFind l b := by
  induction l with
  | nil => rfl
  | cons x rest ih =>
    obtain ⟨k, w⟩ := x
    by_cases below : a < k
    · simp [natInsert, natFind, below]
    · by_cases first : a = k
      · subst first
        by_cases same : b = a <;> simp [natInsert, natFind, same]
      · by_cases same : b = a
        · subst same
          simp [natInsert, natFind, below, first, ih]
        · simp [natInsert, natFind, below, first, same, ih]

/-- A written word's own mark alone may change. -/
theorem eccAt_eccWritten {a b : Nat} (other : b ≠ a) (s : State) : (eccWritten a s).eccAt b = s.eccAt b := by
  unfold eccWritten
  split
  · simp only [State.eccAt, natFind_natInsert, if_neg other]
  · simp only [State.eccAt, natFind_natErase, if_neg other]

theorem mem_eccWritten (a : Nat) (s : State) : (eccWritten a s).mem = s.mem := by
  unfold eccWritten
  split <;> rfl

/-! ## Stored bytes -/

theorem byte_putBytes (l : List Byte) (p : Nat) (s : State) (b : Nat) :
    (s.putBytes p l).byte b = if p ≤ b ∧ b < p + l.length then nth l (b - p) else s.byte b := by
  induction l generalizing p s with
  | nil => simp [State.putBytes, show ¬(p ≤ b ∧ b < p) by omega]
  | cons x rest ih =>
    rw [State.putBytes, ih]
    by_cases first : p = b
    · subst first
      simp [State.byte, memFind_put, nth]
    · by_cases later : p + 1 ≤ b ∧ b < p + 1 + rest.length
      · rw [if_pos later, if_pos (by simp; omega), show b - p = b - (p + 1) + 1 by omega]
        rfl
      · rw [if_neg later, if_neg (by simp; omega)]
        simp [State.byte, memFind_put, first]

theorem ecc_putBytes (l : List Byte) (p : Nat) (s : State) : (s.putBytes p l).ecc = s.ecc := by
  induction l generalizing p s with
  | nil => rfl
  | cons x rest ih => exact ih ..

theorem mergeOf_setMerge (u v : Nat) (l : List Merge) (s : State) :
    mergeOf v (setMerge u l s) = if u = v ∧ u < s.merge.length then l else mergeOf v s := nth_upd ..

/-! ## An entry retires (R339, R340) -/

section
variable {u : Nat} {e : Merge} {stale : Bool} {s : State}

/-- Where its word's error is none that is found and not mended, an entry stores its bytes. -/
theorem mergeRetire_stores (mended : s.eccAt e.a ≠ 2) :
    ∃ v, Calm s v ∧ Calm (eccWritten e.a (v.putBytes e.a (mergeBytes e v))) (mergeRetire u e stale s).1 := by
  unfold mergeRetire
  extract_lets full s1 s2 s3 s4
  have counted : Calm s s1 := by
    unfold s1
    split
    exacts [Calm.refl s, calm_pmcCount ..]
  clear_value s1
  have corrected : Calm s1 s4 := by
    unfold s4
    split
    exacts [calm_eccCorrected .., Calm.refl s1]
  clear_value s4
  rw [if_neg fun two => mended (counted.eccAt e.a ▸ two.2)]
  exact ⟨s4, counted.trans corrected, calm_mergeDone ..⟩

theorem Calm.byte {t : State} (calm : Calm s t) (a : Nat) : t.byte a = s.byte a := by rw [State.byte, calm.1]; rfl

theorem byte_mergeRetire (mended : s.eccAt e.a ≠ 2) (a : Nat) :
    (mergeRetire u e stale s).1.byte a =
      if e.a ≤ a ∧ a < e.a + 8 then (nth e.bytes (a - e.a)).getD (s.byte a) else s.byte a := by
  obtain ⟨v, calm, stored⟩ := mergeRetire_stores (u := u) (stale := stale) mended
  rw [stored.byte, State.byte, mem_eccWritten, ← State.byte, byte_putBytes, calm.byte]
  refine if_ctx_congr (by simp [mergeBytes]) (fun inside => ?_) fun _ => rfl
  have index : a - e.a < 8 := by omega
  simp only [mergeBytes, nth, List.getD_eq_getElem?_getD, List.getElem?_map, List.getElem?_range index, Option.map_some,
    Option.getD_some, Nat.add_sub_cancel' inside.1, calm.byte]

theorem eccAt_mergeRetire (mended : s.eccAt e.a ≠ 2) {a : Nat} (other : a ≠ e.a) :
    (mergeRetire u e stale s).1.eccAt a = s.eccAt a := by
  obtain ⟨v, calm, stored⟩ := mergeRetire_stores (u := u) (stale := stale) mended
  rw [stored.eccAt, eccAt_eccWritten other, State.eccAt, ecc_putBytes, ← State.eccAt, calm.eccAt]

theorem unit_lt_of_mem (held : e ∈ mergeOf u s) : u < s.merge.length := by
  by_contra beyond
  rw [mergeOf, nth, List.getD_eq_default _ _ (Nat.not_lt.1 beyond)] at held
  cases held

/-- The entry's bytes are seen before and after it has left its buffer. -/
theorem seen_mergeRetire {l : List Merge} (ok : MergeOk s.merge) (held : e ∈ mergeOf u s) (mended : s.eccAt e.a ≠ 2)
    (sub : l.Sublist (mergeOf u s)) (others : ∀ x, x ∈ l ↔ x ∈ mergeOf u s ∧ x.a ≠ e.a) :
    SeenBut 0 0 s (mergeRetire u e stale (setMerge u l s)).1 := by
  intro a _
  have low := unit_lt_of_mem held
  have buffers : ∀ v, mergeOf v (mergeRetire u e stale (setMerge u l s)).1 = if u = v then l else mergeOf v s := fun v => by
    rw [mergeOf, merge_mergeRetire, ← mergeOf, mergeOf_setMerge]
    exact if_congr (and_iff_left low) rfl rfl
  have tOk : MergeOk (mergeRetire u e stale (setMerge u l s)).1.merge := by
    rw [merge_mergeRetire]
    exact ok.upd u ((ok.2 u).sub sub)
  have byte := byte_mergeRetire (u := u) (stale := stale) (s := setMerge u l s) mended a
  obtain ⟨unit, aligned, -⟩ := (ok.2 u).2.2 e held
  by_cases here : e.a = a / 8 * 8
  · have unit_a : unitOf a = some u := by rw [← unitOf_word, ← here, unit]
    have gone : ∀ x ∈ mergeOf u (mergeRetire u e stale (setMerge u l s)).1, x.a ≠ a / 8 * 8 := fun x hx => by
      rw [buffers u, if_pos rfl] at hx
      exact here ▸ ((others x).1 hx).2
    rw [byteSeen_free unit_a gone, byteSeen_held unit_a (ok.2 u) held here, byte, if_pos (by omega), here,
      show a - a / 8 * 8 = a % 8 by omega]
    rfl
  · rw [if_neg (by omega)] at byte
    refine byteSeen_congr ok tOk byte fun v _ x word => ?_
    rw [buffers v]
    split
    · next same =>
      subst same
      exact (others x).trans (and_iff_left (word ▸ fun h => here h.symm))
    · exact Iff.rfl

end

/-! ## Reads (R340, R346) -/

/-- Of the entries of a buffer one at most is selected by its word. -/
theorem BufferOk.filter_word {u : Nat} {l : List Merge} (ok : BufferOk u l) (a : Nat) :
    (l.filter fun e => decide (e.a = a)) = [] ∨ ∃ e ∈ l, e.a = a ∧ (l.filter fun e => decide (e.a = a)) = [e] := by
  have sub : (l.filter fun e => decide (e.a = a)).Sublist l := List.filter_sublist
  have at_word : ∀ e ∈ l.filter fun e => decide (e.a = a), e.a = a := fun e he => of_decide_eq_true (List.mem_filter.1 he).2
  have distinct := (ok.sub sub).2.1
  generalize (l.filter fun e => decide (e.a = a)) = kept at sub at_word distinct
  match kept with
  | [] => exact .inl rfl
  | [e] => exact .inr ⟨e, sub.subset (by simp), at_word e (by simp), rfl⟩
  | e :: x :: rest =>
    have differ := (List.pairwise_cons.1 distinct).1 x (by simp)
    exact absurd ((at_word e (by simp)).trans (at_word x (by simp)).symm) differ

section
variable {u a : Nat} {q : Rq} {s : State}

/-- The entry of a word retires unseen, and another word's mark stays. -/
theorem seen_retireWord (ok : MergeOk s.merge) (clean : Clean s) :
    SeenBut 0 0 s (retireWord u a s) ∧ ∀ b, b ≠ a → (retireWord u a s).eccAt b = s.eccAt b := by
  have sub : ((mergeOf u s).filter fun e => !decide (e.a = a)).Sublist (mergeOf u s) := List.filter_sublist
  have kept : ∀ x, (x ∈ (mergeOf u s).filter fun e => !decide (e.a = a)) ↔ x ∈ mergeOf u s ∧ x.a ≠ a := by simp
  have buffer : BufferOk u (mergeOf u s) := ok.2 u
  unfold retireWord retireIf retireWith
  rcases buffer.filter_word a with absent | ⟨e, held, rfl, one⟩
  · have same : (mergeOf u s).filter (fun e => !decide (e.a = a)) = mergeOf u s :=
      List.filter_eq_self.2 fun e he => by simpa using (List.filter_eq_nil_iff.1 absent) e he
    simp only [absent, same, List.foldl_nil]
    refine ⟨fun b _ => byteSeen_congr ok (ok.upd u (ok.2 u)) rfl fun v _ x _ => ?_, fun _ _ => rfl⟩
    rw [mergeOf_setMerge]
    split
    · next same => rw [same.1]
    · exact Iff.rfl
  · simp only [one, List.foldl_cons, List.foldl_nil]
    exact ⟨seen_mergeRetire ok held (clean e.a) sub kept,
      fun b other => eccAt_mergeRetire (s := setMerge u _ s) (clean e.a) other⟩

/-- What a read leaves: the invariant, every byte as it was seen, and, where it ends DONE, no error found and not mended. -/
def ReadOk (s t : State) (o : Code) : Prop := Inv t ∧ SeenBut 0 0 s t ∧ (o = .done → Clean t)

theorem Inv.merge (inv : Inv s) : MergeOk s.merge := (Keeps.refl s).merge inv

theorem readOk_readWord (inv : Inv s) (clean : Clean s) : ReadOk s (readWord u q a s).1 (readWord u q a s).2 := by
  refine ⟨(Keeps.readWord (Keeps.refl s)).1 inv, ?_⟩
  obtain ⟨seen, marks⟩ := seen_retireWord (u := u) (a := a) inv.merge clean
  have cleaned : (retireWord u a s).eccAt a ≠ 2 → Clean (retireWord u a s) := fun mended b => by
    by_cases other : b = a
    · exact other ▸ mended
    · exact marks b other ▸ clean b
  unfold readWord
  dsimp only
  split
  · exact ⟨seen, fun _ => cleaned (by omega)⟩
  · next single =>
    exact ⟨seen.trans (calm_eccCorrected ..).seenBut, fun _ => (calm_eccCorrected ..).clean (cleaned (by omega))⟩
  · exact ⟨seen.trans (calm_eccMet ..).seenBut, fun done => by cases done⟩

theorem readOk_memRead {n : Nat} (inv : Inv s) (clean : Clean s) : ReadOk s (memRead u q a n s).1 (memRead u q a n s).2.1 := by
  unfold memRead
  dsimp only
  refine List.foldlRecOn (motive := fun x : State × Code => ReadOk s x.1 x.2) _ _ ⟨inv, fun _ _ => rfl, fun _ => clean⟩ ?_
  rintro ⟨t, o⟩ ⟨tInv, seen, good⟩ i -
  dsimp only
  split
  · next done =>
    obtain ⟨rInv, rSeen, rClean⟩ := readOk_readWord (u := u) (q := q) (a := a / 8 * 8 + 8 * i) tInv (good done)
    exact ⟨rInv, seen.trans rSeen, rClean⟩
  · exact ⟨tInv, seen, good⟩

end

/-! ## Writes (R339) -/

theorem nth_joinBytes (l : List (Option Byte)) (o : Nat) (bytes : List Byte) {i : Nat} (inside : i < 8) :
    nth (joinBytes l o bytes) i = if o ≤ i ∧ i < o + bytes.length then some (nth bytes (i - o)) else nth l i := by
  simp only [joinBytes, nth, List.getD_eq_getElem?_getD, List.getElem?_map, List.getElem?_range inside, Option.map_some,
    Option.getD_some]

section
variable {u p : Nat} {bytes : List Byte} {s t : State}

/-- What a write of the bytes at p leaves to be seen. -/
def Written (p : Nat) (bytes : List Byte) (s t : State) : Prop :=
  ∀ a, t.byteSeen a = if p ≤ a ∧ a < p + bytes.length then nth bytes (a - p) else s.byteSeen a

theorem Written.seenBut (written : Written p bytes s t) : SeenBut p bytes.length s t :=
  fun a outside => (written a).trans (if_neg (by omega))

theorem Written.stored (written : Written p bytes s t) : Stored p bytes t := fun k inside => by
  rw [written, if_pos (by omega), Nat.add_sub_cancel_left]

/-- The word's entry, with the new bytes joined to its own, is in the buffer, which holds the other words' entries as it did. -/
theorem written_entry {e : Merge} {old : List (Option Byte)} (sOk : MergeOk s.merge) (tOk : MergeOk t.merge)
    (byte : ∀ a, t.byte a = s.byte a) (unit : unitOf p = some u) (fits : p % 8 + bytes.length ≤ 8)
    (held : e ∈ mergeOf u t) (word : e.a = p / 8 * 8) (joined : e.bytes = joinBytes old (p - p / 8 * 8) bytes)
    (before : ∀ a, a / 8 * 8 = p / 8 * 8 → s.byteSeen a = (nth old (a % 8)).getD (s.byte a))
    (others : ∀ v, ∀ x, x.a ≠ p / 8 * 8 → (x ∈ mergeOf v t ↔ x ∈ mergeOf v s)) : Written p bytes s t := by
  intro a
  by_cases here : a / 8 * 8 = p / 8 * 8
  · have unit_a : unitOf a = some u := by rw [← unitOf_word, here, unitOf_word, unit]
    rw [byteSeen_held unit_a (tOk.2 u) held (word.trans here.symm), joined, nth_joinBytes _ _ _ (Nat.mod_lt a (by decide)),
      before a here, byte]
    by_cases inside : p ≤ a ∧ a < p + bytes.length
    · rw [if_pos (by omega), if_pos inside, show a % 8 - (p - p / 8 * 8) = a - p by omega]
      rfl
    · rw [if_neg (by omega), if_neg inside]
  · rw [if_neg (by omega)]
    exact byteSeen_congr sOk tOk (byte a) fun v _ x at_a => others v x (at_a ▸ here)

end

/-! ## The units and their addresses (R336) -/

/-- What the place of a region in the map says of its number or its addresses (R547). -/
def InMap (a : Nat) : Region → Prop
  | .lcMem n => n < 8
  | .rcMem n => n < 4
  | .shelfAlias => 0x7F000000 ≤ a ∧ a < 0x7F040000
  | _ => True

theorem div_lt_of_inWin {a base stride cnt size : Nat} (inside : inWin a base stride cnt size = true) :
    (a - base) / stride < cnt := by
  simp only [inWin, Bool.and_eq_true, decide_eq_true_eq] at inside
  exact inside.1.2

theorem inMap_region (a : Nat) : InMap a (region a) := by
  unfold region
  repeat' refine iteInduction (motive := InMap a) (fun inside => ?_) fun _ => ?_
  case _ : InMap a (.lcMem _) => exact div_lt_of_inWin inside
  case _ : InMap a (.rcMem _) => exact div_lt_of_inWin inside
  case _ : InMap a .shelfAlias => exact inside
  all_goals exact trivial

/-- The regions that are memories of R336. -/
theorem region_memory {a : Nat} (memory : InMemory a) :
    region a = .sram ∨ region a = .capture ∨ region a = .larder ∨ (∃ n, region a = .lcMem n) ∨ ∃ n, region a = .rcMem n := by
  unfold InMemory unitOf at memory
  cases place : region a <;> simp [place] at memory ⊢

theorem inMemory_of_unit {a u : Nat} (unit : unitOf a = some u) : InMemory a := fun outside => by cases outside.symm.trans unit

theorem unitOf_lt {a u : Nat} (unit : unitOf a = some u) : u < 15 := by
  have memory := inMemory_of_unit unit
  unfold unitOf at unit
  rcases region_memory memory with place | place | place | ⟨n, place⟩ | ⟨n, place⟩ <;> simp only [place, Option.some.injEq] at unit
  · omega
  · omega
  · omega
  · have lane : InMap a (.lcMem n) := place ▸ inMap_region a
    have : n < 8 := lane
    omega
  · have core : InMap a (.rcMem n) := place ▸ inMap_region a
    have : n < 4 := core
    omega

/-! ## A write enters memory (R339, R340) -/

/-- A change of one word's entry leaves the other words' entries in the buffer. -/
theorem mem_map_other {l : List Merge} {w : Nat} {f : Merge → Merge} {x : Merge} (word : ∀ e, (f e).a = e.a)
    (same : ∀ e, e.a ≠ w → f e = e) (other : x.a ≠ w) : x ∈ l.map f ↔ x ∈ l := by
  rw [List.mem_map]
  constructor
  · rintro ⟨e, held, rfl⟩
    rwa [same e fun at_w => other ((word e).trans at_w)]
  · exact fun held => ⟨x, held, same x other⟩

section
variable {u p : Nat} {q : Rq} {bytes : List Byte} {who : List (Nat × Nat)} {s : State}

/-- The oldest entry makes room. -/
theorem seen_oldest {e : Merge} {rest : List Merge} (ok : MergeOk s.merge) (clean : Clean s) (full : mergeOf u s = e :: rest) :
    SeenBut 0 0 s (mergeRetire u e false (setMerge u rest s)).1 ∧
    mergeOf u (mergeRetire u e false (setMerge u rest s)).1 = rest := by
  have held : e ∈ mergeOf u s := full ▸ List.mem_cons_self
  have buffer : BufferOk u (e :: rest) := full ▸ ok.2 u
  obtain ⟨-, distinct, -⟩ := buffer
  refine ⟨seen_mergeRetire ok held (clean e.a) (full ▸ List.sublist_cons_self e rest) fun x => ?_, ?_⟩
  · rw [full, List.mem_cons]
    constructor
    · exact fun later => ⟨.inr later, ((List.pairwise_cons.1 distinct).1 x later).symm⟩
    · rintro ⟨rfl | later, other⟩
      exacts [absurd rfl other, later]
  · rw [mergeOf, merge_mergeRetire, ← mergeOf, mergeOf_setMerge, if_pos ⟨rfl, unit_lt_of_mem held⟩]

/-- The bytes join those of their word's entry. -/
theorem written_join {e : Merge} (ok : MergeOk s.merge) (unit : unitOf p = some u) (fits : p % 8 + bytes.length ≤ 8)
    (held : e ∈ mergeOf u s) (word : e.a = p / 8 * 8) :
    Written p bytes s (setMerge u ((mergeOf u s).map fun e => if e.a = p / 8 * 8 then
      { e with bytes := joinBytes e.bytes (p - p / 8 * 8) bytes, who := e.who ++ who } else e) s) := by
  have addr : ∀ e : Merge, (if e.a = p / 8 * 8 then
      { e with bytes := joinBytes e.bytes (p - p / 8 * 8) bytes, who := e.who ++ who } else e).a = e.a := fun e => by split <;> rfl
  have buffer := (ok.2 u).map addr fun e whole => by
    split
    exacts [joinBytes_length .., whole]
  refine written_entry (e := { e with bytes := joinBytes e.bytes (p - p / 8 * 8) bytes, who := e.who ++ who }) ok
    (ok.upd u buffer) (fun _ => rfl) unit fits ?_ word rfl (fun a here => ?_) fun v x other => ?_
  · rw [mergeOf_setMerge, if_pos ⟨rfl, unit_lt_of_mem held⟩]
    exact List.mem_map.2 ⟨e, held, if_pos word⟩
  · have unit_a : unitOf a = some u := by rw [← unitOf_word, here, unitOf_word, unit]
    exact byteSeen_held unit_a (ok.2 u) held (word.trans here.symm)
  · rw [mergeOf_setMerge]
    split
    · next same => exact same.1 ▸ mem_map_other addr (fun e other => if_neg other) other
    · exact Iff.rfl

/-- The bytes begin a new entry. -/
theorem written_add (ok : MergeOk s.merge) (unit : unitOf p = some u) (fits : p % 8 + bytes.length ≤ 8)
    (free : ∀ e ∈ mergeOf u s, e.a ≠ p / 8 * 8) (room : (mergeOf u s).length < 8) :
    Written p bytes s (setMerge u (mergeOf u s ++
      [{ a := p / 8 * 8, bytes := joinBytes (List.replicate 8 none) (p - p / 8 * 8) bytes, who := who, q := q }]) s) := by
  have low : u < s.merge.length := ok.1 ▸ unitOf_lt unit
  refine written_entry
    (e := { a := p / 8 * 8, bytes := joinBytes (List.replicate 8 none) (p - p / 8 * 8) bytes, who := who, q := q })
    (old := List.replicate 8 none) ok (ok.upd u ((ok.2 u).add (entryOk_new unit ..) room free)) (fun _ => rfl) unit fits ?_ rfl rfl
    (fun a here => ?_) fun v x other => ?_
  · rw [mergeOf_setMerge, if_pos ⟨rfl, low⟩]
    exact List.mem_append_right _ List.mem_cons_self
  · have unit_a : unitOf a = some u := by rw [← unitOf_word, here, unitOf_word, unit]
    have index : a % 8 < 8 := Nat.mod_lt a (by decide)
    rw [byteSeen_free unit_a (here ▸ free), nth, List.getD_eq_getElem?_getD, List.getElem?_replicate, if_pos index]
    rfl
  · rw [mergeOf_setMerge]
    split
    · next same =>
      rw [← same.1, List.mem_append, List.mem_singleton]
      exact or_iff_left fun new => other (congrArg Merge.a new)
    · exact Iff.rfl

theorem written_writeNarrow (ok : MergeOk s.merge) (clean : Clean s) (unit : unitOf p = some u) (fits : p % 8 + bytes.length ≤ 8) :
    Written p bytes s (writeNarrow u q p bytes who s) := by
  unfold writeNarrow
  extract_lets w s1
  split
  · next present =>
    obtain ⟨e, held, word⟩ := List.any_eq_true.1 present
    exact written_join ok unit fits held (of_decide_eq_true word)
  · next absent =>
    have free : ∀ e ∈ mergeOf u s, e.a ≠ w := fun e held word => absent (List.any_eq_true.2 ⟨e, held, decide_eq_true word⟩)
    have room : MergeOk s1.merge ∧ SeenBut 0 0 s s1 ∧ (∀ e ∈ mergeOf u s1, e.a ≠ w) ∧ (mergeOf u s1).length < 8 := by
      unfold s1
      split
      · next long =>
        split
        · next e rest full =>
          obtain ⟨seen, left⟩ := seen_oldest ok clean full
          have most : (e :: rest).length ≤ 8 := full ▸ (ok.2 u).1
          refine ⟨?_, seen, fun x held => free x (full ▸ List.mem_cons_of_mem e (left ▸ held)), by rw [left]; exact most⟩
          rw [merge_mergeRetire]
          exact ok.upd u ((ok.2 u).sub (by rw [← mergeOf, full]; exact List.sublist_cons_self e rest))
        · next empty =>
          rw [empty] at long
          cases long
      · next short => exact ⟨ok, fun _ _ => rfl, free, Nat.not_le.1 short⟩
    clear_value s1
    obtain ⟨s1Ok, seen, s1Free, short⟩ := room
    have written := written_add (q := q) (who := who) s1Ok unit fits s1Free short
    exact fun a => (written a).trans (by rw [seen a (.inr (Nat.zero_le a))])

/-- A write of 8 aligned bytes discards its word's entry and no other. -/
theorem seen_write8 (inv : Inv s) (aligned : p % 8 = 0) (whole : bytes.length = 8) : SeenBut p 8 s (write8 u p bytes s) := by
  have tOk := ((Keeps.write8 (Keeps.refl s) (u := u) (a := p) (bytes := bytes)).1 inv).merge
  unfold write8 at tOk ⊢
  extract_lets gone s1 s2 at tOk
  extract_lets
  have completed : Calm s1 s2 := by
    unfold s2
    refine List.foldlRecOn (motive := Calm s1) _ _ (Calm.refl s1) fun t calm e _ => calm.trans (calm_mergeDone ..)
  have buffers : ∀ v, mergeOf v (eccWritten p (s2.putBytes p bytes)) =
      if u = v ∧ u < s.merge.length then (mergeOf u s).filter fun e => decide (e.a ≠ p) else mergeOf v s := fun v => by
    rw [mergeOf, merge_eccWritten, merge_putBytes, completed.2.2, ← mergeOf, mergeOf_setMerge]
  have byte : ∀ a, (eccWritten p (s2.putBytes p bytes)).byte a = if p ≤ a ∧ a < p + bytes.length then nth bytes (a - p)
      else s.byte a := fun a => by
    rw [State.byte, mem_eccWritten, ← State.byte, byte_putBytes, completed.byte]
    rfl
  intro a outside
  refine byteSeen_congr inv.merge tOk ((byte a).trans (if_neg (by omega))) fun v _ x word => ?_
  rw [buffers]
  split
  · next same =>
    rw [← same.1, List.mem_filter]
    exact and_iff_left (decide_eq_true (by omega))
  · exact Iff.rfl

/-- Several words are written one after the other. -/
theorem seen_memWrite_words (inv : Inv s) (aligned : p % 8 = 0) (whole : bytes.length % 8 = 0) (wide : 8 ≤ bytes.length) :
    SeenBut p bytes.length s (memWrite u q p bytes s).1 ∧ (memWrite u q p bytes s).2 ≠ none := by
  unfold memWrite
  rw [if_pos wide]
  refine ⟨?_, by simp⟩
  refine (List.foldlRecOn (motive := fun t => Inv t ∧ SeenBut p bytes.length s t) _ _ ⟨inv, fun _ _ => rfl⟩ ?_).2
  rintro t ⟨tInv, seen⟩ i listed
  have index : i < bytes.length / 8 := List.mem_range.1 listed
  have word := seen_write8 (u := u) (p := p + 8 * i) (bytes := (bytes.drop (8 * i)).take 8) tInv (by omega)
    (by rw [List.length_take, List.length_drop]; omega)
  exact ⟨(Keeps.write8 (Keeps.refl t)).1 tInv, seen.trans (word.mono (by omega) (by omega))⟩

theorem written_memWrite {c : Nat} {l : Lvl} (ok : MergeOk s.merge) (clean : Clean s) (unit : unitOf p = some u)
    (fits : p % 8 + bytes.length ≤ 8) (narrow : bytes.length < 8) :
    Written p bytes s (memWrite u (.core c l) p bytes s).1 := by
  unfold memWrite
  rw [if_neg (by omega)]
  exact written_writeNarrow ok clean unit fits

end

/-! ## Accesses of a core to memory over the bus (R311, R346, R547) -/

section
variable {c a p u n : Nat} {l : Lvl} {bytes : List Byte} {s t : State}

theorem Calm.readOk {o : Code} (calm : Calm s t) (keeps : Keeps s t) (inv : Inv s) (clean : Clean s) : ReadOk s t o :=
  ⟨keeps.1 inv, calm.seenBut, fun _ => calm.clean clean⟩

theorem ReadOk.refl {o : Code} (inv : Inv s) (clean : Clean s) : ReadOk s s o := (Calm.refl s).readOk (Keeps.refl s) inv clean

theorem hatchSecret_core : hatchSecret (.core c l) a n s = s := if_neg fun hatch => by cases hatch.1

theorem readOk_memBusRead (inv : Inv s) (clean : Clean s) :
    ReadOk s (memBusRead u (.core c l) p n s).1 (memBusRead u (.core c l) p n s).2.1 := by
  unfold memBusRead
  rw [hatchSecret_core]
  dsimp only
  split
  · exact ReadOk.refl inv clean
  · split
    · exact ReadOk.refl inv clean
    · split
      exacts [ReadOk.refl inv clean, readOk_memRead inv clean]

theorem windowRead_memory {q : Rq} (unit : unitOf p = some u) : windowRead q p n s = memBusRead u q p n s := by
  rcases region_memory (inMemory_of_unit unit) with place | place | place | ⟨k, place⟩ | ⟨k, place⟩ <;>
    simp only [windowRead, place, unit]

theorem windowWrite_memory {q : Rq} (unit : unitOf p = some u) : windowWrite q p bytes s = memBusWrite u q p bytes s := by
  rcases region_memory (inMemory_of_unit unit) with place | place | place | ⟨k, place⟩ | ⟨k, place⟩ <;>
    simp only [windowWrite, place, unit]

theorem region_ne_of_memory (unit : unitOf p = some u) : region p ≠ .regs ∧ region p ≠ .celRing := by
  rcases region_memory (inMemory_of_unit unit) with place | place | place | ⟨k, place⟩ | ⟨k, place⟩ <;>
    simp [place]

theorem readOk_busRead (inv : Inv s) (clean : Clean s) (target : resolve (.core c l) a s = some p) (unit : unitOf p = some u) :
    ReadOk s (busRead (.core c l) a n s).1 (busRead (.core c l) a n s).2.1 := by
  obtain ⟨register, -⟩ := region_ne_of_memory unit
  have requested := calm_request s (.core c l) p
  have read := readOk_memBusRead (u := u) (p := p) (n := n) (c := c) (l := l)
    ((Keeps.request (Keeps.refl s)).1 inv) (requested.clean clean)
  unfold busRead
  rw [target]
  dsimp only
  simp only [register, false_and, if_false, windowRead_memory unit]
  split
  · exact (calm_timedOut ..).readOk (Keeps.timedOut (Keeps.refl s)) inv clean
  · obtain ⟨rInv, seen, good⟩ := read
    exact ⟨(Keeps.completed (Keeps.refl _)).1 rInv, requested.seenBut.trans (seen.trans (calm_completed ..).seenBut),
      fun done => (calm_completed ..).clean (good done)⟩

/-- What a write leaves: no byte but its own changes, and it is seen where no code is known yet. -/
def WriteOk (p : Nat) (bytes : List Byte) (s t : State) (o : Option Code) : Prop :=
  SeenBut p (min bytes.length 32) s t ∧ (o = none → Stored p bytes t)

/-- An access that ends at once with a code and leaves memory alone. -/
theorem Calm.writeOk {o : Code} (calm : Calm s t) : WriteOk p bytes s t (some o) := ⟨calm.seenBut, fun unknown => by cases unknown⟩

theorem writeOk_memWrite (inv : Inv s) (clean : Clean s) (unit : unitOf p = some u) (aligned : memAligned p bytes.length = true) :
    WriteOk p bytes s (memWrite u (.core c l) p bytes s).1 (memWrite u (.core c l) p bytes s).2 := by
  simp only [memAligned, Bool.and_eq_true, Bool.or_eq_true, decide_eq_true_eq] at aligned
  obtain ⟨width, multiple⟩ := aligned
  by_cases narrow : bytes.length < 8
  · have fits : p % 8 + bytes.length ≤ 8 := by
      rcases width with (((one | two) | four) | eight) | all
      · omega
      · rw [two] at multiple ⊢
        omega
      · rw [four] at multiple ⊢
        omega
      · omega
      · omega
    have written := written_memWrite (c := c) (l := l) inv.merge clean unit fits narrow
    exact ⟨written.seenBut.mono (le_refl p) (by omega), fun _ => written.stored⟩
  · have words : p % 8 = 0 ∧ bytes.length % 8 = 0 ∧ bytes.length ≤ 32 := by
      rcases width with (((one | two) | four) | eight) | all
      · omega
      · omega
      · omega
      · rw [eight] at multiple ⊢
        omega
      · rw [all] at multiple ⊢
        omega
    obtain ⟨start, whole, most⟩ := words
    obtain ⟨seen, code⟩ := seen_memWrite_words (u := u) (q := .core c l) inv start whole (Nat.not_lt.1 narrow)
    exact ⟨seen.mono (le_refl p) (by omega), fun unknown => absurd unknown code⟩

theorem writeOk_memBusWrite (inv : Inv s) (clean : Clean s) (unit : unitOf p = some u) :
    WriteOk p bytes s (memBusWrite u (.core c l) p bytes s).1 (memBusWrite u (.core c l) p bytes s).2 := by
  have same := Calm.refl s
  unfold memBusWrite
  rw [hatchSecret_core]
  dsimp only
  split
  · exact same.writeOk
  · next aligned =>
    split
    · exact same.writeOk
    · rw [if_neg fun outside => outside.1 rfl]
      split
      · exact same.writeOk
      · split
        · exact same.writeOk
        · next t passed =>
          have calm := shelfCheck_calm passed
          obtain ⟨seen, stored⟩ := writeOk_memWrite (c := c) (l := l) ((Keeps.shelfCheck (Keeps.refl s) passed).1 inv)
            (calm.clean clean) unit (by simpa using aligned)
          exact ⟨calm.seenBut.trans seen, stored⟩

theorem writeOk_busWrite (inv : Inv s) (clean : Clean s) (target : resolve (.core c l) a s = some p) (unit : unitOf p = some u) :
    WriteOk p bytes s (busWrite (.core c l) a bytes s).1 (busWrite (.core c l) a bytes s).2 := by
  obtain ⟨register, ring⟩ := region_ne_of_memory unit
  have requested := calm_request s (.core c l) p
  obtain ⟨seen, stored⟩ := writeOk_memBusWrite (c := c) (l := l) (bytes := bytes)
    ((Keeps.request (Keeps.refl s) (q := .core c l) (a := p)).1 inv) (requested.clean clean) unit
  unfold busWrite
  rw [target]
  dsimp only
  simp only [register, ring, false_and, or_self, if_false, windowWrite_memory unit]
  split
  · exact (calm_timedOut ..).writeOk
  · split
    · exact (requested.trans (calm_completed ..)).writeOk
    · split
      · exact ⟨(requested.seenBut.trans seen).trans (calm_completed ..).seenBut, fun unknown => by cases unknown⟩
      · next unknown => exact ⟨requested.seenBut.trans seen, fun _ => stored unknown⟩

end

/-! ## The addresses that a core names (R311, R549) -/

section
variable {c a : Nat} {s : State}

theorem resolve_none_outside {q : Rq} (unnamed : resolve q a s = none) : unitOf a = none := by
  unfold resolve at unnamed
  unfold unitOf
  cases place : region a <;> simp [place] at unnamed ⊢

theorem named_memory {w : Word} (memory : InMemory (named c w s)) :
    ∃ u, resolve (coreRq c s) w.toNat s = some (named c w s) ∧ unitOf (named c w s) = some u := by
  obtain ⟨u, unit⟩ := Option.ne_none_iff_exists'.1 memory
  refine ⟨u, ?_, unit⟩
  cases target : resolve (coreRq c s) w.toNat s with
  | some p => simp only [named, target, Option.getD_some]
  | none =>
    rw [named, target] at memory
    exact absurd (resolve_none_outside target) memory

/-- Another address than a shelf's is named alike at every level and in every state. -/
theorem resolve_plain (plain : region a ≠ .shelfAlias) (s t : State) : resolve (coreRq c s) a s = resolve (coreRq c t) a t := by
  cases place : region a with
  | shelfAlias => exact absurd place plain
  | _ => simp only [resolve, coreRq, place]

theorem xchgReach_plain (reach : xchgReach c a = true) : region a ≠ .shelfAlias := by
  intro shelf
  have inside : InMap a .shelfAlias := shelf ▸ inMap_region a
  obtain ⟨low, high⟩ := inside
  simp only [xchgReach, shelf, reduceCtorEq, decide_false, Bool.false_or, Bool.or_eq_true, Bool.and_eq_true,
    decide_eq_true_eq] at reach
  unfold dataBase dataSize at reach
  repeat' split at reach
  all_goals omega

end

/-! ## The accesses of an instruction (R279, R283 to R287) -/

theorem length_leBytes (n v : Nat) : (leBytes n v).length = n := by
  induction n generalizing v with
  | zero => rfl
  | succ n ih => exact congrArg (· + 1) (ih (v / 256))

section
variable {c n p k : Nat} {a : Word} {b : List Byte} {s : State}

/-- A fetch from memory that ends DONE. -/
theorem readOk_fetch (inv : Inv s) (clean : Clean s) (core : c < 13) (memory : InMemory (named c (s.cpu c).pc s)) :
    ReadOk s (fetched c s) (fetch c s).2.1 := by
  obtain ⟨u, target, unit⟩ := named_memory memory
  have timeout := (calm_timedOut s (coreRq c s) (named c (s.cpu c).pc s) false).readOk (o := .timeout)
    (Keeps.timedOut (Keeps.refl s)) inv clean
  unfold fetched fetch
  dsimp only
  rw [if_neg core.ne]
  split
  · exact ReadOk.refl inv clean
  · split
    · simp only [target, unit]
      split
      exacts [timeout, readOk_readWord inv clean]
    · exact readOk_busRead inv clean target unit

theorem readOk_coreRead (inv : Inv s) (clean : Clean s) (core : c < 13) (memory : InMemory (named c a s)) :
    ReadOk s (coreRead c a.toNat n s).1 (coreRead c a.toNat n s).2.1 := by
  obtain ⟨u, target, unit⟩ := named_memory memory
  unfold coreRead
  rw [if_neg core.ne]
  exact readOk_busRead inv clean target unit

/-- The checks of an access that does not reach memory only trap. -/
theorem seen_dataCheck {f : State → State} (seen : SeenBut p n s (f s)) : SeenBut p n s (dataCheck c a k f s) := by
  unfold dataCheck
  split
  · exact (calm_trap ..).seenBut
  · split
    exacts [(calm_trap ..).seenBut, seen]

theorem seen_dataRead {f : List Byte → State → State} (inv : Inv s) (clean : Clean s) (core : c < 13)
    (memory : InMemory (named c a s)) (calm : ∀ b t, Calm t (f b t)) : SeenBut 0 0 s (dataRead c a n f s) := by
  obtain ⟨-, seen, -⟩ := readOk_coreRead (n := n) inv clean core memory
  unfold dataRead
  dsimp only
  split
  · exact seen.trans ((calm_tally ..).trans (calm ..)).seenBut
  · exact seen.trans (calm_loadTrap ..).seenBut

theorem writeOk_dataWrite (inv : Inv s) (clean : Clean s) (core : c < 13) (memory : InMemory (named c a s)) :
    WriteOk (named c a s) b s (dataWrite c a b s) (busWrite (coreRq c s) a.toNat b s).2 := by
  obtain ⟨u, target, unit⟩ := named_memory memory
  obtain ⟨seen, stored⟩ := writeOk_busWrite (bytes := b) inv clean target unit
  have access : coreWriteTo c a.toNat b s = busWrite (coreRq c s) a.toNat b s := if_neg core.ne
  have posted : ∀ t f, Calm t (tally c 4 (dataOcc c a s) (updCpu c f t)) := fun t f => (calm_updCpu ..).trans (calm_tally ..)
  unfold dataWrite
  dsimp only
  rw [access]
  exact ⟨seen.trans (posted ..).seenBut, fun unknown => (posted ..).stored (stored unknown)⟩

end

/-! ## The instructions -/

section
variable {c rt rb : Nat} {off : BitVec 13} {s : State}

theorem seen_opLoad {n : Nat} {sx : Bool} (inv : Inv s) (clean : Clean s) (core : c < 13)
    (memory : InMemory (named c (memAddr c rb off s) s)) : SeenBut 0 0 s (opLoad c rt rb off n sx s) :=
  seen_dataCheck (seen_dataRead inv clean core memory fun _ _ => (calm_setW ..).trans (calm_goOn ..))

theorem seen_opStore {n sz : Nat} {sx : Bool} (inv : Inv s) (clean : Clean s) (core : c < 13)
    (memory : InMemory (named c (memAddr c rb off s) s)) :
    SeenBut (named c (memAddr c rb off s) s) n s (opStore c rt rb sx off n sz s) := by
  unfold opStore
  split
  · exact (calm_trap ..).seenBut
  · obtain ⟨seen, -⟩ := writeOk_dataWrite (b := leBytes n (getW c rt s).toNat) inv clean core memory
    exact seen_dataCheck ((seen.mono (le_refl _) (by rw [length_leBytes]; omega)).trans (calm_goOn ..).seenBut)

/-- A store that is allowed, aligned and accepted without a code is seen at its address. -/
theorem stored_opStore {n sz : Nat} (inv : Inv s) (clean : Clean s) (core : c < 13)
    (memory : InMemory (named c (memAddr c rb off s) s)) (may : MayAccess c n (memAddr c rb off s) s)
    (accepted : (busWrite (coreRq c s) (memAddr c rb off s).toNat (leBytes n (getW c rt s).toNat) s).2 = none) :
    Stored (named c (memAddr c rb off s) s) (leBytes n (getW c rt s).toNat) (opStore c rt rb false off n sz s) := by
  have store : opStore c rt rb false off n sz s =
      goOn c (dataWrite c (memAddr c rb off s) (leBytes n (getW c rt s).toNat) s) :=
    (if_neg Bool.false_ne_true).trans (dataCheck_may may)
  obtain ⟨-, stored⟩ := writeOk_dataWrite inv clean core memory
  exact store ▸ (calm_goOn ..).stored (stored accepted)

theorem seen_opXchg {sx : Bool} (inv : Inv s) (clean : Clean s) (core : c < 13)
    (memory : InMemory (named c (memAddr c rb off s) s)) :
    SeenBut (named c (memAddr c rb off s) s) 4 s (opXchg c rt rb sx off s) := by
  unfold opXchg
  split
  · exact (calm_trap ..).seenBut
  · refine seen_dataCheck ?_
    dsimp only
    split
    · exact (calm_loadTrap ..).seenBut
    · next reach =>
      obtain ⟨u, target, unit⟩ := named_memory memory
      obtain ⟨readInv, read, good⟩ := readOk_coreRead (n := 4) inv clean core memory
      split
      · exact read.all.trans (calm_loadTrap ..).seenBut
      · next done =>
        generalize coreRead c (memAddr c rb off s).toNat 4 s = d at readInv read good done ⊢
        have again : resolve (coreRq c d.1) (memAddr c rb off s).toNat d.1 = some (named c (memAddr c rb off s) s) :=
          (resolve_plain (xchgReach_plain (by simpa using reach)) d.1 s).trans target
        obtain ⟨wrote, -⟩ := writeOk_busWrite (bytes := leBytes 4 (getW c rt d.1).toNat) readInv
          (good (not_not.1 done)) again unit
        have written : SeenBut (named c (memAddr c rb off s) s) 4 s
            (coreWriteTo c (memAddr c rb off s).toNat (leBytes 4 (getW c rt d.1).toNat) d.1).1 := by
          rw [coreWriteTo, if_neg core.ne]
          exact read.all.trans (wrote.mono (le_refl _) (by rw [length_leBytes]; omega))
        have ends : ∀ t w, Calm t (goOn c (setW c rt w (tally c 4 (dataOcc c (memAddr c rb off s) t)
            (tally c 3 (dataOcc c (memAddr c rb off s) t) t)))) := fun t w =>
          ((calm_tally ..).trans (calm_tally ..)).trans ((calm_setW ..).trans (calm_goOn ..))
        split
        · exact written.trans (ends ..).seenBut
        · exact written.trans (calm_loadTrap ..).seenBut
        · exact written.trans ((calm_updCpu ..).trans (ends ..)).seenBut

end

section
variable {c xd xa xb sel : Nat} {s : State}

theorem seen_opV {p n fn : Nat} {vs un : List Nat} {f : State → State} (seen : SeenBut p n s (f s)) :
    SeenBut p n s (opV c xd xa xb sel fn vs un f s) := by
  unfold opV
  split
  exacts [(calm_trap ..).seenBut, seen]

theorem seen_opVld (inv : Inv s) (clean : Clean s) (core : c < 13) (memory : InMemory (named c (getW c xa s) s)) :
    SeenBut 0 0 s (opVld c xd xa xb sel s) :=
  seen_opV (seen_dataCheck (seen_dataRead inv clean core memory fun _ _ => (calm_updCpu ..).trans (calm_vecOn ..)))

theorem seen_opVst (inv : Inv s) (clean : Clean s) (core : c < 13) (memory : InMemory (named c (getW c xa s) s)) :
    SeenBut (named c (getW c xa s) s) 32 s (opVst c xd xa xb sel s) := by
  obtain ⟨seen, -⟩ := writeOk_dataWrite (b := (getV c xd s).flatMap fun w => leBytes 4 w.toNat) inv clean core memory
  exact seen_opV (seen_dataCheck ((seen.mono (le_refl _) (by omega)).trans (calm_vecOn ..).seenBut))

end

/-- Settles O57: a fetch and a read retire entries, which leaves the bytes that are seen; a narrow store changes its bytes of its word's
entry, a wide one its own words; no trap and no counter touches memory. -/
theorem memoryFrame : Obligations.MemoryFrame := by
  unfold Obligations.MemoryFrame
  rintro c rt rb sx off s inv ⟨core, issues, memory, unmarked⟩
  have clean : Clean s := fun a => by simp [State.eccAt, unmarked, natFind]
  obtain ⟨fInv, fetches, good⟩ := readOk_fetch inv clean core memory
  have fClean := good issues.2
  refine ⟨fetches, fun data => ?_, fun data xb sel => ?_, fun data accepted => ?_, fun data accepted => ?_, fun data accepted => ?_⟩
  · have load : ∀ n sx, SeenBut 0 0 s (opLoad c rt rb off n sx (fetched c s)) := fun n sx =>
      fetches.trans (seen_opLoad fInv fClean core data)
    have store : ∀ n sz, SeenBut (dataAt c rb off s) n s (opStore c rt rb sx off n sz (fetched c s)) := fun n sz =>
      fetches.all.trans (seen_opStore fInv fClean core data)
    exact ⟨⟨_, next_isa issues rfl, load 1 true⟩, ⟨_, next_isa issues rfl, load 1 false⟩, ⟨_, next_isa issues rfl, load 2 true⟩,
      ⟨_, next_isa issues rfl, load 2 false⟩, ⟨_, next_isa issues rfl, load 4 false⟩, ⟨_, next_isa issues rfl, store 1 0⟩,
      ⟨_, next_isa issues rfl, store 2 1⟩, ⟨_, next_isa issues rfl, store 4 2⟩,
      ⟨_, next_isa issues rfl, fetches.all.trans (seen_opXchg fInv fClean core data)⟩⟩
  · exact ⟨⟨_, next_isa issues rfl, fetches.trans (seen_opVld fInv fClean core data)⟩,
      ⟨_, next_isa issues rfl, fetches.all.trans (seen_opVst fInv fClean core data)⟩⟩
  · exact ⟨_, next_isa issues rfl, stored_opStore fInv fClean core data accepted.1 accepted.2⟩
  · exact ⟨_, next_isa issues rfl, stored_opStore fInv fClean core data accepted.1 accepted.2⟩
  · exact ⟨_, next_isa issues rfl, stored_opStore fInv fClean core data accepted.1 accepted.2⟩

end Sys2Proof.Machine

namespace Sys2Proof.Machine

/-! # What every command and every period keep: the queue, the seal, the record numbers and the revocations -/

/-- A step runs the queue's front command with the rest, or passes a period; either keeps what `Keeps` names, taken against the
state without that command. -/
theorem keeps_step {s t : State} (step : step s = .next t) :
    ∃ rest, Keeps { s with pending := rest } t := by
  cases front : s.pending with
  | nil =>
    rw [step_of_pending_nil front] at step
    injection step with period
    exact ⟨s.pending, period ▸ (Keeps.refl s).tick⟩
  | cons command rest =>
    rw [step_of_pending_cons front] at step
    exact ⟨rest, Keeps.exec step⟩

/-- Settles O58: no command unseals the cellar, lowers its record number or unfuses a revocation, and no period does. -/
theorem recordsAndKeysLast : Obligations.RecordsAndKeysLast := by
  unfold Obligations.RecordsAndKeysLast
  intro s t step
  obtain ⟨rest, -, -, ⟨sealed, records⟩, revoked⟩ := keeps_step step
  exact ⟨sealed, records, revoked⟩

/-- Settles O4: every command keeps the queue. -/
theorem commandsLeaveQueue : Obligations.CommandsLeaveQueue := by
  unfold Obligations.CommandsLeaveQueue
  intro c s t run
  obtain ⟨-, queue, -⟩ := Keeps.exec run
  exact queue

/-- Settles O1: the definition of `step` on a queue with a front. -/
theorem stepRunsFrontCommand : Obligations.StepRunsFrontCommand := by
  unfold Obligations.StepRunsFrontCommand
  exact fun _ _ _ => step_of_pending_cons rfl

end Sys2Proof.Machine

namespace Sys2Proof.Machine

/-! # Statements that some states contradict

Each of these statements leaves out a condition that a path of the model tests. A state of which Inv holds (but for the last, which
says so) shows the difference in one observable value. -/

set_option Elab.async false

/-- SC at level K. -/
def keeper : Rq := .core 12 .k

/-! ## A write to a register of the gated system domain waits, whoever makes it (R380) -/

/-- After reset, but with the system domain's clock gated. -/
def gatedDomain : State := State.reset.set CRP_CLK_STAT_sys_gated 1

theorem inv_gatedDomain : Inv gatedDomain := (Keeps.refl State.reset).set.1 resetMeetsInv

/-- Core 0's write of an OWN field of OWN_POLICY waits at the port. -/
theorem own_write_waits :
    (gated (.core 0 .s) OWN_POLICY [(0, 1, .own)] 1 (fun s => s) gatedDomain).waits.length = 1 := by
  decide +kernel

/-- Refutes O53: the statement's refusal does not except a write that waits at the port of the gated domain. -/
theorem not_ownFields : ¬ Obligations.OwnFields := by
  unfold Obligations.OwnFields
  rintro ⟨-, -, refused⟩
  have same := congrArg (fun s : State => s.waits.length) (refused (.core 0 .s) OWN_POLICY 0 1 1 (fun s => s) gatedDomain rfl
    (by decide) (by decide) (by decide +kernel) (by decide +kernel))
  have waits := own_write_waits.symm.trans same
  revert waits
  decide +kernel

/-! ## START keeps the mark of a retirement without barrier (R355, log 115) -/

/-- After reset, but channel 0's last descriptor has retired without a barrier, so that its last write may still fail. -/
def looseChannel : State := updDma 0 (fun d => { d with loose := true }) State.reset

theorem inv_looseChannel : Inv looseChannel := (Keeps.refl State.reset).updDma.1 resetMeetsInv

theorem sent_start_looseChannel : Sent keeper (DMA_CH_CMD 0) DMA_CH_CMD_fs (dmaWord 0 1) looseChannel := by decide +kernel

theorem loose_after_start :
    ((gated keeper (DMA_CH_CMD 0) DMA_CH_CMD_fs (dmaWord 0 1) (wrDmaCmd 0 (dmaWord 0 1)) looseChannel).dch 0).loose = true := by
  decide +kernel

/-- Refutes O41: START keeps the mark that a retirement without barrier came before it; the statement clears the whole channel. -/
theorem not_dmaCommands : ¬ Obligations.DmaCommands := by
  unfold Obligations.DmaCommands
  rintro ⟨start, -⟩
  have same := start keeper 0 looseChannel sent_start_looseChannel (.inl (by decide +kernel))
  injection same with same
  have loose := loose_after_start.symm.trans (congrArg (fun s : State => (s.dch 0).loose) same)
  revert loose
  decide +kernel

/-! ## A pin that is disabled keeps the mark of its last limited update (R436) -/

/-- After reset, but pin 0's last update was limited. -/
def clampedPin : State := State.reset.set (HKD_STAT_clamped 0) 1

theorem inv_clampedPin : Inv clampedPin := (Keeps.refl State.reset).set.1 resetMeetsInv

theorem clamped_after_disable :
    (gated keeper (HKD_CTRL 0) HKD_CTRL_fs (force 0 (HKD_CTRL_en 0) 0) (wrHkdCtrl 0 (force 0 (HKD_CTRL_en 0) 0)) clampedPin).get
      (HKD_STAT_clamped 0) = 1 := by
  decide +kernel

/-- Refutes O44: HKD_DISABLE leaves the pin's bit `clamped`, which the statement clears. -/
theorem not_pinsAndHousekeeping : ¬ Obligations.PinsAndHousekeeping := by
  unfold Obligations.PinsAndHousekeeping
  rintro ⟨-, -, -, -, -, -, disable, -⟩
  have same := disable keeper 0 0 clampedPin (by decide +kernel)
  injection same with same
  have clamped := clamped_after_disable.symm.trans (congrArg (fun s : State => s.get (HKD_STAT_clamped 0)) same)
  revert clamped
  decide +kernel

/-! ## A target that has met the time limit answers the next access with ERR_TIMEOUT (log 172) -/

/-- After reset, but SC's last access to STO_ARG met the time limit. -/
def stuckTarget : State := { State.reset with stuck := [(keeper, STO_ARG)] }

theorem inv_stuckTarget : Inv stuckTarget := resetMeetsInv

theorem timeout_at_stuckTarget : (writeCmd keeper STO_ARG (leBytes 4 5) stuckTarget).reply.code = .timeout := by decide +kernel

/-- Refutes O40: the statement of a plain register write does not except a requester's first access after a time limit at that
register. -/
theorem not_memoryAndBus : ¬ Obligations.MemoryAndBus := by
  unfold Obligations.MemoryAndBus
  rintro ⟨-, -, -, -, -, -, -, plain, -⟩
  have same := plain keeper STO_ARG 5 stuckTarget (by decide) (by decide) (by decide) (by decide +kernel)
  injection same with same
  have code := timeout_at_stuckTarget.symm.trans (congrArg (fun s : State => s.reply.code) same)
  revert code
  decide +kernel

/-! ## The window of the cellar in safe hold (R402, log 113) -/

/-- SC has been released, and the part stays in safe hold. -/
def safeHold : State := { State.reset.set CRP_ATTIC_STAT_hold 1 with rst := { State.reset.rst with released := true } }

theorem inv_safeHold : Inv safeHold :=
  have hold : Inv (State.reset.set CRP_ATTIC_STAT_hold 1) := (Keeps.refl State.reset).set.1 resetMeetsInv
  hold

theorem host_limited_in_safeHold : (celWrite .host CEL_STAT 0 safeHold).reply.code = .state := by decide +kernel

/-- Refutes O49: in safe hold the management interface's write to the cellar's window ends REFUSED_STATE before the owner is judged,
which the statement of the refusal does not except. -/
theorem not_cellarRecords : ¬ Obligations.CellarRecords := by
  unfold Obligations.CellarRecords
  rintro ⟨-, -, -, -, -, -, -, -, -, -, -, -, -, -, -, -, -, -, -, -, -, -, -, refused, -⟩
  have same := refused .host 0 0 safeHold (by decide) (by decide) (by decide +kernel) (by decide +kernel) (by decide +kernel)
  injection same with same
  have code := host_limited_in_safeHold.symm.trans (congrArg (fun s : State => s.reply.code) same)
  revert code
  decide +kernel

/-! ## A hatch write that begins below the secret window and reaches into it (R462, R559) -/

/-- The hatch is open to NARROW, and the secret window is the second 4 KiB. -/
def narrowHatch : State :=
  ((State.reset.set OWN_HATCH_STAT_level 1).set OWN_SECRET_LO_base 1).set OWN_SECRET_HI_end 2

theorem inv_narrowHatch : Inv narrowHatch := (Keeps.refl State.reset).set.set.set.1 resetMeetsInv

theorem zeroised_by_straddling_write : (hatchRun 0x20 (hatchWrite 4094 0) narrowHatch).get OWN_ZERO_zeroised = 1 := by
  decide +kernel

/-- Refutes O37: the statement's write at NARROW begins outside the secret window, but its four bytes may reach into it, and then it
zeroises. -/
theorem not_outsideAccesses : ¬ Obligations.OutsideAccesses := by
  unfold Obligations.OutsideAccesses
  rintro ⟨-, -, -, -, -, -, -, -, -, -, -, narrow, -⟩
  have same := narrow 4094 0 narrowHatch (by decide +kernel) (by decide +kernel) (by decide +kernel) (by decide +kernel)
  injection same with same
  have zeroised := zeroised_by_straddling_write.symm.trans (congrArg (fun s : State => s.get OWN_ZERO_zeroised) same)
  revert zeroised
  decide +kernel

/-! ## A pin's limits at their reset word, listed

The registers are a list of the words that differ from reset; no write leaves a word at its reset value there (RegsOk), but a state
may list one. -/

/-- After reset, with the reset word of pin 0's limits listed. -/
def listedReset : State := { State.reset with regs := [(GRD_PIN_LIM 0, resetWord (GRD_PIN_LIM 0))] }

/-- The write of the word that is there is none: the list stays. -/
theorem listed_after_equal_write :
    (gated keeper (GRD_PIN_LIM 0) GRD_PIN_LIM_fs 0 (wrPinLim 0 0) listedReset).regs.length = 1 := by decide +kernel

/-- Refutes O45, in a state that does not meet RegsOk, which the statement does not ask for: limits written as they are leave the
register list, where the statement stores them again, which takes a listed reset word out. -/
theorem not_guardLimits : ¬ Obligations.GuardLimits := by
  unfold Obligations.GuardLimits
  rintro ⟨tighter, -⟩
  have same := tighter keeper 0 0 listedReset (by decide) (by decide +kernel) (by decide) (by decide +kernel) (by decide +kernel)
  injection same with same
  have listed := listed_after_equal_write.symm.trans (congrArg (fun s : State => s.regs.length) same)
  revert listed
  decide +kernel

end Sys2Proof.Machine

namespace Sys2Proof.Machine

/-! # The fabric: an announcement of the own address, and a reply without payload -/

set_option Elab.async false

/-- FAB port 8 carries code groups, its link is enabled, and the own address is 7, fixed. -/
def fabricPort : State :=
  { ((State.reset.set SNK_LINK_EN_en 0x100).set SNK_ADDR_addr 7).set SNK_ADDR_mode 1 with
    snk := { State.reset.snk with fab := [{ st := 6 }, { st := 6 }] } }

theorem inv_fabricPort : Inv fabricPort :=
  have settings : Inv (((State.reset.set SNK_LINK_EN_en 0x100).set SNK_ADDR_addr 7).set SNK_ADDR_mode 1) :=
    (Keeps.refl State.reset).set.set.set.1 resetMeetsInv
  settings

theorem heard_fabricPort : CrateHeard 8 fabricPort := by decide +kernel

/-- A crate's bytes on the link: header and payload, then its CRC (R475). -/
def onLink (c : List Byte) : List Byte := c ++ leBytes 4 (crc32 c)

/-- An announcement (type 1) of another device that has address 7 as a fixed one too, to address 9, on its last hop. -/
def rivalCrate : List Byte := onLink (cSet (mkCrate 1 2 9 1 (List.replicate 36 1)) 4 7)

theorem wellMade_rivalCrate : WellMade rivalCrate := by decide +kernel

theorem conflict_after_rivalCrate : (crateIn 8 rivalCrate 0 fabricPort).get SNK_ADDR_conflict = 1 := by decide +kernel

theorem exec_crateRxUnicast {l : Fin 10} {c : List Byte} {age : Nat} {s : State} (unicast : cBcast c = false) :
    exec (.crateRxUnicast l c age) s = .next (crateIn l c age s) :=
  congrArg Host.Outcome.next (if_neg (by simp [unicast]))

theorem exec_rreplyRx {l : Fin 10} {c : List Byte} {s : State} (reply : arrives 4 c = true) :
    exec (.rreplyRx l c) s = .next (crateIn l c 0 s) :=
  congrArg Host.Outcome.next (if_pos reply)

/-- Refutes O34: a unicast crate of type 1 is judged for a collision of addresses before it is forwarded or discarded, which the
statement leaves out. -/
theorem not_fabricLinks : ¬ Obligations.FabricLinks := by
  unfold Obligations.FabricLinks
  rintro ⟨-, -, -, -, -, -, -, lastHop, -⟩
  have unicast : cBcast rivalCrate = false := by decide +kernel
  have same := (exec_crateRxUnicast unicast).symm.trans (lastHop 8 rivalCrate 0 fabricPort heard_fabricPort wellMade_rivalCrate
    unicast (by decide +kernel) (by decide +kernel) (by decide +kernel))
  injection same with same
  have conflict := conflict_after_rivalCrate.symm.trans (congrArg (fun s : State => s.get SNK_ADDR_conflict) same)
  revert conflict
  decide +kernel

/-- The port with a remote read under way at device 9, whose request had the sequence number 0. -/
def awaitedReply : State := { fabricPort with snk := { fabricPort.snk with rra := some (0, 9, true) } }

theorem inv_awaitedReply : Inv awaitedReply := inv_fabricPort

/-- Device 9's reply without payload. -/
def emptyReply : List Byte := onLink (cSet (mkCrate 4 2 7 1 []) 4 9)

theorem wellMade_emptyReply : WellMade emptyReply := by decide +kernel

/-- The outcome that the engine takes from the payload's first byte is that of a byte which is not there. -/
theorem outcome_after_emptyReply : (crateIn 8 emptyReply 0 awaitedReply).get SNK_RRA_RESULT_outcome = Code.done.n := by
  decide +kernel

/-- Refutes O35: the statement reads a reply's outcome from byte 8 of what arrives, which in a reply without payload is the first byte
of the CRC and not of the payload. -/
theorem not_fabricSending : ¬ Obligations.FabricSending := by
  unfold Obligations.FabricSending
  rintro ⟨-, -, -, -, -, -, -, -, -, reply, -⟩
  have same := (exec_rreplyRx (by decide +kernel)).symm.trans (reply 8 emptyReply awaitedReply heard_fabricPort wellMade_emptyReply
    (by decide +kernel) (by decide +kernel) (by decide +kernel) (by decide +kernel))
  injection same with same
  have outcome := outcome_after_emptyReply.symm.trans (congrArg (fun s : State => s.get SNK_RRA_RESULT_outcome) same)
  revert outcome
  decide +kernel

end Sys2Proof.Machine

namespace Sys2Proof.Machine

/-! # A write from outside that is not the owner's (R12, R448, R452) -/

/-! ## What an entry of the refusal log leaves -/

theorem rd_flagLimited_ne {f : Fd} {e gap b : Nat} (s : State) (router : ¬Router b) (flag : f.a ≠ b) :
    (s.flagLimited f e gap).rd b = s.rd b := by
  unfold State.flagLimited
  dsimp only
  split
  · exact (rd_raise _ e router).trans (rd_set_ne s 1 flag)
  · exact rd_set_ne s 1 flag

@[simp] theorem bare_flagLimited (f : Fd) (e gap : Nat) (s : State) : (s.flagLimited f e gap).bare = s.bare := by
  unfold State.flagLimited
  dsimp only
  split
  · exact bare_raise ..
  · rfl

/-- The registers of OWN. -/
def OwnReg (a : Nat) : Prop := 0x40700000 ≤ a ∧ a < 0x40709000

/-- The refusal log lies in OWN's registers: no other but the router's sees an entry. -/
theorem rd_logRefusal {b : Nat} (router : ¬Router b) (own : ¬OwnReg b) (q : Rq) (a : Nat) (c : Code) (s : State) :
    (logRefusal q a c s).rd b = s.rd b := by
  have outside : ∀ {x : Nat}, OwnReg x → x ≠ b := fun hx same => own (same ▸ hx)
  have index : s.get OWN_RLOG_STAT_next < 64 := fieldOf_lt ..
  unfold logRefusal
  generalize s.get OWN_RLOG_STAT_next = i at index ⊢
  dsimp only
  rw [rd_flagLimited_ne _ router, addSat_rd_ne, rd_set_ne, rd_wr_ne, rd_wr_ne, rd_wr_ne, rd_wr_ne] <;>
    refine outside ?_ <;>
    simp only [OwnReg, OWN_EVT_refusal, OWN_EVT, OWN_RLOG_STAT_total, OWN_RLOG_STAT_next, OWN_RLOG_STAT, OWN_RLOG_ADDR, OWN_RLOG_SEC,
      OWN_RLOG_INFO, OWN_RLOG_FRAC] <;>
    omega

@[simp] theorem bare_logRefusal (q : Rq) (a : Nat) (c : Code) (s : State) : (logRefusal q a c s).bare = s.bare := bare_flagLimited ..

/-! ## What a completion leaves -/

theorem quiet_completed (q : Rq) (a : Nat) (b : Bool) (c : Code) (s : State) : Quiet s (completed q a b c s) := (Quiet.refl s).completed

@[simp] theorem bare_completed (q : Rq) (a : Nat) (b : Bool) (c : Code) (s : State) : (completed q a b c s).bare = s.bare :=
  (quiet_completed ..).2.1

/-- What every step of a loop leaves, the loop leaves. -/
theorem foldl_fixes {α β γ : Type} (view : β → γ) {f : β → α → β} (l : List α) (b : β) (h : ∀ b x, view (f b x) = view b) :
    view (l.foldl f b) = view b := by
  induction l generalizing b with
  | nil => rfl
  | cons x l ih => exact (ih _).trans (h b x)

theorem reply_setPend (e : Nat) (s : State) : (setPend e s).reply = s.reply := by
  unfold setPend sendIbi
  split <;> rfl

theorem reply_cntWrap (c j : Nat) (o : Occ) (s : State) : (cntWrap c j o s).1.reply = s.reply := by
  unfold cntWrap
  dsimp only
  split <;> rfl

theorem reply_cntAdd (c evt n : Nat) (o : Occ) (s : State) : (cntAdd c evt n o s).1.reply = s.reply := by
  refine foldl_fixes (fun p : State × List Nat => p.1.reply) _ _ fun p j => ?_
  dsimp only
  split
  · split
    · rfl
    · exact reply_cntWrap ..
  · rfl

theorem reply_pmcAdd (evt n : Nat) (m : Option Nat) (o : Occ) (s : State) : (pmcAdd evt n m o s).1.reply = s.reply := by
  unfold pmcAdd
  split
  · rfl
  · refine foldl_fixes (fun p : State × List Nat => p.1.reply) _ _ fun p j => ?_
    dsimp only
    split
    · split <;> rfl
    · rfl

theorem reply_raiseN (n e : Nat) (s : State) : (raiseN n e s).reply = s.reply := by
  induction n generalizing e s with
  | zero => exact reply_setPend e s
  | succ n ih =>
    unfold raiseN
    dsimp only
    rw [foldl_fixes State.reply _ _ fun s e => ih e s, reply_pmcAdd]
    split
    · exact reply_setPend e s
    · rw [← reply_setPend e s]
      exact foldl_fixes (fun p : State × List Nat => p.1.reply) (List.range 13) (setPend e s, []) fun p c =>
        reply_cntAdd c 13 1 { cls := some (evClass e) } p.1

@[simp] theorem reply_raise (s : State) (e : Nat) : (s.raise e).reply = s.reply := reply_raiseN 40 e s

@[simp] theorem reply_pmcCount (evt n : Nat) (m : Option Nat) (o : Occ) (s : State) : (pmcCount evt n m o s).reply = s.reply :=
  (foldl_fixes State.reply _ _ reply_raise).trans (reply_pmcAdd ..)

/-- The counters that hear of a completion leave its reply. -/
@[simp] theorem reply_completed (q : Rq) (a : Nat) (b : Bool) (c : Code) (s : State) : (completed q a b c s).reply = s.reply := by
  unfold completed
  dsimp only
  split
  · exact reply_pmcCount ..
  · split
    · exact reply_pmcCount ..
    · rfl

/-! ## The judgement -/

/-- Only a core takes a privilege trap for a refused write. -/
theorem gated_outside {q : Rq} (outside : q.cls ≠ 0) (a : Nat) (fs : List (Nat × Nat × Acc)) (w : Word) (hook : State → State)
    (s : State) : gated q a fs w hook s = gatedBus q a fs w hook s := by
  have untrapped : refusedCore q (writeGate q a fs w s) = none := by
    unfold refusedCore
    split
    · exact absurd rfl outside
    · rfl
  rw [gated, untrapped, raisePriv]

/-- A write that is not the owner's does not reach its register. -/
theorem writeGate_outside {q : Rq} {a : Nat} {fs : List (Nat × Nat × Acc)} {w : Word} {s : State} (outside : q.cls ≠ 0)
    (other : isOwner q s = false) (closed : openWrite a = false) :
    writeGate q a fs w s =
      if q = .host && !mgmtAlive s then .silent
      else if a % 4 ≠ 0 then .code .align
      else if fencedAt a s then .code .fenced
      else if portWaits a s then .wait
      else if mgmtLimits q a s then .code .state
      else .refuse := by
  simp only [writeGate, outside, other, closed, ne_eq, not_false_eq_true, decide_true, Bool.not_false, Bool.and_self, if_true]

/-- What such a write leaves as it was, in a state t that it may lead to: all but the refusal log, counters, pending bits and the
reply. -/
def Unmoved (s t : State) : Prop := t.bare = s.bare ∧ ∀ b, ¬Router b → ¬OwnReg b → t.rd b = s.rd b

theorem Unmoved.of_quiet {s t : State} (quiet : Quiet s t) : Unmoved s t := ⟨quiet.2.1, fun _ router _ => quiet.1 _ router⟩

/-- A write that completes with a code at once. -/
theorem unmoved_coded (q : Rq) (a : Nat) (c : Code) (s : State) : Unmoved s (completed q a true c ((request q a s).ret c)) :=
  .of_quiet (Quiet.refl s).request.ret.completed

/-- A write that is refused and logged. -/
theorem unmoved_refused (q : Rq) (a : Nat) (s : State) :
    Unmoved s (completed q a true .notOwner (refuseLog q a .notOwner (request q a s))) := by
  refine ⟨by rw [bare_completed, refuseLog, bare_ret, bare_logRefusal, bare_request], fun b router own => ?_⟩
  calc (completed q a true .notOwner (refuseLog q a .notOwner (request q a s))).rd b
      = (logRefusal q a .notOwner (request q a s)).rd b := (quiet_completed ..).rd router
    _ = (request q a s).rd b := rd_logRefusal router own ..
    _ = s.rd b := rd_request q a s router

/-- Settles O59: the gate of such a write never lets it through; each of its other answers leaves all that the statement names. -/
theorem outsideWrites : Obligations.OutsideWrites := by
  unfold Obligations.OutsideWrites
  intro q a fs w hook s outside other closed
  rw [gated_outside outside, gatedBus, writeGate_outside outside other closed]
  have settled : ∀ {t : State}, Unmoved s t →
      { t.bare with waits := [] } = { s.bare with waits := [] } ∧ (portWaits a s = false → t.waits = s.waits) ∧
        ∀ b, ¬Router b → ¬(0x40700000 ≤ b ∧ b < 0x40709000) → t.rd b = s.rd b := by
    rintro t ⟨bare, regs⟩
    have waits := congrArg State.waits bare
    exact ⟨by rw [bare], fun _ => waits, regs⟩
  refine ⟨?_, fun answers aligned unfenced clocked unlimited => ?_⟩
  · split_ifs with silent misaligned fenced waits limited
    · exact settled (.of_quiet (.refl s))
    · exact settled (unmoved_coded ..)
    · exact settled (unmoved_coded ..)
    · exact ⟨rfl, fun clocked => absurd waits (by simp [clocked]), fun _ _ _ => rfl⟩
    · exact settled (unmoved_coded ..)
    · exact settled (unmoved_refused ..)
  · simp [answers, aligned, unfenced, clocked, unlimited, refuseLog, State.ret]

end Sys2Proof.Machine

namespace Sys2Proof.Machine

/-! # Ownership (R449 to R451) -/

/-! ## What an accepted access leaves above the router's registers -/

section
variable {q : Rq} {b : Nat} {s : State}

/-- The registers of memory, DMA, storage, fabric, ownership and the cellar lie between the router's. -/
theorem not_router_of_mid {a : Nat} (mid : 0x40300040 ≤ a ∧ a < 0x40A00000) : ¬Router a := by
  rintro (⟨-, high⟩ | ⟨low, -⟩) <;> omega

theorem rd_request_mid {a : Nat} (mid : 0x40300040 ≤ a ∧ a < 0x40A00000) : (request q b s).rd a = s.rd a :=
  rd_request q b s (not_router_of_mid mid)

theorem get_request_mid {f : Fd} (mid : 0x40300040 ≤ f.a ∧ f.a < 0x40A00000) : (request q b s).get f = s.get f :=
  get_request q b s (not_router_of_mid mid)

theorem on_request_mid {f : Fd} (mid : 0x40300040 ≤ f.a ∧ f.a < 0x40A00000) : (request q b s).on f = s.on f :=
  on_request q b s (not_router_of_mid mid)

theorem chg_request_mid {f : Fd} {w : Word} (mid : 0x40300040 ≤ f.a ∧ f.a < 0x40A00000) : (request q b s).chg w f = s.chg w f := by
  simp only [State.chg, get_request_mid mid]

variable (r : Rq)

theorem mayClaim_request (cls : Nat) : mayClaim cls (request q b s) = mayClaim cls s := by
  simp only [mayClaim, get_request_mid (q := q) (b := b) (s := s) (f := OWN_POLICY_claim_mask) (by decide)]

theorem owner_request : (request q b s).get OWN_STAT_owner = s.get OWN_STAT_owner := get_request_mid (by decide)

theorem isOwner_request : isOwner r (request q b s) = isOwner r s := by
  simp only [isOwner, owner_request, get_request_mid (q := q) (b := b) (s := s) (f := OWN_STAT_addr) (by decide)]

theorem ownRight_request : ownRight r (request q b s) = ownRight r s := by simp only [ownRight, isOwner_request]

theorem hoPend_request : (request q b s).on OWN_STAT_ho_pend = s.on OWN_STAT_ho_pend := on_request_mid (by decide)

theorem isNamed_request : isNamed r (request q b s) = isNamed r s := by
  simp only [isNamed, get_request_mid (q := q) (b := b) (s := s) (f := OWN_STAT_succ) (by decide),
    get_request_mid (q := q) (b := b) (s := s) (f := OWN_HANDOVER_succ_addr) (by decide)]

end

/-! ## The commands, branch by branch -/

section
variable {q : Rq} {s : State}

theorem wrClaim_range {w : Word} (other : w ≠ 0x0C1A) : wrClaim q w s = ownRefuse q OWN_CLAIM .range s := if_pos other

theorem wrClaim_notOwner (may : mayClaim q.cls s = false) : wrClaim q 0x0C1A s = ownRefuse q OWN_CLAIM .notOwner s := by
  simp [wrClaim, may]

/-- A class that may claim, HATCH at FULL only. -/
theorem wrClaim_may (may : mayClaim q.cls s = true) (full : q = .hatch → s.get OWN_HATCH_STAT_level = 2) :
    wrClaim q 0x0C1A s =
      if s.get OWN_STAT_owner ≠ 0 then ownRefuse q OWN_CLAIM .state s else (leaseStart (setOwner q.cls q.faddr s)).ret .done := by
  have open_ : ¬((!mayClaim q.cls s || (decide (q = .hatch) && decide (s.get OWN_HATCH_STAT_level ≠ 2))) = true) := by
    simpa [may] using full
  rw [wrClaim, if_neg (by simp), if_neg open_]

/-- A renewal while there is an owner. -/
theorem wrLease_renew (owned : s.get OWN_STAT_owner ≠ 0) :
    wrLease q (force 0 OWN_LEASE_renew 1) s =
      if isOwner q s = true then (leaseStart s).ret .done else ownRefuse q OWN_LEASE .notOwner s := by
  have renew : wf (force 0 OWN_LEASE_renew 1) OWN_LEASE_renew ≠ 0 := by decide
  rw [wrLease, if_neg renew, if_neg owned]

theorem owner_ne_zero_of_isOwner (owner : isOwner q s = true) : s.get OWN_STAT_owner ≠ 0 := by
  simp only [isOwner, Bool.and_eq_true, decide_eq_true_eq] at owner
  obtain ⟨⟨outside, same⟩, -⟩ := owner
  exact same ▸ outside

variable {w : Word} (right : ownRight q s = true)
include right

theorem wrHandover_unowned (free : s.get OWN_STAT_owner = 0) : wrHandover q w s = s.ret .state := by
  simp [wrHandover, right, free]

variable (owned : s.get OWN_STAT_owner ≠ 0)
include owned

theorem wrHandover_cancel (pend : s.on OWN_STAT_ho_pend = true) (none : wf w OWN_HANDOVER_succ = 0) :
    wrHandover q w s = (hoEnd .aborted 1 (s.store OWN_HANDOVER OWN_HANDOVER_fs w)).ret .done := by
  simp [wrHandover, right, owned, pend, none]

variable (idle : s.on OWN_STAT_ho_pend = false)
include idle

theorem wrHandover_range (may : mayClaim (wf w OWN_HANDOVER_succ) s = false) : wrHandover q w s = hoNow .range s := by
  simp [wrHandover, right, owned, idle, may]

theorem wrHandover_held (may : mayClaim (wf w OWN_HANDOVER_succ) s = true)
    (other : wf w OWN_HANDOVER_succ ≠ s.get OWN_STAT_owner ∨
      (wf w OWN_HANDOVER_succ = 2 ∧ wf w OWN_HANDOVER_succ_addr ≠ s.get OWN_STAT_addr)) :
    wrHandover q w s = hoNow .held
      (((s.store OWN_HANDOVER OWN_HANDOVER_fs w).set OWN_STAT_succ (wf w OWN_HANDOVER_succ)).set OWN_STAT_ho_pend 1) := by
  have another : (decide (wf w OWN_HANDOVER_succ = s.get OWN_STAT_owner) &&
      (decide (wf w OWN_HANDOVER_succ ≠ 2) || decide (wf w OWN_HANDOVER_succ_addr = s.get OWN_STAT_addr))) = false := by
    rcases other with class_ | ⟨fabric, address⟩
    · simp [class_]
    · simp [fabric, address]
  have right' : ¬((!ownRight q s) = true) := by simp [right]
  have pend : ¬(s.on OWN_STAT_ho_pend = true) := by simp [idle]
  have fits : ¬((!mayClaim (wf w OWN_HANDOVER_succ) s || (decide (wf w OWN_HANDOVER_succ = s.get OWN_STAT_owner) &&
      (decide (wf w OWN_HANDOVER_succ ≠ 2) || decide (wf w OWN_HANDOVER_succ_addr = s.get OWN_STAT_addr)))) = true) := by
    rw [may, another]
    decide
  unfold wrHandover
  dsimp only
  rw [if_neg right', if_neg owned, if_neg pend, if_neg fits]

end

section
variable {q : Rq} {s : State} (pend : s.on OWN_STAT_ho_pend = true)
include pend

theorem wrAccept_pend :
    wrAccept q 0x0ACC s =
      if isNamed q s = true then (leaseStart (setOwner q.cls q.faddr (hoEnd .done 0 s))).ret .done
      else ownRefuse q OWN_ACCEPT .notOwner s := by
  cases named : isNamed q s <;> simp [wrAccept, pend, named]

theorem hoEnd_pend (c : Code) (reason : Nat) :
    hoEnd c reason s = ((((s.set OWN_STAT_succ 0).set OWN_STAT_ho_pend 0).set OWN_HO_RESULT_outcome c.n).set OWN_HO_RESULT_reason
      reason) := if_pos pend

end

/-- Settles O31: each command is judged in the state that has accepted its write, in which owner, policy and successor are as
before. -/
theorem ownershipCommands : Obligations.OwnershipCommands := by
  unfold Obligations.OwnershipCommands
  refine ⟨?_, ?_, ?_, ?_, ?_, ?_, ?_, ?_, ?_, ?_, ?_, ?_, ?_, ?_⟩
  · intro q s sent may full free
    have effect := wrClaim_may (q := q) (s := request q OWN_CLAIM s) ((mayClaim_request _).trans may)
      fun hatch => (get_request_mid (by decide)).trans (full hatch)
    rw [owner_request, if_neg (not_not.2 free)] at effect
    exact congrArg Host.Outcome.next (gated_uncounted sent effect (.inl rfl))
  · intro q s sent may full owned
    have effect := wrClaim_may (q := q) (s := request q OWN_CLAIM s) ((mayClaim_request _).trans may)
      fun hatch => (get_request_mid (by decide)).trans (full hatch)
    rw [owner_request, if_pos owned] at effect
    exact congrArg Host.Outcome.next (gated_counted sent effect rfl)
  · intro q w s sent other
    have effect := wrClaim_range (q := q) (s := request q OWN_CLAIM s) other
    exact congrArg Host.Outcome.next (gated_uncounted sent effect (.inr (.inr (.inr rfl))))
  · intro q s sent may
    exact congrArg Host.Outcome.next (gated_counted sent (wrClaim_notOwner ((mayClaim_request _).trans may)) rfl)
  · intro q s sent owner
    have effect := wrLease_renew (q := q) (s := request q OWN_LEASE s) 
      (owner_request.trans_ne (owner_ne_zero_of_isOwner owner))
    rw [isOwner_request, if_pos owner] at effect
    exact congrArg Host.Outcome.next (gated_uncounted sent effect (.inl rfl))
  · intro q s sent owned other
    have effect := wrLease_renew (q := q) (s := request q OWN_LEASE s) (owner_request.trans_ne owned)
    rw [isOwner_request, if_neg (by simp [other])] at effect
    exact congrArg Host.Outcome.next (gated_counted sent effect rfl)
  · intro s owned
    exact congrArg Host.Outcome.next (if_neg owned)
  · intro q w s sent right owned idle may other
    have effect := wrHandover_held (q := q) (s := request q OWN_HANDOVER s) (w := w) ((ownRight_request q).trans right)
      (owner_request.trans_ne owned) (hoPend_request.trans (not_on_of_get idle)) ((mayClaim_request _).trans may)
      (by rwa [owner_request, get_request_mid (f := OWN_STAT_addr) (by decide)])
    exact congrArg Host.Outcome.next (gated_uncounted sent effect (.inr (.inl rfl)))
  · intro q w s sent right free
    exact congrArg Host.Outcome.next
      (gated_counted sent (wrHandover_unowned ((ownRight_request q).trans right) (owner_request.trans free)) rfl)
  · intro q w s sent right owned idle may
    have effect := wrHandover_range (q := q) (s := request q OWN_HANDOVER s) (w := w) ((ownRight_request q).trans right)
      (owner_request.trans_ne owned) (hoPend_request.trans (not_on_of_get idle)) ((mayClaim_request _).trans may)
    exact congrArg Host.Outcome.next (gated_uncounted sent effect (.inr (.inr (.inr rfl))))
  · intro q w s sent right owned pend none
    have effect := wrHandover_cancel (q := q) (s := request q OWN_HANDOVER s) (w := w) ((ownRight_request q).trans right)
      (owner_request.trans_ne owned) (hoPend_request.trans (on_of_get pend)) none
    exact congrArg Host.Outcome.next (gated_uncounted sent effect (.inl rfl))
  · intro q s sent pend named
    have effect := wrAccept_pend (q := q) (s := request q OWN_ACCEPT s) (hoPend_request.trans (on_of_get pend))
    rw [isNamed_request, if_pos named] at effect
    exact congrArg Host.Outcome.next (gated_uncounted sent effect (.inl rfl))
  · intro q s sent pend other
    have effect := wrAccept_pend (q := q) (s := request q OWN_ACCEPT s) (hoPend_request.trans (on_of_get pend))
    rw [isNamed_request, if_neg (by simp [other])] at effect
    exact congrArg Host.Outcome.next (gated_counted sent effect rfl)
  · intro s pend
    exact congrArg Host.Outcome.next (hoEnd_pend (on_of_get pend) .timeout 0)

end Sys2Proof.Machine

namespace Sys2Proof.Machine

/-! # Storage commands and boot-flash transactions (R360 to R363) -/

/-! ## STO_CMD, by its operation -/

section
variable {q : Rq} {op : Nat} {w : Word} {s : State}

theorem wf_stoWord (small : op < 8) : wf (stoWord op w) STO_CMD_op = op := by
  rw [stoWord, wf_force w (by decide)]
  exact Nat.mod_eq_of_lt small

theorem stoRange_request : stoRange (request q STO_CMD s) = stoRange s := by
  simp only [stoRange, get_request_mid (q := q) (b := STO_CMD) (s := s) (f := STO_CNT_cnt) (by decide),
    get_request_mid (q := q) (b := STO_CMD) (s := s) (f := STO_ARG_arg) (by decide)]

/-- RAW to FLUSH. -/
theorem wrStoCmd_starting (low : 1 ≤ op) (high : op ≤ 5) :
    wrStoCmd (stoWord op w) s =
      if s.sto.op ≠ 0 then s.ret .state
      else if 2 ≤ op ∧ op ≤ 4 ∧ !stoRange s then stoNow .range s else stoStart op (stoWord op w) s := by
  rw [wrStoCmd, wf_stoWord (by omega), if_neg (by omega), if_neg (by omega)]

theorem wrStoCmd_stop (moves : s.sto.op = 2 ∨ s.sto.op = 3) :
    wrStoCmd (stoWord 6 w) s = (updSto (fun x => { x with stop := true }) s).ret .done := by
  rw [wrStoCmd, wf_stoWord (by decide), if_neg (by decide), if_pos rfl, if_pos moves]

variable (sent : Sent q STO_CMD STO_CMD_fs (stoWord op w) s)
include sent

/-- A command that finds none running, its sectors in range where it has any. -/
theorem stoWrite_start (low : 1 ≤ op) (high : op ≤ 5) (idle : s.sto.op = 0) (fits : 2 ≤ op → op ≤ 4 → stoRange s = true) :
    stoWrite q op w s = .next (stoStart op (stoWord op w) (request q STO_CMD s)) := by
  have effect := wrStoCmd_starting (w := w) (s := request q STO_CMD s) low high
  rw [request_sto, if_neg (not_not.2 idle), stoRange_request, if_neg (by rintro ⟨two, four, out⟩; simp [fits two four] at out)] at effect
  exact congrArg Host.Outcome.next (gated_uncounted sent effect (.inr (.inl rfl)))

/-- A READ, WRITE or TRIM out of range. -/
theorem stoWrite_range (low : 2 ≤ op) (high : op ≤ 4) (idle : s.sto.op = 0) (out : stoRange s = false) :
    stoWrite q op w s = .next (stoNow .range (request q STO_CMD s)) := by
  have effect := wrStoCmd_starting (w := w) (s := request q STO_CMD s) (by omega : 1 ≤ op) (by omega)
  rw [request_sto, if_neg (not_not.2 idle), stoRange_request, if_pos ⟨low, high, by simp [out]⟩] at effect
  exact congrArg Host.Outcome.next (gated_uncounted sent effect (.inr (.inr (.inr rfl))))

theorem stoWrite_busy (low : 1 ≤ op) (high : op ≤ 5) (busy : s.sto.op ≠ 0) :
    stoWrite q op w s = .next (completed q STO_CMD true .state ((request q STO_CMD s).ret .state)) := by
  have effect := wrStoCmd_starting (w := w) (s := request q STO_CMD s) low high
  rw [request_sto, if_pos busy] at effect
  exact congrArg Host.Outcome.next (gated_counted sent effect rfl)

end

theorem stoRange_of {s : State} (range : s.get STO_CNT_cnt ≠ 0 ∧ s.get STO_ARG_arg + s.get STO_CNT_cnt ≤ 250000000) :
    stoRange s = true := by
  simpa [stoRange] using range

theorem not_stoRange_of {s : State} (range : s.get STO_CNT_cnt = 0 ∨ 250000000 < s.get STO_ARG_arg + s.get STO_CNT_cnt) :
    stoRange s = false := by
  rcases range with none | beyond
  · simp [stoRange, none]
  · simp [stoRange, beyond]

/-! ## A READ's blocks and a command's end -/

section
variable {s : State}

/-- A block of a READ that has blocks left. -/
theorem stoBlockEnd_read (read : s.sto.op = 2) (left : s.get STO_RESULT_blocks < s.sto.cnt) (ok : Bool) (data : List Byte) :
    stoBlockEnd ok data s =
      if !ok then stoFailed s
      else if 4096 < s.sto.rx.length + 512 then s
      else stoPassed (updSto (fun x => { x with rx := x.rx ++ (List.range 512).map fun i => nth data i }) s) := by
  have blocks : stoBlocks s = s.sto.cnt := if_pos (.inl read)
  have reads : stoReads s = true := by simp [stoReads, read]
  rw [stoBlockEnd, blocks, if_neg (not_le.2 left), if_pos reads]

theorem stoPassed_goes (runs : s.sto.stop = false) :
    stoPassed s = (updSto (fun x => { x with tries := 0 }) s).incMod STO_RESULT_blocks := by
  have still : ((updSto (fun x => { x with tries := 0 }) s).incMod STO_RESULT_blocks).sto.stop = false := runs
  exact if_neg fun stop => Bool.noConfusion (still.symm.trans stop)

theorem stoFailed_read (read : s.sto.op = 2) :
    stoFailed s = if s.get STO_CTRL_retries ≤ s.sto.tries then stoEnd .bus 0 s
      else stoSend [(12, 0), (23, s.sto.cnt - s.get STO_RESULT_blocks), (18, s.sto.arg + s.get STO_RESULT_blocks)]
        (updSto (fun x => { x with tries := x.tries + 1 }) s) := by
  have reads : ∀ t : State, t.sto.op = 2 → stoReads t = true := fun t h => by simp [stoReads, h]
  have again : ∀ t : State, t.sto.op = 2 →
      stoAgain t = [(12, 0), (23, t.sto.cnt - t.get STO_RESULT_blocks), (18, t.sto.arg + t.get STO_RESULT_blocks)] :=
    fun t h => if_pos h
  rw [stoFailed]
  dsimp only
  rw [if_pos (reads (updSto (fun x => { x with tries := x.tries + 1 }) s) read),
    again (updSto (fun x => { x with tries := x.tries + 1 }) s) read]
  rfl

variable (runs : s.sto.op ≠ 0)
include runs

/-- A response without an error after the last block. -/
theorem stoCommandEnd_done {resp : List Word} (goes : s.sto.stop = false) (passed : stoBlocks s ≤ s.get STO_RESULT_blocks) :
    stoCommandEnd false resp s = stoEnd .done 0 (stoResp resp s) := by
  rw [stoCommandEnd, if_neg (by simp [runs]), if_neg (by simp), if_neg (by simp [goes]), if_neg (not_lt.2 passed)]

/-- A device status with an error bit set. -/
theorem stoCommandEnd_bus {resp : List Word} (status : stoRespWords s = 1) :
    stoCommandEnd true resp s = stoEnd .bus 0 (stoResp resp s) := by
  rw [stoCommandEnd, if_neg (by simp [runs, status]), if_pos rfl]

theorem stoTimeout_ends (responds : s.sto.rtype ≠ 0) : stoTimeout s = stoEnd .timeout 0 s := if_neg (by simp [runs, responds])

end

/-- A 48-bit response goes to the first word of STO_RESP. -/
theorem stoRespWords_short {s : State} (short : s.sto.rtype = 1 ∨ s.sto.rtype = 2) : stoRespWords s = 1 := by
  rcases short with h | h <;> simp [stoRespWords, h]

theorem stoResp_short {s : State} (short : s.sto.rtype = 1 ∨ s.sto.rtype = 2) (resp : List Word) :
    stoResp resp s = s.wr (STO_RESP 0) (nth resp 0) := by
  rw [stoResp, stoRespWords_short short]
  rfl

/-- No response leaves STO_RESP, and a 136-bit one takes its four words. -/
theorem stoResp_other {s : State} (other : s.sto.rtype = 0 ∨ s.sto.rtype = 3) (resp : List Word) :
    stoResp resp s = if s.sto.rtype = 3 then forN 4 (fun i u => u.wr (STO_RESP i) (nth resp i)) s else s := by
  rcases other with h | h
  · simp [stoResp, stoRespWords, h, forN]
  · simp [stoResp, stoRespWords, h]

/-! ## The boot flash -/

/-- A transaction of legal form while none runs. -/
theorem wrNorCmd_go {w : Word} {s : State} (go : wf w STO_NOR_CMD_go = 1)
    (bytes : wf w STO_NOR_CMD_addr_bytes = 0 ∨ wf w STO_NOR_CMD_addr_bytes = 3 ∨ wf w STO_NOR_CMD_addr_bytes = 4)
    (len : wf w STO_NOR_CMD_len ≤ 256) (dir : wf w STO_NOR_CMD_dir ≠ 3) (idle : s.on STO_NOR_RESULT_busy = false) :
    wrNorCmd w s =
      (let t := (((s.store STO_NOR_CMD STO_NOR_CMD_fs w).set STO_NOR_RESULT_outcome Code.held.n).set STO_NOR_RESULT_reason 0)
      let u := updSto (fun x => { x with norDir := t.get STO_NOR_CMD_dir, norLen := t.get STO_NOR_CMD_len }) t
      ({ (u.set STO_NOR_RESULT_busy 1) with norWave := norSend u } : State).ret .held) := by
  have idle' : ¬(s.on STO_NOR_RESULT_busy = true) := by simp [idle]
  rw [wrNorCmd, if_neg (by rw [go]; decide)]
  dsimp only
  rw [if_neg (by omega), if_neg idle']

theorem norEnd_busy {s : State} (busy : s.on STO_NOR_RESULT_busy = true) (data : List Byte) (changed : List Host.Cell) :
    norEnd data changed s =
      (((((if s.sto.norDir = 1 then
          forN s.sto.norLen (fun b u => norPut b (nth data b) u) { s with flash := flashPut s.flash changed, norWave := [] }
        else { s with flash := flashPut s.flash changed, norWave := [] }).set STO_NOR_RESULT_outcome Code.done.n).set
        STO_NOR_RESULT_reason 0).set STO_NOR_RESULT_busy 0).raise 496) := by
  have open_ : ¬((!s.on STO_NOR_RESULT_busy) = true) := by simp [busy]
  rw [norEnd, if_neg open_]

/-- Settles O42: each command is judged in the state that has accepted its write, in which the running command and the sectors are as
before; a block and an end are read off by the command's operation and response type. -/
theorem storageCommands : Obligations.StorageCommands := by
  unfold Obligations.StorageCommands
  refine ⟨?_, ?_, ?_, ?_, ?_, ?_, ?_, ?_, ?_, ?_, ?_, ?_, ?_⟩
  · intro q w s sent idle
    exact stoWrite_start sent (by decide) (by decide) idle (by omega)
  · intro q s sent idle
    exact stoWrite_start sent (by decide) (by decide) idle (by omega)
  · intro q w s read write trim idle range
    have fits := stoRange_of range
    exact ⟨stoWrite_start read (by decide) (by decide) idle fun _ _ => fits,
      stoWrite_start write (by decide) (by decide) idle fun _ _ => fits,
      stoWrite_start trim (by decide) (by decide) idle fun _ _ => fits⟩
  · intro q s sent idle range
    exact stoWrite_range sent (by decide) (by decide) idle (not_stoRange_of range)
  · intro q s sent busy
    exact stoWrite_busy sent (by decide) (by decide) busy
  · intro q s sent moves
    have effect := wrStoCmd_stop (w := 0) (s := request q STO_CMD s) (by rwa [request_sto])
    exact congrArg Host.Outcome.next (gated_uncounted sent effect (.inl rfl))
  · intro data s read left room goes
    refine congrArg Host.Outcome.next ((stoBlockEnd_read read left true data).trans ?_)
    rw [if_neg (by simp), if_neg (by omega), stoPassed_goes (by exact goes)]
    rfl
  · intro data s read left
    exact congrArg Host.Outcome.next
      ((stoBlockEnd_read read left false data).trans ((if_pos rfl).trans (stoFailed_read read)))
  · intro resp s runs goes short passed
    have words := stoResp_short short resp
    exact ⟨congrArg Host.Outcome.next ((stoCommandEnd_done runs goes passed).trans (by rw [words])),
      congrArg Host.Outcome.next ((stoCommandEnd_bus runs (stoRespWords_short short)).trans (by rw [words])),
      congrArg Host.Outcome.next (stoTimeout_ends runs (by omega))⟩
  · intro resp s runs goes other passed
    exact congrArg Host.Outcome.next ((stoCommandEnd_done runs goes passed).trans (by rw [stoResp_other other]))
  · intro q w s sent bytes ⟨len, dir⟩ idle
    have others : ∀ f : Fd, f.lo + f.w ≤ 31 → wf (force w STO_NOR_CMD_go 1) f = wf w f := fun f below =>
      wf_force_ne w (f := STO_NOR_CMD_go) (.inr below) (by omega)
    have idle' : (request q STO_NOR_CMD s).on STO_NOR_RESULT_busy = false := (on_request_mid (by decide)).trans (not_on_of_get idle)
    have effect := wrNorCmd_go (w := force w STO_NOR_CMD_go 1) (wf_force w (by decide))
      (by rwa [others STO_NOR_CMD_addr_bytes (by decide)]) (by rwa [others STO_NOR_CMD_len (by decide)])
      (by rwa [others STO_NOR_CMD_dir (by decide)]) idle'
    exact congrArg Host.Outcome.next (gated_uncounted sent effect (.inr (.inl rfl)))
  · intro data changed s busy other
    exact congrArg Host.Outcome.next ((norEnd_busy (on_of_get busy) data changed).trans (by rw [if_neg other]))
  · intro data changed s busy read
    exact congrArg Host.Outcome.next ((norEnd_busy (on_of_get busy) data changed).trans (by rw [if_pos read]))

end Sys2Proof.Machine

namespace Sys2Proof.Machine

/-! # The redundant pair (R489 to R492) -/

/-! ## The command registers -/

section
variable {q : Rq} {w : Word} {s : State}

theorem wf_en (v : Nat) : wf (force w SNK_PAIR_CTRL_en v) SNK_PAIR_CTRL_en = v % 2 := wf_force w (by decide)

theorem wrPairCtrl_enable (off : s.on SNK_PAIR_CTRL_en = false) :
    wrPairCtrl (force w SNK_PAIR_CTRL_en 1) s =
      if s.on SNK_ADDR_mode = true then (setRole 1 (s.store SNK_PAIR_CTRL SNK_PAIR_CTRL_fs (force w SNK_PAIR_CTRL_en 1))).ret .done
      else s.ret .state := by
  cases mode : s.on SNK_ADDR_mode <;> simp [wrPairCtrl, wf_en, off, mode]

/-- A pair that is on and STANDBY is not disabled. -/
theorem wrPairCtrl_standby (on : s.on SNK_PAIR_CTRL_en = true) (standby : s.get SNK_PAIR_STAT_role = 3) :
    wrPairCtrl (force w SNK_PAIR_CTRL_en 0) s = s.ret .state := by
  simp [wrPairCtrl, wf_en, on, standby]

/-- A write of the register as it reads, but for `en`, changes no other field. -/
theorem chg_force_en {v : Nat} {f : Fd} (reg : f.a = SNK_PAIR_CTRL) (others : 1 ≤ f.lo ∧ f.lo + f.w ≤ 32) :
    s.chg (force (s.rd SNK_PAIR_CTRL) SNK_PAIR_CTRL_en v) f = false := by
  rw [State.chg, wf_force_ne (s.rd SNK_PAIR_CTRL) (f := SNK_PAIR_CTRL_en) (.inl others.1) others.2, State.get, reg]
  simp [wf]

theorem wrPairCtrl_disable (on : s.on SNK_PAIR_CTRL_en = true) (leaves : s.get SNK_PAIR_STAT_role ≠ 3) :
    wrPairCtrl (force (s.rd SNK_PAIR_CTRL) SNK_PAIR_CTRL_en 0) s =
      (setRole 0 (partnerGone (s.store SNK_PAIR_CTRL SNK_PAIR_CTRL_fs (force (s.rd SNK_PAIR_CTRL) SNK_PAIR_CTRL_en 0)))).ret
        .done := by
  simp [wrPairCtrl, wf_en, on, leaves, chg_force_en (f := SNK_PAIR_CTRL_partner) rfl (by decide),
    chg_force_en (f := SNK_PAIR_CTRL_pref) rfl (by decide), chg_force_en (f := SNK_PAIR_CTRL_hb_lane) rfl (by decide),
    chg_force_en (f := SNK_PAIR_CTRL_pair_lanes) rfl (by decide)]

/-- SWITCH. -/
theorem wrPairCmd_switch :
    wrPairCmd (force 0 SNK_PAIR_CMD_op 1) s =
      if s.get SNK_PAIR_STAT_role ≠ 2 then
        if s.snk.yieldW = 2 then s.ret .state else (s.set SNK_PAIR_STAT_outcome Code.state.n).ret .state
      else if !s.on SNK_PAIR_STAT_p_ready then (s.set SNK_PAIR_STAT_outcome Code.notReady.n).ret .notReady
      else ((pairYield 2 (s.store SNK_PAIR_CMD SNK_PAIR_CMD_fs (force 0 SNK_PAIR_CMD_op 1))).set SNK_PAIR_STAT_outcome
        Code.held.n).ret .held := by
  have switch : ¬(wf (force 0 SNK_PAIR_CMD_op 1) SNK_PAIR_CMD_op ≠ 1) := by decide
  rw [wrPairCmd, if_neg switch]

theorem pairOn_request {b : Nat} : (request q b s).on SNK_PAIR_CTRL_en = s.on SNK_PAIR_CTRL_en := on_request_mid (by decide)

theorem role_request {b : Nat} : (request q b s).get SNK_PAIR_STAT_role = s.get SNK_PAIR_STAT_role := get_request_mid (by decide)

end

/-! ## What the queues leave: the pair's registers lie above those that a crate's way changes -/

section
variable {a : Nat} (pair : 0x40600400 ≤ a ∧ a < 0x40A00000)
include pair

theorem not_router_of_pair : ¬Router a := not_router_of_mid (by omega)

theorem rd_countDrop {cls : Nat} (low : cls < 4) (s : State) : (countDrop cls s).rd a = s.rd a := by
  rw [countDrop, rd_flagLimited_ne _ (not_router_of_pair pair), addSat_rd_ne]
  · simp only [SNK_DROP_count, SNK_DROP]; omega
  · simp only [SNK_EVT_drop, SNK_EVT]; omega

theorem rd_snkEvt (b : Nat) (s : State) : (snkEvt b s).rd a = s.rd a := by
  rw [snkEvt, State.flag, rd_raise _ _ (not_router_of_pair pair), rd_set_ne]
  simp only [SNK_EVT]; omega

theorem rd_rraEnd (c : Code) (s : State) : (rraEnd c s).rd a = s.rd a := by
  have other : SNK_RRA_RESULT ≠ a := by simp only [SNK_RRA_RESULT]; omega
  rw [rraEnd, rd_snkEvt pair]
  exact (rd_set_ne _ _ other).trans (rd_set_ne _ _ other)

theorem rd_slotEnd {t : Nat} (slot : t < 8) (c : Code) (reason : Nat) (s : State) : (slotEnd t c reason s).rd a = s.rd a := by
  have other : SNK_TX_RESULT t ≠ a := by simp only [SNK_TX_RESULT]; omega
  exact (rd_set_ne _ _ other).trans ((rd_set_ne _ _ other).trans (rd_set_ne _ _ other))

theorem rd_entDrop {e : QEnt} (low : e.cls < 4) (s : State) : (entDrop e s).rd a = s.rd a := by
  unfold entDrop
  dsimp only
  split
  · split_ifs with slot
    · exact (rd_slotEnd pair slot ..).trans (rd_countDrop pair low s)
    · exact rd_countDrop pair low s
    · exact (rd_rraEnd pair ..).trans (rd_countDrop pair low s)
    · exact rd_countDrop pair low s
    · exact rd_countDrop pair low s
  · exact rd_countDrop pair low s

/-- A queue drops entries of the four classes alone. -/
theorem rd_makeRoom (l need cls n : Nat) (s : State) : (makeRoom l need cls n s).rd a = s.rd a := by
  induction n generalizing s with
  | zero => rfl
  | succ n ih =>
    unfold makeRoom
    dsimp only
    split
    · rfl
    · split
      · rfl
      · next e found =>
        obtain ⟨c, member, chosen⟩ := List.exists_of_findSome?_eq_some found
        split_ifs at chosen
        have class_ : e.cls = c := by simpa using List.find?_some chosen
        have low : c < 4 := List.mem_range.1 (List.mem_reverse.1 member)
        exact (ih _).trans (rd_entDrop pair (class_ ▸ low) _)

omit pair in
theorem rd_linkStart (l : Nat) (s : State) : (linkStart l s).rd a = s.rd a := by
  unfold linkStart linkTake
  dsimp only
  split_ifs
  · rfl
  · rfl
  · split <;> rfl

theorem rd_push (l : Nat) (c : List Byte) (s : State) : (push l c s).rd a = s.rd a := by
  have room := rd_makeRoom pair l (occ c) (cCls c) 600 s
  have low : cCls c < 4 := Nat.mod_lt _ (by decide)
  unfold push enqueue
  dsimp only
  split_ifs
  · rfl
  · exact (rd_linkStart ..).trans room
  · exact (rd_countDrop pair low _).trans room

end

/-! ## A crate that arrives -/

theorem cb_crateOf {c : List Byte} {i : Nat} (inside : i + 4 < c.length) : cb (crateOf c) i = cb c i := by
  have short : i < c.length - 4 := by omega
  simp only [cb, crateOf, nth, List.getD_eq_getElem?_getD, List.getElem?_take_of_lt short]

section
variable {c : List Byte} (made : WellMade c)
include made

theorem cType_crateOf : cType (crateOf c) = cType c := by
  rw [cType, cb_crateOf (by have := made.1; omega), cType]

theorem cSrc_crateOf : cSrc (crateOf c) = cSrc c := by
  rw [cSrc, cb_crateOf (by have := made.1; omega), cb_crateOf (by have := made.1; omega), cSrc]

/-- A crate that meets R473 to R475 goes by its type. -/
theorem crateIn_wellMade {l : Nat} {age : Nat} {s : State} (heard : CrateHeard l s) :
    crateIn l c age s = match cType c with
      | 0 => helloIn l (crateOf c) s
      | 6 => heartbeatIn l (crateOf c) s
      | _ =>
        let s := if cType c = 1 then collide (crateOf c) s else s
        if cBcast (crateOf c) then floodIn l (crateOf c) age s else unicastIn l (crateOf c) age s := by
  obtain ⟨live, runs, clean⟩ := heard
  obtain ⟨long, header, length, crc⟩ := id made
  have open_ : ¬(snkHeld s = true ∨ (!linkRuns l s) = true ∨ l < 8 ∧ (nth s.frm l).spoiled = true) := by
    rintro (held | still | ⟨line, spoiled⟩)
    · simp [live] at held
    · simp [runs] at still
    · simp [clean line] at spoiled
  have formed : ¬(c.length < 12 ∨ (!hdrOk (crateOf c)) = true ∨ (crateOf c).length ≠ 8 + cLen (crateOf c) ∨
      leVal (c.drop (c.length - 4)) ≠ crc32 (crateOf c)) := by
    rintro (short | header' | length' | crc')
    · omega
    · simp [header] at header'
    · exact length' length
    · exact crc' crc
  unfold crateIn
  dsimp only
  rw [if_neg open_, if_neg formed, cType_crateOf made] <;> rfl

end

/-- The partner's heartbeat on the FAB path. -/
theorem heartbeatIn_fab {c : List Byte} {s : State} (on : s.on SNK_PAIR_CTRL_en = true)
    (partner : cSrc c = s.get SNK_PAIR_CTRL_partner) :
    heartbeatIn 8 c s = pairStep 8 (cb c 8 % 4) (cb c 10 % 2) (decide (cb c 9 % 2 = 1)) (decide (cb c 9 / 4 % 2 = 1))
      (heartSeen 8 c s) := by
  have open_ : ¬((!s.on SNK_PAIR_CTRL_en) = true ∨ cSrc c ≠ s.get SNK_PAIR_CTRL_partner ∨
      (!(decide (8 = 8) || s.on SNK_PAIR_CTRL_hb_lane_en && decide (8 = s.get SNK_PAIR_CTRL_hb_lane))) = true) := by
    simp [on, partner]
  exact if_neg open_

/-! ## The pair's own events -/

section
variable {s : State} (live : snkHeld s = false)
include live

/-- A heartbeat goes out on the FAB path alone where the lane's is off. -/
theorem heartbeatOut_fab (on : s.on SNK_PAIR_CTRL_en = true) (lane : s.on SNK_PAIR_CTRL_hb_lane_en = false) (runs : linkRuns 8 s = true) :
    heartbeatOut s =
      (let body := [s.get SNK_PAIR_STAT_role, (pairFault s).toNat +
          2 * (decide (s.get SNK_PAIR_STAT_role = 3) && !pairFault s).toNat + 4 * (decide (s.snk.yieldW ≠ 0)).toNat,
          s.get SNK_PAIR_CTRL_pref, 0].map (BitVec.ofNat 8) ++ leBytes 4 s.snk.hb
      let r := originate (mkCrate 6 0 (s.get SNK_PAIR_CTRL_partner) 1 body) (updSnk (fun k => { k with hb := (k.hb + 1) % 2 ^ 32 }) s)
      push 8 r.2 r.1) := by
  have open_ : ¬((!s.on SNK_PAIR_CTRL_en) = true ∨ snkHeld s = true) := by simp [on, live]
  have runs' : linkRuns 8 (updSnk (fun k => { k with hb := (k.hb + 1) % 2 ^ 32 }) s) = true := runs
  have regs : ∀ c : List Byte, (originate c (updSnk (fun k => { k with hb := (k.hb + 1) % 2 ^ 32 }) s)).1.regs = s.regs := fun c => by
    unfold originate
    dsimp only
    split_ifs <;> rfl
  have off : ∀ c d : List Byte, (push 8 d (originate c (updSnk (fun k => { k with hb := (k.hb + 1) % 2 ^ 32 }) s)).1).on
      SNK_PAIR_CTRL_hb_lane_en = false := fun c d => by
    rw [State.on, State.get, rd_push (by decide), State.rd, regs]
    exact lane
  refine (if_neg open_).trans ((if_neg ?_).trans (if_pos runs'))
  dsimp only
  rw [if_pos runs', off]
  decide

theorem partnerLost_on (on : s.on SNK_PAIR_CTRL_en = true) :
    partnerLost s = if s.get SNK_PAIR_STAT_role = 3 then takeOver (partnerGone s) else partnerGone s := by
  have open_ : ¬((!s.on SNK_PAIR_CTRL_en) = true ∨ snkHeld s = true) := by simp [on, live]
  have role : (partnerGone s).get SNK_PAIR_STAT_role = s.get SNK_PAIR_STAT_role := by
    rw [partnerGone, get_set_bits _ _ (by decide) (by decide), get_set_bits _ _ (by decide) (by decide),
      get_set_bits _ _ (by decide) (by decide)]
  unfold partnerLost
  rw [if_neg open_]
  dsimp only
  rw [role]

theorem pathLoss_one (on : s.on SNK_PAIR_CTRL_en = true) (lane : s.on SNK_PAIR_STAT_lane_ok = true)
    (fab : s.on SNK_PAIR_STAT_fab_ok = true) (which : Bool) :
    pathLoss which s = snkEvt 7 (s.set (if which then SNK_PAIR_STAT_lane_ok else SNK_PAIR_STAT_fab_ok) 0) := by
  cases which <;> simp [pathLoss, on, lane, fab, live]

/-- The yield of a SWITCH meets its limit. -/
theorem yieldTimeout_switch (yields : s.snk.yieldW = 2) :
    yieldTimeout s = setRole 2 (updSnk (fun k => { k with yieldW := 0 }) (s.set SNK_PAIR_STAT_outcome Code.timeout.n)) := by
  simp [yieldTimeout, yields, live]

theorem soloTimeout_solo (solo : s.get SNK_PAIR_STAT_role = 1) : soloTimeout s = setRole 2 s := by simp [soloTimeout, solo, live]

end

/-- Settles O36: the commands are judged in the state that has accepted the write; a crate goes by its type, and no crate's way through
the queues changes the pair's registers. -/
theorem redundantPair : Obligations.RedundantPair := by
  unfold Obligations.RedundantPair
  refine ⟨?_, ?_, ?_, ?_, ?_, ?_, ?_, ?_, ?_, ?_, ?_, ?_, ?_⟩
  · intro q w s sent off fixed
    have effect := wrPairCtrl_enable (w := w) (pairOn_request (q := q) (b := SNK_PAIR_CTRL).trans (not_on_of_get off))
    rw [on_request_mid (f := SNK_ADDR_mode) (by decide), if_pos (on_of_get fixed)] at effect
    exact congrArg Host.Outcome.next (gated_uncounted sent effect (.inl rfl))
  · intro q w s sent off auto
    have effect := wrPairCtrl_enable (w := w) (pairOn_request (q := q) (b := SNK_PAIR_CTRL).trans (not_on_of_get off))
    rw [on_request_mid (f := SNK_ADDR_mode) (by decide), if_neg (by simp [not_on_of_get auto])] at effect
    exact congrArg Host.Outcome.next (gated_counted sent effect rfl)
  · intro q s sent on leaves
    have effect := wrPairCtrl_disable (pairOn_request (q := q) (b := SNK_PAIR_CTRL).trans (on_of_get on))
      (role_request.trans_ne leaves)
    rw [rd_request_mid (a := SNK_PAIR_CTRL) (by decide)] at effect
    exact congrArg Host.Outcome.next (gated_uncounted sent effect (.inl rfl))
  · intro q w s sent on standby
    have effect := wrPairCtrl_standby (w := w) (pairOn_request (q := q) (b := SNK_PAIR_CTRL).trans (on_of_get on))
      (role_request.trans standby)
    exact congrArg Host.Outcome.next (gated_counted sent effect rfl)
  · intro s live on lane runs
    exact congrArg Host.Outcome.next (heartbeatOut_fab live (on_of_get on) (not_on_of_get lane) runs)
  · intro l c s heard made heartbeat on partner fab
    subst fab
    have arrived : exec (.heartbeatRx 8 c) s = .next (crateIn 8 c 0 s) :=
      congrArg Host.Outcome.next (if_pos (decide_eq_true heartbeat))
    rw [arrived, crateIn_wellMade (l := 8) made heard, heartbeat]
    exact congrArg Host.Outcome.next (heartbeatIn_fab (on_of_get on) ((cSrc_crateOf made).trans partner))
  · intro s live on
    exact congrArg Host.Outcome.next (partnerLost_on live (on_of_get on))
  · intro s live on lane fab
    have lost := pathLoss_one live (on_of_get on) (on_of_get lane) (on_of_get fab)
    exact ⟨congrArg Host.Outcome.next (lost true), congrArg Host.Outcome.next (lost false)⟩
  · intro q s sent active ready
    have effect := wrPairCmd_switch (s := request q SNK_PAIR_CMD s)
    rw [role_request, if_neg (not_not.2 active), on_request_mid (f := SNK_PAIR_STAT_p_ready) (by decide),
      if_neg (by simp [on_of_get ready])] at effect
    exact congrArg Host.Outcome.next (gated_uncounted sent effect (.inr (.inl rfl)))
  · intro q s sent active unready
    have effect := wrPairCmd_switch (s := request q SNK_PAIR_CMD s)
    rw [role_request, if_neg (not_not.2 active), on_request_mid (f := SNK_PAIR_STAT_p_ready) (by decide),
      if_pos (by simp [not_on_of_get unready])] at effect
    exact congrArg Host.Outcome.next (gated_counted sent effect rfl)
  · intro q s sent other still
    have effect := wrPairCmd_switch (s := request q SNK_PAIR_CMD s)
    rw [role_request, if_pos other, request_snk, if_neg still] at effect
    exact congrArg Host.Outcome.next (gated_counted sent effect rfl)
  · intro s live yields
    exact congrArg Host.Outcome.next (yieldTimeout_switch live yields)
  · intro s live solo
    exact congrArg Host.Outcome.next (soloTimeout_solo live solo)

end Sys2Proof.Machine

namespace Sys2Proof.Machine

/-! # Self-test (R512 to R526) -/

/-! ## What the ledger leaves: the test unit's own state -/

@[simp] theorem bst_mergeDone (who : List (Nat × Nat)) (c : Code) (stale : Bool) (s : State) :
    (mergeDone who c stale s).bst = s.bst := foldl_fixes State.bst who s fun _ _ => rfl

theorem bst_eccWritten (a : Nat) (s : State) : (eccWritten a s).bst = s.bst := by
  unfold eccWritten
  split <;> rfl

@[simp] theorem bst_putBytes (l : List Byte) (a : Nat) (s : State) : (s.putBytes a l).bst = s.bst := by
  induction l generalizing a s with
  | nil => rfl
  | cons b l ih => exact ih (a + 1) { s with mem := memPut s.mem a b }

theorem bst_write8 (u a : Nat) (bytes : List Byte) (s : State) : (write8 u a bytes s).bst = s.bst := by
  unfold write8
  dsimp only
  rw [bst_eccWritten, bst_putBytes]
  exact foldl_fixes State.bst _ _ fun t (e : Merge) => bst_mergeDone e.who .done false t

theorem bst_ledger (kind u row res det : Nat) (s : State) : (ledger kind u row res det s).bst = s.bst := by
  unfold ledger
  dsimp only
  rw [incMod_bst, incMod_bst]
  split
  · split
    · rfl
    · rw [bst_write8, bst_write8]
  · rfl

theorem bst_ledgerFree (kind u row : Nat) (res det : Option Nat) (s : State) : (ledgerFree kind u row res det s).bst = s.bst := by
  unfold ledgerFree
  rw [bst_ledger]
  cases res <;> cases det <;> rfl

theorem bst_bstEvt (b : Nat) (s : State) : (bstEvt b s).bst = s.bst := by rw [bstEvt, State.flag, raise_bst, set_bst]

theorem bst_sliceFailed (u row b : Nat) (s : State) : (sliceFailed u row b s).bst = s.bst := by
  unfold sliceFailed
  dsimp only
  split
  · rw [bst_bstEvt, bst_ledgerFree, mapRow, set_bst, set_bst, set_bst, bst_ledger]
  · rw [bst_bstEvt, bst_ledgerFree, set_bst, bst_ledger]

theorem bst_walkTo (u r : Nat) (s : State) : (walkTo u r s).bst = s.bst := by
  unfold walkTo
  dsimp only
  split
  · rw [walkWrap, bst_ledgerFree, incMod_bst, set_bst]
  · rw [set_bst]

theorem bst_testEnd (fail : Bool) (s : State) : (testEnd fail s).bst = s.bst := by
  rw [testEnd, bst_bstEvt, set_bst, set_bst, set_bst]

/-! ## Slices -/

section
variable {u : Nat} {s : State}

theorem sliceStart_idle (idle : walkRuns u s = false ∨ sliceOn u s = true) : sliceStart u s = s := by
  refine if_pos ?_
  rcases idle with still | busy
  · exact .inl (by simp [still])
  · exact .inr busy

section
variable (runs : walkRuns u s = true ∧ sliceOn u s = false)
include runs

theorem walk_open : ¬((!walkRuns u s) = true ∨ sliceOn u s = true) := by simp [runs.1, runs.2]

/-- A row that the scrubber has named, outside the secret window (R519). -/
theorem sliceStart_again {a : Nat} (named : nth s.scrubAgain u = some a)
    (plain : inSecret (unitBase u + 4096 * ((a - unitBase u) / 4096)) s = false) :
    sliceStart u s = sliceBegin u ((a - unitBase u) / 4096) 1 { s with scrubAgain := upd s.scrubAgain u fun _ => none } := by
  refine (if_neg (walk_open runs)).trans ?_
  rw [named]
  exact if_neg (Bool.eq_false_iff.1 plain)

variable (unnamed : nth s.scrubAgain u = none)
include unnamed

/-- The walk's row is open. -/
theorem sliceStart_row (stays : openRow u (s.get (BST_MEM_UNIT_row u)) s = s.get (BST_MEM_UNIT_row u))
    (inside : s.get (BST_MEM_UNIT_row u) < unitRows u) :
    sliceStart u s = sliceBegin u (s.get (BST_MEM_UNIT_row u)) 0 (s.set (BST_MEM_UNIT_row u) (s.get (BST_MEM_UNIT_row u))) := by
  refine (if_neg (walk_open runs)).trans ?_
  rw [unnamed]
  dsimp only
  rw [if_pos stays, stays]
  exact if_neg (Nat.ne_of_lt inside)

/-- The walk's row is not open: the walk goes on to the next that is. -/
theorem sliceStart_moved (moves : openRow u (s.get (BST_MEM_UNIT_row u)) s ≠ s.get (BST_MEM_UNIT_row u))
    (inside : openRow u ((walkTo u (s.get (BST_MEM_UNIT_row u)) s).get (BST_MEM_UNIT_row u))
      (walkTo u (s.get (BST_MEM_UNIT_row u)) s) < unitRows u) :
    sliceStart u s =
      (let t := walkTo u (s.get (BST_MEM_UNIT_row u)) s; let r := openRow u (t.get (BST_MEM_UNIT_row u)) t
      sliceBegin u r 0 (t.set (BST_MEM_UNIT_row u) r)) := by
  refine (if_neg (walk_open runs)).trans ?_
  rw [unnamed]
  dsimp only
  rw [if_neg moves]
  exact if_neg (Nat.ne_of_lt inside)

end

/-- Without a test that waits nothing starts. -/
theorem testStart_none (none : s.bst.test = none) : testStart u s = s := by rw [testStart, none]

theorem testStart_own {row : Nat} (waits : s.bst.test = some (u, row)) :
    testStart u s = sliceBegin u row 2 (updBst (fun b => { b with test := none }) s) := by
  rw [testStart, waits]
  exact if_pos rfl

/-- The end of the one slice that runs. -/
theorem sliceEnd_one {x : BstSlice} (one : s.bst.slices = [x]) (own : x.u = u) (bad : Option Nat) :
    sliceEnd u bad s =
      (let s := updBst (fun b => { b with slices := [] }) s
      let s := match bad with | some b => sliceFailed u x.row b s | none => s
      let s := if x.kind = 2 then testEnd bad.isSome s else s
      let s := if x.kind = 0 then walkTo u (x.row + 1) s else s
      testStart u s) := by
  have found : s.bst.slices.find? (fun x => decide (x.u = u)) = some x := by simp [one, own]
  have emptied : updBst (fun b => { b with slices := b.slices.filter fun y => decide (y.u ≠ u) }) s =
      updBst (fun b => { b with slices := [] }) s := by simp [updBst, one, own]
  rw [sliceEnd, found]
  dsimp only
  rw [emptied] <;> rfl

end

/-! ## TEST_ROW and the repair map -/

section
variable {q : Rq} {b : Nat} {s : State}

theorem not_router_of_bst {a : Nat} (bst : 0x40A01000 ≤ a) : ¬Router a := by
  rintro (⟨-, high⟩ | ⟨-, high⟩) <;> omega

theorem get_request_bst {f : Fd} (bst : 0x40A01000 ≤ f.a) : (request q b s).get f = s.get f :=
  get_request q b s (not_router_of_bst bst)

theorem on_request_bst {f : Fd} (bst : 0x40A01000 ≤ f.a) : (request q b s).on f = s.on f := by
  simp only [State.on, get_request_bst bst]

theorem bstRepair_high (u k : Nat) : 0x40A01000 ≤ BST_REPAIR u k := by simp only [BST_REPAIR]; omega

/-- TEST_ROW's word names the row that it was made of, and the unit. -/
theorem wf_testWord_unit (u : BitVec 5) (row : BitVec 13) : wf (testWord u row) BST_MEM_CMD_unit = u.toNat := by
  rw [testWord, wf_force_ne _ (.inr (by decide)) (by decide), wf_force_ne _ (.inr (by decide)) (by decide), wf_force _ (by decide)]
  exact Nat.mod_eq_of_lt u.isLt

theorem wf_testWord_go (u : BitVec 5) (row : BitVec 13) : wf (testWord u row) BST_MEM_CMD_go = 1 := wf_force _ (by decide)

theorem wrMemCmd_test {u : BitVec 5} {row : BitVec 13} :
    wrMemCmd (testWord u row) s =
      if s.on BST_MEM_RESULT_busy = true then s.ret .state
      else if 14 < u.toNat ∨ unitRows u.toNat ≤ wf (testWord u row) BST_MEM_CMD_row then
        (s.set BST_MEM_RESULT_outcome Code.range.n).ret .range
      else
        (let t := updBst (fun b => { b with test := some (u.toNat, wf (testWord u row) BST_MEM_CMD_row) })
          ((((s.store BST_MEM_CMD BST_MEM_CMD_fs (testWord u row)).wr BST_MEM_RESULT 0).set BST_MEM_RESULT_busy 1).set
            BST_MEM_RESULT_outcome Code.held.n)
        (if sliceOn u.toNat s then t else testStart u.toNat t).ret .held) := by
  unfold wrMemCmd
  rw [wf_testWord_unit, wf_testWord_go]
  rfl

theorem wf_repairWord_valid (u k : Nat) (row : BitVec 13) : wf (repairWord u k row) (BST_REPAIR_valid u k) = 1 :=
  wf_force _ (by simp only [BST_REPAIR_valid]; omega)

/-- A repair of a free spare. -/
theorem wrRepair_free {u k : Nat} {row : BitVec 13} (free : s.get (BST_REPAIR_valid u k) = 0) :
    wrRepair u k (repairWord u k row) s =
      (let r := wf (repairWord u k row) (BST_REPAIR_row u k)
      (ledger 3 u r 3 k (mapRow u k r (rowSaved u r s))).ret .done) := by
  have changes : s.chg (repairWord u k row) (BST_REPAIR_valid u k) = true := by
    rw [State.chg, wf_repairWord_valid, free]
    rfl
  simp [wrRepair, changes, wf_repairWord_valid, not_on_of_get free]

/-- A repair that would change a used spare. -/
theorem wrRepair_used {u k : Nat} {row : BitVec 13} (used : s.on (BST_REPAIR_valid u k) = true)
    (changes : s.chg (repairWord u k row) (BST_REPAIR_row u k) = true) : wrRepair u k (repairWord u k row) s = s.ret .state := by
  simp [wrRepair, changes, used]

/-! ## Logic slices -/

theorem wf_logicWord_core (c : BitVec 4) (i : BitVec 6) : wf (logicWord c i) BST_LB_CMD_core = c.toNat := by
  rw [logicWord, wf_force_ne _ (.inr (by decide)) (by decide), wf_force_ne _ (.inr (by decide)) (by decide), wf_force _ (by decide)]
  exact Nat.mod_eq_of_lt c.isLt

theorem wf_logicWord_slice (c : BitVec 4) (i : BitVec 6) : wf (logicWord c i) BST_LB_CMD_slice = i.toNat := by
  rw [logicWord, wf_force_ne _ (.inr (by decide)) (by decide), wf_force _ (by decide)]
  exact Nat.mod_eq_of_lt i.isLt

theorem wrLbCmd_request {c : BitVec 4} {i : BitVec 6} :
    wrLbCmd (logicWord c i) s =
      if s.bst.lb.isSome = true then s.ret .state
      else if 11 < c.toNat ∨ 47 < i.toNat then (s.set BST_LB_RESULT_outcome Code.range.n).ret .range
      else (updBst (fun b => { b with lb := some (c.toNat, i.toNat, false) }) ((((((s.store BST_LB_CMD BST_LB_CMD_fs
        (logicWord c i)).wr BST_LB_RESULT 0).set BST_LB_RESULT_outcome Code.held.n).set BST_LB_RESULT_busy 1).set BST_LB_RESULT_core
        c.toNat).set BST_LB_RESULT_slice i.toNat)).ret .held := by
  have go : wf (logicWord c i) BST_LB_CMD_go ≠ 0 := by
    rw [logicWord, wf_force _ (by decide)]
    decide
  unfold wrLbCmd
  rw [wf_logicWord_core, wf_logicWord_slice]
  exact if_neg go

variable {c i : Nat}

/-- The slice that runs has ended. -/
theorem lbDone_runs (runs : s.bst.lb = some (c, i, true)) (fail : Bool) :
    lbDone fail s =
      (let s' := updBst (fun b => { b with lbFail := (b.lbFail.filter fun x => decide (x ≠ (c, i))) ++ (if fail then [(c, i)] else []) }) s
      let s' := s'.incMod (BST_LB_STAT_runs c)
      let s' := if fail then
          let s' := (s'.addSat (BST_LB_STAT_fails c) 1).set (BST_LB_STAT_last_fail c) i
          if s.bst.lbFail.contains (c, i) then s'.set (BST_LB_STAT_suspect c) 1 else s'
        else s'
      let s' := lbEnd .done fail.toNat 0 s'
      if fail then bstEvt 0 s' else s') := by
  rw [lbDone, runs]

theorem lbDone_passed (runs : s.bst.lb = some (c, i, true)) :
    lbDone false s = lbEnd .done 0 0 ((updBst (fun b =>
      { b with lbFail := b.lbFail.filter (fun x => decide (x ≠ (c, i))) }) s).incMod (BST_LB_STAT_runs c)) := by
  rw [lbDone_runs runs]
  simp

/-- A slice fails after a run without a failure. -/
theorem lbDone_first (runs : s.bst.lb = some (c, i, true)) (clean : s.bst.lbFail = []) :
    lbDone true s = bstEvt 0 (lbEnd .done 1 0 ((((updBst (fun b => { b with lbFail := [(c, i)] }) s).incMod (BST_LB_STAT_runs
      c)).addSat (BST_LB_STAT_fails c) 1).set (BST_LB_STAT_last_fail c) i)) := by
  rw [lbDone_runs runs]
  simp [clean, updBst]

/-- A slice fails for the second time running. -/
theorem lbDone_second (runs : s.bst.lb = some (c, i, true)) (before : s.bst.lbFail = [(c, i)]) :
    lbDone true s = bstEvt 0 (lbEnd .done 1 0 (((((updBst (fun b => { b with lbFail := [(c, i)] }) s).incMod (BST_LB_STAT_runs
      c)).addSat (BST_LB_STAT_fails c) 1).set (BST_LB_STAT_last_fail c) i).set (BST_LB_STAT_suspect c) 1)) := by
  rw [lbDone_runs runs]
  simp [before, updBst]

end

/-- Settles O50: a walk's start and a slice's end are read off by the row and the kind of the slice, the ledger leaving what waits; the
commands are judged in the state that has accepted the write. -/
theorem selfTest : Obligations.SelfTest := by
  unfold Obligations.SelfTest
  refine ⟨?_, ?_, ?_, ?_, ?_, ?_, ?_, ?_, ?_, ?_, ?_, ?_, ?_, ?_, ?_, ?_, ?_, ?_, ?_, ?_, ?_, ?_, ?_, ?_, ?_, ?_⟩
  · intro u s runs unnamed stays inside
    exact congrArg Host.Outcome.next (sliceStart_row runs unnamed stays inside)
  · intro u a s runs named plain
    exact congrArg Host.Outcome.next (sliceStart_again runs named plain)
  · intro u s runs unnamed moves inside
    exact congrArg Host.Outcome.next (sliceStart_moved runs unnamed moves inside)
  · intro u s idle
    exact congrArg Host.Outcome.next (sliceStart_idle idle)
  · intro u bd s none
    have missing : s.bst.slices.find? (fun x => decide (x.u = u.val)) = .none := by simp [none]
    exact congrArg Host.Outcome.next (by rw [sliceEnd, missing])
  · rintro u x s one ⟨own, kind⟩ none
    refine congrArg Host.Outcome.next ((sliceEnd_one one own _).trans ?_)
    simp [kind, testStart_none, updBst, none]
  · rintro u x b s one ⟨own, kind⟩ none quiet
    refine congrArg Host.Outcome.next ((sliceEnd_one one own _).trans ?_)
    simp [kind, testStart_none quiet]
  · rintro u x s one ⟨own, kind⟩ none
    refine congrArg Host.Outcome.next ((sliceEnd_one one own _).trans ?_)
    have still : (testEnd false (updBst (fun b => { b with slices := [] }) s)).bst.test = .none :=
      (congrArg Bst.test (bst_testEnd ..)).trans none
    simp [kind, testStart_none still]
  · rintro u x row s one ⟨own, kind⟩ waits
    refine congrArg Host.Outcome.next ((sliceEnd_one one own _).trans ?_)
    have still : (updBst (fun b => { b with slices := [] }) s).bst.test = some (u.val, row) := waits
    simp [kind, testStart_own still]
  · intro u row b s full
    rw [sliceFailed, full]
  · rintro u x s one ⟨own, kind⟩ none
    refine congrArg Host.Outcome.next ((sliceEnd_one one own _).trans ?_)
    have still : (walkTo u (x.row + 1) (updBst (fun b => { b with slices := [] }) s)).bst.test = .none :=
      (congrArg Bst.test (bst_walkTo ..)).trans none
    simp [kind, testStart_none still]
  · rintro u x b s one ⟨own, kind⟩ none
    refine congrArg Host.Outcome.next ((sliceEnd_one one own _).trans ?_)
    have still : (sliceFailed u x.row b (updBst (fun b => { b with slices := [] }) s)).bst.test = .none :=
      (congrArg Bst.test (bst_sliceFailed ..)).trans none
    simp [kind, testStart_none still]
  · intro u row b spare s free
    rw [sliceFailed, free]
  · intro q u k row s sent free
    have effect := wrRepair_free (s := request q (BST_REPAIR u k) s) (row := row)
      ((get_request_bst (f := BST_REPAIR_valid u k) (bstRepair_high u k)).trans free)
    exact congrArg Host.Outcome.next (gated_uncounted sent effect (.inl rfl))
  · intro q u k row s sent used changes
    have changes' : (request q (BST_REPAIR u k) s).chg (repairWord u k row) (BST_REPAIR_row u k) = true := by
      rw [State.chg, get_request_bst (f := BST_REPAIR_row u k) (bstRepair_high u k)]
      exact changes
    have effect := wrRepair_used
      ((on_request_bst (f := BST_REPAIR_valid u k) (bstRepair_high u k)).trans (on_of_get used)) changes'
    exact congrArg Host.Outcome.next (gated_counted sent effect rfl)
  · intro q u row s sent idle ⟨unit, inside⟩ still
    have effect := wrMemCmd_test (s := request q BST_MEM_CMD s) (u := u) (row := row)
    rw [on_request_bst (f := BST_MEM_RESULT_busy) (by decide), if_neg (by simp [not_on_of_get idle]), if_neg (by omega), sliceOn,
      request_bst] at effect
    have effect' := effect.trans (congrArg (fun t => State.ret t .held) (if_neg (Bool.eq_false_iff.1 still)))
    exact congrArg Host.Outcome.next (gated_uncounted sent effect' (.inr (.inl rfl)))
  · intro q u row s sent idle beyond
    have effect := wrMemCmd_test (s := request q BST_MEM_CMD s) (u := u) (row := row)
    rw [on_request_bst (f := BST_MEM_RESULT_busy) (by decide), if_neg (by simp [not_on_of_get idle]),
      if_pos (.inl (wf_testWord_unit u row ▸ beyond))] at effect
    exact congrArg Host.Outcome.next (gated_uncounted sent effect (.inr (.inr (.inr rfl))))
  · intro q u row s sent busy
    have effect := wrMemCmd_test (s := request q BST_MEM_CMD s) (u := u) (row := row)
    rw [on_request_bst (f := BST_MEM_RESULT_busy) (by decide), if_pos (on_of_get busy)] at effect
    exact congrArg Host.Outcome.next (gated_counted sent effect rfl)
  · intro q c i s sent none ⟨core, slice⟩
    have effect := wrLbCmd_request (s := request q BST_LB_CMD s) (c := c) (i := i)
    rw [request_bst, none, if_neg (by simp), if_neg (by omega)] at effect
    exact congrArg Host.Outcome.next (gated_uncounted sent effect (.inr (.inl rfl)))
  · intro q c i s sent none beyond
    have effect := wrLbCmd_request (s := request q BST_LB_CMD s) (c := c) (i := i)
    rw [request_bst, none, if_neg (by simp), if_pos beyond] at effect
    exact congrArg Host.Outcome.next (gated_uncounted sent effect (.inr (.inr (.inr rfl))))
  · intro q c i s sent busy
    have effect := wrLbCmd_request (s := request q BST_LB_CMD s) (c := c) (i := i)
    rw [request_bst, if_pos (Option.isSome_iff_ne_none.2 busy)] at effect
    exact congrArg Host.Outcome.next (gated_counted sent effect rfl)
  · intro c i s waits
    exact ⟨congrArg Host.Outcome.next (by rw [lbStart, waits]), congrArg Host.Outcome.next (by rw [lbTimeout, waits])⟩
  · intro c i s runs
    exact congrArg Host.Outcome.next (lbDone_passed runs)
  · intro c i s runs _ clean
    exact congrArg Host.Outcome.next (lbDone_first runs clean)
  · intro c i s runs _ before
    exact congrArg Host.Outcome.next (lbDone_second runs before)
  · intro s none
    exact ⟨congrArg Host.Outcome.next (by rw [lbStart, none]), congrArg Host.Outcome.next (by rw [lbDone, none]),
      congrArg Host.Outcome.next (by rw [lbTimeout, none])⟩

end Sys2Proof.Machine

namespace Sys2Proof.Machine

/-! # Key load, fuses, the signing unit and the secret window (R462 to R469) -/

section
variable {q : Rq} {w : Word} {s : State}

/-! ## Key load -/

theorem wrOwnZero_keyload :
    wrOwnZero (force w OWN_ZERO_keyload 1) s =
      if s.get OWN_HATCH_STAT_level ≠ 0 ∨ s.own.key = 2 then (s.set OWN_ZERO_outcome Code.state.n).ret .state
      else (updOwn (fun o => { o with key := 2 }) (((s.store OWN_ZERO OWN_ZERO_fs (force w OWN_ZERO_keyload 1)).set OWN_ZERO_key_ready
        0).set OWN_ZERO_outcome Code.held.n)).ret .held := by
  have named : wf (force w OWN_ZERO_keyload 1) OWN_ZERO_keyload ≠ 0 := by
    rw [wf_force w (by decide)]
    decide
  exact if_neg named

theorem keyLoaded_held (live : ownHeld s = false) (loads : s.own.key = 2) :
    keyLoaded s = updOwn (fun o => { o with key := 0, keyRam := s.attic.priv.getD [] })
      ((s.set OWN_ZERO_outcome Code.done.n).set OWN_ZERO_key_ready 1) := by
  simp [keyLoaded, live, loads]

/-! ## Fuses -/

theorem wf_fuseWord_op (op k : Nat) (small : op < 4) : wf (fuseWord op k) OWN_FUSE_CMD_op = op := by
  rw [fuseWord, wf_force_ne _ (.inr (by decide)) (by decide), wf_force _ (by decide)]
  exact Nat.mod_eq_of_lt small

theorem wf_fuseWord_slot (op : Nat) (k : Fin 16) : wf (fuseWord op k) OWN_FUSE_CMD_slot = k := by
  rw [fuseWord, wf_force _ (by decide)]
  exact Nat.mod_eq_of_lt k.isLt

section
variable {op : Nat} {k : Fin 16}

theorem wrFuseCmd_range (slot : 12 ≤ k.val) : wrFuseCmd (fuseWord op k) s = fuseNow .range s := by
  unfold wrFuseCmd
  rw [wf_fuseWord_slot]
  exact if_pos (.inr (.inr (.inl (by omega))))

variable (named : op = 1 ∨ op = 2) (slot : k.val < 12)
  (buffer : s.get OWN_FUSE_BUF_buf % 8 = 0 ∧ inSram (s.get OWN_FUSE_BUF_buf) 32 = true)
include named slot buffer

/-- ENROL or REVOKE of one of the 12 slots with a legal buffer. -/
theorem wrFuseCmd_named :
    wrFuseCmd (fuseWord op k) s =
      if s.own.fuse.isSome = true then fuseNow .state s
      else if (op = 1 ∧ majority (nth s.attic.slots k).enrolled = true) ∨
          (op = 2 ∧ ((!majority (nth s.attic.slots k).enrolled) = true ∨ lastUsable k s = true)) then fuseNow .state s
      else
        (let r := if op = 1 then unitRead (s.get OWN_FUSE_BUF_buf) 32 s else (s, .done)
        if r.2 ≠ .done then fuseNow r.2 r.1
        else
          let t := r.1.store OWN_FUSE_CMD OWN_FUSE_CMD_fs (fuseWord op k)
          fuseNow .held (updOwn (fun o => { o with fuse := some ⟨op, k, t.bytes (s.get OWN_FUSE_BUF_buf) 32⟩ }) (t.set
            OWN_FUSE_RESULT_busy 1))) := by
  have legal : ¬(op = 0 ∨ op = 3 ∨ 11 < k.val ∨ s.get OWN_FUSE_BUF_buf % 8 ≠ 0 ∨ (!inSram (s.get OWN_FUSE_BUF_buf) 32) = true) := by
    rintro (none | none | beyond | misaligned | outside)
    · omega
    · omega
    · omega
    · exact misaligned buffer.1
    · simp [buffer.2] at outside
  unfold wrFuseCmd
  rw [wf_fuseWord_slot, wf_fuseWord_op _ _ (by omega)]
  exact if_neg legal

end

theorem wrFuseCmd_enrol {k : Fin 16} (slot : k.val < 12)
    (buffer : s.get OWN_FUSE_BUF_buf % 8 = 0 ∧ inSram (s.get OWN_FUSE_BUF_buf) 32 = true) (idle : s.own.fuse = none)
    (free : majority (nth s.attic.slots k).enrolled = false) (good : (unitRead (s.get OWN_FUSE_BUF_buf) 32 s).2 = .done) :
    wrFuseCmd (fuseWord 1 k) s =
      (let r := unitRead (s.get OWN_FUSE_BUF_buf) 32 s
      fuseNow .held (updOwn (fun o => { o with fuse := some ⟨1, k, r.1.bytes (s.get OWN_FUSE_BUF_buf) 32⟩ })
        ((r.1.store OWN_FUSE_CMD OWN_FUSE_CMD_fs (fuseWord 1 k)).set OWN_FUSE_RESULT_busy 1))) := by
  rw [wrFuseCmd_named (.inl rfl) slot buffer, if_neg (by simp [idle]), if_neg (by simp [free])]
  exact if_neg (not_not.2 good)

theorem wrFuseCmd_revoke {k : Fin 16} (slot : k.val < 12)
    (buffer : s.get OWN_FUSE_BUF_buf % 8 = 0 ∧ inSram (s.get OWN_FUSE_BUF_buf) 32 = true) (idle : s.own.fuse = none)
    (enrolled : majority (nth s.attic.slots k).enrolled = true) (another : lastUsable k s = false) :
    wrFuseCmd (fuseWord 2 k) s =
      fuseNow .held (updOwn (fun o => { o with fuse := some ⟨2, k, s.bytes (s.get OWN_FUSE_BUF_buf) 32⟩ })
        ((s.store OWN_FUSE_CMD OWN_FUSE_CMD_fs (fuseWord 2 k)).set OWN_FUSE_RESULT_busy 1)) := by
  rw [wrFuseCmd_named (.inr rfl) slot buffer, if_neg (by simp [idle]), if_neg (by simp [enrolled, another])]
  rfl

theorem wrFuseCmd_revoke_state {k : Fin 16} (slot : k.val < 12)
    (buffer : s.get OWN_FUSE_BUF_buf % 8 = 0 ∧ inSram (s.get OWN_FUSE_BUF_buf) 32 = true)
    (refused : s.own.fuse ≠ none ∨ majority (nth s.attic.slots k).enrolled = false ∨ lastUsable k s = true) :
    wrFuseCmd (fuseWord 2 k) s = fuseNow .state s := by
  rw [wrFuseCmd_named (.inr rfl) slot buffer]
  cases idle : s.own.fuse with
  | some f => exact if_pos rfl
  | none =>
    rw [if_neg (by simp)]
    refine if_pos (.inr ⟨rfl, ?_⟩)
    rcases refused with busy | missing | last
    · exact absurd idle busy
    · exact .inl (by simp [missing])
    · exact .inr last

/-- The slot that a fuse command has written, every bit of it verified. -/
def fusedSlot (f : Fuse) (t : KeySlot) : KeySlot :=
  if f.op = 1 then { t with hash := (List.range 32).map fun i => nth t.hash i ||| nth f.hash i, enrolled := 7, ok := true }
  else { t with revoked := t.revoked ||| 7 }

/-- The end of a fuse command whose bits all read back, and whose hash is the one that was asked for. -/
theorem fuseDone_verified {f : Fuse} (runs : s.own.fuse = some f)
    (hash : f.op = 1 → (List.range 32).map (fun i => nth (nth s.attic.slots f.slot).hash i ||| nth f.hash i) = f.hash)
    (part : List Byte) (copies : Nat) :
    fuseDone true part copies s =
      ((updOwn (fun o => { o with fuse := none }) (showSlot f.slot
        { s with attic := { s.attic with slots := upd s.attic.slots f.slot fun _ => fusedSlot f (nth s.attic.slots f.slot) } })).set
        OWN_FUSE_RESULT_busy 0).set OWN_FUSE_RESULT_outcome Code.done.n := by
  have all : ∀ x : Byte, x &&& 255#8 = x := fun x => BitVec.and_allOnes
  unfold fuseDone
  rw [runs]
  by_cases enrol : f.op = 1
  · simp [enrol, all, hash enrol, fusedSlot]
  · simp [enrol, fusedSlot]

theorem attic_showSlot (k : Nat) (s : State) : (showSlot k s).attic = s.attic := by
  simp only [showSlot, forN]
  exact (foldl_fixes State.attic _ _ fun _ _ => wr_attic ..).trans (wr_attic ..)

/-- Its slot, and its result. -/
theorem fuseDone_result {f : Fuse} (runs : s.own.fuse = some f) (inside : f.slot < s.attic.slots.length)
    (hash : f.op = 1 → (List.range 32).map (fun i => nth (nth s.attic.slots f.slot).hash i ||| nth f.hash i) = f.hash)
    (part : List Byte) (copies : Nat) :
    nth (fuseDone true part copies s).attic.slots f.slot = fusedSlot f (nth s.attic.slots f.slot) ∧
      (fuseDone true part copies s).own.fuse = none ∧ (fuseDone true part copies s).get OWN_FUSE_RESULT_busy = 0 ∧
      (fuseDone true part copies s).get OWN_FUSE_RESULT_outcome = Code.done.n := by
  rw [fuseDone_verified runs hash]
  refine ⟨?_, rfl, ?_, ?_⟩
  · simp [updOwn, attic_showSlot, nth_upd, inside]
  · rw [get_set_bits _ _ (by decide) (by decide), get_set _ _ _ (by decide)]
    exact Nat.zero_mod _
  · rw [get_set _ _ _ (by decide)]
    exact Nat.mod_eq_of_lt (by decide)

/-! ## The signing unit -/

theorem wf_signOp (op : Nat) (small : op < 4) : wf (force 0 OWN_SIGN_CMD_op op) OWN_SIGN_CMD_op = op := by
  rw [wf_force _ (by decide)]
  exact Nat.mod_eq_of_lt small

/-- The command that the signing unit takes. -/
def signTaken (op : Nat) (s : State) : Sign :=
  { op, buf := s.get OWN_SIGN_BUF_buf, band := s.bandTime, aon := s.clk.aon, start := s.now, wait := loadVerifies s }

/-- ATTEST, or SIGN by a keeper. -/
theorem wrSignCmd_named {op : Nat} (named : op = 1 ∨ op = 2) (right : op = 2 → keyRight q = true) :
    wrSignCmd q (force 0 OWN_SIGN_CMD_op op) s =
      if s.get OWN_SIGN_BUF_buf % 8 ≠ 0 then signNow .align s
      else if (!inSram (s.get OWN_SIGN_BUF_buf) (if op = 1 then 2436 else 0x44 + 1280)) = true then signNow .range s
      else if s.own.sign.isSome = true then signNow .state s
      else if op = 1 ∧ (!s.on OWN_ZERO_key_ready) = true then signNow .notReady s
      else (((updOwn (fun o => { o with sign := some (signTaken op s) }) (s.store OWN_SIGN_CMD OWN_SIGN_CMD_fs
        (force 0 OWN_SIGN_CMD_op op))).set OWN_SIGN_RESULT_busy 1).set OWN_SIGN_RESULT_outcome Code.held.n).ret .held := by
  have allowed : ¬(op = 2 ∧ (!keyRight q) = true) := by
    rintro ⟨sign, missing⟩
    simp [right sign] at missing
  unfold wrSignCmd
  rw [wf_signOp op (by omega)]
  exact (if_neg (by omega)).trans (if_neg allowed)

theorem wrSignCmd_held {op : Nat} (named : op = 1 ∨ op = 2) (right : op = 2 → keyRight q = true)
    (buffer : s.get OWN_SIGN_BUF_buf % 8 = 0 ∧ inSram (s.get OWN_SIGN_BUF_buf) (if op = 1 then 2436 else 0x44 + 1280) = true)
    (idle : s.own.sign = none) (ready : op = 1 → s.on OWN_ZERO_key_ready = true) :
    wrSignCmd q (force 0 OWN_SIGN_CMD_op op) s =
      (((updOwn (fun o => { o with sign := some (signTaken op s) }) (s.store OWN_SIGN_CMD OWN_SIGN_CMD_fs
        (force 0 OWN_SIGN_CMD_op op))).set OWN_SIGN_RESULT_busy 1).set OWN_SIGN_RESULT_outcome Code.held.n).ret .held := by
  rw [wrSignCmd_named named right, if_neg (by simp [buffer.1]), if_neg (by simp [buffer.2]), if_neg (by simp [idle])]
  refine if_neg ?_
  rintro ⟨attest, unready⟩
  simp [ready attest] at unready

theorem signTaken_request (op : Nat) : signTaken op (request q OWN_SIGN_CMD s) = signTaken op s := by
  simp only [signTaken, loadVerifies, get_request_mid (q := q) (b := OWN_SIGN_CMD) (s := s) (f := OWN_SIGN_BUF_buf) (by decide),
    request_bandTime, request_clk_aon, request_now, request_load]

/-- The end of SIGN. -/
theorem signDone_sign {g : Sign} (runs : s.own.sign = some g) (goes : g.wait = false) (sign : g.op ≠ 1) :
    signDone s =
      (let r := unitRead g.buf 64 s; let sig := (Config.falconSign r.1.own.keyRam r.1.free (r.1.bytes g.buf 64)).take 1280
      if r.2 = .done then signEnd .done (sramPut (g.buf + 0x40) (leBytes 4 sig.length ++ sig) r.1.freeNext) else signEnd .ecc
      r.1) := by
  unfold signDone
  rw [runs]
  dsimp only
  rw [if_neg (by simp [goes]), if_neg sign, ite_not]

/-- The end of ATTEST, every shelf of it hashed. -/
theorem signDone_attest {g h : Sign} (runs : s.own.sign = some g) (goes : g.wait = false) (attest : g.op = 1)
    (hashed : g.hashed.length = 26) (still : (unitRead (g.buf + 0x28) 32 s).1.own.sign = some h) :
    signDone s =
      (let r := unitRead (g.buf + 0x28) 32 s; let sig := (Config.falconSign r.1.own.keyRam r.1.free (signReport h r.1)).take 1280
      if h.bad = false ∧ r.2 = .done then signEnd .done (sramPut g.buf (signReport h r.1 ++ leBytes 2 sig.length ++ leBytes 2 0
      ++ (List.range 1280).map fun i => nth sig i) r.1.freeNext) else signEnd .ecc r.1) := by
  have none : forN (26 - g.hashed.length) (fun _ s => shelfHash s) s = s := by rw [hashed]; rfl
  unfold signDone
  rw [runs]
  dsimp only
  rw [if_neg (by simp [goes]), if_pos attest, none, still]
  dsimp only
  by_cases good : h.bad = false ∧ (unitRead (g.buf + 0x28) 32 s).2 = .done
  · rw [if_pos good, if_neg (by simp [good.1, good.2])]
  · rw [if_neg good, if_pos]
    by_contra neither
    simp only [not_or, Bool.not_eq_true, not_not] at neither
    exact good neither

/-! ## The secret window -/

/-- The bounds as the write would leave them. -/
theorem wrSecret_new (hiReg : Bool) :
    wrSecret hiReg w s =
      if ((secretNew hiReg w s).get OWN_SECRET_LO_base = s.get OWN_SECRET_LO_base ∧
          (secretNew hiReg w s).get OWN_SECRET_HI_end = s.get OWN_SECRET_HI_end) ∨
        windowOk ((secretNew hiReg w s).get OWN_SECRET_LO_base) ((secretNew hiReg w s).get OWN_SECRET_HI_end) = true
      then (secretNew hiReg w s).ret .done else s.ret .range := by
  simp [wrSecret]

theorem secretNew_request_get (hiReg : Bool) (b : Nat) {f : Fd} (mid : 0x40300040 ≤ f.a ∧ f.a < 0x40A00000) :
    (secretNew hiReg w (request q b s)).get f = (secretNew hiReg w s).get f := by
  have lock : (request q b s).on OWN_SECRET_LO_lock = s.on OWN_SECRET_LO_lock := on_request_mid (by decide)
  have words : ∀ a v, ((request q b s).wr a v).rd f.a = (s.wr a v).rd f.a := fun a v => by
    by_cases same : a = f.a
    · rw [same, rd_wr_self, rd_wr_self]
    · rw [rd_wr_ne _ v same, rd_wr_ne _ v same, rd_request_mid mid]
  cases hiReg <;> simp only [State.get, secretNew, lock, words] <;> congr 4 <;> exact rd_request_mid (by decide)

/-- The meaning of SECRET_WINDOW_WRITE for either register. -/
theorem execSecretWindowWrite_reg (hiReg : Bool) :
    execSecretWindowWrite q hiReg w s = .next (gated q (if hiReg then OWN_SECRET_HI else OWN_SECRET_LO)
      (if hiReg then OWN_SECRET_HI_fs else OWN_SECRET_LO_fs) w (wrSecret hiReg w) s) := by
  cases hiReg <;> rfl

end

/-- Settles O33: the commands are judged in the state that has accepted the write; a fuse command's end shows its slot, and a signing
command's end is read off by its operation. -/
theorem keysAndSigning : Obligations.KeysAndSigning := by
  unfold Obligations.KeysAndSigning
  refine ⟨?_, ?_, ?_, ?_, ?_, ?_, ?_, ?_, ?_, ?_, ?_, ?_, ?_, ?_, ?_, ?_, ?_, ?_⟩
  · intro q w s sent closed idle
    have effect := wrOwnZero_keyload (w := w) (s := request q OWN_ZERO s)
    rw [get_request_mid (f := OWN_HATCH_STAT_level) (by decide), request_own, if_neg (by simp [closed, idle])] at effect
    exact congrArg Host.Outcome.next (gated_uncounted sent effect (.inr (.inl rfl)))
  · intro q w s sent refused
    have effect := wrOwnZero_keyload (w := w) (s := request q OWN_ZERO s)
    rw [get_request_mid (f := OWN_HATCH_STAT_level) (by decide), request_own, if_pos refused] at effect
    exact congrArg Host.Outcome.next (gated_counted sent effect rfl)
  · intro s live loads
    exact congrArg Host.Outcome.next (keyLoaded_held live loads)
  · intro q k s sent slot buffer idle free good
    have buf : (request q OWN_FUSE_CMD s).get OWN_FUSE_BUF_buf = s.get OWN_FUSE_BUF_buf := get_request_mid (by decide)
    have effect := wrFuseCmd_enrol (s := request q OWN_FUSE_CMD s) (k := k) slot (by rwa [buf]) (by rwa [request_own])
      (by rwa [request_attic]) (by rwa [buf])
    rw [buf] at effect
    exact congrArg Host.Outcome.next (gated_uncounted sent effect (.inr (.inl rfl)))
  · intro q k s sent slot
    have effect := wrFuseCmd_range (op := 1) (s := request q OWN_FUSE_CMD s) (k := k) slot
    exact congrArg Host.Outcome.next (gated_uncounted sent effect (.inr (.inr (.inr rfl))))
  · intro q k s sent slot buffer refused
    have buf : (request q OWN_FUSE_CMD s).get OWN_FUSE_BUF_buf = s.get OWN_FUSE_BUF_buf := get_request_mid (by decide)
    have effect := wrFuseCmd_revoke_state (s := request q OWN_FUSE_CMD s) (k := k) slot (by rwa [buf])
      (by simpa only [lastUsable, request_own, request_attic] using refused)
    exact congrArg Host.Outcome.next (gated_counted sent effect rfl)
  · intro q k s sent slot buffer idle enrolled another
    have buf : (request q OWN_FUSE_CMD s).get OWN_FUSE_BUF_buf = s.get OWN_FUSE_BUF_buf := get_request_mid (by decide)
    have bytes : (request q OWN_FUSE_CMD s).bytes (s.get OWN_FUSE_BUF_buf) 32 = s.bytes (s.get OWN_FUSE_BUF_buf) 32 := by
      simp only [State.bytes, State.byte, request_mem]
    have effect := wrFuseCmd_revoke (s := request q OWN_FUSE_CMD s) (k := k) slot (by rwa [buf]) (by rwa [request_own])
      (by rwa [request_attic]) (by simpa only [lastUsable, request_attic] using another)
    rw [buf, bytes] at effect
    exact congrArg Host.Outcome.next (gated_uncounted sent effect (.inr (.inl rfl)))
  · intro f part copies s runs revoke inside
    refine ⟨_, rfl, ?_⟩
    obtain ⟨slot, rest⟩ := fuseDone_result runs inside (fun enrol => absurd (enrol.symm.trans revoke) (by decide)) part copies
    exact ⟨slot.trans (if_neg (by omega)), rest⟩
  · intro f part copies s runs enrol inside hash
    refine ⟨_, rfl, ?_⟩
    obtain ⟨slot, rest⟩ := fuseDone_result runs inside (fun _ => hash) part copies
    exact ⟨slot.trans ((if_pos enrol).trans (by rw [hash])), rest⟩
  · intro q s sent buffer idle ready
    have buf : (request q OWN_SIGN_CMD s).get OWN_SIGN_BUF_buf = s.get OWN_SIGN_BUF_buf := get_request_mid (by decide)
    have effect := wrSignCmd_held (q := q) (s := request q OWN_SIGN_CMD s) (op := 1) (.inl rfl)
      (fun sign => absurd sign (by decide)) (by rwa [buf]) (by rwa [request_own]) fun _ => (on_request_mid (by decide)).trans (on_of_get ready)
    rw [signTaken_request] at effect
    exact congrArg Host.Outcome.next (gated_uncounted sent effect (.inr (.inl rfl)))
  · intro q s sent right buffer idle
    have buf : (request q OWN_SIGN_CMD s).get OWN_SIGN_BUF_buf = s.get OWN_SIGN_BUF_buf := get_request_mid (by decide)
    have effect := wrSignCmd_held (q := q) (s := request q OWN_SIGN_CMD s) (op := 2) (.inr rfl) (fun _ => right) (by rwa [buf])
      (by rwa [request_own]) fun attest => absurd attest (by decide)
    rw [signTaken_request] at effect
    exact congrArg Host.Outcome.next (gated_uncounted sent effect (.inr (.inl rfl)))
  · intro q s sent misaligned
    have effect := wrSignCmd_named (q := q) (s := request q OWN_SIGN_CMD s) (op := 1) (.inl rfl)
      fun sign => absurd sign (by decide)
    rw [get_request_mid (f := OWN_SIGN_BUF_buf) (by decide), if_pos misaligned] at effect
    exact congrArg Host.Outcome.next
      ((gated_counted sent effect rfl).trans (completed_uncounted (c := .align) (by decide) (by decide)))
  · intro g s runs waits
    exact congrArg Host.Outcome.next (by rw [signDone, runs]; exact if_pos waits)
  · intro g s runs goes sign
    exact congrArg Host.Outcome.next (signDone_sign runs goes sign)
  · intro g h s runs goes attest hashed still
    exact congrArg Host.Outcome.next (signDone_attest runs goes attest hashed still)
  · intro c s
    have clear : ¬Router OWN_SIGN_RESULT := not_router_of_mid (by decide)
    have flag : ∀ (f : Fd) (v : State), f.a = OWN_SIGN_RESULT → (ownEvt 4 v).get f = v.get f := fun f v reg => by
      rw [ownEvt, State.flag, get_raise _ _ (by rwa [reg]), get_set_addr _ _ (by rw [reg]; decide)]
    have small : c.n < 256 := by cases c <;> decide
    refine ⟨?_, ?_, ?_, pending_raise ..⟩
    · rw [signEnd, ownEvt, State.flag, raise_own]
      rfl
    · rw [signEnd, flag _ _ rfl, get_set_bits _ _ (by decide) (by decide), get_set _ _ _ (by decide)]
      rfl
    · rw [signEnd, flag _ _ rfl, get_set _ _ _ (by decide)]
      exact Nat.mod_eq_of_lt small
  · intro q hiReg w s sent legal
    refine (execSecretWindowWrite_reg hiReg).trans (congrArg Host.Outcome.next (gated_uncounted sent ?_ (.inl rfl)))
    rw [wrSecret_new, secretNew_request_get _ _ (by decide), secretNew_request_get _ _ (by decide), if_pos (.inr legal)]
  · intro q hiReg w s sent illegal changes
    refine (execSecretWindowWrite_reg hiReg).trans (congrArg Host.Outcome.next (gated_uncounted sent ?_ (.inr (.inr (.inr rfl)))))
    rw [wrSecret_new, secretNew_request_get _ _ (by decide), secretNew_request_get _ _ (by decide), get_request_mid (by decide),
      get_request_mid (by decide), if_neg]
    rintro (⟨lo, hi⟩ | legal)
    · exact changes.elim (· lo) (· hi)
    · exact Bool.noConfusion (illegal.symm.trans legal)

end Sys2Proof.Machine

namespace Sys2Proof.Machine

/-! # The management bus and the hatch's instructions (R453, R457 to R461) -/

section
variable {s : State}

/-! ## The management bus -/

theorem i3c_alive {f : State → State} (alive : mgmtAlive s = true) : i3c f s = f s := if_pos alive

theorem i3cAssign_none (a : Nat) (free : s.own.dyn = none) : i3cAssign a s = updOwn (fun o => { o with dyn := some a }) s :=
  if_neg (by simp [i3cMode, free])

theorem i3cMode_some (assigned : s.own.dyn ≠ none) : i3cMode s = true := Option.isSome_iff_ne_none.2 assigned

theorem i3cGet_some (ws : List Word) (assigned : s.own.dyn ≠ none) : i3cGet ws s = s.retData ws := if_pos (i3cMode_some assigned)

/-- GETBCR's byte has the target's role, no HDR, no in-band data byte, and an in-band interrupt request. -/
theorem i3cBcr_bits : (BitVec.ofNat 32 i3cBcr : Word) &&& 0xE6 = 2 := by
  have masked : ∀ b : BitVec 32, (b &&& 0x19#32 ||| 0x02#32) &&& 0xE6#32 = 2#32 := fun b => by
    ext i hi
    interval_cases i <;> simp
  have bits : (BitVec.ofNat 32 i3cBcr : Word) = BitVec.ofNat 32 (Config.i3cReply 0x8E % 256) &&& 0x19#32 ||| 0x02#32 := by
    rw [i3cBcr, BitVec.ofNat_or, BitVec.ofNat_and]
  rw [bits]
  exact masked _

/-! ## Instructions of the hatch -/

theorem attic_forceOff (n cause : Nat) (s : State) : (forceOff n cause s).attic = s.attic := by
  unfold forceOff
  dsimp only
  split
  · rw [setTx, set_attic]
    rfl
  · rfl

theorem attic_forN {f : Nat → State → State} (n : Nat) (s : State) (step : ∀ i s, (f i s).attic = s.attic) :
    (forN n f s).attic = s.attic :=
  foldl_fixes State.attic _ _ fun s i => step i s

theorem attic_extestEnd (s : State) : (extestEnd s).attic = s.attic := by
  have lasers : (forN 8 (fun n s => forceOff n causeLaser s) (updOwn (fun o => { o with ext := false }) s)).attic = s.attic :=
    attic_forN 8 _ fun i s => attic_forceOff i causeLaser s
  unfold extestEnd
  split
  · dsimp only
    split
    · exact lasers
    · unfold rptTherm
      split
      · exact lasers
      · exact (attic_forN 128 _ fun k s => set_attic s (causeFd k cTherm) 0).trans lasers
  · rfl

theorem devId_hatchIn (c : Nat) (s : State) : devId (hatchIn c s) = devId s := by
  simp [devId, updOwn, attic_extestEnd]

section
variable (live : ownHeld s = false)
include live

/-- An instruction other than EXTEST that the level has. -/
theorem hatchRun_available {c : Nat} (f : State → State) (other : c ≠ 0) (available : hatchCan c (extestEnd s) = true) :
    hatchRun c f s = f (hatchIn c s) := by
  simp [hatchRun, live, other, available]

theorem hatchRun_unavailable {c : Nat} (f : State → State) (other : c ≠ 0) (missing : hatchCan c (extestEnd s) = false) :
    hatchRun c f s = hatchRefused s := by
  simp [hatchRun, live, other, missing]

/-- IDCODE, HATCH_CHAL, HATCH_MBOX, HATCH_CMD and BYPASS are available at every level. -/
theorem hatchRun_every {c : Nat} (f : State → State) (every : c = 2 ∨ c = 0x10 ∨ c = 0x11 ∨ c = 0x12 ∨ c = 0xFF) :
    hatchRun c f s = f (hatchIn c s) := by
  refine hatchRun_available live f (by omega) ?_
  rcases every with rfl | rfl | rfl | rfl | rfl <;> rfl

theorem hatchRun_extest (owner : hatchOwner s = true) : hatchRun 0 extest s = extest (updOwn (fun o => { o with ir := 0 }) s) := by
  simp [hatchRun, live, hatchCan, owner]

end

theorem hatchCmd_other {op : Nat} (other : op = 0 ∨ 3 < op) (s : State) : hatchCmd op s = hatchEnd .range s := by
  match op, other with
  | 0, _ => rfl
  | 1, h => exact absurd h (by decide)
  | 2, h => exact absurd h (by decide)
  | 3, h => exact absurd h (by decide)
  | _ + 4, _ => rfl

/-- VERIFY of one of the slots 8 to 11, with the length of a signature. -/
def VerifyNamed (s : State) : Prop :=
  leVal (mboxBytes 0 4 s) ≤ 3 ∧ 0 < leVal (mboxBytes 0x710 4 s) ∧ leVal (mboxBytes 0x710 4 s) ≤ 1280

theorem hatchVerify_locked (locked : s.get OWN_HATCH_STAT_locked = 1) :
    hatchVerify s = hatchEnd .state (updOwn (fun o => { o with nonce := none }) s) :=
  if_pos (on_of_get locked)

section
variable (unlocked : s.get OWN_HATCH_STAT_locked = 0)
include unlocked

theorem hatchVerify_range (other : ¬VerifyNamed s) : hatchVerify s = hatchEnd .range (updOwn (fun o => { o with nonce := none }) s) := by
  have bounds : 3 < leVal (mboxBytes 0 4 s) ∨ leVal (mboxBytes 0x710 4 s) = 0 ∨ 1280 < leVal (mboxBytes 0x710 4 s) := by
    unfold VerifyNamed at other
    omega
  exact (if_neg (ne_true_of_eq_false (not_on_of_get unlocked))).trans (if_pos bounds)

section
variable (named : VerifyNamed s)
include named

/-- VERIFY by its nonce, where neither the lock nor the mailbox's slot and length end it. -/
theorem hatchVerify_nonce :
    hatchVerify s =
      (let t := updOwn (fun o => { o with nonce := none }) s
      match s.own.nonce with
      | none => hatchEnd .state t
      | some (n, taken) =>
        if nonceLife < s.now - taken then hatchEnd .timeout t
        else if (nth s.attic.slots (8 + leVal (mboxBytes 0 4 s))).usable &&
            decide (Config.shake256 32 (mboxBytes 8 1793 s) = (nth s.attic.slots (8 + leVal (mboxBytes 0 4 s))).hash) &&
            Config.falconVerify (mboxBytes 8 1793 s) (n ++ devId s) (mboxBytes 0x714 (leVal (mboxBytes 0x710 4 s)) s) then
          hatchEnd .done (hatchLevel 2 (t.set OWN_HATCH_STAT_fails 0))
        else hatchEnd .signature t) := by
  obtain ⟨slot, long, short⟩ := named
  have inside : ¬(3 < leVal (mboxBytes 0 4 s) ∨ leVal (mboxBytes 0x710 4 s) = 0 ∨ 1280 < leVal (mboxBytes 0x710 4 s)) := by omega
  exact (if_neg (ne_true_of_eq_false (not_on_of_get unlocked))).trans (if_neg inside)

theorem hatchVerify_noNonce (missing : s.own.nonce = none) :
    hatchVerify s = hatchEnd .state (updOwn (fun o => { o with nonce := none }) s) := by
  rw [hatchVerify_nonce unlocked named, missing]

theorem hatchVerify_fresh {n : List Byte} {taken : Nat} (held : s.own.nonce = some (n, taken)) (fresh : s.now - taken ≤ nonceLife) :
    hatchVerify s =
      if (nth s.attic.slots (8 + leVal (mboxBytes 0 4 s))).usable = true ∧
          Config.shake256 32 (mboxBytes 8 1793 s) = (nth s.attic.slots (8 + leVal (mboxBytes 0 4 s))).hash ∧
          Config.falconVerify (mboxBytes 8 1793 s) (n ++ devId s) (mboxBytes 0x714 (leVal (mboxBytes 0x710 4 s)) s) = true
      then hatchEnd .done (hatchLevel 2 ((updOwn (fun o => { o with nonce := none }) s).set OWN_HATCH_STAT_fails 0))
      else hatchEnd .signature (updOwn (fun o => { o with nonce := none }) s) := by
  rw [hatchVerify_nonce unlocked named, held]
  dsimp only
  rw [if_neg (by omega)]
  simp only [Bool.and_eq_true, decide_eq_true_eq, and_assoc]

end

theorem hatchPassword_set {h : List Byte} (enrolled : s.attic.pass = some h) (nonzero : (h.all fun b => decide (b = 0)) = false) :
    hatchPassword s =
      if Config.shake256 32 (mboxBytes 0 32 s) = h then
        hatchEnd .done (if (s.set OWN_HATCH_STAT_fails 0).get OWN_HATCH_STAT_level = 0
          then hatchLevel 1 (s.set OWN_HATCH_STAT_fails 0) else s.set OWN_HATCH_STAT_fails 0)
      else hatchEnd .signature s := by
  unfold hatchPassword
  rw [enrolled]
  dsimp only
  rw [not_on_of_get unlocked, nonzero]
  exact if_neg Bool.false_ne_true

end

end

/-- Settles O32: each instruction runs on the state that has ended EXTEST and holds its code; EXTEST keeps the enrolled keys. -/
theorem hatchAndManagementBus : Obligations.HatchAndManagementBus := by
  unfold Obligations.HatchAndManagementBus
  refine ⟨?_, ?_, ?_, ?_, ?_, ?_, ?_, ?_, ?_, ?_, ?_, ?_, ?_, ?_, ?_⟩
  · intro a s alive free
    have assigned := (i3c_alive (f := i3cAssign a) alive).trans (i3cAssign_none a free)
    exact ⟨congrArg Host.Outcome.next assigned, congrArg Host.Outcome.next assigned⟩
  · intro s alive
    exact congrArg Host.Outcome.next (i3c_alive alive)
  · intro s alive assigned
    have answers : ∀ ws, i3c (i3cGet ws) s = s.retData ws := fun ws => (i3c_alive alive).trans (i3cGet_some ws assigned)
    have mode := i3cMode_some assigned
    refine ⟨congrArg Host.Outcome.next ((i3c_alive alive).trans (if_pos mode)),
      congrArg Host.Outcome.next ((i3c_alive alive).trans (if_pos mode)),
      congrArg Host.Outcome.next ((i3c_alive alive).trans (i3cGet_some _ assigned)),
      ⟨_, congrArg Host.Outcome.next (answers _), rfl, i3cBcr_bits⟩, congrArg Host.Outcome.next (answers _),
      congrArg Host.Outcome.next (answers _), congrArg Host.Outcome.next (answers _), ?_⟩
    exact congrArg Host.Outcome.next ((i3c_alive alive).trans (i3cGet_some (s := s.freeNext) _ assigned))
  · intro s live
    exact ⟨congrArg Host.Outcome.next (hatchRun_every live _ (.inl rfl)),
      congrArg Host.Outcome.next (hatchRun_every live _ (.inr (.inr (.inr (.inr rfl)))))⟩
  · intro ws s live
    refine ⟨congrArg Host.Outcome.next (hatchRun_every live _ (.inr (.inr (.inl rfl)))), ?_,
      congrArg Host.Outcome.next (hatchRun_every live _ (.inr (.inr (.inr (.inl rfl)))))⟩
    exact congrArg Host.Outcome.next (if_neg (ne_true_of_eq_false live))
  · intro op s live other
    refine congrArg Host.Outcome.next ((hatchRun_every live _ (.inr (.inr (.inr (.inl rfl))))).trans (hatchCmd_other ?_ _))
    exact other.imp (congrArg BitVec.toNat) id
  · intro s live available
    exact congrArg Host.Outcome.next (hatchRun_available live id (by decide) available)
  · intro s live missing
    exact congrArg Host.Outcome.next (hatchRun_unavailable live id (by decide) missing)
  · intro b s live other missing
    exact congrArg Host.Outcome.next (hatchRun_unavailable live _ (fun zero => other (BitVec.eq_of_toNat_eq zero)) missing)
  · intro s live owner
    exact congrArg Host.Outcome.next (hatchRun_extest live owner)
  · intro s live
    refine ⟨_, congrArg Host.Outcome.next (hatchRun_every live _ (.inr (.inl rfl))), rfl, rfl, ?_, ?_⟩
    · simp [hatchChal, State.retData]
    · rw [← devId_hatchIn 0x10 s]
      rfl
  · intro s live refused
    refine congrArg Host.Outcome.next ((hatchRun_every live _ (.inr (.inr (.inr (.inl rfl))))).trans ?_)
    by_cases locked : (hatchIn 0x12 s).get OWN_HATCH_STAT_locked = 1
    · exact hatchVerify_locked locked
    · obtain ⟨slot, long, short, missing⟩ := refused.resolve_left locked
      have bit : (hatchIn 0x12 s).get OWN_HATCH_STAT_locked < 2 := fieldOf_lt ..
      exact hatchVerify_noNonce (by omega) ⟨slot, long, short⟩ missing
  · intro s live unlocked other
    refine congrArg Host.Outcome.next ((hatchRun_every live _ (.inr (.inr (.inr (.inl rfl))))).trans (hatchVerify_range unlocked ?_))
    rintro ⟨slot, long, short⟩
    omega
  · intro n t s live unlocked named held fresh
    exact congrArg Host.Outcome.next ((hatchRun_every live _ (.inr (.inr (.inr (.inl rfl))))).trans
      (hatchVerify_fresh unlocked named held fresh))
  · intro h s live enrolled unlocked nonzero
    exact congrArg Host.Outcome.next ((hatchRun_every live _ (.inr (.inr (.inr (.inl rfl))))).trans
      (hatchPassword_set unlocked enrolled nonzero))

end Sys2Proof.Machine

namespace Sys2Proof.Machine

/-! # The system domain's switch, CLKOUT, the gated clocks and CLK_NOFOSC (R380 to R386, R391) -/

section
variable {q : Rq} {w : Word} {s : State}

theorem srcReady_request (b src : Nat) : srcReady src (request q b s) = srcReady src s := by
  have fosc : (request q b s).on CRP_CLK_STAT_fosc_ready = s.on CRP_CLK_STAT_fosc_ready := on_request_low (by decide)
  have spll : (request q b s).on (pllReady 2) = s.on (pllReady 2) := on_request_low (by decide)
  rw [srcReady, fosc, spll, srcReady]

theorem clkoutMax_request (b src : Nat) : clkoutMax src (request q b s) = clkoutMax src s := by
  have strap : (request q b s).on CRP_CLK_STAT_ref_312 = s.on CRP_CLK_STAT_ref_312 := on_request_low (by decide)
  simp only [clkoutMax, pllHz, pllRatio, refHz, strap]

/-! ## CRP_SYS_SEL -/

/-- The source that the command names. -/
theorem wf_srcWord (src : Bool) : wf (force 0 CRP_SYS_SEL_src src.toNat) CRP_SYS_SEL_src = src.toNat := by
  rw [wf_force _ (by decide)]
  cases src <;> rfl

theorem wrSysSel_src (src : Bool) :
    wrSysSel (force 0 CRP_SYS_SEL_src src.toNat) s =
      if s.clk.sw.isSome = true ∨ s.on CRP_CLK_STAT_sys_gated = true then sysSel .state s
      else if src.toNat = s.get CRP_CLK_STAT_sys_src then sysSel .done (s.set CRP_SYS_SEL_src src.toNat)
      else if (!srcReady src.toNat s) = true then sysSel .notReady s
      else sysSel .held (swBegin src.toNat true [] (s.set CRP_SYS_SEL_src src.toNat)) := by
  unfold wrSysSel
  rw [wf_srcWord]

/-- The same in the state that has accepted the write. -/
theorem wrSysSel_request (src : Bool) :
    wrSysSel (force 0 CRP_SYS_SEL_src src.toNat) (request q CRP_SYS_SEL s) =
      (let t := request q CRP_SYS_SEL s
      if s.clk.sw.isSome = true ∨ s.on CRP_CLK_STAT_sys_gated = true then sysSel .state t
      else if src.toNat = s.get CRP_CLK_STAT_sys_src then sysSel .done (t.set CRP_SYS_SEL_src src.toNat)
      else if (!srcReady src.toNat s) = true then sysSel .notReady t
      else sysSel .held (swBegin src.toNat true [] (t.set CRP_SYS_SEL_src src.toNat))) := by
  have gate : (request q CRP_SYS_SEL s).on CRP_CLK_STAT_sys_gated = s.on CRP_CLK_STAT_sys_gated := on_request_low (by decide)
  have source : (request q CRP_SYS_SEL s).get CRP_CLK_STAT_sys_src = s.get CRP_CLK_STAT_sys_src := get_request_low (by decide)
  rw [wrSysSel_src, gate, source, srcReady_request, request_clk_sw]

/-- No switch is in progress and the domain has its clock. -/
theorem sysSel_free (idle : s.clk.sw = none ∧ s.get CRP_CLK_STAT_sys_gated = 0) :
    ¬(s.clk.sw.isSome = true ∨ s.on CRP_CLK_STAT_sys_gated = true) := by
  simp [idle.1, not_on_of_get idle.2]

theorem sysSel_taken (busy : s.clk.sw ≠ none ∨ s.get CRP_CLK_STAT_sys_gated = 1) :
    s.clk.sw.isSome = true ∨ s.on CRP_CLK_STAT_sys_gated = true :=
  busy.imp Option.isSome_iff_ne_none.2 on_of_get

/-! ## CRP_CLKOUT -/

theorem wrClkout_changed (changed : s.chg w CRP_CLKOUT_en = true ∨ s.chg w CRP_CLKOUT_src = true ∨ s.chg w CRP_CLKOUT_div_m1 = true) :
    wrClkout w s =
      if 23 < wf w CRP_CLKOUT_src ∨ 250000000 * (wf w CRP_CLKOUT_div_m1 + 1) < clkoutMax (wf w CRP_CLKOUT_src) s
      then (s.set CRP_CLKOUT_outcome Code.range.n).ret .range
      else if s.on CRP_CLKOUT_busy = true then (s.set CRP_CLKOUT_outcome Code.state.n).ret .state
      else ((((s.store CRP_CLKOUT CRP_CLKOUT_fs w).set CRP_CLKOUT_busy 1).set CRP_CLKOUT_outcome Code.held.n).ret .held) := by
  refine if_neg ?_
  rcases changed with c | c | c <;> simp [c]

theorem wrClkout_request (changed : s.chg w CRP_CLKOUT_en = true ∨ s.chg w CRP_CLKOUT_src = true ∨ s.chg w CRP_CLKOUT_div_m1 = true) :
    wrClkout w (request q CRP_CLKOUT s) =
      (let t := request q CRP_CLKOUT s
      if 23 < wf w CRP_CLKOUT_src ∨ 250000000 * (wf w CRP_CLKOUT_div_m1 + 1) < clkoutMax (wf w CRP_CLKOUT_src) s
      then (t.set CRP_CLKOUT_outcome Code.range.n).ret .range
      else if s.on CRP_CLKOUT_busy = true then (t.set CRP_CLKOUT_outcome Code.state.n).ret .state
      else ((((t.store CRP_CLKOUT CRP_CLKOUT_fs w).set CRP_CLKOUT_busy 1).set CRP_CLKOUT_outcome Code.held.n).ret .held)) := by
  have fields : ∀ f : Fd, f.a < 0x40300000 → (request q CRP_CLKOUT s).chg w f = s.chg w f := fun f low => chg_request_low low
  have busy : (request q CRP_CLKOUT s).on CRP_CLKOUT_busy = s.on CRP_CLKOUT_busy := on_request_low (by decide)
  rw [wrClkout_changed (by rwa [fields _ (by decide), fields _ (by decide), fields _ (by decide)]), clkoutMax_request, busy]

/-! ## The end of a switch, and CLK_NOFOSC -/

theorem sysSwitched_command {target : Nat} (switch : s.clk.sw = some ⟨target, true, []⟩) (alive : srcAlive target s = true) :
    sysSwitched false s = clkEvt 1 (((updClk (fun c => { c with sw := none }) (swReached target (s.set CRP_SYS_SEL_busy 0))).set
      CRP_SYS_SEL_forced 0).set CRP_SYS_SEL_outcome Code.done.n) := by
  unfold sysSwitched
  rw [switch]
  dsimp only
  rw [if_neg (by simp [alive])]
  simp only [Bool.false_eq_true, if_false, if_true, Bool.toNat_false, List.foldl_nil]

theorem rst_portsFenced (s : State) : (portsFenced s).rst = s.rst := by
  unfold portsFenced
  rw [foldl_fixes State.rst]
  intro t x
  cases x with
  | write q a bytes => exact (quiet_completed q a true .fenced _).rst
  | read q a => exact (quiet_completed q a false .fenced _).rst
  | hatch a w => exact (quiet_completed ..).rst
  | window => rfl

theorem rst_swAbort (s : State) : (swAbort s).rst = s.rst := by
  unfold swAbort
  split
  · rfl
  · dsimp only
    split
    · exact raise_rst ..
    · rfl

theorem nofoscReset_gated (gated : s.get CRP_CLK_STAT_sys_gated = 1 ∧ s.get CRP_CLK_STAT_fosc_ready = 0)
    (runs : fullHeld s = false ∧ s.stop = false ∧ s.rst.nofosc = false) :
    nofoscReset s =
      (let t := portsFenced (swAbort s)
      if s.rst.released then nofoscRelease (updRst (fun r => { r with nofosc := true }) (wideReset [5] t))
      else resetDie false (fullReset 5 (fun r => { r with wide := true, nofosc := true, deep := true }) t)) := by
  obtain ⟨off, unready⟩ := gated
  obtain ⟨full, stop, none⟩ := runs
  have applies : ¬(!s.on CRP_CLK_STAT_sys_gated || s.on CRP_CLK_STAT_fosc_ready || fullHeld s || s.stop || s.rst.nofosc) = true := by
    simp [on_of_get off, not_on_of_get unready, full, stop, none]
  unfold nofoscReset
  rw [if_neg applies]
  dsimp only
  rw [rst_portsFenced, rst_swAbort]

end

/-- Settles O47: a write is judged by what its request leaves of the switch, the source and the ready bits. -/
theorem clockSwitches : Obligations.ClockSwitches := by
  unfold Obligations.ClockSwitches
  refine ⟨?_, ?_, ?_, ?_, ?_, ?_, ?_, ?_, ?_, ?_, ?_⟩
  · intro q src s sent idle other ready
    have effect := wrSysSel_request (q := q) (s := s) src
    rw [if_neg (sysSel_free idle), if_neg other, if_neg (by simp [ready])] at effect
    exact congrArg Host.Outcome.next (gated_uncounted sent effect (.inr (.inl rfl)))
  · intro q src s sent idle current
    have effect := wrSysSel_request (q := q) (s := s) src
    rw [if_neg (sysSel_free idle), if_pos current] at effect
    exact congrArg Host.Outcome.next (gated_uncounted sent effect (.inl rfl))
  · intro q src s sent idle other unready
    have effect := wrSysSel_request (q := q) (s := s) src
    rw [if_neg (sysSel_free idle), if_neg other, if_pos (by simp [unready])] at effect
    exact congrArg Host.Outcome.next (gated_counted sent effect rfl)
  · intro q src s sent busy
    have effect := wrSysSel_request (q := q) (s := s) src
    rw [if_pos (sysSel_taken busy)] at effect
    exact congrArg Host.Outcome.next (gated_counted sent effect rfl)
  · intro t s switch alive
    exact congrArg Host.Outcome.next (congrArg thaw (sysSwitched_command switch alive))
  · intro s busy
    exact congrArg Host.Outcome.next (if_pos (on_of_get busy))
  · intro q w s sent changed inside idle
    have effect := wrClkout_request (q := q) changed
    rw [if_neg (by omega), if_neg (by simp [not_on_of_get idle])] at effect
    exact congrArg Host.Outcome.next (gated_uncounted sent effect (.inr (.inl rfl)))
  · intro q w s sent changed outside
    have effect := wrClkout_request (q := q) changed
    rw [if_pos outside] at effect
    exact congrArg Host.Outcome.next (gated_uncounted sent effect (.inr (.inr (.inr rfl))))
  · intro b s idle
    exact congrArg Host.Outcome.next (if_neg (ne_true_of_eq_false idle))
  · intro b s works
    exact congrArg Host.Outcome.next (if_pos works)
  · intro s gated runs
    exact congrArg Host.Outcome.next (congrArg thaw (nofoscReset_gated gated runs))

end Sys2Proof.Machine

namespace Sys2Proof.Machine

/-! # Core commands and the loader (R308, R313 to R316, R406) -/

section
variable {s : State}

/-! ## The word of a core command -/

theorem wf_coreWord_op (c : Nat) {op : Nat} (b : Bool) (small : op < 8) : wf (coreWord c op b) (OWN_CORE_CTRL_op c) = op := by
  have shelf : 0 + 3 ≤ 3 ∨ 3 + 1 ≤ 0 := by decide
  have other := wf_force_ne (force 0 (OWN_CORE_CTRL_op c) op) (f := OWN_CORE_CTRL_boot_shelf c) (g := OWN_CORE_CTRL_op c) (v := b.toNat)
    shelf.symm (Nat.le_of_ble_eq_true rfl)
  exact other.trans ((wf_force 0 (f := OWN_CORE_CTRL_op c) (Nat.le_of_ble_eq_true rfl)).trans (Nat.mod_eq_of_lt small))

theorem fieldOf_coreWord_shelf (c op : Nat) (b : Bool) : fieldOf (coreWord c op b) 3 1 = b.toNat := by
  have shelf := wf_force (force 0 (OWN_CORE_CTRL_op c) op) (f := OWN_CORE_CTRL_boot_shelf c) (v := b.toNat) (Nat.le_of_ble_eq_true rfl)
  cases b <;> exact shelf

/-- The boot shelf is the one stored field of OWN_CORE_CTRL. -/
theorem bootShelf_store (c op : Nat) (b : Bool) (s : State) :
    (s.store (OWN_CORE_CTRL c) OWN_CORE_CTRL_fs (coreWord c op b)).get (OWN_CORE_CTRL_boot_shelf c) = b.toNat := by
  rw [store_get s (a := OWN_CORE_CTRL c) (g := OWN_CORE_CTRL_boot_shelf c) rfl]
  simp only [OWN_CORE_CTRL_fs, mergeWord, List.foldl_cons, List.foldl_nil, fieldOf_coreWord_shelf]
  rw [OWN_CORE_CTRL_boot_shelf, fieldOf_putField _ _ _ _ (by decide)]
  cases b <;> rfl

section
variable {c : Nat} {b : Bool} (core : c < 12)
include core

theorem wrCoreCtrl_start : wrCoreCtrl c (coreWord c 1 b) s = coreStart c (s.store (OWN_CORE_CTRL c) OWN_CORE_CTRL_fs (coreWord c 1 b)) := by
  unfold wrCoreCtrl
  rw [wf_coreWord_op _ _ (by decide), if_neg (by omega)]
  exact (if_neg (by decide)).trans (if_neg (by omega))

theorem wrCoreCtrl_halt : wrCoreCtrl c (coreWord c 2 b) s = coreHalt c (s.store (OWN_CORE_CTRL c) OWN_CORE_CTRL_fs (coreWord c 2 b)) := by
  unfold wrCoreCtrl
  rw [wf_coreWord_op _ _ (by decide), if_neg (by omega)]
  exact (if_neg (by decide)).trans (if_neg (by omega))

theorem wrCoreCtrl_resume :
    wrCoreCtrl c (coreWord c 3 b) s = coreResume c (s.store (OWN_CORE_CTRL c) OWN_CORE_CTRL_fs (coreWord c 3 b)) := by
  unfold wrCoreCtrl
  rw [wf_coreWord_op _ _ (by decide), if_neg (by omega)]
  exact (if_neg (by decide)).trans (if_neg (by omega))

theorem wrCoreCtrl_reset :
    wrCoreCtrl c (coreWord c 4 b) s = coreResetCmd c (s.store (OWN_CORE_CTRL c) OWN_CORE_CTRL_fs (coreWord c 4 b)) := by
  unfold wrCoreCtrl
  rw [wf_coreWord_op _ _ (by decide), if_neg (by omega)]
  exact (if_neg (by decide)).trans (if_neg (by omega))

end

theorem wrCoreCtrl_none {c : Nat} {b : Bool} (core : c < 13) :
    wrCoreCtrl c (coreWord c 0 b) s = (s.store (OWN_CORE_CTRL c) OWN_CORE_CTRL_fs (coreWord c 0 b)).ret .done := by
  unfold wrCoreCtrl
  rw [wf_coreWord_op _ _ (by decide), if_neg (by omega)]
  exact if_pos rfl

/-- A command to SC. -/
theorem wrCoreCtrl_sc {op : Nat} {b : Bool} (named : 0 < op ∧ op < 8) :
    wrCoreCtrl 12 (coreWord 12 op b) s = coreEnd 12 op .range (s.store (OWN_CORE_CTRL 12) OWN_CORE_CTRL_fs (coreWord 12 op b)) := by
  unfold wrCoreCtrl
  rw [wf_coreWord_op _ _ named.2, if_neg (by decide)]
  exact (if_neg (by omega)).trans (if_pos (.inl rfl))

/-! ## A core in the state that has accepted its command -/

section
variable {q : Rq} {c : Nat} {op : Nat} {b : Bool} (core : c < 13)
include core

theorem get_coreAsked {f : Fd} (status : f.a = OWN_CORE_STAT c) : (coreAsked q c op b s).get f = s.get f := by
  have mid : 0x40300040 ≤ f.a ∧ f.a < 0x40A00000 := by
    rw [status, OWN_CORE_STAT]
    omega
  rw [coreAsked, wrote, store_get_ne _ (by rw [status, OWN_CORE_CTRL, OWN_CORE_STAT]; omega), get_request_mid mid]

theorem coreState_asked : coreState c (coreAsked q c op b s) = coreState c s := get_coreAsked core rfl

theorem checked_asked (sh : Nat) : (coreAsked q c op b s).on (chkFd c sh) = s.on (chkFd c sh) := by
  simp only [State.on]
  rw [get_coreAsked core (by unfold chkFd; split <;> rfl)]

end

theorem inWait_asked (q : Rq) (c op : Nat) (b : Bool) (s : State) : inWait c (coreAsked q c op b s) = inWait c s := by
  have wait : ((coreAsked q c op b s).cpu c).wait = (s.cpu c).wait := request_cpu_wait s q (OWN_CORE_CTRL c) c
  simp only [inWait, wait]

section
variable {q : Rq} {c : Nat} {b : Bool} (core : c < 13)
include core

theorem coreStart_asked :
    coreStart c (coreAsked q c 1 b s) = if coreState c s = 0 ∧ s.on (chkFd c b.toNat) = true
      then coreEnd c 1 .done (coreStarted c b.toNat (coreAsked q c 1 b s)) else coreEnd c 1 .state (coreAsked q c 1 b s) := by
  unfold coreStart
  rw [bootShelf_store, coreState_asked core]
  dsimp only
  rw [checked_asked core]

theorem coreHalt_asked :
    coreHalt c (coreAsked q c 2 b s) = if coreState c s ≠ 1 then coreEnd c 2 .state (coreAsked q c 2 b s)
      else if inWait c s then coreEnd c 2 .done (coreHalted c (coreAsked q c 2 b s))
      else coreEnd c 2 .held (updCpu c (fun k => { k with haltReq := 1 }) (coreAsked q c 2 b s)) := by
  unfold coreHalt
  rw [coreState_asked core, inWait_asked]

theorem coreResume_asked :
    coreResume c (coreAsked q c 3 b s) = if coreState c s = 2
      then coreEnd c 3 .done ((coreAsked q c 3 b s).set (OWN_CORE_STAT_state c) 1) else coreEnd c 3 .state (coreAsked q c 3 b s) := by
  unfold coreResume
  rw [coreState_asked core]

end

theorem haltDone_asked {c : Nat} (runs : coreState c s = 1) (boundary : inSwap c s = false) (asked : (s.cpu c).haltReq = 1) :
    haltDone c s = ((coreHalted c s).set (OWN_CORE_RESULT_outcome c) Code.done.n).set (OWN_CORE_RESULT_op c) 2 := by
  unfold haltDone
  rw [if_pos ⟨runs, by simp [boundary]⟩, asked] <;> rfl

/-! ## LOAD -/

theorem wrLdCmd_load {c : Nat} (small : c < 16) : wrLdCmd (loadWord c) s = loadStart c s := by
  have load : wf (loadWord c) OWN_LD_CMD_load = 1 := by
    rw [loadWord, wf_force_ne _ (.inl (by decide)) (by decide), wf_force _ (by decide)]
    rfl
  have core : wf (loadWord c) OWN_LD_CMD_core = c := by
    rw [loadWord, wf_force _ (by decide)]
    exact Nat.mod_eq_of_lt small
  unfold wrLdCmd
  rw [load, core]
  exact if_neg (by decide)

section
variable {q : Rq} {c : Nat}

/-- LOAD, in the state that its request and the read of the image's header have left. -/
theorem loadStart_seen (aligned : s.get OWN_LD_SRC_addr % 8 = 0) :
    loadStart c (request q OWN_LD_CMD s) =
      (let t := loadSeen q s
      if 12 < c ∨ (!imageFits (s.get OWN_LD_SRC_addr) t) = true then loadNow .range t
      else if t.load.isSome = true ∨ t.on (OWN_CORE_STAT_armed c) = true ∨ t.rst.atticBusy = true ∨ t.on CRP_ATTIC_STAT_hold = true
        then loadNow .state t
      else loadHeld c (if coreState c t = 0 then t.get (OWN_CORE_CTRL_boot_shelf c) else idleShelf c t) (s.get OWN_LD_SRC_addr)
        (decide (coreState c t = 0) || (decide (c = 12) && scInRom t)) t) := by
  have src : (request q OWN_LD_CMD s).get OWN_LD_SRC_addr = s.get OWN_LD_SRC_addr := get_request_mid (by decide)
  unfold loadStart
  rw [src]
  dsimp only
  rw [if_neg (not_not.2 aligned)]

theorem loadStart_misaligned (misaligned : s.get OWN_LD_SRC_addr % 8 ≠ 0) :
    loadStart c (request q OWN_LD_CMD s) = loadNow .align (request q OWN_LD_CMD s) := by
  have src : (request q OWN_LD_CMD s).get OWN_LD_SRC_addr = s.get OWN_LD_SRC_addr := get_request_mid (by decide)
  unfold loadStart
  rw [src]
  exact if_pos misaligned

variable (aligned : s.get OWN_LD_SRC_addr % 8 = 0) (known : c ≤ 12) (fits : imageFits (s.get OWN_LD_SRC_addr) (loadSeen q s) = true)
include aligned known fits

theorem loadStart_state (busy : (loadSeen q s).load ≠ none ∨ (loadSeen q s).get (OWN_CORE_STAT_armed c) = 1 ∨
    (loadSeen q s).rst.atticBusy = true ∨ (loadSeen q s).get CRP_ATTIC_STAT_hold = 1) :
    loadStart c (request q OWN_LD_CMD s) = loadNow .state (loadSeen q s) := by
  have legal : ¬(12 < c ∨ (!imageFits (s.get OWN_LD_SRC_addr) (loadSeen q s)) = true) := by simp [fits, known]
  rw [loadStart_seen aligned]
  exact (if_neg legal).trans (if_pos (busy.imp Option.isSome_iff_ne_none.2 (Or.imp on_of_get (Or.imp_right on_of_get))))

theorem loadStart_held (idle : (loadSeen q s).load = none)
    (ready : (loadSeen q s).rst.atticBusy = false ∧ (loadSeen q s).get CRP_ATTIC_STAT_hold = 0)
    (unarmed : (loadSeen q s).get (OWN_CORE_STAT_armed c) = 0) :
    loadStart c (request q OWN_LD_CMD s) =
      (let t := loadSeen q s
      loadHeld c (if coreState c t = 0 then t.get (OWN_CORE_CTRL_boot_shelf c) else idleShelf c t) (s.get OWN_LD_SRC_addr)
        (decide (coreState c t = 0) || (decide (c = 12) && scInRom t)) t) := by
  have legal : ¬(12 < c ∨ (!imageFits (s.get OWN_LD_SRC_addr) (loadSeen q s)) = true) := by simp [fits, known]
  have free : ¬((loadSeen q s).load.isSome = true ∨ (loadSeen q s).on (OWN_CORE_STAT_armed c) = true ∨
      (loadSeen q s).rst.atticBusy = true ∨ (loadSeen q s).on CRP_ATTIC_STAT_hold = true) := by
    simp [idle, ready.1, not_on_of_get ready.2, not_on_of_get unarmed]
  rw [loadStart_seen aligned]
  exact (if_neg legal).trans (if_neg free)

end

/-! ## What a read of a unit's memory leaves -/

/-- The registers of the memory units. -/
abbrev MemReg (a : Nat) : Prop := 0x40500000 ≤ a ∧ a < 0x40501000

/-- What a state holds beside `State.bare`'s exceptions, its memory with the marks and buffers, and the cores' posted stores. -/
def State.unmem (s : State) : State :=
  { s.bare with mem := [], ecc := [], merge := [], cores := s.bare.cores.map fun k => { k with posted := [] } }

/-- A step of the memory units: registers outside them and beside the router's stay, and so does all but memory. -/
def MemStep (s t : State) : Prop := (∀ a, ¬Router a → ¬MemReg a → t.rd a = s.rd a) ∧ t.unmem = s.unmem

theorem MemStep.refl (s : State) : MemStep s s := ⟨fun _ _ _ => rfl, rfl⟩

theorem MemStep.trans {s t u : State} (first : MemStep s t) (next : MemStep t u) : MemStep s u :=
  ⟨fun a router unit => (next.1 a router unit).trans (first.1 a router unit), next.2.trans first.2⟩

theorem Quiet.memStep {s t : State} (quiet : Quiet s t) : MemStep s t := by
  obtain ⟨regs, bare, -⟩ := quiet
  exact ⟨fun a router _ => regs a router, by rw [State.unmem, bare, State.unmem]⟩

/-- A register of the memory units is written, and nothing else. -/
theorem memStep_wr {a : Nat} (unit : MemReg a) (v : Word) (s : State) : MemStep s (s.wr a v) :=
  ⟨fun _ _ other => rd_wr_ne s v fun same => other (same ▸ unit), rfl⟩

theorem memStep_set {f : Fd} (unit : MemReg f.a) (v : Nat) (s : State) : MemStep s (s.set f v) := memStep_wr unit _ s

theorem memStep_flagLimited {f : Fd} (unit : MemReg f.a) (e gap : Nat) (s : State) : MemStep s (s.flagLimited f e gap) :=
  ⟨fun _ router other => rd_flagLimited_ne s router fun same => other (same ▸ unit), by
    rw [State.unmem, bare_flagLimited, State.unmem]⟩

theorem memStep_foldl {α : Type} (l : List α) {f : State → α → State} (s : State) (step : ∀ s x, MemStep s (f s x)) :
    MemStep s (l.foldl f s) := by
  induction l generalizing s with
  | nil => exact MemStep.refl s
  | cons x l ih => exact (step s x).trans (ih _)

/-- Its posted stores apart, a core stays. -/
theorem memStep_updCpu (c : Nat) {f : Cpu → Cpu} (s : State)
    (posted : ∀ k, ({ (f k).bare with posted := [] } : Cpu) = { k.bare with posted := [] }) : MemStep s (updCpu c f s) := by
  refine ⟨fun _ _ _ => rfl, ?_⟩
  have cores : ∀ (l : List Cpu) (n : Nat), ((upd l n f).map Cpu.bare).map (fun k => ({ k with posted := [] } : Cpu)) =
      (l.map Cpu.bare).map fun k => { k with posted := [] } := by
    intro l
    induction l with
    | nil => intro n; rfl
    | cons x t ih => intro n; cases n <;> simp [upd, posted, ih]
  simp only [State.unmem, State.bare, Machine.updCpu, cores]

/-! ## The units' operations are such steps -/

theorem memStep_addSat {f : Fd} (unit : MemReg f.a) (n : Nat) (s : State) : MemStep s (s.addSat f n) :=
  ⟨fun _ _ other => addSat_rd_ne s fun same => other (same ▸ unit), rfl⟩

theorem memStep_eccCorrected (u : Nat) (q : Rq) (a : Nat) (s : State) : MemStep s (eccCorrected u q a s) :=
  (memStep_addSat (by decide) 1 s).trans ((memStep_set (by decide) u _).trans
    ((memStep_flagLimited (by decide) 24 msTicks _).trans (Quiet.pmcCount (Quiet.refl _)).memStep))

theorem memStep_eccRecord (u slot a : Nat) (s : State) : MemStep s (eccRecord u slot a s) := by
  unfold eccRecord
  split
  · exact (memStep_addSat (by decide) 1 s).trans (memStep_set (by decide) 1 _)
  · exact (memStep_wr (by decide) _ s).trans (memStep_wr (by decide) _ _)

theorem memStep_eccMet (u : Nat) (q : Rq) (a : Nat) (s : State) : MemStep s (eccMet u q a s) := by
  have recorded := memStep_eccRecord u (rqSlot q) a s
  cases q with
  | core c l =>
    by_cases sc : c = 12
    · have met : eccMet u (.core c l) a s = (eccRecord u (rqSlot (.core c l)) a s).raise 5 := if_pos sc
      exact met ▸ recorded.trans (quiet_raise _ 5).memStep
    · have met : eccMet u (.core c l) a s = eccRecord u (rqSlot (.core c l)) a s := if_neg sc
      exact met ▸ recorded
  | host | fabric _ | partner | hatch => exact recorded.trans (memStep_flagLimited (by decide) 25 msTicks _)
  | dma _ | loader | larder | engine => exact recorded

theorem memStep_mergeDone (who : List (Nat × Nat)) (code : Code) (stale : Bool) (s : State) : MemStep s (mergeDone who code stale s) :=
  memStep_foldl who s fun s w => memStep_updCpu w.1 s fun _ => rfl

theorem memStep_eccWritten (a : Nat) (s : State) : MemStep s (eccWritten a s) := by
  unfold eccWritten
  split
  · exact (memStep_set (f := MEM_INJ_CTRL_arm) (by decide) 0 s).trans ⟨fun _ _ _ => rfl, rfl⟩
  · exact ⟨fun _ _ _ => rfl, rfl⟩

theorem memStep_putBytes (l : List Byte) (a : Nat) (s : State) : MemStep s (s.putBytes a l) := by
  induction l generalizing a s with
  | nil => exact MemStep.refl s
  | cons b l ih => exact MemStep.trans ⟨fun _ _ _ => rfl, rfl⟩ (ih (a + 1) { s with mem := memPut s.mem a b })

theorem memStep_putFree (a n : Nat) (s : State) : MemStep s (putFree a n s) :=
  (memStep_putBytes _ a s).trans ⟨fun _ _ _ => rfl, rfl⟩

theorem memStep_setMerge (u : Nat) (l : List Merge) (s : State) : MemStep s (setMerge u l s) := ⟨fun _ _ _ => rfl, rfl⟩

theorem memStep_mergeRetire (u : Nat) (e : Merge) (stale : Bool) (s : State) : MemStep s (mergeRetire u e stale s).1 := by
  have counted : MemStep s (if (e.bytes.all fun b => b.isSome) = true then s
      else pmcCount 9 1 (rqMst e.q) { lvl := rqLvl e.q, addr := some e.a } s) := by
    split
    · exact MemStep.refl s
    · exact (Quiet.pmcCount (Quiet.refl s)).memStep
  unfold mergeRetire
  extract_lets full v w x y
  have lost : MemStep v x := by
    refine (memStep_eccRecord u (rqSlot e.q) e.a v).trans ?_
    simp only [x]
    split
    · exact (quiet_raise _ 5).memStep
    · exact MemStep.refl _
  have kept : MemStep v y := by
    simp only [y]
    split
    · exact memStep_eccCorrected ..
    · exact MemStep.refl _
  split
  · exact counted.trans (lost.trans (memStep_mergeDone ..))
  · exact counted.trans (kept.trans ((memStep_putBytes ..).trans ((memStep_eccWritten ..).trans (memStep_mergeDone ..))))

theorem memStep_retireWith (u : Nat) (stale : Bool) (p : Merge → Bool) (s : State) : MemStep s (retireWith u stale p s).1 := by
  have entries : ∀ (l : List Merge) (x : State × Code), MemStep x.1 (l.foldl (fun x e => mergeRetire u e stale x.1) x).1 := by
    intro l
    induction l with
    | nil => exact fun x => MemStep.refl x.1
    | cons e l ih => exact fun x => (memStep_mergeRetire u e stale x.1).trans (ih _)
  exact (memStep_setMerge u _ s).trans (entries _ _)

theorem memStep_retireRange (lo hi : Nat) (s : State) : MemStep s (retireRange lo hi s) :=
  memStep_foldl _ s fun s u => memStep_retireWith u false _ s

theorem memStep_readWord (u : Nat) (q : Rq) (a : Nat) (s : State) : MemStep s (readWord u q a s).1 := by
  have retired : MemStep s (retireWord u a s) := memStep_retireWith u false _ s
  unfold readWord
  dsimp only
  split
  · exact retired
  · exact retired.trans (memStep_eccCorrected ..)
  · exact retired.trans (memStep_eccMet ..)

theorem memStep_memRead (u : Nat) (q : Rq) (a n : Nat) (s : State) : MemStep s (memRead u q a n s).1 := by
  have words : ∀ (l : List Nat) (x : State × Code), MemStep x.1 (l.foldl (fun x i =>
      if x.2 = .done then readWord u q (a / 8 * 8 + 8 * i) x.1 else x) x).1 := by
    intro l
    induction l with
    | nil => exact fun x => MemStep.refl x.1
    | cons i l ih =>
      intro x
      refine MemStep.trans ?_ (ih _)
      dsimp only
      split
      · exact memStep_readWord ..
      · exact MemStep.refl _
  exact words _ _

theorem memStep_write8 (u a : Nat) (bytes : List Byte) (s : State) : MemStep s (write8 u a bytes s) :=
  (memStep_setMerge u _ s).trans ((memStep_foldl _ _ fun s (e : Merge) => memStep_mergeDone e.who .done false s).trans
    ((memStep_putBytes bytes a _).trans (memStep_eccWritten a _)))

theorem memStep_loaderCopy (u a : Nat) (bytes : List Byte) (s : State) : MemStep s (loaderCopy u a bytes s) :=
  memStep_foldl _ s fun s i => memStep_write8 u (a + 8 * i) _ s

/-! ## The boot ROM's place -/

/-- The boot ROM stands where it stood: its stage, SC's pc and its wait. -/
def RomStays (s t : State) : Prop :=
  t.rd CRP_BOOT_STAT = s.rd CRP_BOOT_STAT ∧ (t.cpu 12).pc = (s.cpu 12).pc ∧ (t.cpu 12).wait = (s.cpu 12).wait

theorem RomStays.trans {s t u : State} (first : RomStays s t) (next : RomStays t u) : RomStays s u := by
  obtain ⟨stage, pc, wait⟩ := first
  obtain ⟨stage', pc', wait'⟩ := next
  exact ⟨stage'.trans stage, pc'.trans pc, wait'.trans wait⟩

theorem RomStays.romAt {s t : State} (stays : RomStays s t) (x : Nat) : romAt x t = romAt x s := by
  obtain ⟨stage, pc, wait⟩ := stays
  have field : t.get CRP_BOOT_STAT_stage = s.get CRP_BOOT_STAT_stage := congrArg (fun w => fieldOf w 0 3) stage
  rw [Machine.romAt, Machine.romAt, scInRom, scInRom, field, pc, wait]

/-- A core as `State.unmem` holds it. -/
def Cpu.unmem (k : Cpu) : Cpu := { k.bare with posted := [] }

theorem MemStep.cpu {s t : State} (step : MemStep s t) (c : Nat) : (t.cpu c).unmem = (s.cpu c).unmem := by
  have cores : t.cores.map Cpu.unmem = s.cores.map Cpu.unmem := by
    have same := congrArg State.cores step.2
    simp only [State.unmem, State.bare, List.map_map] at same
    exact same
  have default : ∀ l : List Cpu, (nth l c).unmem = (l.map Cpu.unmem).getD c (default : Cpu).unmem := fun l => by
    rw [nth, List.getD_map]
  rw [State.cpu, State.cpu, default, default, cores]

theorem MemStep.romStays {s t : State} (step : MemStep s t) : RomStays s t :=
  ⟨step.1 _ (by unfold Router CRP_BOOT_STAT; omega) (by decide), by have pc := congrArg Cpu.pc (step.cpu 12); exact pc, by
    have wait := congrArg Cpu.wait (step.cpu 12)
    exact wait⟩

theorem romStays_set {f : Fd} (other : f.a ≠ CRP_BOOT_STAT) (v : Nat) (s : State) : RomStays s (s.set f v) :=
  ⟨rd_set_ne s v other, rfl, rfl⟩

/-- The parts of a core that a LOAD writes are neither its pc nor its wait. -/
theorem romStays_updCpu (c : Nat) {f : Cpu → Cpu} (kept : ∀ k, (f k).pc = k.pc ∧ (f k).wait = k.wait) (s : State) :
    RomStays s (updCpu c f s) := by
  have core : (updCpu c f s).cpu 12 = s.cpu 12 ∨ (updCpu c f s).cpu 12 = f (s.cpu 12) := by
    simp only [updCpu, State.cpu, nth_upd]
    split
    · rename_i same
      exact .inr (by rw [same.1])
    · exact .inl rfl
  refine ⟨rfl, ?_⟩
  rcases core with same | updated
  · rw [same]
    exact ⟨rfl, rfl⟩
  · rw [updated]
    exact kept _

theorem romStays_loadEnd (o : Code) (step reason : Nat) (s : State) : RomStays s (loadEnd o step reason s) := by
  have ended : RomStays s (signStart { (s.set OWN_LD_RESULT_outcome o.n) with load := none }) :=
    (romStays_set (by decide) o.n s).trans ⟨rfl, rfl, rfl⟩
  exact ended.trans ((romStays_set (by decide) 0 _).trans ((romStays_set (by decide) step _).trans
    ((romStays_set (by decide) reason _).trans (quiet_raise _ 22).memStep.romStays)))

theorem romStays_loadFail (l : Load) (o : Code) (step : Nat) (s : State) : RomStays s (loadFail l o step s) := by
  have lost : RomStays s (shelfLost l s) := (memStep_putFree (shelfBase l.c l.shelf) (shelfSize l.c) s).romStays.trans ⟨rfl, rfl, rfl⟩
  exact lost.trans (romStays_loadEnd ..)

theorem romStays_loadWrite (l : Load) (h body data : List Byte) (s : State) : RomStays s (loadWrite l h body data s) := by
  have initialised : ∀ u t, RomStays t (if l.dinit = true then loaderCopy u (dataBase l.c + hdrF h 0x14 4) data t else t) := by
    intro u t
    split
    · exact (memStep_loaderCopy ..).romStays
    · exact (MemStep.refl t).romStays
  have checked : ∀ t, RomStays t (shelfDirty l.c l.shelf (t.set (chkFd l.c l.shelf) 1)) := fun t =>
    (romStays_set (by unfold chkFd; split <;> simp [OWN_CORE_STAT_chk_a, OWN_CORE_STAT_chk_b, OWN_CORE_STAT, CRP_BOOT_STAT] <;> omega) 1
      t).trans ⟨rfl, rfl, rfl⟩
  exact (memStep_loaderCopy ..).romStays.trans ((initialised _ _).trans ((romStays_updCpu _ (fun k => by split <;> exact ⟨rfl, rfl⟩)
    _).trans ((checked _).trans (romStays_loadEnd ..))))

/-! ## The end of a LOAD -/

section
variable {l : Load}

theorem floor_loadHdr (k : Nat) (l : Load) (s : State) (small : k < 4) : (loadHdr l s).1.rd (OWN_LD_FLOOR k) = s.rd (OWN_LD_FLOOR k) :=
  (memStep_memRead 0 .loader l.src 2048 s).1 _ (by unfold Router OWN_LD_FLOOR; omega) (by unfold MemReg OWN_LD_FLOOR; omega)

theorem keytab_loadBody (l : Load) (s : State) : (loadBody l s).1.rd OWN_LD_KEYTAB = s.rd OWN_LD_KEYTAB :=
  ((memStep_memRead 0 .loader l.src 2048 s).trans (memStep_memRead ..)).1 _ (by unfold Router OWN_LD_KEYTAB; omega) (by decide)

theorem imgClass_lt (c : Nat) : imgClass c < 4 := by
  unfold imgClass
  split
  · decide
  · split <;> decide

/-- The checks of a LOAD in their order (R308, R316). -/
theorem loadComplete_checks (runs : s.load = some l) :
    loadComplete s =
      if (loadHdr l s).2.1 ≠ .done then loadFail l (loadHdr l s).2.1 1 (loadHdr l s).1
      else if (!imageOk l.c ((loadHdr l s).1.rd (OWN_LD_FLOOR (imgClass l.c))).toNat (loadHdr l s).2.2) = true
        then loadFail l .range 1 (loadHdr l s).1
      else if (loadBody l s).2.1 ≠ .done then loadFail l (loadBody l s).2.1 2 (loadBody l s).1
      else if Config.shake256 64 (loadBody l s).2.2 ≠ ((loadHdr l s).2.2.drop 0x40).take 64 then loadFail l .signature 2 (loadBody l s).1
      else if (loadKey l s).2.1 ≠ .done then loadFail l (loadKey l s).2.1 3 (loadKey l s).1
      else if (!sigOk (loadHdr l s).2.2 (loadKey l s).2.2 (loadKey l s).1) = true then loadFail l .signature 3 (loadKey l s).1
      else loadWrite l (loadHdr l s).2.2 ((loadBody l s).2.2.take (hdrF (loadHdr l s).2.2 0xC 4))
        ((loadBody l s).2.2.drop (hdrF (loadHdr l s).2.2 0xC 4)) (loadKey l s).1 := by
  rw [floor_loadHdr _ _ _ (imgClass_lt _), loadKey, keytab_loadBody]
  unfold loadComplete
  rw [runs]

theorem romStays_loadComplete (runs : s.load = some l) : RomStays s (loadComplete s) := by
  have header : RomStays s (loadHdr l s).1 := (memStep_memRead ..).romStays
  have body : RomStays s (loadBody l s).1 := header.trans (memStep_memRead ..).romStays
  have key : RomStays s (loadKey l s).1 := body.trans (memStep_memRead ..).romStays
  rw [loadComplete_checks runs]
  split
  · exact header.trans (romStays_loadFail ..)
  split
  · exact header.trans (romStays_loadFail ..)
  split
  · exact body.trans (romStays_loadFail ..)
  split
  · exact body.trans (romStays_loadFail ..)
  split
  · exact key.trans (romStays_loadFail ..)
  split
  · exact key.trans (romStays_loadFail ..)
  · exact key.trans (romStays_loadWrite ..)

/-- A LOAD that the boot ROM neither waits for nor waits to follow. -/
theorem loadDone_other (runs : s.load = some l) (elsewhere : romLoads s = false ∧ romAt 2 s = false) :
    loadDone s = loadComplete s := by
  have still : romAt 2 (loadComplete s) = false := ((romStays_loadComplete runs).romAt 2).trans elsewhere.2
  unfold loadDone
  rw [if_neg (ne_true_of_eq_false elsewhere.1)]
  exact if_neg fun reads => ne_true_of_eq_false still reads.1

end

end

/-- Settles O38: a command is judged in the state that has stored it; a LOAD's end by its checks in order, whose reads leave the
floor, the key table's address and the boot ROM's place. -/
theorem coresAndLoader : Obligations.CoresAndLoader := by
  unfold Obligations.CoresAndLoader
  refine ⟨?_, ?_, ?_, ?_, ?_, ?_, ?_, ?_, ?_, ?_, ?_, ?_, ?_, ?_, ?_, ?_, ?_, ?_, ?_, ?_⟩
  · intro q c b s sent
    have effect := wrCoreCtrl_none (s := request q (OWN_CORE_CTRL c) s) (b := b) c.isLt
    exact congrArg Host.Outcome.next (gated_uncounted sent effect (.inl rfl))
  · intro q c b s sent other reset checked
    have core : c.val < 12 := by omega
    have effect := (wrCoreCtrl_start (s := request q (OWN_CORE_CTRL c) s) (b := b) core).trans (coreStart_asked c.isLt)
    rw [if_pos ⟨reset, on_of_get checked⟩] at effect
    exact congrArg Host.Outcome.next (gated_uncounted sent effect (.inl rfl))
  · intro q c b s sent other refused
    have core : c.val < 12 := by omega
    have effect := (wrCoreCtrl_start (s := request q (OWN_CORE_CTRL c) s) (b := b) core).trans (coreStart_asked c.isLt)
    rw [if_neg fun h => refused.elim (· h.1) fun unchecked => ne_true_of_eq_false (not_on_of_get unchecked) h.2] at effect
    exact congrArg Host.Outcome.next (gated_counted sent effect rfl)
  · intro q b s sent
    have effect := wrCoreCtrl_sc (s := request q (OWN_CORE_CTRL 12) s) (op := 1) (b := b) (by decide)
    exact congrArg Host.Outcome.next (gated_uncounted sent effect (.inr (.inr (.inr rfl))))
  · intro q c b s sent other runs
    have core : c.val < 12 := by omega
    have effect := (wrCoreCtrl_halt (s := request q (OWN_CORE_CTRL c) s) (b := b) core).trans (coreHalt_asked c.isLt)
    rw [if_neg (not_not.2 runs)] at effect
    refine congrArg Host.Outcome.next (gated_uncounted sent effect ?_)
    split
    · exact .inl rfl
    · exact .inr (.inl rfl)
  · intro q c b s sent other halted
    have core : c.val < 12 := by omega
    have effect := (wrCoreCtrl_halt (s := request q (OWN_CORE_CTRL c) s) (b := b) core).trans (coreHalt_asked c.isLt)
    rw [if_pos halted] at effect
    exact congrArg Host.Outcome.next (gated_counted sent effect rfl)
  · intro c s runs boundary asked
    exact congrArg Host.Outcome.next (haltDone_asked runs boundary asked)
  · intro q c b s sent other halted
    have core : c.val < 12 := by omega
    have effect := (wrCoreCtrl_resume (s := request q (OWN_CORE_CTRL c) s) (b := b) core).trans (coreResume_asked c.isLt)
    rw [if_pos halted] at effect
    exact congrArg Host.Outcome.next (gated_uncounted sent effect (.inl rfl))
  · intro q c b s sent other runs
    have core : c.val < 12 := by omega
    have effect := (wrCoreCtrl_resume (s := request q (OWN_CORE_CTRL c) s) (b := b) core).trans (coreResume_asked c.isLt)
    rw [if_neg runs] at effect
    exact congrArg Host.Outcome.next (gated_counted sent effect rfl)
  · intro q c b s sent other
    have core : c.val < 12 := by omega
    have effect := wrCoreCtrl_reset (s := request q (OWN_CORE_CTRL c) s) (b := b) core
    exact congrArg Host.Outcome.next (gated_uncounted sent effect (.inl rfl))
  · intro q c s sent aligned known fits idle ready unarmed reset
    have effect := (wrLdCmd_load c.isLt).trans (loadStart_held (q := q) aligned known fits idle ready unarmed)
    dsimp only at effect
    rw [if_pos reset, decide_eq_true reset, Bool.true_or] at effect
    exact congrArg Host.Outcome.next (gated_uncounted sent effect (.inr (.inl rfl)))
  · intro q c s sent aligned known fits idle ready unarmed runs
    have core : c.val < 12 := known
    have effect := (wrLdCmd_load c.isLt).trans (loadStart_held (q := q) aligned core.le fits idle ready unarmed)
    dsimp only at effect
    rw [if_neg runs, decide_eq_false runs, decide_eq_false (show ¬c.val = 12 by omega), Bool.false_and, Bool.false_or] at effect
    exact congrArg Host.Outcome.next (gated_uncounted sent effect (.inr (.inl rfl)))
  · intro q c s sent misaligned
    have effect := (wrLdCmd_load c.isLt).trans (loadStart_misaligned (q := q) misaligned)
    exact congrArg Host.Outcome.next
      ((gated_counted sent effect rfl).trans (completed_uncounted (c := .align) (by decide) (by decide)))
  · intro q c s sent aligned outside
    have effect := (wrLdCmd_load c.isLt).trans (loadStart_seen (q := q) aligned)
    dsimp only at effect
    have refused : 12 < c.val ∨ (!imageFits (s.get OWN_LD_SRC_addr) (loadSeen q s)) = true :=
      outside.imp id fun misfit => by simp [misfit]
    rw [if_pos refused] at effect
    exact congrArg Host.Outcome.next (gated_uncounted sent effect (.inr (.inr (.inr rfl))))
  · intro q c s sent aligned known fits busy
    have effect := (wrLdCmd_load c.isLt).trans (loadStart_state (q := q) aligned known fits busy)
    exact congrArg Host.Outcome.next (gated_counted sent effect rfl)
  · intro l s runs elsewhere unread
    refine congrArg Host.Outcome.next ((loadDone_other runs elsewhere).trans ((loadComplete_checks runs).trans ?_))
    exact if_pos unread
  · intro l s runs elsewhere read illegal
    refine congrArg Host.Outcome.next ((loadDone_other runs elsewhere).trans ((loadComplete_checks runs).trans ?_))
    rw [if_neg (not_not.2 read), if_pos (by rw [illegal]; rfl)]
  · intro l s runs elsewhere read legal body key
    refine congrArg Host.Outcome.next ((loadDone_other runs elsewhere).trans ((loadComplete_checks runs).trans ?_))
    rw [if_neg (not_not.2 read), if_neg (by simp [legal]), if_neg (not_not.2 body), if_neg (not_not.2 key)]
    simp only [Bool.not_eq_true']
  · intro l s runs elsewhere read legal body
    refine congrArg Host.Outcome.next ((loadDone_other runs elsewhere).trans ((loadComplete_checks runs).trans ?_))
    rw [if_neg (not_not.2 read), if_neg (by simp [legal]), if_pos body]
  · intro s waits
    exact congrArg Host.Outcome.next (if_pos waits)

end Sys2Proof.Machine

namespace Sys2Proof.Machine

/-! # What the radio, the thresholds and the blocks' resets leave: the resets in force, the reply, the boot flash's pins, the supply and
the time -/

/-- The resets in force, the reply, the boot-flash pins, the stop and the pending demand, and the time. -/
def State.aside (s : State) : Rst × Reply × List (List (Option Bool)) × Nat × Nat × Nat :=
  (s.rst, s.reply, s.norWave, s.pwr.st, s.pwr.measNext, s.now)

/-! ## Shared operations -/

section
variable (s : State)

@[simp] theorem aside_wr (a : Nat) (v : Word) : (s.wr a v).aside = s.aside := rfl

@[simp] theorem aside_set (f : Fd) (v : Nat) : (s.set f v).aside = s.aside := rfl

@[simp] theorem aside_seti (f : Fd) (v : Int) : (s.seti f v).aside = s.aside := rfl

@[simp] theorem aside_addSat (f : Fd) (v : Nat) : (s.addSat f v).aside = s.aside := rfl

@[simp] theorem aside_incMod (f : Fd) : (s.incMod f).aside = s.aside := rfl

@[simp] theorem aside_dropRange (a b : Nat) : (s.dropRange a b).aside = s.aside := rfl

@[simp] theorem aside_updFrm (n : Nat) (f : Frm → Frm) : (updFrm n f s).aside = s.aside := rfl

@[simp] theorem aside_updRpt (k : Nat) (f : RptP → RptP) : (updRpt k f s).aside = s.aside := rfl

@[simp] theorem aside_updBnd (k : Nat) (f : BndP → BndP) : (updBnd k f s).aside = s.aside := rfl

@[simp] theorem aside_updFen (n : Nat) (f : FenSeq → FenSeq) : (updFen n f s).aside = s.aside := rfl

@[simp] theorem aside_updLst (ch : Nat) (f : LstCh → LstCh) : (updLst ch f s).aside = s.aside := rfl

@[simp] theorem aside_updDet (n : Nat) (f : Det → Det) : (updDet n f s).aside = s.aside := rfl

@[simp] theorem aside_updConv (n : Nat) (f : Conv → Conv) : (updConv n f s).aside = s.aside := rfl

@[simp] theorem aside_updHost (n : Nat) (f : HostL → HostL) : (updHost n f s).aside = s.aside := rfl

@[simp] theorem aside_updHkd (p : Nat) (f : HkPin → HkPin) : (updHkd p f s).aside = s.aside := rfl

@[simp] theorem aside_updBst (f : Bst → Bst) : (updBst f s).aside = s.aside := rfl

@[simp] theorem aside_updCpu (c : Nat) (f : Cpu → Cpu) : (updCpu c f s).aside = s.aside := rfl

@[simp] theorem aside_updOwn (f : Own → Own) : (updOwn f s).aside = s.aside := rfl

@[simp] theorem aside_updCel (f : Cel → Cel) : (updCel f s).aside = s.aside := rfl

@[simp] theorem aside_raise (e : Nat) : (s.raise e).aside = s.aside := by
  simp only [State.aside, raise_rst, reply_raise, raise_norWave, raise_pwr, raise_now]

@[simp] theorem aside_flag (f : Fd) (e : Nat) : (s.flag f e).aside = s.aside := by rw [State.flag, aside_raise, aside_set]

@[simp] theorem aside_flagLimited (f : Fd) (e gap : Nat) : (s.flagLimited f e gap).aside = s.aside := by
  unfold State.flagLimited
  dsimp only
  split
  · exact aside_raise ..
  · rfl

end

/-- A branch leaves what both its sides leave. -/
theorem aside_ite (p : Prop) [Decidable p] (s t : State) : (if p then s else t).aside = if p then s.aside else t.aside :=
  apply_ite State.aside p s t

theorem aside_forN {f : Nat → State → State} (h : ∀ i s, (f i s).aside = s.aside) (n : Nat) (s : State) :
    (forN n f s).aside = s.aside :=
  foldl_fixes State.aside _ _ fun s i => h i s

theorem aside_foldl {α : Type} {f : State → α → State} (h : ∀ s x, (f s x).aside = s.aside) (l : List α) (s : State) :
    (l.foldl f s).aside = s.aside :=
  foldl_fixes State.aside _ _ h

/-! ## Transmitters and repeater paths -/

section
variable (s : State)

@[simp] theorem aside_txEnd (n op : Nat) (c : Code) (reason : Nat) : (txEnd n op c reason s).aside = s.aside := by
  simp [txEnd, frmEvt]

@[simp] theorem aside_forceOn (n cause : Nat) : (forceOn n cause s).aside = s.aside := by
  simp [forceOn, setTx, aside_ite]

@[simp] theorem aside_forceOff (n cause : Nat) : (forceOff n cause s).aside = s.aside := by
  simp [forceOff, setTx, aside_ite]

@[simp] theorem aside_setRpt (k t : Nat) : (setRpt k t s).aside = s.aside := by
  simp [setRpt, rptEvt, aside_ite]

@[simp] theorem aside_causeOn (k c : Nat) : (causeOn k c s).aside = s.aside := by
  simp [causeOn, aside_ite]

@[simp] theorem aside_causeOff (k c : Nat) : (causeOff k c s).aside = s.aside := rfl

@[simp] theorem aside_rptTherm (on : Bool) : (rptTherm on s).aside = s.aside := by
  simp [rptTherm, aside_ite, aside_forN]

@[simp] theorem aside_pinsZero (n : Nat) : (pinsZero n s).aside = s.aside := aside_forN (fun _ _ => by simp [aside_ite]) 16 s

@[simp] theorem aside_laserOff (n cause : Nat) : (laserOff n cause s).aside = s.aside := by
  rw [laserOff, aside_pinsZero, aside_forceOn]

@[simp] theorem aside_armEnd (k : Nat) (c : Code) (reason : Nat) : (armEnd k c reason s).aside = s.aside := by
  simp [armEnd, rptEnd, aside_ite]

@[simp] theorem aside_rptToOff (k reason : Nat) : (rptToOff k reason s).aside = s.aside := by
  simp [rptToOff]

@[simp] theorem aside_rptLeft (k reason : Nat) : (rptLeft k reason s).aside = s.aside := by
  simp [rptLeft, aside_ite]

@[simp] theorem aside_rptEvict (k : Nat) : (rptEvict k s).aside = s.aside := by
  simp [rptEvict, aside_ite]

/-! ## The band engine's capacity -/

@[simp] theorem aside_bndEvt (b : Nat) : (bndEvt b s).aside = s.aside := aside_flag ..

@[simp] theorem aside_admShow (d : Nat) : (admShow d s).aside = s.aside := by
  simp [admShow]

@[simp] theorem aside_pathAdmit (k : Nat) : (pathAdmit k s).aside = s.aside := by
  simp only [pathAdmit, admEnd, aside_bndEvt, aside_set, aside_causeOff, aside_updBnd]
  rfl

@[simp] theorem aside_pathReleasing (k : Nat) (evicted : Bool) : (pathReleasing k evicted s).aside = s.aside := by
  simp [pathReleasing, gainRamp, fadeStop, aside_ite]

@[simp] theorem aside_queuePassN (d fuel : Nat) : (queuePassN d fuel s).aside = s.aside := by
  induction fuel generalizing s with
  | zero => rfl
  | succ fuel ih =>
    unfold queuePassN
    split
    · simp [aside_ite, ih]
    · rfl

@[simp] theorem aside_evictN (d fuel : Nat) : (evictN d fuel s).aside = s.aside := by
  induction fuel generalizing s with
  | zero => rfl
  | succ fuel ih =>
    unfold evictN
    dsimp only
    split
    · split
      · simp [ih]
      · rfl
    · rfl

@[simp] theorem aside_capacityChange (d : Nat) : (capacityChange d s).aside = s.aside := by
  simp [capacityChange, queuePass]

/-! ## The front end's sequencers -/

@[simp] theorem aside_fenEvt (b : Nat) : (fenEvt b s).aside = s.aside := aside_flag ..

@[simp] theorem aside_coexGive (n : Nat) : (coexGive n s).aside = s.aside := by
  unfold coexGive
  split <;> rfl

@[simp] theorem aside_gatesClose (n : Nat) : (gatesClose n s).aside = s.aside := aside_forN (fun _ _ => by simp [aside_ite]) 128 s

@[simp] theorem aside_rfcShow : (rfcShow s).aside = s.aside := aside_wr ..

@[simp] theorem aside_seqEnter (n t : Nat) : (seqEnter n t s).aside = s.aside := by
  simp [seqEnter, aside_ite]

@[simp] theorem aside_txHeldEnd (n : Nat) (c : Code) (reason : Nat) : (txHeldEnd n c reason s).aside = s.aside := by
  simp [txHeldEnd, seqEnd, aside_ite]

@[simp] theorem aside_seqAbort (n reason : Nat) : (seqAbort n reason s).aside = s.aside := by
  simp [seqAbort, opHeldEnd, seqEnd, aside_ite]

@[simp] theorem aside_fenForceOn : (fenForceOn s).aside = s.aside := by
  have forced : ({ s with fenForced := true } : State).aside = s.aside := rfl
  simp [fenForceOn, aside_ite, aside_forN, forced]

/-! ## The thresholds -/

@[simp] theorem aside_reduceEval (n : Nat) : (reduceEval n s).aside = s.aside := by
  simp [reduceEval, detEvt, aside_ite, aside_forN]

@[simp] theorem aside_calThrottle (n : Nat) : (calThrottle n s).aside = s.aside := by
  simp [calThrottle, adcEvt, aside_ite]

@[simp] theorem aside_throttled : (throttled s).aside = s.aside := by
  simp [throttled, pwrEvt, bandThrottle, aside_ite, aside_forN]

@[simp] theorem aside_shutdownOn : (shutdownOn s).aside = s.aside := by
  have due : ∀ t : State, (updPwr (fun p => { p with shut := true }) t).aside = t.aside := fun _ => rfl
  simp [shutdownOn, due, aside_forN]

@[simp] theorem aside_shutdownOff : (shutdownOff s).aside = s.aside := by
  have clear : (fenForceOff s).aside = s.aside := rfl
  simp [shutdownOff, aside_forN, clear]

@[simp] theorem aside_thEval (k : Nat) (v : Bool) : (thEval k v s).aside = s.aside := by
  simp [thEval, pwrEvt, aside_ite]

@[simp] theorem aside_thEvaluate (t : Int) : (thEvaluate t s).aside = s.aside := by
  simp [thEvaluate]

theorem aside_readings (mask : Nat) (temps : List Int) : (readings mask temps s).aside = s.aside := by
  unfold readings
  dsimp only
  have written : ∀ l : List Nat, (l.foldl (fun s i => (s.seti (TH_SENS_temp i) (satI 16 (nth temps i))).set (TH_SENS_valid i) 1)
      s).aside = s.aside := fun l => by
    rw [aside_foldl fun _ _ => (aside_set ..).trans (aside_seti ..)]
  split
  · simp [pwrEvt, sensCellar, aside_ite, written]
  · simp [pwrEvt, sensCellar, aside_ite, written]

end

end Sys2Proof.Machine

namespace Sys2Proof.Machine

/-! # Supply requests, temperature, stop and wake (R410 to R426) -/

section
variable {q : Rq} {w : Word} {s : State}

/-! ## Supply requests -/

theorem wf_go {f : Fd} (fields : f.lo + f.w ≤ PWR_AVS_REQ_go.lo ∨ PWR_AVS_REQ_go.lo + PWR_AVS_REQ_go.w ≤ f.lo) (word : f.lo + f.w ≤ 32) :
    wf (force w PWR_AVS_REQ_go 1) f = wf w f := wf_force_ne w fields.symm word

theorem wrAvsReq_go :
    wrAvsReq (force w PWR_AVS_REQ_go 1) s =
      if (!avsRange (wf w PWR_AVS_REQ_rail) (wf w PWR_AVS_REQ_mv)) = true then (s.set PWR_AVS_STAT_outcome Code.range.n).ret .range
      else if (s.pwr.avs.isSome || s.pwr.avsNext.isSome) = true then (s.set PWR_AVS_STAT_outcome Code.state.n).ret .state
      else ((avsStart ⟨wf w PWR_AVS_REQ_rail, wf w PWR_AVS_REQ_mv, 0, none⟩ (s.store PWR_AVS_REQ PWR_AVS_REQ_fs (force w PWR_AVS_REQ_go
        1))).set PWR_AVS_STAT_outcome Code.held.n).ret .held := by
  have named : wf (force w PWR_AVS_REQ_go 1) PWR_AVS_REQ_go ≠ 0 := by
    rw [wf_force w (by decide)]
    decide
  unfold wrAvsReq
  rw [if_neg named, wf_go (by decide) (by decide), wf_go (by decide) (by decide)]

theorem stopGo_idle (idle : s.pwr.st ≠ 3) : stopGo s = s := if_neg fun go => idle go.1

theorem st_avsEnd {r : Avs} (c : Code) (other : r.who ≠ 1) : (avsEnd r c s).pwr.st = s.pwr.st := by
  have event : ∀ b t, (pwrEvt b t).pwr = t.pwr := fun b t => (raise_pwr ..).trans (set_pwr t ⟨PWR_EVT, b, 1⟩ 1)
  unfold avsEnd
  dsimp only
  rw [if_neg other]
  split
  · simp [avsStart, updPwr, event, apply_ite State.pwr]
  · simp [updPwr, event, apply_ite State.pwr]

theorem avsResponse_acknowledged {r : Avs} (sent : s.pwr.avs = some r) (v : Nat) :
    avsResponse 0 true (some v) s = avsEnd { r with ack := some 0 } .done ((updPwr (fun p =>
      { p with avs := some { r with ack := some 0 } }) (s.set PWR_AVS_STAT_ack 0)).set PWR_AVS_STAT_read_mv v) := by
  unfold avsResponse
  rw [sent]
  exact if_pos ⟨rfl, rfl⟩

theorem avsTimeout_sent {r : Avs} (sent : s.pwr.avs = some r) :
    avsTimeout s = if s.get PWR_AVS_STAT_tries < 3 then s.set PWR_AVS_STAT_tries (s.get PWR_AVS_STAT_tries + 1)
      else avsEnd r (if r.ack = some 2 then .bus else .timeout) s := by
  unfold avsTimeout
  rw [sent]

theorem st_avsTimeout {r : Avs} (sent : s.pwr.avs = some r) (other : r.who ≠ 1) : (avsTimeout s).pwr.st = s.pwr.st := by
  rw [avsTimeout_sent sent]
  split
  · rfl
  · exact st_avsEnd _ other

/-! ## Demands and thresholds -/

theorem wrThCmd_demand (named : wf w TH_CMD_mask ≠ 0) :
    wrThCmd w s = (if s.pwr.meas.isSome = true ∨ 2 ≤ s.pwr.st then measJoin (wf w TH_CMD_mask) (s.set TH_CMD_outcome Code.held.n)
      else measStart (wf w TH_CMD_mask) (s.set TH_CMD_outcome Code.held.n)).ret .held := if_neg named

theorem thTimer_runs (runs : s.pwr.st ≤ 1 ∧ clkLive s = true) :
    thTimer s = if s.pwr.meas.isSome = true then measJoin 255 s else measStart 255 s := by
  have late : ¬2 ≤ s.pwr.st := by omega
  simp only [thTimer, runs, and_self, if_true, demand, late, or_false]

theorem thMeasEnd_read {mask : Nat} (temps : List Int) (measures : s.pwr.meas = some mask) (open_ : hkcHeld s = false)
    (single : s.pwr.measNext = 0) : thMeasEnd temps s = measStop .done (readings mask temps s) := by
  have kept : (readings mask temps s).pwr.measNext = s.pwr.measNext := congrArg (·.2.2.2.2.1) (aside_readings s mask temps)
  have none : ¬((measStop .done (readings mask temps s)).pwr.measNext ≠ 0 ∧
      (measStop .done (readings mask temps s)).pwr.meas.isNone = true) := fun pending => pending.1 (kept.trans single)
  unfold thMeasEnd
  rw [measures]
  dsimp only
  rw [if_neg (ne_true_of_eq_false open_)]
  exact if_neg none

theorem st_thMeasEnd {mask : Nat} (temps : List Int) : (measStop .done (readings mask temps s)).pwr.st = s.pwr.st :=
  congrArg (·.2.2.2.1) (aside_readings s mask temps)

theorem wrThThr_ordered {k : Nat} (hyst : 16 ≤ wf w (TH_THR_hyst k) ∧ wf w (TH_THR_hyst k) ≤ 320)
    (order : (if k = 0 then sgn 16 (wf w (TH_THR_thr k)) else s.geti (TH_THR_thr 0)) ≤
        (if k = 1 then sgn 16 (wf w (TH_THR_thr k)) else s.geti (TH_THR_thr 1)) ∧
      (if k = 1 then sgn 16 (wf w (TH_THR_thr k)) else s.geti (TH_THR_thr 1)) ≤
        (if k = 2 then sgn 16 (wf w (TH_THR_thr k)) else s.geti (TH_THR_thr 2))) :
    wrThThr k w s = if k = 2 ∧ 2000 < sgn 16 (wf w (TH_THR_thr k)) then s.ret .guard else (s.store (TH_THR k) TH_THR_fs w).ret .done := by
  obtain ⟨low, high⟩ := order
  have legal : ¬((if 1 = k then sgn 16 (wf w (TH_THR_thr k)) else s.geti (TH_THR_thr 1)) <
      (if 0 = k then sgn 16 (wf w (TH_THR_thr k)) else s.geti (TH_THR_thr 0)) ∨
      (if 2 = k then sgn 16 (wf w (TH_THR_thr k)) else s.geti (TH_THR_thr 2)) <
      (if 1 = k then sgn 16 (wf w (TH_THR_thr k)) else s.geti (TH_THR_thr 1)) ∨
      wf w (TH_THR_hyst k) < 16 ∨ 320 < wf w (TH_THR_hyst k)) := by omega
  refine (if_neg legal).trans ?_
  by_cases top : k = 2
  · subst top
    rfl
  · exact (if_neg fun h => top h.1).trans (if_neg fun h => top h.1).symm

/-! ## Stop entry -/

theorem stopEntry_begun {pins : Nat} (begun : s.pwr.st = 1 ∧ s.pwr.forced = false ∧ sysSteady s = true) :
    stopEntry pins s = if scEvent s = true ∨ wakeAny pins s = true then stopAbandon s
      else if scEvent (larderSaveAll (scSaved s)) = true ∨ wakeAny pins (larderSaveAll (scSaved s)) = true
        then stopAbandon (larderSaveAll (scSaved s)) else stopStep3 (larderSaveAll (scSaved s)) := by
  obtain ⟨first, free, steady⟩ := begun
  exact if_neg (by simp [first, free, steady])

theorem shutdownStop_entered (due : s.pwr.shut = true ∧ fullHeld s = false) (entered : 2 ≤ s.pwr.st ∧ s.pwr.st ≤ 4) :
    shutdownStop s = updPwr (fun p => { p with shut := false, forced := true, saved := none }) s := by
  have stage : s.pwr.st = 2 ∨ s.pwr.st = 3 ∨ s.pwr.st = 4 := by omega
  unfold shutdownStop
  rw [if_neg (by simp [due])]
  rcases stage with st | st | st <;> simp only [st]

theorem shutdownStop_runs (due : s.pwr.shut = true ∧ fullHeld s = false) (runs : s.pwr.st ≤ 1) (steady : sysSteady s = true) :
    shutdownStop s = forcedStop s := by
  have stage : s.pwr.st = 0 ∨ s.pwr.st = 1 := by omega
  unfold shutdownStop
  rw [if_neg (by simp [due])]
  rcases stage with st | st <;> simp only [st, steady, if_true]

/-! ## A block's release and the registers of the supply -/

theorem rd_rptTherm_supply (on : Bool) (s : State) : (rptTherm on s).rd PWR_MODE = s.rd PWR_MODE := by
  unfold rptTherm
  split
  · rfl
  · refine rd_forN_below fun k below t => ?_
    have stat : RPT_PATH_STAT k ≠ PWR_MODE := by simp only [RPT_PATH_STAT, PWR_MODE]; omega
    have chg : RPT_CHG (k / 32) ≠ PWR_MODE := by simp only [RPT_CHG, PWR_MODE]; omega
    split
    · exact rd_causeOn (by decide) (by decide) chg stat
    · exact rd_set_ne t 0 stat

theorem rd_releaseRpt_supply (s : State) : (releaseRpt s).rd PWR_MODE = s.rd PWR_MODE := by
  have pin : (s.set RPT_MUTE_CTRL_asserted s.muteN.toNat).rd PWR_MODE = s.rd PWR_MODE := rd_set_ne s _ (by decide)
  unfold releaseRpt
  dsimp only
  rw [rd_forN_below]
  · split
    · exact (rd_rptTherm_supply ..).trans pin
    · exact pin
  · intro i below t
    split
    · have donor : (donorFd (t.get (LST_ALLOW_group i))).a ≠ PWR_MODE := show RPT_DONOR_STAT ≠ PWR_MODE by decide
      rw [State.flag, rd_raise _ _ (by unfold Router PWR_MODE; omega), rd_set_ne _ _ (by decide), rd_set_ne _ _ donor]
    · rfl

theorem rd_releaseFrm_supply (s : State) : (releaseFrm s).rd PWR_MODE = s.rd PWR_MODE := by
  refine rd_forN_below fun n below t => ?_
  have status : (FRM_LANE_STATUS_tx_state n).a ≠ PWR_MODE := by
    simp only [FRM_LANE_STATUS_tx_state, FRM_LANE_STATUS, PWR_MODE]
    omega
  unfold forceOff
  dsimp only
  split
  · exact rd_set_ne _ 0 status
  · rfl

theorem rd_reduceEval_supply {n : Nat} (lane : n < 8) (s : State) : (reduceEval n s).rd PWR_MODE = s.rd PWR_MODE := by
  have status : ∀ v t, (State.set t (LANE_DET_STATUS_reduced n) v).rd PWR_MODE = t.rd PWR_MODE := fun v t => rd_set_ne t v (by
    simp only [LANE_DET_STATUS_reduced, LANE_DET_STATUS, PWR_MODE]; omega)
  have event : ∀ t, (detEvt n 11 t).rd PWR_MODE = t.rd PWR_MODE := fun t =>
    rd_detEvt (by simp only [LANE_DET_EVT, PWR_MODE]; omega) (by decide)
  unfold reduceEval
  dsimp only
  split
  · rfl
  split
  · rw [event, status]
    refine rd_forN_below fun k below t => ?_
    split
    · rfl
    · exact rd_set_ne t 1 (by simp only [LANE_EQ_TAP_gated, LANE_EQ_TAP, PWR_MODE]; omega)
  · rw [event, status]

theorem rd_pairRelease_supply (s : State) : (pairRelease s).rd PWR_MODE = s.rd PWR_MODE := by
  unfold pairRelease
  split
  · rw [setRole, snkEvt, State.flag, rd_raise _ _ (by unfold Router PWR_MODE; omega), rd_set_ne _ _ (by decide), rd_set_ne _ _ (by decide),
      rd_set_ne _ _ (by decide)]
  · rfl

theorem rd_blockUp_supply (b : Nat) (s : State) : (blockUp b s).rd PWR_MODE = s.rd PWR_MODE := by
  unfold blockUp
  split
  · rfl
  split
  · rename_i lane
    exact rd_reduceEval_supply lane s
  split
  · exact rd_releaseFrm_supply s
  · exact rd_releaseRpt_supply s
  · exact rd_pairRelease_supply s
  · rfl

/-- Steps 1 to 4 of a wake before the blocks are released: the source is shown, the part runs on FOSC, the attic is loaded. -/
def wakeBegun (pins : Nat) (s : State) : State :=
  updRst (fun r => { r with atticBusy := true }) ((updPwr (fun p => { p with st := 5, wake := none })
    (setStop false ((((s.set PWR_STAT_wake_src (wakeActive pins s)).set PWR_MODE_mode 0).set CRP_SYS_SEL_src 0).set
      CRP_CLK_STAT_sys_src 0))).set CRP_ATTIC_STAT_done 0)

theorem wakeUp_begun (pins : Nat) (s : State) :
    wakeUp pins s = if (forN 27 blockUp (wakeBegun pins s)).on PWR_MODE_avs_ret = true
      then avsHardware ⟨0, (forN 27 blockUp (wakeBegun pins s)).get PWR_AVS_CTRL_run_mv, 2, none⟩ (forN 27 blockUp (wakeBegun pins s))
      else forN 27 blockUp (wakeBegun pins s) := by
  unfold wakeUp wakeBegun
  rfl

theorem avsRet_wakeBegun (pins : Nat) (s : State) : (wakeBegun pins s).get PWR_MODE_avs_ret = s.get PWR_MODE_avs_ret := by
  have source : ∀ v, (s.set PWR_STAT_wake_src v).get PWR_MODE_avs_ret = s.get PWR_MODE_avs_ret := fun v => get_set_addr _ _ (by decide)
  have mode : ∀ t, (State.set t PWR_MODE_mode 0).get PWR_MODE_avs_ret = t.get PWR_MODE_avs_ret := fun t =>
    get_set_bits t _ (by decide) (by decide)
  have clock : ∀ t, ((State.set t CRP_SYS_SEL_src 0).set CRP_CLK_STAT_sys_src 0).get PWR_MODE_avs_ret = t.get PWR_MODE_avs_ret :=
    fun t => (get_set_addr _ _ (by decide)).trans (get_set_addr t _ (by decide))
  exact (get_set_addr _ _ (by decide)).trans ((clock _).trans ((mode _).trans (source _)))

/-- The wake begins where the run voltage has stayed. -/
theorem wakeStart_run {pins : Nat} (stopped : s.pwr.st = 4) (source : wakeAny pins s = true) (run : s.get PWR_MODE_avs_ret = 0) :
    wakeStart pins s = forN 27 blockUp (wakeBegun pins s) := by
  have released : (forN 27 blockUp (wakeBegun pins s)).get PWR_MODE_avs_ret = (wakeBegun pins s).get PWR_MODE_avs_ret :=
    congrArg (fun x => fieldOf x 2 1) (rd_forN fun b u => rd_blockUp_supply b u)
  unfold wakeStart
  rw [if_neg (by simp [source]), if_pos stopped, wakeUp_begun]
  exact if_neg (ne_true_of_eq_false (not_on_of_get (released.trans ((avsRet_wakeBegun pins s).trans run))))

section
variable {temps : List Int} (ready : s.pwr.st = 5 ∧ s.pwr.avs = none ∧ s.pwr.meas = none ∧ s.get CRP_CLK_STAT_fosc_ready = 1 ∧
  s.rst.atticBusy = false ∧ fullHeld s = false)
include ready

theorem wakeResume_ready : ¬(s.pwr.st ≠ 5 ∨ s.pwr.avs.isSome = true ∨ s.pwr.meas.isSome = true ∨ (!s.on CRP_CLK_STAT_fosc_ready) = true ∨
    s.rst.atticBusy = true ∨ fullHeld s = true) := by
  obtain ⟨stage, avs, meas, fosc, attic, full⟩ := ready
  simp [stage, avs, meas, on_of_get fosc, attic, full]

theorem wakeResume_hold (hold : s.get CRP_ATTIC_STAT_hold = 1) :
    wakeResume temps s = romStart (updPwr (fun p => { p with st := 0, forced := false, saved := none }) (cpuReset 12 s)) :=
  (if_neg (wakeResume_ready ready)).trans (if_pos (on_of_get hold))

/-- The wake of a stop that has saved SC's state. -/
theorem wakeResume_saved {k : Cpu} (attic : s.get CRP_ATTIC_STAT_hold = 0)
    (own : (wakeMeasure temps (larderRestoreAll s)).pwr.forced = false)
    (saved : (wakeMeasure temps (larderRestoreAll s)).pwr.saved = some k) :
    wakeResume temps s = woken (((updPwr (fun p => { p with st := 0, saved := none }) (updCpu 12 (fun _ => k)
      (wakeMeasure temps (larderRestoreAll s)))).set PWR_STAT_outcome Code.done.n).set PWR_STAT_reason 0) := by
  unfold wakeResume
  rw [if_neg (wakeResume_ready ready), if_neg (ne_true_of_eq_false (not_on_of_get attic))]
  dsimp only
  rw [if_neg (ne_true_of_eq_false own), saved, Option.getD_some]

end

end

/-- Settles O48: a request and a demand are judged in the state that has accepted them; the thresholds' evaluation leaves the stop and
the pending demand, and the blocks' releases leave PWR_MODE. -/
theorem powerThermalAndStop : Obligations.PowerThermalAndStop := by
  unfold Obligations.PowerThermalAndStop
  refine ⟨?_, ?_, ?_, ?_, ?_, ?_, ?_, ?_, ?_, ?_, ?_, ?_, ?_, ?_, ?_, ?_, ?_, ?_, ?_, ?_, ?_⟩
  · intro q w s sent range idle
    have effect := wrAvsReq_go (w := w) (s := request q PWR_AVS_REQ s)
    rw [if_neg (by simp [range]), request_pwr, if_neg (by simp [idle])] at effect
    exact congrArg Host.Outcome.next (gated_uncounted sent effect (.inr (.inl rfl)))
  · intro q w s sent range
    have effect := wrAvsReq_go (w := w) (s := request q PWR_AVS_REQ s)
    rw [if_pos (by simp [range])] at effect
    exact congrArg Host.Outcome.next (gated_uncounted sent effect (.inr (.inr (.inr rfl))))
  · intro q w s sent range busy
    have effect := wrAvsReq_go (w := w) (s := request q PWR_AVS_REQ s)
    rw [if_neg (by simp [range]), request_pwr, if_pos (by simp [Option.isSome_iff_ne_none.2 busy])] at effect
    exact congrArg Host.Outcome.next (gated_counted sent effect rfl)
  · intro r mv s sent other stage
    have stays : (avsResponse 0 true (some mv.toNat) s).pwr.st ≠ 3 := by
      rw [avsResponse_acknowledged sent, st_avsEnd (r := { r with ack := some 0 }) _ other]
      exact stage
    exact congrArg Host.Outcome.next ((stopGo_idle stays).trans (avsResponse_acknowledged sent _))
  · intro r s sent other stage
    have stays : (avsTimeout s).pwr.st ≠ 3 := (st_avsTimeout sent other).trans_ne stage
    exact congrArg Host.Outcome.next ((stopGo_idle stays).trans (avsTimeout_sent sent))
  · intro q w s sent named
    have effect := wrThCmd_demand (s := request q TH_CMD s) named
    rw [request_pwr] at effect
    exact congrArg Host.Outcome.next (gated_uncounted sent effect (.inr (.inl rfl)))
  · intro q w s sent empty
    have effect : wrThCmd w (request q TH_CMD s) = ((request q TH_CMD s).set TH_CMD_outcome Code.range.n).ret .range := if_pos empty
    exact congrArg Host.Outcome.next (gated_uncounted sent effect (.inr (.inr (.inr rfl))))
  · intro s runs
    exact congrArg Host.Outcome.next (thTimer_runs runs)
  · intro mask temps s measures live single stage
    have ended := thMeasEnd_read temps measures live single
    have stays : (thMeasEnd temps s).pwr.st ≠ 3 := by
      rw [ended, st_thMeasEnd]
      exact stage
    exact congrArg Host.Outcome.next ((stopGo_idle stays).trans ended)
  · intro q k w s sent hyst order shutdown
    have thr : ∀ j < 3, (request q (TH_THR k) s).geti (TH_THR_thr j) = s.geti (TH_THR_thr j) := fun j known =>
      geti_request_low q _ s (by simp only [TH_THR_thr, TH_THR]; omega)
    have effect := wrThThr_ordered (w := w) (s := request q (TH_THR k) s) (k := k) hyst (by
      rwa [thr 0 (by decide), thr 1 (by decide), thr 2 (by decide)])
    rw [if_neg fun above => absurd (shutdown above.1) (by omega)] at effect
    exact congrArg Host.Outcome.next (gated_uncounted sent effect (.inl rfl))
  · intro q w s sent hyst order above
    have thr : ∀ j < 3, (request q (TH_THR 2) s).geti (TH_THR_thr j) = s.geti (TH_THR_thr j) := fun j known =>
      geti_request_low q _ s (by simp only [TH_THR_thr, TH_THR]; omega)
    have effect := wrThThr_ordered (w := w) (s := request q (TH_THR 2) s) (k := 2) hyst (by
      rw [thr 0 (by decide), thr 1 (by decide), thr 2 (by decide)]
      exact order)
    rw [if_pos ⟨rfl, above⟩] at effect
    exact congrArg Host.Outcome.next (gated_counted sent effect rfl)
  · intro s stopped
    exact congrArg Host.Outcome.next (if_pos stopped)
  · intro pins s begun quiet still
    have entry := stopEntry_begun (pins := pins.toNat) begun
    rw [if_neg (by simp [quiet]), if_neg (by simp [still])] at entry
    exact congrArg Host.Outcome.next entry
  · intro pins s begun woken
    have entry := stopEntry_begun (pins := pins.toNat) begun
    rw [if_pos woken] at entry
    exact congrArg Host.Outcome.next entry
  · intro pins s stopped source run
    exact congrArg Host.Outcome.next (wakeStart_run stopped source run)
  · intro pins s stage source
    have entry : wakeStart pins.toNat s = updPwr (fun p => { p with wake := some pins.toNat }) s := by
      unfold wakeStart
      rw [if_neg (by simp [source]), if_neg (by omega), if_pos stage]
    exact congrArg Host.Outcome.next entry
  · intro pins s quiet
    exact congrArg Host.Outcome.next (if_pos (by simp [quiet]))
  · intro temps k s ready attic own saved
    exact congrArg Host.Outcome.next (wakeResume_saved ready attic own saved)
  · intro temps s ready hold
    exact congrArg Host.Outcome.next (wakeResume_hold ready hold)
  · intro s due runs steady
    exact congrArg Host.Outcome.next (shutdownStop_runs due runs steady)
  · intro s due entered
    exact congrArg Host.Outcome.next (shutdownStop_entered due entered)

end Sys2Proof.Machine

namespace Sys2Proof.Machine

/-! # What the resets of the blocks leave -/

/-! ## Memory and the test unit -/

section
variable (s : State)

@[simp] theorem aside_mergeDone (who : List (Nat × Nat)) (code : Code) (stale : Bool) : (mergeDone who code stale s).aside = s.aside :=
  aside_foldl (fun _ _ => aside_updCpu ..) who s

@[simp] theorem aside_eccWritten (a : Nat) : (eccWritten a s).aside = s.aside := by
  unfold eccWritten
  split <;> rfl

@[simp] theorem aside_putBytes (a : Nat) (l : List Byte) : (s.putBytes a l).aside = s.aside := by
  induction l generalizing a s with
  | nil => rfl
  | cons b l ih => exact ih { s with mem := memPut s.mem a b } (a + 1)

@[simp] theorem aside_putFree (a n : Nat) : (putFree a n s).aside = s.aside := aside_putBytes s a _

@[simp] theorem aside_write8 (u a : Nat) (bytes : List Byte) : (write8 u a bytes s).aside = s.aside := by
  unfold write8
  dsimp only
  rw [aside_eccWritten, aside_putBytes, aside_foldl fun _ _ => aside_mergeDone ..]
  rfl

@[simp] theorem aside_ledger (kind u row res det : Nat) : (ledger kind u row res det s).aside = s.aside := by
  unfold ledger
  dsimp only
  rw [aside_incMod, aside_incMod]
  split
  · split
    · rfl
    · rw [aside_write8, aside_write8]
  · rfl

@[simp] theorem aside_ledgerFree (kind u row : Nat) (res det : Option Nat) : (ledgerFree kind u row res det s).aside = s.aside := by
  unfold ledgerFree
  rw [aside_ledger]
  cases res <;> cases det <;> rfl

@[simp] theorem aside_lbRecord (o : Code) (res reason : Nat) : (lbRecord o res reason s).aside = s.aside := by
  unfold lbRecord
  split
  · split <;> simp
  · rfl

@[simp] theorem aside_resetBst (why : Nat) : (resetBst why s).aside = s.aside := by
  unfold resetBst
  dsimp only
  rw [aside_updBst, aside_forN fun _ _ => aside_set .., aside_foldl fun _ _ => aside_wr .., aside_dropRange, aside_lbRecord,
    aside_foldl fun _ _ => aside_ledger ..]

/-! ## The radio's blocks -/

@[simp] theorem aside_setRole (r : Nat) : (setRole r s).aside = s.aside := by
  simp [setRole, snkEvt]

@[simp] theorem aside_setFstate (n t : Nat) : (setFstate n t s).aside = s.aside := by
  have yields : ∀ v : State, (pairYield 1 v).aside = v.aside := fun v => aside_setRole ..
  have down : ∀ v : State, (linkDown n v).aside = v.aside := fun v => by simp [linkDown, snkEvt, aside_ite]
  have faults : ∀ v : State, (pairFaultEval v).aside = v.aside := fun v => by simp [pairFaultEval, aside_ite, yields]
  simp [setFstate, aside_ite, aside_forN, faults, down]

@[simp] theorem aside_resetLane (n : Nat) : (resetLane n s).aside = s.aside := by
  have lost : (framerLost n s).aside = s.aside := by
    unfold framerLost
    split <;> simp [frameLost, frmEvt, frmCount]
  simp [resetLane, resetDet, resetConv, lost]

@[simp] theorem aside_resetHost (n : Nat) : (resetHost n s).aside = s.aside := by
  have broken : (groupBreak n s).aside = s.aside := aside_forN (fun _ _ => by simp [aside_ite]) 8 s
  unfold resetHost
  dsimp only
  split
  · split <;> simp [broken]
  · simp [broken]

@[simp] theorem aside_resetFraming : (resetFraming s).aside = s.aside := by
  have framers : (forN 8 (fun n s => if fstate n s = 0 then s else setFstate n 0 s) s).aside = s.aside :=
    aside_forN (fun _ _ => by simp [aside_ite]) 8 s
  unfold resetFraming resetFrm
  dsimp only
  rw [aside_forN fun _ _ => aside_forceOn ..]
  exact framers

@[simp] theorem aside_resetRpt : (resetRpt s).aside = s.aside := rfl

@[simp] theorem aside_resetDma : (resetDma s).aside = s.aside := rfl

@[simp] theorem aside_resetPmc : (resetPmc s).aside = s.aside := rfl

@[simp] theorem aside_resetSnk (full : Bool) : (resetSnk full s).aside = s.aside := by
  unfold resetSnk
  dsimp only
  split
  · rfl
  · split
    · rw [aside_set, aside_set, aside_wr, aside_wr]
      rfl
    · rw [aside_set, aside_wr, aside_wr]
      rfl

@[simp] theorem aside_resetFen : (resetFen s).aside = s.aside := by
  unfold resetFen
  dsimp only
  rw [aside_rfcShow, aside_forN fun _ _ => aside_gatesClose .., aside_wr]
  rfl

@[simp] theorem aside_donorSet (g : Nat) (v : Bool) : (donorSet g v s).aside = s.aside := by
  simp [donorSet, donorRise, donorFall, rptEvt, aside_ite, aside_forN]

@[simp] theorem aside_resetLst : (resetLst s).aside = s.aside := by
  have floor : ∀ k v, (nrsRefresh k v).aside = v.aside := fun _ _ => (aside_set ..).trans (aside_set ..)
  unfold resetLst
  dsimp only
  rw [aside_forN floor, aside_forN fun _ _ => aside_donorSet ..]
  rfl

@[simp] theorem aside_lstToOff (ch reason : Nat) : (lstToOff ch reason s).aside = s.aside := by
  have event : ∀ b v, (rxEvt ch b v).aside = v.aside := fun b v => aside_flagLimited ..
  simp [lstToOff, dropCand, rxEnd, rxRecord, aside_ite, event]

theorem aside_portsZero : (portsZero s).aside = s.aside := by
  unfold portsZero
  rw [aside_foldl]
  · rfl
  · exact fun _ _ => rfl

theorem aside_pathsLeft : (if rptHeld s = true then s else forN 128 (fun k s => rptLeft k 4 s) s).aside = s.aside := by
  simp [aside_ite, aside_forN]

theorem aside_channelsOff : (if lstHeld s = true then s else forN 2 (fun ch s =>
    if lstState ch s ≠ 0 then (lstToOff ch 5 s).set (LST_CH_STAT_off_reason ch) 1 else s) s).aside = s.aside := by
  split
  · rfl
  · refine aside_forN (fun ch v => ?_) 2 s
    split
    · exact (aside_set ..).trans (aside_lstToOff ..)
    · rfl

theorem aside_bandCleared (b : List BndP) (y : BndSync) (m : Meas) :
    ({ s with bnd := b, bsync := y, bandTime := 0, admSeq := 0, meas := m, inq := [], carry := [] } : State).aside = s.aside := rfl

@[simp] theorem aside_resetBnd : (resetBnd s).aside = s.aside := by
  unfold resetBnd
  dsimp only
  rw [aside_channelsOff, aside_pathsLeft, aside_admShow, aside_admShow]
  exact (aside_bandCleared ((portsZero s).dropRange BND_EVT (BND_PATH_CFG 128)) (List.replicate 128 {}) {} {}).trans
    ((aside_dropRange ..).trans (aside_portsZero s))

/-! ## SC's side -/

@[simp] theorem aside_shelfLost (l : Load) : (shelfLost l s).aside = s.aside :=
  (show (shelfLost l s).aside = (putFree (shelfBase l.c l.shelf) (shelfSize l.c) s).aside from rfl).trans (aside_putFree ..)

@[simp] theorem aside_loadCut : (loadCut s).aside = s.aside := by
  unfold loadCut
  split
  · rw [aside_shelfLost]
    rfl
  · rfl

@[simp] theorem aside_cpuReset (c : Nat) : (cpuReset c s).aside = s.aside := aside_updCpu ..

@[simp] theorem aside_resetCores : (resetCores s).aside = s.aside := by
  simp [resetCores, resetCelWin, aside_forN]

@[simp] theorem aside_extestEnd : (extestEnd s).aside = s.aside := by
  simp [extestEnd, aside_ite, aside_forN]

@[simp] theorem aside_showSlot (k : Nat) : (showSlot k s).aside = s.aside := by
  unfold showSlot
  dsimp only
  rw [aside_forN fun _ _ => aside_wr .., aside_wr]

@[simp] theorem aside_ownAttic : (ownAttic s).aside = s.aside := by
  unfold ownAttic
  split
  · rfl
  extract_lets policy slots floors level
  have policies : policy.aside = s.aside := by
    simp only [policy]
    split <;> rfl
  have shown : slots.aside = s.aside := (aside_forN (fun _ _ => aside_showSlot ..) 12 policy).trans policies
  have floored : floors.aside = s.aside := by
    simp only [floors]
    rw [aside_forN fun _ _ => aside_wr .., shown]
  have opened : level.aside = s.aside := by
    simp only [level]
    split
    · exact floored
    · rw [aside_set, floored]
  clear_value level
  split
  · rw [aside_forN fun _ _ => aside_wr .., aside_forN fun _ _ => aside_wr .., opened]
  · exact opened

@[simp] theorem aside_resetOwn (full keepKey : Bool) : (resetOwn full keepKey s).aside = s.aside := by
  unfold resetOwn
  extract_lets fails lock key ram ended signed marks log dropped logged marked kept keyed hw
  have first : ended.aside = s.aside := aside_extestEnd s
  have second : signed.aside = s.aside := by
    simp only [signed]
    split
    · split <;> exact (aside_putFree ..).trans first
    · exact first
  have third : dropped.aside = s.aside := (aside_dropRange ..).trans second
  have fourth : marked.aside = s.aside := by
    simp only [marked, logged]
    rw [aside_forN fun _ _ => (aside_set ..).trans (aside_set ..), aside_foldl fun _ _ => aside_wr .., third]
  clear_value marked
  have fifth : kept.aside = s.aside := by
    simp only [kept]
    split
    · exact third
    · rw [aside_set, aside_set, fourth]
  have sixth : keyed.aside = s.aside := by
    simp only [keyed]
    split
    · rw [aside_set, fifth]
    · exact fifth
  clear_value keyed
  rw [aside_ownAttic, ← sixth]
  rfl

@[simp] theorem aside_resetMem : (resetMem s).aside = s.aside := rfl

@[simp] theorem aside_resetEvr : (resetEvr s).aside = s.aside := rfl

@[simp] theorem aside_resetHkc : (resetHkc s).aside = s.aside := rfl

@[simp] theorem aside_resetGrd : (resetGrd s).aside = s.aside := by
  unfold resetGrd
  dsimp only
  rw [aside_forN fun _ _ => aside_forceOff .., aside_set]
  rfl

end

end Sys2Proof.Machine

namespace Sys2Proof.Machine

/-! # Resets, block resets, lockstep and the start of SC (R328, R329, R392 to R408) -/

section
variable {q : Rq} {w : Word} {s : State}

/-- Views of what the blocks' resets leave. -/
theorem rst_of_aside {s t : State} (aside : t.aside = s.aside) : t.rst = s.rst := congrArg (·.1) aside

theorem reply_of_aside {s t : State} (aside : t.aside = s.aside) : t.reply = s.reply := congrArg (·.2.1) aside

theorem norWave_of_aside {s t : State} (aside : t.aside = s.aside) : t.norWave = s.norWave := congrArg (·.2.2.1) aside

theorem now_of_aside {s t : State} (aside : t.aside = s.aside) : t.now = s.now := congrArg (·.2.2.2.2.2) aside

/-! ## The reach of a command reset -/

theorem reply_setCauses (bits : List Nat) (s : State) : (setCauses bits s).reply = s.reply := by
  have cleared : (if s.on RST_CAUSE_last_only && !sameCycle s then s.set ⟨RST_CAUSE, 0, 7⟩ 0 else s).reply = s.reply := by
    split <;> rfl
  unfold setCauses
  dsimp only
  rw [foldl_fixes State.reply]
  · exact cleared
  · exact fun t b => reply_of_aside (aside_set t ⟨RST_CAUSE, b, 1⟩ 1)

/-- The blocks that a command reset reaches. -/
theorem reply_blockDown {b : Nat} (reached : b ∈ [26, 21, 22, 23, 20, 19, 18, 17, 25]) (s : State) :
    (blockDown false b s).reply = s.reply := by
  simp only [List.mem_cons, List.not_mem_nil, or_false] at reached
  rcases reached with rfl | rfl | rfl | rfl | rfl | rfl | rfl | rfl | rfl
  · exact reply_of_aside (aside_resetBst ..)
  · exact reply_of_aside (aside_resetDma s)
  · rfl
  · exact reply_of_aside (aside_resetSnk s false)
  · exact reply_of_aside (aside_resetFen s)
  · exact reply_of_aside (aside_resetLst s)
  · exact reply_of_aside (aside_resetRpt s)
  · exact reply_of_aside (aside_resetBnd s)
  · exact reply_of_aside (aside_resetPmc s)

theorem reply_pwrCancel (s : State) : (pwrCancel s).reply = s.reply := by
  unfold pwrCancel
  dsimp only
  split <;> rfl

theorem reply_resetWide (s : State) : (resetWide s).reply = s.reply := by
  have blocks : ([26, 21, 22, 23, 20, 19, 18, 17, 25].foldl (fun s b => blockDown false b s) s).reply = s.reply :=
    List.foldlRecOn (motive := fun t : State => t.reply = s.reply) _ _ rfl fun t same b reached => (reply_blockDown reached t).trans same
  have side : ∀ t, (resetMem (resetOwn false true (resetCores t))).reply = t.reply := fun t =>
    reply_of_aside ((aside_resetMem _).trans ((aside_resetOwn ..).trans (aside_resetCores t)))
  have quiet : ∀ t : State, (romQuiet (t.wr CRP_BOOT_STAT 0)).reply = t.reply := fun _ => rfl
  unfold resetWide
  dsimp only
  rw [reply_of_aside (aside_resetEvr _), resetClkout, reply_of_aside (aside_wr ..), reply_pwrCancel, quiet, side, blocks]

theorem reply_wideReset (causes : List Nat) (s : State) : (wideReset causes s).reply = s.reply := by
  unfold wideReset
  dsimp only
  split
  · exact reply_setCauses ..
  · exact (reply_resetWide _).trans (reply_setCauses ..)

/-! ## RESET_N -/

theorem aside_lanesHeld (s : State) :
    (forN 8 (fun n s => forceOff n causeHold (blockDown false (8 + n) (blockDown false n s))) s).aside = s.aside := by
  have lane : ∀ n < 8, ∀ t, (forceOff n causeHold (blockDown false (8 + n) (blockDown false n t))).aside = t.aside := fun n below t => by
    have line : blockDown false n t = resetLane n t := if_pos below
    have host : ∀ u, blockDown false (8 + n) u = resetHost n u := fun u =>
      (if_neg (by omega)).trans ((if_pos (by omega)).trans (by rw [Nat.add_sub_cancel_left]))
    rw [aside_forceOff, host, line, aside_resetHost, aside_resetLane]
  exact List.foldlRecOn (motive := fun t : State => t.aside = s.aside) _ _ rfl fun t same n below =>
    (lane n (List.mem_range.1 below) t).trans same

/-- The radio side of a reset of the whole die. -/
def radioReset (s : State) : State :=
  resetSnk true (resetFen (resetLst (resetRpt (resetBnd (blockDown false 16
    (forN 8 (fun n s => forceOff n causeHold (blockDown false (8 + n) (blockDown false n s))) s))))))

theorem aside_radioReset (s : State) : (radioReset s).aside = s.aside := by
  have framing : ∀ t, blockDown false 16 t = resetFraming t := fun _ => rfl
  rw [radioReset, aside_resetSnk, aside_resetFen, aside_resetLst, aside_resetRpt, aside_resetBnd, framing, aside_resetFraming,
    aside_lanesHeld]

/-- The rest of it, in its order: storage and DMA, the bias pins and limits, SC's side, the memories. -/
def sideReset (full : Bool) (s : State) : State :=
  let s := resetSto (resetDma (resetBstFull (resetPmc (s.wr RPT_CEIL (resetWord RPT_CEIL)))))
  let s := resetGrd (resetHkc s)
  let s := forN 13 (updCpu · (fun k => { k with entryA := 0, entryB := 0, verA := 0, verB := 0 })) (forN 13 cpuReset (resetCelWin s))
  let s := resetOwn full (!full) (setLoad none s)
  stillDie ((resetMem s).set MEM_FILL_STAT_done 0)

theorem resetDie_parts (full : Bool) (s : State) :
    resetDie full s = resetEvr (resetClkout (pwrCancel (romQuiet ((sideReset full (radioReset s)).wr CRP_BOOT_STAT 0)))) := rfl

/-- The boot-flash master's transaction ends; no reset in force changes. -/
theorem sideReset_rst (full : Bool) (s : State) : (sideReset full s).rst = s.rst ∧ (sideReset full s).norWave = [] := by
  have stored : ∀ t, (resetSto t).rst = t.rst ∧ (resetSto t).norWave = [] := fun _ => ⟨rfl, rfl⟩
  have cores : ∀ t, (forN 13 (updCpu · (fun k => { k with entryA := 0, entryB := 0, verA := 0, verB := 0 })) (forN 13 cpuReset
      (resetCelWin t))).aside = t.aside := fun t => by
    rw [aside_forN fun _ _ => aside_updCpu .., aside_forN fun _ _ => aside_cpuReset .., resetCelWin, aside_updCel, aside_wr]
  have rest : ∀ t, (stillDie ((resetMem (resetOwn full (!full) (setLoad none t))).set MEM_FILL_STAT_done 0)).aside = t.aside := fun t => by
    have still : ∀ v, (stillDie v).aside = v.aside := fun _ => rfl
    have unloaded : (setLoad none t).aside = t.aside := rfl
    rw [still, aside_set, aside_resetMem, aside_resetOwn, unloaded]
  have after : ∀ t, (stillDie ((resetMem (resetOwn full (!full) (setLoad none (forN 13 (updCpu · (fun k =>
      { k with entryA := 0, entryB := 0, verA := 0, verB := 0 })) (forN 13 cpuReset (resetCelWin (resetGrd (resetHkc t)))))))).set
      MEM_FILL_STAT_done 0)).aside = t.aside := fun t => by
    rw [rest, cores, aside_resetGrd, aside_resetHkc]
  obtain ⟨rst, wave⟩ := stored (resetDma (resetBstFull (resetPmc (s.wr RPT_CEIL (resetWord RPT_CEIL)))))
  exact ⟨(rst_of_aside (after _)).trans rst, (norWave_of_aside (after _)).trans wave⟩

theorem resetDie_pins (full : Bool) (s : State) :
    (resetDie full s).rst = { s.rst with reads := [], readT := 0 } ∧ (resetDie full s).norWave = [] := by
  have cancelled : ∀ t : State, (pwrCancel t).rst = t.rst ∧ (pwrCancel t).norWave = t.norWave := fun t => by
    unfold pwrCancel
    dsimp only
    split <;> exact ⟨rfl, rfl⟩
  have quiet : ∀ t : State, (romQuiet (t.wr CRP_BOOT_STAT 0)).rst = { t.rst with reads := [], readT := 0 } ∧
      (romQuiet (t.wr CRP_BOOT_STAT 0)).norWave = t.norWave := fun _ => ⟨rfl, rfl⟩
  have last : ∀ t, (resetEvr (resetClkout t)).aside = t.aside := fun t => by rw [aside_resetEvr, resetClkout, aside_wr]
  obtain ⟨rst, wave⟩ := sideReset_rst full (radioReset s)
  rw [resetDie_parts, rst_of_aside (last _), norWave_of_aside (last _), (cancelled _).1, (cancelled _).2, (quiet _).1, (quiet _).2, rst,
    wave, rst_of_aside (aside_radioReset s)]
  exact ⟨rfl, rfl⟩

/-- The reset stays in force, and the boot flash is deselected. -/
theorem resetFull_pins (s : State) :
    (resetFull s).rst.resetN = s.rst.resetN ∧ (resetFull s).rst.reads = [] ∧ (resetFull s).norWave = [] := by
  have supply : ∀ t, (resetPwr t).rst = t.rst ∧ (resetPwr t).norWave = t.norWave := fun t => by
    have off : (if t.on TH_STAT_shutdown then shutdownOff t else t).aside = t.aside := by
      split
      · exact aside_shutdownOff t
      · rfl
    have rst := rst_of_aside off
    have wave := norWave_of_aside off
    exact ⟨rst, wave⟩
  have clocks : ∀ t, (resetClk t).rst = t.rst ∧ (resetClk t).norWave = t.norWave := fun _ => ⟨rfl, rfl⟩
  have registers : ∀ t, (resetCrp t).rst = t.rst ∧ (resetCrp t).norWave = t.norWave := fun _ => ⟨rfl, rfl⟩
  have released : (portsFenced (updRst (fun r => { r with held := [], relReq := [], relDue := [] }) s)).rst.resetN = s.rst.resetN := by
    rw [rst_portsFenced]
    rfl
  obtain ⟨rst, wave⟩ := resetDie_pins true (portsFenced (updRst (fun r => { r with held := [], relReq := [], relDue := [] }) s))
  rw [resetFull, (registers _).1, (registers _).2, (supply _).1, (supply _).2, (clocks _).1, (clocks _).2, rst, wave]
  exact ⟨released, rfl, rfl⟩

theorem emmcRstN_resetN (held : s.rst.resetN = true) : emmcRstN s = false := by simp [emmcRstN, held]

theorem bootCsN_idle (reads : s.rst.reads = []) (wave : s.norWave = []) : bootCsN s = true := by
  rw [bootCsN, bootWave, reads, wave]
  rfl

/-- The always-on domain's registers after its own power-on reset. -/
theorem aonReset_registers (s : State) : (aonReset s).rd RST_CAUSE = 1 ∧ (aonReset s).clk.aon = 0 ∧ (aonReset s).clk.load = none ∧
    (aonReset s).get CRP_CLK_STAT_aosc_ready = 0 ∧ (aonReset s).rd CRP_AON_TIME_H = 0 ∧
    (aonReset s).rd CRP_AOSC_INC = resetWord CRP_AOSC_INC := by
  have ready : ∀ (t : State) {a : Nat}, CRP_CLK_STAT ≠ a → (t.set CRP_CLK_STAT_aosc_ready 0).rd a = t.rd a := fun t _ other =>
    rd_set_ne t 0 other
  have restarts : ∀ t : State, (t.set CRP_ATTIC_STAT_restarts 0).rd RST_CAUSE = t.rd RST_CAUSE := fun t => rd_set_ne t 0 (by decide)
  refine ⟨?_, rfl, rfl, ?_, ?_, ?_⟩
  · exact (ready _ (by decide)).trans ((rd_wr_ne _ 0 (by decide)).trans ((rd_wr_ne _ _ (by decide)).trans
      ((restarts _).trans (rd_wr_self s RST_CAUSE 1))))
  · exact (get_set _ CRP_CLK_STAT_aosc_ready 0 (by decide)).trans (Nat.zero_mod _)
  · exact (ready _ (by decide)).trans (rd_wr_self ..)
  · exact (ready _ (by decide)).trans ((rd_wr_ne _ 0 (by decide)).trans (rd_wr_self ..))

/-! ## Releases -/

theorem pinRelease_last (free : s.rst.por = false ∧ s.rst.resetN = false ∧ s.rst.wide = false) :
    pinRelease s = forN 27 blockUp (updRst (fun r => { r with atticBusy := true, fillBusy := true, causeAt := none }) (sampleStraps s)) := by
  obtain ⟨por, resetN, wide⟩ := free
  have straps : (sampleStraps s).rst = s.rst := by
    unfold sampleStraps
    dsimp only
    split <;> rfl
  have open_ : fullHeld (sampleStraps s) = false := by simp [fullHeld, straps, por, resetN, wide]
  have sampled : (if (s.rst.por || s.rst.resetN) = true then s else sampleStraps s) = sampleStraps s := if_neg (by simp [por, resetN])
  rw [pinRelease, sampled, bootStart, if_neg (ne_true_of_eq_false open_)]

/-! ## The block bits -/

/-- A loop of which one pass does something. -/
theorem forN_one {n b : Nat} {f : Nat → State → State} (known : b < n) (others : ∀ i < n, i ≠ b → ∀ t, f i t = t) (s : State) :
    forN n f s = f b s := by
  have loop : ∀ l : List Nat, l.Nodup → (∀ i ∈ l, i < n) → ∀ t, l.foldl (fun s i => f i s) t = if b ∈ l then f b t else t := by
    intro l
    induction l with
    | nil => exact fun _ _ _ => rfl
    | cons i l ih =>
      intro distinct below t
      obtain ⟨fresh, distinct⟩ := List.nodup_cons.1 distinct
      rw [List.foldl_cons, ih distinct fun j hj => below j (List.mem_cons_of_mem i hj)]
      by_cases same : i = b
      · subst same
        simp [fresh]
      · rw [others i (below i List.mem_cons_self) same]
        simp [Ne.symm same]
  exact (loop _ List.nodup_range (fun i => List.mem_range.1) s).trans (if_pos (List.mem_range.2 known))

/-- The stored word has the written word's bits. -/
theorem bit_store_blkRst {i : Nat} (known : i < 27) : bit ((s.store CRP_BLK_RST CRP_BLK_RST_fs w).rd CRP_BLK_RST) i = bit w i := by
  rw [State.store, rd_wr_self]
  have stored := getLsbD_putField (s.rd CRP_BLK_RST) 0 27 (fieldOf w 0 27) i (by omega)
  rw [if_pos (by omega), testBit_fieldOf] at stored
  simp only [known, decide_true, Bool.true_and, Nat.sub_zero, Nat.zero_add] at stored
  exact stored

/-- Where the write changes bit b alone. -/
theorem wrBlkRst_one {b : Nat} (known : b < 27) (others : ∀ i < 27, i ≠ b → bit w i = bit (s.rd CRP_BLK_RST) i) :
    wrBlkRst w s =
      (let t := s.store CRP_BLK_RST CRP_BLK_RST_fs w
      (if bit w b && !bit (s.rd CRP_BLK_RST) b then blkSet b t
        else if bit (s.rd CRP_BLK_RST) b && !bit w b then blkClear b t else t).ret .done) := by
  unfold wrBlkRst
  dsimp only
  rw [forN_one known, bit_store_blkRst known]
  intro i below other t
  rw [bit_store_blkRst below, others i below other]
  simp

theorem bit_blkWordSet (b i : Nat) (below : i < 27) :
    bit (blkWordSet b s) i = (bit (s.rd CRP_BLK_RST) i || decide (i = b)) := by
  have one : (BitVec.ofNat 32 (2 ^ b) : Word).getLsbD i = decide (i = b) := by
    rw [BitVec.getLsbD_ofNat, Nat.testBit_two_pow]
    simp [show i < 32 by omega, eq_comm]
  rw [bit, bit, BitVec.getLsbD_or, one]

theorem bit_blkWordClear (b i : Nat) (below : i < 27) :
    bit (blkWordClear b s) i = (bit (s.rd CRP_BLK_RST) i && !decide (i = b)) := by
  have one : (BitVec.ofNat 32 (2 ^ b) : Word).getLsbD i = decide (i = b) := by
    rw [BitVec.getLsbD_ofNat, Nat.testBit_two_pow]
    simp [show i < 32 by omega, eq_comm]
  rw [bit, bit, BitVec.getLsbD_and, BitVec.getLsbD_not, one]
  simp [show i < 32 by omega]

/-! ## The block bits in the state that has accepted the write -/

theorem blkRst_request (b : Nat) : (request q b s).rd CRP_BLK_RST = s.rd CRP_BLK_RST := rd_request_low (by decide)

theorem wrBlkRst_set {b : Nat} (known : b < 27) (low : bit (s.rd CRP_BLK_RST) b = false) :
    wrBlkRst (blkWordSet b s) (request q CRP_BLK_RST s) = (blkSet b (wrote q CRP_BLK_RST CRP_BLK_RST_fs (blkWordSet b s) s)).ret .done := by
  rw [wrBlkRst_one known, blkRst_request, bit_blkWordSet b b known, low]
  · simp
  · intro i below other
    rw [blkRst_request, bit_blkWordSet b i below]
    simp [other]

theorem wrBlkRst_clear {b : Nat} (known : b < 27) (high : bit (s.rd CRP_BLK_RST) b = true) :
    wrBlkRst (blkWordClear b s) (request q CRP_BLK_RST s) =
      (blkClear b (wrote q CRP_BLK_RST CRP_BLK_RST_fs (blkWordClear b s) s)).ret .done := by
  rw [wrBlkRst_one known, blkRst_request, bit_blkWordClear b b known, high]
  · simp
  · intro i below other
    rw [blkRst_request, bit_blkWordClear b i below]
    simp [other]

/-! ## Lockstep and the attic -/

theorem MemStep.now {s t : State} (step : MemStep s t) : t.now = s.now := by
  have same := congrArg State.now step.2
  exact same

theorem now_loadAbort (c : Nat) (s : State) : (loadAbort c s).now = s.now := by
  have ended : ∀ o step reason v, (loadEnd o step reason v).aside = v.aside := fun o step reason v => by
    have started : ∀ u, (signStart u).aside = u.aside := fun _ => rfl
    have done : ({ v.set OWN_LD_RESULT_outcome o.n with load := none } : State).aside = v.aside := rfl
    rw [loadEnd, aside_raise, aside_set, aside_set, aside_set, started, done]
  unfold loadAbort
  split
  · split
    · rw [now_of_aside (ended ..), now_of_aside (aside_shelfLost ..)]
    · rfl
  · rfl

theorem now_scRestart (s : State) : (loadAbort 12 (cpuReset 12 (portDrain 12 s))).now = s.now :=
  (now_loadAbort ..).trans ((now_of_aside (aside_cpuReset ..)).trans (memStep_retireWith ..).now)

/-- SC restarts after a mismatch at time n. -/
def lockRestart (s : State) (n : Nat) : State :=
  romStart (({ (((loadAbort 12 (cpuReset 12 (portDrain 12 s))).set (OWN_CORE_STAT_armed 12) 0).set (OWN_CORE_STAT_fenced 12) 0).set
    (OWN_CORE_STAT_active 12) 0 with lockAt := some n } : State).raise 6)

theorem lockstep_first (runs : scRuns s = true) (first : s.lockAt = none) :
    lockstep s = lockRestart ((s.addSat EVR_LOCK_STAT_count 1).wr EVR_LOCK_PC (s.cpu 12).pc) s.now := by
  have start := now_scRestart ((s.addSat EVR_LOCK_STAT_count 1).wr EVR_LOCK_PC (s.cpu 12).pc)
  have counted : ((s.addSat EVR_LOCK_STAT_count 1).wr EVR_LOCK_PC (s.cpu 12).pc).lockAt = none := first
  unfold lockstep
  rw [if_neg (by simp [runs])]
  dsimp only
  rw [counted]
  dsimp only
  rw [if_neg (by decide)]
  exact congrArg (lockRestart _) start

theorem lockstep_second {t : Nat} (runs : scRuns s = true) (first : s.lockAt = some t) (soon : s.now < t + 1000 * msTicks) :
    lockstep s = wideReset [4] { (s.addSat EVR_LOCK_STAT_count 1).wr EVR_LOCK_PC (s.cpu 12).pc with lockAt := none } := by
  have counted : ((s.addSat EVR_LOCK_STAT_count 1).wr EVR_LOCK_PC (s.cpu 12).pc).lockAt = some t := first
  unfold lockstep
  rw [if_neg (by simp [runs])]
  dsimp only
  rw [counted]
  exact if_pos (decide_eq_true soon)

theorem atticDone_loaded (busy : s.rst.atticBusy = true ∧ fullHeld s = false) :
    atticDone s = if (s.attic.a.ok || s.attic.b.ok) = true then atticValues (atticShown s)
      else forN 8 (fun n u => forceOn n causeHold u) (atticShown s) := if_neg (by simp [busy])

theorem blkRelease_wider {b : Nat} (asked : s.rst.relReq.contains b = true) (wider : widerHeld b s = true)
    (first : s.rst.relDue.contains b = false) : blkRelease b s = updRst (fun r => { r with relDue := b :: r.relDue }) s := by
  unfold blkRelease
  rw [if_neg (by rw [asked]; decide), if_pos wider, updRst, if_neg (ne_true_of_eq_false first), updRst]

/-! ## The boot ROM -/

/-- The ROM's start, step by step (R402, R404, R406, R407). -/
theorem romStart_steps (s : State) :
    romStart s =
      (let r := if s.on (pllReady 2) = true then romWrites (wrSysSel 1) (romQuiet (s.wr CRP_BOOT_STAT 0))
        else romQuiet (s.wr CRP_BOOT_STAT 0)
      if r.on CRP_ATTIC_STAT_hold = true then r.set CRP_BOOT_STAT_stage 6
      else if r.on (OWN_CORE_STAT_chk_a 12) = true then updCpu 12 (fun k => { k with wait := .swap 0 })
        ((((r.set CRP_BOOT_STAT_warm 1).set CRP_BOOT_STAT_stage 4).set (OWN_CORE_STAT_armed 12) 1).set (OWN_CORE_STAT_fenced 12) 1)
      else
        let u := romFetch 0x2000000 64 (romFetch 0 64 r)
        let t := ((u.set CRP_BOOT_STAT_stage 1).set CRP_BOOT_STAT_dir0_ok (dirOk (dirBytes 0 u)).toNat).set CRP_BOOT_STAT_dir1_ok
          (dirOk (dirBytes 1 u)).toNat
        romTries (bootOrder t) t) := by
  have source : (romQuiet (s.wr CRP_BOOT_STAT 0)).on (pllReady 2) = s.on (pllReady 2) := by
    have same := rd_wr_ne s 0 (show CRP_BOOT_STAT ≠ (pllReady 2).a by decide)
    exact congrArg (fun w => decide (fieldOf w 2 1 = 1)) same
  unfold romStart
  dsimp only
  rw [source]
  rfl

theorem mem_bootOrder (d : Nat) (s : State) : d ∈ bootOrder s ↔ d < 2 ∧ dirOk (dirBytes d s) = true := by
  have both : ∀ p : Prop, [Decidable p] → (d ∈ (if p then [1, 0] else [0, 1]) ↔ d < 2) := fun p _ => by
    split <;> simp <;> omega
  rw [bootOrder, List.mem_filter, both]

theorem bootOrder_newer (newer : hdrF (dirBytes 0 s) 8 4 < hdrF (dirBytes 1 s) 8 4) : bootOrder s ≠ [0, 1] := by
  rw [bootOrder, if_pos newer]
  cases ok1 : dirOk (dirBytes 1 s) <;> cases ok0 : dirOk (dirBytes 0 s) <;> simp [ok0, ok1]

theorem bootOrder_older (older : hdrF (dirBytes 1 s) 8 4 ≤ hdrF (dirBytes 0 s) 8 4) : bootOrder s ≠ [1, 0] := by
  rw [bootOrder, if_neg (Nat.not_lt.2 older)]
  cases ok1 : dirOk (dirBytes 1 s) <;> cases ok0 : dirOk (dirBytes 0 s) <;> simp [ok0, ok1]

end

/-- Settles O43: the resets' own parts leave the reset in force, the reply and the time; a write of CRP_BLK_RST acts on its one changed
bit. -/
theorem resetCommands : Obligations.ResetCommands := by
  unfold Obligations.ResetCommands
  refine ⟨?_, ?_, ?_, ?_, ?_, ?_, ?_, ?_, ?_, ?_, ?_, ?_, ?_, ?_, ?_, ?_, ?_, ?_, ?_, ?_, ?_, ?_⟩
  · exact fun s => ⟨rfl, rfl⟩
  · intro s
    obtain ⟨held, reads, wave⟩ := resetFull_pins (fullReset 1 (fun r => { r with resetN := true }) s)
    exact ⟨_, rfl, held, emmcRstN_resetN held, bootCsN_idle reads wave⟩
  · intro s por free
    refine congrArg Host.Outcome.next ((if_pos por).trans (pinRelease_last ?_))
    exact ⟨rfl, free.1, free.2⟩
  · intro s held free
    refine congrArg Host.Outcome.next ((if_pos (by simp [held.1, on_of_get held.2])).trans (pinRelease_last ?_))
    exact ⟨free.1, rfl, free.2⟩
  · intro s
    exact ⟨_, rfl, aonReset_registers s⟩
  · intro q s sent apart
    have effect : wrCmdReset 0x6D3B (request q CRP_CMD_RESET s) = wideReset [2] ((request q CRP_CMD_RESET s).ret .done) := if_pos rfl
    refine congrArg Host.Outcome.next ((if_neg (ne_true_of_eq_false apart)).trans (gated_uncounted sent effect (.inl ?_)))
    rw [reply_wideReset]
    rfl
  · intro q w s sent other
    have effect : wrCmdReset w (request q CRP_CMD_RESET s) = (request q CRP_CMD_RESET s).ret .range := if_neg other
    have apart : ¬cmdWithWd q w s = true := by
      rw [cmdWithWd, decide_eq_false other]
      simp
    exact congrArg Host.Outcome.next ((if_neg apart).trans (gated_uncounted sent effect (.inr (.inr (.inr rfl)))))
  · intro s held
    exact congrArg Host.Outcome.next (if_pos (by simp [held]))
  · intro q w s sent
    have cause : (request q RST_CAUSE s).rd RST_CAUSE = s.rd RST_CAUSE := rd_request_low (by decide)
    have lock : (request q RST_CAUSE s).on RST_CAUSE_mode_lock = s.on RST_CAUSE_mode_lock := on_request_low (by decide)
    have effect : wrRstCause w (request q RST_CAUSE s) = ((((request q RST_CAUSE s).wr RST_CAUSE (mergeWord RST_CAUSE_fs
        (s.rd RST_CAUSE) w (s.on RST_CAUSE_mode_lock))).set RST_CAUSE_mode_lock 1).ret .done) := by rw [wrRstCause, cause, lock]
    exact congrArg Host.Outcome.next (gated_uncounted sent effect (.inl rfl))
  · intro q b s sent low
    exact congrArg Host.Outcome.next (gated_uncounted sent (wrBlkRst_set b.isLt low) (.inl rfl))
  · intro q b s sent high
    exact congrArg Host.Outcome.next (gated_uncounted sent (wrBlkRst_clear b.isLt high) (.inl rfl))
  · intro b s asked free
    exact congrArg Host.Outcome.next ((if_neg (by rw [asked]; decide)).trans (if_neg (ne_true_of_eq_false free)))
  · intro b s asked wider first
    exact congrArg Host.Outcome.next (blkRelease_wider asked wider first)
  · intro s runs first
    exact congrArg Host.Outcome.next (lockstep_first runs first)
  · intro t s runs first soon
    exact congrArg Host.Outcome.next (lockstep_second runs first soon)
  · intro s due
    exact congrArg Host.Outcome.next (if_pos (by simp [due.1, on_of_get due.2]))
  · intro s busy
    exact congrArg Host.Outcome.next (atticDone_loaded busy)
  · intro s free
    exact congrArg Host.Outcome.next (if_neg (by simp [free]))
  · exact romStart_steps
  · exact fun s => rfl
  · exact fun d s => ⟨mem_bootOrder d s, bootOrder_newer, bootOrder_older⟩
  · exact fun s => rfl

end Sys2Proof.Machine
